-- ==== Sys2Proof/Word.lean ====
section
/-! DEFINITION. The words of the machine: the names of the bit widths the spec uses (R1, R2), and the
plainest conversions between bits and numbers. -/

namespace Sys2Proof

/-- A register number field of an instruction (R102). -/
abbrev Reg := BitVec 5
/-- A doubleword: the width of an x register and of a virtual address. -/
abbrev Dword := BitVec 64
/-- A 32-bit word: the width of an instruction (R98) and of most device registers. -/
abbrev Word := BitVec 32
/-- One byte of memory. -/
abbrev Byte := BitVec 8
/-- A vector register: 512 bytes (R178). -/
abbrev VecReg := BitVec 4096
/-- A mask register: one bit for each element position (R184). -/
abbrev MaskReg := BitVec 4096

/-- One bit as a bit vector. -/
def bit1 (b : Bool) : BitVec 1 := BitVec.ofBool b

/-- A truth value as an integer register value: 1 or 0. -/
def ofBit (w : Nat) (b : Bool) : BitVec w := if b then 1 else 0

end Sys2Proof
end

