-- ==== Sys2Proof/Syntax.lean ====
section
/-! DEFINITION. The instructions (R108) and the steps of the machine that have no instruction word, as one
inductive: one constructor for each row of spec/opcode_table.json. An operand stands as the field of the encoding
that names it (R102 to R110). The second part of the inductive, from doorbellWrite on, holds the rows without bits:
the events of the launch unit, the schedulers, the fabric, memory, the host and the housekeeping controller. Their
arguments say which unit the event concerns and what the outside brings. -/

namespace Sys2Proof

/-- The six scopes, in the order of their codes (R9). -/
inductive Scope where | strand | core | cluster | die | device | system
  deriving DecidableEq, Repr

/-- The formats of a scalar floating instruction (R110). -/
inductive FpFmt where | f64 | f32
  deriving DecidableEq, Repr

/-- The rounding field of a scalar floating instruction (R110): a mode of R163, or dynamic from FRM. -/
inductive Rm where | rne | rtz | rdn | rup | rna | dyn
  deriving DecidableEq, Repr

/-- A queue named by a q-coded field: a ring, or a relay queue (R103). -/
inductive Queue where
  | ring (n : BitVec 3)
  | relay (n : BitVec 2)
  deriving DecidableEq, Repr

/-- The va operand: a vector register group or a queue (R103). -/
inductive VSrc where
  | vreg (v : Reg)
  | queue (q : Queue)
  deriving DecidableEq, Repr

/-- The vb operand: a vector register group, or an x register used for every element (R103). -/
inductive VbSrc where
  | vreg (v : Reg)
  | xreg (x : Reg)
  deriving DecidableEq, Repr

/-- The msk field (R103): mask m, negated when neg is set. The code 1000 is reserved. -/
structure Msk where
  neg : Bool
  m : BitVec 3
  deriving DecidableEq, Repr

/-- The field of an instruction without a mask operand: every element is governed by m0. -/
def Msk.all : Msk := ⟨false, 0⟩

/-- The segment-head operand of a scan, coded in vb (R238). -/
inductive Head where
  | none
  | mask (m : BitVec 3)
  deriving DecidableEq, Repr

/-- The tmop formats, in the order of their codes (R109). -/
inductive TmFmt where
  | f32 | bf16 | f16 | e4m3 | e5m2 | mxe4m3 | mxe5m2 | i8 | i4 | q8 | q4
  deriving DecidableEq, Repr

/-- The two sources of a tmop: both vector registers, or both queues (R105). -/
inductive TmSrc where
  | regs (va vb : Reg)
  | queues (va vb : Queue)
  deriving DecidableEq, Repr

/-- Every row of spec/opcode_table.json. -/
inductive Instr where
  /-- R145. The all-zeros word, which takes ILLEGAL_INSTRUCTION at every privilege level. -/
  | ill
  /-- R146. Traps precisely with cause XCALL into the executive. -/
  | xcall
  /-- R146. Traps precisely with cause FCALL into the firmware. -/
  | fcall
  /-- R146. Traps with cause BREAKPOINT, or enters debug halt when FDEBUG.BRKHALT is set. -/
  | brk
  /-- R477. Returns to EPC and to the privilege level in ESTATUS.PPRIV, or to FPC and FSTATUS at firmware level, and clears HELD. -/
  | eret
  /-- R423. Returns from a user-level interrupt handler: restores x24 to x31 from the shadow bank, clears IN and jumps to UIPC. -/
  | uiret
  /-- R148. Clears the event latch if it is set, or else stops the strand until the latch is set or the time limit in xa passes. -/
  | wfe (a : Reg)
  /-- R149. Removes the translations of one page under one ASID from every TLB and walk cache of the package. -/
  | tlbinvPage (a b : Reg)
  /-- R149. Removes every translation of one ASID from every TLB and walk cache of the package. -/
  | tlbinvAsid (b : Reg)
  /-- R149. Removes every translation from every TLB and walk cache of the package. -/
  | tlbinvAll
  /-- R150. Waits for the strand's earlier stores, then discards fetched-ahead instructions and the L1 instruction cache of the own core. -/
  | cwbCore
  /-- R150. Waits for the strand's earlier stores, then discards fetched-ahead instructions and the L1 instruction caches of every core of the own die. -/
  | cwbDie
  /-- R150. Waits for the strand's earlier stores, then discards fetched-ahead instructions and the L1 instruction caches of every core of the package. -/
  | cwbDevice
  /-- R150. Acts as cwb.device and also makes the launch unit drop its stored checks for an image under an ASID. -/
  | cwbImage (a b : Reg)
  /-- R151. Places the core in debug halt, or takes PRIVILEGE when debug is disabled. -/
  | halt
  /-- R128. Writes a plus b into xd. -/
  | add (d a b : Reg)
  /-- R128. Writes a minus b into xd. -/
  | sub (d a b : Reg)
  /-- R128. Writes the bitwise AND of a and b into xd. -/
  | and (d a b : Reg)
  /-- R128. Writes the bitwise OR of a and b into xd. -/
  | or (d a b : Reg)
  /-- R128. Writes the bitwise XOR of a and b into xd. -/
  | xor (d a b : Reg)
  /-- R128. Writes a AND NOT b into xd. -/
  | andn (d a b : Reg)
  /-- R128. Writes a OR NOT b into xd. -/
  | orn (d a b : Reg)
  /-- R128. Writes a shifted left by b[5:0] into xd. -/
  | sll (d a b : Reg)
  /-- R128. Writes a shifted right logically by b[5:0] into xd. -/
  | srl (d a b : Reg)
  /-- R128. Writes a shifted right arithmetically by b[5:0] into xd. -/
  | sra (d a b : Reg)
  /-- R128. Writes a rotated left by b[5:0] into xd. -/
  | rotl (d a b : Reg)
  /-- R128. Writes a rotated right by b[5:0] into xd. -/
  | rotr (d a b : Reg)
  /-- R128. Writes 1 into xd when a is below b as signed values, else 0. -/
  | slt (d a b : Reg)
  /-- R128. Writes 1 into xd when a is below b as unsigned values, else 0. -/
  | sltn (d a b : Reg)
  /-- R128. Writes the signed minimum of a and b into xd. -/
  | min (d a b : Reg)
  /-- R128. Writes the signed maximum of a and b into xd. -/
  | max (d a b : Reg)
  /-- R128. Writes the unsigned minimum of a and b into xd. -/
  | minn (d a b : Reg)
  /-- R128. Writes the unsigned maximum of a and b into xd. -/
  | maxn (d a b : Reg)
  /-- R128. Writes the low 64 bits of a times b into xd. -/
  | mul (d a b : Reg)
  /-- R128. Writes the high 64 bits of the signed product of a and b into xd. -/
  | mulh (d a b : Reg)
  /-- R128. Writes the high 64 bits of the unsigned product of a and b into xd. -/
  | mulhn (d a b : Reg)
  /-- R129. Writes the signed quotient rounded toward zero into xd, without trapping on zero or overflow. -/
  | div (d a b : Reg)
  /-- R129. Writes the unsigned quotient into xd, or all ones for a divisor of zero. -/
  | divn (d a b : Reg)
  /-- R129. Writes the signed remainder into xd, which takes the sign of the dividend. -/
  | rem (d a b : Reg)
  /-- R129. Writes the unsigned remainder into xd, or a for a divisor of zero. -/
  | remn (d a b : Reg)
  /-- R128. Writes the count of leading zeros of a into xd. -/
  | clz (d a : Reg)
  /-- R128. Writes the count of trailing zeros of a into xd. -/
  | ctz (d a : Reg)
  /-- R128. Writes the count of one bits of a into xd. -/
  | popc (d a : Reg)
  /-- R128. Writes a with its eight bytes reversed into xd. -/
  | bswap (d a : Reg)
  /-- R130. Writes a plus the sign-extended immediate into xd. -/
  | addi (d a : Reg) (imm : BitVec 16)
  /-- R130. Writes a AND the zero-extended immediate into xd. -/
  | andi (d a : Reg) (imm : BitVec 16)
  /-- R130. Writes a OR the zero-extended immediate into xd. -/
  | ori (d a : Reg) (imm : BitVec 16)
  /-- R130. Writes a XOR the zero-extended immediate into xd. -/
  | xori (d a : Reg) (imm : BitVec 16)
  /-- R130. Writes 1 into xd when a is below the immediate as signed values. -/
  | slti (d a : Reg) (imm : BitVec 16)
  /-- R130. Writes 1 into xd when a is below the sign-extended immediate as unsigned values. -/
  | sltni (d a : Reg) (imm : BitVec 16)
  /-- R130. Writes a shifted left by an immediate amount into xd. -/
  | sllI (d a : Reg) (amount : BitVec 6)
  /-- R130. Writes a shifted right logically by an immediate amount into xd. -/
  | srlI (d a : Reg) (amount : BitVec 6)
  /-- R130. Writes a shifted right arithmetically by an immediate amount into xd. -/
  | sraI (d a : Reg) (amount : BitVec 6)
  /-- R130. Writes a rotated right by an immediate amount into xd. -/
  | rotrI (d a : Reg) (amount : BitVec 6)
  /-- R131. Writes the sign-extended immediate times 4,096 into xd. -/
  | lui (d : Reg) (imm : BitVec 21)
  /-- R131. Writes PC plus the sign-extended immediate times 4,096 into xd. -/
  | auipc (d : Reg) (imm : BitVec 21)
  /-- R132. Loads one byte, zero-extended, into xd. -/
  | ld8 (d a : Reg) (off : BitVec 13)
  /-- R132. Loads one byte, sign-extended, into xd. -/
  | ld8s (d a : Reg) (off : BitVec 13)
  /-- R132. Loads a half, zero-extended, into xd. -/
  | ld16 (d a : Reg) (off : BitVec 13)
  /-- R132. Loads a half, sign-extended, into xd. -/
  | ld16s (d a : Reg) (off : BitVec 13)
  /-- R132. Loads a word, zero-extended, into xd. -/
  | ld32 (d a : Reg) (off : BitVec 13)
  /-- R132. Loads a word, sign-extended, into xd. -/
  | ld32s (d a : Reg) (off : BitVec 13)
  /-- R132. Loads a dword into xd. -/
  | ld64 (d a : Reg) (off : BitVec 13)
  /-- R132. Stores the low byte of xs. -/
  | st8 (r a : Reg) (off : BitVec 13)
  /-- R132. Stores the low half of xs. -/
  | st16 (r a : Reg) (off : BitVec 13)
  /-- R132. Stores the low word of xs. -/
  | st32 (r a : Reg) (off : BitVec 13)
  /-- R132. Stores the whole dword of xs. -/
  | st64 (r a : Reg) (off : BitVec 13)
  /-- R293. Loads a dword with an acquire at the named scope. -/
  | ldacq (sc : Scope) (d a : Reg)
  /-- R293. Stores a dword with a release at the named scope. -/
  | strel (sc : Scope) (a b : Reg)
  /-- R293. Atomically swaps a memory dword with b and returns the old value. -/
  | amoswap (sc : Scope) (d a b : Reg)
  /-- R293. Atomically adds b to a memory dword and returns the old value. -/
  | amoadd (sc : Scope) (d a b : Reg)
  /-- R293. Atomically ANDs b into a memory dword and returns the old value. -/
  | amoand (sc : Scope) (d a b : Reg)
  /-- R293. Atomically ORs b into a memory dword and returns the old value. -/
  | amoor (sc : Scope) (d a b : Reg)
  /-- R293. Atomically XORs b into a memory dword and returns the old value. -/
  | amoxor (sc : Scope) (d a b : Reg)
  /-- R293. Atomically writes the signed minimum of memory and b and returns the old value. -/
  | amomin (sc : Scope) (d a b : Reg)
  /-- R293. Atomically writes the signed maximum of memory and b and returns the old value. -/
  | amomax (sc : Scope) (d a b : Reg)
  /-- R293. Atomically writes the unsigned minimum of memory and b and returns the old value. -/
  | amominn (sc : Scope) (d a b : Reg)
  /-- R293. Atomically writes the unsigned maximum of memory and b and returns the old value. -/
  | amomaxn (sc : Scope) (d a b : Reg)
  /-- R293. Atomically writes b when memory equals xd, and returns the old value in xd. -/
  | amocas (sc : Scope) (d a b : Reg)
  /-- R293. Waits until a local word is full, then loads it with an acquire. -/
  | ldf (sc : Scope) (d a : Reg)
  /-- R293. Waits until a local word is full, loads it, sets it empty and acquires. -/
  | ldc (sc : Scope) (d a : Reg)
  /-- R293. Waits until a local word is empty, writes it, sets it full and releases. -/
  | stf (sc : Scope) (a b : Reg)
  /-- R136. Branches when a equals b. -/
  | beq (a b : Reg) (off : BitVec 13)
  /-- R136. Branches when a differs from b. -/
  | bne (a b : Reg) (off : BitVec 13)
  /-- R136. Branches when a is below b as signed values. -/
  | blt (a b : Reg) (off : BitVec 13)
  /-- R136. Branches when a is at least b as signed values. -/
  | bge (a b : Reg) (off : BitVec 13)
  /-- R136. Branches when a is below b as unsigned values. -/
  | bltn (a b : Reg) (off : BitVec 13)
  /-- R136. Branches when a is at least b as unsigned values. -/
  | bgen (a b : Reg) (off : BitVec 13)
  /-- R137. Writes PC plus 4 into x1 and jumps by a word offset. -/
  | jl (off : BitVec 26)
  /-- R137. Jumps to a plus the immediate and writes PC plus 4 into xd, or takes MISALIGNED. -/
  | jlr (d a : Reg) (imm : BitVec 16)
  /-- R139. Writes the rounded sum of two scalar floating values into xd. -/
  | fadd (f : FpFmt) (r : Rm) (d a b : Reg)
  /-- R139. Writes the rounded difference of two scalar floating values into xd. -/
  | fsub (f : FpFmt) (r : Rm) (d a b : Reg)
  /-- R139. Writes the rounded product of two scalar floating values into xd. -/
  | fmul (f : FpFmt) (r : Rm) (d a b : Reg)
  /-- R139. Writes the rounded quotient of two scalar floating values into xd. -/
  | fdiv (f : FpFmt) (r : Rm) (d a b : Reg)
  /-- R139. Writes the rounded square root of a into xd. -/
  | fsqrt (f : FpFmt) (r : Rm) (d a : Reg)
  /-- R139. Writes a times b plus xd into xd, rounded once. -/
  | fmadd (f : FpFmt) (r : Rm) (d a b : Reg)
  /-- R139. Writes the lesser of two floating values into xd. -/
  | fmin (f : FpFmt) (r : Rm) (d a b : Reg)
  /-- R139. Writes the greater of two floating values into xd. -/
  | fmax (f : FpFmt) (r : Rm) (d a b : Reg)
  /-- R139. Writes a with its sign bit inverted into xd. -/
  | fneg (f : FpFmt) (r : Rm) (d a : Reg)
  /-- R139. Writes a with its sign bit cleared into xd. -/
  | fabs (f : FpFmt) (r : Rm) (d a : Reg)
  /-- R139. Writes 1 into xd when a equals b. -/
  | fcmpeq (f : FpFmt) (r : Rm) (d a b : Reg)
  /-- R139. Writes 1 into xd when a is below b. -/
  | fcmplt (f : FpFmt) (r : Rm) (d a b : Reg)
  /-- R139. Writes 1 into xd when a is at most b. -/
  | fcmple (f : FpFmt) (r : Rm) (d a b : Reg)
  /-- R139. Writes the one-hot class mask of a into xd. -/
  | fclass (f : FpFmt) (r : Rm) (d a : Reg)
  /-- R141. Converts a floating value to an integer of the type that b names. -/
  | fcvtfi (f : FpFmt) (r : Rm) (t : BitVec 2) (d a : Reg)
  /-- R141. Converts an integer of the type that b names to a floating value. -/
  | fcvtif (f : FpFmt) (r : Rm) (t : BitVec 2) (d a : Reg)
  /-- R141. Converts between f32 and f64. -/
  | fcvtff (f : FpFmt) (r : Rm) (d a : Reg)
  /-- R142. Reads a special register into xd. -/
  | mfs (d : Reg) (spr : BitVec 12)
  /-- R142. Writes a into a special register. -/
  | mts (spr : BitVec 12) (a : Reg)
  /-- R142. ORs a into a special register. -/
  | sset (spr : BitVec 12) (a : Reg)
  /-- R142. Clears the bits of a in a special register. -/
  | sclr (spr : BitVec 12) (a : Reg)
  /-- R144. Steps temporal loop counter n against a limit and branches back while it stays below. -/
  | tloop (n : BitVec 2) (b : Reg) (off : BitVec 13)
  /-- R198. Sets VTYPE from an immediate and VL from a, and returns VL. -/
  | vsetl (d a : Reg) (vt : BitVec 8)
  /-- R198. Sets VTYPE from b and VL from a, and returns VL. -/
  | vsetlx (d a b : Reg)
  /-- R200. Acts as vsetl into x0 and marks the start of a loop body. -/
  | vloop (a : Reg) (vt : BitVec 8)
  /-- R201. Closes a strip-mined body: lowers the trip count, advances the pointers and branches back while elements remain. -/
  | vlend (np a len : Reg)
  /-- R202. Jumps forward out of a loop body when a is nonzero. -/
  | vbreak (a off : Reg)
  /-- R387. Reads a strip-prefetch declaration and replaces the strand's declaration. -/
  | vdecl (a : Reg)
  /-- R387. Removes the strand's strip-prefetch declaration. -/
  | vundecl
  /-- R199. Waits for every lane cluster, then sets VSLIP. -/
  | vslip (a : Reg)
  /-- R279. Unit-stride vector load that trims VL at a later faulting element. -/
  | vld (v a : Reg) (o sb : Bool) (m : Msk) (ew : BitVec 2)
  /-- R279. Strided vector load that trims. -/
  | vlds (v a b : Reg) (o sb : Bool) (m : Msk) (ew : BitVec 2)
  /-- R280. Unit-stride load packed into a reserved ring slot. -/
  | vldq (ring : BitVec 3) (a : Reg) (o sb : Bool) (m : Msk) (ew : BitVec 2)
  /-- R280. Unit-stride load written into a register and into a ring slot. -/
  | vldqk (v a : Reg) (ring : BitVec 3) (o sb : Bool) (m : Msk) (ew : BitVec 2)
  /-- R279. Reads one value once and broadcasts it to every active element. -/
  | vldb (v a : Reg) (o sb : Bool) (m : Msk) (ew : BitVec 2)
  /-- R282. Vector load in which each element waits until its local words are full. -/
  | vldf (v a : Reg) (o sb : Bool) (m : Msk) (ew : BitVec 2)
  /-- R281. Loads packed 4-bit codes into byte elements in pairs. -/
  | vldp4 (v a b : Reg) (o sb : Bool) (m : Msk)
  /-- R283. Unit-stride vector store, trapping precisely. -/
  | vst (v a : Reg) (o sb : Bool) (m : Msk) (ew : BitVec 2)
  /-- R283. Strided vector store. -/
  | vsts (v a b : Reg) (o sb : Bool) (m : Msk) (ew : BitVec 2)
  /-- R284. Unit-stride notify store that adds performed positions to the progress word with releases. -/
  | vstn (v a : Reg) (o sb : Bool) (m : Msk) (ew : BitVec 2)
  /-- R284. Strided notify store. -/
  | vstsn (v a b : Reg) (o sb : Bool) (m : Msk) (ew : BitVec 2)
  /-- R285. Stores each element and sets its local words full. -/
  | vstf (v a : Reg) (o sb : Bool) (m : Msk) (ew : BitVec 2)
  /-- R286. Stores the elements of the next ring slot to memory and pops the slot. -/
  | vstq (ring : BitVec 3) (a : Reg) (o sb : Bool) (m : Msk) (ew : BitVec 2)
  /-- R287. Gathers elements from base plus index offsets. -/
  | vgat (v a b : Reg) (o sb : Bool) (m : Msk) (ew : BitVec 2)
  /-- R287. Scatters elements to base plus index offsets. -/
  | vsca (v a b : Reg) (o sb : Bool) (m : Msk) (ew : BitVec 2)
  /-- R288. Windowed gather that serves elements within a loaded window and marks the rest outstanding. -/
  | vgatw (v a b : Reg) (o sb : Bool) (p : BitVec 3) (ew : BitVec 2)
  /-- R289. Gather-linked: clears the links, gathers and links each element's region. -/
  | vgl (v a b : Reg) (o sb : Bool) (m : Msk) (ew : BitVec 2)
  /-- R289. Scatter-conditional: performs the elements whose regions hold unbroken links and reports them in a mask. -/
  | vscc (v a b : Reg) (o sb : Bool) (p : BitVec 3) (ew : BitVec 2)
  /-- R291. Vector atomic add, locking regions in ascending order. -/
  | vamoadd (v a b : Reg) (o ret : Bool) (m : Msk)
  /-- R291. Vector atomic AND. -/
  | vamoand (v a b : Reg) (o ret : Bool) (m : Msk)
  /-- R291. Vector atomic OR. -/
  | vamoor (v a b : Reg) (o ret : Bool) (m : Msk)
  /-- R291. Vector atomic XOR. -/
  | vamoxor (v a b : Reg) (o ret : Bool) (m : Msk)
  /-- R291. Vector atomic signed minimum. -/
  | vamomin (v a b : Reg) (o ret : Bool) (m : Msk)
  /-- R291. Vector atomic signed maximum. -/
  | vamomax (v a b : Reg) (o ret : Bool) (m : Msk)
  /-- R291. Vector atomic unsigned minimum. -/
  | vamominn (v a b : Reg) (o ret : Bool) (m : Msk)
  /-- R291. Vector atomic unsigned maximum. -/
  | vamomaxn (v a b : Reg) (o ret : Bool) (m : Msk)
  /-- R291. Vector atomic swap. -/
  | vamoswap (v a b : Reg) (o ret : Bool) (m : Msk)
  /-- R291. Vector atomic floating add, rounded once per element. -/
  | vamofadd (v a b : Reg) (o ret : Bool) (m : Msk)
  /-- R292. Arms watch-table entries and waits until each watched word reaches its target. -/
  | vwait (v a b : Reg) (o ret : Bool) (m : Msk)
  /-- R209. Elementwise integer add. -/
  | vadd (vd : Reg) (va : VSrc) (vb : VbSrc) (m : Msk)
  /-- R209. Elementwise integer subtract. -/
  | vsub (vd : Reg) (va : VSrc) (vb : VbSrc) (m : Msk)
  /-- R209. Elementwise reverse subtract, b minus a. -/
  | vrsub (vd : Reg) (va : VSrc) (vb : VbSrc) (m : Msk)
  /-- R209. Elementwise multiply, low bits. -/
  | vmul (vd : Reg) (va : VSrc) (vb : VbSrc) (m : Msk)
  /-- R209. Elementwise signed multiply, high bits. -/
  | vmulh (vd : Reg) (va : VSrc) (vb : VbSrc) (m : Msk)
  /-- R209. Elementwise unsigned multiply, high bits. -/
  | vmulhn (vd : Reg) (va : VSrc) (vb : VbSrc) (m : Msk)
  /-- R209. Elementwise signed divide. -/
  | vdiv (vd : Reg) (va : VSrc) (vb : VbSrc) (m : Msk)
  /-- R209. Elementwise unsigned divide. -/
  | vdivn (vd : Reg) (va : VSrc) (vb : VbSrc) (m : Msk)
  /-- R209. Elementwise signed remainder. -/
  | vrem (vd : Reg) (va : VSrc) (vb : VbSrc) (m : Msk)
  /-- R209. Elementwise unsigned remainder. -/
  | vremn (vd : Reg) (va : VSrc) (vb : VbSrc) (m : Msk)
  /-- R209. Elementwise signed minimum. -/
  | vmin (vd : Reg) (va : VSrc) (vb : VbSrc) (m : Msk)
  /-- R209. Elementwise signed maximum. -/
  | vmax (vd : Reg) (va : VSrc) (vb : VbSrc) (m : Msk)
  /-- R209. Elementwise unsigned minimum. -/
  | vminn (vd : Reg) (va : VSrc) (vb : VbSrc) (m : Msk)
  /-- R209. Elementwise unsigned maximum. -/
  | vmaxn (vd : Reg) (va : VSrc) (vb : VbSrc) (m : Msk)
  /-- R209. Elementwise AND. -/
  | vand (vd : Reg) (va : VSrc) (vb : VbSrc) (m : Msk)
  /-- R209. Elementwise OR. -/
  | vor (vd : Reg) (va : VSrc) (vb : VbSrc) (m : Msk)
  /-- R209. Elementwise XOR. -/
  | vxor (vd : Reg) (va : VSrc) (vb : VbSrc) (m : Msk)
  /-- R209. Elementwise shift left. -/
  | vsll (vd : Reg) (va : VSrc) (vb : VbSrc) (m : Msk)
  /-- R209. Elementwise logical shift right. -/
  | vsrl (vd : Reg) (va : VSrc) (vb : VbSrc) (m : Msk)
  /-- R209. Elementwise arithmetic shift right. -/
  | vsra (vd : Reg) (va : VSrc) (vb : VbSrc) (m : Msk)
  /-- R209. Elementwise signed saturating add. -/
  | vadds (vd : Reg) (va : VSrc) (vb : VbSrc) (m : Msk)
  /-- R209. Elementwise signed saturating subtract. -/
  | vsubs (vd : Reg) (va : VSrc) (vb : VbSrc) (m : Msk)
  /-- R209. Elementwise unsigned saturating add. -/
  | vaddsn (vd : Reg) (va : VSrc) (vb : VbSrc) (m : Msk)
  /-- R209. Elementwise unsigned saturating subtract. -/
  | vsubsn (vd : Reg) (va : VSrc) (vb : VbSrc) (m : Msk)
  /-- R209. Elementwise multiply-accumulate into vd. -/
  | vmacc (vd : Reg) (va : VSrc) (vb : VbSrc) (m : Msk)
  /-- R209. Elementwise negative multiply-accumulate into vd. -/
  | vnmsac (vd : Reg) (va : VSrc) (vb : VbSrc) (m : Msk)
  /-- R210. Elementwise widening signed multiply. -/
  | vwmul (vd : Reg) (va : VSrc) (vb : VbSrc) (m : Msk)
  /-- R210. Elementwise narrowing logical shift right. -/
  | vnsrl (vd : Reg) (va : VSrc) (vb : VbSrc) (m : Msk)
  /-- R211. Elementwise floating add. -/
  | vfadd (vd : Reg) (va : VSrc) (vb : VbSrc) (m : Msk)
  /-- R211. Elementwise floating subtract. -/
  | vfsub (vd : Reg) (va : VSrc) (vb : VbSrc) (m : Msk)
  /-- R211. Elementwise floating multiply. -/
  | vfmul (vd : Reg) (va : VSrc) (vb : VbSrc) (m : Msk)
  /-- R211. Elementwise floating divide. -/
  | vfdiv (vd : Reg) (va : VSrc) (vb : VbSrc) (m : Msk)
  /-- R211. Elementwise floating square root. -/
  | vfsqrt (vd : Reg) (va : VSrc) (m : Msk)
  /-- R176. Elementwise reciprocal square-root estimate from a fixed table. -/
  | vfrsqe (vd : Reg) (va : VSrc) (m : Msk)
  /-- R177. Elementwise defined base-2 exponential. -/
  | vfexp2 (vd : Reg) (va : VSrc) (m : Msk)
  /-- R211. Elementwise fused a times b plus d. -/
  | vfmadd (vd : Reg) (va : VSrc) (vb : VbSrc) (m : Msk)
  /-- R211. Elementwise fused negative a times b minus d. -/
  | vfnmadd (vd : Reg) (va : VSrc) (vb : VbSrc) (m : Msk)
  /-- R211. Elementwise fused a times b minus d. -/
  | vfmsub (vd : Reg) (va : VSrc) (vb : VbSrc) (m : Msk)
  /-- R211. Elementwise floating minimum. -/
  | vfmin (vd : Reg) (va : VSrc) (vb : VbSrc) (m : Msk)
  /-- R211. Elementwise floating maximum. -/
  | vfmax (vd : Reg) (va : VSrc) (vb : VbSrc) (m : Msk)
  /-- R211. Elementwise sign clear. -/
  | vfabs (vd : Reg) (va : VSrc) (m : Msk)
  /-- R211. Elementwise sign inversion. -/
  | vfneg (vd : Reg) (va : VSrc) (m : Msk)
  /-- R211. Elementwise magnitude of a with the sign of b. -/
  | vfsgnj (vd : Reg) (va : VSrc) (vb : VbSrc) (m : Msk)
  /-- R211. Elementwise floating class mask. -/
  | vfclass (vd : Reg) (va : VSrc) (m : Msk)
  /-- R215. Converts elements to FP64. -/
  | vcvtf64 (vd : Reg) (va : VSrc) (cv : BitVec 3) (m : Msk)
  /-- R215. Converts elements to FP32. -/
  | vcvtf32 (vd : Reg) (va : VSrc) (cv : BitVec 3) (m : Msk)
  /-- R215. Converts elements to FP16. -/
  | vcvtf16 (vd : Reg) (va : VSrc) (cv : BitVec 3) (m : Msk)
  /-- R215. Converts elements to BF16. -/
  | vcvtbf16 (vd : Reg) (va : VSrc) (cv : BitVec 3) (m : Msk)
  /-- R215. Converts elements to E4M3, non-saturating. -/
  | vcvte4m3 (vd : Reg) (va : VSrc) (cv : BitVec 3) (m : Msk)
  /-- R215. Converts elements to E5M2, non-saturating. -/
  | vcvte5m2 (vd : Reg) (va : VSrc) (cv : BitVec 3) (m : Msk)
  /-- R215. Converts elements to E4M3, saturating. -/
  | vcvte4m3s (vd : Reg) (va : VSrc) (cv : BitVec 3) (m : Msk)
  /-- R215. Converts elements to E5M2, saturating. -/
  | vcvte5m2s (vd : Reg) (va : VSrc) (cv : BitVec 3) (m : Msk)
  /-- R215. Converts elements to 8-bit integers. -/
  | vcvti8 (vd : Reg) (va : VSrc) (cv : BitVec 3) (m : Msk)
  /-- R215. Converts elements to 16-bit integers. -/
  | vcvti16 (vd : Reg) (va : VSrc) (cv : BitVec 3) (m : Msk)
  /-- R215. Converts elements to 32-bit integers. -/
  | vcvti32 (vd : Reg) (va : VSrc) (cv : BitVec 3) (m : Msk)
  /-- R215. Converts elements to 64-bit integers. -/
  | vcvti64 (vd : Reg) (va : VSrc) (cv : BitVec 3) (m : Msk)
  /-- R216. Rounds each floating element to an integral value in its own format. -/
  | vcvtfi (vd va : Reg) (m : Msk)
  /-- R219. Quantises floating elements into asymmetric codes using group records. -/
  | vqnt (vd : Reg) (va : VSrc) (vb : Reg) (k : Bool) (m : Msk)
  /-- R219. Dequantises asymmetric codes into floating elements. -/
  | vdeq (vd : Reg) (va : VSrc) (vb : Reg) (k : Bool) (m : Msk)
  /-- R220. Quantises blocks of 32 elements into E8M0-scaled codes. -/
  | vmxq (vd : Reg) (va : VSrc) (vb : Reg) (k : Bool) (m : Msk)
  /-- R221. Dequantises E8M0-scaled codes into floating elements. -/
  | vmxd (vd : Reg) (va : VSrc) (vb : Reg) (k : Bool) (m : Msk)
  /-- R223. Slides elements up by an offset. -/
  | vslup (vd : Reg) (va : VSrc) (xb : Reg) (m : Msk)
  /-- R223. Slides elements down by an offset. -/
  | vsldn (vd : Reg) (va : VSrc) (xb : Reg) (m : Msk)
  /-- R223. Rotates elements by an offset modulo vl. -/
  | vrot (vd : Reg) (va : VSrc) (xb : Reg) (m : Msk)
  /-- R223. Permutes elements by an index vector. -/
  | vperm (vd : Reg) (va : VSrc) (vb : Reg) (m : Msk)
  /-- R223. Broadcasts one element to every element. -/
  | vbcast (vd : Reg) (va : VSrc) (xb : Reg) (m : Msk)
  /-- R224. Moves element 0 of a vector or ring slot, sign-extended, into an x register. -/
  | vmvxs (xd : Reg) (va : VSrc)
  /-- R224. Writes the low bits of an x register into element 0. -/
  | vmvsx (vd xb : Reg) (m : Msk)
  /-- R223. Interleaves two sources. -/
  | vzip (vd : Reg) (va : VSrc) (vb : Reg) (m : Msk)
  /-- R223. De-interleaves one source into even or odd elements. -/
  | vunzip (vd : Reg) (va : VSrc) (xb : Reg) (m : Msk)
  /-- R223. Reverses the element order. -/
  | vrev (vd : Reg) (va : VSrc) (m : Msk)
  /-- R224. Selects b or a per element under a mask. -/
  | vmerge (vd : Reg) (va : VSrc) (vb : VbSrc) (m : Msk)
  /-- R223. Copies elements. -/
  | vmv (vd : Reg) (va : VSrc) (m : Msk)
  /-- R233. Packs active elements to the low end and writes their count into VL. -/
  | vcompress (vd : Reg) (va : VSrc) (m : Msk)
  /-- R235. Spreads consecutive source elements to the active positions. -/
  | vexpand (vd : Reg) (va : VSrc) (m : Msk)
  /-- R234. Writes the indices of active elements and their count into VL. -/
  | vpopx (vd : Reg) (m : Msk)
  /-- R236. Marks every active element whose value equals that of an earlier active element. -/
  | vconf (md : BitVec 3) (va : VSrc) (m : Msk)
  /-- R238. Segmented inclusive integer sum scan. -/
  | vsscan (vd : Reg) (va : VSrc) (h : Head) (m : Msk)
  /-- R238. Segmented inclusive signed maximum scan. -/
  | vsscanmax (vd : Reg) (va : VSrc) (h : Head) (m : Msk)
  /-- R238. Segmented inclusive floating sum scan in element order. -/
  | vfsscan (vd : Reg) (va : VSrc) (h : Head) (m : Msk)
  /-- R239. Writes the lowest active set mask position, or all ones. -/
  | vfirst (d : Reg) (ma : BitVec 3) (m : Msk)
  /-- R239. Writes the count of active set mask bits. -/
  | vcpop (d : Reg) (ma : BitVec 3) (m : Msk)
  /-- R239. Writes for each active element the count of earlier active set mask bits. -/
  | viota (d : Reg) (ma : BitVec 3) (m : Msk)
  /-- R241. Lists the key blocks that a mask parameter block keeps and writes their count into VL. -/
  | vblklist (vd : Reg) (va : VSrc) (xb : Reg)
  /-- R228. Integer sum reduction into element 0. -/
  | vredsum (vd : Reg) (va : VSrc) (vb : VbSrc) (m : Msk)
  /-- R228. Signed maximum reduction. -/
  | vredmax (vd : Reg) (va : VSrc) (vb : VbSrc) (m : Msk)
  /-- R228. Signed minimum reduction. -/
  | vredmin (vd : Reg) (va : VSrc) (vb : VbSrc) (m : Msk)
  /-- R228. Unsigned maximum reduction. -/
  | vredmaxn (vd : Reg) (va : VSrc) (vb : VbSrc) (m : Msk)
  /-- R228. Unsigned minimum reduction. -/
  | vredminn (vd : Reg) (va : VSrc) (vb : VbSrc) (m : Msk)
  /-- R228. Bitwise AND reduction. -/
  | vredand (vd : Reg) (va : VSrc) (vb : VbSrc) (m : Msk)
  /-- R228. Bitwise OR reduction. -/
  | vredor (vd : Reg) (va : VSrc) (vb : VbSrc) (m : Msk)
  /-- R228. Bitwise XOR reduction. -/
  | vredxor (vd : Reg) (va : VSrc) (vb : VbSrc) (m : Msk)
  /-- R173. Sequential floating sum reduction. -/
  | vfredo (vd : Reg) (va : VSrc) (vb : VbSrc) (m : Msk)
  /-- R174. Fixed-tree floating sum reduction. -/
  | vfredt (vd : Reg) (va : VSrc) (vb : VbSrc) (m : Msk)
  /-- R228. Floating maximum reduction. -/
  | vfredmax (vd : Reg) (va : VSrc) (vb : VbSrc) (m : Msk)
  /-- R228. Floating minimum reduction. -/
  | vfredmin (vd : Reg) (va : VSrc) (vb : VbSrc) (m : Msk)
  /-- R244. Selects the k largest non-NaN values into a list with their sums. -/
  | vtopk (vd : Reg) (va : VSrc) (xb : Reg) (m : Msk)
  /-- R245. Merges two top-k lists into one. -/
  | vtopkm (d a b : Reg)
  /-- R225. Mask of integer equality. -/
  | vmseq (md : BitVec 3) (va : VSrc) (vb : VbSrc) (m : Msk)
  /-- R225. Mask of integer inequality. -/
  | vmsne (md : BitVec 3) (va : VSrc) (vb : VbSrc) (m : Msk)
  /-- R225. Mask of signed less-than. -/
  | vmslt (md : BitVec 3) (va : VSrc) (vb : VbSrc) (m : Msk)
  /-- R225. Mask of unsigned less-than. -/
  | vmsltn (md : BitVec 3) (va : VSrc) (vb : VbSrc) (m : Msk)
  /-- R225. Mask of signed less-or-equal. -/
  | vmsle (md : BitVec 3) (va : VSrc) (vb : VbSrc) (m : Msk)
  /-- R225. Mask of unsigned less-or-equal. -/
  | vmslen (md : BitVec 3) (va : VSrc) (vb : VbSrc) (m : Msk)
  /-- R225. Mask of floating equality. -/
  | vmfeq (md : BitVec 3) (va : VSrc) (vb : VbSrc) (m : Msk)
  /-- R225. Mask of floating less-than. -/
  | vmflt (md : BitVec 3) (va : VSrc) (vb : VbSrc) (m : Msk)
  /-- R225. Mask of floating less-or-equal. -/
  | vmfle (md : BitVec 3) (va : VSrc) (vb : VbSrc) (m : Msk)
  /-- R225. Mask of NaN elements. -/
  | vmfnan (md : BitVec 3) (va : Reg) (m : Msk)
  /-- R226. Mask AND. -/
  | vmand (md ma mb : BitVec 3)
  /-- R226. Mask OR. -/
  | vmor (md ma mb : BitVec 3)
  /-- R226. Mask XOR. -/
  | vmxor (md ma mb : BitVec 3)
  /-- R226. Mask AND NOT. -/
  | vmandn (md ma mb : BitVec 3)
  /-- R226. Mask NOT. -/
  | vmnot (md ma : BitVec 3)
  /-- R226. Mask copy. -/
  | vmmv (md ma : BitVec 3)
  /-- R226. Copies cm into a mask register. -/
  | vmmvc (md : BitVec 3)
  /-- R226. Writes 64 bits of an x register into a mask. -/
  | vmfromx (md : BitVec 3) (xa xb : Reg)
  /-- R226. Reads 64 bits of a mask into an x register. -/
  | vmtox (xd : Reg) (ma : BitVec 3) (xb : Reg)
  /-- R250. Binds a tile name to a free tile of the group's share and zeroes it, or reports HELD or NONE. -/
  | tclaim (xd : Reg) (acc : BitVec 2) (int : Bool)
  /-- R250. Unbinds a tile name and returns its tile to the share. -/
  | tfree (acc : BitVec 2)
  /-- R250. Sets every element of a claimed tile to +0 and sets its mode. -/
  | tzero (acc : BitVec 2) (int : Bool)
  /-- R263. Reads one row of a tile into a vector register. -/
  | trdrow (vd : Reg) (acc : BitVec 2) (xa : Reg)
  /-- R263. Reads one column of a tile into a vector register. -/
  | trdcol (vd : Reg) (acc : BitVec 2) (xa : Reg)
  /-- R263. Writes a vector register into one row of a tile. -/
  | twrrow (acc : BitVec 2) (xa vb : Reg)
  /-- R263. Writes a vector register into one column of a tile. -/
  | twrcol (acc : BitVec 2) (xa vb : Reg)
  /-- R251. Reports the claim, mode, busy state and share counts of a tile name. -/
  | tstat (xd : Reg) (acc : BitVec 2)
  /-- R256. Performs one outer-product step into an accumulator tile. -/
  | tmop (acc : BitVec 2) (f : TmFmt) (src : TmSrc) (rp : BitVec 3) (sub sat : Bool)
  /-- R260. Performs NSTEPS ring-fed outer-product steps, resumable from TSTEP. -/
  | tmopMs (acc : BitVec 2) (f : TmFmt) (va vb : Queue) (rp : BitVec 3) (sub sat : Bool)
  /-- R197. Writes a ring's base and geometry and resets its counts and flags. -/
  | qcfg (ring : BitVec 3) (a b : Reg)
  /-- R197. Writes a vector into a ring slot or relay entry. -/
  | qpush (dst : Queue) (vs : Reg)
  /-- R197. Reads a ring slot or relay entry into a vector and pops it at retirement. -/
  | qpop (vd : Reg) (src : Queue)
  /-- R197. Waits until enough slots are readable and returns their count. -/
  | qwait (xd : Reg) (src : Queue) (xb : Reg)
  /-- R197. Returns the all-zero flags of up to 64 unclaimed ring slots. -/
  | qzf (xd : Reg) (ring : BitVec 3) (xb : Reg)
  /-- R307. Checks a cocoon descriptor and maps the lowest free cocoon, invalid and clean. -/
  | ccmap (d a : Reg)
  /-- R310. Writes back a cocoon's dirty words and ends the mapping. -/
  | ccunmap (a : Reg)
  /-- R310. Writes back a cocoon's dirty words and keeps the mapping. -/
  | ccflush (a : Reg)
  /-- R311. Reports a cocoon's mapped, poison, dirty and valid-sector counts. -/
  | ccstat (d a : Reg)
  /-- R346. Invokes the configuration bound to a slot as one vector instruction, or continues a pending stop. -/
  | fx (slot vd va vb xs : Reg)
  /-- R353. Continues a stopped invocation from FXIDX0 to FXIDX3, restarting the output at element 0. -/
  | fxC (slot vd va vb xs : Reg)
  /-- R342. Checks a configuration image and binds it to a slot of the process. -/
  | fxbind (d a b : Reg)
  /-- R343. Ends a slot's binding, stopping its invocations and releasing its contexts everywhere. -/
  | fxunbind (a : Reg)
  /-- R344. Reports a binding's state on the executing core. -/
  | fxstat (d a : Reg)
  /-- R344. Reads one dword of a slot-table entry. -/
  | fxquery (d a b : Reg)
  /-- R345. Places and pins a binding on the executing core. -/
  | fxpin (d a : Reg)
  /-- R345. Removes the pin of a binding on the executing core. -/
  | fxunpin (a : Reg)
  /-- R360. Cell instruction that waits for and consumes the head flit of a channel. -/
  | recv (d a : Reg)
  /-- R361. Cell instruction that sends a data flit on a channel. -/
  | send (d a : Reg)
  /-- R361. Cell instruction that sends an end-of-stream flit on a channel. -/
  | sendE (d a : Reg)
  /-- R362. Cell instruction that sends a value on one of two channels chosen by a predicate. -/
  | steer (d a b : Reg)
  /-- R363. Cell instruction that takes a flit from one of two channels, admitting loop flits under LIMIT. -/
  | merge (d a b : Reg)
  /-- R364. Cell instruction that places a data flit into its own input buffer, counting toward LIMIT. -/
  | prime (d a : Reg)
  /-- R365. Cell instruction that waits for and consumes a token flit. -/
  | tokw (a : Reg)
  /-- R365. Cell instruction that waits until the cell's earlier accesses perform, then sends a token. -/
  | toks (d : Reg)
  /-- R360. Cell instruction that reads the head flit of a channel without consuming it. -/
  | lpeek (d a : Reg)
  /-- R375. Issues a one-dimensional copy on a channel, or rejects it with a status. -/
  | cpy1d (d a b : Reg)
  /-- R376. Issues a four-dimensional box copy from a descriptor, or rejects it. -/
  | cpybox (d a b : Reg)
  /-- R378. Issues a box fill with a pattern, or rejects it. -/
  | cpyfill (d a b : Reg)
  /-- R380. Waits until a transfer has retired, then acquires. -/
  | cwait (a b : Reg)
  /-- R382. Reads a channel's status and applies CLRP, ABORT or RESUME controls. -/
  | cstat (d a : Reg)
  /-- R381. Arms a channel to raise a user-level interrupt when a transfer retires. -/
  | cpyarm (a b : Reg)
  /-- R401. Orders the strand's accesses of the named kinds at a scope, with releases and acquires as the kinds give. -/
  | fence (kinds : BitVec 5) (sc : Scope)
  /-- R412. Sets a barrier's EXPECT and flags, or reports BAD or BUSY. -/
  | barinit (d a b : Reg)
  /-- R413. Arrives at a barrier with a release, or defers the arrival to the next fx. -/
  | barrive (d a b : Reg)
  /-- R414. Waits until a barrier phase completes, then acquires. -/
  | barwait (a b : Reg)
  /-- R414. Reads a barrier's flags, EXPECT, COUNT and PHASE without waiting. -/
  | barpoll (d a : Reg)
  /-- R419. Counts as progress for the kernel watchdog. -/
  | hbeat
  /-- R424. Returns UIMASK and unmasks the named kinds. -/
  | uien (d a : Reg)
  /-- R424. Returns UIMASK and masks the named kinds. -/
  | uidis (d a : Reg)
  /-- R420. Holds back the strand until the other ready strands have each issued or 16 cycles pass. -/
  | yield
  /-- R428. Copies a task descriptor into the pool and enqueues it, with a release at die scope. -/
  | tspawn (d a : Reg)
  /-- R430. Waits for a ready task in the selected queues, takes it and starts its body. -/
  | trun (d a b : Reg)
  /-- R432. Retires the held task and returns to TRET, or ends the strand when no task is held. -/
  | tdone
  /-- R433. Clears a future to empty and returns its address. -/
  | tfut (d a : Reg)
  /-- R433. Waits until a future is empty, then writes and fills it with a release, or sets a pager future. -/
  | tfset (a b : Reg)
  /-- R433. Waits until a future is full and reads it with an acquire. -/
  | tfwait (d a : Reg)
  /-- R434. Reads a task queue's unretired count and optionally sets its LIMIT. -/
  | tqcfg (d a b : Reg)
  /-- R441. Arms, rearms or frees a forecast slot. -/
  | sfarm (d a b : Reg)
  /-- R443. Publishes the real version of a forecast tile and starts its comparison. -/
  | spub (d a : Reg)
  /-- R446. Enqueues a speculative task whose set holds the open forecasts of named slots. -/
  | sspawn (d a b : Reg)
  /-- R445. Reports a forecast slot's last decision, versions, state and holders. -/
  | sstat (d a : Reg)
  /-- R454. Closes a slot's open forecast as aborted and squashes its tasks. -/
  | sabort (d a : Reg)
  /-- R458. Takes ownership of the die's solver sequencer with a control block and factor table. -/
  | sqinit (d a : Reg)
  /-- R459. Loads an embedded Runge-Kutta coefficient table. -/
  | sqtab (d a : Reg)
  /-- R462. Adds a sample to the sequencer. -/
  | sqadd (d a : Reg)
  /-- R463. Starts a solver run with a release, arming hand-off slots when HANDOFF is set. -/
  | sqgo (d : Reg)
  /-- R472. Returns a sample word or the sequencer word. -/
  | sqstat (d a : Reg)
  /-- R473. Stops a run after accepted launches and releases ownership. -/
  | sqend (d : Reg)
  /-- R55. A 32-bit store to a queue's doorbell writes TAIL and may move the queue to WAITING or ERROR. -/
  | doorbellWrite (qid : Nat) (tail : BitVec 32)
  /-- R62. Copies a disabled queue's descriptor and enables it, or enters ERROR for TAILRANGE. -/
  | qcmdEnable (qid : Nat)
  /-- R62. Unmaps a queue after any acceptance in progress completes. -/
  | qcmdDisable (qid : Nat)
  /-- R62. Sets HEAD and TAIL of a disabled or errored queue to 0 and the queue to DISABLED. -/
  | qcmdReset (qid : Nat)
  /-- R5. A write to a register with no behaviour of its own, under its access codes and reach. -/
  | registerWrite (off : Nat) (v : BitVec 32)
  /-- R71. At each quantum the launch unit ranks WAITING queues and maps them to free or displaced slots. -/
  | quantumBoundary
  /-- R68. A slot's descriptor and head record have been read and the slot becomes ACTIVE, or FREE on a fault. -/
  | slotLoadComplete (slot : Nat)
  /-- R69. The launch unit accepts the best eligible head record, enters the kernel and advances HEAD. -/
  | recordAccept
  /-- R33. After the image header, loop table and resource declaration arrive, they are checked and the kernel handed to the die schedulers. -/
  | imageCheck (kernel : Nat)
  /-- R66. A write at the home of a watched dependence word re-evaluates the dependence. -/
  | depWatchReevaluate (slot : Nat)
  /-- R66. Every 2 microseconds a dependence word in host memory or a pool is re-read. -/
  | depPoll (slot : Nat)
  /-- R75. After the last shard retires, the completion record is written, the completion word incremented and the host event raised. -/
  | kernelCompletion (kernel : Nat)
  /-- R90. A die scheduler places waiting groups on cores that meet their needs, with backfill. -/
  | placementEvent (die : Nat)
  /-- R90. A group that has waited 1 ms without fitting stops backfill on its die. -/
  | backfillStop (die : Nat)
  /-- R96. A write of a spiracle grant register grants or revokes transit for ASIDs. -/
  | spiracleGrantWrite (core page : Nat) (second : Bool) (v : BitVec 32)
  /-- R94. A configuration move between pages ends and waiting fx proceed. -/
  | pageMoveEnd (core : Nat) (asid slot : Nat)
  /-- R332. A page's context finishes loading and its held flits are delivered. -/
  | pageContextLoadComplete (strand page : Nat)
  /-- R323. A cell's missed block arrives into a frame, or the fetch fault stops the invocation. -/
  | blockFetchComplete (strand cell : Nat)
  /-- R327. A flit moves one hop between routers when valid meets ready. -/
  | flitTransfer (strand cell chan : Nat)
  /-- R348. An input stream port turns a vector element into a data flit for its cell. -/
  | streamInputDelivery (strand : Nat) (portB : Bool)
  /-- R349. The output port writes a data flit into vd and advances FXIDX2. -/
  | streamOutputTake (strand : Nat)
  /-- R350. An invocation completes, sets VL from FXIDX2 and reports DONE. -/
  | invocationComplete (strand : Nat)
  /-- R352. An invocation stops and records its stop state. -/
  | fabricStop (strand : Nat)
  /-- R340. The deadlock count reaches 2^20 and the invocation ends with FABRIC_DEADLOCK. -/
  | fabricDeadlock (strand : Nat)
  /-- R300. An L1 miss goes to the word's home, which serves it or forwards it to the registrant. -/
  | homeRead (core word : Nat)
  /-- R299. A core's registration of a written span reaches the home and takes it from any earlier registrant. -/
  | registration (core word : Nat)
  /-- R304. The L1 writes a dirty word back to its home slice. -/
  | l1Eviction (core word : Nat)
  /-- R304. The L2 writes dirty words to memory in sectors with a word mask. -/
  | l2Eviction (die sector : Nat)
  /-- R304. A sector read from DRAM or CXL lands, writing only invalid words. -/
  | sectorFill (die sector : Nat)
  /-- R308. A cocoon sector's translated global data lands in its still-invalid words. -/
  | cocoonFill (strand cocoon sector : Nat)
  /-- R303. A refused coherence request is resent after 64 cycles. -/
  | requestResend (core word : Nat)
  /-- R271. A request outstanding for 4 ms ends its instruction with MEM_TIMEOUT. -/
  | memTimeout (strand : Nat)
  /-- R316. BISnpInv or SnpInv: the home gathers registered words, writes back and invalidates the line in every die. -/
  | snoopInvalidate (line : Nat)
  /-- R316. BISnpData, BISnpCur, SnpData or SnpCur: the line is gathered, written back and left in S. -/
  | snoopData (line : Nat)
  /-- R314. A host request to bonded DRAM over HDM-DB is resolved at the word's home. -/
  | hostHdmRequest (word : Nat) (data : Option (BitVec 32))
  /-- R318. The IOD records a lost range, poisons its L2 lines and raises a host event. -/
  | poolShelfFailure (port base limit : BitVec 32)
  /-- R318. Writing 1 to LOSTCTL.VALID withdraws a lost-range entry. -/
  | lostRangeWithdraw (entry : Nat)
  /-- R378. A copy transfer's last write performs, and it retires in identifier order. -/
  | transferComplete (strand chan id : Nat)
  /-- R383. A transfer access fails and the channel is held with its fault record. -/
  | transferFault (strand chan : Nat)
  /-- R417. A member of a cluster-linked barrier sees a phase completion within 40 cycles. -/
  | linkedPhaseSeen (group barrier : Nat)
  /-- R422. A pending admitted user-level interrupt kind enters the handler before the next instruction. -/
  | uiDelivery (strand : Nat)
  /-- R148. A wfe's time limit passes and the strand resumes. -/
  | wfeTimeout (strand : Nat)
  /-- R292. A write at a watched word's home re-evaluates the watches of a vwait. -/
  | vwaitWatchMet (strand : Nat)
  /-- R265. The background zeroing of a claimed tile completes. -/
  | tileZeroComplete (core tile : Nat)
  /-- R483. Requests pre-emption of a running strand, which enters STOPPING. -/
  | scmdPreempt (strand : Nat)
  /-- R483. A stopped strand's state has been written to its save area and STATE becomes SAVED. -/
  | preemptSaveComplete (strand : Nat)
  /-- R483. Loads a saved context into its strand and resumes it. -/
  | scmdRestore (strand : Nat)
  /-- R429. The pool re-evaluates a waiting task after its future fills and makes it ready. -/
  | taskReady (die entry : Nat)
  /-- R430. A trun's timeout passes before a task is ready, and xd receives all ones. -/
  | trunTimeout (strand : Nat)
  /-- R444. The tolerance-compare engine decides whether a published tile matches its forecast. -/
  | forecastDecision (die slot : Nat)
  /-- R464. The sequencer forms stage inputs, writes the argument block and launches the model kernel. -/
  | sqStageLaunch (die : Nat)
  /-- R464. The completion word reaches the launch count and the completion record is checked. -/
  | sqStageComplete (die : Nat)
  /-- R468. After the combiner forms candidates and norms, each sample is accepted, rejected or resized and records are written. -/
  | sqDecision (die : Nat)
  /-- R495. A persistent kernel's heartbeat interval passes without progress and it becomes suspended-hung. -/
  | heartbeatExpire (kernel : Nat)
  /-- R497. A kernel exceeds MAXRUNMS and is ended with RUNTIME. -/
  | runtimeExpire (kernel : Nat)
  /-- R496. A strand exceeds FEWD.US at executive level and takes WATCHDOG into firmware. -/
  | executiveWatchdog (strand : Nat)
  /-- R494. Restores every saved strand of a suspended-hung kernel. -/
  | kcmdResume (self : Option Nat)
  /-- R494. Ends a suspended-hung kernel with HUNG_ENDED. -/
  | kcmdEnd (self : Option Nat)
  /-- R494. Ends a kernel with CANCELLED. -/
  | kcmdCancel (self : Option Nat)
  /-- R494. Ends a kernel with FAULTED. -/
  | kcmdFault (self : Option Nat)
  /-- R499. Stops issue on every strand of the core for debug. -/
  | dbgctlHalt (core : Nat)
  /-- R499. Clears the halt bits and continues every strand of the core. -/
  | dbgctlResume (core : Nat)
  /-- R499. After 100 microseconds without SETTLED, HALTED and TIMEOUT are set. -/
  | debugSettleTimeout (core : Nat)
  /-- R500. Reads the selected debug item whole and latches its high bits into DBGDHI. -/
  | dbgdloRead (core : Nat)
  /-- R500. Writes the selected debug item with the held high bits. -/
  | dbgdloWrite (core : Nat) (v : BitVec 32)
  /-- R500. Holds the high 32 bits for the next DBGDLO write. -/
  | dbgdhiWrite (core : Nat) (v : BitVec 32)
  /-- R501. A strand ends its part in its shard after draining its instructions, copies and cocoons. -/
  | strandEnd (strand : Nat)
  /-- R506. Reset deassertion starts the root of trust's boot. -/
  | resetDeassertion
  /-- R506. A boot stage completes and the next begins, or boot stops with a BOOTERR code. -/
  | bootStageComplete (ok : Bool)
  /-- R507. Writing READY locks the accepted feature set, or sets BADSET for an inconsistent set. -/
  | devctlReady
  /-- R509. An ATS translation response arrives, or a PRI page request is sent. -/
  | atsResponse (strand : Nat) (page : Nat) (entry : Option (BitVec 64))
  /-- R509. A PRI response retries the translation or takes PAGE_NOT_PRESENT. -/
  | priResponse (strand : Nat) (success : Bool)
  /-- R509. A host ATS invalidation removes matching translations and completes after their accesses perform. -/
  | atsInvalidation (pasid page : Nat) (all : Bool)
  /-- R510. A device link flit is checked and delivered, or discarded with NAK. -/
  | linkFlitReceive (port : Nat) (flit : BitVec 2048)
  /-- R510. After 8 failed replays the port retrains, possibly on 4 lanes. -/
  | linkRetrain (port : Nat)
  /-- R512. SPDM request answered over DOE. -/
  | getVersion
  /-- R512. SPDM request answered over DOE. -/
  | getCapabilities
  /-- R512. SPDM request selecting Ed448 and SHA3-512. -/
  | negotiateAlgorithms (algorithms : Nat)
  /-- R512. SPDM request for certificate chain digests. -/
  | getDigests
  /-- R512. SPDM request for the slot 0 certificate chain. -/
  | getCertificate (offset length : Nat)
  /-- R512. SPDM challenge signed with the identity key. -/
  | challenge (nonce : BitVec 256)
  /-- R512. SPDM request for the four SHAKE256 measurements. -/
  | getMeasurements (index : Nat)
  /-- R514. A corrected error is counted and logged. -/
  | correctedError (page : Option Nat)
  /-- R514. An uncorrectable data error poisons the word. -/
  | uncorrectableError (word : Nat)
  /-- R514. A core logic fault fences the core and ends its kernels with FAULTED. -/
  | coreFence (core : Nat)
  /-- R514. A die-shared logic fault fences the die and ends its kernels with FAULTED. -/
  | dieFence (die : Nat)
  /-- R514. A core not empty 4 hours after 20 hours of groups is pre-empted for in-field self-test. -/
  | selfTestPreempt (core : Nat)
  /-- R516. The controller lowers the clock by 25 MHz for power or temperature. -/
  | clockLower (thermal : Bool)
  /-- R516. After 10 ms of margin the controller raises the clock by 25 MHz. -/
  | clockRaise
  /-- R516. At 115 degrees or over-limit at the floor the package stops and holds itself in reset. -/
  | thermalShutdown
  /-- R111. Execution of a fetched word that is not an instruction (unassigned major, unassigned operation code, nonzero reserved field, all-ones word) takes ILLEGAL_INSTRUCTION. -/
  | notAnInstruction (word : BitVec 32)
  /-- R29. A host, pool or device link port is lost, and RESCNT.HOSTPORTS or DLINKS falls for good. -/
  | portLost (deviceLink : Bool) (port : Nat)
  /-- R511. A retraining device link port returns to service, on 8 or 4 lanes, and the requests outstanding on it are replayed. -/
  | portReturn (port : Nat) (fourLanes : Bool)
  /-- R514. A core that has held groups for 20 hours receives no new group, so that it can empty for in-field self-test. -/
  | noNewGroup (core : Nat)
  /-- R514. In-field self-test of a core ends within 50 ms and the strands pre-empted for it are restored. -/
  | selfTestComplete (core : Nat)
  deriving DecidableEq, Repr

end Sys2Proof
end

