-- ==== Sys2Proof/WellFormed.lean ====
section
/-! DEFINITION. Well-formed instructions: what the decode checks of R111 ask of the operand fields beyond what
their types already say. -/

namespace Sys2Proof

/-- R103: msk 1000 is reserved. -/
def Msk.ok (m : Msk) : Bool := !(m.neg && m.m == 0)

/-- R111, R198: a vtype immediate has bit 7 clear, and GRP and EW are not both unusable (vt[2] = 1 with vt[1:0] of
2 or 3). -/
def vtypeOk (vt : BitVec 8) : Bool := !(vt.getLsbD 7) && !(vt.getLsbD 2 && vt.getLsbD 1)

/-- R201: vlend names a trip register other than x0, at most four pointers, and no register above x31. -/
def vlendOk (np a : Reg) : Bool := a != 0 && decide (np.toNat ≤ 4) && decide (a.toNat + np.toNat ≤ 31)

/-- R212: SU needs SI, and DU needs an integer destination. -/
def cvOk (intDst : Bool) (cv : BitVec 3) : Bool :=
  !(cv.getLsbD 1 && !cv.getLsbD 0) && !(cv.getLsbD 2 && !intDst)

/-- A segment-head code is 0 or names a mask (R238). -/
def Head.ok : Head → Bool
  | .none => true
  | .mask _ => true

/-- The operand fields of an instruction are ones that R111 admits. -/
def Instr.wf : Instr → Bool
  | .ill => true
  | .xcall => true
  | .fcall => true
  | .brk => true
  | .eret => true
  | .uiret => true
  | .wfe _ => true
  | .tlbinvPage _ _ => true
  | .tlbinvAsid _ => true
  | .tlbinvAll => true
  | .cwbCore => true
  | .cwbDie => true
  | .cwbDevice => true
  | .cwbImage _ _ => true
  | .halt => true
  | .add _ _ _ => true
  | .sub _ _ _ => true
  | .and _ _ _ => true
  | .or _ _ _ => true
  | .xor _ _ _ => true
  | .andn _ _ _ => true
  | .orn _ _ _ => true
  | .sll _ _ _ => true
  | .srl _ _ _ => true
  | .sra _ _ _ => true
  | .rotl _ _ _ => true
  | .rotr _ _ _ => true
  | .slt _ _ _ => true
  | .sltn _ _ _ => true
  | .min _ _ _ => true
  | .max _ _ _ => true
  | .minn _ _ _ => true
  | .maxn _ _ _ => true
  | .mul _ _ _ => true
  | .mulh _ _ _ => true
  | .mulhn _ _ _ => true
  | .div _ _ _ => true
  | .divn _ _ _ => true
  | .rem _ _ _ => true
  | .remn _ _ _ => true
  | .clz _ _ => true
  | .ctz _ _ => true
  | .popc _ _ => true
  | .bswap _ _ => true
  | .addi _ _ _ => true
  | .andi _ _ _ => true
  | .ori _ _ _ => true
  | .xori _ _ _ => true
  | .slti _ _ _ => true
  | .sltni _ _ _ => true
  | .sllI _ _ _ => true
  | .srlI _ _ _ => true
  | .sraI _ _ _ => true
  | .rotrI _ _ _ => true
  | .lui _ _ => true
  | .auipc _ _ => true
  | .ld8 _ _ _ => true
  | .ld8s _ _ _ => true
  | .ld16 _ _ _ => true
  | .ld16s _ _ _ => true
  | .ld32 _ _ _ => true
  | .ld32s _ _ _ => true
  | .ld64 _ _ _ => true
  | .st8 _ _ _ => true
  | .st16 _ _ _ => true
  | .st32 _ _ _ => true
  | .st64 _ _ _ => true
  | .ldacq _ _ _ => true
  | .strel _ _ _ => true
  | .amoswap _ _ _ _ => true
  | .amoadd _ _ _ _ => true
  | .amoand _ _ _ _ => true
  | .amoor _ _ _ _ => true
  | .amoxor _ _ _ _ => true
  | .amomin _ _ _ _ => true
  | .amomax _ _ _ _ => true
  | .amominn _ _ _ _ => true
  | .amomaxn _ _ _ _ => true
  | .amocas _ _ _ _ => true
  | .ldf _ _ _ => true
  | .ldc _ _ _ => true
  | .stf _ _ _ => true
  | .beq _ _ _ => true
  | .bne _ _ _ => true
  | .blt _ _ _ => true
  | .bge _ _ _ => true
  | .bltn _ _ _ => true
  | .bgen _ _ _ => true
  | .jl _ => true
  | .jlr _ _ _ => true
  | .fadd _ _ _ _ _ => true
  | .fsub _ _ _ _ _ => true
  | .fmul _ _ _ _ _ => true
  | .fdiv _ _ _ _ _ => true
  | .fsqrt _ _ _ _ => true
  | .fmadd _ _ _ _ _ => true
  | .fmin _ _ _ _ _ => true
  | .fmax _ _ _ _ _ => true
  | .fneg _ _ _ _ => true
  | .fabs _ _ _ _ => true
  | .fcmpeq _ _ _ _ _ => true
  | .fcmplt _ _ _ _ _ => true
  | .fcmple _ _ _ _ _ => true
  | .fclass _ _ _ _ => true
  | .fcvtfi _ _ _ _ _ => true
  | .fcvtif _ _ _ _ _ => true
  | .fcvtff _ _ _ _ => true
  | .mfs _ _ => true
  | .mts _ _ => true
  | .sset _ _ => true
  | .sclr _ _ => true
  | .tloop _ _ _ => true
  | .vsetl _ _ vt => vtypeOk vt
  | .vsetlx _ _ _ => true
  | .vloop _ vt => vtypeOk vt
  | .vlend np a _ => vlendOk np a
  | .vbreak _ _ => true
  | .vdecl _ => true
  | .vundecl => true
  | .vslip _ => true
  | .vld _ _ _ _ m _ => m.ok
  | .vlds _ _ _ _ _ m _ => m.ok
  | .vldq _ _ _ _ m _ => m.ok
  | .vldqk _ _ _ _ _ m _ => m.ok
  | .vldb _ _ _ _ m _ => m.ok
  | .vldf _ _ _ _ m _ => m.ok
  | .vldp4 _ _ _ _ _ m => m.ok
  | .vst _ _ _ _ m _ => m.ok
  | .vsts _ _ _ _ _ m _ => m.ok
  | .vstn _ _ _ _ m _ => m.ok
  | .vstsn _ _ _ _ _ m _ => m.ok
  | .vstf _ _ _ _ m _ => m.ok
  | .vstq _ _ _ _ m _ => m.ok
  | .vgat _ _ _ _ _ m _ => m.ok
  | .vsca _ _ _ _ _ m _ => m.ok
  | .vgatw _ _ _ _ _ p _ => (p != 0)
  | .vgl _ _ _ _ _ m _ => m.ok
  | .vscc _ _ _ _ _ p _ => (p != 0)
  | .vamoadd _ _ _ _ _ m => m.ok
  | .vamoand _ _ _ _ _ m => m.ok
  | .vamoor _ _ _ _ _ m => m.ok
  | .vamoxor _ _ _ _ _ m => m.ok
  | .vamomin _ _ _ _ _ m => m.ok
  | .vamomax _ _ _ _ _ m => m.ok
  | .vamominn _ _ _ _ _ m => m.ok
  | .vamomaxn _ _ _ _ _ m => m.ok
  | .vamoswap _ _ _ _ _ m => m.ok
  | .vamofadd _ _ _ _ _ m => m.ok
  | .vwait _ _ _ _ _ m => m.ok
  | .vadd _ _ _ m => m.ok
  | .vsub _ _ _ m => m.ok
  | .vrsub _ _ _ m => m.ok
  | .vmul _ _ _ m => m.ok
  | .vmulh _ _ _ m => m.ok
  | .vmulhn _ _ _ m => m.ok
  | .vdiv _ _ _ m => m.ok
  | .vdivn _ _ _ m => m.ok
  | .vrem _ _ _ m => m.ok
  | .vremn _ _ _ m => m.ok
  | .vmin _ _ _ m => m.ok
  | .vmax _ _ _ m => m.ok
  | .vminn _ _ _ m => m.ok
  | .vmaxn _ _ _ m => m.ok
  | .vand _ _ _ m => m.ok
  | .vor _ _ _ m => m.ok
  | .vxor _ _ _ m => m.ok
  | .vsll _ _ _ m => m.ok
  | .vsrl _ _ _ m => m.ok
  | .vsra _ _ _ m => m.ok
  | .vadds _ _ _ m => m.ok
  | .vsubs _ _ _ m => m.ok
  | .vaddsn _ _ _ m => m.ok
  | .vsubsn _ _ _ m => m.ok
  | .vmacc _ _ _ m => m.ok
  | .vnmsac _ _ _ m => m.ok
  | .vwmul _ _ _ m => m.ok
  | .vnsrl _ _ _ m => m.ok
  | .vfadd _ _ _ m => m.ok
  | .vfsub _ _ _ m => m.ok
  | .vfmul _ _ _ m => m.ok
  | .vfdiv _ _ _ m => m.ok
  | .vfsqrt _ _ m => m.ok
  | .vfrsqe _ _ m => m.ok
  | .vfexp2 _ _ m => m.ok
  | .vfmadd _ _ _ m => m.ok
  | .vfnmadd _ _ _ m => m.ok
  | .vfmsub _ _ _ m => m.ok
  | .vfmin _ _ _ m => m.ok
  | .vfmax _ _ _ m => m.ok
  | .vfabs _ _ m => m.ok
  | .vfneg _ _ m => m.ok
  | .vfsgnj _ _ _ m => m.ok
  | .vfclass _ _ m => m.ok
  | .vcvtf64 _ _ cv m => cvOk false cv && m.ok
  | .vcvtf32 _ _ cv m => cvOk false cv && m.ok
  | .vcvtf16 _ _ cv m => cvOk false cv && m.ok
  | .vcvtbf16 _ _ cv m => cvOk false cv && m.ok
  | .vcvte4m3 _ _ cv m => cvOk false cv && m.ok
  | .vcvte5m2 _ _ cv m => cvOk false cv && m.ok
  | .vcvte4m3s _ _ cv m => cvOk false cv && m.ok
  | .vcvte5m2s _ _ cv m => cvOk false cv && m.ok
  | .vcvti8 _ _ cv m => cvOk true cv && m.ok
  | .vcvti16 _ _ cv m => cvOk true cv && m.ok
  | .vcvti32 _ _ cv m => cvOk true cv && m.ok
  | .vcvti64 _ _ cv m => cvOk true cv && m.ok
  | .vcvtfi _ _ m => m.ok
  | .vqnt _ _ _ _ m => m.ok
  | .vdeq _ _ _ _ m => m.ok
  | .vmxq _ _ _ _ m => m.ok
  | .vmxd _ _ _ _ m => m.ok
  | .vslup _ _ _ m => m.ok
  | .vsldn _ _ _ m => m.ok
  | .vrot _ _ _ m => m.ok
  | .vperm _ _ _ m => m.ok
  | .vbcast _ _ _ m => m.ok
  | .vmvxs _ _ => true
  | .vmvsx _ _ m => m.ok
  | .vzip _ _ _ m => m.ok
  | .vunzip _ _ _ m => m.ok
  | .vrev _ _ m => m.ok
  | .vmerge _ _ _ m => m.ok
  | .vmv _ _ m => m.ok
  | .vcompress _ _ m => m.ok
  | .vexpand _ _ m => m.ok
  | .vpopx _ m => m.ok
  | .vconf _ _ m => m.ok
  | .vsscan _ _ _ m => m.ok
  | .vsscanmax _ _ _ m => m.ok
  | .vfsscan _ _ _ m => m.ok
  | .vfirst _ _ m => m.ok
  | .vcpop _ _ m => m.ok
  | .viota _ _ m => m.ok
  | .vblklist _ _ _ => true
  | .vredsum _ _ _ m => m.ok
  | .vredmax _ _ _ m => m.ok
  | .vredmin _ _ _ m => m.ok
  | .vredmaxn _ _ _ m => m.ok
  | .vredminn _ _ _ m => m.ok
  | .vredand _ _ _ m => m.ok
  | .vredor _ _ _ m => m.ok
  | .vredxor _ _ _ m => m.ok
  | .vfredo _ _ _ m => m.ok
  | .vfredt _ _ _ m => m.ok
  | .vfredmax _ _ _ m => m.ok
  | .vfredmin _ _ _ m => m.ok
  | .vtopk _ _ xb m => (xb != 0) && m.ok
  | .vtopkm _ _ _ => true
  | .vmseq _ _ _ m => m.ok
  | .vmsne _ _ _ m => m.ok
  | .vmslt _ _ _ m => m.ok
  | .vmsltn _ _ _ m => m.ok
  | .vmsle _ _ _ m => m.ok
  | .vmslen _ _ _ m => m.ok
  | .vmfeq _ _ _ m => m.ok
  | .vmflt _ _ _ m => m.ok
  | .vmfle _ _ _ m => m.ok
  | .vmfnan _ _ m => m.ok
  | .vmand _ _ _ => true
  | .vmor _ _ _ => true
  | .vmxor _ _ _ => true
  | .vmandn _ _ _ => true
  | .vmnot _ _ => true
  | .vmmv _ _ => true
  | .vmmvc _ => true
  | .vmfromx _ _ _ => true
  | .vmtox _ _ _ => true
  | .tclaim _ _ _ => true
  | .tfree _ => true
  | .tzero _ _ => true
  | .trdrow _ _ _ => true
  | .trdcol _ _ _ => true
  | .twrrow _ _ _ => true
  | .twrcol _ _ _ => true
  | .tstat _ _ => true
  | .tmop _ _ _ _ _ _ => true
  | .tmopMs _ _ _ _ _ _ _ => true
  | .qcfg _ _ _ => true
  | .qpush _ _ => true
  | .qpop _ _ => true
  | .qwait _ _ _ => true
  | .qzf _ _ _ => true
  | .ccmap _ _ => true
  | .ccunmap _ => true
  | .ccflush _ => true
  | .ccstat _ _ => true
  | .fx _ _ _ _ _ => true
  | .fxC _ _ _ _ _ => true
  | .fxbind _ _ _ => true
  | .fxunbind _ => true
  | .fxstat _ _ => true
  | .fxquery _ _ _ => true
  | .fxpin _ _ => true
  | .fxunpin _ => true
  | .recv _ _ => true
  | .send _ _ => true
  | .sendE _ _ => true
  | .steer _ _ _ => true
  | .merge _ _ _ => true
  | .prime _ _ => true
  | .tokw _ => true
  | .toks _ => true
  | .lpeek _ _ => true
  | .cpy1d _ _ _ => true
  | .cpybox _ _ _ => true
  | .cpyfill _ _ _ => true
  | .cwait _ _ => true
  | .cstat _ _ => true
  | .cpyarm _ _ => true
  | .fence _ _ => true
  | .barinit _ _ _ => true
  | .barrive _ _ _ => true
  | .barwait _ _ => true
  | .barpoll _ _ => true
  | .hbeat => true
  | .uien _ _ => true
  | .uidis _ _ => true
  | .yield => true
  | .tspawn _ _ => true
  | .trun _ _ _ => true
  | .tdone => true
  | .tfut _ _ => true
  | .tfset _ _ => true
  | .tfwait _ _ => true
  | .tqcfg _ _ _ => true
  | .sfarm _ _ _ => true
  | .spub _ _ => true
  | .sspawn _ _ _ => true
  | .sstat _ _ => true
  | .sabort _ _ => true
  | .sqinit _ _ => true
  | .sqtab _ _ => true
  | .sqadd _ _ => true
  | .sqgo _ => true
  | .sqstat _ _ => true
  | .sqend _ => true
  | .doorbellWrite _ _ => true
  | .qcmdEnable _ => true
  | .qcmdDisable _ => true
  | .qcmdReset _ => true
  | .registerWrite _ _ => true
  | .quantumBoundary => true
  | .slotLoadComplete _ => true
  | .recordAccept => true
  | .imageCheck _ => true
  | .depWatchReevaluate _ => true
  | .depPoll _ => true
  | .kernelCompletion _ => true
  | .placementEvent _ => true
  | .backfillStop _ => true
  | .spiracleGrantWrite _ _ _ _ => true
  | .pageMoveEnd _ _ _ => true
  | .pageContextLoadComplete _ _ => true
  | .blockFetchComplete _ _ => true
  | .flitTransfer _ _ _ => true
  | .streamInputDelivery _ _ => true
  | .streamOutputTake _ => true
  | .invocationComplete _ => true
  | .fabricStop _ => true
  | .fabricDeadlock _ => true
  | .homeRead _ _ => true
  | .registration _ _ => true
  | .l1Eviction _ _ => true
  | .l2Eviction _ _ => true
  | .sectorFill _ _ => true
  | .cocoonFill _ _ _ => true
  | .requestResend _ _ => true
  | .memTimeout _ => true
  | .snoopInvalidate _ => true
  | .snoopData _ => true
  | .hostHdmRequest _ _ => true
  | .poolShelfFailure _ _ _ => true
  | .lostRangeWithdraw _ => true
  | .transferComplete _ _ _ => true
  | .transferFault _ _ => true
  | .linkedPhaseSeen _ _ => true
  | .uiDelivery _ => true
  | .wfeTimeout _ => true
  | .vwaitWatchMet _ => true
  | .tileZeroComplete _ _ => true
  | .scmdPreempt _ => true
  | .preemptSaveComplete _ => true
  | .scmdRestore _ => true
  | .taskReady _ _ => true
  | .trunTimeout _ => true
  | .forecastDecision _ _ => true
  | .sqStageLaunch _ => true
  | .sqStageComplete _ => true
  | .sqDecision _ => true
  | .heartbeatExpire _ => true
  | .runtimeExpire _ => true
  | .executiveWatchdog _ => true
  | .kcmdResume _ => true
  | .kcmdEnd _ => true
  | .kcmdCancel _ => true
  | .kcmdFault _ => true
  | .dbgctlHalt _ => true
  | .dbgctlResume _ => true
  | .debugSettleTimeout _ => true
  | .dbgdloRead _ => true
  | .dbgdloWrite _ _ => true
  | .dbgdhiWrite _ _ => true
  | .strandEnd _ => true
  | .resetDeassertion => true
  | .bootStageComplete _ => true
  | .devctlReady => true
  | .atsResponse _ _ _ => true
  | .priResponse _ _ => true
  | .atsInvalidation _ _ _ => true
  | .linkFlitReceive _ _ => true
  | .linkRetrain _ => true
  | .getVersion => true
  | .getCapabilities => true
  | .negotiateAlgorithms _ => true
  | .getDigests => true
  | .getCertificate _ _ => true
  | .challenge _ => true
  | .getMeasurements _ => true
  | .correctedError _ => true
  | .uncorrectableError _ => true
  | .coreFence _ => true
  | .dieFence _ => true
  | .selfTestPreempt _ => true
  | .clockLower _ => true
  | .clockRaise => true
  | .thermalShutdown => true
  | .notAnInstruction _ => true
  | .portLost _ _ => true
  | .portReturn _ _ => true
  | .noNewGroup _ => true
  | .selfTestComplete _ => true

end Sys2Proof
end

