-- ==== Sys2Proof/Decode.lean ====
section
/-! DEFINITION. The decoder (R102 to R111), total on every 32-bit word, and beside it the encoder, both written from
the formats of R102, the operand codes of R103 to R106 and the operation codes of R108 to R110. -/

namespace Sys2Proof

noncomputable section

/-- Why a word is no instruction (R111). -/
inductive DecodeError where
  /-- its major is unassigned -/
  | unassignedMajor
  /-- its fn, mode, w, cond or fmt value is not assigned -/
  | unassignedOperation
  /-- a reserved field is nonzero -/
  | reservedField
  /-- a register, k, q, ring or mask field that the operand list does not use is nonzero -/
  | unusedField
  /-- a scope code is 6 or 7 -/
  | reservedScope
  /-- an operand field holds a code that the instruction's own description refuses -/
  | badOperandCode
  deriving DecidableEq, Repr

/-- The field of len bits that begins at bit lo. -/
def fld (w : BitVec 32) (lo len : Nat) : BitVec len := w.extractLsb' lo len
/-- Bit i of the word. -/
def fbit (w : BitVec 32) (i : Nat) : Bool := w.getLsbD i
/-- The d field, bits 25 to 21 (R102). -/
def fd (w : BitVec 32) : Reg := fld w 21 5
/-- The a field, bits 20 to 16. -/
def fa (w : BitVec 32) : Reg := fld w 16 5
/-- The b field, bits 15 to 11. -/
def fb (w : BitVec 32) : Reg := fld w 11 5
/-- The imm16 field of RI. -/
def fimm16 (w : BitVec 32) : BitVec 16 := fld w 0 16
/-- The off13 field of MS and BC. -/
def foff13 (w : BitVec 32) : BitVec 13 := fld w 0 13
/-- The msk field of VA, VM and VX, bits 8 to 5. -/
def fmsk (w : BitVec 32) : BitVec 4 := fld w 5 4

/-- A decode check: the error when it fails. -/
def need (b : Bool) (e : DecodeError) : Except DecodeError Unit := if b then .ok () else .error e
/-- A register field that the operand list does not use is zero (R111). -/
def zero (r : Reg) : Except DecodeError Unit := need (r == 0) .unusedField

/-- R9: the scope codes; 6 and 7 are reserved (R111). -/
def scopeOf (c : BitVec 3) : Except DecodeError Scope :=
  match c.toNat with
  | 0 => .ok .strand | 1 => .ok .core | 2 => .ok .cluster | 3 => .ok .die | 4 => .ok .device | 5 => .ok .system
  | _ => .error .reservedScope

/-- The code of a scope (R9). -/
def Scope.code : Scope → BitVec 3
  | .strand => 0 | .core => 1 | .cluster => 2 | .die => 3 | .device => 4 | .system => 5

/-- R110: the FPS format field. -/
def fpFmtOf (c : BitVec 2) : Except DecodeError FpFmt :=
  match c.toNat with
  | 0 => .ok .f64 | 1 => .ok .f32 | _ => .error .unassignedOperation

/-- The code of an FPS format (R110). -/
def FpFmt.code : FpFmt → BitVec 2
  | .f64 => 0 | .f32 => 1

/-- R110: the FPS rounding field; 5 and 6 are reserved. -/
def rmOf (c : BitVec 3) : Except DecodeError Rm :=
  match c.toNat with
  | 0 => .ok .rne | 1 => .ok .rtz | 2 => .ok .rdn | 3 => .ok .rup | 4 => .ok .rna | 7 => .ok .dyn
  | _ => .error .unassignedOperation

/-- The code of an FPS rounding (R110). -/
def Rm.code : Rm → BitVec 3
  | .rne => 0 | .rtz => 1 | .rdn => 2 | .rup => 3 | .rna => 4 | .dyn => 7

/-- R103: the msk field; 1000 is reserved. -/
def mskOf (c : BitVec 4) : Except DecodeError Msk :=
  if c == 8 then .error .badOperandCode else .ok ⟨c.getLsbD 3, c.extractLsb' 0 3⟩

/-- The code of a mask operand (R103). -/
def Msk.code (m : Msk) : BitVec 4 := bit1 m.neg ++ m.m

/-- R103: the register field of a queue: 00xxx a ring, 010xx a relay queue, the rest reserved. -/
def queueOf (c : Reg) : Except DecodeError Queue :=
  match (c.extractLsb' 3 2 : BitVec 2).toNat with
  | 0 => .ok (.ring (c.extractLsb' 0 3))
  | 1 => if c.getLsbD 2 then .error .badOperandCode else .ok (.relay (c.extractLsb' 0 2))
  | _ => .error .badOperandCode

/-- The register field of a queue (R103). -/
def Queue.field : Queue → Reg
  | .ring n => (0 : BitVec 2) ++ n
  | .relay n => (2 : BitVec 3) ++ n

/-- R103: the va field under q. -/
def vsrcOf (q : Bool) (c : Reg) : Except DecodeError VSrc :=
  if q then (queueOf c).map .queue else .ok (.vreg c)

/-- The va field of a source. -/
def VSrc.field : VSrc → Reg
  | .vreg v => v
  | .queue q => q.field
/-- The q field of a source. -/
def VSrc.q : VSrc → Bool
  | .vreg _ => false
  | .queue _ => true

/-- R103: the vb field under k. -/
def vbOf (k : Bool) (c : Reg) : VbSrc := if k then .xreg c else .vreg c
/-- The vb field of a source. -/
def VbSrc.field : VbSrc → Reg
  | .vreg v => v
  | .xreg x => x
/-- The k field of a source. -/
def VbSrc.k : VbSrc → Bool
  | .vreg _ => false
  | .xreg _ => true

/-- R238: the segment-head code of a scan: 0 to 7 name a mask, 8 marks no heads, a higher code is refused. -/
def headOf (c : Reg) : Except DecodeError Head :=
  if c.toNat ≤ 7 then .ok (.mask (c.extractLsb' 0 3)) else if c == 8 then .ok .none else .error .badOperandCode

/-- The code of a segment head (R238). -/
def Head.field : Head → Reg
  | .none => 8
  | .mask m => (0 : BitVec 2) ++ m

/-- R109: the fmt field of tmop; 11 to 15 are reserved. -/
def tmFmtOf (c : BitVec 4) : Except DecodeError TmFmt :=
  match c.toNat with
  | 0 => .ok .f32 | 1 => .ok .bf16 | 2 => .ok .f16 | 3 => .ok .e4m3 | 4 => .ok .e5m2 | 5 => .ok .mxe4m3
  | 6 => .ok .mxe5m2 | 7 => .ok .i8 | 8 => .ok .i4 | 9 => .ok .q8 | 10 => .ok .q4
  | _ => .error .unassignedOperation

/-- The fmt code of a tmop format (R109). -/
def TmFmt.code : TmFmt → BitVec 4
  | .f32 => 0 | .bf16 => 1 | .f16 => 2 | .e4m3 => 3 | .e5m2 => 4 | .mxe4m3 => 5
  | .mxe5m2 => 6 | .i8 => 7 | .i4 => 8 | .q8 => 9 | .q4 => 10

/-- R105: the sources of a tmop under q. -/
def tmSrcOf (q : Bool) (a b : Reg) : Except DecodeError TmSrc :=
  if q then do
    let x ← queueOf a
    let y ← queueOf b
    .ok (.queues x y)
  else .ok (.regs a b)
/-- The va field of a tmop. -/
def TmSrc.fieldA : TmSrc → Reg
  | .regs a _ => a
  | .queues a _ => a.field
/-- The vb field of a tmop. -/
def TmSrc.fieldB : TmSrc → Reg
  | .regs _ b => b
  | .queues _ b => b.field
/-- The q field of a tmop. -/
def TmSrc.q : TmSrc → Bool
  | .regs _ _ => false
  | .queues _ _ => true

/-- A register field that holds a truth value. -/
def boolField (b : Bool) : Reg := (0 : BitVec 4) ++ bit1 b

/-! The formats of R102, each the fields in the order of the word from bit 31 down. -/

/-- Format RRR. -/
def encRRR (maj : BitVec 6) (d a b : Reg) (fn : BitVec 11) : BitVec 32 := maj ++ d ++ a ++ b ++ fn
/-- Format RI. -/
def encRI (maj : BitVec 6) (d a : Reg) (imm : BitVec 16) : BitVec 32 := maj ++ d ++ a ++ imm
/-- Format UI. -/
def encUI (maj : BitVec 6) (d : Reg) (imm : BitVec 21) : BitVec 32 := maj ++ d ++ imm
/-- Formats MS and BC, whose fields have the same places. -/
def encMS (maj : BitVec 6) (x y : Reg) (w : BitVec 3) (off : BitVec 13) : BitVec 32 := maj ++ x ++ y ++ w ++ off
/-- Format JM. -/
def encJM (maj : BitVec 6) (off : BitVec 26) : BitVec 32 := maj ++ off
/-- Format VM. -/
def encVM (maj : BitVec 6) (v a b : Reg) (o s : Bool) (m : Msk) (mode : BitVec 3) (ew : BitVec 2) : BitVec 32 :=
  maj ++ v ++ a ++ b ++ bit1 o ++ bit1 s ++ bit1 m.neg ++ m.m ++ mode ++ ew
/-- Formats VA and VX, whose fields have the same places. -/
def encVA (maj : BitVec 6) (vd va vb : Reg) (k q : Bool) (m : Msk) (fn : BitVec 5) : BitVec 32 :=
  maj ++ vd ++ va ++ vb ++ bit1 k ++ bit1 q ++ bit1 m.neg ++ m.m ++ fn
/-- Format TM. -/
def encTM (maj : BitVec 6) (acc : BitVec 2) (f : TmFmt) (va vb : Reg) (rp : BitVec 3) (q sub sat ms : Bool) :
    BitVec 32 :=
  maj ++ acc ++ f.code ++ va ++ vb ++ rp ++ bit1 q ++ bit1 sub ++ bit1 sat ++ bit1 ms ++ (0 : BitVec 3)
/-- Format FI. -/
def encFI (maj : BitVec 6) (vd va vb slot : Reg) (c : Bool) (xs : Reg) : BitVec 32 :=
  maj ++ vd ++ va ++ vb ++ slot ++ bit1 c ++ xs
/-- The fn layout of AMO (R110). -/
def encAmoFn (sc : Scope) (op : BitVec 5) : BitVec 11 := sc.code ++ (0 : BitVec 3) ++ op
/-- The fn layout of FPS (R110). -/
def encFpsFn (f : FpFmt) (r : Rm) (op : BitVec 5) : BitVec 11 := f.code ++ r.code ++ (0 : BitVec 1) ++ op
/-- The fn layout of VCFG (R110). -/
def encVcfgFn (op : BitVec 3) (imm : BitVec 8) : BitVec 11 := op ++ imm
/-- The fn layout of TILE (R110). -/
def encTileFn (acc : BitVec 2) (op : BitVec 9) : BitVec 11 := acc ++ op
/-- The fn layout of fence in SYNC (R110). -/
def encSyncFn (sc : Scope) : BitVec 11 := sc.code ++ (0 : BitVec 8)

/-- Major 0x00 SYS (R108). -/
def decodeSys (w : BitVec 32) : Except DecodeError Instr :=
  match (fld w 0 11 : BitVec 11).toNat with
  | 0 => do
    zero (fd w)
    zero (fa w)
    zero (fb w)
    pure (.ill)
  | 1 => do
    zero (fd w)
    zero (fa w)
    zero (fb w)
    pure (.xcall)
  | 2 => do
    zero (fd w)
    zero (fa w)
    zero (fb w)
    pure (.fcall)
  | 3 => do
    zero (fd w)
    zero (fa w)
    zero (fb w)
    pure (.brk)
  | 4 => do
    zero (fd w)
    zero (fa w)
    zero (fb w)
    pure (.eret)
  | 5 => do
    zero (fd w)
    zero (fa w)
    zero (fb w)
    pure (.uiret)
  | 6 => do
    zero (fd w)
    zero (fb w)
    pure (.wfe (fa w))
  | 7 =>
    match (fd w).toNat with
    | 0 => .ok (.tlbinvPage (fa w) (fb w))
    | 1 => do
      zero (fa w)
      pure (.tlbinvAsid (fb w))
    | 2 => do
      zero (fa w)
      zero (fb w)
      pure (.tlbinvAll)
    | _ => .error .badOperandCode
  | 8 =>
    match (fd w).toNat with
    | 0 => do
      zero (fa w)
      zero (fb w)
      pure (.cwbCore)
    | 1 => do
      zero (fa w)
      zero (fb w)
      pure (.cwbDie)
    | 2 => do
      zero (fa w)
      zero (fb w)
      pure (.cwbDevice)
    | 3 => .ok (.cwbImage (fa w) (fb w))
    | _ => .error .badOperandCode
  | 9 => do
    zero (fd w)
    zero (fa w)
    zero (fb w)
    pure (.halt)
  | _ => .error .unassignedOperation

/-- Major 0x01 ALU (R108). -/
def decodeAlu (w : BitVec 32) : Except DecodeError Instr :=
  match (fld w 0 11 : BitVec 11).toNat with
  | 0 => .ok (.add (fd w) (fa w) (fb w))
  | 1 => .ok (.sub (fd w) (fa w) (fb w))
  | 2 => .ok (.and (fd w) (fa w) (fb w))
  | 3 => .ok (.or (fd w) (fa w) (fb w))
  | 4 => .ok (.xor (fd w) (fa w) (fb w))
  | 5 => .ok (.andn (fd w) (fa w) (fb w))
  | 6 => .ok (.orn (fd w) (fa w) (fb w))
  | 7 => .ok (.sll (fd w) (fa w) (fb w))
  | 8 => .ok (.srl (fd w) (fa w) (fb w))
  | 9 => .ok (.sra (fd w) (fa w) (fb w))
  | 10 => .ok (.rotl (fd w) (fa w) (fb w))
  | 11 => .ok (.rotr (fd w) (fa w) (fb w))
  | 12 => .ok (.slt (fd w) (fa w) (fb w))
  | 13 => .ok (.sltn (fd w) (fa w) (fb w))
  | 14 => .ok (.min (fd w) (fa w) (fb w))
  | 15 => .ok (.max (fd w) (fa w) (fb w))
  | 16 => .ok (.minn (fd w) (fa w) (fb w))
  | 17 => .ok (.maxn (fd w) (fa w) (fb w))
  | 18 => .ok (.mul (fd w) (fa w) (fb w))
  | 19 => .ok (.mulh (fd w) (fa w) (fb w))
  | 20 => .ok (.mulhn (fd w) (fa w) (fb w))
  | 21 => .ok (.div (fd w) (fa w) (fb w))
  | 22 => .ok (.divn (fd w) (fa w) (fb w))
  | 23 => .ok (.rem (fd w) (fa w) (fb w))
  | 24 => .ok (.remn (fd w) (fa w) (fb w))
  | 25 => do
    zero (fb w)
    pure (.clz (fd w) (fa w))
  | 26 => do
    zero (fb w)
    pure (.ctz (fd w) (fa w))
  | 27 => do
    zero (fb w)
    pure (.popc (fd w) (fa w))
  | 28 => do
    zero (fb w)
    pure (.bswap (fd w) (fa w))
  | _ => .error .unassignedOperation

/-- Major 0x02 IMM (R108). -/
def decodeImm02 (w : BitVec 32) : Except DecodeError Instr :=
  .ok (.addi (fd w) (fa w) (fimm16 w))

/-- Major 0x03 IMM (R108). -/
def decodeImm03 (w : BitVec 32) : Except DecodeError Instr :=
  .ok (.andi (fd w) (fa w) (fimm16 w))

/-- Major 0x04 IMM (R108). -/
def decodeImm04 (w : BitVec 32) : Except DecodeError Instr :=
  .ok (.ori (fd w) (fa w) (fimm16 w))

/-- Major 0x05 IMM (R108). -/
def decodeImm05 (w : BitVec 32) : Except DecodeError Instr :=
  .ok (.xori (fd w) (fa w) (fimm16 w))

/-- Major 0x06 IMM (R108). -/
def decodeImm06 (w : BitVec 32) : Except DecodeError Instr :=
  .ok (.slti (fd w) (fa w) (fimm16 w))

/-- Major 0x07 IMM (R108). -/
def decodeImm07 (w : BitVec 32) : Except DecodeError Instr :=
  .ok (.sltni (fd w) (fa w) (fimm16 w))

/-- Major 0x08 SHI (R108). -/
def decodeShi (w : BitVec 32) : Except DecodeError Instr :=
  match (fld w 14 2 : BitVec 2).toNat with
  | 0 => do
    need (fld w 6 8 == (0 : BitVec 8)) .reservedField
    pure (.sllI (fd w) (fa w) (fld w 0 6))
  | 1 => do
    need (fld w 6 8 == (0 : BitVec 8)) .reservedField
    pure (.srlI (fd w) (fa w) (fld w 0 6))
  | 2 => do
    need (fld w 6 8 == (0 : BitVec 8)) .reservedField
    pure (.sraI (fd w) (fa w) (fld w 0 6))
  | 3 => do
    need (fld w 6 8 == (0 : BitVec 8)) .reservedField
    pure (.rotrI (fd w) (fa w) (fld w 0 6))
  | _ => .error .unassignedOperation

/-- Major 0x09 UI (R108). -/
def decodeUi09 (w : BitVec 32) : Except DecodeError Instr :=
  .ok (.lui (fd w) (fld w 0 21))

/-- Major 0x0A UI (R108). -/
def decodeUi0a (w : BitVec 32) : Except DecodeError Instr :=
  .ok (.auipc (fd w) (fld w 0 21))

/-- Major 0x0B LD (R108). -/
def decodeLd (w : BitVec 32) : Except DecodeError Instr :=
  match (fld w 13 3 : BitVec 3).toNat with
  | 0 => .ok (.ld8 (fd w) (fa w) (foff13 w))
  | 1 => .ok (.ld8s (fd w) (fa w) (foff13 w))
  | 2 => .ok (.ld16 (fd w) (fa w) (foff13 w))
  | 3 => .ok (.ld16s (fd w) (fa w) (foff13 w))
  | 4 => .ok (.ld32 (fd w) (fa w) (foff13 w))
  | 5 => .ok (.ld32s (fd w) (fa w) (foff13 w))
  | 6 => .ok (.ld64 (fd w) (fa w) (foff13 w))
  | _ => .error .unassignedOperation

/-- Major 0x0C ST (R108). -/
def decodeSt (w : BitVec 32) : Except DecodeError Instr :=
  match (fld w 13 3 : BitVec 3).toNat with
  | 0 => .ok (.st8 (fd w) (fa w) (foff13 w))
  | 1 => .ok (.st16 (fd w) (fa w) (foff13 w))
  | 2 => .ok (.st32 (fd w) (fa w) (foff13 w))
  | 3 => .ok (.st64 (fd w) (fa w) (foff13 w))
  | _ => .error .unassignedOperation

/-- Major 0x0D AMO (R108). -/
def decodeAmo (w : BitVec 32) : Except DecodeError Instr :=
  match (fld w 0 5 : BitVec 5).toNat with
  | 0 => do
    need (fld w 5 3 == (0 : BitVec 3)) .reservedField
    let sc ← scopeOf (fld w 8 3)
    zero (fb w)
    pure (.ldacq sc (fd w) (fa w))
  | 1 => do
    need (fld w 5 3 == (0 : BitVec 3)) .reservedField
    let sc ← scopeOf (fld w 8 3)
    zero (fd w)
    pure (.strel sc (fa w) (fb w))
  | 2 => do
    need (fld w 5 3 == (0 : BitVec 3)) .reservedField
    let sc ← scopeOf (fld w 8 3)
    pure (.amoswap sc (fd w) (fa w) (fb w))
  | 3 => do
    need (fld w 5 3 == (0 : BitVec 3)) .reservedField
    let sc ← scopeOf (fld w 8 3)
    pure (.amoadd sc (fd w) (fa w) (fb w))
  | 4 => do
    need (fld w 5 3 == (0 : BitVec 3)) .reservedField
    let sc ← scopeOf (fld w 8 3)
    pure (.amoand sc (fd w) (fa w) (fb w))
  | 5 => do
    need (fld w 5 3 == (0 : BitVec 3)) .reservedField
    let sc ← scopeOf (fld w 8 3)
    pure (.amoor sc (fd w) (fa w) (fb w))
  | 6 => do
    need (fld w 5 3 == (0 : BitVec 3)) .reservedField
    let sc ← scopeOf (fld w 8 3)
    pure (.amoxor sc (fd w) (fa w) (fb w))
  | 7 => do
    need (fld w 5 3 == (0 : BitVec 3)) .reservedField
    let sc ← scopeOf (fld w 8 3)
    pure (.amomin sc (fd w) (fa w) (fb w))
  | 8 => do
    need (fld w 5 3 == (0 : BitVec 3)) .reservedField
    let sc ← scopeOf (fld w 8 3)
    pure (.amomax sc (fd w) (fa w) (fb w))
  | 9 => do
    need (fld w 5 3 == (0 : BitVec 3)) .reservedField
    let sc ← scopeOf (fld w 8 3)
    pure (.amominn sc (fd w) (fa w) (fb w))
  | 10 => do
    need (fld w 5 3 == (0 : BitVec 3)) .reservedField
    let sc ← scopeOf (fld w 8 3)
    pure (.amomaxn sc (fd w) (fa w) (fb w))
  | 11 => do
    need (fld w 5 3 == (0 : BitVec 3)) .reservedField
    let sc ← scopeOf (fld w 8 3)
    pure (.amocas sc (fd w) (fa w) (fb w))
  | 12 => do
    need (fld w 5 3 == (0 : BitVec 3)) .reservedField
    let sc ← scopeOf (fld w 8 3)
    zero (fb w)
    pure (.ldf sc (fd w) (fa w))
  | 13 => do
    need (fld w 5 3 == (0 : BitVec 3)) .reservedField
    let sc ← scopeOf (fld w 8 3)
    zero (fb w)
    pure (.ldc sc (fd w) (fa w))
  | 14 => do
    need (fld w 5 3 == (0 : BitVec 3)) .reservedField
    let sc ← scopeOf (fld w 8 3)
    zero (fd w)
    pure (.stf sc (fa w) (fb w))
  | _ => .error .unassignedOperation

/-- Major 0x0E BR (R108). -/
def decodeBr (w : BitVec 32) : Except DecodeError Instr :=
  match (fld w 13 3 : BitVec 3).toNat with
  | 0 => .ok (.beq (fd w) (fa w) (foff13 w))
  | 1 => .ok (.bne (fd w) (fa w) (foff13 w))
  | 2 => .ok (.blt (fd w) (fa w) (foff13 w))
  | 3 => .ok (.bge (fd w) (fa w) (foff13 w))
  | 4 => .ok (.bltn (fd w) (fa w) (foff13 w))
  | 5 => .ok (.bgen (fd w) (fa w) (foff13 w))
  | _ => .error .unassignedOperation

/-- Major 0x0F JL (R108). -/
def decodeJl (w : BitVec 32) : Except DecodeError Instr :=
  .ok (.jl (fld w 0 26))

/-- Major 0x10 JLR (R108). -/
def decodeJlr (w : BitVec 32) : Except DecodeError Instr :=
  .ok (.jlr (fd w) (fa w) (fimm16 w))

/-- Major 0x11 FPS (R108). -/
def decodeFps (w : BitVec 32) : Except DecodeError Instr :=
  match (fld w 0 5 : BitVec 5).toNat with
  | 0 => do
    need (fld w 5 1 == (0 : BitVec 1)) .reservedField
    let f ← fpFmtOf (fld w 9 2)
    let r ← rmOf (fld w 6 3)
    pure (.fadd f r (fd w) (fa w) (fb w))
  | 1 => do
    need (fld w 5 1 == (0 : BitVec 1)) .reservedField
    let f ← fpFmtOf (fld w 9 2)
    let r ← rmOf (fld w 6 3)
    pure (.fsub f r (fd w) (fa w) (fb w))
  | 2 => do
    need (fld w 5 1 == (0 : BitVec 1)) .reservedField
    let f ← fpFmtOf (fld w 9 2)
    let r ← rmOf (fld w 6 3)
    pure (.fmul f r (fd w) (fa w) (fb w))
  | 3 => do
    need (fld w 5 1 == (0 : BitVec 1)) .reservedField
    let f ← fpFmtOf (fld w 9 2)
    let r ← rmOf (fld w 6 3)
    pure (.fdiv f r (fd w) (fa w) (fb w))
  | 4 => do
    need (fld w 5 1 == (0 : BitVec 1)) .reservedField
    let f ← fpFmtOf (fld w 9 2)
    let r ← rmOf (fld w 6 3)
    zero (fb w)
    pure (.fsqrt f r (fd w) (fa w))
  | 5 => do
    need (fld w 5 1 == (0 : BitVec 1)) .reservedField
    let f ← fpFmtOf (fld w 9 2)
    let r ← rmOf (fld w 6 3)
    pure (.fmadd f r (fd w) (fa w) (fb w))
  | 6 => do
    need (fld w 5 1 == (0 : BitVec 1)) .reservedField
    let f ← fpFmtOf (fld w 9 2)
    let r ← rmOf (fld w 6 3)
    pure (.fmin f r (fd w) (fa w) (fb w))
  | 7 => do
    need (fld w 5 1 == (0 : BitVec 1)) .reservedField
    let f ← fpFmtOf (fld w 9 2)
    let r ← rmOf (fld w 6 3)
    pure (.fmax f r (fd w) (fa w) (fb w))
  | 8 => do
    need (fld w 5 1 == (0 : BitVec 1)) .reservedField
    let f ← fpFmtOf (fld w 9 2)
    let r ← rmOf (fld w 6 3)
    zero (fb w)
    pure (.fneg f r (fd w) (fa w))
  | 9 => do
    need (fld w 5 1 == (0 : BitVec 1)) .reservedField
    let f ← fpFmtOf (fld w 9 2)
    let r ← rmOf (fld w 6 3)
    zero (fb w)
    pure (.fabs f r (fd w) (fa w))
  | 10 => do
    need (fld w 5 1 == (0 : BitVec 1)) .reservedField
    let f ← fpFmtOf (fld w 9 2)
    let r ← rmOf (fld w 6 3)
    pure (.fcmpeq f r (fd w) (fa w) (fb w))
  | 11 => do
    need (fld w 5 1 == (0 : BitVec 1)) .reservedField
    let f ← fpFmtOf (fld w 9 2)
    let r ← rmOf (fld w 6 3)
    pure (.fcmplt f r (fd w) (fa w) (fb w))
  | 12 => do
    need (fld w 5 1 == (0 : BitVec 1)) .reservedField
    let f ← fpFmtOf (fld w 9 2)
    let r ← rmOf (fld w 6 3)
    pure (.fcmple f r (fd w) (fa w) (fb w))
  | 13 => do
    need (fld w 5 1 == (0 : BitVec 1)) .reservedField
    let f ← fpFmtOf (fld w 9 2)
    let r ← rmOf (fld w 6 3)
    zero (fb w)
    pure (.fclass f r (fd w) (fa w))
  | 14 => do
    need (fld w 5 1 == (0 : BitVec 1)) .reservedField
    let f ← fpFmtOf (fld w 9 2)
    let r ← rmOf (fld w 6 3)
    need (fld w 13 3 == (0 : BitVec 3)) .reservedField
    pure (.fcvtfi f r (fld w 11 2) (fd w) (fa w))
  | 15 => do
    need (fld w 5 1 == (0 : BitVec 1)) .reservedField
    let f ← fpFmtOf (fld w 9 2)
    let r ← rmOf (fld w 6 3)
    need (fld w 13 3 == (0 : BitVec 3)) .reservedField
    pure (.fcvtif f r (fld w 11 2) (fd w) (fa w))
  | 16 => do
    need (fld w 5 1 == (0 : BitVec 1)) .reservedField
    let f ← fpFmtOf (fld w 9 2)
    let r ← rmOf (fld w 6 3)
    zero (fb w)
    pure (.fcvtff f r (fd w) (fa w))
  | _ => .error .unassignedOperation

/-- Major 0x12 SPR (R108). -/
def decodeSpr (w : BitVec 32) : Except DecodeError Instr :=
  match (fld w 14 2 : BitVec 2).toNat with
  | 0 => do
    need (fld w 12 2 == (0 : BitVec 2)) .reservedField
    zero (fa w)
    pure (.mfs (fd w) (fld w 0 12))
  | 1 => do
    need (fld w 12 2 == (0 : BitVec 2)) .reservedField
    zero (fd w)
    pure (.mts (fld w 0 12) (fa w))
  | 2 => do
    need (fld w 12 2 == (0 : BitVec 2)) .reservedField
    zero (fd w)
    pure (.sset (fld w 0 12) (fa w))
  | 3 => do
    need (fld w 12 2 == (0 : BitVec 2)) .reservedField
    zero (fd w)
    pure (.sclr (fld w 0 12) (fa w))
  | _ => .error .unassignedOperation

/-- Major 0x13 TLOOP (R108). -/
def decodeTloop (w : BitVec 32) : Except DecodeError Instr :=
  do
    need (fld w 13 3 == (0 : BitVec 3)) .reservedField
    need (fld w 23 3 == (0 : BitVec 3)) .badOperandCode
    pure (.tloop (fld w 21 2) (fa w) (foff13 w))

/-- Major 0x18 VCFG (R108). -/
def decodeVcfg (w : BitVec 32) : Except DecodeError Instr :=
  match (fld w 8 3 : BitVec 3).toNat with
  | 0 => do
    zero (fb w)
    need (vtypeOk (fld w 0 8)) .badOperandCode
    pure (.vsetl (fd w) (fa w) (fld w 0 8))
  | 1 => do
    need (fld w 0 8 == (0 : BitVec 8)) .reservedField
    pure (.vsetlx (fd w) (fa w) (fb w))
  | 2 => do
    zero (fd w)
    zero (fb w)
    need (vtypeOk (fld w 0 8)) .badOperandCode
    pure (.vloop (fa w) (fld w 0 8))
  | 3 => do
    need (fld w 0 8 == (0 : BitVec 8)) .reservedField
    need (vlendOk (fd w) (fa w)) .badOperandCode
    pure (.vlend (fd w) (fa w) (fb w))
  | 4 => do
    need (fld w 0 8 == (0 : BitVec 8)) .reservedField
    zero (fd w)
    pure (.vbreak (fa w) (fb w))
  | 5 => do
    need (fld w 0 8 == (0 : BitVec 8)) .reservedField
    zero (fd w)
    zero (fb w)
    pure (.vdecl (fa w))
  | 6 => do
    need (fld w 0 8 == (0 : BitVec 8)) .reservedField
    zero (fd w)
    zero (fa w)
    zero (fb w)
    pure (.vundecl)
  | 7 => do
    need (fld w 0 8 == (0 : BitVec 8)) .reservedField
    zero (fd w)
    zero (fb w)
    pure (.vslip (fa w))
  | _ => .error .unassignedOperation

/-- Major 0x19 VLD (R108). -/
def decodeVld (w : BitVec 32) : Except DecodeError Instr :=
  match (fld w 2 3 : BitVec 3).toNat with
  | 0 => do
    zero (fb w)
    let m ← mskOf (fmsk w)
    pure (.vld (fd w) (fa w) (fbit w 10) (fbit w 9) m (fld w 0 2))
  | 1 => do
    let m ← mskOf (fmsk w)
    pure (.vlds (fd w) (fa w) (fb w) (fbit w 10) (fbit w 9) m (fld w 0 2))
  | 2 => do
    zero (fd w)
    need (fld w 14 2 == (0 : BitVec 2)) .badOperandCode
    let m ← mskOf (fmsk w)
    pure (.vldq (fld w 11 3) (fa w) (fbit w 10) (fbit w 9) m (fld w 0 2))
  | 3 => do
    need (fld w 14 2 == (0 : BitVec 2)) .badOperandCode
    let m ← mskOf (fmsk w)
    pure (.vldqk (fd w) (fa w) (fld w 11 3) (fbit w 10) (fbit w 9) m (fld w 0 2))
  | 4 => do
    zero (fb w)
    let m ← mskOf (fmsk w)
    pure (.vldb (fd w) (fa w) (fbit w 10) (fbit w 9) m (fld w 0 2))
  | 5 => do
    zero (fb w)
    let m ← mskOf (fmsk w)
    pure (.vldf (fd w) (fa w) (fbit w 10) (fbit w 9) m (fld w 0 2))
  | 6 => do
    need (fld w 0 2 == (0 : BitVec 2)) .badOperandCode
    let m ← mskOf (fmsk w)
    pure (.vldp4 (fd w) (fa w) (fb w) (fbit w 10) (fbit w 9) m)
  | _ => .error .unassignedOperation

/-- Major 0x1A VST (R108). -/
def decodeVst (w : BitVec 32) : Except DecodeError Instr :=
  match (fld w 2 3 : BitVec 3).toNat with
  | 0 => do
    zero (fb w)
    let m ← mskOf (fmsk w)
    pure (.vst (fd w) (fa w) (fbit w 10) (fbit w 9) m (fld w 0 2))
  | 1 => do
    let m ← mskOf (fmsk w)
    pure (.vsts (fd w) (fa w) (fb w) (fbit w 10) (fbit w 9) m (fld w 0 2))
  | 2 => do
    zero (fb w)
    let m ← mskOf (fmsk w)
    pure (.vstn (fd w) (fa w) (fbit w 10) (fbit w 9) m (fld w 0 2))
  | 3 => do
    let m ← mskOf (fmsk w)
    pure (.vstsn (fd w) (fa w) (fb w) (fbit w 10) (fbit w 9) m (fld w 0 2))
  | 4 => do
    zero (fb w)
    let m ← mskOf (fmsk w)
    pure (.vstf (fd w) (fa w) (fbit w 10) (fbit w 9) m (fld w 0 2))
  | 5 => do
    zero (fd w)
    need (fld w 14 2 == (0 : BitVec 2)) .badOperandCode
    let m ← mskOf (fmsk w)
    pure (.vstq (fld w 11 3) (fa w) (fbit w 10) (fbit w 9) m (fld w 0 2))
  | _ => .error .unassignedOperation

/-- Major 0x1B VGAT (R108). -/
def decodeVgat (w : BitVec 32) : Except DecodeError Instr :=
  match (fld w 2 3 : BitVec 3).toNat with
  | 0 => do
    let m ← mskOf (fmsk w)
    pure (.vgat (fd w) (fa w) (fb w) (fbit w 10) (fbit w 9) m (fld w 0 2))
  | 1 => do
    let m ← mskOf (fmsk w)
    pure (.vsca (fd w) (fa w) (fb w) (fbit w 10) (fbit w 9) m (fld w 0 2))
  | 2 => do
    need (!fbit w 8) .badOperandCode
    need (fld w 5 3 != (0 : BitVec 3)) .badOperandCode
    pure (.vgatw (fd w) (fa w) (fb w) (fbit w 10) (fbit w 9) (fld w 5 3) (fld w 0 2))
  | 3 => do
    let m ← mskOf (fmsk w)
    pure (.vgl (fd w) (fa w) (fb w) (fbit w 10) (fbit w 9) m (fld w 0 2))
  | 4 => do
    need (!fbit w 8) .badOperandCode
    need (fld w 5 3 != (0 : BitVec 3)) .badOperandCode
    pure (.vscc (fd w) (fa w) (fb w) (fbit w 10) (fbit w 9) (fld w 5 3) (fld w 0 2))
  | _ => .error .unassignedOperation

/-- Major 0x1C VAMO (R108). -/
def decodeVamo (w : BitVec 32) : Except DecodeError Instr :=
  match (fld w 0 5 : BitVec 5).toNat with
  | 0 => do
    let m ← mskOf (fmsk w)
    pure (.vamoadd (fd w) (fa w) (fb w) (fbit w 10) (fbit w 9) m)
  | 1 => do
    let m ← mskOf (fmsk w)
    pure (.vamoand (fd w) (fa w) (fb w) (fbit w 10) (fbit w 9) m)
  | 2 => do
    let m ← mskOf (fmsk w)
    pure (.vamoor (fd w) (fa w) (fb w) (fbit w 10) (fbit w 9) m)
  | 3 => do
    let m ← mskOf (fmsk w)
    pure (.vamoxor (fd w) (fa w) (fb w) (fbit w 10) (fbit w 9) m)
  | 4 => do
    let m ← mskOf (fmsk w)
    pure (.vamomin (fd w) (fa w) (fb w) (fbit w 10) (fbit w 9) m)
  | 5 => do
    let m ← mskOf (fmsk w)
    pure (.vamomax (fd w) (fa w) (fb w) (fbit w 10) (fbit w 9) m)
  | 6 => do
    let m ← mskOf (fmsk w)
    pure (.vamominn (fd w) (fa w) (fb w) (fbit w 10) (fbit w 9) m)
  | 7 => do
    let m ← mskOf (fmsk w)
    pure (.vamomaxn (fd w) (fa w) (fb w) (fbit w 10) (fbit w 9) m)
  | 8 => do
    let m ← mskOf (fmsk w)
    pure (.vamoswap (fd w) (fa w) (fb w) (fbit w 10) (fbit w 9) m)
  | 9 => do
    let m ← mskOf (fmsk w)
    pure (.vamofadd (fd w) (fa w) (fb w) (fbit w 10) (fbit w 9) m)
  | 10 => do
    let m ← mskOf (fmsk w)
    pure (.vwait (fd w) (fa w) (fb w) (fbit w 10) (fbit w 9) m)
  | _ => .error .unassignedOperation

/-- Major 0x1D VINT (R108). -/
def decodeVint (w : BitVec 32) : Except DecodeError Instr :=
  match (fld w 0 5 : BitVec 5).toNat with
  | 0 => do
    let va ← vsrcOf (fbit w 9) (fa w)
    let m ← mskOf (fmsk w)
    pure (.vadd (fd w) va (vbOf (fbit w 10) (fb w)) m)
  | 1 => do
    let va ← vsrcOf (fbit w 9) (fa w)
    let m ← mskOf (fmsk w)
    pure (.vsub (fd w) va (vbOf (fbit w 10) (fb w)) m)
  | 2 => do
    let va ← vsrcOf (fbit w 9) (fa w)
    let m ← mskOf (fmsk w)
    pure (.vrsub (fd w) va (vbOf (fbit w 10) (fb w)) m)
  | 3 => do
    let va ← vsrcOf (fbit w 9) (fa w)
    let m ← mskOf (fmsk w)
    pure (.vmul (fd w) va (vbOf (fbit w 10) (fb w)) m)
  | 4 => do
    let va ← vsrcOf (fbit w 9) (fa w)
    let m ← mskOf (fmsk w)
    pure (.vmulh (fd w) va (vbOf (fbit w 10) (fb w)) m)
  | 5 => do
    let va ← vsrcOf (fbit w 9) (fa w)
    let m ← mskOf (fmsk w)
    pure (.vmulhn (fd w) va (vbOf (fbit w 10) (fb w)) m)
  | 6 => do
    let va ← vsrcOf (fbit w 9) (fa w)
    let m ← mskOf (fmsk w)
    pure (.vdiv (fd w) va (vbOf (fbit w 10) (fb w)) m)
  | 7 => do
    let va ← vsrcOf (fbit w 9) (fa w)
    let m ← mskOf (fmsk w)
    pure (.vdivn (fd w) va (vbOf (fbit w 10) (fb w)) m)
  | 8 => do
    let va ← vsrcOf (fbit w 9) (fa w)
    let m ← mskOf (fmsk w)
    pure (.vrem (fd w) va (vbOf (fbit w 10) (fb w)) m)
  | 9 => do
    let va ← vsrcOf (fbit w 9) (fa w)
    let m ← mskOf (fmsk w)
    pure (.vremn (fd w) va (vbOf (fbit w 10) (fb w)) m)
  | 10 => do
    let va ← vsrcOf (fbit w 9) (fa w)
    let m ← mskOf (fmsk w)
    pure (.vmin (fd w) va (vbOf (fbit w 10) (fb w)) m)
  | 11 => do
    let va ← vsrcOf (fbit w 9) (fa w)
    let m ← mskOf (fmsk w)
    pure (.vmax (fd w) va (vbOf (fbit w 10) (fb w)) m)
  | 12 => do
    let va ← vsrcOf (fbit w 9) (fa w)
    let m ← mskOf (fmsk w)
    pure (.vminn (fd w) va (vbOf (fbit w 10) (fb w)) m)
  | 13 => do
    let va ← vsrcOf (fbit w 9) (fa w)
    let m ← mskOf (fmsk w)
    pure (.vmaxn (fd w) va (vbOf (fbit w 10) (fb w)) m)
  | 14 => do
    let va ← vsrcOf (fbit w 9) (fa w)
    let m ← mskOf (fmsk w)
    pure (.vand (fd w) va (vbOf (fbit w 10) (fb w)) m)
  | 15 => do
    let va ← vsrcOf (fbit w 9) (fa w)
    let m ← mskOf (fmsk w)
    pure (.vor (fd w) va (vbOf (fbit w 10) (fb w)) m)
  | 16 => do
    let va ← vsrcOf (fbit w 9) (fa w)
    let m ← mskOf (fmsk w)
    pure (.vxor (fd w) va (vbOf (fbit w 10) (fb w)) m)
  | 17 => do
    let va ← vsrcOf (fbit w 9) (fa w)
    let m ← mskOf (fmsk w)
    pure (.vsll (fd w) va (vbOf (fbit w 10) (fb w)) m)
  | 18 => do
    let va ← vsrcOf (fbit w 9) (fa w)
    let m ← mskOf (fmsk w)
    pure (.vsrl (fd w) va (vbOf (fbit w 10) (fb w)) m)
  | 19 => do
    let va ← vsrcOf (fbit w 9) (fa w)
    let m ← mskOf (fmsk w)
    pure (.vsra (fd w) va (vbOf (fbit w 10) (fb w)) m)
  | 20 => do
    let va ← vsrcOf (fbit w 9) (fa w)
    let m ← mskOf (fmsk w)
    pure (.vadds (fd w) va (vbOf (fbit w 10) (fb w)) m)
  | 21 => do
    let va ← vsrcOf (fbit w 9) (fa w)
    let m ← mskOf (fmsk w)
    pure (.vsubs (fd w) va (vbOf (fbit w 10) (fb w)) m)
  | 22 => do
    let va ← vsrcOf (fbit w 9) (fa w)
    let m ← mskOf (fmsk w)
    pure (.vaddsn (fd w) va (vbOf (fbit w 10) (fb w)) m)
  | 23 => do
    let va ← vsrcOf (fbit w 9) (fa w)
    let m ← mskOf (fmsk w)
    pure (.vsubsn (fd w) va (vbOf (fbit w 10) (fb w)) m)
  | 24 => do
    let va ← vsrcOf (fbit w 9) (fa w)
    let m ← mskOf (fmsk w)
    pure (.vmacc (fd w) va (vbOf (fbit w 10) (fb w)) m)
  | 25 => do
    let va ← vsrcOf (fbit w 9) (fa w)
    let m ← mskOf (fmsk w)
    pure (.vnmsac (fd w) va (vbOf (fbit w 10) (fb w)) m)
  | 26 => do
    let va ← vsrcOf (fbit w 9) (fa w)
    let m ← mskOf (fmsk w)
    pure (.vwmul (fd w) va (vbOf (fbit w 10) (fb w)) m)
  | 27 => do
    let va ← vsrcOf (fbit w 9) (fa w)
    let m ← mskOf (fmsk w)
    pure (.vnsrl (fd w) va (vbOf (fbit w 10) (fb w)) m)
  | _ => .error .unassignedOperation

/-- Major 0x1E VFP (R108). -/
def decodeVfp (w : BitVec 32) : Except DecodeError Instr :=
  match (fld w 0 5 : BitVec 5).toNat with
  | 0 => do
    let va ← vsrcOf (fbit w 9) (fa w)
    let m ← mskOf (fmsk w)
    pure (.vfadd (fd w) va (vbOf (fbit w 10) (fb w)) m)
  | 1 => do
    let va ← vsrcOf (fbit w 9) (fa w)
    let m ← mskOf (fmsk w)
    pure (.vfsub (fd w) va (vbOf (fbit w 10) (fb w)) m)
  | 2 => do
    let va ← vsrcOf (fbit w 9) (fa w)
    let m ← mskOf (fmsk w)
    pure (.vfmul (fd w) va (vbOf (fbit w 10) (fb w)) m)
  | 3 => do
    let va ← vsrcOf (fbit w 9) (fa w)
    let m ← mskOf (fmsk w)
    pure (.vfdiv (fd w) va (vbOf (fbit w 10) (fb w)) m)
  | 4 => do
    zero (fb w)
    need (!fbit w 10) .unusedField
    let va ← vsrcOf (fbit w 9) (fa w)
    let m ← mskOf (fmsk w)
    pure (.vfsqrt (fd w) va m)
  | 5 => do
    zero (fb w)
    need (!fbit w 10) .unusedField
    let va ← vsrcOf (fbit w 9) (fa w)
    let m ← mskOf (fmsk w)
    pure (.vfrsqe (fd w) va m)
  | 6 => do
    zero (fb w)
    need (!fbit w 10) .unusedField
    let va ← vsrcOf (fbit w 9) (fa w)
    let m ← mskOf (fmsk w)
    pure (.vfexp2 (fd w) va m)
  | 7 => do
    let va ← vsrcOf (fbit w 9) (fa w)
    let m ← mskOf (fmsk w)
    pure (.vfmadd (fd w) va (vbOf (fbit w 10) (fb w)) m)
  | 8 => do
    let va ← vsrcOf (fbit w 9) (fa w)
    let m ← mskOf (fmsk w)
    pure (.vfnmadd (fd w) va (vbOf (fbit w 10) (fb w)) m)
  | 9 => do
    let va ← vsrcOf (fbit w 9) (fa w)
    let m ← mskOf (fmsk w)
    pure (.vfmsub (fd w) va (vbOf (fbit w 10) (fb w)) m)
  | 10 => do
    let va ← vsrcOf (fbit w 9) (fa w)
    let m ← mskOf (fmsk w)
    pure (.vfmin (fd w) va (vbOf (fbit w 10) (fb w)) m)
  | 11 => do
    let va ← vsrcOf (fbit w 9) (fa w)
    let m ← mskOf (fmsk w)
    pure (.vfmax (fd w) va (vbOf (fbit w 10) (fb w)) m)
  | 12 => do
    zero (fb w)
    need (!fbit w 10) .unusedField
    let va ← vsrcOf (fbit w 9) (fa w)
    let m ← mskOf (fmsk w)
    pure (.vfabs (fd w) va m)
  | 13 => do
    zero (fb w)
    need (!fbit w 10) .unusedField
    let va ← vsrcOf (fbit w 9) (fa w)
    let m ← mskOf (fmsk w)
    pure (.vfneg (fd w) va m)
  | 14 => do
    let va ← vsrcOf (fbit w 9) (fa w)
    let m ← mskOf (fmsk w)
    pure (.vfsgnj (fd w) va (vbOf (fbit w 10) (fb w)) m)
  | 15 => do
    zero (fb w)
    need (!fbit w 10) .unusedField
    let va ← vsrcOf (fbit w 9) (fa w)
    let m ← mskOf (fmsk w)
    pure (.vfclass (fd w) va m)
  | _ => .error .unassignedOperation

/-- Major 0x1F VCVT (R108). -/
def decodeVcvt (w : BitVec 32) : Except DecodeError Instr :=
  match (fld w 0 5 : BitVec 5).toNat with
  | 0 => do
    need (fld w 14 2 == (0 : BitVec 2)) .reservedField
    need (cvOk false (fld w 11 3)) .badOperandCode
    need (!fbit w 10) .unusedField
    let va ← vsrcOf (fbit w 9) (fa w)
    let m ← mskOf (fmsk w)
    pure (.vcvtf64 (fd w) va (fld w 11 3) m)
  | 1 => do
    need (fld w 14 2 == (0 : BitVec 2)) .reservedField
    need (cvOk false (fld w 11 3)) .badOperandCode
    need (!fbit w 10) .unusedField
    let va ← vsrcOf (fbit w 9) (fa w)
    let m ← mskOf (fmsk w)
    pure (.vcvtf32 (fd w) va (fld w 11 3) m)
  | 2 => do
    need (fld w 14 2 == (0 : BitVec 2)) .reservedField
    need (cvOk false (fld w 11 3)) .badOperandCode
    need (!fbit w 10) .unusedField
    let va ← vsrcOf (fbit w 9) (fa w)
    let m ← mskOf (fmsk w)
    pure (.vcvtf16 (fd w) va (fld w 11 3) m)
  | 3 => do
    need (fld w 14 2 == (0 : BitVec 2)) .reservedField
    need (cvOk false (fld w 11 3)) .badOperandCode
    need (!fbit w 10) .unusedField
    let va ← vsrcOf (fbit w 9) (fa w)
    let m ← mskOf (fmsk w)
    pure (.vcvtbf16 (fd w) va (fld w 11 3) m)
  | 4 => do
    need (fld w 14 2 == (0 : BitVec 2)) .reservedField
    need (cvOk false (fld w 11 3)) .badOperandCode
    need (!fbit w 10) .unusedField
    let va ← vsrcOf (fbit w 9) (fa w)
    let m ← mskOf (fmsk w)
    pure (.vcvte4m3 (fd w) va (fld w 11 3) m)
  | 5 => do
    need (fld w 14 2 == (0 : BitVec 2)) .reservedField
    need (cvOk false (fld w 11 3)) .badOperandCode
    need (!fbit w 10) .unusedField
    let va ← vsrcOf (fbit w 9) (fa w)
    let m ← mskOf (fmsk w)
    pure (.vcvte5m2 (fd w) va (fld w 11 3) m)
  | 6 => do
    need (fld w 14 2 == (0 : BitVec 2)) .reservedField
    need (cvOk false (fld w 11 3)) .badOperandCode
    need (!fbit w 10) .unusedField
    let va ← vsrcOf (fbit w 9) (fa w)
    let m ← mskOf (fmsk w)
    pure (.vcvte4m3s (fd w) va (fld w 11 3) m)
  | 7 => do
    need (fld w 14 2 == (0 : BitVec 2)) .reservedField
    need (cvOk false (fld w 11 3)) .badOperandCode
    need (!fbit w 10) .unusedField
    let va ← vsrcOf (fbit w 9) (fa w)
    let m ← mskOf (fmsk w)
    pure (.vcvte5m2s (fd w) va (fld w 11 3) m)
  | 8 => do
    need (fld w 14 2 == (0 : BitVec 2)) .reservedField
    need (cvOk true (fld w 11 3)) .badOperandCode
    need (!fbit w 10) .unusedField
    let va ← vsrcOf (fbit w 9) (fa w)
    let m ← mskOf (fmsk w)
    pure (.vcvti8 (fd w) va (fld w 11 3) m)
  | 9 => do
    need (fld w 14 2 == (0 : BitVec 2)) .reservedField
    need (cvOk true (fld w 11 3)) .badOperandCode
    need (!fbit w 10) .unusedField
    let va ← vsrcOf (fbit w 9) (fa w)
    let m ← mskOf (fmsk w)
    pure (.vcvti16 (fd w) va (fld w 11 3) m)
  | 10 => do
    need (fld w 14 2 == (0 : BitVec 2)) .reservedField
    need (cvOk true (fld w 11 3)) .badOperandCode
    need (!fbit w 10) .unusedField
    let va ← vsrcOf (fbit w 9) (fa w)
    let m ← mskOf (fmsk w)
    pure (.vcvti32 (fd w) va (fld w 11 3) m)
  | 11 => do
    need (fld w 14 2 == (0 : BitVec 2)) .reservedField
    need (cvOk true (fld w 11 3)) .badOperandCode
    need (!fbit w 10) .unusedField
    let va ← vsrcOf (fbit w 9) (fa w)
    let m ← mskOf (fmsk w)
    pure (.vcvti64 (fd w) va (fld w 11 3) m)
  | 12 => do
    zero (fb w)
    need (!fbit w 10) .unusedField
    need (!fbit w 9) .unusedField
    let m ← mskOf (fmsk w)
    pure (.vcvtfi (fd w) (fa w) m)
  | 13 => do
    let va ← vsrcOf (fbit w 9) (fa w)
    let m ← mskOf (fmsk w)
    pure (.vqnt (fd w) va (fb w) (fbit w 10) m)
  | 14 => do
    let va ← vsrcOf (fbit w 9) (fa w)
    let m ← mskOf (fmsk w)
    pure (.vdeq (fd w) va (fb w) (fbit w 10) m)
  | 15 => do
    let va ← vsrcOf (fbit w 9) (fa w)
    let m ← mskOf (fmsk w)
    pure (.vmxq (fd w) va (fb w) (fbit w 10) m)
  | 16 => do
    let va ← vsrcOf (fbit w 9) (fa w)
    let m ← mskOf (fmsk w)
    pure (.vmxd (fd w) va (fb w) (fbit w 10) m)
  | _ => .error .unassignedOperation

/-- Major 0x20 VPERM (R108). -/
def decodeVperm (w : BitVec 32) : Except DecodeError Instr :=
  match (fld w 0 5 : BitVec 5).toNat with
  | 0 => do
    need (fbit w 10) .badOperandCode
    let va ← vsrcOf (fbit w 9) (fa w)
    let m ← mskOf (fmsk w)
    pure (.vslup (fd w) va (fb w) m)
  | 1 => do
    need (fbit w 10) .badOperandCode
    let va ← vsrcOf (fbit w 9) (fa w)
    let m ← mskOf (fmsk w)
    pure (.vsldn (fd w) va (fb w) m)
  | 2 => do
    need (fbit w 10) .badOperandCode
    let va ← vsrcOf (fbit w 9) (fa w)
    let m ← mskOf (fmsk w)
    pure (.vrot (fd w) va (fb w) m)
  | 3 => do
    need (!fbit w 10) .unusedField
    let va ← vsrcOf (fbit w 9) (fa w)
    let m ← mskOf (fmsk w)
    pure (.vperm (fd w) va (fb w) m)
  | 4 => do
    need (fbit w 10) .badOperandCode
    let va ← vsrcOf (fbit w 9) (fa w)
    let m ← mskOf (fmsk w)
    pure (.vbcast (fd w) va (fb w) m)
  | 5 => do
    zero (fb w)
    need (!fbit w 10) .unusedField
    need (fmsk w == 0) .unusedField
    let va ← vsrcOf (fbit w 9) (fa w)
    pure (.vmvxs (fd w) va)
  | 6 => do
    zero (fa w)
    need (fbit w 10) .badOperandCode
    need (!fbit w 9) .unusedField
    let m ← mskOf (fmsk w)
    pure (.vmvsx (fd w) (fb w) m)
  | 7 => do
    need (!fbit w 10) .unusedField
    let va ← vsrcOf (fbit w 9) (fa w)
    let m ← mskOf (fmsk w)
    pure (.vzip (fd w) va (fb w) m)
  | 8 => do
    need (fbit w 10) .badOperandCode
    let va ← vsrcOf (fbit w 9) (fa w)
    let m ← mskOf (fmsk w)
    pure (.vunzip (fd w) va (fb w) m)
  | 9 => do
    zero (fb w)
    need (!fbit w 10) .unusedField
    let va ← vsrcOf (fbit w 9) (fa w)
    let m ← mskOf (fmsk w)
    pure (.vrev (fd w) va m)
  | 10 => do
    let va ← vsrcOf (fbit w 9) (fa w)
    let m ← mskOf (fmsk w)
    pure (.vmerge (fd w) va (vbOf (fbit w 10) (fb w)) m)
  | 11 => do
    zero (fb w)
    need (!fbit w 10) .unusedField
    let va ← vsrcOf (fbit w 9) (fa w)
    let m ← mskOf (fmsk w)
    pure (.vmv (fd w) va m)
  | _ => .error .unassignedOperation

/-- Major 0x21 VIRR (R108). -/
def decodeVirr (w : BitVec 32) : Except DecodeError Instr :=
  match (fld w 0 5 : BitVec 5).toNat with
  | 0 => do
    zero (fb w)
    need (!fbit w 10) .unusedField
    let va ← vsrcOf (fbit w 9) (fa w)
    let m ← mskOf (fmsk w)
    pure (.vcompress (fd w) va m)
  | 1 => do
    zero (fb w)
    need (!fbit w 10) .unusedField
    let va ← vsrcOf (fbit w 9) (fa w)
    let m ← mskOf (fmsk w)
    pure (.vexpand (fd w) va m)
  | 2 => do
    zero (fa w)
    zero (fb w)
    need (!fbit w 10) .unusedField
    need (!fbit w 9) .unusedField
    let m ← mskOf (fmsk w)
    pure (.vpopx (fd w) m)
  | 3 => do
    need (fld w 24 2 == (0 : BitVec 2)) .badOperandCode
    zero (fb w)
    need (!fbit w 10) .unusedField
    let va ← vsrcOf (fbit w 9) (fa w)
    let m ← mskOf (fmsk w)
    pure (.vconf (fld w 21 3) va m)
  | 4 => do
    need (!fbit w 10) .unusedField
    let h ← headOf (fb w)
    let va ← vsrcOf (fbit w 9) (fa w)
    let m ← mskOf (fmsk w)
    pure (.vsscan (fd w) va h m)
  | 5 => do
    need (!fbit w 10) .unusedField
    let h ← headOf (fb w)
    let va ← vsrcOf (fbit w 9) (fa w)
    let m ← mskOf (fmsk w)
    pure (.vsscanmax (fd w) va h m)
  | 6 => do
    need (!fbit w 10) .unusedField
    let h ← headOf (fb w)
    let va ← vsrcOf (fbit w 9) (fa w)
    let m ← mskOf (fmsk w)
    pure (.vfsscan (fd w) va h m)
  | 7 => do
    need (fld w 19 2 == (0 : BitVec 2)) .badOperandCode
    zero (fb w)
    need (!fbit w 10) .unusedField
    need (!fbit w 9) .unusedField
    let m ← mskOf (fmsk w)
    pure (.vfirst (fd w) (fld w 16 3) m)
  | 8 => do
    need (fld w 19 2 == (0 : BitVec 2)) .badOperandCode
    zero (fb w)
    need (!fbit w 10) .unusedField
    need (!fbit w 9) .unusedField
    let m ← mskOf (fmsk w)
    pure (.vcpop (fd w) (fld w 16 3) m)
  | 9 => do
    need (fld w 19 2 == (0 : BitVec 2)) .badOperandCode
    zero (fb w)
    need (!fbit w 10) .unusedField
    need (!fbit w 9) .unusedField
    let m ← mskOf (fmsk w)
    pure (.viota (fd w) (fld w 16 3) m)
  | 10 => do
    need (fbit w 10) .badOperandCode
    need (fmsk w == 0) .unusedField
    let va ← vsrcOf (fbit w 9) (fa w)
    pure (.vblklist (fd w) va (fb w))
  | _ => .error .unassignedOperation

/-- Major 0x22 VRED (R108). -/
def decodeVred (w : BitVec 32) : Except DecodeError Instr :=
  match (fld w 0 5 : BitVec 5).toNat with
  | 0 => do
    let va ← vsrcOf (fbit w 9) (fa w)
    let m ← mskOf (fmsk w)
    pure (.vredsum (fd w) va (vbOf (fbit w 10) (fb w)) m)
  | 1 => do
    let va ← vsrcOf (fbit w 9) (fa w)
    let m ← mskOf (fmsk w)
    pure (.vredmax (fd w) va (vbOf (fbit w 10) (fb w)) m)
  | 2 => do
    let va ← vsrcOf (fbit w 9) (fa w)
    let m ← mskOf (fmsk w)
    pure (.vredmin (fd w) va (vbOf (fbit w 10) (fb w)) m)
  | 3 => do
    let va ← vsrcOf (fbit w 9) (fa w)
    let m ← mskOf (fmsk w)
    pure (.vredmaxn (fd w) va (vbOf (fbit w 10) (fb w)) m)
  | 4 => do
    let va ← vsrcOf (fbit w 9) (fa w)
    let m ← mskOf (fmsk w)
    pure (.vredminn (fd w) va (vbOf (fbit w 10) (fb w)) m)
  | 5 => do
    let va ← vsrcOf (fbit w 9) (fa w)
    let m ← mskOf (fmsk w)
    pure (.vredand (fd w) va (vbOf (fbit w 10) (fb w)) m)
  | 6 => do
    let va ← vsrcOf (fbit w 9) (fa w)
    let m ← mskOf (fmsk w)
    pure (.vredor (fd w) va (vbOf (fbit w 10) (fb w)) m)
  | 7 => do
    let va ← vsrcOf (fbit w 9) (fa w)
    let m ← mskOf (fmsk w)
    pure (.vredxor (fd w) va (vbOf (fbit w 10) (fb w)) m)
  | 8 => do
    let va ← vsrcOf (fbit w 9) (fa w)
    let m ← mskOf (fmsk w)
    pure (.vfredo (fd w) va (vbOf (fbit w 10) (fb w)) m)
  | 9 => do
    let va ← vsrcOf (fbit w 9) (fa w)
    let m ← mskOf (fmsk w)
    pure (.vfredt (fd w) va (vbOf (fbit w 10) (fb w)) m)
  | 10 => do
    let va ← vsrcOf (fbit w 9) (fa w)
    let m ← mskOf (fmsk w)
    pure (.vfredmax (fd w) va (vbOf (fbit w 10) (fb w)) m)
  | 11 => do
    let va ← vsrcOf (fbit w 9) (fa w)
    let m ← mskOf (fmsk w)
    pure (.vfredmin (fd w) va (vbOf (fbit w 10) (fb w)) m)
  | 12 => do
    need (fbit w 10) .badOperandCode
    need (fb w != 0) .badOperandCode
    let va ← vsrcOf (fbit w 9) (fa w)
    let m ← mskOf (fmsk w)
    pure (.vtopk (fd w) va (fb w) m)
  | 13 => do
    need (!fbit w 10) .unusedField
    need (!fbit w 9) .unusedField
    need (fmsk w == 0) .unusedField
    pure (.vtopkm (fd w) (fa w) (fb w))
  | _ => .error .unassignedOperation

/-- Major 0x23 VMSK (R108). -/
def decodeVmsk (w : BitVec 32) : Except DecodeError Instr :=
  match (fld w 0 5 : BitVec 5).toNat with
  | 0 => do
    need (fld w 24 2 == (0 : BitVec 2)) .badOperandCode
    let va ← vsrcOf (fbit w 9) (fa w)
    let m ← mskOf (fmsk w)
    pure (.vmseq (fld w 21 3) va (vbOf (fbit w 10) (fb w)) m)
  | 1 => do
    need (fld w 24 2 == (0 : BitVec 2)) .badOperandCode
    let va ← vsrcOf (fbit w 9) (fa w)
    let m ← mskOf (fmsk w)
    pure (.vmsne (fld w 21 3) va (vbOf (fbit w 10) (fb w)) m)
  | 2 => do
    need (fld w 24 2 == (0 : BitVec 2)) .badOperandCode
    let va ← vsrcOf (fbit w 9) (fa w)
    let m ← mskOf (fmsk w)
    pure (.vmslt (fld w 21 3) va (vbOf (fbit w 10) (fb w)) m)
  | 3 => do
    need (fld w 24 2 == (0 : BitVec 2)) .badOperandCode
    let va ← vsrcOf (fbit w 9) (fa w)
    let m ← mskOf (fmsk w)
    pure (.vmsltn (fld w 21 3) va (vbOf (fbit w 10) (fb w)) m)
  | 4 => do
    need (fld w 24 2 == (0 : BitVec 2)) .badOperandCode
    let va ← vsrcOf (fbit w 9) (fa w)
    let m ← mskOf (fmsk w)
    pure (.vmsle (fld w 21 3) va (vbOf (fbit w 10) (fb w)) m)
  | 5 => do
    need (fld w 24 2 == (0 : BitVec 2)) .badOperandCode
    let va ← vsrcOf (fbit w 9) (fa w)
    let m ← mskOf (fmsk w)
    pure (.vmslen (fld w 21 3) va (vbOf (fbit w 10) (fb w)) m)
  | 6 => do
    need (fld w 24 2 == (0 : BitVec 2)) .badOperandCode
    let va ← vsrcOf (fbit w 9) (fa w)
    let m ← mskOf (fmsk w)
    pure (.vmfeq (fld w 21 3) va (vbOf (fbit w 10) (fb w)) m)
  | 7 => do
    need (fld w 24 2 == (0 : BitVec 2)) .badOperandCode
    let va ← vsrcOf (fbit w 9) (fa w)
    let m ← mskOf (fmsk w)
    pure (.vmflt (fld w 21 3) va (vbOf (fbit w 10) (fb w)) m)
  | 8 => do
    need (fld w 24 2 == (0 : BitVec 2)) .badOperandCode
    let va ← vsrcOf (fbit w 9) (fa w)
    let m ← mskOf (fmsk w)
    pure (.vmfle (fld w 21 3) va (vbOf (fbit w 10) (fb w)) m)
  | 9 => do
    need (fld w 24 2 == (0 : BitVec 2)) .badOperandCode
    zero (fb w)
    need (!fbit w 10) .unusedField
    need (!fbit w 9) .unusedField
    let m ← mskOf (fmsk w)
    pure (.vmfnan (fld w 21 3) (fa w) m)
  | 10 => do
    need (fld w 24 2 == (0 : BitVec 2)) .badOperandCode
    need (fld w 19 2 == (0 : BitVec 2)) .badOperandCode
    need (fld w 14 2 == (0 : BitVec 2)) .badOperandCode
    need (!fbit w 10) .unusedField
    need (!fbit w 9) .unusedField
    need (fmsk w == 0) .unusedField
    pure (.vmand (fld w 21 3) (fld w 16 3) (fld w 11 3))
  | 11 => do
    need (fld w 24 2 == (0 : BitVec 2)) .badOperandCode
    need (fld w 19 2 == (0 : BitVec 2)) .badOperandCode
    need (fld w 14 2 == (0 : BitVec 2)) .badOperandCode
    need (!fbit w 10) .unusedField
    need (!fbit w 9) .unusedField
    need (fmsk w == 0) .unusedField
    pure (.vmor (fld w 21 3) (fld w 16 3) (fld w 11 3))
  | 12 => do
    need (fld w 24 2 == (0 : BitVec 2)) .badOperandCode
    need (fld w 19 2 == (0 : BitVec 2)) .badOperandCode
    need (fld w 14 2 == (0 : BitVec 2)) .badOperandCode
    need (!fbit w 10) .unusedField
    need (!fbit w 9) .unusedField
    need (fmsk w == 0) .unusedField
    pure (.vmxor (fld w 21 3) (fld w 16 3) (fld w 11 3))
  | 13 => do
    need (fld w 24 2 == (0 : BitVec 2)) .badOperandCode
    need (fld w 19 2 == (0 : BitVec 2)) .badOperandCode
    need (fld w 14 2 == (0 : BitVec 2)) .badOperandCode
    need (!fbit w 10) .unusedField
    need (!fbit w 9) .unusedField
    need (fmsk w == 0) .unusedField
    pure (.vmandn (fld w 21 3) (fld w 16 3) (fld w 11 3))
  | 14 => do
    need (fld w 24 2 == (0 : BitVec 2)) .badOperandCode
    need (fld w 19 2 == (0 : BitVec 2)) .badOperandCode
    zero (fb w)
    need (!fbit w 10) .unusedField
    need (!fbit w 9) .unusedField
    need (fmsk w == 0) .unusedField
    pure (.vmnot (fld w 21 3) (fld w 16 3))
  | 15 => do
    need (fld w 24 2 == (0 : BitVec 2)) .badOperandCode
    need (fld w 19 2 == (0 : BitVec 2)) .badOperandCode
    zero (fb w)
    need (!fbit w 10) .unusedField
    need (!fbit w 9) .unusedField
    need (fmsk w == 0) .unusedField
    pure (.vmmv (fld w 21 3) (fld w 16 3))
  | 16 => do
    need (fld w 24 2 == (0 : BitVec 2)) .badOperandCode
    zero (fa w)
    zero (fb w)
    need (!fbit w 10) .unusedField
    need (!fbit w 9) .unusedField
    need (fmsk w == 0) .unusedField
    pure (.vmmvc (fld w 21 3))
  | 17 => do
    need (fld w 24 2 == (0 : BitVec 2)) .badOperandCode
    need (!fbit w 10) .unusedField
    need (!fbit w 9) .unusedField
    need (fmsk w == 0) .unusedField
    pure (.vmfromx (fld w 21 3) (fa w) (fb w))
  | 18 => do
    need (fld w 19 2 == (0 : BitVec 2)) .badOperandCode
    need (!fbit w 10) .unusedField
    need (!fbit w 9) .unusedField
    need (fmsk w == 0) .unusedField
    pure (.vmtox (fd w) (fld w 16 3) (fb w))
  | _ => .error .unassignedOperation

/-- Major 0x28 TILE (R108). -/
def decodeTile (w : BitVec 32) : Except DecodeError Instr :=
  match (fld w 0 9 : BitVec 9).toNat with
  | 0 => do
    zero (fa w)
    need (fld w 12 4 == (0 : BitVec 4)) .badOperandCode
    pure (.tclaim (fd w) (fld w 9 2) (fbit w 11))
  | 1 => do
    zero (fd w)
    zero (fa w)
    zero (fb w)
    pure (.tfree (fld w 9 2))
  | 2 => do
    zero (fd w)
    zero (fa w)
    need (fld w 12 4 == (0 : BitVec 4)) .badOperandCode
    pure (.tzero (fld w 9 2) (fbit w 11))
  | 3 => do
    zero (fb w)
    pure (.trdrow (fd w) (fld w 9 2) (fa w))
  | 4 => do
    zero (fb w)
    pure (.trdcol (fd w) (fld w 9 2) (fa w))
  | 5 => do
    zero (fd w)
    pure (.twrrow (fld w 9 2) (fa w) (fb w))
  | 6 => do
    zero (fd w)
    pure (.twrcol (fld w 9 2) (fa w) (fb w))
  | 7 => do
    zero (fa w)
    zero (fb w)
    pure (.tstat (fd w) (fld w 9 2))
  | _ => .error .unassignedOperation

/-- Major 0x29 TMOP (R108). -/
def decodeTmop (w : BitVec 32) : Except DecodeError Instr :=
  match (fld w 3 1 : BitVec 1).toNat with
  | 0 => do
    need (fld w 0 3 == (0 : BitVec 3)) .reservedField
    let f ← tmFmtOf (fld w 20 4)
    let src ← tmSrcOf (fbit w 6) (fld w 15 5) (fld w 10 5)
    pure (.tmop (fld w 24 2) f src (fld w 7 3) (fbit w 5) (fbit w 4))
  | 1 => do
    need (fld w 0 3 == (0 : BitVec 3)) .reservedField
    let f ← tmFmtOf (fld w 20 4)
    need (fbit w 6) .badOperandCode
    let va ← queueOf (fld w 15 5)
    let vb ← queueOf (fld w 10 5)
    pure (.tmopMs (fld w 24 2) f va vb (fld w 7 3) (fbit w 5) (fbit w 4))
  | _ => .error .unassignedOperation

/-- Major 0x2A TQ (R108). -/
def decodeTq (w : BitVec 32) : Except DecodeError Instr :=
  match (fld w 0 11 : BitVec 11).toNat with
  | 0 => do
    need (fld w 24 2 == (0 : BitVec 2)) .badOperandCode
    pure (.qcfg (fld w 21 3) (fa w) (fb w))
  | 1 => do
    zero (fb w)
    let q ← queueOf (fd w)
    pure (.qpush q (fa w))
  | 2 => do
    zero (fb w)
    let q ← queueOf (fa w)
    pure (.qpop (fd w) q)
  | 3 => do
    let q ← queueOf (fa w)
    pure (.qwait (fd w) q (fb w))
  | 4 => do
    need (fld w 19 2 == (0 : BitVec 2)) .badOperandCode
    pure (.qzf (fd w) (fld w 16 3) (fb w))
  | _ => .error .unassignedOperation

/-- Major 0x2B CC (R108). -/
def decodeCc (w : BitVec 32) : Except DecodeError Instr :=
  match (fld w 0 11 : BitVec 11).toNat with
  | 0 => do
    zero (fb w)
    pure (.ccmap (fd w) (fa w))
  | 1 => do
    zero (fd w)
    zero (fb w)
    pure (.ccunmap (fa w))
  | 2 => do
    zero (fd w)
    zero (fb w)
    pure (.ccflush (fa w))
  | 3 => do
    zero (fb w)
    pure (.ccstat (fd w) (fa w))
  | _ => .error .unassignedOperation

/-- Major 0x2C FX (R108). -/
def decodeFx (w : BitVec 32) : Except DecodeError Instr :=
  match (fld w 5 1 : BitVec 1).toNat with
  | 0 => .ok (.fx (fld w 6 5) (fd w) (fa w) (fb w) (fld w 0 5))
  | 1 => .ok (.fxC (fld w 6 5) (fd w) (fa w) (fb w) (fld w 0 5))
  | _ => .error .unassignedOperation

/-- Major 0x2D FXC (R108). -/
def decodeFxc (w : BitVec 32) : Except DecodeError Instr :=
  match (fld w 0 11 : BitVec 11).toNat with
  | 0 => .ok (.fxbind (fd w) (fa w) (fb w))
  | 1 => do
    zero (fd w)
    zero (fb w)
    pure (.fxunbind (fa w))
  | 2 => do
    zero (fb w)
    pure (.fxstat (fd w) (fa w))
  | 3 => .ok (.fxquery (fd w) (fa w) (fb w))
  | 4 => do
    zero (fb w)
    pure (.fxpin (fd w) (fa w))
  | 5 => do
    zero (fd w)
    zero (fb w)
    pure (.fxunpin (fa w))
  | _ => .error .unassignedOperation

/-- Major 0x2E LINK (R108). -/
def decodeLink (w : BitVec 32) : Except DecodeError Instr :=
  match (fld w 0 11 : BitVec 11).toNat with
  | 0 => do
    zero (fb w)
    pure (.recv (fd w) (fa w))
  | 1 =>
    match (fb w).toNat with
    | 0 => do
      zero (fb w)
      pure (.send (fd w) (fa w))
    | 1 => do
      need (fb w == 1) .badOperandCode
      pure (.sendE (fd w) (fa w))
    | _ => .error .badOperandCode
  | 2 => .ok (.steer (fd w) (fa w) (fb w))
  | 3 => .ok (.merge (fd w) (fa w) (fb w))
  | 4 => do
    zero (fb w)
    pure (.prime (fd w) (fa w))
  | 5 => do
    zero (fd w)
    zero (fb w)
    pure (.tokw (fa w))
  | 6 => do
    zero (fa w)
    zero (fb w)
    pure (.toks (fd w))
  | 7 => do
    zero (fb w)
    pure (.lpeek (fd w) (fa w))
  | _ => .error .unassignedOperation

/-- Major 0x30 CPY (R108). -/
def decodeCpy (w : BitVec 32) : Except DecodeError Instr :=
  match (fld w 0 11 : BitVec 11).toNat with
  | 0 => .ok (.cpy1d (fd w) (fa w) (fb w))
  | 1 => .ok (.cpybox (fd w) (fa w) (fb w))
  | 2 => .ok (.cpyfill (fd w) (fa w) (fb w))
  | 3 => do
    zero (fd w)
    pure (.cwait (fa w) (fb w))
  | 4 => do
    zero (fb w)
    pure (.cstat (fd w) (fa w))
  | 5 => do
    zero (fd w)
    pure (.cpyarm (fa w) (fb w))
  | _ => .error .unassignedOperation

/-- Major 0x31 SYNC (R108). -/
def decodeSync (w : BitVec 32) : Except DecodeError Instr :=
  match (fld w 0 4 : BitVec 4).toNat with
  | 0 => do
    need (fld w 4 4 == (0 : BitVec 4)) .reservedField
    zero (fa w)
    zero (fb w)
    let sc ← scopeOf (fld w 8 3)
    pure (.fence (fd w) sc)
  | 1 => do
    need (fld w 4 7 == (0 : BitVec 7)) .reservedField
    pure (.barinit (fd w) (fa w) (fb w))
  | 2 => do
    need (fld w 4 7 == (0 : BitVec 7)) .reservedField
    pure (.barrive (fd w) (fa w) (fb w))
  | 3 => do
    need (fld w 4 7 == (0 : BitVec 7)) .reservedField
    zero (fd w)
    pure (.barwait (fa w) (fb w))
  | 4 => do
    need (fld w 4 7 == (0 : BitVec 7)) .reservedField
    zero (fb w)
    pure (.barpoll (fd w) (fa w))
  | 5 => do
    need (fld w 4 7 == (0 : BitVec 7)) .reservedField
    zero (fd w)
    zero (fa w)
    zero (fb w)
    pure (.hbeat)
  | 6 => do
    need (fld w 4 7 == (0 : BitVec 7)) .reservedField
    zero (fb w)
    pure (.uien (fd w) (fa w))
  | 7 => do
    need (fld w 4 7 == (0 : BitVec 7)) .reservedField
    zero (fb w)
    pure (.uidis (fd w) (fa w))
  | 8 => do
    need (fld w 4 7 == (0 : BitVec 7)) .reservedField
    zero (fd w)
    zero (fa w)
    zero (fb w)
    pure (.yield)
  | _ => .error .unassignedOperation

/-- Major 0x32 TASK (R108). -/
def decodeTask (w : BitVec 32) : Except DecodeError Instr :=
  match (fld w 0 11 : BitVec 11).toNat with
  | 0 => do
    zero (fb w)
    pure (.tspawn (fd w) (fa w))
  | 1 => .ok (.trun (fd w) (fa w) (fb w))
  | 2 => do
    zero (fd w)
    zero (fa w)
    zero (fb w)
    pure (.tdone)
  | 3 => do
    zero (fb w)
    pure (.tfut (fd w) (fa w))
  | 4 => do
    zero (fd w)
    pure (.tfset (fa w) (fb w))
  | 5 => do
    zero (fb w)
    pure (.tfwait (fd w) (fa w))
  | 6 => .ok (.tqcfg (fd w) (fa w) (fb w))
  | _ => .error .unassignedOperation

/-- Major 0x33 SPEC (R108). -/
def decodeSpec (w : BitVec 32) : Except DecodeError Instr :=
  match (fld w 0 11 : BitVec 11).toNat with
  | 0 => .ok (.sfarm (fd w) (fa w) (fb w))
  | 1 => do
    zero (fb w)
    pure (.spub (fd w) (fa w))
  | 2 => .ok (.sspawn (fd w) (fa w) (fb w))
  | 3 => do
    zero (fb w)
    pure (.sstat (fd w) (fa w))
  | 4 => do
    zero (fb w)
    pure (.sabort (fd w) (fa w))
  | _ => .error .unassignedOperation

/-- Major 0x34 SQ (R108). -/
def decodeSq (w : BitVec 32) : Except DecodeError Instr :=
  match (fld w 0 11 : BitVec 11).toNat with
  | 0 => do
    zero (fb w)
    pure (.sqinit (fd w) (fa w))
  | 1 => do
    zero (fb w)
    pure (.sqtab (fd w) (fa w))
  | 2 => do
    zero (fb w)
    pure (.sqadd (fd w) (fa w))
  | 3 => do
    zero (fa w)
    zero (fb w)
    pure (.sqgo (fd w))
  | 4 => do
    zero (fb w)
    pure (.sqstat (fd w) (fa w))
  | 5 => do
    zero (fa w)
    zero (fb w)
    pure (.sqend (fd w))
  | _ => .error .unassignedOperation

/-- The instruction that a 32-bit word encodes, or why it is none (R108 to R111). -/
def decode (w : BitVec 32) : Except DecodeError Instr :=
  match (fld w 26 6 : BitVec 6).toNat with
  | 0x00 => decodeSys w
  | 0x01 => decodeAlu w
  | 0x02 => decodeImm02 w
  | 0x03 => decodeImm03 w
  | 0x04 => decodeImm04 w
  | 0x05 => decodeImm05 w
  | 0x06 => decodeImm06 w
  | 0x07 => decodeImm07 w
  | 0x08 => decodeShi w
  | 0x09 => decodeUi09 w
  | 0x0A => decodeUi0a w
  | 0x0B => decodeLd w
  | 0x0C => decodeSt w
  | 0x0D => decodeAmo w
  | 0x0E => decodeBr w
  | 0x0F => decodeJl w
  | 0x10 => decodeJlr w
  | 0x11 => decodeFps w
  | 0x12 => decodeSpr w
  | 0x13 => decodeTloop w
  | 0x18 => decodeVcfg w
  | 0x19 => decodeVld w
  | 0x1A => decodeVst w
  | 0x1B => decodeVgat w
  | 0x1C => decodeVamo w
  | 0x1D => decodeVint w
  | 0x1E => decodeVfp w
  | 0x1F => decodeVcvt w
  | 0x20 => decodeVperm w
  | 0x21 => decodeVirr w
  | 0x22 => decodeVred w
  | 0x23 => decodeVmsk w
  | 0x28 => decodeTile w
  | 0x29 => decodeTmop w
  | 0x2A => decodeTq w
  | 0x2B => decodeCc w
  | 0x2C => decodeFx w
  | 0x2D => decodeFxc w
  | 0x2E => decodeLink w
  | 0x30 => decodeCpy w
  | 0x31 => decodeSync w
  | 0x32 => decodeTask w
  | 0x33 => decodeSpec w
  | 0x34 => decodeSq w
  | _ => .error .unassignedMajor

/-- The word of ILL (R145). -/
def wIll : BitVec 32 :=
  encRRR 0x00 0 0 0 0
/-- The word of XCALL (R146). -/
def wXcall : BitVec 32 :=
  encRRR 0x00 0 0 0 1
/-- The word of FCALL (R146). -/
def wFcall : BitVec 32 :=
  encRRR 0x00 0 0 0 2
/-- The word of BRK (R146). -/
def wBrk : BitVec 32 :=
  encRRR 0x00 0 0 0 3
/-- The word of ERET (R477). -/
def wEret : BitVec 32 :=
  encRRR 0x00 0 0 0 4
/-- The word of UIRET (R423). -/
def wUiret : BitVec 32 :=
  encRRR 0x00 0 0 0 5
/-- The word of WFE (R148). -/
def wWfe (a : Reg) : BitVec 32 :=
  encRRR 0x00 0 a 0 6
/-- The word of TLBINV_PAGE (R149). -/
def wTlbinvPage (a b : Reg) : BitVec 32 :=
  encRRR 0x00 0 a b 7
/-- The word of TLBINV_ASID (R149). -/
def wTlbinvAsid (b : Reg) : BitVec 32 :=
  encRRR 0x00 1 0 b 7
/-- The word of TLBINV_ALL (R149). -/
def wTlbinvAll : BitVec 32 :=
  encRRR 0x00 2 0 0 7
/-- The word of CWB_CORE (R150). -/
def wCwbCore : BitVec 32 :=
  encRRR 0x00 0 0 0 8
/-- The word of CWB_DIE (R150). -/
def wCwbDie : BitVec 32 :=
  encRRR 0x00 1 0 0 8
/-- The word of CWB_DEVICE (R150). -/
def wCwbDevice : BitVec 32 :=
  encRRR 0x00 2 0 0 8
/-- The word of CWB_IMAGE (R150). -/
def wCwbImage (a b : Reg) : BitVec 32 :=
  encRRR 0x00 3 a b 8
/-- The word of HALT (R151). -/
def wHalt : BitVec 32 :=
  encRRR 0x00 0 0 0 9
/-- The word of ADD (R128). -/
def wAdd (d a b : Reg) : BitVec 32 :=
  encRRR 0x01 d a b 0
/-- The word of SUB (R128). -/
def wSub (d a b : Reg) : BitVec 32 :=
  encRRR 0x01 d a b 1
/-- The word of AND (R128). -/
def wAnd (d a b : Reg) : BitVec 32 :=
  encRRR 0x01 d a b 2
/-- The word of OR (R128). -/
def wOr (d a b : Reg) : BitVec 32 :=
  encRRR 0x01 d a b 3
/-- The word of XOR (R128). -/
def wXor (d a b : Reg) : BitVec 32 :=
  encRRR 0x01 d a b 4
/-- The word of ANDN (R128). -/
def wAndn (d a b : Reg) : BitVec 32 :=
  encRRR 0x01 d a b 5
/-- The word of ORN (R128). -/
def wOrn (d a b : Reg) : BitVec 32 :=
  encRRR 0x01 d a b 6
/-- The word of SLL (R128). -/
def wSll (d a b : Reg) : BitVec 32 :=
  encRRR 0x01 d a b 7
/-- The word of SRL (R128). -/
def wSrl (d a b : Reg) : BitVec 32 :=
  encRRR 0x01 d a b 8
/-- The word of SRA (R128). -/
def wSra (d a b : Reg) : BitVec 32 :=
  encRRR 0x01 d a b 9
/-- The word of ROTL (R128). -/
def wRotl (d a b : Reg) : BitVec 32 :=
  encRRR 0x01 d a b 10
/-- The word of ROTR (R128). -/
def wRotr (d a b : Reg) : BitVec 32 :=
  encRRR 0x01 d a b 11
/-- The word of SLT (R128). -/
def wSlt (d a b : Reg) : BitVec 32 :=
  encRRR 0x01 d a b 12
/-- The word of SLTN (R128). -/
def wSltn (d a b : Reg) : BitVec 32 :=
  encRRR 0x01 d a b 13
/-- The word of MIN (R128). -/
def wMin (d a b : Reg) : BitVec 32 :=
  encRRR 0x01 d a b 14
/-- The word of MAX (R128). -/
def wMax (d a b : Reg) : BitVec 32 :=
  encRRR 0x01 d a b 15
/-- The word of MINN (R128). -/
def wMinn (d a b : Reg) : BitVec 32 :=
  encRRR 0x01 d a b 16
/-- The word of MAXN (R128). -/
def wMaxn (d a b : Reg) : BitVec 32 :=
  encRRR 0x01 d a b 17
/-- The word of MUL (R128). -/
def wMul (d a b : Reg) : BitVec 32 :=
  encRRR 0x01 d a b 18
/-- The word of MULH (R128). -/
def wMulh (d a b : Reg) : BitVec 32 :=
  encRRR 0x01 d a b 19
/-- The word of MULHN (R128). -/
def wMulhn (d a b : Reg) : BitVec 32 :=
  encRRR 0x01 d a b 20
/-- The word of DIV (R129). -/
def wDiv (d a b : Reg) : BitVec 32 :=
  encRRR 0x01 d a b 21
/-- The word of DIVN (R129). -/
def wDivn (d a b : Reg) : BitVec 32 :=
  encRRR 0x01 d a b 22
/-- The word of REM (R129). -/
def wRem (d a b : Reg) : BitVec 32 :=
  encRRR 0x01 d a b 23
/-- The word of REMN (R129). -/
def wRemn (d a b : Reg) : BitVec 32 :=
  encRRR 0x01 d a b 24
/-- The word of CLZ (R128). -/
def wClz (d a : Reg) : BitVec 32 :=
  encRRR 0x01 d a 0 25
/-- The word of CTZ (R128). -/
def wCtz (d a : Reg) : BitVec 32 :=
  encRRR 0x01 d a 0 26
/-- The word of POPC (R128). -/
def wPopc (d a : Reg) : BitVec 32 :=
  encRRR 0x01 d a 0 27
/-- The word of BSWAP (R128). -/
def wBswap (d a : Reg) : BitVec 32 :=
  encRRR 0x01 d a 0 28
/-- The word of ADDI (R130). -/
def wAddi (d a : Reg) (imm : BitVec 16) : BitVec 32 :=
  encRI 0x02 d a imm
/-- The word of ANDI (R130). -/
def wAndi (d a : Reg) (imm : BitVec 16) : BitVec 32 :=
  encRI 0x03 d a imm
/-- The word of ORI (R130). -/
def wOri (d a : Reg) (imm : BitVec 16) : BitVec 32 :=
  encRI 0x04 d a imm
/-- The word of XORI (R130). -/
def wXori (d a : Reg) (imm : BitVec 16) : BitVec 32 :=
  encRI 0x05 d a imm
/-- The word of SLTI (R130). -/
def wSlti (d a : Reg) (imm : BitVec 16) : BitVec 32 :=
  encRI 0x06 d a imm
/-- The word of SLTNI (R130). -/
def wSltni (d a : Reg) (imm : BitVec 16) : BitVec 32 :=
  encRI 0x07 d a imm
/-- The word of SLL_I (R130). -/
def wSllI (d a : Reg) (amount : BitVec 6) : BitVec 32 :=
  encRI 0x08 d a ((0 : BitVec 2) ++ (0 : BitVec 8) ++ amount)
/-- The word of SRL_I (R130). -/
def wSrlI (d a : Reg) (amount : BitVec 6) : BitVec 32 :=
  encRI 0x08 d a ((1 : BitVec 2) ++ (0 : BitVec 8) ++ amount)
/-- The word of SRA_I (R130). -/
def wSraI (d a : Reg) (amount : BitVec 6) : BitVec 32 :=
  encRI 0x08 d a ((2 : BitVec 2) ++ (0 : BitVec 8) ++ amount)
/-- The word of ROTR_I (R130). -/
def wRotrI (d a : Reg) (amount : BitVec 6) : BitVec 32 :=
  encRI 0x08 d a ((3 : BitVec 2) ++ (0 : BitVec 8) ++ amount)
/-- The word of LUI (R131). -/
def wLui (d : Reg) (imm : BitVec 21) : BitVec 32 :=
  encUI 0x09 d imm
/-- The word of AUIPC (R131). -/
def wAuipc (d : Reg) (imm : BitVec 21) : BitVec 32 :=
  encUI 0x0A d imm
/-- The word of LD8 (R132). -/
def wLd8 (d a : Reg) (off : BitVec 13) : BitVec 32 :=
  encMS 0x0B d a 0 off
/-- The word of LD8S (R132). -/
def wLd8s (d a : Reg) (off : BitVec 13) : BitVec 32 :=
  encMS 0x0B d a 1 off
/-- The word of LD16 (R132). -/
def wLd16 (d a : Reg) (off : BitVec 13) : BitVec 32 :=
  encMS 0x0B d a 2 off
/-- The word of LD16S (R132). -/
def wLd16s (d a : Reg) (off : BitVec 13) : BitVec 32 :=
  encMS 0x0B d a 3 off
/-- The word of LD32 (R132). -/
def wLd32 (d a : Reg) (off : BitVec 13) : BitVec 32 :=
  encMS 0x0B d a 4 off
/-- The word of LD32S (R132). -/
def wLd32s (d a : Reg) (off : BitVec 13) : BitVec 32 :=
  encMS 0x0B d a 5 off
/-- The word of LD64 (R132). -/
def wLd64 (d a : Reg) (off : BitVec 13) : BitVec 32 :=
  encMS 0x0B d a 6 off
/-- The word of ST8 (R132). -/
def wSt8 (r a : Reg) (off : BitVec 13) : BitVec 32 :=
  encMS 0x0C r a 0 off
/-- The word of ST16 (R132). -/
def wSt16 (r a : Reg) (off : BitVec 13) : BitVec 32 :=
  encMS 0x0C r a 1 off
/-- The word of ST32 (R132). -/
def wSt32 (r a : Reg) (off : BitVec 13) : BitVec 32 :=
  encMS 0x0C r a 2 off
/-- The word of ST64 (R132). -/
def wSt64 (r a : Reg) (off : BitVec 13) : BitVec 32 :=
  encMS 0x0C r a 3 off
/-- The word of LDACQ (R293). -/
def wLdacq (sc : Scope) (d a : Reg) : BitVec 32 :=
  encRRR 0x0D d a 0 (encAmoFn sc 0)
/-- The word of STREL (R293). -/
def wStrel (sc : Scope) (a b : Reg) : BitVec 32 :=
  encRRR 0x0D 0 a b (encAmoFn sc 1)
/-- The word of AMOSWAP (R293). -/
def wAmoswap (sc : Scope) (d a b : Reg) : BitVec 32 :=
  encRRR 0x0D d a b (encAmoFn sc 2)
/-- The word of AMOADD (R293). -/
def wAmoadd (sc : Scope) (d a b : Reg) : BitVec 32 :=
  encRRR 0x0D d a b (encAmoFn sc 3)
/-- The word of AMOAND (R293). -/
def wAmoand (sc : Scope) (d a b : Reg) : BitVec 32 :=
  encRRR 0x0D d a b (encAmoFn sc 4)
/-- The word of AMOOR (R293). -/
def wAmoor (sc : Scope) (d a b : Reg) : BitVec 32 :=
  encRRR 0x0D d a b (encAmoFn sc 5)
/-- The word of AMOXOR (R293). -/
def wAmoxor (sc : Scope) (d a b : Reg) : BitVec 32 :=
  encRRR 0x0D d a b (encAmoFn sc 6)
/-- The word of AMOMIN (R293). -/
def wAmomin (sc : Scope) (d a b : Reg) : BitVec 32 :=
  encRRR 0x0D d a b (encAmoFn sc 7)
/-- The word of AMOMAX (R293). -/
def wAmomax (sc : Scope) (d a b : Reg) : BitVec 32 :=
  encRRR 0x0D d a b (encAmoFn sc 8)
/-- The word of AMOMINN (R293). -/
def wAmominn (sc : Scope) (d a b : Reg) : BitVec 32 :=
  encRRR 0x0D d a b (encAmoFn sc 9)
/-- The word of AMOMAXN (R293). -/
def wAmomaxn (sc : Scope) (d a b : Reg) : BitVec 32 :=
  encRRR 0x0D d a b (encAmoFn sc 10)
/-- The word of AMOCAS (R293). -/
def wAmocas (sc : Scope) (d a b : Reg) : BitVec 32 :=
  encRRR 0x0D d a b (encAmoFn sc 11)
/-- The word of LDF (R293). -/
def wLdf (sc : Scope) (d a : Reg) : BitVec 32 :=
  encRRR 0x0D d a 0 (encAmoFn sc 12)
/-- The word of LDC (R293). -/
def wLdc (sc : Scope) (d a : Reg) : BitVec 32 :=
  encRRR 0x0D d a 0 (encAmoFn sc 13)
/-- The word of STF (R293). -/
def wStf (sc : Scope) (a b : Reg) : BitVec 32 :=
  encRRR 0x0D 0 a b (encAmoFn sc 14)
/-- The word of BEQ (R136). -/
def wBeq (a b : Reg) (off : BitVec 13) : BitVec 32 :=
  encMS 0x0E a b 0 off
/-- The word of BNE (R136). -/
def wBne (a b : Reg) (off : BitVec 13) : BitVec 32 :=
  encMS 0x0E a b 1 off
/-- The word of BLT (R136). -/
def wBlt (a b : Reg) (off : BitVec 13) : BitVec 32 :=
  encMS 0x0E a b 2 off
/-- The word of BGE (R136). -/
def wBge (a b : Reg) (off : BitVec 13) : BitVec 32 :=
  encMS 0x0E a b 3 off
/-- The word of BLTN (R136). -/
def wBltn (a b : Reg) (off : BitVec 13) : BitVec 32 :=
  encMS 0x0E a b 4 off
/-- The word of BGEN (R136). -/
def wBgen (a b : Reg) (off : BitVec 13) : BitVec 32 :=
  encMS 0x0E a b 5 off
/-- The word of JL (R137). -/
def wJl (off : BitVec 26) : BitVec 32 :=
  encJM 0x0F off
/-- The word of JLR (R137). -/
def wJlr (d a : Reg) (imm : BitVec 16) : BitVec 32 :=
  encRI 0x10 d a imm
/-- The word of FADD (R139). -/
def wFadd (f : FpFmt) (r : Rm) (d a b : Reg) : BitVec 32 :=
  encRRR 0x11 d a b (encFpsFn f r 0)
/-- The word of FSUB (R139). -/
def wFsub (f : FpFmt) (r : Rm) (d a b : Reg) : BitVec 32 :=
  encRRR 0x11 d a b (encFpsFn f r 1)
/-- The word of FMUL (R139). -/
def wFmul (f : FpFmt) (r : Rm) (d a b : Reg) : BitVec 32 :=
  encRRR 0x11 d a b (encFpsFn f r 2)
/-- The word of FDIV (R139). -/
def wFdiv (f : FpFmt) (r : Rm) (d a b : Reg) : BitVec 32 :=
  encRRR 0x11 d a b (encFpsFn f r 3)
/-- The word of FSQRT (R139). -/
def wFsqrt (f : FpFmt) (r : Rm) (d a : Reg) : BitVec 32 :=
  encRRR 0x11 d a 0 (encFpsFn f r 4)
/-- The word of FMADD (R139). -/
def wFmadd (f : FpFmt) (r : Rm) (d a b : Reg) : BitVec 32 :=
  encRRR 0x11 d a b (encFpsFn f r 5)
/-- The word of FMIN (R139). -/
def wFmin (f : FpFmt) (r : Rm) (d a b : Reg) : BitVec 32 :=
  encRRR 0x11 d a b (encFpsFn f r 6)
/-- The word of FMAX (R139). -/
def wFmax (f : FpFmt) (r : Rm) (d a b : Reg) : BitVec 32 :=
  encRRR 0x11 d a b (encFpsFn f r 7)
/-- The word of FNEG (R139). -/
def wFneg (f : FpFmt) (r : Rm) (d a : Reg) : BitVec 32 :=
  encRRR 0x11 d a 0 (encFpsFn f r 8)
/-- The word of FABS (R139). -/
def wFabs (f : FpFmt) (r : Rm) (d a : Reg) : BitVec 32 :=
  encRRR 0x11 d a 0 (encFpsFn f r 9)
/-- The word of FCMPEQ (R139). -/
def wFcmpeq (f : FpFmt) (r : Rm) (d a b : Reg) : BitVec 32 :=
  encRRR 0x11 d a b (encFpsFn f r 10)
/-- The word of FCMPLT (R139). -/
def wFcmplt (f : FpFmt) (r : Rm) (d a b : Reg) : BitVec 32 :=
  encRRR 0x11 d a b (encFpsFn f r 11)
/-- The word of FCMPLE (R139). -/
def wFcmple (f : FpFmt) (r : Rm) (d a b : Reg) : BitVec 32 :=
  encRRR 0x11 d a b (encFpsFn f r 12)
/-- The word of FCLASS (R139). -/
def wFclass (f : FpFmt) (r : Rm) (d a : Reg) : BitVec 32 :=
  encRRR 0x11 d a 0 (encFpsFn f r 13)
/-- The word of FCVTFI (R141). -/
def wFcvtfi (f : FpFmt) (r : Rm) (t : BitVec 2) (d a : Reg) : BitVec 32 :=
  encRRR 0x11 d a ((0 : BitVec 3) ++ t) (encFpsFn f r 14)
/-- The word of FCVTIF (R141). -/
def wFcvtif (f : FpFmt) (r : Rm) (t : BitVec 2) (d a : Reg) : BitVec 32 :=
  encRRR 0x11 d a ((0 : BitVec 3) ++ t) (encFpsFn f r 15)
/-- The word of FCVTFF (R141). -/
def wFcvtff (f : FpFmt) (r : Rm) (d a : Reg) : BitVec 32 :=
  encRRR 0x11 d a 0 (encFpsFn f r 16)
/-- The word of MFS (R142). -/
def wMfs (d : Reg) (spr : BitVec 12) : BitVec 32 :=
  encRI 0x12 d 0 ((0 : BitVec 2) ++ (0 : BitVec 2) ++ spr)
/-- The word of MTS (R142). -/
def wMts (spr : BitVec 12) (a : Reg) : BitVec 32 :=
  encRI 0x12 0 a ((1 : BitVec 2) ++ (0 : BitVec 2) ++ spr)
/-- The word of SSET (R142). -/
def wSset (spr : BitVec 12) (a : Reg) : BitVec 32 :=
  encRI 0x12 0 a ((2 : BitVec 2) ++ (0 : BitVec 2) ++ spr)
/-- The word of SCLR (R142). -/
def wSclr (spr : BitVec 12) (a : Reg) : BitVec 32 :=
  encRI 0x12 0 a ((3 : BitVec 2) ++ (0 : BitVec 2) ++ spr)
/-- The word of TLOOP (R144). -/
def wTloop (n : BitVec 2) (b : Reg) (off : BitVec 13) : BitVec 32 :=
  encMS 0x13 ((0 : BitVec 3) ++ n) b 0 off
/-- The word of VSETL (R198). -/
def wVsetl (d a : Reg) (vt : BitVec 8) : BitVec 32 :=
  encRRR 0x18 d a 0 (encVcfgFn 0 vt)
/-- The word of VSETLX (R198). -/
def wVsetlx (d a b : Reg) : BitVec 32 :=
  encRRR 0x18 d a b 256
/-- The word of VLOOP (R200). -/
def wVloop (a : Reg) (vt : BitVec 8) : BitVec 32 :=
  encRRR 0x18 0 a 0 (encVcfgFn 2 vt)
/-- The word of VLEND (R201). -/
def wVlend (np a len : Reg) : BitVec 32 :=
  encRRR 0x18 np a len (encVcfgFn 3 0)
/-- The word of VBREAK (R202). -/
def wVbreak (a off : Reg) : BitVec 32 :=
  encRRR 0x18 0 a off (encVcfgFn 4 0)
/-- The word of VDECL (R387). -/
def wVdecl (a : Reg) : BitVec 32 :=
  encRRR 0x18 0 a 0 1280
/-- The word of VUNDECL (R387). -/
def wVundecl : BitVec 32 :=
  encRRR 0x18 0 0 0 1536
/-- The word of VSLIP (R199). -/
def wVslip (a : Reg) : BitVec 32 :=
  encRRR 0x18 0 a 0 1792
/-- The word of VLD (R279). -/
def wVld (v a : Reg) (o sb : Bool) (m : Msk) (ew : BitVec 2) : BitVec 32 :=
  encVM 0x19 v a 0 o sb m 0 ew
/-- The word of VLDS (R279). -/
def wVlds (v a b : Reg) (o sb : Bool) (m : Msk) (ew : BitVec 2) : BitVec 32 :=
  encVM 0x19 v a b o sb m 1 ew
/-- The word of VLDQ (R280). -/
def wVldq (ring : BitVec 3) (a : Reg) (o sb : Bool) (m : Msk) (ew : BitVec 2) : BitVec 32 :=
  encVM 0x19 0 a ((0 : BitVec 2) ++ ring) o sb m 2 ew
/-- The word of VLDQK (R280). -/
def wVldqk (v a : Reg) (ring : BitVec 3) (o sb : Bool) (m : Msk) (ew : BitVec 2) : BitVec 32 :=
  encVM 0x19 v a ((0 : BitVec 2) ++ ring) o sb m 3 ew
/-- The word of VLDB (R279). -/
def wVldb (v a : Reg) (o sb : Bool) (m : Msk) (ew : BitVec 2) : BitVec 32 :=
  encVM 0x19 v a 0 o sb m 4 ew
/-- The word of VLDF (R282). -/
def wVldf (v a : Reg) (o sb : Bool) (m : Msk) (ew : BitVec 2) : BitVec 32 :=
  encVM 0x19 v a 0 o sb m 5 ew
/-- The word of VLDP4 (R281). -/
def wVldp4 (v a b : Reg) (o sb : Bool) (m : Msk) : BitVec 32 :=
  encVM 0x19 v a b o sb m 6 0
/-- The word of VST (R283). -/
def wVst (v a : Reg) (o sb : Bool) (m : Msk) (ew : BitVec 2) : BitVec 32 :=
  encVM 0x1A v a 0 o sb m 0 ew
/-- The word of VSTS (R283). -/
def wVsts (v a b : Reg) (o sb : Bool) (m : Msk) (ew : BitVec 2) : BitVec 32 :=
  encVM 0x1A v a b o sb m 1 ew
/-- The word of VSTN (R284). -/
def wVstn (v a : Reg) (o sb : Bool) (m : Msk) (ew : BitVec 2) : BitVec 32 :=
  encVM 0x1A v a 0 o sb m 2 ew
/-- The word of VSTSN (R284). -/
def wVstsn (v a b : Reg) (o sb : Bool) (m : Msk) (ew : BitVec 2) : BitVec 32 :=
  encVM 0x1A v a b o sb m 3 ew
/-- The word of VSTF (R285). -/
def wVstf (v a : Reg) (o sb : Bool) (m : Msk) (ew : BitVec 2) : BitVec 32 :=
  encVM 0x1A v a 0 o sb m 4 ew
/-- The word of VSTQ (R286). -/
def wVstq (ring : BitVec 3) (a : Reg) (o sb : Bool) (m : Msk) (ew : BitVec 2) : BitVec 32 :=
  encVM 0x1A 0 a ((0 : BitVec 2) ++ ring) o sb m 5 ew
/-- The word of VGAT (R287). -/
def wVgat (v a b : Reg) (o sb : Bool) (m : Msk) (ew : BitVec 2) : BitVec 32 :=
  encVM 0x1B v a b o sb m 0 ew
/-- The word of VSCA (R287). -/
def wVsca (v a b : Reg) (o sb : Bool) (m : Msk) (ew : BitVec 2) : BitVec 32 :=
  encVM 0x1B v a b o sb m 1 ew
/-- The word of VGATW (R288). -/
def wVgatw (v a b : Reg) (o sb : Bool) (p : BitVec 3) (ew : BitVec 2) : BitVec 32 :=
  encVM 0x1B v a b o sb ⟨false, p⟩ 2 ew
/-- The word of VGL (R289). -/
def wVgl (v a b : Reg) (o sb : Bool) (m : Msk) (ew : BitVec 2) : BitVec 32 :=
  encVM 0x1B v a b o sb m 3 ew
/-- The word of VSCC (R289). -/
def wVscc (v a b : Reg) (o sb : Bool) (p : BitVec 3) (ew : BitVec 2) : BitVec 32 :=
  encVM 0x1B v a b o sb ⟨false, p⟩ 4 ew
/-- The word of VAMOADD (R291). -/
def wVamoadd (v a b : Reg) (o ret : Bool) (m : Msk) : BitVec 32 :=
  encVA 0x1C v a b o ret m 0
/-- The word of VAMOAND (R291). -/
def wVamoand (v a b : Reg) (o ret : Bool) (m : Msk) : BitVec 32 :=
  encVA 0x1C v a b o ret m 1
/-- The word of VAMOOR (R291). -/
def wVamoor (v a b : Reg) (o ret : Bool) (m : Msk) : BitVec 32 :=
  encVA 0x1C v a b o ret m 2
/-- The word of VAMOXOR (R291). -/
def wVamoxor (v a b : Reg) (o ret : Bool) (m : Msk) : BitVec 32 :=
  encVA 0x1C v a b o ret m 3
/-- The word of VAMOMIN (R291). -/
def wVamomin (v a b : Reg) (o ret : Bool) (m : Msk) : BitVec 32 :=
  encVA 0x1C v a b o ret m 4
/-- The word of VAMOMAX (R291). -/
def wVamomax (v a b : Reg) (o ret : Bool) (m : Msk) : BitVec 32 :=
  encVA 0x1C v a b o ret m 5
/-- The word of VAMOMINN (R291). -/
def wVamominn (v a b : Reg) (o ret : Bool) (m : Msk) : BitVec 32 :=
  encVA 0x1C v a b o ret m 6
/-- The word of VAMOMAXN (R291). -/
def wVamomaxn (v a b : Reg) (o ret : Bool) (m : Msk) : BitVec 32 :=
  encVA 0x1C v a b o ret m 7
/-- The word of VAMOSWAP (R291). -/
def wVamoswap (v a b : Reg) (o ret : Bool) (m : Msk) : BitVec 32 :=
  encVA 0x1C v a b o ret m 8
/-- The word of VAMOFADD (R291). -/
def wVamofadd (v a b : Reg) (o ret : Bool) (m : Msk) : BitVec 32 :=
  encVA 0x1C v a b o ret m 9
/-- The word of VWAIT (R292). -/
def wVwait (v a b : Reg) (o ret : Bool) (m : Msk) : BitVec 32 :=
  encVA 0x1C v a b o ret m 10
/-- The word of VADD (R209). -/
def wVadd (vd : Reg) (va : VSrc) (vb : VbSrc) (m : Msk) : BitVec 32 :=
  encVA 0x1D vd va.field vb.field vb.k va.q m 0
/-- The word of VSUB (R209). -/
def wVsub (vd : Reg) (va : VSrc) (vb : VbSrc) (m : Msk) : BitVec 32 :=
  encVA 0x1D vd va.field vb.field vb.k va.q m 1
/-- The word of VRSUB (R209). -/
def wVrsub (vd : Reg) (va : VSrc) (vb : VbSrc) (m : Msk) : BitVec 32 :=
  encVA 0x1D vd va.field vb.field vb.k va.q m 2
/-- The word of VMUL (R209). -/
def wVmul (vd : Reg) (va : VSrc) (vb : VbSrc) (m : Msk) : BitVec 32 :=
  encVA 0x1D vd va.field vb.field vb.k va.q m 3
/-- The word of VMULH (R209). -/
def wVmulh (vd : Reg) (va : VSrc) (vb : VbSrc) (m : Msk) : BitVec 32 :=
  encVA 0x1D vd va.field vb.field vb.k va.q m 4
/-- The word of VMULHN (R209). -/
def wVmulhn (vd : Reg) (va : VSrc) (vb : VbSrc) (m : Msk) : BitVec 32 :=
  encVA 0x1D vd va.field vb.field vb.k va.q m 5
/-- The word of VDIV (R209). -/
def wVdiv (vd : Reg) (va : VSrc) (vb : VbSrc) (m : Msk) : BitVec 32 :=
  encVA 0x1D vd va.field vb.field vb.k va.q m 6
/-- The word of VDIVN (R209). -/
def wVdivn (vd : Reg) (va : VSrc) (vb : VbSrc) (m : Msk) : BitVec 32 :=
  encVA 0x1D vd va.field vb.field vb.k va.q m 7
/-- The word of VREM (R209). -/
def wVrem (vd : Reg) (va : VSrc) (vb : VbSrc) (m : Msk) : BitVec 32 :=
  encVA 0x1D vd va.field vb.field vb.k va.q m 8
/-- The word of VREMN (R209). -/
def wVremn (vd : Reg) (va : VSrc) (vb : VbSrc) (m : Msk) : BitVec 32 :=
  encVA 0x1D vd va.field vb.field vb.k va.q m 9
/-- The word of VMIN (R209). -/
def wVmin (vd : Reg) (va : VSrc) (vb : VbSrc) (m : Msk) : BitVec 32 :=
  encVA 0x1D vd va.field vb.field vb.k va.q m 10
/-- The word of VMAX (R209). -/
def wVmax (vd : Reg) (va : VSrc) (vb : VbSrc) (m : Msk) : BitVec 32 :=
  encVA 0x1D vd va.field vb.field vb.k va.q m 11
/-- The word of VMINN (R209). -/
def wVminn (vd : Reg) (va : VSrc) (vb : VbSrc) (m : Msk) : BitVec 32 :=
  encVA 0x1D vd va.field vb.field vb.k va.q m 12
/-- The word of VMAXN (R209). -/
def wVmaxn (vd : Reg) (va : VSrc) (vb : VbSrc) (m : Msk) : BitVec 32 :=
  encVA 0x1D vd va.field vb.field vb.k va.q m 13
/-- The word of VAND (R209). -/
def wVand (vd : Reg) (va : VSrc) (vb : VbSrc) (m : Msk) : BitVec 32 :=
  encVA 0x1D vd va.field vb.field vb.k va.q m 14
/-- The word of VOR (R209). -/
def wVor (vd : Reg) (va : VSrc) (vb : VbSrc) (m : Msk) : BitVec 32 :=
  encVA 0x1D vd va.field vb.field vb.k va.q m 15
/-- The word of VXOR (R209). -/
def wVxor (vd : Reg) (va : VSrc) (vb : VbSrc) (m : Msk) : BitVec 32 :=
  encVA 0x1D vd va.field vb.field vb.k va.q m 16
/-- The word of VSLL (R209). -/
def wVsll (vd : Reg) (va : VSrc) (vb : VbSrc) (m : Msk) : BitVec 32 :=
  encVA 0x1D vd va.field vb.field vb.k va.q m 17
/-- The word of VSRL (R209). -/
def wVsrl (vd : Reg) (va : VSrc) (vb : VbSrc) (m : Msk) : BitVec 32 :=
  encVA 0x1D vd va.field vb.field vb.k va.q m 18
/-- The word of VSRA (R209). -/
def wVsra (vd : Reg) (va : VSrc) (vb : VbSrc) (m : Msk) : BitVec 32 :=
  encVA 0x1D vd va.field vb.field vb.k va.q m 19
/-- The word of VADDS (R209). -/
def wVadds (vd : Reg) (va : VSrc) (vb : VbSrc) (m : Msk) : BitVec 32 :=
  encVA 0x1D vd va.field vb.field vb.k va.q m 20
/-- The word of VSUBS (R209). -/
def wVsubs (vd : Reg) (va : VSrc) (vb : VbSrc) (m : Msk) : BitVec 32 :=
  encVA 0x1D vd va.field vb.field vb.k va.q m 21
/-- The word of VADDSN (R209). -/
def wVaddsn (vd : Reg) (va : VSrc) (vb : VbSrc) (m : Msk) : BitVec 32 :=
  encVA 0x1D vd va.field vb.field vb.k va.q m 22
/-- The word of VSUBSN (R209). -/
def wVsubsn (vd : Reg) (va : VSrc) (vb : VbSrc) (m : Msk) : BitVec 32 :=
  encVA 0x1D vd va.field vb.field vb.k va.q m 23
/-- The word of VMACC (R209). -/
def wVmacc (vd : Reg) (va : VSrc) (vb : VbSrc) (m : Msk) : BitVec 32 :=
  encVA 0x1D vd va.field vb.field vb.k va.q m 24
/-- The word of VNMSAC (R209). -/
def wVnmsac (vd : Reg) (va : VSrc) (vb : VbSrc) (m : Msk) : BitVec 32 :=
  encVA 0x1D vd va.field vb.field vb.k va.q m 25
/-- The word of VWMUL (R210). -/
def wVwmul (vd : Reg) (va : VSrc) (vb : VbSrc) (m : Msk) : BitVec 32 :=
  encVA 0x1D vd va.field vb.field vb.k va.q m 26
/-- The word of VNSRL (R210). -/
def wVnsrl (vd : Reg) (va : VSrc) (vb : VbSrc) (m : Msk) : BitVec 32 :=
  encVA 0x1D vd va.field vb.field vb.k va.q m 27
/-- The word of VFADD (R211). -/
def wVfadd (vd : Reg) (va : VSrc) (vb : VbSrc) (m : Msk) : BitVec 32 :=
  encVA 0x1E vd va.field vb.field vb.k va.q m 0
/-- The word of VFSUB (R211). -/
def wVfsub (vd : Reg) (va : VSrc) (vb : VbSrc) (m : Msk) : BitVec 32 :=
  encVA 0x1E vd va.field vb.field vb.k va.q m 1
/-- The word of VFMUL (R211). -/
def wVfmul (vd : Reg) (va : VSrc) (vb : VbSrc) (m : Msk) : BitVec 32 :=
  encVA 0x1E vd va.field vb.field vb.k va.q m 2
/-- The word of VFDIV (R211). -/
def wVfdiv (vd : Reg) (va : VSrc) (vb : VbSrc) (m : Msk) : BitVec 32 :=
  encVA 0x1E vd va.field vb.field vb.k va.q m 3
/-- The word of VFSQRT (R211). -/
def wVfsqrt (vd : Reg) (va : VSrc) (m : Msk) : BitVec 32 :=
  encVA 0x1E vd va.field 0 false va.q m 4
/-- The word of VFRSQE (R176). -/
def wVfrsqe (vd : Reg) (va : VSrc) (m : Msk) : BitVec 32 :=
  encVA 0x1E vd va.field 0 false va.q m 5
/-- The word of VFEXP2 (R177). -/
def wVfexp2 (vd : Reg) (va : VSrc) (m : Msk) : BitVec 32 :=
  encVA 0x1E vd va.field 0 false va.q m 6
/-- The word of VFMADD (R211). -/
def wVfmadd (vd : Reg) (va : VSrc) (vb : VbSrc) (m : Msk) : BitVec 32 :=
  encVA 0x1E vd va.field vb.field vb.k va.q m 7
/-- The word of VFNMADD (R211). -/
def wVfnmadd (vd : Reg) (va : VSrc) (vb : VbSrc) (m : Msk) : BitVec 32 :=
  encVA 0x1E vd va.field vb.field vb.k va.q m 8
/-- The word of VFMSUB (R211). -/
def wVfmsub (vd : Reg) (va : VSrc) (vb : VbSrc) (m : Msk) : BitVec 32 :=
  encVA 0x1E vd va.field vb.field vb.k va.q m 9
/-- The word of VFMIN (R211). -/
def wVfmin (vd : Reg) (va : VSrc) (vb : VbSrc) (m : Msk) : BitVec 32 :=
  encVA 0x1E vd va.field vb.field vb.k va.q m 10
/-- The word of VFMAX (R211). -/
def wVfmax (vd : Reg) (va : VSrc) (vb : VbSrc) (m : Msk) : BitVec 32 :=
  encVA 0x1E vd va.field vb.field vb.k va.q m 11
/-- The word of VFABS (R211). -/
def wVfabs (vd : Reg) (va : VSrc) (m : Msk) : BitVec 32 :=
  encVA 0x1E vd va.field 0 false va.q m 12
/-- The word of VFNEG (R211). -/
def wVfneg (vd : Reg) (va : VSrc) (m : Msk) : BitVec 32 :=
  encVA 0x1E vd va.field 0 false va.q m 13
/-- The word of VFSGNJ (R211). -/
def wVfsgnj (vd : Reg) (va : VSrc) (vb : VbSrc) (m : Msk) : BitVec 32 :=
  encVA 0x1E vd va.field vb.field vb.k va.q m 14
/-- The word of VFCLASS (R211). -/
def wVfclass (vd : Reg) (va : VSrc) (m : Msk) : BitVec 32 :=
  encVA 0x1E vd va.field 0 false va.q m 15
/-- The word of VCVTF64 (R215). -/
def wVcvtf64 (vd : Reg) (va : VSrc) (cv : BitVec 3) (m : Msk) : BitVec 32 :=
  encVA 0x1F vd va.field ((0 : BitVec 2) ++ cv) false va.q m 0
/-- The word of VCVTF32 (R215). -/
def wVcvtf32 (vd : Reg) (va : VSrc) (cv : BitVec 3) (m : Msk) : BitVec 32 :=
  encVA 0x1F vd va.field ((0 : BitVec 2) ++ cv) false va.q m 1
/-- The word of VCVTF16 (R215). -/
def wVcvtf16 (vd : Reg) (va : VSrc) (cv : BitVec 3) (m : Msk) : BitVec 32 :=
  encVA 0x1F vd va.field ((0 : BitVec 2) ++ cv) false va.q m 2
/-- The word of VCVTBF16 (R215). -/
def wVcvtbf16 (vd : Reg) (va : VSrc) (cv : BitVec 3) (m : Msk) : BitVec 32 :=
  encVA 0x1F vd va.field ((0 : BitVec 2) ++ cv) false va.q m 3
/-- The word of VCVTE4M3 (R215). -/
def wVcvte4m3 (vd : Reg) (va : VSrc) (cv : BitVec 3) (m : Msk) : BitVec 32 :=
  encVA 0x1F vd va.field ((0 : BitVec 2) ++ cv) false va.q m 4
/-- The word of VCVTE5M2 (R215). -/
def wVcvte5m2 (vd : Reg) (va : VSrc) (cv : BitVec 3) (m : Msk) : BitVec 32 :=
  encVA 0x1F vd va.field ((0 : BitVec 2) ++ cv) false va.q m 5
/-- The word of VCVTE4M3S (R215). -/
def wVcvte4m3s (vd : Reg) (va : VSrc) (cv : BitVec 3) (m : Msk) : BitVec 32 :=
  encVA 0x1F vd va.field ((0 : BitVec 2) ++ cv) false va.q m 6
/-- The word of VCVTE5M2S (R215). -/
def wVcvte5m2s (vd : Reg) (va : VSrc) (cv : BitVec 3) (m : Msk) : BitVec 32 :=
  encVA 0x1F vd va.field ((0 : BitVec 2) ++ cv) false va.q m 7
/-- The word of VCVTI8 (R215). -/
def wVcvti8 (vd : Reg) (va : VSrc) (cv : BitVec 3) (m : Msk) : BitVec 32 :=
  encVA 0x1F vd va.field ((0 : BitVec 2) ++ cv) false va.q m 8
/-- The word of VCVTI16 (R215). -/
def wVcvti16 (vd : Reg) (va : VSrc) (cv : BitVec 3) (m : Msk) : BitVec 32 :=
  encVA 0x1F vd va.field ((0 : BitVec 2) ++ cv) false va.q m 9
/-- The word of VCVTI32 (R215). -/
def wVcvti32 (vd : Reg) (va : VSrc) (cv : BitVec 3) (m : Msk) : BitVec 32 :=
  encVA 0x1F vd va.field ((0 : BitVec 2) ++ cv) false va.q m 10
/-- The word of VCVTI64 (R215). -/
def wVcvti64 (vd : Reg) (va : VSrc) (cv : BitVec 3) (m : Msk) : BitVec 32 :=
  encVA 0x1F vd va.field ((0 : BitVec 2) ++ cv) false va.q m 11
/-- The word of VCVTFI (R216). -/
def wVcvtfi (vd va : Reg) (m : Msk) : BitVec 32 :=
  encVA 0x1F vd va 0 false false m 12
/-- The word of VQNT (R219). -/
def wVqnt (vd : Reg) (va : VSrc) (vb : Reg) (k : Bool) (m : Msk) : BitVec 32 :=
  encVA 0x1F vd va.field vb k va.q m 13
/-- The word of VDEQ (R219). -/
def wVdeq (vd : Reg) (va : VSrc) (vb : Reg) (k : Bool) (m : Msk) : BitVec 32 :=
  encVA 0x1F vd va.field vb k va.q m 14
/-- The word of VMXQ (R220). -/
def wVmxq (vd : Reg) (va : VSrc) (vb : Reg) (k : Bool) (m : Msk) : BitVec 32 :=
  encVA 0x1F vd va.field vb k va.q m 15
/-- The word of VMXD (R221). -/
def wVmxd (vd : Reg) (va : VSrc) (vb : Reg) (k : Bool) (m : Msk) : BitVec 32 :=
  encVA 0x1F vd va.field vb k va.q m 16
/-- The word of VSLUP (R223). -/
def wVslup (vd : Reg) (va : VSrc) (xb : Reg) (m : Msk) : BitVec 32 :=
  encVA 0x20 vd va.field xb true va.q m 0
/-- The word of VSLDN (R223). -/
def wVsldn (vd : Reg) (va : VSrc) (xb : Reg) (m : Msk) : BitVec 32 :=
  encVA 0x20 vd va.field xb true va.q m 1
/-- The word of VROT (R223). -/
def wVrot (vd : Reg) (va : VSrc) (xb : Reg) (m : Msk) : BitVec 32 :=
  encVA 0x20 vd va.field xb true va.q m 2
/-- The word of VPERM (R223). -/
def wVperm (vd : Reg) (va : VSrc) (vb : Reg) (m : Msk) : BitVec 32 :=
  encVA 0x20 vd va.field vb false va.q m 3
/-- The word of VBCAST (R223). -/
def wVbcast (vd : Reg) (va : VSrc) (xb : Reg) (m : Msk) : BitVec 32 :=
  encVA 0x20 vd va.field xb true va.q m 4
/-- The word of VMVXS (R224). -/
def wVmvxs (xd : Reg) (va : VSrc) : BitVec 32 :=
  encVA 0x20 xd va.field 0 false va.q Msk.all 5
/-- The word of VMVSX (R224). -/
def wVmvsx (vd xb : Reg) (m : Msk) : BitVec 32 :=
  encVA 0x20 vd 0 xb true false m 6
/-- The word of VZIP (R223). -/
def wVzip (vd : Reg) (va : VSrc) (vb : Reg) (m : Msk) : BitVec 32 :=
  encVA 0x20 vd va.field vb false va.q m 7
/-- The word of VUNZIP (R223). -/
def wVunzip (vd : Reg) (va : VSrc) (xb : Reg) (m : Msk) : BitVec 32 :=
  encVA 0x20 vd va.field xb true va.q m 8
/-- The word of VREV (R223). -/
def wVrev (vd : Reg) (va : VSrc) (m : Msk) : BitVec 32 :=
  encVA 0x20 vd va.field 0 false va.q m 9
/-- The word of VMERGE (R224). -/
def wVmerge (vd : Reg) (va : VSrc) (vb : VbSrc) (m : Msk) : BitVec 32 :=
  encVA 0x20 vd va.field vb.field vb.k va.q m 10
/-- The word of VMV (R223). -/
def wVmv (vd : Reg) (va : VSrc) (m : Msk) : BitVec 32 :=
  encVA 0x20 vd va.field 0 false va.q m 11
/-- The word of VCOMPRESS (R233). -/
def wVcompress (vd : Reg) (va : VSrc) (m : Msk) : BitVec 32 :=
  encVA 0x21 vd va.field 0 false va.q m 0
/-- The word of VEXPAND (R235). -/
def wVexpand (vd : Reg) (va : VSrc) (m : Msk) : BitVec 32 :=
  encVA 0x21 vd va.field 0 false va.q m 1
/-- The word of VPOPX (R234). -/
def wVpopx (vd : Reg) (m : Msk) : BitVec 32 :=
  encVA 0x21 vd 0 0 false false m 2
/-- The word of VCONF (R236). -/
def wVconf (md : BitVec 3) (va : VSrc) (m : Msk) : BitVec 32 :=
  encVA 0x21 ((0 : BitVec 2) ++ md) va.field 0 false va.q m 3
/-- The word of VSSCAN (R238). -/
def wVsscan (vd : Reg) (va : VSrc) (h : Head) (m : Msk) : BitVec 32 :=
  encVA 0x21 vd va.field h.field false va.q m 4
/-- The word of VSSCANMAX (R238). -/
def wVsscanmax (vd : Reg) (va : VSrc) (h : Head) (m : Msk) : BitVec 32 :=
  encVA 0x21 vd va.field h.field false va.q m 5
/-- The word of VFSSCAN (R238). -/
def wVfsscan (vd : Reg) (va : VSrc) (h : Head) (m : Msk) : BitVec 32 :=
  encVA 0x21 vd va.field h.field false va.q m 6
/-- The word of VFIRST (R239). -/
def wVfirst (d : Reg) (ma : BitVec 3) (m : Msk) : BitVec 32 :=
  encVA 0x21 d ((0 : BitVec 2) ++ ma) 0 false false m 7
/-- The word of VCPOP (R239). -/
def wVcpop (d : Reg) (ma : BitVec 3) (m : Msk) : BitVec 32 :=
  encVA 0x21 d ((0 : BitVec 2) ++ ma) 0 false false m 8
/-- The word of VIOTA (R239). -/
def wViota (d : Reg) (ma : BitVec 3) (m : Msk) : BitVec 32 :=
  encVA 0x21 d ((0 : BitVec 2) ++ ma) 0 false false m 9
/-- The word of VBLKLIST (R241). -/
def wVblklist (vd : Reg) (va : VSrc) (xb : Reg) : BitVec 32 :=
  encVA 0x21 vd va.field xb true va.q Msk.all 10
/-- The word of VREDSUM (R228). -/
def wVredsum (vd : Reg) (va : VSrc) (vb : VbSrc) (m : Msk) : BitVec 32 :=
  encVA 0x22 vd va.field vb.field vb.k va.q m 0
/-- The word of VREDMAX (R228). -/
def wVredmax (vd : Reg) (va : VSrc) (vb : VbSrc) (m : Msk) : BitVec 32 :=
  encVA 0x22 vd va.field vb.field vb.k va.q m 1
/-- The word of VREDMIN (R228). -/
def wVredmin (vd : Reg) (va : VSrc) (vb : VbSrc) (m : Msk) : BitVec 32 :=
  encVA 0x22 vd va.field vb.field vb.k va.q m 2
/-- The word of VREDMAXN (R228). -/
def wVredmaxn (vd : Reg) (va : VSrc) (vb : VbSrc) (m : Msk) : BitVec 32 :=
  encVA 0x22 vd va.field vb.field vb.k va.q m 3
/-- The word of VREDMINN (R228). -/
def wVredminn (vd : Reg) (va : VSrc) (vb : VbSrc) (m : Msk) : BitVec 32 :=
  encVA 0x22 vd va.field vb.field vb.k va.q m 4
/-- The word of VREDAND (R228). -/
def wVredand (vd : Reg) (va : VSrc) (vb : VbSrc) (m : Msk) : BitVec 32 :=
  encVA 0x22 vd va.field vb.field vb.k va.q m 5
/-- The word of VREDOR (R228). -/
def wVredor (vd : Reg) (va : VSrc) (vb : VbSrc) (m : Msk) : BitVec 32 :=
  encVA 0x22 vd va.field vb.field vb.k va.q m 6
/-- The word of VREDXOR (R228). -/
def wVredxor (vd : Reg) (va : VSrc) (vb : VbSrc) (m : Msk) : BitVec 32 :=
  encVA 0x22 vd va.field vb.field vb.k va.q m 7
/-- The word of VFREDO (R173). -/
def wVfredo (vd : Reg) (va : VSrc) (vb : VbSrc) (m : Msk) : BitVec 32 :=
  encVA 0x22 vd va.field vb.field vb.k va.q m 8
/-- The word of VFREDT (R174). -/
def wVfredt (vd : Reg) (va : VSrc) (vb : VbSrc) (m : Msk) : BitVec 32 :=
  encVA 0x22 vd va.field vb.field vb.k va.q m 9
/-- The word of VFREDMAX (R228). -/
def wVfredmax (vd : Reg) (va : VSrc) (vb : VbSrc) (m : Msk) : BitVec 32 :=
  encVA 0x22 vd va.field vb.field vb.k va.q m 10
/-- The word of VFREDMIN (R228). -/
def wVfredmin (vd : Reg) (va : VSrc) (vb : VbSrc) (m : Msk) : BitVec 32 :=
  encVA 0x22 vd va.field vb.field vb.k va.q m 11
/-- The word of VTOPK (R244). -/
def wVtopk (vd : Reg) (va : VSrc) (xb : Reg) (m : Msk) : BitVec 32 :=
  encVA 0x22 vd va.field xb true va.q m 12
/-- The word of VTOPKM (R245). -/
def wVtopkm (d a b : Reg) : BitVec 32 :=
  encVA 0x22 d a b false false Msk.all 13
/-- The word of VMSEQ (R225). -/
def wVmseq (md : BitVec 3) (va : VSrc) (vb : VbSrc) (m : Msk) : BitVec 32 :=
  encVA 0x23 ((0 : BitVec 2) ++ md) va.field vb.field vb.k va.q m 0
/-- The word of VMSNE (R225). -/
def wVmsne (md : BitVec 3) (va : VSrc) (vb : VbSrc) (m : Msk) : BitVec 32 :=
  encVA 0x23 ((0 : BitVec 2) ++ md) va.field vb.field vb.k va.q m 1
/-- The word of VMSLT (R225). -/
def wVmslt (md : BitVec 3) (va : VSrc) (vb : VbSrc) (m : Msk) : BitVec 32 :=
  encVA 0x23 ((0 : BitVec 2) ++ md) va.field vb.field vb.k va.q m 2
/-- The word of VMSLTN (R225). -/
def wVmsltn (md : BitVec 3) (va : VSrc) (vb : VbSrc) (m : Msk) : BitVec 32 :=
  encVA 0x23 ((0 : BitVec 2) ++ md) va.field vb.field vb.k va.q m 3
/-- The word of VMSLE (R225). -/
def wVmsle (md : BitVec 3) (va : VSrc) (vb : VbSrc) (m : Msk) : BitVec 32 :=
  encVA 0x23 ((0 : BitVec 2) ++ md) va.field vb.field vb.k va.q m 4
/-- The word of VMSLEN (R225). -/
def wVmslen (md : BitVec 3) (va : VSrc) (vb : VbSrc) (m : Msk) : BitVec 32 :=
  encVA 0x23 ((0 : BitVec 2) ++ md) va.field vb.field vb.k va.q m 5
/-- The word of VMFEQ (R225). -/
def wVmfeq (md : BitVec 3) (va : VSrc) (vb : VbSrc) (m : Msk) : BitVec 32 :=
  encVA 0x23 ((0 : BitVec 2) ++ md) va.field vb.field vb.k va.q m 6
/-- The word of VMFLT (R225). -/
def wVmflt (md : BitVec 3) (va : VSrc) (vb : VbSrc) (m : Msk) : BitVec 32 :=
  encVA 0x23 ((0 : BitVec 2) ++ md) va.field vb.field vb.k va.q m 7
/-- The word of VMFLE (R225). -/
def wVmfle (md : BitVec 3) (va : VSrc) (vb : VbSrc) (m : Msk) : BitVec 32 :=
  encVA 0x23 ((0 : BitVec 2) ++ md) va.field vb.field vb.k va.q m 8
/-- The word of VMFNAN (R225). -/
def wVmfnan (md : BitVec 3) (va : Reg) (m : Msk) : BitVec 32 :=
  encVA 0x23 ((0 : BitVec 2) ++ md) va 0 false false m 9
/-- The word of VMAND (R226). -/
def wVmand (md ma mb : BitVec 3) : BitVec 32 :=
  encVA 0x23 ((0 : BitVec 2) ++ md) ((0 : BitVec 2) ++ ma) ((0 : BitVec 2) ++ mb) false false Msk.all 10
/-- The word of VMOR (R226). -/
def wVmor (md ma mb : BitVec 3) : BitVec 32 :=
  encVA 0x23 ((0 : BitVec 2) ++ md) ((0 : BitVec 2) ++ ma) ((0 : BitVec 2) ++ mb) false false Msk.all 11
/-- The word of VMXOR (R226). -/
def wVmxor (md ma mb : BitVec 3) : BitVec 32 :=
  encVA 0x23 ((0 : BitVec 2) ++ md) ((0 : BitVec 2) ++ ma) ((0 : BitVec 2) ++ mb) false false Msk.all 12
/-- The word of VMANDN (R226). -/
def wVmandn (md ma mb : BitVec 3) : BitVec 32 :=
  encVA 0x23 ((0 : BitVec 2) ++ md) ((0 : BitVec 2) ++ ma) ((0 : BitVec 2) ++ mb) false false Msk.all 13
/-- The word of VMNOT (R226). -/
def wVmnot (md ma : BitVec 3) : BitVec 32 :=
  encVA 0x23 ((0 : BitVec 2) ++ md) ((0 : BitVec 2) ++ ma) 0 false false Msk.all 14
/-- The word of VMMV (R226). -/
def wVmmv (md ma : BitVec 3) : BitVec 32 :=
  encVA 0x23 ((0 : BitVec 2) ++ md) ((0 : BitVec 2) ++ ma) 0 false false Msk.all 15
/-- The word of VMMVC (R226). -/
def wVmmvc (md : BitVec 3) : BitVec 32 :=
  encVA 0x23 ((0 : BitVec 2) ++ md) 0 0 false false Msk.all 16
/-- The word of VMFROMX (R226). -/
def wVmfromx (md : BitVec 3) (xa xb : Reg) : BitVec 32 :=
  encVA 0x23 ((0 : BitVec 2) ++ md) xa xb false false Msk.all 17
/-- The word of VMTOX (R226). -/
def wVmtox (xd : Reg) (ma : BitVec 3) (xb : Reg) : BitVec 32 :=
  encVA 0x23 xd ((0 : BitVec 2) ++ ma) xb false false Msk.all 18
/-- The word of TCLAIM (R250). -/
def wTclaim (xd : Reg) (acc : BitVec 2) (int : Bool) : BitVec 32 :=
  encRRR 0x28 xd 0 (boolField int) (encTileFn acc 0)
/-- The word of TFREE (R250). -/
def wTfree (acc : BitVec 2) : BitVec 32 :=
  encRRR 0x28 0 0 0 (encTileFn acc 1)
/-- The word of TZERO (R250). -/
def wTzero (acc : BitVec 2) (int : Bool) : BitVec 32 :=
  encRRR 0x28 0 0 (boolField int) (encTileFn acc 2)
/-- The word of TRDROW (R263). -/
def wTrdrow (vd : Reg) (acc : BitVec 2) (xa : Reg) : BitVec 32 :=
  encRRR 0x28 vd xa 0 (encTileFn acc 3)
/-- The word of TRDCOL (R263). -/
def wTrdcol (vd : Reg) (acc : BitVec 2) (xa : Reg) : BitVec 32 :=
  encRRR 0x28 vd xa 0 (encTileFn acc 4)
/-- The word of TWRROW (R263). -/
def wTwrrow (acc : BitVec 2) (xa vb : Reg) : BitVec 32 :=
  encRRR 0x28 0 xa vb (encTileFn acc 5)
/-- The word of TWRCOL (R263). -/
def wTwrcol (acc : BitVec 2) (xa vb : Reg) : BitVec 32 :=
  encRRR 0x28 0 xa vb (encTileFn acc 6)
/-- The word of TSTAT (R251). -/
def wTstat (xd : Reg) (acc : BitVec 2) : BitVec 32 :=
  encRRR 0x28 xd 0 0 (encTileFn acc 7)
/-- The word of TMOP (R256). -/
def wTmop (acc : BitVec 2) (f : TmFmt) (src : TmSrc) (rp : BitVec 3) (sub sat : Bool) : BitVec 32 :=
  encTM 0x29 acc f src.fieldA src.fieldB rp src.q sub sat false
/-- The word of TMOP_MS (R260). -/
def wTmopMs (acc : BitVec 2) (f : TmFmt) (va vb : Queue) (rp : BitVec 3) (sub sat : Bool) : BitVec 32 :=
  encTM 0x29 acc f va.field vb.field rp true sub sat true
/-- The word of QCFG (R197). -/
def wQcfg (ring : BitVec 3) (a b : Reg) : BitVec 32 :=
  encRRR 0x2A ((0 : BitVec 2) ++ ring) a b 0
/-- The word of QPUSH (R197). -/
def wQpush (dst : Queue) (vs : Reg) : BitVec 32 :=
  encRRR 0x2A dst.field vs 0 1
/-- The word of QPOP (R197). -/
def wQpop (vd : Reg) (src : Queue) : BitVec 32 :=
  encRRR 0x2A vd src.field 0 2
/-- The word of QWAIT (R197). -/
def wQwait (xd : Reg) (src : Queue) (xb : Reg) : BitVec 32 :=
  encRRR 0x2A xd src.field xb 3
/-- The word of QZF (R197). -/
def wQzf (xd : Reg) (ring : BitVec 3) (xb : Reg) : BitVec 32 :=
  encRRR 0x2A xd ((0 : BitVec 2) ++ ring) xb 4
/-- The word of CCMAP (R307). -/
def wCcmap (d a : Reg) : BitVec 32 :=
  encRRR 0x2B d a 0 0
/-- The word of CCUNMAP (R310). -/
def wCcunmap (a : Reg) : BitVec 32 :=
  encRRR 0x2B 0 a 0 1
/-- The word of CCFLUSH (R310). -/
def wCcflush (a : Reg) : BitVec 32 :=
  encRRR 0x2B 0 a 0 2
/-- The word of CCSTAT (R311). -/
def wCcstat (d a : Reg) : BitVec 32 :=
  encRRR 0x2B d a 0 3
/-- The word of FX (R346). -/
def wFx (slot vd va vb xs : Reg) : BitVec 32 :=
  encFI 0x2C vd va vb slot false xs
/-- The word of FX_C (R353). -/
def wFxC (slot vd va vb xs : Reg) : BitVec 32 :=
  encFI 0x2C vd va vb slot true xs
/-- The word of FXBIND (R342). -/
def wFxbind (d a b : Reg) : BitVec 32 :=
  encRRR 0x2D d a b 0
/-- The word of FXUNBIND (R343). -/
def wFxunbind (a : Reg) : BitVec 32 :=
  encRRR 0x2D 0 a 0 1
/-- The word of FXSTAT (R344). -/
def wFxstat (d a : Reg) : BitVec 32 :=
  encRRR 0x2D d a 0 2
/-- The word of FXQUERY (R344). -/
def wFxquery (d a b : Reg) : BitVec 32 :=
  encRRR 0x2D d a b 3
/-- The word of FXPIN (R345). -/
def wFxpin (d a : Reg) : BitVec 32 :=
  encRRR 0x2D d a 0 4
/-- The word of FXUNPIN (R345). -/
def wFxunpin (a : Reg) : BitVec 32 :=
  encRRR 0x2D 0 a 0 5
/-- The word of RECV (R360). -/
def wRecv (d a : Reg) : BitVec 32 :=
  encRRR 0x2E d a 0 0
/-- The word of SEND (R361). -/
def wSend (d a : Reg) : BitVec 32 :=
  encRRR 0x2E d a 0 1
/-- The word of SEND_E (R361). -/
def wSendE (d a : Reg) : BitVec 32 :=
  encRRR 0x2E d a 1 1
/-- The word of STEER (R362). -/
def wSteer (d a b : Reg) : BitVec 32 :=
  encRRR 0x2E d a b 2
/-- The word of MERGE (R363). -/
def wMerge (d a b : Reg) : BitVec 32 :=
  encRRR 0x2E d a b 3
/-- The word of PRIME (R364). -/
def wPrime (d a : Reg) : BitVec 32 :=
  encRRR 0x2E d a 0 4
/-- The word of TOKW (R365). -/
def wTokw (a : Reg) : BitVec 32 :=
  encRRR 0x2E 0 a 0 5
/-- The word of TOKS (R365). -/
def wToks (d : Reg) : BitVec 32 :=
  encRRR 0x2E d 0 0 6
/-- The word of LPEEK (R360). -/
def wLpeek (d a : Reg) : BitVec 32 :=
  encRRR 0x2E d a 0 7
/-- The word of CPY1D (R375). -/
def wCpy1d (d a b : Reg) : BitVec 32 :=
  encRRR 0x30 d a b 0
/-- The word of CPYBOX (R376). -/
def wCpybox (d a b : Reg) : BitVec 32 :=
  encRRR 0x30 d a b 1
/-- The word of CPYFILL (R378). -/
def wCpyfill (d a b : Reg) : BitVec 32 :=
  encRRR 0x30 d a b 2
/-- The word of CWAIT (R380). -/
def wCwait (a b : Reg) : BitVec 32 :=
  encRRR 0x30 0 a b 3
/-- The word of CSTAT (R382). -/
def wCstat (d a : Reg) : BitVec 32 :=
  encRRR 0x30 d a 0 4
/-- The word of CPYARM (R381). -/
def wCpyarm (a b : Reg) : BitVec 32 :=
  encRRR 0x30 0 a b 5
/-- The word of FENCE (R401). -/
def wFence (kinds : BitVec 5) (sc : Scope) : BitVec 32 :=
  encRRR 0x31 kinds 0 0 (encSyncFn sc)
/-- The word of BARINIT (R412). -/
def wBarinit (d a b : Reg) : BitVec 32 :=
  encRRR 0x31 d a b 1
/-- The word of BARRIVE (R413). -/
def wBarrive (d a b : Reg) : BitVec 32 :=
  encRRR 0x31 d a b 2
/-- The word of BARWAIT (R414). -/
def wBarwait (a b : Reg) : BitVec 32 :=
  encRRR 0x31 0 a b 3
/-- The word of BARPOLL (R414). -/
def wBarpoll (d a : Reg) : BitVec 32 :=
  encRRR 0x31 d a 0 4
/-- The word of HBEAT (R419). -/
def wHbeat : BitVec 32 :=
  encRRR 0x31 0 0 0 5
/-- The word of UIEN (R424). -/
def wUien (d a : Reg) : BitVec 32 :=
  encRRR 0x31 d a 0 6
/-- The word of UIDIS (R424). -/
def wUidis (d a : Reg) : BitVec 32 :=
  encRRR 0x31 d a 0 7
/-- The word of YIELD (R420). -/
def wYield : BitVec 32 :=
  encRRR 0x31 0 0 0 8
/-- The word of TSPAWN (R428). -/
def wTspawn (d a : Reg) : BitVec 32 :=
  encRRR 0x32 d a 0 0
/-- The word of TRUN (R430). -/
def wTrun (d a b : Reg) : BitVec 32 :=
  encRRR 0x32 d a b 1
/-- The word of TDONE (R432). -/
def wTdone : BitVec 32 :=
  encRRR 0x32 0 0 0 2
/-- The word of TFUT (R433). -/
def wTfut (d a : Reg) : BitVec 32 :=
  encRRR 0x32 d a 0 3
/-- The word of TFSET (R433). -/
def wTfset (a b : Reg) : BitVec 32 :=
  encRRR 0x32 0 a b 4
/-- The word of TFWAIT (R433). -/
def wTfwait (d a : Reg) : BitVec 32 :=
  encRRR 0x32 d a 0 5
/-- The word of TQCFG (R434). -/
def wTqcfg (d a b : Reg) : BitVec 32 :=
  encRRR 0x32 d a b 6
/-- The word of SFARM (R441). -/
def wSfarm (d a b : Reg) : BitVec 32 :=
  encRRR 0x33 d a b 0
/-- The word of SPUB (R443). -/
def wSpub (d a : Reg) : BitVec 32 :=
  encRRR 0x33 d a 0 1
/-- The word of SSPAWN (R446). -/
def wSspawn (d a b : Reg) : BitVec 32 :=
  encRRR 0x33 d a b 2
/-- The word of SSTAT (R445). -/
def wSstat (d a : Reg) : BitVec 32 :=
  encRRR 0x33 d a 0 3
/-- The word of SABORT (R454). -/
def wSabort (d a : Reg) : BitVec 32 :=
  encRRR 0x33 d a 0 4
/-- The word of SQINIT (R458). -/
def wSqinit (d a : Reg) : BitVec 32 :=
  encRRR 0x34 d a 0 0
/-- The word of SQTAB (R459). -/
def wSqtab (d a : Reg) : BitVec 32 :=
  encRRR 0x34 d a 0 1
/-- The word of SQADD (R462). -/
def wSqadd (d a : Reg) : BitVec 32 :=
  encRRR 0x34 d a 0 2
/-- The word of SQGO (R463). -/
def wSqgo (d : Reg) : BitVec 32 :=
  encRRR 0x34 d 0 0 3
/-- The word of SQSTAT (R472). -/
def wSqstat (d a : Reg) : BitVec 32 :=
  encRRR 0x34 d a 0 4
/-- The word of SQEND (R473). -/
def wSqend (d : Reg) : BitVec 32 :=
  encRRR 0x34 d 0 0 5

/-- The word of an instruction, from the formats of R102 and the codes of R108 to R110; none for a step that has
no instruction word. -/
def encode : Instr → Option (BitVec 32)
  | .ill => some wIll
  | .xcall => some wXcall
  | .fcall => some wFcall
  | .brk => some wBrk
  | .eret => some wEret
  | .uiret => some wUiret
  | .wfe a => some (wWfe a)
  | .tlbinvPage a b => some (wTlbinvPage a b)
  | .tlbinvAsid b => some (wTlbinvAsid b)
  | .tlbinvAll => some wTlbinvAll
  | .cwbCore => some wCwbCore
  | .cwbDie => some wCwbDie
  | .cwbDevice => some wCwbDevice
  | .cwbImage a b => some (wCwbImage a b)
  | .halt => some wHalt
  | .add d a b => some (wAdd d a b)
  | .sub d a b => some (wSub d a b)
  | .and d a b => some (wAnd d a b)
  | .or d a b => some (wOr d a b)
  | .xor d a b => some (wXor d a b)
  | .andn d a b => some (wAndn d a b)
  | .orn d a b => some (wOrn d a b)
  | .sll d a b => some (wSll d a b)
  | .srl d a b => some (wSrl d a b)
  | .sra d a b => some (wSra d a b)
  | .rotl d a b => some (wRotl d a b)
  | .rotr d a b => some (wRotr d a b)
  | .slt d a b => some (wSlt d a b)
  | .sltn d a b => some (wSltn d a b)
  | .min d a b => some (wMin d a b)
  | .max d a b => some (wMax d a b)
  | .minn d a b => some (wMinn d a b)
  | .maxn d a b => some (wMaxn d a b)
  | .mul d a b => some (wMul d a b)
  | .mulh d a b => some (wMulh d a b)
  | .mulhn d a b => some (wMulhn d a b)
  | .div d a b => some (wDiv d a b)
  | .divn d a b => some (wDivn d a b)
  | .rem d a b => some (wRem d a b)
  | .remn d a b => some (wRemn d a b)
  | .clz d a => some (wClz d a)
  | .ctz d a => some (wCtz d a)
  | .popc d a => some (wPopc d a)
  | .bswap d a => some (wBswap d a)
  | .addi d a imm => some (wAddi d a imm)
  | .andi d a imm => some (wAndi d a imm)
  | .ori d a imm => some (wOri d a imm)
  | .xori d a imm => some (wXori d a imm)
  | .slti d a imm => some (wSlti d a imm)
  | .sltni d a imm => some (wSltni d a imm)
  | .sllI d a amount => some (wSllI d a amount)
  | .srlI d a amount => some (wSrlI d a amount)
  | .sraI d a amount => some (wSraI d a amount)
  | .rotrI d a amount => some (wRotrI d a amount)
  | .lui d imm => some (wLui d imm)
  | .auipc d imm => some (wAuipc d imm)
  | .ld8 d a off => some (wLd8 d a off)
  | .ld8s d a off => some (wLd8s d a off)
  | .ld16 d a off => some (wLd16 d a off)
  | .ld16s d a off => some (wLd16s d a off)
  | .ld32 d a off => some (wLd32 d a off)
  | .ld32s d a off => some (wLd32s d a off)
  | .ld64 d a off => some (wLd64 d a off)
  | .st8 r a off => some (wSt8 r a off)
  | .st16 r a off => some (wSt16 r a off)
  | .st32 r a off => some (wSt32 r a off)
  | .st64 r a off => some (wSt64 r a off)
  | .ldacq sc d a => some (wLdacq sc d a)
  | .strel sc a b => some (wStrel sc a b)
  | .amoswap sc d a b => some (wAmoswap sc d a b)
  | .amoadd sc d a b => some (wAmoadd sc d a b)
  | .amoand sc d a b => some (wAmoand sc d a b)
  | .amoor sc d a b => some (wAmoor sc d a b)
  | .amoxor sc d a b => some (wAmoxor sc d a b)
  | .amomin sc d a b => some (wAmomin sc d a b)
  | .amomax sc d a b => some (wAmomax sc d a b)
  | .amominn sc d a b => some (wAmominn sc d a b)
  | .amomaxn sc d a b => some (wAmomaxn sc d a b)
  | .amocas sc d a b => some (wAmocas sc d a b)
  | .ldf sc d a => some (wLdf sc d a)
  | .ldc sc d a => some (wLdc sc d a)
  | .stf sc a b => some (wStf sc a b)
  | .beq a b off => some (wBeq a b off)
  | .bne a b off => some (wBne a b off)
  | .blt a b off => some (wBlt a b off)
  | .bge a b off => some (wBge a b off)
  | .bltn a b off => some (wBltn a b off)
  | .bgen a b off => some (wBgen a b off)
  | .jl off => some (wJl off)
  | .jlr d a imm => some (wJlr d a imm)
  | .fadd f r d a b => some (wFadd f r d a b)
  | .fsub f r d a b => some (wFsub f r d a b)
  | .fmul f r d a b => some (wFmul f r d a b)
  | .fdiv f r d a b => some (wFdiv f r d a b)
  | .fsqrt f r d a => some (wFsqrt f r d a)
  | .fmadd f r d a b => some (wFmadd f r d a b)
  | .fmin f r d a b => some (wFmin f r d a b)
  | .fmax f r d a b => some (wFmax f r d a b)
  | .fneg f r d a => some (wFneg f r d a)
  | .fabs f r d a => some (wFabs f r d a)
  | .fcmpeq f r d a b => some (wFcmpeq f r d a b)
  | .fcmplt f r d a b => some (wFcmplt f r d a b)
  | .fcmple f r d a b => some (wFcmple f r d a b)
  | .fclass f r d a => some (wFclass f r d a)
  | .fcvtfi f r t d a => some (wFcvtfi f r t d a)
  | .fcvtif f r t d a => some (wFcvtif f r t d a)
  | .fcvtff f r d a => some (wFcvtff f r d a)
  | .mfs d spr => some (wMfs d spr)
  | .mts spr a => some (wMts spr a)
  | .sset spr a => some (wSset spr a)
  | .sclr spr a => some (wSclr spr a)
  | .tloop n b off => some (wTloop n b off)
  | .vsetl d a vt => some (wVsetl d a vt)
  | .vsetlx d a b => some (wVsetlx d a b)
  | .vloop a vt => some (wVloop a vt)
  | .vlend np a len => some (wVlend np a len)
  | .vbreak a off => some (wVbreak a off)
  | .vdecl a => some (wVdecl a)
  | .vundecl => some wVundecl
  | .vslip a => some (wVslip a)
  | .vld v a o sb m ew => some (wVld v a o sb m ew)
  | .vlds v a b o sb m ew => some (wVlds v a b o sb m ew)
  | .vldq ring a o sb m ew => some (wVldq ring a o sb m ew)
  | .vldqk v a ring o sb m ew => some (wVldqk v a ring o sb m ew)
  | .vldb v a o sb m ew => some (wVldb v a o sb m ew)
  | .vldf v a o sb m ew => some (wVldf v a o sb m ew)
  | .vldp4 v a b o sb m => some (wVldp4 v a b o sb m)
  | .vst v a o sb m ew => some (wVst v a o sb m ew)
  | .vsts v a b o sb m ew => some (wVsts v a b o sb m ew)
  | .vstn v a o sb m ew => some (wVstn v a o sb m ew)
  | .vstsn v a b o sb m ew => some (wVstsn v a b o sb m ew)
  | .vstf v a o sb m ew => some (wVstf v a o sb m ew)
  | .vstq ring a o sb m ew => some (wVstq ring a o sb m ew)
  | .vgat v a b o sb m ew => some (wVgat v a b o sb m ew)
  | .vsca v a b o sb m ew => some (wVsca v a b o sb m ew)
  | .vgatw v a b o sb p ew => some (wVgatw v a b o sb p ew)
  | .vgl v a b o sb m ew => some (wVgl v a b o sb m ew)
  | .vscc v a b o sb p ew => some (wVscc v a b o sb p ew)
  | .vamoadd v a b o ret m => some (wVamoadd v a b o ret m)
  | .vamoand v a b o ret m => some (wVamoand v a b o ret m)
  | .vamoor v a b o ret m => some (wVamoor v a b o ret m)
  | .vamoxor v a b o ret m => some (wVamoxor v a b o ret m)
  | .vamomin v a b o ret m => some (wVamomin v a b o ret m)
  | .vamomax v a b o ret m => some (wVamomax v a b o ret m)
  | .vamominn v a b o ret m => some (wVamominn v a b o ret m)
  | .vamomaxn v a b o ret m => some (wVamomaxn v a b o ret m)
  | .vamoswap v a b o ret m => some (wVamoswap v a b o ret m)
  | .vamofadd v a b o ret m => some (wVamofadd v a b o ret m)
  | .vwait v a b o ret m => some (wVwait v a b o ret m)
  | .vadd vd va vb m => some (wVadd vd va vb m)
  | .vsub vd va vb m => some (wVsub vd va vb m)
  | .vrsub vd va vb m => some (wVrsub vd va vb m)
  | .vmul vd va vb m => some (wVmul vd va vb m)
  | .vmulh vd va vb m => some (wVmulh vd va vb m)
  | .vmulhn vd va vb m => some (wVmulhn vd va vb m)
  | .vdiv vd va vb m => some (wVdiv vd va vb m)
  | .vdivn vd va vb m => some (wVdivn vd va vb m)
  | .vrem vd va vb m => some (wVrem vd va vb m)
  | .vremn vd va vb m => some (wVremn vd va vb m)
  | .vmin vd va vb m => some (wVmin vd va vb m)
  | .vmax vd va vb m => some (wVmax vd va vb m)
  | .vminn vd va vb m => some (wVminn vd va vb m)
  | .vmaxn vd va vb m => some (wVmaxn vd va vb m)
  | .vand vd va vb m => some (wVand vd va vb m)
  | .vor vd va vb m => some (wVor vd va vb m)
  | .vxor vd va vb m => some (wVxor vd va vb m)
  | .vsll vd va vb m => some (wVsll vd va vb m)
  | .vsrl vd va vb m => some (wVsrl vd va vb m)
  | .vsra vd va vb m => some (wVsra vd va vb m)
  | .vadds vd va vb m => some (wVadds vd va vb m)
  | .vsubs vd va vb m => some (wVsubs vd va vb m)
  | .vaddsn vd va vb m => some (wVaddsn vd va vb m)
  | .vsubsn vd va vb m => some (wVsubsn vd va vb m)
  | .vmacc vd va vb m => some (wVmacc vd va vb m)
  | .vnmsac vd va vb m => some (wVnmsac vd va vb m)
  | .vwmul vd va vb m => some (wVwmul vd va vb m)
  | .vnsrl vd va vb m => some (wVnsrl vd va vb m)
  | .vfadd vd va vb m => some (wVfadd vd va vb m)
  | .vfsub vd va vb m => some (wVfsub vd va vb m)
  | .vfmul vd va vb m => some (wVfmul vd va vb m)
  | .vfdiv vd va vb m => some (wVfdiv vd va vb m)
  | .vfsqrt vd va m => some (wVfsqrt vd va m)
  | .vfrsqe vd va m => some (wVfrsqe vd va m)
  | .vfexp2 vd va m => some (wVfexp2 vd va m)
  | .vfmadd vd va vb m => some (wVfmadd vd va vb m)
  | .vfnmadd vd va vb m => some (wVfnmadd vd va vb m)
  | .vfmsub vd va vb m => some (wVfmsub vd va vb m)
  | .vfmin vd va vb m => some (wVfmin vd va vb m)
  | .vfmax vd va vb m => some (wVfmax vd va vb m)
  | .vfabs vd va m => some (wVfabs vd va m)
  | .vfneg vd va m => some (wVfneg vd va m)
  | .vfsgnj vd va vb m => some (wVfsgnj vd va vb m)
  | .vfclass vd va m => some (wVfclass vd va m)
  | .vcvtf64 vd va cv m => some (wVcvtf64 vd va cv m)
  | .vcvtf32 vd va cv m => some (wVcvtf32 vd va cv m)
  | .vcvtf16 vd va cv m => some (wVcvtf16 vd va cv m)
  | .vcvtbf16 vd va cv m => some (wVcvtbf16 vd va cv m)
  | .vcvte4m3 vd va cv m => some (wVcvte4m3 vd va cv m)
  | .vcvte5m2 vd va cv m => some (wVcvte5m2 vd va cv m)
  | .vcvte4m3s vd va cv m => some (wVcvte4m3s vd va cv m)
  | .vcvte5m2s vd va cv m => some (wVcvte5m2s vd va cv m)
  | .vcvti8 vd va cv m => some (wVcvti8 vd va cv m)
  | .vcvti16 vd va cv m => some (wVcvti16 vd va cv m)
  | .vcvti32 vd va cv m => some (wVcvti32 vd va cv m)
  | .vcvti64 vd va cv m => some (wVcvti64 vd va cv m)
  | .vcvtfi vd va m => some (wVcvtfi vd va m)
  | .vqnt vd va vb k m => some (wVqnt vd va vb k m)
  | .vdeq vd va vb k m => some (wVdeq vd va vb k m)
  | .vmxq vd va vb k m => some (wVmxq vd va vb k m)
  | .vmxd vd va vb k m => some (wVmxd vd va vb k m)
  | .vslup vd va xb m => some (wVslup vd va xb m)
  | .vsldn vd va xb m => some (wVsldn vd va xb m)
  | .vrot vd va xb m => some (wVrot vd va xb m)
  | .vperm vd va vb m => some (wVperm vd va vb m)
  | .vbcast vd va xb m => some (wVbcast vd va xb m)
  | .vmvxs xd va => some (wVmvxs xd va)
  | .vmvsx vd xb m => some (wVmvsx vd xb m)
  | .vzip vd va vb m => some (wVzip vd va vb m)
  | .vunzip vd va xb m => some (wVunzip vd va xb m)
  | .vrev vd va m => some (wVrev vd va m)
  | .vmerge vd va vb m => some (wVmerge vd va vb m)
  | .vmv vd va m => some (wVmv vd va m)
  | .vcompress vd va m => some (wVcompress vd va m)
  | .vexpand vd va m => some (wVexpand vd va m)
  | .vpopx vd m => some (wVpopx vd m)
  | .vconf md va m => some (wVconf md va m)
  | .vsscan vd va h m => some (wVsscan vd va h m)
  | .vsscanmax vd va h m => some (wVsscanmax vd va h m)
  | .vfsscan vd va h m => some (wVfsscan vd va h m)
  | .vfirst d ma m => some (wVfirst d ma m)
  | .vcpop d ma m => some (wVcpop d ma m)
  | .viota d ma m => some (wViota d ma m)
  | .vblklist vd va xb => some (wVblklist vd va xb)
  | .vredsum vd va vb m => some (wVredsum vd va vb m)
  | .vredmax vd va vb m => some (wVredmax vd va vb m)
  | .vredmin vd va vb m => some (wVredmin vd va vb m)
  | .vredmaxn vd va vb m => some (wVredmaxn vd va vb m)
  | .vredminn vd va vb m => some (wVredminn vd va vb m)
  | .vredand vd va vb m => some (wVredand vd va vb m)
  | .vredor vd va vb m => some (wVredor vd va vb m)
  | .vredxor vd va vb m => some (wVredxor vd va vb m)
  | .vfredo vd va vb m => some (wVfredo vd va vb m)
  | .vfredt vd va vb m => some (wVfredt vd va vb m)
  | .vfredmax vd va vb m => some (wVfredmax vd va vb m)
  | .vfredmin vd va vb m => some (wVfredmin vd va vb m)
  | .vtopk vd va xb m => some (wVtopk vd va xb m)
  | .vtopkm d a b => some (wVtopkm d a b)
  | .vmseq md va vb m => some (wVmseq md va vb m)
  | .vmsne md va vb m => some (wVmsne md va vb m)
  | .vmslt md va vb m => some (wVmslt md va vb m)
  | .vmsltn md va vb m => some (wVmsltn md va vb m)
  | .vmsle md va vb m => some (wVmsle md va vb m)
  | .vmslen md va vb m => some (wVmslen md va vb m)
  | .vmfeq md va vb m => some (wVmfeq md va vb m)
  | .vmflt md va vb m => some (wVmflt md va vb m)
  | .vmfle md va vb m => some (wVmfle md va vb m)
  | .vmfnan md va m => some (wVmfnan md va m)
  | .vmand md ma mb => some (wVmand md ma mb)
  | .vmor md ma mb => some (wVmor md ma mb)
  | .vmxor md ma mb => some (wVmxor md ma mb)
  | .vmandn md ma mb => some (wVmandn md ma mb)
  | .vmnot md ma => some (wVmnot md ma)
  | .vmmv md ma => some (wVmmv md ma)
  | .vmmvc md => some (wVmmvc md)
  | .vmfromx md xa xb => some (wVmfromx md xa xb)
  | .vmtox xd ma xb => some (wVmtox xd ma xb)
  | .tclaim xd acc int => some (wTclaim xd acc int)
  | .tfree acc => some (wTfree acc)
  | .tzero acc int => some (wTzero acc int)
  | .trdrow vd acc xa => some (wTrdrow vd acc xa)
  | .trdcol vd acc xa => some (wTrdcol vd acc xa)
  | .twrrow acc xa vb => some (wTwrrow acc xa vb)
  | .twrcol acc xa vb => some (wTwrcol acc xa vb)
  | .tstat xd acc => some (wTstat xd acc)
  | .tmop acc f src rp sub sat => some (wTmop acc f src rp sub sat)
  | .tmopMs acc f va vb rp sub sat => some (wTmopMs acc f va vb rp sub sat)
  | .qcfg ring a b => some (wQcfg ring a b)
  | .qpush dst vs => some (wQpush dst vs)
  | .qpop vd src => some (wQpop vd src)
  | .qwait xd src xb => some (wQwait xd src xb)
  | .qzf xd ring xb => some (wQzf xd ring xb)
  | .ccmap d a => some (wCcmap d a)
  | .ccunmap a => some (wCcunmap a)
  | .ccflush a => some (wCcflush a)
  | .ccstat d a => some (wCcstat d a)
  | .fx slot vd va vb xs => some (wFx slot vd va vb xs)
  | .fxC slot vd va vb xs => some (wFxC slot vd va vb xs)
  | .fxbind d a b => some (wFxbind d a b)
  | .fxunbind a => some (wFxunbind a)
  | .fxstat d a => some (wFxstat d a)
  | .fxquery d a b => some (wFxquery d a b)
  | .fxpin d a => some (wFxpin d a)
  | .fxunpin a => some (wFxunpin a)
  | .recv d a => some (wRecv d a)
  | .send d a => some (wSend d a)
  | .sendE d a => some (wSendE d a)
  | .steer d a b => some (wSteer d a b)
  | .merge d a b => some (wMerge d a b)
  | .prime d a => some (wPrime d a)
  | .tokw a => some (wTokw a)
  | .toks d => some (wToks d)
  | .lpeek d a => some (wLpeek d a)
  | .cpy1d d a b => some (wCpy1d d a b)
  | .cpybox d a b => some (wCpybox d a b)
  | .cpyfill d a b => some (wCpyfill d a b)
  | .cwait a b => some (wCwait a b)
  | .cstat d a => some (wCstat d a)
  | .cpyarm a b => some (wCpyarm a b)
  | .fence kinds sc => some (wFence kinds sc)
  | .barinit d a b => some (wBarinit d a b)
  | .barrive d a b => some (wBarrive d a b)
  | .barwait a b => some (wBarwait a b)
  | .barpoll d a => some (wBarpoll d a)
  | .hbeat => some wHbeat
  | .uien d a => some (wUien d a)
  | .uidis d a => some (wUidis d a)
  | .yield => some wYield
  | .tspawn d a => some (wTspawn d a)
  | .trun d a b => some (wTrun d a b)
  | .tdone => some wTdone
  | .tfut d a => some (wTfut d a)
  | .tfset a b => some (wTfset a b)
  | .tfwait d a => some (wTfwait d a)
  | .tqcfg d a b => some (wTqcfg d a b)
  | .sfarm d a b => some (wSfarm d a b)
  | .spub d a => some (wSpub d a)
  | .sspawn d a b => some (wSspawn d a b)
  | .sstat d a => some (wSstat d a)
  | .sabort d a => some (wSabort d a)
  | .sqinit d a => some (wSqinit d a)
  | .sqtab d a => some (wSqtab d a)
  | .sqadd d a => some (wSqadd d a)
  | .sqgo d => some (wSqgo d)
  | .sqstat d a => some (wSqstat d a)
  | .sqend d => some (wSqend d)
  | .doorbellWrite _ _ => none
  | .qcmdEnable _ => none
  | .qcmdDisable _ => none
  | .qcmdReset _ => none
  | .registerWrite _ _ => none
  | .quantumBoundary => none
  | .slotLoadComplete _ => none
  | .recordAccept => none
  | .imageCheck _ => none
  | .depWatchReevaluate _ => none
  | .depPoll _ => none
  | .kernelCompletion _ => none
  | .placementEvent _ => none
  | .backfillStop _ => none
  | .spiracleGrantWrite _ _ _ _ => none
  | .pageMoveEnd _ _ _ => none
  | .pageContextLoadComplete _ _ => none
  | .blockFetchComplete _ _ => none
  | .flitTransfer _ _ _ => none
  | .streamInputDelivery _ _ => none
  | .streamOutputTake _ => none
  | .invocationComplete _ => none
  | .fabricStop _ => none
  | .fabricDeadlock _ => none
  | .homeRead _ _ => none
  | .registration _ _ => none
  | .l1Eviction _ _ => none
  | .l2Eviction _ _ => none
  | .sectorFill _ _ => none
  | .cocoonFill _ _ _ => none
  | .requestResend _ _ => none
  | .memTimeout _ => none
  | .snoopInvalidate _ => none
  | .snoopData _ => none
  | .hostHdmRequest _ _ => none
  | .poolShelfFailure _ _ _ => none
  | .lostRangeWithdraw _ => none
  | .transferComplete _ _ _ => none
  | .transferFault _ _ => none
  | .linkedPhaseSeen _ _ => none
  | .uiDelivery _ => none
  | .wfeTimeout _ => none
  | .vwaitWatchMet _ => none
  | .tileZeroComplete _ _ => none
  | .scmdPreempt _ => none
  | .preemptSaveComplete _ => none
  | .scmdRestore _ => none
  | .taskReady _ _ => none
  | .trunTimeout _ => none
  | .forecastDecision _ _ => none
  | .sqStageLaunch _ => none
  | .sqStageComplete _ => none
  | .sqDecision _ => none
  | .heartbeatExpire _ => none
  | .runtimeExpire _ => none
  | .executiveWatchdog _ => none
  | .kcmdResume _ => none
  | .kcmdEnd _ => none
  | .kcmdCancel _ => none
  | .kcmdFault _ => none
  | .dbgctlHalt _ => none
  | .dbgctlResume _ => none
  | .debugSettleTimeout _ => none
  | .dbgdloRead _ => none
  | .dbgdloWrite _ _ => none
  | .dbgdhiWrite _ _ => none
  | .strandEnd _ => none
  | .resetDeassertion => none
  | .bootStageComplete _ => none
  | .devctlReady => none
  | .atsResponse _ _ _ => none
  | .priResponse _ _ => none
  | .atsInvalidation _ _ _ => none
  | .linkFlitReceive _ _ => none
  | .linkRetrain _ => none
  | .getVersion => none
  | .getCapabilities => none
  | .negotiateAlgorithms _ => none
  | .getDigests => none
  | .getCertificate _ _ => none
  | .challenge _ => none
  | .getMeasurements _ => none
  | .correctedError _ => none
  | .uncorrectableError _ => none
  | .coreFence _ => none
  | .dieFence _ => none
  | .selfTestPreempt _ => none
  | .clockLower _ => none
  | .clockRaise => none
  | .thermalShutdown => none
  | .notAnInstruction _ => none
  | .portLost _ _ => none
  | .portReturn _ _ => none
  | .noNewGroup _ => none
  | .selfTestComplete _ => none

/-- The decoder's answer for the instruction whose bits are w, numbered as spec/opcode_table.json numbers them: one
32-bit word for every row (R98); none where the decoder refuses it. -/
def decodeTableWord (_nbits w : Nat) : Option Instr :=
  match decode (BitVec.ofNat 32 w) with
  | .ok i => some i
  | .error _ => none

end

end Sys2Proof
end

