-- ==== Sys2Proof/Config.lean ====
section
/-! DEFINITION. What an implementation or the surroundings fix, and the free values: constants without a body, of
which no proof can see a value. Each is named in the assumption log. -/

namespace Sys2Proof

/-- A value that the spec leaves open, w bits wide; the argument is the counter State.freeCtr (assumption 4). -/
opaque Config.free (w n : Nat) : BitVec w

/-- Arithmetic-clock cycles that step n of the machine takes, beyond one (assumption 5). -/
opaque Config.extraCycles (n : Nat) : Nat

/-- Nanoseconds that step n of the machine takes (assumption 5). -/
opaque Config.nanoseconds (n : Nat) : Nat

/-- The package power in W, averaged over 1 ms, that is measured at step n (R508, R516; assumption 16). -/
opaque Config.power (n : Nat) : BitVec 16

/-- The temperature of the hottest junction in °C that is measured at step n (R508, R516; assumption 16). -/
opaque Config.junction (n : Nat) : BitVec 8

/-- The rollback fuses, set where blown, and the security version of the housekeeping firmware's image (R506; assumption 66). -/
opaque Config.rollbackFuses : BitVec 64
opaque Config.securityVersion : Nat

/-- How many beats of the vector instruction that comes next a pre-emption at step n finds done, counted from 1; 0 where that instruction
has not issued (R208; assumption 7). -/
opaque Config.beatsDone (n : Nat) : Nat

/-- A physical address above the bonded DRAM and below the device-link ranges lies in a pool region, not in host
memory (R314; assumption 13). -/
opaque Config.isPool (pa : Nat) : Bool

/-- At step n, the L2 of a die answers a read of its cores that misses in their L1 with the copy it holds of a word homed on
another die (R300, R313; assumption 44). -/
opaque Config.l2Answers (n : Nat) : Bool

/-- At step n, a dirty word of another home that leaves an L1 goes into the L2 of its own die, not to its home slice (R304, R313;
assumption 45). -/
opaque Config.evictsToDie (n : Nat) : Bool

/-- The SHAKE256 digest, 64 bytes, of a measured image (R506, R512; assumption 15). -/
opaque Config.measurement (index : Nat) : BitVec 512

/-- The SHAKE256 digest, 64 bytes, of a bit string given as its length and value (R512; assumption 15). -/
opaque Config.shake256 (bits v : Nat) : BitVec 512

/-- The certificate chain of slot 0 (R512; assumption 15). -/
opaque Config.certificate : List Byte

/-- The digest of the certificate chain in slot 0 (R512; assumption 15). -/
opaque Config.certificateDigest : BitVec 512

/-- The Ed448 signature of a challenge transcript (R512; assumption 15). -/
opaque Config.signature (bits v : Nat) : BitVec 912

/-- The revision of the housekeeping firmware, MAJOR and MINOR, which the image gives (R508; assumption 15). -/
opaque Config.fwRevision : BitVec 32

end Sys2Proof
end

