-- ==== Sys2Proof/Machine/Flat.lean ====
section
/-! DEFINITION. Memory as one canonical list of bytes: addresses strictly rising and no byte equal to what an unlisted
address reads as. A byte that no entry lists reads as zero (R506 writes zero to all DRAM and SRAM; assumption 1 for
memory outside the package). -/

namespace Sys2Proof.Machine

/-- The byte an unlisted address reads as (assumption 1). -/
def Mem.blank : Byte := 0

/-- The byte at an address. -/
def Mem.read : List Host.Cell → Nat → Byte
  | [], _ => Mem.blank
  | (j, b) :: t, a => if j = a then b else Mem.read t a

/-- The memory with byte b at address a, in canonical form. -/
def Mem.write : List Host.Cell → Nat → Byte → List Host.Cell
  | [], a, b => if b = Mem.blank then [] else [(a, b)]
  | (j, c) :: t, a, b =>
    if a < j then (if b = Mem.blank then (j, c) :: t else (a, b) :: (j, c) :: t)
    else if a = j then (if b = Mem.blank then t else (a, b) :: t)
    else (j, c) :: Mem.write t a b

/-- Every key of the list is above a, and so on upward; no byte is the blank one. -/
def Mem.wfFrom : Nat → List Host.Cell → Bool
  | _, [] => true
  | lo, (j, b) :: t => decide (lo ≤ j) && b != Mem.blank && Mem.wfFrom (j + 1) t

/-- The canonical form. -/
def Memory.wf (m : List Host.Cell) : Bool := Mem.wfFrom 0 m

/-- n bytes from address a up, little-endian (R2), as a number. -/
def Mem.readN (m : List Host.Cell) (a : Nat) : Nat → Nat
  | 0 => 0
  | n + 1 => (Mem.read m a).toNat + 256 * Mem.readN m (a + 1) n

/-- Write the low n bytes of v at address a, little-endian (R2). -/
def Mem.writeN (m : List Host.Cell) (a : Nat) : Nat → Nat → List Host.Cell
  | 0, _ => m
  | n + 1, v => Mem.writeN (Mem.write m a (BitVec.ofNat 8 v)) (a + 1) n (v / 256)

/-- Set n bytes from address a up to zero. -/
def Mem.clear (m : List Host.Cell) (a n : Nat) : List Host.Cell := m.filter (fun c => c.1 < a || a + n ≤ c.1)

end Sys2Proof.Machine
end

