-- ==== Sys2Proof/Machine/Sparse.lean ====
section
/-! DEFINITION. Tables by number held as plain data: lists of key and value in strictly rising key order, and sets of
numbers as strictly rising lists. -/

namespace Sys2Proof.Machine

/-- A table from numbers to values, sorted by key, no key twice. -/
abbrev Sparse (α : Type) := List (Nat × α)

/-- The entry of key k, if there is one. -/
def sfind {α : Type} : Sparse α → Nat → Option α
  | [], _ => none
  | (j, v) :: t, k => if j = k then some v else sfind t k

/-- The entry of key k, or d where the table holds none. -/
def sget {α : Type} (d : α) (l : Sparse α) (k : Nat) : α := (sfind l k).getD d

/-- The table with the entry of key k set to v. -/
def sput {α : Type} : Sparse α → Nat → α → Sparse α
  | [], k, v => [(k, v)]
  | (j, w) :: t, k, v => if k < j then (k, v) :: (j, w) :: t else if k = j then (k, v) :: t else (j, w) :: sput t k v

/-- The table without an entry of key k. -/
def sdel {α : Type} (l : Sparse α) (k : Nat) : Sparse α := l.filter (fun p => p.1 != k)

/-- A set of numbers, strictly rising. -/
abbrev NatSet := List Nat

/-- The set with k in it. -/
def nsInsert : NatSet → Nat → NatSet
  | [], k => [k]
  | j :: t, k => if k < j then k :: j :: t else if k = j then j :: t else j :: nsInsert t k

/-- The set without k. -/
def nsErase (l : NatSet) (k : Nat) : NatSet := l.filter (fun j => j != k)

/-- Run a step for i = 0 to n − 1, in order. -/
def forN {α : Type} (n : Nat) (f : Nat → α → α) (a : α) : α :=
  match n with
  | 0 => a
  | m + 1 => f m (forN m f a)

/-- The numbers a, a + 1, …, a + n − 1. -/
def upFrom (a n : Nat) : List Nat := List.range' a n

/-- Element i of a list of records, or a default. -/
def nth {α : Type} (d : α) (l : List α) (i : Nat) : α := l.getD i d

/-- Insert into a list in an order. -/
def insertBy {α : Type} (lt : α → α → Bool) (a : α) : List α → List α
  | [] => [a]
  | b :: l => if lt a b then a :: b :: l else b :: insertBy lt a l

end Sys2Proof.Machine
end

