-- ==== Sys2Proof/Machine/Types.lean ====
section
/-! DEFINITION. The small types of the machine: privilege levels, run states, memory classes, trap causes with their
codes, and who acts in a step. -/

namespace Sys2Proof.Machine

/-- The privilege levels (R474). -/
inductive Level where | user | executive | firmware
  deriving DecidableEq, Repr

/-- The code of a level in PPRIV (R474). -/
def Level.code : Level → BitVec 2
  | .user => 0 | .executive => 1 | .firmware => 2

/-- The level that a PPRIV code names; 3 is never stored (R478, R479). -/
def Level.ofCode (c : BitVec 2) : Level :=
  match c.toNat with
  | 0 => .user | 1 => .executive | _ => .firmware

/-- SSTAT.STATE (R482). -/
inductive RunState where | empty | running | stopping | saved | restoring
  deriving DecidableEq, Repr

/-- The code of a run state (R482). -/
def RunState.code : RunState → BitVec 3
  | .empty => 0 | .running => 1 | .stopping => 2 | .saved => 3 | .restoring => 4

/-- The idempotence classes (R269). -/
inductive Cls where | n | i | d
  deriving DecidableEq, Repr

/-- The causes of R480. -/
inductive Cause where
  | illegalInstruction | privilege | misaligned | windowRange | windowInvalid | pageNotPresent | pageProtection
  | classViolation | memPoison | memTimeout | vregWindow | tileUnclaimed | formatRecord | stride | ringFault
  | fabricUnbound | fabricImage | fabricDeadlock | fabricFull | copyFault | breakpoint | xcall | fcall | watchdog
  deriving DecidableEq, Repr

/-- The code of a cause (R480). -/
def Cause.code : Cause → BitVec 8
  | .illegalInstruction => 0x01 | .privilege => 0x02 | .misaligned => 0x03 | .windowRange => 0x04
  | .windowInvalid => 0x05 | .pageNotPresent => 0x06 | .pageProtection => 0x07 | .classViolation => 0x08
  | .memPoison => 0x09 | .memTimeout => 0x0A | .vregWindow => 0x0B | .tileUnclaimed => 0x0C
  | .formatRecord => 0x0D | .stride => 0x0E | .ringFault => 0x0F | .fabricUnbound => 0x10 | .fabricImage => 0x11
  | .fabricDeadlock => 0x12 | .fabricFull => 0x13 | .copyFault => 0x14 | .breakpoint => 0x18 | .xcall => 0x19
  | .fcall => 0x1A | .watchdog => 0x1B

/-- What an access does to memory. -/
inductive Acc where | read | write | fetch
  deriving DecidableEq, Repr

/-- What a trap records: its cause, EADDR and EELEM (R480). -/
structure TrapInfo where
  cause : Cause
  addr : Dword
  elem : Nat
  deriving DecidableEq, Repr

/-- Who acts in a step: a strand, by its key 3 × core + strand, or context c of the invocation that strand k runs. -/
inductive Actor where
  | strand (k : Nat)
  | cell (k c : Nat)
  deriving DecidableEq, Repr

/-- The strand for which an actor acts. -/
def Actor.key : Actor → Nat
  | .strand k => k
  | .cell k _ => k

/-- The core of a strand key (R15). -/
def coreOf (k : Nat) : Nat := k / 3
/-- The hardware strand number of a strand key. -/
def strandNo (k : Nat) : Nat := k % 3
/-- The die of a core (R15). -/
def dieOf (core : Nat) : Nat := core / 32
/-- The cluster of a core, counted over the package (R15). -/
def clusterOf (core : Nat) : Nat := core / 4

end Sys2Proof.Machine
end

