-- ==== Sys2Proof/Machine/State.lean ====
section
/-! DEFINITION. The state of the machine as plain data: everything the spec gives the package, and the few fields of
the model's own (agenda, actor, tick, freeCtr), each named as such. -/

namespace Sys2Proof.Machine
open Sys2Proof

/-! ## Strands -/

/-- The executive special registers (R116, R478). Reserved fields have no storage: they read as zero. -/
structure ExecRegs where
  epc : Dword := 0
  held : Bool := false
  ppriv : BitVec 2 := 0
  cause : BitVec 8 := 0
  addr : Dword := 0
  elem : BitVec 32 := 0
  vec : BitVec 62 := 0
  scratch : Dword := 0
  /-- ECHAINPC0 to 3, whole registers. -/
  chainPc : Vector Dword 4 := Vector.replicate 4 0
  /-- ECHAINST0 to 3, whole registers. -/
  chainSt : Vector Dword 4 := Vector.replicate 4 0
  asid : BitVec 16 := 0
  ptbase : BitVec 36 := 0
  vwin : BitVec 8 := 0
  fxwdFired : Bool := false
  kwdHold : Bool := false
  deriving DecidableEq, Repr

/-- The firmware special registers (R479). -/
structure FirmRegs where
  ppriv : BitVec 2 := 0
  pc : Dword := 0
  cause : BitVec 8 := 0
  addr : Dword := 0
  elem : BitVec 32 := 0
  vec : BitVec 62 := 0
  scratch : Dword := 0
  brkhalt : Bool := false
  dbgen : Bool := false
  fewd : BitVec 32 := 0
  deriving DecidableEq, Repr

/-- User-level interrupt registers (R421) and the shadow bank of x24 to x31 (R422). -/
structure UiRegs where
  vec : BitVec 62 := 0
  inHandler : Bool := false
  mask : BitVec 6 := 0x3F
  pend : BitVec 6 := 0
  pc : Dword := 0
  shadow : Vector Dword 8 := Vector.replicate 8 0
  deriving DecidableEq, Repr

/-- One ring of a shard (R191) with its all-zero flags (R195), and the slots reserved by a writer whose write has not
landed (R277), each with the strand that holds it. -/
structure Ring where
  base : BitVec 56 := 0
  nslotm1 : BitVec 8 := 0
  log2slot : BitVec 4 := 0
  head : BitVec 32 := 0
  tail : BitVec 32 := 0
  /-- slot indexes whose all-zero flag is set -/
  zero : NatSet := []
  /-- counts of slots reserved and not landed, with the reserving strand, or with 384 + the pool key of the task in whose chrysalis
  the write of the slot lies until emergence (R447) -/
  unlanded : Sparse Nat := []
  deriving DecidableEq, Repr

/-- One slot of a relay queue (R196): its bytes as one register image, the byte count of the source, and the words of it that are poisoned. -/
structure RelaySlot where
  data : BitVec 32768 := 0
  count : Nat := 0
  poison : NatSet := []
  deriving DecidableEq, Repr

/-- A captured loop body (R203): the address of its first word and its words. -/
structure Replay where
  start : Dword
  words : List Word
  deriving DecidableEq, Repr

/-- A watch entry armed by vwait (R292): element, its address, the word's place, and its target. -/
structure Watch where
  elem : Nat
  place : Nat
  target : Nat
  observed : Nat
  outside : Bool
  deriving DecidableEq, Repr

/-- A copy descriptor after issue (R373 to R375): the box with its strides as 64-bit patterns. -/
structure Box where
  fill : Bool := false
  src : Dword := 0
  dst : Dword := 0
  ext : Vector (BitVec 32) 4 := Vector.replicate 4 0
  sstr : Vector Dword 3 := Vector.replicate 3 0
  dstr : Vector Dword 3 := Vector.replicate 3 0
  esize : Nat := 1
  cvt : Bool := false
  bar : Option (BitVec 9) := none
  deriving DecidableEq, Repr

/-- A transfer issued and not retired (R369, R370). -/
structure Transfer where
  id : BitVec 32
  box : Box
  /-- elements whose writes have landed -/
  moved : Nat := 0
  /-- it has begun (R370) -/
  begun : Bool := false
  /-- the task in whose chrysalis it runs, by its pool key (R386) -/
  spec : Option Nat := none
  completed : Bool := false
  abandoned : Bool := false
  /-- writes beyond the package were made -/
  outside : Bool := false
  /-- restored with its strand: it runs again before its channel takes new commands (R385) -/
  again : Bool := false
  deriving DecidableEq, Repr

/-- A copy channel (R368 to R383). -/
structure Channel where
  pending : List Transfer := []
  armed : Option (BitVec 32) := none
  /-- FAULT with FID, FCAUSE and the fault address -/
  fault : Option (BitVec 32 × Cause × Dword) := none
  /-- POISON record: identifier of a transfer that carried poison -/
  poison : Bool := false
  poisonId : BitVec 32 := 0
  /-- identifiers retired whose transfers wrote beyond the package since the last covering acquire -/
  outside : Bool := false
  deriving DecidableEq, Repr

/-- One declared stream of a strip-prefetch declaration (R387). -/
structure Stream where
  base : Dword := 0
  bytes : Nat := 1
  deriving DecidableEq, Repr

/-- A strip-prefetch declaration with its position (R387, R388). -/
structure Decl where
  avl : Nat := 0
  depth : Nat := 1
  pos : Nat := 0
  streams : List Stream := []
  /-- a stream's fetch waits for a home or for a translation, and goes on from there -/
  due : Bool := false
  deriving DecidableEq, Repr

/-- A word in a strand's strip buffer (R389): the stream, the word, the first and the last element that were fetched into it, and its
value. -/
structure StripWord where
  strand : Nat
  stream : Nat
  word : Nat
  first : Nat
  last : Nat
  val : Word
  deriving DecidableEq, Repr

/-- What an unfinished gather, whose destination overlaps its index group, has read of its indexes (R180): the instruction's PC, cm as
it left it, and the elements by their indexes. -/
structure Latch where
  pc : Dword
  cm : MaskReg
  idx : Sparse Nat
  deriving DecidableEq, Repr

/-- Facts about where the strand works (R80 to R92): its group, its position and its shard. -/
structure Place where
  group : Nat := 0
  pos : Nat := 0
  shard : Nat := 0
  deriving DecidableEq, Repr

/-- Waits in progress: the time limit of the wait, if it has one, and whether a limit has passed. -/
structure Wait where
  blocked : Bool := false
  deadline : Option Nat := none
  expired : Bool := false
  /-- an access is outstanding since this time, and its address (R271, R509) -/
  since : Option Nat := none
  out : Option Dword := none
  /-- the cause with which the outstanding access ends when it is made again (R271, R509) -/
  verdict : Option Cause := none
  /-- the region at whose home the access stands in line (R303) -/
  home : Option Nat := none
  /-- the device link port on which the request to that home is outstanding (R511) -/
  link : Option Nat := none
  /-- a translation of the access has been requested from the host (R509) -/
  asked : Bool := false
  /-- the walk, by ASID and page, that occupies a walker of the die while it stands there (R490) -/
  walk : Option (BitVec 16 × Nat) := none
  /-- elements of the waiting load below VSTART are done (R275) -/
  begun : Bool := false
  /-- the local word at which a full-empty operation stands in line (R295) -/
  word : Option Nat := none
  /-- the waiting instruction has issued: pre-emption records it in the chain record (R190, R277) -/
  issued : Bool := false
  /-- a pre-emption ends the waiting instruction, and the strand resumes after it (R148) -/
  past : Bool := false
  /-- the slot of a slot table, 32 × ASID + slot, that the waiting fxbind is binding: its STATE is 1 (R342) -/
  bind : Option Nat := none
  /-- the claims of slots that the waiting tmop holds, by queue, and the tile that it names (R193, R251, R253, R260) -/
  claims : List (Queue × Nat) := []
  tile : Option Nat := none
  /-- the number, from 1 on, of the step at which that tmop, or the access of a cell, issued -/
  seq : Nat := 0
  deriving DecidableEq, Repr

/-- A yield in force (R420): the strands it waits for, and the cycle at which it ends at the latest. -/
structure Hold where
  others : NatSet
  until_ : Nat
  deriving DecidableEq, Repr

/-- A chain record being replayed (R190): where and with what VL, VTYPE and VSTART the strand goes on after it. -/
structure Chain where
  pc : Dword
  vl : BitVec 13
  vtype : BitVec 8
  vstart : BitVec 13
  deriving DecidableEq, Repr

/-- The state of one strand. -/
structure Strand where
  x : Vector Dword 32 := Vector.replicate 32 0
  pc : Dword := 0
  level : Level := .user
  status : RunState := .empty
  -- vector control (R181 to R185)
  vl : BitVec 13 := 0
  vtype : BitVec 8 := 0
  vstart : BitVec 13 := 0
  vslip : BitVec 3 := 0
  /-- m0 to m7; entry 0 is never read and never written (R184) -/
  m : Vector MaskReg 8 := Vector.replicate 8 0
  cm : MaskReg := 0
  -- floating point (R163 to R169)
  fflags : BitVec 6 := 0
  frm : BitVec 3 := 0
  srseed : Dword := 0
  srgen : Vector Word 32 := Vector.replicate 32 0
  -- other user special registers (R115)
  vstat : Dword := 0
  tstep : BitVec 32 := 0
  pwaddr : Dword := 0
  fxstat : Dword := 0
  fxidx : Vector (BitVec 32) 4 := Vector.replicate 4 0
  ui : UiRegs := {}
  cpyDone : Vector (BitVec 32) 4 := Vector.replicate 4 0
  cpyNext : Vector (BitVec 32) 4 := Vector.replicate 4 0
  chan : Vector Channel 4 := Vector.replicate 4 {}
  tlc : Vector Dword 4 := Vector.replicate 4 0
  rings : Vector Ring 8 := Vector.replicate 8 {}
  /-- the two slots of each relay queue, oldest first (R196) -/
  relays : Vector (List RelaySlot) 4 := Vector.replicate 4 []
  event : Bool := false
  e : ExecRegs := {}
  f : FirmRegs := {}
  place : Option Place := none
  /-- TRET and the held task by its pool key (R430) -/
  tret : Dword := 0
  task : Option Nat := none
  /-- the current strip of the held task has performed a class D access, and its vlend has closed (R435) -/
  stripD : Bool := false
  loopClosed : Bool := false
  wait : Wait := {}
  replay : Option Replay := none
  decl : Option Decl := none
  watch : List Watch := []
  latch : Option Latch := none
  links : NatSet := []
  /-- a barrier arrival deferred to the next fx (R413, R415) -/
  deferred : Option Nat := none
  hold : Option Hold := none
  /-- the entries of ECHAINPC and ECHAINST in use are being replayed (R190) -/
  chain : Option Chain := none
  /-- the cause that its process-table entry gives its first fetch (R491) -/
  ptFault : Option Cause := none
  /-- its task was squashed while it was saved (R453) -/
  squashed : Bool := false
  /-- STRANDID as the executive last wrote it (R117); the hardware strand number where it never did -/
  strandid : Option Dword := none
  /-- the strand is ending its part in its shard (R501) -/
  ending : Bool := false
  /-- when the strand entered executive level from user level, moved on by the time it spent at firmware level since (R496) -/
  execSince : Nat := 0
  /-- the time it had spent there when it entered firmware level (R492, R496) -/
  execSpent : Nat := 0
  deriving DecidableEq, Repr

/-! ## Caches, translations and cocoons -/

/-- A word held in an L1 data cache or an L2 (R304): its value, whether it is dirty, and for a clean word the number, from 1 on, of the
step whose access fetched it; 0 for a word that was fetched alone. -/
structure L1Word where
  val : Word
  dirty : Bool
  at_ : Nat := 0
  deriving DecidableEq, Repr

/-- A registration at a home (R297, R313): its holder, a core, or 128 + d for the L2 of die d, and the newest value that the home has
recorded, which a forwarded read returns (R300, R403; assumption 43). -/
structure Registrant where
  holder : Nat
  val : Word
  deriving DecidableEq, Repr

/-- The state of an external line in a die's L2 (R315); a die that holds no entry is in state I. -/
inductive Moesi where | m | o | e | s
  deriving DecidableEq, Repr

/-- A registration on its way to the homes (R299): the core it names, the first word of its span, the values written, and the core
whose agent wrote them. -/
structure Pending where
  core : Nat
  word : Nat
  vals : List Word
  by_ : Nat
  deriving DecidableEq, Repr
/-- The number of words of a registration's span (R298). -/
def Pending.count (p : Pending) : Nat := p.vals.length

/-- What a request asks of a home (R303): a read, a registration, a snoop, an access of the strand or cell that makes it, or one of
a unit of the package under an ASID. -/
inductive Request where
  | read
  | registration
  | snoop (inv : Bool)
  | agent (a : Actor)
  | unit (asid : BitVec 16)
  deriving DecidableEq, Repr

/-- A request of a core that waits at the home of a word, or was refused there, since a cycle (R303). A snoop names its line by its
first word. -/
structure Waiter where
  kind : Request := .read
  core : Nat
  word : Nat
  since : Nat
  /-- it holds the entry reserved for its core -/
  reserved : Bool := false
  deriving DecidableEq, Repr

/-- The snoop that a busy home serves (R303, R316). -/
structure HomeJob where
  line : Nat
  inv : Bool
  deriving DecidableEq, Repr

/-- An ldc or stf that waits on a local word, by strand (R295). -/
structure WordWaiter where
  strand : Nat
  word : Nat
  /-- it waits for the word to be full -/
  full : Bool
  deriving DecidableEq, Repr

/-- A translation held in a TLB (R490): the core, the ASID, the page and what the walk found. -/
structure TlbEntry where
  core : Nat
  asid : BitVec 16
  /-- virtual page base and page size in bytes -/
  vbase : Nat
  size : Nat
  pbase : Nat
  cls : Cls
  cp : Bool
  pr : Bool
  r : Bool
  w : Bool
  x : Bool
  u : Bool
  dirty : Bool
  deriving DecidableEq, Repr

/-- A non-leaf entry, or a process-table entry, that the walkers of a die keep (R490, R491): the die, the ASID, its physical address
and its value. -/
structure WalkEntry where
  die : Nat
  asid : BitVec 16
  pa : Nat
  val : Nat
  deriving DecidableEq, Repr

/-- The recorded translation of one sector of a cocoon (R308), with its class (R314). -/
structure CocoonTr where
  pa : Nat
  cls : Cls := .n
  write : Bool
  /-- removed by a tlbinv: the next fill or writeback of the sector translates again (R312) -/
  stale : Bool := false
  deriving DecidableEq, Repr

/-- A mapped cocoon (R305): the local range by its generic address, the global range, its owner's ASID, and per word VALID
and DIRTY by index; POISON is the poison of the local word. -/
structure Cocoon where
  strand : Nat
  base : Dword
  gva : Nat
  len : Nat
  asid : BitVec 16
  valid : NatSet := []
  dirty : NatSet := []
  tr : Sparse CocoonTr := []
  dropped : Bool := false
  deriving DecidableEq, Repr

/-! ## Work: kernels and placement groups -/

/-- A named barrier of a group (R411): its count, and the kinds of arrival seen in the current phase. -/
structure Barrier where
  phase : BitVec 32 := 0
  count : BitVec 12 := 0
  expect : BitVec 12 := 1
  link : Bool := false
  uiarm : Bool := false
  /-- an arrival of the phase released at device scope (R414) -/
  wide : Bool := false
  /-- an arrival of the phase covered writes beyond the package (R414) -/
  outside : Bool := false
  /-- the last completed phase that counted such arrivals -/
  lastWide : Option (BitVec 32) := none
  lastOutside : Option (BitVec 32) := none
  /-- PHASE and COUNT as this member of a link still shows them, until it sees a completion (R417) -/
  shown : Option (BitVec 32 × BitVec 12) := none
  deriving DecidableEq, Repr

/-- A placement group resident on a core (R80 to R93). -/
structure Group where
  kernel : Nat
  core : Nat
  trio : Bool
  /-- the strands of the group by position -/
  keys : List Nat
  /-- shards of the group not retired, by position -/
  live : NatSet
  laneOff : Nat
  laneSize : Nat
  /-- the 4 KiB blocks of the core scratchpad that window 0xF1 stands for, in order (R84) -/
  spad : List Nat
  /-- first register and size of each strand's window, by position -/
  wins : List (Nat × Nat)
  tiles : Nat
  /-- physical tiles of the share -/
  share : NatSet
  pages : NatSet
  barCount : Nat
  bars : Sparse Barrier := []
  deriving DecidableEq, Repr

/-- The resource declaration of a kernel (R39). -/
structure Resources where
  trio : Bool := false
  vwin : BitVec 8 := 0
  tiles : Nat := 0
  pages : Nat := 0
  spadKib : Nat := 0
  lendKib : Nat := 0
  dspadKib : Nat := 0
  cocoons : Nat := 0
  rings : BitVec 8 := 0
  persist : Bool := false
  hbeatUs : Nat := 0
  maxRunMs : Nat := 0
  deriving DecidableEq, Repr

/-- The launch record of a kernel (R63). -/
structure Record where
  image : Dword := 0
  args : Dword := 0
  cwaddr : Dword := 0
  craddr : Dword := 0
  deps : List (Dword × Dword) := []
  prio : Nat := 0
  event : Bool := false
  dieh : Bool := false
  diehint : Nat := 0
  tag : Dword := 0
  /-- a reserved field is nonzero -/
  reserved : Bool := false
  deriving DecidableEq, Repr

/-- The completion statuses (R77). -/
inductive Status where
  | success | imageInvalid | launchExtent | recordInvalid | depFault | depPoison | faulted | runtime | hungEnded
  | cancelled
  deriving DecidableEq, Repr

/-- The code of a completion status (R77). -/
def Status.code : Status → BitVec 16
  | .success => 0 | .imageInvalid => 1 | .launchExtent => 2 | .recordInvalid => 3 | .depFault => 4 | .depPoison => 5
  | .faulted => 6 | .runtime => 7 | .hungEnded => 8 | .cancelled => 9

/-- A loop-table level of an image (R34): its kind code and extent. -/
structure LoopLevel where
  kind : Nat
  extent : Nat
  deriving DecidableEq, Repr

/-- KSTAT.STATE of a kernel in the table (R493). -/
inductive KState where | waiting | running | suspendedHung | ending
  deriving DecidableEq, Repr

/-- A kernel in the kernel table (R69). -/
structure Kernel where
  qid : Nat
  recNo : BitVec 32
  asid : BitVec 16
  evvec : Nat
  record : Record
  entry : Dword := 0
  res : Resources := {}
  levels : List LoopLevel := []
  state : KState := .waiting
  status : Status := .success
  /-- the order of acceptance, and TIMENS at acceptance -/
  seq : Nat := 0
  tstart : Dword := 0
  /-- TIMENS at retirement, from then on (R76) -/
  tend : Option Dword := none
  /-- the image has been checked and the kernel handed to the die schedulers (R33, R74) -/
  checked : Bool := false
  /-- the die chosen for a kernel without a spatial-die level (R79) -/
  die : Nat := 0
  /-- per die: the linear index of the next shard to place, and the end of the die's share (R37) -/
  toPlace : Sparse (Nat × Nat) := []
  shards : Nat := 0
  retired : Nat := 0
  /-- the 4 KiB blocks of its die scratchpad allocation on each die that has one, in order (R89) -/
  dieAlloc : Sparse (List Nat) := []
  /-- its cluster allocation in each cluster that has one: the blocks on each of the cluster's four cores (R88) -/
  clAlloc : Sparse (List (List Nat)) := []
  /-- the kernel, by its order of acceptance, a strand of which launched it (R419) -/
  launcher : Option Nat := none
  /-- time a waiting group of this kernel on a die has waited since (R90) -/
  waitSince : Sparse Nat := []
  /-- nanoseconds since the last progress and since acceptance, less the time held or suspended (R492, R495) -/
  idleNs : Nat := 0
  runNs : Nat := 0
  hungAt : Nat := 0
  deriving DecidableEq, Repr

/-! ## The launch unit -/

/-- The states of a software queue (R57). -/
inductive QState where | disabled | idle | waiting | mapped | error
  deriving DecidableEq, Repr

/-- A doorbell store (R69, R419): the TAIL it wrote, the step of its arrival, and the kernel, by its order of acceptance, of
the strand that made it. -/
structure Bell where
  tail : BitVec 32
  step : Nat
  kernel : Option Nat := none
  deriving DecidableEq, Repr

/-- A software queue and the launch unit's copy of its descriptor (R53 to R57, R70). -/
structure SQueue where
  tail : BitVec 32 := 0
  head : BitVec 32 := 0
  state : QState := .disabled
  base : Dword := 0
  log2size : Nat := 0
  owner : BitVec 16 := 0
  evvec : Nat := 0
  errcode : BitVec 8 := 0
  level : Nat := 0
  /-- falls of the level since the queue has waited (R70) -/
  falls : Nat := 0
  waitSince : Nat := 0
  slot : Option Nat := none
  /-- doorbell stores that announced records first, oldest first (R69) -/
  bells : List Bell := []
  /-- dependences of the head record that have been observed met (R65) -/
  met : NatSet := []
  /-- an enable waits for the descriptor (R62), a WAITING queue for the PRIO of its head record (R70): the access is outstanding
  (R303, R509) -/
  enabling : Bool := false
  entering : Bool := false
  /-- a write of HEAD, and one of ERRCODE, into the descriptor is outstanding (R56) -/
  headDue : Option (BitVec 32) := none
  errDue : Bool := false
  deriving DecidableEq, Repr

/-- The states of a hardware queue slot (R68). -/
inductive SlotState where | free | loading | active | blocked | draining
  deriving DecidableEq, Repr

/-- A hardware queue slot (R65, R68, R71). -/
structure HwSlot where
  state : SlotState := .free
  qid : Nat := 0
  record : Option Record := none
  mappedAt : Nat := 0
  blockedQuantum : Bool := false
  /-- the descriptor has been copied at this mapping (R56) -/
  copied : Bool := false
  /-- the record was BLOCKED, and its dependences have been observed met (R73) -/
  observed : Bool := false
  /-- the read of a dependence word is outstanding (R67) -/
  reading : Bool := false
  /-- the record is accepted, and HEAD is being written back (R68) -/
  accepting : Bool := false
  /-- the queue of a DRAINING slot is to be disabled (R62, R73) -/
  disable : Bool := false
  /-- a read fault or poison decided the record's status (R67) -/
  verdict : Option Status := none
  deriving DecidableEq, Repr

/-- The check results kept for an image (R74): IMAGE and ASID, entry, resources and loop table. -/
structure ImageCheck where
  image : Dword
  asid : BitVec 16
  argLen : Nat
  entry : Dword
  res : Resources
  levels : List (Nat × Bool × Nat)
  deriving DecidableEq, Repr

/-- The launch unit (R53 to R78, R493). -/
structure LaunchUnit where
  qtbaselo : BitVec 26 := 0
  qtbasehi : BitVec 32 := 0
  qcount : BitVec 17 := 0
  quantum : BitVec 14 := 100
  cwfault : Bool := false
  qdfault : Bool := false
  kselq : BitVec 16 := 0
  kseln : BitVec 32 := 0
  queues : Sparse SQueue := []
  slots : Sparse HwSlot := []
  checks : List ImageCheck := []
  lastQuantum : Nat := 0
  /-- records accepted, and when the last one was (R69) -/
  accepted : Nat := 0
  lastAccept : Option Nat := none
  deriving DecidableEq, Repr

/-! ## Tasks and forecasts -/

/-- A task descriptor (R47). -/
structure TaskDesc where
  pc : Dword := 0
  ptr : Vector Dword 4 := Vector.replicate 4 0
  trip : BitVec 32 := 0
  resume : BitVec 32 := 0
  fut0 : BitVec 32 := 0
  fut1 : BitVec 32 := 0
  vtype : BitVec 8 := 0
  nptr : Nat := 0
  queue : Nat := 0
  deriving DecidableEq, Repr

/-- Where a task of the pool is (R429 to R436, R451). -/
inductive TaskState where
  | waiting
  | ready (seq : Nat)
  | running (strand : Nat)
  /-- a speculative task that executed tdone and waits for its emergence -/
  | done
  /-- converted by a page fault: bound to a pager future -/
  | paged (pfut : Nat)
  deriving DecidableEq, Repr

/-- A forecast of a speculation set: the slot of the die and the version it forecasts (R438). -/
structure Fc where
  slot : Nat
  ver : BitVec 32
  deriving DecidableEq, Repr

/-- An address range of a speculation record (R446). -/
structure Range where
  base : Dword
  len : Nat
  deriving DecidableEq, Repr

/-- An entry of a die's task pool (R426), with the chrysalis of a speculative task (R447 to R453). -/
structure Task where
  kernel : Nat
  asid : BitVec 16
  desc : TaskDesc
  state : TaskState := .waiting
  spawnSeq : Nat := 0
  /-- forecasts still open in its set, and those of the set it was spawned with whose real versions have not been published -/
  set : List Fc := []
  origSet : List Fc := []
  reads : List Range := []
  writes : List Range := []
  /-- created or made ready by a speculative task (R449) -/
  derived : Bool := false
  /-- the entry of the task that spawned it speculatively -/
  parent : Option Nat := none
  /-- buffered bytes by place (flat address), R447 -/
  buf : Sparse Byte := []
  /-- buffered words that carry poison, and local words that a copy into the buffer sets full, by place / 4 (R378, R379) -/
  bufPoison : NatSet := []
  bufFull : NatSet := []
  /-- slots of ring n of strand k, at key 8 × k + n, that lie in the buffer whole and zero as a ring write left them (R195) -/
  bufZero : Sparse NatSet := []
  /-- futures set speculatively, by offset (R449) -/
  futs : NatSet := []
  /-- bytes of futures that another task in chrysalis set, as this task sees them (R449), by place -/
  vis : Sparse Byte := []
  /-- core whose chrysalis store holds the buffer, and the regions of it that lie in that core's scratchpad (R450) -/
  store : Option Nat := none
  inSpad : Nat := 0
  /-- a trap held until emergence (R453) -/
  held : Option TrapInfo := none
  /-- released from its chrysalis by a squash: it waits for real versions (R452) -/
  awaits : List Fc := []
  deriving DecidableEq, Repr

/-- A comparison that the tolerance-compare engine has not decided yet (R444). -/
structure Decision where
  ver : BitVec 32
  fails : Nat
  maxerr : Word
  pass : Bool
  /-- the bytes of the forecast that it closes -/
  forecast : List Byte
  /-- the step of its publication: decisions are served in arrival order (R452) -/
  at_ : Nat
  deriving DecidableEq, Repr

/-- A slot of a die's forecast unit (R438 to R445). -/
structure FSlot where
  asid : BitVec 16 := 0
  tile : Dword := 0
  len : Nat := 0
  fmt : Nat := 0
  mode : Nat := 0
  allow : BitVec 32 := 0
  atol : Word := 0
  rtol : Word := 0
  w : Vector Word 3 := Vector.replicate 3 0
  /-- the published versions held, newest first, each as its bytes -/
  hist : List (List Byte) := []
  ver : BitVec 32 := 0
  /-- the open forecast's bytes, when the slot forecasts (R442) -/
  forecast : Option (List Byte) := none
  /-- armed by the solver sequencer for a hand-off (R470) -/
  handoff : Bool := false
  maxerr : Word := 0
  fails : BitVec 16 := 0
  result : BitVec 2 := 0
  pending : Option Decision := none
  deriving DecidableEq, Repr

/-! ## The solver sequencer -/

/-- The state of a sample (R460). -/
inductive SStatus where | active | done | stalled | poisoned | faulted
  deriving DecidableEq, Repr

/-- The code of a sample's state (R460). -/
def SStatus.code : SStatus → BitVec 8
  | .active => 0 | .done => 1 | .stalled => 2 | .poisoned => 3 | .faulted => 4

/-- A sample of a sequencer (R460). -/
structure Sample where
  t : Word
  h : Word
  tend : Word
  norm : Word := 0
  nacc : BitVec 32 := 0
  nrej : BitVec 32 := 0
  status : SStatus := .active
  stage : BitVec 8 := 0
  fslot : BitVec 8
  nelem : Nat
  y : Dword
  hist : Dword
  /-- k_0 is valid (R468, R471) -/
  k0 : Bool := false
  deriving DecidableEq, Repr

/-- The control block of a sequencer (R458) with the factor table. -/
structure SqBlock where
  image : Dword
  argbase : Dword
  cwaddr : Dword
  craddr : Dword
  recbase : Dword
  qid : Nat
  prio : Nat
  handoff : Bool
  hmin : Word
  hmax : Word
  atol : Word
  rtol : Word
  endaddr : Dword
  factors : List Word
  deriving DecidableEq, Repr

/-- The coefficient table of a sequencer (R459), with the differences that the load forms. -/
structure SqTable where
  stages : Nat
  a : List Word
  b : List Word
  c : List Word
  d : List Word
  deriving DecidableEq, Repr

/-- Where a run stands (R464, R470): what it does next. -/
inductive SqPhase where
  /-- stage j is to be launched -/
  | launch (j : Nat)
  /-- the launch of stage j is waited for -/
  | await (j : Nat)
  /-- candidates are formed and the hand-off launched -/
  | candidates
  /-- the decisions of the round are to be made -/
  | decide
  /-- the hand-off launch is waited for -/
  | handoff
  deriving DecidableEq, Repr

/-- The solver sequencer of a die (R456 to R473). -/
structure Solver where
  /-- the owning kernel by its key, the strand that acts for it, and the ASID -/
  owner : Option Nat := none
  strand : Nat := 0
  asid : BitVec 16 := 0
  block : Option SqBlock := none
  table : Option SqTable := none
  samples : List Sample := []
  phase : Option SqPhase := none
  /-- a run has ended, with its RCODE -/
  ended : Bool := false
  rcode : BitVec 8 := 0
  /-- rounds begun, and rounds completed -/
  begun : BitVec 32 := 0
  rounds : BitVec 32 := 0
  /-- the word at CWADDR when the run began, the launches made, and those accepted -/
  base : Dword := 0
  launches : Nat := 0
  accepted : Nat := 0
  /-- samples that a hand-off of this round covers, and those whose forecast a task held at the decision -/
  handed : NatSet := []
  held : NatSet := []
  /-- since when the decision of a hand-off is awaited -/
  since : Nat := 0
  /-- the run is to stop (R473), and the strands whose sqend waits -/
  stopping : Bool := false
  enders : NatSet := []
  deriving DecidableEq, Repr

/-! ## Device registers -/

/-- A lost range (R318). -/
structure LostEntry where
  valid : Bool := false
  port : BitVec 8 := 0
  base : BitVec 32 := 0
  limit : BitVec 32 := 0
  deriving DecidableEq, Repr

/-- The pager queue registers of a die (R437). -/
structure PagerRegs where
  baselo : BitVec 17 := 0
  en : Bool := false
  basehi : BitVec 32 := 0
  head : BitVec 32 := 0
  tail : BitVec 32 := 0
  deriving DecidableEq, Repr

/-- The strand, spiracle and debug registers of a core's control block (R96, R482, R498, R500). -/
structure CoreRegs where
  savelo : Vector (BitVec 20) 3 := Vector.replicate 3 0
  savehi : Vector (BitVec 32) 3 := Vector.replicate 3 0
  spgra : Vector Word 8 := Vector.replicate 8 0
  spgrb : Vector Word 8 := Vector.replicate 8 0
  halted : Bool := false
  settled : Bool := false
  timeout : Bool := false
  badacc : Bool := false
  haltAt : Nat := 0
  selStrand : BitVec 2 := 0
  selSpace : BitVec 4 := 0
  idx : BitVec 32 := 0
  dlo : BitVec 32 := 0
  dhi : BitVec 32 := 0
  fenced : Bool := false
  /-- since when the core has held groups without a break, since when it receives none, whether a self-test runs on it,
  and the strands pre-empted for that (R514) -/
  heldSince : Option Nat := none
  noNew : Option Nat := none
  testing : Bool := false
  testSaved : NatSet := []
  deriving DecidableEq, Repr

/-- A device link port (R510): the sequence number it expects, the one it sends next, the flits sent and not acknowledged,
oldest first, the NAKs that the oldest has had, of which each but the first says that a replay failed, the flits accepted whose messages
are not carried out yet, oldest first, and whether it runs on four lanes or is lost. -/
structure LinkPort where
  expect : BitVec 12 := 0
  next : BitVec 12 := 0
  replay : List (BitVec 2048) := []
  naks : Nat := 0
  inbox : List (BitVec 2048) := []
  four : Bool := false
  lost : Bool := false
  deriving DecidableEq, Repr

/-- The identification, host-facing and translation registers (R28, R29, R318, R491, R505 to R511). -/
structure Device where
  diemap : BitVec 4 := 0xF
  cores : BitVec 8 := 128
  cpyeng : BitVec 8 := 64
  dlinks : BitVec 8 := 16
  hostports : BitVec 8 := 4
  mhz : BitVec 16 := 1250
  drammib : BitVec 32 := 262144
  facc : BitVec 256 := 0
  booterr : BitVec 4 := 0
  badset : Bool := false
  booted : Bool := false
  /-- completions of ATS invalidations that follow accesses not yet performed (R509) -/
  invDue : Nat := 0
  ready : Bool := false
  /-- boot stages completed (R506) -/
  stage : Nat := 0
  inReset : Bool := false
  replace : Bool := false
  thermal : Bool := false
  power : Bool := false
  dlreduced : BitVec 8 := 0
  retpages : BitVec 16 := 0
  cap : BitVec 16 := 3400
  /-- PWR.NOW and THERM.TMAX, as last measured, and since when they have left room for a faster clock (R508, R516) -/
  nowW : BitVec 16 := 0
  tmax : BitVec 8 := 0
  calmSince : Option Nat := none
  hsbase : BitVec 52 := 0
  vfasid : Vector Word 16 := Vector.replicate 16 0
  pttlo : BitVec 20 := 0
  ptthi : BitVec 32 := 0
  lost : Vector LostEntry 16 := Vector.replicate 16 {}
  dlroute : Sparse Word := []
  /-- device link ports trained, by bit (R510, R511); boot trains them (R506) -/
  portsUp : BitVec 16 := 0
  linkPorts : Sparse LinkPort := []
  /-- DRAM pages retired, by physical page number, and corrections counted per page with their times (R514) -/
  retired : NatSet := []
  corrected : Nat := 0
  /-- host and pool ports lost (R29) -/
  hostLost : NatSet := []
  corrections : Sparse (List Nat) := []
  deriving DecidableEq, Repr

/-! ## Processes -/

/-- A used route entry (R44). -/
structure Route where
  port : Nat
  lch : Nat
  fmt : Nat
  rm : Nat
  out : Bool
  deriving DecidableEq, Repr

/-- A cell record (R43): the address of its block 0, its blocks, the block executed first, and its route entries. -/
structure FxCell where
  blk : Dword
  cnt : Nat
  blk0 : Nat
  routes : List (Option Route)
  deriving DecidableEq, Repr

/-- A page of a configuration (R42): the copy of a nested image it belongs to (R336), its position, its memory port,
and its cells. -/
structure FxPage where
  copy : Nat
  num : Nat
  loads : Bool
  stores : Bool
  cells : List FxCell
  deriving DecidableEq, Repr

/-- A loop declaration (R46): its entry, its limit, and the steer arms that leave it (R366). Entries of cells are numbered
128 × page + 16 × cell + channel. -/
structure FxLoop where
  entry : Nat
  limit : Nat
  exits : List Nat
  deriving DecidableEq, Repr

/-- A configuration image as the loader checked and expanded it (R41 to R46, R336): its ports with their cells (numbered
8 × page + cell), the columns and rows of each copy's shape, its pages, its channels from sending to receiving entry,
and its loops. -/
structure FxImage where
  useA : Bool
  useB : Bool
  useOut : Bool
  inA : Nat
  inB : Nat
  out : Nat
  shapes : List (Nat × Nat)
  pages : List FxPage
  chans : List (Nat × Nat)
  loops : List FxLoop
  deriving DecidableEq, Repr

/-- An entry of a process's slot table (R52), its generation (R342), and the bound image. While an fxbind of the slot waits, the
strand's Wait.bind names the slot, and its STATE is 1. PIN is what the pins on the cores give (R345). -/
structure SlotEntry where
  image : Dword := 0
  gen : Nat := 0
  bound : Option FxImage := none
  deriving DecidableEq, Repr

/-! ## Tiles -/

/-- A physical accumulator tile (R247, R252, R264): the shard's strand and the name it is bound to, its mode, its 128
rows of 128 words, and its poisoned elements as 128 × i + j. -/
structure Tile where
  bound : Option (Nat × BitVec 2) := none
  int : Bool := false
  rows : Sparse VecReg := []
  poison : NatSet := []
  /-- a tzero in progress reads as zero already; the unit reports it busy (R251) -/
  busy : Bool := false
  deriving DecidableEq, Repr

/-! ## Cell contexts -/

/-- One context of a cell (R321): its registers, its PC as a byte offset within its block images (R322), the blocks its
frames hold with their words, most recently used first (R323), and the wait of an access it has outstanding. -/
structure CellCtx where
  x : Vector Dword 16 := Vector.replicate 16 0
  pc : Dword := 0
  frames : List (Nat × List Word) := []
  wait : Wait := {}
  deriving DecidableEq, Repr

/-! ## The fabric -/

/-- A flit (R326): its kind, 0 data, 1 end-of-stream or 2 token, and its data. -/
structure Flit where
  kind : Nat
  data : Word
  deriving DecidableEq, Repr

/-- An input stream port of an invocation (R337, R348): its stream buffer, the next element that it delivers, whether the
end-of-stream flit has entered the buffer, and whether the cell has taken it. -/
structure FxIn where
  buf : List Flit := []
  next : Nat := 0
  eosSent : Bool := false
  eosTaken : Bool := false
  deriving DecidableEq, Repr

/-- A stop that is to take effect (R351): its REASON, the trap of a FAULT, and the stopping cell where one is named. -/
structure FxStop where
  reason : Nat
  trap : Option TrapInfo := none
  cell : Option Nat := none
  deriving DecidableEq, Repr

/-- A withdrawn access of a cell (R352): a load, which the cell makes again where its PC stands, or a store that the cell has passed:
its address, its bytes and its value. -/
structure Withdrawn where
  cell : Nat
  store : Option (Dword × Nat × Nat) := none
  deriving DecidableEq, Repr

/-- An invocation of a strand, running or held as its stop state (R346 to R353). Its cells are the cell contexts of the
strand. -/
structure Inv where
  asid : BitVec 16
  slot : Nat
  gen : Nat
  running : Bool := true
  vd : Nat := 0
  va : Nat := 0
  vb : Nat := 0
  /-- pages of the image whose contexts are still loading (R332) -/
  loading : NatSet := []
  /-- flits in skid buffers, oldest first: hop h before the receiving entry e at key 64 × e + h (R327, R334) -/
  bufs : Sparse (List Flit) := []
  inA : FxIn := {}
  inB : FxIn := {}
  out : List Flit := []
  /-- the output port has taken an end-of-stream flit -/
  outEos : Bool := false
  /-- admission counters of the loops (R363) -/
  adm : List Int := []
  /-- generators of receiving entries with RM code 5 (R165) -/
  gens : Sparse Word := []
  /-- the withdrawn accesses, in the order of their issue, which are made again before any cell fires (R352, R353) -/
  withdrawn : List Withdrawn := []
  /-- the deadlock count (R339) -/
  count : Nat := 0
  /-- a cell has fired, a flit has entered a buffer or a stream port has moved an element in the cycle that ends next (R339) -/
  acted : Bool := false
  /-- a deferred barrier arrival goes with this invocation (R415) -/
  token : Bool := false
  stop : Option FxStop := none
  deriving DecidableEq, Repr

/-- A channel of a placed configuration (R330, R334): its receiving entry, the link directions it takes, each as
4 × router + port, and its physical channel. -/
structure Wire where
  entry : Nat
  path : List Nat
  ch : Nat
  deriving DecidableEq, Repr

/-- A configuration placed on a core (R93): the group whose partition it lies in, the physical page of each page of its
image, and its channels. -/
structure Conf where
  group : Nat
  gen : Nat
  pages : List Nat
  wires : List Wire
  split : Bool := false
  pinned : Bool := false
  /-- the step of its last invocation -/
  last : Nat := 0
  /-- pages that are being moved (R94) -/
  moving : NatSet := []
  /-- a grant of its transit was revoked: the next invocation places it again (R95) -/
  stale : Bool := false
  /-- pages of the image whose contexts are loaded (R332), and the block frames of their cells while no invocation runs on
  them (R321, R323) -/
  loaded : NatSet := []
  frames : Sparse (List (Nat × List Word)) := []
  deriving DecidableEq, Repr

/-! ## Turns -/

/-- A die scheduler (R90): the core of the die at which the next search starts, and the kernels whose waiting group has
stopped backfill. -/
structure Sched where
  next : Nat := 0
  stops : NatSet := []
  deriving DecidableEq, Repr

/-- What an agent outside the package does of its own accord, apart from the rows of the table (R27, R58, R314, R317, R409, R511): the
host reads or writes n bytes through the first BAR of the physical or of a virtual function, or writes poison into bonded DRAM; an
agent beyond a device link reads or writes a word of it; and the host, a pool or another device writes a word of its own memory. -/
inductive Outside where
  | barRead (off n : Nat)
  | barWrite (off n : Nat) (v : Word)
  | vfRead (function off n : Nat)
  | vfWrite (function off n : Nat) (v : Word)
  | hdmPoison (word : Nat)
  | linkRequest (port word : Nat) (data : Option Word)
  | ownWrite (word : Nat) (v : Word) (poison : Bool)
  deriving DecidableEq, Repr

/-- What a step can be told to take next (assumption 3): an actor's instruction, a row of the table without a word, or
an effect that a store to a device register set off (R58, R61, R482, R494, R498), or the fill of a cocoon's sector that a write has
touched (R308). -/
inductive Turn where
  | act (a : Actor)
  | event (i : Instr)
  | doorbell (q : Nat) (v : Word) (strand : Option Nat)
  | register (off : Nat) (v : Word)
  | kcmd (cmd : Nat) (self : Option Nat)
  | fabricStop (k : Nat)
  | place (die : Nat)
  | outside (o : Outside)
  | fill (strand cocoon sector : Nat)
  deriving DecidableEq, Repr

/-- A translation that an agent which is not a strand has requested from the host (R509): since when, and how it ended
when it gave no translation. -/
structure AtsWait where
  asid : BitVec 16
  page : Nat
  since : Nat
  verdict : Option Cause := none
  /-- it waits at a busy home instead (R303), for the region numbered page, or on a device link port for the way there (R511) -/
  home : Bool := false
  link : Option Nat := none
  deriving DecidableEq, Repr

/-- A message the package sends to the outside: host events on a vector (R75), health events (R505), pager events (R435), SPDM
responses (R512), responses on a device link (R510), answers to host memory requests and snoops (R314, R316). -/
inductive Outbound where
  | hostEvent (vec : Nat)
  | healthEvent
  | spdm (kind : Nat) (bits : Nat) (data : Nat)
  | linkAck (port : Nat) (seq : BitVec 12) (nak : Bool)
  | linkFlit (port : Nat) (flit : BitVec 2048)
  | hdmData (word : Nat) (v : Word) (poison : Bool)
  | snoopAnswer (line : Nat) (data : Bool)
  | hostRead (v : Word)
  | atsRequest (pasid : Nat) (page : Nat)
  | priRequest (pasid : Nat) (page : Nat)
  | invalidationDone
  | pagerEvent (die : Nat)
  | backInvalidate (line : Nat)
  | lineOwnership (line : Nat)
  deriving DecidableEq, Repr

/-! ## The state -/

/-- The whole machine. -/
structure State where
  /-- who acts when an instruction is executed (the model's own; assumption 3) -/
  actor : Actor := .strand 0
  /-- what the next steps take (the model's own; assumption 3) -/
  agenda : List Turn := []
  /-- effects that stores to device registers set off, taken before anything else (the model's own; assumption 3) -/
  effects : List Turn := []
  /-- steps taken (the model's own; assumption 5) -/
  tick : Nat := 0
  /-- free values used (the model's own; assumption 4) -/
  freeCtr : Nat := 0
  cycle : Dword := 0
  timeNs : Dword := 0
  strands : Sparse Strand := []
  /-- context c of the invocation of strand k at key 64 × k + c (R321) -/
  cells : Sparse CellCtx := []
  /-- physical vector register p of core n at key 64 × n + p (R178) -/
  vregs : Sparse VecReg := []
  /-- physical tile t of core n at key 4 × n + t (R247) -/
  tiles : Sparse Tile := []
  mem : List Host.Cell := []
  /-- words whose full-empty bit is full, by flat address / 4 (R295) -/
  full : NatSet := []
  /-- poisoned words at their home or local memory, by flat address / 4 (R317) -/
  poison : NatSet := []
  /-- L1 words at key core × 2^50 + word (R304) -/
  l1 : Sparse L1Word := []
  /-- L2 words at key die × 2^50 + word: value and dirty mark (R304, R313) -/
  l2 : Sparse L1Word := []
  /-- the registration entries of the homes, by word (R297) -/
  reg : Sparse Registrant := []
  pending : List Pending := []
  /-- external lines at key die × 2^46 + line (R315) -/
  lines : Sparse Moesi := []
  /-- lines of bonded DRAM that the host caches (R314) -/
  hostLines : NatSet := []
  /-- regions whose home serves a snoop just now: their other requests wait (R303) -/
  busy : Sparse HomeJob := []
  /-- requests that wait at busy homes, in arrival order, and requests refused for want of an entry (R303) -/
  waiters : List Waiter := []
  refused : List Waiter := []
  /-- ldc and stf that wait on local words, in arrival order (R295) -/
  wordLine : List WordWaiter := []
  tlb : List TlbEntry := []
  /-- the walk caches of the dies, newest first (R490) -/
  walks : List WalkEntry := []
  /-- translations that agents of the package await from the host (R509) -/
  atsWaits : List AtsWait := []
  /-- the strip buffers (R389) -/
  strip : List StripWord := []
  /-- L1 instruction cache words at key core × 2^50 + word (R101) -/
  icache : Sparse Word := []
  /-- mapped cocoon n of strand k at key 8 × k + n (R305) -/
  cocoons : Sparse Cocoon := []
  /-- fabric opcode slot n of process a at key 32 × a + n (R52) -/
  slots : Sparse SlotEntry := []
  /-- bindings made so far (R342) -/
  fxGen : Nat := 0
  /-- the configuration of slot n of process a placed on core c, at key 2^21 × c + 32 × a + n (R93) -/
  confs : Sparse Conf := []
  /-- the invocation that a strand runs, or the stop state that it holds (R346, R352) -/
  invs : Sparse Inv := []
  /-- the cycle in which transit last crossed a link direction of a spiracle, at key 512 × core + link (R95) -/
  meters : Sparse Nat := []
  groups : Sparse Group := []
  kernels : Sparse Kernel := []
  /-- the die schedulers -/
  scheds : Sparse Sched := []
  /-- entry e of the task pool of die d at key 16,384 × d + e (R426) -/
  tasks : Sparse Task := []
  /-- tasks spawned, and tasks made ready, so far (R429) -/
  taskSeq : Nat := 0
  /-- LIMIT of queue q of process a on die d at key (65,536 × d + a) × 64 + q (R434) -/
  qlimit : Sparse (BitVec 16) := []
  /-- pager futures of die d bound to a task, at key 1,024 × d + n: the pool key (R436) -/
  pfut : Sparse Nat := []
  /-- armed forecast slot n of die d at key 64 × d + n (R438) -/
  fslots : Sparse FSlot := []
  /-- the solver sequencer of each die (R456) -/
  solvers : Sparse Solver := []
  lu : LaunchUnit := {}
  dev : Device := {}
  cores : Sparse CoreRegs := []
  pagers : Sparse PagerRegs := []
  out : List Outbound := []
  deriving DecidableEq, Repr

/-- Why the machine stops with a fault. The spec gives every access and every instruction an outcome, so no fault
exists: an exception of the spec is a next state. -/
inductive Fault where
  deriving DecidableEq, Repr

/-- Why an instruction has no meaning here. -/
inductive Refusal where
  /-- the instruction table has no meaning for the instruction; safe -/
  | notModelled (mnemonic : String)
  deriving DecidableEq, Repr

/-- The machine right after reset (R506 and the Reset columns of the register maps; assumptions 2 and 12). -/
def State.reset : State := {}

end Sys2Proof.Machine
end

