-- ==== Sys2Proof/Machine/Ops.lean ====
section
/-! DEFINITION. The named operations on the state: the registers of whoever acts, the outcome of an instruction, free
values, taking an exception (R474) and returning from one (R477). -/

namespace Sys2Proof.Machine
open Sys2Proof

/-- The outcome type of an instruction. -/
abbrev Out := Host.Outcome State Fault Refusal

/-! ## Strands -/

/-- The strand of a key; a strand that no entry holds is in its reset state. -/
def State.strand (s : State) (k : Nat) : Strand := sget {} s.strands k
/-- Replace a strand. -/
def State.setStrand (s : State) (k : Nat) (t : Strand) : State := { s with strands := sput s.strands k t }
/-- Change a strand by a function. -/
def State.upd (s : State) (k : Nat) (f : Strand → Strand) : State := s.setStrand k (f (s.strand k))
/-- The key of the strand that acts, or for which the acting cell works. -/
def State.key (s : State) : Nat := s.actor.key
/-- The strand that acts. -/
def State.me (s : State) : Strand := s.strand s.key
/-- Change the strand that acts. -/
def State.updMe (s : State) (f : Strand → Strand) : State := s.upd s.key f
/-- The core on which the actor works. -/
def State.core (s : State) : Nat := coreOf s.key
/-- The actor is a fabric cell. -/
def State.isCell (s : State) : Bool :=
  match s.actor with
  | .strand _ => false
  | .cell _ _ => true

/-- The cell context that acts. -/
def State.cellKey (s : State) : Nat :=
  match s.actor with
  | .strand k => 64 * k
  | .cell k c => 64 * k + c
/-- A cell context; one that no entry holds is all zero. -/
def State.cell (s : State) (j : Nat) : CellCtx := sget {} s.cells j
/-- Replace a cell context. -/
def State.setCell (s : State) (j : Nat) (c : CellCtx) : State := { s with cells := sput s.cells j c }

/-! ## Integer registers and the PC of the actor (R127, R153) -/

/-- Register r of a bank of 32 with x0 reading zero (R127). -/
def readX (x : Vector Dword 32) (r : Reg) : Dword := if r = 0 then 0 else x[r.toNat]'r.isLt
/-- Write register r of a bank of 32; a write of x0 is discarded (R127). -/
def writeX (x : Vector Dword 32) (r : Reg) (v : Dword) : Vector Dword 32 :=
  if r = 0 then x else x.set r.toNat v r.isLt
/-- Register r of a cell's bank of 16; x0 reads zero. The loader admits only registers up to 15 (R113). -/
def readCX (x : Vector Dword 16) (r : Reg) : Dword := if r = 0 then 0 else x.getD (r.toNat % 16) 0
/-- Write register r of a cell's bank of 16. -/
def writeCX (x : Vector Dword 16) (r : Reg) (v : Dword) : Vector Dword 16 :=
  if r = 0 then x else x.set (r.toNat % 16) v (Nat.mod_lt _ (by decide))

/-- Register r of the actor. -/
def State.x (s : State) (r : Reg) : Dword :=
  match s.actor with
  | .strand k => readX (s.strand k).x r
  | .cell _ _ => readCX (s.cell s.cellKey).x r
/-- Write register r of the actor. -/
def State.setX (s : State) (r : Reg) (v : Dword) : State :=
  match s.actor with
  | .strand k => s.upd k (fun t => { t with x := writeX t.x r v })
  | .cell _ _ => s.setCell s.cellKey { s.cell s.cellKey with x := writeCX (s.cell s.cellKey).x r v }

/-- The PC of the actor: an address for a strand, a byte offset in its block images for a cell (R322). -/
def State.pc (s : State) : Dword :=
  match s.actor with
  | .strand k => (s.strand k).pc
  | .cell _ _ => (s.cell s.cellKey).pc
/-- A cell fires (R339): its PC becomes v, the frame of the block entered becomes the one used most recently (R323),
the access that it withdrew has been made (R353), and the deadlock count of its invocation starts again. -/
def cellFires (s : State) (k : Nat) (v : Dword) : State :=
  let j := s.cellKey
  let c := s.cell j
  let b := v.toNat / 64
  let fr :=
    match c.frames.find? (fun f => f.1 == b) with
    | some f => f :: c.frames.filter (fun g => g.1 != b)
    | none => c.frames
  let s := s.setCell j { c with pc := v, wait := {}, frames := fr }
  match sfind s.invs k with
  | some i => { s with invs := sput s.invs k { i with count := 0, acted := true, withdrawn := i.withdrawn.filter (·.cell != j % 64) } }
  | none => s
/-- Set the PC of the actor. A wait ends when its instruction completes. -/
def State.setPc (s : State) (v : Dword) : State :=
  match s.actor with
  | .strand k => s.upd k (fun t => { t with pc := v, wait := {} })
  | .cell k _ => cellFires s k v
/-- The wait of the actor. -/
def State.waitOf (s : State) : Wait :=
  match s.actor with
  | .strand k => (s.strand k).wait
  | .cell _ _ => (s.cell s.cellKey).wait
/-- Replace the wait of the actor. -/
def State.setWait (s : State) (w : Wait) : State :=
  match s.actor with
  | .strand k => s.upd k (fun t => { t with wait := w })
  | .cell _ _ => s.setCell s.cellKey { s.cell s.cellKey with wait := w }
/-- The instruction of the actor has issued: should it wait, a pre-emption records it (R190, R277). -/
def State.issue (s : State) : State := s.setWait { s.waitOf with issued := true }
/-- Go on to the next instruction. -/
def State.advance (s : State) : State := s.setPc (s.pc + 4)

/-! ## Free values -/

/-- A free value of width w (assumption 4). -/
def State.freeVal (s : State) (w : Nat) : BitVec w := Config.free w s.freeCtr
/-- The state after a free value was used. -/
def State.bumpFree (s : State) : State := { s with freeCtr := s.freeCtr + 1 }

/-! ## Steps that can stop -/

/-- How an instruction can end other than by completing: it takes a trap, or it waits (it has not begun, and the actor runs it
again). -/
inductive Stop where
  | trap (t : TrapInfo)
  | wait
  deriving DecidableEq, Repr

/-- A computation on the state that can stop; the state at the stop holds the effects before it (R13). -/
abbrev M := EStateM Stop State

/-- Take a trap with cause c, EADDR a and EELEM e. -/
def trapM {α : Type} (c : Cause) (a : Dword) (e : Nat) : M α := throw (.trap ⟨c, a, e⟩)
/-- Wait: the instruction has not begun. -/
def waitM {α : Type} : M α := throw .wait
/-- Trap unless b holds. -/
def needM (b : Bool) (c : Cause) (a : Dword) (e : Nat) : M Unit := if b then pure () else trapM c a e
/-- Change the acting strand. -/
def updMeM (f : Strand → Strand) : M Unit := modify (·.updMe f)
/-- Run an action for each element of a list, in order. -/
def eachM {α : Type} (l : List α) (f : α → M Unit) : M Unit :=
  match l with
  | [] => pure ()
  | a :: t => do
    f a
    eachM t f
/-- Run an action for each element of a list, in order, collecting the answers. -/
def collectM {α β : Type} (l : List α) (f : α → M β) : M (List β) :=
  match l with
  | [] => pure []
  | a :: t => do
    let b ← f a
    let bs ← collectM t f
    pure (b :: bs)
/-- Run an action; a trap it takes is answered instead of taken. -/
def tryTrap {α : Type} (m : M α) : M (Except TrapInfo α) := fun s =>
  match m s with
  | .ok a s' => .ok (.ok a) s'
  | .error (.trap t) s' => .ok (.error t) s'
  | .error e s' => .error e s'

/-! ## Exceptions -/

/-- The time in nanoseconds since reset. -/
def State.now (s : State) : Nat := s.timeNs.toNat

/-- Entry into the executive (R474): ESTATUS.PPRIV, EPC, ECAUSE, EADDR and EELEM are written, the PC goes to EVEC. The
strand's links break (R289), its wait ends, and the count of R496 starts at an entry from user level. -/
def enterExecutive (s : State) (k : Nat) (t : TrapInfo) : State :=
  s.upd k (fun p => { p with
    e := { p.e with ppriv := p.level.code, epc := p.pc, cause := t.cause.code, addr := t.addr,
                    elem := BitVec.ofNat 32 t.elem }
    level := .executive, pc := p.e.vec ++ (0 : BitVec 2), links := [], wait := {},
    execSince := if p.level = .user then s.now else p.execSince })

/-- Entry into the firmware (R474). The count of R496 stands still there. -/
def enterFirmware (s : State) (k : Nat) (t : TrapInfo) : State :=
  s.upd k (fun p => { p with
    f := { p.f with ppriv := p.level.code, pc := p.pc, cause := t.cause.code, addr := t.addr,
                    elem := BitVec.ofNat 32 t.elem }
    level := .firmware, pc := p.f.vec ++ (0 : BitVec 2), links := [], wait := {}
    execSpent := match p.level with
      | .user => 0
      | .executive => s.now - p.execSince
      | .firmware => p.execSpent })

/-- The control block of a core. -/
def State.coreRegs (s : State) (n : Nat) : CoreRegs := sget {} s.cores n
/-- Change the control block of a core. -/
def State.updCore (s : State) (n : Nat) (f : CoreRegs → CoreRegs) : State :=
  { s with cores := sput s.cores n (f (s.coreRegs n)) }

/-- Debug halt of a core (R499): issue stops on every strand of the core. SETTLED and TIMEOUT follow from the copies
in flight; nothing else changes. -/
def haltCore (s : State) (n : Nat) : State :=
  s.updCore n (fun c => { c with halted := true, settled := false, timeout := false, haltAt := s.now })

/-- Taking an exception on strand k (R474): firmware for FCALL, WATCHDOG and any trap at firmware level, debug halt for
a breakpoint under BRKHALT, the executive otherwise. -/
def takeTrap (s : State) (k : Nat) (t : TrapInfo) : State :=
  if t.cause = .breakpoint ∧ (s.strand k).f.brkhalt then haltCore (s.upd k (fun p => { p with wait := {} })) (coreOf k)
  else if t.cause = .fcall ∨ t.cause = .watchdog ∨ (s.strand k).level = .firmware then enterFirmware s k t
  else enterExecutive s k t

/-- The return of eret at executive level (R477): the PC from EPC, the level from ESTATUS.PPRIV, HELD cleared. The
event latch is set (R148), and KWD.HOLD is cleared at a return to user level (R495). -/
def returnExecutive (s : State) (k : Nat) : State :=
  s.upd k (fun p => { p with
    pc := p.e.epc, level := Level.ofCode p.e.ppriv, event := true, wait := {},
    e := { p.e with held := false, kwdHold := p.e.kwdHold && Level.ofCode p.e.ppriv != .user } })

/-- The return of eret at firmware level (R477), with FPC and FSTATUS. At executive level the count of R496 goes on. -/
def returnFirmware (s : State) (k : Nat) : State :=
  s.upd k (fun p => { p with
    pc := p.f.pc, level := Level.ofCode p.f.ppriv, event := true, wait := {},
    e := { p.e with kwdHold := p.e.kwdHold && Level.ofCode p.f.ppriv != .user }
    execSince := if Level.ofCode p.f.ppriv = .executive then s.now - p.execSpent else p.execSince })

end Sys2Proof.Machine
end

