-- ==== Sys2Proof/Machine/Spr.lean ====
section
/-! DEFINITION. The special registers (R115 to R117, R142) with the rules of their maps (R5, R6): what a read returns
and what a write stores. VLMAX and the ring names of a strand stand here too, since register writes use them. -/

namespace Sys2Proof.Machine
open Sys2Proof

/-! ## VTYPE and VL (R181, R182) -/

/-- VTYPE.EW as a number of bits. -/
def ewBits (vt : BitVec 8) : Nat := 8 * 2 ^ (vt.extractLsb' 0 2 : BitVec 2).toNat
/-- VTYPE.GRP as a number of registers. -/
def grpRegs (vt : BitVec 8) : Nat := 2 ^ (vt.extractLsb' 3 2 : BitVec 2).toNat
/-- VTYPE.ALT. -/
def vtAlt (vt : BitVec 8) : Bool := vt.getLsbD 2
/-- VTYPE.TA. -/
def vtTa (vt : BitVec 8) : Bool := vt.getLsbD 5
/-- VTYPE.MA. -/
def vtMa (vt : BitVec 8) : Bool := vt.getLsbD 6
/-- VLMAX (R181). -/
def vlmaxOf (vt : BitVec 8) : Nat := 4096 * grpRegs vt / ewBits vt
/-- A vtype value as a register write stores it: bit 7 ignored, ALT stored as 0 with EW of 32 or 64 (R181). -/
def vtypeStored (v : BitVec 8) : BitVec 8 := if v.getLsbD 1 then v &&& 0x7B else v &&& 0x7F
/-- VL as a write of value n stores it (R182). -/
def vlStored (vt : BitVec 8) (n : Nat) : BitVec 13 := BitVec.ofNat 13 (min n (vlmaxOf vt))

/-- A strand with VTYPE written: VL falls to the new VLMAX (R182). -/
def Strand.setVtype (t : Strand) (vt : BitVec 8) : Strand := { t with vtype := vt, vl := vlStored vt t.vl.toNat }
/-- A strand with VL written (R182). -/
def Strand.setVl (t : Strand) (n : Nat) : Strand := { t with vl := vlStored t.vtype n }

/-! ## Stochastic rounding seeds (R164) -/

/-- The generator state of lane L after seeding. -/
def seedLane (seed : Dword) (lane : Nat) : Word :=
  let s := (seed.extractLsb' 0 32 : Word) ^^^ (0x9E3779B9 * BitVec.ofNat 32 (lane + 1))
  if s = 0 then 1 else s
/-- SRSEED written: all 32 states are seeded anew. -/
def Strand.setSeed (t : Strand) (v : Dword) : Strand :=
  { t with srseed := v, srgen := Vector.ofFn (fun i : Fin 32 => seedLane v i.val) }

/-! ## User-level interrupt kinds (R421, R148) -/

/-- Kinds pending and admitted. -/
def UiRegs.admitted (u : UiRegs) : BitVec 6 := u.pend &&& ~~~u.mask
/-- A strand whose interrupt registers become u: the event latch is set when an admitted kind becomes pending. -/
def Strand.setUi (t : Strand) (u : UiRegs) : Strand :=
  { t with ui := u, event := t.event || u.admitted &&& ~~~t.ui.admitted != 0 }

/-! ## Rings of a strand (R191) -/

/-- The group of a strand. -/
def State.groupOf (s : State) (k : Nat) : Option Group :=
  match (s.strand k).place with
  | some p => sfind s.groups p.group
  | none => none
/-- The size of a group's window 0xF1 (R84). -/
def Group.spadSize (g : Group) : Nat := 4096 * g.spad.length
/-- The kernel of a strand. -/
def State.kernelOf (s : State) (k : Nat) : Option Kernel :=
  match s.groupOf k with
  | some g => sfind s.kernels g.kernel
  | none => none
/-- The strand that keeps the rings, relay queues and tile names of strand k: the loader in trio mode (R191, R196). -/
def State.shardKey (s : State) (k : Nat) : Nat :=
  match s.groupOf k with
  | some g => if g.trio then g.keys.headD k else k
  | none => k
/-- The strand works in trio mode. -/
def State.trio (s : State) (k : Nat) : Bool :=
  match s.groupOf k with
  | some g => g.trio
  | none => false
/-- The kernel's RINGS declares ring n (R39). -/
def State.ringDeclared (s : State) (k n : Nat) : Bool :=
  match s.kernelOf k with
  | some kn => kn.res.rings.getLsbD n
  | none => false
/-- Ring n of the shard of strand k. -/
def State.ring (s : State) (k : Nat) (n : BitVec 3) : Ring := (s.strand (s.shardKey k)).rings[n.toNat]'n.isLt
/-- Replace ring n of the shard of strand k. -/
def State.setRing (s : State) (k : Nat) (n : BitVec 3) (r : Ring) : State :=
  s.upd (s.shardKey k) (fun t => { t with rings := t.rings.set n.toNat r n.isLt })

/-- The all-zero flags that the writes of tasks in chrysalis gave slots of a ring go, as the ring's own do where its base or its geometry
is written (R191, R197). -/
def dropRingZero (s : State) (k : Nat) (n : BitVec 3) : State :=
  let q := 8 * s.shardKey k + n.toNat
  if s.tasks.any (fun p => (sfind p.2.bufZero q).isSome) then
    { s with tasks := s.tasks.map (fun (p : Nat × Task) => (p.1, { p.2 with bufZero := sdel p.2.bufZero q })) }
  else s

/-- The number names a ring's descriptor register (R115). -/
def ringNumber (n : BitVec 12) : Bool := decide (0x040 ≤ n.toNat) && decide (n.toNat < 0x060)
/-- A tmop that waits has issued before the instruction of strand k, which may be a tmop that waits as well (R253, R260). -/
def State.issuedBefore (s : State) (w : Wait) (k : Nat) : Bool :=
  w.issued && (let mine := (s.strand k).wait.seq; mine == 0 || decide (w.seq < mine))
/-- The slots of a queue that tmops in flight of other strands of the shard of strand k have claimed before it (R193, R260). -/
def State.claimsElsewhere (s : State) (k : Nat) (q : Queue) : Nat :=
  match s.groupOf k with
  | some g =>
    if g.trio then
      (g.keys.filter (· != k)).foldl (fun n j =>
        let w := (s.strand j).wait
        if s.issuedBefore w k then n + ((w.claims.filter (fun p => p.1 == q)).map (·.2)).sum else n) 0
    else 0
  | none => 0
/-- A tmop in flight of another strand of the shard of strand k holds claims on a queue before it (R193, R260). -/
def State.claimedElsewhere (s : State) (k : Nat) (q : Queue) : Bool := s.claimsElsewhere k q != 0
/-- An instruction in flight of another strand of the shard fills or reads ring n (R191). -/
def State.ringInFlight (s : State) (k : Nat) (n : BitVec 3) : Bool :=
  (s.ring k n).unlanded.any (fun p => p.2 != k && decide (p.2 < 384) && (s.strand p.2).wait.issued) || s.claimedElsewhere k (.ring n)

/-- Bit n: slot n is bound in process a (FXSLOTS, R115). -/
def State.fxslots (s : State) (a : BitVec 16) : Dword :=
  forN 32 (fun n v => if (sget {} s.slots (32 * a.toNat + n)).bound.isSome then v ||| (1 <<< n) else v) 0

/-! ## Reading -/

/-- A read of special register n by strand k; none where no register has the number (R115, R116, R479). -/
def sprRead (s : State) (k : Nat) (n : BitVec 12) : Option Dword :=
  let t := s.strand k
  let e := t.e
  let f := t.f
  let z (w : Nat) (v : BitVec w) : Option Dword := some (v.zeroExtend 64)
  match n.toNat with
  | 0x000 => z _ t.vl
  | 0x001 => z _ t.vtype
  | 0x002 => z _ t.vstart
  | 0x003 => z _ t.vslip
  | 0x004 => z _ t.fflags
  | 0x005 => z _ t.frm
  | 0x006 => some t.srseed
  | 0x007 => some t.vstat
  | 0x008 => some (t.strandid.getD (BitVec.ofNat 64 (strandNo k)))
  | 0x009 => some s.cycle
  | 0x00A => some s.timeNs
  | 0x00B => z _ t.tstep
  | 0x00C => some t.pwaddr
  | 0x00D => some t.fxstat
  | 0x010 => z _ t.fxidx[0] | 0x011 => z _ t.fxidx[1] | 0x012 => z _ t.fxidx[2] | 0x013 => z _ t.fxidx[3]
  | 0x014 => some (s.fxslots e.asid)
  | 0x018 => some (t.ui.vec ++ (0 : BitVec 1) ++ bit1 t.ui.inHandler)
  | 0x019 => some ((~~~(0 : BitVec 58)) ++ t.ui.mask)
  | 0x01A => z _ t.ui.pend
  | 0x01B => some t.ui.pc
  | 0x020 => z _ t.cpyDone[0] | 0x021 => z _ t.cpyDone[1] | 0x022 => z _ t.cpyDone[2] | 0x023 => z _ t.cpyDone[3]
  | 0x024 => z _ t.cpyNext[0] | 0x025 => z _ t.cpyNext[1] | 0x026 => z _ t.cpyNext[2] | 0x027 => z _ t.cpyNext[3]
  | 0x030 => some t.tlc[0] | 0x031 => some t.tlc[1] | 0x032 => some t.tlc[2] | 0x033 => some t.tlc[3]
  | 0x100 => some ((0 : BitVec 61) ++ bit1 e.held ++ e.ppriv)
  | 0x101 => some e.epc
  | 0x102 => z _ e.cause
  | 0x103 => some e.addr
  | 0x104 => z _ e.elem
  | 0x105 => some (e.vec ++ (0 : BitVec 2))
  | 0x106 => some e.scratch
  | 0x108 => some e.chainPc[0] | 0x109 => some e.chainPc[1] | 0x10A => some e.chainPc[2] | 0x10B => some e.chainPc[3]
  | 0x10C => some e.chainSt[0] | 0x10D => some e.chainSt[1] | 0x10E => some e.chainSt[2] | 0x10F => some e.chainSt[3]
  | 0x110 => z _ e.asid
  | 0x111 => some ((0 : BitVec 12) ++ e.ptbase ++ (0 : BitVec 16))
  | 0x112 => z _ e.vwin
  | 0x113 =>
    let c : BitVec 20 :=
      match sfind s.invs k with
      | some i => if i.running then BitVec.ofNat 20 i.count else 0
      | none => 0
    some ((0 : BitVec 43) ++ bit1 e.fxwdFired ++ c)
  | 0x114 => some ((0 : BitVec 63) ++ bit1 e.kwdHold)
  | 0x200 => z _ f.ppriv
  | 0x201 => some f.pc
  | 0x202 => z _ f.cause
  | 0x203 => some f.addr
  | 0x204 => z _ f.elem
  | 0x205 => some (f.vec ++ (0 : BitVec 2))
  | 0x206 => some f.scratch
  | 0x207 => some ((0 : BitVec 62) ++ bit1 f.brkhalt ++ bit1 f.dbgen)
  | 0x208 => z _ f.fewd
  | m =>
    if 0x040 ≤ m ∧ m < 0x060 then
      let r := s.ring k (BitVec.ofNat 3 ((m - 0x040) / 4))
      match (m - 0x040) % 4 with
      | 0 => some (r.base ++ (0 : BitVec 8))
      | 1 => some ((0 : BitVec 48) ++ r.nslotm1 ++ (0 : BitVec 4) ++ r.log2slot)
      | 2 => z _ r.head
      | _ => z _ r.tail
    else none

/-! ## Writing -/

/-- The low w bits of a value written. -/
def low (w : Nat) (v : Dword) : BitVec w := v.extractLsb' 0 w

/-- PPRIV as a write stores it: the codes up to mx, else unchanged (R478, R479). -/
def pprivStored (mx : Nat) (old new : BitVec 2) : BitVec 2 := if new.toNat ≤ mx then new else old

/-- The numbers that user code only reads (R115). -/
def sprUserRO (n : BitVec 12) : Bool :=
  let m := n.toNat
  m == 0x008 || m == 0x009 || m == 0x00A || m == 0x00D || m == 0x014 || (decide (0x020 ≤ m) && decide (m ≤ 0x027))

/-- A write of value v to special register n of strand k, under the register's own rules (R115, R142, R181, R182, R191,
R421, R478, R479). CYCLE, TIMENS and FXSLOTS are written by nobody (R117). A write of RING_BASE or RING_GEOM clears the ring's all-zero
flags with its counts (R191 names the counts only, R197 the flags too for qcfg, which writes them; DESIGN CHOICE, assumption 67). -/
def sprWrite (s : State) (k : Nat) (n : BitVec 12) (v : Dword) : State :=
  let u (f : Strand → Strand) : State := s.upd k f
  let ue (f : ExecRegs → ExecRegs) : State := s.upd k (fun t => { t with e := f t.e })
  let uf (f : FirmRegs → FirmRegs) : State := s.upd k (fun t => { t with f := f t.f })
  match n.toNat with
  | 0x000 => u (·.setVl v.toNat)
  | 0x001 => u (·.setVtype (vtypeStored (low 8 v)))
  | 0x002 => u (fun t => { t with vstart := BitVec.ofNat 13 (min (low 13 v).toNat 4096) })
  | 0x003 => u (fun t => { t with vslip := low 3 v })
  | 0x004 => u (fun t => { t with fflags := low 6 v })
  | 0x005 => u (fun t => { t with frm := low 3 v })
  | 0x006 => u (·.setSeed v)
  | 0x007 => u (fun t => { t with vstat := v &&& 0x3FFFFFFFF })
  | 0x008 => u (fun t => { t with strandid := some v })
  | 0x00B => u (fun t => { t with tstep := low 32 v })
  | 0x00C => u (fun t => { t with pwaddr := v })
  | 0x00D => u (fun t => { t with fxstat := v &&& 0x1FFFFF01FFFF })
  | 0x010 => u (fun t => { t with fxidx := t.fxidx.set 0 (low 32 v) })
  | 0x011 => u (fun t => { t with fxidx := t.fxidx.set 1 (low 32 v) })
  | 0x012 => u (fun t => { t with fxidx := t.fxidx.set 2 (low 32 v) })
  | 0x013 => u (fun t => { t with fxidx := t.fxidx.set 3 (low 32 v) })
  | 0x018 => u (fun t => { t with ui := { t.ui with vec := v.extractLsb' 2 62 } })
  | 0x019 => u (fun t => t.setUi { t.ui with mask := low 6 v })
  | 0x01A => u (fun t => t.setUi { t.ui with pend := low 6 v })
  | 0x01B => u (fun t => { t with ui := { t.ui with pc := v } })
  | 0x020 => u (fun t => { t with cpyDone := t.cpyDone.set 0 (low 32 v) })
  | 0x021 => u (fun t => { t with cpyDone := t.cpyDone.set 1 (low 32 v) })
  | 0x022 => u (fun t => { t with cpyDone := t.cpyDone.set 2 (low 32 v) })
  | 0x023 => u (fun t => { t with cpyDone := t.cpyDone.set 3 (low 32 v) })
  | 0x024 => u (fun t => { t with cpyNext := t.cpyNext.set 0 (low 32 v) })
  | 0x025 => u (fun t => { t with cpyNext := t.cpyNext.set 1 (low 32 v) })
  | 0x026 => u (fun t => { t with cpyNext := t.cpyNext.set 2 (low 32 v) })
  | 0x027 => u (fun t => { t with cpyNext := t.cpyNext.set 3 (low 32 v) })
  | 0x030 => u (fun t => { t with tlc := t.tlc.set 0 v })
  | 0x031 => u (fun t => { t with tlc := t.tlc.set 1 v })
  | 0x032 => u (fun t => { t with tlc := t.tlc.set 2 v })
  | 0x033 => u (fun t => { t with tlc := t.tlc.set 3 v })
  | 0x100 => ue (fun e => { e with held := v.getLsbD 2, ppriv := pprivStored 1 e.ppriv (low 2 v) })
  | 0x101 => ue (fun e => { e with epc := v })
  | 0x102 => ue (fun e => { e with cause := low 8 v })
  | 0x103 => ue (fun e => { e with addr := v })
  | 0x104 => ue (fun e => { e with elem := low 32 v })
  | 0x105 => ue (fun e => { e with vec := v.extractLsb' 2 62 })
  | 0x106 => ue (fun e => { e with scratch := v })
  | 0x108 => ue (fun e => { e with chainPc := e.chainPc.set 0 (v &&& ~~~2) })
  | 0x109 => ue (fun e => { e with chainPc := e.chainPc.set 1 (v &&& ~~~2) })
  | 0x10A => ue (fun e => { e with chainPc := e.chainPc.set 2 (v &&& ~~~2) })
  | 0x10B => ue (fun e => { e with chainPc := e.chainPc.set 3 (v &&& ~~~2) })
  | 0x10C => ue (fun e => { e with chainSt := e.chainSt.set 0 (v &&& 0xFF1FFF1FFF) })
  | 0x10D => ue (fun e => { e with chainSt := e.chainSt.set 1 (v &&& 0xFF1FFF1FFF) })
  | 0x10E => ue (fun e => { e with chainSt := e.chainSt.set 2 (v &&& 0xFF1FFF1FFF) })
  | 0x10F => ue (fun e => { e with chainSt := e.chainSt.set 3 (v &&& 0xFF1FFF1FFF) })
  | 0x110 => ue (fun e => { e with asid := low 16 v })
  | 0x111 => ue (fun e => { e with ptbase := v.extractLsb' 16 36 })
  | 0x112 => ue (fun e => { e with vwin := low 8 v })
  | 0x113 => ue (fun e => { e with fxwdFired := e.fxwdFired && !v.getLsbD 20 })
  | 0x114 => ue (fun e => { e with kwdHold := v.getLsbD 0 })
  | 0x200 => uf (fun f => { f with ppriv := pprivStored 2 f.ppriv (low 2 v) })
  | 0x201 => uf (fun f => { f with pc := v })
  | 0x202 => uf (fun f => { f with cause := low 8 v })
  | 0x203 => uf (fun f => { f with addr := v })
  | 0x204 => uf (fun f => { f with elem := low 32 v })
  | 0x205 => uf (fun f => { f with vec := v.extractLsb' 2 62 })
  | 0x206 => uf (fun f => { f with scratch := v })
  | 0x207 => uf (fun f => { f with brkhalt := v.getLsbD 1, dbgen := v.getLsbD 0 })
  | 0x208 => uf (fun f => { f with fewd := low 32 v })
  | m =>
    if 0x040 ≤ m ∧ m < 0x060 then
      let n := BitVec.ofNat 3 ((m - 0x040) / 4)
      let r := s.ring k n
      match (m - 0x040) % 4 with
      | 0 => (dropRingZero s k n).setRing k n { r with base := v.extractLsb' 8 56, head := 0, tail := 0, zero := [], unlanded := [] }
      | 1 => (dropRingZero s k n).setRing k n { r with nslotm1 := v.extractLsb' 8 8, log2slot := low 4 v, head := 0, tail := 0, zero := [], unlanded := [] }
      | 2 => s.setRing k n { r with head := low 32 v }
      | _ => s.setRing k n { r with tail := low 32 v }
    else s

/-! ## Checks (R117) -/

/-- The checks of mfs, mts, sset and sclr on number n by strand k, for the instruction word w: the trap they take. -/
def sprCheck (s : State) (k : Nat) (n : BitVec 12) (w : Word) : Option TrapInfo :=
  let lv := (s.strand k).level
  if (n.toNat ≥ 0x200 ∧ lv ≠ .firmware) ∨ (n.toNat ≥ 0x100 ∧ lv = .user) then
    some ⟨.privilege, w.zeroExtend 64, 0⟩
  else if (sprRead s k n).isNone then some ⟨.illegalInstruction, w.zeroExtend 64, 0⟩
  else if 0x040 ≤ n.toNat ∧ n.toNat < 0x060 ∧ !s.ringDeclared k ((n.toNat - 0x040) / 4) then
    some ⟨.ringFault, BitVec.ofNat 64 ((n.toNat - 0x040) / 4), 0⟩
  else none

/-- A write by an instruction: a user write of a register that user code only reads is ignored (R117). -/
def sprInstrWrite (s : State) (k : Nat) (n : BitVec 12) (v : Dword) : State :=
  if (s.strand k).level = .user ∧ sprUserRO n then s else sprWrite s k n v

end Sys2Proof.Machine
end

