-- ==== Sys2Proof/Machine/Local.lean ====
section
/-! DEFINITION. Local memories: their places in the flat memory (R23), the windows through which a strand reaches them (R83, R84, R88,
R89, R266, R268), and the slots of rings that lie in them (R191, R195). -/

namespace Sys2Proof.Machine
open Sys2Proof

/-! ## Flat addresses of the local memories (R23): global physical addresses lie below 2^52 -/

/-- Byte off of the slice of a lane of a core. -/
def flatLane (core lane off : Nat) : Nat := 2 ^ 56 + core * 0x80000 + lane * 0x4000 + off
/-- Byte off of the scratchpad of a core. -/
def flatSpad (core off : Nat) : Nat := 2 ^ 57 + core * 0x300000 + off
/-- Byte off of the scratchpad of a die. -/
def flatDie (die off : Nat) : Nat := 2 ^ 58 + die * 0x2000000 + off
/-- A flat address lies in a local memory. -/
def isLocal (a : Nat) : Bool := decide (2 ^ 56 ≤ a)

/-! ## Local windows -/

/-- The window code of an address. -/
def winCode (ea : Dword) : Nat := ea.toNat / 2 ^ 56
/-- The offset of an address. -/
def winOff (ea : Dword) : Nat := ea.toNat % 2 ^ 56

/-- Byte off of an allocation that consists of 4 KiB blocks (R88, R89): its byte within the scratchpad. -/
def blockByte (l : List Nat) (off : Nat) : Nat := 4096 * l.getD (off / 4096) 0 + off % 4096

/-- The flat address of an offset of a local window, for strand k and a lane (R83, R84, R88, R89, R268). -/
def localFlat (s : State) (k : Nat) (code off lane : Nat) : Nat :=
  let core := coreOf k
  match s.groupOf k with
  | none => 2 ^ 59
  | some g =>
    let die (d : Nat) : Nat :=
      match s.kernelOf k with
      | some n => flatDie d (blockByte (sget [] n.dieAlloc d) off)
      | none => 2 ^ 59
    match code with
    | 0xF0 => flatLane core lane (g.laneOff + off)
    | 0xF1 => flatSpad core (blockByte g.spad off)
    | 0xF2 =>
      match s.kernelOf k with
      | some n => flatSpad (4 * clusterOf core + off / 256 % 4)
                    (blockByte ((sget [] n.clAlloc (clusterOf core)).getD (off / 256 % 4) []) (off / 1024 * 256 + off % 256))
      | none => 2 ^ 59
    | 0xF3 => die (dieOf core)
    | c => die (c - 0xF4)

/-! ## Rings -/

/-- The bytes of slot n of a ring start at this generic address (R191). -/
def ringSlotAddr (r : Ring) (n : Nat) : Dword :=
  (r.base ++ (0 : BitVec 8)) + BitVec.ofNat 64 (2 ^ r.log2slot.toNat * (n % (r.nslotm1.toNat + 1)))

/-- A write that lands at a flat address clears the all-zero flag of every ring slot it lands in (R195). -/
def clearRingFlags (s : State) (flat : Nat) : State :=
  if s.strands.any (fun p => p.2.rings.toList.any (fun r => !r.zero.isEmpty)) then
    { s with strands := s.strands.map (fun p =>
      (p.1, { p.2 with rings := p.2.rings.map (fun r =>
        { r with zero := r.zero.filter (fun n =>
            let a := ringSlotAddr r n
            !((List.range (2 ^ r.log2slot.toNat / 64)).any (fun q =>
                localFlat s p.1 (winCode a) (winOff a + 64 * q) 0 / 64 == flat / 64))) }) })) }
  else s

end Sys2Proof.Machine
end

