-- ==== Sys2Proof/Machine/Debug.lean ====
section
/-! DEFINITION. The vector registers, masks and tiles of a strand, and the items that debug access reaches (R500). -/

namespace Sys2Proof.Machine
open Sys2Proof

/-! ## Vector registers (R178) -/

/-- The window code of R39 as a number of registers. -/
def winSize (c : BitVec 2) : Nat := 8 * (c.toNat + 1)
/-- The size of the window of a strand; 0 when FIRST + size exceeds 64 (R478). -/
def Strand.window (t : Strand) : Nat :=
  let f := (t.e.vwin.extractLsb' 0 6 : BitVec 6).toNat
  let n := winSize (t.e.vwin.extractLsb' 6 2)
  if f + n ≤ 64 then n else 0
/-- The key of register v of strand k. -/
def State.vkey (s : State) (k : Nat) (v : Nat) : Nat :=
  64 * coreOf k + ((s.strand k).e.vwin.extractLsb' 0 6 : BitVec 6).toNat + v
/-- Vector register v of strand k. -/
def State.vreg (s : State) (k v : Nat) : VecReg := sget 0 s.vregs (s.vkey k v)
/-- Write vector register v of strand k. -/
def State.setVreg (s : State) (k v : Nat) (x : VecReg) : State := { s with vregs := sput s.vregs (s.vkey k v) x }

/-- Mask m of a strand; m0 reads all ones (R184). -/
def Strand.mask (t : Strand) (m : BitVec 3) : MaskReg := if m = 0 then BitVec.allOnes 4096 else t.m[m.toNat]'m.isLt
/-- Write mask m of a strand; a write to m0 is discarded (R184). -/
def Strand.setMask (t : Strand) (m : BitVec 3) (v : MaskReg) : Strand :=
  if m = 0 then t else { t with m := t.m.set m.toNat v m.isLt }

/-- A register image with the w bits at bit lo replaced. -/
def putBits {n : Nat} (x : BitVec n) (lo w : Nat) (v : Nat) : BitVec n :=
  (x &&& ~~~(BitVec.ofNat n ((2 ^ w - 1) <<< lo))) ||| BitVec.ofNat n ((v % 2 ^ w) <<< lo)
/-- The w bits of a register image at bit lo. -/
def getBits {n : Nat} (x : BitVec n) (lo w : Nat) : Nat := x.toNat / 2 ^ lo % 2 ^ w

/-! ## Tiles (R247) -/

/-- The physical tile of core n bound to name acc of shard k, if there is one. -/
def State.tileKey (s : State) (k : Nat) (acc : BitVec 2) : Option Nat :=
  (upFrom (4 * coreOf k) 4).find? (fun j => (sget {} s.tiles j).bound == some (s.shardKey k, acc))
/-- Element (i, j) of a tile. -/
def Tile.elem (t : Tile) (i j : Nat) : Word := BitVec.ofNat 32 (getBits (sget 0 t.rows i) (32 * j) 32)
/-- A tile with element (i, j) written. -/
def Tile.setElem (t : Tile) (i j : Nat) (v : Word) : Tile :=
  { t with rows := sput t.rows i (putBits (sget 0 t.rows i) (32 * j) 32 v.toNat) }

/-! ## Debug access (R500) -/

/-- Debug is enabled on a core: some strand of it has FDEBUG.DBGEN (assumption 20). -/
def dbgEnabled (s : State) (n : Nat) : Bool := (upFrom (3 * n) 3).any (fun k => (s.strand k).f.dbgen)

/-- The item that DBGSEL and DBGIDX of core n select; none where the access is refused. -/
def dbgItem (s : State) (n : Nat) : Option Dword :=
  let c := s.coreRegs n
  let i := c.idx.toNat
  if !c.halted || !dbgEnabled s n || c.selStrand = 3 then none
  else
    let k := 3 * n + c.selStrand.toNat
    let t := s.strand k
    match c.selSpace.toNat with
    | 0 => if i < 32 then some (readX t.x (BitVec.ofNat 5 i)) else none
    | 1 => if i < 4096 then sprRead s k (BitVec.ofNat 12 i) else none
    | 2 => if i = 0 then some t.pc else none
    | 3 => if i < 2048 ∧ i / 64 < t.window then some (BitVec.ofNat 64 (getBits (s.vreg k (i / 64)) (64 * (i % 64)) 64))
           else none
    | 4 => if i < 512 then some (BitVec.ofNat 64 (getBits (t.mask (BitVec.ofNat 3 (i / 64))) (64 * (i % 64)) 64)) else none
    | 5 => if i < 64 then some (BitVec.ofNat 64 (getBits t.cm (64 * i) 64)) else none
    | 6 =>
      if i < 65536 then
        match s.tileKey k (BitVec.ofNat 2 (i / 16384)) with
        | some j => some (((sget {} s.tiles j).elem (i / 128 % 128) (i % 128)).zeroExtend 64)
        | none => none
      else none
    | 7 => if i < 0x300000 ∧ i % 8 = 0 then some (BitVec.ofNat 64 (Mem.readN s.mem (flatSpad n i) 8)) else none
    | 8 =>
      if i < 2 ^ 21 ∧ i % 65536 < 0x4000 ∧ i % 8 = 0 then
        some (BitVec.ofNat 64 (Mem.readN s.mem (flatLane n (i / 65536) (i % 0x4000)) 8))
      else none
    | _ => none

/-- A debug write of a dword of local memory (R195, R500). -/
def dbgStore (s : State) (flat : Nat) (v : Dword) : State := clearRingFlags { s with mem := Mem.writeN s.mem flat 8 v.toNat } flat
/-- Write the selected item of core n. A special-register write passes through the register's own rules; a write of the PC
discards the chain record and leaves what the strand was waiting in, an ending of its part (R501), a running fx as its stop state (R352, R499); its bits [1:0] are
taken as zero, since a PC is always a multiple of 4 (R98; DESIGN CHOICE, log entry 54);
a write of local memory clears the all-zero flags of the ring slots it lands in (R195); full-empty bits and poison stay (R500). -/
def dbgWrite (s : State) (n : Nat) (v : Dword) : State :=
  let c := s.coreRegs n
  let i := c.idx.toNat
  let k := 3 * n + c.selStrand.toNat
  match c.selSpace.toNat with
  | 0 => s.upd k (fun t => { t with x := writeX t.x (BitVec.ofNat 5 i) v })
  | 1 => sprWrite s k (BitVec.ofNat 12 i) v
  | 2 =>
    { s with solvers := s.solvers.map (fun (p : Nat × Solver) => (p.1, { p.2 with enders := nsErase p.2.enders k }))
             invs := s.invs.map (fun (p : Nat × Inv) => if p.1 = k && p.2.running then (p.1, { p.2 with stop := some { reason := 3 } }) else p) }.upd k
      (fun t => { t with pc := v &&& ~~~3, wait := {}, watch := [], latch := none, ending := false, chain := none, e := { t.e with chainPc := Vector.replicate 4 0, chainSt := Vector.replicate 4 0 } })
  | 3 => s.setVreg k (i / 64) (putBits (s.vreg k (i / 64)) (64 * (i % 64)) 64 v.toNat)
  | 4 => s.upd k (fun t => t.setMask (BitVec.ofNat 3 (i / 64)) (putBits (t.mask (BitVec.ofNat 3 (i / 64))) (64 * (i % 64)) 64 v.toNat))
  | 5 => s.upd k (fun t => { t with cm := putBits t.cm (64 * i) 64 v.toNat })
  | 6 =>
    match s.tileKey k (BitVec.ofNat 2 (i / 16384)) with
    | some j => { s with tiles := sput s.tiles j ((sget {} s.tiles j).setElem (i / 128 % 128) (i % 128) (low 32 v)) }
    | none => s
  | 7 => dbgStore s (flatSpad n i) v
  | _ => dbgStore s (flatLane n (i / 65536) (i % 0x4000)) v

/-- A read of DBGDLO of core n (R500): the item's low half, the high half latched; all ones and BADACC when refused. -/
def dbgDloRead (s : State) (n : Nat) : Word × State :=
  match dbgItem s n with
  | some v => (low 32 v, s.updCore n (fun c => { c with dlo := low 32 v, dhi := v.extractLsb' 32 32, badacc := false }))
  | none => (BitVec.allOnes 32, s.updCore n (fun c => { c with badacc := true, dhi := BitVec.allOnes 32 }))
/-- A write of DBGDLO of core n (R500): the item with the held high half. -/
def dbgDloWrite (s : State) (n : Nat) (v : Word) : State :=
  match dbgItem s n with
  | some _ => dbgWrite (s.updCore n (fun c => { c with badacc := false })) n ((s.coreRegs n).dhi ++ v)
  | none => s.updCore n (fun c => { c with badacc := true })

end Sys2Proof.Machine
end

