-- ==== Sys2Proof/Machine/Device.lean ====
section
/-! DEFINITION. The device register window (0xFE) and the first BAR: which register lies at an offset, what a read
returns and what a write does (R5, R6, R27 to R29, R58, R61, R96, R318, R437, R482, R491, R493, R498, R500, R505, R508,
R511). A write that sets off more than a change of its register leaves a turn in State.effects, which the next step
takes. -/

namespace Sys2Proof.Machine
open Sys2Proof

/-- Some queue is enabled (R61). -/
def LaunchUnit.anyEnabled (l : LaunchUnit) : Bool :=
  l.queues.any (fun p => p.2.state == .idle || p.2.state == .waiting || p.2.state == .mapped)
/-- A queue; one that no entry holds is disabled. -/
def State.queue (s : State) (q : Nat) : SQueue := sget {} s.lu.queues q
/-- Change a queue. -/
def State.updQueue (s : State) (q : Nat) (f : SQueue → SQueue) : State :=
  { s with lu := { s.lu with queues := sput s.lu.queues q (f (s.queue q)) } }
/-- A kernel of the table by its queue and record number (R494). -/
def State.kernelAt (s : State) (q : Nat) (r : BitVec 32) : Option (Nat × Kernel) :=
  s.kernels.find? (fun p => p.2.qid == q && p.2.recNo == r)
/-- The kernel suspended longest (R493). -/
def State.longestHung (s : State) : Option Kernel :=
  s.kernels.foldl (fun b p =>
    if p.2.state == .suspendedHung then
      match b with
      | some h => if p.2.hungAt < h.hungAt then some p.2 else b
      | none => some p.2
    else b) none
/-- The code of KSTAT.STATE (R493). -/
def KState.code : KState → BitVec 3
  | .waiting => 1 | .running => 2 | .suspendedHung => 3 | .ending => 4
/-- The pager registers of a die. -/
def State.pager (s : State) (d : Nat) : PagerRegs := sget {} s.pagers d
/-- Change the device registers. -/
def State.updDev (s : State) (f : Device → Device) : State := { s with dev := f s.dev }
/-- Change the launch unit's registers. -/
def State.updLu (s : State) (f : LaunchUnit → LaunchUnit) : State := { s with lu := f s.lu }
/-- Set off an effect that the next step takes. -/
def State.setOff (s : State) (t : Turn) : State := { s with effects := s.effects ++ [t] }
/-- Set off an effect that is not set off yet. -/
def State.setOffOnce (s : State) (t : Turn) : State := if s.effects.contains t then s else s.setOff t

/-- DBGSTAT.GCOPY of core n (R498): bit 4 × strand + channel. -/
def gcopy (s : State) (n : Nat) : BitVec 12 :=
  forN 12 (fun i v =>
    if ((s.strand (3 * n + i / 4)).chan.getD (i % 4) {}).pending.any
        (fun t => !t.completed && (t.box.dst.extractLsb' 56 8 : Byte) == 0)
    then v ||| (1 <<< i) else v) 0

/-- Features offered (R507). -/
def featOffer : BitVec 256 := 0x1FF
/-- Feature bits by name (R507). -/
def State.feat (s : State) (n : Nat) : Bool := s.dev.facc.getLsbD n

/-- A 32-bit register lies at the offset (every register of the window is 32 bits wide). -/
def isReg (o : Nat) : Bool :=
  o % 4 == 0 &&
  (decide (o < 0x20) || (decide (0x100 ≤ o) && decide (o < 0x130)) || o == 0x140 || o == 0x144 ||
   (decide (0x200 ≤ o) && decide (o < 0x254)) || o == 0x260 || o == 0x264 ||
   (decide (0x280 ≤ o) && decide (o < 0x2C0)) || (decide (0x400 ≤ o) && decide (o < 0x500)) ||
   (decide (0x800 ≤ o) && decide (o < 0x880)) || (decide (0x1004 ≤ o) && decide (o < 0x1400)) ||
   (decide (0x40000 ≤ o) && decide (o < 0x48000) && (decide (o % 0x100 < 0x30) || (decide (0x40 ≤ o % 0x100) && decide (o % 0x100 < 0x58))
     || (decide (0x80 ≤ o % 0x100) && decide (o % 0x100 < 0xC0)))) ||
   (decide (0x100000 ≤ o) && decide (o < 0x140000)))

/-- The queue whose doorbell lies at an offset (R58). -/
def bellOf (o : Nat) : Option Nat := if 0x100000 ≤ o ∧ o < 0x140000 ∧ o % 4 = 0 then some ((o - 0x100000) / 4) else none

/-- A user strand with ASID a may access the offset (R27, R58): an identification register, or the doorbell of a queue that
QCOUNT admits and whose copied OWNER is a. -/
def userMayReach (s : State) (a : BitVec 16) (o : Nat) : Bool :=
  decide (o < 0x20) ||
  (decide (0x100000 ≤ o) && decide (o < 0x140000) && decide ((o - 0x100000) / 4 < s.lu.qcount.toNat) &&
    (s.queue ((o - 0x100000) / 4)).owner == a && a != 0)

/-- A read of the 32-bit register at an offset: its value, and the state after the read (a read of DBGDLO latches). -/
def regRead (s : State) (o : Nat) : Word × State :=
  let d := s.dev
  let u := s.lu
  let p (v : Word) : Word × State := (v, s)
  if 0x100000 ≤ o ∧ o < 0x140000 then
    let q := (o - 0x100000) / 4
    p (if q < u.qcount.toNat then (s.queue q).tail else 0)
  else if 0x40000 ≤ o ∧ o < 0x48000 then
    let n := (o - 0x40000) / 0x100
    let c := s.coreRegs n
    let r := o % 0x100
    if r < 0x30 then
      match r % 16 / 4 with
      | 0 => p (c.savelo.getD (r / 16) 0 ++ (0 : BitVec 12))
      | 1 => p (c.savehi.getD (r / 16) 0)
      | 2 => p 0
      | _ => p ((s.strand (3 * n + r / 16)).status.code.zeroExtend 32)
    else if 0x80 ≤ r ∧ r < 0xC0 then
      p (if r % 8 = 0 then c.spgra.getD ((r - 0x80) / 8) 0 else c.spgrb.getD ((r - 0x80) / 8) 0)
    else
      match r with
      | 0x44 => p ((0 : BitVec 4) ++ gcopy s n ++ (0 : BitVec 12) ++ bit1 c.badacc ++ bit1 c.timeout ++ bit1 c.settled
                    ++ bit1 c.halted)
      | 0x48 => p ((0 : BitVec 22) ++ c.selStrand ++ (0 : BitVec 4) ++ c.selSpace)
      | 0x4C => p c.idx
      | 0x50 => dbgDloRead s n
      | 0x54 => p c.dhi
      | _ => p 0
  else if 0x1000 ≤ o ∧ o < 0x1400 then p (sget 0 d.dlroute ((o - 0x1000) / 4))
  else if 0x800 ≤ o ∧ o < 0x880 then
    let g := s.pager ((o - 0x800) / 0x20)
    match o % 0x20 with
    | 0x0 => p (g.baselo ++ (0 : BitVec 14) ++ bit1 g.en)
    | 0x4 => p g.basehi
    | 0x8 => p g.head
    | 0xC => p g.tail
    | _ => p 0
  else if 0x400 ≤ o ∧ o < 0x500 then
    let e := d.lost.getD ((o - 0x400) / 16) {}
    match o % 16 with
    | 0x0 => p (bit1 e.valid ++ (0 : BitVec 23) ++ e.port)
    | 0x4 => p e.base
    | 0x8 => p e.limit
    | _ => p 0
  else if 0x280 ≤ o ∧ o < 0x2C0 then p (d.vfasid.getD ((o - 0x280) / 4) 0)
  else if 0x200 ≤ o ∧ o < 0x220 then p (featOffer.extractLsb' (8 * (o - 0x200)) 32)
  else if 0x220 ≤ o ∧ o < 0x240 then p (d.facc.extractLsb' (8 * (o - 0x220)) 32)
  else
    match o with
    | 0x00 => p 0x4E044128
    | 0x04 => p 0x00000100
    | 0x08 => p ((1 : BitVec 28) ++ d.diemap)
    | 0x0C => p (d.cores ++ d.cpyeng ++ d.dlinks ++ d.hostports)
    | 0x10 => p (d.mhz.zeroExtend 32)
    | 0x14 => p d.drammib
    | 0x100 => p (u.qtbaselo ++ (0 : BitVec 6))
    | 0x104 => p u.qtbasehi
    | 0x108 => p (u.qcount.zeroExtend 32)
    | 0x10C => p (u.quantum.zeroExtend 32)
    | 0x114 => p (bit1 u.cwfault ++ bit1 u.qdfault ++ (0 : BitVec 4) ++
                  BitVec.ofNat 9 (u.slots.countP (fun x => x.2.state != .free)) ++
                  BitVec.ofNat 17 (u.queues.countP (fun x => x.2.state == .waiting)))
    | 0x118 => p (u.kselq.zeroExtend 32)
    | 0x11C => p u.kseln
    | 0x124 =>
      let st : BitVec 3 :=
        match s.kernelAt u.kselq.toNat u.kseln with
        | some (_, kn) => kn.state.code
        | none => 0
      p ((0 : BitVec 5) ++ st ++ (0 : BitVec 13) ++
         BitVec.ofNat 11 (s.kernels.countP (fun x => x.2.state == .suspendedHung)))
    | 0x128 =>
      match s.longestHung with
      | some kn => p ((1 : BitVec 1) ++ (0 : BitVec 15) ++ BitVec.ofNat 16 kn.qid)
      | none => p 0
    | 0x12C =>
      match s.longestHung with
      | some kn => p kn.recNo
      | none => p 0
    | 0x140 => p (d.pttlo ++ (0 : BitVec 12))
    | 0x144 => p d.ptthi
    | 0x240 => p ((0 : BitVec 24) ++ d.booterr ++ (0 : BitVec 1) ++ bit1 d.badset ++ bit1 d.booted ++ bit1 d.ready)
    | 0x244 => p (bit1 d.replace ++ bit1 d.thermal ++ bit1 d.power ++ (0 : BitVec 5) ++ d.dlreduced ++ d.retpages)
    | 0x248 =>
      -- NOW is measured (R508; assumption 16)
      p (d.cap ++ d.nowW)
    | 0x24C =>
      p (d.tmax.zeroExtend 32)
    | 0x250 => p Config.fwRevision
    | 0x260 => p ((d.hsbase.extractLsb' 0 20 : BitVec 20) ++ (0 : BitVec 12))
    | 0x264 => p (d.hsbase.extractLsb' 20 32)
    | _ => p 0

/-- A value clamped to a range. -/
def clamp (lo hi v : Nat) : Nat := min hi (max lo v)

/-- A write of the 32-bit register at an offset by the host (strand none) or by a strand (R5, R6: read-only and reserved
fields ignore it). -/
def regWrite (s : State) (writer : Option Nat) (o : Nat) (v : Word) : State :=
  let q (w lo : Nat) : BitVec w := v.extractLsb' lo w
  if 0x100000 ≤ o ∧ o < 0x140000 then
    if (o - 0x100000) / 4 < s.lu.qcount.toNat then s.setOff (.doorbell ((o - 0x100000) / 4) v writer) else s
  else if 0x40000 ≤ o ∧ o < 0x48000 then
    let n := (o - 0x40000) / 0x100
    let r := o % 0x100
    if r < 0x30 then
      match r % 16 / 4 with
      | 0 => s.updCore n (fun c => { c with savelo := c.savelo.setIfInBounds (r / 16) (q 20 12) })
      | 1 => s.updCore n (fun c => { c with savehi := c.savehi.setIfInBounds (r / 16) v })
      | 2 => s.setOff (.register o v)
      | _ => s
    else if 0x80 ≤ r ∧ r < 0xC0 then s.setOff (.register o v)
    else
      match r with
      | 0x40 => s.setOff (.register o v)
      | 0x48 => s.updCore n (fun c => { c with selStrand := q 2 8, selSpace := q 4 0 })
      | 0x4C => s.updCore n (fun c => { c with idx := v })
      | 0x50 => dbgDloWrite s n v
      | 0x54 => s.updCore n (fun c => { c with dhi := v })
      | _ => s
  else if 0x1000 ≤ o ∧ o < 0x1400 then s.updDev (fun d => { d with dlroute := sput d.dlroute ((o - 0x1000) / 4) (v &&& 0x8000FFFF) })
  else if 0x800 ≤ o ∧ o < 0x880 then
    let dn := (o - 0x800) / 0x20
    let g := s.pager dn
    match o % 0x20 with
    | 0x0 => { s with pagers := sput s.pagers dn { g with baselo := q 17 15, en := v.getLsbD 0 } }
    | 0x4 => { s with pagers := sput s.pagers dn { g with basehi := v } }
    | 0x8 => { s with pagers := sput s.pagers dn { g with head := v } }
    | _ => s
  else if 0x400 ≤ o ∧ o < 0x500 then
    if o % 16 = 0 ∧ v.getLsbD 31 then
      s.updDev (fun d => { d with lost := d.lost.setIfInBounds ((o - 0x400) / 16)
                                    { d.lost.getD ((o - 0x400) / 16) {} with valid := false } })
    else s
  else if 0x280 ≤ o ∧ o < 0x2C0 then s.updDev (fun d => { d with vfasid := d.vfasid.setIfInBounds ((o - 0x280) / 4) v })
  else if 0x220 ≤ o ∧ o < 0x240 then
    if s.dev.ready then s
    else s.updDev (fun d => { d with facc := putBits d.facc (8 * (o - 0x220)) 32
                                               (v &&& featOffer.extractLsb' (8 * (o - 0x220)) 32).toNat })
  else
    match o with
    | 0x100 => if s.lu.anyEnabled then s else s.updLu (fun u => { u with qtbaselo := q 26 6 })
    | 0x104 => if s.lu.anyEnabled then s else s.updLu (fun u => { u with qtbasehi := v })
    | 0x108 => if s.lu.anyEnabled then s
               else s.updLu (fun u => { u with qcount := BitVec.ofNat 17 (min (q 17 0).toNat 65536) })
    | 0x10C => s.updLu (fun u => { u with quantum := BitVec.ofNat 14 (clamp 10 10000 (q 14 0).toNat) })
    | 0x110 => s.setOff (.register o v)
    | 0x114 => s.updLu (fun u => { u with cwfault := u.cwfault && !v.getLsbD 31, qdfault := u.qdfault && !v.getLsbD 30 })
    | 0x118 => s.updLu (fun u => { u with kselq := q 16 0 })
    | 0x11C => s.updLu (fun u => { u with kseln := v })
    | 0x120 =>
      if v.getLsbD 3 then
        match writer with
        | some k => s.setOff (.kcmd (q 3 0).toNat (some k))
        | none => s.setOff (.kcmd (q 3 0).toNat none)
      else s.setOff (.kcmd (q 3 0).toNat none)
    | 0x140 => s.updDev (fun d => { d with pttlo := q 20 12 })
    | 0x144 => s.updDev (fun d => { d with ptthi := v })
    | 0x240 => if v.getLsbD 0 then s.setOff (.register o v) else s
    | 0x248 => s.updDev (fun d => { d with cap := BitVec.ofNat 16 (clamp 1000 3400 (q 16 16).toNat) })
    | 0x260 => s.updDev (fun d => { d with hsbase := (d.hsbase.extractLsb' 20 32 : BitVec 32) ++ q 20 12 })
    | 0x264 => s.updDev (fun d => { d with hsbase := v ++ (d.hsbase.extractLsb' 0 20 : BitVec 20) })
    | _ => s

end Sys2Proof.Machine
end

