-- ==== Sys2Proof/Machine/Coherence.lean ====
section
/-! DEFINITION. Global words: their homes, the L1 and L2 copies, registrations, external lines, poison, and what a
release and an acquire do (R297 to R304, R308, R309, R313 to R318, R399). A word is named by its physical address / 4. A copy
of a word in an L1 or an L2 carries the step at which its value was read, so that two words read at different moments are never
returned together as one dword (R394). -/

namespace Sys2Proof.Machine
open Sys2Proof

/-! ## Cocoons -/

/-- The flat address of word i of a cocoon. -/
def cocoonFlat (s : State) (c : Cocoon) (i : Nat) : Nat := localFlat s c.strand (winCode c.base) (winOff c.base + 4 * i) 0

/-! ## Global words -/

/-- The key of a word in a core's L1 or a die's L2. -/
def ckey (unit w : Nat) : Nat := unit * 2 ^ 50 + w

/-- The home die of a word (R297). -/
def homeDie (w : Nat) : Nat :=
  if w < 2 ^ 36 then w / 2 ^ 34 else ((w / 2 ^ 6) % 4) ^^^ ((w / 2 ^ 8) % 4)
/-- A word outside the bonded DRAM: host memory, a pool or another device (R297). -/
def isExternal (w : Nat) : Bool := decide (2 ^ 36 ≤ w)
/-- The 64-byte line of a word. -/
def lineOf (w : Nat) : Nat := w / 16
/-- The region of a word (R8). -/
def regionOf (w : Nat) : Nat := w / 64

/-- A device link port in service (R507, R510): links are trained only with DLINK accepted; lost ports and ports being trained are out. -/
def State.portUp (s : State) (i : Nat) : Bool := s.feat 7 && s.dev.portsUp.getLsbD i

/-- The word lies in a lost range in force (R318). A range names physical address bits [43:12], so no address behind a device
link lies in one (R511). -/
def isLost (s : State) (w : Nat) : Bool :=
  isExternal w && decide (w < 2 ^ 42) && s.dev.lost.toList.any (fun e =>
    e.valid && decide (e.base.toNat ≤ w / 1024) && decide (w / 1024 ≤ e.limit.toNat))
/-- The word as the home slice or the memory below holds it. -/
def belowVal (s : State) (w : Nat) : Word :=
  match sfind s.l2 (ckey (homeDie w) w) with
  | some e => e.val
  | none => BitVec.ofNat 32 (Mem.readN s.mem (4 * w) 4)
/-- The newest value of a word that its home has recorded, as its home answers a read (R300, R403): the one its registrant
holds, else the home's. A write of the registrant that the home has not recorded yet is no part of it (assumption 43). -/
def curVal (s : State) (w : Nat) : Word :=
  match sfind s.reg w with
  | some r => r.val
  | none => belowVal s w
/-- The home holds the word registered to a holder: a core, or 128 + d for the L2 of die d (R297, R313). -/
def heldBy (s : State) (w h : Nat) : Bool := (sfind s.reg w).any (·.holder == h)

/-- Word w as a cocoon's index, where the cocoon has translated its sector. -/
def Cocoon.indexOf (c : Cocoon) (w : Nat) : Option Nat :=
  c.tr.findSome? (fun q => if q.2.pa / 4 ≤ w ∧ w < q.2.pa / 4 + 16 then some (16 * q.1 + (w - q.2.pa / 4)) else none)
/-- The cocoon of a core that holds a valid copy of a physical word, with the index of the word in it. -/
def cocoonOfWord (s : State) (core w : Nat) : Option (Nat × Nat) :=
  s.cocoons.findSome? (fun p =>
    if coreOf (p.1 / 8) = core then
      match p.2.indexOf w with
      | some i => if p.2.valid.contains i then some (p.1, i) else none
      | none => none
    else none)
/-- The copy of a word that a core itself holds is a poisoned word of a cocoon (R317). -/
def copyPoisoned (s : State) (core w : Nat) : Bool :=
  (sfind s.l1 (ckey core w)).isNone &&
    match cocoonOfWord s core w with
    | some (ck, i) => (sfind s.cocoons ck).any (fun c => s.poison.contains (cocoonFlat s c i / 4))
    | none => false
/-- The word reads as poisoned at its home (R317, R318, R514): the poison of a cocoon's word goes with the read that is forwarded to
its core. -/
def wordPoisoned (s : State) (w : Nat) : Bool :=
  s.poison.contains w || s.dev.retired.contains (w / 1024) || isLost s w ||
  (sfind s.reg w).any (fun r => copyPoisoned s r.holder w)
/-- The words of a core's cocoons that stand for a physical word become invalid and clean (R308). -/
def dropCocoonCopy (s : State) (core w : Nat) : State :=
  { s with
    cocoons := s.cocoons.map (fun p =>
      if coreOf (p.1 / 8) = core then
        match p.2.indexOf w with
        | some i => (p.1, { p.2 with valid := nsErase p.2.valid i, dirty := nsErase p.2.dirty i })
        | none => p
      else p) }

/-! ## Registrations -/

/-- A registration names word w, to a core (R298). -/
def Pending.names (p : Pending) (core w : Nat) : Bool := p.core == core && decide (p.word ≤ w) && decide (w < p.word + p.count)
/-- Two registrations of a core have a word in common: they reach its home in the order of their writes (R393). -/
def Pending.meets (p q : Pending) : Bool :=
  p.core == q.core && decide (p.word < q.word + q.count) && decide (q.word < p.word + p.count)

/-- A holder loses its copy of a word: a core the one in its L1 and the word of a cocoon (R299, R308), a die's L2 its word
(R313). A word that the core has written since stays: its registration is on its way. -/
def dropCopy (s : State) (h w : Nat) : State :=
  if 128 ≤ h then { s with l2 := sdel s.l2 (ckey (h - 128) w) }
  else if s.pending.any (·.names h w) then s
  else dropCocoonCopy { s with l1 := sdel s.l1 (ckey h w) } h w
/-- A clean copy of a word homed on another die leaves the L2 of die d, where an agent of the die has made a newer value. -/
def dropDie (s : State) (d w : Nat) : State :=
  if homeDie w != d && (sfind s.l2 (ckey d w)).any (!·.dirty) then { s with l2 := sdel s.l2 (ckey d w) } else s

/-- Links of some strands to the region of a place (a flat byte address) break (R289). -/
def breakLinksOf (who : Nat → Bool) (s : State) (a : Nat) : State :=
  if s.strands.any (fun p => who p.1 && p.2.links.contains (a / 256)) then
    { s with strands := s.strands.map (fun p =>
        (p.1, if who p.1 then { p.2 with links := nsErase p.2.links (a / 256) } else p.2)) }
  else s
/-- Links to the region of a place break on every strand (R289). -/
def breakLinks (s : State) (a : Nat) : State := breakLinksOf (fun _ => true) s a

/-- The key of an external line in a die (R315). -/
def lineKey (d line : Nat) : Nat := d * 2 ^ 46 + line
/-- Some die holds the line. -/
def lineHeld (s : State) (line : Nat) : Bool := (List.range 4).any (fun d => (sfind s.lines (lineKey d line)).isSome)
/-- External line states after a read by die d (R315). -/
def extRead (s : State) (d w : Nat) : State :=
  if !isExternal w || (sfind s.lines (lineKey d (lineOf w))).isSome then s
  else
    let others := (List.range 4).filter (fun x => (sfind s.lines (lineKey x (lineOf w))).isSome)
    let ls := others.foldl (fun ls x =>
      match sfind ls (lineKey x (lineOf w)) with
      | some .m => sput ls (lineKey x (lineOf w)) .o
      | some .e => sput ls (lineKey x (lineOf w)) .s
      | _ => ls) s.lines
    { s with lines := sput ls (lineKey d (lineOf w)) (if others.isEmpty then .e else .s) }
/-- A core of the die, or its L2, holds a word of the line registered. -/
def lineInUse (s : State) (die line : Nat) : Bool :=
  s.reg.any (fun p => lineOf p.1 == line && (p.2.holder == 128 + die || (decide (p.2.holder < 128) && dieOf p.2.holder == die)))
/-- External line states after a write by die d (R315): it alone holds the line, dirty. A die that holds other words of the line
registered keeps them (R298), and shows the line dirty as well (assumption 57). Where the package shows the line outside in S, or does
not hold it, the home die first obtains ownership of it from outside. -/
def extWrite (s : State) (d w : Nat) : State :=
  if !isExternal w then s
  else
    let line := lineOf w
    let owned := (List.range 4).any (fun x =>
      match sfind s.lines (lineKey x line) with
      | some .s => false
      | some _ => true
      | none => false)
    let others := (List.range 4).filter (fun x => x != d && lineInUse s x line)
    { s with
      lines := sput ((List.range 4).foldl (fun ls x =>
          if x = d then ls else if others.contains x then sput ls (lineKey x line) .o else sdel ls (lineKey x line)) s.lines)
        (lineKey d line) (if others.isEmpty then .m else .o)
      l2 := s.l2.filter (fun p => p.2.dirty || !(p.1 % 2 ^ 50 / 16 == line && p.1 / 2 ^ 50 != d && p.1 / 2 ^ 50 != homeDie w))
      out := if owned then s.out else s.out ++ [.lineOwnership line] }
/-- The package writes a word of bonded DRAM whose line the host caches: it issues a back-invalidation (R314). -/
def tellHost (s : State) (w : Nat) : State :=
  if !isExternal w && s.hostLines.contains (lineOf w) then
    { s with hostLines := nsErase s.hostLines (lineOf w), out := s.out ++ [.backInvalidate (lineOf w)] }
  else s

/-- The home records the registration of one word to a core, with the value it wrote (R299, R403): an earlier registrant loses
its copy, also a dirty one in the home slice (R313), a whole word written clears its poison (R133), and links that other cores hold to
the region break (R289). Into a lost range the word is discarded (R318). -/
def registerWord (s : State) (core w : Nat) (v : Word) : State :=
  if isLost s w then dropCopy s core w
  else
    let s :=
      match sfind s.reg w with
      | some r => if r.holder = core then s else dropCopy s r.holder w
      | none => s
    let s := dropDie s (dieOf core) w
    let s := { s with reg := sput s.reg w ⟨core, v⟩, poison := nsErase s.poison w, l2 := sdel s.l2 (ckey (homeDie w) w) }
    tellHost (breakLinksOf (fun k => coreOf k != core) (extWrite s (dieOf core) w) (4 * w)) w
/-- The home records a registration: every word of its span together (R298, R394). The die of the agent that wrote it keeps no older
copy in its L2 (R398). -/
def recordPending (s : State) (p : Pending) : State :=
  p.vals.zipIdx.foldl (fun s q => dropDie (registerWord s p.core (p.word + q.2) q.1) (dieOf p.by_) (p.word + q.2)) s
/-- A registration without word w: the parts of its span before and after it. -/
def Pending.without (w : Nat) (p : Pending) : List Pending :=
  [{ p with vals := p.vals.take (w - p.word) }, { p with word := w + 1, vals := p.vals.drop (w + 1 - p.word) }].filter
    (fun q => !q.vals.isEmpty)
/-- The registrations of a core's word that are on their way come to nothing. -/
def dropPending (s : State) (core w : Nat) : State :=
  { s with pending := s.pending.flatMap (fun p => if p.names core w then p.without w else [p]) }
/-- The registrations that a choice takes from those on their way, and the rest, both in order: with a registration go the
earlier ones of its core that have a word in common with it. -/
def takePending (want : Pending → Bool) : List Pending → List Pending × List Pending
  | [] => ([], [])
  | q :: t =>
    let r := takePending want t
    if want q || r.1.any q.meets then (q :: r.1, r.2) else (r.1, q :: r.2)
/-- The chosen registrations reach their homes, oldest first. -/
def drain (s : State) (want : Pending → Bool) : State :=
  (takePending want s.pending).1.foldl recordPending { s with pending := (takePending want s.pending).2 }
/-- A registration on its way reaches the home (R298, R299). -/
def registerSpan (s : State) (p : Pending) : State := drain s (· == p)
/-- Every registration of a core, and every one that stands for a write of its agents into a cocoon of another core, reaches its
home (R399). -/
def drainCore (s : State) (core : Nat) : State := drain s (fun p => p.core == core || p.by_ == core)
/-- The registrations of a core that name word w reach their homes. -/
def drainWord (s : State) (core w : Nat) : State := drain s (·.names core w)
/-- Every registration on its way reaches its home. -/
def drainAll (s : State) : State := drain s (fun _ => true)

/-! ## Reads and writes by a core -/

/-- A word read at its home enters the L1 of a core as a clean copy, and the L2 of its die when its home is on another die (R304,
R313). The copy carries a stamp of its read: 0 for a word read alone (R394). -/
def fillWord (s : State) (core w stamp : Nat) (v : Word) : State :=
  let d := dieOf core
  let s := { s with l1 := sput s.l1 (ckey core w) ⟨v, false, stamp⟩ }
  let s := if homeDie w = d || (sfind s.l2 (ckey d w)).any (·.dirty) then s
           else { s with l2 := sput s.l2 (ckey d w) ⟨v, false, stamp⟩ }
  extRead s d w

/-- What a core's read of a word finds without going to the home (R300): the word in its L1 or in a cocoon of its own, else, for
a word homed on another die, a copy in the L2 of its die where that L2 answers (R313; assumption 44). -/
def nearEntry (s : State) (core w : Nat) : Option L1Word :=
  match sfind s.l1 (ckey core w) with
  | some e => some e
  | none =>
    match cocoonOfWord s core w with
    | some (ck, i) =>
      (sfind s.cocoons ck).map (fun c => ⟨BitVec.ofNat 32 (Mem.readN s.mem (cocoonFlat s c i) 4), c.dirty.contains i, 0⟩)
    | none => if homeDie w != dieOf core && Config.l2Answers s.tick then sfind s.l2 (ckey (dieOf core) w) else none
/-- The value that a core's read of a word finds without going to the home. -/
def nearVal (s : State) (core w : Nat) : Option Word := (nearEntry s core w).map (·.val)
/-- The core holds a newest value of the word itself: one it has written. -/
def ownWord (s : State) (core w : Nat) : Bool := (nearEntry s core w).any (·.dirty)
/-- A core's read of count words from w on is answered by copies alone: one word, words of its own, or words that one read
brought (R394). -/
def nearWhole (s : State) (core w count : Nat) : Bool :=
  let es := (upFrom w count).filterMap (nearEntry s core)
  es.length == count &&
    (count == 1 || es.all (·.dirty) ||
      (es.all (fun e => !e.dirty && e.at_ != 0 && e.at_ == (es.headD ⟨0, false, 0⟩).at_) && (upFrom w count).all (fun x => (sfind s.l1 (ckey core x)).isSome)))
/-- A core's read of count words from w on goes to their home. -/
def readsHome (s : State) (core w count : Nat) : Bool := !nearWhole s core w count && (upFrom w count).any (fun x => !ownWord s core x)

/-- A core reads count words from word w on, all of one span (R298, R300, R394): from copies, or from the home but for words that it
has written itself. The answer is none where a word is poisoned. -/
def coreRead (s : State) (core w count : Nat) : Option Nat × State :=
  let ws := upFrom w count
  let near (x : Nat) : Bool := nearWhole s core w count || ownWord s core x
  if ws.any (fun x => if near x then copyPoisoned s core x || isLost s x || s.dev.retired.contains (x / 1024) else wordPoisoned s x) then (none, s)
  else
    (some (ws.foldr (fun x n => (if near x then (nearVal s core x).getD 0 else curVal s x).toNat + 2 ^ 32 * n) 0),
     ws.foldl (fun t x =>
       if near x then
         -- a word that the die's L2 answered enters the L1
         match nearEntry s core x with
         | some e => if e.dirty || (sfind s.l1 (ckey core x)).isSome || (cocoonOfWord s core x).isSome then t
                     else { t with l1 := sput t.l1 (ckey core x) e }
         | none => t
       else fillWord t core x (if count = 1 then 0 else s.tick + 1) (curVal s x)) s)

/-- A write by an agent of a core to a word updates the strip buffers of the core (R389). -/
def stripWrite (s : State) (core w : Nat) (v : Word) : State :=
  if s.strip.any (fun e => coreOf e.strand == core && e.word == w) then
    { s with strip := s.strip.map (fun e => if coreOf e.strand = core ∧ e.word = w then { e with val := v } else e) }
  else s

/-- The count words of a number, least significant first. -/
def wordsOf (count v : Nat) : List Word := (List.range count).map (fun i => BitVec.ofNat 32 (v / 2 ^ (32 * i)))
/-- A core writes whole words from word w on, as one span (R299): they land in its L1, dirty, and their registration goes
out. -/
def coreWriteWords (s : State) (core w count v : Nat) : State :=
  let s := (wordsOf count v).zipIdx.foldl (fun s q =>
    let s := dropCocoonCopy { s with l1 := sput s.l1 (ckey core (w + q.2)) ⟨q.1, true, s.tick⟩ } core (w + q.2)
    stripWrite (breakLinksOf (fun k => coreOf k == core) s (4 * (w + q.2))) core (w + q.2) q.1) s
  { s with pending := s.pending ++ [⟨core, w, wordsOf count v, core⟩] }

/-- A core writes n bytes of a word, n below 4 (R301): the word's current value is obtained, merged and registered at once. None
where the word is poisoned (R133). -/
def coreWriteSub (s : State) (core pa n v : Nat) : Option State :=
  let w := pa / 4
  let s := drainWord s core w
  if wordPoisoned s w then none
  else
    let new : Word := putBits (curVal s w) (8 * (pa % 4)) (8 * n) v
    let s := dropCocoonCopy { s with l1 := sput s.l1 (ckey core w) ⟨new, true, s.tick⟩ } core w
    some (stripWrite (breakLinks (registerWord s core w new) (4 * w)) core w new)

/-! ## Accesses at the home (class I, atomics, walks and agents that are not strands) -/

/-- The home's record of a word becomes v: the registration ends and the earlier registrant loses its copy. A word of an external
line that the package holds is written in the home slice, dirty (R315); any other goes to the memory beyond (R392). -/
def homeWrite (s : State) (w : Nat) (v : Word) : State :=
  let s :=
    match sfind s.reg w with
    | some r => dropCopy { s with reg := sdel s.reg w } r.holder w
    | none => s
  let held := (sfind s.l2 (ckey (homeDie w) w)).isSome || (isExternal w && lineHeld s (lineOf w))
  let s := { s with l2 := if held then sput s.l2 (ckey (homeDie w) w) ⟨v, true, s.tick⟩ else s.l2
                    mem := if held then s.mem else Mem.writeN s.mem (4 * w) 4 v.toNat
                    poison := nsErase s.poison w }
  tellHost (breakLinks (if held then extWrite s (homeDie w) w else s) (4 * w)) w
/-- n bytes at the homes as a number; none where a word is poisoned. -/
def homeRead (s : State) (pa n : Nat) : Option Nat :=
  let w := pa / 4
  if n ≤ 4 then (if wordPoisoned s w then none else some (getBits (curVal s w) (8 * (pa % 4)) (8 * n)))
  else if wordPoisoned s w || wordPoisoned s (w + 1) then none
  else some ((curVal s w).toNat + 2 ^ 32 * (curVal s (w + 1)).toNat)
/-- Write n bytes at the homes; none where fewer than four bytes go to a poisoned word (R133). -/
def homeWriteN (s : State) (pa n v : Nat) : Option State :=
  let w := pa / 4
  if n < 4 then (if wordPoisoned s w then none else some (homeWrite s w (putBits (curVal s w) (8 * (pa % 4)) (8 * n) v)))
  else if n = 4 then some (homeWrite s w (BitVec.ofNat 32 v))
  else some (homeWrite (homeWrite s w (BitVec.ofNat 32 v)) (w + 1) (BitVec.ofNat 32 (v / 2 ^ 32)))
/-- A word goes back to its home slice, which then holds it dirty, and its registration ends (R304, R310). Poison stays with the
word (R317). -/
def putHome (s : State) (w : Nat) (v : Word) : State :=
  let s := { s with l2 := sput s.l2 (ckey (homeDie w) w) ⟨v, true, s.tick⟩, reg := sdel s.reg w }
  tellHost (extWrite s (homeDie w) w) w

/-! ## Requests at a busy home (R303) -/

/-- The slice of a word within its home die (R297). -/
def sliceOf (w : Nat) : Nat := (w / 2 ^ 6 % 32) ^^^ (w / 2 ^ 11 % 32) ^^^ (w / 2 ^ 16 % 32) ^^^ (w / 2 ^ 21 % 32)
/-- Two words have one home slice. -/
def sameSlice (v w : Nat) : Bool := homeDie v == homeDie w && sliceOf v == sliceOf w
/-- The home of a region serves a snoop, or requests stand in line there. -/
def homeHeld (s : State) (region : Nat) : Bool :=
  (sfind s.busy region).isSome || s.waiters.any (fun x => regionOf x.word == region)
/-- A request of a core meets a held home (R303): it takes a shared entry of the slice's pool, else its core's reserved one, else
it is refused. A request of no core has no reserved entry. -/
def joinHome (s : State) (kind : Request) (core w : Nat) : State :=
  let mine := s.waiters.filter (fun x => sameSlice x.word w)
  if decide (mine.countP (fun x => !x.reserved) < 384) then
    { s with waiters := s.waiters ++ [⟨kind, core, w, s.cycle.toNat, false⟩] }
  else if decide (core < 128) && !mine.any (fun x => x.reserved && x.core == core) then
    { s with waiters := s.waiters ++ [⟨kind, core, w, s.cycle.toNat, true⟩] }
  else { s with refused := s.refused ++ [⟨kind, core, w, s.cycle.toNat, false⟩] }
/-- A request leaves the lines of the homes. -/
def leaveHomes (s : State) (kind : Request) : State :=
  { s with waiters := s.waiters.filter (·.kind != kind), refused := s.refused.filter (·.kind != kind) }

/-! ## Releases and acquires (R302, R309, R397, R399) -/

/-- The order of scopes (R9). -/
def scopeRank : Scope → Nat
  | .strand => 0 | .core => 1 | .cluster => 2 | .die => 3 | .device => 4 | .system => 5

/-- A release at a scope by a strand of a core: at cluster scope or wider, every registration of the core has reached its
home (R299, R399). -/
def release (s : State) (core : Nat) (sc : Scope) : State := if 2 ≤ scopeRank sc then drainCore s core else s
/-- A release waits: a home that one of its registrations is to reach is held (R299, R303). -/
def releaseWaits (s : State) (core : Nat) (sc : Scope) : Bool :=
  decide (2 ≤ scopeRank sc) && s.pending.any (fun p => (p.core == core || p.by_ == core) && homeHeld s (regionOf p.word))

/-- An acquire at a scope by a strand of a core: at cluster scope or wider the L1, the cocoons and the strip
buffers drop their clean unregistered words, at device scope or wider the die's L2 drops its clean words of other homes (R302, R309). -/
def acquire (s : State) (core : Nat) (sc : Scope) : State :=
  if 2 ≤ scopeRank sc then
    let s := { s with
      l1 := s.l1.filter (fun p => !(p.1 / 2 ^ 50 == core) || p.2.dirty || heldBy s (p.1 % 2 ^ 50) core)
      cocoons := s.cocoons.map (fun p => if coreOf (p.1 / 8) = core then (p.1, { p.2 with valid := p.2.dirty }) else p)
      strip := s.strip.filter (fun e => coreOf e.strand != core) }
    if 4 ≤ scopeRank sc then
      { s with l2 := s.l2.filter (fun p => !(p.1 / 2 ^ 50 == dieOf core) || p.2.dirty || homeDie (p.1 % 2 ^ 50) == dieOf core) }
    else s
  else s

end Sys2Proof.Machine
end

