-- ==== Sys2Proof/Machine/Links.lean ====
section
/-! DEFINITION. Device links (R510, R511): flits, the replay buffer of a port, and the port that an access to another device takes. -/

namespace Sys2Proof.Machine
open Sys2Proof

/-! ## Flits (R510) -/

/-- CRC-64/ECMA-182 with one more bit (polynomial 0x42F0E1EBA9EA3693; assumption 14). -/
def crcBit (c : BitVec 64) (b : Bool) : BitVec 64 :=
  let t := c.getLsbD 63 != b
  (c <<< 1) ^^^ (if t then 0x42F0E1EBA9EA3693 else 0)
/-- The CRC of bytes 0 to 247 of a flit, each byte from its top bit. -/
def flitCrc (f : BitVec 2048) : BitVec 64 :=
  (List.range 248).foldl (fun c i => [7, 6, 5, 4, 3, 2, 1, 0].foldl (fun c j => crcBit c (f.getLsbD (8 * i + j))) c) 0
/-- A link port of the device. -/
def State.linkPort (s : State) (n : Nat) : LinkPort := sget {} s.dev.linkPorts n
/-- Replace a link port. -/
def State.setLinkPort (s : State) (n : Nat) (p : LinkPort) : State := s.updDev (fun d => { d with linkPorts := sput d.linkPorts n p })
/-- The SEQ of a flit. -/
def flitSeq (f : BitVec 2048) : BitVec 12 := f.extractLsb' 0 12
/-- The KIND of a flit. -/
def flitKind (f : BitVec 2048) : Nat := (f.extractLsb' 32 8 : BitVec 8).toNat
/-- The flit that a port sends next: its payload, whose messages' format the spec does not give, is a free value (assumption 14). -/
def nextFlit (s : State) (n kind : Nat) : BitVec 2048 :=
  let p := s.linkPort n
  let payload : BitVec 1920 := s.freeVal 1920
  let body : BitVec 1984 := payload ++ (0 : BitVec 24) ++ BitVec.ofNat 8 kind ++ (0 : BitVec 4) ++ (p.expect - 1) ++ (0 : BitVec 4) ++ p.next
  flitCrc (body.zeroExtend 2048) ++ body
/-- A port sends a flit, which stays in its replay buffer until it is acknowledged (R510). -/
def linkSend (s : State) (n kind : Nat) : State :=
  let f := nextFlit s n kind
  let p := s.linkPort n
  let s := s.bumpFree.setLinkPort n { p with next := p.next + 1, replay := p.replay ++ [f] }
  { s with out := s.out ++ [.linkFlit n f] }
/-- The replay buffer of a port takes another flit (R510). -/
def LinkPort.room (p : LinkPort) : Bool := decide (p.replay.length < 512)
/-- A port carries what is sent over it: it is in service, and no flit of it is being replayed. -/
def carries (s : State) (n : Nat) : Bool := s.portUp n && (s.linkPort n).naks == 0
/-- The response to a request on a port has come: it acknowledges all that the port has sent. -/
def responded (s : State) (n : Nat) : State :=
  let p := s.linkPort n
  s.setLinkPort n { p with replay := [], expect := p.expect + 1 }

/-! ## Routes (R511) -/

/-- The ports in service of the route to another device; none without a valid route. -/
def routePorts (s : State) (p : Nat) : List Nat :=
  let e := sget 0 s.dev.dlroute p
  if e.getLsbD 31 then (List.range 16).filter (fun i => e.getLsbD i && s.portUp i) else []
/-- The port that traffic of a region takes to another device: by the region's number, modulo the count of the ports in service. -/
def routePort (s : State) (pa : Nat) : Option Nat :=
  let l := routePorts s (pa / 2 ^ 44 % 256)
  l[pa / 256 % l.length]?
/-- A physical address that traffic can reach: a device-link address needs a valid route with a port in service (R511),
and bonded DRAM a die in service (R29). -/
def reachable (s : State) (pa : Nat) : Bool :=
  if pa / 2 ^ 44 % 256 = 0 then (if pa < 2 ^ 38 then s.dev.diemap.getLsbD (pa / 2 ^ 36) else true)
  else (routePort s pa).isSome

end Sys2Proof.Machine
end

