-- ==== Sys2Proof/Machine/Translate.lean ====
section
/-! DEFINITION. Addresses: the windows (R266 to R268), the page tables and their walk (R487 to R491), host-shared
translation (R509), the idempotence classes (R269, R314, R507), and the checks R133 and R271 make before an access. -/

namespace Sys2Proof.Machine
open Sys2Proof

/-- On whose behalf an access is made: the strand whose windows count, the ASID, whether it has user privilege, and the
top-level table when the agent is a strand with a PTBASE of its own (R491). -/
structure Ctx where
  key : Nat
  asid : BitVec 16
  user : Bool
  table : Option Nat
  /-- the core whose TLB and L1 the access uses; none for an agent that works at the homes -/
  tlb : Bool
  deriving DecidableEq, Repr

/-- The context of the strand that acts, or of the cell that acts for it (R491: with the binding process's table). -/
def State.ctx (s : State) : Ctx :=
  let t := s.me
  { key := s.key, asid := t.e.asid, user := s.isCell || t.level == .user
    table := if s.isCell then none else some (t.e.ptbase.toNat * 2 ^ 16), tlb := true }
/-- The context of an agent that is not a strand and acts for process a on behalf of strand k (R491). -/
def agentCtx (k : Nat) (a : BitVec 16) : Ctx := { key := k, asid := a, user := true, table := none, tlb := false }
/-- The context of an agent of the package that acts under ASID 0 (R491). -/
def systemCtx : Ctx := { key := 0, asid := 0, user := false, table := none, tlb := false }

/-- Where an access goes. -/
inductive Target where
  | glob (pa : Nat) (cls : Cls)
  | loc (flat : Nat)
  | dev (off : Nat)
  /-- the access itself ends with a cause, MEM_POISON or MEM_TIMEOUT, after every check before it (R271, R488, R511) -/
  | late (cls : Cls) (cause : Cause)
  deriving DecidableEq, Repr

/-- The class of a target (R269). -/
def Target.cls : Target → Cls
  | .glob _ c => c
  | .loc _ => .n
  | .dev _ => .d
  | .late c _ => c
/-- The cause that the access itself takes, if any (R271). -/
def Target.lateM (t : Target) (ea : Dword) (e : Nat) : M Unit :=
  match t with
  | .late _ c => trapM c ea e
  | _ => pure ()

/-! ## Windows -/

/-- The current size of a window for strand k, none for an unassigned code (R266, R83, R84, R88, R89). -/
def windowSize (s : State) (k : Nat) (code : Nat) : Option Nat :=
  let g := s.groupOf k
  let kn := s.kernelOf k
  match code with
  | 0x00 => some (2 ^ 52)
  | 0xF0 => some (g.elim 0 (·.laneSize))
  | 0xF1 => some (g.elim 0 (·.spadSize))
  | 0xF2 => some (kn.elim 0 (fun n => if (sfind n.clAlloc (clusterOf (coreOf k))).isSome then 4 * 1024 * n.res.lendKib else 0))
  | 0xF3 => some (kn.elim 0 (fun n => if (sfind n.dieAlloc (dieOf (coreOf k))).isSome then 1024 * n.res.dspadKib else 0))
  | 0xF4 => some (kn.elim 0 (fun n => if (sfind n.dieAlloc 0).isSome then 1024 * n.res.dspadKib else 0))
  | 0xF5 => some (kn.elim 0 (fun n => if (sfind n.dieAlloc 1).isSome then 1024 * n.res.dspadKib else 0))
  | 0xF6 => some (kn.elim 0 (fun n => if (sfind n.dieAlloc 2).isSome then 1024 * n.res.dspadKib else 0))
  | 0xF7 => some (kn.elim 0 (fun n => if (sfind n.dieAlloc 3).isSome then 1024 * n.res.dspadKib else 0))
  | 0xFE => some 0x200000
  | _ => none

/-! ## Page tables -/

/-- The fields of a page table entry (R488). -/
structure Pte where
  v : Bool
  leaf : Bool
  u : Bool
  r : Bool
  w : Bool
  x : Bool
  d : Bool
  a : Bool
  s64 : Bool
  cls : Nat
  pfn : Nat
  cp : Bool
  pr : Bool
  reserved : Bool
  deriving DecidableEq, Repr

/-- A page table entry from its 64 bits (R488). -/
def pteOf (n : Nat) : Pte :=
  { v := n.testBit 0, leaf := n.testBit 1, u := n.testBit 3, r := n.testBit 4, w := n.testBit 5, x := n.testBit 6
    d := n.testBit 7, a := n.testBit 8, s64 := n.testBit 9, cls := n / 2 ^ 10 % 4, pfn := n / 2 ^ 12 % 2 ^ 40
    cp := n.testBit 62, pr := n.testBit 63, reserved := n.testBit 2 || n / 2 ^ 52 % 2 ^ 10 != 0 }

/-- The request that an access makes of a home (R303). -/
def Ctx.request (c : Ctx) (s : State) : Request := if c.tlb then .agent s.actor else .unit c.asid
/-- The home of a region serves a request now (R303): it serves no snoop, no other request stands before it in line, and 64 cycles
have passed since the home refused it. -/
def homeServes (s : State) (q : Request) (region : Nat) : Bool :=
  (sfind s.busy region).isNone && (s.waiters.find? (fun x => regionOf x.word == region)).all (·.kind == q) &&
  !s.refused.any (fun x => x.kind == q && regionOf x.word == region && decide (s.cycle.toNat < x.since + 64))
/-- An access waits at a home (R303): it is outstanding from now on. -/
def standAt (c : Ctx) (pa : Nat) (ea : Dword) (s : State) : State :=
  let q := c.request s
  let region := pa / 256
  let s :=
    if s.waiters.any (fun x => x.kind == q && regionOf x.word == region) ||
       s.refused.any (fun x => x.kind == q && regionOf x.word == region && decide (s.cycle.toNat < x.since + 64)) then s
    else joinHome (leaveHomes s q) q (if c.tlb then coreOf c.key else 128) (pa / 4)
  if c.tlb then
    s.setWait { s.waitOf with since := some (if s.waitOf.home = some region then s.waitOf.since.getD s.now else s.now)
                              out := some ea, home := some region, asked := false }
  else if s.atsWaits.any (fun w => w.home && w.asid == c.asid && w.page == region) then s
  else { s with atsWaits := s.atsWaits ++ [{ asid := c.asid, page := region, since := s.now, home := true }] }
/-- The access of a request is served at the home of a region: the request that stood there leaves the line, and what it waited for is
over. A request that stands at another home keeps its place there, and the time since when it is outstanding. -/
def servedAt (c : Ctx) (region : Nat) (s : State) : State :=
  if c.tlb then
    if s.waitOf.home = some region then
      (leaveHomes s (c.request s)).setWait { s.waitOf with since := none, out := none, home := none, link := none }
    else s
  else if s.atsWaits.any (fun w => w.home && w.asid == c.asid && w.page == region) then
    let here (x : Waiter) : Bool := x.kind == c.request s && regionOf x.word == region
    { s with waiters := s.waiters.filter (!here ·), refused := s.refused.filter (!here ·)
             atsWaits := s.atsWaits.filter (fun w => !(w.home && w.asid == c.asid && w.page == region)) }
  else s
/-- The cause with which a unit's request at a home ended (R271, R303). -/
def unitVerdict (c : Ctx) (region : Nat) (s : State) : Option Cause :=
  if c.tlb then none else s.atsWaits.findSome? (fun w => if w.home && w.asid == c.asid && w.page == region then w.verdict else none)
/-- An access goes to the home of the word at a physical address (R303): it stands in line where the home is busy or other requests
came before it. A request of a unit of the package that stays unserved for 4 ms ends with MEM_TIMEOUT, as one of a strand does
(R271). -/
def homeFree (c : Ctx) (pa : Nat) (ea : Dword) (e : Nat) : M Unit := do
  let s ← get
  match unitVerdict c (pa / 256) s with
  | some v => do
    modify (servedAt c (pa / 256))
    trapM v ea e
  | none =>
    if homeServes s (c.request s) (pa / 256) then modify (servedAt c (pa / 256))
    else do
      modify (standAt c pa ea)
      waitM

/-- The port on which an agent's request to a region's home is outstanding (R511). -/
def linkOf (c : Ctx) (region : Nat) (s : State) : Option Nat :=
  if c.tlb then (if s.waitOf.home = some region then s.waitOf.link else none)
  else s.atsWaits.findSome? (fun w => if w.home && w.asid == c.asid && w.page == region then w.link else none)
/-- An agent's request to a region's home is outstanding on a port from now on (R511). -/
def standOnLink (c : Ctx) (n region : Nat) (ea : Dword) (s : State) : State :=
  if c.tlb then s.setWait { s.waitOf with since := some s.now, out := some ea, home := some region, link := some n, asked := false }
  else { s with atsWaits := s.atsWaits ++ [{ asid := c.asid, page := region, since := s.now, home := true, link := some n }] }
/-- An access goes to another device (R511). Over a port that carries it, its request and the response pass. While a flit of the port
is being replayed, or the port retrains, the request stays outstanding on the port, at most for 4 ms (R271), and is answered once the
port carries again; with no room in the replay buffer it is not sent. A region of which the package holds a line needs no request. -/
def overLink (c : Ctx) (pa : Nat) (cls : Cls) (ea : Dword) (e : Nat) : M Target := do
  let s ← get
  let region := pa / 256
  match unitVerdict c region s with
  | some v => do
    modify (servedAt c region)
    trapM v ea e
  | none =>
    match linkOf c region s with
    | some n =>
      if carries s n then do
        modify (fun s => servedAt c region (responded s n))
        pure (.glob pa cls)
      else waitM
    | none =>
      match routePort s pa with
      | none => pure (.late cls .memTimeout)
      | some n =>
        if s.lines.any (fun p => p.1 % 2 ^ 46 == pa / 64) then pure (.glob pa cls)
        else if !(s.linkPort n).room then waitM
        else if carries s n then do
          modify (fun s => responded (linkSend s n 1) n)
          pure (.glob pa cls)
        else do
          modify (fun s => standOnLink c n region ea (linkSend s n 1))
          waitM
/-- Read a page-table or process-table entry at its home (R489): poison and unreachable memory are faults of the access. -/
def readEntry (c : Ctx) (pa : Nat) (ea : Dword) (e : Nat) : M Nat := do
  let s ← get
  if !reachable s pa then trapM .memTimeout ea e
  else do
    homeFree c pa ea e
    let s ← get
    match homeRead s pa 8 with
    | some v => pure v
    | none => trapM .memPoison ea e

/-- The cause a permission check of a leaf takes, if any (R489). -/
def leafDenied (acc : Acc) (user : Bool) (p : Pte) : Bool :=
  (acc == .read && !p.r) || (acc == .write && !p.w) || (acc == .fetch && !p.x) || (user && !p.u) ||
  (acc == .fetch && !user && p.u)

/-- The walkers of the die of an agent, with their caches (R490): an entry is read from its home, unless the caches hold it for the
ASID. -/
def walkEntry (c : Ctx) (pa : Nat) (ea : Dword) (e : Nat) : M Nat := do
  let s ← get
  match s.walks.find? (fun w => w.die == dieOf (coreOf c.key) && w.asid == c.asid && w.pa == pa) with
  | some w => pure w.val
  | none => readEntry c pa ea e
/-- The walk caches of the agent's die keep an entry for the ASID (R490, R491). -/
def keepEntry (c : Ctx) (pa n : Nat) : M Unit := modify (fun s =>
  let w : WalkEntry := ⟨dieOf (coreOf c.key), c.asid, pa, n⟩
  if s.walks.contains w then s else { s with walks := w :: s.walks })

/-- The levels below the top, from level 3 down, that a walk visits from a table at physical address t (R487, R489): the
leaf found, with its level and its physical address. -/
def walkFrom (c : Ctx) (va : Nat) (ea : Dword) (e : Nat) : Nat → Nat → M (Nat × Nat × Pte)
  | t, lvl => do
    let idx := if lvl = 3 then va / 2 ^ 39 % 8192 else va / 2 ^ (12 + 9 * lvl) % 512
    let n ← walkEntry c (t + 8 * idx) ea e
    let p := pteOf n
    if p.s64 && lvl == 0 then do
      -- the first entry of the aligned group of 16 stands for all of it; of this one only S64 counts
      let first := t + 8 * (idx / 16 * 16)
      let n0 ← readEntry c first ea e
      let p0 := pteOf n0
      if !p0.s64 then trapM .pageProtection ea e
      else if !p0.v then trapM .pageNotPresent ea e
      else if p0.reserved || p0.cls == 3 || !p0.leaf || p0.pfn % 16 != 0 then trapM .pageProtection ea e
      else pure (0, first, p0)
    else if !p.v then trapM .pageNotPresent ea e
    else if p.reserved || p.cls == 3 || (p.leaf && lvl == 3) || (!p.leaf && lvl == 0) then trapM .pageProtection ea e
    else
      match lvl with
      | 0 => pure (0, t + 8 * idx, p)
      | l + 1 =>
        if p.leaf then
          if p.pfn % 2 ^ (9 * (l + 1)) != 0 then trapM .pageProtection ea e else pure (l + 1, t + 8 * idx, p)
        else do
          keepEntry c (t + 8 * idx) n
          walkFrom c va ea e (p.pfn * 2 ^ 12) l

/-- The size of the page that a leaf maps (R487). -/
def leafSize (lvl : Nat) (p : Pte) : Nat := if lvl = 0 then (if p.s64 then 2 ^ 16 else 2 ^ 12) else 2 ^ (12 + 9 * lvl)

/-- The top-level table of an agent (R491): a strand's PTBASE, else the process-table entry of the ASID. -/
def tableOf (c : Ctx) (ea : Dword) (e : Nat) : M Nat := do
  match c.table with
  | some t => pure t
  | none => do
    let s ← get
    let pa := (s.dev.ptthi ++ s.dev.pttlo ++ (0 : BitVec 12)).toNat % 2 ^ 52 + 8 * c.asid.toNat
    let n ← walkEntry c pa ea e
    if !n.testBit 0 then trapM .pageNotPresent ea e
    else if n / 2 ^ 52 != 0 || n / 2 % 2 ^ 15 != 0 then trapM .pageProtection ea e
    else do
      keepEntry c pa n
      pure (n / 2 ^ 16 % 2 ^ 36 * 2 ^ 16)

/-- The PASID of a process in host-shared mode, where its HSBASE entry has EN set (R509). -/
def pasidOf (s : State) (a : BitVec 16) : Option Nat :=
  if s.feat 8 then
    match homeRead s ((s.dev.hsbase ++ (0 : BitVec 12)).toNat % 2 ^ 52 + 4 * a.toNat) 4 with
    | some v => if v.testBit 31 then some (v % 2 ^ 20) else none
    | none => none
  else none
/-- A process is in host-shared mode (R509). -/
def hostShared (s : State) (a : BitVec 16) : Bool := (pasidOf s a).isSome

/-- The TLB entry for a virtual address (R490). -/
def tlbFind (s : State) (core : Nat) (a : BitVec 16) (va : Nat) : Option TlbEntry :=
  s.tlb.find? (fun t => t.core == core && t.asid == a && decide (t.vbase ≤ va) && decide (va < t.vbase + t.size))

/-- The permissions of a TLB entry, as a leaf. -/
def TlbEntry.pte (t : TlbEntry) : Pte :=
  { v := true, leaf := true, u := t.u, r := t.r, w := t.w, x := t.x, d := t.dirty, a := true, s64 := false, cls := 0
    pfn := 0, cp := t.cp, pr := t.pr, reserved := false }

/-- The walks that occupy walkers of a die, each once (R490): those of its strands and cells that stand at the home of an entry. -/
def walksOf (s : State) (die : Nat) : List (BitVec 16 × Nat) :=
  (s.strands.filterMap (fun p => if dieOf (coreOf p.1) = die then p.2.wait.walk else none) ++
    s.cells.filterMap (fun p => if dieOf (coreOf (p.1 / 64)) = die then p.2.wait.walk else none)).dedup
/-- A walk of a strand or cell (R490): it waits while all 16 walkers of the die are busy with other walks; walks of one ASID for one
page are one walk. -/
def onWalker {α : Type} (c : Ctx) (va : Nat) (m : M α) : M α := do
  let s ← get
  if !c.tlb then m
  else
    let mine := (c.asid, va / 4096)
    let ws := walksOf s (dieOf (coreOf c.key))
    if decide (16 ≤ ws.length) && !ws.contains mine then waitM
    else fun s =>
      match m s with
      | .error .wait s' => .error .wait (s'.setWait { s'.waitOf with walk := some mine })
      | .error e s' => .error e s'
      | .ok a s' => .ok a (if s'.waitOf.walk.isSome then s'.setWait { s'.waitOf with walk := none } else s')

/-- Walk the tables of an agent for a virtual address (R489): the permission checks, the setting of A and D by an update
at the entry's home, and the translation found. A page of a poison range has neither set, since no access to it has an effect (R488). -/
def walk (c : Ctx) (va : Nat) (acc : Acc) (ea : Dword) (e : Nat) : M TlbEntry := do
  let top ← tableOf c ea e
  let (lvl, at_, p) ← walkFrom c va ea e top 3
  if leafDenied acc c.user p then trapM .pageProtection ea e
  else do
    let s ← get
    let n := (homeRead s at_ 8).getD 0
    let n' := n ||| 2 ^ 8 ||| (if acc == .write then 2 ^ 7 else 0)
    if n' ≠ n ∧ !p.pr then
      match homeWriteN s at_ 8 n' with
      | some s' => set s'
      | none => pure ()
    else pure ()
    let sz := leafSize lvl p
    pure { core := coreOf c.key, asid := c.asid, vbase := va / sz * sz, size := sz, pbase := p.pfn * 2 ^ 12 / sz * sz
           cls := if p.cls = 0 then .n else if p.cls = 1 then .i else .d
           cp := p.cp, pr := p.pr, r := p.r, w := p.w, x := p.x, u := p.u, dirty := p.d || (acc == .write && !p.pr) }

/-- The class an access to a page has (R314, R507), none where a non-coherent pool may not be reached at all. The CP bit matters for a
pool page only (R488). -/
def effClass (s : State) (t : TlbEntry) (pa : Nat) : Option Cls :=
  if pa < 2 ^ 38 ∨ pa ≥ 2 ^ 44 then some t.cls
  else if Config.isPool pa then
    if t.cp then some (if s.feat 2 || t.cls != .n then t.cls else .i)
    else if s.feat 3 then some (if t.cls == .n then .i else t.cls) else none
  else some (if s.feat 1 || t.cls != .n then t.cls else .i)

/-- A translation by the host (R509): the access waits for the answer to a request that is sent once; ats says that it is the
translation that is asked for, not a permission. -/
def askHost (c : Ctx) (pasid : Nat) (page : Nat) (ats : Bool) (ea : Dword) (e : Nat) : M Target := do
  let s ← get
  let msg : Outbound := if ats then .atsRequest pasid page else .priRequest pasid page
  if c.tlb then
    if s.waitOf.out == some ea && s.waitOf.asked && ats then waitM
    else do
      modify (fun s => { s.setWait { s.waitOf with since := some s.now, out := some ea, home := none, asked := true } with out := s.out ++ [msg] })
      waitM
  else
    match s.atsWaits.find? (fun w => !w.home && w.asid == c.asid && w.page == page) with
    | some w =>
      match w.verdict with
      | some v => do
        modify (fun s => { s with atsWaits := s.atsWaits.filter (fun w => w.home || !(w.asid == c.asid && w.page == page)) })
        trapM v ea e
      | none => do
        if ats then pure () else modify (fun s =>
          { s with out := s.out ++ [msg], atsWaits := s.atsWaits.map (fun x => if x == w then { x with since := s.now } else x) })
        waitM
    | none => do
      modify (fun s => { s with atsWaits := s.atsWaits ++ [{ asid := c.asid, page := page, since := s.now }], out := s.out ++ [msg] })
      waitM

/-- What an access to virtual address va reaches through a translation (R314, R488, R511): an access to a page of a poison range
ends with MEM_POISON, one to unreachable memory with MEM_TIMEOUT, both at the access itself. -/
def throughEntry (c : Ctx) (t : TlbEntry) (va : Nat) (ea : Dword) (e : Nat) : M Target := do
  let pa := t.pbase + (va - t.vbase)
  let s ← get
  match effClass s t pa with
  | none => trapM .pageProtection ea e
  | some cls =>
    if t.pr then pure (.late cls .memPoison)
    else if pa / 2 ^ 44 % 256 ≠ 0 then overLink c pa cls ea e
    else if !reachable s pa then pure (.late cls .memTimeout)
    else pure (.glob pa cls)

/-- The entries of a list, of a core only the first n (R490). -/
def keepOfCore (core : Nat) : Nat → List TlbEntry → List TlbEntry
  | _, [] => []
  | n, t :: l =>
    if t.core = core then
      match n with
      | 0 => keepOfCore core 0 l
      | k + 1 => t :: keepOfCore core k l
    else t :: keepOfCore core n l
/-- A translation enters a core's TLB, which holds 4,096 of them: the one that entered it first leaves a full one (R490). -/
def tlbPut (s : State) (t : TlbEntry) : State := { s with tlb := keepOfCore t.core 4096 (t :: s.tlb) }

/-- Translate a virtual address of window 0x00 (R489, R490, R509): through the TLB of the core where the agent has one. In
host-shared mode the host answers for the walk; agents that are no strands keep its answers under core number 128. -/
def translate (c : Ctx) (va : Nat) (acc : Acc) (ea : Dword) (e : Nat) : M Target := do
  let s ← get
  match pasidOf s c.asid with
  | some pasid =>
    let core := if c.tlb then coreOf c.key else 128
    match tlbFind s core c.asid va with
    | some t =>
      if leafDenied acc c.user t.pte then do
        -- the answer lacks the permission: a page request, after whose success the translation is asked for again
        modify (fun s => { s with tlb := s.tlb.filter (· != t) })
        askHost c pasid (va / 4096) false ea e
      else throughEntry c t va ea e
    | none => askHost c pasid (va / 4096) true ea e
  | none =>
    match (if c.tlb then tlbFind s (coreOf c.key) c.asid va else none) with
    | some t =>
      if leafDenied acc c.user t.pte then trapM .pageProtection ea e
      else if acc == .write && !t.dirty then do
        let t' ← onWalker c va (walk c va acc ea e)
        modify (fun s => { s with tlb := t' :: s.tlb.filter (· != t) })
        throughEntry c t' va ea e
      else throughEntry c t va ea e
    | none => do
      let t' ← onWalker c va (walk c va acc ea e)
      if c.tlb then modify (tlbPut · t') else pure ()
      throughEntry c t' va ea e

/-! ## The checks before an access (R133, R271) -/

/-- An outstanding access that ends with a cause (R271, R509) takes it when it is made again. -/
def checkVerdict (c : Ctx) (ea : Dword) (e : Nat) : M Unit := do
  let s ← get
  match s.waitOf.verdict with
  | some v =>
    if c.tlb && s.waitOf.out == some ea then do
      modify (fun s => s.setWait { s.waitOf with verdict := none })
      trapM v ea e
    else pure ()
  | none => pure ()

/-- Where an access of n bytes at address ea goes, after the checks of R133 in their order; e is the element index and
lane the lane of window 0xF0. -/
def resolve (c : Ctx) (ea : Dword) (n : Nat) (acc : Acc) (e lane : Nat) : M Target := do
  let s ← get
  let code := winCode ea
  let off := winOff ea
  if ea.toNat % n ≠ 0 then trapM .misaligned ea e
  else
    match windowSize s c.key code with
    | none => trapM .windowInvalid ea e
    | some size =>
      if code = 0xFE ∧ c.user ∧ !userMayReach s c.asid (off / 4 * 4) then trapM .privilege ea e
      else if off ≥ size then trapM .windowRange ea e
      else if code = 0xFE then
        if isReg (off / 4 * 4) ∧ n ≠ 4 then trapM .misaligned ea e else pure (.dev off)
      else if code = 0 then do
        checkVerdict c ea e
        translate c off acc ea e
      else pure (.loc (localFlat s c.key code off lane))

end Sys2Proof.Machine
end

