-- ==== Sys2Proof/Machine/Access.lean ====
section
/-! DEFINITION. One access to memory: local words and cocoons (R195, R305, R308), the chrysalis of a speculative task
(R447 to R450), and read_mem and write_mem (R13) for strands, cells and other agents. -/

namespace Sys2Proof.Machine
open Sys2Proof

/-! ## Cocoons -/

/-- Replace a cocoon. -/
def State.setCocoon (s : State) (ck : Nat) (c : Cocoon) : State := { s with cocoons := sput s.cocoons ck c }

/-- The cocoon that serves a global address for a strand of the core: the one with the lowest number (R305). -/
def cocoonOfGlobal (s : State) (core : Nat) (a : BitVec 16) (va : Nat) : Option (Nat × Nat) :=
  let hits := s.cocoons.filter (fun p => coreOf (p.1 / 8) == core && p.2.asid == a && decide (p.2.gva ≤ va) &&
    decide (va < p.2.gva + p.2.len))
  (hits.foldl (fun b p =>
    match b with
    | some q => if p.1 % 8 < q.1 % 8 then some p else b
    | none => some p) (none : Option (Nat × Cocoon))).map (fun p => (p.1, (va - p.2.gva) / 4))

/-- The byte of an allocation of blocks at which byte off of the scratchpad lies. -/
def blockOff (l : List Nat) (off : Nat) : Option Nat := (l.findIdx? (· == off / 4096)).map (fun i => 4096 * i + off % 4096)
/-- The offset within a cocoon's local window at which a flat address lies, for the mapping strand (R84, R88, R89). Window
0xF2 is interleaved over the cluster at 256 bytes. -/
def cocoonOff (s : State) (c : Cocoon) (flat : Nat) : Option Nat :=
  let core := coreOf c.strand
  match winCode c.base, s.groupOf c.strand, s.kernelOf c.strand with
  | 0xF1, some g, _ =>
    if flatSpad core 0 ≤ flat ∧ flat < flatSpad core 0x300000 then blockOff g.spad (flat - flatSpad core 0) else none
  | 0xF2, _, some n =>
    (List.range 4).findSome? (fun q =>
      let b := flatSpad (4 * clusterOf core + q) 0
      if b ≤ flat ∧ flat < b + 0x300000 then
        (blockOff ((sget [] n.clAlloc (clusterOf core)).getD q []) (flat - b)).map (fun o => o / 256 * 1024 + q * 256 + o % 256)
      else none)
  | 0xF3, _, some n =>
    let b := flatDie (dieOf core) 0
    if b ≤ flat ∧ flat < b + 0x2000000 then blockOff (sget [] n.dieAlloc (dieOf core)) (flat - b) else none
  | _, _, _ => none
/-- The cocoon whose local range holds a flat address, with the word's index (R305). -/
def cocoonOfFlat (s : State) (flat : Nat) : Option (Nat × Nat) :=
  s.cocoons.findSome? (fun p =>
    match cocoonOff s p.2 flat with
    | some o => if winOff p.2.base ≤ o ∧ o < winOff p.2.base + p.2.len then some (p.1, (o - winOff p.2.base) / 4) else none
    | none => none)

/-- The context in which a cocoon's global range is translated: its strand's ASID (R308). An access of a unit of the package uses
no TLB of a core. -/
def cocoonCtx (s : State) (c : Cocoon) (unit : Bool) : Ctx :=
  let t := s.strand c.strand
  { key := c.strand, asid := c.asid, user := t.level == .user
    table := if t.e.asid == c.asid then some (t.e.ptbase.toNat * 2 ^ 16) else none, tlb := !unit }

/-- The translation of the sector of word i of a cocoon for an access (R308, R312): recorded at the first touch; the first write
also checks write permission, and a record that a tlbinv removed counts for nothing. A fault carries the global address of the
access, which begins at byte b of the word. -/
def cocoonTr (unit : Bool) (ck i b : Nat) (acc : Acc) (e : Nat) : M Unit := do
  let s ← get
  match sfind s.cocoons ck with
  | none => pure ()
  | some c =>
    let j := i / 16
    let va := c.gva + 4 * i + b
    let ea : Dword := BitVec.ofNat 64 va
    checkVerdict (cocoonCtx s c unit) ea e
    let known := (sfind c.tr j).filter (!·.stale)
    if known.any (fun t => acc != .write || t.write) then pure ()
    else do
      let t ← translate (cocoonCtx s c unit) va acc ea e
      if t.cls == .d then trapM .classViolation ea e else pure ()
      t.lateM ea e
      match t with
      | .glob pa _ =>
        modify (fun s => s.setCocoon ck { c with tr := sput c.tr j { pa := pa / 64 * 64, cls := t.cls, write := acc == .write || known.any (·.write) } })
      | _ => pure ()

/-! ## Words of cocoons -/

/-- The words of a sector that a fill brings (R308): the invalid ones, and a clean one whose dword they complete, so that both
words of a dword come from one read (R394). -/
def fillWords (c : Cocoon) (j : Nat) : List Nat :=
  (upFrom (16 * j) 16).filter (fun k =>
    !c.valid.contains k || (!c.dirty.contains k && !c.valid.contains (k / 2 * 4 + 1 - k)))
/-- The words of a translated sector of a cocoon are filled (R308, R407): each with the value that its home has, or that the core
itself has written, poison carried along (R317). -/
def cocoonFillSector (s : State) (ck j : Nat) : State :=
  match sfind s.cocoons ck with
  | none => s
  | some c =>
    match sfind c.tr j with
    | none => s
    | some t =>
      let core := coreOf c.strand
      (fillWords c j).foldl (fun s k =>
        let f := cocoonFlat s c k
        let w := t.pa / 4 + k % 16
        let own := (sfind s.l1 (ckey core w)).filter (·.dirty)
        let v := own.elim (curVal s w) (·.val)
        let s := if t.cls == .i then s else extRead (dropDie s (dieOf core) w) (dieOf core) w
        match sfind s.cocoons ck with
        | some c' =>
          clearRingFlags { s with
            mem := Mem.writeN s.mem f 4 v.toNat
            poison := if own.isNone && wordPoisoned s w then nsInsert s.poison (f / 4) else nsErase s.poison (f / 4)
            cocoons := sput s.cocoons ck { c' with valid := nsInsert c'.valid k } } f
        | none => s) s

/-- The words of a cocoon that an access of n bytes to word i takes from their home though they are valid: for a store of less than a
word the clean word, whose current value it needs (R301), the clean word of a dword whose other word the core has written (R394), and
every word that is read of a sector of class I, which no cache may answer (R269, R314; assumption 58). -/
def refetched (c : Cocoon) (i n : Nat) (acc : Acc) : List Nat :=
  if acc != .write && (sfind c.tr (i / 16)).any (·.cls == .i) then upFrom i ((n + 3) / 4)
  else if acc == .write then (if n < 4 && !c.dirty.contains i then [i] else [])
  else if n == 8 && c.dirty.contains i != c.dirty.contains (i + 1) then [i, i + 1].filter (!c.dirty.contains ·)
  else []
/-- A write to a sector of a cocoon is performed at its home at once, not by a registration that follows: one of a unit of the package,
one of less than a word (R301), and any to a sector of class I (R269). -/
def storedAtHome (unit : Bool) (t : CocoonTr) (n : Nat) : Bool := unit || decide (n < 4) || t.cls == .i
/-- An access of n bytes to word i of a cocoon finds it translated, and a read finds it valid (R308): the sector is translated, and
filled from its home where words of it are invalid; the access waits for the home when it needs such a word, or is a write that is
performed there at once. A store of whole words takes no data: what of its sector it leaves invalid is filled afterwards. -/
def cocoonReady (unit : Bool) (ck i b n : Nat) (acc : Acc) (e : Nat) : M Unit := do
  let s ← get
  match sfind s.cocoons ck with
  | none => pure ()
  | some c => do
    let j := i / 16
    let ctx := cocoonCtx s c unit
    let ea : Dword := BitVec.ofNat 64 (c.gva + 4 * i + b)
    checkVerdict ctx ea e
    let again := refetched c i n acc
    let c := { c with valid := c.valid.filter (!again.contains ·) }
    if (upFrom (16 * j) 16).any (fun k => !c.valid.contains k) || acc == .write then cocoonTr unit ck i b acc e else pure ()
    let s ← get
    match (sfind s.cocoons ck).bind (fun d => sfind d.tr j) with
    | none => pure ()
    | some t => do
      let need := if acc == .write then storedAtHome unit t n else (upFrom i ((n + 3) / 4)).any (fillWords c j).contains
      if need then homeFree ctx t.pa ea e else pure ()
      modify (fun s =>
        if (fillWords c j).isEmpty || (!need && homeHeld s (t.pa / 256)) then s
        else if acc == .write && decide (4 ≤ n) then if t.cls == .i then s else s.setOffOnce (.fill (ck / 8) (ck % 8) j)
        else cocoonFillSector { s with cocoons := s.cocoons.map (fun p =>
          if p.1 = ck then (p.1, { p.2 with valid := p.2.valid.filter (!again.contains ·) }) else p) } ck j)

/-- count words of a cocoon from word i on have been written where they lie (R308): they are valid and dirty, the L1 of the mapping
core loses its copy of them, and links of the core to their region break. The answer names the core, the first physical word and
the values. -/
def cocoonMark (s : State) (ck i count : Nat) : State × Option (Nat × Nat × List Word) :=
  match sfind s.cocoons ck with
  | none => (s, none)
  | some c =>
    match sfind c.tr (i / 16) with
    | none => (s, none)
    | some t =>
      let w := t.pa / 4 + i % 16
      let core := coreOf c.strand
      let vals := (upFrom i count).map (fun k => (BitVec.ofNat 32 (Mem.readN s.mem (cocoonFlat s c k) 4) : Word))
      let s := vals.zipIdx.foldl (fun s q =>
        stripWrite (breakLinksOf (fun k => coreOf k == core) { s with l1 := sdel s.l1 (ckey core (w + q.2)) } (4 * (w + q.2))) core (w + q.2) q.1) s
      (s.setCocoon ck { c with valid := (upFrom i count).foldl nsInsert c.valid, dirty := (upFrom i count).foldl nsInsert c.dirty },
       some (core, w, vals))
/-- A write of an agent of a core into a cocoon (R308): the registration of its span, naming the mapping core, goes out. -/
def cocoonWrote (s : State) (ck i count by_ : Nat) : State :=
  match cocoonMark s ck i count with
  | (s, some (core, w, vals)) => { s with pending := s.pending ++ [⟨core, w, vals, by_⟩] }
  | (s, none) => s
/-- A write by an agent of a core that a cocoon's home performs at once (storedAtHome; R308, R404): it records the registration, or, for
a sector of class I, takes the words themselves, which stay clean in the cocoon; words that the write left poisoned are poisoned there
too (R317). -/
def cocoonStored (s : State) (ck i count by_ : Nat) : State :=
  let direct := (sfind s.cocoons ck).any (fun c => (sfind c.tr (i / 16)).any (·.cls == .i))
  match cocoonMark s ck i count with
  | (s, some (core, w, vals)) =>
    let bad := (sfind s.cocoons ck).elim [] (fun c => (upFrom 0 count).filter (fun q => s.poison.contains (cocoonFlat s c (i + q) / 4)))
    let s := drain s (fun p => (upFrom w count).any (fun x => p.names core x))
    let s :=
      if direct then
        let s := vals.zipIdx.foldl (fun s q => homeWrite s (w + q.2) q.1) s
        { s with cocoons := s.cocoons.map (fun p =>
          if p.1 = ck then (p.1, { p.2 with dirty := (upFrom i count).foldl nsErase p.2.dirty }) else p) }
      else recordPending s ⟨core, w, vals, by_⟩
    { s with poison := bad.foldl (fun p q => nsInsert p (w + q)) s.poison }
  | (s, none) => s

/-- n bytes of a cocoon, from word i on, have been written where they lie by an agent of a core, or by a unit of the package. -/
def cocoonLands (s : State) (unit : Bool) (ck i n by_ : Nat) : State :=
  match (sfind s.cocoons ck).bind (fun c => sfind c.tr (i / 16)) with
  | some t => if storedAtHome unit t n then cocoonStored s ck i ((n + 3) / 4) by_ else cocoonWrote s ck i ((n + 3) / 4) by_
  | none => s

/-! ## Local words -/

/-- Read n bytes of local memory (R305, R317). -/
def localRead (c : Ctx) (flat n : Nat) (ea : Dword) (e : Nat) : M Nat := do
  let s ← get
  match cocoonOfFlat s flat with
  | some (ck, i) => cocoonReady (!c.tlb) ck i (flat % 4) n .read e
  | none => pure ()
  let s ← get
  if s.poison.contains (flat / 4) || (n == 8 && s.poison.contains (flat / 4 + 1)) then trapM .memPoison ea e
  else pure (Mem.readN s.mem flat n)

/-- Write n bytes of local memory (R133, R195, R305): a write of less than a poisoned word traps before any change. -/
def localWrite (c : Ctx) (flat n v : Nat) (ea : Dword) (e : Nat) : M Unit := do
  let s ← get
  match cocoonOfFlat s flat with
  | some (ck, i) => cocoonReady (!c.tlb) ck i (flat % 4) n .write e
  | none => pure ()
  let s ← get
  if n < 4 && s.poison.contains (flat / 4) then trapM .memPoison ea e
  else
    let p := if n < 4 then s.poison else nsErase s.poison (flat / 4)
    let p := if n = 8 then nsErase p (flat / 4 + 1) else p
    let s := breakLinks (clearRingFlags { s with mem := Mem.writeN s.mem flat n v, poison := p } flat) flat
    match cocoonOfFlat s flat with
    | some (ck, i) => set (cocoonLands s (!c.tlb) ck i n (coreOf c.key))
    | none => set s

/-! ## The chrysalis (R447, R448, R450) -/

/-- The task in chrysalis that a strand holds. -/
def State.specTask (s : State) (k : Nat) : Option (Nat × Task) :=
  match (s.strand k).task with
  | some j =>
    match sfind s.tasks j with
    | some t => if t.set.isEmpty then none else some (j, t)
    | none => none
  | none => none

/-- The n bytes from address a on lie in the ranges of a list together. -/
def covers (l : List Range) : Nat → Nat → Nat → Bool
  | _, _, 0 => true
  | 0, _, _ => false
  | fuel + 1, a, n =>
    match l.find? (fun r => decide (r.base.toNat ≤ a) && decide (a < r.base.toNat + r.len)) with
    | none => false
    | some r => covers l fuel (r.base.toNat + r.len) (n - (r.base.toNat + r.len - a))

/-- The bytes that a slot forecasts for a version: the open forecast, or the one whose decision is pending. -/
def FSlot.bytesOf (x : FSlot) (ver : BitVec 32) : List Byte :=
  match x.pending with
  | some d => if d.ver = ver then d.forecast else x.forecast.getD []
  | none => x.forecast.getD []
/-- The forecast tiles of a task's set: where each lies, and its forecast bytes. -/
def forecasts (s : State) (k : Nat) (t : Task) : List (Range × List Byte) :=
  t.set.filterMap (fun f => (sfind s.fslots (64 * dieOf (coreOf k) + f.slot)).map (fun x => (⟨x.tile, x.len⟩, x.bytesOf f.ver)))
/-- The forecast of the byte at an address, where it lies in a forecast tile. -/
def forecastByte (l : List (Range × List Byte)) (a : Nat) : Option Byte :=
  (l.find? (fun p => decide (p.1.base.toNat ≤ a) && decide (a < p.1.base.toNat + p.1.len))).map (fun p => p.2.getD (a - p.1.base.toNat) 0)
/-- n bytes read at an address, the forecast ones replaced by their forecasts (R447). -/
def forecastOver (l : List (Range × List Byte)) (ea : Dword) (n v : Nat) : Nat :=
  (upFrom 0 n).foldl (fun v i =>
    match forecastByte l (ea.toNat + i) with
    | some b => v - v / 2 ^ (8 * i) % 256 * 2 ^ (8 * i) + b.toNat * 2 ^ (8 * i)
    | none => v) v

/-- n bytes at an address lie in the effective output set (R447). -/
def inWriteSet (t : Task) (ea : Dword) (n : Nat) : Bool := covers t.writes (t.writes.length + 1) ea.toNat n
/-- n bytes at an address lie in the effective read set (R447). -/
def inReadSet (s : State) (k : Nat) (t : Task) (ea : Dword) (n : Nat) : Bool :=
  let l := t.reads ++ t.writes ++ (forecasts s k t).map (·.1)
  covers l (l.length + 1) ea.toNat n

/-- The place of a byte: its physical address, or its flat local address. -/
def Target.place : Target → Nat
  | .glob pa _ => pa
  | .loc f => f
  | .dev o => o
  | .late _ _ => 0

/-- 256-byte regions that a buffer occupies (R450). -/
def bufRegions (b : Sparse Byte) : Nat :=
  (b.foldl (fun (acc : Nat × Nat) p => if p.1 / 256 + 1 = acc.2 then acc else (acc.1 + 1, p.1 / 256 + 1)) (0, 0)).1
/-- Bytes of a core's scratchpad that no group holds and no lending uses (R450). -/
def freeSpad (s : State) (core : Nat) : Nat :=
  let held := s.groups.foldl (fun n p => if p.2.core = core then n + p.2.spadSize else n) 0
  let lent := s.kernels.foldl (fun n p => if (sfind p.2.clAlloc (clusterOf core)).isSome then n + 1024 * p.2.res.lendKib else n) 0
  0x300000 - held - lent
/-- Bytes of the regions that a core's chrysalis store holds. -/
def chrysHeld (s : State) (core : Nat) : Nat := 256 * s.tasks.foldl (fun n p => if p.2.store = some core then n + bufRegions p.2.buf else n) 0
/-- Bytes of a core's scratchpad that regions of chrysalises lie in (R450). -/
def chrysSpad (s : State) (core : Nat) : Nat := 256 * s.tasks.foldl (fun n p => if p.2.store = some core then n + p.2.inSpad else n) 0
/-- Regions that the reserved megabyte of a core's L2 has room for (R450). -/
def chrysWays (s : State) (core : Nat) : Nat := 4096 - (chrysHeld s core - chrysSpad s core) / 256
/-- The chrysalis store of a core has room for n more regions (R450). -/
def chrysRoom (s : State) (core n : Nat) : Bool :=
  decide (n ≤ chrysWays s core + (freeSpad s core - chrysSpad s core) / 256)
/-- The 4 KiB blocks of a core's scratchpad that chrysalis data fills: they are not free for placement until the tasks whose data lies
there are decided (R450). -/
def chrysBlocks (s : State) (core : Nat) : Nat := (chrysSpad s core + 4095) / 4096
/-- Bytes laid into a task's buffer. -/
def bufPut (b : Sparse Byte) (place n v : Nat) : Sparse Byte :=
  (upFrom 0 n).foldl (fun b i => sput b (place + i) (BitVec.ofNat 8 (v / 2 ^ (8 * i)))) b
/-- A write of a task to the places of a list, one a region, finds room (R450). -/
def bufRoom (s : State) (t : Task) (core : Nat) (places : List Nat) : Bool :=
  let fresh := (places.filter (fun q => !t.buf.any (fun p => p.1 / 256 == q / 256))).length
  fresh == 0 || (decide (256 * (bufRegions t.buf + fresh) ≤ 0x100000) && chrysRoom s core fresh)
/-- Of n regions that a core's store takes, those for which the reserved megabyte has no room (R450). -/
def spadRegions (s : State) (core n : Nat) : Nat := n - chrysWays s core

/-- A write that is no ring write leaves no slot that it lands in zero by a ring write, as the task sees it (R195). -/
def bufClearZero (s : State) (t : Task) (place : Nat) : Task :=
  { t with bufZero := t.bufZero.map (fun p =>
      let r := (s.strand (p.1 / 8)).rings.toList.getD (p.1 % 8) {}
      (p.1, p.2.filter (fun n =>
        let a := ringSlotAddr r n
        !((List.range (2 ^ r.log2slot.toNat / 64)).any (fun q =>
            localFlat s (p.1 / 8) (winCode a) (winOff a + 64 * q) 0 / 64 == place / 64))))) }
/-- A task with n bytes laid into its chrysalis, whose store is that of a core (R447, R450). A write of whole words clears the poison
that they carried. -/
def bufTake (s : State) (t : Task) (core place n v : Nat) : Task :=
  let t := bufClearZero s t place
  let clean := if n < 4 then [] else upFrom (place / 4) (n / 4)
  let fresh := if t.buf.any (fun p => p.1 / 256 == place / 256) then 0 else 1
  { t with buf := bufPut t.buf place n v, store := some core, inSpad := t.inSpad + spadRegions s core fresh
           bufPoison := clean.foldl nsErase t.bufPoison }
/-- Buffer n bytes of a task in its chrysalis; the write stalls where the task's megabyte or the core's store is full
(R450). -/
def bufWrite (j core place n v : Nat) : M Unit := do
  let s ← get
  match sfind s.tasks j with
  | none => pure ()
  | some t =>
    let core := t.store.getD core
    if !bufRoom s t core [place] then waitM else set { s with tasks := sput s.tasks j (bufTake s t core place n v) }
/-- Memory holds none of the n bytes that a task loads at an address: each is forecast or buffered (R447). -/
def needsNoMemory (l : List (Range × List Byte)) (t : Task) (place : Nat) (ea : Dword) (n : Nat) : Bool :=
  (upFrom 0 n).all (fun i => (forecastByte l (ea.toNat + i)).isSome || ((sfind t.buf (place + i)).or (sfind t.vis (place + i))).isSome)
/-- A buffered word of n bytes at a place carries poison (R379). -/
def bufPoisoned (t : Task) (place n : Nat) : Bool := (upFrom (place / 4) ((n + 3) / 4)).any t.bufPoison.contains

/-- A value read from memory with a task's buffered bytes laid over it (R447). -/
def overlay (t : Task) (place n v : Nat) : Nat :=
  (upFrom 0 n).foldl (fun v i =>
    match (sfind t.buf (place + i)).or (sfind t.vis (place + i)) with
    | some b => v - v / 2 ^ (8 * i) % 256 * 2 ^ (8 * i) + b.toNat * 2 ^ (8 * i)
    | none => v) v

/-- Stall an instruction that a task in chrysalis never performs (R448). -/
def specStall (c : Ctx) : M Unit := do
  let s ← get
  if c.tlb && (s.specTask c.key).isSome then waitM else pure ()

/-! ## Accesses -/

/-- Read n bytes where an access was resolved to (R300, R305, R317). -/
def readTarget (c : Ctx) (t : Target) (n : Nat) (ea : Dword) (e : Nat) : M Nat :=
  match t with
  | .glob pa cls => do
    let s ← get
    if c.tlb && cls == .n then do
      let core := coreOf c.key
      if readsHome s core (pa / 4) ((n + 3) / 4) then homeFree c pa ea e else pure ()
      let s ← get
      match coreRead s core (pa / 4) ((n + 3) / 4) with
      | (some v, s') => do
        set s'
        pure (if n < 4 then v / 2 ^ (8 * (pa % 4)) % 2 ^ (8 * n) else v)
      | (none, _) => trapM .memPoison ea e
    else do
      homeFree c pa ea e
      let s ← get
      match homeRead s pa n with
      | some v => pure v
      | none => trapM .memPoison ea e
  | .loc f => localRead c f n ea e
  | .dev o => do
    let s ← get
    if isReg o then do
      let (v, s') := regRead s o
      set s'
      pure v.toNat
    else pure 0
  | .late _ v => trapM v ea e

/-- An agent of a core has made count words newer at their home: clean copies of the core's L1 and of its die's L2 go, and its strip
buffers follow (R389, R393). -/
def renewed (s : State) (core w count : Nat) : State :=
  (upFrom w count).foldl (fun s x =>
    stripWrite (dropDie { s with l1 := sdel s.l1 (ckey core x) } (dieOf core) x) core x (curVal s x)) s

/-- Write n bytes where an access was resolved to (R299, R301, R305, R133). A store of whole words needs no home: its registration goes
there later. -/
def writeTarget (c : Ctx) (t : Target) (n v : Nat) (ea : Dword) (e : Nat) : M Unit :=
  match t with
  | .glob pa cls => do
    if c.tlb && cls == .n && decide (4 ≤ n) then modify (fun s => coreWriteWords s (coreOf c.key) (pa / 4) (n / 4) v)
    else do
      homeFree c pa ea e
      let s ← get
      if c.tlb && cls == .n then
        match coreWriteSub s (coreOf c.key) pa n v with
        | some s' => set s'
        | none => trapM .memPoison ea e
      else
        match homeWriteN s pa n v with
        | some s' => set (if c.tlb then renewed s' (coreOf c.key) (pa / 4) ((n + 3) / 4) else s')
        | none => trapM .memPoison ea e
  | .loc f => localWrite c f n v ea e
  | .dev o => modify (fun s => if isReg o then regWrite s (some c.key) o (BitVec.ofNat 32 v) else s)
  | .late _ v => trapM v ea e

/-- Where an access goes for a strand or cell: a global address in a cocoon of the core is served from the cocoon (R305),
every other address is resolved under R133. A cell reaches no class D memory (R338). -/
def route (c : Ctx) (ea : Dword) (n : Nat) (acc : Acc) (e lane : Nat) : M Target := do
  let s ← get
  match (if c.tlb && winCode ea == 0 && ea.toNat % n == 0 then cocoonOfGlobal s (coreOf c.key) c.asid ea.toNat else none) with
  | some (ck, i) =>
    match sfind s.cocoons ck with
    | some k => pure (.loc (cocoonFlat s k i + ea.toNat % 4))
    | none => resolve c ea n acc e lane
  | none =>
    if c.tlb && s.isCell && winCode ea == 0xFE && ea.toNat % n == 0 then trapM .classViolation ea e
    else do
      let t ← resolve c ea n acc e lane
      if c.tlb && s.isCell && t.cls == .d then trapM .classViolation ea e else pure t

/-- The strip of a task has performed a class D access (R435). -/
def noteClass (c : Ctx) (t : Target) : M Unit :=
  if c.tlb && t.cls == .d then modify (·.upd c.key (fun p => { p with stripD := true })) else pure ()

/-- A class that the instruction forbids (R271). -/
def forbidClass (bad : Cls → Bool) (t : Target) (ea : Dword) (e : Nat) : M Unit :=
  if bad t.cls then trapM .classViolation ea e else pure ()

/-- Read what an access was routed to (R13). In chrysalis, a load sees the task's own buffered bytes, then the forecast of a tile
of its set, then memory (R447). -/
def loadAt (c : Ctx) (t : Target) (ea : Dword) (n e : Nat) : M Nat := do
  let s ← get
  match (if c.tlb then s.specTask c.key else none) with
  | some (_, k) =>
    if t.cls == .d || !inReadSet s c.key k ea n then waitM
    else do
      t.lateM ea e
      if bufPoisoned k t.place n then trapM .memPoison ea e else pure ()
      let l := forecasts s c.key k
      let v ← (if needsNoMemory l k t.place ea n then pure 0 else readTarget c t n ea e)
      pure (overlay k t.place n (forecastOver l ea n v))
  | none => do
    noteClass c t
    readTarget c t n ea e

/-- read_mem (R13) of n bytes at ea, for element e in a lane. -/
def loadN (c : Ctx) (ea : Dword) (n e lane : Nat) : M Nat := do
  let t ← route c ea n .read e lane
  loadAt c t ea n e

/-- A write that a chrysalis buffers touches the sector of a cocoon that it names (R308, R448): the sector is translated. -/
def sectorTouched (c : Ctx) (t : Target) (e : Nat) : M Unit := do
  let s ← get
  match t with
  | .loc f =>
    match cocoonOfFlat s f with
    | some (ck, i) => cocoonTr (!c.tlb) ck i (f % 4) .write e
    | none => pure ()
  | _ => pure ()
/-- write_mem (R13) of the low n bytes of v at ea. In chrysalis, a store in the output set is buffered, any other stalls
(R447, R448). -/
def storeN (c : Ctx) (ea : Dword) (n v e lane : Nat) : M Unit := do
  let t ← route c ea n .write e lane
  let s ← get
  match (if c.tlb then s.specTask c.key else none) with
  | some (j, k) =>
    if t.cls == .d || !inWriteSet k ea n then waitM
    else do
      t.lateM ea e
      if n < 4 && bufPoisoned k t.place n then trapM .memPoison ea e else pure ()
      sectorTouched c t e
      -- a store of less than a word needs the word's current value, which may be poisoned (R133, R301)
      if n < 4 && !(upFrom (t.place / 4 * 4) 4).all (fun p => (sfind k.buf p).isSome) then do
        let _ ← readTarget c t n ea e
      else pure ()
      bufWrite j (coreOf c.key) t.place n v
  | none => do
    noteClass c t
    writeTarget c t n v ea e

/-- An element of an instruction of a task in chrysalis is of class D, as far as its checks tell before it is performed (R448). -/
def classD (c : Ctx) (n : Nat) : List Dword → M Bool
  | [] => pure false
  | ea :: t => do
    match ← tryTrap (route c ea n .read 0 0) with
    | .ok g => if g.cls == .d then pure true else classD c n t
    | .error _ => classD c n t
/-- Stall an instruction of a task in chrysalis before any element, when an element lies outside its read set or is of class D
(R448). -/
def specLoads (c : Ctx) (eas : List Dword) (n : Nat) : M Unit := do
  let s ← get
  match (if c.tlb then s.specTask c.key else none) with
  | some (_, t) => if !eas.all (fun ea => inReadSet s c.key t ea n) || (← classD c n eas) then waitM else pure ()
  | none => pure ()
/-- Stall an instruction of a task in chrysalis before any element, when an element lies outside its output set or is of class D
(R448). -/
def specStores (c : Ctx) (eas : List Dword) (n : Nat) : M Unit := do
  let s ← get
  match (if c.tlb then s.specTask c.key else none) with
  | some (_, t) => if !eas.all (fun ea => inWriteSet t ea n) || (← classD c n eas) then waitM else pure ()
  | none => pure ()

/-- A store that is to perform at once (R273, R289) goes to a home that serves it now: the one of a class N word, or of the global
word for which a cocoon word stands. -/
def homeReady (c : Ctx) (t : Target) (n : Nat) (ea : Dword) (e : Nat) : M Unit := do
  let s ← get
  match t with
  | .glob pa cls => if cls == .n then homeFree c pa ea e else pure ()
  | .loc f =>
    match cocoonOfFlat s f with
    | some (ck, i) => do
      cocoonReady (!c.tlb) ck i (f % 4) n .write e
      let s ← get
      match (sfind s.cocoons ck).bind (fun d => (sfind d.tr (i / 16)).map (fun r => (d, r))) with
      | some (d, r) => homeFree (cocoonCtx s d (!c.tlb)) r.pa (BitVec.ofNat 64 (d.gva + 4 * i + f % 4)) e
      | none => pure ()
    | none => pure ()
  | _ => pure ()
/-- A write whose registrations reach their homes within it. -/
def atOnce (m : M Unit) : M Unit := do
  let s ← get
  m
  modify (fun u => drain u (fun p => (u.pending.drop s.pending.length).contains p))
/-- write_mem (R13) that performs at every scope before it completes: its registration reaches the home within it. In chrysalis it is
buffered as any store. -/
def storeNow (c : Ctx) (ea : Dword) (n v e lane : Nat) : M Unit := do
  let s ← get
  if c.tlb && (s.specTask c.key).isSome then storeN c ea n v e lane
  else do
    let t ← route c ea n .write e lane
    noteClass c t
    homeReady c t n ea e
    atOnce (writeTarget c t n v ea e)

/-! ## Units of the package -/

/-- A fault within the work of a unit of the package is an answer; a wait makes all of the work wait. -/
def unlessFault {α : Type} (m : M α) : M (Except TrapInfo α) := fun s =>
  match m s with
  | .ok a s' => .ok (.ok a) s'
  | .error (.trap t) s' => .ok (.error t) s'
  | .error .wait s' => .error .wait s'
/-- A message that asks the host for a translation (R509). -/
def Outbound.isRequest : Outbound → Bool
  | .atsRequest _ _ => true
  | .priRequest _ _ => true
  | _ => false
/-- What the work of a unit that has to wait leaves: the requests that it has made (R303, R509). -/
def keepRequests (s s' : State) : State :=
  { s with atsWaits := s'.atsWaits, waiters := s'.waiters, refused := s'.refused, tlb := s'.tlb
           out := s.out ++ (s'.out.drop s.out.length).filter Outbound.isRequest }
/-- Work of a unit that is done whole: where an access of it has to wait, only the requests that it has made are left. -/
def wholeM (m : M Unit) : M Unit := fun s =>
  match m s with
  | .error .wait s' => .error .wait (keepRequests s s')
  | r => r
/-- The work of a unit of the package: done whole, or, where an access has to wait, not begun. -/
def unitWork (m : M Unit) (s : State) : State :=
  match m s with
  | .ok _ s' => s'
  | .error (.trap _) s' => s'
  | .error .wait s' => keepRequests s s'

/-! ## Atomics -/

/-- The words of a cocoon that an access of n bytes reads are the ones that their home has (R289, R291, R292): clean ones are fetched
anew. -/
def cocoonFresh (c : Ctx) (fl n e : Nat) : M Unit := do
  let s ← get
  match cocoonOfFlat s fl with
  | some (ck, i) => do
    modify (fun s => { s with cocoons := s.cocoons.map (fun p =>
      if p.1 = ck then (p.1, { p.2 with valid := p.2.valid.filter (fun k =>
        p.2.dirty.contains k || !(decide (i ≤ k) && decide (k < i + (n + 3) / 4))) }) else p) })
    cocoonReady (!c.tlb) ck i (fl % 4) n .read e
  | none => pure ()
/-- The registrations on their way of the words of a cocoon that an access of n bytes names reach their home. -/
def cocoonDrain (s : State) (fl n : Nat) : State :=
  match cocoonOfFlat s fl with
  | some (ck, i) =>
    match (sfind s.cocoons ck).bind (fun c => (sfind c.tr (i / 16)).map (fun t => (c, t))) with
    | some (c, t) => drain s (fun p => (upFrom (t.pa / 4 + i % 16) ((n + 3) / 4)).any (p.names (coreOf c.strand)))
    | none => s
  | none => s
/-- An indivisible read-modify-write of n bytes, 4 or 8, of a target that its home serves now (R291, R293, R294): at the home of its
word, also of one that lies in a cocoon, or at its device. The core's own registrations of the word reach the home first. Where f gives
no value, nothing is written. The answer is the old value. -/
def amoAt (c : Ctx) (t : Target) (ea : Dword) (n e : Nat) (f : Nat → Option Nat) : M Nat := do
  match t with
  | .glob pa cls => do
    noteClass c t
    if cls == .n then modify (fun s => (upFrom (pa / 4) (n / 4)).foldl (fun s w => drainWord s (coreOf c.key) w) s) else pure ()
    let s ← get
    match homeRead s pa n with
    | none => trapM .memPoison ea e
    | some old => do
      match (f old).bind (homeWriteN s pa n) with
      | some s' => set (renewed s' (coreOf c.key) (pa / 4) (n / 4))
      | none => pure ()
      pure old
  | .loc fl => do
    modify (cocoonDrain · fl n)
    cocoonFresh c fl n e
    let old ← localRead c fl n ea e
    match f old with
    | some v => atOnce (localWrite c fl n v ea e)
    | none => pure ()
    pure old
  | t => do
    noteClass c t
    let old ← readTarget c t n ea e
    match f old with
    | some v => writeTarget c t n v ea e
    | none => pure ()
    pure old
/-- An indivisible read-modify-write of n bytes at an address (R291, R293, R294), once the home of its word serves it. -/
def amoN (c : Ctx) (ea : Dword) (n e lane : Nat) (f : Nat → Option Nat) : M Nat := do
  specStall c
  let _ ← route c ea n .read e lane
  let t ← route c ea n .write e lane
  match t with
  | .glob pa _ => homeFree c pa ea e
  | _ => homeReady c t n ea e
  amoAt c t ea n e f

end Sys2Proof.Machine
end

