-- ==== Sys2Proof/Machine/Exec.lean ====
section
/-! DEFINITION. How an instruction's computation becomes an outcome: completing, taking its trap, or waiting. -/

namespace Sys2Proof.Machine
open Sys2Proof

/-- The actor waits: the instruction has not begun, and the PC stays at it. -/
def State.block (s : State) : State := s.setWait { s.waitOf with blocked := true }
/-- The actor waits in a release for the registrations that it asks for, which are outstanding from now on (R271, R303). -/
def State.blockRelease (s : State) : State :=
  s.setWait { s.waitOf with blocked := true, since := some (s.waitOf.since.getD s.now), out := none }

/-! ## Traps inside tasks (R435, R453) -/

/-- A task's handle (R427): DIE and ENTRY of its pool key. -/
def handleOf (j : Nat) : Dword := BitVec.ofNat 64 j
/-- The strand leaves its task and goes back to its trun (R435, R452); what the cancelled instructions did part way is
dropped. -/
def backToTrun (t : Strand) : Strand :=
  { t with pc := t.tret - 4, task := none, wait := {}, cm := 0, vstart := 0, level := .user, hold := none }
/-- A strand's invocation and stop state are cancelled with its other instructions (R435, R452). -/
def cancelFabric (s : State) (k : Nat) : State :=
  if (sfind s.invs k).isSome then
    { s with invs := sdel s.invs k, cells := s.cells.filter (fun p => p.1 / 64 != k) }.upd k
      (fun t => { t with fxstat := t.fxstat &&& ~~~(0x30 : Dword) })
  else s
/-- A trap of strand k converts its task (R435): the pool key, the task and the free pager future. -/
def convertible (s : State) (k : Nat) (c : Cause) : Option (Nat × Task × Nat) :=
  let t := s.strand k
  let d := dieOf (coreOf k)
  let g := s.pager d
  match t.task with
  | some j =>
    match sfind s.tasks j with
    | some x =>
      if x.set.isEmpty ∧ c = .pageNotPresent ∧ t.level = .user ∧ !t.loopClosed ∧ !t.stripD ∧ g.en ∧ g.tail - g.head ≠ 1024 then
        ((List.range 1024).find? (fun n => (sfind s.pfut (1024 * d + n)).isNone)).map (fun n => (j, x, n))
      else none
    | none => none
  | none => none
/-- The pager record of a conversion (R436). -/
def pagerRecord (a : Dword) (t : TrapInfo) (j : Nat) (x : Task) (n : Nat) : M Unit := do
  storeN systemCtx a 8 t.addr.toNat 0 0
  storeN systemCtx (a + 8) 8 (x.asid.toNat + 2 ^ 16 * t.cause.code.toNat + 2 ^ 24 * x.desc.queue + 2 ^ 32 * n) 0 0
  storeN systemCtx (a + 16) 8 (handleOf j).toNat 0 0
  storeN systemCtx (a + 24) 8 0 0 0
/-- The conversion of a task by a page fault (R435, R436): the pager record is written before PQTAIL advances; while its home serves
another agent the strand waits at the faulting instruction (R303). -/
def convertTask (s : State) (k : Nat) (t : TrapInfo) (j : Nat) (x : Task) (n : Nat) : State :=
  let d := dieOf (coreOf k)
  let g := s.pager d
  let rec_ : Dword := g.basehi ++ g.baselo ++ (0 : BitVec 15) + BitVec.ofNat 64 (32 * (g.tail.toNat % 1024))
  let left := (readX (s.strand k).x 4).toNat
  let done (s : State) : State :=
    (cancelFabric { s with
      tasks := sput s.tasks j { x with desc := { x.desc with resume := x.desc.trip - BitVec.ofNat 32 left }, state := .paged n }
      pfut := sput s.pfut (1024 * d + n) j
      pagers := sput s.pagers d { g with tail := g.tail + 1 }
      out := s.out ++ [.pagerEvent d] } k).upd k backToTrun
  match pagerRecord rec_ t j x n s with
  | .ok _ s' => done s'
  | .error (.trap _) s' => done s'
  | .error .wait s' => (keepRequests s s').upd k (fun p => { p with wait := { p.wait with blocked := true } })

/-- A trap of strand k: held when its task is in chrysalis (R453), a conversion of its task (R435), else taken (R474). -/
def raiseAt (s : State) (k : Nat) (t : TrapInfo) : State :=
  match s.specTask k with
  | some (j, x) =>
    { s with tasks := sput s.tasks j { x with held := some t } }.upd k (fun p => { p with wait := { blocked := true } })
  | none =>
    match convertible s k t.cause with
    | some (j, x, n) => convertTask s k t j x n
    | none => takeTrap s k t

/-- A trap of a cell's access (R153, R351): the invocation is to stop with REASON FAULT at this cell, which makes the
access again at the continue (R352). -/
def cellFaults (s : State) (k c : Nat) (t : TrapInfo) : State :=
  match sfind s.invs k with
  | some i => { s with invs := sput s.invs k { i with stop := i.stop.or (some ⟨2, some t, some c⟩) } }.setOff (.fabricStop k)
  | none => s

/-- A trap of whoever acts. -/
def raise (s : State) (t : TrapInfo) : State :=
  match s.actor with
  | .strand k => raiseAt s k t
  | .cell k c => cellFaults s k c t

/-- The outcome of an instruction's computation (R13, R475): its effects, its trap, or a wait. -/
def runInstr (m : M Unit) (s : State) : Out :=
  match m s with
  | .ok _ s' => .next s'
  | .error (.trap t) s' => .next (raise s' t)
  | .error .wait s' => .next s'.block

/-- The outcome of an instruction that first makes a check and then has an effect that cannot stop. -/
def checked (check : Option TrapInfo) (effect : State) (s : State) : Out :=
  match check with
  | some t => .next (raise s t)
  | none => .next effect

/-- The trap of a release whose registrations have been outstanding for 4 ms (R271, R303; assumption 59): MEM_TIMEOUT, at the physical
address of the first word whose home is held. -/
def releaseTimeout (s : State) : Option TrapInfo :=
  if s.waitOf.verdict = some .memTimeout ∧ s.waitOf.out = none then
    some ⟨.memTimeout, BitVec.ofNat 64 (4 * (s.pending.find? (fun p =>
      (p.core == s.core || p.by_ == s.core) && homeHeld s (regionOf p.word))).elim 0 (·.word)), 0⟩
  else none
/-- What the acting strand does after a release at a scope (R397): it waits where a registration cannot reach its home yet (R303). A cwb
of a task in chrysalis, which R448 does not have stall, does not wait for the task's buffered stores (R150; DESIGN CHOICE,
assumption 72). -/
def releasing (sc : Scope) (f : State → State) (s : State) : State :=
  if releaseWaits s s.core sc then
    match releaseTimeout s with
    | some t => raise s t
    | none => s.blockRelease
  else f (release s s.core sc)

/-- A word at a physical address through a core's L1 instruction cache (R101): what the cache holds, else what a read finds, which
the cache keeps. The core's own newest word answers such a read; any other word comes from its home, so that a fetch after a cwb sees
the stores before it on every core that the cwb names (R150). -/
def fetchPhys (c : Ctx) (pa : Nat) (cls : Cls) (ea : Dword) (e : Nat) : M Word := do
  let s ← get
  let core := coreOf c.key
  match sfind s.icache (ckey core (pa / 4)) with
  | some w => pure w
  | none => do
    let v ← (if cls == .n && !ownWord s core (pa / 4) then do
        homeFree c pa ea e
        let s ← get
        if wordPoisoned s (pa / 4) then trapM .memPoison ea e
        else do
          set (fillWord s core (pa / 4) 0 (curVal s (pa / 4)))
          pure (curVal s (pa / 4)).toNat
      else readTarget c (.glob pa cls) 4 ea e)
    let w : Word := BitVec.ofNat 32 v
    modify (fun s => { s with icache := sput s.icache (ckey core (pa / 4)) w })
    pure w

/-- The trap ILLEGAL_INSTRUCTION of a word (R111, R480). -/
def illegal (w : Word) : TrapInfo := ⟨.illegalInstruction, w.zeroExtend 64, 0⟩
/-- The trap PRIVILEGE of a word (R480). -/
def privileged (w : Word) : TrapInfo := ⟨.privilege, w.zeroExtend 64, 0⟩

/-- The acting strand holds a task (R430). -/
def State.holdsTask (s : State) : Bool := s.me.task.isSome

/-- A jump or branch to a target (R136, R137, R501). At user level a target of 0 ends the strand's part in its shard: the
PC stays at the ending instruction, which the step STRAND_END carries on; a strand that holds a task takes
ILLEGAL_INSTRUCTION with the jump's word instead. -/
def jumpTo (s : State) (target : Dword) (w : Word) : State :=
  if !s.isCell ∧ s.me.level = .user ∧ target = 0 then
    if s.holdsTask then raise s (illegal w) else s.updMe (fun t => { t with ending := true })
  else s.setPc target

/-- A kernel makes progress (R419): its heartbeat count starts again. -/
def noteProgress (s : State) (k : Nat) : State :=
  match s.groupOf k with
  | some g =>
    match sfind s.kernels g.kernel with
    | some kn => { s with kernels := sput s.kernels g.kernel { kn with idleNs := 0 } }
    | none => s
  | none => s

end Sys2Proof.Machine
end

