-- ==== Sys2Proof/Machine/Alu.lean ====
section
/-! DEFINITION. The ALU and immediate majors (R127 to R131). Sources are read at the start, so a write of xd never
changes them; nothing traps. -/

namespace Sys2Proof.Machine
open Sys2Proof

/-- The shift amount of R128: b[5:0]. -/
def amount (y : Dword) : Nat := (y.extractLsb' 0 6 : BitVec 6).toNat
/-- Bits [127:64] of an exact product (R128). -/
def mulHigh (x y : Int) : Dword := BitVec.ofInt 64 (x * y / 2 ^ 64)
/-- div (R129). -/
def divS (x y : Dword) : Dword :=
  if y = 0 then BitVec.allOnes 64
  else if x.toInt = -(2 ^ 63) ∧ y.toInt = -1 then x
  else BitVec.ofInt 64 (x.toInt.tdiv y.toInt)
/-- rem (R129). -/
def remS (x y : Dword) : Dword :=
  if y = 0 then x
  else if x.toInt = -(2 ^ 63) ∧ y.toInt = -1 then 0
  else BitVec.ofInt 64 (x.toInt - y.toInt * x.toInt.tdiv y.toInt)
/-- divn (R129). -/
def divU (x y : Dword) : Dword := if y = 0 then BitVec.allOnes 64 else BitVec.ofNat 64 (x.toNat / y.toNat)
/-- remn (R129). -/
def remU (x y : Dword) : Dword := if y = 0 then x else BitVec.ofNat 64 (x.toNat % y.toNat)

/-- Count of leading zeros among the n low bits of x. -/
def clzUp (x : Dword) : Nat → Nat
  | 0 => 0
  | n + 1 => if x.getLsbD n then 0 else 1 + clzUp x n
/-- Count of trailing zeros from bit i on, with n bits left. -/
def ctzUp (x : Dword) (i : Nat) : Nat → Nat
  | 0 => 0
  | n + 1 => if x.getLsbD i then 0 else 1 + ctzUp x (i + 1) n
/-- Leading zeros, 0 to 64 (R128). -/
def clz64 (x : Dword) : Dword := BitVec.ofNat 64 (clzUp x 64)
/-- Trailing zeros, 0 to 64 (R128). -/
def ctz64 (x : Dword) : Dword := BitVec.ofNat 64 (ctzUp x 0 64)
/-- One bits (R128). -/
def popc64 (x : Dword) : Dword := BitVec.ofNat 64 (forN 64 (fun i n => if x.getLsbD i then n + 1 else n) 0)
/-- The eight bytes in reverse order (R128). -/
def bswap64 (x : Dword) : Dword :=
  (x.extractLsb' 0 8 : Byte) ++ (x.extractLsb' 8 8 : Byte) ++ (x.extractLsb' 16 8 : Byte) ++ (x.extractLsb' 24 8 : Byte)
    ++ (x.extractLsb' 32 8 : Byte) ++ (x.extractLsb' 40 8 : Byte) ++ (x.extractLsb' 48 8 : Byte) ++ (x.extractLsb' 56 8 : Byte)

/-- An operation of two registers (R128): xd := f(a, b). -/
def aluDAB (f : Dword → Dword → Dword) (d a b : Reg) (s : State) : Out := .next (s.setX d (f (s.x a) (s.x b))).advance
/-- An operation of one register (R128): xd := f(a). -/
def aluDA (f : Dword → Dword) (d a : Reg) (s : State) : Out := .next (s.setX d (f (s.x a))).advance

/-- add (R128). -/
def execAdd (d a b : Reg) (s : State) : Out := aluDAB (fun x y => x + y) d a b s
/-- sub (R128). -/
def execSub (d a b : Reg) (s : State) : Out := aluDAB (fun x y => x - y) d a b s
/-- and (R128). -/
def execAnd (d a b : Reg) (s : State) : Out := aluDAB (fun x y => x &&& y) d a b s
/-- or (R128). -/
def execOr (d a b : Reg) (s : State) : Out := aluDAB (fun x y => x ||| y) d a b s
/-- xor (R128). -/
def execXor (d a b : Reg) (s : State) : Out := aluDAB (fun x y => x ^^^ y) d a b s
/-- andn (R128). -/
def execAndn (d a b : Reg) (s : State) : Out := aluDAB (fun x y => x &&& ~~~y) d a b s
/-- orn (R128). -/
def execOrn (d a b : Reg) (s : State) : Out := aluDAB (fun x y => x ||| ~~~y) d a b s
/-- sll (R128). -/
def execSll (d a b : Reg) (s : State) : Out := aluDAB (fun x y => x <<< amount y) d a b s
/-- srl (R128). -/
def execSrl (d a b : Reg) (s : State) : Out := aluDAB (fun x y => x >>> amount y) d a b s
/-- sra (R128). -/
def execSra (d a b : Reg) (s : State) : Out := aluDAB (fun x y => x.sshiftRight (amount y)) d a b s
/-- rotl (R128). -/
def execRotl (d a b : Reg) (s : State) : Out := aluDAB (fun x y => x.rotateLeft (amount y)) d a b s
/-- rotr (R128). -/
def execRotr (d a b : Reg) (s : State) : Out := aluDAB (fun x y => x.rotateRight (amount y)) d a b s
/-- slt (R128). -/
def execSlt (d a b : Reg) (s : State) : Out := aluDAB (fun x y => ofBit 64 (x.slt y)) d a b s
/-- sltn (R128). -/
def execSltn (d a b : Reg) (s : State) : Out := aluDAB (fun x y => ofBit 64 (x.ult y)) d a b s
/-- min (R128). -/
def execMin (d a b : Reg) (s : State) : Out := aluDAB (fun x y => if x.slt y then x else y) d a b s
/-- max (R128). -/
def execMax (d a b : Reg) (s : State) : Out := aluDAB (fun x y => if x.slt y then y else x) d a b s
/-- minn (R128). -/
def execMinn (d a b : Reg) (s : State) : Out := aluDAB (fun x y => if x.ult y then x else y) d a b s
/-- maxn (R128). -/
def execMaxn (d a b : Reg) (s : State) : Out := aluDAB (fun x y => if x.ult y then y else x) d a b s
/-- mul (R128). -/
def execMul (d a b : Reg) (s : State) : Out := aluDAB (fun x y => x * y) d a b s
/-- mulh (R128). -/
def execMulh (d a b : Reg) (s : State) : Out := aluDAB (fun x y => mulHigh x.toInt y.toInt) d a b s
/-- mulhn (R128). -/
def execMulhn (d a b : Reg) (s : State) : Out := aluDAB (fun x y => mulHigh x.toNat y.toNat) d a b s
/-- div (R129). -/
def execDiv (d a b : Reg) (s : State) : Out := aluDAB (fun x y => divS x y) d a b s
/-- divn (R129). -/
def execDivn (d a b : Reg) (s : State) : Out := aluDAB (fun x y => divU x y) d a b s
/-- rem (R129). -/
def execRem (d a b : Reg) (s : State) : Out := aluDAB (fun x y => remS x y) d a b s
/-- remn (R129). -/
def execRemn (d a b : Reg) (s : State) : Out := aluDAB (fun x y => remU x y) d a b s
/-- clz (R128). -/
def execClz (d a : Reg) (s : State) : Out := aluDA (fun x => clz64 x) d a s
/-- ctz (R128). -/
def execCtz (d a : Reg) (s : State) : Out := aluDA (fun x => ctz64 x) d a s
/-- popc (R128). -/
def execPopc (d a : Reg) (s : State) : Out := aluDA (fun x => popc64 x) d a s
/-- bswap (R128). -/
def execBswap (d a : Reg) (s : State) : Out := aluDA (fun x => bswap64 x) d a s
/-- addi (R130): a plus the sign-extended immediate. -/
def execAddi (d a : Reg) (imm : BitVec 16) (s : State) : Out := aluDA (fun x => x + imm.signExtend 64) d a s
/-- andi (R130): a AND the zero-extended immediate. -/
def execAndi (d a : Reg) (imm : BitVec 16) (s : State) : Out := aluDA (fun x => x &&& imm.zeroExtend 64) d a s
/-- ori (R130): a OR the zero-extended immediate. -/
def execOri (d a : Reg) (imm : BitVec 16) (s : State) : Out := aluDA (fun x => x ||| imm.zeroExtend 64) d a s
/-- xori (R130): a XOR the zero-extended immediate. -/
def execXori (d a : Reg) (imm : BitVec 16) (s : State) : Out := aluDA (fun x => x ^^^ imm.zeroExtend 64) d a s
/-- slti (R130): a below the immediate as signed. -/
def execSlti (d a : Reg) (imm : BitVec 16) (s : State) : Out := aluDA (fun x => ofBit 64 (x.slt (imm.signExtend 64))) d a s
/-- sltni (R130): a below the sign-extended immediate as unsigned. -/
def execSltni (d a : Reg) (imm : BitVec 16) (s : State) : Out := aluDA (fun x => ofBit 64 (x.ult (imm.signExtend 64))) d a s
/-- sll.i (R130): the shift by the immediate amount. -/
def execSllI (d a : Reg) (amount : BitVec 6) (s : State) : Out := aluDA (fun x => x <<< amount.toNat) d a s
/-- srl.i (R130): the shift by the immediate amount. -/
def execSrlI (d a : Reg) (amount : BitVec 6) (s : State) : Out := aluDA (fun x => x >>> amount.toNat) d a s
/-- sra.i (R130): the shift by the immediate amount. -/
def execSraI (d a : Reg) (amount : BitVec 6) (s : State) : Out := aluDA (fun x => x.sshiftRight amount.toNat) d a s
/-- rotr.i (R130): the shift by the immediate amount. -/
def execRotrI (d a : Reg) (amount : BitVec 6) (s : State) : Out := aluDA (fun x => x.rotateRight amount.toNat) d a s
/-- sext(imm21) × 4,096 (R131). -/
def upper (imm : BitVec 21) : Dword := (imm ++ (0 : BitVec 12)).signExtend 64
/-- lui (R131). -/
def execLui (d : Reg) (imm : BitVec 21) (s : State) : Out := .next (s.setX d (upper imm)).advance
/-- auipc (R131): PC is the address of the auipc itself. -/
def execAuipc (d : Reg) (imm : BitVec 21) (s : State) : Out := .next (s.setX d (s.pc + upper imm)).advance

end Sys2Proof.Machine
end

