-- ==== Sys2Proof/Machine/Branch.lean ====
section
/-! DEFINITION. Branches and jumps (R136, R137), special-register access (R142) and temporal loops (R144). -/

namespace Sys2Proof.Machine
open Sys2Proof

/-- PC + 4 × sext(off13) (R107, R136). -/
def relTarget (s : State) (off : BitVec 13) : Dword := s.pc + off.signExtend 64 * 4
/-- A branch (R136): taken when the condition holds of a and b. -/
def branch (c : Bool) (off : BitVec 13) (w : Word) (s : State) : Out :=
  .next (if c then jumpTo s (relTarget s off) w else s.advance)

/-- beq (R136). -/
def execBeq (a b : Reg) (off : BitVec 13) (s : State) : Out := branch (s.x a == s.x b) off (wBeq a b off) s
/-- bne (R136). -/
def execBne (a b : Reg) (off : BitVec 13) (s : State) : Out := branch (s.x a != s.x b) off (wBne a b off) s
/-- blt (R136). -/
def execBlt (a b : Reg) (off : BitVec 13) (s : State) : Out := branch ((s.x a).slt (s.x b)) off (wBlt a b off) s
/-- bge (R136). -/
def execBge (a b : Reg) (off : BitVec 13) (s : State) : Out := branch (!(s.x a).slt (s.x b)) off (wBge a b off) s
/-- bltn (R136). -/
def execBltn (a b : Reg) (off : BitVec 13) (s : State) : Out := branch ((s.x a).ult (s.x b)) off (wBltn a b off) s
/-- bgen (R136). -/
def execBgen (a b : Reg) (off : BitVec 13) (s : State) : Out := branch (!(s.x a).ult (s.x b)) off (wBgen a b off) s

/-- A jump ends the strand (R501): at user level, with target 0. -/
def endsStrand (s : State) (target : Dword) : Bool := !s.isCell && s.me.level == .user && target == 0
/-- A jump that links (R137): PC + 4 into xd, then the target. A jump that ends the strand, or traps, links nothing. -/
def linkTo (s : State) (d : Reg) (target : Dword) (w : Word) : State :=
  if endsStrand s target then jumpTo s target w else jumpTo (s.setX d (s.pc + 4)) target w
/-- jl (R137). -/
def execJl (off : BitVec 26) (s : State) : Out := .next (linkTo s 1 (s.pc + off.signExtend 64 * 4) (wJl off))
/-- jlr (R137, R99): MISALIGNED with the target in EADDR when its bits [1:0] are not zero. -/
def execJlr (d a : Reg) (imm : BitVec 16) (s : State) : Out :=
  let target := s.x a + imm.signExtend 64
  if target.extractLsb' 0 2 ≠ (0 : BitVec 2) then .next (raise s ⟨.misaligned, target, 0⟩)
  else .next (linkTo s d target (wJlr d a imm))

/-- An invocation of the acting strand runs, which can still change FFLAGS, VSTAT, FXSTAT and FXIDX0 to FXIDX3: a read of one of
them waits for it (R143). -/
def readWaits (s : State) (spr : BitVec 12) : Bool :=
  (spr == 0x004 || spr == 0x007 || spr == 0x00D || (spr.extractLsb' 2 10 : BitVec 10) == 0x004) && (sfind s.invs s.key).any (·.running)
/-- mfs (R142). -/
def execMfs (d : Reg) (spr : BitVec 12) (s : State) : Out :=
  checked (sprCheck s s.key spr (wMfs d spr))
    (if readWaits s spr then s.block else (s.setX d ((sprRead s s.key spr).getD 0)).advance) s
/-- A write of a special register by an instruction completes (R142); one of a ring's descriptor waits while an instruction of
another strand of the shard that names the ring is in flight (R191). -/
def sprPut (spr : BitVec 12) (v : Dword) (s : State) : State :=
  if ringNumber spr && s.ringInFlight s.key (BitVec.ofNat 3 ((spr.toNat - 0x040) / 4)) then s.block
  else (sprInstrWrite s s.key spr v).advance
/-- mts (R142). -/
def execMts (spr : BitVec 12) (a : Reg) (s : State) : Out :=
  checked (sprCheck s s.key spr (wMts spr a)) (sprPut spr (s.x a) s) s
/-- sset (R142). -/
def execSset (spr : BitVec 12) (a : Reg) (s : State) : Out :=
  checked (sprCheck s s.key spr (wSset spr a))
    (sprPut spr ((sprRead s s.key spr).getD 0 ||| s.x a) s) s
/-- sclr (R142). -/
def execSclr (spr : BitVec 12) (a : Reg) (s : State) : Out :=
  checked (sprCheck s s.key spr (wSclr spr a))
    (sprPut spr ((sprRead s s.key spr).getD 0 &&& ~~~(s.x a)) s) s

/-- tloop (R144): progress in either case (R419). One that traps for its target (R501) has not begun (R152). -/
def execTloop (n : BitVec 2) (b : Reg) (off : BitVec 13) (s : State) : Out :=
  let next := (s.me.tlc[n.toNat]'n.isLt) + 1
  let setTlc (v : Dword) (s : State) : State := s.updMe (fun t => { t with tlc := t.tlc.set n.toNat v n.isLt })
  if next.ult (s.x b) then
    .next (if endsStrand s (relTarget s off) && s.holdsTask then raise s (illegal (wTloop n b off))
      else jumpTo (setTlc next (noteProgress s s.key)) (relTarget s off) (wTloop n b off))
  else .next (setTlc 0 (noteProgress s s.key)).advance

end Sys2Proof.Machine
end

