-- ==== Sys2Proof/Machine/Chain.lean ====
section
/-! DEFINITION. Chain records (R190): what a pre-empted strand leaves of the instruction that it was carrying out, and how the
strand runs it again. -/

namespace Sys2Proof.Machine
open Sys2Proof

/-- The first entry of a strand's chain record that is in use. -/
def Strand.chainEntry (t : Strand) : Option Nat := (List.range 4).find? (fun i => (t.e.chainPc.getD i 0).getLsbD 0)
/-- The VL and the VTYPE of an entry, stored as R181 and R182 say. -/
def Strand.chainVtype (t : Strand) (i : Nat) : BitVec 8 := vtypeStored ((t.e.chainSt.getD i 0).extractLsb' 32 8)
def Strand.chainVl (t : Strand) (i : Nat) : BitVec 13 :=
  vlStored (t.chainVtype i) ((t.e.chainSt.getD i 0).extractLsb' 16 13 : BitVec 13).toNat
/-- The recorded instruction that comes next runs from its start element under its recorded VL and VTYPE; after the last one
the strand goes on where the record says. -/
def Strand.nextRecorded (t : Strand) : Strand :=
  match t.chain, t.chainEntry with
  | some _, some i =>
    { t with pc := t.e.chainPc.getD i 0 &&& ~~~3, vtype := t.chainVtype i, vl := t.chainVl i
             vstart := BitVec.ofNat 13 (min 4096 ((t.e.chainSt.getD i 0).extractLsb' 0 13 : BitVec 13).toNat) }
  | some c, none => { t with pc := c.pc, vl := c.vl, vtype := c.vtype, vstart := c.vstart, chain := none }
  | none, _ => t
/-- A strand continues under R190: the entries of its record first, then at its PC. -/
def Strand.replayChain (t : Strand) : Strand :=
  if t.chainEntry.isSome then ({ t with chain := some ⟨t.pc, t.vl, t.vtype, t.vstart⟩ } : Strand).nextRecorded else t
/-- An entry that ran is no longer in use, and the next one comes. A VL that the recorded instruction wrote is the strand's VL
after the record (R189, R231). -/
def Strand.chainDone (t : Strand) : Strand :=
  match t.chain, t.chainEntry with
  | some c, some i =>
    let c := if t.vl = t.chainVl i then c else { c with vl := vlStored c.vtype t.vl.toNat }
    ({ t with chain := some c, e := { t.e with chainPc := t.e.chainPc.setIfInBounds i (t.e.chainPc.getD i 0 &&& ~~~1) } } : Strand).nextRecorded
  | _, _ => t
/-- A strand that is no longer at its recorded instruction, because the executive has sent it elsewhere, leaves the record. -/
def Strand.leaveRecord (t : Strand) : Strand :=
  match t.chain, t.chainEntry with
  | some _, some i =>
    if t.level = .user ∧ t.pc ≠ t.e.chainPc.getD i 0 &&& ~~~3 then { t with chain := none, e := { t.e with chainPc := t.e.chainPc.map (· &&& ~~~1) } }
    else t
  | _, _ => t
/-- An entry of a chain record: the instruction's start element and the VL and VTYPE under which it issued. -/
def chainWord (start vl : BitVec 13) (vt : BitVec 8) : Dword := (0 : BitVec 24) ++ vt ++ (0 : BitVec 3) ++ vl ++ (0 : BitVec 3) ++ start
/-- The chain record of a strand that is stopped (R190): what is left of a record that was being replayed; or the instruction
that has issued and is not finished (R208, R261, R277, R351), and EPC the address after it; or none, and EPC where the strand
goes on (R148). -/
def Strand.recordChain (t : Strand) : Strand :=
  match t.chain, t.chainEntry with
  | some c, some i =>
    let st := (t.e.chainSt.getD i 0 &&& ~~~0x1FFF) ||| (t.vstart.zeroExtend 64)
    { t with vl := c.vl, vtype := c.vtype, vstart := c.vstart, chain := none
             e := { t.e with epc := c.pc, chainSt := t.e.chainSt.setIfInBounds i st } }
  | _, _ =>
    let none4 : Vector Dword 4 := Vector.replicate 4 0
    if t.wait.issued then
      { t with vstart := 0, chain := none
               e := { t.e with epc := t.pc + 4, chainPc := none4.set 0 (t.pc ||| 1)
                               chainSt := none4.set 0 (chainWord t.vstart t.vl t.vtype) } }
    else { t with chain := none, e := { t.e with epc := if t.wait.past then t.pc + 4 else t.pc, chainPc := none4, chainSt := none4 } }

end Sys2Proof.Machine
end

