-- ==== Sys2Proof/Machine/LoadStore.lean ====
section
/-! DEFINITION. Scalar loads and stores (majors 0x0B and 0x0C, R132 to R135) and the scalar atomics and synchronising
accesses (major 0x0D, R293 to R295). -/

namespace Sys2Proof.Machine
open Sys2Proof

/-- ea := a + sext(off13) × n modulo 2^64 (R132). -/
def effAddr (x : Dword) (off : BitVec 13) (n : Nat) : Dword := x + off.signExtend 64 * BitVec.ofNat 64 n

/-- An access of another cell of the page of cell j, issued before it, is outstanding and has a byte in common with n bytes at ea
(R358). -/
def portHolds (s : State) (j : Nat) (ea : Dword) (n : Nat) : Bool :=
  s.cells.any (fun p => p.1 / 8 == j / 8 && p.1 != j && p.2.wait.seq != 0 && decide (p.2.wait.seq < (s.cell j).wait.seq) &&
    p.2.wait.out.any (fun a => decide (ea.toNat < a.toNat + 8) && decide (a.toNat < ea.toNat + n)))
/-- An access of a cell issues through the memory port of its page (R338, R358): it is outstanding from this step on, and waits for an
earlier access of the port to a common byte, taken as those of the eight bytes from that access's address on. -/
def cellPort (ea : Dword) (n : Nat) : M Unit := do
  let s ← get
  if s.isCell then do
    let w := s.waitOf
    modify (·.setWait { w with out := some ea, seq := if w.seq = 0 then s.tick + 1 else w.seq })
    let s ← get
    if portHolds s s.cellKey ea n then waitM else pure ()
  else pure ()

/-- A scalar load of n bytes (R132, R133): the access is made even into x0; ext extends what was read. -/
def loadInstr (n : Nat) (ext : Nat → Dword) (d a : Reg) (off : BitVec 13) : M Unit := do
  let s ← get
  cellPort (effAddr (s.x a) off n) n
  let v ← loadN s.ctx (effAddr (s.x a) off n) n 0 0
  modify (fun s => (s.setX d (ext v)).advance)

/-- A scalar store of the low n bytes of xs (R132, R133). -/
def storeInstr (n : Nat) (r a : Reg) (off : BitVec 13) : M Unit := do
  let s ← get
  cellPort (effAddr (s.x a) off n) n
  storeN s.ctx (effAddr (s.x a) off n) n ((s.x r).toNat % 2 ^ (8 * n)) 0 0
  modify (·.advance)

/-- ld8 (R132): 1 bytes, zero-extended. -/
def execLd8 (d a : Reg) (off : BitVec 13) (s : State) : Out := runInstr (loadInstr 1 (BitVec.ofNat 64) d a off) s
/-- ld8s (R132): 1 bytes, sign-extended. -/
def execLd8s (d a : Reg) (off : BitVec 13) (s : State) : Out := runInstr (loadInstr 1 (fun v => (BitVec.ofNat 8 v).signExtend 64) d a off) s
/-- ld16 (R132): 2 bytes, zero-extended. -/
def execLd16 (d a : Reg) (off : BitVec 13) (s : State) : Out := runInstr (loadInstr 2 (BitVec.ofNat 64) d a off) s
/-- ld16s (R132): 2 bytes, sign-extended. -/
def execLd16s (d a : Reg) (off : BitVec 13) (s : State) : Out := runInstr (loadInstr 2 (fun v => (BitVec.ofNat 16 v).signExtend 64) d a off) s
/-- ld32 (R132): 4 bytes, zero-extended. -/
def execLd32 (d a : Reg) (off : BitVec 13) (s : State) : Out := runInstr (loadInstr 4 (BitVec.ofNat 64) d a off) s
/-- ld32s (R132): 4 bytes, sign-extended. -/
def execLd32s (d a : Reg) (off : BitVec 13) (s : State) : Out := runInstr (loadInstr 4 (fun v => (BitVec.ofNat 32 v).signExtend 64) d a off) s
/-- ld64 (R132): 8 bytes, zero-extended. -/
def execLd64 (d a : Reg) (off : BitVec 13) (s : State) : Out := runInstr (loadInstr 8 (BitVec.ofNat 64) d a off) s
/-- st8 (R132). -/
def execSt8 (r a : Reg) (off : BitVec 13) (s : State) : Out := runInstr (storeInstr 1 r a off) s
/-- st16 (R132). -/
def execSt16 (r a : Reg) (off : BitVec 13) (s : State) : Out := runInstr (storeInstr 2 r a off) s
/-- st32 (R132). -/
def execSt32 (r a : Reg) (off : BitVec 13) (s : State) : Out := runInstr (storeInstr 4 r a off) s
/-- st64 (R132). -/
def execSt64 (r a : Reg) (off : BitVec 13) (s : State) : Out := runInstr (storeInstr 8 r a off) s

/-- A release by the acting strand can be made (R397): it waits where a registration cannot reach its home yet (R303). -/
def releaseFree (sc : Scope) : M Unit := do
  let s ← get
  if releaseWaits s s.core sc then
    match releaseTimeout s with
    | some t => throw (.trap t)
    | none => do
      modify State.blockRelease
      waitM
  else pure ()
/-- A release by the acting strand (R397). -/
def releaseM (sc : Scope) : M Unit := do
  releaseFree sc
  modify (fun s => release s s.core sc)
/-- An acquire by the acting strand (R397). -/
def acquireM (sc : Scope) : M Unit := modify (fun s => acquire s s.core sc)

/-- ldacq (R293): a load followed by an acquire at the scope. -/
def execLdacq (sc : Scope) (d a : Reg) (s : State) : Out :=
  runInstr (do
    specStall s.ctx
    let v ← loadN s.ctx (s.x a) 8 0 0
    acquireM sc
    modify (fun s => (s.setX d (BitVec.ofNat 64 v)).advance)) s
/-- strel (R293): a release at the scope followed by a store. -/
def execStrel (sc : Scope) (a b : Reg) (s : State) : Out :=
  runInstr (do
    specStall s.ctx
    let _ ← route s.ctx (s.x a) 8 .write 0 0
    releaseM sc
    storeN s.ctx (s.x a) 8 (s.x b).toNat 0 0
    modify (·.advance)) s

/-- A read-modify-write of the dword at a (R293, R294): release, indivisible update at the home, acquire; xd receives the
old value. Where f gives no value, the dword is not written. -/
def amoInstr (f : Dword → Option Dword) (sc : Scope) (d a : Reg) : M Unit := do
  let s ← get
  specStall s.ctx
  let _ ← route s.ctx (s.x a) 8 .write 0 0
  releaseM sc
  let old ← amoN s.ctx (s.x a) 8 0 0 (fun m => (f (BitVec.ofNat 64 m)).map (·.toNat))
  acquireM sc
  modify (fun s => (s.setX d (BitVec.ofNat 64 old)).advance)

/-- amoswap (R293). -/
def execAmoswap (sc : Scope) (d a b : Reg) (s : State) : Out := runInstr (amoInstr (fun _ => some (s.x b)) sc d a) s
/-- amoadd (R293). -/
def execAmoadd (sc : Scope) (d a b : Reg) (s : State) : Out := runInstr (amoInstr (fun m => let y := s.x b; some (m + y)) sc d a) s
/-- amoand (R293). -/
def execAmoand (sc : Scope) (d a b : Reg) (s : State) : Out := runInstr (amoInstr (fun m => let y := s.x b; some (m &&& y)) sc d a) s
/-- amoor (R293). -/
def execAmoor (sc : Scope) (d a b : Reg) (s : State) : Out := runInstr (amoInstr (fun m => let y := s.x b; some (m ||| y)) sc d a) s
/-- amoxor (R293). -/
def execAmoxor (sc : Scope) (d a b : Reg) (s : State) : Out := runInstr (amoInstr (fun m => let y := s.x b; some (m ^^^ y)) sc d a) s
/-- amomin (R293). -/
def execAmomin (sc : Scope) (d a b : Reg) (s : State) : Out := runInstr (amoInstr (fun m => let y := s.x b; some (if m.slt y then m else y)) sc d a) s
/-- amomax (R293). -/
def execAmomax (sc : Scope) (d a b : Reg) (s : State) : Out := runInstr (amoInstr (fun m => let y := s.x b; some (if m.slt y then y else m)) sc d a) s
/-- amominn (R293). -/
def execAmominn (sc : Scope) (d a b : Reg) (s : State) : Out := runInstr (amoInstr (fun m => let y := s.x b; some (if m.ult y then m else y)) sc d a) s
/-- amomaxn (R293). -/
def execAmomaxn (sc : Scope) (d a b : Reg) (s : State) : Out := runInstr (amoInstr (fun m => let y := s.x b; some (if m.ult y then y else m)) sc d a) s
/-- amocas (R293): the memory value becomes b when it equals xd; otherwise nothing is written. -/
def execAmocas (sc : Scope) (d a b : Reg) (s : State) : Out :=
  runInstr (amoInstr (fun m => if m = s.x d then some (s.x b) else none) sc d a) s

/-- The place of a word that carries a full-empty bit (R295): a local word, else CLASS_VIOLATION. -/
def feTarget (ea : Dword) (acc : Acc) (e lane : Nat) : M Nat := do
  let s ← get
  specStall s.ctx
  let t ← (if winCode ea = 0 ∨ winCode ea = 0xFE then do
      let t ← resolve s.ctx ea 4 acc e lane
      forbidClass (fun _ => true) t ea e
      pure t
    else resolve s.ctx ea 4 acc e lane)
  match t with
  | .loc f => pure f
  | _ => trapM .classViolation ea e

/-- The strands that wait on a word for it to be full, or to be empty, in the order of their arrival (R295); one that has gone
elsewhere, or whose core is halted, waits no longer. -/
def wordWaiters (s : State) (q : Nat) (full : Bool) : List Nat :=
  (s.wordLine.filter (fun x => x.word == q && x.full == full && (s.strand x.strand).wait.word == some q &&
    !(s.coreRegs (coreOf x.strand)).halted)).map (·.strand)
/-- ldc or stf is to be served on a word (R295): the word is in the state it waits for, and no other came before it. -/
def wordServes (s : State) (q : Nat) (full : Bool) : Bool :=
  s.full.contains q == full && (wordWaiters s q full).head?.all (· == s.key)
/-- The acting strand stands in line on a word. -/
def standOn (q : Nat) (full : Bool) (s : State) : State :=
  let line := if (wordWaiters s q full).contains s.key then s.wordLine
              else s.wordLine.filter (·.strand != s.key) ++ [⟨s.key, q, full⟩]
  { s with wordLine := line }.setWait { s.waitOf with word := some q }
/-- The acting strand leaves the lines of words. -/
def leaveWord (s : State) : State := { s with wordLine := s.wordLine.filter (·.strand != s.key) }
/-- ldf and ldc (R293, R295): wait until the word is full, read it, empty it for ldc, and acquire. -/
def ldfInstr (empty : Bool) (sc : Scope) (d a : Reg) : M Unit := do
  let s ← get
  let f ← feTarget (s.x a) .read 0 0
  let s ← get
  if empty && !wordServes s (f / 4) true then do
    modify (standOn (f / 4) true)
    waitM
  else if !s.full.contains (f / 4) then waitM
  else do
    let v ← localRead s.ctx f 4 (s.x a) 0
    if empty then modify (fun s => leaveWord { s with full := nsErase s.full (f / 4) }) else pure ()
    acquireM sc
    modify (fun s => (s.setX d (BitVec.ofNat 64 v)).advance)
/-- ldf (R293). -/
def execLdf (sc : Scope) (d a : Reg) (s : State) : Out := runInstr (ldfInstr false sc d a) s
/-- ldc (R293). -/
def execLdc (sc : Scope) (d a : Reg) (s : State) : Out := runInstr (ldfInstr true sc d a) s
/-- stf (R293, R295): wait until the word is empty, release, write it and set it full. -/
def execStf (sc : Scope) (a b : Reg) (s : State) : Out :=
  runInstr (do
    let f ← feTarget (s.x a) .write 0 0
    let s ← get
    if !wordServes s (f / 4) false then do
      modify (standOn (f / 4) false)
      waitM
    else do
      releaseM sc
      localWrite s.ctx f 4 ((s.x b).toNat % 2 ^ 32) (s.x a) 0
      modify (fun s => (leaveWord { s with full := nsInsert s.full (f / 4) }).advance)) s

end Sys2Proof.Machine
end

