-- ==== Sys2Proof/Machine/FxLoad.lean ====
section
/-! DEFINITION. The loader of fxbind: it reads a configuration image under the strand's own translation, checks it and
expands its call sites (R41 to R46, R113, R153, R320, R322, R328, R329, R336, R342, R359, R366). Entries of cells are
numbered 128 × page + 16 × cell + channel, pages by their index in the expanded image. -/

namespace Sys2Proof.Machine
open Sys2Proof

/-! ## Reading and refusing -/

/-- The image is refused at the item at an address (R342 step 4). -/
def refuse {α : Type} (a : Nat) : M α := do
  let s ← get
  trapM .fabricImage (BitVec.ofNat 64 a) s.me.fxidx[2].toNat
/-- Refuse the image unless a check holds. -/
def accept (b : Bool) (a : Nat) : M Unit := if b then pure () else refuse a
/-- Read n bytes of an image. A field that an unaligned CELLOFF or ROUTEOFF, for which R43 states no alignment, leaves misaligned takes
MISALIGNED of the load, not FABRIC_IMAGE (DESIGN CHOICE, assumption 73). -/
def imgRead (a n : Nat) : M Nat := do
  let s ← get
  loadN s.ctx (BitVec.ofNat 64 a) n 0 0

/-- A page record with its address (R42). -/
structure PageRec where
  addr : Nat
  num : Nat
  loads : Bool
  stores : Bool
  cells : Nat
  deriving DecidableEq, Repr
/-- A call-site entry with its address (R45): the callee's header, the calling cell and its channel. -/
structure CallRec where
  addr : Nat
  callee : Nat
  page : Nat
  cell : Nat
  chan : Nat
  deriving DecidableEq, Repr
/-- The configuration header as it is used (R41). -/
structure FxHead where
  base : Nat
  cols : Nat
  rows : Nat
  useA : Bool
  useB : Bool
  useOut : Bool
  inA : Nat
  inB : Nat
  out : Nat
  npages : Nat
  pageOff : Nat
  callOff : Nat
  ncall : Nat
  nloop : Nat
  loopOff : Nat
  deriving DecidableEq, Repr

/-- The header at an address (R41, R342). -/
def readHead (a : Nat) : M FxHead := do
  accept (a < 2 ^ 56 && a % 64 == 0) a
  let magic ← imgRead a 4
  let version ← imgRead (a + 4) 2
  let npages ← imgRead (a + 6) 1
  let shape ← imgRead (a + 7) 1
  let pageOff ← imgRead (a + 8) 4
  let callOff ← imgRead (a + 12) 4
  let ncall ← imgRead (a + 16) 2
  let nloop ← imgRead (a + 18) 1
  let ports ← imgRead (a + 19) 1
  let loopOff ← imgRead (a + 20) 4
  let inA ← imgRead (a + 0x18) 2
  let inB ← imgRead (a + 0x1A) 2
  let out ← imgRead (a + 0x1C) 2
  let cols := shape % 2 + 1
  let rows := shape / 2 % 4 + 1
  accept (magic == 0x46584349 && version == 1 && decide (1 ≤ npages) && decide (npages ≤ cols * rows) && pageOff % 16 == 0 &&
    callOff % 8 == 0 && decide (ncall ≤ 64) && decide (nloop ≤ 8) && loopOff % 8 == 0) a
  pure { base := a, cols := cols, rows := rows, useA := ports.testBit 0, useB := ports.testBit 1, useOut := ports.testBit 2
         inA := inA, inB := inB, out := out, npages := npages, pageOff := pageOff, callOff := callOff, ncall := ncall
         nloop := nloop, loopOff := loopOff }

/-- Page record i (R42). -/
def readPage (h : FxHead) (i : Nat) : M PageRec := do
  let a := h.base + h.pageOff + 16 * i
  let col ← imgRead a 1
  let row ← imgRead (a + 1) 1
  let port ← imgRead (a + 2) 1
  let cells ← imgRead (a + 4) 4
  accept (decide (col < h.cols) && decide (row < h.rows)) a
  pure { addr := a, num := col + 2 * row, loads := port.testBit 0, stores := port.testBit 1, cells := h.base + cells }
/-- Page records in ascending page number; the second of two at one position is refused (R42). -/
def sortPages : List PageRec → List PageRec → M (List PageRec)
  | [], acc => pure acc
  | p :: t, acc => do
    accept (!acc.any (fun q => q.num == p.num)) p.addr
    sortPages t (acc.filter (fun q => decide (q.num < p.num)) ++ [p] ++ acc.filter (fun q => decide (p.num < q.num)))

/-- The index of a page number among the pages of an image. -/
def pageIndex (ps : List PageRec) (num : Nat) : Option Nat := ps.findIdx? (fun p => p.num == num)
/-- A cell field of a header, loop or call site (R41): page number in bits [10:8], cell in bits [2:0]; it must name a
page of the image (R42). -/
def cellField (ps : List PageRec) (v a : Nat) : M (Nat × Nat) :=
  match pageIndex ps (v / 256 % 8) with
  | some i => pure (i, v % 8)
  | none => refuse a

/-- Call-site entry i (R45). -/
def readCall (h : FxHead) (ps : List PageRec) (i : Nat) : M CallRec := do
  let a := h.base + h.callOff + 8 * i
  let callee ← imgRead a 4
  let site ← imgRead (a + 4) 2
  let chan ← imgRead (a + 6) 1
  let (p, c) ← cellField ps site a
  accept (decide (chan < 15)) a
  pure { addr := a, callee := h.base + callee, page := p, cell := c, chan := chan }

/-! ## Cells and routes -/

/-- A local entry is one that R328 admits in this cell. -/
def localOk (h : FxHead) (num cell : Nat) (r : Route) : Bool :=
  let here (v : Nat) : Bool := v / 256 % 8 == num && v % 8 == cell
  match r.lch, r.out with
  | 0, false => h.useA && here h.inA
  | 1, true => h.useOut && here h.out
  | 2, false => h.useB && here h.inB
  | 3, false => true
  | _, _ => false

/-- Route entries from entry c on, at address a (R44, R328): exempt says which channels a call site names (R336). -/
def readRoutes (h : FxHead) (num cell a : Nat) (exempt : Nat → Bool) : Nat → List (Option Route) → M (List (Option Route))
  | 0, acc => pure acc
  | n + 1, acc => do
    let c := acc.length
    let w ← imgRead (a + 4 * c) 4
    if !w.testBit 31 then readRoutes h num cell a exempt n (acc ++ [none])
    else do
      let r : Route := { port := w / 2 ^ 28 % 8, lch := w / 2 ^ 26 % 4, fmt := w / 2 ^ 22 % 16, rm := w / 2 ^ 19 % 8, out := w.testBit 18 }
      accept (decide (r.port ≤ 4) && decide (r.fmt ≤ 7) && decide (r.rm ≤ 5) &&
        !acc.any (fun o => o.any (fun q => q.port == r.port && q.lch == r.lch && q.out == r.out)) &&
        (r.port != 4 || exempt c || localOk h num cell r)) (a + 4 * c)
      readRoutes h num cell a exempt n (acc ++ [some r])

/-- Cell record k of a page (R43) with the address of its route entries. -/
def readCell (h : FxHead) (calls : List CallRec) (i : Nat) (p : PageRec) (k : Nat) : M (FxCell × Nat) := do
  let a := p.cells + 16 * k
  let blk ← imgRead a 4
  let cnt ← imgRead (a + 4) 2
  let blk0 ← imgRead (a + 6) 2
  let rt ← imgRead (a + 8) 4
  accept (blk % 64 == 0 && decide (1 ≤ cnt) && decide (cnt ≤ 256) && decide (blk0 < cnt)) a
  let exempt (c : Nat) : Bool := calls.any (fun q => q.page == i && q.cell == k && (q.chan == c || q.chan + 1 == c))
  let rs ← readRoutes h p.num k (h.base + rt) exempt 16 []
  pure ({ blk := BitVec.ofNat 64 (h.base + blk), cnt := cnt, blk0 := blk0, routes := rs }, h.base + rt)

/-- The neighbour of a cell at a port within the shape (R320): page number and cell. -/
def neighbour (cols rows num cell port : Nat) : Option (Nat × Nat) :=
  let x := 2 * (num % 2) + cell % 2
  let y := 4 * (num / 2) + cell / 2
  let at_ (x y : Nat) : Option (Nat × Nat) :=
    if x < 2 * cols ∧ y < 4 * rows then some (x / 2 + 2 * (y / 4), x % 2 + 2 * (y % 4)) else none
  match port with
  | 0 => if y = 0 then none else at_ x (y - 1)
  | 1 => at_ (x + 1) y
  | 2 => at_ x (y + 1)
  | _ => if x = 0 then none else at_ (x - 1) y
/-- The port on the other side of a link (R320). -/
def opposite (port : Nat) : Nat := (port + 2) % 4

/-- A cell of an image by page index and cell. -/
def cellAt (cells : List (List (FxCell × Nat))) (i k : Nat) : Option (FxCell × Nat) := (cells.getD i [])[k]?
/-- The partner of a link entry (R329): the page index, cell and channel of the entry on the other side. -/
def partner (h : FxHead) (ps : List PageRec) (cells : List (List (FxCell × Nat))) (num k : Nat) (r : Route) : Option (Nat × Nat × Nat) :=
  match neighbour h.cols h.rows num k r.port with
  | some (n2, k2) =>
    match pageIndex ps n2 with
    | some j =>
      match cellAt cells j k2 with
      | some (c, _) =>
        (c.routes.findIdx? (fun o => o.any (fun q => q.port == opposite r.port && q.lch == r.lch && q.out != r.out))).map
          (fun e => (j, k2, e))
      | none => none
    | none => none
  | none => none
/-- The number of an entry. -/
def entryNo (page cell chan : Nat) : Nat := 128 * page + 16 * cell + chan

/-- The checks of R329 on the entries of a cell from channel c on, and the channels that leave it. -/
def linkCell (h : FxHead) (ps : List PageRec) (cells : List (List (FxCell × Nat))) (first i num k rt : Nat) :
    Nat → List (Option Route) → List (Nat × Nat) → M (List (Nat × Nat))
  | _, [], acc => pure acc
  | c, none :: t, acc => linkCell h ps cells first i num k rt (c + 1) t acc
  | c, some r :: t, acc =>
    if r.port = 4 then linkCell h ps cells first i num k rt (c + 1) t acc
    else
      match partner h ps cells num k r with
      | none => refuse (rt + 4 * c)
      | some (j, k2, c2) =>
        linkCell h ps cells first i num k rt (c + 1) t
          (if r.out then acc ++ [(entryNo (first + i) k c, entryNo (first + j) k2 c2)] else acc)

/-! ## Block words -/

/-- The entry of a channel is used and has a direction (R359). -/
def chanOk (c : FxCell) (n : Nat) (out : Bool) : Bool := ((c.routes.getD n none).any (fun r => r.out == out))
/-- What a word of a cell is to the loader and to the network (R113, R359): a LINK instruction with its channel fields, or an
instruction that touches no channel. -/
inductive CellOp where
  | plain
  | recv (a : Nat)
  | lpeek (a : Nat)
  | tokw (a : Nat)
  | toks (d : Nat)
  | send (d : Nat)
  | steer (d : Nat)
  | merge (a b : Nat)
  | prime (d : Nat)
  deriving DecidableEq, Repr
/-- The operand rules of the LINK instructions (R359), on the instruction's channel fields. -/
def linkOk (c : FxCell) (i : CellOp) : Bool :=
  match i with
  | .recv a => chanOk c a false
  | .send d => chanOk c d true
  | .steer d => decide (d ≠ 15) && chanOk c d true && chanOk c (d + 1) true
  | .merge a b => decide (a ≠ b) && chanOk c a false && chanOk c b false
  | .prime d => chanOk c d false
  | .tokw a => chanOk c a false
  | .toks d => chanOk c d true
  | .lpeek a => chanOk c a false
  | .plain => true
/-- The LINK instruction of a word of major 0x2E (R108, R109, R111). -/
def linkOp (w : Word) : Option CellOp :=
  let d := (fd w).toNat
  let a := (fa w).toNat
  let b := (fb w).toNat
  match w.toNat % 2048 with
  | 0 => if b = 0 then some (.recv a) else none
  | 1 => if b ≤ 1 then some (.send d) else none
  | 2 => some (.steer d)
  | 3 => some (.merge a b)
  | 4 => if b = 0 then some (.prime d) else none
  | 5 => if d = 0 ∧ b = 0 then some (.tokw a) else none
  | 6 => if a = 0 ∧ b = 0 then some (.toks d) else none
  | 7 => if b = 0 then some (.lpeek a) else none
  | _ => none
/-- The register fields of a word of a cell name registers up to 15 (R113): d, a and b in majors with three register
fields, d alone in major 0x09, d and a in the others. -/
def cellRegs (w : Word) : Bool :=
  let m := w.toNat / 2 ^ 26
  let f (lo : Nat) : Bool := decide (w.toNat / 2 ^ lo % 32 < 16)
  f 21 && (m == 9 || f 16) && (!(m == 1 || m == 0x11 || m == 0x2E) || f 11)
/-- The word's instruction, as far as majors that a cell executes go (R113). -/
def majorOp (w : Word) : Option CellOp :=
  let plain (e : Except DecodeError Instr) : Option CellOp := if e.isOk then some .plain else none
  match w.toNat / 2 ^ 26 with
  | 0x01 => plain (decodeAlu w)
  | 0x02 => plain (decodeImm02 w)
  | 0x03 => plain (decodeImm03 w)
  | 0x04 => plain (decodeImm04 w)
  | 0x05 => plain (decodeImm05 w)
  | 0x06 => plain (decodeImm06 w)
  | 0x07 => plain (decodeImm07 w)
  | 0x08 => plain (decodeShi w)
  | 0x09 => plain (decodeUi09 w)
  | 0x0B => plain (decodeLd w)
  | 0x0C => plain (decodeSt w)
  | 0x0E => plain (decodeBr w)
  | 0x11 => plain (decodeFps w)
  | 0x2E => linkOp w
  | _ => none
/-- The word is an instruction that a cell may execute, and which (R113, R324). -/
def cellOp (w : Word) : Option CellOp := if cellRegs w then majorOp w else none
/-- The checks of the loader on word number n (counted over the blocks) of a cell (R113, R153, R322, R359). -/
def wordOk (p : PageRec) (c : FxCell) (n : Nat) (w : Word) : Bool :=
  match cellOp w with
  | none => false
  | some i =>
    let m := w.toNat / 2 ^ 26
    let target : Int := n + (w.extractLsb' 0 13 : BitVec 13).toInt
    (m != 0x0B || p.loads) && (m != 0x0C || p.stores) &&
    (m != 0x0E || (decide (0 ≤ target) && decide (target < 16 * c.cnt))) && linkOk c i
/-- Check the words of a cell from word n on; the answer lists the channels N of its steers. -/
def checkCode (p : PageRec) (c : FxCell) : Nat → Nat → List Nat → M (List Nat)
  | 0, _, acc => pure acc
  | left + 1, n, acc => do
    let a := c.blk.toNat + 4 * n
    let v ← imgRead a 4
    let w : Word := BitVec.ofNat 32 v
    accept (wordOk p c n w) a
    checkCode p c left (n + 1)
      (match cellOp w with
       | some (.steer d) => acc ++ [d]
       | _ => acc)

/-! ## Loops (R366) -/

/-- Cells reached from a set of cells over channels, in at most n rounds; cells are numbered 8 × page + cell. -/
def reachFrom (succ : List (Nat × Nat)) : Nat → NatSet → NatSet
  | 0, seen => seen
  | n + 1, seen =>
    reachFrom succ n (succ.foldl (fun l e => if seen.contains e.1 then nsInsert l e.2 else l) seen)
/-- The channels over which a flit can return from an entry to itself (R366). -/
def loopCycle (chans : List (Nat × Nat)) (entry : Nat) : List (Nat × Nat) :=
  match chans.find? (fun c => c.2 == entry) with
  | none => []
  | some src =>
    let fwd := reachFrom (chans.map (fun c => (c.1 / 16, c.2 / 16))) 64 [entry / 16]
    let bwd := reachFrom (chans.map (fun c => (c.2 / 16, c.1 / 16))) 64 [src.1 / 16]
    chans.filter (fun c => fwd.contains (c.1 / 16) && bwd.contains (c.2 / 16))
/-- The arms that leave a cycle (R366): those outside it of every steer of a cell on the way. -/
def cycleExits (cyc : List (Nat × Nat)) (steers : List Nat) : List Nat :=
  let held := steers.filter (fun n => cyc.any (fun q => q.1 / 16 == n / 16))
  (held.flatMap (fun n => [n, n + 1])).filter (fun n => !cyc.any (fun q => q.1 == n))
/-- Loop declaration i (R46, R366). steers lists the entries N of the image's steers. -/
def readLoop (h : FxHead) (ps : List PageRec) (first : Nat) (chans : List (Nat × Nat)) (steers : List Nat) (i : Nat) : M FxLoop := do
  let a := h.base + h.loopOff + 8 * i
  let ent ← imgRead a 2
  let chan ← imgRead (a + 2) 1
  let limit ← imgRead (a + 3) 1
  let (p, c) ← cellField ps ent a
  let e := entryNo (first + p) c chan
  let cyc := if chan < 16 then loopCycle chans e else []
  let inside (n : Nat) : Bool := cyc.any (fun q => q.1 == n)
  accept (decide (1 ≤ limit) && decide (limit + 1 ≤ 2 * cyc.length) && steers.any (fun n => inside n != inside (n + 1))) a
  pure { entry := e, limit := limit, exits := cycleExits cyc steers }

/-! ## The whole image -/

/-- What the expansion has gathered so far. -/
structure Build where
  shapes : List (Nat × Nat) := []
  pages : List FxPage := []
  chans : List (Nat × Nat) := []
  loops : List FxLoop := []
  deriving DecidableEq, Repr

/-- The entry of a cell that a local channel of a callee uses: input A, or the output (R336). -/
def localEntry (cells : List (List (FxCell × Nat))) (first i k lch : Nat) (out : Bool) : Option Nat :=
  match cellAt cells i k with
  | some (c, _) =>
    (c.routes.findIdx? (fun o => o.any (fun r => r.port == 4 && r.lch == lch && r.out == out))).map (fun e => entryNo (first + i) k e)
  | none => none

/-- Check the links of every cell of an image and gather its channels. -/
def linkAll (h : FxHead) (ps : List PageRec) (cells : List (List (FxCell × Nat))) (first : Nat) : List (Nat × Nat) → List (Nat × Nat) →
    M (List (Nat × Nat))
  | [], acc => pure acc
  | (i, k) :: t, acc =>
    match cellAt cells i k with
    | some (c, rt) => do
      let more ← linkCell h ps cells first i ((ps[i]?).elim 0 (·.num)) k rt 0 c.routes []
      linkAll h ps cells first t (acc ++ more)
    | none => linkAll h ps cells first t acc
/-- Check the code of every cell of an image; the answer lists the entries N of its steers. -/
def codeAll (ps : List PageRec) (cells : List (List (FxCell × Nat))) (first : Nat) : List (Nat × Nat) → List Nat → M (List Nat)
  | [], acc => pure acc
  | (i, k) :: t, acc =>
    match ps[i]?, cellAt cells i k with
    | some p, some (c, _) => do
      let st ← checkCode p c (16 * c.cnt) 0 []
      codeAll ps cells first t (acc ++ st.map (entryNo (first + i) k))
    | _, _ => codeAll ps cells first t acc
/-- Every cell of n pages, by page index and cell. -/
def allCells (n : Nat) : List (Nat × Nat) := (List.range (8 * n)).map (fun j => (j / 8, j % 8))

/-- What loading an image answers: the expansion, its header, the index of its first page, its page records and cells. -/
abbrev Loaded := Build × FxHead × Nat × List PageRec × List (List (FxCell × Nat))

/-- Load the image at an address on its own, named by the call-site entry at site: everything but its call sites. -/
def loadOne (a site : Nat) (b : Build) : M (Loaded × List CallRec) := do
  let h ← readHead a
  let first := b.pages.length
  accept (decide (first + h.npages ≤ 8)) site
  let recs ← collectM (List.range h.npages) (readPage h)
  let ps ← sortPages recs []
  let _ ← cellField ps h.inA a
  let _ ← cellField ps h.inB a
  let _ ← cellField ps h.out a
  let calls ← collectM (List.range h.ncall) (readCall h ps)
  let cells ← collectM (List.range ps.length) (fun i =>
    collectM (List.range 8) (fun k => readCell h calls i (ps.getD i ⟨0, 0, false, false, 0⟩) k))
  let links ← linkAll h ps cells first (allCells ps.length) []
  let steers ← codeAll ps cells first (allCells ps.length) []
  let loops ← collectM (List.range h.nloop) (readLoop h ps first links steers)
  let pages := (ps.zip cells).map (fun q => ({ copy := b.shapes.length, num := q.1.num, loads := q.1.loads
                                               stores := q.1.stores, cells := q.2.map (·.1) } : FxPage))
  pure (({ shapes := b.shapes ++ [(h.cols, h.rows)], pages := b.pages ++ pages, chans := b.chans ++ links
           loops := b.loops ++ loops }, h, first, ps, cells), calls)

/-- A local channel of a cell, in the direction stated (R336). -/
def callRoute (cells : List (List (FxCell × Nat))) (page cell chan : Nat) (out : Bool) : Bool :=
  match cellAt cells page cell with
  | some (c, _) => (c.routes.getD chan none).any (fun r => r.port == 4 && r.out == out)
  | none => false
/-- The entry of the cell of a port of a loaded image. -/
def portEntry (l : Loaded) (v lch : Nat) (out : Bool) : Option Nat :=
  match pageIndex l.2.2.2.1 (v / 256 % 8) with
  | some i => localEntry l.2.2.2.2 l.2.2.1 i (v % 8) lch out
  | none => none
/-- Expand the call sites of an image in table order (R336): load says how a callee is loaded and expanded. -/
def expandCalls (load : Nat → Nat → Build → M Loaded) (cells : List (List (FxCell × Nat))) (first : Nat) : List CallRec → Build → M Build
  | [], b => pure b
  | q :: t, b => do
    accept (callRoute cells q.page q.cell q.chan true && callRoute cells q.page q.cell (q.chan + 1) false) q.addr
    let l ← load q.callee q.addr b
    let h := l.2.1
    accept (!h.useB) q.addr
    match (if h.useA then portEntry l h.inA 0 false else none), (if h.useOut then portEntry l h.out 1 true else none) with
    | some i, some o =>
      expandCalls load cells first t
        { l.1 with chans := l.1.chans ++ [(entryNo (first + q.page) q.cell q.chan, i), (o, entryNo (first + q.page) q.cell (q.chan + 1))] }
    | _, _ => refuse q.addr
/-- Load the image at an address, named by the call-site entry at site, with the headers of the chain that leads to it, and
expand its call sites depth-first (R45, R336). -/
def loadImage : Nat → List Nat → Nat → Nat → Build → M Loaded
  | 0, _, _, site, _ => refuse site
  | fuel + 1, chain, a, site, b => do
    accept (!chain.contains a) site
    let (l, calls) ← loadOne a site b
    let b ← expandCalls (loadImage fuel (a :: chain)) l.2.2.2.2 l.2.2.1 calls l.1
    pure (b, l.2)

/-- The image at an address as fxbind checks it (R342 step 3). -/
def loadConf (a : Nat) : M FxImage := do
  let (b, h, _, ps, _) ← loadImage 9 [] a a {}
  let cell (v : Nat) : Nat := 8 * ((pageIndex ps (v / 256 % 8)).getD 0) + v % 8
  pure { useA := h.useA, useB := h.useB, useOut := h.useOut, inA := cell h.inA, inB := cell h.inB, out := cell h.out
         shapes := b.shapes, pages := b.pages, chans := b.chans, loops := b.loops }

end Sys2Proof.Machine
end

