-- ==== Sys2Proof/Machine/FxPlace.lean ====
section
/-! DEFINITION. The page allocator of a core's fabric: where a configuration is placed in its partition, the channels it
takes, moves, split placement with its transit, and eviction (R93 to R96, R320, R330, R334 to R336). -/

namespace Sys2Proof.Machine
open Sys2Proof

/-- The number of a binding on a core: the core, the process and the slot. -/
def bindKey (core : Nat) (a : BitVec 16) (slot : Nat) : Nat := 2 ^ 21 * core + 32 * a.toNat + slot
/-- The key of the configuration of a binding that is placed in the partition of a group of a core (R92, R93). -/
def confKey (gk core : Nat) (a : BitVec 16) (slot : Nat) : Nat := 2 ^ 28 * gk + bindKey core a slot
/-- The core of a configuration key. -/
def confCore (key : Nat) : Nat := key / 2 ^ 21 % 128
/-- The process of a configuration key. -/
def confAsid (key : Nat) : BitVec 16 := BitVec.ofNat 16 (key / 32 % 2 ^ 16)
/-- The group of a strand. -/
def groupNo (s : State) (k : Nat) : Nat := ((s.strand k).place).elim 0 (·.group)
/-- The key of the configuration that a slot of a process names for strand k. -/
def confKeyOf (s : State) (k : Nat) (a : BitVec 16) (slot : Nat) : Nat := confKey (groupNo s k) (coreOf k) a slot
/-- The slot-table entry of a process. -/
def State.slotEntry (s : State) (a : BitVec 16) (slot : Nat) : SlotEntry := sget {} s.slots (32 * a.toNat + slot)
/-- The image bound to the slot of a configuration key. -/
def imageOf (s : State) (key : Nat) : Option FxImage := (sget {} s.slots (key % 2 ^ 21)).bound
/-- The configurations placed on a core. -/
def coreConfs (s : State) (core : Nat) : Sparse Conf := s.confs.filter (fun p => confCore p.1 == core)
/-- The configurations of a binding that are placed on a core. -/
def bindConfs (s : State) (bind : Nat) : List Conf := (s.confs.filter (fun p => p.1 % 2 ^ 28 == bind)).map (·.2)
/-- An invocation of a binding runs on its core (R347). -/
def bindRunning (s : State) (bind : Nat) : Bool :=
  s.invs.any (fun p => p.2.running && bindKey (coreOf p.1) p.2.asid p.2.slot == bind)
/-- An invocation runs on a placed configuration. -/
def confRunning (s : State) (key : Nat) : Bool :=
  s.invs.any (fun p => p.2.running && confKeyOf s p.1 p.2.asid p.2.slot == key)

/-! ## Geometry -/

/-- Column and row of a cell of a physical page (R320). -/
def cellXY (page cell : Nat) : Nat × Nat := (2 * (page % 2) + cell % 2, 4 * (page / 2) + cell / 2)
/-- The page of a router. -/
def pageXY (x y : Nat) : Nat := x / 2 + 2 * (y / 4)
/-- The link direction that leaves a router by a port. -/
def linkNo (x y port : Nat) : Nat := 4 * (4 * y + x) + port
/-- The links along the row and then along the column from one router to another (R334). -/
def pathLinks (a b : Nat × Nat) : List Nat :=
  let row :=
    if a.1 < b.1 then (List.range (b.1 - a.1)).map (fun i => linkNo (a.1 + i) a.2 1)
    else (List.range (a.1 - b.1)).map (fun i => linkNo (a.1 - i) a.2 3)
  let col :=
    if a.2 < b.2 then (List.range (b.2 - a.2)).map (fun i => linkNo b.1 (a.2 + i) 2)
    else (List.range (a.2 - b.2)).map (fun i => linkNo b.1 (a.2 - i) 0)
  row ++ col
/-- The page of the router that a link leaves. -/
def linkPage (l : Nat) : Nat := pageXY (l / 4 % 4) (l / 16)

/-! ## What is free -/

/-- Contexts that a core's configurations hold on a page. -/
def pageUse (cs : Sparse Conf) (p : Nat) : Nat := cs.foldl (fun n c => n + c.2.pages.countP (· == p)) 0
/-- Physical channels that a core's configurations hold, each as 4 × link + channel. -/
def wireUse (cs : Sparse Conf) : List Nat := cs.flatMap (fun c => c.2.wires.flatMap (fun w => w.path.map (fun l => 4 * l + w.ch)))

/-- Process a holds a transit grant at a page of a core (R96). -/
def hasGrant (s : State) (core p : Nat) (a : BitVec 16) : Bool :=
  let r := s.coreRegs core
  let x := r.spgra.getD p 0
  let y := r.spgrb.getD p 0
  a != 0 && [x.extractLsb' 0 16, x.extractLsb' 16 16, y.extractLsb' 0 16, y.extractLsb' 16 16].any (fun f => f == a)
/-- The page lies in the partition of another group of the core (R95). -/
def foreignPage (s : State) (core gk p : Nat) : Bool := s.groups.any (fun g => g.1 != gk && g.2.core == core && g.2.pages.contains p)
/-- A path may cross the pages between its ends (R95). -/
def transitOk (s : State) (core gk : Nat) (a : BitVec 16) (path : List Nat) : Bool :=
  (path.drop 1).all (fun l => !foreignPage s core gk (linkPage l) || hasGrant s core (linkPage l) a)

/-! ## Placing -/

/-- What is being placed: the core, the group with its partition, the process, and the image. -/
structure Job where
  core : Nat
  gk : Nat
  part : NatSet
  asid : BitVec 16
  img : FxImage
  deriving DecidableEq, Repr

/-- The channels of a list, wired between the pages given, on the lowest physical channel that is free on every link of the
path (R330, R334); none where one cannot be. -/
def wireAll (s : State) (j : Job) (pages : List Nat) : List (Nat × Nat) → List Nat → List Wire → Option (List Wire × List Nat)
  | [], used, acc => some (acc, used)
  | (o, i) :: t, used, acc =>
    let path := pathLinks (cellXY (pages.getD (o / 128) 0) (o / 16 % 8)) (cellXY (pages.getD (i / 128) 0) (i / 16 % 8))
    if !transitOk s j.core j.gk j.asid path then none
    else
      match (List.range 4).find? (fun ch => path.all (fun l => !used.contains (4 * l + ch))) with
      | none => none
      | some ch => wireAll s j pages t (path.map (fun l => 4 * l + ch) ++ used) (acc ++ [⟨i, path, ch⟩])

/-- The physical pages of a copy placed at origin page p0, where its shape lies wholly on pages of the partition with room
(R93 step 1). -/
def copyAt (cs : Sparse Conf) (j : Job) (c p0 : Nat) (sofar : List Nat) : Option (List Nat) :=
  let (cols, rows) := j.img.shapes.getD c (1, 1)
  let c0 := p0 % 2
  let r0 := p0 / 2
  let room (p : Nat) : Bool := j.part.contains p && decide (pageUse cs p + sofar.countP (· == p) < 4)
  if c0 + cols ≤ 2 ∧ r0 + rows ≤ 4 ∧
      (List.range (cols * rows)).all (fun n => room (c0 + n % cols + 2 * (r0 + n / cols))) then
    some ((j.img.pages.filter (fun p => p.copy == c)).map (fun p => c0 + p.num % 2 + 2 * (r0 + p.num / 2)))
  else none
/-- A channel joins two pages of one copy. -/
def sameCopy (j : Job) (c : Nat) (q : Nat × Nat) : Bool :=
  let k (e : Nat) := (j.img.pages[e / 128]?).elim 0 (·.copy)
  k q.1 == c && k q.2 == c
/-- The copies from c on, each at the first origin at which it fits (R93, R336). -/
def placeCopies (s : State) (cs : Sparse Conf) (j : Job) : Nat → Nat → List Nat → List Nat → List Wire → Option (List Nat × List Nat × List Wire)
  | 0, _, pages, used, ws => some (pages, used, ws)
  | n + 1, c, pages, used, ws =>
    match (List.range 8).findSome? (fun p0 =>
      match copyAt cs j c p0 pages with
      | none => none
      | some mine =>
        (wireAll s j (pages ++ mine) (j.img.chans.filter (sameCopy j c)) used ws).map (fun r => (pages ++ mine, r.2, r.1))) with
    | none => none
    | some (pages, used, ws) => placeCopies s cs j n (c + 1) pages used ws
/-- Contiguous placement (R93 step 1): the pages and channels, beside the configurations cs that stand on the core. -/
def contiguous (s : State) (cs : Sparse Conf) (j : Job) : Option (List Nat × List Wire) :=
  match placeCopies s cs j j.img.shapes.length 0 [] (wireUse cs) [] with
  | none => none
  | some (pages, used, ws) =>
    let across := j.img.chans.filter (fun q => !(List.range j.img.shapes.length).any (fun c => sameCopy j c q))
    (wireAll s j pages across used ws).map (fun r => (pages, r.1))
/-- Split placement (R93 step 3, R334): the image's pages in ascending order on the partition's pages with room. -/
def splitPlace (s : State) (cs : Sparse Conf) (j : Job) : Option (List Nat × List Wire) :=
  let free := j.part.filter (fun p => decide (pageUse cs p < 4))
  let pages := free.take j.img.pages.length
  if pages.length < j.img.pages.length then none
  else (wireAll s j pages j.img.chans (wireUse cs) []).map (fun r => (pages, r.1))

/-- A configuration of the partition that may be moved or evicted (R93, R94). -/
def movable (s : State) (gk : Nat) (p : Nat × Conf) : Bool := p.2.group == gk && !p.2.pinned && !confRunning s p.1
/-- The lowest page of a configuration. -/
def lowPage (c : Conf) : Nat := c.pages.foldl min 8
/-- Compaction of one configuration (R93 step 2): it moves to the lowest pages at which it lies contiguously. -/
def moveDown (j : Job) (s : State) (key : Nat) : State :=
  match sfind s.confs key, imageOf s key with
  | some c, some img =>
    let others := (coreConfs s j.core).filter (fun p => p.1 != key)
    match contiguous s others { j with img := img, asid := confAsid key } with
    | some (pages, ws) =>
      if pages = c.pages then s
      else { s with confs := sput s.confs key { c with pages := pages, wires := ws, split := false, moving := pages.foldl nsInsert [] } }
    | none => s
  | _, _ => s
/-- Compaction of a partition (R93). The rule says neither in which order configurations move nor where to: the one on the lowest page
moves first, and only to a place where it lies contiguously (DESIGN CHOICE, assumption 50). -/
def compact (s : State) (j : Job) : State :=
  let ks := (List.range 8).flatMap (fun p => (coreConfs s j.core).filter (fun c => movable s j.gk c && lowPage c.2 == p))
  ks.foldl (fun s c => moveDown j s c.1) s
/-- The configuration to evict (R93 step 4): the one invoked least recently. -/
def victim (s : State) (j : Job) : Option Nat :=
  (((coreConfs s j.core).filter (movable s j.gk)).foldl (fun (b : Option (Nat × Conf)) p =>
    match b with
    | some q => if p.2.last < q.2.last then some p else b
    | none => some p) none).map (·.1)
/-- Place the job's configuration at a key (R93, with at most n evictions): the state with it placed, or none with the
state that the attempts left. -/
def placeTry (j : Job) (key gen : Nat) : Nat → State → Bool × State
  | 0, s => (false, s)
  | n + 1, s =>
    let put (s : State) (r : List Nat × List Wire) (split : Bool) : State :=
      { s with confs := sput s.confs key { group := j.gk, gen := gen, pages := r.1, wires := r.2, split := split } }
    match contiguous s (coreConfs s j.core) j with
    | some r => (true, put s r false)
    | none =>
      let s := compact s j
      match contiguous s (coreConfs s j.core) j with
      | some r => (true, put s r false)
      | none =>
        match splitPlace s (coreConfs s j.core) j with
        | some r => (true, put s r true)
        | none =>
          match victim s j with
          | some v => placeTry j key gen n { s with confs := sdel s.confs v }
          | none => (false, s)
/-- Place the configuration of a slot for strand k in the partition of its group, unless it is placed there; with again, a
configuration whose transit has lost its grant is placed again (R93, R95, R345, R346). True where it is placed afterwards. A pinned one,
which R94 never moves, is placed again all the same and stays pinned (DESIGN CHOICE, assumption 50). -/
def placeConf (s : State) (k : Nat) (a : BitVec 16) (slot : Nat) (again : Bool) : Bool × State :=
  let core := coreOf k
  let key := confKeyOf s k a slot
  let e := s.slotEntry a slot
  match (sfind s.confs key).filter (fun c => !(again && c.stale)), e.bound with
  | some _, _ => (true, s)
  | none, some img =>
    match (s.strand k).place with
    | some p =>
      match sfind s.groups p.group with
      | some g =>
        let pin := (sfind s.confs key).any (·.pinned)
        let r := placeTry ⟨core, p.group, g.pages, a, img⟩ key e.gen (s.confs.length + 1) { s with confs := sdel s.confs key }
        (r.1, { r.2 with confs := r.2.confs.map (fun q => if q.1 = key then (q.1, { q.2 with pinned := pin }) else q) })
      | none => (false, s)
    | none => (false, s)
  | none, none => (false, s)

/-! ## Grants (R95, R96) -/

/-- A write of a grant register of the spiracle of a page: every placed configuration whose transit loses its grant there is
placed again at its next invocation (R95). A route that crosses a free page, and stands when a group placed later takes that
page into its partition, the spec does not name: it stays open as it is, under the meter of R95, until the configuration is
placed again (DESIGN CHOICE, log entry 50). -/
def grantWrite (s : State) (core p : Nat) (second : Bool) (v : Word) : State :=
  let before := s
  let s := s.updCore core (fun c => if second then { c with spgrb := c.spgrb.setIfInBounds p v } else { c with spgra := c.spgra.setIfInBounds p v })
  { s with confs := s.confs.map (fun q =>
      if confCore q.1 = core ∧ q.2.wires.any (fun w => (w.path.drop 1).any (fun l => linkPage l == p)) ∧
          foreignPage s core q.2.group p ∧ hasGrant before core p (confAsid q.1) ∧ !hasGrant s core p (confAsid q.1) then
        (q.1, { q.2 with stale := true })
      else q) }

/-- SPIRACLE_GRANT_WRITE (R96): a write of SPGRA or SPGRB of a page. -/
def execSpiracleGrantWrite (core page : Nat) (second : Bool) (v : Word) (s : State) : Out :=
  .next (if core < 128 ∧ page < 8 then grantWrite s core page second v else s)

/-- PAGE_MOVE_END (R94): the moves of a binding's configurations on a core end; the invocations that waited for them proceed,
and it is a placement event of the die (R90). -/
def execPageMoveEnd (core asid slot : Nat) (s : State) : Out :=
  let b := bindKey core (BitVec.ofNat 16 asid) (slot % 32)
  .next (
    if (bindConfs s b).all (fun c => c.moving.isEmpty) then s
    else
      { s with confs := s.confs.map (fun (q : Nat × Conf) => if q.1 % 2 ^ 28 = b then (q.1, { q.2 with moving := [] }) else q) }.setOff
        (.place (dieOf core)))

/-- Configurations in the pages of a partition are evicted; their bindings stay (R502, R94). -/
def evictGroup (s : State) (gk : Nat) : State := { s with confs := s.confs.filter (fun p => p.2.group != gk) }

end Sys2Proof.Machine
end

