-- ==== Sys2Proof/Machine/System.lean ====
section
/-! DEFINITION. The system instructions (major 0x00, R145 to R151, R423, R477, R499). -/

namespace Sys2Proof.Machine
open Sys2Proof

/-- ill (R145): ILLEGAL_INSTRUCTION at every level. -/
def execIll (s : State) : Out := .next (raise s (illegal wIll))
/-- xcall (R145, R146): the trap XCALL at user level, ILLEGAL_INSTRUCTION above it. -/
def execXcall (s : State) : Out :=
  .next (if s.me.level = .user then raise s ⟨.xcall, 0, 0⟩ else raise s (illegal wXcall))
/-- fcall (R145, R146): the trap FCALL at executive level, PRIVILEGE below it, ILLEGAL_INSTRUCTION above it. -/
def execFcall (s : State) : Out :=
  .next (match s.me.level with
    | .user => raise s (privileged wFcall)
    | .executive => raise s ⟨.fcall, 0, 0⟩
    | .firmware => raise s (illegal wFcall))
/-- brk (R146, R474): the trap BREAKPOINT with the word, or debug halt under BRKHALT. -/
def execBrk (s : State) : Out := .next (raise s ⟨.breakpoint, (wBrk).zeroExtend 64, 0⟩)

/-- eret (R147, R477): the return from the executive, or at firmware level from the firmware; a misaligned return address
takes MISALIGNED (R99). -/
def execEret (s : State) : Out :=
  let t := s.me
  .next (match t.level with
    | .user => raise s (privileged wEret)
    | .executive =>
      if t.e.epc.extractLsb' 0 2 ≠ (0 : BitVec 2) then raise s ⟨.misaligned, t.e.epc, 0⟩ else returnExecutive s s.key
    | .firmware =>
      if t.f.pc.extractLsb' 0 2 ≠ (0 : BitVec 2) then raise s ⟨.misaligned, t.f.pc, 0⟩ else returnFirmware s s.key)

/-- x24 to x31 of a bank. -/
def upperBank (x : Vector Dword 32) : Vector Dword 8 := Vector.ofFn (fun i : Fin 8 => x[24 + i.val]'(by omega))
/-- A bank with x24 to x31 replaced. -/
def setUpperBank (x : Vector Dword 32) (b : Vector Dword 8) : Vector Dword 32 :=
  Vector.ofFn (fun i : Fin 32 => if h : 24 ≤ i.val then b[i.val - 24]'(by omega) else x[i.val])

/-- uiret (R423): outside a handler ILLEGAL_INSTRUCTION, with a misaligned UIPC MISALIGNED; otherwise the shadow bank and
the PC come back. -/
def execUiret (s : State) : Out :=
  let t := s.me
  .next (if !t.ui.inHandler then raise s (illegal wUiret)
    else if t.ui.pc.extractLsb' 0 2 ≠ (0 : BitVec 2) then raise s ⟨.misaligned, t.ui.pc, 0⟩
    else s.updMe (fun t => { t with x := setUpperBank t.x t.ui.shadow, ui := { t.ui with inHandler := false }
                                    pc := t.ui.pc, wait := {} }))

/-- wfe (R148): returns at once with the latch set, else waits until the latch is set or the limit passes; it leaves the
latch clear. A pre-emption ends it, and the strand resumes after it. -/
def execWfe (a : Reg) (s : State) : Out :=
  let t := s.me
  let limit := s.x a
  let passed := t.wait.expired || t.wait.deadline.any (fun d => decide (d ≤ s.now))
  if t.event || passed then .next (s.updMe (fun t => { t with event := false })).advance
  else
    let dl := if a = 0 then none else some (t.wait.deadline.getD (s.now + limit.toNat))
    .next (s.updMe (fun t => { t with wait := { t.wait with blocked := true, deadline := dl, past := true } }))

/-- The removal of translations (R149, R312): from every TLB, and the recorded translations of cocoons; the walk caches lose the
entries of the ASID (R490, R491). -/
def removeTranslations (s : State) (which : TlbEntry → Bool) (asid : BitVec 16 → Bool) : State :=
  { s with tlb := s.tlb.filter (fun t => !which t)
           walks := s.walks.filter (fun w => !asid w.asid)
           cocoons := s.cocoons.map (fun p =>
             if asid p.2.asid then (p.1, { p.2 with tr := p.2.tr.map (fun q => (q.1, { q.2 with stale := true })) }) else p) }

/-- An executive-only instruction: PRIVILEGE with its word at user level (R145). -/
def execOnly (w : Word) (f : State → State) (s : State) : Out :=
  .next (if s.me.level = .user then raise s (privileged w) else f s)

/-- tlbinv (R149): the strand's earlier stores perform at device scope first. -/
def tlbinv (which : TlbEntry → Bool) (asid : BitVec 16 → Bool) (s : State) : State :=
  releasing .device (fun s => (removeTranslations s which asid).advance) s
/-- tlbinv.page (R149). -/
def execTlbinvPage (a b : Reg) (s : State) : Out :=
  execOnly (wTlbinvPage a b) (fun s =>
    tlbinv (fun t => t.asid == low 16 (s.x b) && decide (t.vbase ≤ (s.x a).toNat) && decide ((s.x a).toNat < t.vbase + t.size))
      (· == low 16 (s.x b)) s) s
/-- tlbinv.asid (R149): the ASID is the low 16 bits of xb; the spec does not say what its bits [63:16] do, and here they do nothing
(DESIGN CHOICE, assumption 46). -/
def execTlbinvAsid (b : Reg) (s : State) : Out :=
  execOnly (wTlbinvAsid b) (fun s => tlbinv (fun t => t.asid == low 16 (s.x b)) (· == low 16 (s.x b)) s) s
/-- tlbinv.all (R149). -/
def execTlbinvAll (s : State) : Out := execOnly wTlbinvAll (fun s => tlbinv (fun _ => true) (fun _ => true) s) s

/-- The instruction caches and captured bodies of the cores that a test names are discarded (R101, R150, R203). A captured loop runs
from fetch until it ends. -/
def discardCode (s : State) (names : Nat → Bool) : State :=
  { s with icache := s.icache.filter (fun p => !names (p.1 / 2 ^ 50))
           strands := s.strands.map (fun p =>
             if names (coreOf p.1) then (p.1, { p.2 with replay := p.2.replay.map (fun r => { r with words := [] }) }) else p) }
/-- cwb.core (R150). -/
def execCwbCore (s : State) : Out := .next (releasing .core (fun s => (discardCode s (· == s.core)).advance) s)
/-- cwb.die (R150). -/
def execCwbDie (s : State) : Out := .next (releasing .die (fun s => (discardCode s (fun n => dieOf n == dieOf s.core)).advance) s)
/-- cwb.device (R150). -/
def execCwbDevice (s : State) : Out := .next (releasing .device (fun s => (discardCode s (fun _ => true)).advance) s)
/-- cwb.image (R150, R74): as cwb.device, and the launch unit drops its stored checks for the image under the ASID: the low 16 bits
of xb; the spec does not say what its bits [63:16] do, and here they do nothing (DESIGN CHOICE, assumption 46). -/
def execCwbImage (a b : Reg) (s : State) : Out :=
  execOnly (wCwbImage a b) (fun s =>
    releasing .device (fun s' =>
      (discardCode (s'.updLu (fun u =>
        { u with checks := u.checks.filter (fun c => !(c.image == s.x a && c.asid == low 16 (s.x b))) })) (fun _ => true)).advance) s) s

/-- halt (R151, R499): PRIVILEGE at user level and while debug is disabled; otherwise the core halts after it. -/
def execHalt (s : State) : Out :=
  .next (if s.me.level = .user ∨ !dbgEnabled s s.core then raise s (privileged wHalt) else haltCore s.advance s.core)

end Sys2Proof.Machine
end

