-- ==== Sys2Proof/Machine/Flags.lean ====
section
/-! DEFINITION. Floating-point values, rounding and the flags of FFLAGS (R154 to R169), the operations on values of one
format (R139, R140), conversions (R141, R166), the class mask, and the defined approximations (R176, R177). -/

namespace Sys2Proof.Machine
open Sys2Proof

/-! ## Formats (R154, R155, R157) -/

/-- A floating-point format: exponent bits, fraction bits, and whether it has infinities. -/
structure Fmt where
  eb : Nat
  fb : Nat
  inf : Bool
  deriving DecidableEq, Repr

/-- FP64. -/
def fmt64 : Fmt := ⟨11, 52, true⟩
/-- FP32. -/
def fmt32 : Fmt := ⟨8, 23, true⟩
/-- FP16. -/
def fmt16 : Fmt := ⟨5, 10, true⟩
/-- BF16. -/
def fmtBf : Fmt := ⟨8, 7, true⟩
/-- E4M3, which has no infinities. -/
def fmtE4m3 : Fmt := ⟨4, 3, false⟩
/-- E5M2. -/
def fmtE5m2 : Fmt := ⟨5, 2, true⟩

/-- The width of a format in bits. -/
def Fmt.width (f : Fmt) : Nat := 1 + f.eb + f.fb
/-- The bias. -/
def Fmt.bias (f : Fmt) : Int := 2 ^ (f.eb - 1) - 1
/-- The exponent of the smallest normal value. -/
def Fmt.emin (f : Fmt) : Int := 1 - f.bias
/-- The bits of +∞; for E4M3 the format has none and NaN stands here. -/
def Fmt.infBits (f : Fmt) : Nat := if f.inf then (2 ^ f.eb - 1) * 2 ^ f.fb else 2 ^ (f.eb + f.fb) - 1
/-- The bits of the largest finite value. -/
def Fmt.maxBits (f : Fmt) : Nat := f.infBits - 1
/-- The canonical NaN (R157). -/
def Fmt.canon (f : Fmt) : Nat := if f.inf then f.infBits + 2 ^ (f.fb - 1) else f.infBits
/-- The sign bit's place. -/
def Fmt.signBit (f : Fmt) : Nat := 2 ^ (f.eb + f.fb)
/-- The bits with a sign. -/
def Fmt.signed (f : Fmt) (neg : Bool) (n : Nat) : Nat := if neg then f.signBit + n else n

/-- A value: a NaN (signalling or quiet), an infinity, or the finite value (−1)^neg × m × 2^e. -/
inductive FVal where
  | nan (sig : Bool)
  | inf (neg : Bool)
  | fin (neg : Bool) (m : Nat) (e : Int)
  deriving DecidableEq, Repr

/-- The value of a bit pattern (R154, R155, R157). -/
def unpack (f : Fmt) (x : Nat) : FVal :=
  let neg := x.testBit (f.eb + f.fb)
  let ex := x / 2 ^ f.fb % 2 ^ f.eb
  let fr := x % 2 ^ f.fb
  if f.inf && ex == 2 ^ f.eb - 1 then (if fr = 0 then .inf neg else .nan (decide (fr < 2 ^ (f.fb - 1))))
  else if !f.inf && x % 2 ^ (f.eb + f.fb) == f.infBits then .nan false
  else if ex = 0 then .fin neg fr (f.emin - f.fb)
  else .fin neg (2 ^ f.fb + fr) (ex - f.bias - f.fb)

/-- The value is a NaN. -/
def FVal.isNan : FVal → Bool
  | .nan _ => true | .inf _ => false | .fin _ _ _ => false
/-- The value is a signalling NaN. -/
def FVal.isSig : FVal → Bool
  | .nan s => s | .inf _ => false | .fin _ _ _ => false
/-- The sign of a value that is no NaN. -/
def FVal.neg : FVal → Bool
  | .nan _ => false | .inf n => n | .fin n _ _ => n
/-- The value with its sign inverted. -/
def FVal.negate : FVal → FVal
  | .nan s => .nan s | .inf n => .inf (!n) | .fin n m e => .fin (!n) m e

/-! ## Flags (R168) -/

/-- FFLAGS.SAT. -/
def flSat : BitVec 6 := 0x20
/-- FFLAGS.NV. -/
def flNv : BitVec 6 := 0x10
/-- FFLAGS.DZ. -/
def flDz : BitVec 6 := 0x08
/-- FFLAGS.OF with NX, as an overflow sets them. -/
def flOf : BitVec 6 := 0x05
/-- FFLAGS.UF. -/
def flUf : BitVec 6 := 0x02
/-- FFLAGS.NX. -/
def flNx : BitVec 6 := 0x01
/-- A flag when a condition holds. -/
def flIf (b : Bool) (f : BitVec 6) : BitVec 6 := if b then f else 0

/-- A result in bits with the flags it raises. -/
abbrev FRes := Nat × BitVec 6

/-! ## Rounding (R162, R163) -/

/-- The rounding modes (R162). -/
inductive RMode where | rne | rtz | rdn | rup | rna | rsr
  deriving DecidableEq, Repr

/-- The mode of an FRM code; 6 and 7 name none (R169). -/
def rmodeOf (c : BitVec 3) : Option RMode :=
  match c.toNat with
  | 0 => some .rne | 1 => some .rtz | 2 => some .rdn | 3 => some .rup | 4 => some .rna | 5 => some .rsr
  | _ => none
/-- RSR rounds as RNE where no stochastic rounding applies (R163). -/
def RMode.plain : RMode → RMode
  | .rsr => .rne | .rne => .rne | .rtz => .rtz | .rdn => .rdn | .rup => .rup | .rna => .rna

/-- Whether a quotient q with remainder r of 2^sh rounds away from zero; d is the draw of RSR. -/
def roundsUp (rm : RMode) (neg : Bool) (d q r sh : Nat) : Bool :=
  match rm with
  | .rne => decide (2 ^ sh < 2 * r) || (2 * r == 2 ^ sh && q % 2 == 1)
  | .rtz => false
  | .rdn => neg && r != 0
  | .rup => !neg && r != 0
  | .rna => decide (2 ^ sh ≤ 2 * r) && r != 0
  | .rsr => decide (d < r * 65536 / 2 ^ sh)

/-- m × 2^e as a multiple of 2^u: the rounded multiple, and whether it differs from the value. -/
def roundAt (rm : RMode) (neg : Bool) (d m : Nat) (e u : Int) : Nat × Bool :=
  if u ≤ e then (m * 2 ^ (e - u).toNat, false)
  else
    let sh := (u - e).toNat
    let q := m / 2 ^ sh
    let r := m % 2 ^ sh
    (if roundsUp rm neg d q r sh then q + 1 else q, r != 0)

/-- A rounded result: its bits, its flags, and whether RSR drew for it. -/
structure Rnd where
  bits : Nat
  flags : BitVec 6
  drew : Bool
  deriving DecidableEq, Repr

/-- Where an overflow ends (R166). -/
def overflowBits (f : Fmt) (rm : RMode) (neg : Bool) : Nat :=
  if !f.inf then f.canon
  else
    match rm with
    | .rne => f.signed neg f.infBits | .rna => f.signed neg f.infBits | .rsr => f.signed neg f.infBits
    | .rtz => f.signed neg f.maxBits
    | .rdn => if neg then f.signed true f.infBits else f.maxBits
    | .rup => if neg then f.signed true f.maxBits else f.infBits

/-- round(x, fmt, rm) of the exact value (−1)^neg × m × 2^e (R162, R163, R166, R167); sat asks for the saturating form and d
is the draw of RSR. -/
def roundTo (f : Fmt) (rm : RMode) (sat : Bool) (d : Nat) (neg : Bool) (m : Nat) (e : Int) : Rnd :=
  if m = 0 then ⟨f.signed neg 0, 0, false⟩
  else
    let l : Int := Nat.log2 m + e
    let u0 : Int := l - f.fb
    let u := max u0 (f.emin - f.fb)
    let (q, inexact) := roundAt rm neg d m e u
    let bits := (u - (f.emin - f.fb)).toNat * 2 ^ f.fb + q
    if bits > f.maxBits then
      if sat then ⟨f.signed neg f.maxBits, flSat ||| flNx, rm == .rsr && inexact⟩
      else ⟨overflowBits f rm neg, flOf, rm == .rsr && inexact⟩
    else
      let tiny :=
        if rm = .rsr then decide (bits < 2 ^ f.fb)
        else decide (l < f.emin) && !(l == f.emin - 1 && (roundAt rm neg d m e u0).1 == 2 ^ (f.fb + 1))
      ⟨f.signed neg bits, flIf inexact flNx ||| flIf (inexact && tiny) flUf, rm == .rsr && inexact⟩

/-- Rounding where RSR acts as RNE (R163). -/
def roundPlain (f : Fmt) (rm : RMode) (neg : Bool) (m : Nat) (e : Int) : FRes :=
  let r := roundTo f rm.plain false 0 neg m e
  (r.bits, r.flags)

/-! ## Arithmetic on values (R139, R140) -/

/-- The NaN result of an operation with a NaN operand. -/
def nanRes (f : Fmt) (sig : Bool) : FRes := (f.canon, flIf sig flNv)
/-- The NaN result of an invalid operation. -/
def invalid (f : Fmt) : FRes := (f.canon, flNv)

/-- The signed number n × 2^e as an exact value; a zero has the sign z. -/
def ofInt (n : Int) (e : Int) (z : Bool) : FVal := if n = 0 then .fin z 0 e else .fin (decide (n < 0)) n.natAbs e
/-- A sign and magnitude as an integer. -/
def signedInt (neg : Bool) (m : Nat) : Int := if neg then -(m : Int) else m

/-- The exact sum of two finite values; an exact zero sum of different signs is −0 under RDN, else +0. -/
def exactAdd (rm : RMode) (n1 : Bool) (m1 : Nat) (e1 : Int) (n2 : Bool) (m2 : Nat) (e2 : Int) : FVal :=
  let e := min e1 e2
  ofInt (signedInt n1 (m1 * 2 ^ (e1 - e).toNat) + signedInt n2 (m2 * 2 ^ (e2 - e).toNat)) e
    (if n1 = n2 then n1 else rm == .rdn)

/-- A value rounded into a format; RSR acts as RNE. -/
def roundVal (f : Fmt) (rm : RMode) : FVal → FRes
  | .nan s => nanRes f s
  | .inf n => (if f.inf then f.signed n f.infBits else f.canon, 0)
  | .fin n m e => roundPlain f rm n m e

/-- a + b (R139). -/
def fpAddV (f : Fmt) (rm : RMode) (a b : FVal) : FRes :=
  match a, b with
  | .nan s, y => nanRes f (s || y.isSig)
  | x, .nan s => nanRes f (s || x.isSig)
  | .inf x, .inf y => if x = y then (f.signed x f.infBits, 0) else invalid f
  | .inf x, .fin _ _ _ => (f.signed x f.infBits, 0)
  | .fin _ _ _, .inf y => (f.signed y f.infBits, 0)
  | .fin n1 m1 e1, .fin n2 m2 e2 => roundVal f rm (exactAdd rm.plain n1 m1 e1 n2 m2 e2)

/-- a × b exactly; none when it is invalid. -/
def exactMul (a b : FVal) : Option FVal :=
  match a, b with
  | .nan s, y => some (.nan (s || y.isSig))
  | x, .nan s => some (.nan (s || x.isSig))
  | .inf x, .inf y => some (.inf (x != y))
  | .inf x, .fin n m _ => if m = 0 then none else some (.inf (x != n))
  | .fin n m _, .inf y => if m = 0 then none else some (.inf (n != y))
  | .fin n1 m1 e1, .fin n2 m2 e2 => some (.fin (n1 != n2) (m1 * m2) (e1 + e2))
/-- a × b (R139). -/
def fpMulV (f : Fmt) (rm : RMode) (a b : FVal) : FRes :=
  match exactMul a b with
  | some v => roundVal f rm v
  | none => invalid f

/-- a × b + c, rounded once (R139, R140). -/
def fpFmaV (f : Fmt) (rm : RMode) (a b c : FVal) : FRes :=
  match exactMul a b with
  | none => invalid f
  | some p =>
    match p, c with
    | .nan s, y => nanRes f (s || y.isSig)
    | x, .nan s => nanRes f (s || x.isSig)
    | .inf x, .inf y => if x = y then (f.signed x f.infBits, 0) else invalid f
    | .inf x, .fin _ _ _ => (f.signed x f.infBits, 0)
    | .fin _ _ _, .inf y => (f.signed y f.infBits, 0)
    | .fin n1 m1 e1, .fin n2 m2 e2 => roundVal f rm (exactAdd rm.plain n1 m1 e1 n2 m2 e2)

/-- The quotient of two magnitudes to 2^-k, with a bit below for what is left: far below any rounding position. -/
def jamDiv (m1 m2 k : Nat) : Nat :=
  let n := m1 * 2 ^ k
  2 * (n / m2) + (if n % m2 = 0 then 0 else 1)

/-- a ÷ b (R139, R140). -/
def fpDivV (f : Fmt) (rm : RMode) (a b : FVal) : FRes :=
  match a, b with
  | .nan s, y => nanRes f (s || y.isSig)
  | x, .nan s => nanRes f (s || x.isSig)
  | .inf _, .inf _ => invalid f
  | .inf x, .fin n _ _ => (f.signed (x != n) f.infBits, 0)
  | .fin n _ _, .inf y => (f.signed (n != y) 0, 0)
  | .fin n1 m1 e1, .fin n2 m2 e2 =>
    if m2 = 0 then (if m1 = 0 then invalid f else (f.signed (n1 != n2) f.infBits, flDz))
    else roundPlain f rm (n1 != n2) (jamDiv m1 m2 130) (e1 - e2 - 131)

/-- The integer square root of n below 2^(k+1), found bit by bit from r. -/
def isqrt (n : Nat) : Nat → Nat → Nat
  | 0, r => if (r + 1) * (r + 1) ≤ n then r + 1 else r
  | k + 1, r => isqrt n k (if (r + 2 ^ (k + 1)) * (r + 2 ^ (k + 1)) ≤ n then r + 2 ^ (k + 1) else r)

/-- √a (R139, R140). -/
def fpSqrtV (f : Fmt) (rm : RMode) (a : FVal) : FRes :=
  match a with
  | .nan s => nanRes f s
  | .inf n => if n then invalid f else (f.infBits, 0)
  | .fin n m e =>
    if m = 0 then (f.signed n 0, 0)
    else if n then invalid f
    else
      let m' := if e % 2 = 0 then m else 2 * m
      let e' := if e % 2 = 0 then e else e - 1
      let big := m' * 2 ^ 160
      let r := isqrt big (Nat.log2 big / 2) 0
      roundPlain f rm false (2 * r + (if r * r = big then 0 else 1)) (e' / 2 - 81)

/-- a < b for values that are no NaN. -/
def fpLt (a b : FVal) : Bool :=
  match a, b with
  | .nan _, _ => false
  | .inf _, .nan _ => false
  | .fin _ _ _, .nan _ => false
  | .inf x, .inf y => x && !y
  | .inf x, .fin _ _ _ => x
  | .fin _ _ _, .inf y => !y
  | .fin n1 m1 e1, .fin n2 m2 e2 =>
    let e := min e1 e2
    decide (signedInt n1 (m1 * 2 ^ (e1 - e).toNat) < signedInt n2 (m2 * 2 ^ (e2 - e).toNat))
/-- a = b for values; a NaN equals nothing, and −0 equals +0. -/
def fpEq (a b : FVal) : Bool := !a.isNan && !b.isNan && !fpLt a b && !fpLt b a
/-- The value is a zero. -/
def FVal.isZero : FVal → Bool
  | .fin _ m _ => m == 0 | .nan _ => false | .inf _ => false

/-- The lesser (or greater) of two bit patterns (R139): −0 is below +0, one NaN gives the other operand, two NaNs the
canonical NaN; a signalling NaN sets NV. -/
def fpMinMax (f : Fmt) (greater : Bool) (x y : Nat) : FRes :=
  let a := unpack f x
  let b := unpack f y
  let fl := flIf (a.isSig || b.isSig) flNv
  if a.isNan && b.isNan then (f.canon, fl)
  else if a.isNan then (y, fl)
  else if b.isNan then (x, fl)
  else
    let less := fpLt a b || (a.isZero && b.isZero && a.neg && !b.neg)
    (if less != greater then x else y, fl)

/-- The class mask of a value (R139). -/
def fpClass (f : Fmt) (x : Nat) : Nat :=
  match unpack f x with
  | .nan s => if s then 0x100 else 0x200
  | .inf n => if n then 0x001 else 0x080
  | .fin n m _ =>
    if m = 0 then (if n then 0x008 else 0x010)
    else if x / 2 ^ f.fb % 2 ^ f.eb = 0 then (if n then 0x004 else 0x020)
    else (if n then 0x002 else 0x040)

/-- The flags of a classification: every operation on a signalling NaN sets NV (R157). DEDUCED (assumption 47). -/
def fpClassFl (f : Fmt) (x : Nat) : BitVec 6 := flIf (unpack f x).isSig flNv

/-- A comparison (R139, R225): equality sets NV for a signalling NaN only, the orders for any NaN. -/
def fpCmpEq (f : Fmt) (x y : Nat) : Bool × BitVec 6 :=
  let a := unpack f x
  let b := unpack f y
  (fpEq a b, flIf (a.isSig || b.isSig) flNv)
/-- a < b. -/
def fpCmpLt (f : Fmt) (x y : Nat) : Bool × BitVec 6 :=
  let a := unpack f x
  let b := unpack f y
  (fpLt a b, flIf (a.isNan || b.isNan) flNv)
/-- a ≤ b. -/
def fpCmpLe (f : Fmt) (x y : Nat) : Bool × BitVec 6 :=
  let a := unpack f x
  let b := unpack f y
  (fpLt a b || fpEq a b, flIf (a.isNan || b.isNan) flNv)

/-! ## Conversions -/

/-- m × 2^e rounded to an integer, and whether it was inexact. -/
def roundInt (rm : RMode) (neg : Bool) (d m : Nat) (e : Int) : Int × Bool :=
  let (q, ix) := roundAt rm neg d m e 0
  (signedInt neg q, ix)

/-- The smallest and the largest integer of a type (R159). -/
def intMin (signed : Bool) (w : Nat) : Int := if signed then -(2 ^ (w - 1)) else 0
/-- The largest integer of a type. -/
def intMax (signed : Bool) (w : Nat) : Int := if signed then 2 ^ (w - 1) - 1 else 2 ^ w - 1
/-- An integer clamped to a type. -/
def clampInt (signed : Bool) (w : Nat) (n : Int) : Int := min (intMax signed w) (max (intMin signed w) n)
/-- The low w bits of an integer, as a natural number. -/
def wrapInt (w : Nat) (n : Int) : Nat := (n % (2 ^ w : Nat)).toNat
/-- The integer that w bits stand for. -/
def bitsInt (signed : Bool) (w n : Nat) : Int := if signed && n.testBit (w - 1) then (n : Int) - 2 ^ w else n

/-- fcvtfi (R141): a value out of range, or a NaN, gives the type's limit with NV. -/
def fpToInt (rm : RMode) (signed : Bool) (w : Nat) (a : FVal) : Int × BitVec 6 :=
  match a with
  | .nan _ => (intMax signed w, flNv)
  | .inf n => (if n then intMin signed w else intMax signed w, flNv)
  | .fin n m e =>
    let (v, ix) := roundInt rm.plain n 0 m e
    if v > intMax signed w then (intMax signed w, flNv)
    else if v < intMin signed w then (intMin signed w, flNv)
    else (v, flIf ix flNx)

/-- An integer rounded into a format (R141). -/
def intToFp (f : Fmt) (rm : RMode) (n : Int) : FRes := roundPlain f rm (decide (n < 0)) n.natAbs 0

/-- A floating value converted into another format (R141, R166): RSR applies where the destination has fewer fraction
bits. -/
def fpConvert (src dst : Fmt) (rm : RMode) (sat : Bool) (d : Nat) (x : Nat) : Rnd :=
  match unpack src x with
  | .nan s => ⟨dst.canon, flIf s flNv, false⟩
  | .inf n =>
    if sat then ⟨dst.signed n dst.maxBits, flSat, false⟩
    else if dst.inf then ⟨dst.signed n dst.infBits, 0, false⟩
    else ⟨dst.canon, flNv, false⟩
  | .fin n m e => roundTo dst (if dst.fb < src.fb then rm else rm.plain) sat d n m e

/-! ## Stochastic draws (R164) -/

/-- The next state of a generator. -/
def drawNext (s : Word) : Word :=
  let s := s ^^^ (s <<< 13)
  let s := s ^^^ (s >>> 17)
  s ^^^ (s <<< 5)
/-- The 16 bits that a draw returns from the next state. -/
def drawBits (s : Word) : Nat := ((drawNext s).extractLsb' 16 16 : BitVec 16).toNat
/-- A strand with the generator of a lane drawn once. -/
def Strand.draw (t : Strand) (lane : Nat) : Strand :=
  { t with srgen := t.srgen.setIfInBounds lane (drawNext (t.srgen.getD lane 0)) }
/-- The flags of a strand accrue (R168). -/
def Strand.accrue (t : Strand) (f : BitVec 6) : Strand := { t with fflags := t.fflags ||| f }

/-! ## Defined approximations -/

/-- The table of R176. -/
def rsqTable : List Nat :=
  [252, 245, 238, 232, 226, 221, 216, 211, 207, 203, 199, 195, 192, 189, 185, 182] ++
  [180, 177, 174, 172, 169, 167, 165, 163, 161, 159, 157, 155, 154, 152, 150, 149] ++
  [147, 146, 144, 143, 141, 140, 139, 137, 136, 135, 134, 133, 132, 131, 130, 129]

/-- vfrsqe of an FP32 element (R176). -/
def rsqEstimate (x : Nat) : FRes :=
  match unpack fmt32 x with
  | .nan s => (fmt32.canon, flIf s flNv)
  | .inf n => if n then (fmt32.canon, flNv) else (0, 0)
  | .fin n m e =>
    if m = 0 then (fmt32.signed n fmt32.infBits, flDz)
    else if n then (fmt32.canon, flNv)
    else
      let ex : Int := Nat.log2 m + e
      let odd := ex % 2 ≠ 0
      let e2 : Int := if odd then ex - 1 else ex
      -- 16 × (m2 − 1), with m2 = m ÷ 2^(log2 m) or twice that
      let i := (if odd then 32 else 16) * m / 2 ^ Nat.log2 m - 16
      ((126 - e2 / 2).toNat * 2 ^ 23 + (rsqTable.getD i 128 - 128) * 2 ^ 16, 0)

/-- The coefficients c5 to c0 of R177 as FP32: the values nearest the decimal constants. -/
def exp2Coeffs : List Nat := [0x3AAEC3FF, 0x3C1D955B, 0x3D635847, 0x3E75FDF0, 0x3F317218, 0x3F800000]
/-- c6 of R177. -/
def exp2C6 : Nat := 0x39218489

/-- vfexp2 of an FP32 element (R177). -/
def exp2Value (x : Nat) : FRes :=
  match unpack fmt32 x with
  | .nan s => (fmt32.canon, flIf s flNv)
  | .inf n => if n then (0, 0) else (fmt32.infBits, 0)
  | .fin n m e =>
    let k := (roundInt .rne n 0 m e).1
    let f := exactAdd .rne n m e (decide (0 ≤ k)) k.natAbs 0
    let t := exp2Coeffs.foldl (fun t c => (fpFmaV fmt32 .rne (unpack fmt32 t) f (unpack fmt32 c)).1) exp2C6
    match unpack fmt32 t with
    | .fin tn tm te => roundPlain fmt32 .rne tn tm (te + k)
    | v => roundVal fmt32 .rne v

end Sys2Proof.Machine
end

