-- ==== Sys2Proof/Machine/Operands.lean ====
section
/-! DEFINITION. Vector operands: groups of registers and their elements (R178, R179), rings and relay queues as operands
(R191 to R196), masks and policies (R184, R186), and the order of the checks on a vector instruction (R112, R183). -/

namespace Sys2Proof.Machine
open Sys2Proof

/-! ## Elements of register groups -/

/-- Element i, of w bits, of the group of strand k that begins at register v (R179). -/
def vget (s : State) (k v w i : Nat) : Nat := getBits (s.vreg k (v + i * w / 4096)) (i * w % 4096) w
/-- Write element i, of w bits, of the group that begins at register v. -/
def vput (s : State) (k v w i x : Nat) : State :=
  s.setVreg k (v + i * w / 4096) (putBits (s.vreg k (v + i * w / 4096)) (i * w % 4096) w x)
/-- Write the elements of a list of indexes and values. -/
def vputs (s : State) (k v w : Nat) (ups : List (Nat × Nat)) : State := ups.foldl (fun s p => vput s k v w p.1 p.2) s

/-- VTYPE.EW of the acting strand in bits. -/
def State.ew (s : State) : Nat := ewBits s.me.vtype
/-- VTYPE.GRP of the acting strand in registers. -/
def State.grp (s : State) : Nat := grpRegs s.me.vtype
/-- VLMAX of the acting strand. -/
def State.vlmax (s : State) : Nat := vlmaxOf s.me.vtype
/-- VL of the acting strand. -/
def State.vl (s : State) : Nat := s.me.vl.toNat
/-- VSTART of the acting strand. -/
def State.vstart (s : State) : Nat := s.me.vstart.toNat
/-- The cases in which an instruction writes no element and pops nothing (R183). -/
def State.idle (s : State) : Bool := s.vl == 0 || decide (s.vl ≤ s.vstart)
/-- The indexes that an instruction processes: VSTART to vl − 1. -/
def State.body (s : State) : List Nat := upFrom s.vstart (s.vl - s.vstart)

/-- Element i is active (R103, R184). -/
def active (t : Strand) (m : Msk) (i : Nat) : Bool := (t.mask m.m).getLsbD i != m.neg
/-- The active indexes that an instruction processes: those whose source elements it reads (R193, R206). -/
def State.takers (s : State) (m : Msk) : List Nat := s.body.filter (active s.me m)

/-- Element i of the vb operand (R180): of a register group, or the low bits of an x register. -/
def vbElem (s : State) (b : VbSrc) (w i : Nat) : Nat :=
  match b with
  | .vreg v => vget s s.key v.toNat w i
  | .xreg x => (s.x x).toNat % 2 ^ w

/-! ## Rings (R191 to R195) -/

/-- Slots of a ring. -/
def Ring.slots (r : Ring) : Nat := r.nslotm1.toNat + 1
/-- Bytes of a slot. -/
def Ring.slotBytes (r : Ring) : Nat := 2 ^ r.log2slot.toNat
/-- Slots reserved by writers and not popped. -/
def Ring.used (r : Ring) : Nat := (r.tail - r.head).toNat

/-- The slot area of a ring lies in a window and overlaps no cocoon of the core (R192). -/
def ringSound (s : State) (k : Nat) (r : Ring) : Bool :=
  let base : Dword := r.base ++ (0 : BitVec 8)
  let n := r.slots * r.slotBytes
  decide (6 ≤ r.log2slot.toNat) && decide (r.log2slot.toNat ≤ 12) &&
  (winCode base == 0xF1 || winCode base == 0xF2 || winCode base == 0xF3) &&
  decide (winOff base + n ≤ (windowSize s k (winCode base)).getD 0) &&
  !(s.cocoons.any (fun p =>
      coreOf (p.1 / 8) == coreOf k &&
      (List.range (n / 64)).any (fun q => (cocoonOfFlat { s with cocoons := [p] } (localFlat s k (winCode base) (winOff base + 64 * q) 0)).isSome)))

/-- RING_FAULT with an operand in EADDR. -/
def ringFault (a : Nat) : Stop := .trap ⟨.ringFault, BitVec.ofNat 64 a, 0⟩

/-- The checks of R192 and R196 on a queue that an instruction names. -/
def queueName (s : State) (q : Queue) : Except Stop Unit :=
  match q with
  | .ring n => if s.ringDeclared s.key n.toNat && ringSound s s.key (s.ring s.key n) then .ok () else .error (ringFault n.toNat)
  | .relay n => if s.trio s.key then .ok () else .error (ringFault (8 + n.toNat))

/-- The relay queue of the shard of the acting strand, oldest slot first (R196). -/
def State.relay (s : State) (n : BitVec 2) : List RelaySlot := (s.strand (s.shardKey s.key)).relays[n.toNat]'n.isLt
/-- Replace a relay queue. -/
def State.setRelay (s : State) (n : BitVec 2) (l : List RelaySlot) : State :=
  s.upd (s.shardKey s.key) (fun t => { t with relays := t.relays.set n.toNat l n.isLt })

/-- The holder under which a ring keeps a slot whose write lies in the chrysalis of the task that the acting strand holds (R447). -/
def State.chrysHolder (s : State) : Option Nat := (s.specTask s.key).map (fun p => 384 + p.1)
/-- The write of a slot, named by its count, has not landed as far as the acting strand sees (R193): its own task's buffered write
has, another task's has not before it emerges (R447). -/
def slotOpen (s : State) (r : Ring) (n : Nat) : Bool := (sfind r.unlanded n).any (fun h => s.chrysHolder != some h)
/-- The write of a slot is complete: it has landed (R193), or lies in the chrysalis of the acting strand's task (R447). -/
def slotLands (s : State) (n : BitVec 3) (c : Nat) : State :=
  let r := s.ring s.key n
  s.setRing s.key n { r with unlanded := match s.chrysHolder with
    | some h => sput r.unlanded c h
    | none => sdel r.unlanded c }

/-- A reader's claim of slot c after those claimed by earlier operands of the instruction (R193, R194). A reader whose slots come
after those that an unfinished multi-step tmop of another strand claims waits until that one has popped them (assumption 49). -/
def queueReady (s : State) (q : Queue) (c : Nat) : Except Stop Unit :=
  if s.claimedElsewhere s.key q then .error .wait else
  match q with
  | .ring n =>
    let r := s.ring s.key n
    if r.used ≤ c then (if s.trio s.key then .error .wait else .error (ringFault n.toNat))
    else if slotOpen s r (r.head + BitVec.ofNat 32 c).toNat then .error .wait else .ok ()
  | .relay n => if (s.relay n).length ≤ c then .error .wait else .ok ()

/-- The operand code of a queue in EADDR (R193). -/
def queueCode : Queue → Nat
  | .ring n => 24 + n.toNat
  | .relay n => 32 + n.toNat

/-- The flat address of byte off of the c-th unclaimed slot of a ring. -/
def ringByte (s : State) (r : Ring) (c off : Nat) : Nat :=
  let a := ringSlotAddr r (r.head + BitVec.ofNat 32 c).toNat
  localFlat s s.key (winCode a) (winOff a + off) 0

/-- A sector of local memory as an access of a ring finds it (R308): where a cocoon of another core lies over it, translated, and for a
read filled, as any access to it; the stop is the one of that access. Element e is named where it faults. -/
def sectorReady (s : State) (flat : Nat) (acc : Acc) (e : Nat) : Except Stop State :=
  match cocoonOfFlat s flat with
  | none => .ok s
  | some (ck, i) =>
    match cocoonReady false ck (i / 16 * 16) 0 64 acc e s with
    | .ok _ s' => .ok s'
    | .error st _ => .error st
/-- The state in which a sector is ready, where it can be. -/
def withSector (s : State) (flat : Nat) (acc : Acc) : State :=
  match sectorReady s flat acc 0 with
  | .ok s' => s'
  | .error _ => s
/-- The accesses of the sectors of a slot, by its count, can be made (R308); of a read, the sectors that hold the elements read. -/
def sectorsReady (s : State) (r : Ring) (n w : Nat) (acc : Acc) : List Nat → Except Stop Unit
  | [] => .ok ()
  | i :: t =>
    let a := ringSlotAddr r n
    match sectorReady s (localFlat s s.key (winCode a) (winOff a + i * w / 8) 0) acc i with
    | .ok _ => sectorsReady s r n w acc t
    | .error st => .error st
/-- The first element of each sector of a slot, in elements of w bits. -/
def sectorElems (r : Ring) (w : Nat) : List Nat := (List.range (2 ^ r.log2slot.toNat / 64)).map (· * (512 / w))

/-- Local memory as the acting strand sees it: a word of a cocoon filled (R308), and by a task in chrysalis its own buffered bytes
(R447). -/
def ownMem (s : State) (flat n : Nat) : Nat :=
  let v := Mem.readN (withSector s flat .read).mem flat n
  match s.specTask s.key with
  | some (_, t) => overlay t flat n v
  | none => v

/-- Element i, of w bits, of the slot that claim c reads: zero beyond the slot, or beyond the recorded bytes of a relay (R193, R196). An
element that the recorded bytes hold in part only, which the spec does not speak of, delivers zero as well (DESIGN CHOICE,
assumption 60). -/
def queueElem (s : State) (q : Queue) (c w i : Nat) : Nat :=
  match q with
  | .ring n =>
    let r := s.ring s.key n
    if (i + 1) * w / 8 ≤ r.slotBytes then ownMem s (ringByte s r c (i * w / 8)) (w / 8) else 0
  | .relay n =>
    match (s.relay n)[c]? with
    | some e => if (i + 1) * w / 8 ≤ e.count then getBits e.data (i * w) w else 0
    | none => 0

/-- A word of local memory is poisoned as the acting strand sees it: of words that its task in chrysalis has buffered whole, the
buffered poison (R379). -/
def ownPoison (s : State) (w : Nat) : Bool :=
  match s.specTask s.key with
  | some (_, t) => t.bufPoison.contains w || (s.poison.contains w && !(upFrom (4 * w) 4).all (fun p => (sfind t.buf p).isSome))
  | none => (withSector s (4 * w) .read).poison.contains w

/-- Element i of the slot is poisoned (R193). -/
def queuePoisoned (s : State) (q : Queue) (c w i : Nat) : Bool :=
  match q with
  | .ring n =>
    let r := s.ring s.key n
    decide (((i + 1) * w + 7) / 8 ≤ r.slotBytes) &&
      (ownPoison s (ringByte s r c (i * w / 8) / 4) ||
        (w == 64 && ownPoison s (ringByte s r c (i * w / 8) / 4 + 1)))
  | .relay n =>
    match (s.relay n)[c]? with
    | some e => decide (((i + 1) * w + 7) / 8 ≤ e.count) && (e.poison.contains (i * w / 32) || (w == 64 && e.poison.contains (i * w / 32 + 1)))
    | none => false

/-- The slots a queue operand read are popped (R193). -/
def queuePop (s : State) (q : Queue) (n : Nat) : State :=
  match q with
  | .ring i =>
    let r := s.ring s.key i
    s.setRing s.key i { r with
      head := r.head + BitVec.ofNat 32 n
      unlanded := (upFrom 0 n).foldl (fun l c => sdel l (r.head + BitVec.ofNat 32 c).toNat) r.unlanded }
  | .relay i => s.setRelay i ((s.relay i).drop n)

/-- A ring of the shard has room for one more slot, or the writer waits or takes RING_FAULT (R194); where the slot lies in a cocoon of
another core, its sectors can be written (R308). -/
def ringRoom (s : State) (n : BitVec 3) : Except Stop Unit :=
  let r := s.ring s.key n
  if r.used < r.slots then
    match s.specTask s.key with
    | some (_, t) =>
      let a := ringSlotAddr r r.tail.toNat
      if bufRoom s t (t.store.getD s.core)
          ((List.range (r.slotBytes / 64)).map (fun q => localFlat s s.key (winCode a) (winOff a + 64 * q) 0 / 256 * 256)).dedup
      then sectorsReady s r r.tail.toNat s.ew .write (sectorElems r s.ew) else .error .wait
    | none => sectorsReady s r r.tail.toNat s.ew .write (sectorElems r s.ew)
  else if s.trio s.key then .error .wait else .error (ringFault n.toNat)

/-- A sector of a ring's slot lands in local memory: its bytes take the value, lose poison, clear the flags of ring slots and break links
(R133, R195, R289); where a cocoon of another core lies over it, its words are valid, dirty and on their way to its home (R308). -/
def landSector (s : State) (flat v : Nat) : State :=
  let s := withSector s flat .write
  let s := breakLinks (clearRingFlags
    { s with mem := Mem.writeN s.mem flat 64 v
             poison := (upFrom (flat / 4) 16).foldl nsErase s.poison } flat) flat
  match cocoonOfFlat s flat with
  | some (ck, i) => cocoonLands s false ck i 64 s.core
  | none => s

/-- The all-zero flag of slot count c of ring n (R195), as the acting strand sees it: of a slot that its task in chrysalis has written,
the one that those writes leave. -/
def slotFlag (s : State) (n : BitVec 3) (c : Nat) : Bool :=
  let r := s.ring s.key n
  let a := ringSlotAddr r c
  let mine (t : Task) : Bool := (List.range (r.slotBytes / 64)).any (fun q =>
    let f := localFlat s s.key (winCode a) (winOff a + 64 * q) 0
    (upFrom f 64).any (fun p => (sfind t.buf p).isSome))
  match s.specTask s.key with
  | some (_, t) => if mine t then (sget [] t.bufZero (8 * s.shardKey s.key + n.toNat)).contains (c % r.slots) else r.zero.contains (c % r.slots)
  | none => r.zero.contains (c % r.slots)
/-- A ring write fills slot number i (a count) whole with an image (R193, R195); in chrysalis the bytes are buffered (R447), and the
flag changes when they land. -/
def ringFill (s : State) (n : BitVec 3) (i image : Nat) : State :=
  let r := s.ring s.key n
  let a := ringSlotAddr r i
  let s := (List.range (r.slotBytes / 64)).foldl (fun s q =>
    let f := localFlat s s.key (winCode a) (winOff a + 64 * q) 0
    let v := image / 2 ^ (512 * q) % 2 ^ 512
    match s.specTask s.key with
    | some (j, t) => { s with tasks := sput s.tasks j (bufTake s t (t.store.getD s.core) f 64 v) }
    | none => landSector s f v) s
  let set (z : NatSet) : NatSet := if image = 0 then nsInsert z (i % r.slots) else nsErase z (i % r.slots)
  match s.specTask s.key with
  | some (j, t) =>
    let q := 8 * s.shardKey s.key + n.toNat
    { s with tasks := sput s.tasks j { t with bufZero := sput t.bufZero q (set (sget [] t.bufZero q)) } }
  | none =>
    let r := s.ring s.key n
    s.setRing s.key n { r with zero := set r.zero }

/-- Elements packed in order as a slot image. -/
def packElems (w : Nat) (l : List Nat) : Nat := l.foldr (fun x n => x % 2 ^ w + 2 ^ w * n) 0

/-! ## Sources -/

/-- Element i of the va operand: a register group, or the slot at the head of a queue. -/
def vaElem (s : State) (a : VSrc) (w i : Nat) : Nat :=
  match a with
  | .vreg v => vget s s.key v.toNat w i
  | .queue q => queueElem s q 0 w i
/-- The cross-lane read of element j of a source whose group holds n elements (R207). -/
def vaSrc (s : State) (a : VSrc) (w n j : Nat) : Nat :=
  match a with
  | .vreg v => if j < n then vget s s.key v.toNat w j else 0
  | .queue q => queueElem s q 0 w j
/-- The slot that a queue operand read is popped. -/
def vaPop (s : State) (a : VSrc) : State :=
  match a with
  | .vreg _ => s
  | .queue q => queuePop s q 1

/-! ## The checks on a vector instruction -/

/-- The trap of a stop. -/
def stopTrap (c : Cause) (a : Nat) (e : Nat) : Stop := .trap ⟨c, BitVec.ofNat 64 a, e⟩
/-- ILLEGAL_INSTRUCTION with the word, unless b holds. -/
def legal (b : Bool) (w : Word) : Except Stop Unit := if b then .ok () else .error (.trap (illegal w))
/-- The group of n registers at v is aligned and lies in the window (R114, R178). -/
def groupOk (t : Strand) (v n : Nat) : Except Stop Unit :=
  if v % n = 0 ∧ v + n ≤ t.window then .ok () else .error (stopTrap .vregWindow v 0)
/-- The checks on groups, in order. -/
def groupsOk (t : Strand) : List (Nat × Nat) → Except Stop Unit
  | [] => .ok ()
  | p :: l => do
    groupOk t p.1 p.2
    groupsOk t l

/-- The register group of a va operand, for the window check. -/
def vaGroups (a : VSrc) (n : Nat) : List (Nat × Nat) :=
  match a with
  | .vreg v => [(v.toNat, n)]
  | .queue _ => []
/-- The register group of a vb operand. -/
def vbGroups (b : VbSrc) (n : Nat) : List (Nat × Nat) :=
  match b with
  | .vreg v => [(v.toNat, n)]
  | .xreg _ => []

/-- The name checks on a va operand that is a queue; when the instruction reads it, also its claim of a slot (R192,
R194). -/
def vaName (s : State) (a : VSrc) (reads : Bool) : Except Stop Unit :=
  match a with
  | .vreg _ => .ok ()
  | .queue q => do
    queueName s q
    if reads then
      match queueReady s q 0 with
      | .error (.trap t) => .error (.trap t)
      | _ => .ok ()
    else .ok ()
/-- The wait of a va operand that is a queue for its slot, and the poison of the elements it reads (R193). -/
def vaWait (s : State) (a : VSrc) (w : Nat) (reads : List Nat) : Except Stop Unit :=
  match a with
  | .vreg _ => .ok ()
  | .queue q => do
    queueReady s q 0
    (match q with
      | .ring n => sectorsReady s (s.ring s.key n) (s.ring s.key n).head.toNat w .read
          (reads.filter (fun i => decide ((i + 1) * w / 8 ≤ (s.ring s.key n).slotBytes)))
      | .relay _ => .ok ())
    match reads.find? (queuePoisoned s q 0 w) with
    | some i => .error (stopTrap .memPoison (queueCode q) (if w < 32 then i * w / 32 * 32 / w else i))
    | none => .ok ()

/-- All checks before a vector instruction has an effect (R112): its groups, its queue, what its description asks, and then,
unless it is idle (R183), that the slot it reads is there. -/
def vchecks (s : State) (groups : List (Nat × Nat)) (a : VSrc) (w : Nat) (reads : List Nat) (ok : Bool) (word : Word) :
    Except Stop Unit := do
  groupsOk s.me groups
  vaName s a (!s.idle)
  legal ok word
  if s.idle then .ok () else vaWait s a w reads

/-- The outcome of a vector instruction: its effect, its trap or a wait. A trap on poison of a slot leaves its element in
VSTART (R193). -/
def vguard (c : Except Stop Unit) (effect : State) (s : State) : Out :=
  .next (match c with
    | .ok _ => effect
    | .error (.trap t) =>
      if t.cause = .memPoison then raise (s.updMe (fun p => { p with vstart := BitVec.ofNat 13 t.elem })) t else raise s t
    | .error .wait => s.block)

/-- A vector instruction completes: VSTART is 0 (R183). -/
def vdone (s : State) : State := (s.updMe (fun t => { t with vstart := 0 })).advance

/-! ## Policies (R186) -/

/-- What element i of a destination receives: none where it stays. f answers none for an active element that stays. -/
def policy (t : Strand) (m : Msk) (f : Nat → Option Nat) (i : Nat) : Option Nat :=
  if i < t.vstart.toNat then none
  else if i < t.vl.toNat then (if active t m i then f i else if vtMa t.vtype then some 0 else none)
  else if vtTa t.vtype then some 0 else none
/-- The updates of a destination of n elements under the policies. -/
def updates (t : Strand) (m : Msk) (n : Nat) (f : Nat → Option Nat) : List (Nat × Nat) :=
  (List.range n).filterMap (fun i => (policy t m f i).map (fun v => (i, v)))
/-- The OR of the flags of the active elements that an instruction processes (R168). -/
def flagsOver (s : State) (m : Msk) (g : Nat → BitVec 6) : BitVec 6 :=
  (s.takers m).foldl (fun a i => a ||| g i) 0
/-- Write bit i of a mask destination for i < VLMAX under the policies. -/
def maskUpdates (s : State) (m : Msk) (md : BitVec 3) (f : Nat → Bool) : State :=
  let ups := updates s.me m s.vlmax (fun i => some (if f i then 1 else 0))
  s.updMe (fun t => t.setMask md (ups.foldl (fun x p => putBits x p.1 1 p.2) (t.mask md)))

/-- The updates of an instruction that writes n elements from 0 up and a count: the rest is tail (R232). -/
def countUpdates (t : Strand) (vlmax : Nat) (l : List Nat) : List (Nat × Nat) :=
  (List.range vlmax).filterMap (fun i =>
    match l[i]? with
    | some v => some (i, v)
    | none => if vtTa t.vtype then some (i, 0) else none)

/-- An elementwise instruction (R206): element i of vd, of dw bits, receives f i for active i, with flags. -/
def vmapEffect (vd dw : Nat) (a : VSrc) (m : Msk) (f : Nat → FRes) (s : State) : State :=
  if s.idle then vdone s
  else
    let ups := updates s.me m s.vlmax (fun i => some (f i).1)
    let fl := flagsOver s m (fun i => (f i).2)
    vdone ((vaPop (vputs s s.key vd dw ups) a).updMe (·.accrue fl))

end Sys2Proof.Machine
end

