-- ==== Sys2Proof/Machine/Vint.lean ====
section
/-! DEFINITION. Vector integer arithmetic (VINT, R209, R210) and vector floating-point arithmetic (VFP, R211). -/

namespace Sys2Proof.Machine
open Sys2Proof

/-! ## VINT -/

/-- An integer of w bits, clamped to a type; SAT when it clamps (R209). -/
def satInt (signed : Bool) (w : Nat) (n : Int) : FRes :=
  (wrapInt w (clampInt signed w n), flIf (clampInt signed w n != n) flSat)
/-- A value of w bits as a signed integer. -/
def sx (w n : Nat) : Int := bitsInt true w n

/-- A VINT row (R206, R209): f of the element width and the elements of a, b and d. -/
def vint (word : Word) (f : Nat → Nat → Nat → Nat → FRes) (vd : Reg) (va : VSrc) (vb : VbSrc) (m : Msk) (s : State) : Out :=
  let e := s.ew
  let g := s.grp
  vguard (vchecks s ((vd.toNat, g) :: (vaGroups va g ++ vbGroups vb g)) va e (s.takers m) true word)
    (vmapEffect vd.toNat e va m (fun i => f e (vaElem s va e i) (vbElem s vb e i) (vget s s.key vd.toNat e i)) s) s
/-- A VINT row without flags. -/
def vintP (word : Word) (f : Nat → Nat → Nat → Nat → Nat) (vd : Reg) (va : VSrc) (vb : VbSrc) (m : Msk) (s : State) : Out :=
  vint word (fun e a b d => (f e a b d, 0)) vd va vb m s

/-- vadd (R209): a + b. -/
def execVadd (vd : Reg) (va : VSrc) (vb : VbSrc) (m : Msk) (s : State) : Out :=
  vintP (wVadd vd va vb m) (fun e a b _ => (a + b) % 2 ^ e) vd va vb m s
/-- vsub (R209): a − b. -/
def execVsub (vd : Reg) (va : VSrc) (vb : VbSrc) (m : Msk) (s : State) : Out :=
  vintP (wVsub vd va vb m) (fun e a b _ => (a + 2 ^ e - b) % 2 ^ e) vd va vb m s
/-- vrsub (R209): b − a. -/
def execVrsub (vd : Reg) (va : VSrc) (vb : VbSrc) (m : Msk) (s : State) : Out :=
  vintP (wVrsub vd va vb m) (fun e a b _ => (b + 2 ^ e - a) % 2 ^ e) vd va vb m s
/-- vmul (R209): the low bits of a × b. -/
def execVmul (vd : Reg) (va : VSrc) (vb : VbSrc) (m : Msk) (s : State) : Out :=
  vintP (wVmul vd va vb m) (fun e a b _ => a * b % 2 ^ e) vd va vb m s
/-- vmulh (R209): the high bits of the signed a × b. -/
def execVmulh (vd : Reg) (va : VSrc) (vb : VbSrc) (m : Msk) (s : State) : Out :=
  vintP (wVmulh vd va vb m) (fun e a b _ => wrapInt e (sx e a * sx e b / 2 ^ e)) vd va vb m s
/-- vmulhn (R209): the high bits of the unsigned a × b. -/
def execVmulhn (vd : Reg) (va : VSrc) (vb : VbSrc) (m : Msk) (s : State) : Out :=
  vintP (wVmulhn vd va vb m) (fun e a b _ => a * b / 2 ^ e) vd va vb m s
/-- vdiv (R209): the signed quotient toward zero; all ones for b = 0. -/
def execVdiv (vd : Reg) (va : VSrc) (vb : VbSrc) (m : Msk) (s : State) : Out :=
  vintP (wVdiv vd va vb m) (fun e a b _ => if b = 0 then 2 ^ e - 1 else wrapInt e (Int.tdiv (sx e a) (sx e b))) vd va vb m s
/-- vdivn (R209): the unsigned quotient; all ones for b = 0. -/
def execVdivn (vd : Reg) (va : VSrc) (vb : VbSrc) (m : Msk) (s : State) : Out :=
  vintP (wVdivn vd va vb m) (fun e a b _ => if b = 0 then 2 ^ e - 1 else a / b) vd va vb m s
/-- vrem (R209): the signed remainder; a for b = 0. -/
def execVrem (vd : Reg) (va : VSrc) (vb : VbSrc) (m : Msk) (s : State) : Out :=
  vintP (wVrem vd va vb m) (fun e a b _ => if b = 0 then a else wrapInt e (Int.tmod (sx e a) (sx e b))) vd va vb m s
/-- vremn (R209): the unsigned remainder; a for b = 0. -/
def execVremn (vd : Reg) (va : VSrc) (vb : VbSrc) (m : Msk) (s : State) : Out :=
  vintP (wVremn vd va vb m) (fun _ a b _ => if b = 0 then a else a % b) vd va vb m s
/-- vmin (R209): the signed minimum. -/
def execVmin (vd : Reg) (va : VSrc) (vb : VbSrc) (m : Msk) (s : State) : Out :=
  vintP (wVmin vd va vb m) (fun e a b _ => if sx e a < sx e b then a else b) vd va vb m s
/-- vmax (R209): the signed maximum. -/
def execVmax (vd : Reg) (va : VSrc) (vb : VbSrc) (m : Msk) (s : State) : Out :=
  vintP (wVmax vd va vb m) (fun e a b _ => if sx e a < sx e b then b else a) vd va vb m s
/-- vminn (R209): the unsigned minimum. -/
def execVminn (vd : Reg) (va : VSrc) (vb : VbSrc) (m : Msk) (s : State) : Out :=
  vintP (wVminn vd va vb m) (fun _ a b _ => if a < b then a else b) vd va vb m s
/-- vmaxn (R209): the unsigned maximum. -/
def execVmaxn (vd : Reg) (va : VSrc) (vb : VbSrc) (m : Msk) (s : State) : Out :=
  vintP (wVmaxn vd va vb m) (fun _ a b _ => if a < b then b else a) vd va vb m s
/-- vand (R209): a AND b. -/
def execVand (vd : Reg) (va : VSrc) (vb : VbSrc) (m : Msk) (s : State) : Out :=
  vintP (wVand vd va vb m) (fun _ a b _ => a &&& b) vd va vb m s
/-- vor (R209): a OR b. -/
def execVor (vd : Reg) (va : VSrc) (vb : VbSrc) (m : Msk) (s : State) : Out :=
  vintP (wVor vd va vb m) (fun _ a b _ => a ||| b) vd va vb m s
/-- vxor (R209): a XOR b. -/
def execVxor (vd : Reg) (va : VSrc) (vb : VbSrc) (m : Msk) (s : State) : Out :=
  vintP (wVxor vd va vb m) (fun _ a b _ => a ^^^ b) vd va vb m s
/-- vsll (R209): a shifted left by b mod EW. -/
def execVsll (vd : Reg) (va : VSrc) (vb : VbSrc) (m : Msk) (s : State) : Out :=
  vintP (wVsll vd va vb m) (fun e a b _ => a * 2 ^ (b % e) % 2 ^ e) vd va vb m s
/-- vsrl (R209): a shifted right by b mod EW. -/
def execVsrl (vd : Reg) (va : VSrc) (vb : VbSrc) (m : Msk) (s : State) : Out :=
  vintP (wVsrl vd va vb m) (fun e a b _ => a / 2 ^ (b % e)) vd va vb m s
/-- vsra (R209): a shifted right by b mod EW, filled with its sign. -/
def execVsra (vd : Reg) (va : VSrc) (vb : VbSrc) (m : Msk) (s : State) : Out :=
  vintP (wVsra vd va vb m) (fun e a b _ => wrapInt e (sx e a / 2 ^ (b % e))) vd va vb m s
/-- vadds (R209): signed a + b, clamped. -/
def execVadds (vd : Reg) (va : VSrc) (vb : VbSrc) (m : Msk) (s : State) : Out :=
  vint (wVadds vd va vb m) (fun e a b _ => satInt true e (sx e a + sx e b)) vd va vb m s
/-- vsubs (R209): signed a − b, clamped. -/
def execVsubs (vd : Reg) (va : VSrc) (vb : VbSrc) (m : Msk) (s : State) : Out :=
  vint (wVsubs vd va vb m) (fun e a b _ => satInt true e (sx e a - sx e b)) vd va vb m s
/-- vaddsn (R209): unsigned a + b, clamped. -/
def execVaddsn (vd : Reg) (va : VSrc) (vb : VbSrc) (m : Msk) (s : State) : Out :=
  vint (wVaddsn vd va vb m) (fun e a b _ => satInt false e ((a : Int) + b)) vd va vb m s
/-- vsubsn (R209): unsigned a − b, clamped. -/
def execVsubsn (vd : Reg) (va : VSrc) (vb : VbSrc) (m : Msk) (s : State) : Out :=
  vint (wVsubsn vd va vb m) (fun e a b _ => satInt false e ((a : Int) - b)) vd va vb m s
/-- vmacc (R209): d + a × b. -/
def execVmacc (vd : Reg) (va : VSrc) (vb : VbSrc) (m : Msk) (s : State) : Out :=
  vintP (wVmacc vd va vb m) (fun e a b d => (d + a * b) % 2 ^ e) vd va vb m s
/-- vnmsac (R209): d − a × b. -/
def execVnmsac (vd : Reg) (va : VSrc) (vb : VbSrc) (m : Msk) (s : State) : Out :=
  vintP (wVnmsac vd va vb m) (fun e a b d => wrapInt e ((d : Int) - a * b)) vd va vb m s

/-- vwmul (R209, R210): the exact signed product as an element of twice the width. -/
def execVwmul (vd : Reg) (va : VSrc) (vb : VbSrc) (m : Msk) (s : State) : Out :=
  let e := s.ew
  let g := s.grp
  vguard (vchecks s ((vd.toNat, 2 * g) :: (vaGroups va g ++ vbGroups vb g)) va e (s.takers m) (e != 64 && g != 8) (wVwmul vd va vb m))
    (vmapEffect vd.toNat (2 * e) va m (fun i => (wrapInt (2 * e) (sx e (vaElem s va e i) * sx e (vbElem s vb e i)), 0)) s) s
/-- vnsrl (R209, R210): an element of twice the width shifted right, its low bits. -/
def execVnsrl (vd : Reg) (va : VSrc) (vb : VbSrc) (m : Msk) (s : State) : Out :=
  let e := s.ew
  let g := s.grp
  vguard (vchecks s ((vd.toNat, g) :: (vaGroups va (2 * g) ++ vbGroups vb g)) va (2 * e) (s.takers m) (e != 64 && g != 8)
      (wVnsrl vd va vb m))
    (vmapEffect vd.toNat e va m (fun i => (vaElem s va (2 * e) i / 2 ^ (vbElem s vb e i % (2 * e)) % 2 ^ e, 0)) s) s

/-! ## VFP -/

/-- The floating format of an element (R156). -/
def elemFmt (vt : BitVec 8) : Fmt :=
  match ewBits vt with
  | 8 => if vtAlt vt then fmtE5m2 else fmtE4m3
  | 16 => if vtAlt vt then fmtBf else fmt16
  | 32 => fmt32
  | _ => fmt64
/-- FRM names a rounding mode (R547). -/
def State.frmOk (s : State) : Bool := (rmodeOf s.me.frm).isSome
/-- The mode of FRM. -/
def State.rm (s : State) : RMode := (rmodeOf s.me.frm).getD .rne

/-- A VFP row (R206, R211): EW = 8 is illegal, and a row that rounds needs an FRM that names a mode. -/
def vfp (word : Word) (ok : Bool) (f : Fmt → RMode → Nat → Nat → Nat → FRes) (vd : Reg) (va : VSrc) (vb : VbSrc) (m : Msk)
    (s : State) : Out :=
  let e := s.ew
  let g := s.grp
  let fm := elemFmt s.me.vtype
  vguard (vchecks s ((vd.toNat, g) :: (vaGroups va g ++ vbGroups vb g)) va e (s.takers m) (e != 8 && ok) word)
    (vmapEffect vd.toNat e va m (fun i => f fm s.rm (vaElem s va e i) (vbElem s vb e i) (vget s s.key vd.toNat e i)) s) s
/-- A unary VFP row. -/
def vfp1 (word : Word) (ok : Bool) (f : Fmt → RMode → Nat → FRes) (vd : Reg) (va : VSrc) (m : Msk) (s : State) : Out :=
  vfp word ok (fun fm rm a _ _ => f fm rm a) vd va (.xreg 0) m s

/-- vfadd (R211): a + b, rounded. -/
def execVfadd (vd : Reg) (va : VSrc) (vb : VbSrc) (m : Msk) (s : State) : Out :=
  vfp (wVfadd vd va vb m) s.frmOk (fun fm rm a b _ => fpAddV fm rm (unpack fm a) (unpack fm b)) vd va vb m s
/-- vfsub (R211): a − b, rounded. -/
def execVfsub (vd : Reg) (va : VSrc) (vb : VbSrc) (m : Msk) (s : State) : Out :=
  vfp (wVfsub vd va vb m) s.frmOk (fun fm rm a b _ => fpAddV fm rm (unpack fm a) (unpack fm b).negate) vd va vb m s
/-- vfmul (R211): a × b, rounded. -/
def execVfmul (vd : Reg) (va : VSrc) (vb : VbSrc) (m : Msk) (s : State) : Out :=
  vfp (wVfmul vd va vb m) s.frmOk (fun fm rm a b _ => fpMulV fm rm (unpack fm a) (unpack fm b)) vd va vb m s
/-- vfdiv (R211): a ÷ b, rounded. -/
def execVfdiv (vd : Reg) (va : VSrc) (vb : VbSrc) (m : Msk) (s : State) : Out :=
  vfp (wVfdiv vd va vb m) s.frmOk (fun fm rm a b _ => fpDivV fm rm (unpack fm a) (unpack fm b)) vd va vb m s
/-- vfsqrt (R211): the root, rounded. -/
def execVfsqrt (vd : Reg) (va : VSrc) (m : Msk) (s : State) : Out :=
  vfp1 (wVfsqrt vd va m) s.frmOk (fun fm rm a => fpSqrtV fm rm (unpack fm a)) vd va m s
/-- vfrsqe (R176, R211): the estimate of the table; EW = 32 only. -/
def execVfrsqe (vd : Reg) (va : VSrc) (m : Msk) (s : State) : Out :=
  vfp1 (wVfrsqe vd va m) (s.ew == 32) (fun _ _ a => rsqEstimate a) vd va m s
/-- vfexp2 (R177, R211): the defined exponential; EW = 32 only. -/
def execVfexp2 (vd : Reg) (va : VSrc) (m : Msk) (s : State) : Out :=
  vfp1 (wVfexp2 vd va m) (s.ew == 32) (fun _ _ a => exp2Value a) vd va m s
/-- vfmadd (R211): a × b + d, rounded once. -/
def execVfmadd (vd : Reg) (va : VSrc) (vb : VbSrc) (m : Msk) (s : State) : Out :=
  vfp (wVfmadd vd va vb m) s.frmOk (fun fm rm a b d => fpFmaV fm rm (unpack fm a) (unpack fm b) (unpack fm d)) vd va vb m s
/-- vfnmadd (R211): −(a × b) − d, rounded once. -/
def execVfnmadd (vd : Reg) (va : VSrc) (vb : VbSrc) (m : Msk) (s : State) : Out :=
  vfp (wVfnmadd vd va vb m) s.frmOk (fun fm rm a b d => fpFmaV fm rm (unpack fm a).negate (unpack fm b) (unpack fm d).negate) vd va vb m s
/-- vfmsub (R211): a × b − d, rounded once. -/
def execVfmsub (vd : Reg) (va : VSrc) (vb : VbSrc) (m : Msk) (s : State) : Out :=
  vfp (wVfmsub vd va vb m) s.frmOk (fun fm rm a b d => fpFmaV fm rm (unpack fm a) (unpack fm b) (unpack fm d).negate) vd va vb m s
/-- vfmin (R211): the lesser, as fmin. -/
def execVfmin (vd : Reg) (va : VSrc) (vb : VbSrc) (m : Msk) (s : State) : Out :=
  vfp (wVfmin vd va vb m) true (fun fm _ a b _ => fpMinMax fm false a b) vd va vb m s
/-- vfmax (R211): the greater, as fmax. -/
def execVfmax (vd : Reg) (va : VSrc) (vb : VbSrc) (m : Msk) (s : State) : Out :=
  vfp (wVfmax vd va vb m) true (fun fm _ a b _ => fpMinMax fm true a b) vd va vb m s
/-- vfabs (R211): the sign bit cleared. -/
def execVfabs (vd : Reg) (va : VSrc) (m : Msk) (s : State) : Out :=
  vfp1 (wVfabs vd va m) true (fun fm _ a => (a % fm.signBit, 0)) vd va m s
/-- vfneg (R211): the sign bit inverted. -/
def execVfneg (vd : Reg) (va : VSrc) (m : Msk) (s : State) : Out :=
  vfp1 (wVfneg vd va m) true (fun fm _ a => (a ^^^ fm.signBit, 0)) vd va m s
/-- vfsgnj (R211): magnitude and payload of a, sign of b. -/
def execVfsgnj (vd : Reg) (va : VSrc) (vb : VbSrc) (m : Msk) (s : State) : Out :=
  vfp (wVfsgnj vd va vb m) true (fun fm _ a b _ => (a % fm.signBit + b / fm.signBit * fm.signBit, 0)) vd va vb m s
/-- vfclass (R211): the class mask. -/
def execVfclass (vd : Reg) (va : VSrc) (m : Msk) (s : State) : Out :=
  vfp1 (wVfclass vd va m) true (fun fm _ a => (fpClass fm a, fpClassFl fm a)) vd va m s

end Sys2Proof.Machine
end

