-- ==== Sys2Proof/Machine/Vmem.lean ====
section
/-! DEFINITION. Vector loads and stores (VLD, VST, R270 to R286): element accesses in ascending order (assumption 6), loads that
trim (R275), accesses that trap precisely (R276), and rings as destination and source. -/

namespace Sys2Proof.Machine
open Sys2Proof

/-! ## Shared operations -/

/-- The check of a computation without state, as an action. -/
def liftE (c : Except Stop Unit) : M Unit :=
  match c with
  | .ok _ => pure ()
  | .error e => throw e

/-- The check of a queue operand as an action: poison of a slot leaves its element in VSTART (R193). -/
def liftV (c : Except Stop Unit) : M Unit :=
  match c with
  | .ok _ => pure ()
  | .error .wait => waitM
  | .error (.trap t) => do
    if t.cause = .memPoison then modify (·.updMe (fun p => { p with vstart := BitVec.ofNat 13 t.elem })) else pure ()
    throw (.trap t)

/-- Run an action; a stop is answered. -/
def attempt {α : Type} (m : M α) : M (Except Stop α) := fun s =>
  match m s with
  | .ok a s' => .ok (.ok a) s'
  | .error e s' => .ok (.error e) s'

/-- Do an action for each element of a list up to the first that stops: the answers, and where it stopped. -/
def upToStop {α : Type} (f : Nat → M α) : List Nat → M (List (Nat × α) × Option (Nat × Stop))
  | [] => pure ([], none)
  | i :: t => do
    match ← attempt (f i) with
    | .ok v => do
      let r ← upToStop f t
      pure ((i, v) :: r.1, r.2)
    | .error e => pure ([], some (i, e))

/-- The width of the memory elements that an ew field names (R104). -/
def memBits (ew : BitVec 2) : Nat := 8 * 2 ^ ew.toNat
/-- The registers of the data group of a memory instruction (R274). -/
def dataGroup (s : State) (w : Nat) : Nat := max 1 (s.grp * w / s.ew)
/-- A data group exists (R274). -/
def dataLegal (s : State) (w : Nat) : Bool := decide (s.grp * w ≤ 8 * s.ew)
/-- The active elements that an instruction performs: those of its body whose completion bit is clear (R276). -/
def State.undone (s : State) (m : Msk) : List Nat := s.body.filter (fun i => active s.me m i && !s.me.cm.getLsbD i)
/-- The lane of element i (R268). -/
def laneOf (i : Nat) : Nat := i % 32

/-- cm and VSTART name what a precise instruction that stops has done (R276). -/
def markDone (m : Msk) (performed : List Nat) (s : State) : State :=
  let s := s.updMe (fun t => { t with cm := performed.foldl (fun c i => putBits c i 1 1) t.cm })
  s.updMe (fun t => { t with vstart := BitVec.ofNat 13 ((s.undone m).headD s.vl) })
/-- A precise instruction stops at an element (R276). A wait before any element leaves cm and VSTART. -/
def stopPrecise (m : Msk) (performed : List Nat) (st : Stop) : M Unit := do
  if performed.isEmpty && st == .wait then pure () else modify (markDone m performed)
  throw st
/-- A precise instruction completes (R185, R276). -/
def donePrecise : M Unit := modify (fun s => vdone (s.updMe (fun t => { t with cm := 0 })))

/-- A precise instruction that has nothing to do (R183) completes, and leaves cm all zeros like any other (R185). -/
def idlePrecise : M Unit := donePrecise
/-- The instruction has issued (R190, R277). -/
def issueM : M Unit := modify (·.issue)

/-- Address i of a unit-stride access. -/
def unitAddr (a : Dword) (w i : Nat) : Dword := a + BitVec.ofNat 64 (i * (w / 8))
/-- Address i of a strided access: the stride is signed and in bytes. -/
def strideAddr (a b : Dword) (i : Nat) : Dword := a + BitVec.ofNat 64 i * b

/-! ## Loads (R275, R278 to R282) -/

/-- The words that a strand's strip buffer holds for an access, when it holds them all (R389). -/
def stripRead (s : State) (pa n : Nat) : Option Nat :=
  let ws := (upFrom (pa / 4) ((n + 3) / 4)).map (fun w => (s.strip.find? (fun e => e.strand == s.key && e.word == w)).map (·.val))
  if s.strip.isEmpty then none
  else if ws.all (·.isSome) then
    some (ws.foldr (fun v x => (v.getD 0).toNat + 2 ^ 32 * x) 0 / 2 ^ (8 * (pa % 4)) % 2 ^ (8 * n))
  else none

/-- Read element i of a vector load at an address: its value, and whether it was of class D. unit asks for the strip
buffer. -/
def vloadElem (unit : Bool) (w i : Nat) (ea : Dword) : M (Nat × Bool) := do
  let s ← get
  let t ← route s.ctx ea (w / 8) .read i (laneOf i)
  let s ← get
  match t, (if unit && (s.specTask s.key).isNone then some () else none) with
  | .glob pa .n, some _ =>
    match stripRead s pa (w / 8) with
    | some v => pure (v, false)
    | none => do
      let v ← loadAt s.ctx t ea (w / 8) i
      pure (v, false)
  | _, _ => do
    let v ← loadAt s.ctx t ea (w / 8) i
    pure (v, t.cls == .d)

/-- The failure of a later element that a trimming load takes as a true trap (R275). -/
def trueCause (c : Cause) : Bool := c == .memPoison || c == .memTimeout || c == .classViolation

/-- Where the results of a load go. -/
structure LoadDst where
  /-- the register group, and the width of its elements -/
  vd : Option Nat
  w : Nat
  /-- the ring slot, by its count -/
  slot : Option (BitVec 3 × Nat)
  deriving DecidableEq, Repr

/-- Write the loaded elements below n into a load's destinations; whole also writes the tail and lands the slot. -/
def landLoad (d : LoadDst) (m : Msk) (vals : List (Nat × Nat)) (n : Nat) (whole : Bool) (s : State) : State :=
  let t := s.me
  let ups := (List.range (if whole then s.vlmax else min n s.vlmax)).filterMap (fun i =>
    if n ≤ i then (if vtTa t.vtype then some (i, 0) else none)
    else (policy t m (fun i => sfind vals i) i).map (fun v => (i, v)))
  let s' := match d.vd with
    | some v => vputs s s.key v d.w ups
    | none => s
  match d.slot with
  | none => s'
  | some (r, c) =>
    let g := s.ring s.key r
    let a := ringSlotAddr g c
    let image := packElems d.w ((List.range n).map (fun i =>
      if i < s.vstart then ownMem s (localFlat s s.key (winCode a) (winOff a + i * (d.w / 8)) 0) (d.w / 8)
      else (sfind vals i).getD 0))
    let s' := ringFill s' r c image
    if whole then slotLands s' r c else s'

/-- The end of a trimming load (R275) whose accesses answered vals. keep says that the elements read before a wait are done: some
were of class D (R270), or each waits on its own (R282); the load then goes on at the element that waits, which is not its first. -/
def finishLoad (d : LoadDst) (m : Msk) (idx : List Nat) (vals : List (Nat × Nat)) (keep : Bool) (stop : Option (Nat × Stop)) :
    M Unit := do
  let s ← get
  match stop with
  | none => set (vdone (landLoad d m vals s.vl true s))
  | some (e, .wait) =>
    if keep && idx.head? != some e then
      set ((landLoad d m vals e false s).updMe (fun t => { t with vstart := BitVec.ofNat 13 e, wait := { t.wait with begun := true } }))
    else pure ()
    waitM
  | some (e, .trap t) =>
    if (idx.head? = some e ∧ !s.waitOf.begun) ∨ trueCause t.cause then do
      set ((landLoad d m vals e false s).updMe (fun t => { t with vstart := BitVec.ofNat 13 e }))
      throw (.trap t)
    else
      let s' := landLoad d m vals e true s
      set (vdone (s'.updMe (·.setVl e)))

/-- The slot of a ring that a filling load writes (R193, R277): the one its strand has reserved already, or the one at
TAIL. -/
def reserveSlot (n : BitVec 3) : M Nat := do
  let s ← get
  let r := s.ring s.key n
  match r.unlanded.find? (fun p => p.2 == s.key) with
  | some p => pure p.1
  | none => do
    liftE (ringRoom s n)
    set (s.setRing s.key n { r with tail := r.tail + 1, unlanded := sput r.unlanded r.tail.toNat s.key })
    pure r.tail.toNat

/-- The name checks of a ring that a load of w-bit elements fills (R192). -/
def fillOk (s : State) (n : BitVec 3) (w : Nat) : Except Stop Unit := do
  queueName s (.ring n)
  if s.vl * w / 8 ≤ (s.ring s.key n).slotBytes then .ok () else .error (ringFault n.toNat)

/-- A trimming load of the active elements at the addresses addr, into a register group or a ring or both. With a check, the
elements are checked before any is read, and each is read as soon as it can be (R282). -/
def trimLoad (word : Word) (w : Nat) (vd : Option Reg) (ring : Option (BitVec 3)) (addr : Nat → Dword)
    (ok : Bool) (elem : Nat → Dword → M (Nat × Bool)) (m : Msk) (check : Option (Nat → Dword → M Unit) := none) : M Unit := do
  let s ← get
  liftE (groupsOk s.me (match vd with
    | some v => [(v.toNat, dataGroup s w)]
    | none => []))
  liftE (match ring with
    | some n => fillOk s n w
    | none => .ok ())
  liftE (legal (dataLegal s w && ok) word)
  if s.idle then modify vdone
  else do
    let idx := s.body.filter (active s.me m)
    specLoads s.ctx (idx.map addr) (w / 8)
    let slot ← match ring with
      | some n => do
        let c ← reserveSlot n
        pure (some (n, c))
      | none => pure none
    issueM
    let bad ← (match check with
      | some f => do
        let r ← upToStop (fun i => f i (addr i)) idx
        pure r.2
      | none => pure none)
    let r ← upToStop (fun i => elem i (addr i)) (idx.takeWhile (fun i => bad.all (fun p => i != p.1)))
    finishLoad { vd := vd.map (·.toNat), w := w, slot := slot } m idx (r.1.map (fun p => (p.1, p.2.1)))
      (check.isSome || r.1.any (·.2.2)) (r.2.or bad)

/-- vld (R278, R279). -/
def execVld (v a : Reg) (o sb : Bool) (m : Msk) (ew : BitVec 2) (s : State) : Out :=
  let w := memBits ew
  runInstr (trimLoad (wVld v a o sb m ew) w (some v) none (unitAddr (s.x a) w) true (vloadElem true w) m) s
/-- vlds (R278, R279). -/
def execVlds (v a b : Reg) (o sb : Bool) (m : Msk) (ew : BitVec 2) (s : State) : Out :=
  let w := memBits ew
  runInstr (trimLoad (wVlds v a b o sb m ew) w (some v) none (strideAddr (s.x a) (s.x b)) true (vloadElem false w) m) s
/-- vldq (R278, R280). -/
def execVldq (ring : BitVec 3) (a : Reg) (o sb : Bool) (m : Msk) (ew : BitVec 2) (s : State) : Out :=
  let w := memBits ew
  runInstr (trimLoad (wVldq ring a o sb m ew) w none (some ring) (unitAddr (s.x a) w) true (vloadElem true w) m) s
/-- vldqk (R278, R280). -/
def execVldqk (v a : Reg) (ring : BitVec 3) (o sb : Bool) (m : Msk) (ew : BitVec 2) (s : State) : Out :=
  let w := memBits ew
  runInstr (trimLoad (wVldqk v a ring o sb m ew) w (some v) (some ring) (unitAddr (s.x a) w) true (vloadElem true w) m) s

/-- The local words of element i of vldf (R282): an element elsewhere is refused. -/
def vldfTarget (w i : Nat) (ea : Dword) : M Nat := do
  let s ← get
  let t ← resolve s.ctx ea (w / 8) .read i (laneOf i)
  match t with
  | .loc f => pure f
  | _ => trapM .classViolation ea i
/-- Element i of vldf (R282): a local word or two, each of which must be full; the bits stay. -/
def vldfElem (w i : Nat) (ea : Dword) : M (Nat × Bool) := do
  let f ← vldfTarget w i ea
  let s ← get
  if (upFrom (f / 4) (w / 32)).all (fun q => s.full.contains q) then do
    let v ← loadAt s.ctx (.loc f) ea (w / 8) i
    pure (v, false)
  else waitM
/-- vldf (R278, R282): ew of 32 or 64 only. -/
def execVldf (v a : Reg) (o sb : Bool) (m : Msk) (ew : BitVec 2) (s : State) : Out :=
  let w := memBits ew
  runInstr (trimLoad (wVldf v a o sb m ew) w (some v) none (unitAddr (s.x a) w) (decide (32 ≤ w)) (vldfElem w) m (some (fun i ea => do
    let _ ← vldfTarget w i ea
    pure ()))) s

/-- vldb (R278, R279): one read, at the first active element, for all of them; it traps precisely. -/
def execVldb (v a : Reg) (o sb : Bool) (m : Msk) (ew : BitVec 2) (s : State) : Out :=
  let w := memBits ew
  runInstr (do
    liftE (groupsOk s.me [(v.toNat, dataGroup s w)])
    liftE (legal (dataLegal s w) (wVldb v a o sb m ew))
    if s.idle then idlePrecise
    else do
      issueM
      match s.undone m with
      | [] => do
        modify (landLoad { vd := some v.toNat, w := w, slot := none } m [] s.vl true)
        donePrecise
      | i :: t => do
        specLoads s.ctx [s.x a] (w / 8)
        match ← attempt (vloadElem false w i (s.x a)) with
        | .ok r => do
          modify (landLoad { vd := some v.toNat, w := w, slot := none } m ((i :: t).map (fun j => (j, r.1))) s.vl true)
          donePrecise
        | .error e => do
          if e == .wait then pure () else modify (landLoad { vd := some v.toNat, w := w, slot := none } m [] i false)
          stopPrecise m [] e) s

/-- The pairs of vldp4 that hold elements of a list, each by its lowest element there. -/
def pairHeads : List Nat → List Nat
  | [] => []
  | i :: t =>
    match t with
    | [] => [i]
    | j :: _ => if i / 2 = j / 2 then i :: (pairHeads t).drop 1 else i :: pairHeads t

/-- vldp4 (R281): packed codes into bytes in pairs, one byte access for a pair. -/
def execVldp4 (v a b : Reg) (o sb : Bool) (m : Msk) (s : State) : Out :=
  let word := wVldp4 v a b o sb m
  let step : Dword := if b = 0 then 2 else s.x b
  let addr (i : Nat) : Dword := s.x a + BitVec.ofNat 64 (i / 2) * (step.sshiftRight 1)
  runInstr (do
    liftE (groupsOk s.me [(v.toNat, dataGroup s 8)])
    liftE (legal (s.ew == 8) word)
    if s.idle then modify vdone
    else if step.getLsbD 0 then trapM .stride step s.vstart
    else do
      let idx := s.body.filter (active s.me m)
      let heads := pairHeads idx
      specLoads s.ctx (heads.map addr) 1
      issueM
      let r ← upToStop (fun i => vloadElem false 8 i (addr i)) heads
      let vals := idx.filterMap (fun i =>
        (r.1.find? (fun p => p.1 / 2 == i / 2)).map (fun p => (i, p.2.1 / 16 ^ (i % 2) % 16)))
      finishLoad { vd := some v.toNat, w := 8, slot := none } m idx vals (r.1.any (·.2.2)) r.2) s

/-! ## Stores (R276, R283 to R286) -/

/-- A precise store of the undone elements: put performs element i. after makes what follows the elements performed, before
any stop takes effect; it is told the first position that is not done. An instruction that waits before any element has not begun, and
does nothing. -/
def preciseRun (m : Msk) (idx : List Nat) (put : Nat → M Unit) (after : Nat → M Unit) : M Unit := do
  issueM
  let s ← get
  let r ← upToStop put idx
  match r.2 with
  | none => do
    after s.vl
    donePrecise
  | some (e, st) => do
    if r.1.isEmpty && st == .wait then pure () else after e
    stopPrecise m (r.1.map (·.1)) st

/-- The checks of a store of w-bit elements from a group (R112, R274). -/
def storeChecks (s : State) (word : Word) (w : Nat) (v : Reg) (ok : Bool) : Except Stop Unit := do
  groupsOk s.me [(v.toNat, dataGroup s w)]
  legal (dataLegal s w && ok) word

/-- Element i of a store goes to memory (R273): with o = 1 or s = 1 it performs at its home before anything that follows it. -/
def putElem (order : Bool) (w : Nat) (v i : Nat) (ea : Dword) : M Unit := do
  let s ← get
  if order then storeNow s.ctx ea (w / 8) v i (laneOf i) else storeN s.ctx ea (w / 8) v i (laneOf i)
/-- A store of the undone elements at the addresses addr. -/
def vstoreInstr (word : Word) (w : Nat) (v : Reg) (addr : Nat → Dword) (order : Bool) (m : Msk) (s : State) : Out :=
  runInstr (do
    liftE (storeChecks s word w v true)
    if s.idle then idlePrecise
    else do
      specStores s.ctx ((s.undone m).map addr) (w / 8)
      preciseRun m (s.undone m) (fun i => putElem order w (vget s s.key v.toNat w i) i (addr i)) (fun _ => pure ())) s
/-- vst (R283). -/
def execVst (v a : Reg) (o sb : Bool) (m : Msk) (ew : BitVec 2) (s : State) : Out :=
  vstoreInstr (wVst v a o sb m ew) (memBits ew) v (unitAddr (s.x a) (memBits ew)) (o || sb) m s
/-- vsts (R283). -/
def execVsts (v a b : Reg) (o sb : Bool) (m : Msk) (ew : BitVec 2) (s : State) : Out :=
  vstoreInstr (wVsts v a b o sb m ew) (memBits ew) v (strideAddr (s.x a) (s.x b)) (o || sb) m s

/-- The scope of the release of an add to the progress word (R284). -/
def notifyScope (t : Target) : Scope :=
  match t with
  | .glob pa _ => if isExternal (pa / 4) then .system else .device
  | _ => .device
/-- One add of a notify store to the progress word (R284), whose home has been found to serve it: it releases the stores it counts,
leaves a poisoned word as it is, and is progress of the kernel (R419). -/
def notifyOne (n : Nat) : M Unit := do
  let s ← get
  let t ← route s.ctx s.me.pwaddr 8 .write s.vstart 0
  modify (fun s => release s s.core (notifyScope t))
  match ← attempt (amoAt s.ctx t s.me.pwaddr 8 s.vstart (fun m => some ((m + n) % 2 ^ 64))) with
  | .ok _ => modify (fun s => noteProgress s s.key)
  | .error _ => pure ()
/-- The adds of a notify store of w-bit elements for the positions from a to b − 1 (R284): each covers at most one beat of the data
group. -/
def notifyAdd (w a b : Nat) : M Unit :=
  eachM (upFrom (a * w / 4096) (b * w / 4096 + 1 - a * w / 4096)) (fun q =>
    let n := min b ((q + 1) * (4096 / w)) - max a (q * (4096 / w))
    if n = 0 then pure () else notifyOne n)
/-- The check of PWADDR before any element of a notify store (R284); the homes that its release and its adds go to serve them. -/
def notifyCheck : M Unit := do
  let s ← get
  let p := s.me.pwaddr
  let _ ← route s.ctx p 8 .read s.vstart 0
  let t ← route s.ctx p 8 .write s.vstart 0
  if winCode p = 0xF0 ∨ t.cls = .d then trapM .classViolation p s.vstart
  else do
    t.lateM p s.vstart
    (match t with
      | .glob pa _ => homeFree s.ctx pa p s.vstart
      | _ => homeReady s.ctx t 8 p s.vstart)
    releaseFree (notifyScope t)

/-- A notify store (R284). It stalls in chrysalis, as it makes an atomic access (R448). -/
def notifyStore (word : Word) (w : Nat) (v : Reg) (addr : Nat → Dword) (m : Msk) (s : State) : Out :=
  runInstr (do
    liftE (storeChecks s word w v true)
    if s.idle then idlePrecise
    else do
      specStall s.ctx
      notifyCheck
      preciseRun m (s.undone m) (fun i => putElem true w (vget s s.key v.toNat w i) i (addr i)) (fun e => notifyAdd w s.vstart e)) s
/-- vstn (R284). -/
def execVstn (v a : Reg) (o sb : Bool) (m : Msk) (ew : BitVec 2) (s : State) : Out :=
  notifyStore (wVstn v a o sb m ew) (memBits ew) v (unitAddr (s.x a) (memBits ew)) m s
/-- vstsn (R284). -/
def execVstsn (v a b : Reg) (o sb : Bool) (m : Msk) (ew : BitVec 2) (s : State) : Out :=
  notifyStore (wVstsn v a b o sb m ew) (memBits ew) v (strideAddr (s.x a) (s.x b)) m s

/-- vstf (R285): each element is written and its words set full; local windows only. With o = 1 or s = 1 an element performs at its home,
where it lies in a cocoon, before anything that follows it (R273). -/
def execVstf (v a : Reg) (o sb : Bool) (m : Msk) (ew : BitVec 2) (s : State) : Out :=
  let w := memBits ew
  runInstr (do
    liftE (storeChecks s (wVstf v a o sb m ew) w v (decide (32 ≤ w)))
    if s.idle then idlePrecise
    else do
      specStall s.ctx
      preciseRun m (s.undone m) (fun i => do
        let ea := unitAddr (s.x a) w i
        let t ← resolve s.ctx ea (w / 8) .write i (laneOf i)
        match t with
        | .loc f => do
          let put := localWrite s.ctx f (w / 8) (vget s s.key v.toNat w i) ea i
          if o || sb then do
            homeReady s.ctx t (w / 8) ea i
            atOnce put
          else put
          modify (fun s => { s with full := (upFrom (f / 4) (w / 32)).foldl nsInsert s.full })
        | _ => trapM .classViolation ea i) (fun _ => pure ())) s

/-- vstq (R286): the elements of the next slot; the slot is popped. Only elements that it stores are read, and poison among them
leaves its element in VSTART (R193). -/
def execVstq (ring : BitVec 3) (a : Reg) (o sb : Bool) (m : Msk) (ew : BitVec 2) (s : State) : Out :=
  let w := memBits ew
  let q := Queue.ring ring
  runInstr (do
    liftE (vaName s (.queue q) (!s.idle))
    liftE (legal (dataLegal s w) (wVstq ring a o sb m ew))
    if s.idle then idlePrecise
    else do
      liftV (vaWait s (.queue q) w (s.undone m))
      specStores s.ctx ((s.undone m).map (unitAddr (s.x a) w)) (w / 8)
      preciseRun m (s.undone m) (fun i => putElem (o || sb) w (queueElem s q 0 w i) i (unitAddr (s.x a) w i)) (fun _ => pure ())
      modify (fun s => queuePop s q 1)) s

end Sys2Proof.Machine
end

