-- ==== Sys2Proof/Machine/Sync.lean ====
section
/-! DEFINITION. Fences (R401, R402), named barriers with their links (R411 to R417), progress, yield and user-level
interrupts (SYNC, R410 to R424). -/

namespace Sys2Proof.Machine
open Sys2Proof

/-! ## fence -/

/-- A fence's effect after its release, if it makes one (R401, R402): kind bits 0 ll, 1 ls, 2 ss, 3 sl, 4 eng. The accesses of earlier
instructions have performed as far as their rules ask; ss and sl release, ll and sl acquire, eng acquires at device scope or wider. -/
def fenceRest (s : State) (kinds : BitVec 5) (sc : Scope) : State :=
  let s := if kinds.getLsbD 0 || kinds.getLsbD 3 then acquire s s.core sc else s
  if kinds.getLsbD 4 then acquire s s.core (if s.me.chan.toList.any (·.outside) then .system else .device) else s
/-- fence (R401); a fence that releases waits where a registration cannot reach its home yet (R303). -/
def execFence (kinds : BitVec 5) (sc : Scope) (s : State) : Out :=
  .next (if kinds.getLsbD 2 || kinds.getLsbD 3 then releasing sc (fun s => (fenceRest s kinds sc).advance) s
    else (fenceRest s kinds sc).advance)

/-! ## Barriers -/

/-- Barrier n of a group. -/
def Group.bar (g : Group) (n : Nat) : Barrier := sget {} g.bars n
/-- Barrier n of the group with key gk. -/
def State.bar (s : State) (gk n : Nat) : Barrier :=
  match sfind s.groups gk with
  | some g => g.bar n
  | none => {}
/-- Change barrier n of the groups of a list. -/
def setBars (s : State) (gs : List Nat) (n : Nat) (f : Barrier → Barrier) : State :=
  { s with groups := s.groups.map (fun p => if gs.contains p.1 then (p.1, { p.2 with bars := sput p.2.bars n (f (p.2.bar n)) }) else p) }
/-- The groups that a link of barrier n joins with a group (R417): those of its kernel in its cluster that have the barrier. -/
def linkGroups (s : State) (gk n : Nat) : List Nat :=
  match sfind s.groups gk with
  | some g =>
    (s.groups.filter (fun p => p.2.kernel == g.kernel && clusterOf p.2.core == clusterOf g.core && decide (n < p.2.barCount))).map (·.1)
  | none => []
/-- The groups that share the state of barrier n of a group: its own, or every member of the link. -/
def barMembers (s : State) (gk n : Nat) : List Nat := if (s.bar gk n).link then linkGroups s gk n else [gk]

/-- The effects of a completed phase on the strands of a group (R411). -/
def phaseSeen (s : State) (gk n : Nat) : State :=
  match sfind s.groups gk with
  | none => s
  | some g =>
    let ui := (g.bar n).uiarm
    g.keys.foldl (fun s k => s.upd k (fun t =>
      let t := { t with event := true }
      if ui then t.setUi { t.ui with pend := t.ui.pend ||| 0x10 } else t)) s
/-- A kernel makes progress (R419). -/
def kernelProgress (s : State) (n : Nat) : State :=
  match sfind s.kernels n with
  | some kn => { s with kernels := sput s.kernels n { kn with idleNs := 0 } }
  | none => s

/-- A barrier with one arrival counted (R411); a phase that it completes is noted with the scope of its arrivals (R414), and
is shown later at the members of a link (R417). -/
def Barrier.arrival (b : Barrier) (wide outside : Bool) : Barrier :=
  let w := b.wide || wide
  let o := b.outside || outside
  if b.count + 1 = b.expect then
    { b with
      phase := b.phase + 1, count := 0, wide := false, outside := false
      lastWide := if w then some b.phase else b.lastWide
      lastOutside := if o then some b.phase else b.lastOutside
      shown := if b.link then some (b.shown.getD (b.phase, b.count)) else none }
  else { b with count := b.count + 1, wide := w, outside := o }
/-- An arrival at barrier n of a group (R411, R415 to R417). -/
def arriveAt (s : State) (gk n : Nat) (wide outside : Bool) : State :=
  let b := s.bar gk n
  let done := b.count + 1 == b.expect
  let s := setBars s (barMembers s gk n) n (·.arrival wide outside)
  if done then
    let s := match sfind s.groups gk with
      | some g => kernelProgress s g.kernel
      | none => s
    if b.link then s else phaseSeen s gk n
  else s

/-- The group of the acting strand and the number of a barrier operand (R410): WINDOW_RANGE at or beyond the count. -/
def barOperand (s : State) (v : Dword) : Except TrapInfo (Nat × Nat) :=
  match s.me.place, s.groupOf s.key with
  | some p, some g => if v.toNat < g.barCount then .ok (p.group, v.toNat) else .error ⟨.windowRange, v, 0⟩
  | _, _ => .error ⟨.windowRange, v, 0⟩
/-- The outcome of an instruction on a barrier. -/
def onBar (s : State) (v : Dword) (f : Nat → Nat → State) : Out :=
  match barOperand s v with
  | .error t => .next (raise s t)
  | .ok (gk, n) => .next (f gk n)

/-- The status and effect of barinit (R412, R417). -/
def barinitEffect (s : State) (gk n : Nat) (c : Dword) : Dword × State :=
  let expect : BitVec 12 := low 12 c
  let link := c.getLsbD 12
  let uiarm := c.getLsbD 13
  let b := s.bar gk n
  if expect = 0 ∨ (c.extractLsb' 14 50 : BitVec 50) ≠ 0 ∨ (link ∧ n < 448) then (1, s)
  else
    let members := if link then linkGroups s gk n else barMembers s gk n
    if members.any (fun g => (s.bar g n).count != 0) then (2, s)
    else
      (0, setBars s members n (fun x =>
        { x with expect := expect, uiarm := uiarm, link := link, count := 0, wide := false, outside := false
                 phase := if link then b.phase else x.phase }))
/-- barinit (R412). -/
def execBarinit (d a b : Reg) (s : State) : Out :=
  onBar s (s.x a) (fun gk n =>
    let r := barinitEffect s gk n (s.x b)
    (r.2.setX d r.1).advance)

/-- barrive (R413); in chrysalis it stalls (R448). -/
def execBarrive (d a b : Reg) (s : State) : Out :=
  if (s.specTask s.key).isSome then .next s.block
  else
    onBar s (s.x a) (fun gk n =>
      let fx := (s.x b).getLsbD 0
      if (s.x b).extractLsb' 1 63 ≠ (0 : BitVec 63) ∨ (fx ∧ s.me.deferred.isSome) then (s.setX d (BitVec.allOnes 64 - 1)).advance
      else if fx then ((s.updMe (fun t => { t with deferred := some n })).setX d (BitVec.allOnes 64)).advance
      else
        let bar := s.bar gk n
        releasing (if bar.link then .cluster else .core) (fun s =>
          ((arriveAt s gk n false false).setX d (bar.phase.zeroExtend 64)).advance) s)

/-- PHASE and COUNT as a member shows them (R417). -/
def Barrier.view (b : Barrier) : BitVec 32 × BitVec 12 := b.shown.getD (b.phase, b.count)
/-- A phase noted in the past lies among the phases from ph on. -/
def sincePhase (b : Barrier) (ph : BitVec 32) (l : Option (BitVec 32)) : Bool :=
  match l with
  | some p => decide ((b.phase - p).toNat ≤ (b.phase - ph).toNat)
  | none => false
/-- The scope of a barwait's acquire (R414). -/
def barScope (b : Barrier) (ph : BitVec 32) : Scope :=
  if sincePhase b ph b.lastOutside then .system
  else if sincePhase b ph b.lastWide then .device
  else if b.link then .cluster else .core
/-- barwait (R414). -/
def execBarwait (a b : Reg) (s : State) : Out :=
  onBar s (s.x a) (fun gk n =>
    let bar := s.bar gk n
    let ph : BitVec 32 := low 32 (s.x b)
    let gap := (bar.view.1 - ph).toNat
    if 1 ≤ gap ∧ gap < 2 ^ 31 then (acquire s s.core (barScope bar ph)).advance else s.block)
/-- barpoll (R414). -/
def execBarpoll (d a : Reg) (s : State) : Out :=
  onBar s (s.x a) (fun gk n =>
    let b := s.bar gk n
    (s.setX d (bit1 b.link ++ bit1 b.uiarm ++ (0 : BitVec 6) ++ b.expect ++ b.view.2 ++ b.view.1)).advance)

/-- LINKED_PHASE_SEEN (R417): a member of a link sees the completions so far. -/
def execLinkedPhaseSeen (group barrier : Nat) (s : State) : Out :=
  .next (if (s.bar group barrier).shown.isSome then
      phaseSeen (setBars s [group] barrier (fun b => { b with shown := none })) group barrier
    else s)

/-! ## Progress, yield, user-level interrupts -/

/-- hbeat (R419). -/
def execHbeat (s : State) : Out := .next (noteProgress s s.key).advance
/-- A strand works: it runs, or it is to be pre-empted and has not come back to user level yet (R483). -/
def Strand.works (t : Strand) : Bool := t.status == .running || (t.status == .stopping && t.level != .user)
/-- A strand could issue an instruction now: it works, its core is not halted, and it does not wait. -/
def readyToIssue (s : State) (k : Nat) : Bool :=
  let t := s.strand k
  t.works && !t.ending && !t.wait.blocked && !(s.coreRegs (coreOf k)).halted && !(s.coreRegs (coreOf k)).fenced
/-- yield (R420): the next instruction is held back. -/
def execYield (s : State) : Out :=
  let others := (upFrom (3 * s.core) 3).filter (fun k => k != s.key && readyToIssue s k)
  .next (s.updMe (fun t => { t with hold := some ⟨others, s.cycle.toNat + 16⟩ })).advance
/-- uidis (R424). -/
def execUidis (d a : Reg) (s : State) : Out :=
  let v := s.x a
  let old : Dword := (~~~(0 : BitVec 58)) ++ s.me.ui.mask
  .next ((s.updMe (fun t => t.setUi { t.ui with mask := t.ui.mask ||| low 6 v })).setX d old).advance
/-- uien (R424); in chrysalis it stalls (R448). -/
def execUien (d a : Reg) (s : State) : Out :=
  let v := s.x a
  let old : Dword := (~~~(0 : BitVec 58)) ++ s.me.ui.mask
  .next (if (s.specTask s.key).isSome then s.block
    else ((s.updMe (fun t => t.setUi { t.ui with mask := t.ui.mask &&& ~~~(low 6 v) })).setX d old).advance)

/-- A user-level interrupt is to be delivered to strand k (R422): it is at user level outside a handler, it has a handler, and a
pending kind is admitted. In chrysalis none is delivered (R448), and none at the end of a strand's part (R501). An instruction that has
issued keeps running and is completed first, a vector memory instruction or an fx among them; of these, only a vwait is ended.
An instruction of a chain record has issued too (R190). -/
def uiDue (s : State) (k : Nat) : Bool :=
  let t := s.strand k
  t.level == .user && !t.ending && !t.ui.inHandler && t.ui.vec != 0 && t.ui.admitted != 0 && (s.specTask k).isNone &&
  t.wait.since.isNone && t.chain.isNone && (!t.wait.issued || !t.watch.isEmpty) && !(sfind s.invs k).any (·.running)
/-- Delivery of a user-level interrupt to a strand (R422): before an instruction of a user-mode strand, a pending admitted kind
enters the handler; a wait ends, its instruction not begun, and the entries of a vwait are free (R292). -/
def deliverUi (s : State) (k : Nat) : State :=
  if uiDue s k then
    s.upd k (fun t => { t with
      ui := { t.ui with pc := t.pc, inHandler := true, shadow := upperBank t.x }
      x := setUpperBank t.x ((Vector.replicate 8 (0 : Dword)).set 0 (t.ui.admitted.zeroExtend 64))
      pc := t.ui.vec ++ (0 : BitVec 2), event := true, wait := {}, watch := [] })
  else s
/-- UI_DELIVERY (R422). -/
def execUiDelivery (strand : Nat) (s : State) : Out := .next (if (s.strand strand).status = .running then deliverUi s strand else s)

end Sys2Proof.Machine
end

