-- ==== Sys2Proof/Machine/Vcvt.lean ====
section
/-! DEFINITION. Conversions and quantisation (VCVT, R212 to R222). -/

namespace Sys2Proof.Machine
open Sys2Proof

/-- Elements computed in ascending order with the draws of their lanes (R164): the values by index, and the strand with its
generators and flags. -/
def drawRun (t : Strand) (idx : List Nat) (f : Nat → Nat → Rnd) : List (Nat × Nat) × Strand :=
  idx.foldl (fun (acc : List (Nat × Nat) × Strand) i =>
    let r := f (drawBits (acc.2.srgen.getD (i % 32) 0)) i
    (acc.1 ++ [(i, r.bits)], (if r.drew then acc.2.draw (i % 32) else acc.2).accrue r.flags)) ([], t)

/-- What a conversion makes of an element. -/
inductive CvtDst where
  | fp (f : Fmt) (sat : Bool)
  | int (w : Nat)
  deriving DecidableEq, Repr

/-- The width of the destination (R213). -/
def CvtDst.width : CvtDst → Nat
  | .fp f _ => f.width
  | .int w => w

/-- The source of a conversion: an integer, signed or not, or a value of a format. -/
inductive CvtSrc where
  | fp (f : Fmt)
  | int (signed : Bool) (w : Nat)
  deriving DecidableEq, Repr

/-- One element's conversion (R215): du asks for an unsigned destination integer. -/
def cvtElem (src : CvtSrc) (dst : CvtDst) (du : Bool) (rm : RMode) (d x : Nat) : Rnd :=
  match src, dst with
  | .fp f, .fp g sat => fpConvert f g rm sat d x
  | .int sg w, .fp g sat =>
    let n := bitsInt sg w x
    roundTo g rm.plain sat 0 (decide (n < 0)) n.natAbs 0
  | .fp f, .int w =>
    match unpack f x with
    | .nan _ => ⟨wrapInt w (intMax (!du) w), flNv, false⟩
    | .inf n => ⟨wrapInt w (if n then intMin (!du) w else intMax (!du) w), flSat, false⟩
    | .fin n m e =>
      let (v, ix) := roundInt rm.plain n 0 m e
      if clampInt (!du) w v = v then ⟨wrapInt w v, flIf ix flNx, false⟩ else ⟨wrapInt w (clampInt (!du) w v), flSat, false⟩
  | .int sg w', .int w =>
    let n := bitsInt sg w' x
    let v := satInt (!du) w n
    ⟨v.1, v.2, false⟩

/-- The effect of a conversion of each active element of va into an element of dw bits of vd. -/
def cvtEffect (vd dw : Nat) (va : VSrc) (m : Msk) (f : Nat → Nat → Rnd) (s : State) : State :=
  if s.idle then vdone s
  else
    let r := drawRun s.me (s.takers m) f
    vdone (vaPop ((vputs s s.key vd dw (updates s.me m s.vlmax (sfind r.1))).updMe
      (fun t => { t with srgen := r.2.srgen, fflags := r.2.fflags })) va)

/-- The registers of a group of elements of another width (R214, R217): at least one. -/
def groupOf (g w e : Nat) : Nat := max 1 (g * w / e)

/-- A conversion (R212 to R215): cv bit 0 SI, bit 1 SU, bit 2 DU. -/
def vcvt (word : Word) (dst : CvtDst) (vd : Reg) (va : VSrc) (cv : BitVec 3) (m : Msk) (s : State) : Out :=
  let e := s.ew
  let g := s.grp
  let src := if cv.getLsbD 0 then CvtSrc.int (!cv.getLsbD 1) e else CvtSrc.fp (elemFmt s.me.vtype)
  vguard (vchecks s ((vd.toNat, groupOf g dst.width e) :: vaGroups va g) va e (s.takers m)
      (decide (g * dst.width ≤ 8 * e) && s.frmOk) word)
    (cvtEffect vd.toNat dst.width va m (fun d i => cvtElem src dst (cv.getLsbD 2) s.rm d (vaElem s va e i)) s) s

/-- vcvtf64 (R213, R215). -/
def execVcvtf64 (vd : Reg) (va : VSrc) (cv : BitVec 3) (m : Msk) (s : State) : Out := vcvt (wVcvtf64 vd va cv m) (.fp fmt64 false) vd va cv m s
/-- vcvtf32 (R213, R215). -/
def execVcvtf32 (vd : Reg) (va : VSrc) (cv : BitVec 3) (m : Msk) (s : State) : Out := vcvt (wVcvtf32 vd va cv m) (.fp fmt32 false) vd va cv m s
/-- vcvtf16 (R213, R215). -/
def execVcvtf16 (vd : Reg) (va : VSrc) (cv : BitVec 3) (m : Msk) (s : State) : Out := vcvt (wVcvtf16 vd va cv m) (.fp fmt16 false) vd va cv m s
/-- vcvtbf16 (R213, R215). -/
def execVcvtbf16 (vd : Reg) (va : VSrc) (cv : BitVec 3) (m : Msk) (s : State) : Out := vcvt (wVcvtbf16 vd va cv m) (.fp fmtBf false) vd va cv m s
/-- vcvte4m3 (R213, R215). -/
def execVcvte4m3 (vd : Reg) (va : VSrc) (cv : BitVec 3) (m : Msk) (s : State) : Out := vcvt (wVcvte4m3 vd va cv m) (.fp fmtE4m3 false) vd va cv m s
/-- vcvte5m2 (R213, R215). -/
def execVcvte5m2 (vd : Reg) (va : VSrc) (cv : BitVec 3) (m : Msk) (s : State) : Out := vcvt (wVcvte5m2 vd va cv m) (.fp fmtE5m2 false) vd va cv m s
/-- vcvte4m3s (R213, R215). -/
def execVcvte4m3s (vd : Reg) (va : VSrc) (cv : BitVec 3) (m : Msk) (s : State) : Out := vcvt (wVcvte4m3s vd va cv m) (.fp fmtE4m3 true) vd va cv m s
/-- vcvte5m2s (R213, R215). -/
def execVcvte5m2s (vd : Reg) (va : VSrc) (cv : BitVec 3) (m : Msk) (s : State) : Out := vcvt (wVcvte5m2s vd va cv m) (.fp fmtE5m2 true) vd va cv m s
/-- vcvti8 (R213, R215). -/
def execVcvti8 (vd : Reg) (va : VSrc) (cv : BitVec 3) (m : Msk) (s : State) : Out := vcvt (wVcvti8 vd va cv m) (.int 8) vd va cv m s
/-- vcvti16 (R213, R215). -/
def execVcvti16 (vd : Reg) (va : VSrc) (cv : BitVec 3) (m : Msk) (s : State) : Out := vcvt (wVcvti16 vd va cv m) (.int 16) vd va cv m s
/-- vcvti32 (R213, R215). -/
def execVcvti32 (vd : Reg) (va : VSrc) (cv : BitVec 3) (m : Msk) (s : State) : Out := vcvt (wVcvti32 vd va cv m) (.int 32) vd va cv m s
/-- vcvti64 (R213, R215). -/
def execVcvti64 (vd : Reg) (va : VSrc) (cv : BitVec 3) (m : Msk) (s : State) : Out := vcvt (wVcvti64 vd va cv m) (.int 64) vd va cv m s

/-- A value rounded to an integral value of its own format (R216). -/
def fpIntegral (f : Fmt) (rm : RMode) (x : Nat) : Rnd :=
  match unpack f x with
  | .nan s => ⟨f.canon, flIf s flNv, false⟩
  | .inf n => ⟨f.signed n f.infBits, 0, false⟩
  | .fin n m e =>
    let (v, ix) := roundInt rm.plain n 0 m e
    ⟨(roundPlain f .rne n v.natAbs 0).1, flIf ix flNx, false⟩
/-- vcvtfi (R216). -/
def execVcvtfi (vd va : Reg) (m : Msk) (s : State) : Out :=
  let e := s.ew
  let g := s.grp
  let a := VSrc.vreg va
  vguard (vchecks s ((vd.toNat, g) :: vaGroups a g) a e (s.takers m) s.frmOk (wVcvtfi vd va m))
    (cvtEffect vd.toNat e a m (fun _ i => fpIntegral (elemFmt s.me.vtype) s.rm (vaElem s a e i)) s) s

/-! ## Asymmetric codes (R160, R161, R217 to R219, R222) -/

/-- A group record (R160): SCALE and ZP; none when it is ill-formed for codes of w bits (R161). -/
def recordOf (w n : Nat) : Option (Bool × Nat × Int × Nat) :=
  let zp := n / 2 ^ 16 % 256
  match unpack fmt16 (n % 2 ^ 16) with
  | .fin neg m e => if n / 2 ^ 24 = 0 ∧ m ≠ 0 ∧ zp < 2 ^ w then some (neg, m, e, zp) else none
  | .nan _ => none
  | .inf _ => none

/-- The code of a floating value (R219). -/
def quantise (f : Fmt) (rm : RMode) (w : Nat) (rec : Bool × Nat × Int × Nat) (d x : Nat) : Rnd :=
  let (sn, sm, se, zp) := rec
  let clamped (n : Int) (fl : BitVec 6) (drew : Bool) : Rnd :=
    ⟨(clampInt false w n).toNat, fl ||| flIf (clampInt false w n != n) flSat, drew⟩
  match unpack f x with
  | .nan _ => ⟨zp, flNv, false⟩
  | .inf n => ⟨if n != sn then 0 else 2 ^ w - 1, flSat, false⟩
  | .fin n m e =>
    -- x ÷ SCALE + ZP = (x + ZP × SCALE) ÷ SCALE
    match exactAdd .rne n m e sn (zp * sm) se with
    | .fin n' m' e' =>
      let (v, ix) := roundInt rm (n' != sn) d (jamDiv m' sm 130) (e' - se - 131)
      clamped v (flIf ix flNx) (rm == .rsr && ix)
    | _ => clamped 0 0 false
/-- The value of a code (R219). -/
def dequantise (f : Fmt) (rm : RMode) (rec : Bool × Nat × Int × Nat) (q : Nat) : Rnd :=
  let (sn, sm, se, zp) := rec
  let k : Int := (q : Int) - zp
  let r := roundPlain f rm (k != 0 && (sn != decide (k < 0))) (sm * k.natAbs) se
  ⟨r.1, r.2, false⟩

/-- Code i of a code operand: byte i, or nibble i (R159, R217). -/
def codeElem (s : State) (a : VSrc) (w i : Nat) : Nat :=
  if w = 4 then vaElem s a 8 (i / 2) / 2 ^ (4 * (i % 2)) % 16 else vaElem s a 8 i

/-- The first element that an instruction processes whose group has an ill-formed record (R222). -/
def badRecord (s : State) (vb : Reg) (w : Nat) (m : Msk) : Option Nat :=
  (s.takers m).find? (fun i => (recordOf w (vget s s.key vb.toNat 32 (i / 32))).isNone)

/-- vqnt and vdeq (R217, R219, R222): aw and dw are the widths of source and destination, f makes an element from its record
and draw. At an ill-formed record, the elements below keep their results. -/
def quantInstr (word : Word) (w aw an dw dn : Nat) (f : Bool × Nat × Int × Nat → Nat → Nat → Rnd) (vd : Reg) (va : VSrc) (vb : Reg)
    (m : Msk) (s : State) : Out :=
  let run (t : State) (idx : List Nat) :=
    drawRun t.me idx (fun d i => f ((recordOf w (vget s s.key vb.toNat 32 (i / 32))).getD (false, 1, 0, 0)) d i)
  vguard (vchecks s ((vd.toNat, dn) :: (vaGroups va an ++ [(vb.toNat, 1)])) va aw (s.takers m)
      ((s.ew == 16 || s.ew == 32) && s.frmOk) word)
    (if s.idle then vdone s
     else
      match badRecord s vb w m with
      | some j =>
        let r := run s ((s.takers m).filter (· < j))
        raise ((vputs s s.key vd.toNat dw (updates s.me m (min j s.vlmax) (sfind r.1))).updMe
          (fun t => { t with srgen := r.2.srgen, fflags := r.2.fflags, vstart := BitVec.ofNat 13 j }))
          ⟨.formatRecord, vb.zeroExtend 64, j⟩
      | none => cvtEffect vd.toNat dw va m (fun d i => f ((recordOf w (vget s s.key vb.toNat 32 (i / 32))).getD (false, 1, 0, 0)) d i) s) s

/-- The code width of vqnt and vdeq (R217). -/
def codeBits (k : Bool) : Nat := if k then 4 else 8
/-- vqnt (R219). -/
def execVqnt (vd : Reg) (va : VSrc) (vb : Reg) (k : Bool) (m : Msk) (s : State) : Out :=
  let w := codeBits k
  quantInstr (wVqnt vd va vb k m) w s.ew s.grp w (groupOf s.grp w s.ew)
    (fun rec d i => quantise (elemFmt s.me.vtype) s.rm w rec d (vaElem s va s.ew i)) vd va vb m s
/-- vdeq (R219). -/
def execVdeq (vd : Reg) (va : VSrc) (vb : Reg) (k : Bool) (m : Msk) (s : State) : Out :=
  let w := codeBits k
  quantInstr (wVdeq vd va vb k m) w w (groupOf s.grp w s.ew) s.ew s.grp
    (fun rec _ i => dequantise (elemFmt s.me.vtype) s.rm rec (codeElem s va w i)) vd va vb m s

/-! ## E8M0-scaled blocks (R158, R217, R220, R221) -/

/-- The block format (R217). -/
def mxFmt (k : Bool) : Fmt := if k then fmtE5m2 else fmtE4m3
/-- The exponent of the format's largest value (R220). -/
def mxEmax (k : Bool) : Int := if k then 15 else 8

/-- The scale of a block from the values that take part (R220): none where one is a NaN. -/
def mxScale (k : Bool) (vals : List FVal) : Option Nat :=
  if vals.any (·.isNan) then none
  else
    let l : Option Int := vals.foldl (fun b v =>
      match v with
      | .fin _ m e => if m = 0 then b else some (max (b.getD (Nat.log2 m + e)) (Nat.log2 m + e))
      | .nan _ => b
      | .inf _ => b) none
    let sc : Int := match l with
      | some x => x - mxEmax k
      | none => 0
    some (min 254 (max 0 (sc + 127))).toNat

/-- The code of an element under a scale (R220). -/
def mxCode (f : Fmt) (k : Bool) (rm : RMode) (sc : Option Nat) (d x : Nat) : Rnd :=
  let g := mxFmt k
  match sc, unpack f x with
  | none, v => ⟨g.canon, flIf v.isSig flNv, false⟩
  | some _, .nan s => ⟨g.canon, flIf s flNv, false⟩
  | some _, .inf n => ⟨g.signed n g.maxBits, flSat, false⟩
  | some c, .fin n m e => roundTo g (if g.fb < f.fb then rm else rm.plain) true d n m (e + 127 - c)

/-- vmxq (R217, R220): VSTART is lowered to a multiple of 32 before it starts, also before the test of R183, so that VSTART = vl = 40
still processes elements 32 to 39 (DESIGN CHOICE, assumption 69). -/
def execVmxq (vd : Reg) (va : VSrc) (vb : Reg) (k : Bool) (m : Msk) (s : State) : Out :=
  let word := wVmxq vd va vb k m
  let e := s.ew
  let g := s.grp
  let f := elemFmt s.me.vtype
  let s0 := s.updMe (fun t => { t with vstart := BitVec.ofNat 13 (t.vstart.toNat / 32 * 32) })
  let takes (j : Nat) : List Nat := (s0.takers m).filter (fun i => i / 32 == j)
  let scale (j : Nat) : Option Nat := mxScale k ((takes j).map (fun i => unpack f (vaElem s va e i)))
  vguard (vchecks s0 ((vd.toNat, groupOf g 8 e) :: (vaGroups va g ++ [(vb.toNat, 1)])) va e (s0.takers m)
      ((e == 16 || e == 32) && s.frmOk) word)
    (if s0.idle then vdone s
     else
      let t := cvtEffect vd.toNat 8 va m (fun d i => mxCode f k s.rm (scale (i / 32)) d (vaElem s va e i)) s0
      vputs t s.key vb.toNat 8 ((List.range ((s.vlmax + 31) / 32)).filterMap (fun j =>
        if (s.vl + 31) / 32 ≤ j then (if vtTa s.me.vtype then some (j, 0) else none)
        else if (takes j).isEmpty then none
        else some (j, (scale j).getD 0xFF)))) s

/-- vmxd (R217, R221). -/
def execVmxd (vd : Reg) (va : VSrc) (vb : Reg) (k : Bool) (m : Msk) (s : State) : Out :=
  let word := wVmxd vd va vb k m
  let e := s.ew
  let g := s.grp
  let f := elemFmt s.me.vtype
  let val (i : Nat) : Rnd :=
    let c := vget s s.key vb.toNat 8 (i / 32)
    match unpack (mxFmt k) (vaElem s va 8 i) with
    | .nan sig => ⟨f.canon, flIf sig flNv, false⟩
    | .inf n => if c = 0xFF then ⟨f.canon, 0, false⟩ else ⟨f.signed n f.infBits, 0, false⟩
    | .fin n m x =>
      if c = 0xFF then ⟨f.canon, 0, false⟩
      else
        let r := roundPlain f s.rm n m (x + c - 127)
        ⟨r.1, r.2, false⟩
  vguard (vchecks s ((vd.toNat, g) :: (vaGroups va (groupOf g 8 e) ++ [(vb.toNat, 1)])) va 8 (s.takers m)
      ((e == 16 || e == 32) && s.frmOk) word)
    (cvtEffect vd.toNat e va m (fun _ i => val i) s) s

end Sys2Proof.Machine
end

