-- ==== Sys2Proof/Machine/Fabric.lean ====
section
/-! DEFINITION. How a configuration runs on the fabric: channels, flits and their conversion (R326 to R334), streams
(R337, R348, R349), the LINK instructions (R359 to R367), and how an invocation ends (R350 to R352). Entries are
numbered 128 × page + 16 × cell + channel, cells 8 × page + cell. -/

namespace Sys2Proof.Machine
open Sys2Proof

/-! ## What runs -/

/-- An invocation with its image and placement; none where the binding is not the one it started with. -/
structure Env where
  inv : Inv
  img : FxImage
  conf : Conf
  deriving DecidableEq, Repr
/-- The invocation that strand k runs; on a halted core, and for a strand that is not at work, it stands still (R499). -/
def fxEnv (s : State) (k : Nat) : Option Env :=
  match sfind s.invs k with
  | some i =>
    if i.running && !(s.coreRegs (coreOf k)).halted && !(s.coreRegs (coreOf k)).fenced then
      match (s.slotEntry i.asid i.slot).bound, sfind s.confs (confKeyOf s k i.asid i.slot) with
      | some img, some c => some ⟨i, img, c⟩
      | _, _ => none
    else none
  | none => none
/-- Replace the invocation of a strand. -/
def State.setInv (s : State) (k : Nat) (i : Inv) : State := { s with invs := sput s.invs k i }
/-- Change the invocation of a strand. -/
def State.updInv (s : State) (k : Nat) (f : Inv → Inv) : State :=
  match sfind s.invs k with
  | some i => s.setInv k (f i)
  | none => s
/-- Activity of an invocation starts the deadlock count again (R339). -/
def active339 (i : Inv) : Inv := { i with count := 0, acted := true }

/-- A cell record by its number. -/
def FxImage.cell (g : FxImage) (c : Nat) : Option FxCell :=
  match g.pages[c / 8]? with
  | some p => p.cells[c % 8]?
  | none => none
/-- A route entry by its number. -/
def FxImage.route (g : FxImage) (e : Nat) : Option Route :=
  match g.cell (e / 16) with
  | some c => c.routes.getD (e % 16) none
  | none => none
/-- The number of blocks of a cell. -/
def FxImage.blocks (g : FxImage) (c : Nat) : Nat := (g.cell c).elim 0 (·.cnt)

/-- Cell c of an invocation has finished (R322). -/
def cellDone (s : State) (k c : Nat) (g : FxImage) : Bool := decide (64 * g.blocks c ≤ (s.cell (64 * k + c)).pc.toNat)
/-- The word at a cell's PC, when a frame holds its block. -/
def cellWordAt (s : State) (k c : Nat) : Option Word :=
  let x := s.cell (64 * k + c)
  (x.frames.find? (fun f => f.1 == x.pc.toNat / 64)).bind (fun f => f.2[x.pc.toNat / 4 % 16]?)
/-- A cell may fire (R321, R332, R352, R353): its page is loaded, no stop is to take effect, it has not finished, and no
withdrawn access comes first but a load of its own. -/
def cellMayFire (s : State) (k c : Nat) : Bool :=
  match fxEnv s k with
  | some v => v.inv.stop.isNone && decide (c < 8 * v.img.pages.length) && !v.inv.loading.contains (c / 8) && !cellDone s k c v.img &&
      v.inv.withdrawn.head?.all (fun x => x.cell == c && x.store.isNone)
  | none => false

/-- The withdrawn store of cell c that is to be made again now (R353). -/
def cellReissue (s : State) (k c : Nat) : Option (Dword × Nat × Nat) :=
  match fxEnv s k with
  | some v => if v.inv.stop.isNone then (v.inv.withdrawn.head?.filter (·.cell == c)).bind (·.store) else none
  | none => none
/-- The acting cell's withdrawn store is made again (R353); a fault of it stops the invocation again. -/
def reissueStore (x : Dword × Nat × Nat) (s : State) : Out :=
  runInstr (do
    cellPort x.1 x.2.1
    let s ← get
    storeN s.ctx x.1 x.2.1 x.2.2 0 0
    modify (fun s => (s.setCell s.cellKey { s.cell s.cellKey with wait := {} }).updInv s.key
      (fun i => { active339 i with withdrawn := i.withdrawn.drop 1 }))) s

/-! ## Channels -/

/-- The width that a value of a format has in a flit (R361). -/
def flitBits (fmt : Nat) : Nat :=
  match fmt with
  | 2 => 16 | 3 => 16 | 5 => 8 | 6 => 8 | 7 => 8 | _ => 32
/-- The source that a route format names (R44), none for raw. -/
def fmtSrc (fmt : Nat) : Option CvtSrc :=
  match fmt with
  | 1 => some (.fp fmt32) | 2 => some (.fp fmtBf) | 3 => some (.fp fmt16) | 4 => some (.int true 32) | 5 => some (.int true 8)
  | 6 => some (.fp fmtE4m3) | 7 => some (.fp fmtE5m2) | _ => none
/-- The destination that a route format names (R331). -/
def fmtDst (fmt : Nat) : Option CvtDst :=
  match fmt with
  | 1 => some (.fp fmt32 false) | 2 => some (.fp fmtBf false) | 3 => some (.fp fmt16 false) | 4 => some (.int 32) | 5 => some (.int 8)
  | 6 => some (.fp fmtE4m3 false) | 7 => some (.fp fmtE5m2 false) | _ => none
/-- A flit as it enters the buffer of its receiving entry (R331, R165): converted where the formats differ, with the
generator of the entry drawn once where a stochastic rounding was inexact. -/
def convertFlit (i : Inv) (sf : Nat) (e : Nat) (r : Route) (f : Flit) : Flit × Inv :=
  if f.kind ≠ 0 ∨ sf = r.fmt then (f, i)
  else
    match fmtSrc sf, fmtDst r.fmt with
    | some a, some b =>
      let g := sget 1 i.gens e
      let x := cvtElem a b false ((rmodeOf (BitVec.ofNat 3 r.rm)).getD .rne) (drawBits g) f.data.toNat
      (⟨0, BitVec.ofNat 32 x.bits⟩, if x.drew then { i with gens := sput i.gens e (drawNext g) } else i)
    | _, _ => (f, i)

/-- The flits in a skid buffer: hop h before receiving entry e. -/
def Inv.hop (i : Inv) (e h : Nat) : List Flit := sget [] i.bufs (64 * e + h)
/-- Replace the flits in a skid buffer. -/
def Inv.setHop (i : Inv) (e h : Nat) (l : List Flit) : Inv :=
  { i with bufs := if l.isEmpty then sdel i.bufs (64 * e + h) else sput i.bufs (64 * e + h) l }
/-- The wire of a receiving entry. -/
def Conf.wire (c : Conf) (e : Nat) : Option Wire := c.wires.find? (fun w => w.entry == e)
/-- The sending entry of the channel that ends in entry e. -/
def FxImage.sender (g : FxImage) (e : Nat) : Option Nat := (g.chans.find? (fun q => q.2 == e)).map (·.1)

/-- A link direction of a core may carry a transit flit now (R95, R335): it leaves no page of another partition, or the
process's grant stands as recorded and the meter has a free cycle. -/
def linkFree (s : State) (k : Nat) (c : Conf) (l : Nat) : Bool :=
  !foreignPage s (coreOf k) c.group (linkPage l) ||
  (match sfind s.meters (512 * coreOf k + l) with
   | some t => decide (t + 4 ≤ s.cycle.toNat)
   | none => true)
/-- A transit flit crosses a link direction (R95). -/
def meterLink (s : State) (k : Nat) (c : Conf) (l : Nat) : State :=
  if foreignPage s (coreOf k) c.group (linkPage l) then { s with meters := sput s.meters (512 * coreOf k + l) s.cycle.toNat } else s

/-- The stream port whose buffer an entry takes from (R328, R337): port B or not; none for an entry that ends a channel, or that lies in
another cell than the one named for the port. -/
def streamPort (v : Env) (e : Nat) : Option Bool :=
  match v.img.route e with
  | some r =>
    if r.out ∨ r.port ≠ 4 ∨ (v.img.sender e).isSome then none
    else if r.lch = 0 ∧ v.img.useA ∧ e / 16 = v.img.inA then some false
    else if r.lch = 2 ∧ v.img.useB ∧ e / 16 = v.img.inB then some true
    else none
  | none => none
/-- A stream port of an invocation. -/
def Inv.port (i : Inv) (b : Bool) : FxIn := if b then i.inB else i.inA
/-- Replace a stream port of an invocation. -/
def Inv.setPort (i : Inv) (b : Bool) (p : FxIn) : Inv := if b then { i with inB := p } else { i with inA := p }
/-- The flit at the head of an input channel (R327, R337): from its skid buffer, else from its stream buffer. -/
def headFlit (v : Env) (e : Nat) : Option Flit :=
  match v.img.route e with
  | some r =>
    if r.out then none
    else
      match v.inv.hop e 0 with
      | f :: _ => some f
      | [] => (streamPort v e).bind (fun b => (v.inv.port b).buf.head?)
  | none => none
/-- A stream port after its cell took the head flit. -/
def FxIn.take (p : FxIn) : FxIn := { p with buf := p.buf.drop 1, eosTaken := p.eosTaken || (p.buf.head?).any (fun f => f.kind == 1) }
/-- The state after the head flit of an input channel was taken: FXIDX0 and FXIDX1 count the elements received (R348). -/
def takeHead (s : State) (k : Nat) (v : Env) (e : Nat) : State :=
  match v.inv.hop e 0 with
  | _ :: t => s.setInv k (v.inv.setHop e 0 t)
  | [] =>
    match streamPort v e with
    | some b =>
      let n := if b then 1 else 0
      let p := v.inv.port b
      let data := (p.buf.head?).any (fun f => f.kind == 0)
      let s := s.setInv k (v.inv.setPort b p.take)
      if data then s.upd k (fun t => { t with fxidx := t.fxidx.setIfInBounds n (t.fxidx.getD n 0 + 1) }) else s
    | none => s

/-- An output channel can take a flit (R327, R337). -/
def canSend (s : State) (k : Nat) (v : Env) (e : Nat) : Bool :=
  match v.img.chans.find? (fun q => q.1 == e) with
  | some q =>
    match v.conf.wire q.2 with
    | some w => decide ((v.inv.hop q.2 (w.path.length - 1)).length < 2) && w.path.head?.all (fun l => linkFree s k v.conf l)
    | none => false
  | none => decide (v.inv.out.length < 64)
/-- Send a flit on an output channel that can take it (R361). -/
def sendFlit (s : State) (k : Nat) (v : Env) (e : Nat) (f : Flit) : State :=
  let sf := (v.img.route e).elim 0 (·.fmt)
  let f : Flit := if f.kind = 0 then ⟨0, BitVec.ofNat 32 (f.data.toNat % 2 ^ flitBits sf)⟩ else ⟨f.kind, 0⟩
  match v.img.chans.find? (fun q => q.1 == e) with
  | some q =>
    match v.conf.wire q.2, v.img.route q.2 with
    | some w, some r =>
      let h := w.path.length - 1
      let x := if h = 0 then convertFlit v.inv sf q.2 r f else (f, v.inv)
      let s := s.setInv k (x.2.setHop q.2 h (x.2.hop q.2 h ++ [x.1]))
      match w.path.head? with
      | some l => meterLink s k v.conf l
      | none => s
    | _, _ => s
  | none => s.setInv k { v.inv with out := v.inv.out ++ [f] }

/-! ## LINK instructions (R359 to R365) -/

/-- A LINK instruction: on a strand it is illegal (R111); in a cell it has the effect given, where none means that it waits. -/
def linkInstr (w : Word) (f : State → Nat → Nat → Env → Option State) (s : State) : Out :=
  match s.actor with
  | .strand _ => .next (raise s (illegal w))
  | .cell k c =>
    match fxEnv s k with
    | some v => .next ((f s k c v).getD s)
    | none => .next s
/-- The entry of a channel field of a cell. -/
def chanOf (c : Nat) (r : Reg) : Nat := 16 * c + r.toNat % 16
/-- A flit as a register holds it (R359). -/
def Flit.value (f : Flit) : Dword := BitVec.ofNat 64 (f.kind * 2 ^ 32 + f.data.toNat)
/-- The loop of a configuration that begins at an entry, by its index. -/
def loopAt (v : Env) (e : Nat) : Option (Nat × FxLoop) := (v.img.loops.zipIdx.find? (fun q => q.1.entry == e)).map (fun q => (q.2, q.1))
/-- The admission counter of a loop. -/
def Inv.admitted (i : Inv) (n : Nat) : Int := i.adm.getD n 0
/-- Add to an admission counter. -/
def Inv.addAdm (i : Inv) (n : Nat) (d : Int) : Inv := { i with adm := i.adm.set n (i.admitted n + d) }

/-- recv (R360). -/
def execRecv (d a : Reg) (s : State) : Out :=
  linkInstr (wRecv d a) (fun s k c v =>
    (headFlit v (chanOf c a)).map (fun f => ((takeHead s k v (chanOf c a)).setX d f.value).advance)) s
/-- lpeek (R360). -/
def execLpeek (d a : Reg) (s : State) : Out :=
  linkInstr (wLpeek d a) (fun s _ c v => (headFlit v (chanOf c a)).map (fun f => (s.setX d f.value).advance)) s
/-- A flit sent on a channel, when the channel can take it. -/
def sendOn (s : State) (k : Nat) (v : Env) (e : Nat) (f : Flit) : Option State := if canSend s k v e then some (sendFlit s k v e f) else none
/-- send (R361). -/
def execSend (d a : Reg) (s : State) : Out :=
  linkInstr (wSend d a) (fun s k c v => (sendOn s k v (chanOf c d) ⟨0, (s.x a).extractLsb' 0 32⟩).map (·.advance)) s
/-- send.e (R361). -/
def execSendE (d a : Reg) (s : State) : Out :=
  linkInstr (wSendE d a) (fun s k c v => (sendOn s k v (chanOf c d) ⟨1, 0⟩).map (·.advance)) s
/-- A flit sent by a steer on an exit lowers the counters of its loops (R366). -/
def leaveLoops (s : State) (k e : Nat) (v : Env) : State :=
  s.updInv k (fun i => v.img.loops.zipIdx.foldl (fun i q => if q.1.exits.contains e then i.addAdm q.2 (-1) else i) i)
/-- steer (R362). -/
def execSteer (d a b : Reg) (s : State) : Out :=
  linkInstr (wSteer d a b) (fun s k c v =>
    let e := chanOf c d + (if s.x a = 0 then 0 else 1)
    (sendOn s k v e ⟨0, (s.x b).extractLsb' 0 32⟩).map (fun s => (leaveLoops s k e v).advance)) s
/-- A loop's counter admits a flit from the second channel of its merge (R363). -/
def admits (v : Env) (e : Nat) (f : Flit) : Bool :=
  match loopAt v e with
  | some (n, l) => if f.kind = 1 then v.inv.admitted n == 0 else decide (v.inv.admitted n < l.limit)
  | none => true
/-- merge (R363). -/
def execMerge (d a b : Reg) (s : State) : Out :=
  linkInstr (wMerge d a b) (fun s k c v =>
    match headFlit v (chanOf c a), headFlit v (chanOf c b) with
    | some f, _ => some ((takeHead s k v (chanOf c a)).setX d f.value).advance
    | none, some f =>
      if admits v (chanOf c a) f then
        let s := takeHead s k v (chanOf c b)
        let s :=
          match loopAt v (chanOf c a) with
          | some (n, _) => if f.kind = 1 then s else s.updInv k (·.addAdm n 1)
          | none => s
        some (s.setX d f.value).advance
      else none
    | none, none => none) s
/-- prime (R364). -/
def execPrime (d a : Reg) (s : State) : Out :=
  linkInstr (wPrime d a) (fun s k c v =>
    let e := chanOf c d
    let w := flitBits ((v.img.route e).elim 0 (·.fmt))
    let f : Flit := ⟨0, BitVec.ofNat 32 ((s.x a).toNat % 2 ^ w)⟩
    let put (i : Inv) : Inv := i.setHop e 0 (i.hop e 0 ++ [f])
    if (v.inv.hop e 0).length ≥ 2 then none
    else
      match loopAt v e with
      | some (n, l) => if v.inv.admitted n = l.limit then none else some (s.updInv k (fun i => (put i).addAdm n 1)).advance
      | none => some (s.updInv k put).advance) s
/-- tokw (R365): a flit of another kind ends the invocation with REASON IMAGE. -/
def execTokw (a : Reg) (s : State) : Out :=
  linkInstr (wTokw a) (fun s k c v =>
    (headFlit v (chanOf c a)).map (fun f =>
      if f.kind = 2 then (takeHead s k v (chanOf c a)).advance
      else (s.updInv k (fun i => { i with stop := i.stop.or (some { reason := 6 }) })).setOff (.fabricStop k))) s
/-- toks (R358, R365): every earlier access of the cell has performed. -/
def execToks (d : Reg) (s : State) : Out :=
  linkInstr (wToks d) (fun s k c v => (sendOn s k v (chanOf c d) ⟨2, 0⟩).map (·.advance)) s

/-! ## Flits and streams on their way -/

/-- The hop that FLIT_TRANSFER moves a flit over: the one nearest to the receiver whose next buffer has room (R327, R334,
R335). -/
def hopToMove (s : State) (k : Nat) (v : Env) (e : Nat) (w : Wire) : Option Nat :=
  (upFrom 1 (w.path.length - 1)).find? (fun h =>
    !(v.inv.hop e h).isEmpty && decide ((v.inv.hop e (h - 1)).length < 2) &&
    (w.path[w.path.length - h]?).all (fun l => linkFree s k v.conf l))
/-- A flit moves one hop on the channel that ends in entry e. -/
def moveFlit (s : State) (k : Nat) (v : Env) (e : Nat) : State :=
  match v.conf.wire e, v.img.route e with
  | some w, some r =>
    match hopToMove s k v e w with
    | some h =>
      match v.inv.hop e h with
      | f :: t =>
        let x := if h = 1 then convertFlit v.inv (((v.img.sender e).bind v.img.route).elim 0 (·.fmt)) e r f else (f, v.inv)
        let i := (x.2.setHop e h t).setHop e (h - 1) (x.2.hop e (h - 1) ++ [x.1])
        let s := s.setInv k (active339 i)
        match w.path[w.path.length - h]? with
        | some l => meterLink s k v.conf l
        | none => s
      | [] => s
    | none => s
  | _, _ => s
/-- FLIT_TRANSFER (R327, R334): a flit moves one hop toward channel chan of a cell, where one can. -/
def execFlitTransfer (strand cell chan : Nat) (s : State) : Out :=
  .next (
    match fxEnv s strand with
    | some v => if v.inv.stop.isNone then moveFlit s strand v (16 * cell + chan % 16) else s
    | none => s)

/-- INLEN of a strand's FXSTAT (R354). -/
def inLen (t : Strand) : Nat := t.fxstat.toNat / 2 ^ 32 % 2 ^ 13
/-- A stream port has something to deliver and room for it (R337, R348). -/
def FxIn.ready (p : FxIn) : Bool := !p.eosSent && !p.eosTaken && decide (p.buf.length < 64)
/-- A stream port after it delivered its next flit: an element while there are any, then one end-of-stream flit (R348,
R355). -/
def FxIn.deliver (p : FxIn) (inlen elem : Nat) : FxIn :=
  if p.next < inlen then { p with buf := p.buf ++ [⟨0, BitVec.ofNat 32 elem⟩], next := p.next + 1 }
  else { p with buf := p.buf ++ [⟨1, 0⟩], eosSent := true }
/-- STREAM_INPUT_DELIVERY (R337, R348). -/
def execStreamInputDelivery (strand : Nat) (portB : Bool) (s : State) : Out :=
  .next (
    match fxEnv s strand with
    | some v =>
      let t := s.strand strand
      let p := v.inv.port portB
      if v.inv.stop.isSome ∨ !(if portB then v.img.useB else v.img.useA) ∨ !p.ready then s
      else
        let q := p.deliver (inLen t) (vget s strand (if portB then v.inv.vb else v.inv.va) (ewBits t.vtype) p.next)
        s.setInv strand (active339 (v.inv.setPort portB q))
    | none => s)

/-! ## Endings (R350 to R352) -/

/-- The deferred barrier arrival of a strand has to wait for a home (R303): at a linked barrier it is a release at cluster scope
(R415). -/
def arrivalWaits (s : State) (k : Nat) : Bool :=
  match (s.strand k).deferred, s.groupOf k with
  | some n, some g => decide (n < g.barCount) && (g.bar n).link && releaseWaits s g.core .cluster
  | _, _ => false
/-- The deferred barrier arrival of a strand arrives (R415). -/
def arriveDeferred (s : State) (k : Nat) : State :=
  match (s.strand k).deferred, (s.strand k).place with
  | some n, some p =>
    let s := s.upd k (fun t => { t with deferred := none })
    match sfind s.groups p.group with
    | some g => if n < g.barCount then arriveAt (if (g.bar n).link then release s g.core .cluster else s) p.group n false false else s
    | none => s
  | _, _ => s
/-- Elements of vd at or above the output position follow TA (R349, R232). -/
def outputTail (s : State) (k vd : Nat) : State :=
  let t := s.strand k
  let n := (t.fxidx[2]).toNat
  if vtTa t.vtype then vputs s k vd (ewBits t.vtype) ((upFrom n (vlmaxOf t.vtype - n)).map (fun i => (i, 0))) else s
/-- FXSTAT after an ending (R354). -/
def fxstatOf (old : Dword) (slot reason cause page cell : Nat) (pend resume left : Bool) : Dword :=
  BitVec.ofNat 64 (old.toNat / 2 ^ 32 % 2 ^ 13 * 2 ^ 32 + cause % 256 * 2 ^ 24 + slot % 32 * 2 ^ 12 + page % 8 * 2 ^ 9 + cell % 8 * 2 ^ 6 +
    (if pend then 32 else 0) + (if resume then 16 else 0) + (if left then 8 else 0) + reason % 8)
/-- The fx of strand k completes: VL takes the output count, VSTART is 0, and the strand goes on (R346, R350), after the rest of a
chain record that it belongs to (R190). -/
def fxDone (s : State) (k : Nat) : State :=
  s.upd k (fun t => ({ (t.setVl (t.fxidx[2]).toNat) with vstart := 0, pc := t.pc + 4, wait := {} } : Strand).chainDone)
/-- The frames of a running invocation's cells stay with the contexts of its configuration (R321, R332). -/
def keepFrames (s : State) (k : Nat) : State :=
  match fxEnv s k with
  | some v =>
    let fr := (List.range (8 * v.img.pages.length)).filterMap (fun c =>
      let f := (s.cell (64 * k + c)).frames
      if f.isEmpty then none else some (c, f))
    { s with confs := sput s.confs (confKeyOf s k v.inv.asid v.inv.slot) { v.conf with frames := fr } }
  | none => s
/-- The strand's invocation leaves nothing behind but the contexts that its configuration has loaded. -/
def dropInv (s : State) (k : Nat) : State :=
  let s := keepFrames s k
  { s with invs := sdel s.invs k, cells := s.cells.filter (fun p => p.1 / 64 != k) }
/-- FXIDX3, FXSTAT and what they record of the stopping cell (R351). -/
def recordEnd (s : State) (k : Nat) (v : Env) (cell : Option Nat) (reason cause : Nat) (pend resume left : Bool) : State :=
  let c := cell.getD (if v.img.useOut then v.img.out else 0)
  let page := (v.img.pages[c / 8]?).elim 0 (·.num)
  let x14 := (s.cell (64 * k + c)).x.getD 14 0
  s.upd k (fun t => { t with fxidx := t.fxidx.set 3 (x14.extractLsb' 0 32)
                             fxstat := fxstatOf t.fxstat v.inv.slot reason cause page (c % 8) pend resume left })
/-- The store that cell c of strand k has at its PC, if that is what it has: address, bytes and value (R132). -/
def cellStore (s : State) (k c : Nat) : Option (Dword × Nat × Nat) :=
  let x := (s.cell (64 * k + c)).x
  (cellWordAt s k c).bind (fun w =>
    if w.toNat / 2 ^ 26 = 0x0C then
      let n := 2 ^ (fld w 13 3 : BitVec 3).toNat
      some (effAddr (readCX x (fa w)) (foff13 w) n, n, (readCX x (fd w)).toNat % 2 ^ (8 * n))
    else none)
/-- The cells whose accesses a stop withdraws, in the order of their issue (R352); those that a continue has not made again yet are
noted already. -/
def withdrawnCells (s : State) (k : Nat) (i : Inv) : List Nat :=
  let waits := (s.cells.filter (fun (p : Nat × CellCtx) => p.1 / 64 == k && p.2.wait.seq != 0 &&
    !i.withdrawn.any (fun x => x.cell == p.1 % 64))).map (fun p => (p.2.wait.seq, p.1 % 64))
  (waits.foldl (fun l p => insertBy (fun (a b : Nat × Nat) => decide (a.1 < b.1)) p l) []).map (·.2)
/-- A cell after its access was withdrawn: past a store, at a load (R352). -/
def withdrawCell (s : State) (k c : Nat) : State :=
  let j := 64 * k + c
  if (cellStore s k c).isSome then s.setCell j { s.cell j with pc := (s.cell j).pc + 4 } else s
/-- The stop state of an invocation (R352): LINK instructions that wait stay unbegun, accesses that have not performed are
withdrawn, a store with its cell past it, elements in the stream buffers are discarded; what the pages have loaded stays loaded. -/
def holdState (s : State) (k : Nat) (i : Inv) : State :=
  let cs := withdrawnCells s k i
  let wd := i.withdrawn ++ cs.map (fun c => { cell := c, store := cellStore s k c })
  let s := cs.foldl (fun s c => withdrawCell s k c) s
  let s := keepFrames s k
  let s := { s with cells := s.cells.map (fun (p : Nat × CellCtx) => if p.1 / 64 = k then (p.1, { p.2 with wait := {}, frames := [] }) else p) }
  s.setInv k { i with
    running := false, stop := none, loading := [], count := 0
    inA := { i.inA with buf := [] }, inB := { i.inB with buf := [] }
    withdrawn := wd }
/-- The cause of a stop other than FAULT (R351). -/
def stopCause (reason : Nat) : Cause :=
  match reason with
  | 4 => .fabricDeadlock | 5 => .fabricUnbound | _ => .fabricImage
/-- A stop takes effect (R351, R352). -/
def applyStop (s : State) (k : Nat) (v : Env) (st : FxStop) : State :=
  let idx2 := ((s.strand k).fxidx[2]).toNat
  match st.reason with
  | 1 => fxDone (holdState (recordEnd s k v st.cell 1 0 false true false) k v.inv) k
  | 2 =>
    match st.trap with
    | some t => raiseAt (holdState (recordEnd s k v st.cell 2 t.cause.code.toNat true true false) k v.inv) k { t with elem := idx2 }
    | none => s
  | 3 => holdState (recordEnd s k v st.cell 3 0 true true false) k v.inv
  | r =>
    let s := recordEnd s k v st.cell r (stopCause r).code.toNat false false false
    let s := if r = 4 then s.upd k (fun t => { t with e := { t.e with fxwdFired := true } }) else s
    raiseAt (arriveDeferred (dropInv s k) k) k ⟨stopCause r, BitVec.ofNat 64 v.inv.slot, idx2⟩
/-- FABRIC_STOP (R352): a stop that an invocation met takes effect. -/
def execFabricStop (strand : Nat) (s : State) : Out :=
  .next (
    match fxEnv s strand with
    | some v =>
      match v.inv.stop with
      | some st => if 4 ≤ st.reason ∧ arrivalWaits s strand then s else applyStop s strand v st
      | none => s
    | none => s)

/-- STREAM_OUTPUT_TAKE (R349): the output port takes the next flit: an element into vd, or the end of the stream; at
VLMAX elements a further one stops the invocation with CAPACITY, and a token with IMAGE. -/
def execStreamOutputTake (strand : Nat) (s : State) : Out :=
  .next (
    match fxEnv s strand with
    | some v =>
      let t := s.strand strand
      let n := (t.fxidx[2]).toNat
      if v.inv.stop.isSome ∨ v.inv.outEos ∨ !v.img.useOut then s
      else
        match v.inv.out with
        | [] => s
        | f :: rest =>
          if f.kind = 1 then s.setInv strand (active339 { v.inv with out := rest, outEos := true })
          else if f.kind = 2 then (s.setInv strand { v.inv with stop := some { reason := 6 } }).setOff (.fabricStop strand)
          else if n ≥ vlmaxOf t.vtype then applyStop s strand v { reason := 1 }
          else
            let s := s.setInv strand (active339 { v.inv with out := rest })
            (vput s strand v.inv.vd (ewBits t.vtype) n (f.data.toNat % 2 ^ ewBits t.vtype)).upd strand
              (fun t => { t with fxidx := t.fxidx.set 2 (t.fxidx[2] + 1) })
    | none => s)

/-- A cell waits in recv, merge, tokw or lpeek on channels with no flit that it can take (R350). -/
def cellWaits (s : State) (k c : Nat) (v : Env) : Bool :=
  let q (n : Nat) : Bool := (headFlit v (16 * c + n)).isNone
  match (cellWordAt s k c).bind cellOp with
  | some (.recv a) => q a
  | some (.lpeek a) => q a
  | some (.tokw a) => q a
  | some (.merge a b) =>
    q a && (q b ||
      match headFlit v (16 * c + b) with
      | some f => !admits v (16 * c + a) f
      | none => false)
  | _ => false
/-- The conditions of R350. -/
def invComplete (s : State) (k : Nat) (v : Env) : Bool :=
  v.inv.stop.isNone && v.inv.loading.isEmpty && v.inv.withdrawn.isEmpty && (v.inv.outEos || !v.img.useOut) &&
  (List.range (8 * v.img.pages.length)).all (fun c =>
    (s.cell (64 * k + c)).wait.seq == 0 && (s.cell (64 * k + c)).wait.since.isNone && (cellDone s k c v.img || cellWaits s k c v))
/-- INVOCATION_COMPLETE (R350): the fx ends with DONE, VL := FXIDX2; the deferred barrier arrival goes with it (R415). -/
def execInvocationComplete (strand : Nat) (s : State) : Out :=
  .next (
    match fxEnv s strand with
    | some v =>
      if invComplete s strand v && !arrivalWaits s strand then
        let left := !v.inv.bufs.isEmpty || !v.inv.out.isEmpty || !v.inv.inA.buf.isEmpty || !v.inv.inB.buf.isEmpty
        let s := if v.img.useOut then outputTail s strand v.inv.vd else s
        arriveDeferred (fxDone (dropInv (recordEnd s strand v none 0 0 false false left) strand) strand) strand
      else s
    | none => s)
/-- The count of an invocation has reached 2^20 (R340); a pre-emption that strikes its strand comes first (R356). -/
def deadlocked (s : State) (k : Nat) (v : Env) : Bool :=
  v.inv.stop.isNone && decide (2 ^ 20 ≤ v.inv.count) && (s.strand k).status != .stopping
/-- FABRIC_DEADLOCK (R340). -/
def execFabricDeadlock (strand : Nat) (s : State) : Out :=
  .next (
    match fxEnv s strand with
    | some v => if deadlocked s strand v && !arrivalWaits s strand then applyStop s strand v { reason := 4 } else s
    | none => s)

/-- A LINK instruction of a cell can complete now (R360 to R365); any other instruction can. -/
def linkReady (s : State) (k c : Nat) (v : Env) (w : Word) : Bool :=
  let head (n : Nat) : Bool := (headFlit v (16 * c + n)).isSome
  match cellOp w with
  | some (.recv a) => head a
  | some (.lpeek a) => head a
  | some (.tokw a) => head a
  | some (.send d) => canSend s k v (16 * c + d)
  | some (.toks d) => canSend s k v (16 * c + d)
  | some (.steer d) => canSend s k v (16 * c + d + (if readCX (s.cell (64 * k + c)).x (fa w) = 0 then 0 else 1))
  | some (.merge a b) => head a || (headFlit v (16 * c + b)).any (admits v (16 * c + a))
  | some (.prime d) =>
    decide ((v.inv.hop (16 * c + d) 0).length < 2) && (loopAt v (16 * c + d)).all (fun q => v.inv.admitted q.1 != q.2.limit)
  | _ => true
/-- A cell waits to send or receive (R339). -/
def linkWaits (s : State) (k c : Nat) (v : Env) : Bool :=
  !cellDone s k c v.img && (cellWordAt s k c).any (fun w => !linkReady s k c v w)
/-- Something of the invocation can act in this cycle (R339): a cell fires, a flit moves, or a stream port moves an element. -/
def fxCanAct (s : State) (k : Nat) (v : Env) : Bool :=
  (List.range (8 * v.img.pages.length)).any (fun c =>
    cellMayFire s k c && (s.cell (64 * k + c)).wait.seq == 0 && (cellWordAt s k c).any (linkReady s k c v)) ||
  v.conf.wires.any (fun w => (hopToMove s k v w.entry w).isSome) ||
  (v.img.useA && v.inv.inA.ready) || (v.img.useB && v.inv.inB.ready) || (v.img.useOut && !v.inv.outEos && !v.inv.out.isEmpty)

/-- The invocation has a memory request outstanding (R339): a page load, a block fetch, or an access that waits, also one that stalls in
chrysalis (R448). -/
def fxOutstanding (s : State) (k : Nat) (v : Env) : Bool :=
  !v.inv.loading.isEmpty || !v.inv.withdrawn.isEmpty ||
  (List.range (8 * v.img.pages.length)).any (fun c =>
    (s.cell (64 * k + c)).wait.seq != 0 || (s.cell (64 * k + c)).wait.since.isSome || (!cellDone s k c v.img && (cellWordAt s k c).isNone))
/-- The invocation holds a flit, or a cell waits to send or receive (R339). -/
def fxHolds (s : State) (k : Nat) (v : Env) : Bool :=
  !v.inv.bufs.isEmpty || !v.inv.out.isEmpty || !v.inv.inA.buf.isEmpty || !v.inv.inB.buf.isEmpty ||
  (List.range (8 * v.img.pages.length)).any (fun c => linkWaits s k c v)
/-- n cycles pass for one invocation (R339, R340): its count is 0 where it has acted or can act, stands while a request of it is
outstanding, and rises while it holds a flit or a cell waits; at 2^20 the invocation is to end. -/
def countInv (s : State) (k n : Nat) (v : Env) : State :=
  if v.inv.stop.isSome then s
  else if v.inv.acted || fxCanAct s k v then s.setInv k { v.inv with count := 0, acted := false }
  else if fxOutstanding s k v || !fxHolds s k v then s
  else
    let i := { v.inv with count := min (2 ^ 20) (v.inv.count + n) }
    if deadlocked s k { v with inv := i } then (s.setInv k { i with stop := some { reason := 4 } }).setOff (.fabricStop k) else s.setInv k i
/-- n cycles pass for the running invocations. -/
def countDeadlock (s : State) (n : Nat) : State :=
  s.invs.foldl (fun s p =>
    match fxEnv s p.1 with
    | some v => countInv s p.1 n v
    | none => s) s

/-! ## Loading contexts and blocks (R323, R324, R332) -/

/-- Read block b of a cell through the core's L1 instruction cache (R323): its words, or the trap with the address of the
block. -/
def readBlock (c : Ctx) (g : FxCell) (b : Nat) : M (List Word) := fun s =>
  let a : Dword := g.blk + BitVec.ofNat 64 (64 * b)
  match (collectM (List.range 16) (fun i => do
    let ea := a + BitVec.ofNat 64 (4 * i)
    let t ← resolve c ea 4 .read 0 0
    forbidClass (· == .d) t ea 0
    match t with
    | .glob pa cls => fetchPhys c pa cls ea 0
    | .late _ x => trapM x ea 0
    | .loc _ => pure 0
    | .dev _ => pure 0) : M (List Word)) s with
  | .ok l s' => .ok l s'
  | .error (.trap t) s' => .error (.trap { t with addr := a }) s'
  | .error .wait s' => .error .wait s'

/-- A stop that a cell meets, with its trap or none. -/
def meetStop (s : State) (k c reason : Nat) (t : Option TrapInfo) : State :=
  (s.updInv k (fun i => { i with stop := i.stop.or (some ⟨reason, t, some c⟩) })).setOff (.fabricStop k)
/-- Fetch block b of cell c of strand k into a frame (R323, R324): the frame used least recently makes room. A fault stops
the invocation with FAULT, a word that no cell executes with IMAGE; a fetch that waits leaves no trace. -/
def fetchBlock (k c b : Nat) (g : FxCell) (s : State) : State :=
  let old := s.actor
  let s := { s with actor := .cell k c }
  let s :=
    match readBlock s.ctx g b s with
    | .ok l s =>
      if l.all (fun w => (cellOp w).isSome) then
        let j := 64 * k + c
        s.setCell j { s.cell j with frames := ((b, l) :: (s.cell j).frames.filter (fun f => f.1 != b)).take 4, wait := {} }
      else meetStop s k c 6 none
    | .error (.trap t) s => meetStop s k c 2 (some t)
    | .error .wait s => s
  { s with actor := old }
/-- PAGE_CONTEXT_LOAD_COMPLETE (R323, R332): the frames of a page's cells hold BLK0 and the next three blocks. -/
def execPageContextLoadComplete (strand page : Nat) (s : State) : Out :=
  .next (
    match fxEnv s strand with
    | some v =>
      if v.inv.stop.isSome ∨ !v.inv.loading.contains page then s
      else
        let key := confKeyOf s strand v.inv.asid v.inv.slot
        let s := s.updInv strand (fun i => { i with loading := nsErase i.loading page })
        let s := { s with confs := sput s.confs key { v.conf with loaded := nsInsert v.conf.loaded page } }
        (List.range 8).foldl (fun s k =>
          match v.img.cell (8 * page + k) with
          | some g =>
            ((upFrom g.blk0 (min 4 (g.cnt - g.blk0))).reverse).foldl (fun s b => fetchBlock strand (8 * page + k) b g s) s
          | none => s) s
    | none => s)
/-- BLOCK_FETCH_COMPLETE (R323, R324): the block that a cell has entered and no frame holds arrives. -/
def execBlockFetchComplete (strand cell : Nat) (s : State) : Out :=
  .next (
    match fxEnv s strand with
    | some v =>
      if v.inv.stop.isSome ∨ v.inv.loading.contains (cell / 8) ∨ cellDone s strand cell v.img ∨ (cellWordAt s strand cell).isSome then s
      else
        match v.img.cell cell with
        | some g => fetchBlock strand cell ((s.cell (64 * strand + cell)).pc.toNat / 64) g s
        | none => s
    | none => s)

end Sys2Proof.Machine
end

