-- ==== Sys2Proof/Machine/Fx.lean ====
section
/-! DEFINITION. Binding configurations (FXC, R341 to R345) and invoking them (fx, R346 to R355). -/

namespace Sys2Proof.Machine
open Sys2Proof

/-! ## Binding (R342 to R345) -/

/-- The number of a bound slot that xa names in the acting process, if it does. -/
def boundSlot (s : State) (a : Dword) : Option Nat :=
  if a.toNat < 32 ∧ (s.slotEntry s.me.e.asid a.toNat).bound.isSome then some a.toNat else none

/-- Another strand than k is binding a slot of a slot table, whose STATE is 1 (R342). -/
def bindingElsewhere (s : State) (k slot : Nat) : Bool := s.strands.any (fun p => p.1 != k && p.2.wait.bind == some slot)
/-- The effect of fxbind (R342): STATE is 1 while the image is loaded and checked, which may wait; then the slot is bound with a new
generation. -/
def bindInstr (d a b : Reg) : M Unit := do
  let s ← get
  let n := (s.x a).toNat
  let slot := 32 * s.me.e.asid.toNat + n
  if n ≥ 32 then modify (fun s => (s.setX d 2).advance)
  else if (boundSlot s (s.x a)).isSome || bindingElsewhere s s.key slot then modify (fun s => (s.setX d 1).advance)
  else do
    modify (fun s => s.setWait { s.waitOf with bind := some slot })
    let img ← loadConf (s.x b).toNat
    modify (fun u =>
      ({ u with slots := sput u.slots (32 * u.me.e.asid.toNat + n) { image := s.x b, gen := u.fxGen, bound := some img }
                fxGen := u.fxGen + 1 }.setX d 0).advance)
/-- fxbind (R342). -/
def execFxbind (d a b : Reg) (s : State) : Out := runInstr (bindInstr d a b) s

/-- A stop state held by strand k is discarded: the deferred arrival that it held arrives (R353, R415). -/
def discardStop (s : State) (k : Nat) : State :=
  match sfind s.invs k with
  | some i =>
    let s := (dropInv s k).upd k (fun t => { t with fxstat := t.fxstat &&& ~~~(0x30 : Dword) })
    if i.token then arriveDeferred s k else s
  | none => s
/-- A strand holds a stop state (R352). -/
def holdsStop (s : State) (k : Nat) : Bool := (sfind s.invs k).any (fun i => !i.running)
/-- The invocation or stop state of strand k ends with its binding (R343). -/
def unbindInv (s : State) (k : Nat) : State :=
  match fxEnv s k with
  | some v => applyStop s k v { reason := 5 }
  | none => discardStop s k
/-- The strands that run an invocation of a slot of a process, or hold its stop state. -/
def slotUsers (s : State) (a : BitVec 16) (n : Nat) : List Nat := (s.invs.filter (fun p => p.2.asid == a && p.2.slot == n)).map (·.1)
/-- The binding of a slot ends (R343). -/
def unbind (s : State) (a : BitVec 16) (n : Nat) : State :=
  let s := (slotUsers s a n).foldl unbindInv s
  { s with confs := s.confs.filter (fun p => p.1 % 2 ^ 21 != 32 * a.toNat + n), slots := sdel s.slots (32 * a.toNat + n) }
/-- fxunbind (R343): it waits where a deferred arrival that it brings on has to wait for a home (R303). -/
def execFxunbind (a : Reg) (s : State) : Out :=
  .next (match boundSlot s (s.x a) with
    | some n => if (slotUsers s s.me.e.asid n).any (arrivalWaits s) then s.block else (unbind s s.me.e.asid n).advance
    | none => s.advance)

/-- What fxstat writes (R344). -/
def fxstatWord (s : State) (a : Dword) : Dword :=
  match boundSlot s a with
  | none => 0
  | some n =>
    let b := bindKey s.core s.me.e.asid n
    let c := bindConfs s b
    ((1 : Dword) <<< 12) ||| (if c.any (·.pinned) then 1 <<< 11 else 0) ||| (if bindRunning s b then 1 <<< 10 else 0) |||
      (if c.any (·.split) then 1 <<< 9 else 0) ||| (if c.isEmpty then 0 else 1 <<< 8) |||
      (c.flatMap (·.pages)).foldl (fun (v : Dword) p => v ||| (1 <<< p)) 0
/-- fxstat (R344). -/
def execFxstat (d a : Reg) (s : State) : Out := .next (s.setX d (fxstatWord s (s.x a))).advance
/-- The binding is pinned on some core (R345). -/
def anyPin (s : State) (a : BitVec 16) (n : Nat) : Bool := s.confs.any (fun p => p.1 % 2 ^ 21 == 32 * a.toNat + n && p.2.pinned)
/-- What fxquery writes (R344, R52). -/
def fxqueryWord (s : State) (a b : Dword) : Dword :=
  match boundSlot s a with
  | none => if b = 1 ∧ s.strands.any (fun p => p.2.wait.bind == some (32 * s.me.e.asid.toNat + a.toNat)) ∧ a.toNat < 32 then 1 else 0
  | some n => if b = 0 then (s.slotEntry s.me.e.asid n).image else if b = 1 then (if anyPin s s.me.e.asid n then 0x102 else 2) else 0
/-- fxquery (R344). -/
def execFxquery (d a b : Reg) (s : State) : Out := .next (s.setX d (fxqueryWord s (s.x a) (s.x b))).advance
/-- Pin a placed configuration. -/
def pinConf (s : State) (key : Nat) : State :=
  match sfind s.confs key with
  | some c => { s with confs := sput s.confs key { c with pinned := true } }
  | none => s
/-- No configuration of a binding is pinned on its core any more. -/
def unpinConfs (s : State) (b : Nat) : State :=
  { s with confs := s.confs.map (fun (q : Nat × Conf) => if q.1 % 2 ^ 28 = b then (q.1, { q.2 with pinned := false }) else q) }
/-- fxpin (R345). -/
def execFxpin (d a : Reg) (s : State) : Out :=
  .next (match boundSlot s (s.x a) with
    | none => (s.setX d 1).advance
    | some n =>
      let r := placeConf s s.key s.me.e.asid n false
      if r.1 then ((pinConf r.2 (confKeyOf s s.key s.me.e.asid n)).setX d 0).advance else (r.2.setX d 2).advance)
/-- fxunpin (R345). -/
def execFxunpin (a : Reg) (s : State) : Out :=
  .next (match boundSlot s (s.x a) with
    | some n => (unpinConfs s (bindKey s.core s.me.e.asid n)).advance
    | none => s.advance)

/-! ## Invoking (R346 to R348, R353) -/

/-- FXSTAT.SLOT and FXSTAT.PEND of a strand (R354). -/
def fxSlot (t : Strand) : Nat := t.fxstat.toNat / 2 ^ 12 % 32
def fxPend (t : Strand) : Bool := t.fxstat.getLsbD 5
/-- The checks of fx on a bound slot (R346, R112). -/
def fxChecks (s : State) (img : FxImage) (vd va vb : Reg) (w : Word) : Except Stop Unit := do
  groupsOk s.me ([(vd.toNat, s.grp)] ++ (if img.useA then [(va.toNat, s.grp)] else []) ++ (if img.useB then [(vb.toNat, s.grp)] else []))
  legal (decide (s.ew ≠ 64)) w

/-- The stop state that an fx continues (R353): c says whether the fx is the continue form. -/
def resumed (s : State) (k slot : Nat) (c : Bool) : Option Inv :=
  let t := s.strand k
  (sfind s.invs k).filter (fun i =>
    !i.running && fxSlot t == slot && i.slot == slot && i.asid == t.e.asid && i.gen == (s.slotEntry i.asid slot).gen && (c || fxPend t))
/-- Every cell of an image at the start of an invocation (R321): registers zero, the PC at BLK0. -/
def freshCells (k : Nat) (img : FxImage) (cells : Sparse CellCtx) : Sparse CellCtx :=
  (List.range (8 * img.pages.length)).foldl (fun l c =>
    sput l (64 * k + c) { pc := BitVec.ofNat 64 (64 * (img.cell c).elim 0 (·.blk0)) }) (cells.filter (fun p => p.1 / 64 != k))
/-- The entries of an image. -/
def FxImage.entries (g : FxImage) : List Nat := List.range (128 * g.pages.length)
/-- A receiving entry of local channel 3 (R328) that is no result channel of a call site (R336). -/
def scalarEntry (g : FxImage) (e : Nat) : Bool := (g.route e).any (fun r => r.port == 4 && r.lch == 3 && !r.out) && (g.sender e).isNone
/-- The generator of a receiving entry at the start (R165): seeded for its position in the image. -/
def entrySeed (g : FxImage) (seed : Dword) (e : Nat) : Word :=
  seedLane seed (8 * ((g.pages[e / 128]?).elim 0 (·.num)) + e / 16 % 8 + 64 * (e % 16))
/-- A new invocation (R348): every counter 0, the scalar in the local channels 3. -/
def freshInv (img : FxImage) (a : BitVec 16) (slot gen : Nat) (seed : Dword) (xs : Word) : Inv :=
  { asid := a, slot := slot, gen := gen
    bufs := (img.entries.filter (scalarEntry img)).map (fun e => (64 * e, [⟨0, xs⟩]))
    adm := img.loops.map (fun _ => 0)
    gens := (img.entries.filter (fun e => (img.route e).any (fun r => r.rm == 5 && !r.out))).map (fun e => (e, entrySeed img seed e)) }
/-- FXSTAT, FXIDX0 to FXIDX2 and VSTART of a strand when its fx starts (R346, R348, R353). -/
def startRegs (t : Strand) (slot : Nat) (c cont : Bool) : Strand :=
  let keep := c || cont
  let len := if keep then inLen t else t.vl.toNat
  let i0 := if keep then t.fxidx[0] else 0
  let i1 := if keep then t.fxidx[1] else 0
  let i2 := if cont && !c && fxPend t then t.fxidx[2] else 0
  { t with vstart := 0, fxstat := BitVec.ofNat 64 (len * 2 ^ 32 + slot * 2 ^ 12)
           fxidx := ((t.fxidx.set 0 i0).set 1 i1).set 2 i2 }
/-- The cells of strand k's invocation find in their frames what their loaded contexts hold (R332). -/
def loadedFrames (k : Nat) (cf : Conf) (cells : Sparse CellCtx) : Sparse CellCtx :=
  cells.map (fun (p : Nat × CellCtx) =>
    if p.1 / 64 = k ∧ cf.loaded.contains (p.1 % 64 / 8) then (p.1, { p.2 with frames := sget [] cf.frames (p.1 % 64) }) else p)
/-- The flits of a stop state in the skid buffers of a placement (R353): where the channel that ends in an entry has become shorter, the
flits of the hops that it lost follow, in order, those of its first hop (assumption 63). -/
def rehopWire (img : FxImage) (i : Inv) (w : Wire) : Inv :=
  let h := w.path.length - 1
  let far := (upFrom (h + 1) (63 - h)).flatMap (i.hop w.entry)
  if far.isEmpty then i
  else
    let i := { i with bufs := i.bufs.filter (fun p => !(p.1 / 64 == w.entry && decide (h < p.1 % 64))) }
    far.foldl (fun i f =>
      match img.route w.entry with
      | some r =>
        let x := if h = 0 then convertFlit i (((img.sender w.entry).bind img.route).elim 0 (·.fmt)) w.entry r f else (f, i)
        x.2.setHop w.entry h (x.2.hop w.entry h ++ [x.1])
      | none => i) i
/-- The invocation of strand k starts, new or continued (R348, R353), on a configuration that is placed: the pages whose contexts are
not loaded begin to load them (R332). -/
def startInv (s : State) (k : Nat) (img : FxImage) (slot : Nat) (c : Bool) (vd va vb : Reg) (xs : Word) : State :=
  let t := s.strand k
  let held := resumed s k slot c
  let i := held.getD (freshInv img t.e.asid slot (s.slotEntry t.e.asid slot).gen t.srseed xs)
  let s := if held.isSome then s else { s with cells := freshCells k img s.cells }
  let s := s.upd k (fun t => startRegs t slot c held.isSome)
  let t' := s.strand k
  let inp (p : FxIn) (n : Nat) : FxIn := { buf := [], next := n, eosSent := p.eosTaken, eosTaken := p.eosTaken }
  let key := confKeyOf s k t.e.asid slot
  let cf := sfind s.confs key
  let i := cf.elim i (fun cf => cf.wires.foldl (rehopWire img) i)
  let s := s.setInv k { i with
    running := true, vd := vd.toNat, va := va.toNat, vb := vb.toNat
    loading := (List.range img.pages.length).filter (fun p => !cf.any (·.loaded.contains p))
    inA := inp i.inA (t'.fxidx[0]).toNat, inB := inp i.inB (t'.fxidx[1]).toNat
    count := 0, acted := false, token := t.deferred.isSome, stop := none }
  match cf with
  | some cf => { s with cells := loadedFrames k cf s.cells, confs := sput s.confs key { cf with last := s.tick } }
  | none => s
/-- The fx of strand k finds no room (R346, R351 FULL): its positions and what R351 records of the stopping cell are written, the stop
state is gone, and the deferred arrival arrives. -/
def fxFull (s : State) (k slot : Nat) (img : FxImage) (c : Bool) : State :=
  let held := resumed s k slot c
  let o := if img.useOut then img.out else 0
  let x14 := if held.isSome then (s.cell (64 * k + o)).x.getD 14 0 else 0
  let s := (dropInv s k).upd k (fun t =>
    let t := startRegs t slot c held.isSome
    { t with fxidx := t.fxidx.set 3 (x14.extractLsb' 0 32)
             fxstat := fxstatOf t.fxstat slot 7 Cause.fabricFull.code.toNat ((img.pages[o / 8]?).elim 0 (·.num)) (o % 8) false false false })
  raise (arriveDeferred s k) ⟨.fabricFull, BitVec.ofNat 64 slot, ((s.strand k).fxidx[2]).toNat⟩
/-- A stop state of another slot is discarded before anything else (R353). -/
def discardSlot (s : State) (k slot : Nat) : State := if holdsStop s k ∧ fxSlot (s.strand k) ≠ slot then discardStop s k else s
/-- A stop state that the fx does not continue is discarded before it starts (R353). -/
def discardOther (s : State) (k slot : Nat) (c : Bool) : State :=
  if (sfind s.invs k).isSome ∧ (resumed s k slot c).isNone then discardStop s k else s

/-- fx and fx.c (R346 to R348, R353): the strand waits at the fx while its invocation runs, while another invocation of the
configuration runs on the core, and while the configuration is being moved. -/
def fxInstr (c : Bool) (slot vd va vb xs : Reg) (w : Word) (s : State) : Out :=
  let k := s.key
  let n := slot.toNat
  .next (
    if (sfind s.invs k).any (·.running) || arrivalWaits s k then s.block
    else
      let s := discardSlot s k n
      match (s.slotEntry s.me.e.asid n).bound with
      | none => raise (arriveDeferred s k) ⟨.fabricUnbound, BitVec.ofNat 64 n, 0⟩
      | some img =>
        match fxChecks s img vd va vb w with
        | .error (.trap t) => raise s t
        | .error .wait => s.block
        | .ok _ =>
          if bindRunning s (bindKey s.core s.me.e.asid n) ∨ (sfind s.confs (confKeyOf s k s.me.e.asid n)).any (fun q => !q.moving.isEmpty) then
            s.block
          else
            let s1 := discardOther s k n c
            let r := placeConf s1 k s1.me.e.asid n true
            if r.1 then (startInv r.2 k img n c vd va vb ((s.x xs).extractLsb' 0 32)).issue.block else fxFull r.2 k n img c)
/-- fx (R346). -/
def execFx (slot vd va vb xs : Reg) (s : State) : Out := fxInstr false slot vd va vb xs (wFx slot vd va vb xs) s
/-- fx.c (R346, R353). -/
def execFxC (slot vd va vb xs : Reg) (s : State) : Out := fxInstr true slot vd va vb xs (wFxC slot vd va vb xs) s

end Sys2Proof.Machine
end

