-- ==== Sys2Proof/Machine/Cocoons.lean ====
section
/-! DEFINITION. Writebacks to a home (R304, R310) and the cocoon instructions (CC, R306 to R312, R49, R50). -/

namespace Sys2Proof.Machine
open Sys2Proof

/-- Word i of a cocoon, whose sector is translated, is written back and becomes clean; into a lost range it is dropped and
poisoned, and a registration of it on its way comes to nothing (R310, R319); else such a registration reaches the home first. -/
def cocoonBack (ck i : Nat) (s : State) : State :=
  match sfind s.cocoons ck with
  | none => s
  | some c =>
    match sfind c.tr (i / 16) with
    | none => s
    | some t =>
      let w := t.pa / 4 + i % 16
      let f := cocoonFlat s c i
      let core := coreOf c.strand
      if isLost s w then
        { (dropPending s core w).setCocoon ck { c with dirty := nsErase c.dirty i, dropped := true } with
          poison := nsInsert s.poison (f / 4)
          reg := if heldBy s w core then sdel s.reg w else s.reg }
      else
        let s := drainWord s core w
        -- an earlier registrant of the word loses its copy, as at any write that performs at the home
        let s := match sfind s.reg w with
          | some r => if r.holder = core then s else dropCopy s r.holder w
          | none => s
        let s := dropDie (putHome s w (BitVec.ofNat 32 (Mem.readN s.mem f 4))) (dieOf core) w
        { s with
          poison := if s.poison.contains (f / 4) then nsInsert s.poison w else nsErase s.poison w
          cocoons := s.cocoons.map (fun p => if p.1 = ck then (p.1, { p.2 with dirty := nsErase p.2.dirty i }) else p) }

/-- Every dirty word of a cocoon is written back (R310): a fault of a translation leaves the rest dirty, and a region that its
home serves for another agent makes the instruction wait. -/
def cocoonFlush (ck : Nat) : M Unit := do
  let s ← get
  match sfind s.cocoons ck with
  | none => pure ()
  | some c =>
    eachM c.dirty (fun i => do
      let ea : Dword := BitVec.ofNat 64 (c.gva + 4 * i)
      cocoonTr false ck i 0 .write 0
      let s ← get
      (match (sfind s.cocoons ck).bind (fun c => sfind c.tr (i / 16)) with
        | some t => homeFree (cocoonCtx s c false) (t.pa + 4 * (i % 16)) ea 0
        | none => pure ())
      modify (cocoonBack ck i))

/-- The key of cocoon number v of the acting strand; none where no cocoon has the number. -/
def State.myCocoon (s : State) (v : Dword) : Option (Nat × Cocoon) :=
  if v.toNat < 8 then (sfind s.cocoons (8 * s.key + v.toNat)).map (fun c => (8 * s.key + v.toNat, c)) else none

/-- The checks of R50 on a descriptor at a. -/
def mapChecks (s : State) (a loc glob len : Dword) : Except Stop Unit := do
  let n := len.toNat
  let field (c : Cause) (o : Nat) : Except Stop Unit := .error (.trap ⟨c, a + BitVec.ofNat 64 o, 0⟩)
  if loc.toNat % 256 ≠ 0 then field .misaligned 0
  else if glob.toNat % 256 ≠ 0 then field .misaligned 8
  else if n % 256 ≠ 0 then field .misaligned 16
  else if !(winCode loc == 0xF1 || winCode loc == 0xF2 || winCode loc == 0xF3) then field .windowInvalid 0
  else if winCode glob ≠ 0 then field .windowInvalid 8
  else if n = 0 then field .windowRange 16
  else if winOff loc + n > (windowSize s s.key (winCode loc)).getD 0 then field .windowRange 0
  else if winOff glob + n > 2 ^ 52 then field .windowRange 8
  else if (List.range (n / 256)).any (fun q =>
      (cocoonOfFlat { s with cocoons := s.cocoons.filter (fun p => coreOf (p.1 / 8) == s.core) }
        (localFlat s s.key (winCode loc) (winOff loc + 256 * q) 0)).isSome) then field .windowRange 0
  else .ok ()

/-- ccmap (R307). -/
def execCcmap (d a : Reg) (s : State) : Out :=
  runInstr (do
    let x := s.x a
    let words ← collectM (List.range 4) (fun i => loadN s.ctx (x + BitVec.ofNat 64 (8 * i)) 8 0 0)
    let field (i : Nat) : Dword := BitVec.ofNat 64 (words.getD i 0)
    let s ← get
    liftE (mapChecks s x (field 0) (field 1) (field 2))
    let limit := match s.kernelOf s.key with
      | some k => min 8 k.res.cocoons
      | none => 0
    match (List.range limit).find? (fun n => (sfind s.cocoons (8 * s.key + n)).isNone) with
    | none => modify (fun s => (s.setX d (BitVec.allOnes 64)).advance)
    | some n =>
      let c : Cocoon := { strand := s.key, base := field 0, gva := (field 1).toNat, len := (field 2).toNat, asid := s.me.e.asid }
      modify (fun s => ((s.setCocoon (8 * s.key + n) c).setX d (BitVec.ofNat 64 n)).advance)) s

/-- ccflush (R310). -/
def execCcflush (a : Reg) (s : State) : Out :=
  runInstr (do
    match s.myCocoon (s.x a) with
    | none => pure ()
    | some (ck, _) => cocoonFlush ck
    modify (·.advance)) s
/-- ccunmap (R310). -/
def execCcunmap (a : Reg) (s : State) : Out :=
  runInstr (do
    match s.myCocoon (s.x a) with
    | none => pure ()
    | some (ck, _) => do
      cocoonFlush ck
      modify (fun s => { s with cocoons := sdel s.cocoons ck })
    modify (·.advance)) s

/-- ccstat (R311). -/
def execCcstat (d a : Reg) (s : State) : Out :=
  let v : Nat := match s.myCocoon (s.x a) with
    | none => 0
    | some (_, c) =>
      let poison := c.dropped || (List.range (c.len / 4)).any (fun i => s.poison.contains (cocoonFlat s c i / 4))
      let full := (List.range (c.len / 64)).countP (fun j => (upFrom (16 * j) 16).all (fun i => c.valid.contains i))
      2 ^ 63 + (if poison then 2 ^ 62 else 0) + 2 ^ 32 * (c.dirty.length % 2 ^ 24) + full % 2 ^ 24
  .next (s.setX d (BitVec.ofNat 64 v)).advance

end Sys2Proof.Machine
end

