-- ==== Sys2Proof/Machine/Homes.lean ====
section
/-! DEFINITION. What homes, caches and the outside of the package do to global words: reads and registrations at the home,
evictions and fills, snoops, host requests, lost ranges (R299 to R304, R308, R314 to R318), and the memory watchdog and the
watches of vwait (R271, R292). -/

namespace Sys2Proof.Machine
open Sys2Proof

/-! ## Homes (R299 to R303) -/

/-- A core's read of a word is served by its home (R300): the L1 gets the word's newest value; a poisoned word enters no
cache. -/
def serveRead (s : State) (core w : Nat) : State :=
  if (nearVal s core w).isSome || wordPoisoned s w then s else fillWord s core w 0 (curVal s w)
/-- A request of a kind stands at the home of a word, or was refused there. -/
def standsFor (s : State) (q : Request) (core w : Nat) : Bool :=
  (s.waiters ++ s.refused).any (fun x => x.kind == q && x.core == core && x.word == w)
/-- HOME_READ (R300, R303): an L1 miss goes to the home. -/
def execHomeRead (core word : Nat) (s : State) : Out :=
  .next (
    if 128 ≤ core ∨ !reachable s (4 * word) then s
    else if !homeHeld s (regionOf word) then serveRead s core word
    else if standsFor s .read core word then s
    else joinHome s .read core word)
/-- A registration of a span that holds the word, on its way from a core. -/
def pendingFor (s : State) (core w : Nat) : Option Pending := s.pending.find? (·.names core w)
/-- REGISTRATION (R298, R299, R303): a registration of a span that holds the word reaches the home, and stands in line where that is
busy. -/
def execRegistration (core word : Nat) (s : State) : Out :=
  .next (
    match pendingFor s core word with
    | some p =>
      if !homeHeld s (regionOf word) then registerSpan s p
      else if standsFor s .registration core p.word then s
      else joinHome s .registration core p.word
    | none => s)

/-! ## Evictions and fills (R304, R308) -/

/-- A dirty word leaves a core's L1 (R304, R313): for its home slice, or, where it is homed on another die, for the L2 of its own die,
which is then the registrant (assumption 45). A registration of it still on its way reaches the home first; a word of a lost
range is discarded (R318). -/
def l1Back (s : State) (core w : Nat) (v : Word) : State :=
  let d := dieOf core
  let s := drainWord s core w
  let s := { s with l1 := sdel s.l1 (ckey core w) }
  if isLost s w then (if heldBy s w core then { s with reg := sdel s.reg w } else s)
  else if homeDie w != d && Config.evictsToDie s.tick then
    { s with l2 := sput s.l2 (ckey d w) ⟨v, true, s.tick⟩, reg := sput s.reg w ⟨128 + d, v⟩ }
  else dropDie (putHome s w v) d w
/-- L1_EVICTION (R304): a clean word only leaves; a dirty one stays while its home is held. -/
def execL1Eviction (core word : Nat) (s : State) : Out :=
  .next (
    match sfind s.l1 (ckey core word) with
    | some e => if e.dirty then (if homeHeld s (regionOf word) then s else l1Back s core word e.val)
                else { s with l1 := sdel s.l1 (ckey core word) }
    | none => s)
/-- A word leaves a die's L2 (R304, R313): a dirty one for the memory below, or, where it is homed on another die, for its home
slice. -/
def l2Out (die : Nat) (s : State) (w : Nat) : State :=
  match sfind s.l2 (ckey die w) with
  | some e =>
    let s := { s with l2 := sdel s.l2 (ckey die w) }
    if !e.dirty then s
    else if isLost s w then (if heldBy s w (128 + die) then { s with reg := sdel s.reg w } else s)
    else if homeDie w == die then { s with mem := Mem.writeN s.mem (4 * w) 4 e.val.toNat }
    else if heldBy s w (128 + die) then putHome s w e.val else s
  | none => s
/-- L2_EVICTION (R304, R315): the words of a sector leave a die's L2; an external line that nothing of the die holds any more leaves
with them. The words stay while their home is held. -/
def execL2Eviction (die sector : Nat) (s : State) : Out :=
  .next (
    if homeHeld s (sector / 4) then s
    else
      let s := (upFrom (16 * sector) 16).foldl (l2Out die) s
      if isExternal (16 * sector) && !lineInUse s die sector then { s with lines := sdel s.lines (lineKey die sector) } else s)
/-- SECTOR_FILL (R304): a sector read from below lands in the words of the home slice that are still invalid. -/
def execSectorFill (die sector : Nat) (s : State) : Out :=
  .next (
    if !reachable s (64 * sector) ∨ homeDie (16 * sector) ≠ die then s
    else
      (upFrom (16 * sector) 16).foldl (fun s w =>
        if (sfind s.l2 (ckey die w)).isSome || wordPoisoned s w then s
        else extRead { s with l2 := sput s.l2 (ckey die w) ⟨BitVec.ofNat 32 (Mem.readN s.mem (4 * w) 4), false, s.tick⟩ } die w) s)
/-- COCOON_FILL (R308): a translated sector's data lands in its words that are still invalid, unless its home is held. -/
def execCocoonFill (strand cocoon sector : Nat) (s : State) : Out :=
  .next (
    match sfind s.cocoons (8 * strand + cocoon) with
    | some c =>
      if cocoon < 8 ∧ (sfind c.tr sector).any (fun t => !t.stale && t.cls != .i && !homeHeld s (t.pa / 256)) then
        cocoonFillSector s (8 * strand + cocoon) sector
      else s
    | none => s)

/-! ## Snoops (R303, R316) -/

/-- The words of an external line. -/
def lineWords (line : Nat) : List Nat := upFrom (16 * line) 16
/-- Some die holds the line dirty (R315). -/
def lineDirty (s : State) (line : Nat) : Bool :=
  (List.range 4).any (fun d => (sfind s.lines (lineKey d line)).any (fun y => y == .m || y == .o))
/-- A registered word becomes clean where its holder has it (R316); a word that the core has written since stays dirty, its registration
being on its way. -/
def cleanCopy (s : State) (h w : Nat) : State :=
  if 128 ≤ h then
    match sfind s.l2 (ckey (h - 128) w) with
    | some e => { s with l2 := sput s.l2 (ckey (h - 128) w) { e with dirty := false, at_ := 0 } }
    | none => s
  else if s.pending.any (·.names h w) then s
  else
    { s with
      l1 := match sfind s.l1 (ckey h w) with
        | some e => sput s.l1 (ckey h w) { e with dirty := false, at_ := 0 }
        | none => s.l1
      cocoons := s.cocoons.map (fun (p : Nat × Cocoon) =>
        if coreOf (p.1 / 8) = h then
          match p.2.indexOf w with
          | some i => (p.1, { p.2 with dirty := nsErase p.2.dirty i })
          | none => p
        else p) }
/-- A word's newest value, which its home has recorded, is gathered and written below (R316): the registration ends, and its holder
keeps a clean copy. Poison travels with the word (R317). -/
def gatherWord (s : State) (w : Nat) : State :=
  let v := curVal s w
  let bad := wordPoisoned s w
  let home := ckey (homeDie w) w
  let dirty := (sfind s.reg w).isSome || (sfind s.l2 home).any (·.dirty)
  let s := match sfind s.reg w with
    | some r => cleanCopy { s with reg := sdel s.reg w } r.holder w
    | none => s
  let s := { s with l2 := if (sfind s.l2 home).isSome then sput s.l2 home ⟨v, false, s.tick⟩ else s.l2 }
  if dirty && !isLost s w then
    { s with mem := Mem.writeN s.mem (4 * w) 4 v.toNat, poison := if bad then nsInsert s.poison w else s.poison }
  else s
/-- The words of a line leave every die's L2 and the L1s that hold them clean (R316). -/
def invalidateLine (s : State) (line : Nat) : State :=
  { s with
    l2 := s.l2.filter (fun p => !(p.1 % 2 ^ 50 / 16 == line))
    l1 := s.l1.filter (fun p => p.2.dirty || !(p.1 % 2 ^ 50 / 16 == line))
    lines := s.lines.filter (fun p => p.1 % 2 ^ 46 != line) }
/-- A snoop is answered (R316), with data or without: an invalidating one leaves the line in no die, any other leaves every die that
holds it in S. -/
def answerSnoop (s : State) (line : Nat) (inv data : Bool) : State :=
  let s := if inv then invalidateLine s line
           else { s with lines := s.lines.map (fun p => if p.1 % 2 ^ 46 = line then (p.1, Moesi.s) else p) }
  { s with out := s.out ++ [.snoopAnswer line data] }
/-- The home turns to a snoop (R303, R316): one of a dirty line makes it busy until the words are gathered; any other is answered. -/
def startSnoop (s : State) (line : Nat) (inv : Bool) : State :=
  if lineDirty s line then { s with busy := sput s.busy (line / 4) ⟨line, inv⟩ } else answerSnoop s line inv false
/-- The snoop that the home of its region serves has gathered and written back every word of its line (R316). -/
def endSnoop (s : State) (j : HomeJob) : State :=
  answerSnoop ((lineWords j.line).foldl gatherWord { s with busy := sdel s.busy (j.line / 4) }) j.line j.inv true
/-- A snoop of a line (R303, R316): the one that its home serves already comes to its end; a line that no die holds is answered at
once; at a held home it stands in line once. -/
def snoop (s : State) (line : Nat) (inv : Bool) : State :=
  if sfind s.busy (line / 4) == some ⟨line, inv⟩ then endSnoop s ⟨line, inv⟩
  else if !lineHeld s line then { s with out := s.out ++ [.snoopAnswer line false] }
  else if !homeHeld s (line / 4) then startSnoop s line inv
  else if standsFor s (.snoop inv) 128 (16 * line) then s
  else joinHome s (.snoop inv) 128 (16 * line)
/-- SNOOP_INVALIDATE (R316): BISnpInv and SnpInv. -/
def execSnoopInvalidate (line : Nat) (s : State) : Out := .next (if isExternal (16 * line) then snoop s line true else s)
/-- SNOOP_DATA (R316): BISnpData, BISnpCur, SnpData and SnpCur. -/
def execSnoopData (line : Nat) (s : State) : Out := .next (if isExternal (16 * line) then snoop s line false else s)

/-! ## The lines of requests (R303) -/

/-- The access for which a request stands still waits and can be made: its strand or cell, or a unit of the package, waits at the home
of the region. -/
def agentWaits (s : State) (q : Request) (region : Nat) : Bool :=
  match q with
  | .agent (.strand k) =>
    (s.strand k).wait.home == some region && ((s.strand k).status == .running || (s.strand k).status == .restoring) &&
      !(s.coreRegs (coreOf k)).halted && !(s.coreRegs (coreOf k)).fenced
  | .agent (.cell k c) =>
    (sfind s.cells (64 * k + c)).any (fun x => x.wait.home == some region) && (sfind s.invs k).any (·.running)
  | .unit a => s.atsWaits.any (fun w => w.home && w.asid == a && w.page == region && w.verdict.isNone)
  | .read => false
  | .registration => false
  | .snoop _ => false
/-- The home serves a read, a registration or a snoop that stood in line. -/
def serveRequest (s : State) (x : Waiter) : State :=
  match x.kind with
  | .read => serveRead s x.core x.word
  | .registration =>
    match pendingFor s x.core x.word with
    | some p => registerSpan s p
    | none => s
  | .snoop inv => if lineHeld s (x.word / 16) then startSnoop s (x.word / 16) inv else answerSnoop s (x.word / 16) inv false
  | .agent _ => s
  | .unit _ => s
/-- A request leaves the line. -/
def unlineReq (s : State) (x : Waiter) : State := { s with waiters := s.waiters.erase x }
/-- The home of a region serves the requests in line there in arrival order (R303), until it is busy again or comes to an access whose
agent makes it itself. -/
def serveLine (region : Nat) : List Waiter → State → State
  | [], s => s
  | x :: rest, s =>
    if (sfind s.busy region).isSome || agentWaits s x.kind region then s
    else serveLine region rest (serveRequest (unlineReq s x) x)
/-- Every home serves what it can (R303). -/
def serveHomes (s : State) : State :=
  if s.waiters.isEmpty then s
  else (s.waiters.map (fun x => regionOf x.word)).dedup.foldl
    (fun s r => serveLine r (s.waiters.filter (fun x => regionOf x.word == r)) s) s
/-- REQUEST_RESEND (R303): a refused request is sent again after 64 cycles. An access of an agent comes again with its
instruction. -/
def execRequestResend (core word : Nat) (s : State) : Out :=
  .next (
    match s.refused.find? (fun x => x.core == core && x.word == word) with
    | some x =>
      if s.cycle.toNat < x.since + 64 then s
      else
        let s := { s with refused := s.refused.erase x }
        match x.kind with
        | .agent _ => s
        | .unit _ => s
        | _ => if homeHeld s (regionOf word) then joinHome s x.kind core word else serveRequest s x
    | none => s)

/-! ## Host requests and lost ranges (R314, R317, R318) -/

/-- HOST_HDM_REQUEST (R314): the host reads or writes a word of bonded DRAM at its home, when HDMDB is accepted (R507). What it reads
it may cache, until the package writes the line. -/
def execHostHdmRequest (word : Nat) (data : Option Word) (s : State) : Out :=
  .next (
    if isExternal word ∨ !s.feat 0 ∨ !reachable s (4 * word) then s
    else
      match data with
      | some v => homeWrite { s with hostLines := nsErase s.hostLines (lineOf word) } word v
      | none =>
        { s with hostLines := nsInsert s.hostLines (lineOf word)
                 out := s.out ++ [.hdmData word (curVal s word) (wordPoisoned s word)] })

/-- The lost ranges with a further one (R318): in the first entry free, else merged into an entry with its port. -/
def addLost (l : Vector LostEntry 16) (port : BitVec 8) (base limit : BitVec 32) : Vector LostEntry 16 :=
  match (List.range 16).find? (fun n => !(l.getD n {}).valid) with
  | some n => l.setIfInBounds n ⟨true, port, base, limit⟩
  | none =>
    match (List.range 16).find? (fun n => (l.getD n {}).port == port) with
    | some n =>
      let e := l.getD n {}
      l.setIfInBounds n { e with base := BitVec.ofNat 32 (min e.base.toNat base.toNat), limit := BitVec.ofNat 32 (max e.limit.toNat limit.toNat) }
    | none => l
/-- POOL_SHELF_FAILURE (R318): the range is recorded; from now on it is answered with poison, its dirty words are
discarded, and the IOD raises a host event (assumption 14: on vector 0). -/
def execPoolShelfFailure (port base limit : Word) (s : State) : Out :=
  .next (
    if limit.toNat < base.toNat ∨ 4 ≤ port.toNat then s
    else
      let s := s.updDev (fun d => { d with lost := addLost d.lost (port.extractLsb' 0 8) base limit })
      { s with
        pending := s.pending.filter (fun p => !(upFrom p.word p.count).any (isLost s))
        l1 := s.l1.filter (fun p => !isLost s (p.1 % 2 ^ 50))
        l2 := s.l2.filter (fun p => !isLost s (p.1 % 2 ^ 50))
        reg := s.reg.filter (fun p => !isLost s p.1)
        icache := s.icache.filter (fun p => !isLost s (p.1 % 2 ^ 50))
        out := s.out ++ [.hostEvent 0] })
/-- LOST_RANGE_WITHDRAW (R318): writing 1 to LOSTCTL.VALID withdraws an entry. -/
def execLostRangeWithdraw (entry : Nat) (s : State) : Out :=
  .next (s.updDev (fun d => { d with lost := d.lost.setIfInBounds entry { d.lost.getD entry {} with valid := false } }))

/-! ## Waits -/

/-- The wait with its outstanding access ended by MEM_TIMEOUT, when it has been outstanding for 4 ms (R271). -/
def Wait.timeout (w : Wait) (now : Nat) : Wait :=
  if w.since.any (fun t => decide (t + 4000000 ≤ now)) then { w with verdict := some .memTimeout, blocked := false } else w
/-- MEM_TIMEOUT (R271, R492): the request of a strand, or of a cell of its invocation, that is outstanding for 4 ms ends;
its instruction takes the cause when it is made again. A number that names no strand stands for the agents that await the
host's translations (R509). -/
def execMemTimeout (strand : Nat) (s : State) : Out :=
  .next (
    if 384 ≤ strand then
      { s with atsWaits := s.atsWaits.map (fun (w : AtsWait) => if w.since + 4000000 ≤ s.now ∧ w.verdict.isNone then { w with verdict := some .memTimeout } else w) }
    else
      { s with cells := s.cells.map (fun (p : Nat × CellCtx) => if p.1 / 64 = strand then (p.1, { p.2 with wait := p.2.wait.timeout s.now }) else p) }.upd strand
        (fun t => { t with wait := t.wait.timeout s.now }))

/-- n bytes at a place in local memory; of a word of a cocoon that the core holds clean, or not at all, the value that its home has
(R292, R308). -/
def placeRead (s : State) (f n : Nat) : Nat :=
  (upFrom 0 (n / 4)).foldl (fun v q =>
    let here := Mem.readN s.mem (f + 4 * q) 4
    let w := match cocoonOfFlat s (f + 4 * q) with
      | some (ck, i) =>
        match (sfind s.cocoons ck).bind (fun c => (sfind c.tr (i / 16)).map (fun t => (c, t))) with
        | some (c, t) => if c.dirty.contains i then here else (curVal s (t.pa / 4 + i % 16)).toNat
        | none => here
      | none => here
    v + 2 ^ (32 * q) * w) 0
/-- A watched word, of n bytes, has reached its target (R292). -/
def watchMet (s : State) (n : Nat) (x : Watch) : Bool :=
  decide (x.target ≤ (if isLocal x.place then placeRead s x.place n else (homeRead s x.place n).getD x.target))
/-- VWAIT_WATCH_MET (R292): the watches of a vwait are evaluated again; when all are met, the strand goes on. -/
def execVwaitWatchMet (strand : Nat) (s : State) : Out :=
  .next (
    let t := s.strand strand
    if !t.watch.isEmpty ∧ t.watch.all (watchMet s (ewBits t.vtype / 8)) then s.upd strand (fun t => { t with wait := { t.wait with blocked := false } })
    else s)
/-- TILE_ZERO_COMPLETE (R265): the background zeroing of a tile ends. -/
def execTileZeroComplete (core tile : Nat) (s : State) : Out :=
  .next (
    match sfind s.tiles (4 * core + tile % 4) with
    | some t => { s with tiles := sput s.tiles (4 * core + tile % 4) { t with busy := false } }
    | none => s)

end Sys2Proof.Machine
end

