-- ==== Sys2Proof/Machine/Copy.lean ====
section
/-! DEFINITION. Copy channels (R368 to R386): the commands of major 0x30, the moving of elements by the engines, retirement in
order, faults of a channel, and the two copy events. -/

namespace Sys2Proof.Machine
open Sys2Proof

/-! ## Channels and retirement (R368 to R370, R381) -/

/-- Channel n of a strand. -/
def Strand.channel (t : Strand) (n : BitVec 2) : Channel := t.chan[n.toNat]'n.isLt
/-- CPYDONE of a channel. -/
def Strand.done (t : Strand) (n : BitVec 2) : BitVec 32 := t.cpyDone[n.toNat]'n.isLt
/-- CPYNEXT of a channel. -/
def Strand.next (t : Strand) (n : BitVec 2) : BitVec 32 := t.cpyNext[n.toNat]'n.isLt
/-- Change channel n of a strand. -/
def Strand.setChannel (t : Strand) (n : BitVec 2) (c : Channel) : Strand := { t with chan := t.chan.set n.toNat c n.isLt }
/-- Transfer b of a channel is pending (R369). -/
def Strand.isPending (t : Strand) (n : BitVec 2) (b : BitVec 32) : Bool :=
  decide ((b - t.done n).toNat < (t.next n - t.done n).toNat)
/-- The channel is held on a transfer at or below b (R380, R381). -/
def Strand.heldAt (t : Strand) (n : BitVec 2) (b : BitVec 32) : Bool :=
  match (t.channel n).fault with
  | some (f, _, _) => decide ((f - t.done n).toNat ≤ (b - t.done n).toNat)
  | none => false
/-- The arm of a channel fires when its transfer has retired or the channel is held at or below it (R381). -/
def fireArm (t : Strand) (n : BitVec 2) : Strand :=
  match (t.channel n).armed with
  | some b =>
    if !t.isPending n b || t.heldAt n b then
      let t := t.setChannel n { t.channel n with armed := none }
      t.setUi { t.ui with pend := t.ui.pend ||| (1 <<< n.toNat) }
    else t
  | none => t

/-- One transfer retires (R370): CPYDONE passes it, its barrier arrival happens, the event latch is set, an arm may fire. -/
def retireOne (s : State) (k : Nat) (n : BitVec 2) (x : Transfer) : State :=
  let s := s.upd k (fun t =>
    let c := t.channel n
    let t := t.setChannel n { c with pending := c.pending.drop 1, outside := c.outside || x.outside }
    fireArm { t with cpyDone := t.cpyDone.set n.toNat (t.done n + 1) n.isLt, event := true } n)
  match x.box.bar, (s.strand k).place with
  | some b, some p => arriveAt s p.group b.toNat true x.outside
  | _, _ => s
/-- Transfers at the head of a list that have completed or were abandoned retire in order (R370, R383). -/
def retireRun (k : Nat) (n : BitVec 2) : List Transfer → State → State
  | [], s => s
  | x :: l, s => if x.completed || x.abandoned then retireRun k n l (retireOne s k n x) else s
/-- Retirement on a channel. -/
def retire (s : State) (k : Nat) (n : BitVec 2) : State := retireRun k n ((s.strand k).channel n).pending s
/-- Replace a transfer of a channel. -/
def setTransfer (s : State) (k : Nat) (n : BitVec 2) (x : Transfer) : State :=
  s.upd k (fun t =>
    let c := t.channel n
    t.setChannel n { c with pending := c.pending.map (fun y => if y.id = x.id then x else y) })

/-! ## Elements of a box (R374) -/

/-- Bytes of a destination element. -/
def Box.dsize (b : Box) : Nat := if b.cvt then 2 else b.esize
/-- Elements of a box. -/
def Box.count (b : Box) : Nat := b.ext[0].toNat * b.ext[1].toNat * b.ext[2].toNat * b.ext[3].toNat
/-- The indexes of element j, dimension 0 fastest. -/
def Box.index (b : Box) (j : Nat) : Nat × Nat × Nat × Nat :=
  let a := j / b.ext[0].toNat
  let c := a / b.ext[1].toNat
  (j % b.ext[0].toNat, a % b.ext[1].toNat, c % b.ext[2].toNat, c / b.ext[2].toNat)
/-- The address of an element on a side. -/
def sideAddr (base : Dword) (size : Nat) (str : Vector Dword 3) (i : Nat × Nat × Nat × Nat) : Dword :=
  base + BitVec.ofNat 64 (i.1 * size) + BitVec.ofNat 64 i.2.1 * str[0] + BitVec.ofNat 64 i.2.2.1 * str[1] +
    BitVec.ofNat 64 i.2.2.2 * str[2]
/-- The source address of element j. -/
def Box.srcAt (b : Box) (j : Nat) : Dword := sideAddr b.src b.esize b.sstr (b.index j)
/-- The destination address of element j. -/
def Box.dstAt (b : Box) (j : Nat) : Dword := sideAddr b.dst b.dsize b.dstr (b.index j)

/-! ## Moving (R378, R379) -/

/-- The context in which an engine works for strand k (R491). -/
def engineCtx (s : State) (k : Nat) : Ctx := agentCtx k (s.strand k).e.asid
/-- The task in whose chrysalis a transfer works (R386): it stays its buffer until the task emerges. -/
def specOf (s : State) (x : Transfer) : Option (Nat × Task) :=
  x.spec.bind (fun j => (sfind s.tasks j).bind (fun t => if t.set.isEmpty then none else some (j, t)))

/-- What an engine finds in a page of a poison range (R379, R488): poison, with a value that nothing shows. -/
def enginePoison (n : Nat) : M (Nat × Bool × Bool) := do
  let s ← get
  modify State.bumpFree
  pure ((s.freeVal 64).toNat % 2 ^ (8 * n), true, n == 8)
/-- What an engine finds in local memory. -/
def engineLocal (f n : Nat) : M (Nat × Bool × Bool) := do
  let s ← get
  pure (Mem.readN s.mem f n, s.poison.contains (f / 4), n == 8 && s.poison.contains (f / 4 + 1))
/-- What an engine finds at an address: a value, and whether its low and its high word are poisoned (R378, R379); a word of a cocoon
over a page of a poison range is poison as one of that page is. -/
def engineFetch (c : Ctx) (t : Target) (ea : Dword) (n : Nat) : M (Nat × Bool × Bool) := do
  match t with
  | .glob pa _ => do
    forbidClass (· == .d) t ea 0
    homeFree c pa ea 0
    let s ← get
    let w := pa / 4
    let v := if n ≤ 4 then getBits (curVal s w) (8 * (pa % 4)) (8 * n) else (curVal s w).toNat + 2 ^ 32 * (curVal s (w + 1)).toNat
    pure (v, wordPoisoned s w, n == 8 && wordPoisoned s (w + 1))
  | .loc f => do
    let s ← get
    (match cocoonOfFlat s f with
      | some (ck, i) => do
        match ← tryTrap (cocoonReady (!c.tlb) ck i (f % 4) n .read 0) with
        | .ok _ => engineLocal f n
        | .error t => if t.cause == .memPoison then enginePoison n else trapM t.cause t.addr t.elem
      | none => engineLocal f n)
  | .dev _ => trapM .classViolation ea 0
  | .late cls v => do
    forbidClass (· == .d) (.late cls v) ea 0
    if v == .memPoison then enginePoison n else trapM v ea 0
/-- An engine's read of n bytes (R378, R386): inside a chrysalis, the task's buffered bytes and the forecasts come before
memory. -/
def engineRead (c : Ctx) (spec : Option (Nat × Task)) (ea : Dword) (n : Nat) : M (Nat × Bool × Bool) := do
  let t ← resolve c ea n .read 0 0
  match spec with
  | none => engineFetch c t ea n
  | some (_, k) => do
    let s ← get
    let l := forecasts s c.key k
    let whole (o : Nat) : Bool := needsNoMemory l k (t.place + o) (ea + BitVec.ofNat 64 o) (min n 4)
    let (v, p0, p1) ← (if needsNoMemory l k t.place ea n then pure (0, false, false) else engineFetch c t ea n)
    pure (overlay k t.place n (forecastOver l ea n v), (p0 && !whole 0) || bufPoisoned k t.place (min n 4),
      n == 8 && ((p1 && !whole 4) || bufPoisoned k (t.place + 4) 4))

/-- The poison of a word that an engine writes: fresh says that this transfer writes all of the word from here on (R133,
R379). -/
def poisonAfter (p : NatSet) (w : Nat) (src fresh : Bool) : NatSet :=
  if src then nsInsert p w else if fresh then nsErase p w else p
/-- The poison of the words that n bytes at a place lie in, after an engine wrote them (R379). -/
def poisonWrite (p : NatSet) (place n : Nat) (p0 p1 fresh : Bool) : NatSet :=
  let q := poisonAfter p (place / 4) p0 (fresh || decide (4 ≤ n))
  if n = 8 then poisonAfter q (place / 4 + 1) p1 true else q

/-- An engine's write of n bytes with the poison of its source (R378, R379); the answers say whether it went beyond the
package, and whether it met a page of a poison range. -/
def engineWrite (c : Ctx) (spec : Option (Nat × Task)) (ea : Dword) (n v : Nat) (p0 p1 fresh : Bool) : M (Bool × Bool) := do
  let t ← resolve c ea n .write 0 0
  match t, spec with
  | .late cls v, _ => do
    forbidClass (· == .d) (.late cls v) ea 0
    if v == .memPoison then pure (false, true) else trapM v ea 0
  | .dev _, _ => trapM .classViolation ea 0
  | t, some (j, _) => do
    forbidClass (· == .d) t ea 0
    sectorTouched c t 0
    bufWrite j (coreOf c.key) t.place n v
    modify (fun s =>
      match sfind s.tasks j with
      | some k => { s with tasks := sput s.tasks j { k with bufPoison := poisonWrite k.bufPoison t.place n p0 p1 fresh } }
      | none => s)
    pure (false, false)
  | .glob pa cls, none => do
    forbidClass (· == .d) (.glob pa cls) ea 0
    homeFree c pa ea 0
    modify (fun s =>
      let w := pa / 4
      let s :=
        if n < 4 then
          let t := homeWrite s w (putBits (curVal s w) (8 * (pa % 4)) (8 * n) v)
          { t with poison := if wordPoisoned s w then nsInsert t.poison w else t.poison }
        else if n = 4 then homeWrite s w (BitVec.ofNat 32 v)
        else homeWrite (homeWrite s w (BitVec.ofNat 32 v)) (w + 1) (BitVec.ofNat 32 (v / 2 ^ 32))
      { s with poison := poisonWrite s.poison pa n p0 p1 fresh })
    pure (decide (2 ^ 38 ≤ pa), false)
  | .loc f, none => do
    match ← tryTrap (homeReady c t n ea 0) with
    | .error t => if t.cause == .memPoison then pure (false, true) else trapM t.cause t.addr t.elem
    | .ok _ => do
      modify (fun s =>
        let s := breakLinks (clearRingFlags
          { s with mem := Mem.writeN s.mem f n v, poison := poisonWrite s.poison f n p0 p1 fresh } f) f
        match cocoonOfFlat s f with
        | some (ck, i) => cocoonLands s (!c.tlb) ck i n (coreOf c.key)
        | none => s)
      pure (false, false)

/-- The row of element j covers the whole word in which the element begins, and the element begins the word. -/
def freshWord (b : Box) (j : Nat) : Bool :=
  let i := (b.index j).1
  (b.dstAt j).toNat % 4 == 0 && decide (4 ≤ (b.ext[0].toNat - i) * b.dsize)

/-- Move element j of a transfer of channel n of strand k. -/
def moveElem (k : Nat) (n : BitVec 2) (id : BitVec 32) (j : Nat) : M Unit := do
  let s ← get
  match ((s.strand k).channel n).pending.find? (fun x => x.id == id) with
  | none => pure ()
  | some x => do
    let c := engineCtx s k
    let sp := specOf s x
    let b := x.box
    let (v, p0, p1) ← (if b.fill then pure (b.src.toNat % 2 ^ (8 * b.esize), false, false) else engineRead c sp (b.srcAt j) b.esize)
    let v := if b.cvt then (fpConvert fmt32 fmtBf .rne false 0 v).bits else v
    let (out, bad) ← engineWrite c sp (b.dstAt j) b.dsize v p0 p1 (freshWord b j)
    modify (fun s =>
      let s := setTransfer s k n { x with moved := j + 1, outside := x.outside || out }
      if (p0 || p1 || bad) && !((s.strand k).channel n).poison then
        s.upd k (fun t => t.setChannel n { t.channel n with poison := true, poisonId := id })
      else s)

/-- Local destination words whose last write by the transfer lies among elements lo to hi − 1. -/
def lastWords (s : State) (k : Nat) (b : Box) (lo hi : Nat) : List Nat :=
  let flat (j : Nat) : List Nat :=
    let a := b.dstAt j
    if winCode a = 0 then [] else
      let f := localFlat s k (winCode a) (winOff a) 0
      if b.dsize = 8 then [f / 4, f / 4 + 1] else [f / 4]
  if winCode b.dst = 0 then []
  else
    let later := ((upFrom hi (b.count - hi)).flatMap flat).dedup
    ((upFrom lo (hi - lo)).flatMap flat).dedup.filter (fun w => !later.contains w)
/-- Such words become full (R295, R378); in a chrysalis they do so when it emerges (R386, R451). -/
def fillFull (s : State) (k : Nat) (x : Transfer) (hi : Nat) : State :=
  let l := lastWords s k x.box x.moved hi
  match specOf s x with
  | some (j, t) => { s with tasks := sput s.tasks j { t with bufFull := l.foldl nsInsert t.bufFull } }
  | none => { s with full := l.foldl nsInsert s.full }

/-- Move the elements of a transfer that are left. -/
def moveRest (k : Nat) (n : BitVec 2) (x : Transfer) : M Unit :=
  eachM (upFrom x.moved (x.box.count - x.moved)) (fun j => moveElem k n x.id j)

/-- A transfer may move now (R370, R383): it is pending and neither complete nor abandoned; on a held channel only one that
had begun. -/
def mayMove (c : Channel) (x : Transfer) : Bool :=
  !x.completed && !x.abandoned && (c.fault.isNone || (x.begun && c.fault.map (·.1) != some x.id))
/-- This transfer and those before it have begun (R370). -/
def beginUpTo (s : State) (k : Nat) (n : BitVec 2) (id : BitVec 32) : State :=
  s.upd k (fun t =>
    let c := t.channel n
    t.setChannel n { c with pending := c.pending.map (fun y =>
      if (y.id - t.done n).toNat ≤ (id - t.done n).toNat then { y with begun := true } else y) })
/-- What becomes of a transfer that the engines move: it completes, an access fails (R383), or one waits. -/
inductive Moved where
  | done (s : State)
  | failed (t : TrapInfo) (s : State)
  | waits (s : State)
/-- The engines move the rest of transfer id of a channel; none when it may not move now. A saved strand's transfers wait for its
return (R385). -/
def runTransfer (s : State) (k : Nat) (n : BitVec 2) (id : BitVec 32) : Option Moved :=
  match ((s.strand k).channel n).pending.find? (fun x => x.id == id) with
  | none => none
  | some x =>
    if !mayMove ((s.strand k).channel n) x || (s.strand k).status == .saved then none
    else
      let s0 := beginUpTo s k n id
      let now (s : State) : Transfer := (((s.strand k).channel n).pending.find? (fun y => y.id == id)).getD x
      match moveRest k n { x with begun := true } s0 with
      | .ok _ s' => some (.done (setTransfer (fillFull s' k x x.box.count) k n { now s' with completed := true }))
      | .error (.trap t) s' => some (.failed t (fillFull s' k x (now s').moved))
      | .error .wait s' => some (.waits (fillFull s' k x (now s').moved))

/-- TRANSFER_COMPLETE (R378, R370): the rest of a transfer moves and it retires in order; what has moved before an access that has to
wait stays moved. Not while an access of it fails. -/
def execTransferComplete (strand chan id : Nat) (s : State) : Out :=
  let n := BitVec.ofNat 2 chan
  .next (match runTransfer s strand n (BitVec.ofNat 32 id) with
    | some (.done s') => retire s' strand n
    | some (.waits s') => s'
    | some (.failed _ _) => s
    | none => s)

/-- The channel is held on a transfer (R383). -/
def holdChannel (s : State) (k : Nat) (n : BitVec 2) (id : BitVec 32) (t : TrapInfo) : State :=
  s.upd k (fun p => fireArm (p.setChannel n { p.channel n with fault := some (id, t.cause, t.addr) }) n)
/-- The oldest transfer of a channel that has not finished. -/
def oldest (c : Channel) : Option Transfer := c.pending.find? (fun x => !x.completed && !x.abandoned)
/-- TRANSFER_FAULT (R383): on a channel that is not held, an access of an unfinished transfer fails, of the first one where an access
does; the writes before it stay. -/
def execTransferFault (strand chan : Nat) (s : State) : Out :=
  let n := BitVec.ofNat 2 chan
  let c := (s.strand strand).channel n
  .next (if c.fault.isSome then s
    else
      (c.pending.findSome? (fun x =>
        match runTransfer s strand n x.id with
        | some (.failed t s') => some (holdChannel s' strand n x.id t)
        | _ => none)).getD s)

/-! ## Issue (R372 to R377, R384, R386) -/

/-- A window that a transfer may touch (R376). -/
def copyWindow (a : Dword) : Bool := winCode a == 0 || (decide (0xF1 ≤ winCode a) && decide (winCode a ≤ 0xF7))
/-- The lowest and the highest byte offset of a side, as exact integers (R376). -/
def sideSpan (b : Box) (base : Dword) (size : Nat) (str : Vector Dword 3) : Int × Int :=
  let step (j : Nat) (d : Dword) : Int := ((b.ext.getD j 1).toNat - 1 : Int) * d.toInt
  let lo (x : Int) : Int := min 0 x
  let hi (x : Int) : Int := max 0 x
  let base' : Int := winOff base
  (base' + lo (step 1 str[0]) + lo (step 2 str[1]) + lo (step 3 str[2]),
   base' + hi (step 1 str[0]) + hi (step 2 str[1]) + hi (step 3 str[2]) + ((b.ext.getD 0 1).toNat : Int) * size - 1)
/-- A side leaves its window (R376). -/
def sideLeaves (s : State) (b : Box) (base : Dword) (size : Nat) (str : Vector Dword 3) : Bool :=
  let r := sideSpan b base size str
  decide (r.1 < 0) || decide (((windowSize s s.key (winCode base)).getD 0 : Int) ≤ r.2)

/-- The status of a command (R376); bad says that a reserved field is not zero. -/
def copyStatus (s : State) (b : Box) (bad : Bool) : Nat :=
  let es := b.esize
  let mul (a : Dword) (n : Nat) : Bool := a.toNat % n == 0
  let limit := match s.groupOf s.key with
    | some g => g.barCount
    | none => 0
  if bad || !(es == 1 || es == 2 || es == 4 || es == 8) || (b.cvt && (es != 4 || b.fill)) ||
     !mul b.dst b.dsize || !b.dstr.toList.all (mul · b.dsize) ||
     (!b.fill && (!mul b.src es || !b.sstr.toList.all (mul · es))) ||
     decide (2 ^ 32 < b.count) ||
     (match b.bar with
      | some n => decide (limit ≤ n.toNat)
      | none => false) then 3
  else if !copyWindow b.dst || (!b.fill && !copyWindow b.src) then 2
  else if b.count = 0 then 0
  else if sideLeaves s b b.dst b.dsize b.dstr || (!b.fill && sideLeaves s b b.src b.esize b.sstr) then 1
  else 0

/-- A command of a task in chrysalis may issue (R386, R448): no arrival, every row inside its sets. -/
def specMayCopy (s : State) (t : Task) (b : Box) : Bool :=
  let rows := (List.range (b.ext[1].toNat * b.ext[2].toNat * b.ext[3].toNat)).map (· * b.ext[0].toNat)
  b.bar.isNone && (b.count == 0 ||
    (rows.all (fun j => inWriteSet t (b.dstAt j) (b.ext[0].toNat * b.dsize)) &&
     (b.fill || rows.all (fun j => inReadSet s s.key t (b.srcAt j) (b.ext[0].toNat * b.esize)))))

/-- The result word (R375). -/
def copyResult (status : Nat) (id : BitVec 32) : Dword := (0 : BitVec 24) ++ BitVec.ofNat 8 status ++ id

/-- Issue of a command (R368, R369, R375 to R377): an empty box completes at issue. A channel that came back with its strand first runs
its saved transfers again (R385). -/
def issueCopy (d : Reg) (n : BitVec 2) (b : Box) (bad : Bool) (s : State) : State :=
  let st := copyStatus s b bad
  let t := s.me
  if st ≠ 0 then (s.setX d (copyResult st 0)).advance
  else if 16 ≤ (t.channel n).pending.length ∨ (t.channel n).pending.any (fun x => x.again && !x.completed && !x.abandoned) ∨
     (s.specTask s.key).any (fun p => !specMayCopy s p.2 b) then s.block
  else releasing .system (fun s =>
    let id := t.next n
    let x : Transfer := { id := id, box := b, spec := (s.specTask s.key).map (·.1), completed := b.count == 0 }
    let s := s.updMe (fun t =>
      let t := t.setChannel n { t.channel n with pending := (t.channel n).pending ++ [x] }
      { t with cpyNext := t.cpyNext.set n.toNat (id + 1) n.isLt })
    ((retire s s.key n).setX d (copyResult 0 id)).advance) s

/-- cpy1d (R375). -/
def execCpy1d (d a b : Reg) (s : State) : Out :=
  let c := s.x d
  let box : Box :=
    { src := s.x b, dst := s.x a, ext := (Vector.replicate 4 (1 : BitVec 32)).set 0 (low 32 c), esize := 1
      bar := if c.getLsbD 34 then some (c.extractLsb' 35 9) else none }
  .next (issueCopy d (c.extractLsb' 32 2) box ((c.extractLsb' 44 20 : BitVec 20) != 0) s)

/-- The box of a descriptor's twelve dwords (R373), and whether a reserved field is not zero. -/
def boxOf (fill : Bool) (l : List Nat) : Box × Bool :=
  let q (i : Nat) : Dword := BitVec.ofNat 64 (l.getD i 0)
  let e (i : Nat) : BitVec 32 := BitVec.ofNat 32 (l.getD (2 + i / 2) 0 / 2 ^ (32 * (i % 2)))
  let w := l.getD 10 0
  let bar := w / 2 ^ 16 % 2 ^ 16
  ({ fill := fill, src := q 0, dst := q 1, ext := Vector.ofFn (fun i => e i.val)
     sstr := Vector.ofFn (fun i => q (4 + i.val)), dstr := Vector.ofFn (fun i => q (7 + i.val))
     esize := w % 256, cvt := w.testBit 8, bar := if bar.testBit 15 then some (BitVec.ofNat 9 bar) else none },
   w / 2 ^ 9 % 2 ^ 7 != 0 || bar / 2 ^ 9 % 2 ^ 6 != 0 || w / 2 ^ 32 != 0 || l.getD 11 0 != 0)
/-- cpybox and cpyfill read their descriptor (R373) and issue. -/
def boxCommand (fill : Bool) (d a b : Reg) : M Unit := do
  let s ← get
  let x := s.x a
  if x.toNat % 8 ≠ 0 then trapM .misaligned x 0 else pure ()
  let l ← collectM (List.range 12) (fun i => loadN s.ctx (x + BitVec.ofNat 64 (8 * i)) 8 0 0)
  let r := boxOf fill l
  modify (issueCopy d (low 2 (s.x b)) r.1 r.2)
/-- cpybox (R372). -/
def execCpybox (d a b : Reg) (s : State) : Out := runInstr (boxCommand false d a b) s
/-- cpyfill (R372, R378). -/
def execCpyfill (d a b : Reg) (s : State) : Out := runInstr (boxCommand true d a b) s

/-! ## Waiting, status and interrupts (R380 to R383) -/

/-- cwait (R380). -/
def execCwait (a b : Reg) (s : State) : Out :=
  let n : BitVec 2 := low 2 (s.x a)
  let id : BitVec 32 := low 32 (s.x b)
  let t := s.me
  let c := t.channel n
  .next (if !t.isPending n id then
      ((acquire s s.core (if c.outside then .system else .device)).updMe
        (fun t => t.setChannel n { t.channel n with outside := false })).advance
    else
      match c.fault with
      | some (f, _, fa) => if t.heldAt n id then raise s ⟨.copyFault, fa, f.toNat⟩ else s.block
      | none => s.block)

/-- The status word (R382). -/
def statusWord (c : Channel) : Dword :=
  let fc : BitVec 8 := match c.fault with
    | some (_, x, _) => x.code
    | none => 0
  let fid : BitVec 32 := match c.fault with
    | some (f, _, _) => f
    | none => if c.poison then c.poisonId else 0
  bit1 c.fault.isSome ++ bit1 c.poison ++ bit1 c.armed.isSome ++ (0 : BitVec 5) ++ fc ++ (0 : BitVec 8) ++
    BitVec.ofNat 8 c.pending.length ++ fid
/-- ABORT (R383): the faulted transfer and every later one are abandoned. -/
def abortChannel (s : State) (k : Nat) (n : BitVec 2) : State :=
  match ((s.strand k).channel n).fault with
  | none => s
  | some (f, _, _) =>
    retire (s.upd k (fun t =>
      let c := t.channel n
      t.setChannel n { c with fault := none
                              pending := c.pending.map (fun y =>
                                if (f - t.done n).toNat ≤ (y.id - t.done n).toNat then { y with abandoned := !y.completed || y.id == f } else y) }))
      k n
/-- cstat (R382). -/
def execCstat (d a : Reg) (s : State) : Out :=
  let v := s.x a
  let n : BitVec 2 := low 2 v
  let c := s.me.channel n
  .next (if (v.extractLsb' 12 52 : BitVec 52) ≠ 0 ∨ (v.extractLsb' 2 6 : BitVec 6) ≠ 0 then (s.setX d (BitVec.allOnes 64)).advance
    else
      let word := if v.getLsbD 10 then (match c.fault with
          | some (_, _, fa) => fa
          | none => 0)
        else statusWord c
      let s := s.updMe (fun t => if v.getLsbD 11 then t.setChannel n { t.channel n with poison := false, poisonId := 0 } else t)
      let s :=
        if v.getLsbD 9 then abortChannel s s.key n
        else if v.getLsbD 8 then s.updMe (fun t => t.setChannel n { t.channel n with fault := none })
        else s
      (s.setX d word).advance)

/-- cpyarm (R381); in chrysalis it stalls (R448). -/
def execCpyarm (a b : Reg) (s : State) : Out :=
  let n : BitVec 2 := low 2 (s.x a)
  .next (if (s.specTask s.key).isSome then s.block
    else (s.updMe (fun t => fireArm (t.setChannel n { t.channel n with armed := some (low 32 (s.x b)) }) n)).advance)

end Sys2Proof.Machine
end

