-- ==== Sys2Proof/Machine/Tasks.lean ====
section
/-! DEFINITION. The task pool (R426 to R436), emergence and squash of tasks in chrysalis (R447 to R455), and the instructions of
major 0x32 (TASK). -/

namespace Sys2Proof.Machine
open Sys2Proof

/-! ## The pool -/

/-- The pool entries of a die. -/
def dieTasks (s : State) (d : Nat) : List (Nat × Task) := s.tasks.filter (fun p => p.1 / 16384 == d)
/-- The tasks of a queue of a process on a die that have not retired (R434). -/
def queueTasks (s : State) (d : Nat) (a : BitVec 16) (q : Nat) : List (Nat × Task) :=
  (dieTasks s d).filter (fun p => p.2.asid == a && p.2.desc.queue == q)
/-- LIMIT of a queue (R434). -/
def queueLimit (s : State) (d : Nat) (a : BitVec 16) (q : Nat) : Nat := (sget 0 s.qlimit ((65536 * d + a.toNat) * 64 + q)).toNat
/-- The lowest free pool entry of a die. -/
def freeEntry (s : State) (d : Nat) : Option Nat := (upFrom (16384 * d) 16384).find? (fun j => (sfind s.tasks j).isNone)

/-- The place of the low word of a future of a kernel on a die (R418, R426): its flat address / 4. -/
def futureWord (s : State) (kernel d o : Nat) : Nat :=
  match sfind s.kernels kernel with
  | some n => flatDie d (blockByte (sget [] n.dieAlloc d) o) / 4
  | none => 2 ^ 57
/-- The futures that a task names (R429). -/
def TaskDesc.futures (t : TaskDesc) : List Nat := [t.fut0, t.fut1].filterMap (fun f => if f = 0xFFFFFFFF then none else some f.toNat)

/-- A task in chrysalis of the same kernel and die that set a future speculatively (R449). -/
def specSetter (s : State) (t : Task) (d o : Nat) : Option (Nat × Task) :=
  (dieTasks s d).find? (fun p => p.2.kernel == t.kernel && !p.2.set.isEmpty && p.2.futs.contains o)
/-- The union of two speculation sets. -/
def unionSet (a b : List Fc) : List Fc := a ++ b.filter (fun x => !a.contains x)
/-- The real version of a forecast of a die has been published (R452): the tasks that were spawned on it note that, so that a squashed
one does not wait for it. -/
def published (s : State) (d : Nat) (f : Fc) : State :=
  { s with tasks := s.tasks.map (fun p =>
      if p.1 / 16384 = d then (p.1, { p.2 with origSet := p.2.origSet.filter (· != f), awaits := p.2.awaits.filter (· != f) }) else p) }

/-- A waiting task becomes ready when its futures are full, really or speculatively (R429, R449), and the versions that a
squashed task waits for are published (R452). -/
def tryReady (s : State) (j : Nat) : State :=
  match sfind s.tasks j with
  | none => s
  | some t =>
    let d := j / 16384
    if t.state ≠ .waiting ∨ !t.awaits.isEmpty then s
    else
      let full (o : Nat) : Bool := s.full.contains (futureWord s t.kernel d o)
      let open_ := t.desc.futures.filter (fun o => !full o)
      let setters := open_.map (fun o => (o, specSetter s t d o))
      if !setters.all (fun p => p.2.isSome) then s
      else
        let set := setters.foldl (fun u p => match p.2 with
          | some (_, x) => unionSet u x.set
          | none => u) t.set
        if 4 < set.length then s
        else
          let vis := setters.foldl (fun v p => match p.2 with
            | some (_, x) =>
              let f := 4 * futureWord s t.kernel d p.1
              (upFrom f 8).foldl (fun v a => match sfind x.buf a with
                | some b => sput v a b
                | none => v) v
            | none => v) t.vis
          let seen : List Range := open_.map (fun o => ⟨BitVec.ofNat 64 (0xF3 * 2 ^ 56 + o), 8⟩)
          { s with
            tasks := sput s.tasks j { t with state := .ready s.taskSeq, set := set, vis := vis, awaits := []
                                             reads := t.reads ++ seen, derived := t.derived || !open_.isEmpty }
            taskSeq := s.taskSeq + 1 }

/-- Enqueue a task in entry j (R428, R446): it is ready at once when nothing is to be waited for. -/
def enqueue (s : State) (j : Nat) (t : Task) : State :=
  tryReady { s with tasks := sput s.tasks j { t with spawnSeq := s.taskSeq }, taskSeq := s.taskSeq + 1 } j
/-- Every waiting task whose condition holds becomes ready, those that do so at once in spawn order (R429). -/
def readySweep (s : State) : State :=
  let l := (s.tasks.filter (fun p => p.2.state == .waiting)).foldl
    (fun l p => insertBy (fun (a b : Nat × Task) => decide (a.2.spawnSeq < b.2.spawnSeq)) p l) []
  l.foldl (fun s p => tryReady s p.1) s
/-- TASK_READY (R429). -/
def execTaskReady (die entry : Nat) (s : State) : Out := .next (tryReady s (16384 * die + entry))

/-- A task retires (R432): its entry is freed, and its kernel makes progress. -/
def retireTask (s : State) (j : Nat) : State :=
  match sfind s.tasks j with
  | some t => kernelProgress { s with tasks := sdel s.tasks j } t.kernel
  | none => s

/-! ## Emergence and squash -/

/-- The buffered words of a chrysalis: place / 4 and the bytes of the word. -/
def bufWords (b : Sparse Byte) : List Nat := (b.map (fun p => p.1 / 4)).dedup
/-- A channel whose transfers leave the chrysalis of a task (R386): they go on at the homes, or are abandoned, and a hold on one that is
abandoned is over. -/
def Channel.leaveSpec (abandon : Bool) (j : Nat) (c : Channel) : Channel :=
  let gone (x : Transfer) : Bool := abandon && x.spec == some j && !x.completed
  { c with
    pending := c.pending.map (fun x => if x.spec = some j then { x with spec := none, abandoned := x.abandoned || gone x } else x)
    fault := c.fault.filter (fun f => !c.pending.any (fun x => x.id == f.1 && gone x)) }
/-- The transfers that work in the chrysalis of a task leave it (R386): they go on at the homes, or, at a squash, are discarded, and
what is left of their channels retires. -/
def leaveSpec (abandon : Bool) (s : State) (j : Nat) : State :=
  let ks := (s.strands.filter (fun p => p.2.chan.toList.any (fun c => c.pending.any (fun x => x.spec == some j)))).map (·.1)
  ks.foldl (fun s k =>
    let s := s.upd k (fun t => { t with chan := t.chan.map (Channel.leaveSpec abandon j) })
    if abandon then (List.range 4).foldl (fun s n => retire s k (BitVec.ofNat 2 n)) s else s) s
/-- A ring whose slots that a task wrote in its chrysalis leave it (R447): they have landed, or, at a squash, TAIL goes back over those
at its end; one that another strand's slot follows stays, with the bytes that lie there (assumption 61). -/
def Ring.leaveSpec (abandon : Bool) (j : Nat) (r : Ring) : Ring :=
  let mine (c : Nat) : Bool := (sfind r.unlanded c) == some (384 + j)
  let last := (((upFrom 0 r.used).map (fun i => (r.head + BitVec.ofNat 32 i).toNat)).reverse.takeWhile mine).length
  { r with tail := if abandon then r.tail - BitVec.ofNat 32 last else r.tail
           unlanded := r.unlanded.filter (fun p => p.2 != 384 + j) }
/-- The ring slots that a task wrote in its chrysalis leave it. -/
def slotsLeave (abandon : Bool) (s : State) (j : Nat) : State :=
  { s with strands := s.strands.map (fun p =>
      if p.2.rings.toList.any (fun r => r.unlanded.any (fun q => q.2 == 384 + j)) then
        (p.1, { p.2 with rings := p.2.rings.map (Ring.leaveSpec abandon j) }) else p) }

/-- The sectors of cocoons that a task's buffered words lie in are translated (R308, R312): those whose translation a tlbinv removed are
translated again. -/
def emergeTranslates (t : Task) : M Unit :=
  eachM (bufWords t.buf) (fun w => do
    let s ← get
    match cocoonOfFlat s (4 * w) with
    | some (ck, i) => do
      let _ ← tryTrap (cocoonTr true ck i 0 .write 0)
    | none => pure ())
/-- A buffered word lands in a cocoon (R408): its home records it; a word whose sector can not be translated any more is dirty until a
flush. -/
def landCocoon (s : State) (ck i core : Nat) : State :=
  match sfind s.cocoons ck with
  | none => s
  | some c =>
    if (sfind c.tr (i / 16)).any (fun r => r.write && !r.stale) then cocoonStored s ck i 1 core
    else s.setCocoon ck { c with valid := nsInsert c.valid i, dirty := nsInsert c.dirty i }
/-- The home that the write of a buffered word goes to: its own, or that of the global word for which a cocoon word stands. -/
def emergeHome (s : State) (w : Nat) : Option Nat :=
  if isLocal (4 * w) then
    (cocoonOfFlat s (4 * w)).bind (fun p => (sfind s.cocoons p.1).bind (fun c => (sfind c.tr (p.2 / 16)).map (fun r => r.pa / 256)))
  else some (regionOf w)
/-- One buffered word of a task is performed at its home or local memory (R408, R451): its bytes under their mask, with their
poison (R379). -/
def emergeWord (core : Nat) (t : Task) (w : Nat) (s : State) : State :=
  let own (i : Nat) : Option Byte := sfind t.buf (4 * w + i)
  let all := (List.range 4).all (fun i => (own i).isSome)
  let merged (old : Nat) : Nat := (List.range 4).foldl (fun v i => v + 2 ^ (8 * i) * ((own i).elim (old / 2 ^ (8 * i) % 256) (·.toNat))) 0
  let mark (bad : Bool) (s : State) : State := { s with poison := if bad then nsInsert s.poison w else nsErase s.poison w }
  if isLocal (4 * w) then
    let s := match cocoonOfFlat s (4 * w) with
      | some (ck, i) => if all then s else cocoonFillSector s ck (i / 16)
      | none => s
    let s := mark (t.bufPoison.contains w || (s.poison.contains w && !all))
      { s with mem := Mem.writeN s.mem (4 * w) 4 (merged (Mem.readN s.mem (4 * w) 4)) }
    let s := breakLinks (clearRingFlags s (4 * w)) (4 * w)
    match cocoonOfFlat s (4 * w) with
    | some (ck, i) => landCocoon s ck i core
    | none => s
  else
    let bad := t.bufPoison.contains w || (wordPoisoned s w && !all)
    mark bad (renewed (homeWrite s w (BitVec.ofNat 32 (merged (curVal s w).toNat))) core w 1)
/-- The all-zero flags of ring slots that a task filled with zeros, once its words have landed (R195). -/
def emergeFlags (t : Task) (s : State) : State :=
  t.bufZero.foldl (fun s p =>
    let n : BitVec 3 := BitVec.ofNat 3 (p.1 % 8)
    let r := s.ring (p.1 / 8) n
    s.setRing (p.1 / 8) n { r with zero := p.2.foldl nsInsert r.zero }) s
/-- A task with its chrysalis gone. -/
def Task.plain (t : Task) : Task :=
  { t with set := [], reads := [], writes := [], buf := [], bufPoison := [], bufFull := [], bufZero := [], futs := [], vis := []
           store := none, inSpad := 0 }
/-- The core whose earlier writes an emergence performs too: the one that runs the task, or the one whose store holds its
chrysalis. -/
def Task.home (t : Task) (d : Nat) : Nat :=
  match t.state with
  | .running k => coreOf k
  | _ => t.store.getD (32 * d)
/-- An emergence waits (R303): the home of a word that it writes is held. -/
def emergeWaits (s : State) (d : Nat) (t : Task) : Bool :=
  releaseWaits s (t.home d) .device || (bufWords t.buf).any (fun w => (emergeHome s w).any (homeHeld s))

/-- A task whose set is empty emerges (R408, R451): its writes perform as one release at device scope, after the earlier ones of its
core (R399), its futures become full, a strand that runs it goes on or takes the trap that was held. -/
def emerge (s : State) (j : Nat) : State :=
  match sfind s.tasks j with
  | none => s
  | some t =>
    let d := j / 16384
    let core := t.home d
    let s := release s core .device
    let s := emergeFlags t ((bufWords t.buf).foldl (fun s w => emergeWord core t w s) s)
    let s := slotsLeave false (leaveSpec false { s with
      full := (t.futs.map (futureWord s t.kernel d) ++ t.bufFull).foldl nsInsert s.full
      tasks := sput s.tasks j t.plain } j) j
    match t.state with
    | .done => retireTask s j
    | .running k =>
      let s := s.upd k (fun p => { p with wait := { p.wait with blocked := false } })
      match t.held with
      | some tr =>
        if (s.strand k).status = .running then
          let s' := raiseAt { s with tasks := sput s.tasks j { t.plain with held := none } } k tr
          if (s'.strand k).level = .executive then s'.upd k (fun p => { p with e := { p.e with held := true } }) else s'
        else s
      | none => s
    | .waiting => s
    | .ready _ => s
    | .paged _ => s

/-- The tasks whose set holds a forecast, in spawn order. -/
def holdersOf (s : State) (d : Nat) (f : Fc) : List (Nat × Task) :=
  ((dieTasks s d).filter (fun p => p.2.set.contains f)).foldl (fun l p => insertBy (fun a b => decide (a.2.spawnSeq < b.2.spawnSeq)) p l) []
/-- The tasks that emerge when a forecast passes. -/
def emerging (s : State) (d : Nat) (f : Fc) : List (Nat × Task) := (holdersOf s d f).filter (fun p => p.2.set.all (· == f))
/-- A decision that passes a forecast waits for an emergence that it brings: for a translation of a cocoon's sector (R509), or a home
(R303). -/
def passReady (d : Nat) (f : Fc) : M Unit := do
  let s ← get
  eachM (emerging s d f) (fun p => emergeTranslates p.2)
  let s ← get
  if (emerging s d f).any (fun p => emergeWaits s d p.2) then waitM else pure ()
/-- A forecast passes (R451): it leaves every set, and the tasks whose set is then empty emerge in spawn order. -/
def passForecast (s : State) (d : Nat) (f : Fc) : State :=
  (holdersOf s d f).foldl (fun s p =>
    match sfind s.tasks p.1 with
    | some t =>
      let set := t.set.filter (· != f)
      let s := { s with tasks := sput s.tasks p.1 { t with set := set } }
      if set.isEmpty then emerge s p.1 else s
    | none => s) s

/-- A task is squashed (R452): nothing of it becomes visible; its strand goes back to its trun; it is re-queued as a plain task,
or discarded when it was derived, or when discard asks for it (R471). -/
def squashTask (discard : Bool) (s : State) (j : Nat) : State :=
  match sfind s.tasks j with
  | none => s
  | some t =>
    let s := match t.state with
      | .running k => (cancelFabric s k).upd k (fun p =>
          { backToTrun p with squashed := p.status == RunState.saved || p.status == RunState.restoring })
      | _ => s
    let s := slotsLeave true (leaveSpec true s j) j
    if t.derived || discard then { s with tasks := sdel s.tasks j }
    else { s with tasks := sput s.tasks j { t.plain with state := .waiting, awaits := t.origSet, held := none } }
/-- A forecast fails or is closed (R452, R454): every task whose set holds it is squashed. -/
def failForecast (discard : Bool) (s : State) (d : Nat) (f : Fc) : State :=
  (holdersOf s d f).foldl (fun s p => squashTask discard s p.1) s

/-! ## Spawning -/

/-- The dwords of a structure at an address, read with the checks of R133. -/
def readDwords (a : Dword) (n : Nat) : M (List Nat) :=
  collectM (List.range n) (fun i => do
    let s ← get
    loadN s.ctx (a + BitVec.ofNat 64 (8 * i)) 8 0 0)
/-- A task descriptor from its eight dwords (R47). -/
def descOf (l : List Nat) : TaskDesc :=
  let q (i : Nat) : Nat := l.getD i 0
  { pc := BitVec.ofNat 64 (q 0), ptr := Vector.ofFn (fun i => BitVec.ofNat 64 (q (1 + i.val)))
    trip := BitVec.ofNat 32 (q 5), resume := BitVec.ofNat 32 (q 5 / 2 ^ 32), fut0 := BitVec.ofNat 32 (q 6)
    fut1 := BitVec.ofNat 32 (q 6 / 2 ^ 32), vtype := BitVec.ofNat 8 (q 7), nptr := q 7 / 2 ^ 8 % 8, queue := q 7 / 2 ^ 16 % 64 }
/-- VTYPE names no valid combination: bit 7, or ALT with EW of 32 or 64 (R181). -/
def badVtype (v : BitVec 8) : Bool := v.getLsbD 7 || (v.getLsbD 2 && v.getLsbD 1)
/-- R48 refuses a descriptor of a kernel whose window 0xF3 has a size. -/
def refuses (t : TaskDesc) (size : Nat) : Bool :=
  decide (4 < t.nptr) || badVtype t.vtype || decide (t.trip.toNat < t.resume.toNat) ||
  t.pc.toNat % 4 != 0 || decide (2 ^ 52 ≤ t.pc.toNat) || t.futures.any (fun o => o % 8 != 0 || decide (size ≤ o))
/-- A task descriptor at a (R428). -/
def readTask (a : Dword) (own : Bool) : M TaskDesc := do
  if a.toNat % 64 ≠ 0 then trapM .misaligned a 0
  else if winCode a = 0xF0 ∨ winCode a = 0xFE then trapM .classViolation a 0
  else if own then do
    let l ← collectM (List.range 8) (fun i => do
      let s ← get
      let ea := a + BitVec.ofNat 64 (8 * i)
      let t ← route s.ctx ea 8 .read 0 0
      let s ← get
      let v ← readTarget s.ctx t 8 ea 0
      pure (match s.specTask s.key with
        | some (_, k) => overlay k t.place 8 v
        | none => v))
    pure (descOf l)
  else do
    let l ← readDwords a 8
    pure (descOf l)

/-- The result of a spawn (R427). -/
def spawnResult (status : Nat) (h : Dword) : Dword := (0 : BitVec 24) ++ BitVec.ofNat 8 status ++ (0 : BitVec 16) ++ (low 16 h)
/-- The size of the kernel's window 0xF3 for the acting strand. -/
def State.futSize (s : State) : Nat := (windowSize s s.key 0xF3).getD 0
/-- The pool cannot take a task on a queue (R428). -/
def poolFull (s : State) (q : Nat) : Bool :=
  let d := dieOf s.core
  let n := queueLimit s d s.me.e.asid q
  (freeEntry s d).isNone || (s.groupOf s.key).isNone || (n != 0 && decide (n ≤ (queueTasks s d s.me.e.asid q).length))
/-- A task of the acting strand's kernel with a descriptor. -/
def State.newTask (s : State) (t : TaskDesc) : Task :=
  { kernel := (s.groupOf s.key).elim 0 (·.kernel), asid := s.me.e.asid, desc := t }

/-- tspawn (R428); in chrysalis it stalls (R448). -/
def execTspawn (d a : Reg) (s : State) : Out :=
  runInstr (do
    specStall s.ctx
    let t ← readTask (s.x a) false
    let s ← get
    if refuses t s.futSize then modify (fun s => (s.setX d (spawnResult 1 0)).advance)
    else if poolFull s t.queue then modify (fun s => (s.setX d (spawnResult 2 0)).advance)
    else do
      releaseM .die
      modify (fun s =>
        let j := (freeEntry s (dieOf s.core)).getD 0
        ((enqueue s j (s.newTask t)).setX d (spawnResult 0 (handleOf j))).advance)) s

/-! ## Running (R430, R432) -/

/-- The ready task that a trun of the acting strand takes: of its kernel, in the lowest selected queue, the first made ready. -/
def pickTask (s : State) (mask : Dword) : Option (Nat × Task) :=
  let mine := (s.groupOf s.key).elim (2 ^ 40) (·.kernel)
  let cand := (dieTasks s (dieOf s.core)).filterMap (fun p =>
    match p.2.state with
    | .ready n =>
      if p.2.kernel = mine ∧ (mask = 0 ∨ mask.getLsbD p.2.desc.queue) then some (p.2.desc.queue, n, p) else none
    | .waiting => none
    | .running _ => none
    | .done => none
    | .paged _ => none)
  (cand.foldl (fun b c =>
    match b with
    | some x => if c.1 < x.1 ∨ (c.1 = x.1 ∧ c.2.1 < x.2.1) then some c else b
    | none => some c) (none : Option (Nat × Nat × (Nat × Task)))).map (·.2.2)

/-- A task in chrysalis whose set has become empty while it had nothing to perform, or a task that ends: it retires now, or at
its emergence (R432). -/
def finishTask (s : State) (j : Nat) : State :=
  match sfind s.tasks j with
  | some t => if t.set.isEmpty then retireTask s j else { s with tasks := sput s.tasks j { t with state := .done } }
  | none => s

/-- trun takes a task (R430). -/
def takeTask (s : State) (d : Reg) (j : Nat) (t : Task) : State :=
  let s := acquire s s.core .die
  let k := s.key
  let h := spawnResult 0 (handleOf j)
  if t.desc.resume = t.desc.trip then (finishTask (s.setX d h) j).advance
  else
    let x4 := (t.desc.trip - t.desc.resume).toNat
    let bytes := t.desc.resume.toNat * ewBits t.desc.vtype / 8
    let s := { s with tasks := sput s.tasks j { t with state := .running k } }
    let s := s.setX 4 (BitVec.ofNat 64 x4)
    let s := (List.range (min t.desc.nptr 4)).foldl (fun s i =>
      s.setX (BitVec.ofNat 5 (5 + i)) (t.desc.ptr.getD i 0 + BitVec.ofNat 64 bytes)) s
    let back := s.pc + 4
    let s := (s.updMe (fun p => { (p.setVtype t.desc.vtype).setVl x4 with
      vstart := 0, tret := back, task := some j, stripD := false, loopClosed := false })).setX d h
    s.setPc t.desc.pc

/-- trun (R430). -/
def execTrun (d a b : Reg) (s : State) : Out :=
  let t := s.me
  .next (if s.holdsTask then raise s (illegal (wTrun d a b))
    else
      match pickTask s (s.x a) with
      | some (j, x) => takeTask s d j x
      | none =>
        if t.wait.expired || t.wait.deadline.any (fun l => decide (l ≤ s.now)) then (s.setX d (BitVec.allOnes 64)).advance
        else
          let dl := if b = 0 then none else some (t.wait.deadline.getD (s.now + (s.x b).toNat))
          s.updMe (fun p => { p with wait := { p.wait with blocked := true, deadline := dl } }))
/-- A wait whose limit has passed ends when its instruction runs again. -/
def expireWait (s : State) (k : Nat) : State :=
  let w := (s.strand k).wait
  if w.blocked ∧ w.deadline.any (fun l => decide (l ≤ s.now)) then s.upd k (fun t => { t with wait := { t.wait with expired := true } })
  else s
/-- TRUN_TIMEOUT (R430). -/
def execTrunTimeout (strand : Nat) (s : State) : Out := .next (expireWait s strand)
/-- WFE_TIMEOUT (R148). -/
def execWfeTimeout (strand : Nat) (s : State) : Out := .next (expireWait s strand)

/-- tdone (R432, R501). -/
def execTdone (s : State) : Out :=
  .next (match s.me.task with
    | some j =>
      releasing .die (fun s => ((finishTask s j).updMe (fun t => { t with task := none })).setPc s.me.tret) s
    | none => s.updMe (fun t => { t with ending := true }))

/-! ## Futures and queues (R433, R434) -/

/-- The checks on a future's offset (R433). -/
def futureCheck (s : State) (o : Dword) : Except Stop Unit :=
  if o.toNat % 8 ≠ 0 then .error (.trap ⟨.misaligned, o, 0⟩)
  else if s.futSize ≤ o.toNat then .error (.trap ⟨.windowRange, o, 0⟩)
  else .ok ()
/-- The address of a future (R433). -/
def futureAddr (o : Dword) : Dword := 0xF300000000000000 + o
/-- The flat word of a future for the acting strand. -/
def State.futWord (s : State) (o : Nat) : Nat := localFlat s s.key 0xF3 o 0 / 4
/-- A future is full for the acting strand: really, or as its task in chrysalis sees it (R449). -/
def futureFull (s : State) (o : Nat) : Bool :=
  s.full.contains (s.futWord o) ||
    (match s.specTask s.key with
      | some (_, t) => t.futs.contains o || (sfind t.vis (4 * s.futWord o)).isSome
      | none => false)

/-- tfut (R433); in chrysalis it stalls (R448). -/
def execTfut (d a : Reg) (s : State) : Out :=
  let o := s.x a
  runInstr (do
    specStall s.ctx
    liftE (futureCheck s o)
    storeN s.ctx (futureAddr o) 8 0 0 0
    modify (fun s =>
      let w := s.futWord o.toNat
      (({ s with full := nsErase (nsErase s.full w) (w + 1) } : State).setX d (futureAddr o)).advance)) s

/-- A pager future is set (R436): the task bound to it is ready again. -/
def setPager (s : State) (d n : Nat) : State :=
  match sfind s.pfut (1024 * d + n) with
  | some j =>
    match sfind s.tasks j with
    | some t => { s with pfut := sdel s.pfut (1024 * d + n), taskSeq := s.taskSeq + 1
                         tasks := sput s.tasks j { t with state := .ready s.taskSeq } }
    | none => { s with pfut := sdel s.pfut (1024 * d + n) }
  | none => s
/-- tfset (R433, R436, R449). -/
def execTfset (a b : Reg) (s : State) : Out :=
  let o := s.x a
  if o.getLsbD 63 then
    .next (if s.me.level = .user then raise s (privileged (wTfset a b))
      else releasing .die (fun s => (setPager s (dieOf s.core) (o.extractLsb' 0 10 : BitVec 10).toNat).advance) s)
  else
    runInstr (do
      liftE (futureCheck s o)
      if futureFull s o.toNat then waitM else pure ()
      releaseM .die
      storeN s.ctx (futureAddr o) 8 (s.x b).toNat 0 0
      modify (fun s =>
        (match s.specTask s.key with
          | some (j, t) => { s with tasks := sput s.tasks j { t with futs := nsInsert t.futs o.toNat } }
          | none => { s with full := nsInsert s.full (s.futWord o.toNat) }).advance)) s

/-- tfwait (R433). -/
def execTfwait (d a : Reg) (s : State) : Out :=
  let o := s.x a
  runInstr (do
    liftE (futureCheck s o)
    if futureFull s o.toNat then pure () else waitM
    let v ← loadN s.ctx (futureAddr o) 8 0 0
    modify (fun s => ((acquire s s.core .die).setX d (BitVec.ofNat 64 v)).advance)) s

/-- tqcfg (R434). -/
def execTqcfg (d a b : Reg) (s : State) : Out :=
  let q := (s.x a).toNat
  let c := s.x b
  let die := dieOf s.core
  .next (if 63 < q ∨ (c.extractLsb' 17 47 : BitVec 47) ≠ 0 then (s.setX d (BitVec.allOnes 64)).advance
    else
      let n := (queueTasks s die s.me.e.asid q).length
      let s := if c.getLsbD 16 then { s with qlimit := sput s.qlimit ((65536 * die + s.me.e.asid.toNat) * 64 + q) (low 16 c) } else s
      (s.setX d (BitVec.ofNat 64 n)).advance)

end Sys2Proof.Machine
end

