-- ==== Sys2Proof/Machine/Tile.lean ====
section
/-! DEFINITION. The tile accumulators: claims and slice moves (TILE, R247 to R253, R263, R264) and the outer product (TM,
R254 to R262, R170 to R172). -/

namespace Sys2Proof.Machine
open Sys2Proof

/-! ## Names and claims -/

/-- A physical tile by its key. -/
def State.tile (s : State) (j : Nat) : Tile := sget {} s.tiles j
/-- Replace a physical tile. -/
def State.setTile (s : State) (j : Nat) (t : Tile) : State := { s with tiles := sput s.tiles j t }
/-- The keys of the physical tiles of the acting strand's group (R87). -/
def State.shareTiles (s : State) : List Nat :=
  match s.groupOf s.key with
  | some g => g.share.map (4 * g.core + ·)
  | none => []
/-- The tiles of the share that no name is bound to. -/
def State.freeTiles (s : State) : List Nat := s.shareTiles.filter (fun j => (s.tile j).bound.isNone)
/-- The tile that a name of the acting strand's shard is bound to. -/
def State.myTile (s : State) (acc : BitVec 2) : Option Nat := s.tileKey s.key acc

/-- tclaim (R250): CLAIMED 0, HELD 1, NONE 2; the zeroing goes on in the background (R265). -/
def execTclaim (xd : Reg) (acc : BitVec 2) (int : Bool) (s : State) : Out :=
  .next (match s.myTile acc, s.freeTiles with
    | some _, _ => (s.setX xd 1).advance
    | none, [] => (s.setX xd 2).advance
    | none, j :: _ =>
      ((s.setTile j { bound := some (s.shardKey s.key, acc), int := int, busy := true }).setX xd 0).advance)

/-- The name is bound, and the tile is not being zeroed (R252, R265). -/
def tileNamed (s : State) (acc : BitVec 2) : Except Stop Nat :=
  match s.myTile acc with
  | none => .error (stopTrap .tileUnclaimed acc.toNat 0)
  | some j => .ok j
/-- A tmop of a strand of the core that names tile j has issued, and is not complete (R251). -/
def tileBusy (s : State) (j : Nat) : Bool :=
  (upFrom (3 * s.core) 3).any (fun k => (s.strand k).wait.issued && (s.strand k).wait.tile == some j)
/-- A tmop of another strand that names tile j has issued before the instruction of the acting strand (R253). -/
def tileTaken (s : State) (j : Nat) : Bool :=
  (upFrom (3 * s.core) 3).any (fun k => k != s.key && (s.strand k).wait.tile == some j && s.issuedBefore (s.strand k).wait s.key)
/-- An instruction on a tile that is being zeroed waits (R265), and so does one on a tile that a tmop of another strand that has issued
before it names (R253). -/
def tileFree (s : State) (j : Nat) : Except Stop Unit :=
  if (s.tile j).busy || tileTaken s j then .error .wait else .ok ()

/-- tfree (R250). -/
def execTfree (acc : BitVec 2) (s : State) : Out :=
  match s.myTile acc with
  | none => .next s.advance
  | some j => vguard (tileFree s j) (s.setTile j {}).advance s

/-- tzero (R250). -/
def execTzero (acc : BitVec 2) (int : Bool) (s : State) : Out :=
  let j := (s.myTile acc).getD 0
  vguard (do
      let j ← tileNamed s acc
      tileFree s j)
    (s.setTile j { s.tile j with int := int, rows := [], poison := [], busy := true }).advance s

/-- tstat (R251). -/
def execTstat (xd : Reg) (acc : BitVec 2) (s : State) : Out :=
  let resv := match s.groupOf s.key with
    | some g => g.tiles
    | none => 0
  let st := match s.myTile acc with
    | some j => (if tileBusy s j then 4 else 0) + (if (s.tile j).int then 2 else 0) + 1
    | none => 0
  .next (s.setX xd (BitVec.ofNat 64 (65536 * resv + 256 * s.freeTiles.length + st))).advance

/-! ## Slice moves (R263) -/

/-- The checks of a slice move; reads are the elements k moved out of the tile. -/
def sliceChecks (s : State) (acc : BitVec 2) (v : Reg) (xa : Reg) (at_ : Nat → Nat → Nat × Nat) (reads : Bool) (word : Word) :
    Except Stop Unit := do
  groupOk s.me v.toNat 1
  let j ← tileNamed s acc
  legal (s.ew == 32 && s.grp == 1) word
  (if (s.x xa).toNat < 128 then .ok () else .error (stopTrap .windowRange (s.x xa).toNat 0))
  tileFree s j
  (match (if reads then (upFrom s.vstart (min s.vl 128 - s.vstart)).map (fun k => 128 * (at_ ((s.x xa).toNat % 128) k).1 + (at_ ((s.x xa).toNat % 128) k).2) else []).find?
      (fun q => (s.tile j).poison.contains q) with
    | some q => .error (stopTrap .memPoison acc.toNat q)
    | none => .ok ())
/-- The outcome of a slice move: VSTART is 0 also after MEM_POISON (R264). -/
def sliceGuard (c : Except Stop Unit) (effect s : State) : Out :=
  match c with
  | .error (.trap t) =>
    if t.cause = .memPoison then .next (raise (s.updMe (fun p => { p with vstart := 0 })) t) else .next (raise s t)
  | _ => vguard c effect s

/-- A row or column of a tile into vd; element k of the slice lies at at_ index k. -/
def tileRead (at_ : Nat → Nat → Nat × Nat) (vd : Reg) (acc : BitVec 2) (xa : Reg) (word : Word) (s : State) : Out :=
  let t := s.tile ((s.myTile acc).getD 0)
  let elem (k : Nat) : Nat := (t.elem (at_ ((s.x xa).toNat % 128) k).1 (at_ ((s.x xa).toNat % 128) k).2).toNat
  sliceGuard (sliceChecks s acc vd xa at_ true word)
    (vdone (if s.idle then s else vputs s s.key vd.toNat 32 (updates s.me ⟨false, 0⟩ s.vlmax (fun k => some (elem k))))) s
/-- Elements of vb into a row or column of a tile. -/
def tileWrite (at_ : Nat → Nat → Nat × Nat) (acc : BitVec 2) (xa vb : Reg) (word : Word) (s : State) : Out :=
  let j := (s.myTile acc).getD 0
  sliceGuard (sliceChecks s acc vb xa at_ false word)
    (vdone (s.setTile j ((upFrom s.vstart (min s.vl 128 - s.vstart)).foldl (fun t k =>
      let q := at_ ((s.x xa).toNat % 128) k
      { t.setElem q.1 q.2 (BitVec.ofNat 32 (vget s s.key vb.toNat 32 k)) with poison := nsErase t.poison (128 * q.1 + q.2) })
      (s.tile j)))) s

/-- trdrow (R263). -/
def execTrdrow (vd : Reg) (acc : BitVec 2) (xa : Reg) (s : State) : Out := tileRead (fun i k => (i, k)) vd acc xa (wTrdrow vd acc xa) s
/-- trdcol (R263). -/
def execTrdcol (vd : Reg) (acc : BitVec 2) (xa : Reg) (s : State) : Out := tileRead (fun i k => (k, i)) vd acc xa (wTrdcol vd acc xa) s
/-- twrrow (R263). -/
def execTwrrow (acc : BitVec 2) (xa vb : Reg) (s : State) : Out := tileWrite (fun i k => (i, k)) acc xa vb (wTwrrow acc xa vb) s
/-- twrcol (R263). -/
def execTwrcol (acc : BitVec 2) (xa vb : Reg) (s : State) : Out := tileWrite (fun i k => (k, i)) acc xa vb (wTwrcol acc xa vb) s

/-! ## Formats of tmop (R109, R254, R255) -/

/-- K: the values of a container. -/
def tmCount : TmFmt → Nat
  | .f32 => 1 | .bf16 => 2 | .f16 => 2 | .e4m3 => 4 | .e5m2 => 4 | .mxe4m3 => 4 | .mxe5m2 => 4 | .i8 => 4 | .i4 => 8
  | .q8 => 4 | .q4 => 8
/-- Bits of a value. -/
def tmBits (f : TmFmt) : Nat := 32 / (tmCount f)
/-- The format has an INT32 accumulator. -/
def tmInt : TmFmt → Bool
  | .i8 => true | .i4 => true
  | .f32 => false | .bf16 => false | .f16 => false | .e4m3 => false | .e5m2 => false | .mxe4m3 => false | .mxe5m2 => false
  | .q8 => false | .q4 => false
/-- The format has E8M0 scales. -/
def tmScaled : TmFmt → Bool
  | .mxe4m3 => true | .mxe5m2 => true
  | .f32 => false | .bf16 => false | .f16 => false | .e4m3 => false | .e5m2 => false | .i8 => false | .i4 => false
  | .q8 => false | .q4 => false
/-- The format has group records. -/
def tmGrouped : TmFmt → Bool
  | .q8 => true | .q4 => true
  | .f32 => false | .bf16 => false | .f16 => false | .e4m3 => false | .e5m2 => false | .mxe4m3 => false | .mxe5m2 => false
  | .i8 => false | .i4 => false
/-- Slots, or registers, of each source for one step (R258). -/
def tmParts (f : TmFmt) : Nat := if (tmScaled f) || (tmGrouped f) then 2 else 1
/-- The floating format of the values. -/
def tmFp : TmFmt → Fmt
  | .f32 => fmt32 | .bf16 => fmtBf | .f16 => fmt16 | .e4m3 => fmtE4m3 | .e5m2 => fmtE5m2 | .mxe4m3 => fmtE4m3
  | .mxe5m2 => fmtE5m2 | .i8 => fmt32 | .i4 => fmt32 | .q8 => fmt32 | .q4 => fmt32

/-! ## One element of a step (R170 to R172) -/

/-- What a step adds to an element: its product terms, whether one is a NaN, and whether NV is due. -/
structure Terms where
  vals : List FVal
  nan : Bool
  nv : Bool

/-- The products of two K-groups. -/
def products (f : Fmt) (a b : List Nat) : Terms :=
  (a.zip b).foldr (fun p t =>
    match exactMul (unpack f p.1) (unpack f p.2) with
    | none => { t with nan := true, nv := true }
    | some (.nan s) => { t with nan := true, nv := t.nv || s }
    | some v => { t with vals := v :: t.vals }) ⟨[], false, false⟩

/-- A value is +∞, or −∞. -/
def FVal.isInf (n : Bool) : FVal → Bool
  | .inf x => x == n | .nan _ => false | .fin _ _ _ => false
/-- The finite values of a list. -/
def finites (l : List FVal) : List (Bool × Nat × Int) :=
  l.filterMap (fun v =>
    match v with
    | .fin n m e => some (n, m, e)
    | .nan _ => none
    | .inf _ => none)
/-- The exact sum of finite values, as an integer at the exponent u, and whether truncation to it lost something. -/
def sumAt (u : Int) (l : List (Bool × Nat × Int)) : Int × Bool :=
  l.foldl (fun acc t =>
    let r := roundAt .rtz t.1 0 t.2.1 t.2.2 u
    (acc.1 + signedInt t.1 r.1, acc.2 || r.2)) (0, false)
/-- The exact sum of finite values; a zero sum is −0 when each is −0. So the zero term of formats 5 and 6 has the sign minus only where
every product is −0, and sub then turns it (DESIGN CHOICE, assumption 48). -/
def exactSum (l : List (Bool × Nat × Int)) : Bool × Nat × Int :=
  let u := l.foldl (fun u t => min u t.2.2) 0
  let n := (sumAt u l).1
  (if n = 0 then l.all (fun t => t.1 && t.2.1 == 0) else decide (n < 0), n.natAbs, u)

/-- R171 over the terms and the accumulator's value c. -/
def sumTerms (sat : Bool) (t : Terms) (c : Nat) : FRes :=
  let cv := unpack fmt32 c
  let all := cv :: t.vals
  let clash := all.any (·.isInf true) && all.any (·.isInf false)
  if t.nan || cv.isNan || clash then (fmt32.canon, flIf (t.nv || cv.isSig || clash) flNv)
  else if all.any (·.isInf true) then (fmt32.signed true fmt32.infBits, 0)
  else if all.any (·.isInf false) then (fmt32.infBits, 0)
  else
    let l := finites all
    let nz := l.filter (fun x => x.2.1 != 0)
    match nz with
    | [] => (fmt32.signed (l.all (·.1)) 0, 0)
    | x :: xs =>
      let top : Int := xs.foldl (fun (b : Int) y => max b ((Nat.log2 y.2.1 : Int) + y.2.2)) ((Nat.log2 x.2.1 : Int) + x.2.2)
      let (n, sticky) := sumAt (top - 126) nz
      if n = 0 then (0, flIf sticky (flNx ||| flUf))
      else
        let n := if sticky then 2 * n + (if 0 < n then 1 else -1) else 2 * n
        let r := roundTo fmt32 .rne sat 0 (decide (n < 0)) n.natAbs (top - 127)
        (r.bits, r.flags)

/-- The values of a container (R254). -/
def kGroup (f : TmFmt) (c : Nat) : List Nat := (List.range (tmCount f)).map (fun k => c / 2 ^ ((tmBits f) * k) % 2 ^ (tmBits f))

/-- One element of a step: a and b are the containers, sa and sb their scales or records, c the element. DESIGN CHOICE
(assumption 48): a term of fmt 9 and 10 whose integer I is 0 has the XOR of the two SCALE signs as its sign, flipped by sub; in
fmt 5 and 6 an infinite element product counts in the test for +∞ and −∞ also where P or a scale is a NaN. -/
def stepElem (f : TmFmt) (sub sat : Bool) (a b sa sb c : Nat) : FRes :=
  let xs := kGroup f a
  let ys := kGroup f b
  let neg (v : FVal) : FVal := if sub then v.negate else v
  if (tmInt f) then
    let p := (xs.zip ys).foldl (fun n p => n + bitsInt true (tmBits f) p.1 * bitsInt true (tmBits f) p.2) (0 : Int)
    let n := bitsInt true 32 c + (if sub then -p else p)
    if sat then (wrapInt 32 (clampInt true 32 n), flIf (clampInt true 32 n != n) flSat) else (wrapInt 32 n, 0)
  else if (tmGrouped f) then
    let ra := (recordOf (tmBits f) sa).getD (false, 0, 0, 0)
    let rb := (recordOf (tmBits f) sb).getD (false, 0, 0, 0)
    let n := (xs.zip ys).foldl (fun n p => n + ((p.1 : Int) - ra.2.2.2) * ((p.2 : Int) - rb.2.2.2)) (0 : Int)
    sumTerms sat ⟨[neg (.fin ((ra.1 != rb.1) != decide (n < 0)) (ra.2.1 * rb.2.1 * n.natAbs) (ra.2.2.1 + rb.2.2.1))], false, false⟩ c
  else
    let t := products (tmFp f) xs ys
    if (tmScaled f) then
      if sa = 0xFF ∨ sb = 0xFF then sumTerms sat { t with vals := t.vals.map neg, nan := true } c
      else if t.vals.any (fun v => v.isInf true || v.isInf false) then
        sumTerms sat { t with vals := (t.vals.filter (fun v => v.isInf true || v.isInf false)).map neg } c
      else
        let p := exactSum (finites t.vals)
        sumTerms sat { t with vals := [neg (.fin p.1 p.2.1 (p.2.2 + sa + sb - 254))] } c
    else sumTerms sat { t with vals := t.vals.map neg } c

/-! ## One step (R256, R257) -/

/-- Element i, of w bits, of part c of a source: its register c, or the slot of claim c. -/
def tmRead (s : State) (a : VSrc) (c w i : Nat) : Nat :=
  match a with
  | .vreg v => vget s s.key (v.toNat + c) w i
  | .queue q => queueElem s q c w i
/-- The operand code in EADDR of part c of a source (R257). -/
def tmCode (a : VSrc) (p : Nat) : Nat :=
  match a with
  | .vreg v => v.toNat + p
  | .queue q => queueCode q
/-- The element is poisoned. -/
def tmBad (s : State) (a : VSrc) (c w i : Nat) : Bool :=
  match a with
  | .vreg _ => false
  | .queue q => queuePoisoned s q c w i
/-- The rows that m_rp predicates. -/
def State.tmRows (s : State) (rp : BitVec 3) : List Nat := (List.range 128).filter (fun i => (s.me.mask rp).getLsbD i)
/-- The columns of a step. -/
def State.tmCols (s : State) : List Nat := List.range (min s.vl 128)

/-- The first failure among the containers at the indexes of one part of a source (R257). -/
def partCheck (s : State) (f : TmFmt) (a : VSrc) (c p : Nat) (idx : List Nat) : Except Stop Unit :=
  let w := if p = 1 ∧ (tmScaled f) then 8 else 32
  match idx.find? (fun i => tmBad s a (c + p) w i || (p == 1 && (tmGrouped f) && (recordOf (tmBits f) (tmRead s a (c + p) 32 i)).isNone)) with
  | none => .ok ()
  | some i =>
    .error (stopTrap (if tmBad s a (c + p) w i then .memPoison else .formatRecord) (tmCode a p) i)
/-- The checks of R257 on the containers of a step; ca and cb are the first claims of its sources. -/
def stepCheck (s : State) (f : TmFmt) (a b : VSrc) (ca cb : Nat) (rp : BitVec 3) : Except Stop Unit := do
  partCheck s f a ca 0 (s.tmRows rp)
  partCheck s f b cb 0 s.tmCols
  if (tmParts f) = 2 then do
    partCheck s f a ca 1 (s.tmRows rp)
    partCheck s f b cb 1 s.tmCols
  else .ok ()
/-- The all-zero flag of a data slot reads 1 (R195, R262). -/
def slotZero (s : State) (a : VSrc) (c : Nat) : Bool :=
  match a with
  | .vreg _ => false
  | .queue (.ring n) => slotFlag s n ((s.ring s.key n).head + BitVec.ofNat 32 c).toNat
  | .queue (.relay _) => false
/-- A step is skipped (R262). -/
def stepSkipped (s : State) (f : TmFmt) (a b : VSrc) (ca cb : Nat) : Bool := !(tmGrouped f) && (slotZero s a ca || slotZero s b cb)
/-- The first poisoned element that a step updates (R264). -/
def stepPoison (s : State) (t : Tile) (rp : BitVec 3) : Option Nat :=
  t.poison.find? (fun q => (s.me.mask rp).getLsbD (q / 128) && decide (q % 128 < min s.vl 128))

/-- A step's new rows and flags. -/
def stepRows (s : State) (f : TmFmt) (sub sat : Bool) (a b : VSrc) (ca cb : Nat) (rp : BitVec 3) (t : Tile) : Tile × BitVec 6 :=
  let second (x : VSrc) (c i : Nat) : Nat := if (tmParts f) = 2 then tmRead s x (c + 1) (if (tmScaled f) then 8 else 32) i else 0
  let cols := s.tmCols.map (fun j => (tmRead s b cb 32 j, second b cb j))
  (s.tmRows rp).foldl (fun acc i =>
    let x := tmRead s a ca 32 i
    let sx := second a ca i
    let old := sget 0 acc.1.rows i
    let res := (s.tmCols.zip cols).map (fun p => stepElem f sub sat x p.2.1 sx p.2.2 (getBits old (32 * p.1) 32))
    ({ acc.1 with rows := sput acc.1.rows i (putBits old 0 (32 * cols.length) (packElems 32 (res.map (·.1)))) },
      res.foldl (fun fl r => fl ||| r.2) acc.2)) (t, 0)

/-- One step on tile j (R256): the state after it, or its trap. -/
def tmStep (s : State) (j : Nat) (acc : BitVec 2) (f : TmFmt) (sub sat : Bool) (a b : VSrc) (ca cb : Nat) (rp : BitVec 3) :
    Except TrapInfo State :=
  match stepCheck s f a b ca cb rp with
  | .error (.trap t) => .error t
  | _ =>
    if stepSkipped s f a b ca cb then .ok s
    else
      match stepPoison s (s.tile j) rp with
      | some q => .error ⟨.memPoison, acc.zeroExtend 64, q⟩
      | none =>
        let r := stepRows s f sub sat a b ca cb rp (s.tile j)
        .ok ((s.setTile j r.1).updMe (·.accrue r.2))

/-! ## The checks at issue -/

/-- The two sources of a tmop as vector sources. -/
def tmPair : TmSrc → VSrc × VSrc
  | .regs va vb => (.vreg va, .vreg vb)
  | .queues va vb => (.queue va, .queue vb)
/-- The registers of a source for the window check (R254): each alone. -/
def tmGroups (a : VSrc) (p : Nat) : List (Nat × Nat) := (List.range p).flatMap (fun i => match a with
  | .vreg v => [(v.toNat + i, 1)]
  | .queue _ => [])
/-- The name checks of a queue source (R192, R196). -/
def tmName (s : State) (a : VSrc) : Except Stop Unit :=
  match a with
  | .vreg _ => .ok ()
  | .queue q => queueName s q
/-- The claims that an operand makes before another on the same queue (R193). -/
def claimBase (a b : VSrc) (n : Nat) : Nat :=
  match a, b with
  | .queue x, .queue y => if x = y then n else 0
  | .queue _, .vreg _ => 0
  | .vreg _, _ => 0
/-- RING_FAULT when the claims of a source, with those before it, exceed the capacity of its queue (R193, R260). -/
def claimCap (s : State) (a : VSrc) (n : Nat) : Except Stop Unit :=
  match a with
  | .vreg _ => .ok ()
  | .queue (.ring i) => if n ≤ (s.ring s.key i).slots then .ok () else .error (ringFault i.toNat)
  | .queue (.relay i) => if n ≤ 2 then .ok () else .error (ringFault (8 + i.toNat))
/-- RING_FAULT where one of the claims lo to lo + n − 1 of a source is not reserved in solo mode, which comes before any wait
(R194, R260). -/
def claimFault (s : State) (a : VSrc) (lo n : Nat) : Except Stop Unit :=
  match a with
  | .vreg _ => .ok ()
  | .queue q =>
    ((upFrom lo n).map (queueReady s q) |>.find? (fun r => match r with
        | .error (.trap _) => true
        | _ => false)).getD (.ok ())
/-- The claims lo to lo + n − 1 of a source have landed (R193). -/
def claimReady (s : State) (a : VSrc) (lo n : Nat) : Except Stop Unit :=
  match a with
  | .vreg _ => .ok ()
  | .queue q => if (upFrom lo n).all (fun c => (queueReady s q c).isOk) then .ok () else .error .wait

/-- The checks of a tmop that claims n slots of each queue source (R112, R256, R258, R260). -/
def tmChecks (s : State) (acc : BitVec 2) (f : TmFmt) (a b : VSrc) (n : Nat) (word : Word) : Except Stop Nat := do
  groupsOk s.me (tmGroups a (tmParts f) ++ tmGroups b (tmParts f))
  let j ← tileNamed s acc
  tmName s a
  tmName s b
  legal ((s.tile j).int == (tmInt f)) word
  if s.vl = 0 then .ok j
  else do
    claimCap s a n
    claimCap s b (claimBase a b n + n)
    .ok j

/-- Pop the claims of both sources. -/
def tmPop (s : State) (a b : VSrc) (n : Nat) : State :=
  let pop (s : State) (x : VSrc) : State := match x with
    | .vreg _ => s
    | .queue q => queuePop s q n
  pop (pop s a) b

/-- A trap of a step (R257, R264): VSTART is the container's index, or 0 for poison of the tile. -/
def tmTrap (s : State) (t : TrapInfo) : State :=
    raise (s.updMe (fun p => { p with vstart := if t.cause = .memPoison ∧ t.addr.toNat < 4 then 0 else BitVec.ofNat 13 t.elem })) t

/-! ## tmop -/

/-- A tmop issues on tile j with its claims (R193, R251, R260); one that waits has issued already. -/
def tmIssue (s : State) (j : Nat) (a b : VSrc) (n : Nat) : State :=
  if s.waitOf.seq ≠ 0 then s
  else
    let claim (x : VSrc) : List (Queue × Nat) := match x with
      | .vreg _ => []
      | .queue q => [(q, n)]
    s.setWait { s.waitOf with issued := true, claims := claim a ++ claim b, tile := some j, seq := s.tick + 1 }

/-- tmop, one step (R256 to R258). One that waits has issued: a pre-emption records it (R261). -/
def execTmop (acc : BitVec 2) (f : TmFmt) (src : TmSrc) (rp : BitVec 3) (sub sat : Bool) (s : State) : Out :=
  let a := (tmPair src).1
  let b := (tmPair src).2
  let cb := claimBase a b (tmParts f)
  .next (match tmChecks s acc f a b (tmParts f) (wTmop acc f src rp sub sat) with
    | .error (.trap t) => raise s t
    | .error .wait => s.block
    | .ok j =>
      if s.vl = 0 then vdone s
      else
        match (do
          claimFault s a 0 (tmParts f)
          claimFault s b cb (tmParts f)
          claimReady s a 0 (tmParts f)
          claimReady s b cb (tmParts f)
          tileFree s j) with
        | .error (.trap t) => raise s t
        | .error .wait => (tmIssue s j a b (tmParts f)).block
        | .ok _ =>
          match tmStep s j acc f sub sat a b 0 cb rp with
          | .error t => tmTrap s t
          | .ok s' => vdone (tmPop s' a b (tmParts f)))

/-- TSTEP with a step number (R259). -/
def setStep (s : State) (n : Nat) : State :=
  s.updMe (fun t => { t with tstep := (t.tstep.extractLsb' 16 16 : BitVec 16) ++ BitVec.ofNat 16 n })

/-- tmop with ms = 1 (R260, R261): a step of the machine performs one step of it, once that step's own slots have landed. Between
its steps it stays in flight at its PC, with its claims unpopped and TSTEP.STEP at the next step, and a pre-emption stops it
there. -/
def execTmopMs (acc : BitVec 2) (f : TmFmt) (va vb : Queue) (rp : BitVec 3) (sub sat : Bool) (s : State) : Out :=
  let a := VSrc.queue va
  let b := VSrc.queue vb
  let p := tmParts f
  let nsteps := (s.me.tstep.extractLsb' 16 16 : BitVec 16).toNat
  let i := (s.me.tstep.extractLsb' 0 16 : BitVec 16).toNat
  let n := nsteps * p
  let cb := claimBase a b n
  .next (match tmChecks s acc f a b n (wTmopMs acc f va vb rp sub sat) with
    | .error (.trap t) => raise s t
    | .error .wait => s.block
    | .ok j =>
      if s.vl = 0 ∨ nsteps ≤ i then vdone (setStep s 0)
      else
        match (do
          claimFault s a 0 n
          claimFault s b cb n) with
        | .error (.trap t) => raise s t
        | .error .wait => s.block
        | .ok _ =>
          let s := tmIssue s j a b n
          match (do
            claimReady s a (p * i) p
            claimReady s b (cb + p * i) p
            tileFree s j) with
          | .error (.trap t) => raise s t
          | .error .wait => s.block
          | .ok _ =>
            match tmStep s j acc f sub sat a b (p * i) (cb + p * i) rp with
            | .error t => tmTrap s t
            | .ok s' => if i + 1 = nsteps then vdone (setStep (tmPop s' a b n) 0) else setStep s' (i + 1))

end Sys2Proof.Machine
end

