-- ==== Sys2Proof/Machine/Spec.lean ====
section
/-! DEFINITION. The forecast unit (R438 to R446, R454): forming and comparing forecasts, publication, decisions, and the
instructions of major 0x33 (SPEC). -/

namespace Sys2Proof.Machine
open Sys2Proof

/-! ## Forecasts (R442) -/

/-- The format of a slot's elements (R440). -/
def slotFmt (n : Nat) : Fmt := if n = 0 then fmt32 else if n = 1 then fmtBf else fmt16
/-- Element i, of w bits, of a list of bytes. -/
def byteElem (l : List Byte) (w i : Nat) : Nat :=
  (List.range (w / 8)).foldl (fun v j => v + (l.getD (i * (w / 8) + j) 0).toNat * 2 ^ (8 * j)) 0
/-- The bytes of elements of w bits. -/
def elemBytes (w : Nat) (l : List Nat) : List Byte := l.flatMap (fun x => (List.range (w / 8)).map (fun j => BitVec.ofNat 8 (x / 2 ^ (8 * j))))

/-- An exact sum of values (R442): NaN operands, or infinities of both signs, give NaN; a sum of no term is +0. -/
def exactTotal (l : List FVal) : FVal :=
  if l.any (·.isNan) || (l.any (·.isInf true) && l.any (·.isInf false)) then .nan false
  else if l.any (·.isInf true) then .inf true
  else if l.any (·.isInf false) then .inf false
  else if l.isEmpty then .fin false 0 0
  else
    let p := exactSum (finites l)
    .fin p.1 p.2.1 p.2.2
/-- A value times a small integer. -/
def FVal.times (n : Bool) (k : Nat) : FVal → FVal
  | .nan s => .nan s
  | .inf x => .inf (x != n)
  | .fin x m e => .fin (x != n) (k * m) e
/-- A weighted value; none for a weight of zero, whose version is not read. -/
def weighted (w : Word) (v : FVal) : List FVal :=
  let x := unpack fmt32 w.toNat
  if x.isZero then [] else [(exactMul x v).getD (.nan false)]
/-- The versions that a slot's mode needs (R442). -/
def versionsNeeded (x : FSlot) : Nat :=
  let z (i : Nat) : Bool := (unpack fmt32 (x.w.getD i 0).toNat).isZero
  match x.mode with
  | 0 => 1
  | 1 => 2
  | 2 => 3
  | _ => if !z 2 then 3 else if !z 1 then 2 else 1
/-- Element i of a slot's forecast, in its format (R442). -/
def forecastElem (x : FSlot) (i : Nat) : Nat :=
  let f := slotFmt x.fmt
  let v (k : Nat) : FVal := unpack f (byteElem (x.hist.getD k []) f.width i)
  let r : FVal :=
    match x.mode with
    | 0 => v 0
    | 1 => exactTotal [(v 0).times false 2, (v 1).times true 1]
    | 2 => exactTotal [(v 0).times false 3, (v 1).times true 3, v 2]
    | _ => exactTotal (weighted (x.w.getD 0 0) (v 0) ++ weighted (x.w.getD 1 0) (v 1) ++ weighted (x.w.getD 2 0) (v 2))
  (roundVal f .rne (unpack fmt32 (roundVal fmt32 .rne r).1)).1
/-- A slot with its open forecast formed from its history (R442); a slot armed for a hand-off forms none (R470). -/
def FSlot.form (x : FSlot) : FSlot :=
  let f := slotFmt x.fmt
  { x with forecast :=
      if x.handoff ∨ x.hist.length < versionsNeeded x then none
      else some (elemBytes f.width ((List.range (x.len / (f.width / 8))).map (forecastElem x))) }

/-! ## The tolerance-compare engine (R444) -/

/-- One element: whether it fails, and e where neither value is a NaN. -/
def compareElem (x : FSlot) (r g : FVal) : Bool × Option Nat :=
  if r.isNan || g.isNan then (true, none)
  else if fpEq r g then (false, some 0)
  else
    let mag (n : Nat) : Nat := n % 2 ^ 31
    let e := mag (fpAddV fmt32 .rne r g.negate).1
    let a : FVal := unpack fmt32 (mag (roundVal fmt32 .rne r).1)
    let p := (fpMulV fmt32 .rne (unpack fmt32 x.rtol.toNat) a).1
    let bound := (fpAddV fmt32 .rne (unpack fmt32 x.atol.toNat) (unpack fmt32 p)).1
    (fpLt (unpack fmt32 bound) (unpack fmt32 e), some e)
/-- The comparison of a real tile, published at step now, with a forecast. -/
def compareTile (x : FSlot) (now : Nat) (tile forecast : List Byte) (poisoned : Bool) : Decision :=
  let f := slotFmt x.fmt
  let res := (List.range (x.len / (f.width / 8))).map (fun i =>
    compareElem x (unpack f (byteElem tile f.width i)) (unpack f (byteElem forecast f.width i)))
  let fails := res.countP (·.1)
  { ver := x.ver + 1, fails := fails, maxerr := BitVec.ofNat 32 (res.foldl (fun b r => max b (r.2.getD 0)) 0)
    pass := !poisoned && decide (fails ≤ x.allow.toNat), forecast := forecast, at_ := now }

/-! ## Publication (R443) and decisions (R451, R452) -/

/-- A slot with a real version published at step now: the comparison with the open forecast, the shifted history and the next
forecast. -/
def FSlot.publish (x : FSlot) (now : Nat) (tile : List Byte) (poisoned : Bool) : FSlot :=
  let d := x.forecast.map (fun g => compareTile x now tile g poisoned)
  ({ x with hist := (tile :: x.hist).take 3, ver := x.ver + 1, pending := d, forecast := none } : FSlot).form
/-- The bytes of a range at their homes, read for an agent (R443), and whether a word is poisoned. -/
def readTile (c : Ctx) (a : Dword) (len : Nat) : M (List Byte × Bool) := do
  let l ← collectM (List.range (len / 4)) (fun i => engineRead c none (a + BitVec.ofNat 64 (4 * i)) 4)
  pure (elemBytes 32 (l.map (·.1)), l.any (fun r => r.2.1))
/-- A pending decision of a die's unit arrived before one that arrived at step n (R452). -/
def decisionBefore (s : State) (d n : Nat) : Bool := s.fslots.any (fun r => r.1 / 64 == d && r.2.pending.any (fun q => decide (q.at_ < n)))
/-- The sequencer of a die notes that a task has emerged at the decision of the hand-off of its samples with a slot (R471). -/
def noteHeld (s : State) (d n : Nat) : State :=
  { s with solvers := s.solvers.map (fun p =>
      if p.1 = d then
        let l := p.2.handed.filter (fun i => (p.2.samples[i]?).any (fun y => y.fslot.toNat == n))
        (p.1, { p.2 with held := l.foldl nsInsert p.2.held })
      else p) }
/-- FORECAST_DECISION (R444, R451, R452): the unit serves decisions in the order in which they arrived. -/
def decideForecast (s : State) (d n : Nat) : State :=
  match sfind s.fslots (64 * d + n) with
  | none => s
  | some x =>
    match x.pending with
    | none => s
    | some p =>
      if decisionBefore s d p.at_ then s else
      match (if p.pass then passReady d ⟨n, p.ver⟩ else pure ()) s with
      | .error _ s' => keepRequests s s'
      | .ok _ s =>
      let y : FSlot := { x with pending := none, maxerr := p.maxerr, fails := BitVec.ofNat 16 (min p.fails 0xFFFF)
                                result := if p.pass then 1 else 2 }
      let s := { s with fslots := sput s.fslots (64 * d + n) y }
      if p.pass then
        let s := if x.handoff && !(emerging s d ⟨n, p.ver⟩).isEmpty then noteHeld s d n else s
        passForecast s d ⟨n, p.ver⟩
      else failForecast false s d ⟨n, p.ver⟩
/-- FORECAST_DECISION (R444, R452). -/
def execForecastDecision (die slot : Nat) (s : State) : Out := .next (decideForecast s die slot)

/-! ## Slots of the executing die -/

/-- The key of a slot operand; none above 63. -/
def State.slotKey (s : State) (v : Dword) : Option Nat := if v.toNat < 64 then some (64 * dieOf s.core + v.toNat) else none
/-- The slot that an operand names, when it is armed by the executing process. -/
def State.mySlot (s : State) (v : Dword) : Option (Nat × FSlot) :=
  match s.slotKey v with
  | none => none
  | some j =>
    match sfind s.fslots j with
    | some x => if x.asid = s.me.e.asid then some (j, x) else none
    | none => none
/-- Tasks whose set holds the open forecast of a slot (R445). -/
def slotHolders (s : State) (j : Nat) (x : FSlot) : List (Nat × Task) := holdersOf s (j / 64) ⟨j % 64, x.ver + 1⟩
/-- Some task holds the open forecast of a slot, or the one that a pending decision is about to close (R443). -/
def slotHeld (s : State) (j : Nat) (x : FSlot) : Bool :=
  !(slotHolders s j x).isEmpty || x.pending.any (fun p => !(holdersOf s (j / 64) ⟨j % 64, p.ver⟩).isEmpty)

/-- An FP32 value that is finite, and one that is also not negative. -/
def finite32 (n : Nat) : Bool := n / 2 ^ 23 % 256 != 255
/-- Not negative: −0 counts as not negative. -/
def notNeg32 (n : Nat) : Bool := finite32 n && (decide (n < 2 ^ 31) || n == 2 ^ 31)
/-- A forecast descriptor from its eight dwords (R440); none where it breaks the rules. -/
def slotOf (l : List Nat) (a : BitVec 16) : Option FSlot :=
  let q (i : Nat) : Nat := l.getD i 0
  let w (i : Nat) : Nat := q (i / 2) / 2 ^ (32 * (i % 2)) % 2 ^ 32
  let len := w 2
  let fmt := w 3 % 256
  let mode := w 3 / 2 ^ 8 % 256
  if q 0 % 256 = 0 ∧ q 0 < 2 ^ 56 ∧ len % 256 = 0 ∧ 256 ≤ len ∧ len ≤ 65536 ∧ fmt ≤ 2 ∧ mode ≤ 3 ∧
     w 3 / 2 ^ 16 = 0 ∧ notNeg32 (w 5) ∧ notNeg32 (w 6) ∧ finite32 (w 7) ∧ finite32 (w 8) ∧ finite32 (w 9) ∧ q 5 = 0 ∧ q 6 = 0 ∧ q 7 = 0 then
    some { asid := a, tile := BitVec.ofNat 64 (q 0), len := len, fmt := fmt, mode := mode, allow := BitVec.ofNat 32 (w 4)
           atol := BitVec.ofNat 32 (w 5), rtol := BitVec.ofNat 32 (w 6)
           w := Vector.ofFn (fun i => BitVec.ofNat 32 (w (7 + i.val))) }
  else none

/-- Arming (R441): the history stays when the slot had the same tile, length and format. -/
def armSlot (s : State) (j : Nat) (x : FSlot) : State :=
  let y := match sfind s.fslots j with
    | some o => if o.tile = x.tile ∧ o.len = x.len ∧ o.fmt = x.fmt then
        { x with hist := o.hist, ver := o.ver, maxerr := o.maxerr, fails := o.fails, result := o.result, pending := o.pending }
        else { x with pending := o.pending }
    | none => x
  { s with fslots := sput s.fslots j y.form }
/-- sfarm (R441). -/
def execSfarm (d a b : Reg) (s : State) : Out :=
  runInstr (do
    let fin (n : Nat) (s : State) : State := (s.setX d (BitVec.ofNat 64 n)).advance
    match s.slotKey (s.x a) with
    | none => modify (fin 2)
    | some j => do
      let mine := (sfind s.fslots j).all (fun x => x.asid == s.me.e.asid && !slotHeld s j x)
      if s.x b = 0 then modify (fun s => if mine then fin 3 { s with fslots := sdel s.fslots j } else fin 1 s)
      else do
        if (s.x b).toNat % 8 ≠ 0 then trapM .misaligned (s.x b) 0 else pure ()
        let l ← readDwords (s.x b) 8
        modify (fun s =>
          match slotOf l s.me.e.asid with
          | none => fin 2 s
          | some x => if mine then fin 0 (armSlot s j x) else fin 1 s)) s

/-- A forecast slot of a die is replaced. -/
def State.putSlot (s : State) (j : Nat) (x : FSlot) : State := { s with fslots := sput s.fslots j x }
/-- spub (R443): it waits while a decision of the slot is pending, and in chrysalis, where the strand's earlier writes have not performed
at device scope before the task emerges, while the task has buffered any; the unit reads the tile under the ASID that armed the slot (R491). -/
def execSpub (d a : Reg) (s : State) : Out :=
  runInstr (do
    match s.mySlot (s.x a) with
    | none => modify (fun s => (s.setX d (BitVec.allOnes 64)).advance)
    | some (j, x) => do
      let s ← get
      if x.pending.isSome || (s.specTask s.key).any (fun p => !p.2.buf.isEmpty) then waitM else pure ()
      releaseM .device
      let r ← readTile (agentCtx s.key x.asid) x.tile x.len
      modify (fun s =>
        let s := acquire s s.core .device
        ((published s (j / 64) ⟨j % 64, x.ver + 1⟩).putSlot j (x.publish s.tick r.1 r.2) |>.setX d ((x.ver + 1).zeroExtend 64)).advance)) s

/-- sstat (R445). -/
def execSstat (d a : Reg) (s : State) : Out :=
  let v : Dword := match s.slotKey (s.x a) with
    | none => BitVec.allOnes 64
    | some j =>
      match sfind s.fslots j with
      | none => 0
      | some x =>
        if x.asid ≠ s.me.e.asid then BitVec.allOnes 64
        else
          x.maxerr ++ x.fails ++ x.result ++ BitVec.ofNat 2 x.hist.length ++ (if x.pending.isSome then (2 : BitVec 2) else 1) ++
            BitVec.ofNat 10 (min 1023 (slotHolders s j x).length)
  .next (s.setX d v).advance

/-- sabort (R454): after an spub whose decision is pending it is served after that decision, and closes the next open forecast; the
forecast that is open after it is formed from the same history. A strand whose own task it squashes goes on at its trun (R452). -/
def execSabort (d a : Reg) (s : State) : Out :=
  .next (match s.mySlot (s.x a) with
    | none => (s.setX d (BitVec.allOnes 64)).advance
    | some (j, x) =>
      if x.pending.isSome then s.block
      else
        let n := (slotHolders s j x).length
        let own := (slotHolders s j x).any (fun p => s.me.task == some p.1)
        let s := failForecast false (s.putSlot j ({ x with result := 3 } : FSlot).form) (j / 64) ⟨j % 64, x.ver + 1⟩
        if own then s else (s.setX d (BitVec.ofNat 64 n)).advance)

/-! ## sspawn (R446) -/

/-- A speculation record from its eight dwords: the slots, the ranges with their lengths, and whether a rule of its own is
broken. -/
def specRecord (l : List Nat) : List Nat × List Range × List Range × Bool :=
  let q (i : Nat) : Nat := l.getD i 0
  let slots := ((List.range 4).map (fun i => q 0 / 2 ^ (8 * i) % 256)).filter (· != 0xFF)
  let len (i : Nat) : Nat := q (5 + i / 2) / 2 ^ (32 * (i % 2)) % 2 ^ 32
  let rng (i : Nat) : Range := ⟨BitVec.ofNat 64 (q (1 + i)), len i⟩
  let used := (List.range 4).filter (fun i => len i != 0)
  let bad (i : Nat) : Bool := (rng i).base.toNat % 4 != 0 || len i % 4 != 0 || winCode (rng i).base == 0xF0 || winCode (rng i).base == 0xFE
  (slots, ([0, 1].filter (fun i => len i != 0)).map rng, ([2, 3].filter (fun i => len i != 0)).map rng,
    slots.isEmpty || q 0 / 2 ^ 32 != 0 || q 7 != 0 || used.any bad)
/-- sspawn (R446). -/
def execSspawn (d a b : Reg) (s : State) : Out :=
  runInstr (do
    let t ← readTask (s.x a) true
    if (s.x b).toNat % 8 ≠ 0 then trapM .misaligned (s.x b) 0
    else if winCode (s.x b) = 0xF0 ∨ winCode (s.x b) = 0xFE then trapM .classViolation (s.x b) 0
    else pure ()
    let l ← collectM (List.range 8) (fun i => do
      let s ← get
      let ea := s.x b + BitVec.ofNat 64 (8 * i)
      let t ← route s.ctx ea 8 .read 0 0
      let v ← readTarget s.ctx t 8 ea 0
      let s ← get
      pure (match s.specTask s.key with
        | some (_, k) => overlay k t.place 8 v
        | none => v))
    let r := specRecord l
    let s ← get
    let slots := r.1.map (fun n => (n, if n < 64 then s.mySlot (BitVec.ofNat 64 n) else none))
    let fin (n : Nat) : M Unit := modify (fun s => (s.setX d (spawnResult n 0)).advance)
    if refuses t s.futSize then fin 1
    else if r.2.2.2 || slots.any (fun p => p.2.isNone) then fin 3
    else if slots.any (fun p => p.2.any (fun q => q.2.forecast.isNone)) then fin 4
    else if 1024 ≤ ((dieTasks s (dieOf s.core)).filter (fun p => !p.2.set.isEmpty)).length then fin 5
    else if poolFull s t.queue then fin 2
    else do
      releaseM .die
      modify (fun s =>
        let j := (freeEntry s (dieOf s.core)).getD 0
        let named : List Fc := (slots.map (fun p => (⟨p.1, (p.2.elim 0 (fun q => q.2.ver)) + 1⟩ : Fc))).dedup
        let par := s.specTask s.key
        let set := unionSet (par.elim [] (fun p => p.2.set)) named
        let x : Task := { s.newTask t with set := set, origSet := set, reads := r.2.1, writes := r.2.2.1, derived := par.isSome
                                           parent := par.map (·.1) }
        ((enqueue s j x).setX d (spawnResult 0 (handleOf j))).advance)) s

end Sys2Proof.Machine
end

