-- ==== Sys2Proof/Machine/Solver.lean ====
section
/-! DEFINITION. The solver sequencer of a die (R456 to R473): its combiner, the rounds of a run as the three SQ events carry
them on, and the instructions of major 0x34 (SQ). -/

namespace Sys2Proof.Machine
open Sys2Proof

/-! ## FP32 arithmetic under RNE, flags discarded (R466) -/

/-- An FP32 value. -/
def v32 (x : Nat) : FVal := unpack fmt32 x
/-- round(a × b + c). -/
def fma32 (a b c : Nat) : Nat := (fpFmaV fmt32 .rne (v32 a) (v32 b) (v32 c)).1
/-- round(a + b). -/
def add32 (a b : Nat) : Nat := (fpAddV fmt32 .rne (v32 a) (v32 b)).1
/-- round(a − b). -/
def sub32 (a b : Nat) : Nat := (fpAddV fmt32 .rne (v32 a) (v32 b).negate).1
/-- round(a × b). -/
def mul32 (a b : Nat) : Nat := (fpMulV fmt32 .rne (v32 a) (v32 b)).1
/-- round(a ÷ b). -/
def div32 (a b : Nat) : Nat := (fpDivV fmt32 .rne (v32 a) (v32 b)).1
/-- a < b. -/
def lt32 (a b : Nat) : Bool := fpLt (v32 a) (v32 b)
/-- A coefficient that is zero is skipped. -/
def zero32 (x : Nat) : Bool := (v32 x).isZero
/-- s of R466 for one element: coefficients with the k values, in order. -/
def sum32 (coefs ks : List Nat) : Nat := (coefs.zip ks).foldl (fun s p => if zero32 p.1 then s else fma32 p.1 p.2 s) 0

/-- The factor-table entry that a norm selects (R468). -/
def factorIndex (norm : Nat) : Nat :=
  let e := norm / 2 ^ 23 % 256
  if e < 119 then 0 else if 134 < e then 63 else 4 * (e - 119) + norm / 2 ^ 21 % 4

/-! ## Access to the sequencer and its memory -/

/-- The sequencer of a die. -/
def State.solver (s : State) (d : Nat) : Solver := sget {} s.solvers d
/-- Replace the sequencer of a die. -/
def State.setSolver (s : State) (d : Nat) (x : Solver) : State := { s with solvers := sput s.solvers d x }
/-- The context of a sequencer's accesses (R457). -/
def Solver.ctx (x : Solver) : Ctx := agentCtx x.strand x.asid
/-- n FP32 values at an address, and whether a word was poisoned. -/
def readVals (c : Ctx) (a : Dword) (n : Nat) : M (List Nat × Bool) := do
  let l ← collectM (List.range n) (fun i => engineRead c none (a + BitVec.ofNat 64 (4 * i)) 4)
  pure (l.map (·.1), l.any (fun r => r.2.1))
/-- Write words at an address; a page of a poison range takes none (R488). -/
def writeVals (c : Ctx) (a : Dword) (l : List Nat) : M Unit :=
  eachM ((List.range l.length).zip l) (fun p => do
    let ea := a + BitVec.ofNat 64 (4 * p.1)
    let r ← engineWrite c none ea 4 p.2 false false true
    if r.2 then trapM .memPoison ea 0 else pure ())
/-- A dword as two words. -/
def halves (v : Dword) : List Nat := [v.toNat % 2 ^ 32, v.toNat / 2 ^ 32]
/-- A dword at an address; poison counts as a failure. -/
def readDword (c : Ctx) (a : Dword) : M Nat := do
  let (v, p, q) ← engineRead c none a 8
  if p || q then trapM .memPoison a 0 else pure v

/-- How work on a sample ended. -/
inductive Work where | ok | left (st : SStatus)
  deriving DecidableEq, Repr
/-- Run work on a sample (R467): poison that it met, or a fault, makes the sample leave the run. -/
def work (m : M Bool) : M Work := do
  match ← unlessFault m with
  | .ok p => pure (if p then .left .poisoned else .ok)
  | .error t => pure (if t.cause = .memPoison then .left .poisoned else .left .faulted)

/-! ## Samples -/

/-- Slot m of a sample's history buffer (R461). -/
def Sample.slot (x : Sample) (m : Nat) : Dword := x.hist + BitVec.ofNat 64 (4 * x.nelem * m)
/-- The indexes of the ACTIVE samples. -/
def Solver.active (x : Solver) : List Nat := (List.range x.samples.length).filter (fun i => (x.samples[i]?).any (fun y => y.status == .active))
/-- Change sample i. -/
def Solver.updSample (x : Solver) (i : Nat) (f : Sample → Sample) : Solver :=
  { x with samples := (List.range x.samples.length).zip x.samples |>.map (fun p => if p.1 = i then f p.2 else p.2) }
/-- A sample's record as words (R460). -/
def Sample.record (x : Sample) : List Nat :=
  [x.t.toNat, x.h.toNat, x.tend.toNat, x.norm.toNat, x.nacc.toNat, x.nrej.toNat,
   x.status.code.toNat + 2 ^ 8 * x.stage.toNat + 2 ^ 16 * x.fslot.toNat, x.nelem] ++ halves x.y ++ halves x.hist ++ [0, 0, 0, 0]
/-- Write the records of the samples of a list (R460, R469): the answer says that no write failed. -/
def writeRecords (d : Nat) (l : List Nat) : M Bool := do
  let s ← get
  let x := s.solver d
  match x.block with
  | none => pure true
  | some b => do
    let r ← collectM l (fun i =>
      match x.samples[i]? with
      | some y => unlessFault (writeVals x.ctx (b.recbase + BitVec.ofNat 64 (64 * i)) y.record)
      | none => pure (.ok ()))
    pure (r.all (·.isOk))

/-! ## The end of a run -/

/-- The open hand-off forecasts of a run are closed as sabort does, their tasks discarded (R471), and their slots freed. -/
def closeHandoffs (s : State) (d : Nat) : State :=
  (s.solver d).samples.foldl (fun s y =>
    let j := 64 * d + y.fslot.toNat
    match (if y.fslot.toNat = 0xFF then none else sfind s.fslots j) with
    | some x =>
      if x.handoff then
        let s := failForecast true s d ⟨y.fslot.toNat, x.ver + 1⟩
        { s with fslots := sdel s.fslots j }
      else s
    | none => s) s
/-- The pending decision of a slot of the die is served first (R443, R454): the work waits while it cannot be. -/
def settleSlot (d : Nat) (f : BitVec 8) : M Unit := do
  if f = 0xFF then pure ()
  else do
    modify (fun s => decideForecast s d f.toNat)
    let s ← get
    if (sfind s.fslots (64 * d + f.toNat)).any (·.pending.isSome) then waitM else pure ()
/-- A run ends with a code (R469, R473): records are written, and the word at ENDADDR counts up; one that is stopped also
releases the sequencer, and its samples stay as they are. -/
def endRun (d : Nat) (code : BitVec 8) : M Unit := do
  modify (fun s => if (s.solver d).stopping then closeHandoffs s d else s)
  let s ← get
  let x := s.solver d
  let ok ← writeRecords d (List.range x.samples.length)
  match x.block with
  | some b => do
    let _ ← unlessFault (do
      let v ← readDword x.ctx b.endaddr
      let _ ← engineWrite x.ctx none b.endaddr 8 (v + 1) false false true
      pure ())
  | none => pure ()
  modify (fun s =>
    if x.stopping then s.setSolver d { x with owner := none, phase := none, ended := true, stopping := false, rcode := code, handed := [], held := [] }
    else s.setSolver d { x with phase := none, ended := true, rcode := if ok ∨ code ≠ 0 then code else 2 })

/-! ## Launches (R464, R465) -/

/-- The stage argument block's words: j, SPEC, c[j] and the entries. -/
def argWords (j : Nat) (round : BitVec 32) (spec : Bool) (cj : Word) (ents : List (List Nat)) : List Nat :=
  [j, ents.length, round.toNat, if spec then 1 else 0, cj.toNat] ++ List.replicate 11 0 ++ ents.flatten
/-- One entry of the block. -/
def argEntry (x : Sample) (i : Nat) (time : Nat) (xaddr kaddr : Dword) (spec : Bool) : List Nat :=
  [i, time] ++ halves xaddr ++ halves kaddr ++ [x.nelem, if spec then x.fslot.toNat else 0xFF]
/-- The words of a launch record of the sequencer (R63, R465). -/
def launchWords (b : SqBlock) (tag : Nat) : List Nat :=
  halves b.image ++ halves b.argbase ++ halves b.cwaddr ++ halves b.craddr ++ List.replicate 16 0 ++ [b.prio, 0] ++
    [tag % 2 ^ 32, tag / 2 ^ 32] ++ List.replicate 4 0
/-- The ring of the sequencer's queue is full. -/
def ringFull (s : State) (q : Nat) : Bool :=
  let x := s.queue q
  decide (2 ^ x.log2size ≤ (x.tail - x.head).toNat)
/-- Make a launch (R464, R465); a fault ends the run with LAUNCH, and the doorbell of no queue is ignored (R58). -/
def makeLaunch (d j : Nat) (spec : Bool) (ents : List (List Nat)) (next : SqPhase) : M Unit := do
  let s ← get
  let x := s.solver d
  match x.block, x.table with
  | some b, some t => do
    let q := s.queue b.qid
    let at_ := q.base + BitVec.ofNat 64 (128 * (q.tail.toNat % 2 ^ q.log2size))
    match ← unlessFault (do
      writeVals x.ctx b.argbase (argWords j x.begun spec (t.c.getD j 0) ents)
      writeVals x.ctx at_ (launchWords b (x.begun.toNat * 2 ^ 16 + (if spec then 2 ^ 8 else 0) + j))) with
    | .ok _ =>
      modify (fun s =>
        let s := s.setSolver d { s.solver d with launches := x.launches + 1, phase := some next }
        if b.qid < s.lu.qcount.toNat then s.setOff (.doorbell b.qid (q.tail + 1) none) else s)
    | .error _ => endRun d 2
  | _, _ => pure ()

/-- The values k_m of a sample whose coefficients are not zero: a list of n elements for each m; a zero coefficient reads
nothing. -/
def readKs (c : Ctx) (y : Sample) (coefs : List Nat) : M (List (List Nat) × Bool) := do
  let l ← collectM ((List.range coefs.length).zip coefs) (fun p =>
    if zero32 p.2 then pure (List.replicate y.nelem 0, false) else readVals c (y.slot p.1) y.nelem)
  pure (l.map (·.1), l.any (·.2))
/-- Column i of lists. -/
def column (l : List (List Nat)) (i : Nat) : List Nat := l.map (fun x => x.getD i 0)
/-- round(H × s + y) for each element, into a slot (R466). -/
def combine (c : Ctx) (y : Sample) (coefs : List Nat) (slot : Nat) : M Bool := do
  let k ← readKs c y coefs
  let v ← readVals c y.y y.nelem
  if k.2 || v.2 then pure true
  else do
    writeVals c (y.slot slot) ((List.range y.nelem).map (fun i => fma32 y.h.toNat (sum32 coefs (column k.1 i)) (v.1.getD i 0)))
    pure false

/-- Do work for the samples of a list in ascending index: those that leave the run change their status and their record is
written; the answer says that no such write failed (R467). -/
def eachSample (d : Nat) (f : Solver → Nat → Sample → M Bool) : List Nat → M Bool
  | [] => pure true
  | i :: l => do
    let s ← get
    let x := s.solver d
    let ok ← (match x.samples[i]? with
      | none => pure true
      | some y => do
        match ← work (f x i y) with
        | .ok => pure true
        | .left st => do
          modify (fun s => s.setSolver d ((s.solver d).updSample i (fun y => { y with status := st })))
          writeRecords d [i])
    let rest ← eachSample d f l
    pure (ok && rest)

/-- Row j of the coefficients a (R459). -/
def SqTable.row (t : SqTable) (j : Nat) : List Nat := (List.range j).map (fun m => (t.a.getD (6 * j + m) 0).toNat)
/-- The participants of stage j (R464). -/
def participants (x : Solver) (j : Nat) : List Nat :=
  x.active.filter (fun i => j != 0 || (x.samples[i]?).any (fun y => !y.k0))

/-- The state of a sequencer's run moves on. -/
def setPhase (d : Nat) (p : SqPhase) : M Unit := modify (fun s => s.setSolver d { s.solver d with phase := some p })
/-- Stage j is launched, or skipped when it has no participant. -/
def stageLaunch (d j : Nat) (b : SqBlock) (t : SqTable) : M Unit := do
  let s ← get
  let x := s.solver d
  if x.active.isEmpty then endRun d 0
  else if t.stages ≤ j then setPhase d .candidates
  else if (participants x j).isEmpty then setPhase d (.launch (j + 1))
  else if ringFull s b.qid then pure ()
  else do
    modify (fun s => s.setSolver d
      ((participants x j).foldl (fun x i => x.updSample i (fun y => { y with stage := BitVec.ofNat 8 j })) x))
    let ok ← eachSample d (fun x _ y => if j = 0 then pure false else combine x.ctx y (t.row j) 6) (participants x j)
    let s2 ← get
    let x := s2.solver d
    let ents := (participants x j).filterMap (fun i => (x.samples[i]?).map (fun y =>
      argEntry y i (fma32 (t.c.getD j 0).toNat y.h.toNat y.t.toNat) (if j = 0 then y.y else y.slot 6) (y.slot j) false))
    if !ok then endRun d 2 else if ents.isEmpty then setPhase d (.launch (j + 1)) else makeLaunch d j false ents (.await j)

/-- The candidates are formed, handed to their forecast slots, and the hand-off is launched (R466, R470). -/
def formCandidates (d : Nat) (b : SqBlock) (t : SqTable) : M Unit := do
  let s ← get
  if b.handoff && ringFull s b.qid then pure ()
  else do
    let ok ← eachSample d (fun x _ y => combine x.ctx y ((t.b.take t.stages).map (·.toNat)) 7) (s.solver d).active
    let handed (x : Solver) : List Nat := x.active.filter (fun i => b.handoff && (x.samples[i]?).any (fun y => y.fslot != 0xFF))
    let s1 ← get
    let given ← eachSample d (fun x _ y => do
      let r ← readTile x.ctx (y.slot 7) (4 * y.nelem)
      modify (fun s =>
        match sfind s.fslots (64 * d + y.fslot.toNat) with
        | some f => { s with fslots := sput s.fslots (64 * d + y.fslot.toNat) { f with forecast := some r.1 } }
        | none => s)
      pure r.2) (handed (s1.solver d))
    let s2 ← get
    let x := s2.solver d
    let hand := handed x
    modify (fun s => s.setSolver d { s.solver d with handed := hand, held := [], since := s.now })
    if !(ok && given) then endRun d 2
    else if hand.isEmpty then setPhase d .decide
    else
      makeLaunch d 0 true (hand.filterMap (fun i => (x.samples[i]?).map (fun y =>
        argEntry y i (add32 y.t.toNat y.h.toNat) y.y (y.slot 0) true))) .decide

/-- Enough launches have completed: the word at CWADDR counts them (R464); none when it cannot be read. -/
def launchesDone (x : Solver) (b : SqBlock) (n : Nat) : M (Option Bool) := do
  match ← unlessFault (readDword x.ctx b.cwaddr) with
  | .ok v => pure (some (decide (n ≤ (BitVec.ofNat 64 v - x.base).toNat)))
  | .error _ => pure none
/-- The launches that an sqend waits for (R473). -/
def stopNeed (s : State) (x : Solver) (b : SqBlock) : Nat :=
  let q := (s.queue b.qid).state
  if q = .disabled ∨ q = .error then min x.launches x.accepted else x.launches
/-- A run that is to stop ends when the launches it waits for are done (R473); it waits no longer for those that a disabled or failed
queue had not accepted, and the pending decisions of its hand-off slots come first. -/
def tryStop (d : Nat) (x : Solver) (b : SqBlock) : M Unit := do
  let s ← get
  let need := stopNeed s x b
  modify (fun s => s.setSolver d { s.solver d with launches := need })
  if (← launchesDone x b need) = some false then pure ()
  else do
    eachM x.samples (fun y => settleSlot d y.fslot)
    endRun d 3

/-- SQ_STAGE_LAUNCH (R464, R470). -/
def execSqStageLaunch (die : Nat) (s : State) : Out :=
  let x := s.solver die
  .next (unitWork (match x.block, x.table, x.phase with
    | some b, some t, some (.launch j) => if x.stopping then tryStop die x b else stageLaunch die j b t
    | some b, some t, some .candidates => if x.stopping then tryStop die x b else formCandidates die b t
    | _, _, _ => pure ()) s)

/-- The completion record at CRADDR says SUCCESS (R464); none when it cannot be read. -/
def launchOk (x : Solver) (b : SqBlock) : M (Option Bool) := do
  match ← unlessFault (readDword x.ctx (b.craddr + 8)) with
  | .ok v => pure (some (v % 2 ^ 16 == 0))
  | .error _ => pure none
/-- The next round begins, or the run ends when no sample is ACTIVE (R469). -/
def nextRound (d : Nat) : M Unit := do
  let s ← get
  let x := s.solver d
  if x.active.isEmpty then endRun d 0
  else modify (fun s => s.setSolver d { x with phase := some (.launch 0), begun := x.begun + 1, handed := [] })
/-- A launch that is waited for is complete: next says what follows. -/
def launchComplete (d : Nat) (x : Solver) (b : SqBlock) (next : M Unit) : M Unit := do
  match ← launchesDone x b x.launches with
  | none => endRun d 2
  | some false => pure ()
  | some true =>
    match ← launchOk x b with
    | none => endRun d 2
    | some false => endRun d 1
    | some true => next
/-- SQ_STAGE_COMPLETE (R464, R470): a hand-off launch is complete once the decisions of its forecasts are served too; a sample then has a
valid k_0 where a task that held its forecast has emerged (R471). -/
def execSqStageComplete (die : Nat) (s : State) : Out :=
  let x := s.solver die
  .next (unitWork (match x.block, x.phase with
    | some b, some (.await j) =>
      if x.stopping then tryStop die x b else launchComplete die x b (setPhase die (.launch (j + 1)))
    | some b, some .handoff =>
      if x.stopping then tryStop die x b
      else launchComplete die x b (do
        eachM x.handed (fun i => settleSlot die ((x.samples[i]?).elim 0xFF (·.fslot)))
        modify (fun s =>
          let x := s.solver die
          s.setSolver die (x.held.foldl (fun x i => x.updSample i (fun y => { y with k0 := true })) x))
        nextRound die)
    | _, _ => pure ()) s)

/-! ## Decisions (R468, R471) -/

/-- NORM of a sample (R466): a NaN of y or of the candidate makes it NaN (R471). -/
def normOf (b : SqBlock) (y : Sample) (old new err : List Nat) : Nat :=
  let mag (n : Nat) : Nat := n % 2 ^ 31
  let q := (List.range y.nelem).foldl (fun q i =>
    let a := mag (old.getD i 0)
    let c := mag (new.getD i 0)
    let m := if (v32 a).isNan || (v32 c).isNan then 0x7FC00000 else if lt32 a c then c else a
    let sc := fma32 b.rtol.toNat m b.atol.toNat
    let r := div32 (err.getD i 0) sc
    fma32 r r q) 0
  (fpSqrtV fmt32 .rne (v32 (div32 q (intToFp fmt32 .rne y.nelem).1))).1
/-- NORM ≤ 1. -/
def acceptable (norm : Nat) : Bool := !(v32 norm).isNan && !lt32 0x3F800000 norm
/-- The sample after its decision (R468). -/
def decideSample (b : SqBlock) (y : Sample) (norm : Nat) : Sample :=
  let hn0 := mul32 y.h.toNat (b.factors.getD (factorIndex norm) 0).toNat
  let lo := if lt32 hn0 b.hmin.toNat then b.hmin.toNat else hn0
  let hn := if lt32 b.hmax.toNat lo then b.hmax.toNat else lo
  let y := { y with norm := BitVec.ofNat 32 norm }
  if acceptable norm then
    let t := add32 y.t.toNat y.h.toNat
    let y := { y with t := BitVec.ofNat 32 t, nacc := y.nacc + 1, k0 := false }
    if !lt32 t y.tend.toNat then { y with status := .done }
    else
      let rest := sub32 y.tend.toNat t
      { y with h := BitVec.ofNat 32 (if lt32 rest hn then rest else hn) }
  else
    let y := { y with nrej := y.nrej + 1, k0 := true }
    if lt32 hn y.h.toNat then { y with h := BitVec.ofNat 32 hn } else { y with status := .stalled }

/-- A hand-off slot after its decision: a task spawned then holds its next open forecast (R545), and since the sequencer has formed no
candidate for it, what a load of the tile returns is free (assumption 62). -/
def State.nextHandoff (s : State) (j : Nat) (f : FSlot) : State :=
  let v := (s.freeVal (8 * f.len)).toNat
  s.bumpFree.putSlot j { f with forecast := some ((List.range f.len).map (fun i => BitVec.ofNat 8 (v / 2 ^ (8 * i)))) }
/-- The decision of one participant: its norm, the copy of an accepted candidate, and its hand-off (R471). -/
def decideOne (d : Nat) (b : SqBlock) (t : SqTable) (x : Solver) (i : Nat) (y : Sample) : M Bool := do
  let k ← readKs x.ctx y ((t.d.take t.stages).map (·.toNat))
  let old ← readVals x.ctx y.y y.nelem
  let new ← readVals x.ctx (y.slot 7) y.nelem
  if k.2 || old.2 || new.2 then pure true
  else do
    let err := (List.range y.nelem).map (fun i => mul32 y.h.toNat (sum32 ((t.d.take t.stages).map (·.toNat)) (column k.1 i)))
    let norm := normOf b y old.1 new.1 err
    let j := 64 * d + y.fslot.toNat
    if x.handed.contains i then settleSlot d y.fslot else pure ()
    if acceptable norm then writeVals x.ctx y.y new.1 else pure ()
    modify (fun s =>
      match (if x.handed.contains i then sfind s.fslots j else none) with
      | none => s
      | some f =>
        if acceptable norm then
          (published s d ⟨y.fslot.toNat, f.ver + 1⟩).nextHandoff j (f.publish s.tick (elemBytes 32 new.1) false)
        else failForecast true (s.nextHandoff j { f with result := 3 }) d ⟨y.fslot.toNat, f.ver + 1⟩)
    modify (fun s => s.setSolver d ((s.solver d).updSample i (fun y => decideSample b y norm)))
    pure false
/-- SQ_DECISION (R468, R469, R471). -/
def execSqDecision (die : Nat) (s : State) : Out :=
  let x := s.solver die
  .next (unitWork (match x.block, x.table, x.phase with
    | some b, some t, some .decide =>
      if x.stopping then tryStop die x b
      else do
        let ok ← eachSample die (decideOne die b t) x.active
        modify (fun s => s.setSolver die { s.solver die with rounds := (s.solver die).rounds + 1 })
        let s2 ← get
        if !((← writeRecords die (List.range (s2.solver die).samples.length)) && ok) then endRun die 2
        else do
          modify (fun s => kernelProgress s ((s.solver die).owner.getD (2 ^ 40)))
          let s3 ← get
          if (s3.solver die).handed.isEmpty then nextRound die else setPhase die .handoff
    | _, _, _ => pure ()) s)

/-! ## The SQ instructions -/

/-- The kernel of the acting strand by its key. -/
def State.myKernel (s : State) : Option Nat := (s.groupOf s.key).map (·.kernel)
/-- The acting strand's kernel owns the sequencer of its die. -/
def ownsSolver (s : State) : Bool :=
  match (s.solver (dieOf s.core)).owner, s.myKernel with
  | some a, some b => a == b
  | _, _ => false
/-- A run is in progress. -/
def Solver.running (x : Solver) : Bool := x.phase.isSome
/-- 32-bit word i of a structure read as dwords. -/
def wordAt (l : List Nat) (i : Nat) : Nat := l.getD (i / 2) 0 / 2 ^ (32 * (i % 2)) % 2 ^ 32
/-- Byte i of a structure read as dwords. -/
def byteAt (l : List Nat) (i : Nat) : Nat := l.getD (i / 8) 0 / 2 ^ (8 * (i % 8)) % 256
/-- Finite and above 0. -/
def positive32 (n : Nat) : Bool := finite32 n && decide (n < 2 ^ 31) && n != 0

/-- The control block of twelve dwords (R458), without its factors, and whether a field breaks a rule; FTAB is the second
answer. -/
def sqBlockOf (l : List Nat) : SqBlock × Dword × Bool :=
  let q (i : Nat) : Dword := BitVec.ofNat 64 (l.getD i 0)
  let endaddr : Dword := BitVec.ofNat 64 (wordAt l 17 + 2 ^ 32 * wordAt l 18)
  let b : SqBlock :=
    { image := q 0, argbase := q 1, cwaddr := q 2, craddr := q 3, recbase := q 5, qid := l.getD 6 0 % 2 ^ 16, prio := byteAt l 50
      handoff := (byteAt l 51).testBit 0, hmin := BitVec.ofNat 32 (wordAt l 13), hmax := BitVec.ofNat 32 (wordAt l 14)
      atol := BitVec.ofNat 32 (wordAt l 15), rtol := BitVec.ofNat 32 (wordAt l 16), endaddr := endaddr, factors := [] }
  (b, q 4,
    (q 1).toNat % 64 != 0 || winCode (q 1) != 0 || (q 2).toNat % 8 != 0 || (q 3).toNat % 32 != 0 || (q 4).toNat % 64 != 0 ||
    (q 5).toNat % 64 != 0 || decide (7 < byteAt l 50) || decide (1 < byteAt l 51) || !positive32 (wordAt l 13) ||
    !finite32 (wordAt l 14) || lt32 (wordAt l 14) (wordAt l 13) || !notNeg32 (wordAt l 15) || !notNeg32 (wordAt l 16) ||
    (zero32 (wordAt l 15) && zero32 (wordAt l 16)) || endaddr.toNat % 8 != 0 ||
    (upFrom 19 5).any (fun i => wordAt l i != 0))
/-- An aligned structure of n dwords. -/
def readStruct (a : Dword) (align n : Nat) : M (List Nat) := do
  if a.toNat % align ≠ 0 then trapM .misaligned a 0 else readDwords a n
/-- Answer a status. -/
def answer (d : Reg) (v : Dword) : M Unit := modify (fun s => (s.setX d v).advance)

/-- sqinit (R457, R458). -/
def execSqinit (d a : Reg) (s : State) : Out :=
  let die := dieOf s.core
  runInstr (do
    if (s.x a).toNat % 64 ≠ 0 then trapM .misaligned (s.x a) 0 else pure ()
    if (s.solver die).running || ((s.solver die).owner.isSome && !ownsSolver s) then answer d 1
    else do
      let l ← readDwords (s.x a) 12
      let r := sqBlockOf l
      if r.2.2 || s.myKernel.isNone then answer d 2
      else do
        let f ← readDwords r.2.1 32
        let fs := (List.range 64).map (wordAt f)
        if !fs.all positive32 then answer d 2
        else do
          modify (fun s => s.setSolver die
            { owner := s.myKernel, strand := s.key, asid := s.me.e.asid, enders := nsErase (s.solver die).enders s.key
              block := some { r.1 with factors := fs.map (BitVec.ofNat 32) } })
          answer d 0) s

/-- The coefficient table of 32 dwords (R459); none where a rule is broken. -/
def sqTableOf (l : List Nat) : Option SqTable :=
  let w (o i : Nat) : Nat := wordAt l (o / 4 + i)
  let n := byteAt l 0
  let six := List.range 6
  let vals := (List.range 36).map (w 8) ++ six.map (w 0x98) ++ six.map (w 0xB0) ++ six.map (w 0xC8)
  if 1 ≤ n ∧ n ≤ 6 ∧ l.getD 0 0 / 256 = 0 ∧ (upFrom 56 8).all (fun i => wordAt l i == 0) ∧ vals.all finite32 ∧
     six.all (fun j => six.all (fun m => zero32 (w 8 (6 * j + m)) || (decide (m < j) && decide (j < n)))) ∧
     (upFrom n (6 - n)).all (fun m => zero32 (w 0x98 m) && zero32 (w 0xB0 m) && zero32 (w 0xC8 m)) then
    some { stages := n, a := (List.range 36).map (fun i => BitVec.ofNat 32 (w 8 i)), b := six.map (fun i => BitVec.ofNat 32 (w 0x98 i))
           c := six.map (fun i => BitVec.ofNat 32 (w 0xC8 i)), d := six.map (fun i => BitVec.ofNat 32 (sub32 (w 0x98 i) (w 0xB0 i))) }
  else none
/-- sqtab (R459). -/
def execSqtab (d a : Reg) (s : State) : Out :=
  let die := dieOf s.core
  runInstr (do
    if (s.x a).toNat % 64 ≠ 0 then trapM .misaligned (s.x a) 0 else pure ()
    if (s.solver die).running then answer d 1
    else if !ownsSolver s then answer d 3
    else do
      let l ← readDwords (s.x a) 32
      match sqTableOf l with
      | none => answer d 2
      | some t => do
        modify (fun s => s.setSolver die { s.solver die with table := some t })
        answer d 0) s

/-- A sample from its descriptor's eight dwords (R460, R462); none where a rule is broken. -/
def sampleOf (b : SqBlock) (l : List Nat) : Option Sample :=
  let h := wordAt l 1
  let n := wordAt l 7
  let f := byteAt l 0x1A
  if wordAt l 3 = 0 ∧ wordAt l 4 = 0 ∧ wordAt l 5 = 0 ∧ byteAt l 0x18 = 0 ∧ byteAt l 0x19 = 0 ∧ byteAt l 0x1B = 0 ∧ l.getD 6 0 = 0 ∧
     l.getD 7 0 = 0 ∧ finite32 (wordAt l 0) ∧ finite32 (wordAt l 2) ∧ positive32 h ∧ n % 16 = 0 ∧ 16 ≤ n ∧ n ≤ 16384 ∧
     l.getD 4 0 % 64 = 0 ∧ l.getD 4 0 < 2 ^ 56 ∧ l.getD 5 0 % 64 = 0 ∧ l.getD 5 0 < 2 ^ 56 ∧ (f < 64 ∨ f = 0xFF) then
    let lo := if lt32 h b.hmin.toNat then b.hmin.toNat else h
    some { t := BitVec.ofNat 32 (wordAt l 0), h := BitVec.ofNat 32 (if lt32 b.hmax.toNat lo then b.hmax.toNat else lo)
           tend := BitVec.ofNat 32 (wordAt l 2), status := if lt32 (wordAt l 0) (wordAt l 2) then .active else .done
           fslot := BitVec.ofNat 8 f, nelem := n, y := BitVec.ofNat 64 (l.getD 4 0), hist := BitVec.ofNat 64 (l.getD 5 0) }
  else none
/-- sqadd (R462). -/
def execSqadd (d a : Reg) (s : State) : Out :=
  let die := dieOf s.core
  runInstr (do
    if (s.x a).toNat % 8 ≠ 0 then trapM .misaligned (s.x a) 0 else pure ()
    match (if ownsSolver s && !(s.solver die).running then (s.solver die).block else none) with
    | none => answer d (BitVec.allOnes 64 - 2)
    | some b => do
      let l ← readDwords (s.x a) 8
      match sampleOf b l with
      | none => answer d (BitVec.allOnes 64)
      | some y =>
        if 4096 ≤ (s.solver die).samples.length then answer d (BitVec.allOnes 64 - 1)
        else do
          modify (fun s => s.setSolver die { s.solver die with samples := (s.solver die).samples ++ [y] })
          answer d (BitVec.ofNat 64 (s.solver die).samples.length)) s

/-- The slot that a run arms for a sample's hand-off (R470). -/
def handoffSlot (x : Solver) (y : Sample) : FSlot :=
  { asid := x.asid, tile := y.y, len := 4 * y.nelem, fmt := 0, mode := 3, w := (Vector.replicate 3 0).set 0 0x3F800000, handoff := true }
/-- The hand-off slots of a run are armed and receive y as their first version (R470). -/
def armHandoffs (d : Nat) : M Bool := do
  let s ← get
  eachSample d (fun x _ y =>
    if y.fslot = 0xFF then pure false
    else do
      let r ← readTile x.ctx y.y (4 * y.nelem)
      modify (fun s => s.putSlot (64 * d + y.fslot.toNat) ((handoffSlot x y).publish s.tick r.1 false))
      pure r.2) (s.solver d).active
/-- sqgo (R463, R470). -/
def execSqgo (d : Reg) (s : State) : Out :=
  let die := dieOf s.core
  let x := s.solver die
  runInstr (
    if !ownsSolver s || x.running then answer d 1
    else
      match x.block, x.table with
      | some b, some t =>
        let act := x.active.filterMap (fun i => x.samples[i]?)
        if x.samples.isEmpty then answer d 2
        else if b.handoff && (!zero32 (t.c.getD 0 0).toNat ||
            act.any (fun y => y.fslot != 0xFF && (sfind s.fslots (64 * die + y.fslot.toNat)).isSome)) then answer d 3
        else do
          releaseM .device
          let x := { x with phase := some (.launch 0), ended := false, rcode := 0, begun := 1, rounds := 0, launches := 0, accepted := 0
                            handed := [], held := [], stopping := false, enders := nsErase x.enders s.key }
          wholeM (do
            match ← unlessFault (readDword x.ctx b.cwaddr) with
            | .ok v => do
              modify (fun s => s.setSolver die { x with base := BitVec.ofNat 64 v })
              if b.handoff then
                if ← armHandoffs die then pure () else endRun die 2
              else pure ()
            | .error _ => do
              modify (fun s => s.setSolver die x)
              endRun die 2)
          answer d 0
      | _, _ => answer d 2) s

/-- sqstat (R472). -/
def execSqstat (d a : Reg) (s : State) : Out :=
  let x := s.solver (dieOf s.core)
  let v : Dword :=
    if x.owner.isSome && !ownsSolver s then BitVec.allOnes 64
    else
      match (if (s.x a).toNat < x.samples.length then x.samples[(s.x a).toNat]? else none) with
      | some y => y.norm ++ y.status.code ++ y.stage ++ BitVec.ofNat 16 (min y.nrej.toNat 0xFFFF)
      | none =>
        let rs : BitVec 8 := if x.owner.isNone then 0 else if x.running then 2 else if x.ended then 3 else 1
        rs ++ x.rcode ++ (0 : BitVec 3) ++ BitVec.ofNat 13 x.active.length ++ x.rounds
  .next (s.setX d v).advance

/-- sqend (R473). -/
def execSqend (d : Reg) (s : State) : Out :=
  let die := dieOf s.core
  let x := s.solver die
  .next (if x.enders.contains s.key && !(x.running && x.stopping) then
      ((s.setSolver die { x with enders := nsErase x.enders s.key }).setX d 0).advance
    else if !ownsSolver s then (s.setX d 1).advance
    else if x.running then (s.setSolver die { x with stopping := true, enders := nsInsert x.enders s.key }).block
    else ((s.setSolver die { x with owner := none }).setX d 0).advance)

end Sys2Proof.Machine
end

