-- ==== Sys2Proof/Machine/Launch.lean ====
section
/-! DEFINITION. The launch unit (R53 to R79, R546): queues and their descriptors, doorbells, the slots, acceptance and the
checks on images. -/

namespace Sys2Proof.Machine
open Sys2Proof

/-! ## Accesses (R53, R54, R491, R546) -/

/-- The context of the launch unit's accesses for a process. -/
def luCtx (a : BitVec 16) : Ctx := { key := 384, asid := a, user := a != 0, table := none, tlb := false }
/-- The physical address of an access of the launch unit, after its checks (R546, R133, R57), at a home that serves it now (R303). -/
def luAddr (a : BitVec 16) (ea : Dword) (n : Nat) (acc : Acc) : M Nat := do
  if ea.toNat % n ≠ 0 then trapM .misaligned ea 0 else pure ()
  if winCode ea ≠ 0 then trapM .windowInvalid ea 0 else pure ()
  if winOff ea ≥ 2 ^ 52 then trapM .windowRange ea 0 else pure ()
  let t ← translate (luCtx a) (winOff ea) acc ea 0
  forbidClass (· == .d) t ea 0
  match t with
  | .glob pa _ => do
    homeFree (luCtx a) pa ea 0
    pure pa
  | t => do
    t.lateM ea 0
    trapM .classViolation ea 0
/-- Read n bytes at the homes. -/
def luRead (a : BitVec 16) (ea : Dword) (n : Nat) : M Nat := do
  let pa ← luAddr a ea n .read
  let s ← get
  match homeRead s pa n with
  | some v => pure v
  | none => trapM .memPoison ea 0
/-- Write n bytes at the homes; a poisoned word there stops it (R56, R78). -/
def luWrite (a : BitVec 16) (ea : Dword) (n v : Nat) : M Unit := do
  let pa ← luAddr a ea n .write
  let s ← get
  if (upFrom (pa / 4) ((n + 3) / 4)).any (wordPoisoned s) then trapM .memPoison ea 0
  else
    match homeWriteN s pa n v with
    | some s' => set s'
    | none => trapM .memPoison ea 0
/-- The dwords of a structure. -/
def luDwords (a : BitVec 16) (ea : Dword) (n : Nat) : M (List Nat) :=
  collectM (List.range n) (fun i => luRead a (ea + BitVec.ofNat 64 (8 * i)) 8)

/-- How work of the launch unit ended: with a result, with a cause, or it has to wait, for a home (R303) or for the host's translation
(R509). -/
inductive Got (α : Type) where
  | ok (a : α)
  | bad (c : Cause)
  | later
/-- Do work of the launch unit. -/
def luTry {α : Type} (m : M α) (s : State) : Got α × State :=
  match m s with
  | .ok a s' => (.ok a, s')
  | .error (.trap t) s' => (.bad t.cause, s')
  | .error .wait s' => (.later, keepRequests s s')
/-- Work of which nothing is left where an access faults (R78): the answer says whether it was done. -/
def orSkip (m : M Unit) : M Bool := fun s =>
  match m s with
  | .ok _ s' => .ok true s'
  | .error (.trap _) s' => .ok false (keepRequests s s')
  | .error .wait s' => .error .wait s'

/-! ## Queues (R53 to R57, R70, R71) -/

/-- The address of a queue's descriptor (R53). -/
def descAddr (s : State) (q : Nat) : Dword := (s.lu.qtbasehi ++ s.lu.qtbaselo ++ (0 : BitVec 6)) + BitVec.ofNat 64 (64 * q)
/-- The address of record n of a queue (R55). -/
def SQueue.recordAt (x : SQueue) (n : BitVec 32) : Dword := x.base + BitVec.ofNat 64 (128 * (n.toNat % 2 ^ x.log2size))
/-- A host event on a vector (R75). -/
def hostEvent (s : State) (vec : Nat) : State := { s with out := s.out ++ [.hostEvent vec] }
/-- Replace a slot. -/
def State.setSlot (s : State) (n : Nat) (x : HwSlot) : State := { s with lu := { s.lu with slots := sput s.lu.slots n x } }
/-- Slot n; one that no entry holds is FREE. -/
def State.slotOf (s : State) (n : Nat) : HwSlot := sget {} s.lu.slots n
/-- The slot becomes FREE. -/
def State.freeSlot (s : State) (n : Nat) : State := { s with lu := { s.lu with slots := sdel s.lu.slots n } }
/-- The queue leaves its slot, if it has one. -/
def leaveSlot (s : State) (q : Nat) : State :=
  match (s.queue q).slot with
  | some n => (s.freeSlot n).updQueue q (fun x => { x with slot := none })
  | none => s

/-- A write of the launch unit into a descriptor is skipped (R56). -/
def skipWrite (s : State) (q : Nat) : State := hostEvent (s.updLu (fun u => { u with qdfault := true })) (s.queue q).evvec
/-- A write into a queue's descriptor (R56). -/
def descWrite (s : State) (q off n v : Nat) : Got Unit × State := luTry (luWrite 0 (descAddr s q + BitVec.ofNat 64 off) n v) s
/-- The launch unit writes ERRCODE into the descriptor of a queue, once, and then raises the host event of the ERROR (R56, R57). -/
def writeErr (s : State) (q : Nat) : State :=
  match descWrite s q 0x14 1 (s.queue q).errcode.toNat with
  | (.ok _, s') => hostEvent (s'.updQueue q (fun x => { x with errDue := false })) (s'.queue q).evvec
  | (.bad _, s') => hostEvent (skipWrite (s'.updQueue q (fun x => { x with errDue := false })) q) (s'.queue q).evvec
  | (.later, s') => s'
/-- A queue enters ERROR (R57): it has no slot, ERRCODE is written, and then a host event is raised. The vector is that of the launch unit's
copy of the descriptor; where the descriptor has never been read, that is 0 (DESIGN CHOICE, log entry 51). -/
def queueError (s : State) (q : Nat) (code : BitVec 8) : State :=
  writeErr ((leaveSlot s q).updQueue q (fun x =>
    { x with state := .error, errcode := code, enabling := false, entering := false, errDue := true })) q

/-- Entries that the ring announces beyond its size (R55). -/
def SQueue.outOfRange (x : SQueue) : Bool := decide (2 ^ x.log2size < (x.tail - x.head).toNat)
/-- The PRIO byte of the head record gives a queue that has entered WAITING its level (R70); a failed read puts it in ERROR. -/
def readPrio (s : State) (q : Nat) : State :=
  let x := s.queue q
  match luTry (luRead x.owner (x.recordAt x.head + 0x60) 1) s with
  | (.ok v, s') => s'.updQueue q (fun x => { x with level := v % 8, entering := false })
  | (.bad c, s') => queueError s' q c.code
  | (.later, s') => s'
/-- A queue that holds work enters WAITING (R70): it claims a slot once its level is known. -/
def queueWaits (s : State) (q : Nat) : State :=
  readPrio (s.updQueue q (fun x => { x with state := .waiting, falls := 0, waitSince := s.now, slot := none, entering := true })) q
/-- A queue is WAITING with a level. -/
def SQueue.ranked (x : SQueue) : Bool := x.state == .waiting && !x.entering

/-- The order in which WAITING queues take slots (R71): the lowest level, then the longest wait; of two that have waited equally long the
rule says no more, and the lower QID comes first (DESIGN CHOICE, log entry 51). -/
def waitsBefore (p q : Nat × SQueue) : Bool :=
  decide (p.2.level < q.2.level) ||
  (p.2.level == q.2.level && (decide (p.2.waitSince < q.2.waitSince) || (p.2.waitSince == q.2.waitSince && decide (p.1 < q.1))))
/-- The first of a list in an order. -/
def firstBy {α : Type} (lt : α → α → Bool) : List α → Option α
  | [] => none
  | a :: l =>
    match firstBy lt l with
    | none => some a
    | some b => if lt b a then some b else some a
/-- A queue takes a FREE slot, which enters LOADING (R68, R71). -/
def mapQueue (s : State) (q n : Nat) : State :=
  (s.setSlot n { state := .loading, qid := q, mappedAt := s.now }).updQueue q (fun x => { x with state := .mapped, slot := some n })
/-- A slot that became FREE is taken by a WAITING queue, if there is one (R71). -/
def takeSlot (s : State) (n : Nat) : State :=
  match firstBy waitsBefore (s.lu.queues.filter (fun p => p.2.ranked)) with
  | some p => if (s.slotOf n).state == .free then mapQueue s p.1 n else s
  | none => s
/-- What a change did to a mapped queue's slot: a slot that is free now is taken again. -/
def refill (before after : State) (q : Nat) : State :=
  match (before.queue q).slot with
  | some n => if (after.slotOf n).state == .free then takeSlot after n else after
  | none => after

/-- The launch unit's copy of a descriptor (R54, R56), at an enable and at each mapping; another head record than before has no
dependence observed met (R65). -/
def copyDesc (q : Nat) : M Unit := do
  let s ← get
  let l ← luDwords 0 (descAddr s q) 3
  let d (i : Nat) : Nat := l.getD i 0
  modify (fun s => s.updQueue q (fun x =>
    { x with base := BitVec.ofNat 64 (d 0), log2size := d 1 % 256, owner := BitVec.ofNat 16 (d 1 / 2 ^ 16), evvec := d 1 / 2 ^ 32 % 2 ^ 16
             head := BitVec.ofNat 32 (d 2)
             met := if x.base = BitVec.ofNat 64 (d 0) ∧ x.head = BitVec.ofNat 32 (d 2) ∧ x.log2size = d 1 % 256 ∧
               x.owner = BitVec.ofNat 16 (d 1 / 2 ^ 16) then x.met else [] }))

/-! ## Doorbells and queue commands (R55, R58, R60, R62, R73) -/

/-- The doorbell stores of a queue after one more (R69): what a store that moves TAIL backwards withdraws, the stores before it announce
no longer (R60), and a store that announces no further record is none that a record awaits. -/
def SQueue.ring (x : SQueue) (b : Bell) : List Bell :=
  let n := (b.tail - x.head).toNat
  let kept := (x.bells.map (fun (c : Bell) => if n < (c.tail - x.head).toNat then { c with tail := b.tail } else c)).filter (fun c => c.tail != x.head)
  (kept ++ [b]).foldl (fun l c => if l.any (fun d => d.tail == c.tail) then l else l ++ [c]) []
/-- A queue whose records were all withdrawn (R60): what was observed of its head record goes with it. -/
def SQueue.emptied (x : SQueue) : SQueue := { x with state := .idle, entering := false, met := [] }
/-- A slot is in the course of an acceptance (R68). -/
def SQueue.inAcceptance (s : State) (x : SQueue) : Bool := x.slot.any (fun n => (s.slotOf n).accepting)
/-- A doorbell store (R55, R58, R60): TAIL, the range check of an enabled queue, an IDLE queue with work enters WAITING, and a
mapped queue whose records were all withdrawn leaves its slot, after an acceptance in progress. -/
def doorbell (s : State) (q : Nat) (tail : BitVec 32) (strand : Option Nat) : State :=
  let launcher := (strand.bind (fun k => s.kernelOf k)).map (·.seq)
  let s1 := s.updQueue q (fun x => { x with tail := tail, bells := x.ring { tail := tail, step := s.tick, kernel := launcher } })
  let x := s1.queue q
  refill s (
    match x.state with
    | .disabled => s1.updQueue q (fun x => { x with met := [] })
    | .error => s1.updQueue q (fun x => { x with met := [] })
    | .idle => if x.outOfRange then queueError s1 q 0xF0 else if x.head = x.tail then s1 else queueWaits s1 q
    | .waiting => if x.outOfRange then queueError s1 q 0xF0 else if x.head = x.tail then s1.updQueue q SQueue.emptied else s1
    | .mapped =>
      if x.outOfRange then queueError s1 q 0xF0
      else if x.head = x.tail ∧ !x.inAcceptance s1 then
        let off := x.slot.any (fun n => (s1.slotOf n).disable)
        (leaveSlot s1 q).updQueue q (fun x => if off then { x.emptied with state := .disabled } else x.emptied)
      else s1) q
/-- DOORBELL_WRITE (R55, R58): a store by the host or an executive strand; beyond QCOUNT it is ignored. -/
def execDoorbellWrite (qid : Nat) (tail : BitVec 32) (s : State) : Out :=
  .next (if qid < s.lu.qcount.toNat then doorbell s qid tail none else s)

/-- QCMD enable (R62): the queue stays DISABLED until its descriptor has been read, after a write of HEAD that a reset has still to make. -/
def queueEnable (s : State) (q : Nat) : State :=
  if (s.queue q).state ≠ .disabled ∨ !s.dev.ready then s
  else if (s.queue q).headDue.isSome then s.updQueue q (fun x => { x with enabling := true })
  else
    match luTry (copyDesc q) s with
    | (.ok _, s') =>
      let s' := s'.updQueue q (fun x => { x with enabling := false })
      let x := s'.queue q
      if x.outOfRange then queueError s' q 0xF0
      else if x.head = x.tail then s'.updQueue q (fun x => { x with state := .idle }) else queueWaits s' q
    | (.bad c, s') => queueError s' q c.code
    | (.later, s') => s'.updQueue q (fun x => { x with enabling := true })
/-- QCMD_ENABLE (R62). -/
def execQcmdEnable (qid : Nat) (s : State) : Out := .next (if qid < s.lu.qcount.toNat then queueEnable s qid else s)
/-- QCMD disable (R62, R73): an acceptance in progress completes first, in a DRAINING slot; an enable that still waits is given up. -/
def queueDisable (s : State) (q : Nat) : State :=
  let x := s.queue q
  if x.state = .disabled then s.updQueue q (fun x => { x with enabling := false })
  else if x.state = .error then s
  else
    match x.slot with
    | some n =>
      if (s.slotOf n).accepting then s.setSlot n { s.slotOf n with state := .draining, disable := true }
      else refill s ((leaveSlot s q).updQueue q (fun x => { x with state := .disabled, met := [] })) q
    | none => s.updQueue q (fun x => { x with state := .disabled, entering := false, met := [] })
/-- QCMD_DISABLE (R62). -/
def execQcmdDisable (qid : Nat) (s : State) : Out := .next (if qid < s.lu.qcount.toNat then queueDisable s qid else s)
/-! ## Records and dependences (R63 to R67) -/

/-- A launch record from its sixteen dwords (R63, R64). -/
def launchRecord (l : List Nat) : Record :=
  let d (i : Nat) : Nat := l.getD i 0
  let q (i : Nat) : Dword := BitVec.ofNat 64 (d i)
  let b (i : Nat) : Nat := d 12 / 2 ^ (8 * i) % 256
  { image := q 0, args := q 1, cwaddr := q 2, craddr := q 3, deps := (List.range 4).map (fun i => (q (4 + 2 * i), q (5 + 2 * i)))
    prio := b 0 % 8, event := (b 1).testBit 0, dieh := (b 1).testBit 1, diehint := b 2, tag := q 13
    reserved := b 0 / 8 != 0 || b 1 / 4 != 0 || d 12 / 2 ^ 24 != 0 || d 14 != 0 || d 15 != 0 }
/-- A record breaks R64. -/
def Record.bad (r : Record) : Bool :=
  r.reserved || r.args.toNat % 8 != 0 || r.cwaddr.toNat % 8 != 0 || r.craddr.toNat % 32 != 0 ||
  r.deps.any (fun p => p.1.toNat % 8 != 0) || (r.dieh && decide (3 < r.diehint))
/-- The numbers of a record's dependences that are used. -/
def Record.used (r : Record) : List Nat := (List.range 4).filter (fun i => (r.deps.getD i (0, 0)).1 != 0)
/-- A slot's record is eligible, with these dependences met (R65), or its status is decided (R64, R67). -/
def HwSlot.eligible (x : HwSlot) (met : NatSet) : Bool :=
  match x.record with
  | some r => r.bad || x.verdict.isSome || r.used.all (fun i => met.contains i)
  | none => false
/-- The record of slot n is eligible. -/
def eligibleAt (s : State) (n : Nat) : Bool := (s.slotOf n).eligible (s.queue (s.slotOf n).qid).met
/-- Evaluate dependence i of the record of slot n (R65 to R67); found says, with what was found before, that one is unmet. -/
def evalDep (n : Nat) (r : Record) (f : State × Bool) (i : Nat) : State × Bool :=
  let s := f.1
  let x := s.slotOf n
  let p := r.deps.getD i (0, 0)
  if x.verdict.isSome then f
  else
    match luTry (luRead (s.queue x.qid).owner p.1 8) s with
    | (.ok v, s') => if p.2.toNat ≤ v then (s'.updQueue x.qid (fun q => { q with met := nsInsert q.met i }), f.2) else (s', true)
    | (.bad .memPoison, s') => (s'.setSlot n { x with verdict := some .depPoison }, f.2)
    | (.bad _, s') => (s'.setSlot n { x with verdict := some .depFault }, f.2)
    | (.later, s') => (s'.setSlot n { x with reading := true }, f.2)
/-- Evaluate the dependences of a slot that are not met yet (R65 to R67): with one unmet the slot is BLOCKED, and once all are met it is
ACTIVE; while a read is outstanding it stays as it is. -/
def evalDeps (s : State) (n : Nat) : State :=
  let x := s.slotOf n
  match x.record with
  | none => s
  | some r =>
    if r.bad then s
    else
      let s := s.setSlot n { x with reading := false }
      let f := (r.used.filter (fun i => !(s.queue x.qid).met.contains i)).foldl (evalDep n r) (s, false)
      let s := f.1
      let y := s.slotOf n
      if eligibleAt s n then
        s.setSlot n { y with state := .active, blockedQuantum := false, reading := false, observed := y.observed || x.state == .blocked }
      else if f.2 ∧ x.state ≠ .blocked then s.setSlot n { y with state := .blocked }
      else s
/-- The head record of a mapped queue is read into its slot and its dependences are evaluated (R55, R57, R65). -/
def readHeadRecord (s : State) (n : Nat) : State :=
  let q := (s.slotOf n).qid
  let x := s.queue q
  match luTry (luDwords x.owner (x.recordAt x.head) 16) s with
  | (.ok l, s') =>
    evalDeps (s'.setSlot n { s'.slotOf n with state := .active, record := some (launchRecord l), verdict := none, observed := false }) n
  | (.bad c, s') => queueError s' q c.code
  | (.later, s') => s'.setSlot n { s'.slotOf n with record := none }
/-- The level that a mapped queue has from its head record (R70). The records that follow it in the same mapping do not change the
level (DESIGN CHOICE, log entry 51). -/
def levelAtMapping (s : State) (n : Nat) : State :=
  s.updQueue (s.slotOf n).qid (fun y =>
    match (s.slotOf n).record with
    | some r => { y with level := r.prio, falls := 0 }
    | none => y)
/-- SLOT_LOAD_COMPLETE (R68): the descriptor and the head record of a LOADING slot have been read; a fault frees the slot. -/
def execSlotLoadComplete (slot : Nat) (s : State) : Out :=
  let x := s.slotOf slot
  .next (if x.state ≠ .loading then s
    else
      match (if x.copied then (.ok (), s) else luTry (copyDesc x.qid) s) with
      | (.bad c, s') => refill s (queueError s' x.qid c.code) x.qid
      | (.later, s') => s'
      | (.ok _, s') =>
        let s' := s'.setSlot slot { s'.slotOf slot with copied := true }
        let y := s'.queue x.qid
        if y.head = y.tail then refill s ((leaveSlot s' x.qid).updQueue x.qid SQueue.emptied) x.qid
        else refill s (levelAtMapping (readHeadRecord s' slot) slot) x.qid)

/-! ## HEAD (R56, R68, R73) -/

/-- HEAD has been written back (R68): a DRAINING slot is free, and so is that of a queue without work; else the next record is read. -/
def finishAccept (s : State) (q : Nat) : State :=
  match (s.queue q).slot with
  | none => s
  | some n =>
    let x := s.slotOf n
    let y := s.queue q
    refill s (
      if x.state = .draining then
        let s1 := leaveSlot s q
        if x.disable then s1.updQueue q (fun z => { z with state := .disabled, met := [] })
        else if y.head = y.tail then s1.updQueue q (fun z => { z with state := .idle })
        else queueWaits s1 q
      else if y.head = y.tail then (leaveSlot s q).updQueue q (fun z => { z with state := .idle })
      else readHeadRecord (s.setSlot n { x with accepting := false, record := none }) n) q
/-- The launch unit writes HEAD into the descriptor of a queue (R56): a write that is skipped puts the queue in ERROR. -/
def writeHead (s : State) (q : Nat) : State :=
  match (s.queue q).headDue with
  | none => s
  | some h =>
    match descWrite s q 0x10 4 h.toNat with
    | (.ok _, s') => finishAccept (s'.updQueue q (fun x => { x with headDue := none })) q
    | (.bad c, s') =>
      let s' := skipWrite (s'.updQueue q (fun x => { x with headDue := none })) q
      if (s'.queue q).state = .error then s' else refill s (queueError s' q c.code) q
    | (.later, s') => s'
/-- QCMD reset (R62): HEAD, which the launch unit alone writes, is 0 in the descriptor as well. -/
def queueReset (s : State) (q : Nat) : State :=
  let x := s.queue q
  if x.state = .disabled ∨ x.state = .error then
    writeHead (s.updQueue q (fun x =>
      { x with head := 0, tail := 0, state := .disabled, bells := [], met := [], enabling := false, headDue := some 0 })) q
  else s
/-- QCMD_RESET (R62). -/
def execQcmdReset (qid : Nat) (s : State) : Out := .next (if qid < s.lu.qcount.toNat then queueReset s qid else s)
/-- A write of QCMD (R61). -/
def queueCommand (s : State) (v : Word) : State :=
  let q : Nat := (v.extractLsb' 0 16).toNat
  if s.lu.qcount.toNat ≤ q then s
  else
    match (v.extractLsb' 16 2).toNat with
    | 1 => queueEnable s q
    | 2 => queueDisable s q
    | 3 => queueReset s q
    | _ => s

/-- What the launch unit goes on with by itself for one queue, once an access that had to wait can be made (R303, R509): an enable, a
level, a write of HEAD or ERRCODE, the read of the next record, and that of a dependence. -/
def luResume (s : State) (q : Nat) : State :=
  let s := writeHead s q
  let s := if (s.queue q).enabling then queueEnable s q else s
  let s := if (s.queue q).entering then readPrio s q else s
  let s := if (s.queue q).errDue then writeErr s q else s
  match (s.queue q).slot with
  | some n =>
    let x := s.slotOf n
    if x.state = .active ∧ x.record.isNone ∧ !x.accepting then refill s (readHeadRecord s n) q
    else if x.reading then evalDeps s n
    else s
  | none => s
/-- The launch unit goes on with what waits. -/
def luSweep (s : State) : State := s.lu.queues.foldl (fun s p => luResume s p.1) s

/-- DEP_WATCH_REEVALUATE (R66): the dependences of a BLOCKED slot are evaluated again. -/
def execDepWatchReevaluate (slot : Nat) (s : State) : Out :=
  .next (if (s.slotOf slot).state = .blocked then evalDeps s slot else s)
/-- DEP_POLL (R66): a dependence word in host memory or a pool is read again. -/
def execDepPoll (slot : Nat) (s : State) : Out :=
  .next (if (s.slotOf slot).state = .blocked then evalDeps s slot else s)

/-! ## The quantum (R70, R71) -/

/-- The order in which mapped queues are displaced (R71): one BLOCKED throughout the last quantum, then the highest level, then
the one mapped longest; of two that are alike in all of these, the one in the lower-numbered slot (DESIGN CHOICE, log entry 51). -/
def displacedBefore (s : State) (p q : Nat × HwSlot) : Bool :=
  let lv (z : Nat × HwSlot) : Nat := (s.queue z.2.qid).level
  if p.2.blockedQuantum != q.2.blockedQuantum then p.2.blockedQuantum
  else decide (lv q < lv p) || (lv p == lv q && (decide (p.2.mappedAt < q.2.mappedAt) || (p.2.mappedAt == q.2.mappedAt && decide (p.1 < q.1))))
/-- The FREE slot with the lowest number. -/
def findFreeSlot (s : State) : Option Nat := (List.range 256).find? (fun n => (s.slotOf n).state == .free)
/-- One WAITING queue, in its turn, takes a FREE slot or displaces a mapped queue (R71). -/
def mapInTurn (s : State) (q : Nat) : State :=
  if !(s.queue q).ranked then s
  else
    match findFreeSlot s with
    | some n => mapQueue s q n
    | none =>
      let may := s.lu.slots.filter (fun p => p.2.state != .draining && decide ((s.queue q).level ≤ (s.queue p.2.qid).level) && decide (p.2.mappedAt + 1000 * s.lu.quantum.toNat ≤ s.now))
      match firstBy (displacedBefore s) may with
      | none => s
      | some p =>
        let v := p.2.qid
        -- an acceptance that is in progress, or that follows from a dependence observed met, comes first (R68, R73)
        if p.2.accepting || (p.2.observed && eligibleAt s p.1) then s.setSlot p.1 { p.2 with state := .draining }
        else mapQueue (queueWaits (leaveSlot s v) v) q p.1
/-- QUANTUM_BOUNDARY (R70, R71): levels fall, and WAITING queues are mapped in rank
order. It is due when a quantum has passed since the last one. -/
def execQuantumBoundary (s : State) : Out :=
  .next (
    if s.now < s.lu.lastQuantum + 1000 * s.lu.quantum.toNat then s
    else
      let s := s.updLu (fun u => { u with
        lastQuantum := s.now
        queues := u.queues.map (fun (p : Nat × SQueue) =>
          if p.2.ranked then
            let w := (s.now - p.2.waitSince) / (1000 * s.lu.quantum.toNat) / 8
            (p.1, { p.2 with falls := w, level := p.2.level - (w - p.2.falls) })
          else p) })
      let order := ((s.lu.queues.filter (fun p => p.2.ranked)).foldl (fun l p => insertBy waitsBefore p l) []).map (·.1)
      let s := order.foldl mapInTurn s
      s.updLu (fun u => { u with
        slots := u.slots.map (fun (p : Nat × HwSlot) => (p.1, { p.2 with blockedQuantum := p.2.state == .blocked })) }))

/-! ## Acceptance (R56, R69, R79) -/

/-- Shards that wait for placement on a die (R79). A kernel that is accepted and whose image has not been checked yet has no shards to
place so far, and counts none (DESIGN CHOICE, log entry 51). -/
def shardsWaiting (s : State) (d : Nat) : Nat :=
  s.kernels.foldl (fun n p => n + (match sfind p.2.toPlace d with
    | some r => r.2 - r.1
    | none => 0)) 0
/-- The dies in service, in ascending order (R28). -/
def diesUp (s : State) : List Nat := (List.range 4).filter (fun d => s.dev.diemap.getLsbD d)
/-- The die chosen for a kernel without a spatial-die level (R79). -/
def chooseDie (s : State) (r : Record) : Nat :=
  if r.dieh && (diesUp s).contains r.diehint then r.diehint
  else ((firstBy (fun a b => decide (shardsWaiting s a < shardsWaiting s b)) (diesUp s)).getD 0)
/-- The doorbell store that covers a queue's head record (R69). -/
def SQueue.bell (x : SQueue) : Option Bell :=
  x.bells.find? (fun b => b.tail != x.head && decide ((b.tail - x.head).toNat ≤ 2 ^ x.log2size))
/-- The order of acceptance (R69): the lowest PRIO, then the doorbell store that arrived first, then the lower QID. -/
def acceptedBefore (s : State) (p q : Nat × HwSlot) : Bool :=
  let prio (z : Nat × HwSlot) : Nat := (z.2.record.map (·.prio)).getD 0
  let at_ (z : Nat × HwSlot) : Nat := ((s.queue z.2.qid).bell.map (·.step)).getD 0
  decide (prio p < prio q) || (prio p == prio q && (decide (at_ p < at_ q) || (at_ p == at_ q && decide (p.2.qid < q.2.qid))))
/-- The sequencers whose runs launch through a queue hear of an acceptance (R473). -/
def tellSolvers (s : State) (q : Nat) : State :=
  { s with solvers := s.solvers.map (fun (p : Nat × Solver) =>
      if p.2.phase.isSome && p.2.block.any (fun b => b.qid == q) then (p.1, { p.2 with accepted := p.2.accepted + 1 }) else p) }
/-- A record enters the kernel table as a kernel (R69, R64, R67). -/
def enterKernel (s : State) (key : Nat) (x : HwSlot) (r : Record) : State :=
  let q := s.queue x.qid
  let verdict := if r.bad then some .recordInvalid else x.verdict
  let k : Kernel :=
    { qid := x.qid, recNo := q.head, asid := q.owner, evvec := q.evvec, record := r, seq := s.lu.accepted, tstart := s.timeNs
      state := if verdict.isSome then .ending else .waiting, status := verdict.getD .success, die := chooseDie s r
      launcher := q.bell.bind (·.kernel) }
  { s with kernels := sput s.kernels key k, lu := { s.lu with accepted := s.lu.accepted + 1, lastAccept := some s.now } }
/-- RECORD_ACCEPT (R69): the best eligible head record of an ACTIVE slot, or of a DRAINING one (R73), enters the kernel table and HEAD
advances, at most once every 20 ns. -/
def execRecordAccept (s : State) : Out :=
  .next (
    let cands := s.lu.slots.filter (fun p => (p.2.state == .active || p.2.state == .draining) && !p.2.accepting &&
      eligibleAt s p.1 && (s.queue p.2.qid).head != (s.queue p.2.qid).tail)
    match firstBy (acceptedBefore s) cands, (List.range 1024).find? (fun n => (sfind s.kernels n).isNone) with
    | some (n, x), some key =>
      match x.record with
      | none => s
      | some r =>
        if s.lu.lastAccept.any (fun t => decide (s.now < t + 20)) then s
        else
          let q := x.qid
          let s1 := tellSolvers (enterKernel s key x r) q
          let s1 := (s1.updQueue q (fun y =>
            let h := y.head + 1
            { y with head := h, met := [], headDue := some h
                     bells := y.bells.filter (fun b => b.tail != h && decide ((b.tail - h).toNat ≤ 2 ^ y.log2size)) })).setSlot n
              { x with accepting := true }
          writeHead s1 q
    | _, _ => s)

/-! ## Images (R31 to R40, R82) -/

/-- 32-bit word i of a structure held as dwords. -/
def lword (l : List Nat) (i : Nat) : Nat := l.getD (i / 2) 0 / 2 ^ (32 * (i % 2)) % 2 ^ 32
/-- Byte i of a structure held as dwords. -/
def lbyte (l : List Nat) (i : Nat) : Nat := l.getD (i / 8) 0 / 2 ^ (8 * (i % 8)) % 256
/-- No two of the sections, each with its start and its length, overlap, and none passes 2^32 (R33). -/
def sectionsOk (l : List (Nat × Nat)) : Bool :=
  l.all (fun p => decide (p.1 + p.2 ≤ 2 ^ 32)) &&
  l.zipIdx.all (fun p => l.zipIdx.all (fun q => p.2 == q.2 || decide (p.1.1 + p.1.2 ≤ q.1.1) || decide (q.1.1 + q.1.2 ≤ p.1.1)))
/-- A header breaks R32. -/
def headerBad (h : List Nat) : Bool :=
  lword h 0 != 0x58424B49 || lword h 1 % 2 ^ 16 != 1 || lword h 2 % 64 != 0 || lword h 3 == 0 || lword h 3 % 4 != 0 ||
  lword h 4 % 4 != 0 || decide (lword h 3 ≤ lword h 4) || lword h 5 % 8 != 0 || lword h 6 % 64 != 0 || lword h 7 % 8 != 0 ||
  decide (4096 < lword h 7)
/-- A loop table entry (R34) from its dword: kind, ARG and extent. -/
def levelOf (d : Nat) : Nat × Bool × Nat := (d % 256, d.testBit 8, d / 2 ^ 32)
/-- A loop table breaks R34 or R35. -/
def levelsBad (argLen : Nat) (l : List (Nat × Bool × Nat)) : Bool :=
  let kinds := l.map (·.1)
  l.any (fun p => decide (2 < p.1) || (p.2.1 && (p.2.2 % 4 != 0 || decide (argLen < p.2.2 + 4)))) ||
  (kinds.zip (kinds.drop 1)).any (fun p => decide (p.2 < p.1)) || decide (4 < kinds.countP (· == 2))
/-- The resource declaration from its eight dwords (R39). -/
def resourcesOf (l : List Nat) : Resources :=
  { trio := lbyte l 0 == 1, vwin := BitVec.ofNat 8 (lbyte l 1), tiles := lbyte l 2, pages := lbyte l 3, spadKib := lword l 1 % 2 ^ 16
    lendKib := lword l 1 / 2 ^ 16, dspadKib := lword l 2, cocoons := lbyte l 12, rings := BitVec.ofNat 8 (lbyte l 13)
    persist := (lbyte l 14).testBit 0, hbeatUs := lword l 4, maxRunMs := lword l 5 }
/-- The windows of a group of n strands (R39, R82). -/
def Resources.windows (r : Resources) (n : Nat) : List Nat :=
  if r.trio then (List.range 3).map (fun i => winSize (r.vwin.extractLsb' (2 * i) 2))
  else List.replicate n (winSize (r.vwin.extractLsb' 0 2))
/-- A declaration breaks R39 or R40; mode is its MODE byte. -/
def Resources.bad (r : Resources) (mode : Nat) : Bool :=
  decide (1 < mode) || decide (4 < r.tiles) || decide (8 < r.pages) || r.spadKib % 4 != 0 || r.lendKib % 4 != 0 ||
  decide (2048 < r.lendKib) || r.dspadKib % 4 != 0 || decide (20480 < r.dspadKib) || decide (8 < r.cocoons) ||
  (r.persist && (r.hbeatUs == 0 || decide (10000000 < r.hbeatUs))) || decide (3072 < r.spadKib + r.lendKib) ||
  (r.trio && decide (64 < (r.windows 3).sum))
/-- Read and check an image (R31 to R35, R39, R40); none where a check fails. Where one part of an image breaks a check and another
cannot be read, the order decides whether the failed check raises a host event: the header is checked, then NLEVELS, before anything
after it is read; the loop table and the declaration are both read before they are checked (DESIGN CHOICE, log entry 51). -/
def readImage (image : Dword) (a : BitVec 16) : M (Option ImageCheck) := do
  if image.toNat % 4096 ≠ 0 then pure none
  else do
    let h ← luDwords a image 8
    if headerBad h then pure none
    else do
      let loopAt := image + BitVec.ofNat 64 (lword h 5)
      let nl ← luRead a loopAt 4
      let n := nl % 8
      if n = 0 ∨ 6 < n then pure none
      else do
        let words ← collectM (List.range (2 * n)) (fun i => luRead a (loopAt + BitVec.ofNat 64 (4 + 4 * i)) 4)
        let levels := (List.range n).map (fun i => levelOf (words.getD (2 * i) 0 + 2 ^ 32 * words.getD (2 * i + 1) 0))
        let rl ← luDwords a (image + BitVec.ofNat 64 (lword h 6)) 8
        let r := resourcesOf rl
        let data := if lword h 8 = 0 ∨ lword h 9 = 0 then [] else [(lword h 8, lword h 9)]
        if levelsBad (lword h 7) levels || r.bad (lbyte rl 0) ||
            !sectionsOk ([(0, 64), (lword h 2, lword h 3), (lword h 5, 4 + 8 * n), (lword h 6, 64)] ++ data) then pure none
        else pure (some { image := image, asid := a, argLen := lword h 7, entry := image + BitVec.ofNat 64 (lword h 2 + lword h 4)
                          res := r, levels := levels })
/-- The loop levels with their ARG extents read from the argument block (R36). -/
def readExtents (k : Kernel) (c : ImageCheck) : M (List LoopLevel) :=
  collectM c.levels (fun p => do
    if p.2.1 then do
      let v ← luRead k.asid (k.record.args + BitVec.ofNat 64 p.2.2) 4
      pure ⟨p.1, v⟩
    else pure ⟨p.1, p.2.2⟩)
/-- The results of the checks on a kernel's image, from the store (R74) or from memory, with its levels. -/
def checkImage (s : State) (k : Kernel) : M (Option (ImageCheck × List LoopLevel)) := do
  let c ← match s.lu.checks.find? (fun c => c.image == k.record.image && c.asid == k.asid) with
    | some c => pure (some c)
    | none => readImage k.record.image k.asid
  match c with
  | none => pure none
  | some c => do
    let l ← readExtents k c
    pure (some (c, l))

/-- The product of the extents of a kind. -/
def extentOf (l : List LoopLevel) (kind : Nat) : Nat := (l.filter (fun v => v.kind == kind)).foldl (fun n v => n * v.extent) 1
/-- A kernel has a spatial-die level. -/
def hasDieLevel (l : List LoopLevel) : Bool := l.any (fun v => v.kind == 0)
/-- The share of each die (R37, R79): linear shard indexes from the first number up to the second. -/
def shares (s : State) (k : Kernel) (l : List LoopLevel) : Sparse (Nat × Nat) :=
  let nd := extentOf l 0
  let nc := extentOf l 1
  if hasDieLevel l then
    let dies := diesUp s
    let c := (nd + dies.length - 1) / dies.length
    dies.zipIdx.filterMap (fun p => if p.2 * c < nd then some (p.1, (p.2 * c * nc, min nd ((p.2 + 1) * c) * nc)) else none)
  else [(k.die, (0, nc))]
/-- A group of n shards needs more than a core has (R82, R33). Lending is no such need: a kernel whose lending never fits waits (R40, R88). -/
def neverFits (r : Resources) (n : Nat) : Bool :=
  let m := if r.trio then 1 else n
  decide (64 < (r.windows n).sum) || decide (4 < m * r.tiles) || decide (8 < m * r.pages) || decide (3072 < m * r.spadKib)
/-- A kernel retires at once with a status (R31, R36). -/
def retireAtOnce (s : State) (key : Nat) (k : Kernel) (st : Status) : State :=
  { s with kernels := sput s.kernels key { k with checked := true, state := .ending, status := st } }
/-- A kernel whose checks have passed is handed to the die schedulers, or retires at once (R36, R37, R82). -/
def handOver (s : State) (key : Nat) (k : Kernel) (c : ImageCheck) (l : List LoopLevel) : State :=
  let s := s.updLu (fun u => { u with checks := (c :: u.checks.filter (fun d => !(d.image == c.image && d.asid == c.asid))).take 64 })
  let n := extentOf l 0 * extentOf l 1
  if 2 ^ 32 < n then retireAtOnce s key k .launchExtent
  else if n = 0 then retireAtOnce s key k .success
  else
    let sh := shares s k l
    let largest := if c.res.trio then 1 else min 3 (sh.foldl (fun m p => max m (p.2.2 - p.2.1)) 0)
    if neverFits c.res largest then retireAtOnce s key k .imageInvalid
    else if sh.any (fun p => !s.dev.diemap.getLsbD p.1) then retireAtOnce s key k .faulted
    else
      let k := { k with entry := c.entry, res := c.res, levels := l, checked := true, toPlace := sh, shards := n }
      sh.foldl (fun s p => s.setOff (.place p.1)) { s with kernels := sput s.kernels key k }
/-- IMAGE_CHECK (R33, R36, R74): the checks of an accepted kernel. A fault or poison is a failed check that also raises a
host event. -/
def execImageCheck (kernel : Nat) (s : State) : Out :=
  .next (
    match sfind s.kernels kernel with
    | none => s
    | some k =>
      if k.checked ∨ k.state ≠ .waiting then s
      else
        match luTry (checkImage s k) s with
        | (.ok (some (c, l)), s') => handOver s' kernel k c l
        | (.ok none, s') => retireAtOnce s' kernel k .imageInvalid
        | (.bad _, s') => hostEvent (retireAtOnce s' kernel k .imageInvalid) k.evvec
        | (.later, s') => s')

/-! ## Completion (R75 to R78, R426, R457) -/

/-- The four dwords of a completion record (R76). -/
def completionRecord (k : Kernel) (tend : Dword) : List Nat :=
  [k.record.tag.toNat, k.status.code.toNat + 2 ^ 16 * (k.qid % 2 ^ 16) + 2 ^ 32 * (k.retired % 2 ^ 32), k.tstart.toNat, tend.toNat]
/-- Write the completion record (R75, R76): none of it where an access fails. -/
def writeRecord (k : Kernel) (tend : Dword) : M Unit :=
  if k.record.craddr = 0 ∨ k.record.craddr.toNat % 32 ≠ 0 then pure ()
  else eachM ((List.range 4).zip (completionRecord k tend)) (fun p => luWrite k.asid (k.record.craddr + BitVec.ofNat 64 (8 * p.1)) 8 p.2)
/-- Increment the completion word (R75). -/
def addCompletion (k : Kernel) : M Unit :=
  if k.record.cwaddr = 0 ∨ k.record.cwaddr.toNat % 8 ≠ 0 then pure ()
  else do
    let _ ← luAddr k.asid k.record.cwaddr 8 .write
    let v ← luRead k.asid k.record.cwaddr 8
    luWrite k.asid k.record.cwaddr 8 ((v + 1) % 2 ^ 64)
/-- The tasks of a kernel are discarded (R426, R455): their chrysalises go with what their copies and ring writes left in them, and no
strand holds one of them any more. -/
def dropTasks (s : State) (key : Nat) : State :=
  let gone := (s.tasks.filter (fun p => p.2.kernel == key)).map (·.1)
  let s := gone.foldl (fun s j => slotsLeave true (leaveSpec true s j) j) s
  { s with
    tasks := s.tasks.filter (fun p => p.2.kernel != key)
    pfut := s.pfut.filter (fun p => !gone.contains p.2)
    strands := s.strands.map (fun p => if p.2.task.any gone.contains then (p.1, { p.2 with task := none }) else p) }
/-- A retiring kernel's tasks are discarded and its solver sequencers stop and become free (R426, R457, R473). -/
def dropKernelWork (s : State) (key : Nat) : State :=
  let s := dropTasks s key
  { s with
    solvers := s.solvers.map (fun (p : Nat × Solver) =>
      if p.2.owner = some key then
        if p.2.running then (p.1, { p.2 with stopping := true, owner := some (2 ^ 20) }) else (p.1, { p.2 with owner := none })
      else p) }
/-- The kernel, by its order of acceptance, makes progress (R419). -/
def progressOf (s : State) (seq : Option Nat) : State :=
  match seq with
  | none => s
  | some n => { s with kernels := s.kernels.map (fun (p : Nat × Kernel) => if p.2.seq = n then (p.1, { p.2 with idleNs := 0 }) else p) }
/-- TIMENS at the retirement of the kernels that have retired by now (R75, R76): those that end and have no group left. -/
def noteRetired (s : State) : State :=
  { s with kernels := s.kernels.map (fun p =>
      if p.2.state == .ending && p.2.tend.isNone && !s.groups.any (fun g => g.2.kernel == p.1) then
        (p.1, { p.2 with tend := some s.timeNs }) else p) }
/-- The writes of a completion (R75, R78): whether the record was written, and whether the word was, each left out where an access
fails. -/
def completionWrites (k : Kernel) (tend : Dword) : M (Bool × Bool) := do
  let r ← orSkip (writeRecord k tend)
  let w ← orSkip (addCompletion k)
  pure (r, w)
/-- A registration of some core cannot reach its home yet (R303). -/
def globalWritesWait (s : State) : Bool := s.pending.any (fun p => homeHeld s (regionOf p.word))
/-- KERNEL_COMPLETION (R75, R78): the completion record, the completion word as a release that follows every write of the
kernel, and the host event; the kernel leaves the table. It waits while an access has to wait (R303, R509). -/
def execKernelCompletion (kernel : Nat) (s : State) : Out :=
  .next (
    match sfind s.kernels kernel with
    | none => s
    | some k =>
      if k.state ≠ .ending ∨ s.groups.any (fun p => p.2.kernel == kernel) ∨ globalWritesWait s then s
      else
        match completionWrites k (k.tend.getD s.timeNs) (drainAll s) with
        | .error _ s' => keepRequests s s'
        | .ok (r, w) s1 =>
          let s2 := if w && k.record.cwaddr != 0 && k.record.cwaddr.toNat % 8 == 0 then progressOf s1 k.launcher else s1
          let s2 := if r && w then s2 else s2.updLu (fun u => { u with cwfault := true })
          let s2 := if !(r && w) || k.record.event then hostEvent s2 k.evvec else s2
          dropKernelWork { s2 with kernels := sdel s2.kernels kernel } kernel)

end Sys2Proof.Machine
end

