-- ==== Sys2Proof/Machine/Place.lean ====
section
/-! DEFINITION. The die schedulers (R80 to R97, R38): what a group needs, the search for a core, placement and the state at
entry; the end of a strand's part and retirement (R501, R502); the end of a kernel (R497). -/

namespace Sys2Proof.Machine
open Sys2Proof

/-! ## What a core has free (R82, R86, R88) -/

/-- The groups on a core. -/
def coreGroups (s : State) (n : Nat) : List (Nat × Group) := s.groups.filter (fun p => p.2.core == n)
/-- The free strands of a core, ascending (R81). -/
def freeStrands (s : State) (n : Nat) : List Nat :=
  (upFrom (3 * n) 3).filter (fun k => (s.strand k).status == .empty && !(coreGroups s n).any (fun p => p.2.keys.contains k))
/-- A register of a core's file is free. -/
def regFree (wins : List (Nat × Nat)) (r : Nat) : Bool := !wins.any (fun w => decide (w.1 ≤ r) && decide (r < w.1 + w.2))
/-- The lowest free run of each window of a list, in turn (R86); none where one does not exist. -/
def fitWindows : List (Nat × Nat) → List Nat → Option (List (Nat × Nat))
  | _, [] => some []
  | wins, n :: l =>
    match (List.range (65 - n)).find? (fun f => (upFrom f n).all (regFree wins)) with
    | none => none
    | some f => (fitWindows ((f, n) :: wins) l).map ((f, n) :: ·)
/-- The 4 KiB blocks of a core's scratchpad that a group or a lending holds (R84, R88). -/
def heldBlocks (s : State) (n : Nat) : NatSet :=
  (coreGroups s n).flatMap (fun p => p.2.spad) ++
  s.kernels.flatMap (fun p => (sget [] p.2.clAlloc (clusterOf n)).getD (n % 4) [])
/-- The first n blocks below a limit that are in none of a list, where as many as are kept stay free beside them. -/
def takeBlocks (limit : Nat) (held : List Nat) (kept n : Nat) : Option (List Nat) :=
  let free := (List.range limit).filter (fun b => !held.contains b)
  if n + kept ≤ free.length then some (free.take n) else none
/-- The blocks of a die's scratchpad that a kernel holds (R89). -/
def heldDieBlocks (s : State) (d : Nat) : NatSet := s.kernels.flatMap (fun p => sget [] p.2.dieAlloc d)
/-- KiB per lane and barriers of a group of n strands (R82). -/
def laneNeed (n : Nat) : Nat := if n = 1 then 4 else if n = 2 then 8 else 16
/-- Named barriers of a group of n strands (R82). -/
def barNeed (n : Nat) : Nat := if n = 1 then 128 else if n = 2 then 256 else 512
/-- The lowest offset of a lane's slice at which a share of the size fits. -/
def laneFit (gs : List (Nat × Group)) (size : Nat) : Option Nat :=
  [0, 4096, 8192, 12288].find? (fun o => decide (o + size ≤ 16384) &&
    gs.all (fun p => decide (o + size ≤ p.2.laneOff) || decide (p.2.laneOff + p.2.laneSize ≤ o)))

/-- What placement would give a group: its strands, windows, tiles, pages, blocks and lane share, and new allocations of
its kernel in the cluster and on the die. -/
structure Plan where
  keys : List Nat
  wins : List (Nat × Nat)
  share : NatSet
  pages : NatSet
  spad : List Nat
  laneOff : Nat
  lend : Option (List (List Nat))
  dsp : Option (List Nat)
  deriving DecidableEq, Repr

/-- A new lending of a kernel in the cluster of a core that also takes the given blocks (R88): the blocks on each core of the
cluster. That up to 2 MiB of each core's scratchpad may be lent (R23) is taken as the bound that R39 puts on each kernel's LENDKIB, and
not as one on what several kernels lend on one core together (DESIGN CHOICE, log entry 52). -/
def lendPlan (s : State) (core kib : Nat) (own : List Nat) : Option (List (List Nat)) :=
  (List.range 4).mapM (fun q =>
    let n := 4 * clusterOf core + q
    if (s.coreRegs n).fenced then none
    else takeBlocks 768 (heldBlocks s n ++ (if n = core then own else [])) (chrysBlocks s n) (kib / 4))
/-- A core meets the needs of a group of m shards (R82, R86, R88, R89). -/
def fits (s : State) (kn : Kernel) (m core : Nat) : Option Plan := do
  let r := kn.res
  let n := if r.trio then 3 else m
  let c := s.coreRegs core
  let gs := coreGroups s core
  if c.fenced || c.noNew.isSome || c.testing then none
  let keys := (freeStrands s core).take n
  if keys.length < n then none
  let wins ← fitWindows (gs.flatMap (fun p => p.2.wins)) (r.windows n)
  let tiles := ((List.range 4).filter (fun t => !gs.any (fun p => p.2.share.contains t))).take (m * r.tiles)
  if tiles.length < m * r.tiles then none
  let pages := ((List.range 8).filter (fun t => !gs.any (fun p => p.2.pages.contains t))).take (m * r.pages)
  if pages.length < m * r.pages then none
  let spad ← takeBlocks 768 (heldBlocks s core) (chrysBlocks s core) (m * r.spadKib / 4)
  let lane ← laneFit gs (1024 * laneNeed n)
  if 512 < gs.foldl (fun n p => n + p.2.barCount) 0 + barNeed n then none
  let lend ← if r.lendKib = 0 ∨ (sfind kn.clAlloc (clusterOf core)).isSome then some none
             else (lendPlan s core r.lendKib spad).map some
  let dsp ← if (sfind kn.dieAlloc (dieOf core)).isSome then some none
            else (takeBlocks 5120 (heldDieBlocks s (dieOf core)) 0 (r.dspadKib / 4)).map some
  some { keys := keys, wins := wins, share := tiles, pages := pages, spad := spad, laneOff := lane, lend := lend, dsp := dsp }

/-! ## State at entry (R38, R97) -/

/-- Bytes of a local memory read as zero, with no poison and every full-empty bit empty (R85). -/
def clearLocal (s : State) (flat n : Nat) : State :=
  { s with mem := Mem.clear s.mem flat n
           full := s.full.filter (fun w => decide (4 * w < flat) || decide (flat + n ≤ 4 * w))
           poison := s.poison.filter (fun w => decide (4 * w < flat) || decide (flat + n ≤ 4 * w)) }
/-- The coordinates of a shard in the spatial levels, in table order (R37, R38). -/
def coords (l : List Nat) (i : Nat) : List Nat :=
  (l.foldr (fun e (acc : List Nat × Nat) => ((if e = 0 then 0 else acc.2 % e) :: acc.1, if e = 0 then acc.2 else acc.2 / e)) ([], i)).1
/-- The x registers of a strand at entry: its shard's index, the shards of its group, the KiB of a part, and its position. -/
def entryRegs (kn : Kernel) (shard shardsIn pos : Nat) : Vector Dword 32 :=
  let q (n : Nat) : Dword := BitVec.ofNat 64 n
  let sp := (kn.levels.filter (fun v => v.kind != 2)).map (·.extent)
  let tp := (kn.levels.filter (fun v => v.kind == 2)).map (·.extent)
  let cs := coords sp shard
  Vector.ofFn (fun (i : Fin 32) =>
    match i.val with
    | 9 => q (if kn.res.trio then 1 else shardsIn)
    | 10 => kn.record.args
    | 11 => q shard
    | 18 => q (if kn.res.trio then 0 else pos * kn.res.spadKib * 1024)
    | 19 => q pos
    | n => if 12 ≤ n ∧ n ≤ 17 then q (cs.getD (n - 12) 0) else if 20 ≤ n ∧ n ≤ 23 then q (tp.getD (n - 20) 0) else 0)
/-- The address of a process-table entry (R491). -/
def processAt (s : State) (a : BitVec 16) : Nat := (s.dev.ptthi ++ s.dev.pttlo ++ (0 : BitVec 12)).toNat % 2 ^ 52 + 8 * a.toNat
/-- What the process table gives a strand at placement (R491): the base of its page table, where its entry could be read,
and the cause that its first fetch takes. -/
def processEntry (s : State) (a : BitVec 16) : Option (BitVec 36) × Option Cause :=
  let pa := processAt s a
  if hostShared s a then (none, none)
  else if !reachable s pa then (none, some .memTimeout)
  else
    match homeRead s pa 8 with
    | none => (none, some .memPoison)
    | some n =>
      (some (BitVec.ofNat 36 (n / 2 ^ 16)),
       if !n.testBit 0 then some .pageNotPresent else if n / 2 ^ 52 != 0 || n / 2 % 2 ^ 15 != 0 then some .pageProtection else none)
/-- A strand as it stands at its first instruction (R97, R38): what the table does not name keeps the value it had. The value of
PTBASE is free where the process table gives none (assumption 4). -/
def entryStrand (old : Strand) (kn : Kernel) (pl : Place) (x : Vector Dword 32) (win : Nat × Nat) (pt : Option (BitVec 36) × Option Cause) (free : BitVec 36) : Strand :=
  let t : Strand :=
    { x := x, pc := kn.entry, level := .user, status := .running, vslip := 2, place := some pl
      e := { vec := old.e.vec, scratch := old.e.scratch, asid := kn.asid, ptbase := pt.1.getD free
             chainPc := old.e.chainPc.map (· &&& ~~~1), chainSt := old.e.chainSt
             vwin := BitVec.ofNat 2 (win.2 / 8 - 1) ++ BitVec.ofNat 6 win.1 }
      f := old.f, strandid := old.strandid, ptFault := pt.2 }
  t.setSeed (BitVec.ofNat 64 pl.shard)
/-- Barrier n of a new group of a kernel (R411, R417): it joins a link of its cluster, where there is one. -/
def joinLinks (s : State) (kernel core : Nat) (n : Nat) : Sparse Barrier :=
  if n < 512 then []
  else (upFrom 448 64).filterMap (fun b =>
    (s.groups.findSome? (fun p =>
      if p.2.kernel = kernel ∧ clusterOf p.2.core = clusterOf core ∧ b < p.2.barCount ∧ (p.2.bar b).link then some (p.2.bar b) else none)).map
      (fun x => (b, { x with shown := none })))

/-- Place a group of m shards, from linear index i, of a kernel on a core as planned (R80 to R89, R97). -/
def placeGroup (s : State) (key : Nat) (kn : Kernel) (i m core : Nat) (p : Plan) : State :=
  let n := p.keys.length
  let d := dieOf core
  let gk := ((List.range 385).find? (fun g => (sfind s.groups g).isNone)).getD 0
  let kn := { kn with
    state := if kn.state = .waiting then .running else kn.state
    toPlace := kn.toPlace.map (fun (q : Nat × (Nat × Nat)) => if q.1 = d then (d, (i + m, q.2.2)) else q)
    clAlloc := match p.lend with
      | some l => sput kn.clAlloc (clusterOf core) l
      | none => kn.clAlloc
    dieAlloc := match p.dsp with
      | some l => sput kn.dieAlloc d l
      | none => kn.dieAlloc
    waitSince := sdel kn.waitSince d }
  let g : Group :=
    { kernel := key, core := core, trio := kn.res.trio, keys := p.keys, live := List.range m, laneOff := p.laneOff
      laneSize := 1024 * laneNeed n, spad := p.spad, wins := p.wins, tiles := m * kn.res.tiles, share := p.share, pages := p.pages
      barCount := barNeed n, bars := joinLinks s key core (barNeed n) }
  let s := { s with kernels := sput s.kernels key kn, groups := sput s.groups gk g }
  let s := p.spad.foldl (fun s b => clearLocal s (flatSpad core (4096 * b)) 4096) s
  let s := (List.range 32).foldl (fun s l => clearLocal s (flatLane core l p.laneOff) g.laneSize) s
  let s := ((p.lend.getD []).zipIdx).foldl (fun s q =>
    q.1.foldl (fun s b => clearLocal s (flatSpad (4 * clusterOf core + q.2) (4096 * b)) 4096) s) s
  let s := (p.dsp.getD []).foldl (fun s b => clearLocal s (flatDie d (4096 * b)) 4096) s
  let pt := processEntry s kn.asid
  let s := (p.keys.zip p.wins).zipIdx.foldl (fun s q =>
    let shard := if kn.res.trio then i else i + q.2
    let s := { s with vregs := s.vregs.filter (fun r =>
      !(decide (64 * core + q.1.2.1 ≤ r.1) && decide (r.1 < 64 * core + q.1.2.1 + q.1.2.2))) }
    (s.setStrand q.1.1 (entryStrand (s.strand q.1.1) kn ⟨gk, q.2, shard⟩ (entryRegs kn shard m q.2) q.1.2 pt (s.freeVal 36))).bumpFree) s
  -- the kernel's start is an acquire at system scope (R59, R66)
  let s := acquire s core .system
  s.updCore core (fun c => { c with heldSince := some (c.heldSince.getD s.now) })

/-! ## Order of placement (R90, R91) -/

/-- The scheduler of a die. -/
def State.sched (s : State) (d : Nat) : Sched := sget {} s.scheds d
/-- The kernels with shards to place on a die, in the order of R90. -/
def waitingKernels (s : State) (d : Nat) : List (Nat × Kernel) :=
  let before (a b : Nat × Kernel) : Bool :=
    decide (a.2.record.prio < b.2.record.prio) || (a.2.record.prio == b.2.record.prio && decide (a.2.seq < b.2.seq))
  (s.kernels.filter (fun p => (p.2.state == .waiting || p.2.state == .running) &&
    (sfind p.2.toPlace d).any (fun r => decide (r.1 < r.2)))).foldl (fun l p => insertBy before p l) []
/-- The shards of the next group of a kernel on a die (R80): the first index and the number. -/
def nextGroup (kn : Kernel) (d : Nat) : Nat × Nat :=
  match sfind kn.toPlace d with
  | some r => (r.1, if kn.res.trio then 1 else min 3 (r.2 - r.1))
  | none => (0, 0)
/-- The first core, from the place where the search starts, that meets a group's needs (R90). -/
def searchCore (s : State) (d : Nat) (kn : Kernel) (m : Nat) : Option (Nat × Plan) :=
  (List.range 32).findSome? (fun i =>
    let c := 32 * d + ((s.sched d).next + i) % 32
    (fits s kn m c).map (fun p => (c, p)))
/-- Place one group: of the kernels of a list, the first that finds a core; those before it wait from now on. The 1 ms of R90 so begin
at the first search that finds no core: a kernel that arrives while backfill is stopped has not been tried and counts no waiting time
until the stop ends (DESIGN CHOICE, log entry 52). -/
def placeOne (d : Nat) : List (Nat × Kernel) → State → Bool × State
  | [], s => (false, s)
  | (key, kn) :: l, s =>
    let g := nextGroup kn d
    match searchCore s d kn g.2 with
    | some (core, p) =>
      let s := placeGroup s key kn g.1 g.2 core p
      (true, { s with scheds := sput s.scheds d { next := (core % 32 + 1) % 32, stops := nsErase (s.sched d).stops key } })
    | none =>
      placeOne d l (match sfind kn.waitSince d with
        | some _ => s
        | none => { s with kernels := sput s.kernels key { kn with waitSince := sput kn.waitSince d s.now } })
/-- Place groups on a die until none fits; a die has strands for 96 groups (R90). -/
def placeAll (d : Nat) : Nat → State → State
  | 0, s => s
  | n + 1, s =>
    let order := waitingKernels s d
    let stopped := order.filter (fun p => (s.sched d).stops.contains p.1)
    match placeOne d (if stopped.isEmpty then order else stopped.take 1) s with
    | (true, s') => placeAll d n s'
    | (false, s') => s'
/-- The home of a process-table entry that a placement on the die would read serves another agent (R303). -/
def tableWaits (s : State) (die : Nat) : Bool := (waitingKernels s die).any (fun p => homeHeld s (processAt s p.2.asid / 256))
/-- PLACEMENT_EVENT (R90). -/
def execPlacementEvent (die : Nat) (s : State) : Out :=
  .next (if s.dev.diemap.getLsbD die ∧ die < 4 ∧ !tableWaits s die then placeAll die 97 s else s)
/-- BACKFILL_STOP (R90): the groups that have waited for 1 ms stop backfill on their die. -/
def execBackfillStop (die : Nat) (s : State) : Out :=
  let due := (waitingKernels s die).filter (fun p => (sfind p.2.waitSince die).any (fun t => decide (t + 1000000 ≤ s.now)))
  .next (if due.isEmpty then s
    else { s with scheds := sput s.scheds die { s.sched die with stops := due.foldl (fun l p => nsInsert l p.1) (s.sched die).stops } })

/-! ## Retirement (R501, R502) -/

/-- Tiles bound to names of a shard are released (R248, R502). -/
def releaseTiles (s : State) (shardKey : Nat) : State :=
  { s with tiles := s.tiles.filter (fun p => !(p.2.bound.any (fun b => b.1 == shardKey))) }
/-- A group retires (R502, R88, R89, R91): everything it held is free, and the die scheduler is told. -/
def retireGroup (s : State) (gk : Nat) : State :=
  match sfind s.groups gk with
  | none => s
  | some g =>
    let d := dieOf g.core
    let s := evictGroup { s with groups := sdel s.groups gk } gk
    let s := g.keys.foldl (fun s k => s.upd k (fun t => { t with place := none, status := .empty, ending := false })) s
    let left (f : Nat → Bool) : Bool := s.groups.any (fun p => p.2.kernel == g.kernel && f p.2.core)
    let s := match sfind s.kernels g.kernel with
      | some kn =>
        let kn := if left (fun c => clusterOf c == clusterOf g.core) then kn else { kn with clAlloc := sdel kn.clAlloc (clusterOf g.core) }
        let kn := if left (fun c => dieOf c == d) then kn else { kn with dieAlloc := sdel kn.dieAlloc d }
        { s with kernels := sput s.kernels g.kernel kn }
      | none => s
    let s := if s.groups.any (fun p => p.2.core == g.core) then s else s.updCore g.core (fun c => { c with heldSince := none })
    s.setOff (.place d)
/-- A shard of a kernel retires (R502, R75); SHARDS counts those before the end of an ended kernel (R497). -/
def countShard (s : State) (kernel : Nat) : State :=
  match (sfind s.kernels kernel).filter (fun kn => kn.state != .ending) with
  | some kn =>
    let kn := { kn with retired := kn.retired + 1 }
    { s with kernels := sput s.kernels kernel (if kn.retired = kn.shards then { kn with state := .ending } else kn) }
  | none => s
/-- A strand has ended its part (R501): the shard retires when all its strands have, and the group with its last shard (R502). -/
def strandEnded (s : State) (k : Nat) : State :=
  let s := s.upd k (fun t => { t with status := .empty, ending := false, wait := {}, hold := none, links := [], watch := [] })
  match (s.strand k).place with
  | none => s
  | some pl =>
    match sfind s.groups pl.group with
    | none => s
    | some g =>
      if g.trio && g.keys.any (fun j => (s.strand j).status != .empty) then s
      else
        let s := releaseTiles s (s.shardKey k)
        let live := nsErase g.live (if g.trio then 0 else pl.pos)
        let s := { s with groups := sput s.groups pl.group { g with live := live } }
        let s := countShard s g.kernel
        if live.isEmpty then retireGroup s pl.group else s
/-- The fault of the lowest-numbered channel that is held (R501). -/
def heldChannel (t : Strand) : Option (BitVec 32 × Dword) := t.chan.toList.findSome? (fun c => c.fault.map (fun f => (f.1, f.2.2)))
/-- Step 3 of an ending (R501): every mapped cocoon is written back and unmapped, in ascending number. -/
def unmapAll (k : Nat) : M Unit :=
  eachM (List.range 8) (fun n => do
    cocoonFlush (8 * k + n)
    modify (fun s => { s with cocoons := sdel s.cocoons (8 * k + n) }))
/-- Steps 4 and 5 of an ending (R501). -/
def endEffects (s : State) (k : Nat) : State :=
  let s := dropInv (arriveDeferred s k) k
  { s with strip := s.strip.filter (fun e => e.strand != k) }.upd k (fun t =>
    { t with decl := none, chan := t.chan.map (fun (c : Channel) => { c with armed := none })
             ui := { t.ui with inHandler := false, pend := 0, shadow := Vector.replicate 8 0 } })
/-- STRAND_END (R501): a strand that has come to the end of its part goes on with its ending; a trap is taken at the ending
instruction, which the executive returns to. -/
def execStrandEnd (strand : Nat) (s : State) : Out :=
  .next (
    let t := s.strand strand
    if !t.ending ∨ arrivalWaits s strand ∨ (t.status ≠ .running ∧ t.status ≠ .stopping) ∨ (s.coreRegs (coreOf strand)).halted then s
    else
      let s1 := { s with actor := .strand strand }
      let trapped (s : State) (x : TrapInfo) : State := takeTrap (s.upd strand (fun t => { t with ending := false })) strand x
      match heldChannel t with
      | some (id, a) => trapped s1 ⟨.copyFault, a, id.toNat⟩
      | none =>
        if t.chan.toList.any (fun c => !c.pending.isEmpty) then s
        else
          match unmapAll strand s1 with
          | .ok _ s2 => strandEnded (endEffects s2 strand) strand
          | .error (.trap x) s2 => trapped s2 x
          | .error .wait s2 => s2)

/-! ## The end of a kernel (R497) -/

/-- A cocoon is unmapped with its dirty words discarded (R497): the homes keep their older values. -/
def discardCocoon (s : State) (ck : Nat) : State :=
  match sfind s.cocoons ck with
  | none => s
  | some c =>
    let core := coreOf c.strand
    let s := c.dirty.foldl (fun s i =>
      match sfind c.tr (i / 16) with
      | some t =>
        let w := t.pa / 4 + i % 16
        let s := { s with pending := s.pending.filter (fun p => !p.names core w) }
        if heldBy s w core then { s with reg := sdel s.reg w } else s
      | none => s) s
    { s with cocoons := sdel s.cocoons ck }
/-- A strand whose work is gone waits in no sqend any more (R473). -/
def stopsWaiting (k : Nat) (s : State) : State :=
  { s with solvers := s.solvers.map (fun (p : Nat × Solver) => (p.1, { p.2 with enders := nsErase p.2.enders k })) }
/-- A strand of an ended kernel is stopped, and nothing of it is saved (R497). -/
def stopUnsaved (s : State) (k : Nat) : State :=
  let s := (List.range 8).foldl (fun s n => discardCocoon s (8 * k + n)) s
  let s := dropInv s k
  stopsWaiting k ({ s with strip := s.strip.filter (fun e => e.strand != k) }.upd k (fun t =>
    { t with status := .empty, ending := false, wait := {}, hold := none, links := [], watch := [], decl := none, deferred := none
             task := none, chan := Vector.replicate 4 {}, chain := none, latch := none, squashed := false, level := .user }))
/-- A strand of an ended kernel can be stopped now (R483, R497): it holds no work or is saved, or it is at user level on a core that is
not halted; on a fenced core nothing runs any more (R514). -/
def stopsNow (s : State) (k : Nat) : Bool :=
  let t := s.strand k
  let c := s.coreRegs (coreOf k)
  c.fenced || (t.status != .running && t.status != .stopping) || (t.level == .user && !c.halted)
/-- The strands of a group of an ended kernel stop as pre-emption stops them (R497, R483), one at executive or firmware level at its
return to user level; the group retires with the last. -/
def stopGroup (s : State) (p : Nat × Group) : State :=
  let s := p.2.keys.foldl (fun s k => if stopsNow s k then stopUnsaved s k else s.upd k (fun t => { t with status := .stopping })) s
  if p.2.keys.all (fun k => (s.strand k).status == .empty) then retireGroup (p.2.keys.foldl releaseTiles s) p.1 else s
/-- The groups of an ended kernel stop. -/
def stopKernel (s : State) (key : Nat) : State := (s.groups.filter (fun p => p.2.kernel == key)).foldl stopGroup s
/-- The kernel of a strand's group, where it has ended (R497). -/
def endedKernel (s : State) (k : Nat) : Option Nat :=
  (s.groupOf k).bind (fun g => if (sfind s.kernels g.kernel).any (fun n => n.state == .ending) then some g.kernel else none)
/-- A kernel is ended with a status (R497): its work stops, its groups retire, and its completion follows. -/
def endKernel (s : State) (key : Nat) (st : Status) : State :=
  match sfind s.kernels key with
  | none => s
  | some kn =>
    if kn.state = .ending then s
    else
      let s := { s with kernels := sput s.kernels key { kn with state := .ending, status := st, toPlace := [], waitSince := [] } }
      let s := stopKernel (dropTasks s key) key
      { s with scheds := s.scheds.map (fun (p : Nat × Sched) => (p.1, { p.2 with stops := nsErase p.2.stops key })) }

end Sys2Proof.Machine
end

