-- ==== Sys2Proof/Machine/Preempt.lean ====
section
/-! DEFINITION. Pre-emption and save areas (R190, R482 to R486), the kernel watchdogs and commands (R492 to R497), the executive
watchdog (R496) and debug halt (R498 to R500). -/

namespace Sys2Proof.Machine
open Sys2Proof

/-! ## The save area (R482, R484) -/

/-- The address of a strand's save area. -/
def saveBase (s : State) (k : Nat) : Dword :=
  let c := s.coreRegs (coreOf k)
  c.savehi.getD (strandNo k) 0 ++ c.savelo.getD (strandNo k) 0 ++ (0 : BitVec 12)
/-- The save area is 352 KiB in window 0x00, writable and class N under ASID 0 (R482). The check does not wait for a home, which would
serve it in the end (R303); while the host has not answered for its translation (R509), the area counts as proper (assumption 53). -/
def saveAreaOk (s : State) (k : Nat) : Bool :=
  let b := saveBase s k
  let s := { s with busy := [], waiters := [] }
  winCode b == 0 && decide (winOff b + 0x58000 ≤ 2 ^ 52) &&
  (List.range 88).all (fun i =>
    match translate (luCtx 0) (winOff b + 4096 * i) .write b 0 s with
    | .ok (.glob _ cls) _ => cls == .n
    | .ok (.late cls _) _ => cls == .n
    | .ok _ _ => false
    | .error (.trap _) _ => false
    | .error .wait _ => true)
/-- Write a dword of a save area at its homes (R483); one that cannot be written is left out. -/
def saveDword (b : Dword) (off v : Nat) : M Unit := do
  let ea := b + BitVec.ofNat 64 off
  let _ ← tryTrap (do
    let pa ← luAddr 0 ea 8 .write
    let s ← get
    match homeWriteN s pa 8 v with
    | some s' => set s'
    | none => pure ())
  pure ()
/-- Write a register image of n dwords. -/
def saveBits {w : Nat} (b : Dword) (off n : Nat) (x : BitVec w) : M Unit :=
  eachM (List.range n) (fun i => saveDword b (off + 8 * i) (getBits x (64 * i) 64))
/-- Write n dwords whose layout the area does not state: free values (assumption 4). -/
def saveFree (b : Dword) (off n : Nat) : M Unit :=
  eachM (List.range n) (fun i => do
    let s ← get
    modify (·.bumpFree)
    saveDword b (off + 8 * i) ((s.freeVal 64).toNat))
/-- Read a dword of a save area; none where it cannot be read. -/
def loadDword (b : Dword) (off : Nat) : M (Option Nat) := do
  let r ← tryTrap (luRead 0 (b + BitVec.ofNat 64 off) 8)
  pure (match r with
    | .ok v => some v
    | .error _ => none)
/-- Write dwords one after another. -/
def saveList (b : Dword) (off : Nat) (l : List Nat) : M Unit := eachM l.zipIdx (fun p => saveDword b (off + 8 * p.2) p.1)
/-- Every element of a list of options, if none is missing. -/
def allSome {α : Type} : List (Option α) → Option (List α)
  | [] => some []
  | a :: l => a.bind (fun x => (allSome l).map (x :: ·))
/-- Read n dwords one after another; none where one cannot be read. -/
def loadList (b : Dword) (off n : Nat) : M (Option (List Nat)) := do
  let l ← collectM (List.range n) (fun i => loadDword b (off + 8 * i))
  pure (allSome l)
/-- Read a register image of n dwords; a dword that cannot be read keeps the value given. -/
def loadBits {w : Nat} (b : Dword) (off n : Nat) (old : BitVec w) : M (BitVec w) := do
  let l ← collectM (List.range n) (fun i => loadDword b (off + 8 * i))
  pure (l.zipIdx.foldl (fun x p => match p.1 with
    | some v => putBits x (64 * p.2) 64 v
    | none => x) old)

/-- The special registers of the scalar state with their offsets (R484), in an order in which they can be written back. -/
def savedSprs : List (Nat × Nat) :=
  [(0x140, 0x101), (0x148, 0x100), (0x150, 0x102), (0x158, 0x103), (0x160, 0x104), (0x168, 0x106), (0x170, 0x110), (0x178, 0x112)] ++
  (List.range 8).map (fun i => (0x180 + 8 * i, 0x108 + i)) ++
  [(0x1C8, 0x001), (0x1C0, 0x000), (0x1D0, 0x002), (0x1D8, 0x003), (0x1E0, 0x004), (0x1E8, 0x005), (0x1F0, 0x006), (0x1F8, 0x007),
   (0x200, 0x00B), (0x208, 0x00C), (0x210, 0x00D)] ++
  (List.range 4).map (fun i => (0x218 + 8 * i, 0x010 + i)) ++ (List.range 4).map (fun i => (0x238 + 8 * i, 0x018 + i)) ++
  (List.range 8).map (fun i => (0x258 + 8 * i, 0x020 + i)) ++ (List.range 4).map (fun i => (0x298 + 8 * i, 0x030 + i)) ++ [(0x360, 0x114)]
/-- The ring registers with their offsets. -/
def savedRings : List (Nat × Nat) := (List.range 32).map (fun i => (0x400 + 8 * i, 0x040 + i))
/-- The strand's area holds the shard's shared state (R484): a solo strand's, or the loader's. -/
def keepsShared (s : State) (k : Nat) : Bool := s.shardKey k == k
/-- Another strand of the shard runs, so that the live shared state stands at a return. -/
def shardBusy (s : State) (k : Nat) : Bool :=
  match s.groupOf k with
  | some g => g.trio && g.keys.any (fun j => j != k && ((s.strand j).status == .running || (s.strand j).status == .stopping))
  | none => false
/-! ### Contents whose layout R484 leaves to the machine (assumption 53): each as a list of dwords, and read back from one -/

/-- The cause of a code (R480). -/
def causeOf (n : Nat) : Option Cause :=
  [Cause.illegalInstruction, .privilege, .misaligned, .windowRange, .windowInvalid, .pageNotPresent, .pageProtection, .classViolation,
   .memPoison, .memTimeout, .vregWindow, .tileUnclaimed, .formatRecord, .stride, .ringFault, .fabricUnbound, .fabricImage,
   .fabricDeadlock, .fabricFull, .copyFault, .breakpoint, .xcall, .fcall, .watchdog].find? (fun c => c.code.toNat == n)
/-- Field of n bits from bit lo up of a dword. -/
def fieldOf (v lo n : Nat) : Nat := v / 2 ^ lo % 2 ^ n
/-- A number with a bit set where b holds. -/
def bitAt (b : Bool) (n : Nat) : Nat := if b then 2 ^ n else 0
/-- A channel's record (R385): CPYNEXT and CPYDONE, the arm, the fault record and its address, the poison record, and how many
transfers follow. -/
def chanWords (t : Strand) (n : BitVec 2) : List Nat :=
  let c := t.channel n
  [(t.next n).toNat + 2 ^ 32 * (t.done n).toNat, c.armed.elim 0 (fun b => b.toNat + 2 ^ 32),
   c.fault.elim 0 (fun f => f.1.toNat + 2 ^ 32 * f.2.1.code.toNat + 2 ^ 40), c.fault.elim 0 (·.2.2.toNat),
   c.poisonId.toNat + bitAt c.poison 32 + bitAt c.outside 33, c.pending.length]
/-- A pending transfer (R385): its descriptor, its identifier and its start value. -/
def Transfer.words (x : Transfer) : List Nat :=
  [bitAt x.box.fill 0 + bitAt x.box.cvt 1 + bitAt x.begun 2 + bitAt x.completed 3 + bitAt x.abandoned 4 + bitAt x.outside 5 + bitAt x.again 6 +
     2 ^ 8 * x.box.esize + x.box.bar.elim 0 (fun b => 2 ^ 16 * b.toNat + 2 ^ 25) + x.spec.elim 0 (fun j => 2 ^ 32 * j + 2 ^ 26),
   x.box.src.toNat, x.box.dst.toNat, x.box.ext[0].toNat + 2 ^ 32 * x.box.ext[1].toNat, x.box.ext[2].toNat + 2 ^ 32 * x.box.ext[3].toNat] ++
  x.box.sstr.toList.map (·.toNat) ++ x.box.dstr.toList.map (·.toNat) ++ [x.id.toNat, x.moved]
/-- The transfer of its dwords. -/
def Transfer.ofWords (l : List Nat) : Transfer :=
  let w (i : Nat) : Nat := l.getD i 0
  let f := w 0
  { id := BitVec.ofNat 32 (w 11), moved := w 12
    begun := f.testBit 2, completed := f.testBit 3, abandoned := f.testBit 4, outside := f.testBit 5, again := f.testBit 6
    spec := if f.testBit 26 then some (f / 2 ^ 32) else none
    box := { fill := f.testBit 0, cvt := f.testBit 1, esize := fieldOf f 8 8, src := BitVec.ofNat 64 (w 1), dst := BitVec.ofNat 64 (w 2)
             ext := #v[BitVec.ofNat 32 (w 3), BitVec.ofNat 32 (w 3 / 2 ^ 32), BitVec.ofNat 32 (w 4), BitVec.ofNat 32 (w 4 / 2 ^ 32)]
             sstr := #v[BitVec.ofNat 64 (w 5), BitVec.ofNat 64 (w 6), BitVec.ofNat 64 (w 7)]
             dstr := #v[BitVec.ofNat 64 (w 8), BitVec.ofNat 64 (w 9), BitVec.ofNat 64 (w 10)]
             bar := if f.testBit 25 then some (BitVec.ofNat 9 (fieldOf f 16 9)) else none } }
/-- A channel with the record and the transfers of their dwords. -/
def Strand.setChanWords (t : Strand) (n : BitVec 2) (l : List Nat) (xs : List (List Nat)) : Strand :=
  let w (i : Nat) : Nat := l.getD i 0
  let c : Channel :=
    { pending := xs.map Transfer.ofWords
      armed := if (w 1).testBit 32 then some (BitVec.ofNat 32 (w 1)) else none
      fault := if (w 2).testBit 40 then (causeOf (fieldOf (w 2) 32 8)).map (fun c => (BitVec.ofNat 32 (w 2), c, BitVec.ofNat 64 (w 3))) else none
      poison := (w 4).testBit 32, poisonId := BitVec.ofNat 32 (w 4), outside := (w 4).testBit 33 }
  { t.setChannel n c with
    cpyNext := t.cpyNext.set n.toNat (BitVec.ofNat 32 (w 0)) n.isLt, cpyDone := t.cpyDone.set n.toNat (BitVec.ofNat 32 (w 0 / 2 ^ 32)) n.isLt }
/-- A barrier (R484). -/
def Barrier.word (b : Barrier) : Nat :=
  b.phase.toNat + 2 ^ 32 * b.count.toNat + 2 ^ 44 * b.expect.toNat + bitAt b.link 56 + bitAt b.uiarm 57
/-- The barrier of its dword; the count of a linked one is the link's, which went on meanwhile. -/
def Barrier.ofWord (b : Barrier) (v : Nat) : Barrier :=
  if b.link then b
  else { b with phase := BitVec.ofNat 32 v, count := BitVec.ofNat 12 (v / 2 ^ 32), expect := BitVec.ofNat 12 (v / 2 ^ 44)
                link := v.testBit 56, uiarm := v.testBit 57 }
/-- The strip-prefetch declaration and its position (R390). -/
def Decl.words (d : Decl) : List Nat :=
  [1 + bitAt d.due 1 + 2 ^ 8 * d.streams.length + 2 ^ 16 * d.depth, d.avl, d.pos] ++ d.streams.flatMap (fun x => [x.base.toNat, x.bytes])
/-- The declaration of its dwords, if there is one. -/
def Decl.ofWords (l : List Nat) : Option Decl :=
  let w (i : Nat) : Nat := l.getD i 0
  if (w 0).testBit 0 then
    some { avl := w 1, pos := w 2, depth := fieldOf (w 0) 16 8, due := (w 0).testBit 1
           streams := (List.range (min 4 (fieldOf (w 0) 8 8))).map (fun i => { base := BitVec.ofNat 64 (w (3 + 2 * i)), bytes := w (4 + 2 * i) }) }
  else none
/-- The flits of a stop state, each with its place: the key of its skid buffer, or 2^20 for the output stream buffer. -/
def Inv.flits (i : Inv) : List (Nat × Flit) :=
  i.bufs.flatMap (fun p => p.2.map (fun f => (p.1, f))) ++ i.out.map (fun f => (2 ^ 20, f))
/-- The fabric stop state (R352): the PC and x1 to x15 of each cell; the end-of-stream marks, the counts of what follows and the
generation; 16 admission counters; 64 withdrawn accesses; and up to 815 flits. -/
def stopWords (s : State) (k : Nat) (i : Inv) : List Nat :=
  (List.range 64).flatMap (fun c => (s.cell (64 * k + c)).pc.toNat :: (upFrom 1 15).map (fun r => ((s.cell (64 * k + c)).x.getD r 0).toNat)) ++
  [bitAt i.inA.eosTaken 0 + bitAt i.inB.eosTaken 1 + bitAt i.outEos 2 + 2 ^ 8 * (min 64 i.withdrawn.length) +
     2 ^ 16 * (min 0xFFFF i.flits.length) + 2 ^ 32 * i.gen] ++
  (List.range 16).map (fun a => (BitVec.ofInt 64 (i.adm.getD a 0)).toNat) ++
  (List.range 64).flatMap (fun n =>
    match i.withdrawn[n]? with
    | some x => x.store.elim [x.cell, 0, 0] (fun p => [x.cell + 2 ^ 8 + 2 ^ 16 * p.2.1, p.1.toNat, p.2.2])
    | none => [0, 0, 0]) ++
  (i.flits.take 815).map (fun p => p.2.data.toNat + 2 ^ 32 * p.2.kind + 2 ^ 40 * p.1)
/-- The stop state of its dwords. Flits beyond what the area holds stay in the core. -/
def setStopWords (s : State) (k : Nat) (i : Inv) (l : List Nat) : State :=
  let w (n : Nat) : Nat := l.getD n 0
  let f := w 1024
  let i := { i with
    inA := { i.inA with eosTaken := f.testBit 0 }, inB := { i.inB with eosTaken := f.testBit 1 }, outEos := f.testBit 2, gen := f / 2 ^ 32
    adm := i.adm.zipIdx.map (fun p => if p.2 < 16 then (BitVec.ofNat 64 (w (1025 + p.2))).toInt else p.1)
    withdrawn := (List.range (min 64 (fieldOf f 8 8))).map (fun n =>
      let v := w (1041 + 3 * n)
      { cell := v % 64, store := if v.testBit 8 then some (BitVec.ofNat 64 (w (1042 + 3 * n)), fieldOf v 16 8, w (1043 + 3 * n)) else none }) ++
      i.withdrawn.drop 64 }
  let n := fieldOf f 16 16
  let flit (v : Nat) : Flit := ⟨fieldOf v 32 8, BitVec.ofNat 32 v⟩
  let fl := (List.range n).map (fun j => w (1233 + j))
  let i := if 815 < n then i else
    { i with out := (fl.filter (fun v => v / 2 ^ 40 == 2 ^ 20)).map flit
             bufs := (fl.filter (fun v => v / 2 ^ 40 != 2 ^ 20)).foldl (fun b v => sput b (v / 2 ^ 40) (sget [] b (v / 2 ^ 40) ++ [flit v])) [] }
  { s with
    invs := sput s.invs k i
    cells := (List.range 64).foldl (fun cs c =>
      match sfind cs (64 * k + c) with
      | some x => sput cs (64 * k + c) { x with
          pc := BitVec.ofNat 64 (w (16 * c)), x := Vector.ofFn (fun (r : Fin 16) => if r.val = 0 then x.x[r] else BitVec.ofNat 64 (w (16 * c + r.val))) }
      | none => cs) s.cells }
/-- The place of a slot of relay queue q in the save area (R484), the oldest filled slot first (assumption 53). -/
def relayOff (q slot : Nat) : Nat := 0x50000 + 8192 * q + 4096 * slot
/-- What the shard's strand l keeps of the state that its shard shares (R484), written to the area of l: the rings, the relay
queues and the tiles. -/
def saveShared (l : Nat) : M Unit := do
  let s ← get
  let b := saveBase s l
  eachM savedRings (fun p => saveDword b p.1 ((sprRead s l (BitVec.ofNat 12 p.2)).getD 0).toNat)
  if (s.groupOf l).any (·.trio) then
    eachM (List.range 4) (fun q => do
      let r := (s.strand l).relays.getD q []
      saveList b (0xD000 + 16 * q) [r.length, (r[0]?).elim 0 (·.count) + 2 ^ 32 * (r[1]?).elim 0 (·.count)]
      eachM r.zipIdx (fun p => saveBits b (relayOff q p.2) 512 p.1.data))
  else pure ()
  eachM (List.range 4) (fun a =>
    match s.tileKey l (BitVec.ofNat 2 a) with
    | some j => eachM (List.range 128) (fun i => saveBits b (0x10000 + 65536 * a + 512 * i) 64 (sget 0 (sget {} s.tiles j).rows i))
    | none => pure ())
/-- The barriers of a group (R484), written to the area of its lowest strand l. -/
def saveBars (l : Nat) (g : Group) : M Unit := do
  let s ← get
  saveList (saveBase s l) 0xC000 ((List.range g.barCount).map (fun n => (sget {} g.bars n).word))
/-- Write the state of a strand to its save area (R484). What its shard or its group shares goes to the area that keeps it, also where
that strand has been saved before: the last of them that stops writes what stands then. -/
def saveArea (k : Nat) : M Unit := do
  let s ← get
  let t := s.strand k
  let b := saveBase s k
  eachM (List.range 32) (fun i => saveDword b (8 * i) (if i = 0 then 0 else (t.x.getD i 0).toNat))
  eachM (List.range 8) (fun i => saveDword b (0x100 + 8 * i) (t.ui.shadow.getD i 0).toNat)
  eachM savedSprs (fun p => saveDword b p.1 ((sprRead s k (BitVec.ofNat 12 p.2)).getD 0).toNat)
  eachM (List.range 16) (fun i => saveDword b (0x2C0 + 8 * i) ((t.srgen.getD (2 * i) 0).toNat + 2 ^ 32 * (t.srgen.getD (2 * i + 1) 0).toNat))
  saveDword b 0x340 t.tret.toNat
  match t.task with
  | some j => saveDword b 0x348 (handleOf j).toNat
  | none => saveFree b 0x348 1
  saveDword b 0x350 (t.deferred.elim 0 (fun n => n + 2 ^ 63))
  saveDword b 0x358 ((sprRead s k 0x113).getD 0).toNat
  saveList b 0x380 (t.decl.elim [0] Decl.words)
  eachM (List.range 4) (fun n => do
    saveList b (0x500 + 2176 * n) (chanWords t (BitVec.ofNat 2 n))
    eachM (t.channel (BitVec.ofNat 2 n)).pending.zipIdx (fun p => saveList b (0x580 + 2176 * n + 128 * p.2) p.1.words))
  eachM (List.range 8) (fun n => saveBits b (0x2700 + 512 * n) 64 (if n = 0 then (0 : MaskReg) else t.mask (BitVec.ofNat 3 n)))
  saveBits b 0x3700 64 t.cm
  eachM (List.range t.window) (fun v => saveBits b (0x3900 + 512 * v) 64 (s.vreg k v))
  match sfind s.invs k with
  | some i => saveList b 0x7900 (stopWords s k i)
  | none => pure ()
  let kept (l : Nat) : Bool := l == k || (s.strand l).status == .saved
  match s.groupOf k with
  | some g =>
    match g.keys.find? (fun l => g.keys.all (fun j => decide (l ≤ j))) with
    | some l => if kept l then saveBars l g else pure ()
    | none => pure ()
  | none => pure ()
  if kept (s.shardKey k) then saveShared (s.shardKey k) else pure ()

/-- Load what the shard of strand k shares from its area (R484). -/
def loadShared (k : Nat) : M Unit := do
  let s ← get
  let b := saveBase s k
  let t := s.strand k
  if (s.groupOf k).any (·.trio) then do
    let relays ← collectM (List.range 4) (fun q => do
      let old := t.relays.getD q []
      match ← loadList b (0xD000 + 16 * q) 2 with
      | some l =>
        collectM (List.range (min 2 (l.getD 0 0))) (fun i => do
          let o : RelaySlot := old.getD i {}
          let x ← loadBits b (relayOff q i) 512 o.data
          pure ({ o with data := x, count := fieldOf (l.getD 1 0) (32 * i) 32 } : RelaySlot))
      | none => pure old)
    modify (·.upd k (fun t => { t with relays := Vector.ofFn (fun (i : Fin 4) => relays.getD i.val []) }))
  else pure ()
  eachM savedRings (fun p => do
    let v ← loadDword b p.1
    -- a geometry or base that is unchanged leaves the slots and flags as the strand kept them
    modify (fun s => match v with
      | some v => if sprRead s k (BitVec.ofNat 12 p.2) = some (BitVec.ofNat 64 v) then s else sprWrite s k (BitVec.ofNat 12 p.2) (BitVec.ofNat 64 v)
      | none => s))
  eachM (List.range 4) (fun a =>
    match s.tileKey k (BitVec.ofNat 2 a) with
    | some j => eachM (List.range 128) (fun i => do
        let x ← loadBits b (0x10000 + 65536 * a + 512 * i) 64 (sget (0 : VecReg) (sget {} s.tiles j).rows i)
        modify (fun s => { s with tiles := sput s.tiles j { sget {} s.tiles j with rows := sput (sget {} s.tiles j).rows i x } }))
    | none => pure ())
/-- Load the copy channels, the deferred arrival, the declaration and the fabric stop state of strand k from its area (R385, R390, R352,
R415). -/
def loadKept (k : Nat) : M Unit := do
  let s ← get
  let b := saveBase s k
  eachM (List.range 4) (fun n => do
    match ← loadList b (0x500 + 2176 * n) 6 with
    | some l => do
      let xs ← collectM (List.range (min 16 (l.getD 5 0))) (fun i => loadList b (0x580 + 2176 * n + 128 * i) 13)
      match allSome xs with
      | some xs => modify (·.upd k (·.setChanWords (BitVec.ofNat 2 n) l xs))
      | none => pure ()
    | none => pure ())
  match ← loadDword b 0x350 with
  | some v => modify (·.upd k (fun t => { t with deferred := if v.testBit 63 then some (v % 512) else none }))
  | none => pure ()
  match ← loadList b 0x380 11 with
  | some l => modify (·.upd k (fun t => { t with decl := Decl.ofWords l }))
  | none => pure ()
  match sfind s.invs k with
  | some i => do
    match ← loadList b 0x7900 2048 with
    | some l => modify (fun s => setStopWords s k i l)
    | none => pure ()
  | none => pure ()
/-- Load the barriers of the group of strand k, its lowest, while no strand of the group runs (R484). -/
def loadBars (k : Nat) (g : Group) (key : Nat) : M Unit := do
  let s ← get
  match ← loadList (saveBase s k) 0xC000 g.barCount with
  | some l => modify (fun s => { s with groups := sput s.groups key { g with
      bars := l.zipIdx.foldl (fun bs p => let b := (sget {} bs p.2).ofWord p.1
        if b = {} then sdel bs p.2 else sput bs p.2 b) g.bars } })
  | none => pure ()
/-- Load the state that the save area holds into its strand (R483, R484); what the area has no place for the strand has kept. -/
def loadArea (k : Nat) : M Unit := do
  let s ← get
  let b := saveBase s k
  let t := s.strand k
  let xs ← collectM (List.range 32) (fun i => loadDword b (8 * i))
  let sh ← collectM (List.range 8) (fun i => loadDword b (0x100 + 8 * i))
  let seeds ← collectM (List.range 16) (fun i => loadDword b (0x2C0 + 8 * i))
  let sprs ← collectM savedSprs (fun p => loadDword b p.1)
  let tret ← loadDword b 0x340
  let fxwd ← loadDword b 0x358
  let ms ← collectM (upFrom 1 7) (fun n => loadBits b (0x2700 + 512 * n) 64 (t.mask (BitVec.ofNat 3 n)))
  let cm ← loadBits b 0x3700 64 t.cm
  modify (fun s => (savedSprs.zip sprs).foldl (fun s p =>
    match p.2 with
    | some v => sprWrite s k (BitVec.ofNat 12 p.1.2) (BitVec.ofNat 64 v)
    | none => s) s)
  modify (·.upd k (fun t => { t with
    x := Vector.ofFn (fun (i : Fin 32) => match xs.getD i.val none with
      | some v => if i.val = 0 then 0 else BitVec.ofNat 64 v
      | none => t.x[i])
    ui := { t.ui with
      inHandler := (match (sprs.zip savedSprs).find? (fun p => p.2.2 == 0x018) with
        | some (some v, _) => v.testBit 0
        | _ => t.ui.inHandler)
      shadow := Vector.ofFn (fun (i : Fin 8) => match sh.getD i.val none with
        | some v => BitVec.ofNat 64 v
        | none => t.ui.shadow[i]) }
    srgen := Vector.ofFn (fun (i : Fin 32) => match seeds.getD (i.val / 2) none with
      | some v => BitVec.ofNat 32 (v / 2 ^ (32 * (i.val % 2)))
      | none => t.srgen[i])
    tret := (tret.map (fun v => BitVec.ofNat 64 v &&& ~~~3)).getD t.tret
    e := { t.e with fxwdFired := (fxwd.map (·.testBit 20)).getD t.e.fxwdFired }
    m := Vector.ofFn (fun (i : Fin 8) => if i.val = 0 then t.m[i] else ms.getD (i.val - 1) t.m[i])
    cm := cm }))
  let s ← get
  eachM (List.range (s.strand k).window) (fun v => do
    let x ← loadBits b (0x3900 + 512 * v) 64 (s.vreg k v)
    modify (·.setVreg k v x))
  loadKept k
  if keepsShared s k && !shardBusy s k then loadShared k else pure ()
  match s.groupOf k, (s.strand k).place with
  | some g, some p => if g.keys.all (fun j => decide (k ≤ j)) && !g.keys.any (fun j => (s.strand j).status == .running || (s.strand j).status == .stopping) then
      loadBars k g p.group else pure ()
  | _, _ => pure ()

/-! ## PREEMPT and RESTORE (R483, R486) -/

/-- PREEMPT of a strand (R482, R483): a RUNNING strand with a proper save area is STOPPING from now on. -/
def preempt (s : State) (k : Nat) : State :=
  if (s.strand k).status = .running ∧ saveAreaOk s k then s.upd k (fun t => { t with status := .stopping }) else s
/-- SCMD_PREEMPT (R483). -/
def execScmdPreempt (strand : Nat) (s : State) : Out := .next (preempt s strand)
/-- A pending transfer of a strand that is stopped (R385): cut back at its last landed write, it runs again from there before the channel
accepts new work. -/
def Transfer.cutBack (x : Transfer) : Transfer := { x with again := !x.completed && !x.abandoned }
/-- A STOPPING strand at user level stops at the boundary between two instructions (R190, R261, R277, R352, R385): its waits end, its
fabric invocation stops, its links, watches and strip buffer go. -/
def stopStrand (s : State) (k : Nat) : State :=
  let s := match fxEnv s k with
    | some v => applyStop s k v { reason := 3 }
    | none => s
  { s with strip := s.strip.filter (fun e => e.strand != k) }.upd k (fun t =>
    { t.recordChain with
      wait := {}, hold := none, links := [], watch := [], replay := none
      chan := t.chan.map (fun (c : Channel) => { c with pending := c.pending.map Transfer.cutBack }) })
/-- A STOPPING strand stops at its next boundary (R483): it is at user level, not ending, on a core that is not halted, and no stop of
its invocation is under way. -/
def stopsHere (s : State) (k : Nat) : Bool :=
  let t := s.strand k
  t.status == .stopping && t.level == .user && !t.ending && !(s.coreRegs (coreOf k)).halted && !(fxEnv s k).any (fun v => v.inv.stop.isSome)
/-- PREEMPT_SAVE_COMPLETE (R483, R484): a STOPPING strand that is at user level, on a core that is not halted, and not ending,
stops, after a user-level interrupt that is due then (R486); its state has been written to its save area, and it is SAVED. Of an ended kernel nothing is saved (R497). -/
def execPreemptSaveComplete (strand : Nat) (s : State) : Out :=
  let t := s.strand strand
  .next (
    match (if t.status = .stopping ∧ stopsNow s strand then endedKernel s strand else none) with
    | some key => stopKernel s key
    | none =>
    if !stopsHere s strand then s
    else
      match saveArea strand (stopStrand (deliverUi s strand) strand) with
      | .ok _ s' => s'.upd strand (fun t => { t with status := .saved })
      | .error _ s' => keepRequests s s')
/-- The return of a saved strand (R483, R453, R190), at EPC with its two low bits zero (R98; assumption 54): the strand is RESTORING until the area is loaded; then a squash that met it is
applied, a trap held until its task's emergence is taken, and the strand continues. -/
def restore (s : State) (k : Nat) : State :=
  if (s.strand k).status ≠ .saved ∧ (s.strand k).status ≠ .restoring then s
  else
    match loadArea k s with
    | .error _ s' => (keepRequests s s').upd k (fun t => { t with status := .restoring })
    | .ok _ s =>
      let s := s.upd k (fun t => { t with status := .running, level := .user, pc := t.e.epc &&& ~~~3, wait := {} })
      if (s.strand k).squashed then
        s.upd k (fun t => { backToTrun t with squashed := false, chain := none, e := { t.e with chainPc := Vector.replicate 4 0 } })
      else
        match (s.strand k).task with
        | some j =>
          match sfind s.tasks j with
          | some x =>
            match x.set.isEmpty, x.held with
            | true, some tr =>
              let s := raiseAt { s with tasks := sput s.tasks j { x with held := none } } k tr
              if (s.strand k).level = .executive then s.upd k (fun p => { p with e := { p.e with held := true } }) else s
            | _, _ => s.upd k (·.replayChain)
          | none => s.upd k (·.replayChain)
        | none => s.upd k (·.replayChain)
/-- SCMD_RESTORE (R483). -/
def execScmdRestore (strand : Nat) (s : State) : Out := .next (restore s strand)
/-- A write of SCMD (R482). -/
def strandCommand (s : State) (k : Nat) (v : Word) : State :=
  match (v.extractLsb' 0 2).toNat with
  | 1 => preempt s k
  | 2 => restore s k
  | _ => s

/-! ## Kernel watchdogs and commands (R493 to R497) -/

/-- The strands of a kernel. -/
def kernelStrands (s : State) (key : Nat) : List Nat :=
  (s.groups.filter (fun p => p.2.kernel == key)).flatMap (fun p => p.2.keys.filter (fun k => (s.strand k).status != .empty))
/-- HEARTBEAT_EXPIRE (R495): a persistent kernel whose interval has passed without progress is suspended-hung, or ended where a
strand of it has no proper save area. -/
def execHeartbeatExpire (kernel : Nat) (s : State) : Out :=
  .next (
    match sfind s.kernels kernel with
    | none => s
    | some k =>
      if !k.res.persist ∨ !k.checked ∨ (k.state ≠ .running ∧ k.state ≠ .waiting) ∨ k.idleNs < 1000 * k.res.hbeatUs then s
      else if (kernelStrands s kernel).any (fun j => !saveAreaOk s j) then hostEvent (endKernel s kernel .hungEnded) k.evvec
      else
        let s := (kernelStrands s kernel).foldl preempt s
        hostEvent { s with kernels := sput s.kernels kernel { k with state := .suspendedHung, hungAt := s.now } } k.evvec)
/-- RUNTIME_EXPIRE (R492, R497): a kernel that is not persistent has run longer than MAXRUNMS. -/
def execRuntimeExpire (kernel : Nat) (s : State) : Out :=
  .next (
    match sfind s.kernels kernel with
    | none => s
    | some k =>
      let ms := if k.res.maxRunMs = 0 then 10000 else k.res.maxRunMs
      if k.res.persist ∨ !k.checked ∨ (k.state ≠ .running ∧ k.state ≠ .waiting) ∨ k.runNs ≤ 1000000 * ms then s
      else endKernel s kernel .runtime)
/-- EXECUTIVE_WATCHDOG (R496): a strand that has spent more than FEWD.US at executive level takes WATCHDOG. -/
def execExecutiveWatchdog (strand : Nat) (s : State) : Out :=
  .next (
    let t := s.strand strand
    if t.level ≠ .executive ∨ t.f.fewd = 0 ∨ s.now ≤ t.execSince + 1000 * t.f.fewd.toNat ∨ !t.works ∨
       (s.coreRegs (coreOf strand)).halted then s
    else takeTrap s strand ⟨.watchdog, t.pc, 0⟩)
/-- The kernel that a command acts on (R493): the strand's own with SELF, else the one selected. -/
def commandTarget (s : State) (self : Option Nat) : Option (Nat × Kernel) :=
  match self with
  | some k => (s.groupOf k).bind (fun g => (sfind s.kernels g.kernel).map (fun kn => (g.kernel, kn)))
  | none => s.kernelAt s.lu.kselq.toNat s.lu.kseln
/-- A kernel of the table retires with a status. -/
def State.setStatus (s : State) (key : Nat) (st : Status) : State :=
  match sfind s.kernels key with
  | some k => { s with kernels := sput s.kernels key { k with status := st } }
  | none => s
/-- A kernel command (R494): CANCEL and FAULT act on a kernel in any state, one that is ending already too. -/
def kernelCommand (s : State) (cmd : Nat) (self : Option Nat) : State :=
  match commandTarget s self with
  | none => s
  | some (key, k) =>
    match cmd with
    | 1 =>
      if k.state = .suspendedHung then
        let placed := s.groups.any (fun p => p.2.kernel == key)
        let s := { s with kernels := sput s.kernels key { k with state := if placed then .running else .waiting, idleNs := 0 } }
        let s := (kernelStrands s key).foldl restore s
        k.toPlace.foldl (fun s p => s.setOff (.place p.1)) s
      else s
    | 2 => if k.state = .suspendedHung then endKernel s key .hungEnded else s
    | 3 => (endKernel s key .cancelled).setStatus key .cancelled
    | 4 => (endKernel s key .faulted).setStatus key .faulted
    | _ => s
/-- KCMD_RESUME (R494). -/
def execKcmdResume (self : Option Nat) (s : State) : Out := .next (kernelCommand s 1 self)
/-- KCMD_END (R494). -/
def execKcmdEnd (self : Option Nat) (s : State) : Out := .next (kernelCommand s 2 self)
/-- KCMD_CANCEL (R494). -/
def execKcmdCancel (self : Option Nat) (s : State) : Out := .next (kernelCommand s 3 self)
/-- KCMD_FAULT (R494). -/
def execKcmdFault (self : Option Nat) (s : State) : Out := .next (kernelCommand s 4 self)

/-! ## Debug halt (R498 to R500) -/

/-- The core in whose lane slices or scratchpad a flat address lies (R23). -/
def localCore (a : Nat) : Option Nat :=
  if 2 ^ 56 ≤ a ∧ a < 2 ^ 57 then some ((a - 2 ^ 56) / 0x80000)
  else if 2 ^ 57 ≤ a ∧ a < 2 ^ 58 then some ((a - 2 ^ 57) / 0x300000)
  else none
/-- A transfer of strand k writes an element, from its start value on, into the lane slices or the scratchpad of core n, its share of
cluster-shared memory included (R88). -/
def Transfer.landsOn (x : Transfer) (s : State) (k n : Nat) : Bool :=
  (upFrom x.moved (x.box.count - x.moved)).any (fun j =>
    let ea := x.box.dstAt j
    winCode ea != 0 && localCore (localFlat s k (winCode ea) (winOff ea) 0) == some n)
/-- A transfer of some strand still moves into the local memory of core n (R499): it has not landed and its channel is not held. -/
def landing (s : State) (n : Nat) : Bool :=
  s.strands.any (fun p => p.2.chan.toList.any (fun c =>
    c.fault.isNone && c.pending.any (fun x => !x.completed && !x.abandoned && x.landsOn s p.1 n)))
/-- SETTLED of a halted core, once every transfer into its local memories has landed or is held (R499). -/
def settle (s : State) (n : Nat) : State :=
  if (s.coreRegs n).halted && !(s.coreRegs n).settled && !landing s n then
    s.updCore n (fun c => { c with settled := true })
  else s
/-- DBGCTL_HALT (R498, R499): nothing while debug is disabled. -/
def execDbgctlHalt (core : Nat) (s : State) : Out :=
  .next (if dbgEnabled s core && !(s.coreRegs core).halted then settle (haltCore s core) core else s)
/-- RESUME of a core (R499): every strand continues under R190. -/
def resumeCore (s : State) (n : Nat) : State :=
  if (s.coreRegs n).halted then
    (upFrom (3 * n) 3).foldl (fun s k => if (s.strand k).status = .running ∧ (s.strand k).level = .user ∧ (s.strand k).chain.isNone then
        s.upd k (·.replayChain) else s)
      (s.updCore n (fun c => { c with halted := false, settled := false, timeout := false }))
  else s
/-- DBGCTL_RESUME (R499). -/
def execDbgctlResume (core : Nat) (s : State) : Out := .next (resumeCore s core)
/-- A write of DBGCTL (R498). -/
def debugCommand (s : State) (n : Nat) (v : Word) : State :=
  match (v.extractLsb' 0 2).toNat with
  | 1 => if dbgEnabled s n && !(s.coreRegs n).halted then settle (haltCore s n) n else s
  | 2 => resumeCore s n
  | _ => s
/-- DEBUG_SETTLE_TIMEOUT (R499): 100 microseconds have passed without SETTLED. -/
def execDebugSettleTimeout (core : Nat) (s : State) : Out :=
  let c := s.coreRegs core
  .next (if c.halted && !c.settled && decide (c.haltAt + 100000 ≤ s.now) then s.updCore core (fun c => { c with timeout := true }) else s)
/-- DBGDLO_READ (R500): the host reads DBGDLO. -/
def execDbgdloRead (core : Nat) (s : State) : Out :=
  let r := dbgDloRead s core
  .next { r.2 with out := r.2.out ++ [.hostRead r.1] }
/-- DBGDLO_WRITE (R500). -/
def execDbgdloWrite (core : Nat) (v : BitVec 32) (s : State) : Out := .next (dbgDloWrite s core v)
/-- DBGDHI_WRITE (R500). -/
def execDbgdhiWrite (core : Nat) (v : BitVec 32) (s : State) : Out := .next (s.updCore core (fun c => { c with dhi := v }))

end Sys2Proof.Machine
end

