-- ==== Sys2Proof/Machine/Bringup.lean ====
section
/-! DEFINITION. The host, the links, bring-up and reliability (R504 to R516): the events of chapter 22, and a host's register
writes. -/

namespace Sys2Proof.Machine
open Sys2Proof

/-! ## Registers whose writes set something off -/

/-- A READY write (R507): an inconsistent feature set is refused. -/
def readyWrite (s : State) : State :=
  if s.dev.ready then s
  else if (s.feat 8 && !(s.feat 4 && s.feat 5)) || (s.feat 2 && !s.feat 0) then s.updDev (fun d => { d with badset := true })
  else s.updDev (fun d => { d with ready := true, badset := false })
/-- DEVCTL_READY (R507). -/
def execDevctlReady (s : State) : Out := .next (readyWrite s)
/-- The effect of a register write that the window set off (R61, R96, R482, R498, R507). -/
def registerEffect (s : State) (o : Nat) (v : Word) : State :=
  if 0x40000 ≤ o ∧ o < 0x48000 then
    let n := (o - 0x40000) / 0x100
    let r := o % 0x100
    if r < 0x30 then strandCommand s (3 * n + r / 16) v
    else if r = 0x40 then debugCommand s n v
    else if 0x80 ≤ r ∧ r < 0xC0 then grantWrite s n ((r - 0x80) / 8) (r % 8 != 0) v
    else s
  else if o = 0x110 then queueCommand s v
  else if o = 0x240 then readyWrite s
  else s
/-- The register at an offset answers the host (R506, R516): in reset none does, and after a failed boot only the identification
registers and the one that holds the failure code (assumption 66). -/
def answers (s : State) (off : Nat) : Bool := !s.dev.inReset && (s.dev.booterr == 0 || decide (off < 0x20) || off == 0x240)
/-- REGISTER_WRITE (R5, R6, R505): the host writes a register through the first BAR of the physical function. Where no register
lies the write is ignored (R58). -/
def execRegisterWrite (off : Nat) (v : BitVec 32) (s : State) : Out :=
  .next (if isReg off ∧ answers s off then regWrite s none off v else s)

/-- A read of n bytes by the host through the first BAR (R27, R58): zero where no register lies, and for a width other than the register's
own. -/
def barRead (s : State) (off n : Nat) : Word × State := if n = 4 ∧ isReg off ∧ answers s off then regRead s off else (0, s)
/-- The first BAR of a virtual function shows an offset (R505): an identification register, or the doorbell of a queue whose OWNER lies in
the range granted to the function. Without SRIOV the functions stay disabled (R507). -/
def vfShows (s : State) (f off : Nat) : Bool :=
  let r := s.dev.vfasid.getD f 0
  let owner := match bellOf off with
    | some q => if q < s.lu.qcount.toNat then some (s.queue q).owner else none
    | none => none
  s.feat 6 && decide (f < 16) &&
    (decide (off < 0x20) || owner.any (fun a => decide (r.toNat % 65536 ≤ a.toNat) && decide (a.toNat ≤ (r.extractLsb' 16 16).toNat)))
/-- A request that came over a port is carried out: its flit leaves the port's inbox. -/
def takeRequest (s : State) (n : Nat) : Option State :=
  let p := s.linkPort n
  match p.inbox with
  | f :: l => if flitKind f = 1 then some (s.setLinkPort n { p with inbox := l }) else none
  | [] => none
/-- What an agent outside the package does of its own accord. A link request is what the oldest flit that the port has accepted asks for,
and its response is a flit of the port (R510). A line that the package caches is written from outside only after a snoop has
taken it (R315, R316). -/
def outsideEffect (o : Outside) (s : State) : State :=
  match o with
  | .barRead off n =>
    let r := barRead s off n
    { r.2 with out := r.2.out ++ [.hostRead r.1] }
  | .barWrite off n v => if n = 4 ∧ isReg off ∧ answers s off then regWrite s none off v else s
  | .vfRead f off n =>
    let r := if vfShows s f off then barRead s off n else (0, s)
    { r.2 with out := r.2.out ++ [.hostRead r.1] }
  | .vfWrite f off n v => if n = 4 ∧ isReg off ∧ answers s off ∧ vfShows s f off then regWrite s none off v else s
  | .hdmPoison w =>
    if isExternal w ∨ !s.feat 0 ∨ !reachable s (4 * w) ∨ s.dev.inReset then s
    else
      let s := homeWrite { s with hostLines := nsErase s.hostLines (lineOf w) } w 0
      { s with poison := nsInsert s.poison w }
  | .linkRequest port w data =>
    if isExternal w ∨ !s.portUp port ∨ !(s.linkPort port).room ∨ !reachable s (4 * w) ∨ s.dev.inReset then s
    else
      match takeRequest s port with
      | none => s
      | some s =>
        let s := linkSend s port 2
        match data with
        | some v => homeWrite { s with hostLines := nsErase s.hostLines (lineOf w) } w v
        | none => { s with hostLines := nsInsert s.hostLines (lineOf w), out := s.out ++ [.hdmData w (curVal s w) (wordPoisoned s w)] }
  | .ownWrite w v p =>
    if !isExternal w ∨ lineHeld s (lineOf w) then s
    else breakLinks { s with mem := Mem.writeN s.mem (4 * w) 4 v.toNat, poison := if p then nsInsert s.poison w else nsErase s.poison w } (4 * w)

/-! ## Reset and boot (R506) -/

/-- The package with all its state lost: as after reset. Memory beyond the package is not the package's to lose, and what is the
model's own goes on. -/
def allLost (s : State) : State :=
  { State.reset with
    agenda := s.agenda, tick := s.tick, freeCtr := s.freeCtr
    mem := s.mem.filter (fun c => decide (2 ^ 38 ≤ c.1) && decide (c.1 < 2 ^ 56))
    full := s.full.filter (fun w => decide (2 ^ 36 ≤ w) && decide (w < 2 ^ 54))
    poison := s.poison.filter (fun w => decide (2 ^ 36 ≤ w) && decide (w < 2 ^ 54)) }
/-- RESET_DEASSERTION (R506): everything is as after reset, and the first boot stage begins. -/
def execResetDeassertion (s : State) : Out := .next ((allLost s).updDev (fun d => { d with stage := 1 }))
/-- The failure code of a boot stage (R506). -/
def bootCode (stage : Nat) : BitVec 4 :=
  match stage with
  | 1 => 1 | 2 => 2 | 3 => 4 | 4 => 3 | _ => 0
/-- Zero is written to all DRAM and SRAM of the package, with good check bits and every full-empty bit empty (R506). -/
def scrubAll (s : State) : State :=
  { s with mem := s.mem.filter (fun c => decide (2 ^ 38 ≤ c.1) && decide (c.1 < 2 ^ 56))
           full := s.full.filter (fun w => decide (2 ^ 36 ≤ w) && decide (w < 2 ^ 54))
           poison := s.poison.filter (fun w => decide (2 ^ 36 ≤ w) && decide (w < 2 ^ 54))
           l1 := [], l2 := [], reg := [], pending := [], icache := [], lines := [] }
/-- The image of the housekeeping firmware is not below the count of blown fuses (R506). -/
def versionAllowed : Bool := decide ((List.range 64).countP (fun i => Config.rollbackFuses.getLsbD i) ≤ Config.securityVersion)
/-- The device link ports that training brings into service (R506, R29): those that are not lost. -/
def trainedPorts (s : State) : BitVec 16 :=
  (List.range 16).foldl (fun v i => if (s.linkPort i).lost then v else v ||| ((1 : BitVec 16) <<< i)) 0
/-- BOOT_STAGE_COMPLETE (R506): the stage succeeds and the next begins, or boot stops with the stage's code. Stage 2 compares versions;
of the others the event says whether they succeed. -/
def execBootStageComplete (ok : Bool) (s : State) : Out :=
  let n := s.dev.stage
  .next (
    if n = 0 ∨ s.dev.booted ∨ s.dev.booterr ≠ 0 then s
    else if !(if n = 2 then versionAllowed else ok) then s.updDev (fun d => { d with booterr := bootCode n })
    else
      let s := if n = 3 then scrubAll s else s
      if n = 5 then s.updDev (fun d => { d with booted := true, portsUp := trainedPorts s }) else s.updDev (fun d => { d with stage := n + 1 }))

/-! ## Host-shared translation (R509) -/

/-- The translation that an ATS response gives for a 4 KiB page, its fields as those of a leaf (R488). -/
def atsEntry (core : Nat) (a : BitVec 16) (page : Nat) (n : Nat) : TlbEntry :=
  let p := pteOf n
  { core := core, asid := a, vbase := 4096 * page, size := 4096, pbase := p.pfn * 4096
    cls := if p.cls = 0 then .n else if p.cls = 1 then .i else .d
    cp := p.cp, pr := p.pr, r := p.r, w := p.w, x := p.x, u := p.u, dirty := true }
/-- The waiting access has asked the host for the translation of a page (R509). -/
def Wait.asks (w : Wait) (page : Nat) : Bool := w.asked && w.home.isNone && w.out.any (fun ea => winOff ea / 4096 == page)
/-- Change the waits of strand k, and of the cells of its invocation, that want. -/
def updWaits (s : State) (k : Nat) (want : Wait → Bool) (f : Wait → Wait) : State :=
  { s with cells := s.cells.map (fun (p : Nat × CellCtx) => if p.1 / 64 = k ∧ want p.2.wait then (p.1, { p.2 with wait := f p.2.wait }) else p) }.upd k
    (fun t => if want t.wait then { t with wait := f t.wait } else t)
/-- Strand k, or a cell of its invocation, has a wait that wants. -/
def anyWait (s : State) (k : Nat) (want : Wait → Bool) : Bool :=
  want (s.strand k).wait || s.cells.any (fun p => p.1 / 64 == k && want p.2.wait)
/-- ATS_RESPONSE (R509): the translation of a page arrives for a strand and the cells of its invocation, or, from strand 384 on, for an
agent's request in the order in which they stand; a response without one sends a PRI page request, which is outstanding from then on. -/
def execAtsResponse (strand : Nat) (page : Nat) (entry : Option (BitVec 64)) (s : State) : Out :=
  .next (
    if strand < 384 then
      let a := (s.strand strand).e.asid
      match (if anyWait s strand (·.asks page) then pasidOf s a else none) with
      | some pasid =>
        match entry with
        | some e => updWaits (tlbPut s (atsEntry (coreOf strand) a page e.toNat)) strand (·.asks page)
                      (fun w => { w with since := none, out := none, asked := false, blocked := false })
        | none => updWaits { s with out := s.out ++ [.priRequest pasid page] } strand (·.asks page) (fun w => { w with since := some s.now })
      | none => s
    else
      match s.atsWaits[strand - 384]? with
      | none => s
      | some w =>
        match entry, (if w.home then none else pasidOf s w.asid) with
        | some e, some _ => { s with tlb := atsEntry 128 w.asid w.page e.toNat :: s.tlb, atsWaits := s.atsWaits.eraseIdx (strand - 384) }
        | none, some pasid => { s with out := s.out ++ [.priRequest pasid w.page], atsWaits := s.atsWaits.set (strand - 384) { w with since := s.now } }
        | _, none => s)
/-- PRI_RESPONSE (R509): Success has the translation asked for again, Invalid Request ends the access with PAGE_NOT_PRESENT. The answer
is for the request of the strand, or of its cells, that has been outstanding longest. -/
def execPriResponse (strand : Nat) (success : Bool) (s : State) : Out :=
  .next (
    if strand < 384 then
      let asks (w : Wait) : Bool := w.asked && w.home.isNone && w.out.isSome
      let ages := ((s.strand strand).wait :: (s.cells.filter (fun p => p.1 / 64 == strand)).map (·.2.wait)).filterMap (fun w => if asks w then w.since else none)
      match ages.min? with
      | none => s
      | some first =>
        updWaits s strand (fun w => asks w && w.since == some first) (fun w =>
          if success then { w with out := none, asked := false, blocked := false }
          else { w with verdict := some .pageNotPresent, blocked := false })
    else
      match s.atsWaits[strand - 384]? with
      | none => s
      | some w =>
        if w.home then s
        else if success then { s with atsWaits := s.atsWaits.eraseIdx (strand - 384) }
        else { s with atsWaits := s.atsWaits.set (strand - 384) { w with verdict := some .pageNotPresent } })
/-- The completions of ATS invalidations that are due are sent once every write on its way has reached its home (R509, R303). -/
def sendInvalidations (s : State) : State :=
  if s.dev.invDue = 0 ∨ globalWritesWait s then s
  else
    let t := drainAll s
    { t.updDev (fun d => { d with invDue := 0 }) with out := t.out ++ List.replicate s.dev.invDue .invalidationDone }
/-- ATS_INVALIDATION (R509): the matching translations leave every TLB as tlbinv removes them; the completion follows the
accesses that used them. -/
def execAtsInvalidation (pasid page : Nat) (all : Bool) (s : State) : Out :=
  let mine (a : BitVec 16) : Bool := pasidOf s a == some pasid
  let s := removeTranslations s (fun t => mine t.asid && (all || (decide (t.vbase ≤ 4096 * page) && decide (4096 * page < t.vbase + t.size)))) mine
  .next (sendInvalidations (s.updDev (fun d => { d with invDue := d.invDue + 1 })))

/-! ## Device links (R510, R511) -/

/-- The sender's side of a good flit (R510): the flits that ACK covers leave the replay buffer; on NAK the rest are sent again. -/
def ackFlits (s : State) (n : Nat) (ack : BitVec 12) (nak : Bool) : State :=
  let p := s.linkPort n
  let covered (f : BitVec 2048) : Bool := decide ((ack - flitSeq f).toNat < 2048)
  let rest := p.replay.dropWhile covered
  let naks := if !nak then (if rest.length = p.replay.length then p.naks else 0) else if rest.length = p.replay.length then p.naks + 1 else 1
  let s := s.setLinkPort n { p with replay := rest, naks := if rest.isEmpty then 0 else naks }
  if nak then { s with out := s.out ++ rest.map (fun f => .linkFlit n f) } else s
/-- LINK_FLIT_RECEIVE (R510): a good flit in order is accepted and acknowledged, and its messages, where it is not idle, wait in the
port's inbox; any other is discarded with NAK. -/
def execLinkFlitReceive (port : Nat) (flit : BitVec 2048) (s : State) : Out :=
  .next (
    let p := s.linkPort port
    if 16 ≤ port ∨ !s.portUp port then s
    else if flitCrc flit ≠ flit.extractLsb' 1984 64 ∨ 3 < flitKind flit ∨ flitSeq flit ≠ p.expect then
      { s with out := s.out ++ [.linkAck port (p.expect - 1) true] }
    else
      let s := s.setLinkPort port { p with expect := p.expect + 1, inbox := if flitKind flit = 0 then p.inbox else p.inbox ++ [flit] }
      let s := ackFlits s port (flit.extractLsb' 16 12) (flit.getLsbD 31)
      { s with out := s.out ++ [.linkAck port p.expect false] })
/-- A health event with REPLACE_REQUESTED set (R515). -/
def requestReplace (s : State) : State :=
  let s := s.updDev (fun d => { d with replace := true })
  { s with out := s.out ++ [.healthEvent] }
/-- LINK_RETRAIN (R510): after eight failed replays of one flit, so nine NAKs of it, the port is out of service until it is trained. -/
def execLinkRetrain (port : Nat) (s : State) : Out :=
  .next (if port < 16 ∧ s.portUp port ∧ 9 ≤ (s.linkPort port).naks then
      (s.setLinkPort port { s.linkPort port with naks := 0 }).updDev (fun d => { d with portsUp := d.portsUp &&& ~~~((1 : BitVec 16) <<< port) })
    else s)
/-- HEALTH.DLREDUCED (R508): ports on reduced lanes. -/
def reducedPorts (s : State) : BitVec 8 := BitVec.ofNat 8 (s.dev.linkPorts.countP (fun p => p.2.four && !p.2.lost))
/-- PORT_RETURN (R510, R511): a trained port is in service again, on 8 or 4 lanes, and its outstanding flits are replayed. -/
def execPortReturn (port : Nat) (fourLanes : Bool) (s : State) : Out :=
  .next (
    let p := s.linkPort port
    if 16 ≤ port ∨ s.portUp port ∨ p.lost ∨ !s.feat 7 then s
    else
      let s := (s.setLinkPort port { p with four := fourLanes }).updDev (fun d => { d with portsUp := d.portsUp ||| (1 <<< port) })
      let s := s.updDev (fun d => { d with dlreduced := reducedPorts s })
      let s := { s with out := s.out ++ p.replay.map (fun f => .linkFlit port f) }
      if fourLanes && !p.four then requestReplace s else s)
/-- PORT_LOST (R29): a host, pool or device link port is lost for good. -/
def execPortLost (deviceLink : Bool) (port : Nat) (s : State) : Out :=
  .next (
    if deviceLink then
      if 16 ≤ port ∨ (s.linkPort port).lost then s
      else
        let s := s.setLinkPort port { s.linkPort port with lost := true }
        s.updDev (fun d => { d with portsUp := d.portsUp &&& ~~~((1 : BitVec 16) <<< port), dlinks := d.dlinks - 1, dlreduced := reducedPorts s })
    else if 4 ≤ port ∨ s.dev.hostLost.contains port then s
    else s.updDev (fun d => { d with hostLost := nsInsert d.hostLost port, hostports := d.hostports - 1 }))

/-! ## Attestation (R512) -/

/-- An SPDM response: its kind (the request's row in the order of R512), a length in bits, and its content. -/
def spdmAnswer (s : State) (kind bits data : Nat) : Out := .next { s with out := s.out ++ [.spdm kind bits data] }
/-- GET_VERSION (R512): SPDM 1.3. -/
def execGetVersion (s : State) : Out := spdmAnswer s 0 8 0x13
/-- GET_CAPABILITIES (R512): of certificates (bit 0), challenge (1), measurements with signature (2), key exchange (3), PSK (4) and
secured messages (5), the first three are supported. -/
def execGetCapabilities (s : State) : Out := spdmAnswer s 1 8 7
/-- NEGOTIATE_ALGORITHMS (R512): of a request that offers Ed448 (bit 0) and SHA3-512 (bit 1), the ones selected. -/
def execNegotiateAlgorithms (algorithms : Nat) (s : State) : Out := spdmAnswer s 2 8 (algorithms % 4)
/-- GET_DIGESTS (R512): the digest of the chain in slot 0. -/
def execGetDigests (s : State) : Out := spdmAnswer s 3 512 Config.certificateDigest.toNat
/-- A list of bytes as a number, the first lowest. -/
def bytesNat (l : List Byte) : Nat := l.foldr (fun b n => b.toNat + 256 * n) 0
/-- GET_CERTIFICATE (R512): a portion of the chain in slot 0. -/
def execGetCertificate (offset length : Nat) (s : State) : Out :=
  let l := (Config.certificate.drop offset).take length
  spdmAnswer s 4 (8 * l.length) (bytesNat l)
/-- CHALLENGE (R512): the Ed448 signature with the identity key. -/
def execChallenge (nonce : BitVec 256) (s : State) : Out := spdmAnswer s 5 912 (Config.signature 256 nonce.toNat).toNat
/-- A measurement (R512): the first three are of images, the fourth is of FACC0 to FACC7. -/
def measurement (s : State) (i : Nat) : BitVec 512 := if i = 4 then Config.shake256 256 s.dev.facc.toNat else Config.measurement i
/-- GET_MEASUREMENTS (R512): the number of indexes for 0, all of them for 255, else the one asked for. -/
def execGetMeasurements (index : Nat) (s : State) : Out :=
  if index = 0 then spdmAnswer s 6 8 4
  else if index = 255 then
    spdmAnswer s 6 2048 ((List.range 4).foldl (fun n i => n + 2 ^ (512 * i) * (measurement s (i + 1)).toNat) 0)
  else if index ≤ 4 then spdmAnswer s 6 512 (measurement s index).toNat
  else spdmAnswer s 7 0 0

/-! ## Reliability (R29, R514, R515) -/

/-- DRAMMIB (R29): the usable MiB of the stacks of the dies in service, rounded down. -/
def dramMib (s : State) : Nat :=
  ((List.range 4).foldl (fun n d =>
    if s.dev.diemap.getLsbD d then n + (2 ^ 24 - s.dev.retired.countP (fun p => p / 2 ^ 24 == d)) else n) 0) / 256
/-- A page is retired (R514): it answers with poison from now on, and DRAMMIB falls. -/
def retirePage (s : State) (page : Nat) : State :=
  let s := s.updDev (fun d => { d with retired := nsInsert d.retired page, corrections := sdel d.corrections page
                                       retpages := BitVec.ofNat 16 (min 0xFFFF (d.retpages.toNat + 1)) })
  let s := s.updDev (fun d => { d with drammib := BitVec.ofNat 32 (dramMib s) })
  if s.dev.retpages.toNat = 4097 then requestReplace s else s
/-- CORRECTED_ERROR (R514): counted; a DRAM page with 16 corrections in 24 hours is retired. -/
def execCorrectedError (page : Option Nat) (s : State) : Out :=
  let s := s.updDev (fun d => { d with corrected := d.corrected + 1 })
  .next (
    match page with
    | none => s
    | some p =>
      if 2 ^ 26 ≤ p ∨ !s.dev.diemap.getLsbD (p / 2 ^ 24) ∨ s.dev.retired.contains p then s
      else
        let l := (sget [] s.dev.corrections p).filter (fun t => decide (s.now < t + 86400000000000)) ++ [s.now]
        if 16 ≤ l.length then retirePage s p else s.updDev (fun d => { d with corrections := sput d.corrections p l }))
/-- UNCORRECTABLE_ERROR (R196, R264, R317, R514): the word of a memory, by its flat address / 4, is poisoned, or, from 2^58 on, an element
of a tile: 16,384 × tile + 128 × row + column, or, from 2^59 on, a word of a relay queue's slot, the oldest one first: 8,192 × strand +
2,048 × queue + 1,024 × slot + word (assumption 14). -/
def execUncorrectableError (word : Nat) (s : State) : Out :=
  .next (
    if word < 2 ^ 58 then { s with poison := nsInsert s.poison word }
    else if 2 ^ 59 ≤ word then
      let n := word - 2 ^ 59
      s.upd (n / 8192) (fun t =>
        let l := t.relays.getD (n / 2048 % 4) []
        let l := l.zipIdx.map (fun (p : RelaySlot × Nat) =>
          if p.2 = n / 1024 % 2 then { p.1 with poison := nsInsert p.1.poison (n % 1024) } else p.1)
        { t with relays := t.relays.setIfInBounds (n / 2048 % 4) l })
    else
      let n := word - 2 ^ 58
      let t := sget ({} : Tile) s.tiles (n / 16384)
      if t.bound.isSome then { s with tiles := sput s.tiles (n / 16384) { t with poison := nsInsert t.poison (n % 16384) } } else s)
/-- End the kernels of a list with FAULTED; what was left of one that had ended stops too. -/
def faultKernels (s : State) (l : List Nat) : State := l.foldl (fun s k => stopKernel (endKernel s k .faulted) k) s
/-- CORE_FENCE (R514, R515, R16): the core is out of service until reset, and the kernels of its groups end with FAULTED. -/
def execCoreFence (core : Nat) (s : State) : Out :=
  .next (
    if 128 ≤ core ∨ (s.coreRegs core).fenced then s
    else
      let ks := ((coreGroups s core).map (fun p => p.2.kernel)).dedup
      let s := s.updCore core (fun c => { c with fenced := true })
      let s := faultKernels (s.updDev (fun d => { d with cores := d.cores - 1 })) ks
      (requestReplace s).setOff (.place (dieOf core)))
/-- DIE_FENCE (R514, R515, R29): the die leaves DIEMAP with its cores, copy engines and memory, and the kernels with shards on it
end with FAULTED. -/
def execDieFence (die : Nat) (s : State) : Out :=
  .next (
    if 4 ≤ die ∨ !s.dev.diemap.getLsbD die then s
    else
      let here (p : Nat × Kernel) : Bool :=
        s.groups.any (fun g => g.2.kernel == p.1 && dieOf g.2.core == die) || (sfind p.2.toPlace die).any (fun r => decide (r.1 < r.2))
      let ks := (s.kernels.filter here).map (·.1)
      let up := (upFrom (32 * die) 32).filter (fun c => !(s.coreRegs c).fenced)
      let s := up.foldl (fun s c => s.updCore c (fun r => { r with fenced := true })) s
      let s := s.updDev (fun d => { d with diemap := d.diemap &&& ~~~((1 : BitVec 4) <<< die), cores := d.cores - BitVec.ofNat 8 up.length
                                           cpyeng := d.cpyeng - 16 })
      let s := s.updDev (fun d => { d with drammib := BitVec.ofNat 32 (dramMib s) })
      let s := requestReplace (faultKernels s ks)
      (diesUp s).foldl (fun s d => s.setOff (.place d)) s)

/-! ## In-field self-test (R514) -/

/-- NO_NEW_GROUP (R514): a core that has held groups for 20 hours receives no new group. -/
def execNoNewGroup (core : Nat) (s : State) : Out :=
  let c := s.coreRegs core
  .next (if c.noNew.isNone && c.heldSince.any (fun t => decide (t + 72000000000000 ≤ s.now)) then
      s.updCore core (fun c => { c with noNew := some s.now })
    else s)
/-- SELF_TEST_PREEMPT (R514): a core that is not empty four hours later has its strands pre-empted for the test. -/
def execSelfTestPreempt (core : Nat) (s : State) : Out :=
  let c := s.coreRegs core
  .next (
    if c.testing || !(c.noNew.any (fun t => decide (t + 14400000000000 ≤ s.now))) || (coreGroups s core).isEmpty then s
    else
      let ks := (upFrom (3 * core) 3).filter (fun k => (s.strand k).status == .running && saveAreaOk s k)
      (ks.foldl preempt s).updCore core (fun c => { c with testing := true, testSaved := ks }))
/-- SELF_TEST_COMPLETE (R514): the test of a core that holds no work ends; the strands pre-empted for it are restored, and the core
receives groups again. -/
def execSelfTestComplete (core : Nat) (s : State) : Out :=
  let c := s.coreRegs core
  .next (
    if c.testing then
      if c.testSaved.all (fun k => (s.strand k).status != .stopping) then
        let s := s.updCore core (fun c => { c with testing := false, testSaved := [], noNew := none, heldSince := c.heldSince.map (fun _ => s.now) })
        (c.testSaved.foldl restore s).setOff (.place (dieOf core))
      else s
    else if c.noNew.isSome && (coreGroups s core).isEmpty then
      (s.updCore core (fun c => { c with noNew := none })).setOff (.place (dieOf core))
    else s)

/-! ## Power and temperature (R26, R516) -/

/-- PWR.NOW and THERM.TMAX are measured, at the end of a step (R508): since when NOW has stayed at least 5 percent below CAP and every
junction at or below 95 °C (R516). -/
def measure (s : State) : State :=
  if s.dev.inReset then s
  else
    let p := Config.power s.tick
    let j := Config.junction s.tick
    s.updDev (fun d => { d with
      nowW := p, tmax := j
      calmSince := if 100 * p.toNat ≤ 95 * d.cap.toNat ∧ j.toNat ≤ 95 then some (d.calmSince.getD s.now) else none })
/-- The limit that a cause names is exceeded (R516): a junction is above 100 °C, or NOW above CAP. -/
def overLimit (s : State) (thermal : Bool) : Bool :=
  if thermal then decide (100 < s.dev.tmax.toNat) else decide (s.dev.cap.toNat < s.dev.nowW.toNat)
/-- CLOCK_LOWER (R516): where a limit is exceeded, one step of 25 MHz down, to the floor of 500 MHz. -/
def execClockLower (thermal : Bool) (s : State) : Out :=
  .next (if 525 ≤ s.dev.mhz.toNat ∧ overLimit s thermal then
      s.updDev (fun d => { d with mhz := d.mhz - 25, thermal := d.thermal || thermal, power := d.power || !thermal })
    else s)
/-- CLOCK_RAISE (R516): where power and temperature have left room for 10 ms, one step of 25 MHz up, to 1,250 MHz, where POWER and
THERMAL clear; the 10 ms begin again. -/
def execClockRaise (s : State) : Out :=
  .next (if s.dev.mhz.toNat + 25 ≤ 1250 ∧ s.dev.calmSince.any (fun t => decide (t + 10000000 ≤ s.now)) then
      s.updDev (fun d => { d with calmSince := some s.now, mhz := d.mhz + 25, thermal := d.thermal && decide (d.mhz.toNat + 25 < 1250)
                                  power := d.power && decide (d.mhz.toNat + 25 < 1250) })
    else s)
/-- THERMAL_SHUTDOWN (R516): where a junction reaches 115 °C, or a limit is still exceeded at the floor, the package stops, holds itself
in reset and loses all state; its links are down. -/
def execThermalShutdown (s : State) : Out :=
  .next (if 115 ≤ s.dev.tmax.toNat ∨ (s.dev.mhz.toNat < 525 ∧ (overLimit s true ∨ overLimit s false)) then
      (allLost s).updDev (fun d => { d with inReset := true })
    else s)

/-! ## Words that are no instruction (R111) -/

/-- NOT_AN_INSTRUCTION (R111, R480): ILLEGAL_INSTRUCTION with the word. -/
def execNotAnInstruction (word : BitVec 32) (s : State) : Out := .next (raise s (illegal word))

end Sys2Proof.Machine
end

