-- ==== Sys2Proof/Machine/Fps.lean ====
section
/-! DEFINITION. The scalar floating-point instructions (major 0x11, R138 to R141) of strands and cells. -/

namespace Sys2Proof.Machine
open Sys2Proof

/-- The format of a scalar instruction (R110). -/
def FpFmt.fmt : FpFmt → Fmt
  | .f64 => fmt64 | .f32 => fmt32

/-- The operand bits of a register (R138): all 64 bits, or bits [31:0]. -/
def fpSrc (s : State) (f : FpFmt) (r : Reg) : Nat :=
  match f with
  | .f64 => (s.x r).toNat
  | .f32 => (s.x r).toNat % 2 ^ 32
/-- The operand's value. -/
def fpVal (s : State) (f : FpFmt) (r : Reg) : FVal := unpack (FpFmt.fmt f) (fpSrc s f r)

/-- The mode an instruction rounds under (R138, R153): its static code, or FRM; none where FRM holds 6 or 7. A cell has
no FRM, and code 7 means RNE there. -/
def fpMode (s : State) (r : Rm) : Option RMode :=
  match r with
  | .rne => some .rne | .rtz => some .rtz | .rdn => some .rdn | .rup => some .rup | .rna => some .rna
  | .dyn => if s.isCell then some .rne else rmodeOf s.me.frm

/-- Flags accrue in the strand's FFLAGS; a cell keeps none (R153, R168). -/
def State.accrue (s : State) (fl : BitVec 6) : State := if s.isCell then s else s.updMe (·.accrue fl)

/-- The state after a scalar instruction with a result of 64 bits and flags. -/
def fpDone (s : State) (d : Reg) (v : Nat) (fl : BitVec 6) : State := ((s.setX d (BitVec.ofNat 64 v)).accrue fl).advance

/-- An operation that rounds: ILLEGAL_INSTRUCTION under an FRM of 6 or 7 (R138, R547). -/
def fpRounding (r : Rm) (d : Reg) (w : Word) (op : RMode → FRes) (s : State) : Out :=
  .next (match fpMode s r with
    | none => raise s (illegal w)
    | some rm => fpDone s d (op rm).1 (op rm).2)

/-- fadd (R139). -/
def execFadd (f : FpFmt) (r : Rm) (d a b : Reg) (s : State) : Out :=
  fpRounding r d (wFadd f r d a b) (fun rm => fpAddV (FpFmt.fmt f) rm (fpVal s f a) (fpVal s f b)) s
/-- fsub (R139). -/
def execFsub (f : FpFmt) (r : Rm) (d a b : Reg) (s : State) : Out :=
  fpRounding r d (wFsub f r d a b) (fun rm => fpAddV (FpFmt.fmt f) rm (fpVal s f a) (fpVal s f b).negate) s
/-- fmul (R139). -/
def execFmul (f : FpFmt) (r : Rm) (d a b : Reg) (s : State) : Out :=
  fpRounding r d (wFmul f r d a b) (fun rm => fpMulV (FpFmt.fmt f) rm (fpVal s f a) (fpVal s f b)) s
/-- fdiv (R139, R140). -/
def execFdiv (f : FpFmt) (r : Rm) (d a b : Reg) (s : State) : Out :=
  fpRounding r d (wFdiv f r d a b) (fun rm => fpDivV (FpFmt.fmt f) rm (fpVal s f a) (fpVal s f b)) s
/-- fsqrt (R139, R140). -/
def execFsqrt (f : FpFmt) (r : Rm) (d a : Reg) (s : State) : Out :=
  fpRounding r d (wFsqrt f r d a) (fun rm => fpSqrtV (FpFmt.fmt f) rm (fpVal s f a)) s
/-- fmadd (R139, R140): a × b + xd, rounded once. -/
def execFmadd (f : FpFmt) (r : Rm) (d a b : Reg) (s : State) : Out :=
  fpRounding r d (wFmadd f r d a b) (fun rm => fpFmaV (FpFmt.fmt f) rm (fpVal s f a) (fpVal s f b) (fpVal s f d)) s
/-- fmin (R139): rounding code ignored (R138). -/
def execFmin (f : FpFmt) (_r : Rm) (d a b : Reg) (s : State) : Out :=
  let v := fpMinMax (FpFmt.fmt f) false (fpSrc s f a) (fpSrc s f b)
  .next (fpDone s d v.1 v.2)
/-- fmax (R139): rounding code ignored (R138). -/
def execFmax (f : FpFmt) (_r : Rm) (d a b : Reg) (s : State) : Out :=
  let v := fpMinMax (FpFmt.fmt f) true (fpSrc s f a) (fpSrc s f b)
  .next (fpDone s d v.1 v.2)
/-- fneg (R139): the sign bit inverted, no flags. -/
def execFneg (f : FpFmt) (_r : Rm) (d a : Reg) (s : State) : Out :=
  .next (fpDone s d (fpSrc s f a ^^^ (FpFmt.fmt f).signBit) 0)
/-- fabs (R139): the sign bit cleared, no flags. -/
def execFabs (f : FpFmt) (_r : Rm) (d a : Reg) (s : State) : Out :=
  .next (fpDone s d (fpSrc s f a % (FpFmt.fmt f).signBit) 0)
/-- fcmpeq (R139). -/
def execFcmpeq (f : FpFmt) (_r : Rm) (d a b : Reg) (s : State) : Out :=
  let v := fpCmpEq (FpFmt.fmt f) (fpSrc s f a) (fpSrc s f b)
  .next (fpDone s d (if v.1 then 1 else 0) v.2)
/-- fcmplt (R139). -/
def execFcmplt (f : FpFmt) (_r : Rm) (d a b : Reg) (s : State) : Out :=
  let v := fpCmpLt (FpFmt.fmt f) (fpSrc s f a) (fpSrc s f b)
  .next (fpDone s d (if v.1 then 1 else 0) v.2)
/-- fcmple (R139). -/
def execFcmple (f : FpFmt) (_r : Rm) (d a b : Reg) (s : State) : Out :=
  let v := fpCmpLe (FpFmt.fmt f) (fpSrc s f a) (fpSrc s f b)
  .next (fpDone s d (if v.1 then 1 else 0) v.2)
/-- fclass (R139, R157). -/
def execFclass (f : FpFmt) (_r : Rm) (d a : Reg) (s : State) : Out :=
  .next (fpDone s d (fpClass (FpFmt.fmt f) (fpSrc s f a)) (fpClassFl (FpFmt.fmt f) (fpSrc s f a)))
/-- The integer type of a type code (R141): signed unless bit 0 is set, 32 bits when bit 1 is set. -/
def cvtSigned (t : BitVec 2) : Bool := !t.getLsbD 0
/-- The width of the integer type of a type code. -/
def cvtWidth (t : BitVec 2) : Nat := if t.getLsbD 1 then 32 else 64
/-- fcvtfi (R141): a 32-bit result is sign-extended when signed, else zero-extended. -/
def execFcvtfi (f : FpFmt) (r : Rm) (t : BitVec 2) (d a : Reg) (s : State) : Out :=
  fpRounding r d (wFcvtfi f r t d a) (fun rm =>
    let v := fpToInt rm (cvtSigned t) (cvtWidth t) (fpVal s f a)
    (wrapInt 64 v.1, v.2)) s
/-- fcvtif (R141). -/
def execFcvtif (f : FpFmt) (r : Rm) (t : BitVec 2) (d a : Reg) (s : State) : Out :=
  fpRounding r d (wFcvtif f r t d a) (fun rm =>
    intToFp (FpFmt.fmt f) rm (bitsInt (cvtSigned t) (cvtWidth t) ((s.x a).toNat % 2 ^ cvtWidth t))) s
/-- The other scalar format. -/
def FpFmt.other : FpFmt → FpFmt
  | .f64 => .f32 | .f32 => .f64
/-- fcvtff (R141, R138): into format f from the other format; under RSR it draws as lane 0 of the strand. In a cell RSR
cannot be named. -/
def execFcvtff (f : FpFmt) (r : Rm) (d a : Reg) (s : State) : Out :=
  .next (match fpMode s r with
    | none => raise s (illegal (wFcvtff f r d a))
    | some rm =>
      let v := fpConvert (FpFmt.fmt (FpFmt.other f)) (FpFmt.fmt f) rm false (drawBits (s.me.srgen.getD 0 0)) (fpSrc s (FpFmt.other f) a)
      fpDone (if v.drew then s.updMe (·.draw 0) else s) d v.bits v.flags)

end Sys2Proof.Machine
end

