-- ==== Sys2Proof/Machine/Tq.lean ====
section
/-! DEFINITION. Rings and relay queues as explicit operations (TQ, R197). Each completes whole, ignores VSTART and sets it
to 0. -/

namespace Sys2Proof.Machine
open Sys2Proof

/-- qcfg (R197, R191): base and geometry are written as the special registers are, which clears counts and flags; it waits while an
instruction of another strand of the shard that names the ring is in flight. -/
def execQcfg (ring : BitVec 3) (a b : Reg) (s : State) : Out :=
  vguard (if !s.ringDeclared s.key ring.toNat then .error (ringFault ring.toNat)
      else if s.ringInFlight s.key ring then .error .wait else .ok ())
    (let n : BitVec 12 := BitVec.ofNat 12 (0x040 + 4 * ring.toNat)
     vdone (sprWrite (sprWrite s s.key n (s.x a)) s.key (n + 1) (s.x b))) s

/-- qpush (R197): elements 0 to vl − 1 of vs into the slot at TAIL, or a relay entry. -/
def execQpush (dst : Queue) (vs : Reg) (s : State) : Out :=
  let e := s.ew
  let image := packElems e ((List.range s.vl).map (vget s s.key vs.toNat e))
  let bytes := s.vl * e / 8
  match dst with
  | .ring n =>
    vguard (do
        groupOk s.me vs.toNat s.grp
        queueName s dst
        (if bytes ≤ (s.ring s.key n).slotBytes then .ok () else .error (ringFault n.toNat))
        ringRoom s n)
      (let r := s.ring s.key n
       vdone (slotLands (ringFill (s.setRing s.key n { r with tail := r.tail + 1 }) n r.tail.toNat image) n r.tail.toNat)) s
  | .relay n =>
    vguard (do
        groupOk s.me vs.toNat s.grp
        queueName s dst
        (if (s.relay n).length < 2 then .ok () else .error .wait))
      (vdone (s.setRelay n (s.relay n ++ [{ data := BitVec.ofNat 32768 image, count := bytes, poison := [] }]))) s

/-- qpop (R197): elements 0 to vl − 1 of vd, the rest under TA; the slot is popped, also with vl = 0. -/
def execQpop (vd : Reg) (src : Queue) (s : State) : Out :=
  let e := s.ew
  let a := VSrc.queue src
  vguard (do
      groupOk s.me vd.toNat s.grp
      vaName s a true
      vaWait s a e (List.range s.vl))
    (vdone (queuePop (vputs s s.key vd.toNat e
      (countUpdates s.me s.vlmax ((List.range s.vl).map (queueElem s src 0 e)))) src 1)) s

/-- Slots of a queue that have landed and are unclaimed (R197), and its capacity: the oldest slots are the ones that instructions of
other strands have claimed. -/
def readable (s : State) (q : Queue) : Nat × Nat :=
  let c := s.claimsElsewhere s.key q
  match q with
  | .ring n =>
    let r := s.ring s.key n
    (((upFrom c (min r.used r.slots - c)).filter (fun i => !slotOpen s r (r.head + BitVec.ofNat 32 i).toNat)).length, r.slots)
  | .relay n => ((s.relay n).length - c, 2)
/-- qwait (R197): in solo mode, where no writer of the strand is in flight, it ends early. -/
def execQwait (xd : Reg) (src : Queue) (xb : Reg) (s : State) : Out :=
  let r := readable s src
  vguard (do
      queueName s src
      (if r.1 < min (s.x xb).toNat r.2 ∧ s.trio s.key then .error .wait else .ok ()))
    (vdone (s.setX xd (BitVec.ofNat 64 r.1))) s

/-- qzf (R197): the flags of the unclaimed slots from the b-th on. -/
def execQzf (xd : Reg) (ring : BitVec 3) (xb : Reg) (s : State) : Out :=
  let r := s.ring s.key ring
  let b := (s.x xb).toNat + s.claimsElsewhere s.key (.ring ring)
  let flag (i : Nat) : Bool :=
    let n := (r.head + BitVec.ofNat 32 (b + i)).toNat
    decide (b + i < r.used) && !slotOpen s r n && slotFlag s ring n
  vguard (queueName s (.ring ring))
    (vdone (s.setX xd (forN 64 (fun i v => if flag i then v ||| (1 <<< i) else v) 0))) s

end Sys2Proof.Machine
end

