-- ==== Sys2Proof/Machine/Vcfg.lean ====
section
/-! DEFINITION. Setting VL and VTYPE, loop contexts and strip prefetch (VCFG, R198 to R204, R387 to R390). -/

namespace Sys2Proof.Machine
open Sys2Proof

/-! ## vsetl, vloop, vslip -/

/-- The effect of vsetl (R198): VTYPE, then VL as the lesser of a and VLMAX, VSTART 0. -/
def setShape (s : State) (vt : BitVec 8) (a : Dword) : State :=
  s.updMe (fun t => { (t.setVtype vt).setVl a.toNat with vstart := 0 })

/-- vsetl (R198). -/
def execVsetl (d a : Reg) (vt : BitVec 8) (s : State) : Out :=
  let t := setShape s vt (s.x a)
  .next (t.setX d (t.me.vl.zeroExtend 64)).advance
/-- vsetlx (R198): a vtype with bit 7, or with ALT at EW 32 or 64, takes ILLEGAL_INSTRUCTION. -/
def execVsetlx (d a b : Reg) (s : State) : Out :=
  let vt := low 8 (s.x b)
  let t := setShape s vt (s.x a)
  checked (if vt.getLsbD 7 || (vt.getLsbD 2 && vt.getLsbD 1) then some (illegal (wVsetlx d a b)) else none)
    (t.setX d (t.me.vl.zeroExtend 64)).advance s
/-- vloop (R200): a captured body ends with it. -/
def execVloop (a : Reg) (vt : BitVec 8) (s : State) : Out :=
  .next ((setShape s vt (s.x a)).updMe (fun t => { t with replay := none })).advance
/-- vslip (R199). -/
def execVslip (a : Reg) (s : State) : Out := .next (vdone (s.updMe (fun t => { t with vslip := low 3 (s.x a) })))

/-! ## Strip prefetch (R388, R389) -/

/-- The words of an element that a stream's fetch reads, for the strand whose declaration it is: those that the core itself has
written, else what their homes have. -/
def fetchWords (k : Nat) (ea : Dword) (n : Nat) : M (List (Nat × Word)) := do
  let s ← get
  let c := agentCtx k (s.strand k).e.asid
  let t ← translate c (winOff ea) .read ea 0
  match t with
  | .glob pa .n => do
    homeFree c pa ea 0
    let s ← get
    let ws := upFrom (pa / 4) ((n + 3) / 4)
    if ws.any (wordPoisoned s) then trapM .memPoison ea 0
    else pure (ws.map (fun w => (w, if ownWord s (coreOf k) w then (nearVal s (coreOf k) w).getD 0 else curVal s w)))
  | _ => trapM .classViolation ea 0

/-- The strip buffer holds element j of stream i of strand k (R388). -/
def stripHolds (s : State) (k i j : Nat) (bytes : Nat) : Bool :=
  let ws := s.strip.filter (fun e => e.strand == k && e.stream == i && decide (j ≤ e.last) && decide (e.first ≤ j))
  decide ((bytes + 3) / 4 ≤ ws.length)
/-- Fetch the elements from j on of a stream, n of them, but for those that the buffer holds; the first fault stops the stream and
raises nothing, and a wait has it go on later. -/
def fetchStream (k i : Nat) (b : Stream) : Nat → Nat → State → State
  | 0, _, s => s
  | n + 1, j, s =>
    let ea := b.base + BitVec.ofNat 64 (j * b.bytes)
    if stripHolds s k i j b.bytes then fetchStream k i b n (j + 1) s
    else if winCode ea ≠ 0 ∨ ea.toNat ≥ 2 ^ 52 ∨ ea.toNat % b.bytes ≠ 0 then s
    else
      match fetchWords k ea b.bytes s with
      | .ok ws s' =>
        let first (w : Nat) : Nat := ((s'.strip.find? (fun e => e.strand == k && e.stream == i && e.word == w)).map (·.first)).getD j
        fetchStream k i b n (j + 1) { s' with
          strip := s'.strip.filter (fun e => !(e.strand == k && e.stream == i && ws.any (fun p => p.1 == e.word))) ++
                   ws.map (fun p => ⟨k, i, p.1, first p.1, j, p.2⟩) }
      | .error .wait s' => (keepRequests s s').upd k (fun t => { t with decl := t.decl.map (fun d => { d with due := true }) })
      | .error (.trap _) s' => keepRequests s s'

/-- The engines fetch for the declaration of strand k (R388): elements e to min(AVL, e + DEPTH × VLMAX) − 1 of each stream,
as many as its share holds; elements below e leave the buffer. -/
def prefetch (s : State) (k : Nat) : State :=
  match (s.strand k).decl with
  | none => s
  | some d =>
    let s := { s with strip := s.strip.filter (fun e => !(e.strand == k && decide (e.last < d.pos))) }
    let s := s.upd k (fun t => { t with decl := some { d with due := false } })
    ((List.range d.streams.length).zip d.streams).foldl (fun s p =>
      let share := 32768 / d.streams.length / p.2.bytes
      let hi := min (min d.avl (d.pos + d.depth * vlmaxOf (s.strand k).vtype)) (d.pos + share)
      fetchStream k p.1 p.2 (hi - d.pos) d.pos s) s

/-- The fetches that wait go on (R388). -/
def prefetchSweep (s : State) : State :=
  (s.strands.filter (fun p => p.2.decl.any (·.due))).foldl (fun s p => prefetch s p.1) s

/-- The declaration of a strand is removed with its buffer (R387, R390). -/
def undeclare (s : State) (k : Nat) : State :=
  { s.upd k (fun t => { t with decl := none }) with strip := s.strip.filter (fun e => e.strand != k) }

/-- A declaration from its 64 bytes as a number (R387); none has the effect of vundecl. -/
def declOf (n : Nat) : Option Decl :=
  let f (off len : Nat) : Nat := n / 2 ^ (8 * off) % 2 ^ (8 * len)
  let nstr := f 8 1
  let streams := (List.range 4).map (fun i => (f (0x10 + 8 * i) 8, f (0x30 + i) 1))
  if f 0x0A 6 = 0 ∧ f 0x34 12 = 0 ∧ 1 ≤ nstr ∧ nstr ≤ 4 ∧ 1 ≤ f 9 1 ∧ f 9 1 ≤ 4 ∧
      streams.all (fun p => decide (p.2 ≤ 3) && decide (p.1 < 2 ^ 56)) then
    some { avl := f 0 8, depth := f 9 1, pos := 0
           streams := (streams.take nstr).map (fun p => { base := BitVec.ofNat 64 p.1, bytes := 2 ^ p.2 }) }
  else none

/-- vdecl (R204, R387). -/
def execVdecl (a : Reg) (s : State) : Out :=
  runInstr (do
    let s ← get
    let ws ← collectM (List.range 8) (fun i => loadN s.ctx (s.x a + BitVec.ofNat 64 (8 * i)) 8 0 0)
    modify (fun s =>
      let s := undeclare s s.key
      match declOf (packElems 64 ws) with
      | none => s
      | some d => prefetch (s.updMe (fun t => { t with decl := some d })) s.key)
    modify (·.advance)) s
/-- vundecl (R204, R387). -/
def execVundecl (s : State) : Out := .next (undeclare s s.key).advance

/-! ## Loop contexts -/

/-- A word may stand in a captured body (R203): majors 0x19 to 0x23, 0x29, 0x2A and 0x2C, or vbreak. -/
def capturable (w : Word) : Bool :=
  let m := (w.extractLsb' 26 6 : BitVec 6).toNat
  (decide (0x19 ≤ m) && decide (m ≤ 0x23)) || m == 0x29 || m == 0x2A || m == 0x2C ||
    (m == 0x18 && (w.extractLsb' 8 3 : BitVec 3) == 4)

/-- The words from an address on that the strand's instruction cache holds (R101), all of them or none. -/
def cachedWords (s : State) (k : Nat) (start : Dword) (n : Nat) : Option (List Word) :=
  (List.range n).foldr (fun i r =>
    let va := (start + BitVec.ofNat 64 (4 * i)).toNat
    match r, tlbFind s (coreOf k) (s.strand k).e.asid va with
    | some l, some t => (sfind s.icache (ckey (coreOf k) ((t.pbase + (va - t.vbase)) / 4))).map (· :: l)
    | _, _ => none) (some [])

/-- The sequencer captures a body of n words when it may (R203). -/
def capture (s : State) (start : Dword) (n : Nat) : State :=
  if s.me.replay.isSome || decide (31 < n) then s
  else
    match cachedWords s s.key start n with
    | some l => if l.all capturable then s.updMe (fun t => { t with replay := some ⟨start, l⟩ }) else s
    | none => s

/-- Lower the trip count and advance the pointers of a loop context (R201). -/
def stepLoop (s : State) (np a n : Nat) : State :=
  let s := s.setX (BitVec.ofNat 5 a) (s.x (BitVec.ofNat 5 a) - BitVec.ofNat 64 n)
  (upFrom 1 np).foldl (fun s j =>
    s.setX (BitVec.ofNat 5 (a + j)) (s.x (BitVec.ofNat 5 (a + j)) + BitVec.ofNat 64 (n * s.ew / 8))) s

/-- vlend (R201); the position of a declaration moves on (R388). -/
def execVlend (np a len : Reg) (s : State) : Out :=
  let n := min s.vl (s.x a).toNat
  let t := (stepLoop s np.toNat a.toNat n).updMe (fun t => { t with vstart := 0, stripD := false })
  let t := t.updMe (fun p => { p with loopClosed := t.x a == 0 })
  let t := t.updMe (fun p => { p with decl := p.decl.map (fun d => { d with pos := d.pos + n }) })
  let start := s.pc - 4 * (BitVec.ofNat 64 (len.toNat + 1))
  .next (if t.x a ≠ 0 then
      jumpTo (prefetch (capture (t.updMe (·.setVl (t.x a).toNat)) start (len.toNat + 1)) s.key) start (wVlend np a len)
    else (prefetch (t.updMe (fun p => { p with replay := none })) s.key).advance)

/-- vbreak (R202). -/
def execVbreak (a off : Reg) (s : State) : Out :=
  .next (if s.x a ≠ 0 then
      jumpTo (s.updMe (fun t => { t with replay := none })) (s.pc + 4 * (BitVec.ofNat 64 (off.toNat + 1))) (wVbreak a off)
    else s.advance)

end Sys2Proof.Machine
end

