-- ==== Sys2Proof/Machine/Vgat.lean ====
section
/-! DEFINITION. Gathers, scatters, the windowed and linked forms (VGAT, R287 to R289), vector atomics and vwait (VAMO, R290 to
R292). -/

namespace Sys2Proof.Machine
open Sys2Proof

/-- The latched elements of the index group, where the instruction at the PC goes on from a stop that left them (R180). -/
def State.latched (s : State) : Sparse Nat :=
  match s.me.latch with
  | some l => if l.pc = s.pc ∧ l.cm = s.me.cm then l.idx else []
  | none => []
/-- The address of element i: the base plus the unsigned EW-bit offset of element i of the index group (R287), as it was when the
instruction first read it (R180). -/
def idxAddr (s : State) (a b : Reg) (i : Nat) : Dword :=
  s.x a + BitVec.ofNat 64 ((sfind s.latched i).getD (vget s s.key b.toNat s.ew i))

/-- The checks of a gather or scatter (R112, R274). -/
def gatChecks (s : State) (word : Word) (w : Nat) (v b : Reg) : Except Stop Unit := do
  groupsOk s.me [(v.toNat, dataGroup s w), (b.toNat, s.grp)]
  legal (dataLegal s w) word

/-- The groups of vd and vb overlap: what is loaded may land on indexes that are still to be read (R180). -/
def landsOnIndex (s : State) (w v : Nat) (b : Reg) : Bool :=
  decide (v < b.toNat + s.grp) && decide (b.toNat < v + dataGroup s w)
/-- The elements of an index group that a gather still needs are latched, with cm as the stop left it. -/
def latchIndexes (idx : Sparse Nat) : M Unit :=
  modify (fun s => s.updMe (fun t => { t with latch := some ⟨t.pc, t.cm, idx⟩ }))
/-- A precise load of the undone elements (R276): get reads element i. Elements that cm names keep their values. Where what was
loaded may lie on indexes still needed, the indexes are latched at a stop (R180). -/
def preciseLoad (v w : Nat) (b : Reg) (m : Msk) (idx : List Nat) (get : Nat → M Nat) : M Unit := do
  issueM
  let s0 ← EStateM.get
  let r ← upToStop get idx
  match r.2 with
  | none => do
    modify (fun s => vputs s s.key v w (updates s0.me m s0.vlmax (fun i => sfind r.1 i)))
    modify (·.updMe (fun t => { t with latch := none }))
    donePrecise
  | some (e, st) =>
    if r.1.isEmpty && st == .wait then throw st
    else do
      modify (fun s => vputs s s.key v w (updates s0.me m (min e s0.vlmax) (fun i => sfind r.1 i)))
      modify (markDone m (r.1.map (·.1)))
      if landsOnIndex s0 w v b then
        latchIndexes (idx.map (fun i => (i, (sfind s0.latched i).getD (vget s0 s0.key b.toNat s0.ew i))))
      else pure ()
      throw st

/-- vgat (R287). -/
def execVgat (v a b : Reg) (o sb : Bool) (m : Msk) (ew : BitVec 2) (s : State) : Out :=
  let w := memBits ew
  runInstr (do
    liftE (gatChecks s (wVgat v a b o sb m ew) w v b)
    if s.idle then idlePrecise
    else do
      specLoads s.ctx ((s.undone m).map (idxAddr s a b)) (w / 8)
      preciseLoad v.toNat w b m (s.undone m) (fun i => loadN s.ctx (idxAddr s a b i) (w / 8) i (laneOf i))) s
/-- vsca (R287). -/
def execVsca (v a b : Reg) (o sb : Bool) (m : Msk) (ew : BitVec 2) (s : State) : Out :=
  let w := memBits ew
  runInstr (do
    liftE (gatChecks s (wVsca v a b o sb m ew) w v b)
    if s.idle then idlePrecise
    else do
      specStores s.ctx ((s.undone m).map (idxAddr s a b)) (w / 8)
      preciseRun m (s.undone m) (fun i => putElem (o || sb) w (vget s s.key v.toNat w i) i (idxAddr s a b i)) (fun _ => pure ())) s

/-! ## The windowed gather (R288) -/

/-- The bytes of the window from base, up to the first element that fails (R288): a failure at element 0, or an element of class
D, is a trap. -/
def readWindow (base : Dword) (w n : Nat) : M (List Nat) := do
  let s ← get
  let r ← upToStop (fun i => do
    let ea := unitAddr base w i
    let t ← route s.ctx ea (w / 8) .read i (laneOf i)
    forbidClass (· == .d) t ea i
    loadAt s.ctx t ea (w / 8) i) (List.range n)
  match r.2 with
  | none => pure (r.1.map (·.2))
  | some (_, .wait) => waitM
  | some (e, .trap t) => if e = 0 ∨ t.cause = .classViolation then throw (.trap t) else pure (r.1.map (·.2))

/-- vgatw (R288): the window holds as many bytes as the data group's elements below VLMAX. -/
def execVgatw (v a b : Reg) (o sb : Bool) (p : BitVec 3) (ew : BitVec 2) (s : State) : Out :=
  let w := memBits ew
  let m : Msk := ⟨false, p⟩
  runInstr (do
    liftE (gatChecks s (wVgatw v a b o sb p ew) w v b)
    if s.idle then modify vdone
    else do
      specLoads s.ctx ((List.range s.vlmax).map (unitAddr (s.x a) w)) (w / 8)
      let win ← readWindow (s.x a) w s.vlmax
      let hit (i : Nat) : Option Nat :=
        let off := vget s s.key b.toNat s.ew i
        if off % (w / 8) = 0 then win[off / (w / 8)]? else none
      modify (fun s' => vputs s' s'.key v.toNat w (updates s.me m s.vlmax hit))
      modify (fun s' => vdone (maskUpdates s' Msk.all p (fun i => active s.me m i && (hit i).isNone)))) s

/-! ## Linked gathers (R289) -/

/-- The place whose region a link names: the physical address of a global element, also where a cocoon holds it, else the
flat address. -/
def linkPlace (s : State) (ea : Dword) : Target → Nat
  | .glob pa _ => pa
  | .dev o => o
  | .late _ _ => 0
  | .loc f =>
    if winCode ea = 0 then
      match cocoonOfFlat s (f / 4 * 4) with
      | some (ck, i) =>
        match sfind s.cocoons ck with
        | some c => ((sfind c.tr (i / 16)).elim 0 (·.pa)) + 4 * (i % 16)
        | none => f
      | none => f
    else f

/-- A core forgets its clean copies of what an access of n bytes reads, so that the access reads at the home. -/
def forgetClean (s : State) (core n : Nat) : Target → State
  | .glob pa .n =>
    (upFrom (pa / 4) ((n + 3) / 4)).foldl (fun s w =>
      if ownWord s core w then s else dropCocoonCopy (dropDie { s with l1 := sdel s.l1 (ckey core w) } (dieOf core) w) core w) s
  | _ => s
/-- vgl (R289): the links are cleared when it issues; each performed element, read at its home, links its region until 64 are
linked. -/
def execVgl (v a b : Reg) (o sb : Bool) (m : Msk) (ew : BitVec 2) (s : State) : Out :=
  let w := memBits ew
  runInstr (do
    liftE (gatChecks s (wVgl v a b o sb m ew) w v b)
    if s.idle then idlePrecise
    else do
      specLoads s.ctx ((s.undone m).map (idxAddr s a b)) (w / 8)
      if s.waitOf.issued then pure () else modify (·.updMe (fun t => { t with links := [] }))
      preciseLoad v.toNat w b m (s.undone m) (fun i => do
        let ea := idxAddr s a b i
        let t ← route s.ctx ea (w / 8) .read i (laneOf i)
        forbidClass (· != .n) t ea i
        if (s.specTask s.key).isSome then pure ()
        else
          match t with
          | .loc f => cocoonFresh s.ctx f (w / 8) i
          | t => modify (fun s => forgetClean s s.core (w / 8) t)
        let x ← loadAt s.ctx t ea (w / 8) i
        modify (fun s =>
          let r := linkPlace s ea t / 256
          s.updMe (fun p => if p.links.contains r || decide (64 ≤ p.links.length) then p else { p with links := nsInsert p.links r }))
        pure x)) s

/-- vscc (R289): every active element is checked; then those whose regions hold an unbroken link perform at their homes, and the
links of every region named are cleared. An element that a stop found performed is not performed again (R276). -/
def execVscc (v a b : Reg) (o sb : Bool) (p : BitVec 3) (ew : BitVec 2) (s : State) : Out :=
  let w := memBits ew
  let m : Msk := ⟨false, p⟩
  runInstr (do
    liftE (gatChecks s (wVscc v a b o sb p ew) w v b)
    if s.idle then idlePrecise
    else do
      specStores s.ctx ((s.undone m).map (idxAddr s a b)) (w / 8)
      let r ← upToStop (fun i => do
        let ea := idxAddr s a b i
        let t ← route s.ctx ea (w / 8) .write i (laneOf i)
        forbidClass (· != .n) t ea i
        homeReady s.ctx t (w / 8) ea i
        let s' ← get
        pure (linkPlace s' ea t / 256)) (s.undone m)
      match r.2 with
      | some (_, st) => stopPrecise m [] st
      | none => do
        let linked := r.1.filter (fun q => s.me.links.contains q.2)
        let done ← upToStop (fun i => storeNow s.ctx (idxAddr s a b i) (w / 8) (vget s s.key v.toNat w i) i (laneOf i)) (linked.map (·.1))
        match done.2 with
        | some (_, st) => stopPrecise m (done.1.map (·.1)) st
        | none => do
          modify (fun s' =>
            let s' := s'.updMe (fun t => { t with links := s.me.links.filter (fun x => !(r.1.any (fun q => q.2 == x))) })
            maskUpdates s' Msk.all p (fun i => s.me.cm.getLsbD i || linked.any (fun q => q.1 == i)))
          donePrecise) s

/-! ## Vector atomics (R290, R291) -/

/-- Check every active element of an atomic before any is applied (R291): its accesses, its class, and that no other agent
holds its region. v is the group that receives the old values, if one does. -/
def vamoCheck (s : State) (v : Option Reg) (a b : Reg) (m : Msk) (n : Nat) : M Unit := do
  let r ← upToStop (fun i => do
    let ea := idxAddr s a b i
    let _ ← route s.ctx ea n .read i (laneOf i)
    let t ← route s.ctx ea n .write i (laneOf i)
    forbidClass (· == .d) t ea i
    match t with
    | .glob pa _ => homeFree s.ctx pa ea i
    | t => homeReady s.ctx t n ea i) (s.undone m)
  match r.2 with
  | none => pure ()
  | some (_, .wait) => waitM
  | some (_, st) => do
    -- what MA says of the masked-off elements below the new VSTART is done now
    match v with
    | some v => modify (fun s' => vputs s' s'.key v.toNat (8 * n) (updates s.me m ((s.undone m).headD s.vlmax) (fun _ => none)))
    | none => pure ()
    stopPrecise m [] st

/-- A vector atomic (R291): f makes the new value and flags from the width, the memory value and the element. The elements are
applied in order; with ret the old values go to vs. -/
def vamo (word : Word) (ok : Bool) (f : Nat → Nat → Nat → FRes) (v a b : Reg) (ret : Bool) (m : Msk) (s : State) : Out :=
  let w := s.ew
  runInstr (do
    liftE (groupsOk s.me [(v.toNat, s.grp), (b.toNat, s.grp)])
    liftE (legal (decide (32 ≤ w) && ok) word)
    if s.idle then idlePrecise
    else do
      specStall s.ctx
      issueM
      vamoCheck s (if ret then some v else none) a b m (w / 8)
      let r ← upToStop (fun i => do
        let x := vget s s.key v.toNat w i
        let old ← amoN s.ctx (idxAddr s a b i) (w / 8) i (laneOf i) (fun y => some (f w y x).1)
        modify (·.updMe (·.accrue (f w old x).2))
        pure old) (s.undone m)
      let upto := match r.2 with
        | none => s.vlmax
        | some (e, _) => min e s.vlmax
      if ret then modify (fun s' => vputs s' s'.key v.toNat w (updates s.me m upto (fun i => sfind r.1 i))) else pure ()
      match r.2 with
      | none => donePrecise
      | some (_, st) => stopPrecise m (r.1.map (·.1)) st) s

/-- vamoadd (R290). -/
def execVamoadd (v a b : Reg) (o ret : Bool) (m : Msk) (s : State) : Out :=
  vamo (wVamoadd v a b o ret m) true (fun w y x => ((y + x) % 2 ^ w, 0)) v a b ret m s
/-- vamoand (R290). -/
def execVamoand (v a b : Reg) (o ret : Bool) (m : Msk) (s : State) : Out :=
  vamo (wVamoand v a b o ret m) true (fun _ y x => (y &&& x, 0)) v a b ret m s
/-- vamoor (R290). -/
def execVamoor (v a b : Reg) (o ret : Bool) (m : Msk) (s : State) : Out :=
  vamo (wVamoor v a b o ret m) true (fun _ y x => (y ||| x, 0)) v a b ret m s
/-- vamoxor (R290). -/
def execVamoxor (v a b : Reg) (o ret : Bool) (m : Msk) (s : State) : Out :=
  vamo (wVamoxor v a b o ret m) true (fun _ y x => (y ^^^ x, 0)) v a b ret m s
/-- vamomin (R290). -/
def execVamomin (v a b : Reg) (o ret : Bool) (m : Msk) (s : State) : Out :=
  vamo (wVamomin v a b o ret m) true (fun w y x => (if sx w y < sx w x then y else x, 0)) v a b ret m s
/-- vamomax (R290). -/
def execVamomax (v a b : Reg) (o ret : Bool) (m : Msk) (s : State) : Out :=
  vamo (wVamomax v a b o ret m) true (fun w y x => (if sx w y < sx w x then x else y, 0)) v a b ret m s
/-- vamominn (R290). -/
def execVamominn (v a b : Reg) (o ret : Bool) (m : Msk) (s : State) : Out :=
  vamo (wVamominn v a b o ret m) true (fun _ y x => (min y x, 0)) v a b ret m s
/-- vamomaxn (R290). -/
def execVamomaxn (v a b : Reg) (o ret : Bool) (m : Msk) (s : State) : Out :=
  vamo (wVamomaxn v a b o ret m) true (fun _ y x => (max y x, 0)) v a b ret m s
/-- vamoswap (R290). -/
def execVamoswap (v a b : Reg) (o ret : Bool) (m : Msk) (s : State) : Out :=
  vamo (wVamoswap v a b o ret m) true (fun _ _ x => (x, 0)) v a b ret m s
/-- vamofadd (R290): rounded under FRM once for each element. -/
def execVamofadd (v a b : Reg) (o ret : Bool) (m : Msk) (s : State) : Out :=
  vamo (wVamofadd v a b o ret m) s.frmOk (fun w y x =>
    let f := if w = 32 then fmt32 else fmt64
    fpAddV f s.rm (unpack f y) (unpack f x)) v a b ret m s

/-! ## vwait (R292) -/

/-- The entries of a core's watch table that strand k can arm: its own reserved ones and the free shared ones. -/
def watchRoom (s : State) (k : Nat) : Nat :=
  let shared := (upFrom (3 * coreOf k) 3).foldl (fun n j => if j = k then n else n + ((s.strand j).watch.length - 16)) 0
  16 + (208 - shared)

/-- Arm an entry for element i (R292): its access is checked, and its class is N or I in a window other than 0xF0 and 0xFE. -/
def armWatch (s : State) (v a b : Reg) (i : Nat) : M Watch := do
  let w := s.ew
  let ea := idxAddr s a b i
  let t ← route s.ctx ea (w / 8) .read i 0
  if t.cls = .d ∨ winCode ea = 0xF0 then trapM .classViolation ea i
  else do
    t.lateM ea i
    pure { elem := i, place := t.place, target := vget s s.key v.toNat w i, observed := 0
           outside := match t with
             | .glob pa _ => isExternal (pa / 4)
             | _ => false }
/-- The word that an armed entry watches, as its home holds it. -/
def watchRead (s0 : State) (a b : Reg) (x : Watch) : M Nat := do
  let ea := idxAddr s0 a b x.elem
  let n := s0.ew / 8
  let t ← route s0.ctx ea n .read x.elem 0
  match t with
  | .glob pa _ => do
    homeFree s0.ctx pa ea x.elem
    modify (fun s => (upFrom (pa / 4) (n / 4)).foldl (fun s w => drainWord s s.core w) s)
    let s ← get
    match homeRead s pa n with
    | some y => pure y
    | none => trapM .memPoison ea x.elem
  | .loc f => do
    cocoonFresh s0.ctx f n x.elem
    localRead s0.ctx f n ea x.elem
  | t => do
    t.lateM ea x.elem
    trapM .classViolation ea x.elem

/-- vwait (R292): entries are armed once, as many as are free at that moment, and stay while the strand waits; it ends when every
armed word has reached its element of vs. -/
def execVwait (v a b : Reg) (o ret : Bool) (m : Msk) (s : State) : Out :=
  let w := s.ew
  runInstr (do
    liftE (groupsOk s.me [(v.toNat, s.grp), (b.toNat, s.grp)])
    liftE (legal (decide (32 ≤ w)) (wVwait v a b o ret m))
    if s.idle then idlePrecise
    else do
      specLoads s.ctx ((s.undone m).map (idxAddr s a b)) (w / 8)
      let again := s.waitOf.issued && !s.me.watch.isEmpty
      let armed ← (if again then pure (s.me.watch.map (fun x => (x.elem, x)), none)
        else upToStop (armWatch s v a b) ((s.undone m).take (watchRoom s s.key)))
      match armed.2 with
      | some (_, st) => do
        modify (·.updMe (fun t => { t with watch := [] }))
        stopPrecise m [] st
      | none => do
        modify (·.updMe (fun t => { t with watch := armed.1.map (·.2) }))
        issueM
        let got ← upToStop (fun i => watchRead s a b ((sfind armed.1 i).getD ⟨i, 0, 0, 0, false⟩)) (armed.1.map (·.1))
        match got.2 with
        | some (_, .wait) => waitM
        | some (_, st) => do
          modify (·.updMe (fun t => { t with watch := [] }))
          stopPrecise m [] st
        | none =>
          if got.1.all (fun p => decide (((sfind armed.1 p.1).map (·.target)).getD 0 ≤ p.2)) then do
            modify (fun s' => acquire s' s'.core (if armed.1.any (·.2.outside) then .system else .device))
            let p := if armed.1.length = (s.undone m).length then s.vl else (armed.1.getLast?.map (·.1 + 1)).getD s.vl
            if ret then modify (fun s' => vputs s' s'.key v.toNat w (got.1.filter (fun q => decide (q.1 < s.vlmax)))) else pure ()
            modify (·.updMe (fun t => { t.setVl p with watch := [] }))
            donePrecise
          else waitM) s

end Sys2Proof.Machine
end

