-- ==== Sys2Proof/Machine/Vperm.lean ====
section
/-! DEFINITION. Permutations and moves (VPERM, R207, R223, R224). -/

namespace Sys2Proof.Machine
open Sys2Proof

/-- The indexes that a permutation reads of its va, rising: those that src names for the active elements it processes
(R193, R206). -/
def readSet (s : State) (m : Msk) (src : Nat → Option Nat) : List Nat := ((s.takers m).filterMap src).foldl nsInsert []

/-- A permutation (R223): active element i receives element (src i) of va; none leaves the element. -/
def vpermute (word : Word) (groups : List (Nat × Nat)) (src : Nat → Option Nat) (vd : Reg) (va : VSrc) (m : Msk) (s : State) : Out :=
  let e := s.ew
  let g := s.grp
  vguard (vchecks s ((vd.toNat, g) :: (vaGroups va g ++ groups)) va e (readSet s m src) true word)
    (if s.idle then vdone s
     else vdone (vaPop (vputs s s.key vd.toNat e
       (updates s.me m s.vlmax (fun i => (src i).map (vaSrc s va e s.vlmax)))) va)) s

/-- vslup (R223): elements below the offset stay. -/
def execVslup (vd : Reg) (va : VSrc) (xb : Reg) (m : Msk) (s : State) : Out :=
  let off := (s.x xb).toNat
  vpermute (wVslup vd va xb m) [] (fun i => if off ≤ i then some (i - off) else none) vd va m s
/-- vsldn (R223). -/
def execVsldn (vd : Reg) (va : VSrc) (xb : Reg) (m : Msk) (s : State) : Out :=
  vpermute (wVsldn vd va xb m) [] (fun i => some (i + (s.x xb).toNat)) vd va m s
/-- vrot (R223). -/
def execVrot (vd : Reg) (va : VSrc) (xb : Reg) (m : Msk) (s : State) : Out :=
  vpermute (wVrot vd va xb m) [] (fun i => some ((i + (s.x xb).toNat) % s.vl)) vd va m s
/-- vperm (R223): the indexes are the elements of vb. -/
def execVperm (vd : Reg) (va : VSrc) (vb : Reg) (m : Msk) (s : State) : Out :=
  vpermute (wVperm vd va vb m) [(vb.toNat, s.grp)] (fun i => some (vget s s.key vb.toNat s.ew i)) vd va m s
/-- vbcast (R223). -/
def execVbcast (vd : Reg) (va : VSrc) (xb : Reg) (m : Msk) (s : State) : Out :=
  vpermute (wVbcast vd va xb m) [] (fun _ => some (s.x xb).toNat) vd va m s
/-- vunzip (R223). -/
def execVunzip (vd : Reg) (va : VSrc) (xb : Reg) (m : Msk) (s : State) : Out :=
  vpermute (wVunzip vd va xb m) [] (fun i => some (2 * i + (s.x xb).toNat % 2)) vd va m s
/-- vrev (R223). -/
def execVrev (vd : Reg) (va : VSrc) (m : Msk) (s : State) : Out :=
  vpermute (wVrev vd va m) [] (fun i => some (s.vl - 1 - i)) vd va m s
/-- vmv (R223). -/
def execVmv (vd : Reg) (va : VSrc) (m : Msk) (s : State) : Out :=
  vpermute (wVmv vd va m) [] (fun i => some i) vd va m s

/-- vzip (R223): even elements from va, odd ones from vb. -/
def execVzip (vd : Reg) (va : VSrc) (vb : Reg) (m : Msk) (s : State) : Out :=
  let e := s.ew
  let g := s.grp
  vguard (vchecks s ((vd.toNat, g) :: (vaGroups va g ++ [(vb.toNat, g)])) va e
      (readSet s m (fun i => if i % 2 = 0 then some (i / 2) else none)) true (wVzip vd va vb m))
    (if s.idle then vdone s
     else vdone (vaPop (vputs s s.key vd.toNat e (updates s.me m s.vlmax (fun i =>
       some (if i % 2 = 0 then vaSrc s va e s.vlmax (i / 2) else vaSrc s (.vreg vb) e s.vlmax (i / 2))))) va)) s

/-- vmerge (R224): the mask selects b or a and does not govern writing. -/
def execVmerge (vd : Reg) (va : VSrc) (vb : VbSrc) (m : Msk) (s : State) : Out :=
  let e := s.ew
  let g := s.grp
  vguard (vchecks s ((vd.toNat, g) :: (vaGroups va g ++ vbGroups vb g)) va e (s.body.filter (fun i => !active s.me m i)) true (wVmerge vd va vb m))
    (vmapEffect vd.toNat e va Msk.all (fun i => (if active s.me m i then vbElem s vb e i else vaElem s va e i, 0)) s) s

/-- vmvxs (R224): element 0, sign-extended, whatever vl and VSTART hold; a queue's slot is popped. -/
def execVmvxs (xd : Reg) (va : VSrc) (s : State) : Out :=
  let e := s.ew
  vguard (do
      groupsOk s.me (vaGroups va s.grp)
      vaName s va true
      vaWait s va e [0])
    (vdone ((vaPop s va).setX xd (BitVec.ofInt 64 (sx e (vaElem s va e 0))))) s
/-- vmvsx (R224): the low bits of xb into element 0, and nothing else. -/
def execVmvsx (vd xb : Reg) (m : Msk) (s : State) : Out :=
  vguard (groupsOk s.me [(vd.toNat, s.grp)])
    (vdone (if s.vl ≠ 0 ∧ s.vstart = 0 ∧ active s.me m 0 then vput s s.key vd.toNat s.ew 0 (s.x xb).toNat else s)) s

end Sys2Proof.Machine
end

