-- ==== Sys2Proof/Machine/Vmsk.lean ====
section
/-! DEFINITION. Masks: compares and mask logic (VMSK, R225, R226). -/

namespace Sys2Proof.Machine
open Sys2Proof

/-- A compare row (R225): bit i of md receives f of the elements of a and b, for active i. -/
def vcmp (word : Word) (fp : Bool) (f : Nat → Fmt → Nat → Nat → Bool × BitVec 6) (md : BitVec 3) (va : VSrc) (vb : VbSrc) (m : Msk)
    (s : State) : Out :=
  let e := s.ew
  let g := s.grp
  let r := fun i => f e (elemFmt s.me.vtype) (vaElem s va e i) (vbElem s vb e i)
  vguard (vchecks s (vaGroups va g ++ vbGroups vb g) va e (s.takers m) (!fp || e != 8) word)
    (if s.idle then vdone s
     else vdone ((vaPop (maskUpdates s m md (fun i => (r i).1)) va).updMe (·.accrue (flagsOver s m (fun i => (r i).2))))) s

/-- vmseq (R225): a = b. -/
def execVmseq (md : BitVec 3) (va : VSrc) (vb : VbSrc) (m : Msk) (s : State) : Out :=
  vcmp (wVmseq md va vb m) false (fun _ _ a b => (a == b, 0)) md va vb m s
/-- vmsne (R225): a ≠ b. -/
def execVmsne (md : BitVec 3) (va : VSrc) (vb : VbSrc) (m : Msk) (s : State) : Out :=
  vcmp (wVmsne md va vb m) false (fun _ _ a b => (a != b, 0)) md va vb m s
/-- vmslt (R225): a < b, signed. -/
def execVmslt (md : BitVec 3) (va : VSrc) (vb : VbSrc) (m : Msk) (s : State) : Out :=
  vcmp (wVmslt md va vb m) false (fun e _ a b => (decide (sx e a < sx e b), 0)) md va vb m s
/-- vmsltn (R225): a < b, unsigned. -/
def execVmsltn (md : BitVec 3) (va : VSrc) (vb : VbSrc) (m : Msk) (s : State) : Out :=
  vcmp (wVmsltn md va vb m) false (fun _ _ a b => (decide (a < b), 0)) md va vb m s
/-- vmsle (R225): a ≤ b, signed. -/
def execVmsle (md : BitVec 3) (va : VSrc) (vb : VbSrc) (m : Msk) (s : State) : Out :=
  vcmp (wVmsle md va vb m) false (fun e _ a b => (decide (sx e a ≤ sx e b), 0)) md va vb m s
/-- vmslen (R225): a ≤ b, unsigned. -/
def execVmslen (md : BitVec 3) (va : VSrc) (vb : VbSrc) (m : Msk) (s : State) : Out :=
  vcmp (wVmslen md va vb m) false (fun _ _ a b => (decide (a ≤ b), 0)) md va vb m s
/-- vmfeq (R225): a = b; NV for a signalling NaN. -/
def execVmfeq (md : BitVec 3) (va : VSrc) (vb : VbSrc) (m : Msk) (s : State) : Out :=
  vcmp (wVmfeq md va vb m) true (fun _ fm a b => fpCmpEq fm a b) md va vb m s
/-- vmflt (R225): a < b; NV for any NaN. -/
def execVmflt (md : BitVec 3) (va : VSrc) (vb : VbSrc) (m : Msk) (s : State) : Out :=
  vcmp (wVmflt md va vb m) true (fun _ fm a b => fpCmpLt fm a b) md va vb m s
/-- vmfle (R225): a ≤ b; NV for any NaN. -/
def execVmfle (md : BitVec 3) (va : VSrc) (vb : VbSrc) (m : Msk) (s : State) : Out :=
  vcmp (wVmfle md va vb m) true (fun _ fm a b => fpCmpLe fm a b) md va vb m s
/-- vmfnan (R225): a is a NaN; NV for a signalling one. -/
def execVmfnan (md : BitVec 3) (va : Reg) (m : Msk) (s : State) : Out :=
  vcmp (wVmfnan md va m) true (fun _ fm a _ => ((unpack fm a).isNan, flIf (unpack fm a).isSig flNv)) md (.vreg va) (.xreg 0) m s

/-- A mask logic row (R226): bits VSTART to vl − 1 receive f of the bits of ma and mb; the tail follows TA. -/
def mlogic (f : Bool → Bool → Bool) (md ma mb : BitVec 3) (s : State) : Out :=
  .next (if s.idle then vdone s
    else vdone (maskUpdates s Msk.all md (fun i => f ((s.me.mask ma).getLsbD i) ((s.me.mask mb).getLsbD i))))

/-- vmand (R226): a AND b. -/
def execVmand (md ma mb : BitVec 3) (s : State) : Out := mlogic (fun a b => a && b) md ma mb s
/-- vmor (R226): a OR b. -/
def execVmor (md ma mb : BitVec 3) (s : State) : Out := mlogic (fun a b => a || b) md ma mb s
/-- vmxor (R226): a XOR b. -/
def execVmxor (md ma mb : BitVec 3) (s : State) : Out := mlogic (fun a b => a != b) md ma mb s
/-- vmandn (R226): a AND NOT b. -/
def execVmandn (md ma mb : BitVec 3) (s : State) : Out := mlogic (fun a b => a && !b) md ma mb s
/-- vmnot (R226). -/
def execVmnot (md ma : BitVec 3) (s : State) : Out := mlogic (fun a _ => !a) md ma ma s
/-- vmmv (R226). -/
def execVmmv (md ma : BitVec 3) (s : State) : Out := mlogic (fun a _ => a) md ma ma s
/-- vmmvc (R226): all bits of cm, whatever vl and VSTART hold; cm stays. -/
def execVmmvc (md : BitVec 3) (s : State) : Out := .next (vdone (s.updMe (fun t => t.setMask md t.cm)))
/-- vmfromx (R226): bits 64j to 64j + 63, with j = b mod 64. -/
def execVmfromx (md : BitVec 3) (xa xb : Reg) (s : State) : Out :=
  .next (vdone (s.updMe (fun t => t.setMask md (putBits (t.mask md) (64 * ((s.x xb).toNat % 64)) 64 (s.x xa).toNat))))
/-- vmtox (R226). -/
def execVmtox (xd : Reg) (ma : BitVec 3) (xb : Reg) (s : State) : Out :=
  .next (vdone (s.setX xd (BitVec.ofNat 64 (getBits (s.me.mask ma) (64 * ((s.x xb).toNat % 64)) 64))))

end Sys2Proof.Machine
end

