-- ==== Sys2Proof/Machine/Vred.lean ====
section
/-! DEFINITION. Reductions (VRED 0 to 11, R173 to R175, R228). -/

namespace Sys2Proof.Machine
open Sys2Proof

/-! ## Sums in their orders -/

/-- One level of the tree of R174. -/
def treeLevel (f : Fmt) (rm : RMode) : List (Option Nat) → List (Option Nat) × BitVec 6
  | [] => ([], 0)
  | [a] => ([a], 0)
  | a :: b :: t =>
    let r := treeLevel f rm t
    match a, b with
    | some x, some y =>
      let v := fpAddV f rm (unpack f x) (unpack f y)
      (some v.1 :: r.1, v.2 ||| r.2)
    | some x, none => (some x :: r.1, r.2)
    | none, some y => (some y :: r.1, r.2)
    | none, none => (none :: r.1, r.2)
/-- The tree value T over positions (R174), within n levels. -/
def treeValue (f : Fmt) (rm : RMode) : Nat → List (Option Nat) → Option Nat × BitVec 6
  | 0, l => ((l.headD none), 0)
  | n + 1, l =>
    if l.length ≤ 1 then (l.headD none, 0)
    else
      let r := treeLevel f rm l
      let v := treeValue f rm n r.1
      (v.1, r.2 ||| v.2)
/-- The tree sum with an initial value (R174). Where no element takes part the result is init bit for bit, a NaN among them, without NV
(R174, R228 against R157, R175; DESIGN CHOICE, assumption 68). -/
def treeSum (f : Fmt) (rm : RMode) (init : Nat) (l : List (Option Nat)) : FRes :=
  let r := treeValue f rm 13 l
  match r.1 with
  | none => (init, r.2)
  | some x =>
    let v := fpAddV f rm (unpack f init) (unpack f x)
    (v.1, r.2 ||| v.2)
/-- The sequential sum (R173); init alone stays as it is (assumption 68). -/
def seqSum (f : Fmt) (rm : RMode) (init : Nat) (l : List Nat) : FRes :=
  l.foldl (fun acc x =>
    let v := fpAddV f rm (unpack f acc.1) (unpack f x)
    (v.1, acc.2 ||| v.2)) (init, 0)

/-! ## Reductions (R228) -/

/-- A reduction: red of the element width, init and, for each position 0 to vl − 1, the element that takes part there. -/
def vreduce (word : Word) (ok : Bool) (red : Nat → Nat → List (Option Nat) → FRes) (vd : Reg) (va : VSrc) (vb : VbSrc) (m : Msk)
    (s : State) : Out :=
  let e := s.ew
  let g := s.grp
  vguard (vchecks s ((vd.toNat, g) :: (vaGroups va g ++ vbGroups vb g)) va e (s.takers m) ok word)
    (if s.idle then vdone s
     else
      let part := (List.range s.vl).map (fun i => if s.vstart ≤ i ∧ active s.me m i then some (vaElem s va e i) else none)
      let r := red e (vbElem s vb e 0) part
      let ups := (0, r.1) :: (if vtTa s.me.vtype then (upFrom 1 (s.vlmax - 1)).map (fun i => (i, 0)) else [])
      vdone ((vaPop (vputs s s.key vd.toNat e ups) va).updMe (·.accrue r.2))) s

/-- An integer reduction: a fold without flags. -/
def foldRed (f : Nat → Nat → Nat → Nat) (e init : Nat) (l : List (Option Nat)) : FRes :=
  (l.foldl (fun acc x => x.elim acc (f e acc)) init, 0)
/-- A floating extremum (R228): a signalling NaN sets NV, init among them; init alone stays bit for bit (assumption 68). -/
def extremeRed (fm : Fmt) (greater : Bool) (init : Nat) (l : List (Option Nat)) : FRes :=
  l.foldl (fun acc x => x.elim acc (fun x =>
    let v := fpMinMax fm greater acc.1 x
    (v.1, acc.2 ||| v.2))) (init, flIf (unpack fm init).isSig flNv)

/-- vredsum (R228): the sum modulo 2^EW. -/
def execVredsum (vd : Reg) (va : VSrc) (vb : VbSrc) (m : Msk) (s : State) : Out :=
  vreduce (wVredsum vd va vb m) true (foldRed (fun e a b => (a + b) % 2 ^ e)) vd va vb m s
/-- vredmax (R228): the signed maximum. -/
def execVredmax (vd : Reg) (va : VSrc) (vb : VbSrc) (m : Msk) (s : State) : Out :=
  vreduce (wVredmax vd va vb m) true (foldRed (fun e a b => if sx e a < sx e b then b else a)) vd va vb m s
/-- vredmin (R228): the signed minimum. -/
def execVredmin (vd : Reg) (va : VSrc) (vb : VbSrc) (m : Msk) (s : State) : Out :=
  vreduce (wVredmin vd va vb m) true (foldRed (fun e a b => if sx e b < sx e a then b else a)) vd va vb m s
/-- vredmaxn (R228): the unsigned maximum. -/
def execVredmaxn (vd : Reg) (va : VSrc) (vb : VbSrc) (m : Msk) (s : State) : Out :=
  vreduce (wVredmaxn vd va vb m) true (foldRed (fun _ a b => max a b)) vd va vb m s
/-- vredminn (R228): the unsigned minimum. -/
def execVredminn (vd : Reg) (va : VSrc) (vb : VbSrc) (m : Msk) (s : State) : Out :=
  vreduce (wVredminn vd va vb m) true (foldRed (fun _ a b => min a b)) vd va vb m s
/-- vredand (R228): AND. -/
def execVredand (vd : Reg) (va : VSrc) (vb : VbSrc) (m : Msk) (s : State) : Out :=
  vreduce (wVredand vd va vb m) true (foldRed (fun _ a b => a &&& b)) vd va vb m s
/-- vredor (R228): OR. -/
def execVredor (vd : Reg) (va : VSrc) (vb : VbSrc) (m : Msk) (s : State) : Out :=
  vreduce (wVredor vd va vb m) true (foldRed (fun _ a b => a ||| b)) vd va vb m s
/-- vredxor (R228): XOR. -/
def execVredxor (vd : Reg) (va : VSrc) (vb : VbSrc) (m : Msk) (s : State) : Out :=
  vreduce (wVredxor vd va vb m) true (foldRed (fun _ a b => a ^^^ b)) vd va vb m s
/-- vfredo (R228): the sequential sum. -/
def execVfredo (vd : Reg) (va : VSrc) (vb : VbSrc) (m : Msk) (s : State) : Out :=
  vreduce (wVfredo vd va vb m) (s.ew != 8 && s.frmOk) (fun _ init l => seqSum (elemFmt s.me.vtype) s.rm init (l.filterMap id)) vd va vb m s
/-- vfredt (R228): the tree sum. -/
def execVfredt (vd : Reg) (va : VSrc) (vb : VbSrc) (m : Msk) (s : State) : Out :=
  vreduce (wVfredt vd va vb m) (s.ew != 8 && s.frmOk) (fun _ init l => treeSum (elemFmt s.me.vtype) s.rm init l) vd va vb m s
/-- vfredmax (R228): the greatest. -/
def execVfredmax (vd : Reg) (va : VSrc) (vb : VbSrc) (m : Msk) (s : State) : Out :=
  vreduce (wVfredmax vd va vb m) (s.ew != 8) (fun _ init l => extremeRed (elemFmt s.me.vtype) true init l) vd va vb m s
/-- vfredmin (R228): the least. -/
def execVfredmin (vd : Reg) (va : VSrc) (vb : VbSrc) (m : Msk) (s : State) : Out :=
  vreduce (wVfredmin vd va vb m) (s.ew != 8) (fun _ init l => extremeRed (elemFmt s.me.vtype) false init l) vd va vb m s

end Sys2Proof.Machine
end

