-- ==== Sys2Proof/Machine/Virr.lean ====
section
/-! DEFINITION. Irregular work: compaction, conflicts, scans, counting, block lists (VIRR, R230 to R242) and selection (VRED 12
and 13, R243 to R246). -/

namespace Sys2Proof.Machine
open Sys2Proof

/-- The indexes of active elements below i. -/
def rank (s : State) (m : Msk) (i : Nat) : Nat := ((s.takers m).filter (· < i)).length

/-- The state with n elements written from 0 up, the rest following TA, and VL set to their count (R232). -/
def writeCounted (s : State) (vd w : Nat) (l : List Nat) : State :=
  (vputs s s.key vd w (countUpdates s.me s.vlmax l)).updMe (·.setVl l.length)

/-- vcompress (R233). -/
def execVcompress (vd : Reg) (va : VSrc) (m : Msk) (s : State) : Out :=
  let e := s.ew
  vguard (vchecks s ((vd.toNat, s.grp) :: vaGroups va s.grp) va e (s.takers m) true (wVcompress vd va m))
    (if s.idle then vdone s
     else vdone (vaPop (writeCounted s vd.toNat e ((s.takers m).map (vaElem s va e))) va)) s
/-- vexpand (R235). -/
def execVexpand (vd : Reg) (va : VSrc) (m : Msk) (s : State) : Out :=
  let e := s.ew
  vguard (vchecks s ((vd.toNat, s.grp) :: vaGroups va s.grp) va e (List.range (s.takers m).length) true (wVexpand vd va m))
    (if s.idle then vdone s
     else vdone (vaPop (vputs s s.key vd.toNat e
       (updates s.me m s.vlmax (fun i => some (vaSrc s va e s.vlmax (rank s m i))))) va)) s
/-- vpopx (R234). -/
def execVpopx (vd : Reg) (m : Msk) (s : State) : Out :=
  vguard (groupsOk s.me [(vd.toNat, s.grp)])
    (if s.idle then vdone s else vdone (writeCounted s vd.toNat s.ew ((s.takers m).map (· % 2 ^ s.ew)))) s

/-- vconf (R236): every bit from VSTART to vl − 1 is written, whatever MA holds. -/
def execVconf (md : BitVec 3) (va : VSrc) (m : Msk) (s : State) : Out :=
  let e := s.ew
  vguard (vchecks s (vaGroups va s.grp) va e (s.takers m) true (wVconf md va m))
    (if s.idle then vdone s
     else vdone (vaPop (maskUpdates s Msk.all md (fun i =>
       active s.me m i && ((s.takers m).filter (· < i)).any (fun j => vaElem s va e j == vaElem s va e i))) va)) s

/-- A segmented scan over elements in order (R238): acc is the running result, if a segment has one. -/
def scanFrom (head : Nat → Bool) (act : Nat → Bool) (first : Nat → FRes) (op : Nat → Nat → FRes) (x : Nat → Nat) :
    List Nat → Option Nat → List (Nat × Nat) × BitVec 6
  | [], _ => ([], 0)
  | i :: t, acc =>
    let acc := if head i then none else acc
    if act i then
      let v := match acc with
        | none => first (x i)
        | some a => op a (x i)
      let r := scanFrom head act first op x t (some v.1)
      ((i, v.1) :: r.1, v.2 ||| r.2)
    else scanFrom head act first op x t acc

/-- A scan instruction (R238). -/
def vscan (word : Word) (ok : Bool) (first : Nat → FRes) (op : Nat → Nat → FRes) (vd : Reg) (va : VSrc) (h : Head) (m : Msk)
    (s : State) : Out :=
  let e := s.ew
  let head (i : Nat) : Bool :=
    match h with
    | .none => false
    | .mask k => (s.me.mask k).getLsbD i
  vguard (vchecks s ((vd.toNat, s.grp) :: vaGroups va s.grp) va e (s.takers m) ok word)
    (if s.idle then vdone s
     else
      let r := scanFrom head (active s.me m) first op (vaElem s va e) s.body none
      vdone ((vaPop (vputs s s.key vd.toNat e (updates s.me m s.vlmax (sfind r.1))) va).updMe (·.accrue r.2))) s
/-- vsscan (R238). -/
def execVsscan (vd : Reg) (va : VSrc) (h : Head) (m : Msk) (s : State) : Out :=
  vscan (wVsscan vd va h m) true (fun x => (x, 0)) (fun a x => ((a + x) % 2 ^ s.ew, 0)) vd va h m s
/-- vsscanmax (R238). -/
def execVsscanmax (vd : Reg) (va : VSrc) (h : Head) (m : Msk) (s : State) : Out :=
  vscan (wVsscanmax vd va h m) true (fun x => (x, 0)) (fun a x => (if sx s.ew a < sx s.ew x then x else a, 0)) vd va h m s
/-- vfsscan (R238). -/
def execVfsscan (vd : Reg) (va : VSrc) (h : Head) (m : Msk) (s : State) : Out :=
  let f := elemFmt s.me.vtype
  vscan (wVfsscan vd va h m) (s.ew != 8 && s.frmOk)
    (fun x => if (unpack f x).isNan then nanRes f (unpack f x).isSig else (x, 0))
    (fun a x => fpAddV f s.rm (unpack f a) (unpack f x)) vd va h m s

/-- vfirst (R239). -/
def execVfirst (d : Reg) (ma : BitVec 3) (m : Msk) (s : State) : Out :=
  .next (vdone (s.setX d (match (s.takers m).find? (fun i => (s.me.mask ma).getLsbD i) with
    | some i => BitVec.ofNat 64 i
    | none => BitVec.allOnes 64)))
/-- vcpop (R239). -/
def execVcpop (d : Reg) (ma : BitVec 3) (m : Msk) (s : State) : Out :=
  .next (vdone (s.setX d (BitVec.ofNat 64 ((s.takers m).countP (fun i => (s.me.mask ma).getLsbD i)))))
/-- viota (R239). -/
def execViota (d : Reg) (ma : BitVec 3) (m : Msk) (s : State) : Out :=
  vguard (groupsOk s.me [(d.toNat, s.grp)])
    (if s.idle then vdone s
     else vdone (vputs s s.key d.toNat s.ew (updates s.me m s.vlmax (fun i =>
       some (((s.takers m).filter (· < i)).countP (fun j => (s.me.mask ma).getLsbD j) % 2 ^ s.ew))))) s

/-! ## Block lists (R240 to R242) -/

/-- The fields of a mask parameter block, from its 64 bytes as a number (R240). -/
structure BlkParam where
  qblk : Int
  width : Nat
  start : Nat
  nanch : Nat
  causal : Bool
  anch : List Nat
  sound : Bool
  deriving DecidableEq, Repr

/-- A mask parameter block read from its bytes; sound when its reserved fields are zero and NANCH is at most 16 (R242). -/
def blkParam (n : Nat) : BlkParam :=
  let f (off len : Nat) : Nat := n / 2 ^ (8 * off) % 2 ^ (8 * len)
  { qblk := (f 0 2 : Nat), width := f 2 2, start := f 4 2, nanch := f 6 1, causal := (f 7 1).testBit 0
    anch := (List.range 16).map (fun i => f (0x10 + 2 * i) 2)
    sound := f 7 1 / 2 == 0 && f 8 8 == 0 && f 0x30 16 == 0 && decide (f 6 1 ≤ 16) }
/-- Block k is kept (R241). -/
def blkKept (p : BlkParam) (k : Nat) : Bool :=
  let lo : Int := if p.causal then p.qblk - p.width + 1 else p.qblk - ((p.width - 1) / 2 : Nat)
  let hi : Int := if p.causal then p.qblk else lo + p.width - 1
  decide (p.start ≤ k) &&
    ((decide (0 < p.width) && decide (lo ≤ k) && decide ((k : Int) ≤ hi)) ||
      ((p.anch.take p.nanch).contains k && (!p.causal || decide ((k : Int) ≤ p.qblk))))

/-- vblklist (R240 to R242): it acts whatever vl and VSTART hold. No block index reaches 2^17. -/
def execVblklist (vd : Reg) (va : VSrc) (xb : Reg) (s : State) : Out :=
  let word := wVblklist vd va xb
  let e := s.ew
  let p := blkParam (packElems 8 ((List.range 64).map (vaElem s va 8)))
  let code : Nat := match va with
    | .vreg v => v.toNat
    | .queue q => queueCode q
  vguard (do
      groupsOk s.me ((vd.toNat, s.grp) :: vaGroups va s.grp)
      vaName s va true
      legal (e != 8) word
      vaWait s va e (List.range (512 / e)))
    (if !p.sound then raise (s.updMe (fun t => { t with vstart := 0 })) ⟨.formatRecord, BitVec.ofNat 64 code, 0⟩
     else
      let l := ((List.range (min (s.x xb).toNat (2 ^ 17))).filter (blkKept p)).take s.vlmax
      vdone (vaPop (writeCounted s vd.toNat e (l.map (· % 2 ^ e))) va)) s

/-! ## Selection (R243 to R246) -/

/-- An entry of a list or a candidate: its value's bits and its index. -/
structure Entry where
  val : Nat
  idx : Nat
  deriving DecidableEq, Repr

/-- Insert an entry before the first one with a lesser value, or an equal value and a greater index. -/
def insertEntry (f : Fmt) (x : Entry) : List Entry → List Entry
  | [] => [x]
  | y :: t =>
    if fpLt (unpack f y.val) (unpack f x.val) || (fpEq (unpack f y.val) (unpack f x.val) && decide (x.idx < y.idx)) then x :: y :: t
    else y :: insertEntry f x t
/-- Entries by value descending, equal values by ascending index, and otherwise in the order they came (R244, R245). -/
def sortEntries (f : Fmt) (l : List Entry) : List Entry := l.foldl (fun a x => insertEntry f x a) []

/-- A value widened to FP32 (R244). -/
def widen32 (f : Fmt) (x : Nat) : Nat := (fpConvert f fmt32 .rne false 0 x).bits
/-- NANDROP with n more, saturating, and the flags of VSTAT (R246). -/
def vstatAdd (v : Dword) (n : Nat) (dup diff : Bool) : Dword :=
  let d := min (2 ^ 32 - 1) ((low 32 v).toNat + n)
  (v &&& 0x300000000) ||| (if dup then 0x100000000 else 0) ||| (if diff then 0x200000000 else 0) ||| BitVec.ofNat 64 d

/-- A list written at vd (R243, R232): values, indices and the tail word. -/
def writeList (s : State) (vd : Nat) (l : List Entry) (sel rest : Nat) : State :=
  let e := s.ew
  let g := s.grp
  let s1 := vputs s s.key vd e (countUpdates s.me s.vlmax (l.map (·.val)))
  let s2 := vputs s1 s.key (vd + g) e (countUpdates s.me s.vlmax (l.map (·.idx % 2 ^ e)))
  let old := if vtTa s.me.vtype then 0 else s2.vreg s.key (vd + 2 * g)
  (s2.setVreg s.key (vd + 2 * g) (putBits old 0 128 (l.length + 2 ^ 32 * sel + 2 ^ 64 * rest))).updMe (·.setVl l.length)

/-- vtopk (R244). -/
def execVtopk (vd : Reg) (va : VSrc) (xb : Reg) (m : Msk) (s : State) : Out :=
  let e := s.ew
  let g := s.grp
  let f := elemFmt s.me.vtype
  let val (i : Nat) : Nat := vaElem s va e i
  vguard (do
      groupsOk s.me [(vd.toNat, g)]
      (if vd.toNat + 3 * g ≤ s.me.window then .ok () else .error (stopTrap .vregWindow vd.toNat 0))
      vchecks s (vaGroups va g) va e (s.takers m) ((e == 16 || e == 32) && s.frmOk) (wVtopk vd va xb m))
    (if s.idle then vdone s
     else
      let c := s.takers m
      let nans := c.filter (fun i => (unpack f (val i)).isNan)
      let nums := c.filter (fun i => !(unpack f (val i)).isNan)
      let order := sortEntries f (nums.map (fun i => ⟨val i, i⟩))
      let sel := order.take (min (s.x xb).toNat s.vlmax)
      let pos (p : Nat → Bool) : List (Option Nat) :=
        (List.range s.vl).map (fun i => if nums.contains i && p i then some (widen32 f (val i)) else none)
      let inSel (i : Nat) : Bool := sel.any (fun x => x.idx == i)
      let sumSel := treeSum fmt32 s.rm 0 (pos inSel)
      let sumRest := treeSum fmt32 s.rm 0 (pos (fun i => !inSel i))
      let t := writeList s vd.toNat sel sumSel.1 sumRest.1
      let t := t.updMe (fun p => ({ p with vstat := vstatAdd p.vstat nans.length false false }).accrue
        (sumSel.2 ||| sumRest.2 ||| flIf (nans.any (fun i => (unpack f (val i)).isSig)) flNv))
      vdone ((vaPop t va).setX xb (BitVec.ofNat 64 (2 ^ 32 * sumRest.1 + sumSel.1)))) s

/-- A list read at register v: its entries and its REST (R243, R245). -/
def readList (s : State) (v : Nat) : List Entry × Nat :=
  let w := s.vreg s.key (v + 2 * s.grp)
  ((List.range (min (getBits w 0 32) s.vlmax)).map (fun i => ⟨vget s s.key v s.ew i, vget s s.key (v + s.grp) s.ew i⟩), getBits w 64 32)
/-- The window check on a list (R243). -/
def listOk (s : State) (v : Reg) : Except Stop Unit := do
  groupOk s.me v.toNat s.grp
  if v.toNat + 3 * s.grp ≤ s.me.window then .ok () else .error (stopTrap .vregWindow v.toNat 0)

/-- vtopkm (R245). -/
def execVtopkm (d a b : Reg) (s : State) : Out :=
  let e := s.ew
  let f := elemFmt s.me.vtype
  vguard (do
      listOk s d
      listOk s a
      listOk s b
      legal ((e == 16 || e == 32) && s.frmOk) (wVtopkm d a b))
    (if s.idle then vdone s
     else
      let (la, ra) := readList s a.toNat
      let (lb, rb) := readList s b.toNat
      let num (x : Entry) : Bool := !(unpack f x.val).isNan
      let nans := la.filter (fun x => !num x) ++ lb.filter (fun x => !num x)
      let as := la.filter num
      let bs := lb.filter num
      let twin (x : Entry) : Option Entry := as.find? (fun y => y.idx == x.idx)
      let dup := bs.any (fun x => (twin x).isSome)
      let diff := bs.any (fun x => (twin x).any (fun y => !fpEq (unpack f y.val) (unpack f x.val)))
      let order := sortEntries f (as ++ bs.filter (fun x => (twin x).isNone))
      let out := order.take s.vl
      let sel := treeSum fmt32 s.rm 0 (out.map (fun x => some (widen32 f x.val)))
      let rest := treeSum fmt32 s.rm 0 (some ra :: some rb :: (order.drop s.vl).map (fun x => some (widen32 f x.val)))
      vdone ((writeList s d.toNat out sel.1 rest.1).updMe (fun p =>
        ({ p with vstat := vstatAdd p.vstat nans.length dup diff }).accrue
          (sel.2 ||| rest.2 ||| flIf (nans.any (fun x => (unpack f x.val).isSig)) flNv)))) s

end Sys2Proof.Machine
end

