-- ==== Sys2Proof/Machine/Dispatch.lean ====
section
/-! DEFINITION. The instruction table of the machine: each constructor of Instr to its meaning. -/

namespace Sys2Proof.Machine
open Sys2Proof

def exec (i : Instr) (s : State) : Host.Outcome State Fault Refusal :=
  match i with
  | .ill => Sys2Proof.Machine.execIll s
  | .xcall => Sys2Proof.Machine.execXcall s
  | .fcall => Sys2Proof.Machine.execFcall s
  | .brk => Sys2Proof.Machine.execBrk s
  | .eret => Sys2Proof.Machine.execEret s
  | .uiret => Sys2Proof.Machine.execUiret s
  | .wfe a => Sys2Proof.Machine.execWfe a s
  | .tlbinvPage a b => Sys2Proof.Machine.execTlbinvPage a b s
  | .tlbinvAsid b => Sys2Proof.Machine.execTlbinvAsid b s
  | .tlbinvAll => Sys2Proof.Machine.execTlbinvAll s
  | .cwbCore => Sys2Proof.Machine.execCwbCore s
  | .cwbDie => Sys2Proof.Machine.execCwbDie s
  | .cwbDevice => Sys2Proof.Machine.execCwbDevice s
  | .cwbImage a b => Sys2Proof.Machine.execCwbImage a b s
  | .halt => Sys2Proof.Machine.execHalt s
  | .add d a b => Sys2Proof.Machine.execAdd d a b s
  | .sub d a b => Sys2Proof.Machine.execSub d a b s
  | .and d a b => Sys2Proof.Machine.execAnd d a b s
  | .or d a b => Sys2Proof.Machine.execOr d a b s
  | .xor d a b => Sys2Proof.Machine.execXor d a b s
  | .andn d a b => Sys2Proof.Machine.execAndn d a b s
  | .orn d a b => Sys2Proof.Machine.execOrn d a b s
  | .sll d a b => Sys2Proof.Machine.execSll d a b s
  | .srl d a b => Sys2Proof.Machine.execSrl d a b s
  | .sra d a b => Sys2Proof.Machine.execSra d a b s
  | .rotl d a b => Sys2Proof.Machine.execRotl d a b s
  | .rotr d a b => Sys2Proof.Machine.execRotr d a b s
  | .slt d a b => Sys2Proof.Machine.execSlt d a b s
  | .sltn d a b => Sys2Proof.Machine.execSltn d a b s
  | .min d a b => Sys2Proof.Machine.execMin d a b s
  | .max d a b => Sys2Proof.Machine.execMax d a b s
  | .minn d a b => Sys2Proof.Machine.execMinn d a b s
  | .maxn d a b => Sys2Proof.Machine.execMaxn d a b s
  | .mul d a b => Sys2Proof.Machine.execMul d a b s
  | .mulh d a b => Sys2Proof.Machine.execMulh d a b s
  | .mulhn d a b => Sys2Proof.Machine.execMulhn d a b s
  | .div d a b => Sys2Proof.Machine.execDiv d a b s
  | .divn d a b => Sys2Proof.Machine.execDivn d a b s
  | .rem d a b => Sys2Proof.Machine.execRem d a b s
  | .remn d a b => Sys2Proof.Machine.execRemn d a b s
  | .clz d a => Sys2Proof.Machine.execClz d a s
  | .ctz d a => Sys2Proof.Machine.execCtz d a s
  | .popc d a => Sys2Proof.Machine.execPopc d a s
  | .bswap d a => Sys2Proof.Machine.execBswap d a s
  | .addi d a imm => Sys2Proof.Machine.execAddi d a imm s
  | .andi d a imm => Sys2Proof.Machine.execAndi d a imm s
  | .ori d a imm => Sys2Proof.Machine.execOri d a imm s
  | .xori d a imm => Sys2Proof.Machine.execXori d a imm s
  | .slti d a imm => Sys2Proof.Machine.execSlti d a imm s
  | .sltni d a imm => Sys2Proof.Machine.execSltni d a imm s
  | .sllI d a amount => Sys2Proof.Machine.execSllI d a amount s
  | .srlI d a amount => Sys2Proof.Machine.execSrlI d a amount s
  | .sraI d a amount => Sys2Proof.Machine.execSraI d a amount s
  | .rotrI d a amount => Sys2Proof.Machine.execRotrI d a amount s
  | .lui d imm => Sys2Proof.Machine.execLui d imm s
  | .auipc d imm => Sys2Proof.Machine.execAuipc d imm s
  | .ld8 d a off => Sys2Proof.Machine.execLd8 d a off s
  | .ld8s d a off => Sys2Proof.Machine.execLd8s d a off s
  | .ld16 d a off => Sys2Proof.Machine.execLd16 d a off s
  | .ld16s d a off => Sys2Proof.Machine.execLd16s d a off s
  | .ld32 d a off => Sys2Proof.Machine.execLd32 d a off s
  | .ld32s d a off => Sys2Proof.Machine.execLd32s d a off s
  | .ld64 d a off => Sys2Proof.Machine.execLd64 d a off s
  | .st8 r a off => Sys2Proof.Machine.execSt8 r a off s
  | .st16 r a off => Sys2Proof.Machine.execSt16 r a off s
  | .st32 r a off => Sys2Proof.Machine.execSt32 r a off s
  | .st64 r a off => Sys2Proof.Machine.execSt64 r a off s
  | .ldacq sc d a => Sys2Proof.Machine.execLdacq sc d a s
  | .strel sc a b => Sys2Proof.Machine.execStrel sc a b s
  | .amoswap sc d a b => Sys2Proof.Machine.execAmoswap sc d a b s
  | .amoadd sc d a b => Sys2Proof.Machine.execAmoadd sc d a b s
  | .amoand sc d a b => Sys2Proof.Machine.execAmoand sc d a b s
  | .amoor sc d a b => Sys2Proof.Machine.execAmoor sc d a b s
  | .amoxor sc d a b => Sys2Proof.Machine.execAmoxor sc d a b s
  | .amomin sc d a b => Sys2Proof.Machine.execAmomin sc d a b s
  | .amomax sc d a b => Sys2Proof.Machine.execAmomax sc d a b s
  | .amominn sc d a b => Sys2Proof.Machine.execAmominn sc d a b s
  | .amomaxn sc d a b => Sys2Proof.Machine.execAmomaxn sc d a b s
  | .amocas sc d a b => Sys2Proof.Machine.execAmocas sc d a b s
  | .ldf sc d a => Sys2Proof.Machine.execLdf sc d a s
  | .ldc sc d a => Sys2Proof.Machine.execLdc sc d a s
  | .stf sc a b => Sys2Proof.Machine.execStf sc a b s
  | .beq a b off => Sys2Proof.Machine.execBeq a b off s
  | .bne a b off => Sys2Proof.Machine.execBne a b off s
  | .blt a b off => Sys2Proof.Machine.execBlt a b off s
  | .bge a b off => Sys2Proof.Machine.execBge a b off s
  | .bltn a b off => Sys2Proof.Machine.execBltn a b off s
  | .bgen a b off => Sys2Proof.Machine.execBgen a b off s
  | .jl off => Sys2Proof.Machine.execJl off s
  | .jlr d a imm => Sys2Proof.Machine.execJlr d a imm s
  | .fadd f r d a b => Sys2Proof.Machine.execFadd f r d a b s
  | .fsub f r d a b => Sys2Proof.Machine.execFsub f r d a b s
  | .fmul f r d a b => Sys2Proof.Machine.execFmul f r d a b s
  | .fdiv f r d a b => Sys2Proof.Machine.execFdiv f r d a b s
  | .fsqrt f r d a => Sys2Proof.Machine.execFsqrt f r d a s
  | .fmadd f r d a b => Sys2Proof.Machine.execFmadd f r d a b s
  | .fmin f r d a b => Sys2Proof.Machine.execFmin f r d a b s
  | .fmax f r d a b => Sys2Proof.Machine.execFmax f r d a b s
  | .fneg f r d a => Sys2Proof.Machine.execFneg f r d a s
  | .fabs f r d a => Sys2Proof.Machine.execFabs f r d a s
  | .fcmpeq f r d a b => Sys2Proof.Machine.execFcmpeq f r d a b s
  | .fcmplt f r d a b => Sys2Proof.Machine.execFcmplt f r d a b s
  | .fcmple f r d a b => Sys2Proof.Machine.execFcmple f r d a b s
  | .fclass f r d a => Sys2Proof.Machine.execFclass f r d a s
  | .fcvtfi f r t d a => Sys2Proof.Machine.execFcvtfi f r t d a s
  | .fcvtif f r t d a => Sys2Proof.Machine.execFcvtif f r t d a s
  | .fcvtff f r d a => Sys2Proof.Machine.execFcvtff f r d a s
  | .mfs d spr => Sys2Proof.Machine.execMfs d spr s
  | .mts spr a => Sys2Proof.Machine.execMts spr a s
  | .sset spr a => Sys2Proof.Machine.execSset spr a s
  | .sclr spr a => Sys2Proof.Machine.execSclr spr a s
  | .tloop n b off => Sys2Proof.Machine.execTloop n b off s
  | .vsetl d a vt => Sys2Proof.Machine.execVsetl d a vt s
  | .vsetlx d a b => Sys2Proof.Machine.execVsetlx d a b s
  | .vloop a vt => Sys2Proof.Machine.execVloop a vt s
  | .vlend np a len => Sys2Proof.Machine.execVlend np a len s
  | .vbreak a off => Sys2Proof.Machine.execVbreak a off s
  | .vdecl a => Sys2Proof.Machine.execVdecl a s
  | .vundecl => Sys2Proof.Machine.execVundecl s
  | .vslip a => Sys2Proof.Machine.execVslip a s
  | .vld v a o sb m ew => Sys2Proof.Machine.execVld v a o sb m ew s
  | .vlds v a b o sb m ew => Sys2Proof.Machine.execVlds v a b o sb m ew s
  | .vldq ring a o sb m ew => Sys2Proof.Machine.execVldq ring a o sb m ew s
  | .vldqk v a ring o sb m ew => Sys2Proof.Machine.execVldqk v a ring o sb m ew s
  | .vldb v a o sb m ew => Sys2Proof.Machine.execVldb v a o sb m ew s
  | .vldf v a o sb m ew => Sys2Proof.Machine.execVldf v a o sb m ew s
  | .vldp4 v a b o sb m => Sys2Proof.Machine.execVldp4 v a b o sb m s
  | .vst v a o sb m ew => Sys2Proof.Machine.execVst v a o sb m ew s
  | .vsts v a b o sb m ew => Sys2Proof.Machine.execVsts v a b o sb m ew s
  | .vstn v a o sb m ew => Sys2Proof.Machine.execVstn v a o sb m ew s
  | .vstsn v a b o sb m ew => Sys2Proof.Machine.execVstsn v a b o sb m ew s
  | .vstf v a o sb m ew => Sys2Proof.Machine.execVstf v a o sb m ew s
  | .vstq ring a o sb m ew => Sys2Proof.Machine.execVstq ring a o sb m ew s
  | .vgat v a b o sb m ew => Sys2Proof.Machine.execVgat v a b o sb m ew s
  | .vsca v a b o sb m ew => Sys2Proof.Machine.execVsca v a b o sb m ew s
  | .vgatw v a b o sb p ew => Sys2Proof.Machine.execVgatw v a b o sb p ew s
  | .vgl v a b o sb m ew => Sys2Proof.Machine.execVgl v a b o sb m ew s
  | .vscc v a b o sb p ew => Sys2Proof.Machine.execVscc v a b o sb p ew s
  | .vamoadd v a b o ret m => Sys2Proof.Machine.execVamoadd v a b o ret m s
  | .vamoand v a b o ret m => Sys2Proof.Machine.execVamoand v a b o ret m s
  | .vamoor v a b o ret m => Sys2Proof.Machine.execVamoor v a b o ret m s
  | .vamoxor v a b o ret m => Sys2Proof.Machine.execVamoxor v a b o ret m s
  | .vamomin v a b o ret m => Sys2Proof.Machine.execVamomin v a b o ret m s
  | .vamomax v a b o ret m => Sys2Proof.Machine.execVamomax v a b o ret m s
  | .vamominn v a b o ret m => Sys2Proof.Machine.execVamominn v a b o ret m s
  | .vamomaxn v a b o ret m => Sys2Proof.Machine.execVamomaxn v a b o ret m s
  | .vamoswap v a b o ret m => Sys2Proof.Machine.execVamoswap v a b o ret m s
  | .vamofadd v a b o ret m => Sys2Proof.Machine.execVamofadd v a b o ret m s
  | .vwait v a b o ret m => Sys2Proof.Machine.execVwait v a b o ret m s
  | .vadd vd va vb m => Sys2Proof.Machine.execVadd vd va vb m s
  | .vsub vd va vb m => Sys2Proof.Machine.execVsub vd va vb m s
  | .vrsub vd va vb m => Sys2Proof.Machine.execVrsub vd va vb m s
  | .vmul vd va vb m => Sys2Proof.Machine.execVmul vd va vb m s
  | .vmulh vd va vb m => Sys2Proof.Machine.execVmulh vd va vb m s
  | .vmulhn vd va vb m => Sys2Proof.Machine.execVmulhn vd va vb m s
  | .vdiv vd va vb m => Sys2Proof.Machine.execVdiv vd va vb m s
  | .vdivn vd va vb m => Sys2Proof.Machine.execVdivn vd va vb m s
  | .vrem vd va vb m => Sys2Proof.Machine.execVrem vd va vb m s
  | .vremn vd va vb m => Sys2Proof.Machine.execVremn vd va vb m s
  | .vmin vd va vb m => Sys2Proof.Machine.execVmin vd va vb m s
  | .vmax vd va vb m => Sys2Proof.Machine.execVmax vd va vb m s
  | .vminn vd va vb m => Sys2Proof.Machine.execVminn vd va vb m s
  | .vmaxn vd va vb m => Sys2Proof.Machine.execVmaxn vd va vb m s
  | .vand vd va vb m => Sys2Proof.Machine.execVand vd va vb m s
  | .vor vd va vb m => Sys2Proof.Machine.execVor vd va vb m s
  | .vxor vd va vb m => Sys2Proof.Machine.execVxor vd va vb m s
  | .vsll vd va vb m => Sys2Proof.Machine.execVsll vd va vb m s
  | .vsrl vd va vb m => Sys2Proof.Machine.execVsrl vd va vb m s
  | .vsra vd va vb m => Sys2Proof.Machine.execVsra vd va vb m s
  | .vadds vd va vb m => Sys2Proof.Machine.execVadds vd va vb m s
  | .vsubs vd va vb m => Sys2Proof.Machine.execVsubs vd va vb m s
  | .vaddsn vd va vb m => Sys2Proof.Machine.execVaddsn vd va vb m s
  | .vsubsn vd va vb m => Sys2Proof.Machine.execVsubsn vd va vb m s
  | .vmacc vd va vb m => Sys2Proof.Machine.execVmacc vd va vb m s
  | .vnmsac vd va vb m => Sys2Proof.Machine.execVnmsac vd va vb m s
  | .vwmul vd va vb m => Sys2Proof.Machine.execVwmul vd va vb m s
  | .vnsrl vd va vb m => Sys2Proof.Machine.execVnsrl vd va vb m s
  | .vfadd vd va vb m => Sys2Proof.Machine.execVfadd vd va vb m s
  | .vfsub vd va vb m => Sys2Proof.Machine.execVfsub vd va vb m s
  | .vfmul vd va vb m => Sys2Proof.Machine.execVfmul vd va vb m s
  | .vfdiv vd va vb m => Sys2Proof.Machine.execVfdiv vd va vb m s
  | .vfsqrt vd va m => Sys2Proof.Machine.execVfsqrt vd va m s
  | .vfrsqe vd va m => Sys2Proof.Machine.execVfrsqe vd va m s
  | .vfexp2 vd va m => Sys2Proof.Machine.execVfexp2 vd va m s
  | .vfmadd vd va vb m => Sys2Proof.Machine.execVfmadd vd va vb m s
  | .vfnmadd vd va vb m => Sys2Proof.Machine.execVfnmadd vd va vb m s
  | .vfmsub vd va vb m => Sys2Proof.Machine.execVfmsub vd va vb m s
  | .vfmin vd va vb m => Sys2Proof.Machine.execVfmin vd va vb m s
  | .vfmax vd va vb m => Sys2Proof.Machine.execVfmax vd va vb m s
  | .vfabs vd va m => Sys2Proof.Machine.execVfabs vd va m s
  | .vfneg vd va m => Sys2Proof.Machine.execVfneg vd va m s
  | .vfsgnj vd va vb m => Sys2Proof.Machine.execVfsgnj vd va vb m s
  | .vfclass vd va m => Sys2Proof.Machine.execVfclass vd va m s
  | .vcvtf64 vd va cv m => Sys2Proof.Machine.execVcvtf64 vd va cv m s
  | .vcvtf32 vd va cv m => Sys2Proof.Machine.execVcvtf32 vd va cv m s
  | .vcvtf16 vd va cv m => Sys2Proof.Machine.execVcvtf16 vd va cv m s
  | .vcvtbf16 vd va cv m => Sys2Proof.Machine.execVcvtbf16 vd va cv m s
  | .vcvte4m3 vd va cv m => Sys2Proof.Machine.execVcvte4m3 vd va cv m s
  | .vcvte5m2 vd va cv m => Sys2Proof.Machine.execVcvte5m2 vd va cv m s
  | .vcvte4m3s vd va cv m => Sys2Proof.Machine.execVcvte4m3s vd va cv m s
  | .vcvte5m2s vd va cv m => Sys2Proof.Machine.execVcvte5m2s vd va cv m s
  | .vcvti8 vd va cv m => Sys2Proof.Machine.execVcvti8 vd va cv m s
  | .vcvti16 vd va cv m => Sys2Proof.Machine.execVcvti16 vd va cv m s
  | .vcvti32 vd va cv m => Sys2Proof.Machine.execVcvti32 vd va cv m s
  | .vcvti64 vd va cv m => Sys2Proof.Machine.execVcvti64 vd va cv m s
  | .vcvtfi vd va m => Sys2Proof.Machine.execVcvtfi vd va m s
  | .vqnt vd va vb k m => Sys2Proof.Machine.execVqnt vd va vb k m s
  | .vdeq vd va vb k m => Sys2Proof.Machine.execVdeq vd va vb k m s
  | .vmxq vd va vb k m => Sys2Proof.Machine.execVmxq vd va vb k m s
  | .vmxd vd va vb k m => Sys2Proof.Machine.execVmxd vd va vb k m s
  | .vslup vd va xb m => Sys2Proof.Machine.execVslup vd va xb m s
  | .vsldn vd va xb m => Sys2Proof.Machine.execVsldn vd va xb m s
  | .vrot vd va xb m => Sys2Proof.Machine.execVrot vd va xb m s
  | .vperm vd va vb m => Sys2Proof.Machine.execVperm vd va vb m s
  | .vbcast vd va xb m => Sys2Proof.Machine.execVbcast vd va xb m s
  | .vmvxs xd va => Sys2Proof.Machine.execVmvxs xd va s
  | .vmvsx vd xb m => Sys2Proof.Machine.execVmvsx vd xb m s
  | .vzip vd va vb m => Sys2Proof.Machine.execVzip vd va vb m s
  | .vunzip vd va xb m => Sys2Proof.Machine.execVunzip vd va xb m s
  | .vrev vd va m => Sys2Proof.Machine.execVrev vd va m s
  | .vmerge vd va vb m => Sys2Proof.Machine.execVmerge vd va vb m s
  | .vmv vd va m => Sys2Proof.Machine.execVmv vd va m s
  | .vcompress vd va m => Sys2Proof.Machine.execVcompress vd va m s
  | .vexpand vd va m => Sys2Proof.Machine.execVexpand vd va m s
  | .vpopx vd m => Sys2Proof.Machine.execVpopx vd m s
  | .vconf md va m => Sys2Proof.Machine.execVconf md va m s
  | .vsscan vd va h m => Sys2Proof.Machine.execVsscan vd va h m s
  | .vsscanmax vd va h m => Sys2Proof.Machine.execVsscanmax vd va h m s
  | .vfsscan vd va h m => Sys2Proof.Machine.execVfsscan vd va h m s
  | .vfirst d ma m => Sys2Proof.Machine.execVfirst d ma m s
  | .vcpop d ma m => Sys2Proof.Machine.execVcpop d ma m s
  | .viota d ma m => Sys2Proof.Machine.execViota d ma m s
  | .vblklist vd va xb => Sys2Proof.Machine.execVblklist vd va xb s
  | .vredsum vd va vb m => Sys2Proof.Machine.execVredsum vd va vb m s
  | .vredmax vd va vb m => Sys2Proof.Machine.execVredmax vd va vb m s
  | .vredmin vd va vb m => Sys2Proof.Machine.execVredmin vd va vb m s
  | .vredmaxn vd va vb m => Sys2Proof.Machine.execVredmaxn vd va vb m s
  | .vredminn vd va vb m => Sys2Proof.Machine.execVredminn vd va vb m s
  | .vredand vd va vb m => Sys2Proof.Machine.execVredand vd va vb m s
  | .vredor vd va vb m => Sys2Proof.Machine.execVredor vd va vb m s
  | .vredxor vd va vb m => Sys2Proof.Machine.execVredxor vd va vb m s
  | .vfredo vd va vb m => Sys2Proof.Machine.execVfredo vd va vb m s
  | .vfredt vd va vb m => Sys2Proof.Machine.execVfredt vd va vb m s
  | .vfredmax vd va vb m => Sys2Proof.Machine.execVfredmax vd va vb m s
  | .vfredmin vd va vb m => Sys2Proof.Machine.execVfredmin vd va vb m s
  | .vtopk vd va xb m => Sys2Proof.Machine.execVtopk vd va xb m s
  | .vtopkm d a b => Sys2Proof.Machine.execVtopkm d a b s
  | .vmseq md va vb m => Sys2Proof.Machine.execVmseq md va vb m s
  | .vmsne md va vb m => Sys2Proof.Machine.execVmsne md va vb m s
  | .vmslt md va vb m => Sys2Proof.Machine.execVmslt md va vb m s
  | .vmsltn md va vb m => Sys2Proof.Machine.execVmsltn md va vb m s
  | .vmsle md va vb m => Sys2Proof.Machine.execVmsle md va vb m s
  | .vmslen md va vb m => Sys2Proof.Machine.execVmslen md va vb m s
  | .vmfeq md va vb m => Sys2Proof.Machine.execVmfeq md va vb m s
  | .vmflt md va vb m => Sys2Proof.Machine.execVmflt md va vb m s
  | .vmfle md va vb m => Sys2Proof.Machine.execVmfle md va vb m s
  | .vmfnan md va m => Sys2Proof.Machine.execVmfnan md va m s
  | .vmand md ma mb => Sys2Proof.Machine.execVmand md ma mb s
  | .vmor md ma mb => Sys2Proof.Machine.execVmor md ma mb s
  | .vmxor md ma mb => Sys2Proof.Machine.execVmxor md ma mb s
  | .vmandn md ma mb => Sys2Proof.Machine.execVmandn md ma mb s
  | .vmnot md ma => Sys2Proof.Machine.execVmnot md ma s
  | .vmmv md ma => Sys2Proof.Machine.execVmmv md ma s
  | .vmmvc md => Sys2Proof.Machine.execVmmvc md s
  | .vmfromx md xa xb => Sys2Proof.Machine.execVmfromx md xa xb s
  | .vmtox xd ma xb => Sys2Proof.Machine.execVmtox xd ma xb s
  | .tclaim xd acc int => Sys2Proof.Machine.execTclaim xd acc int s
  | .tfree acc => Sys2Proof.Machine.execTfree acc s
  | .tzero acc int => Sys2Proof.Machine.execTzero acc int s
  | .trdrow vd acc xa => Sys2Proof.Machine.execTrdrow vd acc xa s
  | .trdcol vd acc xa => Sys2Proof.Machine.execTrdcol vd acc xa s
  | .twrrow acc xa vb => Sys2Proof.Machine.execTwrrow acc xa vb s
  | .twrcol acc xa vb => Sys2Proof.Machine.execTwrcol acc xa vb s
  | .tstat xd acc => Sys2Proof.Machine.execTstat xd acc s
  | .tmop acc f src rp sub sat => Sys2Proof.Machine.execTmop acc f src rp sub sat s
  | .tmopMs acc f va vb rp sub sat => Sys2Proof.Machine.execTmopMs acc f va vb rp sub sat s
  | .qcfg ring a b => Sys2Proof.Machine.execQcfg ring a b s
  | .qpush dst vs => Sys2Proof.Machine.execQpush dst vs s
  | .qpop vd src => Sys2Proof.Machine.execQpop vd src s
  | .qwait xd src xb => Sys2Proof.Machine.execQwait xd src xb s
  | .qzf xd ring xb => Sys2Proof.Machine.execQzf xd ring xb s
  | .ccmap d a => Sys2Proof.Machine.execCcmap d a s
  | .ccunmap a => Sys2Proof.Machine.execCcunmap a s
  | .ccflush a => Sys2Proof.Machine.execCcflush a s
  | .ccstat d a => Sys2Proof.Machine.execCcstat d a s
  | .fx slot vd va vb xs => Sys2Proof.Machine.execFx slot vd va vb xs s
  | .fxC slot vd va vb xs => Sys2Proof.Machine.execFxC slot vd va vb xs s
  | .fxbind d a b => Sys2Proof.Machine.execFxbind d a b s
  | .fxunbind a => Sys2Proof.Machine.execFxunbind a s
  | .fxstat d a => Sys2Proof.Machine.execFxstat d a s
  | .fxquery d a b => Sys2Proof.Machine.execFxquery d a b s
  | .fxpin d a => Sys2Proof.Machine.execFxpin d a s
  | .fxunpin a => Sys2Proof.Machine.execFxunpin a s
  | .recv d a => Sys2Proof.Machine.execRecv d a s
  | .send d a => Sys2Proof.Machine.execSend d a s
  | .sendE d a => Sys2Proof.Machine.execSendE d a s
  | .steer d a b => Sys2Proof.Machine.execSteer d a b s
  | .merge d a b => Sys2Proof.Machine.execMerge d a b s
  | .prime d a => Sys2Proof.Machine.execPrime d a s
  | .tokw a => Sys2Proof.Machine.execTokw a s
  | .toks d => Sys2Proof.Machine.execToks d s
  | .lpeek d a => Sys2Proof.Machine.execLpeek d a s
  | .cpy1d d a b => Sys2Proof.Machine.execCpy1d d a b s
  | .cpybox d a b => Sys2Proof.Machine.execCpybox d a b s
  | .cpyfill d a b => Sys2Proof.Machine.execCpyfill d a b s
  | .cwait a b => Sys2Proof.Machine.execCwait a b s
  | .cstat d a => Sys2Proof.Machine.execCstat d a s
  | .cpyarm a b => Sys2Proof.Machine.execCpyarm a b s
  | .fence kinds sc => Sys2Proof.Machine.execFence kinds sc s
  | .barinit d a b => Sys2Proof.Machine.execBarinit d a b s
  | .barrive d a b => Sys2Proof.Machine.execBarrive d a b s
  | .barwait a b => Sys2Proof.Machine.execBarwait a b s
  | .barpoll d a => Sys2Proof.Machine.execBarpoll d a s
  | .hbeat => Sys2Proof.Machine.execHbeat s
  | .uien d a => Sys2Proof.Machine.execUien d a s
  | .uidis d a => Sys2Proof.Machine.execUidis d a s
  | .yield => Sys2Proof.Machine.execYield s
  | .tspawn d a => Sys2Proof.Machine.execTspawn d a s
  | .trun d a b => Sys2Proof.Machine.execTrun d a b s
  | .tdone => Sys2Proof.Machine.execTdone s
  | .tfut d a => Sys2Proof.Machine.execTfut d a s
  | .tfset a b => Sys2Proof.Machine.execTfset a b s
  | .tfwait d a => Sys2Proof.Machine.execTfwait d a s
  | .tqcfg d a b => Sys2Proof.Machine.execTqcfg d a b s
  | .sfarm d a b => Sys2Proof.Machine.execSfarm d a b s
  | .spub d a => Sys2Proof.Machine.execSpub d a s
  | .sspawn d a b => Sys2Proof.Machine.execSspawn d a b s
  | .sstat d a => Sys2Proof.Machine.execSstat d a s
  | .sabort d a => Sys2Proof.Machine.execSabort d a s
  | .sqinit d a => Sys2Proof.Machine.execSqinit d a s
  | .sqtab d a => Sys2Proof.Machine.execSqtab d a s
  | .sqadd d a => Sys2Proof.Machine.execSqadd d a s
  | .sqgo d => Sys2Proof.Machine.execSqgo d s
  | .sqstat d a => Sys2Proof.Machine.execSqstat d a s
  | .sqend d => Sys2Proof.Machine.execSqend d s
  | .doorbellWrite qid tail => Sys2Proof.Machine.execDoorbellWrite qid tail s
  | .qcmdEnable qid => Sys2Proof.Machine.execQcmdEnable qid s
  | .qcmdDisable qid => Sys2Proof.Machine.execQcmdDisable qid s
  | .qcmdReset qid => Sys2Proof.Machine.execQcmdReset qid s
  | .registerWrite off v => Sys2Proof.Machine.execRegisterWrite off v s
  | .quantumBoundary => Sys2Proof.Machine.execQuantumBoundary s
  | .slotLoadComplete slot => Sys2Proof.Machine.execSlotLoadComplete slot s
  | .recordAccept => Sys2Proof.Machine.execRecordAccept s
  | .imageCheck kernel => Sys2Proof.Machine.execImageCheck kernel s
  | .depWatchReevaluate slot => Sys2Proof.Machine.execDepWatchReevaluate slot s
  | .depPoll slot => Sys2Proof.Machine.execDepPoll slot s
  | .kernelCompletion kernel => Sys2Proof.Machine.execKernelCompletion kernel s
  | .placementEvent die => Sys2Proof.Machine.execPlacementEvent die s
  | .backfillStop die => Sys2Proof.Machine.execBackfillStop die s
  | .spiracleGrantWrite core page second v => Sys2Proof.Machine.execSpiracleGrantWrite core page second v s
  | .pageMoveEnd core asid slot => Sys2Proof.Machine.execPageMoveEnd core asid slot s
  | .pageContextLoadComplete strand page => Sys2Proof.Machine.execPageContextLoadComplete strand page s
  | .blockFetchComplete strand cell => Sys2Proof.Machine.execBlockFetchComplete strand cell s
  | .flitTransfer strand cell chan => Sys2Proof.Machine.execFlitTransfer strand cell chan s
  | .streamInputDelivery strand portB => Sys2Proof.Machine.execStreamInputDelivery strand portB s
  | .streamOutputTake strand => Sys2Proof.Machine.execStreamOutputTake strand s
  | .invocationComplete strand => Sys2Proof.Machine.execInvocationComplete strand s
  | .fabricStop strand => Sys2Proof.Machine.execFabricStop strand s
  | .fabricDeadlock strand => Sys2Proof.Machine.execFabricDeadlock strand s
  | .homeRead core word => Sys2Proof.Machine.execHomeRead core word s
  | .registration core word => Sys2Proof.Machine.execRegistration core word s
  | .l1Eviction core word => Sys2Proof.Machine.execL1Eviction core word s
  | .l2Eviction die sector => Sys2Proof.Machine.execL2Eviction die sector s
  | .sectorFill die sector => Sys2Proof.Machine.execSectorFill die sector s
  | .cocoonFill strand cocoon sector => Sys2Proof.Machine.execCocoonFill strand cocoon sector s
  | .requestResend core word => Sys2Proof.Machine.execRequestResend core word s
  | .memTimeout strand => Sys2Proof.Machine.execMemTimeout strand s
  | .snoopInvalidate line => Sys2Proof.Machine.execSnoopInvalidate line s
  | .snoopData line => Sys2Proof.Machine.execSnoopData line s
  | .hostHdmRequest word data => Sys2Proof.Machine.execHostHdmRequest word data s
  | .poolShelfFailure port base limit => Sys2Proof.Machine.execPoolShelfFailure port base limit s
  | .lostRangeWithdraw entry => Sys2Proof.Machine.execLostRangeWithdraw entry s
  | .transferComplete strand chan id => Sys2Proof.Machine.execTransferComplete strand chan id s
  | .transferFault strand chan => Sys2Proof.Machine.execTransferFault strand chan s
  | .linkedPhaseSeen group barrier => Sys2Proof.Machine.execLinkedPhaseSeen group barrier s
  | .uiDelivery strand => Sys2Proof.Machine.execUiDelivery strand s
  | .wfeTimeout strand => Sys2Proof.Machine.execWfeTimeout strand s
  | .vwaitWatchMet strand => Sys2Proof.Machine.execVwaitWatchMet strand s
  | .tileZeroComplete core tile => Sys2Proof.Machine.execTileZeroComplete core tile s
  | .scmdPreempt strand => Sys2Proof.Machine.execScmdPreempt strand s
  | .preemptSaveComplete strand => Sys2Proof.Machine.execPreemptSaveComplete strand s
  | .scmdRestore strand => Sys2Proof.Machine.execScmdRestore strand s
  | .taskReady die entry => Sys2Proof.Machine.execTaskReady die entry s
  | .trunTimeout strand => Sys2Proof.Machine.execTrunTimeout strand s
  | .forecastDecision die slot => Sys2Proof.Machine.execForecastDecision die slot s
  | .sqStageLaunch die => Sys2Proof.Machine.execSqStageLaunch die s
  | .sqStageComplete die => Sys2Proof.Machine.execSqStageComplete die s
  | .sqDecision die => Sys2Proof.Machine.execSqDecision die s
  | .heartbeatExpire kernel => Sys2Proof.Machine.execHeartbeatExpire kernel s
  | .runtimeExpire kernel => Sys2Proof.Machine.execRuntimeExpire kernel s
  | .executiveWatchdog strand => Sys2Proof.Machine.execExecutiveWatchdog strand s
  | .kcmdResume self => Sys2Proof.Machine.execKcmdResume self s
  | .kcmdEnd self => Sys2Proof.Machine.execKcmdEnd self s
  | .kcmdCancel self => Sys2Proof.Machine.execKcmdCancel self s
  | .kcmdFault self => Sys2Proof.Machine.execKcmdFault self s
  | .dbgctlHalt core => Sys2Proof.Machine.execDbgctlHalt core s
  | .dbgctlResume core => Sys2Proof.Machine.execDbgctlResume core s
  | .debugSettleTimeout core => Sys2Proof.Machine.execDebugSettleTimeout core s
  | .dbgdloRead core => Sys2Proof.Machine.execDbgdloRead core s
  | .dbgdloWrite core v => Sys2Proof.Machine.execDbgdloWrite core v s
  | .dbgdhiWrite core v => Sys2Proof.Machine.execDbgdhiWrite core v s
  | .strandEnd strand => Sys2Proof.Machine.execStrandEnd strand s
  | .resetDeassertion => Sys2Proof.Machine.execResetDeassertion s
  | .bootStageComplete ok => Sys2Proof.Machine.execBootStageComplete ok s
  | .devctlReady => Sys2Proof.Machine.execDevctlReady s
  | .atsResponse strand page entry => Sys2Proof.Machine.execAtsResponse strand page entry s
  | .priResponse strand success => Sys2Proof.Machine.execPriResponse strand success s
  | .atsInvalidation pasid page all => Sys2Proof.Machine.execAtsInvalidation pasid page all s
  | .linkFlitReceive port flit => Sys2Proof.Machine.execLinkFlitReceive port flit s
  | .linkRetrain port => Sys2Proof.Machine.execLinkRetrain port s
  | .getVersion => Sys2Proof.Machine.execGetVersion s
  | .getCapabilities => Sys2Proof.Machine.execGetCapabilities s
  | .negotiateAlgorithms algorithms => Sys2Proof.Machine.execNegotiateAlgorithms algorithms s
  | .getDigests => Sys2Proof.Machine.execGetDigests s
  | .getCertificate offset length => Sys2Proof.Machine.execGetCertificate offset length s
  | .challenge nonce => Sys2Proof.Machine.execChallenge nonce s
  | .getMeasurements index => Sys2Proof.Machine.execGetMeasurements index s
  | .correctedError page => Sys2Proof.Machine.execCorrectedError page s
  | .uncorrectableError word => Sys2Proof.Machine.execUncorrectableError word s
  | .coreFence core => Sys2Proof.Machine.execCoreFence core s
  | .dieFence die => Sys2Proof.Machine.execDieFence die s
  | .selfTestPreempt core => Sys2Proof.Machine.execSelfTestPreempt core s
  | .clockLower thermal => Sys2Proof.Machine.execClockLower thermal s
  | .clockRaise => Sys2Proof.Machine.execClockRaise s
  | .thermalShutdown => Sys2Proof.Machine.execThermalShutdown s
  | .notAnInstruction word => Sys2Proof.Machine.execNotAnInstruction word s
  | .portLost deviceLink port => Sys2Proof.Machine.execPortLost deviceLink port s
  | .portReturn port fourLanes => Sys2Proof.Machine.execPortReturn port fourLanes s
  | .noNewGroup core => Sys2Proof.Machine.execNoNewGroup core s
  | .selfTestComplete core => Sys2Proof.Machine.execSelfTestComplete core s

end Sys2Proof.Machine
end

