-- ==== Sys2Proof/Machine/Fetch.lean ====
section
/-! DEFINITION. Fetching the word of the instruction that comes next, for a strand (R98, R101, R203, R491) and for a cell
(R323). -/

namespace Sys2Proof.Machine
open Sys2Proof

/-- The word that a captured body holds for the strand's PC (R203). -/
def capturedWord (t : Strand) : Option Word :=
  match t.replay with
  | some r =>
    let o := (t.pc - r.start).toNat
    if o % 4 = 0 then r.words[o / 4]? else none
  | none => none

/-- The word at the PC of the acting strand, after the checks of R98 in their order; the cause is taken at the PC. A strand whose
process has no table meets that at its first fetch (R491). -/
def fetchWord : M Word := do
  let s ← get
  let t := s.me
  match (if t.level = .user then t.ptFault else none) with
  | some c => do
    modify (·.updMe (fun t => { t with ptFault := none }))
    trapM c t.pc 0
  | none =>
    match capturedWord t with
    | some w => pure w
    | none =>
      if winCode t.pc ≠ 0 then trapM .windowInvalid t.pc 0
      else if 2 ^ 52 ≤ winOff t.pc then trapM .windowRange t.pc 0
      else do
        checkVerdict s.ctx t.pc 0
        let g ← translate s.ctx (winOff t.pc) .fetch t.pc 0
        if g.cls = .d then trapM .classViolation t.pc 0
        else
          match g with
          | .glob pa cls => fetchPhys s.ctx pa cls t.pc 0
          | g => do
            g.lateM t.pc 0
            waitM

/-- Address 0 is never fetched at user level (R501): a strand stands there where a return, a trun or its entry, and no jump, brought it
(assumption 65). -/
def atZero (s : State) (k : Nat) : Bool := (s.strand k).level == .user && (s.strand k).pc == 0
/-- Such a strand begins to end, as a jump to 0 has it; one that holds a task takes ILLEGAL_INSTRUCTION, with no word to give. -/
def arriveAtZero (s : State) (k : Nat) : State :=
  if (s.strand k).task.isSome then raise s ⟨.illegalInstruction, 0, 0⟩ else s.upd k (fun t => { t with ending := true })

end Sys2Proof.Machine
end

