-- ==== Sys2Proof/Machine/Beats.lean ====
section
/-! DEFINITION. Pre-emption between the beats of a vector instruction (R208, R190). -/

namespace Sys2Proof.Machine
open Sys2Proof

noncomputable section

/-- The instruction of a word: the one it encodes, or the one that stands for a word that is no instruction (R111). -/
def instrOf (w : Word) : Instr :=
  match decode w with
  | .ok i => i
  | .error _ => .notAnInstruction w

/-- The major of a word (R99). -/
def majorOf (w : Word) : Nat := w.toNat / 2 ^ 26
/-- The word is one of the vector compute instructions, majors 0x1D to 0x23 (R205). -/
def computes (w : Word) : Bool := decide (0x1D ≤ majorOf w) && decide (majorOf w ≤ 0x23)
/-- The word is an elementwise instruction whose elements all have the width EW and whose operands are all registers, so that its
destination is a group of its own or lies on a source element by element (R180): a VINT row but vwmul and vnsrl, or a VFP row. -/
def stopsInside (w : Word) : Bool :=
  ((majorOf w == 0x1D && decide (w.toNat % 32 ≤ 25)) || majorOf w == 0x1E) && !w.getLsbD 9
/-- The elements that a beat of an instruction covers: those of one register, and half of them in FP64 (R21). -/
def beatElems (w : Word) (ew : Nat) : Nat := if majorOf w = 0x1E ∧ ew = 64 then 32 else 4096 / ew
/-- The strand at a pre-emption inside its next instruction, of which what is before element e is done (R208): e is its VSTART, and it
has issued. -/
def Strand.insideAt (t : Strand) (e : Nat) : Strand := { t with vstart := BitVec.ofNat 13 e, wait := { issued := true } }
/-- What a pre-emption of a strand that stops now finds of its next instruction (R208), whose first n beats are done: an elementwise one
has written their elements, and any other has written none. -/
def insideNext (s : State) (k : Nat) (w : Word) (n : Nat) : State :=
  let t := s.strand k
  let b := beatElems w (ewBits t.vtype)
  let e := (t.vstart.toNat / b + n) * b
  if t.vl.toNat ≤ t.vstart.toNat then s
  else if n = 0 ∨ !stopsInside w then s.upd k (·.insideAt t.vstart.toNat)
  else if t.vl.toNat ≤ e then s
  else
    -- the beats before element e: the tail that a lower VL has is no tail of the instruction
    match exec (instrOf w) (s.upd k (fun t => { t with vl := BitVec.ofNat 13 e, vtype := t.vtype &&& ~~~0x20 })) with
    | .next s' =>
      if (s'.strand k).level = .user ∧ (s'.strand k).pc = t.pc + 4 then
        s'.upd k (fun u => ({ u with vl := t.vl, vtype := t.vtype, pc := t.pc } : Strand).insideAt e)
      else s
    | _ => s
/-- The state in which PREEMPT_SAVE_COMPLETE finds strand k: at the boundary between two instructions, or inside a vector compute
instruction that has issued (R208). -/
def preemptedInside (k : Nat) (s : State) : State :=
  let t := s.strand k
  if !stopsHere s k ∨ t.wait ≠ {} ∨ t.chain.isSome ∨ (endedKernel s k).isSome ∨ uiDue s k then s
  else
    match Config.beatsDone s.tick with
    | 0 => s
    | n + 1 =>
      match fetchWord { s with actor := .strand k } with
      | .ok w s' => if computes w then insideNext s' k w n else s
      | .error _ _ => s

end

end Sys2Proof.Machine
end

