-- ==== Sys2Proof/Machine/Schedule.lean ====
section
/-! DEFINITION. What comes next (assumptions 3 and 7): which strands and cells may act, which of the machine's own events may
be due, and what a step accounts for besides its instruction: time (R492, R495), yield (R420), chain records (R190) and debug
halt (R499). -/

namespace Sys2Proof.Machine
open Sys2Proof

noncomputable section

/-! ## Who may act -/

/-- A yield holds the strand back (R420). -/
def heldBack (s : State) (t : Strand) : Bool :=
  match t.hold with
  | some h => !h.others.isEmpty && decide (s.cycle.toNat < h.until_)
  | none => false
/-- Strand k may issue its next instruction: it works (R483), it is not ending (R501), its core is neither halted (R499) nor
fenced (R514), no trap of it waits for its task to emerge (R453), and no yield holds it back (R420). A strand that waits issues
its instruction again. -/
def mayIssue (s : State) (k : Nat) : Bool :=
  let t := s.strand k
  t.works && !t.ending && !(s.coreRegs (coreOf k)).halted && !(s.coreRegs (coreOf k)).fenced && !heldBack s t &&
  !(s.specTask k).any (fun p => p.2.held.isSome) && !s.dev.inReset

/-- The actors that may act, strands first. -/
def actors (s : State) : List Actor :=
  ((s.strands.map (·.1)).filter (mayIssue s)).map Actor.strand ++
  (s.invs.filter (fun p => p.2.running)).flatMap (fun p =>
    ((List.range 64).filter (fun c => (cellReissue s p.1 c).isSome || (cellMayFire s p.1 c && (cellWordAt s p.1 c).isSome))).map (Actor.cell p.1))
/-- The actor that follows another one in a list, round and round. -/
def after (l : List Actor) (a : Actor) : Option Actor := (((l.dropWhile (· != a)).drop 1).head?).or l.head?

/-! ## Events of the machine's own that may be due -/

/-- Events of the copy engines (R370, R383) and of the waits of strands. -/
def strandTurns (s : State) : List Instr :=
  s.strands.flatMap (fun p =>
    (p.2.chan.toList.zipIdx.flatMap (fun c =>
      match oldest c.1 with
      | some x => [Instr.transferComplete p.1 c.2 x.id.toNat, Instr.transferFault p.1 c.2]
      | none => [])) ++
    (if p.2.ending then [Instr.strandEnd p.1] else []) ++
    (if p.2.status == .stopping then [Instr.preemptSaveComplete p.1] else []) ++
    (if p.2.status == .restoring then [Instr.scmdRestore p.1] else []) ++
    (if p.2.wait.since.isSome || s.cells.any (fun c => c.1 / 64 == p.1 && c.2.wait.since.isSome) then [Instr.memTimeout p.1] else []) ++
    (if p.2.level == .executive && p.2.f.fewd != 0 then [Instr.executiveWatchdog p.1] else []))
/-- Flits that may move on, and output that may be taken (R327, R349). -/
def fabricMoves (s : State) : List Instr :=
  s.invs.flatMap (fun p =>
    match fxEnv s p.1 with
    | none => []
    | some v =>
      if v.inv.stop.isSome then []
      else
        (v.conf.wires.filter (fun w => (hopToMove s p.1 v w.entry w).isSome)).map (fun w => Instr.flitTransfer p.1 (w.entry / 16) (w.entry % 16)) ++
        (if v.inv.out.isEmpty || v.inv.outEos then [] else [Instr.streamOutputTake p.1]))
/-- Events of running invocations (R327, R332, R337, R340, R349, R350). -/
def fabricTurns (s : State) : List Instr :=
  s.invs.flatMap (fun p =>
    match fxEnv s p.1 with
    | none => []
    | some v =>
      (if v.inv.stop.isSome then [Instr.fabricStop p.1] else []) ++
      v.inv.loading.map (fun g => Instr.pageContextLoadComplete p.1 g) ++
      ((List.range (8 * v.img.pages.length)).filter (fun c => !cellDone s p.1 c v.img && (cellWordAt s p.1 c).isNone)).map
        (fun c => Instr.blockFetchComplete p.1 c) ++
      [Instr.streamInputDelivery p.1 false, Instr.streamInputDelivery p.1 true, Instr.streamOutputTake p.1] ++
      (if invComplete s p.1 v && !fxCanAct s p.1 v then [Instr.invocationComplete p.1] else []) ++
      (if deadlocked s p.1 v then [Instr.fabricDeadlock p.1] else []))
/-- Events of the launch unit, the kernels and the placement groups (R66, R68 to R75, R90, R492). -/
def launchTurns (s : State) : List Instr :=
  (if s.lu.queues.isEmpty then [] else [Instr.quantumBoundary]) ++
  s.lu.slots.flatMap (fun p =>
    match p.2.state with
    | .loading => [Instr.slotLoadComplete p.1]
    | .blocked => [Instr.depPoll p.1]
    | .active => [Instr.recordAccept]
    | .draining => [Instr.recordAccept]
    | _ => []) ++
  s.kernels.flatMap (fun p =>
    if p.2.state == .ending then [Instr.kernelCompletion p.1]
    else if !p.2.checked then [Instr.imageCheck p.1]
    else [Instr.heartbeatExpire p.1, Instr.runtimeExpire p.1] ++ p.2.toPlace.flatMap (fun d => [Instr.placementEvent d.1, Instr.backfillStop d.1]))
/-- Events of the homes, the pools and the other units (R251, R299, R303, R316, R417, R429, R443, R464, R499). -/
def otherTurns (s : State) : List Instr :=
  s.pending.map (fun p => Instr.registration p.core p.word) ++
  s.refused.map (fun p => Instr.requestResend p.core p.word) ++
  s.busy.map (fun p => if p.2.inv then Instr.snoopInvalidate p.2.line else Instr.snoopData p.2.line) ++
  ((s.tiles.filter (fun p => p.2.busy)).map (fun p => Instr.tileZeroComplete (p.1 / 4) (p.1 % 4))) ++
  s.groups.flatMap (fun p => (p.2.bars.filter (fun b => b.2.shown.isSome)).map (fun b => Instr.linkedPhaseSeen p.1 b.1)) ++
  (s.fslots.filter (fun p => p.2.pending.isSome)).map (fun p => Instr.forecastDecision (p.1 / 64) (p.1 % 64)) ++
  (s.solvers.filter (fun p => p.2.phase.isSome)).flatMap (fun p => [Instr.sqStageLaunch p.1, Instr.sqStageComplete p.1, Instr.sqDecision p.1]) ++
  (s.confs.filter (fun p => !p.2.moving.isEmpty)).map (fun p => Instr.pageMoveEnd (p.1 / 2 ^ 21) (p.1 % 2 ^ 21 / 32) (p.1 % 32)) ++
  (s.cores.filter (fun p => p.2.halted && !p.2.settled)).map (fun p => Instr.debugSettleTimeout p.1) ++
  (if s.atsWaits.isEmpty then [] else [Instr.memTimeout 384])
/-- The events that may be due. What comes from outside the package is not among them: the agenda brings it in (assumption 11). -/
def turns (s : State) : List Instr :=
  if s.dev.inReset then [] else strandTurns s ++ fabricTurns s ++ launchTurns s ++ otherTurns s

/-- The event that the default schedule takes next, if any: flits move on after every other step, and every fourth step is followed by an event that may be due, each in its turn; more often when nobody may act. -/
def nextEvent (s : State) (idle : Bool) : Option Instr :=
  match (if s.tick % 2 = 1 then fabricMoves s else []) with
  | i :: _ => some i
  | [] =>
    if s.tick % 4 = 2 || idle then
      let e := turns s
      e[s.tick / 4 % e.length]?
    else none
/-- The default schedule (assumption 3): where nothing is planned, the actors take turns, with the machine's own events between
them. -/
def plan (s : State) : State :=
  if !s.agenda.isEmpty || !s.effects.isEmpty then s
  else
    let l := actors s
    match nextEvent s l.isEmpty with
    | some i => { s with agenda := [.event i] }
    | none => { s with actor := (after l s.actor).getD s.actor }

/-! ## What a step accounts for -/

/-- A strand of the kernel with this key holds its watchdogs (R495). -/
def kwdHeld (s : State) (key : Nat) : Bool :=
  s.groups.any (fun p => p.2.kernel == key && p.2.keys.any (fun k => (s.strand k).e.kwdHold))
/-- The counts of a kernel after ns nanoseconds (R492, R495): the time since its last progress, and since its acceptance, less the
time it was held or suspended. -/
def Kernel.ages (k : Kernel) (held : Bool) (ns : Nat) : Kernel :=
  if held || k.state == .suspendedHung then k else { k with idleNs := k.idleNs + ns, runNs := k.runNs + ns }
/-- Time passes: arithmetic-clock cycles and nanoseconds (R341, R492; assumption 5). -/
def elapse (s : State) (cycles ns : Nat) : State :=
  let s := if s.invs.isEmpty then s else countDeadlock s cycles
  { s with
    tick := s.tick + 1, cycle := s.cycle + BitVec.ofNat 64 cycles, timeNs := s.timeNs + BitVec.ofNat 64 ns
    kernels := s.kernels.map (fun (p : Nat × Kernel) => (p.1, p.2.ages (kwdHeld s p.1) ns)) }
/-- A strand issues (R420): its own yield is over, and yields of its core wait for it no longer. -/
def issues (s : State) (k : Nat) : State :=
  if (s.strand k).hold.isNone && !(upFrom (3 * coreOf k) 3).any (fun j => (s.strand j).hold.isSome) then s
  else
    (upFrom (3 * coreOf k) 3).foldl (fun s j =>
      if (s.strand j).hold.isSome then
        s.upd j (fun t => { t with hold := if j = k then none else t.hold.map (fun h => { h with others := nsErase h.others k }) })
      else s) s
/-- A recorded instruction that ran on strand k leaves its chain record (R190): before is the strand when it began. An fx completes by
itself. -/
def chainStep (before : Strand) (k : Nat) (s : State) : State :=
  if before.chain.isSome && before.level == .user && (s.strand k).level == .user && (s.strand k).pc == before.pc + 4 then
    s.upd k (·.chainDone)
  else s
/-- Halted cores settle as their transfers land (R499). -/
def settleAll (s : State) : State :=
  s.cores.foldl (fun s p => settle s p.1) s
/-- What goes on by itself: retirements are noted (R76), power and temperature are measured (R508), homes serve what they can (R303), strip fetches that waited (R388), tasks become ready (R429), the launch unit goes on with what waits, and
ATS invalidations are completed (R509). -/
def goOn (s : State) : State := sendInvalidations (luSweep (readySweep (prefetchSweep (serveHomes (measure (noteRetired s))))))
/-- The end of every step: time passes, halted cores settle, and the next step is planned. -/
def finish (s : State) : State :=
  plan (settleAll (goOn (elapse s (1 + Config.extraCycles s.tick) (Config.nanoseconds s.tick))))

end

end Sys2Proof.Machine
end

