-- ==== Sys2Proof/Machine/Step.lean ====
section
/-! DEFINITION. One step of the machine: a planned turn, or else the next instruction of the actor. -/

namespace Sys2Proof.Machine
open Sys2Proof

noncomputable section

/-- The outcome with its next state changed. -/
def andNext (o : Out) (f : State → State) : Out :=
  match o with
  | .next s => .next (f s)
  | .fault e => .fault e
  | .refused r => .refused r

/-- The acting strand k fetches and executes its next instruction; a user-level interrupt comes before it (R422). -/
def strandActs (k : Nat) (s : State) : Out :=
  if !mayIssue s k then .next s
  else if (s.strand k).status = .running ∧ uiDue s k then .next (deliverUi s k)
  else if atZero s k then .next (arriveAtZero s k)
  else
    let s := (issues s k).upd k (·.leaveRecord)
    match fetchWord s with
    | .ok w s' => andNext (exec (instrOf w) s') (chainStep (s.strand k) k)
    | .error (.trap t) s' => .next (raise s' t)
    | .error .wait s' => .next s'.block

/-- The acting cell c of strand k makes a withdrawn store again, or executes its next instruction. -/
def cellActs (k c : Nat) (s : State) : Out :=
  if let some x := cellReissue s k c then reissueStore x s
  else if !cellMayFire s k c then .next s
  else
    match cellWordAt s k c with
    | some w => if (cellOp w).isSome then exec (instrOf w) s else .next s
    | none => .next s

/-- Whoever is the actor acts. -/
def act (s : State) : Out :=
  match s.actor with
  | .strand k => strandActs k s
  | .cell k c => cellActs k c s

/-- A row of the table that is no word: the machine's own event or one from outside. -/
def isEvent (i : Instr) : Bool := (encode i).isNone

/-- The state in which an event finds the machine: a strand that is saved is stopped between the beats of an instruction, too (R208). -/
def foundBy (i : Instr) (s : State) : State :=
  match i with
  | .preemptSaveComplete k => preemptedInside k s
  | _ => s

/-- A planned turn is taken. -/
def takeTurn (t : Turn) (s : State) : Out :=
  match t with
  | .act a => act { s with actor := a }
  | .event i => if isEvent i then exec i (foundBy i s) else .next s
  | .doorbell q v k => .next (doorbell s q v k)
  | .register o v => .next (registerEffect s o v)
  | .kcmd c k => .next (kernelCommand s c k)
  | .fabricStop k => exec (.fabricStop k) s
  | .place d => exec (.placementEvent d) s
  | .outside o => .next (outsideEffect o s)
  | .fill k n j => execCocoonFill k n j s

/-- One step: the effects that stores to device registers set off come first, then what is planned, then the actor. -/
def step (s : State) : Host.Outcome State Fault Refusal :=
  andNext
    (match s.effects, s.agenda with
     | t :: rest, _ => takeTurn t { s with effects := rest }
     | [], t :: rest => takeTurn t { s with agenda := rest }
     | [], [] => act s) finish

/-- The state with an instruction word at physical and virtual address 4, as strand 0, which acts, fetches it next: the strand
runs at user level with PC 4, and its core's TLB holds the translation of page 0 (assumption 2). -/
def State.withFetchWord (s : State) (_nbits w : Nat) : State :=
  { s with
    mem := Mem.writeN s.mem 4 4 w
    tlb := { core := 0, asid := (s.strand 0).e.asid, vbase := 0, size := 4096, pbase := 0, cls := .n, cp := false, pr := false
             r := true, w := true, x := true, u := true, dirty := true } :: s.tlb
    strands := sput s.strands 0 { s.strand 0 with status := .running, pc := 4, level := .user }
    icache := [], agenda := [], effects := [], actor := .strand 0 }

end

end Sys2Proof.Machine
end

