-- ==== Sys2Proof/Safety.lean ====
section
/-! DEFINITION. The terms in which the statements speak of a step and of an instruction's execution: what completes, what an instruction
leaves unchanged, and what counts as a safe run. -/

namespace Sys2Proof.Machine
open Sys2Proof

/-- Executing i in s answers a next state, and P holds of it. -/
def Runs (i : Instr) (s : State) (P : State → Prop) : Prop := ∃ t, exec i s = .next t ∧ P t

/-- From s to t strand k becomes p; no other strand changes, and nothing else of the machine does. -/
def StrandBecomes (s : State) (k : Nat) (p : Strand) (t : State) : Prop :=
  t.strand k = p ∧ (∀ j, j ≠ k → t.strand j = s.strand j) ∧ { t with strands := s.strands } = s

/-- A strand after an instruction that completes, with everything else as before: the next instruction is next, and no wait is in
progress. -/
def Strand.onward (p : Strand) : Strand := { p with pc := p.pc + 4, wait := {} }
/-- A strand after an instruction that completes with v written to register d; x0 discards it. -/
def Strand.gives (p : Strand) (d : Reg) (v : Dword) : Strand := { p.onward with x := writeX p.x d v }

/-- From s to t cell context j works on with v written to register d, its PC going to v'; no other cell, and no strand, no
memory, no register outside changes. -/
def CellBecomes (s : State) (k j : Nat) (x : Vector Dword 16) (pc : Dword) (t : State) : Prop :=
  (t.cell j).x = x ∧ (t.cell j).pc = pc ∧ (∀ i, i ≠ j → t.cell i = s.cell i) ∧
  (∀ i, i ≠ k → sfind t.invs i = sfind s.invs i) ∧ { t with cells := s.cells, invs := s.invs } = s

/-- A strand without its links (R289) and the all-zero flags of its rings (R195), which a write by any strand may end. -/
def Strand.unflagged (p : Strand) : Strand := { p with links := [], rings := p.rings.map (fun r => { r with zero := [] }) }

/-- Address ea of n bytes is aligned and lies in a local window of strand k (R133, R266), no cocoon is mapped, and no task of the
strand runs in a chrysalis: the access goes to the flat address localFlat gives. -/
def LocalAccess (s : State) (k : Nat) (ea : Dword) (n : Nat) : Prop :=
  ea.toNat % n = 0 ∧ winCode ea ≠ 0 ∧ winCode ea ≠ 0xFE ∧ (∃ size, windowSize s k (winCode ea) = some size ∧ winOff ea < size) ∧
  s.cocoons = [] ∧ s.specTask k = none
/-- The flat address of ea for strand k, in lane 0. -/
def flatOf (s : State) (k : Nat) (ea : Dword) : Nat := localFlat s k (winCode ea) (winOff ea) 0
/-- No word of the n bytes at flat address f is poisoned. -/
def Unpoisoned (s : State) (f n : Nat) : Prop := f / 4 ∉ s.poison ∧ (n = 8 → f / 4 + 1 ∉ s.poison)
/-- Byte i of v. -/
def byteOf (v i : Nat) : Byte := BitVec.ofNat 8 (v / 256 ^ i)
/-- From s to t the n bytes at f become those of v, and no other byte of memory changes; memory stays canonical. -/
def Stores (s t : State) (f n v : Nat) : Prop :=
  Memory.wf t.mem = true ∧ ∀ a, Mem.read t.mem a = if f ≤ a ∧ a < f + n then byteOf v (a - f) else Mem.read s.mem a

/-- The slot of a queue is ready for its reader (R193): it has landed, it is without poison in the elements read, and a cocoon of another core that lies
over one of them is filled (R308). -/
def QueueReads (s : State) (k : Nat) (q : Queue) (w : Nat) (reads : Nat → Prop) : Prop :=
  queueReady s q 0 = .ok () ∧ ∀ i, reads i → queuePoisoned s q 0 w i = false ∧
    match q with
    | .ring n =>
      let r := s.ring k n
      let a := ringSlotAddr r r.head.toNat
      (i + 1) * w / 8 ≤ r.slotBytes → ∃ u, sectorReady s (localFlat s k (winCode a) (winOff a + i * w / 8) 0) .read i = .ok u
    | .relay _ => True
/-- The operands of a vector instruction of strand k can be read (R112, R114, R178, R192 to R194): every group is aligned and lies in the strand's
window, and a queue operand is named rightly and has a slot ready, without poison in the elements that the instruction reads, and with the
cocoon of another core that lies over one of them filled (R308). -/
def VectorReadyFor (s : State) (k : Nat) (groups : List (Nat × Nat)) (va : VSrc) (w : Nat) (reads : Nat → Prop) : Prop :=
  (∀ g ∈ groups, g.1 % g.2 = 0 ∧ g.1 + g.2 ≤ (s.strand k).window) ∧
  match va with
  | .vreg _ => True
  | .queue q => queueName s q = .ok () ∧ (s.idle = false → QueueReads s k q w reads)
/-- The operands of a vector instruction of strand k are named rightly (R112, R178, R192, R194): its groups are aligned and lie in the window, and a queue
operand exists, and in solo mode is not empty where the instruction reads it. -/
def VectorNamed (s : State) (k : Nat) (groups : List (Nat × Nat)) (va : VSrc) : Prop :=
  (∀ g ∈ groups, g.1 % g.2 = 0 ∧ g.1 + g.2 ≤ (s.strand k).window) ∧
  match va with
  | .vreg _ => True
  | .queue q => queueName s q = .ok () ∧ (s.idle = false → ∀ x, queueReady s q 0 ≠ .error (.trap x))
/-- The groups of n registers that a va operand and a vb operand name. -/
def sourceGroups (va : VSrc) (vb : VbSrc) (n : Nat) : List (Nat × Nat) :=
  (match va with | .vreg v => [(v.toNat, n)] | .queue _ => []) ++ (match vb with | .vreg v => [(v.toNat, n)] | .xreg _ => [])
/-- The value (−1)^neg × m × 2^e. -/
def valueOf (neg : Bool) (m : Nat) (e : Int) : ℚ := (if neg then -1 else 1) * (m : ℚ) * (2 : ℚ) ^ e
/-- m × 2^e rounds as a value x, which is not below zero, does in a format of fb fraction bits: it is x itself, or m is odd and x lies strictly between
(m − 1) × 2^e and (m + 1) × 2^e, where no rounding position and no midpoint of the format lies, since m has at least four bits more than the
format keeps. below, equal and above say of a value that it is below x, x, and above x. -/
def StandsFor (fb m : Nat) (e : Int) (below : ℚ → Prop) (equal : ℚ → Prop) (above : ℚ → Prop) : Prop :=
  2 ^ (fb + 4) ≤ m ∧ (equal (valueOf false m e) ∨ (m % 2 = 1 ∧ below (valueOf false (m - 1) e) ∧ above (valueOf false (m + 1) e)))
/-- Instruction i of strand k in s waits in its release (R303), which it comes to in state u: the registrations that it asks for are outstanding from its first try on, and once they have been for
4 ms it takes MEM_TIMEOUT. The address of that trap is the model's choice (assumption 59). -/
def ReleaseWaitsFrom (i : Instr) (s : State) (k : Nat) (u : State) : Prop :=
  let p := u.strand k
  (p.wait.verdict = some .memTimeout → p.wait.out = none → ∃ a, Runs i s (fun t => t = raise u ⟨.memTimeout, a, 0⟩)) ∧
  (¬(p.wait.verdict = some .memTimeout ∧ p.wait.out = none) → Runs i s (StrandBecomes u k
    { p with wait := { p.wait with blocked := true, since := some (p.wait.since.getD u.timeNs.toNat), out := none } }))
/-- The same, where nothing comes before the release. -/
def ReleaseWaits (i : Instr) (s : State) (k : Nat) : Prop := ReleaseWaitsFrom i s k s
/-- An element is processed (R183, R184, R206): it lies from VSTART to vl − 1, and its mask bit, or the negation of it, is set. m0 holds 4,096 ones. -/
abbrev Processed (p : Strand) (m : Msk) (i : Nat) : Prop :=
  p.vstart.toNat ≤ i ∧ i < p.vl.toNat ∧ ((if m.m = 0 then i < 4096 else (p.m[m.m.toNat]'m.m.isLt).getLsbD i = true) ↔ m.neg = false)
/-- The operands of an instruction under mask m can be read: it reads the processed elements (R193, R206). -/
def VectorReady (s : State) (k : Nat) (groups : List (Nat × Nat)) (va : VSrc) (w : Nat) (m : Msk) : Prop :=
  VectorReadyFor s k groups va w (Processed (s.strand k) m)
/-- What element i of a destination holds afterwards (R183, R186), where its result would be new and it held old. -/
def afterPolicy (p : Strand) (m : Msk) (i new old : Nat) : Nat :=
  if p.vl.toNat ≤ p.vstart.toNat ∨ i < p.vstart.toNat then old
  else if i < p.vl.toNat then (if Processed p m i then new else if p.vtype.getLsbD 6 then 0 else old)
  else if p.vtype.getLsbD 5 then 0 else old
/-- From s to t the group at vd of strand k holds, in its n elements of width w, the results f under the policies of p, and every other physical
vector register keeps its value. -/
def VectorWritesAs (p : Strand) (s t : State) (k vd w n : Nat) (m : Msk) (f : Nat → Nat) : Prop :=
  (∀ i, i < n → vget t k vd w i = afterPolicy p m i (f i % 2 ^ w) (vget s k vd w i)) ∧
  (∀ c, (∀ i, i < n → c ≠ s.vkey k (vd + i * w / 4096)) → sget 0 t.vregs c = sget 0 s.vregs c)
/-- The same under the policies of the strand itself. -/
def VectorWrites (s t : State) (k vd w n : Nat) (m : Msk) (f : Nat → Nat) : Prop := VectorWritesAs (s.strand k) s t k vd w n m f
/-- An elementwise vector instruction i of strand k completes (R168, R183, R186, R206): its destination group receives the results f, the flags
of the processed elements accrue, VSTART is 0, the slot a queue operand read is popped, and nothing else but the PC changes. -/
def VectorResult (i : Instr) (s : State) (k : Nat) (va : VSrc) (vd w n : Nat) (m : Msk) (f : Nat → FRes) : Prop :=
  Runs i s (fun t =>
    let q := if s.idle then s else vaPop s va
    let p := s.strand k
    VectorWrites s t k vd w n m (fun i => (f i).1) ∧
    t.strand k = { (q.strand k).onward with vstart := 0, fflags := (t.strand k).fflags } ∧
    (∀ b, (t.strand k).fflags.getLsbD b = true ↔ p.fflags.getLsbD b = true ∨ ∃ i, Processed p m i ∧ (f i).2.getLsbD b = true) ∧
    (∀ j, j ≠ k → t.strand j = q.strand j) ∧ { t with strands := s.strands, vregs := s.vregs } = s)

/-- From s to t a vector instruction of strand k is through (R168, R183, R193): the strand is as p makes it, once the slot that a queue operand
read is popped, VSTART is 0 and the next instruction is next; its flags hold those of before and fl; nothing else but vector registers changes. -/
def VectorEnds (s : State) (k : Nat) (va : VSrc) (fl : BitVec 6) (p : Strand → Strand) (t : State) : Prop :=
  let q := if s.idle then s else vaPop s va
  t.strand k = p { (q.strand k).onward with vstart := 0, fflags := (s.strand k).fflags ||| fl } ∧
  (∀ j, j ≠ k → t.strand j = q.strand j) ∧ { t with strands := s.strands, vregs := s.vregs } = s
/-- From s to t every physical vector register but those of the n registers at vd of strand k keeps its value. -/
def OthersKept (s t : State) (k vd n : Nat) : Prop := ∀ c, (∀ i, i < n → c ≠ s.vkey k (vd + i)) → sget 0 t.vregs c = sget 0 s.vregs c
/-- From s to t an elementwise instruction that may draw (R164) is through. G is the strand's generators before each element in ascending order: a processed
element whose result drew moves on the generator of its lane, index mod 32, and f makes its result from the draw of that generator. -/
def DrawsWrites (s t : State) (k : Nat) (va : VSrc) (vd w n : Nat) (m : Msk) (f : Nat → Nat → Rnd) : Prop :=
  let q := if s.idle then s else vaPop s va
  let p := s.strand k
  ∃ G : Nat → Vector Word 32,
    let r (j : Nat) : Rnd := f (drawBits ((G j)[j % 32]'(Nat.mod_lt _ (by decide)))) j
    G 0 = p.srgen ∧
    (∀ j, G (j + 1) = if Processed p m j ∧ (r j).drew = true
      then (G j).set (j % 32) (drawNext ((G j)[j % 32]'(Nat.mod_lt _ (by decide)))) (Nat.mod_lt _ (by decide)) else G j) ∧
    VectorWrites s t k vd w n m (fun j => (r j).bits) ∧
    t.strand k = { (q.strand k).onward with vstart := 0, fflags := (t.strand k).fflags, srgen := G p.vl.toNat } ∧
    (∀ b, (t.strand k).fflags.getLsbD b = true ↔ p.fflags.getLsbD b = true ∨ ∃ j, Processed p m j ∧ (r j).flags.getLsbD b = true) ∧
    (∀ j, j ≠ k → t.strand j = q.strand j) ∧ { t with strands := s.strands, vregs := s.vregs } = s
/-- From s to u an elementwise instruction that may draw is stopped by a trap at element i (R164, R222, R475): the elements below i hold their results, drawn
and with their flags, VSTART is i, and nothing else changes. -/
def DrawsUpTo (s u : State) (k vd w n : Nat) (m : Msk) (f : Nat → Nat → Rnd) (i : Nat) : Prop :=
  let p := s.strand k
  ∃ G : Nat → Vector Word 32,
    let r (j : Nat) : Rnd := f (drawBits ((G j)[j % 32]'(Nat.mod_lt _ (by decide)))) j
    G 0 = p.srgen ∧
    (∀ j, G (j + 1) = if Processed p m j ∧ (r j).drew = true
      then (G j).set (j % 32) (drawNext ((G j)[j % 32]'(Nat.mod_lt _ (by decide)))) (Nat.mod_lt _ (by decide)) else G j) ∧
    (∀ j, j < n → vget u k vd w j = if j < i then afterPolicy p m j ((r j).bits % 2 ^ w) (vget s k vd w j) else vget s k vd w j) ∧
    (∀ c, (∀ j, j < n → c ≠ s.vkey k (vd + j * w / 4096)) → sget 0 u.vregs c = sget 0 s.vregs c) ∧
    u.strand k = { p with vstart := BitVec.ofNat 13 i, fflags := (u.strand k).fflags, srgen := G i } ∧
    (∀ b, (u.strand k).fflags.getLsbD b = true ↔ p.fflags.getLsbD b = true ∨ ∃ j, j < i ∧ Processed p m j ∧ (r j).flags.getLsbD b = true) ∧
    (∀ j, j ≠ k → u.strand j = s.strand j) ∧ { u with strands := s.strands, vregs := s.vregs } = s
/-- An elementwise instruction i that may draw completes. -/
def DrawsResult (i : Instr) (s : State) (k : Nat) (va : VSrc) (vd w n : Nat) (m : Msk) (f : Nat → Nat → Rnd) : Prop :=
  Runs i s (fun t => DrawsWrites s t k va vd w n m f)
/-- Instruction i completes with a mask (R184, R186, R225, R226): bit j of md, below n, holds what the policies make of f; bits from n on, every other
mask and, for md 0, every mask stay; the flags of the processed elements accrue. -/
def MaskResult (i : Instr) (s : State) (k : Nat) (va : VSrc) (md : BitVec 3) (n : Nat) (m : Msk) (f : Nat → Bool × BitVec 6) : Prop :=
  Runs i s (fun t =>
    let q := if s.idle then s else vaPop s va
    let p := s.strand k
    (∀ c : Fin 8, ∀ j, ((t.strand k).m[c]).getLsbD j = if c.val = md.toNat ∧ md ≠ 0 ∧ j < n
      then afterPolicy p m j (f j).1.toNat (p.m[c].getLsbD j).toNat == 1 else p.m[c].getLsbD j) ∧
    t.strand k = { (q.strand k).onward with vstart := 0, fflags := (t.strand k).fflags, m := (t.strand k).m } ∧
    (∀ b, (t.strand k).fflags.getLsbD b = true ↔ p.fflags.getLsbD b = true ∨ ∃ j, Processed p m j ∧ (f j).2.getLsbD b = true) ∧
    (∀ j, j ≠ k → t.strand j = q.strand j) ∧ { t with strands := s.strands } = s)
/-- The elements that take part in a reduction, in order (R228). -/
def parts (s : State) (k : Nat) (va : VSrc) (m : Msk) (w : Nat) : List Nat :=
  ((List.range (s.strand k).vl.toNat).filter (fun i => decide (Processed (s.strand k) m i))).map (vaElem s va w)
/-- Instruction i takes ILLEGAL_INSTRUCTION with its word. -/
def Illegal (i : Instr) (s : State) : Prop := ∀ w, encode i = some w → Runs i s (· = raise s ⟨.illegalInstruction, w.zeroExtend 64, 0⟩)

/-- The accesses acc of the elements of a list, one after another from s, all answer: with the values vs, leaving t; the same agent acts throughout. -/
def Accesses {α : Type} (acc : Nat → M α) : State → List Nat → List α → State → Prop
  | s, [], vs, t => vs = [] ∧ t = s
  | s, i :: l, vs, t => ∃ v u r, acc i s = .ok v u ∧ u.actor = s.actor ∧ vs = v :: r ∧ Accesses acc u l r t
/-- The elements that a memory instruction of strand k performs: those processed whose completion bit is clear (R276), or all those processed where
the instruction does not consult cm. -/
def elements (p : Strand) (m : Msk) (precise : Bool) : List Nat :=
  (List.range p.vl.toNat).filter (fun i => decide (Processed p m i) && !(precise && p.cm.getLsbD i))
/-- A strand's vector control, as its accesses leave it. -/
def SameControl (p q : Strand) : Prop := q.vl = p.vl ∧ q.vstart = p.vstart ∧ q.vtype = p.vtype ∧ q.m = p.m ∧ q.cm = p.cm ∧ q.e.vwin = p.e.vwin
/-- From u to t a vector memory instruction of strand k is through, after accesses that left u: VSTART is 0, the next instruction is next, cm is
zero where it was precise, and nothing else but vector registers changes. -/
def AccessEnds (u : State) (k : Nat) (precise : Bool) (p : Strand → Strand) (t : State) : Prop :=
  t.strand k = p { (u.strand k).onward with vstart := 0, cm := if precise then 0 else (u.strand k).cm } ∧
  (∀ j, j ≠ k → t.strand j = u.strand j) ∧ { t with strands := u.strands, vregs := u.vregs } = u

/-- The special registers whose fields are stored as written, each with the mask of its fields (R115, R478, R479; FRM and VSLIP, the
stream positions, the copy identifiers, the loop counters and the exception registers among them). -/
def plainSpecials : List (BitVec 12 × Dword) :=
  [(0x003, 0x7), (0x004, 0x3F), (0x005, 0x7), (0x006, 0xFFFFFFFFFFFFFFFF), (0x008, 0xFFFFFFFFFFFFFFFF), (0x00B, 0xFFFFFFFF),
   (0x00C, 0xFFFFFFFFFFFFFFFF), (0x010, 0xFFFFFFFF), (0x011, 0xFFFFFFFF), (0x012, 0xFFFFFFFF), (0x013, 0xFFFFFFFF)] ++
  [(0x01A, 0x3F), (0x01B, 0xFFFFFFFFFFFFFFFF), (0x020, 0xFFFFFFFF), (0x021, 0xFFFFFFFF), (0x022, 0xFFFFFFFF), (0x023, 0xFFFFFFFF),
   (0x024, 0xFFFFFFFF), (0x025, 0xFFFFFFFF), (0x026, 0xFFFFFFFF), (0x027, 0xFFFFFFFF)] ++
  [(0x030, 0xFFFFFFFFFFFFFFFF), (0x031, 0xFFFFFFFFFFFFFFFF), (0x032, 0xFFFFFFFFFFFFFFFF), (0x033, 0xFFFFFFFFFFFFFFFF),
   (0x101, 0xFFFFFFFFFFFFFFFF), (0x102, 0xFF), (0x103, 0xFFFFFFFFFFFFFFFF), (0x104, 0xFFFFFFFF), (0x105, 0xFFFFFFFFFFFFFFFC),
   (0x106, 0xFFFFFFFFFFFFFFFF)] ++
  [(0x108, 0xFFFFFFFFFFFFFFFD), (0x109, 0xFFFFFFFFFFFFFFFD), (0x10A, 0xFFFFFFFFFFFFFFFD), (0x10B, 0xFFFFFFFFFFFFFFFD),
   (0x10C, 0xFF1FFF1FFF), (0x10D, 0xFF1FFF1FFF), (0x10E, 0xFF1FFF1FFF), (0x10F, 0xFF1FFF1FFF), (0x110, 0xFFFF),
   (0x111, 0xFFFFFFFFF0000), (0x112, 0xFF), (0x114, 0x1)] ++
  [(0x201, 0xFFFFFFFFFFFFFFFF), (0x202, 0xFF), (0x203, 0xFFFFFFFFFFFFFFFF), (0x204, 0xFFFFFFFF), (0x205, 0xFFFFFFFFFFFFFFFC),
   (0x206, 0xFFFFFFFFFFFFFFFF), (0x207, 0x3), (0x208, 0xFFFFFFFF)]

/-- A step of the machine that goes on. -/
def GoesOn (s : State) : Prop := ∃ t, step s = .next t

end Sys2Proof.Machine
end

