-- ==== Sys2Proof/Certificates/Slice0/Obligations.lean ====
section
/-! DEFINITION. The statements for the provers, each with the rules of the spec it follows. -/

open Sys2Proof Sys2Proof.Machine

/-- R128, R129: what each two-operand ALU operation writes into xd, and that it changes nothing else but the PC. R128: clz, ctz, popc and bswap, said by the bits of the operand: n leading (trailing) zeros end at a one bit or at the
register's end, the count of one bits, and byte i of the result is byte 7 − i of the operand. Nothing else but the PC changes. R130, R131: what the immediate majors, lui and auipc write into xd; nothing else but the PC changes. -/
def Obligations.IntegerResult : Prop :=
  (∀ (s : State) (k : Nat) (d a b : Reg), s.actor = .strand k →
     let p := s.strand k
     let x := readX p.x a
     let y := readX p.x b
     let n := y.toNat % 64
     let Gives (i : Instr) (v : Dword) : Prop := Runs i s (StrandBecomes s k (p.gives d v))
     Gives (.add d a b) (x + y) ∧ Gives (.sub d a b) (x - y) ∧ Gives (.and d a b) (x &&& y) ∧ Gives (.or d a b) (x ||| y) ∧
     Gives (.xor d a b) (x ^^^ y) ∧ Gives (.andn d a b) (x &&& ~~~y) ∧ Gives (.orn d a b) (x ||| ~~~y) ∧
     Gives (.sll d a b) (x <<< n) ∧ Gives (.srl d a b) (x >>> n) ∧ Gives (.sra d a b) (x.sshiftRight n) ∧
     Gives (.rotl d a b) (x.rotateLeft n) ∧ Gives (.rotr d a b) (x.rotateRight n) ∧
     Gives (.slt d a b) (if x.toInt < y.toInt then 1 else 0) ∧ Gives (.sltn d a b) (if x.toNat < y.toNat then 1 else 0) ∧
     Gives (.min d a b) (if x.toInt ≤ y.toInt then x else y) ∧ Gives (.max d a b) (if x.toInt ≤ y.toInt then y else x) ∧
     Gives (.minn d a b) (if x.toNat ≤ y.toNat then x else y) ∧ Gives (.maxn d a b) (if x.toNat ≤ y.toNat then y else x) ∧
     Gives (.mul d a b) (BitVec.ofInt 64 (x.toInt * y.toInt)) ∧
     Gives (.mulh d a b) ((BitVec.ofInt 128 (x.toInt * y.toInt)).extractLsb' 64 64) ∧
     Gives (.mulhn d a b) ((BitVec.ofNat 128 (x.toNat * y.toNat)).extractLsb' 64 64) ∧
     Gives (.div d a b) (if y = 0 then 0xFFFFFFFFFFFFFFFF
       else if x.toInt = -(2 ^ 63) ∧ y.toInt = -1 then BitVec.ofInt 64 (-(2 ^ 63)) else BitVec.ofInt 64 (x.toInt.tdiv y.toInt)) ∧
     Gives (.rem d a b) (if y = 0 then x
       else if x.toInt = -(2 ^ 63) ∧ y.toInt = -1 then 0 else BitVec.ofInt 64 (x.toInt - y.toInt * x.toInt.tdiv y.toInt)) ∧
     Gives (.divn d a b) (if y = 0 then 0xFFFFFFFFFFFFFFFF else BitVec.ofNat 64 (x.toNat / y.toNat)) ∧
     Gives (.remn d a b) (if y = 0 then x else BitVec.ofNat 64 (x.toNat % y.toNat))) ∧
  (∀ (s : State) (k : Nat) (d a : Reg), s.actor = .strand k →
     let p := s.strand k
     let x := readX p.x a
     let Gives (i : Instr) (v : Dword) : Prop := Runs i s (StrandBecomes s k (p.gives d v))
     (∃ n, n ≤ 64 ∧ Gives (.clz d a) (BitVec.ofNat 64 n) ∧ (∀ i, i < n → x.getLsbD (63 - i) = false) ∧ (n < 64 → x.getLsbD (63 - n) = true)) ∧
     (∃ n, n ≤ 64 ∧ Gives (.ctz d a) (BitVec.ofNat 64 n) ∧ (∀ i, i < n → x.getLsbD i = false) ∧ (n < 64 → x.getLsbD n = true)) ∧
     Gives (.popc d a) (BitVec.ofNat 64 ((List.range 64).countP (fun i => x.getLsbD i))) ∧
     (∃ v, Gives (.bswap d a) v ∧ ∀ i, i < 8 → v.extractLsb' (8 * i) 8 = x.extractLsb' (8 * (7 - i)) 8)) ∧
  (∀ (s : State) (k : Nat) (d a : Reg) (imm : BitVec 16) (n : BitVec 6) (up : BitVec 21), s.actor = .strand k →
     let p := s.strand k
     let x := readX p.x a
     let Gives (i : Instr) (v : Dword) : Prop := Runs i s (StrandBecomes s k (p.gives d v))
     Gives (.addi d a imm) (x + BitVec.ofInt 64 imm.toInt) ∧ Gives (.andi d a imm) (x &&& BitVec.ofNat 64 imm.toNat) ∧
     Gives (.ori d a imm) (x ||| BitVec.ofNat 64 imm.toNat) ∧ Gives (.xori d a imm) (x ^^^ BitVec.ofNat 64 imm.toNat) ∧
     Gives (.slti d a imm) (if x.toInt < imm.toInt then 1 else 0) ∧
     Gives (.sltni d a imm) (if x.toNat < (BitVec.ofInt 64 imm.toInt).toNat then 1 else 0) ∧
     Gives (.sllI d a n) (x <<< n.toNat) ∧ Gives (.srlI d a n) (x >>> n.toNat) ∧ Gives (.sraI d a n) (x.sshiftRight n.toNat) ∧
     Gives (.rotrI d a n) (x.rotateRight n.toNat) ∧
     Gives (.lui d up) (BitVec.ofInt 64 (up.toInt * 4096)) ∧ Gives (.auipc d up) (p.pc + BitVec.ofInt 64 (up.toInt * 4096)))

/-- R127: x0 reads as zero, a write to it is discarded, and a write to another register is read back and leaves the others. -/
def Obligations.RegisterFile : Prop :=
  ∀ (x : Vector Dword 32) (r q : Reg) (v : Dword),
    readX x 0 = 0 ∧ writeX x 0 v = x ∧ (r ≠ 0 → readX (writeX x r v) r = v) ∧ (q ≠ r → readX (writeX x r v) q = readX x q)

/-- R153: a cell executes the ALU operations and immediates on its own x0 to x15 with the effects they have on a strand. No strand, no memory, no other
cell and no other invocation changes. R153, R322: a branch of a cell whose condition holds goes to PC + 4 × sext(off13), any other to PC + 4; nothing else changes. R153, R338, R358: a load or store of a cell stands at its page's memory port: it waits for an earlier access of the port to a common byte, and is then one access of its width, whose trap
stops the invocation. In a local window it reads or writes exactly its bytes. Whether a byte is common is taken over the eight bytes from the earlier access's address on (assumption 32). R153, R139, R141: the floating-point operations of a cell give the results that they give on a strand, with code 7 as RNE, and keep no flag. -/
def Obligations.CellInteger : Prop :=
  (∀ (s : State) (k c : Nat) (d a b : Reg) (imm : BitVec 16) (sh : BitVec 6) (up : BitVec 21), s.actor = .cell k c →
     let j := 64 * k + c
     let r := s.cell j
     let x := readCX r.x a
     let y := readCX r.x b
     let n := y.toNat % 64
     let Gives (i : Instr) (v : Dword) : Prop := Runs i s (CellBecomes s k j (writeCX r.x d v) (r.pc + 4))
     Gives (.add d a b) (x + y) ∧ Gives (.sub d a b) (x - y) ∧ Gives (.and d a b) (x &&& y) ∧ Gives (.or d a b) (x ||| y) ∧
     Gives (.xor d a b) (x ^^^ y) ∧ Gives (.andn d a b) (x &&& ~~~y) ∧ Gives (.orn d a b) (x ||| ~~~y) ∧
     Gives (.sll d a b) (x <<< n) ∧ Gives (.srl d a b) (x >>> n) ∧ Gives (.sra d a b) (x.sshiftRight n) ∧
     Gives (.rotl d a b) (x.rotateLeft n) ∧ Gives (.rotr d a b) (x.rotateRight n) ∧
     Gives (.slt d a b) (if x.toInt < y.toInt then 1 else 0) ∧ Gives (.sltn d a b) (if x.toNat < y.toNat then 1 else 0) ∧
     Gives (.min d a b) (if x.toInt ≤ y.toInt then x else y) ∧ Gives (.max d a b) (if x.toInt ≤ y.toInt then y else x) ∧
     Gives (.minn d a b) (if x.toNat ≤ y.toNat then x else y) ∧ Gives (.maxn d a b) (if x.toNat ≤ y.toNat then y else x) ∧
     Gives (.mul d a b) (BitVec.ofInt 64 (x.toInt * y.toInt)) ∧
     Gives (.mulh d a b) ((BitVec.ofInt 128 (x.toInt * y.toInt)).extractLsb' 64 64) ∧
     Gives (.mulhn d a b) ((BitVec.ofNat 128 (x.toNat * y.toNat)).extractLsb' 64 64) ∧
     Gives (.div d a b) (if y = 0 then 0xFFFFFFFFFFFFFFFF
       else if x.toInt = -(2 ^ 63) ∧ y.toInt = -1 then BitVec.ofInt 64 (-(2 ^ 63)) else BitVec.ofInt 64 (x.toInt.tdiv y.toInt)) ∧
     Gives (.rem d a b) (if y = 0 then x
       else if x.toInt = -(2 ^ 63) ∧ y.toInt = -1 then 0 else BitVec.ofInt 64 (x.toInt - y.toInt * x.toInt.tdiv y.toInt)) ∧
     Gives (.divn d a b) (if y = 0 then 0xFFFFFFFFFFFFFFFF else BitVec.ofNat 64 (x.toNat / y.toNat)) ∧
     Gives (.remn d a b) (if y = 0 then x else BitVec.ofNat 64 (x.toNat % y.toNat)) ∧
     (∃ q, q ≤ 64 ∧ Gives (.clz d a) (BitVec.ofNat 64 q) ∧ (∀ i, i < q → x.getLsbD (63 - i) = false) ∧ (q < 64 → x.getLsbD (63 - q) = true)) ∧
     (∃ q, q ≤ 64 ∧ Gives (.ctz d a) (BitVec.ofNat 64 q) ∧ (∀ i, i < q → x.getLsbD i = false) ∧ (q < 64 → x.getLsbD q = true)) ∧
     Gives (.popc d a) (BitVec.ofNat 64 ((List.range 64).countP (fun i => x.getLsbD i))) ∧
     (∃ v, Gives (.bswap d a) v ∧ ∀ i, i < 8 → v.extractLsb' (8 * i) 8 = x.extractLsb' (8 * (7 - i)) 8) ∧
     Gives (.addi d a imm) (x + BitVec.ofInt 64 imm.toInt) ∧ Gives (.andi d a imm) (x &&& BitVec.ofNat 64 imm.toNat) ∧
     Gives (.ori d a imm) (x ||| BitVec.ofNat 64 imm.toNat) ∧ Gives (.xori d a imm) (x ^^^ BitVec.ofNat 64 imm.toNat) ∧
     Gives (.slti d a imm) (if x.toInt < imm.toInt then 1 else 0) ∧
     Gives (.sltni d a imm) (if x.toNat < (BitVec.ofInt 64 imm.toInt).toNat then 1 else 0) ∧
     Gives (.sllI d a sh) (x <<< sh.toNat) ∧ Gives (.srlI d a sh) (x >>> sh.toNat) ∧ Gives (.sraI d a sh) (x.sshiftRight sh.toNat) ∧
     Gives (.rotrI d a sh) (x.rotateRight sh.toNat) ∧
     Gives (.lui d up) (BitVec.ofInt 64 (up.toInt * 4096)) ∧ Gives (.auipc d up) (r.pc + BitVec.ofInt 64 (up.toInt * 4096))) ∧
  (∀ (s : State) (k c : Nat) (a b : Reg) (off : BitVec 13), s.actor = .cell k c →
     let j := 64 * k + c
     let r := s.cell j
     let x := readCX r.x a
     let y := readCX r.x b
     let Branches (i : Instr) (q : Prop) : Prop :=
       (¬q → Runs i s (CellBecomes s k j r.x (r.pc + 4))) ∧ (q → Runs i s (CellBecomes s k j r.x (r.pc + BitVec.ofInt 64 (4 * off.toInt))))
     Branches (.beq a b off) (x = y) ∧ Branches (.bne a b off) (x ≠ y) ∧
     Branches (.blt a b off) (x.toInt < y.toInt) ∧ Branches (.bge a b off) (y.toInt ≤ x.toInt) ∧
     Branches (.bltn a b off) (x.toNat < y.toNat) ∧ Branches (.bgen a b off) (y.toNat ≤ x.toNat)) ∧
  (∀ (s : State) (k c : Nat) (d a : Reg) (off : BitVec 13), s.actor = .cell k c → Memory.wf s.mem = true →
     let j := 64 * k + c
     let r := s.cell j
     let ea (n : Nat) : Dword := readCX r.x a + BitVec.ofInt 64 (off.toInt * n)
     let at_ (n : Nat) : State := s.setWait { r.wait with out := some (ea n), seq := if r.wait.seq = 0 then s.tick + 1 else r.wait.seq }
     let seq := if r.wait.seq = 0 then s.tick + 1 else r.wait.seq
     let held (n : Nat) : Prop := ∃ p ∈ s.cells, p.1 / 8 = j / 8 ∧ p.1 ≠ j ∧ p.2.wait.seq ≠ 0 ∧ p.2.wait.seq < seq ∧
       ∃ e, p.2.wait.out = some e ∧ (ea n).toNat < e.toNat + 8 ∧ e.toNat < (ea n).toNat + n
     let Holds (i : Instr) (n : Nat) : Prop := held n → Runs i s (fun t => t = (at_ n).setWait { (at_ n).waitOf with blocked := true })
     let Loads (i : Instr) (n : Nat) (ext : Nat → Dword) : Prop := Holds i n ∧ (¬held n →
       (∀ v t, loadN s.ctx (ea n) n 0 0 (at_ n) = .ok v t → Runs i s (fun u => u = (t.setX d (ext v)).advance)) ∧
       (∀ x t, loadN s.ctx (ea n) n 0 0 (at_ n) = .error (.trap x) t → Runs i s (fun u => u = cellFaults t k c x)) ∧
       (LocalAccess s k (ea n) n → Unpoisoned s (flatOf s k (ea n)) n →
         Runs i s (CellBecomes s k j (writeCX r.x d (ext (Mem.readN s.mem (flatOf s k (ea n)) n))) (r.pc + 4))))
     let Saves (i : Instr) (n : Nat) : Prop := Holds i n ∧ (¬held n →
       let v := (readCX r.x d).toNat
       (∀ t, storeN s.ctx (ea n) n (v % 2 ^ (8 * n)) 0 0 (at_ n) = .ok () t → Runs i s (fun u => u = t.advance)) ∧
       (∀ x t, storeN s.ctx (ea n) n (v % 2 ^ (8 * n)) 0 0 (at_ n) = .error (.trap x) t → Runs i s (fun u => u = cellFaults t k c x)) ∧
       (LocalAccess s k (ea n) n → ¬(n < 4 ∧ flatOf s k (ea n) / 4 ∈ s.poison) → Runs i s (fun t =>
         Stores s t (flatOf s k (ea n)) n v ∧ (t.cell j).x = r.x ∧ (t.cell j).pc = r.pc + 4 ∧ (∀ i, i ≠ j → t.cell i = s.cell i) ∧
         (∀ i, (t.strand i).unflagged = (s.strand i).unflagged) ∧
         { t with strands := s.strands, cells := s.cells, invs := s.invs, mem := s.mem, poison := s.poison } = s)))
     Loads (.ld8 d a off) 1 (BitVec.ofNat 64) ∧ Loads (.ld8s d a off) 1 (fun v => (BitVec.ofNat 8 v).signExtend 64) ∧
     Loads (.ld16 d a off) 2 (BitVec.ofNat 64) ∧ Loads (.ld16s d a off) 2 (fun v => (BitVec.ofNat 16 v).signExtend 64) ∧
     Loads (.ld32 d a off) 4 (BitVec.ofNat 64) ∧ Loads (.ld32s d a off) 4 (fun v => (BitVec.ofNat 32 v).signExtend 64) ∧
     Loads (.ld64 d a off) 8 (BitVec.ofNat 64) ∧
     Saves (.st8 d a off) 1 ∧ Saves (.st16 d a off) 2 ∧ Saves (.st32 d a off) 4 ∧ Saves (.st64 d a off) 8) ∧
  (∀ (s : State) (k c : Nat) (f : FpFmt) (q : Rm) (ty : BitVec 2) (d a b : Reg) (m : RMode), s.actor = .cell k c →
     (m = match q with
       | .rne => .rne | .rtz => .rtz | .rdn => .rdn | .rup => .rup | .rna => .rna | .dyn => .rne) →
     let j := 64 * k + c
     let r := s.cell j
     let F := FpFmt.fmt f
     let src := if f = .f64 then fmt32 else fmt64
     let bits (g : Reg) : Nat := (readCX r.x g).toNat % 2 ^ F.width
     let val (g : Reg) : FVal := unpack F (bits g)
     let Gives (i : Instr) (v : Nat) : Prop := Runs i s (CellBecomes s k j (writeCX r.x d (BitVec.ofNat 64 v)) (r.pc + 4))
     let signed := ty.getLsbD 0 = false
     let w := if ty.getLsbD 1 then 32 else 64
     let int : Int := if signed then (if w = 32 then ((readCX r.x a).setWidth 32).toInt else (readCX r.x a).toInt) else ((readCX r.x a).toNat % 2 ^ w : Nat)
     Gives (.fadd f q d a b) (fpAddV F m (val a) (val b)).1 ∧ Gives (.fsub f q d a b) (fpAddV F m (val a) (val b).negate).1 ∧
     Gives (.fmul f q d a b) (fpMulV F m (val a) (val b)).1 ∧ Gives (.fdiv f q d a b) (fpDivV F m (val a) (val b)).1 ∧
     Gives (.fsqrt f q d a) (fpSqrtV F m (val a)).1 ∧ Gives (.fmadd f q d a b) (fpFmaV F m (val a) (val b) (val d)).1 ∧
     Gives (.fcvtfi f q ty d a) ((fpToInt m signed w (val a)).1 % 2 ^ 64).toNat ∧ Gives (.fcvtif f q ty d a) (intToFp F m int).1 ∧
     Gives (.fcvtff f q d a) (fpConvert src F m false 0 ((readCX r.x a).toNat % 2 ^ src.width)).bits ∧
     Gives (.fneg f q d a) (bits a ^^^ 2 ^ (F.width - 1)) ∧ Gives (.fabs f q d a) (bits a % 2 ^ (F.width - 1)) ∧
     Gives (.fcmpeq f q d a b) (if fpEq (val a) (val b) then 1 else 0) ∧ Gives (.fcmplt f q d a b) (if fpLt (val a) (val b) then 1 else 0) ∧
     Gives (.fcmple f q d a b) (if fpLt (val a) (val b) ∨ fpEq (val a) (val b) then 1 else 0) ∧
     Gives (.fmin f q d a b) (fpMinMax F false (bits a) (bits b)).1 ∧ Gives (.fmax f q d a b) (fpMinMax F true (bits a) (bits b)).1 ∧
     Gives (.fclass f q d a) (fpClass F (bits a)))

/-- R136: a branch whose condition holds goes to PC + 4 × sext(off13), any other to PC + 4; nothing else changes. A user-level branch to address 0 is not such
a branch: it ends the strand (R501, JumpResult). The word of each branch is the number R136 gives it. -/
def Obligations.BranchResult : Prop :=
  ∀ (s : State) (k : Nat) (a b : Reg) (off : BitVec 13), s.actor = .strand k →
    let p := s.strand k
    let x := readX p.x a
    let y := readX p.x b
    let target := p.pc + BitVec.ofInt 64 (4 * off.toInt)
    let Branches (i : Instr) (c : Prop) : Prop :=
      (¬c → Runs i s (StrandBecomes s k p.onward)) ∧
      (c → ¬(p.level = .user ∧ target = 0) → Runs i s (StrandBecomes s k { p with pc := target, wait := {} }))
    Branches (.beq a b off) (x = y) ∧ Branches (.bne a b off) (x ≠ y) ∧
    Branches (.blt a b off) (x.toInt < y.toInt) ∧ Branches (.bge a b off) (y.toInt ≤ x.toInt) ∧
    Branches (.bltn a b off) (x.toNat < y.toNat) ∧ Branches (.bgen a b off) (y.toNat ≤ x.toNat) ∧
    ∀ n i, (n, i) ∈ ([(0, .beq a b off), (1, .bne a b off), (2, .blt a b off), (3, .bge a b off), (4, .bltn a b off), (5, .bgen a b off)] : List (Nat × Instr)) →
      (encode i).map BitVec.toNat = some (0x38000000 + a.toNat * 2 ^ 21 + b.toNat * 2 ^ 16 + n * 2 ^ 13 + off.toNat)

/-- R137: jl links in x1 and jlr in xd, and both go to their target; a misaligned target of jlr takes MISALIGNED with the target
and links nothing. Their words are those R137 gives. R501: at user level a jump or a taken branch to address 0 ends the strand's part in its shard: the strand is ending from then
on, its PC stays, and nothing is linked. A strand that holds a task takes ILLEGAL_INSTRUCTION with the word instead. -/
def Obligations.JumpResult : Prop :=
  (∀ (s : State) (k : Nat) (d a : Reg) (imm : BitVec 16) (off : BitVec 26), s.actor = .strand k →
     let p := s.strand k
     let near := p.pc + BitVec.ofInt 64 (4 * off.toInt)
     let far := readX p.x a + BitVec.ofInt 64 imm.toInt
     (¬(p.level = .user ∧ near = 0) →
       Runs (.jl off) s (StrandBecomes s k { p with x := writeX p.x 1 (p.pc + 4), pc := near, wait := {} })) ∧
     (far.toNat % 4 = 0 → ¬(p.level = .user ∧ far = 0) →
       Runs (.jlr d a imm) s (StrandBecomes s k { p with x := writeX p.x d (p.pc + 4), pc := far, wait := {} })) ∧
     (far.toNat % 4 ≠ 0 → Runs (.jlr d a imm) s (fun t => t = raise s ⟨.misaligned, far, 0⟩)) ∧
     (encode (.jl off)).map BitVec.toNat = some (0x0F * 2 ^ 26 + off.toNat) ∧
     (encode (.jlr d a imm)).map BitVec.toNat = some (0x10 * 2 ^ 26 + d.toNat * 2 ^ 21 + a.toNat * 2 ^ 16 + imm.toNat)) ∧
  (∀ (s : State) (k : Nat) (d a b : Reg) (off : BitVec 13) (imm : BitVec 16) (far : BitVec 26),
     s.actor = .strand k → (s.strand k).level = .user →
     let p := s.strand k
     let Ends (i : Instr) (w : Word) : Prop :=
       (p.task = none → Runs i s (StrandBecomes s k { p with ending := true })) ∧
       (p.task ≠ none → Runs i s (fun t => t = raise s ⟨.illegalInstruction, w.zeroExtend 64, 0⟩))
     (p.pc + BitVec.ofInt 64 (4 * far.toInt) = 0 → Ends (.jl far) (wJl far)) ∧
     (readX p.x a + BitVec.ofInt 64 imm.toInt = 0 → Ends (.jlr d a imm) (wJlr d a imm)) ∧
     (p.pc + BitVec.ofInt 64 (4 * off.toInt) = 0 → readX p.x a = readX p.x b → Ends (.beq a b off) (wBeq a b off)) ∧
     (p.pc + BitVec.ofInt 64 (4 * off.toInt) = 0 → readX p.x a ≠ readX p.x b → Ends (.bne a b off) (wBne a b off)))

/-- R142, R117, R143, R191: mfs reads a register, mts writes it, sset sets and sclr clears its bits, where the strand reaches the register; a
user-level write of a register that user code only reads is ignored. A read of FFLAGS, VSTAT, FXSTAT or FXIDX0 to FXIDX3 waits while an invocation of the strand runs,
and a write of a ring's descriptor while an instruction of another strand of the shard that names the ring is in flight. The register's own rules are in SpecialStorage. R117: a register above the strand's level takes PRIVILEGE, a number without a register within reach ILLEGAL_INSTRUCTION, both with the
word, and a ring register of a ring that is not declared RING_FAULT with the ring's number. -/
def Obligations.SpecialAccess : Prop :=
  (∀ (s : State) (k : Nat) (d a : Reg) (n : BitVec 12) (v : Dword), s.actor = .strand k → sprRead s k n = some v →
     (0x200 ≤ n.toNat → (s.strand k).level = .firmware) → (0x100 ≤ n.toNat → (s.strand k).level ≠ .user) →
     let ring := 0x40 ≤ n.toNat ∧ n.toNat < 0x60
     (ring → s.ringDeclared k ((n.toNat - 0x40) / 4) = true) →
     let p := s.strand k
     let x := readX p.x a
     let waits : Strand := { p with wait := { p.wait with blocked := true } }
     let running := (n = 0x004 ∨ n = 0x007 ∨ n = 0x00D ∨ n = 0x010 ∨ n = 0x011 ∨ n = 0x012 ∨ n = 0x013) ∧ ∃ i, sfind s.invs k = some i ∧ i.running = true
     let taken := ring ∧ s.ringInFlight k (BitVec.ofNat 3 ((n.toNat - 0x40) / 4)) = true
     let Writes (i : Instr) (y : Dword) : Prop :=
       (p.level = .user ∧ (n = 0x008 ∨ n = 0x009 ∨ n = 0x00A ∨ n = 0x00D ∨ n = 0x014 ∨ (0x020 ≤ n.toNat ∧ n.toNat ≤ 0x027)) →
         Runs i s (StrandBecomes s k p.onward)) ∧
       (¬(p.level = .user ∧ (n = 0x008 ∨ n = 0x009 ∨ n = 0x00A ∨ n = 0x00D ∨ n = 0x014 ∨ (0x020 ≤ n.toNat ∧ n.toNat ≤ 0x027))) → ¬taken →
         Runs i s (fun t => t = (sprWrite s k n y).advance)) ∧
       (taken → Runs i s (StrandBecomes s k waits))
     (¬running → Runs (.mfs d n) s (StrandBecomes s k (p.gives d v))) ∧ (running → Runs (.mfs d n) s (StrandBecomes s k waits)) ∧
     Writes (.mts n a) x ∧ Writes (.sset n a) (v ||| x) ∧ Writes (.sclr n a) (v &&& ~~~x)) ∧
  (∀ (s : State) (k : Nat) (d a : Reg) (n : BitVec 12), s.actor = .strand k →
     let p := s.strand k
     let above := (0x200 ≤ n.toNat ∧ p.level ≠ .firmware) ∨ (0x100 ≤ n.toNat ∧ p.level = .user)
     let Takes (c : Cause) (addr : Word → Dword) : Prop :=
       (∀ iw ∈ [(Instr.mfs d n, wMfs d n), (.mts n a, wMts n a), (.sset n a, wSset n a), (.sclr n a, wSclr n a)],
         Runs iw.1 s (fun t => t = raise s ⟨c, addr iw.2, 0⟩))
     (above → Takes .privilege (fun w => w.zeroExtend 64)) ∧
     (¬above → sprRead s k n = none → Takes .illegalInstruction (fun w => w.zeroExtend 64)) ∧
     (0x40 ≤ n.toNat → n.toNat < 0x60 → s.ringDeclared k ((n.toNat - 0x40) / 4) = false →
       Takes .ringFault (fun _ => BitVec.ofNat 64 ((n.toNat - 0x40) / 4))))

/-- R115, R478, R479: a register of plainSpecials reads back the fields of what was written, with its reserved bits zero; every other
register of the list, and everything of the machine outside the strand, is as before, and so are x0 to x31 and the PC. R115, R142, R164, R181 to R183, R191, R421, R478, R479: the registers whose writes do more. VL stores min(value, VLMAX); a write of VTYPE drops bit 7, stores ALT as 0
with EW of 32 or 64, and lowers VL to the new VLMAX; VSTART is clamped to 4,096; SRSEED seeds the generator of each lane; VSTAT and FXSTAT keep their fields; UIMASK reads its reserved bits as ones; UIVEC keeps IN;
ESTATUS.PPRIV ignores 2 and 3 and FSTATUS.PPRIV 3; FXWD.FIRED is cleared by writing 1 and FXWD.COUNT is only read. Of each, nothing else changes: no x register, no other register of plainSpecials, no other strand. A ring's descriptor registers store their fields in the
shard's ring, where a write of BASE or GEOM sets both counts to 0, and ends the all-zero flags too (assumption 67). -/
def Obligations.SpecialStorage : Prop :=
  (∀ (s : State) (k : Nat) (nm : BitVec 12 × Dword) (v : Dword), nm ∈ plainSpecials →
     let t := sprWrite s k nm.1 v
     sprRead t k nm.1 = some (v &&& nm.2) ∧
     (∀ q ∈ plainSpecials, q.1 ≠ nm.1 → sprRead t k q.1 = sprRead s k q.1) ∧
     (t.strand k).x = (s.strand k).x ∧ (t.strand k).pc = (s.strand k).pc ∧ (t.strand k).level = (s.strand k).level ∧
     StrandBecomes s k (t.strand k) t) ∧
  (∀ (s : State) (k : Nat) (v : Dword),
     let p := s.strand k
     let After (n : BitVec 12) : Strand := (sprWrite s k n v).strand k
     let Reads (n : BitVec 12) (w : Dword) : Prop := sprRead (sprWrite s k n v) k n = some w
     let vt : BitVec 8 := v.extractLsb' 0 8
     let stored : BitVec 8 := if vt.getLsbD 1 then vt &&& 0x7B else vt &&& 0x7F
     (After 0x000).vl.toNat = min v.toNat (vlmaxOf p.vtype) ∧
     (After 0x001).vtype = stored ∧ (After 0x001).vl.toNat = min p.vl.toNat (vlmaxOf stored) ∧
     Reads 0x002 (BitVec.ofNat 64 (min (v.toNat % 8192) 4096)) ∧ (After 0x002).vstart.toNat = min (v.toNat % 8192) 4096 ∧
     Reads 0x006 v ∧ (∀ l (h : l < 32), let g : Word := v.extractLsb' 0 32 ^^^ (0x9E3779B9 * BitVec.ofNat 32 (l + 1))
       (After 0x006).srgen[l] = if g = 0 then 1 else g) ∧
     Reads 0x007 (v &&& 0x3FFFFFFFF) ∧ Reads 0x00D (v &&& 0x1FFFFF01FFFF) ∧
     Reads 0x019 (v ||| 0xFFFFFFFFFFFFFFC0) ∧
     Reads 0x018 ((v &&& 0xFFFFFFFFFFFFFFFC) ||| (if p.ui.inHandler then 1 else 0)) ∧
     (After 0x100).e.held = v.getLsbD 2 ∧
     (After 0x100).e.ppriv = (if v.toNat % 4 ≤ 1 then BitVec.ofNat 2 v.toNat else p.e.ppriv) ∧
     (After 0x200).f.ppriv = (if v.toNat % 4 ≤ 2 then BitVec.ofNat 2 v.toNat else p.f.ppriv) ∧
     (After 0x113).e.fxwdFired = (p.e.fxwdFired && !v.getLsbD 20) ∧
     (∀ c, sprRead s k 0x113 = some c → Reads 0x113 (if v.getLsbD 20 then c &&& 0xFFFFF else c) ∧
       c &&& 0xFFFFF = (match sfind s.invs k with
         | some i => if i.running then BitVec.ofNat 64 (i.count % 2 ^ 20) else 0
         | none => 0)) ∧
     sprWrite s k 0x009 v = s ∧ sprWrite s k 0x00A v = s ∧ sprWrite s k 0x014 v = s ∧
     (∀ n ∈ ([0x000, 0x001, 0x002, 0x006, 0x007, 0x00D, 0x018, 0x019, 0x100, 0x113, 0x200] : List (BitVec 12)),
       StrandBecomes s k (After n) (sprWrite s k n v) ∧ (After n).x = p.x ∧ (After n).pc = p.pc ∧ (After n).level = p.level ∧ (After n).m = p.m ∧ (After n).cm = p.cm ∧
       ∀ q ∈ plainSpecials, q.1 ≠ n → sprRead (sprWrite s k n v) k q.1 = sprRead s k q.1) ∧
     (∀ i : BitVec 3,
       let n (j : Nat) : BitVec 12 := BitVec.ofNat 12 (0x40 + 4 * i.toNat + j)
       let o := s.shardKey k
       let r := s.ring k i
       let Sets (j : Nat) (q : Ring) : Prop :=
         let t := sprWrite s k (n j) v
         t.ring k i = q ∧ (∀ c, c ≠ i → t.ring k c = s.ring k c) ∧ t.strand o = { s.strand o with rings := (t.strand o).rings } ∧
         (∀ c, c ≠ o → t.strand c = s.strand c) ∧ { t with strands := s.strands, tasks := s.tasks } = s ∧ (2 ≤ j → t.tasks = s.tasks)
       Sets 0 { r with base := v.extractLsb' 8 56, head := 0, tail := 0, zero := [], unlanded := [] } ∧ Reads (n 0) (v &&& 0xFFFFFFFFFFFFFF00) ∧
       Sets 1 { r with nslotm1 := v.extractLsb' 8 8, log2slot := v.extractLsb' 0 4, head := 0, tail := 0, zero := [], unlanded := [] } ∧ Reads (n 1) (v &&& 0xFF0F) ∧
       Sets 2 { r with head := v.extractLsb' 0 32 } ∧ Reads (n 2) (v &&& 0xFFFFFFFF) ∧ Sets 3 { r with tail := v.extractLsb' 0 32 } ∧ Reads (n 3) (v &&& 0xFFFFFFFF)))

/-- R144: tloop counts TLCn up to the limit and branches, or starts it again at 0 and falls through; either way the kernel's time
since its last progress starts again (R419), and nothing else changes. -/
def Obligations.LoopResult : Prop :=
  ∀ (s : State) (k : Nat) (n : BitVec 2) (b : Reg) (off : BitVec 13), s.actor = .strand k →
    let p := s.strand k
    let next := p.tlc[n.toNat]'n.isLt + 1
    let target := p.pc + BitVec.ofInt 64 (4 * off.toInt)
    let After (q : Strand) (t : State) : Prop :=
      t.strand k = q ∧ (∀ j, j ≠ k → t.strand j = s.strand j) ∧ { t with strands := s.strands, kernels := s.kernels } = s ∧
      ∀ j, sfind t.kernels j = if (s.groupOf k).map (·.kernel) = some j then (sfind s.kernels j).map (fun q => { q with idleNs := 0 })
                               else sfind s.kernels j
    (next.toNat < (readX p.x b).toNat → ¬(p.level = .user ∧ target = 0) →
      Runs (.tloop n b off) s (After { p with tlc := p.tlc.set n.toNat next n.isLt, pc := target, wait := {} })) ∧
    (¬next.toNat < (readX p.x b).toNat →
      Runs (.tloop n b off) s (After { p.onward with tlc := p.tlc.set n.toNat 0 n.isLt }))

/-- R474: what taking an exception does: below firmware level the executive is entered (the firmware for FCALL and WATCHDOG), at firmware level the firmware, and a breakpoint under BRKHALT
halts the core. The cause, the address, the element, the PC and the level are saved, the PC goes to the vector, and no x register, no flag and no other strand changes. A trap of a strand that holds no task is taken as TrapEntry says (R474); of a strand whose task runs in a chrysalis it is held (R453), and
only the task's held trap and the strand's wait change. -/
def Obligations.TrapEntry : Prop :=
  (∀ (s : State) (k : Nat) (c : Cause) (a : Dword) (e : Nat),
     let p := s.strand k
     let code : BitVec 2 := if p.level = .user then 0 else if p.level = .executive then 1 else 2
     (¬(c = .breakpoint ∧ p.f.brkhalt = true) → c ≠ .fcall → c ≠ .watchdog → p.level ≠ .firmware →
       StrandBecomes s k { p with
         e := { p.e with ppriv := code, epc := p.pc, cause := c.code, addr := a, elem := BitVec.ofNat 32 e }
         level := .executive, pc := p.e.vec ++ (0 : BitVec 2), links := [], wait := {}
         execSince := if p.level = .user then s.timeNs.toNat else p.execSince } (takeTrap s k ⟨c, a, e⟩)) ∧
     (¬(c = .breakpoint ∧ p.f.brkhalt = true) → (c = .fcall ∨ c = .watchdog ∨ p.level = .firmware) →
       StrandBecomes s k { p with
         f := { p.f with ppriv := code, pc := p.pc, cause := c.code, addr := a, elem := BitVec.ofNat 32 e }
         level := .firmware, pc := p.f.vec ++ (0 : BitVec 2), links := [], wait := {}
         execSpent := if p.level = .user then 0 else if p.level = .executive then s.timeNs.toNat - p.execSince else p.execSpent } (takeTrap s k ⟨c, a, e⟩)) ∧
     (c = .breakpoint → p.f.brkhalt = true →
       let t := takeTrap s k ⟨c, a, e⟩
       t.strand k = { p with wait := {} } ∧ (∀ j, j ≠ k → t.strand j = s.strand j) ∧
       { t with strands := s.strands, cores := s.cores } = s ∧ (∀ n, n ≠ k / 3 → t.coreRegs n = s.coreRegs n) ∧
       t.coreRegs (k / 3) = { s.coreRegs (k / 3) with halted := true, settled := false, timeout := false, haltAt := s.timeNs.toNat })) ∧
  (∀ (s : State) (k : Nat) (r : TrapInfo), s.actor = .strand k →
     ((s.strand k).task = none → raise s r = takeTrap s k r) ∧
     (∀ j x, (s.strand k).task = some j → sfind s.tasks j = some x → x.set ≠ [] →
       let t := raise s r
       t.strand k = { s.strand k with wait := { blocked := true } } ∧ (∀ i, i ≠ k → t.strand i = s.strand i) ∧
       (∀ i, sfind t.tasks i = if i = j then some { x with held := some r } else sfind s.tasks i) ∧
       { t with strands := s.strands, tasks := s.tasks } = s))

/-- R145, R146, R499: ill, xcall, fcall and brk take their exceptions at the levels R145 gives, with the word or zero in the address. R149, R150, R151: the executive-only system instructions take PRIVILEGE with their word at user level, and halt also while debug is disabled. -/
def Obligations.SystemTraps : Prop :=
  (∀ (s : State) (k : Nat), s.actor = .strand k →
     let p := s.strand k
     let Takes (i : Instr) (c : Cause) (a : Dword) : Prop := Runs i s (fun t => t = raise s ⟨c, a, 0⟩)
     Takes .ill .illegalInstruction 0 ∧
     (p.level = .user → Takes .xcall .xcall 0) ∧ (p.level ≠ .user → Takes .xcall .illegalInstruction 1) ∧
     (p.level = .executive → Takes .fcall .fcall 0) ∧ (p.level = .user → Takes .fcall .privilege 2) ∧
     (p.level = .firmware → Takes .fcall .illegalInstruction 2) ∧
     Takes .brk .breakpoint 3) ∧
  (∀ (s : State) (k : Nat) (a b : Reg), s.actor = .strand k →
     let Takes (i : Instr) (w : Word) : Prop := Runs i s (fun t => t = raise s ⟨.privilege, w.zeroExtend 64, 0⟩)
     ((s.strand k).level = .user →
       Takes (.tlbinvPage a b) (wTlbinvPage a b) ∧ Takes (.tlbinvAsid b) (wTlbinvAsid b) ∧ Takes .tlbinvAll wTlbinvAll ∧
       Takes (.cwbImage a b) (wCwbImage a b)) ∧
     ((s.strand k).level = .user ∨ (∀ j, j < 3 → (s.strand (3 * (k / 3) + j)).f.dbgen = false) → Takes .halt wHalt))

/-- R99, R147, R477: eret at executive level returns to EPC at the level of ESTATUS.PPRIV and clears HELD, at firmware level to FPC at the level of FSTATUS.PPRIV; at user level it takes PRIVILEGE, and a misaligned
return address MISALIGNED. The event latch is set (R148), and KWD.HOLD is cleared at a return to user level (R495). R423: uiret outside a handler takes ILLEGAL_INSTRUCTION, with a misaligned UIPC MISALIGNED; otherwise x24 to x31 come back from the shadow bank, IN is cleared and the PC goes to
UIPC. -/
def Obligations.ReturnResult : Prop :=
  (∀ (s : State) (k : Nat), s.actor = .strand k →
     let p := s.strand k
     let level (c : BitVec 2) : Level := if c = 0 then .user else if c = 1 then .executive else .firmware
     let Takes (c : Cause) (a : Dword) : Prop := Runs .eret s (fun t => t = raise s ⟨c, a, 0⟩)
     (p.level = .user → Takes .privilege 4) ∧
     (p.level = .executive → p.e.epc.toNat % 4 ≠ 0 → Takes .misaligned p.e.epc) ∧
     (p.level = .firmware → p.f.pc.toNat % 4 ≠ 0 → Takes .misaligned p.f.pc) ∧
     (p.level = .executive → p.e.epc.toNat % 4 = 0 → Runs .eret s (StrandBecomes s k { p with
       pc := p.e.epc, level := level p.e.ppriv, event := true, wait := {}
       e := { p.e with held := false, kwdHold := p.e.kwdHold && decide (level p.e.ppriv ≠ .user) } })) ∧
     (p.level = .firmware → p.f.pc.toNat % 4 = 0 → Runs .eret s (StrandBecomes s k { p with
       pc := p.f.pc, level := level p.f.ppriv, event := true, wait := {}
       e := { p.e with kwdHold := p.e.kwdHold && decide (level p.f.ppriv ≠ .user) }
       execSince := if level p.f.ppriv = .executive then s.timeNs.toNat - p.execSpent else p.execSince }))) ∧
  (∀ (s : State) (k : Nat), s.actor = .strand k →
     let p := s.strand k
     (p.ui.inHandler = false → Runs .uiret s (fun t => t = raise s ⟨.illegalInstruction, 5, 0⟩)) ∧
     (p.ui.inHandler = true → p.ui.pc.toNat % 4 ≠ 0 → Runs .uiret s (fun t => t = raise s ⟨.misaligned, p.ui.pc, 0⟩)) ∧
     (p.ui.inHandler = true → p.ui.pc.toNat % 4 = 0 → ∃ x : Vector Dword 32,
       (∀ i (h : i < 32), x[i] = if h2 : 24 ≤ i then p.ui.shadow[i - 24]'(by omega) else p.x[i]) ∧
       Runs .uiret s (StrandBecomes s k { p with x := x, pc := p.ui.pc, ui := { p.ui with inHandler := false }, wait := {} })))

/-- R148: wfe with the event latch set, or past its limit, completes and leaves the latch clear; otherwise the strand waits, with the limit a gives, and x0 gives none;
a pre-emption ends the wait: what is stated of it is the mark that the waiting wfe carries for the pre-emption, by which the strand goes on after it (R190; assumption 7). R151, R499: halt above user level with debug enabled halts the core after itself and changes no other architectural state. That DBGEN of any one strand of the core enables debug is the model's reading (assumption 20). -/
def Obligations.WaitAndHalt : Prop :=
  (∀ (s : State) (k : Nat) (a : Reg), s.actor = .strand k →
     let p := s.strand k
     let passed := p.wait.expired = true ∨ ∃ d, p.wait.deadline = some d ∧ d ≤ s.timeNs.toNat
     (p.event = true ∨ passed → Runs (.wfe a) s (StrandBecomes s k { p.onward with event := false })) ∧
     (p.event = false → ¬passed → Runs (.wfe a) s (StrandBecomes s k { p with wait := { p.wait with
       blocked := true, past := true
       deadline := if a = 0 then none else some (p.wait.deadline.getD (s.timeNs.toNat + (readX p.x a).toNat)) } }))) ∧
  (∀ (s : State) (k j : Nat), s.actor = .strand k → (s.strand k).level ≠ .user → j < 3 → (s.strand (3 * (k / 3) + j)).f.dbgen = true →
     Runs .halt s (fun t => t.strand k = (s.strand k).onward ∧ (∀ i, i ≠ k → t.strand i = s.strand i) ∧
       { t with strands := s.strands, cores := s.cores } = s ∧ (∀ n, n ≠ k / 3 → t.coreRegs n = s.coreRegs n) ∧
       t.coreRegs (k / 3) = { s.coreRegs (k / 3) with halted := true, settled := false, timeout := false, haltAt := s.timeNs.toNat }))

/-- R149, R312: above user level tlbinv removes from every TLB the translations it names and no other, after the strand's stores have performed at device
scope: none of its core's registrations is pending any more, and none of its writes into a cocoon of another core. While the home of one of them serves another agent (R303) it waits. No byte
of memory and no x, vector or tile register changes. That the upper bits of the ASID operand have no effect is the model's choice (assumption 46), and the address of a MEM_TIMEOUT its choice too (assumption 59). R150, R101, R203: cwb empties the instruction caches of the cores its kind names, and only those, and drops their captured bodies, whose loops go on from fetch; cwb.image drops the launch
unit's checks of the image too. It waits while a registration that it is to perform cannot reach its home (R303). That the upper bits of the ASID operand have no effect (assumption 46), and that one in a chrysalis does not wait for the task's buffered stores (assumption 72), are the model's choices. -/
def Obligations.MaintenanceResult : Prop :=
  (∀ (s : State) (k : Nat) (a b : Reg), s.actor = .strand k → (s.strand k).level ≠ .user →
     let p := s.strand k
     let va := (readX p.x a).toNat
     let asid : BitVec 16 := (readX p.x b).extractLsb' 0 16
     let Removes (i : Instr) (gone : TlbEntry → Prop) : Prop :=
       (releaseWaits s (k / 3) .device = true → ReleaseWaits i s k) ∧
       (releaseWaits s (k / 3) .device = false → Runs i s (fun t =>
         (∀ e, e ∈ t.tlb ↔ e ∈ s.tlb ∧ ¬gone e) ∧ (∀ q ∈ t.pending, q ∈ s.pending ∧ q.core ≠ k / 3 ∧ q.by_ ≠ k / 3) ∧
         t.mem = s.mem ∧ t.vregs = s.vregs ∧ t.tiles = s.tiles ∧
         (t.strand k).x = p.x ∧ (t.strand k).pc = p.pc + 4 ∧ (∀ j, j ≠ k → (t.strand j).x = (s.strand j).x ∧ (t.strand j).pc = (s.strand j).pc)))
     Removes (.tlbinvPage a b) (fun e => e.asid = asid ∧ e.vbase ≤ va ∧ va < e.vbase + e.size) ∧
     Removes (.tlbinvAsid b) (fun e => e.asid = asid) ∧ Removes .tlbinvAll (fun _ => True)) ∧
  (∀ (s : State) (k : Nat) (a b : Reg), s.actor = .strand k →
     let p := s.strand k
     let Discards (i : Instr) (sc : Scope) (names : Nat → Prop) (checks : List ImageCheck → Prop) : Prop :=
       (releaseWaits s (k / 3) sc = true → ReleaseWaits i s k) ∧
       (releaseWaits s (k / 3) sc = false → Runs i s (fun t =>
         (∀ q, q ∈ t.icache ↔ q ∈ s.icache ∧ ¬names (q.1 / 2 ^ 50)) ∧
         (∀ j, names (j / 3) → (t.strand j).replay = (s.strand j).replay.map (fun r => { r with words := [] })) ∧
         (∀ j, ¬names (j / 3) → (t.strand j).replay = (s.strand j).replay) ∧ checks t.lu.checks ∧
         t.mem = s.mem ∧ t.vregs = s.vregs ∧ t.tiles = s.tiles ∧
         (∀ j, (t.strand j).x = (s.strand j).x) ∧ (t.strand k).pc = p.pc + 4 ∧ (∀ j, j ≠ k → (t.strand j).pc = (s.strand j).pc)))
     Discards .cwbCore .core (fun n => n = k / 3) (· = s.lu.checks) ∧ Discards .cwbDie .die (fun n => n / 32 = k / 3 / 32) (· = s.lu.checks) ∧
     Discards .cwbDevice .device (fun _ => True) (· = s.lu.checks) ∧
     (p.level ≠ .user → Discards (.cwbImage a b) .device (fun _ => True) (fun l => ∀ c, c ∈ l ↔
       c ∈ s.lu.checks ∧ ¬(c.image = readX p.x a ∧ c.asid = (readX p.x b).extractLsb' 0 16))))

/-- R132, R133: a scalar load makes one access of its width at a + sext(off13) × width; what the access finds goes, extended, into xd, and the trap it takes is the
instruction's. R132, R133: a scalar store writes the low bytes of xs at a + sext(off13) × width in one access, and the trap the access takes is the instruction's. R133: the checks of a strand's access run in this order: MISALIGNED, the window code, the offset against the window's size; each takes its trap with the address, before anything changes. -/
def Obligations.ScalarAccess : Prop :=
  (∀ (s : State) (k : Nat) (d a : Reg) (off : BitVec 13), s.actor = .strand k →
     let ea (n : Nat) : Dword := readX (s.strand k).x a + BitVec.ofInt 64 (off.toInt * n)
     let Loads (i : Instr) (n : Nat) (ext : Nat → Dword) : Prop :=
       (∀ v s', loadN s.ctx (ea n) n 0 0 s = .ok v s' → Runs i s (fun t => t = (s'.setX d (ext v)).advance)) ∧
       (∀ r s', loadN s.ctx (ea n) n 0 0 s = .error (.trap r) s' → Runs i s (fun t => t = raise s' r))
     Loads (.ld8 d a off) 1 (BitVec.ofNat 64) ∧ Loads (.ld8s d a off) 1 (fun v => (BitVec.ofNat 8 v).signExtend 64) ∧
     Loads (.ld16 d a off) 2 (BitVec.ofNat 64) ∧ Loads (.ld16s d a off) 2 (fun v => (BitVec.ofNat 16 v).signExtend 64) ∧
     Loads (.ld32 d a off) 4 (BitVec.ofNat 64) ∧ Loads (.ld32s d a off) 4 (fun v => (BitVec.ofNat 32 v).signExtend 64) ∧
     Loads (.ld64 d a off) 8 (BitVec.ofNat 64)) ∧
  (∀ (s : State) (k : Nat) (r a : Reg) (off : BitVec 13), s.actor = .strand k →
     let ea (n : Nat) : Dword := readX (s.strand k).x a + BitVec.ofInt 64 (off.toInt * n)
     let v (n : Nat) : Nat := (readX (s.strand k).x r).toNat % 2 ^ (8 * n)
     let Saves (i : Instr) (n : Nat) : Prop :=
       (∀ s', storeN s.ctx (ea n) n (v n) 0 0 s = .ok () s' → Runs i s (fun t => t = s'.advance)) ∧
       (∀ q s', storeN s.ctx (ea n) n (v n) 0 0 s = .error (.trap q) s' → Runs i s (fun t => t = raise s' q))
     Saves (.st8 r a off) 1 ∧ Saves (.st16 r a off) 2 ∧ Saves (.st32 r a off) 4 ∧ Saves (.st64 r a off) 8) ∧
  (∀ (s : State) (k : Nat) (ea : Dword) (n v e lane : Nat), s.actor = .strand k → (n = 1 ∨ n = 2 ∨ n = 4 ∨ n = 8) →
     let Traps (c : Cause) : Prop :=
       loadN s.ctx ea n e lane s = .error (.trap ⟨c, ea, e⟩) s ∧ storeN s.ctx ea n v e lane s = .error (.trap ⟨c, ea, e⟩) s
     let user := (s.strand k).level = .user
     let reach := userMayReach s (s.strand k).e.asid (winOff ea / 4 * 4) = true
     (ea.toNat % n ≠ 0 → Traps .misaligned) ∧
     (ea.toNat % n = 0 → windowSize s k (winCode ea) = none → Traps .windowInvalid) ∧
     (ea.toNat % n = 0 → winCode ea = 0xFE → user → ¬reach → Traps .privilege) ∧
     (∀ size, ea.toNat % n = 0 → winCode ea ≠ 0 → windowSize s k (winCode ea) = some size → size ≤ winOff ea →
       ¬(winCode ea = 0xFE ∧ user ∧ ¬reach) → Traps .windowRange))

/-- R132, R133: a scalar load from a local window reads its bytes in memory, little-endian, and changes nothing but xd and the PC; a poisoned word takes MEM_POISON with the address. R132, R133, R195, R289: a scalar store to a local window writes the low bytes of xs there and no other byte, clears the poison of the words it writes whole, and otherwise changes the
PC, and links and all-zero ring flags, alone. A store of fewer than four bytes into a poisoned word takes MEM_POISON. -/
def Obligations.LocalMemory : Prop :=
  (∀ (s : State) (k : Nat) (d a : Reg) (off : BitVec 13), s.actor = .strand k →
     let p := s.strand k
     let ea (n : Nat) : Dword := readX p.x a + BitVec.ofInt 64 (off.toInt * n)
     let Loads (i : Instr) (n : Nat) (ext : Nat → Dword) : Prop := LocalAccess s k (ea n) n →
       (Unpoisoned s (flatOf s k (ea n)) n → Runs i s (StrandBecomes s k (p.gives d (ext (Mem.readN s.mem (flatOf s k (ea n)) n))))) ∧
       (¬Unpoisoned s (flatOf s k (ea n)) n → Runs i s (fun t => t = raise s ⟨.memPoison, ea n, 0⟩))
     Loads (.ld8 d a off) 1 (BitVec.ofNat 64) ∧ Loads (.ld8s d a off) 1 (fun v => (BitVec.ofNat 8 v).signExtend 64) ∧
     Loads (.ld16 d a off) 2 (BitVec.ofNat 64) ∧ Loads (.ld16s d a off) 2 (fun v => (BitVec.ofNat 16 v).signExtend 64) ∧
     Loads (.ld32 d a off) 4 (BitVec.ofNat 64) ∧ Loads (.ld32s d a off) 4 (fun v => (BitVec.ofNat 32 v).signExtend 64) ∧
     Loads (.ld64 d a off) 8 (BitVec.ofNat 64)) ∧
  (∀ (s : State) (k : Nat) (r a : Reg) (off : BitVec 13), s.actor = .strand k → Memory.wf s.mem = true →
     let p := s.strand k
     let ea (n : Nat) : Dword := readX p.x a + BitVec.ofInt 64 (off.toInt * n)
     let Saves (i : Instr) (n : Nat) : Prop := LocalAccess s k (ea n) n →
       let f := flatOf s k (ea n)
       (n < 4 → f / 4 ∈ s.poison → Runs i s (fun t => t = raise s ⟨.memPoison, ea n, 0⟩)) ∧
       (¬(n < 4 ∧ f / 4 ∈ s.poison) → Runs i s (fun t =>
         Stores s t f n (readX p.x r).toNat ∧
         (∀ w, w ∈ t.poison ↔ w ∈ s.poison ∧ ¬(4 ≤ n ∧ f / 4 ≤ w ∧ w < f / 4 + n / 4)) ∧
         (t.strand k).unflagged = p.onward.unflagged ∧ (∀ j, j ≠ k → (t.strand j).unflagged = (s.strand j).unflagged) ∧
         { t with strands := s.strands, mem := s.mem, poison := s.poison } = s))
     Saves (.st8 r a off) 1 ∧ Saves (.st16 r a off) 2 ∧ Saves (.st32 r a off) 4 ∧ Saves (.st64 r a off) 8)

/-- R293, R397: ldacq of a dword in a local window reads it into xd and then acquires at its scope; strel releases at its scope and then stores; it waits while a registration
cannot reach its home (R303). Besides what the acquire or the release does
to copies of words, only xd, the PC and the stored bytes change. R397, R399, R302, R309: a release at cluster scope or wider leaves no registration of its core pending and none of its writes into a cocoon of another core, and one at a narrower scope
changes nothing; an acquire at cluster scope or wider drops the core's clean unregistered L1 words and its strip buffers and keeps the rest, and at device scope or wider its die's L2 drops
the clean words of other homes. Neither changes memory or any register. -/
def Obligations.AcquireRelease : Prop :=
  (∀ (s : State) (k : Nat) (sc : Scope) (d a b : Reg), s.actor = .strand k → Memory.wf s.mem = true →
     let p := s.strand k
     let ea := readX p.x a
     let f := flatOf s k ea
     LocalAccess s k ea 8 →
     (Unpoisoned s f 8 →
       Runs (.ldacq sc d a) s (StrandBecomes (acquire s (k / 3) sc) k (p.gives d (BitVec.ofNat 64 (Mem.readN s.mem f 8))))) ∧
     (releaseWaits s (k / 3) sc = true → ReleaseWaits (.strel sc a b) s k) ∧
     (releaseWaits s (k / 3) sc = false → Runs (.strel sc a b) s (fun t =>
       let r := release s (k / 3) sc
       Stores s t f 8 (readX p.x b).toNat ∧
       (t.strand k).unflagged = p.onward.unflagged ∧ (∀ j, j ≠ k → (t.strand j).unflagged = (s.strand j).unflagged) ∧
       { t with strands := r.strands, mem := r.mem, poison := r.poison } = r))) ∧
  (∀ (s : State) (c : Nat) (sc : Scope),
     let wide := sc = .cluster ∨ sc = .die ∨ sc = .device ∨ sc = .system
     let r := release s c sc
     let q := acquire s c sc
     (¬wide → r = s ∧ q = s) ∧
     (wide → (∀ x ∈ r.pending, x ∈ s.pending ∧ x.core ≠ c ∧ x.by_ ≠ c) ∧
       ∀ x ∈ s.pending, x.core ≠ c → x.by_ ≠ c → (∀ y ∈ s.pending, y.by_ = c → y.core ≠ x.core) → x ∈ r.pending) ∧
     (wide → ∀ e, e ∈ q.l1 ↔ e ∈ s.l1 ∧ ¬(e.1 / 2 ^ 50 = c ∧ e.2.dirty = false ∧ ∀ y, sfind s.reg (e.1 % 2 ^ 50) = some y → y.holder ≠ c)) ∧
     (∀ e, e ∈ q.l2 ↔ e ∈ s.l2 ∧ ¬((sc = .device ∨ sc = .system) ∧ e.1 / 2 ^ 50 = c / 32 ∧ e.2.dirty = false ∧ homeDie (e.1 % 2 ^ 50) ≠ c / 32)) ∧
     (wide → ∀ e, e ∈ q.strip ↔ e ∈ s.strip ∧ e.strand / 3 ≠ c) ∧
     r.mem = s.mem ∧ q.mem = s.mem ∧ r.vregs = s.vregs ∧ q.vregs = s.vregs ∧ q.strands = s.strands ∧
     (∀ j, (r.strand j).x = (s.strand j).x ∧ (r.strand j).pc = (s.strand j).pc ∧ (r.strand j).unflagged = (s.strand j).unflagged))

/-- R293, R294: an atomic on a dword of a local window gives xd the old value and memory the new one, in one step, and amocas writes only where the old value equals xd; it waits
while a registration that it releases cannot reach its home (R303). Every other byte of memory, every other register and every
other strand's registers stay. -/
def Obligations.AtomicLocal : Prop :=
  ∀ (s : State) (k : Nat) (sc : Scope) (d a b : Reg), s.actor = .strand k → Memory.wf s.mem = true →
    let p := s.strand k
    let ea := readX p.x a
    let y := readX p.x b
    let f := flatOf s k ea
    LocalAccess s k ea 8 → Unpoisoned s f 8 →
    let m : Dword := BitVec.ofNat 64 (Mem.readN s.mem f 8)
    let Makes (i : Instr) (new : Dword) : Prop :=
     (releaseWaits s (k / 3) sc = true → ReleaseWaits i s k) ∧
     (releaseWaits s (k / 3) sc = false → Runs i s (fun t =>
      Stores s t f 8 new.toNat ∧
      (t.strand k).unflagged = (p.gives d m).unflagged ∧ (∀ j, j ≠ k → (t.strand j).unflagged = (s.strand j).unflagged) ∧
      { t with strands := s.strands, mem := s.mem, poison := s.poison, l1 := s.l1, l2 := s.l2, reg := s.reg, pending := s.pending,
               lines := s.lines, cocoons := s.cocoons, strip := s.strip, hostLines := s.hostLines, out := s.out } = s))
    Makes (.amoswap sc d a b) y ∧ Makes (.amoadd sc d a b) (m + y) ∧ Makes (.amoand sc d a b) (m &&& y) ∧
    Makes (.amoor sc d a b) (m ||| y) ∧ Makes (.amoxor sc d a b) (m ^^^ y) ∧
    Makes (.amomin sc d a b) (if m.toInt ≤ y.toInt then m else y) ∧ Makes (.amomax sc d a b) (if m.toInt ≤ y.toInt then y else m) ∧
    Makes (.amominn sc d a b) (if m.toNat ≤ y.toNat then m else y) ∧ Makes (.amomaxn sc d a b) (if m.toNat ≤ y.toNat then y else m) ∧
    Makes (.amocas sc d a b) (if m = readX p.x d then y else m)

/-- R293, R295: ldf and ldc of a local word that is full read it into xd, and ldc makes it empty; stf to an empty word writes it and makes it full. ldc and stf are served in the order of their
arrival: where the word is in the other state, or another strand came before, they stand in line and wait. On the other state of the bit ldf waits. Nothing else changes then. -/
def Obligations.FullEmpty : Prop :=
  ∀ (s : State) (k : Nat) (sc : Scope) (d a b : Reg), s.actor = .strand k → Memory.wf s.mem = true →
    let p := s.strand k
    let ea := readX p.x a
    let f := flatOf s k ea
    let waits : Strand := { p with wait := { p.wait with blocked := true } }
    let before (full : Bool) : Prop := ∃ j l, wordWaiters s (f / 4) full = j :: l ∧ j ≠ k
    let Stands (full : Bool) (i : Instr) : Prop := Runs i s (fun t =>
      t.strand k = { p with wait := { p.wait with blocked := true, word := some (f / 4) } } ∧ (∀ j, j ≠ k → t.strand j = s.strand j) ∧
      ⟨k, f / 4, full⟩ ∈ t.wordLine ∧ (∀ x, x.strand ≠ k → (x ∈ t.wordLine ↔ x ∈ s.wordLine)) ∧
      { t with strands := s.strands, wordLine := s.wordLine } = s)
    LocalAccess s k ea 4 →
    (f / 4 ∈ s.full → Unpoisoned s f 4 →
      Runs (.ldf sc d a) s (StrandBecomes (acquire s (k / 3) sc) k (p.gives d (BitVec.ofNat 64 (Mem.readN s.mem f 4)))) ∧
      (¬before true → Runs (.ldc sc d a) s (StrandBecomes
        (acquire { s with full := nsErase s.full (f / 4), wordLine := s.wordLine.filter (·.strand != k) } (k / 3) sc) k
        (p.gives d (BitVec.ofNat 64 (Mem.readN s.mem f 4)))))) ∧
    (f / 4 ∉ s.full → Runs (.ldf sc d a) s (StrandBecomes s k waits)) ∧
    (f / 4 ∉ s.full ∨ before true → Stands true (.ldc sc d a)) ∧
    (f / 4 ∈ s.full ∨ before false → Stands false (.stf sc a b)) ∧
    (f / 4 ∉ s.full → ¬before false → releaseWaits s (k / 3) sc = true → ReleaseWaits (.stf sc a b) s k) ∧
    (f / 4 ∉ s.full → ¬before false → releaseWaits s (k / 3) sc = false → Runs (.stf sc a b) s (fun t =>
      let r := release s (k / 3) sc
      Stores s t f 4 (readX p.x b).toNat ∧ t.full = nsInsert s.full (f / 4) ∧ t.wordLine = s.wordLine.filter (·.strand != k) ∧
      (t.strand k).unflagged = p.onward.unflagged ∧ (∀ j, j ≠ k → (t.strand j).unflagged = (s.strand j).unflagged) ∧
      { t with strands := r.strands, mem := r.mem, poison := r.poison, full := r.full, wordLine := r.wordLine } = r))

/-- R138, R139, R140, R141: an operation that rounds does so once, under its static mode or, with code 7, under FRM; its result goes into xd and its flags accrue in FFLAGS, and nothing else but the
PC changes. An f32 operand is bits [31:0] of its register. What the operations of values are is said in ExactRounded. R139, R158, R162: the operations on values give the exact result rounded once. For finite operands a sum, a product and a fused multiply-add round the exact rational result; a quotient and a square root round
a number that stands for the exact result (StandsFor); zero results have the signs of R139's round, and invalid operations the canonical NaN with NV. What rounding gives is the exact value's neighbour in the format: below overflow
the bits of the result stand for the multiple that roundAt, of which RoundingModes speaks, chooses. R138, R547: with code 7 and FRM holding 6 or 7 every operation that rounds takes ILLEGAL_INSTRUCTION with its word; the operations that never round do not consult FRM (FpUnrounded). R141, R163: fcvtff rounds into its format under the mode; under RSR toward f32 an inexact result draws once from the generator of lane 0, any other result draws nothing. -/
def Obligations.FpRounded : Prop :=
  (∀ (s : State) (k : Nat) (f : FpFmt) (r : Rm) (ty : BitVec 2) (d a b : Reg) (m : RMode), s.actor = .strand k →
     let p := s.strand k
     (m = match r with
       | .rne => .rne | .rtz => .rtz | .rdn => .rdn | .rup => .rup | .rna => .rna
       | .dyn => (rmodeOf p.frm).getD .rne) → (r = .dyn → p.frm.toNat ≤ 5) →
     let F := FpFmt.fmt f
     let val (q : Reg) : FVal := unpack F ((readX p.x q).toNat % 2 ^ F.width)
     let Gives (i : Instr) (v : FRes) : Prop :=
       Runs i s (StrandBecomes s k { p.gives d (BitVec.ofNat 64 v.1) with fflags := p.fflags ||| v.2 })
     let signed := ty.getLsbD 0 = false
     let w := if ty.getLsbD 1 then 32 else 64
     let int : Int := if signed then (if w = 32 then ((readX p.x a).setWidth 32).toInt else (readX p.x a).toInt) else ((readX p.x a).toNat % 2 ^ w : Nat)
     Gives (.fadd f r d a b) (fpAddV F m (val a) (val b)) ∧ Gives (.fsub f r d a b) (fpAddV F m (val a) (val b).negate) ∧
     Gives (.fmul f r d a b) (fpMulV F m (val a) (val b)) ∧ Gives (.fdiv f r d a b) (fpDivV F m (val a) (val b)) ∧
     Gives (.fsqrt f r d a) (fpSqrtV F m (val a)) ∧ Gives (.fmadd f r d a b) (fpFmaV F m (val a) (val b) (val d)) ∧
     Gives (.fcvtfi f r ty d a) (let v := fpToInt m signed w (val a); ((v.1 % 2 ^ 64).toNat, v.2)) ∧
     Gives (.fcvtif f r ty d a) (intToFp F m int)) ∧
  (∀ (F : Fmt) (rm : RMode) (n1 n2 n3 : Bool) (m1 m2 m3 : Nat) (e1 e2 e3 : Int), F = fmt64 ∨ F = fmt32 →
     let a := FVal.fin n1 m1 e1
     let b := FVal.fin n2 m2 e2
     let zero (same : Bool) (n : Bool) : Bool := if same then n else decide (rm = .rdn)
     (∃ n m e, fpAddV F rm a b = roundPlain F rm n m e ∧ valueOf n m e = valueOf n1 m1 e1 + valueOf n2 m2 e2 ∧ (m = 0 → n = zero (n1 == n2) n1)) ∧
     (∃ m e, fpMulV F rm a b = roundPlain F rm (n1 != n2) m e ∧ valueOf (n1 != n2) m e = valueOf n1 m1 e1 * valueOf n2 m2 e2) ∧
     (∃ n m e, fpFmaV F rm a b (.fin n3 m3 e3) = roundPlain F rm n m e ∧ valueOf n m e = valueOf n1 m1 e1 * valueOf n2 m2 e2 + valueOf n3 m3 e3 ∧
       (m = 0 → n = zero ((n1 != n2) == n3) n3)) ∧
     (m1 ≠ 0 → m2 ≠ 0 → m2 < 2 ^ 64 → ∃ m e, fpDivV F rm a b = roundPlain F rm (n1 != n2) m e ∧
       let x := valueOf false m1 e1 / valueOf false m2 e2
       StandsFor F.fb m e (· < x) (· = x) (x < ·)) ∧
     (m1 = 0 → m2 ≠ 0 → fpDivV F rm a b = (F.signed (n1 != n2) 0, 0)) ∧ (m1 ≠ 0 → m2 = 0 → fpDivV F rm a b = (F.signed (n1 != n2) F.infBits, 0x08)) ∧
     (m1 = 0 → m2 = 0 → fpDivV F rm a b = (F.canon, 0x10)) ∧
     (m1 ≠ 0 → n1 = false → ∃ m e, fpSqrtV F rm a = roundPlain F rm false m e ∧
       let x := valueOf false m1 e1
       StandsFor F.fb m e (fun y => y * y < x) (fun y => y * y = x) (fun y => x < y * y)) ∧
     (m1 = 0 → fpSqrtV F rm a = (F.signed n1 0, 0)) ∧ (m1 ≠ 0 → n1 = true → fpSqrtV F rm a = (F.canon, 0x10)) ∧
     (∀ sat draw, m1 ≠ 0 → (roundTo F rm sat draw n1 m1 e1).flags &&& 0x24 = 0 →
       let u := max ((Nat.log2 m1 : Int) + e1 - F.fb) (F.emin - F.fb)
       ∃ m e, unpack F (roundTo F rm sat draw n1 m1 e1).bits = .fin n1 m e ∧ valueOf n1 m e = valueOf n1 (roundAt rm n1 draw m1 e1 u).1 u)) ∧
  (∀ (s : State) (k : Nat) (f : FpFmt) (ty : BitVec 2) (d a b : Reg), s.actor = .strand k → 6 ≤ (s.strand k).frm.toNat →
     let Takes (i : Instr) (w : Word) : Prop := Runs i s (fun t => t = raise s ⟨.illegalInstruction, w.zeroExtend 64, 0⟩)
     Takes (.fadd f .dyn d a b) (wFadd f .dyn d a b) ∧ Takes (.fsub f .dyn d a b) (wFsub f .dyn d a b) ∧
     Takes (.fmul f .dyn d a b) (wFmul f .dyn d a b) ∧ Takes (.fdiv f .dyn d a b) (wFdiv f .dyn d a b) ∧
     Takes (.fsqrt f .dyn d a) (wFsqrt f .dyn d a) ∧ Takes (.fmadd f .dyn d a b) (wFmadd f .dyn d a b) ∧
     Takes (.fcvtfi f .dyn ty d a) (wFcvtfi f .dyn ty d a) ∧ Takes (.fcvtif f .dyn ty d a) (wFcvtif f .dyn ty d a) ∧
     Takes (.fcvtff f .dyn d a) (wFcvtff f .dyn d a)) ∧
  (∀ (s : State) (k : Nat) (f : FpFmt) (r : Rm) (d a : Reg) (m : RMode), s.actor = .strand k → fpMode s r = some m →
     let p := s.strand k
     let src := if f = .f64 then fmt32 else fmt64
     let dst := if f = .f64 then fmt64 else fmt32
     let c := fpConvert src dst m false (drawBits p.srgen[0]) ((readX p.x a).toNat % 2 ^ src.width)
     Runs (.fcvtff f r d a) s (StrandBecomes s k { p.gives d (BitVec.ofNat 64 c.bits) with
       fflags := p.fflags ||| c.flags, srgen := if c.drew then p.srgen.set 0 (drawNext p.srgen[0]) else p.srgen }) ∧
     (f = .f64 → c.drew = false) ∧ (m ≠ .rsr → c.drew = false))

/-- R139, R141, R157: the operations that never round, under every rounding code: the sign operations invert or clear the sign bit without a flag, the comparisons give 0 or 1, fmin and fmax one of the operands or the canonical NaN,
−0 being the lesser of the zeros; fclass one bit of ten, with NV for a signalling NaN (R157, as assumption 47 reads it); NV is the only flag they raise. fcvtff toward f64 is exact: it keeps the value, and a NaN becomes the canonical one. -/
def Obligations.FpUnrounded : Prop :=
  ∀ (s : State) (k : Nat) (f : FpFmt) (r : Rm) (d a b : Reg), s.actor = .strand k →
    let p := s.strand k
    let F := FpFmt.fmt f
    let bits (q : Reg) : Nat := (readX p.x q).toNat % 2 ^ F.width
    let va := unpack F (bits a)
    let vb := unpack F (bits b)
    let nan := va.isNan = true ∨ vb.isNan = true
    let sig := va.isSig = true ∨ vb.isSig = true
    let Gives (i : Instr) (v : Nat) (fl : BitVec 6) : Prop :=
      Runs i s (StrandBecomes s k { p.gives d (BitVec.ofNat 64 v) with fflags := p.fflags ||| fl })
    Gives (.fneg f r d a) (bits a ^^^ 2 ^ (F.width - 1)) 0 ∧ Gives (.fabs f r d a) (bits a % 2 ^ (F.width - 1)) 0 ∧
    Gives (.fcmpeq f r d a b) (if fpEq va vb then 1 else 0) (if sig then 0x10 else 0) ∧
    Gives (.fcmplt f r d a b) (if fpLt va vb then 1 else 0) (if nan then 0x10 else 0) ∧
    Gives (.fcmple f r d a b) (if fpLt va vb ∨ fpEq va vb then 1 else 0) (if nan then 0x10 else 0) ∧
    (∃ v, Gives (.fmin f r d a b) v (if sig then 0x10 else 0) ∧
      (va.isNan = true → vb.isNan = true → v = F.canon) ∧ (va.isNan = true → vb.isNan = false → v = bits b) ∧
      (va.isNan = false → vb.isNan = true → v = bits a) ∧ (¬nan → fpLt va vb = true → v = bits a) ∧ (¬nan → fpLt vb va = true → v = bits b) ∧
      (fpEq va vb = true → v = bits a ∨ v = bits b) ∧ (va.isZero = true → vb.isZero = true → v = if va.neg then bits a else bits b)) ∧
    (∃ v, Gives (.fmax f r d a b) v (if sig then 0x10 else 0) ∧
      (va.isNan = true → vb.isNan = true → v = F.canon) ∧ (va.isNan = true → vb.isNan = false → v = bits b) ∧
      (va.isNan = false → vb.isNan = true → v = bits a) ∧ (¬nan → fpLt va vb = true → v = bits b) ∧ (¬nan → fpLt vb va = true → v = bits a) ∧
      (fpEq va vb = true → v = bits a ∨ v = bits b) ∧ (va.isZero = true → vb.isZero = true → v = if va.neg then bits b else bits a)) ∧
    (∃ n, n < 10 ∧ Gives (.fclass f r d a) (2 ^ n) (if va.isSig then 0x10 else 0) ∧ (n = 8 ↔ va = .nan true) ∧ (n = 9 ↔ va = .nan false) ∧ (n = 0 ↔ va = .inf true) ∧ (n = 7 ↔ va = .inf false) ∧
      (n = 3 ↔ ∃ e, va = .fin true 0 e) ∧ (n = 4 ↔ ∃ e, va = .fin false 0 e) ∧
      let field := bits a / 2 ^ F.fb % 2 ^ F.eb
      (n = 1 ↔ field ≠ 0 ∧ ∃ m e, va = .fin true m e) ∧ (n = 6 ↔ field ≠ 0 ∧ ∃ m e, va = .fin false m e) ∧
      (n = 2 ↔ field = 0 ∧ ∃ m e, m ≠ 0 ∧ va = .fin true m e) ∧ (n = 5 ↔ field = 0 ∧ ∃ m e, m ≠ 0 ∧ va = .fin false m e)) ∧
    ((r = .dyn → p.frm.toNat ≤ 5) →
      let x := unpack fmt32 ((readX p.x a).toNat % 2 ^ 32)
      ∃ v, Gives (.fcvtff .f64 r d a) v (if x.isSig then 0x10 else 0) ∧ (x.isNan = true → v = fmt64.canon) ∧ (∀ n, x = .inf n → unpack fmt64 v = .inf n) ∧
        ∀ n m e, x = .fin n m e → ∃ m' e', unpack fmt64 v = .fin n m' e' ∧ valueOf n m' e' = valueOf n m e)

/-- R162, R163: rounding a magnitude m × 2^e to a multiple of 2^u, with u above e: q is one of the two neighbours, the flag says whether it is exact, an exact value is returned unchanged, and each mode chooses its neighbour:
RNE the nearest, ties to even; RTZ the one nearer zero; RDN and RUP by the sign; RNA the nearest, ties away; RSR the upper one when the draw is below the fraction in 65,536ths. -/
def Obligations.RoundingModes : Prop :=
  ∀ (rm : RMode) (neg : Bool) (draw m sh : Nat) (u : Int),
    let q := (roundAt rm neg draw m (u - sh) u).1
    let inexact := (roundAt rm neg draw m (u - sh) u).2
    let lo := m / 2 ^ sh
    (q = lo ∨ q = lo + 1) ∧ (inexact = true ↔ m % 2 ^ sh ≠ 0) ∧ (m % 2 ^ sh = 0 → q * 2 ^ sh = m) ∧
    (rm = .rne → 2 * m ≤ 2 * (q * 2 ^ sh) + 2 ^ sh ∧ 2 * (q * 2 ^ sh) ≤ 2 * m + 2 ^ sh ∧
      (2 * m = 2 * (q * 2 ^ sh) + 2 ^ sh ∨ 2 * (q * 2 ^ sh) = 2 * m + 2 ^ sh → q % 2 = 0)) ∧
    (rm = .rna → 2 * m < 2 * (q * 2 ^ sh) + 2 ^ sh ∧ 2 * (q * 2 ^ sh) ≤ 2 * m + 2 ^ sh) ∧
    (rm = .rtz → q = lo) ∧ (rm = .rdn → neg = false → q = lo) ∧ (rm = .rup → neg = true → q = lo) ∧
    (rm = .rdn → neg = true → inexact = true → q = lo + 1) ∧ (rm = .rup → neg = false → inexact = true → q = lo + 1) ∧
    (rm = .rsr → inexact = true → (q = lo + 1 ↔ draw < m % 2 ^ sh * 65536 / 2 ^ sh))

/-- R206, R209, R210, R180, R186: every VINT row, element by element, with a and b the operands' elements as numbers of EW bits and sa, sb as signed ones: what each processed element receives, and
that the saturating rows alone raise a flag, SAT, when they clamp. An x register as the vb operand gives every element its low EW bits. -/
def Obligations.VectorInteger : Prop :=
  ∀ (s : State) (k : Nat) (vd : Reg) (va : VSrc) (vb : VbSrc) (m : Msk), s.actor = .strand k →
    let p := s.strand k
    let e := ewBits p.vtype
    let g := grpRegs p.vtype
    let n := vlmaxOf p.vtype
    let a (w i : Nat) : Nat := vaElem s va w i
    let b (i : Nat) : Nat := match vb with | .vreg v => vget s k v.toNat e i | .xreg x => (readX p.x x).toNat % 2 ^ e
    let d (i : Nat) : Nat := vget s k vd.toNat e i
    let signed (w x : Nat) : Int := if x.testBit (w - 1) then (x : Int) - 2 ^ w else x
    let sa (i : Nat) : Int := signed e (a e i)
    let sb (i : Nat) : Int := signed e (b i)
    let bits (w : Nat) (z : Int) : Nat := (z % 2 ^ w).toNat
    let Row (i : Instr) (f : Nat → Int) : Prop := VectorResult i s k va vd.toNat e n m (fun j => (bits e (f j), 0))
    let Clamps (i : Instr) (lo hi : Int) (f : Nat → Int) : Prop :=
      VectorResult i s k va vd.toNat e n m (fun j => (bits e (max lo (min hi (f j))), if f j < lo ∨ hi < f j then 0x20 else 0))
    (VectorReady s k ((vd.toNat, g) :: sourceGroups va vb g) va e m →
      Row (.vadd vd va vb m) (fun i => a e i + b i) ∧ Row (.vsub vd va vb m) (fun i => a e i - b i) ∧ Row (.vrsub vd va vb m) (fun i => b i - a e i) ∧
      Row (.vmul vd va vb m) (fun i => a e i * b i) ∧ Row (.vmulh vd va vb m) (fun i => sa i * sb i / 2 ^ e) ∧
      Row (.vmulhn vd va vb m) (fun i => (a e i * b i / 2 ^ e : Nat)) ∧
      Row (.vdiv vd va vb m) (fun i => if b i = 0 then -1 else (sa i).tdiv (sb i)) ∧
      Row (.vdivn vd va vb m) (fun i => if b i = 0 then -1 else (a e i / b i : Nat)) ∧
      Row (.vrem vd va vb m) (fun i => if b i = 0 then a e i else sa i - sb i * (sa i).tdiv (sb i)) ∧
      Row (.vremn vd va vb m) (fun i => if b i = 0 then a e i else (a e i % b i : Nat)) ∧
      Row (.vmin vd va vb m) (fun i => min (sa i) (sb i)) ∧ Row (.vmax vd va vb m) (fun i => max (sa i) (sb i)) ∧
      Row (.vminn vd va vb m) (fun i => (min (a e i) (b i) : Nat)) ∧ Row (.vmaxn vd va vb m) (fun i => (max (a e i) (b i) : Nat)) ∧
      Row (.vand vd va vb m) (fun i => (a e i &&& b i : Nat)) ∧ Row (.vor vd va vb m) (fun i => (a e i ||| b i : Nat)) ∧
      Row (.vxor vd va vb m) (fun i => (a e i ^^^ b i : Nat)) ∧
      Row (.vsll vd va vb m) (fun i => (a e i * 2 ^ (b i % e) : Nat)) ∧ Row (.vsrl vd va vb m) (fun i => (a e i / 2 ^ (b i % e) : Nat)) ∧
      Row (.vsra vd va vb m) (fun i => sa i / 2 ^ (b i % e)) ∧
      Clamps (.vadds vd va vb m) (-2 ^ (e - 1)) (2 ^ (e - 1) - 1) (fun i => sa i + sb i) ∧
      Clamps (.vsubs vd va vb m) (-2 ^ (e - 1)) (2 ^ (e - 1) - 1) (fun i => sa i - sb i) ∧
      Clamps (.vaddsn vd va vb m) 0 (2 ^ e - 1) (fun i => a e i + b i) ∧ Clamps (.vsubsn vd va vb m) 0 (2 ^ e - 1) (fun i => a e i - b i) ∧
      Row (.vmacc vd va vb m) (fun i => d i + a e i * b i) ∧ Row (.vnmsac vd va vb m) (fun i => d i - a e i * b i)) ∧
    (e ≠ 64 → g ≠ 8 → VectorReady s k ((vd.toNat, 2 * g) :: sourceGroups va vb g) va e m →
      VectorResult (.vwmul vd va vb m) s k va vd.toNat (2 * e) n m (fun i => (bits (2 * e) (sa i * sb i), 0))) ∧
    (e ≠ 64 → g ≠ 8 → VectorReady s k ((vd.toNat, g) :: sourceGroups va (.xreg 0) (2 * g) ++ sourceGroups (.queue (.ring 0)) vb g) va (2 * e) m →
      VectorResult (.vnsrl vd va vb m) s k va vd.toNat e n m (fun i => (a (2 * e) i / 2 ^ (b i % (2 * e)) % 2 ^ e, 0))) ∧
    (e = 64 ∨ g = 8 →
      (VectorNamed s k ((vd.toNat, 2 * g) :: sourceGroups va vb g) va → Illegal (.vwmul vd va vb m) s) ∧
      (VectorNamed s k ((vd.toNat, g) :: sourceGroups va (.xreg 0) (2 * g) ++ sourceGroups (.queue (.ring 0)) vb g) va → Illegal (.vnsrl vd va vb m) s))

/-- R206, R211: every VFP row, element by element: what each processed element receives and the flags it raises, in the format EW and ALT name. A row that rounds does so under FRM, and takes
ILLEGAL_INSTRUCTION when FRM names no mode; every row takes it at EW 8, and vfrsqe and vfexp2 at every EW but 32. -/
def Obligations.VectorFloat : Prop :=
  ∀ (s : State) (k : Nat) (vd : Reg) (va : VSrc) (vb : VbSrc) (m : Msk), s.actor = .strand k →
    let p := s.strand k
    let e := ewBits p.vtype
    let g := grpRegs p.vtype
    let F := elemFmt p.vtype
    let bits (i : Nat) : Nat := vaElem s va e i
    let bitsB (i : Nat) : Nat := match vb with | .vreg v => vget s k v.toNat e i | .xreg x => (readX p.x x).toNat % 2 ^ e
    let a (i : Nat) : FVal := unpack F (bits i)
    let b (i : Nat) : FVal := unpack F (bitsB i)
    let d (i : Nat) : FVal := unpack F (vget s k vd.toNat e i)
    let sign : Nat := 2 ^ (e - 1)
    let Row (i : Instr) (f : Nat → FRes) : Prop := VectorResult i s k va vd.toNat e (vlmaxOf p.vtype) m f
    VectorReady s k ((vd.toNat, g) :: sourceGroups va vb g) va e m →
      (e ≠ 8 → ∀ rm, rmodeOf p.frm = some rm →
        Row (.vfadd vd va vb m) (fun i => fpAddV F rm (a i) (b i)) ∧ Row (.vfsub vd va vb m) (fun i => fpAddV F rm (a i) (b i).negate) ∧
        Row (.vfmul vd va vb m) (fun i => fpMulV F rm (a i) (b i)) ∧ Row (.vfdiv vd va vb m) (fun i => fpDivV F rm (a i) (b i)) ∧
        Row (.vfsqrt vd va m) (fun i => fpSqrtV F rm (a i)) ∧ Row (.vfmadd vd va vb m) (fun i => fpFmaV F rm (a i) (b i) (d i)) ∧
        Row (.vfnmadd vd va vb m) (fun i => fpFmaV F rm (a i).negate (b i) (d i).negate) ∧
        Row (.vfmsub vd va vb m) (fun i => fpFmaV F rm (a i) (b i) (d i).negate)) ∧
      (e ≠ 8 →
        Row (.vfmin vd va vb m) (fun i => fpMinMax F false (bits i) (bitsB i)) ∧ Row (.vfmax vd va vb m) (fun i => fpMinMax F true (bits i) (bitsB i)) ∧
        Row (.vfabs vd va m) (fun i => (bits i % sign, 0)) ∧ Row (.vfneg vd va m) (fun i => (bits i ^^^ sign, 0)) ∧
        Row (.vfsgnj vd va vb m) (fun i => (bits i % sign + bitsB i / sign * sign, 0)) ∧ Row (.vfclass vd va m) (fun i => (fpClass F (bits i), if (a i).isSig then 0x10 else 0))) ∧
      (e = 32 → Row (.vfrsqe vd va m) (fun i => rsqEstimate (bits i)) ∧ Row (.vfexp2 vd va m) (fun i => exp2Value (bits i))) ∧
      (e ≠ 32 → Illegal (.vfrsqe vd va m) s ∧ Illegal (.vfexp2 vd va m) s) ∧
      (e = 8 ∨ rmodeOf p.frm = none → ∀ i ∈ ([.vfadd vd va vb m, .vfsub vd va vb m, .vfmul vd va vb m, .vfdiv vd va vb m, .vfsqrt vd va m, .vfmadd vd va vb m,
        .vfnmadd vd va vb m, .vfmsub vd va vb m] : List Instr), Illegal i s) ∧
      (e = 8 → ∀ i ∈ ([.vfmin vd va vb m, .vfmax vd va vb m, .vfabs vd va m, .vfneg vd va m, .vfsgnj vd va vb m, .vfclass vd va m] : List Instr), Illegal i s)

/-- R212 to R216, R163, R164: a conversion of cv's source into each destination: what each processed element receives, the flags, and the draws of RSR, element by element in ascending order. SI names an
integer source, SU an unsigned one, DU an unsigned destination. The integer destinations are spelled out: NaN gives the greatest value with NV, an infinity or a value outside the type the nearer bound with SAT, any other value the integer it rounds to. R112, R169, R214: with its operands named rightly, a conversion to a destination of more than eight registers, and one under an FRM without a mode, takes ILLEGAL_INSTRUCTION. That the checks of names come first, and take the destination
as a group of its own size even where that is more than eight registers, is the model's reading (assumption 18). -/
def Obligations.VectorConvert : Prop :=
  (∀ (s : State) (k : Nat) (vd ra : Reg) (va : VSrc) (cv : BitVec 3) (m : Msk) (rm : RMode), s.actor = .strand k → rmodeOf (s.strand k).frm = some rm →
     let p := s.strand k
     let e := ewBits p.vtype
     let g := grpRegs p.vtype
     let F := elemFmt p.vtype
     let n := vlmaxOf p.vtype
     let src := if cv.getLsbD 0 then CvtSrc.int (!cv.getLsbD 1) e else CvtSrc.fp F
     let unsigned := cv.getLsbD 2
     let Row (i : Instr) (dst : CvtDst) : Prop :=
       g * dst.width ≤ 8 * e → VectorReady s k ((vd.toNat, max 1 (g * dst.width / e)) :: sourceGroups va (.xreg 0) g) va e m →
         DrawsResult i s k va vd.toNat dst.width n m (fun d j => cvtElem src dst unsigned rm d (vaElem s va e j))
     Row (.vcvtf64 vd va cv m) (.fp fmt64 false) ∧ Row (.vcvtf32 vd va cv m) (.fp fmt32 false) ∧ Row (.vcvtf16 vd va cv m) (.fp fmt16 false) ∧
     Row (.vcvtbf16 vd va cv m) (.fp fmtBf false) ∧ Row (.vcvte4m3 vd va cv m) (.fp fmtE4m3 false) ∧ Row (.vcvte5m2 vd va cv m) (.fp fmtE5m2 false) ∧
     Row (.vcvte4m3s vd va cv m) (.fp fmtE4m3 true) ∧ Row (.vcvte5m2s vd va cv m) (.fp fmtE5m2 true) ∧
     Row (.vcvti8 vd va cv m) (.int 8) ∧ Row (.vcvti16 vd va cv m) (.int 16) ∧ Row (.vcvti32 vd va cv m) (.int 32) ∧ Row (.vcvti64 vd va cv m) (.int 64) ∧
     (VectorReady s k [(vd.toNat, g), (ra.toNat, g)] (.vreg ra) e m →
       VectorResult (.vcvtfi vd ra m) s k (.vreg ra) vd.toNat e n m (fun j => let r := fpIntegral F rm (vget s k ra.toNat e j); (r.bits, r.flags))) ∧
     (∀ w, w = 8 ∨ w = 16 ∨ w = 32 ∨ w = 64 → ∀ x,
       let lo : Int := if unsigned then 0 else -2 ^ (w - 1)
       let hi : Int := if unsigned then 2 ^ w - 1 else 2 ^ (w - 1) - 1
       let gives (r : Rnd) (z : Int) (fl : BitVec 6) : Prop := r = ⟨(z % 2 ^ w).toNat, fl, false⟩
       (∀ sg w', let z := bitsInt sg w' x
         gives (cvtElem (.int sg w') (.int w) unsigned rm 0 x) (max lo (min hi z)) (if z < lo ∨ hi < z then 0x20 else 0)) ∧
       let r := cvtElem (.fp F) (.int w) unsigned rm 0 x
       match unpack F x with
       | .nan _ => gives r hi 0x10
       | .inf neg => gives r (if neg then lo else hi) 0x20
       | .fin neg mant ex => let q := roundInt rm.plain neg 0 mant ex
         gives r (max lo (min hi q.1)) (if q.1 < lo ∨ hi < q.1 then 0x20 else if q.2 then 0x01 else 0))) ∧
  (∀ (s : State) (k : Nat) (vd ra : Reg) (va : VSrc) (cv : BitVec 3) (m : Msk), s.actor = .strand k →
     let p := s.strand k
     let e := ewBits p.vtype
     let g := grpRegs p.vtype
     let Row (i : Instr) (w : Nat) : Prop := 8 * e < g * w ∨ rmodeOf p.frm = none →
       VectorNamed s k ((vd.toNat, max 1 (g * w / e)) :: sourceGroups va (.xreg 0) g) va → Illegal i s
     Row (.vcvtf64 vd va cv m) 64 ∧ Row (.vcvtf32 vd va cv m) 32 ∧ Row (.vcvtf16 vd va cv m) 16 ∧ Row (.vcvtbf16 vd va cv m) 16 ∧
     Row (.vcvte4m3 vd va cv m) 8 ∧ Row (.vcvte5m2 vd va cv m) 8 ∧ Row (.vcvte4m3s vd va cv m) 8 ∧ Row (.vcvte5m2s vd va cv m) 8 ∧
     Row (.vcvti8 vd va cv m) 8 ∧ Row (.vcvti16 vd va cv m) 16 ∧ Row (.vcvti32 vd va cv m) 32 ∧ Row (.vcvti64 vd va cv m) 64 ∧
     (rmodeOf p.frm = none → VectorNamed s k [(vd.toNat, g), (ra.toNat, g)] (.vreg ra) → Illegal (.vcvtfi vd ra m) s))

/-- R217 to R222: the quantising conversions. vqnt and vdeq read a record for every 32 elements; with well-formed records for the elements processed they make codes of 8 or 4 bits and values, and at the first
ill-formed one they trap with FORMAT_RECORD at that element, with the elements below it done. vmxq and vmxd hold 32 elements to one scale byte: vmxq lowers VSTART to a block's start, chooses each block's scale from the elements that take part, and writes
the bytes that R220 says; that VSTART is lowered before the idle test is assumption 69, and what the scale bytes of the tail are assumption 19. Element widths other than 16 and 32 take ILLEGAL_INSTRUCTION, after the checks of the operands' names (R112). -/
def Obligations.VectorQuantise : Prop :=
  ∀ (s : State) (k : Nat) (vd : Reg) (va : VSrc) (vb : Reg) (o : Bool) (m : Msk) (rm : RMode), s.actor = .strand k → rmodeOf (s.strand k).frm = some rm →
    let p := s.strand k
    let e := ewBits p.vtype
    let g := grpRegs p.vtype
    let F := elemFmt p.vtype
    let n := vlmaxOf p.vtype
    let w := if o then 4 else 8
    let share (w : Nat) : Nat := max 1 (g * w / e)
    let record (i : Nat) := recordOf w (vget s k vb.toNat 32 (i / 32))
    let code (i : Nat) : Nat := if o then vaElem s va 8 (i / 2) / 2 ^ (4 * (i % 2)) % 16 else vaElem s va 8 i
    let Ready (src dst w : Nat) : Prop := VectorReady s k ((vd.toNat, dst) :: (sourceGroups va (.xreg 0) src ++ [(vb.toNat, 1)])) va w m
    (e = 16 ∨ e = 32 →
      ((∀ i, Processed p m i → record i ≠ none) →
        (Ready g (share w) e → DrawsResult (.vqnt vd va vb o m) s k va vd.toNat w n m
          (fun d j => quantise F rm w ((record j).getD (false, 1, 0, 0)) d (vaElem s va e j))) ∧
        (Ready (share w) g w → DrawsResult (.vdeq vd va vb o m) s k va vd.toNat e n m
          (fun _ j => dequantise F rm ((record j).getD (false, 1, 0, 0)) (code j)))) ∧
      (∀ i, Processed p m i → record i = none → (∀ j, j < i → Processed p m j → record j ≠ none) →
        let Takes (x : Instr) (width : Nat) (f : Nat → Nat → Rnd) : Prop := Runs x s (fun t => ∃ u, t = raise u ⟨.formatRecord, vb.zeroExtend 64, i⟩ ∧
          DrawsUpTo s u k vd.toNat width n m f i)
        (Ready g (share w) e → Takes (.vqnt vd va vb o m) w (fun d j => quantise F rm w ((record j).getD (false, 1, 0, 0)) d (vaElem s va e j))) ∧
        (Ready (share w) g w → Takes (.vdeq vd va vb o m) e (fun _ j => dequantise F rm ((record j).getD (false, 1, 0, 0)) (code j)))) ∧
      (Ready (share 8) g 8 → DrawsResult (.vmxd vd va vb o m) s k va vd.toNat e n m (fun _ j =>
        let c := vget s k vb.toNat 8 (j / 32)
        match unpack (mxFmt o) (vaElem s va 8 j) with
        | .nan sig => ⟨F.canon, if sig then 0x10 else 0, false⟩
        | .inf neg => if c = 0xFF then ⟨F.canon, 0, false⟩ else ⟨F.signed neg F.infBits, 0, false⟩
        | .fin neg mant x => if c = 0xFF then ⟨F.canon, 0, false⟩
          else let r := roundPlain F rm neg mant (x + c - 127)
            ⟨r.1, r.2, false⟩)) ∧
      (let low := p.vstart.toNat / 32 * 32
       let s0 := s.upd k (fun q => { q with vstart := BitVec.ofNat 13 low })
       let takers (j : Nat) : List Nat := (List.range p.vl.toNat).filter (fun i => decide (i / 32 = j ∧ Processed (s0.strand k) m i))
       let scale (j : Nat) : Option Nat := mxScale o ((takers j).map (fun i => unpack F (vaElem s va e i)))
       VectorReady s0 k ((vd.toNat, share 8) :: (sourceGroups va (.xreg 0) g ++ [(vb.toNat, 1)])) va e m →
        Runs (.vmxq vd va vb o m) s (fun t => ∃ u,
          DrawsWrites s0 u k va vd.toNat 8 n m (fun d j => mxCode F o rm (scale (j / 32)) d (vaElem s va e j)) ∧
          OthersKept u t k vb.toNat 1 ∧ { t with vregs := u.vregs } = u ∧
          (∀ j, j < 512 → vget t k vb.toNat 8 j =
            if s0.idle = true ∨ (n + 31) / 32 ≤ j then vget u k vb.toNat 8 j
            else if (p.vl.toNat + 31) / 32 ≤ j then (if p.vtype.getLsbD 5 then 0 else vget u k vb.toNat 8 j)
            else if takers j = [] then vget u k vb.toNat 8 j else (scale j).getD 0xFF)))) ∧
    (e ≠ 16 → e ≠ 32 →
      (Ready g (share w) e → Illegal (.vqnt vd va vb o m) s) ∧ (Ready (share w) g w → Illegal (.vdeq vd va vb o m) s) ∧
      (Ready g (share 8) e → Illegal (.vmxq vd va vb o m) s) ∧ (Ready (share 8) g 8 → Illegal (.vmxd vd va vb o m) s))

/-- R207, R223, R224: what each processed element of a permutation receives: the element of va (for vzip, of va or vb) that the row names, where the cross-lane read gives zero from VLMAX on; an element of vslup
below the offset stays. vmerge chooses by the mask and writes every element from VSTART to vl − 1; vmvxs moves element 0, sign-extended, into xd, whatever vl and VSTART hold; vmvsx writes element 0 and nothing else. -/
def Obligations.VectorPermute : Prop :=
  ∀ (s : State) (k : Nat) (vd : Reg) (va : VSrc) (vs x : Reg) (vb : VbSrc) (m : Msk), s.actor = .strand k →
    let p := s.strand k
    let e := ewBits p.vtype
    let g := grpRegs p.vtype
    let n := vlmaxOf p.vtype
    let vl := p.vl.toNat
    let amount := (readX p.x x).toNat
    let from' (a : VSrc) (j : Nat) : Nat := match a with
      | .vreg v => if j < n then vget s k v.toNat e j else 0
      | .queue q => queueElem s q 0 e j
    let old (i : Nat) : Nat := vget s k vd.toNat e i
    let Row (i : Instr) (groups : List (Nat × Nat)) (src : Nat → Option Nat) : Prop :=
      VectorReadyFor s k ((vd.toNat, g) :: (sourceGroups va (.xreg 0) g ++ groups)) va e (fun j => ∃ i, Processed p m i ∧ src i = some j) →
      VectorResult i s k va vd.toNat e n m (fun i => ((src i).elim (old i) (from' va), 0))
    Row (.vslup vd va x m) [] (fun i => if amount ≤ i then some (i - amount) else none) ∧ Row (.vsldn vd va x m) [] (fun i => some (i + amount)) ∧
    Row (.vrot vd va x m) [] (fun i => some ((i + amount) % vl)) ∧ Row (.vperm vd va vs m) [(vs.toNat, g)] (fun i => some (vget s k vs.toNat e i)) ∧
    Row (.vbcast vd va x m) [] (fun _ => some amount) ∧ Row (.vunzip vd va x m) [] (fun i => some (2 * i + amount % 2)) ∧
    Row (.vrev vd va m) [] (fun i => some (vl - 1 - i)) ∧ Row (.vmv vd va m) [] some ∧
    (VectorReadyFor s k ((vd.toNat, g) :: (sourceGroups va (.xreg 0) g ++ [(vs.toNat, g)])) va e (fun j => Processed p m (2 * j)) →
      VectorResult (.vzip vd va vs m) s k va vd.toNat e n m (fun i => (if i % 2 = 0 then from' va (i / 2) else from' (.vreg vs) (i / 2), 0))) ∧
    (VectorReadyFor s k ((vd.toNat, g) :: sourceGroups va vb g) va e (fun i => p.vstart.toNat ≤ i ∧ i < vl ∧ ¬Processed p m i) →
      VectorResult (.vmerge vd va vb m) s k va vd.toNat e n Msk.all (fun i => (if Processed p m i
        then (match vb with | .vreg v => vget s k v.toNat e i | .xreg x => (readX p.x x).toNat % 2 ^ e) else vaElem s va e i, 0))) ∧
    ((∀ r ∈ sourceGroups va (.xreg 0) g, r.1 % r.2 = 0 ∧ r.1 + r.2 ≤ p.window) →
      (∀ q, va = .queue q → queueName s q = .ok () ∧ QueueReads s k q e (· = 0)) →
      let v := vaElem s va e 0
      Runs (.vmvxs x va) s (fun t => t.strand k =
        { ((vaPop s va).strand k).onward with vstart := 0, x := writeX p.x x (BitVec.ofInt 64 (if v.testBit (e - 1) then (v : Int) - 2 ^ e else v)) } ∧
        (∀ j, j ≠ k → t.strand j = (vaPop s va).strand j) ∧ { t with strands := s.strands } = s)) ∧
    (vd.toNat % g = 0 → vd.toNat + g ≤ p.window → Runs (.vmvsx vd x m) s (fun t =>
      (∀ i, i < n → vget t k vd.toNat e i = if i = 0 ∧ Processed p m 0 then amount % 2 ^ e else old i) ∧
      OthersKept s t k vd.toNat 1 ∧ t.strand k = { p.onward with vstart := 0 } ∧ (∀ j, j ≠ k → t.strand j = s.strand j) ∧
      { t with strands := s.strands, vregs := s.vregs } = s))

/-- R173, R174, R228: a reduction writes its result into element 0 of vd, also where VSTART is not 0; the elements above follow TA; with nothing to process it writes nothing. The result is made of init,
element 0 of vb or the low bits of x, and the elements that take part (where none does, a floating result is init bit for bit, and no flag is raised but by an extremum: assumption 68): the sum, the extrema, the bitwise folds, the sequential and the tree sum, and the floating extrema. -/
def Obligations.VectorReduce : Prop :=
  ∀ (s : State) (k : Nat) (vd : Reg) (va : VSrc) (vb : VbSrc) (m : Msk), s.actor = .strand k →
    let p := s.strand k
    let e := ewBits p.vtype
    let g := grpRegs p.vtype
    let n := vlmaxOf p.vtype
    let F := elemFmt p.vtype
    let init : Nat := match vb with | .vreg v => vget s k v.toNat e 0 | .xreg x => (readX p.x x).toNat % 2 ^ e
    let xs := parts s k va m e
    let positions : List (Option Nat) := (List.range p.vl.toNat).map (fun i => if Processed p m i then some (vaElem s va e i) else none)
    let signed (x : Nat) : Int := if x.testBit (e - 1) then (x : Int) - 2 ^ e else x
    let Row (i : Instr) (r : FRes) : Prop := Runs i s (fun t =>
      (∀ j, j < n → vget t k vd.toNat e j = if s.idle then vget s k vd.toNat e j
        else if j = 0 then r.1 % 2 ^ e else if p.vtype.getLsbD 5 then 0 else vget s k vd.toNat e j) ∧
      OthersKept s t k vd.toNat g ∧ VectorEnds s k va (if s.idle then 0 else r.2) id t)
    let Extreme (i : Instr) (before : Nat → Nat → Prop) : Prop := ∃ r, Row i (r, 0) ∧ (r = init ∨ r ∈ xs) ∧ ∀ x, x = init ∨ x ∈ xs → ¬before r x
    VectorReady s k ((vd.toNat, g) :: sourceGroups va vb g) va e m →
      Row (.vredsum vd va vb m) ((init + xs.sum) % 2 ^ e, 0) ∧
      Extreme (.vredmax vd va vb m) (fun r x => signed r < signed x) ∧ Extreme (.vredmin vd va vb m) (fun r x => signed x < signed r) ∧
      Extreme (.vredmaxn vd va vb m) (fun r x => r < x) ∧ Extreme (.vredminn vd va vb m) (fun r x => x < r) ∧
      (∃ r, Row (.vredand vd va vb m) (r, 0) ∧ ∀ b, r.testBit b = true ↔ init.testBit b = true ∧ ∀ x ∈ xs, x.testBit b = true) ∧
      (∃ r, Row (.vredor vd va vb m) (r, 0) ∧ ∀ b, r.testBit b = true ↔ init.testBit b = true ∨ ∃ x ∈ xs, x.testBit b = true) ∧
      Row (.vredxor vd va vb m) (xs.foldl (· ^^^ ·) init, 0) ∧
      (e ≠ 8 → ∀ rm, rmodeOf p.frm = some rm →
        Row (.vfredo vd va vb m) (seqSum F rm init xs) ∧ Row (.vfredt vd va vb m) (treeSum F rm init positions)) ∧
      (e ≠ 8 →
        let extreme (greater : Bool) : FRes := xs.foldl (fun a x => ((fpMinMax F greater a.1 x).1, a.2 ||| (fpMinMax F greater a.1 x).2)) (init, if (unpack F init).isSig then 0x10 else 0)
        Row (.vfredmax vd va vb m) (extreme true) ∧ Row (.vfredmin vd va vb m) (extreme false)) ∧
      (e = 8 ∨ rmodeOf p.frm = none → Illegal (.vfredo vd va vb m) s ∧ Illegal (.vfredt vd va vb m) s) ∧
      (e = 8 → Illegal (.vfredmax vd va vb m) s ∧ Illegal (.vfredmin vd va vb m) s)

/-- R184, R225, R226: the mask a compare or a mask logic row leaves, bit by bit; a floating compare takes ILLEGAL_INSTRUCTION at EW 8 and raises NV as its scalar row. vmmvc, vmfromx and vmtox act whatever vl and VSTART
hold. A write to m0 is discarded; m0 reads all ones. -/
def Obligations.VectorMasks : Prop :=
  ∀ (s : State) (k : Nat) (md ma mb : BitVec 3) (ra : Reg) (va : VSrc) (vb : VbSrc) (x y : Reg) (m : Msk), s.actor = .strand k →
    let p := s.strand k
    let e := ewBits p.vtype
    let g := grpRegs p.vtype
    let n := vlmaxOf p.vtype
    let F := elemFmt p.vtype
    let a (i : Nat) : Nat := vaElem s va e i
    let b (i : Nat) : Nat := match vb with | .vreg v => vget s k v.toNat e i | .xreg x => (readX p.x x).toNat % 2 ^ e
    let signed (x : Nat) : Int := if x.testBit (e - 1) then (x : Int) - 2 ^ e else x
    let bit (c : BitVec 3) (i : Nat) : Bool := decide (c = 0) || (p.m[c.toNat]'c.isLt).getLsbD i
    let Row (i : Instr) (f : Nat → Bool) : Prop := MaskResult i s k va md n m (fun j => (f j, 0))
    let Logic (i : Instr) (f : Nat → Bool) : Prop := MaskResult i s k (.vreg 0) md n Msk.all (fun j => (f j, 0))
    (VectorReady s k (sourceGroups va vb g) va e m →
      Row (.vmseq md va vb m) (fun i => decide (a i = b i)) ∧ Row (.vmsne md va vb m) (fun i => decide (a i ≠ b i)) ∧
      Row (.vmslt md va vb m) (fun i => decide (signed (a i) < signed (b i))) ∧ Row (.vmsltn md va vb m) (fun i => decide (a i < b i)) ∧
      Row (.vmsle md va vb m) (fun i => decide (signed (a i) ≤ signed (b i))) ∧ Row (.vmslen md va vb m) (fun i => decide (a i ≤ b i)) ∧
      (e ≠ 8 →
        let fa (i : Nat) : FVal := unpack F (a i)
        let fb (i : Nat) : FVal := unpack F (b i)
        MaskResult (.vmfeq md va vb m) s k va md n m (fun i => (fpEq (fa i) (fb i), if (fa i).isSig || (fb i).isSig then 0x10 else 0)) ∧
        MaskResult (.vmflt md va vb m) s k va md n m (fun i => (fpLt (fa i) (fb i), if (fa i).isNan || (fb i).isNan then 0x10 else 0)) ∧
        MaskResult (.vmfle md va vb m) s k va md n m (fun i =>
          (fpLt (fa i) (fb i) || fpEq (fa i) (fb i), if (fa i).isNan || (fb i).isNan then 0x10 else 0))) ∧
      (e = 8 → Illegal (.vmfeq md va vb m) s ∧ Illegal (.vmflt md va vb m) s ∧ Illegal (.vmfle md va vb m) s)) ∧
    (VectorReady s k [(ra.toNat, g)] (.vreg ra) e m →
      let fa (i : Nat) : FVal := unpack F (vget s k ra.toNat e i)
      (e ≠ 8 → MaskResult (.vmfnan md ra m) s k (.vreg ra) md n m (fun i => ((fa i).isNan, if (fa i).isSig then 0x10 else 0))) ∧
      (e = 8 → Illegal (.vmfnan md ra m) s)) ∧
    Logic (.vmand md ma mb) (fun i => bit ma i && bit mb i) ∧ Logic (.vmor md ma mb) (fun i => bit ma i || bit mb i) ∧
    Logic (.vmxor md ma mb) (fun i => bit ma i != bit mb i) ∧ Logic (.vmandn md ma mb) (fun i => bit ma i && !bit mb i) ∧
    Logic (.vmnot md ma) (fun i => !bit ma i) ∧ Logic (.vmmv md ma) (bit ma) ∧
    (let j := (readX p.x y).toNat % 64
     let Sets (i : Instr) (f : Nat → Bool) : Prop := Runs i s (fun t =>
       (∀ c : Fin 8, ∀ i, i < 4096 → ((t.strand k).m[c]).getLsbD i = if c.val = md.toNat ∧ md ≠ 0 then f i else p.m[c].getLsbD i) ∧
       t.strand k = { p.onward with vstart := 0, m := (t.strand k).m } ∧ (∀ j, j ≠ k → t.strand j = s.strand j) ∧ { t with strands := s.strands } = s)
     Sets (.vmmvc md) (fun i => p.cm.getLsbD i) ∧
     Sets (.vmfromx md x y) (fun i => if 64 * j ≤ i ∧ i < 64 * j + 64 then (readX p.x x).getLsbD (i - 64 * j) else bit md i) ∧
     (∃ v : Dword, (∀ i, i < 64 → v.getLsbD i = bit ma (64 * j + i)) ∧
       Runs (.vmtox x ma y) s (StrandBecomes s k { p.gives x v with vstart := 0 })))

/-- R232 to R242: compaction, conflicts, scans, counting and block lists. L is what vcompress, vpopx and vblklist write from element 0 up, with VL set to its length and the rest following TA; vexpand, the scans and viota
write under the policies; vconf writes every bit from VSTART to vl − 1; vfirst and vcpop write an x register. -/
def Obligations.VectorIrregular : Prop :=
  ∀ (s : State) (k : Nat) (vd : Reg) (md : BitVec 3) (va : VSrc) (h : Head) (x : Reg) (m : Msk), s.actor = .strand k →
    let p := s.strand k
    let e := ewBits p.vtype
    let g := grpRegs p.vtype
    let n := vlmaxOf p.vtype
    let F := elemFmt p.vtype
    let a (i : Nat) : Nat := vaElem s va e i
    let below (i : Nat) : List Nat := (List.range i).filter (fun j => decide (Processed p m j))
    let takers := below p.vl.toNat
    let bit (c : BitVec 3) (i : Nat) : Bool := if c = 0 then decide (i < 4096) else (p.m[c.toNat]'c.isLt).getLsbD i
    let Counts (i : Instr) (va : VSrc) (L : List Nat) : Prop := Runs i s (fun t =>
      (∀ j, j < n → vget t k vd.toNat e j = if s.idle then vget s k vd.toNat e j
        else match L[j]? with | some v => v % 2 ^ e | none => if p.vtype.getLsbD 5 then 0 else vget s k vd.toNat e j) ∧
      OthersKept s t k vd.toNat g ∧ VectorEnds s k va 0 (fun q => if s.idle then q else q.setVl L.length) t)
    let Gives (i : Instr) (v : Dword) : Prop := Runs i s (StrandBecomes s k { p.gives x v with vstart := 0 })
    let fold (f : Nat → Nat → FRes) (first : Nat → FRes) (l : List Nat) : FRes :=
      l.tail.foldl (fun r i => ((f r.1 (a i)).1, r.2 ||| (f r.1 (a i)).2)) (first (a (l.headD 0)))
    let heads (i : Nat) : Bool := match h with | .none => false | .mask c => bit c i
    let segment (i : Nat) : List Nat := (List.range (i + 1)).filter (fun j => decide (Processed p m j ∧ ∀ c, c ≤ i → j < c → heads c = false))
    let Scan (i : Instr) (first : Nat → FRes) (f : Nat → Nat → FRes) : Prop := VectorResult i s k va vd.toNat e n m (fun i => fold f first (segment i))
    let signed (x : Nat) : Int := if x.testBit (e - 1) then (x : Int) - 2 ^ e else x
    (VectorReady s k ((vd.toNat, g) :: sourceGroups va (.xreg 0) g) va e m →
      Counts (.vcompress vd va m) va (takers.map a) ∧
      Scan (.vsscan vd va h m) (fun x => (x, 0)) (fun r x => ((r + x) % 2 ^ e, 0)) ∧
      Scan (.vsscanmax vd va h m) (fun x => (x, 0)) (fun r x => (if signed r < signed x then x else r, 0)) ∧
      (e ≠ 8 → ∀ rm, rmodeOf p.frm = some rm → Scan (.vfsscan vd va h m)
        (fun x => if (unpack F x).isNan then (F.canon, if (unpack F x).isSig then 0x10 else 0) else (x, 0))
        (fun r x => fpAddV F rm (unpack F r) (unpack F x))) ∧
      (e = 8 ∨ rmodeOf p.frm = none → Illegal (.vfsscan vd va h m) s)) ∧
    (VectorReadyFor s k ((vd.toNat, g) :: sourceGroups va (.xreg 0) g) va e (· < takers.length) →
      VectorResult (.vexpand vd va m) s k va vd.toNat e n m (fun i => (let j := (below i).length
        match va with | .vreg v => if j < n then vget s k v.toNat e j else 0 | .queue q => queueElem s q 0 e j, 0))) ∧
    (VectorReady s k (sourceGroups va (.xreg 0) g) va e m →
      MaskResult (.vconf md va m) s k va md n Msk.all (fun i => (decide (Processed p m i) && (below i).any (fun j => a j == a i), 0))) ∧
    (vd.toNat % g = 0 → vd.toNat + g ≤ p.window →
      Counts (.vpopx vd m) (.vreg 0) takers ∧
      VectorResult (.viota vd md m) s k (.vreg 0) vd.toNat e n m (fun i => (((below i).filter (bit md)).length, 0))) ∧
    Gives (.vfirst x md m) (match takers.find? (bit md) with | some i => BitVec.ofNat 64 i | none => 0xFFFFFFFFFFFFFFFF) ∧
    Gives (.vcpop x md m) (BitVec.ofNat 64 (takers.filter (bit md)).length) ∧
    (let P := blkParam (packElems 8 ((List.range 64).map (vaElem s va 8)))
     let L := ((List.range (readX p.x x).toNat).filter (blkKept P)).take n
     e ≠ 8 → (∀ r ∈ (vd.toNat, g) :: sourceGroups va (.xreg 0) g, r.1 % r.2 = 0 ∧ r.1 + r.2 ≤ p.window) →
      (∀ q, va = .queue q → queueName s q = .ok () ∧ QueueReads s k q e (· < 512 / e)) →
      (P.sound = true → Runs (.vblklist vd va x) s (fun t =>
        (∀ j, j < n → vget t k vd.toNat e j =
          match L[j]? with | some v => v % 2 ^ e | none => if p.vtype.getLsbD 5 then 0 else vget s k vd.toNat e j) ∧
        OthersKept s t k vd.toNat g ∧ t.strand k = { (((vaPop s va).strand k).setVl L.length).onward with vstart := 0 } ∧
        (∀ j, j ≠ k → t.strand j = (vaPop s va).strand j) ∧ { t with strands := s.strands, vregs := s.vregs } = s)) ∧
      (P.sound = false → Runs (.vblklist vd va x) s (fun t => t = raise (s.upd k (fun q => { q with vstart := 0 }))
        ⟨.formatRecord, match va with | .vreg v => BitVec.ofNat 64 v.toNat | .queue (.ring r) => BitVec.ofNat 64 (24 + r.toNat)
                                      | .queue (.relay r) => BitVec.ofNat 64 (32 + r.toNat), 0⟩)))

/-- R243 to R246: vtopk selects the greatest of the elements that take part, without NaNs, in the order of sortEntries; vtopkm merges two lists, an entry of B whose index A holds being a duplicate. The list, its tail word and VL, the sums, VSTAT and
the flags are as the rules say; with nothing to process neither writes anything. -/
def Obligations.VectorSelect : Prop :=
  ∀ (s : State) (k : Nat) (vd a b x : Reg) (va : VSrc) (m : Msk) (rm : RMode), s.actor = .strand k → rmodeOf (s.strand k).frm = some rm →
    let p := s.strand k
    let e := ewBits p.vtype
    let g := grpRegs p.vtype
    let n := vlmaxOf p.vtype
    let F := elemFmt p.vtype
    let nan (v : Nat) : Bool := (unpack F v).isNan
    let sig (v : Nat) : BitVec 6 := if (unpack F v).isSig then 0x10 else 0
    let wide (v : Nat) : Nat := (fpConvert F fmt32 .rne false 0 v).bits
    let sum (l : List (Option Nat)) : FRes := treeSum fmt32 rm 0 l
    let fits (v : Reg) : Prop := v.toNat % g = 0 ∧ v.toNat + 3 * g ≤ p.window
    let Writes (t : State) (L : List Entry) (sel rest : Nat) : Prop :=
      (∀ j, j < n → vget t k vd.toNat e j = match L[j]? with | some y => y.val % 2 ^ e | none => if p.vtype.getLsbD 5 then 0 else vget s k vd.toNat e j) ∧
      (∀ j, j < n → vget t k (vd.toNat + g) e j =
        match L[j]? with | some y => y.idx % 2 ^ e | none => if p.vtype.getLsbD 5 then 0 else vget s k (vd.toNat + g) e j) ∧
      (t.vreg k (vd.toNat + 2 * g)).extractLsb' 0 128 = BitVec.ofNat 128 (L.length + 2 ^ 32 * sel + 2 ^ 64 * rest) ∧
      (∀ i, 128 ≤ i → (t.vreg k (vd.toNat + 2 * g)).getLsbD i = if p.vtype.getLsbD 5 then false else (s.vreg k (vd.toNat + 2 * g)).getLsbD i) ∧
      OthersKept s t k vd.toNat (2 * g + 1)
    (e = 16 ∨ e = 32 → fits vd →
      (VectorReady s k (sourceGroups va (.xreg 0) g) va e m →
        let c := (List.range p.vl.toNat).filter (fun j => decide (Processed p m j))
        let v (i : Nat) : Nat := vaElem s va e i
        let nums := c.filter (fun i => !nan (v i))
        let L := (sortEntries F (nums.map (fun i => ⟨v i, i⟩))).take (min (readX p.x x).toNat n)
        let chosen (i : Nat) : Bool := L.any (fun y => y.idx == i)
        let at' (f : Nat → Bool) : List (Option Nat) := (List.range p.vl.toNat).map (fun i => if i ∈ nums ∧ f i = true then some (wide (v i)) else none)
        let sel := sum (at' chosen)
        let rest := sum (at' (fun i => !chosen i))
        let fl := (c.filter (fun i => nan (v i))).foldl (fun f i => f ||| sig (v i)) (sel.2 ||| rest.2)
        Runs (.vtopk vd va x m) s (fun t =>
          (s.idle = true → VectorEnds s k va 0 id t ∧ t.vregs = s.vregs) ∧
          (s.idle = false → Writes t L sel.1 rest.1 ∧ VectorEnds s k va fl (fun q => { q.setVl L.length with
            x := writeX p.x x (BitVec.ofNat 64 (2 ^ 32 * rest.1 + sel.1)), vstat := vstatAdd p.vstat (c.filter (fun i => nan (v i))).length false false }) t))) ∧
      (fits a → fits b →
        let A := (readList s a.toNat).1.filter (fun y => !nan y.val)
        let B := (readList s b.toNat).1.filter (fun y => !nan y.val)
        let nans := ((readList s a.toNat).1 ++ (readList s b.toNat).1).filter (fun y => nan y.val)
        let twin (y : Entry) : Option Entry := A.find? (fun z => z.idx == y.idx)
        let order := sortEntries F (A ++ B.filter (fun y => (twin y).isNone))
        let L := order.take p.vl.toNat
        let sel := sum (L.map (fun y => some (wide y.val)))
        let rest := sum (some (readList s a.toNat).2 :: some (readList s b.toNat).2 :: (order.drop p.vl.toNat).map (fun y => some (wide y.val)))
        Runs (.vtopkm vd a b) s (fun t =>
          (s.idle = true → VectorEnds s k (.vreg 0) 0 id t ∧ t.vregs = s.vregs) ∧
          (s.idle = false → Writes t L sel.1 rest.1 ∧ VectorEnds s k (.vreg 0) (nans.foldl (fun f y => f ||| sig y.val) (sel.2 ||| rest.2)) (fun q => { q.setVl L.length with
            vstat := vstatAdd p.vstat nans.length (B.any (fun y => (twin y).isSome))
              (B.any (fun y => (twin y).any (fun z => !fpEq (unpack F z.val) (unpack F y.val)))) }) t))))

/-- R198 to R202, R204, R387, R388: vsetl, vsetlx and vloop set VTYPE, VL to the lesser of a and VLMAX, and VSTART to 0, and the first two give the new VL; vsetlx takes ILLEGAL_INSTRUCTION
for a vtype that is not legal. vlend lowers the trip count by n = min(VL, x[a]), advances np pointers by n elements, moves the declaration on by n, and repeats the body while the trip count is not 0, with VL set from it;
vbreak leaves the body when a is not 0. vslip sets VSLIP; that it clears VSTART is the model's reading (assumption 17). vdecl replaces the strand's declaration by the one it reads and vundecl removes it with its strip buffer. -/
def Obligations.VectorConfig : Prop :=
  ∀ (s : State) (k : Nat) (d a b : Reg) (vt : BitVec 8), s.actor = .strand k →
    let p := s.strand k
    let x := readX p.x a
    let Shaped (q : Strand) (vt : BitVec 8) : Strand := { q with vtype := vt, vl := BitVec.ofNat 13 (min x.toNat (vlmaxOf vt)), vstart := 0 }
    let Sets (vt : BitVec 8) : Strand := Shaped (p.gives d (BitVec.ofNat 64 (min x.toNat (vlmaxOf vt)))) vt
    let vx : BitVec 8 := (readX p.x b).extractLsb' 0 8
    Runs (.vsetl d a vt) s (StrandBecomes s k (Sets vt)) ∧
    (¬(vx.getLsbD 7 = true ∨ (vx.getLsbD 2 = true ∧ vx.getLsbD 1 = true)) → Runs (.vsetlx d a b) s (StrandBecomes s k (Sets vx))) ∧
    (vx.getLsbD 7 = true ∨ (vx.getLsbD 2 = true ∧ vx.getLsbD 1 = true) → Illegal (.vsetlx d a b) s) ∧
    Runs (.vloop a vt) s (StrandBecomes s k { Shaped p.onward vt with replay := none }) ∧
    Runs (.vslip a) s (StrandBecomes s k { p.onward with vslip := x.extractLsb' 0 3, vstart := 0 }) ∧
    (∀ off : Reg,
      (x = 0 → Runs (.vbreak a off) s (StrandBecomes s k p.onward)) ∧
      (x ≠ 0 → ¬(p.level = .user ∧ p.pc + BitVec.ofNat 64 (4 * (off.toNat + 1)) = 0) →
        Runs (.vbreak a off) s (StrandBecomes s k { p with replay := none, pc := p.pc + BitVec.ofNat 64 (4 * (off.toNat + 1)), wait := {} }))) ∧
    (∀ np len : Reg, a ≠ 0 → a.toNat + np.toNat ≤ 31 →
      let n := min p.vl.toNat x.toNat
      let left := x.toNat - n
      let start := p.pc - BitVec.ofNat 64 (4 * (len.toNat + 1))
      let Closed (u : State) : Prop :=
        (∀ r : Reg, readX (u.strand k).x r = if r = a then BitVec.ofNat 64 left
          else if a.toNat < r.toNat ∧ r.toNat ≤ a.toNat + np.toNat then readX p.x r + BitVec.ofNat 64 (n * ewBits p.vtype / 8) else readX p.x r) ∧
        (u.strand k).x[0] = p.x[0] ∧
        u.strand k = { p with x := (u.strand k).x, replay := (u.strand k).replay, vstart := 0, loopClosed := decide (left = 0), stripD := false
                              vl := if left = 0 then p.vl else BitVec.ofNat 13 (min left (vlmaxOf p.vtype))
                              decl := p.decl.map (fun c => { c with pos := c.pos + n }) } ∧
        (∀ j, j ≠ k → u.strand j = s.strand j) ∧ { u with strands := s.strands } = s
      (left ≠ 0 → Runs (.vlend np a len) s (fun t => ∃ u, Closed u ∧ t = jumpTo (prefetch u k) start (wVlend np a len) ∧
        (p.decl = none → ¬(p.level = .user ∧ start = 0) → StrandBecomes s k { u.strand k with pc := start, wait := {} } t))) ∧
      (left = 0 → Runs (.vlend np a len) s (fun t => ∃ u, Closed u ∧ (u.strand k).replay = none ∧ t = (prefetch u k).advance ∧
        (p.decl = none → StrandBecomes s k (u.strand k).onward t)))) ∧
    (x.toNat % 8 ≠ 0 → Runs (.vdecl a) s (fun t => t = raise s ⟨.misaligned, x, 0⟩)) ∧
    (∀ vs u, Accesses (fun i => loadN s.ctx (x + BitVec.ofNat 64 (8 * i)) 8 0 0) s (List.range 8) vs u →
      let n := packElems 64 vs
      (declOf n = none → Runs (.vdecl a) s (fun t => t = (undeclare u k).advance)) ∧
      (∀ c, declOf n = some c →
        Runs (.vdecl a) s (fun t => t = (prefetch ((undeclare u k).upd k (fun q => { q with decl := some c })) k).advance) ∧
        c.avl = n % 2 ^ 64 ∧ c.streams.length = n / 2 ^ 64 % 2 ^ 8 ∧ c.depth = n / 2 ^ 72 % 2 ^ 8 ∧ c.pos = 0 ∧
        1 ≤ c.streams.length ∧ c.streams.length ≤ 4 ∧ 1 ≤ c.depth ∧ c.depth ≤ 4)) ∧
    Runs .vundecl s (fun t => t.strand k = { p.onward with decl := none } ∧ (∀ j, j ≠ k → t.strand j = s.strand j) ∧
      { t with strands := s.strands, strip := s.strip } = s ∧ ∀ e, e ∈ t.strip ↔ e ∈ s.strip ∧ e.strand ≠ k)

/-- R268, R274 to R282, R287, R289: the vector loads into a register group. Each performed element is one access in lane i mod 32 at its form's address, an index being the one that a stop has latched where it has (R180); when all answer, the group holds what they read, under the policies,
cm is zero after a precise form, and no other change is made than by the accesses. vldb reads once, vldp4 one byte for a pair of codes, vldf waits for full words, vgl links. In a chrysalis every address is checked first (R448). The ascending order of the accesses is the model's choice (assumption 6). R192 to R194, R277, R280, R308: vldq and vldqk fill the ring's next slot, which they reserve, or the one they have reserved, and land it with their last access; vldqk writes the group too. A full ring makes it wait in a trio and take RING_FAULT in solo mode. R193, R195, R280: what landing leaves in a slot of a ring that no cocoon lies over, and in the group of vldqk. A byte of the slot below the last element is one of what the element's access read, zero where the element is masked off,
and as before below VSTART; every later byte is zero, and no other byte of memory changes; the slot is no longer on its way, and its flag says whether it is all zero. R183, R185, R274, R275, R448: how vector loads end that do not complete their accesses. With nothing to process they are through, with cm zero after the precise ones; an impossible data group is ILLEGAL_INSTRUCTION, as are vldf of narrow and vldp4 into wide elements.
A trap of the first access, or a later one of a true cause, is taken with the elements before it loaded and VSTART at it; any other ends the load with VL there; where an access waits, so does the load, and keeps nothing that only memory answered (R270). In a chrysalis it stalls before any access where an element lies
outside the read set. That a load which waited at a class D or full-empty element goes on there, past its first, is the model's choice (assumption 6). -/
def Obligations.VectorLoad : Prop :=
  (∀ (s : State) (k : Nat) (v a b : Reg) (o sb : Bool) (m : Msk) (ew : BitVec 2), s.actor = .strand k → s.idle = false →
     let p := s.strand k
     let w := 8 * 2 ^ ew.toNat
     let e := ewBits p.vtype
     let g := grpRegs p.vtype
     let group (w : Nat) : Nat := max 1 (g * w / e)
     let fits (w : Nat) : Prop := g * w ≤ 8 * e ∧ v.toNat % group w = 0 ∧ v.toNat + group w ≤ p.window
     let base := readX p.x a
     let unit (i : Nat) : Dword := base + BitVec.ofNat 64 (i * (w / 8))
     let stride (i : Nat) : Dword := base + BitVec.ofNat 64 i * readX p.x b
     let index (i : Nat) : Dword := base + BitVec.ofNat 64 ((sfind s.latched i).getD (vget s k b.toNat e i))
     let free (s0 : State) (l : List Nat) (addr : Nat → Dword) (n : Nat) (s1 : State) : Prop := specLoads s.ctx (l.map addr) n s0 = .ok () s1 ∧ s1.actor = s.actor
     let read (addr : Nat → Dword) (i : Nat) : M Nat := loadN s.ctx (addr i) (w / 8) i (i % 32)
     let elem (u : Bool) (addr : Nat → Dword) (i : Nat) : M Nat := do let r ← vloadElem u w i (addr i); pure r.1
     let Loads (i : Instr) (precise indexed : Bool) (w : Nat) (s0 : State) (l : List Nat) (acc : Nat → M Nat) (val : List (Nat × Nat) → Nat → Option Nat) : Prop :=
       ∀ vs u, Accesses acc s0 l vs u → SameControl p (u.strand k) → Runs i s (fun t =>
           VectorWritesAs p u t k v.toNat w (vlmaxOf p.vtype) m (fun j => (val (l.zip vs) j).getD (vget u k v.toNat w j)) ∧ AccessEnds u k precise (fun q => if indexed then { q with latch := none } else q) t)
     let own (r : List (Nat × Nat)) (j : Nat) : Option Nat := sfind r j
     let l := elements p m false
     let lp := elements p m true
     (fits w →
       (∀ s1, free s l unit (w / 8) s1 →
         Loads (.vld v a o sb m ew) false false w s1.issue l (elem true unit) own ∧
         (32 ≤ w → ∀ fs s2, Accesses (fun i => vldfTarget w i (unit i)) s1.issue l fs s2 → Loads (.vldf v a o sb m ew) false false w s2 l (fun i => do let r ← vldfElem w i (unit i); pure r.1) own)) ∧
       (∀ s1, free s l stride (w / 8) s1 → Loads (.vlds v a b o sb m ew) false false w s1.issue l (elem false stride) own) ∧
       (∀ s1, (if lp = [] then s1 = s.issue else free s.issue [0] (fun _ => base) (w / 8) s1) →
         Loads (.vldb v a o sb m ew) true false w s1 (lp.take 1) (elem false (fun _ => base)) (fun r j => if j ∈ lp then r.head?.map (·.2) else none)) ∧
       (b.toNat % g = 0 → b.toNat + g ≤ p.window → ∀ s1, free s lp index (w / 8) s1 → Loads (.vgat v a b o sb m ew) true true w s1.issue lp (read index) own)) ∧
     (fits 8 → e = 8 →
       let step : Dword := if b = 0 then 2 else readX p.x b
       let heads := l.filter (fun i => decide (i % 2 = 0 ∨ i - 1 ∉ l))
       (step.getLsbD 0 = true → Runs (.vldp4 v a b o sb m) s (fun t => t = raise s ⟨.stride, step, p.vstart.toNat⟩)) ∧
       let pair (i : Nat) : Dword := base + BitVec.ofNat 64 (i / 2) * step.sshiftRight 1
       (step.getLsbD 0 = false → ∀ s1, free s heads pair 1 s1 → Loads (.vldp4 v a b o sb m) false false 8 s1.issue heads
         (fun i => do let r ← vloadElem false 8 i (pair i); pure r.1)
         (fun r j => if j ∈ l then (r.find? (fun q => q.1 / 2 == j / 2)).map (fun q => q.2 / 16 ^ (j % 2) % 16) else none))) ∧
     (fits w → b.toNat % g = 0 → b.toNat + g ≤ p.window →
       ∀ s1, free s lp index (w / 8) s1 →
       Loads (.vgl v a b o sb m ew) true true w (if s.waitOf.issued then s1.issue else (s1.upd k (fun q => { q with links := [] })).issue) lp (fun i => do
         let t ← route s.ctx (index i) (w / 8) .read i (i % 32)
         if t.cls ≠ .n then trapM .classViolation (index i) i
         else
           if (s.specTask k).isSome then pure () else
             match t with
             | .loc f => cocoonFresh s.ctx f (w / 8) i
             | t => modify (fun q => forgetClean q q.core (w / 8) t)
           let x ← loadAt s.ctx t (index i) (w / 8) i
           modify (fun q => q.updMe (fun p =>
             let r := linkPlace q (index i) t / 256
             if p.links.contains r || decide (64 ≤ p.links.length) then p else { p with links := nsInsert p.links r }))
           pure x) own)) ∧
  (∀ (s : State) (k : Nat) (ring : BitVec 3) (v a : Reg) (o sb : Bool) (m : Msk) (ew : BitVec 2),
     s.actor = .strand k → s.idle = false →
     let p := s.strand k
     let w := 8 * 2 ^ ew.toNat
     let e := ewBits p.vtype
     let g := grpRegs p.vtype
     let group : Nat := max 1 (g * w / e)
     let l := elements p m false
     let unit (i : Nat) : Dword := readX p.x a + BitVec.ofNat 64 (i * (w / 8))
     let fits := v.toNat % group = 0 ∧ v.toNat + group ≤ p.window
     g * w ≤ 8 * e → queueName s (.ring ring) = .ok () → p.vl.toNat * w / 8 ≤ (s.ring k ring).slotBytes →
     ∀ s1, specLoads s.ctx (l.map unit) (w / 8) s = .ok () s1 → s1.actor = s.actor →
       let r := s1.ring k ring
       (∀ c s2, (if r.unlanded.find? (fun q => q.2 == k) = none
           then ringRoom s1 ring = .ok () ∧ c = r.tail.toNat ∧ s2 = s1.setRing k ring { r with tail := r.tail + 1, unlanded := sput r.unlanded r.tail.toNat k }
           else r.unlanded.find? (fun q => q.2 == k) = some (c, k) ∧ s2 = s1) →
         ∀ vs u, Accesses (fun i => do let r ← vloadElem true w i (unit i); pure r.1) s2.issue l vs u → SameControl p (u.strand k) →
           let Fills (i : Instr) (vd : Option Nat) : Prop := Runs i s (fun t => t =
             let q := landLoad { vd := vd, w := w, slot := some (ring, c) } m (l.zip vs) p.vl.toNat true u
             (q.upd k (fun x => { x with vstart := 0 })).upd k Strand.onward)
           Fills (.vldq ring a o sb m ew) none ∧ (fits → Fills (.vldqk v a ring o sb m ew) (some v.toNat))) ∧
       (r.unlanded.find? (fun q => q.2 == k) = none → r.slots ≤ r.used →
         let Full (i : Instr) : Prop :=
           (s1.trio k = true → Runs i s (fun t => t = s1.upd k (fun q => { q with wait := { q.wait with blocked := true } }))) ∧
           (s1.trio k = false → Runs i s (fun t => t = raise s1 ⟨.ringFault, BitVec.ofNat 64 ring.toNat, 0⟩))
         Full (.vldq ring a o sb m ew) ∧ (fits → Full (.vldqk v a ring o sb m ew)))) ∧
  (∀ (s : State) (k : Nat) (ring : BitVec 3) (c n w : Nat) (vd : Option Nat) (m : Msk) (vals : List (Nat × Nat)), s.actor = .strand k → s.idle = false → s.specTask k = none → s.cocoons = [] →
     Memory.wf s.mem = true → (w = 8 ∨ w = 16 ∨ w = 32 ∨ w = 64) → n = (s.strand k).vl.toNat →
     let p := s.strand k
     let r := s.ring k ring
     let a := ringSlotAddr r c
     let at_ (o : Nat) : Nat := localFlat s k (winCode a) (winOff a + o) 0
     let sectors := r.slotBytes / 64
     (∀ x y, x < sectors → y < sectors → x ≠ y → at_ (64 * x) + 64 ≤ at_ (64 * y) ∨ at_ (64 * y) + 64 ≤ at_ (64 * x)) →
     let elem (i b : Nat) : Byte := if i < p.vstart.toNat then Mem.read s.mem (at_ (i * (w / 8)) + b) else byteOf ((sfind vals i).getD 0 % 2 ^ w) b
     let byte (j : Nat) : Byte := if j / (w / 8) < n then elem (j / (w / 8)) (j % (w / 8)) else 0
     let t := landLoad { vd := vd, w := w, slot := some (ring, c) } m vals n true s
     Memory.wf t.mem = true ∧
     (∀ q j, q < sectors → j < 64 → Mem.read t.mem (at_ (64 * q) + j) = byte (64 * q + j)) ∧
     (∀ f, (∀ q, q < sectors → f < at_ (64 * q) ∨ at_ (64 * q) + 64 ≤ f) → Mem.read t.mem f = Mem.read s.mem f) ∧
     (let r' := t.ring k ring
      r'.head = r.head ∧ r'.tail = r.tail ∧ sfind r'.unlanded c = none ∧ (∀ d, d ≠ c → sfind r'.unlanded d = sfind r.unlanded d) ∧
      (c % r.slots ∈ r'.zero ↔ ∀ i b, i < n → b < w / 8 → elem i b = 0)) ∧
     (match vd with
      | some v => VectorWrites s t k v w (vlmaxOf p.vtype) m (fun j => (sfind vals j).getD (vget s k v w j))
      | none => t.vregs = s.vregs)) ∧
  (∀ (s : State) (k : Nat) (v a b : Reg) (ring : BitVec 3) (o sb : Bool) (m : Msk) (ew : BitVec 2), s.actor = .strand k →
     let p := s.strand k
     let w := 8 * 2 ^ ew.toNat
     let e := ewBits p.vtype
     let g := grpRegs p.vtype
     let group (w : Nat) : Nat := max 1 (g * w / e)
     let named (w : Nat) : Prop := v.toNat % group w = 0 ∧ v.toNat + group w ≤ p.window
     let named2 : Prop := named w ∧ b.toNat % g = 0 ∧ b.toNat + g ≤ p.window
     let ringNamed : Prop := queueName s (.ring ring) = .ok () ∧ p.vl.toNat * w / 8 ≤ (s.ring k ring).slotBytes
     let base := readX p.x a
     let unit (i : Nat) : Dword := base + BitVec.ofNat 64 (i * (w / 8))
     let stride (i : Nat) : Dword := base + BitVec.ofNat 64 i * readX p.x b
     let Idle (i : Instr) : Prop := Runs i s (StrandBecomes s k { p.onward with vstart := 0 })
     let IdlePrecise (i : Instr) : Prop := Runs i s (StrandBecomes s k { p.onward with vstart := 0, cm := 0 })
     let vld := Instr.vld v a o sb m ew
     let vlds := Instr.vlds v a b o sb m ew
     let vldf := Instr.vldf v a o sb m ew
     let vldb := Instr.vldb v a o sb m ew
     let vldp4 := Instr.vldp4 v a b o sb m
     let vldq := Instr.vldq ring a o sb m ew
     let vldqk := Instr.vldqk v a ring o sb m ew
     let vgat := Instr.vgat v a b o sb m ew
     let vgl := Instr.vgl v a b o sb m ew
     (s.idle = true → (g * w ≤ 8 * e → (named w → Idle vld ∧ Idle vlds ∧ IdlePrecise vldb ∧ (32 ≤ w → Idle vldf)) ∧ (named2 → IdlePrecise vgat ∧ IdlePrecise vgl) ∧
         (ringNamed → Idle vldq ∧ (named w → Idle vldqk))) ∧ (e = 8 → named 8 → Idle vldp4)) ∧
     (8 * e < g * w → (named w → Illegal vld s ∧ Illegal vlds s ∧ Illegal vldb s ∧ Illegal vldf s) ∧ (named2 → Illegal vgat s ∧ Illegal vgl s) ∧
       (ringNamed → Illegal vldq s ∧ (named w → Illegal vldqk s))) ∧
     (w < 32 → named w → Illegal vldf s) ∧ (e ≠ 8 → named 8 → Illegal vldp4 s) ∧
     (s.idle = false → g * w ≤ 8 * e → named w →
       let l := elements p m false
       let Stops (i : Instr) (ub : Bool) (addr : Nat → Dword) : Prop := ∀ s1, specLoads s.ctx (l.map addr) (w / 8) s = .ok () s1 → s1.actor = s.actor →
         ∀ n x vs u st t0, l[n]? = some x → Accesses (fun i => vloadElem ub w i (addr i)) s1.issue (l.take n) vs u → vloadElem ub w x (addr x) u = .error st t0 →
           t0.actor = s.actor → SameControl p (t0.strand k) →
           let res (j : Nat) : Nat := (sfind ((l.take n).zip (vs.map (·.1))) j).getD (vget t0 k v.toNat w j)
           let Keeps (q : State) (f : Strand → Strand) : Prop := q.strand k = f (t0.strand k) ∧ (∀ j, j ≠ k → q.strand j = t0.strand j) ∧ { q with strands := t0.strands, vregs := t0.vregs } = t0 ∧
             (∀ c, (∀ j, j < vlmaxOf p.vtype → c ≠ t0.vkey k (v.toNat + j * w / 4096)) → sget 0 q.vregs c = sget 0 t0.vregs c)
           let Below (q : State) (tail : Bool) : Prop := ∀ j, j < vlmaxOf p.vtype → vget q k v.toNat w j =
             if j < x then afterPolicy p m j (res j % 2 ^ w) (vget t0 k v.toNat w j) else if tail ∧ p.vtype.getLsbD 5 = true then 0 else vget t0 k v.toNat w j
           (st = .wait → (∀ r ∈ vs, r.2 = false) → Runs i s (fun t => t = t0.upd k (fun q => { q with wait := { q.wait with blocked := true } }))) ∧
           (st = .wait → (∃ r ∈ vs, r.2 = true) → n ≠ 0 → Runs i s (fun t => Below t false ∧
             Keeps t (fun q => { q with vstart := BitVec.ofNat 13 x, wait := { q.wait with begun := true, blocked := true } }))) ∧
           (∀ c, st = .trap c → (n = 0 ∧ (t0.strand k).wait.begun = false) ∨ c.cause = .memPoison ∨ c.cause = .memTimeout ∨ c.cause = .classViolation →
             Runs i s (fun t => ∃ q, t = raise q c ∧ Below q false ∧ Keeps q (fun q => { q with vstart := BitVec.ofNat 13 x }))) ∧
           (∀ c, st = .trap c → ¬((n = 0 ∧ (t0.strand k).wait.begun = false) ∨ c.cause = .memPoison ∨ c.cause = .memTimeout ∨ c.cause = .classViolation) →
             Runs i s (fun t => Below t true ∧ Keeps t (fun q => { (q.setVl x).onward with vstart := 0 })))
       Stops vld true unit ∧ Stops vlds false stride) ∧
     (∀ task, s.specTask k = some task → s.idle = false → s.cocoons = [] → g * w ≤ 8 * e →
       let Stalls (i : Instr) (l : List Nat) (addr : Nat → Dword) : Prop :=
         (∀ j ∈ l, (addr j).toNat % (w / 8) = 0 ∧ winCode (addr j) ≠ 0 ∧ winCode (addr j) ≠ 0xFE ∧ ∃ size, windowSize s k (winCode (addr j)) = some size ∧ winOff (addr j) < size) →
         (∃ j ∈ l, inReadSet s k task.2 (addr j) (w / 8) = false) →
         Runs i s (StrandBecomes s k { p with wait := { p.wait with blocked := true } })
       (named w → Stalls vld (elements p m false) unit ∧ Stalls vlds (elements p m false) stride) ∧
       (ringNamed → Stalls vldq (elements p m false) unit ∧ (named w → Stalls vldqk (elements p m false) unit))))

/-- R268, R276, R283 to R287, R289: the vector stores. Each performed element is one store of its width in lane i mod 32 at the address its form gives it, an index being the one that a stop has latched where it has (R180), of the element of the group or of the slot; when all answer, cm is zero and
VSTART 0; with the o or s bit, or a progress word, each performs at its home at once. A task in a chrysalis first has every address checked, or stalls (R448). A notify store is checked first and adds the elements to the progress word last, beat by beat; vstf fills its words, which must be local; vstq pops its slot; vscc stores, at their homes, the elements whose regions are linked and leaves them named in its mask. That the stores of the elements are made in ascending order, and that the adds of a notify store follow all of them, is the model's choice (assumptions 6 and 24). R183, R185, R274, R290: with nothing to process a vector store, atomic or vwait is through, and cm is zero after all of them but vgatw; a data group that cannot be is ILLEGAL_INSTRUCTION, as is vstf of narrow elements. -/
def Obligations.VectorStore : Prop :=
  (∀ (s : State) (k : Nat) (v a b : Reg) (ring : BitVec 3) (o sb : Bool) (m : Msk) (c : BitVec 3) (ew : BitVec 2), s.actor = .strand k → s.idle = false →
     let p := s.strand k
     let w := 8 * 2 ^ ew.toNat
     let e := ewBits p.vtype
     let g := grpRegs p.vtype
     let group : Nat := max 1 (g * w / e)
     let fits : Prop := g * w ≤ 8 * e ∧ v.toNat % group = 0 ∧ v.toNat + group ≤ p.window
     let base := readX p.x a
     let unit (i : Nat) : Dword := base + BitVec.ofNat 64 (i * (w / 8))
     let stride (i : Nat) : Dword := base + BitVec.ofNat 64 i * readX p.x b
     let index (i : Nat) : Dword := base + BitVec.ofNat 64 ((sfind s.latched i).getD (vget s k b.toNat e i))
     let free (l : List Nat) (addr : Nat → Dword) (s1 : State) : Prop := specStores s.ctx (l.map addr) (w / 8) s = .ok () s1 ∧ s1.actor = s.actor
     let write (now : Bool) (val : Nat → Nat) (addr : Nat → Dword) (i : Nat) : M Unit := do
       let q ← get
       if now then storeNow q.ctx (addr i) (w / 8) (val i) i (i % 32) else storeN q.ctx (addr i) (w / 8) (val i) i (i % 32)
     let own (i : Nat) : Nat := vget s k v.toNat w i
     let l := elements p m true
     let Stalls (i : Instr) : Prop := Runs i s (StrandBecomes s k { p with wait := { p.wait with blocked := true } })
     let Ends (i : Instr) (u : State) : Prop := Runs i s (fun t => AccessEnds u k true id t ∧ t.vregs = u.vregs)
     let Saves (i : Instr) (addr : Nat → Dword) (acc : (Nat → Dword) → Nat → M Unit) : Prop := ∀ s1, free l addr s1 → ∀ vs u, Accesses (acc addr) s1.issue l vs u → Ends i u
     (fits → Saves (.vst v a o sb m ew) unit (write (o || sb) own) ∧ Saves (.vsts v a b o sb m ew) stride (write (o || sb) own) ∧
       (32 ≤ w → s.specTask k = none → ∀ vs u, Accesses (fun i => do
         let t ← resolve s.ctx (unit i) (w / 8) .write i (i % 32)
         match t with
         | .loc f => do
           if o || sb then do
             homeReady s.ctx t (w / 8) (unit i) i
             atOnce (localWrite s.ctx f (w / 8) (own i) (unit i) i)
           else localWrite s.ctx f (w / 8) (own i) (unit i) i
           modify (fun s => { s with full := (upFrom (f / 4) (w / 32)).foldl nsInsert s.full })
         | _ => trapM .classViolation (unit i) i) s.issue l vs u → Ends (.vstf v a o sb m ew) u) ∧
       (s.specTask k = none → ∀ vs u0 u t0, notifyCheck s = .ok () u0 → u0.actor = s.actor → SameControl p (u0.strand k) →
         (Accesses (write true own unit) u0.issue l vs u → notifyAdd w p.vstart.toNat p.vl.toNat u = .ok () t0 → t0.actor = s.actor → Ends (.vstn v a o sb m ew) t0) ∧
         (Accesses (write true own stride) u0.issue l vs u → notifyAdd w p.vstart.toNat p.vl.toNat u = .ok () t0 → t0.actor = s.actor → Ends (.vstsn v a b o sb m ew) t0)) ∧
       (b.toNat % g = 0 → b.toNat + g ≤ p.window → Saves (.vsca v a b o sb m ew) index (write (o || sb) own)) ∧
       (∀ task, s.specTask k = some task → (32 ≤ w → Stalls (.vstf v a o sb m ew)) ∧ Stalls (.vstn v a o sb m ew) ∧ Stalls (.vstsn v a b o sb m ew))) ∧
     (g * w ≤ 8 * e → VectorReadyFor s k [] (.queue (.ring ring)) w (· ∈ l) →
       ∀ s1, free l unit s1 → ∀ vs u, Accesses (write (o || sb) (queueElem s (.ring ring) 0 w) unit) s1.issue l vs u →
         Runs (.vstq ring a o sb m ew) s (fun t => ∃ q, AccessEnds u k true id q ∧ q.vregs = u.vregs ∧ t = queuePop q (.ring ring) 1)) ∧
     (fits → b.toNat % g = 0 → b.toNat + g ≤ p.window →
       ∀ s1, free (elements p ⟨false, c⟩ true) index s1 →
       let lc := elements p ⟨false, c⟩ true
       let n := vlmaxOf p.vtype
       ∀ regions u t0, Accesses (fun i => do
           let t ← route s.ctx (index i) (w / 8) .write i (i % 32)
           if t.cls ≠ .n then trapM .classViolation (index i) i
           else
             homeReady s.ctx t (w / 8) (index i) i
             let q ← get
             pure (linkPlace q (index i) t / 256)) s1 lc regions u →
         let linked := (lc.zip regions).filter (fun q => p.links.contains q.2)
         Accesses (fun i => storeNow s.ctx (index i) (w / 8) (own i) i (i % 32)) u (linked.map (·.1)) (linked.map (fun _ => ())) t0 → SameControl p (t0.strand k) →
         Runs (.vscc v a b o sb c ew) s (fun t => t.vregs = t0.vregs ∧
           (∀ d : Fin 8, ∀ j, ((t.strand k).m[d]).getLsbD j = if d.val = c.toNat ∧ c ≠ 0 ∧ j < n
             then afterPolicy p Msk.all j (if p.cm.getLsbD j || linked.any (fun q => q.1 == j) then 1 else 0) (p.m[d].getLsbD j).toNat == 1 else p.m[d].getLsbD j) ∧
           AccessEnds t0 k true (fun q => { q with m := (t.strand k).m, links := p.links.filter (fun r => !regions.contains r) }) t))) ∧
  (∀ (s : State) (k : Nat) (v a b : Reg) (ring : BitVec 3) (o sb ret : Bool) (m : Msk) (c : BitVec 3) (ew : BitVec 2), s.actor = .strand k →
     let p := s.strand k
     let w := 8 * 2 ^ ew.toNat
     let e := ewBits p.vtype
     let g := grpRegs p.vtype
     let group : Nat := max 1 (g * w / e)
     let aligned (r : Reg) (n : Nat) : Prop := r.toNat % n = 0 ∧ r.toNat + n ≤ p.window
     let unit : List Instr := [.vst v a o sb m ew, .vsts v a b o sb m ew, .vstn v a o sb m ew, .vstsn v a b o sb m ew]
     let indexed : List Instr := [.vsca v a b o sb m ew, .vscc v a b o sb c ew]
     let atomics : List Instr := [.vamoadd v a b o ret m, .vamoand v a b o ret m, .vamoor v a b o ret m, .vamoxor v a b o ret m, .vamomin v a b o ret m, .vamomax v a b o ret m,
       .vamominn v a b o ret m, .vamomaxn v a b o ret m, .vamoswap v a b o ret m, .vwait v a b o ret m]
     let Idle (i : Instr) : Prop := Runs i s (StrandBecomes s k { p.onward with vstart := 0, cm := 0 })
     (s.idle = true →
       (g * w ≤ 8 * e → aligned v group → (∀ i ∈ unit, Idle i) ∧ (32 ≤ w → Idle (.vstf v a o sb m ew)) ∧
         (aligned b g → (∀ i ∈ indexed, Idle i) ∧ Runs (.vgatw v a b o sb c ew) s (StrandBecomes s k { p.onward with vstart := 0 }))) ∧
       (g * w ≤ 8 * e → queueName s (.ring ring) = .ok () → Idle (.vstq ring a o sb m ew)) ∧
       (32 ≤ e → aligned v g → aligned b g → (∀ i ∈ atomics, Idle i) ∧ ((rmodeOf p.frm).isSome → Idle (.vamofadd v a b o ret m)))) ∧
     (8 * e < g * w → aligned v group → (∀ i ∈ unit, Illegal i s) ∧ Illegal (.vstf v a o sb m ew) s ∧
       (aligned b g → (∀ i ∈ indexed, Illegal i s) ∧ Illegal (.vgatw v a b o sb c ew) s)) ∧
     (8 * e < g * w → VectorNamed s k [] (.queue (.ring ring)) → Illegal (.vstq ring a o sb m ew) s) ∧
     (w < 32 → aligned v group → Illegal (.vstf v a o sb m ew) s))

/-- R288, R290 to R292: vgatw reads a window of memory and gathers from it, naming the elements that miss it in its mask; the vector atomics check every element and then apply them, each giving memory f of the value there and the element, and return the old
values when asked; vwait arms a watch once for each element it has room for and ends when all watched words have reached theirs. A task in a chrysalis has the addresses of vgatw and vwait checked first, and stalls at an atomic (R448). That elements are applied in ascending order (assumption 6), what of the window vgatw reads and which elements vwait arms (assumption 21) are the model's choices. -/
def Obligations.VectorAtomic : Prop :=
  ∀ (s : State) (k : Nat) (v a b : Reg) (o sb ret : Bool) (m : Msk) (c : BitVec 3) (ew : BitVec 2), s.actor = .strand k → s.idle = false →
    let p := s.strand k
    let w := 8 * 2 ^ ew.toNat
    let e := ewBits p.vtype
    let g := grpRegs p.vtype
    let n := vlmaxOf p.vtype
    let group : Nat := max 1 (g * w / e)
    let aligned (r : Reg) (n : Nat) : Prop := r.toNat % n = 0 ∧ r.toNat + n ≤ p.window
    let index (i : Nat) : Dword := readX p.x a + BitVec.ofNat 64 ((sfind s.latched i).getD (vget s k b.toNat e i))
    let l := elements p m true
    let signed (x : Nat) : Int := if x.testBit (e - 1) then (x : Int) - 2 ^ e else x
    let Atomic (i : Instr) (f : Nat → Nat → FRes) : Prop :=
     (∀ task, s.specTask k = some task → Runs i s (StrandBecomes s k { p with wait := { p.wait with blocked := true } })) ∧
     (s.specTask k = none → ∀ u0 olds u, vamoCheck s (if ret then some v else none) a b m (e / 8) s.issue = .ok () u0 → u0.actor = s.actor →
      Accesses (fun i => do
        let x := vget s k v.toNat e i
        let old ← amoN s.ctx (index i) (e / 8) i (i % 32) (fun y => some (f y x).1)
        modify (·.updMe (·.accrue (f old x).2))
        pure old) u0 l olds u → SameControl p (u.strand k) →
      Runs i s (fun t => AccessEnds u k true id t ∧
        (if ret then VectorWritesAs p u t k v.toNat e n m (fun j => (sfind (l.zip olds) j).getD (vget u k v.toNat e j)) else t.vregs = u.vregs)))
    (g * w ≤ 8 * e → aligned v group → aligned b g → ∀ s1, specLoads s.ctx ((List.range n).map (fun i => readX p.x a + BitVec.ofNat 64 (i * (w / 8)))) (w / 8) s = .ok () s1 → s1.actor = s.actor →
      ∀ win u, readWindow (readX p.x a) w n s1 = .ok win u → u.actor = s.actor → SameControl p (u.strand k) →
      let hit (i : Nat) : Option Nat :=
        let off := vget s k b.toNat e i
        if off % (w / 8) = 0 then win[off / (w / 8)]? else none
      Runs (.vgatw v a b o sb c ew) s (fun t => VectorWritesAs p u t k v.toNat w n ⟨false, c⟩ (fun j => (hit j).getD (vget u k v.toNat w j)) ∧
        (∀ d : Fin 8, ∀ j, ((t.strand k).m[d]).getLsbD j = if d.val = c.toNat ∧ c ≠ 0 ∧ j < n
          then afterPolicy p Msk.all j (if Processed p ⟨false, c⟩ j ∧ hit j = none then 1 else 0) (p.m[d].getLsbD j).toNat == 1 else p.m[d].getLsbD j) ∧
        AccessEnds u k false (fun q => { q with m := (t.strand k).m }) t)) ∧
    (32 ≤ e → aligned v g → aligned b g →
      Atomic (.vamoadd v a b o ret m) (fun y x => ((y + x) % 2 ^ e, 0)) ∧ Atomic (.vamoand v a b o ret m) (fun y x => (y &&& x, 0)) ∧
      Atomic (.vamoor v a b o ret m) (fun y x => (y ||| x, 0)) ∧ Atomic (.vamoxor v a b o ret m) (fun y x => (y ^^^ x, 0)) ∧
      Atomic (.vamomin v a b o ret m) (fun y x => (if signed y < signed x then y else x, 0)) ∧
      Atomic (.vamomax v a b o ret m) (fun y x => (if signed y < signed x then x else y, 0)) ∧
      Atomic (.vamominn v a b o ret m) (fun y x => (min y x, 0)) ∧ Atomic (.vamomaxn v a b o ret m) (fun y x => (max y x, 0)) ∧
      Atomic (.vamoswap v a b o ret m) (fun _ x => (x, 0)) ∧
      (∀ rm, rmodeOf p.frm = some rm → Atomic (.vamofadd v a b o ret m)
        (fun y x => let F := if e = 32 then fmt32 else fmt64; fpAddV F rm (unpack F y) (unpack F x))) ∧
      (rmodeOf p.frm = none → Illegal (.vamofadd v a b o ret m) s) ∧
      (∀ s1, specLoads s.ctx (l.map index) (e / 8) s = .ok () s1 → s1.actor = s.actor → ∀ arms u got q,
         (if s.waitOf.issued = true ∧ p.watch ≠ [] then arms = p.watch ∧ u = s1 else Accesses (armWatch s v a b) s1 (l.take (watchRoom s k)) arms u) →
         let idx := arms.map (·.elem)
         let armed := idx.zip arms
         Accesses (fun i => watchRead s a b ((sfind armed i).getD ⟨i, 0, 0, 0, false⟩)) (u.upd k (fun t => { t with watch := arms })).issue idx got q → SameControl p (q.strand k) →
           let reached := ∀ j x y, (j, x) ∈ idx.zip got → sfind armed j = some y → y.target ≤ x
           (¬reached → Runs (.vwait v a b o ret m) s (fun t => t = q.upd k (fun t => { t with wait := { t.wait with blocked := true } }))) ∧
           (reached → Runs (.vwait v a b o ret m) s (fun t =>
             let r := acquire q (k / 3) (if arms.any (·.outside) then .system else .device)
             let vl := if idx.length = l.length then p.vl.toNat else ((idx.getLast?).map (· + 1)).getD p.vl.toNat
             AccessEnds r k true (fun x => { x.setVl vl with watch := [] }) t ∧
             (if ret then (∀ j, j < n → vget t k v.toNat e j = match sfind (idx.zip got) j with | some x => x % 2 ^ e | none => vget r k v.toNat e j) ∧
                OthersKept r t k v.toNat g else t.vregs = r.vregs))))) ∧
    (e < 32 → aligned v g → aligned b g → ∀ i ∈ ([.vamoadd v a b o ret m, .vamoand v a b o ret m, .vamoor v a b o ret m, .vamoxor v a b o ret m, .vamomin v a b o ret m,
      .vamomax v a b o ret m, .vamominn v a b o ret m, .vamomaxn v a b o ret m, .vamoswap v a b o ret m, .vamofadd v a b o ret m, .vwait v a b o ret m] : List Instr), Illegal i s)

/-- R247 to R253, R263 to R265: tclaim binds the first free tile of the strand's share, zeroed; tfree lets it go; tzero zeroes it; tstat counts, and says whether a tmop on the tile is in flight; a slice move copies a row or column between a vector register and the tile.
A name without a tile takes TILE_UNCLAIMED where a tile is needed. An instruction on a tile that is being zeroed waits, as does one on a tile that a tmop in flight of another strand names, which has issued before it. Poison in what a slice move reads is taken with VSTART 0. Nothing else changes. -/
def Obligations.TileMoves : Prop :=
  ∀ (s : State) (k : Nat) (v x : Reg) (acc : BitVec 2) (int : Bool), s.actor = .strand k →
    let p := s.strand k
    let idx := (readX p.x x).toNat
    let waits : Strand := { p with wait := { p.wait with blocked := true } }
    let free := s.freeTiles
    let Gives (i : Instr) (d : Reg) (n : Nat) : Prop := Runs i s (StrandBecomes s k (p.gives d (BitVec.ofNat 64 n)))
    let inFlight (i j : Nat) : Prop := i / 3 = k / 3 ∧ (s.strand i).wait.issued = true ∧ (s.strand i).wait.tile = some j
    let held (j : Nat) : Prop := (s.tile j).busy = true ∨ ∃ i, i ≠ k ∧ inFlight i j ∧ (p.wait.seq = 0 ∨ (s.strand i).wait.seq < p.wait.seq)
    let moves : List Instr := [.trdrow v acc x, .trdcol v acc x, .twrrow acc x v, .twrcol acc x v]
    let Stops (is : List Instr) (c : Cause) (a : Dword) : Prop := ∀ i ∈ is, Runs i s (fun t => t = raise s ⟨c, a, 0⟩)
    (∀ j, s.tileKey k acc = some j → Gives (.tclaim x acc int) x 1) ∧
    (s.tileKey k acc = none → free = [] → Gives (.tclaim x acc int) x 2) ∧
    (∀ j l, s.tileKey k acc = none → free = j :: l → Runs (.tclaim x acc int) s
      (StrandBecomes (s.setTile j { bound := some (s.shardKey k, acc), int := int, busy := true }) k (p.gives x 0))) ∧
    (s.tileKey k acc = none → Runs (.tfree acc) s (StrandBecomes s k p.onward) ∧ Stops [.tzero acc int] .tileUnclaimed (BitVec.ofNat 64 acc.toNat) ∧
      (v.toNat < p.window → Stops moves .tileUnclaimed (BitVec.ofNat 64 acc.toNat))) ∧
    (∀ j, s.tileKey k acc = some j → held j →
      Runs (.tfree acc) s (StrandBecomes s k waits) ∧ Runs (.tzero acc int) s (StrandBecomes s k waits)) ∧
    (∀ j, s.tileKey k acc = some j → ¬held j →
      Runs (.tfree acc) s (StrandBecomes (s.setTile j {}) k p.onward) ∧
      Runs (.tzero acc int) s (StrandBecomes (s.setTile j { bound := (s.tile j).bound, int := int, rows := [], poison := [], busy := true }) k p.onward)) ∧
    (∀ busy : Bool, (busy = true ↔ ∃ i j, s.tileKey k acc = some j ∧ inFlight i j) →
      Gives (.tstat x acc) x (65536 * ((s.groupOf k).map (·.tiles)).getD 0 + 256 * free.length + (if busy then 4 else 0) +
        match s.tileKey k acc with | some j => if (s.tile j).int then 3 else 1 | none => 0)) ∧
    (p.window ≤ v.toNat → Stops moves .vregWindow (BitVec.ofNat 64 v.toNat)) ∧
    (∀ j, s.tileKey k acc = some j → v.toNat < p.window →
      (¬(ewBits p.vtype = 32 ∧ grpRegs p.vtype = 1) → ∀ i ∈ moves, Illegal i s) ∧
      (ewBits p.vtype = 32 → grpRegs p.vtype = 1 → 128 ≤ idx → Stops moves .windowRange (BitVec.ofNat 64 idx)) ∧
      (ewBits p.vtype = 32 → grpRegs p.vtype = 1 → idx < 128 → held j → ∀ i ∈ moves, Runs i s (StrandBecomes s k waits))) ∧
    (∀ j, s.tileKey k acc = some j → ¬held j → ewBits p.vtype = 32 → grpRegs p.vtype = 1 → v.toNat < p.window → idx < 128 →
      let body (q : Nat) : Prop := p.vstart.toNat ≤ q ∧ q < min p.vl.toNat 128
      let Reads (i : Instr) (row col : Nat → Nat) : Prop :=
        let bad (q : Nat) : Prop := body q ∧ 128 * row q + col q ∈ (s.tile j).poison
        ((∀ q, ¬bad q) → VectorResult i s k (.vreg v) v.toNat 32 128 ⟨false, 0⟩ (fun q => (((s.tile j).elem (row q) (col q)).toNat, 0))) ∧
        (∀ q, bad q → (∀ r, r < q → ¬bad r) → Runs i s (fun t => t = raise (s.upd k (fun q => { q with vstart := 0 })) ⟨.memPoison, BitVec.ofNat 64 acc.toNat, 128 * row q + col q⟩))
      let Writes (i : Instr) (at' : Nat → Nat → Option Nat) : Prop := Runs i s (fun t =>
        let written (r c : Nat) : Option Nat := (at' r c).filter (fun q => decide (p.vstart.toNat ≤ q ∧ q < min p.vl.toNat 128))
        (∀ r c, r < 128 → c < 128 → (t.tile j).elem r c =
          match written r c with | some q => BitVec.ofNat 32 (vget s k v.toNat 32 q) | none => (s.tile j).elem r c) ∧
        (∀ q, q ∈ (t.tile j).poison ↔ q ∈ (s.tile j).poison ∧ written (q / 128) (q % 128) = none) ∧
        (t.tile j).bound = (s.tile j).bound ∧ (t.tile j).int = (s.tile j).int ∧ (t.tile j).busy = false ∧ (∀ i, i ≠ j → t.tile i = s.tile i) ∧
        t.strand k = { p.onward with vstart := 0 } ∧ (∀ i, i ≠ k → t.strand i = s.strand i) ∧ { t with strands := s.strands, tiles := s.tiles } = s)
      Reads (.trdrow v acc x) (fun _ => idx) id ∧ Reads (.trdcol v acc x) id (fun _ => idx) ∧
      Writes (.twrrow acc x v) (fun r c => if r = idx then some c else none) ∧ Writes (.twrcol acc x v) (fun r c => if c = idx then some r else none))

/-- R254 to R262: a step of tmop, once its checks pass and its slots have landed, adds to each element of a row that m_rp names and of a column below min(vl, 128) the products of the two containers, by stepElem (TileElement says what that is), and
pops the slots; a skipped step pops them and changes no element. With vl 0 nothing is done. Until its slots have landed and its tile is free it waits, in flight with its claims. A failing container is taken with its index in VSTART, poison of the tile with VSTART 0. The multi-step form performs step TSTEP.STEP once
the slots of that step have landed, and goes on to the next step; after the last one it pops all its slots and leaves STEP 0. R170 to R172, R254, R255: one element of a step. An integer format adds the exact sum of the products, wrapped or with sat clamped and SAT set. A floating format sums its terms, cut to multiples of 2^(E − 126) for the greatest exponent E among them, and rounds once, to nearest even; a NaN, 0 × ∞ or infinities
of both signs give the canonical NaN, another infinity itself. A scaled format has one term, P × 2^(ea + eb − 254), and a grouped one sa × sb × I. What sign a zero term of the last two kinds has is the model's choice (assumption 48). -/
def Obligations.TileProduct : Prop :=
  (∀ (s : State) (k : Nat) (acc : BitVec 2) (f : TmFmt) (src : TmSrc) (va vb : Queue) (rp : BitVec 3) (sub sat : Bool) (w : Word), s.actor = .strand k →
     let p := s.strand k
     let a := (tmPair src).1
     let b := (tmPair src).2
     let parts : Nat := match f with | .mxe4m3 => 2 | .mxe5m2 => 2 | .q8 => 2 | .q4 => 2 | _ => 1
     let cb := claimBase a b parts
     let done (t : State) : State := (t.upd k (fun q => { q with vstart := 0 })).upd k Strand.onward
     let held (j : Nat) : Prop := (s.tile j).busy = true ∨
       ∃ i, i ≠ k ∧ i / 3 = k / 3 ∧ (s.strand i).wait.issued = true ∧ (s.strand i).wait.tile = some j ∧ (p.wait.seq = 0 ∨ (s.strand i).wait.seq < p.wait.seq)
     let issued (j : Nat) (claims : List (Queue × Nat)) : Strand :=
       if p.wait.seq = 0 then { p with wait := { p.wait with issued := true, claims := claims, tile := some j, seq := s.tick + 1 } } else p
     let claims (n : Nat) : List (Queue × Nat) := match src with | .regs _ _ => [] | .queues x y => [(x, n), (y, n)]
     let regs (src : TmSrc) : List Nat := match src with | .regs x y => (List.range parts).map (x.toNat + ·) ++ (List.range parts).map (y.toNat + ·) | .queues _ _ => []
     let takes (r c : Nat) : Prop := (p.mask rp).getLsbD r = true ∧ c < min p.vl.toNat 128
     (s.tileKey k acc = none →
       ((∀ r ∈ regs src, r < p.window) → Runs (.tmop acc f src rp sub sat) s (fun t => t = raise s ⟨.tileUnclaimed, BitVec.ofNat 64 acc.toNat, 0⟩)) ∧
       Runs (.tmopMs acc f va vb rp sub sat) s (fun t => t = raise s ⟨.tileUnclaimed, BitVec.ofNat 64 acc.toNat, 0⟩)) ∧
     (∀ j, encode (.tmop acc f src rp sub sat) = some w → tmChecks s acc f a b parts w = .ok j →
       s.tileKey k acc = some j ∧
       (p.vl = 0 → Runs (.tmop acc f src rp sub sat) s (fun t => t = done s)) ∧
       (p.vl ≠ 0 → (∀ x, claimFault s a 0 parts = .error (.trap x) → Runs (.tmop acc f src rp sub sat) s (fun t => t = raise s x)) ∧
        (claimFault s a 0 parts = .ok () → claimFault s b cb parts = .ok () →
         let ready := claimReady s a 0 parts = .ok () ∧ claimReady s b cb parts = .ok () ∧ ¬held j
         (¬ready → Runs (.tmop acc f src rp sub sat) s (StrandBecomes s k { issued j (claims parts) with wait := { (issued j (claims parts)).wait with blocked := true } })) ∧
         (ready → ∀ x, stepCheck s f a b 0 cb rp = .error (.trap x) → Runs (.tmop acc f src rp sub sat) s (fun t => t = raise (s.upd k (fun q => { q with vstart := BitVec.ofNat 13 x.elem })) x)) ∧
         (ready → stepCheck s f a b 0 cb rp = .ok () →
           (stepSkipped s f a b 0 cb = true → Runs (.tmop acc f src rp sub sat) s (fun t => t = done (tmPop s a b parts))) ∧
           (stepSkipped s f a b 0 cb = false → (∃ q ∈ (s.tile j).poison, takes (q / 128) (q % 128)) → ∃ q ∈ (s.tile j).poison, takes (q / 128) (q % 128) ∧
             Runs (.tmop acc f src rp sub sat) s (fun t => t = raise (s.upd k (fun r => { r with vstart := 0 })) ⟨.memPoison, BitVec.ofNat 64 acc.toNat, q⟩)) ∧
           (stepSkipped s f a b 0 cb = false → (∀ q ∈ (s.tile j).poison, ¬takes (q / 128) (q % 128)) →
             Runs (.tmop acc f src rp sub sat) s (fun t =>
               let second (x : VSrc) (c i : Nat) : Nat := if parts = 2 then tmRead s x (c + 1) (if tmScaled f then 8 else 32) i else 0
               let elem (r c : Nat) : FRes := stepElem f sub sat (tmRead s a 0 32 r) (tmRead s b cb 32 c) (second a 0 r) (second b cb c) ((s.tile j).elem r c).toNat
               (∀ r c, r < 128 → c < 128 → (takes r c → ((t.tile j).elem r c) = BitVec.ofNat 32 (elem r c).1) ∧ (¬takes r c → (t.tile j).elem r c = (s.tile j).elem r c)) ∧
               (∀ i, i ≠ j → t.tile i = s.tile i) ∧ { t.tile j with rows := (s.tile j).rows } = s.tile j ∧
               (∀ n, (t.strand k).fflags.getLsbD n = true ↔ p.fflags.getLsbD n = true ∨ ∃ r c, r < 128 ∧ takes r c ∧ (elem r c).2.getLsbD n = true) ∧
               t.strand k = { ((tmPop s a b parts).strand k).onward with vstart := 0, fflags := (t.strand k).fflags } ∧
               (∀ i, i ≠ k → t.strand i = (tmPop s a b parts).strand i) ∧ { t with strands := s.strands, tiles := s.tiles } = s)))))) ∧
     (let nsteps := (p.tstep.extractLsb' 16 16 : BitVec 16).toNat
      let step := (p.tstep.extractLsb' 0 16 : BitVec 16).toNat
      let n := nsteps * parts
      let cb := claimBase (.queue va) (.queue vb) n
      let fresh (t : State) : State := t.upd k (fun q => { q with tstep := q.tstep &&& 0xFFFF0000 })
      ∀ j, encode (.tmopMs acc f va vb rp sub sat) = some w → tmChecks s acc f (.queue va) (.queue vb) n w = .ok j →
       (p.vl = 0 ∨ nsteps ≤ step → Runs (.tmopMs acc f va vb rp sub sat) s (fun t => t = done (fresh s))) ∧
       (p.vl ≠ 0 → step < nsteps → (∀ x, claimFault s (.queue va) 0 n = .error (.trap x) → Runs (.tmopMs acc f va vb rp sub sat) s (fun t => t = raise s x)) ∧
        (claimFault s (.queue va) 0 n = .ok () → claimFault s (.queue vb) cb n = .ok () →
         let q := if p.wait.seq = 0 then s.upd k (fun _ => issued j [(va, n), (vb, n)]) else s
         let ca' := parts * step
         let cb' := cb + parts * step
         let ready := claimReady q (.queue va) ca' parts = .ok () ∧ claimReady q (.queue vb) cb' parts = .ok () ∧ (q.tile j).busy = false ∧ tileTaken q j = false
         (¬ready → Runs (.tmopMs acc f va vb rp sub sat) s (fun t => t = q.upd k (fun r => { r with wait := { r.wait with blocked := true } }))) ∧
         (ready →
           ∀ u, tmStep q j acc f sub sat (.queue va) (.queue vb) ca' cb' rp = .ok u → u.actor = s.actor →
             Runs (.tmopMs acc f va vb rp sub sat) s (fun t => t = if step + 1 = nsteps then done (fresh (tmPop u (.queue va) (.queue vb) n))
               else u.upd k (fun r => { r with tstep := (r.tstep &&& 0xFFFF0000) ||| BitVec.ofNat 32 (step + 1) }))))))) ∧
  (∀ (f : TmFmt) (sub sat : Bool) (a b sa sb c : Nat), c < 2 ^ 32 →
     let K : Nat := match f with | .f32 => 1 | .bf16 => 2 | .f16 => 2 | .i4 => 8 | .q4 => 8 | _ => 4
     let B := 32 / K
     let x (n i : Nat) : Nat := n / 2 ^ (B * i) % 2 ^ B
     let int (w n : Nat) : Int := if n.testBit (w - 1) then (n : Int) - 2 ^ w else n
     let r := stepElem f sub sat a b sa sb c
     let signed (neg : Bool) (m : Nat) : Int := if neg then -(m : Int) else m
     let F : Fmt := match f with | .f32 => fmt32 | .bf16 => fmtBf | .f16 => fmt16 | .e5m2 => fmtE5m2 | .mxe5m2 => fmtE5m2 | _ => fmtE4m3
     let va (i : Nat) : FVal := unpack F (x a i)
     let vb (i : Nat) : FVal := unpack F (x b i)
     let cv := unpack fmt32 c
     let Sums (T : List (Bool × Nat × Int)) : Prop :=
       ((∀ t ∈ T, t.2.1 = 0) → r = (if T.all (·.1) then 0x80000000 else 0, 0)) ∧
       (∀ E : Int, (∃ t ∈ T, t.2.1 ≠ 0 ∧ (Nat.log2 t.2.1 : Int) + t.2.2 = E) → (∀ t ∈ T, t.2.1 ≠ 0 → (Nat.log2 t.2.1 : Int) + t.2.2 ≤ E) →
         let u := E - 126
         let S := (T.map (fun t => signed t.1 (if u ≤ t.2.2 then t.2.1 * 2 ^ (t.2.2 - u).toNat else t.2.1 / 2 ^ (u - t.2.2).toNat))).sum
         let sticky := T.any (fun t => decide (t.2.2 < u ∧ t.2.1 % 2 ^ (u - t.2.2).toNat ≠ 0))
         (S = 0 → r = (0, if sticky then 0x03 else 0)) ∧
         (S ≠ 0 → let q := roundTo fmt32 .rne sat 0 (decide (S < 0)) (2 * S.natAbs + if sticky then 1 else 0) (E - 127)
           r = (q.bits, q.flags)))
     (f = .i8 ∨ f = .i4 →
       let P := ((List.range K).map (fun i => int B (x a i) * int B (x b i))).sum
       let n := int 32 c + if sub then -P else P
       r = if sat then ((max (-2 ^ 31) (min (2 ^ 31 - 1) n) % 2 ^ 32).toNat, if n < -2 ^ 31 ∨ 2 ^ 31 ≤ n then 0x20 else 0) else ((n % 2 ^ 32).toNat, 0)) ∧
     (f ∈ [TmFmt.f32, .bf16, .f16, .e4m3, .e5m2] →
       let bare (i : Nat) : Prop := (∃ n e, va i = .fin n 0 e) ∧ (∃ n, vb i = .inf n) ∨ (∃ n, va i = .inf n) ∧ (∃ n e, vb i = .fin n 0 e)
       let infinite (neg : Bool) (i : Nat) : Prop := ∃ n1 n2, neg = (n1 != n2) ∧ (va i = .inf n1 ∧ (vb i = .inf n2 ∨ ∃ m e, m ≠ 0 ∧ vb i = .fin n2 m e) ∨ (∃ m e, m ≠ 0 ∧ va i = .fin n1 m e) ∧ vb i = .inf n2)
       let has (neg : Bool) : Prop := cv = .inf neg ∨ ∃ i, i < K ∧ infinite (neg != sub) i
       let nan := cv.isNan = true ∨ ∃ i, i < K ∧ ((va i).isNan = true ∨ (vb i).isNan = true ∨ bare i)
       let clash := has true ∧ has false
       let nv := clash ∨ cv.isSig = true ∨ ∃ i, i < K ∧ ((va i).isSig = true ∨ (vb i).isSig = true ∨ bare i)
       (nan ∨ clash → r.1 = 0x7FC00000 ∧ (nv → r.2 = 0x10) ∧ (¬nv → r.2 = 0)) ∧
       (¬nan → ¬clash → ∀ neg, has neg → r = (if neg then 0xFF800000 else 0x7F800000, 0)) ∧
       (∀ (pa pb : Nat → Bool × Nat × Int) (pc : Bool × Nat × Int), cv = .fin pc.1 pc.2.1 pc.2.2 →
         (∀ i, i < K → va i = .fin (pa i).1 (pa i).2.1 (pa i).2.2 ∧ vb i = .fin (pb i).1 (pb i).2.1 (pb i).2.2) →
         Sums (pc :: (List.range K).map (fun i => (((pa i).1 != (pb i).1) != sub, (pa i).2.1 * (pb i).2.1, (pa i).2.2 + (pb i).2.2))))) ∧
     (f = .mxe4m3 ∨ f = .mxe5m2 →
       (sa = 0xFF ∨ sb = 0xFF ∨ cv.isNan = true ∨ (∃ i, i < K ∧ ((va i).isNan = true ∨ (vb i).isNan = true)) → r.1 = 0x7FC00000) ∧
       (∀ (pa pb : Nat → Bool × Nat × Int) (pc : Bool × Nat × Int), sa ≠ 0xFF → sb ≠ 0xFF → cv = .fin pc.1 pc.2.1 pc.2.2 →
         (∀ i, i < K → va i = .fin (pa i).1 (pa i).2.1 (pa i).2.2 ∧ vb i = .fin (pb i).1 (pb i).2.1 (pb i).2.2) →
         ∃ u : Int, (∀ i, i < K → u ≤ (pa i).2.2 + (pb i).2.2) ∧
           let P := ((List.range K).map (fun i => signed ((pa i).1 != (pb i).1) ((pa i).2.1 * (pb i).2.1 * 2 ^ ((pa i).2.2 + (pb i).2.2 - u).toNat))).sum
           let neg := if P = 0 then (List.range K).all (fun i => ((pa i).1 != (pb i).1) && (pa i).2.1 * (pb i).2.1 == 0) else decide (P < 0)
           Sums [pc, (neg != sub, P.natAbs, u + sa + sb - 254)])) ∧
     (f = .q8 ∨ f = .q4 → ∀ (ra rb : Bool × Nat × Int × Nat) (pc : Bool × Nat × Int), recordOf B sa = some ra → recordOf B sb = some rb → cv = .fin pc.1 pc.2.1 pc.2.2 →
       let I := ((List.range K).map (fun i => ((x a i : Int) - ra.2.2.2) * ((x b i : Int) - rb.2.2.2))).sum
       Sums [pc, (((ra.1 != rb.1) != decide (I < 0)) != sub, ra.2.1 * rb.2.1 * I.natAbs, ra.2.2.1 + rb.2.2.1)]))

/-- R191 to R197: qcfg sets a declared ring's base and geometry and empties it, once no instruction in flight names the ring, and the flags that writes in a chrysalis gave its slots go as well; qpush fills the next slot, or a relay entry, with elements 0 to vl − 1; qpop takes the oldest one into a group; qwait and qzf answer how many slots have landed, without
those that tmops in flight of other strands claim, and which are all zero. Each sets VSTART to 0. Where a queue is full or empty they wait, or take RING_FAULT in solo mode. That qcfg drops the flags by its writes of the registers is the model's choice (assumption 67). -/
def Obligations.QueueResult : Prop :=
  ∀ (s : State) (k : Nat) (ring : BitVec 3) (relay : BitVec 2) (q : Queue) (v x y : Reg), s.actor = .strand k →
    let p := s.strand k
    let e := ewBits p.vtype
    let g := grpRegs p.vtype
    let n := vlmaxOf p.vtype
    let vl := p.vl.toNat
    let image := packElems e ((List.range vl).map (vget s k v.toNat e))
    let bytes := vl * e / 8
    let done (t : State) : State := (t.upd k (fun q => { q with vstart := 0 })).upd k Strand.onward
    let r := s.ring k ring
    let waits : Strand := { p with wait := { p.wait with blocked := true } }
    let named := v.toNat % g = 0 ∧ v.toNat + g ≤ p.window
    let Faults (i : Instr) (n : Nat) : Prop := Runs i s (fun t => t = raise s ⟨.ringFault, BitVec.ofNat 64 n, 0⟩)
    (s.ringDeclared k ring.toNat = false → Faults (.qcfg ring x y) ring.toNat ∧ (named → Faults (.qpush (.ring ring) v) ring.toNat ∧ Faults (.qpop v (.ring ring)) ring.toNat) ∧
      Faults (.qwait x (.ring ring) y) ring.toNat ∧ Faults (.qzf x ring y) ring.toNat) ∧
    (s.trio k = false → (named → Faults (.qpush (.relay relay) v) (8 + relay.toNat) ∧ Faults (.qpop v (.relay relay)) (8 + relay.toNat)) ∧ Faults (.qwait x (.relay relay) y) (8 + relay.toNat)) ∧
    (s.ringDeclared k ring.toNat = true → s.ringInFlight k ring = true → Runs (.qcfg ring x y) s (StrandBecomes s k waits)) ∧
    (s.ringDeclared k ring.toNat = true → s.ringInFlight k ring = false → Runs (.qcfg ring x y) s (fun t =>
      t = done (sprWrite (sprWrite s k (BitVec.ofNat 12 (0x40 + 4 * ring.toNat)) (readX p.x x)) k (BitVec.ofNat 12 (0x41 + 4 * ring.toNat)) (readX p.x y)) ∧
      (t.ring k ring).head = 0 ∧ (t.ring k ring).tail = 0 ∧ (t.ring k ring).base = (readX p.x x).extractLsb' 8 56 ∧
      (t.ring k ring).zero = [] ∧ (t.ring k ring).unlanded = [] ∧ (∀ q ∈ t.tasks, sfind q.2.bufZero (8 * s.shardKey k + ring.toNat) = none))) ∧
    (named → queueName s (.ring ring) = .ok () →
      (r.slotBytes < bytes → Faults (.qpush (.ring ring) v) ring.toNat) ∧
      (bytes ≤ r.slotBytes → r.slots ≤ r.used → (s.trio k = false → Faults (.qpush (.ring ring) v) ring.toNat) ∧ (s.trio k = true → Runs (.qpush (.ring ring) v) s (StrandBecomes s k waits))) ∧
      (bytes ≤ r.slotBytes → ringRoom s ring = .ok () →
        Runs (.qpush (.ring ring) v) s (fun t => t = done (slotLands (ringFill (s.setRing k ring { r with tail := r.tail + 1 }) ring r.tail.toNat image) ring r.tail.toNat)))) ∧
    (named → s.trio k = true → 2 ≤ (s.relay relay).length → Runs (.qpush (.relay relay) v) s (StrandBecomes s k waits)) ∧
    (named → s.trio k = true → (s.relay relay).length < 2 →
      Runs (.qpush (.relay relay) v) s (fun t => t = done (s.setRelay relay (s.relay relay ++ [{ data := BitVec.ofNat 32768 image, count := bytes, poison := [] }])))) ∧
    (named → queueName s q = .ok () → queueReady s q 0 = .error .wait → Runs (.qpop v q) s (StrandBecomes s k waits)) ∧
    (∀ x, named → queueName s q = .ok () → queueReady s q 0 = .error (.trap x) → Runs (.qpop v q) s (fun t => t = raise s x)) ∧
    (named → queueName s q = .ok () → QueueReads s k q e (· < vl) →
      Runs (.qpop v q) s (fun t =>
        (∀ i, i < n → vget t k v.toNat e i = if i < vl then queueElem s q 0 e i % 2 ^ e else if p.vtype.getLsbD 5 then 0 else vget s k v.toNat e i) ∧
        OthersKept s t k v.toNat g ∧ t.strand k = { ((queuePop s q 1).strand k).onward with vstart := 0 } ∧
        (∀ j, j ≠ k → t.strand j = (queuePop s q 1).strand j) ∧ { t with strands := s.strands, vregs := s.vregs } = s)) ∧
    (queueName s q = .ok () →
      let landed := (readable s q).1
      let room := (readable s q).2
      (min (readX p.x y).toNat room ≤ landed ∨ s.trio k = false → Runs (.qwait x q y) s (StrandBecomes s k { p.gives x (BitVec.ofNat 64 landed) with vstart := 0 })) ∧
      (landed < min (readX p.x y).toNat room → s.trio k = true → Runs (.qwait x q y) s (StrandBecomes s k waits)) ∧
      (match q with
       | .ring n => room = (s.ring k n).slots ∧ (s.claimsElsewhere k q = 0 → (∀ j, sfind (s.ring k n).unlanded j = none) → (s.ring k n).used ≤ room → landed = (s.ring k n).used)
       | .relay n => room = 2 ∧ ((s.relay n).length ≤ 2 → landed = (s.relay n).length - s.claimsElsewhere k q))) ∧
    (queueName s (.ring ring) = .ok () → ∃ bits : Dword, Runs (.qzf x ring y) s (StrandBecomes s k { p.gives x bits with vstart := 0 }) ∧
      ∀ i, i < 64 → let c := (readX p.x y).toNat + s.claimsElsewhere k (.ring ring) + i
        let slot := (r.head + BitVec.ofNat 32 c).toNat
        (bits.getLsbD i = true ↔ c < r.used ∧ slotOpen s r slot = false ∧ slotFlag s ring slot = true) ∧
        (s.specTask k = none → (slotOpen s r slot = false ↔ sfind r.unlanded slot = none) ∧ (slotFlag s ring slot = true ↔ slot % r.slots ∈ r.zero)))

/-- R49, R50, R306 to R312: ccmap reads its descriptor, checks it, and maps the first free cocoon of the strand's limit, or answers all ones where none is free; ccflush writes every dirty word back and ccunmap removes the cocoon after that; ccstat answers its state.
A number without a cocoon flushes and unmaps nothing and has state 0. -/
def Obligations.CocoonResult : Prop :=
  ∀ (s : State) (k : Nat) (d a : Reg), s.actor = .strand k →
    let p := s.strand k
    let x := readX p.x a
    (∀ words u, Accesses (fun i => loadN s.ctx (x + BitVec.ofNat 64 (8 * i)) 8 0 0) s [0, 1, 2, 3] words u →
      let field (i : Nat) : Dword := BitVec.ofNat 64 (words.getD i 0)
      let limit := match u.kernelOf k with | some q => min 8 q.res.cocoons | none => 0
      let taken (n : Nat) : Bool := (sfind u.cocoons (8 * k + n)).isSome
      (∀ r, mapChecks u x (field 0) (field 1) (field 2) = .error (.trap r) → Runs (.ccmap d a) s (fun t => t = raise u r)) ∧
      (mapChecks u x (field 0) (field 1) (field 2) = .ok () →
        ((∀ n, n < limit → taken n = true) → Runs (.ccmap d a) s (StrandBecomes u k ((u.strand k).gives d 0xFFFFFFFFFFFFFFFF))) ∧
        (∀ n, n < limit → taken n = false → (∀ i, i < n → taken i = true) → Runs (.ccmap d a) s (StrandBecomes
          (u.setCocoon (8 * k + n) { strand := k, base := field 0, gva := (field 1).toNat, len := (field 2).toNat, asid := (u.strand k).e.asid }) k
          ((u.strand k).gives d (BitVec.ofNat 64 n)))))) ∧
    (s.myCocoon x = none → Runs (.ccflush a) s (StrandBecomes s k p.onward) ∧ Runs (.ccunmap a) s (StrandBecomes s k p.onward) ∧
      Runs (.ccstat d a) s (StrandBecomes s k (p.gives d 0))) ∧
    (∀ ck c, s.myCocoon x = some (ck, c) →
      (c.dirty = [] → Runs (.ccflush a) s (StrandBecomes s k p.onward) ∧ Runs (.ccunmap a) s (StrandBecomes { s with cocoons := sdel s.cocoons ck } k p.onward)) ∧
      (∀ u, cocoonFlush ck s = .ok () u → u.actor = s.actor →
        Runs (.ccflush a) s (StrandBecomes u k (u.strand k).onward) ∧ Runs (.ccunmap a) s (StrandBecomes { u with cocoons := sdel u.cocoons ck } k (u.strand k).onward)) ∧
      (let poison := c.dropped = true ∨ ∃ i, i < c.len / 4 ∧ cocoonFlat s c i / 4 ∈ s.poison
       let full := ((List.range (c.len / 64)).filter (fun j => (List.range 16).all (fun i => c.valid.contains (16 * j + i)))).length
       ∃ v, Runs (.ccstat d a) s (StrandBecomes s k (p.gives d (BitVec.ofNat 64 v))) ∧
        v % 2 ^ 24 = full % 2 ^ 24 ∧ v / 2 ^ 32 % 2 ^ 24 = c.dirty.length % 2 ^ 24 ∧ (v.testBit 62 = true ↔ poison) ∧ v.testBit 63 = true))

/-- R111, R359 to R366: a LINK instruction of a cell takes or peeks the flit at the head of its channel, sends one where the channel can take it, or waits and changes nothing; a cell waits for what it cannot have. A loop's counter limits what a merge admits, and a steer onto an exit
lowers it. On a strand every LINK instruction takes ILLEGAL_INSTRUCTION. -/
def Obligations.LinkResult : Prop :=
  ∀ (s : State) (k c : Nat) (d a b : Reg),
    ((∃ n, s.actor = .strand n) → ∀ i ∈ ([.recv d a, .send d a, .sendE d a, .steer d a b, .merge d a b, .prime d a, .tokw a, .toks d, .lpeek d a] : List Instr), Illegal i s) ∧
    ∀ v, s.actor = .cell k c → fxEnv s k = some v →
      let x (r : Reg) : Dword := readCX (s.cell (64 * k + c)).x r
      let chan (r : Reg) : Nat := 16 * c + r.toNat % 16
      let Does (i : Instr) (t : State) : Prop := Runs i s (fun u => u = t)
      let word (f : Flit) : Dword := BitVec.ofNat 64 (f.kind * 2 ^ 32 + f.data.toNat)
      let Sends (i : Instr) (e : Nat) (f : Flit) (after : State → State) : Prop :=
        (canSend s k v e = true → Does i (after (sendFlit s k v e f)).advance) ∧ (canSend s k v e = false → Does i s)
      let first := headFlit v (chan a)
      let second := headFlit v (chan b)
      (∀ f, first = some f → Does (.recv d a) ((takeHead s k v (chan a)).setX d (word f)).advance ∧ Does (.lpeek d a) (s.setX d (word f)).advance ∧
        Does (.merge d a b) ((takeHead s k v (chan a)).setX d (word f)).advance ∧
        (f.kind = 2 → Does (.tokw a) (takeHead s k v (chan a)).advance) ∧
        (f.kind ≠ 2 → Runs (.tokw a) s (fun t => (sfind t.invs k).map (·.stop) = some (some (v.inv.stop.getD { reason := 6 })) ∧ t.strands = s.strands ∧ t.cells = s.cells))) ∧
      (first = none → Does (.recv d a) s ∧ Does (.lpeek d a) s ∧ Does (.tokw a) s ∧ (second = none → Does (.merge d a b) s) ∧
        (∀ f, second = some f → (admits v (chan a) f = false → Does (.merge d a b) s) ∧
          (admits v (chan a) f = true → Does (.merge d a b) (((match loopAt v (chan a) with
            | some (n, _) => if f.kind = 1 then takeHead s k v (chan b) else (takeHead s k v (chan b)).updInv k (·.addAdm n 1)
            | none => takeHead s k v (chan b)).setX d (word f)).advance)))) ∧
      Sends (.send d a) (chan d) ⟨0, (x a).extractLsb' 0 32⟩ id ∧ Sends (.sendE d a) (chan d) ⟨1, 0⟩ id ∧ Sends (.toks d) (chan d) ⟨2, 0⟩ id ∧
      (let e := chan d + (if x a = 0 then 0 else 1)
       Sends (.steer d a b) e ⟨0, (x b).extractLsb' 0 32⟩ (fun t => leaveLoops t k e v)) ∧
      (let e := chan d
       let f : Flit := ⟨0, BitVec.ofNat 32 ((x a).toNat % 2 ^ flitBits ((v.img.route e).elim 0 (·.fmt)))⟩
       let full := 2 ≤ (v.inv.hop e 0).length ∨ ∃ n l, loopAt v e = some (n, l) ∧ v.inv.admitted n = l.limit
       (full → Does (.prime d a) s) ∧
       (¬full → Does (.prime d a) (s.setInv k (match loopAt v e with
          | some (n, _) => (v.inv.setHop e 0 (v.inv.hop e 0 ++ [f])).addAdm n 1
          | none => v.inv.setHop e 0 (v.inv.hop e 0 ++ [f]))).advance)) ∧
      (∀ e q w r f, v.img.chans.find? (fun q => q.1 == e) = some (e, q) → v.conf.wire q = some w → v.img.route q = some r → w.path.length ≤ 1 → f.kind = 0 →
        (v.img.route e).elim 0 (·.fmt) = r.fmt →
        (sfind (sendFlit s k v e f).invs k).map (·.hop q 0) = some (v.inv.hop q 0 ++ [⟨0, BitVec.ofNat 32 (f.data.toNat % 2 ^ flitBits r.fmt)⟩]))

/-- R341 to R345: fxbind answers 2 for a number of 32 or above, 1 for a slot in use, and else loads and checks the image and binds it, answering 0, or takes the trap of its load; fxunbind ends the binding; fxstat and fxquery describe it; fxpin and fxunpin set and clear its pin on the core. -/
def Obligations.FabricBinding : Prop :=
  ∀ (s : State) (k : Nat) (d a b : Reg), s.actor = .strand k →
    let p := s.strand k
    let x := readX p.x a
    let y := readX p.x b
    let n := x.toNat
    let asid := p.e.asid
    let slot := 32 * asid.toNat + n
    let entry := s.slotEntry asid n
    let bind := bindKey (k / 3) asid n
    let confs := bindConfs s bind
    let Gives (i : Instr) (v : Dword) : Prop := Runs i s (StrandBecomes s k (p.gives d v))
    let bound := n < 32 ∧ entry.bound ≠ none
    let binding (j : Nat) (q : Strand) : Prop := (j, q) ∈ s.strands ∧ q.wait.bind = some slot
    (32 ≤ n → Gives (.fxbind d a b) 2) ∧ (bound → Gives (.fxbind d a b) 1) ∧
    (n < 32 → (∃ j q, j ≠ k ∧ binding j q) → Gives (.fxbind d a b) 1) ∧
    (n < 32 → entry.bound = none → (¬∃ j q, j ≠ k ∧ binding j q) →
      let begun := s.upd k (fun q => { q with wait := { q.wait with bind := some slot } })
      (∀ img u, loadConf y.toNat begun = .ok img u → u.actor = s.actor → (u.strand k).e.asid = asid → Runs (.fxbind d a b) s
        (StrandBecomes { u with slots := sput u.slots slot { image := y, gen := u.fxGen, bound := some img }, fxGen := u.fxGen + 1 } k ((u.strand k).gives d 0))) ∧
      (∀ r u, loadConf y.toNat begun = .error (.trap r) u → Runs (.fxbind d a b) s (fun t => t = raise u r)) ∧
      (∀ u, loadConf y.toNat begun = .error .wait u → u.actor = s.actor →
        Runs (.fxbind d a b) s (fun t => t = u.upd k (fun q => { q with wait := { q.wait with blocked := true } })))) ∧
    (¬bound → Runs (.fxunbind a) s (StrandBecomes s k p.onward) ∧ Gives (.fxstat d a) 0 ∧ Gives (.fxpin d a) 1 ∧ Runs (.fxunpin a) s (StrandBecomes s k p.onward) ∧
      (∃ v : Dword, Gives (.fxquery d a b) v ∧ (v = 1 ↔ y = 1 ∧ n < 32 ∧ ∃ j q, binding j q) ∧ (v ≠ 1 → v = 0))) ∧
    (bound →
      ((∃ q ∈ slotUsers s asid n, arrivalWaits s q = true) → Runs (.fxunbind a) s (StrandBecomes s k { p with wait := { p.wait with blocked := true } })) ∧
      ((∀ q ∈ slotUsers s asid n, arrivalWaits s q = false) →
        Runs (.fxunbind a) s (fun t => t = (unbind s asid n).advance ∧ (t.slotEntry asid n).bound = none ∧ ∀ q ∈ t.confs, q.1 % 2 ^ 21 ≠ slot)) ∧
      (∃ v : Dword, Gives (.fxstat d a) v ∧ ((∀ c ∈ confs, ∀ q ∈ c.pages, q < 8) →
        v.getLsbD 12 = true ∧ (v.getLsbD 11 = true ↔ ∃ c ∈ confs, c.pinned = true) ∧ v.getLsbD 10 = bindRunning s bind ∧
        (v.getLsbD 9 = true ↔ ∃ c ∈ confs, c.split = true) ∧ (v.getLsbD 8 = true ↔ confs ≠ []) ∧
        ∀ q, q < 8 → (v.getLsbD q = true ↔ ∃ c ∈ confs, q ∈ c.pages))) ∧
      Gives (.fxquery d a b) (if y = 0 then entry.image else if y = 1 then (if anyPin s asid n then 0x102 else 2) else 0) ∧
      (let r := placeConf s k asid n false
       (r.1 = false → r.2.actor = s.actor → Runs (.fxpin d a) s (StrandBecomes r.2 k ((r.2.strand k).gives d 2))) ∧
       (r.1 = true → r.2.actor = s.actor → Runs (.fxpin d a) s (StrandBecomes (pinConf r.2 (confKeyOf s k asid n)) k ((r.2.strand k).gives d 0)))) ∧
      Runs (.fxunpin a) s (StrandBecomes (unpinConfs s bind) k p.onward))

/-- R346 to R354: fx starts the invocation of a bound configuration that is, or can be, placed, and waits at its PC until it ends; an unbound slot takes FABRIC_UNBOUND and a configuration without room FABRIC_FULL. The ports then deliver and take flits, a flit moves a hop at a time, and INVOCATION_COMPLETE, or
a stop, ends the fx. That a stop takes effect by an event of its own, that completion is tested as R350 states it, and what FULL leaves, are the model's readings (assumption 32), as are the contexts and frames that a placement keeps (assumption 31) and where the flits of a stop state go on a shorter path (assumption 63). -/
def Obligations.FabricRun : Prop :=
  ∀ (s : State) (k c ch : Nat) (slot vd va vb xs : Reg) (portB : Bool),
    let p := s.strand k
    let n := slot.toNat
    let Does (i : Instr) (t : State) : Prop := Runs i s (fun u => u = t)
    (s.actor = .strand k →
      let waits (t : State) : State := t.upd k (fun q => { q with wait := { q.wait with blocked := true } })
      let Both (P : Bool → Instr → Prop) : Prop := P false (.fx slot vd va vb xs) ∧ P true (.fxC slot vd va vb xs)
      ((∃ i, sfind s.invs k = some i ∧ i.running = true) ∨ arrivalWaits s k = true → Both (fun _ i => Does i (waits s))) ∧
      ((∀ i, sfind s.invs k = some i → i.running = false) → arrivalWaits s k = false →
        let s0 := discardSlot s k n
        let entry := s0.slotEntry p.e.asid n
        s0.actor = s.actor → (s0.strand k).e.asid = p.e.asid →
        (entry.bound = none → Both (fun _ i => Does i (raise (arriveDeferred s0 k) ⟨.fabricUnbound, BitVec.ofNat 64 n, 0⟩))) ∧
        (∀ img w, entry.bound = some img → fxChecks s0 img vd va vb w = .ok () →
          let key := confKeyOf s0 k p.e.asid n
          let busy := bindRunning s0 (bindKey (k / 3) p.e.asid n) = true ∨ ∃ q, sfind s0.confs key = some q ∧ q.moving ≠ []
          (busy → Both (fun _ i => Does i (waits s0))) ∧
          (¬busy → Both (fun cont i =>
            let s1 := discardOther s0 k n cont
            let r := placeConf s1 k (s1.strand k).e.asid n true
            s1.actor = s.actor → r.2.actor = s.actor →
              (r.1 = true → Does i (waits ((startInv r.2 k img n cont vd va vb ((readX (s0.strand k).x xs).extractLsb' 0 32)).upd k
                (fun q => { q with wait := { q.wait with issued := true } })))) ∧
              (r.1 = false → Does i (fxFull r.2 k n img cont))))))) ∧
    (∀ v, fxEnv s k = some v →
      (v.inv.stop = none →
        Does (.flitTransfer k c ch) (moveFlit s k v (16 * c + ch % 16)) ∧
        (let port := if portB then v.inv.inB else v.inv.inA
         (if portB then v.img.useB else v.img.useA) = true → port.eosSent = false → port.eosTaken = false → port.buf.length < 64 →
          Does (.streamInputDelivery k portB) (
            let q := port.deliver (inLen p) (vget s k (if portB then v.inv.vb else v.inv.va) (ewBits p.vtype) port.next)
            s.setInv k (if portB then { v.inv with inB := q, count := 0, acted := true } else { v.inv with inA := q, count := 0, acted := true }))) ∧
        (∀ f rest, v.inv.out = f :: rest → v.inv.outEos = false → v.img.useOut = true →
          let at' := (p.fxidx[2]).toNat
          (f.kind = 1 → Does (.streamOutputTake k) (s.setInv k { v.inv with out := rest, outEos := true, count := 0, acted := true })) ∧
          (f.kind = 2 → Runs (.streamOutputTake k) s (fun t => sfind t.invs k = some { v.inv with stop := some { reason := 6 } } ∧ { t with invs := s.invs, effects := s.effects } = s)) ∧
          (f.kind = 0 → vlmaxOf p.vtype ≤ at' → Does (.streamOutputTake k) (applyStop s k v { reason := 1 })) ∧
          (f.kind = 0 → at' < vlmaxOf p.vtype → Runs (.streamOutputTake k) s (fun t =>
            (∀ i, i < vlmaxOf p.vtype → vget t k v.inv.vd (ewBits p.vtype) i = if i = at' then f.data.toNat % 2 ^ ewBits p.vtype else vget s k v.inv.vd (ewBits p.vtype) i) ∧
            sfind t.invs k = some { v.inv with out := rest, count := 0, acted := true } ∧ t.strand k = { p with fxidx := p.fxidx.set 2 (p.fxidx[2] + 1) } ∧
            (∀ j, j ≠ k → t.strand j = s.strand j) ∧ { t with strands := s.strands, vregs := s.vregs, invs := s.invs } = s))) ∧
        (2 ^ 20 ≤ v.inv.count → p.status ≠ .stopping → arrivalWaits s k = false → Does (.fabricDeadlock k) (applyStop s k v { reason := 4 })) ∧
        (∀ page, page ∈ v.inv.loading → Does (.pageContextLoadComplete k page) (
          (List.range 8).foldl (fun t j => match v.img.cell (8 * page + j) with
            | some g => ((upFrom g.blk0 (min 4 (g.cnt - g.blk0))).reverse).foldl (fun t b => fetchBlock k (8 * page + j) b g t) t
            | none => t) { s.updInv k (fun i => { i with loading := nsErase i.loading page }) with confs := sput s.confs (confKeyOf s k v.inv.asid v.inv.slot) { v.conf with loaded := nsInsert v.conf.loaded page } })) ∧
        (∀ g, v.img.cell c = some g → c / 8 ∉ v.inv.loading → cellDone s k c v.img = false → cellWordAt s k c = none →
          Does (.blockFetchComplete k c) (fetchBlock k c ((s.cell (64 * k + c)).pc.toNat / 64) g s))) ∧
      (∀ st, v.inv.stop = some st → st.reason < 4 ∨ arrivalWaits s k = false → Does (.fabricStop k) (applyStop s k v st)) ∧
      (invComplete s k v = true → p.deferred = none → p.chain = none → Runs (.invocationComplete k) s (fun t =>
        (t.strand k).vl = vlStored p.vtype (p.fxidx[2]).toNat ∧ (t.strand k).vstart = 0 ∧ (t.strand k).pc = p.pc + 4 ∧ (t.strand k).x = p.x ∧
        sfind t.invs k = none ∧ (t.strand k).fxstat.toNat % 8 = 0 ∧ (∀ j, j ≠ k → t.strand j = s.strand j) ∧ t.mem = s.mem ∧
        ∀ i, i < vlmaxOf p.vtype → vget t k v.inv.vd (ewBits p.vtype) i =
          if v.img.useOut = true ∧ (p.fxidx[2]).toNat ≤ i ∧ p.vtype.getLsbD 5 then 0 else vget s k v.inv.vd (ewBits p.vtype) i)))

/-- R368 to R377: a copy command answers its status, or takes the next identifier of its channel after a release at system scope and is pending from then on; with 16 pending, with saved transfers that are to run again, or where its release has to wait for a home, it waits, at most for 4 ms in the release (R303). cpybox and cpyfill read their descriptor first. That only a command that would be accepted waits for fewer than 16 is the model's choice (assumption 27). R370, R378 to R384: cwait ends for a transfer that is not pending, with an acquire, traps with COPY_FAULT where its channel is held at or below it, and waits otherwise; cstat answers a channel's status or fault address and clears, resumes or aborts what its bits ask; cpyarm arms the
channel. TRANSFER_COMPLETE moves what is left of a transfer and retires in order, or what can move before an access that has to wait;
TRANSFER_FAULT holds the channel on the first transfer of which an access fails; ABORT abandons that transfer and every later one. CopyBytes says what a transfer moves. That elements move in ascending order, so that those below a failing one have moved and no other, is the model's choice (assumptions 6 and 27). R374, R378, R379: what a transfer moves. One of which nothing has moved yet, between local memories that no cocoon lies over, without poison in its source and with destination elements that overlap neither one another nor a source element: each destination element holds the bytes of its source element, of the fill value, or of the source's
FP32 value rounded to BF16, and no other byte of memory changes. An element of one word between global words of class N whose homes are free gives the destination word the value of the source word, and no other word another value. -/
def Obligations.CopyResult : Prop :=
  (∀ (s : State) (k : Nat) (d a b : Reg), s.actor = .strand k →
     let p := s.strand k
     let c := readX p.x d
     let Does (i : Instr) (t : State) : Prop := Runs i s (fun u => u = t)
     (let box : Box := { src := readX p.x b, dst := readX p.x a, ext := #v[c.extractLsb' 0 32, 1, 1, 1], esize := 1
                         bar := if c.getLsbD 34 then some (c.extractLsb' 35 9) else none }
      Does (.cpy1d d a b) (issueCopy d (c.extractLsb' 32 2) box ((c.extractLsb' 44 20 : BitVec 20) != 0) s)) ∧
     (let x := readX p.x a
      let n : BitVec 2 := (readX p.x b).extractLsb' 0 2
      (x.toNat % 8 ≠ 0 → Does (.cpybox d a b) (raise s ⟨.misaligned, x, 0⟩) ∧ Does (.cpyfill d a b) (raise s ⟨.misaligned, x, 0⟩)) ∧
      (x.toNat % 8 = 0 → ∀ words u, Accesses (fun i => loadN s.ctx (x + BitVec.ofNat 64 (8 * i)) 8 0 0) s (List.range 12) words u →
        Does (.cpybox d a b) (issueCopy d n (boxOf false words).1 (boxOf false words).2 u) ∧ Does (.cpyfill d a b) (issueCopy d n (boxOf true words).1 (boxOf true words).2 u))) ∧
     (∀ (n : BitVec 2) (box : Box) (bad : Bool),
       let st := copyStatus s box bad
       let id := p.cpyNext[n.toNat]'n.isLt
       (st ≠ 0 → StrandBecomes s k (p.gives d (BitVec.ofNat 64 (2 ^ 32 * st))) (issueCopy d n box bad s)) ∧
       (let crowded := 16 ≤ (p.channel n).pending.length ∨ (∃ y ∈ (p.channel n).pending, y.again = true ∧ y.completed = false ∧ y.abandoned = false)
        (st = 0 → crowded → issueCopy d n box bad s = s.block) ∧
        (st = 0 → ¬crowded → s.specTask k = none → releaseWaits s (k / 3) .system = true → ¬(p.wait.verdict = some .memTimeout ∧ p.wait.out = none) → issueCopy d n box bad s = s.blockRelease) ∧
        (st = 0 → ¬crowded → s.specTask k = none → releaseWaits s (k / 3) .system = true → p.wait.verdict = some .memTimeout → p.wait.out = none → ∃ e, issueCopy d n box bad s = raise s ⟨.memTimeout, e, 0⟩)) ∧
       (st = 0 → (p.channel n).pending = [] → s.specTask k = none → box.count ≠ 0 → releaseWaits s (k / 3) .system = false →
         StrandBecomes (release s (k / 3) .system) k
           (let q := (release s (k / 3) .system).strand k
            { (q.setChannel n { q.channel n with pending := [{ id := id, box := box }] }).gives d (id.zeroExtend 64) with cpyNext := q.cpyNext.set n.toNat (id + 1) n.isLt })
           (issueCopy d n box bad s)))) ∧
  (∀ (s : State) (k : Nat) (d a b : Reg),
     let p := s.strand k
     let Does (i : Instr) (t : State) : Prop := Runs i s (fun u => u = t)
     (s.actor = .strand k →
       let x := readX p.x a
       let n : BitVec 2 := x.extractLsb' 0 2
       let c := p.channel n
       let id : BitVec 32 := (readX p.x b).extractLsb' 0 32
       let done := p.cpyDone[n.toNat]'n.isLt
       let next := p.cpyNext[n.toNat]'n.isLt
       let pending := (id - done).toNat < (next - done).toNat
       (¬pending → Runs (.cwait a b) s (
         let q := acquire s (k / 3) (if c.outside then .system else .device)
         StrandBecomes q k ({ q.strand k with chan := (q.strand k).chan.set n.toNat { c with outside := false } n.isLt } : Strand).onward)) ∧
       (∀ f cause addr, pending → c.fault = some (f, cause, addr) →
         ((f - done).toNat ≤ (id - done).toNat → Does (.cwait a b) (raise s ⟨.copyFault, addr, f.toNat⟩)) ∧
         ((id - done).toNat < (f - done).toNat → Does (.cwait a b) s.block)) ∧
       (pending → c.fault = none → Does (.cwait a b) s.block) ∧
       (x.toNat / 2 ^ 12 ≠ 0 ∨ x.toNat % 2 ^ 8 / 4 ≠ 0 → Runs (.cstat d a) s (StrandBecomes s k (p.gives d 0xFFFFFFFFFFFFFFFF))) ∧
       (x.toNat / 2 ^ 12 = 0 → x.toNat % 2 ^ 8 / 4 = 0 → x.getLsbD 9 = false →
         let word : Dword := if x.getLsbD 10 then (match c.fault with | some (_, _, fa) => fa | none => 0) else statusWord c
         let c1 : Channel := if x.getLsbD 11 then { c with poison := false, poisonId := 0 } else c
         let c2 : Channel := if x.getLsbD 8 then { c1 with fault := none } else c1
         Runs (.cstat d a) s (StrandBecomes s k (({ p with chan := p.chan.set n.toNat c2 n.isLt } : Strand).gives d word))) ∧
       (x.toNat / 2 ^ 12 = 0 → x.toNat % 2 ^ 8 / 4 = 0 → x.getLsbD 9 = true → c.fault = none → x.getLsbD 11 = false →
         Runs (.cstat d a) s (StrandBecomes s k (p.gives d (if x.getLsbD 10 then 0 else statusWord c)))) ∧
       (∀ f cause addr, x.toNat / 2 ^ 12 = 0 → x.toNat % 2 ^ 8 / 4 = 0 → x.getLsbD 9 = true → x.getLsbD 11 = false → c.fault = some (f, cause, addr) → (∀ y ∈ c.pending, y.box.bar = none) →
         Runs (.cstat d a) s (fun t =>
           let q := (t.strand k).channel n
           let gone (y : Transfer) : Transfer := if (f - done).toNat ≤ (y.id - done).toNat then { y with abandoned := !y.completed || y.id == f } else y
           let left := (c.pending.map gone).dropWhile (fun y => y.completed || y.abandoned)
           q.fault = none ∧ q.pending = left ∧ (t.strand k).cpyDone = p.cpyDone.set n.toNat (done + BitVec.ofNat 32 (c.pending.length - left.length)) n.isLt ∧
           (t.strand k).x = writeX p.x d (if x.getLsbD 10 then addr else statusWord c) ∧ (t.strand k).pc = p.pc + 4 ∧ (left.length < c.pending.length → (t.strand k).event = true) ∧
           (∀ j, j ≠ k → t.strand j = s.strand j) ∧ { t with strands := s.strands } = s)) ∧
       (s.specTask k = none → Runs (.cpyarm a b) s (StrandBecomes s k
         (fireArm ({ p with chan := p.chan.set n.toNat { c with armed := some id } n.isLt } : Strand) n).onward)) ∧
       (s.specTask k ≠ none → Does (.cpyarm a b) s.block)) ∧
     (∀ (chan id : Nat),
       let n := BitVec.ofNat 2 chan
       let run := runTransfer s k n (BitVec.ofNat 32 id)
       (∀ t, run = some (.done t) → Does (.transferComplete k chan id) (retire t k n)) ∧
       (∀ t, run = some (.waits t) → Does (.transferComplete k chan id) t) ∧
       ((run = none ∨ ∃ r t, run = some (.failed r t)) → Does (.transferComplete k chan id) s) ∧
       ((p.channel n).fault ≠ none → Does (.transferFault k chan) s) ∧
       ((p.channel n).fault = none →
         let fails (y : Transfer) : Prop := ∃ r t, runTransfer s k n y.id = some (.failed r t)
         (∀ first x rest r t, (p.channel n).pending = first ++ x :: rest → (∀ y ∈ first, ¬fails y) → runTransfer s k n x.id = some (.failed r t) →
           Does (.transferFault k chan) (holdChannel t k n x.id r)) ∧
         ((∀ y ∈ (p.channel n).pending, ¬fails y) → Does (.transferFault k chan) s)) ∧
       (∀ (t : State) (f : BitVec 32) (r : TrapInfo), let u := t.strand k
         ∃ q : Strand, StrandBecomes t k q (holdChannel t k n f r) ∧ (q.channel n).fault = some (f, r.cause, r.addr) ∧ (q.channel n).pending = (u.channel n).pending ∧
           (∀ m : BitVec 2, m ≠ n → q.channel m = u.channel m) ∧ q.x = u.x ∧ q.pc = u.pc ∧
           (∀ b, (u.channel n).armed = some b → (f - u.cpyDone[n.toNat]'n.isLt).toNat ≤ (b - u.cpyDone[n.toNat]'n.isLt).toNat → (q.channel n).armed = none ∧ q.ui.pend = u.ui.pend ||| (1 <<< n.toNat))) ∧
       (∀ x, x.box.bar = none → let q := (retireOne s k n x).strand k
         q.cpyDone = p.cpyDone.set n.toNat (p.cpyDone[n.toNat]'n.isLt + 1) n.isLt ∧ q.event = true ∧ q.x = p.x ∧ q.pc = p.pc))) ∧
  (∀ (s : State) (k chan : Nat) (x : Transfer),
     let n := BitVec.ofNat 2 chan
     let p := s.strand k
     let b := x.box
     let total := b.ext[0].toNat * b.ext[1].toNat * b.ext[2].toNat * b.ext[3].toNat
     let size := if b.cvt then 2 else b.esize
     let place (base : Dword) (size : Nat) (str : Vector Dword 3) (j : Nat) : Dword :=
       let i0 := j % b.ext[0].toNat
       let r := j / b.ext[0].toNat
       let i1 := r % b.ext[1].toNat
       let i2 := r / b.ext[1].toNat % b.ext[2].toNat
       let i3 := r / b.ext[1].toNat / b.ext[2].toNat
       base + BitVec.ofNat 64 (i0 * size) + BitVec.ofNat 64 i1 * str[0] + BitVec.ofNat 64 i2 * str[1] + BitVec.ofNat 64 i3 * str[2]
     let src := place b.src b.esize b.sstr
     let dst := place b.dst size b.dstr
     let ok (ea : Dword) (n : Nat) : Prop := ea.toNat % n = 0 ∧ winCode ea ≠ 0 ∧ winCode ea ≠ 0xFE ∧ ∃ size, windowSize s k (winCode ea) = some size ∧ winOff ea < size
     let fs (j : Nat) : Nat := localFlat s k (winCode (src j)) (winOff (src j)) 0
     let fd (j : Nat) : Nat := localFlat s k (winCode (dst j)) (winOff (dst j)) 0
     (p.channel n).pending.find? (fun y => y.id == x.id) = some x → x.completed = false → x.abandoned = false → x.moved = 0 → x.spec = none → (p.channel n).fault = none → p.status ≠ .saved →
     b.esize ∈ [1, 2, 4, 8] → (b.cvt = true → b.esize = 4 ∧ b.fill = false) → Memory.wf s.mem = true →
     (s.cocoons = [] →
       (∀ j, j < total → ok (dst j) size ∧ (b.fill = false → ok (src j) b.esize ∧ Unpoisoned s (fs j) b.esize)) →
       (∀ i j, i < total → j < total → (i ≠ j → fd i + size ≤ fd j ∨ fd j + size ≤ fd i) ∧ (b.fill = false → fs i + b.esize ≤ fd j ∨ fd j + size ≤ fs i)) →
       Runs (.transferComplete k chan x.id.toNat) s (fun t =>
         (∀ j o, j < total → o < size → Mem.read t.mem (fd j + o) =
           if b.fill then byteOf b.src.toNat o
           else if b.cvt then byteOf (fpConvert fmt32 fmtBf .rne false 0 (Mem.readN s.mem (fs j) 4)).bits o
           else Mem.read s.mem (fs j + o)) ∧
         (∀ f, (∀ j, j < total → f < fd j ∨ fd j + size ≤ f) → Mem.read t.mem f = Mem.read s.mem f))) ∧
     (b.esize = 4 → b.cvt = false → b.fill = false → s.busy = [] → s.waiters = [] → s.refused = [] → s.atsWaits = [] →
       let c := agentCtx k p.e.asid
       ∀ j ps pd, resolve c (src j) 4 .read 0 0 s = .ok (.glob ps .n) s → resolve c (dst j) 4 .write 0 0 s = .ok (.glob pd .n) s → ps % 4 = 0 → pd % 4 = 0 → wordPoisoned s (ps / 4) = false →
         ∃ t, moveElem k n x.id j s = .ok () t ∧ curVal t (pd / 4) = curVal s (ps / 4) ∧ ∀ w, w ≠ pd / 4 → curVal t w = curVal s w))

/-- R401, R402, R410 to R424: fences release and acquire as their kinds ask; barinit, barrive, barwait and barpoll act on a barrier of the group, and a number at or beyond its count takes WINDOW_RANGE; hbeat is progress; yield holds the next instruction back; uien and uidis change UIMASK and answer
the old one; a linked phase is seen later; a user-level interrupt enters the handler with the kinds in x24. What a barinit that unlinks a barrier gives the other members (assumption 40), when an interrupt is due (assumption 39), and that acquires and releases stall in a chrysalis (assumption 24), are the model's readings. -/
def Obligations.SyncResult : Prop :=
  ∀ (s : State) (k : Nat) (d a b : Reg) (kinds : BitVec 5) (sc : Scope),
    let p := s.strand k
    let x := readX p.x a
    let y := readX p.x b
    let Does (i : Instr) (t : State) : Prop := Runs i s (fun u => u = t)
    (s.actor = .strand k →
      (kinds.getLsbD 0 = false → kinds.getLsbD 2 = false → kinds.getLsbD 3 = false → kinds.getLsbD 4 = false → Runs (.fence kinds sc) s (StrandBecomes s k p.onward)) ∧
      (kinds.getLsbD 4 = false → kinds.getLsbD 2 = true → kinds.getLsbD 0 = false → kinds.getLsbD 3 = false → releaseWaits s (k / 3) sc = false →
        Runs (.fence kinds sc) s (StrandBecomes (release s (k / 3) sc) k ((release s (k / 3) sc).strand k).onward)) ∧
      (kinds.getLsbD 4 = false → kinds.getLsbD 2 = false → kinds.getLsbD 3 = false → kinds.getLsbD 0 = true →
        Runs (.fence kinds sc) s (StrandBecomes (acquire s (k / 3) sc) k p.onward)) ∧
      (let releases := kinds.getLsbD 2 = true ∨ kinds.getLsbD 3 = true
       let s1 := if kinds.getLsbD 2 || kinds.getLsbD 3 then release s (k / 3) sc else s
       let s2 := if kinds.getLsbD 0 || kinds.getLsbD 3 then acquire s1 (k / 3) sc else s1
       let s3 := if kinds.getLsbD 4 then acquire s2 (k / 3) (if p.chan.toList.any (·.outside) then .system else .device) else s2
       (releases → releaseWaits s (k / 3) sc = true → ReleaseWaits (.fence kinds sc) s k) ∧
       (¬(releases ∧ releaseWaits s (k / 3) sc = true) → Does (.fence kinds sc) s3.advance)) ∧
      (∀ r, barOperand s x = .error r → Does (.barinit d a b) (raise s r) ∧ Does (.barwait a b) (raise s r) ∧ Does (.barpoll d a) (raise s r) ∧
        (s.specTask k = none → Does (.barrive d a b) (raise s r))) ∧
      (∀ gk n, barOperand s x = .ok (gk, n) →
        let bar := s.bar gk n
        let expect : BitVec 12 := y.extractLsb' 0 12
        let link := y.getLsbD 12
        let bad := expect = 0 ∨ y.toNat / 2 ^ 14 ≠ 0 ∨ (link = true ∧ n < 448)
        let members := if link then linkGroups s gk n else barMembers s gk n
        (bad → Runs (.barinit d a b) s (StrandBecomes s k (p.gives d 1))) ∧
        (¬bad → (∃ g ∈ members, (s.bar g n).count ≠ 0) → Runs (.barinit d a b) s (StrandBecomes s k (p.gives d 2))) ∧
        (¬bad → (∀ g ∈ members, (s.bar g n).count = 0) → Runs (.barinit d a b) s (StrandBecomes
          (setBars s members n (fun q => { q with expect := expect, uiarm := y.getLsbD 13, link := link, count := 0, wide := false, outside := false
                                                  phase := if link then bar.phase else q.phase })) k (p.gives d 0))) ∧
        (s.specTask k ≠ none → Does (.barrive d a b) s.block) ∧
        (s.specTask k = none →
          (y.toNat / 2 ≠ 0 ∨ (y.getLsbD 0 = true ∧ p.deferred ≠ none) → Runs (.barrive d a b) s (StrandBecomes s k (p.gives d 0xFFFFFFFFFFFFFFFE))) ∧
          (y = 1 → p.deferred = none → Runs (.barrive d a b) s (StrandBecomes s k { p.gives d 0xFFFFFFFFFFFFFFFF with deferred := some n })) ∧
          (y = 0 → bar.link = true → (releaseWaits s (k / 3) .cluster = true → ReleaseWaits (.barrive d a b) s k) ∧
            (releaseWaits s (k / 3) .cluster = false →
              Does (.barrive d a b) ((arriveAt (release s (k / 3) .cluster) gk n false false).setX d (bar.phase.zeroExtend 64)).advance)) ∧
          (y = 0 → bar.link = false → Runs (.barrive d a b) s (fun t => t = ((arriveAt s gk n false false).setX d (bar.phase.zeroExtend 64)).advance ∧
            (∀ g, sfind s.groups gk = some g → bar.count + 1 ≠ bar.expect → t.bar gk n = { bar with count := bar.count + 1 } ∧
              t.strand k = p.gives d (bar.phase.zeroExtend 64)) ∧
            (∀ g, sfind s.groups gk = some g → bar.count + 1 = bar.expect → (t.bar gk n).phase = bar.phase + 1 ∧ (t.bar gk n).count = 0)))) ∧
        (let seen := bar.shown.getD (bar.phase, bar.count)
         let gap := (seen.1 - y.extractLsb' 0 32).toNat
         (1 ≤ gap → gap < 2 ^ 31 → Does (.barwait a b) (acquire s (k / 3) (barScope bar (y.extractLsb' 0 32))).advance) ∧
         (¬(1 ≤ gap ∧ gap < 2 ^ 31) → Does (.barwait a b) s.block) ∧
         (∃ w : Dword, Runs (.barpoll d a) s (StrandBecomes s k (p.gives d w)) ∧ w.extractLsb' 0 32 = seen.1 ∧ w.extractLsb' 32 12 = seen.2 ∧
           w.extractLsb' 44 12 = bar.expect ∧ w.getLsbD 62 = bar.uiarm ∧ w.getLsbD 63 = bar.link ∧ w.extractLsb' 56 6 = (0 : BitVec 6)))) ∧
      Does .hbeat (noteProgress s k).advance ∧
      (let others := (upFrom (3 * (k / 3)) 3).filter (fun j => j != k && readyToIssue s j)
       Runs .yield s (StrandBecomes s k { p.onward with hold := some ⟨others, s.cycle.toNat + 16⟩ })) ∧
      (let old : Dword := 0xFFFFFFFFFFFFFFC0 ||| p.ui.mask.zeroExtend 64
       Runs (.uidis d a) s (StrandBecomes s k { p.gives d old with ui := { p.ui with mask := p.ui.mask ||| x.extractLsb' 0 6 } }) ∧
       (s.specTask k = none →
        let q : UiRegs := { p.ui with mask := p.ui.mask &&& ~~~(x.extractLsb' 0 6) }
        Runs (.uien d a) s (StrandBecomes s k { p.gives d old with ui := q, event := p.event || (q.admitted &&& ~~~p.ui.admitted != 0) })))) ∧
    (∀ group n, (s.bar group n).shown = none → Does (.linkedPhaseSeen group n) s) ∧
    (∀ group n, (s.bar group n).shown ≠ none →
      Does (.linkedPhaseSeen group n) (phaseSeen (setBars s [group] n (fun q => { q with shown := none })) group n)) ∧
    (p.status = .running → uiDue s k = true → Runs (.uiDelivery k) s (fun t =>
      (t.strand k).pc = p.ui.vec ++ (0 : BitVec 2) ∧ (t.strand k).ui = { p.ui with pc := p.pc, inHandler := true, shadow := upperBank p.x } ∧ (t.strand k).event = true ∧
      (t.strand k).x[24] = p.ui.admitted.zeroExtend 64 ∧ (∀ i (h : i < 24), (t.strand k).x[i] = p.x[i]) ∧ (∀ i (h : i < 32), 24 < i → (t.strand k).x[i] = 0) ∧
      (∀ j, j ≠ k → t.strand j = s.strand j) ∧ { t with strands := s.strands } = s)) ∧
    ((p.status ≠ .running ∨ uiDue s k = false) → Does (.uiDelivery k) s)

/-- R426 to R434, R148, R501: tspawn reads its descriptor and answers 1 for a bad one, 2 for a full pool, or enqueues the task in the lowest free entry and answers its handle; trun takes the first ready task of the lowest queue asked for, loads its registers and goes to its PC, or waits; tdone ends the task and goes back
after the trun, or ends a strand without one; the future instructions empty, fill and wait for a word of window 0xF3; tqcfg answers and limits a queue. What releases waits where a home is held, for at most 4 ms (R303). That a task with nothing left to do retires at its trun (R430) takes it for done. That BAD of a descriptor comes before a full pool, that a group without a pool has a full one, that x0 in trun names the register, and the order of tasks that become ready together, are the model's readings (assumption 28). -/
def Obligations.TaskResult : Prop :=
  ∀ (s : State) (k : Nat) (d a b : Reg),
    let p := s.strand k
    let x := readX p.x a
    let y := readX p.x b
    let die := dieOf (k / 3)
    let Does (i : Instr) (t : State) : Prop := Runs i s (fun u => u = t)
    (s.actor = .strand k →
      (s.specTask k = none → ∀ t u, readTask x false s = .ok t u → u.actor = s.actor →
        (refuses t u.futSize = true → Runs (.tspawn d a) s (StrandBecomes u k ((u.strand k).gives d 0x100000000))) ∧
        (refuses t u.futSize = false → poolFull u t.queue = true → Runs (.tspawn d a) s (StrandBecomes u k ((u.strand k).gives d 0x200000000))) ∧
        (refuses t u.futSize = false → poolFull u t.queue = false → releaseWaits u (k / 3) .die = true → ReleaseWaitsFrom (.tspawn d a) s k u) ∧
        (refuses t u.futSize = false → poolFull u t.queue = false → releaseWaits u (k / 3) .die = false → ∀ j, freeEntry u die = some j → Runs (.tspawn d a) s (fun v =>
          let r := release u (k / 3) .die
          v = ((enqueue r j (r.newTask t)).setX d (BitVec.ofNat 64 (j % 2 ^ 16))).advance ∧ ∃ z, sfind v.tasks j = some z ∧ z.desc = t ∧ z.asid = (r.strand k).e.asid))) ∧
      (s.specTask k ≠ none → Does (.tspawn d a) s.block) ∧
      (x.toNat % 64 ≠ 0 → s.specTask k = none → Does (.tspawn d a) (raise s ⟨.misaligned, x, 0⟩)) ∧
      (p.task ≠ none → Illegal (.trun d a b) s) ∧
      (p.task = none →
        (∀ j z, pickTask s x = some (j, z) → z.desc.resume ≠ z.desc.trip → Runs (.trun d a b) s (fun t =>
          let left := (z.desc.trip - z.desc.resume).toNat
          (t.strand k).pc = z.desc.pc ∧ (t.strand k).task = some j ∧ (t.strand k).tret = p.pc + 4 ∧ (t.strand k).vstart = 0 ∧
          (t.strand k).vtype = z.desc.vtype ∧ (t.strand k).vl = vlStored z.desc.vtype left ∧
          (d ≠ 4 → readX (t.strand k).x 4 = BitVec.ofNat 64 left) ∧ (d ≠ 0 → readX (t.strand k).x d = BitVec.ofNat 64 (j % 2 ^ 16)) ∧
          (∀ i, i < min z.desc.nptr 4 → d.toNat ≠ 5 + i → readX (t.strand k).x (BitVec.ofNat 5 (5 + i)) =
            z.desc.ptr.getD i 0 + BitVec.ofNat 64 (z.desc.resume.toNat * ewBits z.desc.vtype / 8)) ∧
          sfind t.tasks j = some { z with state := .running k })) ∧
        (∀ j z, pickTask s x = some (j, z) → sfind s.tasks j = some z → z.desc.resume = z.desc.trip → Runs (.trun d a b) s (fun t =>
          (t.strand k).pc = p.pc + 4 ∧ (t.strand k).task = none ∧ (t.strand k).x = writeX p.x d (BitVec.ofNat 64 (j % 2 ^ 16)) ∧
          (z.set = [] → sfind t.tasks j = none) ∧ (z.set ≠ [] → sfind t.tasks j = some { z with state := .done }) ∧ ∀ i, i ≠ j → sfind t.tasks i = sfind s.tasks i)) ∧
        (pickTask s x = none →
          let passed := p.wait.expired = true ∨ ∃ l, p.wait.deadline = some l ∧ l ≤ s.timeNs.toNat
          (passed → Runs (.trun d a b) s (StrandBecomes s k (p.gives d 0xFFFFFFFFFFFFFFFF))) ∧
          (¬passed → Runs (.trun d a b) s (StrandBecomes s k { p with wait := { p.wait with
            blocked := true, deadline := if b = 0 then none else some (p.wait.deadline.getD (s.timeNs.toNat + y.toNat)) } })))) ∧
      (p.task = none → Runs .tdone s (StrandBecomes s k { p with ending := true })) ∧
      (p.task ≠ none → releaseWaits s (k / 3) .die = true → ReleaseWaits .tdone s k) ∧
      (∀ j z, p.task = some j → sfind s.tasks j = some z → releaseWaits s (k / 3) .die = false → Runs .tdone s (fun t =>
        (t.strand k).pc = p.tret ∧ (t.strand k).task = none ∧ (t.strand k).x = p.x ∧
        (z.set = [] → sfind t.tasks j = none) ∧ (z.set ≠ [] → sfind t.tasks j = some { z with state := .done }) ∧ ∀ i, i ≠ j → sfind t.tasks i = sfind s.tasks i)) ∧
      (let size := (windowSize s k 0xF3).getD 0
       let addr : Dword := 0xF300000000000000 + x
       let bad (i : Instr) : Prop := (x.toNat % 8 ≠ 0 → Does i (raise s ⟨.misaligned, x, 0⟩)) ∧ (x.toNat % 8 = 0 → size ≤ x.toNat → Does i (raise s ⟨.windowRange, x, 0⟩))
       let good := x.toNat % 8 = 0 ∧ x.toNat < size
       (s.specTask k = none → bad (.tfut d a) ∧ (good → ∀ u, storeN s.ctx addr 8 0 0 0 s = .ok () u → u.actor = s.actor → Runs (.tfut d a) s (
          let w := u.futWord x.toNat
          StrandBecomes { u with full := nsErase (nsErase u.full w) (w + 1) } k ((u.strand k).gives d addr)))) ∧
       (x.getLsbD 63 = true → p.level = .user → Does (.tfset a b) (raise s ⟨.privilege, (wTfset a b).zeroExtend 64, 0⟩)) ∧
       (releaseWaits s (k / 3) .die = true → (x.getLsbD 63 = true → p.level ≠ .user → ReleaseWaits (.tfset a b) s k) ∧
         (x.getLsbD 63 = false → good → futureFull s x.toNat = false → ReleaseWaits (.tfset a b) s k)) ∧
       (x.getLsbD 63 = true → p.level ≠ .user → releaseWaits s (k / 3) .die = false → Does (.tfset a b) (setPager (release s (k / 3) .die) die (x.toNat % 1024)).advance) ∧
       (x.getLsbD 63 = false → bad (.tfset a b) ∧ (good → futureFull s x.toNat = true → Does (.tfset a b) s.block) ∧
         (good → futureFull s x.toNat = false → s.specTask k = none → releaseWaits s (k / 3) .die = false → ∀ u, storeN s.ctx addr 8 y.toNat 0 0 (release s (k / 3) .die) = .ok () u → u.actor = s.actor → u.specTask k = none →
           Runs (.tfset a b) s (StrandBecomes { u with full := nsInsert u.full (u.futWord x.toNat) } k (u.strand k).onward))) ∧
       bad (.tfwait d a) ∧ (good → futureFull s x.toNat = false → Does (.tfwait d a) s.block) ∧
       (good → futureFull s x.toNat = true → ∀ v u, loadN s.ctx addr 8 0 0 s = .ok v u → u.actor = s.actor →
         Runs (.tfwait d a) s (StrandBecomes (acquire u (k / 3) .die) k ((u.strand k).gives d (BitVec.ofNat 64 v))))) ∧
      (let bad := 63 < x.toNat ∨ y.toNat / 2 ^ 17 ≠ 0
       let n := (queueTasks s die p.e.asid x.toNat).length
       let key := (65536 * die + p.e.asid.toNat) * 64 + x.toNat
       (bad → Runs (.tqcfg d a b) s (StrandBecomes s k (p.gives d 0xFFFFFFFFFFFFFFFF))) ∧
       (¬bad → y.getLsbD 16 = false → Runs (.tqcfg d a b) s (StrandBecomes s k (p.gives d (BitVec.ofNat 64 n)))) ∧
       (¬bad → y.getLsbD 16 = true → Runs (.tqcfg d a b) s (StrandBecomes { s with qlimit := sput s.qlimit key (y.extractLsb' 0 16) } k (p.gives d (BitVec.ofNat 64 n)))))) ∧
    (let w := p.wait
     let due := w.blocked = true ∧ ∃ l, w.deadline = some l ∧ l ≤ s.timeNs.toNat
     (due → Runs (.wfeTimeout k) s (StrandBecomes s k { p with wait := { w with expired := true } }) ∧ Runs (.trunTimeout k) s (StrandBecomes s k { p with wait := { w with expired := true } })) ∧
     (¬due → Does (.wfeTimeout k) s ∧ Does (.trunTimeout k) s)) ∧
    (∀ (dn e : Nat) z, sfind s.tasks (16384 * dn + e) = some z → z.state = .waiting → z.awaits = [] →
      (let full := ∀ o ∈ z.desc.futures, futureWord s z.kernel ((16384 * dn + e) / 16384) o ∈ s.full
       full → z.set.length ≤ 4 → Runs (.taskReady dn e) s (fun t => sfind t.tasks (16384 * dn + e) = some { z with state := .ready s.taskSeq } ∧ t.taskSeq = s.taskSeq + 1 ∧
         { t with tasks := s.tasks, taskSeq := s.taskSeq } = s)) ∧
      ((∃ o ∈ z.desc.futures, futureWord s z.kernel ((16384 * dn + e) / 16384) o ∉ s.full ∧ specSetter s z ((16384 * dn + e) / 16384) o = none) → Does (.taskReady dn e) s)) ∧
    (∀ dn e, (∀ z, sfind s.tasks (16384 * dn + e) = some z → z.state ≠ .waiting ∨ z.awaits ≠ []) → Does (.taskReady dn e) s)

/-- R438 to R446, R451 to R454: sfarm arms, rearms or frees a slot of the die, spub publishes a version of its tile and compares it with the open forecast, sstat describes the slot, sabort closes its forecast, forms the next one and squashes the tasks that hold it, its own among them, and sspawn spawns a task on open forecasts. A pending decision takes effect at
FORECAST_DECISION, after those that arrived before it: a forecast that passes leaves every set, one that fails squashes the tasks that hold it. A decision waits for what an emergence that it brings needs. TaskSquash says what a squash does. That sfarm reads its descriptor before it looks at the slot, when it answers BUSY, and that sabort waits for a pending decision, are the model's readings (assumption 28), as is how a bound that is a NaN or −0 compares (assumption 29). How sspawn treats a slot armed for a hand-off, and when samples count as held, is the model's choice (assumption 62). R447, R452, R453: a squash. Nothing that the task has buffered becomes visible: memory and full-empty bits stay, and no other task changes. A strand that runs the task is back at its trun, at user level and with no instruction part way; the task is queued again without its set, to wait for the versions it was spawned on, or is gone where it was
derived. That cm and VSTART of its strand become zero is the model's reading (assumption 28), and what ring slots and a re-armed forecast slot keep its choice (assumption 61). -/
def Obligations.SpeculationResult : Prop :=
  (∀ (s : State) (k : Nat) (d a b : Reg),
     let p := s.strand k
     let x := readX p.x a
     let y := readX p.x b
     let Does (i : Instr) (t : State) : Prop := Runs i s (fun u => u = t)
     (s.actor = .strand k →
       let key := 64 * dieOf (k / 3) + x.toNat
       let buffered := ∃ q, s.specTask k = some q ∧ q.2.buf ≠ []
       let mine := ∀ z, sfind s.fslots key = some z → z.asid = p.e.asid ∧ slotHeld s key z = false
       let Gives (i : Instr) (v : Dword) : Prop := Runs i s (StrandBecomes s k (p.gives d v))
       (63 < x.toNat → Gives (.sfarm d a b) 2 ∧ Gives (.spub d a) 0xFFFFFFFFFFFFFFFF ∧ Gives (.sstat d a) 0xFFFFFFFFFFFFFFFF ∧ Gives (.sabort d a) 0xFFFFFFFFFFFFFFFF) ∧
       (x.toNat < 64 →
         (y = 0 → ¬mine → Gives (.sfarm d a b) 1) ∧
         (y = 0 → mine → Runs (.sfarm d a b) s (StrandBecomes { s with fslots := sdel s.fslots key } k (p.gives d 3))) ∧
         (y.toNat % 8 ≠ 0 → Does (.sfarm d a b) (raise s ⟨.misaligned, y, 0⟩)) ∧
         (y ≠ 0 → y.toNat % 8 = 0 → ∀ l u, readDwords y 8 s = .ok l u → u.actor = s.actor →
           (slotOf l (u.strand k).e.asid = none → Runs (.sfarm d a b) s (StrandBecomes u k ((u.strand k).gives d 2))) ∧
           (∀ z, slotOf l (u.strand k).e.asid = some z → (¬mine → Runs (.sfarm d a b) s (StrandBecomes u k ((u.strand k).gives d 1))) ∧
             (mine → Runs (.sfarm d a b) s (StrandBecomes (armSlot u key z) k ((u.strand k).gives d 0))))) ∧
         (sfind s.fslots key = none → Gives (.spub d a) 0xFFFFFFFFFFFFFFFF ∧ Gives (.sstat d a) 0 ∧ Gives (.sabort d a) 0xFFFFFFFFFFFFFFFF) ∧
         (∀ z, sfind s.fslots key = some z → z.asid ≠ p.e.asid →
           Gives (.spub d a) 0xFFFFFFFFFFFFFFFF ∧ Gives (.sstat d a) 0xFFFFFFFFFFFFFFFF ∧ Gives (.sabort d a) 0xFFFFFFFFFFFFFFFF) ∧
         (∀ z, sfind s.fslots key = some z → z.asid = p.e.asid →
           (z.pending ≠ none → Does (.spub d a) s.block) ∧
           (z.pending = none → buffered → Does (.spub d a) s.block) ∧
           (z.pending = none → ¬buffered → releaseWaits s (k / 3) .device = true → ReleaseWaits (.spub d a) s k) ∧
           (z.pending = none → ¬buffered → releaseWaits s (k / 3) .device = false → ∀ r u, readTile (agentCtx k z.asid) z.tile z.len (release s (k / 3) .device) = .ok r u → u.actor = s.actor →
             let q := acquire u (k / 3) .device
             Runs (.spub d a) s (StrandBecomes { published q (key / 64) ⟨key % 64, z.ver + 1⟩ with fslots := sput q.fslots key (z.publish q.tick r.1 r.2) } k ((q.strand k).gives d ((z.ver + 1).zeroExtend 64)))) ∧
           (∃ v : Dword, Gives (.sstat d a) v ∧ v.extractLsb' 32 32 = z.maxerr ∧ v.extractLsb' 16 16 = z.fails ∧
             v.extractLsb' 0 10 = BitVec.ofNat 10 (min 1023 (slotHolders s key z).length)) ∧
           (z.pending ≠ none → Does (.sabort d a) s.block) ∧
           (z.pending = none →
            let n := (slotHolders s key z).length
            let s1 : State := { s with fslots := sput s.fslots key ({ z with result := 3 } : FSlot).form }
            let t := failForecast false s1 (key / 64) ⟨key % 64, z.ver + 1⟩
            let own := ∃ q ∈ slotHolders s key z, p.task = some q.1
            (own → Does (.sabort d a) t) ∧ (¬own → Does (.sabort d a) (t.setX d (BitVec.ofNat 64 n)).advance)))) ∧
       (∀ t l u u2, readTask x true s = .ok t u → u.actor = s.actor → y.toNat % 8 = 0 → winCode y ≠ 0xF0 → winCode y ≠ 0xFE →
         Accesses (fun i => do
           let s ← get
           let ea := s.x b + BitVec.ofNat 64 (8 * i)
           let t ← route s.ctx ea 8 .read 0 0
           let v ← readTarget s.ctx t 8 ea 0
           let s ← get
           pure (match s.specTask s.key with | some (_, q) => overlay q t.place 8 v | none => v)) u (List.range 8) l u2 →
         let r := specRecord l
         let dn := dieOf (k / 3)
         let slots := r.1.map (fun n => if n < 64 then u2.mySlot (BitVec.ofNat 64 n) else none)
         let Answers (n : Nat) : Prop := Runs (.sspawn d a b) s (StrandBecomes u2 k ((u2.strand k).gives d (BitVec.ofNat 64 (2 ^ 32 * n))))
         let broken := r.2.2.2 = true ∨ none ∈ slots
         let closed := ∃ q z, some (q, z) ∈ slots ∧ z.forecast = none
         let crowded := 1024 ≤ ((dieTasks u2 dn).filter (fun q => !q.2.set.isEmpty)).length
         (refuses t u2.futSize = true → Answers 1) ∧
         (refuses t u2.futSize = false →
           (broken → Answers 3) ∧ (¬broken → closed → Answers 4) ∧ (¬broken → ¬closed → crowded → Answers 5) ∧
           (¬broken → ¬closed → ¬crowded → poolFull u2 t.queue = true → Answers 2) ∧
           (¬broken → ¬closed → ¬crowded → poolFull u2 t.queue = false → releaseWaits u2 (k / 3) .die = true → ReleaseWaitsFrom (.sspawn d a b) s k u2) ∧
           (¬broken → ¬closed → ¬crowded → poolFull u2 t.queue = false → ∀ j, freeEntry u2 dn = some j → releaseWaits u2 (k / 3) .die = false → Runs (.sspawn d a b) s (fun v =>
             let q := release u2 (k / 3) .die
             let set := (r.1.map (fun n => (⟨n, (if n < 64 then u2.mySlot (BitVec.ofNat 64 n) else none).elim 0 (fun z => z.2.ver) + 1⟩ : Fc))).dedup
             let par := u2.specTask k
             let all := unionSet (par.elim [] (fun q => q.2.set)) set
             v = ((enqueue q j { q.newTask t with set := all, origSet := all, reads := r.2.1, writes := r.2.2.1, derived := par.isSome, parent := par.map (·.1) }).setX d
               (BitVec.ofNat 64 (j % 2 ^ 16))).advance))))) ∧
     (∀ dn n z q, sfind s.fslots (64 * dn + n) = some z → z.pending = some q →
       let s1 : State := { s with fslots := sput s.fslots (64 * dn + n) { z with pending := none, maxerr := q.maxerr, fails := BitVec.ofNat 16 (min q.fails 0xFFFF), result := if q.pass then 1 else 2 } }
       let earlier := ∃ r ∈ s.fslots, r.1 / 64 = dn ∧ ∃ e, r.2.pending = some e ∧ e.at_ < q.at_
       let f : Fc := ⟨n, q.ver⟩
       (earlier → Does (.forecastDecision dn n) s) ∧ (¬earlier → q.pass = true → ∀ e u, passReady dn f s = .error e u → Does (.forecastDecision dn n) (keepRequests s u)) ∧
       (¬earlier → q.pass = true → ∀ u, passReady dn f s = .ok () u →
         let u1 : State := { u with fslots := sput u.fslots (64 * dn + n) { z with pending := none, maxerr := q.maxerr, fails := BitVec.ofNat 16 (min q.fails 0xFFFF), result := 1 } }
         Does (.forecastDecision dn n) (passForecast (if z.handoff && !(emerging u1 dn f).isEmpty then noteHeld u1 dn n else u1) dn f)) ∧
       (¬earlier → q.pass = false → Does (.forecastDecision dn n) (failForecast false s1 dn ⟨n, q.ver⟩)))) ∧
  (∀ (s : State) (j : Nat) (z : Task), sfind s.tasks j = some z →
     let t := squashTask false s j
     t.mem = s.mem ∧ t.full = s.full ∧ t.poison = s.poison ∧ (∀ i, i ≠ j → sfind t.tasks i = sfind s.tasks i) ∧
     (z.derived = true → sfind t.tasks j = none) ∧
     (z.derived = false → ∃ y, sfind t.tasks j = some y ∧ y.state = .waiting ∧ y.set = [] ∧ y.buf = [] ∧ y.futs = [] ∧ y.held = none ∧ y.awaits = z.origSet ∧ y.desc = z.desc ∧
       y.kernel = z.kernel ∧ y.asid = z.asid) ∧
     (∀ k, z.state = .running k →
       let q := t.strand k
       let p := s.strand k
       q.pc = p.tret - 4 ∧ q.task = none ∧ q.level = .user ∧ q.wait = {} ∧ q.cm = 0 ∧ q.vstart = 0 ∧ q.x = p.x ∧ q.status = p.status ∧
       (q.squashed = true ↔ p.status = .saved ∨ p.status = .restoring)) ∧
     (∀ k, (∀ i, z.state ≠ .running i) → (t.strand k).pc = (s.strand k).pc ∧ (t.strand k).x = (s.strand k).x ∧ (t.strand k).task = (s.strand k).task))

/-- R456 to R473: the SQ instructions. A structure that is not aligned takes MISALIGNED; a kernel that does not own the sequencer of its die, or acts while a run is in progress, gets the status its row says; else sqinit, sqtab and sqadd check their structure and take it, sqgo starts a run, sqstat describes a sample or the run, and sqend stops the run and
then releases the sequencer. The order of BUSY, NOTOWNER and the reads of the structures, and what stays readable after sqend, are the model's readings (assumption 30). R463 to R471: the sequencer's own events. A stage is launched or skipped, a launch that is complete leads to the next stage or ends the run with the code of its failure, and the decision makes each active sample's new step or rejects it. A run that is to stop ends once the launches it waits for are done; an event of which an access
has to wait leaves nothing but its requests. Without such a phase an event changes nothing. When a sample has a valid k_0 (assumption 62), and that a pending decision of a slot is served first (assumption 30), are the model's readings. -/
def Obligations.SolverResult : Prop :=
  (∀ (s : State) (k : Nat) (d a : Reg), s.actor = .strand k →
     let p := s.strand k
     let x := readX p.x a
     let die := dieOf (k / 3)
     let q := s.solver die
     let kernel := (s.groupOf k).map (·.kernel)
     let owns := q.owner ≠ none ∧ q.owner = kernel
     let Gives (i : Instr) (v : Dword) : Prop := Runs i s (StrandBecomes s k (p.gives d v))
     let Answers (i : Instr) (u : State) (v : Dword) : Prop := Runs i s (StrandBecomes u k ((u.strand k).gives d v))
     (x.toNat % 64 ≠ 0 → Runs (.sqinit d a) s (fun t => t = raise s ⟨.misaligned, x, 0⟩) ∧ Runs (.sqtab d a) s (fun t => t = raise s ⟨.misaligned, x, 0⟩)) ∧
     (x.toNat % 8 ≠ 0 → Runs (.sqadd d a) s (fun t => t = raise s ⟨.misaligned, x, 0⟩)) ∧
     (x.toNat % 64 = 0 → q.running = true ∨ (q.owner ≠ none ∧ ¬owns) → Gives (.sqinit d a) 1) ∧
     (x.toNat % 64 = 0 → q.running = false → (q.owner = none ∨ owns) → ∀ l u, readDwords x 12 s = .ok l u → u.actor = s.actor →
       let r := sqBlockOf l
       (r.2.2 = true ∨ kernel = none → Answers (.sqinit d a) u 2) ∧
       (r.2.2 = false → kernel ≠ none → ∀ f v, readDwords r.2.1 32 u = .ok f v → v.actor = s.actor →
         let fs := (List.range 64).map (wordAt f)
         (¬(∀ n ∈ fs, positive32 n = true) → Answers (.sqinit d a) v 2) ∧
         ((∀ n ∈ fs, positive32 n = true) → Runs (.sqinit d a) s (StrandBecomes (v.setSolver die { owner := (v.groupOf k).map (·.kernel), strand := k, asid := (v.strand k).e.asid, enders := nsErase (v.solver die).enders k, block := some { r.1 with factors := fs.map (BitVec.ofNat 32) } }) k ((v.strand k).gives d 0))))) ∧
     (x.toNat % 64 = 0 → (q.running = true → Gives (.sqtab d a) 1) ∧ (q.running = false → ¬owns → Gives (.sqtab d a) 3) ∧
       (owns → q.running = false → ∀ l u, readDwords x 32 s = .ok l u → u.actor = s.actor →
         (sqTableOf l = none → Answers (.sqtab d a) u 2) ∧
         (∀ t, sqTableOf l = some t → Runs (.sqtab d a) s (StrandBecomes (u.setSolver die { u.solver die with table := some t }) k ((u.strand k).gives d 0))))) ∧
     (x.toNat % 8 = 0 → (¬owns ∨ q.running = true ∨ q.block = none → Gives (.sqadd d a) 0xFFFFFFFFFFFFFFFD) ∧
       (∀ b l u, owns → q.running = false → q.block = some b → readDwords x 8 s = .ok l u → u.actor = s.actor →
         (sampleOf b l = none → Answers (.sqadd d a) u 0xFFFFFFFFFFFFFFFF) ∧
         (∀ y, sampleOf b l = some y →
           (4096 ≤ q.samples.length → Answers (.sqadd d a) u 0xFFFFFFFFFFFFFFFE) ∧
           (q.samples.length < 4096 → Runs (.sqadd d a) s (StrandBecomes (u.setSolver die { u.solver die with samples := (u.solver die).samples ++ [y] }) k
             ((u.strand k).gives d (BitVec.ofNat 64 q.samples.length))))))) ∧
     (¬owns ∨ q.running = true → Gives (.sqgo d) 1) ∧
     (owns → q.running = false → q.block = none ∨ q.table = none ∨ q.samples = [] → Gives (.sqgo d) 2) ∧
     (∀ b t, owns → q.running = false → q.block = some b → q.table = some t → q.samples ≠ [] →
       let refused := b.handoff = true ∧ (zero32 (t.c.getD 0 0).toNat = false ∨
         ∃ i ∈ q.active, ∃ y, q.samples[i]? = some y ∧ y.fslot ≠ 0xFF ∧ sfind s.fslots (64 * die + y.fslot.toNat) ≠ none)
       (refused → Gives (.sqgo d) 3) ∧
       (¬refused → releaseWaits s (k / 3) .device = true → ReleaseWaits (.sqgo d) s k) ∧
       (¬refused → releaseWaits s (k / 3) .device = false → ∀ v u, readDword q.ctx b.cwaddr (release s (k / 3) .device) = .ok v u → u.actor = s.actor →
         let r := u.setSolver die { q with
           phase := some (.launch 0), ended := false, rcode := 0, begun := 1, rounds := 0, launches := 0, accepted := 0, handed := [], held := [], stopping := false
           enders := nsErase q.enders k, base := BitVec.ofNat 64 v }
         (b.handoff = false → Answers (.sqgo d) r 0) ∧
         (b.handoff = true → (∀ w, armHandoffs die r = .ok true w → w.actor = s.actor → Answers (.sqgo d) w 0) ∧
           (∀ w, armHandoffs die r = .error .wait w → w.actor = s.actor → Runs (.sqgo d) s (fun t =>
             t = (keepRequests (release s (k / 3) .device) w).block ∧ (t.solver die).phase = q.phase))))) ∧
     (q.owner ≠ none → ¬owns → Gives (.sqstat d a) 0xFFFFFFFFFFFFFFFF) ∧
     (q.owner = none ∨ owns →
       (∀ y, x.toNat < q.samples.length → q.samples[x.toNat]? = some y →
         Gives (.sqstat d a) (y.norm ++ y.status.code ++ y.stage ++ BitVec.ofNat 16 (min y.nrej.toNat 0xFFFF))) ∧
       (q.samples.length ≤ x.toNat → ∃ v : Dword, Gives (.sqstat d a) v ∧ v.extractLsb' 48 8 = q.rcode ∧ v.extractLsb' 32 13 = BitVec.ofNat 13 q.active.length ∧
         v.extractLsb' 0 32 = q.rounds ∧ v.extractLsb' 56 8 = (if q.owner = none then (0 : BitVec 8) else if q.running then 2 else if q.ended then 3 else 1))) ∧
     (k ∈ q.enders → ¬(q.running = true ∧ q.stopping = true) → Runs (.sqend d) s (StrandBecomes (s.setSolver die { q with enders := nsErase q.enders k }) k (p.gives d 0))) ∧
     (k ∉ q.enders → ¬owns → Gives (.sqend d) 1) ∧
     (k ∉ q.enders → owns → q.running = false → Runs (.sqend d) s (StrandBecomes (s.setSolver die { q with owner := none }) k (p.gives d 0))) ∧
     (owns → q.running = true → k ∉ q.enders ∨ q.stopping = true → Runs (.sqend d) s
       (StrandBecomes (s.setSolver die { q with stopping := true, enders := nsInsert q.enders k }) k { p with wait := { p.wait with blocked := true } }))) ∧
  (∀ (s : State) (die : Nat),
     let x := s.solver die
     let Does (i : Instr) (t : State) : Prop := Runs i s (fun u => u = t)
     let Works (i : Instr) (m : M Unit) : Prop := Does i (unitWork m s)
     (x.phase = none → Does (.sqStageLaunch die) s ∧ Does (.sqStageComplete die) s ∧ Does (.sqDecision die) s) ∧
     (∀ b t, x.block = some b → x.table = some t →
       (x.stopping = true → let stop := tryStop die x b
         (∀ j, x.phase = some (.launch j) → Works (.sqStageLaunch die) stop) ∧ (x.phase = some .candidates → Works (.sqStageLaunch die) stop) ∧
         (∀ j, x.phase = some (.await j) → Works (.sqStageComplete die) stop) ∧ (x.phase = some .handoff → Works (.sqStageComplete die) stop) ∧
         (x.phase = some .decide → Works (.sqDecision die) stop)) ∧
       (x.stopping = false →
         (∀ j, x.phase = some (.launch j) →
           (x.active = [] → Works (.sqStageLaunch die) (endRun die 0)) ∧
           (x.active ≠ [] → t.stages ≤ j → Does (.sqStageLaunch die) (s.setSolver die { x with phase := some .candidates })) ∧
           (x.active ≠ [] → j < t.stages → participants x j = [] → Does (.sqStageLaunch die) (s.setSolver die { x with phase := some (.launch (j + 1)) })) ∧
           (x.active ≠ [] → j < t.stages → participants x j ≠ [] → Works (.sqStageLaunch die) (stageLaunch die j b t))) ∧
         (x.phase = some .candidates → Works (.sqStageLaunch die) (formCandidates die b t)) ∧
         (∀ next : M Unit, ((∃ j, x.phase = some (.await j) ∧ next = setPhase die (.launch (j + 1))) ∨ (x.phase = some .handoff ∧ next = do
             eachM x.handed (fun i => settleSlot die ((x.samples[i]?).elim 0xFF (·.fslot)))
             modify (fun s =>
               let z := s.solver die
               s.setSolver die (z.held.foldl (fun z i => z.updSample i (fun y => { y with k0 := true })) z))
             nextRound die)) →
           (∀ u, launchesDone x b x.launches s = .error .wait u → Does (.sqStageComplete die) (keepRequests s u)) ∧
           (∀ u, launchesDone x b x.launches s = .ok (some false) u → Does (.sqStageComplete die) u) ∧
           (∀ u v, launchesDone x b x.launches s = .ok none u → endRun die 2 u = .ok () v → Does (.sqStageComplete die) v) ∧
           (∀ u r v w, launchesDone x b x.launches s = .ok (some true) u → launchOk x b u = .ok r v →
             (r = none → endRun die 2 v = .ok () w → Does (.sqStageComplete die) w) ∧ (r = some false → endRun die 1 v = .ok () w → Does (.sqStageComplete die) w) ∧
             (r = some true → next v = .ok () w → Does (.sqStageComplete die) w))) ∧
         (x.phase = some .decide →
           (∀ u, eachSample die (decideOne die b t) x.active s = .error .wait u → Does (.sqDecision die) (keepRequests s u)) ∧
           (∀ ok u r w, eachSample die (decideOne die b t) x.active s = .ok ok u →
             writeRecords die (List.range (u.solver die).samples.length) (u.setSolver die { u.solver die with rounds := (u.solver die).rounds + 1 }) = .ok r w →
             let q := kernelProgress w ((w.solver die).owner.getD (2 ^ 40))
             (ok = false ∨ r = false → ∀ v, endRun die 2 w = .ok () v → Does (.sqDecision die) v) ∧
             (ok = true → r = true → (q.solver die).handed = [] → ∀ v, nextRound die q = .ok () v → Does (.sqDecision die) v) ∧
             (ok = true → r = true → (q.solver die).handed ≠ [] → Does (.sqDecision die) (q.setSolver die { q.solver die with phase := some .handoff })))))) ∧
     (∀ b (y : Sample) (norm : Nat), (unpack fmt32 norm).isNan = true → (decideSample b y norm).nacc = y.nacc ∧ (decideSample b y norm).nrej = y.nrej + 1 ∧ (decideSample b y norm).t = y.t) ∧
     (∀ b (y : Sample) (norm : Nat), acceptable norm = true → (decideSample b y norm).nacc = y.nacc + 1 ∧ (decideSample b y norm).nrej = y.nrej ∧ (decideSample b y norm).norm = BitVec.ofNat 32 norm))

/-- R53 to R58, R60 to R62, R70, R71, R73: a doorbell sets TAIL, and an enabled queue enters ERROR, WAITING or IDLE by what it then announces; enable copies the descriptor,
disable and reset change the state as their rows say; a slot that becomes free goes to the WAITING queue first in line; QUANTUM_BOUNDARY, which is due once a quantum has passed, lowers levels and maps the WAITING queues in their order. A queue beyond QCOUNT is left alone. The ties of R71, the vector of an ERROR, and a level kept through a mapping are the model's choices (assumption 51), the handling of slots and skipped writes its readings (assumption 33). -/
def Obligations.QueueEvents : Prop :=
  ∀ (s : State) (q : Nat) (tail : BitVec 32),
    let x := s.queue q
    let Does (i : Instr) (t : State) : Prop := Runs i s (fun u => u = t)
    let Queue (u : State) (y : SQueue) : Prop := u.queue q = y ∧ (∀ r, r ≠ q → u.queue r = s.queue r) ∧ { u with lu := { u.lu with queues := s.lu.queues } } = s
    let rung : SQueue := { x with tail := tail, bells := x.ring { tail := tail, step := s.tick, kernel := none } }
    let Left (u : State) (n : Nat) (y : SQueue) : Prop := u.queue q = { y with slot := none } ∧ (∀ r, r ≠ q → u.queue r = s.queue r) ∧ u.slotOf n = {} ∧
      (∀ m, m ≠ n → u.slotOf m = s.slotOf m) ∧ { u with lu := { u.lu with queues := s.lu.queues, slots := s.lu.slots } } = s
    let beyond := 2 ^ x.log2size < (tail - x.head).toNat
    (s.lu.qcount.toNat ≤ q → Does (.doorbellWrite q tail) s ∧ Does (.qcmdEnable q) s ∧ Does (.qcmdDisable q) s ∧ Does (.qcmdReset q) s) ∧
    (q < s.lu.qcount.toNat →
      (x.slot = none →
        (x.state = .disabled ∨ x.state = .error → Runs (.doorbellWrite q tail) s (fun t => Queue t { rung with met := [] })) ∧
        (x.state = .idle ∨ x.state = .waiting → beyond → Runs (.doorbellWrite q tail) s (fun t => ∃ u, Queue u rung ∧ t = queueError u q 0xF0)) ∧
        (x.state = .idle → ¬beyond → x.head = tail → Runs (.doorbellWrite q tail) s (fun t => Queue t rung)) ∧
        (x.state = .idle → ¬beyond → x.head ≠ tail → Runs (.doorbellWrite q tail) s (fun t => ∃ u, Queue u rung ∧ t = queueWaits u q)) ∧
        (x.state = .waiting → ¬beyond → x.head = tail → Runs (.doorbellWrite q tail) s (fun t => Queue t { rung with state := .idle, entering := false, met := [] })) ∧
        (x.state = .waiting → ¬beyond → x.head ≠ tail → Runs (.doorbellWrite q tail) s (fun t => Queue t rung)) ∧
        (x.state = .idle ∨ x.state = .waiting → Runs (.qcmdDisable q) s (fun t => Queue t { x with state := .disabled, entering := false, met := [] }))) ∧
      (∀ n, x.slot = some n → x.state = .mapped →
        (beyond → Runs (.doorbellWrite q tail) s (fun t => ∃ u, Queue u rung ∧ t = refill s (queueError u q 0xF0) q)) ∧
        (¬beyond → x.head = tail → (s.slotOf n).accepting = false → Runs (.doorbellWrite q tail) s (fun t =>
          ∃ u, Left u n { rung with state := if (s.slotOf n).disable then .disabled else .idle, entering := false, met := [] } ∧ t = takeSlot u n)) ∧
        (¬beyond → x.head ≠ tail ∨ (s.slotOf n).accepting = true → (s.slotOf n).state ≠ .free → Runs (.doorbellWrite q tail) s (fun t => Queue t rung)) ∧
        ((s.slotOf n).accepting = false → Runs (.qcmdDisable q) s (fun t => ∃ u, Left u n { x with state := .disabled, met := [] } ∧ t = takeSlot u n)) ∧
        ((s.slotOf n).accepting = true → Does (.qcmdDisable q) (s.setSlot n { s.slotOf n with state := .draining, disable := true }))) ∧
      (x.state = .disabled → Runs (.qcmdDisable q) s (fun t => Queue t { x with enabling := false })) ∧ (x.state = .error → Does (.qcmdDisable q) s) ∧
      (x.state = .disabled ∨ x.state = .error → Runs (.qcmdReset q) s (fun t =>
        ∃ u, Queue u { x with head := 0, tail := 0, state := .disabled, bells := [], met := [], enabling := false, headDue := some 0 } ∧
        (∀ v, descWrite u q 0x10 4 0 = (.ok (), v) → (v.queue q).slot = none → t = v.updQueue q (fun z => { z with headDue := none })) ∧
        (∀ v, descWrite u q 0x10 4 0 = (.later, v) → t = v) ∧
        (∀ c v, descWrite u q 0x10 4 0 = (.bad c, v) → x.slot = none → (v.queue q).state ≠ .error →
          t = queueError (skipWrite (v.updQueue q (fun z => { z with headDue := none })) q) q c.code))) ∧
      (x.state ≠ .disabled → x.state ≠ .error → Does (.qcmdReset q) s) ∧
      (x.state ≠ .disabled ∨ s.dev.ready = false → Does (.qcmdEnable q) s) ∧
      (x.state = .disabled → s.dev.ready = true → x.headDue ≠ none → Runs (.qcmdEnable q) s (fun t => Queue t { x with enabling := true })) ∧
      (x.state = .disabled → s.dev.ready = true → x.headDue = none →
        (∀ c u, luTry (luDwords 0 (descAddr s q) 3) s = (.bad c, u) → Does (.qcmdEnable q) (queueError u q c.code)) ∧
        (∀ u, luTry (luDwords 0 (descAddr s q) 3) s = (.later, u) → Does (.qcmdEnable q) (u.updQueue q (fun z => { z with enabling := true }))) ∧
        (∀ l u, luTry (luDwords 0 (descAddr s q) 3) s = (.ok l, u) →
          let y : SQueue := { u.queue q with
            base := BitVec.ofNat 64 (l.getD 0 0), log2size := l.getD 1 0 % 256, owner := BitVec.ofNat 16 (l.getD 1 0 / 2 ^ 16)
            evvec := l.getD 1 0 / 2 ^ 32 % 2 ^ 16, head := BitVec.ofNat 32 (l.getD 2 0), enabling := false
            met := if (u.queue q).base = BitVec.ofNat 64 (l.getD 0 0) ∧ (u.queue q).head = BitVec.ofNat 32 (l.getD 2 0) ∧ (u.queue q).log2size = l.getD 1 0 % 256 ∧
              (u.queue q).owner = BitVec.ofNat 16 (l.getD 1 0 / 2 ^ 16) then (u.queue q).met else [] }
          Runs (.qcmdEnable q) s (fun t => ∃ w, w.queue q = y ∧ (∀ r, r ≠ q → w.queue r = u.queue r) ∧ { w with lu := { w.lu with queues := u.lu.queues } } = u ∧
            t = if y.outOfRange then queueError w q 0xF0 else if y.head = y.tail then w.updQueue q (fun z => { z with state := .idle }) else queueWaits w q)))) ∧
    (∀ n p, firstBy waitsBefore (s.lu.queues.filter (fun p => p.2.state == .waiting && !p.2.entering)) = some p → (s.slotOf n).state = .free →
      (takeSlot s n).slotOf n = { state := .loading, qid := p.1, mappedAt := s.now } ∧
      (takeSlot s n).queue p.1 = { s.queue p.1 with state := .mapped, slot := some n } ∧ ∀ r, r ≠ p.1 → (takeSlot s n).queue r = s.queue r) ∧
    (s.now < s.lu.lastQuantum + 1000 * s.lu.quantum.toNat → Does .quantumBoundary s) ∧
    (s.lu.lastQuantum + 1000 * s.lu.quantum.toNat ≤ s.now → Runs .quantumBoundary s (fun t => ∃ u v : State,
      u.lu.lastQuantum = s.now ∧ { u with lu := { u.lu with lastQuantum := s.lu.lastQuantum, queues := s.lu.queues } } = s ∧
      (∀ r, u.queue r = if (s.queue r).state = .waiting ∧ (s.queue r).entering = false then
        let w := (s.now - (s.queue r).waitSince) / (1000 * s.lu.quantum.toNat) / 8
        { s.queue r with falls := w, level := (s.queue r).level - (w - (s.queue r).falls) } else s.queue r) ∧
      v = (((u.lu.queues.filter (fun p => p.2.ranked)).foldl (fun l p => insertBy waitsBefore p l) []).map (·.1)).foldl mapInTurn u ∧
      (∀ n, t.slotOf n = { v.slotOf n with blockedQuantum := (v.slotOf n).state == .blocked }) ∧ { t with lu := { t.lu with slots := v.lu.slots } } = v))

/-- R65 to R69, R31 to R37, R74 to R78: the descriptor of a queue that is being mapped and its head record are read and the record's dependences evaluated; the best eligible record, in the order of R69, enters the kernel table, at most one in 20 ns, and HEAD is written back; the image is checked,
and the kernel goes to the die schedulers or retires with its status; a kernel that is done writes, with the time at which its last group retired, its completion record, adds to its completion word, raises its event and leaves the table, where each write that fails is left out. An event whose turn it is not changes nothing. The order of the checks on an image (assumption 51), when extents are read and the die is chosen (assumption 34), and that a bad record needs no dependence (assumption 33), are the model's choices. -/
def Obligations.RecordEvents : Prop :=
  ∀ (s : State) (n key : Nat),
    let x := s.slotOf n
    let Does (i : Instr) (t : State) : Prop := Runs i s (fun u => u = t)
    (x.state ≠ .loading → Does (.slotLoadComplete n) s) ∧ (x.state ≠ .blocked → Does (.depWatchReevaluate n) s ∧ Does (.depPoll n) s) ∧
    (x.state = .loading →
      let copy : Got Unit × State := if x.copied then (.ok (), s) else luTry (copyDesc x.qid) s
      (∀ c u, copy = (.bad c, u) → Does (.slotLoadComplete n) (refill s (queueError u x.qid c.code) x.qid)) ∧
      (∀ u, copy = (.later, u) → Does (.slotLoadComplete n) u) ∧
      (∀ u, copy = (.ok (), u) → x.qid = (u.slotOf n).qid →
        let u' := u.setSlot n { u.slotOf n with copied := true }
        let y := u.queue x.qid
        (y.head = y.tail → Does (.slotLoadComplete n) (refill s ((leaveSlot u' x.qid).updQueue x.qid (fun z => { z with state := .idle, entering := false, met := [] })) x.qid)) ∧
        (y.head ≠ y.tail → ∀ l v, luTry (luDwords y.owner (y.recordAt y.head) 16) u' = (.ok l, v) →
          let w := evalDeps (v.setSlot n { v.slotOf n with state := .active, record := some (launchRecord l), verdict := none, observed := false }) n
          ∀ r, (w.slotOf n).record = some r → (w.slotOf n).qid = x.qid →
            Does (.slotLoadComplete n) (refill s (w.updQueue x.qid (fun y => { y with level := r.prio, falls := 0 })) x.qid)))) ∧
    (x.state = .blocked → Does (.depWatchReevaluate n) (evalDeps s n) ∧ Does (.depPoll n) (evalDeps s n) ∧
      (∀ r i v u, x.record = some r → r.bad = false → x.verdict = none → r.used.filter (fun i => !(s.queue x.qid).met.contains i) = [i] →
        luTry (luRead (s.queue x.qid).owner (r.deps.getD i (0, 0)).1 8) (s.setSlot n { x with reading := false }) = (.ok v, u) → u.lu = (s.setSlot n { x with reading := false }).lu →
        (r.deps.getD i (0, 0)).2.toNat ≤ v → ((evalDeps s n).slotOf n).state = .active)) ∧
    (let cands := s.lu.slots.filter (fun p => (p.2.state == .active || p.2.state == .draining) && !p.2.accepting && eligibleAt s p.1 &&
       (s.queue p.2.qid).head != (s.queue p.2.qid).tail)
     let place := (List.range 1024).find? (fun n => (sfind s.kernels n).isNone)
     (firstBy (acceptedBefore s) cands = none ∨ place = none → Does .recordAccept s) ∧
     (∀ x r key, firstBy (acceptedBefore s) cands = some (n, x) → place = some key → x.record = some r →
      (∀ t, s.lu.lastAccept = some t → s.now < t + 20 → Does .recordAccept s) ∧
      ((∀ t, s.lu.lastAccept = some t → t + 20 ≤ s.now) →
        let q := x.qid
        let y := s.queue q
        Runs .recordAccept s (fun t => ∃ u, (∀ z, z ≠ q → u.queue z = s.queue z) ∧
          u.queue q = { y with head := y.head + 1, met := [], headDue := some (y.head + 1), bells := (u.queue q).bells } ∧
          u.lu.lastAccept = some s.now ∧ u.lu.accepted = s.lu.accepted + 1 ∧ u.slotOf n = { x with accepting := true } ∧ (∀ m, m ≠ n → u.slotOf m = s.slotOf m) ∧
          u.mem = s.mem ∧ u.strands = s.strands ∧ (∀ z, z ≠ key → sfind u.kernels z = sfind s.kernels z) ∧
          (∃ k, sfind u.kernels key = some k ∧ k.qid = q ∧ k.recNo = y.head ∧ k.asid = y.owner ∧ k.record = r ∧ k.seq = s.lu.accepted ∧ k.tstart = s.timeNs ∧
            (r.bad = true → k.state = .ending ∧ k.status = .recordInvalid) ∧ (r.bad = false → ∀ v, x.verdict = some v → k.state = .ending ∧ k.status = v) ∧
            (r.bad = false → x.verdict = none → k.state = .waiting ∧ k.status = .success)) ∧
          (∀ v, descWrite u q 0x10 4 (y.head + 1).toNat = (.ok (), v) → t = finishAccept (v.updQueue q (fun z => { z with headDue := none })) q) ∧
          (∀ v, descWrite u q 0x10 4 (y.head + 1).toNat = (.later, v) → t = v) ∧
          (∀ c v, descWrite u q 0x10 4 (y.head + 1).toNat = (.bad c, v) → (v.queue q).state ≠ .error →
            t = refill u (queueError (skipWrite (v.updQueue q (fun z => { z with headDue := none })) q) q c.code) q))))) ∧
    (∀ q, (s.queue q).slot = some n →
      let y := s.queue q
      (x.state = .draining → x.disable = true → finishAccept s q = refill s ((leaveSlot s q).updQueue q (fun z => { z with state := .disabled, met := [] })) q) ∧
      (x.state = .draining → x.disable = false → y.head ≠ y.tail → finishAccept s q = refill s (queueWaits (leaveSlot s q) q) q) ∧
      (x.state ≠ .draining ∨ x.disable = false → y.head = y.tail → finishAccept s q = refill s ((leaveSlot s q).updQueue q (fun z => { z with state := .idle })) q) ∧
      (x.state ≠ .draining → y.head ≠ y.tail → finishAccept s q = refill s (readHeadRecord (s.setSlot n { x with accepting := false, record := none }) n) q)) ∧
    (sfind s.kernels key = none → Does (.imageCheck key) s ∧ Does (.kernelCompletion key) s) ∧
    (∀ k, sfind s.kernels key = some k →
      (k.checked = true ∨ k.state ≠ .waiting → Does (.imageCheck key) s) ∧
      (k.checked = false → k.state = .waiting →
        (∀ c l u, luTry (checkImage s k) s = (.ok (some (c, l)), u) → Does (.imageCheck key) (handOver u key k c l) ∧
          (2 ^ 32 < extentOf l 0 * extentOf l 1 → sfind (handOver u key k c l).kernels key = some { k with checked := true, state := .ending, status := .launchExtent }) ∧
          (extentOf l 0 * extentOf l 1 = 0 → sfind (handOver u key k c l).kernels key = some { k with checked := true, state := .ending, status := .success })) ∧
        (∀ u, luTry (checkImage s k) s = (.later, u) → Does (.imageCheck key) u) ∧
        (∀ u, luTry (checkImage s k) s = (.ok none, u) →
          Does (.imageCheck key) { u with kernels := sput u.kernels key { k with checked := true, state := .ending, status := .imageInvalid } }) ∧
        (∀ c u, luTry (checkImage s k) s = (.bad c, u) → Does (.imageCheck key)
          { u with kernels := sput u.kernels key { k with checked := true, state := .ending, status := .imageInvalid }, out := u.out ++ [Outbound.hostEvent k.evvec] })) ∧
      (k.state ≠ .ending ∨ (∃ g ∈ s.groups, g.2.kernel = key) ∨ globalWritesWait s = true → Does (.kernelCompletion key) s) ∧
      (k.state = .ending → (∀ g ∈ s.groups, g.2.kernel ≠ key) → globalWritesWait s = false →
        let s0 := drainAll s
        let time := k.tend.getD s.timeNs
        (∀ u, completionWrites k time s0 = .error .wait u → Does (.kernelCompletion key) (keepRequests s u)) ∧
        (∀ r w v, completionWrites k time s0 = .ok (r, w) v → Runs (.kernelCompletion key) s (fun t =>
          sfind t.kernels key = none ∧ (∀ p ∈ t.tasks, p.2.kernel ≠ key) ∧ t.mem = v.mem ∧ ((∀ p ∈ v.tasks, p.2.kernel ≠ key) → t.strands = v.strands) ∧ (∀ p ∈ t.strands, ∀ j, p.2.task = some j → ∀ y, sfind v.tasks j = some y → y.kernel ≠ key) ∧
          (t.lu.cwfault = true ↔ v.lu.cwfault = true ∨ r = false ∨ w = false) ∧
          t.out = (if r = false ∨ w = false ∨ k.record.event = true then v.out ++ [Outbound.hostEvent k.evvec] else v.out))) ∧
        (∀ a b u v, writeRecord k time s0 = .ok a u → addCompletion k u = .ok b v → completionWrites k time s0 = .ok (true, true) v) ∧
        (∀ f b u v, writeRecord k time s0 = .error (.trap f) u → addCompletion k (keepRequests s0 u) = .ok b v → completionWrites k time s0 = .ok (false, true) v)))

/-- R80 to R82, R90, R92 to R97, R38, R501, R502: a placement event places groups on a die of DIEMAP while one fits, each on the first core from the place of the search that meets its needs and is neither fenced nor held back; a strand then stands as the table of R97 says. A group that has waited 1 ms stops backfill. A grant register takes its value, a page move ends, and a
strand that ends its part retires once its transfers have. An event whose turn it is not changes nothing. When the 1 ms of R90 begin and what bounds a lending (assumption 52), the blocks handed out and the acquire of a placement (assumption 35), and which routes a grant touches (assumption 50), are the model's choices. -/
def Obligations.PlacementEvents : Prop :=
  ∀ (s : State) (d k : Nat),
    let Does (i : Instr) (t : State) : Prop := Runs i s (fun u => u = t)
    let order := waitingKernels s d
    let stopped := order.filter (fun p => (s.sched d).stops.contains p.1)
    (¬(s.dev.diemap.getLsbD d = true ∧ d < 4) ∨ tableWaits s d = true → Does (.placementEvent d) s) ∧
    (s.dev.diemap.getLsbD d = true → d < 4 → tableWaits s d = false →
      (order = [] → Does (.placementEvent d) s) ∧
      (∀ key kn rest, (if stopped = [] then order else stopped.take 1) = (key, kn) :: rest →
        let g := nextGroup kn d
        (∀ core p, searchCore s d kn g.2 = some (core, p) →
          Does (.placementEvent d) (placeAll d 96 { placeGroup s key kn g.1 g.2 core p with
            scheds := sput (placeGroup s key kn g.1 g.2 core p).scheds d { next := (core % 32 + 1) % 32, stops := nsErase ((placeGroup s key kn g.1 g.2 core p).sched d).stops key } })) ∧
        (searchCore s d kn g.2 = none → rest = [] → ∀ t, sfind kn.waitSince d = some t → Does (.placementEvent d) s))) ∧
    (∀ kn m core p, fits s kn m core = some p →
      p.keys.length = (if kn.res.trio then 3 else m) ∧ (∀ j ∈ p.keys, j / 3 = core ∧ (s.strand j).status = .empty) ∧
      p.share.length = m * kn.res.tiles ∧ p.pages.length = m * kn.res.pages ∧ p.spad.length = m * kn.res.spadKib / 4 ∧
      p.wins.map (·.2) = kn.res.windows (if kn.res.trio then 3 else m) ∧
      (s.coreRegs core).fenced = false ∧ (s.coreRegs core).testing = false ∧ (s.coreRegs core).noNew = none) ∧
    (∀ (old : Strand) (kn : Kernel) (pl : Place) (m : Nat) (win : Nat × Nat) (pt : Option (BitVec 36) × Option Cause) (free : BitVec 36),
      let p := entryStrand old kn pl (entryRegs kn pl.shard m pl.pos) win pt free
      p.pc = kn.entry ∧ p.level = .user ∧ p.status = .running ∧ p.vl = 0 ∧ p.vstart = 0 ∧ p.vslip = 2 ∧ p.cm = 0 ∧ p.e.asid = kn.asid ∧ p.srseed = BitVec.ofNat 64 pl.shard ∧
      readX p.x 10 = kn.record.args ∧ readX p.x 11 = BitVec.ofNat 64 pl.shard ∧ readX p.x 19 = BitVec.ofNat 64 pl.pos ∧ readX p.x 31 = 0 ∧
      readX p.x 9 = (if kn.res.trio then 1 else BitVec.ofNat 64 m) ∧ readX p.x 18 = (if kn.res.trio then 0 else BitVec.ofNat 64 (pl.pos * kn.res.spadKib * 1024)) ∧
      p.f = old.f ∧ p.e.vec = old.e.vec) ∧
    (let due := order.filter (fun p => (sfind p.2.waitSince d).any (fun t => decide (t + 1000000 ≤ s.now)))
     (due = [] → Does (.backfillStop d) s) ∧
     (due ≠ [] → Runs (.backfillStop d) s (fun t => { t with scheds := s.scheds } = s ∧ (∀ c, c ≠ d → t.sched c = s.sched c) ∧ (t.sched d).next = (s.sched d).next ∧
       ∀ key, key ∈ (t.sched d).stops ↔ key ∈ (s.sched d).stops ∨ ∃ p ∈ due, p.1 = key))) ∧
    (∀ core page second v, (128 ≤ core ∨ 8 ≤ page → Does (.spiracleGrantWrite core page second v) s) ∧
      (core < 128 → page < 8 → Runs (.spiracleGrantWrite core page second v) s (fun t =>
        (t.coreRegs core).spgra.getD page 0 = (if second then (s.coreRegs core).spgra.getD page 0 else v) ∧
        (t.coreRegs core).spgrb.getD page 0 = (if second then v else (s.coreRegs core).spgrb.getD page 0) ∧
        (∀ n, n ≠ core → t.coreRegs n = s.coreRegs n) ∧ { t with cores := s.cores, confs := s.confs } = s ∧
        ∀ key, sfind t.confs key = (sfind s.confs key).map (fun c => { c with stale := ((sfind t.confs key).map (·.stale)).getD c.stale })))) ∧
    (∀ core asid slot,
      let b := bindKey core (BitVec.ofNat 16 asid) (slot % 32)
      ((∃ c ∈ bindConfs s b, c.moving ≠ []) → Does (.pageMoveEnd core asid slot)
        { s with confs := s.confs.map (fun (q : Nat × Conf) => if q.1 % 2 ^ 28 = b then (q.1, { q.2 with moving := [] }) else q), effects := s.effects ++ [Turn.place (core / 32)] }) ∧
      ((∀ c ∈ bindConfs s b, c.moving = []) → Does (.pageMoveEnd core asid slot) s)) ∧
    (let p := s.strand k
     let runs := p.ending = true ∧ arrivalWaits s k = false ∧ (p.status = .running ∨ p.status = .stopping) ∧ (s.coreRegs (k / 3)).halted = false
     let trapped (u : State) (x : TrapInfo) : State := takeTrap (u.upd k (fun q => { q with ending := false })) k x
     (¬runs → Does (.strandEnd k) s) ∧
     (runs → ∀ id a, heldChannel p = some (id, a) → Does (.strandEnd k) (trapped { s with actor := .strand k } ⟨.copyFault, a, id.toNat⟩)) ∧
     (runs → heldChannel p = none →
       ((∃ c ∈ p.chan.toList, c.pending ≠ []) → Does (.strandEnd k) s) ∧
       ((∀ c ∈ p.chan.toList, c.pending = []) →
         (∀ z u, unmapAll k { s with actor := .strand k } = .ok z u → Runs (.strandEnd k) s (fun t => t = strandEnded (endEffects u k) k ∧ (t.strand k).status = .empty)) ∧
         (∀ u, unmapAll k { s with actor := .strand k } = .error .wait u → Does (.strandEnd k) u) ∧
         (∀ x u, unmapAll k { s with actor := .strand k } = .error (.trap x) u → Does (.strandEnd k) (trapped u x)))))

/-- R299, R300, R303, R304, R308, R316, R318: a read that misses gets the newest value that its home has recorded, or takes an entry of a held home; a registration names its core, with the value it wrote, or takes an entry likewise; an eviction hands what is dirty, and only that, to the level below or to the die's L2 (the choice is free, assumption 45); a sector fill lands only in invalid words, and none comes from a page that is not cached (assumption 58); a snoop is answered when its line is clean, or gathered and written back, and waits at a held home; a lost range is
recorded and its words leave every cache; a request outstanding for 4 ms ends with MEM_TIMEOUT; a vwait goes on when all its watches are met. An event whose turn it is not changes nothing. That caches are kept word by word (assumption 8), when a snoop is answered (assumption 39), who stands in a line (assumption 40), from when a home knows a write (assumption 43), what a die's L2 answers (assumption 44), what several dies show of a line (assumption 57), and vector 0 for a lost range (assumption 14), are the model's choices. -/
def Obligations.CacheEvents : Prop :=
  ∀ (s : State) (core w die sector line k : Nat), Memory.wf s.mem = true →
    let Does (i : Instr) (t : State) : Prop := Runs i s (fun u => u = t)
    let held := homeHeld s (regionOf w) = true
    let mine := s.waiters.filter (fun x => sameSlice x.word w)
    let full := 384 ≤ mine.countP (fun x => !x.reserved)
    let here := core < 128 ∧ reachable s (4 * w) = true
    (¬here → Does (.homeRead core w) s) ∧
    (here → ¬held →
      ((nearVal s core w).isSome = true ∨ wordPoisoned s w = true → Does (.homeRead core w) s) ∧
      (nearVal s core w = none → wordPoisoned s w = false → Runs (.homeRead core w) s (fun t =>
        sfind t.l1 (ckey core w) = some ⟨curVal s w, false, 0⟩ ∧ (∀ j, j ≠ ckey core w → sfind t.l1 j = sfind s.l1 j) ∧
        (∀ j, j ≠ ckey (dieOf core) w → sfind t.l2 j = sfind s.l2 j) ∧
        (homeDie w ≠ dieOf core → (∀ e, sfind s.l2 (ckey (dieOf core) w) = some e → e.dirty = false) →
          sfind t.l2 (ckey (dieOf core) w) = some ⟨curVal s w, false, 0⟩) ∧
        t.mem = s.mem ∧ t.reg = s.reg ∧ t.strands = s.strands))) ∧
    (here → held →
      (standsFor s .read core w = true → Does (.homeRead core w) s) ∧
      (standsFor s .read core w = false →
        (¬full → Does (.homeRead core w) { s with waiters := s.waiters ++ [⟨.read, core, w, s.cycle.toNat, false⟩] }) ∧
        (full → (∀ x ∈ mine, ¬(x.reserved = true ∧ x.core = core)) →
          Does (.homeRead core w) { s with waiters := s.waiters ++ [⟨.read, core, w, s.cycle.toNat, true⟩] }) ∧
        (full → (∃ x ∈ mine, x.reserved = true ∧ x.core = core) →
          Does (.homeRead core w) { s with refused := s.refused ++ [⟨.read, core, w, s.cycle.toNat, false⟩] }))) ∧
    (∀ x, s.refused.find? (fun x => x.core == core && x.word == w) = some x →
      (s.cycle.toNat < x.since + 64 → Does (.requestResend core w) s) ∧
      (x.since + 64 ≤ s.cycle.toNat →
        let u := { s with refused := s.refused.erase x }
        ((∃ a, x.kind = .agent a) ∨ (∃ a, x.kind = .unit a) → Does (.requestResend core w) u) ∧
        (x.kind = .read → Does (.requestResend core w) (if held then joinHome u .read core w else serveRead u core w)) ∧
        (x.kind = .registration → Does (.requestResend core w) (if held then joinHome u .registration core w else
          match pendingFor s core w with
          | some p => registerSpan u p
          | none => u)) ∧
        (∀ inv, x.kind = .snoop inv → Does (.requestResend core w) (if held then joinHome u (.snoop inv) core w
          else if lineHeld s (w / 16) = true then startSnoop u (w / 16) inv else answerSnoop u (w / 16) inv false)))) ∧
    ((∀ x ∈ s.refused, ¬(x.core = core ∧ x.word = w)) → Does (.requestResend core w) s) ∧
    ((pendingFor s core w = none → Does (.registration core w) s) ∧
     (∀ p, pendingFor s core w = some p →
       (held → Does (.registration core w) (if standsFor s .registration core p.word = true then s else joinHome s .registration core p.word)) ∧
       (¬held → Runs (.registration core w) s (fun t => t = registerSpan s p ∧ p ∉ t.pending ∧ t.mem = s.mem ∧
         ∀ i v, p.vals[i]? = some v → isLost s (p.word + i) = false → sfind t.reg (p.word + i) = some ⟨core, v⟩ ∧ p.word + i ∉ t.poison)))) ∧
    ((sfind s.l1 (ckey core w) = none → Does (.l1Eviction core w) s) ∧
     (∀ e, sfind s.l1 (ckey core w) = some e →
       (e.dirty = false → Does (.l1Eviction core w) { s with l1 := sdel s.l1 (ckey core w) }) ∧
       (e.dirty = true → held → Does (.l1Eviction core w) s) ∧
       (e.dirty = true → ¬held → Runs (.l1Eviction core w) s (fun t => sfind t.l1 (ckey core w) = none ∧ t.mem = s.mem ∧
         (isLost s w = true → heldBy t w core = false) ∧
         (isLost s w = false → curVal t w = e.val ∧
           (homeDie w = dieOf core ∨ Config.evictsToDie s.tick = false →
             sfind t.l2 (ckey (homeDie w) w) = some ⟨e.val, true, s.tick⟩ ∧ sfind t.reg w = none) ∧
           (homeDie w ≠ dieOf core → Config.evictsToDie s.tick = true →
             sfind t.l2 (ckey (dieOf core) w) = some ⟨e.val, true, s.tick⟩ ∧ sfind t.reg w = some ⟨128 + dieOf core, e.val⟩)))))) ∧
    (homeHeld s (sector / 4) = true → Does (.l2Eviction die sector) s) ∧
    (homeHeld s (sector / 4) = false → Runs (.l2Eviction die sector) s (fun t =>
      (∀ v, v / 16 = sector → sfind t.l2 (ckey die v) = none) ∧ Memory.wf t.mem = true ∧
      (∀ a, Mem.read t.mem a = match (if a / 64 = sector then sfind s.l2 (ckey die (a / 4)) else none) with
        | some e => if e.dirty = true ∧ homeDie (a / 4) = die ∧ isLost s (a / 4) = false then byteOf e.val.toNat (a % 4) else Mem.read s.mem a
        | none => Mem.read s.mem a) ∧
      (∀ v e, v / 16 = sector → sfind s.l2 (ckey die v) = some e → e.dirty = true → homeDie v ≠ die → heldBy s v (128 + die) = true →
        isLost s v = false → sfind t.l2 (ckey (homeDie v) v) = some ⟨e.val, true, s.tick⟩ ∧ sfind t.reg v = none) ∧
      (isExternal (16 * sector) = true → lineInUse t die sector = false → sfind t.lines (lineKey die sector) = none) ∧
      t.strands = s.strands ∧ t.l1 = s.l1 ∧ ∀ v, v / 16 ≠ sector → sfind t.reg v = sfind s.reg v)) ∧
    (reachable s (64 * sector) = false ∨ homeDie (16 * sector) ≠ die → Does (.sectorFill die sector) s) ∧
    (reachable s (64 * sector) = true → homeDie (16 * sector) = die → Runs (.sectorFill die sector) s (fun t =>
      (∀ v, v / 16 = sector → sfind t.l2 (ckey die v) = match sfind s.l2 (ckey die v) with
        | some e => some e
        | none => if wordPoisoned s v then none else some ⟨BitVec.ofNat 32 (Mem.readN s.mem (4 * v) 4), false, s.tick⟩) ∧
      t.mem = s.mem ∧ t.l1 = s.l1 ∧ t.reg = s.reg)) ∧
    (∀ c, (c < 8 → ∀ q, sfind s.cocoons (8 * k + c) = some q → ∀ x, sfind q.tr sector = some x → x.stale = true ∨ x.cls = .i ∨ homeHeld s (x.pa / 256) = true) →
      Does (.cocoonFill k c sector) s) ∧
    (∀ c q x, c < 8 → sfind s.cocoons (8 * k + c) = some q → sfind q.tr sector = some x → x.stale = false → x.cls ≠ .i → homeHeld s (x.pa / 256) = false →
      Does (.cocoonFill k c sector) (cocoonFillSector s (8 * k + c) sector)) ∧
    (∀ inv : Bool,
      let ask : Instr := if inv then .snoopInvalidate line else .snoopData line
      (isExternal (16 * line) = false → Does ask s) ∧
      (isExternal (16 * line) = true →
        (sfind s.busy (line / 4) = some ⟨line, inv⟩ → Runs ask s (fun t =>
          t.out = s.out ++ [Outbound.snoopAnswer line true] ∧ sfind t.busy (line / 4) = none ∧
          (∀ v, lineOf v = line → sfind t.reg v = none ∧
            (sfind s.reg v ≠ none ∨ (∃ e, sfind s.l2 (ckey (homeDie v) v) = some e ∧ e.dirty = true) → isLost s v = false →
              Mem.readN t.mem (4 * v) 4 = (curVal s v).toNat)) ∧
          (line < 2 ^ 46 → if inv then lineHeld t line = false else lineDirty t line = false))) ∧
        (sfind s.busy (line / 4) ≠ some ⟨line, inv⟩ →
          (lineHeld s line = false → Does ask { s with out := s.out ++ [Outbound.snoopAnswer line false] }) ∧
          (lineHeld s line = true → homeHeld s (line / 4) = true →
            Does ask (if standsFor s (.snoop inv) 128 (16 * line) = true then s else joinHome s (.snoop inv) 128 (16 * line))) ∧
          (lineHeld s line = true → homeHeld s (line / 4) = false → lineDirty s line = true →
            Does ask { s with busy := sput s.busy (line / 4) ⟨line, inv⟩ }) ∧
          (lineHeld s line = true → homeHeld s (line / 4) = false → lineDirty s line = false → Runs ask s (fun t =>
            t.out = s.out ++ [Outbound.snoopAnswer line false] ∧ t.mem = s.mem ∧ t.reg = s.reg ∧
            (line < 2 ^ 46 → if inv then lineHeld t line = false else lineDirty t line = false)))))) ∧
    (∀ data, isExternal w = true ∨ s.feat 0 = false ∨ reachable s (4 * w) = false → Does (.hostHdmRequest w data) s) ∧
    (isExternal w = false → s.feat 0 = true → reachable s (4 * w) = true →
      Does (.hostHdmRequest w none)
        { s with hostLines := nsInsert s.hostLines (lineOf w), out := s.out ++ [Outbound.hdmData w (curVal s w) (wordPoisoned s w)] } ∧
      ∀ v, Runs (.hostHdmRequest w (some v)) s (fun t =>
        t = homeWrite { s with hostLines := nsErase s.hostLines (lineOf w) } w v ∧ curVal t w = v ∧ w ∉ t.poison ∧ t.out = s.out)) ∧
    (∀ port base limit : Word,
      (limit.toNat < base.toNat ∨ 4 ≤ port.toNat → Does (.poolShelfFailure port base limit) s) ∧
      (base.toNat ≤ limit.toNat → port.toNat < 4 → Runs (.poolShelfFailure port base limit) s (fun t =>
        (∀ v, isLost t v = true → sfind t.reg v = none) ∧ (∀ p ∈ t.l1, isLost t (p.1 % 2 ^ 50) = false) ∧ (∀ p ∈ t.l2, isLost t (p.1 % 2 ^ 50) = false) ∧
        t.out = s.out ++ [Outbound.hostEvent 0] ∧ t.mem = s.mem ∧ t.strands = s.strands ∧
        ((∃ n, n < 16 ∧ ((s.dev.lost.getD n {}).valid = false ∨ (s.dev.lost.getD n {}).port = port.extractLsb' 0 8)) →
          ∃ n, n < 16 ∧ (t.dev.lost.getD n {}).valid = true ∧ (t.dev.lost.getD n {}).port = port.extractLsb' 0 8 ∧
            (t.dev.lost.getD n {}).base.toNat ≤ base.toNat ∧ limit.toNat ≤ (t.dev.lost.getD n {}).limit.toNat)))) ∧
    (∀ e, Runs (.lostRangeWithdraw e) s (fun t => (t.dev.lost.getD e {}).valid = false ∧ (∀ n, n ≠ e → t.dev.lost.getD n {} = s.dev.lost.getD n {}) ∧
      { t with dev := { t.dev with lost := s.dev.lost } } = s)) ∧
    (k < 384 → Runs (.memTimeout k) s (fun t => t.strand k = { s.strand k with wait := (s.strand k).wait.timeout s.now } ∧ (∀ j, j ≠ k → t.strand j = s.strand j) ∧
      (∀ c, t.cell c = if c / 64 = k then { s.cell c with wait := (s.cell c).wait.timeout s.now } else s.cell c) ∧ { t with strands := s.strands, cells := s.cells } = s)) ∧
    (384 ≤ k → Runs (.memTimeout k) s (fun t => { t with atsWaits := s.atsWaits } = s ∧
      t.atsWaits = s.atsWaits.map (fun x => if x.since + 4000000 ≤ s.now ∧ x.verdict = none then { x with verdict := some .memTimeout } else x))) ∧
    (∀ (x : Wait) (since : Nat), x.since = some since →
      x.timeout s.now = if since + 4000000 ≤ s.now then { x with verdict := some .memTimeout, blocked := false } else x) ∧
    (let p := s.strand k
     (p.watch ≠ [] → (∀ x ∈ p.watch, watchMet s (ewBits p.vtype / 8) x = true) →
       Runs (.vwaitWatchMet k) s (StrandBecomes s k { p with wait := { p.wait with blocked := false } })) ∧
     (p.watch = [] ∨ (∃ x ∈ p.watch, watchMet s (ewBits p.vtype / 8) x = false) → Does (.vwaitWatchMet k) s)) ∧
    (∀ tile,
      (sfind s.tiles (4 * core + tile % 4) = none → Does (.tileZeroComplete core tile) s) ∧
      (∀ x, sfind s.tiles (4 * core + tile % 4) = some x →
        Does (.tileZeroComplete core tile) { s with tiles := sput s.tiles (4 * core + tile % 4) { x with busy := false } }))

/-- R482, R483, R492 to R497: PREEMPT makes a RUNNING strand with a proper save area STOPPING; at user level, not ending and on a core that is not halted, a user-level interrupt that is due is delivered, and then it is saved and SAVED, with a chain record of the instruction that has issued and is not finished; RESTORE makes a SAVED strand RUNNING at user level once its area is read. A heartbeat that passes without progress pre-empts every strand of a persistent kernel and suspends it, a run time beyond its limit ends the kernel, a strand too long at executive level takes WATCHDOG, and KCMD acts on the kernel it names. A STOPPING strand of an ended kernel stops unsaved. A command or an event for another state changes nothing. Where between instructions a strand stops (assumption 7), what its area holds of contents without a stated layout (assumption 53), what is kept beside it (assumption 36), what an ended kernel's groups do (assumption 35), and that a PC is taken with its low bits zero (assumption 54), are the model's readings. -/
def Obligations.StopEvents : Prop :=
  ∀ (s : State) (k key : Nat) (self : Option Nat),
    let p := s.strand k
    let Does (i : Instr) (t : State) : Prop := Runs i s (fun u => u = t)
    (p.status = .running → saveAreaOk s k = true → Runs (.scmdPreempt k) s (StrandBecomes s k { p with status := .stopping })) ∧
    (p.status ≠ .running ∨ saveAreaOk s k = false → Does (.scmdPreempt k) s) ∧
    (let ended := ∃ g n, s.groupOf k = some g ∧ sfind s.kernels g.kernel = some n ∧ n.state = .ending
     let stops := p.status = .stopping ∧ p.level = .user ∧ p.ending = false ∧ (s.coreRegs (k / 3)).halted = false ∧ (∀ v, fxEnv s k = some v → v.inv.stop = none)
     let now := (s.coreRegs (k / 3)).fenced = true ∨ (p.level = .user ∧ (s.coreRegs (k / 3)).halted = false)
     (¬ended → ¬stops → Does (.preemptSaveComplete k) s) ∧ (ended → p.status ≠ .stopping ∨ ¬now → Does (.preemptSaveComplete k) s) ∧
     (∀ g n, s.groupOf k = some g → sfind s.kernels g.kernel = some n → n.state = .ending → p.status = .stopping → now →
       Does (.preemptSaveComplete k) (stopKernel s g.kernel)) ∧
     (¬ended → stops → ∀ z u, saveArea k (stopStrand (deliverUi s k) k) = .ok z u → Runs (.preemptSaveComplete k) s (StrandBecomes u k { u.strand k with status := .saved })) ∧
     (fxEnv s k = none → let q := (stopStrand s k).strand k
       q.links = [] ∧ q.watch = [] ∧ q.wait = {} ∧ q.x = p.x ∧ q.m = p.m ∧
       (∀ c i, p.chain = some c → p.chainEntry = some i → q.e.epc = c.pc ∧ q.e.chainPc = p.e.chainPc ∧ q.vl = c.vl ∧ q.vtype = c.vtype) ∧
       (p.chain = none → q.vl = p.vl ∧ q.vtype = p.vtype ∧
         (p.wait.issued = false → q.e.epc = (if p.wait.past = true then p.pc + 4 else p.pc) ∧ q.e.chainPc = Vector.replicate 4 0) ∧
         (p.wait.issued = true → q.e.epc = p.pc + 4 ∧ q.e.chainPc.toList = [p.pc ||| 1, 0, 0, 0] ∧
           q.e.chainSt.getD 0 0 = BitVec.ofNat 64 (p.vstart.toNat + 2 ^ 16 * p.vl.toNat + 2 ^ 32 * p.vtype.toNat))))) ∧
    (p.status ≠ .saved → p.status ≠ .restoring → Does (.scmdRestore k) s) ∧
    (p.status = .saved ∨ p.status = .restoring → ∀ z u, loadArea k s = .error z u →
      Runs (.scmdRestore k) s (StrandBecomes (keepRequests s u) k { p with status := .restoring })) ∧
    (p.status = .saved ∨ p.status = .restoring → ∀ z u, loadArea k s = .ok z u → (u.strand k).squashed = false → (u.strand k).task = none →
      Runs (.scmdRestore k) s (StrandBecomes u k ({ u.strand k with status := .running, level := .user, pc := (u.strand k).e.epc &&& ~~~3, wait := {} } : Strand).replayChain)) ∧
    (sfind s.kernels key = none → Does (.heartbeatExpire key) s ∧ Does (.runtimeExpire key) s) ∧
    (∀ n, sfind s.kernels key = some n →
      let counts := n.checked = true ∧ (n.state = .running ∨ n.state = .waiting)
      let limit := if n.res.maxRunMs = 0 then 10000 else n.res.maxRunMs
      (¬(n.res.persist = true ∧ counts ∧ 1000 * n.res.hbeatUs ≤ n.idleNs) → Does (.heartbeatExpire key) s) ∧
      (n.res.persist = true → counts → 1000 * n.res.hbeatUs ≤ n.idleNs →
        ((∃ j ∈ kernelStrands s key, saveAreaOk s j = false) →
          Runs (.heartbeatExpire key) s (fun t => t = hostEvent (endKernel s key .hungEnded) n.evvec)) ∧
        ((∀ j ∈ kernelStrands s key, saveAreaOk s j = true) → Runs (.heartbeatExpire key) s (fun t =>
          sfind t.kernels key = some { n with state := .suspendedHung, hungAt := s.now } ∧ t.out = s.out ++ [Outbound.hostEvent n.evvec] ∧
          t.strands = ((kernelStrands s key).foldl preempt s).strands ∧ (∀ j, j ∉ kernelStrands s key → t.strand j = s.strand j) ∧
          t.mem = s.mem ∧ t.groups = s.groups))) ∧
      (¬(n.res.persist = false ∧ counts ∧ 1000000 * limit < n.runNs) → Does (.runtimeExpire key) s) ∧
      (n.res.persist = false → counts → 1000000 * limit < n.runNs → Does (.runtimeExpire key) (endKernel s key .runtime))) ∧
    (∀ n st, sfind s.kernels key = some n → n.state ≠ .ending → (∀ g ∈ s.groups, g.2.kernel ≠ key) →
      ∃ c, sfind (endKernel s key st).kernels key = some c ∧ c.state = .ending ∧ c.status = st ∧ c.retired = n.retired ∧ c.toPlace = [] ∧
        (∀ x ∈ (endKernel s key st).tasks, x.2.kernel ≠ key) ∧ (endKernel s key st).mem = s.mem ∧ ((∀ x ∈ s.tasks, x.2.kernel ≠ key) → (endKernel s key st).strands = s.strands)) ∧
    (let late := p.level = .executive ∧ p.f.fewd ≠ 0 ∧ p.execSince + 1000 * p.f.fewd.toNat < s.now
     (¬late → Does (.executiveWatchdog k) s) ∧
     (late → p.works = true → (s.coreRegs (k / 3)).halted = false → Runs (.executiveWatchdog k) s (fun t =>
       (t.strand k).level = .firmware ∧ (t.strand k).f.pc = p.pc ∧ (t.strand k).f.cause = Cause.code .watchdog ∧ (t.strand k).f.ppriv = p.level.code ∧
       (t.strand k).pc = p.f.vec ++ (0 : BitVec 2) ∧ (t.strand k).x = p.x ∧ (∀ j, j ≠ k → t.strand j = s.strand j) ∧ { t with strands := s.strands } = s))) ∧
    (commandTarget s self = none → Does (.kcmdResume self) s ∧ Does (.kcmdEnd self) s ∧ Does (.kcmdCancel self) s ∧ Does (.kcmdFault self) s) ∧
    (∀ n, commandTarget s self = some (key, n) →
      (n.state ≠ .suspendedHung → Does (.kcmdResume self) s ∧ Does (.kcmdEnd self) s) ∧
      (n.state = .suspendedHung → Does (.kcmdEnd self) (endKernel s key .hungEnded)) ∧
      (n.state = .suspendedHung → kernelStrands s key = [] → Runs (.kcmdResume self) s (fun t =>
        sfind t.kernels key = some { n with state := if ∃ g ∈ s.groups, g.2.kernel = key then .running else .waiting, idleNs := 0 } ∧
        (∀ j, j ≠ key → sfind t.kernels j = sfind s.kernels j) ∧ t.strands = s.strands ∧ t.effects = s.effects ++ n.toPlace.map (fun q => .place q.1))) ∧
      (n.state = .suspendedHung → ∀ j, kernelStrands s key = [j] → (s.strand j).status = .saved → Runs (.kcmdResume self) s (fun t =>
        ∃ u, sfind u.kernels key = some { n with state := if ∃ g ∈ s.groups, g.2.kernel = key then .running else .waiting, idleNs := 0 } ∧ { u with kernels := s.kernels } = s ∧
          t = n.toPlace.foldl (fun v q => v.setOff (.place q.1)) (restore u j))) ∧
      Does (.kcmdCancel self) ((endKernel s key .cancelled).setStatus key .cancelled) ∧ Does (.kcmdFault self) ((endKernel s key .faulted).setStatus key .faulted) ∧
      (sfind s.kernels key = some n → n.state = .ending → Runs (.kcmdCancel self) s (fun t => sfind t.kernels key = some { n with status := .cancelled } ∧ { t with kernels := s.kernels } = s)))

/-- R498 to R500: HALT stops a core where debug is enabled; it has SETTLED once no transfer of any strand moves into its local memories, and TIMEOUT when 100 microseconds pass before that; RESUME clears all three and its strands go on. DBGDLO reads and writes the item that DBGSEL and DBGIDX select, with DBGDHI as its upper half; a refused access reads all ones, writes nothing and sets BADACC. That one strand's DBGEN suffices is the model's reading (assumption 20), as are the two low bits of a PC written (assumption 54) and what a written PC leaves (assumption 39). -/
def Obligations.DebugEvents : Prop :=
  ∀ (s : State) (n : Nat) (v : BitVec 32),
    let c := s.coreRegs n
    let Does (i : Instr) (t : State) : Prop := Runs i s (fun u => u = t)
    let Core (d : CoreRegs) (t : State) : Prop := t.coreRegs n = d ∧ (∀ m, m ≠ n → t.coreRegs m = s.coreRegs m) ∧ { t with cores := s.cores } = s
    let moves := landing s n = true
    (dbgEnabled s n = false ∨ c.halted = true → Does (.dbgctlHalt n) s) ∧
    (dbgEnabled s n = true → c.halted = false →
      (¬moves → Runs (.dbgctlHalt n) s (Core { c with halted := true, settled := true, timeout := false, haltAt := s.now })) ∧
      (moves → Runs (.dbgctlHalt n) s (Core { c with halted := true, settled := false, timeout := false, haltAt := s.now }))) ∧
    (c.halted = false → Does (.dbgctlResume n) s) ∧
    (c.halted = true → Runs (.dbgctlResume n) s (fun t =>
      t.coreRegs n = { c with halted := false, settled := false, timeout := false } ∧ { t with cores := s.cores, strands := s.strands } = s ∧
      (∀ k, t.strand k = if k / 3 = n ∧ (s.strand k).status = .running ∧ (s.strand k).level = .user ∧ (s.strand k).chain = none
        then (s.strand k).replayChain else s.strand k) ∧
      ∀ p : Strand, p.chainEntry = none → p.replayChain = p)) ∧
    (c.halted = true → c.settled = false → c.haltAt + 100000 ≤ s.now → Runs (.debugSettleTimeout n) s (Core { c with timeout := true })) ∧
    (¬(c.halted = true ∧ c.settled = false ∧ c.haltAt + 100000 ≤ s.now) → Does (.debugSettleTimeout n) s) ∧
    Runs (.dbgdhiWrite n v) s (Core { c with dhi := v }) ∧
    (∀ x, dbgItem s n = some x → Runs (.dbgdloRead n) s (fun t =>
      t.coreRegs n = { c with dlo := x.extractLsb' 0 32, dhi := x.extractLsb' 32 32, badacc := false } ∧ (∀ m, m ≠ n → t.coreRegs m = s.coreRegs m) ∧
      t.out = s.out ++ [Outbound.hostRead (x.extractLsb' 0 32)] ∧ { t with cores := s.cores, out := s.out } = s)) ∧
    (dbgItem s n = none →
      Runs (.dbgdloRead n) s (fun t => t.coreRegs n = { c with badacc := true, dhi := 0xFFFFFFFF } ∧ (∀ m, m ≠ n → t.coreRegs m = s.coreRegs m) ∧
        t.out = s.out ++ [Outbound.hostRead 0xFFFFFFFF] ∧ { t with cores := s.cores, out := s.out } = s) ∧
      Runs (.dbgdloWrite n v) s (Core { c with badacc := true })) ∧
    (∀ x, dbgItem s n = some x → c.selSpace = 0 →
      let k := 3 * n + c.selStrand.toNat
      Runs (.dbgdloWrite n v) s (fun t => t.strand k = { s.strand k with x := writeX (s.strand k).x (BitVec.ofNat 5 c.idx.toNat) (c.dhi ++ v) } ∧
        (∀ j, j ≠ k → t.strand j = s.strand j) ∧ t.coreRegs n = { c with badacc := false } ∧ { t with strands := s.strands, cores := s.cores } = s)) ∧
    (∀ x, dbgItem s n = some x → Runs (.dbgdloWrite n v) s (fun t => t.full = s.full ∧ t.poison = s.poison ∧ t.coreRegs n = { c with badacc := false })) ∧
    (c.halted = false ∨ dbgEnabled s n = false ∨ c.selStrand = 3 ∨ 9 ≤ c.selSpace.toNat → dbgItem s n = none) ∧
    (c.halted = true → dbgEnabled s n = true → c.selStrand ≠ 3 →
      let p := s.strand (3 * n + c.selStrand.toNat)
      (c.selSpace = 0 → c.idx.toNat < 32 → dbgItem s n = some (readX p.x (BitVec.ofNat 5 c.idx.toNat))) ∧
      (c.selSpace = 0 → 32 ≤ c.idx.toNat → dbgItem s n = none) ∧
      (c.selSpace = 1 → c.idx.toNat < 4096 → dbgItem s n = sprRead s (3 * n + c.selStrand.toNat) (BitVec.ofNat 12 c.idx.toNat)) ∧
      (c.selSpace = 2 → c.idx = 0 → dbgItem s n = some p.pc))

/-- R5, R6, R505 to R507, R509 to R512, R29: a host's write reaches the register at its offset, where one lies, under the access of its fields; a READY write with an inconsistent set of features is refused; reset and each boot stage leave what their rows say; a translation, a page response and an invalidation change the TLBs and the waits; a link port accepts a good flit in order and answers any other with NAK, and leaves and
returns to service; SPDM requests are answered; a word that is no instruction takes ILLEGAL_INSTRUCTION. The CRC's polynomial and the answers' packing are the model's (assumptions 14 and 15), as are which registers answer after a failed boot and where the fuses come from (assumption 66), and what a reset keeps (assumption 38). -/
def Obligations.HostEvents : Prop :=
  ∀ (s : State) (off port k page : Nat) (v : Word) (flit : BitVec 2048),
    let Does (i : Instr) (t : State) : Prop := Runs i s (fun u => u = t)
    let d := s.dev
    let Says (i : Instr) (o : Outbound) : Prop := Does i { s with out := s.out ++ [o] }
    let answered := d.inReset = false ∧ (d.booterr = 0 ∨ off < 0x20 ∨ off = 0x240)
    (¬(isReg off = true ∧ answered) → Does (.registerWrite off v) s) ∧ (isReg off = true → answered → Does (.registerWrite off v) (regWrite s none off v)) ∧
    (off < 0x20 → regWrite s none off v = s) ∧
    ((regRead (regWrite s none 0x144 v) 0x144).1 = v ∧ (regRead (regWrite s none 0x140 v) 0x140).1 = (v &&& 0xFFFFF000) ∧
     (regRead (regWrite s none 0x11C v) 0x11C).1 = v ∧ (regRead (regWrite s none 0x118 v) 0x118).1 = (v &&& 0xFFFF) ∧
     (regRead (regWrite s none 0x10C v) 0x10C).1 = BitVec.ofNat 32 (min 10000 (max 10 (v.toNat % 2 ^ 14))) ∧
     (s.lu.anyEnabled = false → (regRead (regWrite s none 0x104 v) 0x104).1 = v ∧ (regRead (regWrite s none 0x108 v) 0x108).1 = BitVec.ofNat 32 (min (v.toNat % 2 ^ 17) 65536)) ∧
     (s.lu.anyEnabled = true → regWrite s none 0x100 v = s ∧ regWrite s none 0x104 v = s ∧ regWrite s none 0x108 v = s) ∧
     (d.ready = true → ∀ i, i < 8 → regWrite s none (0x220 + 4 * i) v = s)) ∧
    (d.ready = true → Does .devctlReady s) ∧
    (d.ready = false →
      let bad := (s.feat 8 = true ∧ ¬(s.feat 4 = true ∧ s.feat 5 = true)) ∨ (s.feat 2 = true ∧ s.feat 0 = false)
      (bad → Does .devctlReady { s with dev := { d with badset := true } }) ∧ (¬bad → Does .devctlReady { s with dev := { d with ready := true, badset := false } })) ∧
    Runs .resetDeassertion s (fun t => t.dev.stage = 1 ∧ t.dev.booted = false ∧ t.dev.ready = false ∧ t.strands = State.reset.strands ∧ t.groups = [] ∧ t.kernels = [] ∧ t.tlb = [] ∧ (∀ n, t.portUp n = false) ∧
      (∀ a, a < 2 ^ 38 ∨ 2 ^ 56 ≤ a → Mem.read t.mem a = Mem.read [] a) ∧ (∀ a, 2 ^ 38 ≤ a → a < 2 ^ 56 → Mem.read t.mem a = Mem.read s.mem a)) ∧
    (d.stage = 0 ∨ d.booted = true ∨ d.booterr ≠ 0 → ∀ ok, Does (.bootStageComplete ok) s) ∧
    (d.stage ≠ 0 → d.booted = false → d.booterr = 0 →
      (∀ n code, (n, code) ∈ [(1, (1 : BitVec 4)), (3, 4), (4, 3)] → d.stage = n → Does (.bootStageComplete false) { s with dev := { d with booterr := code } }) ∧
      (d.stage = 2 → ∀ ok, Does (.bootStageComplete ok) (if (List.range 64).countP (fun i => Config.rollbackFuses.getLsbD i) ≤ Config.securityVersion
        then { s with dev := { d with stage := 3 } } else { s with dev := { d with booterr := 2 } })) ∧
      (d.stage = 5 → Runs (.bootStageComplete true) s (fun t => t.dev = { d with booted := true, portsUp := t.dev.portsUp } ∧ { t with dev := d } = s ∧
        ∀ n, n < 16 → (t.portUp n = true ↔ s.feat 7 = true ∧ (s.linkPort n).lost = false))) ∧
      (d.stage ≠ 2 → d.stage ≠ 3 → d.stage ≠ 5 → Does (.bootStageComplete true) { s with dev := { d with stage := d.stage + 1 } }) ∧
      (d.stage = 3 → Runs (.bootStageComplete true) s (fun t => t.dev = { d with stage := 4 } ∧
        (∀ w, (w ∈ t.full ↔ w ∈ s.full ∧ 2 ^ 36 ≤ w ∧ w < 2 ^ 54) ∧ (w ∈ t.poison ↔ w ∈ s.poison ∧ 2 ^ 36 ≤ w ∧ w < 2 ^ 54)) ∧ t.l1 = [] ∧ t.l2 = [] ∧ t.strands = s.strands ∧
        (∀ a, a < 2 ^ 38 ∨ 2 ^ 56 ≤ a → Mem.read t.mem a = Mem.read [] a) ∧ (∀ a, 2 ^ 38 ≤ a → a < 2 ^ 56 → Mem.read t.mem a = Mem.read s.mem a)))) ∧
    (let p := s.strand k
     let pasid := pasidOf s p.e.asid
     let asks (w : Wait) : Prop := w.asked = true ∧ w.home = none ∧ ∃ a, w.out = some a ∧ winOff a / 4096 = page
     let stands (w : Wait) : Prop := w.asked = true ∧ w.home = none ∧ w.out ≠ none ∧ w.since ≠ none
     let mine (c : Nat) : Prop := c / 64 = k ∧ sfind s.cells c ≠ none
     let Waits (want : Wait → Prop) (f : Wait → Wait) (t : State) : Prop :=
       (want p.wait → t.strand k = { p with wait := f p.wait }) ∧ (¬want p.wait → t.strand k = p) ∧ (∀ j, j ≠ k → t.strand j = s.strand j) ∧
       (∀ c, (mine c → want (s.cell c).wait → t.cell c = { s.cell c with wait := f (s.cell c).wait }) ∧ (¬(mine c ∧ want (s.cell c).wait) → t.cell c = s.cell c)) ∧
       t.mem = s.mem ∧ t.kernels = s.kernels
     let someone (want : Wait → Prop) : Prop := want p.wait ∨ ∃ q ∈ s.cells, q.1 / 64 = k ∧ want q.2.wait
     (k < 384 → pasid = none ∨ ¬someone asks → ∀ entry, Does (.atsResponse k page entry) s) ∧
     (∀ n, k < 384 → pasid = some n → someone asks →
       Runs (.atsResponse k page none) s (fun t => t.out = s.out ++ [.priRequest n page] ∧ t.tlb = s.tlb ∧ Waits asks (fun w => { w with since := some s.now }) t) ∧
       ∀ e : BitVec 64, Runs (.atsResponse k page (some e)) s (fun t => t.tlb.head? = some (atsEntry (k / 3) p.e.asid page e.toNat) ∧ (∀ x ∈ t.tlb.tail, x ∈ s.tlb) ∧ t.out = s.out ∧
         Waits asks (fun w => { w with since := none, out := none, asked := false, blocked := false }) t)) ∧
     (k < 384 →
       (¬someone stands → ∀ b, Does (.priResponse k b) s) ∧
       (∀ n, someone (fun w => stands w ∧ w.since = some n) → (∀ w m, (w = p.wait ∨ ∃ q ∈ s.cells, q.1 / 64 = k ∧ w = q.2.wait) → stands w → w.since = some m → n ≤ m) →
         Runs (.priResponse k true) s (fun t => t.out = s.out ∧ t.tlb = s.tlb ∧ Waits (fun w => stands w ∧ w.since = some n) (fun w => { w with out := none, asked := false, blocked := false }) t) ∧
         Runs (.priResponse k false) s (fun t => t.out = s.out ∧ t.tlb = s.tlb ∧ Waits (fun w => stands w ∧ w.since = some n) (fun w => { w with verdict := some .pageNotPresent, blocked := false }) t))) ∧
     (384 ≤ k → s.atsWaits[k - 384]? = none → (∀ entry, Does (.atsResponse k page entry) s) ∧ ∀ b, Does (.priResponse k b) s) ∧
     (∀ w, 384 ≤ k → s.atsWaits[k - 384]? = some w → w.home = true → (∀ entry, Does (.atsResponse k page entry) s) ∧ ∀ b, Does (.priResponse k b) s) ∧
     (∀ w, 384 ≤ k → s.atsWaits[k - 384]? = some w → w.home = false →
       (∀ e : BitVec 64, pasidOf s w.asid ≠ none → Does (.atsResponse k page (some e)) { s with tlb := atsEntry 128 w.asid w.page e.toNat :: s.tlb, atsWaits := s.atsWaits.eraseIdx (k - 384) }) ∧
       (∀ n, pasidOf s w.asid = some n → Does (.atsResponse k page none) { s with out := s.out ++ [.priRequest n w.page], atsWaits := s.atsWaits.set (k - 384) { w with since := s.now } }) ∧
       Does (.priResponse k true) { s with atsWaits := s.atsWaits.eraseIdx (k - 384) } ∧
       Does (.priResponse k false) { s with atsWaits := s.atsWaits.set (k - 384) { w with verdict := some .pageNotPresent } })) ∧
    (∀ n all, Runs (.atsInvalidation n page all) s (fun t => t.strands.map (·.1) = s.strands.map (·.1) ∧ t.mem = s.mem ∧
      (globalWritesWait s = true → t.out = s.out ∧ t.dev.invDue = d.invDue + 1 ∧ t.pending = s.pending) ∧
      (globalWritesWait s = false → t.dev.invDue = 0 ∧ t.pending = [] ∧
        ∃ l, t.out = s.out ++ l ++ List.replicate (d.invDue + 1) Outbound.invalidationDone ∧ Outbound.invalidationDone ∉ l) ∧
      ∀ e, e ∈ t.tlb ↔ e ∈ s.tlb ∧ ¬(pasidOf s e.asid = some n ∧ (all = true ∨ (e.vbase ≤ 4096 * page ∧ 4096 * page < e.vbase + e.size))))) ∧
    (let p := s.linkPort port
     let up := port < 16 ∧ s.portUp port = true ∧ s.feat 7 = true
     let good := flitCrc flit = flit.extractLsb' 1984 64 ∧ (flit.extractLsb' 32 8 : BitVec 8).toNat ≤ 3 ∧ flitSeq flit = p.expect
     (¬up → Does (.linkFlitReceive port flit) s) ∧ (up → ¬good → Says (.linkFlitReceive port flit) (.linkAck port (p.expect - 1) true)) ∧
     (up → good → flit.getLsbD 31 = false → Runs (.linkFlitReceive port flit) s (fun t => (t.linkPort port).expect = p.expect + 1 ∧
       (t.linkPort port).replay = p.replay.dropWhile (fun f => decide ((flit.extractLsb' 16 12 - flitSeq f).toNat < 2048)) ∧ t.out = s.out ++ [Outbound.linkAck port p.expect false] ∧
       (t.linkPort port).inbox = (if flitKind flit = 0 then p.inbox else p.inbox ++ [flit]) ∧ t.strands = s.strands ∧ t.mem = s.mem)) ∧
     (up → good → flit.getLsbD 31 = true → Runs (.linkFlitReceive port flit) s (fun t =>
       let rest := p.replay.dropWhile (fun f => decide ((flit.extractLsb' 16 12 - flitSeq f).toNat < 2048))
       (t.linkPort port).replay = rest ∧ t.out = s.out ++ rest.map (fun f => Outbound.linkFlit port f) ++ [Outbound.linkAck port p.expect false] ∧
       (t.linkPort port).naks = (if rest = [] then 0 else if rest.length = p.replay.length then p.naks + 1 else 1))) ∧
     (let fails := port < 16 ∧ s.portUp port = true ∧ 9 ≤ p.naks
      (¬fails → Does (.linkRetrain port) s) ∧
      (fails → Runs (.linkRetrain port) s (fun t => t.portUp port = false ∧ (∀ n, n ≠ port → t.portUp n = s.portUp n) ∧ (t.linkPort port).naks = 0 ∧ (t.linkPort port).replay = p.replay))) ∧
     (let back := port < 16 ∧ s.portUp port = false ∧ p.lost = false ∧ s.feat 7 = true
      (¬back → ∀ b, Does (.portReturn port b) s) ∧
      (back → ∀ b, Runs (.portReturn port b) s (fun t => t.portUp port = true ∧ (∀ n, n ≠ port → t.portUp n = s.portUp n) ∧ (t.linkPort port).four = b ∧
        t.out = s.out ++ p.replay.map (fun f => Outbound.linkFlit port f) ++ (if b = true ∧ p.four = false then [Outbound.healthEvent] else []) ∧ t.mem = s.mem ∧ t.strands = s.strands))) ∧
     (16 ≤ port ∨ p.lost = true → Does (.portLost true port) s) ∧
     (port < 16 → p.lost = false → Runs (.portLost true port) s (fun t => t.portUp port = false ∧ (t.linkPort port).lost = true ∧ t.dev.dlinks = d.dlinks - 1 ∧ t.strands = s.strands)) ∧
     (4 ≤ port ∨ port ∈ d.hostLost → Does (.portLost false port) s) ∧
     (port < 4 → port ∉ d.hostLost → Does (.portLost false port) { s with dev := { d with hostLost := nsInsert d.hostLost port, hostports := d.hostports - 1 } })) ∧
    Says .getVersion (.spdm 0 8 0x13) ∧ Says .getCapabilities (.spdm 1 8 7) ∧ (∀ n, Says (.negotiateAlgorithms n) (.spdm 2 8 (n % 4))) ∧
    Says .getDigests (.spdm 3 512 Config.certificateDigest.toNat) ∧
    (∀ o n, let l := (Config.certificate.drop o).take n
      Says (.getCertificate o n) (.spdm 4 (8 * l.length) (bytesNat l))) ∧
    (∀ n : BitVec 256, Says (.challenge n) (.spdm 5 912 (Config.signature 256 n.toNat).toNat)) ∧
    Says (.getMeasurements 0) (.spdm 6 8 4) ∧ (∀ n, 1 ≤ n → n ≤ 4 → Says (.getMeasurements n) (.spdm 6 512 (measurement s n).toNat)) ∧
    (∃ n, Says (.getMeasurements 255) (.spdm 6 2048 n)) ∧ (∀ n, 4 < n → n ≠ 255 → Says (.getMeasurements n) (.spdm 7 0 0)) ∧
    Does (.notAnInstruction v) (raise s ⟨.illegalInstruction, v.zeroExtend 64, 0⟩)

/-- R29, R514 to R516: a corrected error is counted and the sixteenth in 24 hours retires its DRAM page; an uncorrectable one poisons its word, or its element of a bound tile; a fenced core or die leaves the counts with its kernels ended and REPLACE_REQUESTED set; a core is tested once it is empty, or has been emptied; the clock moves by 25 MHz between 500 and 1,250; a thermal shutdown holds the package in reset. An event whose condition does not hold
changes nothing, and each of these events, whatever its operands and the state, answers a next state. How the words of a relay slot are numbered (assumption 14), how power and temperature are measured (assumption 16), and what a shutdown keeps (assumption 38), are the model's choices. -/
def Obligations.HealthEvents : Prop :=
  ∀ (s : State) (core die word : Nat),
    let d := s.dev
    let Does (i : Instr) (t : State) : Prop := Runs i s (fun u => u = t)
    let c := s.coreRegs core
    let Core (r : CoreRegs) (t : State) : Prop := t.coreRegs core = r ∧ (∀ m, m ≠ core → t.coreRegs m = s.coreRegs m)
    (∀ th p, ∀ i ∈ ([.correctedError none, .correctedError (some p), .uncorrectableError word, .coreFence core, .dieFence die, .noNewGroup core, .selfTestPreempt core,
        .selfTestComplete core, .clockLower th, .clockRaise, .thermalShutdown] : List Instr), ∃ t, exec i s = .next t) ∧
    Does (.correctedError none) { s with dev := { d with corrected := d.corrected + 1 } } ∧
    (∀ p, let usable := p < 2 ^ 26 ∧ d.diemap.getLsbD (p / 2 ^ 24) = true ∧ p ∉ d.retired
      let recent := (sget [] d.corrections p).filter (fun t => decide (s.now < t + 86400000000000)) ++ [s.now]
      (¬usable → Does (.correctedError (some p)) { s with dev := { d with corrected := d.corrected + 1 } }) ∧
      (usable → recent.length < 16 → Does (.correctedError (some p)) { s with dev := { d with corrected := d.corrected + 1, corrections := sput d.corrections p recent } }) ∧
      (usable → 16 ≤ recent.length → Runs (.correctedError (some p)) s (fun t => p ∈ t.dev.retired ∧ (∀ w, w / 1024 = p → wordPoisoned t w = true) ∧
        t.dev.drammib = BitVec.ofNat 32 (dramMib t) ∧ t.dev.retpages.toNat = min 0xFFFF (d.retpages.toNat + 1) ∧
        (t.dev.retpages.toNat = 4097 → t.dev.replace = true ∧ t.out = s.out ++ [Outbound.healthEvent]) ∧ t.mem = s.mem ∧ t.strands = s.strands))) ∧
    (word < 2 ^ 58 → Runs (.uncorrectableError word) s (fun t => (∀ w, w ∈ t.poison ↔ w = word ∨ w ∈ s.poison) ∧ { t with poison := s.poison } = s)) ∧
    (2 ^ 58 ≤ word → word < 2 ^ 59 →
      let n := word - 2 ^ 58
      let x := sget ({} : Tile) s.tiles (n / 16384)
      (x.bound = none → Does (.uncorrectableError word) s) ∧
      (x.bound ≠ none → Does (.uncorrectableError word) { s with tiles := sput s.tiles (n / 16384) { x with poison := nsInsert x.poison (n % 16384) } })) ∧
    (2 ^ 59 ≤ word →
      let n := word - 2 ^ 59
      let r := (s.strand (n / 8192)).relays.getD (n / 2048 % 4) []
      Runs (.uncorrectableError word) s (fun t =>
        (∀ i : Nat, ((t.strand (n / 8192)).relays.getD (n / 2048 % 4) [])[i]? = (r[i]?).map (fun e => if i = n / 1024 % 2 then { e with poison := nsInsert e.poison (n % 1024) } else e)) ∧
        (∀ q, q ≠ n / 2048 % 4 → (t.strand (n / 8192)).relays.getD q [] = (s.strand (n / 8192)).relays.getD q []) ∧
        StrandBecomes s (n / 8192) { s.strand (n / 8192) with relays := (t.strand (n / 8192)).relays } t)) ∧
    (128 ≤ core ∨ c.fenced = true → Does (.coreFence core) s) ∧
    (core < 128 → c.fenced = false →
      let ks := ((coreGroups s core).map (fun p => p.2.kernel)).dedup
      Runs (.coreFence core) s (fun t => ∃ u, Core { c with fenced := true } u ∧ u.dev = { d with cores := d.cores - 1 } ∧ { u with cores := s.cores, dev := s.dev } = s ∧
        t = (requestReplace (faultKernels u ks)).setOff (.place (core / 32)) ∧ (ks = [] → (t.coreRegs core).fenced = true ∧ t.dev.replace = true ∧ t.out = s.out ++ [Outbound.healthEvent]))) ∧
    (¬(die < 4 ∧ d.diemap.getLsbD die = true) → Does (.dieFence die) s) ∧
    (die < 4 → d.diemap.getLsbD die = true →
      let there (key : Nat) (n : Kernel) : Prop := (∃ g ∈ s.groups, g.2.kernel = key ∧ g.2.core / 32 = die) ∨ ∃ r, sfind n.toPlace die = some r ∧ r.1 < r.2
      Runs (.dieFence die) s (fun t =>
        (∃ u v ks, t = (diesUp v).foldl (fun s d => s.setOff (.place d)) v ∧ v = requestReplace (faultKernels u ks) ∧ { u with dev := s.dev, cores := s.cores } = s ∧
          (∀ key, key ∈ ks ↔ ∃ n, (key, n) ∈ s.kernels ∧ there key n) ∧
          u.dev.diemap.getLsbD die = false ∧ (∀ n, n ≠ die → u.dev.diemap.getLsbD n = d.diemap.getLsbD n) ∧
          (∀ n, n / 32 = die → (u.coreRegs n).fenced = true) ∧ (∀ n, n / 32 ≠ die → u.coreRegs n = s.coreRegs n) ∧
          u.dev = { d with
                            diemap := u.dev.diemap, cores := d.cores - BitVec.ofNat 8 (((upFrom (32 * die) 32).filter (fun n => !(s.coreRegs n).fenced)).length),
                            cpyeng := d.cpyeng - 16, drammib := BitVec.ofNat 32 (dramMib u) } ∧
          (ks = [] → t.dev.replace = true ∧ t.out = s.out ++ [Outbound.healthEvent] ∧ t.mem = s.mem ∧ t.strands = s.strands)) ∧
        ∀ key n, sfind s.kernels key = some n → there key n → n.state ≠ .ending → ∃ m, sfind t.kernels key = some m ∧ m.state = .ending ∧ m.status = .faulted)) ∧
    (let due := c.noNew = none ∧ ∃ since, c.heldSince = some since ∧ since + 72000000000000 ≤ s.now
     (due → Runs (.noNewGroup core) s (fun t => Core { c with noNew := some s.now } t ∧ { t with cores := s.cores } = s)) ∧ (¬due → Does (.noNewGroup core) s)) ∧
    (let due := c.testing = false ∧ (∃ since, c.noNew = some since ∧ since + 14400000000000 ≤ s.now) ∧ coreGroups s core ≠ []
     let ks := (upFrom (3 * core) 3).filter (fun k => (s.strand k).status == .running && saveAreaOk s k)
     (due → Runs (.selfTestPreempt core) s (fun t => Core { c with testing := true, testSaved := ks } t ∧ t.strands = (ks.foldl preempt s).strands ∧ { t with cores := s.cores, strands := s.strands } = s)) ∧
     (¬due → Does (.selfTestPreempt core) s)) ∧
    (c.testing = true → (∃ k ∈ c.testSaved, (s.strand k).status = .stopping) → Does (.selfTestComplete core) s) ∧
    (c.testing = true → (∀ k ∈ c.testSaved, (s.strand k).status ≠ .stopping) → Runs (.selfTestComplete core) s (fun t => ∃ u,
      Core { c with testing := false, testSaved := [], noNew := none, heldSince := c.heldSince.map (fun _ => s.now) } u ∧ { u with cores := s.cores } = s ∧
      t = (c.testSaved.foldl restore u).setOff (.place (core / 32)))) ∧
    (c.testing = false → c.noNew ≠ none → coreGroups s core = [] → Runs (.selfTestComplete core) s (fun t =>
      Core { c with noNew := none } t ∧ t.effects = s.effects ++ [Turn.place (core / 32)] ∧ { t with cores := s.cores, effects := s.effects } = s)) ∧
    (c.testing = false → c.noNew = none ∨ coreGroups s core ≠ [] → Does (.selfTestComplete core) s) ∧
    (∀ th, let above := if th = true then 100 < d.tmax.toNat else d.cap.toNat < d.nowW.toNat
      (525 ≤ d.mhz.toNat → above → Does (.clockLower th) { s with dev := { d with mhz := d.mhz - 25, thermal := d.thermal || th, power := d.power || !th } }) ∧
      (¬(525 ≤ d.mhz.toNat ∧ above) → Does (.clockLower th) s)) ∧
    (let calm := ∃ since, d.calmSince = some since ∧ since + 10000000 ≤ s.now
     (calm → d.mhz.toNat + 25 < 1250 → Does .clockRaise { s with dev := { d with calmSince := some s.now, mhz := d.mhz + 25 } }) ∧
     (calm → d.mhz.toNat + 25 = 1250 → Does .clockRaise { s with dev := { d with calmSince := some s.now, mhz := 1250, thermal := false, power := false } }) ∧
     (¬(calm ∧ d.mhz.toNat + 25 ≤ 1250) → Does .clockRaise s)) ∧
    (let hot := 115 ≤ d.tmax.toNat ∨ (d.mhz.toNat < 525 ∧ (100 < d.tmax.toNat ∨ d.cap.toNat < d.nowW.toNat))
     (hot → Runs .thermalShutdown s (fun t => t.dev.inReset = true ∧ t.strands = State.reset.strands ∧ t.groups = [] ∧ t.kernels = [] ∧ t.tlb = [] ∧
       (∀ a, a < 2 ^ 38 ∨ 2 ^ 56 ≤ a → Mem.read t.mem a = Mem.read [] a) ∧ (∀ a, 2 ^ 38 ≤ a → a < 2 ^ 56 → Mem.read t.mem a = Mem.read s.mem a) ∧
       (∀ n, t.portUp n = false) ∧ (∀ k, mayIssue t k = false) ∧ ∀ o v, Runs (.registerWrite o v) t (fun u => u = t))) ∧
     (¬hot → Does .thermalShutdown s))

/-- R28, R29, R61, R493, R506, R508: after reset the identification, resource, launch-unit and host-facing registers read as their maps say; no strand has work, no queue is enabled, no kernel exists, memory reads as zero and every full-empty bit is empty. Reset values that the maps do not give are the model's (assumptions 2 and 12) and not stated here, except that memory reads as zero before boot writes it so, and that queues and lists are empty (assumptions 1 and 12). -/
def Obligations.ResetState : Prop :=
  let r (o : Nat) : Word := (regRead State.reset o).1
  r 0x00 = 0x4E044128 ∧ r 0x04 = 0x100 ∧ r 0x08 = 0x1F ∧ r 0x0C = 0x80401004 ∧ r 0x10 = 1250 ∧ r 0x14 = 262144 ∧
  r 0x100 = 0 ∧ r 0x104 = 0 ∧ r 0x108 = 0 ∧ r 0x10C = 100 ∧ r 0x114 = 0 ∧ r 0x118 = 0 ∧ r 0x11C = 0 ∧ r 0x124 = 0 ∧ r 0x128 = 0 ∧ r 0x12C = 0 ∧
  r 0x200 = 0x1FF ∧ (∀ i, i < 8 → r (0x220 + 4 * i) = 0) ∧ r 0x240 = 0 ∧ r 0x244 = 0 ∧ ((r 0x248).extractLsb' 16 16 : BitVec 16) = 3400 ∧ r 0x260 = 0 ∧ r 0x264 = 0 ∧
  (∀ k, (State.reset.strand k).status = .empty) ∧ (∀ q, (State.reset.queue q).state = .disabled) ∧ State.reset.kernels = [] ∧ State.reset.groups = [] ∧
  (∀ a, Mem.read State.reset.mem a = 0) ∧ State.reset.full = [] ∧ State.reset.poison = [] ∧ (∀ n, (State.reset.coreRegs n).halted = false ∧ (State.reset.coreRegs n).fenced = false) ∧
  State.reset.cycle = 0 ∧ State.reset.timeNs = 0

/-- The word that R107 works out for each of the eleven formats, and the words that five examples of other chapters give (R198, R200, R201, R387), are read as the instructions that stand beside them; ten more words are written out
from their formats (R102, R108), one of them with an unassigned major and one with a field it does not use (R111). -/
def Obligations.DecodeWords : Prop :=
  decode 0x04A63800 = .ok (.add 5 6 7) ∧ decode 0x08A5FFFC = .ok (.addi 5 5 0xFFFC) ∧ decode 0x24A00012 = .ok (.lui 5 0x12) ∧
  decode 0x38A03FFD = .ok (.bne 5 0 0x1FFD) ∧ decode 0x3C000100 = .ok (.jl 0x100) ∧ decode 0x2CA68004 = .ok (.ld32 5 6 4) ∧
  decode 0x78886160 = .ok (.vfadd 4 (.vreg 8) (.vreg 12) ⟨true, 3⟩) ∧ decode 0x644A5C25 = .ok (.vlds 2 10 11 true false ⟨false, 1⟩ 1) ∧
  decode 0x708A3400 = .ok (.vamoadd 4 10 6 true false Msk.all) ∧ decode 0xA41004C0 = .ok (.tmop 0 .bf16 (.queues (.ring 0) (.ring 1)) 1 false false) ∧
  decode 0xB110A0C5 = .ok (.fx 3 8 16 20 5) ∧
  decode 0x60A6000A = .ok (.vsetl 5 6 0x0A) ∧ decode 0x60050222 = .ok (.vloop 5 0x22) ∧ decode 0x60651B00 = .ok (.vlend 3 5 3) ∧ decode 0x600A0500 = .ok (.vdecl 10) ∧
  decode 0x60000600 = .ok .vundecl ∧
  decode (0b000001_00011_00100_00101_00000000001 : BitVec 32) = .ok (.sub 3 4 5) ∧ decode (0b000011_00001_00010_1111111111111111 : BitVec 32) = .ok (.andi 1 2 0xFFFF) ∧
  decode (0b001011_00111_00010_110_0000000000011 : BitVec 32) = .ok (.ld64 7 2 3) ∧ decode (0b001100_00111_00010_011_0000000000011 : BitVec 32) = .ok (.st64 7 2 3) ∧
  decode (0b001110_00001_00010_000_1111111111111 : BitVec 32) = .ok (.beq 1 2 0x1FFF) ∧ decode (0b001111_00000000000000000000000001 : BitVec 32) = .ok (.jl 1) ∧
  decode (0 : BitVec 32) = .ok .ill ∧ decode (0b000000_00000_00000_00000_00000000001 : BitVec 32) = .ok .xcall ∧
  decode (0b111111_00000_00000_00000_00000000000 : BitVec 32) = .error .unassignedMajor ∧ decode (0b000000_00001_00000_00000_00000000001 : BitVec 32) = .error .unusedField

/-- R102 to R111: the decoder reads the word that the encoder writes for a well-formed instruction as that instruction, whatever its operands. -/
def Obligations.DecodeEncode : Prop :=
  ∀ (i : Instr) (w : Word), encode i = some w → i.wf = true → decode w = .ok i

/-- R98, R101, R111: a step of a strand that may issue fetches the word at its PC and executes the instruction it encodes, or takes ILLEGAL_INSTRUCTION with a word that encodes none, or the fetch's cause at the PC; the word fetched is the one the instruction cache holds, else the newest value of the word that the translation of the PC reaches. Where the fetch has to wait, the strand waits. A yield ends (R420), a chain record moves on (R190) and time passes beside it. Address 0 is never fetched at user level (R501): that a strand which a return, a trun or its entry brought there ends its part, or takes ILLEGAL_INSTRUCTION where it holds a task, is the model's choice (assumption 65). A cell's step, and a planned event's, is the execution of its instruction, a strand that is saved being found between the beats of a vector instruction too (R208); what an agent outside the package does is taken likewise. -/
def Obligations.StepRunsDecoded : Prop :=
  ∀ (s : State) (w : Word) (i : Instr), s.effects = [] →
    (∀ k, s.agenda = [] → s.actor = .strand k → mayIssue s k = true → ¬((s.strand k).status = .running ∧ uiDue s k = true) →
      ((s.strand k).level = .user ∧ (s.strand k).pc = 0 → ∃ v, step s = .next (finish v) ∧ ((s.strand k).task = none → v = s.upd k (fun t => { t with ending := true })) ∧
        ((s.strand k).task.isSome → v = raise s ⟨.illegalInstruction, 0, 0⟩)) ∧
      (¬((s.strand k).level = .user ∧ (s.strand k).pc = 0) →
      let u := (issues s k).upd k (·.leaveRecord)
      let p := u.strand k
      (∀ v, fetchWord u = .ok w v →
        (decode w = .ok i → step s = andNext (exec i v) (fun t => finish (chainStep p k t))) ∧
        ((∀ j, decode w ≠ .ok j) → step s = .next (finish (chainStep p k (raise v ⟨.illegalInstruction, w.zeroExtend 64, 0⟩))))) ∧
      (∀ x v, fetchWord u = .error (.trap x) v → step s = .next (finish (raise v x))) ∧
      (∀ v, fetchWord u = .error .wait v → step s = .next (finish v.block)) ∧
      (p.chain = none → ∀ t, chainStep p k t = t) ∧
      (∀ e, (p.level = .user → p.ptFault = none) → p.replay = none → p.wait.verdict = none → winCode p.pc = 0 → winOff p.pc < 2 ^ 52 → pasidOf u p.e.asid = none →
        tlbFind u (k / 3) p.e.asid (winOff p.pc) = some e → leafDenied .fetch (p.level == .user) e.pte = false → e.pr = false →
        let pa := e.pbase + (winOff p.pc - e.vbase)
        effClass u e pa = some .n → reachable u pa = true →
          (sfind u.icache (ckey (k / 3) (pa / 4)) = some w → fetchWord u = .ok w u) ∧
          (sfind u.icache (ckey (k / 3) (pa / 4)) = none → u.busy = [] → u.waiters = [] → u.refused = [] → ownWord u (k / 3) (pa / 4) = false → wordPoisoned u (pa / 4) = false → curVal u (pa / 4) = w →
            fetchWord u = .ok w { fillWord u (k / 3) (pa / 4) 0 w with icache := sput u.icache (ckey (k / 3) (pa / 4)) w })))) ∧
    (∀ k c, s.agenda = [] → s.actor = .cell k c → cellMayFire s k c = true → cellWordAt s k c = some w → (cellOp w).isSome = true → decode w = .ok i → cellReissue s k c = none →
      step s = andNext (exec i s) finish) ∧
    (∀ rest, s.agenda = .event i :: rest → encode i = none → step s = andNext (exec i (foundBy i { s with agenda := rest })) finish ∧ ((∀ k, i ≠ .preemptSaveComplete k) → foundBy i { s with agenda := rest } = { s with agenda := rest })) ∧
    (∀ rest o, s.agenda = .outside o :: rest → step s = .next (finish (outsideEffect o { s with agenda := rest })))

/-- R499: after every step, a halted core that is not SETTLED still has a transfer moving into its local memories. -/
def Obligations.HaltSettled : Prop :=
  ∀ s t : State, step s = .next t → ∀ n, (t.coreRegs n).halted = true → (t.coreRegs n).settled = false → landing t n = true

/-- R499: after reset no core is halted, so that none waits to settle. -/
def Obligations.HaltSettledReset : Prop :=
  ∀ n, (State.reset.coreRegs n).halted = true → (State.reset.coreRegs n).settled = false → landing State.reset n = true
end

