-- ==== Sys2Proof/Laws/State.lean ====
section
/-! SUPPORT. What the small operations on the state read and change: tables by number, memory bytes, strands and cells. -/

namespace Sys2Proof.Machine
open Sys2Proof

/-! ## Tables -/

/-- An entry read after it was put is the entry put; any other entry is as before. -/
theorem sfind_sput {α : Type} (l : Sparse α) (k j : Nat) (v : α) :
    sfind (sput l k v) j = if j = k then some v else sfind l j := by
  induction l with
  | nil => by_cases h : k = j <;> simp [sput, sfind, h, eq_comm]
  | cons p t ih =>
    obtain ⟨i, w⟩ := p
    simp only [sput]
    split
    · by_cases h : k = j <;> simp [sfind, h, eq_comm]
    · split
      · rename_i h; subst h; by_cases h : k = j <;> simp [sfind, h, eq_comm]
      · simp only [sfind, ih]; split <;> split <;> simp_all
@[simp] theorem sget_sput_self {α : Type} (d : α) (l : Sparse α) (k : Nat) (v : α) : sget d (sput l k v) k = v := by
  simp [sget, sfind_sput]
theorem sget_sput_of_ne {α : Type} (d : α) (l : Sparse α) {k j : Nat} (v : α) (h : j ≠ k) :
    sget d (sput l k v) j = sget d l j := by simp [sget, sfind_sput, h]
theorem sget_sput {α : Type} (d : α) (l : Sparse α) (k j : Nat) (v : α) :
    sget d (sput l k v) j = if j = k then v else sget d l j := by
  split <;> simp_all [sget_sput_of_ne]

/-- The later of two entries put at one key stays. -/
theorem sput_sput {α : Type} (l : Sparse α) (k : Nat) (v w : α) : sput (sput l k v) k w = sput l k w := by
  induction l with
  | nil => simp [sput]
  | cons p t ih =>
    obtain ⟨i, x⟩ := p
    rcases Nat.lt_trichotomy k i with h | h | h
    · simp [sput, h]
    · subst h; simp [sput]
    · simp [sput, ih, show ¬k < i by omega, show ¬k = i by omega]

/-! ## Memory bytes -/

theorem mem_read_below (m : List Host.Cell) (lo a : Nat) (h : Mem.wfFrom lo m = true) (ha : a < lo) : Mem.read m a = Mem.blank := by
  induction m generalizing lo with
  | nil => rfl
  | cons p t ih =>
    obtain ⟨j, b⟩ := p
    simp only [Mem.wfFrom, Bool.and_eq_true, decide_eq_true_eq] at h
    rw [Mem.read, if_neg (by omega)]; exact ih (j + 1) h.2 (by omega)

/-- Reading a byte after a write in canonical memory. -/
theorem mem_read_write (m : List Host.Cell) (lo a c : Nat) (b : Byte) (h : Mem.wfFrom lo m = true) :
    Mem.read (Mem.write m a b) c = if c = a then b else Mem.read m c := by
  induction m generalizing lo with
  | nil =>
    simp only [Mem.write]
    split
    · subst_vars; split <;> rfl
    · by_cases hc : c = a
      · subst hc; simp [Mem.read]
      · rw [if_neg hc]; simp [Mem.read, Ne.symm hc]
  | cons p t ih =>
    obtain ⟨j, d⟩ := p
    simp only [Mem.wfFrom, Bool.and_eq_true, decide_eq_true_eq] at h
    have below : ∀ x, x ≤ j → Mem.read t x = Mem.blank := fun x hx => mem_read_below t (j + 1) x h.2 (by omega)
    simp only [Mem.write]
    split
    · split
      · subst_vars
        by_cases hc : c = a
        · subst hc; rw [if_pos rfl, Mem.read, if_neg (by omega), below c (by omega)]
        · rw [if_neg hc]
      · by_cases hc : c = a
        · subst hc; simp [Mem.read]
        · rw [if_neg hc, Mem.read, if_neg (Ne.symm hc)]
    · split
      · subst_vars
        split
        · subst_vars
          by_cases hc : c = j
          · subst hc; rw [if_pos rfl, below c (by omega)]
          · rw [if_neg hc, Mem.read, if_neg (Ne.symm hc)]
        · by_cases hc : c = j
          · subst hc; simp [Mem.read]
          · simp [Mem.read, hc, Ne.symm hc]
      · simp only [Mem.read]
        rw [ih (j + 1) h.2]
        split <;> split <;> simp_all

/-- A write keeps the canonical form. -/
theorem mem_write_wfFrom (m : List Host.Cell) (lo a : Nat) (b : Byte) (h : Mem.wfFrom lo m = true) (ha : lo ≤ a) :
    Mem.wfFrom lo (Mem.write m a b) = true := by
  induction m generalizing lo with
  | nil => by_cases hb : b = Mem.blank <;> simp [Mem.write, Mem.wfFrom, hb, ha]
  | cons p t ih =>
    obtain ⟨j, d⟩ := p
    have h' := h
    simp only [Mem.wfFrom, Bool.and_eq_true, decide_eq_true_eq, bne_iff_ne] at h
    simp only [Mem.write]
    have step : ∀ k, k ≤ j + 1 → Mem.wfFrom k t = true := by
      intro k hk
      cases t with
      | nil => rfl
      | cons q u =>
        have := h.2
        simp only [Mem.wfFrom, Bool.and_eq_true, decide_eq_true_eq] at this ⊢
        exact ⟨⟨by omega, this.1.2⟩, this.2⟩
    split
    · split
      · exact h'
      · simp only [Mem.wfFrom, Bool.and_eq_true, decide_eq_true_eq, bne_iff_ne]
        exact ⟨⟨ha, by assumption⟩, ⟨by omega, h.1.2⟩, h.2⟩
    · split
      · split
        · exact step lo (by omega)
        · simp only [Mem.wfFrom, Bool.and_eq_true, decide_eq_true_eq, bne_iff_ne]
          subst_vars; exact ⟨⟨h.1.1, by assumption⟩, h.2⟩
      · simp only [Mem.wfFrom, Bool.and_eq_true, decide_eq_true_eq, bne_iff_ne]
        exact ⟨h.1, ih (j + 1) h.2 (by omega)⟩
theorem memory_wf_write (m : List Host.Cell) (a : Nat) (b : Byte) (h : Memory.wf m = true) : Memory.wf (Mem.write m a b) = true :=
  mem_write_wfFrom m 0 a b h (Nat.zero_le a)
theorem memory_wf_writeN (m : List Host.Cell) (a n v : Nat) (h : Memory.wf m = true) : Memory.wf (Mem.writeN m a n v) = true := by
  induction n generalizing m a v with
  | zero => exact h
  | succ n ih => exact ih _ _ _ (memory_wf_write m a _ h)
/-- Clearing a range keeps the canonical form. -/
theorem memory_wf_clear (m : List Host.Cell) (a n : Nat) (h : Memory.wf m = true) : Memory.wf (Mem.clear m a n) = true := by
  have weaken : ∀ (l : List Host.Cell) (lo lo' : Nat), lo' ≤ lo → Mem.wfFrom lo l = true → Mem.wfFrom lo' l = true := by
    intro l lo lo' hl h
    cases l with
    | nil => rfl
    | cons q u =>
      simp only [Mem.wfFrom, Bool.and_eq_true, decide_eq_true_eq] at h ⊢
      exact ⟨⟨by omega, h.1.2⟩, h.2⟩
  have all : ∀ (l : List Host.Cell) (lo : Nat), Mem.wfFrom lo l = true → Mem.wfFrom lo (Mem.clear l a n) = true := by
    intro l
    induction l with
    | nil => intro lo _; rfl
    | cons p t ih =>
      intro lo h
      obtain ⟨j, d⟩ := p
      simp only [Mem.wfFrom, Bool.and_eq_true, decide_eq_true_eq] at h
      have := ih (j + 1) h.2
      unfold Mem.clear at this ⊢
      rw [List.filter_cons]
      split
      · simp only [Mem.wfFrom, Bool.and_eq_true, decide_eq_true_eq]; exact ⟨h.1, this⟩
      · exact weaken _ _ _ (by omega) this
  exact all m 0 h
/-- Memory after reset is canonical. -/
theorem memory_wf_reset : Memory.wf State.reset.mem = true := rfl

/-- Reading n bytes after a write of n bytes at the same place gives the low n bytes of the value written; bytes outside are as before. -/
theorem mem_read_writeN (m : List Host.Cell) (a n v c : Nat) (h : Memory.wf m = true) (hc : c < a ∨ a + n ≤ c) :
    Mem.read (Mem.writeN m a n v) c = Mem.read m c := by
  induction n generalizing m a v with
  | zero => rfl
  | succ n ih =>
    rw [Mem.writeN, ih _ _ _ (memory_wf_write m a _ h) (by omega), mem_read_write m 0 a c _ h, if_neg (by omega)]
theorem mem_readN_of_read {m m' : List Host.Cell} {a n : Nat} (h : ∀ c, a ≤ c → c < a + n → Mem.read m' c = Mem.read m c) :
    Mem.readN m' a n = Mem.readN m a n := by
  induction n generalizing a with
  | zero => rfl
  | succ n ih =>
    rw [Mem.readN, Mem.readN, h a (by omega) (by omega), ih (fun c h1 h2 => h c (by omega) (by omega))]
theorem mem_readN_writeN (m : List Host.Cell) (a n v : Nat) (h : Memory.wf m = true) :
    Mem.readN (Mem.writeN m a n v) a n = v % 256 ^ n := by
  induction n generalizing m a v with
  | zero => simp [Mem.readN, Nat.mod_one]
  | succ n ih =>
    rw [Mem.readN, Mem.writeN, ih _ _ _ (memory_wf_write m a _ h), mem_read_writeN _ _ _ _ _ (memory_wf_write m a _ h) (by omega),
      mem_read_write m 0 a a _ h, if_pos rfl, BitVec.toNat_ofNat, show (2 : Nat) ^ 8 = 256 from rfl, Nat.pow_succ 256 n, Nat.mul_comm _ 256, Nat.mod_mul]

/-! ## Strands -/

@[simp] theorem State.strand_upd_self (s : State) (k : Nat) (f : Strand → Strand) : (s.upd k f).strand k = f (s.strand k) := by
  simp [State.upd, State.setStrand, State.strand]
theorem State.strand_upd_of_ne (s : State) {k j : Nat} (f : Strand → Strand) (h : j ≠ k) : (s.upd k f).strand j = s.strand j := by
  simp [State.upd, State.setStrand, State.strand, sget_sput_of_ne _ _ _ h]
theorem State.strand_upd (s : State) (k j : Nat) (f : Strand → Strand) :
    (s.upd k f).strand j = if j = k then f (s.strand k) else s.strand j := by
  split <;> simp_all [State.strand_upd_of_ne]
/-- Two changes of one strand are one. -/
theorem State.upd_upd (s : State) (k : Nat) (f g : Strand → Strand) : (s.upd k f).upd k g = s.upd k (fun t => g (f t)) := by
  simp [State.upd, State.setStrand, State.strand, sput_sput]

@[simp] theorem State.upd_actor (s : State) (k : Nat) (f : Strand → Strand) : (s.upd k f).actor = s.actor := rfl
@[simp] theorem State.upd_agenda (s : State) (k : Nat) (f : Strand → Strand) : (s.upd k f).agenda = s.agenda := rfl
@[simp] theorem State.upd_effects (s : State) (k : Nat) (f : Strand → Strand) : (s.upd k f).effects = s.effects := rfl
@[simp] theorem State.upd_tick (s : State) (k : Nat) (f : Strand → Strand) : (s.upd k f).tick = s.tick := rfl
@[simp] theorem State.upd_freeCtr (s : State) (k : Nat) (f : Strand → Strand) : (s.upd k f).freeCtr = s.freeCtr := rfl
@[simp] theorem State.upd_cycle (s : State) (k : Nat) (f : Strand → Strand) : (s.upd k f).cycle = s.cycle := rfl
@[simp] theorem State.upd_timeNs (s : State) (k : Nat) (f : Strand → Strand) : (s.upd k f).timeNs = s.timeNs := rfl
@[simp] theorem State.upd_cells (s : State) (k : Nat) (f : Strand → Strand) : (s.upd k f).cells = s.cells := rfl
@[simp] theorem State.upd_vregs (s : State) (k : Nat) (f : Strand → Strand) : (s.upd k f).vregs = s.vregs := rfl
@[simp] theorem State.upd_tiles (s : State) (k : Nat) (f : Strand → Strand) : (s.upd k f).tiles = s.tiles := rfl
@[simp] theorem State.upd_mem (s : State) (k : Nat) (f : Strand → Strand) : (s.upd k f).mem = s.mem := rfl
@[simp] theorem State.upd_full (s : State) (k : Nat) (f : Strand → Strand) : (s.upd k f).full = s.full := rfl
@[simp] theorem State.upd_poison (s : State) (k : Nat) (f : Strand → Strand) : (s.upd k f).poison = s.poison := rfl
@[simp] theorem State.upd_l1 (s : State) (k : Nat) (f : Strand → Strand) : (s.upd k f).l1 = s.l1 := rfl
@[simp] theorem State.upd_l2 (s : State) (k : Nat) (f : Strand → Strand) : (s.upd k f).l2 = s.l2 := rfl
@[simp] theorem State.upd_reg (s : State) (k : Nat) (f : Strand → Strand) : (s.upd k f).reg = s.reg := rfl
@[simp] theorem State.upd_pending (s : State) (k : Nat) (f : Strand → Strand) : (s.upd k f).pending = s.pending := rfl
@[simp] theorem State.upd_lines (s : State) (k : Nat) (f : Strand → Strand) : (s.upd k f).lines = s.lines := rfl
@[simp] theorem State.upd_hostLines (s : State) (k : Nat) (f : Strand → Strand) : (s.upd k f).hostLines = s.hostLines := rfl
@[simp] theorem State.upd_busy (s : State) (k : Nat) (f : Strand → Strand) : (s.upd k f).busy = s.busy := rfl
@[simp] theorem State.upd_waiters (s : State) (k : Nat) (f : Strand → Strand) : (s.upd k f).waiters = s.waiters := rfl
@[simp] theorem State.upd_refused (s : State) (k : Nat) (f : Strand → Strand) : (s.upd k f).refused = s.refused := rfl
@[simp] theorem State.upd_wordLine (s : State) (k : Nat) (f : Strand → Strand) : (s.upd k f).wordLine = s.wordLine := rfl
@[simp] theorem State.upd_tlb (s : State) (k : Nat) (f : Strand → Strand) : (s.upd k f).tlb = s.tlb := rfl
@[simp] theorem State.upd_walks (s : State) (k : Nat) (f : Strand → Strand) : (s.upd k f).walks = s.walks := rfl
@[simp] theorem State.upd_atsWaits (s : State) (k : Nat) (f : Strand → Strand) : (s.upd k f).atsWaits = s.atsWaits := rfl
@[simp] theorem State.upd_strip (s : State) (k : Nat) (f : Strand → Strand) : (s.upd k f).strip = s.strip := rfl
@[simp] theorem State.upd_icache (s : State) (k : Nat) (f : Strand → Strand) : (s.upd k f).icache = s.icache := rfl
@[simp] theorem State.upd_cocoons (s : State) (k : Nat) (f : Strand → Strand) : (s.upd k f).cocoons = s.cocoons := rfl
@[simp] theorem State.upd_slots (s : State) (k : Nat) (f : Strand → Strand) : (s.upd k f).slots = s.slots := rfl
@[simp] theorem State.upd_fxGen (s : State) (k : Nat) (f : Strand → Strand) : (s.upd k f).fxGen = s.fxGen := rfl
@[simp] theorem State.upd_confs (s : State) (k : Nat) (f : Strand → Strand) : (s.upd k f).confs = s.confs := rfl
@[simp] theorem State.upd_invs (s : State) (k : Nat) (f : Strand → Strand) : (s.upd k f).invs = s.invs := rfl
@[simp] theorem State.upd_meters (s : State) (k : Nat) (f : Strand → Strand) : (s.upd k f).meters = s.meters := rfl
@[simp] theorem State.upd_groups (s : State) (k : Nat) (f : Strand → Strand) : (s.upd k f).groups = s.groups := rfl
@[simp] theorem State.upd_kernels (s : State) (k : Nat) (f : Strand → Strand) : (s.upd k f).kernels = s.kernels := rfl
@[simp] theorem State.upd_scheds (s : State) (k : Nat) (f : Strand → Strand) : (s.upd k f).scheds = s.scheds := rfl
@[simp] theorem State.upd_tasks (s : State) (k : Nat) (f : Strand → Strand) : (s.upd k f).tasks = s.tasks := rfl
@[simp] theorem State.upd_taskSeq (s : State) (k : Nat) (f : Strand → Strand) : (s.upd k f).taskSeq = s.taskSeq := rfl
@[simp] theorem State.upd_qlimit (s : State) (k : Nat) (f : Strand → Strand) : (s.upd k f).qlimit = s.qlimit := rfl
@[simp] theorem State.upd_pfut (s : State) (k : Nat) (f : Strand → Strand) : (s.upd k f).pfut = s.pfut := rfl
@[simp] theorem State.upd_fslots (s : State) (k : Nat) (f : Strand → Strand) : (s.upd k f).fslots = s.fslots := rfl
@[simp] theorem State.upd_solvers (s : State) (k : Nat) (f : Strand → Strand) : (s.upd k f).solvers = s.solvers := rfl
@[simp] theorem State.upd_lu (s : State) (k : Nat) (f : Strand → Strand) : (s.upd k f).lu = s.lu := rfl
@[simp] theorem State.upd_dev (s : State) (k : Nat) (f : Strand → Strand) : (s.upd k f).dev = s.dev := rfl
@[simp] theorem State.upd_cores (s : State) (k : Nat) (f : Strand → Strand) : (s.upd k f).cores = s.cores := rfl
@[simp] theorem State.upd_pagers (s : State) (k : Nat) (f : Strand → Strand) : (s.upd k f).pagers = s.pagers := rfl
@[simp] theorem State.upd_out (s : State) (k : Nat) (f : Strand → Strand) : (s.upd k f).out = s.out := rfl

/-! ## Cells -/

@[simp] theorem State.cell_setCell_self (s : State) (j : Nat) (c : CellCtx) : (s.setCell j c).cell j = c := by
  simp [State.setCell, State.cell]
theorem State.cell_setCell_of_ne (s : State) {i j : Nat} (c : CellCtx) (h : i ≠ j) : (s.setCell j c).cell i = s.cell i := by
  simp [State.setCell, State.cell, sget_sput_of_ne _ _ _ h]
@[simp] theorem State.setCell_actor (s : State) (j : Nat) (c : CellCtx) : (s.setCell j c).actor = s.actor := rfl
@[simp] theorem State.setCell_agenda (s : State) (j : Nat) (c : CellCtx) : (s.setCell j c).agenda = s.agenda := rfl
@[simp] theorem State.setCell_effects (s : State) (j : Nat) (c : CellCtx) : (s.setCell j c).effects = s.effects := rfl
@[simp] theorem State.setCell_tick (s : State) (j : Nat) (c : CellCtx) : (s.setCell j c).tick = s.tick := rfl
@[simp] theorem State.setCell_freeCtr (s : State) (j : Nat) (c : CellCtx) : (s.setCell j c).freeCtr = s.freeCtr := rfl
@[simp] theorem State.setCell_cycle (s : State) (j : Nat) (c : CellCtx) : (s.setCell j c).cycle = s.cycle := rfl
@[simp] theorem State.setCell_timeNs (s : State) (j : Nat) (c : CellCtx) : (s.setCell j c).timeNs = s.timeNs := rfl
@[simp] theorem State.setCell_strands (s : State) (j : Nat) (c : CellCtx) : (s.setCell j c).strands = s.strands := rfl
@[simp] theorem State.setCell_vregs (s : State) (j : Nat) (c : CellCtx) : (s.setCell j c).vregs = s.vregs := rfl
@[simp] theorem State.setCell_tiles (s : State) (j : Nat) (c : CellCtx) : (s.setCell j c).tiles = s.tiles := rfl
@[simp] theorem State.setCell_mem (s : State) (j : Nat) (c : CellCtx) : (s.setCell j c).mem = s.mem := rfl
@[simp] theorem State.setCell_full (s : State) (j : Nat) (c : CellCtx) : (s.setCell j c).full = s.full := rfl
@[simp] theorem State.setCell_poison (s : State) (j : Nat) (c : CellCtx) : (s.setCell j c).poison = s.poison := rfl
@[simp] theorem State.setCell_l1 (s : State) (j : Nat) (c : CellCtx) : (s.setCell j c).l1 = s.l1 := rfl
@[simp] theorem State.setCell_l2 (s : State) (j : Nat) (c : CellCtx) : (s.setCell j c).l2 = s.l2 := rfl
@[simp] theorem State.setCell_reg (s : State) (j : Nat) (c : CellCtx) : (s.setCell j c).reg = s.reg := rfl
@[simp] theorem State.setCell_pending (s : State) (j : Nat) (c : CellCtx) : (s.setCell j c).pending = s.pending := rfl
@[simp] theorem State.setCell_lines (s : State) (j : Nat) (c : CellCtx) : (s.setCell j c).lines = s.lines := rfl
@[simp] theorem State.setCell_hostLines (s : State) (j : Nat) (c : CellCtx) : (s.setCell j c).hostLines = s.hostLines := rfl
@[simp] theorem State.setCell_busy (s : State) (j : Nat) (c : CellCtx) : (s.setCell j c).busy = s.busy := rfl
@[simp] theorem State.setCell_waiters (s : State) (j : Nat) (c : CellCtx) : (s.setCell j c).waiters = s.waiters := rfl
@[simp] theorem State.setCell_refused (s : State) (j : Nat) (c : CellCtx) : (s.setCell j c).refused = s.refused := rfl
@[simp] theorem State.setCell_wordLine (s : State) (j : Nat) (c : CellCtx) : (s.setCell j c).wordLine = s.wordLine := rfl
@[simp] theorem State.setCell_tlb (s : State) (j : Nat) (c : CellCtx) : (s.setCell j c).tlb = s.tlb := rfl
@[simp] theorem State.setCell_walks (s : State) (j : Nat) (c : CellCtx) : (s.setCell j c).walks = s.walks := rfl
@[simp] theorem State.setCell_atsWaits (s : State) (j : Nat) (c : CellCtx) : (s.setCell j c).atsWaits = s.atsWaits := rfl
@[simp] theorem State.setCell_strip (s : State) (j : Nat) (c : CellCtx) : (s.setCell j c).strip = s.strip := rfl
@[simp] theorem State.setCell_icache (s : State) (j : Nat) (c : CellCtx) : (s.setCell j c).icache = s.icache := rfl
@[simp] theorem State.setCell_cocoons (s : State) (j : Nat) (c : CellCtx) : (s.setCell j c).cocoons = s.cocoons := rfl
@[simp] theorem State.setCell_slots (s : State) (j : Nat) (c : CellCtx) : (s.setCell j c).slots = s.slots := rfl
@[simp] theorem State.setCell_fxGen (s : State) (j : Nat) (c : CellCtx) : (s.setCell j c).fxGen = s.fxGen := rfl
@[simp] theorem State.setCell_confs (s : State) (j : Nat) (c : CellCtx) : (s.setCell j c).confs = s.confs := rfl
@[simp] theorem State.setCell_invs (s : State) (j : Nat) (c : CellCtx) : (s.setCell j c).invs = s.invs := rfl
@[simp] theorem State.setCell_meters (s : State) (j : Nat) (c : CellCtx) : (s.setCell j c).meters = s.meters := rfl
@[simp] theorem State.setCell_groups (s : State) (j : Nat) (c : CellCtx) : (s.setCell j c).groups = s.groups := rfl
@[simp] theorem State.setCell_kernels (s : State) (j : Nat) (c : CellCtx) : (s.setCell j c).kernels = s.kernels := rfl
@[simp] theorem State.setCell_scheds (s : State) (j : Nat) (c : CellCtx) : (s.setCell j c).scheds = s.scheds := rfl
@[simp] theorem State.setCell_tasks (s : State) (j : Nat) (c : CellCtx) : (s.setCell j c).tasks = s.tasks := rfl
@[simp] theorem State.setCell_taskSeq (s : State) (j : Nat) (c : CellCtx) : (s.setCell j c).taskSeq = s.taskSeq := rfl
@[simp] theorem State.setCell_qlimit (s : State) (j : Nat) (c : CellCtx) : (s.setCell j c).qlimit = s.qlimit := rfl
@[simp] theorem State.setCell_pfut (s : State) (j : Nat) (c : CellCtx) : (s.setCell j c).pfut = s.pfut := rfl
@[simp] theorem State.setCell_fslots (s : State) (j : Nat) (c : CellCtx) : (s.setCell j c).fslots = s.fslots := rfl
@[simp] theorem State.setCell_solvers (s : State) (j : Nat) (c : CellCtx) : (s.setCell j c).solvers = s.solvers := rfl
@[simp] theorem State.setCell_lu (s : State) (j : Nat) (c : CellCtx) : (s.setCell j c).lu = s.lu := rfl
@[simp] theorem State.setCell_dev (s : State) (j : Nat) (c : CellCtx) : (s.setCell j c).dev = s.dev := rfl
@[simp] theorem State.setCell_cores (s : State) (j : Nat) (c : CellCtx) : (s.setCell j c).cores = s.cores := rfl
@[simp] theorem State.setCell_pagers (s : State) (j : Nat) (c : CellCtx) : (s.setCell j c).pagers = s.pagers := rfl
@[simp] theorem State.setCell_out (s : State) (j : Nat) (c : CellCtx) : (s.setCell j c).out = s.out := rfl

/-! ## Registers -/

@[simp] theorem readX_zero (x : Vector Dword 32) : readX x 0 = 0 := by simp [readX]
@[simp] theorem writeX_zero (x : Vector Dword 32) (v : Dword) : writeX x 0 v = x := by simp [writeX]
theorem readX_writeX (x : Vector Dword 32) (r q : Reg) (v : Dword) :
    readX (writeX x r v) q = if q = 0 then 0 else if q = r then v else readX x q := by
  unfold readX writeX
  by_cases hq : q = 0
  · rw [if_pos hq, if_pos hq]
  · rw [if_neg hq, if_neg hq]
    by_cases hr : r = 0
    · subst hr; simp only [if_true, if_neg hq]
    · simp only [if_neg hr]
      by_cases h : q = r
      · subst h; simp
      · rw [if_neg h, if_neg hq]
        exact Vector.getElem_set_ne _ _ (fun e => h (BitVec.eq_of_toNat_eq e.symm))

/-! ## What a strand's instruction reads and changes -/

theorem State.x_strand {s : State} {k : Nat} (h : s.actor = .strand k) (r : Reg) : s.x r = readX (s.strand k).x r := by
  simp [State.x, h]
theorem State.pc_strand {s : State} {k : Nat} (h : s.actor = .strand k) : s.pc = (s.strand k).pc := by simp [State.pc, h]
theorem State.key_strand {s : State} {k : Nat} (h : s.actor = .strand k) : s.key = k := by simp [State.key, h, Actor.key]
theorem State.me_strand {s : State} {k : Nat} (h : s.actor = .strand k) : s.me = s.strand k := by
  simp [State.me, State.key_strand h]
theorem State.isCell_strand {s : State} {k : Nat} (h : s.actor = .strand k) : s.isCell = false := by simp [State.isCell, h]
theorem State.setX_strand {s : State} {k : Nat} (h : s.actor = .strand k) (r : Reg) (v : Dword) :
    s.setX r v = s.upd k (fun t => { t with x := writeX t.x r v }) := by simp [State.setX, h]
theorem State.setPc_strand {s : State} {k : Nat} (h : s.actor = .strand k) (v : Dword) :
    s.setPc v = s.upd k (fun t => { t with pc := v, wait := {} }) := by simp [State.setPc, h]
theorem State.advance_strand {s : State} {k : Nat} (h : s.actor = .strand k) :
    s.advance = s.upd k (fun t => { t with pc := t.pc + 4, wait := {} }) := by
  simp [State.advance, State.setPc_strand h, State.pc_strand h, State.upd]

end Sys2Proof.Machine
end

