-- ==== Sys2Proof/Laws/Coherence.lean ====
section
/-! SUPPORT. What registrations, releases and acquires leave unchanged. -/

namespace Sys2Proof.Machine
open Sys2Proof

/-- From s to t only copies of words and their records changed, inside the package and at the host, with what the host is told of them, and
links of strands broke: no memory, no register, no translation. -/
def CachesOnly (s t : State) : Prop :=
  t = { s with reg := t.reg, l1 := t.l1, l2 := t.l2, cocoons := t.cocoons, poison := t.poison, lines := t.lines, pending := t.pending,
               strip := t.strip, strands := t.strands, hostLines := t.hostLines, out := t.out } ∧
  ∀ j, ∃ l, t.strand j = { s.strand j with links := l }
theorem CachesOnly.refl (s : State) : CachesOnly s s := ⟨rfl, fun j => ⟨(s.strand j).links, rfl⟩⟩
theorem CachesOnly.trans {s t u : State} (h : CachesOnly s t) (g : CachesOnly t u) : CachesOnly s u := by
  refine ⟨?_, fun j => ?_⟩
  · have h1 := h.1; have g1 := g.1
    rw [h1] at g1; exact g1
  · obtain ⟨l, hl⟩ := g.2 j; obtain ⟨m, hm⟩ := h.2 j
    exact ⟨l, by rw [hl, hm]⟩
theorem CachesOnly.actor {s t : State} (h : CachesOnly s t) : t.actor = s.actor := by rw [h.1]
theorem CachesOnly.agenda {s t : State} (h : CachesOnly s t) : t.agenda = s.agenda := by rw [h.1]
theorem CachesOnly.effects {s t : State} (h : CachesOnly s t) : t.effects = s.effects := by rw [h.1]
theorem CachesOnly.tick {s t : State} (h : CachesOnly s t) : t.tick = s.tick := by rw [h.1]
theorem CachesOnly.freeCtr {s t : State} (h : CachesOnly s t) : t.freeCtr = s.freeCtr := by rw [h.1]
theorem CachesOnly.cycle {s t : State} (h : CachesOnly s t) : t.cycle = s.cycle := by rw [h.1]
theorem CachesOnly.timeNs {s t : State} (h : CachesOnly s t) : t.timeNs = s.timeNs := by rw [h.1]
theorem CachesOnly.cells {s t : State} (h : CachesOnly s t) : t.cells = s.cells := by rw [h.1]
theorem CachesOnly.vregs {s t : State} (h : CachesOnly s t) : t.vregs = s.vregs := by rw [h.1]
theorem CachesOnly.tiles {s t : State} (h : CachesOnly s t) : t.tiles = s.tiles := by rw [h.1]
theorem CachesOnly.mem {s t : State} (h : CachesOnly s t) : t.mem = s.mem := by rw [h.1]
theorem CachesOnly.full {s t : State} (h : CachesOnly s t) : t.full = s.full := by rw [h.1]
theorem CachesOnly.busy {s t : State} (h : CachesOnly s t) : t.busy = s.busy := by rw [h.1]
theorem CachesOnly.waiters {s t : State} (h : CachesOnly s t) : t.waiters = s.waiters := by rw [h.1]
theorem CachesOnly.refused {s t : State} (h : CachesOnly s t) : t.refused = s.refused := by rw [h.1]
theorem CachesOnly.tlb {s t : State} (h : CachesOnly s t) : t.tlb = s.tlb := by rw [h.1]
theorem CachesOnly.atsWaits {s t : State} (h : CachesOnly s t) : t.atsWaits = s.atsWaits := by rw [h.1]
theorem CachesOnly.icache {s t : State} (h : CachesOnly s t) : t.icache = s.icache := by rw [h.1]
theorem CachesOnly.slots {s t : State} (h : CachesOnly s t) : t.slots = s.slots := by rw [h.1]
theorem CachesOnly.fxGen {s t : State} (h : CachesOnly s t) : t.fxGen = s.fxGen := by rw [h.1]
theorem CachesOnly.confs {s t : State} (h : CachesOnly s t) : t.confs = s.confs := by rw [h.1]
theorem CachesOnly.invs {s t : State} (h : CachesOnly s t) : t.invs = s.invs := by rw [h.1]
theorem CachesOnly.meters {s t : State} (h : CachesOnly s t) : t.meters = s.meters := by rw [h.1]
theorem CachesOnly.groups {s t : State} (h : CachesOnly s t) : t.groups = s.groups := by rw [h.1]
theorem CachesOnly.kernels {s t : State} (h : CachesOnly s t) : t.kernels = s.kernels := by rw [h.1]
theorem CachesOnly.scheds {s t : State} (h : CachesOnly s t) : t.scheds = s.scheds := by rw [h.1]
theorem CachesOnly.tasks {s t : State} (h : CachesOnly s t) : t.tasks = s.tasks := by rw [h.1]
theorem CachesOnly.taskSeq {s t : State} (h : CachesOnly s t) : t.taskSeq = s.taskSeq := by rw [h.1]
theorem CachesOnly.qlimit {s t : State} (h : CachesOnly s t) : t.qlimit = s.qlimit := by rw [h.1]
theorem CachesOnly.pfut {s t : State} (h : CachesOnly s t) : t.pfut = s.pfut := by rw [h.1]
theorem CachesOnly.fslots {s t : State} (h : CachesOnly s t) : t.fslots = s.fslots := by rw [h.1]
theorem CachesOnly.solvers {s t : State} (h : CachesOnly s t) : t.solvers = s.solvers := by rw [h.1]
theorem CachesOnly.lu {s t : State} (h : CachesOnly s t) : t.lu = s.lu := by rw [h.1]
theorem CachesOnly.dev {s t : State} (h : CachesOnly s t) : t.dev = s.dev := by rw [h.1]
theorem CachesOnly.cores {s t : State} (h : CachesOnly s t) : t.cores = s.cores := by rw [h.1]
theorem CachesOnly.pagers {s t : State} (h : CachesOnly s t) : t.pagers = s.pagers := by rw [h.1]
/-- A list of such steps is one. -/
theorem CachesOnly.foldl {α : Type} (f : State → α → State) (h : ∀ s a, CachesOnly s (f s a)) (l : List α) (s : State) :
    CachesOnly s (l.foldl f s) := by
  induction l generalizing s with
  | nil => exact CachesOnly.refl s
  | cons a t ih => exact (h s a).trans (ih (f s a))

/-- An entry of a table whose values are changed by a function that keeps the default. -/
theorem sget_map {α : Type} (d : α) (g : Nat → α → α) (l : Sparse α) (k : Nat) (hd : g k d = d) :
    sget d (l.map (fun p => (p.1, g p.1 p.2))) k = g k (sget d l k) := by
  induction l with
  | nil => simp [sget, sfind, hd]
  | cons p t ih =>
    obtain ⟨j, v⟩ := p
    simp only [List.map_cons, sget, sfind] at ih ⊢
    split
    · subst_vars; rfl
    · exact ih

theorem breakLinksOf_caches (who : Nat → Bool) (s : State) (a : Nat) : CachesOnly s (breakLinksOf who s a) := by
  unfold breakLinksOf
  split
  · refine ⟨rfl, fun j => ?_⟩
    have h := sget_map {} (fun k t => { t with links := if who k then nsErase t.links (a / 256) else t.links }) s.strands j (by simp [nsErase])
    refine ⟨if who j then nsErase (s.strand j).links (a / 256) else (s.strand j).links, ?_⟩
    rw [State.strand, State.strand] at *
    rw [← h]
    congr 1
    refine List.map_congr_left (fun p _ => ?_)
    split <;> rfl
  · exact CachesOnly.refl s
theorem breakLinks_caches (s : State) (a : Nat) : CachesOnly s (breakLinks s a) := breakLinksOf_caches _ s a
theorem dropCocoonCopy_caches (s : State) (c w : Nat) : CachesOnly s (dropCocoonCopy s c w) :=
  ⟨rfl, fun j => ⟨(s.strand j).links, rfl⟩⟩
theorem dropCopy_caches (s : State) (h w : Nat) : CachesOnly s (dropCopy s h w) := by
  unfold dropCopy
  split
  · exact ⟨rfl, fun j => ⟨(s.strand j).links, rfl⟩⟩
  · split
    · exact CachesOnly.refl s
    · exact .trans ⟨rfl, fun j => ⟨(s.strand j).links, rfl⟩⟩ (dropCocoonCopy_caches _ _ _)
theorem dropDie_caches (s : State) (d w : Nat) : CachesOnly s (dropDie s d w) := by
  unfold dropDie
  split
  · exact ⟨rfl, fun j => ⟨(s.strand j).links, rfl⟩⟩
  · exact CachesOnly.refl s
theorem extWrite_caches (s : State) (d w : Nat) : CachesOnly s (extWrite s d w) := by
  unfold extWrite
  split
  · exact CachesOnly.refl s
  · exact ⟨rfl, fun j => ⟨(s.strand j).links, rfl⟩⟩
theorem tellHost_caches (s : State) (w : Nat) : CachesOnly s (tellHost s w) := by
  unfold tellHost
  split
  · exact ⟨rfl, fun j => ⟨(s.strand j).links, rfl⟩⟩
  · exact CachesOnly.refl s
/-- The registration of a word changes copies and their records only. -/
theorem registerWord_caches (s : State) (c w : Nat) (v : Word) : CachesOnly s (registerWord s c w v) := by
  unfold registerWord
  split
  · exact dropCopy_caches s c w
  · have drop : CachesOnly s (match sfind s.reg w with
        | some r => if r.holder = c then s else dropCopy s r.holder w
        | none => s) := by
      split
      · split
        · exact CachesOnly.refl s
        · exact dropCopy_caches s _ w
      · exact CachesOnly.refl s
    refine drop.trans (.trans (dropDie_caches _ (dieOf c) w) ?_)
    refine .trans ?_ ((extWrite_caches _ (dieOf c) w).trans ((breakLinksOf_caches _ _ (4 * w)).trans (tellHost_caches _ w)))
    exact ⟨rfl, fun j => ⟨_, rfl⟩⟩
theorem recordPending_caches (s : State) (p : Pending) : CachesOnly s (recordPending s p) :=
  CachesOnly.foldl _ (fun s (q : Word × Nat) => (registerWord_caches s p.core (p.word + q.2) q.1).trans (dropDie_caches _ _ _)) _ _
/-- Registrations that reach their homes change copies and their records only. -/
theorem drain_caches (s : State) (want : Pending → Bool) : CachesOnly s (drain s want) :=
  .trans ⟨rfl, fun j => ⟨(s.strand j).links, rfl⟩⟩ (CachesOnly.foldl _ recordPending_caches _ _)
/-- A release changes copies and their records only. -/
theorem release_caches (s : State) (c : Nat) (sc : Scope) : CachesOnly s (release s c sc) := by
  unfold release drainCore
  split
  · exact drain_caches s _
  · exact CachesOnly.refl s
/-- An acquire changes copies and their records only. -/
theorem acquire_caches (s : State) (c : Nat) (sc : Scope) : CachesOnly s (acquire s c sc) := by
  unfold acquire
  split
  · dsimp only
    split
    · exact ⟨rfl, fun j => ⟨_, rfl⟩⟩
    · exact ⟨rfl, fun j => ⟨_, rfl⟩⟩
  · exact CachesOnly.refl s

theorem dropDie_pending (s : State) (d w : Nat) : (dropDie s d w).pending = s.pending := by unfold dropDie; split <;> rfl
theorem registerWord_pending (s : State) (c w : Nat) (v : Word) : (registerWord s c w v).pending = s.pending := by
  have b : ∀ who (s : State) a, (breakLinksOf who s a).pending = s.pending := by intro who s a; unfold breakLinksOf; split <;> rfl
  have e : ∀ (s : State) d w, (extWrite s d w).pending = s.pending := by intro s d w; unfold extWrite; split <;> rfl
  have h : ∀ (s : State) w, (tellHost s w).pending = s.pending := by intro s w; unfold tellHost; split <;> rfl
  have dc : ∀ (s : State) c w, (dropCopy s c w).pending = s.pending := by
    intro s c w; unfold dropCopy
    repeat' split
    all_goals rfl
  unfold registerWord
  split
  · exact dc s c w
  · rw [h, b, e]
    show (dropDie _ _ _).pending = _
    rw [dropDie_pending]
    split
    · split
      · rfl
      · exact dc s _ w
    · rfl
theorem drain_pending (s : State) (want : Pending → Bool) : (drain s want).pending = (takePending want s.pending).2 := by
  have one : ∀ (p : Pending) (s : State), (recordPending s p).pending = s.pending := by
    intro p s; unfold recordPending
    generalize p.vals.zipIdx = l
    induction l generalizing s with
    | nil => rfl
    | cons q t ih => rw [List.foldl_cons, ih, dropDie_pending, registerWord_pending]
  have go : ∀ (l : List Pending) (s : State), (l.foldl recordPending s).pending = s.pending := by
    intro l; induction l with
    | nil => intro s; rfl
    | cons a t ih => intro s; rw [List.foldl_cons, ih, one]
  unfold drain
  rw [go]
/-- Of the registrations on their way, those stay that a choice neither wants nor takes with a later one of the same core; what stays was there. -/
theorem takePending_rest (want : Pending → Bool) (l : List Pending) (q : Pending) (h : q ∈ (takePending want l).2) : q ∈ l ∧ want q = false := by
  induction l with
  | nil => simp [takePending] at h
  | cons a t ih =>
    simp only [takePending] at h
    split at h
    · have := ih h; exact ⟨List.mem_cons_of_mem _ this.1, this.2⟩
    · rcases List.mem_cons.1 h with h1 | h1
      · subst h1; simp_all
      · have := ih h1; exact ⟨List.mem_cons_of_mem _ this.1, this.2⟩
/-- After a core's registrations have reached their homes, none of it, and none that stands for a write of its agents, is pending, and no other
was added. -/
theorem drainCore_pending (s : State) (c : Nat) (q : Pending) (h : q ∈ (drainCore s c).pending) : q ∈ s.pending ∧ q.core ≠ c ∧ q.by_ ≠ c := by
  rw [drainCore, drain_pending] at h
  have := takePending_rest _ _ _ h
  simpa using this

end Sys2Proof.Machine
end

