-- ==== Sys2Proof/Laws/Access.lean ====
section
/-! SUPPORT. How computations that can stop run on, and what an access of a strand to a local window is. -/

namespace Sys2Proof.Machine
open Sys2Proof

/-! ## Computations that can stop -/

theorem bindM_ok {α β : Type} {m : M α} {f : α → M β} {s s' : State} {a : α} (h : m s = .ok a s') : (m >>= f) s = f a s' := by
  show EStateM.bind m f s = _; simp [EStateM.bind, h]
theorem bindM_error {α β : Type} {m : M α} {f : α → M β} {s s' : State} {e : Stop} (h : m s = .error e s') :
    (m >>= f) s = .error e s' := by
  show EStateM.bind m f s = _; simp [EStateM.bind, h]
@[simp] theorem bindM_get {β : Type} (f : State → M β) (s : State) : (get >>= f) s = f s s := rfl
@[simp] theorem bindM_modify {β : Type} (g : State → State) (f : PUnit → M β) (s : State) : (modify g >>= f) s = f ⟨⟩ (g s) := rfl
@[simp] theorem bindM_set {β : Type} (t : State) (f : PUnit → M β) (s : State) : (set t >>= f) s = f ⟨⟩ t := rfl
@[simp] theorem bindM_pure {α β : Type} (a : α) (f : α → M β) (s : State) : ((pure a : M α) >>= f) s = f a s := rfl
@[simp] theorem bindM_assoc {α β γ : Type} (m : M α) (f : α → M β) (g : β → M γ) (s : State) :
    ((m >>= f) >>= g) s = (m >>= fun a => f a >>= g) s := by
  show EStateM.bind (EStateM.bind m f) g s = EStateM.bind m (fun a => EStateM.bind (f a) g) s
  simp only [EStateM.bind]; cases m s <;> rfl
@[simp] theorem pureM_apply {α : Type} (a : α) (s : State) : (pure a : M α) s = .ok a s := rfl
@[simp] theorem getM_apply (s : State) : (get : M State) s = .ok s s := rfl
@[simp] theorem setM_apply (s t : State) : (set t : M PUnit) s = .ok ⟨⟩ t := rfl
@[simp] theorem modifyM_apply (g : State → State) (s : State) : (modify g : M PUnit) s = .ok ⟨⟩ (g s) := rfl
@[simp] theorem trapM_apply {α : Type} (c : Cause) (a : Dword) (e : Nat) (s : State) :
    (trapM c a e : M α) s = .error (.trap ⟨c, a, e⟩) s := rfl
@[simp] theorem waitM_apply {α : Type} (s : State) : (waitM : M α) s = .error .wait s := rfl

/-- An instruction's computation that ends is its outcome. -/
theorem runInstr_ok {m : M Unit} {s s' : State} (h : m s = .ok () s') : runInstr m s = .next s' := by simp [runInstr, h]
theorem runInstr_trap {m : M Unit} {s s' : State} {t : TrapInfo} (h : m s = .error (.trap t) s') : runInstr m s = .next (raise s' t) := by
  simp [runInstr, h]
theorem runInstr_wait {m : M Unit} {s s' : State} (h : m s = .error .wait s') : runInstr m s = .next s'.block := by simp [runInstr, h]

end Sys2Proof.Machine
end

