-- ==== Sys2Proof/Laws/Decode.lean ====
section
/-! SUPPORT. The fields of a word that the encoder builds, format by format (R102), and the operand codes read back. -/

namespace Sys2Proof

/-! ## Format RRR -/

theorem fld_RRR_maj (maj : BitVec 6) (d a b : Reg) (fn : BitVec 11) {lo len : Nat} (h : 26 ≤ lo ∧ lo + len ≤ 32) :
    fld (encRRR maj d a b fn) lo len = (maj).extractLsb' (lo - 26) len := by
  show BitVec.extractLsb' lo len (maj ++ d ++ a ++ b ++ fn : BitVec (6+5+5+5+11)) = _
  simp (disch := omega) only [BitVec.extractLsb'_append_eq_of_le, Nat.sub_sub]
theorem fld_RRR_d (maj : BitVec 6) (d a b : Reg) (fn : BitVec 11) {lo len : Nat} (h : 21 ≤ lo ∧ lo + len ≤ 26) :
    fld (encRRR maj d a b fn) lo len = (d).extractLsb' (lo - 21) len := by
  show BitVec.extractLsb' lo len (maj ++ d ++ a ++ b ++ fn : BitVec (6+5+5+5+11)) = _
  simp (disch := omega) only [BitVec.extractLsb'_append_eq_of_le, BitVec.extractLsb'_append_eq_of_add_le, Nat.sub_sub]
theorem fld_RRR_a (maj : BitVec 6) (d a b : Reg) (fn : BitVec 11) {lo len : Nat} (h : 16 ≤ lo ∧ lo + len ≤ 21) :
    fld (encRRR maj d a b fn) lo len = (a).extractLsb' (lo - 16) len := by
  show BitVec.extractLsb' lo len (maj ++ d ++ a ++ b ++ fn : BitVec (6+5+5+5+11)) = _
  simp (disch := omega) only [BitVec.extractLsb'_append_eq_of_le, BitVec.extractLsb'_append_eq_of_add_le, Nat.sub_sub]
theorem fld_RRR_b (maj : BitVec 6) (d a b : Reg) (fn : BitVec 11) {lo len : Nat} (h : 11 ≤ lo ∧ lo + len ≤ 16) :
    fld (encRRR maj d a b fn) lo len = (b).extractLsb' (lo - 11) len := by
  show BitVec.extractLsb' lo len (maj ++ d ++ a ++ b ++ fn : BitVec (6+5+5+5+11)) = _
  simp (disch := omega) only [BitVec.extractLsb'_append_eq_of_le, BitVec.extractLsb'_append_eq_of_add_le]
theorem fld_RRR_fn (maj : BitVec 6) (d a b : Reg) (fn : BitVec 11) {lo len : Nat} (h : lo + len ≤ 11) :
    fld (encRRR maj d a b fn) lo len = (fn).extractLsb' lo len := by
  show BitVec.extractLsb' lo len (maj ++ d ++ a ++ b ++ fn : BitVec (6+5+5+5+11)) = _
  simp (disch := omega) only [BitVec.extractLsb'_append_eq_of_add_le]
/-! ## Format RI -/

theorem fld_RI_maj (maj : BitVec 6) (d a : Reg) (imm : BitVec 16) {lo len : Nat} (h : 26 ≤ lo ∧ lo + len ≤ 32) :
    fld (encRI maj d a imm) lo len = (maj).extractLsb' (lo - 26) len := by
  show BitVec.extractLsb' lo len (maj ++ d ++ a ++ imm : BitVec (6+5+5+16)) = _
  simp (disch := omega) only [BitVec.extractLsb'_append_eq_of_le, Nat.sub_sub]
theorem fld_RI_d (maj : BitVec 6) (d a : Reg) (imm : BitVec 16) {lo len : Nat} (h : 21 ≤ lo ∧ lo + len ≤ 26) :
    fld (encRI maj d a imm) lo len = (d).extractLsb' (lo - 21) len := by
  show BitVec.extractLsb' lo len (maj ++ d ++ a ++ imm : BitVec (6+5+5+16)) = _
  simp (disch := omega) only [BitVec.extractLsb'_append_eq_of_le, BitVec.extractLsb'_append_eq_of_add_le, Nat.sub_sub]
theorem fld_RI_a (maj : BitVec 6) (d a : Reg) (imm : BitVec 16) {lo len : Nat} (h : 16 ≤ lo ∧ lo + len ≤ 21) :
    fld (encRI maj d a imm) lo len = (a).extractLsb' (lo - 16) len := by
  show BitVec.extractLsb' lo len (maj ++ d ++ a ++ imm : BitVec (6+5+5+16)) = _
  simp (disch := omega) only [BitVec.extractLsb'_append_eq_of_le, BitVec.extractLsb'_append_eq_of_add_le]
theorem fld_RI_imm (maj : BitVec 6) (d a : Reg) (imm : BitVec 16) {lo len : Nat} (h : lo + len ≤ 16) :
    fld (encRI maj d a imm) lo len = (imm).extractLsb' lo len := by
  show BitVec.extractLsb' lo len (maj ++ d ++ a ++ imm : BitVec (6+5+5+16)) = _
  simp (disch := omega) only [BitVec.extractLsb'_append_eq_of_add_le]
/-! ## Format UI -/

theorem fld_UI_maj (maj : BitVec 6) (d : Reg) (imm : BitVec 21) {lo len : Nat} (h : 26 ≤ lo ∧ lo + len ≤ 32) :
    fld (encUI maj d imm) lo len = (maj).extractLsb' (lo - 26) len := by
  show BitVec.extractLsb' lo len (maj ++ d ++ imm : BitVec (6+5+21)) = _
  simp (disch := omega) only [BitVec.extractLsb'_append_eq_of_le, Nat.sub_sub]
theorem fld_UI_d (maj : BitVec 6) (d : Reg) (imm : BitVec 21) {lo len : Nat} (h : 21 ≤ lo ∧ lo + len ≤ 26) :
    fld (encUI maj d imm) lo len = (d).extractLsb' (lo - 21) len := by
  show BitVec.extractLsb' lo len (maj ++ d ++ imm : BitVec (6+5+21)) = _
  simp (disch := omega) only [BitVec.extractLsb'_append_eq_of_le, BitVec.extractLsb'_append_eq_of_add_le]
theorem fld_UI_imm (maj : BitVec 6) (d : Reg) (imm : BitVec 21) {lo len : Nat} (h : lo + len ≤ 21) :
    fld (encUI maj d imm) lo len = (imm).extractLsb' lo len := by
  show BitVec.extractLsb' lo len (maj ++ d ++ imm : BitVec (6+5+21)) = _
  simp (disch := omega) only [BitVec.extractLsb'_append_eq_of_add_le]
/-! ## Format MS -/

theorem fld_MS_maj (maj : BitVec 6) (x y : Reg) (w : BitVec 3) (off : BitVec 13) {lo len : Nat} (h : 26 ≤ lo ∧ lo + len ≤ 32) :
    fld (encMS maj x y w off) lo len = (maj).extractLsb' (lo - 26) len := by
  show BitVec.extractLsb' lo len (maj ++ x ++ y ++ w ++ off : BitVec (6+5+5+3+13)) = _
  simp (disch := omega) only [BitVec.extractLsb'_append_eq_of_le, Nat.sub_sub]
theorem fld_MS_d (maj : BitVec 6) (x y : Reg) (w : BitVec 3) (off : BitVec 13) {lo len : Nat} (h : 21 ≤ lo ∧ lo + len ≤ 26) :
    fld (encMS maj x y w off) lo len = (x).extractLsb' (lo - 21) len := by
  show BitVec.extractLsb' lo len (maj ++ x ++ y ++ w ++ off : BitVec (6+5+5+3+13)) = _
  simp (disch := omega) only [BitVec.extractLsb'_append_eq_of_le, BitVec.extractLsb'_append_eq_of_add_le, Nat.sub_sub]
theorem fld_MS_a (maj : BitVec 6) (x y : Reg) (w : BitVec 3) (off : BitVec 13) {lo len : Nat} (h : 16 ≤ lo ∧ lo + len ≤ 21) :
    fld (encMS maj x y w off) lo len = (y).extractLsb' (lo - 16) len := by
  show BitVec.extractLsb' lo len (maj ++ x ++ y ++ w ++ off : BitVec (6+5+5+3+13)) = _
  simp (disch := omega) only [BitVec.extractLsb'_append_eq_of_le, BitVec.extractLsb'_append_eq_of_add_le, Nat.sub_sub]
theorem fld_MS_w (maj : BitVec 6) (x y : Reg) (w : BitVec 3) (off : BitVec 13) {lo len : Nat} (h : 13 ≤ lo ∧ lo + len ≤ 16) :
    fld (encMS maj x y w off) lo len = (w).extractLsb' (lo - 13) len := by
  show BitVec.extractLsb' lo len (maj ++ x ++ y ++ w ++ off : BitVec (6+5+5+3+13)) = _
  simp (disch := omega) only [BitVec.extractLsb'_append_eq_of_le, BitVec.extractLsb'_append_eq_of_add_le]
theorem fld_MS_off (maj : BitVec 6) (x y : Reg) (w : BitVec 3) (off : BitVec 13) {lo len : Nat} (h : lo + len ≤ 13) :
    fld (encMS maj x y w off) lo len = (off).extractLsb' lo len := by
  show BitVec.extractLsb' lo len (maj ++ x ++ y ++ w ++ off : BitVec (6+5+5+3+13)) = _
  simp (disch := omega) only [BitVec.extractLsb'_append_eq_of_add_le]
/-! ## Format JM -/

theorem fld_JM_maj (maj : BitVec 6) (off : BitVec 26) {lo len : Nat} (h : 26 ≤ lo ∧ lo + len ≤ 32) :
    fld (encJM maj off) lo len = (maj).extractLsb' (lo - 26) len := by
  show BitVec.extractLsb' lo len (maj ++ off : BitVec (6+26)) = _
  simp (disch := omega) only [BitVec.extractLsb'_append_eq_of_le]
theorem fld_JM_off (maj : BitVec 6) (off : BitVec 26) {lo len : Nat} (h : lo + len ≤ 26) :
    fld (encJM maj off) lo len = (off).extractLsb' lo len := by
  show BitVec.extractLsb' lo len (maj ++ off : BitVec (6+26)) = _
  simp (disch := omega) only [BitVec.extractLsb'_append_eq_of_add_le]
/-! ## Format VM -/

theorem fld_VM_maj (maj : BitVec 6) (v a b : Reg) (o s : Bool) (m : Msk) (mode : BitVec 3) (ew : BitVec 2) {lo len : Nat} (h : 26 ≤ lo ∧ lo + len ≤ 32) :
    fld (encVM maj v a b o s m mode ew) lo len = (maj).extractLsb' (lo - 26) len := by
  show BitVec.extractLsb' lo len (maj ++ v ++ a ++ b ++ bit1 o ++ bit1 s ++ bit1 m.neg ++ m.m ++ mode ++ ew : BitVec (6+5+5+5+1+1+1+3+3+2)) = _
  simp (disch := omega) only [BitVec.extractLsb'_append_eq_of_le, Nat.sub_sub]
theorem fld_VM_d (maj : BitVec 6) (v a b : Reg) (o s : Bool) (m : Msk) (mode : BitVec 3) (ew : BitVec 2) {lo len : Nat} (h : 21 ≤ lo ∧ lo + len ≤ 26) :
    fld (encVM maj v a b o s m mode ew) lo len = (v).extractLsb' (lo - 21) len := by
  show BitVec.extractLsb' lo len (maj ++ v ++ a ++ b ++ bit1 o ++ bit1 s ++ bit1 m.neg ++ m.m ++ mode ++ ew : BitVec (6+5+5+5+1+1+1+3+3+2)) = _
  simp (disch := omega) only [BitVec.extractLsb'_append_eq_of_le, BitVec.extractLsb'_append_eq_of_add_le, Nat.sub_sub]
theorem fld_VM_a (maj : BitVec 6) (v a b : Reg) (o s : Bool) (m : Msk) (mode : BitVec 3) (ew : BitVec 2) {lo len : Nat} (h : 16 ≤ lo ∧ lo + len ≤ 21) :
    fld (encVM maj v a b o s m mode ew) lo len = (a).extractLsb' (lo - 16) len := by
  show BitVec.extractLsb' lo len (maj ++ v ++ a ++ b ++ bit1 o ++ bit1 s ++ bit1 m.neg ++ m.m ++ mode ++ ew : BitVec (6+5+5+5+1+1+1+3+3+2)) = _
  simp (disch := omega) only [BitVec.extractLsb'_append_eq_of_le, BitVec.extractLsb'_append_eq_of_add_le, Nat.sub_sub]
theorem fld_VM_b (maj : BitVec 6) (v a b : Reg) (o s : Bool) (m : Msk) (mode : BitVec 3) (ew : BitVec 2) {lo len : Nat} (h : 11 ≤ lo ∧ lo + len ≤ 16) :
    fld (encVM maj v a b o s m mode ew) lo len = (b).extractLsb' (lo - 11) len := by
  show BitVec.extractLsb' lo len (maj ++ v ++ a ++ b ++ bit1 o ++ bit1 s ++ bit1 m.neg ++ m.m ++ mode ++ ew : BitVec (6+5+5+5+1+1+1+3+3+2)) = _
  simp (disch := omega) only [BitVec.extractLsb'_append_eq_of_le, BitVec.extractLsb'_append_eq_of_add_le, Nat.sub_sub]
theorem fld_VM_o (maj : BitVec 6) (v a b : Reg) (o s : Bool) (m : Msk) (mode : BitVec 3) (ew : BitVec 2) {lo len : Nat} (h : 10 ≤ lo ∧ lo + len ≤ 11) :
    fld (encVM maj v a b o s m mode ew) lo len = (bit1 o).extractLsb' (lo - 10) len := by
  show BitVec.extractLsb' lo len (maj ++ v ++ a ++ b ++ bit1 o ++ bit1 s ++ bit1 m.neg ++ m.m ++ mode ++ ew : BitVec (6+5+5+5+1+1+1+3+3+2)) = _
  simp (disch := omega) only [BitVec.extractLsb'_append_eq_of_le, BitVec.extractLsb'_append_eq_of_add_le, Nat.sub_sub]
theorem fld_VM_s (maj : BitVec 6) (v a b : Reg) (o s : Bool) (m : Msk) (mode : BitVec 3) (ew : BitVec 2) {lo len : Nat} (h : 9 ≤ lo ∧ lo + len ≤ 10) :
    fld (encVM maj v a b o s m mode ew) lo len = (bit1 s).extractLsb' (lo - 9) len := by
  show BitVec.extractLsb' lo len (maj ++ v ++ a ++ b ++ bit1 o ++ bit1 s ++ bit1 m.neg ++ m.m ++ mode ++ ew : BitVec (6+5+5+5+1+1+1+3+3+2)) = _
  simp (disch := omega) only [BitVec.extractLsb'_append_eq_of_le, BitVec.extractLsb'_append_eq_of_add_le, Nat.sub_sub]
theorem fld_VM_neg (maj : BitVec 6) (v a b : Reg) (o s : Bool) (m : Msk) (mode : BitVec 3) (ew : BitVec 2) {lo len : Nat} (h : 8 ≤ lo ∧ lo + len ≤ 9) :
    fld (encVM maj v a b o s m mode ew) lo len = (bit1 m.neg).extractLsb' (lo - 8) len := by
  show BitVec.extractLsb' lo len (maj ++ v ++ a ++ b ++ bit1 o ++ bit1 s ++ bit1 m.neg ++ m.m ++ mode ++ ew : BitVec (6+5+5+5+1+1+1+3+3+2)) = _
  simp (disch := omega) only [BitVec.extractLsb'_append_eq_of_le, BitVec.extractLsb'_append_eq_of_add_le, Nat.sub_sub]
theorem fld_VM_m (maj : BitVec 6) (v a b : Reg) (o s : Bool) (m : Msk) (mode : BitVec 3) (ew : BitVec 2) {lo len : Nat} (h : 5 ≤ lo ∧ lo + len ≤ 8) :
    fld (encVM maj v a b o s m mode ew) lo len = (m.m).extractLsb' (lo - 5) len := by
  show BitVec.extractLsb' lo len (maj ++ v ++ a ++ b ++ bit1 o ++ bit1 s ++ bit1 m.neg ++ m.m ++ mode ++ ew : BitVec (6+5+5+5+1+1+1+3+3+2)) = _
  simp (disch := omega) only [BitVec.extractLsb'_append_eq_of_le, BitVec.extractLsb'_append_eq_of_add_le, Nat.sub_sub]
theorem fld_VM_mode (maj : BitVec 6) (v a b : Reg) (o s : Bool) (m : Msk) (mode : BitVec 3) (ew : BitVec 2) {lo len : Nat} (h : 2 ≤ lo ∧ lo + len ≤ 5) :
    fld (encVM maj v a b o s m mode ew) lo len = (mode).extractLsb' (lo - 2) len := by
  show BitVec.extractLsb' lo len (maj ++ v ++ a ++ b ++ bit1 o ++ bit1 s ++ bit1 m.neg ++ m.m ++ mode ++ ew : BitVec (6+5+5+5+1+1+1+3+3+2)) = _
  simp (disch := omega) only [BitVec.extractLsb'_append_eq_of_le, BitVec.extractLsb'_append_eq_of_add_le]
theorem fld_VM_ew (maj : BitVec 6) (v a b : Reg) (o s : Bool) (m : Msk) (mode : BitVec 3) (ew : BitVec 2) {lo len : Nat} (h : lo + len ≤ 2) :
    fld (encVM maj v a b o s m mode ew) lo len = (ew).extractLsb' lo len := by
  show BitVec.extractLsb' lo len (maj ++ v ++ a ++ b ++ bit1 o ++ bit1 s ++ bit1 m.neg ++ m.m ++ mode ++ ew : BitVec (6+5+5+5+1+1+1+3+3+2)) = _
  simp (disch := omega) only [BitVec.extractLsb'_append_eq_of_add_le]
/-! ## Format VA -/

theorem fld_VA_maj (maj : BitVec 6) (vd va vb : Reg) (k q : Bool) (m : Msk) (fn : BitVec 5) {lo len : Nat} (h : 26 ≤ lo ∧ lo + len ≤ 32) :
    fld (encVA maj vd va vb k q m fn) lo len = (maj).extractLsb' (lo - 26) len := by
  show BitVec.extractLsb' lo len (maj ++ vd ++ va ++ vb ++ bit1 k ++ bit1 q ++ bit1 m.neg ++ m.m ++ fn : BitVec (6+5+5+5+1+1+1+3+5)) = _
  simp (disch := omega) only [BitVec.extractLsb'_append_eq_of_le, Nat.sub_sub]
theorem fld_VA_d (maj : BitVec 6) (vd va vb : Reg) (k q : Bool) (m : Msk) (fn : BitVec 5) {lo len : Nat} (h : 21 ≤ lo ∧ lo + len ≤ 26) :
    fld (encVA maj vd va vb k q m fn) lo len = (vd).extractLsb' (lo - 21) len := by
  show BitVec.extractLsb' lo len (maj ++ vd ++ va ++ vb ++ bit1 k ++ bit1 q ++ bit1 m.neg ++ m.m ++ fn : BitVec (6+5+5+5+1+1+1+3+5)) = _
  simp (disch := omega) only [BitVec.extractLsb'_append_eq_of_le, BitVec.extractLsb'_append_eq_of_add_le, Nat.sub_sub]
theorem fld_VA_a (maj : BitVec 6) (vd va vb : Reg) (k q : Bool) (m : Msk) (fn : BitVec 5) {lo len : Nat} (h : 16 ≤ lo ∧ lo + len ≤ 21) :
    fld (encVA maj vd va vb k q m fn) lo len = (va).extractLsb' (lo - 16) len := by
  show BitVec.extractLsb' lo len (maj ++ vd ++ va ++ vb ++ bit1 k ++ bit1 q ++ bit1 m.neg ++ m.m ++ fn : BitVec (6+5+5+5+1+1+1+3+5)) = _
  simp (disch := omega) only [BitVec.extractLsb'_append_eq_of_le, BitVec.extractLsb'_append_eq_of_add_le, Nat.sub_sub]
theorem fld_VA_b (maj : BitVec 6) (vd va vb : Reg) (k q : Bool) (m : Msk) (fn : BitVec 5) {lo len : Nat} (h : 11 ≤ lo ∧ lo + len ≤ 16) :
    fld (encVA maj vd va vb k q m fn) lo len = (vb).extractLsb' (lo - 11) len := by
  show BitVec.extractLsb' lo len (maj ++ vd ++ va ++ vb ++ bit1 k ++ bit1 q ++ bit1 m.neg ++ m.m ++ fn : BitVec (6+5+5+5+1+1+1+3+5)) = _
  simp (disch := omega) only [BitVec.extractLsb'_append_eq_of_le, BitVec.extractLsb'_append_eq_of_add_le, Nat.sub_sub]
theorem fld_VA_k (maj : BitVec 6) (vd va vb : Reg) (k q : Bool) (m : Msk) (fn : BitVec 5) {lo len : Nat} (h : 10 ≤ lo ∧ lo + len ≤ 11) :
    fld (encVA maj vd va vb k q m fn) lo len = (bit1 k).extractLsb' (lo - 10) len := by
  show BitVec.extractLsb' lo len (maj ++ vd ++ va ++ vb ++ bit1 k ++ bit1 q ++ bit1 m.neg ++ m.m ++ fn : BitVec (6+5+5+5+1+1+1+3+5)) = _
  simp (disch := omega) only [BitVec.extractLsb'_append_eq_of_le, BitVec.extractLsb'_append_eq_of_add_le, Nat.sub_sub]
theorem fld_VA_q (maj : BitVec 6) (vd va vb : Reg) (k q : Bool) (m : Msk) (fn : BitVec 5) {lo len : Nat} (h : 9 ≤ lo ∧ lo + len ≤ 10) :
    fld (encVA maj vd va vb k q m fn) lo len = (bit1 q).extractLsb' (lo - 9) len := by
  show BitVec.extractLsb' lo len (maj ++ vd ++ va ++ vb ++ bit1 k ++ bit1 q ++ bit1 m.neg ++ m.m ++ fn : BitVec (6+5+5+5+1+1+1+3+5)) = _
  simp (disch := omega) only [BitVec.extractLsb'_append_eq_of_le, BitVec.extractLsb'_append_eq_of_add_le, Nat.sub_sub]
theorem fld_VA_neg (maj : BitVec 6) (vd va vb : Reg) (k q : Bool) (m : Msk) (fn : BitVec 5) {lo len : Nat} (h : 8 ≤ lo ∧ lo + len ≤ 9) :
    fld (encVA maj vd va vb k q m fn) lo len = (bit1 m.neg).extractLsb' (lo - 8) len := by
  show BitVec.extractLsb' lo len (maj ++ vd ++ va ++ vb ++ bit1 k ++ bit1 q ++ bit1 m.neg ++ m.m ++ fn : BitVec (6+5+5+5+1+1+1+3+5)) = _
  simp (disch := omega) only [BitVec.extractLsb'_append_eq_of_le, BitVec.extractLsb'_append_eq_of_add_le, Nat.sub_sub]
theorem fld_VA_m (maj : BitVec 6) (vd va vb : Reg) (k q : Bool) (m : Msk) (fn : BitVec 5) {lo len : Nat} (h : 5 ≤ lo ∧ lo + len ≤ 8) :
    fld (encVA maj vd va vb k q m fn) lo len = (m.m).extractLsb' (lo - 5) len := by
  show BitVec.extractLsb' lo len (maj ++ vd ++ va ++ vb ++ bit1 k ++ bit1 q ++ bit1 m.neg ++ m.m ++ fn : BitVec (6+5+5+5+1+1+1+3+5)) = _
  simp (disch := omega) only [BitVec.extractLsb'_append_eq_of_le, BitVec.extractLsb'_append_eq_of_add_le]
theorem fld_VA_fn (maj : BitVec 6) (vd va vb : Reg) (k q : Bool) (m : Msk) (fn : BitVec 5) {lo len : Nat} (h : lo + len ≤ 5) :
    fld (encVA maj vd va vb k q m fn) lo len = (fn).extractLsb' lo len := by
  show BitVec.extractLsb' lo len (maj ++ vd ++ va ++ vb ++ bit1 k ++ bit1 q ++ bit1 m.neg ++ m.m ++ fn : BitVec (6+5+5+5+1+1+1+3+5)) = _
  simp (disch := omega) only [BitVec.extractLsb'_append_eq_of_add_le]
/-! ## Format TM -/

theorem fld_TM_maj (maj : BitVec 6) (acc : BitVec 2) (f : TmFmt) (va vb : Reg) (rp : BitVec 3) (q sub sat ms : Bool) {lo len : Nat} (h : 26 ≤ lo ∧ lo + len ≤ 32) :
    fld (encTM maj acc f va vb rp q sub sat ms) lo len = (maj).extractLsb' (lo - 26) len := by
  show BitVec.extractLsb' lo len (maj ++ acc ++ f.code ++ va ++ vb ++ rp ++ bit1 q ++ bit1 sub ++ bit1 sat ++ bit1 ms ++ (0 : BitVec 3) : BitVec (6+2+4+5+5+3+1+1+1+1+3)) = _
  simp (disch := omega) only [BitVec.extractLsb'_append_eq_of_le, Nat.sub_sub]
theorem fld_TM_acc (maj : BitVec 6) (acc : BitVec 2) (f : TmFmt) (va vb : Reg) (rp : BitVec 3) (q sub sat ms : Bool) {lo len : Nat} (h : 24 ≤ lo ∧ lo + len ≤ 26) :
    fld (encTM maj acc f va vb rp q sub sat ms) lo len = (acc).extractLsb' (lo - 24) len := by
  show BitVec.extractLsb' lo len (maj ++ acc ++ f.code ++ va ++ vb ++ rp ++ bit1 q ++ bit1 sub ++ bit1 sat ++ bit1 ms ++ (0 : BitVec 3) : BitVec (6+2+4+5+5+3+1+1+1+1+3)) = _
  simp (disch := omega) only [BitVec.extractLsb'_append_eq_of_le, BitVec.extractLsb'_append_eq_of_add_le, Nat.sub_sub]
theorem fld_TM_fmt (maj : BitVec 6) (acc : BitVec 2) (f : TmFmt) (va vb : Reg) (rp : BitVec 3) (q sub sat ms : Bool) {lo len : Nat} (h : 20 ≤ lo ∧ lo + len ≤ 24) :
    fld (encTM maj acc f va vb rp q sub sat ms) lo len = (f.code).extractLsb' (lo - 20) len := by
  show BitVec.extractLsb' lo len (maj ++ acc ++ f.code ++ va ++ vb ++ rp ++ bit1 q ++ bit1 sub ++ bit1 sat ++ bit1 ms ++ (0 : BitVec 3) : BitVec (6+2+4+5+5+3+1+1+1+1+3)) = _
  simp (disch := omega) only [BitVec.extractLsb'_append_eq_of_le, BitVec.extractLsb'_append_eq_of_add_le, Nat.sub_sub]
theorem fld_TM_a (maj : BitVec 6) (acc : BitVec 2) (f : TmFmt) (va vb : Reg) (rp : BitVec 3) (q sub sat ms : Bool) {lo len : Nat} (h : 15 ≤ lo ∧ lo + len ≤ 20) :
    fld (encTM maj acc f va vb rp q sub sat ms) lo len = (va).extractLsb' (lo - 15) len := by
  show BitVec.extractLsb' lo len (maj ++ acc ++ f.code ++ va ++ vb ++ rp ++ bit1 q ++ bit1 sub ++ bit1 sat ++ bit1 ms ++ (0 : BitVec 3) : BitVec (6+2+4+5+5+3+1+1+1+1+3)) = _
  simp (disch := omega) only [BitVec.extractLsb'_append_eq_of_le, BitVec.extractLsb'_append_eq_of_add_le, Nat.sub_sub]
theorem fld_TM_b (maj : BitVec 6) (acc : BitVec 2) (f : TmFmt) (va vb : Reg) (rp : BitVec 3) (q sub sat ms : Bool) {lo len : Nat} (h : 10 ≤ lo ∧ lo + len ≤ 15) :
    fld (encTM maj acc f va vb rp q sub sat ms) lo len = (vb).extractLsb' (lo - 10) len := by
  show BitVec.extractLsb' lo len (maj ++ acc ++ f.code ++ va ++ vb ++ rp ++ bit1 q ++ bit1 sub ++ bit1 sat ++ bit1 ms ++ (0 : BitVec 3) : BitVec (6+2+4+5+5+3+1+1+1+1+3)) = _
  simp (disch := omega) only [BitVec.extractLsb'_append_eq_of_le, BitVec.extractLsb'_append_eq_of_add_le, Nat.sub_sub]
theorem fld_TM_rp (maj : BitVec 6) (acc : BitVec 2) (f : TmFmt) (va vb : Reg) (rp : BitVec 3) (q sub sat ms : Bool) {lo len : Nat} (h : 7 ≤ lo ∧ lo + len ≤ 10) :
    fld (encTM maj acc f va vb rp q sub sat ms) lo len = (rp).extractLsb' (lo - 7) len := by
  show BitVec.extractLsb' lo len (maj ++ acc ++ f.code ++ va ++ vb ++ rp ++ bit1 q ++ bit1 sub ++ bit1 sat ++ bit1 ms ++ (0 : BitVec 3) : BitVec (6+2+4+5+5+3+1+1+1+1+3)) = _
  simp (disch := omega) only [BitVec.extractLsb'_append_eq_of_le, BitVec.extractLsb'_append_eq_of_add_le, Nat.sub_sub]
theorem fld_TM_q (maj : BitVec 6) (acc : BitVec 2) (f : TmFmt) (va vb : Reg) (rp : BitVec 3) (q sub sat ms : Bool) {lo len : Nat} (h : 6 ≤ lo ∧ lo + len ≤ 7) :
    fld (encTM maj acc f va vb rp q sub sat ms) lo len = (bit1 q).extractLsb' (lo - 6) len := by
  show BitVec.extractLsb' lo len (maj ++ acc ++ f.code ++ va ++ vb ++ rp ++ bit1 q ++ bit1 sub ++ bit1 sat ++ bit1 ms ++ (0 : BitVec 3) : BitVec (6+2+4+5+5+3+1+1+1+1+3)) = _
  simp (disch := omega) only [BitVec.extractLsb'_append_eq_of_le, BitVec.extractLsb'_append_eq_of_add_le, Nat.sub_sub]
theorem fld_TM_sub (maj : BitVec 6) (acc : BitVec 2) (f : TmFmt) (va vb : Reg) (rp : BitVec 3) (q sub sat ms : Bool) {lo len : Nat} (h : 5 ≤ lo ∧ lo + len ≤ 6) :
    fld (encTM maj acc f va vb rp q sub sat ms) lo len = (bit1 sub).extractLsb' (lo - 5) len := by
  show BitVec.extractLsb' lo len (maj ++ acc ++ f.code ++ va ++ vb ++ rp ++ bit1 q ++ bit1 sub ++ bit1 sat ++ bit1 ms ++ (0 : BitVec 3) : BitVec (6+2+4+5+5+3+1+1+1+1+3)) = _
  simp (disch := omega) only [BitVec.extractLsb'_append_eq_of_le, BitVec.extractLsb'_append_eq_of_add_le, Nat.sub_sub]
theorem fld_TM_sat (maj : BitVec 6) (acc : BitVec 2) (f : TmFmt) (va vb : Reg) (rp : BitVec 3) (q sub sat ms : Bool) {lo len : Nat} (h : 4 ≤ lo ∧ lo + len ≤ 5) :
    fld (encTM maj acc f va vb rp q sub sat ms) lo len = (bit1 sat).extractLsb' (lo - 4) len := by
  show BitVec.extractLsb' lo len (maj ++ acc ++ f.code ++ va ++ vb ++ rp ++ bit1 q ++ bit1 sub ++ bit1 sat ++ bit1 ms ++ (0 : BitVec 3) : BitVec (6+2+4+5+5+3+1+1+1+1+3)) = _
  simp (disch := omega) only [BitVec.extractLsb'_append_eq_of_le, BitVec.extractLsb'_append_eq_of_add_le, Nat.sub_sub]
theorem fld_TM_ms (maj : BitVec 6) (acc : BitVec 2) (f : TmFmt) (va vb : Reg) (rp : BitVec 3) (q sub sat ms : Bool) {lo len : Nat} (h : 3 ≤ lo ∧ lo + len ≤ 4) :
    fld (encTM maj acc f va vb rp q sub sat ms) lo len = (bit1 ms).extractLsb' (lo - 3) len := by
  show BitVec.extractLsb' lo len (maj ++ acc ++ f.code ++ va ++ vb ++ rp ++ bit1 q ++ bit1 sub ++ bit1 sat ++ bit1 ms ++ (0 : BitVec 3) : BitVec (6+2+4+5+5+3+1+1+1+1+3)) = _
  simp (disch := omega) only [BitVec.extractLsb'_append_eq_of_le, BitVec.extractLsb'_append_eq_of_add_le]
theorem fld_TM_zero (maj : BitVec 6) (acc : BitVec 2) (f : TmFmt) (va vb : Reg) (rp : BitVec 3) (q sub sat ms : Bool) {lo len : Nat} (h : lo + len ≤ 3) :
    fld (encTM maj acc f va vb rp q sub sat ms) lo len = ((0 : BitVec 3)).extractLsb' lo len := by
  show BitVec.extractLsb' lo len (maj ++ acc ++ f.code ++ va ++ vb ++ rp ++ bit1 q ++ bit1 sub ++ bit1 sat ++ bit1 ms ++ (0 : BitVec 3) : BitVec (6+2+4+5+5+3+1+1+1+1+3)) = _
  simp (disch := omega) only [BitVec.extractLsb'_append_eq_of_add_le]
/-! ## Format FI -/

theorem fld_FI_maj (maj : BitVec 6) (vd va vb slot : Reg) (c : Bool) (xs : Reg) {lo len : Nat} (h : 26 ≤ lo ∧ lo + len ≤ 32) :
    fld (encFI maj vd va vb slot c xs) lo len = (maj).extractLsb' (lo - 26) len := by
  show BitVec.extractLsb' lo len (maj ++ vd ++ va ++ vb ++ slot ++ bit1 c ++ xs : BitVec (6+5+5+5+5+1+5)) = _
  simp (disch := omega) only [BitVec.extractLsb'_append_eq_of_le, Nat.sub_sub]
theorem fld_FI_d (maj : BitVec 6) (vd va vb slot : Reg) (c : Bool) (xs : Reg) {lo len : Nat} (h : 21 ≤ lo ∧ lo + len ≤ 26) :
    fld (encFI maj vd va vb slot c xs) lo len = (vd).extractLsb' (lo - 21) len := by
  show BitVec.extractLsb' lo len (maj ++ vd ++ va ++ vb ++ slot ++ bit1 c ++ xs : BitVec (6+5+5+5+5+1+5)) = _
  simp (disch := omega) only [BitVec.extractLsb'_append_eq_of_le, BitVec.extractLsb'_append_eq_of_add_le, Nat.sub_sub]
theorem fld_FI_a (maj : BitVec 6) (vd va vb slot : Reg) (c : Bool) (xs : Reg) {lo len : Nat} (h : 16 ≤ lo ∧ lo + len ≤ 21) :
    fld (encFI maj vd va vb slot c xs) lo len = (va).extractLsb' (lo - 16) len := by
  show BitVec.extractLsb' lo len (maj ++ vd ++ va ++ vb ++ slot ++ bit1 c ++ xs : BitVec (6+5+5+5+5+1+5)) = _
  simp (disch := omega) only [BitVec.extractLsb'_append_eq_of_le, BitVec.extractLsb'_append_eq_of_add_le, Nat.sub_sub]
theorem fld_FI_b (maj : BitVec 6) (vd va vb slot : Reg) (c : Bool) (xs : Reg) {lo len : Nat} (h : 11 ≤ lo ∧ lo + len ≤ 16) :
    fld (encFI maj vd va vb slot c xs) lo len = (vb).extractLsb' (lo - 11) len := by
  show BitVec.extractLsb' lo len (maj ++ vd ++ va ++ vb ++ slot ++ bit1 c ++ xs : BitVec (6+5+5+5+5+1+5)) = _
  simp (disch := omega) only [BitVec.extractLsb'_append_eq_of_le, BitVec.extractLsb'_append_eq_of_add_le, Nat.sub_sub]
theorem fld_FI_slot (maj : BitVec 6) (vd va vb slot : Reg) (c : Bool) (xs : Reg) {lo len : Nat} (h : 6 ≤ lo ∧ lo + len ≤ 11) :
    fld (encFI maj vd va vb slot c xs) lo len = (slot).extractLsb' (lo - 6) len := by
  show BitVec.extractLsb' lo len (maj ++ vd ++ va ++ vb ++ slot ++ bit1 c ++ xs : BitVec (6+5+5+5+5+1+5)) = _
  simp (disch := omega) only [BitVec.extractLsb'_append_eq_of_le, BitVec.extractLsb'_append_eq_of_add_le, Nat.sub_sub]
theorem fld_FI_c (maj : BitVec 6) (vd va vb slot : Reg) (c : Bool) (xs : Reg) {lo len : Nat} (h : 5 ≤ lo ∧ lo + len ≤ 6) :
    fld (encFI maj vd va vb slot c xs) lo len = (bit1 c).extractLsb' (lo - 5) len := by
  show BitVec.extractLsb' lo len (maj ++ vd ++ va ++ vb ++ slot ++ bit1 c ++ xs : BitVec (6+5+5+5+5+1+5)) = _
  simp (disch := omega) only [BitVec.extractLsb'_append_eq_of_le, BitVec.extractLsb'_append_eq_of_add_le]
theorem fld_FI_xs (maj : BitVec 6) (vd va vb slot : Reg) (c : Bool) (xs : Reg) {lo len : Nat} (h : lo + len ≤ 5) :
    fld (encFI maj vd va vb slot c xs) lo len = (xs).extractLsb' lo len := by
  show BitVec.extractLsb' lo len (maj ++ vd ++ va ++ vb ++ slot ++ bit1 c ++ xs : BitVec (6+5+5+5+5+1+5)) = _
  simp (disch := omega) only [BitVec.extractLsb'_append_eq_of_add_le]

/-! ## The formats of fn (R110) -/

theorem fn_amo_op (sc : Scope) (op : BitVec 5) : (encAmoFn sc op).extractLsb' 0 5 = op := by
  show BitVec.extractLsb' 0 5 (sc.code ++ (0 : BitVec 3) ++ op : BitVec (3+3+5)) = _
  simp (disch := omega) only [BitVec.extractLsb'_append_eq_of_add_le, BitVec.extractLsb'_eq_self]
theorem fn_amo_zero (sc : Scope) (op : BitVec 5) : (encAmoFn sc op).extractLsb' 5 3 = 0 := by
  show BitVec.extractLsb' 5 3 (sc.code ++ (0 : BitVec 3) ++ op : BitVec (3+3+5)) = _
  simp (disch := omega) only [BitVec.extractLsb'_append_eq_of_le, BitVec.extractLsb'_append_eq_of_add_le, Nat.sub_self, BitVec.extractLsb'_eq_self]
theorem fn_amo_sc (sc : Scope) (op : BitVec 5) : (encAmoFn sc op).extractLsb' 8 3 = sc.code := by
  show BitVec.extractLsb' 8 3 (sc.code ++ (0 : BitVec 3) ++ op : BitVec (3+3+5)) = _
  simp (disch := omega) only [BitVec.extractLsb'_append_eq_of_le, Nat.reduceSub, BitVec.extractLsb'_eq_self]
theorem fn_fps_op (f : FpFmt) (r : Rm) (op : BitVec 5) : (encFpsFn f r op).extractLsb' 0 5 = op := by
  show BitVec.extractLsb' 0 5 (f.code ++ r.code ++ (0 : BitVec 1) ++ op : BitVec (2+3+1+5)) = _
  simp (disch := omega) only [BitVec.extractLsb'_append_eq_of_add_le, BitVec.extractLsb'_eq_self]
theorem fn_fps_zero (f : FpFmt) (r : Rm) (op : BitVec 5) : (encFpsFn f r op).extractLsb' 5 1 = 0 := by
  show BitVec.extractLsb' 5 1 (f.code ++ r.code ++ (0 : BitVec 1) ++ op : BitVec (2+3+1+5)) = _
  simp (disch := omega) only [BitVec.extractLsb'_append_eq_of_le, BitVec.extractLsb'_append_eq_of_add_le, Nat.sub_self, BitVec.extractLsb'_eq_self]
theorem fn_fps_rm (f : FpFmt) (r : Rm) (op : BitVec 5) : (encFpsFn f r op).extractLsb' 6 3 = r.code := by
  show BitVec.extractLsb' 6 3 (f.code ++ r.code ++ (0 : BitVec 1) ++ op : BitVec (2+3+1+5)) = _
  simp (disch := omega) only [BitVec.extractLsb'_append_eq_of_le, BitVec.extractLsb'_append_eq_of_add_le, Nat.reduceSub, BitVec.extractLsb'_eq_self]
theorem fn_fps_fmt (f : FpFmt) (r : Rm) (op : BitVec 5) : (encFpsFn f r op).extractLsb' 9 2 = f.code := by
  show BitVec.extractLsb' 9 2 (f.code ++ r.code ++ (0 : BitVec 1) ++ op : BitVec (2+3+1+5)) = _
  simp (disch := omega) only [BitVec.extractLsb'_append_eq_of_le, Nat.reduceSub, BitVec.extractLsb'_eq_self]
theorem fn_vcfg_imm (op : BitVec 3) (imm : BitVec 8) : (encVcfgFn op imm).extractLsb' 0 8 = imm := by
  show BitVec.extractLsb' 0 8 (op ++ imm : BitVec (3+8)) = _
  simp (disch := omega) only [BitVec.extractLsb'_append_eq_of_add_le, BitVec.extractLsb'_eq_self]
theorem fn_vcfg_op (op : BitVec 3) (imm : BitVec 8) : (encVcfgFn op imm).extractLsb' 8 3 = op := by
  show BitVec.extractLsb' 8 3 (op ++ imm : BitVec (3+8)) = _
  simp (disch := omega) only [BitVec.extractLsb'_append_eq_of_le, Nat.reduceSub, BitVec.extractLsb'_eq_self]
theorem fn_tile_op (acc : BitVec 2) (op : BitVec 9) : (encTileFn acc op).extractLsb' 0 9 = op := by
  show BitVec.extractLsb' 0 9 (acc ++ op : BitVec (2+9)) = _
  simp (disch := omega) only [BitVec.extractLsb'_append_eq_of_add_le, BitVec.extractLsb'_eq_self]
theorem fn_tile_acc (acc : BitVec 2) (op : BitVec 9) : (encTileFn acc op).extractLsb' 9 2 = acc := by
  show BitVec.extractLsb' 9 2 (acc ++ op : BitVec (2+9)) = _
  simp (disch := omega) only [BitVec.extractLsb'_append_eq_of_le, Nat.reduceSub, BitVec.extractLsb'_eq_self]
theorem fn_sync_op (sc : Scope) : (encSyncFn sc).extractLsb' 0 8 = 0 := by
  show BitVec.extractLsb' 0 8 (sc.code ++ (0 : BitVec 8) : BitVec (3+8)) = _
  simp (disch := omega) only [BitVec.extractLsb'_append_eq_of_add_le, BitVec.extractLsb'_eq_self]
theorem fn_sync_op4 (sc : Scope) : (encSyncFn sc).extractLsb' 0 4 = 0 := by
  show BitVec.extractLsb' 0 4 (sc.code ++ (0 : BitVec 8) : BitVec (3+8)) = _
  simp (disch := omega) only [BitVec.extractLsb'_append_eq_of_add_le]; rfl
theorem fn_sync_zero4 (sc : Scope) : (encSyncFn sc).extractLsb' 4 4 = 0 := by
  show BitVec.extractLsb' 4 4 (sc.code ++ (0 : BitVec 8) : BitVec (3+8)) = _
  simp (disch := omega) only [BitVec.extractLsb'_append_eq_of_add_le]; rfl
theorem fn_sync_sc (sc : Scope) : (encSyncFn sc).extractLsb' 8 3 = sc.code := by
  show BitVec.extractLsb' 8 3 (sc.code ++ (0 : BitVec 8) : BitVec (3+8)) = _
  simp (disch := omega) only [BitVec.extractLsb'_append_eq_of_le, Nat.reduceSub, BitVec.extractLsb'_eq_self]

/-! ## Parts of a word and operand codes (R103 to R106) -/

/-- The msk field is two fields side by side. -/
theorem fmsk_parts (w : BitVec 32) : fmsk w = fld w 8 1 ++ fld w 5 3 := by
  exact (BitVec.extractLsb'_append_extractLsb'_eq_extractLsb' (x := w) (start₁ := 5) (len₁ := 3) (start₂ := 8) (len₂ := 1) rfl).symm
/-- A bit is a field of one bit. -/
theorem fbit_fld (w : BitVec 32) (i : Nat) : fbit w i = (fld w i 1 == (1 : BitVec 1)) := by
  rw [Bool.eq_iff_iff, beq_iff_eq, ← BitVec.toNat_inj]
  simp [fbit, fld, BitVec.getLsbD, Nat.testBit, Nat.one_and_eq_mod_two]
theorem bit1_beq (b : Bool) : (bit1 b == (1 : BitVec 1)) = b := by cases b <;> rfl
theorem scopeOf_code (s : Scope) : scopeOf s.code = .ok s := by cases s <;> rfl
theorem fpFmtOf_code (f : FpFmt) : fpFmtOf f.code = .ok f := by cases f <;> rfl
theorem rmOf_code (r : Rm) : rmOf r.code = .ok r := by cases r <;> rfl
theorem tmFmtOf_code (f : TmFmt) : tmFmtOf f.code = .ok f := by cases f <;> rfl
theorem mskOf_parts (m : Msk) (h : m.ok = true) : mskOf (bit1 m.neg ++ m.m) = .ok m := by
  obtain ⟨n, m⟩ := m
  revert h; revert m; cases n <;> decide
theorem queueOf_field (q : Queue) : queueOf q.field = .ok q := by
  cases q with
  | ring n => revert n; decide
  | relay n => revert n; decide
theorem vsrcOf_field (v : VSrc) : vsrcOf v.q v.field = .ok v := by
  cases v with
  | vreg v => rfl
  | queue q => simp [vsrcOf, VSrc.q, VSrc.field, queueOf_field, Except.map]
theorem vbOf_field (v : VbSrc) : vbOf v.k v.field = v := by cases v <;> rfl
theorem headOf_field (h : Head) : headOf h.field = .ok h := by
  cases h with
  | none => rfl
  | mask m => revert m; decide
theorem tmSrcOf_field (t : TmSrc) : tmSrcOf t.q t.fieldA t.fieldB = .ok t := by
  cases t with
  | regs a b => rfl
  | queues a b => simp [tmSrcOf, TmSrc.q, TmSrc.fieldA, TmSrc.fieldB, queueOf_field, bind, Except.bind]

/-! ## The majors (R108) -/

theorem decode_00 {w : BitVec 32} (h : fld w 26 6 = 0x00) : decode w = decodeSys w := by
  unfold decode; rw [h]; rfl
theorem decode_01 {w : BitVec 32} (h : fld w 26 6 = 0x01) : decode w = decodeAlu w := by
  unfold decode; rw [h]; rfl
theorem decode_02 {w : BitVec 32} (h : fld w 26 6 = 0x02) : decode w = decodeImm02 w := by
  unfold decode; rw [h]; rfl
theorem decode_03 {w : BitVec 32} (h : fld w 26 6 = 0x03) : decode w = decodeImm03 w := by
  unfold decode; rw [h]; rfl
theorem decode_04 {w : BitVec 32} (h : fld w 26 6 = 0x04) : decode w = decodeImm04 w := by
  unfold decode; rw [h]; rfl
theorem decode_05 {w : BitVec 32} (h : fld w 26 6 = 0x05) : decode w = decodeImm05 w := by
  unfold decode; rw [h]; rfl
theorem decode_06 {w : BitVec 32} (h : fld w 26 6 = 0x06) : decode w = decodeImm06 w := by
  unfold decode; rw [h]; rfl
theorem decode_07 {w : BitVec 32} (h : fld w 26 6 = 0x07) : decode w = decodeImm07 w := by
  unfold decode; rw [h]; rfl
theorem decode_08 {w : BitVec 32} (h : fld w 26 6 = 0x08) : decode w = decodeShi w := by
  unfold decode; rw [h]; rfl
theorem decode_09 {w : BitVec 32} (h : fld w 26 6 = 0x09) : decode w = decodeUi09 w := by
  unfold decode; rw [h]; rfl
theorem decode_0A {w : BitVec 32} (h : fld w 26 6 = 0x0A) : decode w = decodeUi0a w := by
  unfold decode; rw [h]; rfl
theorem decode_0B {w : BitVec 32} (h : fld w 26 6 = 0x0B) : decode w = decodeLd w := by
  unfold decode; rw [h]; rfl
theorem decode_0C {w : BitVec 32} (h : fld w 26 6 = 0x0C) : decode w = decodeSt w := by
  unfold decode; rw [h]; rfl
theorem decode_0D {w : BitVec 32} (h : fld w 26 6 = 0x0D) : decode w = decodeAmo w := by
  unfold decode; rw [h]; rfl
theorem decode_0E {w : BitVec 32} (h : fld w 26 6 = 0x0E) : decode w = decodeBr w := by
  unfold decode; rw [h]; rfl
theorem decode_0F {w : BitVec 32} (h : fld w 26 6 = 0x0F) : decode w = decodeJl w := by
  unfold decode; rw [h]; rfl
theorem decode_10 {w : BitVec 32} (h : fld w 26 6 = 0x10) : decode w = decodeJlr w := by
  unfold decode; rw [h]; rfl
theorem decode_11 {w : BitVec 32} (h : fld w 26 6 = 0x11) : decode w = decodeFps w := by
  unfold decode; rw [h]; rfl
theorem decode_12 {w : BitVec 32} (h : fld w 26 6 = 0x12) : decode w = decodeSpr w := by
  unfold decode; rw [h]; rfl
theorem decode_13 {w : BitVec 32} (h : fld w 26 6 = 0x13) : decode w = decodeTloop w := by
  unfold decode; rw [h]; rfl
theorem decode_18 {w : BitVec 32} (h : fld w 26 6 = 0x18) : decode w = decodeVcfg w := by
  unfold decode; rw [h]; rfl
theorem decode_19 {w : BitVec 32} (h : fld w 26 6 = 0x19) : decode w = decodeVld w := by
  unfold decode; rw [h]; rfl
theorem decode_1A {w : BitVec 32} (h : fld w 26 6 = 0x1A) : decode w = decodeVst w := by
  unfold decode; rw [h]; rfl
theorem decode_1B {w : BitVec 32} (h : fld w 26 6 = 0x1B) : decode w = decodeVgat w := by
  unfold decode; rw [h]; rfl
theorem decode_1C {w : BitVec 32} (h : fld w 26 6 = 0x1C) : decode w = decodeVamo w := by
  unfold decode; rw [h]; rfl
theorem decode_1D {w : BitVec 32} (h : fld w 26 6 = 0x1D) : decode w = decodeVint w := by
  unfold decode; rw [h]; rfl
theorem decode_1E {w : BitVec 32} (h : fld w 26 6 = 0x1E) : decode w = decodeVfp w := by
  unfold decode; rw [h]; rfl
theorem decode_1F {w : BitVec 32} (h : fld w 26 6 = 0x1F) : decode w = decodeVcvt w := by
  unfold decode; rw [h]; rfl
theorem decode_20 {w : BitVec 32} (h : fld w 26 6 = 0x20) : decode w = decodeVperm w := by
  unfold decode; rw [h]; rfl
theorem decode_21 {w : BitVec 32} (h : fld w 26 6 = 0x21) : decode w = decodeVirr w := by
  unfold decode; rw [h]; rfl
theorem decode_22 {w : BitVec 32} (h : fld w 26 6 = 0x22) : decode w = decodeVred w := by
  unfold decode; rw [h]; rfl
theorem decode_23 {w : BitVec 32} (h : fld w 26 6 = 0x23) : decode w = decodeVmsk w := by
  unfold decode; rw [h]; rfl
theorem decode_28 {w : BitVec 32} (h : fld w 26 6 = 0x28) : decode w = decodeTile w := by
  unfold decode; rw [h]; rfl
theorem decode_29 {w : BitVec 32} (h : fld w 26 6 = 0x29) : decode w = decodeTmop w := by
  unfold decode; rw [h]; rfl
theorem decode_2A {w : BitVec 32} (h : fld w 26 6 = 0x2A) : decode w = decodeTq w := by
  unfold decode; rw [h]; rfl
theorem decode_2B {w : BitVec 32} (h : fld w 26 6 = 0x2B) : decode w = decodeCc w := by
  unfold decode; rw [h]; rfl
theorem decode_2C {w : BitVec 32} (h : fld w 26 6 = 0x2C) : decode w = decodeFx w := by
  unfold decode; rw [h]; rfl
theorem decode_2D {w : BitVec 32} (h : fld w 26 6 = 0x2D) : decode w = decodeFxc w := by
  unfold decode; rw [h]; rfl
theorem decode_2E {w : BitVec 32} (h : fld w 26 6 = 0x2E) : decode w = decodeLink w := by
  unfold decode; rw [h]; rfl
theorem decode_30 {w : BitVec 32} (h : fld w 26 6 = 0x30) : decode w = decodeCpy w := by
  unfold decode; rw [h]; rfl
theorem decode_31 {w : BitVec 32} (h : fld w 26 6 = 0x31) : decode w = decodeSync w := by
  unfold decode; rw [h]; rfl
theorem decode_32 {w : BitVec 32} (h : fld w 26 6 = 0x32) : decode w = decodeTask w := by
  unfold decode; rw [h]; rfl
theorem decode_33 {w : BitVec 32} (h : fld w 26 6 = 0x33) : decode w = decodeSpec w := by
  unfold decode; rw [h]; rfl
theorem decode_34 {w : BitVec 32} (h : fld w 26 6 = 0x34) : decode w = decodeSq w := by
  unfold decode; rw [h]; rfl
theorem need_true (e : DecodeError) : need true e = .ok () := rfl
theorem zero_zero : zero 0 = .ok () := rfl
theorem pad3_low (r : BitVec 3) : BitVec.extractLsb' 0 3 ((0 : BitVec 2) ++ r : Reg) = r := by revert r; decide
theorem pad3_high (r : BitVec 3) : BitVec.extractLsb' 3 2 ((0 : BitVec 2) ++ r : Reg) = 0 := by revert r; decide
theorem boolField_low (b : Bool) : BitVec.extractLsb' 0 1 (boolField b) = bit1 b := by cases b <;> rfl
theorem boolField_high (b : Bool) : BitVec.extractLsb' 1 4 (boolField b) = 0 := by cases b <;> rfl
theorem pad2_low (r : BitVec 2) : BitVec.extractLsb' 0 2 ((0 : BitVec 3) ++ r : Reg) = r := by revert r; decide
theorem pad2_high (r : BitVec 2) : BitVec.extractLsb' 2 3 ((0 : BitVec 3) ++ r : Reg) = 0 := by revert r; decide
theorem shi_op (o : BitVec 2) (n : BitVec 6) : BitVec.extractLsb' 14 2 (o ++ (0 : BitVec 8) ++ n : BitVec 16) = o := by
  show BitVec.extractLsb' 14 2 (o ++ (0 : BitVec 8) ++ n : BitVec (2+8+6)) = _
  simp (disch := omega) only [BitVec.extractLsb'_append_eq_of_le, Nat.reduceSub, BitVec.extractLsb'_eq_self]
theorem shi_zero (o : BitVec 2) (n : BitVec 6) : BitVec.extractLsb' 6 8 (o ++ (0 : BitVec 8) ++ n : BitVec 16) = 0 := by
  show BitVec.extractLsb' 6 8 (o ++ (0 : BitVec 8) ++ n : BitVec (2+8+6)) = _
  simp (disch := omega) only [BitVec.extractLsb'_append_eq_of_le, BitVec.extractLsb'_append_eq_of_add_le, Nat.reduceSub, BitVec.extractLsb'_eq_self]
theorem shi_amount (o : BitVec 2) (n : BitVec 6) : BitVec.extractLsb' 0 6 (o ++ (0 : BitVec 8) ++ n : BitVec 16) = n := by
  show BitVec.extractLsb' 0 6 (o ++ (0 : BitVec 8) ++ n : BitVec (2+8+6)) = _
  simp (disch := omega) only [BitVec.extractLsb'_append_eq_of_add_le, BitVec.extractLsb'_eq_self]
theorem spr_op (o : BitVec 2) (n : BitVec 12) : BitVec.extractLsb' 14 2 (o ++ (0 : BitVec 2) ++ n : BitVec 16) = o := by
  show BitVec.extractLsb' 14 2 (o ++ (0 : BitVec 2) ++ n : BitVec (2+2+12)) = _
  simp (disch := omega) only [BitVec.extractLsb'_append_eq_of_le, Nat.reduceSub, BitVec.extractLsb'_eq_self]
theorem spr_zero (o : BitVec 2) (n : BitVec 12) : BitVec.extractLsb' 12 2 (o ++ (0 : BitVec 2) ++ n : BitVec 16) = 0 := by
  show BitVec.extractLsb' 12 2 (o ++ (0 : BitVec 2) ++ n : BitVec (2+2+12)) = _
  simp (disch := omega) only [BitVec.extractLsb'_append_eq_of_le, BitVec.extractLsb'_append_eq_of_add_le, Nat.reduceSub, BitVec.extractLsb'_eq_self]
theorem spr_number (o : BitVec 2) (n : BitVec 12) : BitVec.extractLsb' 0 12 (o ++ (0 : BitVec 2) ++ n : BitVec 16) = n := by
  show BitVec.extractLsb' 0 12 (o ++ (0 : BitVec 2) ++ n : BitVec (2+2+12)) = _
  simp (disch := omega) only [BitVec.extractLsb'_append_eq_of_add_le, BitVec.extractLsb'_eq_self]


end Sys2Proof
end

