-- ==== Sys2Proof/Laws/Dispatch.lean ====
section
/-! SUPPORT. Each instruction's meaning, as exec dispatches to it. -/

namespace Sys2Proof.Machine
open Sys2Proof

@[simp] theorem exec_ill {s : State} : exec .ill s = execIll s := rfl
@[simp] theorem exec_xcall {s : State} : exec .xcall s = execXcall s := rfl
@[simp] theorem exec_fcall {s : State} : exec .fcall s = execFcall s := rfl
@[simp] theorem exec_brk {s : State} : exec .brk s = execBrk s := rfl
@[simp] theorem exec_eret {s : State} : exec .eret s = execEret s := rfl
@[simp] theorem exec_uiret {s : State} : exec .uiret s = execUiret s := rfl
@[simp] theorem exec_wfe {a} {s : State} : exec (.wfe a) s = execWfe a s := rfl
@[simp] theorem exec_tlbinvPage {a b} {s : State} : exec (.tlbinvPage a b) s = execTlbinvPage a b s := rfl
@[simp] theorem exec_tlbinvAsid {b} {s : State} : exec (.tlbinvAsid b) s = execTlbinvAsid b s := rfl
@[simp] theorem exec_tlbinvAll {s : State} : exec .tlbinvAll s = execTlbinvAll s := rfl
@[simp] theorem exec_cwbCore {s : State} : exec .cwbCore s = execCwbCore s := rfl
@[simp] theorem exec_cwbDie {s : State} : exec .cwbDie s = execCwbDie s := rfl
@[simp] theorem exec_cwbDevice {s : State} : exec .cwbDevice s = execCwbDevice s := rfl
@[simp] theorem exec_cwbImage {a b} {s : State} : exec (.cwbImage a b) s = execCwbImage a b s := rfl
@[simp] theorem exec_halt {s : State} : exec .halt s = execHalt s := rfl
@[simp] theorem exec_add {d a b} {s : State} : exec (.add d a b) s = execAdd d a b s := rfl
@[simp] theorem exec_sub {d a b} {s : State} : exec (.sub d a b) s = execSub d a b s := rfl
@[simp] theorem exec_and {d a b} {s : State} : exec (.and d a b) s = execAnd d a b s := rfl
@[simp] theorem exec_or {d a b} {s : State} : exec (.or d a b) s = execOr d a b s := rfl
@[simp] theorem exec_xor {d a b} {s : State} : exec (.xor d a b) s = execXor d a b s := rfl
@[simp] theorem exec_andn {d a b} {s : State} : exec (.andn d a b) s = execAndn d a b s := rfl
@[simp] theorem exec_orn {d a b} {s : State} : exec (.orn d a b) s = execOrn d a b s := rfl
@[simp] theorem exec_sll {d a b} {s : State} : exec (.sll d a b) s = execSll d a b s := rfl
@[simp] theorem exec_srl {d a b} {s : State} : exec (.srl d a b) s = execSrl d a b s := rfl
@[simp] theorem exec_sra {d a b} {s : State} : exec (.sra d a b) s = execSra d a b s := rfl
@[simp] theorem exec_rotl {d a b} {s : State} : exec (.rotl d a b) s = execRotl d a b s := rfl
@[simp] theorem exec_rotr {d a b} {s : State} : exec (.rotr d a b) s = execRotr d a b s := rfl
@[simp] theorem exec_slt {d a b} {s : State} : exec (.slt d a b) s = execSlt d a b s := rfl
@[simp] theorem exec_sltn {d a b} {s : State} : exec (.sltn d a b) s = execSltn d a b s := rfl
@[simp] theorem exec_min {d a b} {s : State} : exec (.min d a b) s = execMin d a b s := rfl
@[simp] theorem exec_max {d a b} {s : State} : exec (.max d a b) s = execMax d a b s := rfl
@[simp] theorem exec_minn {d a b} {s : State} : exec (.minn d a b) s = execMinn d a b s := rfl
@[simp] theorem exec_maxn {d a b} {s : State} : exec (.maxn d a b) s = execMaxn d a b s := rfl
@[simp] theorem exec_mul {d a b} {s : State} : exec (.mul d a b) s = execMul d a b s := rfl
@[simp] theorem exec_mulh {d a b} {s : State} : exec (.mulh d a b) s = execMulh d a b s := rfl
@[simp] theorem exec_mulhn {d a b} {s : State} : exec (.mulhn d a b) s = execMulhn d a b s := rfl
@[simp] theorem exec_div {d a b} {s : State} : exec (.div d a b) s = execDiv d a b s := rfl
@[simp] theorem exec_divn {d a b} {s : State} : exec (.divn d a b) s = execDivn d a b s := rfl
@[simp] theorem exec_rem {d a b} {s : State} : exec (.rem d a b) s = execRem d a b s := rfl
@[simp] theorem exec_remn {d a b} {s : State} : exec (.remn d a b) s = execRemn d a b s := rfl
@[simp] theorem exec_clz {d a} {s : State} : exec (.clz d a) s = execClz d a s := rfl
@[simp] theorem exec_ctz {d a} {s : State} : exec (.ctz d a) s = execCtz d a s := rfl
@[simp] theorem exec_popc {d a} {s : State} : exec (.popc d a) s = execPopc d a s := rfl
@[simp] theorem exec_bswap {d a} {s : State} : exec (.bswap d a) s = execBswap d a s := rfl
@[simp] theorem exec_addi {d a imm} {s : State} : exec (.addi d a imm) s = execAddi d a imm s := rfl
@[simp] theorem exec_andi {d a imm} {s : State} : exec (.andi d a imm) s = execAndi d a imm s := rfl
@[simp] theorem exec_ori {d a imm} {s : State} : exec (.ori d a imm) s = execOri d a imm s := rfl
@[simp] theorem exec_xori {d a imm} {s : State} : exec (.xori d a imm) s = execXori d a imm s := rfl
@[simp] theorem exec_slti {d a imm} {s : State} : exec (.slti d a imm) s = execSlti d a imm s := rfl
@[simp] theorem exec_sltni {d a imm} {s : State} : exec (.sltni d a imm) s = execSltni d a imm s := rfl
@[simp] theorem exec_sllI {d a amount} {s : State} : exec (.sllI d a amount) s = execSllI d a amount s := rfl
@[simp] theorem exec_srlI {d a amount} {s : State} : exec (.srlI d a amount) s = execSrlI d a amount s := rfl
@[simp] theorem exec_sraI {d a amount} {s : State} : exec (.sraI d a amount) s = execSraI d a amount s := rfl
@[simp] theorem exec_rotrI {d a amount} {s : State} : exec (.rotrI d a amount) s = execRotrI d a amount s := rfl
@[simp] theorem exec_lui {d imm} {s : State} : exec (.lui d imm) s = execLui d imm s := rfl
@[simp] theorem exec_auipc {d imm} {s : State} : exec (.auipc d imm) s = execAuipc d imm s := rfl
@[simp] theorem exec_ld8 {d a off} {s : State} : exec (.ld8 d a off) s = execLd8 d a off s := rfl
@[simp] theorem exec_ld8s {d a off} {s : State} : exec (.ld8s d a off) s = execLd8s d a off s := rfl
@[simp] theorem exec_ld16 {d a off} {s : State} : exec (.ld16 d a off) s = execLd16 d a off s := rfl
@[simp] theorem exec_ld16s {d a off} {s : State} : exec (.ld16s d a off) s = execLd16s d a off s := rfl
@[simp] theorem exec_ld32 {d a off} {s : State} : exec (.ld32 d a off) s = execLd32 d a off s := rfl
@[simp] theorem exec_ld32s {d a off} {s : State} : exec (.ld32s d a off) s = execLd32s d a off s := rfl
@[simp] theorem exec_ld64 {d a off} {s : State} : exec (.ld64 d a off) s = execLd64 d a off s := rfl
@[simp] theorem exec_st8 {r a off} {s : State} : exec (.st8 r a off) s = execSt8 r a off s := rfl
@[simp] theorem exec_st16 {r a off} {s : State} : exec (.st16 r a off) s = execSt16 r a off s := rfl
@[simp] theorem exec_st32 {r a off} {s : State} : exec (.st32 r a off) s = execSt32 r a off s := rfl
@[simp] theorem exec_st64 {r a off} {s : State} : exec (.st64 r a off) s = execSt64 r a off s := rfl
@[simp] theorem exec_ldacq {sc d a} {s : State} : exec (.ldacq sc d a) s = execLdacq sc d a s := rfl
@[simp] theorem exec_strel {sc a b} {s : State} : exec (.strel sc a b) s = execStrel sc a b s := rfl
@[simp] theorem exec_amoswap {sc d a b} {s : State} : exec (.amoswap sc d a b) s = execAmoswap sc d a b s := rfl
@[simp] theorem exec_amoadd {sc d a b} {s : State} : exec (.amoadd sc d a b) s = execAmoadd sc d a b s := rfl
@[simp] theorem exec_amoand {sc d a b} {s : State} : exec (.amoand sc d a b) s = execAmoand sc d a b s := rfl
@[simp] theorem exec_amoor {sc d a b} {s : State} : exec (.amoor sc d a b) s = execAmoor sc d a b s := rfl
@[simp] theorem exec_amoxor {sc d a b} {s : State} : exec (.amoxor sc d a b) s = execAmoxor sc d a b s := rfl
@[simp] theorem exec_amomin {sc d a b} {s : State} : exec (.amomin sc d a b) s = execAmomin sc d a b s := rfl
@[simp] theorem exec_amomax {sc d a b} {s : State} : exec (.amomax sc d a b) s = execAmomax sc d a b s := rfl
@[simp] theorem exec_amominn {sc d a b} {s : State} : exec (.amominn sc d a b) s = execAmominn sc d a b s := rfl
@[simp] theorem exec_amomaxn {sc d a b} {s : State} : exec (.amomaxn sc d a b) s = execAmomaxn sc d a b s := rfl
@[simp] theorem exec_amocas {sc d a b} {s : State} : exec (.amocas sc d a b) s = execAmocas sc d a b s := rfl
@[simp] theorem exec_ldf {sc d a} {s : State} : exec (.ldf sc d a) s = execLdf sc d a s := rfl
@[simp] theorem exec_ldc {sc d a} {s : State} : exec (.ldc sc d a) s = execLdc sc d a s := rfl
@[simp] theorem exec_stf {sc a b} {s : State} : exec (.stf sc a b) s = execStf sc a b s := rfl
@[simp] theorem exec_beq {a b off} {s : State} : exec (.beq a b off) s = execBeq a b off s := rfl
@[simp] theorem exec_bne {a b off} {s : State} : exec (.bne a b off) s = execBne a b off s := rfl
@[simp] theorem exec_blt {a b off} {s : State} : exec (.blt a b off) s = execBlt a b off s := rfl
@[simp] theorem exec_bge {a b off} {s : State} : exec (.bge a b off) s = execBge a b off s := rfl
@[simp] theorem exec_bltn {a b off} {s : State} : exec (.bltn a b off) s = execBltn a b off s := rfl
@[simp] theorem exec_bgen {a b off} {s : State} : exec (.bgen a b off) s = execBgen a b off s := rfl
@[simp] theorem exec_jl {off} {s : State} : exec (.jl off) s = execJl off s := rfl
@[simp] theorem exec_jlr {d a imm} {s : State} : exec (.jlr d a imm) s = execJlr d a imm s := rfl
@[simp] theorem exec_fadd {f r d a b} {s : State} : exec (.fadd f r d a b) s = execFadd f r d a b s := rfl
@[simp] theorem exec_fsub {f r d a b} {s : State} : exec (.fsub f r d a b) s = execFsub f r d a b s := rfl
@[simp] theorem exec_fmul {f r d a b} {s : State} : exec (.fmul f r d a b) s = execFmul f r d a b s := rfl
@[simp] theorem exec_fdiv {f r d a b} {s : State} : exec (.fdiv f r d a b) s = execFdiv f r d a b s := rfl
@[simp] theorem exec_fsqrt {f r d a} {s : State} : exec (.fsqrt f r d a) s = execFsqrt f r d a s := rfl
@[simp] theorem exec_fmadd {f r d a b} {s : State} : exec (.fmadd f r d a b) s = execFmadd f r d a b s := rfl
@[simp] theorem exec_fmin {f r d a b} {s : State} : exec (.fmin f r d a b) s = execFmin f r d a b s := rfl
@[simp] theorem exec_fmax {f r d a b} {s : State} : exec (.fmax f r d a b) s = execFmax f r d a b s := rfl
@[simp] theorem exec_fneg {f r d a} {s : State} : exec (.fneg f r d a) s = execFneg f r d a s := rfl
@[simp] theorem exec_fabs {f r d a} {s : State} : exec (.fabs f r d a) s = execFabs f r d a s := rfl
@[simp] theorem exec_fcmpeq {f r d a b} {s : State} : exec (.fcmpeq f r d a b) s = execFcmpeq f r d a b s := rfl
@[simp] theorem exec_fcmplt {f r d a b} {s : State} : exec (.fcmplt f r d a b) s = execFcmplt f r d a b s := rfl
@[simp] theorem exec_fcmple {f r d a b} {s : State} : exec (.fcmple f r d a b) s = execFcmple f r d a b s := rfl
@[simp] theorem exec_fclass {f r d a} {s : State} : exec (.fclass f r d a) s = execFclass f r d a s := rfl
@[simp] theorem exec_fcvtfi {f r t d a} {s : State} : exec (.fcvtfi f r t d a) s = execFcvtfi f r t d a s := rfl
@[simp] theorem exec_fcvtif {f r t d a} {s : State} : exec (.fcvtif f r t d a) s = execFcvtif f r t d a s := rfl
@[simp] theorem exec_fcvtff {f r d a} {s : State} : exec (.fcvtff f r d a) s = execFcvtff f r d a s := rfl
@[simp] theorem exec_mfs {d spr} {s : State} : exec (.mfs d spr) s = execMfs d spr s := rfl
@[simp] theorem exec_mts {spr a} {s : State} : exec (.mts spr a) s = execMts spr a s := rfl
@[simp] theorem exec_sset {spr a} {s : State} : exec (.sset spr a) s = execSset spr a s := rfl
@[simp] theorem exec_sclr {spr a} {s : State} : exec (.sclr spr a) s = execSclr spr a s := rfl
@[simp] theorem exec_tloop {n b off} {s : State} : exec (.tloop n b off) s = execTloop n b off s := rfl
@[simp] theorem exec_vsetl {d a vt} {s : State} : exec (.vsetl d a vt) s = execVsetl d a vt s := rfl
@[simp] theorem exec_vsetlx {d a b} {s : State} : exec (.vsetlx d a b) s = execVsetlx d a b s := rfl
@[simp] theorem exec_vloop {a vt} {s : State} : exec (.vloop a vt) s = execVloop a vt s := rfl
@[simp] theorem exec_vlend {np a len} {s : State} : exec (.vlend np a len) s = execVlend np a len s := rfl
@[simp] theorem exec_vbreak {a off} {s : State} : exec (.vbreak a off) s = execVbreak a off s := rfl
@[simp] theorem exec_vdecl {a} {s : State} : exec (.vdecl a) s = execVdecl a s := rfl
@[simp] theorem exec_vundecl {s : State} : exec .vundecl s = execVundecl s := rfl
@[simp] theorem exec_vslip {a} {s : State} : exec (.vslip a) s = execVslip a s := rfl
@[simp] theorem exec_vld {v a o sb m ew} {s : State} : exec (.vld v a o sb m ew) s = execVld v a o sb m ew s := rfl
@[simp] theorem exec_vlds {v a b o sb m ew} {s : State} : exec (.vlds v a b o sb m ew) s = execVlds v a b o sb m ew s := rfl
@[simp] theorem exec_vldq {ring a o sb m ew} {s : State} : exec (.vldq ring a o sb m ew) s = execVldq ring a o sb m ew s := rfl
@[simp] theorem exec_vldqk {v a ring o sb m ew} {s : State} : exec (.vldqk v a ring o sb m ew) s = execVldqk v a ring o sb m ew s := rfl
@[simp] theorem exec_vldb {v a o sb m ew} {s : State} : exec (.vldb v a o sb m ew) s = execVldb v a o sb m ew s := rfl
@[simp] theorem exec_vldf {v a o sb m ew} {s : State} : exec (.vldf v a o sb m ew) s = execVldf v a o sb m ew s := rfl
@[simp] theorem exec_vldp4 {v a b o sb m} {s : State} : exec (.vldp4 v a b o sb m) s = execVldp4 v a b o sb m s := rfl
@[simp] theorem exec_vst {v a o sb m ew} {s : State} : exec (.vst v a o sb m ew) s = execVst v a o sb m ew s := rfl
@[simp] theorem exec_vsts {v a b o sb m ew} {s : State} : exec (.vsts v a b o sb m ew) s = execVsts v a b o sb m ew s := rfl
@[simp] theorem exec_vstn {v a o sb m ew} {s : State} : exec (.vstn v a o sb m ew) s = execVstn v a o sb m ew s := rfl
@[simp] theorem exec_vstsn {v a b o sb m ew} {s : State} : exec (.vstsn v a b o sb m ew) s = execVstsn v a b o sb m ew s := rfl
@[simp] theorem exec_vstf {v a o sb m ew} {s : State} : exec (.vstf v a o sb m ew) s = execVstf v a o sb m ew s := rfl
@[simp] theorem exec_vstq {ring a o sb m ew} {s : State} : exec (.vstq ring a o sb m ew) s = execVstq ring a o sb m ew s := rfl
@[simp] theorem exec_vgat {v a b o sb m ew} {s : State} : exec (.vgat v a b o sb m ew) s = execVgat v a b o sb m ew s := rfl
@[simp] theorem exec_vsca {v a b o sb m ew} {s : State} : exec (.vsca v a b o sb m ew) s = execVsca v a b o sb m ew s := rfl
@[simp] theorem exec_vgatw {v a b o sb p ew} {s : State} : exec (.vgatw v a b o sb p ew) s = execVgatw v a b o sb p ew s := rfl
@[simp] theorem exec_vgl {v a b o sb m ew} {s : State} : exec (.vgl v a b o sb m ew) s = execVgl v a b o sb m ew s := rfl
@[simp] theorem exec_vscc {v a b o sb p ew} {s : State} : exec (.vscc v a b o sb p ew) s = execVscc v a b o sb p ew s := rfl
@[simp] theorem exec_vamoadd {v a b o ret m} {s : State} : exec (.vamoadd v a b o ret m) s = execVamoadd v a b o ret m s := rfl
@[simp] theorem exec_vamoand {v a b o ret m} {s : State} : exec (.vamoand v a b o ret m) s = execVamoand v a b o ret m s := rfl
@[simp] theorem exec_vamoor {v a b o ret m} {s : State} : exec (.vamoor v a b o ret m) s = execVamoor v a b o ret m s := rfl
@[simp] theorem exec_vamoxor {v a b o ret m} {s : State} : exec (.vamoxor v a b o ret m) s = execVamoxor v a b o ret m s := rfl
@[simp] theorem exec_vamomin {v a b o ret m} {s : State} : exec (.vamomin v a b o ret m) s = execVamomin v a b o ret m s := rfl
@[simp] theorem exec_vamomax {v a b o ret m} {s : State} : exec (.vamomax v a b o ret m) s = execVamomax v a b o ret m s := rfl
@[simp] theorem exec_vamominn {v a b o ret m} {s : State} : exec (.vamominn v a b o ret m) s = execVamominn v a b o ret m s := rfl
@[simp] theorem exec_vamomaxn {v a b o ret m} {s : State} : exec (.vamomaxn v a b o ret m) s = execVamomaxn v a b o ret m s := rfl
@[simp] theorem exec_vamoswap {v a b o ret m} {s : State} : exec (.vamoswap v a b o ret m) s = execVamoswap v a b o ret m s := rfl
@[simp] theorem exec_vamofadd {v a b o ret m} {s : State} : exec (.vamofadd v a b o ret m) s = execVamofadd v a b o ret m s := rfl
@[simp] theorem exec_vwait {v a b o ret m} {s : State} : exec (.vwait v a b o ret m) s = execVwait v a b o ret m s := rfl
@[simp] theorem exec_vadd {vd va vb m} {s : State} : exec (.vadd vd va vb m) s = execVadd vd va vb m s := rfl
@[simp] theorem exec_vsub {vd va vb m} {s : State} : exec (.vsub vd va vb m) s = execVsub vd va vb m s := rfl
@[simp] theorem exec_vrsub {vd va vb m} {s : State} : exec (.vrsub vd va vb m) s = execVrsub vd va vb m s := rfl
@[simp] theorem exec_vmul {vd va vb m} {s : State} : exec (.vmul vd va vb m) s = execVmul vd va vb m s := rfl
@[simp] theorem exec_vmulh {vd va vb m} {s : State} : exec (.vmulh vd va vb m) s = execVmulh vd va vb m s := rfl
@[simp] theorem exec_vmulhn {vd va vb m} {s : State} : exec (.vmulhn vd va vb m) s = execVmulhn vd va vb m s := rfl
@[simp] theorem exec_vdiv {vd va vb m} {s : State} : exec (.vdiv vd va vb m) s = execVdiv vd va vb m s := rfl
@[simp] theorem exec_vdivn {vd va vb m} {s : State} : exec (.vdivn vd va vb m) s = execVdivn vd va vb m s := rfl
@[simp] theorem exec_vrem {vd va vb m} {s : State} : exec (.vrem vd va vb m) s = execVrem vd va vb m s := rfl
@[simp] theorem exec_vremn {vd va vb m} {s : State} : exec (.vremn vd va vb m) s = execVremn vd va vb m s := rfl
@[simp] theorem exec_vmin {vd va vb m} {s : State} : exec (.vmin vd va vb m) s = execVmin vd va vb m s := rfl
@[simp] theorem exec_vmax {vd va vb m} {s : State} : exec (.vmax vd va vb m) s = execVmax vd va vb m s := rfl
@[simp] theorem exec_vminn {vd va vb m} {s : State} : exec (.vminn vd va vb m) s = execVminn vd va vb m s := rfl
@[simp] theorem exec_vmaxn {vd va vb m} {s : State} : exec (.vmaxn vd va vb m) s = execVmaxn vd va vb m s := rfl
@[simp] theorem exec_vand {vd va vb m} {s : State} : exec (.vand vd va vb m) s = execVand vd va vb m s := rfl
@[simp] theorem exec_vor {vd va vb m} {s : State} : exec (.vor vd va vb m) s = execVor vd va vb m s := rfl
@[simp] theorem exec_vxor {vd va vb m} {s : State} : exec (.vxor vd va vb m) s = execVxor vd va vb m s := rfl
@[simp] theorem exec_vsll {vd va vb m} {s : State} : exec (.vsll vd va vb m) s = execVsll vd va vb m s := rfl
@[simp] theorem exec_vsrl {vd va vb m} {s : State} : exec (.vsrl vd va vb m) s = execVsrl vd va vb m s := rfl
@[simp] theorem exec_vsra {vd va vb m} {s : State} : exec (.vsra vd va vb m) s = execVsra vd va vb m s := rfl
@[simp] theorem exec_vadds {vd va vb m} {s : State} : exec (.vadds vd va vb m) s = execVadds vd va vb m s := rfl
@[simp] theorem exec_vsubs {vd va vb m} {s : State} : exec (.vsubs vd va vb m) s = execVsubs vd va vb m s := rfl
@[simp] theorem exec_vaddsn {vd va vb m} {s : State} : exec (.vaddsn vd va vb m) s = execVaddsn vd va vb m s := rfl
@[simp] theorem exec_vsubsn {vd va vb m} {s : State} : exec (.vsubsn vd va vb m) s = execVsubsn vd va vb m s := rfl
@[simp] theorem exec_vmacc {vd va vb m} {s : State} : exec (.vmacc vd va vb m) s = execVmacc vd va vb m s := rfl
@[simp] theorem exec_vnmsac {vd va vb m} {s : State} : exec (.vnmsac vd va vb m) s = execVnmsac vd va vb m s := rfl
@[simp] theorem exec_vwmul {vd va vb m} {s : State} : exec (.vwmul vd va vb m) s = execVwmul vd va vb m s := rfl
@[simp] theorem exec_vnsrl {vd va vb m} {s : State} : exec (.vnsrl vd va vb m) s = execVnsrl vd va vb m s := rfl
@[simp] theorem exec_vfadd {vd va vb m} {s : State} : exec (.vfadd vd va vb m) s = execVfadd vd va vb m s := rfl
@[simp] theorem exec_vfsub {vd va vb m} {s : State} : exec (.vfsub vd va vb m) s = execVfsub vd va vb m s := rfl
@[simp] theorem exec_vfmul {vd va vb m} {s : State} : exec (.vfmul vd va vb m) s = execVfmul vd va vb m s := rfl
@[simp] theorem exec_vfdiv {vd va vb m} {s : State} : exec (.vfdiv vd va vb m) s = execVfdiv vd va vb m s := rfl
@[simp] theorem exec_vfsqrt {vd va m} {s : State} : exec (.vfsqrt vd va m) s = execVfsqrt vd va m s := rfl
@[simp] theorem exec_vfrsqe {vd va m} {s : State} : exec (.vfrsqe vd va m) s = execVfrsqe vd va m s := rfl
@[simp] theorem exec_vfexp2 {vd va m} {s : State} : exec (.vfexp2 vd va m) s = execVfexp2 vd va m s := rfl
@[simp] theorem exec_vfmadd {vd va vb m} {s : State} : exec (.vfmadd vd va vb m) s = execVfmadd vd va vb m s := rfl
@[simp] theorem exec_vfnmadd {vd va vb m} {s : State} : exec (.vfnmadd vd va vb m) s = execVfnmadd vd va vb m s := rfl
@[simp] theorem exec_vfmsub {vd va vb m} {s : State} : exec (.vfmsub vd va vb m) s = execVfmsub vd va vb m s := rfl
@[simp] theorem exec_vfmin {vd va vb m} {s : State} : exec (.vfmin vd va vb m) s = execVfmin vd va vb m s := rfl
@[simp] theorem exec_vfmax {vd va vb m} {s : State} : exec (.vfmax vd va vb m) s = execVfmax vd va vb m s := rfl
@[simp] theorem exec_vfabs {vd va m} {s : State} : exec (.vfabs vd va m) s = execVfabs vd va m s := rfl
@[simp] theorem exec_vfneg {vd va m} {s : State} : exec (.vfneg vd va m) s = execVfneg vd va m s := rfl
@[simp] theorem exec_vfsgnj {vd va vb m} {s : State} : exec (.vfsgnj vd va vb m) s = execVfsgnj vd va vb m s := rfl
@[simp] theorem exec_vfclass {vd va m} {s : State} : exec (.vfclass vd va m) s = execVfclass vd va m s := rfl
@[simp] theorem exec_vcvtf64 {vd va cv m} {s : State} : exec (.vcvtf64 vd va cv m) s = execVcvtf64 vd va cv m s := rfl
@[simp] theorem exec_vcvtf32 {vd va cv m} {s : State} : exec (.vcvtf32 vd va cv m) s = execVcvtf32 vd va cv m s := rfl
@[simp] theorem exec_vcvtf16 {vd va cv m} {s : State} : exec (.vcvtf16 vd va cv m) s = execVcvtf16 vd va cv m s := rfl
@[simp] theorem exec_vcvtbf16 {vd va cv m} {s : State} : exec (.vcvtbf16 vd va cv m) s = execVcvtbf16 vd va cv m s := rfl
@[simp] theorem exec_vcvte4m3 {vd va cv m} {s : State} : exec (.vcvte4m3 vd va cv m) s = execVcvte4m3 vd va cv m s := rfl
@[simp] theorem exec_vcvte5m2 {vd va cv m} {s : State} : exec (.vcvte5m2 vd va cv m) s = execVcvte5m2 vd va cv m s := rfl
@[simp] theorem exec_vcvte4m3s {vd va cv m} {s : State} : exec (.vcvte4m3s vd va cv m) s = execVcvte4m3s vd va cv m s := rfl
@[simp] theorem exec_vcvte5m2s {vd va cv m} {s : State} : exec (.vcvte5m2s vd va cv m) s = execVcvte5m2s vd va cv m s := rfl
@[simp] theorem exec_vcvti8 {vd va cv m} {s : State} : exec (.vcvti8 vd va cv m) s = execVcvti8 vd va cv m s := rfl
@[simp] theorem exec_vcvti16 {vd va cv m} {s : State} : exec (.vcvti16 vd va cv m) s = execVcvti16 vd va cv m s := rfl
@[simp] theorem exec_vcvti32 {vd va cv m} {s : State} : exec (.vcvti32 vd va cv m) s = execVcvti32 vd va cv m s := rfl
@[simp] theorem exec_vcvti64 {vd va cv m} {s : State} : exec (.vcvti64 vd va cv m) s = execVcvti64 vd va cv m s := rfl
@[simp] theorem exec_vcvtfi {vd va m} {s : State} : exec (.vcvtfi vd va m) s = execVcvtfi vd va m s := rfl
@[simp] theorem exec_vqnt {vd va vb k m} {s : State} : exec (.vqnt vd va vb k m) s = execVqnt vd va vb k m s := rfl
@[simp] theorem exec_vdeq {vd va vb k m} {s : State} : exec (.vdeq vd va vb k m) s = execVdeq vd va vb k m s := rfl
@[simp] theorem exec_vmxq {vd va vb k m} {s : State} : exec (.vmxq vd va vb k m) s = execVmxq vd va vb k m s := rfl
@[simp] theorem exec_vmxd {vd va vb k m} {s : State} : exec (.vmxd vd va vb k m) s = execVmxd vd va vb k m s := rfl
@[simp] theorem exec_vslup {vd va xb m} {s : State} : exec (.vslup vd va xb m) s = execVslup vd va xb m s := rfl
@[simp] theorem exec_vsldn {vd va xb m} {s : State} : exec (.vsldn vd va xb m) s = execVsldn vd va xb m s := rfl
@[simp] theorem exec_vrot {vd va xb m} {s : State} : exec (.vrot vd va xb m) s = execVrot vd va xb m s := rfl
@[simp] theorem exec_vperm {vd va vb m} {s : State} : exec (.vperm vd va vb m) s = execVperm vd va vb m s := rfl
@[simp] theorem exec_vbcast {vd va xb m} {s : State} : exec (.vbcast vd va xb m) s = execVbcast vd va xb m s := rfl
@[simp] theorem exec_vmvxs {xd va} {s : State} : exec (.vmvxs xd va) s = execVmvxs xd va s := rfl
@[simp] theorem exec_vmvsx {vd xb m} {s : State} : exec (.vmvsx vd xb m) s = execVmvsx vd xb m s := rfl
@[simp] theorem exec_vzip {vd va vb m} {s : State} : exec (.vzip vd va vb m) s = execVzip vd va vb m s := rfl
@[simp] theorem exec_vunzip {vd va xb m} {s : State} : exec (.vunzip vd va xb m) s = execVunzip vd va xb m s := rfl
@[simp] theorem exec_vrev {vd va m} {s : State} : exec (.vrev vd va m) s = execVrev vd va m s := rfl
@[simp] theorem exec_vmerge {vd va vb m} {s : State} : exec (.vmerge vd va vb m) s = execVmerge vd va vb m s := rfl
@[simp] theorem exec_vmv {vd va m} {s : State} : exec (.vmv vd va m) s = execVmv vd va m s := rfl
@[simp] theorem exec_vcompress {vd va m} {s : State} : exec (.vcompress vd va m) s = execVcompress vd va m s := rfl
@[simp] theorem exec_vexpand {vd va m} {s : State} : exec (.vexpand vd va m) s = execVexpand vd va m s := rfl
@[simp] theorem exec_vpopx {vd m} {s : State} : exec (.vpopx vd m) s = execVpopx vd m s := rfl
@[simp] theorem exec_vconf {md va m} {s : State} : exec (.vconf md va m) s = execVconf md va m s := rfl
@[simp] theorem exec_vsscan {vd va h m} {s : State} : exec (.vsscan vd va h m) s = execVsscan vd va h m s := rfl
@[simp] theorem exec_vsscanmax {vd va h m} {s : State} : exec (.vsscanmax vd va h m) s = execVsscanmax vd va h m s := rfl
@[simp] theorem exec_vfsscan {vd va h m} {s : State} : exec (.vfsscan vd va h m) s = execVfsscan vd va h m s := rfl
@[simp] theorem exec_vfirst {d ma m} {s : State} : exec (.vfirst d ma m) s = execVfirst d ma m s := rfl
@[simp] theorem exec_vcpop {d ma m} {s : State} : exec (.vcpop d ma m) s = execVcpop d ma m s := rfl
@[simp] theorem exec_viota {d ma m} {s : State} : exec (.viota d ma m) s = execViota d ma m s := rfl
@[simp] theorem exec_vblklist {vd va xb} {s : State} : exec (.vblklist vd va xb) s = execVblklist vd va xb s := rfl
@[simp] theorem exec_vredsum {vd va vb m} {s : State} : exec (.vredsum vd va vb m) s = execVredsum vd va vb m s := rfl
@[simp] theorem exec_vredmax {vd va vb m} {s : State} : exec (.vredmax vd va vb m) s = execVredmax vd va vb m s := rfl
@[simp] theorem exec_vredmin {vd va vb m} {s : State} : exec (.vredmin vd va vb m) s = execVredmin vd va vb m s := rfl
@[simp] theorem exec_vredmaxn {vd va vb m} {s : State} : exec (.vredmaxn vd va vb m) s = execVredmaxn vd va vb m s := rfl
@[simp] theorem exec_vredminn {vd va vb m} {s : State} : exec (.vredminn vd va vb m) s = execVredminn vd va vb m s := rfl
@[simp] theorem exec_vredand {vd va vb m} {s : State} : exec (.vredand vd va vb m) s = execVredand vd va vb m s := rfl
@[simp] theorem exec_vredor {vd va vb m} {s : State} : exec (.vredor vd va vb m) s = execVredor vd va vb m s := rfl
@[simp] theorem exec_vredxor {vd va vb m} {s : State} : exec (.vredxor vd va vb m) s = execVredxor vd va vb m s := rfl
@[simp] theorem exec_vfredo {vd va vb m} {s : State} : exec (.vfredo vd va vb m) s = execVfredo vd va vb m s := rfl
@[simp] theorem exec_vfredt {vd va vb m} {s : State} : exec (.vfredt vd va vb m) s = execVfredt vd va vb m s := rfl
@[simp] theorem exec_vfredmax {vd va vb m} {s : State} : exec (.vfredmax vd va vb m) s = execVfredmax vd va vb m s := rfl
@[simp] theorem exec_vfredmin {vd va vb m} {s : State} : exec (.vfredmin vd va vb m) s = execVfredmin vd va vb m s := rfl
@[simp] theorem exec_vtopk {vd va xb m} {s : State} : exec (.vtopk vd va xb m) s = execVtopk vd va xb m s := rfl
@[simp] theorem exec_vtopkm {d a b} {s : State} : exec (.vtopkm d a b) s = execVtopkm d a b s := rfl
@[simp] theorem exec_vmseq {md va vb m} {s : State} : exec (.vmseq md va vb m) s = execVmseq md va vb m s := rfl
@[simp] theorem exec_vmsne {md va vb m} {s : State} : exec (.vmsne md va vb m) s = execVmsne md va vb m s := rfl
@[simp] theorem exec_vmslt {md va vb m} {s : State} : exec (.vmslt md va vb m) s = execVmslt md va vb m s := rfl
@[simp] theorem exec_vmsltn {md va vb m} {s : State} : exec (.vmsltn md va vb m) s = execVmsltn md va vb m s := rfl
@[simp] theorem exec_vmsle {md va vb m} {s : State} : exec (.vmsle md va vb m) s = execVmsle md va vb m s := rfl
@[simp] theorem exec_vmslen {md va vb m} {s : State} : exec (.vmslen md va vb m) s = execVmslen md va vb m s := rfl
@[simp] theorem exec_vmfeq {md va vb m} {s : State} : exec (.vmfeq md va vb m) s = execVmfeq md va vb m s := rfl
@[simp] theorem exec_vmflt {md va vb m} {s : State} : exec (.vmflt md va vb m) s = execVmflt md va vb m s := rfl
@[simp] theorem exec_vmfle {md va vb m} {s : State} : exec (.vmfle md va vb m) s = execVmfle md va vb m s := rfl
@[simp] theorem exec_vmfnan {md va m} {s : State} : exec (.vmfnan md va m) s = execVmfnan md va m s := rfl
@[simp] theorem exec_vmand {md ma mb} {s : State} : exec (.vmand md ma mb) s = execVmand md ma mb s := rfl
@[simp] theorem exec_vmor {md ma mb} {s : State} : exec (.vmor md ma mb) s = execVmor md ma mb s := rfl
@[simp] theorem exec_vmxor {md ma mb} {s : State} : exec (.vmxor md ma mb) s = execVmxor md ma mb s := rfl
@[simp] theorem exec_vmandn {md ma mb} {s : State} : exec (.vmandn md ma mb) s = execVmandn md ma mb s := rfl
@[simp] theorem exec_vmnot {md ma} {s : State} : exec (.vmnot md ma) s = execVmnot md ma s := rfl
@[simp] theorem exec_vmmv {md ma} {s : State} : exec (.vmmv md ma) s = execVmmv md ma s := rfl
@[simp] theorem exec_vmmvc {md} {s : State} : exec (.vmmvc md) s = execVmmvc md s := rfl
@[simp] theorem exec_vmfromx {md xa xb} {s : State} : exec (.vmfromx md xa xb) s = execVmfromx md xa xb s := rfl
@[simp] theorem exec_vmtox {xd ma xb} {s : State} : exec (.vmtox xd ma xb) s = execVmtox xd ma xb s := rfl
@[simp] theorem exec_tclaim {xd acc int} {s : State} : exec (.tclaim xd acc int) s = execTclaim xd acc int s := rfl
@[simp] theorem exec_tfree {acc} {s : State} : exec (.tfree acc) s = execTfree acc s := rfl
@[simp] theorem exec_tzero {acc int} {s : State} : exec (.tzero acc int) s = execTzero acc int s := rfl
@[simp] theorem exec_trdrow {vd acc xa} {s : State} : exec (.trdrow vd acc xa) s = execTrdrow vd acc xa s := rfl
@[simp] theorem exec_trdcol {vd acc xa} {s : State} : exec (.trdcol vd acc xa) s = execTrdcol vd acc xa s := rfl
@[simp] theorem exec_twrrow {acc xa vb} {s : State} : exec (.twrrow acc xa vb) s = execTwrrow acc xa vb s := rfl
@[simp] theorem exec_twrcol {acc xa vb} {s : State} : exec (.twrcol acc xa vb) s = execTwrcol acc xa vb s := rfl
@[simp] theorem exec_tstat {xd acc} {s : State} : exec (.tstat xd acc) s = execTstat xd acc s := rfl
@[simp] theorem exec_tmop {acc f src rp sub sat} {s : State} : exec (.tmop acc f src rp sub sat) s = execTmop acc f src rp sub sat s := rfl
@[simp] theorem exec_tmopMs {acc f va vb rp sub sat} {s : State} : exec (.tmopMs acc f va vb rp sub sat) s = execTmopMs acc f va vb rp sub sat s := rfl
@[simp] theorem exec_qcfg {ring a b} {s : State} : exec (.qcfg ring a b) s = execQcfg ring a b s := rfl
@[simp] theorem exec_qpush {dst vs} {s : State} : exec (.qpush dst vs) s = execQpush dst vs s := rfl
@[simp] theorem exec_qpop {vd src} {s : State} : exec (.qpop vd src) s = execQpop vd src s := rfl
@[simp] theorem exec_qwait {xd src xb} {s : State} : exec (.qwait xd src xb) s = execQwait xd src xb s := rfl
@[simp] theorem exec_qzf {xd ring xb} {s : State} : exec (.qzf xd ring xb) s = execQzf xd ring xb s := rfl
@[simp] theorem exec_ccmap {d a} {s : State} : exec (.ccmap d a) s = execCcmap d a s := rfl
@[simp] theorem exec_ccunmap {a} {s : State} : exec (.ccunmap a) s = execCcunmap a s := rfl
@[simp] theorem exec_ccflush {a} {s : State} : exec (.ccflush a) s = execCcflush a s := rfl
@[simp] theorem exec_ccstat {d a} {s : State} : exec (.ccstat d a) s = execCcstat d a s := rfl
@[simp] theorem exec_fx {slot vd va vb xs} {s : State} : exec (.fx slot vd va vb xs) s = execFx slot vd va vb xs s := rfl
@[simp] theorem exec_fxC {slot vd va vb xs} {s : State} : exec (.fxC slot vd va vb xs) s = execFxC slot vd va vb xs s := rfl
@[simp] theorem exec_fxbind {d a b} {s : State} : exec (.fxbind d a b) s = execFxbind d a b s := rfl
@[simp] theorem exec_fxunbind {a} {s : State} : exec (.fxunbind a) s = execFxunbind a s := rfl
@[simp] theorem exec_fxstat {d a} {s : State} : exec (.fxstat d a) s = execFxstat d a s := rfl
@[simp] theorem exec_fxquery {d a b} {s : State} : exec (.fxquery d a b) s = execFxquery d a b s := rfl
@[simp] theorem exec_fxpin {d a} {s : State} : exec (.fxpin d a) s = execFxpin d a s := rfl
@[simp] theorem exec_fxunpin {a} {s : State} : exec (.fxunpin a) s = execFxunpin a s := rfl
@[simp] theorem exec_recv {d a} {s : State} : exec (.recv d a) s = execRecv d a s := rfl
@[simp] theorem exec_send {d a} {s : State} : exec (.send d a) s = execSend d a s := rfl
@[simp] theorem exec_sendE {d a} {s : State} : exec (.sendE d a) s = execSendE d a s := rfl
@[simp] theorem exec_steer {d a b} {s : State} : exec (.steer d a b) s = execSteer d a b s := rfl
@[simp] theorem exec_merge {d a b} {s : State} : exec (.merge d a b) s = execMerge d a b s := rfl
@[simp] theorem exec_prime {d a} {s : State} : exec (.prime d a) s = execPrime d a s := rfl
@[simp] theorem exec_tokw {a} {s : State} : exec (.tokw a) s = execTokw a s := rfl
@[simp] theorem exec_toks {d} {s : State} : exec (.toks d) s = execToks d s := rfl
@[simp] theorem exec_lpeek {d a} {s : State} : exec (.lpeek d a) s = execLpeek d a s := rfl
@[simp] theorem exec_cpy1d {d a b} {s : State} : exec (.cpy1d d a b) s = execCpy1d d a b s := rfl
@[simp] theorem exec_cpybox {d a b} {s : State} : exec (.cpybox d a b) s = execCpybox d a b s := rfl
@[simp] theorem exec_cpyfill {d a b} {s : State} : exec (.cpyfill d a b) s = execCpyfill d a b s := rfl
@[simp] theorem exec_cwait {a b} {s : State} : exec (.cwait a b) s = execCwait a b s := rfl
@[simp] theorem exec_cstat {d a} {s : State} : exec (.cstat d a) s = execCstat d a s := rfl
@[simp] theorem exec_cpyarm {a b} {s : State} : exec (.cpyarm a b) s = execCpyarm a b s := rfl
@[simp] theorem exec_fence {kinds sc} {s : State} : exec (.fence kinds sc) s = execFence kinds sc s := rfl
@[simp] theorem exec_barinit {d a b} {s : State} : exec (.barinit d a b) s = execBarinit d a b s := rfl
@[simp] theorem exec_barrive {d a b} {s : State} : exec (.barrive d a b) s = execBarrive d a b s := rfl
@[simp] theorem exec_barwait {a b} {s : State} : exec (.barwait a b) s = execBarwait a b s := rfl
@[simp] theorem exec_barpoll {d a} {s : State} : exec (.barpoll d a) s = execBarpoll d a s := rfl
@[simp] theorem exec_hbeat {s : State} : exec .hbeat s = execHbeat s := rfl
@[simp] theorem exec_uien {d a} {s : State} : exec (.uien d a) s = execUien d a s := rfl
@[simp] theorem exec_uidis {d a} {s : State} : exec (.uidis d a) s = execUidis d a s := rfl
@[simp] theorem exec_yield {s : State} : exec .yield s = execYield s := rfl
@[simp] theorem exec_tspawn {d a} {s : State} : exec (.tspawn d a) s = execTspawn d a s := rfl
@[simp] theorem exec_trun {d a b} {s : State} : exec (.trun d a b) s = execTrun d a b s := rfl
@[simp] theorem exec_tdone {s : State} : exec .tdone s = execTdone s := rfl
@[simp] theorem exec_tfut {d a} {s : State} : exec (.tfut d a) s = execTfut d a s := rfl
@[simp] theorem exec_tfset {a b} {s : State} : exec (.tfset a b) s = execTfset a b s := rfl
@[simp] theorem exec_tfwait {d a} {s : State} : exec (.tfwait d a) s = execTfwait d a s := rfl
@[simp] theorem exec_tqcfg {d a b} {s : State} : exec (.tqcfg d a b) s = execTqcfg d a b s := rfl
@[simp] theorem exec_sfarm {d a b} {s : State} : exec (.sfarm d a b) s = execSfarm d a b s := rfl
@[simp] theorem exec_spub {d a} {s : State} : exec (.spub d a) s = execSpub d a s := rfl
@[simp] theorem exec_sspawn {d a b} {s : State} : exec (.sspawn d a b) s = execSspawn d a b s := rfl
@[simp] theorem exec_sstat {d a} {s : State} : exec (.sstat d a) s = execSstat d a s := rfl
@[simp] theorem exec_sabort {d a} {s : State} : exec (.sabort d a) s = execSabort d a s := rfl
@[simp] theorem exec_sqinit {d a} {s : State} : exec (.sqinit d a) s = execSqinit d a s := rfl
@[simp] theorem exec_sqtab {d a} {s : State} : exec (.sqtab d a) s = execSqtab d a s := rfl
@[simp] theorem exec_sqadd {d a} {s : State} : exec (.sqadd d a) s = execSqadd d a s := rfl
@[simp] theorem exec_sqgo {d} {s : State} : exec (.sqgo d) s = execSqgo d s := rfl
@[simp] theorem exec_sqstat {d a} {s : State} : exec (.sqstat d a) s = execSqstat d a s := rfl
@[simp] theorem exec_sqend {d} {s : State} : exec (.sqend d) s = execSqend d s := rfl
@[simp] theorem exec_doorbellWrite {qid tail} {s : State} : exec (.doorbellWrite qid tail) s = execDoorbellWrite qid tail s := rfl
@[simp] theorem exec_qcmdEnable {qid} {s : State} : exec (.qcmdEnable qid) s = execQcmdEnable qid s := rfl
@[simp] theorem exec_qcmdDisable {qid} {s : State} : exec (.qcmdDisable qid) s = execQcmdDisable qid s := rfl
@[simp] theorem exec_qcmdReset {qid} {s : State} : exec (.qcmdReset qid) s = execQcmdReset qid s := rfl
@[simp] theorem exec_registerWrite {off v} {s : State} : exec (.registerWrite off v) s = execRegisterWrite off v s := rfl
@[simp] theorem exec_quantumBoundary {s : State} : exec .quantumBoundary s = execQuantumBoundary s := rfl
@[simp] theorem exec_slotLoadComplete {slot} {s : State} : exec (.slotLoadComplete slot) s = execSlotLoadComplete slot s := rfl
@[simp] theorem exec_recordAccept {s : State} : exec .recordAccept s = execRecordAccept s := rfl
@[simp] theorem exec_imageCheck {kernel} {s : State} : exec (.imageCheck kernel) s = execImageCheck kernel s := rfl
@[simp] theorem exec_depWatchReevaluate {slot} {s : State} : exec (.depWatchReevaluate slot) s = execDepWatchReevaluate slot s := rfl
@[simp] theorem exec_depPoll {slot} {s : State} : exec (.depPoll slot) s = execDepPoll slot s := rfl
@[simp] theorem exec_kernelCompletion {kernel} {s : State} : exec (.kernelCompletion kernel) s = execKernelCompletion kernel s := rfl
@[simp] theorem exec_placementEvent {die} {s : State} : exec (.placementEvent die) s = execPlacementEvent die s := rfl
@[simp] theorem exec_backfillStop {die} {s : State} : exec (.backfillStop die) s = execBackfillStop die s := rfl
@[simp] theorem exec_spiracleGrantWrite {core page second v} {s : State} : exec (.spiracleGrantWrite core page second v) s = execSpiracleGrantWrite core page second v s := rfl
@[simp] theorem exec_pageMoveEnd {core asid slot} {s : State} : exec (.pageMoveEnd core asid slot) s = execPageMoveEnd core asid slot s := rfl
@[simp] theorem exec_pageContextLoadComplete {strand page} {s : State} : exec (.pageContextLoadComplete strand page) s = execPageContextLoadComplete strand page s := rfl
@[simp] theorem exec_blockFetchComplete {strand cell} {s : State} : exec (.blockFetchComplete strand cell) s = execBlockFetchComplete strand cell s := rfl
@[simp] theorem exec_flitTransfer {strand cell chan} {s : State} : exec (.flitTransfer strand cell chan) s = execFlitTransfer strand cell chan s := rfl
@[simp] theorem exec_streamInputDelivery {strand portB} {s : State} : exec (.streamInputDelivery strand portB) s = execStreamInputDelivery strand portB s := rfl
@[simp] theorem exec_streamOutputTake {strand} {s : State} : exec (.streamOutputTake strand) s = execStreamOutputTake strand s := rfl
@[simp] theorem exec_invocationComplete {strand} {s : State} : exec (.invocationComplete strand) s = execInvocationComplete strand s := rfl
@[simp] theorem exec_fabricStop {strand} {s : State} : exec (.fabricStop strand) s = execFabricStop strand s := rfl
@[simp] theorem exec_fabricDeadlock {strand} {s : State} : exec (.fabricDeadlock strand) s = execFabricDeadlock strand s := rfl
@[simp] theorem exec_homeRead {core word} {s : State} : exec (.homeRead core word) s = execHomeRead core word s := rfl
@[simp] theorem exec_registration {core word} {s : State} : exec (.registration core word) s = execRegistration core word s := rfl
@[simp] theorem exec_l1Eviction {core word} {s : State} : exec (.l1Eviction core word) s = execL1Eviction core word s := rfl
@[simp] theorem exec_l2Eviction {die sector} {s : State} : exec (.l2Eviction die sector) s = execL2Eviction die sector s := rfl
@[simp] theorem exec_sectorFill {die sector} {s : State} : exec (.sectorFill die sector) s = execSectorFill die sector s := rfl
@[simp] theorem exec_cocoonFill {strand cocoon sector} {s : State} : exec (.cocoonFill strand cocoon sector) s = execCocoonFill strand cocoon sector s := rfl
@[simp] theorem exec_requestResend {core word} {s : State} : exec (.requestResend core word) s = execRequestResend core word s := rfl
@[simp] theorem exec_memTimeout {strand} {s : State} : exec (.memTimeout strand) s = execMemTimeout strand s := rfl
@[simp] theorem exec_snoopInvalidate {line} {s : State} : exec (.snoopInvalidate line) s = execSnoopInvalidate line s := rfl
@[simp] theorem exec_snoopData {line} {s : State} : exec (.snoopData line) s = execSnoopData line s := rfl
@[simp] theorem exec_hostHdmRequest {word data} {s : State} : exec (.hostHdmRequest word data) s = execHostHdmRequest word data s := rfl
@[simp] theorem exec_poolShelfFailure {port base limit} {s : State} : exec (.poolShelfFailure port base limit) s = execPoolShelfFailure port base limit s := rfl
@[simp] theorem exec_lostRangeWithdraw {entry} {s : State} : exec (.lostRangeWithdraw entry) s = execLostRangeWithdraw entry s := rfl
@[simp] theorem exec_transferComplete {strand chan id} {s : State} : exec (.transferComplete strand chan id) s = execTransferComplete strand chan id s := rfl
@[simp] theorem exec_transferFault {strand chan} {s : State} : exec (.transferFault strand chan) s = execTransferFault strand chan s := rfl
@[simp] theorem exec_linkedPhaseSeen {group barrier} {s : State} : exec (.linkedPhaseSeen group barrier) s = execLinkedPhaseSeen group barrier s := rfl
@[simp] theorem exec_uiDelivery {strand} {s : State} : exec (.uiDelivery strand) s = execUiDelivery strand s := rfl
@[simp] theorem exec_wfeTimeout {strand} {s : State} : exec (.wfeTimeout strand) s = execWfeTimeout strand s := rfl
@[simp] theorem exec_vwaitWatchMet {strand} {s : State} : exec (.vwaitWatchMet strand) s = execVwaitWatchMet strand s := rfl
@[simp] theorem exec_tileZeroComplete {core tile} {s : State} : exec (.tileZeroComplete core tile) s = execTileZeroComplete core tile s := rfl
@[simp] theorem exec_scmdPreempt {strand} {s : State} : exec (.scmdPreempt strand) s = execScmdPreempt strand s := rfl
@[simp] theorem exec_preemptSaveComplete {strand} {s : State} : exec (.preemptSaveComplete strand) s = execPreemptSaveComplete strand s := rfl
@[simp] theorem exec_scmdRestore {strand} {s : State} : exec (.scmdRestore strand) s = execScmdRestore strand s := rfl
@[simp] theorem exec_taskReady {die entry} {s : State} : exec (.taskReady die entry) s = execTaskReady die entry s := rfl
@[simp] theorem exec_trunTimeout {strand} {s : State} : exec (.trunTimeout strand) s = execTrunTimeout strand s := rfl
@[simp] theorem exec_forecastDecision {die slot} {s : State} : exec (.forecastDecision die slot) s = execForecastDecision die slot s := rfl
@[simp] theorem exec_sqStageLaunch {die} {s : State} : exec (.sqStageLaunch die) s = execSqStageLaunch die s := rfl
@[simp] theorem exec_sqStageComplete {die} {s : State} : exec (.sqStageComplete die) s = execSqStageComplete die s := rfl
@[simp] theorem exec_sqDecision {die} {s : State} : exec (.sqDecision die) s = execSqDecision die s := rfl
@[simp] theorem exec_heartbeatExpire {kernel} {s : State} : exec (.heartbeatExpire kernel) s = execHeartbeatExpire kernel s := rfl
@[simp] theorem exec_runtimeExpire {kernel} {s : State} : exec (.runtimeExpire kernel) s = execRuntimeExpire kernel s := rfl
@[simp] theorem exec_executiveWatchdog {strand} {s : State} : exec (.executiveWatchdog strand) s = execExecutiveWatchdog strand s := rfl
@[simp] theorem exec_kcmdResume {self} {s : State} : exec (.kcmdResume self) s = execKcmdResume self s := rfl
@[simp] theorem exec_kcmdEnd {self} {s : State} : exec (.kcmdEnd self) s = execKcmdEnd self s := rfl
@[simp] theorem exec_kcmdCancel {self} {s : State} : exec (.kcmdCancel self) s = execKcmdCancel self s := rfl
@[simp] theorem exec_kcmdFault {self} {s : State} : exec (.kcmdFault self) s = execKcmdFault self s := rfl
@[simp] theorem exec_dbgctlHalt {core} {s : State} : exec (.dbgctlHalt core) s = execDbgctlHalt core s := rfl
@[simp] theorem exec_dbgctlResume {core} {s : State} : exec (.dbgctlResume core) s = execDbgctlResume core s := rfl
@[simp] theorem exec_debugSettleTimeout {core} {s : State} : exec (.debugSettleTimeout core) s = execDebugSettleTimeout core s := rfl
@[simp] theorem exec_dbgdloRead {core} {s : State} : exec (.dbgdloRead core) s = execDbgdloRead core s := rfl
@[simp] theorem exec_dbgdloWrite {core v} {s : State} : exec (.dbgdloWrite core v) s = execDbgdloWrite core v s := rfl
@[simp] theorem exec_dbgdhiWrite {core v} {s : State} : exec (.dbgdhiWrite core v) s = execDbgdhiWrite core v s := rfl
@[simp] theorem exec_strandEnd {strand} {s : State} : exec (.strandEnd strand) s = execStrandEnd strand s := rfl
@[simp] theorem exec_resetDeassertion {s : State} : exec .resetDeassertion s = execResetDeassertion s := rfl
@[simp] theorem exec_bootStageComplete {ok} {s : State} : exec (.bootStageComplete ok) s = execBootStageComplete ok s := rfl
@[simp] theorem exec_devctlReady {s : State} : exec .devctlReady s = execDevctlReady s := rfl
@[simp] theorem exec_atsResponse {strand page entry} {s : State} : exec (.atsResponse strand page entry) s = execAtsResponse strand page entry s := rfl
@[simp] theorem exec_priResponse {strand success} {s : State} : exec (.priResponse strand success) s = execPriResponse strand success s := rfl
@[simp] theorem exec_atsInvalidation {pasid page all} {s : State} : exec (.atsInvalidation pasid page all) s = execAtsInvalidation pasid page all s := rfl
@[simp] theorem exec_linkFlitReceive {port flit} {s : State} : exec (.linkFlitReceive port flit) s = execLinkFlitReceive port flit s := rfl
@[simp] theorem exec_linkRetrain {port} {s : State} : exec (.linkRetrain port) s = execLinkRetrain port s := rfl
@[simp] theorem exec_getVersion {s : State} : exec .getVersion s = execGetVersion s := rfl
@[simp] theorem exec_getCapabilities {s : State} : exec .getCapabilities s = execGetCapabilities s := rfl
@[simp] theorem exec_negotiateAlgorithms {algorithms} {s : State} : exec (.negotiateAlgorithms algorithms) s = execNegotiateAlgorithms algorithms s := rfl
@[simp] theorem exec_getDigests {s : State} : exec .getDigests s = execGetDigests s := rfl
@[simp] theorem exec_getCertificate {offset length} {s : State} : exec (.getCertificate offset length) s = execGetCertificate offset length s := rfl
@[simp] theorem exec_challenge {nonce} {s : State} : exec (.challenge nonce) s = execChallenge nonce s := rfl
@[simp] theorem exec_getMeasurements {index} {s : State} : exec (.getMeasurements index) s = execGetMeasurements index s := rfl
@[simp] theorem exec_correctedError {page} {s : State} : exec (.correctedError page) s = execCorrectedError page s := rfl
@[simp] theorem exec_uncorrectableError {word} {s : State} : exec (.uncorrectableError word) s = execUncorrectableError word s := rfl
@[simp] theorem exec_coreFence {core} {s : State} : exec (.coreFence core) s = execCoreFence core s := rfl
@[simp] theorem exec_dieFence {die} {s : State} : exec (.dieFence die) s = execDieFence die s := rfl
@[simp] theorem exec_selfTestPreempt {core} {s : State} : exec (.selfTestPreempt core) s = execSelfTestPreempt core s := rfl
@[simp] theorem exec_clockLower {thermal} {s : State} : exec (.clockLower thermal) s = execClockLower thermal s := rfl
@[simp] theorem exec_clockRaise {s : State} : exec .clockRaise s = execClockRaise s := rfl
@[simp] theorem exec_thermalShutdown {s : State} : exec .thermalShutdown s = execThermalShutdown s := rfl
@[simp] theorem exec_notAnInstruction {word} {s : State} : exec (.notAnInstruction word) s = execNotAnInstruction word s := rfl
@[simp] theorem exec_portLost {deviceLink port} {s : State} : exec (.portLost deviceLink port) s = execPortLost deviceLink port s := rfl
@[simp] theorem exec_portReturn {port fourLanes} {s : State} : exec (.portReturn port fourLanes) s = execPortReturn port fourLanes s := rfl
@[simp] theorem exec_noNewGroup {core} {s : State} : exec (.noNewGroup core) s = execNoNewGroup core s := rfl
@[simp] theorem exec_selfTestComplete {core} {s : State} : exec (.selfTestComplete core) s = execSelfTestComplete core s := rfl

end Sys2Proof.Machine
end

