-- ==== Sys2Proof/Laws/Vector.lean ====
section
/-! SUPPORT. Reading and writing elements of vector registers, and what the shared operation of elementwise instructions does. -/

namespace Sys2Proof.Machine
open Sys2Proof

/-! ## Bits of a register image -/

theorem testBit_getBits {n : Nat} (x : BitVec n) (lo w j : Nat) :
    (getBits x lo w).testBit j = (decide (j < w) && x.getLsbD (lo + j)) := by
  simp [getBits, Nat.testBit_mod_two_pow, Nat.testBit_div_two_pow, BitVec.testBit_toNat, Nat.add_comm]
theorem getLsbD_putBits {n : Nat} (x : BitVec n) (lo w v i : Nat) :
    (putBits x lo w v).getLsbD i = (decide (i < n) && if lo ≤ i ∧ i < lo + w then v.testBit (i - lo) else x.getLsbD i) := by
  have hm : ((2 ^ w - 1) <<< lo).testBit i = decide (lo ≤ i ∧ i < lo + w) := by
    rw [Nat.testBit_shiftLeft, Nat.testBit_two_pow_sub_one]
    by_cases h : lo ≤ i <;> simp [h]; omega
  have hv : ((v % 2 ^ w) <<< lo).testBit i = (decide (lo ≤ i ∧ i < lo + w) && v.testBit (i - lo)) := by
    rw [Nat.testBit_shiftLeft, Nat.testBit_mod_two_pow]
    by_cases h : lo ≤ i <;> simp [h]
    by_cases g : i < lo + w
    · simp [g, show i - lo < w by omega]
    · simp [g, show ¬ i - lo < w by omega]
  simp only [putBits, BitVec.getLsbD_or, BitVec.getLsbD_and, BitVec.getLsbD_not, BitVec.getLsbD_ofNat, hm, hv]
  by_cases hn : i < n
  · by_cases h : lo ≤ i ∧ i < lo + w <;> simp [hn, h]
  · simp [hn]

/-- The bits read where bits were put are those put. -/
theorem getBits_putBits_self {n : Nat} (x : BitVec n) (lo w v : Nat) (h : lo + w ≤ n) : getBits (putBits x lo w v) lo w = v % 2 ^ w := by
  apply Nat.eq_of_testBit_eq
  intro j
  rw [testBit_getBits, getLsbD_putBits, Nat.testBit_mod_two_pow]
  by_cases hj : j < w
  · simp [hj, show lo + j < n by omega]
  · simp [hj]
/-- The bits read outside those put are as before. -/
theorem getBits_putBits_of_disjoint {n : Nat} (x : BitVec n) (lo w v a u : Nat) (h : a + u ≤ lo ∨ lo + w ≤ a) :
    getBits (putBits x lo w v) a u = getBits x a u := by
  apply Nat.eq_of_testBit_eq
  intro j
  rw [testBit_getBits, testBit_getBits, getLsbD_putBits]
  by_cases hj : j < u
  · rw [if_neg (by omega)]
    by_cases hn : a + j < n
    · simp [hn]
    · simp [hn, BitVec.getLsbD_of_ge x (a + j) (by omega)]
  · simp [hj]

/-! ## Elements -/

theorem vkey_setVreg (s : State) (k v j u : Nat) (x : VecReg) : (s.setVreg k v x).vkey j u = s.vkey j u := rfl
theorem vreg_setVreg (s : State) (k v u : Nat) (x : VecReg) : (s.setVreg k v x).vreg k u = if u = v then x else s.vreg k u := by
  unfold State.vreg
  rw [vkey_setVreg, State.setVreg, sget_sput]
  have : s.vkey k u = s.vkey k v ↔ u = v := by simp [State.vkey]
  simp only [this]

theorem elem_split {w i : Nat} (hw : 4096 % w = 0) : i * w % 4096 + w ≤ 4096 := by
  obtain ⟨c, hc⟩ := Nat.dvd_of_mod_eq_zero hw
  rw [hc, Nat.mul_comm i w, Nat.mul_mod_mul_left]
  have h0 : 0 < c := by by_contra h; simp at h; subst h; simp at hc
  have h1 : i % c + 1 ≤ c := Nat.mod_lt i h0
  calc w * (i % c) + w = w * (i % c + 1) := by ring
    _ ≤ w * c := Nat.mul_le_mul_left _ h1

/-- Reading an element after an element of the same width in the same group was written. -/
theorem vget_vput (s : State) (k v w i j x : Nat) (hw : 4096 % w = 0) :
    vget (vput s k v w i x) k v w j = if j = i then x % 2 ^ w else vget s k v w j := by
  unfold vget vput
  rw [vreg_setVreg]
  by_cases hji : j = i
  · subst hji
    rw [if_pos rfl, if_pos rfl, getBits_putBits_self _ _ _ _ (elem_split hw)]
  · rw [if_neg hji]
    by_cases hr : v + j * w / 4096 = v + i * w / 4096
    · rw [if_pos hr, hr]
      apply getBits_putBits_of_disjoint
      have hq : j * w / 4096 = i * w / 4096 := by omega
      have h1 := Nat.div_add_mod (j * w) 4096
      have h2 := Nat.div_add_mod (i * w) 4096
      rcases Nat.lt_or_gt_of_ne hji with h | h
      · left
        have : (j + 1) * w ≤ i * w := Nat.mul_le_mul_right w h
        rw [Nat.add_mul, Nat.one_mul] at this
        omega
      · right
        have : (i + 1) * w ≤ j * w := Nat.mul_le_mul_right w h
        rw [Nat.add_mul, Nat.one_mul] at this
        omega
    · rw [if_neg hr]

@[simp] theorem vputs_nil (s : State) (k v w : Nat) : vputs s k v w [] = s := rfl
@[simp] theorem vputs_cons (s : State) (k v w : Nat) (p : Nat × Nat) (l : List (Nat × Nat)) :
    vputs s k v w (p :: l) = vputs (vput s k v w p.1 p.2) k v w l := rfl
/-- Writing elements changes the vector registers only. -/
theorem vputs_frame (s : State) (k v w : Nat) (l : List (Nat × Nat)) : { vputs s k v w l with vregs := s.vregs } = s := by
  induction l generalizing s with
  | nil => rfl
  | cons p t ih =>
    exact congrArg (fun u : State => { u with vregs := s.vregs }) (ih (vput s k v w p.1 p.2))
/-- Registers outside those written keep their values. -/
theorem vputs_other (s : State) (k v w c : Nat) (l : List (Nat × Nat)) (h : ∀ p ∈ l, c ≠ s.vkey k (v + p.1 * w / 4096)) :
    sget 0 (vputs s k v w l).vregs c = sget 0 s.vregs c := by
  induction l generalizing s with
  | nil => rfl
  | cons p t ih =>
    rw [vputs_cons, ih (vput s k v w p.1 p.2) (fun q hq => h q (List.mem_cons_of_mem _ hq))]
    exact sget_sput_of_ne _ _ _ (h p List.mem_cons_self)
/-- An element after a list of writes: that of the last write to it, where there is one. Here each index is written once at most. -/
theorem vget_vputs (s : State) (k v w j : Nat) (l : List (Nat × Nat)) (hw : 4096 % w = 0)
    (hl : (l.map (·.1)).Nodup) :
    vget (vputs s k v w l) k v w j = match l.find? (fun p => p.1 == j) with
      | some p => p.2 % 2 ^ w
      | none => vget s k v w j := by
  induction l generalizing s with
  | nil => rfl
  | cons p t ih =>
    simp only [List.map_cons, List.nodup_cons] at hl
    rw [vputs_cons, ih _ hl.2, List.find?_cons]
    by_cases hp : p.1 = j
    · subst hp
      have : t.find? (fun q => q.1 == p.1) = none := by
        rw [List.find?_eq_none]; intro q hq he
        exact hl.1 (List.mem_map.2 ⟨q, hq, by simpa using he⟩)
      simp [this, vget_vput _ _ _ _ _ _ _ hw]
    · have : (p.1 == j) = false := by simpa using hp
      rw [this]
      simp only []
      split
      · rfl
      · rw [vget_vput _ _ _ _ _ _ _ hw, if_neg (Ne.symm hp)]

theorem updates_nodup (t : Strand) (m : Msk) (n : Nat) (f : Nat → Option Nat) : ((updates t m n f).map (·.1)).Nodup := by
  have : (updates t m n f).map (·.1) = (List.range n).filter (fun i => (policy t m f i).isSome) := by
    unfold updates
    induction List.range n with
    | nil => rfl
    | cons a l ih =>
      simp only [List.filterMap_cons, List.filter_cons]
      cases policy t m f a <;> simp [ih]
  rw [this]
  exact List.nodup_range.filter _
theorem updates_find (t : Strand) (m : Msk) (n j : Nat) (f : Nat → Option Nat) :
    (updates t m n f).find? (fun p => p.1 == j) = if j < n then (policy t m f j).map (fun v => (j, v)) else none := by
  have gen : ∀ l : List Nat, l.Nodup → (l.filterMap (fun i => (policy t m f i).map (fun v => (i, v)))).find? (fun p => p.1 == j) =
      if j ∈ l then (policy t m f j).map (fun v => (j, v)) else none := by
    intro l
    induction l with
    | nil => simp
    | cons a l ih =>
      intro hn
      rw [List.nodup_cons] at hn
      rw [List.filterMap_cons]
      by_cases ha : a = j
      · subst ha
        cases hp : policy t m f a with
        | none => simp [ih hn.2, hn.1]
        | some v => simp
      · cases hp : policy t m f a with
        | none => simp [ih hn.2, Ne.symm ha]
        | some v => simp [ha, ih hn.2, Ne.symm ha]
  unfold updates
  rw [gen _ List.nodup_range]
  simp
/-- An element below n after an instruction's updates. -/
theorem vget_updates (s : State) (k v w n j : Nat) (t : Strand) (m : Msk) (f : Nat → Option Nat) (hw : 4096 % w = 0) (hj : j < n) :
    vget (vputs s k v w (updates t m n f)) k v w j = match policy t m f j with
      | some x => x % 2 ^ w
      | none => vget s k v w j := by
  rw [vget_vputs _ _ _ _ _ _ hw (updates_nodup t m n f), updates_find, if_pos hj]
  cases policy t m f j <;> rfl
theorem updates_mem {t : Strand} {m : Msk} {n : Nat} {f : Nat → Option Nat} {p : Nat × Nat} (h : p ∈ updates t m n f) : p.1 < n := by
  unfold updates at h
  rw [List.mem_filterMap] at h
  obtain ⟨i, hi, he⟩ := h
  cases hp : policy t m f i with
  | none => simp [hp] at he
  | some v => simp [hp] at he; subst he; simpa using hi

end Sys2Proof.Machine
end

