-- ==== Sys2Proof/Laws/Elementwise.lean ====
section
/-! SUPPORT. What the shared operations of vector instructions do, in the terms of Safety: their checks, elementwise results,
masks, and what is left when they are through. -/

namespace Sys2Proof.Machine
open Sys2Proof

/-! ## Masks and checks -/

theorem mem_upFrom {a n i : Nat} : i ∈ upFrom a n ↔ a ≤ i ∧ i < a + n := by simp [upFrom, List.mem_range'_1]
theorem mem_body {s : State} {i : Nat} : i ∈ s.body ↔ s.vstart ≤ i ∧ i < s.vl := by
  rw [State.body, mem_upFrom]; omega
/-- The mask bit of an element decides whether it is active. -/
theorem active_iff (t : Strand) (m : Msk) (i : Nat) :
    active t m i = true ↔ ((if m.m = 0 then i < 4096 else (t.m[m.m.toNat]'m.m.isLt).getLsbD i = true) ↔ m.neg = false) := by
  unfold active Strand.mask
  by_cases hm : m.m = 0
  · simp only [hm, if_true]
    rw [BitVec.getLsbD_allOnes]
    by_cases h : i < 4096 <;> cases m.neg <;> simp [h]
  · simp only [if_neg hm]
    cases (t.m[m.m.toNat]'m.m.isLt).getLsbD i <;> cases m.neg <;> simp
theorem processed_iff (t : Strand) (m : Msk) (i : Nat) :
    Processed t m i ↔ t.vstart.toNat ≤ i ∧ i < t.vl.toNat ∧ active t m i = true := by rw [active_iff]
theorem not_processed_of_idle {t : Strand} (h : t.vl.toNat ≤ t.vstart.toNat) (m : Msk) (i : Nat) : ¬Processed t m i := by
  rintro ⟨h1, h2, -⟩; omega
theorem idle_iff {s : State} : s.idle = true ↔ s.vl ≤ s.vstart := by
  unfold State.idle; simp; omega
theorem groupsOk_ok {t : Strand} {l : List (Nat × Nat)} (h : ∀ g ∈ l, g.1 % g.2 = 0 ∧ g.1 + g.2 ≤ t.window) : groupsOk t l = .ok () := by
  induction l with
  | nil => rfl
  | cons p t ih =>
    unfold groupsOk groupOk
    rw [if_pos (h p List.mem_cons_self)]
    exact ih (fun g hg => h g (List.mem_cons_of_mem _ hg))
/-- Sectors that are ready one by one are ready. -/
theorem sectorsReady_ok {s : State} {r : Ring} {n w : Nat} {acc : Acc} {l : List Nat}
    (h : ∀ i ∈ l, ∃ u, sectorReady s (localFlat s s.key (winCode (ringSlotAddr r n)) (winOff (ringSlotAddr r n) + i * w / 8) 0) acc i = .ok u) :
    sectorsReady s r n w acc l = .ok () := by
  induction l with
  | nil => rfl
  | cons i t ih =>
    obtain ⟨u, hu⟩ := h i List.mem_cons_self
    simp only [sectorsReady, hu]
    exact ih (fun j hj => h j (List.mem_cons_of_mem _ hj))
/-- Operands that can be read pass the checks (R112). -/
theorem vchecks_ok {s : State} {k : Nat} (h : s.actor = .strand k) {groups : List (Nat × Nat)} {va : VSrc} {w : Nat} {reads : Nat → Prop}
    (hr : VectorReadyFor s k groups va w reads) {l : List Nat} (hl : ∀ i ∈ l, reads i) (word : Word) : vchecks s groups va w l true word = .ok () := by
  unfold vchecks
  rw [State.me_strand h, groupsOk_ok hr.1]
  have h2 := hr.2
  cases va with
  | vreg v => simp [vaName, legal, vaWait, bind, Except.bind]
  | queue q =>
    simp only [] at h2
    simp only [vaName, h2.1, legal, vaWait, bind, Except.bind, if_true]
    cases hi : s.idle
    · obtain ⟨h3, h4⟩ := h2.2 hi
      have : l.find? (queuePoisoned s q 0 w) = none := by
        rw [List.find?_eq_none]; intro x hx; simp [(h4 x (hl x hx)).1]
      cases q with
      | relay n => simp [h3, this]
      | ring n =>
        have hk : s.key = k := State.key_strand h
        subst hk
        have hs := sectorsReady_ok (s := s) (r := s.ring s.key n) (n := (s.ring s.key n).head.toNat) (w := w) (acc := .read)
          (l := l.filter (fun i => decide ((i + 1) * w / 8 ≤ (s.ring s.key n).slotBytes)))
          (fun i hi => (h4 i (hl i (List.mem_filter.1 hi).1)).2 (by simpa using (List.mem_filter.1 hi).2))
        simp [h3, this, hs]
    · simp
theorem legal_false (w : Word) : legal false w = .error (.trap ⟨.illegalInstruction, w.zeroExtend 64, 0⟩) := rfl
/-- An illegal form takes ILLEGAL_INSTRUCTION with its word, where its names are good. -/
theorem vchecks_illegal {s : State} {k : Nat} (h : s.actor = .strand k) {groups : List (Nat × Nat)} {va : VSrc} {w : Nat} {reads : Nat → Prop}
    (hr : VectorReadyFor s k groups va w reads) (l : List Nat) (word : Word) :
    vchecks s groups va w l false word = .error (.trap ⟨.illegalInstruction, word.zeroExtend 64, 0⟩) := by
  unfold vchecks
  rw [State.me_strand h, groupsOk_ok hr.1]
  cases va with
  | vreg v => rfl
  | queue q =>
    have h2 := hr.2.1
    cases hi : s.idle
    · simp only [vaName, h2, bind, Except.bind, (hr.2.2 hi).1]; rfl
    · simp only [vaName, h2, bind, Except.bind]; rfl
theorem vguard_ok {c : Except Stop Unit} (h : c = .ok ()) (effect s : State) : vguard c effect s = .next effect := by rw [h]; rfl
theorem vguard_illegal {c : Except Stop Unit} {w : Word} (h : c = .error (.trap ⟨.illegalInstruction, w.zeroExtend 64, 0⟩)) (effect s : State) :
    vguard c effect s = .next (raise s ⟨.illegalInstruction, w.zeroExtend 64, 0⟩) := by rw [h]; rfl

/-! ## Being through -/

theorem vaPop_actor (s : State) (va : VSrc) : (vaPop s va).actor = s.actor := by
  cases va with
  | vreg v => rfl
  | queue q => cases q <;> rfl
/-- Popping a slot after vector registers were written is popping it before, with those registers. -/
theorem vaPop_vregs (s t : State) (va : VSrc) (h : { t with vregs := s.vregs } = s) : vaPop t va = { vaPop s va with vregs := t.vregs } := by
  have ht : t = { s with vregs := t.vregs } := by rw [← h]
  generalize t.vregs = R at ht
  subst ht
  cases va with
  | vreg v => rfl
  | queue q => cases q <;> rfl
theorem vaPop_frame (s : State) (va : VSrc) : { vaPop s va with strands := s.strands } = s := by
  cases va with
  | vreg v => rfl
  | queue q => cases q <;> rfl
theorem vaPop_vregs_eq (s : State) (va : VSrc) : (vaPop s va).vregs = s.vregs := by
  cases va with
  | vreg v => rfl
  | queue q => cases q <;> rfl
/-- A slot popped changes rings and relay queues alone. -/
theorem vaPop_strand (s : State) (va : VSrc) (j : Nat) :
    ∃ r l, (vaPop s va).strand j = { s.strand j with rings := r, relays := l } := by
  have up : ∀ (k : Nat) (f : Strand → Strand), (∀ t, ∃ r l, f t = { t with rings := r, relays := l }) →
      ∃ r l, (s.upd k f).strand j = { s.strand j with rings := r, relays := l } := by
    intro k f hf
    rw [State.strand_upd]
    split
    · subst_vars; exact hf _
    · exact ⟨_, _, rfl⟩
  cases va with
  | vreg v => exact ⟨_, _, rfl⟩
  | queue q =>
    cases q with
    | ring n => exact up _ _ (fun t => ⟨_, _, rfl⟩)
    | relay n => exact up _ _ (fun t => ⟨_, _, rfl⟩)

theorem State.vreg_congr {s t : State} {k : Nat} (h : (t.strand k).e.vwin = (s.strand k).e.vwin) (hv : t.vregs = s.vregs) (v : Nat) :
    t.vreg k v = s.vreg k v := by unfold State.vreg State.vkey; rw [h, hv]
theorem vget_congr {s t : State} {k : Nat} (h : (t.strand k).e.vwin = (s.strand k).e.vwin) (hv : t.vregs = s.vregs) (v w i : Nat) :
    vget t k v w i = vget s k v w i := by unfold vget; rw [State.vreg_congr h hv]
/-- A vector instruction is through: VSTART is 0 and the next instruction is next. -/
theorem vdone_strand {q : State} {k : Nat} (h : q.actor = .strand k) : vdone q = q.upd k (fun t => { t.onward with vstart := 0 }) := by
  unfold vdone State.updMe
  rw [State.key_strand h, State.advance_strand (k := k) (by exact h), State.upd_upd]
  rfl
theorem vdone_upd {q : State} {k : Nat} (h : q.actor = .strand k) (f : Strand → Strand) :
    vdone (q.updMe f) = q.upd k (fun t => { (f t).onward with vstart := 0 }) := by
  rw [vdone_strand (k := k) (by exact h), State.updMe, State.key_strand h, State.upd_upd]

/-! ## Elementwise results -/

/-- What the policies leave in element i is what afterPolicy says. -/
theorem policy_after (p : Strand) (m : Msk) (i w new old : Nat) (hi : p.vstart.toNat < p.vl.toNat) :
    (match policy p m (fun _ => some new) i with | some x => x % 2 ^ w | none => old) = afterPolicy p m i (new % 2 ^ w) old := by
  unfold policy afterPolicy vtMa vtTa
  have hp := processed_iff p m i
  have h0 : ¬p.vl.toNat ≤ p.vstart.toNat := by omega
  by_cases h1 : i < p.vstart.toNat
  · simp only [h1, if_true, or_true]
  · by_cases h2 : i < p.vl.toNat
    · by_cases h3 : active p m i = true
      · have h4 := hp.2 ⟨by omega, h2, h3⟩
        simp only [h0, h1, h2, h3, if_true, if_false, or_false, if_pos h4]
      · have h4 := fun q => h3 (hp.1 q).2.2
        simp only [h0, h1, h2, h3, if_true, if_false, or_false, if_neg h4]
        cases p.vtype.getLsbD 6 <;> simp
    · simp only [h0, h1, h2, if_false, or_false]
      cases p.vtype.getLsbD 5 <;> simp

/-- The flags of the processed elements, taken together. -/
theorem flagsOver_iff {s : State} {k : Nat} (h : s.actor = .strand k) (m : Msk) (g : Nat → BitVec 6) (b : Nat) :
    (flagsOver s m g).getLsbD b = true ↔ ∃ i, Processed (s.strand k) m i ∧ (g i).getLsbD b = true := by
  have fold : ∀ (l : List Nat) (a : BitVec 6), (l.foldl (fun a i => a ||| g i) a).getLsbD b = true ↔
      a.getLsbD b = true ∨ ∃ i ∈ l, (g i).getLsbD b = true := by
    intro l
    induction l with
    | nil => simp
    | cons x t ih => intro a; rw [List.foldl_cons, ih]; simp [or_assoc]
  unfold flagsOver State.takers
  rw [fold, State.me_strand h]
  simp only [List.mem_filter, mem_body, State.vstart, State.vl, State.me_strand h, processed_iff]
  simp [and_assoc]

theorem vputs_strand (s : State) (k v w : Nat) (l : List (Nat × Nat)) (j : Nat) : (vputs s k v w l).strand j = s.strand j := by
  have h : ({ vputs s k v w l with vregs := s.vregs } : State).strands = s.strands := congrArg State.strands (vputs_frame s k v w l)
  unfold State.strand; rw [show (vputs s k v w l).strands = s.strands from h]
/-- An elementwise instruction completes as VectorResult says. -/
theorem vmap_result {i : Instr} {s : State} {k : Nat} (h : s.actor = .strand k) {va : VSrc} {vd w : Nat} {m : Msk} {f : Nat → FRes} (hw : 4096 % w = 0)
    (hi : exec i s = .next (vmapEffect vd w va m f s)) : VectorResult i s k va vd w (vlmaxOf (s.strand k).vtype) m f := by
  have hk := State.key_strand h
  have hm := State.me_strand h
  refine ⟨_, hi, ?_⟩
  unfold vmapEffect
  by_cases hid : s.idle = true
  · rw [if_pos hid, if_pos hid, vdone_strand h]
    have hge : (s.strand k).vl.toNat ≤ (s.strand k).vstart.toNat := by
      have := idle_iff.1 hid; simp only [State.vl, State.vstart, hm] at this; exact this
    refine ⟨⟨fun j hj => ?_, fun c hc => rfl⟩, by simp [Strand.onward], fun b => ?_, fun j hj => State.strand_upd_of_ne _ _ hj, rfl⟩
    · unfold afterPolicy; rw [if_pos (.inl hge)]
      exact vget_congr (s := s) (by simp only [State.strand_upd_self, Strand.onward]) (State.upd_vregs s k _) _ _ _
    · simp only [State.strand_upd_self, Strand.onward]
      exact ⟨fun q => .inl q, fun q => q.resolve_right (fun ⟨j, h1, _⟩ => not_processed_of_idle hge m j h1)⟩
  · rw [if_neg hid, if_neg hid]
    have hlt : (s.strand k).vstart.toNat < (s.strand k).vl.toNat := by
      rw [idle_iff] at hid; simp only [State.vl, State.vstart, hm] at hid; omega
    simp only []
    have fr := vputs_frame s s.key vd w (updates s.me m s.vlmax (fun i => some (f i).1))
    rw [vaPop_vregs s _ va fr]
    have hR : (vputs s s.key vd w (updates s.me m s.vlmax (fun i => some (f i).1))).vregs =
        (vputs s k vd w (updates (s.strand k) m (vlmaxOf (s.strand k).vtype) (fun i => some (f i).1))).vregs := by
      unfold State.vlmax; rw [hk, hm]
    rw [hR]
    generalize hu : vputs s k vd w (updates (s.strand k) m (vlmaxOf (s.strand k).vtype) (fun i => some (f i).1)) = u
    obtain ⟨r, l, hq⟩ := vaPop_strand s va k
    have hQ : ∀ j, ({ vaPop s va with vregs := u.vregs } : State).strand j = (vaPop s va).strand j := fun _ => rfl
    have hF : { ({ vaPop s va with vregs := u.vregs } : State) with strands := s.strands, vregs := s.vregs } = s := by
      have := vaPop_frame s va
      exact (congrArg (fun x : State => { x with vregs := s.vregs }) this).trans rfl
    have ha : ({ vaPop s va with vregs := u.vregs } : State).actor = .strand k := (vaPop_actor s va).trans h
    have hv : ({ vaPop s va with vregs := u.vregs } : State).vregs = u.vregs := rfl
    generalize ({ vaPop s va with vregs := u.vregs } : State) = Q at hQ hF ha hv ⊢
    rw [vdone_upd ha]
    refine ⟨⟨fun j hj => ?_, fun c hc => ?_⟩, ?_, fun b => ?_, fun j hj => ?_, ?_⟩
    · have e1 : vget u k vd w j = afterPolicy (s.strand k) m j ((f j).1 % 2 ^ w) (vget s k vd w j) := by
        rw [← hu, vget_updates _ _ _ _ _ _ _ _ _ hw hj]
        exact policy_after (s.strand k) m j w (f j).1 (vget s k vd w j) hlt
      rw [← e1]
      refine vget_congr ?_ ((State.upd_vregs _ _ _).trans hv) _ _ _
      simp only [State.strand_upd_self, Strand.onward, Strand.accrue, hQ, hq, ← hu, vputs_strand]
    · rw [State.upd_vregs, hv, ← hu]
      exact vputs_other _ _ _ _ _ _ (fun p hp => hc p.1 (updates_mem hp))
    · simp only [State.strand_upd_self, Strand.onward, Strand.accrue, hQ]
    · simp only [State.strand_upd_self, Strand.onward, Strand.accrue]
      rw [← flagsOver_iff h m (fun i => (f i).2) b, BitVec.getLsbD_or, Bool.or_eq_true]
      simp only [hQ, hq]
    · rw [State.strand_upd_of_ne _ _ hj, hQ]
    · exact hF

/-- Results that agree in their low bits and in their flags are one result. -/
theorem VectorResult.congr {i : Instr} {s : State} {k : Nat} {va : VSrc} {vd w n : Nat} {m : Msk} {f g : Nat → FRes}
    (hf : ∀ j, (f j).1 % 2 ^ w = (g j).1 % 2 ^ w ∧ (f j).2 = (g j).2) (h : VectorResult i s k va vd w n m f) : VectorResult i s k va vd w n m g := by
  obtain ⟨t, hi, ⟨h1, h2⟩, h3, h4, h5⟩ := h
  exact ⟨t, hi, ⟨fun j hj => by rw [h1 j hj, (hf j).1], h2⟩, h3, fun b => by rw [h4 b]; simp only [(hf _).2], h5⟩

end Sys2Proof.Machine
end

