-- ==== Sys2Proof/Laws/Draws.lean ====
section
/-! SUPPORT. What elementwise instructions that may draw do (R164): the generators, the results and the flags of cvtEffect. -/

namespace Sys2Proof.Machine
open Sys2Proof

/-- The processed elements, in order, are the active ones of the body. -/
theorem processed_list {s : State} {k : Nat} (h : s.actor = .strand k) (m : Msk) :
    s.body.filter (active s.me m) = (List.range (s.strand k).vl.toNat).filter (fun i => decide (Processed (s.strand k) m i)) := by
  rw [State.body, State.vstart, State.vl, State.me_strand h]
  generalize hp : s.strand k = p
  have e1 : (List.range p.vl.toNat).filter (fun i => decide (Processed p m i)) =
      ((List.range p.vl.toNat).filter (fun i => decide (p.vstart.toNat ≤ i))).filter (active p m) := by
    rw [List.filter_filter]
    apply List.filter_congr
    intro i hi
    rw [Bool.eq_iff_iff]
    simp only [decide_eq_true_eq, Bool.and_eq_true, processed_iff]
    have := List.mem_range.1 hi
    tauto
  have e2 : (List.range p.vl.toNat).filter (fun i => decide (p.vstart.toNat ≤ i)) = upFrom p.vstart.toNat (p.vl.toNat - p.vstart.toNat) := by
    generalize p.vl.toNat = n
    generalize p.vstart.toNat = a
    induction n with
    | zero => simp [upFrom]
    | succ n ih =>
      rw [List.range_succ, List.filter_append, ih]
      by_cases hn : a ≤ n
      · simp [hn, upFrom, show n + 1 - a = (n - a) + 1 by omega, List.range'_concat]
      · simp [hn, upFrom, show n + 1 - a = 0 by omega, show n - a = 0 by omega]
  rw [e1, e2]

/-- The strand with its generators and flags after the elements of the range below n that satisfy P. -/
def drawn (t : Strand) (P : Nat → Bool) (f : Nat → Nat → Rnd) (n : Nat) : List (Nat × Nat) × Strand := drawRun t ((List.range n).filter P) f
theorem drawn_succ (t : Strand) (P : Nat → Bool) (f : Nat → Nat → Rnd) (n : Nat) :
    drawn t P f (n + 1) = if P n then
        let a := drawn t P f n
        let r := f (drawBits (a.2.srgen.getD (n % 32) 0)) n
        (a.1 ++ [(n, r.bits)], (if r.drew then a.2.draw (n % 32) else a.2).accrue r.flags)
      else drawn t P f n := by
  unfold drawn drawRun
  rw [List.range_succ, List.filter_append]
  by_cases h : P n = true <;> simp [h]
theorem drawn_keys (t : Strand) (P : Nat → Bool) (f : Nat → Nat → Rnd) (n : Nat) : ∀ p ∈ (drawn t P f n).1, p.1 < n := by
  induction n with
  | zero => intro p hp; simp [drawn, drawRun] at hp
  | succ n ih =>
    intro p hp
    rw [drawn_succ] at hp
    split at hp
    · simp only [List.mem_append, List.mem_singleton] at hp
      rcases hp with hp | hp
      · have := ih p hp; omega
      · subst hp; simp
    · have := ih p hp; omega
theorem sfind_append {α : Type} (l r : Sparse α) (k : Nat) : sfind (l ++ r) k = (sfind l k).or (sfind r k) := by
  induction l with
  | nil => simp [sfind]
  | cons p t ih => simp only [List.cons_append, sfind]; split <;> simp [ih]
theorem sfind_none {α : Type} (l : Sparse α) (k : Nat) (h : ∀ p ∈ l, p.1 < k) : sfind l k = none := by
  induction l with
  | nil => rfl
  | cons p t ih =>
    have := h p List.mem_cons_self
    simp only [sfind]; rw [if_neg (by omega)]; exact ih (fun q hq => h q (List.mem_cons_of_mem _ hq))
/-- The result of an element is what f makes with the generators as they were before it. -/
theorem drawn_find (t : Strand) (P : Nat → Bool) (f : Nat → Nat → Rnd) (n j : Nat) (hj : j < n) (hP : P j = true) :
    sfind (drawn t P f n).1 j = some (f (drawBits ((drawn t P f j).2.srgen.getD (j % 32) 0)) j).bits := by
  induction n with
  | zero => omega
  | succ n ih =>
    rw [drawn_succ]
    by_cases hjn : j = n
    · subst hjn
      rw [if_pos hP]
      simp only [sfind_append, sfind_none _ _ (drawn_keys t P f j), sfind]
      simp
    · split
      · simp only [sfind_append, ih (by omega)]; simp
      · exact ih (by omega)
theorem drawn_flags (t : Strand) (P : Nat → Bool) (f : Nat → Nat → Rnd) (n b : Nat) :
    (drawn t P f n).2.fflags.getLsbD b = true ↔ t.fflags.getLsbD b = true ∨ ∃ j, j < n ∧ P j = true ∧
      (f (drawBits ((drawn t P f j).2.srgen.getD (j % 32) 0)) j).flags.getLsbD b = true := by
  induction n with
  | zero => simp [drawn, drawRun]
  | succ n ih =>
    rw [drawn_succ]
    split
    · rename_i hP
      simp only [Strand.accrue, BitVec.getLsbD_or, Bool.or_eq_true]
      rw [show ∀ r : Rnd, (if r.drew then (drawn t P f n).2.draw (n % 32) else (drawn t P f n).2).fflags = (drawn t P f n).2.fflags from
        fun r => by split <;> rfl, ih]
      constructor
      · rintro ((h | ⟨j, h1, h2, h3⟩) | h)
        · exact .inl h
        · exact .inr ⟨j, by omega, h2, h3⟩
        · exact .inr ⟨n, by omega, hP, h⟩
      · rintro (h | ⟨j, h1, h2, h3⟩)
        · exact .inl (.inl h)
        · by_cases hj : j = n
          · subst hj; exact .inr h3
          · exact .inl (.inr ⟨j, by omega, h2, h3⟩)
    · rename_i hP
      rw [ih]
      constructor
      · rintro (h | ⟨j, h1, h2, h3⟩)
        · exact .inl h
        · exact .inr ⟨j, by omega, h2, h3⟩
      · rintro (h | ⟨j, h1, h2, h3⟩)
        · exact .inl h
        · have : j ≠ n := by rintro rfl; exact hP h2
          exact .inr ⟨j, by omega, h2, h3⟩
theorem drawn_gen_succ (t : Strand) (P : Nat → Bool) (f : Nat → Nat → Rnd) (n : Nat) :
    (drawn t P f (n + 1)).2.srgen = if P n = true ∧ (f (drawBits ((drawn t P f n).2.srgen[n % 32]'(Nat.mod_lt _ (by decide)))) n).drew = true
      then (drawn t P f n).2.srgen.set (n % 32) (drawNext ((drawn t P f n).2.srgen[n % 32]'(Nat.mod_lt _ (by decide)))) (Nat.mod_lt _ (by decide))
      else (drawn t P f n).2.srgen := by
  have hg : (drawn t P f n).2.srgen.getD (n % 32) 0 = (drawn t P f n).2.srgen[n % 32]'(Nat.mod_lt _ (by decide)) := by
    simp [Vector.getD, Nat.mod_lt]
  rw [drawn_succ]
  by_cases h : P n = true
  · simp only [h, if_true, hg, Strand.accrue, true_and]
    split
    · simp only [Strand.draw, hg]
      apply Vector.ext; intro i hi; rw [Vector.getElem_set, Vector.getElem_setIfInBounds hi]
    · rfl
  · simp [h]

theorem drawn_gen_getD (t : Strand) (P : Nat → Bool) (f : Nat → Nat → Rnd) (n : Nat) :
    (drawn t P f n).2.srgen.getD (n % 32) 0 = (drawn t P f n).2.srgen[n % 32]'(Nat.mod_lt _ (by decide)) := by simp [Vector.getD, Nat.mod_lt]

theorem State.groupOf_upd (s : State) (k j : Nat) (f : Strand → Strand) (hf : ∀ t, (f t).place = t.place) :
    (s.upd k f).groupOf j = s.groupOf j := by
  have : ((s.upd k f).strand j).place = (s.strand j).place := by
    rw [State.strand_upd]; split
    · subst_vars; exact hf _
    · rfl
  unfold State.groupOf
  rw [this, State.upd_groups]
/-- Generators and flags written before a slot is popped are those written after. -/
theorem vaPop_gens (s : State) (va : VSrc) (k j : Nat) (g : Vector Word 32) (fl : BitVec 6) :
    (vaPop (s.upd k (fun t => { t with srgen := g, fflags := fl })) va).strand j =
      if j = k then { (vaPop s va).strand k with srgen := g, fflags := fl } else (vaPop s va).strand j := by
  have hs : ∀ i, (s.upd k (fun t => { t with srgen := g, fflags := fl })).shardKey i = s.shardKey i := by
    intro i; unfold State.shardKey; rw [State.groupOf_upd s k i (fun t => { t with srgen := g, fflags := fl }) (fun _ => rfl)]
  have hkey : (s.upd k (fun t => { t with srgen := g, fflags := fl })).key = s.key := rfl
  cases va with
  | vreg v => exact State.strand_upd s k j _
  | queue q =>
    cases q with
    | ring n =>
      simp only [vaPop, queuePop, State.setRing, State.ring, hs, hkey, State.strand_upd]
      by_cases h1 : j = k <;> by_cases h2 : j = s.shardKey s.key <;> simp_all
    | relay n =>
      simp only [vaPop, queuePop, State.setRelay, State.relay, hs, hkey, State.strand_upd]
      by_cases h1 : j = k <;> by_cases h2 : j = s.shardKey s.key <;> simp_all
/-- What cvtEffect does, in the terms of Safety. -/
theorem cvt_result {s : State} {k : Nat} (h : s.actor = .strand k) {va : VSrc} {vd w : Nat} {m : Msk} {f : Nat → Nat → Rnd} (hw : 4096 % w = 0) :
    DrawsWrites s (cvtEffect vd w va m f s) k va vd w (vlmaxOf (s.strand k).vtype) m f := by
  have hk := State.key_strand h
  have hm := State.me_strand h
  generalize hp : s.strand k = p at *
  have hP : ∀ j, (decide (Processed p m j) = true) ↔ Processed p m j := fun j => decide_eq_true_iff
  refine ⟨fun j => (drawn p (fun i => decide (Processed p m i)) f j).2.srgen, by rw [hp]; rfl, fun j => ?_, ?_⟩
  · simp only [drawn_gen_succ, hp, hP]
  unfold cvtEffect
  by_cases hid : s.idle = true
  · rw [if_pos hid, if_pos hid, vdone_strand h]
    have hge : p.vl.toNat ≤ p.vstart.toNat := by
      have := idle_iff.1 hid; simp only [State.vl, State.vstart, hm] at this; exact this
    have hno : ∀ n, (drawn p (fun i => decide (Processed p m i)) f n).2.srgen = p.srgen := by
      intro n
      induction n with
      | zero => rfl
      | succ n ih => rw [drawn_gen_succ, if_neg (fun q => not_processed_of_idle hge m n ((hP n).1 q.1)), ih]
    refine ⟨⟨fun j hj => ?_, fun c hc => rfl⟩, ?_, fun b => ?_, fun j hj => State.strand_upd_of_ne _ _ hj, rfl⟩
    · unfold afterPolicy; rw [hp, if_pos (.inl hge)]
      exact vget_congr (s := s) (by simp only [State.strand_upd_self, Strand.onward]) (State.upd_vregs s k _) _ _ _
    · simp only [State.strand_upd_self, Strand.onward, hp, hno]
    · simp only [State.strand_upd_self, Strand.onward, hp]
      exact ⟨fun q => .inl q, fun q => q.resolve_right (fun ⟨j, h1, _⟩ => not_processed_of_idle hge m j h1)⟩
  · rw [if_neg hid, if_neg hid]
    have hlt : p.vstart.toNat < p.vl.toNat := by
      rw [idle_iff] at hid; simp only [State.vl, State.vstart, hm] at hid; omega
    have hl := processed_list h m
    rw [hp, hm] at hl
    simp only [State.takers, hm, hl, hk, State.vlmax]
    rw [show drawRun p ((List.range p.vl.toNat).filter (fun i => decide (Processed p m i))) f = drawn p (fun i => decide (Processed p m i)) f p.vl.toNat from rfl]
    generalize hu : vputs s k vd w (updates p m (vlmaxOf p.vtype) (sfind (drawn p (fun i => decide (Processed p m i)) f p.vl.toNat).1)) = u
    generalize hd : (drawn p (fun i => decide (Processed p m i)) f p.vl.toNat).2 = D at *
    have fr : { u with vregs := s.vregs } = s := hu ▸ vputs_frame s k vd w _
    have hus : u = { s with vregs := u.vregs } := by rw [← fr]
    have hust : ∀ j, u.strand j = s.strand j := fun j => by rw [hus]; rfl
    have hua : (u.updMe (fun t => { t with srgen := D.srgen, fflags := D.fflags })).actor = .strand k := by rw [hus]; exact h
    have hkey : u.key = k := by rw [hus]; exact hk
    have hpop := fun j => vaPop_gens s va k j D.srgen D.fflags
    have hQ : ∀ j, (vaPop (u.updMe (fun t => { t with srgen := D.srgen, fflags := D.fflags })) va).strand j =
        if j = k then { (vaPop s va).strand k with srgen := D.srgen, fflags := D.fflags } else (vaPop s va).strand j := by
      intro j
      rw [← hpop, State.updMe, hkey, hus]
      rw [vaPop_vregs ((s.upd k (fun t => { t with srgen := D.srgen, fflags := D.fflags }))) _ va rfl]; rfl
    have hF : { (vaPop (u.updMe (fun t => { t with srgen := D.srgen, fflags := D.fflags })) va) with strands := s.strands, vregs := s.vregs } = s := by
      have e := vaPop_frame (u.updMe (fun t => { t with srgen := D.srgen, fflags := D.fflags })) va
      have e2 := congrArg (fun x : State => { x with strands := s.strands, vregs := s.vregs }) e
      exact e2.trans (by rw [hus]; rfl)
    have hV : (vaPop (u.updMe (fun t => { t with srgen := D.srgen, fflags := D.fflags })) va).vregs = u.vregs := vaPop_vregs_eq _ va
    have hA := (vaPop_actor (u.updMe (fun t => { t with srgen := D.srgen, fflags := D.fflags })) va).trans hua
    generalize vaPop (u.updMe (fun t => { t with srgen := D.srgen, fflags := D.fflags })) va = Q at hQ hF hV hA ⊢
    rw [vdone_strand hA]
    obtain ⟨r, l, hq⟩ := vaPop_strand s va k
    have hQk := hQ k
    rw [if_pos rfl] at hQk
    refine ⟨⟨fun j hj => ?_, fun c hc => ?_⟩, ?_, fun b => ?_, fun j hj => ?_, ?_⟩
    · have e1 : vget u k vd w j = afterPolicy p m j ((f (drawBits ((drawn p (fun i => decide (Processed p m i)) f j).2.srgen[j % 32]'(Nat.mod_lt _ (by decide)))) j).bits % 2 ^ w) (vget s k vd w j) := by
        rw [← hu, vget_updates _ _ _ _ _ _ _ _ _ hw hj]
        rw [← policy_after p m j w _ (vget s k vd w j) hlt]
        congr 1
        unfold policy
        by_cases c1 : j < p.vstart.toNat
        · simp [c1]
        · by_cases c2 : j < p.vl.toNat
          · by_cases c3 : active p m j = true
            · simp only [c1, c2, c3, if_true, if_false]
              rw [drawn_find p _ f _ j c2 ((hP j).2 ((processed_iff p m j).2 ⟨by omega, c2, c3⟩)), drawn_gen_getD]
            · simp [c1, c2, c3]
          · simp [c1, c2]
      rw [hp, ← e1]
      refine vget_congr ?_ ((State.upd_vregs _ _ _).trans hV) _ _ _
      simp only [State.strand_upd_self, Strand.onward, hQk, hq, hust, hp]
    · rw [State.upd_vregs, hV, ← hu]
      exact vputs_other _ _ _ _ _ _ (fun q hq => hc q.1 (updates_mem hq))
    · simp only [State.strand_upd_self, Strand.onward, hQk, ← hd, hp]
    · simp only [State.strand_upd_self, Strand.onward, hQk, ← hd, hp]
      rw [drawn_flags]
      simp only [hP, drawn_gen_getD]
      constructor
      · rintro (q | ⟨j, -, q⟩)
        · exact .inl q
        · exact .inr ⟨j, q⟩
      · rintro (q | ⟨j, q⟩)
        · exact .inl q
        · exact .inr ⟨j, q.1.2.1, q⟩
    · rw [State.strand_upd_of_ne _ _ hj, hQ, if_neg hj]
    · exact hF

end Sys2Proof.Machine
end

