-- ==== Sys2Proof/Laws/Homes.lean ====
section
/-! SUPPORT. What a home records of a registration, and what a request that waits at a home changes (R299, R303). -/

namespace Sys2Proof.Machine
open Sys2Proof

/-! ## Records -/

theorem dropCopy_reg (s : State) (h w : Nat) : (dropCopy s h w).reg = s.reg := by
  unfold dropCopy; repeat' split
  all_goals rfl
theorem dropDie_reg (s : State) (d w : Nat) : (dropDie s d w).reg = s.reg := by unfold dropDie; split <;> rfl
theorem extWrite_reg (s : State) (d w : Nat) : (extWrite s d w).reg = s.reg := by unfold extWrite; split <;> rfl
theorem tellHost_reg (s : State) (w : Nat) : (tellHost s w).reg = s.reg := by unfold tellHost; split <;> rfl
theorem breakLinksOf_reg (who : Nat → Bool) (s : State) (a : Nat) : (breakLinksOf who s a).reg = s.reg := by unfold breakLinksOf; split <;> rfl
/-- After its registration a word outside the lost ranges is registered to the core, with the value it wrote; no other record changes (R299). -/
theorem registerWord_reg (s : State) (c w : Nat) (v : Word) (j : Nat) :
    sfind (registerWord s c w v).reg j = if j = w ∧ isLost s w = false then some ⟨c, v⟩ else sfind s.reg j := by
  have drop : (match sfind s.reg w with
      | some r => if r.holder = c then s else dropCopy s r.holder w
      | none => s).reg = s.reg := by
    split
    · split
      · rfl
      · exact dropCopy_reg s _ w
    · rfl
  unfold registerWord
  split
  · rename_i h; simp [dropCopy_reg, h]
  · rename_i h
    have hl : isLost s w = false := by simpa using h
    rw [tellHost_reg, breakLinksOf_reg, extWrite_reg]
    simp only [dropDie_reg, sfind_sput, hl, and_true]
    split
    · rfl
    · exact congrArg (sfind · j) drop
/-- The value that the home has recorded of a word is the one of its registration (R300, R403). -/
theorem curVal_registerWord (s : State) (c w : Nat) (v : Word) (h : isLost s w = false) : curVal (registerWord s c w v) w = v := by
  simp [curVal, registerWord_reg, h]

/-! ## Waiting at a home -/

/-- A request that meets a held home stands in its line or is refused, and nothing else changes (R303). -/
theorem joinHome_frame (s : State) (q : Request) (c w : Nat) :
    { joinHome s q c w with waiters := s.waiters, refused := s.refused } = s ∧
    ((joinHome s q c w).waiters = s.waiters ++ [⟨q, c, w, s.cycle.toNat, false⟩] ∧ (joinHome s q c w).refused = s.refused ∨
     (joinHome s q c w).waiters = s.waiters ++ [⟨q, c, w, s.cycle.toNat, true⟩] ∧ (joinHome s q c w).refused = s.refused ∨
     (joinHome s q c w).waiters = s.waiters ∧ (joinHome s q c w).refused = s.refused ++ [⟨q, c, w, s.cycle.toNat, false⟩]) := by
  unfold joinHome
  dsimp only
  split
  · exact ⟨rfl, .inl ⟨rfl, rfl⟩⟩
  · split
    · exact ⟨rfl, .inr (.inl ⟨rfl, rfl⟩)⟩
    · exact ⟨rfl, .inr (.inr ⟨rfl, rfl⟩)⟩
/-- An access of a strand or a cell that stands at no home passes a home where no snoop is served and nothing stands in line, and changes
nothing (R303). -/
theorem homeFree_free (c : Ctx) (s : State) (pa : Nat) (ea : Dword) (e : Nat) (hc : c.tlb = true) (hb : s.busy = []) (hw : s.waiters = [])
    (hr : s.refused = []) (hh : s.waitOf.home = none) : homeFree c pa ea e s = .ok () s := by
  unfold homeFree
  simp [unitVerdict, hc, homeServes, hb, hw, hr, sfind, servedAt, hh]
/-- Of the work of a unit that has to wait, only its requests stay (R303, R509). -/
theorem keepRequests_frame (s s' : State) :
    { keepRequests s s' with atsWaits := s.atsWaits, waiters := s.waiters, refused := s.refused, tlb := s.tlb, out := s.out } = s := rfl

end Sys2Proof.Machine
end

