-- ==== Sys2Proof/Laws/Local.lean ====
section
/-! SUPPORT. What loads and stores of a strand do, in terms of the access they make, and what an access to a local window is. -/

namespace Sys2Proof.Machine
open Sys2Proof

/-- The effective address (R132). -/
theorem effAddr_toInt (x : Dword) (off : BitVec 13) (n : Nat) : effAddr x off n = x + BitVec.ofInt 64 (off.toInt * n) := by
  unfold effAddr; congr 1
  apply BitVec.eq_of_toInt_eq
  rw [BitVec.toInt_mul, BitVec.toInt_signExtend_of_le (by decide), BitVec.toInt_ofInt, BitVec.toInt_ofNat']
  simp [Int.mul_bmod]
/-- A strand's access goes through no port of a page (R338). -/
theorem cellPort_strand {s : State} (hc : s.isCell = false) (ea : Dword) (n : Nat) : cellPort ea n s = .ok () s := by
  unfold cellPort; rw [bindM_get, hc]; rfl
/-- A load whose access answers. -/
theorem loadInstr_ok {s s' : State} {n : Nat} {ext : Nat → Dword} {d a : Reg} {off : BitVec 13} {v : Nat} (hc : s.isCell = false)
    (h : loadN s.ctx (effAddr (s.x a) off n) n 0 0 s = .ok v s') : runInstr (loadInstr n ext d a off) s = .next (s'.setX d (ext v)).advance := by
  apply runInstr_ok; unfold loadInstr; rw [bindM_get, bindM_ok (cellPort_strand hc _ _), bindM_ok h]; rfl
/-- A load whose access traps. -/
theorem loadInstr_trap {s s' : State} {n : Nat} {ext : Nat → Dword} {d a : Reg} {off : BitVec 13} {r : TrapInfo} (hc : s.isCell = false)
    (h : loadN s.ctx (effAddr (s.x a) off n) n 0 0 s = .error (.trap r) s') : runInstr (loadInstr n ext d a off) s = .next (raise s' r) := by
  apply runInstr_trap; unfold loadInstr; rw [bindM_get, bindM_ok (cellPort_strand hc _ _), bindM_error h]
/-- A store whose access lands. -/
theorem storeInstr_ok {s s' : State} {n : Nat} {r a : Reg} {off : BitVec 13} (hc : s.isCell = false)
    (h : storeN s.ctx (effAddr (s.x a) off n) n ((s.x r).toNat % 2 ^ (8 * n)) 0 0 s = .ok () s') : runInstr (storeInstr n r a off) s = .next s'.advance := by
  apply runInstr_ok; unfold storeInstr; rw [bindM_get, bindM_ok (cellPort_strand hc _ _), bindM_ok h]; rfl
/-- A store whose access traps. -/
theorem storeInstr_trap {s s' : State} {n : Nat} {r a : Reg} {off : BitVec 13} {q : TrapInfo} (hc : s.isCell = false)
    (h : storeN s.ctx (effAddr (s.x a) off n) n ((s.x r).toNat % 2 ^ (8 * n)) 0 0 s = .error (.trap q) s') : runInstr (storeInstr n r a off) s = .next (raise s' q) := by
  apply runInstr_trap; unfold storeInstr; rw [bindM_get, bindM_ok (cellPort_strand hc _ _), bindM_error h]
/-- Whose accesses a strand's are. -/
theorem ctx_strand {s : State} {k : Nat} (h : s.actor = .strand k) : s.ctx.key = k ∧ s.ctx.tlb = true ∧ s.ctx.asid = (s.strand k).e.asid ∧ s.ctx.user = ((s.strand k).level == .user) := by
  simp [State.ctx, State.key_strand h, State.me_strand h, State.isCell_strand h]
/-- A local access that its window allows goes to its place. -/
theorem local_route {s : State} {k : Nat} (h : s.actor = .strand k) {ea : Dword} {n : Nat} (hl : LocalAccess s k ea n) (acc : Acc) (e : Nat) :
    route s.ctx ea n acc e 0 s = .ok (.loc (flatOf s k ea)) s := by
  obtain ⟨h1, h2, h3, ⟨size, h4, h5⟩, h6, h7⟩ := hl
  obtain ⟨c1, c2, c3, c4⟩ := ctx_strand h
  have hr : resolve s.ctx ea n acc e 0 s = .ok (.loc (flatOf s k ea)) s := by
    unfold resolve
    rw [bindM_get, if_neg (by omega), c1, h4]
    simp only [ge_iff_le]
    rw [if_neg (by tauto), if_neg (by omega), if_neg h3, if_neg h2]; rfl
  unfold route
  rw [bindM_get]
  rw [show (if s.ctx.tlb && winCode ea == 0 && ea.toNat % n == 0 then cocoonOfGlobal s (coreOf s.ctx.key) s.ctx.asid ea.toNat else none) = none from by
    rw [if_neg]; simp [h2]]
  simp only []
  rw [if_neg (by simp [h3]), bindM_ok hr, State.isCell_strand h]
  simp
theorem cocoonOfFlat_none {s : State} (h : s.cocoons = []) (f : Nat) : cocoonOfFlat s f = none := by unfold cocoonOfFlat; rw [h]; rfl
/-- What a load from a local window answers (R133, R305). -/
theorem loadN_local {s : State} {k : Nat} (h : s.actor = .strand k) {ea : Dword} {n : Nat} (hl : LocalAccess s k ea n) (e : Nat) (hn : n = 1 ∨ n = 2 ∨ n = 4 ∨ n = 8) :
    (Unpoisoned s (flatOf s k ea) n → loadN s.ctx ea n e 0 s = .ok (Mem.readN s.mem (flatOf s k ea) n) s) ∧
    (¬Unpoisoned s (flatOf s k ea) n → loadN s.ctx ea n e 0 s = .error (.trap ⟨.memPoison, ea, e⟩) s) := by
  obtain ⟨c1, c2, c3, c4⟩ := ctx_strand h
  have main : loadN s.ctx ea n e 0 s = (if s.poison.contains (flatOf s k ea / 4) || (n == 8 && s.poison.contains (flatOf s k ea / 4 + 1)) then trapM .memPoison ea e
      else pure (Mem.readN s.mem (flatOf s k ea) n) : M Nat) s := by
    unfold loadN
    rw [bindM_ok (local_route h hl .read e)]
    unfold loadAt
    rw [bindM_get, c2, c1, if_pos rfl, hl.2.2.2.2.2]
    simp only [noteClass, c2, Target.cls]
    rw [if_neg (by simp), bindM_pure]
    unfold readTarget localRead
    simp only []
    rw [bindM_get, cocoonOfFlat_none hl.2.2.2.2.1]
    simp only []
    rw [bindM_get]
  refine ⟨fun hu => ?_, fun hu => ?_⟩
  · rw [main, if_neg]; · rfl
    simp only [Unpoisoned] at hu
    simp; exact hu
  · rw [main, if_pos]; · rfl
    simp only [Unpoisoned] at hu
    simp; tauto
/-- What a store to a local window leaves (R133, R289). -/
theorem storeN_local {s : State} {k : Nat} (h : s.actor = .strand k) {ea : Dword} {n v : Nat} (hl : LocalAccess s k ea n) (e : Nat) :
    storeN s.ctx ea n v e 0 s = (let f := flatOf s k ea
      if n < 4 && s.poison.contains (f / 4) then trapM .memPoison ea e
      else
        let p := if n < 4 then s.poison else nsErase s.poison (f / 4)
        let p := if n = 8 then nsErase p (f / 4 + 1) else p
        set (breakLinks (clearRingFlags { s with mem := Mem.writeN s.mem f n v, poison := p } f) f) : M Unit) s := by
  obtain ⟨c1, c2, c3, c4⟩ := ctx_strand h
  unfold storeN
  rw [bindM_ok (local_route h hl .write e), bindM_get, c2, c1, if_pos rfl, hl.2.2.2.2.2]
  simp only [noteClass, c2, Target.cls]
  rw [if_neg (by simp), bindM_pure]
  unfold writeTarget localWrite
  simp only []
  rw [bindM_get, cocoonOfFlat_none hl.2.2.2.2.1]
  simp only []
  rw [bindM_get]
  have e1 : ∀ t f, (clearRingFlags t f).cocoons = t.cocoons := by intro t f; unfold clearRingFlags; split <;> rfl
  have e2 : ∀ t f, (breakLinks t f).cocoons = t.cocoons := by intro t f; unfold breakLinks breakLinksOf; split <;> rfl
  split
  · rfl
  · rw [cocoonOfFlat_none (by rw [e2, e1]; exact hl.2.2.2.2.1)]
/-- Links and slot flags apart, such a store leaves every strand as it was. -/
theorem unflagged_local (t : State) (f : Nat) : ∀ j, ((breakLinks (clearRingFlags t f) f).strand j).unflagged = (t.strand j).unflagged := by
  intro j
  obtain ⟨l, hl⟩ := (breakLinks_caches (clearRingFlags t f) f).2 j
  rw [hl]
  have : ((clearRingFlags t f).strand j).unflagged = (t.strand j).unflagged := by
    unfold clearRingFlags
    split
    · rw [show ∀ (u : State), u.strand j = sget {} u.strands j from fun _ => rfl]
      have := sget_map ({} : Strand) (fun q (p : Strand) => { p with rings := p.rings.map (fun r => { r with zero := r.zero.filter (fun n =>
            let a := ringSlotAddr r n
            !((List.range (2 ^ r.log2slot.toNat / 64)).any (fun i =>
                localFlat t q (winCode a) (winOff a + 64 * i) 0 / 64 == f / 64))) }) }) t.strands j (by simp)
      simp only [] at this ⊢
      rw [this]
      simp [Strand.unflagged, State.strand]
    · rfl
  rw [← this]; rfl

end Sys2Proof.Machine
end

