-- ==== Sys2Proof/Laws/PerInstr.lean ====
section
/-! SUPPORT. Decoding undoes encoding, instruction by instruction: the family RoundTrip. A row of the table that is no word
has no encoding, and nothing is claimed of it. -/

namespace Sys2Proof.Laws.RoundTrip
open Sys2Proof

/-- The decoder reads the word of a well-formed instruction as that instruction, with every operand. -/
def Statement (i : Instr) : Prop := ∀ w, encode i = some w → i.wf = true → decode w = .ok i

end Sys2Proof.Laws.RoundTrip

open Sys2Proof
set_option Elab.async false

theorem Sys2Proof.Laws.RoundTrip.ill : Statement (.ill) := by
  intro w he hw
  obtain rfl := Option.some.inj (he : some (wIll) = some w)
  rw [decode_00 (by simp (disch := omega) only [wIll, fld_RRR_maj, Nat.sub_self, BitVec.extractLsb'_eq_self])]
  have e0 : ((fld (wIll) 0 11 : BitVec 11)).toNat = 0 := by
    simp (disch := omega) only [wIll, fld_RRR_fn, BitVec.extractLsb'_eq_self]
    rfl
  simp (disch := first | omega | assumption) only [decodeSys, e0]
  simp (disch := first | omega | assumption) only [wIll, fd, fa, fb, fld_RRR_d, fld_RRR_a, fld_RRR_b, Nat.sub_self, BitVec.extractLsb'_eq_self, zero_zero, bind, Except.bind, pure, Except.pure]
theorem Sys2Proof.Laws.RoundTrip.xcall : Statement (.xcall) := by
  intro w he hw
  obtain rfl := Option.some.inj (he : some (wXcall) = some w)
  rw [decode_00 (by simp (disch := omega) only [wXcall, fld_RRR_maj, Nat.sub_self, BitVec.extractLsb'_eq_self])]
  have e0 : ((fld (wXcall) 0 11 : BitVec 11)).toNat = 1 := by
    simp (disch := omega) only [wXcall, fld_RRR_fn, BitVec.extractLsb'_eq_self]
    rfl
  simp (disch := first | omega | assumption) only [decodeSys, e0]
  simp (disch := first | omega | assumption) only [wXcall, fd, fa, fb, fld_RRR_d, fld_RRR_a, fld_RRR_b, Nat.sub_self, BitVec.extractLsb'_eq_self, zero_zero, bind, Except.bind, pure, Except.pure]
theorem Sys2Proof.Laws.RoundTrip.fcall : Statement (.fcall) := by
  intro w he hw
  obtain rfl := Option.some.inj (he : some (wFcall) = some w)
  rw [decode_00 (by simp (disch := omega) only [wFcall, fld_RRR_maj, Nat.sub_self, BitVec.extractLsb'_eq_self])]
  have e0 : ((fld (wFcall) 0 11 : BitVec 11)).toNat = 2 := by
    simp (disch := omega) only [wFcall, fld_RRR_fn, BitVec.extractLsb'_eq_self]
    rfl
  simp (disch := first | omega | assumption) only [decodeSys, e0]
  simp (disch := first | omega | assumption) only [wFcall, fd, fa, fb, fld_RRR_d, fld_RRR_a, fld_RRR_b, Nat.sub_self, BitVec.extractLsb'_eq_self, zero_zero, bind, Except.bind, pure, Except.pure]
theorem Sys2Proof.Laws.RoundTrip.brk : Statement (.brk) := by
  intro w he hw
  obtain rfl := Option.some.inj (he : some (wBrk) = some w)
  rw [decode_00 (by simp (disch := omega) only [wBrk, fld_RRR_maj, Nat.sub_self, BitVec.extractLsb'_eq_self])]
  have e0 : ((fld (wBrk) 0 11 : BitVec 11)).toNat = 3 := by
    simp (disch := omega) only [wBrk, fld_RRR_fn, BitVec.extractLsb'_eq_self]
    rfl
  simp (disch := first | omega | assumption) only [decodeSys, e0]
  simp (disch := first | omega | assumption) only [wBrk, fd, fa, fb, fld_RRR_d, fld_RRR_a, fld_RRR_b, Nat.sub_self, BitVec.extractLsb'_eq_self, zero_zero, bind, Except.bind, pure, Except.pure]
theorem Sys2Proof.Laws.RoundTrip.eret : Statement (.eret) := by
  intro w he hw
  obtain rfl := Option.some.inj (he : some (wEret) = some w)
  rw [decode_00 (by simp (disch := omega) only [wEret, fld_RRR_maj, Nat.sub_self, BitVec.extractLsb'_eq_self])]
  have e0 : ((fld (wEret) 0 11 : BitVec 11)).toNat = 4 := by
    simp (disch := omega) only [wEret, fld_RRR_fn, BitVec.extractLsb'_eq_self]
    rfl
  simp (disch := first | omega | assumption) only [decodeSys, e0]
  simp (disch := first | omega | assumption) only [wEret, fd, fa, fb, fld_RRR_d, fld_RRR_a, fld_RRR_b, Nat.sub_self, BitVec.extractLsb'_eq_self, zero_zero, bind, Except.bind, pure, Except.pure]
theorem Sys2Proof.Laws.RoundTrip.uiret : Statement (.uiret) := by
  intro w he hw
  obtain rfl := Option.some.inj (he : some (wUiret) = some w)
  rw [decode_00 (by simp (disch := omega) only [wUiret, fld_RRR_maj, Nat.sub_self, BitVec.extractLsb'_eq_self])]
  have e0 : ((fld (wUiret) 0 11 : BitVec 11)).toNat = 5 := by
    simp (disch := omega) only [wUiret, fld_RRR_fn, BitVec.extractLsb'_eq_self]
    rfl
  simp (disch := first | omega | assumption) only [decodeSys, e0]
  simp (disch := first | omega | assumption) only [wUiret, fd, fa, fb, fld_RRR_d, fld_RRR_a, fld_RRR_b, Nat.sub_self, BitVec.extractLsb'_eq_self, zero_zero, bind, Except.bind, pure, Except.pure]
theorem Sys2Proof.Laws.RoundTrip.wfe (a : Reg) : Statement (.wfe a) := by
  intro w he hw
  obtain rfl := Option.some.inj (he : some (wWfe a) = some w)
  rw [decode_00 (by simp (disch := omega) only [wWfe, fld_RRR_maj, Nat.sub_self, BitVec.extractLsb'_eq_self])]
  have e0 : ((fld (wWfe a) 0 11 : BitVec 11)).toNat = 6 := by
    simp (disch := omega) only [wWfe, fld_RRR_fn, BitVec.extractLsb'_eq_self]
    rfl
  simp (disch := first | omega | assumption) only [decodeSys, e0]
  simp (disch := first | omega | assumption) only [wWfe, fd, fa, fb, fld_RRR_d, fld_RRR_a, fld_RRR_b, Nat.sub_self, BitVec.extractLsb'_eq_self, zero_zero, bind, Except.bind, pure, Except.pure]
theorem Sys2Proof.Laws.RoundTrip.tlbinvPage (a b : Reg) : Statement (.tlbinvPage a b) := by
  intro w he hw
  obtain rfl := Option.some.inj (he : some (wTlbinvPage a b) = some w)
  rw [decode_00 (by simp (disch := omega) only [wTlbinvPage, fld_RRR_maj, Nat.sub_self, BitVec.extractLsb'_eq_self])]
  have e0 : ((fld (wTlbinvPage a b) 0 11 : BitVec 11)).toNat = 7 := by
    simp (disch := omega) only [wTlbinvPage, fld_RRR_fn, BitVec.extractLsb'_eq_self]
    rfl
  have e1 : ((fd (wTlbinvPage a b) : BitVec 5)).toNat = 0 := by
    simp (disch := omega) only [wTlbinvPage, fd, fld_RRR_d, Nat.sub_self, BitVec.extractLsb'_eq_self]
    rfl
  simp (disch := first | omega | assumption) only [decodeSys, e0, e1]
  simp (disch := first | omega | assumption) only [wTlbinvPage, fa, fb, fld_RRR_a, fld_RRR_b, Nat.sub_self, BitVec.extractLsb'_eq_self]
theorem Sys2Proof.Laws.RoundTrip.tlbinvAsid (b : Reg) : Statement (.tlbinvAsid b) := by
  intro w he hw
  obtain rfl := Option.some.inj (he : some (wTlbinvAsid b) = some w)
  rw [decode_00 (by simp (disch := omega) only [wTlbinvAsid, fld_RRR_maj, Nat.sub_self, BitVec.extractLsb'_eq_self])]
  have e0 : ((fld (wTlbinvAsid b) 0 11 : BitVec 11)).toNat = 7 := by
    simp (disch := omega) only [wTlbinvAsid, fld_RRR_fn, BitVec.extractLsb'_eq_self]
    rfl
  have e1 : ((fd (wTlbinvAsid b) : BitVec 5)).toNat = 1 := by
    simp (disch := omega) only [wTlbinvAsid, fd, fld_RRR_d, Nat.sub_self, BitVec.extractLsb'_eq_self]
    rfl
  simp (disch := first | omega | assumption) only [decodeSys, e0, e1]
  simp (disch := first | omega | assumption) only [wTlbinvAsid, fa, fb, fld_RRR_a, fld_RRR_b, Nat.sub_self, BitVec.extractLsb'_eq_self, zero_zero, bind, Except.bind, pure, Except.pure]
theorem Sys2Proof.Laws.RoundTrip.tlbinvAll : Statement (.tlbinvAll) := by
  intro w he hw
  obtain rfl := Option.some.inj (he : some (wTlbinvAll) = some w)
  rw [decode_00 (by simp (disch := omega) only [wTlbinvAll, fld_RRR_maj, Nat.sub_self, BitVec.extractLsb'_eq_self])]
  have e0 : ((fld (wTlbinvAll) 0 11 : BitVec 11)).toNat = 7 := by
    simp (disch := omega) only [wTlbinvAll, fld_RRR_fn, BitVec.extractLsb'_eq_self]
    rfl
  have e1 : ((fd (wTlbinvAll) : BitVec 5)).toNat = 2 := by
    simp (disch := omega) only [wTlbinvAll, fd, fld_RRR_d, Nat.sub_self, BitVec.extractLsb'_eq_self]
    rfl
  simp (disch := first | omega | assumption) only [decodeSys, e0, e1]
  simp (disch := first | omega | assumption) only [wTlbinvAll, fa, fb, fld_RRR_a, fld_RRR_b, Nat.sub_self, BitVec.extractLsb'_eq_self, zero_zero, bind, Except.bind, pure, Except.pure]
theorem Sys2Proof.Laws.RoundTrip.cwbCore : Statement (.cwbCore) := by
  intro w he hw
  obtain rfl := Option.some.inj (he : some (wCwbCore) = some w)
  rw [decode_00 (by simp (disch := omega) only [wCwbCore, fld_RRR_maj, Nat.sub_self, BitVec.extractLsb'_eq_self])]
  have e0 : ((fld (wCwbCore) 0 11 : BitVec 11)).toNat = 8 := by
    simp (disch := omega) only [wCwbCore, fld_RRR_fn, BitVec.extractLsb'_eq_self]
    rfl
  have e1 : ((fd (wCwbCore) : BitVec 5)).toNat = 0 := by
    simp (disch := omega) only [wCwbCore, fd, fld_RRR_d, Nat.sub_self, BitVec.extractLsb'_eq_self]
    rfl
  simp (disch := first | omega | assumption) only [decodeSys, e0, e1]
  simp (disch := first | omega | assumption) only [wCwbCore, fa, fb, fld_RRR_a, fld_RRR_b, Nat.sub_self, BitVec.extractLsb'_eq_self, zero_zero, bind, Except.bind, pure, Except.pure]
theorem Sys2Proof.Laws.RoundTrip.cwbDie : Statement (.cwbDie) := by
  intro w he hw
  obtain rfl := Option.some.inj (he : some (wCwbDie) = some w)
  rw [decode_00 (by simp (disch := omega) only [wCwbDie, fld_RRR_maj, Nat.sub_self, BitVec.extractLsb'_eq_self])]
  have e0 : ((fld (wCwbDie) 0 11 : BitVec 11)).toNat = 8 := by
    simp (disch := omega) only [wCwbDie, fld_RRR_fn, BitVec.extractLsb'_eq_self]
    rfl
  have e1 : ((fd (wCwbDie) : BitVec 5)).toNat = 1 := by
    simp (disch := omega) only [wCwbDie, fd, fld_RRR_d, Nat.sub_self, BitVec.extractLsb'_eq_self]
    rfl
  simp (disch := first | omega | assumption) only [decodeSys, e0, e1]
  simp (disch := first | omega | assumption) only [wCwbDie, fa, fb, fld_RRR_a, fld_RRR_b, Nat.sub_self, BitVec.extractLsb'_eq_self, zero_zero, bind, Except.bind, pure, Except.pure]
theorem Sys2Proof.Laws.RoundTrip.cwbDevice : Statement (.cwbDevice) := by
  intro w he hw
  obtain rfl := Option.some.inj (he : some (wCwbDevice) = some w)
  rw [decode_00 (by simp (disch := omega) only [wCwbDevice, fld_RRR_maj, Nat.sub_self, BitVec.extractLsb'_eq_self])]
  have e0 : ((fld (wCwbDevice) 0 11 : BitVec 11)).toNat = 8 := by
    simp (disch := omega) only [wCwbDevice, fld_RRR_fn, BitVec.extractLsb'_eq_self]
    rfl
  have e1 : ((fd (wCwbDevice) : BitVec 5)).toNat = 2 := by
    simp (disch := omega) only [wCwbDevice, fd, fld_RRR_d, Nat.sub_self, BitVec.extractLsb'_eq_self]
    rfl
  simp (disch := first | omega | assumption) only [decodeSys, e0, e1]
  simp (disch := first | omega | assumption) only [wCwbDevice, fa, fb, fld_RRR_a, fld_RRR_b, Nat.sub_self, BitVec.extractLsb'_eq_self, zero_zero, bind, Except.bind, pure, Except.pure]
theorem Sys2Proof.Laws.RoundTrip.cwbImage (a b : Reg) : Statement (.cwbImage a b) := by
  intro w he hw
  obtain rfl := Option.some.inj (he : some (wCwbImage a b) = some w)
  rw [decode_00 (by simp (disch := omega) only [wCwbImage, fld_RRR_maj, Nat.sub_self, BitVec.extractLsb'_eq_self])]
  have e0 : ((fld (wCwbImage a b) 0 11 : BitVec 11)).toNat = 8 := by
    simp (disch := omega) only [wCwbImage, fld_RRR_fn, BitVec.extractLsb'_eq_self]
    rfl
  have e1 : ((fd (wCwbImage a b) : BitVec 5)).toNat = 3 := by
    simp (disch := omega) only [wCwbImage, fd, fld_RRR_d, Nat.sub_self, BitVec.extractLsb'_eq_self]
    rfl
  simp (disch := first | omega | assumption) only [decodeSys, e0, e1]
  simp (disch := first | omega | assumption) only [wCwbImage, fa, fb, fld_RRR_a, fld_RRR_b, Nat.sub_self, BitVec.extractLsb'_eq_self]
theorem Sys2Proof.Laws.RoundTrip.halt : Statement (.halt) := by
  intro w he hw
  obtain rfl := Option.some.inj (he : some (wHalt) = some w)
  rw [decode_00 (by simp (disch := omega) only [wHalt, fld_RRR_maj, Nat.sub_self, BitVec.extractLsb'_eq_self])]
  have e0 : ((fld (wHalt) 0 11 : BitVec 11)).toNat = 9 := by
    simp (disch := omega) only [wHalt, fld_RRR_fn, BitVec.extractLsb'_eq_self]
    rfl
  simp (disch := first | omega | assumption) only [decodeSys, e0]
  simp (disch := first | omega | assumption) only [wHalt, fd, fa, fb, fld_RRR_d, fld_RRR_a, fld_RRR_b, Nat.sub_self, BitVec.extractLsb'_eq_self, zero_zero, bind, Except.bind, pure, Except.pure]
theorem Sys2Proof.Laws.RoundTrip.add (d a b : Reg) : Statement (.add d a b) := by
  intro w he hw
  obtain rfl := Option.some.inj (he : some (wAdd d a b) = some w)
  rw [decode_01 (by simp (disch := omega) only [wAdd, fld_RRR_maj, Nat.sub_self, BitVec.extractLsb'_eq_self])]
  have e0 : ((fld (wAdd d a b) 0 11 : BitVec 11)).toNat = 0 := by
    simp (disch := omega) only [wAdd, fld_RRR_fn, BitVec.extractLsb'_eq_self]
    rfl
  simp (disch := first | omega | assumption) only [decodeAlu, e0]
  simp (disch := first | omega | assumption) only [wAdd, fd, fa, fb, fld_RRR_d, fld_RRR_a, fld_RRR_b, Nat.sub_self, BitVec.extractLsb'_eq_self]
theorem Sys2Proof.Laws.RoundTrip.sub (d a b : Reg) : Statement (.sub d a b) := by
  intro w he hw
  obtain rfl := Option.some.inj (he : some (wSub d a b) = some w)
  rw [decode_01 (by simp (disch := omega) only [wSub, fld_RRR_maj, Nat.sub_self, BitVec.extractLsb'_eq_self])]
  have e0 : ((fld (wSub d a b) 0 11 : BitVec 11)).toNat = 1 := by
    simp (disch := omega) only [wSub, fld_RRR_fn, BitVec.extractLsb'_eq_self]
    rfl
  simp (disch := first | omega | assumption) only [decodeAlu, e0]
  simp (disch := first | omega | assumption) only [wSub, fd, fa, fb, fld_RRR_d, fld_RRR_a, fld_RRR_b, Nat.sub_self, BitVec.extractLsb'_eq_self]
theorem Sys2Proof.Laws.RoundTrip.and (d a b : Reg) : Statement (.and d a b) := by
  intro w he hw
  obtain rfl := Option.some.inj (he : some (wAnd d a b) = some w)
  rw [decode_01 (by simp (disch := omega) only [wAnd, fld_RRR_maj, Nat.sub_self, BitVec.extractLsb'_eq_self])]
  have e0 : ((fld (wAnd d a b) 0 11 : BitVec 11)).toNat = 2 := by
    simp (disch := omega) only [wAnd, fld_RRR_fn, BitVec.extractLsb'_eq_self]
    rfl
  simp (disch := first | omega | assumption) only [decodeAlu, e0]
  simp (disch := first | omega | assumption) only [wAnd, fd, fa, fb, fld_RRR_d, fld_RRR_a, fld_RRR_b, Nat.sub_self, BitVec.extractLsb'_eq_self]
theorem Sys2Proof.Laws.RoundTrip.or (d a b : Reg) : Statement (.or d a b) := by
  intro w he hw
  obtain rfl := Option.some.inj (he : some (wOr d a b) = some w)
  rw [decode_01 (by simp (disch := omega) only [wOr, fld_RRR_maj, Nat.sub_self, BitVec.extractLsb'_eq_self])]
  have e0 : ((fld (wOr d a b) 0 11 : BitVec 11)).toNat = 3 := by
    simp (disch := omega) only [wOr, fld_RRR_fn, BitVec.extractLsb'_eq_self]
    rfl
  simp (disch := first | omega | assumption) only [decodeAlu, e0]
  simp (disch := first | omega | assumption) only [wOr, fd, fa, fb, fld_RRR_d, fld_RRR_a, fld_RRR_b, Nat.sub_self, BitVec.extractLsb'_eq_self]
theorem Sys2Proof.Laws.RoundTrip.xor (d a b : Reg) : Statement (.xor d a b) := by
  intro w he hw
  obtain rfl := Option.some.inj (he : some (wXor d a b) = some w)
  rw [decode_01 (by simp (disch := omega) only [wXor, fld_RRR_maj, Nat.sub_self, BitVec.extractLsb'_eq_self])]
  have e0 : ((fld (wXor d a b) 0 11 : BitVec 11)).toNat = 4 := by
    simp (disch := omega) only [wXor, fld_RRR_fn, BitVec.extractLsb'_eq_self]
    rfl
  simp (disch := first | omega | assumption) only [decodeAlu, e0]
  simp (disch := first | omega | assumption) only [wXor, fd, fa, fb, fld_RRR_d, fld_RRR_a, fld_RRR_b, Nat.sub_self, BitVec.extractLsb'_eq_self]
theorem Sys2Proof.Laws.RoundTrip.andn (d a b : Reg) : Statement (.andn d a b) := by
  intro w he hw
  obtain rfl := Option.some.inj (he : some (wAndn d a b) = some w)
  rw [decode_01 (by simp (disch := omega) only [wAndn, fld_RRR_maj, Nat.sub_self, BitVec.extractLsb'_eq_self])]
  have e0 : ((fld (wAndn d a b) 0 11 : BitVec 11)).toNat = 5 := by
    simp (disch := omega) only [wAndn, fld_RRR_fn, BitVec.extractLsb'_eq_self]
    rfl
  simp (disch := first | omega | assumption) only [decodeAlu, e0]
  simp (disch := first | omega | assumption) only [wAndn, fd, fa, fb, fld_RRR_d, fld_RRR_a, fld_RRR_b, Nat.sub_self, BitVec.extractLsb'_eq_self]
theorem Sys2Proof.Laws.RoundTrip.orn (d a b : Reg) : Statement (.orn d a b) := by
  intro w he hw
  obtain rfl := Option.some.inj (he : some (wOrn d a b) = some w)
  rw [decode_01 (by simp (disch := omega) only [wOrn, fld_RRR_maj, Nat.sub_self, BitVec.extractLsb'_eq_self])]
  have e0 : ((fld (wOrn d a b) 0 11 : BitVec 11)).toNat = 6 := by
    simp (disch := omega) only [wOrn, fld_RRR_fn, BitVec.extractLsb'_eq_self]
    rfl
  simp (disch := first | omega | assumption) only [decodeAlu, e0]
  simp (disch := first | omega | assumption) only [wOrn, fd, fa, fb, fld_RRR_d, fld_RRR_a, fld_RRR_b, Nat.sub_self, BitVec.extractLsb'_eq_self]
theorem Sys2Proof.Laws.RoundTrip.sll (d a b : Reg) : Statement (.sll d a b) := by
  intro w he hw
  obtain rfl := Option.some.inj (he : some (wSll d a b) = some w)
  rw [decode_01 (by simp (disch := omega) only [wSll, fld_RRR_maj, Nat.sub_self, BitVec.extractLsb'_eq_self])]
  have e0 : ((fld (wSll d a b) 0 11 : BitVec 11)).toNat = 7 := by
    simp (disch := omega) only [wSll, fld_RRR_fn, BitVec.extractLsb'_eq_self]
    rfl
  simp (disch := first | omega | assumption) only [decodeAlu, e0]
  simp (disch := first | omega | assumption) only [wSll, fd, fa, fb, fld_RRR_d, fld_RRR_a, fld_RRR_b, Nat.sub_self, BitVec.extractLsb'_eq_self]
theorem Sys2Proof.Laws.RoundTrip.srl (d a b : Reg) : Statement (.srl d a b) := by
  intro w he hw
  obtain rfl := Option.some.inj (he : some (wSrl d a b) = some w)
  rw [decode_01 (by simp (disch := omega) only [wSrl, fld_RRR_maj, Nat.sub_self, BitVec.extractLsb'_eq_self])]
  have e0 : ((fld (wSrl d a b) 0 11 : BitVec 11)).toNat = 8 := by
    simp (disch := omega) only [wSrl, fld_RRR_fn, BitVec.extractLsb'_eq_self]
    rfl
  simp (disch := first | omega | assumption) only [decodeAlu, e0]
  simp (disch := first | omega | assumption) only [wSrl, fd, fa, fb, fld_RRR_d, fld_RRR_a, fld_RRR_b, Nat.sub_self, BitVec.extractLsb'_eq_self]
theorem Sys2Proof.Laws.RoundTrip.sra (d a b : Reg) : Statement (.sra d a b) := by
  intro w he hw
  obtain rfl := Option.some.inj (he : some (wSra d a b) = some w)
  rw [decode_01 (by simp (disch := omega) only [wSra, fld_RRR_maj, Nat.sub_self, BitVec.extractLsb'_eq_self])]
  have e0 : ((fld (wSra d a b) 0 11 : BitVec 11)).toNat = 9 := by
    simp (disch := omega) only [wSra, fld_RRR_fn, BitVec.extractLsb'_eq_self]
    rfl
  simp (disch := first | omega | assumption) only [decodeAlu, e0]
  simp (disch := first | omega | assumption) only [wSra, fd, fa, fb, fld_RRR_d, fld_RRR_a, fld_RRR_b, Nat.sub_self, BitVec.extractLsb'_eq_self]
theorem Sys2Proof.Laws.RoundTrip.rotl (d a b : Reg) : Statement (.rotl d a b) := by
  intro w he hw
  obtain rfl := Option.some.inj (he : some (wRotl d a b) = some w)
  rw [decode_01 (by simp (disch := omega) only [wRotl, fld_RRR_maj, Nat.sub_self, BitVec.extractLsb'_eq_self])]
  have e0 : ((fld (wRotl d a b) 0 11 : BitVec 11)).toNat = 10 := by
    simp (disch := omega) only [wRotl, fld_RRR_fn, BitVec.extractLsb'_eq_self]
    rfl
  simp (disch := first | omega | assumption) only [decodeAlu, e0]
  simp (disch := first | omega | assumption) only [wRotl, fd, fa, fb, fld_RRR_d, fld_RRR_a, fld_RRR_b, Nat.sub_self, BitVec.extractLsb'_eq_self]
theorem Sys2Proof.Laws.RoundTrip.rotr (d a b : Reg) : Statement (.rotr d a b) := by
  intro w he hw
  obtain rfl := Option.some.inj (he : some (wRotr d a b) = some w)
  rw [decode_01 (by simp (disch := omega) only [wRotr, fld_RRR_maj, Nat.sub_self, BitVec.extractLsb'_eq_self])]
  have e0 : ((fld (wRotr d a b) 0 11 : BitVec 11)).toNat = 11 := by
    simp (disch := omega) only [wRotr, fld_RRR_fn, BitVec.extractLsb'_eq_self]
    rfl
  simp (disch := first | omega | assumption) only [decodeAlu, e0]
  simp (disch := first | omega | assumption) only [wRotr, fd, fa, fb, fld_RRR_d, fld_RRR_a, fld_RRR_b, Nat.sub_self, BitVec.extractLsb'_eq_self]
theorem Sys2Proof.Laws.RoundTrip.slt (d a b : Reg) : Statement (.slt d a b) := by
  intro w he hw
  obtain rfl := Option.some.inj (he : some (wSlt d a b) = some w)
  rw [decode_01 (by simp (disch := omega) only [wSlt, fld_RRR_maj, Nat.sub_self, BitVec.extractLsb'_eq_self])]
  have e0 : ((fld (wSlt d a b) 0 11 : BitVec 11)).toNat = 12 := by
    simp (disch := omega) only [wSlt, fld_RRR_fn, BitVec.extractLsb'_eq_self]
    rfl
  simp (disch := first | omega | assumption) only [decodeAlu, e0]
  simp (disch := first | omega | assumption) only [wSlt, fd, fa, fb, fld_RRR_d, fld_RRR_a, fld_RRR_b, Nat.sub_self, BitVec.extractLsb'_eq_self]
theorem Sys2Proof.Laws.RoundTrip.sltn (d a b : Reg) : Statement (.sltn d a b) := by
  intro w he hw
  obtain rfl := Option.some.inj (he : some (wSltn d a b) = some w)
  rw [decode_01 (by simp (disch := omega) only [wSltn, fld_RRR_maj, Nat.sub_self, BitVec.extractLsb'_eq_self])]
  have e0 : ((fld (wSltn d a b) 0 11 : BitVec 11)).toNat = 13 := by
    simp (disch := omega) only [wSltn, fld_RRR_fn, BitVec.extractLsb'_eq_self]
    rfl
  simp (disch := first | omega | assumption) only [decodeAlu, e0]
  simp (disch := first | omega | assumption) only [wSltn, fd, fa, fb, fld_RRR_d, fld_RRR_a, fld_RRR_b, Nat.sub_self, BitVec.extractLsb'_eq_self]
theorem Sys2Proof.Laws.RoundTrip.min (d a b : Reg) : Statement (.min d a b) := by
  intro w he hw
  obtain rfl := Option.some.inj (he : some (wMin d a b) = some w)
  rw [decode_01 (by simp (disch := omega) only [wMin, fld_RRR_maj, Nat.sub_self, BitVec.extractLsb'_eq_self])]
  have e0 : ((fld (wMin d a b) 0 11 : BitVec 11)).toNat = 14 := by
    simp (disch := omega) only [wMin, fld_RRR_fn, BitVec.extractLsb'_eq_self]
    rfl
  simp (disch := first | omega | assumption) only [decodeAlu, e0]
  simp (disch := first | omega | assumption) only [wMin, fd, fa, fb, fld_RRR_d, fld_RRR_a, fld_RRR_b, Nat.sub_self, BitVec.extractLsb'_eq_self]
theorem Sys2Proof.Laws.RoundTrip.max (d a b : Reg) : Statement (.max d a b) := by
  intro w he hw
  obtain rfl := Option.some.inj (he : some (wMax d a b) = some w)
  rw [decode_01 (by simp (disch := omega) only [wMax, fld_RRR_maj, Nat.sub_self, BitVec.extractLsb'_eq_self])]
  have e0 : ((fld (wMax d a b) 0 11 : BitVec 11)).toNat = 15 := by
    simp (disch := omega) only [wMax, fld_RRR_fn, BitVec.extractLsb'_eq_self]
    rfl
  simp (disch := first | omega | assumption) only [decodeAlu, e0]
  simp (disch := first | omega | assumption) only [wMax, fd, fa, fb, fld_RRR_d, fld_RRR_a, fld_RRR_b, Nat.sub_self, BitVec.extractLsb'_eq_self]
theorem Sys2Proof.Laws.RoundTrip.minn (d a b : Reg) : Statement (.minn d a b) := by
  intro w he hw
  obtain rfl := Option.some.inj (he : some (wMinn d a b) = some w)
  rw [decode_01 (by simp (disch := omega) only [wMinn, fld_RRR_maj, Nat.sub_self, BitVec.extractLsb'_eq_self])]
  have e0 : ((fld (wMinn d a b) 0 11 : BitVec 11)).toNat = 16 := by
    simp (disch := omega) only [wMinn, fld_RRR_fn, BitVec.extractLsb'_eq_self]
    rfl
  simp (disch := first | omega | assumption) only [decodeAlu, e0]
  simp (disch := first | omega | assumption) only [wMinn, fd, fa, fb, fld_RRR_d, fld_RRR_a, fld_RRR_b, Nat.sub_self, BitVec.extractLsb'_eq_self]
theorem Sys2Proof.Laws.RoundTrip.maxn (d a b : Reg) : Statement (.maxn d a b) := by
  intro w he hw
  obtain rfl := Option.some.inj (he : some (wMaxn d a b) = some w)
  rw [decode_01 (by simp (disch := omega) only [wMaxn, fld_RRR_maj, Nat.sub_self, BitVec.extractLsb'_eq_self])]
  have e0 : ((fld (wMaxn d a b) 0 11 : BitVec 11)).toNat = 17 := by
    simp (disch := omega) only [wMaxn, fld_RRR_fn, BitVec.extractLsb'_eq_self]
    rfl
  simp (disch := first | omega | assumption) only [decodeAlu, e0]
  simp (disch := first | omega | assumption) only [wMaxn, fd, fa, fb, fld_RRR_d, fld_RRR_a, fld_RRR_b, Nat.sub_self, BitVec.extractLsb'_eq_self]
theorem Sys2Proof.Laws.RoundTrip.mul (d a b : Reg) : Statement (.mul d a b) := by
  intro w he hw
  obtain rfl := Option.some.inj (he : some (wMul d a b) = some w)
  rw [decode_01 (by simp (disch := omega) only [wMul, fld_RRR_maj, Nat.sub_self, BitVec.extractLsb'_eq_self])]
  have e0 : ((fld (wMul d a b) 0 11 : BitVec 11)).toNat = 18 := by
    simp (disch := omega) only [wMul, fld_RRR_fn, BitVec.extractLsb'_eq_self]
    rfl
  simp (disch := first | omega | assumption) only [decodeAlu, e0]
  simp (disch := first | omega | assumption) only [wMul, fd, fa, fb, fld_RRR_d, fld_RRR_a, fld_RRR_b, Nat.sub_self, BitVec.extractLsb'_eq_self]
theorem Sys2Proof.Laws.RoundTrip.mulh (d a b : Reg) : Statement (.mulh d a b) := by
  intro w he hw
  obtain rfl := Option.some.inj (he : some (wMulh d a b) = some w)
  rw [decode_01 (by simp (disch := omega) only [wMulh, fld_RRR_maj, Nat.sub_self, BitVec.extractLsb'_eq_self])]
  have e0 : ((fld (wMulh d a b) 0 11 : BitVec 11)).toNat = 19 := by
    simp (disch := omega) only [wMulh, fld_RRR_fn, BitVec.extractLsb'_eq_self]
    rfl
  simp (disch := first | omega | assumption) only [decodeAlu, e0]
  simp (disch := first | omega | assumption) only [wMulh, fd, fa, fb, fld_RRR_d, fld_RRR_a, fld_RRR_b, Nat.sub_self, BitVec.extractLsb'_eq_self]
theorem Sys2Proof.Laws.RoundTrip.mulhn (d a b : Reg) : Statement (.mulhn d a b) := by
  intro w he hw
  obtain rfl := Option.some.inj (he : some (wMulhn d a b) = some w)
  rw [decode_01 (by simp (disch := omega) only [wMulhn, fld_RRR_maj, Nat.sub_self, BitVec.extractLsb'_eq_self])]
  have e0 : ((fld (wMulhn d a b) 0 11 : BitVec 11)).toNat = 20 := by
    simp (disch := omega) only [wMulhn, fld_RRR_fn, BitVec.extractLsb'_eq_self]
    rfl
  simp (disch := first | omega | assumption) only [decodeAlu, e0]
  simp (disch := first | omega | assumption) only [wMulhn, fd, fa, fb, fld_RRR_d, fld_RRR_a, fld_RRR_b, Nat.sub_self, BitVec.extractLsb'_eq_self]
theorem Sys2Proof.Laws.RoundTrip.div (d a b : Reg) : Statement (.div d a b) := by
  intro w he hw
  obtain rfl := Option.some.inj (he : some (wDiv d a b) = some w)
  rw [decode_01 (by simp (disch := omega) only [wDiv, fld_RRR_maj, Nat.sub_self, BitVec.extractLsb'_eq_self])]
  have e0 : ((fld (wDiv d a b) 0 11 : BitVec 11)).toNat = 21 := by
    simp (disch := omega) only [wDiv, fld_RRR_fn, BitVec.extractLsb'_eq_self]
    rfl
  simp (disch := first | omega | assumption) only [decodeAlu, e0]
  simp (disch := first | omega | assumption) only [wDiv, fd, fa, fb, fld_RRR_d, fld_RRR_a, fld_RRR_b, Nat.sub_self, BitVec.extractLsb'_eq_self]
theorem Sys2Proof.Laws.RoundTrip.divn (d a b : Reg) : Statement (.divn d a b) := by
  intro w he hw
  obtain rfl := Option.some.inj (he : some (wDivn d a b) = some w)
  rw [decode_01 (by simp (disch := omega) only [wDivn, fld_RRR_maj, Nat.sub_self, BitVec.extractLsb'_eq_self])]
  have e0 : ((fld (wDivn d a b) 0 11 : BitVec 11)).toNat = 22 := by
    simp (disch := omega) only [wDivn, fld_RRR_fn, BitVec.extractLsb'_eq_self]
    rfl
  simp (disch := first | omega | assumption) only [decodeAlu, e0]
  simp (disch := first | omega | assumption) only [wDivn, fd, fa, fb, fld_RRR_d, fld_RRR_a, fld_RRR_b, Nat.sub_self, BitVec.extractLsb'_eq_self]
theorem Sys2Proof.Laws.RoundTrip.rem (d a b : Reg) : Statement (.rem d a b) := by
  intro w he hw
  obtain rfl := Option.some.inj (he : some (wRem d a b) = some w)
  rw [decode_01 (by simp (disch := omega) only [wRem, fld_RRR_maj, Nat.sub_self, BitVec.extractLsb'_eq_self])]
  have e0 : ((fld (wRem d a b) 0 11 : BitVec 11)).toNat = 23 := by
    simp (disch := omega) only [wRem, fld_RRR_fn, BitVec.extractLsb'_eq_self]
    rfl
  simp (disch := first | omega | assumption) only [decodeAlu, e0]
  simp (disch := first | omega | assumption) only [wRem, fd, fa, fb, fld_RRR_d, fld_RRR_a, fld_RRR_b, Nat.sub_self, BitVec.extractLsb'_eq_self]
theorem Sys2Proof.Laws.RoundTrip.remn (d a b : Reg) : Statement (.remn d a b) := by
  intro w he hw
  obtain rfl := Option.some.inj (he : some (wRemn d a b) = some w)
  rw [decode_01 (by simp (disch := omega) only [wRemn, fld_RRR_maj, Nat.sub_self, BitVec.extractLsb'_eq_self])]
  have e0 : ((fld (wRemn d a b) 0 11 : BitVec 11)).toNat = 24 := by
    simp (disch := omega) only [wRemn, fld_RRR_fn, BitVec.extractLsb'_eq_self]
    rfl
  simp (disch := first | omega | assumption) only [decodeAlu, e0]
  simp (disch := first | omega | assumption) only [wRemn, fd, fa, fb, fld_RRR_d, fld_RRR_a, fld_RRR_b, Nat.sub_self, BitVec.extractLsb'_eq_self]
theorem Sys2Proof.Laws.RoundTrip.clz (d a : Reg) : Statement (.clz d a) := by
  intro w he hw
  obtain rfl := Option.some.inj (he : some (wClz d a) = some w)
  rw [decode_01 (by simp (disch := omega) only [wClz, fld_RRR_maj, Nat.sub_self, BitVec.extractLsb'_eq_self])]
  have e0 : ((fld (wClz d a) 0 11 : BitVec 11)).toNat = 25 := by
    simp (disch := omega) only [wClz, fld_RRR_fn, BitVec.extractLsb'_eq_self]
    rfl
  simp (disch := first | omega | assumption) only [decodeAlu, e0]
  simp (disch := first | omega | assumption) only [wClz, fd, fa, fb, fld_RRR_d, fld_RRR_a, fld_RRR_b, Nat.sub_self, BitVec.extractLsb'_eq_self, zero_zero, bind, Except.bind, pure, Except.pure]
theorem Sys2Proof.Laws.RoundTrip.ctz (d a : Reg) : Statement (.ctz d a) := by
  intro w he hw
  obtain rfl := Option.some.inj (he : some (wCtz d a) = some w)
  rw [decode_01 (by simp (disch := omega) only [wCtz, fld_RRR_maj, Nat.sub_self, BitVec.extractLsb'_eq_self])]
  have e0 : ((fld (wCtz d a) 0 11 : BitVec 11)).toNat = 26 := by
    simp (disch := omega) only [wCtz, fld_RRR_fn, BitVec.extractLsb'_eq_self]
    rfl
  simp (disch := first | omega | assumption) only [decodeAlu, e0]
  simp (disch := first | omega | assumption) only [wCtz, fd, fa, fb, fld_RRR_d, fld_RRR_a, fld_RRR_b, Nat.sub_self, BitVec.extractLsb'_eq_self, zero_zero, bind, Except.bind, pure, Except.pure]
theorem Sys2Proof.Laws.RoundTrip.popc (d a : Reg) : Statement (.popc d a) := by
  intro w he hw
  obtain rfl := Option.some.inj (he : some (wPopc d a) = some w)
  rw [decode_01 (by simp (disch := omega) only [wPopc, fld_RRR_maj, Nat.sub_self, BitVec.extractLsb'_eq_self])]
  have e0 : ((fld (wPopc d a) 0 11 : BitVec 11)).toNat = 27 := by
    simp (disch := omega) only [wPopc, fld_RRR_fn, BitVec.extractLsb'_eq_self]
    rfl
  simp (disch := first | omega | assumption) only [decodeAlu, e0]
  simp (disch := first | omega | assumption) only [wPopc, fd, fa, fb, fld_RRR_d, fld_RRR_a, fld_RRR_b, Nat.sub_self, BitVec.extractLsb'_eq_self, zero_zero, bind, Except.bind, pure, Except.pure]
theorem Sys2Proof.Laws.RoundTrip.bswap (d a : Reg) : Statement (.bswap d a) := by
  intro w he hw
  obtain rfl := Option.some.inj (he : some (wBswap d a) = some w)
  rw [decode_01 (by simp (disch := omega) only [wBswap, fld_RRR_maj, Nat.sub_self, BitVec.extractLsb'_eq_self])]
  have e0 : ((fld (wBswap d a) 0 11 : BitVec 11)).toNat = 28 := by
    simp (disch := omega) only [wBswap, fld_RRR_fn, BitVec.extractLsb'_eq_self]
    rfl
  simp (disch := first | omega | assumption) only [decodeAlu, e0]
  simp (disch := first | omega | assumption) only [wBswap, fd, fa, fb, fld_RRR_d, fld_RRR_a, fld_RRR_b, Nat.sub_self, BitVec.extractLsb'_eq_self, zero_zero, bind, Except.bind, pure, Except.pure]
theorem Sys2Proof.Laws.RoundTrip.addi (d a : Reg) (imm : BitVec 16) : Statement (.addi d a imm) := by
  intro w he hw
  obtain rfl := Option.some.inj (he : some (wAddi d a imm) = some w)
  rw [decode_02 (by simp (disch := omega) only [wAddi, fld_RI_maj, Nat.sub_self, BitVec.extractLsb'_eq_self])]
  simp (disch := first | omega | assumption) only [decodeImm02]
  simp (disch := first | omega | assumption) only [wAddi, fd, fa, fimm16, fld_RI_d, fld_RI_a, fld_RI_imm, Nat.sub_self, BitVec.extractLsb'_eq_self]
theorem Sys2Proof.Laws.RoundTrip.andi (d a : Reg) (imm : BitVec 16) : Statement (.andi d a imm) := by
  intro w he hw
  obtain rfl := Option.some.inj (he : some (wAndi d a imm) = some w)
  rw [decode_03 (by simp (disch := omega) only [wAndi, fld_RI_maj, Nat.sub_self, BitVec.extractLsb'_eq_self])]
  simp (disch := first | omega | assumption) only [decodeImm03]
  simp (disch := first | omega | assumption) only [wAndi, fd, fa, fimm16, fld_RI_d, fld_RI_a, fld_RI_imm, Nat.sub_self, BitVec.extractLsb'_eq_self]
theorem Sys2Proof.Laws.RoundTrip.ori (d a : Reg) (imm : BitVec 16) : Statement (.ori d a imm) := by
  intro w he hw
  obtain rfl := Option.some.inj (he : some (wOri d a imm) = some w)
  rw [decode_04 (by simp (disch := omega) only [wOri, fld_RI_maj, Nat.sub_self, BitVec.extractLsb'_eq_self])]
  simp (disch := first | omega | assumption) only [decodeImm04]
  simp (disch := first | omega | assumption) only [wOri, fd, fa, fimm16, fld_RI_d, fld_RI_a, fld_RI_imm, Nat.sub_self, BitVec.extractLsb'_eq_self]
theorem Sys2Proof.Laws.RoundTrip.xori (d a : Reg) (imm : BitVec 16) : Statement (.xori d a imm) := by
  intro w he hw
  obtain rfl := Option.some.inj (he : some (wXori d a imm) = some w)
  rw [decode_05 (by simp (disch := omega) only [wXori, fld_RI_maj, Nat.sub_self, BitVec.extractLsb'_eq_self])]
  simp (disch := first | omega | assumption) only [decodeImm05]
  simp (disch := first | omega | assumption) only [wXori, fd, fa, fimm16, fld_RI_d, fld_RI_a, fld_RI_imm, Nat.sub_self, BitVec.extractLsb'_eq_self]
theorem Sys2Proof.Laws.RoundTrip.slti (d a : Reg) (imm : BitVec 16) : Statement (.slti d a imm) := by
  intro w he hw
  obtain rfl := Option.some.inj (he : some (wSlti d a imm) = some w)
  rw [decode_06 (by simp (disch := omega) only [wSlti, fld_RI_maj, Nat.sub_self, BitVec.extractLsb'_eq_self])]
  simp (disch := first | omega | assumption) only [decodeImm06]
  simp (disch := first | omega | assumption) only [wSlti, fd, fa, fimm16, fld_RI_d, fld_RI_a, fld_RI_imm, Nat.sub_self, BitVec.extractLsb'_eq_self]
theorem Sys2Proof.Laws.RoundTrip.sltni (d a : Reg) (imm : BitVec 16) : Statement (.sltni d a imm) := by
  intro w he hw
  obtain rfl := Option.some.inj (he : some (wSltni d a imm) = some w)
  rw [decode_07 (by simp (disch := omega) only [wSltni, fld_RI_maj, Nat.sub_self, BitVec.extractLsb'_eq_self])]
  simp (disch := first | omega | assumption) only [decodeImm07]
  simp (disch := first | omega | assumption) only [wSltni, fd, fa, fimm16, fld_RI_d, fld_RI_a, fld_RI_imm, Nat.sub_self, BitVec.extractLsb'_eq_self]
theorem Sys2Proof.Laws.RoundTrip.sllI (d a : Reg) (amount : BitVec 6) : Statement (.sllI d a amount) := by
  intro w he hw
  obtain rfl := Option.some.inj (he : some (wSllI d a amount) = some w)
  rw [decode_08 (by simp (disch := omega) only [wSllI, fld_RI_maj, Nat.sub_self, BitVec.extractLsb'_eq_self])]
  have e0 : ((fld (wSllI d a amount) 14 2 : BitVec 2)).toNat = 0 := by
    simp (disch := omega) only [wSllI, fld_RI_imm, shi_op]
    rfl
  simp (disch := first | omega | assumption) only [decodeShi, e0]
  simp (disch := first | omega | assumption) only [wSllI, fd, fa, fld_RI_d, fld_RI_a, fld_RI_imm, shi_zero, shi_amount, Nat.sub_self, BitVec.extractLsb'_eq_self, need_true, beq_self_eq_true, bind, Except.bind, pure, Except.pure]
theorem Sys2Proof.Laws.RoundTrip.srlI (d a : Reg) (amount : BitVec 6) : Statement (.srlI d a amount) := by
  intro w he hw
  obtain rfl := Option.some.inj (he : some (wSrlI d a amount) = some w)
  rw [decode_08 (by simp (disch := omega) only [wSrlI, fld_RI_maj, Nat.sub_self, BitVec.extractLsb'_eq_self])]
  have e0 : ((fld (wSrlI d a amount) 14 2 : BitVec 2)).toNat = 1 := by
    simp (disch := omega) only [wSrlI, fld_RI_imm, shi_op]
    rfl
  simp (disch := first | omega | assumption) only [decodeShi, e0]
  simp (disch := first | omega | assumption) only [wSrlI, fd, fa, fld_RI_d, fld_RI_a, fld_RI_imm, shi_zero, shi_amount, Nat.sub_self, BitVec.extractLsb'_eq_self, need_true, beq_self_eq_true, bind, Except.bind, pure, Except.pure]
theorem Sys2Proof.Laws.RoundTrip.sraI (d a : Reg) (amount : BitVec 6) : Statement (.sraI d a amount) := by
  intro w he hw
  obtain rfl := Option.some.inj (he : some (wSraI d a amount) = some w)
  rw [decode_08 (by simp (disch := omega) only [wSraI, fld_RI_maj, Nat.sub_self, BitVec.extractLsb'_eq_self])]
  have e0 : ((fld (wSraI d a amount) 14 2 : BitVec 2)).toNat = 2 := by
    simp (disch := omega) only [wSraI, fld_RI_imm, shi_op]
    rfl
  simp (disch := first | omega | assumption) only [decodeShi, e0]
  simp (disch := first | omega | assumption) only [wSraI, fd, fa, fld_RI_d, fld_RI_a, fld_RI_imm, shi_zero, shi_amount, Nat.sub_self, BitVec.extractLsb'_eq_self, need_true, beq_self_eq_true, bind, Except.bind, pure, Except.pure]
theorem Sys2Proof.Laws.RoundTrip.rotrI (d a : Reg) (amount : BitVec 6) : Statement (.rotrI d a amount) := by
  intro w he hw
  obtain rfl := Option.some.inj (he : some (wRotrI d a amount) = some w)
  rw [decode_08 (by simp (disch := omega) only [wRotrI, fld_RI_maj, Nat.sub_self, BitVec.extractLsb'_eq_self])]
  have e0 : ((fld (wRotrI d a amount) 14 2 : BitVec 2)).toNat = 3 := by
    simp (disch := omega) only [wRotrI, fld_RI_imm, shi_op]
    rfl
  simp (disch := first | omega | assumption) only [decodeShi, e0]
  simp (disch := first | omega | assumption) only [wRotrI, fd, fa, fld_RI_d, fld_RI_a, fld_RI_imm, shi_zero, shi_amount, Nat.sub_self, BitVec.extractLsb'_eq_self, need_true, beq_self_eq_true, bind, Except.bind, pure, Except.pure]
theorem Sys2Proof.Laws.RoundTrip.lui (d : Reg) (imm : BitVec 21) : Statement (.lui d imm) := by
  intro w he hw
  obtain rfl := Option.some.inj (he : some (wLui d imm) = some w)
  rw [decode_09 (by simp (disch := omega) only [wLui, fld_UI_maj, Nat.sub_self, BitVec.extractLsb'_eq_self])]
  simp (disch := first | omega | assumption) only [decodeUi09]
  simp (disch := first | omega | assumption) only [wLui, fd, fld_UI_d, fld_UI_imm, Nat.sub_self, BitVec.extractLsb'_eq_self]
theorem Sys2Proof.Laws.RoundTrip.auipc (d : Reg) (imm : BitVec 21) : Statement (.auipc d imm) := by
  intro w he hw
  obtain rfl := Option.some.inj (he : some (wAuipc d imm) = some w)
  rw [decode_0A (by simp (disch := omega) only [wAuipc, fld_UI_maj, Nat.sub_self, BitVec.extractLsb'_eq_self])]
  simp (disch := first | omega | assumption) only [decodeUi0a]
  simp (disch := first | omega | assumption) only [wAuipc, fd, fld_UI_d, fld_UI_imm, Nat.sub_self, BitVec.extractLsb'_eq_self]
theorem Sys2Proof.Laws.RoundTrip.ld8 (d a : Reg) (off : BitVec 13) : Statement (.ld8 d a off) := by
  intro w he hw
  obtain rfl := Option.some.inj (he : some (wLd8 d a off) = some w)
  rw [decode_0B (by simp (disch := omega) only [wLd8, fld_MS_maj, Nat.sub_self, BitVec.extractLsb'_eq_self])]
  have e0 : ((fld (wLd8 d a off) 13 3 : BitVec 3)).toNat = 0 := by
    simp (disch := omega) only [wLd8, fld_MS_w, Nat.sub_self, BitVec.extractLsb'_eq_self]
    rfl
  simp (disch := first | omega | assumption) only [decodeLd, e0]
  simp (disch := first | omega | assumption) only [wLd8, fd, fa, foff13, fld_MS_d, fld_MS_a, fld_MS_off, Nat.sub_self, BitVec.extractLsb'_eq_self]
theorem Sys2Proof.Laws.RoundTrip.ld8s (d a : Reg) (off : BitVec 13) : Statement (.ld8s d a off) := by
  intro w he hw
  obtain rfl := Option.some.inj (he : some (wLd8s d a off) = some w)
  rw [decode_0B (by simp (disch := omega) only [wLd8s, fld_MS_maj, Nat.sub_self, BitVec.extractLsb'_eq_self])]
  have e0 : ((fld (wLd8s d a off) 13 3 : BitVec 3)).toNat = 1 := by
    simp (disch := omega) only [wLd8s, fld_MS_w, Nat.sub_self, BitVec.extractLsb'_eq_self]
    rfl
  simp (disch := first | omega | assumption) only [decodeLd, e0]
  simp (disch := first | omega | assumption) only [wLd8s, fd, fa, foff13, fld_MS_d, fld_MS_a, fld_MS_off, Nat.sub_self, BitVec.extractLsb'_eq_self]
theorem Sys2Proof.Laws.RoundTrip.ld16 (d a : Reg) (off : BitVec 13) : Statement (.ld16 d a off) := by
  intro w he hw
  obtain rfl := Option.some.inj (he : some (wLd16 d a off) = some w)
  rw [decode_0B (by simp (disch := omega) only [wLd16, fld_MS_maj, Nat.sub_self, BitVec.extractLsb'_eq_self])]
  have e0 : ((fld (wLd16 d a off) 13 3 : BitVec 3)).toNat = 2 := by
    simp (disch := omega) only [wLd16, fld_MS_w, Nat.sub_self, BitVec.extractLsb'_eq_self]
    rfl
  simp (disch := first | omega | assumption) only [decodeLd, e0]
  simp (disch := first | omega | assumption) only [wLd16, fd, fa, foff13, fld_MS_d, fld_MS_a, fld_MS_off, Nat.sub_self, BitVec.extractLsb'_eq_self]
theorem Sys2Proof.Laws.RoundTrip.ld16s (d a : Reg) (off : BitVec 13) : Statement (.ld16s d a off) := by
  intro w he hw
  obtain rfl := Option.some.inj (he : some (wLd16s d a off) = some w)
  rw [decode_0B (by simp (disch := omega) only [wLd16s, fld_MS_maj, Nat.sub_self, BitVec.extractLsb'_eq_self])]
  have e0 : ((fld (wLd16s d a off) 13 3 : BitVec 3)).toNat = 3 := by
    simp (disch := omega) only [wLd16s, fld_MS_w, Nat.sub_self, BitVec.extractLsb'_eq_self]
    rfl
  simp (disch := first | omega | assumption) only [decodeLd, e0]
  simp (disch := first | omega | assumption) only [wLd16s, fd, fa, foff13, fld_MS_d, fld_MS_a, fld_MS_off, Nat.sub_self, BitVec.extractLsb'_eq_self]
theorem Sys2Proof.Laws.RoundTrip.ld32 (d a : Reg) (off : BitVec 13) : Statement (.ld32 d a off) := by
  intro w he hw
  obtain rfl := Option.some.inj (he : some (wLd32 d a off) = some w)
  rw [decode_0B (by simp (disch := omega) only [wLd32, fld_MS_maj, Nat.sub_self, BitVec.extractLsb'_eq_self])]
  have e0 : ((fld (wLd32 d a off) 13 3 : BitVec 3)).toNat = 4 := by
    simp (disch := omega) only [wLd32, fld_MS_w, Nat.sub_self, BitVec.extractLsb'_eq_self]
    rfl
  simp (disch := first | omega | assumption) only [decodeLd, e0]
  simp (disch := first | omega | assumption) only [wLd32, fd, fa, foff13, fld_MS_d, fld_MS_a, fld_MS_off, Nat.sub_self, BitVec.extractLsb'_eq_self]
theorem Sys2Proof.Laws.RoundTrip.ld32s (d a : Reg) (off : BitVec 13) : Statement (.ld32s d a off) := by
  intro w he hw
  obtain rfl := Option.some.inj (he : some (wLd32s d a off) = some w)
  rw [decode_0B (by simp (disch := omega) only [wLd32s, fld_MS_maj, Nat.sub_self, BitVec.extractLsb'_eq_self])]
  have e0 : ((fld (wLd32s d a off) 13 3 : BitVec 3)).toNat = 5 := by
    simp (disch := omega) only [wLd32s, fld_MS_w, Nat.sub_self, BitVec.extractLsb'_eq_self]
    rfl
  simp (disch := first | omega | assumption) only [decodeLd, e0]
  simp (disch := first | omega | assumption) only [wLd32s, fd, fa, foff13, fld_MS_d, fld_MS_a, fld_MS_off, Nat.sub_self, BitVec.extractLsb'_eq_self]
theorem Sys2Proof.Laws.RoundTrip.ld64 (d a : Reg) (off : BitVec 13) : Statement (.ld64 d a off) := by
  intro w he hw
  obtain rfl := Option.some.inj (he : some (wLd64 d a off) = some w)
  rw [decode_0B (by simp (disch := omega) only [wLd64, fld_MS_maj, Nat.sub_self, BitVec.extractLsb'_eq_self])]
  have e0 : ((fld (wLd64 d a off) 13 3 : BitVec 3)).toNat = 6 := by
    simp (disch := omega) only [wLd64, fld_MS_w, Nat.sub_self, BitVec.extractLsb'_eq_self]
    rfl
  simp (disch := first | omega | assumption) only [decodeLd, e0]
  simp (disch := first | omega | assumption) only [wLd64, fd, fa, foff13, fld_MS_d, fld_MS_a, fld_MS_off, Nat.sub_self, BitVec.extractLsb'_eq_self]
theorem Sys2Proof.Laws.RoundTrip.st8 (r a : Reg) (off : BitVec 13) : Statement (.st8 r a off) := by
  intro w he hw
  obtain rfl := Option.some.inj (he : some (wSt8 r a off) = some w)
  rw [decode_0C (by simp (disch := omega) only [wSt8, fld_MS_maj, Nat.sub_self, BitVec.extractLsb'_eq_self])]
  have e0 : ((fld (wSt8 r a off) 13 3 : BitVec 3)).toNat = 0 := by
    simp (disch := omega) only [wSt8, fld_MS_w, Nat.sub_self, BitVec.extractLsb'_eq_self]
    rfl
  simp (disch := first | omega | assumption) only [decodeSt, e0]
  simp (disch := first | omega | assumption) only [wSt8, fd, fa, foff13, fld_MS_d, fld_MS_a, fld_MS_off, Nat.sub_self, BitVec.extractLsb'_eq_self]
theorem Sys2Proof.Laws.RoundTrip.st16 (r a : Reg) (off : BitVec 13) : Statement (.st16 r a off) := by
  intro w he hw
  obtain rfl := Option.some.inj (he : some (wSt16 r a off) = some w)
  rw [decode_0C (by simp (disch := omega) only [wSt16, fld_MS_maj, Nat.sub_self, BitVec.extractLsb'_eq_self])]
  have e0 : ((fld (wSt16 r a off) 13 3 : BitVec 3)).toNat = 1 := by
    simp (disch := omega) only [wSt16, fld_MS_w, Nat.sub_self, BitVec.extractLsb'_eq_self]
    rfl
  simp (disch := first | omega | assumption) only [decodeSt, e0]
  simp (disch := first | omega | assumption) only [wSt16, fd, fa, foff13, fld_MS_d, fld_MS_a, fld_MS_off, Nat.sub_self, BitVec.extractLsb'_eq_self]
theorem Sys2Proof.Laws.RoundTrip.st32 (r a : Reg) (off : BitVec 13) : Statement (.st32 r a off) := by
  intro w he hw
  obtain rfl := Option.some.inj (he : some (wSt32 r a off) = some w)
  rw [decode_0C (by simp (disch := omega) only [wSt32, fld_MS_maj, Nat.sub_self, BitVec.extractLsb'_eq_self])]
  have e0 : ((fld (wSt32 r a off) 13 3 : BitVec 3)).toNat = 2 := by
    simp (disch := omega) only [wSt32, fld_MS_w, Nat.sub_self, BitVec.extractLsb'_eq_self]
    rfl
  simp (disch := first | omega | assumption) only [decodeSt, e0]
  simp (disch := first | omega | assumption) only [wSt32, fd, fa, foff13, fld_MS_d, fld_MS_a, fld_MS_off, Nat.sub_self, BitVec.extractLsb'_eq_self]
theorem Sys2Proof.Laws.RoundTrip.st64 (r a : Reg) (off : BitVec 13) : Statement (.st64 r a off) := by
  intro w he hw
  obtain rfl := Option.some.inj (he : some (wSt64 r a off) = some w)
  rw [decode_0C (by simp (disch := omega) only [wSt64, fld_MS_maj, Nat.sub_self, BitVec.extractLsb'_eq_self])]
  have e0 : ((fld (wSt64 r a off) 13 3 : BitVec 3)).toNat = 3 := by
    simp (disch := omega) only [wSt64, fld_MS_w, Nat.sub_self, BitVec.extractLsb'_eq_self]
    rfl
  simp (disch := first | omega | assumption) only [decodeSt, e0]
  simp (disch := first | omega | assumption) only [wSt64, fd, fa, foff13, fld_MS_d, fld_MS_a, fld_MS_off, Nat.sub_self, BitVec.extractLsb'_eq_self]
theorem Sys2Proof.Laws.RoundTrip.ldacq (sc : Scope) (d a : Reg) : Statement (.ldacq sc d a) := by
  intro w he hw
  obtain rfl := Option.some.inj (he : some (wLdacq sc d a) = some w)
  rw [decode_0D (by simp (disch := omega) only [wLdacq, fld_RRR_maj, Nat.sub_self, BitVec.extractLsb'_eq_self])]
  have e0 : ((fld (wLdacq sc d a) 0 5 : BitVec 5)).toNat = 0 := by
    simp (disch := omega) only [wLdacq, fld_RRR_fn, fn_amo_op]
    rfl
  simp (disch := first | omega | assumption) only [decodeAmo, e0]
  simp (disch := first | omega | assumption) only [wLdacq, fd, fa, fb, fld_RRR_d, fld_RRR_a, fld_RRR_b, fld_RRR_fn, fn_amo_zero, fn_amo_sc, scopeOf_code, Nat.sub_self, BitVec.extractLsb'_eq_self, need_true, zero_zero, beq_self_eq_true, bind, Except.bind, pure, Except.pure]
theorem Sys2Proof.Laws.RoundTrip.strel (sc : Scope) (a b : Reg) : Statement (.strel sc a b) := by
  intro w he hw
  obtain rfl := Option.some.inj (he : some (wStrel sc a b) = some w)
  rw [decode_0D (by simp (disch := omega) only [wStrel, fld_RRR_maj, Nat.sub_self, BitVec.extractLsb'_eq_self])]
  have e0 : ((fld (wStrel sc a b) 0 5 : BitVec 5)).toNat = 1 := by
    simp (disch := omega) only [wStrel, fld_RRR_fn, fn_amo_op]
    rfl
  simp (disch := first | omega | assumption) only [decodeAmo, e0]
  simp (disch := first | omega | assumption) only [wStrel, fd, fa, fb, fld_RRR_d, fld_RRR_a, fld_RRR_b, fld_RRR_fn, fn_amo_zero, fn_amo_sc, scopeOf_code, Nat.sub_self, BitVec.extractLsb'_eq_self, need_true, zero_zero, beq_self_eq_true, bind, Except.bind, pure, Except.pure]
theorem Sys2Proof.Laws.RoundTrip.amoswap (sc : Scope) (d a b : Reg) : Statement (.amoswap sc d a b) := by
  intro w he hw
  obtain rfl := Option.some.inj (he : some (wAmoswap sc d a b) = some w)
  rw [decode_0D (by simp (disch := omega) only [wAmoswap, fld_RRR_maj, Nat.sub_self, BitVec.extractLsb'_eq_self])]
  have e0 : ((fld (wAmoswap sc d a b) 0 5 : BitVec 5)).toNat = 2 := by
    simp (disch := omega) only [wAmoswap, fld_RRR_fn, fn_amo_op]
    rfl
  simp (disch := first | omega | assumption) only [decodeAmo, e0]
  simp (disch := first | omega | assumption) only [wAmoswap, fd, fa, fb, fld_RRR_d, fld_RRR_a, fld_RRR_b, fld_RRR_fn, fn_amo_zero, fn_amo_sc, scopeOf_code, Nat.sub_self, BitVec.extractLsb'_eq_self, need_true, beq_self_eq_true, bind, Except.bind, pure, Except.pure]
theorem Sys2Proof.Laws.RoundTrip.amoadd (sc : Scope) (d a b : Reg) : Statement (.amoadd sc d a b) := by
  intro w he hw
  obtain rfl := Option.some.inj (he : some (wAmoadd sc d a b) = some w)
  rw [decode_0D (by simp (disch := omega) only [wAmoadd, fld_RRR_maj, Nat.sub_self, BitVec.extractLsb'_eq_self])]
  have e0 : ((fld (wAmoadd sc d a b) 0 5 : BitVec 5)).toNat = 3 := by
    simp (disch := omega) only [wAmoadd, fld_RRR_fn, fn_amo_op]
    rfl
  simp (disch := first | omega | assumption) only [decodeAmo, e0]
  simp (disch := first | omega | assumption) only [wAmoadd, fd, fa, fb, fld_RRR_d, fld_RRR_a, fld_RRR_b, fld_RRR_fn, fn_amo_zero, fn_amo_sc, scopeOf_code, Nat.sub_self, BitVec.extractLsb'_eq_self, need_true, beq_self_eq_true, bind, Except.bind, pure, Except.pure]
theorem Sys2Proof.Laws.RoundTrip.amoand (sc : Scope) (d a b : Reg) : Statement (.amoand sc d a b) := by
  intro w he hw
  obtain rfl := Option.some.inj (he : some (wAmoand sc d a b) = some w)
  rw [decode_0D (by simp (disch := omega) only [wAmoand, fld_RRR_maj, Nat.sub_self, BitVec.extractLsb'_eq_self])]
  have e0 : ((fld (wAmoand sc d a b) 0 5 : BitVec 5)).toNat = 4 := by
    simp (disch := omega) only [wAmoand, fld_RRR_fn, fn_amo_op]
    rfl
  simp (disch := first | omega | assumption) only [decodeAmo, e0]
  simp (disch := first | omega | assumption) only [wAmoand, fd, fa, fb, fld_RRR_d, fld_RRR_a, fld_RRR_b, fld_RRR_fn, fn_amo_zero, fn_amo_sc, scopeOf_code, Nat.sub_self, BitVec.extractLsb'_eq_self, need_true, beq_self_eq_true, bind, Except.bind, pure, Except.pure]
theorem Sys2Proof.Laws.RoundTrip.amoor (sc : Scope) (d a b : Reg) : Statement (.amoor sc d a b) := by
  intro w he hw
  obtain rfl := Option.some.inj (he : some (wAmoor sc d a b) = some w)
  rw [decode_0D (by simp (disch := omega) only [wAmoor, fld_RRR_maj, Nat.sub_self, BitVec.extractLsb'_eq_self])]
  have e0 : ((fld (wAmoor sc d a b) 0 5 : BitVec 5)).toNat = 5 := by
    simp (disch := omega) only [wAmoor, fld_RRR_fn, fn_amo_op]
    rfl
  simp (disch := first | omega | assumption) only [decodeAmo, e0]
  simp (disch := first | omega | assumption) only [wAmoor, fd, fa, fb, fld_RRR_d, fld_RRR_a, fld_RRR_b, fld_RRR_fn, fn_amo_zero, fn_amo_sc, scopeOf_code, Nat.sub_self, BitVec.extractLsb'_eq_self, need_true, beq_self_eq_true, bind, Except.bind, pure, Except.pure]
theorem Sys2Proof.Laws.RoundTrip.amoxor (sc : Scope) (d a b : Reg) : Statement (.amoxor sc d a b) := by
  intro w he hw
  obtain rfl := Option.some.inj (he : some (wAmoxor sc d a b) = some w)
  rw [decode_0D (by simp (disch := omega) only [wAmoxor, fld_RRR_maj, Nat.sub_self, BitVec.extractLsb'_eq_self])]
  have e0 : ((fld (wAmoxor sc d a b) 0 5 : BitVec 5)).toNat = 6 := by
    simp (disch := omega) only [wAmoxor, fld_RRR_fn, fn_amo_op]
    rfl
  simp (disch := first | omega | assumption) only [decodeAmo, e0]
  simp (disch := first | omega | assumption) only [wAmoxor, fd, fa, fb, fld_RRR_d, fld_RRR_a, fld_RRR_b, fld_RRR_fn, fn_amo_zero, fn_amo_sc, scopeOf_code, Nat.sub_self, BitVec.extractLsb'_eq_self, need_true, beq_self_eq_true, bind, Except.bind, pure, Except.pure]
theorem Sys2Proof.Laws.RoundTrip.amomin (sc : Scope) (d a b : Reg) : Statement (.amomin sc d a b) := by
  intro w he hw
  obtain rfl := Option.some.inj (he : some (wAmomin sc d a b) = some w)
  rw [decode_0D (by simp (disch := omega) only [wAmomin, fld_RRR_maj, Nat.sub_self, BitVec.extractLsb'_eq_self])]
  have e0 : ((fld (wAmomin sc d a b) 0 5 : BitVec 5)).toNat = 7 := by
    simp (disch := omega) only [wAmomin, fld_RRR_fn, fn_amo_op]
    rfl
  simp (disch := first | omega | assumption) only [decodeAmo, e0]
  simp (disch := first | omega | assumption) only [wAmomin, fd, fa, fb, fld_RRR_d, fld_RRR_a, fld_RRR_b, fld_RRR_fn, fn_amo_zero, fn_amo_sc, scopeOf_code, Nat.sub_self, BitVec.extractLsb'_eq_self, need_true, beq_self_eq_true, bind, Except.bind, pure, Except.pure]
theorem Sys2Proof.Laws.RoundTrip.amomax (sc : Scope) (d a b : Reg) : Statement (.amomax sc d a b) := by
  intro w he hw
  obtain rfl := Option.some.inj (he : some (wAmomax sc d a b) = some w)
  rw [decode_0D (by simp (disch := omega) only [wAmomax, fld_RRR_maj, Nat.sub_self, BitVec.extractLsb'_eq_self])]
  have e0 : ((fld (wAmomax sc d a b) 0 5 : BitVec 5)).toNat = 8 := by
    simp (disch := omega) only [wAmomax, fld_RRR_fn, fn_amo_op]
    rfl
  simp (disch := first | omega | assumption) only [decodeAmo, e0]
  simp (disch := first | omega | assumption) only [wAmomax, fd, fa, fb, fld_RRR_d, fld_RRR_a, fld_RRR_b, fld_RRR_fn, fn_amo_zero, fn_amo_sc, scopeOf_code, Nat.sub_self, BitVec.extractLsb'_eq_self, need_true, beq_self_eq_true, bind, Except.bind, pure, Except.pure]
theorem Sys2Proof.Laws.RoundTrip.amominn (sc : Scope) (d a b : Reg) : Statement (.amominn sc d a b) := by
  intro w he hw
  obtain rfl := Option.some.inj (he : some (wAmominn sc d a b) = some w)
  rw [decode_0D (by simp (disch := omega) only [wAmominn, fld_RRR_maj, Nat.sub_self, BitVec.extractLsb'_eq_self])]
  have e0 : ((fld (wAmominn sc d a b) 0 5 : BitVec 5)).toNat = 9 := by
    simp (disch := omega) only [wAmominn, fld_RRR_fn, fn_amo_op]
    rfl
  simp (disch := first | omega | assumption) only [decodeAmo, e0]
  simp (disch := first | omega | assumption) only [wAmominn, fd, fa, fb, fld_RRR_d, fld_RRR_a, fld_RRR_b, fld_RRR_fn, fn_amo_zero, fn_amo_sc, scopeOf_code, Nat.sub_self, BitVec.extractLsb'_eq_self, need_true, beq_self_eq_true, bind, Except.bind, pure, Except.pure]
theorem Sys2Proof.Laws.RoundTrip.amomaxn (sc : Scope) (d a b : Reg) : Statement (.amomaxn sc d a b) := by
  intro w he hw
  obtain rfl := Option.some.inj (he : some (wAmomaxn sc d a b) = some w)
  rw [decode_0D (by simp (disch := omega) only [wAmomaxn, fld_RRR_maj, Nat.sub_self, BitVec.extractLsb'_eq_self])]
  have e0 : ((fld (wAmomaxn sc d a b) 0 5 : BitVec 5)).toNat = 10 := by
    simp (disch := omega) only [wAmomaxn, fld_RRR_fn, fn_amo_op]
    rfl
  simp (disch := first | omega | assumption) only [decodeAmo, e0]
  simp (disch := first | omega | assumption) only [wAmomaxn, fd, fa, fb, fld_RRR_d, fld_RRR_a, fld_RRR_b, fld_RRR_fn, fn_amo_zero, fn_amo_sc, scopeOf_code, Nat.sub_self, BitVec.extractLsb'_eq_self, need_true, beq_self_eq_true, bind, Except.bind, pure, Except.pure]
theorem Sys2Proof.Laws.RoundTrip.amocas (sc : Scope) (d a b : Reg) : Statement (.amocas sc d a b) := by
  intro w he hw
  obtain rfl := Option.some.inj (he : some (wAmocas sc d a b) = some w)
  rw [decode_0D (by simp (disch := omega) only [wAmocas, fld_RRR_maj, Nat.sub_self, BitVec.extractLsb'_eq_self])]
  have e0 : ((fld (wAmocas sc d a b) 0 5 : BitVec 5)).toNat = 11 := by
    simp (disch := omega) only [wAmocas, fld_RRR_fn, fn_amo_op]
    rfl
  simp (disch := first | omega | assumption) only [decodeAmo, e0]
  simp (disch := first | omega | assumption) only [wAmocas, fd, fa, fb, fld_RRR_d, fld_RRR_a, fld_RRR_b, fld_RRR_fn, fn_amo_zero, fn_amo_sc, scopeOf_code, Nat.sub_self, BitVec.extractLsb'_eq_self, need_true, beq_self_eq_true, bind, Except.bind, pure, Except.pure]
theorem Sys2Proof.Laws.RoundTrip.ldf (sc : Scope) (d a : Reg) : Statement (.ldf sc d a) := by
  intro w he hw
  obtain rfl := Option.some.inj (he : some (wLdf sc d a) = some w)
  rw [decode_0D (by simp (disch := omega) only [wLdf, fld_RRR_maj, Nat.sub_self, BitVec.extractLsb'_eq_self])]
  have e0 : ((fld (wLdf sc d a) 0 5 : BitVec 5)).toNat = 12 := by
    simp (disch := omega) only [wLdf, fld_RRR_fn, fn_amo_op]
    rfl
  simp (disch := first | omega | assumption) only [decodeAmo, e0]
  simp (disch := first | omega | assumption) only [wLdf, fd, fa, fb, fld_RRR_d, fld_RRR_a, fld_RRR_b, fld_RRR_fn, fn_amo_zero, fn_amo_sc, scopeOf_code, Nat.sub_self, BitVec.extractLsb'_eq_self, need_true, zero_zero, beq_self_eq_true, bind, Except.bind, pure, Except.pure]
theorem Sys2Proof.Laws.RoundTrip.ldc (sc : Scope) (d a : Reg) : Statement (.ldc sc d a) := by
  intro w he hw
  obtain rfl := Option.some.inj (he : some (wLdc sc d a) = some w)
  rw [decode_0D (by simp (disch := omega) only [wLdc, fld_RRR_maj, Nat.sub_self, BitVec.extractLsb'_eq_self])]
  have e0 : ((fld (wLdc sc d a) 0 5 : BitVec 5)).toNat = 13 := by
    simp (disch := omega) only [wLdc, fld_RRR_fn, fn_amo_op]
    rfl
  simp (disch := first | omega | assumption) only [decodeAmo, e0]
  simp (disch := first | omega | assumption) only [wLdc, fd, fa, fb, fld_RRR_d, fld_RRR_a, fld_RRR_b, fld_RRR_fn, fn_amo_zero, fn_amo_sc, scopeOf_code, Nat.sub_self, BitVec.extractLsb'_eq_self, need_true, zero_zero, beq_self_eq_true, bind, Except.bind, pure, Except.pure]
theorem Sys2Proof.Laws.RoundTrip.stf (sc : Scope) (a b : Reg) : Statement (.stf sc a b) := by
  intro w he hw
  obtain rfl := Option.some.inj (he : some (wStf sc a b) = some w)
  rw [decode_0D (by simp (disch := omega) only [wStf, fld_RRR_maj, Nat.sub_self, BitVec.extractLsb'_eq_self])]
  have e0 : ((fld (wStf sc a b) 0 5 : BitVec 5)).toNat = 14 := by
    simp (disch := omega) only [wStf, fld_RRR_fn, fn_amo_op]
    rfl
  simp (disch := first | omega | assumption) only [decodeAmo, e0]
  simp (disch := first | omega | assumption) only [wStf, fd, fa, fb, fld_RRR_d, fld_RRR_a, fld_RRR_b, fld_RRR_fn, fn_amo_zero, fn_amo_sc, scopeOf_code, Nat.sub_self, BitVec.extractLsb'_eq_self, need_true, zero_zero, beq_self_eq_true, bind, Except.bind, pure, Except.pure]
theorem Sys2Proof.Laws.RoundTrip.beq (a b : Reg) (off : BitVec 13) : Statement (.beq a b off) := by
  intro w he hw
  obtain rfl := Option.some.inj (he : some (wBeq a b off) = some w)
  rw [decode_0E (by simp (disch := omega) only [wBeq, fld_MS_maj, Nat.sub_self, BitVec.extractLsb'_eq_self])]
  have e0 : ((fld (wBeq a b off) 13 3 : BitVec 3)).toNat = 0 := by
    simp (disch := omega) only [wBeq, fld_MS_w, Nat.sub_self, BitVec.extractLsb'_eq_self]
    rfl
  simp (disch := first | omega | assumption) only [decodeBr, e0]
  simp (disch := first | omega | assumption) only [wBeq, fd, fa, foff13, fld_MS_d, fld_MS_a, fld_MS_off, Nat.sub_self, BitVec.extractLsb'_eq_self]
theorem Sys2Proof.Laws.RoundTrip.bne (a b : Reg) (off : BitVec 13) : Statement (.bne a b off) := by
  intro w he hw
  obtain rfl := Option.some.inj (he : some (wBne a b off) = some w)
  rw [decode_0E (by simp (disch := omega) only [wBne, fld_MS_maj, Nat.sub_self, BitVec.extractLsb'_eq_self])]
  have e0 : ((fld (wBne a b off) 13 3 : BitVec 3)).toNat = 1 := by
    simp (disch := omega) only [wBne, fld_MS_w, Nat.sub_self, BitVec.extractLsb'_eq_self]
    rfl
  simp (disch := first | omega | assumption) only [decodeBr, e0]
  simp (disch := first | omega | assumption) only [wBne, fd, fa, foff13, fld_MS_d, fld_MS_a, fld_MS_off, Nat.sub_self, BitVec.extractLsb'_eq_self]
theorem Sys2Proof.Laws.RoundTrip.blt (a b : Reg) (off : BitVec 13) : Statement (.blt a b off) := by
  intro w he hw
  obtain rfl := Option.some.inj (he : some (wBlt a b off) = some w)
  rw [decode_0E (by simp (disch := omega) only [wBlt, fld_MS_maj, Nat.sub_self, BitVec.extractLsb'_eq_self])]
  have e0 : ((fld (wBlt a b off) 13 3 : BitVec 3)).toNat = 2 := by
    simp (disch := omega) only [wBlt, fld_MS_w, Nat.sub_self, BitVec.extractLsb'_eq_self]
    rfl
  simp (disch := first | omega | assumption) only [decodeBr, e0]
  simp (disch := first | omega | assumption) only [wBlt, fd, fa, foff13, fld_MS_d, fld_MS_a, fld_MS_off, Nat.sub_self, BitVec.extractLsb'_eq_self]
theorem Sys2Proof.Laws.RoundTrip.bge (a b : Reg) (off : BitVec 13) : Statement (.bge a b off) := by
  intro w he hw
  obtain rfl := Option.some.inj (he : some (wBge a b off) = some w)
  rw [decode_0E (by simp (disch := omega) only [wBge, fld_MS_maj, Nat.sub_self, BitVec.extractLsb'_eq_self])]
  have e0 : ((fld (wBge a b off) 13 3 : BitVec 3)).toNat = 3 := by
    simp (disch := omega) only [wBge, fld_MS_w, Nat.sub_self, BitVec.extractLsb'_eq_self]
    rfl
  simp (disch := first | omega | assumption) only [decodeBr, e0]
  simp (disch := first | omega | assumption) only [wBge, fd, fa, foff13, fld_MS_d, fld_MS_a, fld_MS_off, Nat.sub_self, BitVec.extractLsb'_eq_self]
theorem Sys2Proof.Laws.RoundTrip.bltn (a b : Reg) (off : BitVec 13) : Statement (.bltn a b off) := by
  intro w he hw
  obtain rfl := Option.some.inj (he : some (wBltn a b off) = some w)
  rw [decode_0E (by simp (disch := omega) only [wBltn, fld_MS_maj, Nat.sub_self, BitVec.extractLsb'_eq_self])]
  have e0 : ((fld (wBltn a b off) 13 3 : BitVec 3)).toNat = 4 := by
    simp (disch := omega) only [wBltn, fld_MS_w, Nat.sub_self, BitVec.extractLsb'_eq_self]
    rfl
  simp (disch := first | omega | assumption) only [decodeBr, e0]
  simp (disch := first | omega | assumption) only [wBltn, fd, fa, foff13, fld_MS_d, fld_MS_a, fld_MS_off, Nat.sub_self, BitVec.extractLsb'_eq_self]
theorem Sys2Proof.Laws.RoundTrip.bgen (a b : Reg) (off : BitVec 13) : Statement (.bgen a b off) := by
  intro w he hw
  obtain rfl := Option.some.inj (he : some (wBgen a b off) = some w)
  rw [decode_0E (by simp (disch := omega) only [wBgen, fld_MS_maj, Nat.sub_self, BitVec.extractLsb'_eq_self])]
  have e0 : ((fld (wBgen a b off) 13 3 : BitVec 3)).toNat = 5 := by
    simp (disch := omega) only [wBgen, fld_MS_w, Nat.sub_self, BitVec.extractLsb'_eq_self]
    rfl
  simp (disch := first | omega | assumption) only [decodeBr, e0]
  simp (disch := first | omega | assumption) only [wBgen, fd, fa, foff13, fld_MS_d, fld_MS_a, fld_MS_off, Nat.sub_self, BitVec.extractLsb'_eq_self]
theorem Sys2Proof.Laws.RoundTrip.jl (off : BitVec 26) : Statement (.jl off) := by
  intro w he hw
  obtain rfl := Option.some.inj (he : some (wJl off) = some w)
  rw [decode_0F (by simp (disch := omega) only [wJl, fld_JM_maj, Nat.sub_self, BitVec.extractLsb'_eq_self])]
  simp (disch := first | omega | assumption) only [decodeJl]
  simp (disch := first | omega | assumption) only [wJl, fld_JM_off, BitVec.extractLsb'_eq_self]
theorem Sys2Proof.Laws.RoundTrip.jlr (d a : Reg) (imm : BitVec 16) : Statement (.jlr d a imm) := by
  intro w he hw
  obtain rfl := Option.some.inj (he : some (wJlr d a imm) = some w)
  rw [decode_10 (by simp (disch := omega) only [wJlr, fld_RI_maj, Nat.sub_self, BitVec.extractLsb'_eq_self])]
  simp (disch := first | omega | assumption) only [decodeJlr]
  simp (disch := first | omega | assumption) only [wJlr, fd, fa, fimm16, fld_RI_d, fld_RI_a, fld_RI_imm, Nat.sub_self, BitVec.extractLsb'_eq_self]
theorem Sys2Proof.Laws.RoundTrip.fadd (f : FpFmt) (r : Rm) (d a b : Reg) : Statement (.fadd f r d a b) := by
  intro w he hw
  obtain rfl := Option.some.inj (he : some (wFadd f r d a b) = some w)
  rw [decode_11 (by simp (disch := omega) only [wFadd, fld_RRR_maj, Nat.sub_self, BitVec.extractLsb'_eq_self])]
  have e0 : ((fld (wFadd f r d a b) 0 5 : BitVec 5)).toNat = 0 := by
    simp (disch := omega) only [wFadd, fld_RRR_fn, fn_fps_op]
    rfl
  simp (disch := first | omega | assumption) only [decodeFps, e0]
  simp (disch := first | omega | assumption) only [wFadd, fd, fa, fb, fld_RRR_d, fld_RRR_a, fld_RRR_b, fld_RRR_fn, fn_fps_zero, fn_fps_rm, fn_fps_fmt, fpFmtOf_code, rmOf_code, Nat.sub_self, BitVec.extractLsb'_eq_self, need_true, beq_self_eq_true, bind, Except.bind, pure, Except.pure]
theorem Sys2Proof.Laws.RoundTrip.fsub (f : FpFmt) (r : Rm) (d a b : Reg) : Statement (.fsub f r d a b) := by
  intro w he hw
  obtain rfl := Option.some.inj (he : some (wFsub f r d a b) = some w)
  rw [decode_11 (by simp (disch := omega) only [wFsub, fld_RRR_maj, Nat.sub_self, BitVec.extractLsb'_eq_self])]
  have e0 : ((fld (wFsub f r d a b) 0 5 : BitVec 5)).toNat = 1 := by
    simp (disch := omega) only [wFsub, fld_RRR_fn, fn_fps_op]
    rfl
  simp (disch := first | omega | assumption) only [decodeFps, e0]
  simp (disch := first | omega | assumption) only [wFsub, fd, fa, fb, fld_RRR_d, fld_RRR_a, fld_RRR_b, fld_RRR_fn, fn_fps_zero, fn_fps_rm, fn_fps_fmt, fpFmtOf_code, rmOf_code, Nat.sub_self, BitVec.extractLsb'_eq_self, need_true, beq_self_eq_true, bind, Except.bind, pure, Except.pure]
theorem Sys2Proof.Laws.RoundTrip.fmul (f : FpFmt) (r : Rm) (d a b : Reg) : Statement (.fmul f r d a b) := by
  intro w he hw
  obtain rfl := Option.some.inj (he : some (wFmul f r d a b) = some w)
  rw [decode_11 (by simp (disch := omega) only [wFmul, fld_RRR_maj, Nat.sub_self, BitVec.extractLsb'_eq_self])]
  have e0 : ((fld (wFmul f r d a b) 0 5 : BitVec 5)).toNat = 2 := by
    simp (disch := omega) only [wFmul, fld_RRR_fn, fn_fps_op]
    rfl
  simp (disch := first | omega | assumption) only [decodeFps, e0]
  simp (disch := first | omega | assumption) only [wFmul, fd, fa, fb, fld_RRR_d, fld_RRR_a, fld_RRR_b, fld_RRR_fn, fn_fps_zero, fn_fps_rm, fn_fps_fmt, fpFmtOf_code, rmOf_code, Nat.sub_self, BitVec.extractLsb'_eq_self, need_true, beq_self_eq_true, bind, Except.bind, pure, Except.pure]
theorem Sys2Proof.Laws.RoundTrip.fdiv (f : FpFmt) (r : Rm) (d a b : Reg) : Statement (.fdiv f r d a b) := by
  intro w he hw
  obtain rfl := Option.some.inj (he : some (wFdiv f r d a b) = some w)
  rw [decode_11 (by simp (disch := omega) only [wFdiv, fld_RRR_maj, Nat.sub_self, BitVec.extractLsb'_eq_self])]
  have e0 : ((fld (wFdiv f r d a b) 0 5 : BitVec 5)).toNat = 3 := by
    simp (disch := omega) only [wFdiv, fld_RRR_fn, fn_fps_op]
    rfl
  simp (disch := first | omega | assumption) only [decodeFps, e0]
  simp (disch := first | omega | assumption) only [wFdiv, fd, fa, fb, fld_RRR_d, fld_RRR_a, fld_RRR_b, fld_RRR_fn, fn_fps_zero, fn_fps_rm, fn_fps_fmt, fpFmtOf_code, rmOf_code, Nat.sub_self, BitVec.extractLsb'_eq_self, need_true, beq_self_eq_true, bind, Except.bind, pure, Except.pure]
theorem Sys2Proof.Laws.RoundTrip.fsqrt (f : FpFmt) (r : Rm) (d a : Reg) : Statement (.fsqrt f r d a) := by
  intro w he hw
  obtain rfl := Option.some.inj (he : some (wFsqrt f r d a) = some w)
  rw [decode_11 (by simp (disch := omega) only [wFsqrt, fld_RRR_maj, Nat.sub_self, BitVec.extractLsb'_eq_self])]
  have e0 : ((fld (wFsqrt f r d a) 0 5 : BitVec 5)).toNat = 4 := by
    simp (disch := omega) only [wFsqrt, fld_RRR_fn, fn_fps_op]
    rfl
  simp (disch := first | omega | assumption) only [decodeFps, e0]
  simp (disch := first | omega | assumption) only [wFsqrt, fd, fa, fb, fld_RRR_d, fld_RRR_a, fld_RRR_b, fld_RRR_fn, fn_fps_zero, fn_fps_rm, fn_fps_fmt, fpFmtOf_code, rmOf_code, Nat.sub_self, BitVec.extractLsb'_eq_self, need_true, zero_zero, beq_self_eq_true, bind, Except.bind, pure, Except.pure]
theorem Sys2Proof.Laws.RoundTrip.fmadd (f : FpFmt) (r : Rm) (d a b : Reg) : Statement (.fmadd f r d a b) := by
  intro w he hw
  obtain rfl := Option.some.inj (he : some (wFmadd f r d a b) = some w)
  rw [decode_11 (by simp (disch := omega) only [wFmadd, fld_RRR_maj, Nat.sub_self, BitVec.extractLsb'_eq_self])]
  have e0 : ((fld (wFmadd f r d a b) 0 5 : BitVec 5)).toNat = 5 := by
    simp (disch := omega) only [wFmadd, fld_RRR_fn, fn_fps_op]
    rfl
  simp (disch := first | omega | assumption) only [decodeFps, e0]
  simp (disch := first | omega | assumption) only [wFmadd, fd, fa, fb, fld_RRR_d, fld_RRR_a, fld_RRR_b, fld_RRR_fn, fn_fps_zero, fn_fps_rm, fn_fps_fmt, fpFmtOf_code, rmOf_code, Nat.sub_self, BitVec.extractLsb'_eq_self, need_true, beq_self_eq_true, bind, Except.bind, pure, Except.pure]
theorem Sys2Proof.Laws.RoundTrip.fmin (f : FpFmt) (r : Rm) (d a b : Reg) : Statement (.fmin f r d a b) := by
  intro w he hw
  obtain rfl := Option.some.inj (he : some (wFmin f r d a b) = some w)
  rw [decode_11 (by simp (disch := omega) only [wFmin, fld_RRR_maj, Nat.sub_self, BitVec.extractLsb'_eq_self])]
  have e0 : ((fld (wFmin f r d a b) 0 5 : BitVec 5)).toNat = 6 := by
    simp (disch := omega) only [wFmin, fld_RRR_fn, fn_fps_op]
    rfl
  simp (disch := first | omega | assumption) only [decodeFps, e0]
  simp (disch := first | omega | assumption) only [wFmin, fd, fa, fb, fld_RRR_d, fld_RRR_a, fld_RRR_b, fld_RRR_fn, fn_fps_zero, fn_fps_rm, fn_fps_fmt, fpFmtOf_code, rmOf_code, Nat.sub_self, BitVec.extractLsb'_eq_self, need_true, beq_self_eq_true, bind, Except.bind, pure, Except.pure]
theorem Sys2Proof.Laws.RoundTrip.fmax (f : FpFmt) (r : Rm) (d a b : Reg) : Statement (.fmax f r d a b) := by
  intro w he hw
  obtain rfl := Option.some.inj (he : some (wFmax f r d a b) = some w)
  rw [decode_11 (by simp (disch := omega) only [wFmax, fld_RRR_maj, Nat.sub_self, BitVec.extractLsb'_eq_self])]
  have e0 : ((fld (wFmax f r d a b) 0 5 : BitVec 5)).toNat = 7 := by
    simp (disch := omega) only [wFmax, fld_RRR_fn, fn_fps_op]
    rfl
  simp (disch := first | omega | assumption) only [decodeFps, e0]
  simp (disch := first | omega | assumption) only [wFmax, fd, fa, fb, fld_RRR_d, fld_RRR_a, fld_RRR_b, fld_RRR_fn, fn_fps_zero, fn_fps_rm, fn_fps_fmt, fpFmtOf_code, rmOf_code, Nat.sub_self, BitVec.extractLsb'_eq_self, need_true, beq_self_eq_true, bind, Except.bind, pure, Except.pure]
theorem Sys2Proof.Laws.RoundTrip.fneg (f : FpFmt) (r : Rm) (d a : Reg) : Statement (.fneg f r d a) := by
  intro w he hw
  obtain rfl := Option.some.inj (he : some (wFneg f r d a) = some w)
  rw [decode_11 (by simp (disch := omega) only [wFneg, fld_RRR_maj, Nat.sub_self, BitVec.extractLsb'_eq_self])]
  have e0 : ((fld (wFneg f r d a) 0 5 : BitVec 5)).toNat = 8 := by
    simp (disch := omega) only [wFneg, fld_RRR_fn, fn_fps_op]
    rfl
  simp (disch := first | omega | assumption) only [decodeFps, e0]
  simp (disch := first | omega | assumption) only [wFneg, fd, fa, fb, fld_RRR_d, fld_RRR_a, fld_RRR_b, fld_RRR_fn, fn_fps_zero, fn_fps_rm, fn_fps_fmt, fpFmtOf_code, rmOf_code, Nat.sub_self, BitVec.extractLsb'_eq_self, need_true, zero_zero, beq_self_eq_true, bind, Except.bind, pure, Except.pure]
theorem Sys2Proof.Laws.RoundTrip.fabs (f : FpFmt) (r : Rm) (d a : Reg) : Statement (.fabs f r d a) := by
  intro w he hw
  obtain rfl := Option.some.inj (he : some (wFabs f r d a) = some w)
  rw [decode_11 (by simp (disch := omega) only [wFabs, fld_RRR_maj, Nat.sub_self, BitVec.extractLsb'_eq_self])]
  have e0 : ((fld (wFabs f r d a) 0 5 : BitVec 5)).toNat = 9 := by
    simp (disch := omega) only [wFabs, fld_RRR_fn, fn_fps_op]
    rfl
  simp (disch := first | omega | assumption) only [decodeFps, e0]
  simp (disch := first | omega | assumption) only [wFabs, fd, fa, fb, fld_RRR_d, fld_RRR_a, fld_RRR_b, fld_RRR_fn, fn_fps_zero, fn_fps_rm, fn_fps_fmt, fpFmtOf_code, rmOf_code, Nat.sub_self, BitVec.extractLsb'_eq_self, need_true, zero_zero, beq_self_eq_true, bind, Except.bind, pure, Except.pure]
theorem Sys2Proof.Laws.RoundTrip.fcmpeq (f : FpFmt) (r : Rm) (d a b : Reg) : Statement (.fcmpeq f r d a b) := by
  intro w he hw
  obtain rfl := Option.some.inj (he : some (wFcmpeq f r d a b) = some w)
  rw [decode_11 (by simp (disch := omega) only [wFcmpeq, fld_RRR_maj, Nat.sub_self, BitVec.extractLsb'_eq_self])]
  have e0 : ((fld (wFcmpeq f r d a b) 0 5 : BitVec 5)).toNat = 10 := by
    simp (disch := omega) only [wFcmpeq, fld_RRR_fn, fn_fps_op]
    rfl
  simp (disch := first | omega | assumption) only [decodeFps, e0]
  simp (disch := first | omega | assumption) only [wFcmpeq, fd, fa, fb, fld_RRR_d, fld_RRR_a, fld_RRR_b, fld_RRR_fn, fn_fps_zero, fn_fps_rm, fn_fps_fmt, fpFmtOf_code, rmOf_code, Nat.sub_self, BitVec.extractLsb'_eq_self, need_true, beq_self_eq_true, bind, Except.bind, pure, Except.pure]
theorem Sys2Proof.Laws.RoundTrip.fcmplt (f : FpFmt) (r : Rm) (d a b : Reg) : Statement (.fcmplt f r d a b) := by
  intro w he hw
  obtain rfl := Option.some.inj (he : some (wFcmplt f r d a b) = some w)
  rw [decode_11 (by simp (disch := omega) only [wFcmplt, fld_RRR_maj, Nat.sub_self, BitVec.extractLsb'_eq_self])]
  have e0 : ((fld (wFcmplt f r d a b) 0 5 : BitVec 5)).toNat = 11 := by
    simp (disch := omega) only [wFcmplt, fld_RRR_fn, fn_fps_op]
    rfl
  simp (disch := first | omega | assumption) only [decodeFps, e0]
  simp (disch := first | omega | assumption) only [wFcmplt, fd, fa, fb, fld_RRR_d, fld_RRR_a, fld_RRR_b, fld_RRR_fn, fn_fps_zero, fn_fps_rm, fn_fps_fmt, fpFmtOf_code, rmOf_code, Nat.sub_self, BitVec.extractLsb'_eq_self, need_true, beq_self_eq_true, bind, Except.bind, pure, Except.pure]
theorem Sys2Proof.Laws.RoundTrip.fcmple (f : FpFmt) (r : Rm) (d a b : Reg) : Statement (.fcmple f r d a b) := by
  intro w he hw
  obtain rfl := Option.some.inj (he : some (wFcmple f r d a b) = some w)
  rw [decode_11 (by simp (disch := omega) only [wFcmple, fld_RRR_maj, Nat.sub_self, BitVec.extractLsb'_eq_self])]
  have e0 : ((fld (wFcmple f r d a b) 0 5 : BitVec 5)).toNat = 12 := by
    simp (disch := omega) only [wFcmple, fld_RRR_fn, fn_fps_op]
    rfl
  simp (disch := first | omega | assumption) only [decodeFps, e0]
  simp (disch := first | omega | assumption) only [wFcmple, fd, fa, fb, fld_RRR_d, fld_RRR_a, fld_RRR_b, fld_RRR_fn, fn_fps_zero, fn_fps_rm, fn_fps_fmt, fpFmtOf_code, rmOf_code, Nat.sub_self, BitVec.extractLsb'_eq_self, need_true, beq_self_eq_true, bind, Except.bind, pure, Except.pure]
theorem Sys2Proof.Laws.RoundTrip.fclass (f : FpFmt) (r : Rm) (d a : Reg) : Statement (.fclass f r d a) := by
  intro w he hw
  obtain rfl := Option.some.inj (he : some (wFclass f r d a) = some w)
  rw [decode_11 (by simp (disch := omega) only [wFclass, fld_RRR_maj, Nat.sub_self, BitVec.extractLsb'_eq_self])]
  have e0 : ((fld (wFclass f r d a) 0 5 : BitVec 5)).toNat = 13 := by
    simp (disch := omega) only [wFclass, fld_RRR_fn, fn_fps_op]
    rfl
  simp (disch := first | omega | assumption) only [decodeFps, e0]
  simp (disch := first | omega | assumption) only [wFclass, fd, fa, fb, fld_RRR_d, fld_RRR_a, fld_RRR_b, fld_RRR_fn, fn_fps_zero, fn_fps_rm, fn_fps_fmt, fpFmtOf_code, rmOf_code, Nat.sub_self, BitVec.extractLsb'_eq_self, need_true, zero_zero, beq_self_eq_true, bind, Except.bind, pure, Except.pure]
theorem Sys2Proof.Laws.RoundTrip.fcvtfi (f : FpFmt) (r : Rm) (t : BitVec 2) (d a : Reg) : Statement (.fcvtfi f r t d a) := by
  intro w he hw
  obtain rfl := Option.some.inj (he : some (wFcvtfi f r t d a) = some w)
  rw [decode_11 (by simp (disch := omega) only [wFcvtfi, fld_RRR_maj, Nat.sub_self, BitVec.extractLsb'_eq_self])]
  have e0 : ((fld (wFcvtfi f r t d a) 0 5 : BitVec 5)).toNat = 14 := by
    simp (disch := omega) only [wFcvtfi, fld_RRR_fn, fn_fps_op]
    rfl
  simp (disch := first | omega | assumption) only [decodeFps, e0]
  simp (disch := first | omega | assumption) only [wFcvtfi, fd, fa, fld_RRR_d, fld_RRR_a, fld_RRR_b, fld_RRR_fn, fn_fps_zero, fn_fps_rm, fn_fps_fmt, fpFmtOf_code, rmOf_code, pad2_low, pad2_high, Nat.sub_self, Nat.reduceSub, BitVec.extractLsb'_eq_self, need_true, beq_self_eq_true, bind, Except.bind, pure, Except.pure]
theorem Sys2Proof.Laws.RoundTrip.fcvtif (f : FpFmt) (r : Rm) (t : BitVec 2) (d a : Reg) : Statement (.fcvtif f r t d a) := by
  intro w he hw
  obtain rfl := Option.some.inj (he : some (wFcvtif f r t d a) = some w)
  rw [decode_11 (by simp (disch := omega) only [wFcvtif, fld_RRR_maj, Nat.sub_self, BitVec.extractLsb'_eq_self])]
  have e0 : ((fld (wFcvtif f r t d a) 0 5 : BitVec 5)).toNat = 15 := by
    simp (disch := omega) only [wFcvtif, fld_RRR_fn, fn_fps_op]
    rfl
  simp (disch := first | omega | assumption) only [decodeFps, e0]
  simp (disch := first | omega | assumption) only [wFcvtif, fd, fa, fld_RRR_d, fld_RRR_a, fld_RRR_b, fld_RRR_fn, fn_fps_zero, fn_fps_rm, fn_fps_fmt, fpFmtOf_code, rmOf_code, pad2_low, pad2_high, Nat.sub_self, Nat.reduceSub, BitVec.extractLsb'_eq_self, need_true, beq_self_eq_true, bind, Except.bind, pure, Except.pure]
theorem Sys2Proof.Laws.RoundTrip.fcvtff (f : FpFmt) (r : Rm) (d a : Reg) : Statement (.fcvtff f r d a) := by
  intro w he hw
  obtain rfl := Option.some.inj (he : some (wFcvtff f r d a) = some w)
  rw [decode_11 (by simp (disch := omega) only [wFcvtff, fld_RRR_maj, Nat.sub_self, BitVec.extractLsb'_eq_self])]
  have e0 : ((fld (wFcvtff f r d a) 0 5 : BitVec 5)).toNat = 16 := by
    simp (disch := omega) only [wFcvtff, fld_RRR_fn, fn_fps_op]
    rfl
  simp (disch := first | omega | assumption) only [decodeFps, e0]
  simp (disch := first | omega | assumption) only [wFcvtff, fd, fa, fb, fld_RRR_d, fld_RRR_a, fld_RRR_b, fld_RRR_fn, fn_fps_zero, fn_fps_rm, fn_fps_fmt, fpFmtOf_code, rmOf_code, Nat.sub_self, BitVec.extractLsb'_eq_self, need_true, zero_zero, beq_self_eq_true, bind, Except.bind, pure, Except.pure]
theorem Sys2Proof.Laws.RoundTrip.mfs (d : Reg) (spr : BitVec 12) : Statement (.mfs d spr) := by
  intro w he hw
  obtain rfl := Option.some.inj (he : some (wMfs d spr) = some w)
  rw [decode_12 (by simp (disch := omega) only [wMfs, fld_RI_maj, Nat.sub_self, BitVec.extractLsb'_eq_self])]
  have e0 : ((fld (wMfs d spr) 14 2 : BitVec 2)).toNat = 0 := by
    simp (disch := omega) only [wMfs, fld_RI_imm, spr_op]
    rfl
  simp (disch := first | omega | assumption) only [decodeSpr, e0]
  simp (disch := first | omega | assumption) only [wMfs, fd, fa, fld_RI_d, fld_RI_a, fld_RI_imm, spr_zero, spr_number, Nat.sub_self, BitVec.extractLsb'_eq_self, need_true, zero_zero, beq_self_eq_true, bind, Except.bind, pure, Except.pure]
theorem Sys2Proof.Laws.RoundTrip.mts (spr : BitVec 12) (a : Reg) : Statement (.mts spr a) := by
  intro w he hw
  obtain rfl := Option.some.inj (he : some (wMts spr a) = some w)
  rw [decode_12 (by simp (disch := omega) only [wMts, fld_RI_maj, Nat.sub_self, BitVec.extractLsb'_eq_self])]
  have e0 : ((fld (wMts spr a) 14 2 : BitVec 2)).toNat = 1 := by
    simp (disch := omega) only [wMts, fld_RI_imm, spr_op]
    rfl
  simp (disch := first | omega | assumption) only [decodeSpr, e0]
  simp (disch := first | omega | assumption) only [wMts, fd, fa, fld_RI_d, fld_RI_a, fld_RI_imm, spr_zero, spr_number, Nat.sub_self, BitVec.extractLsb'_eq_self, need_true, zero_zero, beq_self_eq_true, bind, Except.bind, pure, Except.pure]
theorem Sys2Proof.Laws.RoundTrip.sset (spr : BitVec 12) (a : Reg) : Statement (.sset spr a) := by
  intro w he hw
  obtain rfl := Option.some.inj (he : some (wSset spr a) = some w)
  rw [decode_12 (by simp (disch := omega) only [wSset, fld_RI_maj, Nat.sub_self, BitVec.extractLsb'_eq_self])]
  have e0 : ((fld (wSset spr a) 14 2 : BitVec 2)).toNat = 2 := by
    simp (disch := omega) only [wSset, fld_RI_imm, spr_op]
    rfl
  simp (disch := first | omega | assumption) only [decodeSpr, e0]
  simp (disch := first | omega | assumption) only [wSset, fd, fa, fld_RI_d, fld_RI_a, fld_RI_imm, spr_zero, spr_number, Nat.sub_self, BitVec.extractLsb'_eq_self, need_true, zero_zero, beq_self_eq_true, bind, Except.bind, pure, Except.pure]
theorem Sys2Proof.Laws.RoundTrip.sclr (spr : BitVec 12) (a : Reg) : Statement (.sclr spr a) := by
  intro w he hw
  obtain rfl := Option.some.inj (he : some (wSclr spr a) = some w)
  rw [decode_12 (by simp (disch := omega) only [wSclr, fld_RI_maj, Nat.sub_self, BitVec.extractLsb'_eq_self])]
  have e0 : ((fld (wSclr spr a) 14 2 : BitVec 2)).toNat = 3 := by
    simp (disch := omega) only [wSclr, fld_RI_imm, spr_op]
    rfl
  simp (disch := first | omega | assumption) only [decodeSpr, e0]
  simp (disch := first | omega | assumption) only [wSclr, fd, fa, fld_RI_d, fld_RI_a, fld_RI_imm, spr_zero, spr_number, Nat.sub_self, BitVec.extractLsb'_eq_self, need_true, zero_zero, beq_self_eq_true, bind, Except.bind, pure, Except.pure]
theorem Sys2Proof.Laws.RoundTrip.tloop (n : BitVec 2) (b : Reg) (off : BitVec 13) : Statement (.tloop n b off) := by
  intro w he hw
  obtain rfl := Option.some.inj (he : some (wTloop n b off) = some w)
  rw [decode_13 (by simp (disch := omega) only [wTloop, fld_MS_maj, Nat.sub_self, BitVec.extractLsb'_eq_self])]
  simp (disch := first | omega | assumption) only [decodeTloop]
  simp (disch := first | omega | assumption) only [wTloop, fa, foff13, fld_MS_d, fld_MS_a, fld_MS_w, fld_MS_off, pad2_low, pad2_high, Nat.sub_self, Nat.reduceSub, BitVec.extractLsb'_eq_self, need_true, beq_self_eq_true, bind, Except.bind, pure, Except.pure]
theorem Sys2Proof.Laws.RoundTrip.vsetl (d a : Reg) (vt : BitVec 8) : Statement (.vsetl d a vt) := by
  intro w he hw
  obtain rfl := Option.some.inj (he : some (wVsetl d a vt) = some w)
  have hw : (vtypeOk vt) = true := hw
  rw [decode_18 (by simp (disch := omega) only [wVsetl, fld_RRR_maj, Nat.sub_self, BitVec.extractLsb'_eq_self])]
  have e0 : ((fld (wVsetl d a vt) 8 3 : BitVec 3)).toNat = 0 := by
    simp (disch := omega) only [wVsetl, fld_RRR_fn, fn_vcfg_op]
    rfl
  simp (disch := first | omega | assumption) only [decodeVcfg, e0]
  simp (disch := first | omega | assumption) only [wVsetl, fd, fa, fb, fld_RRR_d, fld_RRR_a, fld_RRR_b, fld_RRR_fn, fn_vcfg_imm, hw, Nat.sub_self, BitVec.extractLsb'_eq_self, need_true, zero_zero, bind, Except.bind, pure, Except.pure]
theorem Sys2Proof.Laws.RoundTrip.vsetlx (d a b : Reg) : Statement (.vsetlx d a b) := by
  intro w he hw
  obtain rfl := Option.some.inj (he : some (wVsetlx d a b) = some w)
  rw [decode_18 (by simp (disch := omega) only [wVsetlx, fld_RRR_maj, Nat.sub_self, BitVec.extractLsb'_eq_self])]
  have e0 : ((fld (wVsetlx d a b) 8 3 : BitVec 3)).toNat = 1 := by
    simp (disch := omega) only [wVsetlx, fld_RRR_fn]
    rfl
  simp (disch := first | omega | assumption) only [decodeVcfg, e0]
  simp (disch := first | omega | assumption) only [wVsetlx, fd, fa, fb, fld_RRR_d, fld_RRR_a, fld_RRR_b, fld_RRR_fn, Nat.sub_self, BitVec.extractLsb'_eq_self, bind, Except.bind, pure, Except.pure]
  rfl
theorem Sys2Proof.Laws.RoundTrip.vloop (a : Reg) (vt : BitVec 8) : Statement (.vloop a vt) := by
  intro w he hw
  obtain rfl := Option.some.inj (he : some (wVloop a vt) = some w)
  have hw : (vtypeOk vt) = true := hw
  rw [decode_18 (by simp (disch := omega) only [wVloop, fld_RRR_maj, Nat.sub_self, BitVec.extractLsb'_eq_self])]
  have e0 : ((fld (wVloop a vt) 8 3 : BitVec 3)).toNat = 2 := by
    simp (disch := omega) only [wVloop, fld_RRR_fn, fn_vcfg_op]
    rfl
  simp (disch := first | omega | assumption) only [decodeVcfg, e0]
  simp (disch := first | omega | assumption) only [wVloop, fd, fa, fb, fld_RRR_d, fld_RRR_a, fld_RRR_b, fld_RRR_fn, fn_vcfg_imm, hw, Nat.sub_self, BitVec.extractLsb'_eq_self, need_true, zero_zero, bind, Except.bind, pure, Except.pure]
theorem Sys2Proof.Laws.RoundTrip.vlend (np a len : Reg) : Statement (.vlend np a len) := by
  intro w he hw
  obtain rfl := Option.some.inj (he : some (wVlend np a len) = some w)
  have hw : (vlendOk np a) = true := hw
  rw [decode_18 (by simp (disch := omega) only [wVlend, fld_RRR_maj, Nat.sub_self, BitVec.extractLsb'_eq_self])]
  have e0 : ((fld (wVlend np a len) 8 3 : BitVec 3)).toNat = 3 := by
    simp (disch := omega) only [wVlend, fld_RRR_fn, fn_vcfg_op]
    rfl
  simp (disch := first | omega | assumption) only [decodeVcfg, e0]
  simp (disch := first | omega | assumption) only [wVlend, fd, fa, fb, fld_RRR_d, fld_RRR_a, fld_RRR_b, fld_RRR_fn, fn_vcfg_imm, hw, Nat.sub_self, BitVec.extractLsb'_eq_self, need_true, beq_self_eq_true, bind, Except.bind, pure, Except.pure]
theorem Sys2Proof.Laws.RoundTrip.vbreak (a off : Reg) : Statement (.vbreak a off) := by
  intro w he hw
  obtain rfl := Option.some.inj (he : some (wVbreak a off) = some w)
  rw [decode_18 (by simp (disch := omega) only [wVbreak, fld_RRR_maj, Nat.sub_self, BitVec.extractLsb'_eq_self])]
  have e0 : ((fld (wVbreak a off) 8 3 : BitVec 3)).toNat = 4 := by
    simp (disch := omega) only [wVbreak, fld_RRR_fn, fn_vcfg_op]
    rfl
  simp (disch := first | omega | assumption) only [decodeVcfg, e0]
  simp (disch := first | omega | assumption) only [wVbreak, fd, fa, fb, fld_RRR_d, fld_RRR_a, fld_RRR_b, fld_RRR_fn, fn_vcfg_imm, Nat.sub_self, BitVec.extractLsb'_eq_self, need_true, zero_zero, beq_self_eq_true, bind, Except.bind, pure, Except.pure]
theorem Sys2Proof.Laws.RoundTrip.vdecl (a : Reg) : Statement (.vdecl a) := by
  intro w he hw
  obtain rfl := Option.some.inj (he : some (wVdecl a) = some w)
  rw [decode_18 (by simp (disch := omega) only [wVdecl, fld_RRR_maj, Nat.sub_self, BitVec.extractLsb'_eq_self])]
  have e0 : ((fld (wVdecl a) 8 3 : BitVec 3)).toNat = 5 := by
    simp (disch := omega) only [wVdecl, fld_RRR_fn]
    rfl
  simp (disch := first | omega | assumption) only [decodeVcfg, e0]
  simp (disch := first | omega | assumption) only [wVdecl, fd, fa, fb, fld_RRR_d, fld_RRR_a, fld_RRR_b, fld_RRR_fn, Nat.sub_self, BitVec.extractLsb'_eq_self, zero_zero, bind, Except.bind, pure, Except.pure]
  rfl
theorem Sys2Proof.Laws.RoundTrip.vundecl : Statement (.vundecl) := by
  intro w he hw
  obtain rfl := Option.some.inj (he : some (wVundecl) = some w)
  rw [decode_18 (by simp (disch := omega) only [wVundecl, fld_RRR_maj, Nat.sub_self, BitVec.extractLsb'_eq_self])]
  have e0 : ((fld (wVundecl) 8 3 : BitVec 3)).toNat = 6 := by
    simp (disch := omega) only [wVundecl, fld_RRR_fn]
    rfl
  simp (disch := first | omega | assumption) only [decodeVcfg, e0]
  simp (disch := first | omega | assumption) only [wVundecl, fd, fa, fb, fld_RRR_d, fld_RRR_a, fld_RRR_b, fld_RRR_fn, Nat.sub_self, BitVec.extractLsb'_eq_self, zero_zero, bind, Except.bind, pure, Except.pure]
  rfl
theorem Sys2Proof.Laws.RoundTrip.vslip (a : Reg) : Statement (.vslip a) := by
  intro w he hw
  obtain rfl := Option.some.inj (he : some (wVslip a) = some w)
  rw [decode_18 (by simp (disch := omega) only [wVslip, fld_RRR_maj, Nat.sub_self, BitVec.extractLsb'_eq_self])]
  have e0 : ((fld (wVslip a) 8 3 : BitVec 3)).toNat = 7 := by
    simp (disch := omega) only [wVslip, fld_RRR_fn]
    rfl
  simp (disch := first | omega | assumption) only [decodeVcfg, e0]
  simp (disch := first | omega | assumption) only [wVslip, fd, fa, fb, fld_RRR_d, fld_RRR_a, fld_RRR_b, fld_RRR_fn, Nat.sub_self, BitVec.extractLsb'_eq_self, zero_zero, bind, Except.bind, pure, Except.pure]
  rfl
theorem Sys2Proof.Laws.RoundTrip.vld (v a : Reg) (o sb : Bool) (m : Msk) (ew : BitVec 2) : Statement (.vld v a o sb m ew) := by
  intro w he hw
  obtain rfl := Option.some.inj (he : some (wVld v a o sb m ew) = some w)
  have hw : (m.ok) = true := hw
  rw [decode_19 (by simp (disch := omega) only [wVld, fld_VM_maj, Nat.sub_self, BitVec.extractLsb'_eq_self])]
  have e0 : ((fld (wVld v a o sb m ew) 2 3 : BitVec 3)).toNat = 0 := by
    simp (disch := omega) only [wVld, fld_VM_mode, Nat.sub_self, BitVec.extractLsb'_eq_self]
    rfl
  simp (disch := first | omega | assumption) only [decodeVld, e0]
  simp (disch := first | omega | assumption) only [wVld, fd, fa, fb, fmsk_parts, fbit_fld, bit1_beq, fld_VM_d, fld_VM_a, fld_VM_b, fld_VM_o, fld_VM_s, fld_VM_neg, fld_VM_m, fld_VM_ew, mskOf_parts, Nat.sub_self, BitVec.extractLsb'_eq_self, zero_zero, bind, Except.bind, pure, Except.pure]
theorem Sys2Proof.Laws.RoundTrip.vlds (v a b : Reg) (o sb : Bool) (m : Msk) (ew : BitVec 2) : Statement (.vlds v a b o sb m ew) := by
  intro w he hw
  obtain rfl := Option.some.inj (he : some (wVlds v a b o sb m ew) = some w)
  have hw : (m.ok) = true := hw
  rw [decode_19 (by simp (disch := omega) only [wVlds, fld_VM_maj, Nat.sub_self, BitVec.extractLsb'_eq_self])]
  have e0 : ((fld (wVlds v a b o sb m ew) 2 3 : BitVec 3)).toNat = 1 := by
    simp (disch := omega) only [wVlds, fld_VM_mode, Nat.sub_self, BitVec.extractLsb'_eq_self]
    rfl
  simp (disch := first | omega | assumption) only [decodeVld, e0]
  simp (disch := first | omega | assumption) only [wVlds, fd, fa, fb, fmsk_parts, fbit_fld, bit1_beq, fld_VM_d, fld_VM_a, fld_VM_b, fld_VM_o, fld_VM_s, fld_VM_neg, fld_VM_m, fld_VM_ew, mskOf_parts, Nat.sub_self, BitVec.extractLsb'_eq_self, bind, Except.bind, pure, Except.pure]
theorem Sys2Proof.Laws.RoundTrip.vldq (ring : BitVec 3) (a : Reg) (o sb : Bool) (m : Msk) (ew : BitVec 2) : Statement (.vldq ring a o sb m ew) := by
  intro w he hw
  obtain rfl := Option.some.inj (he : some (wVldq ring a o sb m ew) = some w)
  have hw : (m.ok) = true := hw
  rw [decode_19 (by simp (disch := omega) only [wVldq, fld_VM_maj, Nat.sub_self, BitVec.extractLsb'_eq_self])]
  have e0 : ((fld (wVldq ring a o sb m ew) 2 3 : BitVec 3)).toNat = 2 := by
    simp (disch := omega) only [wVldq, fld_VM_mode, Nat.sub_self, BitVec.extractLsb'_eq_self]
    rfl
  simp (disch := first | omega | assumption) only [decodeVld, e0]
  simp (disch := first | omega | assumption) only [wVldq, fd, fa, fmsk_parts, fbit_fld, bit1_beq, fld_VM_d, fld_VM_a, fld_VM_b, fld_VM_o, fld_VM_s, fld_VM_neg, fld_VM_m, fld_VM_ew, pad3_low, pad3_high, mskOf_parts, Nat.sub_self, Nat.reduceSub, BitVec.extractLsb'_eq_self, need_true, zero_zero, beq_self_eq_true, bind, Except.bind, pure, Except.pure]
theorem Sys2Proof.Laws.RoundTrip.vldqk (v a : Reg) (ring : BitVec 3) (o sb : Bool) (m : Msk) (ew : BitVec 2) : Statement (.vldqk v a ring o sb m ew) := by
  intro w he hw
  obtain rfl := Option.some.inj (he : some (wVldqk v a ring o sb m ew) = some w)
  have hw : (m.ok) = true := hw
  rw [decode_19 (by simp (disch := omega) only [wVldqk, fld_VM_maj, Nat.sub_self, BitVec.extractLsb'_eq_self])]
  have e0 : ((fld (wVldqk v a ring o sb m ew) 2 3 : BitVec 3)).toNat = 3 := by
    simp (disch := omega) only [wVldqk, fld_VM_mode, Nat.sub_self, BitVec.extractLsb'_eq_self]
    rfl
  simp (disch := first | omega | assumption) only [decodeVld, e0]
  simp (disch := first | omega | assumption) only [wVldqk, fd, fa, fmsk_parts, fbit_fld, bit1_beq, fld_VM_d, fld_VM_a, fld_VM_b, fld_VM_o, fld_VM_s, fld_VM_neg, fld_VM_m, fld_VM_ew, pad3_low, pad3_high, mskOf_parts, Nat.sub_self, Nat.reduceSub, BitVec.extractLsb'_eq_self, need_true, beq_self_eq_true, bind, Except.bind, pure, Except.pure]
theorem Sys2Proof.Laws.RoundTrip.vldb (v a : Reg) (o sb : Bool) (m : Msk) (ew : BitVec 2) : Statement (.vldb v a o sb m ew) := by
  intro w he hw
  obtain rfl := Option.some.inj (he : some (wVldb v a o sb m ew) = some w)
  have hw : (m.ok) = true := hw
  rw [decode_19 (by simp (disch := omega) only [wVldb, fld_VM_maj, Nat.sub_self, BitVec.extractLsb'_eq_self])]
  have e0 : ((fld (wVldb v a o sb m ew) 2 3 : BitVec 3)).toNat = 4 := by
    simp (disch := omega) only [wVldb, fld_VM_mode, Nat.sub_self, BitVec.extractLsb'_eq_self]
    rfl
  simp (disch := first | omega | assumption) only [decodeVld, e0]
  simp (disch := first | omega | assumption) only [wVldb, fd, fa, fb, fmsk_parts, fbit_fld, bit1_beq, fld_VM_d, fld_VM_a, fld_VM_b, fld_VM_o, fld_VM_s, fld_VM_neg, fld_VM_m, fld_VM_ew, mskOf_parts, Nat.sub_self, BitVec.extractLsb'_eq_self, zero_zero, bind, Except.bind, pure, Except.pure]
theorem Sys2Proof.Laws.RoundTrip.vldf (v a : Reg) (o sb : Bool) (m : Msk) (ew : BitVec 2) : Statement (.vldf v a o sb m ew) := by
  intro w he hw
  obtain rfl := Option.some.inj (he : some (wVldf v a o sb m ew) = some w)
  have hw : (m.ok) = true := hw
  rw [decode_19 (by simp (disch := omega) only [wVldf, fld_VM_maj, Nat.sub_self, BitVec.extractLsb'_eq_self])]
  have e0 : ((fld (wVldf v a o sb m ew) 2 3 : BitVec 3)).toNat = 5 := by
    simp (disch := omega) only [wVldf, fld_VM_mode, Nat.sub_self, BitVec.extractLsb'_eq_self]
    rfl
  simp (disch := first | omega | assumption) only [decodeVld, e0]
  simp (disch := first | omega | assumption) only [wVldf, fd, fa, fb, fmsk_parts, fbit_fld, bit1_beq, fld_VM_d, fld_VM_a, fld_VM_b, fld_VM_o, fld_VM_s, fld_VM_neg, fld_VM_m, fld_VM_ew, mskOf_parts, Nat.sub_self, BitVec.extractLsb'_eq_self, zero_zero, bind, Except.bind, pure, Except.pure]
theorem Sys2Proof.Laws.RoundTrip.vldp4 (v a b : Reg) (o sb : Bool) (m : Msk) : Statement (.vldp4 v a b o sb m) := by
  intro w he hw
  obtain rfl := Option.some.inj (he : some (wVldp4 v a b o sb m) = some w)
  have hw : (m.ok) = true := hw
  rw [decode_19 (by simp (disch := omega) only [wVldp4, fld_VM_maj, Nat.sub_self, BitVec.extractLsb'_eq_self])]
  have e0 : ((fld (wVldp4 v a b o sb m) 2 3 : BitVec 3)).toNat = 6 := by
    simp (disch := omega) only [wVldp4, fld_VM_mode, Nat.sub_self, BitVec.extractLsb'_eq_self]
    rfl
  simp (disch := first | omega | assumption) only [decodeVld, e0]
  simp (disch := first | omega | assumption) only [wVldp4, fd, fa, fb, fmsk_parts, fbit_fld, bit1_beq, fld_VM_d, fld_VM_a, fld_VM_b, fld_VM_o, fld_VM_s, fld_VM_neg, fld_VM_m, fld_VM_ew, mskOf_parts, Nat.sub_self, BitVec.extractLsb'_eq_self, need_true, beq_self_eq_true, bind, Except.bind, pure, Except.pure]
theorem Sys2Proof.Laws.RoundTrip.vst (v a : Reg) (o sb : Bool) (m : Msk) (ew : BitVec 2) : Statement (.vst v a o sb m ew) := by
  intro w he hw
  obtain rfl := Option.some.inj (he : some (wVst v a o sb m ew) = some w)
  have hw : (m.ok) = true := hw
  rw [decode_1A (by simp (disch := omega) only [wVst, fld_VM_maj, Nat.sub_self, BitVec.extractLsb'_eq_self])]
  have e0 : ((fld (wVst v a o sb m ew) 2 3 : BitVec 3)).toNat = 0 := by
    simp (disch := omega) only [wVst, fld_VM_mode, Nat.sub_self, BitVec.extractLsb'_eq_self]
    rfl
  simp (disch := first | omega | assumption) only [decodeVst, e0]
  simp (disch := first | omega | assumption) only [wVst, fd, fa, fb, fmsk_parts, fbit_fld, bit1_beq, fld_VM_d, fld_VM_a, fld_VM_b, fld_VM_o, fld_VM_s, fld_VM_neg, fld_VM_m, fld_VM_ew, mskOf_parts, Nat.sub_self, BitVec.extractLsb'_eq_self, zero_zero, bind, Except.bind, pure, Except.pure]
theorem Sys2Proof.Laws.RoundTrip.vsts (v a b : Reg) (o sb : Bool) (m : Msk) (ew : BitVec 2) : Statement (.vsts v a b o sb m ew) := by
  intro w he hw
  obtain rfl := Option.some.inj (he : some (wVsts v a b o sb m ew) = some w)
  have hw : (m.ok) = true := hw
  rw [decode_1A (by simp (disch := omega) only [wVsts, fld_VM_maj, Nat.sub_self, BitVec.extractLsb'_eq_self])]
  have e0 : ((fld (wVsts v a b o sb m ew) 2 3 : BitVec 3)).toNat = 1 := by
    simp (disch := omega) only [wVsts, fld_VM_mode, Nat.sub_self, BitVec.extractLsb'_eq_self]
    rfl
  simp (disch := first | omega | assumption) only [decodeVst, e0]
  simp (disch := first | omega | assumption) only [wVsts, fd, fa, fb, fmsk_parts, fbit_fld, bit1_beq, fld_VM_d, fld_VM_a, fld_VM_b, fld_VM_o, fld_VM_s, fld_VM_neg, fld_VM_m, fld_VM_ew, mskOf_parts, Nat.sub_self, BitVec.extractLsb'_eq_self, bind, Except.bind, pure, Except.pure]
theorem Sys2Proof.Laws.RoundTrip.vstn (v a : Reg) (o sb : Bool) (m : Msk) (ew : BitVec 2) : Statement (.vstn v a o sb m ew) := by
  intro w he hw
  obtain rfl := Option.some.inj (he : some (wVstn v a o sb m ew) = some w)
  have hw : (m.ok) = true := hw
  rw [decode_1A (by simp (disch := omega) only [wVstn, fld_VM_maj, Nat.sub_self, BitVec.extractLsb'_eq_self])]
  have e0 : ((fld (wVstn v a o sb m ew) 2 3 : BitVec 3)).toNat = 2 := by
    simp (disch := omega) only [wVstn, fld_VM_mode, Nat.sub_self, BitVec.extractLsb'_eq_self]
    rfl
  simp (disch := first | omega | assumption) only [decodeVst, e0]
  simp (disch := first | omega | assumption) only [wVstn, fd, fa, fb, fmsk_parts, fbit_fld, bit1_beq, fld_VM_d, fld_VM_a, fld_VM_b, fld_VM_o, fld_VM_s, fld_VM_neg, fld_VM_m, fld_VM_ew, mskOf_parts, Nat.sub_self, BitVec.extractLsb'_eq_self, zero_zero, bind, Except.bind, pure, Except.pure]
theorem Sys2Proof.Laws.RoundTrip.vstsn (v a b : Reg) (o sb : Bool) (m : Msk) (ew : BitVec 2) : Statement (.vstsn v a b o sb m ew) := by
  intro w he hw
  obtain rfl := Option.some.inj (he : some (wVstsn v a b o sb m ew) = some w)
  have hw : (m.ok) = true := hw
  rw [decode_1A (by simp (disch := omega) only [wVstsn, fld_VM_maj, Nat.sub_self, BitVec.extractLsb'_eq_self])]
  have e0 : ((fld (wVstsn v a b o sb m ew) 2 3 : BitVec 3)).toNat = 3 := by
    simp (disch := omega) only [wVstsn, fld_VM_mode, Nat.sub_self, BitVec.extractLsb'_eq_self]
    rfl
  simp (disch := first | omega | assumption) only [decodeVst, e0]
  simp (disch := first | omega | assumption) only [wVstsn, fd, fa, fb, fmsk_parts, fbit_fld, bit1_beq, fld_VM_d, fld_VM_a, fld_VM_b, fld_VM_o, fld_VM_s, fld_VM_neg, fld_VM_m, fld_VM_ew, mskOf_parts, Nat.sub_self, BitVec.extractLsb'_eq_self, bind, Except.bind, pure, Except.pure]
theorem Sys2Proof.Laws.RoundTrip.vstf (v a : Reg) (o sb : Bool) (m : Msk) (ew : BitVec 2) : Statement (.vstf v a o sb m ew) := by
  intro w he hw
  obtain rfl := Option.some.inj (he : some (wVstf v a o sb m ew) = some w)
  have hw : (m.ok) = true := hw
  rw [decode_1A (by simp (disch := omega) only [wVstf, fld_VM_maj, Nat.sub_self, BitVec.extractLsb'_eq_self])]
  have e0 : ((fld (wVstf v a o sb m ew) 2 3 : BitVec 3)).toNat = 4 := by
    simp (disch := omega) only [wVstf, fld_VM_mode, Nat.sub_self, BitVec.extractLsb'_eq_self]
    rfl
  simp (disch := first | omega | assumption) only [decodeVst, e0]
  simp (disch := first | omega | assumption) only [wVstf, fd, fa, fb, fmsk_parts, fbit_fld, bit1_beq, fld_VM_d, fld_VM_a, fld_VM_b, fld_VM_o, fld_VM_s, fld_VM_neg, fld_VM_m, fld_VM_ew, mskOf_parts, Nat.sub_self, BitVec.extractLsb'_eq_self, zero_zero, bind, Except.bind, pure, Except.pure]
theorem Sys2Proof.Laws.RoundTrip.vstq (ring : BitVec 3) (a : Reg) (o sb : Bool) (m : Msk) (ew : BitVec 2) : Statement (.vstq ring a o sb m ew) := by
  intro w he hw
  obtain rfl := Option.some.inj (he : some (wVstq ring a o sb m ew) = some w)
  have hw : (m.ok) = true := hw
  rw [decode_1A (by simp (disch := omega) only [wVstq, fld_VM_maj, Nat.sub_self, BitVec.extractLsb'_eq_self])]
  have e0 : ((fld (wVstq ring a o sb m ew) 2 3 : BitVec 3)).toNat = 5 := by
    simp (disch := omega) only [wVstq, fld_VM_mode, Nat.sub_self, BitVec.extractLsb'_eq_self]
    rfl
  simp (disch := first | omega | assumption) only [decodeVst, e0]
  simp (disch := first | omega | assumption) only [wVstq, fd, fa, fmsk_parts, fbit_fld, bit1_beq, fld_VM_d, fld_VM_a, fld_VM_b, fld_VM_o, fld_VM_s, fld_VM_neg, fld_VM_m, fld_VM_ew, pad3_low, pad3_high, mskOf_parts, Nat.sub_self, Nat.reduceSub, BitVec.extractLsb'_eq_self, need_true, zero_zero, beq_self_eq_true, bind, Except.bind, pure, Except.pure]
theorem Sys2Proof.Laws.RoundTrip.vgat (v a b : Reg) (o sb : Bool) (m : Msk) (ew : BitVec 2) : Statement (.vgat v a b o sb m ew) := by
  intro w he hw
  obtain rfl := Option.some.inj (he : some (wVgat v a b o sb m ew) = some w)
  have hw : (m.ok) = true := hw
  rw [decode_1B (by simp (disch := omega) only [wVgat, fld_VM_maj, Nat.sub_self, BitVec.extractLsb'_eq_self])]
  have e0 : ((fld (wVgat v a b o sb m ew) 2 3 : BitVec 3)).toNat = 0 := by
    simp (disch := omega) only [wVgat, fld_VM_mode, Nat.sub_self, BitVec.extractLsb'_eq_self]
    rfl
  simp (disch := first | omega | assumption) only [decodeVgat, e0]
  simp (disch := first | omega | assumption) only [wVgat, fd, fa, fb, fmsk_parts, fbit_fld, bit1_beq, fld_VM_d, fld_VM_a, fld_VM_b, fld_VM_o, fld_VM_s, fld_VM_neg, fld_VM_m, fld_VM_ew, mskOf_parts, Nat.sub_self, BitVec.extractLsb'_eq_self, bind, Except.bind, pure, Except.pure]
theorem Sys2Proof.Laws.RoundTrip.vsca (v a b : Reg) (o sb : Bool) (m : Msk) (ew : BitVec 2) : Statement (.vsca v a b o sb m ew) := by
  intro w he hw
  obtain rfl := Option.some.inj (he : some (wVsca v a b o sb m ew) = some w)
  have hw : (m.ok) = true := hw
  rw [decode_1B (by simp (disch := omega) only [wVsca, fld_VM_maj, Nat.sub_self, BitVec.extractLsb'_eq_self])]
  have e0 : ((fld (wVsca v a b o sb m ew) 2 3 : BitVec 3)).toNat = 1 := by
    simp (disch := omega) only [wVsca, fld_VM_mode, Nat.sub_self, BitVec.extractLsb'_eq_self]
    rfl
  simp (disch := first | omega | assumption) only [decodeVgat, e0]
  simp (disch := first | omega | assumption) only [wVsca, fd, fa, fb, fmsk_parts, fbit_fld, bit1_beq, fld_VM_d, fld_VM_a, fld_VM_b, fld_VM_o, fld_VM_s, fld_VM_neg, fld_VM_m, fld_VM_ew, mskOf_parts, Nat.sub_self, BitVec.extractLsb'_eq_self, bind, Except.bind, pure, Except.pure]
theorem Sys2Proof.Laws.RoundTrip.vgatw (v a b : Reg) (o sb : Bool) (p : BitVec 3) (ew : BitVec 2) : Statement (.vgatw v a b o sb p ew) := by
  intro w he hw
  obtain rfl := Option.some.inj (he : some (wVgatw v a b o sb p ew) = some w)
  have hw : ((p != 0)) = true := hw
  rw [decode_1B (by simp (disch := omega) only [wVgatw, fld_VM_maj, Nat.sub_self, BitVec.extractLsb'_eq_self])]
  have e0 : ((fld (wVgatw v a b o sb p ew) 2 3 : BitVec 3)).toNat = 2 := by
    simp (disch := omega) only [wVgatw, fld_VM_mode, Nat.sub_self, BitVec.extractLsb'_eq_self]
    rfl
  simp (disch := first | omega | assumption) only [decodeVgat, e0]
  simp (disch := first | omega | assumption) only [wVgatw, fd, fa, fb, fbit_fld, bit1_beq, fld_VM_d, fld_VM_a, fld_VM_b, fld_VM_o, fld_VM_s, fld_VM_neg, fld_VM_m, fld_VM_ew, hw, Nat.sub_self, BitVec.extractLsb'_eq_self, need_true, Bool.not_false, bind, Except.bind, pure, Except.pure]
theorem Sys2Proof.Laws.RoundTrip.vgl (v a b : Reg) (o sb : Bool) (m : Msk) (ew : BitVec 2) : Statement (.vgl v a b o sb m ew) := by
  intro w he hw
  obtain rfl := Option.some.inj (he : some (wVgl v a b o sb m ew) = some w)
  have hw : (m.ok) = true := hw
  rw [decode_1B (by simp (disch := omega) only [wVgl, fld_VM_maj, Nat.sub_self, BitVec.extractLsb'_eq_self])]
  have e0 : ((fld (wVgl v a b o sb m ew) 2 3 : BitVec 3)).toNat = 3 := by
    simp (disch := omega) only [wVgl, fld_VM_mode, Nat.sub_self, BitVec.extractLsb'_eq_self]
    rfl
  simp (disch := first | omega | assumption) only [decodeVgat, e0]
  simp (disch := first | omega | assumption) only [wVgl, fd, fa, fb, fmsk_parts, fbit_fld, bit1_beq, fld_VM_d, fld_VM_a, fld_VM_b, fld_VM_o, fld_VM_s, fld_VM_neg, fld_VM_m, fld_VM_ew, mskOf_parts, Nat.sub_self, BitVec.extractLsb'_eq_self, bind, Except.bind, pure, Except.pure]
theorem Sys2Proof.Laws.RoundTrip.vscc (v a b : Reg) (o sb : Bool) (p : BitVec 3) (ew : BitVec 2) : Statement (.vscc v a b o sb p ew) := by
  intro w he hw
  obtain rfl := Option.some.inj (he : some (wVscc v a b o sb p ew) = some w)
  have hw : ((p != 0)) = true := hw
  rw [decode_1B (by simp (disch := omega) only [wVscc, fld_VM_maj, Nat.sub_self, BitVec.extractLsb'_eq_self])]
  have e0 : ((fld (wVscc v a b o sb p ew) 2 3 : BitVec 3)).toNat = 4 := by
    simp (disch := omega) only [wVscc, fld_VM_mode, Nat.sub_self, BitVec.extractLsb'_eq_self]
    rfl
  simp (disch := first | omega | assumption) only [decodeVgat, e0]
  simp (disch := first | omega | assumption) only [wVscc, fd, fa, fb, fbit_fld, bit1_beq, fld_VM_d, fld_VM_a, fld_VM_b, fld_VM_o, fld_VM_s, fld_VM_neg, fld_VM_m, fld_VM_ew, hw, Nat.sub_self, BitVec.extractLsb'_eq_self, need_true, Bool.not_false, bind, Except.bind, pure, Except.pure]
theorem Sys2Proof.Laws.RoundTrip.vamoadd (v a b : Reg) (o ret : Bool) (m : Msk) : Statement (.vamoadd v a b o ret m) := by
  intro w he hw
  obtain rfl := Option.some.inj (he : some (wVamoadd v a b o ret m) = some w)
  have hw : (m.ok) = true := hw
  rw [decode_1C (by simp (disch := omega) only [wVamoadd, fld_VA_maj, Nat.sub_self, BitVec.extractLsb'_eq_self])]
  have e0 : ((fld (wVamoadd v a b o ret m) 0 5 : BitVec 5)).toNat = 0 := by
    simp (disch := omega) only [wVamoadd, fld_VA_fn, BitVec.extractLsb'_eq_self]
    rfl
  simp (disch := first | omega | assumption) only [decodeVamo, e0]
  simp (disch := first | omega | assumption) only [wVamoadd, fd, fa, fb, fmsk_parts, fbit_fld, bit1_beq, fld_VA_d, fld_VA_a, fld_VA_b, fld_VA_k, fld_VA_q, fld_VA_neg, fld_VA_m, mskOf_parts, Nat.sub_self, BitVec.extractLsb'_eq_self, bind, Except.bind, pure, Except.pure]
theorem Sys2Proof.Laws.RoundTrip.vamoand (v a b : Reg) (o ret : Bool) (m : Msk) : Statement (.vamoand v a b o ret m) := by
  intro w he hw
  obtain rfl := Option.some.inj (he : some (wVamoand v a b o ret m) = some w)
  have hw : (m.ok) = true := hw
  rw [decode_1C (by simp (disch := omega) only [wVamoand, fld_VA_maj, Nat.sub_self, BitVec.extractLsb'_eq_self])]
  have e0 : ((fld (wVamoand v a b o ret m) 0 5 : BitVec 5)).toNat = 1 := by
    simp (disch := omega) only [wVamoand, fld_VA_fn, BitVec.extractLsb'_eq_self]
    rfl
  simp (disch := first | omega | assumption) only [decodeVamo, e0]
  simp (disch := first | omega | assumption) only [wVamoand, fd, fa, fb, fmsk_parts, fbit_fld, bit1_beq, fld_VA_d, fld_VA_a, fld_VA_b, fld_VA_k, fld_VA_q, fld_VA_neg, fld_VA_m, mskOf_parts, Nat.sub_self, BitVec.extractLsb'_eq_self, bind, Except.bind, pure, Except.pure]
theorem Sys2Proof.Laws.RoundTrip.vamoor (v a b : Reg) (o ret : Bool) (m : Msk) : Statement (.vamoor v a b o ret m) := by
  intro w he hw
  obtain rfl := Option.some.inj (he : some (wVamoor v a b o ret m) = some w)
  have hw : (m.ok) = true := hw
  rw [decode_1C (by simp (disch := omega) only [wVamoor, fld_VA_maj, Nat.sub_self, BitVec.extractLsb'_eq_self])]
  have e0 : ((fld (wVamoor v a b o ret m) 0 5 : BitVec 5)).toNat = 2 := by
    simp (disch := omega) only [wVamoor, fld_VA_fn, BitVec.extractLsb'_eq_self]
    rfl
  simp (disch := first | omega | assumption) only [decodeVamo, e0]
  simp (disch := first | omega | assumption) only [wVamoor, fd, fa, fb, fmsk_parts, fbit_fld, bit1_beq, fld_VA_d, fld_VA_a, fld_VA_b, fld_VA_k, fld_VA_q, fld_VA_neg, fld_VA_m, mskOf_parts, Nat.sub_self, BitVec.extractLsb'_eq_self, bind, Except.bind, pure, Except.pure]
theorem Sys2Proof.Laws.RoundTrip.vamoxor (v a b : Reg) (o ret : Bool) (m : Msk) : Statement (.vamoxor v a b o ret m) := by
  intro w he hw
  obtain rfl := Option.some.inj (he : some (wVamoxor v a b o ret m) = some w)
  have hw : (m.ok) = true := hw
  rw [decode_1C (by simp (disch := omega) only [wVamoxor, fld_VA_maj, Nat.sub_self, BitVec.extractLsb'_eq_self])]
  have e0 : ((fld (wVamoxor v a b o ret m) 0 5 : BitVec 5)).toNat = 3 := by
    simp (disch := omega) only [wVamoxor, fld_VA_fn, BitVec.extractLsb'_eq_self]
    rfl
  simp (disch := first | omega | assumption) only [decodeVamo, e0]
  simp (disch := first | omega | assumption) only [wVamoxor, fd, fa, fb, fmsk_parts, fbit_fld, bit1_beq, fld_VA_d, fld_VA_a, fld_VA_b, fld_VA_k, fld_VA_q, fld_VA_neg, fld_VA_m, mskOf_parts, Nat.sub_self, BitVec.extractLsb'_eq_self, bind, Except.bind, pure, Except.pure]
theorem Sys2Proof.Laws.RoundTrip.vamomin (v a b : Reg) (o ret : Bool) (m : Msk) : Statement (.vamomin v a b o ret m) := by
  intro w he hw
  obtain rfl := Option.some.inj (he : some (wVamomin v a b o ret m) = some w)
  have hw : (m.ok) = true := hw
  rw [decode_1C (by simp (disch := omega) only [wVamomin, fld_VA_maj, Nat.sub_self, BitVec.extractLsb'_eq_self])]
  have e0 : ((fld (wVamomin v a b o ret m) 0 5 : BitVec 5)).toNat = 4 := by
    simp (disch := omega) only [wVamomin, fld_VA_fn, BitVec.extractLsb'_eq_self]
    rfl
  simp (disch := first | omega | assumption) only [decodeVamo, e0]
  simp (disch := first | omega | assumption) only [wVamomin, fd, fa, fb, fmsk_parts, fbit_fld, bit1_beq, fld_VA_d, fld_VA_a, fld_VA_b, fld_VA_k, fld_VA_q, fld_VA_neg, fld_VA_m, mskOf_parts, Nat.sub_self, BitVec.extractLsb'_eq_self, bind, Except.bind, pure, Except.pure]
theorem Sys2Proof.Laws.RoundTrip.vamomax (v a b : Reg) (o ret : Bool) (m : Msk) : Statement (.vamomax v a b o ret m) := by
  intro w he hw
  obtain rfl := Option.some.inj (he : some (wVamomax v a b o ret m) = some w)
  have hw : (m.ok) = true := hw
  rw [decode_1C (by simp (disch := omega) only [wVamomax, fld_VA_maj, Nat.sub_self, BitVec.extractLsb'_eq_self])]
  have e0 : ((fld (wVamomax v a b o ret m) 0 5 : BitVec 5)).toNat = 5 := by
    simp (disch := omega) only [wVamomax, fld_VA_fn, BitVec.extractLsb'_eq_self]
    rfl
  simp (disch := first | omega | assumption) only [decodeVamo, e0]
  simp (disch := first | omega | assumption) only [wVamomax, fd, fa, fb, fmsk_parts, fbit_fld, bit1_beq, fld_VA_d, fld_VA_a, fld_VA_b, fld_VA_k, fld_VA_q, fld_VA_neg, fld_VA_m, mskOf_parts, Nat.sub_self, BitVec.extractLsb'_eq_self, bind, Except.bind, pure, Except.pure]
theorem Sys2Proof.Laws.RoundTrip.vamominn (v a b : Reg) (o ret : Bool) (m : Msk) : Statement (.vamominn v a b o ret m) := by
  intro w he hw
  obtain rfl := Option.some.inj (he : some (wVamominn v a b o ret m) = some w)
  have hw : (m.ok) = true := hw
  rw [decode_1C (by simp (disch := omega) only [wVamominn, fld_VA_maj, Nat.sub_self, BitVec.extractLsb'_eq_self])]
  have e0 : ((fld (wVamominn v a b o ret m) 0 5 : BitVec 5)).toNat = 6 := by
    simp (disch := omega) only [wVamominn, fld_VA_fn, BitVec.extractLsb'_eq_self]
    rfl
  simp (disch := first | omega | assumption) only [decodeVamo, e0]
  simp (disch := first | omega | assumption) only [wVamominn, fd, fa, fb, fmsk_parts, fbit_fld, bit1_beq, fld_VA_d, fld_VA_a, fld_VA_b, fld_VA_k, fld_VA_q, fld_VA_neg, fld_VA_m, mskOf_parts, Nat.sub_self, BitVec.extractLsb'_eq_self, bind, Except.bind, pure, Except.pure]
theorem Sys2Proof.Laws.RoundTrip.vamomaxn (v a b : Reg) (o ret : Bool) (m : Msk) : Statement (.vamomaxn v a b o ret m) := by
  intro w he hw
  obtain rfl := Option.some.inj (he : some (wVamomaxn v a b o ret m) = some w)
  have hw : (m.ok) = true := hw
  rw [decode_1C (by simp (disch := omega) only [wVamomaxn, fld_VA_maj, Nat.sub_self, BitVec.extractLsb'_eq_self])]
  have e0 : ((fld (wVamomaxn v a b o ret m) 0 5 : BitVec 5)).toNat = 7 := by
    simp (disch := omega) only [wVamomaxn, fld_VA_fn, BitVec.extractLsb'_eq_self]
    rfl
  simp (disch := first | omega | assumption) only [decodeVamo, e0]
  simp (disch := first | omega | assumption) only [wVamomaxn, fd, fa, fb, fmsk_parts, fbit_fld, bit1_beq, fld_VA_d, fld_VA_a, fld_VA_b, fld_VA_k, fld_VA_q, fld_VA_neg, fld_VA_m, mskOf_parts, Nat.sub_self, BitVec.extractLsb'_eq_self, bind, Except.bind, pure, Except.pure]
theorem Sys2Proof.Laws.RoundTrip.vamoswap (v a b : Reg) (o ret : Bool) (m : Msk) : Statement (.vamoswap v a b o ret m) := by
  intro w he hw
  obtain rfl := Option.some.inj (he : some (wVamoswap v a b o ret m) = some w)
  have hw : (m.ok) = true := hw
  rw [decode_1C (by simp (disch := omega) only [wVamoswap, fld_VA_maj, Nat.sub_self, BitVec.extractLsb'_eq_self])]
  have e0 : ((fld (wVamoswap v a b o ret m) 0 5 : BitVec 5)).toNat = 8 := by
    simp (disch := omega) only [wVamoswap, fld_VA_fn, BitVec.extractLsb'_eq_self]
    rfl
  simp (disch := first | omega | assumption) only [decodeVamo, e0]
  simp (disch := first | omega | assumption) only [wVamoswap, fd, fa, fb, fmsk_parts, fbit_fld, bit1_beq, fld_VA_d, fld_VA_a, fld_VA_b, fld_VA_k, fld_VA_q, fld_VA_neg, fld_VA_m, mskOf_parts, Nat.sub_self, BitVec.extractLsb'_eq_self, bind, Except.bind, pure, Except.pure]
theorem Sys2Proof.Laws.RoundTrip.vamofadd (v a b : Reg) (o ret : Bool) (m : Msk) : Statement (.vamofadd v a b o ret m) := by
  intro w he hw
  obtain rfl := Option.some.inj (he : some (wVamofadd v a b o ret m) = some w)
  have hw : (m.ok) = true := hw
  rw [decode_1C (by simp (disch := omega) only [wVamofadd, fld_VA_maj, Nat.sub_self, BitVec.extractLsb'_eq_self])]
  have e0 : ((fld (wVamofadd v a b o ret m) 0 5 : BitVec 5)).toNat = 9 := by
    simp (disch := omega) only [wVamofadd, fld_VA_fn, BitVec.extractLsb'_eq_self]
    rfl
  simp (disch := first | omega | assumption) only [decodeVamo, e0]
  simp (disch := first | omega | assumption) only [wVamofadd, fd, fa, fb, fmsk_parts, fbit_fld, bit1_beq, fld_VA_d, fld_VA_a, fld_VA_b, fld_VA_k, fld_VA_q, fld_VA_neg, fld_VA_m, mskOf_parts, Nat.sub_self, BitVec.extractLsb'_eq_self, bind, Except.bind, pure, Except.pure]
theorem Sys2Proof.Laws.RoundTrip.vwait (v a b : Reg) (o ret : Bool) (m : Msk) : Statement (.vwait v a b o ret m) := by
  intro w he hw
  obtain rfl := Option.some.inj (he : some (wVwait v a b o ret m) = some w)
  have hw : (m.ok) = true := hw
  rw [decode_1C (by simp (disch := omega) only [wVwait, fld_VA_maj, Nat.sub_self, BitVec.extractLsb'_eq_self])]
  have e0 : ((fld (wVwait v a b o ret m) 0 5 : BitVec 5)).toNat = 10 := by
    simp (disch := omega) only [wVwait, fld_VA_fn, BitVec.extractLsb'_eq_self]
    rfl
  simp (disch := first | omega | assumption) only [decodeVamo, e0]
  simp (disch := first | omega | assumption) only [wVwait, fd, fa, fb, fmsk_parts, fbit_fld, bit1_beq, fld_VA_d, fld_VA_a, fld_VA_b, fld_VA_k, fld_VA_q, fld_VA_neg, fld_VA_m, mskOf_parts, Nat.sub_self, BitVec.extractLsb'_eq_self, bind, Except.bind, pure, Except.pure]
theorem Sys2Proof.Laws.RoundTrip.vadd (vd : Reg) (va : VSrc) (vb : VbSrc) (m : Msk) : Statement (.vadd vd va vb m) := by
  intro w he hw
  obtain rfl := Option.some.inj (he : some (wVadd vd va vb m) = some w)
  have hw : (m.ok) = true := hw
  rw [decode_1D (by simp (disch := omega) only [wVadd, fld_VA_maj, Nat.sub_self, BitVec.extractLsb'_eq_self])]
  have e0 : ((fld (wVadd vd va vb m) 0 5 : BitVec 5)).toNat = 0 := by
    simp (disch := omega) only [wVadd, fld_VA_fn, BitVec.extractLsb'_eq_self]
    rfl
  simp (disch := first | omega | assumption) only [decodeVint, e0]
  simp (disch := first | omega | assumption) only [wVadd, fd, fa, fb, fmsk_parts, fbit_fld, bit1_beq, fld_VA_d, fld_VA_a, fld_VA_b, fld_VA_k, fld_VA_q, fld_VA_neg, fld_VA_m, vsrcOf_field, vbOf_field, mskOf_parts, Nat.sub_self, BitVec.extractLsb'_eq_self, bind, Except.bind, pure, Except.pure]
theorem Sys2Proof.Laws.RoundTrip.vsub (vd : Reg) (va : VSrc) (vb : VbSrc) (m : Msk) : Statement (.vsub vd va vb m) := by
  intro w he hw
  obtain rfl := Option.some.inj (he : some (wVsub vd va vb m) = some w)
  have hw : (m.ok) = true := hw
  rw [decode_1D (by simp (disch := omega) only [wVsub, fld_VA_maj, Nat.sub_self, BitVec.extractLsb'_eq_self])]
  have e0 : ((fld (wVsub vd va vb m) 0 5 : BitVec 5)).toNat = 1 := by
    simp (disch := omega) only [wVsub, fld_VA_fn, BitVec.extractLsb'_eq_self]
    rfl
  simp (disch := first | omega | assumption) only [decodeVint, e0]
  simp (disch := first | omega | assumption) only [wVsub, fd, fa, fb, fmsk_parts, fbit_fld, bit1_beq, fld_VA_d, fld_VA_a, fld_VA_b, fld_VA_k, fld_VA_q, fld_VA_neg, fld_VA_m, vsrcOf_field, vbOf_field, mskOf_parts, Nat.sub_self, BitVec.extractLsb'_eq_self, bind, Except.bind, pure, Except.pure]
theorem Sys2Proof.Laws.RoundTrip.vrsub (vd : Reg) (va : VSrc) (vb : VbSrc) (m : Msk) : Statement (.vrsub vd va vb m) := by
  intro w he hw
  obtain rfl := Option.some.inj (he : some (wVrsub vd va vb m) = some w)
  have hw : (m.ok) = true := hw
  rw [decode_1D (by simp (disch := omega) only [wVrsub, fld_VA_maj, Nat.sub_self, BitVec.extractLsb'_eq_self])]
  have e0 : ((fld (wVrsub vd va vb m) 0 5 : BitVec 5)).toNat = 2 := by
    simp (disch := omega) only [wVrsub, fld_VA_fn, BitVec.extractLsb'_eq_self]
    rfl
  simp (disch := first | omega | assumption) only [decodeVint, e0]
  simp (disch := first | omega | assumption) only [wVrsub, fd, fa, fb, fmsk_parts, fbit_fld, bit1_beq, fld_VA_d, fld_VA_a, fld_VA_b, fld_VA_k, fld_VA_q, fld_VA_neg, fld_VA_m, vsrcOf_field, vbOf_field, mskOf_parts, Nat.sub_self, BitVec.extractLsb'_eq_self, bind, Except.bind, pure, Except.pure]
theorem Sys2Proof.Laws.RoundTrip.vmul (vd : Reg) (va : VSrc) (vb : VbSrc) (m : Msk) : Statement (.vmul vd va vb m) := by
  intro w he hw
  obtain rfl := Option.some.inj (he : some (wVmul vd va vb m) = some w)
  have hw : (m.ok) = true := hw
  rw [decode_1D (by simp (disch := omega) only [wVmul, fld_VA_maj, Nat.sub_self, BitVec.extractLsb'_eq_self])]
  have e0 : ((fld (wVmul vd va vb m) 0 5 : BitVec 5)).toNat = 3 := by
    simp (disch := omega) only [wVmul, fld_VA_fn, BitVec.extractLsb'_eq_self]
    rfl
  simp (disch := first | omega | assumption) only [decodeVint, e0]
  simp (disch := first | omega | assumption) only [wVmul, fd, fa, fb, fmsk_parts, fbit_fld, bit1_beq, fld_VA_d, fld_VA_a, fld_VA_b, fld_VA_k, fld_VA_q, fld_VA_neg, fld_VA_m, vsrcOf_field, vbOf_field, mskOf_parts, Nat.sub_self, BitVec.extractLsb'_eq_self, bind, Except.bind, pure, Except.pure]
theorem Sys2Proof.Laws.RoundTrip.vmulh (vd : Reg) (va : VSrc) (vb : VbSrc) (m : Msk) : Statement (.vmulh vd va vb m) := by
  intro w he hw
  obtain rfl := Option.some.inj (he : some (wVmulh vd va vb m) = some w)
  have hw : (m.ok) = true := hw
  rw [decode_1D (by simp (disch := omega) only [wVmulh, fld_VA_maj, Nat.sub_self, BitVec.extractLsb'_eq_self])]
  have e0 : ((fld (wVmulh vd va vb m) 0 5 : BitVec 5)).toNat = 4 := by
    simp (disch := omega) only [wVmulh, fld_VA_fn, BitVec.extractLsb'_eq_self]
    rfl
  simp (disch := first | omega | assumption) only [decodeVint, e0]
  simp (disch := first | omega | assumption) only [wVmulh, fd, fa, fb, fmsk_parts, fbit_fld, bit1_beq, fld_VA_d, fld_VA_a, fld_VA_b, fld_VA_k, fld_VA_q, fld_VA_neg, fld_VA_m, vsrcOf_field, vbOf_field, mskOf_parts, Nat.sub_self, BitVec.extractLsb'_eq_self, bind, Except.bind, pure, Except.pure]
theorem Sys2Proof.Laws.RoundTrip.vmulhn (vd : Reg) (va : VSrc) (vb : VbSrc) (m : Msk) : Statement (.vmulhn vd va vb m) := by
  intro w he hw
  obtain rfl := Option.some.inj (he : some (wVmulhn vd va vb m) = some w)
  have hw : (m.ok) = true := hw
  rw [decode_1D (by simp (disch := omega) only [wVmulhn, fld_VA_maj, Nat.sub_self, BitVec.extractLsb'_eq_self])]
  have e0 : ((fld (wVmulhn vd va vb m) 0 5 : BitVec 5)).toNat = 5 := by
    simp (disch := omega) only [wVmulhn, fld_VA_fn, BitVec.extractLsb'_eq_self]
    rfl
  simp (disch := first | omega | assumption) only [decodeVint, e0]
  simp (disch := first | omega | assumption) only [wVmulhn, fd, fa, fb, fmsk_parts, fbit_fld, bit1_beq, fld_VA_d, fld_VA_a, fld_VA_b, fld_VA_k, fld_VA_q, fld_VA_neg, fld_VA_m, vsrcOf_field, vbOf_field, mskOf_parts, Nat.sub_self, BitVec.extractLsb'_eq_self, bind, Except.bind, pure, Except.pure]
theorem Sys2Proof.Laws.RoundTrip.vdiv (vd : Reg) (va : VSrc) (vb : VbSrc) (m : Msk) : Statement (.vdiv vd va vb m) := by
  intro w he hw
  obtain rfl := Option.some.inj (he : some (wVdiv vd va vb m) = some w)
  have hw : (m.ok) = true := hw
  rw [decode_1D (by simp (disch := omega) only [wVdiv, fld_VA_maj, Nat.sub_self, BitVec.extractLsb'_eq_self])]
  have e0 : ((fld (wVdiv vd va vb m) 0 5 : BitVec 5)).toNat = 6 := by
    simp (disch := omega) only [wVdiv, fld_VA_fn, BitVec.extractLsb'_eq_self]
    rfl
  simp (disch := first | omega | assumption) only [decodeVint, e0]
  simp (disch := first | omega | assumption) only [wVdiv, fd, fa, fb, fmsk_parts, fbit_fld, bit1_beq, fld_VA_d, fld_VA_a, fld_VA_b, fld_VA_k, fld_VA_q, fld_VA_neg, fld_VA_m, vsrcOf_field, vbOf_field, mskOf_parts, Nat.sub_self, BitVec.extractLsb'_eq_self, bind, Except.bind, pure, Except.pure]
theorem Sys2Proof.Laws.RoundTrip.vdivn (vd : Reg) (va : VSrc) (vb : VbSrc) (m : Msk) : Statement (.vdivn vd va vb m) := by
  intro w he hw
  obtain rfl := Option.some.inj (he : some (wVdivn vd va vb m) = some w)
  have hw : (m.ok) = true := hw
  rw [decode_1D (by simp (disch := omega) only [wVdivn, fld_VA_maj, Nat.sub_self, BitVec.extractLsb'_eq_self])]
  have e0 : ((fld (wVdivn vd va vb m) 0 5 : BitVec 5)).toNat = 7 := by
    simp (disch := omega) only [wVdivn, fld_VA_fn, BitVec.extractLsb'_eq_self]
    rfl
  simp (disch := first | omega | assumption) only [decodeVint, e0]
  simp (disch := first | omega | assumption) only [wVdivn, fd, fa, fb, fmsk_parts, fbit_fld, bit1_beq, fld_VA_d, fld_VA_a, fld_VA_b, fld_VA_k, fld_VA_q, fld_VA_neg, fld_VA_m, vsrcOf_field, vbOf_field, mskOf_parts, Nat.sub_self, BitVec.extractLsb'_eq_self, bind, Except.bind, pure, Except.pure]
theorem Sys2Proof.Laws.RoundTrip.vrem (vd : Reg) (va : VSrc) (vb : VbSrc) (m : Msk) : Statement (.vrem vd va vb m) := by
  intro w he hw
  obtain rfl := Option.some.inj (he : some (wVrem vd va vb m) = some w)
  have hw : (m.ok) = true := hw
  rw [decode_1D (by simp (disch := omega) only [wVrem, fld_VA_maj, Nat.sub_self, BitVec.extractLsb'_eq_self])]
  have e0 : ((fld (wVrem vd va vb m) 0 5 : BitVec 5)).toNat = 8 := by
    simp (disch := omega) only [wVrem, fld_VA_fn, BitVec.extractLsb'_eq_self]
    rfl
  simp (disch := first | omega | assumption) only [decodeVint, e0]
  simp (disch := first | omega | assumption) only [wVrem, fd, fa, fb, fmsk_parts, fbit_fld, bit1_beq, fld_VA_d, fld_VA_a, fld_VA_b, fld_VA_k, fld_VA_q, fld_VA_neg, fld_VA_m, vsrcOf_field, vbOf_field, mskOf_parts, Nat.sub_self, BitVec.extractLsb'_eq_self, bind, Except.bind, pure, Except.pure]
theorem Sys2Proof.Laws.RoundTrip.vremn (vd : Reg) (va : VSrc) (vb : VbSrc) (m : Msk) : Statement (.vremn vd va vb m) := by
  intro w he hw
  obtain rfl := Option.some.inj (he : some (wVremn vd va vb m) = some w)
  have hw : (m.ok) = true := hw
  rw [decode_1D (by simp (disch := omega) only [wVremn, fld_VA_maj, Nat.sub_self, BitVec.extractLsb'_eq_self])]
  have e0 : ((fld (wVremn vd va vb m) 0 5 : BitVec 5)).toNat = 9 := by
    simp (disch := omega) only [wVremn, fld_VA_fn, BitVec.extractLsb'_eq_self]
    rfl
  simp (disch := first | omega | assumption) only [decodeVint, e0]
  simp (disch := first | omega | assumption) only [wVremn, fd, fa, fb, fmsk_parts, fbit_fld, bit1_beq, fld_VA_d, fld_VA_a, fld_VA_b, fld_VA_k, fld_VA_q, fld_VA_neg, fld_VA_m, vsrcOf_field, vbOf_field, mskOf_parts, Nat.sub_self, BitVec.extractLsb'_eq_self, bind, Except.bind, pure, Except.pure]
theorem Sys2Proof.Laws.RoundTrip.vmin (vd : Reg) (va : VSrc) (vb : VbSrc) (m : Msk) : Statement (.vmin vd va vb m) := by
  intro w he hw
  obtain rfl := Option.some.inj (he : some (wVmin vd va vb m) = some w)
  have hw : (m.ok) = true := hw
  rw [decode_1D (by simp (disch := omega) only [wVmin, fld_VA_maj, Nat.sub_self, BitVec.extractLsb'_eq_self])]
  have e0 : ((fld (wVmin vd va vb m) 0 5 : BitVec 5)).toNat = 10 := by
    simp (disch := omega) only [wVmin, fld_VA_fn, BitVec.extractLsb'_eq_self]
    rfl
  simp (disch := first | omega | assumption) only [decodeVint, e0]
  simp (disch := first | omega | assumption) only [wVmin, fd, fa, fb, fmsk_parts, fbit_fld, bit1_beq, fld_VA_d, fld_VA_a, fld_VA_b, fld_VA_k, fld_VA_q, fld_VA_neg, fld_VA_m, vsrcOf_field, vbOf_field, mskOf_parts, Nat.sub_self, BitVec.extractLsb'_eq_self, bind, Except.bind, pure, Except.pure]
theorem Sys2Proof.Laws.RoundTrip.vmax (vd : Reg) (va : VSrc) (vb : VbSrc) (m : Msk) : Statement (.vmax vd va vb m) := by
  intro w he hw
  obtain rfl := Option.some.inj (he : some (wVmax vd va vb m) = some w)
  have hw : (m.ok) = true := hw
  rw [decode_1D (by simp (disch := omega) only [wVmax, fld_VA_maj, Nat.sub_self, BitVec.extractLsb'_eq_self])]
  have e0 : ((fld (wVmax vd va vb m) 0 5 : BitVec 5)).toNat = 11 := by
    simp (disch := omega) only [wVmax, fld_VA_fn, BitVec.extractLsb'_eq_self]
    rfl
  simp (disch := first | omega | assumption) only [decodeVint, e0]
  simp (disch := first | omega | assumption) only [wVmax, fd, fa, fb, fmsk_parts, fbit_fld, bit1_beq, fld_VA_d, fld_VA_a, fld_VA_b, fld_VA_k, fld_VA_q, fld_VA_neg, fld_VA_m, vsrcOf_field, vbOf_field, mskOf_parts, Nat.sub_self, BitVec.extractLsb'_eq_self, bind, Except.bind, pure, Except.pure]
theorem Sys2Proof.Laws.RoundTrip.vminn (vd : Reg) (va : VSrc) (vb : VbSrc) (m : Msk) : Statement (.vminn vd va vb m) := by
  intro w he hw
  obtain rfl := Option.some.inj (he : some (wVminn vd va vb m) = some w)
  have hw : (m.ok) = true := hw
  rw [decode_1D (by simp (disch := omega) only [wVminn, fld_VA_maj, Nat.sub_self, BitVec.extractLsb'_eq_self])]
  have e0 : ((fld (wVminn vd va vb m) 0 5 : BitVec 5)).toNat = 12 := by
    simp (disch := omega) only [wVminn, fld_VA_fn, BitVec.extractLsb'_eq_self]
    rfl
  simp (disch := first | omega | assumption) only [decodeVint, e0]
  simp (disch := first | omega | assumption) only [wVminn, fd, fa, fb, fmsk_parts, fbit_fld, bit1_beq, fld_VA_d, fld_VA_a, fld_VA_b, fld_VA_k, fld_VA_q, fld_VA_neg, fld_VA_m, vsrcOf_field, vbOf_field, mskOf_parts, Nat.sub_self, BitVec.extractLsb'_eq_self, bind, Except.bind, pure, Except.pure]
theorem Sys2Proof.Laws.RoundTrip.vmaxn (vd : Reg) (va : VSrc) (vb : VbSrc) (m : Msk) : Statement (.vmaxn vd va vb m) := by
  intro w he hw
  obtain rfl := Option.some.inj (he : some (wVmaxn vd va vb m) = some w)
  have hw : (m.ok) = true := hw
  rw [decode_1D (by simp (disch := omega) only [wVmaxn, fld_VA_maj, Nat.sub_self, BitVec.extractLsb'_eq_self])]
  have e0 : ((fld (wVmaxn vd va vb m) 0 5 : BitVec 5)).toNat = 13 := by
    simp (disch := omega) only [wVmaxn, fld_VA_fn, BitVec.extractLsb'_eq_self]
    rfl
  simp (disch := first | omega | assumption) only [decodeVint, e0]
  simp (disch := first | omega | assumption) only [wVmaxn, fd, fa, fb, fmsk_parts, fbit_fld, bit1_beq, fld_VA_d, fld_VA_a, fld_VA_b, fld_VA_k, fld_VA_q, fld_VA_neg, fld_VA_m, vsrcOf_field, vbOf_field, mskOf_parts, Nat.sub_self, BitVec.extractLsb'_eq_self, bind, Except.bind, pure, Except.pure]
theorem Sys2Proof.Laws.RoundTrip.vand (vd : Reg) (va : VSrc) (vb : VbSrc) (m : Msk) : Statement (.vand vd va vb m) := by
  intro w he hw
  obtain rfl := Option.some.inj (he : some (wVand vd va vb m) = some w)
  have hw : (m.ok) = true := hw
  rw [decode_1D (by simp (disch := omega) only [wVand, fld_VA_maj, Nat.sub_self, BitVec.extractLsb'_eq_self])]
  have e0 : ((fld (wVand vd va vb m) 0 5 : BitVec 5)).toNat = 14 := by
    simp (disch := omega) only [wVand, fld_VA_fn, BitVec.extractLsb'_eq_self]
    rfl
  simp (disch := first | omega | assumption) only [decodeVint, e0]
  simp (disch := first | omega | assumption) only [wVand, fd, fa, fb, fmsk_parts, fbit_fld, bit1_beq, fld_VA_d, fld_VA_a, fld_VA_b, fld_VA_k, fld_VA_q, fld_VA_neg, fld_VA_m, vsrcOf_field, vbOf_field, mskOf_parts, Nat.sub_self, BitVec.extractLsb'_eq_self, bind, Except.bind, pure, Except.pure]
theorem Sys2Proof.Laws.RoundTrip.vor (vd : Reg) (va : VSrc) (vb : VbSrc) (m : Msk) : Statement (.vor vd va vb m) := by
  intro w he hw
  obtain rfl := Option.some.inj (he : some (wVor vd va vb m) = some w)
  have hw : (m.ok) = true := hw
  rw [decode_1D (by simp (disch := omega) only [wVor, fld_VA_maj, Nat.sub_self, BitVec.extractLsb'_eq_self])]
  have e0 : ((fld (wVor vd va vb m) 0 5 : BitVec 5)).toNat = 15 := by
    simp (disch := omega) only [wVor, fld_VA_fn, BitVec.extractLsb'_eq_self]
    rfl
  simp (disch := first | omega | assumption) only [decodeVint, e0]
  simp (disch := first | omega | assumption) only [wVor, fd, fa, fb, fmsk_parts, fbit_fld, bit1_beq, fld_VA_d, fld_VA_a, fld_VA_b, fld_VA_k, fld_VA_q, fld_VA_neg, fld_VA_m, vsrcOf_field, vbOf_field, mskOf_parts, Nat.sub_self, BitVec.extractLsb'_eq_self, bind, Except.bind, pure, Except.pure]
theorem Sys2Proof.Laws.RoundTrip.vxor (vd : Reg) (va : VSrc) (vb : VbSrc) (m : Msk) : Statement (.vxor vd va vb m) := by
  intro w he hw
  obtain rfl := Option.some.inj (he : some (wVxor vd va vb m) = some w)
  have hw : (m.ok) = true := hw
  rw [decode_1D (by simp (disch := omega) only [wVxor, fld_VA_maj, Nat.sub_self, BitVec.extractLsb'_eq_self])]
  have e0 : ((fld (wVxor vd va vb m) 0 5 : BitVec 5)).toNat = 16 := by
    simp (disch := omega) only [wVxor, fld_VA_fn, BitVec.extractLsb'_eq_self]
    rfl
  simp (disch := first | omega | assumption) only [decodeVint, e0]
  simp (disch := first | omega | assumption) only [wVxor, fd, fa, fb, fmsk_parts, fbit_fld, bit1_beq, fld_VA_d, fld_VA_a, fld_VA_b, fld_VA_k, fld_VA_q, fld_VA_neg, fld_VA_m, vsrcOf_field, vbOf_field, mskOf_parts, Nat.sub_self, BitVec.extractLsb'_eq_self, bind, Except.bind, pure, Except.pure]
theorem Sys2Proof.Laws.RoundTrip.vsll (vd : Reg) (va : VSrc) (vb : VbSrc) (m : Msk) : Statement (.vsll vd va vb m) := by
  intro w he hw
  obtain rfl := Option.some.inj (he : some (wVsll vd va vb m) = some w)
  have hw : (m.ok) = true := hw
  rw [decode_1D (by simp (disch := omega) only [wVsll, fld_VA_maj, Nat.sub_self, BitVec.extractLsb'_eq_self])]
  have e0 : ((fld (wVsll vd va vb m) 0 5 : BitVec 5)).toNat = 17 := by
    simp (disch := omega) only [wVsll, fld_VA_fn, BitVec.extractLsb'_eq_self]
    rfl
  simp (disch := first | omega | assumption) only [decodeVint, e0]
  simp (disch := first | omega | assumption) only [wVsll, fd, fa, fb, fmsk_parts, fbit_fld, bit1_beq, fld_VA_d, fld_VA_a, fld_VA_b, fld_VA_k, fld_VA_q, fld_VA_neg, fld_VA_m, vsrcOf_field, vbOf_field, mskOf_parts, Nat.sub_self, BitVec.extractLsb'_eq_self, bind, Except.bind, pure, Except.pure]
theorem Sys2Proof.Laws.RoundTrip.vsrl (vd : Reg) (va : VSrc) (vb : VbSrc) (m : Msk) : Statement (.vsrl vd va vb m) := by
  intro w he hw
  obtain rfl := Option.some.inj (he : some (wVsrl vd va vb m) = some w)
  have hw : (m.ok) = true := hw
  rw [decode_1D (by simp (disch := omega) only [wVsrl, fld_VA_maj, Nat.sub_self, BitVec.extractLsb'_eq_self])]
  have e0 : ((fld (wVsrl vd va vb m) 0 5 : BitVec 5)).toNat = 18 := by
    simp (disch := omega) only [wVsrl, fld_VA_fn, BitVec.extractLsb'_eq_self]
    rfl
  simp (disch := first | omega | assumption) only [decodeVint, e0]
  simp (disch := first | omega | assumption) only [wVsrl, fd, fa, fb, fmsk_parts, fbit_fld, bit1_beq, fld_VA_d, fld_VA_a, fld_VA_b, fld_VA_k, fld_VA_q, fld_VA_neg, fld_VA_m, vsrcOf_field, vbOf_field, mskOf_parts, Nat.sub_self, BitVec.extractLsb'_eq_self, bind, Except.bind, pure, Except.pure]
theorem Sys2Proof.Laws.RoundTrip.vsra (vd : Reg) (va : VSrc) (vb : VbSrc) (m : Msk) : Statement (.vsra vd va vb m) := by
  intro w he hw
  obtain rfl := Option.some.inj (he : some (wVsra vd va vb m) = some w)
  have hw : (m.ok) = true := hw
  rw [decode_1D (by simp (disch := omega) only [wVsra, fld_VA_maj, Nat.sub_self, BitVec.extractLsb'_eq_self])]
  have e0 : ((fld (wVsra vd va vb m) 0 5 : BitVec 5)).toNat = 19 := by
    simp (disch := omega) only [wVsra, fld_VA_fn, BitVec.extractLsb'_eq_self]
    rfl
  simp (disch := first | omega | assumption) only [decodeVint, e0]
  simp (disch := first | omega | assumption) only [wVsra, fd, fa, fb, fmsk_parts, fbit_fld, bit1_beq, fld_VA_d, fld_VA_a, fld_VA_b, fld_VA_k, fld_VA_q, fld_VA_neg, fld_VA_m, vsrcOf_field, vbOf_field, mskOf_parts, Nat.sub_self, BitVec.extractLsb'_eq_self, bind, Except.bind, pure, Except.pure]
theorem Sys2Proof.Laws.RoundTrip.vadds (vd : Reg) (va : VSrc) (vb : VbSrc) (m : Msk) : Statement (.vadds vd va vb m) := by
  intro w he hw
  obtain rfl := Option.some.inj (he : some (wVadds vd va vb m) = some w)
  have hw : (m.ok) = true := hw
  rw [decode_1D (by simp (disch := omega) only [wVadds, fld_VA_maj, Nat.sub_self, BitVec.extractLsb'_eq_self])]
  have e0 : ((fld (wVadds vd va vb m) 0 5 : BitVec 5)).toNat = 20 := by
    simp (disch := omega) only [wVadds, fld_VA_fn, BitVec.extractLsb'_eq_self]
    rfl
  simp (disch := first | omega | assumption) only [decodeVint, e0]
  simp (disch := first | omega | assumption) only [wVadds, fd, fa, fb, fmsk_parts, fbit_fld, bit1_beq, fld_VA_d, fld_VA_a, fld_VA_b, fld_VA_k, fld_VA_q, fld_VA_neg, fld_VA_m, vsrcOf_field, vbOf_field, mskOf_parts, Nat.sub_self, BitVec.extractLsb'_eq_self, bind, Except.bind, pure, Except.pure]
theorem Sys2Proof.Laws.RoundTrip.vsubs (vd : Reg) (va : VSrc) (vb : VbSrc) (m : Msk) : Statement (.vsubs vd va vb m) := by
  intro w he hw
  obtain rfl := Option.some.inj (he : some (wVsubs vd va vb m) = some w)
  have hw : (m.ok) = true := hw
  rw [decode_1D (by simp (disch := omega) only [wVsubs, fld_VA_maj, Nat.sub_self, BitVec.extractLsb'_eq_self])]
  have e0 : ((fld (wVsubs vd va vb m) 0 5 : BitVec 5)).toNat = 21 := by
    simp (disch := omega) only [wVsubs, fld_VA_fn, BitVec.extractLsb'_eq_self]
    rfl
  simp (disch := first | omega | assumption) only [decodeVint, e0]
  simp (disch := first | omega | assumption) only [wVsubs, fd, fa, fb, fmsk_parts, fbit_fld, bit1_beq, fld_VA_d, fld_VA_a, fld_VA_b, fld_VA_k, fld_VA_q, fld_VA_neg, fld_VA_m, vsrcOf_field, vbOf_field, mskOf_parts, Nat.sub_self, BitVec.extractLsb'_eq_self, bind, Except.bind, pure, Except.pure]
theorem Sys2Proof.Laws.RoundTrip.vaddsn (vd : Reg) (va : VSrc) (vb : VbSrc) (m : Msk) : Statement (.vaddsn vd va vb m) := by
  intro w he hw
  obtain rfl := Option.some.inj (he : some (wVaddsn vd va vb m) = some w)
  have hw : (m.ok) = true := hw
  rw [decode_1D (by simp (disch := omega) only [wVaddsn, fld_VA_maj, Nat.sub_self, BitVec.extractLsb'_eq_self])]
  have e0 : ((fld (wVaddsn vd va vb m) 0 5 : BitVec 5)).toNat = 22 := by
    simp (disch := omega) only [wVaddsn, fld_VA_fn, BitVec.extractLsb'_eq_self]
    rfl
  simp (disch := first | omega | assumption) only [decodeVint, e0]
  simp (disch := first | omega | assumption) only [wVaddsn, fd, fa, fb, fmsk_parts, fbit_fld, bit1_beq, fld_VA_d, fld_VA_a, fld_VA_b, fld_VA_k, fld_VA_q, fld_VA_neg, fld_VA_m, vsrcOf_field, vbOf_field, mskOf_parts, Nat.sub_self, BitVec.extractLsb'_eq_self, bind, Except.bind, pure, Except.pure]
theorem Sys2Proof.Laws.RoundTrip.vsubsn (vd : Reg) (va : VSrc) (vb : VbSrc) (m : Msk) : Statement (.vsubsn vd va vb m) := by
  intro w he hw
  obtain rfl := Option.some.inj (he : some (wVsubsn vd va vb m) = some w)
  have hw : (m.ok) = true := hw
  rw [decode_1D (by simp (disch := omega) only [wVsubsn, fld_VA_maj, Nat.sub_self, BitVec.extractLsb'_eq_self])]
  have e0 : ((fld (wVsubsn vd va vb m) 0 5 : BitVec 5)).toNat = 23 := by
    simp (disch := omega) only [wVsubsn, fld_VA_fn, BitVec.extractLsb'_eq_self]
    rfl
  simp (disch := first | omega | assumption) only [decodeVint, e0]
  simp (disch := first | omega | assumption) only [wVsubsn, fd, fa, fb, fmsk_parts, fbit_fld, bit1_beq, fld_VA_d, fld_VA_a, fld_VA_b, fld_VA_k, fld_VA_q, fld_VA_neg, fld_VA_m, vsrcOf_field, vbOf_field, mskOf_parts, Nat.sub_self, BitVec.extractLsb'_eq_self, bind, Except.bind, pure, Except.pure]
theorem Sys2Proof.Laws.RoundTrip.vmacc (vd : Reg) (va : VSrc) (vb : VbSrc) (m : Msk) : Statement (.vmacc vd va vb m) := by
  intro w he hw
  obtain rfl := Option.some.inj (he : some (wVmacc vd va vb m) = some w)
  have hw : (m.ok) = true := hw
  rw [decode_1D (by simp (disch := omega) only [wVmacc, fld_VA_maj, Nat.sub_self, BitVec.extractLsb'_eq_self])]
  have e0 : ((fld (wVmacc vd va vb m) 0 5 : BitVec 5)).toNat = 24 := by
    simp (disch := omega) only [wVmacc, fld_VA_fn, BitVec.extractLsb'_eq_self]
    rfl
  simp (disch := first | omega | assumption) only [decodeVint, e0]
  simp (disch := first | omega | assumption) only [wVmacc, fd, fa, fb, fmsk_parts, fbit_fld, bit1_beq, fld_VA_d, fld_VA_a, fld_VA_b, fld_VA_k, fld_VA_q, fld_VA_neg, fld_VA_m, vsrcOf_field, vbOf_field, mskOf_parts, Nat.sub_self, BitVec.extractLsb'_eq_self, bind, Except.bind, pure, Except.pure]
theorem Sys2Proof.Laws.RoundTrip.vnmsac (vd : Reg) (va : VSrc) (vb : VbSrc) (m : Msk) : Statement (.vnmsac vd va vb m) := by
  intro w he hw
  obtain rfl := Option.some.inj (he : some (wVnmsac vd va vb m) = some w)
  have hw : (m.ok) = true := hw
  rw [decode_1D (by simp (disch := omega) only [wVnmsac, fld_VA_maj, Nat.sub_self, BitVec.extractLsb'_eq_self])]
  have e0 : ((fld (wVnmsac vd va vb m) 0 5 : BitVec 5)).toNat = 25 := by
    simp (disch := omega) only [wVnmsac, fld_VA_fn, BitVec.extractLsb'_eq_self]
    rfl
  simp (disch := first | omega | assumption) only [decodeVint, e0]
  simp (disch := first | omega | assumption) only [wVnmsac, fd, fa, fb, fmsk_parts, fbit_fld, bit1_beq, fld_VA_d, fld_VA_a, fld_VA_b, fld_VA_k, fld_VA_q, fld_VA_neg, fld_VA_m, vsrcOf_field, vbOf_field, mskOf_parts, Nat.sub_self, BitVec.extractLsb'_eq_self, bind, Except.bind, pure, Except.pure]
theorem Sys2Proof.Laws.RoundTrip.vwmul (vd : Reg) (va : VSrc) (vb : VbSrc) (m : Msk) : Statement (.vwmul vd va vb m) := by
  intro w he hw
  obtain rfl := Option.some.inj (he : some (wVwmul vd va vb m) = some w)
  have hw : (m.ok) = true := hw
  rw [decode_1D (by simp (disch := omega) only [wVwmul, fld_VA_maj, Nat.sub_self, BitVec.extractLsb'_eq_self])]
  have e0 : ((fld (wVwmul vd va vb m) 0 5 : BitVec 5)).toNat = 26 := by
    simp (disch := omega) only [wVwmul, fld_VA_fn, BitVec.extractLsb'_eq_self]
    rfl
  simp (disch := first | omega | assumption) only [decodeVint, e0]
  simp (disch := first | omega | assumption) only [wVwmul, fd, fa, fb, fmsk_parts, fbit_fld, bit1_beq, fld_VA_d, fld_VA_a, fld_VA_b, fld_VA_k, fld_VA_q, fld_VA_neg, fld_VA_m, vsrcOf_field, vbOf_field, mskOf_parts, Nat.sub_self, BitVec.extractLsb'_eq_self, bind, Except.bind, pure, Except.pure]
theorem Sys2Proof.Laws.RoundTrip.vnsrl (vd : Reg) (va : VSrc) (vb : VbSrc) (m : Msk) : Statement (.vnsrl vd va vb m) := by
  intro w he hw
  obtain rfl := Option.some.inj (he : some (wVnsrl vd va vb m) = some w)
  have hw : (m.ok) = true := hw
  rw [decode_1D (by simp (disch := omega) only [wVnsrl, fld_VA_maj, Nat.sub_self, BitVec.extractLsb'_eq_self])]
  have e0 : ((fld (wVnsrl vd va vb m) 0 5 : BitVec 5)).toNat = 27 := by
    simp (disch := omega) only [wVnsrl, fld_VA_fn, BitVec.extractLsb'_eq_self]
    rfl
  simp (disch := first | omega | assumption) only [decodeVint, e0]
  simp (disch := first | omega | assumption) only [wVnsrl, fd, fa, fb, fmsk_parts, fbit_fld, bit1_beq, fld_VA_d, fld_VA_a, fld_VA_b, fld_VA_k, fld_VA_q, fld_VA_neg, fld_VA_m, vsrcOf_field, vbOf_field, mskOf_parts, Nat.sub_self, BitVec.extractLsb'_eq_self, bind, Except.bind, pure, Except.pure]
theorem Sys2Proof.Laws.RoundTrip.vfadd (vd : Reg) (va : VSrc) (vb : VbSrc) (m : Msk) : Statement (.vfadd vd va vb m) := by
  intro w he hw
  obtain rfl := Option.some.inj (he : some (wVfadd vd va vb m) = some w)
  have hw : (m.ok) = true := hw
  rw [decode_1E (by simp (disch := omega) only [wVfadd, fld_VA_maj, Nat.sub_self, BitVec.extractLsb'_eq_self])]
  have e0 : ((fld (wVfadd vd va vb m) 0 5 : BitVec 5)).toNat = 0 := by
    simp (disch := omega) only [wVfadd, fld_VA_fn, BitVec.extractLsb'_eq_self]
    rfl
  simp (disch := first | omega | assumption) only [decodeVfp, e0]
  simp (disch := first | omega | assumption) only [wVfadd, fd, fa, fb, fmsk_parts, fbit_fld, bit1_beq, fld_VA_d, fld_VA_a, fld_VA_b, fld_VA_k, fld_VA_q, fld_VA_neg, fld_VA_m, vsrcOf_field, vbOf_field, mskOf_parts, Nat.sub_self, BitVec.extractLsb'_eq_self, bind, Except.bind, pure, Except.pure]
theorem Sys2Proof.Laws.RoundTrip.vfsub (vd : Reg) (va : VSrc) (vb : VbSrc) (m : Msk) : Statement (.vfsub vd va vb m) := by
  intro w he hw
  obtain rfl := Option.some.inj (he : some (wVfsub vd va vb m) = some w)
  have hw : (m.ok) = true := hw
  rw [decode_1E (by simp (disch := omega) only [wVfsub, fld_VA_maj, Nat.sub_self, BitVec.extractLsb'_eq_self])]
  have e0 : ((fld (wVfsub vd va vb m) 0 5 : BitVec 5)).toNat = 1 := by
    simp (disch := omega) only [wVfsub, fld_VA_fn, BitVec.extractLsb'_eq_self]
    rfl
  simp (disch := first | omega | assumption) only [decodeVfp, e0]
  simp (disch := first | omega | assumption) only [wVfsub, fd, fa, fb, fmsk_parts, fbit_fld, bit1_beq, fld_VA_d, fld_VA_a, fld_VA_b, fld_VA_k, fld_VA_q, fld_VA_neg, fld_VA_m, vsrcOf_field, vbOf_field, mskOf_parts, Nat.sub_self, BitVec.extractLsb'_eq_self, bind, Except.bind, pure, Except.pure]
theorem Sys2Proof.Laws.RoundTrip.vfmul (vd : Reg) (va : VSrc) (vb : VbSrc) (m : Msk) : Statement (.vfmul vd va vb m) := by
  intro w he hw
  obtain rfl := Option.some.inj (he : some (wVfmul vd va vb m) = some w)
  have hw : (m.ok) = true := hw
  rw [decode_1E (by simp (disch := omega) only [wVfmul, fld_VA_maj, Nat.sub_self, BitVec.extractLsb'_eq_self])]
  have e0 : ((fld (wVfmul vd va vb m) 0 5 : BitVec 5)).toNat = 2 := by
    simp (disch := omega) only [wVfmul, fld_VA_fn, BitVec.extractLsb'_eq_self]
    rfl
  simp (disch := first | omega | assumption) only [decodeVfp, e0]
  simp (disch := first | omega | assumption) only [wVfmul, fd, fa, fb, fmsk_parts, fbit_fld, bit1_beq, fld_VA_d, fld_VA_a, fld_VA_b, fld_VA_k, fld_VA_q, fld_VA_neg, fld_VA_m, vsrcOf_field, vbOf_field, mskOf_parts, Nat.sub_self, BitVec.extractLsb'_eq_self, bind, Except.bind, pure, Except.pure]
theorem Sys2Proof.Laws.RoundTrip.vfdiv (vd : Reg) (va : VSrc) (vb : VbSrc) (m : Msk) : Statement (.vfdiv vd va vb m) := by
  intro w he hw
  obtain rfl := Option.some.inj (he : some (wVfdiv vd va vb m) = some w)
  have hw : (m.ok) = true := hw
  rw [decode_1E (by simp (disch := omega) only [wVfdiv, fld_VA_maj, Nat.sub_self, BitVec.extractLsb'_eq_self])]
  have e0 : ((fld (wVfdiv vd va vb m) 0 5 : BitVec 5)).toNat = 3 := by
    simp (disch := omega) only [wVfdiv, fld_VA_fn, BitVec.extractLsb'_eq_self]
    rfl
  simp (disch := first | omega | assumption) only [decodeVfp, e0]
  simp (disch := first | omega | assumption) only [wVfdiv, fd, fa, fb, fmsk_parts, fbit_fld, bit1_beq, fld_VA_d, fld_VA_a, fld_VA_b, fld_VA_k, fld_VA_q, fld_VA_neg, fld_VA_m, vsrcOf_field, vbOf_field, mskOf_parts, Nat.sub_self, BitVec.extractLsb'_eq_self, bind, Except.bind, pure, Except.pure]
theorem Sys2Proof.Laws.RoundTrip.vfsqrt (vd : Reg) (va : VSrc) (m : Msk) : Statement (.vfsqrt vd va m) := by
  intro w he hw
  obtain rfl := Option.some.inj (he : some (wVfsqrt vd va m) = some w)
  have hw : (m.ok) = true := hw
  rw [decode_1E (by simp (disch := omega) only [wVfsqrt, fld_VA_maj, Nat.sub_self, BitVec.extractLsb'_eq_self])]
  have e0 : ((fld (wVfsqrt vd va m) 0 5 : BitVec 5)).toNat = 4 := by
    simp (disch := omega) only [wVfsqrt, fld_VA_fn, BitVec.extractLsb'_eq_self]
    rfl
  simp (disch := first | omega | assumption) only [decodeVfp, e0]
  simp (disch := first | omega | assumption) only [wVfsqrt, fd, fa, fb, fmsk_parts, fbit_fld, bit1_beq, fld_VA_d, fld_VA_a, fld_VA_b, fld_VA_k, fld_VA_q, fld_VA_neg, fld_VA_m, vsrcOf_field, mskOf_parts, Nat.sub_self, BitVec.extractLsb'_eq_self, need_true, zero_zero, Bool.not_false, bind, Except.bind, pure, Except.pure]
theorem Sys2Proof.Laws.RoundTrip.vfrsqe (vd : Reg) (va : VSrc) (m : Msk) : Statement (.vfrsqe vd va m) := by
  intro w he hw
  obtain rfl := Option.some.inj (he : some (wVfrsqe vd va m) = some w)
  have hw : (m.ok) = true := hw
  rw [decode_1E (by simp (disch := omega) only [wVfrsqe, fld_VA_maj, Nat.sub_self, BitVec.extractLsb'_eq_self])]
  have e0 : ((fld (wVfrsqe vd va m) 0 5 : BitVec 5)).toNat = 5 := by
    simp (disch := omega) only [wVfrsqe, fld_VA_fn, BitVec.extractLsb'_eq_self]
    rfl
  simp (disch := first | omega | assumption) only [decodeVfp, e0]
  simp (disch := first | omega | assumption) only [wVfrsqe, fd, fa, fb, fmsk_parts, fbit_fld, bit1_beq, fld_VA_d, fld_VA_a, fld_VA_b, fld_VA_k, fld_VA_q, fld_VA_neg, fld_VA_m, vsrcOf_field, mskOf_parts, Nat.sub_self, BitVec.extractLsb'_eq_self, need_true, zero_zero, Bool.not_false, bind, Except.bind, pure, Except.pure]
theorem Sys2Proof.Laws.RoundTrip.vfexp2 (vd : Reg) (va : VSrc) (m : Msk) : Statement (.vfexp2 vd va m) := by
  intro w he hw
  obtain rfl := Option.some.inj (he : some (wVfexp2 vd va m) = some w)
  have hw : (m.ok) = true := hw
  rw [decode_1E (by simp (disch := omega) only [wVfexp2, fld_VA_maj, Nat.sub_self, BitVec.extractLsb'_eq_self])]
  have e0 : ((fld (wVfexp2 vd va m) 0 5 : BitVec 5)).toNat = 6 := by
    simp (disch := omega) only [wVfexp2, fld_VA_fn, BitVec.extractLsb'_eq_self]
    rfl
  simp (disch := first | omega | assumption) only [decodeVfp, e0]
  simp (disch := first | omega | assumption) only [wVfexp2, fd, fa, fb, fmsk_parts, fbit_fld, bit1_beq, fld_VA_d, fld_VA_a, fld_VA_b, fld_VA_k, fld_VA_q, fld_VA_neg, fld_VA_m, vsrcOf_field, mskOf_parts, Nat.sub_self, BitVec.extractLsb'_eq_self, need_true, zero_zero, Bool.not_false, bind, Except.bind, pure, Except.pure]
theorem Sys2Proof.Laws.RoundTrip.vfmadd (vd : Reg) (va : VSrc) (vb : VbSrc) (m : Msk) : Statement (.vfmadd vd va vb m) := by
  intro w he hw
  obtain rfl := Option.some.inj (he : some (wVfmadd vd va vb m) = some w)
  have hw : (m.ok) = true := hw
  rw [decode_1E (by simp (disch := omega) only [wVfmadd, fld_VA_maj, Nat.sub_self, BitVec.extractLsb'_eq_self])]
  have e0 : ((fld (wVfmadd vd va vb m) 0 5 : BitVec 5)).toNat = 7 := by
    simp (disch := omega) only [wVfmadd, fld_VA_fn, BitVec.extractLsb'_eq_self]
    rfl
  simp (disch := first | omega | assumption) only [decodeVfp, e0]
  simp (disch := first | omega | assumption) only [wVfmadd, fd, fa, fb, fmsk_parts, fbit_fld, bit1_beq, fld_VA_d, fld_VA_a, fld_VA_b, fld_VA_k, fld_VA_q, fld_VA_neg, fld_VA_m, vsrcOf_field, vbOf_field, mskOf_parts, Nat.sub_self, BitVec.extractLsb'_eq_self, bind, Except.bind, pure, Except.pure]
theorem Sys2Proof.Laws.RoundTrip.vfnmadd (vd : Reg) (va : VSrc) (vb : VbSrc) (m : Msk) : Statement (.vfnmadd vd va vb m) := by
  intro w he hw
  obtain rfl := Option.some.inj (he : some (wVfnmadd vd va vb m) = some w)
  have hw : (m.ok) = true := hw
  rw [decode_1E (by simp (disch := omega) only [wVfnmadd, fld_VA_maj, Nat.sub_self, BitVec.extractLsb'_eq_self])]
  have e0 : ((fld (wVfnmadd vd va vb m) 0 5 : BitVec 5)).toNat = 8 := by
    simp (disch := omega) only [wVfnmadd, fld_VA_fn, BitVec.extractLsb'_eq_self]
    rfl
  simp (disch := first | omega | assumption) only [decodeVfp, e0]
  simp (disch := first | omega | assumption) only [wVfnmadd, fd, fa, fb, fmsk_parts, fbit_fld, bit1_beq, fld_VA_d, fld_VA_a, fld_VA_b, fld_VA_k, fld_VA_q, fld_VA_neg, fld_VA_m, vsrcOf_field, vbOf_field, mskOf_parts, Nat.sub_self, BitVec.extractLsb'_eq_self, bind, Except.bind, pure, Except.pure]
theorem Sys2Proof.Laws.RoundTrip.vfmsub (vd : Reg) (va : VSrc) (vb : VbSrc) (m : Msk) : Statement (.vfmsub vd va vb m) := by
  intro w he hw
  obtain rfl := Option.some.inj (he : some (wVfmsub vd va vb m) = some w)
  have hw : (m.ok) = true := hw
  rw [decode_1E (by simp (disch := omega) only [wVfmsub, fld_VA_maj, Nat.sub_self, BitVec.extractLsb'_eq_self])]
  have e0 : ((fld (wVfmsub vd va vb m) 0 5 : BitVec 5)).toNat = 9 := by
    simp (disch := omega) only [wVfmsub, fld_VA_fn, BitVec.extractLsb'_eq_self]
    rfl
  simp (disch := first | omega | assumption) only [decodeVfp, e0]
  simp (disch := first | omega | assumption) only [wVfmsub, fd, fa, fb, fmsk_parts, fbit_fld, bit1_beq, fld_VA_d, fld_VA_a, fld_VA_b, fld_VA_k, fld_VA_q, fld_VA_neg, fld_VA_m, vsrcOf_field, vbOf_field, mskOf_parts, Nat.sub_self, BitVec.extractLsb'_eq_self, bind, Except.bind, pure, Except.pure]
theorem Sys2Proof.Laws.RoundTrip.vfmin (vd : Reg) (va : VSrc) (vb : VbSrc) (m : Msk) : Statement (.vfmin vd va vb m) := by
  intro w he hw
  obtain rfl := Option.some.inj (he : some (wVfmin vd va vb m) = some w)
  have hw : (m.ok) = true := hw
  rw [decode_1E (by simp (disch := omega) only [wVfmin, fld_VA_maj, Nat.sub_self, BitVec.extractLsb'_eq_self])]
  have e0 : ((fld (wVfmin vd va vb m) 0 5 : BitVec 5)).toNat = 10 := by
    simp (disch := omega) only [wVfmin, fld_VA_fn, BitVec.extractLsb'_eq_self]
    rfl
  simp (disch := first | omega | assumption) only [decodeVfp, e0]
  simp (disch := first | omega | assumption) only [wVfmin, fd, fa, fb, fmsk_parts, fbit_fld, bit1_beq, fld_VA_d, fld_VA_a, fld_VA_b, fld_VA_k, fld_VA_q, fld_VA_neg, fld_VA_m, vsrcOf_field, vbOf_field, mskOf_parts, Nat.sub_self, BitVec.extractLsb'_eq_self, bind, Except.bind, pure, Except.pure]
theorem Sys2Proof.Laws.RoundTrip.vfmax (vd : Reg) (va : VSrc) (vb : VbSrc) (m : Msk) : Statement (.vfmax vd va vb m) := by
  intro w he hw
  obtain rfl := Option.some.inj (he : some (wVfmax vd va vb m) = some w)
  have hw : (m.ok) = true := hw
  rw [decode_1E (by simp (disch := omega) only [wVfmax, fld_VA_maj, Nat.sub_self, BitVec.extractLsb'_eq_self])]
  have e0 : ((fld (wVfmax vd va vb m) 0 5 : BitVec 5)).toNat = 11 := by
    simp (disch := omega) only [wVfmax, fld_VA_fn, BitVec.extractLsb'_eq_self]
    rfl
  simp (disch := first | omega | assumption) only [decodeVfp, e0]
  simp (disch := first | omega | assumption) only [wVfmax, fd, fa, fb, fmsk_parts, fbit_fld, bit1_beq, fld_VA_d, fld_VA_a, fld_VA_b, fld_VA_k, fld_VA_q, fld_VA_neg, fld_VA_m, vsrcOf_field, vbOf_field, mskOf_parts, Nat.sub_self, BitVec.extractLsb'_eq_self, bind, Except.bind, pure, Except.pure]
theorem Sys2Proof.Laws.RoundTrip.vfabs (vd : Reg) (va : VSrc) (m : Msk) : Statement (.vfabs vd va m) := by
  intro w he hw
  obtain rfl := Option.some.inj (he : some (wVfabs vd va m) = some w)
  have hw : (m.ok) = true := hw
  rw [decode_1E (by simp (disch := omega) only [wVfabs, fld_VA_maj, Nat.sub_self, BitVec.extractLsb'_eq_self])]
  have e0 : ((fld (wVfabs vd va m) 0 5 : BitVec 5)).toNat = 12 := by
    simp (disch := omega) only [wVfabs, fld_VA_fn, BitVec.extractLsb'_eq_self]
    rfl
  simp (disch := first | omega | assumption) only [decodeVfp, e0]
  simp (disch := first | omega | assumption) only [wVfabs, fd, fa, fb, fmsk_parts, fbit_fld, bit1_beq, fld_VA_d, fld_VA_a, fld_VA_b, fld_VA_k, fld_VA_q, fld_VA_neg, fld_VA_m, vsrcOf_field, mskOf_parts, Nat.sub_self, BitVec.extractLsb'_eq_self, need_true, zero_zero, Bool.not_false, bind, Except.bind, pure, Except.pure]
theorem Sys2Proof.Laws.RoundTrip.vfneg (vd : Reg) (va : VSrc) (m : Msk) : Statement (.vfneg vd va m) := by
  intro w he hw
  obtain rfl := Option.some.inj (he : some (wVfneg vd va m) = some w)
  have hw : (m.ok) = true := hw
  rw [decode_1E (by simp (disch := omega) only [wVfneg, fld_VA_maj, Nat.sub_self, BitVec.extractLsb'_eq_self])]
  have e0 : ((fld (wVfneg vd va m) 0 5 : BitVec 5)).toNat = 13 := by
    simp (disch := omega) only [wVfneg, fld_VA_fn, BitVec.extractLsb'_eq_self]
    rfl
  simp (disch := first | omega | assumption) only [decodeVfp, e0]
  simp (disch := first | omega | assumption) only [wVfneg, fd, fa, fb, fmsk_parts, fbit_fld, bit1_beq, fld_VA_d, fld_VA_a, fld_VA_b, fld_VA_k, fld_VA_q, fld_VA_neg, fld_VA_m, vsrcOf_field, mskOf_parts, Nat.sub_self, BitVec.extractLsb'_eq_self, need_true, zero_zero, Bool.not_false, bind, Except.bind, pure, Except.pure]
theorem Sys2Proof.Laws.RoundTrip.vfsgnj (vd : Reg) (va : VSrc) (vb : VbSrc) (m : Msk) : Statement (.vfsgnj vd va vb m) := by
  intro w he hw
  obtain rfl := Option.some.inj (he : some (wVfsgnj vd va vb m) = some w)
  have hw : (m.ok) = true := hw
  rw [decode_1E (by simp (disch := omega) only [wVfsgnj, fld_VA_maj, Nat.sub_self, BitVec.extractLsb'_eq_self])]
  have e0 : ((fld (wVfsgnj vd va vb m) 0 5 : BitVec 5)).toNat = 14 := by
    simp (disch := omega) only [wVfsgnj, fld_VA_fn, BitVec.extractLsb'_eq_self]
    rfl
  simp (disch := first | omega | assumption) only [decodeVfp, e0]
  simp (disch := first | omega | assumption) only [wVfsgnj, fd, fa, fb, fmsk_parts, fbit_fld, bit1_beq, fld_VA_d, fld_VA_a, fld_VA_b, fld_VA_k, fld_VA_q, fld_VA_neg, fld_VA_m, vsrcOf_field, vbOf_field, mskOf_parts, Nat.sub_self, BitVec.extractLsb'_eq_self, bind, Except.bind, pure, Except.pure]
theorem Sys2Proof.Laws.RoundTrip.vfclass (vd : Reg) (va : VSrc) (m : Msk) : Statement (.vfclass vd va m) := by
  intro w he hw
  obtain rfl := Option.some.inj (he : some (wVfclass vd va m) = some w)
  have hw : (m.ok) = true := hw
  rw [decode_1E (by simp (disch := omega) only [wVfclass, fld_VA_maj, Nat.sub_self, BitVec.extractLsb'_eq_self])]
  have e0 : ((fld (wVfclass vd va m) 0 5 : BitVec 5)).toNat = 15 := by
    simp (disch := omega) only [wVfclass, fld_VA_fn, BitVec.extractLsb'_eq_self]
    rfl
  simp (disch := first | omega | assumption) only [decodeVfp, e0]
  simp (disch := first | omega | assumption) only [wVfclass, fd, fa, fb, fmsk_parts, fbit_fld, bit1_beq, fld_VA_d, fld_VA_a, fld_VA_b, fld_VA_k, fld_VA_q, fld_VA_neg, fld_VA_m, vsrcOf_field, mskOf_parts, Nat.sub_self, BitVec.extractLsb'_eq_self, need_true, zero_zero, Bool.not_false, bind, Except.bind, pure, Except.pure]
theorem Sys2Proof.Laws.RoundTrip.vcvtf64 (vd : Reg) (va : VSrc) (cv : BitVec 3) (m : Msk) : Statement (.vcvtf64 vd va cv m) := by
  intro w he hw
  obtain rfl := Option.some.inj (he : some (wVcvtf64 vd va cv m) = some w)
  have hw : (cvOk false cv && m.ok) = true := hw
  simp only [Bool.and_eq_true] at hw
  obtain ⟨hw0, hw1⟩ := hw
  rw [decode_1F (by simp (disch := omega) only [wVcvtf64, fld_VA_maj, Nat.sub_self, BitVec.extractLsb'_eq_self])]
  have e0 : ((fld (wVcvtf64 vd va cv m) 0 5 : BitVec 5)).toNat = 0 := by
    simp (disch := omega) only [wVcvtf64, fld_VA_fn, BitVec.extractLsb'_eq_self]
    rfl
  simp (disch := first | omega | assumption) only [decodeVcvt, e0]
  simp (disch := first | omega | assumption) only [wVcvtf64, fd, fa, fmsk_parts, fbit_fld, bit1_beq, fld_VA_d, fld_VA_a, fld_VA_b, fld_VA_k, fld_VA_q, fld_VA_neg, fld_VA_m, pad3_low, pad3_high, vsrcOf_field, mskOf_parts, hw0, Nat.sub_self, Nat.reduceSub, BitVec.extractLsb'_eq_self, need_true, beq_self_eq_true, Bool.not_false, bind, Except.bind, pure, Except.pure]
theorem Sys2Proof.Laws.RoundTrip.vcvtf32 (vd : Reg) (va : VSrc) (cv : BitVec 3) (m : Msk) : Statement (.vcvtf32 vd va cv m) := by
  intro w he hw
  obtain rfl := Option.some.inj (he : some (wVcvtf32 vd va cv m) = some w)
  have hw : (cvOk false cv && m.ok) = true := hw
  simp only [Bool.and_eq_true] at hw
  obtain ⟨hw0, hw1⟩ := hw
  rw [decode_1F (by simp (disch := omega) only [wVcvtf32, fld_VA_maj, Nat.sub_self, BitVec.extractLsb'_eq_self])]
  have e0 : ((fld (wVcvtf32 vd va cv m) 0 5 : BitVec 5)).toNat = 1 := by
    simp (disch := omega) only [wVcvtf32, fld_VA_fn, BitVec.extractLsb'_eq_self]
    rfl
  simp (disch := first | omega | assumption) only [decodeVcvt, e0]
  simp (disch := first | omega | assumption) only [wVcvtf32, fd, fa, fmsk_parts, fbit_fld, bit1_beq, fld_VA_d, fld_VA_a, fld_VA_b, fld_VA_k, fld_VA_q, fld_VA_neg, fld_VA_m, pad3_low, pad3_high, vsrcOf_field, mskOf_parts, hw0, Nat.sub_self, Nat.reduceSub, BitVec.extractLsb'_eq_self, need_true, beq_self_eq_true, Bool.not_false, bind, Except.bind, pure, Except.pure]
theorem Sys2Proof.Laws.RoundTrip.vcvtf16 (vd : Reg) (va : VSrc) (cv : BitVec 3) (m : Msk) : Statement (.vcvtf16 vd va cv m) := by
  intro w he hw
  obtain rfl := Option.some.inj (he : some (wVcvtf16 vd va cv m) = some w)
  have hw : (cvOk false cv && m.ok) = true := hw
  simp only [Bool.and_eq_true] at hw
  obtain ⟨hw0, hw1⟩ := hw
  rw [decode_1F (by simp (disch := omega) only [wVcvtf16, fld_VA_maj, Nat.sub_self, BitVec.extractLsb'_eq_self])]
  have e0 : ((fld (wVcvtf16 vd va cv m) 0 5 : BitVec 5)).toNat = 2 := by
    simp (disch := omega) only [wVcvtf16, fld_VA_fn, BitVec.extractLsb'_eq_self]
    rfl
  simp (disch := first | omega | assumption) only [decodeVcvt, e0]
  simp (disch := first | omega | assumption) only [wVcvtf16, fd, fa, fmsk_parts, fbit_fld, bit1_beq, fld_VA_d, fld_VA_a, fld_VA_b, fld_VA_k, fld_VA_q, fld_VA_neg, fld_VA_m, pad3_low, pad3_high, vsrcOf_field, mskOf_parts, hw0, Nat.sub_self, Nat.reduceSub, BitVec.extractLsb'_eq_self, need_true, beq_self_eq_true, Bool.not_false, bind, Except.bind, pure, Except.pure]
theorem Sys2Proof.Laws.RoundTrip.vcvtbf16 (vd : Reg) (va : VSrc) (cv : BitVec 3) (m : Msk) : Statement (.vcvtbf16 vd va cv m) := by
  intro w he hw
  obtain rfl := Option.some.inj (he : some (wVcvtbf16 vd va cv m) = some w)
  have hw : (cvOk false cv && m.ok) = true := hw
  simp only [Bool.and_eq_true] at hw
  obtain ⟨hw0, hw1⟩ := hw
  rw [decode_1F (by simp (disch := omega) only [wVcvtbf16, fld_VA_maj, Nat.sub_self, BitVec.extractLsb'_eq_self])]
  have e0 : ((fld (wVcvtbf16 vd va cv m) 0 5 : BitVec 5)).toNat = 3 := by
    simp (disch := omega) only [wVcvtbf16, fld_VA_fn, BitVec.extractLsb'_eq_self]
    rfl
  simp (disch := first | omega | assumption) only [decodeVcvt, e0]
  simp (disch := first | omega | assumption) only [wVcvtbf16, fd, fa, fmsk_parts, fbit_fld, bit1_beq, fld_VA_d, fld_VA_a, fld_VA_b, fld_VA_k, fld_VA_q, fld_VA_neg, fld_VA_m, pad3_low, pad3_high, vsrcOf_field, mskOf_parts, hw0, Nat.sub_self, Nat.reduceSub, BitVec.extractLsb'_eq_self, need_true, beq_self_eq_true, Bool.not_false, bind, Except.bind, pure, Except.pure]
theorem Sys2Proof.Laws.RoundTrip.vcvte4m3 (vd : Reg) (va : VSrc) (cv : BitVec 3) (m : Msk) : Statement (.vcvte4m3 vd va cv m) := by
  intro w he hw
  obtain rfl := Option.some.inj (he : some (wVcvte4m3 vd va cv m) = some w)
  have hw : (cvOk false cv && m.ok) = true := hw
  simp only [Bool.and_eq_true] at hw
  obtain ⟨hw0, hw1⟩ := hw
  rw [decode_1F (by simp (disch := omega) only [wVcvte4m3, fld_VA_maj, Nat.sub_self, BitVec.extractLsb'_eq_self])]
  have e0 : ((fld (wVcvte4m3 vd va cv m) 0 5 : BitVec 5)).toNat = 4 := by
    simp (disch := omega) only [wVcvte4m3, fld_VA_fn, BitVec.extractLsb'_eq_self]
    rfl
  simp (disch := first | omega | assumption) only [decodeVcvt, e0]
  simp (disch := first | omega | assumption) only [wVcvte4m3, fd, fa, fmsk_parts, fbit_fld, bit1_beq, fld_VA_d, fld_VA_a, fld_VA_b, fld_VA_k, fld_VA_q, fld_VA_neg, fld_VA_m, pad3_low, pad3_high, vsrcOf_field, mskOf_parts, hw0, Nat.sub_self, Nat.reduceSub, BitVec.extractLsb'_eq_self, need_true, beq_self_eq_true, Bool.not_false, bind, Except.bind, pure, Except.pure]
theorem Sys2Proof.Laws.RoundTrip.vcvte5m2 (vd : Reg) (va : VSrc) (cv : BitVec 3) (m : Msk) : Statement (.vcvte5m2 vd va cv m) := by
  intro w he hw
  obtain rfl := Option.some.inj (he : some (wVcvte5m2 vd va cv m) = some w)
  have hw : (cvOk false cv && m.ok) = true := hw
  simp only [Bool.and_eq_true] at hw
  obtain ⟨hw0, hw1⟩ := hw
  rw [decode_1F (by simp (disch := omega) only [wVcvte5m2, fld_VA_maj, Nat.sub_self, BitVec.extractLsb'_eq_self])]
  have e0 : ((fld (wVcvte5m2 vd va cv m) 0 5 : BitVec 5)).toNat = 5 := by
    simp (disch := omega) only [wVcvte5m2, fld_VA_fn, BitVec.extractLsb'_eq_self]
    rfl
  simp (disch := first | omega | assumption) only [decodeVcvt, e0]
  simp (disch := first | omega | assumption) only [wVcvte5m2, fd, fa, fmsk_parts, fbit_fld, bit1_beq, fld_VA_d, fld_VA_a, fld_VA_b, fld_VA_k, fld_VA_q, fld_VA_neg, fld_VA_m, pad3_low, pad3_high, vsrcOf_field, mskOf_parts, hw0, Nat.sub_self, Nat.reduceSub, BitVec.extractLsb'_eq_self, need_true, beq_self_eq_true, Bool.not_false, bind, Except.bind, pure, Except.pure]
theorem Sys2Proof.Laws.RoundTrip.vcvte4m3s (vd : Reg) (va : VSrc) (cv : BitVec 3) (m : Msk) : Statement (.vcvte4m3s vd va cv m) := by
  intro w he hw
  obtain rfl := Option.some.inj (he : some (wVcvte4m3s vd va cv m) = some w)
  have hw : (cvOk false cv && m.ok) = true := hw
  simp only [Bool.and_eq_true] at hw
  obtain ⟨hw0, hw1⟩ := hw
  rw [decode_1F (by simp (disch := omega) only [wVcvte4m3s, fld_VA_maj, Nat.sub_self, BitVec.extractLsb'_eq_self])]
  have e0 : ((fld (wVcvte4m3s vd va cv m) 0 5 : BitVec 5)).toNat = 6 := by
    simp (disch := omega) only [wVcvte4m3s, fld_VA_fn, BitVec.extractLsb'_eq_self]
    rfl
  simp (disch := first | omega | assumption) only [decodeVcvt, e0]
  simp (disch := first | omega | assumption) only [wVcvte4m3s, fd, fa, fmsk_parts, fbit_fld, bit1_beq, fld_VA_d, fld_VA_a, fld_VA_b, fld_VA_k, fld_VA_q, fld_VA_neg, fld_VA_m, pad3_low, pad3_high, vsrcOf_field, mskOf_parts, hw0, Nat.sub_self, Nat.reduceSub, BitVec.extractLsb'_eq_self, need_true, beq_self_eq_true, Bool.not_false, bind, Except.bind, pure, Except.pure]
theorem Sys2Proof.Laws.RoundTrip.vcvte5m2s (vd : Reg) (va : VSrc) (cv : BitVec 3) (m : Msk) : Statement (.vcvte5m2s vd va cv m) := by
  intro w he hw
  obtain rfl := Option.some.inj (he : some (wVcvte5m2s vd va cv m) = some w)
  have hw : (cvOk false cv && m.ok) = true := hw
  simp only [Bool.and_eq_true] at hw
  obtain ⟨hw0, hw1⟩ := hw
  rw [decode_1F (by simp (disch := omega) only [wVcvte5m2s, fld_VA_maj, Nat.sub_self, BitVec.extractLsb'_eq_self])]
  have e0 : ((fld (wVcvte5m2s vd va cv m) 0 5 : BitVec 5)).toNat = 7 := by
    simp (disch := omega) only [wVcvte5m2s, fld_VA_fn, BitVec.extractLsb'_eq_self]
    rfl
  simp (disch := first | omega | assumption) only [decodeVcvt, e0]
  simp (disch := first | omega | assumption) only [wVcvte5m2s, fd, fa, fmsk_parts, fbit_fld, bit1_beq, fld_VA_d, fld_VA_a, fld_VA_b, fld_VA_k, fld_VA_q, fld_VA_neg, fld_VA_m, pad3_low, pad3_high, vsrcOf_field, mskOf_parts, hw0, Nat.sub_self, Nat.reduceSub, BitVec.extractLsb'_eq_self, need_true, beq_self_eq_true, Bool.not_false, bind, Except.bind, pure, Except.pure]
theorem Sys2Proof.Laws.RoundTrip.vcvti8 (vd : Reg) (va : VSrc) (cv : BitVec 3) (m : Msk) : Statement (.vcvti8 vd va cv m) := by
  intro w he hw
  obtain rfl := Option.some.inj (he : some (wVcvti8 vd va cv m) = some w)
  have hw : (cvOk true cv && m.ok) = true := hw
  simp only [Bool.and_eq_true] at hw
  obtain ⟨hw0, hw1⟩ := hw
  rw [decode_1F (by simp (disch := omega) only [wVcvti8, fld_VA_maj, Nat.sub_self, BitVec.extractLsb'_eq_self])]
  have e0 : ((fld (wVcvti8 vd va cv m) 0 5 : BitVec 5)).toNat = 8 := by
    simp (disch := omega) only [wVcvti8, fld_VA_fn, BitVec.extractLsb'_eq_self]
    rfl
  simp (disch := first | omega | assumption) only [decodeVcvt, e0]
  simp (disch := first | omega | assumption) only [wVcvti8, fd, fa, fmsk_parts, fbit_fld, bit1_beq, fld_VA_d, fld_VA_a, fld_VA_b, fld_VA_k, fld_VA_q, fld_VA_neg, fld_VA_m, pad3_low, pad3_high, vsrcOf_field, mskOf_parts, hw0, Nat.sub_self, Nat.reduceSub, BitVec.extractLsb'_eq_self, need_true, beq_self_eq_true, Bool.not_false, bind, Except.bind, pure, Except.pure]
theorem Sys2Proof.Laws.RoundTrip.vcvti16 (vd : Reg) (va : VSrc) (cv : BitVec 3) (m : Msk) : Statement (.vcvti16 vd va cv m) := by
  intro w he hw
  obtain rfl := Option.some.inj (he : some (wVcvti16 vd va cv m) = some w)
  have hw : (cvOk true cv && m.ok) = true := hw
  simp only [Bool.and_eq_true] at hw
  obtain ⟨hw0, hw1⟩ := hw
  rw [decode_1F (by simp (disch := omega) only [wVcvti16, fld_VA_maj, Nat.sub_self, BitVec.extractLsb'_eq_self])]
  have e0 : ((fld (wVcvti16 vd va cv m) 0 5 : BitVec 5)).toNat = 9 := by
    simp (disch := omega) only [wVcvti16, fld_VA_fn, BitVec.extractLsb'_eq_self]
    rfl
  simp (disch := first | omega | assumption) only [decodeVcvt, e0]
  simp (disch := first | omega | assumption) only [wVcvti16, fd, fa, fmsk_parts, fbit_fld, bit1_beq, fld_VA_d, fld_VA_a, fld_VA_b, fld_VA_k, fld_VA_q, fld_VA_neg, fld_VA_m, pad3_low, pad3_high, vsrcOf_field, mskOf_parts, hw0, Nat.sub_self, Nat.reduceSub, BitVec.extractLsb'_eq_self, need_true, beq_self_eq_true, Bool.not_false, bind, Except.bind, pure, Except.pure]
theorem Sys2Proof.Laws.RoundTrip.vcvti32 (vd : Reg) (va : VSrc) (cv : BitVec 3) (m : Msk) : Statement (.vcvti32 vd va cv m) := by
  intro w he hw
  obtain rfl := Option.some.inj (he : some (wVcvti32 vd va cv m) = some w)
  have hw : (cvOk true cv && m.ok) = true := hw
  simp only [Bool.and_eq_true] at hw
  obtain ⟨hw0, hw1⟩ := hw
  rw [decode_1F (by simp (disch := omega) only [wVcvti32, fld_VA_maj, Nat.sub_self, BitVec.extractLsb'_eq_self])]
  have e0 : ((fld (wVcvti32 vd va cv m) 0 5 : BitVec 5)).toNat = 10 := by
    simp (disch := omega) only [wVcvti32, fld_VA_fn, BitVec.extractLsb'_eq_self]
    rfl
  simp (disch := first | omega | assumption) only [decodeVcvt, e0]
  simp (disch := first | omega | assumption) only [wVcvti32, fd, fa, fmsk_parts, fbit_fld, bit1_beq, fld_VA_d, fld_VA_a, fld_VA_b, fld_VA_k, fld_VA_q, fld_VA_neg, fld_VA_m, pad3_low, pad3_high, vsrcOf_field, mskOf_parts, hw0, Nat.sub_self, Nat.reduceSub, BitVec.extractLsb'_eq_self, need_true, beq_self_eq_true, Bool.not_false, bind, Except.bind, pure, Except.pure]
theorem Sys2Proof.Laws.RoundTrip.vcvti64 (vd : Reg) (va : VSrc) (cv : BitVec 3) (m : Msk) : Statement (.vcvti64 vd va cv m) := by
  intro w he hw
  obtain rfl := Option.some.inj (he : some (wVcvti64 vd va cv m) = some w)
  have hw : (cvOk true cv && m.ok) = true := hw
  simp only [Bool.and_eq_true] at hw
  obtain ⟨hw0, hw1⟩ := hw
  rw [decode_1F (by simp (disch := omega) only [wVcvti64, fld_VA_maj, Nat.sub_self, BitVec.extractLsb'_eq_self])]
  have e0 : ((fld (wVcvti64 vd va cv m) 0 5 : BitVec 5)).toNat = 11 := by
    simp (disch := omega) only [wVcvti64, fld_VA_fn, BitVec.extractLsb'_eq_self]
    rfl
  simp (disch := first | omega | assumption) only [decodeVcvt, e0]
  simp (disch := first | omega | assumption) only [wVcvti64, fd, fa, fmsk_parts, fbit_fld, bit1_beq, fld_VA_d, fld_VA_a, fld_VA_b, fld_VA_k, fld_VA_q, fld_VA_neg, fld_VA_m, pad3_low, pad3_high, vsrcOf_field, mskOf_parts, hw0, Nat.sub_self, Nat.reduceSub, BitVec.extractLsb'_eq_self, need_true, beq_self_eq_true, Bool.not_false, bind, Except.bind, pure, Except.pure]
theorem Sys2Proof.Laws.RoundTrip.vcvtfi (vd : Reg) (va : Reg) (m : Msk) : Statement (.vcvtfi vd va m) := by
  intro w he hw
  obtain rfl := Option.some.inj (he : some (wVcvtfi vd va m) = some w)
  have hw : (m.ok) = true := hw
  rw [decode_1F (by simp (disch := omega) only [wVcvtfi, fld_VA_maj, Nat.sub_self, BitVec.extractLsb'_eq_self])]
  have e0 : ((fld (wVcvtfi vd va m) 0 5 : BitVec 5)).toNat = 12 := by
    simp (disch := omega) only [wVcvtfi, fld_VA_fn, BitVec.extractLsb'_eq_self]
    rfl
  simp (disch := first | omega | assumption) only [decodeVcvt, e0]
  simp (disch := first | omega | assumption) only [wVcvtfi, fd, fa, fb, fmsk_parts, fbit_fld, bit1_beq, fld_VA_d, fld_VA_a, fld_VA_b, fld_VA_k, fld_VA_q, fld_VA_neg, fld_VA_m, mskOf_parts, Nat.sub_self, BitVec.extractLsb'_eq_self, need_true, zero_zero, Bool.not_false, bind, Except.bind, pure, Except.pure]
theorem Sys2Proof.Laws.RoundTrip.vqnt (vd : Reg) (va : VSrc) (vb : Reg) (k : Bool) (m : Msk) : Statement (.vqnt vd va vb k m) := by
  intro w he hw
  obtain rfl := Option.some.inj (he : some (wVqnt vd va vb k m) = some w)
  have hw : (m.ok) = true := hw
  rw [decode_1F (by simp (disch := omega) only [wVqnt, fld_VA_maj, Nat.sub_self, BitVec.extractLsb'_eq_self])]
  have e0 : ((fld (wVqnt vd va vb k m) 0 5 : BitVec 5)).toNat = 13 := by
    simp (disch := omega) only [wVqnt, fld_VA_fn, BitVec.extractLsb'_eq_self]
    rfl
  simp (disch := first | omega | assumption) only [decodeVcvt, e0]
  simp (disch := first | omega | assumption) only [wVqnt, fd, fa, fb, fmsk_parts, fbit_fld, bit1_beq, fld_VA_d, fld_VA_a, fld_VA_b, fld_VA_k, fld_VA_q, fld_VA_neg, fld_VA_m, vsrcOf_field, mskOf_parts, Nat.sub_self, BitVec.extractLsb'_eq_self, bind, Except.bind, pure, Except.pure]
theorem Sys2Proof.Laws.RoundTrip.vdeq (vd : Reg) (va : VSrc) (vb : Reg) (k : Bool) (m : Msk) : Statement (.vdeq vd va vb k m) := by
  intro w he hw
  obtain rfl := Option.some.inj (he : some (wVdeq vd va vb k m) = some w)
  have hw : (m.ok) = true := hw
  rw [decode_1F (by simp (disch := omega) only [wVdeq, fld_VA_maj, Nat.sub_self, BitVec.extractLsb'_eq_self])]
  have e0 : ((fld (wVdeq vd va vb k m) 0 5 : BitVec 5)).toNat = 14 := by
    simp (disch := omega) only [wVdeq, fld_VA_fn, BitVec.extractLsb'_eq_self]
    rfl
  simp (disch := first | omega | assumption) only [decodeVcvt, e0]
  simp (disch := first | omega | assumption) only [wVdeq, fd, fa, fb, fmsk_parts, fbit_fld, bit1_beq, fld_VA_d, fld_VA_a, fld_VA_b, fld_VA_k, fld_VA_q, fld_VA_neg, fld_VA_m, vsrcOf_field, mskOf_parts, Nat.sub_self, BitVec.extractLsb'_eq_self, bind, Except.bind, pure, Except.pure]
theorem Sys2Proof.Laws.RoundTrip.vmxq (vd : Reg) (va : VSrc) (vb : Reg) (k : Bool) (m : Msk) : Statement (.vmxq vd va vb k m) := by
  intro w he hw
  obtain rfl := Option.some.inj (he : some (wVmxq vd va vb k m) = some w)
  have hw : (m.ok) = true := hw
  rw [decode_1F (by simp (disch := omega) only [wVmxq, fld_VA_maj, Nat.sub_self, BitVec.extractLsb'_eq_self])]
  have e0 : ((fld (wVmxq vd va vb k m) 0 5 : BitVec 5)).toNat = 15 := by
    simp (disch := omega) only [wVmxq, fld_VA_fn, BitVec.extractLsb'_eq_self]
    rfl
  simp (disch := first | omega | assumption) only [decodeVcvt, e0]
  simp (disch := first | omega | assumption) only [wVmxq, fd, fa, fb, fmsk_parts, fbit_fld, bit1_beq, fld_VA_d, fld_VA_a, fld_VA_b, fld_VA_k, fld_VA_q, fld_VA_neg, fld_VA_m, vsrcOf_field, mskOf_parts, Nat.sub_self, BitVec.extractLsb'_eq_self, bind, Except.bind, pure, Except.pure]
theorem Sys2Proof.Laws.RoundTrip.vmxd (vd : Reg) (va : VSrc) (vb : Reg) (k : Bool) (m : Msk) : Statement (.vmxd vd va vb k m) := by
  intro w he hw
  obtain rfl := Option.some.inj (he : some (wVmxd vd va vb k m) = some w)
  have hw : (m.ok) = true := hw
  rw [decode_1F (by simp (disch := omega) only [wVmxd, fld_VA_maj, Nat.sub_self, BitVec.extractLsb'_eq_self])]
  have e0 : ((fld (wVmxd vd va vb k m) 0 5 : BitVec 5)).toNat = 16 := by
    simp (disch := omega) only [wVmxd, fld_VA_fn, BitVec.extractLsb'_eq_self]
    rfl
  simp (disch := first | omega | assumption) only [decodeVcvt, e0]
  simp (disch := first | omega | assumption) only [wVmxd, fd, fa, fb, fmsk_parts, fbit_fld, bit1_beq, fld_VA_d, fld_VA_a, fld_VA_b, fld_VA_k, fld_VA_q, fld_VA_neg, fld_VA_m, vsrcOf_field, mskOf_parts, Nat.sub_self, BitVec.extractLsb'_eq_self, bind, Except.bind, pure, Except.pure]
theorem Sys2Proof.Laws.RoundTrip.vslup (vd : Reg) (va : VSrc) (xb : Reg) (m : Msk) : Statement (.vslup vd va xb m) := by
  intro w he hw
  obtain rfl := Option.some.inj (he : some (wVslup vd va xb m) = some w)
  have hw : (m.ok) = true := hw
  rw [decode_20 (by simp (disch := omega) only [wVslup, fld_VA_maj, Nat.sub_self, BitVec.extractLsb'_eq_self])]
  have e0 : ((fld (wVslup vd va xb m) 0 5 : BitVec 5)).toNat = 0 := by
    simp (disch := omega) only [wVslup, fld_VA_fn, BitVec.extractLsb'_eq_self]
    rfl
  simp (disch := first | omega | assumption) only [decodeVperm, e0]
  simp (disch := first | omega | assumption) only [wVslup, fd, fa, fb, fmsk_parts, fbit_fld, bit1_beq, fld_VA_d, fld_VA_a, fld_VA_b, fld_VA_k, fld_VA_q, fld_VA_neg, fld_VA_m, vsrcOf_field, mskOf_parts, Nat.sub_self, BitVec.extractLsb'_eq_self, need_true, bind, Except.bind, pure, Except.pure]
theorem Sys2Proof.Laws.RoundTrip.vsldn (vd : Reg) (va : VSrc) (xb : Reg) (m : Msk) : Statement (.vsldn vd va xb m) := by
  intro w he hw
  obtain rfl := Option.some.inj (he : some (wVsldn vd va xb m) = some w)
  have hw : (m.ok) = true := hw
  rw [decode_20 (by simp (disch := omega) only [wVsldn, fld_VA_maj, Nat.sub_self, BitVec.extractLsb'_eq_self])]
  have e0 : ((fld (wVsldn vd va xb m) 0 5 : BitVec 5)).toNat = 1 := by
    simp (disch := omega) only [wVsldn, fld_VA_fn, BitVec.extractLsb'_eq_self]
    rfl
  simp (disch := first | omega | assumption) only [decodeVperm, e0]
  simp (disch := first | omega | assumption) only [wVsldn, fd, fa, fb, fmsk_parts, fbit_fld, bit1_beq, fld_VA_d, fld_VA_a, fld_VA_b, fld_VA_k, fld_VA_q, fld_VA_neg, fld_VA_m, vsrcOf_field, mskOf_parts, Nat.sub_self, BitVec.extractLsb'_eq_self, need_true, bind, Except.bind, pure, Except.pure]
theorem Sys2Proof.Laws.RoundTrip.vrot (vd : Reg) (va : VSrc) (xb : Reg) (m : Msk) : Statement (.vrot vd va xb m) := by
  intro w he hw
  obtain rfl := Option.some.inj (he : some (wVrot vd va xb m) = some w)
  have hw : (m.ok) = true := hw
  rw [decode_20 (by simp (disch := omega) only [wVrot, fld_VA_maj, Nat.sub_self, BitVec.extractLsb'_eq_self])]
  have e0 : ((fld (wVrot vd va xb m) 0 5 : BitVec 5)).toNat = 2 := by
    simp (disch := omega) only [wVrot, fld_VA_fn, BitVec.extractLsb'_eq_self]
    rfl
  simp (disch := first | omega | assumption) only [decodeVperm, e0]
  simp (disch := first | omega | assumption) only [wVrot, fd, fa, fb, fmsk_parts, fbit_fld, bit1_beq, fld_VA_d, fld_VA_a, fld_VA_b, fld_VA_k, fld_VA_q, fld_VA_neg, fld_VA_m, vsrcOf_field, mskOf_parts, Nat.sub_self, BitVec.extractLsb'_eq_self, need_true, bind, Except.bind, pure, Except.pure]
theorem Sys2Proof.Laws.RoundTrip.vperm (vd : Reg) (va : VSrc) (vb : Reg) (m : Msk) : Statement (.vperm vd va vb m) := by
  intro w he hw
  obtain rfl := Option.some.inj (he : some (wVperm vd va vb m) = some w)
  have hw : (m.ok) = true := hw
  rw [decode_20 (by simp (disch := omega) only [wVperm, fld_VA_maj, Nat.sub_self, BitVec.extractLsb'_eq_self])]
  have e0 : ((fld (wVperm vd va vb m) 0 5 : BitVec 5)).toNat = 3 := by
    simp (disch := omega) only [wVperm, fld_VA_fn, BitVec.extractLsb'_eq_self]
    rfl
  simp (disch := first | omega | assumption) only [decodeVperm, e0]
  simp (disch := first | omega | assumption) only [wVperm, fd, fa, fb, fmsk_parts, fbit_fld, bit1_beq, fld_VA_d, fld_VA_a, fld_VA_b, fld_VA_k, fld_VA_q, fld_VA_neg, fld_VA_m, vsrcOf_field, mskOf_parts, Nat.sub_self, BitVec.extractLsb'_eq_self, need_true, Bool.not_false, bind, Except.bind, pure, Except.pure]
theorem Sys2Proof.Laws.RoundTrip.vbcast (vd : Reg) (va : VSrc) (xb : Reg) (m : Msk) : Statement (.vbcast vd va xb m) := by
  intro w he hw
  obtain rfl := Option.some.inj (he : some (wVbcast vd va xb m) = some w)
  have hw : (m.ok) = true := hw
  rw [decode_20 (by simp (disch := omega) only [wVbcast, fld_VA_maj, Nat.sub_self, BitVec.extractLsb'_eq_self])]
  have e0 : ((fld (wVbcast vd va xb m) 0 5 : BitVec 5)).toNat = 4 := by
    simp (disch := omega) only [wVbcast, fld_VA_fn, BitVec.extractLsb'_eq_self]
    rfl
  simp (disch := first | omega | assumption) only [decodeVperm, e0]
  simp (disch := first | omega | assumption) only [wVbcast, fd, fa, fb, fmsk_parts, fbit_fld, bit1_beq, fld_VA_d, fld_VA_a, fld_VA_b, fld_VA_k, fld_VA_q, fld_VA_neg, fld_VA_m, vsrcOf_field, mskOf_parts, Nat.sub_self, BitVec.extractLsb'_eq_self, need_true, bind, Except.bind, pure, Except.pure]
theorem Sys2Proof.Laws.RoundTrip.vmvxs (xd : Reg) (va : VSrc) : Statement (.vmvxs xd va) := by
  intro w he hw
  obtain rfl := Option.some.inj (he : some (wVmvxs xd va) = some w)
  rw [decode_20 (by simp (disch := omega) only [wVmvxs, fld_VA_maj, Nat.sub_self, BitVec.extractLsb'_eq_self])]
  have e0 : ((fld (wVmvxs xd va) 0 5 : BitVec 5)).toNat = 5 := by
    simp (disch := omega) only [wVmvxs, fld_VA_fn, BitVec.extractLsb'_eq_self]
    rfl
  simp (disch := first | omega | assumption) only [decodeVperm, e0]
  simp (disch := first | omega | assumption) only [wVmvxs, fd, fa, fb, fmsk_parts, fbit_fld, bit1_beq, fld_VA_d, fld_VA_a, fld_VA_b, fld_VA_k, fld_VA_q, fld_VA_neg, fld_VA_m, vsrcOf_field, Nat.sub_self, BitVec.extractLsb'_eq_self, need_true, zero_zero, Bool.not_false, bind, Except.bind, pure, Except.pure]
  rfl
theorem Sys2Proof.Laws.RoundTrip.vmvsx (vd xb : Reg) (m : Msk) : Statement (.vmvsx vd xb m) := by
  intro w he hw
  obtain rfl := Option.some.inj (he : some (wVmvsx vd xb m) = some w)
  have hw : (m.ok) = true := hw
  rw [decode_20 (by simp (disch := omega) only [wVmvsx, fld_VA_maj, Nat.sub_self, BitVec.extractLsb'_eq_self])]
  have e0 : ((fld (wVmvsx vd xb m) 0 5 : BitVec 5)).toNat = 6 := by
    simp (disch := omega) only [wVmvsx, fld_VA_fn, BitVec.extractLsb'_eq_self]
    rfl
  simp (disch := first | omega | assumption) only [decodeVperm, e0]
  simp (disch := first | omega | assumption) only [wVmvsx, fd, fa, fb, fmsk_parts, fbit_fld, bit1_beq, fld_VA_d, fld_VA_a, fld_VA_b, fld_VA_k, fld_VA_q, fld_VA_neg, fld_VA_m, mskOf_parts, Nat.sub_self, BitVec.extractLsb'_eq_self, need_true, zero_zero, Bool.not_false, bind, Except.bind, pure, Except.pure]
theorem Sys2Proof.Laws.RoundTrip.vzip (vd : Reg) (va : VSrc) (vb : Reg) (m : Msk) : Statement (.vzip vd va vb m) := by
  intro w he hw
  obtain rfl := Option.some.inj (he : some (wVzip vd va vb m) = some w)
  have hw : (m.ok) = true := hw
  rw [decode_20 (by simp (disch := omega) only [wVzip, fld_VA_maj, Nat.sub_self, BitVec.extractLsb'_eq_self])]
  have e0 : ((fld (wVzip vd va vb m) 0 5 : BitVec 5)).toNat = 7 := by
    simp (disch := omega) only [wVzip, fld_VA_fn, BitVec.extractLsb'_eq_self]
    rfl
  simp (disch := first | omega | assumption) only [decodeVperm, e0]
  simp (disch := first | omega | assumption) only [wVzip, fd, fa, fb, fmsk_parts, fbit_fld, bit1_beq, fld_VA_d, fld_VA_a, fld_VA_b, fld_VA_k, fld_VA_q, fld_VA_neg, fld_VA_m, vsrcOf_field, mskOf_parts, Nat.sub_self, BitVec.extractLsb'_eq_self, need_true, Bool.not_false, bind, Except.bind, pure, Except.pure]
theorem Sys2Proof.Laws.RoundTrip.vunzip (vd : Reg) (va : VSrc) (xb : Reg) (m : Msk) : Statement (.vunzip vd va xb m) := by
  intro w he hw
  obtain rfl := Option.some.inj (he : some (wVunzip vd va xb m) = some w)
  have hw : (m.ok) = true := hw
  rw [decode_20 (by simp (disch := omega) only [wVunzip, fld_VA_maj, Nat.sub_self, BitVec.extractLsb'_eq_self])]
  have e0 : ((fld (wVunzip vd va xb m) 0 5 : BitVec 5)).toNat = 8 := by
    simp (disch := omega) only [wVunzip, fld_VA_fn, BitVec.extractLsb'_eq_self]
    rfl
  simp (disch := first | omega | assumption) only [decodeVperm, e0]
  simp (disch := first | omega | assumption) only [wVunzip, fd, fa, fb, fmsk_parts, fbit_fld, bit1_beq, fld_VA_d, fld_VA_a, fld_VA_b, fld_VA_k, fld_VA_q, fld_VA_neg, fld_VA_m, vsrcOf_field, mskOf_parts, Nat.sub_self, BitVec.extractLsb'_eq_self, need_true, bind, Except.bind, pure, Except.pure]
theorem Sys2Proof.Laws.RoundTrip.vrev (vd : Reg) (va : VSrc) (m : Msk) : Statement (.vrev vd va m) := by
  intro w he hw
  obtain rfl := Option.some.inj (he : some (wVrev vd va m) = some w)
  have hw : (m.ok) = true := hw
  rw [decode_20 (by simp (disch := omega) only [wVrev, fld_VA_maj, Nat.sub_self, BitVec.extractLsb'_eq_self])]
  have e0 : ((fld (wVrev vd va m) 0 5 : BitVec 5)).toNat = 9 := by
    simp (disch := omega) only [wVrev, fld_VA_fn, BitVec.extractLsb'_eq_self]
    rfl
  simp (disch := first | omega | assumption) only [decodeVperm, e0]
  simp (disch := first | omega | assumption) only [wVrev, fd, fa, fb, fmsk_parts, fbit_fld, bit1_beq, fld_VA_d, fld_VA_a, fld_VA_b, fld_VA_k, fld_VA_q, fld_VA_neg, fld_VA_m, vsrcOf_field, mskOf_parts, Nat.sub_self, BitVec.extractLsb'_eq_self, need_true, zero_zero, Bool.not_false, bind, Except.bind, pure, Except.pure]
theorem Sys2Proof.Laws.RoundTrip.vmerge (vd : Reg) (va : VSrc) (vb : VbSrc) (m : Msk) : Statement (.vmerge vd va vb m) := by
  intro w he hw
  obtain rfl := Option.some.inj (he : some (wVmerge vd va vb m) = some w)
  have hw : (m.ok) = true := hw
  rw [decode_20 (by simp (disch := omega) only [wVmerge, fld_VA_maj, Nat.sub_self, BitVec.extractLsb'_eq_self])]
  have e0 : ((fld (wVmerge vd va vb m) 0 5 : BitVec 5)).toNat = 10 := by
    simp (disch := omega) only [wVmerge, fld_VA_fn, BitVec.extractLsb'_eq_self]
    rfl
  simp (disch := first | omega | assumption) only [decodeVperm, e0]
  simp (disch := first | omega | assumption) only [wVmerge, fd, fa, fb, fmsk_parts, fbit_fld, bit1_beq, fld_VA_d, fld_VA_a, fld_VA_b, fld_VA_k, fld_VA_q, fld_VA_neg, fld_VA_m, vsrcOf_field, vbOf_field, mskOf_parts, Nat.sub_self, BitVec.extractLsb'_eq_self, bind, Except.bind, pure, Except.pure]
theorem Sys2Proof.Laws.RoundTrip.vmv (vd : Reg) (va : VSrc) (m : Msk) : Statement (.vmv vd va m) := by
  intro w he hw
  obtain rfl := Option.some.inj (he : some (wVmv vd va m) = some w)
  have hw : (m.ok) = true := hw
  rw [decode_20 (by simp (disch := omega) only [wVmv, fld_VA_maj, Nat.sub_self, BitVec.extractLsb'_eq_self])]
  have e0 : ((fld (wVmv vd va m) 0 5 : BitVec 5)).toNat = 11 := by
    simp (disch := omega) only [wVmv, fld_VA_fn, BitVec.extractLsb'_eq_self]
    rfl
  simp (disch := first | omega | assumption) only [decodeVperm, e0]
  simp (disch := first | omega | assumption) only [wVmv, fd, fa, fb, fmsk_parts, fbit_fld, bit1_beq, fld_VA_d, fld_VA_a, fld_VA_b, fld_VA_k, fld_VA_q, fld_VA_neg, fld_VA_m, vsrcOf_field, mskOf_parts, Nat.sub_self, BitVec.extractLsb'_eq_self, need_true, zero_zero, Bool.not_false, bind, Except.bind, pure, Except.pure]
theorem Sys2Proof.Laws.RoundTrip.vcompress (vd : Reg) (va : VSrc) (m : Msk) : Statement (.vcompress vd va m) := by
  intro w he hw
  obtain rfl := Option.some.inj (he : some (wVcompress vd va m) = some w)
  have hw : (m.ok) = true := hw
  rw [decode_21 (by simp (disch := omega) only [wVcompress, fld_VA_maj, Nat.sub_self, BitVec.extractLsb'_eq_self])]
  have e0 : ((fld (wVcompress vd va m) 0 5 : BitVec 5)).toNat = 0 := by
    simp (disch := omega) only [wVcompress, fld_VA_fn, BitVec.extractLsb'_eq_self]
    rfl
  simp (disch := first | omega | assumption) only [decodeVirr, e0]
  simp (disch := first | omega | assumption) only [wVcompress, fd, fa, fb, fmsk_parts, fbit_fld, bit1_beq, fld_VA_d, fld_VA_a, fld_VA_b, fld_VA_k, fld_VA_q, fld_VA_neg, fld_VA_m, vsrcOf_field, mskOf_parts, Nat.sub_self, BitVec.extractLsb'_eq_self, need_true, zero_zero, Bool.not_false, bind, Except.bind, pure, Except.pure]
theorem Sys2Proof.Laws.RoundTrip.vexpand (vd : Reg) (va : VSrc) (m : Msk) : Statement (.vexpand vd va m) := by
  intro w he hw
  obtain rfl := Option.some.inj (he : some (wVexpand vd va m) = some w)
  have hw : (m.ok) = true := hw
  rw [decode_21 (by simp (disch := omega) only [wVexpand, fld_VA_maj, Nat.sub_self, BitVec.extractLsb'_eq_self])]
  have e0 : ((fld (wVexpand vd va m) 0 5 : BitVec 5)).toNat = 1 := by
    simp (disch := omega) only [wVexpand, fld_VA_fn, BitVec.extractLsb'_eq_self]
    rfl
  simp (disch := first | omega | assumption) only [decodeVirr, e0]
  simp (disch := first | omega | assumption) only [wVexpand, fd, fa, fb, fmsk_parts, fbit_fld, bit1_beq, fld_VA_d, fld_VA_a, fld_VA_b, fld_VA_k, fld_VA_q, fld_VA_neg, fld_VA_m, vsrcOf_field, mskOf_parts, Nat.sub_self, BitVec.extractLsb'_eq_self, need_true, zero_zero, Bool.not_false, bind, Except.bind, pure, Except.pure]
theorem Sys2Proof.Laws.RoundTrip.vpopx (vd : Reg) (m : Msk) : Statement (.vpopx vd m) := by
  intro w he hw
  obtain rfl := Option.some.inj (he : some (wVpopx vd m) = some w)
  have hw : (m.ok) = true := hw
  rw [decode_21 (by simp (disch := omega) only [wVpopx, fld_VA_maj, Nat.sub_self, BitVec.extractLsb'_eq_self])]
  have e0 : ((fld (wVpopx vd m) 0 5 : BitVec 5)).toNat = 2 := by
    simp (disch := omega) only [wVpopx, fld_VA_fn, BitVec.extractLsb'_eq_self]
    rfl
  simp (disch := first | omega | assumption) only [decodeVirr, e0]
  simp (disch := first | omega | assumption) only [wVpopx, fd, fa, fb, fmsk_parts, fbit_fld, bit1_beq, fld_VA_d, fld_VA_a, fld_VA_b, fld_VA_k, fld_VA_q, fld_VA_neg, fld_VA_m, mskOf_parts, Nat.sub_self, BitVec.extractLsb'_eq_self, need_true, zero_zero, Bool.not_false, bind, Except.bind, pure, Except.pure]
theorem Sys2Proof.Laws.RoundTrip.vconf (md : BitVec 3) (va : VSrc) (m : Msk) : Statement (.vconf md va m) := by
  intro w he hw
  obtain rfl := Option.some.inj (he : some (wVconf md va m) = some w)
  have hw : (m.ok) = true := hw
  rw [decode_21 (by simp (disch := omega) only [wVconf, fld_VA_maj, Nat.sub_self, BitVec.extractLsb'_eq_self])]
  have e0 : ((fld (wVconf md va m) 0 5 : BitVec 5)).toNat = 3 := by
    simp (disch := omega) only [wVconf, fld_VA_fn, BitVec.extractLsb'_eq_self]
    rfl
  simp (disch := first | omega | assumption) only [decodeVirr, e0]
  simp (disch := first | omega | assumption) only [wVconf, fa, fb, fmsk_parts, fbit_fld, bit1_beq, fld_VA_d, fld_VA_a, fld_VA_b, fld_VA_k, fld_VA_q, fld_VA_neg, fld_VA_m, pad3_low, pad3_high, vsrcOf_field, mskOf_parts, Nat.sub_self, Nat.reduceSub, BitVec.extractLsb'_eq_self, need_true, zero_zero, beq_self_eq_true, Bool.not_false, bind, Except.bind, pure, Except.pure]
theorem Sys2Proof.Laws.RoundTrip.vsscan (vd : Reg) (va : VSrc) (h : Head) (m : Msk) : Statement (.vsscan vd va h m) := by
  intro w he hw
  obtain rfl := Option.some.inj (he : some (wVsscan vd va h m) = some w)
  have hw : (m.ok) = true := hw
  rw [decode_21 (by simp (disch := omega) only [wVsscan, fld_VA_maj, Nat.sub_self, BitVec.extractLsb'_eq_self])]
  have e0 : ((fld (wVsscan vd va h m) 0 5 : BitVec 5)).toNat = 4 := by
    simp (disch := omega) only [wVsscan, fld_VA_fn, BitVec.extractLsb'_eq_self]
    rfl
  simp (disch := first | omega | assumption) only [decodeVirr, e0]
  simp (disch := first | omega | assumption) only [wVsscan, fd, fa, fb, fmsk_parts, fbit_fld, bit1_beq, fld_VA_d, fld_VA_a, fld_VA_b, fld_VA_k, fld_VA_q, fld_VA_neg, fld_VA_m, vsrcOf_field, headOf_field, mskOf_parts, Nat.sub_self, BitVec.extractLsb'_eq_self, need_true, Bool.not_false, bind, Except.bind, pure, Except.pure]
theorem Sys2Proof.Laws.RoundTrip.vsscanmax (vd : Reg) (va : VSrc) (h : Head) (m : Msk) : Statement (.vsscanmax vd va h m) := by
  intro w he hw
  obtain rfl := Option.some.inj (he : some (wVsscanmax vd va h m) = some w)
  have hw : (m.ok) = true := hw
  rw [decode_21 (by simp (disch := omega) only [wVsscanmax, fld_VA_maj, Nat.sub_self, BitVec.extractLsb'_eq_self])]
  have e0 : ((fld (wVsscanmax vd va h m) 0 5 : BitVec 5)).toNat = 5 := by
    simp (disch := omega) only [wVsscanmax, fld_VA_fn, BitVec.extractLsb'_eq_self]
    rfl
  simp (disch := first | omega | assumption) only [decodeVirr, e0]
  simp (disch := first | omega | assumption) only [wVsscanmax, fd, fa, fb, fmsk_parts, fbit_fld, bit1_beq, fld_VA_d, fld_VA_a, fld_VA_b, fld_VA_k, fld_VA_q, fld_VA_neg, fld_VA_m, vsrcOf_field, headOf_field, mskOf_parts, Nat.sub_self, BitVec.extractLsb'_eq_self, need_true, Bool.not_false, bind, Except.bind, pure, Except.pure]
theorem Sys2Proof.Laws.RoundTrip.vfsscan (vd : Reg) (va : VSrc) (h : Head) (m : Msk) : Statement (.vfsscan vd va h m) := by
  intro w he hw
  obtain rfl := Option.some.inj (he : some (wVfsscan vd va h m) = some w)
  have hw : (m.ok) = true := hw
  rw [decode_21 (by simp (disch := omega) only [wVfsscan, fld_VA_maj, Nat.sub_self, BitVec.extractLsb'_eq_self])]
  have e0 : ((fld (wVfsscan vd va h m) 0 5 : BitVec 5)).toNat = 6 := by
    simp (disch := omega) only [wVfsscan, fld_VA_fn, BitVec.extractLsb'_eq_self]
    rfl
  simp (disch := first | omega | assumption) only [decodeVirr, e0]
  simp (disch := first | omega | assumption) only [wVfsscan, fd, fa, fb, fmsk_parts, fbit_fld, bit1_beq, fld_VA_d, fld_VA_a, fld_VA_b, fld_VA_k, fld_VA_q, fld_VA_neg, fld_VA_m, vsrcOf_field, headOf_field, mskOf_parts, Nat.sub_self, BitVec.extractLsb'_eq_self, need_true, Bool.not_false, bind, Except.bind, pure, Except.pure]
theorem Sys2Proof.Laws.RoundTrip.vfirst (d : Reg) (ma : BitVec 3) (m : Msk) : Statement (.vfirst d ma m) := by
  intro w he hw
  obtain rfl := Option.some.inj (he : some (wVfirst d ma m) = some w)
  have hw : (m.ok) = true := hw
  rw [decode_21 (by simp (disch := omega) only [wVfirst, fld_VA_maj, Nat.sub_self, BitVec.extractLsb'_eq_self])]
  have e0 : ((fld (wVfirst d ma m) 0 5 : BitVec 5)).toNat = 7 := by
    simp (disch := omega) only [wVfirst, fld_VA_fn, BitVec.extractLsb'_eq_self]
    rfl
  simp (disch := first | omega | assumption) only [decodeVirr, e0]
  simp (disch := first | omega | assumption) only [wVfirst, fd, fb, fmsk_parts, fbit_fld, bit1_beq, fld_VA_d, fld_VA_a, fld_VA_b, fld_VA_k, fld_VA_q, fld_VA_neg, fld_VA_m, pad3_low, pad3_high, mskOf_parts, Nat.sub_self, Nat.reduceSub, BitVec.extractLsb'_eq_self, need_true, zero_zero, beq_self_eq_true, Bool.not_false, bind, Except.bind, pure, Except.pure]
theorem Sys2Proof.Laws.RoundTrip.vcpop (d : Reg) (ma : BitVec 3) (m : Msk) : Statement (.vcpop d ma m) := by
  intro w he hw
  obtain rfl := Option.some.inj (he : some (wVcpop d ma m) = some w)
  have hw : (m.ok) = true := hw
  rw [decode_21 (by simp (disch := omega) only [wVcpop, fld_VA_maj, Nat.sub_self, BitVec.extractLsb'_eq_self])]
  have e0 : ((fld (wVcpop d ma m) 0 5 : BitVec 5)).toNat = 8 := by
    simp (disch := omega) only [wVcpop, fld_VA_fn, BitVec.extractLsb'_eq_self]
    rfl
  simp (disch := first | omega | assumption) only [decodeVirr, e0]
  simp (disch := first | omega | assumption) only [wVcpop, fd, fb, fmsk_parts, fbit_fld, bit1_beq, fld_VA_d, fld_VA_a, fld_VA_b, fld_VA_k, fld_VA_q, fld_VA_neg, fld_VA_m, pad3_low, pad3_high, mskOf_parts, Nat.sub_self, Nat.reduceSub, BitVec.extractLsb'_eq_self, need_true, zero_zero, beq_self_eq_true, Bool.not_false, bind, Except.bind, pure, Except.pure]
theorem Sys2Proof.Laws.RoundTrip.viota (d : Reg) (ma : BitVec 3) (m : Msk) : Statement (.viota d ma m) := by
  intro w he hw
  obtain rfl := Option.some.inj (he : some (wViota d ma m) = some w)
  have hw : (m.ok) = true := hw
  rw [decode_21 (by simp (disch := omega) only [wViota, fld_VA_maj, Nat.sub_self, BitVec.extractLsb'_eq_self])]
  have e0 : ((fld (wViota d ma m) 0 5 : BitVec 5)).toNat = 9 := by
    simp (disch := omega) only [wViota, fld_VA_fn, BitVec.extractLsb'_eq_self]
    rfl
  simp (disch := first | omega | assumption) only [decodeVirr, e0]
  simp (disch := first | omega | assumption) only [wViota, fd, fb, fmsk_parts, fbit_fld, bit1_beq, fld_VA_d, fld_VA_a, fld_VA_b, fld_VA_k, fld_VA_q, fld_VA_neg, fld_VA_m, pad3_low, pad3_high, mskOf_parts, Nat.sub_self, Nat.reduceSub, BitVec.extractLsb'_eq_self, need_true, zero_zero, beq_self_eq_true, Bool.not_false, bind, Except.bind, pure, Except.pure]
theorem Sys2Proof.Laws.RoundTrip.vblklist (vd : Reg) (va : VSrc) (xb : Reg) : Statement (.vblklist vd va xb) := by
  intro w he hw
  obtain rfl := Option.some.inj (he : some (wVblklist vd va xb) = some w)
  rw [decode_21 (by simp (disch := omega) only [wVblklist, fld_VA_maj, Nat.sub_self, BitVec.extractLsb'_eq_self])]
  have e0 : ((fld (wVblklist vd va xb) 0 5 : BitVec 5)).toNat = 10 := by
    simp (disch := omega) only [wVblklist, fld_VA_fn, BitVec.extractLsb'_eq_self]
    rfl
  simp (disch := first | omega | assumption) only [decodeVirr, e0]
  simp (disch := first | omega | assumption) only [wVblklist, fd, fa, fb, fmsk_parts, fbit_fld, bit1_beq, fld_VA_d, fld_VA_a, fld_VA_b, fld_VA_k, fld_VA_q, fld_VA_neg, fld_VA_m, vsrcOf_field, Nat.sub_self, BitVec.extractLsb'_eq_self, need_true, bind, Except.bind, pure, Except.pure]
  rfl
theorem Sys2Proof.Laws.RoundTrip.vredsum (vd : Reg) (va : VSrc) (vb : VbSrc) (m : Msk) : Statement (.vredsum vd va vb m) := by
  intro w he hw
  obtain rfl := Option.some.inj (he : some (wVredsum vd va vb m) = some w)
  have hw : (m.ok) = true := hw
  rw [decode_22 (by simp (disch := omega) only [wVredsum, fld_VA_maj, Nat.sub_self, BitVec.extractLsb'_eq_self])]
  have e0 : ((fld (wVredsum vd va vb m) 0 5 : BitVec 5)).toNat = 0 := by
    simp (disch := omega) only [wVredsum, fld_VA_fn, BitVec.extractLsb'_eq_self]
    rfl
  simp (disch := first | omega | assumption) only [decodeVred, e0]
  simp (disch := first | omega | assumption) only [wVredsum, fd, fa, fb, fmsk_parts, fbit_fld, bit1_beq, fld_VA_d, fld_VA_a, fld_VA_b, fld_VA_k, fld_VA_q, fld_VA_neg, fld_VA_m, vsrcOf_field, vbOf_field, mskOf_parts, Nat.sub_self, BitVec.extractLsb'_eq_self, bind, Except.bind, pure, Except.pure]
theorem Sys2Proof.Laws.RoundTrip.vredmax (vd : Reg) (va : VSrc) (vb : VbSrc) (m : Msk) : Statement (.vredmax vd va vb m) := by
  intro w he hw
  obtain rfl := Option.some.inj (he : some (wVredmax vd va vb m) = some w)
  have hw : (m.ok) = true := hw
  rw [decode_22 (by simp (disch := omega) only [wVredmax, fld_VA_maj, Nat.sub_self, BitVec.extractLsb'_eq_self])]
  have e0 : ((fld (wVredmax vd va vb m) 0 5 : BitVec 5)).toNat = 1 := by
    simp (disch := omega) only [wVredmax, fld_VA_fn, BitVec.extractLsb'_eq_self]
    rfl
  simp (disch := first | omega | assumption) only [decodeVred, e0]
  simp (disch := first | omega | assumption) only [wVredmax, fd, fa, fb, fmsk_parts, fbit_fld, bit1_beq, fld_VA_d, fld_VA_a, fld_VA_b, fld_VA_k, fld_VA_q, fld_VA_neg, fld_VA_m, vsrcOf_field, vbOf_field, mskOf_parts, Nat.sub_self, BitVec.extractLsb'_eq_self, bind, Except.bind, pure, Except.pure]
theorem Sys2Proof.Laws.RoundTrip.vredmin (vd : Reg) (va : VSrc) (vb : VbSrc) (m : Msk) : Statement (.vredmin vd va vb m) := by
  intro w he hw
  obtain rfl := Option.some.inj (he : some (wVredmin vd va vb m) = some w)
  have hw : (m.ok) = true := hw
  rw [decode_22 (by simp (disch := omega) only [wVredmin, fld_VA_maj, Nat.sub_self, BitVec.extractLsb'_eq_self])]
  have e0 : ((fld (wVredmin vd va vb m) 0 5 : BitVec 5)).toNat = 2 := by
    simp (disch := omega) only [wVredmin, fld_VA_fn, BitVec.extractLsb'_eq_self]
    rfl
  simp (disch := first | omega | assumption) only [decodeVred, e0]
  simp (disch := first | omega | assumption) only [wVredmin, fd, fa, fb, fmsk_parts, fbit_fld, bit1_beq, fld_VA_d, fld_VA_a, fld_VA_b, fld_VA_k, fld_VA_q, fld_VA_neg, fld_VA_m, vsrcOf_field, vbOf_field, mskOf_parts, Nat.sub_self, BitVec.extractLsb'_eq_self, bind, Except.bind, pure, Except.pure]
theorem Sys2Proof.Laws.RoundTrip.vredmaxn (vd : Reg) (va : VSrc) (vb : VbSrc) (m : Msk) : Statement (.vredmaxn vd va vb m) := by
  intro w he hw
  obtain rfl := Option.some.inj (he : some (wVredmaxn vd va vb m) = some w)
  have hw : (m.ok) = true := hw
  rw [decode_22 (by simp (disch := omega) only [wVredmaxn, fld_VA_maj, Nat.sub_self, BitVec.extractLsb'_eq_self])]
  have e0 : ((fld (wVredmaxn vd va vb m) 0 5 : BitVec 5)).toNat = 3 := by
    simp (disch := omega) only [wVredmaxn, fld_VA_fn, BitVec.extractLsb'_eq_self]
    rfl
  simp (disch := first | omega | assumption) only [decodeVred, e0]
  simp (disch := first | omega | assumption) only [wVredmaxn, fd, fa, fb, fmsk_parts, fbit_fld, bit1_beq, fld_VA_d, fld_VA_a, fld_VA_b, fld_VA_k, fld_VA_q, fld_VA_neg, fld_VA_m, vsrcOf_field, vbOf_field, mskOf_parts, Nat.sub_self, BitVec.extractLsb'_eq_self, bind, Except.bind, pure, Except.pure]
theorem Sys2Proof.Laws.RoundTrip.vredminn (vd : Reg) (va : VSrc) (vb : VbSrc) (m : Msk) : Statement (.vredminn vd va vb m) := by
  intro w he hw
  obtain rfl := Option.some.inj (he : some (wVredminn vd va vb m) = some w)
  have hw : (m.ok) = true := hw
  rw [decode_22 (by simp (disch := omega) only [wVredminn, fld_VA_maj, Nat.sub_self, BitVec.extractLsb'_eq_self])]
  have e0 : ((fld (wVredminn vd va vb m) 0 5 : BitVec 5)).toNat = 4 := by
    simp (disch := omega) only [wVredminn, fld_VA_fn, BitVec.extractLsb'_eq_self]
    rfl
  simp (disch := first | omega | assumption) only [decodeVred, e0]
  simp (disch := first | omega | assumption) only [wVredminn, fd, fa, fb, fmsk_parts, fbit_fld, bit1_beq, fld_VA_d, fld_VA_a, fld_VA_b, fld_VA_k, fld_VA_q, fld_VA_neg, fld_VA_m, vsrcOf_field, vbOf_field, mskOf_parts, Nat.sub_self, BitVec.extractLsb'_eq_self, bind, Except.bind, pure, Except.pure]
theorem Sys2Proof.Laws.RoundTrip.vredand (vd : Reg) (va : VSrc) (vb : VbSrc) (m : Msk) : Statement (.vredand vd va vb m) := by
  intro w he hw
  obtain rfl := Option.some.inj (he : some (wVredand vd va vb m) = some w)
  have hw : (m.ok) = true := hw
  rw [decode_22 (by simp (disch := omega) only [wVredand, fld_VA_maj, Nat.sub_self, BitVec.extractLsb'_eq_self])]
  have e0 : ((fld (wVredand vd va vb m) 0 5 : BitVec 5)).toNat = 5 := by
    simp (disch := omega) only [wVredand, fld_VA_fn, BitVec.extractLsb'_eq_self]
    rfl
  simp (disch := first | omega | assumption) only [decodeVred, e0]
  simp (disch := first | omega | assumption) only [wVredand, fd, fa, fb, fmsk_parts, fbit_fld, bit1_beq, fld_VA_d, fld_VA_a, fld_VA_b, fld_VA_k, fld_VA_q, fld_VA_neg, fld_VA_m, vsrcOf_field, vbOf_field, mskOf_parts, Nat.sub_self, BitVec.extractLsb'_eq_self, bind, Except.bind, pure, Except.pure]
theorem Sys2Proof.Laws.RoundTrip.vredor (vd : Reg) (va : VSrc) (vb : VbSrc) (m : Msk) : Statement (.vredor vd va vb m) := by
  intro w he hw
  obtain rfl := Option.some.inj (he : some (wVredor vd va vb m) = some w)
  have hw : (m.ok) = true := hw
  rw [decode_22 (by simp (disch := omega) only [wVredor, fld_VA_maj, Nat.sub_self, BitVec.extractLsb'_eq_self])]
  have e0 : ((fld (wVredor vd va vb m) 0 5 : BitVec 5)).toNat = 6 := by
    simp (disch := omega) only [wVredor, fld_VA_fn, BitVec.extractLsb'_eq_self]
    rfl
  simp (disch := first | omega | assumption) only [decodeVred, e0]
  simp (disch := first | omega | assumption) only [wVredor, fd, fa, fb, fmsk_parts, fbit_fld, bit1_beq, fld_VA_d, fld_VA_a, fld_VA_b, fld_VA_k, fld_VA_q, fld_VA_neg, fld_VA_m, vsrcOf_field, vbOf_field, mskOf_parts, Nat.sub_self, BitVec.extractLsb'_eq_self, bind, Except.bind, pure, Except.pure]
theorem Sys2Proof.Laws.RoundTrip.vredxor (vd : Reg) (va : VSrc) (vb : VbSrc) (m : Msk) : Statement (.vredxor vd va vb m) := by
  intro w he hw
  obtain rfl := Option.some.inj (he : some (wVredxor vd va vb m) = some w)
  have hw : (m.ok) = true := hw
  rw [decode_22 (by simp (disch := omega) only [wVredxor, fld_VA_maj, Nat.sub_self, BitVec.extractLsb'_eq_self])]
  have e0 : ((fld (wVredxor vd va vb m) 0 5 : BitVec 5)).toNat = 7 := by
    simp (disch := omega) only [wVredxor, fld_VA_fn, BitVec.extractLsb'_eq_self]
    rfl
  simp (disch := first | omega | assumption) only [decodeVred, e0]
  simp (disch := first | omega | assumption) only [wVredxor, fd, fa, fb, fmsk_parts, fbit_fld, bit1_beq, fld_VA_d, fld_VA_a, fld_VA_b, fld_VA_k, fld_VA_q, fld_VA_neg, fld_VA_m, vsrcOf_field, vbOf_field, mskOf_parts, Nat.sub_self, BitVec.extractLsb'_eq_self, bind, Except.bind, pure, Except.pure]
theorem Sys2Proof.Laws.RoundTrip.vfredo (vd : Reg) (va : VSrc) (vb : VbSrc) (m : Msk) : Statement (.vfredo vd va vb m) := by
  intro w he hw
  obtain rfl := Option.some.inj (he : some (wVfredo vd va vb m) = some w)
  have hw : (m.ok) = true := hw
  rw [decode_22 (by simp (disch := omega) only [wVfredo, fld_VA_maj, Nat.sub_self, BitVec.extractLsb'_eq_self])]
  have e0 : ((fld (wVfredo vd va vb m) 0 5 : BitVec 5)).toNat = 8 := by
    simp (disch := omega) only [wVfredo, fld_VA_fn, BitVec.extractLsb'_eq_self]
    rfl
  simp (disch := first | omega | assumption) only [decodeVred, e0]
  simp (disch := first | omega | assumption) only [wVfredo, fd, fa, fb, fmsk_parts, fbit_fld, bit1_beq, fld_VA_d, fld_VA_a, fld_VA_b, fld_VA_k, fld_VA_q, fld_VA_neg, fld_VA_m, vsrcOf_field, vbOf_field, mskOf_parts, Nat.sub_self, BitVec.extractLsb'_eq_self, bind, Except.bind, pure, Except.pure]
theorem Sys2Proof.Laws.RoundTrip.vfredt (vd : Reg) (va : VSrc) (vb : VbSrc) (m : Msk) : Statement (.vfredt vd va vb m) := by
  intro w he hw
  obtain rfl := Option.some.inj (he : some (wVfredt vd va vb m) = some w)
  have hw : (m.ok) = true := hw
  rw [decode_22 (by simp (disch := omega) only [wVfredt, fld_VA_maj, Nat.sub_self, BitVec.extractLsb'_eq_self])]
  have e0 : ((fld (wVfredt vd va vb m) 0 5 : BitVec 5)).toNat = 9 := by
    simp (disch := omega) only [wVfredt, fld_VA_fn, BitVec.extractLsb'_eq_self]
    rfl
  simp (disch := first | omega | assumption) only [decodeVred, e0]
  simp (disch := first | omega | assumption) only [wVfredt, fd, fa, fb, fmsk_parts, fbit_fld, bit1_beq, fld_VA_d, fld_VA_a, fld_VA_b, fld_VA_k, fld_VA_q, fld_VA_neg, fld_VA_m, vsrcOf_field, vbOf_field, mskOf_parts, Nat.sub_self, BitVec.extractLsb'_eq_self, bind, Except.bind, pure, Except.pure]
theorem Sys2Proof.Laws.RoundTrip.vfredmax (vd : Reg) (va : VSrc) (vb : VbSrc) (m : Msk) : Statement (.vfredmax vd va vb m) := by
  intro w he hw
  obtain rfl := Option.some.inj (he : some (wVfredmax vd va vb m) = some w)
  have hw : (m.ok) = true := hw
  rw [decode_22 (by simp (disch := omega) only [wVfredmax, fld_VA_maj, Nat.sub_self, BitVec.extractLsb'_eq_self])]
  have e0 : ((fld (wVfredmax vd va vb m) 0 5 : BitVec 5)).toNat = 10 := by
    simp (disch := omega) only [wVfredmax, fld_VA_fn, BitVec.extractLsb'_eq_self]
    rfl
  simp (disch := first | omega | assumption) only [decodeVred, e0]
  simp (disch := first | omega | assumption) only [wVfredmax, fd, fa, fb, fmsk_parts, fbit_fld, bit1_beq, fld_VA_d, fld_VA_a, fld_VA_b, fld_VA_k, fld_VA_q, fld_VA_neg, fld_VA_m, vsrcOf_field, vbOf_field, mskOf_parts, Nat.sub_self, BitVec.extractLsb'_eq_self, bind, Except.bind, pure, Except.pure]
theorem Sys2Proof.Laws.RoundTrip.vfredmin (vd : Reg) (va : VSrc) (vb : VbSrc) (m : Msk) : Statement (.vfredmin vd va vb m) := by
  intro w he hw
  obtain rfl := Option.some.inj (he : some (wVfredmin vd va vb m) = some w)
  have hw : (m.ok) = true := hw
  rw [decode_22 (by simp (disch := omega) only [wVfredmin, fld_VA_maj, Nat.sub_self, BitVec.extractLsb'_eq_self])]
  have e0 : ((fld (wVfredmin vd va vb m) 0 5 : BitVec 5)).toNat = 11 := by
    simp (disch := omega) only [wVfredmin, fld_VA_fn, BitVec.extractLsb'_eq_self]
    rfl
  simp (disch := first | omega | assumption) only [decodeVred, e0]
  simp (disch := first | omega | assumption) only [wVfredmin, fd, fa, fb, fmsk_parts, fbit_fld, bit1_beq, fld_VA_d, fld_VA_a, fld_VA_b, fld_VA_k, fld_VA_q, fld_VA_neg, fld_VA_m, vsrcOf_field, vbOf_field, mskOf_parts, Nat.sub_self, BitVec.extractLsb'_eq_self, bind, Except.bind, pure, Except.pure]
theorem Sys2Proof.Laws.RoundTrip.vtopk (vd : Reg) (va : VSrc) (xb : Reg) (m : Msk) : Statement (.vtopk vd va xb m) := by
  intro w he hw
  obtain rfl := Option.some.inj (he : some (wVtopk vd va xb m) = some w)
  have hw : ((xb != 0) && m.ok) = true := hw
  simp only [Bool.and_eq_true] at hw
  obtain ⟨hw0, hw1⟩ := hw
  rw [decode_22 (by simp (disch := omega) only [wVtopk, fld_VA_maj, Nat.sub_self, BitVec.extractLsb'_eq_self])]
  have e0 : ((fld (wVtopk vd va xb m) 0 5 : BitVec 5)).toNat = 12 := by
    simp (disch := omega) only [wVtopk, fld_VA_fn, BitVec.extractLsb'_eq_self]
    rfl
  simp (disch := first | omega | assumption) only [decodeVred, e0]
  simp (disch := first | omega | assumption) only [wVtopk, fd, fa, fb, fmsk_parts, fbit_fld, bit1_beq, fld_VA_d, fld_VA_a, fld_VA_b, fld_VA_k, fld_VA_q, fld_VA_neg, fld_VA_m, vsrcOf_field, mskOf_parts, hw0, Nat.sub_self, BitVec.extractLsb'_eq_self, need_true, bind, Except.bind, pure, Except.pure]
theorem Sys2Proof.Laws.RoundTrip.vtopkm (d a b : Reg) : Statement (.vtopkm d a b) := by
  intro w he hw
  obtain rfl := Option.some.inj (he : some (wVtopkm d a b) = some w)
  rw [decode_22 (by simp (disch := omega) only [wVtopkm, fld_VA_maj, Nat.sub_self, BitVec.extractLsb'_eq_self])]
  have e0 : ((fld (wVtopkm d a b) 0 5 : BitVec 5)).toNat = 13 := by
    simp (disch := omega) only [wVtopkm, fld_VA_fn, BitVec.extractLsb'_eq_self]
    rfl
  simp (disch := first | omega | assumption) only [decodeVred, e0]
  simp (disch := first | omega | assumption) only [wVtopkm, fd, fa, fb, fmsk_parts, fbit_fld, bit1_beq, fld_VA_d, fld_VA_a, fld_VA_b, fld_VA_k, fld_VA_q, fld_VA_neg, fld_VA_m, Nat.sub_self, BitVec.extractLsb'_eq_self, bind, Except.bind, pure, Except.pure]
  rfl
theorem Sys2Proof.Laws.RoundTrip.vmseq (md : BitVec 3) (va : VSrc) (vb : VbSrc) (m : Msk) : Statement (.vmseq md va vb m) := by
  intro w he hw
  obtain rfl := Option.some.inj (he : some (wVmseq md va vb m) = some w)
  have hw : (m.ok) = true := hw
  rw [decode_23 (by simp (disch := omega) only [wVmseq, fld_VA_maj, Nat.sub_self, BitVec.extractLsb'_eq_self])]
  have e0 : ((fld (wVmseq md va vb m) 0 5 : BitVec 5)).toNat = 0 := by
    simp (disch := omega) only [wVmseq, fld_VA_fn, BitVec.extractLsb'_eq_self]
    rfl
  simp (disch := first | omega | assumption) only [decodeVmsk, e0]
  simp (disch := first | omega | assumption) only [wVmseq, fa, fb, fmsk_parts, fbit_fld, bit1_beq, fld_VA_d, fld_VA_a, fld_VA_b, fld_VA_k, fld_VA_q, fld_VA_neg, fld_VA_m, pad3_low, pad3_high, vsrcOf_field, vbOf_field, mskOf_parts, Nat.sub_self, Nat.reduceSub, BitVec.extractLsb'_eq_self, need_true, beq_self_eq_true, bind, Except.bind, pure, Except.pure]
theorem Sys2Proof.Laws.RoundTrip.vmsne (md : BitVec 3) (va : VSrc) (vb : VbSrc) (m : Msk) : Statement (.vmsne md va vb m) := by
  intro w he hw
  obtain rfl := Option.some.inj (he : some (wVmsne md va vb m) = some w)
  have hw : (m.ok) = true := hw
  rw [decode_23 (by simp (disch := omega) only [wVmsne, fld_VA_maj, Nat.sub_self, BitVec.extractLsb'_eq_self])]
  have e0 : ((fld (wVmsne md va vb m) 0 5 : BitVec 5)).toNat = 1 := by
    simp (disch := omega) only [wVmsne, fld_VA_fn, BitVec.extractLsb'_eq_self]
    rfl
  simp (disch := first | omega | assumption) only [decodeVmsk, e0]
  simp (disch := first | omega | assumption) only [wVmsne, fa, fb, fmsk_parts, fbit_fld, bit1_beq, fld_VA_d, fld_VA_a, fld_VA_b, fld_VA_k, fld_VA_q, fld_VA_neg, fld_VA_m, pad3_low, pad3_high, vsrcOf_field, vbOf_field, mskOf_parts, Nat.sub_self, Nat.reduceSub, BitVec.extractLsb'_eq_self, need_true, beq_self_eq_true, bind, Except.bind, pure, Except.pure]
theorem Sys2Proof.Laws.RoundTrip.vmslt (md : BitVec 3) (va : VSrc) (vb : VbSrc) (m : Msk) : Statement (.vmslt md va vb m) := by
  intro w he hw
  obtain rfl := Option.some.inj (he : some (wVmslt md va vb m) = some w)
  have hw : (m.ok) = true := hw
  rw [decode_23 (by simp (disch := omega) only [wVmslt, fld_VA_maj, Nat.sub_self, BitVec.extractLsb'_eq_self])]
  have e0 : ((fld (wVmslt md va vb m) 0 5 : BitVec 5)).toNat = 2 := by
    simp (disch := omega) only [wVmslt, fld_VA_fn, BitVec.extractLsb'_eq_self]
    rfl
  simp (disch := first | omega | assumption) only [decodeVmsk, e0]
  simp (disch := first | omega | assumption) only [wVmslt, fa, fb, fmsk_parts, fbit_fld, bit1_beq, fld_VA_d, fld_VA_a, fld_VA_b, fld_VA_k, fld_VA_q, fld_VA_neg, fld_VA_m, pad3_low, pad3_high, vsrcOf_field, vbOf_field, mskOf_parts, Nat.sub_self, Nat.reduceSub, BitVec.extractLsb'_eq_self, need_true, beq_self_eq_true, bind, Except.bind, pure, Except.pure]
theorem Sys2Proof.Laws.RoundTrip.vmsltn (md : BitVec 3) (va : VSrc) (vb : VbSrc) (m : Msk) : Statement (.vmsltn md va vb m) := by
  intro w he hw
  obtain rfl := Option.some.inj (he : some (wVmsltn md va vb m) = some w)
  have hw : (m.ok) = true := hw
  rw [decode_23 (by simp (disch := omega) only [wVmsltn, fld_VA_maj, Nat.sub_self, BitVec.extractLsb'_eq_self])]
  have e0 : ((fld (wVmsltn md va vb m) 0 5 : BitVec 5)).toNat = 3 := by
    simp (disch := omega) only [wVmsltn, fld_VA_fn, BitVec.extractLsb'_eq_self]
    rfl
  simp (disch := first | omega | assumption) only [decodeVmsk, e0]
  simp (disch := first | omega | assumption) only [wVmsltn, fa, fb, fmsk_parts, fbit_fld, bit1_beq, fld_VA_d, fld_VA_a, fld_VA_b, fld_VA_k, fld_VA_q, fld_VA_neg, fld_VA_m, pad3_low, pad3_high, vsrcOf_field, vbOf_field, mskOf_parts, Nat.sub_self, Nat.reduceSub, BitVec.extractLsb'_eq_self, need_true, beq_self_eq_true, bind, Except.bind, pure, Except.pure]
theorem Sys2Proof.Laws.RoundTrip.vmsle (md : BitVec 3) (va : VSrc) (vb : VbSrc) (m : Msk) : Statement (.vmsle md va vb m) := by
  intro w he hw
  obtain rfl := Option.some.inj (he : some (wVmsle md va vb m) = some w)
  have hw : (m.ok) = true := hw
  rw [decode_23 (by simp (disch := omega) only [wVmsle, fld_VA_maj, Nat.sub_self, BitVec.extractLsb'_eq_self])]
  have e0 : ((fld (wVmsle md va vb m) 0 5 : BitVec 5)).toNat = 4 := by
    simp (disch := omega) only [wVmsle, fld_VA_fn, BitVec.extractLsb'_eq_self]
    rfl
  simp (disch := first | omega | assumption) only [decodeVmsk, e0]
  simp (disch := first | omega | assumption) only [wVmsle, fa, fb, fmsk_parts, fbit_fld, bit1_beq, fld_VA_d, fld_VA_a, fld_VA_b, fld_VA_k, fld_VA_q, fld_VA_neg, fld_VA_m, pad3_low, pad3_high, vsrcOf_field, vbOf_field, mskOf_parts, Nat.sub_self, Nat.reduceSub, BitVec.extractLsb'_eq_self, need_true, beq_self_eq_true, bind, Except.bind, pure, Except.pure]
theorem Sys2Proof.Laws.RoundTrip.vmslen (md : BitVec 3) (va : VSrc) (vb : VbSrc) (m : Msk) : Statement (.vmslen md va vb m) := by
  intro w he hw
  obtain rfl := Option.some.inj (he : some (wVmslen md va vb m) = some w)
  have hw : (m.ok) = true := hw
  rw [decode_23 (by simp (disch := omega) only [wVmslen, fld_VA_maj, Nat.sub_self, BitVec.extractLsb'_eq_self])]
  have e0 : ((fld (wVmslen md va vb m) 0 5 : BitVec 5)).toNat = 5 := by
    simp (disch := omega) only [wVmslen, fld_VA_fn, BitVec.extractLsb'_eq_self]
    rfl
  simp (disch := first | omega | assumption) only [decodeVmsk, e0]
  simp (disch := first | omega | assumption) only [wVmslen, fa, fb, fmsk_parts, fbit_fld, bit1_beq, fld_VA_d, fld_VA_a, fld_VA_b, fld_VA_k, fld_VA_q, fld_VA_neg, fld_VA_m, pad3_low, pad3_high, vsrcOf_field, vbOf_field, mskOf_parts, Nat.sub_self, Nat.reduceSub, BitVec.extractLsb'_eq_self, need_true, beq_self_eq_true, bind, Except.bind, pure, Except.pure]
theorem Sys2Proof.Laws.RoundTrip.vmfeq (md : BitVec 3) (va : VSrc) (vb : VbSrc) (m : Msk) : Statement (.vmfeq md va vb m) := by
  intro w he hw
  obtain rfl := Option.some.inj (he : some (wVmfeq md va vb m) = some w)
  have hw : (m.ok) = true := hw
  rw [decode_23 (by simp (disch := omega) only [wVmfeq, fld_VA_maj, Nat.sub_self, BitVec.extractLsb'_eq_self])]
  have e0 : ((fld (wVmfeq md va vb m) 0 5 : BitVec 5)).toNat = 6 := by
    simp (disch := omega) only [wVmfeq, fld_VA_fn, BitVec.extractLsb'_eq_self]
    rfl
  simp (disch := first | omega | assumption) only [decodeVmsk, e0]
  simp (disch := first | omega | assumption) only [wVmfeq, fa, fb, fmsk_parts, fbit_fld, bit1_beq, fld_VA_d, fld_VA_a, fld_VA_b, fld_VA_k, fld_VA_q, fld_VA_neg, fld_VA_m, pad3_low, pad3_high, vsrcOf_field, vbOf_field, mskOf_parts, Nat.sub_self, Nat.reduceSub, BitVec.extractLsb'_eq_self, need_true, beq_self_eq_true, bind, Except.bind, pure, Except.pure]
theorem Sys2Proof.Laws.RoundTrip.vmflt (md : BitVec 3) (va : VSrc) (vb : VbSrc) (m : Msk) : Statement (.vmflt md va vb m) := by
  intro w he hw
  obtain rfl := Option.some.inj (he : some (wVmflt md va vb m) = some w)
  have hw : (m.ok) = true := hw
  rw [decode_23 (by simp (disch := omega) only [wVmflt, fld_VA_maj, Nat.sub_self, BitVec.extractLsb'_eq_self])]
  have e0 : ((fld (wVmflt md va vb m) 0 5 : BitVec 5)).toNat = 7 := by
    simp (disch := omega) only [wVmflt, fld_VA_fn, BitVec.extractLsb'_eq_self]
    rfl
  simp (disch := first | omega | assumption) only [decodeVmsk, e0]
  simp (disch := first | omega | assumption) only [wVmflt, fa, fb, fmsk_parts, fbit_fld, bit1_beq, fld_VA_d, fld_VA_a, fld_VA_b, fld_VA_k, fld_VA_q, fld_VA_neg, fld_VA_m, pad3_low, pad3_high, vsrcOf_field, vbOf_field, mskOf_parts, Nat.sub_self, Nat.reduceSub, BitVec.extractLsb'_eq_self, need_true, beq_self_eq_true, bind, Except.bind, pure, Except.pure]
theorem Sys2Proof.Laws.RoundTrip.vmfle (md : BitVec 3) (va : VSrc) (vb : VbSrc) (m : Msk) : Statement (.vmfle md va vb m) := by
  intro w he hw
  obtain rfl := Option.some.inj (he : some (wVmfle md va vb m) = some w)
  have hw : (m.ok) = true := hw
  rw [decode_23 (by simp (disch := omega) only [wVmfle, fld_VA_maj, Nat.sub_self, BitVec.extractLsb'_eq_self])]
  have e0 : ((fld (wVmfle md va vb m) 0 5 : BitVec 5)).toNat = 8 := by
    simp (disch := omega) only [wVmfle, fld_VA_fn, BitVec.extractLsb'_eq_self]
    rfl
  simp (disch := first | omega | assumption) only [decodeVmsk, e0]
  simp (disch := first | omega | assumption) only [wVmfle, fa, fb, fmsk_parts, fbit_fld, bit1_beq, fld_VA_d, fld_VA_a, fld_VA_b, fld_VA_k, fld_VA_q, fld_VA_neg, fld_VA_m, pad3_low, pad3_high, vsrcOf_field, vbOf_field, mskOf_parts, Nat.sub_self, Nat.reduceSub, BitVec.extractLsb'_eq_self, need_true, beq_self_eq_true, bind, Except.bind, pure, Except.pure]
theorem Sys2Proof.Laws.RoundTrip.vmfnan (md : BitVec 3) (va : Reg) (m : Msk) : Statement (.vmfnan md va m) := by
  intro w he hw
  obtain rfl := Option.some.inj (he : some (wVmfnan md va m) = some w)
  have hw : (m.ok) = true := hw
  rw [decode_23 (by simp (disch := omega) only [wVmfnan, fld_VA_maj, Nat.sub_self, BitVec.extractLsb'_eq_self])]
  have e0 : ((fld (wVmfnan md va m) 0 5 : BitVec 5)).toNat = 9 := by
    simp (disch := omega) only [wVmfnan, fld_VA_fn, BitVec.extractLsb'_eq_self]
    rfl
  simp (disch := first | omega | assumption) only [decodeVmsk, e0]
  simp (disch := first | omega | assumption) only [wVmfnan, fa, fb, fmsk_parts, fbit_fld, bit1_beq, fld_VA_d, fld_VA_a, fld_VA_b, fld_VA_k, fld_VA_q, fld_VA_neg, fld_VA_m, pad3_low, pad3_high, mskOf_parts, Nat.sub_self, Nat.reduceSub, BitVec.extractLsb'_eq_self, need_true, zero_zero, beq_self_eq_true, Bool.not_false, bind, Except.bind, pure, Except.pure]
theorem Sys2Proof.Laws.RoundTrip.vmand (md ma mb : BitVec 3) : Statement (.vmand md ma mb) := by
  intro w he hw
  obtain rfl := Option.some.inj (he : some (wVmand md ma mb) = some w)
  rw [decode_23 (by simp (disch := omega) only [wVmand, fld_VA_maj, Nat.sub_self, BitVec.extractLsb'_eq_self])]
  have e0 : ((fld (wVmand md ma mb) 0 5 : BitVec 5)).toNat = 10 := by
    simp (disch := omega) only [wVmand, fld_VA_fn, BitVec.extractLsb'_eq_self]
    rfl
  simp (disch := first | omega | assumption) only [decodeVmsk, e0]
  simp (disch := first | omega | assumption) only [wVmand, fmsk_parts, fbit_fld, bit1_beq, fld_VA_d, fld_VA_a, fld_VA_b, fld_VA_k, fld_VA_q, fld_VA_neg, fld_VA_m, pad3_low, pad3_high, Nat.sub_self, Nat.reduceSub, BitVec.extractLsb'_eq_self, need_true, beq_self_eq_true, Bool.not_false, bind, Except.bind, pure, Except.pure]
  rfl
theorem Sys2Proof.Laws.RoundTrip.vmor (md ma mb : BitVec 3) : Statement (.vmor md ma mb) := by
  intro w he hw
  obtain rfl := Option.some.inj (he : some (wVmor md ma mb) = some w)
  rw [decode_23 (by simp (disch := omega) only [wVmor, fld_VA_maj, Nat.sub_self, BitVec.extractLsb'_eq_self])]
  have e0 : ((fld (wVmor md ma mb) 0 5 : BitVec 5)).toNat = 11 := by
    simp (disch := omega) only [wVmor, fld_VA_fn, BitVec.extractLsb'_eq_self]
    rfl
  simp (disch := first | omega | assumption) only [decodeVmsk, e0]
  simp (disch := first | omega | assumption) only [wVmor, fmsk_parts, fbit_fld, bit1_beq, fld_VA_d, fld_VA_a, fld_VA_b, fld_VA_k, fld_VA_q, fld_VA_neg, fld_VA_m, pad3_low, pad3_high, Nat.sub_self, Nat.reduceSub, BitVec.extractLsb'_eq_self, need_true, beq_self_eq_true, Bool.not_false, bind, Except.bind, pure, Except.pure]
  rfl
theorem Sys2Proof.Laws.RoundTrip.vmxor (md ma mb : BitVec 3) : Statement (.vmxor md ma mb) := by
  intro w he hw
  obtain rfl := Option.some.inj (he : some (wVmxor md ma mb) = some w)
  rw [decode_23 (by simp (disch := omega) only [wVmxor, fld_VA_maj, Nat.sub_self, BitVec.extractLsb'_eq_self])]
  have e0 : ((fld (wVmxor md ma mb) 0 5 : BitVec 5)).toNat = 12 := by
    simp (disch := omega) only [wVmxor, fld_VA_fn, BitVec.extractLsb'_eq_self]
    rfl
  simp (disch := first | omega | assumption) only [decodeVmsk, e0]
  simp (disch := first | omega | assumption) only [wVmxor, fmsk_parts, fbit_fld, bit1_beq, fld_VA_d, fld_VA_a, fld_VA_b, fld_VA_k, fld_VA_q, fld_VA_neg, fld_VA_m, pad3_low, pad3_high, Nat.sub_self, Nat.reduceSub, BitVec.extractLsb'_eq_self, need_true, beq_self_eq_true, Bool.not_false, bind, Except.bind, pure, Except.pure]
  rfl
theorem Sys2Proof.Laws.RoundTrip.vmandn (md ma mb : BitVec 3) : Statement (.vmandn md ma mb) := by
  intro w he hw
  obtain rfl := Option.some.inj (he : some (wVmandn md ma mb) = some w)
  rw [decode_23 (by simp (disch := omega) only [wVmandn, fld_VA_maj, Nat.sub_self, BitVec.extractLsb'_eq_self])]
  have e0 : ((fld (wVmandn md ma mb) 0 5 : BitVec 5)).toNat = 13 := by
    simp (disch := omega) only [wVmandn, fld_VA_fn, BitVec.extractLsb'_eq_self]
    rfl
  simp (disch := first | omega | assumption) only [decodeVmsk, e0]
  simp (disch := first | omega | assumption) only [wVmandn, fmsk_parts, fbit_fld, bit1_beq, fld_VA_d, fld_VA_a, fld_VA_b, fld_VA_k, fld_VA_q, fld_VA_neg, fld_VA_m, pad3_low, pad3_high, Nat.sub_self, Nat.reduceSub, BitVec.extractLsb'_eq_self, need_true, beq_self_eq_true, Bool.not_false, bind, Except.bind, pure, Except.pure]
  rfl
theorem Sys2Proof.Laws.RoundTrip.vmnot (md ma : BitVec 3) : Statement (.vmnot md ma) := by
  intro w he hw
  obtain rfl := Option.some.inj (he : some (wVmnot md ma) = some w)
  rw [decode_23 (by simp (disch := omega) only [wVmnot, fld_VA_maj, Nat.sub_self, BitVec.extractLsb'_eq_self])]
  have e0 : ((fld (wVmnot md ma) 0 5 : BitVec 5)).toNat = 14 := by
    simp (disch := omega) only [wVmnot, fld_VA_fn, BitVec.extractLsb'_eq_self]
    rfl
  simp (disch := first | omega | assumption) only [decodeVmsk, e0]
  simp (disch := first | omega | assumption) only [wVmnot, fb, fmsk_parts, fbit_fld, bit1_beq, fld_VA_d, fld_VA_a, fld_VA_b, fld_VA_k, fld_VA_q, fld_VA_neg, fld_VA_m, pad3_low, pad3_high, Nat.sub_self, Nat.reduceSub, BitVec.extractLsb'_eq_self, need_true, zero_zero, beq_self_eq_true, Bool.not_false, bind, Except.bind, pure, Except.pure]
  rfl
theorem Sys2Proof.Laws.RoundTrip.vmmv (md ma : BitVec 3) : Statement (.vmmv md ma) := by
  intro w he hw
  obtain rfl := Option.some.inj (he : some (wVmmv md ma) = some w)
  rw [decode_23 (by simp (disch := omega) only [wVmmv, fld_VA_maj, Nat.sub_self, BitVec.extractLsb'_eq_self])]
  have e0 : ((fld (wVmmv md ma) 0 5 : BitVec 5)).toNat = 15 := by
    simp (disch := omega) only [wVmmv, fld_VA_fn, BitVec.extractLsb'_eq_self]
    rfl
  simp (disch := first | omega | assumption) only [decodeVmsk, e0]
  simp (disch := first | omega | assumption) only [wVmmv, fb, fmsk_parts, fbit_fld, bit1_beq, fld_VA_d, fld_VA_a, fld_VA_b, fld_VA_k, fld_VA_q, fld_VA_neg, fld_VA_m, pad3_low, pad3_high, Nat.sub_self, Nat.reduceSub, BitVec.extractLsb'_eq_self, need_true, zero_zero, beq_self_eq_true, Bool.not_false, bind, Except.bind, pure, Except.pure]
  rfl
theorem Sys2Proof.Laws.RoundTrip.vmmvc (md : BitVec 3) : Statement (.vmmvc md) := by
  intro w he hw
  obtain rfl := Option.some.inj (he : some (wVmmvc md) = some w)
  rw [decode_23 (by simp (disch := omega) only [wVmmvc, fld_VA_maj, Nat.sub_self, BitVec.extractLsb'_eq_self])]
  have e0 : ((fld (wVmmvc md) 0 5 : BitVec 5)).toNat = 16 := by
    simp (disch := omega) only [wVmmvc, fld_VA_fn, BitVec.extractLsb'_eq_self]
    rfl
  simp (disch := first | omega | assumption) only [decodeVmsk, e0]
  simp (disch := first | omega | assumption) only [wVmmvc, fa, fb, fmsk_parts, fbit_fld, bit1_beq, fld_VA_d, fld_VA_a, fld_VA_b, fld_VA_k, fld_VA_q, fld_VA_neg, fld_VA_m, pad3_low, pad3_high, Nat.sub_self, Nat.reduceSub, BitVec.extractLsb'_eq_self, need_true, zero_zero, beq_self_eq_true, Bool.not_false, bind, Except.bind, pure, Except.pure]
  rfl
theorem Sys2Proof.Laws.RoundTrip.vmfromx (md : BitVec 3) (xa xb : Reg) : Statement (.vmfromx md xa xb) := by
  intro w he hw
  obtain rfl := Option.some.inj (he : some (wVmfromx md xa xb) = some w)
  rw [decode_23 (by simp (disch := omega) only [wVmfromx, fld_VA_maj, Nat.sub_self, BitVec.extractLsb'_eq_self])]
  have e0 : ((fld (wVmfromx md xa xb) 0 5 : BitVec 5)).toNat = 17 := by
    simp (disch := omega) only [wVmfromx, fld_VA_fn, BitVec.extractLsb'_eq_self]
    rfl
  simp (disch := first | omega | assumption) only [decodeVmsk, e0]
  simp (disch := first | omega | assumption) only [wVmfromx, fa, fb, fmsk_parts, fbit_fld, bit1_beq, fld_VA_d, fld_VA_a, fld_VA_b, fld_VA_k, fld_VA_q, fld_VA_neg, fld_VA_m, pad3_low, pad3_high, Nat.sub_self, Nat.reduceSub, BitVec.extractLsb'_eq_self, need_true, beq_self_eq_true, Bool.not_false, bind, Except.bind, pure, Except.pure]
  rfl
theorem Sys2Proof.Laws.RoundTrip.vmtox (xd : Reg) (ma : BitVec 3) (xb : Reg) : Statement (.vmtox xd ma xb) := by
  intro w he hw
  obtain rfl := Option.some.inj (he : some (wVmtox xd ma xb) = some w)
  rw [decode_23 (by simp (disch := omega) only [wVmtox, fld_VA_maj, Nat.sub_self, BitVec.extractLsb'_eq_self])]
  have e0 : ((fld (wVmtox xd ma xb) 0 5 : BitVec 5)).toNat = 18 := by
    simp (disch := omega) only [wVmtox, fld_VA_fn, BitVec.extractLsb'_eq_self]
    rfl
  simp (disch := first | omega | assumption) only [decodeVmsk, e0]
  simp (disch := first | omega | assumption) only [wVmtox, fd, fb, fmsk_parts, fbit_fld, bit1_beq, fld_VA_d, fld_VA_a, fld_VA_b, fld_VA_k, fld_VA_q, fld_VA_neg, fld_VA_m, pad3_low, pad3_high, Nat.sub_self, Nat.reduceSub, BitVec.extractLsb'_eq_self, need_true, beq_self_eq_true, Bool.not_false, bind, Except.bind, pure, Except.pure]
  rfl
theorem Sys2Proof.Laws.RoundTrip.tclaim (xd : Reg) (acc : BitVec 2) (int : Bool) : Statement (.tclaim xd acc int) := by
  intro w he hw
  obtain rfl := Option.some.inj (he : some (wTclaim xd acc int) = some w)
  rw [decode_28 (by simp (disch := omega) only [wTclaim, fld_RRR_maj, Nat.sub_self, BitVec.extractLsb'_eq_self])]
  have e0 : ((fld (wTclaim xd acc int) 0 9 : BitVec 9)).toNat = 0 := by
    simp (disch := omega) only [wTclaim, fld_RRR_fn, fn_tile_op]
    rfl
  simp (disch := first | omega | assumption) only [decodeTile, e0]
  simp (disch := first | omega | assumption) only [wTclaim, fd, fa, fld_RRR_d, fld_RRR_a, fld_RRR_b, fld_RRR_fn, fn_tile_acc, boolField_low, boolField_high, fbit_fld, bit1_beq, Nat.sub_self, Nat.reduceSub, BitVec.extractLsb'_eq_self, need_true, zero_zero, beq_self_eq_true, bind, Except.bind, pure, Except.pure]
theorem Sys2Proof.Laws.RoundTrip.tfree (acc : BitVec 2) : Statement (.tfree acc) := by
  intro w he hw
  obtain rfl := Option.some.inj (he : some (wTfree acc) = some w)
  rw [decode_28 (by simp (disch := omega) only [wTfree, fld_RRR_maj, Nat.sub_self, BitVec.extractLsb'_eq_self])]
  have e0 : ((fld (wTfree acc) 0 9 : BitVec 9)).toNat = 1 := by
    simp (disch := omega) only [wTfree, fld_RRR_fn, fn_tile_op]
    rfl
  simp (disch := first | omega | assumption) only [decodeTile, e0]
  simp (disch := first | omega | assumption) only [wTfree, fd, fa, fb, fld_RRR_d, fld_RRR_a, fld_RRR_b, fld_RRR_fn, fn_tile_acc, Nat.sub_self, BitVec.extractLsb'_eq_self, zero_zero, bind, Except.bind, pure, Except.pure]
theorem Sys2Proof.Laws.RoundTrip.tzero (acc : BitVec 2) (int : Bool) : Statement (.tzero acc int) := by
  intro w he hw
  obtain rfl := Option.some.inj (he : some (wTzero acc int) = some w)
  rw [decode_28 (by simp (disch := omega) only [wTzero, fld_RRR_maj, Nat.sub_self, BitVec.extractLsb'_eq_self])]
  have e0 : ((fld (wTzero acc int) 0 9 : BitVec 9)).toNat = 2 := by
    simp (disch := omega) only [wTzero, fld_RRR_fn, fn_tile_op]
    rfl
  simp (disch := first | omega | assumption) only [decodeTile, e0]
  simp (disch := first | omega | assumption) only [wTzero, fd, fa, fld_RRR_d, fld_RRR_a, fld_RRR_b, fld_RRR_fn, fn_tile_acc, boolField_low, boolField_high, fbit_fld, bit1_beq, Nat.sub_self, Nat.reduceSub, BitVec.extractLsb'_eq_self, need_true, zero_zero, beq_self_eq_true, bind, Except.bind, pure, Except.pure]
theorem Sys2Proof.Laws.RoundTrip.trdrow (vd : Reg) (acc : BitVec 2) (xa : Reg) : Statement (.trdrow vd acc xa) := by
  intro w he hw
  obtain rfl := Option.some.inj (he : some (wTrdrow vd acc xa) = some w)
  rw [decode_28 (by simp (disch := omega) only [wTrdrow, fld_RRR_maj, Nat.sub_self, BitVec.extractLsb'_eq_self])]
  have e0 : ((fld (wTrdrow vd acc xa) 0 9 : BitVec 9)).toNat = 3 := by
    simp (disch := omega) only [wTrdrow, fld_RRR_fn, fn_tile_op]
    rfl
  simp (disch := first | omega | assumption) only [decodeTile, e0]
  simp (disch := first | omega | assumption) only [wTrdrow, fd, fa, fb, fld_RRR_d, fld_RRR_a, fld_RRR_b, fld_RRR_fn, fn_tile_acc, Nat.sub_self, BitVec.extractLsb'_eq_self, zero_zero, bind, Except.bind, pure, Except.pure]
theorem Sys2Proof.Laws.RoundTrip.trdcol (vd : Reg) (acc : BitVec 2) (xa : Reg) : Statement (.trdcol vd acc xa) := by
  intro w he hw
  obtain rfl := Option.some.inj (he : some (wTrdcol vd acc xa) = some w)
  rw [decode_28 (by simp (disch := omega) only [wTrdcol, fld_RRR_maj, Nat.sub_self, BitVec.extractLsb'_eq_self])]
  have e0 : ((fld (wTrdcol vd acc xa) 0 9 : BitVec 9)).toNat = 4 := by
    simp (disch := omega) only [wTrdcol, fld_RRR_fn, fn_tile_op]
    rfl
  simp (disch := first | omega | assumption) only [decodeTile, e0]
  simp (disch := first | omega | assumption) only [wTrdcol, fd, fa, fb, fld_RRR_d, fld_RRR_a, fld_RRR_b, fld_RRR_fn, fn_tile_acc, Nat.sub_self, BitVec.extractLsb'_eq_self, zero_zero, bind, Except.bind, pure, Except.pure]
theorem Sys2Proof.Laws.RoundTrip.twrrow (acc : BitVec 2) (xa vb : Reg) : Statement (.twrrow acc xa vb) := by
  intro w he hw
  obtain rfl := Option.some.inj (he : some (wTwrrow acc xa vb) = some w)
  rw [decode_28 (by simp (disch := omega) only [wTwrrow, fld_RRR_maj, Nat.sub_self, BitVec.extractLsb'_eq_self])]
  have e0 : ((fld (wTwrrow acc xa vb) 0 9 : BitVec 9)).toNat = 5 := by
    simp (disch := omega) only [wTwrrow, fld_RRR_fn, fn_tile_op]
    rfl
  simp (disch := first | omega | assumption) only [decodeTile, e0]
  simp (disch := first | omega | assumption) only [wTwrrow, fd, fa, fb, fld_RRR_d, fld_RRR_a, fld_RRR_b, fld_RRR_fn, fn_tile_acc, Nat.sub_self, BitVec.extractLsb'_eq_self, zero_zero, bind, Except.bind, pure, Except.pure]
theorem Sys2Proof.Laws.RoundTrip.twrcol (acc : BitVec 2) (xa vb : Reg) : Statement (.twrcol acc xa vb) := by
  intro w he hw
  obtain rfl := Option.some.inj (he : some (wTwrcol acc xa vb) = some w)
  rw [decode_28 (by simp (disch := omega) only [wTwrcol, fld_RRR_maj, Nat.sub_self, BitVec.extractLsb'_eq_self])]
  have e0 : ((fld (wTwrcol acc xa vb) 0 9 : BitVec 9)).toNat = 6 := by
    simp (disch := omega) only [wTwrcol, fld_RRR_fn, fn_tile_op]
    rfl
  simp (disch := first | omega | assumption) only [decodeTile, e0]
  simp (disch := first | omega | assumption) only [wTwrcol, fd, fa, fb, fld_RRR_d, fld_RRR_a, fld_RRR_b, fld_RRR_fn, fn_tile_acc, Nat.sub_self, BitVec.extractLsb'_eq_self, zero_zero, bind, Except.bind, pure, Except.pure]
theorem Sys2Proof.Laws.RoundTrip.tstat (xd : Reg) (acc : BitVec 2) : Statement (.tstat xd acc) := by
  intro w he hw
  obtain rfl := Option.some.inj (he : some (wTstat xd acc) = some w)
  rw [decode_28 (by simp (disch := omega) only [wTstat, fld_RRR_maj, Nat.sub_self, BitVec.extractLsb'_eq_self])]
  have e0 : ((fld (wTstat xd acc) 0 9 : BitVec 9)).toNat = 7 := by
    simp (disch := omega) only [wTstat, fld_RRR_fn, fn_tile_op]
    rfl
  simp (disch := first | omega | assumption) only [decodeTile, e0]
  simp (disch := first | omega | assumption) only [wTstat, fd, fa, fb, fld_RRR_d, fld_RRR_a, fld_RRR_b, fld_RRR_fn, fn_tile_acc, Nat.sub_self, BitVec.extractLsb'_eq_self, zero_zero, bind, Except.bind, pure, Except.pure]
theorem Sys2Proof.Laws.RoundTrip.tmop (acc : BitVec 2) (f : TmFmt) (src : TmSrc) (rp : BitVec 3) (sub sat : Bool) : Statement (.tmop acc f src rp sub sat) := by
  intro w he hw
  obtain rfl := Option.some.inj (he : some (wTmop acc f src rp sub sat) = some w)
  rw [decode_29 (by simp (disch := omega) only [wTmop, fld_TM_maj, Nat.sub_self, BitVec.extractLsb'_eq_self])]
  have e0 : ((fld (wTmop acc f src rp sub sat) 3 1 : BitVec 1)).toNat = 0 := by
    simp (disch := omega) only [wTmop, fld_TM_ms, Nat.sub_self, BitVec.extractLsb'_eq_self, bit1]
    rfl
  simp (disch := first | omega | assumption) only [decodeTmop, e0]
  simp (disch := first | omega | assumption) only [wTmop, fbit_fld, bit1_beq, fld_TM_acc, fld_TM_fmt, fld_TM_a, fld_TM_b, fld_TM_rp, fld_TM_q, fld_TM_sub, fld_TM_sat, fld_TM_zero, tmFmtOf_code, tmSrcOf_field, Nat.sub_self, BitVec.extractLsb'_eq_self, need_true, beq_self_eq_true, bind, Except.bind, pure, Except.pure]
theorem Sys2Proof.Laws.RoundTrip.tmopMs (acc : BitVec 2) (f : TmFmt) (va vb : Queue) (rp : BitVec 3) (sub sat : Bool) : Statement (.tmopMs acc f va vb rp sub sat) := by
  intro w he hw
  obtain rfl := Option.some.inj (he : some (wTmopMs acc f va vb rp sub sat) = some w)
  rw [decode_29 (by simp (disch := omega) only [wTmopMs, fld_TM_maj, Nat.sub_self, BitVec.extractLsb'_eq_self])]
  have e0 : ((fld (wTmopMs acc f va vb rp sub sat) 3 1 : BitVec 1)).toNat = 1 := by
    simp (disch := omega) only [wTmopMs, fld_TM_ms, Nat.sub_self, BitVec.extractLsb'_eq_self, bit1]
    rfl
  simp (disch := first | omega | assumption) only [decodeTmop, e0]
  simp (disch := first | omega | assumption) only [wTmopMs, fbit_fld, bit1_beq, fld_TM_acc, fld_TM_fmt, fld_TM_a, fld_TM_b, fld_TM_rp, fld_TM_q, fld_TM_sub, fld_TM_sat, fld_TM_zero, tmFmtOf_code, queueOf_field, Nat.sub_self, BitVec.extractLsb'_eq_self, need_true, beq_self_eq_true, bind, Except.bind, pure, Except.pure]
theorem Sys2Proof.Laws.RoundTrip.qcfg (ring : BitVec 3) (a b : Reg) : Statement (.qcfg ring a b) := by
  intro w he hw
  obtain rfl := Option.some.inj (he : some (wQcfg ring a b) = some w)
  rw [decode_2A (by simp (disch := omega) only [wQcfg, fld_RRR_maj, Nat.sub_self, BitVec.extractLsb'_eq_self])]
  have e0 : ((fld (wQcfg ring a b) 0 11 : BitVec 11)).toNat = 0 := by
    simp (disch := omega) only [wQcfg, fld_RRR_fn, BitVec.extractLsb'_eq_self]
    rfl
  simp (disch := first | omega | assumption) only [decodeTq, e0]
  simp (disch := first | omega | assumption) only [wQcfg, fa, fb, fld_RRR_d, fld_RRR_a, fld_RRR_b, pad3_low, pad3_high, Nat.sub_self, Nat.reduceSub, BitVec.extractLsb'_eq_self, need_true, beq_self_eq_true, bind, Except.bind, pure, Except.pure]
theorem Sys2Proof.Laws.RoundTrip.qpush (dst : Queue) (vs : Reg) : Statement (.qpush dst vs) := by
  intro w he hw
  obtain rfl := Option.some.inj (he : some (wQpush dst vs) = some w)
  rw [decode_2A (by simp (disch := omega) only [wQpush, fld_RRR_maj, Nat.sub_self, BitVec.extractLsb'_eq_self])]
  have e0 : ((fld (wQpush dst vs) 0 11 : BitVec 11)).toNat = 1 := by
    simp (disch := omega) only [wQpush, fld_RRR_fn, BitVec.extractLsb'_eq_self]
    rfl
  simp (disch := first | omega | assumption) only [decodeTq, e0]
  simp (disch := first | omega | assumption) only [wQpush, fd, fa, fb, fld_RRR_d, fld_RRR_a, fld_RRR_b, queueOf_field, Nat.sub_self, BitVec.extractLsb'_eq_self, zero_zero, bind, Except.bind, pure, Except.pure]
theorem Sys2Proof.Laws.RoundTrip.qpop (vd : Reg) (src : Queue) : Statement (.qpop vd src) := by
  intro w he hw
  obtain rfl := Option.some.inj (he : some (wQpop vd src) = some w)
  rw [decode_2A (by simp (disch := omega) only [wQpop, fld_RRR_maj, Nat.sub_self, BitVec.extractLsb'_eq_self])]
  have e0 : ((fld (wQpop vd src) 0 11 : BitVec 11)).toNat = 2 := by
    simp (disch := omega) only [wQpop, fld_RRR_fn, BitVec.extractLsb'_eq_self]
    rfl
  simp (disch := first | omega | assumption) only [decodeTq, e0]
  simp (disch := first | omega | assumption) only [wQpop, fd, fa, fb, fld_RRR_d, fld_RRR_a, fld_RRR_b, queueOf_field, Nat.sub_self, BitVec.extractLsb'_eq_self, zero_zero, bind, Except.bind, pure, Except.pure]
theorem Sys2Proof.Laws.RoundTrip.qwait (xd : Reg) (src : Queue) (xb : Reg) : Statement (.qwait xd src xb) := by
  intro w he hw
  obtain rfl := Option.some.inj (he : some (wQwait xd src xb) = some w)
  rw [decode_2A (by simp (disch := omega) only [wQwait, fld_RRR_maj, Nat.sub_self, BitVec.extractLsb'_eq_self])]
  have e0 : ((fld (wQwait xd src xb) 0 11 : BitVec 11)).toNat = 3 := by
    simp (disch := omega) only [wQwait, fld_RRR_fn, BitVec.extractLsb'_eq_self]
    rfl
  simp (disch := first | omega | assumption) only [decodeTq, e0]
  simp (disch := first | omega | assumption) only [wQwait, fd, fa, fb, fld_RRR_d, fld_RRR_a, fld_RRR_b, queueOf_field, Nat.sub_self, BitVec.extractLsb'_eq_self, bind, Except.bind, pure, Except.pure]
theorem Sys2Proof.Laws.RoundTrip.qzf (xd : Reg) (ring : BitVec 3) (xb : Reg) : Statement (.qzf xd ring xb) := by
  intro w he hw
  obtain rfl := Option.some.inj (he : some (wQzf xd ring xb) = some w)
  rw [decode_2A (by simp (disch := omega) only [wQzf, fld_RRR_maj, Nat.sub_self, BitVec.extractLsb'_eq_self])]
  have e0 : ((fld (wQzf xd ring xb) 0 11 : BitVec 11)).toNat = 4 := by
    simp (disch := omega) only [wQzf, fld_RRR_fn, BitVec.extractLsb'_eq_self]
    rfl
  simp (disch := first | omega | assumption) only [decodeTq, e0]
  simp (disch := first | omega | assumption) only [wQzf, fd, fb, fld_RRR_d, fld_RRR_a, fld_RRR_b, pad3_low, pad3_high, Nat.sub_self, Nat.reduceSub, BitVec.extractLsb'_eq_self, need_true, beq_self_eq_true, bind, Except.bind, pure, Except.pure]
theorem Sys2Proof.Laws.RoundTrip.ccmap (d a : Reg) : Statement (.ccmap d a) := by
  intro w he hw
  obtain rfl := Option.some.inj (he : some (wCcmap d a) = some w)
  rw [decode_2B (by simp (disch := omega) only [wCcmap, fld_RRR_maj, Nat.sub_self, BitVec.extractLsb'_eq_self])]
  have e0 : ((fld (wCcmap d a) 0 11 : BitVec 11)).toNat = 0 := by
    simp (disch := omega) only [wCcmap, fld_RRR_fn, BitVec.extractLsb'_eq_self]
    rfl
  simp (disch := first | omega | assumption) only [decodeCc, e0]
  simp (disch := first | omega | assumption) only [wCcmap, fd, fa, fb, fld_RRR_d, fld_RRR_a, fld_RRR_b, Nat.sub_self, BitVec.extractLsb'_eq_self, zero_zero, bind, Except.bind, pure, Except.pure]
theorem Sys2Proof.Laws.RoundTrip.ccunmap (a : Reg) : Statement (.ccunmap a) := by
  intro w he hw
  obtain rfl := Option.some.inj (he : some (wCcunmap a) = some w)
  rw [decode_2B (by simp (disch := omega) only [wCcunmap, fld_RRR_maj, Nat.sub_self, BitVec.extractLsb'_eq_self])]
  have e0 : ((fld (wCcunmap a) 0 11 : BitVec 11)).toNat = 1 := by
    simp (disch := omega) only [wCcunmap, fld_RRR_fn, BitVec.extractLsb'_eq_self]
    rfl
  simp (disch := first | omega | assumption) only [decodeCc, e0]
  simp (disch := first | omega | assumption) only [wCcunmap, fd, fa, fb, fld_RRR_d, fld_RRR_a, fld_RRR_b, Nat.sub_self, BitVec.extractLsb'_eq_self, zero_zero, bind, Except.bind, pure, Except.pure]
theorem Sys2Proof.Laws.RoundTrip.ccflush (a : Reg) : Statement (.ccflush a) := by
  intro w he hw
  obtain rfl := Option.some.inj (he : some (wCcflush a) = some w)
  rw [decode_2B (by simp (disch := omega) only [wCcflush, fld_RRR_maj, Nat.sub_self, BitVec.extractLsb'_eq_self])]
  have e0 : ((fld (wCcflush a) 0 11 : BitVec 11)).toNat = 2 := by
    simp (disch := omega) only [wCcflush, fld_RRR_fn, BitVec.extractLsb'_eq_self]
    rfl
  simp (disch := first | omega | assumption) only [decodeCc, e0]
  simp (disch := first | omega | assumption) only [wCcflush, fd, fa, fb, fld_RRR_d, fld_RRR_a, fld_RRR_b, Nat.sub_self, BitVec.extractLsb'_eq_self, zero_zero, bind, Except.bind, pure, Except.pure]
theorem Sys2Proof.Laws.RoundTrip.ccstat (d a : Reg) : Statement (.ccstat d a) := by
  intro w he hw
  obtain rfl := Option.some.inj (he : some (wCcstat d a) = some w)
  rw [decode_2B (by simp (disch := omega) only [wCcstat, fld_RRR_maj, Nat.sub_self, BitVec.extractLsb'_eq_self])]
  have e0 : ((fld (wCcstat d a) 0 11 : BitVec 11)).toNat = 3 := by
    simp (disch := omega) only [wCcstat, fld_RRR_fn, BitVec.extractLsb'_eq_self]
    rfl
  simp (disch := first | omega | assumption) only [decodeCc, e0]
  simp (disch := first | omega | assumption) only [wCcstat, fd, fa, fb, fld_RRR_d, fld_RRR_a, fld_RRR_b, Nat.sub_self, BitVec.extractLsb'_eq_self, zero_zero, bind, Except.bind, pure, Except.pure]
theorem Sys2Proof.Laws.RoundTrip.fx (slot vd va vb xs : Reg) : Statement (.fx slot vd va vb xs) := by
  intro w he hw
  obtain rfl := Option.some.inj (he : some (wFx slot vd va vb xs) = some w)
  rw [decode_2C (by simp (disch := omega) only [wFx, fld_FI_maj, Nat.sub_self, BitVec.extractLsb'_eq_self])]
  have e0 : ((fld (wFx slot vd va vb xs) 5 1 : BitVec 1)).toNat = 0 := by
    simp (disch := omega) only [wFx, fld_FI_c, Nat.sub_self, BitVec.extractLsb'_eq_self, bit1]
    rfl
  simp (disch := first | omega | assumption) only [decodeFx, e0]
  simp (disch := first | omega | assumption) only [wFx, fd, fa, fb, fld_FI_d, fld_FI_a, fld_FI_b, fld_FI_slot, fld_FI_xs, Nat.sub_self, BitVec.extractLsb'_eq_self]
theorem Sys2Proof.Laws.RoundTrip.fxC (slot vd va vb xs : Reg) : Statement (.fxC slot vd va vb xs) := by
  intro w he hw
  obtain rfl := Option.some.inj (he : some (wFxC slot vd va vb xs) = some w)
  rw [decode_2C (by simp (disch := omega) only [wFxC, fld_FI_maj, Nat.sub_self, BitVec.extractLsb'_eq_self])]
  have e0 : ((fld (wFxC slot vd va vb xs) 5 1 : BitVec 1)).toNat = 1 := by
    simp (disch := omega) only [wFxC, fld_FI_c, Nat.sub_self, BitVec.extractLsb'_eq_self, bit1]
    rfl
  simp (disch := first | omega | assumption) only [decodeFx, e0]
  simp (disch := first | omega | assumption) only [wFxC, fd, fa, fb, fld_FI_d, fld_FI_a, fld_FI_b, fld_FI_slot, fld_FI_xs, Nat.sub_self, BitVec.extractLsb'_eq_self]
theorem Sys2Proof.Laws.RoundTrip.fxbind (d a b : Reg) : Statement (.fxbind d a b) := by
  intro w he hw
  obtain rfl := Option.some.inj (he : some (wFxbind d a b) = some w)
  rw [decode_2D (by simp (disch := omega) only [wFxbind, fld_RRR_maj, Nat.sub_self, BitVec.extractLsb'_eq_self])]
  have e0 : ((fld (wFxbind d a b) 0 11 : BitVec 11)).toNat = 0 := by
    simp (disch := omega) only [wFxbind, fld_RRR_fn, BitVec.extractLsb'_eq_self]
    rfl
  simp (disch := first | omega | assumption) only [decodeFxc, e0]
  simp (disch := first | omega | assumption) only [wFxbind, fd, fa, fb, fld_RRR_d, fld_RRR_a, fld_RRR_b, Nat.sub_self, BitVec.extractLsb'_eq_self]
theorem Sys2Proof.Laws.RoundTrip.fxunbind (a : Reg) : Statement (.fxunbind a) := by
  intro w he hw
  obtain rfl := Option.some.inj (he : some (wFxunbind a) = some w)
  rw [decode_2D (by simp (disch := omega) only [wFxunbind, fld_RRR_maj, Nat.sub_self, BitVec.extractLsb'_eq_self])]
  have e0 : ((fld (wFxunbind a) 0 11 : BitVec 11)).toNat = 1 := by
    simp (disch := omega) only [wFxunbind, fld_RRR_fn, BitVec.extractLsb'_eq_self]
    rfl
  simp (disch := first | omega | assumption) only [decodeFxc, e0]
  simp (disch := first | omega | assumption) only [wFxunbind, fd, fa, fb, fld_RRR_d, fld_RRR_a, fld_RRR_b, Nat.sub_self, BitVec.extractLsb'_eq_self, zero_zero, bind, Except.bind, pure, Except.pure]
theorem Sys2Proof.Laws.RoundTrip.fxstat (d a : Reg) : Statement (.fxstat d a) := by
  intro w he hw
  obtain rfl := Option.some.inj (he : some (wFxstat d a) = some w)
  rw [decode_2D (by simp (disch := omega) only [wFxstat, fld_RRR_maj, Nat.sub_self, BitVec.extractLsb'_eq_self])]
  have e0 : ((fld (wFxstat d a) 0 11 : BitVec 11)).toNat = 2 := by
    simp (disch := omega) only [wFxstat, fld_RRR_fn, BitVec.extractLsb'_eq_self]
    rfl
  simp (disch := first | omega | assumption) only [decodeFxc, e0]
  simp (disch := first | omega | assumption) only [wFxstat, fd, fa, fb, fld_RRR_d, fld_RRR_a, fld_RRR_b, Nat.sub_self, BitVec.extractLsb'_eq_self, zero_zero, bind, Except.bind, pure, Except.pure]
theorem Sys2Proof.Laws.RoundTrip.fxquery (d a b : Reg) : Statement (.fxquery d a b) := by
  intro w he hw
  obtain rfl := Option.some.inj (he : some (wFxquery d a b) = some w)
  rw [decode_2D (by simp (disch := omega) only [wFxquery, fld_RRR_maj, Nat.sub_self, BitVec.extractLsb'_eq_self])]
  have e0 : ((fld (wFxquery d a b) 0 11 : BitVec 11)).toNat = 3 := by
    simp (disch := omega) only [wFxquery, fld_RRR_fn, BitVec.extractLsb'_eq_self]
    rfl
  simp (disch := first | omega | assumption) only [decodeFxc, e0]
  simp (disch := first | omega | assumption) only [wFxquery, fd, fa, fb, fld_RRR_d, fld_RRR_a, fld_RRR_b, Nat.sub_self, BitVec.extractLsb'_eq_self]
theorem Sys2Proof.Laws.RoundTrip.fxpin (d a : Reg) : Statement (.fxpin d a) := by
  intro w he hw
  obtain rfl := Option.some.inj (he : some (wFxpin d a) = some w)
  rw [decode_2D (by simp (disch := omega) only [wFxpin, fld_RRR_maj, Nat.sub_self, BitVec.extractLsb'_eq_self])]
  have e0 : ((fld (wFxpin d a) 0 11 : BitVec 11)).toNat = 4 := by
    simp (disch := omega) only [wFxpin, fld_RRR_fn, BitVec.extractLsb'_eq_self]
    rfl
  simp (disch := first | omega | assumption) only [decodeFxc, e0]
  simp (disch := first | omega | assumption) only [wFxpin, fd, fa, fb, fld_RRR_d, fld_RRR_a, fld_RRR_b, Nat.sub_self, BitVec.extractLsb'_eq_self, zero_zero, bind, Except.bind, pure, Except.pure]
theorem Sys2Proof.Laws.RoundTrip.fxunpin (a : Reg) : Statement (.fxunpin a) := by
  intro w he hw
  obtain rfl := Option.some.inj (he : some (wFxunpin a) = some w)
  rw [decode_2D (by simp (disch := omega) only [wFxunpin, fld_RRR_maj, Nat.sub_self, BitVec.extractLsb'_eq_self])]
  have e0 : ((fld (wFxunpin a) 0 11 : BitVec 11)).toNat = 5 := by
    simp (disch := omega) only [wFxunpin, fld_RRR_fn, BitVec.extractLsb'_eq_self]
    rfl
  simp (disch := first | omega | assumption) only [decodeFxc, e0]
  simp (disch := first | omega | assumption) only [wFxunpin, fd, fa, fb, fld_RRR_d, fld_RRR_a, fld_RRR_b, Nat.sub_self, BitVec.extractLsb'_eq_self, zero_zero, bind, Except.bind, pure, Except.pure]
theorem Sys2Proof.Laws.RoundTrip.recv (d a : Reg) : Statement (.recv d a) := by
  intro w he hw
  obtain rfl := Option.some.inj (he : some (wRecv d a) = some w)
  rw [decode_2E (by simp (disch := omega) only [wRecv, fld_RRR_maj, Nat.sub_self, BitVec.extractLsb'_eq_self])]
  have e0 : ((fld (wRecv d a) 0 11 : BitVec 11)).toNat = 0 := by
    simp (disch := omega) only [wRecv, fld_RRR_fn, BitVec.extractLsb'_eq_self]
    rfl
  simp (disch := first | omega | assumption) only [decodeLink, e0]
  simp (disch := first | omega | assumption) only [wRecv, fd, fa, fb, fld_RRR_d, fld_RRR_a, fld_RRR_b, Nat.sub_self, BitVec.extractLsb'_eq_self, zero_zero, bind, Except.bind, pure, Except.pure]
theorem Sys2Proof.Laws.RoundTrip.send (d a : Reg) : Statement (.send d a) := by
  intro w he hw
  obtain rfl := Option.some.inj (he : some (wSend d a) = some w)
  rw [decode_2E (by simp (disch := omega) only [wSend, fld_RRR_maj, Nat.sub_self, BitVec.extractLsb'_eq_self])]
  have e0 : ((fld (wSend d a) 0 11 : BitVec 11)).toNat = 1 := by
    simp (disch := omega) only [wSend, fld_RRR_fn, BitVec.extractLsb'_eq_self]
    rfl
  have e1 : ((fb (wSend d a) : BitVec 5)).toNat = 0 := by
    simp (disch := omega) only [wSend, fb, fld_RRR_b, Nat.sub_self, BitVec.extractLsb'_eq_self]
    rfl
  simp (disch := first | omega | assumption) only [decodeLink, e0, e1]
  simp (disch := first | omega | assumption) only [wSend, fd, fa, fb, fld_RRR_d, fld_RRR_a, fld_RRR_b, Nat.sub_self, BitVec.extractLsb'_eq_self, zero_zero, bind, Except.bind, pure, Except.pure]
theorem Sys2Proof.Laws.RoundTrip.sendE (d a : Reg) : Statement (.sendE d a) := by
  intro w he hw
  obtain rfl := Option.some.inj (he : some (wSendE d a) = some w)
  rw [decode_2E (by simp (disch := omega) only [wSendE, fld_RRR_maj, Nat.sub_self, BitVec.extractLsb'_eq_self])]
  have e0 : ((fld (wSendE d a) 0 11 : BitVec 11)).toNat = 1 := by
    simp (disch := omega) only [wSendE, fld_RRR_fn, BitVec.extractLsb'_eq_self]
    rfl
  have e1 : ((fb (wSendE d a) : BitVec 5)).toNat = 1 := by
    simp (disch := omega) only [wSendE, fb, fld_RRR_b, Nat.sub_self, BitVec.extractLsb'_eq_self]
    rfl
  simp (disch := first | omega | assumption) only [decodeLink, e0, e1]
  simp (disch := first | omega | assumption) only [wSendE, fd, fa, fb, fld_RRR_d, fld_RRR_a, fld_RRR_b, Nat.sub_self, BitVec.extractLsb'_eq_self, need_true, beq_self_eq_true, bind, Except.bind, pure, Except.pure]
theorem Sys2Proof.Laws.RoundTrip.steer (d a b : Reg) : Statement (.steer d a b) := by
  intro w he hw
  obtain rfl := Option.some.inj (he : some (wSteer d a b) = some w)
  rw [decode_2E (by simp (disch := omega) only [wSteer, fld_RRR_maj, Nat.sub_self, BitVec.extractLsb'_eq_self])]
  have e0 : ((fld (wSteer d a b) 0 11 : BitVec 11)).toNat = 2 := by
    simp (disch := omega) only [wSteer, fld_RRR_fn, BitVec.extractLsb'_eq_self]
    rfl
  simp (disch := first | omega | assumption) only [decodeLink, e0]
  simp (disch := first | omega | assumption) only [wSteer, fd, fa, fb, fld_RRR_d, fld_RRR_a, fld_RRR_b, Nat.sub_self, BitVec.extractLsb'_eq_self]
theorem Sys2Proof.Laws.RoundTrip.merge (d a b : Reg) : Statement (.merge d a b) := by
  intro w he hw
  obtain rfl := Option.some.inj (he : some (wMerge d a b) = some w)
  rw [decode_2E (by simp (disch := omega) only [wMerge, fld_RRR_maj, Nat.sub_self, BitVec.extractLsb'_eq_self])]
  have e0 : ((fld (wMerge d a b) 0 11 : BitVec 11)).toNat = 3 := by
    simp (disch := omega) only [wMerge, fld_RRR_fn, BitVec.extractLsb'_eq_self]
    rfl
  simp (disch := first | omega | assumption) only [decodeLink, e0]
  simp (disch := first | omega | assumption) only [wMerge, fd, fa, fb, fld_RRR_d, fld_RRR_a, fld_RRR_b, Nat.sub_self, BitVec.extractLsb'_eq_self]
theorem Sys2Proof.Laws.RoundTrip.prime (d a : Reg) : Statement (.prime d a) := by
  intro w he hw
  obtain rfl := Option.some.inj (he : some (wPrime d a) = some w)
  rw [decode_2E (by simp (disch := omega) only [wPrime, fld_RRR_maj, Nat.sub_self, BitVec.extractLsb'_eq_self])]
  have e0 : ((fld (wPrime d a) 0 11 : BitVec 11)).toNat = 4 := by
    simp (disch := omega) only [wPrime, fld_RRR_fn, BitVec.extractLsb'_eq_self]
    rfl
  simp (disch := first | omega | assumption) only [decodeLink, e0]
  simp (disch := first | omega | assumption) only [wPrime, fd, fa, fb, fld_RRR_d, fld_RRR_a, fld_RRR_b, Nat.sub_self, BitVec.extractLsb'_eq_self, zero_zero, bind, Except.bind, pure, Except.pure]
theorem Sys2Proof.Laws.RoundTrip.tokw (a : Reg) : Statement (.tokw a) := by
  intro w he hw
  obtain rfl := Option.some.inj (he : some (wTokw a) = some w)
  rw [decode_2E (by simp (disch := omega) only [wTokw, fld_RRR_maj, Nat.sub_self, BitVec.extractLsb'_eq_self])]
  have e0 : ((fld (wTokw a) 0 11 : BitVec 11)).toNat = 5 := by
    simp (disch := omega) only [wTokw, fld_RRR_fn, BitVec.extractLsb'_eq_self]
    rfl
  simp (disch := first | omega | assumption) only [decodeLink, e0]
  simp (disch := first | omega | assumption) only [wTokw, fd, fa, fb, fld_RRR_d, fld_RRR_a, fld_RRR_b, Nat.sub_self, BitVec.extractLsb'_eq_self, zero_zero, bind, Except.bind, pure, Except.pure]
theorem Sys2Proof.Laws.RoundTrip.toks (d : Reg) : Statement (.toks d) := by
  intro w he hw
  obtain rfl := Option.some.inj (he : some (wToks d) = some w)
  rw [decode_2E (by simp (disch := omega) only [wToks, fld_RRR_maj, Nat.sub_self, BitVec.extractLsb'_eq_self])]
  have e0 : ((fld (wToks d) 0 11 : BitVec 11)).toNat = 6 := by
    simp (disch := omega) only [wToks, fld_RRR_fn, BitVec.extractLsb'_eq_self]
    rfl
  simp (disch := first | omega | assumption) only [decodeLink, e0]
  simp (disch := first | omega | assumption) only [wToks, fd, fa, fb, fld_RRR_d, fld_RRR_a, fld_RRR_b, Nat.sub_self, BitVec.extractLsb'_eq_self, zero_zero, bind, Except.bind, pure, Except.pure]
theorem Sys2Proof.Laws.RoundTrip.lpeek (d a : Reg) : Statement (.lpeek d a) := by
  intro w he hw
  obtain rfl := Option.some.inj (he : some (wLpeek d a) = some w)
  rw [decode_2E (by simp (disch := omega) only [wLpeek, fld_RRR_maj, Nat.sub_self, BitVec.extractLsb'_eq_self])]
  have e0 : ((fld (wLpeek d a) 0 11 : BitVec 11)).toNat = 7 := by
    simp (disch := omega) only [wLpeek, fld_RRR_fn, BitVec.extractLsb'_eq_self]
    rfl
  simp (disch := first | omega | assumption) only [decodeLink, e0]
  simp (disch := first | omega | assumption) only [wLpeek, fd, fa, fb, fld_RRR_d, fld_RRR_a, fld_RRR_b, Nat.sub_self, BitVec.extractLsb'_eq_self, zero_zero, bind, Except.bind, pure, Except.pure]
theorem Sys2Proof.Laws.RoundTrip.cpy1d (d a b : Reg) : Statement (.cpy1d d a b) := by
  intro w he hw
  obtain rfl := Option.some.inj (he : some (wCpy1d d a b) = some w)
  rw [decode_30 (by simp (disch := omega) only [wCpy1d, fld_RRR_maj, Nat.sub_self, BitVec.extractLsb'_eq_self])]
  have e0 : ((fld (wCpy1d d a b) 0 11 : BitVec 11)).toNat = 0 := by
    simp (disch := omega) only [wCpy1d, fld_RRR_fn, BitVec.extractLsb'_eq_self]
    rfl
  simp (disch := first | omega | assumption) only [decodeCpy, e0]
  simp (disch := first | omega | assumption) only [wCpy1d, fd, fa, fb, fld_RRR_d, fld_RRR_a, fld_RRR_b, Nat.sub_self, BitVec.extractLsb'_eq_self]
theorem Sys2Proof.Laws.RoundTrip.cpybox (d a b : Reg) : Statement (.cpybox d a b) := by
  intro w he hw
  obtain rfl := Option.some.inj (he : some (wCpybox d a b) = some w)
  rw [decode_30 (by simp (disch := omega) only [wCpybox, fld_RRR_maj, Nat.sub_self, BitVec.extractLsb'_eq_self])]
  have e0 : ((fld (wCpybox d a b) 0 11 : BitVec 11)).toNat = 1 := by
    simp (disch := omega) only [wCpybox, fld_RRR_fn, BitVec.extractLsb'_eq_self]
    rfl
  simp (disch := first | omega | assumption) only [decodeCpy, e0]
  simp (disch := first | omega | assumption) only [wCpybox, fd, fa, fb, fld_RRR_d, fld_RRR_a, fld_RRR_b, Nat.sub_self, BitVec.extractLsb'_eq_self]
theorem Sys2Proof.Laws.RoundTrip.cpyfill (d a b : Reg) : Statement (.cpyfill d a b) := by
  intro w he hw
  obtain rfl := Option.some.inj (he : some (wCpyfill d a b) = some w)
  rw [decode_30 (by simp (disch := omega) only [wCpyfill, fld_RRR_maj, Nat.sub_self, BitVec.extractLsb'_eq_self])]
  have e0 : ((fld (wCpyfill d a b) 0 11 : BitVec 11)).toNat = 2 := by
    simp (disch := omega) only [wCpyfill, fld_RRR_fn, BitVec.extractLsb'_eq_self]
    rfl
  simp (disch := first | omega | assumption) only [decodeCpy, e0]
  simp (disch := first | omega | assumption) only [wCpyfill, fd, fa, fb, fld_RRR_d, fld_RRR_a, fld_RRR_b, Nat.sub_self, BitVec.extractLsb'_eq_self]
theorem Sys2Proof.Laws.RoundTrip.cwait (a b : Reg) : Statement (.cwait a b) := by
  intro w he hw
  obtain rfl := Option.some.inj (he : some (wCwait a b) = some w)
  rw [decode_30 (by simp (disch := omega) only [wCwait, fld_RRR_maj, Nat.sub_self, BitVec.extractLsb'_eq_self])]
  have e0 : ((fld (wCwait a b) 0 11 : BitVec 11)).toNat = 3 := by
    simp (disch := omega) only [wCwait, fld_RRR_fn, BitVec.extractLsb'_eq_self]
    rfl
  simp (disch := first | omega | assumption) only [decodeCpy, e0]
  simp (disch := first | omega | assumption) only [wCwait, fd, fa, fb, fld_RRR_d, fld_RRR_a, fld_RRR_b, Nat.sub_self, BitVec.extractLsb'_eq_self, zero_zero, bind, Except.bind, pure, Except.pure]
theorem Sys2Proof.Laws.RoundTrip.cstat (d a : Reg) : Statement (.cstat d a) := by
  intro w he hw
  obtain rfl := Option.some.inj (he : some (wCstat d a) = some w)
  rw [decode_30 (by simp (disch := omega) only [wCstat, fld_RRR_maj, Nat.sub_self, BitVec.extractLsb'_eq_self])]
  have e0 : ((fld (wCstat d a) 0 11 : BitVec 11)).toNat = 4 := by
    simp (disch := omega) only [wCstat, fld_RRR_fn, BitVec.extractLsb'_eq_self]
    rfl
  simp (disch := first | omega | assumption) only [decodeCpy, e0]
  simp (disch := first | omega | assumption) only [wCstat, fd, fa, fb, fld_RRR_d, fld_RRR_a, fld_RRR_b, Nat.sub_self, BitVec.extractLsb'_eq_self, zero_zero, bind, Except.bind, pure, Except.pure]
theorem Sys2Proof.Laws.RoundTrip.cpyarm (a b : Reg) : Statement (.cpyarm a b) := by
  intro w he hw
  obtain rfl := Option.some.inj (he : some (wCpyarm a b) = some w)
  rw [decode_30 (by simp (disch := omega) only [wCpyarm, fld_RRR_maj, Nat.sub_self, BitVec.extractLsb'_eq_self])]
  have e0 : ((fld (wCpyarm a b) 0 11 : BitVec 11)).toNat = 5 := by
    simp (disch := omega) only [wCpyarm, fld_RRR_fn, BitVec.extractLsb'_eq_self]
    rfl
  simp (disch := first | omega | assumption) only [decodeCpy, e0]
  simp (disch := first | omega | assumption) only [wCpyarm, fd, fa, fb, fld_RRR_d, fld_RRR_a, fld_RRR_b, Nat.sub_self, BitVec.extractLsb'_eq_self, zero_zero, bind, Except.bind, pure, Except.pure]
theorem Sys2Proof.Laws.RoundTrip.fence (kinds : BitVec 5) (sc : Scope) : Statement (.fence kinds sc) := by
  intro w he hw
  obtain rfl := Option.some.inj (he : some (wFence kinds sc) = some w)
  rw [decode_31 (by simp (disch := omega) only [wFence, fld_RRR_maj, Nat.sub_self, BitVec.extractLsb'_eq_self])]
  have e0 : ((fld (wFence kinds sc) 0 4 : BitVec 4)).toNat = 0 := by
    simp (disch := omega) only [wFence, fld_RRR_fn, fn_sync_op4]
    rfl
  simp (disch := first | omega | assumption) only [decodeSync, e0]
  simp (disch := first | omega | assumption) only [wFence, fd, fa, fb, fld_RRR_d, fld_RRR_a, fld_RRR_b, fld_RRR_fn, fn_sync_zero4, fn_sync_sc, scopeOf_code, Nat.sub_self, BitVec.extractLsb'_eq_self, need_true, zero_zero, beq_self_eq_true, bind, Except.bind, pure, Except.pure]
theorem Sys2Proof.Laws.RoundTrip.barinit (d a b : Reg) : Statement (.barinit d a b) := by
  intro w he hw
  obtain rfl := Option.some.inj (he : some (wBarinit d a b) = some w)
  rw [decode_31 (by simp (disch := omega) only [wBarinit, fld_RRR_maj, Nat.sub_self, BitVec.extractLsb'_eq_self])]
  have e0 : ((fld (wBarinit d a b) 0 4 : BitVec 4)).toNat = 1 := by
    simp (disch := omega) only [wBarinit, fld_RRR_fn]
    rfl
  simp (disch := first | omega | assumption) only [decodeSync, e0]
  simp (disch := first | omega | assumption) only [wBarinit, fd, fa, fb, fld_RRR_d, fld_RRR_a, fld_RRR_b, fld_RRR_fn, Nat.sub_self, BitVec.extractLsb'_eq_self, bind, Except.bind, pure, Except.pure]
  rfl
theorem Sys2Proof.Laws.RoundTrip.barrive (d a b : Reg) : Statement (.barrive d a b) := by
  intro w he hw
  obtain rfl := Option.some.inj (he : some (wBarrive d a b) = some w)
  rw [decode_31 (by simp (disch := omega) only [wBarrive, fld_RRR_maj, Nat.sub_self, BitVec.extractLsb'_eq_self])]
  have e0 : ((fld (wBarrive d a b) 0 4 : BitVec 4)).toNat = 2 := by
    simp (disch := omega) only [wBarrive, fld_RRR_fn]
    rfl
  simp (disch := first | omega | assumption) only [decodeSync, e0]
  simp (disch := first | omega | assumption) only [wBarrive, fd, fa, fb, fld_RRR_d, fld_RRR_a, fld_RRR_b, fld_RRR_fn, Nat.sub_self, BitVec.extractLsb'_eq_self, bind, Except.bind, pure, Except.pure]
  rfl
theorem Sys2Proof.Laws.RoundTrip.barwait (a b : Reg) : Statement (.barwait a b) := by
  intro w he hw
  obtain rfl := Option.some.inj (he : some (wBarwait a b) = some w)
  rw [decode_31 (by simp (disch := omega) only [wBarwait, fld_RRR_maj, Nat.sub_self, BitVec.extractLsb'_eq_self])]
  have e0 : ((fld (wBarwait a b) 0 4 : BitVec 4)).toNat = 3 := by
    simp (disch := omega) only [wBarwait, fld_RRR_fn]
    rfl
  simp (disch := first | omega | assumption) only [decodeSync, e0]
  simp (disch := first | omega | assumption) only [wBarwait, fd, fa, fb, fld_RRR_d, fld_RRR_a, fld_RRR_b, fld_RRR_fn, Nat.sub_self, BitVec.extractLsb'_eq_self, zero_zero, bind, Except.bind, pure, Except.pure]
  rfl
theorem Sys2Proof.Laws.RoundTrip.barpoll (d a : Reg) : Statement (.barpoll d a) := by
  intro w he hw
  obtain rfl := Option.some.inj (he : some (wBarpoll d a) = some w)
  rw [decode_31 (by simp (disch := omega) only [wBarpoll, fld_RRR_maj, Nat.sub_self, BitVec.extractLsb'_eq_self])]
  have e0 : ((fld (wBarpoll d a) 0 4 : BitVec 4)).toNat = 4 := by
    simp (disch := omega) only [wBarpoll, fld_RRR_fn]
    rfl
  simp (disch := first | omega | assumption) only [decodeSync, e0]
  simp (disch := first | omega | assumption) only [wBarpoll, fd, fa, fb, fld_RRR_d, fld_RRR_a, fld_RRR_b, fld_RRR_fn, Nat.sub_self, BitVec.extractLsb'_eq_self, zero_zero, bind, Except.bind, pure, Except.pure]
  rfl
theorem Sys2Proof.Laws.RoundTrip.hbeat : Statement (.hbeat) := by
  intro w he hw
  obtain rfl := Option.some.inj (he : some (wHbeat) = some w)
  rw [decode_31 (by simp (disch := omega) only [wHbeat, fld_RRR_maj, Nat.sub_self, BitVec.extractLsb'_eq_self])]
  have e0 : ((fld (wHbeat) 0 4 : BitVec 4)).toNat = 5 := by
    simp (disch := omega) only [wHbeat, fld_RRR_fn]
    rfl
  simp (disch := first | omega | assumption) only [decodeSync, e0]
  simp (disch := first | omega | assumption) only [wHbeat, fd, fa, fb, fld_RRR_d, fld_RRR_a, fld_RRR_b, fld_RRR_fn, Nat.sub_self, BitVec.extractLsb'_eq_self, zero_zero, bind, Except.bind, pure, Except.pure]
  rfl
theorem Sys2Proof.Laws.RoundTrip.uien (d a : Reg) : Statement (.uien d a) := by
  intro w he hw
  obtain rfl := Option.some.inj (he : some (wUien d a) = some w)
  rw [decode_31 (by simp (disch := omega) only [wUien, fld_RRR_maj, Nat.sub_self, BitVec.extractLsb'_eq_self])]
  have e0 : ((fld (wUien d a) 0 4 : BitVec 4)).toNat = 6 := by
    simp (disch := omega) only [wUien, fld_RRR_fn]
    rfl
  simp (disch := first | omega | assumption) only [decodeSync, e0]
  simp (disch := first | omega | assumption) only [wUien, fd, fa, fb, fld_RRR_d, fld_RRR_a, fld_RRR_b, fld_RRR_fn, Nat.sub_self, BitVec.extractLsb'_eq_self, zero_zero, bind, Except.bind, pure, Except.pure]
  rfl
theorem Sys2Proof.Laws.RoundTrip.uidis (d a : Reg) : Statement (.uidis d a) := by
  intro w he hw
  obtain rfl := Option.some.inj (he : some (wUidis d a) = some w)
  rw [decode_31 (by simp (disch := omega) only [wUidis, fld_RRR_maj, Nat.sub_self, BitVec.extractLsb'_eq_self])]
  have e0 : ((fld (wUidis d a) 0 4 : BitVec 4)).toNat = 7 := by
    simp (disch := omega) only [wUidis, fld_RRR_fn]
    rfl
  simp (disch := first | omega | assumption) only [decodeSync, e0]
  simp (disch := first | omega | assumption) only [wUidis, fd, fa, fb, fld_RRR_d, fld_RRR_a, fld_RRR_b, fld_RRR_fn, Nat.sub_self, BitVec.extractLsb'_eq_self, zero_zero, bind, Except.bind, pure, Except.pure]
  rfl
theorem Sys2Proof.Laws.RoundTrip.yield : Statement (.yield) := by
  intro w he hw
  obtain rfl := Option.some.inj (he : some (wYield) = some w)
  rw [decode_31 (by simp (disch := omega) only [wYield, fld_RRR_maj, Nat.sub_self, BitVec.extractLsb'_eq_self])]
  have e0 : ((fld (wYield) 0 4 : BitVec 4)).toNat = 8 := by
    simp (disch := omega) only [wYield, fld_RRR_fn]
    rfl
  simp (disch := first | omega | assumption) only [decodeSync, e0]
  simp (disch := first | omega | assumption) only [wYield, fd, fa, fb, fld_RRR_d, fld_RRR_a, fld_RRR_b, fld_RRR_fn, Nat.sub_self, BitVec.extractLsb'_eq_self, zero_zero, bind, Except.bind, pure, Except.pure]
  rfl
theorem Sys2Proof.Laws.RoundTrip.tspawn (d a : Reg) : Statement (.tspawn d a) := by
  intro w he hw
  obtain rfl := Option.some.inj (he : some (wTspawn d a) = some w)
  rw [decode_32 (by simp (disch := omega) only [wTspawn, fld_RRR_maj, Nat.sub_self, BitVec.extractLsb'_eq_self])]
  have e0 : ((fld (wTspawn d a) 0 11 : BitVec 11)).toNat = 0 := by
    simp (disch := omega) only [wTspawn, fld_RRR_fn, BitVec.extractLsb'_eq_self]
    rfl
  simp (disch := first | omega | assumption) only [decodeTask, e0]
  simp (disch := first | omega | assumption) only [wTspawn, fd, fa, fb, fld_RRR_d, fld_RRR_a, fld_RRR_b, Nat.sub_self, BitVec.extractLsb'_eq_self, zero_zero, bind, Except.bind, pure, Except.pure]
theorem Sys2Proof.Laws.RoundTrip.trun (d a b : Reg) : Statement (.trun d a b) := by
  intro w he hw
  obtain rfl := Option.some.inj (he : some (wTrun d a b) = some w)
  rw [decode_32 (by simp (disch := omega) only [wTrun, fld_RRR_maj, Nat.sub_self, BitVec.extractLsb'_eq_self])]
  have e0 : ((fld (wTrun d a b) 0 11 : BitVec 11)).toNat = 1 := by
    simp (disch := omega) only [wTrun, fld_RRR_fn, BitVec.extractLsb'_eq_self]
    rfl
  simp (disch := first | omega | assumption) only [decodeTask, e0]
  simp (disch := first | omega | assumption) only [wTrun, fd, fa, fb, fld_RRR_d, fld_RRR_a, fld_RRR_b, Nat.sub_self, BitVec.extractLsb'_eq_self]
theorem Sys2Proof.Laws.RoundTrip.tdone : Statement (.tdone) := by
  intro w he hw
  obtain rfl := Option.some.inj (he : some (wTdone) = some w)
  rw [decode_32 (by simp (disch := omega) only [wTdone, fld_RRR_maj, Nat.sub_self, BitVec.extractLsb'_eq_self])]
  have e0 : ((fld (wTdone) 0 11 : BitVec 11)).toNat = 2 := by
    simp (disch := omega) only [wTdone, fld_RRR_fn, BitVec.extractLsb'_eq_self]
    rfl
  simp (disch := first | omega | assumption) only [decodeTask, e0]
  simp (disch := first | omega | assumption) only [wTdone, fd, fa, fb, fld_RRR_d, fld_RRR_a, fld_RRR_b, Nat.sub_self, BitVec.extractLsb'_eq_self, zero_zero, bind, Except.bind, pure, Except.pure]
theorem Sys2Proof.Laws.RoundTrip.tfut (d a : Reg) : Statement (.tfut d a) := by
  intro w he hw
  obtain rfl := Option.some.inj (he : some (wTfut d a) = some w)
  rw [decode_32 (by simp (disch := omega) only [wTfut, fld_RRR_maj, Nat.sub_self, BitVec.extractLsb'_eq_self])]
  have e0 : ((fld (wTfut d a) 0 11 : BitVec 11)).toNat = 3 := by
    simp (disch := omega) only [wTfut, fld_RRR_fn, BitVec.extractLsb'_eq_self]
    rfl
  simp (disch := first | omega | assumption) only [decodeTask, e0]
  simp (disch := first | omega | assumption) only [wTfut, fd, fa, fb, fld_RRR_d, fld_RRR_a, fld_RRR_b, Nat.sub_self, BitVec.extractLsb'_eq_self, zero_zero, bind, Except.bind, pure, Except.pure]
theorem Sys2Proof.Laws.RoundTrip.tfset (a b : Reg) : Statement (.tfset a b) := by
  intro w he hw
  obtain rfl := Option.some.inj (he : some (wTfset a b) = some w)
  rw [decode_32 (by simp (disch := omega) only [wTfset, fld_RRR_maj, Nat.sub_self, BitVec.extractLsb'_eq_self])]
  have e0 : ((fld (wTfset a b) 0 11 : BitVec 11)).toNat = 4 := by
    simp (disch := omega) only [wTfset, fld_RRR_fn, BitVec.extractLsb'_eq_self]
    rfl
  simp (disch := first | omega | assumption) only [decodeTask, e0]
  simp (disch := first | omega | assumption) only [wTfset, fd, fa, fb, fld_RRR_d, fld_RRR_a, fld_RRR_b, Nat.sub_self, BitVec.extractLsb'_eq_self, zero_zero, bind, Except.bind, pure, Except.pure]
theorem Sys2Proof.Laws.RoundTrip.tfwait (d a : Reg) : Statement (.tfwait d a) := by
  intro w he hw
  obtain rfl := Option.some.inj (he : some (wTfwait d a) = some w)
  rw [decode_32 (by simp (disch := omega) only [wTfwait, fld_RRR_maj, Nat.sub_self, BitVec.extractLsb'_eq_self])]
  have e0 : ((fld (wTfwait d a) 0 11 : BitVec 11)).toNat = 5 := by
    simp (disch := omega) only [wTfwait, fld_RRR_fn, BitVec.extractLsb'_eq_self]
    rfl
  simp (disch := first | omega | assumption) only [decodeTask, e0]
  simp (disch := first | omega | assumption) only [wTfwait, fd, fa, fb, fld_RRR_d, fld_RRR_a, fld_RRR_b, Nat.sub_self, BitVec.extractLsb'_eq_self, zero_zero, bind, Except.bind, pure, Except.pure]
theorem Sys2Proof.Laws.RoundTrip.tqcfg (d a b : Reg) : Statement (.tqcfg d a b) := by
  intro w he hw
  obtain rfl := Option.some.inj (he : some (wTqcfg d a b) = some w)
  rw [decode_32 (by simp (disch := omega) only [wTqcfg, fld_RRR_maj, Nat.sub_self, BitVec.extractLsb'_eq_self])]
  have e0 : ((fld (wTqcfg d a b) 0 11 : BitVec 11)).toNat = 6 := by
    simp (disch := omega) only [wTqcfg, fld_RRR_fn, BitVec.extractLsb'_eq_self]
    rfl
  simp (disch := first | omega | assumption) only [decodeTask, e0]
  simp (disch := first | omega | assumption) only [wTqcfg, fd, fa, fb, fld_RRR_d, fld_RRR_a, fld_RRR_b, Nat.sub_self, BitVec.extractLsb'_eq_self]
theorem Sys2Proof.Laws.RoundTrip.sfarm (d a b : Reg) : Statement (.sfarm d a b) := by
  intro w he hw
  obtain rfl := Option.some.inj (he : some (wSfarm d a b) = some w)
  rw [decode_33 (by simp (disch := omega) only [wSfarm, fld_RRR_maj, Nat.sub_self, BitVec.extractLsb'_eq_self])]
  have e0 : ((fld (wSfarm d a b) 0 11 : BitVec 11)).toNat = 0 := by
    simp (disch := omega) only [wSfarm, fld_RRR_fn, BitVec.extractLsb'_eq_self]
    rfl
  simp (disch := first | omega | assumption) only [decodeSpec, e0]
  simp (disch := first | omega | assumption) only [wSfarm, fd, fa, fb, fld_RRR_d, fld_RRR_a, fld_RRR_b, Nat.sub_self, BitVec.extractLsb'_eq_self]
theorem Sys2Proof.Laws.RoundTrip.spub (d a : Reg) : Statement (.spub d a) := by
  intro w he hw
  obtain rfl := Option.some.inj (he : some (wSpub d a) = some w)
  rw [decode_33 (by simp (disch := omega) only [wSpub, fld_RRR_maj, Nat.sub_self, BitVec.extractLsb'_eq_self])]
  have e0 : ((fld (wSpub d a) 0 11 : BitVec 11)).toNat = 1 := by
    simp (disch := omega) only [wSpub, fld_RRR_fn, BitVec.extractLsb'_eq_self]
    rfl
  simp (disch := first | omega | assumption) only [decodeSpec, e0]
  simp (disch := first | omega | assumption) only [wSpub, fd, fa, fb, fld_RRR_d, fld_RRR_a, fld_RRR_b, Nat.sub_self, BitVec.extractLsb'_eq_self, zero_zero, bind, Except.bind, pure, Except.pure]
theorem Sys2Proof.Laws.RoundTrip.sspawn (d a b : Reg) : Statement (.sspawn d a b) := by
  intro w he hw
  obtain rfl := Option.some.inj (he : some (wSspawn d a b) = some w)
  rw [decode_33 (by simp (disch := omega) only [wSspawn, fld_RRR_maj, Nat.sub_self, BitVec.extractLsb'_eq_self])]
  have e0 : ((fld (wSspawn d a b) 0 11 : BitVec 11)).toNat = 2 := by
    simp (disch := omega) only [wSspawn, fld_RRR_fn, BitVec.extractLsb'_eq_self]
    rfl
  simp (disch := first | omega | assumption) only [decodeSpec, e0]
  simp (disch := first | omega | assumption) only [wSspawn, fd, fa, fb, fld_RRR_d, fld_RRR_a, fld_RRR_b, Nat.sub_self, BitVec.extractLsb'_eq_self]
theorem Sys2Proof.Laws.RoundTrip.sstat (d a : Reg) : Statement (.sstat d a) := by
  intro w he hw
  obtain rfl := Option.some.inj (he : some (wSstat d a) = some w)
  rw [decode_33 (by simp (disch := omega) only [wSstat, fld_RRR_maj, Nat.sub_self, BitVec.extractLsb'_eq_self])]
  have e0 : ((fld (wSstat d a) 0 11 : BitVec 11)).toNat = 3 := by
    simp (disch := omega) only [wSstat, fld_RRR_fn, BitVec.extractLsb'_eq_self]
    rfl
  simp (disch := first | omega | assumption) only [decodeSpec, e0]
  simp (disch := first | omega | assumption) only [wSstat, fd, fa, fb, fld_RRR_d, fld_RRR_a, fld_RRR_b, Nat.sub_self, BitVec.extractLsb'_eq_self, zero_zero, bind, Except.bind, pure, Except.pure]
theorem Sys2Proof.Laws.RoundTrip.sabort (d a : Reg) : Statement (.sabort d a) := by
  intro w he hw
  obtain rfl := Option.some.inj (he : some (wSabort d a) = some w)
  rw [decode_33 (by simp (disch := omega) only [wSabort, fld_RRR_maj, Nat.sub_self, BitVec.extractLsb'_eq_self])]
  have e0 : ((fld (wSabort d a) 0 11 : BitVec 11)).toNat = 4 := by
    simp (disch := omega) only [wSabort, fld_RRR_fn, BitVec.extractLsb'_eq_self]
    rfl
  simp (disch := first | omega | assumption) only [decodeSpec, e0]
  simp (disch := first | omega | assumption) only [wSabort, fd, fa, fb, fld_RRR_d, fld_RRR_a, fld_RRR_b, Nat.sub_self, BitVec.extractLsb'_eq_self, zero_zero, bind, Except.bind, pure, Except.pure]
theorem Sys2Proof.Laws.RoundTrip.sqinit (d a : Reg) : Statement (.sqinit d a) := by
  intro w he hw
  obtain rfl := Option.some.inj (he : some (wSqinit d a) = some w)
  rw [decode_34 (by simp (disch := omega) only [wSqinit, fld_RRR_maj, Nat.sub_self, BitVec.extractLsb'_eq_self])]
  have e0 : ((fld (wSqinit d a) 0 11 : BitVec 11)).toNat = 0 := by
    simp (disch := omega) only [wSqinit, fld_RRR_fn, BitVec.extractLsb'_eq_self]
    rfl
  simp (disch := first | omega | assumption) only [decodeSq, e0]
  simp (disch := first | omega | assumption) only [wSqinit, fd, fa, fb, fld_RRR_d, fld_RRR_a, fld_RRR_b, Nat.sub_self, BitVec.extractLsb'_eq_self, zero_zero, bind, Except.bind, pure, Except.pure]
theorem Sys2Proof.Laws.RoundTrip.sqtab (d a : Reg) : Statement (.sqtab d a) := by
  intro w he hw
  obtain rfl := Option.some.inj (he : some (wSqtab d a) = some w)
  rw [decode_34 (by simp (disch := omega) only [wSqtab, fld_RRR_maj, Nat.sub_self, BitVec.extractLsb'_eq_self])]
  have e0 : ((fld (wSqtab d a) 0 11 : BitVec 11)).toNat = 1 := by
    simp (disch := omega) only [wSqtab, fld_RRR_fn, BitVec.extractLsb'_eq_self]
    rfl
  simp (disch := first | omega | assumption) only [decodeSq, e0]
  simp (disch := first | omega | assumption) only [wSqtab, fd, fa, fb, fld_RRR_d, fld_RRR_a, fld_RRR_b, Nat.sub_self, BitVec.extractLsb'_eq_self, zero_zero, bind, Except.bind, pure, Except.pure]
theorem Sys2Proof.Laws.RoundTrip.sqadd (d a : Reg) : Statement (.sqadd d a) := by
  intro w he hw
  obtain rfl := Option.some.inj (he : some (wSqadd d a) = some w)
  rw [decode_34 (by simp (disch := omega) only [wSqadd, fld_RRR_maj, Nat.sub_self, BitVec.extractLsb'_eq_self])]
  have e0 : ((fld (wSqadd d a) 0 11 : BitVec 11)).toNat = 2 := by
    simp (disch := omega) only [wSqadd, fld_RRR_fn, BitVec.extractLsb'_eq_self]
    rfl
  simp (disch := first | omega | assumption) only [decodeSq, e0]
  simp (disch := first | omega | assumption) only [wSqadd, fd, fa, fb, fld_RRR_d, fld_RRR_a, fld_RRR_b, Nat.sub_self, BitVec.extractLsb'_eq_self, zero_zero, bind, Except.bind, pure, Except.pure]
theorem Sys2Proof.Laws.RoundTrip.sqgo (d : Reg) : Statement (.sqgo d) := by
  intro w he hw
  obtain rfl := Option.some.inj (he : some (wSqgo d) = some w)
  rw [decode_34 (by simp (disch := omega) only [wSqgo, fld_RRR_maj, Nat.sub_self, BitVec.extractLsb'_eq_self])]
  have e0 : ((fld (wSqgo d) 0 11 : BitVec 11)).toNat = 3 := by
    simp (disch := omega) only [wSqgo, fld_RRR_fn, BitVec.extractLsb'_eq_self]
    rfl
  simp (disch := first | omega | assumption) only [decodeSq, e0]
  simp (disch := first | omega | assumption) only [wSqgo, fd, fa, fb, fld_RRR_d, fld_RRR_a, fld_RRR_b, Nat.sub_self, BitVec.extractLsb'_eq_self, zero_zero, bind, Except.bind, pure, Except.pure]
theorem Sys2Proof.Laws.RoundTrip.sqstat (d a : Reg) : Statement (.sqstat d a) := by
  intro w he hw
  obtain rfl := Option.some.inj (he : some (wSqstat d a) = some w)
  rw [decode_34 (by simp (disch := omega) only [wSqstat, fld_RRR_maj, Nat.sub_self, BitVec.extractLsb'_eq_self])]
  have e0 : ((fld (wSqstat d a) 0 11 : BitVec 11)).toNat = 4 := by
    simp (disch := omega) only [wSqstat, fld_RRR_fn, BitVec.extractLsb'_eq_self]
    rfl
  simp (disch := first | omega | assumption) only [decodeSq, e0]
  simp (disch := first | omega | assumption) only [wSqstat, fd, fa, fb, fld_RRR_d, fld_RRR_a, fld_RRR_b, Nat.sub_self, BitVec.extractLsb'_eq_self, zero_zero, bind, Except.bind, pure, Except.pure]
theorem Sys2Proof.Laws.RoundTrip.sqend (d : Reg) : Statement (.sqend d) := by
  intro w he hw
  obtain rfl := Option.some.inj (he : some (wSqend d) = some w)
  rw [decode_34 (by simp (disch := omega) only [wSqend, fld_RRR_maj, Nat.sub_self, BitVec.extractLsb'_eq_self])]
  have e0 : ((fld (wSqend d) 0 11 : BitVec 11)).toNat = 5 := by
    simp (disch := omega) only [wSqend, fld_RRR_fn, BitVec.extractLsb'_eq_self]
    rfl
  simp (disch := first | omega | assumption) only [decodeSq, e0]
  simp (disch := first | omega | assumption) only [wSqend, fd, fa, fb, fld_RRR_d, fld_RRR_a, fld_RRR_b, Nat.sub_self, BitVec.extractLsb'_eq_self, zero_zero, bind, Except.bind, pure, Except.pure]
theorem Sys2Proof.Laws.RoundTrip.doorbellWrite (qid : Nat) (tail : BitVec 32) : Statement (.doorbellWrite qid tail) := fun _ h _ => nomatch (h : (none : Option (BitVec 32)) = some _)
theorem Sys2Proof.Laws.RoundTrip.qcmdEnable (qid : Nat) : Statement (.qcmdEnable qid) := fun _ h _ => nomatch (h : (none : Option (BitVec 32)) = some _)
theorem Sys2Proof.Laws.RoundTrip.qcmdDisable (qid : Nat) : Statement (.qcmdDisable qid) := fun _ h _ => nomatch (h : (none : Option (BitVec 32)) = some _)
theorem Sys2Proof.Laws.RoundTrip.qcmdReset (qid : Nat) : Statement (.qcmdReset qid) := fun _ h _ => nomatch (h : (none : Option (BitVec 32)) = some _)
theorem Sys2Proof.Laws.RoundTrip.registerWrite (off : Nat) (v : BitVec 32) : Statement (.registerWrite off v) := fun _ h _ => nomatch (h : (none : Option (BitVec 32)) = some _)
theorem Sys2Proof.Laws.RoundTrip.quantumBoundary : Statement (.quantumBoundary) := fun _ h _ => nomatch (h : (none : Option (BitVec 32)) = some _)
theorem Sys2Proof.Laws.RoundTrip.slotLoadComplete (slot : Nat) : Statement (.slotLoadComplete slot) := fun _ h _ => nomatch (h : (none : Option (BitVec 32)) = some _)
theorem Sys2Proof.Laws.RoundTrip.recordAccept : Statement (.recordAccept) := fun _ h _ => nomatch (h : (none : Option (BitVec 32)) = some _)
theorem Sys2Proof.Laws.RoundTrip.imageCheck (kernel : Nat) : Statement (.imageCheck kernel) := fun _ h _ => nomatch (h : (none : Option (BitVec 32)) = some _)
theorem Sys2Proof.Laws.RoundTrip.depWatchReevaluate (slot : Nat) : Statement (.depWatchReevaluate slot) := fun _ h _ => nomatch (h : (none : Option (BitVec 32)) = some _)
theorem Sys2Proof.Laws.RoundTrip.depPoll (slot : Nat) : Statement (.depPoll slot) := fun _ h _ => nomatch (h : (none : Option (BitVec 32)) = some _)
theorem Sys2Proof.Laws.RoundTrip.kernelCompletion (kernel : Nat) : Statement (.kernelCompletion kernel) := fun _ h _ => nomatch (h : (none : Option (BitVec 32)) = some _)
theorem Sys2Proof.Laws.RoundTrip.placementEvent (die : Nat) : Statement (.placementEvent die) := fun _ h _ => nomatch (h : (none : Option (BitVec 32)) = some _)
theorem Sys2Proof.Laws.RoundTrip.backfillStop (die : Nat) : Statement (.backfillStop die) := fun _ h _ => nomatch (h : (none : Option (BitVec 32)) = some _)
theorem Sys2Proof.Laws.RoundTrip.spiracleGrantWrite (core page : Nat) (second : Bool) (v : BitVec 32) : Statement (.spiracleGrantWrite core page second v) := fun _ h _ => nomatch (h : (none : Option (BitVec 32)) = some _)
theorem Sys2Proof.Laws.RoundTrip.pageMoveEnd (core : Nat) (asid slot : Nat) : Statement (.pageMoveEnd core asid slot) := fun _ h _ => nomatch (h : (none : Option (BitVec 32)) = some _)
theorem Sys2Proof.Laws.RoundTrip.pageContextLoadComplete (strand page : Nat) : Statement (.pageContextLoadComplete strand page) := fun _ h _ => nomatch (h : (none : Option (BitVec 32)) = some _)
theorem Sys2Proof.Laws.RoundTrip.blockFetchComplete (strand cell : Nat) : Statement (.blockFetchComplete strand cell) := fun _ h _ => nomatch (h : (none : Option (BitVec 32)) = some _)
theorem Sys2Proof.Laws.RoundTrip.flitTransfer (strand cell chan : Nat) : Statement (.flitTransfer strand cell chan) := fun _ h _ => nomatch (h : (none : Option (BitVec 32)) = some _)
theorem Sys2Proof.Laws.RoundTrip.streamInputDelivery (strand : Nat) (portB : Bool) : Statement (.streamInputDelivery strand portB) := fun _ h _ => nomatch (h : (none : Option (BitVec 32)) = some _)
theorem Sys2Proof.Laws.RoundTrip.streamOutputTake (strand : Nat) : Statement (.streamOutputTake strand) := fun _ h _ => nomatch (h : (none : Option (BitVec 32)) = some _)
theorem Sys2Proof.Laws.RoundTrip.invocationComplete (strand : Nat) : Statement (.invocationComplete strand) := fun _ h _ => nomatch (h : (none : Option (BitVec 32)) = some _)
theorem Sys2Proof.Laws.RoundTrip.fabricStop (strand : Nat) : Statement (.fabricStop strand) := fun _ h _ => nomatch (h : (none : Option (BitVec 32)) = some _)
theorem Sys2Proof.Laws.RoundTrip.fabricDeadlock (strand : Nat) : Statement (.fabricDeadlock strand) := fun _ h _ => nomatch (h : (none : Option (BitVec 32)) = some _)
theorem Sys2Proof.Laws.RoundTrip.homeRead (core word : Nat) : Statement (.homeRead core word) := fun _ h _ => nomatch (h : (none : Option (BitVec 32)) = some _)
theorem Sys2Proof.Laws.RoundTrip.registration (core word : Nat) : Statement (.registration core word) := fun _ h _ => nomatch (h : (none : Option (BitVec 32)) = some _)
theorem Sys2Proof.Laws.RoundTrip.l1Eviction (core word : Nat) : Statement (.l1Eviction core word) := fun _ h _ => nomatch (h : (none : Option (BitVec 32)) = some _)
theorem Sys2Proof.Laws.RoundTrip.l2Eviction (die sector : Nat) : Statement (.l2Eviction die sector) := fun _ h _ => nomatch (h : (none : Option (BitVec 32)) = some _)
theorem Sys2Proof.Laws.RoundTrip.sectorFill (die sector : Nat) : Statement (.sectorFill die sector) := fun _ h _ => nomatch (h : (none : Option (BitVec 32)) = some _)
theorem Sys2Proof.Laws.RoundTrip.cocoonFill (strand cocoon sector : Nat) : Statement (.cocoonFill strand cocoon sector) := fun _ h _ => nomatch (h : (none : Option (BitVec 32)) = some _)
theorem Sys2Proof.Laws.RoundTrip.requestResend (core word : Nat) : Statement (.requestResend core word) := fun _ h _ => nomatch (h : (none : Option (BitVec 32)) = some _)
theorem Sys2Proof.Laws.RoundTrip.memTimeout (strand : Nat) : Statement (.memTimeout strand) := fun _ h _ => nomatch (h : (none : Option (BitVec 32)) = some _)
theorem Sys2Proof.Laws.RoundTrip.snoopInvalidate (line : Nat) : Statement (.snoopInvalidate line) := fun _ h _ => nomatch (h : (none : Option (BitVec 32)) = some _)
theorem Sys2Proof.Laws.RoundTrip.snoopData (line : Nat) : Statement (.snoopData line) := fun _ h _ => nomatch (h : (none : Option (BitVec 32)) = some _)
theorem Sys2Proof.Laws.RoundTrip.hostHdmRequest (word : Nat) (data : Option (BitVec 32)) : Statement (.hostHdmRequest word data) := fun _ h _ => nomatch (h : (none : Option (BitVec 32)) = some _)
theorem Sys2Proof.Laws.RoundTrip.poolShelfFailure (port base limit : BitVec 32) : Statement (.poolShelfFailure port base limit) := fun _ h _ => nomatch (h : (none : Option (BitVec 32)) = some _)
theorem Sys2Proof.Laws.RoundTrip.lostRangeWithdraw (entry : Nat) : Statement (.lostRangeWithdraw entry) := fun _ h _ => nomatch (h : (none : Option (BitVec 32)) = some _)
theorem Sys2Proof.Laws.RoundTrip.transferComplete (strand chan id : Nat) : Statement (.transferComplete strand chan id) := fun _ h _ => nomatch (h : (none : Option (BitVec 32)) = some _)
theorem Sys2Proof.Laws.RoundTrip.transferFault (strand chan : Nat) : Statement (.transferFault strand chan) := fun _ h _ => nomatch (h : (none : Option (BitVec 32)) = some _)
theorem Sys2Proof.Laws.RoundTrip.linkedPhaseSeen (group barrier : Nat) : Statement (.linkedPhaseSeen group barrier) := fun _ h _ => nomatch (h : (none : Option (BitVec 32)) = some _)
theorem Sys2Proof.Laws.RoundTrip.uiDelivery (strand : Nat) : Statement (.uiDelivery strand) := fun _ h _ => nomatch (h : (none : Option (BitVec 32)) = some _)
theorem Sys2Proof.Laws.RoundTrip.wfeTimeout (strand : Nat) : Statement (.wfeTimeout strand) := fun _ h _ => nomatch (h : (none : Option (BitVec 32)) = some _)
theorem Sys2Proof.Laws.RoundTrip.vwaitWatchMet (strand : Nat) : Statement (.vwaitWatchMet strand) := fun _ h _ => nomatch (h : (none : Option (BitVec 32)) = some _)
theorem Sys2Proof.Laws.RoundTrip.tileZeroComplete (core tile : Nat) : Statement (.tileZeroComplete core tile) := fun _ h _ => nomatch (h : (none : Option (BitVec 32)) = some _)
theorem Sys2Proof.Laws.RoundTrip.scmdPreempt (strand : Nat) : Statement (.scmdPreempt strand) := fun _ h _ => nomatch (h : (none : Option (BitVec 32)) = some _)
theorem Sys2Proof.Laws.RoundTrip.preemptSaveComplete (strand : Nat) : Statement (.preemptSaveComplete strand) := fun _ h _ => nomatch (h : (none : Option (BitVec 32)) = some _)
theorem Sys2Proof.Laws.RoundTrip.scmdRestore (strand : Nat) : Statement (.scmdRestore strand) := fun _ h _ => nomatch (h : (none : Option (BitVec 32)) = some _)
theorem Sys2Proof.Laws.RoundTrip.taskReady (die entry : Nat) : Statement (.taskReady die entry) := fun _ h _ => nomatch (h : (none : Option (BitVec 32)) = some _)
theorem Sys2Proof.Laws.RoundTrip.trunTimeout (strand : Nat) : Statement (.trunTimeout strand) := fun _ h _ => nomatch (h : (none : Option (BitVec 32)) = some _)
theorem Sys2Proof.Laws.RoundTrip.forecastDecision (die slot : Nat) : Statement (.forecastDecision die slot) := fun _ h _ => nomatch (h : (none : Option (BitVec 32)) = some _)
theorem Sys2Proof.Laws.RoundTrip.sqStageLaunch (die : Nat) : Statement (.sqStageLaunch die) := fun _ h _ => nomatch (h : (none : Option (BitVec 32)) = some _)
theorem Sys2Proof.Laws.RoundTrip.sqStageComplete (die : Nat) : Statement (.sqStageComplete die) := fun _ h _ => nomatch (h : (none : Option (BitVec 32)) = some _)
theorem Sys2Proof.Laws.RoundTrip.sqDecision (die : Nat) : Statement (.sqDecision die) := fun _ h _ => nomatch (h : (none : Option (BitVec 32)) = some _)
theorem Sys2Proof.Laws.RoundTrip.heartbeatExpire (kernel : Nat) : Statement (.heartbeatExpire kernel) := fun _ h _ => nomatch (h : (none : Option (BitVec 32)) = some _)
theorem Sys2Proof.Laws.RoundTrip.runtimeExpire (kernel : Nat) : Statement (.runtimeExpire kernel) := fun _ h _ => nomatch (h : (none : Option (BitVec 32)) = some _)
theorem Sys2Proof.Laws.RoundTrip.executiveWatchdog (strand : Nat) : Statement (.executiveWatchdog strand) := fun _ h _ => nomatch (h : (none : Option (BitVec 32)) = some _)
theorem Sys2Proof.Laws.RoundTrip.kcmdResume (self : Option Nat) : Statement (.kcmdResume self) := fun _ h _ => nomatch (h : (none : Option (BitVec 32)) = some _)
theorem Sys2Proof.Laws.RoundTrip.kcmdEnd (self : Option Nat) : Statement (.kcmdEnd self) := fun _ h _ => nomatch (h : (none : Option (BitVec 32)) = some _)
theorem Sys2Proof.Laws.RoundTrip.kcmdCancel (self : Option Nat) : Statement (.kcmdCancel self) := fun _ h _ => nomatch (h : (none : Option (BitVec 32)) = some _)
theorem Sys2Proof.Laws.RoundTrip.kcmdFault (self : Option Nat) : Statement (.kcmdFault self) := fun _ h _ => nomatch (h : (none : Option (BitVec 32)) = some _)
theorem Sys2Proof.Laws.RoundTrip.dbgctlHalt (core : Nat) : Statement (.dbgctlHalt core) := fun _ h _ => nomatch (h : (none : Option (BitVec 32)) = some _)
theorem Sys2Proof.Laws.RoundTrip.dbgctlResume (core : Nat) : Statement (.dbgctlResume core) := fun _ h _ => nomatch (h : (none : Option (BitVec 32)) = some _)
theorem Sys2Proof.Laws.RoundTrip.debugSettleTimeout (core : Nat) : Statement (.debugSettleTimeout core) := fun _ h _ => nomatch (h : (none : Option (BitVec 32)) = some _)
theorem Sys2Proof.Laws.RoundTrip.dbgdloRead (core : Nat) : Statement (.dbgdloRead core) := fun _ h _ => nomatch (h : (none : Option (BitVec 32)) = some _)
theorem Sys2Proof.Laws.RoundTrip.dbgdloWrite (core : Nat) (v : BitVec 32) : Statement (.dbgdloWrite core v) := fun _ h _ => nomatch (h : (none : Option (BitVec 32)) = some _)
theorem Sys2Proof.Laws.RoundTrip.dbgdhiWrite (core : Nat) (v : BitVec 32) : Statement (.dbgdhiWrite core v) := fun _ h _ => nomatch (h : (none : Option (BitVec 32)) = some _)
theorem Sys2Proof.Laws.RoundTrip.strandEnd (strand : Nat) : Statement (.strandEnd strand) := fun _ h _ => nomatch (h : (none : Option (BitVec 32)) = some _)
theorem Sys2Proof.Laws.RoundTrip.resetDeassertion : Statement (.resetDeassertion) := fun _ h _ => nomatch (h : (none : Option (BitVec 32)) = some _)
theorem Sys2Proof.Laws.RoundTrip.bootStageComplete (ok : Bool) : Statement (.bootStageComplete ok) := fun _ h _ => nomatch (h : (none : Option (BitVec 32)) = some _)
theorem Sys2Proof.Laws.RoundTrip.devctlReady : Statement (.devctlReady) := fun _ h _ => nomatch (h : (none : Option (BitVec 32)) = some _)
theorem Sys2Proof.Laws.RoundTrip.atsResponse (strand : Nat) (page : Nat) (entry : Option (BitVec 64)) : Statement (.atsResponse strand page entry) := fun _ h _ => nomatch (h : (none : Option (BitVec 32)) = some _)
theorem Sys2Proof.Laws.RoundTrip.priResponse (strand : Nat) (success : Bool) : Statement (.priResponse strand success) := fun _ h _ => nomatch (h : (none : Option (BitVec 32)) = some _)
theorem Sys2Proof.Laws.RoundTrip.atsInvalidation (pasid page : Nat) (all : Bool) : Statement (.atsInvalidation pasid page all) := fun _ h _ => nomatch (h : (none : Option (BitVec 32)) = some _)
theorem Sys2Proof.Laws.RoundTrip.linkFlitReceive (port : Nat) (flit : BitVec 2048) : Statement (.linkFlitReceive port flit) := fun _ h _ => nomatch (h : (none : Option (BitVec 32)) = some _)
theorem Sys2Proof.Laws.RoundTrip.linkRetrain (port : Nat) : Statement (.linkRetrain port) := fun _ h _ => nomatch (h : (none : Option (BitVec 32)) = some _)
theorem Sys2Proof.Laws.RoundTrip.getVersion : Statement (.getVersion) := fun _ h _ => nomatch (h : (none : Option (BitVec 32)) = some _)
theorem Sys2Proof.Laws.RoundTrip.getCapabilities : Statement (.getCapabilities) := fun _ h _ => nomatch (h : (none : Option (BitVec 32)) = some _)
theorem Sys2Proof.Laws.RoundTrip.negotiateAlgorithms (algorithms : Nat) : Statement (.negotiateAlgorithms algorithms) := fun _ h _ => nomatch (h : (none : Option (BitVec 32)) = some _)
theorem Sys2Proof.Laws.RoundTrip.getDigests : Statement (.getDigests) := fun _ h _ => nomatch (h : (none : Option (BitVec 32)) = some _)
theorem Sys2Proof.Laws.RoundTrip.getCertificate (offset length : Nat) : Statement (.getCertificate offset length) := fun _ h _ => nomatch (h : (none : Option (BitVec 32)) = some _)
theorem Sys2Proof.Laws.RoundTrip.challenge (nonce : BitVec 256) : Statement (.challenge nonce) := fun _ h _ => nomatch (h : (none : Option (BitVec 32)) = some _)
theorem Sys2Proof.Laws.RoundTrip.getMeasurements (index : Nat) : Statement (.getMeasurements index) := fun _ h _ => nomatch (h : (none : Option (BitVec 32)) = some _)
theorem Sys2Proof.Laws.RoundTrip.correctedError (page : Option Nat) : Statement (.correctedError page) := fun _ h _ => nomatch (h : (none : Option (BitVec 32)) = some _)
theorem Sys2Proof.Laws.RoundTrip.uncorrectableError (word : Nat) : Statement (.uncorrectableError word) := fun _ h _ => nomatch (h : (none : Option (BitVec 32)) = some _)
theorem Sys2Proof.Laws.RoundTrip.coreFence (core : Nat) : Statement (.coreFence core) := fun _ h _ => nomatch (h : (none : Option (BitVec 32)) = some _)
theorem Sys2Proof.Laws.RoundTrip.dieFence (die : Nat) : Statement (.dieFence die) := fun _ h _ => nomatch (h : (none : Option (BitVec 32)) = some _)
theorem Sys2Proof.Laws.RoundTrip.selfTestPreempt (core : Nat) : Statement (.selfTestPreempt core) := fun _ h _ => nomatch (h : (none : Option (BitVec 32)) = some _)
theorem Sys2Proof.Laws.RoundTrip.clockLower (thermal : Bool) : Statement (.clockLower thermal) := fun _ h _ => nomatch (h : (none : Option (BitVec 32)) = some _)
theorem Sys2Proof.Laws.RoundTrip.clockRaise : Statement (.clockRaise) := fun _ h _ => nomatch (h : (none : Option (BitVec 32)) = some _)
theorem Sys2Proof.Laws.RoundTrip.thermalShutdown : Statement (.thermalShutdown) := fun _ h _ => nomatch (h : (none : Option (BitVec 32)) = some _)
theorem Sys2Proof.Laws.RoundTrip.notAnInstruction (word : BitVec 32) : Statement (.notAnInstruction word) := fun _ h _ => nomatch (h : (none : Option (BitVec 32)) = some _)
theorem Sys2Proof.Laws.RoundTrip.portLost (deviceLink : Bool) (port : Nat) : Statement (.portLost deviceLink port) := fun _ h _ => nomatch (h : (none : Option (BitVec 32)) = some _)
theorem Sys2Proof.Laws.RoundTrip.portReturn (port : Nat) (fourLanes : Bool) : Statement (.portReturn port fourLanes) := fun _ h _ => nomatch (h : (none : Option (BitVec 32)) = some _)
theorem Sys2Proof.Laws.RoundTrip.noNewGroup (core : Nat) : Statement (.noNewGroup core) := fun _ h _ => nomatch (h : (none : Option (BitVec 32)) = some _)
theorem Sys2Proof.Laws.RoundTrip.selfTestComplete (core : Nat) : Statement (.selfTestComplete core) := fun _ h _ => nomatch (h : (none : Option (BitVec 32)) = some _)
end

