-- ==== Sys2Proof/Laws/Scalar.lean ====
section
/-! SUPPORT. What the shared operations of scalar instructions do, in the terms of Safety, and the numbers their operands stand for. -/

namespace Sys2Proof.Machine
open Sys2Proof

/-! ## What an instruction leaves -/

/-- An update of a strand is that strand becoming its new value. -/
theorem becomes_upd (s : State) (k : Nat) (f : Strand → Strand) : StrandBecomes s k (f (s.strand k)) (s.upd k f) :=
  ⟨by simp, fun j h => State.strand_upd_of_ne s f h, rfl⟩
theorem becomes_upd' (s : State) (k : Nat) (f : Strand → Strand) (q : Strand) (h : f (s.strand k) = q) : StrandBecomes s k q (s.upd k f) :=
  h ▸ becomes_upd s k f
theorem becomes_upd2 (s : State) (k : Nat) (f g : Strand → Strand) :
    StrandBecomes s k (g (f (s.strand k))) ((s.upd k f).upd k g) :=
  ⟨by simp, fun j h => by rw [State.strand_upd_of_ne _ _ h, State.strand_upd_of_ne _ _ h], rfl⟩
/-- An instruction that only completes. -/
theorem onward_strand {s : State} {k : Nat} (h : s.actor = .strand k) : StrandBecomes s k (s.strand k).onward s.advance := by
  rw [State.advance_strand h]; exact becomes_upd s k _
/-- A result written and the PC moved on. -/
theorem gives_strand {s : State} {k : Nat} (h : s.actor = .strand k) (d : Reg) (v : Dword) :
    StrandBecomes s k ((s.strand k).gives d v) (s.setX d v).advance := by
  have h2 : (s.upd k (fun t => { t with x := writeX t.x d v })).actor = .strand k := h
  rw [State.setX_strand h, State.advance_strand h2]
  exact becomes_upd2 s k _ _
/-- What the two-register operations of the ALU do (R128). -/
theorem aluDAB_gives {s : State} {k : Nat} (h : s.actor = .strand k) (f : Dword → Dword → Dword) (d a b : Reg) (i : Instr) (v : Dword)
    (hi : exec i s = aluDAB f d a b s) (hv : f (readX (s.strand k).x a) (readX (s.strand k).x b) = v) :
    Runs i s (StrandBecomes s k ((s.strand k).gives d v)) :=
  ⟨_, hi, by rw [State.x_strand h, State.x_strand h, hv]; exact gives_strand h d v⟩
/-- What the one-register operations of the ALU do (R128). -/
theorem aluDA_gives {s : State} {k : Nat} (h : s.actor = .strand k) (f : Dword → Dword) (d a : Reg) (i : Instr) (v : Dword)
    (hi : exec i s = aluDA f d a s) (hv : f (readX (s.strand k).x a) = v) :
    Runs i s (StrandBecomes s k ((s.strand k).gives d v)) :=
  ⟨_, hi, by rw [State.x_strand h, hv]; exact gives_strand h d v⟩
/-- What a cell's instruction that only writes a register does (R323, R339). -/
theorem cell_gives {s : State} {k c : Nat} (h : s.actor = .cell k c) (d : Reg) (v : Dword) :
    CellBecomes s k (64 * k + c) (writeCX (s.cell (64 * k + c)).x d v) ((s.cell (64 * k + c)).pc + 4) (s.setX d v).advance := by
  have hj : ∀ t : State, t.actor = .cell k c → t.cellKey = 64 * k + c := fun t ht => by simp [State.cellKey, ht]
  have ha : (s.setX d v).actor = .cell k c := by simp [State.setX, h]
  have hx : s.setX d v = s.setCell (64 * k + c) { s.cell (64 * k + c) with x := writeCX (s.cell (64 * k + c)).x d v } := by
    simp only [State.setX, hj s h]; split <;> simp_all
  have hp : (s.setX d v).pc = (s.cell (64 * k + c)).pc := by
    simp only [State.pc]; split
    · simp_all
    · rw [hj _ ha, hx, State.cell_setCell_self]
  have hi : (s.setX d v).invs = s.invs := by rw [hx]; rfl
  simp only [State.advance, hp, State.setPc, ha, cellFires, hj _ ha]
  rw [show (s.setX d v).cell (64 * k + c) = _ by rw [hx, State.cell_setCell_self]]
  simp only [State.setCell_invs, hi]
  cases hf : sfind s.invs k with
  | none =>
    refine ⟨by simp, by simp, fun i hne => ?_, fun i hne => ?_, ?_⟩
    · rw [hx, State.cell_setCell_of_ne _ _ hne, State.cell_setCell_of_ne _ _ hne]
    · simp [hi]
    · simp only [hx]; rfl
  | some i =>
    refine ⟨?_, ?_, fun i hne => ?_, fun i hne => ?_, ?_⟩
    · simp only [State.cell, State.setCell, sget_sput_self]
    · simp only [State.cell, State.setCell, sget_sput_self]
    · simp only [hx]; simp only [State.cell, State.setCell]; rw [sget_sput_of_ne _ _ _ hne, sget_sput_of_ne _ _ _ hne]
    · simp [sfind_sput, hne]
    · simp only [hx]; rfl
/-- A jump that does not end the strand (R136). -/
theorem jumpTo_strand {s : State} {k : Nat} (h : s.actor = .strand k) (v : Dword) (w : Word)
    (hn : ¬((s.strand k).level = .user ∧ v = 0)) : jumpTo s v w = s.upd k (fun t => { t with pc := v, wait := {} }) := by
  unfold jumpTo
  rw [if_neg (by rw [State.me_strand h]; tauto), State.setPc_strand h]
/-- A jump to 0 at user level (R501). -/
theorem jumpTo_end {s : State} {k : Nat} (h : s.actor = .strand k) (w : Word) (hu : (s.strand k).level = .user) :
    jumpTo s 0 w = if (s.strand k).task.isSome then raise s (illegal w) else s.upd k (fun t => { t with ending := true }) := by
  unfold jumpTo
  rw [if_pos (by simp [State.isCell_strand h, State.me_strand h, hu])]
  simp [State.holdsTask, State.me_strand h, State.updMe, State.key_strand h]
/-- A jump that links and does not end the strand (R137). -/
theorem link_gives {s : State} {k : Nat} (h : s.actor = .strand k) (d : Reg) (v : Dword) (w : Word)
    (hn : ¬((s.strand k).level = .user ∧ v = 0)) :
    StrandBecomes s k { s.strand k with x := writeX (s.strand k).x d ((s.strand k).pc + 4), pc := v, wait := {} } (linkTo s d v w) := by
  unfold linkTo endsStrand
  rw [if_neg (by rw [State.me_strand h, State.isCell_strand h]; simpa using hn), State.pc_strand h, State.setX_strand h]
  rw [jumpTo_strand (k := k) (by exact h) _ _ (by simpa using hn)]
  exact becomes_upd2 s k _ _

/-! ## Numbers -/

theorem amount_eq (y : Dword) : amount y = y.toNat % 64 := by simp [amount]
theorem mulHigh_int (x y : Dword) : mulHigh x.toInt y.toInt = (BitVec.ofInt 128 (x.toInt * y.toInt)).extractLsb' 64 64 := by
  apply BitVec.eq_of_toNat_eq
  simp only [mulHigh, BitVec.extractLsb'_toNat, BitVec.toNat_ofInt, Nat.shiftRight_eq_div_pow]
  have := BitVec.toInt_lt (x := x)
  generalize x.toInt * y.toInt = z
  omega
theorem mulHigh_nat (x y : Dword) : mulHigh x.toNat y.toNat = (BitVec.ofNat 128 (x.toNat * y.toNat)).extractLsb' 64 64 := by
  apply BitVec.eq_of_toNat_eq
  simp only [mulHigh, BitVec.extractLsb'_toNat, BitVec.toNat_ofInt, BitVec.toNat_ofNat, Nat.shiftRight_eq_div_pow]
  rw [← Int.natCast_mul]
  generalize x.toNat * y.toNat = z
  omega
/-- The count of leading zeros below bit n. -/
theorem clzUp_spec (x : Dword) (n : Nat) : clzUp x n ≤ n ∧ (∀ i, i < clzUp x n → x.getLsbD (n - 1 - i) = false) ∧
    (clzUp x n < n → x.getLsbD (n - 1 - clzUp x n) = true) := by
  induction n with
  | zero => simp [clzUp]
  | succ n ih =>
    by_cases h : x.getLsbD n
    · simp [clzUp, h]
    · simp only [clzUp, h, Bool.false_eq_true, if_false]
      refine ⟨by omega, fun i hi => ?_, fun hlt => ?_⟩
      · cases i with
        | zero => simpa using h
        | succ i => have := ih.2.1 i (by omega); rwa [show n + 1 - 1 - (i + 1) = n - 1 - i by omega]
      · have := ih.2.2 (by omega); rwa [show n + 1 - 1 - (1 + clzUp x n) = n - 1 - clzUp x n by omega]
/-- The count of trailing zeros from bit i on. -/
theorem ctzUp_spec (x : Dword) (n i : Nat) : ctzUp x i n ≤ n ∧ (∀ j, j < ctzUp x i n → x.getLsbD (i + j) = false) ∧
    (ctzUp x i n < n → x.getLsbD (i + ctzUp x i n) = true) := by
  induction n generalizing i with
  | zero => simp [ctzUp]
  | succ n ih =>
    by_cases h : x.getLsbD i
    · simp [ctzUp, h]
    · simp only [ctzUp, h, Bool.false_eq_true, if_false]
      obtain ⟨h1, h2, h3⟩ := ih (i + 1)
      refine ⟨by omega, fun j hj => ?_, fun hlt => ?_⟩
      · cases j with
        | zero => simpa using h
        | succ j => have := h2 j (by omega); rwa [show i + (j + 1) = i + 1 + j by omega]
      · have := h3 (by omega); rwa [show i + (1 + ctzUp x (i + 1) n) = i + 1 + ctzUp x (i + 1) n by omega]
theorem forN_countP (x : Dword) (n : Nat) : forN n (fun i n => if x.getLsbD i then n + 1 else n) 0 = (List.range n).countP (fun i => x.getLsbD i) := by
  induction n with
  | zero => rfl
  | succ n ih => rw [forN, ih, List.range_succ, List.countP_append]; split <;> simp_all
theorem signExtend_imm16 (imm : BitVec 16) : imm.signExtend 64 = BitVec.ofInt 64 imm.toInt := by
  apply BitVec.eq_of_toInt_eq; rw [BitVec.toInt_signExtend_of_le (by decide), BitVec.toInt_ofInt]
  have := BitVec.toInt_lt (x := imm); have := BitVec.le_toInt (x := imm)
  norm_num at *; exact (Int.bmod_eq_of_le (by omega) (by omega)).symm
theorem zeroExtend_imm16 (imm : BitVec 16) : imm.zeroExtend 64 = BitVec.ofNat 64 imm.toNat := by
  apply BitVec.eq_of_toNat_eq; simp
theorem upper_toInt (up : BitVec 21) : upper up = BitVec.ofInt 64 (up.toInt * 4096) := by
  simp only [upper]
  apply BitVec.eq_of_toInt_eq
  rw [BitVec.toInt_signExtend_of_le (by decide), BitVec.toInt_ofInt]
  have h1 := BitVec.toInt_lt (x := up); have h2 := BitVec.le_toInt (x := up)
  have h3 : (up ++ (0 : BitVec 12)).toInt = up.toInt * 4096 := by
    rw [BitVec.toInt_eq_toNat_bmod, BitVec.toNat_append, BitVec.toInt_eq_toNat_bmod]
    simp only [BitVec.ofNat_eq_ofNat, BitVec.toNat_ofNat, Nat.zero_mod, Nat.or_zero, Nat.shiftLeft_eq, Nat.cast_mul, Int.bmod]
    have := up.isLt
    norm_num at *
    split <;> split <;> omega
  rw [h3]; norm_num at *; exact (Int.bmod_eq_of_le (by omega) (by omega)).symm
theorem signExtend_off13 (off : BitVec 13) (pc : Dword) : pc + off.signExtend 64 * 4 = pc + BitVec.ofInt 64 (4 * off.toInt) := by
  congr 1
  apply BitVec.eq_of_toInt_eq
  rw [BitVec.toInt_mul, BitVec.toInt_signExtend_of_le (by decide), BitVec.toInt_ofInt]
  simp [Int.mul_comm]
theorem signExtend_off26 (off : BitVec 26) (pc : Dword) : pc + off.signExtend 64 * 4 = pc + BitVec.ofInt 64 (4 * off.toInt) := by
  congr 1
  apply BitVec.eq_of_toInt_eq
  rw [BitVec.toInt_mul, BitVec.toInt_signExtend_of_le (by decide), BitVec.toInt_ofInt]
  simp [Int.mul_comm]
theorem lowTwo_ne_zero (v : Dword) : (v.extractLsb' 0 2 : BitVec 2) ≠ (0 : BitVec 2) ↔ v.toNat % 4 ≠ 0 := by
  rw [Ne, Ne, ← BitVec.toNat_inj]; simp

end Sys2Proof.Machine
end

