-- ==== Sys2Proof/Laws/Special.lean ====
section
/-! SUPPORT. What a read and a write of each special register that is no ring register is (R115, R478, R479). -/

namespace Sys2Proof.Machine
open Sys2Proof

theorem sprRead_000 (s : State) (k : Nat) : sprRead s k 0x000 = some ((s.strand k).vl.zeroExtend 64) := rfl
theorem sprRead_001 (s : State) (k : Nat) : sprRead s k 0x001 = some ((s.strand k).vtype.zeroExtend 64) := rfl
theorem sprRead_002 (s : State) (k : Nat) : sprRead s k 0x002 = some ((s.strand k).vstart.zeroExtend 64) := rfl
theorem sprRead_003 (s : State) (k : Nat) : sprRead s k 0x003 = some ((s.strand k).vslip.zeroExtend 64) := rfl
theorem sprRead_004 (s : State) (k : Nat) : sprRead s k 0x004 = some ((s.strand k).fflags.zeroExtend 64) := rfl
theorem sprRead_005 (s : State) (k : Nat) : sprRead s k 0x005 = some ((s.strand k).frm.zeroExtend 64) := rfl
theorem sprRead_006 (s : State) (k : Nat) : sprRead s k 0x006 = some (s.strand k).srseed := rfl
theorem sprRead_007 (s : State) (k : Nat) : sprRead s k 0x007 = some (s.strand k).vstat := rfl
theorem sprRead_008 (s : State) (k : Nat) : sprRead s k 0x008 = some ((s.strand k).strandid.getD (BitVec.ofNat 64 (strandNo k))) := rfl
theorem sprRead_009 (s : State) (k : Nat) : sprRead s k 0x009 = some s.cycle := rfl
theorem sprRead_00A (s : State) (k : Nat) : sprRead s k 0x00A = some s.timeNs := rfl
theorem sprRead_00B (s : State) (k : Nat) : sprRead s k 0x00B = some ((s.strand k).tstep.zeroExtend 64) := rfl
theorem sprRead_00C (s : State) (k : Nat) : sprRead s k 0x00C = some (s.strand k).pwaddr := rfl
theorem sprRead_00D (s : State) (k : Nat) : sprRead s k 0x00D = some (s.strand k).fxstat := rfl
theorem sprRead_010 (s : State) (k : Nat) : sprRead s k 0x010 = some ((s.strand k).fxidx[0].zeroExtend 64) := rfl
theorem sprRead_011 (s : State) (k : Nat) : sprRead s k 0x011 = some ((s.strand k).fxidx[1].zeroExtend 64) := rfl
theorem sprRead_012 (s : State) (k : Nat) : sprRead s k 0x012 = some ((s.strand k).fxidx[2].zeroExtend 64) := rfl
theorem sprRead_013 (s : State) (k : Nat) : sprRead s k 0x013 = some ((s.strand k).fxidx[3].zeroExtend 64) := rfl
theorem sprRead_014 (s : State) (k : Nat) : sprRead s k 0x014 = some (s.fxslots (s.strand k).e.asid) := rfl
theorem sprRead_018 (s : State) (k : Nat) : sprRead s k 0x018 = some ((s.strand k).ui.vec ++ (0 : BitVec 1) ++ bit1 (s.strand k).ui.inHandler) := rfl
theorem sprRead_019 (s : State) (k : Nat) : sprRead s k 0x019 = some ((~~~(0 : BitVec 58)) ++ (s.strand k).ui.mask) := rfl
theorem sprRead_01A (s : State) (k : Nat) : sprRead s k 0x01A = some ((s.strand k).ui.pend.zeroExtend 64) := rfl
theorem sprRead_01B (s : State) (k : Nat) : sprRead s k 0x01B = some (s.strand k).ui.pc := rfl
theorem sprRead_020 (s : State) (k : Nat) : sprRead s k 0x020 = some ((s.strand k).cpyDone[0].zeroExtend 64) := rfl
theorem sprRead_021 (s : State) (k : Nat) : sprRead s k 0x021 = some ((s.strand k).cpyDone[1].zeroExtend 64) := rfl
theorem sprRead_022 (s : State) (k : Nat) : sprRead s k 0x022 = some ((s.strand k).cpyDone[2].zeroExtend 64) := rfl
theorem sprRead_023 (s : State) (k : Nat) : sprRead s k 0x023 = some ((s.strand k).cpyDone[3].zeroExtend 64) := rfl
theorem sprRead_024 (s : State) (k : Nat) : sprRead s k 0x024 = some ((s.strand k).cpyNext[0].zeroExtend 64) := rfl
theorem sprRead_025 (s : State) (k : Nat) : sprRead s k 0x025 = some ((s.strand k).cpyNext[1].zeroExtend 64) := rfl
theorem sprRead_026 (s : State) (k : Nat) : sprRead s k 0x026 = some ((s.strand k).cpyNext[2].zeroExtend 64) := rfl
theorem sprRead_027 (s : State) (k : Nat) : sprRead s k 0x027 = some ((s.strand k).cpyNext[3].zeroExtend 64) := rfl
theorem sprRead_030 (s : State) (k : Nat) : sprRead s k 0x030 = some (s.strand k).tlc[0] := rfl
theorem sprRead_031 (s : State) (k : Nat) : sprRead s k 0x031 = some (s.strand k).tlc[1] := rfl
theorem sprRead_032 (s : State) (k : Nat) : sprRead s k 0x032 = some (s.strand k).tlc[2] := rfl
theorem sprRead_033 (s : State) (k : Nat) : sprRead s k 0x033 = some (s.strand k).tlc[3] := rfl
theorem sprRead_100 (s : State) (k : Nat) : sprRead s k 0x100 = some ((0 : BitVec 61) ++ bit1 (s.strand k).e.held ++ (s.strand k).e.ppriv) := rfl
theorem sprRead_101 (s : State) (k : Nat) : sprRead s k 0x101 = some (s.strand k).e.epc := rfl
theorem sprRead_102 (s : State) (k : Nat) : sprRead s k 0x102 = some ((s.strand k).e.cause.zeroExtend 64) := rfl
theorem sprRead_103 (s : State) (k : Nat) : sprRead s k 0x103 = some (s.strand k).e.addr := rfl
theorem sprRead_104 (s : State) (k : Nat) : sprRead s k 0x104 = some ((s.strand k).e.elem.zeroExtend 64) := rfl
theorem sprRead_105 (s : State) (k : Nat) : sprRead s k 0x105 = some ((s.strand k).e.vec ++ (0 : BitVec 2)) := rfl
theorem sprRead_106 (s : State) (k : Nat) : sprRead s k 0x106 = some (s.strand k).e.scratch := rfl
theorem sprRead_108 (s : State) (k : Nat) : sprRead s k 0x108 = some (s.strand k).e.chainPc[0] := rfl
theorem sprRead_109 (s : State) (k : Nat) : sprRead s k 0x109 = some (s.strand k).e.chainPc[1] := rfl
theorem sprRead_10A (s : State) (k : Nat) : sprRead s k 0x10A = some (s.strand k).e.chainPc[2] := rfl
theorem sprRead_10B (s : State) (k : Nat) : sprRead s k 0x10B = some (s.strand k).e.chainPc[3] := rfl
theorem sprRead_10C (s : State) (k : Nat) : sprRead s k 0x10C = some (s.strand k).e.chainSt[0] := rfl
theorem sprRead_10D (s : State) (k : Nat) : sprRead s k 0x10D = some (s.strand k).e.chainSt[1] := rfl
theorem sprRead_10E (s : State) (k : Nat) : sprRead s k 0x10E = some (s.strand k).e.chainSt[2] := rfl
theorem sprRead_10F (s : State) (k : Nat) : sprRead s k 0x10F = some (s.strand k).e.chainSt[3] := rfl
theorem sprRead_110 (s : State) (k : Nat) : sprRead s k 0x110 = some ((s.strand k).e.asid.zeroExtend 64) := rfl
theorem sprRead_111 (s : State) (k : Nat) : sprRead s k 0x111 = some ((0 : BitVec 12) ++ (s.strand k).e.ptbase ++ (0 : BitVec 16)) := rfl
theorem sprRead_112 (s : State) (k : Nat) : sprRead s k 0x112 = some ((s.strand k).e.vwin.zeroExtend 64) := rfl
theorem sprRead_114 (s : State) (k : Nat) : sprRead s k 0x114 = some ((0 : BitVec 63) ++ bit1 (s.strand k).e.kwdHold) := rfl
theorem sprRead_200 (s : State) (k : Nat) : sprRead s k 0x200 = some ((s.strand k).f.ppriv.zeroExtend 64) := rfl
theorem sprRead_201 (s : State) (k : Nat) : sprRead s k 0x201 = some (s.strand k).f.pc := rfl
theorem sprRead_202 (s : State) (k : Nat) : sprRead s k 0x202 = some ((s.strand k).f.cause.zeroExtend 64) := rfl
theorem sprRead_203 (s : State) (k : Nat) : sprRead s k 0x203 = some (s.strand k).f.addr := rfl
theorem sprRead_204 (s : State) (k : Nat) : sprRead s k 0x204 = some ((s.strand k).f.elem.zeroExtend 64) := rfl
theorem sprRead_205 (s : State) (k : Nat) : sprRead s k 0x205 = some ((s.strand k).f.vec ++ (0 : BitVec 2)) := rfl
theorem sprRead_206 (s : State) (k : Nat) : sprRead s k 0x206 = some (s.strand k).f.scratch := rfl
theorem sprRead_207 (s : State) (k : Nat) : sprRead s k 0x207 = some ((0 : BitVec 62) ++ bit1 (s.strand k).f.brkhalt ++ bit1 (s.strand k).f.dbgen) := rfl
theorem sprRead_208 (s : State) (k : Nat) : sprRead s k 0x208 = some ((s.strand k).f.fewd.zeroExtend 64) := rfl
theorem sprWrite_000 (s : State) (k : Nat) (v : Dword) : sprWrite s k 0x000 v = s.upd k (·.setVl v.toNat) := rfl
theorem sprWrite_001 (s : State) (k : Nat) (v : Dword) : sprWrite s k 0x001 v = s.upd k (·.setVtype (vtypeStored (low 8 v))) := rfl
theorem sprWrite_002 (s : State) (k : Nat) (v : Dword) : sprWrite s k 0x002 v = s.upd k (fun t => { t with vstart := BitVec.ofNat 13 (min (low 13 v).toNat 4096) }) := rfl
theorem sprWrite_003 (s : State) (k : Nat) (v : Dword) : sprWrite s k 0x003 v = s.upd k (fun t => { t with vslip := low 3 v }) := rfl
theorem sprWrite_004 (s : State) (k : Nat) (v : Dword) : sprWrite s k 0x004 v = s.upd k (fun t => { t with fflags := low 6 v }) := rfl
theorem sprWrite_005 (s : State) (k : Nat) (v : Dword) : sprWrite s k 0x005 v = s.upd k (fun t => { t with frm := low 3 v }) := rfl
theorem sprWrite_006 (s : State) (k : Nat) (v : Dword) : sprWrite s k 0x006 v = s.upd k (·.setSeed v) := rfl
theorem sprWrite_007 (s : State) (k : Nat) (v : Dword) : sprWrite s k 0x007 v = s.upd k (fun t => { t with vstat := v &&& 0x3FFFFFFFF }) := rfl
theorem sprWrite_008 (s : State) (k : Nat) (v : Dword) : sprWrite s k 0x008 v = s.upd k (fun t => { t with strandid := some v }) := rfl
theorem sprWrite_00B (s : State) (k : Nat) (v : Dword) : sprWrite s k 0x00B v = s.upd k (fun t => { t with tstep := low 32 v }) := rfl
theorem sprWrite_00C (s : State) (k : Nat) (v : Dword) : sprWrite s k 0x00C v = s.upd k (fun t => { t with pwaddr := v }) := rfl
theorem sprWrite_00D (s : State) (k : Nat) (v : Dword) : sprWrite s k 0x00D v = s.upd k (fun t => { t with fxstat := v &&& 0x1FFFFF01FFFF }) := rfl
theorem sprWrite_010 (s : State) (k : Nat) (v : Dword) : sprWrite s k 0x010 v = s.upd k (fun t => { t with fxidx := t.fxidx.set 0 (low 32 v) }) := rfl
theorem sprWrite_011 (s : State) (k : Nat) (v : Dword) : sprWrite s k 0x011 v = s.upd k (fun t => { t with fxidx := t.fxidx.set 1 (low 32 v) }) := rfl
theorem sprWrite_012 (s : State) (k : Nat) (v : Dword) : sprWrite s k 0x012 v = s.upd k (fun t => { t with fxidx := t.fxidx.set 2 (low 32 v) }) := rfl
theorem sprWrite_013 (s : State) (k : Nat) (v : Dword) : sprWrite s k 0x013 v = s.upd k (fun t => { t with fxidx := t.fxidx.set 3 (low 32 v) }) := rfl
theorem sprWrite_018 (s : State) (k : Nat) (v : Dword) : sprWrite s k 0x018 v = s.upd k (fun t => { t with ui := { t.ui with vec := v.extractLsb' 2 62 } }) := rfl
theorem sprWrite_019 (s : State) (k : Nat) (v : Dword) : sprWrite s k 0x019 v = s.upd k (fun t => t.setUi { t.ui with mask := low 6 v }) := rfl
theorem sprWrite_01A (s : State) (k : Nat) (v : Dword) : sprWrite s k 0x01A v = s.upd k (fun t => t.setUi { t.ui with pend := low 6 v }) := rfl
theorem sprWrite_01B (s : State) (k : Nat) (v : Dword) : sprWrite s k 0x01B v = s.upd k (fun t => { t with ui := { t.ui with pc := v } }) := rfl
theorem sprWrite_020 (s : State) (k : Nat) (v : Dword) : sprWrite s k 0x020 v = s.upd k (fun t => { t with cpyDone := t.cpyDone.set 0 (low 32 v) }) := rfl
theorem sprWrite_021 (s : State) (k : Nat) (v : Dword) : sprWrite s k 0x021 v = s.upd k (fun t => { t with cpyDone := t.cpyDone.set 1 (low 32 v) }) := rfl
theorem sprWrite_022 (s : State) (k : Nat) (v : Dword) : sprWrite s k 0x022 v = s.upd k (fun t => { t with cpyDone := t.cpyDone.set 2 (low 32 v) }) := rfl
theorem sprWrite_023 (s : State) (k : Nat) (v : Dword) : sprWrite s k 0x023 v = s.upd k (fun t => { t with cpyDone := t.cpyDone.set 3 (low 32 v) }) := rfl
theorem sprWrite_024 (s : State) (k : Nat) (v : Dword) : sprWrite s k 0x024 v = s.upd k (fun t => { t with cpyNext := t.cpyNext.set 0 (low 32 v) }) := rfl
theorem sprWrite_025 (s : State) (k : Nat) (v : Dword) : sprWrite s k 0x025 v = s.upd k (fun t => { t with cpyNext := t.cpyNext.set 1 (low 32 v) }) := rfl
theorem sprWrite_026 (s : State) (k : Nat) (v : Dword) : sprWrite s k 0x026 v = s.upd k (fun t => { t with cpyNext := t.cpyNext.set 2 (low 32 v) }) := rfl
theorem sprWrite_027 (s : State) (k : Nat) (v : Dword) : sprWrite s k 0x027 v = s.upd k (fun t => { t with cpyNext := t.cpyNext.set 3 (low 32 v) }) := rfl
theorem sprWrite_030 (s : State) (k : Nat) (v : Dword) : sprWrite s k 0x030 v = s.upd k (fun t => { t with tlc := t.tlc.set 0 v }) := rfl
theorem sprWrite_031 (s : State) (k : Nat) (v : Dword) : sprWrite s k 0x031 v = s.upd k (fun t => { t with tlc := t.tlc.set 1 v }) := rfl
theorem sprWrite_032 (s : State) (k : Nat) (v : Dword) : sprWrite s k 0x032 v = s.upd k (fun t => { t with tlc := t.tlc.set 2 v }) := rfl
theorem sprWrite_033 (s : State) (k : Nat) (v : Dword) : sprWrite s k 0x033 v = s.upd k (fun t => { t with tlc := t.tlc.set 3 v }) := rfl
theorem sprWrite_100 (s : State) (k : Nat) (v : Dword) : sprWrite s k 0x100 v = s.upd k (fun t => { t with e := { t.e with held := v.getLsbD 2, ppriv := pprivStored 1 t.e.ppriv (low 2 v) } }) := rfl
theorem sprWrite_101 (s : State) (k : Nat) (v : Dword) : sprWrite s k 0x101 v = s.upd k (fun t => { t with e := { t.e with epc := v } }) := rfl
theorem sprWrite_102 (s : State) (k : Nat) (v : Dword) : sprWrite s k 0x102 v = s.upd k (fun t => { t with e := { t.e with cause := low 8 v } }) := rfl
theorem sprWrite_103 (s : State) (k : Nat) (v : Dword) : sprWrite s k 0x103 v = s.upd k (fun t => { t with e := { t.e with addr := v } }) := rfl
theorem sprWrite_104 (s : State) (k : Nat) (v : Dword) : sprWrite s k 0x104 v = s.upd k (fun t => { t with e := { t.e with elem := low 32 v } }) := rfl
theorem sprWrite_105 (s : State) (k : Nat) (v : Dword) : sprWrite s k 0x105 v = s.upd k (fun t => { t with e := { t.e with vec := v.extractLsb' 2 62 } }) := rfl
theorem sprWrite_106 (s : State) (k : Nat) (v : Dword) : sprWrite s k 0x106 v = s.upd k (fun t => { t with e := { t.e with scratch := v } }) := rfl
theorem sprWrite_108 (s : State) (k : Nat) (v : Dword) : sprWrite s k 0x108 v = s.upd k (fun t => { t with e := { t.e with chainPc := t.e.chainPc.set 0 (v &&& ~~~2) } }) := rfl
theorem sprWrite_109 (s : State) (k : Nat) (v : Dword) : sprWrite s k 0x109 v = s.upd k (fun t => { t with e := { t.e with chainPc := t.e.chainPc.set 1 (v &&& ~~~2) } }) := rfl
theorem sprWrite_10A (s : State) (k : Nat) (v : Dword) : sprWrite s k 0x10A v = s.upd k (fun t => { t with e := { t.e with chainPc := t.e.chainPc.set 2 (v &&& ~~~2) } }) := rfl
theorem sprWrite_10B (s : State) (k : Nat) (v : Dword) : sprWrite s k 0x10B v = s.upd k (fun t => { t with e := { t.e with chainPc := t.e.chainPc.set 3 (v &&& ~~~2) } }) := rfl
theorem sprWrite_10C (s : State) (k : Nat) (v : Dword) : sprWrite s k 0x10C v = s.upd k (fun t => { t with e := { t.e with chainSt := t.e.chainSt.set 0 (v &&& 0xFF1FFF1FFF) } }) := rfl
theorem sprWrite_10D (s : State) (k : Nat) (v : Dword) : sprWrite s k 0x10D v = s.upd k (fun t => { t with e := { t.e with chainSt := t.e.chainSt.set 1 (v &&& 0xFF1FFF1FFF) } }) := rfl
theorem sprWrite_10E (s : State) (k : Nat) (v : Dword) : sprWrite s k 0x10E v = s.upd k (fun t => { t with e := { t.e with chainSt := t.e.chainSt.set 2 (v &&& 0xFF1FFF1FFF) } }) := rfl
theorem sprWrite_10F (s : State) (k : Nat) (v : Dword) : sprWrite s k 0x10F v = s.upd k (fun t => { t with e := { t.e with chainSt := t.e.chainSt.set 3 (v &&& 0xFF1FFF1FFF) } }) := rfl
theorem sprWrite_110 (s : State) (k : Nat) (v : Dword) : sprWrite s k 0x110 v = s.upd k (fun t => { t with e := { t.e with asid := low 16 v } }) := rfl
theorem sprWrite_111 (s : State) (k : Nat) (v : Dword) : sprWrite s k 0x111 v = s.upd k (fun t => { t with e := { t.e with ptbase := v.extractLsb' 16 36 } }) := rfl
theorem sprWrite_112 (s : State) (k : Nat) (v : Dword) : sprWrite s k 0x112 v = s.upd k (fun t => { t with e := { t.e with vwin := low 8 v } }) := rfl
theorem sprWrite_113 (s : State) (k : Nat) (v : Dword) : sprWrite s k 0x113 v = s.upd k (fun t => { t with e := { t.e with fxwdFired := t.e.fxwdFired && !v.getLsbD 20 } }) := rfl
theorem sprWrite_114 (s : State) (k : Nat) (v : Dword) : sprWrite s k 0x114 v = s.upd k (fun t => { t with e := { t.e with kwdHold := v.getLsbD 0 } }) := rfl
theorem sprWrite_200 (s : State) (k : Nat) (v : Dword) : sprWrite s k 0x200 v = s.upd k (fun t => { t with f := { t.f with ppriv := pprivStored 2 t.f.ppriv (low 2 v) } }) := rfl
theorem sprWrite_201 (s : State) (k : Nat) (v : Dword) : sprWrite s k 0x201 v = s.upd k (fun t => { t with f := { t.f with pc := v } }) := rfl
theorem sprWrite_202 (s : State) (k : Nat) (v : Dword) : sprWrite s k 0x202 v = s.upd k (fun t => { t with f := { t.f with cause := low 8 v } }) := rfl
theorem sprWrite_203 (s : State) (k : Nat) (v : Dword) : sprWrite s k 0x203 v = s.upd k (fun t => { t with f := { t.f with addr := v } }) := rfl
theorem sprWrite_204 (s : State) (k : Nat) (v : Dword) : sprWrite s k 0x204 v = s.upd k (fun t => { t with f := { t.f with elem := low 32 v } }) := rfl
theorem sprWrite_205 (s : State) (k : Nat) (v : Dword) : sprWrite s k 0x205 v = s.upd k (fun t => { t with f := { t.f with vec := v.extractLsb' 2 62 } }) := rfl
theorem sprWrite_206 (s : State) (k : Nat) (v : Dword) : sprWrite s k 0x206 v = s.upd k (fun t => { t with f := { t.f with scratch := v } }) := rfl
theorem sprWrite_207 (s : State) (k : Nat) (v : Dword) : sprWrite s k 0x207 v = s.upd k (fun t => { t with f := { t.f with brkhalt := v.getLsbD 1, dbgen := v.getLsbD 0 } }) := rfl
theorem sprWrite_208 (s : State) (k : Nat) (v : Dword) : sprWrite s k 0x208 v = s.upd k (fun t => { t with f := { t.f with fewd := low 32 v } }) := rfl

end Sys2Proof.Machine
end

