-- ==== Sys2Proof/Tests/Slice0.lean ====
section
/-! SUPPORT. Tests: decoding, well-formedness, states that meet the hypotheses of the statements, and worked examples of the spec. The
expected results are those the spec's examples give, or follow by hand from its tables. -/

namespace Sys2Proof.Tests
open Sys2Proof Sys2Proof.Machine
set_option Elab.async false

/-! ## Decoding, with each word taken from an example of the spec or written out bit by bit from R102 to R110 -/

/-- Words of the examples in the scalar chapter. -/
theorem test_decode_scalar : decode 0x04642816 = .ok (.divn 3 4 5) ∧ decode 0x20A68003 = .ok (.sraI 5 6 3) ∧ decode 0x30E27FFF = .ok (.st64 7 2 0x1FFF) ∧
    decode 0x40010000 = .ok (.jlr 0 1 0) ∧ decode 0x48E00030 = .ok (.mfs 7 0x030) ∧ decode 0x48064005 = .ok (.mts 0x005 6) ∧
    decode 0x4C141FFB = .ok (.tloop 0 20 0x1FFB) ∧ decode 0x4818C01A = .ok (.sclr 0x01A 24) ∧ decode 0x00000005 = .ok .uiret :=
  ⟨rfl, rfl, rfl, rfl, rfl, rfl, rfl, rfl, rfl⟩

/-- Words of the examples on atomics and scalar floating point, and a scope code above 5. -/
theorem test_decode_atomic_float : decode 0x34AA3403 = .ok (.amoadd .device 5 10 6) ∧ decode 0x34AA010D = .ok (.ldc .core 5 10) ∧
    decode 0x44C16202 = .ok (.fmul .f32 .rne 6 1 12) ∧ decode 0x45063A05 = .ok (.fmadd .f32 .rne 8 6 7) ∧
    decode (0b001101_00101_01010_00110_110_000_00011 : BitVec 32) = .error .reservedScope := ⟨rfl, rfl, rfl, rfl, rfl⟩

/-- Vector configuration and memory: words of the examples, and vst, vgatw and vldq from their format VM. -/
theorem test_decode_vector_memory : decode 0x60A6000A = .ok (.vsetl 5 6 0x0A) ∧ decode 0x60441300 = .ok (.vlend 2 4 2) ∧
    decode 0x6C8A106A = .ok (.vgatw 4 10 2 false false 3 2) ∧ decode 0x708A300A = .ok (.vwait 4 10 6 false false Msk.all) ∧
    decode 0x71192000 = .ok (.vamoadd 8 25 4 false false Msk.all) ∧
    decode (0b011010_00100_01010_00000_0_1_1_011_000_10 : BitVec 32) = .ok (.vst 4 10 false true ⟨true, 3⟩ 2) ∧
    decode (0b011001_00000_01010_00010_1_0_0_000_010_11 : BitVec 32) = .ok (.vldq 2 10 true false Msk.all 3) := ⟨rfl, rfl, rfl, rfl, rfl, rfl, rfl⟩

/-- Vector arithmetic: words of the examples, and one of each other family from format VA. -/
theorem test_decode_vector_compute : decode 0x7D04180A = .ok (.vcvti32 8 (.vreg 4) 3 Msk.all) ∧ decode 0x79040005 = .ok (.vfrsqe 8 (.vreg 4) Msk.all) ∧
    decode 0x7841000D = .ok (.vfneg 2 (.vreg 1) Msk.all) ∧ decode 0x8310E401 = .ok (.vsldn 24 (.vreg 16) 28 Msk.all) ∧
    decode (0b011101_00100_01000_01100_1_0_0_010_10100 : BitVec 32) = .ok (.vadds 4 (.vreg 8) (.xreg 12) ⟨false, 2⟩) ∧
    decode (0b011101_00100_01001_01100_0_1_0_000_00000 : BitVec 32) = .ok (.vadd 4 (.queue (.relay 1)) (.vreg 12) Msk.all) ∧
    decode (0b100010_00100_00101_01100_0_1_0_000_00000 : BitVec 32) = .ok (.vredsum 4 (.queue (.ring 5)) (.vreg 12) Msk.all) ∧
    decode (0b100011_00011_01000_01100_0_0_0_000_00010 : BitVec 32) = .ok (.vmslt 3 (.vreg 8) (.vreg 12) Msk.all) := ⟨rfl, rfl, rfl, rfl, rfl, rfl, rfl, rfl⟩

/-- The irregular family, tiles and queues: words of the examples, and trdcol from format RRR. -/
theorem test_decode_irregular_tile_queue : decode 0x84620043 = .ok (.vconf 3 (.vreg 2) ⟨false, 2⟩) ∧ decode 0x84E20008 = .ok (.vcpop 7 2 Msk.all) ∧
    decode 0x84804E0A = .ok (.vblklist 4 (.queue (.ring 0)) 9) ∧ decode 0xA6142500 = .ok (.tmop 2 .bf16 (.regs 8 9) 2 false false) ∧
    decode 0xA5721810 = .ok (.tmop 1 .i8 (.regs 4 6) 0 false true) ∧ decode 0xA41004C8 = .ok (.tmopMs 0 .bf16 (.ring 0) (.ring 1) 1 false false) ∧
    decode 0xA9230001 = .ok (.qpush (.relay 1) 3) ∧ decode (0b101000_00100_00101_00000_10_000000100 : BitVec 32) = .ok (.trdcol 4 2 5) :=
  ⟨rfl, rfl, rfl, rfl, rfl, rfl, rfl, rfl⟩

/-- Cocoons and the fabric: words of the examples, and ccunmap and fxbind from format RRR. -/
theorem test_decode_fabric : decode (0b101011_00000_00101_00000_00000000001 : BitVec 32) = .ok (.ccunmap 5) ∧
    decode (0b101101_00101_00110_00111_00000000000 : BitVec 32) = .ok (.fxbind 5 6 7) ∧ decode 0xB2044040 = .ok (.fx 1 16 4 8 0) ∧
    decode 0xB8220003 = .ok (.merge 1 2 0) ∧ decode 0xB8610001 = .ok (.send 3 1) ∧ decode 0xB8600801 = .ok (.sendE 3 0) ∧ decode 0xB8432002 = .ok (.steer 2 3 4) ∧
    decode 0xB84F0004 = .ok (.prime 2 15) ∧ decode 0xB8800006 = .ok (.toks 4) ∧ decode 0xB8200000 = .ok (.recv 1 0) :=
  ⟨rfl, rfl, rfl, rfl, rfl, rfl, rfl, rfl, rfl, rfl⟩

/-- Copies, synchronisation, tasks, speculation and the solver: words of the examples, and sfarm from format RRR. -/
theorem test_decode_engines : decode 0xC0009803 = .ok (.cwait 0 19) ∧ decode 0xC5000400 = .ok (.fence 8 .device) ∧ decode 0xC6000100 = .ok (.fence 16 .core) ∧
    decode 0xC5280006 = .ok (.uien 9 8) ∧ decode 0xC9206001 = .ok (.trun 9 0 12) ∧ decode 0xC8000002 = .ok .tdone ∧ decode 0xC9160000 = .ok (.tspawn 8 22) ∧
    decode 0xC9C00006 = .ok (.tqcfg 14 0 0) ∧ decode 0xCD16B802 = .ok (.sspawn 8 22 23) ∧ decode 0xD0A00003 = .ok (.sqgo 5) ∧
    decode (0b110011_00001_00010_00011_00000000000 : BitVec 32) = .ok (.sfarm 1 2 3) := ⟨rfl, rfl, rfl, rfl, rfl, rfl, rfl, rfl, rfl, rfl, rfl⟩

/-- R111: the words that are no instruction, each refused by the name of its case. -/
theorem test_decode_refuses : decode 0xFFFFFFFF = .error .unassignedMajor ∧ decode (0b010100_00000000000000000000000000 : BitVec 32) = .error .unassignedMajor ∧
    decode (0b000001_00011_00100_00101_00000011101 : BitVec 32) = .error .unassignedOperation ∧
    decode (0b000001_00011_00100_00001_00000011001 : BitVec 32) = .error .unusedField ∧
    decode (0b011101_00100_01000_01100_0_0_1_000_00000 : BitVec 32) = .error .badOperandCode ∧
    decode (0b011101_00100_10000_01100_0_1_0_000_00000 : BitVec 32) = .error .badOperandCode ∧
    decode 0x60A60080 = .error .badOperandCode := ⟨rfl, rfl, rfl, rfl, rfl, rfl, rfl⟩
/-- R230: vtopkm with k set, and with a mask code. -/
theorem test_decode_vtopkm : decode (0b100010_00100_01000_01100_1_0_0_000_01101 : BitVec 32) = .error .unusedField ∧
    decode (0b100010_00100_01000_01100_0_0_1_000_01101 : BitVec 32) = .error .unusedField := ⟨rfl, rfl⟩

/-! ## Well-formed instructions: a term that each check refuses -/

/-- Mask code 1000 (R103). -/
theorem test_wf_mask : (Instr.vadd 4 (.vreg 8) (.vreg 12) ⟨true, 0⟩).wf = false := rfl
/-- A vtype immediate with bit 7 set, and one that names GRP 4 with EW 64 in the reserved way (R111, R198). -/
theorem test_wf_vtype : (Instr.vsetl 5 6 0x80).wf = false ∧ (Instr.vloop 5 0x06).wf = false := ⟨rfl, rfl⟩
/-- vlend with x0 as its trip register, with five pointers, and with a pointer above x31 (R201). -/
theorem test_wf_vlend : (Instr.vlend 1 0 2).wf = false ∧ (Instr.vlend 5 4 2).wf = false ∧ (Instr.vlend 1 31 2).wf = false := ⟨rfl, rfl, rfl⟩
/-- SU without SI, and DU with a floating destination (R212). -/
theorem test_wf_conversion : (Instr.vcvti8 8 (.vreg 4) 2 Msk.all).wf = false ∧ (Instr.vcvtf32 8 (.vreg 4) 4 Msk.all).wf = false := ⟨rfl, rfl⟩
/-- vgatw and vscc whose result mask is m0 (R288, R289). -/
theorem test_wf_result_mask : (Instr.vgatw 4 10 2 false false 0 2).wf = false ∧ (Instr.vscc 4 10 2 false false 0 2).wf = false := ⟨rfl, rfl⟩
/-- vtopk whose register is x0 (R243). -/
theorem test_wf_vtopk : (Instr.vtopk 4 (.vreg 8) 0 Msk.all).wf = false := rfl
/-- An instruction without such a field, and one with each of them right. -/
theorem test_wf_accepts : (Instr.add 0 0 0).wf = true ∧ (Instr.vlend 4 27 3).wf = true ∧ (Instr.vcvti8 8 (.vreg 4) 3 ⟨true, 1⟩).wf = true ∧
    (Instr.vsetl 5 6 0x62).wf = true := ⟨rfl, rfl, rfl, rfl⟩

/-! ## States that meet the hypotheses of the statements -/

/-- A group of one strand on core 0, with a lane slice, scratchpad, die scratchpad, barriers and a tile. -/
def tGroup : Group := { kernel := 0, core := 0, trio := true, keys := [0, 1, 2], live := [0, 1, 2], laneOff := 0, laneSize := 1024, spad := [0], wins := [(0, 32), (32, 16), (48, 16)], tiles := 1, share := [0], pages := [], barCount := 4 }
/-- Its kernel. -/
def tKernel : Kernel := { qid := 0, recNo := 0, asid := 0, evvec := 0, record := {}, state := .running, checked := true, res := { trio := true, tiles := 1, spadKib := 4, dspadKib := 4, cocoons := 1, rings := 1 }, dieAlloc := [(0, [0])] }
/-- Strand p as strand 0 of that group, about to execute. -/
def tS (p : Strand) : State := { State.reset with strands := [(0, { p with place := some {}, e := { p.e with vwin := 0xC0 } })], groups := [(0, tGroup)], kernels := [(0, tKernel)] }
/-- A user-level strand with v in x2. -/
def tX (v : Dword) : Strand := { x := writeX (Vector.replicate 32 0) 2 v, status := .running }
/-- A strand of level l. -/
def tL (l : Level) : Strand := { level := l, status := .running }

/-- m comes to an end in s; it waits; it traps with cause c; and what a check answers. -/
def tDone {α : Type} (m : M α) (s : State) : Bool := match m s with | .ok _ _ => true | .error _ _ => false
def tWaits {α : Type} (m : M α) (s : State) : Bool := match m s with | .error .wait _ => true | _ => false
def tTraps {α : Type} (m : M α) (s : State) (c : Cause) : Bool := match m s with | .error (.trap x) _ => x.cause == c | _ => false
def tFails {α : Type} (r : Except Stop α) (c : Cause) : Bool := match r with | .error (.trap x) => x.cause == c | _ => false
def tLater {α : Type} (r : Except Stop α) : Bool := match r with | .error .wait => true | _ => false
/-- Work of the launch unit comes to an end, fails or has to wait. -/
def tGot {α : Type} (r : Got α × State) : Nat := match r.1 with | .ok _ => 0 | .bad _ => 1 | .later => 2

/-- IntegerResult, CellInteger: a strand and a cell act. -/
theorem test_meets_integer : (tS {}).actor = .strand 0 ∧ ({ tS {} with actor := .cell 0 5 } : State).actor = .cell 0 5 := by decide
/-- BranchResult: a condition that holds, one that does not, a target that is 0 at user level and one that is not. -/
theorem test_meets_branch : (tS (tX 1)).actor = .strand 0 ∧ readX ((tS (tX 1)).strand 0).x 2 ≠ readX ((tS (tX 1)).strand 0).x 0 ∧
    ¬(((tS { tX 1 with pc := 8 }).strand 0).level = .user ∧ ((tS { tX 1 with pc := 8 }).strand 0).pc + BitVec.ofInt 64 (4 * (1 : BitVec 13).toInt) = 0) ∧
    ((tS { tX 1 with pc := 4 }).strand 0).level = .user ∧ ((tS { tX 1 with pc := 4 }).strand 0).pc + BitVec.ofInt 64 (4 * (0x1FFF : BitVec 13).toInt) = 0 := by decide
/-- JumpResult: targets aligned, misaligned by 2 and zero, with and without a task. -/
theorem test_meets_jump : (tS (tX 1)).actor = .strand 0 ∧ (readX ((tS (tX 4)).strand 0).x 2 + BitVec.ofInt 64 (-4 : BitVec 16).toInt = 0) ∧
    (readX ((tS (tX 4)).strand 0).x 2 + BitVec.ofInt 64 (4 : BitVec 16).toInt).toNat % 4 = 0 ∧
    (readX ((tS (tX 4)).strand 0).x 2 + BitVec.ofInt 64 (2 : BitVec 16).toInt).toNat % 4 ≠ 0 ∧ ((tS (tX 4)).strand 0).task = none ∧
    ((tS { tX 4 with task := some 0 }).strand 0).task ≠ none ∧ ((tS { tX 4 with pc := 4 }).strand 0).pc + BitVec.ofInt 64 (4 * (0x3FFFFFF : BitVec 26).toInt) = 0 := by decide
/-- SpecialAccess: a register within reach at each level, one above the level, one that does not exist, and a ring that is declared and one that is not. -/
theorem test_meets_special : sprRead (tS {}) 0 0x005 = some 0 ∧ sprRead (tS {}) 0 0x008 = some 0 ∧ (sprRead (tS (tL .executive)) 0 0x101).isSome = true ∧
    (sprRead (tS (tL .firmware)) 0 0x201).isSome = true ∧ sprRead (tS {}) 0 0x0FF = none ∧ (tS {}).ringDeclared 0 0 = true ∧ (tS {}).ringDeclared 0 7 = false := by decide
/-- SpecialStorage: the first and the last register of the list. -/
theorem test_meets_storage : ((0x003, 0x7) : BitVec 12 × Dword) ∈ plainSpecials ∧ ((0x208, 0xFFFFFFFF) : BitVec 12 × Dword) ∈ plainSpecials := by decide
/-- LoopResult: one pass below the limit, and the limit reached. -/
theorem test_meets_loop : ((0 : Dword) + 1).toNat < (readX ((tS (tX 2)).strand 0).x 2).toNat ∧ ¬((0 : Dword) + 1).toNat < (readX ((tS (tX 1)).strand 0).x 2).toNat := by decide
/-- TrapEntry: the levels, BRKHALT, and a task in a chrysalis. -/
theorem test_meets_trap : ((tS (tL .executive)).strand 0).level ≠ .firmware ∧ ((tS (tL .firmware)).strand 0).level = .firmware ∧
    ((tS { f := { brkhalt := true } }).strand 0).f.brkhalt = true ∧ ((tS {}).strand 0).task = none ∧
    (∃ x, sfind ({ tS { task := some 3 } with tasks := [(3, { desc := { queue := 0, trip := 1, pc := 4 }, asid := 0, kernel := 0, state := .running 0, set := [⟨0, 1⟩] })] } : State).tasks 3 = some x ∧ x.set ≠ []) := by
  refine ⟨by decide, by decide, by decide, by decide, _, rfl, by decide⟩
/-- SystemTraps, ReturnResult: each level, aligned and misaligned return addresses, and a handler. -/
theorem test_meets_return : ((tS {}).strand 0).level = .user ∧ ((tS (tL .executive)).strand 0).e.epc.toNat % 4 = 0 ∧ ((tS { e := { epc := 2 }, level := .executive }).strand 0).e.epc.toNat % 4 ≠ 0 ∧
    ((tS { f := { pc := 1 }, level := .firmware }).strand 0).f.pc.toNat % 4 ≠ 0 ∧ ((tS { ui := { inHandler := true } }).strand 0).ui.inHandler = true ∧
    ((tS { ui := { inHandler := true, pc := 2 } }).strand 0).ui.pc.toNat % 4 ≠ 0 ∧ (∀ j, j < 3 → ((tS {}).strand (3 * (0 / 3) + j)).f.dbgen = false) := by decide
/-- WaitAndHalt: the latch set and clear, a limit passed, and debug enabled on strand 2 of the core. -/
theorem test_meets_wait : ((tS { event := true }).strand 0).event = true ∧ ((tS {}).strand 0).event = false ∧ ((tS { wait := { deadline := some 0 } }).strand 0).wait.deadline = some 0 ∧
    ((tS {}).strand 0).wait.expired = false ∧ ((tS {}).strand 0).wait.deadline = none ∧
    (({ tS (tL .executive) with strands := [(0, tL .executive), (2, { f := { dbgen := true } })] } : State).strand (3 * (0 / 3) + 2)).f.dbgen = true := by decide
/-- ScalarAccess: a load and a store that answer, and one of each that traps; the checks at their first failing values. -/
theorem test_meets_access : (∃ v t, loadN (tS {}).ctx 0xF1000000000003FC 4 0 0 (tS {}) = .ok v t) ∧ (∃ t, storeN (tS {}).ctx 0xF1000000000003FC 4 7 0 0 (tS {}) = .ok () t) ∧
    loadN (tS {}).ctx 0xF100000000000001 4 0 0 (tS {}) = .error (.trap ⟨.misaligned, 0xF100000000000001, 0⟩) (tS {}) ∧
    (0xF100000000000001 : Dword).toNat % 2 ≠ 0 ∧ windowSize (tS {}) 0 (winCode 0xEF00000000000000) = none ∧ winCode 0xFE00000000000000 = 0xFE ∧
    userMayReach (tS {}) 0 0x20 = false ∧ windowSize (tS {}) 0 (winCode 0xF100000000001000) = some 0x1000 ∧ (0x1000 : Nat) ≤ winOff 0xF100000000001000 :=
  ⟨⟨_, _, rfl⟩, ⟨_, rfl⟩, rfl, by decide, rfl, by decide, rfl, rfl, by decide⟩
/-- LocalMemory, AcquireRelease, AtomicLocal, FullEmpty: the last dword and the last word of a window, poisoned and not, full and not. -/
theorem test_meets_local : LocalAccess (tS {}) 0 0xF100000000000FF8 8 ∧ LocalAccess (tS {}) 0 0xF100000000000FFC 4 ∧ LocalAccess (tS {}) 0 0xF0000000000003FF 1 ∧
    Memory.wf (tS {}).mem = true ∧ Unpoisoned (tS {}) (flatOf (tS {}) 0 0xF100000000000FF8) 8 ∧
    ¬Unpoisoned { tS {} with poison := [flatOf (tS {}) 0 0xF100000000000FFC / 4] } (flatOf (tS {}) 0 0xF100000000000FFC) 4 ∧
    flatOf (tS {}) 0 0xF100000000000FFC / 4 ∈ ({ tS {} with full := [flatOf (tS {}) 0 0xF100000000000FFC / 4] } : State).full ∧ flatOf (tS {}) 0 0xF100000000000FFC / 4 ∉ (tS {}).full := by
  refine ⟨⟨by decide, by decide, by decide, ⟨0x1000, rfl, by decide⟩, rfl, rfl⟩, ⟨by decide, by decide, by decide, ⟨0x1000, rfl, by decide⟩, rfl, rfl⟩,
    ⟨by decide, by decide, by decide, ⟨0x400, rfl, by decide⟩, rfl, rfl⟩, rfl, by unfold Unpoisoned; decide, by unfold Unpoisoned; decide, by decide, by decide⟩
/-- FpRounded: a static mode, the dynamic one with FRM 5 and with FRM 6. -/
theorem test_meets_float : rmodeOf ((tS { frm := 5 }).strand 0).frm = some .rsr ∧ ((tS { frm := 5 }).strand 0).frm.toNat ≤ 5 ∧ 6 ≤ ((tS { frm := 6 }).strand 0).frm.toNat ∧
    fpMode (tS {}) .rtz = some .rtz := by decide

/-- A strand with vl elements of vtype vt from VSTART st, and a ring of two slots of 512 bytes, one of them filled. -/
def tV (vl : BitVec 13) (vt : BitVec 8) (st : BitVec 13) : Strand :=
  { vl := vl, vtype := vt, vstart := st, status := .running, rings := (Vector.replicate 8 ({} : Ring)).set 0 { base := 0xF1000000000000, nslotm1 := 1, log2slot := 9, tail := 1 } }

/-- VectorInteger: groups at the end of the window, a ring and a relay read, a widening and a narrowing row. -/
theorem test_meets_vint : VectorReady (tS (tV 4 2 0)) 0 ((31, 1) :: sourceGroups (.vreg 0) (.vreg 30) 1) (.vreg 0) 32 Msk.all ∧
    VectorReady (tS (tV 4 2 3)) 0 ((31, 1) :: sourceGroups (.queue (.ring 0)) (.xreg 2) 1) (.queue (.ring 0)) 32 Msk.all ∧
    VectorReady (tS (tV 4 2 4)) 0 ((31, 1) :: sourceGroups (.queue (.ring 0)) (.xreg 2) 1) (.queue (.ring 0)) 32 Msk.all ∧
    VectorReady (tS (tV 4 2 0)) 0 ((30, 2) :: sourceGroups (.vreg 0) (.vreg 29) 1) (.vreg 0) 32 Msk.all ∧ ewBits 2 ≠ 64 ∧ grpRegs 2 ≠ 8 ∧
    VectorReady (tS (tV 4 2 0)) 0 ((31, 1) :: sourceGroups (.vreg 30) (.xreg 0) 2 ++ sourceGroups (.queue (.ring 0)) (.vreg 29) 1) (.vreg 30) 64 Msk.all := by
  refine ⟨⟨by decide, trivial⟩, ⟨by decide, rfl, fun _ => ⟨rfl, fun i h => ?_⟩⟩, ⟨by decide, rfl, fun h => absurd h (by decide)⟩, ⟨by decide, trivial⟩, by decide, by decide, by decide, trivial⟩
  have h1 : 3 ≤ i := h.1
  have h2 : i < 4 := h.2.1
  obtain rfl : i = 3 := by omega
  exact ⟨rfl, fun _ => ⟨_, rfl⟩⟩
/-- VectorFloat, VectorConvert: EW 8 and another, EW 32, FRM with and without a mode, a destination that fits and one of sixteen registers. -/
theorem test_meets_vfp : VectorReady (tS (tV 4 0 0)) 0 ((31, 1) :: sourceGroups (.vreg 0) (.vreg 30) 1) (.vreg 0) 8 Msk.all ∧
    VectorReady (tS (tV 4 2 0)) 0 ((31, 1) :: sourceGroups (.vreg 0) (.vreg 30) 1) (.vreg 0) 32 Msk.all ∧ ewBits 0 = 8 ∧ ewBits 1 ≠ 8 ∧ ewBits 1 ≠ 32 ∧ ewBits 2 = 32 ∧ rmodeOf 5 = some .rsr ∧ rmodeOf 6 = none ∧
    grpRegs 0x18 * 8 ≤ 8 * ewBits 0x18 ∧ 8 * ewBits 0x18 < grpRegs 0x18 * 16 := by
  refine ⟨⟨by decide, trivial⟩, ⟨by decide, trivial⟩, by decide, by decide, by decide, by decide, by decide, by decide, by decide, by decide⟩
/-- VectorQuantise: the element widths it takes and one it does not, a record that is well formed and one that is not. -/
theorem test_meets_quantise : ewBits 1 = 16 ∧ ewBits 2 = 32 ∧ ewBits 3 ≠ 16 ∧ ewBits 3 ≠ 32 ∧ recordOf 8 0 = none ∧ recordOf 8 0x3C00 ≠ none ∧ Processed (tV 1 2 0) Msk.all 0 ∧
    VectorReady (tS (tV 1 2 0)) 0 ((31, 1) :: (sourceGroups (.vreg 8) (.xreg 0) 1 ++ [(30, 1)])) (.vreg 8) 32 Msk.all := by
  refine ⟨by decide, by decide, by decide, by decide, by decide, by decide, by decide, by decide, trivial⟩
/-- VectorPermute, VectorReduce, VectorMasks: what each reads can be read, at EW 8 and beyond, and vmvxs of a landed slot. -/
theorem test_meets_permute : VectorReadyFor (tS (tV 2 2 0)) 0 ((31, 1) :: (sourceGroups (.vreg 8) (.xreg 0) 1 ++ [(30, 1)])) (.vreg 8) 32 (fun j => ∃ i, 0 ≤ i ∧ i < 2 ∧ some (i + 127) = some j) ∧
    (∀ r ∈ sourceGroups (.queue (.ring 0)) (.xreg 0) 1, r.1 % r.2 = 0 ∧ r.1 + r.2 ≤ ((tS (tV 2 2 0)).strand 0).window) ∧
    queueName (tS (tV 2 2 0)) (.ring 0) = .ok () ∧ queueReady (tS (tV 2 2 0)) (.ring 0) 0 = .ok () ∧ queuePoisoned (tS (tV 2 2 0)) (.ring 0) 0 32 0 = false ∧
    (31 % grpRegs 2 = 0 ∧ 31 + grpRegs 2 ≤ ((tS (tV 2 2 0)).strand 0).window) := by
  refine ⟨⟨by decide, trivial⟩, by decide, rfl, rfl, rfl, by decide⟩
/-- VectorIrregular: a block list that is sound, from a register and from the ring, and one that is not. -/
theorem test_meets_blocks : (blkParam 0).sound = true ∧ (blkParam (2 ^ 64)).sound = false ∧ (∀ i, i < 512 / ewBits 2 → queuePoisoned (tS (tV 2 2 0)) (.ring 0) 0 32 i = false) ∧ ewBits 2 ≠ 8 := by
  refine ⟨by decide, by decide, by decide +kernel, by decide⟩
/-- VectorSelect: three groups that fit, and one that does not, at EW 16 and 32. -/
theorem test_meets_select : 29 % grpRegs 2 = 0 ∧ 29 + 3 * grpRegs 2 ≤ ((tS (tV 2 2 0)).strand 0).window ∧ VectorReady (tS (tV 2 2 0)) 0 (sourceGroups (.vreg 8) (.xreg 0) 1) (.vreg 8) 32 Msk.all := by
  refine ⟨by decide, by decide, by decide, trivial⟩

/-- One access, and an access before others. -/
theorem one_access {α : Type} {acc : Nat → M α} {s u : State} {i : Nat} {v : α} (h : acc i s = .ok v u) (ha : u.actor = s.actor) :
    Accesses acc s [i] [v] u := ⟨v, u, [], h, ha, rfl, rfl, rfl⟩
/-- VectorConfig: a legal and an illegal vtype of vsetlx, vlend below and at its trip count, a misaligned declaration, one that is sound and one that is not. -/
theorem test_meets_config : ¬((0x46 : BitVec 8).getLsbD 7 = true ∨ ((0x42 : BitVec 8).getLsbD 2 = true ∧ (0x42 : BitVec 8).getLsbD 1 = true)) ∧ (0x80 : BitVec 8).getLsbD 7 = true ∧
    (readX (tX 4).x 2).toNat - min (tV 4 2 0).vl.toNat (readX (tX 4).x 2).toNat = 0 ∧ (readX (tX 5).x 2).toNat - min (tV 4 2 0).vl.toNat (readX (tX 5).x 2).toNat ≠ 0 ∧
    (2 : Reg) ≠ 0 ∧ (27 : Reg).toNat + (4 : Reg).toNat ≤ 31 ∧ (4 : Dword).toNat % 8 ≠ 0 ∧ declOf 0 = none ∧
    (∃ vs u, Accesses (fun i => loadN (tS {}).ctx ((0xF100000000000000 : Dword) + BitVec.ofNat 64 (8 * i)) 8 0 0) (tS {}) [0, 1] vs u) := by
  refine ⟨by decide, by decide, by decide, by decide, by decide, by decide, by decide, rfl, ?_⟩
  exact ⟨_, _, _, _, _, rfl, rfl, rfl, one_access rfl rfl⟩
/-- The state of one element at the end of the scratchpad window. -/
def tM : State := tS { tV 1 2 0 with x := writeX (Vector.replicate 32 0) 2 0xF100000000000FFC }
set_option maxRecDepth 10000 in
/-- VectorLoad, VectorStore: one element at the last word of a window, loaded, stored and loaded into a ring with room; the group fits at the window's end; a stride that is odd and one that is even. -/
theorem test_meets_vmem : tM.specTask 0 = none ∧ tM.idle = false ∧ elements (tM.strand 0) Msk.all true = [0] ∧
    (∃ v u, Accesses (fun i => do let r ← vloadElem true 32 i (0xF100000000000FFC + BitVec.ofNat 64 (i * 4)); pure r.1) tM [0] [v] u ∧ SameControl (tM.strand 0) (u.strand 0)) ∧
    (∃ v u, Accesses (fun i => storeN tM.ctx (0xF100000000000FFC + BitVec.ofNat 64 (i * 4)) 4 7 i (i % 32)) tM [0] [v] u) ∧
    grpRegs 2 * 32 ≤ 8 * ewBits 2 ∧ (31 : Reg).toNat % 1 = 0 ∧ (31 : Reg).toNat + 1 ≤ (tM.strand 0).window ∧
    queueName tM (.ring 0) = .ok () ∧ (tM.strand 0).vl.toNat * 32 / 8 ≤ (tM.ring 0 0).slotBytes ∧ (tM.ring 0 0).used < (tM.ring 0 0).slots ∧
    (tM.ring 0 0).unlanded.find? (fun q => q.2 == 0) = none ∧ ewBits 0 = 8 ∧ (3 : Dword).getLsbD 0 = true ∧ (2 : Dword).getLsbD 0 = false ∧
    (∃ u, notifyCheck { tM with strands := [(0, { tM.strand 0 with pwaddr := 0xF100000000000FF8 })] } = .ok () u) := by
  refine ⟨rfl, rfl, by decide, ⟨_, _, ⟨_, _, _, rfl, rfl, rfl, rfl, rfl⟩, rfl, rfl, rfl, rfl, rfl, rfl⟩, ⟨_, _, _, _, _, rfl, rfl, rfl, rfl, rfl⟩, by decide, by decide, by decide, rfl, by decide, by decide, rfl,
    by decide, by decide, by decide, _, rfl⟩
set_option maxRecDepth 10000 in
/-- VectorAtomic: a check that passes, an element that updates, a window read, a watch with room and one reached. -/
theorem test_meets_vatomic : (∃ u, vamoCheck tM (some 4) 2 8 Msk.all 4 tM.issue = .ok () u ∧ u.actor = tM.actor) ∧
    (∃ v u, Accesses (fun i => amoN tM.ctx 0xF100000000000FFC 4 i (i % 32) (fun y => some ((y + 1) % 2 ^ 32))) tM.issue [0] [v] u ∧ SameControl (tM.strand 0) (u.strand 0)) ∧
    (∃ win u, readWindow 0xF100000000000000 32 128 tM = .ok win u ∧ u.actor = tM.actor) ∧ 1 ≤ watchRoom tM 0 ∧
    (∃ arm u, Accesses (armWatch tM 0 2 8) tM [0] [arm] u) ∧
    (∃ got q, Accesses (fun _ => watchRead tM 2 8 ⟨0, 0, 0, 0, false⟩) tM.issue [0] [got] q ∧ SameControl (tM.strand 0) (q.strand 0)) ∧ 32 ≤ ewBits 2 ∧ ewBits 1 < 32 := by
  refine ⟨⟨_, rfl, rfl⟩, ⟨_, _, ⟨_, _, _, rfl, rfl, rfl, rfl, rfl⟩, rfl, rfl, rfl, rfl, rfl, rfl⟩, ⟨_, _, rfl, rfl⟩, by decide, ⟨_, _, _, _, _, rfl, rfl, rfl, rfl, rfl⟩,
    ⟨_, _, ⟨_, _, _, rfl, rfl, rfl, rfl, rfl⟩, rfl, rfl, rfl, rfl, rfl, rfl⟩, by decide, by decide⟩

/-- Strand p with tile 0 of the core bound to acc0. -/
def tT (p : Strand) : State := { tS p with tiles := [(0, { bound := some (0, 0) })] }
/-- TileMoves: a name without a tile, where one is free and where none is, and a tile that is bound, busy and not; a poisoned element. -/
theorem test_meets_tile : (tS {}).tileKey 0 0 = none ∧ (tS {}).freeTiles = [0] ∧ (tT {}).tileKey 0 0 = some 0 ∧ ((tT {}).tile 0).busy = false ∧ (tT {}).tileKey 0 1 = none ∧ (tT {}).freeTiles = [] ∧
    ({ tS {} with tiles := [(0, { bound := some (0, 0), busy := true })] } : State).tile 0 = { bound := some (0, 0), busy := true } ∧ 128 * 127 + 127 ∉ ((tT {}).tile 0).poison ∧
    ewBits 2 = 32 ∧ grpRegs 2 = 1 ∧ (31 : Reg).toNat < ((tT (tV 1 2 0)).strand 0).window := by
  refine ⟨rfl, rfl, rfl, rfl, rfl, rfl, rfl, by decide, by decide, by decide, by decide⟩
set_option maxRecDepth 10000 in
/-- TileProduct: the checks of a step and of a step from two rings pass, no element is poisoned, and the steps of the multi-step form succeed or are none. -/
theorem test_meets_product : tmChecks (tT (tV 1 2 0)) 0 .f32 (.vreg 4) (.vreg 5) 1 0 = .ok 0 ∧ claimFault (tT (tV 1 2 0)) (.vreg 4) 0 1 = .ok () ∧ claimReady (tT (tV 1 2 0)) (.vreg 4) 0 1 = .ok () ∧
    tmChecks (tT (tV 1 2 0)) 0 .f32 (.queue (.ring 0)) (.vreg 5) 1 0 = .ok 0 ∧ claimReady (tT (tV 1 2 0)) (.queue (.ring 0)) 0 1 = .ok () ∧ tLater (claimReady (tT (tV 1 2 0)) (.queue (.ring 0)) 1 1) = true ∧
    claimReady (tT (tV 1 2 0)) (.vreg 5) (claimBase (.vreg 4) (.vreg 5) 1) 1 = .ok () ∧
    stepCheck (tT (tV 1 2 0)) .f32 (.vreg 4) (.vreg 5) 0 0 0 = .ok () ∧ stepSkipped (tT (tV 1 2 0)) .f32 (.vreg 4) (.vreg 5) 0 0 = false ∧
    (encode (.tmop 0 .f32 (.regs 4 5) 0 false false)).isSome = true ∧ (encode (.tmopMs 0 .f32 (.ring 0) (.ring 0) 0 false false)).isSome = true ∧
    ((tV 1 2 0).tstep.extractLsb' 16 16 : BitVec 16).toNat ≤ ((tV 1 2 0).tstep.extractLsb' 0 16 : BitVec 16).toNat := by
  decide +kernel
/-- TileProduct: a step whose slot reads all zero is skipped. -/
theorem test_meets_skip : stepSkipped (tT { tV 1 2 0 with rings := (Vector.replicate 8 ({} : Ring)).set 0 { base := 0xF1000000000000, nslotm1 := 1, log2slot := 9, tail := 1, zero := [0] } }) .f32 (.queue (.ring 0)) (.vreg 5) 0 0 = true := rfl
/-- QueueResult: a ring that is declared and one that is not, a slot to fill and one to read, a relay with room, and counts below and at what has landed. -/
theorem test_meets_queue : (tS (tV 1 2 0)).ringDeclared 0 0 = true ∧ (tS (tV 1 2 0)).ringDeclared 0 1 = false ∧ queueName (tS (tV 1 2 0)) (.ring 0) = .ok () ∧
    1 * 32 / 8 ≤ ((tS (tV 1 2 0)).ring 0 0).slotBytes ∧ ((tS (tV 1 2 0)).ring 0 0).used < ((tS (tV 1 2 0)).ring 0 0).slots ∧ (tS {}).trio 0 = true ∧ ((tS {}).relay 3).length < 2 ∧
    queueReady (tS (tV 1 2 0)) (.ring 0) 0 = .ok () ∧ (readable (tS (tV 1 2 0)) (.ring 0)).1 = 1 ∧ (readable (tS (tV 1 2 0)) (.ring 0)).2 = 2 ∧
    ((tS (tV 1 2 0)).specTask 0 = none) := by
  refine ⟨rfl, rfl, rfl, by decide, by decide, rfl, by decide, rfl, rfl, rfl, rfl⟩
/-- A state with one cocoon of strand 0. -/
def tC : State := { tS { x := writeX (Vector.replicate 32 0) 2 0 } with cocoons := [(0, { strand := 0, base := 0xF100000000000000, gva := 0, len := 256, asid := 0 })] }
/-- CocoonResult: a descriptor that passes the checks and one that does not, a free cocoon and none, a cocoon that is mapped and clean and flushes, and a number without one. -/
theorem test_meets_cocoon : (∃ w u, Accesses (fun i => loadN (tS {}).ctx ((0xF100000000000000 : Dword) + BitVec.ofNat 64 (8 * i)) 8 0 0) (tS {}) [0, 1, 2, 3] w u) ∧
    mapChecks (tS {}) 0 0xF100000000000000 0 0x100 = .ok () ∧ (∃ r, mapChecks (tS {}) 0 0xF100000000000000 0 0 = .error (.trap r)) ∧
    (sfind (tS {}).cocoons (8 * 0 + 0)).isSome = false ∧ (sfind tC.cocoons (8 * 0 + 0)).isSome = true ∧ (tS {}).myCocoon 0 = none ∧ (tS {}).myCocoon 1 = none ∧
    (∃ ck c, tC.myCocoon 0 = some (ck, c) ∧ c.dirty = []) ∧ (∃ u, cocoonFlush 0 tC = .ok () u ∧ u.actor = tC.actor) := by
  refine ⟨⟨_, _, ⟨_, _, _, rfl, rfl, rfl, _, _, _, rfl, rfl, rfl, _, _, _, rfl, rfl, rfl, one_access rfl rfl⟩⟩, rfl, ⟨_, rfl⟩, rfl, rfl, rfl, rfl, ⟨_, _, rfl, rfl⟩, _, rfl, rfl⟩
/-- An image of one cell whose channel 0 takes stream port INA, whose channel 1 is a loop with limit 1 and whose channel 2 leaves to the output port. -/
def tImage : FxImage :=
  { useA := true, useB := true, useOut := true, inA := 0, inB := 0, out := 0, shapes := [(1, 1)],
    pages := [⟨0, 0, true, true, [⟨0x1000, 1, 0, [some ⟨4, 0, 0, 0, false⟩, some ⟨4, 1, 0, 0, false⟩, some ⟨4, 0, 0, 0, true⟩] ++ List.replicate 13 none⟩] ++ List.replicate 7 ⟨0, 0, 0, []⟩⟩], chans := [], loops := [⟨1, 1, [2]⟩] }
/-- The invocation i of that image by strand 0, the image bound to slot 3 and placed. -/
def tF (i : Inv) : State := { tS (tV 4 2 0) with invs := [(0, i)], slots := [(3, { image := 0x1000, bound := some tImage })], confs := [(confKey 0 0 0 3, { group := 0, gen := 0, pages := [0], wires := [] })] }
/-- An invocation with data and a token at the head of its input buffers. -/
def tI : Inv := { asid := 0, slot := 3, gen := 0, inA := { buf := [⟨0, 5⟩, ⟨2, 0⟩] }, adm := [0] }
/-- LinkResult: a cell of a running invocation, a strand, a data flit, a token and no flit at its head, a loop that admits and one that is full, and an output that can take a flit. -/
theorem test_meets_link : (∃ v, fxEnv (tF tI) 0 = some v ∧ headFlit v 0 = some ⟨0, 5⟩ ∧ headFlit v 1 = none ∧ canSend (tF tI) 0 v 2 = true ∧ admits v 1 ⟨0, 5⟩ = true ∧ v.inv.stop = none) ∧
    (∃ v, fxEnv (tF { tI with inA := { buf := [⟨2, 0⟩] }, adm := [1], out := List.replicate 64 ⟨0, 0⟩ }) 0 = some v ∧ headFlit v 0 = some ⟨2, 0⟩ ∧ admits v 1 ⟨0, 5⟩ = false ∧ canSend (tF tI) 0 v 2 = false) := by
  refine ⟨⟨_, rfl, rfl, rfl, rfl, rfl, rfl⟩, _, rfl, rfl, rfl, rfl⟩
/-- FabricBinding: a slot that is bound, one that is not, the first number that is no slot, and an image that loads or fails to. -/
theorem test_meets_binding : ((tF tI).slotEntry 0 3).bound ≠ none ∧ ((tF tI).slotEntry 0 31).bound = none ∧ (32 : Nat) ≤ (32 : Dword).toNat ∧
    sfind (tF tI).confs (confKey 0 0 0 3) ≠ none ∧ (∀ c, sfind (tF tI).confs (confKey 0 0 0 3) = some c → ∀ q ∈ c.pages, q < 8) := by
  refine ⟨by decide, by decide, by decide, by decide, ?_⟩
  intro c h q hq
  obtain rfl := Option.some.inj h.symm
  simp_all
/-- FabricRun: a slot that is bound and whose configuration is placed, busy and free; ports that have an element to take, one at the vector's end; a stop; a count of 2^20; and an invocation that is complete. -/
theorem test_meets_run : (sfind (tF tI).invs 0).map (·.running) = some true ∧ (∀ i, sfind (tS {}).invs 0 = some i → i.running = false) ∧ confRunning (tF tI) (confKey 0 0 0 3) = true ∧
    (∃ w, fxChecks { tF tI with invs := [] } tImage 16 4 8 w = .ok ()) ∧ confRunning { tF tI with invs := [] } (confKey 0 0 0 3) = false ∧
    (tI.inA.buf.length < 64 ∧ tI.inA.eosSent = false) ∧ ({ tI with out := [⟨0, 7⟩] } : Inv).outEos = false ∧ ((tV 4 2 0).fxidx[2]).toNat < vlmaxOf 2 ∧
    ({ tI with stop := some { reason := 4 } } : Inv).stop = some { reason := 4 } ∧ 2 ^ 20 ≤ ({ tI with count := 2 ^ 20 } : Inv).count := by
  refine ⟨rfl, by intro i h; simp [tS, State.reset, sfind] at h, rfl, ⟨0, rfl⟩, rfl, by decide, rfl, by decide, rfl, by decide⟩
/-- FabricRun: INVOCATION_COMPLETE is due once the streams have ended and every cell is done. -/
theorem test_meets_complete : ∃ i v, fxEnv { tF i with cells := [(0, { pc := 64 })] } 0 = some v ∧ invComplete { tF i with cells := [(0, { pc := 64 })] } 0 v = true := by
  exact ⟨{ tI with inA := { eosSent := true, eosTaken := true }, inB := { eosSent := true, eosTaken := true }, outEos := true }, _, rfl, rfl⟩

/-- A strand with channel 0 as c, ids next and done. -/
def tK (c : Channel) (next done : BitVec 32) : Strand := { chan := (Vector.replicate 4 {}).set 0 c, cpyNext := (Vector.replicate 4 0).set 0 next, cpyDone := (Vector.replicate 4 0).set 0 done, status := .running }
/-- A box of one byte from and to the scratchpad. -/
def tBox : Box := { src := 0xF100000000000000, dst := 0xF100000000000100, ext := #v[1, 1, 1, 1] }
/-- CopyResult: a command that is bad, one that is taken, one that waits for room; identifiers that are pending and not, a held channel at, below and above the identifier; TRANSFER_COMPLETE and TRANSFER_FAULT of the oldest transfer. -/
theorem test_meets_copy : copyStatus (tS {}) tBox true ≠ 0 ∧ copyStatus (tS {}) tBox false = 0 ∧ tBox.count ≠ 0 ∧ ((tS {}).strand 0).channel 0 = {} ∧
    16 ≤ (((tS (tK { pending := List.replicate 16 ⟨0, tBox, 0, false, none, false, false, false, false⟩ } 16 0)).strand 0).channel 0).pending.length ∧
    ((0 : BitVec 32) - 0).toNat < ((1 : BitVec 32) - 0).toNat ∧ ¬((1 : BitVec 32) - 0).toNat < ((1 : BitVec 32) - 0).toNat ∧ ((1 : BitVec 32) - 0).toNat < ((2 : BitVec 32) - 0).toNat ∧
    (0 : Dword).toNat / 2 ^ 12 = 0 ∧ (0x4 : Dword).toNat % 2 ^ 8 / 4 ≠ 0 ∧ (0x200 : Dword).getLsbD 9 = true ∧
    (∃ t, runTransfer (tS (tK { pending := [⟨0, tBox, 0, false, none, false, false, false, false⟩] } 1 0)) 0 0 0 = some (.done t)) ∧
    (∃ r t, runTransfer (tS (tK { pending := [⟨0, { tBox with src := 0xF100000000001000 }, 0, false, none, false, false, false, false⟩] } 1 0)) 0 0 0 = some (.failed r t)) ∧
    (oldest (((tS (tK { pending := [⟨0, tBox, 0, false, none, false, false, false, false⟩] } 1 0)).strand 0).channel 0)).isSome = true ∧ oldest (((tS {}).strand 0).channel 0) = none := by
  refine ⟨by decide, rfl, by decide, rfl, by decide, by decide, by decide, by decide, by decide, by decide, by decide, ⟨_, rfl⟩, ⟨_, _, rfl⟩, rfl, rfl⟩
/-- SyncResult: kinds of fence, a barrier that exists and one beyond the count, counts and phases at their bounds, and a user-level interrupt that is due. -/
theorem test_meets_sync : (∃ q, barOperand (tS {}) 3 = .ok q) ∧ (∃ r, barOperand (tS {}) 4 = .error r) ∧ ((tS {}).bar 0 3).count = 0 ∧ ((tS {}).bar 0 3).link = false ∧
    ((tS {}).bar 0 3).count + 1 = ((tS {}).bar 0 3).expect ∧ (∃ g, sfind (tS {}).groups 0 = some g) ∧
    (1 ≤ ((1 : BitVec 32) - 0).toNat ∧ ((1 : BitVec 32) - 0).toNat < 2 ^ 31) ∧ ¬(1 ≤ ((0 : BitVec 32) - 0).toNat ∧ ((0 : BitVec 32) - 0).toNat < 2 ^ 31) ∧
    uiDue (tS { status := .running, ui := { pend := 1, mask := 0x3E, vec := 4 } }) 0 = true ∧ uiDue (tS {}) 0 = false := by
  refine ⟨⟨_, rfl⟩, ⟨_, rfl⟩, rfl, rfl, rfl, ⟨_, rfl⟩, by decide, by decide, rfl, rfl⟩
/-- A task of the pool, and the state that holds it. -/
def tTask : Task := { kernel := 0, asid := 0, desc := { trip := 1, pc := 4, nptr := 4 }, state := .ready 0 }
def tP (z : Task) : State := { tS {} with tasks := [(0, z)] }
/-- TaskResult: a descriptor that is refused and one that is taken, a full pool, an entry that is free, a ready task, a task held, and the windows of the futures. -/
theorem test_meets_task : (∃ t u, readTask 0xF100000000000000 false (tS {}) = .ok t u ∧ refuses t u.futSize = false) ∧ refuses { vtype := 0x80 } 4096 = true ∧ poolFull (tS {}) 0 = false ∧
    poolFull { tS {} with qlimit := [(0, 0)] } 0 = false ∧ (freeEntry (tS {}) 0 = some 0) ∧ (∃ j z, pickTask (tP tTask) 0 = some (j, z) ∧ z.desc.resume ≠ z.desc.trip) ∧ pickTask (tS {}) 0 = none ∧
    (windowSize (tS {}) 0 0xF3).getD 0 = 4096 ∧ (4088 : Dword).toNat % 8 = 0 ∧ (4088 : Dword).toNat < 4096 ∧ futureFull (tS {}) 4088 = false ∧
    futureFull { tS {} with full := [(tS {}).futWord 4088] } 4088 = true ∧ (∃ u, storeN (tS {}).ctx 0xF300000000000FF8 8 0 0 0 (tS {}) = .ok () u) ∧ (63 : Dword).toNat ≤ 63 := by
  refine ⟨⟨_, _, rfl, rfl⟩, rfl, rfl, rfl, rfl, ⟨_, _, rfl, by decide⟩, rfl, rfl, by decide, by decide, rfl, by decide, ⟨_, rfl⟩, by decide⟩
/-- A forecast slot of die 0, and the state that holds it. -/
def tSlot : FSlot := { tile := 0xF100000000000000, len := 4, forecast := some [0, 0, 0, 0] }
def tQ (z : FSlot) : State := { tS {} with fslots := [(0, z)] }
/-- SpeculationResult: a slot armed by this process and by another, with and without a forecast and a pending decision, a descriptor that names a slot and one that does not, and the tile read. -/
theorem test_meets_spec : sfind (tQ tSlot).fslots (64 * dieOf (0 / 3) + 0) = some tSlot ∧ tSlot.asid = ((tQ tSlot).strand 0).e.asid ∧ slotHeld (tQ tSlot) 0 tSlot = false ∧ sfind (tS {}).fslots 63 = none ∧
    (∃ l u, readDwords 0xF100000000000000 8 (tS {}) = .ok l u ∧ slotOf l 0 = none) ∧ (∃ r u, readTile (agentCtx 0 tSlot.asid) tSlot.tile tSlot.len (tQ tSlot) = .ok r u) ∧
    ({ tSlot with pending := some ⟨1, 0, 0, true, [], 0⟩ } : FSlot).pending ≠ none ∧ ({ tSlot with asid := 1 } : FSlot).asid ≠ ((tQ tSlot).strand 0).e.asid := by
  refine ⟨rfl, rfl, rfl, rfl, ⟨_, _, rfl, rfl⟩, ⟨_, _, rfl⟩, by decide, by decide⟩
/-- A control block and a table of one stage; a sequencer that owns them. -/
def tBlock : SqBlock := { image := 0x1000, argbase := 0, cwaddr := 0xF100000000000000, craddr := 0, recbase := 0, qid := 0, prio := 0, handoff := false, hmin := 0x3F800000, hmax := 0x3F800000, atol := 0, rtol := 0, endaddr := 0, factors := List.replicate 64 0x3F800000 }
def tTable : SqTable := { stages := 1, a := [], b := [], c := [], d := [] }
def tSolver (x : Solver) : State := { tS {} with solvers := [(0, { x with owner := some 0, block := some tBlock, table := some tTable })] }
/-- A sample. -/
def tSample : Sample := { t := 0, h := 0x3F800000, tend := 0x3F800000, fslot := 0, nelem := 1, y := 0, hist := 0 }
/-- SolverResult: the sequencer owned and free, running and not, with and without samples, at each phase; a norm that is accepted and one that is a NaN. -/
theorem test_meets_solver : ((tSolver {}).groupOf 0).map (·.kernel) = ((tSolver {}).solver 0).owner ∧ ((tSolver {}).solver 0).running = false ∧ ((tS {}).solver 0).owner = none ∧
    ((tSolver { phase := some (.launch 0) }).solver 0).running = true ∧ ((tSolver { samples := [tSample] }).solver 0).samples ≠ [] ∧ ((tSolver { samples := [tSample] }).solver 0).active ≠ [] ∧
    ((tSolver {}).solver 0).active = [] ∧ (∃ v u, readDword (tSolver {}).ctx tBlock.cwaddr (tSolver {}) = .ok v u) ∧ (∃ l u, readDwords 0xF100000000000000 8 (tS {}) = .ok l u) ∧
    acceptable 0x3F000000 = true ∧ (unpack fmt32 0x7FC00000).isNan = true ∧ (∃ y, y ∈ ((tSolver { samples := [tSample] }).solver 0).samples) := by
  refine ⟨rfl, rfl, rfl, rfl, by decide, by decide, by decide, ⟨_, _, rfl⟩, ⟨_, _, rfl⟩, rfl, rfl, ⟨tSample, by decide⟩⟩

/-- A process table whose entry for ASID 0 leads to a table that maps the first gibibyte to itself (R488, R491). -/
def tTables : List Host.Cell := [⟨0, 1⟩, ⟨2, 1⟩, ⟨0x2000, 0xF3⟩, ⟨0x2001, 0x01⟩, ⟨0x10000, 0x01⟩, ⟨0x10001, 0x20⟩]
/-- Queue 0 as x, in a launch unit of n queues, with the slots l. -/
def tU (x : SQueue) (n : BitVec 17) (l : Sparse HwSlot) : State := { tS {} with mem := tTables, dev := { (tS {}).dev with ready := true }, lu := { queues := [(0, x)], qcount := n, slots := l } }
/-- QueueEvents: a queue beyond QCOUNT, one in each state with a tail at its head, within and beyond the ring, with a slot and without, a WAITING queue first in line, and a quantum that has passed and one that has not. -/
theorem test_meets_queues : (tU {} 0 []).lu.qcount.toNat ≤ 0 ∧ 0 < (tU {} 1 []).lu.qcount.toNat ∧ ((tU { state := .idle } 1 []).queue 0).slot = none ∧
    2 ^ 0 < ((2 : BitVec 32) - 0).toNat ∧ ¬2 ^ 0 < ((1 : BitVec 32) - 0).toNat ∧ ((tU { state := .mapped, slot := some 3 } 1 [(3, { state := .active })]).queue 0).slot = some 3 ∧
    ((tU { state := .mapped, slot := some 3 } 1 [(3, { state := .active })]).slotOf 3).state ≠ .free ∧ (tU {} 1 []).dev.ready = true ∧
    (∃ p, firstBy waitsBefore ((tU { state := .waiting } 1 []).lu.queues.filter (fun p => p.2.state == .waiting)) = some p) ∧ ((tU {} 1 []).slotOf 0).state = .free ∧
    (tU {} 1 []).now < (tU {} 1 []).lu.lastQuantum + 1000 * (tU {} 1 []).lu.quantum.toNat ∧
    ({ tU {} 1 [] with timeNs := 100000 } : State).lu.lastQuantum + 1000 * (tU {} 1 []).lu.quantum.toNat ≤ ({ tU {} 1 [] with timeNs := 100000 } : State).now ∧
    tGot (luTry (luDwords 0 (descAddr (tU {} 1 []) 0) 3) (tU {} 1 [])) = 0 ∧
    tGot (luTry (luDwords 0 (descAddr (tU {} 1 []) 0) 3) { tU {} 1 [] with mem := [] }) = 1 := by
  refine ⟨by decide, by decide, rfl, by decide, by decide, rfl, by decide, rfl, ⟨_, rfl⟩, rfl, by decide, by decide, by decide +kernel, by decide +kernel⟩
/-- The record that a loading slot reads, one that waits for a dependence, and kernels for the check of their image and for their end. -/
def tRec : Record := { deps := [(0, 0), (0, 0), (0, 0), (0, 0)] }
/-- A mapped queue with one record that is read or ready, in slot 3. -/
def tL3 (x : HwSlot) : State := tU { state := .mapped, slot := some 3, tail := 1 } 1 [(3, x)]
/-- RecordEvents: a slot that loads and one that is blocked, a record that is accepted, a slot whose HEAD is being written back, kernels that are checked or not, and a kernel that ends with no group left. -/
theorem test_meets_records : ((tL3 { state := .loading }).slotOf 3).state = .loading ∧ tGot (luTry (copyDesc 0) (tL3 { state := .loading })) = 0 ∧
    ((tU {} 1 [(3, { state := .blocked, record := some tRec })]).slotOf 3).state = .blocked ∧
    (∃ x, firstBy (acceptedBefore (tL3 { state := .active, record := some tRec })) ((tL3 { state := .active, record := some tRec }).lu.slots.filter (fun p =>
      (p.2.state == .active || p.2.state == .draining) && !p.2.accepting && eligibleAt (tL3 { state := .active, record := some tRec }) p.1 &&
        ((tL3 { state := .active, record := some tRec }).queue p.2.qid).head != ((tL3 { state := .active, record := some tRec }).queue p.2.qid).tail)) = some (3, x)) ∧
    ((tL3 { state := .draining, accepting := true, disable := true }).slotOf 3).disable = true ∧ ((tL3 {}).queue 0).slot = some 3 ∧
    tGot (luTry (checkImage (tS {}) { tKernel with checked := false, state := .waiting }) (tS {})) = 1 ∧ sfind (tS {}).kernels 1 = none ∧
    (∀ g ∈ ({ tS {} with groups := [], kernels := [(0, { tKernel with state := .ending })] } : State).groups, g.2.kernel ≠ 0) ∧ globalWritesWait (tS {}) = false ∧
    tDone (completionWrites { tKernel with state := .ending } 0) (drainAll { tS {} with groups := [] }) = true := by
  refine ⟨rfl, by decide +kernel, rfl, ⟨_, rfl⟩, rfl, rfl, by decide +kernel, rfl, by decide, rfl, by decide +kernel⟩
/-- A kernel with one group of one strand left to place on die 0. -/
def tWait : Kernel := { qid := 0, recNo := 0, asid := 0, evvec := 0, record := tRec, checked := true, res := { vwin := 3 }, toPlace := [(0, (0, 1))], waitSince := [(0, 0)] }
def tN : State := { State.reset with kernels := [(0, tWait)] }
/-- PlacementEvents: a die in service and one beyond, a kernel that waits, a group that fits, one that has waited 1 ms, page 7 and page 8 of a core, and a strand at its end, with transfers and without. -/
theorem test_meets_placement : tN.dev.diemap.getLsbD 3 = true ∧ ¬(tN.dev.diemap.getLsbD 4 = true ∧ 4 < 4) ∧ waitingKernels tN 0 = [(0, tWait)] ∧
    (searchCore tN 0 tWait (nextGroup tWait 0).2).isSome = true ∧ (fits tN tWait 1 127).isSome = true ∧ (tN.sched 0).stops.contains 0 = false ∧
    (({ tN with timeNs := 1000000 } : State).now = 1000000) ∧ (sfind tWait.waitSince 0).any (fun t => decide (t + 1000000 ≤ 1000000)) = true ∧ (127 < 128 ∧ 7 < 8) ∧
    ((tS { ending := true, status := .running }).strand 0).ending = true ∧ (∀ c ∈ ((tS { ending := true, status := .running }).strand 0).chan.toList, c.pending = []) ∧
    (∃ z u, unmapAll 0 { tS { ending := true, status := .running } with actor := .strand 0 } = .ok z u) ∧
    heldChannel (tK { fault := some (0, .memPoison, 8) } 1 0) = some (0, 8) := by
  refine ⟨rfl, by decide, rfl, by decide +kernel, by decide +kernel, rfl, rfl, by decide, by decide, rfl, by decide, ⟨_, _, rfl⟩, rfl⟩
/-- CacheEvents: a word of the first home that is read, one held in an L1 dirty and clean, a registration, a home that serves a snoop and one where a request stands, an external line held clean and dirty, a request refused 64 cycles ago, a strand and a translation that have waited 4 ms, and a watch that is met. -/
theorem test_meets_cache : reachable (tS {}) (4 * 0) = true ∧ nearVal (tS {}) 0 0 = none ∧ wordPoisoned (tS {}) 0 = false ∧ homeHeld (tS {}) (regionOf 0) = false ∧
    homeHeld { tS {} with busy := [(2 ^ 42, ⟨2 ^ 44, true⟩)] } (2 ^ 44 / 4) = true ∧ sfind ({ tS {} with busy := [(2 ^ 42, ⟨2 ^ 44, true⟩)] } : State).busy (2 ^ 44 / 4) = some ⟨2 ^ 44, true⟩ ∧
    homeHeld { tS {} with waiters := [⟨.read, 5, 63, 0, false⟩] } 0 = true ∧ standsFor { tS {} with waiters := [⟨.read, 5, 63, 0, false⟩] } .read 5 63 = true ∧ standsFor (tS {}) .read 5 63 = false ∧
    pendingFor { tS {} with pending := [⟨0, 0, [4, 5], 0⟩] } 0 1 = some ⟨0, 0, [4, 5], 0⟩ ∧ pendingFor { tS {} with pending := [⟨0, 0, [4, 5], 0⟩] } 0 2 = none ∧ isLost (tS {}) 0 = false ∧
    sfind ({ tS {} with l1 := [(ckey 0 0, ⟨5, true, 0⟩)] } : State).l1 (ckey 0 0) = some ⟨5, true, 0⟩ ∧ homeDie 0 = dieOf 31 ∧ homeDie 0 ≠ dieOf 32 ∧ isExternal (16 * 0) = false ∧ isExternal (16 * 2 ^ 44) = true ∧
    (lineHeld { tS {} with lines := [(2 ^ 44, .s)] } (2 ^ 44) = true ∧ lineDirty { tS {} with lines := [(2 ^ 44, .s)] } (2 ^ 44) = false ∧ lineDirty { tS {} with lines := [(2 ^ 44, .o)] } (2 ^ 44) = true) ∧
    (∃ x, ({ tS {} with refused := [⟨.read, 5, 63, 0, false⟩] } : State).refused.find? (fun x => x.core == 5 && x.word == 63) = some x ∧ x.since + 64 ≤ ({ tS {} with cycle := 64 } : State).cycle.toNat) ∧
    ({ since := some 0 } : Wait).timeout 4000000 = { since := some 0, verdict := some .memTimeout } ∧ (3 < 4 ∧ (0 : Word).toNat ≤ (0 : Word).toNat) ∧
    watchMet (tS {}) 4 ⟨0, 0, 0, 0, false⟩ = true := by
  refine ⟨rfl, rfl, rfl, rfl, rfl, rfl, rfl, rfl, rfl, rfl, rfl, rfl, rfl, by decide, by decide, by decide, by decide, ⟨rfl, rfl, rfl⟩, ⟨_, rfl, by decide⟩, by decide, by decide, by decide⟩

/-- A strand whose save area is proper, as strand 0 of the group, translated by the tables. -/
def tV2 (p : Strand) : State := { tS { p with e := { p.e with ptbase := 1 } } with mem := tTables, cores := [(0, { savelo := #v[0x40, 0, 0] })] }
/-- StopEvents: a strand that runs and one that is STOPPING and one that is SAVED, with a proper save area and without; a persistent kernel whose heartbeat has passed and one whose run time has; a strand too long at executive level; a KCMD that names a kernel and one that names none. -/
theorem test_meets_stop : saveAreaOk (tV2 { status := .running }) 0 = true ∧ saveAreaOk (tS {}) 0 = false ∧ ((tV2 { status := .stopping }).strand 0).status = .stopping ∧
    ((tV2 { status := .stopping }).strand 0).level = .user ∧ ((tV2 { status := .saved }).strand 0).status = .saved ∧ (fxEnv (tS {}) 0).isNone = true ∧
    (∃ n, sfind ({ tS {} with kernels := [(0, { tKernel with res := { tKernel.res with persist := true } })] } : State).kernels 0 = some n ∧ n.res.persist = true ∧ 1000 * n.res.hbeatUs ≤ n.idleNs) ∧
    1000000 * 10000 < ({ tKernel with runNs := 10000000001 } : Kernel).runNs ∧
    (0 : Nat) + 1000 * 1 < ({ tS { level := .executive, f := { fewd := 1 } } with timeNs := 1001 } : State).now ∧ commandTarget { tS {} with kernels := [] } none = none ∧
    (∃ n, commandTarget (tS {}) (some 0) = some (0, n) ∧ n.state ≠ .suspendedHung) ∧ kernelStrands (tS { status := .running }) 0 = [0] ∧ kernelStrands { tS {} with groups := [] } 0 = [] := by
  refine ⟨by decide +kernel, by decide +kernel, rfl, rfl, rfl, rfl, ⟨_, rfl, rfl, by decide⟩, by decide, by decide, rfl, ⟨_, rfl, by decide⟩, by decide, by decide⟩
/-- Strand 0 with no vector window, its save area in no window. -/
def tA (st : RunState) : State := { State.reset with strands := [(0, { status := st, e := { vwin := 0xFF } })], cores := [(0, { savehi := #v[0xEF000000, 0, 0] })] }
/-- StopEvents: a save and a load that come to their end, and a load that has to wait at a home; a record that is being replayed, and instructions that have issued, that have not, and that are past. -/
theorem test_meets_save : (match saveArea 0 (stopStrand (tA .stopping) 0) with | .ok _ _ => true | .error _ _ => false) = true ∧
    (match loadArea 0 (tA .saved) with | .ok _ u => !(u.strand 0).squashed && (u.strand 0).task.isNone | .error _ _ => false) = true ∧
    (match loadArea 0 { tA .restoring with cores := [], busy := [(0, ⟨0, true⟩)] } with | .ok _ _ => false | .error _ _ => true) = true ∧
    ({ chain := some ⟨8, 0, 0, 0⟩, e := { chainPc := #v[5, 0, 0, 0] } } : Strand).chainEntry = some 0 ∧ ({ wait := { issued := true } } : Strand).wait.issued = true ∧
    ({ wait := { past := true } } : Strand).wait.past = true ∧ ({} : Strand).chain = none ∧ ({} : Strand).wait.issued = false := by
  refine ⟨by decide +kernel, by decide +kernel, by decide +kernel, by decide +kernel, rfl, rfl, rfl, rfl⟩
/-- StopEvents: a strand of an ended kernel at executive level goes on, STOPPING, and its group stays; at user level it has stopped and the group is gone (R483, R497). -/
theorem test_ended_kernel : ((endKernel (tS { level := .executive, status := .running }) 0 .cancelled).strand 0).status = .stopping ∧
    (endKernel (tS { level := .executive, status := .running }) 0 .cancelled).groups.isEmpty = false ∧
    (endKernel (tS { status := .running }) 0 .cancelled).groups.isEmpty = true ∧
    endedKernel (endKernel (tS { level := .executive, status := .running }) 0 .cancelled) 0 = some 0 ∧ endedKernel (tS {}) 0 = none ∧
    stopsNow (tS { status := .stopping }) 0 = true ∧ stopsNow (tS { level := .executive, status := .stopping }) 0 = false := by decide +kernel
/-- The state with core 0 as c and strand 0 with debug enabled. -/
def tD (c : CoreRegs) : State := { tS { f := { dbgen := true } } with cores := [(0, c)] }
/-- DebugEvents: debug enabled and not, a core that is halted and one that is not, 100 microseconds passed, a landing transfer, and an item of each space that is there and one that is not. -/
theorem test_meets_debug : dbgEnabled (tD {}) 0 = true ∧ dbgEnabled (tS {}) 0 = false ∧ ((tD { halted := true }).coreRegs 0).halted = true ∧ ((tD {}).coreRegs 0).halted = false ∧
    (0 : Nat) + 100000 ≤ ({ tD { halted := true } with timeNs := 100000 } : State).now ∧ landing (tS (tK { pending := [⟨0, tBox, 0, false, none, false, false, false, false⟩] } 1 0)) 0 = true ∧ landing (tS {}) 0 = false ∧
    (dbgItem (tD { halted := true, idx := 31 }) 0).isSome = true ∧ dbgItem (tD { halted := true, idx := 32 }) 0 = none ∧ (dbgItem (tD { halted := true, selSpace := 2 }) 0).isSome = true := by
  refine ⟨rfl, rfl, rfl, rfl, by decide, rfl, rfl, rfl, rfl, rfl⟩
/-- All ports trained and DLINK open, with strand 0 as p. -/
def tPort (p : Strand) : State := { tS p with dev := { (tS p).dev with facc := 0x80, portsUp := 0xFFFF } }
/-- HostEvents: a register and a hole, READY with sets of features that are consistent and not, each boot stage, a strand that waits for the host's translation, ports that are up, failing and out of service, and the last measurement. -/
theorem test_meets_host : isReg 0x100 = true ∧ isReg 0x30 = false ∧ (tS {}).lu.anyEnabled = false ∧ (tU { state := .idle } 1 []).lu.anyEnabled = true ∧ (tS {}).dev.ready = false ∧ (tU {} 1 []).dev.ready = true ∧
    ({ tS {} with dev := { (tS {}).dev with facc := 0x100 } } : State).feat 8 = true ∧ (tS {}).feat 8 = false ∧ (State.reset.dev.stage = 0 ∨ State.reset.dev.booted = true ∨ State.reset.dev.booterr ≠ 0) ∧
    (16 ≤ (16 : Nat)) ∧ (tPort {}).portUp 15 = true ∧ (tPort {}).feat 7 = true ∧ (tS {}).portUp 15 = false ∧ ((tS {}).linkPort 15).lost = false ∧ 9 ≤ ({ naks := 9 } : LinkPort).naks ∧ (1 ≤ 4 ∧ 4 ≤ 4 ∧ (4 : Nat) < 5 ∧ (5 : Nat) ≠ 255) ∧
    ((tS { wait := { out := some 0 } }).strand 0).wait.out = some 0 ∧ (tS {}).atsWaits[384 - 384]? = none := by
  refine ⟨rfl, rfl, rfl, rfl, rfl, rfl, rfl, rfl, by decide, by decide, rfl, rfl, rfl, rfl, by decide, by decide, rfl, rfl⟩
/-- HealthEvents: pages in service and beyond, fifteen corrections and sixteen, cores that are fenced, held back, empty and under test, and the bounds of the clock. -/
theorem test_meets_health : (2 ^ 26 - 1 < 2 ^ 26 ∧ (tS {}).dev.diemap.getLsbD ((2 ^ 26 - 1) / 2 ^ 24) = true ∧ 2 ^ 26 - 1 ∉ (tS {}).dev.retired) ∧ ¬2 ^ 26 < 2 ^ 26 ∧
    ((sget [] (tS {}).dev.corrections 5).filter (fun t => decide (0 < t + 86400000000000)) ++ [0]).length < 16 ∧
    16 ≤ ((sget [] [(5, List.replicate 15 0)] 5).filter (fun t => decide ((0 : Nat) < t + 86400000000000)) ++ [0]).length ∧ ((tS {}).coreRegs 127).fenced = false ∧ coreGroups (tS {}) 0 ≠ [] ∧ coreGroups (tS {}) 1 = [] ∧
    (0 : Nat) + 72000000000000 ≤ ({ tD { heldSince := some 0 } with timeNs := 72000000000000 } : State).now ∧ (0 : Nat) + 14400000000000 ≤ ({ tD { noNew := some 0 } with timeNs := 14400000000000 } : State).now ∧
    525 ≤ (525 : BitVec 16).toNat ∧ (524 : BitVec 16).toNat < 525 ∧ (1225 : BitVec 16).toNat + 25 = 1250 := by
  refine ⟨by decide, by decide, by decide, by decide, rfl, by decide, by decide, by decide, by decide, by decide, by decide, by decide⟩
/-- DecodeEncode: an instruction that is well formed and has a word. -/
theorem test_meets_encode : ∃ w, encode (.add 31 31 31) = some w ∧ (Instr.add 31 31 31).wf = true := ⟨_, rfl, rfl⟩
/-- The machine with the tables and strand 0 at address 0x100, whose word is w. -/
def tW (bytes : List Host.Cell) : State := { tS { status := .running, pc := 0x100, e := { ptbase := 1 } } with mem := tTables.take 2 ++ bytes ++ [⟨0x2000, 0xFB⟩, ⟨0x2001, 0x01⟩, ⟨0x10000, 0x01⟩, ⟨0x10001, 0x20⟩] }
/-- StepRunsDecoded: a strand that may issue fetches a word that encodes an instruction, here add x5, x6, x7, and one that encodes none, here the all-ones word; and a fetch that fails. -/
theorem test_meets_step : mayIssue (tW [⟨0x101, 0x38⟩, ⟨0x102, 0xA6⟩, ⟨0x103, 0x04⟩]) 0 = true ∧
    (∃ v, fetchWord ((issues (tW [⟨0x101, 0x38⟩, ⟨0x102, 0xA6⟩, ⟨0x103, 0x04⟩]) 0).upd 0 (·.leaveRecord)) = .ok 0x04A63800 v) ∧ (decode 0x04A63800 = .ok (.add 5 6 7)) ∧
    (∃ v, fetchWord ((issues (tW [⟨0x100, 0xFF⟩, ⟨0x101, 0xFF⟩, ⟨0x102, 0xFF⟩, ⟨0x103, 0xFF⟩]) 0).upd 0 (·.leaveRecord)) = .ok 0xFFFFFFFF v) ∧ decode 0xFFFFFFFF = .error .unassignedMajor ∧
    (∃ x v, fetchWord ((issues (tS { status := .running }) 0).upd 0 (·.leaveRecord)) = .error (.trap x) v) := by
  refine ⟨rfl, ⟨_, rfl⟩, rfl, ⟨_, rfl⟩, rfl, _, _, rfl⟩
/-- HaltSettled: a core that is halted and not settled while a transfer moves into it. -/
theorem test_meets_halt : ({ tS (tK { pending := [⟨0, tBox, 0, false, none, false, false, false, false⟩] } 1 0) with cores := [(0, { halted := true })] } : State).coreRegs 0 = { halted := true } ∧
    (∃ k, k / 3 = 0 ∧ landing { tS (tK { pending := [⟨0, tBox, 0, false, none, false, false, false, false⟩] } 1 0) with cores := [(0, { halted := true })] } k = true) := ⟨rfl, 0, rfl, rfl⟩

/-- A state in which a registration of core 0 is on its way to a home that serves a snoop, and the process table's home is held too. -/
def tHeld (p : Strand) : State := { tS p with pending := [⟨0, 2 ^ 36, [7], 0⟩], busy := [(0, ⟨0, true⟩), (2 ^ 30, ⟨2 ^ 32, false⟩)] }
set_option maxRecDepth 10000 in
/-- The waits that the statements name (TranslationRemoval to KernelCompletion, StepRunsDecoded): a release that has to wait for a home and one that need not, a deferred arrival, a placement, a decision that passes and one that does not, a kernel's last writes, and work of a unit. -/
theorem test_meets_waits : releaseWaits (tHeld {}) 0 .die = true ∧ releaseWaits (tHeld {}) 0 .core = false ∧ releaseWaits (tS {}) 0 .system = false ∧ globalWritesWait (tHeld {}) = true ∧
    arrivalWaits { tHeld { deferred := some 3 } with groups := [(0, { tGroup with bars := [(3, { link := true })] })] } 0 = true ∧ arrivalWaits (tS {}) 0 = false ∧
    tableWaits { tHeld {} with kernels := [(0, tWait)] } 0 = true ∧ tableWaits tN 0 = false ∧ tDone (passReady 0 ⟨0, 1⟩) (tQ tSlot) = true ∧
    tGot (luTry (luDwords 0 (descAddr (tU {} 1 []) 0) 3) { tU {} 1 [] with busy := [(0, ⟨0, true⟩)] }) = 2 ∧
    (match fetchWord ((issues { tS { status := .running } with busy := [(0, ⟨0, true⟩)] } 0).upd 0 (·.leaveRecord)) with | .error .wait _ => true | _ => false) = true ∧
    ({ home := true, asid := 0, page := 0, since := 0 } : AtsWait).home = true ∧ ((tS { wait := { home := some 5, out := some 0 } }).strand 0).wait.home ≠ none := by
  refine ⟨rfl, rfl, rfl, rfl, rfl, rfl, by decide +kernel, rfl, by decide +kernel, by decide +kernel, by decide +kernel, rfl, by decide⟩
/-- The orders and flights that the statements name (FullEmpty, SpecialAccess, QueueResult, CopyResult, FabricBinding, FabricRun, HealthEvents): a line on a word, a ring that another strand of the shard fills, saved transfers that run again, a binding under way, an invocation that runs, and a tile that is bound and one that is not. -/
theorem test_meets_flights : wordWaiters { tS {} with strands := [(0, {}), (1, { wait := { word := some 7 } })], wordLine := [⟨1, 7, true⟩] } 7 true = [1] ∧ wordWaiters (tS {}) 7 true = [] ∧
    ({ tS {} with strands := [(0, { place := some {}, rings := (Vector.replicate 8 ({} : Ring)).set 0 { unlanded := [(0, 1)] } }), (1, { place := some {}, wait := { issued := true } })] } : State).ringInFlight 0 0 = true ∧
    (tS {}).ringInFlight 0 0 = false ∧ (∃ y ∈ ((tK { pending := [{ id := 0, box := tBox, again := true }] } 1 0).channel 0).pending, y.again = true ∧ y.completed = false ∧ y.abandoned = false) ∧
    ((1, ({ wait := { bind := some 3 } } : Strand)) ∈ ({ tS {} with strands := [(0, {}), (1, { wait := { bind := some 3 } })] } : State).strands) ∧ bindRunning (tF tI) (bindKey 0 0 3) = true ∧
    (∃ i, sfind (tF tI).invs 0 = some i ∧ i.running = true) ∧ (sget ({} : Tile) (tT {}).tiles 0).bound ≠ none ∧ (sget ({} : Tile) (tT {}).tiles 1).bound = none ∧ 2 ^ 58 ≤ 2 ^ 58 + 16383 := by
  refine ⟨rfl, rfl, rfl, rfl, ⟨_, List.mem_singleton_self _, rfl, rfl, rfl⟩, List.mem_cons_of_mem _ (List.mem_singleton_self _), rfl, ⟨_, rfl, rfl⟩, by decide, by decide, by decide⟩

/-! ## Further hypotheses, each met -/

/-- The first gibibyte mapped to itself for user level, and a hit of the TLB for its first page. -/
def tMap (p : Strand) : State := { tS { p with e := { p.e with ptbase := 1 } } with mem := tTables.take 2 ++ [⟨0x2000, 0xFB⟩, ⟨0x2001, 0x01⟩, ⟨0x10000, 0x01⟩, ⟨0x10001, 0x20⟩] }
/-- The fabric's state with cell 0 to act and w as the wait of cell 1 of its page. -/
def tCell (w : Wait) : State := { tF tI with actor := .cell 0 0, cells := [(0, { x := (Vector.replicate 16 0).set 1 0xF100000000000000 }), (1, { wait := w })] }
/-- CellInteger: a port that is free and one that another cell's earlier access to the same bytes holds; a local access that answers, one that is out of range. -/
theorem test_meets_cell : (tCell {}).actor = .cell 0 0 ∧ LocalAccess (tCell {}) 0 0xF100000000000000 4 ∧ Memory.wf (tCell {}).mem = true ∧ Unpoisoned (tCell {}) (flatOf (tCell {}) 0 0xF100000000000000) 4 ∧
    (∀ p ∈ (tCell {}).cells, p.2.wait.seq = 0) ∧ (∃ p ∈ (tCell { seq := 1, out := some 0xF100000000000004 }).cells, p.1 ≠ 0 ∧ p.1 / 8 = 0 ∧ p.2.wait.seq = 1 ∧ p.2.wait.out = some 0xF100000000000004) ∧
    ((0xF100000000000000 : Dword).toNat < (0xF100000000000004 : Dword).toNat + 8 ∧ (0xF100000000000004 : Dword).toNat < (0xF100000000000000 : Dword).toNat + 8) ∧
    tDone (loadN (tCell {}).ctx 0xF100000000000000 4 0 0) (tCell {}) = true ∧ tTraps (loadN (tCell {}).ctx 0xF100000000001000 4 0 0) (tCell {}) .windowRange = true ∧
    tDone (storeN (tCell {}).ctx 0xF100000000000000 4 7 0 0) (tCell {}) = true := by
  refine ⟨rfl, ⟨by decide, by decide, by decide, ⟨0x1000, rfl, by decide⟩, rfl, rfl⟩, rfl, by unfold Unpoisoned; decide +kernel, by decide +kernel, by decide +kernel, by decide, by decide +kernel, by decide +kernel, by decide +kernel⟩
/-- FpRounded, FpUnrounded, TileElement: an exact result, operands of each class, and containers that hold numbers, a NaN, a scale and a record. -/
theorem test_meets_exact : (roundTo fmt32 .rne false 0 false 3 0).flags &&& 0x24 = 0 ∧ fpMode (tS {}) .rtz ≠ none ∧ unpack fmt32 0x7FC00000 = .nan false ∧ (unpack fmt32 0x7F800001).isSig = true ∧
    unpack fmt32 0xFF800000 = .inf true ∧ unpack fmt32 0x80000000 = .fin true 0 (-149) ∧ unpack fmt32 1 = .fin false 1 (-149) ∧ fpLt (unpack fmt32 0x3F800000) (unpack fmt32 0x40000000) = true ∧
    unpack fmtE4m3 0x38 = .fin false 8 (-3) ∧ (unpack fmtE4m3 0x7F).isNan = true ∧ unpack fmtE5m2 0x7C = .inf false ∧ recordOf 8 0x3C00 ≠ none ∧ recordOf 4 0x3C00 ≠ none := by decide +kernel
/-- Strand 0 in a chrysalis, its task as z; and strand 0 in a solo group. -/
def tIn (z : Task) : State := { tS { task := some 3 } with tasks := [(3, { z with state := .running 0, set := [⟨0, 1⟩] })] }
def tSolo : State := { tS (tV 1 2 0) with groups := [(0, { tGroup with trio := false, keys := [0], live := [0] })] }
/-- VectorLoad, VectorStore: nothing to process; a data group of 16 registers; a load that fails at its first element, at a later one and has to wait; one that leaves a chrysalis's read set; rings with no free slot, in a trio and a solo; a slot that is reserved; a ring whose sectors lie apart. -/
theorem test_meets_ends : (tS (tV 0 2 0)).idle = true ∧ 8 * ewBits 0x18 < grpRegs 0x18 * 16 ∧ 24 % 16 ≠ 0 ∧ (16 : Nat) % 16 = 0 ∧ (tM.strand 0).vtype = 2 ∧
    tTraps (vloadElem true 32 0 0xF100000000001000) tM .windowRange = true ∧ tDone (vloadElem true 32 0 0xF100000000000FFC) tM = true ∧ elements ((tS (tV 2 2 0)).strand 0) Msk.all false = [0, 1] ∧
    tWaits (vloadElem true 32 1 0) { tHeld { tV 2 2 0 with e := { ptbase := 1 } } with mem := (tMap {}).mem } = true ∧ (tM.strand 0).wait.begun = false ∧
    (∃ q, (tIn tTask).specTask 0 = some q ∧ inReadSet (tIn tTask) 0 q.2 0xF100000000000000 4 = false ∧ q.2.buf = []) ∧ (tIn tTask).cocoons = [] ∧
    ringRoom (tS (tV 2 2 0)) 0 = .ok () ∧
    ((tS { tV 2 2 0 with rings := ((Vector.replicate 8 ({} : Ring)).set 0 { base := 0xF1000000000000, nslotm1 := 1, log2slot := 9, tail := 2 }) }).ring 0 0).slots ≤ ((tS { tV 2 2 0 with rings := ((Vector.replicate 8 ({} : Ring)).set 0 { base := 0xF1000000000000, nslotm1 := 1, log2slot := 9, tail := 2 }) }).ring 0 0).used ∧ (tS {}).trio 0 = true ∧ tSolo.trio 0 = false ∧
    ({ base := 0, unlanded := [(4, 0)] } : Ring).unlanded.find? (fun q => q.2 == 0) = some (4, 0) ∧ queueName (tS (tV 2 2 0)) (.ring 0) = .ok () ∧
    (∀ x, x < 8 → ∀ y, y < 8 → x ≠ y → ringByte (tS (tV 2 2 0)) ((tS (tV 2 2 0)).ring 0 0) 0 (64 * x) + 64 ≤ ringByte (tS (tV 2 2 0)) ((tS (tV 2 2 0)).ring 0 0) 0 (64 * y) ∨
      ringByte (tS (tV 2 2 0)) ((tS (tV 2 2 0)).ring 0 0) 0 (64 * y) + 64 ≤ ringByte (tS (tV 2 2 0)) ((tS (tV 2 2 0)).ring 0 0) 0 (64 * x)) := by
  refine ⟨by decide, by decide, by decide, by decide, rfl, by decide +kernel, by decide +kernel, by decide, by decide +kernel, rfl, ⟨_, rfl, by decide +kernel, rfl⟩, rfl, by decide +kernel, by decide +kernel, rfl, rfl,
    by decide, rfl, by decide +kernel⟩
/-- TileMoves, TileProduct: a tile that a tmop of another strand of the core names, in flight. -/
theorem test_meets_held : tileTaken { tT {} with strands := [(0, {}), (1, { wait := { issued := true, tile := some 0, seq := 1 } })] } 0 = true ∧ tileTaken (tT {}) 0 = false ∧
    tFails (claimFault tSolo (.queue (.ring 0)) 1 1) .ringFault = true := by decide +kernel
/-- QueueResult: a ring that is full, a push that is too long for its slot, a relay without room, a slot that has not landed and one that never will, and slots claimed elsewhere. -/
theorem test_meets_push : ((tS (tV 129 0x22 0)).ring 0 0).slotBytes < 129 * 32 / 8 ∧ 2 ≤ (({ tS {} with strands := [(0, { place := some {}, relays := #v[[{}, {}], [], [], []] })] } : State).relay 0).length ∧
    tLater (queueReady (tS (tV 1 2 0)) (.ring 0) 1) = true ∧ tFails (queueReady tSolo (.ring 0) 1) .ringFault = true ∧
    ({ tS {} with strands := [(0, { place := some {} }), (1, { wait := { issued := true, claims := [(.ring 0, 1)] } })] } : State).claimsElsewhere 0 (.ring 0) = 1 := by decide +kernel

/-- The same once a walk has gone there. -/
def tWalked : State := { tMap {} with walks := [⟨0, 0, 0x10000, 0x2001⟩, ⟨0, 0, 0, 0x10001⟩] }
/-- CopyResult: a box of one byte whose bytes are apart, elements at homes of the package, and a channel that is held and abandons. -/
theorem test_meets_bytes : (∃ p, (p = (tS (tK { pending := [{ id := 0, box := tBox }] } 1 0)).strand 0) ∧ (p.channel 0).pending.find? (fun y => y.id == 0) = some { id := 0, box := tBox } ∧ p.status ≠ .saved ∧ (p.channel 0).fault = none) ∧
    tBox.esize ∈ [1, 2, 4, 8] ∧ tBox.cvt = false ∧ windowSize (tS (tK {} 0 0)) 0 (winCode tBox.src) = some 0x1000 ∧ localFlat (tS (tK {} 0 0)) 0 (winCode tBox.src) (winOff tBox.src) 0 + 1 ≤ localFlat (tS (tK {} 0 0)) 0 (winCode tBox.dst) (winOff tBox.dst) 0 ∧
    (match resolve (agentCtx 0 0) 0x3000 4 .read 0 0 tWalked with | .ok (.glob a .n) u => a == 0x3000 && decide (u = tWalked) | _ => false) = true ∧
    (match resolve (agentCtx 0 0) 0x4000 4 .write 0 0 tWalked with | .ok (.glob a .n) u => a == 0x4000 && decide (u = tWalked) | _ => false) = true ∧
    (((tS (tK { fault := some (0, .memPoison, 8) } 1 0)).strand 0).channel 0).fault = some (0, .memPoison, 8) := by
  refine ⟨⟨_, rfl, rfl, by decide, rfl⟩, by decide, rfl, rfl, by decide +kernel, by decide +kernel, by decide +kernel, rfl⟩
/-- SpeculationResult: an emergence that passes and one that has to wait, tasks that wait, run and are derived, and a speculative strand with stores in its buffer. -/
theorem test_meets_squash : tDone (passReady 0 ⟨0, 1⟩) { tIn tTask with fslots := [(0, tSlot)] } = true ∧ tWaits (passReady 0 ⟨0, 1⟩) { tIn { tTask with buf := [(0, 1)] } with busy := [(0, ⟨0, true⟩)], pending := [⟨0, 0, [7], 0⟩] } = true ∧
    (sfind (tP { tTask with state := .waiting, set := [⟨0, 1⟩] }).tasks 0).isSome = true ∧ (sfind (tIn tTask).tasks 3).map (·.state) = some (.running 0) ∧ (sfind (tP { tTask with derived := true }).tasks 0).map (·.derived) = some true ∧
    (∃ q, (tIn { tTask with buf := [(0, 1)] }).specTask 0 = some q ∧ q.2.buf ≠ []) ∧ ({ tSlot with pending := some ⟨1, 0, 0, true, [], 0⟩ } : FSlot).pending.map (·.pass) = some true := by
  refine ⟨by decide +kernel, by decide +kernel, rfl, rfl, rfl, ⟨_, rfl, by decide⟩, rfl⟩
/-- SolverResult: hand-offs that are armed, a hand-off whose tile has to wait, and strands whose sqend waits and is answered. -/
theorem test_meets_handoff : tDone (armHandoffs 0) (tSolver { samples := [tSample] }) = true ∧ tWaits (armHandoffs 0) { tSolver { samples := [{ tSample with y := 0x3000 }] } with mem := (tMap {}).mem, busy := [(0, ⟨0, true⟩)] } = true ∧
    0 ∈ (({ enders := [0] } : Solver)).enders ∧ ((tSolver { phase := some (.launch 0), stopping := true, enders := [0] }).solver 0).running = true := by
  refine ⟨by decide +kernel, by decide +kernel, by decide, rfl⟩
/-- HostEvents: a process that shares the host's page tables, accesses that ask and that stand, boot stages 2 and 5, and a chip that answers its first registers only. -/
theorem test_meets_shared : pasidOf { tS {} with mem := [⟨3, 0x80⟩], dev := { (tS {}).dev with facc := 0x100 } } 0 = some 0 ∧ ({ asked := true, out := some 0x3000 } : Wait).asks 3 = true ∧ ({ asked := true, out := some 0x3000, since := some 0 } : Wait).since = some 0 ∧
    ({ (tS {}).dev with stage := 2 } : Device).stage = 2 ∧ ({ (tS {}).dev with stage := 5 } : Device).booted = false ∧ ({ (tS {}).dev with booterr := 1 } : Device).booterr ≠ 0 ∧ (0x1C < 0x20 ∧ ¬(0x100 < 0x20)) := by
  refine ⟨by decide +kernel, by decide, rfl, rfl, rfl, by decide, by decide⟩
/-- HealthEvents: temperatures and powers at their bounds, 10 ms of calm, the first number of a relay queue's element, and a die with a group. -/
theorem test_meets_hot : 115 ≤ ({ (tS {}).dev with tmax := 115 } : Device).tmax.toNat ∧ 100 < ({ (tS {}).dev with tmax := 101 } : Device).tmax.toNat ∧ (tS {}).dev.cap.toNat < ({ (tS {}).dev with nowW := 3401 } : Device).nowW.toNat ∧ (0 : Nat) + 10000000 ≤ 10000000 ∧
    2 ^ 59 ≤ 2 ^ 59 ∧ (∃ g ∈ (tS {}).groups, g.2.kernel = 0 ∧ g.2.core / 32 = 0) ∧ (tS {}).dev.diemap.getLsbD 0 = true := by decide
/-- StepRunsDecoded: a strand at address 0 with and without a task, a fetch that hits the TLB and the instruction cache and one that reads the home, a cell that may fire, and an event that is no instruction of a program. -/
theorem test_meets_fetch : mayIssue (tS { status := .running }) 0 = true ∧ ((tS { status := .running }).strand 0).level = .user ∧ ((tS { status := .running }).strand 0).pc = 0 ∧ ((tIn tTask).strand 0).task.isSome = true ∧
    (∃ e, tlbFind { tS {} with tlb := [atsEntry 0 0 0 0x1FB] } 0 0 0x100 = some e ∧ leafDenied .fetch true e.pte = false ∧ e.pr = false ∧ effClass (tS {}) e 0x100 = some .n) ∧ reachable (tS {}) 0x100 = true ∧ ownWord (tS {}) 0 0x40 = false ∧
    sfind ({ tS {} with icache := [(ckey 0 0x40, 7)] } : State).icache (ckey 0 0x40) = some 7 ∧ cellMayFire { tF tI with cells := [(0, { frames := [(0, [0x04A63800])] })] } 0 0 = true ∧
    cellWordAt { tF tI with cells := [(0, { frames := [(0, [0x04A63800])] })] } 0 0 = some 0x04A63800 ∧ (cellOp 0x04A63800).isSome = true ∧ cellReissue (tF tI) 0 0 = none ∧ encode .clockRaise = none := by
  refine ⟨rfl, rfl, rfl, rfl, ⟨_, rfl, rfl, rfl, rfl⟩, rfl, rfl, rfl, by decide +kernel, rfl, rfl, rfl, rfl⟩
/-- R205, R216, R225: vcvtfi and vmfnan take no queue form. -/
theorem test_decode_no_queue : decode (0b011111_00100_00101_00000_0_1_0_000_01100 : BitVec 32) = .error .unusedField ∧ decode (0b100011_00011_01000_00000_0_1_0_000_01001 : BitVec 32) = .error .unusedField := ⟨rfl, rfl⟩

/-! ## Worked examples of the spec, one step each -/

/-- An instruction answers a next state of which p holds. -/
noncomputable def tRes (i : Instr) (s : State) (p : State → Bool) : Bool := match exec i s with | .next t => p t | .fault _ => false | .refused _ => false
/-- Strand p with vector registers that hold the elements of width w listed. -/
def tR (p : Strand) (w : Nat) (l : List (Nat × List Nat)) : State := { tT p with vregs := l.map (fun q => ((tS p).vkey 0 q.1, BitVec.ofNat 4096 (packElems w q.2))) }
/-- The first n elements of width w of register v of strand 0. -/
def tElems (t : State) (v w n : Nat) : List Nat := (List.range n).map (vget t 0 v w)

/-- R129: 7 divided by 0 gives all ones, and its remainder 7. -/
theorem test_divn_zero : tRes (.divn 3 2 0) (tS (tX 7)) (fun t => readX (t.strand 0).x 3 == 0xFFFFFFFFFFFFFFFF) = true := by decide +kernel
theorem test_remn_zero : tRes (.remn 3 2 0) (tS (tX 7)) (fun t => readX (t.strand 0).x 3 == 7) = true := by decide +kernel
/-- R130, R131: −16 shifted right by 3 is −2. -/
theorem test_sra : tRes (.sraI 5 2 3) (tS (tX 0xFFFFFFFFFFFFFFF0)) (fun t => readX (t.strand 0).x 5 == 0xFFFFFFFFFFFFFFFE) = true := by decide +kernel
/-- R133, R135: the store of the example whose address runs into window 0xF0 is misaligned. -/
theorem test_store_misaligned : tRes (.st64 7 2 0x1FFF) (tS (tX 0xF100000000000004)) (fun t => (t.strand 0).e.cause == Cause.code .misaligned && (t.strand 0).e.addr == 0xF0FFFFFFFFFFFFFC) = true := by decide +kernel
/-- R144: the fourth tloop finds 4 not below 4. -/
theorem test_tloop_last : tRes (.tloop 0 2 0x1FFB) (tS { tX 4 with tlc := #v[3, 0, 0, 0], pc := 0x40 }) (fun t => (t.strand 0).tlc[0] == 0 && (t.strand 0).pc == 0x44) = true := by decide +kernel
/-- R198: vsetl with 1,000 and VLMAX 256. -/
theorem test_vsetl : tRes (.vsetl 5 2 0x0A) (tS (tX 1000)) (fun t => readX (t.strand 0).x 5 == 256 && (t.strand 0).vl == 256) = true := by decide +kernel
/-- R210: vadds saturates where vadd wraps. -/
theorem test_vadds : tRes (.vadds 2 (.vreg 4) (.xreg 2) Msk.all) (tR { tX 50 with vl := 4 } 8 [(4, [100, 100, 128, 5])]) (fun t => tElems t 2 8 4 == [127, 127, 178, 55] && (t.strand 0).fflags == 0x20) = true := by decide +kernel
theorem test_vadd : tRes (.vadd 2 (.vreg 4) (.xreg 2) Msk.all) (tR { tX 50 with vl := 4 } 8 [(4, [100, 100, 128, 5])]) (fun t => tElems t 2 8 4 == [150, 150, 178, 55] && (t.strand 0).fflags == 0) = true := by decide +kernel
/-- R212 to R216: FP32 to BF16 and to signed bytes. -/
theorem test_vcvtbf16 : tRes (.vcvtbf16 5 (.vreg 2) 0 Msk.all) (tR (tV 3 2 0) 32 [(2, [0x3F808000, 0xC1800000, 0x7F800000])]) (fun t => tElems t 5 16 3 == [0x3F80, 0xC180, 0x7F80] && (t.strand 0).fflags == 1) = true := by decide +kernel
theorem test_vcvti8 : tRes (.vcvti8 5 (.vreg 2) 0 Msk.all) (tR (tV 3 2 0) 32 [(2, [0x3F808000, 0xC1800000, 0x7F800000])]) (fun t => tElems t 5 8 3 == [1, 0xF0, 127] && (t.strand 0).fflags == 0x21) = true := by decide +kernel
/-- R220 to R222: a block whose greatest magnitude is 6.0. -/
theorem test_vmxq : tRes (.vmxq 6 (.vreg 2) 10 false Msk.all) (tR (tV 32 2 0) 32 [(2, [0x40C00000, 0x3F000000])]) (fun t => tElems t 6 8 3 == [0x7C, 0x60, 0] && vget t 0 10 8 0 == 0x79 && (t.strand 0).fflags == 0) = true := by decide +kernel
/-- R176, R177: the reciprocal square root of 4.0, of 2.0 and of the smallest subnormal, and 2 to the −3. -/
theorem test_vfrsqe : tRes (.vfrsqe 8 (.vreg 4) Msk.all) (tR (tV 3 2 0) 32 [(4, [0x40800000, 0x40000000, 1])]) (fun t => tElems t 8 32 3 == [0x3EFC0000, 0x3F340000, 0x64B40000]) = true := by decide +kernel
theorem test_vfexp2 : tRes (.vfexp2 8 (.vreg 4) Msk.all) (tR (tV 1 2 0) 32 [(4, [0xC0400000])]) (fun t => tElems t 8 32 1 == [0x3E000000]) = true := by decide +kernel
/-- R223, R224: vzip of six elements. -/
theorem test_vzip : tRes (.vzip 8 (.vreg 2) 3 Msk.all) (tR (tV 6 1 0) 16 [(2, [1, 2, 3, 4, 5, 6]), (3, [11, 12, 13, 14, 15, 16])]) (fun t => tElems t 8 16 6 == [1, 11, 2, 12, 3, 13]) = true := by decide +kernel
/-- R228: the tree sum with element 2 masked off. -/
theorem test_vfredt : tRes (.vfredt 1 (.vreg 3) (.vreg 2) ⟨false, 1⟩) (tR { tV 5 2 0 with m := (Vector.replicate 8 0).set 1 0b11011 } 32 [(3, [0x3F800000, 0x4B800000, 0x40A00000, 0x3F800000, 0x3F800000])])
    (fun t => tElems t 1 32 1 == [0x4B800000] && (t.strand 0).fflags == 1) = true := by decide +kernel
/-- R232, R235: vcompress under a mask. -/
theorem test_vcompress : tRes (.vcompress 8 (.vreg 4) ⟨false, 1⟩) (tR { tV 6 0x22 0 with m := (Vector.replicate 8 0).set 1 0b100110 } 32 [(4, [10, 11, 12, 13, 14, 15])])
    (fun t => tElems t 8 32 6 == [11, 12, 15, 0, 0, 0] && (t.strand 0).vl == 3) = true := by decide +kernel
/-- R238: a segmented scan with element 2 masked off. -/
theorem test_vsscan : tRes (.vsscan 4 (.vreg 2) (.mask 5) ⟨false, 1⟩) (tR { tV 6 2 0 with m := ((Vector.replicate 8 0).set 1 0b111011).set 5 0b001010 } 32 [(2, [1, 2, 3, 4, 5, 6])])
    (fun t => tElems t 4 32 6 == [1, 2, 0, 4, 9, 15]) = true := by decide +kernel
/-- R240 to R242: the block list of query block 3, causal with one anchor. -/
theorem test_vblklist : tRes (.vblklist 6 (.vreg 2) 2) (tR { tV 1 2 0 with x := writeX (Vector.replicate 32 0) 2 4 } 16 [(2, [3, 2, 0, 0x0101])]) (fun t => tElems t 6 32 3 == [0, 2, 3] && (t.strand 0).vl == 3) = true := by decide +kernel
/-- R243 to R246: the three greatest of eight, one of them a NaN. -/
theorem test_vtopk : tRes (.vtopk 8 (.vreg 4) 5 Msk.all) (tR { tV 8 2 0 with x := writeX (Vector.replicate 32 0) 5 3 } 32 [(4, [0x3F800000, 0x7FC00000, 0x40400000, 0x40400000, 0x80000000, 0x40A00000, 0x40000000, 0])])
    (fun t => tElems t 8 32 3 == [0x40A00000, 0x40400000, 0x40400000] && tElems t 9 32 3 == [5, 2, 3] && readX (t.strand 0).x 5 == 0x4040000041300000 && (t.strand 0).vl == 3) = true := by decide +kernel
/-- R171, R257: the exact sum of 2^30, −2^30 and 1.0. -/
theorem test_tmop_bf16 : tRes (.tmop 0 .bf16 (.regs 8 9) 2 false false) { tR { tV 1 2 0 with m := (Vector.replicate 8 0).set 2 1 } 32 [(8, [0xC7004700]), (9, [0x47004700])] with tiles := [(0, { bound := some (0, 0), rows := [(0, 0x3F800000)] })] }
    (fun t => (t.tile 0).elem 0 0 == 0x3F800000 && (t.strand 0).fflags == 0) = true := by decide +kernel
/-- R172, R257: a saturating integer step, and the same step without saturation. -/
theorem test_tmop_i8_sat : tRes (.tmop 0 .i8 (.regs 4 6) 2 false true) { tR { tV 1 2 0 with m := (Vector.replicate 8 0).set 2 1 } 32 [(4, [0x7F7F7F7F]), (6, [0x7F7F7F7F])] with tiles := [(0, { bound := some (0, 0), int := true, rows := [(0, 0x7FFFD8F0)] })] }
    (fun t => (t.tile 0).elem 0 0 == 0x7FFFFFFF && (t.strand 0).fflags == 0x20) = true := by decide +kernel
theorem test_tmop_i8 : tRes (.tmop 0 .i8 (.regs 4 6) 2 false false) { tR { tV 1 2 0 with m := (Vector.replicate 8 0).set 2 1 } 32 [(4, [0x7F7F7F7F]), (6, [0x7F7F7F7F])] with tiles := [(0, { bound := some (0, 0), int := true, rows := [(0, 0x7FFFD8F0)] })] }
    (fun t => (t.tile 0).elem 0 0 == 0x8000D4F4 && (t.strand 0).fflags == 0) = true := by decide +kernel
/-- R275, R282: a load that trims at the end of its window, and one whose first element fails. -/
theorem test_vld_trims : tRes (.vld 1 2 false false Msk.all 2) (tS { tV 4 0x22 0 with x := writeX (Vector.replicate 32 0) 2 0xF100000000000FF8 }) (fun t => (t.strand 0).vl == 2 && (t.strand 0).pc == 4) = true := by decide +kernel
theorem test_vld_traps : tRes (.vld 1 2 false false Msk.all 2) (tS { tV 4 0x22 0 with x := writeX (Vector.replicate 32 0) 2 0xF100000000001000 })
    (fun t => (t.strand 0).e.cause == Cause.code .windowRange && (t.strand 0).vl == 4 && (t.strand 0).vstart == 0) = true := by decide +kernel
/-- R288, R289: the window of vgatw, with indices 0, 508, 512 and 6. -/
theorem test_vgatw : tRes (.vgatw 4 2 8 false false 3 2) (tR { tV 4 2 0 with x := writeX (Vector.replicate 32 0) 2 0xF100000000000000, m := (Vector.replicate 8 0).set 3 0xF } 32 [(8, [0, 508, 512, 6])])
    (fun t => (t.strand 0).m[3] == 0b1100) = true := by decide +kernel
/-- R295: ldc of a full word returns it and empties it; of an empty word it waits. -/
theorem test_ldc : tRes (.ldc .core 5 2) { tS (tX 0xF100000000000000) with full := [flatOf (tS {}) 0 0xF100000000000000 / 4] } (fun t => t.full == [] && (t.strand 0).wait.blocked == false) = true := by decide +kernel
theorem test_ldc_waits : tRes (.ldc .core 5 2) (tS (tX 0xF100000000000000)) (fun t => (t.strand 0).wait.blocked && (t.strand 0).pc == 0) = true := by decide +kernel
/-- R410 to R416: the second of two arrivals ends a phase and receives its number. -/
theorem test_barrive : tRes (.barrive 5 2 0) { tS (tX 3) with groups := [(0, { tGroup with bars := [(3, { expect := 2, count := 1, phase := 7 })] })] }
    (fun t => readX (t.strand 0).x 5 == 7 && (t.bar 0 3).phase == 8 && (t.bar 0 3).count == 0) = true := by decide +kernel
/-- R146, R474: an xcall saves its own address and enters the executive at EVEC. -/
theorem test_xcall : tRes .xcall (tS { pc := 0x40, e := { vec := 0x400 } }) (fun t => (t.strand 0).pc == 0x1000 && (t.strand 0).e.epc == 0x40 && (t.strand 0).e.ppriv == 0 && (t.strand 0).level == .executive) = true := by decide +kernel
/-- A whole step: the word at the PC is add x5, x6, x7. -/
theorem test_step_add : (match step (tW [⟨0x101, 0x38⟩, ⟨0x102, 0xA6⟩, ⟨0x103, 0x04⟩]) with | .next t => (t.strand 0).pc == 0x104 | _ => false) = true := by decide +kernel

end Sys2Proof.Tests
end

section
/-! What the host's events do (R5, R6, R505 to R512): lemmas for the statement HostEvents, and its proof. -/

namespace Sys2Proof.Machine
open Sys2Proof

/-! ## The device's registers -/

@[simp] theorem State.updDev_dev (s : State) (f : Device → Device) : (s.updDev f).dev = f s.dev := rfl
@[simp] theorem State.updDev_mem (s : State) (f : Device → Device) : (s.updDev f).mem = s.mem := rfl
@[simp] theorem State.updDev_strands (s : State) (f : Device → Device) : (s.updDev f).strands = s.strands := rfl
@[simp] theorem State.updDev_out (s : State) (f : Device → Device) : (s.updDev f).out = s.out := rfl
@[simp] theorem State.setLinkPort_dev (s : State) (n : Nat) (p : LinkPort) :
    (s.setLinkPort n p).dev = { s.dev with linkPorts := sput s.dev.linkPorts n p } := rfl
@[simp] theorem State.setLinkPort_mem (s : State) (n : Nat) (p : LinkPort) : (s.setLinkPort n p).mem = s.mem := rfl
@[simp] theorem State.setLinkPort_strands (s : State) (n : Nat) (p : LinkPort) : (s.setLinkPort n p).strands = s.strands := rfl
@[simp] theorem State.setLinkPort_out (s : State) (n : Nat) (p : LinkPort) : (s.setLinkPort n p).out = s.out := rfl
@[simp] theorem State.linkPort_setLinkPort_self (s : State) (n : Nat) (p : LinkPort) : (s.setLinkPort n p).linkPort n = p :=
  sget_sput_self _ _ _ _

/-- The state with one more message sent. -/
def State.say (s : State) (o : Outbound) : State := { s with out := s.out ++ [o] }
@[simp] theorem State.say_linkPort (s : State) (o : Outbound) (n : Nat) : (s.say o).linkPort n = s.linkPort n := rfl
@[simp] theorem State.say_mem (s : State) (o : Outbound) : (s.say o).mem = s.mem := rfl
@[simp] theorem State.say_strands (s : State) (o : Outbound) : (s.say o).strands = s.strands := rfl
@[simp] theorem State.say_out (s : State) (o : Outbound) : (s.say o).out = s.out ++ [o] := rfl

/-! ## Register writes (R5, R6, R505, R507) -/

/-- An instruction whose outcome is known runs to exactly that state. -/
theorem runs_eq {i : Instr} {s t : State} (h : exec i s = .next t) : Runs i s (fun u => u = t) := ⟨t, h, rfl⟩

theorem answers_iff (s : State) (off : Nat) :
    answers s off = true ↔ s.dev.inReset = false ∧ (s.dev.booterr = 0 ∨ off < 0x20 ∨ off = 0x240) := by
  simp [answers, or_assoc]
theorem execRegisterWrite_reaches {s : State} {off : Nat} (v : Word) (hr : isReg off = true) (ha : answers s off = true) :
    execRegisterWrite off v s = .next (regWrite s none off v) := by simp [execRegisterWrite, hr, ha]
theorem execRegisterWrite_ignored {s : State} {off : Nat} (v : Word) (h : ¬(isReg off = true ∧ answers s off = true)) :
    execRegisterWrite off v s = .next s := by simp [execRegisterWrite, h]

/-- The identification registers ignore a write (R28). -/
theorem regWrite_identification (s : State) {off : Nat} (v : Word) (h : off < 0x20) : regWrite s none off v = s := by
  interval_cases off <;> rfl
/-- While READY is set the accepted features stand (R507). -/
theorem regWrite_facc_of_ready {s : State} {i : Nat} (v : Word) (h : s.dev.ready = true) (hi : i < 8) :
    regWrite s none (0x220 + 4 * i) v = s := by
  unfold regWrite
  dsimp only
  iterate 6 rw [if_neg (by omega)]
  rw [if_pos (by omega), if_pos h]
/-- The queue table's registers ignore a write while a queue is enabled (R61). -/
theorem regWrite_queueTable_of_enabled {s : State} (v : Word) (h : s.lu.anyEnabled = true) :
    regWrite s none 0x100 v = s ∧ regWrite s none 0x104 v = s ∧ regWrite s none 0x108 v = s :=
  ⟨if_pos h, if_pos h, if_pos h⟩

theorem low16_zeroExtend (v : Word) : (v.extractLsb' 0 16 : BitVec 16).zeroExtend 32 = v &&& 0xFFFF :=
  BitVec.eq_of_toNat_eq (by simpa [Nat.mod_eq_of_lt (show v.toNat % 65536 < 4294967296 by omega)] using (Nat.and_two_pow_sub_one_eq_mod v.toNat 16).symm)
theorem high20_append (v : Word) : (v.extractLsb' 12 20 ++ (0 : BitVec 12) : BitVec 32) = v &&& 0xFFFFF000 := by
  have mask : ∀ i < 32, (0xFFFFF000 : Word).getLsbD i = decide (12 ≤ i) := by decide
  refine BitVec.eq_of_getLsbD_eq (fun i hi => ?_)
  rw [BitVec.getLsbD_and, mask i hi, BitVec.getLsbD_append]
  by_cases h : i < 12
  · simp [h]
  · simp [h, show i - 12 < 20 by omega, show 12 + (i - 12) = i by omega, show 12 ≤ i by omega]

/-! What reads back of the registers that the host writes: each under the mask or the bounds of its field (R61, R491, R493). -/

theorem regRead_regWrite_pttHi (s : State) (v : Word) : (regRead (regWrite s none 0x144 v) 0x144).1 = v := rfl
theorem regRead_regWrite_pttLo (s : State) (v : Word) : (regRead (regWrite s none 0x140 v) 0x140).1 = (v &&& 0xFFFFF000) := high20_append v
theorem regRead_regWrite_kseln (s : State) (v : Word) : (regRead (regWrite s none 0x11C v) 0x11C).1 = v := rfl
theorem regRead_regWrite_kselq (s : State) (v : Word) : (regRead (regWrite s none 0x118 v) 0x118).1 = (v &&& 0xFFFF) := low16_zeroExtend v
theorem regRead_regWrite_quantum (s : State) (v : Word) :
    (regRead (regWrite s none 0x10C v) 0x10C).1 = BitVec.ofNat 32 (min 10000 (max 10 (v.toNat % 2 ^ 14))) := by
  show (BitVec.ofNat 14 (clamp 10 10000 (v.extractLsb' 0 14).toNat)).zeroExtend 32 = _
  exact BitVec.eq_of_toNat_eq (by simp [clamp])
theorem regRead_regWrite_qtbaseHi {s : State} (v : Word) (h : s.lu.anyEnabled = false) :
    (regRead (regWrite s none 0x104 v) 0x104).1 = v := by
  have hw : regWrite s none 0x104 v = s.updLu (fun u => { u with qtbasehi := v }) := if_neg (by simp [h])
  rw [hw]; rfl
theorem regRead_regWrite_qcount {s : State} (v : Word) (h : s.lu.anyEnabled = false) :
    (regRead (regWrite s none 0x108 v) 0x108).1 = BitVec.ofNat 32 (min (v.toNat % 2 ^ 17) 65536) := by
  have hw : regWrite s none 0x108 v = s.updLu (fun u => { u with qcount := BitVec.ofNat 17 (min (v.extractLsb' 0 17).toNat 65536) }) :=
    if_neg (by simp [h])
  rw [hw]
  show (BitVec.ofNat 17 (min (v.extractLsb' 0 17).toNat 65536)).zeroExtend 32 = _
  exact BitVec.eq_of_toNat_eq (by simp)

/-! ## READY (R507) -/

theorem readyWrite_of_ready {s : State} (h : s.dev.ready = true) : readyWrite s = s := if_pos h
/-- A READY write: refused with features that do not go together, else taken. -/
theorem readyWrite_of_not_ready {s : State} (h : s.dev.ready = false) :
    let bad := (s.feat 8 = true ∧ ¬(s.feat 4 = true ∧ s.feat 5 = true)) ∨ (s.feat 2 = true ∧ s.feat 0 = false)
    (bad → readyWrite s = { s with dev := { s.dev with badset := true } }) ∧
    (¬bad → readyWrite s = { s with dev := { s.dev with ready := true, badset := false } }) := by
  intro bad
  have hbad : ((s.feat 8 && !(s.feat 4 && s.feat 5)) || (s.feat 2 && !s.feat 0)) = true ↔ bad := by simp [bad, imp_iff_not_or]
  unfold readyWrite
  rw [if_neg (by simp [h])]
  exact ⟨fun hb => if_pos (hbad.2 hb), fun hb => if_neg (mt hbad.1 hb)⟩

/-! ## Reset and boot (R506) -/

/-- Reading memory of which only the bytes at some addresses are kept. -/
theorem mem_read_filter (keep : Nat → Bool) (m : List Host.Cell) (a : Nat) :
    Mem.read (m.filter (fun c => keep c.1)) a = if keep a then Mem.read m a else Mem.read [] a := by
  induction m with
  | nil => simp
  | cons c t ih =>
    obtain ⟨j, b⟩ := c
    by_cases hj : j = a
    · subst hj
      by_cases hk : keep j = true <;> simp [hk, ih, Mem.read]
    · by_cases hk : keep j = true <;> simp [hk, ih, Mem.read, hj]
/-- Address a lies outside the package: in host memory, in a pool or behind a device link (R297). -/
def beyondPackage (a : Nat) : Bool := decide (2 ^ 38 ≤ a) && decide (a < 2 ^ 56)
/-- Memory of which the package loses its own: zero inside, as before outside. -/
theorem mem_read_beyondPackage (m : List Host.Cell) :
    (∀ a, a < 2 ^ 38 ∨ 2 ^ 56 ≤ a → Mem.read (m.filter (fun c => decide (2 ^ 38 ≤ c.1) && decide (c.1 < 2 ^ 56))) a = Mem.read [] a) ∧
    (∀ a, 2 ^ 38 ≤ a → a < 2 ^ 56 → Mem.read (m.filter (fun c => decide (2 ^ 38 ≤ c.1) && decide (c.1 < 2 ^ 56))) a = Mem.read m a) := by
  have h := mem_read_filter beyondPackage m
  refine ⟨fun a ha => (h a).trans (if_neg ?_), fun a hlo hhi => (h a).trans (if_pos ?_)⟩
  · simp only [beyondPackage, Bool.and_eq_true, decide_eq_true_eq]; omega
  · simp only [beyondPackage, Bool.and_eq_true, decide_eq_true_eq]; omega
/-- Boot goes on only where a stage has begun and none has failed or ended boot. -/
theorem execBootStageComplete_idle {s : State} (h : s.dev.stage = 0 ∨ s.dev.booted = true ∨ s.dev.booterr ≠ 0) (ok : Bool) :
    execBootStageComplete ok s = .next s := congrArg _ (if_pos h)
/-- The stage under way succeeds: stage 2 by the comparison of the versions, any other by what the event says. -/
def stageSucceeds (s : State) (ok : Bool) : Bool := if s.dev.stage = 2 then versionAllowed else ok
/-- A boot stage is under way. -/
def Booting (s : State) : Prop := s.dev.stage ≠ 0 ∧ s.dev.booted = false ∧ s.dev.booterr = 0
theorem Booting.not_idle {s : State} (h : Booting s) : ¬(s.dev.stage = 0 ∨ s.dev.booted = true ∨ s.dev.booterr ≠ 0) := by
  obtain ⟨hs, hb, he⟩ := h
  simp [hs, hb, he]
theorem execBootStageComplete_fails {s : State} (hb : Booting s) {ok : Bool} (hf : stageSucceeds s ok = false) :
    execBootStageComplete ok s = .next { s with dev := { s.dev with booterr := bootCode s.dev.stage } } := by
  unfold stageSucceeds at hf
  simp only [execBootStageComplete, if_neg hb.not_idle, hf]
  rfl
/-- Any stage but the third, which writes memory, and the last hands over to the next. -/
theorem execBootStageComplete_advances {s : State} (hb : Booting s) {ok : Bool} (ho : stageSucceeds s ok = true)
    (h3 : s.dev.stage ≠ 3) (h5 : s.dev.stage ≠ 5) :
    execBootStageComplete ok s = .next { s with dev := { s.dev with stage := s.dev.stage + 1 } } := by
  unfold stageSucceeds at ho
  simp only [execBootStageComplete, if_neg hb.not_idle, ho, if_neg h3, if_neg h5]
  rfl
theorem execBootStageComplete_scrubs {s : State} (hb : Booting s) (h3 : s.dev.stage = 3) :
    execBootStageComplete true s = .next ((scrubAll s).updDev (fun d => { d with stage := 4 })) := by
  have h2 : s.dev.stage ≠ 2 := by omega
  have h5 : s.dev.stage ≠ 5 := by omega
  simp only [execBootStageComplete, if_neg hb.not_idle, if_neg h2, if_pos h3, if_neg h5]
  rw [h3]
  rfl
theorem execBootStageComplete_ends {s : State} (hb : Booting s) (h5 : s.dev.stage = 5) :
    execBootStageComplete true s = .next (s.updDev (fun d => { d with booted := true, portsUp := trainedPorts s })) := by
  have h2 : s.dev.stage ≠ 2 := by omega
  have h3 : s.dev.stage ≠ 3 := by omega
  simp only [execBootStageComplete, if_neg hb.not_idle, if_neg h2, if_neg h3, if_pos h5]
  rfl
/-- Of any stage but the second the event says whether it succeeds. -/
theorem stageSucceeds_of_ne_two {s : State} (h : s.dev.stage ≠ 2) (ok : Bool) : stageSucceeds s ok = ok := if_neg h
theorem execBootStageComplete_versions {s : State} (hb : Booting s) (h2 : s.dev.stage = 2) (ok : Bool) :
    execBootStageComplete ok s = .next (if (List.range 64).countP (fun i => Config.rollbackFuses.getLsbD i) ≤ Config.securityVersion
      then { s with dev := { s.dev with stage := 3 } } else { s with dev := { s.dev with booterr := 2 } }) := by
  have hs : stageSucceeds s ok = versionAllowed := if_pos h2
  split
  case isTrue h => rw [execBootStageComplete_advances hb (by simp [hs, versionAllowed, h]) (by omega) (by omega), h2]
  case isFalse h => rw [execBootStageComplete_fails hb (by simp [hs, versionAllowed, h]), h2]; rfl

/-! ## Ports in service (R29, R510) -/

/-- The bits of ports in service once one is taken out, and once one is put in. -/
theorem getLsbD_clear_port (up : BitVec 16) (p n : Nat) :
    (up &&& ~~~((1 : BitVec 16) <<< p)).getLsbD n = (up.getLsbD n && decide (n ≠ p)) := by
  by_cases hn : n < 16
  · by_cases hp : n = p
    · subst hp; simp [hn]
    · have off : ((1 : BitVec 16) <<< p).getLsbD n = false := by simp; omega
      simp only [BitVec.getLsbD_and, BitVec.getLsbD_not, off]; simp [hn, hp]
  · rw [BitVec.getLsbD_of_ge _ _ (by omega), BitVec.getLsbD_of_ge up _ (by omega), Bool.false_and]
theorem getLsbD_set_port (up : BitVec 16) {p : Nat} (hp : p < 16) (n : Nat) :
    (up ||| ((1 : BitVec 16) <<< p)).getLsbD n = (up.getLsbD n || decide (n = p)) := by
  by_cases hn : n = p
  · subst hn; simp [hp]
  · have off : ((1 : BitVec 16) <<< p).getLsbD n = false := by simp; omega
    simp only [BitVec.getLsbD_or, off]; simp [hn]
/-- One port's training puts it in unless it is lost. -/
theorem getLsbD_train_port (lost : Bool) (up : BitVec 16) {p : Nat} (hp : p < 16) (n : Nat) :
    (if lost then up else up ||| ((1 : BitVec 16) <<< p)).getLsbD n = (up.getLsbD n || (decide (n = p) && !lost)) := by
  cases lost
  · simpa only [Bool.false_eq_true, if_false, Bool.not_false, Bool.and_true] using getLsbD_set_port up hp n
  · simp
/-- Training brings into service those of the ports that are not lost. -/
theorem getLsbD_trainedPorts (s : State) {n : Nat} (hn : n < 16) : (trainedPorts s).getLsbD n = !(s.linkPort n).lost := by
  have upTo : ∀ m ≤ 16, ((List.range m).foldl (fun v i => if (s.linkPort i).lost then v else v ||| ((1 : BitVec 16) <<< i)) 0).getLsbD n
      = (decide (n < m) && !(s.linkPort n).lost) := by
    intro m hm
    induction m with
    | zero => simp
    | succ m ih =>
      rw [List.range_succ, List.foldl_append, List.foldl_cons, List.foldl_nil, getLsbD_train_port _ _ (by omega), ih (by omega)]
      rcases Nat.lt_trichotomy n m with h | rfl | h
      · simp [h, Nat.lt_succ_of_lt h, h.ne]
      · simp
      · simp [h.not_gt, h.ne', show ¬n < m + 1 by omega]
  exact (upTo 16 le_rfl).trans (by simp [hn])

/-! ## Waits for the host (R509) -/

/-- From s to t the waits of strand k, and of the cells of its invocation, that meet want become f of themselves; no other strand and no
other cell changes, and neither memory nor the kernels do. -/
def WaitsBecome (s : State) (k : Nat) (want : Wait → Prop) (f : Wait → Wait) (t : State) : Prop :=
  let p := s.strand k
  let mine (c : Nat) : Prop := c / 64 = k ∧ sfind s.cells c ≠ none
  (want p.wait → t.strand k = { p with wait := f p.wait }) ∧ (¬want p.wait → t.strand k = p) ∧ (∀ j, j ≠ k → t.strand j = s.strand j) ∧
  (∀ c, (mine c → want (s.cell c).wait → t.cell c = { s.cell c with wait := f (s.cell c).wait }) ∧ (¬(mine c ∧ want (s.cell c).wait) → t.cell c = s.cell c)) ∧
  t.mem = s.mem ∧ t.kernels = s.kernels
/-- Strand k, or a cell of its invocation, has a wait that meets want. -/
def SomeWait (s : State) (k : Nat) (want : Wait → Prop) : Prop :=
  want (s.strand k).wait ∨ ∃ q ∈ s.cells, q.1 / 64 = k ∧ want q.2.wait

/-- An entry of a table whose values a function changes key by key. -/
theorem sfind_map {α : Type} (g : Nat → α → α) (l : Sparse α) (k : Nat) :
    sfind (l.map (fun p => (p.1, g p.1 p.2))) k = (sfind l k).map (g k) := by
  induction l with
  | nil => rfl
  | cons p t ih =>
    obtain ⟨j, v⟩ := p
    simp only [List.map_cons, sfind]
    split
    · subst_vars; rfl
    · exact ih
theorem anyWait_iff {want : Wait → Bool} {P : Wait → Prop} (hw : ∀ w, want w = true ↔ P w) (s : State) (k : Nat) :
    anyWait s k want = true ↔ SomeWait s k P := by
  simp [anyWait, SomeWait, hw]
/-- Cell context x, at key j, with its wait changed by f where it is a cell of strand k and the wait wants. -/
def changeWait (k : Nat) (want : Wait → Bool) (f : Wait → Wait) (j : Nat) (x : CellCtx) : CellCtx :=
  if j / 64 = k ∧ want x.wait = true then { x with wait := f x.wait } else x
theorem updWaits_cells (s : State) (k : Nat) (want : Wait → Bool) (f : Wait → Wait) :
    (updWaits s k want f).cells = s.cells.map (fun p => (p.1, changeWait k want f p.1 p.2)) := by
  refine List.map_congr_left (fun p _ => ?_)
  by_cases h : p.1 / 64 = k ∧ want p.2.wait = true <;> simp [changeWait, h]
/-- A cell after the waits that want of strand k and its cells are changed. -/
theorem cell_updWaits (s : State) (k : Nat) (want : Wait → Bool) (f : Wait → Wait) (c : Nat) :
    (updWaits s k want f).cell c =
      if c / 64 = k ∧ want (s.cell c).wait = true ∧ sfind s.cells c ≠ none then { s.cell c with wait := f (s.cell c).wait } else s.cell c := by
  simp only [State.cell, sget, updWaits_cells, sfind_map]
  obtain hc | ⟨x, hc⟩ := Option.eq_none_or_eq_some (sfind s.cells c)
  · simp [hc]
  · simp [hc, changeWait]
/-- What a change of waits does. -/
theorem updWaits_becomes {want : Wait → Bool} {P : Wait → Prop} (hw : ∀ w, want w = true ↔ P w) (s : State) (k : Nat) (f : Wait → Wait) :
    WaitsBecome s k P f (updWaits s k want f) := by
  have self : (updWaits s k want f).strand k = if want (s.strand k).wait then { s.strand k with wait := f (s.strand k).wait } else s.strand k :=
    State.strand_upd_self _ _ _
  refine ⟨fun h => ?_, fun h => ?_, fun j hj => State.strand_upd_of_ne _ _ hj, fun c => ⟨fun hm h => ?_, fun h => ?_⟩, rfl, rfl⟩
  · rw [self, if_pos ((hw _).2 h)]
  · rw [self, if_neg (mt (hw _).1 h)]
  · rw [cell_updWaits, if_pos ⟨hm.1, (hw _).2 h, hm.2⟩]
  · rw [cell_updWaits, if_neg (fun g => h ⟨⟨g.1, g.2.2⟩, (hw _).1 g.2.1⟩)]
/-- A change of waits leaves the translations, and what was sent, as they are. -/
@[simp] theorem updWaits_tlb (s : State) (k : Nat) (want : Wait → Bool) (f : Wait → Wait) : (updWaits s k want f).tlb = s.tlb := rfl
@[simp] theorem updWaits_out (s : State) (k : Nat) (want : Wait → Bool) (f : Wait → Wait) : (updWaits s k want f).out = s.out := rfl

/-! ## Translations and page responses (R509) -/

theorem keepOfCore_subset (core : Nat) (n : Nat) (l : List TlbEntry) : ∀ x ∈ keepOfCore core n l, x ∈ l := by
  induction l generalizing n with
  | nil => simp [keepOfCore]
  | cons t l ih =>
    intro x hx
    simp only [keepOfCore] at hx
    split at hx
    · cases n with
      | zero => exact List.mem_cons_of_mem _ (ih _ _ hx)
      | succ m => exact (List.mem_cons.1 hx).elim (fun h => h ▸ List.mem_cons_self) (fun h => List.mem_cons_of_mem _ (ih _ _ h))
    · exact (List.mem_cons.1 hx).elim (fun h => h ▸ List.mem_cons_self) (fun h => List.mem_cons_of_mem _ (ih _ _ h))
/-- A translation put into a TLB stands first; the rest was there. -/
theorem tlbPut_tlb (s : State) (e : TlbEntry) : (tlbPut s e).tlb = e :: keepOfCore e.core 4095 s.tlb := by
  simp [tlbPut, keepOfCore]

/-- The wait asks the host for the translation of a page. -/
def AsksFor (page : Nat) (w : Wait) : Prop := w.asked = true ∧ w.home = none ∧ ∃ a, w.out = some a ∧ winOff a / 4096 = page
/-- The wait's page request stands at the host. -/
def StandsAtHost (w : Wait) : Prop := w.asked = true ∧ w.home = none ∧ w.out ≠ none ∧ w.since ≠ none
theorem Wait.asks_iff (page : Nat) (w : Wait) : w.asks page = true ↔ AsksFor page w := by
  simp [Wait.asks, AsksFor, and_assoc, Option.any_eq_true]

section
variable {s : State} {k page : Nat}

/-- An answer that no wait of a host-shared process asks for changes nothing. -/
theorem execAtsResponse_unasked (hk : k < 384) (h : pasidOf s (s.strand k).e.asid = none ∨ ¬SomeWait s k (AsksFor page)) (entry : Option (BitVec 64)) :
    execAtsResponse k page entry s = .next s := by
  have hn : (if anyWait s k (·.asks page) then pasidOf s (s.strand k).e.asid else none) = none := by
    rcases h with h | h
    · simp [h]
    · exact if_neg (mt (anyWait_iff (Wait.asks_iff page) s k).1 h)
  simp only [execAtsResponse, if_pos hk, hn]
theorem execAtsResponse_asked {n : Nat} (hk : k < 384) (hn : pasidOf s (s.strand k).e.asid = some n) (h : SomeWait s k (AsksFor page))
    (entry : Option (BitVec 64)) : execAtsResponse k page entry s = .next (
      match entry with
      | some e => updWaits (tlbPut s (atsEntry (k / 3) (s.strand k).e.asid page e.toNat)) k (·.asks page)
          (fun w => { w with since := none, out := none, asked := false, blocked := false })
      | none => updWaits { s with out := s.out ++ [.priRequest n page] } k (·.asks page) (fun w => { w with since := some s.now })) := by
  have hs : (if anyWait s k (·.asks page) then pasidOf s (s.strand k).e.asid else none) = some n := by
    rw [if_pos ((anyWait_iff (Wait.asks_iff page) s k).2 h), hn]
  simp only [execAtsResponse, if_pos hk, hs]
  cases entry <;> rfl

/-- The times since when page requests of strand k and of its cells have been outstanding. -/
def requestTimes (s : State) (k : Nat) : List Nat :=
  ((s.strand k).wait :: (s.cells.filter (fun p => p.1 / 64 == k)).map (·.2.wait)).filterMap
    (fun w => if w.asked && w.home.isNone && w.out.isSome then w.since else none)
/-- The wait's page request has been outstanding since time n. -/
def StandsSince (n : Nat) (w : Wait) : Prop := StandsAtHost w ∧ w.since = some n
theorem standsSince_iff (n : Nat) (w : Wait) :
    (w.asked && w.home.isNone && w.out.isSome && w.since == some n) = true ↔ StandsSince n w := by
  simp only [StandsSince, StandsAtHost, Bool.and_eq_true, Option.isNone_iff_eq_none, Option.isSome_iff_ne_none, beq_iff_eq]
  constructor
  · rintro ⟨⟨⟨ha, hh⟩, ho⟩, hs⟩
    exact ⟨⟨ha, hh, ho, by simp [hs]⟩, hs⟩
  · rintro ⟨⟨ha, hh, ho, -⟩, hs⟩
    exact ⟨⟨⟨ha, hh⟩, ho⟩, hs⟩
theorem mem_requestTimes (s : State) (k n : Nat) : n ∈ requestTimes s k ↔ SomeWait s k (StandsSince n) := by
  have age : ∀ w : Wait, (if (w.asked && w.home.isNone && w.out.isSome) = true then w.since else none) = some n ↔ StandsSince n w := by
    intro w
    rw [← standsSince_iff]
    cases w.asked && w.home.isNone && w.out.isSome <;> simp
  simp only [requestTimes, List.mem_filterMap, List.mem_cons, List.mem_map, List.mem_filter, beq_iff_eq, age, SomeWait]
  constructor
  · rintro ⟨w, rfl | ⟨q, ⟨hq, hk⟩, rfl⟩, hw⟩
    · exact .inl hw
    · exact .inr ⟨q, hq, hk, hw⟩
  · rintro (hw | ⟨q, hq, hk, hw⟩)
    · exact ⟨_, .inl rfl, hw⟩
    · exact ⟨_, .inr ⟨q, ⟨hq, hk⟩, rfl⟩, hw⟩
theorem SomeWait.mono {s : State} {k : Nat} {P Q : Wait → Prop} (h : SomeWait s k P) (hPQ : ∀ w, P w → Q w) : SomeWait s k Q :=
  h.imp (hPQ _) (fun ⟨q, hq, hk, hw⟩ => ⟨q, hq, hk, hPQ _ hw⟩)
/-- Without a page request that stands, none has a time. -/
theorem requestTimes_eq_nil {s : State} {k : Nat} (h : ¬SomeWait s k StandsAtHost) : requestTimes s k = [] :=
  List.eq_nil_iff_forall_not_mem.2 (fun n hn => h (((mem_requestTimes s k n).1 hn).mono (fun _ hw => hw.1)))
/-- The request outstanding longest is the first. -/
theorem requestTimes_min {s : State} {k n : Nat} (h : SomeWait s k (StandsSince n))
    (hmin : ∀ w m, (w = (s.strand k).wait ∨ ∃ q ∈ s.cells, q.1 / 64 = k ∧ w = q.2.wait) → StandsAtHost w → w.since = some m → n ≤ m) :
    (requestTimes s k).min? = some n := by
  refine List.min?_eq_some_iff.2 ⟨(mem_requestTimes s k n).2 h, fun m hm => ?_⟩
  rcases (mem_requestTimes s k m).1 hm with ⟨hst, hs⟩ | ⟨q, hq, hk, hst, hs⟩
  · exact hmin _ m (.inl rfl) hst hs
  · exact hmin _ m (.inr ⟨q, hq, hk, rfl⟩) hst hs
/-- A page response without a request that stands changes nothing. -/
theorem execPriResponse_unasked (hk : k < 384) (h : ¬SomeWait s k StandsAtHost) (b : Bool) : execPriResponse k b s = .next s := by
  have hm : (requestTimes s k).min? = none := by rw [requestTimes_eq_nil h]; rfl
  unfold requestTimes at hm
  simp only [execPriResponse, if_pos hk, hm]
/-- A page response is for the request outstanding longest. -/
theorem execPriResponse_first {n : Nat} (hk : k < 384) (h : (requestTimes s k).min? = some n) (b : Bool) :
    execPriResponse k b s = .next (updWaits s k (fun w => w.asked && w.home.isNone && w.out.isSome && w.since == some n) (fun w =>
      if b then { w with out := none, asked := false, blocked := false } else { w with verdict := some .pageNotPresent, blocked := false })) := by
  unfold requestTimes at h
  simp only [execPriResponse, if_pos hk, h]

/-! ## Answers to agents without a TLB -/

/-- A request that does not exist, or waits at a home instead, is not answered. -/
theorem agent_unasked (hk : 384 ≤ k) (h : ∀ w, s.atsWaits[k - 384]? = some w → w.home = true) :
    (∀ entry, execAtsResponse k page entry s = .next s) ∧ ∀ b, execPriResponse k b s = .next s := by
  have hlt : ¬k < 384 := by omega
  cases hw : s.atsWaits[k - 384]? with
  | none => exact ⟨fun entry => by simp only [execAtsResponse, if_neg hlt, hw], fun b => by simp only [execPriResponse, if_neg hlt, hw]⟩
  | some w =>
    refine ⟨fun entry => ?_, fun b => by simp only [execPriResponse, if_neg hlt, hw, h w hw, if_true]⟩
    cases entry <;> simp only [execAtsResponse, if_neg hlt, hw, h w hw, if_true]
variable {w : AtsWait}
theorem execAtsResponse_agent (hk : 384 ≤ k) (hw : s.atsWaits[k - 384]? = some w) (hh : w.home = false) {n : Nat} (hn : pasidOf s w.asid = some n)
    (entry : Option (BitVec 64)) : execAtsResponse k page entry s = .next (
      match entry with
      | some e => { s with tlb := atsEntry 128 w.asid w.page e.toNat :: s.tlb, atsWaits := s.atsWaits.eraseIdx (k - 384) }
      | none => { s with out := s.out ++ [.priRequest n w.page], atsWaits := s.atsWaits.set (k - 384) { w with since := s.now } }) := by
  have hlt : ¬k < 384 := by omega
  cases entry <;> simp only [execAtsResponse, if_neg hlt, hw, hh, hn, Bool.false_eq_true, if_false]
theorem execPriResponse_agent (hk : 384 ≤ k) (hw : s.atsWaits[k - 384]? = some w) (hh : w.home = false) (b : Bool) :
    execPriResponse k b s = .next (if b then { s with atsWaits := s.atsWaits.eraseIdx (k - 384) }
      else { s with atsWaits := s.atsWaits.set (k - 384) { w with verdict := some .pageNotPresent } }) := by
  have hlt : ¬k < 384 := by omega
  simp only [execPriResponse, if_neg hlt, hw, hh, Bool.false_eq_true, if_false]
end

/-! ## What registrations tell the outside (R314, R315) -/

/-- From s to t the table of strands lists the same strands, and the messages sent are none that complete an invalidation. -/
def SameStrandsNoCompletion (s t : State) : Prop :=
  t.strands.map (·.1) = s.strands.map (·.1) ∧ ∃ l, t.out = s.out ++ l ∧ Outbound.invalidationDone ∉ l
namespace SameStrandsNoCompletion
theorem of_eq {s t : State} (hs : t.strands = s.strands) (ho : t.out = s.out) : SameStrandsNoCompletion s t :=
  ⟨by rw [hs], [], by simp [ho], by simp⟩
theorem refl (s : State) : SameStrandsNoCompletion s s := of_eq rfl rfl
theorem sends {s t : State} (o : Outbound) (hs : t.strands = s.strands) (ho : t.out = s.out ++ [o]) (hne : o ≠ .invalidationDone) :
    SameStrandsNoCompletion s t := ⟨by rw [hs], [o], ho, by simpa using hne.symm⟩
theorem trans {s t u : State} (h : SameStrandsNoCompletion s t) (g : SameStrandsNoCompletion t u) : SameStrandsNoCompletion s u := by
  obtain ⟨hs, l, ho, hl⟩ := h
  obtain ⟨gs, m, go, hm⟩ := g
  exact ⟨gs.trans hs, l ++ m, by rw [go, ho, List.append_assoc], by simp [hl, hm]⟩
theorem foldl {α : Type} (f : State → α → State) (h : ∀ s a, SameStrandsNoCompletion s (f s a)) (l : List α) (s : State) :
    SameStrandsNoCompletion s (l.foldl f s) := by
  induction l generalizing s with
  | nil => exact refl s
  | cons a t ih => exact (h s a).trans (ih (f s a))
end SameStrandsNoCompletion

theorem dropCopy_noCompletion (s : State) (h w : Nat) : SameStrandsNoCompletion s (dropCopy s h w) := by
  unfold dropCopy
  repeat' split
  all_goals exact .of_eq rfl rfl
theorem dropDie_noCompletion (s : State) (d w : Nat) : SameStrandsNoCompletion s (dropDie s d w) := by
  unfold dropDie
  split <;> exact .of_eq rfl rfl
theorem breakLinksOf_noCompletion (who : Nat → Bool) (s : State) (a : Nat) : SameStrandsNoCompletion s (breakLinksOf who s a) := by
  unfold breakLinksOf
  split
  · exact ⟨by simp [List.map_map, Function.comp_def], [], by simp, by simp⟩
  · exact .refl s
/-- A write to an external line may obtain its ownership. -/
theorem extWrite_out (s : State) (d w : Nat) :
    (extWrite s d w).out = s.out ∨ (extWrite s d w).out = s.out ++ [.lineOwnership (lineOf w)] := by
  unfold extWrite
  split
  · exact .inl rfl
  · exact ite_eq_or_eq _ _ _
theorem extWrite_noCompletion (s : State) (d w : Nat) : SameStrandsNoCompletion s (extWrite s d w) := by
  have hs : (extWrite s d w).strands = s.strands := by unfold extWrite; split <;> rfl
  rcases extWrite_out s d w with h | h
  · exact .of_eq hs h
  · exact .sends _ hs h (by simp)
/-- A write to a line that the host caches sends a back-invalidation. -/
theorem tellHost_noCompletion (s : State) (w : Nat) : SameStrandsNoCompletion s (tellHost s w) := by
  unfold tellHost
  split
  · exact .sends (.backInvalidate (lineOf w)) rfl rfl (by simp)
  · exact .refl s
theorem registerWord_noCompletion (s : State) (c w : Nat) (v : Word) : SameStrandsNoCompletion s (registerWord s c w v) := by
  unfold registerWord
  split
  · exact dropCopy_noCompletion s c w
  · have earlier : SameStrandsNoCompletion s (match sfind s.reg w with
        | some r => if r.holder = c then s else dropCopy s r.holder w
        | none => s) := by
      split
      · split
        · exact .refl s
        · exact dropCopy_noCompletion s _ w
      · exact .refl s
    refine (earlier.trans (dropDie_noCompletion _ (dieOf c) w)).trans ?_
    refine .trans ?_ ((extWrite_noCompletion _ (dieOf c) w).trans ((breakLinksOf_noCompletion _ _ _).trans (tellHost_noCompletion _ w)))
    exact .of_eq rfl rfl
theorem recordPending_noCompletion (s : State) (p : Pending) : SameStrandsNoCompletion s (recordPending s p) :=
  .foldl _ (fun s (q : Word × Nat) => (registerWord_noCompletion s p.core (p.word + q.2) q.1).trans (dropDie_noCompletion _ _ _)) _ _
theorem drainAll_noCompletion (s : State) : SameStrandsNoCompletion s (drainAll s) :=
  .trans (.of_eq rfl rfl) (.foldl _ recordPending_noCompletion _ _)
/-- No registration stays on its way. -/
theorem drainAll_pending (s : State) : (drainAll s).pending = [] := by
  rw [drainAll, drain_pending]
  exact List.eq_nil_iff_forall_not_mem.2 (fun q hq => by simpa using (takePending_rest _ _ q hq).2)

/-! ## Invalidations (R509) -/

/-- The translation that an invalidation names: of the process, and of the page or any. -/
def namedBy (s : State) (n page : Nat) (all : Bool) (e : TlbEntry) : Bool :=
  pasidOf s e.asid == some n && (all || (decide (e.vbase ≤ 4096 * page) && decide (4096 * page < e.vbase + e.size)))
/-- The state with the translations that an invalidation names gone, and its completion due. -/
def invalidated (s : State) (n page : Nat) (all : Bool) : State :=
  (removeTranslations s (namedBy s n page all) (fun a => pasidOf s a == some n)).updDev (fun d => { d with invDue := d.invDue + 1 })
theorem execAtsInvalidation_eq (s : State) (n page : Nat) (all : Bool) :
    execAtsInvalidation n page all s = .next (sendInvalidations (invalidated s n page all)) := rfl
theorem globalWritesWait_invalidated (s : State) (n page : Nat) (all : Bool) :
    globalWritesWait (invalidated s n page all) = globalWritesWait s := rfl
theorem mem_invalidated_tlb (s : State) (n page : Nat) (all : Bool) (e : TlbEntry) :
    e ∈ (invalidated s n page all).tlb ↔
      e ∈ s.tlb ∧ ¬(pasidOf s e.asid = some n ∧ (all = true ∨ (e.vbase ≤ 4096 * page ∧ 4096 * page < e.vbase + e.size))) := by
  show e ∈ s.tlb.filter (fun t => !namedBy s n page all t) ↔ _
  simp only [List.mem_filter, namedBy, Bool.not_eq_true', ← Bool.not_eq_true, Bool.and_eq_true, Bool.or_eq_true, beq_iff_eq, decide_eq_true_eq]
/-- While a write cannot reach its home, the completions stay due. -/
theorem sendInvalidations_waits {s : State} (h : globalWritesWait s = true) : sendInvalidations s = s := if_pos (.inr h)
/-- Otherwise every write reaches its home, and the completions follow what that tells the outside. -/
theorem sendInvalidations_sends {s : State} (hd : s.dev.invDue ≠ 0) (h : globalWritesWait s = false) :
    sendInvalidations s = { (drainAll s).updDev (fun d => { d with invDue := 0 }) with
      out := (drainAll s).out ++ List.replicate s.dev.invDue .invalidationDone } := if_neg (by simp [hd, h])
theorem sendInvalidations_frame (s : State) : (sendInvalidations s).strands.map (·.1) = s.strands.map (·.1) ∧
    (sendInvalidations s).mem = s.mem ∧ (sendInvalidations s).tlb = s.tlb := by
  unfold sendInvalidations
  split
  · exact ⟨rfl, rfl, rfl⟩
  · have hc : CachesOnly s (drainAll s) := drain_caches s _
    exact ⟨(drainAll_noCompletion s).1, hc.mem, hc.tlb⟩

/-! ## Flits that arrive (R510) -/

section
variable {s : State} {port : Nat} {flit : BitVec 2048}

/-- The flit is whole, of a kind that exists, and the one expected. -/
def GoodFlit (s : State) (port : Nat) (flit : BitVec 2048) : Prop :=
  flitCrc flit = flit.extractLsb' 1984 64 ∧ (flit.extractLsb' 32 8 : BitVec 8).toNat ≤ 3 ∧ flitSeq flit = (s.linkPort port).expect
/-- The port carries flits. -/
def PortCarries (s : State) (port : Nat) : Prop := port < 16 ∧ s.portUp port = true ∧ s.feat 7 = true
theorem portCarries_iff : PortCarries s port ↔ ¬(16 ≤ port ∨ (!s.portUp port) = true) := by
  simp [PortCarries, State.portUp]
  tauto
theorem execLinkFlitReceive_down (h : ¬PortCarries s port) : execLinkFlitReceive port flit s = .next s :=
  congrArg _ (if_pos (not_not.1 (mt portCarries_iff.2 h)))
theorem goodFlit_iff : GoodFlit s port flit ↔
    ¬(flitCrc flit ≠ flit.extractLsb' 1984 64 ∨ 3 < flitKind flit ∨ flitSeq flit ≠ (s.linkPort port).expect) := by
  simp [GoodFlit, flitKind, not_or]
theorem execLinkFlitReceive_bad (hu : PortCarries s port) (h : ¬GoodFlit s port flit) :
    execLinkFlitReceive port flit s = .next { s with out := s.out ++ [.linkAck port ((s.linkPort port).expect - 1) true] } := by
  unfold execLinkFlitReceive
  rw [if_neg (portCarries_iff.1 hu), if_pos (not_not.1 (mt goodFlit_iff.2 h))]
/-- The state in which the port has accepted the flit. -/
def accepted (s : State) (port : Nat) (flit : BitVec 2048) : State :=
  let p := s.linkPort port
  s.setLinkPort port { p with expect := p.expect + 1, inbox := if flitKind flit = 0 then p.inbox else p.inbox ++ [flit] }
theorem linkPort_accepted (s : State) (port : Nat) (flit : BitVec 2048) :
    (accepted s port flit).linkPort port = { s.linkPort port with
      expect := (s.linkPort port).expect + 1
      inbox := if flitKind flit = 0 then (s.linkPort port).inbox else (s.linkPort port).inbox ++ [flit] } :=
  State.linkPort_setLinkPort_self _ _ _
theorem execLinkFlitReceive_good (hu : PortCarries s port) (h : GoodFlit s port flit) :
    execLinkFlitReceive port flit s = .next ((ackFlits (accepted s port flit) port (flit.extractLsb' 16 12) (flit.getLsbD 31)).say
      (.linkAck port (s.linkPort port).expect false)) := by
  unfold execLinkFlitReceive
  rw [if_neg (portCarries_iff.1 hu), if_neg (goodFlit_iff.1 h)]
  rfl
/-- The flits of a replay buffer that an ACK does not cover. -/
def unacked (ack : BitVec 12) (l : List (BitVec 2048)) : List (BitVec 2048) := l.dropWhile (fun f => decide ((ack - flitSeq f).toNat < 2048))
/-- What an acknowledgement leaves of the port: what it accepts, and the flits not covered. -/
theorem ackFlits_linkPort (s : State) (port : Nat) (ack : BitVec 12) (nak : Bool) : ∃ m,
    (ackFlits s port ack nak).linkPort port = { s.linkPort port with replay := unacked ack (s.linkPort port).replay, naks := m } ∧
    (nak = true → m = if unacked ack (s.linkPort port).replay = [] then 0
      else if (unacked ack (s.linkPort port).replay).length = (s.linkPort port).replay.length then (s.linkPort port).naks + 1 else 1) := by
  unfold ackFlits
  cases nak
  · exact ⟨_, State.linkPort_setLinkPort_self _ _ _, by simp⟩
  · exact ⟨_, State.linkPort_setLinkPort_self _ _ _, fun _ => if_congr List.isEmpty_iff rfl rfl⟩
theorem ackFlits_frame (s : State) (port : Nat) (ack : BitVec 12) (nak : Bool) :
    (ackFlits s port ack nak).strands = s.strands ∧ (ackFlits s port ack nak).mem = s.mem ∧
    (ackFlits s port ack nak).out = if nak then s.out ++ (unacked ack (s.linkPort port).replay).map (fun f => .linkFlit port f) else s.out := by
  cases nak <;> exact ⟨rfl, rfl, rfl⟩
end

/-! ## Ports that fail, return and are lost (R29, R510, R511) -/

section
variable {s t : State} {port : Nat}

/-- The ports in service after one has left it. -/
theorem portUp_cleared (hf : t.dev.facc = s.dev.facc) (hp : t.dev.portsUp = s.dev.portsUp &&& ~~~((1 : BitVec 16) <<< port)) :
    t.portUp port = false ∧ ∀ n, n ≠ port → t.portUp n = s.portUp n := by
  simp only [State.portUp, State.feat, hf, hp, getLsbD_clear_port]
  exact ⟨by simp, fun n hn => by simp [hn]⟩
/-- The ports in service after one has come back. -/
theorem portUp_set (hlt : port < 16) (hf : t.dev.facc = s.dev.facc) (h7 : s.feat 7 = true)
    (hp : t.dev.portsUp = s.dev.portsUp ||| ((1 : BitVec 16) <<< port)) :
    t.portUp port = true ∧ ∀ n, n ≠ port → t.portUp n = s.portUp n := by
  unfold State.feat at h7
  simp only [State.portUp, State.feat, hf, hp, getLsbD_set_port _ hlt]
  exact ⟨by simp [h7], fun n hn => by simp [hn]⟩

/-- The port is in service, and one flit has failed eight replays. -/
def PortFails (s : State) (port : Nat) : Prop := port < 16 ∧ s.portUp port = true ∧ 9 ≤ (s.linkPort port).naks
theorem execLinkRetrain_idle (h : ¬PortFails s port) : execLinkRetrain port s = .next s := congrArg _ (if_neg h)
/-- The port's registers are p, and it is out of service. -/
def outOfService (s : State) (port : Nat) (p : LinkPort) : State :=
  (s.setLinkPort port p).updDev (fun d => { d with portsUp := d.portsUp &&& ~~~((1 : BitVec 16) <<< port) })
theorem linkPort_outOfService (s : State) (port : Nat) (p : LinkPort) : (outOfService s port p).linkPort port = p :=
  State.linkPort_setLinkPort_self _ _ _
theorem portUp_outOfService (s : State) (port : Nat) (p : LinkPort) :
    (outOfService s port p).portUp port = false ∧ ∀ n, n ≠ port → (outOfService s port p).portUp n = s.portUp n := portUp_cleared rfl rfl
/-- A port that fails leaves service, with its replay buffer kept. -/
theorem execLinkRetrain_fails (h : PortFails s port) :
    execLinkRetrain port s = .next (outOfService s port { s.linkPort port with naks := 0 }) := congrArg _ (if_pos h)

/-- The port is out of service, not for good, and links are accepted. -/
def PortComesBack (s : State) (port : Nat) : Prop := port < 16 ∧ s.portUp port = false ∧ (s.linkPort port).lost = false ∧ s.feat 7 = true
theorem portComesBack_iff :
    PortComesBack s port ↔ ¬(16 ≤ port ∨ s.portUp port = true ∨ (s.linkPort port).lost = true ∨ (!s.feat 7) = true) := by
  simp [PortComesBack, not_or]
theorem execPortReturn_idle (h : ¬PortComesBack s port) (b : Bool) : execPortReturn port b s = .next s :=
  congrArg _ (if_pos (not_not.1 (mt portComesBack_iff.2 h)))
/-- The port in service again on the lanes trained, its flits replayed. -/
def returned (s : State) (port : Nat) (four : Bool) : State :=
  let p := s.linkPort port
  let t := (s.setLinkPort port { p with four := four }).updDev (fun d => { d with portsUp := d.portsUp ||| (1 <<< port) })
  let t := t.updDev (fun d => { d with dlreduced := reducedPorts t })
  { t with out := t.out ++ p.replay.map (fun f => .linkFlit port f) }
theorem linkPort_returned (s : State) (port : Nat) (b : Bool) : (returned s port b).linkPort port = { s.linkPort port with four := b } := by
  simp [returned, State.linkPort]
theorem portUp_returned (h : PortComesBack s port) (b : Bool) :
    (returned s port b).portUp port = true ∧ ∀ n, n ≠ port → (returned s port b).portUp n = s.portUp n := by
  obtain ⟨hlt, -, -, h7⟩ := h
  have hbit : BitVec.ofNat 16 (1 <<< port) = (1 : BitVec 16) <<< port := BitVec.eq_of_toNat_eq (by simp)
  have hdev : (returned s port b).dev.facc = s.dev.facc ∧
      (returned s port b).dev.portsUp = s.dev.portsUp ||| ((1 : BitVec 16) <<< port) := by simp [returned, hbit]
  exact portUp_set hlt hdev.1 h7 hdev.2
theorem execPortReturn_back (h : PortComesBack s port) (b : Bool) : execPortReturn port b s =
    .next (if (b && !(s.linkPort port).four) = true then requestReplace (returned s port b) else returned s port b) :=
  congrArg _ (if_neg (portComesBack_iff.1 h))
theorem returned_frame (s : State) (port : Nat) (b : Bool) : (returned s port b).mem = s.mem ∧ (returned s port b).strands = s.strands ∧
    (returned s port b).out = s.out ++ (s.linkPort port).replay.map (fun f => Outbound.linkFlit port f) := by
  simp [returned]
@[simp] theorem requestReplace_portUp (s : State) (n : Nat) : (requestReplace s).portUp n = s.portUp n := rfl
@[simp] theorem requestReplace_linkPort (s : State) (n : Nat) : (requestReplace s).linkPort n = s.linkPort n := rfl
@[simp] theorem requestReplace_mem (s : State) : (requestReplace s).mem = s.mem := rfl
@[simp] theorem requestReplace_strands (s : State) : (requestReplace s).strands = s.strands := rfl
@[simp] theorem requestReplace_out (s : State) : (requestReplace s).out = s.out ++ [.healthEvent] := rfl
/-- A port that returns; its first return on 4 lanes asks for replacement (R515). -/
theorem portReturn_runs (h : PortComesBack s port) (b : Bool) : Runs (.portReturn port b) s (fun t =>
    t.portUp port = true ∧ (∀ n, n ≠ port → t.portUp n = s.portUp n) ∧ (t.linkPort port).four = b ∧
    t.out = s.out ++ (s.linkPort port).replay.map (fun f => Outbound.linkFlit port f) ++
      (if b = true ∧ (s.linkPort port).four = false then [Outbound.healthEvent] else []) ∧ t.mem = s.mem ∧ t.strands = s.strands) := by
  refine ⟨_, execPortReturn_back h b, ?_⟩
  obtain ⟨hup, hothers⟩ := portUp_returned h b
  obtain ⟨hmem, hstrands, hout⟩ := returned_frame s port b
  have hfour : ((returned s port b).linkPort port).four = b := by rw [linkPort_returned]
  by_cases hr : b = true ∧ (s.linkPort port).four = false
  · rw [if_pos (by simpa using hr), if_pos hr]
    simpa only [requestReplace_portUp, requestReplace_linkPort, requestReplace_mem, requestReplace_strands, requestReplace_out, hout]
      using ⟨hup, hothers, hfour, trivial, hmem, hstrands⟩
  · rw [if_neg (by simpa using hr), if_neg hr, List.append_nil]
    exact ⟨hup, hothers, hfour, hout, hmem, hstrands⟩

/-- A device link port that has been lost, or does not exist, is not lost again. -/
theorem execPortLost_link_idle (h : 16 ≤ port ∨ (s.linkPort port).lost = true) : execPortLost true port s = .next s := congrArg _ (if_pos h)
/-- A device link port is lost: it leaves service, and DLINKS falls. -/
theorem execPortLost_link (hlt : port < 16) (hl : (s.linkPort port).lost = false) : execPortLost true port s = .next (
    let t := outOfService s port { s.linkPort port with lost := true }
    t.updDev (fun d => { d with dlinks := d.dlinks - 1, dlreduced := reducedPorts t })) :=
  congrArg _ (if_neg (not_or.2 ⟨hlt.not_ge, by simp [hl]⟩))
theorem portLost_link_runs (hlt : port < 16) (hl : (s.linkPort port).lost = false) : Runs (.portLost true port) s (fun t =>
    t.portUp port = false ∧ (t.linkPort port).lost = true ∧ t.dev.dlinks = s.dev.dlinks - 1 ∧ t.strands = s.strands) := by
  refine ⟨_, execPortLost_link hlt hl, ?_⟩
  simp [State.portUp, State.feat, State.linkPort, outOfService]
/-- A host or pool port is lost once: HOSTPORTS falls. -/
theorem execPortLost_host_idle (h : 4 ≤ port ∨ port ∈ s.dev.hostLost) : execPortLost false port s = .next s :=
  congrArg _ (if_pos (h.imp_right List.contains_iff_mem.2))
theorem execPortLost_host (hlt : port < 4) (hl : port ∉ s.dev.hostLost) : execPortLost false port s =
    .next { s with dev := { s.dev with hostLost := nsInsert s.dev.hostLost port, hostports := s.dev.hostports - 1 } } :=
  congrArg _ (if_neg (not_or.2 ⟨hlt.not_ge, mt List.contains_iff_mem.1 hl⟩))
end

/-! ## What the events run to -/

theorem execGetMeasurements_one {s : State} {n : Nat} (h1 : 1 ≤ n) (h4 : n ≤ 4) :
    execGetMeasurements n s = .next (s.say (.spdm 6 512 (measurement s n).toNat)) := by
  unfold execGetMeasurements
  rw [if_neg (by omega), if_neg (by omega), if_pos h4]
  rfl
theorem execGetMeasurements_unknown {s : State} {n : Nat} (h4 : 4 < n) (h255 : n ≠ 255) :
    execGetMeasurements n s = .next (s.say (.spdm 7 0 0)) := by
  unfold execGetMeasurements
  rw [if_neg (by omega), if_neg h255, if_neg (by omega)]
  rfl

section
variable {s : State} {k n page port : Nat} {flit : BitVec 2048}

/-- After reset is deasserted the package is as after reset, in the first boot stage, and memory beyond it is as before (R506). -/
theorem resetDeassertion_runs (s : State) : Runs .resetDeassertion s (fun t => t.dev.stage = 1 ∧ t.dev.booted = false ∧ t.dev.ready = false ∧
    t.strands = State.reset.strands ∧ t.groups = [] ∧ t.kernels = [] ∧ t.tlb = [] ∧ (∀ n, t.portUp n = false) ∧
    (∀ a, a < 2 ^ 38 ∨ 2 ^ 56 ≤ a → Mem.read t.mem a = Mem.read [] a) ∧ (∀ a, 2 ^ 38 ≤ a → a < 2 ^ 56 → Mem.read t.mem a = Mem.read s.mem a)) :=
  ⟨_, rfl, rfl, rfl, rfl, rfl, rfl, rfl, rfl, fun n => by simp [State.portUp, State.feat, allLost, State.reset], mem_read_beyondPackage s.mem⟩
/-- The third boot stage clears the memories of the package, with every bit and every cached word. -/
theorem bootStage3_runs (hb : Booting s) (h3 : s.dev.stage = 3) : Runs (.bootStageComplete true) s (fun t => t.dev = { s.dev with stage := 4 } ∧
    (∀ w, (w ∈ t.full ↔ w ∈ s.full ∧ 2 ^ 36 ≤ w ∧ w < 2 ^ 54) ∧ (w ∈ t.poison ↔ w ∈ s.poison ∧ 2 ^ 36 ≤ w ∧ w < 2 ^ 54)) ∧
    t.l1 = [] ∧ t.l2 = [] ∧ t.strands = s.strands ∧
    (∀ a, a < 2 ^ 38 ∨ 2 ^ 56 ≤ a → Mem.read t.mem a = Mem.read [] a) ∧ (∀ a, 2 ^ 38 ≤ a → a < 2 ^ 56 → Mem.read t.mem a = Mem.read s.mem a)) := by
  refine ⟨_, execBootStageComplete_scrubs hb h3, rfl, fun w => ?_, rfl, rfl, rfl, mem_read_beyondPackage s.mem⟩
  simp [scrubAll, State.updDev, List.mem_filter]
/-- The fifth boot stage ends boot: the ports that are not lost are trained where links are accepted. -/
theorem bootStage5_runs (hb : Booting s) (h5 : s.dev.stage = 5) : Runs (.bootStageComplete true) s (fun t =>
    t.dev = { s.dev with booted := true, portsUp := t.dev.portsUp } ∧ { t with dev := s.dev } = s ∧
    ∀ n, n < 16 → (t.portUp n = true ↔ s.feat 7 = true ∧ (s.linkPort n).lost = false)) := by
  refine ⟨_, execBootStageComplete_ends hb h5, rfl, rfl, fun n hn => ?_⟩
  show (s.feat 7 && (trainedPorts s).getLsbD n) = true ↔ _
  simp only [getLsbD_trainedPorts s hn, Bool.and_eq_true, Bool.not_eq_true']

/-- An ATS response without a translation: a page request, outstanding from now on (R509). -/
theorem atsResponse_none_runs (hk : k < 384) (hn : pasidOf s (s.strand k).e.asid = some n) (h : SomeWait s k (AsksFor page)) :
    Runs (.atsResponse k page none) s (fun t => t.out = s.out ++ [.priRequest n page] ∧ t.tlb = s.tlb ∧
      WaitsBecome s k (AsksFor page) (fun w => { w with since := some s.now }) t) :=
  ⟨_, execAtsResponse_asked hk hn h none, rfl, rfl,
    updWaits_becomes (Wait.asks_iff page) { s with out := s.out ++ [.priRequest n page] } k _⟩
/-- An ATS response with a translation: it enters the core's TLB, and the accesses that asked for it go on (R509). -/
theorem atsResponse_some_runs (hk : k < 384) (hn : pasidOf s (s.strand k).e.asid = some n) (h : SomeWait s k (AsksFor page)) (e : BitVec 64) :
    Runs (.atsResponse k page (some e)) s (fun t => t.tlb.head? = some (atsEntry (k / 3) (s.strand k).e.asid page e.toNat) ∧
      (∀ x ∈ t.tlb.tail, x ∈ s.tlb) ∧ t.out = s.out ∧
      WaitsBecome s k (AsksFor page) (fun w => { w with since := none, out := none, asked := false, blocked := false }) t) := by
  refine ⟨_, execAtsResponse_asked hk hn h (some e), ?_, ?_, rfl,
    updWaits_becomes (Wait.asks_iff page) (tlbPut s (atsEntry (k / 3) (s.strand k).e.asid page e.toNat)) k _⟩
  · rw [updWaits_tlb, tlbPut_tlb]; rfl
  · rw [updWaits_tlb, tlbPut_tlb]; exact keepOfCore_subset _ _ _
/-- A page response: the request outstanding longest is made again, or ends with PAGE_NOT_PRESENT (R509). -/
theorem priResponse_runs (hk : k < 384) (h : SomeWait s k (StandsSince n))
    (hmin : ∀ w m, (w = (s.strand k).wait ∨ ∃ q ∈ s.cells, q.1 / 64 = k ∧ w = q.2.wait) → StandsAtHost w → w.since = some m → n ≤ m) :
    Runs (.priResponse k true) s (fun t => t.out = s.out ∧ t.tlb = s.tlb ∧
      WaitsBecome s k (StandsSince n) (fun w => { w with out := none, asked := false, blocked := false }) t) ∧
    Runs (.priResponse k false) s (fun t => t.out = s.out ∧ t.tlb = s.tlb ∧
      WaitsBecome s k (StandsSince n) (fun w => { w with verdict := some .pageNotPresent, blocked := false }) t) :=
  have first := execPriResponse_first hk (requestTimes_min h hmin)
  ⟨⟨_, first true, rfl, rfl, updWaits_becomes (standsSince_iff n) s k _⟩, ⟨_, first false, rfl, rfl, updWaits_becomes (standsSince_iff n) s k _⟩⟩

/-- An invalidation takes the named translations out of every TLB; its completion, with those still due, follows every write (R509). -/
theorem atsInvalidation_runs (s : State) (n page : Nat) (all : Bool) : Runs (.atsInvalidation n page all) s (fun t =>
    t.strands.map (·.1) = s.strands.map (·.1) ∧ t.mem = s.mem ∧
    (globalWritesWait s = true → t.out = s.out ∧ t.dev.invDue = s.dev.invDue + 1 ∧ t.pending = s.pending) ∧
    (globalWritesWait s = false → t.dev.invDue = 0 ∧ t.pending = [] ∧
      ∃ l, t.out = s.out ++ l ++ List.replicate (s.dev.invDue + 1) Outbound.invalidationDone ∧ Outbound.invalidationDone ∉ l) ∧
    ∀ e, e ∈ t.tlb ↔ e ∈ s.tlb ∧ ¬(pasidOf s e.asid = some n ∧ (all = true ∨ (e.vbase ≤ 4096 * page ∧ 4096 * page < e.vbase + e.size)))) := by
  obtain ⟨hkeys, hmem, htlb⟩ := sendInvalidations_frame (invalidated s n page all)
  refine ⟨_, execAtsInvalidation_eq s n page all, hkeys, hmem, fun hw => ?_, fun hw => ?_, fun e => ?_⟩
  · rw [sendInvalidations_waits ((globalWritesWait_invalidated s n page all).trans hw)]
    exact ⟨rfl, rfl, rfl⟩
  · rw [sendInvalidations_sends (Nat.succ_ne_zero _) ((globalWritesWait_invalidated s n page all).trans hw)]
    obtain ⟨-, l, hout, hl⟩ := drainAll_noCompletion (invalidated s n page all)
    exact ⟨rfl, drainAll_pending _, l, congrArg (· ++ _) hout, hl⟩
  · rw [htlb]; exact mem_invalidated_tlb s n page all e

/-- A good flit is accepted and acknowledged, and what it acknowledges leaves the replay buffer (R510). -/
theorem linkFlitReceive_ack_runs (hu : PortCarries s port) (h : GoodFlit s port flit) (hack : flit.getLsbD 31 = false) :
    Runs (.linkFlitReceive port flit) s (fun t => (t.linkPort port).expect = (s.linkPort port).expect + 1 ∧
      (t.linkPort port).replay = unacked (flit.extractLsb' 16 12) (s.linkPort port).replay ∧
      t.out = s.out ++ [Outbound.linkAck port (s.linkPort port).expect false] ∧
      (t.linkPort port).inbox = (if flitKind flit = 0 then (s.linkPort port).inbox else (s.linkPort port).inbox ++ [flit]) ∧
      t.strands = s.strands ∧ t.mem = s.mem) := by
  obtain ⟨m, hport, -⟩ := ackFlits_linkPort (accepted s port flit) port (flit.extractLsb' 16 12) (flit.getLsbD 31)
  obtain ⟨hstrands, hmem, hout⟩ := ackFlits_frame (accepted s port flit) port (flit.extractLsb' 16 12) (flit.getLsbD 31)
  rw [linkPort_accepted] at hport
  rw [hack, if_neg Bool.false_ne_true] at hout
  refine ⟨_, execLinkFlitReceive_good hu h, ?_⟩
  dsimp only
  rw [State.say_linkPort, State.say_out, State.say_strands, State.say_mem, hport, hstrands, hmem, hack, hout]
  exact ⟨rfl, rfl, rfl, rfl, rfl, rfl⟩
/-- A good flit with NAK: what it does not acknowledge is sent again, and counted where nothing was acknowledged (R510). -/
theorem linkFlitReceive_nak_runs (hu : PortCarries s port) (h : GoodFlit s port flit) (hnak : flit.getLsbD 31 = true) :
    Runs (.linkFlitReceive port flit) s (fun t =>
      let rest := unacked (flit.extractLsb' 16 12) (s.linkPort port).replay
      (t.linkPort port).replay = rest ∧
      t.out = s.out ++ rest.map (fun f => Outbound.linkFlit port f) ++ [Outbound.linkAck port (s.linkPort port).expect false] ∧
      (t.linkPort port).naks = (if rest = [] then 0 else if rest.length = (s.linkPort port).replay.length then (s.linkPort port).naks + 1 else 1)) := by
  obtain ⟨m, hport, hnaks⟩ := ackFlits_linkPort (accepted s port flit) port (flit.extractLsb' 16 12) (flit.getLsbD 31)
  obtain ⟨-, -, hout⟩ := ackFlits_frame (accepted s port flit) port (flit.extractLsb' 16 12) (flit.getLsbD 31)
  rw [linkPort_accepted] at hport hnaks hout
  rw [hnak, if_pos rfl] at hout
  refine ⟨_, execLinkFlitReceive_good hu h, ?_⟩
  dsimp only
  rw [State.say_linkPort, State.say_out, hport, hnaks hnak, hnak, hout]
  exact ⟨rfl, rfl, rfl⟩
/-- A port that fails leaves service, with its replay buffer kept (R510). -/
theorem linkRetrain_runs (h : PortFails s port) : Runs (.linkRetrain port) s (fun t =>
    t.portUp port = false ∧ (∀ n, n ≠ port → t.portUp n = s.portUp n) ∧ (t.linkPort port).naks = 0 ∧
    (t.linkPort port).replay = (s.linkPort port).replay) := by
  refine ⟨_, execLinkRetrain_fails h, ?_⟩
  dsimp only
  rw [linkPort_outOfService]
  obtain ⟨hdown, hothers⟩ := portUp_outOfService s port { s.linkPort port with naks := 0 }
  exact ⟨hdown, hothers, rfl, rfl⟩
end

/-! ## The statement -/

/-- Settles O53: each clause is what the event's lemma above says of it. -/
theorem hostEvents : Obligations.HostEvents := by
  unfold Obligations.HostEvents
  intro s off port k page v flit
  refine ⟨fun h => ?ignored, fun hr ha => runs_eq (execRegisterWrite_reaches v hr ((answers_iff s off).2 ha)), regWrite_identification s v, ?registers,
    fun h => runs_eq (congrArg _ (readyWrite_of_ready h)), fun h => ?ready, resetDeassertion_runs s, fun h ok => runs_eq (execBootStageComplete_idle h ok),
    fun hs hb he => ?boot, ?translations, fun n all => atsInvalidation_runs s n page all, ?links, runs_eq rfl, runs_eq rfl, fun _ => runs_eq rfl, runs_eq rfl,
    fun _ _ => runs_eq rfl, fun _ => runs_eq rfl, runs_eq rfl, fun n h1 h4 => ?measured, ⟨_, runs_eq rfl⟩, fun n h4 h255 => ?unmeasured, runs_eq rfl⟩
  case ignored => exact runs_eq (execRegisterWrite_ignored v (by rwa [answers_iff]))
  case registers =>
    exact ⟨regRead_regWrite_pttHi s v, regRead_regWrite_pttLo s v, regRead_regWrite_kseln s v, regRead_regWrite_kselq s v, regRead_regWrite_quantum s v,
      fun h => ⟨regRead_regWrite_qtbaseHi v h, regRead_regWrite_qcount v h⟩, regWrite_queueTable_of_enabled v, fun h i hi => regWrite_facc_of_ready v h hi⟩
  case ready =>
    obtain ⟨hbad, hgood⟩ := readyWrite_of_not_ready h
    exact ⟨fun hb => runs_eq (congrArg _ (hbad hb)), fun hb => runs_eq (congrArg _ (hgood hb))⟩
  case boot =>
    have booting : Booting s := ⟨hs, hb, he⟩
    refine ⟨fun n code hmem hn => ?_, fun h2 ok => runs_eq (execBootStageComplete_versions booting h2 ok), bootStage5_runs booting,
      fun h2 h3 h5 => runs_eq (execBootStageComplete_advances booting (stageSucceeds_of_ne_two h2 true) h3 h5), bootStage3_runs booting⟩
    simp only [List.mem_cons, Prod.mk.injEq, List.not_mem_nil, or_false] at hmem
    have fails : n ≠ 2 → Runs (.bootStageComplete false) s (fun u => u = { s with dev := { s.dev with booterr := bootCode n } }) :=
      fun h2 => runs_eq (hn ▸ execBootStageComplete_fails booting (stageSucceeds_of_ne_two (hn ▸ h2) false))
    rcases hmem with ⟨rfl, rfl⟩ | ⟨rfl, rfl⟩ | ⟨rfl, rfl⟩
    all_goals exact fails (by decide)
  case translations =>
    refine ⟨fun hk h entry => runs_eq (execAtsResponse_unasked hk h entry),
      fun n hk hn h => ⟨atsResponse_none_runs hk hn h, atsResponse_some_runs hk hn h⟩,
      fun hk => ⟨fun h b => runs_eq (execPriResponse_unasked hk h b), fun n h hmin => priResponse_runs hk h hmin⟩,
      fun hk hw => ?_, fun w hk hw hh => ?_, fun w hk hw hh => ?_⟩
    · obtain ⟨hats, hpri⟩ := agent_unasked (page := page) hk (fun w h => nomatch hw.symm.trans h)
      exact ⟨fun entry => runs_eq (hats entry), fun b => runs_eq (hpri b)⟩
    · obtain ⟨hats, hpri⟩ := agent_unasked (page := page) hk (fun w' h => by rwa [Option.some.inj (h.symm.trans hw)])
      exact ⟨fun entry => runs_eq (hats entry), fun b => runs_eq (hpri b)⟩
    · refine ⟨fun e hp => ?_, fun n hn => runs_eq (execAtsResponse_agent hk hw hh hn none), runs_eq (execPriResponse_agent hk hw hh true),
        runs_eq (execPriResponse_agent hk hw hh false)⟩
      obtain ⟨n, hn⟩ := Option.ne_none_iff_exists'.1 hp
      exact runs_eq (execAtsResponse_agent hk hw hh hn (some e))
  case links =>
    refine ⟨fun h => runs_eq (execLinkFlitReceive_down h), fun hu h => runs_eq (execLinkFlitReceive_bad hu h), linkFlitReceive_ack_runs,
      linkFlitReceive_nak_runs, ⟨fun h => runs_eq (execLinkRetrain_idle h), linkRetrain_runs⟩,
      ⟨fun h b => runs_eq (execPortReturn_idle h b), portReturn_runs⟩, fun h => runs_eq (execPortLost_link_idle h), portLost_link_runs,
      fun h => runs_eq (execPortLost_host_idle h), fun hlt hl => runs_eq (execPortLost_host hlt hl)⟩
  case measured => exact runs_eq (execGetMeasurements_one h1 h4)
  case unmeasured => exact runs_eq (execGetMeasurements_unknown h4 h255)

end Sys2Proof.Machine
end

section
/-! What reset leaves, and what errors, fences, the self-test and the limits of power and heat do (R28, R29, R514 to R516): lemmas for the
statements ResetState and HealthEvents, and their proofs. -/

namespace Sys2Proof.Machine
open Sys2Proof

/-! ## After reset (R28, R29, R61, R493, R506, R508) -/

/-- The identification and resource registers. -/
theorem reset_identification : (regRead State.reset 0x00).1 = 0x4E044128 ∧ (regRead State.reset 0x04).1 = 0x100 ∧
    (regRead State.reset 0x08).1 = 0x1F ∧ (regRead State.reset 0x0C).1 = 0x80401004 ∧ (regRead State.reset 0x10).1 = 1250 ∧
    (regRead State.reset 0x14).1 = 262144 := ⟨rfl, rfl, rfl, rfl, rfl, rfl⟩
/-- The launch unit's registers: the quantum alone is not zero. -/
theorem reset_launchUnit : (regRead State.reset 0x10C).1 = 100 ∧
    ∀ o ∈ [0x100, 0x104, 0x108, 0x114, 0x118, 0x11C, 0x124, 0x128, 0x12C], (regRead State.reset o).1 = 0 :=
  ⟨rfl, by decide⟩
/-- No feature is accepted. -/
theorem reset_facc {i : Nat} (hi : i < 8) : (regRead State.reset (0x220 + 4 * i)).1 = 0 := by
  interval_cases i <;> rfl
/-- The power cap is the highest. -/
theorem reset_powerCap : ((regRead State.reset 0x248).1.extractLsb' 16 16 : BitVec 16) = 3400 := by decide

/-- Settles O55: registers as their maps say, and tables that hold nothing. -/
theorem resetState : Obligations.ResetState := by
  unfold Obligations.ResetState
  obtain ⟨hid, hrev, hdies, hres, hclk, hdram⟩ := reset_identification
  obtain ⟨hquantum, hzero⟩ := reset_launchUnit
  simp only [List.forall_mem_cons, List.not_mem_nil, false_imp_iff, implies_true, and_true] at hzero
  obtain ⟨h100, h104, h108, h114, h118, h11C, h124, h128, h12C⟩ := hzero
  exact ⟨hid, hrev, hdies, hres, hclk, hdram, h100, h104, h108, hquantum, h114, h118, h11C, h124, h128, h12C, rfl, fun _ => reset_facc, rfl, rfl,
    reset_powerCap, rfl, rfl, fun _ => rfl, fun _ => rfl, rfl, rfl, fun _ => rfl, rfl, rfl, fun _ => ⟨rfl, rfl⟩, rfl, rfl⟩

/-! ## Sets, control blocks of cores and health events -/

theorem mem_nsInsert (l : NatSet) (k a : Nat) : a ∈ nsInsert l k ↔ a = k ∨ a ∈ l := by
  induction l with
  | nil => simp [nsInsert]
  | cons j t ih =>
    simp only [nsInsert]
    split
    · simp
    · split
      · subst_vars; simp
      · simp only [List.mem_cons, ih]; tauto

@[simp] theorem State.coreRegs_updCore_self (s : State) (n : Nat) (f : CoreRegs → CoreRegs) : (s.updCore n f).coreRegs n = f (s.coreRegs n) :=
  sget_sput_self _ _ _ _
theorem State.coreRegs_updCore_of_ne (s : State) {n m : Nat} (f : CoreRegs → CoreRegs) (h : m ≠ n) : (s.updCore n f).coreRegs m = s.coreRegs m :=
  sget_sput_of_ne _ _ _ h
/-- From s to t a core's control block becomes r, and no other's changes. -/
def CoreBecomes (s : State) (core : Nat) (r : CoreRegs) (t : State) : Prop := t.coreRegs core = r ∧ ∀ m, m ≠ core → t.coreRegs m = s.coreRegs m
theorem updCore_becomes (s : State) (core : Nat) (f : CoreRegs → CoreRegs) : CoreBecomes s core (f (s.coreRegs core)) (s.updCore core f) :=
  ⟨State.coreRegs_updCore_self s core f, fun _ hm => State.coreRegs_updCore_of_ne s f hm⟩

/-! ## Corrected errors (R514) -/

section
variable {s : State} {p : Nat}

/-- The page is DRAM of a die in service and not retired. -/
def PageInUse (s : State) (p : Nat) : Prop := p < 2 ^ 26 ∧ s.dev.diemap.getLsbD (p / 2 ^ 24) = true ∧ p ∉ s.dev.retired
theorem pageInUse_iff : PageInUse s p ↔
    ¬(2 ^ 26 ≤ p ∨ (!s.dev.diemap.getLsbD (p / 2 ^ 24)) = true ∨ s.dev.retired.contains p = true) := by
  simp [PageInUse, not_or]
/-- The times of a page's corrections in the last 24 hours, with the one of now. -/
def correctionTimes (s : State) (p : Nat) : List Nat :=
  (sget [] s.dev.corrections p).filter (fun t => decide (s.now < t + 86400000000000)) ++ [s.now]
/-- The state with one more corrected error counted. -/
def oneCorrected (s : State) : State := s.updDev (fun d => { d with corrected := d.corrected + 1 })

theorem execCorrectedError_noPage : execCorrectedError none s = .next (oneCorrected s) := rfl
theorem execCorrectedError_notInUse (h : ¬PageInUse s p) : execCorrectedError (some p) s = .next (oneCorrected s) :=
  congrArg _ (if_pos (not_not.1 (mt pageInUse_iff.2 h)))
theorem execCorrectedError_inUse (h : PageInUse s p) : execCorrectedError (some p) s = .next (
    if 16 ≤ (correctionTimes s p).length then retirePage (oneCorrected s) p
    else (oneCorrected s).updDev (fun d => { d with corrections := sput d.corrections p (correctionTimes s p) })) :=
  congrArg _ (if_neg (pageInUse_iff.1 h))

/-- A word of a retired page reads as poisoned. -/
theorem wordPoisoned_of_retired {w : Nat} (h : w / 1024 ∈ s.dev.retired) : wordPoisoned s w = true := by
  simp [wordPoisoned, h]
/-- The state with a page retired, before its 4,097th asks for replacement. -/
def pageRetired (s : State) (p : Nat) : State :=
  let t := s.updDev (fun d => { d with retired := nsInsert d.retired p, corrections := sdel d.corrections p
                                       retpages := BitVec.ofNat 16 (min 0xFFFF (d.retpages.toNat + 1)) })
  t.updDev (fun d => { d with drammib := BitVec.ofNat 32 (dramMib t) })
theorem retirePage_eq : retirePage s p =
    if (pageRetired s p).dev.retpages.toNat = 4097 then requestReplace (pageRetired s p) else pageRetired s p := rfl
theorem pageRetired_retpages : (pageRetired s p).dev.retpages.toNat = min 0xFFFF (s.dev.retpages.toNat + 1) :=
  Nat.mod_eq_of_lt (by omega)
theorem dramMib_congr {t : State} (hdies : t.dev.diemap = s.dev.diemap) (hret : t.dev.retired = s.dev.retired) : dramMib t = dramMib s := by
  unfold dramMib
  rw [hdies, hret]
theorem pageRetired_drammib : (pageRetired s p).dev.drammib = BitVec.ofNat 32 (dramMib (pageRetired s p)) :=
  congrArg (BitVec.ofNat 32) (dramMib_congr rfl rfl)
/-- What asking for replacement leaves as it is, retirement leaves as pageRetired has it. -/
theorem retirePage_keeps {α : Type} (f : State → α) (hf : ∀ t, f (requestReplace t) = f t) : f (retirePage s p) = f (pageRetired s p) := by
  rw [retirePage_eq, apply_ite f, hf, ite_self]
theorem pageRetired_frame : (pageRetired s p).mem = s.mem ∧ (pageRetired s p).strands = s.strands :=
  ⟨(State.updDev_mem _ _).trans (State.updDev_mem _ _), (State.updDev_strands _ _).trans (State.updDev_strands _ _)⟩
theorem retirePage_retpages : (retirePage s p).dev.retpages = (pageRetired s p).dev.retpages :=
  retirePage_keeps (·.dev.retpages) (fun _ => rfl)
/-- A retired page counts, answers with poison and is no memory any more. -/
theorem retirePage_retires : p ∈ (retirePage s p).dev.retired ∧
    (retirePage s p).dev.drammib = BitVec.ofNat 32 (dramMib (retirePage s p)) ∧
    (retirePage s p).dev.retpages.toNat = min 0xFFFF (s.dev.retpages.toNat + 1) := by
  refine ⟨?_, ?_, ?_⟩
  · rw [retirePage_keeps (·.dev.retired) (fun _ => rfl)]; exact (mem_nsInsert _ _ _).2 (.inl rfl)
  · rw [retirePage_keeps (·.dev.drammib) (fun _ => rfl), retirePage_keeps dramMib (fun _ => dramMib_congr rfl rfl), pageRetired_drammib]
  · rw [retirePage_retpages, pageRetired_retpages]
theorem retirePage_replace (h : (retirePage s p).dev.retpages.toNat = 4097) :
    (retirePage s p).dev.replace = true ∧ (retirePage s p).out = s.out ++ [.healthEvent] := by
  rw [retirePage_retpages] at h
  rw [retirePage_eq, if_pos h]
  exact ⟨rfl, rfl⟩
/-- The sixteenth correction in 24 hours retires its page. -/
theorem correctedError_retires_runs (h : PageInUse s p) (h16 : 16 ≤ (correctionTimes s p).length) : Runs (.correctedError (some p)) s (fun t =>
    p ∈ t.dev.retired ∧ (∀ w, w / 1024 = p → wordPoisoned t w = true) ∧ t.dev.drammib = BitVec.ofNat 32 (dramMib t) ∧
    t.dev.retpages.toNat = min 0xFFFF (s.dev.retpages.toNat + 1) ∧
    (t.dev.retpages.toNat = 4097 → t.dev.replace = true ∧ t.out = s.out ++ [Outbound.healthEvent]) ∧ t.mem = s.mem ∧ t.strands = s.strands) := by
  refine ⟨_, (execCorrectedError_inUse h).trans (congrArg _ (if_pos h16)), ?_⟩
  obtain ⟨hp, hmib, hpages⟩ := retirePage_retires (s := oneCorrected s) (p := p)
  obtain ⟨hmem, hstrands⟩ := pageRetired_frame (s := oneCorrected s) (p := p)
  exact ⟨hp, fun w hw => wordPoisoned_of_retired (hw ▸ hp), hmib, hpages, retirePage_replace,
    (retirePage_keeps (·.mem) requestReplace_mem).trans hmem, (retirePage_keeps (·.strands) requestReplace_strands).trans hstrands⟩
end

/-! ## Uncorrectable errors (R264, R514) -/

section
variable {s : State} {word : Nat}

theorem execUncorrectableError_memory (h : word < 2 ^ 58) :
    execUncorrectableError word s = .next { s with poison := nsInsert s.poison word } := congrArg _ (if_pos h)
/-- An element of a tile is poisoned where its tile is bound. -/
theorem execUncorrectableError_tile (hlo : 2 ^ 58 ≤ word) (hhi : word < 2 ^ 59) : execUncorrectableError word s = .next (
    let n := word - 2 ^ 58
    let x := sget ({} : Tile) s.tiles (n / 16384)
    if x.bound.isSome then { s with tiles := sput s.tiles (n / 16384) { x with poison := nsInsert x.poison (n % 16384) } } else s) :=
  congrArg _ ((if_neg hlo.not_gt).trans (if_neg hhi.not_ge))
theorem uncorrectableError_tile_runs (hlo : 2 ^ 58 ≤ word) (hhi : word < 2 ^ 59) :
    let n := word - 2 ^ 58
    let x := sget ({} : Tile) s.tiles (n / 16384)
    (x.bound = none → Runs (.uncorrectableError word) s (fun u => u = s)) ∧
    (x.bound ≠ none → Runs (.uncorrectableError word) s (fun u =>
      u = { s with tiles := sput s.tiles (n / 16384) { x with poison := nsInsert x.poison (n % 16384) } })) :=
  ⟨fun h => runs_eq ((execUncorrectableError_tile hlo hhi).trans (congrArg _ (if_neg (Option.not_isSome_iff_eq_none.2 h)))),
    fun h => runs_eq ((execUncorrectableError_tile hlo hhi).trans (congrArg _ (if_pos (Option.isSome_iff_ne_none.2 h))))⟩
/-- A relay queue's slots with word w of slot j poisoned. -/
def poisonSlot (l : List RelaySlot) (j w : Nat) : List RelaySlot :=
  l.zipIdx.map (fun p => if p.2 = j then { p.1 with poison := nsInsert p.1.poison w } else p.1)
theorem getElem?_poisonSlot (l : List RelaySlot) (j w i : Nat) :
    (poisonSlot l j w)[i]? = (l[i]?).map (fun e => if i = j then { e with poison := nsInsert e.poison w } else e) := by
  simp only [poisonSlot, List.getElem?_map, List.getElem?_zipIdx, Option.map_map, Nat.zero_add]
  rfl
/-- A strand with word n of its relay queues poisoned. -/
def poisonRelay (n : Nat) (t : Strand) : Strand :=
  { t with relays := t.relays.setIfInBounds (n / 2048 % 4) (poisonSlot (t.relays.getD (n / 2048 % 4) []) (n / 1024 % 2) (n % 1024)) }
theorem execUncorrectableError_relay (h : 2 ^ 59 ≤ word) :
    execUncorrectableError word s = .next (s.upd ((word - 2 ^ 59) / 8192) (poisonRelay (word - 2 ^ 59))) :=
  congrArg _ ((if_neg (by omega)).trans (if_pos h))
/-- What a vector holds once one of its entries is replaced. -/
theorem vector_getD_setIfInBounds {α : Type} {m : Nat} (v : Vector α m) {i : Nat} (hi : i < m) (a d : α) (j : Nat) :
    (v.setIfInBounds i a).getD j d = if j = i then a else v.getD j d := by
  have read : ∀ (u : Vector α m) (j : Nat), u.getD j d = u[j]?.getD d := fun u j => by
    rw [Vector.getD, Array.getD_eq_getD_getElem?, Vector.getElem?_toArray]
  rw [read, read, Vector.getElem?_setIfInBounds]
  by_cases h : j = i
  · rw [if_pos h.symm, if_pos hi, if_pos h]; rfl
  · rw [if_neg (Ne.symm h), if_neg h]
theorem poisonRelay_relays (n : Nat) (t : Strand) (q : Nat) : (poisonRelay n t).relays.getD q [] =
    if q = n / 2048 % 4 then poisonSlot (t.relays.getD (n / 2048 % 4) []) (n / 1024 % 2) (n % 1024) else t.relays.getD q [] :=
  vector_getD_setIfInBounds _ (Nat.mod_lt _ (by decide)) _ _ _
/-- A word of a relay queue's slot is poisoned. -/
theorem uncorrectableError_relay_runs (h : 2 ^ 59 ≤ word) :
    let n := word - 2 ^ 59
    let r := (s.strand (n / 8192)).relays.getD (n / 2048 % 4) []
    Runs (.uncorrectableError word) s (fun t =>
      (∀ i : Nat, ((t.strand (n / 8192)).relays.getD (n / 2048 % 4) [])[i]? =
        (r[i]?).map (fun e => if i = n / 1024 % 2 then { e with poison := nsInsert e.poison (n % 1024) } else e)) ∧
      (∀ q, q ≠ n / 2048 % 4 → (t.strand (n / 8192)).relays.getD q [] = (s.strand (n / 8192)).relays.getD q []) ∧
      StrandBecomes s (n / 8192) { s.strand (n / 8192) with relays := (t.strand (n / 8192)).relays } t) := by
  intro n r
  refine ⟨_, execUncorrectableError_relay h, fun i => ?_, fun q hq => ?_, ?_, fun j hj => State.strand_upd_of_ne s _ hj, rfl⟩
  · rw [State.strand_upd_self, poisonRelay_relays, if_pos rfl, getElem?_poisonSlot]
  · rw [State.strand_upd_self, poisonRelay_relays, if_neg hq]
  · rw [State.strand_upd_self]; rfl
end

/-! ## How kernels end (R497, R514) -/

/-- The state and the status of a kernel, where there is one. -/
def kernelEnd (s : State) (key : Nat) : Option (KState × Status) := (sfind s.kernels key).map (fun n => (n.state, n.status))
/-- From s to t no kernel comes or goes, and none changes its state or its status. -/
def SameEnds (s t : State) : Prop := ∀ key, kernelEnd t key = kernelEnd s key
namespace SameEnds
theorem of_eq {s t : State} (h : t.kernels = s.kernels) : SameEnds s t := fun key => by rw [kernelEnd, h, kernelEnd]
theorem refl (s : State) : SameEnds s s := of_eq rfl
theorem trans {s t u : State} (h : SameEnds s t) (g : SameEnds t u) : SameEnds s u := fun key => (g key).trans (h key)
theorem foldl {α : Type} (f : State → α → State) (h : ∀ s a, SameEnds s (f s a)) (l : List α) (s : State) : SameEnds s (l.foldl f s) := by
  induction l generalizing s with
  | nil => exact refl s
  | cons a t ih => exact (h s a).trans (ih (f s a))
theorem upd (s : State) (k : Nat) (f : Strand → Strand) : SameEnds s (s.upd k f) := of_eq (State.upd_kernels s k f)
/-- A kernel's entry is put again with its state and its status. -/
theorem put {s : State} {key : Nat} {n : Kernel} (hn : sfind s.kernels key = some n) (m : Kernel) (hst : m.state = n.state)
    (hs : m.status = n.status) : SameEnds s { s with kernels := sput s.kernels key m } := fun j => by
  simp only [kernelEnd, sfind_sput]
  by_cases h : j = key
  · subst h; simp [hn, hst, hs]
  · simp [h]
end SameEnds

theorem kernelProgress_ends (s : State) (n : Nat) : SameEnds s (kernelProgress s n) := by
  unfold kernelProgress
  split
  case h_1 kn hkn => exact .put hkn _ rfl rfl
  case h_2 => exact .refl s
theorem phaseSeen_ends (s : State) (gk n : Nat) : SameEnds s (phaseSeen s gk n) := by
  unfold phaseSeen
  split
  · exact .refl s
  · refine .foldl _ (fun t k => ?_) _ s
    exact .upd t k _
theorem arriveAt_ends (s : State) (gk n : Nat) (wide outside : Bool) : SameEnds s (arriveAt s gk n wide outside) := by
  have bars : SameEnds s (setBars s (barMembers s gk n) n (·.arrival wide outside)) := .of_eq rfl
  unfold arriveAt
  dsimp only
  split
  · have progress : ∀ t, SameEnds t (match sfind t.groups gk with
        | some g => kernelProgress t g.kernel
        | none => t) := fun t => by
      split
      · exact kernelProgress_ends t _
      · exact .refl t
    split
    · exact bars.trans (progress _)
    · exact (bars.trans (progress _)).trans (phaseSeen_ends _ _ _)
  · exact bars
theorem retireOne_ends (s : State) (k : Nat) (n : BitVec 2) (x : Transfer) : SameEnds s (retireOne s k n x) := by
  unfold retireOne
  dsimp only
  split
  · exact .trans (.of_eq rfl) (arriveAt_ends _ _ _ _ _)
  · exact .of_eq rfl
theorem retireRun_ends (k : Nat) (n : BitVec 2) (l : List Transfer) (s : State) : SameEnds s (retireRun k n l s) := by
  induction l generalizing s with
  | nil => exact .refl s
  | cons x l ih =>
    rw [retireRun]
    split
    · exact (retireOne_ends s k n x).trans (ih _)
    · exact .refl s
theorem leaveSpec_ends (abandon : Bool) (s : State) (j : Nat) : SameEnds s (leaveSpec abandon s j) := by
  unfold leaveSpec
  refine .foldl _ (fun s k => ?_) _ _
  cases abandon
  · exact .upd s k (fun t => { t with chan := t.chan.map (Channel.leaveSpec false j) })
  · refine (SameEnds.upd s k (fun t => { t with chan := t.chan.map (Channel.leaveSpec true j) })).trans
      (.foldl (fun s n => retire s k (BitVec.ofNat 2 n)) (fun t n => ?_) _ _)
    exact retireRun_ends k _ _ t
theorem dropTasks_ends (s : State) (key : Nat) : SameEnds s (dropTasks s key) := by
  refine .trans (.foldl (fun s j => slotsLeave true (leaveSpec true s j) j) (fun t j => ?_) _ s) (.of_eq rfl)
  exact (leaveSpec_ends true t j).trans (.of_eq rfl)

theorem discardCocoon_ends (s : State) (ck : Nat) : SameEnds s (discardCocoon s ck) := by
  unfold discardCocoon
  split
  · exact .refl s
  · refine .trans (.foldl _ (fun s i => ?_) _ s) (.of_eq rfl)
    split
    · dsimp only
      split <;> exact .of_eq rfl
    · exact .refl s
theorem dropInv_ends (s : State) (k : Nat) : SameEnds s (dropInv s k) := by
  refine .trans (t := keepFrames s k) ?_ (.of_eq rfl)
  unfold keepFrames
  split
  · exact .of_eq rfl
  · exact .refl s
theorem stopsWaiting_kernels (k : Nat) (s : State) : (stopsWaiting k s).kernels = s.kernels := rfl
/-- What is stopped unsaved beyond cocoons and the invocation is the strand's own. -/
theorem stopUnsaved_kernels (s : State) (k : Nat) :
    (stopUnsaved s k).kernels = (dropInv ((List.range 8).foldl (fun s n => discardCocoon s (8 * k + n)) s) k).kernels := by
  unfold stopUnsaved
  dsimp only
  rw [stopsWaiting_kernels, State.upd_kernels]
theorem stopUnsaved_ends (s : State) (k : Nat) : SameEnds s (stopUnsaved s k) := by
  refine .trans (.foldl (fun s n => discardCocoon s (8 * k + n)) (fun t n => ?_) (List.range 8) s)
    (.trans (dropInv_ends _ k) (.of_eq (stopUnsaved_kernels s k)))
  exact discardCocoon_ends t _

/-- A group without its place, its configurations and its strands' work. -/
def groupGone (s : State) (gk : Nat) (g : Group) : State :=
  g.keys.foldl (fun s k => s.upd k (fun t => { t with place := none, status := .empty, ending := false }))
    (evictGroup { s with groups := sdel s.groups gk } gk)
/-- What a group's kernel had allocated on its cluster and its die is given back with the last group there. -/
def givesBack (g : Group) (s : State) : State :=
  let left (f : Nat → Bool) : Bool := s.groups.any (fun p => p.2.kernel == g.kernel && f p.2.core)
  match sfind s.kernels g.kernel with
  | some kn =>
    let kn := if left (fun c => clusterOf c == clusterOf g.core) then kn else { kn with clAlloc := sdel kn.clAlloc (clusterOf g.core) }
    let kn := if left (fun c => dieOf c == dieOf g.core) then kn else { kn with dieAlloc := sdel kn.dieAlloc (dieOf g.core) }
    { s with kernels := sput s.kernels g.kernel kn }
  | none => s
/-- A core without groups holds none from now on. -/
def restsCore (core : Nat) (s : State) : State :=
  if s.groups.any (fun p => p.2.core == core) then s else s.updCore core (fun c => { c with heldSince := none })
theorem retireGroup_eq {s : State} {gk : Nat} {g : Group} (hg : sfind s.groups gk = some g) :
    retireGroup s gk = (restsCore g.core (givesBack g (groupGone s gk g))).setOff (.place (dieOf g.core)) := by
  unfold retireGroup
  rw [hg]
  rfl
theorem groupGone_ends (s : State) (gk : Nat) (g : Group) : SameEnds s (groupGone s gk g) := by
  refine .trans (.of_eq rfl) (.foldl _ (fun t k => ?_) _ _)
  exact .upd t k _
theorem givesBack_ends (g : Group) (s : State) : SameEnds s (givesBack g s) := by
  unfold givesBack
  dsimp only
  split
  case h_1 kn hkn => exact .put hkn _ (by split <;> split <;> rfl) (by split <;> split <;> rfl)
  case h_2 => exact .refl s
theorem restsCore_ends (core : Nat) (s : State) : SameEnds s (restsCore core s) := by
  unfold restsCore
  split
  · exact .refl s
  · exact .of_eq rfl
theorem retireGroup_ends (s : State) (gk : Nat) : SameEnds s (retireGroup s gk) := by
  obtain hg | ⟨g, hg⟩ := Option.eq_none_or_eq_some (sfind s.groups gk)
  · unfold retireGroup
    rw [hg]
    exact .refl s
  · rw [retireGroup_eq hg]
    exact ((groupGone_ends s gk g).trans (givesBack_ends g _)).trans ((restsCore_ends g.core _).trans (.of_eq rfl))
theorem stopGroup_ends (s : State) (p : Nat × Group) : SameEnds s (stopGroup s p) := by
  have strands : SameEnds s (p.2.keys.foldl (fun s k =>
      if stopsNow s k then stopUnsaved s k else s.upd k (fun t => { t with status := .stopping })) s) := by
    refine .foldl _ (fun s k => ?_) _ s
    split
    · exact stopUnsaved_ends s k
    · exact .of_eq rfl
  unfold stopGroup
  dsimp only
  split
  · refine (strands.trans (.foldl releaseTiles (fun t k => ?_) p.2.keys _)).trans (retireGroup_ends _ _)
    exact .of_eq rfl
  · exact strands
theorem stopKernel_ends (s : State) (key : Nat) : SameEnds s (stopKernel s key) := .foldl _ stopGroup_ends _ s

/-- How a kernel stands once it is ended with a status: one that ends already goes on as it is. -/
def endedWith (st : Status) (e : KState × Status) : KState × Status := if e.1 = .ending then e else (.ending, st)
theorem kernelEnd_endKernel (s : State) (key : Nat) (st : Status) (j : Nat) :
    kernelEnd (endKernel s key st) j = if j = key then (kernelEnd s key).map (endedWith st) else kernelEnd s j := by
  unfold endKernel
  split
  case h_1 hn => by_cases h : j = key <;> simp [h, kernelEnd, hn]
  case h_2 n hn =>
    split
    case isTrue he => by_cases h : j = key <;> simp [h, kernelEnd, hn, endedWith, he]
    case isFalse he =>
      refine (((dropTasks_ends _ _).trans (stopKernel_ends _ _)).trans (.of_eq rfl) j).trans ?_
      by_cases h : j = key <;> simp [h, kernelEnd, hn, endedWith, he, sfind_sput]
/-- Of the kernels that a fence ends, each ends with FAULTED unless it ended before; the others stay as they are. -/
theorem kernelEnd_faultKernels (l : List Nat) (s : State) (key : Nat) :
    kernelEnd (faultKernels s l) key = if key ∈ l then (kernelEnd s key).map (endedWith .faulted) else kernelEnd s key := by
  have twice : ∀ e, endedWith .faulted (endedWith .faulted e) = endedWith .faulted e := fun e => by
    unfold endedWith; split <;> simp_all
  induction l generalizing s with
  | nil => rfl
  | cons k l ih =>
    have first : kernelEnd (stopKernel (endKernel s k .faulted) k) key =
        if key = k then (kernelEnd s k).map (endedWith .faulted) else kernelEnd s key :=
      (stopKernel_ends _ _ _).trans (kernelEnd_endKernel s k .faulted key)
    rw [show faultKernels s (k :: l) = faultKernels (stopKernel (endKernel s k .faulted) k) l from rfl, ih, first]
    by_cases hk : key = k
    · subst hk; by_cases hl : key ∈ l <;> simp [hl, Option.map_map, Function.comp_def, twice]
    · simp [hk]
theorem faultKernels_faulted {s : State} {l : List Nat} {key : Nat} {n : Kernel} (hl : key ∈ l) (hn : sfind s.kernels key = some n)
    (he : n.state ≠ .ending) : ∃ m, sfind (faultKernels s l).kernels key = some m ∧ m.state = .ending ∧ m.status = .faulted := by
  have h := kernelEnd_faultKernels l s key
  rw [if_pos hl] at h
  simpa [kernelEnd, hn, endedWith, he] using h

/-! ## Fenced cores and dies (R514, R515) -/

/-- What each of a list's steps keeps, the list keeps. -/
theorem foldl_keeps {α β : Type} (f : State → β) (g : State → α → State) (h : ∀ s a, f (g s a) = f s) (l : List α) (s : State) :
    f (l.foldl g s) = f s := by
  induction l generalizing s with
  | nil => rfl
  | cons a t ih => exact (ih _).trans (h s a)

section
variable {s : State} {core die : Nat}

/-- The control block of a core out of service. -/
def fencedRegs (c : CoreRegs) : CoreRegs := { c with fenced := true }
theorem execCoreFence_idle (h : 128 ≤ core ∨ (s.coreRegs core).fenced = true) : execCoreFence core s = .next s := congrArg _ (if_pos h)
/-- The kernels with groups on a core. -/
def kernelsOnCore (s : State) (core : Nat) : List Nat := ((coreGroups s core).map (fun p => p.2.kernel)).dedup
/-- The state in which a core has left service, with its kernels still as they were. -/
def coreGone (s : State) (core : Nat) : State :=
  (s.updCore core fencedRegs).updDev (fun d => { d with cores := d.cores - 1 })
theorem execCoreFence_fences (hlt : core < 128) (hf : (s.coreRegs core).fenced = false) : execCoreFence core s =
    .next ((requestReplace (faultKernels (coreGone s core) (kernelsOnCore s core))).setOff (.place (dieOf core))) :=
  congrArg _ (if_neg (not_or.2 ⟨hlt.not_ge, by simp [hf]⟩))
/-- A fenced core leaves the count, its kernels end and a replacement is asked for. -/
theorem coreFence_runs (hlt : core < 128) (hf : (s.coreRegs core).fenced = false) : Runs (.coreFence core) s (fun t => ∃ u,
    CoreBecomes s core (fencedRegs (s.coreRegs core)) u ∧
    u.dev = { s.dev with cores := s.dev.cores - 1 } ∧ { u with cores := s.cores, dev := s.dev } = s ∧
    t = (requestReplace (faultKernels u (kernelsOnCore s core))).setOff (.place (core / 32)) ∧
    (kernelsOnCore s core = [] → (t.coreRegs core).fenced = true ∧ t.dev.replace = true ∧ t.out = s.out ++ [Outbound.healthEvent])) := by
  have gone : CoreBecomes s core (fencedRegs (s.coreRegs core)) (coreGone s core) := updCore_becomes s core fencedRegs
  refine ⟨_, execCoreFence_fences hlt hf, coreGone s core, gone, rfl, rfl, rfl, fun hks => ?_⟩
  rw [hks]
  exact ⟨congrArg CoreRegs.fenced gone.1, rfl, rfl⟩

/-- The state with the cores of a list fenced. -/
def fenceCores (l : List Nat) (s : State) : State := l.foldl (fun s c => s.updCore c fencedRegs) s
theorem coreRegs_fenceCores (l : List Nat) (s : State) (n : Nat) :
    (fenceCores l s).coreRegs n = if n ∈ l then fencedRegs (s.coreRegs n) else s.coreRegs n := by
  induction l generalizing s with
  | nil => rfl
  | cons c l ih =>
    rw [show fenceCores (c :: l) s = fenceCores l (s.updCore c fencedRegs) from rfl, ih]
    by_cases h : n = c
    · subst h; simp [fencedRegs]
    · rw [State.coreRegs_updCore_of_ne _ _ h]; simp [h]
/-- Nothing but control blocks of cores changes. -/
theorem fenceCores_keeps {β : Type} (f : State → β) (h : ∀ s n g, f (State.updCore s n g) = f s) (l : List Nat) (s : State) :
    f (fenceCores l s) = f s := foldl_keeps f _ (fun s c => h s c _) l s

theorem mem_upFrom_die (die n : Nat) : n ∈ upFrom (32 * die) 32 ↔ n / 32 = die := by
  rw [mem_upFrom]; omega
/-- A bit map once one of its bits is cleared. -/
theorem getLsbD_clear_bit {w : Nat} (m : BitVec w) (p n : Nat) :
    (m &&& ~~~((1 : BitVec w) <<< p)).getLsbD n = (m.getLsbD n && decide (n ≠ p)) := by
  by_cases hn : n < w
  · by_cases hp : n = p
    · subst hp; simp [hn]
    · have off : ((1 : BitVec w) <<< p).getLsbD n = false := by simp; omega
      simp only [BitVec.getLsbD_and, BitVec.getLsbD_not, off]; simp [hn, hp]
  · rw [BitVec.getLsbD_of_ge _ _ (by omega), BitVec.getLsbD_of_ge m _ (by omega), Bool.false_and]

/-- The cores of a die that are not fenced. -/
def coresOfDie (s : State) (die : Nat) : List Nat := (upFrom (32 * die) 32).filter (fun n => !(s.coreRegs n).fenced)
/-- The kernel has a group on the die, or shards to place there. -/
def OnDie (s : State) (die key : Nat) (n : Kernel) : Prop :=
  (∃ g ∈ s.groups, g.2.kernel = key ∧ g.2.core / 32 = die) ∨ ∃ r, sfind n.toPlace die = some r ∧ r.1 < r.2
/-- The kernels with shards on a die. -/
def kernelsOnDie (s : State) (die : Nat) : List Nat :=
  (s.kernels.filter (fun p => s.groups.any (fun g => g.2.kernel == p.1 && dieOf g.2.core == die) ||
    (sfind p.2.toPlace die).any (fun r => decide (r.1 < r.2)))).map (·.1)
theorem mem_kernelsOnDie (s : State) (die key : Nat) : key ∈ kernelsOnDie s die ↔ ∃ n, (key, n) ∈ s.kernels ∧ OnDie s die key n := by
  simp [kernelsOnDie, OnDie, dieOf, Option.any_eq_true]
/-- An entry found in a table stands in its list. -/
theorem mem_of_sfind {α : Type} {l : Sparse α} {k : Nat} {v : α} (h : sfind l k = some v) : (k, v) ∈ l := by
  induction l with
  | nil => cases h
  | cons p t ih =>
    obtain ⟨j, w⟩ := p
    rw [sfind] at h
    split at h
    · cases h; subst_vars; exact List.mem_cons_self
    · exact List.mem_cons_of_mem _ (ih h)
/-- The die's place in the map, its cores and its copy engines are gone. -/
def dieUnmapped (s : State) (die : Nat) : State :=
  (fenceCores (coresOfDie s die) s).updDev (fun d =>
    { d with diemap := d.diemap &&& ~~~((1 : BitVec 4) <<< die), cores := d.cores - BitVec.ofNat 8 (coresOfDie s die).length
             cpyeng := d.cpyeng - 16 })
/-- The state in which a die has left service, with its kernels still as they were. -/
def dieGone (s : State) (die : Nat) : State :=
  (dieUnmapped s die).updDev (fun d => { d with drammib := BitVec.ofNat 32 (dramMib (dieUnmapped s die)) })
/-- Every die in service looks for groups to place. -/
def placeOnDies (s : State) : State := (diesUp s).foldl (fun s d => s.setOff (.place d)) s
theorem execDieFence_idle (h : ¬(die < 4 ∧ s.dev.diemap.getLsbD die = true)) : execDieFence die s = .next s :=
  congrArg _ (if_pos ((not_and_or.1 h).imp not_lt.1 (fun hd => by simpa using hd)))
theorem execDieFence_fences (hlt : die < 4) (hd : s.dev.diemap.getLsbD die = true) :
    execDieFence die s = .next (placeOnDies (requestReplace (faultKernels (dieGone s die) (kernelsOnDie s die)))) :=
  congrArg _ (if_neg (by rw [hd]; simpa using hlt))

theorem dieUnmapped_dev : (dieUnmapped s die).dev = { s.dev with
    diemap := s.dev.diemap &&& ~~~((1 : BitVec 4) <<< die), cores := s.dev.cores - BitVec.ofNat 8 (coresOfDie s die).length
    cpyeng := s.dev.cpyeng - 16 } := by
  have kept : (fenceCores (coresOfDie s die) s).dev = s.dev := fenceCores_keeps State.dev (fun _ _ _ => rfl) _ s
  simp only [dieUnmapped, State.updDev_dev, kept]
theorem dieGone_diemap : (dieGone s die).dev.diemap = s.dev.diemap &&& ~~~((1 : BitVec 4) <<< die) := by
  simp only [dieGone, State.updDev_dev, dieUnmapped_dev]
theorem dieGone_dev : (dieGone s die).dev = { s.dev with
    diemap := (dieGone s die).dev.diemap, cores := s.dev.cores - BitVec.ofNat 8 (coresOfDie s die).length
    cpyeng := s.dev.cpyeng - 16, drammib := BitVec.ofNat 32 (dramMib (dieGone s die)) } := by
  have hmib : dramMib (dieGone s die) = dramMib (dieUnmapped s die) := dramMib_congr rfl rfl
  rw [hmib, dieGone_diemap]
  simp only [dieGone, State.updDev_dev, dieUnmapped_dev]
/-- A die that leaves service changes nothing but the device's registers and control blocks of cores. -/
theorem dieGone_keeps {β : Type} (f : State → β) (hcore : ∀ s n g, f (State.updCore s n g) = f s) (hdev : ∀ s g, f (State.updDev s g) = f s) :
    f (dieGone s die) = f s := by
  rw [dieGone, hdev, dieUnmapped, hdev, fenceCores_keeps f hcore]
theorem coreRegs_dieGone (n : Nat) : (dieGone s die).coreRegs n = if n ∈ coresOfDie s die then fencedRegs (s.coreRegs n) else s.coreRegs n :=
  coreRegs_fenceCores _ s n
theorem dieGone_fenced {n : Nat} (h : n / 32 = die) : ((dieGone s die).coreRegs n).fenced = true := by
  rw [coreRegs_dieGone]
  split
  case isTrue => rfl
  case isFalse hn => simpa [coresOfDie, mem_upFrom_die, h] using hn
theorem coreRegs_dieGone_of_ne {n : Nat} (h : n / 32 ≠ die) : (dieGone s die).coreRegs n = s.coreRegs n := by
  have hn : n ∉ coresOfDie s die := fun hn => h ((mem_upFrom_die die n).1 (List.mem_filter.1 hn).1)
  rw [coreRegs_dieGone, if_neg hn]
/-- Searches for groups are set off, and nothing else happens. -/
theorem placeOnDies_keeps {β : Type} (f : State → β) (h : ∀ s t, f (State.setOff s t) = f s) (s : State) : f (placeOnDies s) = f s :=
  foldl_keeps f _ (fun s _ => h s _) _ s
theorem placeOnDies_requestReplace (s : State) : (placeOnDies (requestReplace s)).dev.replace = true ∧
    (placeOnDies (requestReplace s)).out = s.out ++ [.healthEvent] ∧ (placeOnDies (requestReplace s)).mem = s.mem ∧
    (placeOnDies (requestReplace s)).strands = s.strands ∧ (placeOnDies (requestReplace s)).kernels = s.kernels := by
  rw [placeOnDies_keeps (·.dev.replace) (fun _ _ => rfl), placeOnDies_keeps (·.out) (fun _ _ => rfl), placeOnDies_keeps (·.mem) (fun _ _ => rfl),
    placeOnDies_keeps (·.strands) (fun _ _ => rfl), placeOnDies_keeps (·.kernels) (fun _ _ => rfl)]
  exact ⟨rfl, rfl, rfl, rfl, rfl⟩
theorem dieGone_frame : { dieGone s die with dev := s.dev, cores := s.cores } = s ∧ (dieGone s die).out = s.out ∧
    (dieGone s die).mem = s.mem ∧ (dieGone s die).strands = s.strands ∧ (dieGone s die).kernels = s.kernels :=
  ⟨dieGone_keeps (fun t => { t with dev := s.dev, cores := s.cores }) (fun _ _ _ => rfl) (fun _ _ => rfl),
    dieGone_keeps (·.out) (fun _ _ _ => rfl) (fun _ _ => rfl), dieGone_keeps (·.mem) (fun _ _ _ => rfl) (fun _ _ => rfl),
    dieGone_keeps (·.strands) (fun _ _ _ => rfl) (fun _ _ => rfl), dieGone_keeps (·.kernels) (fun _ _ _ => rfl) (fun _ _ => rfl)⟩
theorem dieGone_unmapped : (dieGone s die).dev.diemap.getLsbD die = false ∧
    ∀ n, n ≠ die → (dieGone s die).dev.diemap.getLsbD n = s.dev.diemap.getLsbD n := by
  simp only [dieGone_diemap, getLsbD_clear_bit]
  exact ⟨by simp, fun n hn => by simp [hn]⟩
/-- A fenced die leaves the counts with its cores and its memory, its kernels end and a replacement is asked for. -/
theorem dieFence_runs (hlt : die < 4) (hd : s.dev.diemap.getLsbD die = true) : Runs (.dieFence die) s (fun t =>
    (∃ u v ks, t = (diesUp v).foldl (fun s d => s.setOff (.place d)) v ∧ v = requestReplace (faultKernels u ks) ∧
      { u with dev := s.dev, cores := s.cores } = s ∧ (∀ key, key ∈ ks ↔ ∃ n, (key, n) ∈ s.kernels ∧ OnDie s die key n) ∧
      u.dev.diemap.getLsbD die = false ∧ (∀ n, n ≠ die → u.dev.diemap.getLsbD n = s.dev.diemap.getLsbD n) ∧
      (∀ n, n / 32 = die → (u.coreRegs n).fenced = true) ∧ (∀ n, n / 32 ≠ die → u.coreRegs n = s.coreRegs n) ∧
      u.dev = { s.dev with
        diemap := u.dev.diemap, cores := s.dev.cores - BitVec.ofNat 8 (coresOfDie s die).length, cpyeng := s.dev.cpyeng - 16
        drammib := BitVec.ofNat 32 (dramMib u) } ∧
      (ks = [] → t.dev.replace = true ∧ t.out = s.out ++ [Outbound.healthEvent] ∧ t.mem = s.mem ∧ t.strands = s.strands)) ∧
    ∀ key n, sfind s.kernels key = some n → OnDie s die key n → n.state ≠ .ending →
      ∃ m, sfind t.kernels key = some m ∧ m.state = .ending ∧ m.status = .faulted) := by
  obtain ⟨hframe, hout, hmem, hstrands, hkernels⟩ := dieGone_frame (s := s) (die := die)
  obtain ⟨hreplace, hout', hmem', hstrands', hkernels'⟩ := placeOnDies_requestReplace (faultKernels (dieGone s die) (kernelsOnDie s die))
  obtain ⟨hdie, hothers⟩ := dieGone_unmapped (s := s) (die := die)
  refine ⟨_, execDieFence_fences hlt hd, ⟨dieGone s die, _, kernelsOnDie s die, rfl, rfl, hframe, mem_kernelsOnDie s die, hdie, hothers,
    fun n => dieGone_fenced, fun n => coreRegs_dieGone_of_ne, dieGone_dev, fun hks => ?noneEnds⟩, fun key n hn hon he => ?ends⟩
  case noneEnds =>
    have same : faultKernels (dieGone s die) (kernelsOnDie s die) = dieGone s die := by rw [hks]; rfl
    refine ⟨hreplace, ?_, ?_, ?_⟩
    · rw [hout', same, hout]
    · rw [hmem', same, hmem]
    · rw [hstrands', same, hstrands]
  case ends =>
    rw [hkernels']
    exact faultKernels_faulted ((mem_kernelsOnDie s die key).2 ⟨n, mem_of_sfind hn, hon⟩) (by rwa [hkernels]) he
end

/-! ## The self-test (R514) -/

section
variable {s : State} {core : Nat}

/-- The core has held groups for 20 hours, and still receives more. -/
def HeldLong (s : State) (core : Nat) : Prop :=
  (s.coreRegs core).noNew = none ∧ ∃ since, (s.coreRegs core).heldSince = some since ∧ since + 72000000000000 ≤ s.now
theorem heldLong_iff : HeldLong s core ↔
    ((s.coreRegs core).noNew.isNone && (s.coreRegs core).heldSince.any (fun t => decide (t + 72000000000000 ≤ s.now))) = true := by
  simp only [HeldLong, Bool.and_eq_true, Option.isNone_iff_eq_none, Option.any_eq_true, decide_eq_true_eq]
theorem execNoNewGroup_idle (h : ¬HeldLong s core) : execNoNewGroup core s = .next s := congrArg _ (if_neg (mt heldLong_iff.2 h))
theorem execNoNewGroup_holdsBack (h : HeldLong s core) :
    execNoNewGroup core s = .next (s.updCore core (fun c => { c with noNew := some s.now })) := congrArg _ (if_pos (heldLong_iff.1 h))

/-- The core is not empty four hours after it was held back, and no test runs on it. -/
def TestDue (s : State) (core : Nat) : Prop := (s.coreRegs core).testing = false ∧
  (∃ since, (s.coreRegs core).noNew = some since ∧ since + 14400000000000 ≤ s.now) ∧ coreGroups s core ≠ []
theorem testDue_iff : TestDue s core ↔ ¬((s.coreRegs core).testing || !((s.coreRegs core).noNew.any (fun t => decide (t + 14400000000000 ≤ s.now))) ||
    (coreGroups s core).isEmpty) = true := by
  simp only [TestDue, Bool.or_eq_true, not_or, Bool.not_eq_true', Bool.not_eq_true, Bool.not_eq_false, Option.any_eq_true, decide_eq_true_eq,
    List.isEmpty_eq_false_iff, and_assoc]
/-- The strands of a core that the test pre-empts. -/
def testStrands (s : State) (core : Nat) : List Nat := (upFrom (3 * core) 3).filter (fun k => (s.strand k).status == .running && saveAreaOk s k)
theorem execSelfTestPreempt_idle (h : ¬TestDue s core) : execSelfTestPreempt core s = .next s :=
  congrArg _ (if_pos (not_not.1 (mt testDue_iff.2 h)))
theorem execSelfTestPreempt_preempts (h : TestDue s core) : execSelfTestPreempt core s =
    .next (((testStrands s core).foldl preempt s).updCore core (fun c => { c with testing := true, testSaved := testStrands s core })) :=
  congrArg _ (if_neg (testDue_iff.1 h))
/-- Strands that are pre-empted change, and nothing else does. -/
theorem foldl_preempt_keeps {β : Type} (f : State → β) (h : ∀ s k g, f (State.upd s k g) = f s) (l : List Nat) (s : State) :
    f (l.foldl preempt s) = f s := by
  refine foldl_keeps f preempt (fun t k => ?_) l s
  unfold preempt
  rw [apply_ite f, h, ite_self]
/-- The strands of a core that is not empty in time are pre-empted for the test. -/
theorem selfTestPreempt_runs (h : TestDue s core) : Runs (.selfTestPreempt core) s (fun t =>
    CoreBecomes s core { s.coreRegs core with testing := true, testSaved := testStrands s core } t ∧
    t.strands = ((testStrands s core).foldl preempt s).strands ∧ { t with cores := s.cores, strands := s.strands } = s) := by
  refine ⟨_, execSelfTestPreempt_preempts h, ?_, rfl, ?_⟩
  · have kept : ∀ m, ((testStrands s core).foldl preempt s).coreRegs m = s.coreRegs m :=
      fun m => foldl_preempt_keeps (fun t => t.coreRegs m) (fun _ _ _ => rfl) _ s
    obtain ⟨hself, hothers⟩ := updCore_becomes ((testStrands s core).foldl preempt s) core
      (fun c => { c with testing := true, testSaved := testStrands s core })
    exact ⟨by rw [hself, kept], fun m hm => by rw [hothers m hm, kept]⟩
  · exact foldl_preempt_keeps (fun t => { t with cores := s.cores, strands := s.strands }) (fun _ _ _ => rfl) _ s

theorem testStopped_iff (s : State) (l : List Nat) :
    l.all (fun k => (s.strand k).status != .stopping) = true ↔ ∀ k ∈ l, (s.strand k).status ≠ .stopping := by simp
theorem execSelfTestComplete_stopping (ht : (s.coreRegs core).testing = true)
    (h : ∃ k ∈ (s.coreRegs core).testSaved, (s.strand k).status = .stopping) : execSelfTestComplete core s = .next s := by
  obtain ⟨k, hk, hs⟩ := h
  exact congrArg _ ((if_pos ht).trans (if_neg (fun g => (testStopped_iff s _).1 g k hk hs)))
/-- A core after its test, with the hours counted anew. -/
def testedRegs (s : State) (c : CoreRegs) : CoreRegs :=
  { c with testing := false, testSaved := [], noNew := none, heldSince := c.heldSince.map (fun _ => s.now) }
theorem execSelfTestComplete_tested (ht : (s.coreRegs core).testing = true)
    (h : ∀ k ∈ (s.coreRegs core).testSaved, (s.strand k).status ≠ .stopping) : execSelfTestComplete core s =
    .next (((s.coreRegs core).testSaved.foldl restore (s.updCore core (testedRegs s))).setOff (.place (dieOf core))) :=
  congrArg _ ((if_pos ht).trans (if_pos ((testStopped_iff s _).2 h)))
theorem execSelfTestComplete_untested (ht : (s.coreRegs core).testing = false) : execSelfTestComplete core s =
    .next (if ((s.coreRegs core).noNew.isSome && (coreGroups s core).isEmpty) = true
      then (s.updCore core (fun c => { c with noNew := none })).setOff (.place (dieOf core)) else s) :=
  congrArg _ (if_neg (by simp [ht]))
theorem execSelfTestComplete_empty (ht : (s.coreRegs core).testing = false) (hn : (s.coreRegs core).noNew ≠ none) (hg : coreGroups s core = []) :
    execSelfTestComplete core s = .next ((s.updCore core (fun c => { c with noNew := none })).setOff (.place (dieOf core))) :=
  (execSelfTestComplete_untested ht).trans (congrArg _ (if_pos (by simp [Option.isSome_iff_ne_none, hn, hg])))
theorem execSelfTestComplete_idle (ht : (s.coreRegs core).testing = false) (h : (s.coreRegs core).noNew = none ∨ coreGroups s core ≠ []) :
    execSelfTestComplete core s = .next s :=
  (execSelfTestComplete_untested ht).trans (congrArg _ (if_neg (by simpa [← Option.ne_none_iff_isSome, imp_iff_not_or] using h)))
end

/-! ## Power and heat (R516) -/

section
variable {s : State} {th : Bool}

/-- A junction is above 100 °C, or the power above its cap. -/
def AboveLimit (d : Device) (th : Bool) : Prop := if th = true then 100 < d.tmax.toNat else d.cap.toNat < d.nowW.toNat
theorem overLimit_iff : overLimit s th = true ↔ AboveLimit s.dev th := by
  cases th <;> simp [overLimit, AboveLimit]
theorem execClockLower_lowers (h : 525 ≤ s.dev.mhz.toNat) (ha : AboveLimit s.dev th) : execClockLower th s =
    .next { s with dev := { s.dev with mhz := s.dev.mhz - 25, thermal := s.dev.thermal || th, power := s.dev.power || !th } } :=
  congrArg _ (if_pos ⟨h, overLimit_iff.2 ha⟩)
theorem execClockLower_idle (h : ¬(525 ≤ s.dev.mhz.toNat ∧ AboveLimit s.dev th)) : execClockLower th s = .next s :=
  congrArg _ (if_neg (by rwa [overLimit_iff]))

/-- Power and temperature have left room for 10 ms. -/
def Calm (s : State) : Prop := ∃ since, s.dev.calmSince = some since ∧ since + 10000000 ≤ s.now
theorem calm_iff : Calm s ↔ s.dev.calmSince.any (fun t => decide (t + 10000000 ≤ s.now)) = true := by
  simp only [Calm, Option.any_eq_true, decide_eq_true_eq]
theorem execClockRaise_idle (h : ¬(Calm s ∧ s.dev.mhz.toNat + 25 ≤ 1250)) : execClockRaise s = .next s :=
  congrArg _ (if_neg (fun g => h ⟨calm_iff.2 g.2, g.1⟩))
theorem execClockRaise_raises (hc : Calm s) (h : s.dev.mhz.toNat + 25 ≤ 1250) : execClockRaise s = .next { s with dev := { s.dev with
    calmSince := some s.now, mhz := s.dev.mhz + 25, thermal := s.dev.thermal && decide (s.dev.mhz.toNat + 25 < 1250)
    power := s.dev.power && decide (s.dev.mhz.toNat + 25 < 1250) } } := congrArg _ (if_pos ⟨h, calm_iff.1 hc⟩)
/-- Below its highest frequency the clock keeps its marks. -/
theorem execClockRaise_below (hc : Calm s) (h : s.dev.mhz.toNat + 25 < 1250) : execClockRaise s =
    .next { s with dev := { s.dev with calmSince := some s.now, mhz := s.dev.mhz + 25 } } := by
  rw [execClockRaise_raises hc h.le, decide_eq_true h, Bool.and_true, Bool.and_true]
/-- At its highest frequency the clock clears them. -/
theorem execClockRaise_highest (hc : Calm s) (h : s.dev.mhz.toNat + 25 = 1250) : execClockRaise s =
    .next { s with dev := { s.dev with calmSince := some s.now, mhz := 1250, thermal := false, power := false } } := by
  have hm : s.dev.mhz + 25 = 1250 := BitVec.eq_of_toNat_eq (by rw [BitVec.toNat_add]; exact congrArg (· % 2 ^ 16) h)
  rw [execClockRaise_raises hc h.le, decide_eq_false h.not_lt, Bool.and_false, Bool.and_false, hm]

/-- A junction reaches 115 °C, or a limit is exceeded at the clock's floor. -/
def TooHot (d : Device) : Prop := 115 ≤ d.tmax.toNat ∨ (d.mhz.toNat < 525 ∧ (100 < d.tmax.toNat ∨ d.cap.toNat < d.nowW.toNat))
theorem tooHot_iff : TooHot s.dev ↔
    (115 ≤ s.dev.tmax.toNat ∨ (s.dev.mhz.toNat < 525 ∧ (overLimit s true = true ∨ overLimit s false = true))) := by
  simp [TooHot, overLimit]
theorem execThermalShutdown_idle (h : ¬TooHot s.dev) : execThermalShutdown s = .next s := congrArg _ (if_neg (mt tooHot_iff.2 h))
/-- The package held in reset with all its state lost. -/
def shutDown (s : State) : State := (allLost s).updDev (fun d => { d with inReset := true })
theorem execThermalShutdown_shutsDown (h : TooHot s.dev) : execThermalShutdown s = .next (shutDown s) := congrArg _ (if_pos (tooHot_iff.1 h))
/-- In reset no strand issues, and no register answers. -/
theorem mayIssue_of_inReset (h : s.dev.inReset = true) (k : Nat) : mayIssue s k = false := by simp [mayIssue, h]
theorem execRegisterWrite_of_inReset (h : s.dev.inReset = true) (o : Nat) (v : Word) : execRegisterWrite o v s = .next s :=
  execRegisterWrite_ignored v (fun g => by simp [answers, h] at g)
/-- A shutdown loses all state but the memory beyond the package, and holds the package in reset. -/
theorem thermalShutdown_runs (h : TooHot s.dev) : Runs .thermalShutdown s (fun t =>
    t.dev.inReset = true ∧ t.strands = State.reset.strands ∧ t.groups = [] ∧ t.kernels = [] ∧ t.tlb = [] ∧
    (∀ a, a < 2 ^ 38 ∨ 2 ^ 56 ≤ a → Mem.read t.mem a = Mem.read [] a) ∧
    (∀ a, 2 ^ 38 ≤ a → a < 2 ^ 56 → Mem.read t.mem a = Mem.read s.mem a) ∧
    (∀ n, t.portUp n = false) ∧ (∀ k, mayIssue t k = false) ∧ ∀ o v, Runs (.registerWrite o v) t (fun u => u = t)) := by
  obtain ⟨hlost, hkept⟩ := mem_read_beyondPackage s.mem
  have down : ∀ n, (shutDown s).portUp n = false := fun n => by simp [State.portUp, State.feat, allLost, shutDown, State.reset]
  exact ⟨_, execThermalShutdown_shutsDown h, rfl, rfl, rfl, rfl, rfl, hlost, hkept, down,
    mayIssue_of_inReset rfl, fun o v => runs_eq (execRegisterWrite_of_inReset rfl o v)⟩
end

/-! ## The statement -/

/-- Settles O54: each clause is what the event's lemma above says of it. -/
theorem healthEvents : Obligations.HealthEvents := by
  unfold Obligations.HealthEvents
  intro s core die word
  refine ⟨fun th p i hi => ?answers, runs_eq execCorrectedError_noPage, fun p => ?corrected, fun h => ?memory, uncorrectableError_tile_runs,
    uncorrectableError_relay_runs, fun h => runs_eq (execCoreFence_idle h), coreFence_runs, fun h => runs_eq (execDieFence_idle h), dieFence_runs,
    ⟨fun h => ?heldBack, fun h => runs_eq (execNoNewGroup_idle h)⟩, ⟨selfTestPreempt_runs, fun h => runs_eq (execSelfTestPreempt_idle h)⟩,
    fun ht h => runs_eq (execSelfTestComplete_stopping ht h), fun ht h => ?tested, fun ht hn hg => ?empty,
    fun ht h => runs_eq (execSelfTestComplete_idle ht h),
    fun th => ⟨fun h ha => runs_eq (execClockLower_lowers h ha), fun h => runs_eq (execClockLower_idle h)⟩,
    ⟨fun hc h => runs_eq (execClockRaise_below hc h), fun hc h => runs_eq (execClockRaise_highest hc h), fun h => runs_eq (execClockRaise_idle h)⟩,
    thermalShutdown_runs, fun h => runs_eq (execThermalShutdown_idle h)⟩
  case answers =>
    simp only [List.mem_cons, List.not_mem_nil, or_false] at hi
    rcases hi with rfl | rfl | rfl | rfl | rfl | rfl | rfl | rfl | rfl | rfl | rfl
    all_goals exact ⟨_, rfl⟩
  case corrected =>
    exact ⟨fun h => runs_eq (execCorrectedError_notInUse h), fun h h16 => runs_eq ((execCorrectedError_inUse h).trans (congrArg _ (if_neg h16.not_ge))),
      correctedError_retires_runs⟩
  case memory => exact ⟨_, execUncorrectableError_memory h, mem_nsInsert _ _, rfl⟩
  case heldBack => exact ⟨_, execNoNewGroup_holdsBack h, updCore_becomes s core _, rfl⟩
  case tested => exact ⟨_, execSelfTestComplete_tested ht h, s.updCore core (testedRegs s), updCore_becomes s core _, rfl, rfl⟩
  case empty => exact ⟨_, execSelfTestComplete_empty ht hn hg, updCore_becomes s core (fun c => { c with noNew := none }), rfl, rfl⟩

end Sys2Proof.Machine
end

section
/-! What the cocoon instructions do (R49, R50, R306 to R312): lemmas for the statement CocoonResult, and its proof. -/

namespace Sys2Proof.Machine
open Sys2Proof

/-! ## Accesses one after another -/

/-- Accesses that all answer are collected. -/
theorem collectM_of_accesses {α : Type} {acc : Nat → M α} {l : List Nat} {s u : State} {vs : List α} (h : Accesses acc s l vs u) :
    collectM l acc s = .ok vs u ∧ u.actor = s.actor := by
  induction l generalizing s vs with
  | nil =>
    obtain ⟨rfl, rfl⟩ := h
    exact ⟨rfl, rfl⟩
  | cons i l ih =>
    obtain ⟨v, t, r, hv, ht, rfl, hr⟩ := h
    obtain ⟨hl, hu⟩ := ih hr
    exact ⟨by rw [collectM, bindM_ok hv, bindM_ok hl]; rfl, hu.trans ht⟩

/-! ## ccmap (R49, R50, R306, R307) -/

/-- Access i to the descriptor at x (assumption 26). -/
def descriptorDword (s : State) (x : Dword) (i : Nat) : M Nat := loadN s.ctx (x + BitVec.ofNat 64 (8 * i)) 8 0 0
/-- Field i of a descriptor of these dwords. -/
def descriptorField (words : List Nat) (i : Nat) : Dword := BitVec.ofNat 64 (words.getD i 0)
/-- R50's checks of a descriptor of these dwords at x. -/
def descriptorChecks (s : State) (x : Dword) (words : List Nat) : Except Stop Unit :=
  mapChecks s x (descriptorField words 0) (descriptorField words 1) (descriptorField words 2)
/-- The cocoon that a descriptor of these dwords describes, mapped by strand k: nothing of it is valid or dirty. -/
def describedCocoon (s : State) (k : Nat) (words : List Nat) : Cocoon :=
  { strand := k, base := descriptorField words 0, gva := (descriptorField words 1).toNat, len := (descriptorField words 2).toNat,
    asid := (s.strand k).e.asid }

/-- How many cocoons strand k may have: its kernel's COCOONS, eight at most. -/
def State.cocoonLimit (s : State) (k : Nat) : Nat :=
  match s.kernelOf k with
  | some q => min 8 q.res.cocoons
  | none => 0
/-- Strand k has a cocoon of number n. -/
def State.cocoonTaken (s : State) (k n : Nat) : Bool := (sfind s.cocoons (8 * k + n)).isSome
/-- The lowest number without a cocoon of strand k, below the strand's limit. -/
def State.freeCocoon (s : State) (k : Nat) : Option Nat :=
  (List.range (s.cocoonLimit k)).find? (fun n => (sfind s.cocoons (8 * k + n)).isNone)

theorem freeCocoon_eq_none {s : State} {k : Nat} (h : ∀ n, n < s.cocoonLimit k → s.cocoonTaken k n = true) : s.freeCocoon k = none :=
  List.find?_range_eq_none.2 (fun n hn => by simpa [State.cocoonTaken, ← Option.isSome_iff_ne_none] using h n hn)
theorem freeCocoon_eq_some {s : State} {k n : Nat} (hn : n < s.cocoonLimit k) (hfree : s.cocoonTaken k n = false)
    (hbelow : ∀ i, i < n → s.cocoonTaken k i = true) : s.freeCocoon k = some n :=
  List.find?_range_eq_some.2 ⟨by simpa [State.cocoonTaken] using hfree, List.mem_range.2 hn,
    fun i hi => by simpa [State.cocoonTaken, ← Option.isSome_iff_ne_none] using hbelow i hi⟩

/-- What ccmap does once a descriptor of these dwords has been read: its checks, then the first free cocoon. -/
def mapDescribed (d : Reg) (x : Dword) (words : List Nat) : M Unit := do
  let u ← get
  liftE (descriptorChecks u x words)
  match u.freeCocoon u.key with
  | none => modify (fun t => (t.setX d (BitVec.allOnes 64)).advance)
  | some n => modify (fun t => ((t.setCocoon (8 * t.key + n) (describedCocoon u u.key words)).setX d (BitVec.ofNat 64 n)).advance)

/-- What an instruction does after a part that completes. -/
theorem runInstr_bind_ok {α : Type} {m : M α} {f : α → M Unit} {s u : State} {v : α} (h : m s = .ok v u) :
    runInstr (m >>= f) s = runInstr (f v) u := by
  simp only [runInstr, bindM_ok h]

section
variable {s u : State} {k n : Nat} {d a : Reg} {x : Dword} {words : List Nat}

/-- ccmap reads its descriptor before anything else. -/
theorem execCcmap_reads (hs : s.actor = .strand k) (hr : Accesses (descriptorDword s (readX (s.strand k).x a)) s [0, 1, 2, 3] words u) :
    execCcmap d a s = runInstr (mapDescribed d (readX (s.strand k).x a) words) u := by
  rw [← State.x_strand hs] at hr ⊢
  exact runInstr_bind_ok (collectM_of_accesses hr).1

/-- A descriptor that fails a check. -/
theorem mapDescribed_traps {r : TrapInfo} (hc : descriptorChecks u x words = .error (.trap r)) :
    runInstr (mapDescribed d x words) u = .next (raise u r) := by
  refine runInstr_trap ?_
  rw [mapDescribed, bindM_get, hc]
  rfl
/-- A descriptor that passes them, where the strand has no cocoon free. -/
theorem mapDescribed_noneFree (hu : u.actor = .strand k) (hc : descriptorChecks u x words = .ok ()) (hf : u.freeCocoon k = none) :
    runInstr (mapDescribed d x words) u = .next (u.setX d (BitVec.allOnes 64)).advance := by
  rw [← State.key_strand hu] at hf
  refine runInstr_ok ?_
  rw [mapDescribed, bindM_get, hc, hf]
  rfl
/-- A descriptor that passes them, where the strand's cocoon n is the first one free. -/
theorem mapDescribed_maps (hu : u.actor = .strand k) (hc : descriptorChecks u x words = .ok ()) (hf : u.freeCocoon k = some n) :
    runInstr (mapDescribed d x words) u =
      .next ((u.setCocoon (8 * k + n) (describedCocoon u k words)).setX d (BitVec.ofNat 64 n)).advance := by
  rw [← State.key_strand hu] at hf ⊢
  refine runInstr_ok ?_
  rw [mapDescribed, bindM_get, hc, hf]
  rfl
end

/-! ## ccflush and ccunmap (R49, R310) -/

/-- A cocoon of the acting strand stands in the table under its key. -/
theorem sfind_of_myCocoon {s : State} {v : Dword} {ck : Nat} {c : Cocoon} (h : s.myCocoon v = some (ck, c)) :
    sfind s.cocoons ck = some c := by
  unfold State.myCocoon at h
  split at h
  · obtain ⟨c', hc, he⟩ := Option.map_eq_some_iff.1 h
    obtain ⟨rfl, rfl⟩ := Prod.mk.inj he
    exact hc
  · cases h

/-- A clean cocoon has nothing to write back. -/
theorem cocoonFlush_clean {s : State} {ck : Nat} {c : Cocoon} (hc : sfind s.cocoons ck = some c) (hd : c.dirty = []) :
    cocoonFlush ck s = .ok () s := by
  rw [cocoonFlush, bindM_get, hc]
  simp only [hd, eachM, pureM_apply]

section
variable {s u : State} {k ck : Nat} {c : Cocoon} {a : Reg}

theorem execCcflush_noCocoon (h : s.myCocoon (s.x a) = none) : execCcflush a s = .next s.advance :=
  runInstr_ok (by rw [h]; rfl)
theorem execCcunmap_noCocoon (h : s.myCocoon (s.x a) = none) : execCcunmap a s = .next s.advance :=
  runInstr_ok (by rw [h]; rfl)
theorem execCcflush_flushes (h : s.myCocoon (s.x a) = some (ck, c)) (hf : cocoonFlush ck s = .ok () u) :
    execCcflush a s = .next u.advance := by
  refine runInstr_ok ?_
  rw [h]
  exact bindM_ok hf
/-- The cocoon is removed from what its flush leaves. -/
theorem execCcunmap_flushes (h : s.myCocoon (s.x a) = some (ck, c)) (hf : cocoonFlush ck s = .ok () u) :
    execCcunmap a s = .next { u with cocoons := sdel u.cocoons ck }.advance := by
  refine runInstr_ok ?_
  rw [h]
  exact bindM_ok hf

theorem noCocoon_runs (hs : s.actor = .strand k) (h : s.myCocoon (readX (s.strand k).x a) = none) :
    Runs (.ccflush a) s (StrandBecomes s k (s.strand k).onward) ∧ Runs (.ccunmap a) s (StrandBecomes s k (s.strand k).onward) := by
  rw [← State.x_strand hs] at h
  exact ⟨⟨_, execCcflush_noCocoon h, onward_strand hs⟩, ⟨_, execCcunmap_noCocoon h, onward_strand hs⟩⟩
/-- A flush that ends in u. -/
theorem flush_runs (hs : s.actor = .strand k) (h : s.myCocoon (readX (s.strand k).x a) = some (ck, c))
    (hf : cocoonFlush ck s = .ok () u) (hu : u.actor = s.actor) :
    Runs (.ccflush a) s (StrandBecomes u k (u.strand k).onward) ∧
    Runs (.ccunmap a) s (StrandBecomes { u with cocoons := sdel u.cocoons ck } k (u.strand k).onward) := by
  rw [← State.x_strand hs] at h
  have hk : u.actor = .strand k := hu.trans hs
  exact ⟨⟨_, execCcflush_flushes h hf, onward_strand hk⟩,
    ⟨_, execCcunmap_flushes h hf, onward_strand (s := { u with cocoons := sdel u.cocoons ck }) hk⟩⟩
end

/-! ## ccstat (R49, R311) -/

/-- A cocoon holds a poisoned word, or lost one. -/
def cocoonPoisoned (s : State) (c : Cocoon) : Bool :=
  c.dropped || (List.range (c.len / 4)).any (fun i => s.poison.contains (cocoonFlat s c i / 4))
/-- How many sectors of a cocoon are valid as a whole. -/
def validSectors (c : Cocoon) : Nat :=
  (List.range (c.len / 64)).countP (fun j => (upFrom (16 * j) 16).all (fun i => c.valid.contains i))
/-- The state of a cocoon as ccstat answers it. -/
def cocoonStatus (poison : Bool) (dirty full : Nat) : Nat :=
  2 ^ 63 + (if poison then 2 ^ 62 else 0) + 2 ^ 32 * (dirty % 2 ^ 24) + full % 2 ^ 24

theorem cocoonPoisoned_iff (s : State) (c : Cocoon) : cocoonPoisoned s c = true ↔
    c.dropped = true ∨ ∃ i, i < c.len / 4 ∧ cocoonFlat s c i / 4 ∈ s.poison := by
  simp [cocoonPoisoned]
theorem validSectors_eq_filter (c : Cocoon) : validSectors c =
    ((List.range (c.len / 64)).filter (fun j => (List.range 16).all (fun i => c.valid.contains (16 * j + i)))).length := by
  simp only [validSectors, upFrom, List.countP_eq_length_filter, List.range'_eq_map_range, List.all_map, Function.comp_def]
/-- The fields of the answer. -/
theorem cocoonStatus_fields (poison : Bool) (dirty full : Nat) :
    cocoonStatus poison dirty full % 2 ^ 24 = full % 2 ^ 24 ∧ cocoonStatus poison dirty full / 2 ^ 32 % 2 ^ 24 = dirty % 2 ^ 24 ∧
    ((cocoonStatus poison dirty full).testBit 62 = true ↔ poison = true) ∧ (cocoonStatus poison dirty full).testBit 63 = true := by
  simp only [cocoonStatus, Nat.testBit_eq_decide_div_mod_eq, decide_eq_true_eq]
  cases poison
  case false => simp only [Bool.false_eq_true, if_false, iff_false]; omega
  case true => simp only [if_true, iff_true]; omega

theorem execCcstat_noCocoon {s : State} {d a : Reg} (h : s.myCocoon (s.x a) = none) : execCcstat d a s = .next (s.setX d 0).advance := by
  rw [execCcstat, h]
  rfl
theorem execCcstat_answers {s : State} {d a : Reg} {ck : Nat} {c : Cocoon} (h : s.myCocoon (s.x a) = some (ck, c)) :
    execCcstat d a s = .next (s.setX d (BitVec.ofNat 64 (cocoonStatus (cocoonPoisoned s c) c.dirty.length (validSectors c)))).advance := by
  rw [execCcstat, h]
  rfl

/-! ## The statement -/

/-- Settles O38: each clause is what the lemmas above say of the instruction. -/
theorem cocoonResult : Obligations.CocoonResult := by
  unfold Obligations.CocoonResult
  intro s k d a hs p x
  refine ⟨fun words u hr => ?map, fun hnone => ?noCocoon, fun ck c hck => ⟨fun hd => ?clean, fun u hf hu => ?flushes, ?stat⟩⟩
  case map =>
    have hu : u.actor = .strand k := (collectM_of_accesses hr).2.trans hs
    have reads := execCcmap_reads (d := d) hs hr
    refine ⟨fun r hc => ⟨_, reads.trans (mapDescribed_traps hc), rfl⟩, fun hc => ⟨fun hall => ?_, fun n hn hfree hbelow => ?_⟩⟩
    · exact ⟨_, reads.trans (mapDescribed_noneFree hu hc (freeCocoon_eq_none hall)), gives_strand hu d _⟩
    · exact ⟨_, reads.trans (mapDescribed_maps hu hc (freeCocoon_eq_some hn hfree hbelow)),
        gives_strand (s := u.setCocoon (8 * k + n) (describedCocoon u k words)) hu d _⟩
  case noCocoon =>
    obtain ⟨hflush, hunmap⟩ := noCocoon_runs hs hnone
    exact ⟨hflush, hunmap, _, execCcstat_noCocoon (by rwa [State.x_strand hs]), gives_strand hs d 0⟩
  case clean => exact flush_runs hs hck (cocoonFlush_clean (sfind_of_myCocoon hck) hd) rfl
  case flushes => exact flush_runs hs hck hf hu
  case stat =>
    obtain ⟨hfull, hdirty, hpoison, hmapped⟩ := cocoonStatus_fields (cocoonPoisoned s c) c.dirty.length (validSectors c)
    exact ⟨_, ⟨_, execCcstat_answers (by rwa [State.x_strand hs]), gives_strand hs d _⟩, hfull.trans (by rw [validSectors_eq_filter]), hdirty,
      hpoison.trans (cocoonPoisoned_iff s c), hmapped⟩

end Sys2Proof.Machine
end

section
/-! What doorbells, queue commands, slots and quanta of the launch unit do (R53 to R62, R70, R71, R73): lemmas for the statement QueueEvents,
and its proof. -/

namespace Sys2Proof.Machine
open Sys2Proof

/-! ## Queues and slots -/

/-- An entry that was deleted is gone; any other entry is as before. -/
theorem sfind_sdel {α : Type} (l : Sparse α) (k j : Nat) : sfind (sdel l k) j = if j = k then none else sfind l j := by
  induction l with
  | nil => simp [sdel, sfind]
  | cons p t ih =>
    obtain ⟨i, v⟩ := p
    unfold sdel at ih ⊢
    by_cases hi : i = k
    · subst hi
      by_cases hj : j = i
      · subst hj; simpa using ih
      · simp [sfind, ih, hj, Ne.symm hj]
    · by_cases hj : i = j
      · subst hj; simp [sfind, hi]
      · simp [sfind, ih, hi, hj]

@[simp] theorem State.queue_updQueue_self (s : State) (q : Nat) (f : SQueue → SQueue) : (s.updQueue q f).queue q = f (s.queue q) :=
  sget_sput_self _ _ _ _
theorem State.queue_updQueue_of_ne (s : State) {q r : Nat} (f : SQueue → SQueue) (h : r ≠ q) : (s.updQueue q f).queue r = s.queue r :=
  sget_sput_of_ne _ _ _ h
/-- Two changes of one queue are one. -/
theorem State.updQueue_updQueue (s : State) (q : Nat) (f g : SQueue → SQueue) :
    (s.updQueue q f).updQueue q g = s.updQueue q (fun x => g (f x)) := by
  simp [State.updQueue, State.queue, sput_sput]
@[simp] theorem State.slotOf_updQueue (s : State) (q : Nat) (f : SQueue → SQueue) (n : Nat) : (s.updQueue q f).slotOf n = s.slotOf n := rfl
@[simp] theorem State.queue_setSlot (s : State) (n : Nat) (x : HwSlot) (q : Nat) : (s.setSlot n x).queue q = s.queue q := rfl
@[simp] theorem State.slotOf_setSlot_self (s : State) (n : Nat) (x : HwSlot) : (s.setSlot n x).slotOf n = x := sget_sput_self _ _ _ _
theorem State.slotOf_setSlot_of_ne (s : State) {n m : Nat} (x : HwSlot) (h : m ≠ n) : (s.setSlot n x).slotOf m = s.slotOf m :=
  sget_sput_of_ne _ _ _ h
@[simp] theorem State.queue_freeSlot (s : State) (n q : Nat) : (s.freeSlot n).queue q = s.queue q := rfl
@[simp] theorem State.slotOf_freeSlot_self (s : State) (n : Nat) : (s.freeSlot n).slotOf n = {} := by
  simp [State.slotOf, State.freeSlot, sget, sfind_sdel]
theorem State.slotOf_freeSlot_of_ne (s : State) {n m : Nat} (h : m ≠ n) : (s.freeSlot n).slotOf m = s.slotOf m := by
  simp [State.slotOf, State.freeSlot, sget, sfind_sdel, h]

/-- From s to t queue q becomes y; no other queue changes, and nothing else of the machine does. -/
def QueueBecomes (s : State) (q : Nat) (y : SQueue) (t : State) : Prop :=
  t.queue q = y ∧ (∀ r, r ≠ q → t.queue r = s.queue r) ∧ { t with lu := { t.lu with queues := s.lu.queues } } = s
/-- From s to t queue q becomes y and leaves slot n, which is FREE; no other queue, no other slot and nothing else of the machine changes. -/
def QueueLeaves (s : State) (q n : Nat) (y : SQueue) (t : State) : Prop :=
  t.queue q = { y with slot := none } ∧ (∀ r, r ≠ q → t.queue r = s.queue r) ∧
  t.slotOf n = {} ∧ (∀ m, m ≠ n → t.slotOf m = s.slotOf m) ∧
  { t with lu := { t.lu with queues := s.lu.queues, slots := s.lu.slots } } = s

section
variable {s t u : State} {q n : Nat} {y z : SQueue}

theorem updQueue_becomes (s : State) (q : Nat) (f : SQueue → SQueue) : QueueBecomes s q (f (s.queue q)) (s.updQueue q f) :=
  ⟨State.queue_updQueue_self s q f, fun _ hr => State.queue_updQueue_of_ne s f hr, rfl⟩
/-- A change of one queue leaves every slot as it is. -/
theorem QueueBecomes.slots (h : QueueBecomes s q y t) : t.lu.slots = s.lu.slots := congrArg (·.lu.slots) h.2.2
theorem QueueBecomes.trans (h : QueueBecomes s q y t) (g : QueueBecomes t q z u) : QueueBecomes s q z u := by
  obtain ⟨-, hothers, hrest⟩ := h
  obtain ⟨gq, gothers, grest⟩ := g
  refine ⟨gq, fun r hr => (gothers r hr).trans (hothers r hr), ?_⟩
  exact (congrArg (fun v : State => { v with lu := { v.lu with queues := s.lu.queues } }) grest).trans hrest
theorem QueueBecomes.updQueue (h : QueueBecomes s q y t) {f : SQueue → SQueue} (hf : f y = z) : QueueBecomes s q z (t.updQueue q f) :=
  h.trans (hf ▸ h.1 ▸ updQueue_becomes t q f)
/-- A queue that changes before it leaves its slot. -/
theorem QueueLeaves.of_becomes (h : QueueBecomes s q y t) (g : QueueLeaves t q n z u) : QueueLeaves s q n z u := by
  have hslots := h.slots
  obtain ⟨-, hothers, hrest⟩ := h
  obtain ⟨gq, gothers, gfree, gslots, grest⟩ := g
  refine ⟨gq, fun r hr => (gothers r hr).trans (hothers r hr), gfree, fun m hm => (gslots m hm).trans ?_, ?_⟩
  · rw [State.slotOf, hslots, State.slotOf]
  · rw [hslots] at grest
    exact (congrArg (fun v : State => { v with lu := { v.lu with queues := s.lu.queues } }) grest).trans hrest
theorem leaveSlot_mapped (h : (s.queue q).slot = some n) :
    leaveSlot s q = (s.freeSlot n).updQueue q (fun x => { x with slot := none }) := by
  rw [leaveSlot, h]
/-- A mapped queue leaves its slot and then changes by f. -/
theorem leaveSlot_updQueue_leaves (h : (s.queue q).slot = some n) {f : SQueue → SQueue}
    (hf : f { s.queue q with slot := none } = { y with slot := none }) : QueueLeaves s q n y ((leaveSlot s q).updQueue q f) := by
  rw [leaveSlot_mapped h, State.updQueue_updQueue]
  exact ⟨(State.queue_updQueue_self _ q _).trans hf, fun r hr => State.queue_updQueue_of_ne _ _ hr, State.slotOf_freeSlot_self s n,
    fun m hm => State.slotOf_freeSlot_of_ne s hm, rfl⟩

/-! A slot that a change left FREE is taken again (R71). -/

theorem refill_unmapped (h : (s.queue q).slot = none) (t : State) : refill s t q = t := by
  rw [refill, h]
theorem refill_free (h : (s.queue q).slot = some n) (ht : (t.slotOf n).state = .free) : refill s t q = takeSlot t n := by
  rw [refill, h]
  exact if_pos (beq_iff_eq.2 ht)
theorem refill_held (h : (s.queue q).slot = some n) (ht : (t.slotOf n).state ≠ .free) : refill s t q = t := by
  rw [refill, h]
  exact if_neg (mt beq_iff_eq.1 ht)
theorem QueueLeaves.refill (h : QueueLeaves s q n y t) (hs : (u.queue q).slot = some n) : refill u t q = takeSlot t n :=
  refill_free hs (congrArg HwSlot.state h.2.2.1)

/-- The queues that wait for a slot. -/
theorem ranked_iff (x : SQueue) : x.ranked = true ↔ x.state = .waiting ∧ x.entering = false := by
  simp [SQueue.ranked]
/-- A FREE slot is taken by the first of the WAITING queues. -/
theorem takeSlot_first {p : Nat × SQueue} (h : firstBy waitsBefore (s.lu.queues.filter (fun p => p.2.ranked)) = some p)
    (hn : (s.slotOf n).state = .free) : takeSlot s n = mapQueue s p.1 n := by
  rw [takeSlot, h]
  exact if_pos (beq_iff_eq.2 hn)
/-- The queue that takes a slot is MAPPED, and the slot is LOADING. -/
theorem mapQueue_maps (s : State) (q n : Nat) :
    (mapQueue s q n).slotOf n = { state := .loading, qid := q, mappedAt := s.now } ∧
    (mapQueue s q n).queue q = { s.queue q with state := .mapped, slot := some n } ∧ ∀ r, r ≠ q → (mapQueue s q n).queue r = s.queue r :=
  ⟨State.slotOf_setSlot_self s n _, State.queue_updQueue_self _ q _, fun _ hr => State.queue_updQueue_of_ne _ _ hr⟩
end

/-! ## Doorbells (R55, R58, R60, R73) -/

/-- A queue after a doorbell store that no strand made. -/
def SQueue.rung (x : SQueue) (tail : BitVec 32) (step : Nat) : SQueue :=
  { x with tail := tail, bells := x.ring { tail := tail, step := step, kernel := none } }
/-- The state with queue q's TAIL and doorbell stores after one more. -/
def rungOnce (s : State) (q : Nat) (tail : BitVec 32) : State := s.updQueue q (·.rung tail s.tick)
/-- What an enabled or disabled queue does about the TAIL that it now has. -/
def tailChecked (s : State) (q : Nat) : State :=
  let x := s.queue q
  match x.state with
  | .disabled => s.updQueue q (fun x => { x with met := [] })
  | .error => s.updQueue q (fun x => { x with met := [] })
  | .idle => if x.outOfRange then queueError s q 0xF0 else if x.head = x.tail then s else queueWaits s q
  | .waiting => if x.outOfRange then queueError s q 0xF0 else if x.head = x.tail then s.updQueue q SQueue.emptied else s
  | .mapped =>
    if x.outOfRange then queueError s q 0xF0
    else if x.head = x.tail ∧ !x.inAcceptance s then
      let off := x.slot.any (fun n => (s.slotOf n).disable)
      (leaveSlot s q).updQueue q (fun x => if off then { x.emptied with state := .disabled } else x.emptied)
    else s

section
variable {s : State} {q n : Nat} {tail : BitVec 32} {y : SQueue}

/-- TAIL is more than the ring's size ahead of HEAD. -/
theorem outOfRange_iff (x : SQueue) : x.outOfRange = true ↔ 2 ^ x.log2size < (x.tail - x.head).toNat := decide_eq_true_iff

theorem tailChecked_stopped (hy : s.queue q = y) (h : y.state = .disabled ∨ y.state = .error) :
    tailChecked s q = s.updQueue q (fun x => { x with met := [] }) := by
  rcases h with h | h <;> simp only [tailChecked, hy, h]
/-- A TAIL beyond the ring puts an enabled queue in ERROR. -/
theorem tailChecked_beyond (hy : s.queue q = y) (h : y.state = .idle ∨ y.state = .waiting ∨ y.state = .mapped) (ho : y.outOfRange = true) :
    tailChecked s q = queueError s q 0xF0 := by
  rcases h with h | h | h <;> simp only [tailChecked, hy, h, if_pos ho]
theorem tailChecked_idle (hy : s.queue q = y) (h : y.state = .idle) (ho : y.outOfRange = false) :
    tailChecked s q = if y.head = y.tail then s else queueWaits s q := by
  simp only [tailChecked, hy, h, ho, Bool.false_eq_true, if_false]
theorem tailChecked_waiting (hy : s.queue q = y) (h : y.state = .waiting) (ho : y.outOfRange = false) :
    tailChecked s q = if y.head = y.tail then s.updQueue q SQueue.emptied else s := by
  simp only [tailChecked, hy, h, ho, Bool.false_eq_true, if_false]
/-- A mapped queue whose records were all withdrawn leaves its slot, unless an acceptance is in progress there. -/
theorem tailChecked_mapped_empty (hy : s.queue q = y) (h : y.state = .mapped) (ho : y.outOfRange = false) (hn : y.slot = some n)
    (he : y.head = y.tail) (ha : (s.slotOf n).accepting = false) : tailChecked s q =
    (leaveSlot s q).updQueue q (fun x => { x.emptied with state := if (s.slotOf n).disable then .disabled else .idle }) := by
  simp only [tailChecked, hy, h, ho, SQueue.inAcceptance, hn, Option.any_some, ha, he]
  cases (s.slotOf n).disable <;> rfl
theorem tailChecked_mapped_stays (hy : s.queue q = y) (h : y.state = .mapped) (ho : y.outOfRange = false) (hn : y.slot = some n)
    (hs : y.head ≠ y.tail ∨ (s.slotOf n).accepting = true) : tailChecked s q = s := by
  simp only [tailChecked, hy, h, ho, SQueue.inAcceptance, hn, Option.any_some]
  rcases hs with hs | hs <;> simp [hs]

theorem execDoorbellWrite_rings (hq : q < s.lu.qcount.toNat) :
    execDoorbellWrite q tail s = .next (refill s (tailChecked (rungOnce s q tail) q) q) := congrArg _ (if_pos hq)
/-- A doorbell store to a queue without a slot. -/
theorem execDoorbellWrite_unmapped (hq : q < s.lu.qcount.toNat) (hs : (s.queue q).slot = none) :
    execDoorbellWrite q tail s = .next (tailChecked (rungOnce s q tail) q) := by
  rw [execDoorbellWrite_rings hq, refill_unmapped hs]

/-- The queue's new TAIL is beyond the ring. -/
def TailBeyond (s : State) (q : Nat) (tail : BitVec 32) : Prop := 2 ^ (s.queue q).log2size < (tail - (s.queue q).head).toNat
theorem rung_outOfRange (step : Nat) : ((s.queue q).rung tail step).outOfRange = true ↔ TailBeyond s q tail := outOfRange_iff _
theorem rung_inRange (step : Nat) (h : ¬TailBeyond s q tail) : ((s.queue q).rung tail step).outOfRange = false :=
  Bool.eq_false_iff.2 (mt (rung_outOfRange step).1 h)
theorem rung_becomes (s : State) (q : Nat) (tail : BitVec 32) :
    QueueBecomes s q ((s.queue q).rung tail s.tick) (rungOnce s q tail) := updQueue_becomes s q _

/-- A doorbell store to a queue without a slot: where the queue is stopped nothing is checked; else it enters ERROR, WAITING or IDLE by what
it then announces. -/
theorem doorbellWrite_unmapped_runs (hq : q < s.lu.qcount.toNat) (hs : (s.queue q).slot = none) :
    let x := s.queue q
    let y := x.rung tail s.tick
    (x.state = .disabled ∨ x.state = .error → Runs (.doorbellWrite q tail) s (QueueBecomes s q { y with met := [] })) ∧
    (x.state = .idle ∨ x.state = .waiting → TailBeyond s q tail →
      Runs (.doorbellWrite q tail) s (fun t => ∃ u, QueueBecomes s q y u ∧ t = queueError u q 0xF0)) ∧
    (x.state = .idle → ¬TailBeyond s q tail → x.head = tail → Runs (.doorbellWrite q tail) s (QueueBecomes s q y)) ∧
    (x.state = .idle → ¬TailBeyond s q tail → x.head ≠ tail →
      Runs (.doorbellWrite q tail) s (fun t => ∃ u, QueueBecomes s q y u ∧ t = queueWaits u q)) ∧
    (x.state = .waiting → ¬TailBeyond s q tail → x.head = tail →
      Runs (.doorbellWrite q tail) s (QueueBecomes s q { y with state := .idle, entering := false, met := [] })) ∧
    (x.state = .waiting → ¬TailBeyond s q tail → x.head ≠ tail → Runs (.doorbellWrite q tail) s (QueueBecomes s q y)) := by
  intro x y
  have ring := rung_becomes s q tail
  have rings := execDoorbellWrite_unmapped (tail := tail) hq hs
  have hy : (rungOnce s q tail).queue q = y := ring.1
  refine ⟨fun hst => ?stopped, fun hst hb => ?beyond, fun hst hb he => ?idleEmpty, fun hst hb he => ?idleWorks,
    fun hst hb he => ?waitingEmpty, fun hst hb he => ?waitingWorks⟩
  case stopped =>
    rw [tailChecked_stopped hy hst] at rings
    exact ⟨_, rings, ring.updQueue rfl⟩
  case beyond =>
    rw [tailChecked_beyond hy (hst.imp_right .inl) ((rung_outOfRange _).2 hb)] at rings
    exact ⟨_, rings, _, ring, rfl⟩
  case idleEmpty =>
    rw [tailChecked_idle hy hst (rung_inRange _ hb)] at rings
    exact ⟨_, rings.trans (congrArg _ (if_pos he)), ring⟩
  case idleWorks =>
    rw [tailChecked_idle hy hst (rung_inRange _ hb)] at rings
    exact ⟨_, rings.trans (congrArg _ (if_neg he)), _, ring, rfl⟩
  case waitingEmpty =>
    rw [tailChecked_waiting hy hst (rung_inRange _ hb)] at rings
    exact ⟨_, rings.trans (congrArg _ (if_pos he)), ring.updQueue rfl⟩
  case waitingWorks =>
    rw [tailChecked_waiting hy hst (rung_inRange _ hb)] at rings
    exact ⟨_, rings.trans (congrArg _ (if_neg he)), ring⟩
/-- A doorbell store to a mapped queue: a TAIL beyond the ring, all records withdrawn, or neither. -/
theorem doorbellWrite_mapped_runs (hq : q < s.lu.qcount.toNat) (hn : (s.queue q).slot = some n) (hst : (s.queue q).state = .mapped) :
    let x := s.queue q
    let y := x.rung tail s.tick
    (TailBeyond s q tail → Runs (.doorbellWrite q tail) s (fun t => ∃ u, QueueBecomes s q y u ∧ t = refill s (queueError u q 0xF0) q)) ∧
    (¬TailBeyond s q tail → x.head = tail → (s.slotOf n).accepting = false → Runs (.doorbellWrite q tail) s (fun t =>
      ∃ u, QueueLeaves s q n { y with state := if (s.slotOf n).disable then .disabled else .idle, entering := false, met := [] } u ∧
        t = takeSlot u n)) ∧
    (¬TailBeyond s q tail → x.head ≠ tail ∨ (s.slotOf n).accepting = true → (s.slotOf n).state ≠ .free →
      Runs (.doorbellWrite q tail) s (QueueBecomes s q y)) := by
  intro x y
  have ring := rung_becomes s q tail
  have rings := execDoorbellWrite_rings (tail := tail) hq
  have hy : (rungOnce s q tail).queue q = y := ring.1
  refine ⟨fun hb => ?beyond, fun hb he ha => ?withdrawn, fun hb hw hf => ?stays⟩
  case beyond =>
    rw [tailChecked_beyond hy (.inr (.inr hst)) ((rung_outOfRange _).2 hb)] at rings
    exact ⟨_, rings, _, ring, rfl⟩
  case withdrawn =>
    rw [tailChecked_mapped_empty hy hst (rung_inRange _ hb) hn he ha] at rings
    have leaves := QueueLeaves.of_becomes ring (leaveSlot_updQueue_leaves (by rwa [hy])
      (f := fun x => { x.emptied with state := if (s.slotOf n).disable then .disabled else .idle })
      (y := { y with state := if (s.slotOf n).disable then .disabled else .idle, entering := false, met := [] }) (by rw [hy]; rfl))
    exact ⟨_, rings, _, leaves, leaves.refill hn⟩
  case stays =>
    rw [tailChecked_mapped_stays hy hst (rung_inRange _ hb) hn hw, refill_held (t := rungOnce s q tail) hn hf] at rings
    exact ⟨_, rings, ring⟩
end

/-! ## QCMD disable and reset (R62, R73) -/

section
variable {s : State} {q n : Nat}

theorem execQcmdDisable_reaches (hq : q < s.lu.qcount.toNat) : execQcmdDisable q s = .next (queueDisable s q) := congrArg _ (if_pos hq)
theorem queueDisable_disabled (h : (s.queue q).state = .disabled) : queueDisable s q = s.updQueue q (fun x => { x with enabling := false }) :=
  if_pos h
theorem queueDisable_error (h : (s.queue q).state = .error) : queueDisable s q = s := by
  simp only [queueDisable, h, reduceCtorEq, if_false, if_true]
/-- Disable of a queue without a slot. -/
theorem queueDisable_unmapped (h : (s.queue q).state = .idle ∨ (s.queue q).state = .waiting) (hs : (s.queue q).slot = none) :
    queueDisable s q = s.updQueue q (fun x => { x with state := .disabled, entering := false, met := [] }) := by
  rcases h with h | h <;> simp only [queueDisable, h, hs, reduceCtorEq, if_false]
/-- Disable of a mapped queue: it leaves its slot, or, with an acceptance in progress, the slot is DRAINING. -/
theorem queueDisable_mapped (h : (s.queue q).state = .mapped) (hn : (s.queue q).slot = some n) : queueDisable s q =
    if (s.slotOf n).accepting then s.setSlot n { s.slotOf n with state := .draining, disable := true }
    else refill s ((leaveSlot s q).updQueue q (fun x => { x with state := .disabled, met := [] })) q := by
  simp only [queueDisable, h, hn, reduceCtorEq, if_false]
theorem qcmdDisable_mapped_runs (hq : q < s.lu.qcount.toNat) (h : (s.queue q).state = .mapped) (hn : (s.queue q).slot = some n)
    (ha : (s.slotOf n).accepting = false) :
    Runs (.qcmdDisable q) s (fun t => ∃ u, QueueLeaves s q n { s.queue q with state := .disabled, met := [] } u ∧ t = takeSlot u n) := by
  have disable := execQcmdDisable_reaches hq
  rw [queueDisable_mapped h hn, ha, if_neg Bool.false_ne_true] at disable
  have leaves : QueueLeaves s q n { s.queue q with state := .disabled, met := [] } _ :=
    leaveSlot_updQueue_leaves hn (f := fun x => { x with state := .disabled, met := [] }) rfl
  exact ⟨_, disable, _, leaves, leaves.refill hn⟩

theorem execQcmdReset_reaches (hq : q < s.lu.qcount.toNat) : execQcmdReset q s = .next (queueReset s q) := congrArg _ (if_pos hq)
theorem queueReset_enabled (hd : (s.queue q).state ≠ .disabled) (he : (s.queue q).state ≠ .error) : queueReset s q = s :=
  if_neg (not_or.2 ⟨hd, he⟩)
/-- A queue after its reset, with the write of HEAD still due. -/
def SQueue.zeroed (x : SQueue) : SQueue :=
  { x with head := 0, tail := 0, state := .disabled, bells := [], met := [], enabling := false, headDue := some 0 }
theorem queueReset_stopped (h : (s.queue q).state = .disabled ∨ (s.queue q).state = .error) :
    queueReset s q = writeHead (s.updQueue q SQueue.zeroed) q := if_pos h

/-! HEAD is written to the descriptor (R56): the write is done, has to wait, or is skipped. -/

section
variable {h : BitVec 32} {v : State}

theorem writeHead_written (hd : (s.queue q).headDue = some h) (hw : descWrite s q 0x10 4 h.toNat = (.ok (), v)) :
    writeHead s q = finishAccept (v.updQueue q (fun x => { x with headDue := none })) q := by
  simp only [writeHead, hd, hw]
theorem writeHead_waits (hd : (s.queue q).headDue = some h) (hw : descWrite s q 0x10 4 h.toNat = (.later, v)) : writeHead s q = v := by
  simp only [writeHead, hd, hw]
theorem writeHead_skipped {c : Cause} (hd : (s.queue q).headDue = some h) (hw : descWrite s q 0x10 4 h.toNat = (.bad c, v))
    (he : (v.queue q).state ≠ .error) : writeHead s q =
    refill s (queueError (skipWrite (v.updQueue q (fun x => { x with headDue := none })) q) q c.code) q := by
  have kept : ((skipWrite (v.updQueue q (fun x => { x with headDue := none })) q).queue q).state ≠ .error := by
    show ((v.updQueue q (fun x => { x with headDue := none })).queue q).state ≠ .error
    rwa [State.queue_updQueue_self]
  simp only [writeHead, hd, hw]
  exact if_neg kept
end
theorem finishAccept_unmapped (h : (s.queue q).slot = none) : finishAccept s q = s := by
  rw [finishAccept, h]

/-- Reset of a stopped queue: it is DISABLED with HEAD and TAIL 0, and HEAD is written. -/
theorem qcmdReset_stopped_runs (hq : q < s.lu.qcount.toNat) (hst : (s.queue q).state = .disabled ∨ (s.queue q).state = .error) :
    Runs (.qcmdReset q) s (fun t => ∃ u, QueueBecomes s q (s.queue q).zeroed u ∧
      (∀ v, descWrite u q 0x10 4 0 = (.ok (), v) → (v.queue q).slot = none → t = v.updQueue q (fun z => { z with headDue := none })) ∧
      (∀ v, descWrite u q 0x10 4 0 = (.later, v) → t = v) ∧
      (∀ c v, descWrite u q 0x10 4 0 = (.bad c, v) → (s.queue q).slot = none → (v.queue q).state ≠ .error →
        t = queueError (skipWrite (v.updQueue q (fun z => { z with headDue := none })) q) q c.code)) := by
  have becomes : QueueBecomes s q (s.queue q).zeroed (s.updQueue q SQueue.zeroed) := updQueue_becomes s q SQueue.zeroed
  have due : ((s.updQueue q SQueue.zeroed).queue q).headDue = some 0 := congrArg SQueue.headDue becomes.1
  refine ⟨_, (execQcmdReset_reaches hq).trans (congrArg _ (queueReset_stopped hst)), _, becomes, fun v hw hs => ?written,
    fun v hw => writeHead_waits due hw, fun c v hw hs he => ?skipped⟩
  case written =>
    rw [writeHead_written due hw]
    exact finishAccept_unmapped (by rwa [State.queue_updQueue_self])
  case skipped =>
    rw [writeHead_skipped due hw he]
    exact refill_unmapped ((congrArg SQueue.slot becomes.1).trans hs) _
end

/-! ## QCMD enable (R62) -/

section
variable {α β : Type} {m : M α} {s u : State}

theorem luTry_ok_iff {a : α} : luTry m s = (.ok a, u) ↔ m s = .ok a u := by
  unfold luTry
  split <;> simp_all
/-- Work whose first part stops stops as that part does. -/
theorem luTry_bind_bad {c : Cause} (h : luTry m s = (.bad c, u)) (f : α → M β) : luTry (m >>= f) s = (.bad c, u) := by
  unfold luTry at h ⊢
  split at h
  case h_1 => simp at h
  case h_2 hm => rw [bindM_error hm]; simpa using h
  case h_3 => simp at h
theorem luTry_bind_later (h : luTry m s = (.later, u)) (f : α → M β) : luTry (m >>= f) s = (.later, u) := by
  unfold luTry at h ⊢
  split at h
  case h_1 => simp at h
  case h_2 => simp at h
  case h_3 hm => rw [bindM_error hm]; simpa using h
end

/-- A queue with the launch unit's copy of its descriptor, from the dwords of it (R54, R56). -/
def SQueue.described (x : SQueue) (l : List Nat) : SQueue :=
  { x with
    base := BitVec.ofNat 64 (l.getD 0 0), log2size := l.getD 1 0 % 256, owner := BitVec.ofNat 16 (l.getD 1 0 / 2 ^ 16)
    evvec := l.getD 1 0 / 2 ^ 32 % 2 ^ 16, head := BitVec.ofNat 32 (l.getD 2 0)
    met := if x.base = BitVec.ofNat 64 (l.getD 0 0) ∧ x.head = BitVec.ofNat 32 (l.getD 2 0) ∧ x.log2size = l.getD 1 0 % 256 ∧
      x.owner = BitVec.ofNat 16 (l.getD 1 0 / 2 ^ 16) then x.met else [] }

section
variable {s u : State} {q : Nat} {l : List Nat}

/-- The copy is three dwords read and then taken. -/
theorem copyDesc_reads (s : State) (q : Nat) :
    copyDesc q s = (luDwords 0 (descAddr s q) 3 >>= fun l => modify (·.updQueue q (·.described l))) s := rfl
theorem luTry_copyDesc (s : State) (q : Nat) : luTry (copyDesc q) s =
    luTry (luDwords 0 (descAddr s q) 3 >>= fun l => modify (·.updQueue q (·.described l))) s := by
  rw [luTry, copyDesc_reads, luTry]
theorem luTry_copyDesc_ok (h : luTry (luDwords 0 (descAddr s q) 3) s = (.ok l, u)) :
    luTry (copyDesc q) s = (.ok (), u.updQueue q (·.described l)) :=
  (luTry_copyDesc s q).trans (luTry_ok_iff.2 (bindM_ok (luTry_ok_iff.1 h)))
theorem luTry_copyDesc_bad {c : Cause} (h : luTry (luDwords 0 (descAddr s q) 3) s = (.bad c, u)) : luTry (copyDesc q) s = (.bad c, u) :=
  (luTry_copyDesc s q).trans (luTry_bind_bad h _)
theorem luTry_copyDesc_later (h : luTry (luDwords 0 (descAddr s q) 3) s = (.later, u)) : luTry (copyDesc q) s = (.later, u) :=
  (luTry_copyDesc s q).trans (luTry_bind_later h _)

theorem execQcmdEnable_reaches (hq : q < s.lu.qcount.toNat) : execQcmdEnable q s = .next (queueEnable s q) := congrArg _ (if_pos hq)
theorem queueEnable_idle (h : (s.queue q).state ≠ .disabled ∨ s.dev.ready = false) : queueEnable s q = s :=
  if_pos (h.imp_right (by simp [·]))
/-- Before the descriptor is read, a write of HEAD that is due is made. -/
theorem queueEnable_afterHead (hst : (s.queue q).state = .disabled) (hr : s.dev.ready = true) (hd : (s.queue q).headDue ≠ none) :
    queueEnable s q = s.updQueue q (fun x => { x with enabling := true }) := by
  rw [queueEnable, if_neg (by simp [hst, hr]), if_pos (Option.isSome_iff_ne_none.2 hd)]
/-- The queue is ready for its descriptor to be read. -/
def Enables (s : State) (q : Nat) : Prop := (s.queue q).state = .disabled ∧ s.dev.ready = true ∧ (s.queue q).headDue = none
theorem Enables.notIgnored (h : Enables s q) : ¬((s.queue q).state ≠ .disabled ∨ (!s.dev.ready) = true) := by
  obtain ⟨hst, hr, -⟩ := h
  simp [hst, hr]
theorem Enables.headWritten (h : Enables s q) : ¬(s.queue q).headDue.isSome = true := by
  obtain ⟨-, -, hd⟩ := h
  simp [hd]
theorem queueEnable_bad {c : Cause} (h : Enables s q) (hl : luTry (luDwords 0 (descAddr s q) 3) s = (.bad c, u)) :
    queueEnable s q = queueError u q c.code := by
  rw [queueEnable, if_neg h.notIgnored, if_neg h.headWritten, luTry_copyDesc_bad hl]
theorem queueEnable_later (h : Enables s q) (hl : luTry (luDwords 0 (descAddr s q) 3) s = (.later, u)) :
    queueEnable s q = u.updQueue q (fun x => { x with enabling := true }) := by
  rw [queueEnable, if_neg h.notIgnored, if_neg h.headWritten, luTry_copyDesc_later hl]
/-- With its descriptor read the queue enters ERROR, IDLE or WAITING. -/
theorem queueEnable_ok (h : Enables s q) (hl : luTry (luDwords 0 (descAddr s q) 3) s = (.ok l, u)) :
    let y : SQueue := { (u.queue q).described l with enabling := false }
    ∃ w, QueueBecomes u q y w ∧ queueEnable s q =
      if y.outOfRange then queueError w q 0xF0
      else if y.head = y.tail then w.updQueue q (fun z => { z with state := .idle }) else queueWaits w q := by
  intro y
  have becomes : QueueBecomes u q y ((u.updQueue q (·.described l)).updQueue q (fun x => { x with enabling := false })) := by
    rw [State.updQueue_updQueue]
    exact updQueue_becomes u q _
  refine ⟨_, becomes, ?_⟩
  rw [queueEnable, if_neg h.notIgnored, if_neg h.headWritten, luTry_copyDesc_ok hl]
  simp only [becomes.1]
end

/-! ## The quantum (R70, R71) -/

section
variable {s : State}

/-- A boundary at which the levels of the queues that wait have fallen. -/
def levelsFallen (s : State) : State :=
  s.updLu (fun u => { u with
    lastQuantum := s.now
    queues := u.queues.map (fun (p : Nat × SQueue) =>
      if p.2.ranked then
        let w := (s.now - p.2.waitSince) / (1000 * s.lu.quantum.toNat) / 8
        (p.1, { p.2 with falls := w, level := p.2.level - (w - p.2.falls) })
      else p) })
/-- The WAITING queues in the order in which they are mapped. -/
def waitOrder (s : State) : List Nat := ((s.lu.queues.filter (fun p => p.2.ranked)).foldl (fun l p => insertBy waitsBefore p l) []).map (·.1)
/-- The state with each slot's mark of having been BLOCKED throughout a quantum set anew. -/
def blockedMarked (s : State) : State :=
  s.updLu (fun u => { u with slots := u.slots.map (fun (p : Nat × HwSlot) => (p.1, { p.2 with blockedQuantum := p.2.state == .blocked })) })
theorem execQuantumBoundary_due (h : s.lu.lastQuantum + 1000 * s.lu.quantum.toNat ≤ s.now) :
    execQuantumBoundary s = .next (blockedMarked ((waitOrder (levelsFallen s)).foldl mapInTurn (levelsFallen s))) :=
  congrArg _ (if_neg h.not_gt)
theorem execQuantumBoundary_early (h : s.now < s.lu.lastQuantum + 1000 * s.lu.quantum.toNat) : execQuantumBoundary s = .next s :=
  congrArg _ (if_pos h)
/-- The level of a WAITING queue falls by one for every eight whole quanta that it has waited. -/
theorem queue_levelsFallen (s : State) (r : Nat) :
    (levelsFallen s).queue r = if (s.queue r).state = .waiting ∧ (s.queue r).entering = false then
      let w := (s.now - (s.queue r).waitSince) / (1000 * s.lu.quantum.toNat) / 8
      { s.queue r with falls := w, level := (s.queue r).level - (w - (s.queue r).falls) } else s.queue r := by
  let fallen (_ : Nat) (x : SQueue) : SQueue := if x.state = .waiting ∧ x.entering = false then
    let w := (s.now - x.waitSince) / (1000 * s.lu.quantum.toNat) / 8
    { x with falls := w, level := x.level - (w - x.falls) } else x
  refine .trans ?_ (sget_map ({} : SQueue) fallen s.lu.queues r rfl)
  refine congrArg (sget ({} : SQueue) · r) (List.map_congr_left (fun p _ => ?_))
  by_cases h : p.2.ranked = true
  · rw [if_pos h]; exact congrArg (Prod.mk p.1) (if_pos ((ranked_iff p.2).1 h)).symm
  · rw [if_neg h]; exact congrArg (Prod.mk p.1) (if_neg (mt (ranked_iff p.2).2 h)).symm
theorem slotOf_blockedMarked (s : State) (n : Nat) :
    (blockedMarked s).slotOf n = { s.slotOf n with blockedQuantum := (s.slotOf n).state == .blocked } :=
  sget_map ({} : HwSlot) (fun _ x => { x with blockedQuantum := x.state == .blocked }) s.lu.slots n rfl
end

/-! ## The statement -/

/-- Settles O47: each clause is what the lemmas above say of the doorbell, the command, the slot or the quantum. -/
theorem queueEvents : Obligations.QueueEvents := by
  unfold Obligations.QueueEvents
  intro s q tail x Does Queue rung Left beyond
  refine ⟨fun hq => ?none, fun hq => ⟨fun hs => ?unmapped, fun n hn hst => ?mapped, fun h => ?disabled, fun h => ?error,
    qcmdReset_stopped_runs hq, fun hd he => ?enabledReset, fun h => ?enableIdle, fun hst hr hd => ?afterHead,
    fun hst hr hd => ?enable⟩, fun n p hp hn => ?takes, fun h => runs_eq (execQuantumBoundary_early h), fun h => ?quantum⟩
  case none =>
    exact ⟨runs_eq (congrArg _ (if_neg hq.not_gt)), runs_eq (congrArg _ (if_neg hq.not_gt)), runs_eq (congrArg _ (if_neg hq.not_gt)),
      runs_eq (congrArg _ (if_neg hq.not_gt))⟩
  case unmapped =>
    obtain ⟨stopped, past, idleEmpty, idleWorks, waitingEmpty, waitingWorks⟩ := doorbellWrite_unmapped_runs (tail := tail) hq hs
    refine ⟨stopped, past, idleEmpty, idleWorks, waitingEmpty, waitingWorks, fun h => ?_⟩
    exact ⟨_, (execQcmdDisable_reaches hq).trans (congrArg _ (queueDisable_unmapped h hs)), updQueue_becomes s q _⟩
  case mapped =>
    obtain ⟨past, withdrawn, stays⟩ := doorbellWrite_mapped_runs (tail := tail) hq hn hst
    refine ⟨past, withdrawn, stays, qcmdDisable_mapped_runs hq hst hn,
      fun ha => runs_eq ((execQcmdDisable_reaches hq).trans (congrArg _ ?_))⟩
    rw [queueDisable_mapped hst hn, if_pos ha]
  case disabled => exact ⟨_, (execQcmdDisable_reaches hq).trans (congrArg _ (queueDisable_disabled h)), updQueue_becomes s q _⟩
  case error => exact runs_eq ((execQcmdDisable_reaches hq).trans (congrArg _ (queueDisable_error h)))
  case enabledReset => exact runs_eq ((execQcmdReset_reaches hq).trans (congrArg _ (queueReset_enabled hd he)))
  case enableIdle => exact runs_eq ((execQcmdEnable_reaches hq).trans (congrArg _ (queueEnable_idle h)))
  case afterHead =>
    exact ⟨_, (execQcmdEnable_reaches hq).trans (congrArg _ (queueEnable_afterHead hst hr hd)), updQueue_becomes s q _⟩
  case enable =>
    have reaches := execQcmdEnable_reaches hq
    have enables : Enables s q := ⟨hst, hr, hd⟩
    refine ⟨fun c u hl => runs_eq (reaches.trans (congrArg _ (queueEnable_bad enables hl))),
      fun u hl => runs_eq (reaches.trans (congrArg _ (queueEnable_later enables hl))), fun l u hl => ?_⟩
    obtain ⟨w, ⟨hw, hothers, hrest⟩, hresult⟩ := queueEnable_ok enables hl
    exact ⟨_, reaches, w, hw, hothers, hrest, hresult⟩
  case takes =>
    rw [takeSlot_first hp hn]
    exact mapQueue_maps s p.1 n
  case quantum =>
    exact ⟨_, execQuantumBoundary_due h, levelsFallen s, _, rfl, rfl, queue_levelsFallen s, rfl, slotOf_blockedMarked _, rfl⟩

end Sys2Proof.Machine
end

section
/-! What the launch unit does with records and kernels (R65 to R69, R31 to R37, R74 to R78): lemmas for the statement RecordEvents, and its
proof. -/

namespace Sys2Proof.Machine
open Sys2Proof

/-! ## Slots that load (R56, R68, R70) -/

section
variable {s u v : State} {n : Nat}

theorem execSlotLoadComplete_notLoading (h : (s.slotOf n).state ≠ .loading) : execSlotLoadComplete n s = .next s := congrArg _ (if_pos h)
/-- The copy of the descriptor at a mapping, unless it has been made. -/
def slotCopy (s : State) (n : Nat) : Got Unit × State :=
  if (s.slotOf n).copied then (.ok (), s) else luTry (copyDesc (s.slotOf n).qid) s
/-- A state in which slot n's descriptor has been copied. -/
def slotCopied (s : State) (n : Nat) : State := s.setSlot n { s.slotOf n with copied := true }
theorem execSlotLoadComplete_bad {c : Cause} (h : (s.slotOf n).state = .loading) (hc : slotCopy s n = (.bad c, u)) :
    execSlotLoadComplete n s = .next (refill s (queueError u (s.slotOf n).qid c.code) (s.slotOf n).qid) := by
  unfold slotCopy at hc
  simp only [execSlotLoadComplete, hc, h, ne_eq, not_true_eq_false, if_false]
theorem execSlotLoadComplete_later (h : (s.slotOf n).state = .loading) (hc : slotCopy s n = (.later, u)) :
    execSlotLoadComplete n s = .next u := by
  unfold slotCopy at hc
  simp only [execSlotLoadComplete, hc, h, ne_eq, not_true_eq_false, if_false]
/-- With its descriptor copied, a queue without work leaves the slot, and the head record of one with work is read. -/
theorem execSlotLoadComplete_ok (h : (s.slotOf n).state = .loading) (hc : slotCopy s n = (.ok (), u)) :
    execSlotLoadComplete n s = .next (
      let q := (s.slotOf n).qid
      let t := slotCopied u n
      if (t.queue q).head = (t.queue q).tail then refill s ((leaveSlot t q).updQueue q SQueue.emptied) q
      else refill s (levelAtMapping (readHeadRecord t n) n) q) := by
  unfold slotCopy at hc
  simp only [execSlotLoadComplete, hc, h, ne_eq, not_true_eq_false, if_false]
  rfl
/-- A slot with the head record that was read into it. -/
def HwSlot.loaded (x : HwSlot) (l : List Nat) : HwSlot :=
  { x with state := .active, record := some (launchRecord l), verdict := none, observed := false }
theorem readHeadRecord_ok {q : Nat} {l : List Nat} (hq : (s.slotOf n).qid = q)
    (hl : luTry (luDwords (s.queue q).owner ((s.queue q).recordAt (s.queue q).head) 16) s = (.ok l, v)) :
    readHeadRecord s n = evalDeps (v.setSlot n ((v.slotOf n).loaded l)) n := by
  subst hq
  simp only [readHeadRecord, hl]
  rfl
theorem levelAtMapping_record {q : Nat} {r : Record} (hq : (s.slotOf n).qid = q) (hr : (s.slotOf n).record = some r) :
    levelAtMapping s n = s.updQueue q (fun y => { y with level := r.prio, falls := 0 }) := by
  simp only [levelAtMapping, hq, hr]
/-- The head record of a queue with work is read, its dependences are evaluated, and the queue has its level. -/
theorem execSlotLoadComplete_reads {q : Nat} {l : List Nat} {r : Record} (hq : (s.slotOf n).qid = q) (h : (s.slotOf n).state = .loading)
    (hc : slotCopy s n = (.ok (), u)) (hu : (u.slotOf n).qid = q) (hw : (u.queue q).head ≠ (u.queue q).tail)
    (hl : luTry (luDwords (u.queue q).owner ((u.queue q).recordAt (u.queue q).head) 16) (slotCopied u n) = (.ok l, v)) :
    let w := evalDeps (v.setSlot n ((v.slotOf n).loaded l)) n
    (w.slotOf n).record = some r → (w.slotOf n).qid = q →
      execSlotLoadComplete n s = .next (refill s (w.updQueue q (fun y => { y with level := r.prio, falls := 0 })) q) := by
  intro w hr hwq
  have copied : ((slotCopied u n).slotOf n).qid = q := by rwa [slotCopied, State.slotOf_setSlot_self]
  have reads : readHeadRecord (slotCopied u n) n = w := readHeadRecord_ok copied hl
  rw [execSlotLoadComplete_ok h hc, hq]
  refine congrArg _ ((if_neg hw).trans ?_)
  rw [reads, levelAtMapping_record hwq hr]
end

/-! ## Dependences (R65, R66) -/

section
variable {s u : State} {n i v : Nat} {r : Record}

/-- The dependences of slot n's record that are not met yet are evaluated, with no read outstanding. -/
def depsRead (s : State) (n : Nat) (r : Record) : State × Bool :=
  let t := s.setSlot n { s.slotOf n with reading := false }
  (r.used.filter (fun i => !(t.queue (s.slotOf n).qid).met.contains i)).foldl (evalDep n r) (t, false)
/-- A slot whose record is eligible after its dependences have been read is ACTIVE. -/
theorem evalDeps_active (hr : (s.slotOf n).record = some r) (hbad : r.bad = false) (he : eligibleAt (depsRead s n r).1 n = true) :
    ((evalDeps s n).slotOf n).state = .active := by
  unfold evalDeps
  dsimp only
  split
  case h_1 hn => rw [hr] at hn; cases hn
  case h_2 r' hr' =>
    obtain rfl := Option.some.inj (hr.symm.trans hr')
    rw [if_neg (by simp [hbad])]
    refine (congrArg (fun t => (State.slotOf t n).state) (if_pos he)).trans ?_
    rw [State.slotOf_setSlot_self]
/-- A dependence whose word has reached its value is observed met. -/
theorem evalDep_met {b : Bool} (hv : (s.slotOf n).verdict = none)
    (hread : luTry (luRead (s.queue (s.slotOf n).qid).owner (r.deps.getD i (0, 0)).1 8) s = (.ok v, u))
    (hle : (r.deps.getD i (0, 0)).2.toNat ≤ v) :
    evalDep n r (s, b) i = (u.updQueue (s.slotOf n).qid (fun q => { q with met := nsInsert q.met i }), b) := by
  simp only [evalDep, hv, Option.isSome_none, Bool.false_eq_true, if_false, hread, if_pos hle]
theorem eligible_of_met {x : HwSlot} {met : NatSet} (hr : x.record = some r) (h : ∀ j ∈ r.used, j ∈ met) : x.eligible met = true := by
  have all : r.used.all (fun j => met.contains j) = true := List.all_eq_true.2 (fun j hj => List.contains_iff_mem.2 (h j hj))
  simp only [HwSlot.eligible, hr, all, Bool.or_true]
/-- With the last dependence that was unmet observed met, the record is eligible. -/
theorem evalDeps_lastMet (hr : (s.slotOf n).record = some r) (hbad : r.bad = false) (hv : (s.slotOf n).verdict = none)
    (hone : r.used.filter (fun i => !(s.queue (s.slotOf n).qid).met.contains i) = [i])
    (hread : luTry (luRead (s.queue (s.slotOf n).qid).owner (r.deps.getD i (0, 0)).1 8) (s.setSlot n { s.slotOf n with reading := false }) =
      (.ok v, u))
    (hlu : u.lu = (s.setSlot n { s.slotOf n with reading := false }).lu) (hle : (r.deps.getD i (0, 0)).2.toNat ≤ v) :
    ((evalDeps s n).slotOf n).state = .active := by
  let x : HwSlot := { s.slotOf n with reading := false }
  let w := u.updQueue x.qid (fun q => { q with met := nsInsert q.met i })
  have hx : (s.setSlot n x).slotOf n = x := State.slotOf_setSlot_self s n x
  have hslot : w.slotOf n = x := by
    show sget {} u.lu.slots n = x
    rw [hlu]; exact hx
  have hmet : (w.queue x.qid).met = nsInsert (s.queue x.qid).met i := by
    have hq : u.queue x.qid = s.queue x.qid := by
      show sget {} u.lu.queues x.qid = _
      rw [hlu]; rfl
    rw [State.queue_updQueue_self, hq]
  have hdeps : depsRead s n r = (w, false) := by
    have met := evalDep_met (n := n) (r := r) (i := i) (b := false) (s := s.setSlot n x) (by rw [hx]; exact hv) (by rw [hx]; exact hread) hle
    rw [hx] at met
    unfold depsRead
    dsimp only
    rw [State.queue_setSlot, hone]
    exact met
  refine evalDeps_active hr hbad ?_
  rw [hdeps, eligibleAt, hslot, hmet]
  refine eligible_of_met hr (fun j hj => (mem_nsInsert _ _ _).2 ?_)
  by_cases hm : j ∈ (s.queue x.qid).met
  · exact .inr hm
  · have unmet : j ∈ r.used.filter (fun i => !(s.queue (s.slotOf n).qid).met.contains i) := List.mem_filter.2 ⟨hj, by simpa using hm⟩
    rw [hone] at unmet
    exact .inl (List.mem_singleton.1 unmet)
end

/-! ## Acceptance (R69) -/

section
variable {s : State} {n key : Nat} {x : HwSlot} {r : Record}

/-- The slots whose head records can be accepted. -/
def recordCands (s : State) : Sparse HwSlot :=
  s.lu.slots.filter (fun p => (p.2.state == .active || p.2.state == .draining) && !p.2.accepting && eligibleAt s p.1 &&
    (s.queue p.2.qid).head != (s.queue p.2.qid).tail)
/-- The first free place of the kernel table. -/
def kernelPlace (s : State) : Option Nat := (List.range 1024).find? (fun n => (sfind s.kernels n).isNone)
/-- The kernel that a record becomes (R64, R67, R69). -/
def enteredKernel (s : State) (x : HwSlot) (r : Record) : Kernel :=
  let q := s.queue x.qid
  let verdict := if r.bad then some .recordInvalid else x.verdict
  { qid := x.qid, recNo := q.head, asid := q.owner, evvec := q.evvec, record := r, seq := s.lu.accepted, tstart := s.timeNs
    state := if verdict.isSome then .ending else .waiting, status := verdict.getD .success, die := chooseDie s r
    launcher := q.bell.bind (·.kernel) }
/-- A record of slot n is accepted as kernel key, with HEAD still to be written. -/
def recordAccepted (s : State) (n key : Nat) (x : HwSlot) (r : Record) : State :=
  ((tellSolvers (enterKernel s key x r) x.qid).updQueue x.qid (fun y =>
    let h := y.head + 1
    { y with head := h, met := [], headDue := some h
             bells := y.bells.filter (fun b => b.tail != h && decide ((b.tail - h).toNat ≤ 2 ^ y.log2size)) })).setSlot n
    { x with accepting := true }

theorem execRecordAccept_none (h : firstBy (acceptedBefore s) (recordCands s) = none ∨ kernelPlace s = none) :
    execRecordAccept s = .next s := by
  unfold recordCands kernelPlace at h
  rcases h with h | h
  · simp only [execRecordAccept, h]
  · simp only [execRecordAccept, h]
    generalize firstBy (acceptedBefore s) _ = best
    cases best <;> rfl
theorem execRecordAccept_tooSoon (hc : firstBy (acceptedBefore s) (recordCands s) = some (n, x)) (hp : kernelPlace s = some key)
    (hr : x.record = some r) {t : Nat} (ht : s.lu.lastAccept = some t) (hs : s.now < t + 20) : execRecordAccept s = .next s := by
  unfold recordCands at hc
  unfold kernelPlace at hp
  simp only [execRecordAccept, hc, hp, hr, ht, Option.any_some, decide_eq_true hs, if_true]
theorem execRecordAccept_accepts (hc : firstBy (acceptedBefore s) (recordCands s) = some (n, x)) (hp : kernelPlace s = some key)
    (hr : x.record = some r) (ht : ∀ t, s.lu.lastAccept = some t → t + 20 ≤ s.now) :
    execRecordAccept s = .next (writeHead (recordAccepted s n key x r) x.qid) := by
  have late : ¬(s.lu.lastAccept.any (fun t => decide (s.now < t + 20)) = true) := by
    rw [Option.any_eq_true]
    rintro ⟨t, hl, hs⟩
    exact (ht t hl).not_gt (of_decide_eq_true hs)
  unfold recordCands at hc
  unfold kernelPlace at hp
  simp only [execRecordAccept, hc, hp]
  split
  case h_1 hn => rw [hr] at hn; cases hn
  case h_2 r' hr' =>
    obtain rfl := Option.some.inj (hr.symm.trans hr')
    exact congrArg _ (if_neg late)

/-- A bad record, and one with a failed dependence, make a kernel that ends with that status; any other waits. -/
theorem enteredKernel_ends : (r.bad = true → (enteredKernel s x r).state = .ending ∧ (enteredKernel s x r).status = .recordInvalid) ∧
    (r.bad = false → ∀ v, x.verdict = some v → (enteredKernel s x r).state = .ending ∧ (enteredKernel s x r).status = v) ∧
    (r.bad = false → x.verdict = none → (enteredKernel s x r).state = .waiting ∧ (enteredKernel s x r).status = .success) := by
  refine ⟨fun h => ?_, fun h v hv => ?_, fun h hv => ?_⟩
  · simp [enteredKernel, h]
  · simp [enteredKernel, h, hv]
  · simp [enteredKernel, h, hv]
theorem recordAccepted_queue : (recordAccepted s n key x r).queue x.qid = { s.queue x.qid with
    head := (s.queue x.qid).head + 1, met := [], headDue := some ((s.queue x.qid).head + 1)
    bells := ((recordAccepted s n key x r).queue x.qid).bells } := by
  unfold recordAccepted
  rw [State.queue_setSlot, State.queue_updQueue_self]
  rfl
theorem recordAccepted_queue_of_ne {z : Nat} (hz : z ≠ x.qid) : (recordAccepted s n key x r).queue z = s.queue z := by
  rw [recordAccepted, State.queue_setSlot, State.queue_updQueue_of_ne _ _ hz]
  rfl
theorem recordAccepted_slot : (recordAccepted s n key x r).slotOf n = { x with accepting := true } := State.slotOf_setSlot_self _ n _
theorem recordAccepted_slot_of_ne {m : Nat} (hm : m ≠ n) : (recordAccepted s n key x r).slotOf m = s.slotOf m := by
  rw [recordAccepted, State.slotOf_setSlot_of_ne _ _ hm]
  rfl
theorem enterKernel_lu : (enterKernel s key x r).lu = { s.lu with accepted := s.lu.accepted + 1, lastAccept := some s.now } := rfl
theorem tellSolvers_lu (q : Nat) : (tellSolvers s q).lu = s.lu := rfl
/-- An acceptance is counted and timed. -/
theorem recordAccepted_counted : (recordAccepted s n key x r).lu.lastAccept = some s.now ∧
    (recordAccepted s n key x r).lu.accepted = s.lu.accepted + 1 := by
  simp only [recordAccepted, State.setSlot, State.updQueue, tellSolvers_lu, enterKernel_lu, and_self]
theorem recordAccepted_mem : (recordAccepted s n key x r).mem = s.mem := by
  simp only [recordAccepted, State.setSlot, State.updQueue, tellSolvers, enterKernel]
theorem recordAccepted_strands : (recordAccepted s n key x r).strands = s.strands := by
  simp only [recordAccepted, State.setSlot, State.updQueue, tellSolvers, enterKernel]
theorem recordAccepted_kernels (z : Nat) :
    sfind (recordAccepted s n key x r).kernels z = if z = key then some (enteredKernel s x r) else sfind s.kernels z :=
  sfind_sput s.kernels key z _
end

/-! HEAD has been written back (R68, R73). -/

section
variable {s : State} {q n : Nat}

theorem finishAccept_draining_disabled (hn : (s.queue q).slot = some n) (hd : (s.slotOf n).state = .draining)
    (ho : (s.slotOf n).disable = true) : finishAccept s q =
    refill s ((leaveSlot s q).updQueue q (fun z => { z with state := .disabled, met := [] })) q := by
  rw [finishAccept, hn]
  exact congrArg (refill s · q) ((if_pos hd).trans (if_pos ho))
theorem finishAccept_draining_waits (hn : (s.queue q).slot = some n) (hd : (s.slotOf n).state = .draining)
    (ho : (s.slotOf n).disable = false) (hw : (s.queue q).head ≠ (s.queue q).tail) :
    finishAccept s q = refill s (queueWaits (leaveSlot s q) q) q := by
  rw [finishAccept, hn]
  exact congrArg (refill s · q) ((if_pos hd).trans ((if_neg (by simp [ho])).trans (if_neg hw)))
theorem finishAccept_empty (hn : (s.queue q).slot = some n) (hd : (s.slotOf n).state ≠ .draining ∨ (s.slotOf n).disable = false)
    (he : (s.queue q).head = (s.queue q).tail) :
    finishAccept s q = refill s ((leaveSlot s q).updQueue q (fun z => { z with state := .idle })) q := by
  rw [finishAccept, hn]
  refine congrArg (refill s · q) ?_
  by_cases hst : (s.slotOf n).state = .draining
  · exact (if_pos hst).trans ((if_neg (by simp [hd.resolve_left (not_not.2 hst)])).trans (if_pos he))
  · exact (if_neg hst).trans (if_pos he)
theorem finishAccept_reads (hn : (s.queue q).slot = some n) (hd : (s.slotOf n).state ≠ .draining) (hw : (s.queue q).head ≠ (s.queue q).tail) :
    finishAccept s q = refill s (readHeadRecord (s.setSlot n { s.slotOf n with accepting := false, record := none }) n) q := by
  rw [finishAccept, hn]
  exact congrArg (refill s · q) ((if_neg hd).trans (if_neg hw))
end

/-! ## The check of an image (R31, R33, R36, R74) -/

section
variable {s u : State} {key : Nat} {k : Kernel}

theorem execImageCheck_none (h : sfind s.kernels key = none) : execImageCheck key s = .next s := by
  rw [execImageCheck, h]
theorem execImageCheck_idle (hk : sfind s.kernels key = some k) (h : k.checked = true ∨ k.state ≠ .waiting) :
    execImageCheck key s = .next s := by
  rw [execImageCheck, hk]
  exact congrArg _ (if_pos h)
/-- The kernel's image is still to be checked. -/
def ToCheck (k : Kernel) : Prop := k.checked = false ∧ k.state = .waiting
theorem ToCheck.due (h : ToCheck k) : ¬(k.checked = true ∨ k.state ≠ .waiting) := by
  obtain ⟨hc, hw⟩ := h
  simp [hc, hw]
theorem execImageCheck_passes (hk : sfind s.kernels key = some k) (h : ToCheck k) {c : ImageCheck} {l : List LoopLevel}
    (hl : luTry (checkImage s k) s = (.ok (some (c, l)), u)) : execImageCheck key s = .next (handOver u key k c l) := by
  simp only [execImageCheck, hk, if_neg h.due, hl]
theorem execImageCheck_fails (hk : sfind s.kernels key = some k) (h : ToCheck k) (hl : luTry (checkImage s k) s = (.ok none, u)) :
    execImageCheck key s = .next (retireAtOnce u key k .imageInvalid) := by
  simp only [execImageCheck, hk, if_neg h.due, hl]
theorem execImageCheck_faults (hk : sfind s.kernels key = some k) (h : ToCheck k) {c : Cause}
    (hl : luTry (checkImage s k) s = (.bad c, u)) :
    execImageCheck key s = .next (hostEvent (retireAtOnce u key k .imageInvalid) k.evvec) := by
  simp only [execImageCheck, hk, if_neg h.due, hl]
theorem execImageCheck_waits (hk : sfind s.kernels key = some k) (h : ToCheck k) (hl : luTry (checkImage s k) s = (.later, u)) :
    execImageCheck key s = .next u := by
  simp only [execImageCheck, hk, if_neg h.due, hl]
/-- A kernel with more than 2^32 shards, and one without any, retire at once. -/
theorem handOver_tooLarge (u : State) (key : Nat) (k : Kernel) (c : ImageCheck) {l : List LoopLevel} (h : 2 ^ 32 < extentOf l 0 * extentOf l 1) :
    sfind (handOver u key k c l).kernels key = some { k with checked := true, state := .ending, status := .launchExtent } := by
  unfold handOver
  dsimp only
  rw [if_pos h]
  exact (sfind_sput _ _ _ _).trans (if_pos rfl)
theorem handOver_noShard (u : State) (key : Nat) (k : Kernel) (c : ImageCheck) {l : List LoopLevel} (h : extentOf l 0 * extentOf l 1 = 0) :
    sfind (handOver u key k c l).kernels key = some { k with checked := true, state := .ending, status := .success } := by
  unfold handOver
  dsimp only
  rw [if_neg (by rw [h]; decide), if_pos h]
  exact (sfind_sput _ _ _ _).trans (if_pos rfl)
end

/-! ## What goes with a kernel that retires (R426, R457, R473) -/

/-- From s to t only the work of strands, groups and kernels changed: no memory, no queue, no message. -/
def WorkOnly (s t : State) : Prop :=
  t = { s with strands := t.strands, groups := t.groups, kernels := t.kernels, tasks := t.tasks, pfut := t.pfut, solvers := t.solvers }
namespace WorkOnly
theorem refl (s : State) : WorkOnly s s := rfl
theorem trans {s t u : State} (h : WorkOnly s t) (g : WorkOnly t u) : WorkOnly s u := by
  unfold WorkOnly at h g
  rw [h] at g
  exact g
theorem foldl {α : Type} (f : State → α → State) (h : ∀ s a, WorkOnly s (f s a)) (l : List α) (s : State) : WorkOnly s (l.foldl f s) := by
  induction l generalizing s with
  | nil => exact refl s
  | cons a t ih => exact (h s a).trans (ih (f s a))
theorem upd (s : State) (k : Nat) (f : Strand → Strand) : WorkOnly s (s.upd k f) := rfl
theorem mem {s t : State} (h : WorkOnly s t) : t.mem = s.mem := by rw [h]
theorem lu {s t : State} (h : WorkOnly s t) : t.lu = s.lu := by rw [h]
theorem out {s t : State} (h : WorkOnly s t) : t.out = s.out := by rw [h]
end WorkOnly

theorem kernelProgress_work (s : State) (n : Nat) : WorkOnly s (kernelProgress s n) := by
  unfold kernelProgress
  split <;> rfl
theorem phaseSeen_work (s : State) (gk n : Nat) : WorkOnly s (phaseSeen s gk n) := by
  unfold phaseSeen
  split
  · rfl
  · exact .foldl _ (fun t k => .upd t k _) _ s
theorem arriveAt_work (s : State) (gk n : Nat) (wide outside : Bool) : WorkOnly s (arriveAt s gk n wide outside) := by
  have bars : WorkOnly s (setBars s (barMembers s gk n) n (·.arrival wide outside)) := rfl
  unfold arriveAt
  dsimp only
  split
  case isFalse => exact bars
  case isTrue =>
    have progress : ∀ t, WorkOnly t (match sfind t.groups gk with
        | some g => kernelProgress t g.kernel
        | none => t) := fun t => by
      split
      · exact kernelProgress_work t _
      · rfl
    split
    · exact bars.trans (progress _)
    · exact (bars.trans (progress _)).trans (phaseSeen_work _ _ _)
theorem retireOne_work (s : State) (k : Nat) (n : BitVec 2) (x : Transfer) : WorkOnly s (retireOne s k n x) := by
  unfold retireOne
  dsimp only
  split
  · exact .trans (.upd s k _) (arriveAt_work _ _ _ _ _)
  · exact .upd s k _
theorem retireRun_work (k : Nat) (n : BitVec 2) (l : List Transfer) (s : State) : WorkOnly s (retireRun k n l s) := by
  induction l generalizing s with
  | nil => exact .refl s
  | cons x l ih =>
    rw [retireRun]
    split
    · exact (retireOne_work s k n x).trans (ih _)
    · rfl
/-- A task that is squashed leaves its transfers and its ring slots. -/
theorem squashLeaves_work (s : State) (j : Nat) : WorkOnly s (slotsLeave true (leaveSpec true s j) j) := by
  refine .trans (t := leaveSpec true s j) ?_ rfl
  unfold leaveSpec
  refine .foldl _ (fun s k => ?_) _ s
  refine .trans (.upd s k (fun t => { t with chan := t.chan.map (Channel.leaveSpec true j) })) ?_
  exact .foldl (fun s n => retire s k (BitVec.ofNat 2 n)) (fun t n => retireRun_work k _ _ t) _ _
theorem dropTasks_work (s : State) (key : Nat) : WorkOnly s (dropTasks s key) :=
  .trans (.foldl (fun s j => slotsLeave true (leaveSpec true s j) j) squashLeaves_work _ s) rfl
theorem dropKernelWork_work (s : State) (key : Nat) : WorkOnly s (dropKernelWork s key) := (dropTasks_work s key).trans rfl

/-- The tasks of a kernel, by their pool keys. -/
def tasksOf (s : State) (key : Nat) : List Nat := (s.tasks.filter (fun p => p.2.kernel == key)).map (·.1)
/-- A strand's entry without its task where that is one of those gone. -/
def withoutTask (gone : List Nat) (p : Nat × Strand) : Nat × Strand := if p.2.task.any gone.contains then (p.1, { p.2 with task := none }) else p
theorem withoutTask_nil (p : Nat × Strand) : withoutTask [] p = p := by
  unfold withoutTask
  cases p.2.task <;> rfl
theorem withoutTask_notGone {gone : List Nat} {p : Nat × Strand} {j : Nat} (h : (withoutTask gone p).2.task = some j) : j ∉ gone := by
  unfold withoutTask at h
  split at h
  case isTrue => cases h
  case isFalse hn =>
    rw [h] at hn
    simpa using hn
theorem dropKernelWork_strands (s : State) (key : Nat) : (dropKernelWork s key).strands =
    ((tasksOf s key).foldl (fun s j => slotsLeave true (leaveSpec true s j) j) s).strands.map (withoutTask (tasksOf s key)) := rfl
theorem dropKernelWork_tasks (s : State) (key : Nat) : ∀ p ∈ (dropKernelWork s key).tasks, p.2.kernel ≠ key := fun p hp => by
  obtain ⟨-, hk⟩ := List.mem_filter.1 (show p ∈ List.filter _ _ from hp)
  simpa using hk
theorem mem_tasksOf {s : State} {key j : Nat} {y : Task} (h : sfind s.tasks j = some y) (hy : y.kernel = key) : j ∈ tasksOf s key :=
  List.mem_map.2 ⟨(j, y), List.mem_filter.2 ⟨mem_of_sfind h, by simp [hy]⟩, rfl⟩
/-- No strand holds a task of the kernel any more. -/
theorem dropKernelWork_taskHeld {s : State} {key j : Nat} {p : Nat × Strand} (hp : p ∈ (dropKernelWork s key).strands) (hj : p.2.task = some j)
    {y : Task} (hy : sfind s.tasks j = some y) : y.kernel ≠ key := fun hk => by
  rw [dropKernelWork_strands] at hp
  obtain ⟨p', -, rfl⟩ := List.mem_map.1 hp
  exact withoutTask_notGone hj (mem_tasksOf hy hk)
/-- Without tasks of the kernel every strand stays as it is. -/
theorem dropKernelWork_noTask {s : State} {key : Nat} (h : ∀ p ∈ s.tasks, p.2.kernel ≠ key) : (dropKernelWork s key).strands = s.strands := by
  have hnil : tasksOf s key = [] := by
    rw [tasksOf, List.filter_eq_nil_iff.2 (fun p hp => by simpa using h p hp)]
    rfl
  rw [dropKernelWork_strands, hnil, List.foldl_nil, funext withoutTask_nil, List.map_id']
/-- A kernel that has left the table does not come back. -/
theorem dropKernelWork_gone {s : State} {key : Nat} (h : sfind s.kernels key = none) : sfind (dropKernelWork s key).kernels key = none := by
  have ends := dropTasks_ends s key key
  rw [kernelEnd, kernelEnd, h, Option.map_none, Option.map_eq_none_iff] at ends
  exact ends

/-! ## Completion (R75, R78) -/

section
variable {s u v : State} {m : M Unit} {k : Kernel} {time : Dword}

theorem orSkip_ok (h : m s = .ok () u) : orSkip m s = .ok true u := by rw [orSkip, h]
theorem orSkip_trap {f : TrapInfo} (h : m s = .error (.trap f) u) : orSkip m s = .ok false (keepRequests s u) := by rw [orSkip, h]
theorem completionWrites_ok {r w : Bool} (hr : orSkip (writeRecord k time) s = .ok r u) (hw : orSkip (addCompletion k) u = .ok w v) :
    completionWrites k time s = .ok (r, w) v := by
  rw [completionWrites, bindM_ok hr, bindM_ok hw]
  rfl
end

/-- The kernel that launched this one makes progress once the completion word is written (R419). -/
def launcherProgresses (k : Kernel) (w : Bool) (s : State) : State :=
  if w && k.record.cwaddr != 0 && k.record.cwaddr.toNat % 8 == 0 then progressOf s k.launcher else s
/-- A failed write is noted in LUSTAT.CWFAULT. -/
def failureNoted (ok : Bool) (s : State) : State := if ok then s else s.updLu (fun u => { u with cwfault := true })
/-- The host hears of a kernel whose record asks for it, and of a failed write. -/
def hostTold (k : Kernel) (ok : Bool) (s : State) : State := if !ok || k.record.event then hostEvent s k.evvec else s
/-- What a completion does besides its writes. -/
def completionTold (k : Kernel) (r w : Bool) (s : State) : State := hostTold k (r && w) (failureNoted (r && w) (launcherProgresses k w s))

section
variable {s u v : State} {key : Nat} {k : Kernel} {r w : Bool}

theorem launcherProgresses_keeps {β : Type} (f : State → β) (h : ∀ (s : State) l, f { s with kernels := l } = f s) :
    f (launcherProgresses k w s) = f s := by
  have progress : f (progressOf s k.launcher) = f s := by
    cases k.launcher with
    | none => rfl
    | some n => exact h s _
  rw [launcherProgresses, apply_ite f, progress, ite_self]
theorem failureNoted_keeps {β : Type} (f : State → β) (h : ∀ s g, f (State.updLu s g) = f s) (ok : Bool) : f (failureNoted ok s) = f s := by
  rw [failureNoted, apply_ite f, h, ite_self]
theorem failureNoted_cwfault (ok : Bool) : (failureNoted ok s).lu.cwfault = true ↔ s.lu.cwfault = true ∨ ok = false := by
  cases ok <;> simp [failureNoted, State.updLu]
theorem hostTold_keeps {β : Type} (f : State → β) (h : ∀ s vec, f (hostEvent s vec) = f s) (ok : Bool) : f (hostTold k ok s) = f s := by
  rw [hostTold, apply_ite f, h, ite_self]
theorem hostTold_out (ok : Bool) :
    (hostTold k ok s).out = if (!ok || k.record.event) = true then s.out ++ [Outbound.hostEvent k.evvec] else s.out := apply_ite State.out _ _ _

theorem completionTold_keeps {β : Type} (f : State → β) (hk : ∀ (s : State) l, f { s with kernels := l } = f s)
    (hlu : ∀ s g, f (State.updLu s g) = f s) (ho : ∀ s vec, f (hostEvent s vec) = f s) : f (completionTold k r w s) = f s := by
  rw [completionTold, hostTold_keeps f ho, failureNoted_keeps f hlu, launcherProgresses_keeps f hk]
theorem completionTold_frame (v : State) : (completionTold k r w v).mem = v.mem ∧ (completionTold k r w v).tasks = v.tasks ∧
    (completionTold k r w v).strands = v.strands :=
  ⟨completionTold_keeps State.mem (fun _ _ => rfl) (fun _ _ => rfl) (fun _ _ => rfl),
    completionTold_keeps State.tasks (fun _ _ => rfl) (fun _ _ => rfl) (fun _ _ => rfl),
    completionTold_keeps State.strands (fun _ _ => rfl) (fun _ _ => rfl) (fun _ _ => rfl)⟩
theorem completionTold_cwfault : (completionTold k r w s).lu.cwfault = true ↔ s.lu.cwfault = true ∨ r = false ∨ w = false := by
  rw [completionTold, hostTold_keeps State.lu (fun _ _ => rfl), failureNoted_cwfault, launcherProgresses_keeps State.lu (fun _ _ => rfl),
    Bool.and_eq_false_iff]
theorem completionTold_out : (completionTold k r w s).out =
    if r = false ∨ w = false ∨ k.record.event = true then s.out ++ [Outbound.hostEvent k.evvec] else s.out := by
  rw [completionTold, hostTold_out, failureNoted_keeps State.out (fun _ _ => rfl), launcherProgresses_keeps State.out (fun _ _ => rfl)]
  exact if_congr (by simp [or_assoc]) rfl rfl

/-- The kernel ends, no group of it is left, and every write has reached its home. -/
def Completes (s : State) (key : Nat) (k : Kernel) : Prop := k.state = .ending ∧ (∀ g ∈ s.groups, g.2.kernel ≠ key) ∧ globalWritesWait s = false
theorem completes_iff : Completes s key k ↔
    ¬(k.state ≠ .ending ∨ s.groups.any (fun p => p.2.kernel == key) = true ∨ globalWritesWait s = true) := by
  simp [Completes]
theorem execKernelCompletion_none (h : sfind s.kernels key = none) : execKernelCompletion key s = .next s := by
  rw [execKernelCompletion, h]
theorem execKernelCompletion_idle (hk : sfind s.kernels key = some k) (h : ¬Completes s key k) : execKernelCompletion key s = .next s := by
  rw [execKernelCompletion, hk]
  exact congrArg _ (if_pos (not_not.1 (mt completes_iff.2 h)))
theorem execKernelCompletion_waits (hk : sfind s.kernels key = some k) (h : Completes s key k)
    (hw : completionWrites k (k.tend.getD s.timeNs) (drainAll s) = .error .wait u) : execKernelCompletion key s = .next (keepRequests s u) := by
  simp only [execKernelCompletion, hk, if_neg (completes_iff.1 h), hw]
/-- The state that a completion leaves: the kernel is gone, and its work with it. -/
def kernelGone (v : State) (key : Nat) (k : Kernel) (r w : Bool) : State :=
  let t := completionTold k r w v
  dropKernelWork { t with kernels := sdel t.kernels key } key
theorem execKernelCompletion_ends (hk : sfind s.kernels key = some k) (h : Completes s key k)
    (hw : completionWrites k (k.tend.getD s.timeNs) (drainAll s) = .ok (r, w) v) : execKernelCompletion key s = .next (kernelGone v key k r w) := by
  simp only [execKernelCompletion, hk, if_neg (completes_iff.1 h), hw]
  rfl
theorem kernelCompletion_ends_runs (hk : sfind s.kernels key = some k) (h : Completes s key k)
    (hw : completionWrites k (k.tend.getD s.timeNs) (drainAll s) = .ok (r, w) v) : Runs (.kernelCompletion key) s (fun t =>
      sfind t.kernels key = none ∧ (∀ p ∈ t.tasks, p.2.kernel ≠ key) ∧ t.mem = v.mem ∧
      ((∀ p ∈ v.tasks, p.2.kernel ≠ key) → t.strands = v.strands) ∧
      (∀ p ∈ t.strands, ∀ j, p.2.task = some j → ∀ y, sfind v.tasks j = some y → y.kernel ≠ key) ∧
      (t.lu.cwfault = true ↔ v.lu.cwfault = true ∨ r = false ∨ w = false) ∧
      t.out = (if r = false ∨ w = false ∨ k.record.event = true then v.out ++ [Outbound.hostEvent k.evvec] else v.out)) := by
  let told := completionTold k r w v
  let left : State := { told with kernels := sdel told.kernels key }
  have work : WorkOnly left (dropKernelWork left key) := dropKernelWork_work left key
  obtain ⟨hmem, htasks, hstrands⟩ := completionTold_frame (k := k) (r := r) (w := w) v
  have hgone : sfind left.kernels key = none := (sfind_sdel _ _ _).trans (if_pos rfl)
  refine ⟨_, execKernelCompletion_ends hk h hw, dropKernelWork_gone hgone, dropKernelWork_tasks left key, work.mem.trans hmem, fun hno => ?_,
    fun p hp j hj y hy => ?_, ?_, work.out.trans completionTold_out⟩
  · exact (dropKernelWork_noTask (s := left) (by show ∀ p ∈ told.tasks, _; rwa [htasks])).trans hstrands
  · exact dropKernelWork_taskHeld hp hj (by show sfind told.tasks j = _; rwa [htasks])
  · rw [← completionTold_cwfault (k := k) (r := r) (w := w) (s := v)]
    exact iff_of_eq (congrArg (·.cwfault = true) work.lu)
end

/-! ## The statement -/

section
variable {s : State} {n key : Nat}

/-- The best eligible record enters the kernel table, and HEAD is written back. -/
theorem recordAccept_runs {x : HwSlot} {r : Record} (hc : firstBy (acceptedBefore s) (recordCands s) = some (n, x))
    (hp : kernelPlace s = some key) (hr : x.record = some r) (ht : ∀ t, s.lu.lastAccept = some t → t + 20 ≤ s.now) :
    let q := x.qid
    let y := s.queue q
    Runs .recordAccept s (fun t => ∃ u, (∀ z, z ≠ q → u.queue z = s.queue z) ∧
      u.queue q = { y with head := y.head + 1, met := [], headDue := some (y.head + 1), bells := (u.queue q).bells } ∧
      u.lu.lastAccept = some s.now ∧ u.lu.accepted = s.lu.accepted + 1 ∧ u.slotOf n = { x with accepting := true } ∧
      (∀ m, m ≠ n → u.slotOf m = s.slotOf m) ∧
      u.mem = s.mem ∧ u.strands = s.strands ∧ (∀ z, z ≠ key → sfind u.kernels z = sfind s.kernels z) ∧
      (∃ k, sfind u.kernels key = some k ∧ k.qid = q ∧ k.recNo = y.head ∧ k.asid = y.owner ∧ k.record = r ∧ k.seq = s.lu.accepted ∧
        k.tstart = s.timeNs ∧ (r.bad = true → k.state = .ending ∧ k.status = .recordInvalid) ∧
        (r.bad = false → ∀ v, x.verdict = some v → k.state = .ending ∧ k.status = v) ∧
        (r.bad = false → x.verdict = none → k.state = .waiting ∧ k.status = .success)) ∧
      (∀ v, descWrite u q 0x10 4 (y.head + 1).toNat = (.ok (), v) → t = finishAccept (v.updQueue q (fun z => { z with headDue := none })) q) ∧
      (∀ v, descWrite u q 0x10 4 (y.head + 1).toNat = (.later, v) → t = v) ∧
      (∀ c v, descWrite u q 0x10 4 (y.head + 1).toNat = (.bad c, v) → (v.queue q).state ≠ .error →
        t = refill u (queueError (skipWrite (v.updQueue q (fun z => { z with headDue := none })) q) q c.code) q)) := by
  intro q y
  have hq := recordAccepted_queue (s := s) (n := n) (key := key) (x := x) (r := r)
  have due : ((recordAccepted s n key x r).queue q).headDue = some (y.head + 1) := congrArg SQueue.headDue hq
  obtain ⟨hlast, hcount⟩ := recordAccepted_counted (s := s) (n := n) (key := key) (x := x) (r := r)
  exact ⟨_, execRecordAccept_accepts hc hp hr ht, recordAccepted s n key x r, fun z hz => recordAccepted_queue_of_ne hz, hq, hlast, hcount,
    recordAccepted_slot, fun m hm => recordAccepted_slot_of_ne hm, recordAccepted_mem, recordAccepted_strands,
    fun z hz => (recordAccepted_kernels z).trans (if_neg hz),
    ⟨enteredKernel s x r, (recordAccepted_kernels key).trans (if_pos rfl), rfl, rfl, rfl, rfl, rfl, rfl, enteredKernel_ends⟩,
    fun v hw => writeHead_written due hw, fun v hw => writeHead_waits due hw, fun c v hw he => writeHead_skipped due hw he⟩
/-- A BLOCKED slot's dependences are evaluated again. -/
theorem blocked_runs (h : (s.slotOf n).state = .blocked) :
    Runs (.depWatchReevaluate n) s (fun u => u = evalDeps s n) ∧ Runs (.depPoll n) s (fun u => u = evalDeps s n) :=
  ⟨runs_eq (congrArg _ (if_pos h)), runs_eq (congrArg _ (if_pos h))⟩
theorem notBlocked_runs (h : (s.slotOf n).state ≠ .blocked) :
    Runs (.depWatchReevaluate n) s (fun u => u = s) ∧ Runs (.depPoll n) s (fun u => u = s) :=
  ⟨runs_eq (congrArg _ (if_neg h)), runs_eq (congrArg _ (if_neg h))⟩
end

/-- Settles O48: each clause is what the lemmas above say of the slot, the record, the image or the kernel. -/
theorem recordEvents : Obligations.RecordEvents := by
  unfold Obligations.RecordEvents
  intro s n key x Does
  refine ⟨fun h => runs_eq (execSlotLoadComplete_notLoading h), notBlocked_runs, fun h => ?loads, fun h => ?blocked, ?accepts,
    fun q hn => ?writtenBack, fun hk => ⟨runs_eq (execImageCheck_none hk), runs_eq (execKernelCompletion_none hk)⟩, fun k hk => ?kernel⟩
  case loads =>
    refine ⟨fun c u hc => runs_eq (execSlotLoadComplete_bad h hc), fun u hc => runs_eq (execSlotLoadComplete_later h hc),
      fun u hc hq => ⟨fun he => ?_, fun hw l v hl r hr hwq => runs_eq (execSlotLoadComplete_reads rfl h hc hq.symm hw hl hr hwq)⟩⟩
    exact runs_eq ((execSlotLoadComplete_ok h hc).trans (congrArg _ (if_pos he)))
  case blocked =>
    obtain ⟨watch, poll⟩ := blocked_runs h
    exact ⟨watch, poll, fun r i v u hr hbad hv hone hread hlu hle => evalDeps_lastMet hr hbad hv hone hread hlu hle⟩
  case accepts =>
    exact ⟨fun h => runs_eq (execRecordAccept_none h), fun y r key hc hp hr =>
      ⟨fun t ht hs => runs_eq (execRecordAccept_tooSoon hc hp hr ht hs), recordAccept_runs hc hp hr⟩⟩
  case writtenBack =>
    exact ⟨finishAccept_draining_disabled hn, finishAccept_draining_waits hn, finishAccept_empty hn, finishAccept_reads hn⟩
  case kernel =>
    refine ⟨fun h => runs_eq (execImageCheck_idle hk h), fun hc hw => ?check, fun h => ?completesNot, fun he hg hw => ?completes⟩
    case check =>
      have due : ToCheck k := ⟨hc, hw⟩
      exact ⟨fun c l u hl => ⟨runs_eq (execImageCheck_passes hk due hl), handOver_tooLarge u key k c, handOver_noShard u key k c⟩,
        fun u hl => runs_eq (execImageCheck_waits hk due hl), fun u hl => runs_eq (execImageCheck_fails hk due hl),
        fun c u hl => runs_eq (execImageCheck_faults hk due hl)⟩
    case completesNot =>
      refine runs_eq (execKernelCompletion_idle hk ?_)
      rintro ⟨he, hg, hw⟩
      rcases h with h | ⟨g, hmem, hkey⟩ | h
      · exact h he
      · exact hg g hmem hkey
      · exact Bool.false_ne_true (hw.symm.trans h)
    case completes =>
      have due : Completes s key k := ⟨he, hg, hw⟩
      exact ⟨fun u hc => runs_eq (execKernelCompletion_waits hk due hc), fun r w v hc => kernelCompletion_ends_runs hk due hc,
        fun a b u v ha hb => completionWrites_ok (orSkip_ok ha) (orSkip_ok hb),
        fun f b u v ha hb => completionWrites_ok (orSkip_trap ha) (orSkip_ok hb)⟩

end Sys2Proof.Machine
end

section
/-! What the die schedulers and the ends of strands do (R80 to R82, R90, R92 to R97, R38, R501, R502): lemmas for the statement
PlacementEvents, and its proof. -/

namespace Sys2Proof.Machine
open Sys2Proof

/-! ## The order of placement (R90) -/

section
variable {s : State} {d key core m : Nat} {kn : Kernel} {rest : List (Nat × Kernel)} {p : Plan}

/-- The kernels that may place a group: all that wait, or the first of those that have stopped backfill. -/
def candidates (s : State) (d : Nat) : List (Nat × Kernel) :=
  let stopped := (waitingKernels s d).filter (fun p => (s.sched d).stops.contains p.1)
  if stopped = [] then waitingKernels s d else stopped.take 1
/-- The state in which a group of a kernel stands on a core, and the next search starts behind that core. -/
def groupPlaced (s : State) (d key : Nat) (kn : Kernel) (core : Nat) (p : Plan) : State :=
  let g := nextGroup kn d
  let t := placeGroup s key kn g.1 g.2 core p
  { t with scheds := sput t.scheds d { next := (core % 32 + 1) % 32, stops := nsErase (t.sched d).stops key } }

theorem candidates_of_noneWaits (h : waitingKernels s d = []) : candidates s d = [] := by
  simp [candidates, h]
theorem placeOne_placed (h : searchCore s d kn (nextGroup kn d).2 = some (core, p)) :
    placeOne d ((key, kn) :: rest) s = (true, groupPlaced s d key kn core p) := by
  simp only [placeOne, h]
  rfl
/-- A group that waits already changes nothing where it finds no core. -/
theorem placeOne_noCore {t : Nat} (h : searchCore s d kn (nextGroup kn d).2 = none) (hw : sfind kn.waitSince d = some t) :
    placeOne d ((key, kn) :: rest) s = placeOne d rest s := by
  simp only [placeOne, h, hw]
theorem placeAll_succ (n : Nat) : placeAll d (n + 1) s =
    if (placeOne d (candidates s d) s).1 then placeAll d n (placeOne d (candidates s d) s).2 else (placeOne d (candidates s d) s).2 := by
  simp only [placeAll, candidates, List.isEmpty_iff]
  split <;> simp only [*, if_true, Bool.false_eq_true, if_false]
theorem placeAll_placed (n : Nat) (h : placeOne d (candidates s d) s = (true, groupPlaced s d key kn core p)) :
    placeAll d (n + 1) s = placeAll d n (groupPlaced s d key kn core p) := by
  rw [placeAll_succ, h]
  rfl
theorem placeAll_none (n : Nat) (h : placeOne d (candidates s d) s = (false, s)) : placeAll d (n + 1) s = s := by
  rw [placeAll_succ, h]
  rfl

/-- The die is in service, and no home of a process-table entry keeps its scheduler waiting. -/
def Places (s : State) (d : Nat) : Prop := s.dev.diemap.getLsbD d = true ∧ d < 4 ∧ tableWaits s d = false
theorem places_iff : Places s d ↔ (s.dev.diemap.getLsbD d = true ∧ d < 4 ∧ (!tableWaits s d) = true) := by
  simp [Places]
theorem execPlacementEvent_places (h : Places s d) : execPlacementEvent d s = .next (placeAll d 97 s) :=
  congrArg _ (if_pos (places_iff.1 h))
theorem execPlacementEvent_idle (h : ¬Places s d) : execPlacementEvent d s = .next s :=
  congrArg _ (if_neg (mt places_iff.2 h))
theorem placementEvent_noneWaits_runs (h : Places s d) (hw : waitingKernels s d = []) : Runs (.placementEvent d) s (fun t => t = s) :=
  runs_eq ((execPlacementEvent_places h).trans (congrArg _ (placeAll_none 96 (by rw [candidates_of_noneWaits hw]; rfl))))
theorem placementEvent_places_runs (h : Places s d) (hc : candidates s d = (key, kn) :: rest)
    (hs : searchCore s d kn (nextGroup kn d).2 = some (core, p)) :
    Runs (.placementEvent d) s (fun t => t = placeAll d 96 (groupPlaced s d key kn core p)) :=
  runs_eq ((execPlacementEvent_places h).trans (congrArg _ (placeAll_placed 96 (hc ▸ placeOne_placed hs))))
theorem placementEvent_noCore_runs {t : Nat} (h : Places s d) (hc : candidates s d = [(key, kn)])
    (hs : searchCore s d kn (nextGroup kn d).2 = none) (hw : sfind kn.waitSince d = some t) : Runs (.placementEvent d) s (fun t => t = s) :=
  runs_eq ((execPlacementEvent_places h).trans (congrArg _ (placeAll_none 96 (hc ▸ placeOne_noCore hs hw))))
end

/-! ## What a group needs of a core (R82, R86, R88) -/

section
variable {α β : Type} {c : Prop} [Decidable c]

/-- A check that ends a search with none has passed where the search finds something. -/
theorem passed_of_some {f : β → Option α} {x : Option α} {a : α} (h : (if c then none.bind f else x) = some a) : ¬c ∧ x = some a := by
  by_cases hc : c
  · rw [if_pos hc] at h; cases h
  · exact ⟨hc, (if_neg hc).symm.trans h⟩
/-- Whichever of two values a search goes on with, it finds its result from that value. -/
theorem either_of_some {f : β → Option α} {x y : Option β} {a : α} (h : (if c then x.bind f else y.bind f) = some a) : ∃ b, f b = some a := by
  obtain ⟨b, -, hb⟩ := Option.bind_eq_some_iff.1 ((apply_ite (Option.bind · f) c x y).trans h)
  exact ⟨b, hb⟩
end

theorem takeBlocks_length {limit : Nat} {held : List Nat} {kept n : Nat} {l : List Nat} (h : takeBlocks limit held kept n = some l) :
    l.length = n := by
  unfold takeBlocks at h
  dsimp only at h
  split at h
  case isTrue hle =>
    cases h
    exact List.length_take_of_le (by omega)
  case isFalse => cases h
/-- The windows found have the sizes asked for. -/
theorem fitWindows_sizes {sizes : List Nat} {wins l : List (Nat × Nat)} (h : fitWindows wins sizes = some l) : l.map (·.2) = sizes := by
  induction sizes generalizing wins l with
  | nil => cases h; rfl
  | cons n sizes ih =>
    unfold fitWindows at h
    split at h
    · cases h
    · obtain ⟨l', hl', rfl⟩ := Option.map_eq_some_iff.1 h
      exact congrArg (n :: ·) (ih hl')
theorem freeStrands_mem {s : State} {core j : Nat} (h : j ∈ freeStrands s core) : j / 3 = core ∧ (s.strand j).status = .empty := by
  obtain ⟨hr, hfree⟩ := List.mem_filter.1 h
  obtain ⟨hlo, hhi⟩ := List.mem_range'_1.1 hr
  obtain ⟨hempty, -⟩ := Bool.and_eq_true_iff.1 hfree
  exact ⟨by omega, eq_of_beq hempty⟩

/-- The strands that a group of m shards takes (R81). -/
def strandsOf (kn : Kernel) (m : Nat) : Nat := if kn.res.trio then 3 else m
/-- A plan gives a group of m shards what it needs, from what is free on a core that takes groups. -/
structure Plan.Meets (p : Plan) (s : State) (kn : Kernel) (m core : Nat) : Prop where
  inService : (s.coreRegs core).fenced = false
  notTested : (s.coreRegs core).testing = false
  notHeldBack : (s.coreRegs core).noNew = none
  keys : p.keys.length = strandsOf kn m
  free : ∀ j ∈ p.keys, j ∈ freeStrands s core
  wins : p.wins.map (·.2) = kn.res.windows (strandsOf kn m)
  share : p.share.length = m * kn.res.tiles
  pages : p.pages.length = m * kn.res.pages
  spad : p.spad.length = m * kn.res.spadKib / 4

theorem length_take_of_not_lt {α : Type} {l : List α} {n : Nat} (h : ¬(l.take n).length < n) : (l.take n).length = n :=
  le_antisymm (List.length_take_le n l) (not_lt.1 h)
/-- What the search for a core finds meets the group's needs. -/
theorem meets_of_fits {s : State} {kn : Kernel} {m core : Nat} {p : Plan} (h : fits s kn m core = some p) : p.Meets s kn m core := by
  unfold fits at h
  dsimp only at h
  obtain ⟨hserves, h⟩ := passed_of_some h
  obtain ⟨hkeys, h⟩ := passed_of_some h
  obtain ⟨wins, hwins, h⟩ := Option.bind_eq_some_iff.1 h
  obtain ⟨htiles, h⟩ := passed_of_some h
  obtain ⟨hpages, h⟩ := passed_of_some h
  obtain ⟨spad, hspad, h⟩ := Option.bind_eq_some_iff.1 h
  obtain ⟨lane, -, h⟩ := Option.bind_eq_some_iff.1 h
  obtain ⟨-, h⟩ := passed_of_some h
  obtain ⟨lend, h⟩ := either_of_some h
  obtain ⟨dsp, h⟩ := either_of_some h
  cases h
  simp only [Bool.or_eq_true, not_or, Bool.not_eq_true, Option.isSome_eq_false_iff, Option.isNone_iff_eq_none] at hserves
  obtain ⟨⟨hfenced, hnew⟩, htesting⟩ := hserves
  exact ⟨hfenced, htesting, hnew, length_take_of_not_lt hkeys, fun j hj => List.mem_of_mem_take hj, fitWindows_sizes hwins,
    length_take_of_not_lt htiles, length_take_of_not_lt hpages, takeBlocks_length hspad⟩

/-! ## State at entry (R38, R97) -/

/-- The x registers at entry that R38 names, and one that it does not. -/
theorem entryRegs_reads (kn : Kernel) (shard m pos : Nat) :
    readX (entryRegs kn shard m pos) 9 = (if kn.res.trio then 1 else BitVec.ofNat 64 m) ∧
    readX (entryRegs kn shard m pos) 10 = kn.record.args ∧ readX (entryRegs kn shard m pos) 11 = BitVec.ofNat 64 shard ∧
    readX (entryRegs kn shard m pos) 18 = (if kn.res.trio then 0 else BitVec.ofNat 64 (pos * kn.res.spadKib * 1024)) ∧
    readX (entryRegs kn shard m pos) 19 = BitVec.ofNat 64 pos ∧ readX (entryRegs kn shard m pos) 31 = 0 := by
  refine ⟨?_, ?_, ?_, ?_, ?_, ?_⟩
  all_goals simp [readX, entryRegs, apply_ite (BitVec.ofNat 64)]

/-- The firmware's registers and EVEC keep what they held. -/
theorem entryStrand_keeps (old : Strand) (kn : Kernel) (pl : Place) (x : Vector Dword 32) (win : Nat × Nat)
    (pt : Option (BitVec 36) × Option Cause) (free : BitVec 36) :
    (entryStrand old kn pl x win pt free).f = old.f ∧ (entryStrand old kn pl x win pt free).e.vec = old.e.vec := by
  simp only [entryStrand, Strand.setSeed, and_self]

/-! ## Backfill (R90) -/

section
variable {s : State} {d : Nat}

/-- The kernels whose group has waited for 1 ms. -/
def longWaiting (s : State) (d : Nat) : List (Nat × Kernel) :=
  (waitingKernels s d).filter (fun p => (sfind p.2.waitSince d).any (fun t => decide (t + 1000000 ≤ s.now)))
/-- The state in which kernels have stopped backfill on a die. -/
def backfillStopped (s : State) (d : Nat) (due : List (Nat × Kernel)) : State :=
  { s with scheds := sput s.scheds d { s.sched d with stops := due.foldl (fun l p => nsInsert l p.1) (s.sched d).stops } }
theorem execBackfillStop_idle (h : longWaiting s d = []) : execBackfillStop d s = .next s :=
  congrArg _ (if_pos (List.isEmpty_iff.2 h))
theorem execBackfillStop_stops (h : longWaiting s d ≠ []) : execBackfillStop d s = .next (backfillStopped s d (longWaiting s d)) :=
  congrArg _ (if_neg (mt List.isEmpty_iff.1 h))
theorem mem_foldl_nsInsert {α : Type} (f : α → Nat) (l : List α) (a : NatSet) (key : Nat) :
    key ∈ l.foldl (fun a p => nsInsert a (f p)) a ↔ key ∈ a ∨ ∃ p ∈ l, f p = key := by
  induction l generalizing a with
  | nil => simp
  | cons p l ih =>
    rw [List.foldl_cons, ih, mem_nsInsert, List.exists_mem_cons_iff]
    tauto
theorem backfillStopped_sched (due : List (Nat × Kernel)) : (backfillStopped s d due).sched d =
    { s.sched d with stops := due.foldl (fun l p => nsInsert l p.1) (s.sched d).stops } := sget_sput_self _ _ _ _
theorem backfillStop_runs (h : longWaiting s d ≠ []) : Runs (.backfillStop d) s (fun t =>
    { t with scheds := s.scheds } = s ∧ (∀ c, c ≠ d → t.sched c = s.sched c) ∧ (t.sched d).next = (s.sched d).next ∧
    ∀ key, key ∈ (t.sched d).stops ↔ key ∈ (s.sched d).stops ∨ ∃ p ∈ longWaiting s d, p.1 = key) := by
  refine ⟨_, execBackfillStop_stops h, rfl, fun c hc => sget_sput_of_ne _ _ _ hc, ?_, fun key => ?_⟩
  · rw [backfillStopped_sched]
  · rw [backfillStopped_sched]
    exact mem_foldl_nsInsert Prod.fst _ _ key
end

/-! ## Grants and page moves (R94 to R96) -/

section
variable {s : State} {core page : Nat} {second : Bool} {v : Word}

/-- A core's control block with one grant register written. -/
def grantRegs (page : Nat) (second : Bool) (v : Word) (c : CoreRegs) : CoreRegs :=
  if second then { c with spgrb := c.spgrb.setIfInBounds page v } else { c with spgra := c.spgra.setIfInBounds page v }
theorem grantRegs_reads (h : page < 8) (c : CoreRegs) :
    (grantRegs page second v c).spgra.getD page 0 = (if second then c.spgra.getD page 0 else v) ∧
    (grantRegs page second v c).spgrb.getD page 0 = (if second then v else c.spgrb.getD page 0) := by
  have written (u : Vector Word 8) : (u.setIfInBounds page v).getD page 0 = v := (vector_getD_setIfInBounds u h v 0 page).trans (if_pos rfl)
  cases second
  · exact ⟨written c.spgra, rfl⟩
  · exact ⟨rfl, written c.spgrb⟩
/-- What a write of a grant register does to a placed configuration: it may go stale. -/
def grantMarks (s : State) (core page : Nat) (second : Bool) (v : Word) (key : Nat) (c : Conf) : Conf :=
  let t := s.updCore core (grantRegs page second v)
  if confCore key = core ∧ c.wires.any (fun w => (w.path.drop 1).any (fun l => linkPage l == page)) ∧ foreignPage t core c.group page ∧
      hasGrant s core page (confAsid key) ∧ !hasGrant t core page (confAsid key) then
    { c with stale := true }
  else c
theorem grantWrite_eq : grantWrite s core page second v =
    { s.updCore core (grantRegs page second v) with confs := s.confs.map (fun q => (q.1, grantMarks s core page second v q.1 q.2)) } := by
  have entry (q : Nat × Conf) : (q.1, grantMarks s core page second v q.1 q.2) = _ := apply_ite (Prod.mk q.1) _ _ _
  simp only [entry]
  rfl
theorem execSpiracleGrantWrite_writes (hc : core < 128) (hp : page < 8) :
    execSpiracleGrantWrite core page second v s = .next (grantWrite s core page second v) := congrArg _ (if_pos ⟨hc, hp⟩)
/-- Nothing but its mark changes. -/
theorem grantMarks_stale (key : Nat) (c : Conf) :
    grantMarks s core page second v key c = { c with stale := (grantMarks s core page second v key c).stale } := by
  unfold grantMarks
  dsimp only
  split <;> rfl
theorem spiracleGrantWrite_idle_runs (h : 128 ≤ core ∨ 8 ≤ page) : Runs (.spiracleGrantWrite core page second v) s (fun t => t = s) :=
  runs_eq (congrArg _ (if_neg (by omega)))
theorem spiracleGrantWrite_runs (hc : core < 128) (hp : page < 8) : Runs (.spiracleGrantWrite core page second v) s (fun t =>
    (t.coreRegs core).spgra.getD page 0 = (if second then (s.coreRegs core).spgra.getD page 0 else v) ∧
    (t.coreRegs core).spgrb.getD page 0 = (if second then v else (s.coreRegs core).spgrb.getD page 0) ∧
    (∀ n, n ≠ core → t.coreRegs n = s.coreRegs n) ∧ { t with cores := s.cores, confs := s.confs } = s ∧
    ∀ key, sfind t.confs key = (sfind s.confs key).map (fun c => { c with stale := ((sfind t.confs key).map (·.stale)).getD c.stale })) := by
  obtain ⟨hregs, hothers⟩ := updCore_becomes s core (grantRegs page second v)
  obtain ⟨ha, hb⟩ := grantRegs_reads (second := second) (v := v) hp (s.coreRegs core)
  refine ⟨_, (execSpiracleGrantWrite_writes hc hp).trans (congrArg _ grantWrite_eq), (congrArg (·.spgra.getD page 0) hregs).trans ha,
    (congrArg (·.spgrb.getD page 0) hregs).trans hb, hothers, rfl, fun key => ?_⟩
  simp only [sfind_map (grantMarks s core page second v)]
  cases sfind s.confs key with
  | none => rfl
  | some c => exact congrArg some (grantMarks_stale key c)
end

/-- A page move ends where a configuration of the binding moves, and nothing else does. -/
theorem pageMoveEnd_runs (s : State) (core asid slot : Nat) :
    let b := bindKey core (BitVec.ofNat 16 asid) (slot % 32)
    ((∃ c ∈ bindConfs s b, c.moving ≠ []) → Runs (.pageMoveEnd core asid slot) s (fun t => t =
      { s with confs := s.confs.map (fun (q : Nat × Conf) => if q.1 % 2 ^ 28 = b then (q.1, { q.2 with moving := [] }) else q)
               effects := s.effects ++ [Turn.place (core / 32)] })) ∧
    ((∀ c ∈ bindConfs s b, c.moving = []) → Runs (.pageMoveEnd core asid slot) s (fun t => t = s)) := by
  intro b
  have still : (bindConfs s b).all (fun c => c.moving.isEmpty) = true ↔ ∀ c ∈ bindConfs s b, c.moving = [] := by simp
  refine ⟨fun ⟨c, hc, hm⟩ => runs_eq (congrArg _ (if_neg fun h => ?_)), fun h => runs_eq (congrArg _ (if_pos (still.2 h)))⟩
  exact hm (still.1 h c hc)

/-! ## The end of a strand (R501, R502) -/

section
variable {s t : State} {k : Nat}

/-- From s to t a strand that holds no work does not take any up. -/
def StaysEmpty (k : Nat) (s t : State) : Prop := (s.strand k).status = .empty → (t.strand k).status = .empty
theorem StaysEmpty.of_strands (h : t.strands = s.strands) : StaysEmpty k s t := fun he => by rwa [State.strand, h]
theorem StaysEmpty.upd (j : Nat) (f : Strand → Strand) (hf : ∀ p : Strand, p.status = .empty → (f p).status = .empty) :
    StaysEmpty k s (s.upd j f) := fun he => by
  rw [State.strand_upd]
  split
  · subst_vars; exact hf _ he
  · exact he
theorem StaysEmpty.foldl {α : Type} (f : State → α → State) (h : ∀ s a, StaysEmpty k s (f s a)) (l : List α) (s : State) :
    StaysEmpty k s (l.foldl f s) := by
  induction l generalizing s with
  | nil => exact id
  | cons a l ih => exact fun he => ih _ (h s a he)

theorem givesBack_strands (g : Group) (s : State) : (givesBack g s).strands = s.strands := by
  unfold givesBack
  dsimp only
  split <;> rfl
theorem restsCore_strands (core : Nat) (s : State) : (restsCore core s).strands = s.strands := by
  unfold restsCore
  split <;> rfl
theorem countShard_strands (s : State) (kernel : Nat) : (countShard s kernel).strands = s.strands := by
  unfold countShard
  split <;> rfl
theorem groupGone_staysEmpty (s : State) (gk : Nat) (g : Group) : StaysEmpty k s (groupGone s gk g) := fun he =>
  StaysEmpty.foldl _ (fun _ j => StaysEmpty.upd j _ (fun _ _ => rfl)) g.keys (evictGroup { s with groups := sdel s.groups gk } gk) he
theorem retireGroup_staysEmpty (s : State) (gk : Nat) : StaysEmpty k s (retireGroup s gk) := by
  intro he
  obtain hg | ⟨g, hg⟩ := Option.eq_none_or_eq_some (sfind s.groups gk)
  · rw [retireGroup, hg]
    exact he
  · rw [retireGroup_eq hg]
    exact StaysEmpty.of_strands (s := groupGone s gk g) ((restsCore_strands _ _).trans (givesBack_strands _ _)) (groupGone_staysEmpty s gk g he)
/-- The state in which a strand has no work any more, before its shard retires. -/
def partEnded (s : State) (k : Nat) : State :=
  s.upd k (fun t => { t with status := .empty, ending := false, wait := {}, hold := none, links := [], watch := [] })
theorem partEnded_empty (s : State) (k : Nat) : ((partEnded s k).strand k).status = .empty :=
  congrArg Strand.status (State.strand_upd_self s k _)
/-- The state in which a strand's shard has retired, with the group still there. -/
def shardRetired (s : State) (k : Nat) (pl : Place) (g : Group) : State :=
  let t := releaseTiles s (s.shardKey k)
  countShard { t with groups := sput t.groups pl.group { g with live := nsErase g.live (if g.trio then 0 else pl.pos) } } g.kernel
theorem shardRetired_strands (s : State) (k : Nat) (pl : Place) (g : Group) : (shardRetired s k pl g).strands = s.strands :=
  countShard_strands _ _
/-- What the end of a strand's part can lead to: nothing more, its shard's retirement, or its group's too. -/
theorem strandEnded_cases (s : State) (k : Nat) : strandEnded s k = partEnded s k ∨
    ∃ pl g, strandEnded s k = shardRetired (partEnded s k) k pl g ∨
      strandEnded s k = retireGroup (shardRetired (partEnded s k) k pl g) pl.group := by
  unfold strandEnded
  dsimp only
  split
  case h_1 => exact .inl rfl
  case h_2 pl _ =>
    split
    case h_1 => exact .inl rfl
    case h_2 g _ =>
      split
      case isTrue => exact .inl rfl
      case isFalse => exact .inr ⟨pl, g, (ite_eq_or_eq _ _ _).symm⟩
/-- A strand that has ended its part holds no work. -/
theorem strandEnded_empty (s : State) (k : Nat) : ((strandEnded s k).strand k).status = .empty := by
  have retired (pl : Place) (g : Group) : ((shardRetired (partEnded s k) k pl g).strand k).status = .empty :=
    StaysEmpty.of_strands (shardRetired_strands _ _ _ _) (partEnded_empty s k)
  obtain h | ⟨pl, g, h | h⟩ := strandEnded_cases s k
  · rw [h]; exact partEnded_empty s k
  · rw [h]; exact retired pl g
  · rw [h]; exact retireGroup_staysEmpty _ _ (retired pl g)

/-- A strand at the end of its part goes on: no barrier arrival keeps it waiting, it has work, and its core is not halted. -/
def Ends (s : State) (k : Nat) : Prop :=
  (s.strand k).ending = true ∧ arrivalWaits s k = false ∧ ((s.strand k).status = .running ∨ (s.strand k).status = .stopping) ∧
    (s.coreRegs (k / 3)).halted = false
theorem ends_iff : Ends s k ↔ ¬((!(s.strand k).ending) = true ∨ arrivalWaits s k = true ∨
    ((s.strand k).status ≠ .running ∧ (s.strand k).status ≠ .stopping) ∨ (s.coreRegs (coreOf k)).halted = true) := by
  simp [Ends, coreOf, or_iff_not_imp_left]
theorem transfersLeft_iff (p : Strand) : p.chan.toList.any (fun c => !c.pending.isEmpty) = true ↔ ∃ c ∈ p.chan.toList, c.pending ≠ [] := by
  simp only [List.any_eq_true, Bool.not_eq_true', List.isEmpty_eq_false_iff, ne_eq]
/-- A trap at the ending instruction. -/
def endTrapped (k : Nat) (u : State) (x : TrapInfo) : State := takeTrap (u.upd k (fun q => { q with ending := false })) k x
theorem execStrandEnd_idle (h : ¬Ends s k) : execStrandEnd k s = .next s := congrArg _ (if_pos (not_not.1 (mt ends_iff.2 h)))
theorem execStrandEnd_held {id : BitVec 32} {a : Dword} (h : Ends s k) (hc : heldChannel (s.strand k) = some (id, a)) :
    execStrandEnd k s = .next (endTrapped k { s with actor := .strand k } ⟨.copyFault, a, id.toNat⟩) := by
  simp only [execStrandEnd, if_neg (ends_iff.1 h), hc]
  rfl
theorem execStrandEnd_transfersLeft (h : Ends s k) (hc : heldChannel (s.strand k) = none)
    (hp : ∃ c ∈ (s.strand k).chan.toList, c.pending ≠ []) : execStrandEnd k s = .next s := by
  simp only [execStrandEnd, if_neg (ends_iff.1 h), hc, if_pos ((transfersLeft_iff _).2 hp)]

/-- Nothing but its cocoons keeps the strand from its end. -/
def Unmaps (s : State) (k : Nat) : Prop :=
  Ends s k ∧ heldChannel (s.strand k) = none ∧ ∀ c ∈ (s.strand k).chan.toList, c.pending = []
/-- How a strand goes on once its cocoons have been written back, or could not be. -/
def afterUnmap (k : Nat) : EStateM.Result Stop State Unit → State
  | .ok _ u => strandEnded (endEffects u k) k
  | .error (.trap x) u => endTrapped k u x
  | .error .wait u => u
theorem execStrandEnd_unmaps (h : Unmaps s k) : execStrandEnd k s = .next (afterUnmap k (unmapAll k { s with actor := .strand k })) := by
  obtain ⟨hends, hc, hp⟩ := h
  have none_left := mt (transfersLeft_iff (s.strand k)).1 (by simpa using hp)
  simp only [execStrandEnd, if_neg (ends_iff.1 hends), hc, if_neg none_left]
  rfl
theorem execStrandEnd_unmapped {r : EStateM.Result Stop State Unit} (h : Unmaps s k) (hr : unmapAll k { s with actor := .strand k } = r) :
    execStrandEnd k s = .next (afterUnmap k r) := by rw [execStrandEnd_unmaps h, hr]
theorem strandEnd_ends_runs {z : Unit} {u : State} (h : Unmaps s k) (hr : unmapAll k { s with actor := .strand k } = .ok z u) :
    Runs (.strandEnd k) s (fun t => t = strandEnded (endEffects u k) k ∧ (t.strand k).status = .empty) :=
  ⟨_, execStrandEnd_unmapped h hr, rfl, strandEnded_empty _ _⟩
end

/-! ## The statement -/

/-- Settles O49: each clause is what the lemmas above say of the scheduler, the plan, the strand at entry, the grants or the ending. -/
theorem placementEvents : Obligations.PlacementEvents := by
  unfold Obligations.PlacementEvents
  intro s d k Does order stopped
  refine ⟨fun h => runs_eq (execPlacementEvent_idle ?_), fun hdie hd hw => ?places, fun kn m core p h => ?fits,
    fun old kn pl m win pt free => ?entry, ⟨fun h => runs_eq (execBackfillStop_idle h), backfillStop_runs⟩,
    fun core page second v => ⟨spiracleGrantWrite_idle_runs, spiracleGrantWrite_runs⟩, pageMoveEnd_runs s, ?strandEnd⟩
  · rintro ⟨hdie, hd, hw⟩
    exact h.elim (· ⟨hdie, hd⟩) (fun ht => Bool.false_ne_true (hw.symm.trans ht))
  case places =>
    have due : Places s d := ⟨hdie, hd, hw⟩
    refine ⟨placementEvent_noneWaits_runs due, fun key kn rest hc =>
      ⟨fun core p hs => placementEvent_places_runs due hc hs, fun hs hrest t ht => ?_⟩⟩
    subst hrest
    exact placementEvent_noCore_runs due hc hs ht
  case fits =>
    have meets := meets_of_fits h
    exact ⟨meets.keys, fun j hj => freeStrands_mem (meets.free j hj), meets.share, meets.pages, meets.spad, meets.wins, meets.inService,
      meets.notTested, meets.notHeldBack⟩
  case entry =>
    obtain ⟨hshards, hargs, hshard, hpart, hpos, hrest⟩ := entryRegs_reads kn pl.shard m pl.pos
    exact ⟨rfl, rfl, rfl, rfl, rfl, rfl, rfl, rfl, rfl, hargs, hshard, hpos, hrest, hshards, hpart, entryStrand_keeps old kn pl _ win pt free⟩
  case strandEnd =>
    refine ⟨fun h => runs_eq (execStrandEnd_idle h), fun h id a hc => runs_eq (execStrandEnd_held h hc), fun h hc =>
      ⟨fun hp => runs_eq (execStrandEnd_transfersLeft h hc hp), fun hp => ?_⟩⟩
    have unmaps : Unmaps s k := ⟨h, hc, hp⟩
    exact ⟨fun z u => strandEnd_ends_runs unmaps, fun u hr => runs_eq (execStrandEnd_unmapped unmaps hr),
      fun x u hr => runs_eq (execStrandEnd_unmapped unmaps hr)⟩

end Sys2Proof.Machine
end

section
/-! Words and instructions (R102 to R111): the statements DecodeEncode and DecodeWords. -/

namespace Sys2Proof.Laws.RoundTrip

/-- Decoding undoes encoding: the law of each row of the table, in the order of the rows. -/
theorem statement_all : ∀ i : Instr, Statement i :=
  @Instr.rec Statement
    ill xcall fcall brk eret uiret wfe tlbinvPage tlbinvAsid tlbinvAll cwbCore cwbDie cwbDevice cwbImage halt add sub and or xor andn orn sll srl
    sra rotl rotr slt sltn min max minn maxn mul mulh mulhn div divn rem remn clz ctz popc bswap addi andi ori xori slti sltni sllI srlI sraI
    rotrI lui auipc ld8 ld8s ld16 ld16s ld32 ld32s ld64 st8 st16 st32 st64 ldacq strel amoswap amoadd amoand amoor amoxor amomin amomax amominn
    amomaxn amocas ldf ldc stf beq bne blt bge bltn bgen jl jlr fadd fsub fmul fdiv fsqrt fmadd fmin fmax fneg fabs fcmpeq fcmplt fcmple fclass
    fcvtfi fcvtif fcvtff mfs mts sset sclr tloop vsetl vsetlx vloop vlend vbreak vdecl vundecl vslip vld vlds vldq vldqk vldb vldf vldp4 vst vsts
    vstn vstsn vstf vstq vgat vsca vgatw vgl vscc vamoadd vamoand vamoor vamoxor vamomin vamomax vamominn vamomaxn vamoswap vamofadd vwait vadd
    vsub vrsub vmul vmulh vmulhn vdiv vdivn vrem vremn vmin vmax vminn vmaxn vand vor vxor vsll vsrl vsra vadds vsubs vaddsn vsubsn vmacc vnmsac
    vwmul vnsrl vfadd vfsub vfmul vfdiv vfsqrt vfrsqe vfexp2 vfmadd vfnmadd vfmsub vfmin vfmax vfabs vfneg vfsgnj vfclass vcvtf64 vcvtf32 vcvtf16
    vcvtbf16 vcvte4m3 vcvte5m2 vcvte4m3s vcvte5m2s vcvti8 vcvti16 vcvti32 vcvti64 vcvtfi vqnt vdeq vmxq vmxd vslup vsldn vrot vperm vbcast vmvxs
    vmvsx vzip vunzip vrev vmerge vmv vcompress vexpand vpopx vconf vsscan vsscanmax vfsscan vfirst vcpop viota vblklist vredsum vredmax vredmin
    vredmaxn vredminn vredand vredor vredxor vfredo vfredt vfredmax vfredmin vtopk vtopkm vmseq vmsne vmslt vmsltn vmsle vmslen vmfeq vmflt vmfle
    vmfnan vmand vmor vmxor vmandn vmnot vmmv vmmvc vmfromx vmtox tclaim tfree tzero trdrow trdcol twrrow twrcol tstat tmop tmopMs qcfg qpush qpop
    qwait qzf ccmap ccunmap ccflush ccstat fx fxC fxbind fxunbind fxstat fxquery fxpin fxunpin recv send sendE steer merge prime tokw toks lpeek
    cpy1d cpybox cpyfill cwait cstat cpyarm fence barinit barrive barwait barpoll hbeat uien uidis yield tspawn trun tdone tfut tfset tfwait tqcfg
    sfarm spub sspawn sstat sabort sqinit sqtab sqadd sqgo sqstat sqend doorbellWrite qcmdEnable qcmdDisable qcmdReset registerWrite
    quantumBoundary slotLoadComplete recordAccept imageCheck depWatchReevaluate depPoll kernelCompletion placementEvent backfillStop
    spiracleGrantWrite pageMoveEnd pageContextLoadComplete blockFetchComplete flitTransfer streamInputDelivery streamOutputTake invocationComplete
    fabricStop fabricDeadlock homeRead registration l1Eviction l2Eviction sectorFill cocoonFill requestResend memTimeout snoopInvalidate snoopData
    hostHdmRequest poolShelfFailure lostRangeWithdraw transferComplete transferFault linkedPhaseSeen uiDelivery wfeTimeout vwaitWatchMet
    tileZeroComplete scmdPreempt preemptSaveComplete scmdRestore taskReady trunTimeout forecastDecision sqStageLaunch sqStageComplete sqDecision
    heartbeatExpire runtimeExpire executiveWatchdog kcmdResume kcmdEnd kcmdCancel kcmdFault dbgctlHalt dbgctlResume debugSettleTimeout dbgdloRead
    dbgdloWrite dbgdhiWrite strandEnd resetDeassertion bootStageComplete devctlReady atsResponse priResponse atsInvalidation linkFlitReceive
    linkRetrain getVersion getCapabilities negotiateAlgorithms getDigests getCertificate challenge getMeasurements correctedError
    uncorrectableError coreFence dieFence selfTestPreempt clockLower clockRaise thermalShutdown notAnInstruction portLost portReturn noNewGroup
    selfTestComplete
end Sys2Proof.Laws.RoundTrip

namespace Sys2Proof.Machine
open Sys2Proof

/-- Settles O57: the word of every row of the table reads back as its instruction. -/
theorem decodeEncode : Obligations.DecodeEncode := Laws.RoundTrip.statement_all

/-- Settles O56: each word evaluates to its instruction, or to the check of R111 that refuses it. -/
theorem decodeWords : Obligations.DecodeWords :=
  ⟨rfl, rfl, rfl, rfl, rfl, rfl, rfl, rfl, rfl, rfl, rfl, rfl, rfl, rfl, rfl, rfl, rfl, rfl, rfl, rfl, rfl, rfl, rfl, rfl, rfl, rfl⟩

end Sys2Proof.Machine
end

section
/-! A step fetches and executes (R98, R101, R511): the counterexample to the statement StepRunsDecoded. -/

namespace Sys2Proof.Machine
open Sys2Proof

/-- Strand 0 at user level, about to fetch from a page that lies in the memory of another device (bits [51:44] of the physical address
are 1). The instruction cache holds the word, and the port of the route is in service, but a flit of it is being replayed. -/
def fetchesBehindLink : State :=
  { strands := [(0, { status := .running, pc := 4 })]
    tlb := [{ core := 0, asid := 0, vbase := 0, size := 4096, pbase := 2 ^ 44, cls := .n, cp := false, pr := false
              r := true, w := true, x := true, u := true, dirty := true }]
    icache := [(ckey 0 (2 ^ 42 + 1), 0)]
    dev := { facc := 0x80, portsUp := 1, dlroute := [(1, 0x80000001)], linkPorts := [(0, { naks := 1 })] } }

/-- The fetch goes over the link and waits for the port (R511), whatever the instruction cache holds. -/
theorem fetchWord_fetchesBehindLink : ∃ u, fetchWord ((issues fetchesBehindLink 0).upd 0 (·.leaveRecord)) = .error .wait u := ⟨_, rfl⟩

/-- Refutes O58: a word that the instruction cache holds is not always what a fetch answers, in the state that it finds. The statement
asks only that the translated address be reachable; where it lies in another device, the fetch goes over a link (R511), and it waits there
while a flit of the port is being replayed. -/
theorem not_stepRunsDecoded : ¬ Obligations.StepRunsDecoded := by
  unfold Obligations.StepRunsDecoded
  intro h
  obtain ⟨hstrand, -, -, -⟩ := h fetchesBehindLink 0 .ill rfl
  obtain ⟨-, hfetch⟩ := hstrand 0 rfl rfl (by decide) (by decide)
  obtain ⟨-, -, -, -, hhit⟩ := hfetch (by decide)
  obtain ⟨hcached, -⟩ := hhit _ (fun _ => rfl) rfl rfl (by decide) (by decide) rfl rfl rfl rfl rfl (by decide)
  obtain ⟨u, hwaits⟩ := fetchWord_fetchesBehindLink
  exact nomatch hwaits.symm.trans (hcached rfl)

end Sys2Proof.Machine
end

section
/-! The special registers (R115, R478, R479): lemmas for the statement SpecialStorage, and its proof. -/

namespace Sys2Proof.Machine
open Sys2Proof

/-! ## Fields of a value written -/

theorem low_toNat (w : Nat) (v : Dword) : (low w v).toNat = v.toNat % 2 ^ w := by simp [low]
theorem low_mask (w : Nat) (v : Dword) (hw : w ≤ 64 := by decide) : (low w v).zeroExtend 64 = v &&& BitVec.ofNat 64 (2 ^ w - 1) := by
  have hpow : 2 ^ w ≤ 2 ^ 64 := Nat.pow_le_pow_right (by decide) hw
  apply BitVec.eq_of_toNat_eq
  rw [BitVec.toNat_and, BitVec.toNat_ofNat, Nat.mod_eq_of_lt (by omega), Nat.and_two_pow_sub_one_eq_mod, ← low_toNat]
  exact BitVec.toNat_setWidth_of_le hw
theorem and_whole (v : Dword) : v = v &&& 0xFFFFFFFFFFFFFFFF := BitVec.and_allOnes.symm
/-- A value is its bits from n up over those below. -/
theorem bits_append (m n : Nat) (v : BitVec (m + n)) : v.extractLsb' n m ++ v.extractLsb' 0 n = v := by
  rw [BitVec.extractLsb'_append_extractLsb'_eq_extractLsb' (by omega)]; simp
theorem high_field (m n : Nat) (v : BitVec (m + n)) : v.extractLsb' n m ++ (0 : BitVec n) = v &&& (BitVec.allOnes m ++ (0 : BitVec n)) := by
  conv_rhs => rw [← bits_append m n v, BitVec.and_append, BitVec.and_allOnes]
  simp
theorem target_field (v : Dword) : v.extractLsb' 2 62 ++ (0 : BitVec 2) = v &&& 0xFFFFFFFFFFFFFFFC := high_field 62 2 v
theorem base_field (v : Dword) : v.extractLsb' 8 56 ++ (0 : BitVec 8) = v &&& 0xFFFFFFFFFFFFFF00 := high_field 56 8 v
theorem mask_field (v : Dword) : (~~~(0 : BitVec 58)) ++ low 6 v = v ||| 0xFFFFFFFFFFFFFFC0 := by
  conv_rhs => rw [show v = v.extractLsb' 6 58 ++ low 6 v from (bits_append 58 6 v).symm,
    show (0xFFFFFFFFFFFFFFC0 : Dword) = BitVec.allOnes 58 ++ (0 : BitVec 6) from rfl, BitVec.or_append, BitVec.or_allOnes]
  simp
theorem geom_field (v : Dword) : (0 : BitVec 48) ++ v.extractLsb' 8 8 ++ (0 : BitVec 4) ++ low 4 v = v &&& 0xFF0F := by
  conv_rhs => rw [show v = v.extractLsb' 16 48 ++ v.extractLsb' 8 8 ++ v.extractLsb' 4 4 ++ low 4 v from by
      rw [low, BitVec.extractLsb'_append_extractLsb'_eq_extractLsb' (by rfl), BitVec.extractLsb'_append_extractLsb'_eq_extractLsb' (by rfl),
        BitVec.extractLsb'_append_extractLsb'_eq_extractLsb' (by rfl)]
      simp,
    show (0xFF0F : Dword) = (0 : BitVec 48) ++ BitVec.allOnes 8 ++ (0 : BitVec 4) ++ BitVec.allOnes 4 from rfl, BitVec.and_append, BitVec.and_append,
    BitVec.and_append, BitVec.and_allOnes, BitVec.and_allOnes]
  simp
theorem ptbase_field (v : Dword) : (0 : BitVec 12) ++ v.extractLsb' 16 36 ++ (0 : BitVec 16) = v &&& 0xFFFFFFFFF0000 := by
  conv_rhs => rw [show v = v.extractLsb' 52 12 ++ v.extractLsb' 16 36 ++ low 16 v from by
      rw [low, BitVec.extractLsb'_append_extractLsb'_eq_extractLsb' (by rfl), BitVec.extractLsb'_append_extractLsb'_eq_extractLsb' (by rfl)]; simp,
    show (0xFFFFFFFFF0000 : Dword) = (0 : BitVec 12) ++ BitVec.allOnes 36 ++ (0 : BitVec 16) from rfl, BitVec.and_append, BitVec.and_append,
    BitVec.and_allOnes]
  simp
theorem low_one (v : Dword) : low 1 v = bit1 (v.getLsbD 0) := by
  rw [low, bit1]; apply BitVec.eq_of_getLsbD_eq; intro i hi; obtain rfl : i = 0 := by omega
  simp
theorem low_two (v : Dword) : low 2 v = bit1 (v.getLsbD 1) ++ bit1 (v.getLsbD 0) := by
  rw [low, bit1, bit1]; apply BitVec.eq_of_getLsbD_eq; intro i hi
  rw [BitVec.getLsbD_extractLsb', BitVec.getLsbD_append]
  interval_cases i <;> simp
theorem zero_append {w : Nat} (u : Nat) (x : BitVec w) : (0 : BitVec u) ++ x = x.zeroExtend (u + w) := by
  apply BitVec.eq_of_toNat_eq
  rw [BitVec.toNat_append, BitVec.zeroExtend_eq_setWidth, BitVec.toNat_setWidth_of_le (by omega)]; simp
theorem hold_field (v : Dword) : (0 : BitVec 63) ++ bit1 (v.getLsbD 0) = v &&& 1 := by
  rw [← low_one]
  exact (zero_append 63 _).trans (low_mask 1 v)
theorem debug_field (v : Dword) : (0 : BitVec 62) ++ bit1 (v.getLsbD 1) ++ bit1 (v.getLsbD 0) = v &&& 3 := by
  rw [← show _ = v &&& 3 from low_mask 2 v, low_two]
  apply BitVec.eq_of_toNat_eq
  rw [BitVec.zeroExtend_eq_setWidth, BitVec.toNat_setWidth_of_le (by decide), BitVec.toNat_append, BitVec.toNat_append, BitVec.toNat_append]; simp

/-! ## The registers that keep what is written -/

/-- What reads of the registers of plainSpecials give, in the order of that list, as the strand holds it. -/
def plainFields (k : Nat) (p : Strand) : List Dword :=
  [p.vslip.zeroExtend 64, p.fflags.zeroExtend 64, p.frm.zeroExtend 64, p.srseed, p.strandid.getD (BitVec.ofNat 64 (strandNo k)),
   p.tstep.zeroExtend 64, p.pwaddr, p.fxidx[0].zeroExtend 64, p.fxidx[1].zeroExtend 64, p.fxidx[2].zeroExtend 64, p.fxidx[3].zeroExtend 64,
   p.ui.pend.zeroExtend 64, p.ui.pc, p.cpyDone[0].zeroExtend 64, p.cpyDone[1].zeroExtend 64, p.cpyDone[2].zeroExtend 64,
   p.cpyDone[3].zeroExtend 64, p.cpyNext[0].zeroExtend 64, p.cpyNext[1].zeroExtend 64, p.cpyNext[2].zeroExtend 64, p.cpyNext[3].zeroExtend 64,
   p.tlc[0], p.tlc[1], p.tlc[2], p.tlc[3], p.e.epc, p.e.cause.zeroExtend 64, p.e.addr, p.e.elem.zeroExtend 64, p.e.vec ++ (0 : BitVec 2),
   p.e.scratch, p.e.chainPc[0], p.e.chainPc[1], p.e.chainPc[2], p.e.chainPc[3], p.e.chainSt[0], p.e.chainSt[1], p.e.chainSt[2],
   p.e.chainSt[3], p.e.asid.zeroExtend 64, (0 : BitVec 12) ++ p.e.ptbase ++ (0 : BitVec 16), p.e.vwin.zeroExtend 64,
   (0 : BitVec 63) ++ bit1 p.e.kwdHold, p.f.pc, p.f.cause.zeroExtend 64, p.f.addr, p.f.elem.zeroExtend 64, p.f.vec ++ (0 : BitVec 2),
   p.f.scratch, (0 : BitVec 62) ++ bit1 p.f.brkhalt ++ bit1 p.f.dbgen, p.f.fewd.zeroExtend 64]
/-- What no write of a special register changes. -/
def Strand.Keeps (p q : Strand) : Prop := q.x = p.x ∧ q.pc = p.pc ∧ q.level = p.level ∧ q.m = p.m ∧ q.cm = p.cm

theorem plainFields_fxidx (k : Nat) (p : Strand) (j : Fin 4) (x : Word) :
    plainFields k { p with fxidx := p.fxidx.set j x } = (plainFields k p).set (7 + j) (x.zeroExtend 64) := by
  fin_cases j <;> simp [plainFields]
theorem plainFields_cpyDone (k : Nat) (p : Strand) (j : Fin 4) (x : Word) :
    plainFields k { p with cpyDone := p.cpyDone.set j x } = (plainFields k p).set (13 + j) (x.zeroExtend 64) := by
  fin_cases j <;> simp [plainFields]
theorem plainFields_cpyNext (k : Nat) (p : Strand) (j : Fin 4) (x : Word) :
    plainFields k { p with cpyNext := p.cpyNext.set j x } = (plainFields k p).set (17 + j) (x.zeroExtend 64) := by
  fin_cases j <;> simp [plainFields]
theorem plainFields_tlc (k : Nat) (p : Strand) (j : Fin 4) (x : Dword) :
    plainFields k { p with tlc := p.tlc.set j x } = (plainFields k p).set (21 + j) x := by
  fin_cases j <;> simp [plainFields]
theorem plainFields_chainPc (k : Nat) (p : Strand) (j : Fin 4) (x : Dword) :
    plainFields k { p with e := { p.e with chainPc := p.e.chainPc.set j x } } = (plainFields k p).set (31 + j) x := by
  fin_cases j <;> simp [plainFields]
theorem plainFields_chainSt (k : Nat) (p : Strand) (j : Fin 4) (x : Dword) :
    plainFields k { p with e := { p.e with chainSt := p.e.chainSt.set j x } } = (plainFields k p).set (35 + j) x := by
  fin_cases j <;> simp [plainFields]

theorem sprReads_plain (s : State) (k : Nat) : plainSpecials.map (fun q => sprRead s k q.1) = (plainFields k (s.strand k)).map some := rfl
theorem sprRead_plain {i : Nat} {q : BitVec 12 × Dword} (h : plainSpecials[i]? = some q) (s : State) (k : Nat) :
    sprRead s k q.1 = (plainFields k (s.strand k))[i]? := by
  have hi := congrArg (·[i]?) (sprReads_plain s k)
  simp only [List.getElem?_map, h, Option.map_some] at hi
  obtain ⟨d, hd, hq⟩ := Option.map_eq_some_iff.1 hi.symm
  rw [hd, hq]

section
variable {s : State} {k : Nat} {v : Dword} {n : BitVec 12} {f : Strand → Strand}

/-- Where a write changes field i at most, the registers of other numbers read as before. -/
theorem sprReads_others {i : Nat} {x : Dword} (hn : (plainSpecials.map (·.1))[i]? = some n)
    (hf : plainFields k (f (s.strand k)) = (plainFields k (s.strand k)).set i x) :
    ∀ q ∈ plainSpecials, q.1 ≠ n → sprRead (s.upd k f) k q.1 = sprRead s k q.1 := by
  intro q hq hne
  obtain ⟨j, hj⟩ := List.mem_iff_getElem?.1 hq
  have hij : i ≠ j := by
    rintro rfl
    rw [List.getElem?_map, hj] at hn
    exact hne (Option.some.inj hn)
  rw [sprRead_plain hj, sprRead_plain hj, State.strand_upd_self, hf, List.getElem?_set_ne hij]
/-- Where it changes none, all of them do. -/
theorem sprReads_all (hf : plainFields k (f (s.strand k)) = plainFields k (s.strand k)) :
    ∀ q ∈ plainSpecials, q.1 ≠ n → sprRead (s.upd k f) k q.1 = sprRead s k q.1 := by
  intro q hq _
  obtain ⟨j, hj⟩ := List.mem_iff_getElem?.1 hq
  rw [sprRead_plain hj, sprRead_plain hj, State.strand_upd_self, hf]

/-- A register keeps the fields of what is written and nothing else changes. -/
def KeepsFields (s : State) (k : Nat) (v : Dword) (nm : BitVec 12 × Dword) : Prop :=
  let t := sprWrite s k nm.1 v
  sprRead t k nm.1 = some (v &&& nm.2) ∧ (∀ q ∈ plainSpecials, q.1 ≠ nm.1 → sprRead t k q.1 = sprRead s k q.1) ∧
  (t.strand k).x = (s.strand k).x ∧ (t.strand k).pc = (s.strand k).pc ∧ (t.strand k).level = (s.strand k).level ∧ StrandBecomes s k (t.strand k) t

/-- Register i does when its write puts x, the fields of what is written, into field i. -/
theorem plain_row (i : Nat) {x mask : Dword} (hw : sprWrite s k n v = s.upd k f) (hx : x = v &&& mask)
    (hf : plainFields k (f (s.strand k)) = (plainFields k (s.strand k)).set i x) (hi : plainSpecials[i]? = some (n, mask) := by rfl)
    (hk : (s.strand k).Keeps (f (s.strand k)) := by exact ⟨rfl, rfl, rfl, rfl, rfl⟩) : KeepsFields s k v (n, mask) := by
  obtain ⟨hxs, hpc, hlevel, -, -⟩ := hk
  simp only [KeepsFields, hw, State.strand_upd_self]
  refine ⟨?_, sprReads_others ?_ hf, hxs, hpc, hlevel, becomes_upd s k f⟩
  · have hlen : i < (plainFields k (s.strand k)).length := (List.getElem?_eq_some_iff.1 hi).1
    rw [sprRead_plain hi, State.strand_upd_self, hf, List.getElem?_set_self hlen, hx]
  · rw [List.getElem?_map, hi]; rfl
end

/-- Every register of plainSpecials keeps its fields: its own row's write, with what the mask leaves of the value. -/
theorem plain_all (s : State) (k : Nat) (v : Dword) : ∀ nm ∈ plainSpecials, KeepsFields s k v nm := by
  simp only [plainSpecials, List.cons_append, List.nil_append, List.forall_mem_cons, List.not_mem_nil, false_imp_iff, implies_true, and_true]
  exact ⟨
    plain_row 0 (sprWrite_003 s k v) (low_mask 3 v) rfl, plain_row 1 (sprWrite_004 s k v) (low_mask 6 v) rfl,
    plain_row 2 (sprWrite_005 s k v) (low_mask 3 v) rfl, plain_row 3 (sprWrite_006 s k v) (and_whole v) rfl,
    plain_row 4 (sprWrite_008 s k v) (and_whole v) rfl, plain_row 5 (sprWrite_00B s k v) (low_mask 32 v) rfl,
    plain_row 6 (sprWrite_00C s k v) (and_whole v) rfl, plain_row 7 (sprWrite_010 s k v) (low_mask 32 v) (plainFields_fxidx _ _ 0 _),
    plain_row 8 (sprWrite_011 s k v) (low_mask 32 v) (plainFields_fxidx _ _ 1 _),
    plain_row 9 (sprWrite_012 s k v) (low_mask 32 v) (plainFields_fxidx _ _ 2 _),
    plain_row 10 (sprWrite_013 s k v) (low_mask 32 v) (plainFields_fxidx _ _ 3 _), plain_row 11 (sprWrite_01A s k v) (low_mask 6 v) rfl,
    plain_row 12 (sprWrite_01B s k v) (and_whole v) rfl, plain_row 13 (sprWrite_020 s k v) (low_mask 32 v) (plainFields_cpyDone _ _ 0 _),
    plain_row 14 (sprWrite_021 s k v) (low_mask 32 v) (plainFields_cpyDone _ _ 1 _),
    plain_row 15 (sprWrite_022 s k v) (low_mask 32 v) (plainFields_cpyDone _ _ 2 _),
    plain_row 16 (sprWrite_023 s k v) (low_mask 32 v) (plainFields_cpyDone _ _ 3 _),
    plain_row 17 (sprWrite_024 s k v) (low_mask 32 v) (plainFields_cpyNext _ _ 0 _),
    plain_row 18 (sprWrite_025 s k v) (low_mask 32 v) (plainFields_cpyNext _ _ 1 _),
    plain_row 19 (sprWrite_026 s k v) (low_mask 32 v) (plainFields_cpyNext _ _ 2 _),
    plain_row 20 (sprWrite_027 s k v) (low_mask 32 v) (plainFields_cpyNext _ _ 3 _),
    plain_row 21 (sprWrite_030 s k v) (and_whole v) (plainFields_tlc _ _ 0 _),
    plain_row 22 (sprWrite_031 s k v) (and_whole v) (plainFields_tlc _ _ 1 _),
    plain_row 23 (sprWrite_032 s k v) (and_whole v) (plainFields_tlc _ _ 2 _),
    plain_row 24 (sprWrite_033 s k v) (and_whole v) (plainFields_tlc _ _ 3 _), plain_row 25 (sprWrite_101 s k v) (and_whole v) rfl,
    plain_row 26 (sprWrite_102 s k v) (low_mask 8 v) rfl, plain_row 27 (sprWrite_103 s k v) (and_whole v) rfl,
    plain_row 28 (sprWrite_104 s k v) (low_mask 32 v) rfl, plain_row 29 (sprWrite_105 s k v) (target_field v) rfl,
    plain_row 30 (sprWrite_106 s k v) (and_whole v) rfl, plain_row 31 (sprWrite_108 s k v) rfl (plainFields_chainPc _ _ 0 _),
    plain_row 32 (sprWrite_109 s k v) rfl (plainFields_chainPc _ _ 1 _), plain_row 33 (sprWrite_10A s k v) rfl (plainFields_chainPc _ _ 2 _),
    plain_row 34 (sprWrite_10B s k v) rfl (plainFields_chainPc _ _ 3 _), plain_row 35 (sprWrite_10C s k v) rfl (plainFields_chainSt _ _ 0 _),
    plain_row 36 (sprWrite_10D s k v) rfl (plainFields_chainSt _ _ 1 _), plain_row 37 (sprWrite_10E s k v) rfl (plainFields_chainSt _ _ 2 _),
    plain_row 38 (sprWrite_10F s k v) rfl (plainFields_chainSt _ _ 3 _), plain_row 39 (sprWrite_110 s k v) (low_mask 16 v) rfl,
    plain_row 40 (sprWrite_111 s k v) (ptbase_field v) rfl, plain_row 41 (sprWrite_112 s k v) (low_mask 8 v) rfl,
    plain_row 42 (sprWrite_114 s k v) (hold_field v) rfl, plain_row 43 (sprWrite_201 s k v) (and_whole v) rfl,
    plain_row 44 (sprWrite_202 s k v) (low_mask 8 v) rfl, plain_row 45 (sprWrite_203 s k v) (and_whole v) rfl,
    plain_row 46 (sprWrite_204 s k v) (low_mask 32 v) rfl, plain_row 47 (sprWrite_205 s k v) (target_field v) rfl,
    plain_row 48 (sprWrite_206 s k v) (and_whole v) rfl, plain_row 49 (sprWrite_207 s k v) (debug_field v) rfl,
    plain_row 50 (sprWrite_208 s k v) (low_mask 32 v) rfl⟩

/-! ## The registers whose writes do more -/

theorem vlmaxOf_le (vt : BitVec 8) : vlmaxOf vt ≤ 4096 := by
  have hgrp : grpRegs vt ≤ 8 := Nat.pow_le_pow_right (by decide) (Nat.le_of_lt_succ (vt.extractLsb' 3 2).isLt)
  have hew : 8 ≤ ewBits vt := Nat.le_mul_of_pos_right 8 (by positivity)
  exact Nat.div_le_of_le_mul (by nlinarith)
theorem vlStored_toNat (vt : BitVec 8) (n : Nat) : (vlStored vt n).toNat = min n (vlmaxOf vt) := by
  have := vlmaxOf_le vt
  rw [vlStored, BitVec.toNat_ofNat, Nat.mod_eq_of_lt (by omega)]
theorem vstartStored_toNat (v : Dword) : (BitVec.ofNat 13 (min (low 13 v).toNat 4096)).toNat = min (v.toNat % 8192) 4096 := by
  rw [low_toNat, BitVec.toNat_ofNat, Nat.mod_eq_of_lt (by omega)]; rfl
theorem vstartStored_zeroExtend (v : Dword) :
    (BitVec.ofNat 13 (min (low 13 v).toNat 4096)).zeroExtend 64 = BitVec.ofNat 64 (min (v.toNat % 8192) 4096) := by
  apply BitVec.eq_of_toNat_eq
  rw [BitVec.zeroExtend_eq_setWidth, BitVec.toNat_setWidth_of_le (by decide), vstartStored_toNat]
  exact (Nat.mod_eq_of_lt (by omega)).symm
theorem pprivStored_low (mx : Nat) (old : BitVec 2) (v : Dword) :
    pprivStored mx old (low 2 v) = if v.toNat % 4 ≤ mx then BitVec.ofNat 2 v.toNat else old := by
  have hlow : low 2 v = BitVec.ofNat 2 v.toNat := BitVec.eq_of_toNat_eq (by rw [low_toNat, BitVec.toNat_ofNat])
  rw [pprivStored, low_toNat, hlow]; rfl
theorem uivec_field (v : Dword) (b : Bool) :
    v.extractLsb' 2 62 ++ (0 : BitVec 1) ++ bit1 b = (v &&& 0xFFFFFFFFFFFFFFFC) ||| (if b then 1 else 0) := by
  have hbit : (if b then (1 : Dword) else 0) = (0 : BitVec 62) ++ ((0 : BitVec 1) ++ bit1 b) := by cases b <;> rfl
  rw [← target_field, hbit, BitVec.or_append, show v.extractLsb' 2 62 ||| 0 = v.extractLsb' 2 62 from BitVec.or_zero,
    show (0 : BitVec 2) ||| ((0 : BitVec 1) ++ bit1 b) = (0 : BitVec 1) ++ bit1 b from BitVec.zero_or]
  apply BitVec.eq_of_toNat_eq
  rw [BitVec.toNat_append, BitVec.toNat_append, BitVec.toNat_append, BitVec.toNat_append]
  simp [← Nat.shiftLeft_add]

/-- FXWD.COUNT: the count of the strand's invocation while it runs (R115). -/
def fxCount (s : State) (k : Nat) : BitVec 20 :=
  match sfind s.invs k with
  | some i => if i.running then BitVec.ofNat 20 i.count else 0
  | none => 0
theorem sprRead_113 (s : State) (k : Nat) : sprRead s k 0x113 = some ((0 : BitVec 43) ++ bit1 (s.strand k).e.fxwdFired ++ fxCount s k) := rfl
theorem fxwd_count (b : Bool) (c : BitVec 20) : ((0 : BitVec 43) ++ bit1 b ++ c) &&& 0xFFFFF = (0 : BitVec 44) ++ c := by
  rw [show (0xFFFFF : Dword) = (0 : BitVec 43) ++ (0 : BitVec 1) ++ BitVec.allOnes 20 from rfl, BitVec.and_append, BitVec.and_append, BitVec.and_allOnes]
  simp
theorem fxwd_written (a b : Bool) (c : BitVec 20) : (0 : BitVec 43) ++ bit1 (a && !b) ++ c =
    if b then ((0 : BitVec 43) ++ bit1 a ++ c) &&& 0xFFFFF else (0 : BitVec 43) ++ bit1 a ++ c := by
  rw [fxwd_count]
  cases b
  · simp
  · simp [bit1]
theorem fxCount_zeroExtend (s : State) (k : Nat) : (0 : BitVec 44) ++ fxCount s k = (match sfind s.invs k with
    | some i => if i.running then BitVec.ofNat 64 (i.count % 2 ^ 20) else 0
    | none => 0) := by
  rw [zero_append, fxCount]
  cases sfind s.invs k with
  | none => rfl
  | some i =>
    by_cases hrun : i.running = true
    · simp only [hrun, if_true]
      apply BitVec.eq_of_toNat_eq; simp
    · simp only [hrun]; rfl

/-- A write of a register changes the strand only, and there none of the registers of plainSpecials but its own. -/
def KeepsOthers (s : State) (k : Nat) (v : Dword) (n : BitVec 12) : Prop :=
  let p := s.strand k
  let t := sprWrite s k n v
  StrandBecomes s k (t.strand k) t ∧ (t.strand k).x = p.x ∧ (t.strand k).pc = p.pc ∧ (t.strand k).level = p.level ∧ (t.strand k).m = p.m ∧
  (t.strand k).cm = p.cm ∧ ∀ q ∈ plainSpecials, q.1 ≠ n → sprRead t k q.1 = sprRead s k q.1
theorem special_row {s : State} {k : Nat} {v : Dword} {n : BitVec 12} {f : Strand → Strand} (hw : sprWrite s k n v = s.upd k f)
    (ho : ∀ q ∈ plainSpecials, q.1 ≠ n → sprRead (s.upd k f) k q.1 = sprRead s k q.1)
    (hk : (s.strand k).Keeps (f (s.strand k)) := by exact ⟨rfl, rfl, rfl, rfl, rfl⟩) : KeepsOthers s k v n := by
  obtain ⟨hxs, hpc, hlevel, hm, hcm⟩ := hk
  simp only [KeepsOthers, hw, State.strand_upd_self]
  exact ⟨becomes_upd s k f, hxs, hpc, hlevel, hm, hcm, ho⟩
theorem special_all (s : State) (k : Nat) (v : Dword) :
    ∀ n ∈ ([0x000, 0x001, 0x002, 0x006, 0x007, 0x00D, 0x018, 0x019, 0x100, 0x113, 0x200] : List (BitVec 12)), KeepsOthers s k v n := by
  simp only [List.forall_mem_cons, List.not_mem_nil, false_imp_iff, implies_true, and_true]
  exact ⟨special_row (sprWrite_000 s k v) (sprReads_all rfl), special_row (sprWrite_001 s k v) (sprReads_all rfl),
    special_row (sprWrite_002 s k v) (sprReads_all rfl), special_row (sprWrite_006 s k v) (sprReads_others (i := 3) rfl rfl),
    special_row (sprWrite_007 s k v) (sprReads_all rfl), special_row (sprWrite_00D s k v) (sprReads_all rfl),
    special_row (sprWrite_018 s k v) (sprReads_all rfl), special_row (sprWrite_019 s k v) (sprReads_all rfl),
    special_row (sprWrite_100 s k v) (sprReads_all rfl), special_row (sprWrite_113 s k v) (sprReads_all rfl),
    special_row (sprWrite_200 s k v) (sprReads_all rfl)⟩

/-! ## The rings (R191) -/

/-- The number of descriptor register j of ring i (R115). -/
def ringReg (i : BitVec 3) (j : Nat) : BitVec 12 := BitVec.ofNat 12 (0x40 + 4 * i.toNat + j)
theorem forall_ring {P : BitVec 3 → Prop} (h : ∀ i : Fin 8, P (BitVec.ofFin i)) (i : BitVec 3) : P i := h i.toFin

section
variable (s : State) (k : Nat) (v : Dword) (i : BitVec 3)

theorem sprRead_ringBase : sprRead s k (ringReg i 0) = some ((s.ring k i).base ++ (0 : BitVec 8)) := by
  revert i
  exact forall_ring fun i => by fin_cases i <;> rfl
theorem sprRead_ringGeom : sprRead s k (ringReg i 1) = some ((0 : BitVec 48) ++ (s.ring k i).nslotm1 ++ (0 : BitVec 4) ++ (s.ring k i).log2slot) := by
  revert i
  exact forall_ring fun i => by fin_cases i <;> rfl
theorem sprRead_ringHead : sprRead s k (ringReg i 2) = some ((s.ring k i).head.zeroExtend 64) := by
  revert i
  exact forall_ring fun i => by fin_cases i <;> rfl
theorem sprRead_ringTail : sprRead s k (ringReg i 3) = some ((s.ring k i).tail.zeroExtend 64) := by
  revert i
  exact forall_ring fun i => by fin_cases i <;> rfl
theorem sprWrite_ringBase : sprWrite s k (ringReg i 0) v = (dropRingZero s k i).setRing k i
      { s.ring k i with base := v.extractLsb' 8 56, head := 0, tail := 0, zero := [], unlanded := [] } := by
  revert i
  exact forall_ring fun i => by fin_cases i <;> rfl
theorem sprWrite_ringGeom : sprWrite s k (ringReg i 1) v = (dropRingZero s k i).setRing k i
      { s.ring k i with nslotm1 := v.extractLsb' 8 8, log2slot := low 4 v, head := 0, tail := 0, zero := [], unlanded := [] } := by
  revert i
  exact forall_ring fun i => by fin_cases i <;> rfl
theorem sprWrite_ringHead : sprWrite s k (ringReg i 2) v = s.setRing k i { s.ring k i with head := low 32 v } := by
  revert i
  exact forall_ring fun i => by fin_cases i <;> rfl
theorem sprWrite_ringTail : sprWrite s k (ringReg i 3) v = s.setRing k i { s.ring k i with tail := low 32 v } := by
  revert i
  exact forall_ring fun i => by fin_cases i <;> rfl
end

theorem dropRingZero_tasks (s : State) (k : Nat) (i : BitVec 3) : ∃ l, dropRingZero s k i = { s with tasks := l } := by
  unfold dropRingZero
  simp only []
  split
  · exact ⟨_, rfl⟩
  · exact ⟨s.tasks, rfl⟩
theorem State.shardKey_setRing (s : State) (k j : Nat) (i : BitVec 3) (r : Ring) : (s.setRing k i r).shardKey j = s.shardKey j := by
  have hgroup : (s.setRing k i r).groupOf j = s.groupOf j := State.groupOf_upd s _ j _ (fun _ => rfl)
  rw [State.shardKey, State.shardKey, hgroup]
theorem State.ring_setRing (s : State) (k : Nat) (i c : BitVec 3) (r : Ring) : (s.setRing k i r).ring k c = if c = i then r else s.ring k c := by
  have hrings : ((s.setRing k i r).strand (s.shardKey k)).rings = (s.strand (s.shardKey k)).rings.set i.toNat r i.isLt := by
    rw [State.setRing, State.strand_upd_self]
  simp only [State.ring, State.shardKey_setRing, hrings, Vector.getElem_set, BitVec.toNat_inj, eq_comm]

/-- Only a ring of the strand's shard, and flags that tasks keep for it, differ. -/
def RingBecomes (s : State) (k : Nat) (i : BitVec 3) (q : Ring) (t : State) : Prop :=
  let o := s.shardKey k
  t.ring k i = q ∧ (∀ c, c ≠ i → t.ring k c = s.ring k c) ∧ t.strand o = { s.strand o with rings := (t.strand o).rings } ∧
  (∀ c, c ≠ o → t.strand c = s.strand c) ∧ { t with strands := s.strands, tasks := s.tasks } = s
theorem setRing_becomes (s : State) (k : Nat) (i : BitVec 3) (q : Ring) : RingBecomes s k i q (s.setRing k i q) := by
  refine ⟨by rw [State.ring_setRing, if_pos rfl], fun c hc => by rw [State.ring_setRing, if_neg hc], ?_, fun c hc => State.strand_upd_of_ne _ _ hc, rfl⟩
  rw [State.setRing, State.strand_upd_self]
theorem dropRingZero_setRing_becomes (s : State) (k : Nat) (i : BitVec 3) (q : Ring) : RingBecomes s k i q ((dropRingZero s k i).setRing k i q) := by
  obtain ⟨l, hl⟩ := dropRingZero_tasks s k i
  obtain ⟨hring, hrings, hshard, hstrands, -⟩ := setRing_becomes { s with tasks := l } k i q
  exact hl ▸ ⟨hring, hrings, hshard, hstrands, rfl⟩

/-- A write of register j of ring i makes q of it; registers 2 and 3 leave the tasks as they are. -/
def RingSets (s : State) (k : Nat) (v : Dword) (i : BitVec 3) (j : Nat) (q : Ring) : Prop :=
  let o := s.shardKey k
  let t := sprWrite s k (ringReg i j) v
  t.ring k i = q ∧ (∀ c, c ≠ i → t.ring k c = s.ring k c) ∧ t.strand o = { s.strand o with rings := (t.strand o).rings } ∧
  (∀ c, c ≠ o → t.strand c = s.strand c) ∧ { t with strands := s.strands, tasks := s.tasks } = s ∧ (2 ≤ j → t.tasks = s.tasks)
theorem ringSets_of_becomes {s t : State} {k j : Nat} {v : Dword} {i : BitVec 3} {q : Ring} (hw : sprWrite s k (ringReg i j) v = t)
    (hb : RingBecomes s k i q t) (ht : 2 ≤ j → t.tasks = s.tasks) : RingSets s k v i j q := by
  obtain ⟨hring, hrings, hshard, hstrands, hrest⟩ := hb
  subst hw
  exact ⟨hring, hrings, hshard, hstrands, hrest, ht⟩

section
variable (s : State) (k : Nat) (v : Dword) (i : BitVec 3)

theorem ringBase_sets : RingSets s k v i 0 { s.ring k i with base := v.extractLsb' 8 56, head := 0, tail := 0, zero := [], unlanded := [] } :=
  ringSets_of_becomes (sprWrite_ringBase s k v i) (dropRingZero_setRing_becomes ..) (fun h => nomatch h)
theorem ringGeom_sets : RingSets s k v i 1
    { s.ring k i with nslotm1 := v.extractLsb' 8 8, log2slot := low 4 v, head := 0, tail := 0, zero := [], unlanded := [] } :=
  ringSets_of_becomes (sprWrite_ringGeom s k v i) (dropRingZero_setRing_becomes ..) (fun h => nomatch h)
theorem ringHead_sets : RingSets s k v i 2 { s.ring k i with head := low 32 v } :=
  ringSets_of_becomes (sprWrite_ringHead s k v i) (setRing_becomes ..) (fun _ => rfl)
theorem ringTail_sets : RingSets s k v i 3 { s.ring k i with tail := low 32 v } :=
  ringSets_of_becomes (sprWrite_ringTail s k v i) (setRing_becomes ..) (fun _ => rfl)

theorem ringBase_reads : sprRead (sprWrite s k (ringReg i 0) v) k (ringReg i 0) = some (v &&& 0xFFFFFFFFFFFFFF00) := by
  rw [sprRead_ringBase, (ringBase_sets s k v i).1, ← base_field]
theorem ringGeom_reads : sprRead (sprWrite s k (ringReg i 1) v) k (ringReg i 1) = some (v &&& 0xFF0F) := by
  rw [sprRead_ringGeom, (ringGeom_sets s k v i).1, ← geom_field]
theorem ringHead_reads : sprRead (sprWrite s k (ringReg i 2) v) k (ringReg i 2) = some (v &&& 0xFFFFFFFF) := by
  rw [sprRead_ringHead, (ringHead_sets s k v i).1]
  exact congrArg some (low_mask 32 v)
theorem ringTail_reads : sprRead (sprWrite s k (ringReg i 3) v) k (ringReg i 3) = some (v &&& 0xFFFFFFFF) := by
  rw [sprRead_ringTail, (ringTail_sets s k v i).1]
  exact congrArg some (low_mask 32 v)
end

/-! ## The statement -/

/-- Settles O7: the registers that keep what is written row by row, then each register whose write does more. -/
theorem specialStorage : Obligations.SpecialStorage := by
  unfold Obligations.SpecialStorage
  refine ⟨fun s k nm v hnm => plain_all s k v nm hnm, fun s k v => ⟨?vl, ?vtype, ?vtypeVl, ?vstartReads, ?vstart, ?seedReads, ?lanes, ?vstat, ?fxstat,
    ?uimask, ?uivec, ?held, ?eppriv, ?fppriv, ?fired, ?fxwd, rfl, rfl, rfl, special_all s k v, ?rings⟩⟩
  all_goals beta_reduce
  case vl => rw [sprWrite_000, State.strand_upd_self]; exact vlStored_toNat _ _
  case vtype => rw [sprWrite_001, State.strand_upd_self]; rfl
  case vtypeVl => rw [sprWrite_001, State.strand_upd_self]; exact vlStored_toNat _ _
  case vstart => rw [sprWrite_002, State.strand_upd_self]; exact vstartStored_toNat v
  case vstartReads => rw [sprWrite_002, sprRead_002, State.strand_upd_self]; exact congrArg some (vstartStored_zeroExtend v)
  case seedReads => rw [sprWrite_006, sprRead_006, State.strand_upd_self]; rfl
  case lanes =>
    intro l h
    rw [sprWrite_006, State.strand_upd_self]
    exact Vector.getElem_ofFn h
  case vstat => rw [sprWrite_007, sprRead_007, State.strand_upd_self]
  case fxstat => rw [sprWrite_00D, sprRead_00D, State.strand_upd_self]
  case uimask => rw [sprWrite_019, sprRead_019, State.strand_upd_self]; exact congrArg some (mask_field v)
  case uivec => rw [sprWrite_018, sprRead_018, State.strand_upd_self]; exact congrArg some (uivec_field v _)
  case held => rw [sprWrite_100, State.strand_upd_self]
  case eppriv => rw [sprWrite_100, State.strand_upd_self]; exact pprivStored_low 1 _ v
  case fppriv => rw [sprWrite_200, State.strand_upd_self]; exact pprivStored_low 2 _ v
  case fired => rw [sprWrite_113, State.strand_upd_self]
  case fxwd =>
    intro c hc
    obtain rfl := Option.some.inj hc
    rw [sprWrite_113, sprRead_113, State.strand_upd_self]
    exact ⟨congrArg some (fxwd_written _ _ _), (fxwd_count _ _).trans (fxCount_zeroExtend s k)⟩
  case rings =>
    exact fun i => ⟨ringBase_sets s k v i, ringBase_reads s k v i, ringGeom_sets s k v i, ringGeom_reads s k v i, ringHead_sets s k v i,
      ringHead_reads s k v i, ringTail_sets s k v i, ringTail_reads s k v i⟩

end Sys2Proof.Machine
end

section
/-! The LINK instructions of a cell (R359 to R366): lemmas for the statement LinkResult, and its proof. -/

namespace Sys2Proof.Machine
open Sys2Proof

/-! ## Who executes a LINK instruction (R111, R359) -/

/-- What a strand's LINK instruction comes to (R111). -/
theorem linkInstr_illegal {s : State} {n : Nat} (h : s.actor = .strand n) {i : Instr} {w : Word} {f : State → Nat → Nat → Env → Option State}
    (he : encode i = some w) (hx : exec i s = linkInstr w f s) : Illegal i s := by
  intro w' hw'
  obtain rfl := Option.some.inj (he.symm.trans hw')
  exact ⟨_, by simp only [hx, linkInstr, h, illegal], rfl⟩

theorem State.x_cell {s : State} {k c : Nat} (h : s.actor = .cell k c) (r : Reg) : s.x r = readCX (s.cell (64 * k + c)).x r := by
  simp only [State.x, State.cellKey, h]
/-- The invocation of an environment is the strand's own. -/
theorem fxEnv_inv {s : State} {k : Nat} {v : Env} (h : fxEnv s k = some v) : sfind s.invs k = some v.inv := by
  simp only [fxEnv] at h
  split at h
  next i hi =>
    split at h
    · split at h
      next => obtain rfl := Option.some.inj h; exact hi
      next => exact nomatch h
    · exact nomatch h
  next => exact nomatch h
theorem State.updInv_eq {s : State} {k : Nat} {i : Inv} (h : sfind s.invs k = some i) (f : Inv → Inv) : s.updInv k f = s.setInv k (f i) := by
  simp only [State.updInv, h]

/-- An instruction sends a flit where its channel can take it, and else waits. -/
def LinkSends (s : State) (k : Nat) (v : Env) (i : Instr) (e : Nat) (f : Flit) (after : State → State) : Prop :=
  (canSend s k v e = true → Runs i s (· = (after (sendFlit s k v e f)).advance)) ∧ (canSend s k v e = false → Runs i s (· = s))

section
variable {s : State} {k c : Nat} {v : Env}
variable (h : s.actor = .cell k c) (hv : fxEnv s k = some v)
include h hv

/-- A cell's LINK instruction has its effect, or waits where it has none. -/
theorem linkInstr_cell (w : Word) (f : State → Nat → Nat → Env → Option State) : linkInstr w f s = .next ((f s k c v).getD s) := by
  simp only [linkInstr, h, hv]
/-- It has its effect. -/
theorem link_does {i : Instr} {w : Word} {f : State → Nat → Nat → Env → Option State} {t : State} (hx : exec i s = linkInstr w f s)
    (hf : f s k c v = some t) : Runs i s (· = t) := ⟨_, by rw [hx, linkInstr_cell h hv, hf, Option.getD_some], rfl⟩
/-- It waits. -/
theorem link_waits {i : Instr} {w : Word} {f : State → Nat → Nat → Env → Option State} (hx : exec i s = linkInstr w f s)
    (hf : f s k c v = none) : Runs i s (· = s) := ⟨_, by rw [hx, linkInstr_cell h hv, hf, Option.getD_none], rfl⟩

/-! ## Sending a flit (R361, R362, R365) -/

/-- One that sends a flit does what follows it when the channel can take it, and else waits. -/
theorem link_sends {i : Instr} {w : Word} {f : State → Nat → Nat → Env → Option State} {e : Nat} {x : Flit} {after : State → State}
    (hx : exec i s = linkInstr w f s) (hf : f s k c v = (sendOn s k v e x).map (fun t => (after t).advance)) : LinkSends s k v i e x after := by
  refine ⟨fun hc => link_does h hv hx ?_, fun hc => link_waits h hv hx ?_⟩ <;> rw [hf, sendOn, hc]
  · rfl
  · rfl
theorem send_sends (d a : Reg) : LinkSends s k v (.send d a) (chanOf c d) ⟨0, (readCX (s.cell (64 * k + c)).x a).extractLsb' 0 32⟩ id :=
  link_sends h hv exec_send (by rw [State.x_cell h]; rfl)
theorem sendE_sends (d a : Reg) : LinkSends s k v (.sendE d a) (chanOf c d) ⟨1, 0⟩ id := link_sends h hv exec_sendE rfl
theorem toks_sends (d : Reg) : LinkSends s k v (.toks d) (chanOf c d) ⟨2, 0⟩ id := link_sends h hv exec_toks rfl
theorem steer_sends (d a b : Reg) :
    let e := chanOf c d + (if readCX (s.cell (64 * k + c)).x a = 0 then 0 else 1)
    LinkSends s k v (.steer d a b) e ⟨0, (readCX (s.cell (64 * k + c)).x b).extractLsb' 0 32⟩ (leaveLoops · k e v) :=
  link_sends h hv exec_steer (by simp only [State.x_cell h])

/-! ## Taking a flit (R360, R363, R365) -/

/-- With a flit at the head of its channel a cell takes it, or peeks at it; merge takes it before any of its second channel. -/
theorem link_takes (d a b : Reg) {f : Flit} (hf : headFlit v (chanOf c a) = some f) :
    Runs (.recv d a) s (· = ((takeHead s k v (chanOf c a)).setX d f.value).advance) ∧ Runs (.lpeek d a) s (· = (s.setX d f.value).advance) ∧
    Runs (.merge d a b) s (· = ((takeHead s k v (chanOf c a)).setX d f.value).advance) :=
  ⟨link_does h hv exec_recv (by rw [hf]; rfl), link_does h hv exec_lpeek (by rw [hf]; rfl), link_does h hv exec_merge (by rw [hf])⟩
/-- Without one it waits. -/
theorem link_empty (d a : Reg) (hf : headFlit v (chanOf c a) = none) :
    Runs (.recv d a) s (· = s) ∧ Runs (.lpeek d a) s (· = s) ∧ Runs (.tokw a) s (· = s) :=
  ⟨link_waits h hv exec_recv (by rw [hf]; rfl), link_waits h hv exec_lpeek (by rw [hf]; rfl), link_waits h hv exec_tokw (by rw [hf]; rfl)⟩
theorem tokw_token (a : Reg) {f : Flit} (hf : headFlit v (chanOf c a) = some f) (hk : f.kind = 2) :
    Runs (.tokw a) s (· = (takeHead s k v (chanOf c a)).advance) :=
  link_does h hv exec_tokw (by rw [hf, Option.map_some, if_pos hk])
/-- A flit of another kind stops the invocation, unless a stop is to take effect already. -/
theorem tokw_other (a : Reg) {f : Flit} (hf : headFlit v (chanOf c a) = some f) (hk : f.kind ≠ 2) :
    Runs (.tokw a) s (fun t => (sfind t.invs k).map (·.stop) = some (some (v.inv.stop.getD { reason := 6 })) ∧ t.strands = s.strands ∧ t.cells = s.cells) := by
  obtain ⟨t, ht, rfl⟩ := link_does (i := .tokw a) h hv exec_tokw (by rw [hf, Option.map_some, if_neg hk])
  refine ⟨_, ht, ?_⟩
  rw [State.updInv_eq (fxEnv_inv hv)]
  refine ⟨?_, rfl, rfl⟩
  show (sfind (sput s.invs k _) k).map (·.stop) = _
  rw [sfind_sput, if_pos rfl]
  cases v.inv.stop <;> rfl

/-! ## merge with nothing in its first channel (R363) -/

theorem merge_empty (d a b : Reg) (hf : headFlit v (chanOf c a) = none) (hg : headFlit v (chanOf c b) = none) : Runs (.merge d a b) s (· = s) :=
  link_waits h hv exec_merge (by rw [hf, hg])
theorem merge_held (d a b : Reg) {f : Flit} (hf : headFlit v (chanOf c a) = none) (hg : headFlit v (chanOf c b) = some f)
    (ha : admits v (chanOf c a) f = false) : Runs (.merge d a b) s (· = s) :=
  link_waits h hv exec_merge (by simp only [hf, hg, ha]; rfl)
theorem merge_admits (d a b : Reg) {f : Flit} (hf : headFlit v (chanOf c a) = none) (hg : headFlit v (chanOf c b) = some f)
    (ha : admits v (chanOf c a) f = true) : Runs (.merge d a b) s (· = (((match loopAt v (chanOf c a) with
      | some (n, _) => if f.kind = 1 then takeHead s k v (chanOf c b) else (takeHead s k v (chanOf c b)).updInv k (·.addAdm n 1)
      | none => takeHead s k v (chanOf c b)).setX d f.value).advance)) :=
  link_does h hv exec_merge (by simp only [hf, hg, ha]; rfl)

/-! ## prime (R364) -/

/-- The flit that prime puts into a channel (R361, R364). -/
def primed (v : Env) (e : Nat) (x : Dword) : Flit := ⟨0, BitVec.ofNat 32 (x.toNat % 2 ^ flitBits ((v.img.route e).elim 0 (·.fmt)))⟩
/-- The buffer is full, or the loop that begins here has admitted its limit. -/
def PrimeFull (v : Env) (e : Nat) : Prop := 2 ≤ (v.inv.hop e 0).length ∨ ∃ n l, loopAt v e = some (n, l) ∧ v.inv.admitted n = l.limit
theorem prime_full (d a : Reg) (hp : PrimeFull v (chanOf c d)) : Runs (.prime d a) s (· = s) := by
  refine link_waits h hv exec_prime ?_
  rcases hp with hp | ⟨n, l, hl, hn⟩
  · exact if_pos hp
  · simp only [hl, hn, if_true, ite_self]
theorem prime_puts (d a : Reg) (hp : ¬PrimeFull v (chanOf c d)) :
    let e := chanOf c d
    let l := v.inv.hop e 0 ++ [primed v e (readCX (s.cell (64 * k + c)).x a)]
    Runs (.prime d a) s (· = (s.setInv k (match loopAt v e with
      | some (n, _) => (v.inv.setHop e 0 l).addAdm n 1
      | none => v.inv.setHop e 0 l)).advance) := by
  refine link_does h hv exec_prime ?_
  rw [PrimeFull, not_or] at hp
  obtain ⟨hroom, hlimit⟩ := hp
  simp only [if_neg hroom, State.x_cell h, State.updInv_eq (fxEnv_inv hv)]
  cases hl : loopAt v (chanOf c d) with
  | none => rfl
  | some q => exact if_neg (fun hn => hlimit ⟨q.1, q.2, hl, hn⟩)
end

/-! ## A flit that stays within its core's page (R331, R361) -/

theorem meterLink_invs (s : State) (k : Nat) (c : Conf) (l : Nat) : (meterLink s k c l).invs = s.invs := by
  unfold meterLink; split <;> rfl
theorem Inv.hop_setHop_self (i : Inv) (e h : Nat) {l : List Flit} (hl : l ≠ []) : (i.setHop e h l).hop e h = l := by
  simp only [Inv.hop, Inv.setHop, List.isEmpty_eq_false_iff.2 hl, Bool.false_eq_true, if_false, sget_sput_self]
/-- A data flit sent on a channel of at most one hop, between entries of one format, joins the receiving buffer. -/
theorem sendFlit_joins (s : State) (k : Nat) (v : Env) {e q : Nat} {w : Wire} {r : Route} {f : Flit}
    (hchan : v.img.chans.find? (fun q => q.1 == e) = some (e, q)) (hw : v.conf.wire q = some w) (hr : v.img.route q = some r)
    (hpath : w.path.length ≤ 1) (hkind : f.kind = 0) (hfmt : (v.img.route e).elim 0 (·.fmt) = r.fmt) :
    (sfind (sendFlit s k v e f).invs k).map (·.hop q 0) = some (v.inv.hop q 0 ++ [⟨0, BitVec.ofNat 32 (f.data.toNat % 2 ^ flitBits r.fmt)⟩]) := by
  have hlast : w.path.length - 1 = 0 := by omega
  have hinvs : (sendFlit s k v e f).invs = sput s.invs k (v.inv.setHop q 0 (v.inv.hop q 0 ++ [⟨0, BitVec.ofNat 32 (f.data.toNat % 2 ^ flitBits r.fmt)⟩])) := by
    simp only [sendFlit, hchan, hw, hr, hlast, hkind, hfmt, convertFlit, if_true, or_true]
    split
    · rw [meterLink_invs]; rfl
    · rfl
  rw [hinvs, sfind_sput, if_pos rfl, Option.map_some, Inv.hop_setHop_self _ _ _ (List.append_ne_nil_of_right_ne_nil _ (List.cons_ne_nil _ _))]

/-! ## The statement -/

/-- Settles O39: each clause is what the lemmas above say of the instruction. -/
theorem linkResult : Obligations.LinkResult := by
  unfold Obligations.LinkResult
  intro s k c d a b
  refine ⟨fun ⟨n, h⟩ => ?illegal, fun v h hv => ⟨fun f hf => ?taken, fun hf => ?waits, send_sends h hv d a, sendE_sends h hv d a, toks_sends h hv d,
    steer_sends h hv d a b, ⟨prime_full h hv d a, prime_puts h hv d a⟩, fun e q w r f => sendFlit_joins s k v⟩⟩
  case illegal =>
    simp only [List.forall_mem_cons, List.not_mem_nil, false_imp_iff, implies_true, and_true]
    exact ⟨linkInstr_illegal h rfl exec_recv, linkInstr_illegal h rfl exec_send, linkInstr_illegal h rfl exec_sendE, linkInstr_illegal h rfl exec_steer,
      linkInstr_illegal h rfl exec_merge, linkInstr_illegal h rfl exec_prime, linkInstr_illegal h rfl exec_tokw, linkInstr_illegal h rfl exec_toks,
      linkInstr_illegal h rfl exec_lpeek⟩
  case taken =>
    obtain ⟨hrecv, hpeek, hmerge⟩ := link_takes h hv d a b hf
    exact ⟨hrecv, hpeek, hmerge, tokw_token h hv a hf, tokw_other h hv a hf⟩
  case waits =>
    obtain ⟨hrecv, hpeek, htokw⟩ := link_empty h hv d a hf
    exact ⟨hrecv, hpeek, htokw, merge_empty h hv d a b hf, fun f hg => ⟨merge_held h hv d a b hf hg, merge_admits h hv d a b hf hg⟩⟩

end Sys2Proof.Machine
end

section
/-! Vector conversions (R212 to R216): lemmas for the statement VectorConvert, and its proof. -/

namespace Sys2Proof.Machine
open Sys2Proof

/-! ## Integer destinations (R159, R215) -/

theorem wrapInt_eq (w : Nat) (z : Int) : wrapInt w z = (z % 2 ^ w).toNat := by simp [wrapInt]
theorem intMin_not (du : Bool) (w : Nat) : intMin (!du) w = if du then 0 else -2 ^ (w - 1) := by cases du <;> rfl
theorem intMax_not (du : Bool) (w : Nat) : intMax (!du) w = if du then 2 ^ w - 1 else 2 ^ (w - 1) - 1 := by cases du <;> rfl
theorem intMin_le_intMax (sg : Bool) (w : Nat) : intMin sg w ≤ intMax sg w := by
  have h1 : (0 : Int) < 2 ^ (w - 1) := by positivity
  have h2 : (0 : Int) < 2 ^ w := by positivity
  cases sg <;> simp only [intMin, intMax] <;> grind
theorem clampInt_eq (sg : Bool) (w : Nat) (z : Int) : clampInt sg w z = max (intMin sg w) (min (intMax sg w) z) := by
  have := intMin_le_intMax sg w
  unfold clampInt; omega
theorem clampInt_eq_self_iff (sg : Bool) (w : Nat) (z : Int) : clampInt sg w z = z ↔ ¬(z < intMin sg w ∨ intMax sg w < z) := by
  have := intMin_le_intMax sg w
  unfold clampInt; omega

section
variable (F : Fmt) (w : Nat) (du : Bool) (rm : RMode) (x : Nat)

theorem cvtElem_int_int (sg : Bool) (w' : Nat) : cvtElem (.int sg w') (.int w) du rm 0 x =
    ⟨wrapInt w (clampInt (!du) w (bitsInt sg w' x)), if bitsInt sg w' x < intMin (!du) w ∨ intMax (!du) w < bitsInt sg w' x then 0x20 else 0, false⟩ := by
  simp only [cvtElem, satInt, flIf, flSat, bne_iff_ne, ne_eq, clampInt_eq_self_iff, not_not]
theorem cvtElem_nan_int {b : Bool} (h : unpack F x = .nan b) : cvtElem (.fp F) (.int w) du rm 0 x = ⟨wrapInt w (intMax (!du) w), 0x10, false⟩ := by
  simp only [cvtElem, h]; rfl
theorem cvtElem_inf_int {neg : Bool} (h : unpack F x = .inf neg) : cvtElem (.fp F) (.int w) du rm 0 x =
    ⟨wrapInt w (if neg then intMin (!du) w else intMax (!du) w), 0x20, false⟩ := by
  simp only [cvtElem, h]; rfl
theorem cvtElem_fin_int {neg : Bool} {m : Nat} {e : Int} (h : unpack F x = .fin neg m e) : cvtElem (.fp F) (.int w) du rm 0 x =
    let q := roundInt rm.plain neg 0 m e
    ⟨wrapInt w (clampInt (!du) w q.1), if q.1 < intMin (!du) w ∨ intMax (!du) w < q.1 then 0x20 else if q.2 then 0x01 else 0, false⟩ := by
  simp only [cvtElem, h]
  by_cases hc : clampInt (!du) w (roundInt rm.plain neg 0 m e).1 = (roundInt rm.plain neg 0 m e).1
  · rw [if_pos hc, if_neg ((clampInt_eq_self_iff _ _ _).1 hc), hc]; rfl
  · rw [if_neg hc, if_pos (not_not.1 (mt (clampInt_eq_self_iff _ _ _).2 hc))]; rfl
end

/-! ## Checks and outcomes (R112, R169, R214) -/

/-- Where the names are good, an illegal form takes ILLEGAL_INSTRUCTION with its word. -/
theorem vchecks_named_illegal {s : State} {k : Nat} (h : s.actor = .strand k) {groups : List (Nat × Nat)} {va : VSrc}
    (hn : VectorNamed s k groups va) (w : Nat) (l : List Nat) (word : Word) :
    vchecks s groups va w l false word = .error (.trap ⟨.illegalInstruction, word.zeroExtend 64, 0⟩) := by
  obtain ⟨hgroups, hva⟩ := hn
  have hname : vaName s va (!s.idle) = .ok () := by
    cases va with
    | vreg v => rfl
    | queue q =>
      obtain ⟨hq, htrap⟩ := hva
      cases hi : s.idle with
      | true => simp only [vaName, hq, bind, Except.bind]; rfl
      | false =>
        simp only [vaName, hq, bind, Except.bind, Bool.not_false, if_true]
        split
        next t ht => exact absurd ht (htrap hi t)
        next => rfl
  simp only [vchecks, State.me_strand h, groupsOk_ok hgroups, hname, legal_false, bind, Except.bind]
theorem sourceGroups_xreg (va : VSrc) (x : Reg) (n : Nat) : sourceGroups va (.xreg x) n = vaGroups va n := by cases va <;> rfl
theorem takers_processed {s : State} {k : Nat} (h : s.actor = .strand k) (m : Msk) : ∀ i ∈ s.takers m, Processed (s.strand k) m i := by
  intro i hi
  obtain ⟨hbody, hact⟩ := List.mem_filter.1 hi
  rw [mem_body, State.vstart, State.vl, State.me_strand h] at hbody
  rw [State.me_strand h] at hact
  exact (processed_iff _ _ _).2 ⟨hbody.1, hbody.2, hact⟩

/-- The source that cv names (R212): SI an integer, SU an unsigned one, else a value of the format of EW and ALT. -/
def cvSource (cv : BitVec 3) (vt : BitVec 8) : CvtSrc := if cv.getLsbD 0 then .int (!cv.getLsbD 1) (ewBits vt) else .fp (elemFmt vt)

section
variable {s : State} {k : Nat} (h : s.actor = .strand k)
include h

theorem State.rm_of_frm {rm : RMode} (hrm : rmodeOf (s.strand k).frm = some rm) : s.rm = rm := by
  simp only [State.rm, State.me_strand h, hrm, Option.getD_some]
theorem State.frmOk_of_frm {rm : RMode} (hrm : rmodeOf (s.strand k).frm = some rm) : s.frmOk = true := by
  simp only [State.frmOk, State.me_strand h, hrm, Option.isSome_some]
theorem State.frmOk_of_none (hrm : rmodeOf (s.strand k).frm = none) : s.frmOk = false := by
  simp only [State.frmOk, State.me_strand h, hrm, Option.isSome_none]

variable {i : Instr} {word : Word} {dst : CvtDst} {vd : Reg} {va : VSrc} {cv : BitVec 3} {m : Msk} (hi : exec i s = vcvt word dst vd va cv m s)
include hi

/-- A conversion whose destination fits in eight registers converts the processed elements, each with the draw of its lane. -/
theorem vcvt_converts {rm : RMode} (hrm : rmodeOf (s.strand k).frm = some rm) (hw : 4096 % dst.width = 0)
    (hfit : grpRegs (s.strand k).vtype * dst.width ≤ 8 * ewBits (s.strand k).vtype)
    (hr : VectorReady s k ((vd.toNat, max 1 (grpRegs (s.strand k).vtype * dst.width / ewBits (s.strand k).vtype)) ::
      sourceGroups va (.xreg 0) (grpRegs (s.strand k).vtype)) va (ewBits (s.strand k).vtype) m) :
    DrawsResult i s k va vd.toNat dst.width (vlmaxOf (s.strand k).vtype) m
      (fun d j => cvtElem (cvSource cv (s.strand k).vtype) dst (cv.getLsbD 2) rm d (vaElem s va (ewBits (s.strand k).vtype) j)) := by
  rw [sourceGroups_xreg] at hr
  have hok : (decide (s.grp * dst.width ≤ 8 * s.ew) && s.frmOk) = true := by
    simp only [State.frmOk_of_frm h hrm, State.grp, State.ew, State.me_strand h, hfit, decide_true, Bool.and_true]
  refine ⟨_, ?_, cvt_result h hw⟩
  rw [hi, vcvt, hok, vguard_ok]
  · simp only [State.ew, State.me_strand h, State.rm_of_frm h hrm]; rfl
  · simp only [State.grp, State.ew, State.me_strand h]
    exact vchecks_ok h hr (takers_processed h m) word
/-- One whose destination does not fit, or under an FRM without a mode, is illegal. -/
theorem vcvt_illegal (he : encode i = some word)
    (hbad : 8 * ewBits (s.strand k).vtype < grpRegs (s.strand k).vtype * dst.width ∨ rmodeOf (s.strand k).frm = none)
    (hn : VectorNamed s k ((vd.toNat, max 1 (grpRegs (s.strand k).vtype * dst.width / ewBits (s.strand k).vtype)) ::
      sourceGroups va (.xreg 0) (grpRegs (s.strand k).vtype)) va) : Illegal i s := by
  intro w hw
  obtain rfl := Option.some.inj (he.symm.trans hw)
  rw [sourceGroups_xreg] at hn
  have hno : (decide (s.grp * dst.width ≤ 8 * s.ew) && s.frmOk) = false := by
    rcases hbad with hbig | hrm
    · simp only [State.grp, State.ew, State.me_strand h, decide_eq_false (Nat.not_le.2 hbig), Bool.false_and]
    · simp only [State.frmOk_of_none h hrm, Bool.and_false]
  refine ⟨_, ?_, rfl⟩
  rw [hi, vcvt, hno, vguard_illegal]
  simp only [State.grp, State.ew, State.me_strand h]
  exact vchecks_named_illegal h hn _ _ _
end

/-! ## Rounding to an integral value (R216) -/

/-- An instruction that may draw and never does is an elementwise one. -/
theorem DrawsResult.elementwise {i : Instr} {s : State} {k : Nat} {va : VSrc} {vd w n : Nat} {m : Msk} {f : Nat → Rnd}
    (hf : ∀ j, (f j).drew = false) (h : DrawsResult i s k va vd w n m (fun _ => f)) :
    VectorResult i s k va vd w n m (fun j => ((f j).bits, (f j).flags)) := by
  obtain ⟨t, hi, G, hzero, hsucc, hwrites, hstrand, hflags, hothers, hrest⟩ := h
  have hG : ∀ j, G j = (s.strand k).srgen := fun j => by
    induction j with
    | zero => exact hzero
    | succ j ih => rw [hsucc, if_neg (fun hd => Bool.false_ne_true ((hf j).symm.trans hd.2)), ih]
  obtain ⟨r, l, hpop⟩ := vaPop_strand s va k
  refine ⟨t, hi, hwrites, ?_, hflags, hothers, hrest⟩
  rw [hG] at hstrand
  refine hstrand.trans ?_
  split
  · rfl
  · rw [hpop]; rfl
theorem fpIntegral_drew (F : Fmt) (rm : RMode) (x : Nat) : (fpIntegral F rm x).drew = false := by
  unfold fpIntegral; split <;> rfl

/-- An element width divides the bits of a vector register. -/
theorem ewBits_dvd (vt : BitVec 8) : 4096 % ewBits vt = 0 := by
  simp only [ewBits]
  have := (vt.extractLsb' 0 2).isLt
  interval_cases (vt.extractLsb' 0 2).toNat <;> rfl

section
variable {s : State} {k : Nat} (h : s.actor = .strand k) (vd ra : Reg) (m : Msk)
include h

theorem vcvtfi_rounds {rm : RMode} (hrm : rmodeOf (s.strand k).frm = some rm)
    (hr : VectorReady s k [(vd.toNat, grpRegs (s.strand k).vtype), (ra.toNat, grpRegs (s.strand k).vtype)] (.vreg ra) (ewBits (s.strand k).vtype) m) :
    VectorResult (.vcvtfi vd ra m) s k (.vreg ra) vd.toNat (ewBits (s.strand k).vtype) (vlmaxOf (s.strand k).vtype) m (fun j =>
      let r := fpIntegral (elemFmt (s.strand k).vtype) rm (vget s k ra.toNat (ewBits (s.strand k).vtype) j); (r.bits, r.flags)) := by
  refine DrawsResult.elementwise (fun _ => fpIntegral_drew _ _ _) ⟨_, ?_, cvt_result h (ewBits_dvd _)⟩
  rw [exec_vcvtfi, execVcvtfi, State.frmOk_of_frm h hrm, vguard_ok]
  · simp only [State.ew, State.me_strand h, State.rm_of_frm h hrm, vaElem, State.key_strand h]
  · simp only [State.grp, State.ew, State.me_strand h]
    exact vchecks_ok h hr (takers_processed h m) _
theorem vcvtfi_illegal (hrm : rmodeOf (s.strand k).frm = none)
    (hn : VectorNamed s k [(vd.toNat, grpRegs (s.strand k).vtype), (ra.toNat, grpRegs (s.strand k).vtype)] (.vreg ra)) : Illegal (.vcvtfi vd ra m) s := by
  intro w hw
  obtain rfl := Option.some.inj (hw : some (wVcvtfi vd ra m) = some w)
  refine ⟨_, ?_, rfl⟩
  rw [exec_vcvtfi, execVcvtfi, State.frmOk_of_none h hrm, vguard_illegal]
  simp only [State.grp, State.ew, State.me_strand h]
  exact vchecks_named_illegal h hn _ _ _
end

/-! ## The statement -/

/-- Settles O24: each row is a conversion to its destination, and the integer destinations are as the lemmas above say. -/
theorem vectorConvert : Obligations.VectorConvert := by
  unfold Obligations.VectorConvert
  refine ⟨fun s k vd ra va cv m rm h hrm => ?_, fun s k vd ra va cv m h => ?_⟩
  · refine ⟨vcvt_converts h exec_vcvtf64 hrm rfl, vcvt_converts h exec_vcvtf32 hrm rfl, vcvt_converts h exec_vcvtf16 hrm rfl, vcvt_converts h exec_vcvtbf16 hrm rfl,
      vcvt_converts h exec_vcvte4m3 hrm rfl, vcvt_converts h exec_vcvte5m2 hrm rfl, vcvt_converts h exec_vcvte4m3s hrm rfl, vcvt_converts h exec_vcvte5m2s hrm rfl,
      vcvt_converts h exec_vcvti8 hrm rfl, vcvt_converts h exec_vcvti16 hrm rfl, vcvt_converts h exec_vcvti32 hrm rfl, vcvt_converts h exec_vcvti64 hrm rfl,
      vcvtfi_rounds h vd ra m hrm, fun w _ x => ⟨fun sg w' => ?ints, ?floats⟩⟩
    case ints => simp only [cvtElem_int_int, wrapInt_eq, clampInt_eq, intMin_not, intMax_not]
    case floats =>
      split
      next hx => simp only [cvtElem_nan_int _ _ _ _ _ hx, wrapInt_eq, intMax_not]
      next hx => simp only [cvtElem_inf_int _ _ _ _ _ hx, wrapInt_eq, intMin_not, intMax_not]
      next hx => simp only [cvtElem_fin_int _ _ _ _ _ hx, wrapInt_eq, clampInt_eq, intMin_not, intMax_not]
  · exact ⟨vcvt_illegal h exec_vcvtf64 rfl, vcvt_illegal h exec_vcvtf32 rfl, vcvt_illegal h exec_vcvtf16 rfl, vcvt_illegal h exec_vcvtbf16 rfl,
      vcvt_illegal h exec_vcvte4m3 rfl, vcvt_illegal h exec_vcvte5m2 rfl, vcvt_illegal h exec_vcvte4m3s rfl, vcvt_illegal h exec_vcvte5m2s rfl,
      vcvt_illegal h exec_vcvti8 rfl, vcvt_illegal h exec_vcvti16 rfl, vcvt_illegal h exec_vcvti32 rfl, vcvt_illegal h exec_vcvti64 rfl, vcvtfi_illegal h vd ra m⟩

end Sys2Proof.Machine
end

section
/-! The scalar integer instructions (R127 to R131): lemmas for the statements RegisterFile and IntegerResult, and their proofs. -/

namespace Sys2Proof.Machine
open Sys2Proof

/-- Settles O2: what a read after a write gives, by the two registers' numbers. -/
theorem registerFile : Obligations.RegisterFile := by
  intro x r q v
  refine ⟨readX_zero x, writeX_zero x v, fun hr => ?_, fun hq => ?_⟩
  · rw [readX_writeX, if_neg hr, if_pos rfl]
  · rw [readX_writeX, if_neg hq]
    split
    next h0 => rw [h0, readX_zero]
    next => rfl

/-! ## The values of the operations (R128, R129) -/

theorem ofBit_slt (x y : Dword) : ofBit 64 (x.slt y) = if x.toInt < y.toInt then 1 else 0 := by simp [ofBit, BitVec.slt]
theorem ofBit_ult (x y : Dword) : ofBit 64 (x.ult y) = if x.toNat < y.toNat then 1 else 0 := by simp [ofBit, BitVec.ult]
/-- Of two operands that compare equal either is the lesser, since they are the same bits. -/
theorem ite_lt_eq_ite_le {α β : Type} [LinearOrder β] {f : α → β} (hf : Function.Injective f) (x y : α) :
    (if f x < f y then x else y) = (if f x ≤ f y then x else y) ∧ (if f x < f y then y else x) = (if f x ≤ f y then y else x) := by
  rcases lt_trichotomy (f x) (f y) with h | h | h
  · simp [h, h.le]
  · simp [hf h]
  · simp [h.not_gt, h.not_ge]
theorem toInt_injective : Function.Injective (BitVec.toInt : Dword → Int) := fun _ _ h => BitVec.eq_of_toInt_eq h
theorem toNat_injective : Function.Injective (BitVec.toNat : Dword → Nat) := fun _ _ h => BitVec.eq_of_toNat_eq h
theorem minSigned_eq (x y : Dword) : (if x.slt y then x else y) = if x.toInt ≤ y.toInt then x else y := by
  rw [← (ite_lt_eq_ite_le toInt_injective x y).1]; simp [BitVec.slt]
theorem maxSigned_eq (x y : Dword) : (if x.slt y then y else x) = if x.toInt ≤ y.toInt then y else x := by
  rw [← (ite_lt_eq_ite_le toInt_injective x y).2]; simp [BitVec.slt]
theorem minUnsigned_eq (x y : Dword) : (if x.ult y then x else y) = if x.toNat ≤ y.toNat then x else y := by
  rw [← (ite_lt_eq_ite_le toNat_injective x y).1]; simp [BitVec.ult]
theorem maxUnsigned_eq (x y : Dword) : (if x.ult y then y else x) = if x.toNat ≤ y.toNat then y else x := by
  rw [← (ite_lt_eq_ite_le toNat_injective x y).2]; simp [BitVec.ult]
theorem mul_eq_ofInt (x y : Dword) : x * y = BitVec.ofInt 64 (x.toInt * y.toInt) := by
  rw [BitVec.ofInt_mul, BitVec.ofInt_toInt, BitVec.ofInt_toInt]
theorem divS_eq (x y : Dword) : divS x y = if y = 0 then 0xFFFFFFFFFFFFFFFF
    else if x.toInt = -(2 ^ 63) ∧ y.toInt = -1 then BitVec.ofInt 64 (-(2 ^ 63)) else BitVec.ofInt 64 (x.toInt.tdiv y.toInt) := by
  unfold divS
  split
  · rfl
  · split
    next h => rw [← h.1, BitVec.ofInt_toInt]
    next => rfl
theorem bswap64_byte (x : Dword) (i : Nat) (hi : i < 8) : (bswap64 x).extractLsb' (8 * i) 8 = x.extractLsb' (8 * (7 - i)) 8 := by
  unfold bswap64
  interval_cases i <;> simp (disch := omega) only [BitVec.extractLsb'_append_eq_of_le, BitVec.extractLsb'_append_eq_of_add_le, Nat.reduceMul,
    Nat.reduceSub, BitVec.extractLsb'_eq_self]

/-! ## The rows of the tables -/

section
variable {s : State} {x y : Dword} {d a b : Reg} (hx : s.x a = x) {P : Dword → State → Prop} (hP : ∀ v, P v (s.setX d v).advance)
include hx hP

/-- What the two-operand operations give, where P says how a result lands. -/
theorem binary_rows (hy : s.x b = y) :
    let n := y.toNat % 64
    let Gives (i : Instr) (v : Dword) : Prop := Runs i s (P v)
    Gives (.add d a b) (x + y) ∧ Gives (.sub d a b) (x - y) ∧ Gives (.and d a b) (x &&& y) ∧ Gives (.or d a b) (x ||| y) ∧
    Gives (.xor d a b) (x ^^^ y) ∧ Gives (.andn d a b) (x &&& ~~~y) ∧ Gives (.orn d a b) (x ||| ~~~y) ∧
    Gives (.sll d a b) (x <<< n) ∧ Gives (.srl d a b) (x >>> n) ∧ Gives (.sra d a b) (x.sshiftRight n) ∧
    Gives (.rotl d a b) (x.rotateLeft n) ∧ Gives (.rotr d a b) (x.rotateRight n) ∧
    Gives (.slt d a b) (if x.toInt < y.toInt then 1 else 0) ∧ Gives (.sltn d a b) (if x.toNat < y.toNat then 1 else 0) ∧
    Gives (.min d a b) (if x.toInt ≤ y.toInt then x else y) ∧ Gives (.max d a b) (if x.toInt ≤ y.toInt then y else x) ∧
    Gives (.minn d a b) (if x.toNat ≤ y.toNat then x else y) ∧ Gives (.maxn d a b) (if x.toNat ≤ y.toNat then y else x) ∧
    Gives (.mul d a b) (BitVec.ofInt 64 (x.toInt * y.toInt)) ∧
    Gives (.mulh d a b) ((BitVec.ofInt 128 (x.toInt * y.toInt)).extractLsb' 64 64) ∧
    Gives (.mulhn d a b) ((BitVec.ofNat 128 (x.toNat * y.toNat)).extractLsb' 64 64) ∧
    Gives (.div d a b) (if y = 0 then 0xFFFFFFFFFFFFFFFF
      else if x.toInt = -(2 ^ 63) ∧ y.toInt = -1 then BitVec.ofInt 64 (-(2 ^ 63)) else BitVec.ofInt 64 (x.toInt.tdiv y.toInt)) ∧
    Gives (.rem d a b) (if y = 0 then x
      else if x.toInt = -(2 ^ 63) ∧ y.toInt = -1 then 0 else BitVec.ofInt 64 (x.toInt - y.toInt * x.toInt.tdiv y.toInt)) ∧
    Gives (.divn d a b) (if y = 0 then 0xFFFFFFFFFFFFFFFF else BitVec.ofNat 64 (x.toNat / y.toNat)) ∧
    Gives (.remn d a b) (if y = 0 then x else BitVec.ofNat 64 (x.toNat % y.toNat)) := by
  have row {f i v} (hi : exec i s = aluDAB f d a b s) (hv : f x y = v) : Runs i s (P v) := ⟨_, hi, by rw [hx, hy, hv]; exact hP v⟩
  exact ⟨row exec_add rfl, row exec_sub rfl, row exec_and rfl, row exec_or rfl, row exec_xor rfl, row exec_andn rfl, row exec_orn rfl,
    row exec_sll (by rw [amount_eq]), row exec_srl (by rw [amount_eq]), row exec_sra (by rw [amount_eq]), row exec_rotl (by rw [amount_eq]),
    row exec_rotr (by rw [amount_eq]), row exec_slt (ofBit_slt ..), row exec_sltn (ofBit_ult ..), row exec_min (minSigned_eq ..),
    row exec_max (maxSigned_eq ..), row exec_minn (minUnsigned_eq ..), row exec_maxn (maxUnsigned_eq ..), row exec_mul (mul_eq_ofInt ..),
    row exec_mulh (mulHigh_int ..), row exec_mulhn (mulHigh_nat ..), row exec_div (divS_eq ..), row exec_rem rfl, row exec_divn rfl, row exec_remn rfl⟩
/-- What the one-operand operations give. -/
theorem unary_rows :
    let Gives (i : Instr) (v : Dword) : Prop := Runs i s (P v)
    (∃ n, n ≤ 64 ∧ Gives (.clz d a) (BitVec.ofNat 64 n) ∧ (∀ i, i < n → x.getLsbD (63 - i) = false) ∧ (n < 64 → x.getLsbD (63 - n) = true)) ∧
    (∃ n, n ≤ 64 ∧ Gives (.ctz d a) (BitVec.ofNat 64 n) ∧ (∀ i, i < n → x.getLsbD i = false) ∧ (n < 64 → x.getLsbD n = true)) ∧
    Gives (.popc d a) (BitVec.ofNat 64 ((List.range 64).countP (fun i => x.getLsbD i))) ∧
    (∃ v, Gives (.bswap d a) v ∧ ∀ i, i < 8 → v.extractLsb' (8 * i) 8 = x.extractLsb' (8 * (7 - i)) 8) := by
  have row {f i v} (hi : exec i s = aluDA f d a s) (hv : f x = v) : Runs i s (P v) := ⟨_, hi, by rw [hx, hv]; exact hP v⟩
  obtain ⟨hclz, hzeros, hone⟩ := clzUp_spec x 64
  obtain ⟨hctz, hzeros', hone'⟩ := ctzUp_spec x 64 0
  simp only [Nat.zero_add] at hzeros' hone'
  exact ⟨⟨_, hclz, row exec_clz rfl, hzeros, hone⟩, ⟨_, hctz, row exec_ctz rfl, hzeros', hone'⟩,
    row exec_popc (congrArg (BitVec.ofNat 64) (forN_countP _ 64)), _, row exec_bswap rfl, bswap64_byte _⟩
/-- What the operations with an immediate, lui and auipc give. -/
theorem immediate_rows {pc : Dword} (hpc : s.pc = pc) (imm : BitVec 16) (n : BitVec 6) (up : BitVec 21) :
    let Gives (i : Instr) (v : Dword) : Prop := Runs i s (P v)
    Gives (.addi d a imm) (x + BitVec.ofInt 64 imm.toInt) ∧ Gives (.andi d a imm) (x &&& BitVec.ofNat 64 imm.toNat) ∧
    Gives (.ori d a imm) (x ||| BitVec.ofNat 64 imm.toNat) ∧ Gives (.xori d a imm) (x ^^^ BitVec.ofNat 64 imm.toNat) ∧
    Gives (.slti d a imm) (if x.toInt < imm.toInt then 1 else 0) ∧
    Gives (.sltni d a imm) (if x.toNat < (BitVec.ofInt 64 imm.toInt).toNat then 1 else 0) ∧
    Gives (.sllI d a n) (x <<< n.toNat) ∧ Gives (.srlI d a n) (x >>> n.toNat) ∧ Gives (.sraI d a n) (x.sshiftRight n.toNat) ∧
    Gives (.rotrI d a n) (x.rotateRight n.toNat) ∧
    Gives (.lui d up) (BitVec.ofInt 64 (up.toInt * 4096)) ∧ Gives (.auipc d up) (pc + BitVec.ofInt 64 (up.toInt * 4096)) := by
  have row {f i v} (hi : exec i s = aluDA f d a s) (hv : f x = v) : Runs i s (P v) := ⟨_, hi, by rw [hx, hv]; exact hP v⟩
  refine ⟨row exec_addi (by rw [signExtend_imm16]), row exec_andi (by rw [zeroExtend_imm16]), row exec_ori (by rw [zeroExtend_imm16]),
    row exec_xori (by rw [zeroExtend_imm16]), row exec_slti ?slti, row exec_sltni (by rw [ofBit_ult, signExtend_imm16]), row exec_sllI rfl,
    row exec_srlI rfl, row exec_sraI rfl, row exec_rotrI rfl, ⟨_, exec_lui, ?lui⟩, ⟨_, exec_auipc, ?auipc⟩⟩
  case slti => rw [ofBit_slt, BitVec.toInt_signExtend_of_le (by decide)]
  case lui => rw [upper_toInt]; exact hP _
  case auipc => rw [upper_toInt, hpc]; exact hP _
end

/-! ## The statement -/

/-- Settles O1: the rows, where a result lands in a strand's register. -/
theorem integerResult : Obligations.IntegerResult :=
  ⟨fun _ _ d a b h => binary_rows (State.x_strand h a) (gives_strand h d) (State.x_strand h b),
    fun _ _ d a h => unary_rows (State.x_strand h a) (gives_strand h d),
    fun _ _ d a imm n up h => immediate_rows (State.x_strand h a) (gives_strand h d) (State.pc_strand h) imm n up⟩

end Sys2Proof.Machine
end

section
/-! Branches, jumps and temporal loops (R136, R137, R144, R501): lemmas for the statements BranchResult, JumpResult and LoopResult, and their
proofs. -/

namespace Sys2Proof.Machine
open Sys2Proof

section
variable {s : State} {k : Nat} (h : s.actor = .strand k)
include h

/-! ## Branches (R136) -/

theorem relTarget_strand (off : BitVec 13) : relTarget s off = (s.strand k).pc + BitVec.ofInt 64 (4 * off.toInt) := by
  rw [relTarget, State.pc_strand h, signExtend_off13]
/-- What a branch under a condition does, which its form tests by a Boolean. -/
theorem branch_goes {i : Instr} {c : Bool} {C : Prop} {off : BitVec 13} {w : Word} (hi : exec i s = branch c off w s) (hc : c = true ↔ C) :
    (¬C → Runs i s (StrandBecomes s k (s.strand k).onward)) ∧
    (C → ¬((s.strand k).level = .user ∧ (s.strand k).pc + BitVec.ofInt 64 (4 * off.toInt) = 0) →
      Runs i s (StrandBecomes s k { s.strand k with pc := (s.strand k).pc + BitVec.ofInt 64 (4 * off.toInt), wait := {} })) := by
  refine ⟨fun hn => ⟨_, hi, ?_⟩, fun hy ht => ⟨_, hi, ?_⟩⟩
  · rw [if_neg (fun hc' => hn (hc.1 hc'))]; exact onward_strand h
  · rw [if_pos (hc.2 hy), relTarget_strand h, jumpTo_strand h _ _ ht]; exact becomes_upd s k _
/-- A taken branch to address 0 at user level ends the strand, or traps where it holds a task (R501). -/
theorem branch_ends {i : Instr} {c : Bool} {off : BitVec 13} {w : Word} (hi : exec i s = branch c off w s) (hc : c = true)
    (ht : (s.strand k).pc + BitVec.ofInt 64 (4 * off.toInt) = 0) : exec i s = .next (jumpTo s 0 w) := by
  rw [hi, branch, if_pos hc, relTarget_strand h, ht]

/-! ## Jumps to address 0 (R501) -/

/-- An instruction that ends its strand, or traps where the strand holds a task. -/
theorem jumpTo_ends {i : Instr} {w : Word} (hu : (s.strand k).level = .user) (hi : exec i s = .next (jumpTo s 0 w)) :
    ((s.strand k).task = none → Runs i s (StrandBecomes s k { s.strand k with ending := true })) ∧
    ((s.strand k).task ≠ none → Runs i s (fun t => t = raise s ⟨.illegalInstruction, w.zeroExtend 64, 0⟩)) := by
  rw [jumpTo_end h w hu] at hi
  refine ⟨fun hn => ⟨_, hi, ?_⟩, fun hn => ⟨_, hi, ?_⟩⟩
  · rw [if_neg (by simp [hn])]; exact becomes_upd s k _
  · rw [if_pos (Option.isSome_iff_ne_none.2 hn)]; rfl
theorem linkTo_zero (d : Reg) (w : Word) (hu : (s.strand k).level = .user) : linkTo s d 0 w = jumpTo s 0 w := by
  rw [linkTo, if_pos (by simp [endsStrand, State.isCell_strand h, State.me_strand h, hu])]
theorem execJl_strand (off : BitVec 26) :
    execJl off s = .next (linkTo s 1 ((s.strand k).pc + BitVec.ofInt 64 (4 * off.toInt)) (wJl off)) := by
  rw [execJl, State.pc_strand h, signExtend_off26]
theorem execJlr_aligned {d a : Reg} {imm : BitVec 16} (ha : (readX (s.strand k).x a + BitVec.ofInt 64 imm.toInt).toNat % 4 = 0) :
    execJlr d a imm s = .next (linkTo s d (readX (s.strand k).x a + BitVec.ofInt 64 imm.toInt) (wJlr d a imm)) := by
  rw [execJlr, State.x_strand h, signExtend_imm16]
  exact if_neg (fun hm => (lowTwo_ne_zero _).1 hm ha)
theorem execJlr_misaligned {d a : Reg} {imm : BitVec 16} (ha : (readX (s.strand k).x a + BitVec.ofInt 64 imm.toInt).toNat % 4 ≠ 0) :
    execJlr d a imm s = .next (raise s ⟨.misaligned, readX (s.strand k).x a + BitVec.ofInt 64 imm.toInt, 0⟩) := by
  rw [execJlr, State.x_strand h, signExtend_imm16]
  exact if_pos ((lowTwo_ne_zero _).2 ha)
end

/-! ## Words (R102, R136, R137) -/

theorem toNat_append_add {m n : Nat} (x : BitVec m) (y : BitVec n) : (x ++ y).toNat = x.toNat * 2 ^ n + y.toNat := by
  rw [BitVec.toNat_append, ← Nat.shiftLeft_add_eq_or_of_lt y.isLt, Nat.shiftLeft_eq]
theorem encMS_toNat (maj : BitVec 6) (x y : Reg) (w : BitVec 3) (off : BitVec 13) :
    (encMS maj x y w off).toNat = maj.toNat * 2 ^ 26 + x.toNat * 2 ^ 21 + y.toNat * 2 ^ 16 + w.toNat * 2 ^ 13 + off.toNat := by
  simp only [encMS, toNat_append_add]; ring
theorem encRI_toNat (maj : BitVec 6) (d a : Reg) (imm : BitVec 16) :
    (encRI maj d a imm).toNat = maj.toNat * 2 ^ 26 + d.toNat * 2 ^ 21 + a.toNat * 2 ^ 16 + imm.toNat := by
  simp only [encRI, toNat_append_add]; ring
theorem encJM_toNat (maj : BitVec 6) (off : BitVec 26) : (encJM maj off).toNat = maj.toNat * 2 ^ 26 + off.toNat :=
  toNat_append_add maj off

/-! ## The statements -/

/-- Settles O4: each branch tests its condition by a Boolean, and its word is that of format BC. -/
theorem branchResult : Obligations.BranchResult := by
  intro s k a b off h
  have rows {i c C w} (hi : exec i s = branch c off w s) (hc : c = true ↔ C) := branch_goes h hi hc
  simp only [← State.x_strand h]
  refine ⟨rows exec_beq (by simp), rows exec_bne (by simp), rows exec_blt (by simp [BitVec.slt]), rows exec_bge (by simp [BitVec.slt]),
    rows exec_bltn (by simp [BitVec.ult]), rows exec_bgen (by simp [BitVec.ult]), fun n i hi => ?_⟩
  simp only [List.mem_cons, Prod.mk.injEq, List.not_mem_nil, or_false] at hi
  rcases hi with ⟨rfl, rfl⟩ | ⟨rfl, rfl⟩ | ⟨rfl, rfl⟩ | ⟨rfl, rfl⟩ | ⟨rfl, rfl⟩ | ⟨rfl, rfl⟩ <;>
    exact congrArg some (encMS_toNat ..)

/-- Settles O5: a jump links and goes unless its target is misaligned, or is 0 at user level. -/
theorem jumpResult : Obligations.JumpResult := by
  refine ⟨fun s k d a imm off h => ?goes, fun s k d a b off imm far h hu => ?ends⟩
  case goes =>
    exact ⟨fun hn => ⟨_, exec_jl.trans (execJl_strand h off), link_gives h 1 _ _ hn⟩,
      fun ha hn => ⟨_, exec_jlr.trans (execJlr_aligned h ha), link_gives h d _ _ hn⟩,
      fun ha => ⟨_, exec_jlr.trans (execJlr_misaligned h ha), rfl⟩, congrArg some (encJM_toNat ..), congrArg some (encRI_toNat ..)⟩
  case ends =>
    refine ⟨fun ht => jumpTo_ends h hu ?_, fun ht => jumpTo_ends h hu ?_, fun ht hxy => jumpTo_ends h hu ?_, fun ht hxy => jumpTo_ends h hu ?_⟩
    · rw [exec_jl, execJl_strand h, ht, linkTo_zero h _ _ hu]
    · rw [exec_jlr, execJlr_aligned h (by rw [ht]; rfl), ht, linkTo_zero h _ _ hu]
    · exact branch_ends h exec_beq (by simpa [State.x_strand h] using hxy) ht
    · exact branch_ends h exec_bne (by simpa [State.x_strand h] using hxy) ht

/-! ## Temporal loops (R144, R419) -/

/-- A kernel's progress changes the count of that kernel alone. -/
theorem noteProgress_eq (s : State) (k : Nat) : noteProgress s k = { s with kernels := (noteProgress s k).kernels } := by
  unfold noteProgress
  repeat' split
  all_goals rfl
theorem sfind_noteProgress (s : State) (k j : Nat) : sfind (noteProgress s k).kernels j =
    if (s.groupOf k).map (·.kernel) = some j then (sfind s.kernels j).map (fun q => { q with idleNs := 0 }) else sfind s.kernels j := by
  unfold noteProgress
  cases hg : s.groupOf k with
  | none => simp
  | some g =>
    simp only [Option.map_some, Option.some.injEq]
    cases hk : sfind s.kernels g.kernel with
    | none =>
      by_cases hj : g.kernel = j
      · subst hj; simp [hk]
      · rw [if_neg hj]
    | some n =>
      rw [sfind_sput]
      by_cases hj : j = g.kernel
      · subst hj; simp [hk]
      · rw [if_neg hj, if_neg (Ne.symm hj)]

/-- From s to t strand k becomes q and its kernel makes progress; nothing else changes. -/
def LoopsTo (s : State) (k : Nat) (q : Strand) (t : State) : Prop :=
  t.strand k = q ∧ (∀ j, j ≠ k → t.strand j = s.strand j) ∧ { t with strands := s.strands, kernels := s.kernels } = s ∧
  ∀ j, sfind t.kernels j = if (s.groupOf k).map (·.kernel) = some j then (sfind s.kernels j).map (fun q => { q with idleNs := 0 })
                           else sfind s.kernels j
theorem noteProgress_strand (s : State) (k j : Nat) : (noteProgress s k).strand j = s.strand j := by rw [noteProgress_eq]; rfl
theorem noteProgress_upd_loopsTo (s : State) (k : Nat) (f : Strand → Strand) : LoopsTo s k (f (s.strand k)) ((noteProgress s k).upd k f) := by
  refine ⟨by rw [State.strand_upd_self, noteProgress_strand], fun j hj => by rw [State.strand_upd_of_ne _ _ hj, noteProgress_strand], ?_,
    sfind_noteProgress s k⟩
  rw [noteProgress_eq]; rfl

section
variable {s : State} {k : Nat} (h : s.actor = .strand k) {n : BitVec 2} {b : Reg} {off : BitVec 13}
include h

theorem noteProgress_actor : (noteProgress s k).actor = .strand k := by rw [noteProgress_eq]; exact h
theorem noteProgress_updMe (f : Strand → Strand) : (noteProgress s k).updMe f = (noteProgress s k).upd k f := by
  rw [State.updMe, State.key_strand (noteProgress_actor h)]
/-- A loop that goes on counts, and jumps. -/
theorem tloop_branches (hn : ((s.strand k).tlc[n.toNat]'n.isLt + 1).toNat < (readX (s.strand k).x b).toNat)
    (ht : ¬((s.strand k).level = .user ∧ (s.strand k).pc + BitVec.ofInt 64 (4 * off.toInt) = 0)) :
    execTloop n b off s = .next ((noteProgress s k).upd k (fun t => { t with
      tlc := t.tlc.set n.toNat ((s.strand k).tlc[n.toNat]'n.isLt + 1) n.isLt, pc := (s.strand k).pc + BitVec.ofInt 64 (4 * off.toInt), wait := {} })) := by
  have hends : endsStrand s (relTarget s off) = false := by
    rw [endsStrand, State.isCell_strand h, State.me_strand h, relTarget_strand h]; simpa using ht
  simp only [execTloop, State.me_strand h, State.x_strand h, State.key_strand h, BitVec.ult, decide_eq_true_eq, if_pos hn, hends, Bool.false_and, noteProgress_updMe h]
  rw [if_neg (by simp), relTarget_strand h, jumpTo_strand (k := k) (by exact noteProgress_actor h) _ _ (by simpa [noteProgress_strand] using ht), State.upd_upd]
/-- A loop that is over starts its count again. -/
theorem tloop_ends (hn : ¬((s.strand k).tlc[n.toNat]'n.isLt + 1).toNat < (readX (s.strand k).x b).toNat) :
    execTloop n b off s = .next ((noteProgress s k).upd k (fun t => { t.onward with tlc := t.tlc.set n.toNat 0 n.isLt })) := by
  simp only [execTloop, State.me_strand h, State.x_strand h, State.key_strand h, BitVec.ult, decide_eq_true_eq, if_neg hn, noteProgress_updMe h]
  rw [State.advance_strand (k := k) (by exact noteProgress_actor h), State.upd_upd]
  rfl
end

/-- Settles O8: either way the strand is changed after its kernel's progress is noted. -/
theorem loopResult : Obligations.LoopResult := by
  intro s k n b off h
  exact ⟨fun hn ht => ⟨_, exec_tloop.trans (tloop_branches h hn ht), noteProgress_upd_loopsTo s k _⟩,
    fun hn => ⟨_, exec_tloop.trans (tloop_ends h hn), noteProgress_upd_loopsTo s k _⟩⟩

end Sys2Proof.Machine
end

section
/-! The system instructions (R145 to R151, R148, R499): lemmas for the statements SystemTraps, WaitAndHalt and MaintenanceResult, and their
proofs. -/

namespace Sys2Proof.Machine
open Sys2Proof

/-! ## Traps (R145, R146, R149 to R151) -/

theorem dbgEnabled_iff (s : State) (n : Nat) : dbgEnabled s n = true ↔ ∃ j, j < 3 ∧ (s.strand (3 * n + j)).f.dbgen = true := by
  simp only [dbgEnabled, List.any_eq_true, mem_upFrom]
  exact ⟨fun ⟨i, hi, hd⟩ => ⟨i - 3 * n, by omega, by rwa [show 3 * n + (i - 3 * n) = i by omega]⟩, fun ⟨j, hj, hd⟩ => ⟨_, by omega, hd⟩⟩

section
variable {s : State} {k : Nat} (h : s.actor = .strand k)
include h

/-- An executive-only instruction at user level (R145). -/
theorem execOnly_traps {i : Instr} {w : Word} {f : State → State} (hi : exec i s = execOnly w f s) (hu : (s.strand k).level = .user) :
    Runs i s (fun t => t = raise s ⟨.privilege, w.zeroExtend 64, 0⟩) :=
  runs_eq (by rw [hi, execOnly, State.me_strand h, if_pos hu]; rfl)
/-- An executive-only instruction above user level. -/
theorem execOnly_runs {w : Word} {f : State → State} (hu : (s.strand k).level ≠ .user) : execOnly w f s = .next (f s) := by
  rw [execOnly, State.me_strand h, if_neg hu]
theorem execHalt_traps (hn : (s.strand k).level = .user ∨ dbgEnabled s (k / 3) = false) : execHalt s = .next (raise s (privileged wHalt)) := by
  rw [execHalt, State.me_strand h, State.core, State.key_strand h, if_pos (by simpa [coreOf] using hn)]
theorem execHalt_halts (hu : (s.strand k).level ≠ .user) (hd : dbgEnabled s (k / 3) = true) : execHalt s = .next (haltCore s.advance (k / 3)) := by
  rw [execHalt, State.me_strand h, State.core, State.key_strand h, if_neg (by simpa [coreOf, hu] using hd)]; rfl
end

/-- Settles O10: each instruction takes its exception at the levels named. -/
theorem systemTraps : Obligations.SystemTraps := by
  refine ⟨fun s k h => ?calls, fun s k a b h => ⟨fun hu => ?user, fun hn => ?halt⟩⟩
  case calls =>
    have xcall (r : TrapInfo) (hr : (if (s.strand k).level = .user then (⟨.xcall, 0, 0⟩ : TrapInfo) else illegal wXcall) = r) :
        Runs .xcall s (fun t => t = raise s r) :=
      runs_eq (by rw [exec_xcall, execXcall, State.me_strand h, ← hr]; split <;> rfl)
    have fcall (r : TrapInfo) (hr : (match (s.strand k).level with
        | .user => privileged wFcall | .executive => ⟨.fcall, 0, 0⟩ | .firmware => illegal wFcall) = r) : Runs .fcall s (fun t => t = raise s r) :=
      runs_eq (by rw [exec_fcall, execFcall, State.me_strand h, ← hr]; cases (s.strand k).level <;> rfl)
    exact ⟨runs_eq rfl, fun hl => xcall _ (if_pos hl), fun hl => xcall _ (if_neg hl), fun hl => fcall _ (by rw [hl]), fun hl => fcall _ (by rw [hl]; rfl),
      fun hl => fcall _ (by rw [hl]; rfl), runs_eq rfl⟩
  case user =>
    exact ⟨execOnly_traps h exec_tlbinvPage hu, execOnly_traps h exec_tlbinvAsid hu, execOnly_traps h exec_tlbinvAll hu, execOnly_traps h exec_cwbImage hu⟩
  case halt =>
    refine runs_eq (exec_halt.trans (execHalt_traps h (hn.imp_right fun hd => ?_)))
    rw [Bool.eq_false_iff, Ne, dbgEnabled_iff]
    exact fun ⟨j, hj, ht⟩ => by simp [hd j hj] at ht

/-! ## Waiting for the event latch, and debug halt (R148, R499) -/

/-- The limit of a wait has passed at a time. -/
theorem limitPassed_iff (w : Wait) (n : Nat) : (w.expired || w.deadline.any (fun d => decide (d ≤ n))) = true ↔
    w.expired = true ∨ ∃ d, w.deadline = some d ∧ d ≤ n := by
  cases hd : w.deadline <;> simp

section
variable {s : State} {k : Nat} (h : s.actor = .strand k)
include h

/-- The latch of a strand, or the limit of its wait, lets wfe complete (R148). -/
theorem execWfe_completes {a : Reg} (hp : (s.strand k).event = true ∨ (s.strand k).wait.expired = true ∨
    ∃ d, (s.strand k).wait.deadline = some d ∧ d ≤ s.timeNs.toNat) :
    execWfe a s = .next (s.upd k (fun t => { t.onward with event := false })) := by
  simp only [execWfe, State.me_strand h]
  rw [if_pos (by rwa [Bool.or_eq_true, limitPassed_iff]), State.updMe, State.key_strand h, State.advance_strand (k := k) (by exact h),
    State.upd_upd]
  rfl
theorem execWfe_waits {a : Reg} (he : (s.strand k).event = false) (hp : ¬((s.strand k).wait.expired = true ∨
    ∃ d, (s.strand k).wait.deadline = some d ∧ d ≤ s.timeNs.toNat)) :
    execWfe a s = .next (s.upd k (fun t => { t with wait := { t.wait with
      blocked := true, past := true
      deadline := if a = 0 then none else some ((s.strand k).wait.deadline.getD (s.timeNs.toNat + (readX (s.strand k).x a).toNat)) } })) := by
  simp only [execWfe, State.me_strand h, State.x_strand h]
  rw [if_neg (by rw [Bool.or_eq_true, limitPassed_iff, he]; exact fun hc => hp (hc.resolve_left (by simp))), State.updMe, State.key_strand h]
  rfl
end

/-- Settles O12: wfe completes or waits by its latch and its limit, and halt sets the core's control block after it completes. -/
theorem waitAndHalt : Obligations.WaitAndHalt := by
  refine ⟨fun s k a h => ⟨fun hp => ⟨_, exec_wfe.trans (execWfe_completes h hp), becomes_upd s k _⟩,
    fun he hp => ⟨_, exec_wfe.trans (execWfe_waits h he hp), becomes_upd s k _⟩⟩, fun s k j h hu hj hd => ?halt⟩
  have hself := State.strand_upd_self s k (·.onward)
  have hothers i := State.strand_upd_of_ne s (k := k) (j := i) (·.onward)
  obtain ⟨hregs, hcores⟩ := updCore_becomes (s.upd k (·.onward)) (k / 3)
    (fun c => { c with halted := true, settled := false, timeout := false, haltAt := s.now })
  have hexec := execHalt_halts h hu ((dbgEnabled_iff ..).2 ⟨j, hj, hd⟩)
  rw [State.advance_strand h] at hexec
  exact ⟨_, exec_halt.trans hexec, hself, hothers, rfl, hcores, hregs⟩

/-! ## Releases that an instruction begins with (R271, R303, R397) -/

section
variable {s : State} {k : Nat} (h : s.actor = .strand k) {sc : Scope}
include h

theorem core_strand : s.core = k / 3 := by rw [State.core, State.key_strand h]; rfl
theorem waitOf_strand : s.waitOf = (s.strand k).wait := by rw [State.waitOf, h]
theorem setWait_strand (w : Wait) : s.setWait w = s.upd k (fun t => { t with wait := w }) := by rw [State.setWait, h]
theorem blockRelease_strand : StrandBecomes s k { s.strand k with wait := { (s.strand k).wait with
    blocked := true, since := some ((s.strand k).wait.since.getD s.timeNs.toNat), out := none } } s.blockRelease := by
  rw [State.blockRelease, setWait_strand h, waitOf_strand h]; exact becomes_upd s k _
theorem releasing_waits {i : Instr} {f : State → State} (hi : exec i s = .next (releasing sc f s)) (hw : releaseWaits s (k / 3) sc = true) :
    ReleaseWaits i s k := by
  rw [releasing, core_strand h, if_pos hw, releaseTimeout, waitOf_strand h] at hi
  refine ⟨fun hv ho => ⟨_, runs_eq (by rw [hi, if_pos ⟨hv, ho⟩])⟩, fun hn => ⟨_, by rw [hi, if_neg hn], blockRelease_strand h⟩⟩
theorem releasing_released {f : State → State} (hw : releaseWaits s (k / 3) sc = false) :
    releasing sc f s = f (release s (k / 3) sc) := by
  rw [releasing, core_strand h, if_neg (by simp [hw])]
end

theorem CachesOnly.strand_x {s t : State} (hc : CachesOnly s t) (j : Nat) : (t.strand j).x = (s.strand j).x ∧ (t.strand j).pc = (s.strand j).pc ∧
    (t.strand j).replay = (s.strand j).replay := by
  obtain ⟨l, hl⟩ := hc.2 j
  rw [hl]; exact ⟨rfl, rfl, rfl⟩

/-- Going on to the next instruction changes no x register and no captured body. -/
theorem advance_keeps {s : State} {k : Nat} (h : s.actor = .strand k) (j : Nat) :
    (s.advance.strand j).x = (s.strand j).x ∧ (s.advance.strand j).replay = (s.strand j).replay := by
  rw [State.advance_strand h, State.strand_upd]
  split
  next hj => rw [hj]; exact ⟨rfl, rfl⟩
  next => exact ⟨rfl, rfl⟩

/-! ## Translations (R149, R312) -/

/-- From s to t strand k has removed the translations that gone names, its core's registrations having reached their homes. -/
def TranslationsGone (s : State) (k : Nat) (gone : TlbEntry → Prop) (t : State) : Prop :=
  (∀ e, e ∈ t.tlb ↔ e ∈ s.tlb ∧ ¬gone e) ∧ (∀ q ∈ t.pending, q ∈ s.pending ∧ q.core ≠ k / 3 ∧ q.by_ ≠ k / 3) ∧
  t.mem = s.mem ∧ t.vregs = s.vregs ∧ t.tiles = s.tiles ∧
  (t.strand k).x = (s.strand k).x ∧ (t.strand k).pc = (s.strand k).pc + 4 ∧
  (∀ j, j ≠ k → (t.strand j).x = (s.strand j).x ∧ (t.strand j).pc = (s.strand j).pc)

section
variable {s : State} {k : Nat} (h : s.actor = .strand k)
include h

theorem tlbinv_removes {i : Instr} {which : TlbEntry → Bool} {asid : BitVec 16 → Bool} {gone : TlbEntry → Prop}
    (hi : exec i s = .next (tlbinv which asid s)) (hw : ∀ e, which e = true ↔ gone e) :
    (releaseWaits s (k / 3) .device = true → ReleaseWaits i s k) ∧
    (releaseWaits s (k / 3) .device = false → Runs i s (TranslationsGone s k gone)) := by
  refine ⟨releasing_waits h hi, fun hr => ⟨_, by rw [hi, tlbinv, releasing_released h hr], ?_⟩⟩
  have hc := release_caches s (k / 3) .device
  have ha : (removeTranslations (release s (k / 3) .device) which asid).actor = .strand k := hc.actor.trans h
  have hx (j : Nat) : ((removeTranslations (release s (k / 3) .device) which asid).strand j).x = (s.strand j).x ∧
      ((removeTranslations (release s (k / 3) .device) which asid).strand j).pc = (s.strand j).pc :=
    ⟨(hc.strand_x j).1, (hc.strand_x j).2.1⟩
  rw [State.advance_strand ha]
  refine ⟨fun e => ?tlb, fun q hq => drainCore_pending s _ q hq, hc.mem, hc.vregs, hc.tiles, ?x, ?pc, fun j hj => ?others⟩
  case tlb => simp [removeTranslations, hc.tlb, ← hw]
  case x => rw [State.strand_upd_self]; exact (hx k).1
  case pc => rw [State.strand_upd_self]; exact congrArg (· + 4) (hx k).2
  case others => rw [State.strand_upd_of_ne _ _ hj]; exact hx j
end

/-! ## Instruction caches and captured bodies (R101, R150, R203) -/

/-- A strand whose captured body is dropped. -/
def Strand.uncaptured (t : Strand) : Strand := { t with replay := t.replay.map (fun r => { r with words := [] }) }
theorem strand_discardCode (s : State) (names : Nat → Bool) (j : Nat) :
    (discardCode s names).strand j = if names (j / 3) then (s.strand j).uncaptured else s.strand j := by
  have hm := sget_map {} (fun j t => if names (j / 3) then Strand.uncaptured t else t) s.strands j (by split <;> rfl)
  rw [State.strand, State.strand, ← hm, discardCode]
  congr 1
  refine List.map_congr_left fun p _ => ?_
  by_cases hn : names (p.1 / 3)
  · simp only [coreOf, hn, if_true]; rfl
  · simp only [coreOf, hn, Bool.false_eq_true, if_false]

/-- From s to t strand k has discarded the code of the cores that names holds of, and the launch unit's checks are as checks says. -/
def CodeGone (s : State) (k : Nat) (names : Nat → Prop) (checks : List ImageCheck → Prop) (t : State) : Prop :=
  (∀ q, q ∈ t.icache ↔ q ∈ s.icache ∧ ¬names (q.1 / 2 ^ 50)) ∧
  (∀ j, names (j / 3) → (t.strand j).replay = (s.strand j).replay.map (fun r => { r with words := [] })) ∧
  (∀ j, ¬names (j / 3) → (t.strand j).replay = (s.strand j).replay) ∧ checks t.lu.checks ∧
  t.mem = s.mem ∧ t.vregs = s.vregs ∧ t.tiles = s.tiles ∧
  (∀ j, (t.strand j).x = (s.strand j).x) ∧ (t.strand k).pc = (s.strand k).pc + 4 ∧ (∀ j, j ≠ k → (t.strand j).pc = (s.strand j).pc)

section
variable {s : State} {k : Nat} (h : s.actor = .strand k)
include h

/-- An instruction that releases, and then changes the launch unit's checks by g and discards the code of some cores. -/
theorem cwb_discards {i : Instr} {sc : Scope} {f : State → State} {g : LaunchUnit → LaunchUnit} {named : Nat → Bool} {names : Nat → Prop}
    {checks : List ImageCheck → Prop} (hi : exec i s = .next (releasing sc f s))
    (hf : ∀ u : State, u.actor = .strand k → f u = (discardCode (u.updLu g) named).advance) (hn : ∀ n, named n = true ↔ names n)
    (hg : checks (g s.lu).checks) :
    (releaseWaits s (k / 3) sc = true → ReleaseWaits i s k) ∧ (releaseWaits s (k / 3) sc = false → Runs i s (CodeGone s k names checks)) := by
  refine ⟨releasing_waits h hi, fun hr => ?_⟩
  have hc := release_caches s (k / 3) sc
  have ha := hc.actor.trans h
  have hd : (discardCode ((release s (k / 3) sc).updLu g) named).actor = .strand k := ha
  have hs (j : Nat) : (discardCode ((release s (k / 3) sc).updLu g) named).strand j =
      if named (j / 3) then ((release s (k / 3) sc).strand j).uncaptured else (release s (k / 3) sc).strand j := strand_discardCode _ named j
  have hx (j : Nat) : ((discardCode ((release s (k / 3) sc).updLu g) named).strand j).x = (s.strand j).x ∧
      ((discardCode ((release s (k / 3) sc).updLu g) named).strand j).pc = (s.strand j).pc := by
    rw [hs]; split <;> exact ⟨(hc.strand_x j).1, (hc.strand_x j).2.1⟩
  refine ⟨_, by rw [hi, releasing_released h hr, hf _ ha], fun q => ?icache, fun j hj => ?replay, fun j hj => ?kept, ?checks, ?mem, ?vregs, ?tiles,
    fun j => (advance_keeps hd j).1.trans (hx j).1, ?pc, fun j hj => ?others⟩
  case icache => rw [State.advance_strand hd]; simp [discardCode, State.updLu, hc.icache, ← hn]
  case replay => rw [(advance_keeps hd j).2, hs, if_pos ((hn _).2 hj), Strand.uncaptured, (hc.strand_x j).2.2]
  case kept => rw [(advance_keeps hd j).2, hs, if_neg (fun hy => hj ((hn _).1 hy)), (hc.strand_x j).2.2]
  case checks => rw [State.advance_strand hd, State.upd_lu]; rwa [← hc.lu] at hg
  case mem => rw [State.advance_strand hd]; exact hc.mem
  case vregs => rw [State.advance_strand hd]; exact hc.vregs
  case tiles => rw [State.advance_strand hd]; exact hc.tiles
  case pc => rw [State.advance_strand hd, State.strand_upd_self]; exact congrArg (· + 4) (hx k).2
  case others => rw [State.advance_strand hd, State.strand_upd_of_ne _ _ hj]; exact (hx j).2
end

/-- Settles O13: each form names its translations, or its cores and checks, by a Boolean test. -/
theorem maintenanceResult : Obligations.MaintenanceResult := by
  refine ⟨fun s k a b h hu => ?tlbinv, fun s k a b h => ?cwb⟩
  case tlbinv =>
    refine ⟨tlbinv_removes h (exec_tlbinvPage.trans (execOnly_runs h hu)) fun e => ?_,
      tlbinv_removes h (exec_tlbinvAsid.trans (execOnly_runs h hu)) fun e => ?_,
      tlbinv_removes h (exec_tlbinvAll.trans (execOnly_runs h hu)) fun e => by simp⟩
    · simp [State.x_strand h, low, and_assoc]
    · simp [State.x_strand h, low]
  case cwb =>
    have keeping {i sc f named} (names) (hi) (hf) (hn) :=
      cwb_discards h (i := i) (sc := sc) (f := f) (g := id) (named := named) (names := names) (checks := (· = s.lu.checks)) hi hf hn rfl
    refine ⟨keeping (· = k / 3) exec_cwbCore (named := (· == k / 3)) (fun u hu => ?_) (by simp),
      keeping (fun n => n / 32 = k / 3 / 32) exec_cwbDie (named := fun n => dieOf n == dieOf (k / 3)) (fun u hu => ?_) (by simp [dieOf]),
      keeping (fun _ => True) exec_cwbDevice (named := fun _ => true) (fun u hu => rfl) (by simp),
      fun hl => cwb_discards h (names := fun _ => True) (checks := fun l => ∀ c, c ∈ l ↔
          c ∈ s.lu.checks ∧ ¬(c.image = readX (s.strand k).x a ∧ c.asid = (readX (s.strand k).x b).extractLsb' 0 16))
        (exec_cwbImage.trans (execOnly_runs h hl)) (fun u hu => rfl) (by simp) (fun c => ?_)⟩
    · rw [core_strand hu]; rfl
    · rw [core_strand hu]; rfl
    · simp [State.x_strand h, low, imp_iff_not_or]

end Sys2Proof.Machine
end

section
/-! Access to the special registers (R117, R142, R143, R191): lemmas for the statement SpecialAccess, and its proof. -/

namespace Sys2Proof.Machine
open Sys2Proof

/-! ## What an access tests -/

/-- The registers that user code only reads (R115). -/
def UserReadOnly (n : BitVec 12) : Prop :=
  n = 0x008 ∨ n = 0x009 ∨ n = 0x00A ∨ n = 0x00D ∨ n = 0x014 ∨ (0x020 ≤ n.toNat ∧ n.toNat ≤ 0x027)
theorem sprUserRO_iff (n : BitVec 12) : sprUserRO n = true ↔ UserReadOnly n := by
  simp [sprUserRO, UserReadOnly, ← BitVec.toNat_inj, or_assoc]
theorem ringNumber_iff (n : BitVec 12) : ringNumber n = true ↔ 0x40 ≤ n.toNat ∧ n.toNat < 0x60 := by simp [ringNumber]
/-- The registers whose read waits for an invocation of the strand (R143). -/
def WaitsForFabric (n : BitVec 12) : Prop :=
  n = 0x004 ∨ n = 0x007 ∨ n = 0x00D ∨ n = 0x010 ∨ n = 0x011 ∨ n = 0x012 ∨ n = 0x013
theorem fxidx_number_iff (n : BitVec 12) : (n.extractLsb' 2 10 : BitVec 10) = 0x004 ↔ n = 0x010 ∨ n = 0x011 ∨ n = 0x012 ∨ n = 0x013 := by
  simp only [← BitVec.toNat_inj, BitVec.extractLsb'_toNat, Nat.shiftRight_eq_div_pow, BitVec.ofNat_eq_ofNat, BitVec.toNat_ofNat]
  omega
theorem ringNumber_eq_ringReg {n : BitVec 12} (hr : 0x40 ≤ n.toNat ∧ n.toNat < 0x60) : ∃ i j, j < 4 ∧ n = ringReg i j := by
  refine ⟨BitVec.ofNat 3 ((n.toNat - 0x40) / 4), n.toNat % 4, by omega, BitVec.eq_of_toNat_eq ?_⟩
  simp only [ringReg, BitVec.toNat_ofNat]
  omega
/-- Every ring's register can be read. -/
theorem sprRead_ring_ne_none (s : State) (k : Nat) {n : BitVec 12} (hr : 0x40 ≤ n.toNat ∧ n.toNat < 0x60) : sprRead s k n ≠ none := by
  obtain ⟨i, j, hj, rfl⟩ := ringNumber_eq_ringReg hr
  interval_cases j
  · rw [sprRead_ringBase]; exact Option.some_ne_none _
  · rw [sprRead_ringGeom]; exact Option.some_ne_none _
  · rw [sprRead_ringHead]; exact Option.some_ne_none _
  · rw [sprRead_ringTail]; exact Option.some_ne_none _

/-! ## The checks (R117) -/

/-- A register above a strand's level. -/
def AboveLevel (s : State) (k : Nat) (n : BitVec 12) : Prop :=
  (0x200 ≤ n.toNat ∧ (s.strand k).level ≠ .firmware) ∨ (0x100 ≤ n.toNat ∧ (s.strand k).level = .user)

section
variable {s : State} {k : Nat} {n : BitVec 12} {w : Word}

theorem sprCheck_above (ha : AboveLevel s k n) : sprCheck s k n w = some ⟨.privilege, w.zeroExtend 64, 0⟩ := if_pos ha
theorem sprCheck_absent (ha : ¬AboveLevel s k n) (hn : sprRead s k n = none) : sprCheck s k n w = some ⟨.illegalInstruction, w.zeroExtend 64, 0⟩ :=
  (if_neg ha).trans (if_pos (by rw [hn]; rfl))
theorem sprCheck_undeclared (hr : 0x40 ≤ n.toNat ∧ n.toNat < 0x60) (hd : s.ringDeclared k ((n.toNat - 0x40) / 4) = false) :
    sprCheck s k n w = some ⟨.ringFault, BitVec.ofNat 64 ((n.toNat - 0x40) / 4), 0⟩ := by
  rw [sprCheck, if_neg (by omega), if_neg (by simp [sprRead_ring_ne_none s k hr]), if_pos ⟨hr.1, hr.2, by rw [hd]; rfl⟩]
theorem sprCheck_passes {v : Dword} (ha : ¬AboveLevel s k n) (hv : sprRead s k n = some v)
    (hd : 0x40 ≤ n.toNat ∧ n.toNat < 0x60 → s.ringDeclared k ((n.toNat - 0x40) / 4) = true) : sprCheck s k n w = none :=
  (if_neg ha).trans ((if_neg (by simp [hv])).trans (if_neg fun ⟨h1, h2, h3⟩ => by simp [hd ⟨h1, h2⟩] at h3))
end

section
variable {s : State} {k : Nat} (h : s.actor = .strand k) {n : BitVec 12}
include h

theorem block_strand : StrandBecomes s k { s.strand k with wait := { (s.strand k).wait with blocked := true } } s.block := by
  rw [State.block, setWait_strand h, waitOf_strand h]; exact becomes_upd s k _
theorem readWaits_iff : readWaits s n = true ↔ WaitsForFabric n ∧ ∃ i, sfind s.invs k = some i ∧ i.running = true := by
  simp only [readWaits, State.key_strand h, WaitsForFabric, Bool.and_eq_true, Bool.or_eq_true, beq_iff_eq, fxidx_number_iff, or_assoc, Option.any_eq_true]

/-! ## Writes (R142, R191) -/

/-- An instruction that passed the checks with a write of y. -/
theorem sprPut_runs {i : Instr} {y : Dword} (hi : exec i s = .next (sprPut n y s)) :
    ((s.strand k).level = .user ∧ UserReadOnly n → Runs i s (StrandBecomes s k (s.strand k).onward)) ∧
    (¬((s.strand k).level = .user ∧ UserReadOnly n) →
      ¬((0x40 ≤ n.toNat ∧ n.toNat < 0x60) ∧ s.ringInFlight k (BitVec.ofNat 3 ((n.toNat - 0x40) / 4)) = true) →
      Runs i s (fun t => t = (sprWrite s k n y).advance)) ∧
    ((0x40 ≤ n.toNat ∧ n.toNat < 0x60) ∧ s.ringInFlight k (BitVec.ofNat 3 ((n.toNat - 0x40) / 4)) = true →
      Runs i s (StrandBecomes s k { s.strand k with wait := { (s.strand k).wait with blocked := true } })) := by
  have hcond : (ringNumber n && s.ringInFlight s.key (BitVec.ofNat 3 ((n.toNat - 0x040) / 4))) = true ↔
      (0x40 ≤ n.toNat ∧ n.toNat < 0x60) ∧ s.ringInFlight k (BitVec.ofNat 3 ((n.toNat - 0x40) / 4)) = true := by
    rw [Bool.and_eq_true, ringNumber_iff, State.key_strand h]
  refine ⟨fun hro => ⟨_, hi, ?ignored⟩, fun hw hf => ⟨_, hi, ?written⟩, fun hf => ⟨_, hi, ?waits⟩⟩
  case ignored =>
    have hnr : ¬(0x40 ≤ n.toNat ∧ n.toNat < 0x60) := by
      obtain ⟨-, hn⟩ := hro
      simp only [UserReadOnly, ← BitVec.toNat_inj, BitVec.ofNat_eq_ofNat, BitVec.toNat_ofNat] at hn
      omega
    rw [sprPut, if_neg (fun hc => hnr (hcond.1 hc).1), sprInstrWrite, State.key_strand h, if_pos ⟨hro.1, (sprUserRO_iff n).2 hro.2⟩]
    exact onward_strand h
  case written =>
    rw [sprPut, if_neg (fun hc => hf (hcond.1 hc)), sprInstrWrite, State.key_strand h, if_neg (fun hc => hw ⟨hc.1, (sprUserRO_iff n).1 hc.2⟩)]
  case waits => rw [sprPut, if_pos (hcond.2 hf)]; exact block_strand h
end

/-! ## The statement -/

/-- Settles O6: the checks pass or trap alike for the four instructions; then a read waits or answers, and a write waits, is ignored or is made. -/
theorem specialAccess : Obligations.SpecialAccess := by
  refine ⟨fun s k d a n v h hv hf hu => ?reached, fun s k d a n h => ?trapped⟩
  case reached =>
    intro ring hd p x waits running taken Writes
    have hpass (w : Word) (e : State) : checked (sprCheck s s.key n w) e s = .next e := by
      rw [State.key_strand h, sprCheck_passes (fun ha => ha.elim (fun hl => hl.2 (hf hl.1)) (fun hl => hu hl.1 hl.2)) hv hd]; rfl
    have hval : (sprRead s s.key n).getD 0 = v := by rw [State.key_strand h, hv]; rfl
    have hx : s.x a = x := State.x_strand h a
    have hmfs : exec (.mfs d n) s = .next (if readWaits s n then s.block else (s.setX d v).advance) := by rw [exec_mfs, execMfs, hpass, hval]
    refine ⟨fun hn => ⟨_, hmfs, ?_⟩, fun hy => ⟨_, hmfs, ?_⟩, sprPut_runs h ?_, sprPut_runs h ?_, sprPut_runs h ?_⟩
    · rw [if_neg (fun hc => hn ((readWaits_iff h).1 hc))]; exact gives_strand h d v
    · rw [if_pos ((readWaits_iff h).2 hy)]; exact block_strand h
    · rw [exec_mts, execMts, hpass, hx]
    · rw [exec_sset, execSset, hpass, hval, hx]
    · rw [exec_sclr, execSclr, hpass, hval, hx]
  case trapped =>
    have trap (r : Word → TrapInfo) (hr : ∀ w, sprCheck s k n w = some (r w)) :
        ∀ iw ∈ [(Instr.mfs d n, wMfs d n), (.mts n a, wMts n a), (.sset n a, wSset n a), (.sclr n a, wSclr n a)],
          Runs iw.1 s (fun t => t = raise s (r iw.2)) := by
      have hc (w : Word) (e : State) : checked (sprCheck s s.key n w) e s = .next (raise s (r w)) := by rw [State.key_strand h, hr]; rfl
      simp only [List.forall_mem_cons, List.not_mem_nil, false_imp_iff, implies_true, and_true]
      exact ⟨runs_eq (hc ..), runs_eq (hc ..), runs_eq (hc ..), runs_eq (hc ..)⟩
    exact ⟨fun ha => trap _ fun _ => sprCheck_above ha, fun ha hn => trap _ fun _ => sprCheck_absent ha hn,
      fun h1 h2 hd => trap _ fun _ => sprCheck_undeclared ⟨h1, h2⟩ hd⟩

end Sys2Proof.Machine
end

section
/-! Scalar loads and stores (R132, R133, R195, R289): lemmas for the statements ScalarAccess and LocalMemory, and their proofs. -/

namespace Sys2Proof.Machine
open Sys2Proof

/-! ## One access (R132) -/

section
variable {s : State} {k : Nat} (h : s.actor = .strand k) {n : Nat} {a : Reg} {off : BitVec 13}
include h

theorem effAddr_strand : effAddr (s.x a) off n = readX (s.strand k).x a + BitVec.ofInt 64 (off.toInt * n) := by
  rw [effAddr_toInt, State.x_strand h]
/-- A load is its access, whose value goes extended into xd and whose trap is the load's. -/
theorem load_accesses {i : Instr} {ext : Nat → Dword} {d : Reg} (hi : exec i s = runInstr (loadInstr n ext d a off) s) :
    (∀ v s', loadN s.ctx (readX (s.strand k).x a + BitVec.ofInt 64 (off.toInt * n)) n 0 0 s = .ok v s' →
      Runs i s (fun t => t = (s'.setX d (ext v)).advance)) ∧
    (∀ r s', loadN s.ctx (readX (s.strand k).x a + BitVec.ofInt 64 (off.toInt * n)) n 0 0 s = .error (.trap r) s' → Runs i s (fun t => t = raise s' r)) := by
  rw [← effAddr_strand h]
  exact ⟨fun v s' hv => runs_eq (hi.trans (loadInstr_ok (State.isCell_strand h) hv)),
    fun r s' hr => runs_eq (hi.trans (loadInstr_trap (State.isCell_strand h) hr))⟩
/-- A store is its access, whose trap is the store's. -/
theorem store_accesses {i : Instr} {r : Reg} (hi : exec i s = runInstr (storeInstr n r a off) s) :
    (∀ s', storeN s.ctx (readX (s.strand k).x a + BitVec.ofInt 64 (off.toInt * n)) n ((readX (s.strand k).x r).toNat % 2 ^ (8 * n)) 0 0 s = .ok () s' →
      Runs i s (fun t => t = s'.advance)) ∧
    (∀ q s', storeN s.ctx (readX (s.strand k).x a + BitVec.ofInt 64 (off.toInt * n)) n ((readX (s.strand k).x r).toNat % 2 ^ (8 * n)) 0 0 s
      = .error (.trap q) s' → Runs i s (fun t => t = raise s' q)) := by
  rw [← effAddr_strand h, ← State.x_strand h r]
  exact ⟨fun s' hs => runs_eq (hi.trans (storeInstr_ok (State.isCell_strand h) hs)),
    fun q s' hq => runs_eq (hi.trans (storeInstr_trap (State.isCell_strand h) hq))⟩
end

/-! ## The checks of an access, in their order (R133) -/

theorem resolve_misaligned {s : State} {ea : Dword} {n e lane : Nat} {acc : Acc} (hm : ea.toNat % n ≠ 0) :
    resolve s.ctx ea n acc e lane s = .error (.trap ⟨.misaligned, ea, e⟩) s := by
  unfold resolve; rw [bindM_get, if_pos hm]; rfl

section
variable {s : State} {k : Nat} (h : s.actor = .strand k) {ea : Dword} {n v e lane : Nat}
include h

/-- An access outside window 0x00, or misaligned, goes through no cocoon: it is resolved. -/
theorem route_resolves {acc : Acc} (hn : ¬(winCode ea = 0 ∧ ea.toNat % n = 0)) {r : TrapInfo}
    (hr : resolve s.ctx ea n acc e lane s = .error (.trap r) s) : route s.ctx ea n acc e lane s = .error (.trap r) s := by
  have hcocoon : (if s.ctx.tlb && winCode ea == 0 && ea.toNat % n == 0 then cocoonOfGlobal s (coreOf s.ctx.key) s.ctx.asid ea.toNat else none) = none :=
    if_neg (by simp only [Bool.and_eq_true, beq_iff_eq, not_and]; tauto)
  unfold route
  rw [bindM_get, hcocoon]
  simp only [State.isCell_strand h, Bool.and_false, Bool.false_and, Bool.false_eq_true, if_false]
  exact bindM_error hr
theorem access_traps {r : TrapInfo} (hn : ¬(winCode ea = 0 ∧ ea.toNat % n = 0)) (hr : ∀ acc, resolve s.ctx ea n acc e lane s = .error (.trap r) s) :
    loadN s.ctx ea n e lane s = .error (.trap r) s ∧ storeN s.ctx ea n v e lane s = .error (.trap r) s :=
  ⟨bindM_error (route_resolves h hn (hr .read)), bindM_error (route_resolves h hn (hr .write))⟩
theorem resolve_windowInvalid {acc : Acc} (ha : ea.toNat % n = 0) (hw : windowSize s k (winCode ea) = none) :
    resolve s.ctx ea n acc e lane s = .error (.trap ⟨.windowInvalid, ea, e⟩) s := by
  unfold resolve; rw [bindM_get, if_neg (by omega), (ctx_strand h).1, hw]; rfl
theorem resolve_privilege {acc : Acc} (ha : ea.toNat % n = 0) (hw : winCode ea = 0xFE) (hu : (s.strand k).level = .user)
    (hr : ¬userMayReach s (s.strand k).e.asid (winOff ea / 4 * 4) = true) : resolve s.ctx ea n acc e lane s = .error (.trap ⟨.privilege, ea, e⟩) s := by
  obtain ⟨hkey, -, hasid, huser⟩ := ctx_strand h
  have hsize : windowSize s k (winCode ea) = some 0x200000 := by rw [hw]; rfl
  unfold resolve
  rw [bindM_get, if_neg (by omega), hkey, hsize]
  simp only [hasid, huser]
  rw [if_pos ⟨hw, by simpa using hu, by simpa using hr⟩]; rfl
theorem resolve_windowRange {acc : Acc} {size : Nat} (ha : ea.toNat % n = 0) (hw : windowSize s k (winCode ea) = some size) (ho : size ≤ winOff ea)
    (hr : ¬(winCode ea = 0xFE ∧ (s.strand k).level = .user ∧ ¬userMayReach s (s.strand k).e.asid (winOff ea / 4 * 4) = true)) :
    resolve s.ctx ea n acc e lane s = .error (.trap ⟨.windowRange, ea, e⟩) s := by
  obtain ⟨hkey, -, hasid, huser⟩ := ctx_strand h
  unfold resolve
  rw [bindM_get, if_neg (by omega), hkey, hw]
  simp only [hasid, huser]
  rw [if_neg (by simpa using hr), if_pos ho]; rfl
end

/-- Settles O14: each instruction is one access, and each check of an access traps before any later one and before anything changes. -/
theorem scalarAccess : Obligations.ScalarAccess := by
  refine ⟨fun s k d a off h => ?loads, fun s k r a off h => ?stores, fun s k ea n v e lane h hw => ?checks⟩
  case loads =>
    exact ⟨load_accesses h exec_ld8, load_accesses h exec_ld8s, load_accesses h exec_ld16, load_accesses h exec_ld16s, load_accesses h exec_ld32,
      load_accesses h exec_ld32s, load_accesses h exec_ld64⟩
  case stores => exact ⟨store_accesses h exec_st8, store_accesses h exec_st16, store_accesses h exec_st32, store_accesses h exec_st64⟩
  case checks =>
    have hzero : windowSize s k 0 ≠ none := Option.some_ne_none _
    exact ⟨fun hm => access_traps h (fun hc => hm hc.2) fun _ => resolve_misaligned hm,
      fun ha hw => access_traps h (fun hc => hzero (hc.1 ▸ hw)) fun _ => resolve_windowInvalid h ha hw,
      fun ha hc hu hr => access_traps h (fun h0 => by omega) fun _ => resolve_privilege h ha hc hu hr,
      fun size ha hc hw ho hr => access_traps h (fun h0 => hc h0.1) fun _ => resolve_windowRange h ha hw ho hr⟩

end Sys2Proof.Machine
end

section
/-! The bytes of a local window (R132, R133, R195, R289): lemmas for the statement LocalMemory, and its proof. -/

namespace Sys2Proof.Machine
open Sys2Proof

/-! ## The bytes that a store writes -/

/-- Byte i below n of a number is that byte of the number's low n bytes. -/
theorem byteOf_mod {n i : Nat} (v : Nat) (hi : i < n) : byteOf (v % 2 ^ (8 * n)) i = byteOf v i := by
  apply BitVec.eq_of_toNat_eq
  obtain ⟨j, rfl⟩ : ∃ j, n = i + (j + 1) := ⟨n - i - 1, by omega⟩
  have hp : 2 ^ (8 * (i + (j + 1))) = 256 ^ i * 256 ^ (j + 1) := by rw [pow_mul, ← pow_add]; norm_num
  simp only [byteOf, BitVec.toNat_ofNat]
  rw [hp, Nat.mod_mul_right_div_self, Nat.mod_mod_of_dvd _ (show 2 ^ 8 ∣ 256 ^ (j + 1) from Dvd.intro_left (256 ^ j) rfl)]
/-- Each byte of a range, after a number has been written there. -/
theorem mem_read_writeN_inside (m : List Host.Cell) (a n v c : Nat) (h : Memory.wf m = true) (hl : a ≤ c) (hc : c < a + n) :
    Mem.read (Mem.writeN m a n v) c = byteOf v (c - a) := by
  induction n generalizing m a v with
  | zero => omega
  | succ n ih =>
    have hw := memory_wf_write m a (BitVec.ofNat 8 v) h
    rw [Mem.writeN]
    by_cases hac : c = a
    · subst hac
      rw [mem_read_writeN _ _ _ _ _ hw (by omega), mem_read_write m 0 c c _ h, if_pos rfl, Nat.sub_self]
      simp [byteOf]
    · obtain ⟨j, rfl⟩ : ∃ j, c = a + 1 + j := ⟨c - a - 1, by omega⟩
      rw [ih _ _ _ hw (by omega) (by omega), Nat.add_sub_cancel_left, show a + 1 + j - a = j + 1 by omega]
      simp only [byteOf, Nat.div_div_eq_div_mul, Nat.pow_succ, Nat.mul_comm]

/-! ## What a store to a local window leaves -/

theorem mem_nsErase {l : NatSet} {k j : Nat} : j ∈ nsErase l k ↔ j ∈ l ∧ j ≠ k := by simp [nsErase]

/-- The poisoned words after a store of n bytes: the words that it writes whole are clean. -/
def unpoisoned (l : NatSet) (f n : Nat) : NatSet :=
  let p := if n < 4 then l else nsErase l (f / 4)
  if n = 8 then nsErase p (f / 4 + 1) else p
theorem mem_unpoisoned {l : NatSet} {f n w : Nat} (hn : n = 1 ∨ n = 2 ∨ n = 4 ∨ n = 8) :
    w ∈ unpoisoned l f n ↔ w ∈ l ∧ ¬(4 ≤ n ∧ f / 4 ≤ w ∧ w < f / 4 + n / 4) := by
  unfold unpoisoned
  rcases hn with rfl | rfl | rfl | rfl
  case inl => simp
  case inr.inl => simp
  case inr.inr.inl => rw [if_neg (by decide), if_neg (by decide), mem_nsErase]; exact and_congr_right fun _ => by omega
  case inr.inr.inr => rw [if_pos rfl, if_neg (by decide), mem_nsErase, mem_nsErase, and_assoc]; exact and_congr_right fun _ => by omega

/-- The state after a store of n bytes to flat address f of local memory (R195, R289). -/
def stored (s : State) (f n v : Nat) : State :=
  breakLinks (clearRingFlags { s with mem := Mem.writeN s.mem f n v, poison := unpoisoned s.poison f n } f) f
/-- Such a store writes its bytes, cleans its words, and otherwise changes links and slot flags of strands alone. -/
theorem stored_stores {s : State} {f n v : Nat} (hw : Memory.wf s.mem = true) (hn : n = 1 ∨ n = 2 ∨ n = 4 ∨ n = 8) :
    Stores s (stored s f n (v % 2 ^ (8 * n))) f n v ∧
    (∀ w, w ∈ (stored s f n (v % 2 ^ (8 * n))).poison ↔ w ∈ s.poison ∧ ¬(4 ≤ n ∧ f / 4 ≤ w ∧ w < f / 4 + n / 4)) := by
  have hmem : (stored s f n (v % 2 ^ (8 * n))).mem = Mem.writeN s.mem f n (v % 2 ^ (8 * n)) := by
    unfold stored breakLinks breakLinksOf clearRingFlags; split <;> split <;> rfl
  have hpoison : (stored s f n (v % 2 ^ (8 * n))).poison = unpoisoned s.poison f n := by
    unfold stored breakLinks breakLinksOf clearRingFlags; split <;> split <;> rfl
  refine ⟨⟨hmem ▸ memory_wf_writeN _ _ _ _ hw, fun a => ?_⟩, fun w => hpoison ▸ mem_unpoisoned hn⟩
  rw [hmem]
  split
  next ha => rw [mem_read_writeN_inside _ _ _ _ _ hw ha.1 ha.2, byteOf_mod v (by omega)]
  next ha => exact mem_read_writeN _ _ _ _ _ hw (by omega)
theorem stored_frame (s : State) (f n v : Nat) : { stored s f n v with strands := s.strands, mem := s.mem, poison := s.poison } = s := by
  unfold stored breakLinks breakLinksOf clearRingFlags; split <;> split <;> rfl
theorem stored_actor (s : State) (f n v : Nat) : (stored s f n v).actor = s.actor := (congrArg State.actor (stored_frame s f n v) :)
theorem stored_unflagged (s : State) (f n v j : Nat) : ((stored s f n v).strand j).unflagged = (s.strand j).unflagged :=
  unflagged_local _ f j

section
variable {s : State} {k : Nat} (h : s.actor = .strand k) {ea : Dword} {n : Nat} (hl : LocalAccess s k ea n)
include h hl

/-- A store of fewer than four bytes into a poisoned word takes MEM_POISON (R305). -/
theorem storeN_local_poisoned {v e : Nat} (hn : n < 4) (hp : flatOf s k ea / 4 ∈ s.poison) :
    storeN s.ctx ea n v e 0 s = .error (.trap ⟨.memPoison, ea, e⟩) s := by
  rw [storeN_local h hl]
  exact congrFun (if_pos (by simp [hn, hp])) s
theorem storeN_local_lands {v e : Nat} (hp : ¬(n < 4 ∧ flatOf s k ea / 4 ∈ s.poison)) :
    storeN s.ctx ea n v e 0 s = .ok () (stored s (flatOf s k ea) n v) := by
  rw [storeN_local h hl]
  exact congrFun (if_neg (by simpa using hp)) s
end

/-! ## Loads and stores of a local window -/

section
variable {s : State} {k : Nat} (h : s.actor = .strand k) {n : Nat} {a : Reg} {off : BitVec 13} (hn : n = 1 ∨ n = 2 ∨ n = 4 ∨ n = 8)
  (hl : LocalAccess s k (readX (s.strand k).x a + BitVec.ofInt 64 (off.toInt * n)) n)
include h hn hl

theorem load_local {i : Instr} {ext : Nat → Dword} {d : Reg} (hi : exec i s = runInstr (loadInstr n ext d a off) s) :
    let ea := readX (s.strand k).x a + BitVec.ofInt 64 (off.toInt * n)
    (Unpoisoned s (flatOf s k ea) n → Runs i s (StrandBecomes s k ((s.strand k).gives d (ext (Mem.readN s.mem (flatOf s k ea) n))))) ∧
    (¬Unpoisoned s (flatOf s k ea) n → Runs i s (fun t => t = raise s ⟨.memPoison, ea, 0⟩)) := by
  obtain ⟨answers, traps⟩ := load_accesses h hi
  refine ⟨fun hu => ?_, fun hu => traps _ _ ((loadN_local h hl 0 hn).2 hu)⟩
  obtain ⟨_, ht, rfl⟩ := answers _ _ ((loadN_local h hl 0 hn).1 hu)
  exact ⟨_, ht, gives_strand h d _⟩
theorem store_local {i : Instr} {r : Reg} (hi : exec i s = runInstr (storeInstr n r a off) s) (hw : Memory.wf s.mem = true) :
    let ea := readX (s.strand k).x a + BitVec.ofInt 64 (off.toInt * n)
    let f := flatOf s k ea
    (n < 4 → f / 4 ∈ s.poison → Runs i s (fun t => t = raise s ⟨.memPoison, ea, 0⟩)) ∧
    (¬(n < 4 ∧ f / 4 ∈ s.poison) → Runs i s (fun t =>
      Stores s t f n (readX (s.strand k).x r).toNat ∧
      (∀ w, w ∈ t.poison ↔ w ∈ s.poison ∧ ¬(4 ≤ n ∧ f / 4 ≤ w ∧ w < f / 4 + n / 4)) ∧
      (t.strand k).unflagged = (s.strand k).onward.unflagged ∧ (∀ j, j ≠ k → (t.strand j).unflagged = (s.strand j).unflagged) ∧
      { t with strands := s.strands, mem := s.mem, poison := s.poison } = s)) := by
  obtain ⟨lands, traps⟩ := store_accesses (r := r) h hi
  refine ⟨fun h4 hp => traps _ _ (storeN_local_poisoned h hl h4 hp), fun hp => ?_⟩
  obtain ⟨_, ht, rfl⟩ := lands _ (storeN_local_lands h hl hp)
  refine ⟨_, ht, ?_⟩
  generalize hf : flatOf s k _ = f
  generalize hv : (readX (s.strand k).x r).toNat = v
  obtain ⟨hstores, hpoison⟩ := stored_stores (f := f) (v := v) hw hn
  have hactor : (stored s f n (v % 2 ^ (8 * n))).actor = .strand k := (stored_actor ..).trans h
  obtain ⟨hk, hj, hframe⟩ := onward_strand hactor
  have hmem : (stored s f n (v % 2 ^ (8 * n))).advance.mem = (stored s f n (v % 2 ^ (8 * n))).mem := (congrArg State.mem hframe :)
  have hpois : (stored s f n (v % 2 ^ (8 * n))).advance.poison = (stored s f n (v % 2 ^ (8 * n))).poison := (congrArg State.poison hframe :)
  refine ⟨⟨hmem ▸ hstores.1, hmem ▸ hstores.2⟩, hpois ▸ hpoison, ?onward, fun j hne => ?other, ?frame⟩
  case onward =>
    rw [hk]
    calc (stored s f n (v % 2 ^ (8 * n)) |>.strand k).onward.unflagged
        = ((stored s f n (v % 2 ^ (8 * n)) |>.strand k).unflagged).onward := rfl
      _ = (s.strand k).onward.unflagged := by rw [stored_unflagged]; rfl
  case other => rw [hj j hne, stored_unflagged]
  case frame =>
    rw [State.advance_strand hactor]
    exact stored_frame s f n _
end

/-- Settles O15: a local load reads the bytes at its flat address, and a local store is `stored`. -/
theorem localMemory : Obligations.LocalMemory := by
  refine ⟨fun s k d a off h => ?loads, fun s k r a off h hw => ?stores⟩
  case loads =>
    have row {i : Instr} {n : Nat} (ext : Nat → Dword) (hn : n = 1 ∨ n = 2 ∨ n = 4 ∨ n = 8) (hi : exec i s = runInstr (loadInstr n ext d a off) s) :=
      fun hl => load_local h hn hl hi
    exact ⟨row (BitVec.ofNat 64) (by decide) exec_ld8, row (fun v => (BitVec.ofNat 8 v).signExtend 64) (by decide) exec_ld8s,
      row (BitVec.ofNat 64) (by decide) exec_ld16, row (fun v => (BitVec.ofNat 16 v).signExtend 64) (by decide) exec_ld16s,
      row (BitVec.ofNat 64) (by decide) exec_ld32, row (fun v => (BitVec.ofNat 32 v).signExtend 64) (by decide) exec_ld32s,
      row (BitVec.ofNat 64) (by decide) exec_ld64⟩
  case stores =>
    exact ⟨fun hl => store_local h (by decide) hl exec_st8 hw, fun hl => store_local h (by decide) hl exec_st16 hw,
      fun hl => store_local h (by decide) hl exec_st32 hw, fun hl => store_local h (by decide) hl exec_st64 hw⟩

end Sys2Proof.Machine
end

section
/-! Exact values, quotients and square roots of finite floating-point numbers (R139, R140): lemmas for the statement FpRounded. -/

namespace Sys2Proof.Machine
open Sys2Proof

/-! ## Exact values (R139, R158) -/

theorem signedInt_cast (n : Bool) (m : Nat) : ((signedInt n m : Int) : ℚ) = (if n then -1 else 1) * (m : ℚ) := by
  cases n <;> simp [signedInt]
theorem valueOf_signedInt (n : Bool) (m : Nat) (e : Int) : valueOf n m e = (signedInt n m : ℚ) * 2 ^ e := by rw [signedInt_cast]; rfl
/-- A magnitude brought to a lower exponent stands for the same value. -/
theorem valueOf_lower (n : Bool) (m : Nat) {e u : Int} (h : u ≤ e) : valueOf n (m * 2 ^ (e - u).toNat) u = valueOf n m e := by
  have hp : (2 : ℚ) ^ (e - u).toNat * 2 ^ u = 2 ^ e := by
    rw [← zpow_natCast, ← zpow_add₀ (by norm_num)]; congr 1; omega
  simp only [valueOf, Nat.cast_mul, Nat.cast_pow, Nat.cast_ofNat]
  rw [← hp]; ring
theorem valueOf_mul (n1 n2 : Bool) (m1 m2 : Nat) (e1 e2 : Int) :
    valueOf (n1 != n2) (m1 * m2) (e1 + e2) = valueOf n1 m1 e1 * valueOf n2 m2 e2 := by
  have hs : (if (n1 != n2) = true then (-1 : ℚ) else 1) = (if n1 then -1 else 1) * (if n2 then -1 else 1) := by
    cases n1 <;> cases n2 <;> norm_num
  simp only [valueOf, hs, Nat.cast_mul, zpow_add₀ (two_ne_zero' ℚ)]
  ring
/-- A signed multiple of 2^e as an exact value. -/
theorem ofInt_fin (N e : Int) (z : Bool) : ∃ n m, ofInt N e z = .fin n m e ∧ valueOf n m e = N * 2 ^ e ∧ (m = 0 → n = z) := by
  unfold ofInt
  split
  next h => exact ⟨z, 0, rfl, by simp [valueOf, h], fun _ => rfl⟩
  next h =>
    refine ⟨_, _, rfl, ?_, fun h0 => absurd (Int.natAbs_eq_zero.1 h0) h⟩
    rw [valueOf_signedInt]
    congr 2
    by_cases hn : N < 0
    · simp only [signedInt, hn, decide_true, if_true]; omega
    · simp only [signedInt, hn, decide_false, Bool.false_eq_true, if_false]; omega
theorem exactAdd_fin (rm : RMode) (n1 : Bool) (m1 : Nat) (e1 : Int) (n2 : Bool) (m2 : Nat) (e2 : Int) :
    ∃ n m e, exactAdd rm n1 m1 e1 n2 m2 e2 = .fin n m e ∧ valueOf n m e = valueOf n1 m1 e1 + valueOf n2 m2 e2 ∧
      (m = 0 → n = if n1 = n2 then n1 else rm == .rdn) := by
  obtain ⟨n, m, heq, hval, hzero⟩ := ofInt_fin (signedInt n1 (m1 * 2 ^ (e1 - min e1 e2).toNat) + signedInt n2 (m2 * 2 ^ (e2 - min e1 e2).toNat))
    (min e1 e2) (if n1 = n2 then n1 else rm == .rdn)
  refine ⟨n, m, _, heq, ?_, hzero⟩
  rw [hval, Int.cast_add, add_mul, ← valueOf_signedInt, ← valueOf_signedInt, valueOf_lower _ _ (min_le_left ..), valueOf_lower _ _ (min_le_right ..)]
theorem plain_rdn (rm : RMode) : (rm.plain == .rdn) = decide (rm = .rdn) := by cases rm <;> rfl

/-- The sign of an exact zero sum (R139). -/
def zeroSign (rm : RMode) (same n : Bool) : Bool := if same then n else decide (rm = .rdn)
theorem zeroSign_eq (rm : RMode) (n1 n2 : Bool) : (if n1 = n2 then n1 else rm.plain == .rdn) = zeroSign rm (n1 == n2) n1 := by
  simp [zeroSign, plain_rdn]
theorem fpAddV_fin (F : Fmt) (rm : RMode) (n1 : Bool) (m1 : Nat) (e1 : Int) (n2 : Bool) (m2 : Nat) (e2 : Int) :
    ∃ n m e, fpAddV F rm (.fin n1 m1 e1) (.fin n2 m2 e2) = roundPlain F rm n m e ∧ valueOf n m e = valueOf n1 m1 e1 + valueOf n2 m2 e2 ∧
      (m = 0 → n = zeroSign rm (n1 == n2) n1) := by
  obtain ⟨n, m, e, heq, hval, hzero⟩ := exactAdd_fin rm.plain n1 m1 e1 n2 m2 e2
  exact ⟨n, m, e, by rw [fpAddV, heq, roundVal], hval, zeroSign_eq rm n1 n2 ▸ hzero⟩
theorem fpMulV_fin (F : Fmt) (rm : RMode) (n1 : Bool) (m1 : Nat) (e1 : Int) (n2 : Bool) (m2 : Nat) (e2 : Int) :
    fpMulV F rm (.fin n1 m1 e1) (.fin n2 m2 e2) = roundPlain F rm (n1 != n2) (m1 * m2) (e1 + e2) := rfl
theorem fpFmaV_fin (F : Fmt) (rm : RMode) (n1 : Bool) (m1 : Nat) (e1 : Int) (n2 : Bool) (m2 : Nat) (e2 : Int) (n3 : Bool) (m3 : Nat) (e3 : Int) :
    ∃ n m e, fpFmaV F rm (.fin n1 m1 e1) (.fin n2 m2 e2) (.fin n3 m3 e3) = roundPlain F rm n m e ∧
      valueOf n m e = valueOf n1 m1 e1 * valueOf n2 m2 e2 + valueOf n3 m3 e3 ∧ (m = 0 → n = zeroSign rm ((n1 != n2) == n3) n3) := by
  obtain ⟨n, m, e, heq, hval, hzero⟩ := fpAddV_fin F rm (n1 != n2) (m1 * m2) (e1 + e2) n3 m3 e3
  refine ⟨n, m, e, heq, by rw [hval, valueOf_mul], fun h => (hzero h).trans ?_⟩
  unfold zeroSign
  split
  next h' => exact eq_of_beq h'
  next => rfl

/-! ## Quotients and square roots (R140) -/

/-- A number cut off at 2^(e+1), with a bit below for what is left, rounds as the value from which it was cut. -/
theorem standsFor_jam {fb q : Nat} {e : Int} {exact : Prop} [Decidable exact] {below equal above : ℚ → Prop} (hq : 2 ^ (fb + 3) ≤ q)
    (heq : exact → equal (q * 2 ^ (e + 1))) (hne : ¬exact → below (q * 2 ^ (e + 1)) ∧ above ((q + 1) * 2 ^ (e + 1))) :
    StandsFor fb (2 * q + if exact then 0 else 1) e below equal above := by
  have hval : ∀ k : Nat, valueOf false (2 * k) e = (k : ℚ) * 2 ^ (e + 1) := fun k => by
    rw [zpow_add₀ (two_ne_zero' ℚ)]; simp [valueOf]; ring
  refine ⟨by rw [pow_succ]; omega, ?_⟩
  split
  next h => exact .inl (by rw [Nat.add_zero, hval]; exact heq h)
  next h =>
    obtain ⟨hb, ha⟩ := hne h
    refine .inr ⟨by omega, ?_, ?_⟩
    · rw [Nat.add_sub_cancel, hval]; exact hb
    · rw [show 2 * q + 1 + 1 = 2 * (q + 1) by ring, hval, Nat.cast_add_one]; exact ha
theorem jamDiv_standsFor {fb m1 m2 : Nat} (hfb : fb ≤ 60) (h1 : m1 ≠ 0) (h2 : m2 ≠ 0) (hlt : m2 < 2 ^ 64) (e1 e2 : Int) :
    StandsFor fb (jamDiv m1 m2 130) (e1 - e2 - 131) (· < valueOf false m1 e1 / valueOf false m2 e2)
      (· = valueOf false m1 e1 / valueOf false m2 e2) (valueOf false m1 e1 / valueOf false m2 e2 < ·) := by
  have hx : valueOf false m1 e1 / valueOf false m2 e2 = ((m1 * 2 ^ 130 : Nat) : ℚ) / m2 * 2 ^ (e1 - e2 - 131 + 1) := by
    rw [show e1 - e2 - 131 + 1 = e1 - e2 - 130 by ring, zpow_sub₀ (two_ne_zero' ℚ), zpow_sub₀ (two_ne_zero' ℚ)]
    simp only [valueOf, Nat.cast_mul, Nat.cast_pow, Nat.cast_ofNat]
    field_simp
  have hm : (0 : ℚ) < m2 := by exact_mod_cast Nat.pos_of_ne_zero h2
  have hp : (0 : ℚ) < 2 ^ (e1 - e2 - 131 + 1) := by positivity
  have hdiv := Nat.div_add_mod (m1 * 2 ^ 130) m2
  have hmod := Nat.mod_lt (m1 * 2 ^ 130) (Nat.pos_of_ne_zero h2)
  rw [hx]
  refine standsFor_jam ?_ (fun h => ?_) (fun h => ⟨?_, ?_⟩)
  · calc 2 ^ (fb + 3) ≤ 2 ^ 66 := Nat.pow_le_pow_right (by norm_num) (by omega)
      _ ≤ m1 * 2 ^ 130 / m2 := (Nat.le_div_iff_mul_le (by omega)).2 (by nlinarith [Nat.pos_of_ne_zero h1])
  · rw [Nat.cast_div (Nat.dvd_of_mod_eq_zero h) hm.ne']
  · refine mul_lt_mul_of_pos_right ?_ hp
    rw [lt_div_iff₀ hm]
    exact_mod_cast show _ < _ by rw [Nat.mul_comm]; omega
  · refine mul_lt_mul_of_pos_right ?_ hp
    rw [div_lt_iff₀ hm]
    exact_mod_cast show _ < _ by rw [Nat.add_mul, Nat.mul_comm _ m2]; omega

/-- The bit by bit search finds the integer square root. -/
theorem isqrt_spec (n k r : Nat) (hlo : r * r ≤ n) (hhi : n < (r + 2 ^ (k + 1)) * (r + 2 ^ (k + 1))) :
    isqrt n k r * isqrt n k r ≤ n ∧ n < (isqrt n k r + 1) * (isqrt n k r + 1) := by
  induction k generalizing r with
  | zero =>
    unfold isqrt
    split
    next h => exact ⟨h, hhi⟩
    next h => exact ⟨hlo, by omega⟩
  | succ k ih =>
    unfold isqrt
    split
    next h => exact ih _ h (by rw [pow_succ 2 (k + 1)] at hhi; rwa [show r + 2 ^ (k + 1) + 2 ^ (k + 1) = r + 2 ^ (k + 1) * 2 by ring])
    next h => exact ih _ hlo (by omega)
theorem isqrt_log2 (n : Nat) : isqrt n (Nat.log2 n / 2) 0 * isqrt n (Nat.log2 n / 2) 0 ≤ n ∧
    n < (isqrt n (Nat.log2 n / 2) 0 + 1) * (isqrt n (Nat.log2 n / 2) 0 + 1) := by
  refine isqrt_spec n _ 0 (by simp) ?_
  calc n < 2 ^ (Nat.log2 n + 1) := Nat.lt_log2_self
    _ ≤ 2 ^ (Nat.log2 n / 2 + 1 + (Nat.log2 n / 2 + 1)) := Nat.pow_le_pow_right (by norm_num) (by omega)
    _ = _ := by rw [zero_add, pow_add]
end Sys2Proof.Machine
end

section
/-! Square roots, and what rounding into a format gives: lemmas for the statements FpRounded and FpUnrounded. -/

namespace Sys2Proof.Machine
open Sys2Proof

/-! ## Square roots (R139, R140) -/

/-- The integer square root of a magnitude with 160 bits below it, with a bit below for what is left, stands for the root. -/
theorem jamSqrt_standsFor {fb m : Nat} (hfb : fb ≤ 60) (hm : m ≠ 0) (g : Int) :
    let big := m * 2 ^ 160
    let r := isqrt big (Nat.log2 big / 2) 0
    let x : ℚ := m * 2 ^ (2 * g)
    StandsFor fb (2 * r + if r * r = big then 0 else 1) (g - 81) (fun y => y * y < x) (fun y => y * y = x) (fun y => x < y * y) := by
  intro big r x
  obtain ⟨hlo, hhi⟩ : r * r ≤ big ∧ big < (r + 1) * (r + 1) := isqrt_log2 big
  have hpos : (0 : ℚ) < 2 ^ (2 * g - 160) := by positivity
  have hx : x = (big : ℚ) * 2 ^ (2 * g - 160) := by
    rw [zpow_sub₀ (two_ne_zero' ℚ)]
    simp only [x, big, Nat.cast_mul, Nat.cast_pow, Nat.cast_ofNat]
    field_simp
  have hsq : ∀ q : ℚ, q * 2 ^ (g - 81 + 1) * (q * 2 ^ (g - 81 + 1)) = q * q * 2 ^ (2 * g - 160) := fun q => by
    rw [show 2 * g - 160 = (g - 81 + 1) + (g - 81 + 1) by ring, zpow_add₀ (two_ne_zero' ℚ) (g - 81 + 1)]; ring
  have hbig : 2 ^ 80 * 2 ^ 80 ≤ big := by
    rw [← pow_add]; exact Nat.le_mul_of_pos_left _ (Nat.pos_of_ne_zero hm)
  refine standsFor_jam ?large (fun h => ?exact) (fun h => ⟨?below, ?above⟩)
  case large =>
    have hr : 2 ^ 80 < r + 1 := by
      by_contra hn
      exact absurd (Nat.mul_le_mul (Nat.le_of_not_lt hn) (Nat.le_of_not_lt hn)) (by omega)
    exact (Nat.pow_le_pow_right (by norm_num) (by omega)).trans (Nat.lt_succ_iff.1 hr)
  case exact => rw [hx, hsq, ← h]; push_cast; rfl
  case below =>
    rw [hx, hsq]
    exact mul_lt_mul_of_pos_right (by exact_mod_cast lt_of_le_of_ne hlo h) hpos
  case above =>
    rw [hx, hsq]
    exact mul_lt_mul_of_pos_right (by exact_mod_cast hhi) hpos
theorem fpSqrtV_standsFor {F : Fmt} (hfb : F.fb ≤ 60) (rm : RMode) {m : Nat} (hm : m ≠ 0) (e : Int) :
    ∃ m' e', fpSqrtV F rm (.fin false m e) = roundPlain F rm false m' e' ∧
      StandsFor F.fb m' e' (fun y => y * y < valueOf false m e) (fun y => y * y = valueOf false m e) (fun y => valueOf false m e < y * y) := by
  refine ⟨_, _, by rw [fpSqrtV, if_neg hm, if_neg Bool.false_ne_true], ?_⟩
  have hv : valueOf false m e = ((if e % 2 = 0 then m else 2 * m : Nat) : ℚ) * 2 ^ (2 * ((if e % 2 = 0 then e else e - 1) / 2)) := by
    split
    next h => simp [valueOf, show 2 * (e / 2) = e by omega]
    next h =>
      rw [show 2 * ((e - 1) / 2) = e - 1 by omega, zpow_sub₀ (two_ne_zero' ℚ)]
      simp only [valueOf, Nat.cast_mul, Nat.cast_ofNat]; field_simp; simp
  rw [hv]
  exact jamSqrt_standsFor hfb (by split <;> omega) _

/-! ## Rounding into a format (R162, R166) -/

/-- The exponent of the last place kept of m × 2^e in a format. -/
def roundPlace (F : Fmt) (m : Nat) (e : Int) : Int := max ((Nat.log2 m : Int) + e - F.fb) (F.emin - F.fb)
/-- The bits, sign apart, of m × 2^e rounded without bound. -/
def roundBits (F : Fmt) (rm : RMode) (d : Nat) (n : Bool) (m : Nat) (e : Int) : Nat :=
  (roundPlace F m e - (F.emin - F.fb)).toNat * 2 ^ F.fb + (roundAt rm n d m e (roundPlace F m e)).1

section
variable {F : Fmt} {rm : RMode} {sat n : Bool} {d m : Nat} {e : Int}

theorem roundTo_overflows (hm : m ≠ 0) (h : F.maxBits < roundBits F rm d n m e) : (roundTo F rm sat d n m e).flags &&& 0x24 ≠ 0 := by
  unfold roundBits roundPlace at h
  unfold roundTo
  rw [if_neg hm]
  simp only [gt_iff_lt]
  rw [if_pos h]
  cases sat
  · exact show flOf &&& 0x24 ≠ 0 by decide
  · exact show (flSat ||| flNx) &&& 0x24 ≠ 0 by decide
theorem roundTo_fits (hm : m ≠ 0) (h : roundBits F rm d n m e ≤ F.maxBits) :
    (roundTo F rm sat d n m e).bits = F.signed n (roundBits F rm d n m e) ∧
    ((roundAt rm n d m e (roundPlace F m e)).2 = false → (roundTo F rm sat d n m e).flags = 0) := by
  unfold roundBits roundPlace at *
  unfold roundTo
  rw [if_neg hm]
  simp only [gt_iff_lt]
  rw [if_neg (Nat.not_lt.2 h)]
  exact ⟨rfl, fun hx => by simp [hx, flIf]⟩
/-- Only RSR draws. -/
theorem roundTo_drew (hr : rm ≠ .rsr) : (roundTo F rm sat d n m e).drew = false := by
  have hrsr : (rm == .rsr) = false := by simpa using hr
  unfold roundTo
  simp only [hrsr, Bool.false_and]
  split <;> [rfl; split <;> [split <;> rfl; rfl]]

/-- A rounded magnitude has the bits that the format keeps, one more at a carry; above the smallest exponent it has them all. -/
theorem roundAt_range (hm : m ≠ 0) : let q := (roundAt rm n d m e (roundPlace F m e)).1
    q ≤ 2 ^ (F.fb + 1) ∧ (F.emin - F.fb < roundPlace F m e → 2 ^ F.fb ≤ q) := by
  have hlo : 2 ^ Nat.log2 m ≤ m := Nat.log2_self_le hm
  have hhi : m < 2 ^ (Nat.log2 m + 1) := Nat.lt_log2_self
  have hplace : (Nat.log2 m : Int) + e - F.fb ≤ roundPlace F m e := le_max_left ..
  have habove : F.emin - F.fb < roundPlace F m e → roundPlace F m e = Nat.log2 m + e - F.fb := fun h => by unfold roundPlace at h ⊢; omega
  generalize roundPlace F m e = u at hplace habove
  simp only [roundAt]
  split
  next hu =>
    generalize hk : (e - u).toNat = k
    constructor
    · calc m * 2 ^ k ≤ 2 ^ (Nat.log2 m + 1) * 2 ^ k := Nat.mul_le_mul_right _ hhi.le
        _ ≤ 2 ^ (F.fb + 1) := by rw [← pow_add]; exact Nat.pow_le_pow_right (by norm_num) (by omega)
    · intro h
      calc 2 ^ F.fb = 2 ^ Nat.log2 m * 2 ^ k := by rw [← pow_add]; congr 1; have := habove h; omega
        _ ≤ m * 2 ^ k := Nat.mul_le_mul_right _ hlo
  next hu =>
    generalize hk : (u - e).toNat = k
    have hq : m / 2 ^ k < 2 ^ (F.fb + 1) := by
      refine Nat.div_lt_of_lt_mul (hhi.trans_le ?_)
      rw [← pow_add]; exact Nat.pow_le_pow_right (by norm_num) (by omega)
    have hl : F.emin - F.fb < u → 2 ^ F.fb ≤ m / 2 ^ k := fun h => by
      rw [Nat.le_div_iff_mul_le (by positivity), ← pow_add]
      refine le_trans (le_of_eq ?_) hlo
      congr 1; have := habove h; omega
    split
    · exact ⟨hq, fun h => (hl h).trans (Nat.le_succ _)⟩
    · exact ⟨hq.le, hl⟩
end

/-! ## The value of the bits (R154, R157) -/

section
variable {F : Fmt} {n : Bool} {b : Nat}

/-- The value of bits that hold no infinity and no NaN. -/
theorem unpack_signed (hb : b ≤ F.maxBits) (hinf : F.inf = true) (heb : F.eb ≠ 0) : unpack F (F.signed n b) =
    if b / 2 ^ F.fb = 0 then .fin n (b % 2 ^ F.fb) (F.emin - F.fb) else .fin n (2 ^ F.fb + b % 2 ^ F.fb) ((b / 2 ^ F.fb : Nat) - F.bias - F.fb) := by
  have hfb : 0 < 2 ^ F.fb := by positivity
  have heb2 : 2 ≤ 2 ^ F.eb := Nat.le_self_pow heb 2
  have hex : b / 2 ^ F.fb < 2 ^ F.eb - 1 := by
    rw [Nat.div_lt_iff_lt_mul hfb]
    have : 0 < (2 ^ F.eb - 1) * 2 ^ F.fb := Nat.mul_pos (by omega) hfb
    unfold Fmt.maxBits Fmt.infBits at hb
    rw [if_pos hinf] at hb
    omega
  have hlt : b < 2 ^ (F.eb + F.fb) := by
    rw [pow_add]
    exact (Nat.div_lt_iff_lt_mul hfb).1 (by omega)
  have hsign : (F.signed n b).testBit (F.eb + F.fb) = n := by
    cases n
    · exact Nat.testBit_lt_two_pow hlt
    · simp only [Fmt.signed, Fmt.signBit, if_true]
      rw [Nat.testBit_two_pow_add_eq, Nat.testBit_lt_two_pow hlt]; rfl
  have hfield : F.signed n b / 2 ^ F.fb % 2 ^ F.eb = b / 2 ^ F.fb := by
    cases n
    · exact Nat.mod_eq_of_lt (by simp only [Fmt.signed, Bool.false_eq_true, if_false]; omega)
    · simp only [Fmt.signed, Fmt.signBit, if_true]
      rw [pow_add, Nat.add_comm, Nat.add_mul_div_right _ _ hfb, Nat.add_mod_right, Nat.mod_eq_of_lt (by omega)]
  have hfrac : F.signed n b % 2 ^ F.fb = b % 2 ^ F.fb := by
    cases n
    · rfl
    · simp only [Fmt.signed, Fmt.signBit, if_true]
      rw [pow_add, Nat.add_comm, Nat.add_mul_mod_self_right]
  unfold unpack
  simp only [hsign, hfield, hfrac, hinf]
  rw [if_neg (by simp; omega), if_neg (by simp)]
/-- Bits that a rounded magnitude q at exponent emin − fb + k makes stand for that magnitude. -/
theorem unpack_rounded {k q : Nat} (hb : k * 2 ^ F.fb + q ≤ F.maxBits) (hinf : F.inf = true) (heb : F.eb ≠ 0) (hq : q ≤ 2 ^ (F.fb + 1))
    (hk : 0 < k → 2 ^ F.fb ≤ q) : ∃ m e, unpack F (F.signed n (k * 2 ^ F.fb + q)) = .fin n m e ∧
      valueOf n m e = valueOf n q (F.emin - F.fb + k) := by
  rw [unpack_signed hb hinf heb]
  have hfb : 0 < 2 ^ F.fb := by positivity
  have hemin : F.emin = 1 - F.bias := rfl
  rw [pow_succ] at hq
  rw [Nat.add_comm, Nat.add_mul_div_right _ _ hfb, Nat.add_mul_mod_self_right]
  rcases Nat.lt_or_ge q (2 ^ F.fb) with hlt | hge
  · have hk0 : k = 0 := by by_contra h; have := hk (by omega); omega
    subst hk0
    rw [Nat.div_eq_of_lt hlt, Nat.mod_eq_of_lt hlt, if_pos rfl]
    exact ⟨_, _, rfl, by rw [Nat.cast_zero, add_zero]⟩
  rcases Nat.lt_or_ge q (2 * 2 ^ F.fb) with hlt | hge2
  · have hdiv : q / 2 ^ F.fb = 1 := Nat.div_eq_of_lt_le (by omega) (by omega)
    rw [hdiv, if_neg (by omega)]
    refine ⟨_, _, rfl, ?_⟩
    congr 1
    · have := Nat.div_add_mod q (2 ^ F.fb); rw [hdiv] at this; omega
    · rw [hemin]; push_cast; ring
  · have hq2 : q = 2 * 2 ^ F.fb := by omega
    subst hq2
    rw [Nat.mul_div_cancel _ hfb, Nat.mul_mod_left, if_neg (by omega), Nat.add_zero]
    refine ⟨_, _, rfl, ?_⟩
    rw [hemin]; push_cast
    rw [show 2 + (k : Int) - F.bias - F.fb = (1 - F.bias - F.fb + k) + 1 by ring]
    simp only [valueOf, zpow_add_one₀ (two_ne_zero' ℚ)]
    push_cast; ring
end

/-- Below overflow the bits of a rounded result stand for the rounded magnitude. -/
theorem roundTo_unpacks {F : Fmt} (hinf : F.inf = true) (heb : F.eb ≠ 0) {rm : RMode} {sat n : Bool} {d m : Nat} {e : Int} (hm : m ≠ 0)
    (hfl : (roundTo F rm sat d n m e).flags &&& 0x24 = 0) : ∃ m' e', unpack F (roundTo F rm sat d n m e).bits = .fin n m' e' ∧
      valueOf n m' e' = valueOf n (roundAt rm n d m e (roundPlace F m e)).1 (roundPlace F m e) := by
  have hfits : roundBits F rm d n m e ≤ F.maxBits := Nat.le_of_not_lt fun h => roundTo_overflows hm h hfl
  obtain ⟨hq, hk⟩ := roundAt_range (F := F) (rm := rm) (n := n) (d := d) (e := e) hm
  have hplace : F.emin - F.fb ≤ roundPlace F m e := le_max_right ..
  obtain ⟨m', e', heq, hval⟩ := unpack_rounded (n := n) hfits hinf heb hq fun h => hk (by omega)
  refine ⟨m', e', by rw [(roundTo_fits hm hfits).1]; exact heq, hval.trans ?_⟩
  congr 1; omega

end Sys2Proof.Machine
end

section
/-! Scalar floating-point operations that round (R138 to R141): lemmas for the statements FpRounded and FpUnrounded, and the proof of FpRounded. -/

namespace Sys2Proof.Machine
open Sys2Proof

/-! ## Operands, modes and results of a strand (R138) -/

/-- A strand after a floating-point instruction that writes v to xd and raises flags fl. -/
def Strand.givesFp (p : Strand) (d : Reg) (v : Nat) (fl : BitVec 6) : Strand := { p.gives d (BitVec.ofNat 64 v) with fflags := p.fflags ||| fl }

section
variable {s : State} {k : Nat} (h : s.actor = .strand k)
include h

theorem fpSrc_strand (f : FpFmt) (q : Reg) : fpSrc s f q = (readX (s.strand k).x q).toNat % 2 ^ (FpFmt.fmt f).width := by
  cases f
  · rw [fpSrc, State.x_strand h]; exact (Nat.mod_eq_of_lt (BitVec.isLt _)).symm
  · rw [fpSrc, State.x_strand h]; rfl
theorem fpVal_strand (f : FpFmt) (q : Reg) : fpVal s f q = unpack (FpFmt.fmt f) ((readX (s.strand k).x q).toNat % 2 ^ (FpFmt.fmt f).width) := by
  rw [fpVal, fpSrc_strand h]
theorem fpMode_dyn : fpMode s .dyn = rmodeOf (s.strand k).frm := by
  rw [fpMode, State.isCell_strand h, State.me_strand h]; rfl
theorem fpDone_strand (d : Reg) (v : Nat) (fl : BitVec 6) : StrandBecomes s k ((s.strand k).givesFp d v fl) (fpDone s d v fl) := by
  have hx : (s.setX d (BitVec.ofNat 64 v)).actor = .strand k := by rw [State.setX_strand h]; exact h
  have ha : (s.setX d (BitVec.ofNat 64 v)).accrue fl = (s.setX d (BitVec.ofNat 64 v)).upd k (·.accrue fl) := by
    rw [State.accrue, State.isCell_strand hx, State.updMe, State.key_strand hx]; rfl
  have hu : ((s.setX d (BitVec.ofNat 64 v)).upd k (·.accrue fl)).actor = .strand k := hx
  rw [fpDone, ha, State.advance_strand hu, State.setX_strand h]
  refine ⟨?_, fun j hj => ?_, rfl⟩
  · simp only [State.strand_upd_self]; rfl
  · simp only [State.strand_upd_of_ne _ _ hj]
theorem fpDone_runs {i : Instr} {d : Reg} {v w : Nat} {fl gl : BitVec 6} (hi : exec i s = .next (fpDone s d v fl)) (hv : v = w) (hl : fl = gl) :
    Runs i s (StrandBecomes s k ((s.strand k).givesFp d w gl)) := ⟨_, hi, hv ▸ hl ▸ fpDone_strand h d v fl⟩

end

/-- An operation that rounds traps where FRM names no mode (R547). -/
theorem fpRounding_traps {s : State} {i : Instr} {r : Rm} {d : Reg} {w : Word} {op : RMode → FRes} (hm : fpMode s r = none)
    (hi : exec i s = fpRounding r d w op s) : Runs i s (fun t => t = raise s (illegal w)) := runs_eq (by rw [hi, fpRounding, hm])

theorem rmodeOf_none : ∀ c : BitVec 3, 6 ≤ c.toNat → rmodeOf c = none := by decide
theorem rmodeOf_getD : ∀ c : BitVec 3, c.toNat ≤ 5 → rmodeOf c = some ((rmodeOf c).getD .rne) := by decide

/-! ## Integer operands (R141) -/

theorem bitsInt_signed {w : Nat} (x : BitVec w) : bitsInt true w x.toNat = x.toInt := by
  rw [BitVec.toInt_eq_msb_cond, bitsInt, BitVec.msb_eq_getLsbD_last, Bool.true_and]
  simp [BitVec.getLsbD, Nat.cast_pow]
/-- The integer that a register holds under a type code: its low 32 bits or all of them, signed unless bit 0 is set. -/
def intOperand (ty : BitVec 2) (x : Dword) : Int :=
  let w := if ty.getLsbD 1 then 32 else 64
  if ty.getLsbD 0 = false then (if w = 32 then (x.setWidth 32).toInt else x.toInt) else (x.toNat % 2 ^ w : Nat)
theorem bitsInt_operand (ty : BitVec 2) (x : Dword) : bitsInt (cvtSigned ty) (cvtWidth ty) (x.toNat % 2 ^ cvtWidth ty) = intOperand ty x := by
  unfold intOperand cvtSigned cvtWidth
  cases ty.getLsbD 0
  case true => rfl
  case false =>
    cases ty.getLsbD 1
    case true => exact bitsInt_signed (x.setWidth 32)
    case false => exact (congrArg (bitsInt true 64) (Nat.mod_eq_of_lt x.isLt)).trans (bitsInt_signed x)

/-! ## Conversion between the formats (R141, R163) -/

theorem plain_ne_rsr (rm : RMode) : rm.plain ≠ .rsr := by cases rm <;> decide
/-- RSR draws only for a value that it rounds into fewer fraction bits. -/
theorem fpConvert_drew {src dst : Fmt} {rm : RMode} {sat : Bool} {d x : Nat} (h : src.fb ≤ dst.fb ∨ rm ≠ .rsr) :
    (fpConvert src dst rm sat d x).drew = false := by
  unfold fpConvert
  split
  case h_1 => rfl
  case h_2 => split <;> [rfl; split <;> rfl]
  case h_3 =>
    refine roundTo_drew ?_
    split
    next hlt => exact h.resolve_left (by omega)
    next => exact plain_ne_rsr rm

/-- The source format of a conversion into a format. -/
theorem other_fmt (f : FpFmt) : FpFmt.fmt (FpFmt.other f) = if f = .f64 then fmt32 else fmt64 := by cases f <;> rfl
/-- A draw from the generator of lane 0. -/
theorem draw_zero (p : Strand) : p.draw 0 = { p with srgen := p.srgen.set 0 (drawNext p.srgen[0]) } := by
  have hget : p.srgen.getD 0 0 = p.srgen[0] := by simp [Vector.getD]
  have hset (v : Word) : p.srgen.setIfInBounds 0 v = p.srgen.set 0 v := by
    ext i hi; simp [Vector.getElem_set, Vector.getElem_setIfInBounds]
  rw [Strand.draw, hget, hset]
/-- fcvtff converts once; an inexact result under RSR draws from the generator of lane 0. -/
theorem fcvtff_gives {s : State} {k : Nat} (h : s.actor = .strand k) {f : FpFmt} {r : Rm} {m : RMode} (hm : fpMode s r = some m) (d a : Reg) {c : Rnd}
    (hc : fpConvert (FpFmt.fmt (FpFmt.other f)) (FpFmt.fmt f) m false (drawBits (s.strand k).srgen[0])
      ((readX (s.strand k).x a).toNat % 2 ^ (FpFmt.fmt (FpFmt.other f)).width) = c) :
    Runs (.fcvtff f r d a) s (StrandBecomes s k { (s.strand k).givesFp d c.bits c.flags with
      srgen := if c.drew then (s.strand k).srgen.set 0 (drawNext (s.strand k).srgen[0]) else (s.strand k).srgen }) := by
  have hget : s.me.srgen.getD 0 0 = (s.strand k).srgen[0] := by rw [State.me_strand h]; simp [Vector.getD]
  refine ⟨_, by rw [exec_fcvtff, execFcvtff, hm], ?_⟩
  simp only [hget, fpSrc_strand h, hc]
  split
  next hd =>
    have hu : (s.upd k (·.draw 0)).actor = .strand k := h
    rw [State.updMe, State.key_strand h]
    obtain ⟨hk, hj, hframe⟩ := fpDone_strand hu d c.bits c.flags
    refine ⟨?_, fun j hne => (hj j hne).trans (State.strand_upd_of_ne s _ hne), ?_⟩
    · rw [hk, State.strand_upd_self, draw_zero]; rfl
    · exact (congrArg (fun t : State => { t with strands := s.strands }) hframe :)
  next hd => exact fpDone_strand h d c.bits c.flags

/-! ## The statement -/

/-- What the operations that round give, each rounded once under the mode that its code names; P says how a result with its flags lands. -/
theorem rounding_rows {s : State} {f : FpFmt} {r : Rm} {m : RMode} {d : Reg} {P : FRes → State → Prop} (hP : ∀ v, P v (fpDone s d v.1 v.2))
    (hm : fpMode s r = some m) {val : Reg → FVal} (hval : ∀ q, fpVal s f q = val q) {a b : Reg} {x : Dword} (hx : s.x a = x) (ty : BitVec 2) :
    let Gives (i : Instr) (v : FRes) : Prop := Runs i s (P v)
    Gives (.fadd f r d a b) (fpAddV (FpFmt.fmt f) m (val a) (val b)) ∧ Gives (.fsub f r d a b) (fpAddV (FpFmt.fmt f) m (val a) (val b).negate) ∧
    Gives (.fmul f r d a b) (fpMulV (FpFmt.fmt f) m (val a) (val b)) ∧ Gives (.fdiv f r d a b) (fpDivV (FpFmt.fmt f) m (val a) (val b)) ∧
    Gives (.fsqrt f r d a) (fpSqrtV (FpFmt.fmt f) m (val a)) ∧ Gives (.fmadd f r d a b) (fpFmaV (FpFmt.fmt f) m (val a) (val b) (val d)) ∧
    Gives (.fcvtfi f r ty d a) (let v := fpToInt m (ty.getLsbD 0 = false) (if ty.getLsbD 1 then 32 else 64) (val a); ((v.1 % 2 ^ 64).toNat, v.2)) ∧
    Gives (.fcvtif f r ty d a) (intToFp (FpFmt.fmt f) m (intOperand ty x)) := by
  have row {i w op v} (hi : exec i s = fpRounding r d w op s) (hv : op m = v) : Runs i s (P v) :=
    ⟨_, by rw [hi, fpRounding, hm, ← hv], hv ▸ hP (op m)⟩
  simp only [← hval]
  refine ⟨row exec_fadd rfl, row exec_fsub rfl, row exec_fmul rfl, row exec_fdiv rfl, row exec_fsqrt rfl, row exec_fmadd rfl,
    row (v := (_, _)) exec_fcvtfi ?_, row exec_fcvtif ?_⟩
  · have hs : cvtSigned ty = decide (ty.getLsbD 0 = false) := by unfold cvtSigned; cases ty.getLsbD 0 <;> rfl
    simp only [hs, cvtWidth, wrapInt]; rfl
  · rw [hx, bitsInt_operand]

/-- What the exact operations give. -/
theorem exact_rows {F : Fmt} (hF : F = fmt64 ∨ F = fmt32) (rm : RMode) (n1 n2 n3 : Bool) (m1 m2 m3 : Nat) (e1 e2 e3 : Int) :
    let a := FVal.fin n1 m1 e1
    let b := FVal.fin n2 m2 e2
    (∃ n m e, fpAddV F rm a b = roundPlain F rm n m e ∧ valueOf n m e = valueOf n1 m1 e1 + valueOf n2 m2 e2 ∧ (m = 0 → n = zeroSign rm (n1 == n2) n1)) ∧
    (∃ m e, fpMulV F rm a b = roundPlain F rm (n1 != n2) m e ∧ valueOf (n1 != n2) m e = valueOf n1 m1 e1 * valueOf n2 m2 e2) ∧
    (∃ n m e, fpFmaV F rm a b (.fin n3 m3 e3) = roundPlain F rm n m e ∧ valueOf n m e = valueOf n1 m1 e1 * valueOf n2 m2 e2 + valueOf n3 m3 e3 ∧
      (m = 0 → n = zeroSign rm ((n1 != n2) == n3) n3)) ∧
    (m1 ≠ 0 → m2 ≠ 0 → m2 < 2 ^ 64 → ∃ m e, fpDivV F rm a b = roundPlain F rm (n1 != n2) m e ∧
      let x := valueOf false m1 e1 / valueOf false m2 e2
      StandsFor F.fb m e (· < x) (· = x) (x < ·)) ∧
    (m1 = 0 → m2 ≠ 0 → fpDivV F rm a b = (F.signed (n1 != n2) 0, 0)) ∧ (m1 ≠ 0 → m2 = 0 → fpDivV F rm a b = (F.signed (n1 != n2) F.infBits, 0x08)) ∧
    (m1 = 0 → m2 = 0 → fpDivV F rm a b = (F.canon, 0x10)) := by
  have hfb : F.fb ≤ 60 := by rcases hF with rfl | rfl <;> decide
  refine ⟨fpAddV_fin .., ⟨_, _, fpMulV_fin .., valueOf_mul ..⟩, fpFmaV_fin .., fun h1 h2 hlt => ?quotient, fun h1 h2 => ?zero, fun h1 h2 => ?infinite, fun h1 h2 => ?invalid⟩
  case quotient => exact ⟨_, _, by rw [fpDivV, if_neg h2], jamDiv_standsFor hfb h1 h2 hlt e1 e2⟩
  case zero =>
    have hj : jamDiv m1 m2 130 = 0 := by simp [jamDiv, h1]
    rw [fpDivV, if_neg h2, roundPlain, roundTo, if_pos hj]
  case infinite => rw [fpDivV, if_pos h2, if_neg h1]; rfl
  case invalid => rw [fpDivV, if_pos h2, if_pos h1]; rfl

/-- Settles O19: one rule for the rows that round, the exact operations case by case, and the bits of a rounded result. -/
theorem fpRounded : Obligations.FpRounded := by
  refine ⟨fun s k f r ty d a b m h hm hd => ?rows, fun F rm n1 n2 n3 m1 m2 m3 e1 e2 e3 hF => ?exact, fun s k f ty d a b h h6 => ?traps,
    fun s k f r d a m h hm => ?convert⟩
  case rows =>
    have hmode : fpMode s r = some m := by
      rw [hm]
      cases r
      case dyn => rw [fpMode_dyn h]; exact rmodeOf_getD _ (hd rfl)
      all_goals rfl
    exact rounding_rows (fun v => fpDone_strand h d v.1 v.2) hmode (fpVal_strand h f) (State.x_strand h a) ty
  case exact =>
    have hinf : F.inf = true := by rcases hF with rfl | rfl <;> rfl
    have heb : F.eb ≠ 0 := by rcases hF with rfl | rfl <;> decide
    have hfb : F.fb ≤ 60 := by rcases hF with rfl | rfl <;> decide
    obtain ⟨hadd, hmul, hfma, hquo, hzero, hinfinite, hinvalid⟩ := exact_rows hF rm n1 n2 n3 m1 m2 m3 e1 e2 e3
    refine ⟨hadd, hmul, hfma, hquo, hzero, hinfinite, hinvalid, fun h1 hn => ?root, fun h1 => ?rootZero, fun h1 hn => ?rootInvalid,
      fun sat draw h1 hfl => roundTo_unpacks hinf heb h1 hfl⟩
    case root => subst hn; exact fpSqrtV_standsFor hfb rm h1 e1
    case rootZero => rw [fpSqrtV, if_pos h1]
    case rootInvalid => rw [fpSqrtV, if_neg h1, if_pos hn]; rfl
  case traps =>
    have hmode : fpMode s .dyn = none := by rw [fpMode_dyn h]; exact rmodeOf_none _ h6
    exact ⟨fpRounding_traps hmode exec_fadd, fpRounding_traps hmode exec_fsub, fpRounding_traps hmode exec_fmul, fpRounding_traps hmode exec_fdiv,
      fpRounding_traps hmode exec_fsqrt, fpRounding_traps hmode exec_fmadd, fpRounding_traps hmode exec_fcvtfi, fpRounding_traps hmode exec_fcvtif,
      runs_eq (by rw [exec_fcvtff, execFcvtff, hmode]; rfl)⟩
  case convert =>
    refine ⟨?_, fun hf => fpConvert_drew (.inl ?_), fun hr => fpConvert_drew (.inr hr)⟩
    · cases f
      all_goals exact fcvtff_gives h hm d a rfl
    · subst hf; decide

end Sys2Proof.Machine
end

section
/-! Scalar floating-point operations that never round (R139, R141, R157): lemmas for the statement FpUnrounded, and its proof. -/

namespace Sys2Proof.Machine
open Sys2Proof

theorem signBit_eq (F : Fmt) : F.signBit = 2 ^ (F.width - 1) := congrArg (2 ^ ·) (show F.eb + F.fb = 1 + F.eb + F.fb - 1 by omega)
theorem flIf_nv (b c : Bool) : flIf (b || c) flNv = if b = true ∨ c = true then 0x10 else 0 := by cases b <;> cases c <;> rfl

/-! ## The finite values of bit patterns (R154) -/

section
variable {F : Fmt} (hinf : F.inf = true) {x : Nat} {n : Bool} {m : Nat} {e : Int} (hx : unpack F x = .fin n m e)
include hinf hx

/-- A finite value has its sign bit, its fraction and its exponent as the format's fields give them. -/
theorem fin_fields : n = x.testBit (F.eb + F.fb) ∧ x / 2 ^ F.fb % 2 ^ F.eb ≠ 2 ^ F.eb - 1 ∧
    (m, e) = if x / 2 ^ F.fb % 2 ^ F.eb = 0 then (x % 2 ^ F.fb, F.emin - F.fb)
      else (2 ^ F.fb + x % 2 ^ F.fb, ((x / 2 ^ F.fb % 2 ^ F.eb : Nat) : Int) - F.bias - F.fb) := by
  unfold unpack at hx
  simp only [hinf, Bool.true_and, beq_iff_eq, Bool.not_true, Bool.false_and, Bool.false_eq_true, if_false] at hx
  split at hx
  next => split at hx <;> exact absurd hx (by simp)
  next hne =>
    refine ⟨?_, hne, ?_⟩
    · split at hx <;> exact (FVal.fin.inj hx).1.symm
    · split at hx
      next h => rw [if_pos h]; obtain ⟨-, h1, h2⟩ := FVal.fin.inj hx; rw [h1, h2]
      next h => rw [if_neg h]; obtain ⟨-, h1, h2⟩ := FVal.fin.inj hx; rw [h1, h2]
/-- A zero has no bit but its sign. -/
theorem zero_fields (hm : m = 0) : x / 2 ^ F.fb % 2 ^ F.eb = 0 ∧ x % 2 ^ F.fb = 0 := by
  obtain ⟨-, -, hme⟩ := fin_fields hinf hx
  have hpos : 0 < 2 ^ F.fb := by positivity
  split at hme
  next h => exact ⟨h, (Prod.mk.inj hme).1 ▸ hm⟩
  next h => have := (Prod.mk.inj hme).1; omega
theorem zero_bits (hm : m = 0) (hlt : x < 2 ^ F.width) : x = F.signed n 0 := by
  obtain ⟨hfield, hfrac⟩ := zero_fields hinf hx hm
  have hn := (fin_fields hinf hx).1
  have hrest : x % 2 ^ (F.eb + F.fb) = 0 := by rw [Nat.add_comm, pow_add, Nat.mod_mul, hfield, hfrac, Nat.mul_zero]
  have hdiv := Nat.div_add_mod x (2 ^ (F.eb + F.fb))
  have htop : x / 2 ^ (F.eb + F.fb) < 2 := by
    rw [Nat.div_lt_iff_lt_mul (by positivity), ← pow_succ']
    exact lt_of_lt_of_eq hlt (congrArg (2 ^ ·) (by unfold Fmt.width; omega))
  rw [Nat.testBit_eq_decide_div_mod_eq, Nat.mod_eq_of_lt htop] at hn
  rw [hrest, Nat.add_zero] at hdiv
  generalize x / 2 ^ (F.eb + F.fb) = top at *
  obtain rfl | rfl : top = 0 ∨ top = 1 := by omega
  · subst hn; simp [Fmt.signed, ← hdiv]
  · subst hn; simp [Fmt.signed, Fmt.signBit, ← hdiv]
end

/-! ## Comparisons -/

theorem fpLt_asymm {a b : FVal} (h : fpLt a b = true) : fpLt b a = false := by
  cases a with
  | nan s => exact absurd h Bool.false_ne_true
  | inf x =>
    cases b with
    | nan s => rfl
    | inf y => revert h; cases x <;> cases y <;> decide
    | fin n m e => cases x; exacts [absurd h Bool.false_ne_true, rfl]
  | fin n m e =>
    cases b with
    | nan s => rfl
    | inf y => cases y; exacts [rfl, absurd h Bool.false_ne_true]
    | fin n2 m2 e2 =>
      simp only [fpLt, decide_eq_true_eq, decide_eq_false_iff_not, not_lt] at h ⊢
      rw [min_comm]; exact h.le
theorem signedInt_zero (n : Bool) : signedInt n 0 = 0 := by cases n <;> rfl
theorem isZero_iff {a : FVal} : a.isZero = true ↔ ∃ n e, a = .fin n 0 e := by
  cases a with
  | nan s => simp [FVal.isZero]
  | inf n => simp [FVal.isZero]
  | fin n m e => simp [FVal.isZero]
theorem fpLt_zeros {a b : FVal} (ha : a.isZero = true) (hb : b.isZero = true) : fpLt a b = false := by
  obtain ⟨n, e, rfl⟩ := isZero_iff.1 ha
  obtain ⟨n2, e2, rfl⟩ := isZero_iff.1 hb
  simp [fpLt, signedInt_zero]

/-! ## The lesser and the greater -/

section
variable {F : Fmt} {g : Bool} {x y : Nat}

theorem fpMinMax_flags : (fpMinMax F g x y).2 = flIf ((unpack F x).isSig || (unpack F y).isSig) flNv := by
  unfold fpMinMax; simp only []; split <;> [rfl; split <;> [rfl; split <;> rfl]]
/-- Which operand fmin (g false) or fmax (g true) gives, or the canonical NaN. -/
theorem fpMinMax_value : (fpMinMax F g x y).1 =
    if (unpack F x).isNan = true then (if (unpack F y).isNan = true then F.canon else y)
    else if (unpack F y).isNan = true then x
    else if (fpLt (unpack F x) (unpack F y) || ((unpack F x).isZero && (unpack F y).isZero && (unpack F x).neg && !(unpack F y).neg)) = g then y else x := by
  unfold fpMinMax
  simp only []
  generalize (fpLt (unpack F x) (unpack F y) || _) = less
  cases (unpack F x).isNan <;> cases (unpack F y).isNan <;> cases less <;> cases g <;> rfl
end

/-- v is what R139 gives for operands with bits x and y when low is taken where x is the lesser, and high where y is. -/
def Chooses (F : Fmt) (x y low high v : Nat) : Prop :=
  let va := unpack F x
  let vb := unpack F y
  (va.isNan = true → vb.isNan = true → v = F.canon) ∧ (va.isNan = true → vb.isNan = false → v = y) ∧
  (va.isNan = false → vb.isNan = true → v = x) ∧ (¬(va.isNan = true ∨ vb.isNan = true) → fpLt va vb = true → v = low) ∧
  (¬(va.isNan = true ∨ vb.isNan = true) → fpLt vb va = true → v = high) ∧
  (fpEq va vb = true → v = x ∨ v = y) ∧ (va.isZero = true → vb.isZero = true → v = if va.neg then low else high)
theorem fpMinMax_chooses {F : Fmt} (hinf : F.inf = true) (g : Bool) {x y : Nat} (hx : x < 2 ^ F.width) (hy : y < 2 ^ F.width) :
    Chooses F x y (if g then y else x) (if g then x else y) (fpMinMax F g x y).1 := by
  rw [fpMinMax_value]
  refine ⟨fun h1 h2 => ?_, fun h1 h2 => ?_, fun h1 h2 => ?_, fun hn hlt => ?_, fun hn hlt => ?_, fun heq => ?_, fun h1 h2 => ?_⟩
  · rw [if_pos h1, if_pos h2]
  · rw [if_pos h1, if_neg (by simp [h2])]
  · rw [if_neg (by simp [h1]), if_pos h2]
  · rw [not_or] at hn
    rw [if_neg hn.1, if_neg hn.2, hlt]
    cases g <;> rfl
  · rw [not_or] at hn
    have hz : ((unpack F x).isZero && (unpack F y).isZero) = false := by
      rw [Bool.and_eq_false_iff]
      by_contra hc
      simp only [not_or, Bool.not_eq_false] at hc
      exact absurd hlt (by simp [fpLt_zeros hc.2 hc.1])
    rw [if_neg hn.1, if_neg hn.2, fpLt_asymm hlt, hz]
    cases g <;> rfl
  · have hn : (unpack F x).isNan = false ∧ (unpack F y).isNan = false := by
      simp only [fpEq, Bool.and_eq_true, Bool.not_eq_true'] at heq; exact heq.1.1
    rw [if_neg (by simp [hn.1]), if_neg (by simp [hn.2])]
    split <;> simp
  · obtain ⟨n1, e1, hux⟩ := isZero_iff.1 h1
    obtain ⟨n2, e2, huy⟩ := isZero_iff.1 h2
    have hbits : n1 = n2 → x = y := fun h => (zero_bits hinf hux rfl hx).trans (h ▸ (zero_bits hinf huy rfl hy).symm)
    rw [fpLt_zeros h1 h2, h1, h2, hux, huy]
    cases n1 <;> cases n2 <;> cases g <;> simp_all [FVal.isNan, FVal.neg]

/-! ## Classes -/

/-- The place of a value's bit in the class mask (R139); field is the exponent field. -/
def classIndex (v : FVal) (field : Nat) : Nat :=
  match v with
  | .nan s => if s then 8 else 9
  | .inf n => if n then 0 else 7
  | .fin n m _ => if m = 0 then (if n then 3 else 4) else if field = 0 then (if n then 2 else 5) else (if n then 1 else 6)
theorem fpClass_eq (F : Fmt) (x : Nat) : fpClass F x = 2 ^ classIndex (unpack F x) (x / 2 ^ F.fb % 2 ^ F.eb) := by
  unfold fpClass classIndex
  cases unpack F x with
  | nan s => cases s <;> rfl
  | inf n => cases n <;> rfl
  | fin n m e => simp only []; split <;> [skip; split] <;> cases n <;> rfl
theorem classIndex_spec {v : FVal} {field : Nat} (hz : ∀ n e, v = .fin n 0 e → field = 0) :
    let n := classIndex v field
    n < 10 ∧ (n = 8 ↔ v = .nan true) ∧ (n = 9 ↔ v = .nan false) ∧ (n = 0 ↔ v = .inf true) ∧ (n = 7 ↔ v = .inf false) ∧
      (n = 3 ↔ ∃ e, v = .fin true 0 e) ∧ (n = 4 ↔ ∃ e, v = .fin false 0 e) ∧
      (n = 1 ↔ field ≠ 0 ∧ ∃ m e, v = .fin true m e) ∧ (n = 6 ↔ field ≠ 0 ∧ ∃ m e, v = .fin false m e) ∧
      (n = 2 ↔ field = 0 ∧ ∃ m e, m ≠ 0 ∧ v = .fin true m e) ∧ (n = 5 ↔ field = 0 ∧ ∃ m e, m ≠ 0 ∧ v = .fin false m e) := by
  cases v with
  | nan s => cases s <;> simp [classIndex]
  | inf n => cases n <;> simp [classIndex]
  | fin n m e =>
    by_cases hm : m = 0
    · have hf : field = 0 := hz n e (by rw [hm])
      cases n <;> simp [classIndex, hm, hf]
    · by_cases hf : field = 0 <;> cases n <;> simp [classIndex, hm, hf]

/-! ## Conversion toward f64 -/

theorem fmt32_fin {x : Nat} {n : Bool} {m : Nat} {e : Int} (hx : unpack fmt32 x = .fin n m e) : m < 2 ^ 24 ∧ -149 ≤ e ∧ e ≤ 104 := by
  obtain ⟨-, hne, hme⟩ := fin_fields (F := fmt32) rfl hx
  have hfield : x / 2 ^ 23 % 2 ^ 8 ≠ 2 ^ 8 - 1 := hne
  have hpair : (m, e) = if x / 2 ^ 23 % 2 ^ 8 = 0 then (x % 2 ^ 23, -149) else (2 ^ 23 + x % 2 ^ 23, ((x / 2 ^ 23 % 2 ^ 8 : Nat) : Int) - 127 - 23) := hme
  by_cases h : x / 2 ^ 23 % 2 ^ 8 = 0
  · rw [if_pos h] at hpair
    obtain ⟨rfl, rfl⟩ := Prod.mk.inj hpair; omega
  · rw [if_neg h] at hpair
    obtain ⟨rfl, rfl⟩ := Prod.mk.inj hpair; omega
/-- A finite f32 value is an f64 value. -/
theorem roundTo_fmt64_exact {x : Nat} {n : Bool} {m : Nat} {e : Int} (hx : unpack fmt32 x = .fin n m e) (rm : RMode) (d : Nat) :
    (roundTo fmt64 rm false d n m e).flags = 0 ∧
    ∃ m' e', unpack fmt64 (roundTo fmt64 rm false d n m e).bits = .fin n m' e' ∧ valueOf n m' e' = valueOf n m e := by
  by_cases hm : m = 0
  · have hr : roundTo fmt64 rm false d n m e = ⟨fmt64.signed n 0, 0, false⟩ := if_pos hm
    have hu : unpack fmt64 (fmt64.signed n 0) = .fin n 0 (-1074) := by cases n <;> decide
    rw [hr, hm]
    exact ⟨rfl, 0, _, hu, by simp [valueOf]⟩
  · obtain ⟨hlt, hlo, hhi⟩ := fmt32_fin hx
    have hlog : Nat.log2 m < 24 := (Nat.log2_lt hm).2 hlt
    have hplace : roundPlace fmt64 m e = max ((Nat.log2 m : Int) + e - 52) (-1074) := rfl
    have hle : roundPlace fmt64 m e ≤ e := by omega
    have hat : roundAt rm n d m e (roundPlace fmt64 m e) = (m * 2 ^ (e - roundPlace fmt64 m e).toNat, false) := if_pos hle
    have hq : (roundAt rm n d m e (roundPlace fmt64 m e)).1 ≤ 2 ^ 53 := (roundAt_range (F := fmt64) hm).1
    have hfits : roundBits fmt64 rm d n m e ≤ fmt64.maxBits := by
      have hmax : fmt64.maxBits = 2047 * 2 ^ 52 - 1 := by decide
      have hbits : roundBits fmt64 rm d n m e = (roundPlace fmt64 m e + 1074).toNat * 2 ^ 52 + (roundAt rm n d m e (roundPlace fmt64 m e)).1 := by
        unfold roundBits; congr 3
      rw [hmax, hbits]; omega
    have hflags : (roundTo fmt64 rm false d n m e).flags = 0 := (roundTo_fits hm hfits).2 (by rw [hat])
    obtain ⟨m', e', hu, hv⟩ := roundTo_unpacks (F := fmt64) rfl (by decide) (sat := false) (rm := rm) (d := d) (n := n) (e := e) hm (by rw [hflags]; decide)
    exact ⟨hflags, m', e', hu, by rw [hv, hat]; exact valueOf_lower n m hle⟩
/-- A conversion toward f64 keeps the value; a NaN becomes the canonical one. -/
theorem fpConvert_fmt64 (rm : RMode) (d x : Nat) : let c := fpConvert fmt32 fmt64 rm false d x
    let v := unpack fmt32 x
    c.flags = (if v.isSig then 0x10 else 0) ∧ (v.isNan = true → c.bits = fmt64.canon) ∧ (∀ n, v = .inf n → unpack fmt64 c.bits = .inf n) ∧
      ∀ n m e, v = .fin n m e → ∃ m' e', unpack fmt64 c.bits = .fin n m' e' ∧ valueOf n m' e' = valueOf n m e := by
  simp only [fpConvert]
  split
  next s hx =>
    rw [hx]
    exact ⟨by cases s <;> rfl, fun _ => rfl, fun n h => absurd h (by simp), fun n m e h => absurd h (by simp)⟩
  next n hx =>
    rw [hx]
    have hinf : unpack fmt64 (fmt64.signed n fmt64.infBits) = .inf n := by cases n <;> decide
    exact ⟨rfl, fun h => absurd h Bool.false_ne_true, fun n' h => FVal.inf.inj h ▸ hinf, fun n m e h => absurd h (by simp)⟩
  next n m e hx =>
    obtain ⟨hflags, hvalue⟩ := roundTo_fmt64_exact hx (if fmt64.fb < fmt32.fb then rm else rm.plain) d
    rw [hx]
    refine ⟨hflags, fun h => absurd h Bool.false_ne_true, fun n' h => absurd h (by simp), fun n' m' e' h => ?_⟩
    obtain ⟨rfl, rfl, rfl⟩ := FVal.fin.inj h
    exact hvalue
theorem fcvtff_f64_gives {s : State} {k : Nat} (h : s.actor = .strand k) {r : Rm} {m : RMode} (hm : fpMode s r = some m) (d a : Reg) {c : Rnd}
    (hc : fpConvert fmt32 fmt64 m false (drawBits (s.strand k).srgen[0]) ((readX (s.strand k).x a).toNat % 2 ^ 32) = c) :
    Runs (.fcvtff .f64 r d a) s (StrandBecomes s k ((s.strand k).givesFp d c.bits c.flags)) := by
  have hd : c.drew = false := hc ▸ fpConvert_drew (.inl (by decide))
  have := fcvtff_gives h (f := .f64) hm d a hc
  rw [hd] at this
  exact this

/-- Settles O20: each row by its operation on values. -/
theorem fpUnrounded : Obligations.FpUnrounded := by
  intro s k f r d a b h
  have hsrc (q : Reg) := fpSrc_strand h f q
  have hinf : (FpFmt.fmt f).inf = true := by cases f <;> rfl
  have hlt (q : Reg) : (readX (s.strand k).x q).toNat % 2 ^ (FpFmt.fmt f).width < 2 ^ (FpFmt.fmt f).width := Nat.mod_lt _ (by positivity)
  refine ⟨?neg, ?abs, ?eq, ?lt, ?le, ?min, ?max, ?classes, fun hd => ?convert⟩
  case neg => exact fpDone_runs h exec_fneg (by rw [hsrc, signBit_eq]) rfl
  case abs => exact fpDone_runs h exec_fabs (by rw [hsrc, signBit_eq]) rfl
  case eq => exact fpDone_runs h exec_fcmpeq (by rw [hsrc, hsrc]; rfl) (by rw [hsrc, hsrc]; exact flIf_nv _ _)
  case lt => exact fpDone_runs h exec_fcmplt (by rw [hsrc, hsrc]; rfl) (by rw [hsrc, hsrc]; exact flIf_nv _ _)
  case le => exact fpDone_runs h exec_fcmple (by rw [hsrc, hsrc]; simp only [fpCmpLe, Bool.or_eq_true]) (by rw [hsrc, hsrc]; exact flIf_nv _ _)
  case min =>
    exact ⟨_, fpDone_runs h exec_fmin (by rw [hsrc, hsrc]) (by rw [fpMinMax_flags, hsrc, hsrc]; exact flIf_nv _ _),
      fpMinMax_chooses hinf false (hlt a) (hlt b)⟩
  case max =>
    exact ⟨_, fpDone_runs h exec_fmax (by rw [hsrc, hsrc]) (by rw [fpMinMax_flags, hsrc, hsrc]; exact flIf_nv _ _),
      fpMinMax_chooses hinf true (hlt a) (hlt b)⟩
  case classes =>
    obtain ⟨hten, hclasses⟩ := classIndex_spec fun n e hu => (zero_fields hinf (x := (readX (s.strand k).x a).toNat % 2 ^ (FpFmt.fmt f).width) hu rfl).1
    exact ⟨_, hten, fpDone_runs h exec_fclass (by rw [hsrc, fpClass_eq]) (by rw [hsrc]; rfl), hclasses⟩
  case convert =>
    obtain ⟨m, hm⟩ : ∃ m, fpMode s r = some m := by
      cases r
      case dyn => exact ⟨_, (fpMode_dyn h).trans (rmodeOf_getD _ (hd rfl))⟩
      all_goals exact ⟨_, rfl⟩
    obtain ⟨hflags, hvalues⟩ := fpConvert_fmt64 m (drawBits (s.strand k).srgen[0]) ((readX (s.strand k).x a).toNat % 2 ^ 32)
    exact ⟨_, hflags ▸ fcvtff_f64_gives h hm d a rfl, hvalues⟩

end Sys2Proof.Machine
end

section
/-! Integer operations, branches and floating-point operations of fabric cells (R153, R322): lemmas for the statement CellInteger. -/

namespace Sys2Proof.Machine
open Sys2Proof

/-! ## What a cell's instruction reads and changes -/

section
variable {s : State} {k c : Nat} (h : s.actor = .cell k c)
include h

theorem State.cellKey_cell : s.cellKey = 64 * k + c := by simp only [State.cellKey, h]
theorem State.isCell_cell : s.isCell = true := by simp only [State.isCell, h]
theorem State.pc_cell : s.pc = (s.cell (64 * k + c)).pc := by simp only [State.pc, State.cellKey, h]
theorem State.waitOf_cell : s.waitOf = (s.cell (64 * k + c)).wait := by simp only [State.waitOf, State.cellKey, h]
theorem State.setWait_cell (w : Wait) : s.setWait w = s.setCell (64 * k + c) { s.cell (64 * k + c) with wait := w } := by
  simp only [State.setWait, State.cellKey, h]
/-- A cell that goes to an address keeps its registers; its invocation notes that it has acted (R339). -/
theorem setPc_cell (v : Dword) : CellBecomes s k (64 * k + c) (s.cell (64 * k + c)).x v (s.setPc v) := by
  simp only [State.setPc, h, cellFires, State.cellKey_cell h, State.setCell_invs]
  cases sfind s.invs k with
  | none => exact ⟨by rw [State.cell_setCell_self], by rw [State.cell_setCell_self], fun i hne => State.cell_setCell_of_ne s _ hne, fun _ _ => rfl, rfl⟩
  | some i =>
    refine ⟨?_, ?_, fun i hne => ?_, fun i hne => ?_, rfl⟩
    · simp only [State.cell, State.setCell, sget_sput_self]
    · simp only [State.cell, State.setCell, sget_sput_self]
    · simp only [State.cell, State.setCell, sget_sput_of_ne _ _ _ hne]
    · rw [sfind_sput, if_neg hne]
theorem jumpTo_cell (v : Dword) (w : Word) : jumpTo s v w = s.setPc v := by
  rw [jumpTo, State.isCell_cell h]; exact if_neg fun hc => Bool.false_ne_true hc.1
/-- What a branch of a cell under a condition does. -/
theorem branch_cell {i : Instr} {b : Bool} {C : Prop} {off : BitVec 13} {w : Word} (hi : exec i s = branch b off w s) (hb : b = true ↔ C) :
    (¬C → Runs i s (CellBecomes s k (64 * k + c) (s.cell (64 * k + c)).x ((s.cell (64 * k + c)).pc + 4))) ∧
    (C → Runs i s (CellBecomes s k (64 * k + c) (s.cell (64 * k + c)).x ((s.cell (64 * k + c)).pc + BitVec.ofInt 64 (4 * off.toInt)))) := by
  refine ⟨fun hn => ⟨_, hi, ?_⟩, fun hy => ⟨_, hi, ?_⟩⟩
  · rw [if_neg fun hc => hn (hb.1 hc), State.advance, State.pc_cell h]; exact setPc_cell h _
  · rw [if_pos (hb.2 hy), jumpTo_cell h, relTarget, State.pc_cell h, signExtend_off13]; exact setPc_cell h _

/-! ## Floating-point operations -/

theorem fpSrc_cell (f : FpFmt) (q : Reg) : fpSrc s f q = (readCX (s.cell (64 * k + c)).x q).toNat % 2 ^ (FpFmt.fmt f).width := by
  cases f
  · rw [fpSrc, State.x_cell h]; exact (Nat.mod_eq_of_lt (BitVec.isLt _)).symm
  · rw [fpSrc, State.x_cell h]; rfl
theorem fpVal_cell (f : FpFmt) (q : Reg) : fpVal s f q = unpack (FpFmt.fmt f) ((readCX (s.cell (64 * k + c)).x q).toNat % 2 ^ (FpFmt.fmt f).width) := by
  rw [fpVal, fpSrc_cell h]
/-- A cell keeps no flag. -/
theorem fpDone_cell (d : Reg) (v : Nat) (fl : BitVec 6) :
    CellBecomes s k (64 * k + c) (writeCX (s.cell (64 * k + c)).x d (BitVec.ofNat 64 v)) ((s.cell (64 * k + c)).pc + 4) (fpDone s d v fl) := by
  have hc : (s.setX d (BitVec.ofNat 64 v)).isCell = true := by simp only [State.setX, h]; exact State.isCell_cell h
  rw [fpDone, State.accrue, hc]
  exact cell_gives h d _
theorem fpDone_runs_cell {i : Instr} {d : Reg} {v w : Nat} {fl : BitVec 6} (hi : exec i s = .next (fpDone s d v fl)) (hv : v = w) :
    Runs i s (CellBecomes s k (64 * k + c) (writeCX (s.cell (64 * k + c)).x d (BitVec.ofNat 64 w)) ((s.cell (64 * k + c)).pc + 4)) :=
  ⟨_, hi, hv ▸ fpDone_cell h d v fl⟩
end

/-- Only RSR looks at the draw. -/
theorem roundAt_draw {rm : RMode} (hr : rm ≠ .rsr) (n : Bool) (d d' m : Nat) (e u : Int) : roundAt rm n d m e u = roundAt rm n d' m e u := by
  have hup (q r sh : Nat) : roundsUp rm n d q r sh = roundsUp rm n d' q r sh := by
    cases rm
    case rsr => exact absurd rfl hr
    all_goals rfl
  simp only [roundAt, hup]
theorem roundTo_draw {F : Fmt} {rm : RMode} (hr : rm ≠ .rsr) (sat n : Bool) (d d' m : Nat) (e : Int) : roundTo F rm sat d n m e = roundTo F rm sat d' n m e := by
  simp only [roundTo, roundAt_draw hr n d d']
theorem fpConvert_draw {src dst : Fmt} {rm : RMode} (hr : rm ≠ .rsr) (sat : Bool) (d d' x : Nat) : fpConvert src dst rm sat d x = fpConvert src dst rm sat d' x := by
  have hmode : (if dst.fb < src.fb then rm else rm.plain) ≠ .rsr := by split; exacts [hr, plain_ne_rsr rm]
  simp only [fpConvert, roundTo_draw hmode sat _ d d']
/-- A conversion of a cell draws nothing (R153). -/
theorem fcvtff_cell {s : State} {k c : Nat} (h : s.actor = .cell k c) {f : FpFmt} {r : Rm} {m : RMode} (hm : fpMode s r = some m) (hr : m ≠ .rsr) (d a : Reg) :
    Runs (.fcvtff f r d a) s (CellBecomes s k (64 * k + c)
      (writeCX (s.cell (64 * k + c)).x d (BitVec.ofNat 64 (fpConvert (FpFmt.fmt (FpFmt.other f)) (FpFmt.fmt f) m false 0
        ((readCX (s.cell (64 * k + c)).x a).toNat % 2 ^ (FpFmt.fmt (FpFmt.other f)).width)).bits))
      ((s.cell (64 * k + c)).pc + 4)) := by
  refine ⟨_, by rw [exec_fcvtff, execFcvtff, hm], ?_⟩
  simp only [fpSrc_cell h, fpConvert_draw hr false _ 0, fpConvert_drew (.inr hr), Bool.false_eq_true, if_false]
  exact fpDone_cell h d _ _
/-- A cell rounds under its static code, and under RNE with code 7 (R153). -/
theorem fpMode_cell {s : State} {k c : Nat} (h : s.actor = .cell k c) (r : Rm) :
    ∃ m, fpMode s r = some m ∧ m ≠ .rsr ∧ m = (match r with
       | .rne => .rne | .rtz => .rtz | .rdn => .rdn | .rup => .rup | .rna => .rna | .dyn => .rne) := by
  cases r
  case dyn => exact ⟨.rne, by rw [fpMode, State.isCell_cell h]; rfl, by decide, rfl⟩
  all_goals exact ⟨_, rfl, by decide, rfl⟩

end Sys2Proof.Machine
end

section
/-! Who acts stays who acts, through an access to memory (R13): the layer that CellInteger's traps rest on. -/

namespace Sys2Proof.Machine
open Sys2Proof

/-! ## What the parts of an access leave of the actor -/

theorem foldl_actor {α : Type} {f : State → α → State} (h : ∀ s x, (f s x).actor = s.actor) (l : List α) (s : State) :
    (l.foldl f s).actor = s.actor := by
  induction l generalizing s with
  | nil => rfl
  | cons x l ih => exact (ih _).trans (h s x)
theorem setWait_actor (s : State) (w : Wait) : (s.setWait w).actor = s.actor := by unfold State.setWait; split <;> rfl
theorem joinHome_actor (s : State) (q : Request) (core w : Nat) : (joinHome s q core w).actor = s.actor := by
  unfold joinHome; simp only []; split <;> [rfl; split <;> rfl]
theorem standAt_actor (c : Ctx) (pa : Nat) (ea : Dword) (s : State) : (standAt c pa ea s).actor = s.actor := by
  unfold standAt
  extract_lets q region u
  have hu : u.actor = s.actor := by
    unfold u; split; exacts [rfl, joinHome_actor ..]
  split
  · rw [setWait_actor, hu]
  · split <;> exact hu
theorem servedAt_actor (c : Ctx) (region : Nat) (s : State) : (servedAt c region s).actor = s.actor := by
  unfold servedAt
  split
  · split; exacts [setWait_actor .., rfl]
  · split <;> rfl
theorem standOnLink_actor (c : Ctx) (n region : Nat) (ea : Dword) (s : State) : (standOnLink c n region ea s).actor = s.actor := by
  unfold standOnLink; split; exacts [setWait_actor .., rfl]
theorem dropDie_actor (s : State) (d w : Nat) : (dropDie s d w).actor = s.actor := (dropDie_caches s d w).actor
theorem breakLinksOf_actor (who : Nat → Bool) (s : State) (a : Nat) : (breakLinksOf who s a).actor = s.actor := (breakLinksOf_caches who s a).actor
theorem extRead_actor (s : State) (d w : Nat) : (extRead s d w).actor = s.actor := by unfold extRead; split <;> rfl
theorem stripWrite_actor (s : State) (core w : Nat) (v : Word) : (stripWrite s core w v).actor = s.actor := by unfold stripWrite; split <;> rfl
theorem clearRingFlags_actor (s : State) (f : Nat) : (clearRingFlags s f).actor = s.actor := by unfold clearRingFlags; split <;> rfl
theorem fillWord_actor (s : State) (core w stamp : Nat) (v : Word) : (fillWord s core w stamp v).actor = s.actor := by
  unfold fillWord; simp only []; rw [extRead_actor]; split <;> rfl
theorem coreRead_actor (s : State) (core w count : Nat) : (coreRead s core w count).2.actor = s.actor := by
  unfold coreRead
  simp only []
  split
  · rfl
  · refine foldl_actor (fun t x => ?_) _ s
    split
    · split <;> [split <;> rfl; rfl]
    · exact fillWord_actor ..
theorem coreWriteWords_actor (s : State) (core w count v : Nat) : (coreWriteWords s core w count v).actor = s.actor :=
  foldl_actor (f := fun s (q : Word × Nat) => stripWrite (breakLinksOf (fun k => coreOf k == core)
      (dropCocoonCopy { s with l1 := sput s.l1 (ckey core (w + q.2)) ⟨q.1, true, s.tick⟩ } core (w + q.2)) (4 * (w + q.2))) core (w + q.2) q.1)
    (fun t q => by rw [stripWrite_actor, breakLinksOf_actor, (dropCocoonCopy_caches ..).actor]) _ s
theorem coreWriteSub_actor {s t : State} {core pa n v : Nat} (h : coreWriteSub s core pa n v = some t) : t.actor = s.actor := by
  unfold coreWriteSub at h
  simp only [Option.ite_none_left_eq_some, Option.some.injEq] at h
  rw [← h.2, stripWrite_actor, (breakLinks_caches ..).actor, (registerWord_caches ..).actor, (dropCocoonCopy_caches ..).actor]
  exact (drain_caches s _).actor
theorem homeWrite_actor (s : State) (w : Nat) (v : Word) : (homeWrite s w v).actor = s.actor := by
  unfold homeWrite
  extract_lets u held t
  have hu : u.actor = s.actor := by
    unfold u; split; exacts [(dropCopy_caches ..).actor, rfl]
  have ht : t.actor = s.actor := hu
  rw [(tellHost_caches ..).actor, (breakLinks_caches ..).actor]
  split
  · rw [(extWrite_caches ..).actor, ht]
  · exact ht
theorem homeWriteN_actor {s t : State} {pa n v : Nat} (h : homeWriteN s pa n v = some t) : t.actor = s.actor := by
  unfold homeWriteN at h
  simp only [] at h
  split at h
  · simp only [Option.ite_none_left_eq_some, Option.some.injEq] at h
    rw [← h.2, homeWrite_actor]
  · split at h <;> rw [← Option.some.inj h]
    · exact homeWrite_actor ..
    · rw [homeWrite_actor, homeWrite_actor]
theorem renewed_actor (s : State) (core w count : Nat) : (renewed s core w count).actor = s.actor :=
  foldl_actor (fun t x => by rw [stripWrite_actor, dropDie_actor]) _ s
theorem setOffOnce_actor (s : State) (t : Turn) : (s.setOffOnce t).actor = s.actor := by unfold State.setOffOnce; split <;> rfl

/-! ## Cocoons -/

theorem cocoonFillSector_actor (s : State) (ck j : Nat) : (cocoonFillSector s ck j).actor = s.actor := by
  unfold cocoonFillSector
  split
  · rfl
  · split
    · rfl
    · refine foldl_actor (fun t x => ?_) _ s
      have hread (cls : Bool) (d w : Nat) : (if cls = true then t else extRead (dropDie t d w) d w).actor = t.actor := by
        split; exacts [rfl, (extRead_actor ..).trans (dropDie_actor ..)]
      simp only []
      split
      · rw [clearRingFlags_actor]; exact hread ..
      · exact hread ..
theorem cocoonMark_actor (s : State) (ck i count : Nat) : (cocoonMark s ck i count).1.actor = s.actor := by
  unfold cocoonMark
  split
  · rfl
  · split
    · rfl
    · exact foldl_actor (f := fun s (q : Word × Nat) => stripWrite (breakLinksOf _ { s with l1 := sdel s.l1 (ckey _ (_ + q.2)) } (4 * (_ + q.2))) _ (_ + q.2) q.1)
        (fun t q => by rw [stripWrite_actor, breakLinksOf_actor]) _ s
theorem cocoonWrote_actor (s : State) (ck i count by_ : Nat) : (cocoonWrote s ck i count by_).actor = s.actor := by
  unfold cocoonWrote
  split
  next h => exact (congrArg (fun r => r.1.actor) h).symm.trans (cocoonMark_actor ..)
  next h => exact (congrArg (fun r => r.1.actor) h).symm.trans (cocoonMark_actor ..)
theorem cocoonStored_actor (s : State) (ck i count by_ : Nat) : (cocoonStored s ck i count by_).actor = s.actor := by
  unfold cocoonStored
  simp only []
  split
  next u core w vals h =>
    have hu : u.actor = s.actor := (congrArg (fun r => r.1.actor) h).symm.trans (cocoonMark_actor ..)
    have hd := (drain_caches u fun p => (upFrom w count).any fun x => p.names core x).actor
    split
    · exact (foldl_actor (fun t (q : Word × Nat) => homeWrite_actor t (w + q.2) q.1) _ _).trans (hd.trans hu)
    · exact (recordPending_caches ..).actor.trans (hd.trans hu)
  next u h => exact (congrArg (fun r => r.1.actor) h).symm.trans (cocoonMark_actor ..)
theorem cocoonLands_actor (s : State) (unit : Bool) (ck i n by_ : Nat) : (cocoonLands s unit ck i n by_).actor = s.actor := by
  unfold cocoonLands
  split
  · split; exacts [cocoonStored_actor .., cocoonWrote_actor ..]
  · rfl

end Sys2Proof.Machine
end

section
/-! Computations that keep who acts: every access to memory does (R13). -/

namespace Sys2Proof.Machine
open Sys2Proof

/-- The state in which a computation ends. -/
def endState {α : Type} : EStateM.Result Stop State α → State
  | .ok _ t => t
  | .error _ t => t
/-- Started while a acts, a computation ends, or stops, while a acts. -/
def Keeps {α : Type} (a : Actor) (m : M α) : Prop := ∀ s, s.actor = a → (endState (m s)).actor = a

section
variable {α β : Type} {a : Actor}

theorem keeps_pure {x : α} : Keeps a (pure x) := fun _ h => h
theorem keeps_trap {c : Cause} {ea : Dword} {e : Nat} : Keeps a (trapM c ea e : M α) := fun _ h => h
theorem keeps_trap_bind {c : Cause} {ea : Dword} {e : Nat} {f : α → M β} : Keeps a (trapM c ea e >>= f) := fun _ h => h
theorem keeps_wait : Keeps a (waitM : M α) := fun _ h => h
theorem keeps_modify {f : State → State} (hf : ∀ s, (f s).actor = s.actor) : Keeps a (modify f) := fun s h => (hf s).trans h
theorem keeps_set {t : State} (h : t.actor = a) : Keeps a (set t) := fun _ _ => h
theorem keeps_bind {m : M α} {f : α → M β} (hm : Keeps a m) (hf : ∀ x, Keeps a (f x)) : Keeps a (m >>= f) := by
  intro s h
  have := hm s h
  cases hr : m s with
  | ok x t => rw [bindM_ok hr]; rw [hr] at this; exact hf x t this
  | error e t => rw [bindM_error hr]; rw [hr] at this; exact this
theorem keeps_get {f : State → M β} (hf : ∀ s, s.actor = a → Keeps a (f s)) : Keeps a (get >>= f) := fun s h => hf s h s h
theorem keeps_ite {p : Prop} [Decidable p] {m n : M α} (hm : p → Keeps a m) (hn : ¬p → Keeps a n) : Keeps a (if p then m else n) := by
  split
  next h => exact hm h
  next h => exact hn h
end

section
variable {a : Actor} {c : Ctx} {pa va : Nat} {ea : Dword} {e : Nat}

/-! ## Homes, links and the walk (R303, R489, R511) -/

theorem homeFree_keeps : Keeps a (homeFree c pa ea e) := by
  unfold homeFree
  refine keeps_get fun s _ => ?_
  split
  · exact keeps_bind (keeps_modify (servedAt_actor c _)) fun _ => keeps_trap
  · exact keeps_ite (fun _ => keeps_modify (servedAt_actor c _)) fun _ => keeps_bind (keeps_modify (standAt_actor c pa ea)) fun _ => keeps_wait
theorem overLink_keeps {cls : Cls} : Keeps a (overLink c pa cls ea e) := by
  unfold overLink
  refine keeps_get fun s _ => ?_
  simp only []
  split
  · exact keeps_bind (keeps_modify (servedAt_actor c _)) fun _ => keeps_trap
  · split
    next n _ => exact keeps_ite (fun _ => keeps_bind (keeps_modify fun t => servedAt_actor c _ (responded t n)) fun _ => keeps_pure) fun _ => keeps_wait
    next =>
      split
      · exact keeps_pure
      next n _ =>
        refine keeps_ite (fun _ => keeps_pure) fun _ => keeps_ite (fun _ => keeps_wait) fun _ => keeps_ite (fun _ => ?_) fun _ => ?_
        · exact keeps_bind (keeps_modify fun _ => rfl) fun _ => keeps_pure
        · exact keeps_bind (keeps_modify fun t => standOnLink_actor c n _ ea (linkSend t n 1)) fun _ => keeps_wait
theorem readEntry_keeps : Keeps a (readEntry c pa ea e) := by
  unfold readEntry
  refine keeps_get fun s _ => keeps_ite (fun _ => keeps_trap) fun _ => keeps_bind homeFree_keeps fun _ => keeps_get fun t _ => ?_
  split; exacts [keeps_pure, keeps_trap]
theorem walkEntry_keeps : Keeps a (walkEntry c pa ea e) := by
  unfold walkEntry
  refine keeps_get fun s _ => ?_
  split; exacts [keeps_pure, readEntry_keeps]
theorem keepEntry_keeps {n : Nat} : Keeps a (keepEntry c pa n) := keeps_modify fun s => by
  simp only []; split <;> rfl
theorem walkFrom_keeps (t lvl : Nat) : Keeps a (walkFrom c va ea e t lvl) := by
  induction lvl generalizing t with
  | zero =>
    change Keeps a (walkEntry c _ ea e >>= _)
    refine keeps_bind walkEntry_keeps fun n => ?_
    simp only []
    refine keeps_ite (fun _ => keeps_bind readEntry_keeps fun n0 => ?_) fun _ => ?_
    · exact keeps_ite (fun _ => keeps_trap) fun _ => keeps_ite (fun _ => keeps_trap) fun _ => keeps_ite (fun _ => keeps_trap) fun _ => keeps_pure
    · exact keeps_ite (fun _ => keeps_trap) fun _ => keeps_ite (fun _ => keeps_trap) fun _ => keeps_pure
  | succ l ih =>
    change Keeps a (walkEntry c _ ea e >>= _)
    refine keeps_bind walkEntry_keeps fun n => ?_
    simp only []
    refine keeps_ite (fun _ => keeps_bind readEntry_keeps fun n0 => ?_) fun _ => ?_
    · exact keeps_ite (fun _ => keeps_trap) fun _ => keeps_ite (fun _ => keeps_trap) fun _ => keeps_ite (fun _ => keeps_trap) fun _ => keeps_pure
    · refine keeps_ite (fun _ => keeps_trap) fun _ => keeps_ite (fun _ => keeps_trap) fun _ => keeps_ite (fun _ => ?_) fun _ => ?_
      · exact keeps_ite (fun _ => keeps_trap) fun _ => keeps_pure
      · exact keeps_bind keepEntry_keeps fun _ => ih _
theorem tableOf_keeps : Keeps a (tableOf c ea e) := by
  unfold tableOf
  split
  · exact keeps_pure
  · refine keeps_get fun s _ => keeps_bind walkEntry_keeps fun n => keeps_ite (fun _ => keeps_trap) fun _ => keeps_ite (fun _ => keeps_trap) fun _ => ?_
    exact keeps_bind keepEntry_keeps fun _ => keeps_pure
theorem onWalker_keeps {α : Type} {m : M α} (hm : Keeps a m) : Keeps a (onWalker c va m) := by
  unfold onWalker
  refine keeps_get fun s _ => keeps_ite (fun _ => hm) fun _ => keeps_ite (fun _ => keeps_wait) fun _ => fun t ht => ?_
  have := hm t ht
  cases hr : m t with
  | error r u =>
    rw [hr] at this
    cases r with
    | wait => exact (setWait_actor u _).trans this
    | trap x => exact this
  | ok x u =>
    rw [hr] at this
    show (if u.waitOf.walk.isSome then u.setWait { u.waitOf with walk := none } else u).actor = a
    split; exacts [(setWait_actor u _).trans this, this]
theorem walk_keeps {acc : Acc} : Keeps a (walk c va acc ea e) := by
  unfold walk
  refine keeps_bind tableOf_keeps fun top => keeps_bind (walkFrom_keeps _ _) fun r => ?_
  obtain ⟨lvl, at_, p⟩ := r
  simp only []
  refine keeps_ite (fun _ => keeps_trap) fun _ => keeps_get fun s hs => ?_
  refine keeps_ite (fun _ => ?_) fun _ => keeps_pure
  split
  next t ht => exact keeps_bind (keeps_set ((homeWriteN_actor ht).trans hs)) fun _ => keeps_pure
  next => exact keeps_pure
theorem askHost_keeps {pasid page : Nat} {ats : Bool} : Keeps a (askHost c pasid page ats ea e) := by
  unfold askHost
  refine keeps_get fun s _ => ?_
  simp only []
  refine keeps_ite (fun _ => ?_) fun _ => ?_
  · exact keeps_ite (fun _ => keeps_wait) fun _ => keeps_bind (keeps_modify fun t => setWait_actor t _) fun _ => keeps_wait
  · split
    · split
      · exact keeps_bind (keeps_modify fun _ => rfl) fun _ => keeps_trap
      · exact keeps_ite (fun _ => keeps_wait) fun _ => keeps_bind (keeps_modify fun _ => rfl) fun _ => keeps_wait
    · exact keeps_bind (keeps_modify fun _ => rfl) fun _ => keeps_wait
theorem throughEntry_keeps {t : TlbEntry} : Keeps a (throughEntry c t va ea e) := by
  unfold throughEntry
  simp only []
  refine keeps_get fun s _ => ?_
  split
  · exact keeps_trap
  · exact keeps_ite (fun _ => keeps_pure) fun _ => keeps_ite (fun _ => overLink_keeps) fun _ => keeps_ite (fun _ => keeps_pure) fun _ => keeps_pure
theorem translate_keeps {acc : Acc} : Keeps a (translate c va acc ea e) := by
  unfold translate
  refine keeps_get fun s _ => ?_
  simp only []
  split
  · split
    · exact keeps_ite (fun _ => keeps_bind (keeps_modify fun _ => rfl) fun _ => askHost_keeps) fun _ => throughEntry_keeps
    · exact askHost_keeps
  · split
    · refine keeps_ite (fun _ => keeps_trap) fun _ => keeps_ite (fun _ => ?_) fun _ => throughEntry_keeps
      exact keeps_bind (onWalker_keeps walk_keeps) fun t => keeps_bind (keeps_modify fun _ => rfl) fun _ => throughEntry_keeps
    · refine keeps_bind (onWalker_keeps walk_keeps) fun t => keeps_ite (fun _ => ?_) fun _ => throughEntry_keeps
      exact keeps_bind (keeps_modify fun _ => rfl) fun _ => throughEntry_keeps

/-! ## The checks before an access, and cocoons (R133, R308) -/

theorem checkVerdict_keeps : Keeps a (checkVerdict c ea e) := by
  unfold checkVerdict
  refine keeps_get fun s _ => ?_
  split
  · exact keeps_ite (fun _ => keeps_bind (keeps_modify fun t => setWait_actor t _) fun _ => keeps_trap) fun _ => keeps_pure
  · exact keeps_pure
theorem resolve_keeps {n lane : Nat} {acc : Acc} : Keeps a (resolve c ea n acc e lane) := by
  unfold resolve
  refine keeps_get fun s _ => ?_
  simp only []
  refine keeps_ite (fun _ => keeps_trap) fun _ => ?_
  split
  · exact keeps_trap
  · refine keeps_ite (fun _ => keeps_trap) fun _ => keeps_ite (fun _ => keeps_trap) fun _ => keeps_ite (fun _ => ?_) fun _ => keeps_ite (fun _ => ?_) fun _ => keeps_pure
    · exact keeps_ite (fun _ => keeps_trap) fun _ => keeps_pure
    · exact keeps_bind checkVerdict_keeps fun _ => translate_keeps
theorem route_keeps {n lane : Nat} {acc : Acc} : Keeps a (route c ea n acc e lane) := by
  unfold route
  refine keeps_get fun s _ => ?_
  split
  · split; exacts [keeps_pure, resolve_keeps]
  · refine keeps_ite (fun _ => keeps_trap) fun _ => keeps_bind resolve_keeps fun t => keeps_ite (fun _ => keeps_trap) fun _ => keeps_pure
theorem lateM_keeps {t : Target} : Keeps a (t.lateM ea e) := by
  unfold Target.lateM; split; exacts [keeps_trap, keeps_pure]
theorem cocoonTr_keeps {unit : Bool} {ck i b : Nat} {acc : Acc} : Keeps a (cocoonTr unit ck i b acc e) := by
  unfold cocoonTr
  refine keeps_get fun s _ => ?_
  simp only []
  split
  · exact keeps_pure
  · refine keeps_bind checkVerdict_keeps fun _ => keeps_ite (fun _ => keeps_pure) fun _ => keeps_bind translate_keeps fun t => ?_
    refine keeps_ite (fun _ => keeps_trap_bind) fun _ => keeps_bind lateM_keeps fun _ => ?_
    split; exacts [keeps_modify fun _ => rfl, keeps_pure]
theorem cocoonReady_keeps {unit : Bool} {ck i b n : Nat} {acc : Acc} : Keeps a (cocoonReady unit ck i b n acc e) := by
  unfold cocoonReady
  refine keeps_get fun s _ => ?_
  split
  · exact keeps_pure
  · extract_lets j ctx ea again d fills
    have hfills (x : Unit) : Keeps a (fills x) := by
      unfold fills
      refine keeps_get fun t _ => ?_
      split
      · exact keeps_pure
      next u _ =>
        extract_lets need fill
        have hfill (x : Unit) : Keeps a (fill x) := keeps_modify fun t => by
          split
          · rfl
          · split
            · split; exacts [rfl, setOffOnce_actor t _]
            · exact cocoonFillSector_actor _ ck j
        exact keeps_ite (fun _ => keeps_bind homeFree_keeps hfill) fun _ => hfill ()
    exact keeps_bind checkVerdict_keeps fun _ => keeps_ite (fun _ => keeps_bind cocoonTr_keeps hfills) fun _ => hfills ()

/-! ## Reading and writing where an access goes (R300, R305, R447) -/

theorem localRead_keeps {f n : Nat} : Keeps a (localRead c f n ea e) := by
  unfold localRead
  refine keeps_get fun s _ => ?_
  extract_lets reads
  have hreads (x : Unit) : Keeps a (reads x) := keeps_get fun t _ => keeps_ite (fun _ => keeps_trap) fun _ => keeps_pure
  split; exacts [keeps_bind cocoonReady_keeps hreads, hreads ()]
theorem localWrite_keeps {f n v : Nat} : Keeps a (localWrite c f n v ea e) := by
  unfold localWrite
  refine keeps_get fun s _ => ?_
  extract_lets writes
  have hwrites (x : Unit) : Keeps a (writes x) := by
    refine keeps_get fun t ht => keeps_ite (fun _ => keeps_trap) fun _ => ?_
    extract_lets p q u
    have hu : u.actor = a := (breakLinks_caches ..).actor.trans ((clearRingFlags_actor ..).trans ht)
    split; exacts [keeps_set ((cocoonLands_actor ..).trans hu), keeps_set hu]
  split; exacts [keeps_bind cocoonReady_keeps hwrites, hwrites ()]
theorem bufWrite_keeps {j core place n v : Nat} : Keeps a (bufWrite j core place n v) := by
  unfold bufWrite
  refine keeps_get fun s hs => ?_
  split
  · exact keeps_pure
  · exact keeps_ite (fun _ => keeps_wait) fun _ => keeps_set hs
theorem noteClass_keeps {t : Target} : Keeps a (noteClass c t) := keeps_ite (fun _ => keeps_modify fun _ => rfl) fun _ => keeps_pure
theorem sectorTouched_keeps {t : Target} : Keeps a (sectorTouched c t e) := by
  unfold sectorTouched
  refine keeps_get fun s _ => ?_
  split
  · split; exacts [cocoonTr_keeps, keeps_pure]
  · exact keeps_pure

section
variable {t : Target} (ht : t.cls ≠ .d) {n : Nat}
include ht

theorem readTarget_keeps : Keeps a (readTarget c t n ea e) := by
  unfold readTarget
  split
  next pa cls =>
    refine keeps_get fun s _ => keeps_ite (fun _ => ?_) fun _ => keeps_bind homeFree_keeps fun _ => keeps_get fun t _ => ?_
    · extract_lets core reads
      have hreads (x : Unit) : Keeps a (reads x) := by
        refine keeps_get fun t ht => ?_
        split
        next v u hr => exact keeps_bind (keeps_set ((congrArg (fun r => r.2.actor) hr).symm.trans ((coreRead_actor ..).trans ht))) fun _ => keeps_pure
        next => exact keeps_trap
      exact keeps_ite (fun _ => keeps_bind homeFree_keeps hreads) fun _ => hreads ()
    · split; exacts [keeps_pure, keeps_trap]
  next f => exact localRead_keeps
  next o => exact absurd rfl ht
  next => exact keeps_trap
theorem writeTarget_keeps {v : Nat} : Keeps a (writeTarget c t n v ea e) := by
  unfold writeTarget
  split
  next pa cls =>
    refine keeps_ite (fun _ => keeps_modify fun s => coreWriteWords_actor s _ _ _ v) fun _ => keeps_bind homeFree_keeps fun _ => keeps_get fun s hs => keeps_ite (fun _ => ?_) fun _ => ?_
    · split
      next u hu => exact keeps_set ((coreWriteSub_actor hu).trans hs)
      next => exact keeps_trap
    · split
      next u hu =>
        refine keeps_set ?_
        split; exacts [(renewed_actor ..).trans ((homeWriteN_actor hu).trans hs), (homeWriteN_actor hu).trans hs]
      next => exact keeps_trap
  next f => exact localWrite_keeps
  next o => exact absurd rfl ht
  next => exact keeps_trap
theorem loadAt_keeps : Keeps a (loadAt c t ea n e) := by
  unfold loadAt
  refine keeps_get fun s _ => ?_
  split
  · refine keeps_ite (fun _ => keeps_wait) fun _ => keeps_bind lateM_keeps fun _ => keeps_ite (fun _ => keeps_trap_bind) fun _ => ?_
    exact keeps_bind (keeps_ite (fun _ => keeps_pure) fun _ => readTarget_keeps ht) fun _ => keeps_pure
  · exact keeps_bind noteClass_keeps fun _ => readTarget_keeps ht
end

/-! ## Loads and stores of a cell -/

theorem sfind_isSome_of_mem {α : Type} {l : Sparse α} {k : Nat} {v : α} (h : (k, v) ∈ l) : (sfind l k).isSome = true := by
  induction l with
  | nil => exact absurd h List.not_mem_nil
  | cons p l ih =>
    obtain ⟨j, w⟩ := p
    simp only [sfind]
    split
    next => rfl
    next hj =>
      rcases List.mem_cons.1 h with heq | hmem
      · exact absurd (Prod.mk.inj heq).1.symm hj
      · exact ih hmem
/-- What a fold that keeps one element of a list, or none, keeps is an element of the list. -/
theorem foldl_some_mem {α : Type} {f : Option α → α → Option α} (hf : ∀ b x y, f b x = some y → y = x ∨ b = some y) (l : List α) (b : Option α) (y : α)
    (h : l.foldl f b = some y) : y ∈ l ∨ b = some y := by
  induction l generalizing b with
  | nil => exact .inr h
  | cons x l ih =>
    rcases ih _ h with hy | hy
    · exact .inl (List.mem_cons_of_mem x hy)
    · rcases hf b x y hy with rfl | hb
      · exact .inl List.mem_cons_self
      · exact .inr hb
/-- The cocoon that serves an address is one of the cocoons (R305). -/
theorem cocoonOfGlobal_isSome {s : State} {core : Nat} {asid : BitVec 16} {va ck i : Nat} (h : cocoonOfGlobal s core asid va = some (ck, i)) :
    (sfind s.cocoons ck).isSome = true := by
  unfold cocoonOfGlobal at h
  obtain ⟨p, hp, hck⟩ := Option.map_eq_some_iff.1 h
  have hmem := (foldl_some_mem (fun b x y hy => by
    cases b with
    | none => exact .inl (Option.some.inj hy).symm
    | some q =>
      simp only [] at hy
      split at hy
      · exact .inl (Option.some.inj hy).symm
      · exact .inr hy) _ _ _ hp).resolve_right nofun
  obtain ⟨rfl, rfl⟩ := Prod.mk.inj hck
  exact sfind_isSome_of_mem (List.mem_filter.1 hmem).1
/-- A cell reaches no class D memory (R338). -/
theorem route_cell_class {s u : State} {t : Target} {n lane : Nat} {acc : Acc} (hc : s.isCell = true) (hl : c.tlb = true)
    (h : route c ea n acc e lane s = .ok t u) : t.cls ≠ .d := by
  unfold route at h
  rw [bindM_get] at h
  cases hg : (if (c.tlb && winCode ea == 0 && ea.toNat % n == 0) = true then cocoonOfGlobal s (coreOf c.key) c.asid ea.toNat else none) with
  | some r =>
    obtain ⟨ck, i⟩ := r
    obtain ⟨k, hk⟩ := Option.isSome_iff_exists.1 (cocoonOfGlobal_isSome (Option.ite_none_right_eq_some.1 hg).2)
    rw [hg] at h
    simp only [hk] at h
    obtain ⟨rfl, -⟩ := EStateM.Result.ok.inj h
    exact nofun
  | none =>
    rw [hg] at h
    simp only [] at h
    split at h
    · exact nomatch h
    · cases hr : resolve c ea n acc e lane s with
      | error r v => rw [bindM_error hr] at h; exact nomatch h
      | ok x v =>
        rw [bindM_ok hr] at h
        split at h
        next => exact nomatch h
        next hd =>
          obtain ⟨rfl, -⟩ := EStateM.Result.ok.inj h
          simpa [hc, hl] using hd
theorem loadN_keeps {s : State} {n lane : Nat} (hc : s.isCell = true) (hl : c.tlb = true) : (endState (loadN c ea n e lane s)).actor = s.actor := by
  have hroute : (endState (route c ea n .read e lane s)).actor = s.actor := route_keeps s rfl
  unfold loadN
  cases hr : route c ea n .read e lane s with
  | error r u => rw [bindM_error hr]; rw [hr] at hroute; exact hroute
  | ok t u =>
    rw [bindM_ok hr]; rw [hr] at hroute
    exact loadAt_keeps (route_cell_class hc hl hr) u hroute
theorem storeN_keeps {s : State} {n v lane : Nat} (hc : s.isCell = true) (hl : c.tlb = true) : (endState (storeN c ea n v e lane s)).actor = s.actor := by
  have hroute : (endState (route c ea n .write e lane s)).actor = s.actor := route_keeps s rfl
  unfold storeN
  cases hr : route c ea n .write e lane s with
  | error r u => rw [bindM_error hr]; rw [hr] at hroute; exact hroute
  | ok t u =>
    rw [bindM_ok hr]; rw [hr] at hroute
    have ht := route_cell_class hc hl hr
    refine keeps_get (fun w _ => ?_) u hroute
    split
    · refine keeps_ite (fun _ => keeps_wait) fun _ => keeps_bind lateM_keeps fun _ => keeps_ite (fun _ => keeps_trap_bind) fun _ => ?_
      refine keeps_bind sectorTouched_keeps fun _ => keeps_ite (fun _ => keeps_bind (readTarget_keeps ht) fun _ => bufWrite_keeps) fun _ => bufWrite_keeps
    · exact keeps_bind noteClass_keeps fun _ => writeTarget_keeps ht

end

end Sys2Proof.Machine
end

section
/-! Loads and stores of a fabric cell through its page's memory port (R153, R338, R358), and the proof of CellInteger. -/

namespace Sys2Proof.Machine
open Sys2Proof

/-! ## Local windows (R133, R195) -/

section
variable {s : State} {ctx : Ctx} {ea : Dword} {n : Nat} (hl : LocalAccess s ctx.key ea n) (e : Nat)
include hl

/-- A local access that its window allows goes to its place, whoever makes it. -/
theorem route_localAccess (acc : Acc) : route ctx ea n acc e 0 s = .ok (.loc (flatOf s ctx.key ea)) s := by
  obtain ⟨halign, hglobal, hdevice, ⟨size, hsize, hoff⟩, -, -⟩ := hl
  have hresolve : resolve ctx ea n acc e 0 s = .ok (.loc (flatOf s ctx.key ea)) s := by
    unfold resolve
    rw [bindM_get, if_neg (not_not.2 halign), hsize]
    simp only []
    rw [if_neg fun hx => hdevice hx.1, if_neg (Nat.not_le.2 hoff), if_neg hdevice, if_neg hglobal]; rfl
  have hcocoon : (if (ctx.tlb && winCode ea == 0 && ea.toNat % n == 0) = true then cocoonOfGlobal s (coreOf ctx.key) ctx.asid ea.toNat else none) = none :=
    if_neg (by simp [hglobal])
  unfold route
  rw [bindM_get, hcocoon]
  simp only []
  rw [if_neg (by simp [hdevice]), bindM_ok hresolve, if_neg (by simp [Target.cls])]; rfl
theorem loadN_localAccess (ht : ctx.tlb = true) (hu : Unpoisoned s (flatOf s ctx.key ea) n) : loadN ctx ea n e 0 s = .ok (Mem.readN s.mem (flatOf s ctx.key ea) n) s := by
  have hpoison : ¬(s.poison.contains (flatOf s ctx.key ea / 4) || (n == 8 && s.poison.contains (flatOf s ctx.key ea / 4 + 1))) = true := by
    simpa [Unpoisoned] using hu
  obtain ⟨-, -, -, -, hcocoons, hspec⟩ := id hl
  unfold loadN
  rw [bindM_ok (route_localAccess hl e .read)]
  unfold loadAt
  rw [bindM_get, if_pos ht, hspec]
  simp only [noteClass]
  rw [if_neg (by simp [Target.cls]), bindM_pure]
  simp only [readTarget, localRead]
  rw [bindM_get, cocoonOfFlat_none hcocoons]
  simp only []
  rw [bindM_get, if_neg hpoison]; rfl
theorem storeN_localAccess (ht : ctx.tlb = true) {v : Nat} (hp : ¬(n < 4 ∧ flatOf s ctx.key ea / 4 ∈ s.poison)) :
    storeN ctx ea n v e 0 s = .ok () (stored s (flatOf s ctx.key ea) n v) := by
  have hpoison : ¬(decide (n < 4) && s.poison.contains (flatOf s ctx.key ea / 4)) = true := by simpa using hp
  obtain ⟨-, -, -, -, hcocoons, hspec⟩ := id hl
  unfold storeN
  rw [bindM_ok (route_localAccess hl e .write), bindM_get, if_pos ht, hspec]
  simp only [noteClass]
  rw [if_neg (by simp [Target.cls]), bindM_pure]
  simp only [writeTarget, localWrite]
  rw [bindM_get, cocoonOfFlat_none hcocoons]
  simp only []
  rw [bindM_get, if_neg hpoison, cocoonOfFlat_none]
  · rfl
  · exact (congrArg State.cocoons (stored_frame s (flatOf s ctx.key ea) n v) :).trans hcocoons
end

/-! ## The memory port (R358) -/

theorem mem_sput_ne {α : Type} {l : Sparse α} {j : Nat} {v : α} {p : Nat × α} (hp : p.1 ≠ j) : p ∈ sput l j v ↔ p ∈ l := by
  have hv : p ≠ (j, v) := fun h => hp (by rw [h])
  induction l with
  | nil => simp [sput, hv]
  | cons q l ih =>
    obtain ⟨i, w⟩ := q
    simp only [sput]
    split
    next => simp [hv]
    next =>
      split
      next hji => subst hji; simp [hv, show p ≠ (j, w) from fun h => hp (by rw [h])]
      next => simp [ih]

section
variable {s : State} {k c : Nat} (h : s.actor = .cell k c)

/-- The number of a cell's access at its page's port: the one it has, or a new one. -/
def portSeq (s : State) (j : Nat) : Nat := if (s.cell j).wait.seq = 0 then s.tick + 1 else (s.cell j).wait.seq
/-- The state in which a cell's access stands at the port. -/
def atPort (s : State) (j : Nat) (ea : Dword) : State := s.setWait { (s.cell j).wait with out := some ea, seq := portSeq s j }
/-- An earlier access of the port has a byte in common with n bytes at ea. -/
def PortHeld (s : State) (j : Nat) (ea : Dword) (n : Nat) : Prop :=
  ∃ p ∈ s.cells, p.1 / 8 = j / 8 ∧ p.1 ≠ j ∧ p.2.wait.seq ≠ 0 ∧ p.2.wait.seq < portSeq s j ∧
    ∃ e, p.2.wait.out = some e ∧ ea.toNat < e.toNat + 8 ∧ e.toNat < ea.toNat + n

include h
theorem atPort_eq (ea : Dword) : atPort s (64 * k + c) ea =
    s.setCell (64 * k + c) { s.cell (64 * k + c) with wait := { (s.cell (64 * k + c)).wait with out := some ea, seq := portSeq s (64 * k + c) } } :=
  State.setWait_cell h _
theorem atPort_actor (ea : Dword) : (atPort s (64 * k + c) ea).actor = .cell k c := by rw [atPort_eq h]; exact h
theorem atPort_cell (ea : Dword) : (atPort s (64 * k + c) ea).cell (64 * k + c) =
    { s.cell (64 * k + c) with wait := { (s.cell (64 * k + c)).wait with out := some ea, seq := portSeq s (64 * k + c) } } := by
  rw [atPort_eq h, State.cell_setCell_self]
theorem atPort_cell_ne (ea : Dword) {i : Nat} (hi : i ≠ 64 * k + c) : (atPort s (64 * k + c) ea).cell i = s.cell i := by
  rw [atPort_eq h, State.cell_setCell_of_ne s _ hi]
theorem portHolds_iff (ea : Dword) (n : Nat) : portHolds (atPort s (64 * k + c) ea) (64 * k + c) ea n = true ↔ PortHeld s (64 * k + c) ea n := by
  have hseq : ((atPort s (64 * k + c) ea).cell (64 * k + c)).wait.seq = portSeq s (64 * k + c) := by rw [atPort_cell h]
  have hcells : (atPort s (64 * k + c) ea).cells = _ := congrArg State.cells (atPort_eq h ea)
  rw [State.setCell] at hcells
  simp only [portHolds, hseq, hcells, List.any_eq_true, Bool.and_eq_true, beq_iff_eq, bne_iff_ne, ne_eq, decide_eq_true_eq, Option.any_eq_true]
  constructor
  · rintro ⟨p, hp, ⟨⟨⟨hpage, hne⟩, h0⟩, hlt⟩, e, he, hb⟩
    exact ⟨p, (mem_sput_ne hne).1 hp, hpage, hne, h0, hlt, e, he, hb⟩
  · rintro ⟨p, hp, hpage, hne, h0, hlt, e, he, hb⟩
    exact ⟨p, (mem_sput_ne hne).2 hp, ⟨⟨⟨hpage, hne⟩, h0⟩, hlt⟩, e, he, hb⟩
theorem cellPort_cell (ea : Dword) (n : Nat) : cellPort ea n s = if portHolds (atPort s (64 * k + c) ea) (64 * k + c) ea n = true
    then .error .wait (atPort s (64 * k + c) ea) else .ok () (atPort s (64 * k + c) ea) := by
  have hstands : s.setWait { s.waitOf with out := some ea, seq := if s.waitOf.seq = 0 then s.tick + 1 else s.waitOf.seq } = atPort s (64 * k + c) ea := by
    rw [State.waitOf_cell h]; rfl
  unfold cellPort
  rw [bindM_get, if_pos (State.isCell_cell h)]
  refine (bindM_modify _ _ s).trans ?_
  rw [bindM_get, hstands, State.cellKey_cell (atPort_actor h ea)]
  split <;> rfl
theorem effAddr_cell (a : Reg) (off : BitVec 13) (n : Nat) :
    effAddr (s.x a) off n = readCX (s.cell (64 * k + c)).x a + BitVec.ofInt 64 (off.toInt * n) := by
  rw [effAddr_toInt, State.x_cell h]
theorem atPort_localAccess {ea : Dword} {n : Nat} (hl : LocalAccess s k ea n) : LocalAccess (atPort s (64 * k + c) ea) s.ctx.key ea n := by
  rw [atPort_eq h, show s.ctx.key = k by simp only [State.ctx, State.key, h, Actor.key]]; exact hl
theorem atPort_flatOf (ea : Dword) : flatOf (atPort s (64 * k + c) ea) s.ctx.key ea = flatOf s k ea := by
  rw [atPort_eq h, show s.ctx.key = k by simp only [State.ctx, State.key, h, Actor.key]]; rfl
theorem raise_cell (x : TrapInfo) : raise s x = cellFaults s k c x := by simp only [raise, h]

/-- From the state at the port a cell becomes what it becomes from the state before. -/
theorem CellBecomes.ofPort {ea : Dword} {x : Vector Dword 16} {pc : Dword} {t : State}
    (hb : CellBecomes (atPort s (64 * k + c) ea) k (64 * k + c) x pc t) : CellBecomes s k (64 * k + c) x pc t := by
  obtain ⟨hx, hpc, hcells, hinvs, hframe⟩ := hb
  rw [atPort_eq h] at hinvs hframe
  exact ⟨hx, hpc, fun i hi => (hcells i hi).trans (atPort_cell_ne h ea hi), hinvs, (congrArg (fun u : State => { u with cells := s.cells }) hframe :)⟩
end

/-- A state but for what a cell's store may change, which is as in s. -/
def storeRest (s t : State) : State := { t with strands := s.strands, cells := s.cells, invs := s.invs, mem := s.mem, poison := s.poison }
/-- What a cell leaves that has stored n bytes at flat address f. -/
theorem stored_cell {s : State} {k c : Nat} (h : s.actor = .cell k c) (ea : Dword) {n f v : Nat} (hn : n = 1 ∨ n = 2 ∨ n = 4 ∨ n = 8) (hw : Memory.wf s.mem = true) :
    let t := (stored (atPort s (64 * k + c) ea) f n (v % 2 ^ (8 * n))).advance
    Stores s t f n v ∧ (t.cell (64 * k + c)).x = (s.cell (64 * k + c)).x ∧ (t.cell (64 * k + c)).pc = (s.cell (64 * k + c)).pc + 4 ∧
    (∀ i, i ≠ 64 * k + c → t.cell i = s.cell i) ∧ (∀ i, (t.strand i).unflagged = (s.strand i).unflagged) ∧
    { t with strands := s.strands, cells := s.cells, invs := s.invs, mem := s.mem, poison := s.poison } = s := by
  have hmem : (atPort s (64 * k + c) ea).mem = s.mem := by rw [atPort_eq h]; rfl
  have hstrands : (atPort s (64 * k + c) ea).strands = s.strands := by rw [atPort_eq h]; rfl
  have hport : { atPort s (64 * k + c) ea with cells := s.cells } = s := by rw [atPort_eq h]; rfl
  have hat := stored_stores (s := atPort s (64 * k + c) ea) (f := f) (v := v) (hmem ▸ hw) hn
  have hflags := stored_unflagged (atPort s (64 * k + c) ea) f n (v % 2 ^ (8 * n))
  have hframe := stored_frame (atPort s (64 * k + c) ea) f n (v % 2 ^ (8 * n))
  have hcell := atPort_cell h ea
  have hother := fun i => atPort_cell_ne h ea (i := i)
  have hactor := (stored_actor (atPort s (64 * k + c) ea) f n (v % 2 ^ (8 * n))).trans (atPort_actor h ea)
  generalize stored (atPort s (64 * k + c) ea) f n (v % 2 ^ (8 * n)) = u at *
  generalize atPort s (64 * k + c) ea = w at *
  have hcells : ∀ i, u.cell i = w.cell i := fun i => (congrArg (fun t : State => t.cell i) hframe :)
  intro t
  obtain ⟨hx, hpc, hcs, -, hadv⟩ : CellBecomes u k (64 * k + c) (u.cell (64 * k + c)).x (u.pc + 4) t := setPc_cell hactor _
  have htmem : t.mem = u.mem := (congrArg State.mem hadv :)
  have hstrand : ∀ i, t.strand i = u.strand i := fun i => (congrArg (fun q : State => q.strand i) hadv :)
  refine ⟨?stores, ?x, ?pc, fun i hi => ?cells, fun i => ?strands, ?frame⟩
  case stores => unfold Stores at *; rw [htmem, ← hmem]; exact hat.1
  case x => rw [hx, hcells, hcell]
  case pc => rw [hpc, State.pc_cell hactor, hcells, hcell]
  case cells => rw [hcs i hi, hcells, hother i hi]
  case strands => rw [hstrand, hflags]; unfold State.strand; rw [hstrands]
  case frame =>
    calc storeRest s t = storeRest s u := (congrArg (storeRest s) hadv :)
      _ = storeRest s w := (congrArg (storeRest s) hframe :)
      _ = s := (congrArg (storeRest s) hport :)

/-! ## Loads and stores of a cell -/

section
variable {s : State} {k c : Nat} (h : s.actor = .cell k c) {n : Nat} {a : Reg} {off : BitVec 13} {ea : Dword}
  (hea : ea = readCX (s.cell (64 * k + c)).x a + BitVec.ofInt 64 (off.toInt * n))
include h hea

/-- What a load of a cell does: it waits at the port, or is its access. -/
theorem load_cell {i : Instr} {ext : Nat → Dword} {d : Reg} (hi : exec i s = runInstr (loadInstr n ext d a off) s) :
    (PortHeld s (64 * k + c) ea n → Runs i s (fun t => t = (atPort s (64 * k + c) ea).block)) ∧ (¬PortHeld s (64 * k + c) ea n →
      (∀ v t, loadN s.ctx ea n 0 0 (atPort s (64 * k + c) ea) = .ok v t → Runs i s (fun u => u = (t.setX d (ext v)).advance)) ∧
      (∀ x t, loadN s.ctx ea n 0 0 (atPort s (64 * k + c) ea) = .error (.trap x) t → Runs i s (fun u => u = cellFaults t k c x)) ∧
      (LocalAccess s k ea n → Unpoisoned s (flatOf s k ea) n → Runs i s (CellBecomes s k (64 * k + c)
        (writeCX (s.cell (64 * k + c)).x d (ext (Mem.readN s.mem (flatOf s k ea) n))) ((s.cell (64 * k + c)).pc + 4)))) := by
  have hport := cellPort_cell h ea n
  have hactor := atPort_actor h ea
  rw [loadInstr] at hi
  rw [← effAddr_cell h] at hea
  subst hea
  constructor
  · intro hheld
    rw [if_pos ((portHolds_iff h _ n).2 hheld)] at hport
    exact runs_eq (hi.trans (runInstr_wait (by rw [bindM_get, bindM_error hport])))
  · intro hfree
    rw [if_neg fun hh => hfree ((portHolds_iff h _ n).1 hh)] at hport
    have answers : ∀ v t, loadN s.ctx (effAddr (s.x a) off n) n 0 0 (atPort s (64 * k + c) (effAddr (s.x a) off n)) = .ok v t →
        Runs i s (fun u => u = (t.setX d (ext v)).advance) := fun v t hv =>
      runs_eq (hi.trans (runInstr_ok (by rw [bindM_get, bindM_ok hport, bindM_ok hv]; rfl)))
    refine ⟨answers, fun x t hx => ?trap, fun hl hu => ?window⟩
    case trap =>
      have ht : t.actor = .cell k c := by
        have := loadN_keeps (c := s.ctx) (ea := effAddr (s.x a) off n) (n := n) (e := 0) (lane := 0) (State.isCell_cell hactor) rfl
        rw [hx] at this; exact this.trans hactor
      rw [← raise_cell ht]
      exact runs_eq (hi.trans (runInstr_trap (by rw [bindM_get, bindM_ok hport, bindM_error hx])))
    case window =>
      have hmem : (atPort s (64 * k + c) (effAddr (s.x a) off n)).mem = s.mem := by rw [atPort_eq h]; rfl
      have hpoison : (atPort s (64 * k + c) (effAddr (s.x a) off n)).poison = s.poison := by rw [atPort_eq h]; rfl
      have hread := loadN_localAccess (atPort_localAccess h hl) 0 rfl (by rw [Unpoisoned, atPort_flatOf h, hpoison]; exact hu)
      rw [atPort_flatOf h, hmem] at hread
      obtain ⟨_, ht, rfl⟩ := answers _ _ hread
      have hgives := cell_gives hactor d (ext (Mem.readN s.mem (flatOf s k (effAddr (s.x a) off n)) n))
      rw [atPort_cell h] at hgives
      exact ⟨_, ht, hgives.ofPort h⟩
/-- What a store of a cell does: it waits at the port, or is its access. -/
theorem store_cell {i : Instr} {d : Reg} (hi : exec i s = runInstr (storeInstr n d a off) s) (hn : n = 1 ∨ n = 2 ∨ n = 4 ∨ n = 8) (hw : Memory.wf s.mem = true) :
    (PortHeld s (64 * k + c) ea n → Runs i s (fun t => t = (atPort s (64 * k + c) ea).block)) ∧ (¬PortHeld s (64 * k + c) ea n →
      let v := (readCX (s.cell (64 * k + c)).x d).toNat
      (∀ t, storeN s.ctx ea n (v % 2 ^ (8 * n)) 0 0 (atPort s (64 * k + c) ea) = .ok () t → Runs i s (fun u => u = t.advance)) ∧
      (∀ x t, storeN s.ctx ea n (v % 2 ^ (8 * n)) 0 0 (atPort s (64 * k + c) ea) = .error (.trap x) t → Runs i s (fun u => u = cellFaults t k c x)) ∧
      (LocalAccess s k ea n → ¬(n < 4 ∧ flatOf s k ea / 4 ∈ s.poison) → Runs i s (fun t =>
        Stores s t (flatOf s k ea) n v ∧ (t.cell (64 * k + c)).x = (s.cell (64 * k + c)).x ∧ (t.cell (64 * k + c)).pc = (s.cell (64 * k + c)).pc + 4 ∧
        (∀ i, i ≠ 64 * k + c → t.cell i = s.cell i) ∧ (∀ i, (t.strand i).unflagged = (s.strand i).unflagged) ∧
        { t with strands := s.strands, cells := s.cells, invs := s.invs, mem := s.mem, poison := s.poison } = s))) := by
  have hport := cellPort_cell h ea n
  have hactor := atPort_actor h ea
  rw [storeInstr] at hi
  rw [← effAddr_cell h] at hea
  subst hea
  constructor
  · intro hheld
    rw [if_pos ((portHolds_iff h _ n).2 hheld)] at hport
    exact runs_eq (hi.trans (runInstr_wait (by rw [bindM_get, bindM_error hport])))
  · intro hfree
    rw [if_neg fun hh => hfree ((portHolds_iff h _ n).1 hh)] at hport
    rw [← State.x_cell h]
    generalize hv : (s.x d).toNat = v
    have lands : ∀ t, storeN s.ctx (effAddr (s.x a) off n) n (v % 2 ^ (8 * n)) 0 0 (atPort s (64 * k + c) (effAddr (s.x a) off n)) = .ok () t →
        Runs i s (fun u => u = t.advance) := fun t ht =>
      runs_eq (hi.trans (runInstr_ok (by rw [bindM_get, bindM_ok hport, hv, bindM_ok ht]; rfl)))
    refine ⟨lands, fun x t hx => ?trap, fun hl hp => ?window⟩
    case trap =>
      have ht : t.actor = .cell k c := by
        have := storeN_keeps (c := s.ctx) (ea := effAddr (s.x a) off n) (n := n) (v := v % 2 ^ (8 * n)) (e := 0) (lane := 0) (State.isCell_cell hactor) rfl
        rw [hx] at this; exact this.trans hactor
      rw [← raise_cell ht]
      exact runs_eq (hi.trans (runInstr_trap (by rw [bindM_get, bindM_ok hport, hv, bindM_error hx])))
    case window =>
      generalize hea : effAddr (s.x a) off n = ea at *
      have hpoison : (atPort s (64 * k + c) ea).poison = s.poison := by rw [atPort_eq h]; rfl
      have hstore := storeN_localAccess (v := v % 2 ^ (8 * n)) (atPort_localAccess h hl) 0 rfl (by rw [atPort_flatOf h, hpoison]; exact hp)
      rw [atPort_flatOf h] at hstore
      obtain ⟨_, ht, rfl⟩ := lands _ hstore
      exact ⟨_, ht, stored_cell h ea hn hw⟩
end

/-- Settles O3: the rows of a strand's operations, where a result lands in a cell's register; its branches; and its accesses through the port. -/
theorem cellInteger : Obligations.CellInteger := by
  refine ⟨fun s k c d a b imm sh up h => ?alu, fun s k c a b off h => ?branches, fun s k c d a off h hw => ?accesses,
    fun s k c f q ty d a b m h hm => ?floating⟩
  case alu =>
    obtain ⟨add, sub, and, or, xor, andn, orn, sll, srl, sra, rotl, rotr, slt, sltn, min, max, minn, maxn, mul, mulh, mulhn, div, rem, divn, remn⟩ :=
      binary_rows (State.x_cell h a) (cell_gives h d) (State.x_cell h b)
    obtain ⟨clz, ctz, popc, bswap⟩ := unary_rows (State.x_cell h a) (cell_gives h d)
    exact ⟨add, sub, and, or, xor, andn, orn, sll, srl, sra, rotl, rotr, slt, sltn, min, max, minn, maxn, mul, mulh, mulhn, div, rem, divn, remn,
      clz, ctz, popc, bswap, immediate_rows (State.x_cell h a) (cell_gives h d) (State.pc_cell h) imm sh up⟩
  case branches =>
    simp only [← State.x_cell h]
    exact ⟨branch_cell h exec_beq (by simp), branch_cell h exec_bne (by simp), branch_cell h exec_blt (by simp [BitVec.slt]),
      branch_cell h exec_bge (by simp [BitVec.slt]), branch_cell h exec_bltn (by simp [BitVec.ult]), branch_cell h exec_bgen (by simp [BitVec.ult])⟩
  case accesses =>
    have load {i : Instr} {n : Nat} (ext : Nat → Dword) (hi : exec i s = runInstr (loadInstr n ext d a off) s) := load_cell h rfl hi
    have store {i : Instr} {n : Nat} (hn : n = 1 ∨ n = 2 ∨ n = 4 ∨ n = 8) (hi : exec i s = runInstr (storeInstr n d a off) s) := store_cell h rfl hi hn hw
    exact ⟨load (BitVec.ofNat 64) exec_ld8, load (fun v => (BitVec.ofNat 8 v).signExtend 64) exec_ld8s, load (BitVec.ofNat 64) exec_ld16,
      load (fun v => (BitVec.ofNat 16 v).signExtend 64) exec_ld16s, load (BitVec.ofNat 64) exec_ld32,
      load (fun v => (BitVec.ofNat 32 v).signExtend 64) exec_ld32s, load (BitVec.ofNat 64) exec_ld64,
      store (by decide) exec_st8, store (by decide) exec_st16, store (by decide) exec_st32, store (by decide) exec_st64⟩
  case floating =>
    obtain ⟨m', hmode, hrsr, hm'⟩ := fpMode_cell h q
    obtain rfl : m' = m := hm'.trans hm.symm
    obtain ⟨fadd, fsub, fmul, fdiv, fsqrt, fmadd, fcvtfi, fcvtif⟩ :=
      rounding_rows (a := a) (b := b) (fun v => fpDone_cell h d v.1 v.2) hmode (fpVal_cell h f) (State.x_cell h a) ty
    have row {i v w fl} (hi : exec i s = .next (fpDone s d v fl)) (hv : v = w) := fpDone_runs_cell h hi hv
    have hsrc := fpSrc_cell h f
    refine ⟨fadd, fsub, fmul, fdiv, fsqrt, fmadd, fcvtfi, fcvtif, ?fcvtff, row exec_fneg (by rw [hsrc, signBit_eq]), row exec_fabs (by rw [hsrc, signBit_eq]),
      row exec_fcmpeq (by rw [hsrc, hsrc]; rfl), row exec_fcmplt (by rw [hsrc, hsrc]; rfl),
      row exec_fcmple (by rw [hsrc, hsrc]; simp only [fpCmpLe, Bool.or_eq_true]), row exec_fmin (by rw [hsrc, hsrc]), row exec_fmax (by rw [hsrc, hsrc]),
      row exec_fclass (by rw [hsrc])⟩
    case fcvtff => rw [← other_fmt f]; exact fcvtff_cell h hmode hrsr d a

end Sys2Proof.Machine
end

section
/-! The rounding modes (R162, R163): lemmas for the statement RoundingModes, and its proof. -/

namespace Sys2Proof.Machine
open Sys2Proof

/-- An exact quotient is never rounded away from zero. -/
theorem roundsUp_exact (rm : RMode) (neg : Bool) (d q sh : Nat) : roundsUp rm neg d q 0 sh = false := by
  cases rm <;> simp [roundsUp, (Nat.two_pow_pos sh).ne]
/-- Rounding at sh bits above the exponent adds to the quotient by 2^sh what the mode asks for, at sh = 0 as well. -/
theorem roundAt_above (rm : RMode) (neg : Bool) (d m sh : Nat) (u : Int) : roundAt rm neg d m (u - sh) u =
    (m / 2 ^ sh + (roundsUp rm neg d (m / 2 ^ sh) (m % 2 ^ sh) sh).toNat, m % 2 ^ sh != 0) := by
  cases sh with
  | zero => simp [roundAt, Nat.mod_one, roundsUp_exact]
  | succ n =>
    have hu : ¬u ≤ u - ((n + 1 : Nat) : Int) := by omega
    have hsh : (u - (u - ((n + 1 : Nat) : Int))).toNat = n + 1 := by omega
    simp only [roundAt, if_neg hu, hsh]
    cases roundsUp rm neg d (m / 2 ^ (n + 1)) (m % 2 ^ (n + 1)) (n + 1) <;> rfl

/-! ## When each mode rounds up -/

section
variable (neg : Bool) (d q r sh : Nat)

theorem roundsUp_rne : roundsUp .rne neg d q r sh = true ↔ 2 ^ sh < 2 * r ∨ 2 * r = 2 ^ sh ∧ q % 2 = 1 := by simp [roundsUp]
theorem roundsUp_rna : roundsUp .rna neg d q r sh = true ↔ 2 ^ sh ≤ 2 * r ∧ r ≠ 0 := by simp [roundsUp]
theorem roundsUp_rdn : roundsUp .rdn neg d q r sh = true ↔ neg = true ∧ r ≠ 0 := by simp [roundsUp]
theorem roundsUp_rup : roundsUp .rup neg d q r sh = true ↔ neg = false ∧ r ≠ 0 := by simp [roundsUp]
theorem roundsUp_rsr : roundsUp .rsr neg d q r sh = true ↔ d < r * 65536 / 2 ^ sh := by simp [roundsUp]
end

/-- One neighbour or the other is chosen, by whether the mode rounds up. -/
theorem add_roundsUp_eq_succ (b : Bool) (q : Nat) : q + b.toNat = q + 1 ↔ b = true := by cases b <;> simp

/-- Settles O21: with q the quotient and r the remainder of m by 2^sh, each clause is when the mode rounds q up. -/
theorem roundingModes : Obligations.RoundingModes := by
  intro rm neg draw m sh u
  simp only [roundAt_above]
  have hr : m % 2 ^ sh < 2 ^ sh := Nat.mod_lt _ (by positivity)
  have hm : m / 2 ^ sh * 2 ^ sh + m % 2 ^ sh = m := Nat.div_add_mod' m _
  generalize m / 2 ^ sh = q at *
  generalize m % 2 ^ sh = r at *
  have hsucc : (q + 1) * 2 ^ sh = q * 2 ^ sh + 2 ^ sh := Nat.succ_mul ..
  refine ⟨?neighbours, bne_iff_ne, ?exact, ?rne, ?rna, ?rtz, ?rdnPos, ?rupNeg, ?rdnNeg, ?rupPos, ?rsr⟩
  case neighbours => cases roundsUp rm neg draw q r sh; exacts [.inl rfl, .inr rfl]
  case exact => rintro rfl; rw [roundsUp_exact]; exact hm
  case rne =>
    rintro rfl
    have hrule := roundsUp_rne neg draw q r sh
    cases hup : roundsUp .rne neg draw q r sh with
    | false => simp only [hup, Bool.false_eq_true, false_iff, Bool.toNat_false, Nat.add_zero] at hrule ⊢; omega
    | true => simp only [hup, true_iff, Bool.toNat_true, hsucc] at hrule ⊢; omega
  case rna =>
    rintro rfl
    have hrule := roundsUp_rna neg draw q r sh
    cases hup : roundsUp .rna neg draw q r sh with
    | false => simp only [hup, Bool.false_eq_true, false_iff, Bool.toNat_false, Nat.add_zero] at hrule ⊢; omega
    | true => simp only [hup, true_iff, Bool.toNat_true, hsucc] at hrule ⊢; omega
  case rtz => rintro rfl; rfl
  case rdnPos => rintro rfl rfl; rfl
  case rupNeg => rintro rfl rfl; rfl
  case rdnNeg => rintro rfl hn hx; exact (add_roundsUp_eq_succ _ q).2 ((roundsUp_rdn ..).2 ⟨hn, bne_iff_ne.1 hx⟩)
  case rupPos => rintro rfl hn hx; exact (add_roundsUp_eq_succ _ q).2 ((roundsUp_rup ..).2 ⟨hn, bne_iff_ne.1 hx⟩)
  case rsr => rintro rfl -; exact (add_roundsUp_eq_succ _ q).trans (roundsUp_rsr ..)

end Sys2Proof.Machine
end

section
/-! Reductions (R173, R174, R228): lemmas for the statement VectorReduce, and its proof. -/

namespace Sys2Proof.Machine
open Sys2Proof

/-! ## Elements, and the registers they lie in -/

theorem grpRegs_pos (vt : BitVec 8) : 0 < grpRegs vt := Nat.two_pow_pos _
theorem vlmaxOf_pos (vt : BitVec 8) : 0 < vlmaxOf vt := by
  have hle : ewBits vt ≤ 4096 := Nat.le_of_dvd (by decide) (Nat.dvd_of_mod_eq_zero (ewBits_dvd vt))
  exact Nat.div_pos (hle.trans (Nat.le_mul_of_pos_right _ (grpRegs_pos vt))) (Nat.mul_pos (by decide) (Nat.two_pow_pos _))
/-- An element below VLMAX lies in a register of its group. -/
theorem elem_lt_grpRegs {vt : BitVec 8} {j : Nat} (hj : j < vlmaxOf vt) : j * ewBits vt / 4096 < grpRegs vt := by
  have hle : (j + 1) * ewBits vt ≤ 4096 * grpRegs vt := (Nat.mul_le_mul_right _ hj).trans (Nat.div_mul_le_self ..)
  have hpos : 0 < ewBits vt := Nat.mul_pos (by decide) (Nat.two_pow_pos _)
  rw [Nat.add_mul, Nat.one_mul] at hle
  exact Nat.div_lt_of_lt_mul (by omega)
theorem vbElem_lt (s : State) (vb : VbSrc) (w i : Nat) : vbElem s vb w i < 2 ^ w := by
  cases vb <;> exact Nat.mod_lt _ (Nat.two_pow_pos w)

/-! ## Being through, with flags -/

/-- What is read of a group after an instruction is through that left the vector registers of u. -/
theorem VectorEnds.vget_eq {s t u : State} {k : Nat} {va : VSrc} {fl : BitVec 6} (ht : VectorEnds s k va fl id t) (hu : u.strand k = s.strand k)
    (hv : t.vregs = u.vregs) (v w i : Nat) : vget t k v w i = vget u k v w i := by
  obtain ⟨hme, -, -⟩ := ht
  obtain ⟨r, l, hpop⟩ := vaPop_strand s va k
  refine vget_congr ?_ hv v w i
  rw [hme, hu]
  split
  · rfl
  · rw [hpop]; rfl

section
variable {s : State} {k : Nat} (h : s.actor = .strand k)
include h

/-- An instruction with nothing to process leaves VSTART at 0 and pops nothing (R183). -/
theorem vdone_ends (hid : s.idle = true) (va : VSrc) : VectorEnds s k va 0 id (vdone s) ∧ (vdone s).vregs = s.vregs := by
  rw [vdone_strand h, VectorEnds, if_pos hid]
  exact ⟨⟨by simp [Strand.onward], fun j hj => State.strand_upd_of_ne _ _ hj, rfl⟩, rfl⟩
/-- One that writes elements, pops the slot of its queue operand and raises flags ends so, and leaves the vector registers as it wrote them. -/
theorem vputs_ends (hid : s.idle = false) (va : VSrc) (v w : Nat) (ups : List (Nat × Nat)) (fl : BitVec 6) :
    let t := vdone ((vaPop (vputs s k v w ups) va).updMe (·.accrue fl))
    VectorEnds s k va fl id t ∧ t.vregs = (vputs s k v w ups).vregs := by
  intro t
  have hpopped := vaPop_vregs s (vputs s k v w ups) va (vputs_frame s k v w ups)
  have hactor : (vaPop (vputs s k v w ups) va).actor = .strand k := by rw [hpopped]; exact (vaPop_actor s va).trans h
  have ht : t = _ := vdone_upd hactor (·.accrue fl)
  rw [ht, hpopped]
  obtain ⟨r, l, hpop⟩ := vaPop_strand s va k
  refine ⟨?ends, rfl⟩
  rw [VectorEnds, if_neg (Bool.eq_false_iff.1 hid)]
  refine ⟨?me, fun j hj => State.strand_upd_of_ne _ _ hj, ?rest⟩
  case me =>
    rw [State.strand_upd_self]
    show ({ (((vaPop s va).strand k).accrue fl).onward with vstart := 0 } : Strand) = _
    rw [hpop]; rfl
  case rest => exact congrArg (fun u : State => { u with vregs := s.vregs }) (vaPop_frame s va)
end

/-! ## What a reduction writes (R228) -/

/-- The elements of the destination that a reduction of result x writes: element 0, and zeros above it under TA. -/
def reduceUpdates (vt : BitVec 8) (x : Nat) : List (Nat × Nat) :=
  (0, x) :: if vtTa vt then (upFrom 1 (vlmaxOf vt - 1)).map (fun i => (i, 0)) else []

/-- Elements after zeros were written to some. -/
theorem vget_vputs_zeros (s : State) (k v : Nat) {w : Nat} (hw : 4096 % w = 0) (l : List Nat) (j : Nat) :
    vget (vputs s k v w (l.map (fun i => (i, 0)))) k v w j = if j ∈ l then 0 else vget s k v w j := by
  induction l generalizing s with
  | nil => rfl
  | cons i l ih =>
    rw [List.map_cons, vputs_cons, ih, vget_vput _ _ _ _ _ _ _ hw, Nat.zero_mod]
    by_cases hl : j ∈ l <;> simp [hl]
theorem reduceUpdates_lt {vt : BitVec 8} {x : Nat} {p : Nat × Nat} (hp : p ∈ reduceUpdates vt x) : p.1 < vlmaxOf vt := by
  have hpos := vlmaxOf_pos vt
  unfold reduceUpdates at hp
  rcases List.mem_cons.1 hp with rfl | htail
  · exact hpos
  · split at htail
    · obtain ⟨i, hi, rfl⟩ := List.mem_map.1 htail
      have := mem_upFrom.1 hi
      simp only []; omega
    · exact absurd htail List.not_mem_nil
/-- The destination group after a reduction's writes. -/
theorem vget_reduceUpdates (s : State) (k v : Nat) {vt : BitVec 8} {j : Nat} (hj : j < vlmaxOf vt) (x : Nat) :
    vget (vputs s k v (ewBits vt) (reduceUpdates vt x)) k v (ewBits vt) j =
      if j = 0 then x % 2 ^ ewBits vt else if vtTa vt then 0 else vget s k v (ewBits vt) j := by
  rw [reduceUpdates, vputs_cons]
  cases hta : vtTa vt
  · exact vget_vput _ _ _ _ _ _ _ (ewBits_dvd vt)
  · have habove : j ∈ upFrom 1 (vlmaxOf vt - 1) ↔ j ≠ 0 := mem_upFrom.trans (by omega)
    simp only [if_true, vget_vputs_zeros _ _ _ (ewBits_dvd vt), vget_vput _ _ _ _ _ _ _ (ewBits_dvd vt), habove, ite_not]
    split <;> rfl
theorem reduceUpdates_othersKept (s : State) (k v : Nat) (vt : BitVec 8) (x : Nat) :
    OthersKept s (vputs s k v (ewBits vt) (reduceUpdates vt x)) k v (grpRegs vt) := fun _ hc =>
  vputs_other _ _ _ _ _ _ fun _ hp => hc _ (elem_lt_grpRegs (reduceUpdates_lt hp))

/-- A reduction i with result r completes: r is in element 0 of the destination, unless there is nothing to process. -/
def ReduceResult (i : Instr) (s : State) (k : Nat) (va : VSrc) (vd : Nat) (r : FRes) : Prop :=
  let p := s.strand k
  let e := ewBits p.vtype
  Runs i s (fun t =>
    (∀ j, j < vlmaxOf p.vtype → vget t k vd e j = if s.idle then vget s k vd e j
      else if j = 0 then r.1 % 2 ^ e else if p.vtype.getLsbD 5 then 0 else vget s k vd e j) ∧
    OthersKept s t k vd (grpRegs p.vtype) ∧ VectorEnds s k va (if s.idle then 0 else r.2) id t)

/-! ## The elements that take part -/

/-- For each position below vl the element that takes part there. -/
def takingPart (s : State) (k : Nat) (va : VSrc) (m : Msk) (w : Nat) : List (Option Nat) :=
  (List.range (s.strand k).vl.toNat).map (fun i => if Processed (s.strand k) m i then some (vaElem s va w i) else none)

theorem takingPart_filterMap (s : State) (k : Nat) (va : VSrc) (m : Msk) (w : Nat) : (takingPart s k va m w).filterMap id = parts s k va m w := by
  rw [takingPart, List.filterMap_map, parts, ← List.filterMap_eq_filter, List.map_filterMap]
  refine List.filterMap_congr fun i _ => ?_
  simp only [Function.comp_apply, id_eq, Option.guard, decide_eq_true_eq]
  split <;> rfl
/-- A fold that passes over the positions where nothing takes part is one over the elements that take part. -/
theorem foldl_takingPart {α : Type} (f : α → Nat → α) (a : α) (s : State) (k : Nat) (va : VSrc) (m : Msk) (w : Nat) :
    (takingPart s k va m w).foldl (fun acc x => x.elim acc (f acc)) a = (parts s k va m w).foldl f a := by
  rw [← takingPart_filterMap, List.foldl_filterMap]
  congr 1; funext acc x; cases x <;> rfl
/-- The list that vreduce makes is takingPart. -/
theorem positions_eq_takingPart {s : State} {k : Nat} (h : s.actor = .strand k) (va : VSrc) (m : Msk) (w : Nat) :
    (List.range s.vl).map (fun i => if s.vstart ≤ i ∧ active (s.strand k) m i then some (vaElem s va w i) else none) = takingPart s k va m w := by
  simp only [State.vl, State.vstart, State.me_strand h]
  refine List.map_congr_left fun i hi => if_congr ?_ rfl rfl
  rw [processed_iff, and_iff_right (List.mem_range.1 hi)]

/-! ## What a reduction does -/

section
variable {s : State} {k : Nat} (h : s.actor = .strand k) {i : Instr} {word : Word} {ok : Bool} {red : Nat → Nat → List (Option Nat) → FRes}
  {vd : Reg} {va : VSrc} {vb : VbSrc} {m : Msk} (hi : exec i s = vreduce word ok red vd va vb m s)
  (hr : VectorReady s k ((vd.toNat, grpRegs (s.strand k).vtype) :: sourceGroups va vb (grpRegs (s.strand k).vtype)) va (ewBits (s.strand k).vtype) m)
include h hi hr

/-- A legal reduction writes what its operation makes of its initial value and the elements that take part. -/
theorem vreduce_result (hok : ok = true) {r : FRes} (hred : red (ewBits (s.strand k).vtype) (vbElem s vb (ewBits (s.strand k).vtype) 0)
    (takingPart s k va m (ewBits (s.strand k).vtype)) = r) : ReduceResult i s k va vd.toNat r := by
  rw [vreduce, hok, vguard_ok (by simp only [State.grp, State.ew, State.me_strand h]; exact vchecks_ok h hr (takers_processed h m) word)] at hi
  refine ⟨_, hi, ?_⟩
  simp only [positions_eq_takingPart h, State.ew, State.vlmax, State.me_strand h, State.key_strand h, hred]
  cases hid : s.idle with
  | true =>
    obtain ⟨hends, hvregs⟩ := vdone_ends h hid va
    exact ⟨fun j _ => hends.vget_eq rfl hvregs _ _ j, fun c _ => by rw [if_pos rfl, hvregs], hends⟩
  | false =>
    obtain ⟨hends, hvregs⟩ := vputs_ends h hid va vd.toNat (ewBits (s.strand k).vtype) (reduceUpdates (s.strand k).vtype r.1) r.2
    refine ⟨fun j hj => ?_, fun c hc => (congrArg (sget 0 · c) hvregs).trans (reduceUpdates_othersKept s k vd.toNat _ r.1 c hc), hends⟩
    exact (hends.vget_eq (vputs_strand ..) hvregs _ _ j).trans (vget_reduceUpdates s k vd.toNat hj r.1)
theorem vreduce_illegal (hok : ok = false) (he : encode i = some word) : Illegal i s := by
  intro w hw
  obtain rfl := Option.some.inj (he.symm.trans hw)
  rw [vreduce, hok, vguard_illegal (by simp only [State.grp, State.ew, State.me_strand h]; exact vchecks_illegal h hr _ word)] at hi
  exact ⟨_, hi, rfl⟩
end

/-! ## The operations -/

section
variable {s : State} {k : Nat} {va : VSrc} {m : Msk} {w : Nat}

theorem foldRed_takingPart (f : Nat → Nat → Nat → Nat) (e init : Nat) :
    foldRed f e init (takingPart s k va m w) = ((parts s k va m w).foldl (f e) init, 0) := congrArg (·, 0) (foldl_takingPart ..)
theorem extremeRed_takingPart (F : Fmt) (greater : Bool) (init : Nat) : extremeRed F greater init (takingPart s k va m w) =
    (parts s k va m w).foldl (fun a x => ((fpMinMax F greater a.1 x).1, a.2 ||| (fpMinMax F greater a.1 x).2))
      (init, if (unpack F init).isSig then 0x10 else 0) :=
  foldl_takingPart ..
end

theorem foldl_add_mod {n a : Nat} (ha : a < n) (l : List Nat) : l.foldl (fun a b => (a + b) % n) a = (a + l.sum) % n := by
  induction l generalizing a with
  | nil => exact (Nat.mod_eq_of_lt ha).symm
  | cons x l ih => rw [List.foldl_cons, ih (Nat.mod_lt _ (by omega)), Nat.mod_add_mod, List.sum_cons, Nat.add_assoc]

section
variable {α : Type} [LinearOrder α] (key : Nat → α) (a : Nat) (l : List Nat)

theorem argmax_cons_eq_foldl : (a :: l).argmax key = some (l.foldl (fun a b => if key a < key b then b else a) a) := by
  show l.foldl (List.argAux fun b c => key c < key b) (some a) = _
  induction l generalizing a with
  | nil => rfl
  | cons b l ih => rw [List.foldl_cons, List.foldl_cons, ← ih]; congr 1; exact (apply_ite some ..).symm
/-- A fold that keeps the greater of two values ends at one that no value exceeds. -/
theorem foldl_greatest : let r := l.foldl (fun a b => if key a < key b then b else a) a
    (r = a ∨ r ∈ l) ∧ ∀ x, x = a ∨ x ∈ l → ¬key r < key x :=
  have hr := argmax_cons_eq_foldl key a l
  ⟨List.mem_cons.1 (List.argmax_mem hr), fun _ hx => List.not_lt_of_mem_argmax (List.mem_cons.2 hx) hr⟩
theorem foldl_least : let r := l.foldl (fun a b => if key b < key a then b else a) a
    (r = a ∨ r ∈ l) ∧ ∀ x, x = a ∨ x ∈ l → ¬key x < key r :=
  foldl_greatest (OrderDual.toDual ∘ key) a l
end
theorem min_eq_ite_lt (a b : Nat) : min a b = if b < a then b else a := (min_comm a b).trans (min_def_lt b a)

theorem testBit_foldl_and (a : Nat) (l : List Nat) (b : Nat) :
    (l.foldl (· &&& ·) a).testBit b = true ↔ a.testBit b = true ∧ ∀ x ∈ l, x.testBit b = true := by
  induction l generalizing a with
  | nil => simp
  | cons x l ih => rw [List.foldl_cons, ih]; simp [Nat.testBit_and, and_assoc]
theorem testBit_foldl_or (a : Nat) (l : List Nat) (b : Nat) :
    (l.foldl (· ||| ·) a).testBit b = true ↔ a.testBit b = true ∨ ∃ x ∈ l, x.testBit b = true := by
  induction l generalizing a with
  | nil => simp
  | cons x l ih => rw [List.foldl_cons, ih]; simp [Nat.testBit_or, or_assoc]

/-! ## The statement -/

/-- Settles O27: each row is a reduction, and its fold over the elements that take part is as the lemmas above say. -/
theorem vectorReduce : Obligations.VectorReduce := by
  intro s k vd va vb m h p e g n F init xs positions signed Row Extreme hr
  have hinit : vbElem s vb e 0 = init := by
    cases vb with
    | vreg v => rw [vbElem, State.key_strand h]
    | xreg x => rw [vbElem, State.x_strand h]
  have row {i word ok red r} (hi : exec i s = vreduce word ok red vd va vb m s) (hok : ok = true)
      (hred : red e init (takingPart s k va m e) = r) : ReduceResult i s k va vd.toNat r := vreduce_result h hi hr hok (by rw [← hred, ← hinit])
  have fold {i word f} (hi : exec i s = vreduce word true (foldRed f) vd va vb m s) : ReduceResult i s k va vd.toNat (xs.foldl (f e) init, 0) :=
    row hi rfl (foldRed_takingPart ..)
  have illegal {i word ok red} (hi : exec i s = vreduce word ok red vd va vb m s) (he : encode i = some word) (hok : ok = false) : Illegal i s :=
    vreduce_illegal h hi hr hok he
  have hew : s.ew = e := by rw [State.ew, State.me_strand h]
  have hfmt : elemFmt s.me.vtype = F := by rw [State.me_strand h]
  refine ⟨?sum, ⟨_, fold exec_vredmax, foldl_greatest (sx e) init xs⟩, ⟨_, fold exec_vredmin, foldl_least (sx e) init xs⟩,
    ⟨_, fold exec_vredmaxn, ?maxn⟩, ⟨_, fold exec_vredminn, ?minn⟩, ⟨_, fold exec_vredand, testBit_foldl_and init xs⟩,
    ⟨_, fold exec_vredor, testBit_foldl_or init xs⟩, fold exec_vredxor, ?sums, ?extrema, ?illegalSums, ?illegalExtrema⟩
  case sum => rw [← foldl_add_mod (hinit ▸ vbElem_lt s vb e 0)]; exact fold exec_vredsum
  case maxn => simp only [max_def_lt]; exact foldl_greatest id init xs
  case minn => simp only [min_eq_ite_lt]; exact foldl_least id init xs
  case sums =>
    intro he rm hrm
    have hok : (s.ew != 8 && s.frmOk) = true := by rw [hew, State.frmOk_of_frm h hrm, Bool.and_true]; exact bne_iff_ne.2 he
    exact ⟨row exec_vfredo hok (by rw [takingPart_filterMap, State.rm_of_frm h hrm, hfmt]),
      row exec_vfredt hok (by rw [State.rm_of_frm h hrm, hfmt]; rfl)⟩
  case extrema =>
    intro he
    have hok : (s.ew != 8) = true := by rw [hew]; exact bne_iff_ne.2 he
    exact ⟨row exec_vfredmax hok (by rw [hfmt]; exact extremeRed_takingPart ..), row exec_vfredmin hok (by rw [hfmt]; exact extremeRed_takingPart ..)⟩
  case illegalSums =>
    intro hbad
    have hok : (s.ew != 8 && s.frmOk) = false := by
      rcases hbad with he | hrm
      · rw [hew, he]; rfl
      · rw [State.frmOk_of_none h hrm, Bool.and_false]
    exact ⟨illegal exec_vfredo rfl hok, illegal exec_vfredt rfl hok⟩
  case illegalExtrema =>
    intro he
    have hok : (s.ew != 8) = false := by rw [hew, he]; rfl
    exact ⟨illegal exec_vfredmax rfl hok, illegal exec_vfredmin rfl hok⟩

end Sys2Proof.Machine
end

section
/-! Compares and mask logic (R184, R225, R226): lemmas for the statement VectorMasks, and its proof. -/

namespace Sys2Proof.Machine
open Sys2Proof

/-! ## Masks of a strand (R184) -/

theorem Strand.getLsbD_mask (p : Strand) (c : BitVec 3) {i : Nat} (hi : i < 4096) :
    (p.mask c).getLsbD i = (decide (c = 0) || (p.m[c.toNat]'c.isLt).getLsbD i) := by
  unfold Strand.mask
  by_cases hc : c = 0
  · rw [if_pos hc, BitVec.getLsbD_allOnes, decide_eq_true hi, decide_eq_true hc, Bool.true_or]
  · rw [if_neg hc, decide_eq_false hc, Bool.false_or]
theorem Strand.mask_of_ne (p : Strand) {c : BitVec 3} (hc : c ≠ 0) : p.mask c = p.m[c.toNat]'c.isLt := if_neg hc
/-- A write of a mask changes the masks alone. -/
theorem Strand.setMask_eq (p : Strand) (c : BitVec 3) (v : MaskReg) : p.setMask c v = { p with m := (p.setMask c v).m } := by
  unfold Strand.setMask
  split <;> rfl
/-- A write of a mask replaces it, but for m0. -/
theorem Strand.m_setMask (p : Strand) (c : BitVec 3) (v : MaskReg) (d : Fin 8) :
    (p.setMask c v).m[d] = if d.val = c.toNat ∧ c ≠ 0 then v else p.m[d] := by
  unfold Strand.setMask
  by_cases hc : c = 0
  · simp [hc]
  · rw [if_neg hc]
    simp only [Fin.getElem_fin, Vector.getElem_set, eq_comm (a := c.toNat), hc, ne_eq, not_false_eq_true, and_true]

/-- A bit after a list of bits was written, each at most once. -/
theorem getLsbD_foldl_putBits {n : Nat} (x : BitVec n) {j : Nat} (hj : j < n) (l : List (Nat × Nat)) (hl : (l.map (·.1)).Nodup) :
    (l.foldl (fun x p => putBits x p.1 1 p.2) x).getLsbD j = ((l.find? (fun p => p.1 == j)).map (fun p => p.2.testBit 0)).getD (x.getLsbD j) := by
  induction l generalizing x with
  | nil => rfl
  | cons p l ih =>
    rw [List.map_cons, List.nodup_cons] at hl
    obtain ⟨hp, hl⟩ := hl
    rw [List.foldl_cons, ih _ hl, List.find?_cons, getLsbD_putBits, decide_eq_true hj, Bool.true_and]
    by_cases hpj : p.1 = j
    · subst hpj
      have hnone : l.find? (fun q => q.1 == p.1) = none :=
        List.find?_eq_none.2 fun q hq he => hp (List.mem_map.2 ⟨q, hq, beq_iff_eq.1 he⟩)
      simp [hnone]
    · rw [if_neg (by omega), beq_eq_false_iff_ne.2 hpj]
/-- The policies on an element of one bit (R186). -/
theorem policy_bit (p : Strand) (m : Msk) (f : Nat → Bool) (i : Nat) (old : Bool) (hlt : p.vstart.toNat < p.vl.toNat) :
    ((policy p m (fun i => some (if f i then 1 else 0)) i).map (·.testBit 0)).getD old = (afterPolicy p m i (f i).toNat old.toNat == 1) := by
  have hbit : (if f i then 1 else 0) % 2 ^ 1 = (f i).toNat := by cases f i <;> rfl
  have hafter := policy_after p m i 1 (if f i then 1 else 0) old.toNat hlt
  rw [hbit] at hafter
  rw [← hafter, show policy p m (fun i => some (if f i then 1 else 0)) i = policy p m (fun _ => some (if f i then 1 else 0)) i from rfl]
  cases policy p m (fun _ => some (if f i then 1 else 0)) i with
  | none => cases old <;> rfl
  | some x => exact Nat.testBit_zero x
/-- The bits of a mask after an instruction's updates. -/
theorem getLsbD_updates (p : Strand) (m : Msk) (f : Nat → Bool) (x : MaskReg) {n : Nat} (hn : n ≤ 4096) (j : Nat) (hlt : p.vstart.toNat < p.vl.toNat) :
    ((updates p m n (fun i => some (if f i then 1 else 0))).foldl (fun x q => putBits x q.1 1 q.2) x).getLsbD j =
      if j < n then afterPolicy p m j (f j).toNat (x.getLsbD j).toNat == 1 else x.getLsbD j := by
  by_cases hj : j < 4096
  · rw [getLsbD_foldl_putBits _ hj _ (updates_nodup ..), updates_find]
    split
    · rw [← policy_bit _ _ _ _ _ hlt, Option.map_map]; rfl
    · rfl
  · rw [if_neg (by omega), BitVec.getLsbD_of_ge _ _ (by omega), BitVec.getLsbD_of_ge _ _ (by omega)]

/-! ## Writing a mask under the policies (R184, R186) -/

theorem State.not_idle_iff {s : State} {k : Nat} (h : s.actor = .strand k) : s.idle = false ↔ (s.strand k).vstart.toNat < (s.strand k).vl.toNat := by
  rw [← Bool.not_eq_true, idle_iff, Nat.not_le, State.vstart, State.vl, State.me_strand h]
/-- Changes of strands that commute may be made in either order. -/
theorem State.strand_upd_comm (s : State) (k o : Nat) {f g : Strand → Strand} (hfg : ∀ t, g (f t) = f (g t)) (j : Nat) :
    ((s.upd k f).upd o g).strand j = ((s.upd o g).upd k f).strand j := by
  simp only [State.strand_upd]
  by_cases hk : j = k <;> by_cases ho : j = o
  · subst hk ho; simp only [if_true, hfg]
  · subst hk; simp only [if_true, if_neg ho]
  · subst ho; simp only [if_true, if_neg hk]
  · simp only [if_neg hk, if_neg ho]
/-- What a change of a strand keeps is kept of every strand. -/
theorem State.strand_upd_keeps {β : Type} (s : State) (k j : Nat) {f : Strand → Strand} {g : Strand → β} (hfg : ∀ t, g (f t) = g t) :
    g ((s.upd k f).strand j) = g (s.strand j) := by
  rw [State.strand_upd]
  split
  next hj => rw [hj, hfg]
  next => rfl
/-- A change of a strand that rings and relay queues take no part in may come before a slot is popped or after it. -/
theorem vaPop_upd (s : State) (va : VSrc) (k j : Nat) {f : Strand → Strand} (hplace : ∀ t, (f t).place = t.place)
    (hrings : ∀ t r, f { t with rings := r } = { f t with rings := r }) (hrelays : ∀ t l, f { t with relays := l } = { f t with relays := l }) :
    (vaPop (s.upd k f) va).strand j = ((vaPop s va).upd k f).strand j := by
  have hshard : (s.upd k f).shardKey s.key = s.shardKey s.key := by unfold State.shardKey; rw [State.groupOf_upd s k _ f hplace]
  have hkey : (s.upd k f).key = s.key := rfl
  have ring : ∀ t, (f t).rings = t.rings := fun t => (congrArg Strand.rings (hrings t t.rings) :)
  have relay : ∀ t, (f t).relays = t.relays := fun t => (congrArg Strand.relays (hrelays t t.relays) :)
  cases va with
  | vreg v => rfl
  | queue q =>
    cases q with
    | ring n =>
      simp only [vaPop, queuePop, State.setRing, State.ring, hkey, hshard, State.strand_upd_keeps s k _ ring]
      exact State.strand_upd_comm s k _ (fun t => by rw [ring]; exact (hrings t _).symm) j
    | relay n =>
      simp only [vaPop, queuePop, State.setRelay, State.relay, hkey, hshard, State.strand_upd_keeps s k _ relay]
      exact State.strand_upd_comm s k _ (fun t => by rw [relay]; exact (hrelays t _).symm) j

/-- What an instruction leaves that writes a mask, pops the slot of its queue operand and raises flags. -/
def maskEffect (s : State) (va : VSrc) (md : BitVec 3) (m : Msk) (f : Nat → Bool × BitVec 6) : State :=
  if s.idle then vdone s
  else vdone ((vaPop (maskUpdates s m md (fun i => (f i).1)) va).updMe (·.accrue (flagsOver s m (fun i => (f i).2))))

section
variable {s : State} {k : Nat} (h : s.actor = .strand k)
include h

theorem maskUpdates_strand (m : Msk) (md : BitVec 3) (f : Nat → Bool) (hid : s.idle = false) :
    ∃ M : Vector MaskReg 8, maskUpdates s m md f = s.upd k (fun p => { p with m := M }) ∧
      ∀ c : Fin 8, ∀ j, (M[c]).getLsbD j = if c.val = md.toNat ∧ md ≠ 0 ∧ j < vlmaxOf (s.strand k).vtype
        then afterPolicy (s.strand k) m j (f j).toNat ((s.strand k).m[c].getLsbD j).toNat == 1 else (s.strand k).m[c].getLsbD j := by
  refine ⟨((maskUpdates s m md f).strand k).m, ?_, fun c j => ?_⟩
  all_goals unfold maskUpdates; simp only [State.updMe, State.key_strand h, State.me_strand h, State.vlmax, State.strand_upd_self]
  · exact congrArg (s.setStrand k) (Strand.setMask_eq ..)
  · rw [Strand.m_setMask]
    by_cases hmd : c.val = md.toNat ∧ md ≠ 0
    · obtain ⟨hc, hne⟩ := hmd
      have hold : (s.strand k).mask md = (s.strand k).m[c] := by
        rw [Strand.mask_of_ne _ hne]; simp only [Fin.getElem_fin, hc]
      rw [if_pos ⟨hc, hne⟩, hold, getLsbD_updates _ _ _ _ (vlmaxOf_le _) _ ((State.not_idle_iff h).1 hid)]
      simp only [hc, hne, ne_eq, not_false_eq_true, true_and]
    · rw [if_neg hmd, if_neg fun hh => hmd ⟨hh.1, hh.2.1⟩]

/-- An instruction that writes a mask completes as MaskResult says. -/
theorem maskEffect_result {i : Instr} {va : VSrc} {md : BitVec 3} {m : Msk} {f : Nat → Bool × BitVec 6} (hi : exec i s = .next (maskEffect s va md m f)) :
    MaskResult i s k va md (vlmaxOf (s.strand k).vtype) m f := by
  refine ⟨_, hi, ?_⟩
  unfold maskEffect
  cases hid : s.idle with
  | true =>
    have hge : (s.strand k).vl.toNat ≤ (s.strand k).vstart.toNat := by
      simpa only [State.vl, State.vstart, State.me_strand h] using idle_iff.1 hid
    simp only [if_true, vdone_strand h, State.strand_upd_self]
    refine ⟨fun c j => ?_, trivial, fun b => ?_, fun j hj => State.strand_upd_of_ne _ _ hj, rfl⟩
    · simp only [afterPolicy, hge, true_or, if_true, Strand.onward]
      split
      · cases ((s.strand k).m[c]).getLsbD j <;> rfl
      · rfl
    · exact ⟨.inl, fun hb => hb.resolve_right fun ⟨j, hj, _⟩ => not_processed_of_idle hge m j hj⟩
  | false =>
    obtain ⟨M, hupd, hM⟩ := maskUpdates_strand h m md (fun i => (f i).1) hid
    obtain ⟨r, l, hpop⟩ := vaPop_strand s va k
    have hstrand := fun j => vaPop_upd s va k j (f := fun p => { p with m := M }) (fun _ => rfl) (fun _ _ => rfl) (fun _ _ => rfl)
    have hactor : (vaPop (s.upd k (fun p => { p with m := M })) va).actor = .strand k := (vaPop_actor ..).trans h
    have hframe := vaPop_frame (s.upd k (fun p => { p with m := M })) va
    simp only [if_false, Bool.false_eq_true, hupd, vdone_upd hactor, State.strand_upd_self, hstrand]
    refine ⟨hM, rfl, fun b => ?_, fun j hj => ?_, (congrArg (fun t : State => { t with strands := s.strands }) hframe :)⟩
    · rw [← flagsOver_iff h m (fun i => (f i).2) b, hpop, ← Bool.or_eq_true, ← BitVec.getLsbD_or]; rfl
    · rw [State.strand_upd_of_ne _ _ hj, hstrand, State.strand_upd_of_ne _ _ hj]
end

/-! ## Compares and mask logic (R225, R226) -/

theorem Strand.accrue_zero (p : Strand) : p.accrue 0 = p :=
  congrArg (fun fl => { p with fflags := fl }) BitVec.or_zero
/-- Results that agree below n, with flags that agree, are one result. -/
theorem MaskResult.congr {i : Instr} {s : State} {k : Nat} {va : VSrc} {md : BitVec 3} {n : Nat} {m : Msk} {f g : Nat → Bool × BitVec 6}
    (h : MaskResult i s k va md n m f) (hbits : ∀ j, j < n → (f j).1 = (g j).1) (hflags : ∀ j, (f j).2 = (g j).2) : MaskResult i s k va md n m g := by
  obtain ⟨t, hi, hmask, hme, hfl, hothers, hrest⟩ := h
  refine ⟨t, hi, fun c j => ?_, hme, fun b => ?_, hothers, hrest⟩
  · rw [hmask]
    by_cases hj : j < n
    · rw [hbits j hj]
    · rw [if_neg fun hh => hj hh.2.2, if_neg fun hh => hj hh.2.2]
  · simp only [hfl, hflags]

section
variable {s : State} {k : Nat} (h : s.actor = .strand k)
include h

section
variable {i : Instr} {word : Word} {fp : Bool} {f : Nat → Fmt → Nat → Nat → Bool × BitVec 6} {md : BitVec 3} {va : VSrc} {vb : VbSrc} {m : Msk}
  (hi : exec i s = vcmp word fp f md va vb m s)
  (hr : VectorReady s k (sourceGroups va vb (grpRegs (s.strand k).vtype)) va (ewBits (s.strand k).vtype) m)
include hi hr

theorem vcmp_result (hfp : (!fp || ewBits (s.strand k).vtype != 8) = true) {g : Nat → Bool × BitVec 6}
    (hg : ∀ j, f (ewBits (s.strand k).vtype) (elemFmt (s.strand k).vtype) (vaElem s va (ewBits (s.strand k).vtype) j)
      (vbElem s vb (ewBits (s.strand k).vtype) j) = g j) : MaskResult i s k va md (vlmaxOf (s.strand k).vtype) m g := by
  refine maskEffect_result h ?_
  have hchecks := vchecks_ok h hr (takers_processed h m) word
  unfold vcmp at hi
  simp only [State.ew, State.grp, State.me_strand h, hfp, hg] at hi
  exact hi.trans (vguard_ok hchecks _ s)
theorem vcmp_illegal (hfp : (!fp || ewBits (s.strand k).vtype != 8) = false) (hword : encode i = some word) : Illegal i s := by
  intro w hw
  obtain rfl := Option.some.inj (hword.symm.trans hw)
  have hchecks := vchecks_illegal h hr (s.takers m) word
  unfold vcmp at hi
  simp only [State.ew, State.grp, State.me_strand h, hfp] at hi
  exact runs_eq (hi.trans (vguard_illegal hchecks _ s))
end

theorem mlogic_result {i : Instr} {f : Bool → Bool → Bool} {md ma mb : BitVec 3} (hi : exec i s = mlogic f md ma mb s) {g : Nat → Bool}
    (hg : ∀ j, j < 4096 → f (((s.strand k).mask ma).getLsbD j) (((s.strand k).mask mb).getLsbD j) = g j) :
    MaskResult i s k (.vreg 0) md (vlmaxOf (s.strand k).vtype) Msk.all (fun j => (g j, 0)) := by
  have heffect : mlogic f md ma mb s = .next (maskEffect s (.vreg 0) md Msk.all
      (fun j => (f (((s.strand k).mask ma).getLsbD j) (((s.strand k).mask mb).getLsbD j), 0))) := by
    have hflags : flagsOver s Msk.all (fun _ => 0) = 0 := List.foldl_fixed' (fun _ => BitVec.or_zero) _
    have hactor : (maskUpdates s Msk.all md (fun j => f (((s.strand k).mask ma).getLsbD j) (((s.strand k).mask mb).getLsbD j))).actor = .strand k := h
    simp only [mlogic, maskEffect, hflags, vaPop, State.me_strand h, vdone_upd hactor, vdone_strand hactor, Strand.accrue_zero]
  exact (maskEffect_result h (hi.trans heffect)).congr (fun j hj => hg j (hj.trans_le (vlmaxOf_le _))) (fun _ => rfl)

/-! ## Moves between masks and registers (R226) -/

/-- A move into a mask completes: the mask holds v, whatever vl and VSTART hold; a write to m0 is discarded. -/
theorem setMask_runs {i : Instr} {md : BitVec 3} {v : Strand → MaskReg} (hi : exec i s = .next (vdone (s.updMe (fun p => p.setMask md (v p)))))
    {f : Nat → Bool} (hf : ∀ j, j < 4096 → (v (s.strand k)).getLsbD j = f j) : Runs i s (fun t =>
      (∀ c : Fin 8, ∀ j, j < 4096 → ((t.strand k).m[c]).getLsbD j = if c.val = md.toNat ∧ md ≠ 0 then f j else (s.strand k).m[c].getLsbD j) ∧
      t.strand k = { (s.strand k).onward with vstart := 0, m := (t.strand k).m } ∧ (∀ j, j ≠ k → t.strand j = s.strand j) ∧
      { t with strands := s.strands } = s) := by
  rw [vdone_upd h] at hi
  refine ⟨_, hi, ?_⟩
  simp only [State.strand_upd_self]
  refine ⟨fun c j hj => ?_, ?_, fun j hj => State.strand_upd_of_ne _ _ hj, rfl⟩
  · simp only [Strand.onward, Strand.m_setMask, apply_ite (BitVec.getLsbD · j), hf j hj]
  · rw [Strand.setMask_eq]; rfl
/-- A vector instruction that gives a value to an x register is through. -/
theorem vdone_gives (d : Reg) (v : Dword) : StrandBecomes s k { (s.strand k).gives d v with vstart := 0 } (vdone (s.setX d v)) := by
  rw [State.setX_strand h, vdone_strand (q := s.upd k _) h, State.upd_upd]
  exact becomes_upd ..
/-- A move from a mask gives its 64 bits at j. -/
theorem vmtox_runs {x y : Reg} {ma : BitVec 3} {j : Nat} (hj : j = (readX (s.strand k).x y).toNat % 64) :
    ∃ v : Dword, (∀ i, i < 64 → v.getLsbD i = ((s.strand k).mask ma).getLsbD (64 * j + i)) ∧
      Runs (.vmtox x ma y) s (StrandBecomes s k { (s.strand k).gives x v with vstart := 0 }) := by
  refine ⟨BitVec.ofNat 64 (getBits ((s.strand k).mask ma) (64 * j) 64), fun i hi => ?_, ?_⟩
  · rw [BitVec.getLsbD_ofNat, testBit_getBits, decide_eq_true hi, Bool.true_and, Bool.true_and]
  · refine ⟨_, exec_vmtox.trans rfl, ?_⟩
    rw [State.me_strand h, State.x_strand h, ← hj]
    exact vdone_gives h ..
end

/-! ## The statement -/

/-- Settles O28: a compare and a mask logic row write a mask by one rule, and the moves are as the lemmas above say. -/
theorem vectorMasks : Obligations.VectorMasks := by
  intro s k md ma mb ra va vb x y m h p e g n F a b signed bit Row Logic
  have hb : ∀ i, vbElem s vb e i = b i := fun i => by
    cases vb with
    | vreg v => simp only [vbElem, State.key_strand h]; rfl
    | xreg x => simp only [vbElem, State.x_strand h]; rfl
  have hbit : ∀ c i, i < 4096 → (p.mask c).getLsbD i = bit c i := fun c i hi => p.getLsbD_mask c hi
  have hwide : e ≠ 8 → (!true || e != 8) = true := fun he => bne_iff_ne.2 he
  have hbyte : e = 8 → (!true || e != 8) = false := fun he => bne_eq_false_iff_eq.2 he
  have not_eq : ∀ x y : Nat, (x != y) = decide (x ≠ y) := fun x y => by rw [decide_not]; rfl
  refine ⟨fun hr => ?compares, fun hr => ⟨fun he => ?nan, fun he => ?nanByte⟩, ?and, ?or, ?xor, ?andn, ?not, ?move, ?fromCm, ?fromX, ?toX⟩
  case compares =>
    have row {i word f c} (hi : exec i s = vcmp word false f md va vb m s) (hc : ∀ j, f e F (a j) (b j) = (c j, 0)) : Row i c :=
      vcmp_result h hi hr rfl fun j => by rw [hb]; exact hc j
    have float {i word f c} (hi : exec i s = vcmp word true f md va vb m s) (he : e ≠ 8) (hc : ∀ j, f e F (a j) (b j) = c j) :
      MaskResult i s k va md n m c := vcmp_result h hi hr (hwide he) fun j => by rw [hb]; exact hc j
    refine ⟨row exec_vmseq fun _ => rfl, row exec_vmsne fun _ => congrArg (·, _) (not_eq ..), row exec_vmslt fun _ => rfl, row exec_vmsltn fun _ => rfl,
      row exec_vmsle fun _ => rfl, row exec_vmslen fun _ => rfl, fun he => ⟨float exec_vmfeq he fun _ => rfl, float exec_vmflt he fun _ => rfl,
      float exec_vmfle he fun _ => rfl⟩, fun he => ⟨vcmp_illegal h exec_vmfeq hr (hbyte he) rfl, vcmp_illegal h exec_vmflt hr (hbyte he) rfl,
      vcmp_illegal h exec_vmfle hr (hbyte he) rfl⟩⟩
  case nan => exact vcmp_result (vb := .xreg 0) h exec_vmfnan hr (hwide he) fun j => by rw [vaElem, State.key_strand h]; rfl
  case nanByte => exact vcmp_illegal (vb := .xreg 0) h exec_vmfnan hr (hbyte he) rfl
  case and => exact mlogic_result h exec_vmand fun j hj => by rw [hbit _ _ hj, hbit _ _ hj]
  case or => exact mlogic_result h exec_vmor fun j hj => by rw [hbit _ _ hj, hbit _ _ hj]
  case xor => exact mlogic_result h exec_vmxor fun j hj => by rw [hbit _ _ hj, hbit _ _ hj]
  case andn => exact mlogic_result h exec_vmandn fun j hj => by rw [hbit _ _ hj, hbit _ _ hj]
  case not => exact mlogic_result h exec_vmnot fun j hj => by rw [hbit _ _ hj]
  case move => exact mlogic_result h exec_vmmv fun j hj => by rw [hbit _ _ hj]
  case fromCm => exact setMask_runs h (v := Strand.cm) exec_vmmvc fun _ _ => rfl
  case fromX =>
    refine setMask_runs h exec_vmfromx fun j hj => ?_
    rw [getLsbD_putBits, decide_eq_true hj, Bool.true_and, State.x_strand h, State.x_strand h, BitVec.testBit_toNat, hbit _ _ hj]
  case toX =>
    obtain ⟨v, hv, hruns⟩ := vmtox_runs h (x := x) (y := y) (ma := ma) rfl
    exact ⟨v, fun i hi => (hv i hi).trans (hbit _ _ (by omega)), hruns⟩

end Sys2Proof.Machine
end

section
/-! Vector control (R198 to R204, R387, R388): lemmas for the statement VectorConfig, and its proof. -/

namespace Sys2Proof.Machine
open Sys2Proof

/-! ## A strand replaced -/

@[simp] theorem State.strand_setStrand_self (s : State) (k : Nat) (p : Strand) : (s.setStrand k p).strand k = p := by
  simp [State.setStrand, State.strand]
/-- A change of the strand that was replaced replaces it by what the change makes. -/
theorem State.setStrand_upd (s : State) (k : Nat) (p : Strand) (f : Strand → Strand) : (s.setStrand k p).upd k f = s.setStrand k (f p) := by
  simp [State.upd, State.setStrand, State.strand, sput_sput]
theorem becomes_setStrand (s : State) (k : Nat) (p : Strand) : StrandBecomes s k p (s.setStrand k p) := becomes_upd s k (fun _ => p)

/-- The words of a loop's body, in bytes. -/
theorem four_mul_words (n : Nat) : 4 * BitVec.ofNat 64 n = BitVec.ofNat 64 (4 * n) := (BitVec.ofNat_mul 4 n).symm

section
variable {s : State} {k : Nat} (h : s.actor = .strand k)
include h

theorem State.setStrand_updMe (p : Strand) (f : Strand → Strand) : (s.setStrand k p).updMe f = s.setStrand k (f p) := by
  rw [State.updMe, State.key_strand (s := s.setStrand k p) h, State.setStrand_upd]
theorem State.setStrand_x (p : Strand) (r : Reg) : (s.setStrand k p).x r = readX p.x r := by
  rw [State.x_strand (s := s.setStrand k p) h, State.strand_setStrand_self]
theorem State.setStrand_setX (p : Strand) (r : Reg) (v : Dword) : (s.setStrand k p).setX r v = s.setStrand k { p with x := writeX p.x r v } := by
  rw [State.setX_strand (s := s.setStrand k p) h, State.setStrand_upd]
theorem State.setStrand_advance (p : Strand) : (s.setStrand k p).advance = s.setStrand k p.onward := by
  rw [State.advance_strand (s := s.setStrand k p) h, State.setStrand_upd]; rfl
theorem State.setStrand_me (p : Strand) : (s.setStrand k p).me = p := by
  rw [State.me_strand (s := s.setStrand k p) h, State.strand_setStrand_self]

/-! ## VTYPE and VL (R198 to R200) -/

/-- A strand with VTYPE written, VL as the lesser of n and VLMAX, and VSTART at 0. -/
def Strand.shaped (p : Strand) (vt : BitVec 8) (n : Nat) : Strand := { p with vtype := vt, vl := vlStored vt n, vstart := 0 }

theorem setShape_strand (vt : BitVec 8) (a : Dword) : setShape s vt a = s.setStrand k ((s.strand k).shaped vt a.toNat) := by
  unfold setShape State.updMe; rw [State.key_strand h]; rfl
/-- What vsetl and vsetlx leave. -/
theorem setShape_gives (d : Reg) (vt : BitVec 8) (a : Dword) :
    StrandBecomes s k (((s.strand k).gives d (BitVec.ofNat 64 (min a.toNat (vlmaxOf vt)))).shaped vt a.toNat)
      ((setShape s vt a).setX d ((setShape s vt a).me.vl.zeroExtend 64)).advance := by
  have hvl : ((s.strand k).shaped vt a.toNat).vl.zeroExtend 64 = BitVec.ofNat 64 (min a.toNat (vlmaxOf vt)) := by
    refine BitVec.eq_of_toNat_eq ?_
    rw [BitVec.zeroExtend_eq_setWidth, BitVec.toNat_setWidth, Strand.shaped, vlStored_toNat, BitVec.toNat_ofNat]
  rw [setShape_strand h, State.setStrand_me h, State.setStrand_setX h, State.setStrand_advance h, hvl]
  exact becomes_setStrand ..
theorem vsetl_runs (d a : Reg) (vt : BitVec 8) : Runs (.vsetl d a vt) s (StrandBecomes s k
    (((s.strand k).gives d (BitVec.ofNat 64 (min (readX (s.strand k).x a).toNat (vlmaxOf vt)))).shaped vt (readX (s.strand k).x a).toNat)) := by
  rw [← State.x_strand h]; exact ⟨_, exec_vsetl, setShape_gives h d vt (s.x a)⟩
theorem vsetlx_runs {d a b : Reg} {vt : BitVec 8} (hvt : vt = (readX (s.strand k).x b).extractLsb' 0 8)
    (hlegal : ¬(vt.getLsbD 7 = true ∨ (vt.getLsbD 2 = true ∧ vt.getLsbD 1 = true))) : Runs (.vsetlx d a b) s (StrandBecomes s k
      (((s.strand k).gives d (BitVec.ofNat 64 (min (readX (s.strand k).x a).toNat (vlmaxOf vt)))).shaped vt (readX (s.strand k).x a).toNat)) := by
  rw [← State.x_strand h] at hvt
  rw [← State.x_strand h]
  subst hvt
  refine ⟨_, ?_, setShape_gives h d _ (s.x a)⟩
  rw [exec_vsetlx, execVsetlx]
  rw [if_neg (by simpa only [low, Bool.or_eq_true, Bool.and_eq_true] using hlegal)]; rfl
theorem vsetlx_illegal {d a b : Reg} {vt : BitVec 8} (hvt : vt = (readX (s.strand k).x b).extractLsb' 0 8)
    (hbad : vt.getLsbD 7 = true ∨ (vt.getLsbD 2 = true ∧ vt.getLsbD 1 = true)) : Illegal (.vsetlx d a b) s := by
  intro w hw
  obtain rfl : wVsetlx d a b = w := Option.some.inj hw
  rw [← State.x_strand h] at hvt
  subst hvt
  refine runs_eq ?_
  rw [exec_vsetlx, execVsetlx]
  rw [if_pos (by simpa only [low, Bool.or_eq_true, Bool.and_eq_true] using hbad)]; rfl
theorem vloop_runs (a : Reg) (vt : BitVec 8) : Runs (.vloop a vt) s (StrandBecomes s k
    { (s.strand k).onward.shaped vt (readX (s.strand k).x a).toNat with replay := none }) := by
  refine ⟨_, exec_vloop, ?_⟩
  rw [setShape_strand h, State.setStrand_updMe h, State.setStrand_advance h, State.x_strand h]
  exact becomes_setStrand ..
theorem vslip_runs (a : Reg) : Runs (.vslip a) s (StrandBecomes s k
    { (s.strand k).onward with vslip := (readX (s.strand k).x a).extractLsb' 0 3, vstart := 0 }) := by
  refine ⟨_, exec_vslip, ?_⟩
  rw [vdone_upd h, State.x_strand h]
  exact becomes_upd ..

/-! ## vbreak (R202) -/

theorem vbreak_stays {a : Reg} (ha : readX (s.strand k).x a = 0) (off : Reg) : Runs (.vbreak a off) s (StrandBecomes s k (s.strand k).onward) := by
  refine ⟨_, exec_vbreak, ?_⟩
  rw [if_neg (by rw [State.x_strand h]; exact not_not.2 ha)]
  exact onward_strand h
theorem vbreak_leaves {a off : Reg} (ha : readX (s.strand k).x a ≠ 0)
    (ht : ¬((s.strand k).level = .user ∧ (s.strand k).pc + BitVec.ofNat 64 (4 * (off.toNat + 1)) = 0)) : Runs (.vbreak a off) s (StrandBecomes s k
      { s.strand k with replay := none, pc := (s.strand k).pc + BitVec.ofNat 64 (4 * (off.toNat + 1)), wait := {} }) := by
  refine ⟨_, exec_vbreak, ?_⟩
  have hactor : (s.upd k (fun t => { t with replay := none })).actor = .strand k := h
  rw [if_pos (by rwa [State.x_strand h]), State.updMe, State.key_strand h, State.pc_strand h, four_mul_words,
    jumpTo_strand hactor _ _ (by rwa [State.strand_upd_self])]
  exact becomes_upd2 ..
end

/-! ## The registers of a loop context (R201) -/

/-- The registers x with those after a, np of them, moved on by c. -/
def pointersAdvanced (x : Vector Dword 32) (a : Nat) (c : Dword) (np : Nat) : Vector Dword 32 :=
  (upFrom 1 np).foldl (fun x j => writeX x (BitVec.ofNat 5 (a + j)) (readX x (BitVec.ofNat 5 (a + j)) + c)) x
/-- A loop context's registers with the trip count in a lowered by n and np pointers moved on by c. -/
def loopStepped (x : Vector Dword 32) (a : Reg) (n : Nat) (c : Dword) (np : Nat) : Vector Dword 32 :=
  pointersAdvanced (writeX x a (readX x a - BitVec.ofNat 64 n)) a.toNat c np

theorem pointersAdvanced_succ (x : Vector Dword 32) (a : Nat) (c : Dword) (np : Nat) : pointersAdvanced x a c (np + 1) =
    writeX (pointersAdvanced x a c np) (BitVec.ofNat 5 (a + (np + 1))) (readX (pointersAdvanced x a c np) (BitVec.ofNat 5 (a + (np + 1))) + c) := by
  simp [pointersAdvanced, upFrom, List.range'_concat, Nat.add_comm 1 np]
theorem readX_pointersAdvanced (x : Vector Dword 32) {a np : Nat} (c : Dword) (hnp : a + np ≤ 31) (r : Reg) :
    readX (pointersAdvanced x a c np) r = if a < r.toNat ∧ r.toNat ≤ a + np then readX x r + c else readX x r := by
  induction np with
  | zero => rw [if_neg (by omega)]; rfl
  | succ np ih =>
    have hnext : (BitVec.ofNat 5 (a + (np + 1))).toNat = a + (np + 1) := by rw [BitVec.toNat_ofNat]; omega
    rw [pointersAdvanced_succ, readX_writeX, ih (by omega)]
    by_cases h0 : r = 0
    · subst h0; rw [if_pos rfl, if_neg (by simp), readX_zero]
    · rw [if_neg h0]
      by_cases hr : r = BitVec.ofNat 5 (a + (np + 1))
      · have hrn : r.toNat = a + (np + 1) := by rw [hr, hnext]
        rw [if_pos hr, ← hr, ih (by omega), if_neg (by omega), if_pos (by omega)]
      · have hrn : r.toNat ≠ a + (np + 1) := fun he => hr (BitVec.eq_of_toNat_eq (he.trans hnext.symm))
        rw [if_neg hr]
        exact if_congr (by omega) rfl rfl
theorem writeX_getElem_zero (x : Vector Dword 32) (r : Reg) (v : Dword) : (writeX x r v)[0] = x[0] := by
  unfold writeX
  split
  next => rfl
  next hr => exact Vector.getElem_set_ne _ _ fun h0 => hr (BitVec.eq_of_toNat_eq h0)
theorem pointersAdvanced_getElem_zero (x : Vector Dword 32) (a : Nat) (c : Dword) (np : Nat) : (pointersAdvanced x a c np)[0] = x[0] := by
  induction np with
  | zero => rfl
  | succ np ih => rw [pointersAdvanced_succ, writeX_getElem_zero, ih]

theorem loopStepped_getElem_zero (x : Vector Dword 32) (a : Reg) (n : Nat) (c : Dword) (np : Nat) : (loopStepped x a n c np)[0] = x[0] := by
  rw [loopStepped, pointersAdvanced_getElem_zero, writeX_getElem_zero]

section
variable {p : Strand} {a np : Reg} {n : Nat} (ha : a ≠ 0) (hnp : a.toNat + np.toNat ≤ 31) (hn : n ≤ (readX p.x a).toNat) (c : Dword)

include ha hnp hn
theorem readX_loopStepped (r : Reg) : readX (loopStepped p.x a n c np.toNat) r = if r = a then BitVec.ofNat 64 ((readX p.x a).toNat - n)
    else if a.toNat < r.toNat ∧ r.toNat ≤ a.toNat + np.toNat then readX p.x r + c else readX p.x r := by
  have hleft : readX p.x a - BitVec.ofNat 64 n = BitVec.ofNat 64 ((readX p.x a).toNat - n) := by
    refine BitVec.eq_of_toNat_eq ?_
    rw [BitVec.toNat_sub, BitVec.toNat_ofNat, BitVec.toNat_ofNat]
    omega
  rw [loopStepped, readX_pointersAdvanced _ _ hnp, hleft]
  by_cases hr : r = a
  · subst hr
    rw [if_neg (by omega), readX_writeX, if_neg ha, if_pos rfl, if_pos rfl]
  · have hkept : readX (writeX p.x a (BitVec.ofNat 64 ((readX p.x a).toNat - n))) r = readX p.x r := by
      rw [readX_writeX, if_neg hr]
      split
      next h0 => rw [h0, readX_zero]
      next => rfl
    rw [hkept, if_neg hr]
end

/-! ## vlend (R201, R203, R388) -/

section
variable {s : State} {k : Nat} (h : s.actor = .strand k)
include h

theorem stepLoop_strand (a np : Reg) (n : Nat) : stepLoop s np.toNat a.toNat n = s.setStrand k { s.strand k with
    x := loopStepped (s.strand k).x a n (BitVec.ofNat 64 (n * ewBits (s.strand k).vtype / 8)) np.toNat } := by
  have fold : ∀ (l : List Nat) (x : Vector Dword 32), l.foldl (fun s j => s.setX (BitVec.ofNat 5 (a.toNat + j))
      (s.x (BitVec.ofNat 5 (a.toNat + j)) + BitVec.ofNat 64 (n * s.ew / 8))) (s.setStrand k { s.strand k with x := x }) =
      s.setStrand k { s.strand k with x := l.foldl (fun x j => writeX x (BitVec.ofNat 5 (a.toNat + j))
        (readX x (BitVec.ofNat 5 (a.toNat + j)) + BitVec.ofNat 64 (n * ewBits (s.strand k).vtype / 8))) x } := by
    intro l
    induction l with
    | nil => exact fun _ => rfl
    | cons j l ih =>
      intro x
      rw [List.foldl_cons, List.foldl_cons, State.setStrand_setX h, State.setStrand_x h, State.ew, State.setStrand_me h]
      exact ih _
  unfold stepLoop
  rw [BitVec.ofNat_toNat, BitVec.setWidth_eq, State.setX_strand h, State.x_strand h]
  exact fold ..
/-- A capture sets the captured body alone. -/
theorem capture_setStrand (p : Strand) (start : Dword) (n : Nat) : ∃ r, capture (s.setStrand k p) start n = s.setStrand k { p with replay := r } := by
  unfold capture
  split
  next => exact ⟨p.replay, rfl⟩
  next =>
    split
    next l _ =>
      split
      next => exact ⟨_, State.setStrand_updMe h p _⟩
      next => exact ⟨p.replay, rfl⟩
    next => exact ⟨p.replay, rfl⟩
end
theorem prefetch_of_none {s : State} {k : Nat} (hd : (s.strand k).decl = none) : prefetch s k = s := by
  unfold prefetch; rw [hd]

/-- A strand that has closed a pass of its loop: the context is stepped by n, and its declaration has moved on. -/
def Strand.passed (p : Strand) (np a : Reg) (n : Nat) : Strand :=
  { p with x := loopStepped p.x a n (BitVec.ofNat 64 (n * ewBits p.vtype / 8)) np.toNat, vstart := 0, stripD := false
           loopClosed := decide ((readX p.x a).toNat - n = 0), decl := p.decl.map (fun c => { c with pos := c.pos + n }) }

/-- From s to u strand k has closed a pass of its loop, n elements long with left to come. -/
def LoopCloses (s : State) (k : Nat) (np a : Reg) (n left : Nat) (u : State) : Prop :=
  let p := s.strand k
  (∀ r : Reg, readX (u.strand k).x r = if r = a then BitVec.ofNat 64 left
    else if a.toNat < r.toNat ∧ r.toNat ≤ a.toNat + np.toNat then readX p.x r + BitVec.ofNat 64 (n * ewBits p.vtype / 8) else readX p.x r) ∧
  (u.strand k).x[0] = p.x[0] ∧
  u.strand k = { p with x := (u.strand k).x, replay := (u.strand k).replay, vstart := 0, loopClosed := decide (left = 0), stripD := false
                        vl := if left = 0 then p.vl else BitVec.ofNat 13 (min left (vlmaxOf p.vtype))
                        decl := p.decl.map (fun c => { c with pos := c.pos + n }) } ∧
  (∀ j, j ≠ k → u.strand j = s.strand j) ∧ { u with strands := s.strands } = s

section
variable {s : State} {k : Nat} (h : s.actor = .strand k) {np a : Reg} (ha : a ≠ 0) (hnp : a.toNat + np.toNat ≤ 31)
  {x : Dword} (hx : x = readX (s.strand k).x a) {n : Nat} (hn : n = min (s.strand k).vl.toNat x.toNat)
include ha hnp hx hn

theorem passed_closes (vl : BitVec 13) (hvl : vl = if x.toNat - n = 0 then (s.strand k).vl else vlStored (s.strand k).vtype (x.toNat - n))
    (r : Option Replay) : LoopCloses s k np a n (x.toNat - n) (s.setStrand k { (s.strand k).passed np a n with vl := vl, replay := r }) := by
  have hle : n ≤ (readX (s.strand k).x a).toNat := by rw [hn, hx]; exact Nat.min_le_right ..
  obtain ⟨hself, hothers, hrest⟩ := becomes_setStrand s k { (s.strand k).passed np a n with vl := vl, replay := r }
  subst hx
  refine ⟨fun q => ?_, ?_, ?_, hothers, hrest⟩
  · rw [hself]; exact readX_loopStepped ha hnp hle _ q
  · rw [hself]; exact loopStepped_getElem_zero ..
  · rw [hself, hvl]; rfl
include h
theorem execVlend_strand (len : Reg) {start : Dword} (hs : start = (s.strand k).pc - BitVec.ofNat 64 (4 * (len.toNat + 1))) :
    exec (.vlend np a len) s = .next (if x.toNat - n ≠ 0
      then jumpTo (prefetch (capture (s.setStrand k { (s.strand k).passed np a n with vl := vlStored (s.strand k).vtype (x.toNat - n) })
        start (len.toNat + 1)) k) start (wVlend np a len)
      else (prefetch (s.setStrand k { (s.strand k).passed np a n with replay := none }) k).advance) := by
  have hle : n ≤ (readX (s.strand k).x a).toNat := by rw [hn, hx]; exact Nat.min_le_right ..
  have hcount : readX (loopStepped (s.strand k).x a n (BitVec.ofNat 64 (n * ewBits (s.strand k).vtype / 8)) np.toNat) a = BitVec.ofNat 64 (x.toNat - n) := by
    rw [readX_loopStepped ha hnp hle, if_pos rfl, hx]
  have hmod : (x.toNat - n) % 2 ^ 64 = x.toNat - n := Nat.mod_eq_of_lt ((Nat.sub_le ..).trans_lt x.isLt)
  have hzero : BitVec.ofNat 64 (x.toNat - n) = 0 ↔ x.toNat - n = 0 := by
    rw [← BitVec.toNat_inj, BitVec.toNat_ofNat, hmod]; rfl
  have hbool : (BitVec.ofNat 64 (x.toNat - n) == 0) = decide (x.toNat - n = 0) := by rw [beq_eq_decide]; exact decide_eq_decide.2 hzero
  subst hs
  rw [exec_vlend, execVlend]
  simp only [State.x_strand h, State.vl, State.me_strand h, ← hx, ← hn, stepLoop_strand h, State.setStrand_updMe h, State.setStrand_x h, hcount, hbool,
    State.pc_strand h, State.key_strand h, four_mul_words, ne_eq, hzero, Strand.setVl, Strand.passed, BitVec.toNat_ofNat, hmod]
/-- vlend with elements left to come repeats the body. -/
theorem vlend_repeats (len : Reg) {start : Dword} (hs : start = (s.strand k).pc - BitVec.ofNat 64 (4 * (len.toNat + 1))) (hleft : x.toNat - n ≠ 0) :
    Runs (.vlend np a len) s (fun t => ∃ u, LoopCloses s k np a n (x.toNat - n) u ∧ t = jumpTo (prefetch u k) start (wVlend np a len) ∧
      ((s.strand k).decl = none → ¬((s.strand k).level = .user ∧ start = 0) → StrandBecomes s k { u.strand k with pc := start, wait := {} } t)) := by
  have hexec := execVlend_strand h ha hnp hx hn len hs
  rw [if_pos hleft] at hexec
  obtain ⟨r, hr⟩ := capture_setStrand h { (s.strand k).passed np a n with vl := vlStored (s.strand k).vtype (x.toNat - n) } start (len.toNat + 1)
  rw [hr] at hexec
  refine ⟨_, hexec, _, passed_closes ha hnp hx hn _ (if_neg hleft).symm r, rfl, fun hd ht => ?_⟩
  rw [prefetch_of_none (by rw [State.strand_setStrand_self, Strand.passed, hd]; rfl),
    jumpTo_strand (s := s.setStrand k _) h _ _ (by rw [State.strand_setStrand_self]; exact ht), State.setStrand_upd, State.strand_setStrand_self]
  exact becomes_setStrand ..
/-- vlend at the end of its loop goes on, and the captured body ends. -/
theorem vlend_ends (len : Reg) (hleft : x.toNat - n = 0) :
    Runs (.vlend np a len) s (fun t => ∃ u, LoopCloses s k np a n (x.toNat - n) u ∧ (u.strand k).replay = none ∧ t = (prefetch u k).advance ∧
      ((s.strand k).decl = none → StrandBecomes s k (u.strand k).onward t)) := by
  have hexec := execVlend_strand h ha hnp hx hn len rfl
  rw [if_neg (not_not.2 hleft)] at hexec
  refine ⟨_, hexec, _, passed_closes ha hnp hx hn _ (if_pos hleft).symm none, by rw [State.strand_setStrand_self], rfl, fun hd => ?_⟩
  rw [prefetch_of_none (by rw [State.strand_setStrand_self, Strand.passed, hd]; rfl), State.setStrand_advance h, State.strand_setStrand_self]
  exact becomes_setStrand ..
end

/-! ## Declarations (R387) -/

/-- A declaration that is sound has its fields in their bounds. -/
theorem declOf_some {n : Nat} {c : Decl} (hc : declOf n = some c) : c.avl = n % 2 ^ 64 ∧ c.streams.length = n / 2 ^ 64 % 2 ^ 8 ∧
    c.depth = n / 2 ^ 72 % 2 ^ 8 ∧ c.pos = 0 ∧ 1 ≤ c.streams.length ∧ c.streams.length ≤ 4 ∧ 1 ≤ c.depth ∧ c.depth ≤ 4 := by
  unfold declOf at hc
  obtain ⟨⟨-, -, hstreams, hfour, hdepth, hdepth4, -⟩, hfields⟩ := Option.ite_none_right_eq_some.1 hc
  have hcount : c.streams.length = n / 2 ^ 64 % 2 ^ 8 := by
    rw [← Option.some.inj hfields]
    exact (List.length_map ..).trans ((List.length_take ..).trans (Nat.min_eq_left hfour))
  have havl : c.avl = n % 2 ^ 64 := by
    rw [← Option.some.inj hfields]
    exact congrArg (· % 2 ^ 64) (Nat.div_one n)
  rw [hcount, ← Option.some.inj hfields]
  exact ⟨Option.some.inj hfields ▸ havl, rfl, rfl, rfl, hstreams, hfour, hdepth, hdepth4⟩

section
variable {s : State} {k : Nat} (h : s.actor = .strand k) {a : Reg} {x : Dword} (hx : x = readX (s.strand k).x a)
include h hx

theorem vdecl_misaligned (hm : x.toNat % 8 ≠ 0) : Runs (.vdecl a) s (fun t => t = raise s ⟨.misaligned, x, 0⟩) := by
  rw [← State.x_strand h] at hx
  have hfirst : x + BitVec.ofNat 64 (8 * 0) = x := BitVec.add_zero x
  have htraps := (access_traps (v := 0) h (fun hc => hm hc.2) fun acc => resolve_misaligned (s := s) (acc := acc) (e := 0) (lane := 0) hm).1
  refine runs_eq (exec_vdecl.trans (runInstr_trap ?_))
  rw [bindM_get, ← hx, List.range_succ_eq_map, collectM]
  exact bindM_error (bindM_error (by rw [hfirst]; exact htraps))
/-- What vdecl does with the dwords of a declaration that it reads. -/
theorem vdecl_reads {vs : List Nat} {u : State} (hread : Accesses (fun i => loadN s.ctx (x + BitVec.ofNat 64 (8 * i)) 8 0 0) s (List.range 8) vs u) :
    (declOf (packElems 64 vs) = none → Runs (.vdecl a) s (fun t => t = (undeclare u k).advance)) ∧
    (∀ c, declOf (packElems 64 vs) = some c →
      Runs (.vdecl a) s (fun t => t = (prefetch ((undeclare u k).upd k (fun q => { q with decl := some c })) k).advance)) := by
  rw [← State.x_strand h] at hx
  subst hx
  obtain ⟨hvalues, hactor⟩ := collectM_of_accesses hread
  have hkey : u.key = k := State.key_strand (hactor.trans h)
  have hexec : exec (.vdecl a) s = .next (match declOf (packElems 64 vs) with
      | none => undeclare u u.key
      | some c => prefetch ((undeclare u u.key).updMe (fun q => { q with decl := some c })) (undeclare u u.key).key).advance :=
    exec_vdecl.trans (runInstr_ok (by rw [bindM_get, bindM_ok hvalues]; rfl))
  have hsame : (undeclare u k).key = k := hkey
  simp only [hkey, State.updMe, hsame] at hexec
  refine ⟨fun hd => runs_eq ?_, fun c hd => runs_eq ?_⟩
  all_goals rw [hexec, hd]
end

theorem vundecl_runs {s : State} {k : Nat} (h : s.actor = .strand k) : Runs .vundecl s (fun t =>
    t.strand k = { (s.strand k).onward with decl := none } ∧ (∀ j, j ≠ k → t.strand j = s.strand j) ∧
    { t with strands := s.strands, strip := s.strip } = s ∧ ∀ e, e ∈ t.strip ↔ e ∈ s.strip ∧ e.strand ≠ k) := by
  have hactor : (undeclare s k).actor = .strand k := h
  have hstrand : ∀ j, (undeclare s k).strand j = (s.upd k (fun t => { t with decl := none })).strand j := fun _ => rfl
  refine ⟨_, exec_vundecl, ?_⟩
  rw [State.key_strand h, State.advance_strand hactor]
  refine ⟨by rw [State.strand_upd_self, hstrand, State.strand_upd_self]; rfl, fun j hj => ?_, rfl, fun e => ?_⟩
  · rw [State.strand_upd_of_ne _ _ hj, hstrand, State.strand_upd_of_ne _ _ hj]
  · exact List.mem_filter.trans (and_congr_right fun _ => bne_iff_ne)

/-! ## The statement -/

/-- Settles O31: each clause is what the lemmas above say of the instruction. -/
theorem vectorConfig : Obligations.VectorConfig := by
  intro s k d a b vt h p x Shaped Sets vx
  refine ⟨vsetl_runs h d a vt, fun hv => vsetlx_runs h rfl hv, fun hv => vsetlx_illegal h rfl hv, vloop_runs h a vt, vslip_runs h a,
    fun off => ⟨fun ha => vbreak_stays h ha off, fun ha => vbreak_leaves h ha⟩, fun np len ha hnp => ?loop, vdecl_misaligned h rfl,
    fun vs u hread => ?reads, vundecl_runs h⟩
  case loop => exact ⟨vlend_repeats h ha hnp rfl rfl len rfl, vlend_ends h ha hnp rfl rfl len⟩
  case reads =>
    obtain ⟨hnone, hsome⟩ := vdecl_reads h rfl hread
    exact ⟨hnone, fun c hc => ⟨hsome c hc, declOf_some hc⟩⟩

end Sys2Proof.Machine
end

section
/-! Rings and relay queues as explicit operations (R191 to R197): lemmas for the statement QueueResult, and its proof. -/

namespace Sys2Proof.Machine
open Sys2Proof

/-! ## Checks one after another (R112) -/

section
variable {α : Type} {c : Except Stop Unit} {f : Unit → Except Stop α}

theorem check_ok (h : c = .ok ()) : (c >>= f) = f () := by rw [h]; rfl
theorem check_error {e : Stop} (h : c = .error e) : (c >>= f) = .error e := by rw [h]; rfl
end

section
variable {s : State} {k : Nat} {i : Instr} {c : Except Stop Unit} {effect : State} (hi : exec i s = vguard c effect s)
include hi

theorem vguard_completes (hc : c = .ok ()) : exec i s = .next effect := hi.trans (vguard_ok hc effect s)
theorem vguard_traps {r : TrapInfo} (hc : c = .error (.trap r)) (hr : r.cause ≠ .memPoison) : Runs i s (fun t => t = raise s r) :=
  runs_eq (hi.trans (by rw [hc]; exact congrArg _ (if_neg hr)))
theorem vguard_faults {n : Nat} (hc : c = .error (ringFault n)) : Runs i s (fun t => t = raise s ⟨.ringFault, BitVec.ofNat 64 n, 0⟩) :=
  vguard_traps hi hc (fun hcause : Cause.ringFault = .memPoison => nomatch hcause)
theorem vguard_waits (h : s.actor = .strand k) (hc : c = .error .wait) :
    Runs i s (StrandBecomes s k { s.strand k with wait := { (s.strand k).wait with blocked := true } }) :=
  ⟨_, hi.trans (by rw [hc]; rfl), block_strand h⟩
end

/-- A strand is through with a vector instruction: VSTART is 0, and the next instruction is next. -/
theorem vdone_eq {q : State} {k : Nat} (h : q.actor = .strand k) :
    vdone q = (q.upd k (fun p => { p with vstart := 0 })).upd k Strand.onward := by
  rw [vdone_strand h, State.upd_upd]; rfl

/-! ## qcfg (R191, R197) -/

theorem State.shardKey_upd (s : State) (k j : Nat) {f : Strand → Strand} (hplace : ∀ t, (f t).place = t.place) :
    (s.upd k f).shardKey j = s.shardKey j := by
  unfold State.shardKey; rw [State.groupOf_upd s k j f hplace]
theorem State.ring_upd (s : State) (k j : Nat) (i : BitVec 3) {f : Strand → Strand} (hplace : ∀ t, (f t).place = t.place)
    (hrings : ∀ t, (f t).rings = t.rings) : (s.upd k f).ring j i = s.ring j i := by
  simp only [State.ring, State.shardKey_upd s k j hplace, State.strand_upd_keeps s k _ hrings]
theorem dropRingZero_shardKey (s : State) (k j : Nat) (i : BitVec 3) : (dropRingZero s k i).shardKey j = s.shardKey j := by
  obtain ⟨l, hl⟩ := dropRingZero_tasks s k i
  rw [hl]; rfl
theorem dropRingZero_bufZero (s : State) (k : Nat) (i : BitVec 3) :
    ∀ q ∈ (dropRingZero s k i).tasks, sfind q.2.bufZero (8 * s.shardKey k + i.toNat) = none := by
  intro q hq
  unfold dropRingZero at hq
  simp only [] at hq
  split at hq
  next =>
    obtain ⟨p, -, rfl⟩ := List.mem_map.1 hq
    rw [sfind_sdel, if_pos rfl]
  next hnone => exact Option.not_isSome_iff_eq_none.1 fun hsome => hnone (List.any_eq_true.2 ⟨q, hq, hsome⟩)

/-- The state after qcfg wrote the base and the geometry of a ring. -/
def ringConfigured (s : State) (k : Nat) (i : BitVec 3) (x y : Dword) : State :=
  sprWrite (sprWrite s k (ringReg i 0) x) k (ringReg i 1) y

theorem ringConfigured_ring (s : State) (k : Nat) (i : BitVec 3) (x y : Dword) :
    (ringConfigured s k i x y).ring k i = { base := x.extractLsb' 8 56, nslotm1 := y.extractLsb' 8 8, log2slot := low 4 y, head := 0, tail := 0, zero := [], unlanded := [] } := by
  obtain ⟨hbase, -⟩ := ringBase_sets s k x i
  obtain ⟨hgeom, -⟩ := ringGeom_sets (sprWrite s k (ringReg i 0) x) k y i
  rw [ringConfigured, hgeom, hbase]
theorem ringConfigured_bufZero (s : State) (k : Nat) (i : BitVec 3) (x y : Dword) :
    ∀ q ∈ (ringConfigured s k i x y).tasks, sfind q.2.bufZero (8 * s.shardKey k + i.toNat) = none := by
  intro q hq
  rw [ringConfigured, sprWrite_ringGeom] at hq
  have hshard : (sprWrite s k (ringReg i 0) x).shardKey k = s.shardKey k := by
    rw [sprWrite_ringBase, State.shardKey_setRing, dropRingZero_shardKey]
  rw [← hshard]
  exact dropRingZero_bufZero _ k i q hq
theorem ringConfigured_actor (s : State) (k : Nat) (i : BitVec 3) (x y : Dword) : (ringConfigured s k i x y).actor = s.actor := by
  have hactor : ∀ (u : State) (r : Ring), ((dropRingZero u k i).setRing k i r).actor = u.actor := fun u r => by
    obtain ⟨l, hl⟩ := dropRingZero_tasks u k i
    rw [hl]; rfl
  rw [ringConfigured, sprWrite_ringGeom, hactor, sprWrite_ringBase, hactor]

section
variable {s : State} {k : Nat} (h : s.actor = .strand k) {ring : BitVec 3} {x y : Reg}
include h

theorem qcfg_undeclared (hd : s.ringDeclared k ring.toNat = false) :
    Runs (.qcfg ring x y) s (fun t => t = raise s ⟨.ringFault, BitVec.ofNat 64 ring.toNat, 0⟩) :=
  vguard_faults exec_qcfg (if_pos (by rw [State.key_strand h, hd]; rfl))
theorem qcfg_waits (hd : s.ringDeclared k ring.toNat = true) (hf : s.ringInFlight k ring = true) :
    Runs (.qcfg ring x y) s (StrandBecomes s k { s.strand k with wait := { (s.strand k).wait with blocked := true } }) :=
  vguard_waits exec_qcfg h (by rw [State.key_strand h, hd, hf]; rfl)
theorem qcfg_configures (hd : s.ringDeclared k ring.toNat = true) (hf : s.ringInFlight k ring = false) : exec (.qcfg ring x y) s =
    .next (vdone (ringConfigured s k ring (readX (s.strand k).x x) (readX (s.strand k).x y))) := by
  have hfirst : (BitVec.ofNat 12 (0x40 + 4 * ring.toNat) : BitVec 12) = ringReg ring 0 := rfl
  have hnext : ringReg ring 0 + 1 = ringReg ring 1 := by unfold ringReg; rw [BitVec.ofNat_add (0x40 + 4 * ring.toNat) 1]; rfl
  have hcheck : (if !s.ringDeclared s.key ring.toNat then .error (ringFault ring.toNat) else if s.ringInFlight s.key ring then .error .wait
      else .ok () : Except Stop Unit) = .ok () := by rw [State.key_strand h, hd, hf]; rfl
  rw [exec_qcfg, execQcfg, vguard_ok hcheck]
  simp only [hfirst, hnext, State.key_strand h, State.x_strand h, ringConfigured]
end

/-! ## qpush (R194, R196, R197) -/

theorem withSector_actor (s : State) (f : Nat) (acc : Acc) : (withSector s f acc).actor = s.actor := by
  unfold withSector
  split
  next t ht =>
    unfold sectorReady at ht
    split at ht
    next => exact congrArg State.actor (Except.ok.inj ht).symm
    next ck i _ =>
      split at ht
      next u hu =>
        have hkeeps := cocoonReady_keeps (a := s.actor) (unit := false) (ck := ck) (i := i / 16 * 16) (b := 0) (n := 64) (acc := acc) (e := 0) s rfl
        rw [hu] at hkeeps
        exact (congrArg State.actor (Except.ok.inj ht).symm).trans hkeeps
      next => exact nomatch ht
  next => rfl
theorem landSector_actor (s : State) (f v : Nat) : (landSector s f v).actor = s.actor := by
  have hsector := withSector_actor s f .write
  unfold landSector
  generalize withSector s f .write = u at hsector ⊢
  extract_lets t w
  have hw : w.actor = s.actor := (breakLinksOf_actor ..).trans ((clearRingFlags_actor ..).trans hsector)
  split
  next => exact (cocoonLands_actor ..).trans hw
  next => exact hw
theorem ringFill_actor (s : State) (n : BitVec 3) (i image : Nat) : (ringFill s n i image).actor = s.actor := by
  unfold ringFill
  extract_lets r a filled set
  have hfilled : filled.actor = s.actor := foldl_actor (fun t q => by simp only []; split; exacts [rfl, landSector_actor ..]) _ _
  split
  next => exact hfilled
  next => exact hfilled
theorem slotLands_actor (s : State) (n : BitVec 3) (c : Nat) : (slotLands s n c).actor = s.actor := rfl

/-- The image of elements 0 to vl − 1 of the group at v. -/
def groupImage (s : State) (k : Nat) (v : Reg) : Nat :=
  let e := ewBits (s.strand k).vtype
  packElems e ((List.range (s.strand k).vl.toNat).map (vget s k v.toNat e))
/-- The bytes that they fill. -/
def groupBytes (p : Strand) : Nat := p.vl.toNat * ewBits p.vtype / 8
/-- The next slot of a ring reserved, filled with an image and landed. -/
def ringPushed (s : State) (k : Nat) (n : BitVec 3) (image : Nat) : State :=
  let r := s.ring k n
  slotLands (ringFill (s.setRing k n { r with tail := r.tail + 1 }) n r.tail.toNat image) n r.tail.toNat

theorem ringPushed_actor (s : State) (k : Nat) (n : BitVec 3) (image : Nat) : (ringPushed s k n image).actor = s.actor :=
  (slotLands_actor ..).trans (ringFill_actor ..)

section
variable {s : State} {k : Nat} (h : s.actor = .strand k)
include h

theorem queueName_undeclared {n : BitVec 3} (hd : s.ringDeclared k n.toNat = false) : queueName s (.ring n) = .error (ringFault n.toNat) :=
  if_neg (by rw [State.key_strand h, hd]; exact Bool.false_ne_true)
theorem queueName_solo {n : BitVec 2} (ht : s.trio k = false) : queueName s (.relay n) = .error (ringFault (8 + n.toNat)) :=
  if_neg (by rw [State.key_strand h, ht]; exact Bool.false_ne_true)
theorem queueName_trio {n : BitVec 2} (ht : s.trio k = true) : queueName s (.relay n) = .ok () := if_pos (by rwa [State.key_strand h])
/-- A ring without room makes its writer wait in a trio, and faults in solo mode (R194). -/
theorem ringRoom_full {n : BitVec 3} (hfull : (s.ring k n).slots ≤ (s.ring k n).used) :
    ringRoom s n = if s.trio k then .error .wait else .error (ringFault n.toNat) := by
  rw [ringRoom, State.key_strand h]; exact if_neg (Nat.not_lt.2 hfull)

variable {v : Reg} (hnamed : v.toNat % grpRegs (s.strand k).vtype = 0 ∧ v.toNat + grpRegs (s.strand k).vtype ≤ (s.strand k).window)
include hnamed

theorem group_named : groupOk s.me v.toNat s.grp = .ok () := by
  rw [State.grp, State.me_strand h]; exact if_pos hnamed

section
variable {n : BitVec 3}

/-- qpush to a ring tests the ring's name, the slot's size and the room. -/
theorem qpush_ring : exec (.qpush (.ring n) v) s = vguard (do
      queueName s (.ring n)
      (if groupBytes (s.strand k) ≤ (s.ring k n).slotBytes then .ok () else .error (ringFault n.toNat))
      ringRoom s n) (vdone (ringPushed s k n (groupImage s k v))) s := by
  rw [exec_qpush, execQpush]
  rw [check_ok (group_named h hnamed)]
  simp only [State.ew, State.vl, State.me_strand h, State.key_strand h, groupBytes, groupImage, ringPushed]
  rfl
theorem qpush_ring_unnamed {q : Nat} (hn : queueName s (.ring n) = .error (ringFault q)) :
    Runs (.qpush (.ring n) v) s (fun t => t = raise s ⟨.ringFault, BitVec.ofNat 64 q, 0⟩) :=
  vguard_faults (qpush_ring h hnamed) (check_error hn)

variable (hname : queueName s (.ring n) = .ok ())
include hname
theorem qpush_ring_tooLarge (hb : (s.ring k n).slotBytes < groupBytes (s.strand k)) :
    Runs (.qpush (.ring n) v) s (fun t => t = raise s ⟨.ringFault, BitVec.ofNat 64 n.toNat, 0⟩) :=
  vguard_faults (qpush_ring h hnamed) (by rw [check_ok hname, if_neg (Nat.not_le.2 hb)]; rfl)
variable (hb : groupBytes (s.strand k) ≤ (s.ring k n).slotBytes)
include hb
theorem qpush_ring_full (hfull : (s.ring k n).slots ≤ (s.ring k n).used) :
    (s.trio k = false → Runs (.qpush (.ring n) v) s (fun t => t = raise s ⟨.ringFault, BitVec.ofNat 64 n.toNat, 0⟩)) ∧
    (s.trio k = true → Runs (.qpush (.ring n) v) s (StrandBecomes s k { s.strand k with wait := { (s.strand k).wait with blocked := true } })) :=
  ⟨fun ht => vguard_faults (qpush_ring h hnamed) (by rw [check_ok hname, if_pos hb, check_ok rfl, ringRoom_full h hfull, ht]; rfl),
    fun ht => vguard_waits (qpush_ring h hnamed) h (by rw [check_ok hname, if_pos hb, check_ok rfl, ringRoom_full h hfull, ht]; rfl)⟩
theorem qpush_ring_room (hroom : ringRoom s n = .ok ()) : exec (.qpush (.ring n) v) s = .next (vdone (ringPushed s k n (groupImage s k v))) :=
  vguard_completes (qpush_ring h hnamed) (by rw [check_ok hname, if_pos hb, check_ok rfl, hroom])
end

section
variable {n : BitVec 2}

/-- qpush to a relay queue tests the queue's name and its room. -/
theorem qpush_relay : exec (.qpush (.relay n) v) s = vguard (do
      queueName s (.relay n)
      (if (s.relay n).length < 2 then .ok () else .error .wait))
    (vdone (s.setRelay n (s.relay n ++ [{ data := BitVec.ofNat 32768 (groupImage s k v), count := groupBytes (s.strand k), poison := [] }]))) s := by
  rw [exec_qpush, execQpush]
  rw [check_ok (group_named h hnamed)]
  simp only [State.ew, State.vl, State.me_strand h, State.key_strand h, groupBytes, groupImage]
theorem qpush_relay_solo (ht : s.trio k = false) :
    Runs (.qpush (.relay n) v) s (fun t => t = raise s ⟨.ringFault, BitVec.ofNat 64 (8 + n.toNat), 0⟩) :=
  vguard_faults (qpush_relay h hnamed) (check_error (queueName_solo h ht))
variable (ht : s.trio k = true)
include ht
theorem qpush_relay_full (hfull : 2 ≤ (s.relay n).length) :
    Runs (.qpush (.relay n) v) s (StrandBecomes s k { s.strand k with wait := { (s.strand k).wait with blocked := true } }) :=
  vguard_waits (qpush_relay h hnamed) h (by rw [check_ok (queueName_trio h ht), if_neg (Nat.not_lt.2 hfull)])
theorem qpush_relay_room (hroom : (s.relay n).length < 2) : exec (.qpush (.relay n) v) s = .next (vdone (s.setRelay n (s.relay n ++
    [{ data := BitVec.ofNat 32768 (groupImage s k v), count := groupBytes (s.strand k), poison := [] }]))) :=
  vguard_completes (qpush_relay h hnamed) (by rw [check_ok (queueName_trio h ht), if_pos hroom])
end
end

/-! ## qpop (R193, R197) -/

theorem vputs_append (s : State) (k v w : Nat) (l r : List (Nat × Nat)) : vputs s k v w (l ++ r) = vputs (vputs s k v w l) k v w r :=
  List.foldl_append
/-- The updates of one element more: it has a value, or follows TA. -/
theorem countUpdates_succ (p : Strand) (n : Nat) (l : List Nat) : countUpdates p (n + 1) l = countUpdates p n l ++
    ((l[n]?.or (if vtTa p.vtype then some 0 else none)).map (fun x => (n, x))).toList := by
  rw [countUpdates, List.range_succ, List.filterMap_append]
  refine congrArg (countUpdates p n l ++ ·) ?_
  rw [List.filterMap_cons]
  cases l[n]? with
  | none => cases vtTa p.vtype <;> rfl
  | some x => rfl
/-- Elements after a list was written from element 0 up, the rest following TA (R232). -/
theorem vget_countUpdates (s : State) (k v : Nat) {w : Nat} (hw : 4096 % w = 0) (p : Strand) (n : Nat) (l : List Nat) (j : Nat) :
    vget (vputs s k v w (countUpdates p n l)) k v w j =
      if j < n then ((l[j]?.or (if vtTa p.vtype then some 0 else none)).map (· % 2 ^ w)).getD (vget s k v w j) else vget s k v w j := by
  induction n with
  | zero => rfl
  | succ n ih =>
    rw [countUpdates_succ, vputs_append]
    by_cases hj : j = n
    · subst hj
      rw [if_pos (Nat.lt_succ_self j)]
      cases l[j]?.or (if vtTa p.vtype then some 0 else none) with
      | none => exact ih.trans (if_neg (Nat.lt_irrefl j))
      | some x => exact (vget_vput _ _ _ _ _ _ _ hw).trans (if_pos rfl)
    · rw [if_congr (show j < n + 1 ↔ j < n by omega) rfl rfl, ← ih]
      cases l[n]?.or (if vtTa p.vtype then some 0 else none) with
      | none => rfl
      | some x => exact (vget_vput _ _ _ _ _ _ _ hw).trans (if_neg hj)
theorem countUpdates_lt {p : Strand} {n : Nat} {l : List Nat} {q : Nat × Nat} (hq : q ∈ countUpdates p n l) : q.1 < n := by
  induction n with
  | zero => exact absurd hq List.not_mem_nil
  | succ n ih =>
    rw [countUpdates_succ, List.mem_append] at hq
    rcases hq with hq | hq
    · exact (ih hq).trans (Nat.lt_succ_self n)
    · obtain ⟨x, -, rfl⟩ := Option.map_eq_some_iff.1 (Option.mem_toList.1 hq)
      exact Nat.lt_succ_self n

/-- The only trap of a queue that is not ready is RING_FAULT (R194). -/
theorem queueReady_trap {s : State} {q : Queue} {c : Nat} {r : TrapInfo} (hr : queueReady s q c = .error (.trap r)) : r.cause = .ringFault := by
  unfold queueReady at hr
  split at hr
  next => exact nomatch hr
  next =>
    cases q with
    | ring n =>
      simp only [] at hr
      split at hr
      next =>
        split at hr
        next => exact nomatch hr
        next => exact (congrArg TrapInfo.cause (Stop.trap.inj (Except.error.inj hr))).symm
      next => split at hr <;> exact nomatch hr
    | relay n => simp only [] at hr; split at hr <;> exact nomatch hr
/-- A queue whose slot can be read is not waited for. -/
theorem vaWait_ok {s : State} {k : Nat} (h : s.actor = .strand k) {q : Queue} {w : Nat} {reads : Nat → Prop} (hr : QueueReads s k q w reads)
    {l : List Nat} (hl : ∀ i ∈ l, reads i) : vaWait s (.queue q) w l = .ok () := by
  obtain ⟨hready, helems⟩ := hr
  have hclean : l.find? (queuePoisoned s q 0 w) = none := List.find?_eq_none.2 fun i hi => Bool.eq_false_iff.1 (helems i (hl i hi)).1
  unfold vaWait
  simp only [check_ok hready, hclean]
  cases q with
  | relay n => rfl
  | ring n =>
    refine check_ok (sectorsReady_ok fun i hi => ?_)
    obtain ⟨hi, hsize⟩ := List.mem_filter.1 hi
    rw [State.key_strand h] at hsize ⊢
    exact (helems i (hl i hi)).2 (of_decide_eq_true hsize)
/-- An instruction is through that wrote vector registers and pops the slot of its queue operand. -/
theorem vputs_pops {s : State} {k : Nat} (h : s.actor = .strand k) (va : VSrc) (v w : Nat) (ups : List (Nat × Nat)) :
    let t := vdone (vaPop (vputs s k v w ups) va)
    t.strand k = { ((vaPop s va).strand k).onward with vstart := 0 } ∧ (∀ j, j ≠ k → t.strand j = (vaPop s va).strand j) ∧
    { t with strands := s.strands, vregs := s.vregs } = s ∧ t.vregs = (vputs s k v w ups).vregs := by
  have hpopped := vaPop_vregs s (vputs s k v w ups) va (vputs_frame s k v w ups)
  have hactor : (vaPop (vputs s k v w ups) va).actor = .strand k := by rw [hpopped]; exact (vaPop_actor s va).trans h
  intro t
  have ht : t = _ := vdone_strand hactor
  rw [ht, hpopped]
  exact ⟨State.strand_upd_self .., fun j hj => State.strand_upd_of_ne _ _ hj, congrArg (fun u : State => { u with vregs := s.vregs }) (vaPop_frame s va), rfl⟩

section
variable {s : State} {k : Nat} (h : s.actor = .strand k) {v : Reg}
  (hnamed : v.toNat % grpRegs (s.strand k).vtype = 0 ∧ v.toNat + grpRegs (s.strand k).vtype ≤ (s.strand k).window) {q : Queue}
include h hnamed

/-- qpop tests its queue's name, then its slot, as an instruction that reads the queue. -/
theorem qpop_queue : exec (.qpop v q) s = vguard (do
      vaName s (.queue q) true
      vaWait s (.queue q) (ewBits (s.strand k).vtype) (List.range (s.strand k).vl.toNat))
    (vdone (vaPop (vputs s k v.toNat (ewBits (s.strand k).vtype) (countUpdates (s.strand k) (vlmaxOf (s.strand k).vtype)
      ((List.range (s.strand k).vl.toNat).map (queueElem s q 0 (ewBits (s.strand k).vtype))))) (.queue q))) s := by
  rw [exec_qpop, execQpop]
  rw [check_ok (group_named h hnamed)]
  simp only [State.ew, State.vl, State.vlmax, State.me_strand h, State.key_strand h, vaPop]
theorem qpop_unnamed {n : Nat} (hn : queueName s q = .error (ringFault n)) :
    Runs (.qpop v q) s (fun t => t = raise s ⟨.ringFault, BitVec.ofNat 64 n, 0⟩) :=
  vguard_faults (qpop_queue h hnamed) (check_error (check_error hn))

variable (hname : queueName s q = .ok ())
include hname
theorem qpop_waits (hready : queueReady s q 0 = .error .wait) :
    Runs (.qpop v q) s (StrandBecomes s k { s.strand k with wait := { (s.strand k).wait with blocked := true } }) := by
  refine vguard_waits (qpop_queue h hnamed) h ?_
  have hvaName : vaName s (.queue q) true = .ok () := by rw [vaName, check_ok hname, if_pos rfl, hready]
  rw [check_ok hvaName]
  exact check_error hready
theorem qpop_traps {r : TrapInfo} (hready : queueReady s q 0 = .error (.trap r)) : Runs (.qpop v q) s (fun t => t = raise s r) := by
  have hvaName : vaName s (.queue q) true = .error (.trap r) := by rw [vaName, check_ok hname, if_pos rfl, hready]
  exact vguard_traps (qpop_queue h hnamed) (check_error hvaName) (by rw [queueReady_trap hready]; exact fun hc => nomatch hc)
theorem qpop_pops (hreads : QueueReads s k q (ewBits (s.strand k).vtype) (· < (s.strand k).vl.toNat)) : Runs (.qpop v q) s (fun t =>
    (∀ i, i < vlmaxOf (s.strand k).vtype → vget t k v.toNat (ewBits (s.strand k).vtype) i =
      if i < (s.strand k).vl.toNat then queueElem s q 0 (ewBits (s.strand k).vtype) i % 2 ^ ewBits (s.strand k).vtype
      else if (s.strand k).vtype.getLsbD 5 then 0 else vget s k v.toNat (ewBits (s.strand k).vtype) i) ∧
    OthersKept s t k v.toNat (grpRegs (s.strand k).vtype) ∧ t.strand k = { ((queuePop s q 1).strand k).onward with vstart := 0 } ∧
    (∀ j, j ≠ k → t.strand j = (queuePop s q 1).strand j) ∧ { t with strands := s.strands, vregs := s.vregs } = s) := by
  have hvaName : vaName s (.queue q) true = .ok () := by rw [vaName, check_ok hname, if_pos rfl, hreads.1]
  have hvaWait : vaWait s (.queue q) (ewBits (s.strand k).vtype) (List.range (s.strand k).vl.toNat) = .ok () :=
    vaWait_ok h hreads fun i hi => List.mem_range.1 hi
  obtain ⟨hme, hothers, hrest, hvregs⟩ := vputs_pops h (.queue q) v.toNat (ewBits (s.strand k).vtype) (countUpdates (s.strand k) (vlmaxOf (s.strand k).vtype)
    ((List.range (s.strand k).vl.toNat).map (queueElem s q 0 (ewBits (s.strand k).vtype))))
  refine ⟨_, vguard_completes (qpop_queue h hnamed) (by rw [check_ok hvaName, hvaWait]), fun i hi => ?_, fun c hc => ?_, hme, hothers, hrest⟩
  · obtain ⟨r, l, hpop⟩ := vaPop_strand s (.queue q) k
    have hkept := vget_congr (s := vputs s k v.toNat (ewBits (s.strand k).vtype) (countUpdates (s.strand k) (vlmaxOf (s.strand k).vtype)
      ((List.range (s.strand k).vl.toNat).map (queueElem s q 0 (ewBits (s.strand k).vtype))))) (k := k) (by rw [hme, hpop, vputs_strand]; rfl) hvregs
    rw [hkept, vget_countUpdates _ _ _ (ewBits_dvd _), if_pos hi, List.getElem?_map]
    by_cases hvl : i < (s.strand k).vl.toNat
    · rw [List.getElem?_range hvl, if_pos hvl]; rfl
    · rw [List.getElem?_eq_none (by simpa using hvl), if_neg hvl]
      unfold vtTa
      cases (s.strand k).vtype.getLsbD 5 <;> rfl
  · rw [hvregs]
    exact vputs_other _ _ _ _ _ _ fun p hp => hc _ (elem_lt_grpRegs (countUpdates_lt hp))
end

/-! ## qwait and qzf (R197) -/

/-- Bits set one after another, each where its flag says. -/
theorem getLsbD_forN {f : Nat → Dword → Dword} {flag : Nat → Bool} (hf : ∀ m v i, i < 64 → (f m v).getLsbD i = (v.getLsbD i || (decide (m = i) && flag m)))
    (n : Nat) {i : Nat} (hi : i < 64) : (forN n f 0).getLsbD i = (decide (i < n) && flag i) := by
  induction n with
  | zero => exact BitVec.getLsbD_zero
  | succ n ih =>
    rw [forN, hf n _ i hi, ih]
    by_cases hni : n = i
    · subst hni; simp
    · simp [hni, show i < n + 1 ↔ i < n by omega]
/-- Bit m alone. -/
theorem getLsbD_one_shiftLeft (m : Nat) {i : Nat} (hi : i < 64) : (BitVec.ofNat 64 (1 <<< m)).getLsbD i = decide (m = i) := by
  rw [BitVec.getLsbD_ofNat, decide_eq_true hi, Bool.true_and, Nat.one_shiftLeft, Nat.testBit_two_pow]

section
variable {s : State} {k : Nat} (h : s.actor = .strand k) {x y : Reg}
include h

section
variable {q : Queue}

/-- qwait tests its queue's name, and whether enough has landed. -/
theorem qwait_exec : exec (.qwait x q y) s = vguard (do
      queueName s q
      (if (readable s q).1 < min (readX (s.strand k).x y).toNat (readable s q).2 ∧ s.trio k then .error .wait else .ok ()))
    (vdone (s.setX x (BitVec.ofNat 64 (readable s q).1))) s := by
  rw [exec_qwait, execQwait]
  simp only [State.x_strand h, State.key_strand h]
theorem qwait_unnamed {n : Nat} (hn : queueName s q = .error (ringFault n)) :
    Runs (.qwait x q y) s (fun t => t = raise s ⟨.ringFault, BitVec.ofNat 64 n, 0⟩) :=
  vguard_faults (qwait_exec h) (check_error hn)
variable (hname : queueName s q = .ok ())
include hname
theorem qwait_answers (henough : min (readX (s.strand k).x y).toNat (readable s q).2 ≤ (readable s q).1 ∨ s.trio k = false) :
    Runs (.qwait x q y) s (StrandBecomes s k { (s.strand k).gives x (BitVec.ofNat 64 (readable s q).1) with vstart := 0 }) := by
  refine ⟨_, vguard_completes (qwait_exec h) ?_, vdone_gives h ..⟩
  rw [check_ok hname]
  exact if_neg fun ⟨hfew, htrio⟩ => henough.elim (Nat.not_le.2 hfew) fun hsolo => Bool.false_ne_true (hsolo.symm.trans htrio)
theorem qwait_waits (hfew : (readable s q).1 < min (readX (s.strand k).x y).toNat (readable s q).2) (htrio : s.trio k = true) :
    Runs (.qwait x q y) s (StrandBecomes s k { s.strand k with wait := { (s.strand k).wait with blocked := true } }) :=
  vguard_waits (qwait_exec h) h (by rw [check_ok hname]; exact if_pos ⟨hfew, htrio⟩)
end

theorem readable_ring_room {n : BitVec 3} : (readable s (.ring n)).2 = (s.ring k n).slots := by rw [← State.key_strand h]; rfl
/-- Without claims and writes on their way, every slot in use has landed. -/
theorem readable_ring_landed {n : BitVec 3} (hclaims : s.claimsElsewhere k (.ring n) = 0) (hlanded : ∀ j, sfind (s.ring k n).unlanded j = none)
    (hused : (s.ring k n).used ≤ (s.ring k n).slots) : (readable s (.ring n)).1 = (s.ring k n).used := by
  have hopen : ∀ c, slotOpen s (s.ring k n) c = false := fun c => by rw [slotOpen, hlanded]; rfl
  simp only [readable, State.key_strand h, hclaims, hopen, Nat.min_eq_left hused, Nat.sub_zero, Bool.not_false, List.filter_true]
  exact List.length_range'

/-- The flag that qzf gives of slot i after the b-th unclaimed one. -/
def zeroFlag (s : State) (k : Nat) (n : BitVec 3) (b i : Nat) : Bool :=
  let r := s.ring k n
  let slot := (r.head + BitVec.ofNat 32 (b + i)).toNat
  decide (b + i < r.used) && !slotOpen s r slot && slotFlag s n slot

section
variable {n : BitVec 3}

theorem qzf_exec : ∃ bits : Dword, exec (.qzf x n y) s = vguard (queueName s (.ring n)) (vdone (s.setX x bits)) s ∧
    ∀ i, i < 64 → bits.getLsbD i = zeroFlag s k n ((readX (s.strand k).x y).toNat + s.claimsElsewhere k (.ring n)) i := by
  refine ⟨_, exec_qzf, fun i hi => ?_⟩
  rw [← State.x_strand h, ← State.key_strand h]
  refine (getLsbD_forN (flag := zeroFlag s s.key n ((s.x y).toNat + s.claimsElsewhere s.key (.ring n))) (fun m v i hi => ?_) 64 hi).trans (by rw [decide_eq_true hi, Bool.true_and])
  show (if zeroFlag s s.key n ((s.x y).toNat + s.claimsElsewhere s.key (.ring n)) m then v ||| BitVec.ofNat 64 (1 <<< m) else v).getLsbD i = _
  split
  next hflag => rw [BitVec.getLsbD_or, getLsbD_one_shiftLeft m hi, hflag, Bool.and_true]
  next hflag => rw [Bool.eq_false_iff.2 hflag, Bool.and_false, Bool.or_false]
theorem qzf_undeclared (hd : s.ringDeclared k n.toNat = false) :
    Runs (.qzf x n y) s (fun t => t = raise s ⟨.ringFault, BitVec.ofNat 64 n.toNat, 0⟩) := by
  obtain ⟨bits, hexec, -⟩ := qzf_exec h (x := x) (y := y) (n := n)
  exact vguard_faults hexec (queueName_undeclared h hd)
theorem qzf_answers (hname : queueName s (.ring n) = .ok ()) : ∃ bits : Dword,
    Runs (.qzf x n y) s (StrandBecomes s k { (s.strand k).gives x bits with vstart := 0 }) ∧
    ∀ i, i < 64 → bits.getLsbD i = zeroFlag s k n ((readX (s.strand k).x y).toNat + s.claimsElsewhere k (.ring n)) i := by
  obtain ⟨bits, hexec, hbits⟩ := qzf_exec h (x := x) (y := y) (n := n)
  exact ⟨bits, ⟨_, vguard_completes hexec hname, vdone_gives h ..⟩, hbits⟩
/-- Outside a chrysalis a slot has landed where no write of it is on its way, and its flag is the ring's. -/
theorem slot_outside_chrysalis (ht : s.specTask k = none) (c : Nat) :
    (slotOpen s (s.ring k n) c = false ↔ sfind (s.ring k n).unlanded c = none) ∧
    (slotFlag s n c = true ↔ c % (s.ring k n).slots ∈ (s.ring k n).zero) := by
  constructor
  · simp only [slotOpen, State.chrysHolder, State.key_strand h, ht]
    cases sfind (s.ring k n).unlanded c <;> simp
  · simp only [slotFlag, State.key_strand h, ht, List.contains_iff_mem]
end
end

/-! ## The statement -/

/-- Settles O37: each instruction is a check, and an effect or an outcome of the check, as the lemmas above say. -/
theorem queueResult : Obligations.QueueResult := by
  intro s k ring relay q v x y h p e g n vl image bytes done r waits named Faults
  have hdone : ∀ {t : State}, t.actor = .strand k → vdone t = done t := fun ht => vdone_eq ht
  refine ⟨fun hd => ?undeclared, fun ht => ?solo, fun hd hf => qcfg_waits h hd hf, fun hd hf => ?configured, fun hn hname => ?push,
    fun hn ht hfull => qpush_relay_full h hn ht hfull, fun hn ht hroom => ?relay, fun hn hname hready => qpop_waits h hn hname hready,
    fun r hn hname hready => qpop_traps h hn hname hready, fun hn hname hreads => qpop_pops h hn hname hreads, fun hname => ?wait, fun hname => ?flags⟩
  case undeclared =>
    have hname := queueName_undeclared h hd
    exact ⟨qcfg_undeclared h hd, fun hn => ⟨qpush_ring_unnamed h hn hname, qpop_unnamed h hn hname⟩, qwait_unnamed h hname, qzf_undeclared h hd⟩
  case solo => exact ⟨fun hn => ⟨qpush_relay_solo h hn ht, qpop_unnamed h hn (queueName_solo h ht)⟩, qwait_unnamed h (queueName_solo h ht)⟩
  case configured =>
    have hring : ∀ t : State, (done t).ring k ring = t.ring k ring := fun t => by
      rw [State.ring_upd (f := Strand.onward) _ k k ring (fun _ => rfl) fun _ => rfl,
        State.ring_upd (f := fun p => { p with vstart := 0 }) t k k ring (fun _ => rfl) fun _ => rfl]
    have hgeom : (ringReg ring 1) = BitVec.ofNat 12 (0x41 + 4 * ring.toNat) := congrArg (BitVec.ofNat 12) (by omega)
    refine ⟨_, (qcfg_configures h hd hf).trans (congrArg _ (hdone ((ringConfigured_actor ..).trans h))), ?_, ?_⟩
    · rw [← hgeom]; rfl
    · rw [hring, ringConfigured_ring]
      exact ⟨rfl, rfl, rfl, rfl, rfl, ringConfigured_bufZero s k ring (readX p.x x) (readX p.x y)⟩
  case push =>
    exact ⟨fun hb => qpush_ring_tooLarge h hn hname hb, fun hb hfull => qpush_ring_full h hn hname hb hfull, fun hb hroom =>
      runs_eq ((qpush_ring_room h hn hname hb hroom).trans (congrArg _ (hdone ((ringPushed_actor ..).trans h))))⟩
  case relay => exact runs_eq ((qpush_relay_room h hn ht hroom).trans (congrArg _ (hdone h)))
  case wait =>
    refine ⟨qwait_answers h hname, qwait_waits h hname, ?_⟩
    cases q with
    | ring n => exact ⟨readable_ring_room h, fun hc hl hu => readable_ring_landed h hc hl (hu.trans_eq (readable_ring_room h))⟩
    | relay n => exact ⟨rfl, fun _ => by simp only [readable, State.key_strand h]⟩
  case flags =>
    obtain ⟨bits, hruns, hbits⟩ := qzf_answers h hname (x := x) (y := y)
    refine ⟨bits, hruns, fun i hi => ⟨?_, fun ht => slot_outside_chrysalis h ht _⟩⟩
    rw [hbits i hi, zeroFlag]
    simp only [Bool.and_eq_true, decide_eq_true_eq, Bool.not_eq_true', and_assoc]
    rfl

end Sys2Proof.Machine
end

section
/-! Pre-emption, heartbeats, run times, the executive watchdog and KCMD (R482, R483, R492 to R497): lemmas for the statement StopEvents,
and its proof. -/

namespace Sys2Proof.Machine
open Sys2Proof

/-! ## PREEMPT (R482, R483) -/

section
variable {s u : State} {k : Nat} {z : Unit}

theorem preempt_stops (hr : (s.strand k).status = .running) (ha : saveAreaOk s k = true) :
    preempt s k = s.upd k (fun t => { t with status := .stopping }) := if_pos ⟨hr, ha⟩
theorem preempt_idle (h : (s.strand k).status ≠ .running ∨ saveAreaOk s k = false) : preempt s k = s :=
  if_neg fun ⟨hr, ha⟩ => h.elim (· hr) (fun hf => by rw [hf] at ha; cases ha)
theorem strand_preempt_of_ne (s : State) {j : Nat} (h : j ≠ k) : (preempt s k).strand j = s.strand j := by
  unfold preempt
  rw [apply_ite (State.strand · j), State.strand_upd_of_ne s _ h, ite_self]
theorem strand_foldl_preempt_of_notMem {l : List Nat} {j : Nat} (h : j ∉ l) (s : State) : (l.foldl preempt s).strand j = s.strand j := by
  induction l generalizing s with
  | nil => rfl
  | cons i l ih =>
    obtain ⟨hi, hl⟩ := List.ne_and_not_mem_of_not_mem_cons h
    exact (ih hl _).trans (strand_preempt_of_ne s hi)

/-! ## A STOPPING strand stops (R483, R497) -/

/-- The strand's group belongs to an ended kernel. -/
def OfEnded (s : State) (k : Nat) : Prop := ∃ g n, s.groupOf k = some g ∧ sfind s.kernels g.kernel = some n ∧ n.state = .ending
/-- The strand is STOPPING and stands at a boundary at which it is saved. -/
def StopsHere (s : State) (k : Nat) : Prop :=
  (s.strand k).status = .stopping ∧ (s.strand k).level = .user ∧ (s.strand k).ending = false ∧ (s.coreRegs (k / 3)).halted = false ∧
  (∀ v, fxEnv s k = some v → v.inv.stop = none)
/-- A STOPPING strand of an ended kernel can be stopped now. -/
def CanStop (s : State) (k : Nat) : Prop :=
  (s.coreRegs (k / 3)).fenced = true ∨ ((s.strand k).level = .user ∧ (s.coreRegs (k / 3)).halted = false)

theorem stopsHere_iff : stopsHere s k = true ↔ StopsHere s k := by
  have nostop : (fxEnv s k).any (fun v => v.inv.stop.isSome) = false ↔ ∀ v, fxEnv s k = some v → v.inv.stop = none := by
    cases fxEnv s k <;> simp
  simp [stopsHere, StopsHere, coreOf, and_assoc, nostop]
theorem stopsNow_iff (hs : (s.strand k).status = .stopping) : stopsNow s k = true ↔ CanStop s k := by
  simp [stopsNow, CanStop, coreOf, hs]
theorem endedKernel_of_ended {g : Group} {n : Kernel} (hg : s.groupOf k = some g) (hn : sfind s.kernels g.kernel = some n)
    (he : n.state = .ending) : endedKernel s k = some g.kernel := by
  simp [endedKernel, hg, hn, he]
theorem endedKernel_of_not (h : ¬OfEnded s k) : endedKernel s k = none := by
  unfold endedKernel
  cases hg : s.groupOf k with
  | none => rfl
  | some g =>
    refine if_neg fun ha => ?_
    obtain ⟨n, hn, he⟩ := (Option.any_eq_true _ _).1 ha
    exact h ⟨g, n, hg, hn, by simpa using he⟩

theorem execPreemptSaveComplete_ended {g : Group} {n : Kernel} (hg : s.groupOf k = some g) (hn : sfind s.kernels g.kernel = some n)
    (he : n.state = .ending) (hs : (s.strand k).status = .stopping) (hc : CanStop s k) :
    execPreemptSaveComplete k s = .next (stopKernel s g.kernel) := by
  rw [execPreemptSaveComplete, if_pos ⟨hs, (stopsNow_iff hs).2 hc⟩, endedKernel_of_ended hg hn he]
/-- What is not stopped with its kernel stops at its own boundary, or not yet. -/
theorem execPreemptSaveComplete_own (h : (s.strand k).status ≠ .stopping ∨ ¬CanStop s k ∨ ¬OfEnded s k) :
    execPreemptSaveComplete k s = .next (if stopsHere s k = true then
      match saveArea k (stopStrand (deliverUi s k) k) with
      | .ok _ s' => s'.upd k (fun t => { t with status := .saved })
      | .error _ s' => keepRequests s s' else s) := by
  have unended : (if (s.strand k).status = .stopping ∧ stopsNow s k = true then endedKernel s k else none) = none := by
    split
    case isTrue hc => exact endedKernel_of_not ((h.resolve_left (· hc.1)).resolve_left (· ((stopsNow_iff hc.1).1 hc.2)))
    case isFalse => rfl
  simp only [execPreemptSaveComplete, unended]
  cases stopsHere s k <;> rfl
theorem execPreemptSaveComplete_idle (h : (s.strand k).status ≠ .stopping ∨ ¬CanStop s k ∨ ¬OfEnded s k) (hh : ¬StopsHere s k) :
    execPreemptSaveComplete k s = .next s := by
  rw [execPreemptSaveComplete_own h, if_neg (mt stopsHere_iff.1 hh)]
theorem execPreemptSaveComplete_saved (h : ¬OfEnded s k) (hh : StopsHere s k) (hu : saveArea k (stopStrand (deliverUi s k) k) = .ok z u) :
    execPreemptSaveComplete k s = .next (u.upd k (fun t => { t with status := .saved })) := by
  rw [execPreemptSaveComplete_own (.inr (.inr h)), if_pos (stopsHere_iff.2 hh), hu]
/-- A strand that stops here can be stopped now. -/
theorem StopsHere.canStop (h : StopsHere s k) : CanStop s k := by
  obtain ⟨-, hu, -, hh, -⟩ := h
  exact .inr ⟨hu, hh⟩

/-! ## What a strand that stops leaves of its instruction (R190) -/

/-- A stopped strand with no invocation: its record, without waits, links and watches. -/
def Strand.stopped (t : Strand) : Strand :=
  { t.recordChain with
    wait := {}, hold := none, links := [], watch := [], replay := none
    chan := t.chan.map (fun (c : Channel) => { c with pending := c.pending.map Transfer.cutBack }) }
theorem strand_stopStrand (h : fxEnv s k = none) : (stopStrand s k).strand k = (s.strand k).stopped := by
  rw [stopStrand, h]
  exact State.strand_upd_self _ k _
variable {t : Strand}
theorem recordChain_keeps (t : Strand) : t.recordChain.x = t.x ∧ t.recordChain.m = t.m := by
  unfold Strand.recordChain
  split
  · exact ⟨rfl, rfl⟩
  · dsimp only
    split <;> exact ⟨rfl, rfl⟩
theorem recordChain_replayed {c : Chain} {i : Nat} (hc : t.chain = some c) (hi : t.chainEntry = some i) :
    t.recordChain.e.epc = c.pc ∧ t.recordChain.e.chainPc = t.e.chainPc ∧ t.recordChain.vl = c.vl ∧ t.recordChain.vtype = c.vtype := by
  rw [Strand.recordChain, hc, hi]
  exact ⟨rfl, rfl, rfl, rfl⟩
theorem recordChain_vl (hc : t.chain = none) : t.recordChain.vl = t.vl ∧ t.recordChain.vtype = t.vtype := by
  rw [Strand.recordChain, hc]
  dsimp only
  split <;> exact ⟨rfl, rfl⟩
theorem recordChain_unissued (hc : t.chain = none) (hi : t.wait.issued = false) :
    t.recordChain.e.epc = (if t.wait.past = true then t.pc + 4 else t.pc) ∧ t.recordChain.e.chainPc = Vector.replicate 4 0 := by
  rw [Strand.recordChain, hc]
  dsimp only
  rw [hi]
  exact ⟨rfl, rfl⟩
theorem chainWord_eq (start vl : BitVec 13) (vt : BitVec 8) :
    chainWord start vl vt = BitVec.ofNat 64 (start.toNat + 2 ^ 16 * vl.toNat + 2 ^ 32 * vt.toNat) := by
  refine BitVec.eq_of_toNat_eq ?_
  have hs := start.isLt
  have hl := vl.isLt
  have ht := vt.isLt
  simp only [chainWord, toNat_append_add, BitVec.toNat_ofNat, show (0 : BitVec 24).toNat = 0 from rfl, show (0 : BitVec 3).toNat = 0 from rfl]
  omega
theorem recordChain_issued (hc : t.chain = none) (hi : t.wait.issued = true) :
    t.recordChain.e.epc = t.pc + 4 ∧ t.recordChain.e.chainPc.toList = [t.pc ||| 1, 0, 0, 0] ∧
    t.recordChain.e.chainSt.getD 0 0 = BitVec.ofNat 64 (t.vstart.toNat + 2 ^ 16 * t.vl.toNat + 2 ^ 32 * t.vtype.toNat) := by
  rw [Strand.recordChain, hc, ← chainWord_eq]
  dsimp only
  rw [hi]
  exact ⟨rfl, rfl, rfl⟩
end

/-! ## RESTORE (R483) -/

section
variable {s u : State} {k : Nat} {z : Unit}

theorem restore_idle (h : (s.strand k).status ≠ .saved) (h' : (s.strand k).status ≠ .restoring) : restore s k = s := if_pos ⟨h, h'⟩
theorem restore_loads (h : (s.strand k).status = .saved ∨ (s.strand k).status = .restoring) :
    ¬((s.strand k).status ≠ .saved ∧ (s.strand k).status ≠ .restoring) := by
  rwa [← or_iff_not_and_not]
theorem restore_waits {e : Stop} (h : (s.strand k).status = .saved ∨ (s.strand k).status = .restoring) (hl : loadArea k s = .error e u) :
    restore s k = (keepRequests s u).upd k (fun t => { t with status := .restoring }) := by
  rw [restore, if_neg (restore_loads h), hl]
/-- The strand of a save area that is read, at user level where it goes on. -/
def Strand.returned (t : Strand) : Strand := { t with status := .running, level := .user, pc := t.e.epc &&& ~~~3, wait := {} }
theorem restore_returns (h : (s.strand k).status = .saved ∨ (s.strand k).status = .restoring) (hl : loadArea k s = .ok z u)
    (hs : (u.strand k).squashed = false) (ht : (u.strand k).task = none) :
    restore s k = u.upd k (fun t => t.returned.replayChain) := by
  rw [restore, if_neg (restore_loads h), hl]
  dsimp only
  generalize hv : u.upd k _ = v
  have strand : v.strand k = (u.strand k).returned := hv ▸ State.strand_upd_self ..
  rw [strand, if_neg (by rw [Strand.returned, hs]; exact Bool.false_ne_true), show (u.strand k).returned.task = none from ht, ← hv]
  exact State.upd_upd ..
end

/-! ## The end of a kernel without groups (R497) -/

/-- No group is of the kernel. -/
def NoGroupOf (key : Nat) (s : State) : Prop := ∀ g ∈ s.groups, g.2.kernel ≠ key
/-- From s to t a kernel without groups has none and stays as it is. -/
def Spares (key : Nat) (s t : State) : Prop := NoGroupOf key s → NoGroupOf key t ∧ sfind t.kernels key = sfind s.kernels key
namespace Spares
variable {key : Nat} {s t u : State}
theorem of_eq (hg : t.groups = s.groups) (hk : t.kernels = s.kernels) : Spares key s t := fun h => ⟨by rwa [NoGroupOf, hg], by rw [hk]⟩
theorem refl (s : State) : Spares key s s := of_eq rfl rfl
theorem upd (s : State) (k : Nat) (f : Strand → Strand) : Spares key s (s.upd k f) := of_eq rfl rfl
theorem trans (h : Spares key s t) (g : Spares key t u) : Spares key s u := fun hs => by
  obtain ⟨ht, hk⟩ := h hs
  obtain ⟨hu, hk'⟩ := g ht
  exact ⟨hu, hk'.trans hk⟩
theorem foldl {α : Type} (f : State → α → State) (h : ∀ s a, Spares key s (f s a)) (l : List α) (s : State) : Spares key s (l.foldl f s) := by
  induction l generalizing s with
  | nil => exact refl s
  | cons a t ih => exact (h s a).trans (ih (f s a))
end Spares

section
variable {key : Nat}

/-- A barrier operation leaves every group with its kernel. -/
theorem setBars_spares (s : State) (gs : List Nat) (n : Nat) (f : Barrier → Barrier) : Spares key s (setBars s gs n f) := fun h => by
  refine ⟨fun g hg => ?_, rfl⟩
  obtain ⟨p, hp, rfl⟩ := List.mem_map.1 hg
  have hk := h p hp
  split <;> exact hk
/-- The kernel of a group makes progress, which is another one. -/
theorem groupProgress_spares (s : State) (gk : Nat) : Spares key s (match sfind s.groups gk with
    | some g => kernelProgress s g.kernel
    | none => s) := fun h => by
  split
  case h_2 => exact ⟨h, rfl⟩
  case h_1 g hg =>
    unfold kernelProgress
    split
    · exact ⟨h, by rw [sfind_sput, if_neg (h _ (mem_of_sfind hg)).symm]⟩
    · exact ⟨h, rfl⟩
theorem phaseSeen_spares (s : State) (gk n : Nat) : Spares key s (phaseSeen s gk n) := by
  unfold phaseSeen
  split
  · exact .refl s
  · exact .foldl _ (fun t k => .upd t k _) _ s
theorem arriveAt_spares (s : State) (gk n : Nat) (wide outside : Bool) : Spares key s (arriveAt s gk n wide outside) := by
  have bars := setBars_spares (key := key) s (barMembers s gk n) n (·.arrival wide outside)
  unfold arriveAt
  dsimp only
  split
  case isFalse => exact bars
  case isTrue =>
    split
    · exact bars.trans (groupProgress_spares _ gk)
    · exact (bars.trans (groupProgress_spares _ gk)).trans (phaseSeen_spares _ _ _)
theorem retireOne_spares (s : State) (k : Nat) (n : BitVec 2) (x : Transfer) : Spares key s (retireOne s k n x) := by
  unfold retireOne
  dsimp only
  split
  · exact .trans (.upd s k _) (arriveAt_spares _ _ _ _ _)
  · exact .upd s k _
theorem retireRun_spares (k : Nat) (n : BitVec 2) (l : List Transfer) (s : State) : Spares key s (retireRun k n l s) := by
  induction l generalizing s with
  | nil => exact .refl s
  | cons x l ih =>
    rw [retireRun]
    split
    · exact (retireOne_spares s k n x).trans (ih _)
    · exact .refl s
theorem leaveSpec_spares (s : State) (j : Nat) : Spares key s (leaveSpec true s j) := by
  unfold leaveSpec
  refine .foldl _ (fun s k => .trans (.upd s k (fun t => { t with chan := t.chan.map (Channel.leaveSpec true j) })) ?_) _ _
  exact .foldl (fun s n => retire s k (BitVec.ofNat 2 n)) (fun t n => retireRun_spares k _ _ t) _ _
theorem dropTasks_spares (s : State) (gone : Nat) : Spares key s (dropTasks s gone) := by
  refine .trans (.foldl (fun s j => slotsLeave true (leaveSpec true s j) j) (fun t j => ?_) _ s) (.of_eq rfl rfl)
  exact (leaveSpec_spares t j).trans (.of_eq rfl rfl)
end

section
variable {s : State} {key : Nat} {n : Kernel} {st : Status}

/-- A kernel that ends, with its status. -/
def Kernel.endedAs (n : Kernel) (st : Status) : Kernel := { n with state := .ending, status := st, toPlace := [], waitSince := [] }
/-- The state with the kernel's end noted. -/
def noteEnd (s : State) (key : Nat) (n : Kernel) (st : Status) : State := { s with kernels := sput s.kernels key (n.endedAs st) }
theorem stopKernel_noGroup (h : NoGroupOf key s) : stopKernel s key = s := by
  rw [stopKernel, List.filter_eq_nil_iff.2 (fun g hg => by simpa using h g hg)]
  rfl
theorem endKernel_ending (hn : sfind s.kernels key = some n) (he : n.state = .ending) : endKernel s key st = s := by
  rw [endKernel, hn]
  exact if_pos he
/-- The end of a kernel that has no groups discards its tasks, and stops nothing else. -/
theorem endKernel_noGroup (hn : sfind s.kernels key = some n) (he : n.state ≠ .ending) (h : NoGroupOf key s) :
    endKernel s key st = { dropTasks (noteEnd s key n st) key with
      scheds := (dropTasks (noteEnd s key n st) key).scheds.map (fun (p : Nat × Sched) => (p.1, { p.2 with stops := nsErase p.2.stops key })) } := by
  have stop : stopKernel (dropTasks (noteEnd s key n st) key) key = dropTasks (noteEnd s key n st) key :=
    stopKernel_noGroup (dropTasks_spares (noteEnd s key n st) key h).1
  rw [← stop, endKernel, hn]
  exact if_neg he
theorem endKernel_noGroup_facts (hn : sfind s.kernels key = some n) (he : n.state ≠ .ending) (h : NoGroupOf key s) :
    sfind (endKernel s key st).kernels key = some (n.endedAs st) ∧ (∀ x ∈ (endKernel s key st).tasks, x.2.kernel ≠ key) ∧
    (endKernel s key st).mem = s.mem ∧ ((∀ x ∈ s.tasks, x.2.kernel ≠ key) → (endKernel s key st).strands = s.strands) := by
  rw [endKernel_noGroup hn he h]
  refine ⟨?_, dropKernelWork_tasks _ key, (dropTasks_work _ key).mem, fun ht => dropKernelWork_noTask (s := noteEnd s key n st) ht⟩
  exact (dropTasks_spares (noteEnd s key n st) key h).2.trans (by rw [noteEnd, sfind_sput, if_pos rfl])
end

/-! ## Heartbeats and run times (R492, R495) -/

section
variable {s : State} {key : Nat} {n : Kernel}

/-- The time of a kernel counts: its image is checked, and it runs or waits. -/
def Kernel.Counts (n : Kernel) : Prop := n.checked = true ∧ (n.state = .running ∨ n.state = .waiting)
/-- The heartbeat interval of a persistent kernel has passed without progress. -/
def Kernel.HeartbeatDue (n : Kernel) : Prop := n.res.persist = true ∧ n.Counts ∧ 1000 * n.res.hbeatUs ≤ n.idleNs
/-- The longest run time of a kernel in milliseconds. -/
def Kernel.limitMs (n : Kernel) : Nat := if n.res.maxRunMs = 0 then 10000 else n.res.maxRunMs
/-- A kernel that is not persistent has run too long. -/
def Kernel.RuntimeDue (n : Kernel) : Prop := n.res.persist = false ∧ n.Counts ∧ 1000000 * n.limitMs < n.runNs

theorem Kernel.heartbeatDue_iff : n.HeartbeatDue ↔
    ¬((!n.res.persist) = true ∨ (!n.checked) = true ∨ (n.state ≠ .running ∧ n.state ≠ .waiting) ∨ n.idleNs < 1000 * n.res.hbeatUs) := by
  simp only [HeartbeatDue, Counts, Bool.not_eq_true', not_or, Bool.not_eq_false, ne_eq, ← or_iff_not_and_not, not_lt, and_assoc]
theorem Kernel.runtimeDue_iff : n.RuntimeDue ↔
    ¬(n.res.persist = true ∨ (!n.checked) = true ∨ (n.state ≠ .running ∧ n.state ≠ .waiting) ∨ n.runNs ≤ 1000000 * n.limitMs) := by
  simp only [RuntimeDue, Counts, Bool.not_eq_true', not_or, Bool.not_eq_true, Bool.not_eq_false, ne_eq, ← or_iff_not_and_not, not_le, and_assoc]

theorem execHeartbeatExpire_none (h : sfind s.kernels key = none) : execHeartbeatExpire key s = .next s := by
  rw [execHeartbeatExpire, h]
theorem execHeartbeatExpire_idle (hn : sfind s.kernels key = some n) (h : ¬n.HeartbeatDue) : execHeartbeatExpire key s = .next s := by
  rw [execHeartbeatExpire, hn]
  exact congrArg _ (if_pos (not_not.1 (mt Kernel.heartbeatDue_iff.2 h)))
theorem execHeartbeatExpire_ends (hn : sfind s.kernels key = some n) (h : n.HeartbeatDue)
    (ha : ∃ j ∈ kernelStrands s key, saveAreaOk s j = false) :
    execHeartbeatExpire key s = .next (hostEvent (endKernel s key .hungEnded) n.evvec) := by
  rw [execHeartbeatExpire, hn]
  exact congrArg _ ((if_neg (Kernel.heartbeatDue_iff.1 h)).trans (if_pos (by simpa using ha)))
/-- A kernel whose strands are pre-empted, suspended-hung from now on. -/
def suspended (s : State) (key : Nat) (n : Kernel) : State :=
  let t := (kernelStrands s key).foldl preempt s
  hostEvent { t with kernels := sput t.kernels key { n with state := .suspendedHung, hungAt := t.now } } n.evvec
theorem execHeartbeatExpire_suspends (hn : sfind s.kernels key = some n) (h : n.HeartbeatDue)
    (ha : ∀ j ∈ kernelStrands s key, saveAreaOk s j = true) : execHeartbeatExpire key s = .next (suspended s key n) := by
  rw [execHeartbeatExpire, hn]
  exact congrArg _ ((if_neg (Kernel.heartbeatDue_iff.1 h)).trans (if_neg (by simpa using ha)))
/-- Nothing but strands changes where the strands of a list are pre-empted. -/
theorem foldl_preempt_frame (l : List Nat) (s : State) : l.foldl preempt s = { s with strands := (l.foldl preempt s).strands } := by
  have h := foldl_preempt_keeps (fun t => { t with strands := s.strands }) (fun _ _ _ => rfl) l s
  generalize l.foldl preempt s = t at h
  exact congrArg (fun u : State => { u with strands := t.strands }) h
theorem suspended_facts (s : State) (key : Nat) (n : Kernel) : let t := suspended s key n
    sfind t.kernels key = some { n with state := .suspendedHung, hungAt := s.now } ∧ t.out = s.out ++ [Outbound.hostEvent n.evvec] ∧
    t.strands = ((kernelStrands s key).foldl preempt s).strands ∧ (∀ j, j ∉ kernelStrands s key → t.strand j = s.strand j) ∧
    t.mem = s.mem ∧ t.groups = s.groups := by
  have strands : ∀ j, j ∉ kernelStrands s key → ((kernelStrands s key).foldl preempt s).strand j = s.strand j :=
    fun j hj => strand_foldl_preempt_of_notMem hj s
  have frame := foldl_preempt_frame (kernelStrands s key) s
  unfold suspended
  generalize (kernelStrands s key).foldl preempt s = t at frame strands
  refine ⟨?_, by rw [frame]; rfl, rfl, strands, by rw [frame]; rfl, by rw [frame]; rfl⟩
  rw [frame]
  exact (sfind_sput ..).trans (if_pos rfl)

theorem execRuntimeExpire_none (h : sfind s.kernels key = none) : execRuntimeExpire key s = .next s := by
  rw [execRuntimeExpire, h]
theorem execRuntimeExpire_idle (hn : sfind s.kernels key = some n) (h : ¬n.RuntimeDue) : execRuntimeExpire key s = .next s := by
  rw [execRuntimeExpire, hn]
  exact congrArg _ (if_pos (not_not.1 (mt Kernel.runtimeDue_iff.2 h)))
theorem execRuntimeExpire_ends (hn : sfind s.kernels key = some n) (h : n.RuntimeDue) :
    execRuntimeExpire key s = .next (endKernel s key .runtime) := by
  rw [execRuntimeExpire, hn]
  exact congrArg _ (if_neg (Kernel.runtimeDue_iff.1 h))
end

/-! ## The executive watchdog (R496) -/

section
variable {s : State} {k : Nat}

/-- The strand has spent more than FEWD.US at executive level. -/
def Late (s : State) (k : Nat) : Prop := let p := s.strand k
  p.level = .executive ∧ p.f.fewd ≠ 0 ∧ p.execSince + 1000 * p.f.fewd.toNat < s.now
theorem late_iff : Late s k ∧ (s.strand k).works = true ∧ (s.coreRegs (k / 3)).halted = false ↔
    ¬((s.strand k).level ≠ .executive ∨ (s.strand k).f.fewd = 0 ∨ s.now ≤ (s.strand k).execSince + 1000 * (s.strand k).f.fewd.toNat ∨
      (!(s.strand k).works) = true ∨ (s.coreRegs (coreOf k)).halted = true) := by
  simp only [Late, not_or, ne_eq, not_not, not_le, Bool.not_eq_true', Bool.not_eq_false, Bool.not_eq_true, coreOf, and_assoc]
theorem execExecutiveWatchdog_idle (h : ¬Late s k) : execExecutiveWatchdog k s = .next s :=
  congrArg _ (if_pos (not_not.1 (mt late_iff.2 fun hl => h hl.1)))
theorem execExecutiveWatchdog_takes (h : Late s k) (hw : (s.strand k).works = true) (hh : (s.coreRegs (k / 3)).halted = false) :
    execExecutiveWatchdog k s = .next (enterFirmware s k ⟨.watchdog, (s.strand k).pc, 0⟩) :=
  congrArg _ (if_neg (late_iff.1 ⟨h, hw, hh⟩))
theorem enterFirmware_facts (s : State) (k : Nat) (x : TrapInfo) : let p := s.strand k
    let t := enterFirmware s k x
    (t.strand k).level = .firmware ∧ (t.strand k).f.pc = p.pc ∧ (t.strand k).f.cause = x.cause.code ∧ (t.strand k).f.ppriv = p.level.code ∧
    (t.strand k).pc = p.f.vec ++ (0 : BitVec 2) ∧ (t.strand k).x = p.x ∧ (∀ j, j ≠ k → t.strand j = s.strand j) ∧ { t with strands := s.strands } = s := by
  intro p t
  refine ⟨?_, ?_, ?_, ?_, ?_, ?_, fun j hj => State.strand_upd_of_ne s _ hj, rfl⟩ <;> simp only [t, p, enterFirmware, State.strand_upd_self]
end

/-! ## KCMD (R493, R494) -/

section
variable {s : State} {self : Option Nat} {key : Nat} {n : Kernel}

theorem kernelCommand_none (h : commandTarget s self = none) (cmd : Nat) : kernelCommand s cmd self = s := by
  rw [kernelCommand, h]
theorem kernelCommand_resume_idle (h : commandTarget s self = some (key, n)) (hn : n.state ≠ .suspendedHung) : kernelCommand s 1 self = s := by
  rw [kernelCommand, h]
  exact if_neg hn
theorem kernelCommand_end_idle (h : commandTarget s self = some (key, n)) (hn : n.state ≠ .suspendedHung) : kernelCommand s 2 self = s := by
  rw [kernelCommand, h]
  exact if_neg hn
theorem kernelCommand_end (h : commandTarget s self = some (key, n)) (hn : n.state = .suspendedHung) :
    kernelCommand s 2 self = endKernel s key .hungEnded := by
  rw [kernelCommand, h]
  exact if_pos hn
theorem kernelCommand_cancel (h : commandTarget s self = some (key, n)) :
    kernelCommand s 3 self = (endKernel s key .cancelled).setStatus key .cancelled := by
  rw [kernelCommand, h]
  rfl
theorem kernelCommand_fault (h : commandTarget s self = some (key, n)) :
    kernelCommand s 4 self = (endKernel s key .faulted).setStatus key .faulted := by
  rw [kernelCommand, h]
  rfl
/-- A kernel that goes on: it runs where a group of it is placed, and waits otherwise. -/
def Kernel.resumed (s : State) (key : Nat) (n : Kernel) : Kernel :=
  { n with state := if s.groups.any (fun p => p.2.kernel == key) then .running else .waiting, idleNs := 0 }
/-- The state with the kernel's going on noted. -/
def noteResumed (s : State) (key : Nat) (n : Kernel) : State := { s with kernels := sput s.kernels key (n.resumed s key) }
theorem kernelCommand_resume (h : commandTarget s self = some (key, n)) (hn : n.state = .suspendedHung) : kernelCommand s 1 self =
    n.toPlace.foldl (fun s p => s.setOff (.place p.1)) ((kernelStrands s key).foldl restore (noteResumed s key n)) := by
  rw [kernelCommand, h]
  exact if_pos hn
theorem sfind_noteResumed (s : State) (key : Nat) (n : Kernel) (j : Nat) :
    sfind (noteResumed s key n).kernels j = if j = key then some { n with
      state := if ∃ g ∈ s.groups, g.2.kernel = key then .running else .waiting, idleNs := 0 } else sfind s.kernels j := by
  have placed : s.groups.any (fun p => p.2.kernel == key) = decide (∃ g ∈ s.groups, g.2.kernel = key) := by
    rw [Bool.eq_iff_iff, List.any_eq_true, decide_eq_true_iff]
    simp only [beq_iff_eq]
  simp only [noteResumed, sfind_sput, Kernel.resumed, placed, decide_eq_true_eq]
theorem foldl_setOff (f : Nat × (Nat × Nat) → Turn) (l : List (Nat × (Nat × Nat))) (s : State) :
    l.foldl (fun s q => s.setOff (f q)) s = { s with effects := s.effects ++ l.map f } := by
  induction l generalizing s with
  | nil => simp
  | cons q l ih => rw [List.foldl_cons, ih]; simp [State.setOff]
theorem sfind_setStatus (hn : sfind s.kernels key = some n) (st : Status) :
    sfind (s.setStatus key st).kernels key = some { n with status := st } ∧ { s.setStatus key st with kernels := s.kernels } = s := by
  rw [State.setStatus, hn]
  exact ⟨(sfind_sput ..).trans (if_pos rfl), rfl⟩
end

/-! ## StopEvents -/

theorem next_of_eq {t u : State} (h : t = u) : (.next t : Out) = .next u := congrArg _ h

section
variable (s : State) (k key : Nat) (self : Option Nat)

/-- A STOPPING strand at its boundary, by its kernel (R483, R497). -/
theorem preemptSaveComplete_runs : let p := s.strand k
    (¬OfEnded s k → ¬StopsHere s k → Runs (.preemptSaveComplete k) s (fun u => u = s)) ∧
    (OfEnded s k → p.status ≠ .stopping ∨ ¬CanStop s k → Runs (.preemptSaveComplete k) s (fun u => u = s)) ∧
    (∀ g n, s.groupOf k = some g → sfind s.kernels g.kernel = some n → n.state = .ending → p.status = .stopping → CanStop s k →
      Runs (.preemptSaveComplete k) s (fun u => u = stopKernel s g.kernel)) ∧
    (¬OfEnded s k → StopsHere s k → ∀ z u, saveArea k (stopStrand (deliverUi s k) k) = .ok z u →
      Runs (.preemptSaveComplete k) s (StrandBecomes u k { u.strand k with status := .saved })) := by
  refine ⟨fun he hs => runs_eq (execPreemptSaveComplete_idle (.inr (.inr he)) hs), fun _ hn => ?_,
    fun g n hg hn he hs hc => runs_eq (execPreemptSaveComplete_ended hg hn he hs hc),
    fun he hs z u hu => ⟨_, execPreemptSaveComplete_saved he hs hu, becomes_upd u k _⟩⟩
  refine runs_eq (execPreemptSaveComplete_idle (hn.imp_right .inl) fun hs => ?_)
  exact hn.elim (· hs.1) (· hs.canStop)
/-- What a strand that stops keeps, and its chain record (R190). -/
theorem stopStrand_record (h : fxEnv s k = none) : let p := s.strand k
    let q := (stopStrand s k).strand k
    q.links = [] ∧ q.watch = [] ∧ q.wait = {} ∧ q.x = p.x ∧ q.m = p.m ∧
    (∀ c i, p.chain = some c → p.chainEntry = some i → q.e.epc = c.pc ∧ q.e.chainPc = p.e.chainPc ∧ q.vl = c.vl ∧ q.vtype = c.vtype) ∧
    (p.chain = none → q.vl = p.vl ∧ q.vtype = p.vtype ∧
      (p.wait.issued = false → q.e.epc = (if p.wait.past = true then p.pc + 4 else p.pc) ∧ q.e.chainPc = Vector.replicate 4 0) ∧
      (p.wait.issued = true → q.e.epc = p.pc + 4 ∧ q.e.chainPc.toList = [p.pc ||| 1, 0, 0, 0] ∧
        q.e.chainSt.getD 0 0 = BitVec.ofNat 64 (p.vstart.toNat + 2 ^ 16 * p.vl.toNat + 2 ^ 32 * p.vtype.toNat))) := by
  intro p q
  have hq : q = p.stopped := strand_stopStrand h
  rw [hq]
  obtain ⟨hx, hm⟩ := recordChain_keeps p
  refine ⟨rfl, rfl, rfl, hx, hm, fun c i hc hi => recordChain_replayed hc hi, fun hc => ?_⟩
  obtain ⟨hvl, hvt⟩ := recordChain_vl hc
  exact ⟨hvl, hvt, fun hi => recordChain_unissued hc hi, fun hi => recordChain_issued hc hi⟩
/-- A strand whose save area is being read (R483). -/
theorem scmdRestore_runs : let p := s.strand k
    (p.status ≠ .saved → p.status ≠ .restoring → Runs (.scmdRestore k) s (fun u => u = s)) ∧
    (p.status = .saved ∨ p.status = .restoring → ∀ z u, loadArea k s = .error z u →
      Runs (.scmdRestore k) s (StrandBecomes (keepRequests s u) k { p with status := .restoring })) ∧
    (p.status = .saved ∨ p.status = .restoring → ∀ z u, loadArea k s = .ok z u → (u.strand k).squashed = false → (u.strand k).task = none →
      Runs (.scmdRestore k) s (StrandBecomes u k (u.strand k).returned.replayChain)) :=
  ⟨fun h h' => runs_eq (next_of_eq (restore_idle h h')),
    fun h _ u hl => ⟨_, next_of_eq (restore_waits h hl), becomes_upd (keepRequests s u) k _⟩,
    fun h _ u hl hs ht => ⟨_, next_of_eq (restore_returns h hl hs ht), becomes_upd u k (fun t => t.returned.replayChain)⟩⟩
/-- The heartbeat and the run time of a kernel (R492, R495). -/
theorem kernelTimes_run {n : Kernel} (hn : sfind s.kernels key = some n) :
    (¬n.HeartbeatDue → Runs (.heartbeatExpire key) s (fun u => u = s)) ∧
    (n.HeartbeatDue → ((∃ j ∈ kernelStrands s key, saveAreaOk s j = false) →
        Runs (.heartbeatExpire key) s (fun t => t = hostEvent (endKernel s key .hungEnded) n.evvec)) ∧
      ((∀ j ∈ kernelStrands s key, saveAreaOk s j = true) → Runs (.heartbeatExpire key) s (fun t => t = suspended s key n))) ∧
    (¬n.RuntimeDue → Runs (.runtimeExpire key) s (fun u => u = s)) ∧
    (n.RuntimeDue → Runs (.runtimeExpire key) s (fun u => u = endKernel s key .runtime)) :=
  ⟨fun h => runs_eq (execHeartbeatExpire_idle hn h),
    fun h => ⟨fun ha => runs_eq (execHeartbeatExpire_ends hn h ha), fun ha => runs_eq (execHeartbeatExpire_suspends hn h ha)⟩,
    fun h => runs_eq (execRuntimeExpire_idle hn h), fun h => runs_eq (execRuntimeExpire_ends hn h)⟩
end

/-- KCMD_RESUME where the kernel has no strands, and where its one strand is restored (R494). -/
theorem kcmdResume_runs {s : State} {self : Option Nat} {key : Nat} {n : Kernel} (h : commandTarget s self = some (key, n))
    (hn : n.state = .suspendedHung) :
    (kernelStrands s key = [] → Runs (.kcmdResume self) s (fun t =>
      sfind t.kernels key = some { n with state := if ∃ g ∈ s.groups, g.2.kernel = key then .running else .waiting, idleNs := 0 } ∧
      (∀ j, j ≠ key → sfind t.kernels j = sfind s.kernels j) ∧ t.strands = s.strands ∧ t.effects = s.effects ++ n.toPlace.map (fun q => .place q.1))) ∧
    (∀ j, kernelStrands s key = [j] → Runs (.kcmdResume self) s (fun t =>
      ∃ u, sfind u.kernels key = some { n with state := if ∃ g ∈ s.groups, g.2.kernel = key then .running else .waiting, idleNs := 0 } ∧
        { u with kernels := s.kernels } = s ∧ t = n.toPlace.foldl (fun v q => v.setOff (.place q.1)) (restore u j))) := by
  have target := (sfind_noteResumed s key n key).trans (if_pos rfl)
  refine ⟨fun hs => ⟨_, next_of_eq (kernelCommand_resume h hn), ?_⟩,
    fun j hs => ⟨_, next_of_eq (kernelCommand_resume h hn), noteResumed s key n, target, rfl, by rw [hs]; rfl⟩⟩
  rw [hs, List.foldl_nil, foldl_setOff]
  exact ⟨target, fun j hj => (sfind_noteResumed s key n j).trans (if_neg hj), rfl, rfl⟩

/-- Settles O51: each event acts in the states named for it, by what its strand or its kernel is, and is idle in the others. -/
theorem stopEvents : Obligations.StopEvents := by
  intro s k key self p Does
  obtain ⟨notYet, stays, stopsUnsaved, saved⟩ := preemptSaveComplete_runs s k
  obtain ⟨restoreIdle, restoreWaits, restored⟩ := scmdRestore_runs s k
  refine ⟨fun hr ha => ?preempt, fun h => runs_eq (next_of_eq (preempt_idle h)), ⟨notYet, stays, stopsUnsaved, saved, stopStrand_record s k⟩,
    restoreIdle, restoreWaits, restored, fun h => ⟨runs_eq (execHeartbeatExpire_none h), runs_eq (execRuntimeExpire_none h)⟩, fun n hn => ?times,
    fun n st hn he hg => ?ends, ⟨fun h => runs_eq (execExecutiveWatchdog_idle h), fun hl hw hh => ⟨_, execExecutiveWatchdog_takes hl hw hh, enterFirmware_facts s k _⟩⟩,
    fun h => ?noTarget, fun n h => ?command⟩
  case preempt => exact ⟨_, next_of_eq (preempt_stops hr ha), becomes_upd s k _⟩
  case times =>
    obtain ⟨beats, hung, runs, tooLong⟩ := kernelTimes_run s key hn
    refine ⟨beats, fun hp hc hi => ⟨(hung ⟨hp, hc, hi⟩).1, fun ha => ?_⟩, runs, fun hp hc hi => tooLong ⟨hp, hc, hi⟩⟩
    obtain ⟨t, ht, rfl⟩ := (hung ⟨hp, hc, hi⟩).2 ha
    exact ⟨_, ht, suspended_facts s key n⟩
  case ends =>
    obtain ⟨hk, facts⟩ := endKernel_noGroup_facts (st := st) hn he hg
    exact ⟨n.endedAs st, hk, rfl, rfl, rfl, rfl, facts⟩
  case noTarget =>
    have idle (cmd : Nat) := next_of_eq (kernelCommand_none h cmd)
    exact ⟨runs_eq (idle 1), runs_eq (idle 2), runs_eq (idle 3), runs_eq (idle 4)⟩
  case command =>
    refine ⟨fun hn => ⟨runs_eq (next_of_eq (kernelCommand_resume_idle h hn)), runs_eq (next_of_eq (kernelCommand_end_idle h hn))⟩,
      fun hn => runs_eq (next_of_eq (kernelCommand_end h hn)), fun hn => (kcmdResume_runs h hn).1, fun hn j hj _ => (kcmdResume_runs h hn).2 j hj,
      runs_eq (next_of_eq (kernelCommand_cancel h)), runs_eq (next_of_eq (kernelCommand_fault h)), fun hn he => ?_⟩
    refine ⟨_, next_of_eq (kernelCommand_cancel h), ?_⟩
    rw [endKernel_ending hn he]
    exact sfind_setStatus hn .cancelled

end Sys2Proof.Machine
end

section
/-! Vector integer and floating-point arithmetic (R206, R209 to R211): lemmas for the statements VectorInteger and VectorFloat, and their
proofs. -/

namespace Sys2Proof.Machine
open Sys2Proof

/-! ## An element of a source fits its width (R179, R193) -/

theorem vget_lt (s : State) (k v w i : Nat) : vget s k v w i < 2 ^ w := Nat.mod_lt _ (Nat.two_pow_pos w)
theorem Mem.readN_lt (mem : List Host.Cell) (a n : Nat) : Mem.readN mem a n < 256 ^ n := by
  induction n generalizing a with
  | zero => exact Nat.one_pos
  | succ n ih =>
    have hbyte := (Mem.read mem a).isLt
    have hrest := ih (a + 1)
    rw [Mem.readN, pow_succ]; omega
/-- A number of n bytes still is one after byte i was replaced. -/
theorem replaceByte_lt {v b i n : Nat} (hv : v < 256 ^ n) (hb : b < 256) (hi : i < n) :
    v - v / 2 ^ (8 * i) % 256 * 2 ^ (8 * i) + b * 2 ^ (8 * i) < 256 ^ n := by
  obtain ⟨m, rfl⟩ := Nat.exists_eq_add_of_lt hi
  have hsplit : 256 ^ (i + m + 1) = 256 * 2 ^ (8 * i) * 256 ^ m := by rw [pow_mul]; ring
  rw [hsplit] at hv ⊢
  generalize hp : 2 ^ (8 * i) = P at *
  have hpos : 0 < P := hp ▸ Nat.two_pow_pos _
  have hhigh : v / P / 256 < 256 ^ m := by
    rw [Nat.div_div_eq_div_mul]
    exact Nat.div_lt_of_lt_mul (by rwa [Nat.mul_comm P])
  have hlow : v % P < P := Nat.mod_lt _ (hp ▸ Nat.two_pow_pos _)
  have hv' : v - v / P % 256 * P = v / P / 256 * (256 * P) + v % P := by
    have hbytes : P * (v / P % 256) + P * (256 * (v / P / 256)) = P * (v / P) := by rw [← Nat.mul_add, Nat.mod_add_div]
    have hall : v % P + P * (v / P) = v := Nat.mod_add_div ..
    rw [show v / P / 256 * (256 * P) = P * (256 * (v / P / 256)) by ring, Nat.mul_comm (v / P % 256)]
    omega
  calc v - v / P % 256 * P + b * P = v / P / 256 * (256 * P) + (v % P + b * P) := by rw [hv', Nat.add_assoc]
    _ < v / P / 256 * (256 * P) + 256 * P := by
      have := Nat.mul_le_mul_right P (Nat.le_of_lt_succ (hb : b < 255 + 1))
      omega
    _ = (v / P / 256 + 1) * (256 * P) := by ring
    _ ≤ 256 ^ m * (256 * P) := Nat.mul_le_mul_right _ hhigh
    _ = 256 * P * 256 ^ m := Nat.mul_comm ..
theorem overlay_lt (t : Task) (place : Nat) {n v : Nat} (hv : v < 256 ^ n) : overlay t place n v < 256 ^ n := by
  refine List.foldlRecOn (motive := (· < 256 ^ n)) (upFrom 0 n) _ hv fun v hv i hi => ?_
  split
  · exact replaceByte_lt hv (BitVec.isLt _) (by have := mem_upFrom.1 hi; omega)
  · exact hv
theorem ownMem_lt (s : State) (flat n : Nat) : ownMem s flat n < 256 ^ n := by
  unfold ownMem
  split
  · exact overlay_lt _ _ (Mem.readN_lt ..)
  · exact Mem.readN_lt ..
theorem queueElem_lt (s : State) (q : Queue) (c i : Nat) {w : Nat} (hw : 8 ∣ w) : queueElem s q c w i < 2 ^ w := by
  have hpos := Nat.two_pow_pos w
  have hbytes : 256 ^ (w / 8) = 2 ^ w := by
    rw [show 256 = 2 ^ 8 from rfl, ← pow_mul, Nat.mul_div_cancel' hw]
  cases q with
  | ring n =>
    simp only [queueElem]
    split
    · exact (ownMem_lt ..).trans_eq hbytes
    · exact hpos
  | relay n =>
    simp only [queueElem]
    split
    · split
      · exact Nat.mod_lt _ hpos
      · exact hpos
    · exact hpos
theorem vaElem_lt (s : State) (va : VSrc) (i : Nat) {w : Nat} (hw : 8 ∣ w) : vaElem s va w i < 2 ^ w := by
  cases va with
  | vreg v => exact vget_lt ..
  | queue q => exact queueElem_lt _ _ _ _ hw

/-! ## Integers and their low bits (R159, R209) -/

theorem sx_modEq (w a : Nat) : sx w a ≡ a [ZMOD 2 ^ w] := by
  unfold sx bitsInt
  split
  · exact Int.modEq_iff_dvd.2 (by simp)
  · rfl
theorem wrapInt_modEq (w : Nat) (z : Int) : (wrapInt w z : Int) ≡ z [ZMOD 2 ^ w] := by
  rw [wrapInt_eq, Int.toNat_of_nonneg (Int.emod_nonneg _ (by positivity))]
  exact Int.mod_modEq ..
theorem wrapInt_congr {w : Nat} {y z : Int} (h : y ≡ z [ZMOD 2 ^ w]) : wrapInt w y = wrapInt w z := by
  rw [wrapInt_eq, wrapInt_eq, h]
theorem wrapInt_natCast (w x : Nat) : wrapInt w x = x % 2 ^ w := rfl
theorem natMod_modEq (w x : Nat) : ((x % 2 ^ w : Nat) : Int) ≡ x [ZMOD 2 ^ w] := by
  push_cast; exact Int.mod_modEq ..
theorem natAdd_modEq (w a b : Nat) : (((a + b) % 2 ^ w : Nat) : Int) ≡ a + b [ZMOD 2 ^ w] := by
  rw [← Nat.cast_add]; exact natMod_modEq ..
theorem natMul_modEq (w a b : Nat) : ((a * b % 2 ^ w : Nat) : Int) ≡ a * b [ZMOD 2 ^ w] := by
  rw [← Nat.cast_mul]; exact natMod_modEq ..
/-- A difference taken modulo 2^w. -/
theorem natSub_modEq {w a b : Nat} (hb : b < 2 ^ w) : (((a + 2 ^ w - b) % 2 ^ w : Nat) : Int) ≡ a - b [ZMOD 2 ^ w] := by
  refine (natMod_modEq ..).trans ?_
  rw [Nat.cast_sub (by omega)]
  push_cast
  rw [add_sub_right_comm]
  exact Int.add_modEq_right
theorem allOnes_modEq (w : Nat) : ((2 ^ w - 1 : Nat) : Int) ≡ -1 [ZMOD 2 ^ w] := by
  rw [Nat.cast_sub Nat.one_le_two_pow]
  push_cast
  rw [sub_eq_neg_add]
  exact Int.add_modEq_right
/-- The element of the lesser signed value has its bits. -/
theorem minSx_modEq (w a b : Nat) : ((if sx w a < sx w b then a else b : Nat) : Int) ≡ min (sx w a) (sx w b) [ZMOD 2 ^ w] := by
  split
  next hlt => rw [min_eq_left hlt.le]; exact (sx_modEq ..).symm
  next hge => rw [min_eq_right (not_lt.1 hge)]; exact (sx_modEq ..).symm
theorem maxSx_modEq (w a b : Nat) : ((if sx w a < sx w b then b else a : Nat) : Int) ≡ max (sx w a) (sx w b) [ZMOD 2 ^ w] := by
  split
  next hlt => rw [max_eq_right hlt.le]; exact (sx_modEq ..).symm
  next hge => rw [max_eq_left (not_lt.1 hge)]; exact (sx_modEq ..).symm
/-- What the saturating rows give. -/
theorem satInt_eq (sg : Bool) (w : Nat) (z : Int) : satInt sg w z =
    ((max (intMin sg w) (min (intMax sg w) z) % 2 ^ w).toNat, if z < intMin sg w ∨ intMax sg w < z then 0x20 else 0) := by
  rw [satInt, flIf, ← wrapInt_eq, ← clampInt_eq]
  refine congrArg _ (if_congr ?_ rfl rfl)
  rw [bne_iff_ne, ne_eq, clampInt_eq_self_iff, not_not]

/-! ## An elementwise row (R112, R206) -/

/-- Every element width is a whole number of bytes. -/
theorem eight_dvd_ewBits (vt : BitVec 8) : 8 ∣ ewBits vt := Dvd.intro _ rfl
/-- Operands that can be read can be read of fewer groups. -/
theorem VectorReadyFor.of_subset {s : State} {k : Nat} {groups fewer : List (Nat × Nat)} {va : VSrc} {w : Nat} {reads : Nat → Prop}
    (h : VectorReadyFor s k groups va w reads) (hsub : fewer ⊆ groups) : VectorReadyFor s k fewer va w reads :=
  ⟨fun g hg => h.1 g (hsub hg), h.2⟩

/-- The operands of a row under mask m can be read: each group has GRP registers, and the elements have EW bits. -/
def RowReady (s : State) (k : Nat) (vd : Reg) (va : VSrc) (vb : VbSrc) (m : Msk) : Prop :=
  let g := grpRegs (s.strand k).vtype
  VectorReady s k ((vd.toNat, g) :: sourceGroups va vb g) va (ewBits (s.strand k).vtype) m
/-- A row completes: its processed elements, of EW bits, receive f of the elements of its operands and of its destination. -/
def RowResult (i : Instr) (s : State) (k : Nat) (vd : Reg) (va : VSrc) (vb : VbSrc) (m : Msk) (f : Nat → Nat → Nat → FRes) : Prop :=
  let e := ewBits (s.strand k).vtype
  VectorResult i s k va vd.toNat e (vlmaxOf (s.strand k).vtype) m (fun j => f (vaElem s va e j) (vbElem s vb e j) (vget s k vd.toNat e j))

section
variable {i : Instr} {s : State} {k : Nat} {vd : Reg} {va : VSrc} {vb : VbSrc} {m : Msk}

theorem RowResult.congr {f : Nat → Nat → Nat → FRes} {g : Nat → FRes} (hrow : RowResult i s k vd va vb m f)
    (hfg : let e := ewBits (s.strand k).vtype; ∀ j, f (vaElem s va e j) (vbElem s vb e j) (vget s k vd.toNat e j) = g j) :
    VectorResult i s k va vd.toNat (ewBits (s.strand k).vtype) (vlmaxOf (s.strand k).vtype) m g := by
  obtain rfl := funext hfg
  exact hrow
/-- Results that agree with z modulo 2^EW are the low bits of z. -/
theorem RowResult.of_modEq {f : Nat → Nat → Nat → Nat} {z : Nat → Int} (hrow : RowResult i s k vd va vb m (fun a b d => (f a b d, 0)))
    (hz : let e := ewBits (s.strand k).vtype; ∀ j, (f (vaElem s va e j) (vbElem s vb e j) (vget s k vd.toNat e j) : Int) ≡ z j [ZMOD 2 ^ e]) :
    let e := ewBits (s.strand k).vtype
    VectorResult i s k va vd.toNat e (vlmaxOf (s.strand k).vtype) m (fun j => ((z j % 2 ^ e).toNat, 0)) := by
  refine VectorResult.congr (fun j => ⟨?bits, ?flags⟩) hrow
  case flags => rfl
  simp only [← wrapInt_eq, ← wrapInt_congr (hz j), wrapInt_natCast, Nat.mod_mod]
end

/-- An instruction whose checks find its form illegal takes ILLEGAL_INSTRUCTION. -/
theorem illegal_of_checks {i : Instr} {s effect : State} {c : Except Stop Unit} {word : Word} (hi : exec i s = vguard c effect s)
    (hc : c = .error (.trap ⟨.illegalInstruction, word.zeroExtend 64, 0⟩)) (hword : encode i = some word) : Illegal i s := by
  intro w hw
  obtain rfl := Option.some.inj (hword.symm.trans hw)
  exact runs_eq (hi.trans (vguard_illegal hc effect s))

section
variable {s : State} {k : Nat} (h : s.actor = .strand k) {i : Instr} {word : Word} {vd : Reg} {va : VSrc} {vb : VbSrc} {m : Msk}
include h

theorem vbElem_strand (vb : VbSrc) (w j : Nat) :
    vbElem s vb w j = match vb with | .vreg v => vget s k v.toNat w j | .xreg x => (readX (s.strand k).x x).toNat % 2 ^ w := by
  cases vb with
  | vreg v => rw [vbElem, State.key_strand h]
  | xreg x => rw [vbElem, State.x_strand h]

/-- A VINT row completes with what its operation makes of the elements. -/
theorem vint_result {f : Nat → Nat → Nat → Nat → FRes} (hi : exec i s = vint word f vd va vb m s) (hr : RowReady s k vd va vb m) :
    RowResult i s k vd va vb m (f (ewBits (s.strand k).vtype)) := by
  refine vmap_result h (ewBits_dvd _) ?_
  have hchecks := vchecks_ok h hr (takers_processed h m) word
  unfold vint at hi
  simp only [State.ew, State.grp, State.me_strand h, State.key_strand h] at hi
  exact hi.trans (vguard_ok hchecks _ s)
end

/-! ## Elements of twice the width (R210) -/

/-- Twice an element width divides the bits of a vector register, even where no element has that width. -/
theorem two_mul_ewBits_dvd (vt : BitVec 8) : 4096 % (2 * ewBits vt) = 0 := by
  simp only [ewBits]
  have := (vt.extractLsb' 0 2).isLt
  interval_cases (vt.extractLsb' 0 2).toNat <;> rfl
theorem wide_illegal {e g : Nat} (hbad : e = 64 ∨ g = 8) : (e != 64 && g != 8) = false := by
  rcases hbad with rfl | rfl
  · rfl
  · exact Bool.and_false _

section
variable {s : State} {k : Nat} (h : s.actor = .strand k) {vd : Reg} {va : VSrc} {vb : VbSrc} {m : Msk}
include h

theorem vwmul_result (he : ewBits (s.strand k).vtype ≠ 64) (hg : grpRegs (s.strand k).vtype ≠ 8)
    (hr : VectorReady s k ((vd.toNat, 2 * grpRegs (s.strand k).vtype) :: sourceGroups va vb (grpRegs (s.strand k).vtype)) va (ewBits (s.strand k).vtype) m)
    {f : Nat → FRes} (hf : let e := ewBits (s.strand k).vtype; ∀ j, (wrapInt (2 * e) (sx e (vaElem s va e j) * sx e (vbElem s vb e j)), 0) = f j) :
    VectorResult (.vwmul vd va vb m) s k va vd.toNat (2 * ewBits (s.strand k).vtype) (vlmaxOf (s.strand k).vtype) m f := by
  obtain rfl := funext hf
  refine vmap_result h (two_mul_ewBits_dvd _) ?_
  have hchecks := vchecks_ok h hr (takers_processed h m) (wVwmul vd va vb m)
  rw [exec_vwmul, execVwmul, State.ew, State.grp, State.me_strand h, bne_iff_ne.2 he, bne_iff_ne.2 hg]
  exact vguard_ok hchecks _ s
theorem vnsrl_result (he : ewBits (s.strand k).vtype ≠ 64) (hg : grpRegs (s.strand k).vtype ≠ 8)
    (hr : VectorReady s k ((vd.toNat, grpRegs (s.strand k).vtype) :: sourceGroups va (.xreg 0) (2 * grpRegs (s.strand k).vtype) ++
      sourceGroups (.queue (.ring 0)) vb (grpRegs (s.strand k).vtype)) va (2 * ewBits (s.strand k).vtype) m)
    {f : Nat → FRes} (hf : let e := ewBits (s.strand k).vtype; ∀ j, (vaElem s va (2 * e) j / 2 ^ (vbElem s vb e j % (2 * e)) % 2 ^ e, 0) = f j) :
    VectorResult (.vnsrl vd va vb m) s k va vd.toNat (ewBits (s.strand k).vtype) (vlmaxOf (s.strand k).vtype) m f := by
  obtain rfl := funext hf
  refine vmap_result h (ewBits_dvd _) ?_
  rw [sourceGroups_xreg] at hr
  have hchecks := vchecks_ok h hr (takers_processed h m) (wVnsrl vd va vb m)
  rw [exec_vnsrl, execVnsrl, State.ew, State.grp, State.me_strand h, bne_iff_ne.2 he, bne_iff_ne.2 hg]
  exact vguard_ok hchecks _ s

/-- Where no element has twice the width, or its group would have sixteen registers, the widening and the narrowing row are illegal. -/
theorem vwmul_illegal (hbad : ewBits (s.strand k).vtype = 64 ∨ grpRegs (s.strand k).vtype = 8)
    (hn : VectorNamed s k ((vd.toNat, 2 * grpRegs (s.strand k).vtype) :: sourceGroups va vb (grpRegs (s.strand k).vtype)) va) :
    Illegal (.vwmul vd va vb m) s := by
  have hexec := exec_vwmul (vd := vd) (va := va) (vb := vb) (m := m) (s := s)
  rw [execVwmul, State.ew, State.grp, State.me_strand h, wide_illegal hbad] at hexec
  exact illegal_of_checks hexec (vchecks_named_illegal h hn _ _ _) rfl
theorem vnsrl_illegal (hbad : ewBits (s.strand k).vtype = 64 ∨ grpRegs (s.strand k).vtype = 8)
    (hn : VectorNamed s k ((vd.toNat, grpRegs (s.strand k).vtype) :: sourceGroups va (.xreg 0) (2 * grpRegs (s.strand k).vtype) ++
      sourceGroups (.queue (.ring 0)) vb (grpRegs (s.strand k).vtype)) va) : Illegal (.vnsrl vd va vb m) s := by
  rw [sourceGroups_xreg] at hn
  have hexec := exec_vnsrl (vd := vd) (va := va) (vb := vb) (m := m) (s := s)
  rw [execVnsrl, State.ew, State.grp, State.me_strand h, wide_illegal hbad] at hexec
  exact illegal_of_checks hexec (vchecks_named_illegal h hn _ _ _) rfl
end

/-! ## The statement VectorInteger -/

/-- Settles O22: each row is elementwise, and what it makes of the elements is, modulo 2^EW, what the lemmas above say. -/
theorem vectorInteger : Obligations.VectorInteger := by
  intro s k vd va vb m h p e g n a b d signed sa sb bits Row Clamps
  have hb : ∀ j, vbElem s vb e j = b j := vbElem_strand h vb e
  have ha_lt : ∀ j, a e j < 2 ^ e := fun j => vaElem_lt s va j (eight_dvd_ewBits _)
  have hb_lt : ∀ j, b j < 2 ^ e := fun j => hb j ▸ vbElem_lt s vb e j
  refine ⟨fun hr => ?rows, ?widening, ?narrowing, ?illegal⟩
  case rows =>
    have row {i word f z} (hi : exec i s = vintP word f vd va vb m s) (hz : ∀ j, (f e (a e j) (b j) (d j) : Int) ≡ z j [ZMOD 2 ^ e]) : Row i z :=
      (vint_result h hi hr).of_modEq fun j => by rw [hb]; exact hz j
    have clamps {i word sg} {f : Nat → Nat → Nat → Int} {z : Nat → Int} (hi : exec i s = vint word (fun e a b _ => satInt sg e (f e a b)) vd va vb m s)
        (hz : ∀ j, f e (a e j) (b j) = z j) : Clamps i (intMin sg e) (intMax sg e) z :=
      (vint_result h hi hr).congr fun j => by rw [hb, hz]; exact satInt_eq ..
    refine ⟨row exec_vadd fun j => natAdd_modEq .., row exec_vsub fun j => natSub_modEq (hb_lt j), row exec_vrsub fun j => natSub_modEq (ha_lt j),
      row exec_vmul fun j => natMul_modEq .., row exec_vmulh fun j => wrapInt_modEq .., row exec_vmulhn fun j => .rfl,
      row exec_vdiv fun j => ?div, row exec_vdivn fun j => ?divn, row exec_vrem fun j => ?rem, row exec_vremn fun j => ?remn,
      row exec_vmin fun j => minSx_modEq .., row exec_vmax fun j => maxSx_modEq .., row exec_vminn fun j => ?minn, row exec_vmaxn fun j => ?maxn,
      row exec_vand fun j => .rfl, row exec_vor fun j => .rfl, row exec_vxor fun j => .rfl, row exec_vsll fun j => natMod_modEq ..,
      row exec_vsrl fun j => .rfl, row exec_vsra fun j => wrapInt_modEq .., clamps (sg := true) exec_vadds fun j => rfl,
      clamps (sg := true) exec_vsubs fun j => rfl, clamps (sg := false) exec_vaddsn fun j => rfl, clamps (sg := false) exec_vsubsn fun j => rfl,
      row exec_vmacc fun j => ?macc, row exec_vnmsac fun j => wrapInt_modEq ..⟩
    case div => split; exacts [allOnes_modEq _, wrapInt_modEq ..]
    case divn => split; exacts [allOnes_modEq _, .rfl]
    case rem => split; exacts [.rfl, Int.tmod_def .. ▸ wrapInt_modEq ..]
    case remn => split <;> exact .rfl
    case minn => rw [min_def_lt]
    case maxn => rw [max_def_lt]
    case macc => rw [← Nat.cast_mul]; exact natAdd_modEq ..
  case widening => exact fun he hg hr => vwmul_result h he hg hr fun j => by rw [hb, wrapInt_eq]; rfl
  case narrowing => exact fun he hg hr => vnsrl_result h he hg hr fun j => by rw [hb]
  case illegal => exact fun hbad => ⟨vwmul_illegal h hbad, vnsrl_illegal h hbad⟩


/-! ## Floating-point rows (R211) -/

theorem elemFmt_width (vt : BitVec 8) : (elemFmt vt).width = ewBits vt := by
  simp only [elemFmt, ewBits]
  have := (vt.extractLsb' 0 2).isLt
  interval_cases (vt.extractLsb' 0 2).toNat <;> cases vtAlt vt <;> rfl
theorem elemFmt_signBit (vt : BitVec 8) : (elemFmt vt).signBit = 2 ^ (ewBits vt - 1) := by rw [signBit_eq, elemFmt_width]
/-- Operands that a row with two sources can read, a row with one can. -/
theorem RowReady.unary {s : State} {k : Nat} {vd : Reg} {va : VSrc} {vb : VbSrc} {m : Msk} (hr : RowReady s k vd va vb m) :
    RowReady s k vd va (.xreg 0) m :=
  hr.of_subset (List.cons_subset_cons _ (List.append_subset.2 ⟨List.subset_append_left .., List.nil_subset _⟩))

section
variable {s : State} {k : Nat} (h : s.actor = .strand k) {i : Instr} {word : Word} {ok : Bool} {f : Fmt → RMode → Nat → Nat → Nat → FRes}
  {vd : Reg} {va : VSrc} {vb : VbSrc} {m : Msk} (hi : exec i s = vfp word ok f vd va vb m s) (hr : RowReady s k vd va vb m)
include h hi hr

/-- A VFP row that is legal completes with what its operation makes of the elements, in their format and under the mode of FRM. -/
theorem vfp_result (he : ewBits (s.strand k).vtype ≠ 8) (hok : ok = true) :
    RowResult i s k vd va vb m (f (elemFmt (s.strand k).vtype) s.rm) := by
  refine vmap_result h (ewBits_dvd _) ?_
  have hchecks := vchecks_ok h hr (takers_processed h m) word
  unfold vfp at hi
  simp only [State.ew, State.grp, State.me_strand h, State.key_strand h, hok, bne_iff_ne.2 he] at hi
  exact hi.trans (vguard_ok hchecks _ s)
theorem vfp_illegal (hbad : ewBits (s.strand k).vtype = 8 ∨ ok = false) (hword : encode i = some word) : Illegal i s := by
  have hno : (ewBits (s.strand k).vtype != 8 && ok) = false := by
    rcases hbad with he | hok
    · rw [he]; rfl
    · rw [hok, Bool.and_false]
  unfold vfp at hi
  simp only [State.grp, State.ew, State.me_strand h, hno] at hi
  exact illegal_of_checks hi (vchecks_illegal h hr _ word) hword
end

/-! ## The statement VectorFloat -/

/-- Settles O23: each row is elementwise where it is legal, by its operation on the values of the elements. -/
theorem vectorFloat : Obligations.VectorFloat := by
  intro s k vd va vb m h p e g F bits bitsB a b d sign Row hr
  have hb : ∀ j, vbElem s vb e j = bitsB j := vbElem_strand h vb e
  have hr1 : RowReady s k vd va (.xreg 0) m := RowReady.unary hr
  have hew : s.ew = e := by rw [State.ew, State.me_strand h]
  have hsign : F.signBit = sign := elemFmt_signBit _
  have row {i word ok f r} (he : e ≠ 8) (hok : ok = true) (hi : exec i s = vfp word ok f vd va vb m s)
      (hf : ∀ j, f F s.rm (bits j) (bitsB j) (vget s k vd.toNat e j) = r j) : Row i r :=
    (vfp_result h hi hr he hok).congr fun j => by rw [hb]; exact hf j
  have row1 {i word ok f r} (he : e ≠ 8) (hok : ok = true) (hi : exec i s = vfp1 word ok f vd va m s)
      (hf : ∀ j, f F s.rm (bits j) = r j) : Row i r :=
    (vfp_result h hi hr1 he hok).congr hf
  have illegal {i word ok f} (hbad : e = 8 ∨ ok = false) (hi : exec i s = vfp word ok f vd va vb m s) (hword : encode i = some word) : Illegal i s :=
    vfp_illegal h hi hr hbad hword
  have illegal1 {i word ok f} (hbad : e = 8 ∨ ok = false) (hi : exec i s = vfp1 word ok f vd va m s) (hword : encode i = some word) : Illegal i s :=
    vfp_illegal h hi hr1 hbad hword
  refine ⟨fun he rm hrm => ?rounds, fun he => ?exact, fun he => ?single, fun he => ?notSingle, fun hbad => ?illegalRounds, fun he => ?illegalExact⟩
  case rounds =>
    have hok := State.frmOk_of_frm h hrm
    have hmode := State.rm_of_frm h hrm
    refine ⟨row he hok exec_vfadd ?_, row he hok exec_vfsub ?_, row he hok exec_vfmul ?_, row he hok exec_vfdiv ?_, row1 he hok exec_vfsqrt ?_,
      row he hok exec_vfmadd ?_, row he hok exec_vfnmadd ?_, row he hok exec_vfmsub ?_⟩ <;> exact fun j => by rw [hmode]
  case exact =>
    exact ⟨row he rfl exec_vfmin fun _ => rfl, row he rfl exec_vfmax fun _ => rfl, row1 he rfl exec_vfabs fun _ => by rw [hsign],
      row1 he rfl exec_vfneg fun _ => by rw [hsign], row he rfl exec_vfsgnj fun _ => by rw [hsign], row1 he rfl exec_vfclass fun _ => rfl⟩
  case single =>
    have hne : e ≠ 8 := by rw [he]; decide
    have hok : (s.ew == 32) = true := by rw [hew]; exact beq_iff_eq.2 he
    exact ⟨row1 hne hok exec_vfrsqe fun _ => rfl, row1 hne hok exec_vfexp2 fun _ => rfl⟩
  case notSingle =>
    have hok : (s.ew == 32) = false := by rw [hew]; exact beq_eq_false_iff_ne.2 he
    exact ⟨illegal1 (.inr hok) exec_vfrsqe rfl, illegal1 (.inr hok) exec_vfexp2 rfl⟩
  case illegalRounds =>
    have hbad' : e = 8 ∨ s.frmOk = false := hbad.imp_right (State.frmOk_of_none h)
    simp only [List.forall_mem_cons]
    exact ⟨illegal hbad' exec_vfadd rfl, illegal hbad' exec_vfsub rfl, illegal hbad' exec_vfmul rfl,
      illegal hbad' exec_vfdiv rfl, illegal1 hbad' exec_vfsqrt rfl, illegal hbad' exec_vfmadd rfl,
      illegal hbad' exec_vfnmadd rfl, illegal hbad' exec_vfmsub rfl, List.forall_mem_nil _⟩
  case illegalExact =>
    simp only [List.forall_mem_cons]
    exact ⟨illegal (.inl he) exec_vfmin rfl, illegal (.inl he) exec_vfmax rfl, illegal1 (.inl he) exec_vfabs rfl,
      illegal1 (.inl he) exec_vfneg rfl, illegal (.inl he) exec_vfsgnj rfl, illegal1 (.inl he) exec_vfclass rfl,
      List.forall_mem_nil _⟩

end Sys2Proof.Machine
end

section
/-! Permutations and moves (R207, R223, R224): lemmas for the statement VectorPermute, and its proof. -/

namespace Sys2Proof.Machine
open Sys2Proof

/-! ## Elements that may stay (R186, R223) -/

section
variable {p : Strand} {m : Msk} {i : Nat}

theorem policy_processed (hp : Processed p m i) (f : Nat → Option Nat) : policy p m f i = f i := by
  obtain ⟨hstart, hbody, hact⟩ := (processed_iff p m i).1 hp
  rw [policy, if_neg (Nat.not_lt.2 hstart), if_pos hbody, if_pos hact]
theorem policy_not_processed (hp : ¬Processed p m i) (f g : Nat → Option Nat) : policy p m f i = policy p m g i := by
  rw [processed_iff] at hp
  unfold policy
  split
  · rfl
  · split
    · rw [if_neg fun hact => hp ⟨by omega, by omega, hact⟩, if_neg fun hact => hp ⟨by omega, by omega, hact⟩]
    · rfl
/-- An element after an instruction's updates, where one that receives nothing keeps what it holds. -/
theorem vget_updates_after (s : State) (k v : Nat) {w n j : Nat} (f : Nat → Option Nat) (hw : 4096 % w = 0) (hj : j < n)
    (hlt : p.vstart.toNat < p.vl.toNat) :
    vget (vputs s k v w (updates p m n f)) k v w j = afterPolicy p m j ((f j).getD (vget s k v w j) % 2 ^ w) (vget s k v w j) := by
  have hgives : vget (vputs s k v w (updates p m n f)) k v w j = vget (vputs s k v w (updates p m n (fun _ => some ((f j).getD (vget s k v w j))))) k v w j := by
    rw [vget_updates _ _ _ _ _ _ _ _ _ hw hj, vget_updates _ _ _ _ _ _ _ _ _ hw hj]
    by_cases hp : Processed p m j
    · rw [policy_processed hp, policy_processed hp]
      cases f j with
      | some x => rfl
      | none => exact (Nat.mod_eq_of_lt (vget_lt ..)).symm
    · rw [policy_not_processed hp]
  rw [hgives, vget_updates _ _ _ _ _ _ _ _ _ hw hj]
  exact policy_after _ _ _ _ _ _ hlt
end

/-- Whether or not a slot is popped, a strand changes in rings and relay queues alone. -/
theorem strand_popped (s : State) (va : VSrc) (j : Nat) :
    ∃ r l, (if s.idle then s else vaPop s va).strand j = { s.strand j with rings := r, relays := l } := by
  split
  · exact ⟨_, _, rfl⟩
  · exact vaPop_strand s va j

/-- What a permutation leaves: its elements written under the policies, and the slot of its queue operand popped. -/
def permuteEffect (s : State) (va : VSrc) (vd w : Nat) (m : Msk) (f : Nat → Option Nat) : State :=
  if s.idle then vdone s else vdone (vaPop (vputs s s.key vd w (updates s.me m s.vlmax f)) va)

/-- Results that agree where an element is processed are one result. -/
theorem VectorResult.congr_processed {i : Instr} {s : State} {k : Nat} {va : VSrc} {vd w n : Nat} {m : Msk} {f g : Nat → FRes}
    (h : VectorResult i s k va vd w n m f) (hfg : ∀ j, Processed (s.strand k) m j → f j = g j) : VectorResult i s k va vd w n m g := by
  obtain ⟨t, hi, ⟨helems, hregs⟩, hme, hflags, hothers⟩ := h
  refine ⟨t, hi, ⟨fun j hj => ?_, hregs⟩, hme, fun b => ?_, hothers⟩
  · refine (helems j hj).trans ?_
    unfold afterPolicy
    by_cases hp : Processed (s.strand k) m j
    · simp only [hfg j hp]
    · simp only [if_neg hp]
  · rw [hflags b]
    exact or_congr_right (exists_congr fun j => and_congr_right fun hp => by rw [hfg j hp])

section
variable {s : State} {k : Nat} (h : s.actor = .strand k) {i : Instr} {va : VSrc} {m : Msk}
include h

/-- A permutation is through, with its updates made, or none where there is nothing to process. -/
theorem permuteEffect_through (vd w : Nat) (f : Nat → Option Nat) :
    let t := permuteEffect s va vd w m f
    let q := if s.idle then s else vaPop s va
    t.strand k = { (q.strand k).onward with vstart := 0 } ∧ (∀ j, j ≠ k → t.strand j = q.strand j) ∧ { t with strands := s.strands, vregs := s.vregs } = s ∧
    t.vregs = (vputs s k vd w (if s.idle then [] else updates (s.strand k) m (vlmaxOf (s.strand k).vtype) f)).vregs := by
  unfold permuteEffect
  cases hid : s.idle with
  | true => exact vputs_pops h (.vreg 0) vd w []
  | false =>
    simp only [State.key_strand h, State.me_strand h, State.vlmax]
    exact vputs_pops h va vd w _
/-- An element after a permutation is what f says under the policies, or what it was. -/
theorem vget_permuteEffect (vd : Nat) {w j : Nat} (hw : 4096 % w = 0) (f : Nat → Option Nat) (hj : j < vlmaxOf (s.strand k).vtype) :
    vget (permuteEffect s va vd w m f) k vd w j = afterPolicy (s.strand k) m j ((f j).getD (vget s k vd w j) % 2 ^ w) (vget s k vd w j) := by
  obtain ⟨hme, -, -, hvregs⟩ := permuteEffect_through h (va := va) (m := m) vd w f
  obtain ⟨r, l, hpop⟩ := strand_popped s va k
  refine (vget_congr (s := vputs s k vd w _) ?_ hvregs _ _ _).trans ?_
  · rw [hme, vputs_strand, hpop]; rfl
  · cases hid : s.idle with
    | true =>
      have hvl : (s.strand k).vl.toNat ≤ (s.strand k).vstart.toNat := by
        simpa only [State.vl, State.vstart, State.me_strand h] using idle_iff.1 hid
      rw [if_pos rfl, afterPolicy, if_pos (.inl hvl)]; rfl
    | false => exact vget_updates_after _ _ _ _ hw hj ((State.not_idle_iff h).1 hid)
/-- A permutation completes. -/
theorem permuteEffect_result {vd w : Nat} {f : Nat → Option Nat} (hi : exec i s = .next (permuteEffect s va vd w m f)) (hw : 4096 % w = 0)
    {g : Nat → Nat} (hg : ∀ j, (f j).getD (vget s k vd w j) = g j) : VectorResult i s k va vd w (vlmaxOf (s.strand k).vtype) m (fun j => (g j, 0)) := by
  obtain rfl := funext hg
  obtain ⟨hme, hothers, hrest, hvregs⟩ := permuteEffect_through h (va := va) (m := m) vd w f
  obtain ⟨r, l, hpop⟩ := strand_popped s va k
  have hflags : ((permuteEffect s va vd w m f).strand k).fflags = (s.strand k).fflags := by rw [hme, hpop]; rfl
  refine ⟨_, hi, ⟨fun j hj => vget_permuteEffect h vd hw f hj, fun c hc => ?register⟩, ?me, fun b => ?flags, hothers, hrest⟩
  case register =>
    rw [hvregs]
    refine vputs_other _ _ _ _ _ _ fun q hq => ?_
    split at hq
    · exact absurd hq List.not_mem_nil
    · exact hc q.1 (updates_mem hq)
  case me => rw [hme]
  case flags => simp [hflags]

/-! ## Permutations (R223) -/

/-- What a permutation reads is what its active elements name (R193, R206). -/
theorem mem_readSet {src : Nat → Option Nat} {j : Nat} (hj : j ∈ readSet s m src) : ∃ i, Processed (s.strand k) m i ∧ src i = some j := by
  obtain hnil | ⟨x, hx, rfl⟩ := (mem_foldl_nsInsert id _ _ j).1 hj
  · exact absurd hnil List.not_mem_nil
  · obtain ⟨i, hi, hsrc⟩ := List.mem_filterMap.1 hx
    exact ⟨i, takers_processed h m i hi, hsrc⟩

/-- A permutation gives each element the element of its source that src names; where it names none, the element stays. -/
theorem vpermute_result {word : Word} {groups : List (Nat × Nat)} {src : Nat → Option Nat} {vd : Reg}
    (hi : exec i s = vpermute word groups src vd va m s)
    (hr : VectorReadyFor s k ((vd.toNat, grpRegs (s.strand k).vtype) :: (sourceGroups va (.xreg 0) (grpRegs (s.strand k).vtype) ++ groups)) va
      (ewBits (s.strand k).vtype) (fun j => ∃ i, Processed (s.strand k) m i ∧ src i = some j))
    {g : Nat → Nat} (hg : let e := ewBits (s.strand k).vtype
      ∀ j, (src j).elim (vget s k vd.toNat e j) (vaSrc s va e (vlmaxOf (s.strand k).vtype)) = g j) :
    VectorResult i s k va vd.toNat (ewBits (s.strand k).vtype) (vlmaxOf (s.strand k).vtype) m (fun j => (g j, 0)) := by
  rw [sourceGroups_xreg] at hr
  have hchecks := vchecks_ok h hr (fun _ => mem_readSet h) word
  unfold vpermute at hi
  simp only [State.ew, State.grp, State.me_strand h] at hi
  refine permuteEffect_result h (f := fun j => (src j).map (vaSrc s va (ewBits (s.strand k).vtype) (vlmaxOf (s.strand k).vtype)))
    (hi.trans ((vguard_ok hchecks _ s).trans ?_)) (ewBits_dvd _) fun j => ?_
  · simp only [permuteEffect, State.vlmax, State.me_strand h]
  · rw [← hg]; cases src j <;> rfl

/-! ## vzip and vmerge (R223, R224) -/

theorem vzip_result {vd vs : Reg} (hr : VectorReadyFor s k ((vd.toNat, grpRegs (s.strand k).vtype) ::
      (sourceGroups va (.xreg 0) (grpRegs (s.strand k).vtype) ++ [(vs.toNat, grpRegs (s.strand k).vtype)])) va (ewBits (s.strand k).vtype)
      (fun j => Processed (s.strand k) m (2 * j)))
    {g : Nat → Nat} (hg : let e := ewBits (s.strand k).vtype; let n := vlmaxOf (s.strand k).vtype
      ∀ j, (if j % 2 = 0 then vaSrc s va e n (j / 2) else vaSrc s (.vreg vs) e n (j / 2)) = g j) :
    VectorResult (.vzip vd va vs m) s k va vd.toNat (ewBits (s.strand k).vtype) (vlmaxOf (s.strand k).vtype) m (fun j => (g j, 0)) := by
  rw [sourceGroups_xreg] at hr
  have hreads : ∀ j ∈ readSet s m (fun i => if i % 2 = 0 then some (i / 2) else none), Processed (s.strand k) m (2 * j) := by
    intro j hj
    obtain ⟨i, hi, hsrc⟩ := mem_readSet h hj
    obtain ⟨heven, hhalf⟩ := Option.ite_none_right_eq_some.1 hsrc
    obtain rfl := Option.some.inj hhalf
    rwa [Nat.mul_div_cancel' (Nat.dvd_of_mod_eq_zero heven)]
  have hchecks := vchecks_ok h hr hreads (wVzip vd va vs m)
  refine permuteEffect_result h (f := some ∘ g) ?_ (ewBits_dvd _) fun j => rfl
  obtain rfl := funext hg
  rw [exec_vzip, execVzip]
  simp only [State.ew, State.grp, State.vlmax, State.me_strand h]
  refine (vguard_ok hchecks _ s).trans ?_
  simp only [permuteEffect, State.vlmax, State.me_strand h]
  rfl
/-- The elements that vmerge reads of its va: those of the body that are not processed. -/
theorem mem_inactive {j : Nat} (hj : j ∈ s.body.filter (fun i => !active s.me m i)) :
    (s.strand k).vstart.toNat ≤ j ∧ j < (s.strand k).vl.toNat ∧ ¬Processed (s.strand k) m j := by
  obtain ⟨hbody, hact⟩ := List.mem_filter.1 hj
  rw [mem_body, State.vstart, State.vl, State.me_strand h] at hbody
  rw [State.me_strand h, Bool.not_eq_true'] at hact
  refine ⟨hbody.1, hbody.2, fun hp => ?_⟩
  obtain ⟨-, -, hactive⟩ := (processed_iff _ _ _).1 hp
  exact Bool.false_ne_true (hact.symm.trans hactive)
/-- vmerge reads its va where the mask does not choose vb, and writes under no mask. -/
theorem vmerge_result {vd : Reg} {vb : VbSrc}
    (hr : VectorReadyFor s k ((vd.toNat, grpRegs (s.strand k).vtype) :: sourceGroups va vb (grpRegs (s.strand k).vtype)) va (ewBits (s.strand k).vtype)
      (fun j => (s.strand k).vstart.toNat ≤ j ∧ j < (s.strand k).vl.toNat ∧ ¬Processed (s.strand k) m j)) :
    let e := ewBits (s.strand k).vtype
    VectorResult (.vmerge vd va vb m) s k va vd.toNat e (vlmaxOf (s.strand k).vtype) Msk.all
      (fun j => (if Processed (s.strand k) m j then vbElem s vb e j else vaElem s va e j, 0)) := by
  have hchecks := vchecks_ok h hr (fun _ => mem_inactive h) (wVmerge vd va vb m)
  have hresult : VectorResult (.vmerge vd va vb m) s k va vd.toNat (ewBits (s.strand k).vtype) (vlmaxOf (s.strand k).vtype) Msk.all
      (fun j => (if active (s.strand k) m j then vbElem s vb (ewBits (s.strand k).vtype) j else vaElem s va (ewBits (s.strand k).vtype) j, 0)) := by
    refine vmap_result h (ewBits_dvd _) ?_
    rw [exec_vmerge, execVmerge]
    simp only [State.ew, State.grp, State.me_strand h] at hchecks ⊢
    exact vguard_ok hchecks _ s
  refine hresult.congr_processed fun j hp => ?_
  obtain ⟨hstart, hbody, -⟩ := hp
  have hactive : Processed (s.strand k) m j ↔ active (s.strand k) m j = true := by
    rw [processed_iff]; exact ⟨fun hq => hq.2.2, fun hq => ⟨hstart, hbody, hq⟩⟩
  simp only [hactive]

/-! ## Moves between element 0 and an x register (R224) -/

theorem vmvxs_runs {x : Reg} (hgroups : ∀ r ∈ sourceGroups va (.xreg 0) (grpRegs (s.strand k).vtype), r.1 % r.2 = 0 ∧ r.1 + r.2 ≤ (s.strand k).window)
    (hqueue : ∀ q, va = .queue q → queueName s q = .ok () ∧ QueueReads s k q (ewBits (s.strand k).vtype) (· = 0)) :
    Runs (.vmvxs x va) s (StrandBecomes (vaPop s va) k
      { ((vaPop s va).strand k).gives x (BitVec.ofInt 64 (sx (ewBits (s.strand k).vtype) (vaElem s va (ewBits (s.strand k).vtype) 0))) with vstart := 0 }) := by
  rw [sourceGroups_xreg] at hgroups
  have hname : vaName s va true = .ok () := by
    cases va with
    | vreg v => rfl
    | queue q =>
      obtain ⟨hname, hready, -⟩ := hqueue q rfl
      rw [vaName, check_ok hname, if_pos rfl, hready]
  have hwait : vaWait s va (ewBits (s.strand k).vtype) [0] = .ok () := by
    cases va with
    | vreg v => rfl
    | queue q => exact vaWait_ok h (hqueue q rfl).2 fun j hj => List.mem_singleton.1 hj
  refine ⟨_, ?_, vdone_gives ((vaPop_actor s va).trans h) x _⟩
  rw [exec_vmvxs, execVmvxs, State.ew, State.grp, State.me_strand h]
  refine vguard_ok ?_ _ s
  rw [check_ok (groupsOk_ok hgroups), check_ok hname, hwait]

/-- The update of vmvsx: element 0, where it is processed. -/
def elementZero (p : Strand) (m : Msk) (x : Nat) : List (Nat × Nat) := if Processed p m 0 then [(0, x)] else []
theorem vmvsx_runs {vd x : Reg} (hgroup : vd.toNat % grpRegs (s.strand k).vtype = 0 ∧ vd.toNat + grpRegs (s.strand k).vtype ≤ (s.strand k).window) :
    let e := ewBits (s.strand k).vtype
    Runs (.vmvsx vd x m) s (fun t =>
      (∀ j, vget t k vd.toNat e j = if j = 0 ∧ Processed (s.strand k) m 0 then (readX (s.strand k).x x).toNat % 2 ^ e else vget s k vd.toNat e j) ∧
      OthersKept s t k vd.toNat 1 ∧ t.strand k = { (s.strand k).onward with vstart := 0 } ∧ (∀ j, j ≠ k → t.strand j = s.strand j) ∧
      { t with strands := s.strands, vregs := s.vregs } = s) := by
  intro e
  have hcond : (s.vl ≠ 0 ∧ s.vstart = 0 ∧ active s.me m 0 = true) ↔ Processed (s.strand k) m 0 := by
    rw [processed_iff, State.vl, State.vstart, State.me_strand h, Nat.le_zero, Nat.pos_iff_ne_zero, and_left_comm]
  have hexec : exec (.vmvsx vd x m) s = .next (vdone (vputs s k vd.toNat e (elementZero (s.strand k) m (readX (s.strand k).x x).toNat))) := by
    rw [exec_vmvsx, execVmvsx, State.ew, State.grp, State.key_strand h, State.x_strand h, if_congr hcond rfl rfl, State.me_strand h,
      vguard_ok (groupsOk_ok (List.forall_mem_singleton.2 hgroup)), elementZero]
    split <;> rfl
  obtain ⟨hme, hothers, hrest, hvregs⟩ := vputs_pops h (.vreg 0) vd.toNat e (elementZero (s.strand k) m (readX (s.strand k).x x).toNat)
  refine ⟨_, hexec, fun j => ?element, fun c hc => ?register, hme, hothers, hrest⟩
  case element =>
    refine (vget_congr (s := vputs s k vd.toNat e _) (by rw [hme, vputs_strand]; rfl) hvregs _ _ _).trans ?_
    by_cases hp : Processed (s.strand k) m 0
    · rw [elementZero, if_pos hp, vputs_cons, vputs_nil, vget_vput _ _ _ _ _ _ _ (ewBits_dvd _)]
      exact if_congr (iff_self_and.2 fun _ => hp) rfl rfl
    · rw [elementZero, if_neg hp, vputs_nil, if_neg fun hj => hp hj.2]
  case register =>
    refine (congrArg (sget 0 · c) hvregs).trans (vputs_other _ _ _ _ _ _ fun q hq => ?_)
    rw [elementZero] at hq
    split at hq
    · obtain rfl := List.mem_singleton.1 hq
      simpa using hc 0 Nat.one_pos
    · exact absurd hq List.not_mem_nil
end

/-! ## The statement -/

/-- Settles O26: each row is a permutation that names its source, and vzip, vmerge and the moves are as the lemmas above say. -/
theorem vectorPermute : Obligations.VectorPermute := by
  intro s k vd va vs x vb m h p e g n vl amount from' old Row
  have hx : (s.x x).toNat = amount := congrArg BitVec.toNat (State.x_strand h x)
  have hsrc : ∀ a, vaSrc s a e n = from' a := fun a => funext fun j => by
    cases a with
    | vreg v => simp only [vaSrc, State.key_strand h]; rfl
    | queue q => rfl
  have hvl : s.vl = vl := by rw [State.vl, State.me_strand h]
  have row {i word groups src src'} (hi : exec i s = vpermute word groups src vd va m s) (hs : src = src') : Row i groups src' := by
    subst hs
    exact fun hr => vpermute_result h hi hr fun j => congrArg ((src j).elim (old j)) (hsrc va)
  have hperm : exec (.vperm vd va vs m) s = vpermute (wVperm vd va vs m) [(vs.toNat, g)] (fun i => some (vget s k vs.toNat e i)) vd va m s := by
    rw [exec_vperm, execVperm, State.grp, State.ew, State.me_strand h, State.key_strand h]
  refine ⟨row exec_vslup (by rw [hx]), row exec_vsldn (by rw [hx]), row exec_vrot (by rw [hx, hvl]), row hperm rfl, row exec_vbcast (by rw [hx]),
    row exec_vunzip (by rw [hx]), row exec_vrev (by rw [hvl]), row exec_vmv rfl, fun hr => ?zip, fun hr => ?merge, fun hgroups hqueue => ?vmvxs, fun hd hw => ?vmvsx⟩
  case zip => exact vzip_result h hr fun j => if_congr .rfl (congrFun (hsrc va) _) (congrFun (hsrc (.vreg vs)) _)
  case merge =>
    have hresult := vmerge_result h hr
    simp only [vbElem_strand h] at hresult
    exact hresult
  case vmvxs =>
    intro v
    obtain ⟨t, hexec, hme, hothers, hrest⟩ := vmvxs_runs h (x := x) hgroups hqueue
    obtain ⟨r, l, hpop⟩ := vaPop_strand s va k
    refine ⟨t, hexec, hme.trans ?_, hothers, ?_⟩
    · rw [hpop]; rfl
    · exact (congrArg (fun u : State => { u with strands := s.strands }) hrest).trans (vaPop_frame s va)
  case vmvsx =>
    obtain ⟨t, hexec, helems, hrest⟩ := vmvsx_runs h (m := m) (x := x) ⟨hd, hw⟩
    exact ⟨t, hexec, fun i _ => helems i, hrest⟩

end Sys2Proof.Machine
end

section
/-! Quantising conversions (R217 to R222): the counterexample to the statement VectorQuantise. -/

namespace Sys2Proof.Machine
open Sys2Proof

/-- Strand 0 in solo mode, with vl = VSTART = 40 elements of 8 bits, and ring 0 declared, sound and empty. -/
def idleUntilLowered : State :=
  { strands := [(0, { status := .running, vl := 40, vstart := 40, place := some {}, e := { vwin := 0xC0 }
                      rings := Vector.replicate 8 { base := 0xF1000000000000, log2slot := 6 } })]
    groups := [(0, { kernel := 0, core := 0, trio := false, keys := [0], live := [0], laneOff := 0, laneSize := 0, spad := [0], wins := [(0, 32)]
                     tiles := 0, share := [], pages := [], barCount := 0 })]
    kernels := [(0, { qid := 0, recNo := 0, asid := 0, evvec := 0, record := {}, res := { rings := 1, spadKib := 4 } })] }

/-- At VSTART = 40 there is nothing to process, so that the ring, rightly named, need hold no slot. -/
theorem ready_idleUntilLowered :
    VectorReady idleUntilLowered 0 ((0, 1) :: (sourceGroups (.queue (.ring 0)) (.xreg 0) 1 ++ [(1, 1)])) (.queue (.ring 0)) 8 Msk.all :=
  ⟨by decide, rfl, fun hidle => absurd hidle (by decide)⟩
/-- With VSTART lowered to 32 vmxq processes elements 32 to 39, and the empty ring faults before the element width is looked at. -/
theorem vmxq_idleUntilLowered :
    exec (.vmxq 0 (.queue (.ring 0)) 1 false Msk.all) idleUntilLowered = .next (raise idleUntilLowered ⟨.ringFault, 0, 0⟩) := rfl

/-- Refutes O25: at an element width other than 16 and 32, vmxq does not always take ILLEGAL_INSTRUCTION. The statement asks for operands
that can be read with VSTART as it stands, where the instruction may have nothing to process and the slot of a queue operand need not be
there; but VSTART is lowered first (assumption 69), and then in solo mode the claim of a slot that an empty ring does not hold takes
RING_FAULT (R194), a check of the operands' names, which comes first (R112, assumption 18). -/
theorem not_vectorQuantise : ¬ Obligations.VectorQuantise := by
  unfold Obligations.VectorQuantise
  intro h
  obtain ⟨-, hother⟩ := h idleUntilLowered 0 0 (.queue (.ring 0)) 1 false Msk.all .rne rfl rfl
  obtain ⟨-, -, hillegal, -⟩ := hother (by decide) (by decide)
  obtain ⟨t, hexec, ht⟩ := hillegal ready_idleUntilLowered _ rfl
  have hraise := ht.symm.trans (Host.Outcome.next.inj (hexec.symm.trans vmxq_idleUntilLowered))
  have hcause := congrArg (fun u : State => (u.strand 0).e.cause) hraise
  exact absurd hcause (by decide)

end Sys2Proof.Machine
end

section
/-! Compaction, conflicts, scans, counts and block lists (R232 to R242): lemmas for the statement VectorIrregular, and its proof. -/

namespace Sys2Proof.Machine
open Sys2Proof

/-! ## Being through, with a change of the strand (R168, R193) -/

/-- Strand k changed by f, the slot of its queue operand popped, and the strand changed by g, where u is s with other vector registers: the strand
is changed by f and g, any other strand by the popped slot alone, and nothing else but the vector registers of u is new. -/
theorem upd_vaPop_upd {s u : State} (hu : { u with vregs := s.vregs } = s) (va : VSrc) (k : Nat) {f : Strand → Strand} (g : Strand → Strand)
    (hplace : ∀ t, (f t).place = t.place) (hrings : ∀ t r, f { t with rings := r } = { f t with rings := r })
    (hrelays : ∀ t l, f { t with relays := l } = { f t with relays := l }) :
    let t := (vaPop (u.upd k f) va).upd k g
    t.strand k = g (f ((vaPop s va).strand k)) ∧ (∀ j, j ≠ k → t.strand j = (vaPop s va).strand j) ∧
    { t with strands := s.strands, vregs := s.vregs } = s ∧ t.vregs = u.vregs := by
  have hu' : u = { s with vregs := u.vregs } := (congrArg (fun t : State => { t with vregs := u.vregs }) hu :)
  generalize u.vregs = R at hu'
  subst hu'
  have hcomm := fun j => vaPop_upd { s with vregs := R } va k j hplace hrings hrelays
  have hpop : ∀ j, (vaPop { s with vregs := R } va).strand j = (vaPop s va).strand j := fun j => by rw [vaPop_vregs s { s with vregs := R } va rfl]; rfl
  refine ⟨?me, fun j hj => ?other, ?rest, vaPop_vregs_eq _ va⟩
  case me => rw [State.strand_upd_self, hcomm, State.strand_upd_self, hpop]
  case other => rw [State.strand_upd_of_ne _ _ hj, hcomm, State.strand_upd_of_ne _ _ hj, hpop]
  case rest =>
    have hframe := vaPop_frame (({ s with vregs := R } : State).upd k f) va
    exact (congrArg (fun t : State => { t with strands := s.strands, vregs := s.vregs }) hframe :)

/-! ## A source read whatever vl and VSTART hold (R192, R193) -/

section
variable {s : State} {va : VSrc}

theorem vaName_reads {k w : Nat} {reads : Nat → Prop} (hr : ∀ q, va = .queue q → queueName s q = .ok () ∧ QueueReads s k q w reads) :
    vaName s va true = .ok () := by
  cases va with
  | vreg v => rfl
  | queue q =>
    obtain ⟨hname, hready, -⟩ := hr q rfl
    rw [vaName, check_ok hname, if_pos rfl, hready]
theorem vaWait_reads {k : Nat} (h : s.actor = .strand k) {w : Nat} {reads : Nat → Prop}
    (hr : ∀ q, va = .queue q → queueName s q = .ok () ∧ QueueReads s k q w reads) {l : List Nat} (hl : ∀ i ∈ l, reads i) : vaWait s va w l = .ok () := by
  cases va with
  | vreg v => rfl
  | queue q => exact vaWait_ok h (hr q rfl).2 hl
end

/-! ## Elements written from 0 up, with their count (R232) -/

/-- Element j of a destination that held old, after l was written from element 0 up, the rest following TA. -/
def counted (vt : BitVec 8) (w : Nat) (l : List Nat) (j old : Nat) : Nat :=
  match l[j]? with | some v => v % 2 ^ w | none => if vt.getLsbD 5 then 0 else old

theorem vget_counted (s : State) (k v : Nat) (p : Strand) (l : List Nat) {j : Nat} (hj : j < vlmaxOf p.vtype) :
    let e := ewBits p.vtype
    vget (vputs s k v e (countUpdates p (vlmaxOf p.vtype) l)) k v e j = counted p.vtype e l j (vget s k v e j) := by
  intro e
  rw [vget_countUpdates _ _ _ (ewBits_dvd _), if_pos hj, counted]
  cases l[j]? with
  | some x => rfl
  | none => unfold vtTa; cases p.vtype.getLsbD 5 <;> rfl
theorem countUpdates_othersKept (s : State) (k v : Nat) (p : Strand) (l : List Nat) :
    OthersKept s (vputs s k v (ewBits p.vtype) (countUpdates p (vlmaxOf p.vtype) l)) k v (grpRegs p.vtype) := fun _ hc =>
  vputs_other _ _ _ _ _ _ fun _ hq => hc _ (elem_lt_grpRegs (countUpdates_lt hq))
theorem counted_eq (vt : BitVec 8) (w : Nat) (l : List Nat) (j old : Nat) :
    counted vt w l j old = ((l.map (· % 2 ^ w))[j]?).getD (if vt.getLsbD 5 then 0 else old) := by
  unfold counted
  rw [List.getElem?_map]
  cases l[j]? <;> rfl
/-- Lists that agree in their elements' low bits are written alike. -/
theorem counted_congr {w : Nat} {l L : List Nat} (hl : l.map (· % 2 ^ w) = L.map (· % 2 ^ w)) (vt : BitVec 8) (j old : Nat) :
    counted vt w l j old = counted vt w L j old := by
  rw [counted_eq, hl, ← counted_eq]
theorem map_mod_mod (w : Nat) (l : List Nat) : (l.map (· % 2 ^ w)).map (· % 2 ^ w) = l.map (· % 2 ^ w) := by
  simp only [List.map_map, Function.comp_def, Nat.mod_mod]

/-- Instruction i completes with L written from element 0 up of vd and VL set to its length, or, where there is nothing to process, with neither. -/
def CountResult (i : Instr) (s : State) (k : Nat) (va : VSrc) (vd : Nat) (L : List Nat) : Prop :=
  let p := s.strand k
  let e := ewBits p.vtype
  Runs i s (fun t =>
    (∀ j, j < vlmaxOf p.vtype → vget t k vd e j = if s.idle then vget s k vd e j else counted p.vtype e L j (vget s k vd e j)) ∧
    OthersKept s t k vd (grpRegs p.vtype) ∧ VectorEnds s k va 0 (fun q => if s.idle then q else q.setVl L.length) t)

section
variable {s : State} {k : Nat} (h : s.actor = .strand k)
include h

/-- writeCounted writes the list and then VL. -/
theorem writeCounted_eq (vd w : Nat) (l : List Nat) : writeCounted s vd w l =
    (vputs s k vd w (countUpdates (s.strand k) (vlmaxOf (s.strand k).vtype) l)).upd k (fun q => q.setVl l.length) := by
  have hkey : (vputs s k vd w (countUpdates (s.strand k) (vlmaxOf (s.strand k).vtype) l)).key = k :=
    (congrArg State.key (vputs_frame ..) :).trans (State.key_strand h)
  rw [writeCounted, State.updMe, State.key_strand h, State.me_strand h, State.vlmax, State.me_strand h, hkey]
theorem writeCounted_actor (vd w : Nat) (l : List Nat) : (writeCounted s vd w l).actor = .strand k := by
  rw [writeCounted_eq h]
  exact (congrArg State.actor (vputs_frame ..) :).trans h

/-- What an instruction leaves that writes a list from element 0 up with its count, and pops the slot of its queue operand. -/
theorem writeCounted_through (va : VSrc) (vd : Nat) {l L : List Nat}
    (hl : l.map (· % 2 ^ ewBits (s.strand k).vtype) = L.map (· % 2 ^ ewBits (s.strand k).vtype)) :
    let p := s.strand k
    let e := ewBits p.vtype
    let t := vdone (vaPop (writeCounted s vd e l) va)
    (∀ j, j < vlmaxOf p.vtype → vget t k vd e j = counted p.vtype e L j (vget s k vd e j)) ∧ OthersKept s t k vd (grpRegs p.vtype) ∧
    t.strand k = { (((vaPop s va).strand k).setVl L.length).onward with vstart := 0 } ∧ (∀ j, j ≠ k → t.strand j = (vaPop s va).strand j) ∧
    { t with strands := s.strands, vregs := s.vregs } = s := by
  intro p e t
  have hlen : l.length = L.length := by simpa only [List.length_map] using congrArg List.length hl
  obtain ⟨hme, hothers, hrest, hvregs⟩ := upd_vaPop_upd (vputs_frame s k vd e (countUpdates p (vlmaxOf p.vtype) l)) va k
    (f := fun q => q.setVl l.length) (fun q => { q.onward with vstart := 0 }) (fun _ => rfl) (fun _ _ => rfl) (fun _ _ => rfl)
  have ht : t = _ := vdone_strand ((vaPop_actor ..).trans (writeCounted_actor h vd e l))
  rw [← writeCounted_eq h, ← ht] at hme hothers hrest hvregs
  rw [hlen] at hme
  obtain ⟨r, r', hpop⟩ := vaPop_strand s va k
  refine ⟨fun j hj => ?elem, fun c hc => ?reg, hme, hothers, hrest⟩
  case elem =>
    rw [vget_congr (s := vputs s k vd e (countUpdates p (vlmaxOf p.vtype) l)) (by rw [hme, hpop, vputs_strand]; rfl) hvregs, vget_counted _ _ _ _ _ hj]
    exact counted_congr hl ..
  case reg => exact (congrArg (sget 0 · c) hvregs).trans (countUpdates_othersKept s k vd p l c hc)

theorem writeCounted_result {i : Instr} {va : VSrc} {vd : Nat} {l L : List Nat}
    (hi : exec i s = .next (if s.idle then vdone s else vdone (vaPop (writeCounted s vd (ewBits (s.strand k).vtype) l) va)))
    (hl : l.map (· % 2 ^ ewBits (s.strand k).vtype) = L.map (· % 2 ^ ewBits (s.strand k).vtype)) : CountResult i s k va vd L := by
  refine ⟨_, hi, ?_⟩
  cases hid : s.idle with
  | true =>
    obtain ⟨hends, hvregs⟩ := vdone_ends h hid va
    exact ⟨fun j _ => hends.vget_eq rfl hvregs _ _ j, fun c _ => congrArg (sget 0 · c) hvregs, hends⟩
  | false =>
    obtain ⟨helems, hregs, hme, hothers, hrest⟩ := writeCounted_through h va vd hl
    obtain ⟨r, r', hpop⟩ := vaPop_strand s va k
    refine ⟨helems, hregs, ?_⟩
    rw [VectorEnds, hid]
    refine ⟨hme.trans ?_, hothers, hrest⟩
    have hflags : (s.strand k).fflags ||| 0 = (s.strand k).fflags := BitVec.or_zero
    simp only [Bool.false_eq_true, if_false, hflags, hpop]
    rfl
end

/-! ## The elements that take part below a position (R235, R236, R239) -/

theorem range_filter_lt (n b : Nat) : (List.range n).filter (· < b) = List.range (min n b) := by
  simpa only [List.Ico.zero_bot] using List.Ico.filter_lt 0 n b
/-- A filter that keeps nothing from b on may stop there. -/
theorem filter_range_min {P : Nat → Bool} {b : Nat} (hP : ∀ i, P i = true → i < b) (n : Nat) :
    (List.range (min n b)).filter P = (List.range n).filter P := by
  rw [← range_filter_lt, List.filter_filter]
  refine List.filter_congr fun i _ => ?_
  cases hi : P i with
  | true => rw [Bool.true_and, decide_eq_true (hP i hi)]
  | false => rfl

/-- The elements below i that take part, in order. -/
def takingPartBelow (p : Strand) (m : Msk) (i : Nat) : List Nat := (List.range i).filter (fun j => decide (Processed p m j))

section
variable {s : State} {k : Nat} (h : s.actor = .strand k) (m : Msk)
include h

theorem takers_eq : s.takers m = takingPartBelow (s.strand k) m (s.strand k).vl.toNat := processed_list h m
theorem takers_below (i : Nat) : (s.takers m).filter (· < i) = takingPartBelow (s.strand k) m i := by
  have hend : ∀ j, decide (Processed (s.strand k) m j) = true → j < (s.strand k).vl.toNat := fun j hj => (of_decide_eq_true hj).2.1
  unfold takingPartBelow
  rw [takers_eq h, takingPartBelow, List.filter_comm, range_filter_lt, min_comm, filter_range_min hend]
theorem rank_eq (i : Nat) : rank s m i = (takingPartBelow (s.strand k) m i).length := by rw [rank, takers_below h]
end

/-! ## Scans (R238) -/

/-- A result more of a segment: its first element's, or the next one of the running result, whose flags it keeps. -/
def scanStep (first : Nat → FRes) (op : Nat → Nat → FRes) (x : Nat → Nat) (acc : Option FRes) (i : Nat) : FRes :=
  match acc with
  | none => first (x i)
  | some r => ((op r.1 (x i)).1, r.2 ||| (op r.1 (x i)).2)
/-- The running result after the elements of a segment, if it has any. -/
def scanAcc (first : Nat → FRes) (op : Nat → Nat → FRes) (x : Nat → Nat) (l : List Nat) : Option FRes :=
  l.foldl (fun acc i => some (scanStep first op x acc i)) none
/-- The elements below i that take part, after which no segment starts below i. -/
def openSegment (P : Nat → Prop) [DecidablePred P] (head : Nat → Bool) (i : Nat) : List Nat :=
  (List.range i).filter (fun j => decide (P j ∧ ∀ c, c < i → j < c → head c = false))
/-- The result of a segment with elements: the first one's, and each next one's of the running result, with the flags of all. -/
def segmentFold (first : Nat → FRes) (op : Nat → Nat → FRes) (x : Nat → Nat) (l : List Nat) : FRes :=
  l.tail.foldl (fun r i => ((op r.1 (x i)).1, r.2 ||| (op r.1 (x i)).2)) (first (x (l.headD 0)))
/-- A running result raises flag b. -/
def Raises (acc : Option FRes) (b : Nat) : Prop := ∃ r, acc = some r ∧ r.2.getLsbD b = true

section
variable {first : Nat → FRes} {op : Nat → Nat → FRes} {x : Nat → Nat} {head act : Nat → Bool} {P : Nat → Prop} [DecidablePred P]

theorem scanAcc_concat (l : List Nat) (i : Nat) : scanAcc first op x (l ++ [i]) = some (scanStep first op x (scanAcc first op x l) i) := by
  unfold scanAcc; rw [List.foldl_append]; rfl
theorem scanAcc_eq_segmentFold {l : List Nat} (hl : l ≠ []) : scanAcc first op x l = some (segmentFold first op x l) := by
  induction l using List.reverseRecOn with
  | nil => exact absurd rfl hl
  | append_singleton l i ih =>
    rw [scanAcc_concat]
    cases l with
    | nil => rfl
    | cons j l =>
      rw [ih (List.cons_ne_nil j l)]
      simp only [segmentFold, List.cons_append, List.tail_cons, List.headD_cons, List.foldl_append]
      rfl
/-- The open segment one element on: a head at i ends the one before, and i joins where it takes part. -/
theorem openSegment_succ (i : Nat) :
    openSegment P head (i + 1) = (if head i then [] else openSegment P head i) ++ (if P i then [i] else []) := by
  have hlast : (P i ∧ ∀ c, c < i + 1 → i < c → head c = false) ↔ P i := and_iff_left fun c hc hi => absurd hi (by omega)
  unfold openSegment
  rw [List.range_succ, List.filter_append]
  congr 1
  · cases hh : head i with
    | true =>
      refine List.filter_eq_nil_iff.2 fun j hj hd => ?_
      obtain ⟨-, hnone⟩ := of_decide_eq_true hd
      exact Bool.false_ne_true ((hnone i (Nat.lt_succ_self i) (List.mem_range.1 hj)).symm.trans hh)
    | false =>
      refine List.filter_congr fun j hj => decide_eq_decide.2 (and_congr_right fun _ => ⟨fun hall c hc => hall c (by omega), fun hall c hc hjc => ?_⟩)
      rcases Nat.lt_succ_iff_lt_or_eq.1 hc with hlt | rfl
      · exact hall c hlt hjc
      · exact hh
  · simp only [List.filter_cons, List.filter_nil, hlast, decide_eq_true_eq]
theorem openSegment_ne_nil {i : Nat} (hp : P i) : openSegment P head (i + 1) ≠ [] := by
  rw [openSegment_succ, if_pos hp]; exact List.append_ne_nil_of_right_ne_nil _ (List.cons_ne_nil i [])

/-- The running result that element i finds: none at the head of a segment. -/
def accAt (first : Nat → FRes) (op : Nat → Nat → FRes) (x : Nat → Nat) (P : Nat → Prop) [DecidablePred P] (head : Nat → Bool) (i : Nat) : Option FRes :=
  if head i then none else scanAcc first op x (openSegment P head i)
theorem accAt_eq (i : Nat) : accAt first op x P head i = scanAcc first op x (if head i then [] else openSegment P head i) := by
  unfold accAt; split <;> rfl
theorem scanAcc_active {i : Nat} (hp : P i) :
    scanAcc first op x (openSegment P head (i + 1)) = some (scanStep first op x (accAt first op x P head i) i) := by
  rw [openSegment_succ, if_pos hp, scanAcc_concat, accAt_eq]
theorem scanAcc_inactive {i : Nat} (hp : ¬P i) : scanAcc first op x (openSegment P head (i + 1)) = accAt first op x P head i := by
  rw [openSegment_succ, if_neg hp, List.append_nil, accAt_eq]
theorem raises_of_accAt {i b : Nat} (hr : Raises (accAt first op x P head i) b) : Raises (scanAcc first op x (openSegment P head i)) b := by
  unfold accAt at hr
  split at hr
  · exact nomatch hr
  · exact hr

/-- The flags of the operation that element i takes part in. -/
def ownFlags (first : Nat → FRes) (op : Nat → Nat → FRes) (x : Nat → Nat) (acc : Option FRes) (i : Nat) : BitVec 6 :=
  match acc with
  | none => (first (x i)).2
  | some r => (op r.1 (x i)).2
theorem raises_scanStep (acc : Option FRes) (i b : Nat) :
    Raises (some (scanStep first op x acc i)) b ↔ Raises acc b ∨ (ownFlags first op x acc i).getLsbD b = true := by
  cases acc with
  | none => simp [Raises, scanStep, ownFlags]
  | some r => simp [Raises, scanStep, ownFlags]

/-- A scan from element i, where the open segment is the one before it: an element that takes part adds its result and its flags. -/
theorem scanFrom_active {i : Nat} (l : List Nat) (hp : P i) (ha : act i = true) :
    let A := accAt first op x P head i
    let r := scanFrom head act first op x l ((scanAcc first op x (openSegment P head (i + 1))).map (·.1))
    scanFrom head act first op x (i :: l) ((scanAcc first op x (openSegment P head i)).map (·.1)) =
      ((i, (scanStep first op x A i).1) :: r.1, ownFlags first op x A i ||| r.2) := by
  simp only [scanFrom, ha, if_true, scanAcc_active hp]
  unfold accAt
  cases head i with
  | true => rfl
  | false =>
    simp only [Bool.false_eq_true, if_false]
    cases scanAcc first op x (openSegment P head i) <;> rfl
theorem scanFrom_inactive {i : Nat} (l : List Nat) (hp : ¬P i) (ha : act i = false) :
    scanFrom head act first op x (i :: l) ((scanAcc first op x (openSegment P head i)).map (·.1)) =
      scanFrom head act first op x l ((scanAcc first op x (openSegment P head (i + 1))).map (·.1)) := by
  simp only [scanFrom, ha, Bool.false_eq_true, if_false, scanAcc_inactive hp]
  unfold accAt
  cases head i <;> rfl

/-- What a scan over elements a to a + n − 1 gives an element that takes part: the result of its segment up to it. -/
theorem scanFrom_value (n a : Nat) (hact : ∀ j, a ≤ j → j < a + n → (act j = true ↔ P j)) {j : Nat} (ha : a ≤ j) (hn : j < a + n) (hp : P j) :
    sfind (scanFrom head act first op x (upFrom a n) ((scanAcc first op x (openSegment P head a)).map (·.1))).1 j =
      some (segmentFold first op x (openSegment P head (j + 1))).1 := by
  induction n generalizing a with
  | zero => omega
  | succ n ih =>
    have hrest := fun hne : a ≠ j => ih (a + 1) (fun i hi hin => hact i (by omega) (by omega)) (by omega) (by omega)
    have hhere := hact a (Nat.le_refl a) (by omega)
    rw [upFrom, List.range'_succ, ← upFrom]
    by_cases hpa : P a
    · rw [scanFrom_active _ hpa (hhere.2 hpa), sfind]
      split
      next haj =>
        subst haj
        have hseg := (scanAcc_active (first := first) (op := op) (x := x) (head := head) hpa).symm.trans (scanAcc_eq_segmentFold (openSegment_ne_nil hpa))
        rw [Option.some.inj hseg]
      next hne => exact hrest hne
    · rw [scanFrom_inactive _ hpa (Bool.eq_false_iff.2 (mt hhere.1 hpa))]
      exact hrest fun haj => hpa (haj ▸ hp)
theorem or_absorb {O A R E : Prop} (hA : A → O) (h : A ∨ R ↔ A ∨ E) : O ∨ R ↔ O ∨ E := by
  rw [← or_iff_left_of_imp hA, or_assoc, h, or_assoc]
/-- The flags of such a scan, with those of the segment open before it: those of the segments of the elements that take part. -/
theorem scanFrom_flags (n a : Nat) (hact : ∀ j, a ≤ j → j < a + n → (act j = true ↔ P j)) (b : Nat) :
    Raises (scanAcc first op x (openSegment P head a)) b ∨
      (scanFrom head act first op x (upFrom a n) ((scanAcc first op x (openSegment P head a)).map (·.1))).2.getLsbD b = true ↔
    Raises (scanAcc first op x (openSegment P head a)) b ∨
      ∃ j, a ≤ j ∧ j < a + n ∧ P j ∧ (segmentFold first op x (openSegment P head (j + 1))).2.getLsbD b = true := by
  induction n generalizing a with
  | zero =>
    refine or_congr_right (iff_of_false (by simp [upFrom, scanFrom]) ?_)
    rintro ⟨j, hj, hn, -⟩
    omega
  | succ n ih =>
    have hrest := ih (a + 1) (fun i hi hin => hact i (by omega) (by omega))
    have hhere := hact a (Nat.le_refl a) (by omega)
    have hfirst : (∃ j, a ≤ j ∧ j < a + (n + 1) ∧ P j ∧ (segmentFold first op x (openSegment P head (j + 1))).2.getLsbD b = true) ↔
        (P a ∧ (segmentFold first op x (openSegment P head (a + 1))).2.getLsbD b = true) ∨
        ∃ j, a + 1 ≤ j ∧ j < a + 1 + n ∧ P j ∧ (segmentFold first op x (openSegment P head (j + 1))).2.getLsbD b = true := by
      constructor
      · rintro ⟨j, hj, hn, hrest⟩
        rcases Nat.eq_or_lt_of_le hj with rfl | hlt
        · exact .inl hrest
        · exact .inr ⟨j, hlt, by omega, hrest⟩
      · rintro (hrest | ⟨j, hj, hn, hrest⟩)
        · exact ⟨a, Nat.le_refl a, by omega, hrest⟩
        · exact ⟨j, by omega, by omega, hrest⟩
    have hopen := raises_of_accAt (first := first) (op := op) (x := x) (P := P) (head := head) (i := a) (b := b)
    rw [upFrom, List.range'_succ, ← upFrom]
    by_cases hpa : P a
    · have hseg : Raises (scanAcc first op x (openSegment P head (a + 1))) b ↔ (segmentFold first op x (openSegment P head (a + 1))).2.getLsbD b = true := by
        rw [scanAcc_eq_segmentFold (openSegment_ne_nil hpa)]; simp [Raises]
      rw [hseg] at hrest
      rw [scanAcc_active hpa, raises_scanStep] at hseg
      rw [scanFrom_active _ hpa (hhere.2 hpa), BitVec.getLsbD_or, Bool.or_eq_true, hfirst, and_iff_right hpa]
      refine or_absorb hopen ?_
      rw [← or_assoc, hseg, hrest, ← or_assoc, or_iff_right_of_imp fun hA => hseg.1 (.inl hA)]
    · rw [scanAcc_inactive hpa] at hrest
      rw [scanFrom_inactive _ hpa (Bool.eq_false_iff.2 (mt hhere.1 hpa)), scanAcc_inactive hpa, hfirst.trans (or_iff_right fun ⟨hp, _⟩ => hpa hp)]
      exact or_absorb hopen hrest
end

/-- The bits that start segments: none, or those of the mask that a scan's head operand names. -/
def headBit (p : Strand) : Head → Nat → Bool
  | .none, _ => false
  | .mask c, i => (p.mask c).getLsbD i

/-- A scan over the elements from VSTART to vl − 1: its results and its flags. -/
theorem scanFrom_body (p : Strand) (m : Msk) (head : Nat → Bool) (first : Nat → FRes) (op : Nat → Nat → FRes) (x : Nat → Nat) :
    let r := scanFrom head (active p m) first op x (upFrom p.vstart.toNat (p.vl.toNat - p.vstart.toNat)) none
    let segment (j : Nat) := segmentFold first op x (openSegment (Processed p m) head (j + 1))
    (∀ j, Processed p m j → sfind r.1 j = some (segment j).1) ∧
    ∀ b, r.2.getLsbD b = true ↔ ∃ j, Processed p m j ∧ (segment j).2.getLsbD b = true := by
  have hact : ∀ j, p.vstart.toNat ≤ j → j < p.vstart.toNat + (p.vl.toNat - p.vstart.toNat) → (active p m j = true ↔ Processed p m j) := fun j hj hn => by
    rw [processed_iff, and_iff_right hj, and_iff_right (by omega)]
  have hnone : openSegment (Processed p m) head p.vstart.toNat = [] := List.filter_eq_nil_iff.2 fun j hj hd => by
    obtain ⟨⟨hstart, -⟩, -⟩ := of_decide_eq_true hd
    exact Nat.not_lt.2 hstart (List.mem_range.1 hj)
  refine ⟨fun j hp => ?value, fun b => ?flags⟩
  case value =>
    have hj := hp
    obtain ⟨hstart, hbody, -⟩ := hj
    have hvalue := scanFrom_value (first := first) (op := op) (x := x) (head := head) _ _ hact hstart (by omega) hp
    rwa [hnone] at hvalue
  case flags =>
    have hflags := scanFrom_flags (first := first) (op := op) (x := x) (head := head) _ _ hact b
    have hno : ¬Raises (scanAcc first op x []) b := fun ⟨_, hr, _⟩ => nomatch hr
    rw [hnone, or_iff_right hno, or_iff_right hno] at hflags
    refine hflags.trans (exists_congr fun j => ⟨fun ⟨_, _, hrest⟩ => hrest, fun hrest => ⟨?_, ?_, hrest⟩⟩)
    all_goals obtain ⟨⟨hstart, hbody, -⟩, -⟩ := hrest; omega

section
variable {s : State} {k : Nat} (h : s.actor = .strand k) {i : Instr} {va : VSrc} {m : Msk}
include h

/-- An instruction whose updates give g where an element is processed, and whose flags are those of g, completes with g. -/
theorem updates_result {vd w : Nat} (hw : 4096 % w = 0) {f : Nat → Option Nat} {fl : BitVec 6}
    (hi : exec i s = .next (if s.idle then vdone s
      else vdone ((vaPop (vputs s k vd w (updates (s.strand k) m (vlmaxOf (s.strand k).vtype) f)) va).updMe (·.accrue fl)))) {g : Nat → FRes}
    (hf : ∀ j, Processed (s.strand k) m j → f j = some (g j).1)
    (hfl : ∀ b, fl.getLsbD b = true ↔ ∃ j, Processed (s.strand k) m j ∧ (g j).2.getLsbD b = true) :
    VectorResult i s k va vd w (vlmaxOf (s.strand k).vtype) m g := by
  refine ⟨_, hi, ?_⟩
  cases hid : s.idle with
  | true =>
    have hge : (s.strand k).vl.toNat ≤ (s.strand k).vstart.toNat := by
      simpa only [State.vl, State.vstart, State.me_strand h] using idle_iff.1 hid
    obtain ⟨hends, hvregs⟩ := vdone_ends h hid va
    have helem := hends.vget_eq rfl hvregs vd w
    rw [VectorEnds, if_pos hid] at hends
    obtain ⟨hme, hothers, hrest⟩ := hends
    refine ⟨⟨fun j _ => ?elem, fun c _ => congrArg (sget 0 · c) hvregs⟩, ?me, fun b => ?flags, hothers, hrest⟩
    case elem => exact (helem j).trans (if_pos (.inl hge)).symm
    case me => simp only [if_true, hme, id_eq]
    case flags =>
      rw [or_iff_left fun ⟨j, hp, _⟩ => not_processed_of_idle hge m j hp, if_pos rfl, hme]
      exact iff_of_eq (congrArg (fun fl : BitVec 6 => fl.getLsbD b = true) BitVec.or_zero)
  | false =>
    obtain ⟨hends, hvregs⟩ := vputs_ends h hid va vd w (updates (s.strand k) m (vlmaxOf (s.strand k).vtype) f) fl
    have helem := hends.vget_eq (vputs_strand ..) hvregs vd w
    rw [VectorEnds, if_neg (Bool.eq_false_iff.1 hid)] at hends
    obtain ⟨hme, hothers, hrest⟩ := hends
    refine ⟨⟨fun j hj => ?elem', fun c hc => ?reg⟩, ?me', fun b => ?flags', hothers, hrest⟩
    case elem' =>
      refine (helem j).trans ((vget_updates_after _ _ _ _ hw hj ((State.not_idle_iff h).1 hid)).trans ?_)
      by_cases hp : Processed (s.strand k) m j
      · rw [hf j hp]; rfl
      · simp only [afterPolicy, if_neg hp]
    case reg => exact (congrArg (sget 0 · c) hvregs).trans (vputs_other _ _ _ _ _ _ fun q hq => hc q.1 (updates_mem hq))
    case me' =>
      refine hme.trans ?_
      rw [if_neg Bool.false_ne_true, if_neg Bool.false_ne_true, hme]
      rfl
    case flags' =>
      rw [← hfl, if_neg Bool.false_ne_true, hme, ← Bool.or_eq_true, ← BitVec.getLsbD_or]
      rfl

section
variable {word : Word} {ok : Bool} {first : Nat → FRes} {op : Nat → Nat → FRes} {vd : Reg} {hd : Head}
  (hi : exec i s = vscan word ok first op vd va hd m s)
  (hr : VectorReady s k ((vd.toNat, grpRegs (s.strand k).vtype) :: sourceGroups va (.xreg 0) (grpRegs (s.strand k).vtype)) va
    (ewBits (s.strand k).vtype) m)
include hi hr

/-- A legal scan gives each processed element the result of its segment up to it. -/
theorem vscan_result (hok : ok = true) : let e := ewBits (s.strand k).vtype
    VectorResult i s k va vd.toNat e (vlmaxOf (s.strand k).vtype) m
      (fun j => segmentFold first op (vaElem s va e) (openSegment (Processed (s.strand k) m) (headBit (s.strand k) hd) (j + 1))) := by
  intro e
  rw [sourceGroups_xreg] at hr
  obtain ⟨hvalue, hflags⟩ := scanFrom_body (s.strand k) m (headBit (s.strand k) hd) first op (vaElem s va e)
  refine updates_result h (ewBits_dvd _) (hi.trans ?_) hvalue hflags
  have hchecks := vchecks_ok h hr (takers_processed h m) word
  unfold vscan
  simp only [State.ew, State.grp, State.vlmax, State.body, State.vl, State.vstart, State.me_strand h, State.key_strand h, hok]
  refine (vguard_ok hchecks _ s).trans ?_
  cases hd <;> rfl
theorem vscan_illegal (hok : ok = false) (hword : encode i = some word) : Illegal i s := by
  refine illegal_of_checks hi ?_ hword
  rw [sourceGroups_xreg] at hr
  simp only [State.grp, State.ew, State.me_strand h, hok]
  exact vchecks_illegal h hr _ word
end
end

/-! ## Compaction, expansion and conflicts (R233 to R236) -/

/-- Results that agree on the elements that are processed are one result, where no flag is raised. -/
theorem MaskResult.congr_processed {i : Instr} {s : State} {k : Nat} {va : VSrc} {md : BitVec 3} {n : Nat} {m : Msk} {f g : Nat → Bool}
    (h : MaskResult i s k va md n m (fun j => (f j, 0))) (hfg : ∀ j, Processed (s.strand k) m j → f j = g j) :
    MaskResult i s k va md n m (fun j => (g j, 0)) := by
  obtain ⟨t, hi, hmask, hrest⟩ := h
  refine ⟨t, hi, fun c j => (hmask c j).trans ?_, hrest⟩
  unfold afterPolicy
  by_cases hp : Processed (s.strand k) m j
  · simp only [hfg j hp]
  · simp only [if_neg hp]

section
variable {s : State} {k : Nat} (h : s.actor = .strand k)
include h

theorem maskEffect_flagless (va : VSrc) (md : BitVec 3) (m : Msk) (f : Nat → Bool) :
    maskEffect s va md m (fun j => (f j, 0)) = if s.idle then vdone s else vdone (vaPop (maskUpdates s m md f) va) := by
  have hflags : flagsOver s m (fun _ => 0) = 0 := List.foldl_fixed' (fun _ => BitVec.or_zero) _
  have hactor : (vaPop (maskUpdates s m md f) va).actor = .strand k := (vaPop_actor ..).trans h
  simp only [maskEffect, hflags, vdone_upd hactor, vdone_strand hactor, Strand.accrue_zero]

section
variable {va : VSrc} {vd : Reg} {m : Msk}

theorem vcompress_result (hr : VectorReady s k ((vd.toNat, grpRegs (s.strand k).vtype) :: sourceGroups va (.xreg 0) (grpRegs (s.strand k).vtype)) va
      (ewBits (s.strand k).vtype) m) :
    CountResult (.vcompress vd va m) s k va vd.toNat
      ((takingPartBelow (s.strand k) m (s.strand k).vl.toNat).map (vaElem s va (ewBits (s.strand k).vtype))) := by
  rw [sourceGroups_xreg] at hr
  have hchecks := vchecks_ok h hr (takers_processed h m) (wVcompress vd va m)
  refine writeCounted_result h ?_ rfl
  rw [exec_vcompress, execVcompress, State.ew, State.grp, State.me_strand h, vguard_ok hchecks, takers_eq h]
theorem vexpand_result (hr : VectorReadyFor s k ((vd.toNat, grpRegs (s.strand k).vtype) :: sourceGroups va (.xreg 0) (grpRegs (s.strand k).vtype)) va
      (ewBits (s.strand k).vtype) (· < (takingPartBelow (s.strand k) m (s.strand k).vl.toNat).length)) :
    let e := ewBits (s.strand k).vtype
    let n := vlmaxOf (s.strand k).vtype
    VectorResult (.vexpand vd va m) s k va vd.toNat e n m (fun j => (vaSrc s va e n (takingPartBelow (s.strand k) m j).length, 0)) := by
  intro e n
  rw [sourceGroups_xreg] at hr
  have hchecks := vchecks_ok h hr (fun i hi => List.mem_range.1 hi) (wVexpand vd va m)
  refine permuteEffect_result h (f := fun j => some (vaSrc s va e n (takingPartBelow (s.strand k) m j).length)) ?_ (ewBits_dvd _) fun j => rfl
  rw [exec_vexpand, execVexpand]
  simp only [State.ew, State.grp, State.vlmax, State.me_strand h, takers_eq h, rank_eq h]
  refine (vguard_ok hchecks _ s).trans ?_
  simp only [permuteEffect, State.vlmax, State.me_strand h]
  rfl
theorem vpopx_result (hgroup : vd.toNat % grpRegs (s.strand k).vtype = 0 ∧ vd.toNat + grpRegs (s.strand k).vtype ≤ (s.strand k).window) :
    CountResult (.vpopx vd m) s k (.vreg 0) vd.toNat (takingPartBelow (s.strand k) m (s.strand k).vl.toNat) := by
  refine writeCounted_result h ?_ (map_mod_mod ..)
  rw [exec_vpopx, execVpopx, State.ew, State.grp, State.me_strand h, vguard_ok (groupsOk_ok (List.forall_mem_singleton.2 hgroup)), takers_eq h]
  rfl
theorem vconf_result {md : BitVec 3} (hr : VectorReady s k (sourceGroups va (.xreg 0) (grpRegs (s.strand k).vtype)) va (ewBits (s.strand k).vtype) m) :
    let a := vaElem s va (ewBits (s.strand k).vtype)
    MaskResult (.vconf md va m) s k va md (vlmaxOf (s.strand k).vtype) Msk.all
      (fun j => (decide (Processed (s.strand k) m j) && (takingPartBelow (s.strand k) m j).any (fun i => a i == a j), 0)) := by
  intro a
  rw [sourceGroups_xreg] at hr
  have hchecks := vchecks_ok h hr (takers_processed h m) (wVconf md va m)
  have hexec : exec (.vconf md va m) s = .next (maskEffect s va md Msk.all
      (fun j => (active (s.strand k) m j && (takingPartBelow (s.strand k) m j).any (fun i => a i == a j), 0))) := by
    rw [exec_vconf, execVconf, State.ew, State.grp, State.me_strand h, vguard_ok hchecks, maskEffect_flagless h]
    simp only [takers_below h]
    rfl
  refine (maskEffect_result h hexec).congr_processed fun j hp => ?_
  obtain ⟨hstart, hbody, -⟩ := hp
  have hactive : active (s.strand k) m j = decide (Processed (s.strand k) m j) := by
    rw [Bool.eq_iff_iff, decide_eq_true_iff, processed_iff, and_iff_right hstart, and_iff_right hbody]
  rw [hactive]
end

/-! ## Counts over masks (R239) -/

theorem viota_result {vd : Reg} {md : BitVec 3} {m : Msk}
    (hgroup : vd.toNat % grpRegs (s.strand k).vtype = 0 ∧ vd.toNat + grpRegs (s.strand k).vtype ≤ (s.strand k).window) :
    VectorResult (.viota vd md m) s k (.vreg 0) vd.toNat (ewBits (s.strand k).vtype) (vlmaxOf (s.strand k).vtype) m
      (fun j => (((takingPartBelow (s.strand k) m j).filter ((s.strand k).mask md).getLsbD).length, 0)) := by
  have hexec : exec (.viota vd md m) s = .next (permuteEffect s (.vreg 0) vd.toNat (ewBits (s.strand k).vtype) m
      (fun j => some (((takingPartBelow (s.strand k) m j).filter ((s.strand k).mask md).getLsbD).length % 2 ^ ewBits (s.strand k).vtype))) := by
    rw [exec_viota, execViota]
    simp only [State.ew, State.grp, State.me_strand h, takers_below h, List.countP_eq_length_filter]
    refine (vguard_ok (groupsOk_ok (List.forall_mem_singleton.2 hgroup)) _ s).trans ?_
    simp only [permuteEffect, State.me_strand h]
    rfl
  have hresult := permuteEffect_result h hexec (ewBits_dvd _) fun j => rfl
  refine VectorResult.congr (fun j => ⟨?bits, ?flags⟩) hresult
  case bits => exact Nat.mod_mod ..
  case flags => rfl
theorem vfirst_gives (x : Reg) (md : BitVec 3) (m : Msk) : Runs (.vfirst x md m) s (StrandBecomes s k { (s.strand k).gives x
    (match (takingPartBelow (s.strand k) m (s.strand k).vl.toNat).find? ((s.strand k).mask md).getLsbD with
      | some i => BitVec.ofNat 64 i | none => 0xFFFFFFFFFFFFFFFF) with vstart := 0 }) := by
  refine ⟨_, exec_vfirst, ?_⟩
  rw [takers_eq h, State.me_strand h]
  exact vdone_gives h ..
theorem vcpop_gives (x : Reg) (md : BitVec 3) (m : Msk) : Runs (.vcpop x md m) s (StrandBecomes s k { (s.strand k).gives x
    (BitVec.ofNat 64 ((takingPartBelow (s.strand k) m (s.strand k).vl.toNat).filter ((s.strand k).mask md).getLsbD).length) with vstart := 0 }) := by
  refine ⟨_, exec_vcpop, ?_⟩
  rw [takers_eq h, State.me_strand h, List.countP_eq_length_filter]
  exact vdone_gives h ..
end

/-! ## Block lists (R240 to R242) -/

/-- No block of 2^17 or more is kept: a window ends below QBLK + WIDTH, and an anchor has 16 bits. -/
theorem BlkParam.lt_of_kept {P : BlkParam} (hq : P.qblk < 2 ^ 16) (hw : P.width < 2 ^ 16) (ha : ∀ a ∈ P.anch, a < 2 ^ 16) {i : Nat}
    (hi : blkKept P i = true) : i < 2 ^ 17 := by
  obtain ⟨-, hkept⟩ := (Bool.and_eq_true _ _).mp hi
  rcases (Bool.or_eq_true _ _).mp hkept with hwindow | hanchor
  · obtain ⟨-, hlast⟩ := (Bool.and_eq_true _ _).mp hwindow
    have hlast := of_decide_eq_true hlast
    cases hc : P.causal <;> simp only [hc, if_true, Bool.false_eq_true, if_false] at hlast <;> omega
  · obtain ⟨hanchor, -⟩ := (Bool.and_eq_true _ _).mp hanchor
    exact (ha i (List.mem_of_mem_take (List.contains_iff_mem.1 hanchor))).trans (by decide)
theorem lt_of_blkKept {n i : Nat} (hi : blkKept (blkParam n) i = true) : i < 2 ^ 17 := by
  refine BlkParam.lt_of_kept ?_ (Nat.mod_lt _ (by decide)) (fun a ha => ?_) hi
  · exact Int.ofNat_lt.2 (Nat.mod_lt (n / 2 ^ (8 * 0)) (by decide : 0 < 2 ^ (8 * 2)))
  · obtain ⟨j, -, rfl⟩ := List.mem_map.1 ha
    exact Nat.mod_lt _ (by decide)

/-- The mask parameter block that vblklist reads. -/
def blkRead (s : State) (va : VSrc) : BlkParam := blkParam (packElems 8 ((List.range 64).map (vaElem s va 8)))
/-- The number of its operand in EADDR, where the block is not sound. -/
def blkCode : VSrc → Nat
  | .vreg v => v.toNat
  | .queue q => queueCode q
/-- The kept blocks below a number, as many as the destination holds. -/
def blkKeptBelow (s : State) (k : Nat) (va : VSrc) (n : Nat) : List Nat :=
  ((List.range n).filter (blkKept (blkRead s va))).take (vlmaxOf (s.strand k).vtype)

section
variable {s : State} {k : Nat} (h : s.actor = .strand k) {vd x : Reg} {va : VSrc} (he : ewBits (s.strand k).vtype ≠ 8)
  (hgroups : ∀ r ∈ (vd.toNat, grpRegs (s.strand k).vtype) :: sourceGroups va (.xreg 0) (grpRegs (s.strand k).vtype),
    r.1 % r.2 = 0 ∧ r.1 + r.2 ≤ (s.strand k).window)
  (hqueue : ∀ q, va = .queue q → queueName s q = .ok () ∧ QueueReads s k q (ewBits (s.strand k).vtype) (· < 512 / ewBits (s.strand k).vtype))

include h he hgroups hqueue

theorem vblklist_exec : let e := ewBits (s.strand k).vtype
    exec (.vblklist vd va x) s = .next (if (blkRead s va).sound
      then vdone (vaPop (writeCounted s vd.toNat e ((blkKeptBelow s k va (readX (s.strand k).x x).toNat).map (· % 2 ^ e))) va)
      else raise (s.upd k (fun q => { q with vstart := 0 })) ⟨.formatRecord, BitVec.ofNat 64 (blkCode va), 0⟩) := by
  intro e
  rw [sourceGroups_xreg] at hgroups
  have hlist := filter_range_min (P := blkKept (blkRead s va)) (fun _ => lt_of_blkKept) (readX (s.strand k).x x).toNat
  have hlegal : legal (e != 8) (wVblklist vd va x) = .ok () := by rw [bne_iff_ne.2 he]; rfl
  rw [exec_vblklist]
  unfold execVblklist
  simp only [State.ew, State.grp, State.vlmax, State.updMe, State.me_strand h, State.key_strand h, State.x_strand h]
  rw [check_ok (groupsOk_ok hgroups), check_ok (vaName_reads hqueue), check_ok hlegal, vaWait_reads h hqueue fun i hi => List.mem_range.1 hi]
  refine (vguard_ok rfl _ s).trans (congrArg _ ?_)
  unfold blkKeptBelow
  rw [← hlist]
  cases hsound : (blkRead s va).sound with
  | true => exact (if_neg (by rw [← blkRead, hsound]; decide)).trans (by cases va <;> rfl)
  | false => exact (if_pos (by rw [← blkRead, hsound]; decide)).trans (by cases va <;> rfl)
end

/-! ## The statement -/

theorem Strand.mask_getLsbD (p : Strand) (c : BitVec 3) :
    (p.mask c).getLsbD = fun i => if c = 0 then decide (i < 4096) else (p.m[c.toNat]'c.isLt).getLsbD i := by
  funext i
  unfold Strand.mask
  split
  · exact BitVec.getLsbD_allOnes
  · rfl

/-- Settles O29: each row is a list with its count, a scan, a permutation, a mask or a value, as the lemmas above say. -/
theorem vectorIrregular : Obligations.VectorIrregular := by
  intro s k vd md va hd x m h p e g n F a below takers bit Counts Gives fold heads segment Scan signed
  have hew : s.ew = e := by rw [State.ew, State.me_strand h]
  have hfmt : elemFmt s.me.vtype = F := by rw [State.me_strand h]
  have hbit : ∀ c, (p.mask c).getLsbD = bit c := p.mask_getLsbD
  have hheads : headBit p hd = heads := funext fun i => by
    cases hd with
    | none => rfl
    | mask c => exact congrFun (hbit c) i
  have hsegment : ∀ j, openSegment (Processed p m) (headBit p hd) (j + 1) = segment j := fun j => by
    rw [hheads]
    exact List.filter_congr fun i _ => decide_eq_decide.2 (and_congr_right fun _ => forall_congr' fun c => by rw [Nat.lt_succ_iff])
  refine ⟨fun hr => ?rows, fun hr => ?expand, fun hr => vconf_result h hr, fun halign hwindow => ⟨vpopx_result h ⟨halign, hwindow⟩, ?iota⟩, ?first, ?count, ?blocks⟩
  case rows =>
    have scan {i word ok first op} (hi : exec i s = vscan word ok first op vd va hd m s) (hok : ok = true) : Scan i first op :=
      (vscan_result h hi hr hok).congr_processed fun j _ => congrArg (segmentFold first op a) (hsegment j)
    have hsum : exec (.vsscan vd va hd m) s = vscan (wVsscan vd va hd m) true (fun x => (x, 0)) (fun r x => ((r + x) % 2 ^ e, 0)) vd va hd m s := by
      rw [exec_vsscan, execVsscan, hew]
    have hmax : exec (.vsscanmax vd va hd m) s = vscan (wVsscanmax vd va hd m) true (fun x => (x, 0))
        (fun r x => (if signed r < signed x then x else r, 0)) vd va hd m s := by
      rw [exec_vsscanmax, execVsscanmax, hew]; rfl
    have hlegal {rm} (he : e ≠ 8) (hrm : rmodeOf p.frm = some rm) : (s.ew != 8 && s.frmOk) = true := by
      rw [hew, State.frmOk_of_frm h hrm, Bool.and_true]; exact bne_iff_ne.2 he
    have hfloat {rm} (hrm : rmodeOf p.frm = some rm) : exec (.vfsscan vd va hd m) s = vscan (wVfsscan vd va hd m) (s.ew != 8 && s.frmOk)
        (fun x => if (unpack F x).isNan then (F.canon, if (unpack F x).isSig then 0x10 else 0) else (x, 0))
        (fun r x => fpAddV F rm (unpack F r) (unpack F x)) vd va hd m s := by
      rw [exec_vfsscan, execVfsscan, State.rm_of_frm h hrm, hfmt]; rfl
    refine ⟨vcompress_result h hr, (scan hsum rfl :), (scan hmax rfl :), fun he rm hrm => (scan (hfloat hrm) (hlegal he hrm) :),
      fun hbad => vscan_illegal h (exec_vfsscan.trans rfl) hr ?illegal rfl⟩
    case illegal =>
      rcases hbad with he | hrm
      · rw [hew, he]; rfl
      · rw [State.frmOk_of_none h hrm, Bool.and_false]
  case expand =>
    refine (vexpand_result h hr).congr_processed fun j _ => Prod.ext ?_ rfl
    cases va with
    | vreg v => exact if_congr .rfl (by rw [State.key_strand h]; rfl) rfl
    | queue q => rfl
  case iota =>
    rw [← hbit]
    exact viota_result h ⟨halign, hwindow⟩
  case first =>
    rw [← hbit]
    exact vfirst_gives h x md m
  case count =>
    rw [← hbit]
    exact vcpop_gives h x md m
  case blocks =>
    intro P L he hgroups hqueue
    have hexec := vblklist_exec h (x := x) he hgroups hqueue
    refine ⟨fun hsound => ?list, fun hsound => ?fault⟩
    case list => exact ⟨_, hexec.trans (congrArg _ (if_pos hsound)), writeCounted_through h va vd.toNat (map_mod_mod ..)⟩
    case fault =>
      refine ⟨_, hexec.trans (congrArg _ (if_neg (Bool.eq_false_iff.1 hsound))), ?_⟩
      cases va with
      | vreg v => rfl
      | queue q => cases q <;> rfl

end Sys2Proof.Machine
end

section
/-! Selection (R243 to R246): lemmas for the statement VectorSelect, and its proof. -/

namespace Sys2Proof.Machine
open Sys2Proof

/-! ## Registers outside a written group -/

/-- A register outside the n registers at v that hold the elements written keeps its value. -/
theorem vreg_vputs_outside (s : State) (k : Nat) {v w n u : Nat} {l : List (Nat × Nat)} (hl : ∀ q ∈ l, q.1 * w / 4096 < n) (hu : u < v ∨ v + n ≤ u) :
    (vputs s k v w l).vreg k u = s.vreg k u := by
  have hkey : (vputs s k v w l).vkey k u = s.vkey k u := by unfold State.vkey; rw [vputs_strand]
  unfold State.vreg
  rw [hkey]
  refine vputs_other _ _ _ _ _ _ fun q hq => ?_
  have := hl q hq
  unfold State.vkey
  omega
theorem vget_of_vreg {s t : State} {k v w j : Nat} (h : t.vreg k (v + j * w / 4096) = s.vreg k (v + j * w / 4096)) : vget t k v w j = vget s k v w j := by
  unfold vget; rw [h]

/-! ## A list written (R232, R243) -/

/-- From s to t a list is written at vd: its values, its indexes and its tail word, the rest of each following TA. -/
def ListWrites (s t : State) (k vd : Nat) (L : List Entry) (sel rest : Nat) : Prop :=
  let vt := (s.strand k).vtype
  let e := ewBits vt
  let g := grpRegs vt
  (∀ j, j < vlmaxOf vt → vget t k vd e j = counted vt e (L.map (·.val)) j (vget s k vd e j)) ∧
  (∀ j, j < vlmaxOf vt → vget t k (vd + g) e j = counted vt e (L.map (·.idx)) j (vget s k (vd + g) e j)) ∧
  (t.vreg k (vd + 2 * g)).extractLsb' 0 128 = BitVec.ofNat 128 (L.length + 2 ^ 32 * sel + 2 ^ 64 * rest) ∧
  (∀ i, 128 ≤ i → (t.vreg k (vd + 2 * g)).getLsbD i = if vt.getLsbD 5 then false else (s.vreg k (vd + 2 * g)).getLsbD i) ∧
  OthersKept s t k vd (2 * g + 1)

theorem ListWrites.congr {s u t : State} {k vd : Nat} {L : List Entry} {sel rest : Nat} (hw : ListWrites s u k vd L sel rest)
    (hwin : (t.strand k).e.vwin = (u.strand k).e.vwin) (hv : t.vregs = u.vregs) : ListWrites s t k vd L sel rest := by
  obtain ⟨hval, hidx, htail, hrest, hothers⟩ := hw
  have hvget := vget_congr hwin hv
  have hvreg := State.vreg_congr hwin hv (vd + 2 * grpRegs (s.strand k).vtype)
  exact ⟨fun j hj => (hvget ..).trans (hval j hj), fun j hj => (hvget ..).trans (hidx j hj), by rw [hvreg]; exact htail, by rw [hvreg]; exact hrest,
    fun c hc => (congrArg (sget 0 · c) hv).trans (hothers c hc)⟩

section
variable (old : VecReg) (x : Nat)

theorem putBits_tail : (putBits old 0 128 x).extractLsb' 0 128 = BitVec.ofNat 128 x := by
  refine BitVec.eq_of_getLsbD_eq fun i hi => ?_
  rw [BitVec.getLsbD_extractLsb', getLsbD_putBits, BitVec.getLsbD_ofNat, Nat.zero_add, decide_eq_true hi, decide_eq_true (by omega : i < 4096),
    if_pos ⟨Nat.zero_le i, by omega⟩, Nat.sub_zero, Bool.true_and]
theorem putBits_above {i : Nat} (hi : 128 ≤ i) : (putBits old 0 128 x).getLsbD i = old.getLsbD i := by
  rw [getLsbD_putBits, if_neg (by omega)]
  by_cases hn : i < 4096
  · rw [decide_eq_true hn, Bool.true_and]
  · rw [BitVec.getLsbD_of_ge _ _ (by omega), Bool.and_false]
end

/-- The values of a list written at vd. -/
def valuesWritten (s : State) (k vd : Nat) (L : List Entry) : State :=
  let p := s.strand k
  vputs s k vd (ewBits p.vtype) (countUpdates p (vlmaxOf p.vtype) (L.map (·.val)))
/-- Its indexes written after them. -/
def indexesWritten (s : State) (k vd : Nat) (L : List Entry) : State :=
  let p := s.strand k
  let e := ewBits p.vtype
  vputs (valuesWritten s k vd L) k (vd + grpRegs p.vtype) e (countUpdates p (vlmaxOf p.vtype) (L.map (·.idx % 2 ^ e)))
/-- Its tail word written after these. -/
def listWritten (s : State) (k vd : Nat) (L : List Entry) (sel rest : Nat) : State :=
  let u := indexesWritten s k vd L
  let tail := vd + 2 * grpRegs (s.strand k).vtype
  u.setVreg k tail (putBits (if vtTa (s.strand k).vtype then 0 else u.vreg k tail) 0 128 (L.length + 2 ^ 32 * sel + 2 ^ 64 * rest))

section
variable (s : State) (k vd : Nat) (L : List Entry) (sel rest : Nat)

theorem indexesWritten_frame : { indexesWritten s k vd L with vregs := s.vregs } = s :=
  (congrArg (fun t : State => { t with vregs := s.vregs }) (vputs_frame (valuesWritten s k vd L) ..) :).trans (vputs_frame ..)
theorem listWritten_frame : { listWritten s k vd L sel rest with vregs := s.vregs } = s := indexesWritten_frame s k vd L
theorem valuesWritten_vkey (c : Nat) : (valuesWritten s k vd L).vkey k c = s.vkey k c := by
  unfold State.vkey valuesWritten; rw [vputs_strand]
theorem indexesWritten_vkey (c : Nat) : (indexesWritten s k vd L).vkey k c = s.vkey k c := by
  unfold State.vkey indexesWritten valuesWritten; rw [vputs_strand, vputs_strand]

/-- A register above the group of the values keeps its value. -/
theorem valuesWritten_vreg {c : Nat} (hc : vd + grpRegs (s.strand k).vtype ≤ c) : (valuesWritten s k vd L).vreg k c = s.vreg k c :=
  vreg_vputs_outside s k (fun _ hq => elem_lt_grpRegs (countUpdates_lt hq)) (.inr hc)
/-- So does one outside the group of the indexes. -/
theorem indexesWritten_vreg {c : Nat} (hc : c < vd + grpRegs (s.strand k).vtype ∨ vd + grpRegs (s.strand k).vtype + grpRegs (s.strand k).vtype ≤ c) :
    (indexesWritten s k vd L).vreg k c = (valuesWritten s k vd L).vreg k c :=
  vreg_vputs_outside _ k (fun _ hq => elem_lt_grpRegs (countUpdates_lt hq)) hc
theorem indexesWritten_tail : (indexesWritten s k vd L).vreg k (vd + 2 * grpRegs (s.strand k).vtype) = s.vreg k (vd + 2 * grpRegs (s.strand k).vtype) :=
  (indexesWritten_vreg s k vd L (.inr (by omega))).trans (valuesWritten_vreg s k vd L (by omega))
theorem listWritten_vreg {c : Nat} (hc : c < vd + 2 * grpRegs (s.strand k).vtype) :
    (listWritten s k vd L sel rest).vreg k c = (indexesWritten s k vd L).vreg k c :=
  (vreg_setVreg ..).trans (if_neg (by omega))
theorem listWritten_tail : (listWritten s k vd L sel rest).vreg k (vd + 2 * grpRegs (s.strand k).vtype) =
    putBits (if vtTa (s.strand k).vtype then 0 else s.vreg k (vd + 2 * grpRegs (s.strand k).vtype)) 0 128 (L.length + 2 ^ 32 * sel + 2 ^ 64 * rest) := by
  refine (vreg_setVreg ..).trans ((if_pos rfl).trans ?_)
  rw [indexesWritten_tail]

theorem listWritten_writes : ListWrites s (listWritten s k vd L sel rest) k vd L sel rest := by
  refine ⟨fun j hj => ?value, fun j hj => ?index, ?tail, fun i hi => ?rest, fun c hc => ?others⟩
  case value =>
    have hlt := elem_lt_grpRegs hj
    refine (vget_of_vreg ?_).trans (vget_counted s k vd (s.strand k) _ hj)
    exact (listWritten_vreg s k vd L sel rest (by omega)).trans (indexesWritten_vreg s k vd L (.inl (by omega)))
  case index =>
    have hlt := elem_lt_grpRegs hj
    have hold := vget_of_vreg (valuesWritten_vreg s k vd L (Nat.le_add_right (vd + grpRegs (s.strand k).vtype) (j * ewBits (s.strand k).vtype / 4096)))
    have hlow : (L.map (·.idx % 2 ^ ewBits (s.strand k).vtype)).map (· % 2 ^ ewBits (s.strand k).vtype) =
        (L.map (·.idx)).map (· % 2 ^ ewBits (s.strand k).vtype) := by
      simp only [List.map_map, Function.comp_def, Nat.mod_mod]
    refine (vget_of_vreg (listWritten_vreg s k vd L sel rest (by omega))).trans ((vget_counted _ k _ (s.strand k) _ hj).trans ?_)
    rw [hold]
    exact counted_congr hlow ..
  case tail => rw [listWritten_tail]; exact putBits_tail ..
  case rest =>
    rw [listWritten_tail, putBits_above _ _ hi, vtTa]
    split
    · exact BitVec.getLsbD_zero
    · rfl
  case others =>
    have hvalues := countUpdates_othersKept s k vd (s.strand k) (L.map (·.val)) c fun i hi => hc i (by omega)
    have hindexes := countUpdates_othersKept (valuesWritten s k vd L) k (vd + grpRegs (s.strand k).vtype) (s.strand k)
      (L.map (·.idx % 2 ^ ewBits (s.strand k).vtype)) c fun i hi => by rw [valuesWritten_vkey, Nat.add_assoc]; exact hc _ (by omega)
    exact (sget_sput_of_ne _ _ _ (by rw [indexesWritten_vkey]; exact hc _ (by omega))).trans (hindexes.trans hvalues)
end

/-- A strand after a selection that dropped n NaNs, with the flags of VSTAT and FFLAGS that it raises (R246). -/
def Strand.selected (q : Strand) (n : Nat) (dup diff : Bool) (fl : BitVec 6) : Strand := ({ q with vstat := vstatAdd q.vstat n dup diff }).accrue fl

section
variable {s : State} {k : Nat} (h : s.actor = .strand k)
include h

/-- writeList writes the list and then VL. -/
theorem writeList_eq (vd : Nat) (L : List Entry) (sel rest : Nat) :
    writeList s vd L sel rest = (listWritten s k vd L sel rest).upd k (fun q => q.setVl L.length) := by
  have hkey : (listWritten s k vd L sel rest).key = k := (congrArg State.key (listWritten_frame s k vd L sel rest) :).trans (State.key_strand h)
  unfold writeList
  simp only [State.ew, State.grp, State.vlmax, State.me_strand h, State.key_strand h, State.updMe]
  exact congrArg (State.upd (listWritten s k vd L sel rest) · _) hkey

theorem writeList_actor (vd : Nat) (L : List Entry) (sel rest : Nat) : (writeList s vd L sel rest).actor = .strand k := by
  rw [writeList_eq h]
  exact (congrArg State.actor (listWritten_frame s k vd L sel rest) :).trans h
/-- A selection that writes a list, pops the slot of its queue operand and changes its strand further by g is through. -/
theorem writeList_ends (hid : s.idle = false) (va : VSrc) (vd : Nat) (L : List Entry) (sel rest n : Nat) (dup diff : Bool) (fl : BitVec 6)
    {g P : Strand → Strand}
    (hP : ∀ r l, let q := { s.strand k with rings := r, relays := l }
      g ((q.setVl L.length).selected n dup diff fl) = P { q.onward with vstart := 0, fflags := (s.strand k).fflags ||| fl })
    (hwin : ∀ q, (g q).e.vwin = q.e.vwin) :
    let t := (vaPop ((writeList s vd L sel rest).updMe (·.selected n dup diff fl)) va).upd k g
    ListWrites s t k vd L sel rest ∧ VectorEnds s k va fl P t := by
  have hframe := listWritten_frame s k vd L sel rest
  have hkey : ((listWritten s k vd L sel rest).upd k (fun q => q.setVl L.length)).key = k := (congrArg State.key hframe :).trans (State.key_strand h)
  have hkept : (listWritten s k vd L sel rest).strand k = s.strand k := (congrArg (State.strand · k) hframe :)
  obtain ⟨hme, hothers, hrest, hvregs⟩ := upd_vaPop_upd hframe va k (f := fun q => (q.setVl L.length).selected n dup diff fl) g (fun _ => rfl)
    (fun _ _ => rfl) (fun _ _ => rfl)
  obtain ⟨r, l, hpop⟩ := vaPop_strand s va k
  intro t
  have ht : t = (vaPop ((listWritten s k vd L sel rest).upd k (fun q => (q.setVl L.length).selected n dup diff fl)) va).upd k g := by
    show (vaPop ((writeList s vd L sel rest).updMe _) va).upd k g = _
    rw [writeList_eq h, State.updMe, hkey, State.upd_upd]
  rw [← ht] at hme hothers hrest hvregs
  refine ⟨(listWritten_writes s k vd L sel rest).congr ?_ hvregs, ?_⟩
  · rw [hme, hwin, hkept, hpop]; rfl
  · rw [VectorEnds, hid]
    refine ⟨hme.trans ?_, hothers, hrest⟩
    simp only [Bool.false_eq_true, if_false, hpop]
    exact hP r l
/-- vtopk is through: its list and VL, what it dropped, its flags and its sums are written. -/
theorem writeList_gives (hid : s.idle = false) (va : VSrc) (vd : Nat) (L : List Entry) (sel rest n : Nat) (fl : BitVec 6) (x : Reg) (v : Dword) :
    let t := vdone ((vaPop ((writeList s vd L sel rest).updMe (·.selected n false false fl)) va).setX x v)
    ListWrites s t k vd L sel rest ∧ VectorEnds s k va fl (fun q => { q.setVl L.length with
      x := writeX (s.strand k).x x v, vstat := vstatAdd (s.strand k).vstat n false false }) t := by
  have hactor : (vaPop ((writeList s vd L sel rest).updMe (·.selected n false false fl)) va).actor = .strand k :=
    (vaPop_actor ..).trans (writeList_actor h vd L sel rest)
  rw [State.setX_strand hactor, vdone_strand (q := State.upd _ k _) hactor, State.upd_upd]
  refine writeList_ends h hid va vd L sel rest n false false fl ?_ ?_
  · exact fun _ _ => rfl
  · exact fun _ => rfl
/-- vtopkm is through: the same of it, without a register. -/
theorem writeList_merges (hid : s.idle = false) (vd : Nat) (L : List Entry) (sel rest n : Nat) (dup diff : Bool) (fl : BitVec 6) :
    let t := vdone ((writeList s vd L sel rest).updMe (·.selected n dup diff fl))
    ListWrites s t k vd L sel rest ∧ VectorEnds s k (.vreg 0) fl (fun q => { q.setVl L.length with vstat := vstatAdd (s.strand k).vstat n dup diff }) t := by
  have hactor : ((writeList s vd L sel rest).updMe (·.selected n dup diff fl)).actor = .strand k := writeList_actor h vd L sel rest
  rw [vdone_strand hactor]
  refine writeList_ends h hid (.vreg 0) vd L sel rest n dup diff fl ?_ ?_
  · exact fun _ _ => rfl
  · exact fun _ => rfl
end

/-! ## Flags and checks (R112, R168, R243) -/

/-- A list at v has its first group aligned, and its three groups in the window. -/
def ListFits (p : Strand) (v : Reg) : Prop := v.toNat % grpRegs p.vtype = 0 ∧ v.toNat + 3 * grpRegs p.vtype ≤ p.window

theorem flIf_or (a b : Bool) (f : BitVec 6) : flIf (a || b) f = flIf a f ||| flIf b f := by
  cases a <;> cases b <;> simp [flIf]
/-- NV, where any of the dropped NaNs is signalling. -/
theorem foldl_sig {α : Type} (sig : α → Bool) (l : List α) (fl : BitVec 6) :
    l.foldl (fun f y => f ||| if sig y then 0x10 else 0) fl = fl ||| flIf (l.any sig) flNv := by
  induction l generalizing fl with
  | nil => exact BitVec.or_zero.symm
  | cons y l ih => rw [List.foldl_cons, ih, List.any_cons, flIf_or, ← BitVec.or_assoc]; rfl

theorem listOk_ok {s : State} {k : Nat} (h : s.actor = .strand k) {v : Reg} (hfits : ListFits (s.strand k) v) : listOk s v = .ok () := by
  obtain ⟨halign, hwindow⟩ := hfits
  unfold listOk groupOk
  rw [State.me_strand h, State.grp, State.me_strand h, if_pos ⟨halign, by omega⟩, if_pos hwindow]
  rfl

/-! ## Numbers and NaNs -/

/-- Those of l whose values are numbers. -/
def numbersOf {α : Type} (F : Fmt) (val : α → Nat) (l : List α) : List α := l.filter (fun y => !(unpack F (val y)).isNan)
/-- Those of l whose values are NaNs. -/
def nansOf {α : Type} (F : Fmt) (val : α → Nat) (l : List α) : List α := l.filter (fun y => (unpack F (val y)).isNan)

/-! ## vtopk (R244) -/

/-- The n greatest of the numbers. -/
def greatest (F : Fmt) (v : Nat → Nat) (nums : List Nat) (n : Nat) : List Entry := (sortEntries F (nums.map (fun i => ⟨v i, i⟩))).take n
/-- Element i is in the list. -/
def inList (L : List Entry) (i : Nat) : Bool := L.any (fun y => y.idx == i)
/-- For each position below n the number there, widened, where it is one that f chooses. -/
def summands (F : Fmt) (v : Nat → Nat) (nums : List Nat) (n : Nat) (f : Nat → Bool) : List (Option Nat) :=
  (List.range n).map (fun i => if i ∈ nums ∧ f i = true then some (widen32 F (v i)) else none)

section
variable {s : State} {k : Nat} (h : s.actor = .strand k) {rm : RMode} (hrm : rmodeOf (s.strand k).frm = some rm)
  (he : ewBits (s.strand k).vtype = 16 ∨ ewBits (s.strand k).vtype = 32)
include h hrm he

theorem selection_legal : ((ewBits (s.strand k).vtype == 16 || ewBits (s.strand k).vtype == 32) && s.frmOk) = true := by
  rw [State.frmOk_of_frm h hrm, Bool.and_true]
  rcases he with he | he <;> rw [he] <;> rfl

/-- vtopk writes the greatest of the numbers that take part, in order, with the sums of those and of the other numbers. -/
theorem vtopk_exec {vd x : Reg} {va : VSrc} {m : Msk} (hfits : ListFits (s.strand k) vd)
    (hr : VectorReady s k (sourceGroups va (.xreg 0) (grpRegs (s.strand k).vtype)) va (ewBits (s.strand k).vtype) m) :
    let p := s.strand k
    let F := elemFmt p.vtype
    let v := vaElem s va (ewBits p.vtype)
    let c := takingPartBelow p m p.vl.toNat
    let nans := nansOf F v c
    let L := greatest F v (numbersOf F v c) (min (readX p.x x).toNat (vlmaxOf p.vtype))
    let sel := treeSum fmt32 rm 0 (summands F v (numbersOf F v c) p.vl.toNat (inList L))
    let rest := treeSum fmt32 rm 0 (summands F v (numbersOf F v c) p.vl.toNat (fun i => !inList L i))
    exec (.vtopk vd va x m) s = .next (if s.idle then vdone s else
      vdone ((vaPop ((writeList s vd.toNat L sel.1 rest.1).updMe (·.selected nans.length false false
        (sel.2 ||| rest.2 ||| flIf (nans.any (fun i => (unpack F (v i)).isSig)) flNv))) va).setX x (BitVec.ofNat 64 (2 ^ 32 * rest.1 + sel.1)))) := by
  intro p F v c nans L sel rest
  rw [sourceGroups_xreg] at hr
  obtain ⟨halign, hwindow⟩ := hfits
  have hgroups : groupsOk (s.strand k) [(vd.toNat, grpRegs (s.strand k).vtype)] = .ok () :=
    groupsOk_ok (List.forall_mem_singleton.2 ⟨halign, by simp only []; omega⟩)
  have hchecks := vchecks_ok h hr (takers_processed h m) (wVtopk vd va x m)
  have hpos : ∀ f : Nat → Bool, (List.range p.vl.toNat).map (fun i =>
      if ((numbersOf F v c).contains i && f i) = true then some (widen32 F (v i)) else none) = summands F v (numbersOf F v c) p.vl.toNat f := fun f =>
    List.map_congr_left fun i _ => if_congr (by rw [Bool.and_eq_true, List.contains_iff_mem]) rfl rfl
  rw [exec_vtopk]
  unfold execVtopk
  simp only [State.ew, State.grp, State.vl, State.vlmax, State.me_strand h, State.x_strand h, State.rm_of_frm h hrm, selection_legal h hrm he]
  rw [check_ok hgroups, if_pos hwindow, check_ok rfl, hchecks]
  refine (vguard_ok rfl _ s).trans (congrArg _ ?_)
  rw [takers_eq h]
  simp only [sel, rest, ← hpos]
  rfl

/-! ## vtopkm (R245) -/

/-- The entry of A with the index of y. -/
def twinIn (A : List Entry) (y : Entry) : Option Entry := A.find? (fun z => z.idx == y.idx)
/-- Two lists without NaNs merged: the entries of A, and those of B whose index A does not hold, in order. -/
def merged (F : Fmt) (A B : List Entry) : List Entry := sortEntries F (A ++ B.filter (fun y => (twinIn A y).isNone))
/-- Entries' values, widened. -/
def widened (F : Fmt) (l : List Entry) : List (Option Nat) := l.map (fun y => some (widen32 F y.val))

/-- vtopkm writes the first vl entries of the merged lists, with the sum of those, and that of the lists' REST and the other entries. -/
theorem vtopkm_exec {d a b : Reg} (hd : ListFits (s.strand k) d) (ha : ListFits (s.strand k) a) (hb : ListFits (s.strand k) b) :
    let p := s.strand k
    let F := elemFmt p.vtype
    let A := numbersOf F Entry.val (readList s a.toNat).1
    let B := numbersOf F Entry.val (readList s b.toNat).1
    let nans := nansOf F Entry.val ((readList s a.toNat).1 ++ (readList s b.toNat).1)
    let L := (merged F A B).take p.vl.toNat
    let sel := treeSum fmt32 rm 0 (widened F L)
    let rest := treeSum fmt32 rm 0 (some (readList s a.toNat).2 :: some (readList s b.toNat).2 :: widened F ((merged F A B).drop p.vl.toNat))
    exec (.vtopkm d a b) s = .next (if s.idle then vdone s else vdone ((writeList s d.toNat L sel.1 rest.1).updMe (·.selected nans.length
      (B.any (fun y => (twinIn A y).isSome)) (B.any (fun y => (twinIn A y).any (fun z : Entry => !fpEq (unpack F z.val) (unpack F y.val))))
      (sel.2 ||| rest.2 ||| flIf (nans.any (fun y => (unpack F y.val).isSig)) flNv)))) := by
  intro p F A B nans L sel rest
  have hnans : nans = nansOf F Entry.val (readList s a.toNat).1 ++ nansOf F Entry.val (readList s b.toNat).1 := List.filter_append ..
  rw [exec_vtopkm]
  unfold execVtopkm
  simp only [State.ew, State.vl, State.me_strand h, State.rm_of_frm h hrm, selection_legal h hrm he]
  rw [check_ok (listOk_ok h hd), check_ok (listOk_ok h ha), check_ok (listOk_ok h hb)]
  refine (vguard_ok rfl _ s).trans (congrArg _ ?_)
  rw [hnans]
  simp only [Bool.not_not]
  rfl
end

/-! ## The statement -/

/-- A field of a list's entries written: that of entry j, or what follows TA. -/
theorem counted_map {α : Type} (f : α → Nat) (L : List α) (vt : BitVec 8) (w j old : Nat) :
    counted vt w (L.map f) j old = (L[j]?).elim (if vt.getLsbD 5 then 0 else old) (fun y => f y % 2 ^ w) := by
  unfold counted
  rw [List.getElem?_map]
  cases L[j]? <;> rfl

/-- Settles O30: vtopk and vtopkm are selections that write a list, as the lemmas above say. -/
theorem vectorSelect : Obligations.VectorSelect := by
  intro s k vd a b x va m rm h hrm p e g n F nan sig wide sum fits Writes he hvd
  have writes {t L sel rest} (hlist : ListWrites s t k vd.toNat L sel rest) : Writes t L sel rest := by
    obtain ⟨hval, hidx, htail, hrest, hothers⟩ := hlist
    refine ⟨fun j hj => (hval j hj).trans ?_, fun j hj => (hidx j hj).trans ?_, htail, hrest, hothers⟩
    all_goals rw [counted_map]; cases L[j]? <;> rfl
  refine ⟨fun hr => ?topk, fun ha hb => ?topkm⟩
  case topk =>
    intro c v nums L chosen at' sel rest fl
    refine ⟨_, vtopk_exec h hrm he hvd hr, fun hid => ?idle, fun hid => ?selects⟩
    case idle => rw [if_pos hid]; exact vdone_ends h hid va
    case selects =>
      have hfl : fl = _ := foldl_sig (fun i => (unpack F (v i)).isSig) (c.filter (fun i => nan (v i))) (sel.2 ||| rest.2)
      obtain ⟨hlist, hends⟩ := writeList_gives h hid va vd.toNat L sel.1 rest.1 _ _ x _
      rw [if_neg (Bool.eq_false_iff.1 hid), hfl]
      exact ⟨writes hlist, hends⟩
  case topkm =>
    intro A B nans twin order L sel rest
    refine ⟨_, vtopkm_exec h hrm he hvd ha hb, fun hid => ?idle, fun hid => ?merges⟩
    case idle => rw [if_pos hid]; exact vdone_ends h hid (.vreg 0)
    case merges =>
      obtain ⟨hlist, hends⟩ := writeList_merges h hid vd.toNat L sel.1 rest.1 _ _ _ _
      rw [if_neg (Bool.eq_false_iff.1 hid), foldl_sig (fun y : Entry => (unpack F y.val).isSig) nans]
      exact ⟨writes hlist, hends⟩

end Sys2Proof.Machine
end

section
/-! Core halt and debug (R498 to R500): lemmas for the statements HaltSettled, HaltSettledReset and DebugEvents, and their proofs. -/

namespace Sys2Proof.Machine
open Sys2Proof

/-! ## Settling -/

/-- The transfers that still move into a core's local memories do not depend on the debug registers of any core. -/
theorem landing_updCore (s : State) (m : Nat) (f : CoreRegs → CoreRegs) (n : Nat) : landing (s.updCore m f) n = landing s n := rfl

/-- Core n is not a halted one that waits to settle without a transfer that moves into it. -/
def SettledOrLanding (s : State) (n : Nat) : Prop := (s.coreRegs n).halted = true → (s.coreRegs n).settled = false → landing s n = true

theorem settle_self (s : State) (n : Nat) : SettledOrLanding (settle s n) n := by
  unfold settle SettledOrLanding
  split
  · intro _ hset; simp at hset
  · rename_i h; intro hhalt hset; simpa [hhalt, hset] using h

theorem settle_keeps (s : State) (m n : Nat) (h : SettledOrLanding s n) : SettledOrLanding (settle s m) n := by
  by_cases hmn : n = m
  · subst hmn; exact settle_self s n
  · unfold settle
    split
    · simpa only [SettledOrLanding, State.coreRegs_updCore_of_ne s _ hmn, landing_updCore] using h
    · exact h

/-- Settling a list of cores leaves each of them, and every core that had nothing to wait for, with nothing to wait for. -/
theorem settleList_settled (l : List (Nat × CoreRegs)) (s : State) (n : Nat) (h : n ∈ l.map (·.1) ∨ SettledOrLanding s n) :
    SettledOrLanding (l.foldl (fun s p => settle s p.1) s) n := by
  induction l generalizing s with
  | nil => exact h.resolve_left (by simp)
  | cons p l ih =>
    refine ih _ ?_
    rcases h with h | h
    · rcases List.mem_cons.1 h with rfl | h
      · exact .inr (settle_self s _)
      · exact .inl h
    · exact .inr (settle_keeps s _ n h)

theorem mem_keys_of_sfind {α : Type} {l : Sparse α} {k : Nat} {v : α} (h : sfind l k = some v) : k ∈ l.map (·.1) := by
  induction l with
  | nil => simp [sfind] at h
  | cons p l ih =>
    obtain ⟨j, w⟩ := p
    by_cases hj : j = k
    · simp [hj]
    · rw [sfind, if_neg hj] at h; exact List.mem_cons_of_mem _ (ih h)

/-- A core that the table of cores does not hold is as at reset, not halted. -/
theorem settleAll_settled (s : State) (n : Nat) : SettledOrLanding (settleAll s) n := by
  refine settleList_settled s.cores s n ?_
  cases h : sfind s.cores n with
  | some c => exact .inl (mem_keys_of_sfind h)
  | none => right; intro hhalt; simp [State.coreRegs, sget, h] at hhalt

/-- What comes next is planned without a change of a core, a strand or a group. -/
theorem plan_settled (s : State) (n : Nat) : SettledOrLanding (plan s) n ↔ SettledOrLanding s n := by
  unfold plan
  split
  · rfl
  · dsimp only
    split <;> rfl

/-- Settles O59: every step ends by settling the halted cores. -/
theorem haltSettled : Obligations.HaltSettled := by
  intro s t h n
  unfold step andNext at h
  split at h
  · cases h
    exact (plan_settled _ n).2 (settleAll_settled _ n)
  · cases h
  · cases h

/-- Settles O60: no core is halted at reset. -/
theorem haltSettledReset : Obligations.HaltSettledReset := by
  intro n h
  cases h

/-! ## Debug halt and resume -/

theorem settle_haltCore_landing {s : State} {n : Nat} (h : landing s n = true) : settle (haltCore s n) n = haltCore s n := by
  rw [settle, if_neg]
  simp [haltCore, landing_updCore, h]
theorem settle_haltCore_still {s : State} {n : Nat} (h : landing s n = false) :
    settle (haltCore s n) n = (haltCore s n).updCore n (fun c => { c with settled := true }) := by
  rw [settle, if_pos]
  simp [haltCore, landing_updCore, h]

theorem execDbgctlHalt_idle {s : State} {n : Nat} (h : dbgEnabled s n = false ∨ (s.coreRegs n).halted = true) : execDbgctlHalt n s = .next s :=
  congrArg _ (if_neg (by rcases h with h | h <;> simp [h]))
theorem execDbgctlHalt_halts {s : State} {n : Nat} (hen : dbgEnabled s n = true) (hrun : (s.coreRegs n).halted = false) :
    execDbgctlHalt n s = .next (settle (haltCore s n) n) :=
  congrArg _ (if_pos (by simp [hen, hrun]))

/-- RESUME of one strand (R499): it goes on with its chain record where it has one to replay. -/
def resumeStrand (s : State) (k : Nat) : State :=
  if (s.strand k).status = .running ∧ (s.strand k).level = .user ∧ (s.strand k).chain.isNone then s.upd k (·.replayChain) else s
/-- The strand that RESUME leaves of p. -/
def Strand.afterResume (p : Strand) : Strand := if p.status = .running ∧ p.level = .user ∧ p.chain = none then p.replayChain else p

theorem strand_resumeStrand (s : State) (k j : Nat) : (resumeStrand s k).strand j = if j = k then (s.strand k).afterResume else s.strand j := by
  unfold resumeStrand Strand.afterResume
  simp only [Option.isNone_iff_eq_none]
  by_cases hr : (s.strand k).status = .running ∧ (s.strand k).level = .user ∧ (s.strand k).chain = none
  · rw [if_pos hr, if_pos hr, State.strand_upd]
  · rw [if_neg hr, if_neg hr]; split <;> simp_all
theorem resumeStrand_keeps {β : Type} (f : State → β) (hf : ∀ s k g, f (State.upd s k g) = f s) (s : State) (k : Nat) : f (resumeStrand s k) = f s := by
  unfold resumeStrand
  split
  · exact hf ..
  · rfl
theorem resumeCore_idle {s : State} {n : Nat} (h : (s.coreRegs n).halted = false) : resumeCore s n = s := if_neg (by simp [h])
theorem resumeCore_eq {s : State} {n : Nat} (h : (s.coreRegs n).halted = true) :
    resumeCore s n = (upFrom (3 * n) 3).foldl resumeStrand (s.updCore n (fun c => { c with halted := false, settled := false, timeout := false })) := if_pos h
theorem strand_resumeCore {s : State} {n : Nat} (h : (s.coreRegs n).halted = true) (k : Nat) :
    (resumeCore s n).strand k = if k / 3 = n then (s.strand k).afterResume else s.strand k := by
  rw [resumeCore_eq h]
  show (resumeStrand (resumeStrand (resumeStrand _ (3 * n)) (3 * n + 1)) (3 * n + 2)).strand k = _
  have hcases : k / 3 = n ↔ k = 3 * n ∨ k = 3 * n + 1 ∨ k = 3 * n + 2 := by omega
  simp only [strand_resumeStrand, hcases]
  grind [State.strand, State.updCore]
theorem resumeCore_frame {s : State} {n : Nat} (h : (s.coreRegs n).halted = true) :
    { resumeCore s n with cores := s.cores, strands := s.strands } = s := by
  rw [resumeCore_eq h]
  exact foldl_keeps (fun t : State => { t with cores := s.cores, strands := s.strands }) resumeStrand
    (resumeStrand_keeps (fun t : State => { t with cores := s.cores, strands := s.strands }) (fun _ _ _ => rfl)) _ _
theorem coreRegs_resumeCore {s : State} {n : Nat} (h : (s.coreRegs n).halted = true) :
    (resumeCore s n).coreRegs n = { s.coreRegs n with halted := false, settled := false, timeout := false } := by
  rw [resumeCore_eq h]
  exact (foldl_keeps (fun t : State => t.coreRegs n) resumeStrand (resumeStrand_keeps (fun t : State => t.coreRegs n) (fun _ _ _ => rfl)) _ _).trans
    (State.coreRegs_updCore_self ..)

/-! ## Debug accesses -/

theorem dbgItem_refused {s : State} {n : Nat} (h : (s.coreRegs n).halted = false ∨ dbgEnabled s n = false ∨ (s.coreRegs n).selStrand = 3) :
    dbgItem s n = none := by
  refine if_pos ?_
  rcases h with h | h | h <;> simp [h]
theorem dbgItem_space {s : State} {n : Nat} (h : 9 ≤ (s.coreRegs n).selSpace.toNat) : dbgItem s n = none := by
  unfold dbgItem
  dsimp only
  split
  · rfl
  · split
    case h_10 => rfl
    all_goals simp_all

/-- A write of a special register changes nothing but strands and the flags that tasks keep for a ring. -/
theorem sprWrite_frame (s : State) (k : Nat) (n : BitVec 12) (v : Dword) :
    { sprWrite s k n v with strands := s.strands, tasks := s.tasks } = s := by
  unfold sprWrite
  dsimp only
  split
  case h_62 =>
    have hring : ∀ i r, { (dropRingZero s k i).setRing k i r with strands := s.strands, tasks := s.tasks } = s := fun i r => by
      obtain ⟨l, hl⟩ := dropRingZero_tasks s k i
      rw [hl]; rfl
    split
    · split
      · exact hring _ _
      · exact hring _ _
      · rfl
      · rfl
    · rfl
  all_goals rfl
theorem clearRingFlags_frame (s : State) (f : Nat) : { clearRingFlags s f with strands := s.strands } = s := by
  unfold clearRingFlags; split <;> rfl
/-- A debug write of an item leaves full-empty bits, poison and the debug registers (R500). -/
theorem dbgWrite_keeps (s : State) (n : Nat) (v : Dword) :
    (dbgWrite s n v).full = s.full ∧ (dbgWrite s n v).poison = s.poison ∧ (dbgWrite s n v).cores = s.cores := by
  have store : ∀ f, (dbgStore s f v).full = s.full ∧ (dbgStore s f v).poison = s.poison ∧ (dbgStore s f v).cores = s.cores := fun f => by
    have h := clearRingFlags_frame { s with mem := Mem.writeN s.mem f 8 v.toNat } f
    exact ⟨(congrArg State.full h :), (congrArg State.poison h :), (congrArg State.cores h :)⟩
  unfold dbgWrite
  dsimp only
  split
  case h_2 =>
    have h := sprWrite_frame s (3 * n + (s.coreRegs n).selStrand.toNat) (BitVec.ofNat 12 (s.coreRegs n).idx.toNat) v
    exact ⟨(congrArg State.full h :), (congrArg State.poison h :), (congrArg State.cores h :)⟩
  case h_7 => split <;> exact ⟨rfl, rfl, rfl⟩
  case h_8 => exact store _
  case h_9 => exact store _
  all_goals exact ⟨rfl, rfl, rfl⟩

/-- The item that an access which is not refused selects, in the first three spaces. -/
theorem dbgItem_reads {s : State} {n : Nat} (hhalt : (s.coreRegs n).halted = true) (hen : dbgEnabled s n = true) (hsel : (s.coreRegs n).selStrand ≠ 3) :
    let c := s.coreRegs n
    let p := s.strand (3 * n + c.selStrand.toNat)
    (c.selSpace = 0 → dbgItem s n = if c.idx.toNat < 32 then some (readX p.x (BitVec.ofNat 5 c.idx.toNat)) else none) ∧
    (c.selSpace = 1 → dbgItem s n = if c.idx.toNat < 4096 then sprRead s (3 * n + c.selStrand.toNat) (BitVec.ofNat 12 c.idx.toNat) else none) ∧
    (c.selSpace = 2 → dbgItem s n = if c.idx.toNat = 0 then some p.pc else none) := by
  have hopen : ¬(!(s.coreRegs n).halted || !dbgEnabled s n || (s.coreRegs n).selStrand = 3) = true := by simpa [hhalt, hen] using hsel
  refine ⟨fun hspace => ?_, fun hspace => ?_, fun hspace => ?_⟩ <;>
    exact (if_neg hopen).trans (by simp only [hspace]; rfl)

theorem dbgDloRead_item {s : State} {n : Nat} {x : Dword} (h : dbgItem s n = some x) :
    execDbgdloRead n s = .next { s.updCore n (fun c => { c with dlo := low 32 x, dhi := x.extractLsb' 32 32, badacc := false }) with
      out := s.out ++ [.hostRead (low 32 x)] } := by
  unfold execDbgdloRead dbgDloRead; rw [h]; rfl
theorem dbgDloRead_refused {s : State} {n : Nat} (h : dbgItem s n = none) :
    execDbgdloRead n s = .next { s.updCore n (fun c => { c with badacc := true, dhi := BitVec.allOnes 32 }) with
      out := s.out ++ [.hostRead (BitVec.allOnes 32)] } := by
  unfold execDbgdloRead dbgDloRead; rw [h]; rfl
theorem dbgDloWrite_item {s : State} {n : Nat} {x : Dword} (h : dbgItem s n = some x) (v : Word) :
    dbgDloWrite s n v = dbgWrite (s.updCore n (fun c => { c with badacc := false })) n ((s.coreRegs n).dhi ++ v) := by
  unfold dbgDloWrite; rw [h]
theorem dbgDloWrite_refused {s : State} {n : Nat} (h : dbgItem s n = none) (v : Word) :
    dbgDloWrite s n v = s.updCore n (fun c => { c with badacc := true }) := by
  unfold dbgDloWrite; rw [h]

theorem dbgWrite_x {s : State} {n : Nat} (h : (s.coreRegs n).selSpace = 0) (v : Dword) :
    dbgWrite s n v = s.upd (3 * n + (s.coreRegs n).selStrand.toNat)
      (fun t => { t with x := writeX t.x (BitVec.ofNat 5 (s.coreRegs n).idx.toNat) v }) := by
  unfold dbgWrite; simp only [h]; rfl

/-- 100 microseconds have passed since HALT without SETTLED (R499). -/
def SettlesLate (s : State) (n : Nat) : Prop :=
  (s.coreRegs n).halted = true ∧ (s.coreRegs n).settled = false ∧ (s.coreRegs n).haltAt + 100000 ≤ s.now
theorem execDebugSettleTimeout_late {s : State} {n : Nat} (h : SettlesLate s n) :
    execDebugSettleTimeout n s = .next (s.updCore n (fun c => { c with timeout := true })) := by
  obtain ⟨hhalt, hset, hlate⟩ := h
  simp [execDebugSettleTimeout, hhalt, hset, hlate]
theorem execDebugSettleTimeout_idle {s : State} {n : Nat} (h : ¬SettlesLate s n) : execDebugSettleTimeout n s = .next s := by
  unfold execDebugSettleTimeout
  exact congrArg _ (if_neg fun hc => h (by simpa [SettlesLate, and_assoc] using hc))

/-- Settles O52: each clause is what the lemmas above say of the command or the access. -/
theorem debugEvents : Obligations.DebugEvents := by
  intro s n v c Does Core moves
  have core (f : CoreRegs → CoreRegs) : Core (f c) (s.updCore n f) :=
    ⟨State.coreRegs_updCore_self s n f, fun _ hm => State.coreRegs_updCore_of_ne s f hm, rfl⟩
  refine ⟨fun h => ?haltIdle, fun hen hrun => ⟨fun hstill => ?haltSettles, fun hmoves => ?haltLanding⟩, fun hrun => ?resumeIdle, fun hhalt => ?resume,
    fun hhalt hset hlate => ?timeout, fun h => ?noTimeout, ?dhi, fun x hx => ?read, fun hx => ⟨?readRefused, ?writeRefused⟩, fun x hx hspace => ?writeX,
    fun x hx => ?write, fun h => ?refused, fun hhalt hen hsel => ?items⟩
  case haltIdle => exact runs_eq (execDbgctlHalt_idle h)
  case haltSettles =>
    refine ⟨_, (execDbgctlHalt_halts hen hrun).trans (congrArg _ (settle_haltCore_still (Bool.eq_false_iff.2 hstill))), ?_,
      fun m hm => (State.coreRegs_updCore_of_ne _ _ hm).trans (State.coreRegs_updCore_of_ne _ _ hm), rfl⟩
    rw [State.coreRegs_updCore_self, haltCore, State.coreRegs_updCore_self]
  case haltLanding => exact ⟨_, (execDbgctlHalt_halts hen hrun).trans (congrArg _ (settle_haltCore_landing hmoves)), core _⟩
  case resumeIdle => exact runs_eq (congrArg Host.Outcome.next (resumeCore_idle hrun))
  case resume =>
    refine ⟨_, rfl, coreRegs_resumeCore hhalt, resumeCore_frame hhalt, fun k => (strand_resumeCore hhalt k).trans (ite_and ..).symm,
      fun p hp => if_neg (by simp [hp])⟩
  case timeout => exact ⟨_, execDebugSettleTimeout_late ⟨hhalt, hset, hlate⟩, core _⟩
  case noTimeout => exact runs_eq (execDebugSettleTimeout_idle h)
  case dhi => exact ⟨_, rfl, core _⟩
  case read =>
    obtain ⟨hself, hothers, -⟩ := core (fun c => { c with dlo := low 32 x, dhi := x.extractLsb' 32 32, badacc := false })
    exact ⟨_, dbgDloRead_item hx, hself, hothers, rfl, rfl⟩
  case readRefused =>
    obtain ⟨hself, hothers, -⟩ := core (fun c => { c with badacc := true, dhi := BitVec.allOnes 32 })
    exact ⟨_, dbgDloRead_refused hx, hself, hothers, rfl, rfl⟩
  case writeRefused => exact ⟨_, congrArg Host.Outcome.next (dbgDloWrite_refused hx v), core _⟩
  case writeX =>
    intro k
    have hwrite : dbgDloWrite s n v = (s.updCore n (fun c => { c with badacc := false })).upd k
        (fun t => { t with x := writeX t.x (BitVec.ofNat 5 c.idx.toNat) (c.dhi ++ v) }) := by
      rw [dbgDloWrite_item hx, dbgWrite_x (by simpa using hspace)]
      simp [c, k]
    exact ⟨_, congrArg Host.Outcome.next hwrite, State.strand_upd_self .., fun j hj => State.strand_upd_of_ne _ _ hj, (core (fun c => { c with badacc := false })).1, rfl⟩
  case write =>
    obtain ⟨hfull, hpoison, hcores⟩ := dbgWrite_keeps (s.updCore n (fun c => { c with badacc := false })) n (c.dhi ++ v)
    exact ⟨_, congrArg Host.Outcome.next (dbgDloWrite_item hx v), hfull, hpoison, (congrArg (fun l => sget ({} : CoreRegs) l n) hcores).trans (core _).1⟩
  case refused =>
    rcases h with h | h | h | h
    · exact dbgItem_refused (.inl h)
    · exact dbgItem_refused (.inr (.inl h))
    · exact dbgItem_refused (.inr (.inr h))
    · exact dbgItem_space h
  case items =>
    obtain ⟨hx, hspr, hpc⟩ := dbgItem_reads hhalt hen hsel
    exact ⟨fun hs hi => (hx hs).trans (if_pos hi), fun hs hi => (hx hs).trans (if_neg (Nat.not_lt.2 hi)), fun hs hi => (hspr hs).trans (if_pos hi),
      fun hs hi => (hpc hs).trans (if_pos (by rw [hi]; rfl))⟩

end Sys2Proof.Machine
end

section
/-! Exceptions and returns (R474, R453, R147, R423, R477): lemmas for the statements TrapEntry and ReturnResult, and their proofs. -/

namespace Sys2Proof.Machine
open Sys2Proof

/-! ## Exceptions (R474) -/

theorem Level.code_eq (l : Level) : l.code = if l = .user then 0 else if l = .executive then 1 else 2 := by cases l <;> rfl
theorem Level.ofCode_eq (c : BitVec 2) : Level.ofCode c = if c = 0 then .user else if c = 1 then .executive else .firmware := by
  revert c; decide

section
variable {s : State} {k : Nat} {r : TrapInfo}

theorem takeTrap_halts (hc : r.cause = .breakpoint) (hb : (s.strand k).f.brkhalt = true) :
    takeTrap s k r = haltCore (s.upd k (fun p => { p with wait := {} })) (k / 3) := if_pos ⟨hc, hb⟩
theorem takeTrap_firmware (hb : ¬(r.cause = .breakpoint ∧ (s.strand k).f.brkhalt = true))
    (h : r.cause = .fcall ∨ r.cause = .watchdog ∨ (s.strand k).level = .firmware) : takeTrap s k r = enterFirmware s k r :=
  (if_neg hb).trans (if_pos h)
theorem takeTrap_executive (hb : ¬(r.cause = .breakpoint ∧ (s.strand k).f.brkhalt = true))
    (h : ¬(r.cause = .fcall ∨ r.cause = .watchdog ∨ (s.strand k).level = .firmware)) : takeTrap s k r = enterExecutive s k r :=
  (if_neg hb).trans (if_neg h)

/-- A trap of a strand without a task is taken. -/
theorem raise_noTask (h : s.actor = .strand k) (ht : (s.strand k).task = none) : raise s r = takeTrap s k r := by
  simp only [raise, h, raiseAt, State.specTask, convertible, ht]
/-- A trap in a chrysalis is held with the task. -/
theorem raise_held (h : s.actor = .strand k) {j : Nat} {x : Task} (hj : (s.strand k).task = some j) (hx : sfind s.tasks j = some x) (hset : x.set ≠ []) :
    raise s r = { s with tasks := sput s.tasks j { x with held := some r } }.upd k (fun p => { p with wait := { blocked := true } }) := by
  simp [raise, h, raiseAt, State.specTask, hj, hx, hset]
end

/-- Settles O9: the executive, the firmware or the debugger is entered by one change of the strand, and a task's trap is held. -/
theorem trapEntry : Obligations.TrapEntry := by
  refine ⟨fun s k c a e => ?taken, fun s k r h => ⟨raise_noTask h, fun j x hj hx hset => ?held⟩⟩
  case taken =>
    intro p code
    have hcode : p.level.code = code := Level.code_eq p.level
    refine ⟨fun hb hf hw hl => ?executive, fun hb hl => ?firmware, fun hc hb => ?debug⟩
    case executive =>
      rw [takeTrap_executive hb (not_or.2 ⟨hf, not_or.2 ⟨hw, hl⟩⟩)]
      exact becomes_upd' s k _ _ (by rw [← hcode]; rfl)
    case firmware =>
      rw [takeTrap_firmware hb hl]
      refine becomes_upd' s k _ _ ?_
      rw [← hcode]
      cases hlevel : p.level <;> rfl
    case debug =>
      intro t
      have ht : t = haltCore (s.upd k (fun p => { p with wait := {} })) (k / 3) := takeTrap_halts hc hb
      obtain ⟨hself, hothers, -⟩ := becomes_upd s k (fun p => { p with wait := {} })
      rw [ht]
      exact ⟨hself, hothers, rfl,
        fun n hn => State.coreRegs_updCore_of_ne _ _ hn, State.coreRegs_updCore_self ..⟩
  case held =>
    intro t
    have ht : t = _ := raise_held h hj hx hset
    rw [ht]
    exact ⟨State.strand_upd_self .., fun i hi => State.strand_upd_of_ne _ _ hi, fun i => sfind_sput .., rfl⟩

/-! ## Returns (R147, R423, R477) -/

section
variable {s : State} {k : Nat} (h : s.actor = .strand k)
include h

theorem execEret_user (hl : (s.strand k).level = .user) : execEret s = .next (raise s (privileged wEret)) := by
  simp only [execEret, State.me_strand h, hl]
theorem execEret_executive (hl : (s.strand k).level = .executive) :
    execEret s = .next (if (s.strand k).e.epc.toNat % 4 ≠ 0 then raise s ⟨.misaligned, (s.strand k).e.epc, 0⟩ else returnExecutive s k) := by
  simp only [execEret, State.me_strand h, State.key_strand h, hl, lowTwo_ne_zero]
theorem execEret_firmware (hl : (s.strand k).level = .firmware) :
    execEret s = .next (if (s.strand k).f.pc.toNat % 4 ≠ 0 then raise s ⟨.misaligned, (s.strand k).f.pc, 0⟩ else returnFirmware s k) := by
  simp only [execEret, State.me_strand h, State.key_strand h, hl, lowTwo_ne_zero]

theorem execUiret_outside (hi : (s.strand k).ui.inHandler = false) : execUiret s = .next (raise s (illegal wUiret)) := by
  simp only [execUiret, State.me_strand h, hi, Bool.not_false, if_true]
theorem execUiret_inside (hi : (s.strand k).ui.inHandler = true) :
    execUiret s = .next (if (s.strand k).ui.pc.toNat % 4 ≠ 0 then raise s ⟨.misaligned, (s.strand k).ui.pc, 0⟩
      else s.upd k (fun t => { t with x := setUpperBank t.x t.ui.shadow, ui := { t.ui with inHandler := false }, pc := t.ui.pc, wait := {} })) := by
  simp only [execUiret, State.me_strand h, State.updMe, State.key_strand h, hi, Bool.not_true, Bool.false_eq_true, if_false, lowTwo_ne_zero]
end

/-- Settles O11: eret by the level of its strand, uiret by whether a handler runs. -/
theorem returnResult : Obligations.ReturnResult := by
  refine ⟨fun s k h => ?eret, fun s k h => ?uiret⟩
  case eret =>
    intro p level Takes
    have hlevel (c : BitVec 2) : Level.ofCode c = level c := Level.ofCode_eq c
    have hkeeps (l : Level) : (l != .user) = decide (l ≠ .user) := by cases l <;> rfl
    refine ⟨fun hu => runs_eq (execEret_user h hu), fun he hm => runs_eq ((execEret_executive h he).trans (congrArg _ (if_pos hm))),
      fun hf hm => runs_eq ((execEret_firmware h hf).trans (congrArg _ (if_pos hm))), fun he hm => ?toEpc, fun hf hm => ?toFpc⟩
    case toEpc =>
      refine ⟨_, (execEret_executive h he).trans (congrArg _ (if_neg (not_not.2 hm))), becomes_upd' s k _ _ ?_⟩
      simp only [hlevel, hkeeps, p]
    case toFpc =>
      refine ⟨_, (execEret_firmware h hf).trans (congrArg _ (if_neg (not_not.2 hm))), becomes_upd' s k _ _ ?_⟩
      simp only [hlevel, hkeeps, p, State.now]
  case uiret =>
    intro p
    refine ⟨fun hi => runs_eq (execUiret_outside h hi), fun hi hm => runs_eq ((execUiret_inside h hi).trans (congrArg _ (if_pos hm))),
      fun hi hm => ⟨setUpperBank p.x p.ui.shadow, fun i hi => ?_, _, (execUiret_inside h hi).trans (congrArg _ (if_neg (not_not.2 hm))), becomes_upd' s k _ _ rfl⟩⟩
    simp [setUpperBank]

end Sys2Proof.Machine
end

section
/-! Releases and acquires, scalar atomics and full-empty accesses (R293 to R295, R302, R309, R397, R399): lemmas for the statements
AcquireRelease, AtomicLocal and FullEmpty, and their proofs. -/

namespace Sys2Proof.Machine
open Sys2Proof

/-! ## What a release and an acquire leave (R302, R309, R399) -/

theorem takePending_mem {want : Pending → Bool} {l : List Pending} {q : Pending} (h : q ∈ l) :
    q ∈ (takePending want l).1 ∨ q ∈ (takePending want l).2 := by
  induction l with
  | nil => cases h
  | cons a t ih =>
    simp only [takePending]
    rcases List.mem_cons.1 h with rfl | h
    · split <;> simp
    · split <;> have := ih h <;> simp <;> tauto
/-- What is taken is of the core of a registration that is wanted. -/
theorem takePending_core {want : Pending → Bool} {l : List Pending} {q : Pending} (h : q ∈ (takePending want l).1) :
    ∃ y ∈ l, want y = true ∧ y.core = q.core := by
  induction l generalizing q with
  | nil => cases h
  | cons a t ih =>
    simp only [takePending] at h
    split at h
    next ha =>
      rcases List.mem_cons.1 h with rfl | h
      · rcases Bool.or_eq_true_iff.1 ha with ha | ha
        · exact ⟨q, by simp, ha, rfl⟩
        · obtain ⟨r, hr, hmeets⟩ := List.any_eq_true.1 ha
          obtain ⟨y, hy, hw, hcore⟩ := ih hr
          simp only [Pending.meets, Bool.and_eq_true, beq_iff_eq] at hmeets
          exact ⟨y, List.mem_cons_of_mem _ hy, hw, hcore.trans hmeets.1.1.symm⟩
      · obtain ⟨y, hy, hrest⟩ := ih h
        exact ⟨y, List.mem_cons_of_mem _ hy, hrest⟩
    next =>
      obtain ⟨y, hy, hrest⟩ := ih h
      exact ⟨y, List.mem_cons_of_mem _ hy, hrest⟩

section
variable {s : State} {c : Nat} {sc : Scope}

theorem scopeRank_cluster : 2 ≤ scopeRank sc ↔ sc = .cluster ∨ sc = .die ∨ sc = .device ∨ sc = .system := by cases sc <;> simp [scopeRank]
theorem scopeRank_device : 4 ≤ scopeRank sc ↔ sc = .device ∨ sc = .system := by cases sc <;> simp [scopeRank]
theorem release_narrow (h : ¬2 ≤ scopeRank sc) : release s c sc = s := if_neg h
theorem release_wide (h : 2 ≤ scopeRank sc) : release s c sc = drainCore s c := if_pos h
theorem acquire_narrow (h : ¬2 ≤ scopeRank sc) : acquire s c sc = s := if_neg h
theorem acquire_strands : (acquire s c sc).strands = s.strands := by unfold acquire; split <;> [skip; rfl]; dsimp only; split <;> rfl

/-- A registration of another core stays on its way unless a write of the releasing core's agents stands in its core. -/
theorem drainCore_keeps {x : Pending} (hx : x ∈ s.pending) (hc : x.core ≠ c) (hothers : ∀ y ∈ s.pending, y.by_ = c → y.core ≠ x.core) :
    x ∈ (drainCore s c).pending := by
  rw [drainCore, drain_pending]
  refine (takePending_mem hx).resolve_left fun ht => ?_
  obtain ⟨y, hy, hw, hcore⟩ := takePending_core ht
  rcases Bool.or_eq_true_iff.1 hw with hw | hw
  · exact hc (hcore ▸ beq_iff_eq.1 hw)
  · exact hothers y hy (beq_iff_eq.1 hw) hcore

theorem acquire_l1 (h : 2 ≤ scopeRank sc) : (acquire s c sc).l1 = s.l1.filter (fun p => !(p.1 / 2 ^ 50 == c) || p.2.dirty || heldBy s (p.1 % 2 ^ 50) c) := by
  unfold acquire; rw [if_pos h]; dsimp only; split <;> rfl
theorem acquire_strip (h : 2 ≤ scopeRank sc) : (acquire s c sc).strip = s.strip.filter (fun e => coreOf e.strand != c) := by
  unfold acquire; rw [if_pos h]; dsimp only; split <;> rfl
theorem acquire_l2_wide (h : 4 ≤ scopeRank sc) :
    (acquire s c sc).l2 = s.l2.filter (fun p => !(p.1 / 2 ^ 50 == dieOf c) || p.2.dirty || homeDie (p.1 % 2 ^ 50) == dieOf c) := by
  unfold acquire; rw [if_pos (by omega)]; exact congrArg State.l2 (if_pos h)
theorem acquire_l2_narrow (h : ¬4 ≤ scopeRank sc) : (acquire s c sc).l2 = s.l2 := by
  unfold acquire
  split
  · dsimp only
  · rfl
theorem heldBy_eq_false {w h : Nat} : heldBy s w h = false ↔ ∀ y, sfind s.reg w = some y → y.holder ≠ h := by
  unfold heldBy; cases sfind s.reg w <;> simp
theorem mem_acquire_l1 (h : 2 ≤ scopeRank sc) (e : Nat × L1Word) : e ∈ (acquire s c sc).l1 ↔
    e ∈ s.l1 ∧ ¬(e.1 / 2 ^ 50 = c ∧ e.2.dirty = false ∧ ∀ y, sfind s.reg (e.1 % 2 ^ 50) = some y → y.holder ≠ c) := by
  rw [acquire_l1 h, List.mem_filter, ← heldBy_eq_false]
  refine and_congr_right fun _ => ?_
  simp only [Bool.or_eq_true, Bool.not_eq_true', ← Bool.not_eq_true, beq_iff_eq]
  tauto
theorem mem_acquire_l2 (e : Nat × L1Word) : e ∈ (acquire s c sc).l2 ↔
    e ∈ s.l2 ∧ ¬((sc = .device ∨ sc = .system) ∧ e.1 / 2 ^ 50 = c / 32 ∧ e.2.dirty = false ∧ homeDie (e.1 % 2 ^ 50) ≠ c / 32) := by
  rw [← scopeRank_device]
  by_cases h : 4 ≤ scopeRank sc
  · rw [acquire_l2_wide h, List.mem_filter]
    refine and_congr_right fun _ => ?_
    simp only [Bool.or_eq_true, Bool.not_eq_true', ← Bool.not_eq_true, beq_iff_eq, h, dieOf]
    tauto
  · rw [acquire_l2_narrow h]; simp [h]

/-! ## What of a local window a release keeps -/

/-- Words lose their poison, and a word that another holder had loses its copy: nothing else of poison or cocoons changes. -/
def Cleans (s t : State) : Prop := (∀ x, x ∈ t.poison → x ∈ s.poison) ∧ (s.cocoons = [] → t.cocoons = [])
theorem Cleans.trans {s t u : State} (h : Cleans s t) (g : Cleans t u) : Cleans s u := ⟨fun w hw => h.1 w (g.1 w hw), fun hs => g.2 (h.2 hs)⟩
theorem Cleans.of_eq {s t : State} (hp : t.poison = s.poison) (hc : t.cocoons = s.cocoons) : Cleans s t := ⟨fun _ hw => hp ▸ hw, fun hs => hc.trans hs⟩
theorem Cleans.foldl {α : Type} (f : State → α → State) (h : ∀ s a, Cleans s (f s a)) (l : List α) (s : State) : Cleans s (l.foldl f s) := by
  induction l generalizing s with
  | nil => exact .of_eq rfl rfl
  | cons a t ih => exact (h s a).trans (ih _)
theorem dropCopy_cleans (s : State) (h w : Nat) : Cleans s (dropCopy s h w) := by
  unfold dropCopy
  split
  · exact .of_eq rfl rfl
  · split
    · exact .of_eq rfl rfl
    · exact ⟨fun _ hx => hx, fun hs => by simp [dropCocoonCopy, hs]⟩
theorem dropDie_cleans (s : State) (d w : Nat) : Cleans s (dropDie s d w) := by unfold dropDie; split <;> exact .of_eq rfl rfl
theorem extWrite_cleans (s : State) (d w : Nat) : Cleans s (extWrite s d w) := by unfold extWrite; split <;> exact .of_eq rfl rfl
theorem tellHost_cleans (s : State) (w : Nat) : Cleans s (tellHost s w) := by unfold tellHost; split <;> exact .of_eq rfl rfl
theorem breakLinksOf_cleans (who : Nat → Bool) (s : State) (a : Nat) : Cleans s (breakLinksOf who s a) := by
  unfold breakLinksOf; split <;> exact .of_eq rfl rfl
theorem registerWord_cleans (s : State) (c w : Nat) (v : Word) : Cleans s (registerWord s c w v) := by
  unfold registerWord
  split
  · exact dropCopy_cleans s c w
  · have drop : Cleans s (match sfind s.reg w with
        | some r => if r.holder = c then s else dropCopy s r.holder w
        | none => s) := by
      split
      · split
        · exact .of_eq rfl rfl
        · exact dropCopy_cleans s _ w
      · exact .of_eq rfl rfl
    refine drop.trans (.trans (dropDie_cleans _ (dieOf c) w) ?_)
    refine .trans ?_ ((extWrite_cleans _ (dieOf c) w).trans ((breakLinksOf_cleans _ _ (4 * w)).trans (tellHost_cleans _ w)))
    exact ⟨fun x hx => (mem_nsErase.1 hx).1, fun hs => hs⟩
theorem drain_cleans (s : State) (want : Pending → Bool) : Cleans s (drain s want) := by
  unfold drain
  refine .trans (t := { s with pending := (takePending want s.pending).2 }) (.of_eq rfl rfl) (Cleans.foldl _ (fun s p => ?_) _ _)
  exact Cleans.foldl _ (fun s (q : Word × Nat) => (registerWord_cleans s p.core (p.word + q.2) q.1).trans (dropDie_cleans _ _ _)) _ _
theorem release_cleans (s : State) (c : Nat) (sc : Scope) : Cleans s (release s c sc) := by
  unfold release drainCore
  split
  · exact drain_cleans s _
  · exact .of_eq rfl rfl

/-- Where only copies change, a strand works in the same group, and its windows are as before. -/
theorem CachesOnly.groupOf {s t : State} (h : CachesOnly s t) (k : Nat) : t.groupOf k = s.groupOf k := by
  obtain ⟨l, hl⟩ := h.2 k
  simp only [State.groupOf, hl, h.groups]
theorem CachesOnly.kernelOf {s t : State} (h : CachesOnly s t) (k : Nat) : t.kernelOf k = s.kernelOf k := by
  simp only [State.kernelOf, h.groupOf, h.kernels]
theorem CachesOnly.localFlat {s t : State} (h : CachesOnly s t) (k code off lane : Nat) : localFlat t k code off lane = Machine.localFlat s k code off lane := by
  simp only [Machine.localFlat, h.groupOf, h.kernelOf]
theorem CachesOnly.specTask {s t : State} (h : CachesOnly s t) (k : Nat) : t.specTask k = s.specTask k := by
  obtain ⟨l, hl⟩ := h.2 k
  simp only [State.specTask, hl, h.tasks]
theorem CachesOnly.windowSize {s t : State} (h : CachesOnly s t) (k code : Nat) : windowSize t k code = Machine.windowSize s k code := by
  simp only [Machine.windowSize, h.groupOf, h.kernelOf]
theorem CachesOnly.localAccess {s t : State} (h : CachesOnly s t) (g : Cleans s t) {k : Nat} {ea : Dword} {n : Nat} (hl : LocalAccess s k ea n) :
    LocalAccess t k ea n := by
  obtain ⟨halign, hglobal, hdevice, hsize, hcocoons, hspec⟩ := hl
  exact ⟨halign, hglobal, hdevice, by simpa only [h.windowSize] using hsize, g.2 hcocoons, (h.specTask k).trans hspec⟩
theorem CachesOnly.flatOf {s t : State} (h : CachesOnly s t) (k : Nat) (ea : Dword) : flatOf t k ea = Machine.flatOf s k ea := h.localFlat ..
end

/-- Two changes of one strand, one after the other. -/
theorem StrandBecomes.trans {s t u : State} {k : Nat} {p q : Strand} (h : StrandBecomes s k p t) (g : StrandBecomes t k q u) : StrandBecomes s k q u := by
  obtain ⟨-, hothers, hrest⟩ := h
  obtain ⟨gself, gothers, grest⟩ := g
  exact ⟨gself, fun j hj => (gothers j hj).trans (hothers j hj), by rw [← hrest, ← grest]⟩

/-! ## Releases in an instruction (R271, R303, R397) -/

section
variable {s u : State} {k : Nat} {sc : Scope}

theorem releaseM_released (h : s.actor = .strand k) (hw : releaseWaits s (k / 3) sc = false) : releaseM sc s = .ok ⟨⟩ (release s (k / 3) sc) := by
  simp only [releaseM, releaseFree]
  rw [bindM_assoc, bindM_get, core_strand h, if_neg (by simp [hw]), bindM_pure, modifyM_apply, core_strand h]
/-- An instruction that comes to its release in state u, where a registration cannot reach its home, waits or times out there. -/
theorem releaseM_waits {i : Instr} {m : M Unit} {f : PUnit → M Unit} (hi : exec i s = runInstr m s) (hm : m s = (releaseM sc >>= f) u)
    (h : u.actor = .strand k) (hw : releaseWaits u (k / 3) sc = true) : ReleaseWaitsFrom i s k u := by
  have hfree : (releaseM sc >>= f) u = (match releaseTimeout u with
      | some t => .error (.trap t) u
      | none => .error .wait u.blockRelease) := by
    simp only [releaseM, releaseFree, bindM_assoc]
    rw [bindM_get, core_strand h, if_pos hw]
    cases releaseTimeout u <;> rfl
  have hto : releaseTimeout u = if (u.strand k).wait.verdict = some .memTimeout ∧ (u.strand k).wait.out = none then
      some ⟨.memTimeout, BitVec.ofNat 64 (4 * (u.pending.find? (fun p => (p.core == u.core || p.by_ == u.core) && homeHeld u (regionOf p.word))).elim 0 (·.word)), 0⟩
      else none := by rw [releaseTimeout, waitOf_strand h]
  rw [hto] at hfree
  refine ⟨fun hv ho => ?timesOut, fun hn => ?waits⟩
  case timesOut =>
    rw [if_pos ⟨hv, ho⟩] at hfree
    exact ⟨_, runs_eq (hi.trans (runInstr_trap (hm.trans hfree)))⟩
  case waits =>
    rw [if_neg hn] at hfree
    have hblock := blockRelease_strand h
    have hactor : u.blockRelease.actor = .strand k := (congrArg State.actor hblock.2.2 :).trans h
    have hboth := hblock.trans (block_strand hactor)
    rw [hblock.1] at hboth
    exact ⟨_, hi.trans (runInstr_wait (hm.trans hfree)), hboth⟩
end

theorem specStall_idle {s : State} {ctx : Ctx} (h : s.specTask ctx.key = none) : specStall ctx s = .ok ⟨⟩ s := by
  simp only [specStall]
  rw [bindM_get, h]; simp

/-! ## ldacq and strel (R293) -/

section
variable {s : State} {k : Nat} {sc : Scope} {d a b : Reg} (h : s.actor = .strand k) (hl : LocalAccess s k (readX (s.strand k).x a) 8)
include h hl

theorem ldacq_reads (hu : Unpoisoned s (flatOf s k (readX (s.strand k).x a)) 8) :
    exec (.ldacq sc d a) s = .next ((acquire s (k / 3) sc).setX d (BitVec.ofNat 64 (Mem.readN s.mem (flatOf s k (readX (s.strand k).x a)) 8))).advance := by
  obtain ⟨-, -, -, -, -, hspec⟩ := id hl
  have hkey : s.ctx.key = k := (ctx_strand h).1
  rw [exec_ldacq, execLdacq]
  refine runInstr_ok ?_
  rw [bindM_ok (specStall_idle (hkey ▸ hspec)), State.x_strand h, bindM_ok ((loadN_local h hl 0 (by simp)).1 hu)]
  simp only [acquireM, bindM_modify, modifyM_apply, core_strand h]
theorem strel_runs : ∃ m : M Unit, exec (.strel sc a b) s = runInstr m s ∧
    m s = (releaseM sc >>= fun _ => (storeN s.ctx (readX (s.strand k).x a) 8 (readX (s.strand k).x b).toNat 0 0 >>= fun _ => modify (·.advance))) s := by
  obtain ⟨-, -, -, -, -, hspec⟩ := id hl
  have hkey : s.ctx.key = k := (ctx_strand h).1
  refine ⟨_, exec_strel.trans rfl, ?_⟩
  rw [bindM_ok (specStall_idle (hkey ▸ hspec)), State.x_strand h, State.x_strand h, bindM_ok (local_route h hl .write 0)]
end

/-! ## What is left of a local store or update -/

/-- A store that writes words whole and lands. -/
theorem stored_dword {s : State} {f v : Nat} (hw : Memory.wf s.mem = true) (hv : v < 2 ^ 64) : Stores s (stored s f 8 v) f 8 v := by
  have hs := (stored_stores (f := f) (v := v) hw (n := 8) (by simp)).1
  rwa [Nat.mod_eq_of_lt hv] at hs
theorem CachesOnly.unflagged {s t : State} (h : CachesOnly s t) (j : Nat) : (t.strand j).unflagged = (s.strand j).unflagged := by
  obtain ⟨l, hl⟩ := h.2 j; rw [hl]; rfl

section
variable {s u : State} {k : Nat} (h : u.actor = .strand k) (hflags : ∀ j, (u.strand j).unflagged = (s.strand j).unflagged)
include h hflags

/-- The strand goes on after an access that changes links and slot flags alone. -/
theorem advance_unflagged : (u.advance.strand k).unflagged = (s.strand k).onward.unflagged ∧
    (∀ j, j ≠ k → (u.advance.strand j).unflagged = (s.strand j).unflagged) := by
  obtain ⟨hself, hothers, -⟩ := onward_strand h
  refine ⟨?_, fun j hj => by rw [hothers j hj, hflags]⟩
  rw [hself]
  calc (u.strand k).onward.unflagged = ((u.strand k).unflagged).onward := rfl
    _ = (s.strand k).onward.unflagged := by rw [hflags]; rfl
theorem gives_unflagged (d : Reg) (v : Dword) : (((u.setX d v).advance).strand k).unflagged = ((s.strand k).gives d v).unflagged ∧
    (∀ j, j ≠ k → (((u.setX d v).advance).strand j).unflagged = (s.strand j).unflagged) := by
  obtain ⟨hself, hothers, -⟩ := gives_strand h d v
  refine ⟨?_, fun j hj => by rw [hothers j hj, hflags]⟩
  rw [hself]
  calc ((u.strand k).gives d v).unflagged = ((u.strand k).unflagged).gives d v := rfl
    _ = ((s.strand k).gives d v).unflagged := by rw [hflags]; rfl
end

/-- Settles O16: a release drains a core's registrations, an acquire filters the copies, and ldacq and strel make one of them beside a local
access. -/
theorem acquireRelease : Obligations.AcquireRelease := by
  refine ⟨fun s k sc d a b h hw => ?accesses, fun s c sc => ?scopes⟩
  case accesses =>
    intro p ea f hl
    obtain ⟨m, hi, hm⟩ := strel_runs (sc := sc) (b := b) h hl
    refine ⟨fun hu => ?ldacq, fun hwait => releaseM_waits hi hm h hwait, fun hfree => ?strel⟩
    case ldacq =>
      have hc := acquire_caches s (k / 3) sc
      have hself : (acquire s (k / 3) sc).strand k = p := congrArg (fun l => sget ({} : Strand) l k) acquire_strands
      refine ⟨_, ldacq_reads h hl hu, ?_⟩
      have hgives := gives_strand (hc.actor.trans h) d (BitVec.ofNat 64 (Mem.readN s.mem f 8))
      rwa [hself] at hgives
    case strel =>
      let r := release s (k / 3) sc
      have hc : CachesOnly s r := release_caches s (k / 3) sc
      have hactor : r.actor = .strand k := hc.actor.trans h
      have hlr : LocalAccess r k ea 8 := hc.localAccess (release_cleans s (k / 3) sc) hl
      have hkey : s.ctx = r.ctx := by
        obtain ⟨l, hl⟩ := hc.2 k
        simp only [State.ctx, State.key_strand h, State.key_strand hactor, State.me_strand h, State.me_strand hactor, State.isCell_strand h,
          State.isCell_strand hactor, hl]
      have hstore : storeN r.ctx ea 8 (readX p.x b).toNat 0 0 r = .ok () (stored r f 8 (readX p.x b).toNat) := by
        rw [storeN_local_lands hactor hlr (by omega), hc.flatOf]
      have hruns : exec (.strel sc a b) s = .next (stored r f 8 (readX p.x b).toNat).advance := by
        refine hi.trans (runInstr_ok (hm.trans ?_))
        rw [bindM_ok (releaseM_released h hfree), hkey, bindM_ok hstore, modifyM_apply]
      have hflags j : ((stored r f 8 (readX p.x b).toNat).strand j).unflagged = (s.strand j).unflagged := (stored_unflagged ..).trans (hc.unflagged j)
      have hstoredActor : (stored r f 8 (readX p.x b).toNat).actor = .strand k := (stored_actor ..).trans hactor
      obtain ⟨hk, hothers⟩ := advance_unflagged hstoredActor hflags
      have hframe := stored_frame r f 8 (readX p.x b).toNat
      rw [State.advance_strand hstoredActor] at hruns hk hothers
      refine ⟨_, hruns, ?_, hk, hothers, hframe⟩
      have hs := stored_dword (f := f) (hc.mem ▸ hw) (readX p.x b).isLt
      rwa [Stores, hc.mem] at hs
  case scopes =>
    intro wide r q
    have hwide : 2 ≤ scopeRank sc ↔ wide := scopeRank_cluster
    refine ⟨fun hn => ⟨release_narrow (mt hwide.1 hn), acquire_narrow (mt hwide.1 hn)⟩, fun hw => ?pending, fun hw e => mem_acquire_l1 (hwide.2 hw) e,
      mem_acquire_l2, fun hw e => ?strip, (release_caches ..).mem, (acquire_caches ..).mem, (release_caches ..).vregs, (acquire_caches ..).vregs,
      acquire_strands, fun j => ⟨((release_caches ..).strand_x j).1, ((release_caches ..).strand_x j).2.1, (release_caches ..).unflagged j⟩⟩
    case pending =>
      have hr : r = drainCore s c := release_wide (hwide.2 hw)
      exact ⟨fun x hx => drainCore_pending s c x (hr ▸ hx), fun x hx hc _ hothers => hr ▸ drainCore_keeps hx hc hothers⟩
    case strip =>
      show e ∈ (acquire s c sc).strip ↔ _
      rw [acquire_strip (hwide.2 hw), List.mem_filter]
      simp [coreOf]

/-! ## Atomics on a local dword (R293, R294) -/

section
variable {s : State} {ctx : Ctx} {f n : Nat} (hc : s.cocoons = [])
include hc

theorem localRead_noCocoon (ea : Dword) (e : Nat) (hu : Unpoisoned s f n) : localRead ctx f n ea e s = .ok (Mem.readN s.mem f n) s := by
  have hpoison : ¬(s.poison.contains (f / 4) || (n == 8 && s.poison.contains (f / 4 + 1))) = true := by simpa [Unpoisoned] using hu
  simp only [localRead]
  rw [bindM_get, cocoonOfFlat_none hc]
  simp only []
  rw [bindM_get, if_neg hpoison]; rfl
theorem localWrite_noCocoon (ea : Dword) (e v : Nat) (hn : 4 ≤ n) : localWrite ctx f n v ea e s = .ok () (stored s f n v) := by
  have hpoison : ¬(decide (n < 4) && s.poison.contains (f / 4)) = true := by simp [hn]
  simp only [localWrite]
  rw [bindM_get, cocoonOfFlat_none hc]
  simp only []
  rw [bindM_get, if_neg hpoison, cocoonOfFlat_none]
  · rfl
  · exact (congrArg State.cocoons (stored_frame s f n v) :).trans hc
theorem cocoonDrain_noCocoon : cocoonDrain s f n = s := by simp only [cocoonDrain, cocoonOfFlat_none hc]
theorem cocoonFresh_noCocoon (e : Nat) : cocoonFresh ctx f n e s = .ok () s := by
  simp only [cocoonFresh]
  rw [bindM_get, cocoonOfFlat_none hc]; rfl
end

theorem takePending_none (l : List Pending) : takePending (fun _ => false) l = ([], l) := by
  induction l with
  | nil => rfl
  | cons a t ih => simp [takePending, ih]
theorem drain_none (s : State) : drain s (fun _ => false) = s := by simp only [drain, takePending_none, List.foldl_nil]
/-- An access that issues no registration performs at once as it is. -/
theorem atOnce_ok {m : M Unit} {s u : State} (hm : m s = .ok () u) (hp : u.pending = s.pending) : atOnce m s = .ok () u := by
  simp only [atOnce]
  rw [bindM_get, bindM_ok hm, modifyM_apply, hp, List.drop_length]
  exact congrArg _ (drain_none u)

/-- The state after an update of a local dword: what it leaves where the function gives a value. -/
def updated (s : State) (f : Nat) (v : Option Nat) : State := v.elim s (stored s f 8)

theorem amoN_local {s : State} {ctx : Ctx} {ea : Dword} (hl : LocalAccess s ctx.key ea 8) (hu : Unpoisoned s (flatOf s ctx.key ea) 8) (g : Nat → Option Nat) :
    amoN ctx ea 8 0 0 g s = .ok (Mem.readN s.mem (flatOf s ctx.key ea) 8)
      (updated s (flatOf s ctx.key ea) (g (Mem.readN s.mem (flatOf s ctx.key ea) 8))) := by
  obtain ⟨-, -, -, -, hcocoons, hspec⟩ := id hl
  have hready : homeReady ctx (.loc (flatOf s ctx.key ea)) 8 ea 0 s = .ok () s := by
    simp only [homeReady]
    rw [bindM_get, cocoonOfFlat_none hcocoons]; rfl
  unfold amoN
  rw [bindM_ok (specStall_idle hspec), bindM_ok (route_localAccess hl 0 .read), bindM_ok (route_localAccess hl 0 .write)]
  simp only []
  rw [bindM_ok hready]
  simp only [amoAt]
  rw [bindM_modify, cocoonDrain_noCocoon hcocoons, bindM_ok (cocoonFresh_noCocoon hcocoons 0), bindM_ok (localRead_noCocoon hcocoons ea 0 hu)]
  cases g (Mem.readN s.mem (flatOf s ctx.key ea) 8) with
  | none => rfl
  | some v =>
    have hwrite := localWrite_noCocoon (ctx := ctx) (f := flatOf s ctx.key ea) hcocoons ea 0 v (n := 8) (by omega)
    simp only []
    rw [bindM_ok (atOnce_ok hwrite (congrArg State.pending (stored_frame s _ 8 v) :))]
    rfl

/-- The number that the bytes of a range hold, written back to them. -/
theorem byteOf_readN (m : List Host.Cell) (f n i : Nat) (hi : i < n) : byteOf (Mem.readN m f n) i = Mem.read m (f + i) := by
  induction n generalizing f i with
  | zero => omega
  | succ n ih =>
    rw [Mem.readN]
    cases i with
    | zero =>
      apply BitVec.eq_of_toNat_eq
      have := (Mem.read m f).isLt
      simpa [byteOf] using this
    | succ i =>
      have hdiv : ((Mem.read m f).toNat + 256 * Mem.readN m (f + 1) n) / 256 = Mem.readN m (f + 1) n := by
        have := (Mem.read m f).isLt; omega
      rw [byteOf, Nat.pow_succ', ← Nat.div_div_eq_div_mul, hdiv, ← byteOf, ih (f + 1) i (by omega), show f + 1 + i = f + (i + 1) by omega]

/-- An update that gives no value leaves the old bytes, which are those of the old value. -/
theorem updated_stores {s : State} {f : Nat} (hw : Memory.wf s.mem = true) (v : Option Dword) :
    Stores s (updated s f (v.map (·.toNat))) f 8 (v.getD (BitVec.ofNat 64 (Mem.readN s.mem f 8))).toNat := by
  cases v with
  | some v => exact stored_dword hw v.isLt
  | none =>
    refine ⟨hw, fun c => ?_⟩
    have hlt : Mem.readN s.mem f 8 < 2 ^ 64 := Mem.readN_lt s.mem f 8
    split
    next hc =>
      rw [Option.getD_none, BitVec.toNat_ofNat, Nat.mod_eq_of_lt hlt, byteOf_readN _ _ _ _ (by omega), show f + (c - f) = c by omega]; rfl
    next => rfl
theorem updated_frame (s : State) (f : Nat) (v : Option Nat) : { updated s f v with strands := s.strands, mem := s.mem, poison := s.poison } = s := by
  cases v with
  | none => rfl
  | some v => exact stored_frame s f 8 v
theorem updated_unflagged (s : State) (f : Nat) (v : Option Nat) (j : Nat) : ((updated s f v).strand j).unflagged = (s.strand j).unflagged := by
  cases v with
  | none => rfl
  | some v => exact stored_unflagged s f 8 v j

/-- The rest of the machine where copies of words, their records, memory, poison and strands are taken away. -/
def State.withoutCopies (t s : State) : State :=
  { t with strands := s.strands, mem := s.mem, poison := s.poison, l1 := s.l1, l2 := s.l2, reg := s.reg, pending := s.pending,
           lines := s.lines, cocoons := s.cocoons, strip := s.strip, hostLines := s.hostLines, out := s.out }
theorem CachesOnly.withoutCopies {t u : State} (h : CachesOnly t u) (s : State) : u.withoutCopies s = t.withoutCopies s :=
  (congrArg (fun x : State => x.withoutCopies s) h.1 :)

section
variable {s : State} {k : Nat} {sc : Scope} {d a : Reg} (h : s.actor = .strand k) (hl : LocalAccess s k (readX (s.strand k).x a) 8)
include h hl

/-- An atomic comes to its release first, and with it made, updates the dword, acquires and gives the old value. -/
theorem amoInstr_runs (F : Dword → Option Dword) :
    amoInstr F sc d a s = (releaseM sc >>= fun _ => amoN s.ctx (readX (s.strand k).x a) 8 0 0 (fun m => (F (BitVec.ofNat 64 m)).map (·.toNat)) >>=
      fun old => acquireM sc >>= fun _ => modify (fun s => (s.setX d (BitVec.ofNat 64 old)).advance)) s := by
  obtain ⟨-, -, -, -, -, hspec⟩ := id hl
  have hkey : s.ctx.key = k := (ctx_strand h).1
  unfold amoInstr
  rw [bindM_get, bindM_ok (specStall_idle (hkey ▸ hspec)), State.x_strand h, bindM_ok (local_route h hl .write 0)]

theorem amo_local {i : Instr} {F : Dword → Option Dword} {new : Dword} (hi : exec i s = runInstr (amoInstr F sc d a) s) (hw : Memory.wf s.mem = true)
    (hu : Unpoisoned s (flatOf s k (readX (s.strand k).x a)) 8)
    (hnew : let m : Dword := BitVec.ofNat 64 (Mem.readN s.mem (flatOf s k (readX (s.strand k).x a)) 8); (F m).getD m = new) :
    let p := s.strand k
    let f := flatOf s k (readX p.x a)
    let m : Dword := BitVec.ofNat 64 (Mem.readN s.mem f 8)
    (releaseWaits s (k / 3) sc = true → ReleaseWaits i s k) ∧
    (releaseWaits s (k / 3) sc = false → Runs i s (fun t =>
      Stores s t f 8 new.toNat ∧
      (t.strand k).unflagged = (p.gives d m).unflagged ∧ (∀ j, j ≠ k → (t.strand j).unflagged = (s.strand j).unflagged) ∧
      { t with strands := s.strands, mem := s.mem, poison := s.poison, l1 := s.l1, l2 := s.l2, reg := s.reg, pending := s.pending,
               lines := s.lines, cocoons := s.cocoons, strip := s.strip, hostLines := s.hostLines, out := s.out } = s)) := by
  intro p f m
  have hm := amoInstr_runs (sc := sc) (d := d) h hl F
  refine ⟨fun hwait => releaseM_waits hi hm h hwait, fun hfree => ?_⟩
  let r := release s (k / 3) sc
  have hc : CachesOnly s r := release_caches s (k / 3) sc
  have hactor : r.actor = .strand k := hc.actor.trans h
  have hkey : s.ctx.key = k := (ctx_strand h).1
  have hlr : LocalAccess r s.ctx.key (readX p.x a) 8 := hkey.symm ▸ hc.localAccess (release_cleans s (k / 3) sc) hl
  have hflat : flatOf r s.ctx.key (readX p.x a) = f := hkey.symm ▸ hc.flatOf k _
  have hur : Unpoisoned r f 8 := ⟨fun hp => hu.1 ((release_cleans ..).1 _ hp), fun h8 hp => hu.2 h8 ((release_cleans ..).1 _ hp)⟩
  let u := updated r f ((F m).map (·.toNat))
  have hamo : amoN s.ctx (readX p.x a) 8 0 0 (fun m => (F (BitVec.ofNat 64 m)).map (·.toNat)) r = .ok (Mem.readN s.mem f 8) u := by
    rw [amoN_local hlr (hflat.symm ▸ hur), hflat, hc.mem]
  have hcu : CachesOnly u (acquire u u.core sc) := acquire_caches ..
  have hua : u.actor = .strand k := (congrArg State.actor (updated_frame r f _) :).trans hactor
  have hqa : (acquire u u.core sc).actor = .strand k := hcu.actor.trans hua
  have hruns : exec i s = .next ((acquire u u.core sc).setX d m).advance := by
    refine hi.trans (runInstr_ok (hm.trans ?_))
    rw [bindM_ok (releaseM_released h hfree), bindM_ok hamo, acquireM, bindM_modify, modifyM_apply]
  obtain ⟨hk, hothers⟩ := gives_unflagged (s := s) hqa (fun j => (hcu.unflagged j).trans ((updated_unflagged ..).trans (hc.unflagged j))) d m
  have hframe := (gives_strand hqa d m).2.2
  refine ⟨_, hruns, ?stores, hk, hothers, ?frame⟩
  case stores =>
    have hs := updated_stores (f := f) (hc.mem ▸ hw) (F m)
    have hmem : ((acquire u u.core sc).setX d m).advance.mem = u.mem := (congrArg State.mem hframe :).trans hcu.mem
    rw [Stores, hmem]
    rw [hc.mem] at hs
    rw [Stores, hc.mem] at hs
    exact hnew ▸ hs
  case frame =>
    calc (((acquire u u.core sc).setX d m).advance).withoutCopies s
        = (acquire u u.core sc).withoutCopies s := (congrArg (fun x : State => x.withoutCopies s) hframe :)
      _ = u.withoutCopies s := hcu.withoutCopies s
      _ = r.withoutCopies s := (congrArg (fun x : State => x.withoutCopies s) (updated_frame r f _) :)
      _ = s := hc.withoutCopies s
end

/-- Which of two equal values a choice takes makes no difference. -/
theorem choose_slt (x y : Dword) : (if x.slt y then x else y) = (if x.toInt ≤ y.toInt then x else y) ∧
    (if x.slt y then y else x) = (if x.toInt ≤ y.toInt then y else x) := by
  simp only [BitVec.slt_iff_toInt_lt]
  rcases lt_trichotomy x.toInt y.toInt with h | h | h
  · simp [h, h.le]
  · simp [BitVec.eq_of_toInt_eq h]
  · simp [h.not_gt, h.not_ge]
theorem choose_ult (x y : Dword) : (if x.ult y then x else y) = (if x.toNat ≤ y.toNat then x else y) ∧
    (if x.ult y then y else x) = (if x.toNat ≤ y.toNat then y else x) := by
  simp only [BitVec.ult_iff_lt, BitVec.lt_def]
  rcases lt_trichotomy x.toNat y.toNat with h | h | h
  · simp [h, h.le]
  · simp [BitVec.eq_of_toNat_eq h]
  · simp [h.not_gt, h.not_ge]

/-- Settles O17: each atomic is an update by a function of the old value. -/
theorem atomicLocal : Obligations.AtomicLocal := by
  intro s k sc d a b h hw p ea y f hl hu m Makes
  have hy : s.x b = y := State.x_strand h b
  have hd : s.x d = readX p.x d := State.x_strand h d
  have makes {i : Instr} {F : Dword → Option Dword} {new : Dword} (hi : exec i s = runInstr (amoInstr F sc d a) s) (hnew : (F m).getD m = new) :
      Makes i new := amo_local h hl hi hw hu hnew
  refine ⟨makes rfl hy, makes rfl (by rw [hy]; rfl), makes rfl (by rw [hy]; rfl), makes rfl (by rw [hy]; rfl), makes rfl (by rw [hy]; rfl),
    makes rfl ?_, makes rfl ?_, makes rfl ?_, makes rfl ?_, makes rfl ?cas⟩
  case cas => rw [hy, hd]; split <;> rfl
  all_goals rw [hy]
  · exact (choose_slt m y).1
  · exact (choose_slt m y).2
  · exact (choose_ult m y).1
  · exact (choose_ult m y).2

/-! ## Full-empty accesses of a local word (R293, R295) -/

theorem resolve_localAccess {s : State} {ctx : Ctx} {ea : Dword} {n : Nat} (hl : LocalAccess s ctx.key ea n) (acc : Acc) (e : Nat) :
    resolve ctx ea n acc e 0 s = .ok (.loc (flatOf s ctx.key ea)) s := by
  obtain ⟨halign, hglobal, hdevice, ⟨size, hsize, hoff⟩, -, -⟩ := hl
  unfold resolve
  rw [bindM_get, if_neg (not_not.2 halign), hsize]
  simp only []
  rw [if_neg fun hx => hdevice hx.1, if_neg (Nat.not_le.2 hoff), if_neg hdevice, if_neg hglobal]; rfl

/-- Another strand came before strand k to a line of a word. -/
def Before (s : State) (k q : Nat) (full : Bool) : Prop := ∃ j l, wordWaiters s q full = j :: l ∧ j ≠ k

theorem mem_wordWaiters {s : State} {q k : Nat} {full : Bool} (hk : k ∈ wordWaiters s q full) : ⟨k, q, full⟩ ∈ s.wordLine := by
  obtain ⟨x, hx, rfl⟩ := List.mem_map.1 hk
  obtain ⟨hmem, htest⟩ := List.mem_filter.1 hx
  simp only [Bool.and_eq_true, beq_iff_eq] at htest
  obtain ⟨⟨⟨rfl, rfl⟩, -⟩, -⟩ := htest
  exact hmem

/-- The line of a word once the strand stands in it. -/
def lineWith (s : State) (k q : Nat) (full : Bool) : List WordWaiter :=
  if (wordWaiters s q full).contains k then s.wordLine else s.wordLine.filter (·.strand != k) ++ [⟨k, q, full⟩]
theorem mem_lineWith (s : State) (k q : Nat) (full : Bool) : ⟨k, q, full⟩ ∈ lineWith s k q full ∧
    ∀ x : WordWaiter, x.strand ≠ k → (x ∈ lineWith s k q full ↔ x ∈ s.wordLine) := by
  unfold lineWith
  split
  next hin => exact ⟨mem_wordWaiters (List.contains_iff_mem.1 hin), fun _ _ => Iff.rfl⟩
  next =>
    refine ⟨by simp, fun x hx => ?_⟩
    have hne : x ≠ ⟨k, q, full⟩ := fun he => hx (he ▸ rfl)
    simp [hx, hne]
section
variable {s : State} {k q : Nat} {full : Bool} (h : s.actor = .strand k)
include h

theorem feTarget_local {ea : Dword} (hl : LocalAccess s k ea 4) (acc : Acc) : feTarget ea acc 0 0 s = .ok (flatOf s k ea) s := by
  obtain ⟨-, hglobal, hdevice, -, -, hspec⟩ := id hl
  have hkey : s.ctx.key = k := (ctx_strand h).1
  have hresolve := resolve_localAccess (ctx := s.ctx) (hkey.symm ▸ hl) acc 0
  rw [hkey] at hresolve
  unfold feTarget
  rw [bindM_get, bindM_ok (specStall_idle (hkey.symm ▸ hspec)), if_neg (by simp [hglobal, hdevice]), bindM_ok hresolve]; rfl

theorem wordServes_iff : wordServes s q full = true ↔ (q ∈ s.full ↔ full = true) ∧ ¬Before s k q full := by
  have hline : (wordWaiters s q full).head?.all (· == s.key) = true ↔ ¬Before s k q full := by
    rw [State.key_strand h, Before]
    cases hw : wordWaiters s q full with
    | nil => simp
    | cons j l => simp
  have hfull : (s.full.contains q == full) = true ↔ (q ∈ s.full ↔ full = true) := by
    rw [beq_iff_eq, Bool.eq_iff_iff]; simp
  rw [wordServes, Bool.and_eq_true, hline, hfull]

theorem standOn_block : (standOn q full s).block = { s with wordLine := lineWith s k q full }.upd k
    (fun p => { p with wait := { p.wait with blocked := true, word := some q } }) := by
  have hline : State.actor { s with wordLine := lineWith s k q full } = .strand k := h
  have hstand : standOn q full s = { s with wordLine := lineWith s k q full }.upd k (fun p => { p with wait := { (s.strand k).wait with word := some q } }) := by
    rw [← setWait_strand hline, standOn, State.key_strand h, waitOf_strand h]; rfl
  have hactor : (standOn q full s).actor = .strand k := hstand ▸ h
  rw [State.block, setWait_strand hactor, waitOf_strand hactor, hstand, State.strand_upd_self, State.upd_upd]
  exact congrArg (State.setStrand { s with wordLine := lineWith s k q full } k) rfl

/-- The strand stands in line and waits, and nothing else changes. -/
theorem stands_runs {i : Instr} {m : M Unit} (hi : exec i s = runInstr m s) (hm : m s = .error .wait (standOn q full s)) :
    Runs i s (fun t => t.strand k = { s.strand k with wait := { (s.strand k).wait with blocked := true, word := some q } } ∧
      (∀ j, j ≠ k → t.strand j = s.strand j) ∧ ⟨k, q, full⟩ ∈ t.wordLine ∧ (∀ x, x.strand ≠ k → (x ∈ t.wordLine ↔ x ∈ s.wordLine)) ∧
      { t with strands := s.strands, wordLine := s.wordLine } = s) := by
  obtain ⟨hline, hothers⟩ := mem_lineWith s k q full
  exact ⟨_, (hi.trans (runInstr_wait hm)).trans (congrArg _ (standOn_block h)), State.strand_upd_self .., fun j hj => State.strand_upd_of_ne _ _ hj,
    hline, hothers, rfl⟩
end

theorem leaveWord_strand {s : State} {k : Nat} (h : s.actor = .strand k) : leaveWord s = { s with wordLine := s.wordLine.filter (·.strand != k) } := by
  rw [leaveWord, State.key_strand h]

section
variable {s : State} {k : Nat} {sc : Scope} {d a b : Reg} (h : s.actor = .strand k) (hl : LocalAccess s k (readX (s.strand k).x a) 4)
include h hl

/-- The place of the word that a full-empty access names. -/
theorem execLdfInstr_begins (empty : Bool) : let f := flatOf s k (readX (s.strand k).x a)
    ldfInstr empty sc d a s = (if empty && !wordServes s (f / 4) true then (modify (standOn (f / 4) true) >>= fun _ => waitM)
      else if !s.full.contains (f / 4) then waitM
      else localRead s.ctx f 4 (readX (s.strand k).x a) 0 >>= fun v =>
        (if empty then modify (fun s => leaveWord { s with full := nsErase s.full (f / 4) }) else pure ()) >>= fun _ =>
        acquireM sc >>= fun _ => modify (fun s => (s.setX d (BitVec.ofNat 64 v)).advance) : M Unit) s := by
  intro f
  unfold ldfInstr
  rw [bindM_get]
  simp only [State.x_strand h]
  rw [bindM_ok (feTarget_local h hl .read), bindM_get]
  simp only [State.x_strand h, f]
  cases empty <;> rfl

/-- A read of a full word, which is then left as u has it, and an acquire (R293, R295). -/
theorem ldf_gives {i : Instr} {empty : Bool} {u : State} (hi : exec i s = runInstr (ldfInstr empty sc d a) s)
    (hfull : flatOf s k (readX (s.strand k).x a) / 4 ∈ s.full) (hserves : empty = true → wordServes s (flatOf s k (readX (s.strand k).x a) / 4) true = true)
    (hu : Unpoisoned s (flatOf s k (readX (s.strand k).x a)) 4)
    (hleft : (if empty then modify (fun s' => leaveWord { s' with full := nsErase s'.full (flatOf s k (readX (s.strand k).x a) / 4) }) else pure () : M Unit) s = .ok () u)
    (hactor : u.actor = s.actor) (hstrands : u.strands = s.strands) :
    Runs i s (StrandBecomes (acquire u (k / 3) sc) k ((s.strand k).gives d (BitVec.ofNat 64 (Mem.readN s.mem (flatOf s k (readX (s.strand k).x a)) 4)))) := by
  have hcocoons := hl.2.2.2.2.1
  have hua : u.actor = .strand k := hactor.trans h
  have hruns : ldfInstr empty sc d a s = .ok () ((acquire u (k / 3) sc).setX d (BitVec.ofNat 64 (Mem.readN s.mem (flatOf s k (readX (s.strand k).x a)) 4))).advance := by
    rw [execLdfInstr_begins h hl empty, if_neg (by cases empty <;> simp_all), if_neg (by simpa using hfull), bindM_ok (localRead_noCocoon hcocoons _ _ hu),
      bindM_ok hleft, acquireM, bindM_modify, modifyM_apply, core_strand hua]
  have hself : (acquire u (k / 3) sc).strand k = s.strand k := congrArg (fun l => sget ({} : Strand) l k) (acquire_strands.trans hstrands)
  have hgives := gives_strand ((acquire_caches u (k / 3) sc).actor.trans hua) d (BitVec.ofNat 64 (Mem.readN s.mem (flatOf s k (readX (s.strand k).x a)) 4))
  exact ⟨_, hi.trans (runInstr_ok hruns), hself ▸ hgives⟩

theorem stf_begins : ∃ m : M Unit, exec (.stf sc a b) s = runInstr m s ∧ (let f := flatOf s k (readX (s.strand k).x a)
    m s = (if !wordServes s (f / 4) false then (modify (standOn (f / 4) false) >>= fun _ => waitM)
      else releaseM sc >>= fun _ => localWrite s.ctx f 4 ((readX (s.strand k).x b).toNat % 2 ^ 32) (readX (s.strand k).x a) 0 >>= fun _ =>
        modify (fun s => (leaveWord { s with full := nsInsert s.full (f / 4) }).advance) : M Unit) s) := by
  refine ⟨_, exec_stf.trans rfl, ?_⟩
  intro f
  simp only [State.x_strand h]
  rw [bindM_ok (feTarget_local h hl .write), bindM_get]
  simp only [State.x_strand h, f]
end

/-- Settles O18: ldf, ldc and stf wait by the word's bit and its line, or access it. -/
theorem fullEmpty : Obligations.FullEmpty := by
  intro s k sc d a b h hw p ea f waits before Stands hl
  obtain ⟨m, hi, hm⟩ := stf_begins (sc := sc) (b := b) h hl
  have hldf := execLdfInstr_begins (sc := sc) (d := d) h hl false
  have hldc := execLdfInstr_begins (sc := sc) (d := d) h hl true
  have serves {full : Bool} := wordServes_iff h (q := f / 4) (full := full)
  refine ⟨fun hfull hu => ⟨?ldf, fun hfirst => ?ldc⟩, fun hempty => ?ldfWaits, fun hlate => ?ldcStands, fun hlate => ?stfStands,
    fun hempty hfirst hwait => ?stfWaits, fun hempty hfirst hfree => ?stf⟩
  case ldf => exact ldf_gives h hl rfl hfull (fun hf => nomatch hf) hu rfl rfl rfl
  case ldc =>
    refine ldf_gives h hl rfl hfull (fun _ => serves.2 ⟨by simp [hfull], hfirst⟩) hu (u := { s with full := nsErase s.full (f / 4), wordLine := s.wordLine.filter (·.strand != k) })
      ?_ rfl rfl
    exact congrArg _ (leaveWord_strand (s := { s with full := nsErase s.full (f / 4) }) h)
  case ldfWaits =>
    refine ⟨_, exec_ldf.trans (runInstr_wait (hldf.trans ?_)), block_strand h⟩
    rw [if_neg (by simp), if_pos (by simpa using hempty)]; rfl
  case ldcStands =>
    refine stands_runs h rfl (hldc.trans ?_)
    have hnot : wordServes s (f / 4) true = false := Bool.eq_false_iff.2 fun hs => by
      obtain ⟨hfull, hfirst⟩ := serves.1 hs
      exact hlate.elim (fun hn => hn (hfull.2 rfl)) hfirst
    rw [if_pos (by rw [hnot]; rfl)]; rfl
  case stfStands =>
    refine stands_runs h hi (hm.trans ?_)
    have hnot : wordServes s (f / 4) false = false := Bool.eq_false_iff.2 fun hs => by
      obtain ⟨hfull, hfirst⟩ := serves.1 hs
      exact hlate.elim (fun hn => Bool.false_ne_true (hfull.1 hn)) hfirst
    rw [if_pos (by rw [hnot]; rfl)]; rfl
  case stfWaits =>
    have hyes : wordServes s (f / 4) false = true := serves.2 ⟨by simp [hempty], hfirst⟩
    exact releaseM_waits hi (hm.trans (congrFun (if_neg (by rw [hyes]; simp)) s)) h hwait
  case stf =>
    have hyes : wordServes s (f / 4) false = true := serves.2 ⟨by simp [hempty], hfirst⟩
    let r := release s (k / 3) sc
    have hc : CachesOnly s r := release_caches s (k / 3) sc
    let u := stored r f 4 ((readX p.x b).toNat % 2 ^ 32)
    have hframe : { u with strands := r.strands, mem := r.mem, poison := r.poison } = r := stored_frame ..
    have hua : u.actor = .strand k := (congrArg State.actor hframe :).trans (hc.actor.trans h)
    have hwrite : localWrite s.ctx f 4 ((readX p.x b).toNat % 2 ^ 32) ea 0 r = .ok () u :=
      localWrite_noCocoon ((release_cleans s (k / 3) sc).2 hl.2.2.2.2.1) ea 0 _ (by omega)
    let v : State := { u with full := nsInsert u.full (f / 4), wordLine := u.wordLine.filter (·.strand != k) }
    have hleave : leaveWord { u with full := nsInsert u.full (f / 4) } = v := leaveWord_strand (s := { u with full := nsInsert u.full (f / 4) }) hua
    have hva : v.actor = .strand k := hua
    have hruns : exec (.stf sc a b) s = .next v.advance := by
      refine hi.trans (runInstr_ok (hm.trans ?_))
      rw [if_neg (by rw [hyes]; simp), bindM_ok (releaseM_released h hfree), bindM_ok hwrite, modifyM_apply, hleave]
    have hflags (j : Nat) : (u.strand j).unflagged = (s.strand j).unflagged := (stored_unflagged ..).trans (hc.unflagged j)
    obtain ⟨hk, hothers⟩ := advance_unflagged (s := s) (u := v) hva hflags
    rw [State.advance_strand hva] at hruns hk hothers
    refine ⟨_, hruns, ?stores, ?full, ?line, hk, hothers, ?rest⟩
    case stores =>
      have hs := (stored_stores (f := f) (v := (readX p.x b).toNat) (hc.mem ▸ hw) (n := 4) (by simp)).1
      rwa [Stores, hc.mem] at hs
    case full => exact congrArg (nsInsert · (f / 4)) ((congrArg State.full hframe :).trans hc.full)
    case line => exact congrArg (List.filter (·.strand != k)) ((congrArg State.wordLine hframe :).trans (congrArg State.wordLine hc.1 :))
    case rest => exact (congrArg (fun x : State => { x with full := r.full, wordLine := r.wordLine }) hframe :)

end Sys2Proof.Machine
end

section
/-! Tile accumulators (R247 to R253, R263 to R265): lemmas for the statement TileMoves, and its proof. -/

namespace Sys2Proof.Machine
open Sys2Proof

/-! ## Tiles and the tmops in flight on them -/

/-- A tmop of strand i, of the core of strand k, has issued, is not complete, and names tile j (R251). -/
def TmopInFlight (s : State) (k i j : Nat) : Prop := i / 3 = k / 3 ∧ (s.strand i).wait.issued = true ∧ (s.strand i).wait.tile = some j
/-- Tile j is being zeroed, or a tmop in flight of another strand that names it has issued before the instruction of strand k (R253, R265). -/
def TileHeld (s : State) (k j : Nat) : Prop :=
  (s.tile j).busy = true ∨ ∃ i, i ≠ k ∧ TmopInFlight s k i j ∧ ((s.strand k).wait.seq = 0 ∨ (s.strand i).wait.seq < (s.strand k).wait.seq)

section
variable {s : State} {k : Nat} (h : s.actor = .strand k)
include h

theorem mem_coreStrands {i : Nat} : i ∈ upFrom (3 * s.core) 3 ↔ i / 3 = k / 3 := by
  rw [mem_upFrom, State.core, State.key_strand h, coreOf]; omega
theorem State.myTile_strand (acc : BitVec 2) : s.myTile acc = s.tileKey k acc := by rw [State.myTile, State.key_strand h]

theorem tileBusy_iff {j : Nat} : tileBusy s j = true ↔ ∃ i, TmopInFlight s k i j := by
  simp only [tileBusy, List.any_eq_true, mem_coreStrands h, Bool.and_eq_true, beq_iff_eq, TmopInFlight]
theorem tileTaken_iff {j : Nat} : tileTaken s j = true ↔
    ∃ i, i ≠ k ∧ TmopInFlight s k i j ∧ ((s.strand k).wait.seq = 0 ∨ (s.strand i).wait.seq < (s.strand k).wait.seq) := by
  simp only [tileTaken, State.issuedBefore, List.any_eq_true, mem_coreStrands h, State.key_strand h, TmopInFlight, Bool.and_eq_true,
    Bool.or_eq_true, bne_iff_ne, beq_iff_eq, decide_eq_true_eq]
  exact exists_congr fun i => ⟨fun ⟨hcore, ⟨hne, htile⟩, hissued, hseq⟩ => ⟨hne, ⟨hcore, hissued, htile⟩, hseq⟩,
    fun ⟨hne, ⟨hcore, hissued, htile⟩, hseq⟩ => ⟨hcore, ⟨hne, htile⟩, hissued, hseq⟩⟩
theorem tileFree_held {j : Nat} (hheld : TileHeld s k j) : tileFree s j = .error .wait :=
  if_pos (Bool.or_eq_true_iff.2 (hheld.imp_right (tileTaken_iff h).2))
theorem tileFree_free {j : Nat} (hfree : ¬TileHeld s k j) : tileFree s j = .ok () :=
  if_neg fun hor => hfree ((Bool.or_eq_true_iff.1 hor).imp_right (tileTaken_iff h).1)

/-! ## tclaim, tfree, tzero and tstat (R250, R251) -/

variable {acc : BitVec 2}

theorem tclaim_claimed {j : Nat} (x : Reg) (int : Bool) (hj : s.tileKey k acc = some j) :
    Runs (.tclaim x acc int) s (StrandBecomes s k ((s.strand k).gives x 1)) := by
  refine ⟨_, ?_, gives_strand h x 1⟩
  rw [exec_tclaim, execTclaim, State.myTile_strand h, hj]
theorem tclaim_none (x : Reg) (int : Bool) (hname : s.tileKey k acc = none) (hfree : s.freeTiles = []) :
    Runs (.tclaim x acc int) s (StrandBecomes s k ((s.strand k).gives x 2)) := by
  refine ⟨_, ?_, gives_strand h x 2⟩
  rw [exec_tclaim, execTclaim, State.myTile_strand h, hname, hfree]
theorem tclaim_binds {j : Nat} {l : List Nat} (x : Reg) (int : Bool) (hname : s.tileKey k acc = none) (hfree : s.freeTiles = j :: l) :
    Runs (.tclaim x acc int) s
      (StrandBecomes (s.setTile j { bound := some (s.shardKey k, acc), int := int, busy := true }) k ((s.strand k).gives x 0)) := by
  refine ⟨_, ?_, gives_strand (s := s.setTile j _) h x 0⟩
  rw [exec_tclaim, execTclaim, State.myTile_strand h, hname, hfree, State.key_strand h]

theorem tfree_unclaimed (hname : s.tileKey k acc = none) : Runs (.tfree acc) s (StrandBecomes s k (s.strand k).onward) := by
  refine ⟨_, ?_, onward_strand h⟩
  rw [exec_tfree, execTfree, State.myTile_strand h, hname]
theorem tfree_guarded {j : Nat} (hj : s.tileKey k acc = some j) : exec (.tfree acc) s = vguard (tileFree s j) (s.setTile j {}).advance s := by
  rw [exec_tfree, execTfree, State.myTile_strand h, hj]
theorem tzero_unclaimed (int : Bool) (hname : s.tileKey k acc = none) :
    Runs (.tzero acc int) s (fun t => t = raise s ⟨.tileUnclaimed, BitVec.ofNat 64 acc.toNat, 0⟩) := by
  refine vguard_traps (r := ⟨.tileUnclaimed, BitVec.ofNat 64 acc.toNat, 0⟩) (exec_tzero ..) ?_ (fun hcause : Cause.tileUnclaimed = .memPoison => nomatch hcause)
  rw [tileNamed, State.myTile_strand h, hname]; rfl
theorem tzero_guarded {j : Nat} (int : Bool) (hj : s.tileKey k acc = some j) : exec (.tzero acc int) s =
    vguard (tileFree s j) (s.setTile j { s.tile j with int := int, rows := [], poison := [], busy := true }).advance s := by
  rw [exec_tzero, execTzero, tileNamed, State.myTile_strand h, hj]; rfl

theorem tstat_gives (x : Reg) {busy : Bool} (hbusy : busy = true ↔ ∃ i j, s.tileKey k acc = some j ∧ TmopInFlight s k i j) :
    Runs (.tstat x acc) s (StrandBecomes s k ((s.strand k).gives x (BitVec.ofNat 64
      (65536 * ((s.groupOf k).map (·.tiles)).getD 0 + 256 * s.freeTiles.length + (if busy then 4 else 0) +
        match s.tileKey k acc with | some j => if (s.tile j).int then 3 else 1 | none => 0)))) := by
  refine ⟨_, ?_, gives_strand h x _⟩
  rw [exec_tstat, execTstat, State.myTile_strand h, State.key_strand h]
  have hres : (match s.groupOf k with | some g => g.tiles | none => 0) = ((s.groupOf k).map (·.tiles)).getD 0 := by
    cases s.groupOf k <;> rfl
  cases hname : s.tileKey k acc with
  | none =>
    have hidle : busy = false := Bool.eq_false_iff.2 fun hb => by
      obtain ⟨i, j, hj, -⟩ := hbusy.1 hb
      rw [hname] at hj; nomatch hj
    simp only [hidle, Bool.false_eq_true, if_false, Nat.add_zero, ← hres] <;> rfl
  | some j =>
    have hbusy' : tileBusy s j = busy := Bool.eq_iff_iff.2 ((tileBusy_iff h).trans (Iff.trans
      ⟨fun ⟨i, hi⟩ => ⟨i, j, hname, hi⟩, fun ⟨i, j', hj', hi⟩ => ⟨i, by rw [hname] at hj'; cases hj'; exact hi⟩⟩ hbusy.symm))
    have hst : (if busy then 4 else 0) + (if (s.tile j).int then 2 else 0) + 1 =
        (if busy then 4 else 0) + (if (s.tile j).int then 3 else 1) := by
      cases (s.tile j).int <;> rfl
    simp only [hbusy', ← hres, hst, Nat.add_assoc] <;> rfl
end

/-! ## Slice moves: their checks (R263, R264) -/

section
variable {s : State} {i : Instr} {c : Except Stop Unit} {effect : State} (hi : exec i s = sliceGuard c effect s)
include hi

theorem sliceGuard_completes (hc : c = .ok ()) : exec i s = .next effect := hi.trans (by rw [hc]; rfl)
theorem sliceGuard_traps {cause : Cause} {a : Dword} {e : Nat} (hc : c = .error (.trap ⟨cause, a, e⟩)) (hcause : cause ≠ .memPoison) :
    Runs i s (fun t => t = raise s ⟨cause, a, e⟩) :=
  runs_eq (hi.trans (by rw [hc]; exact if_neg hcause))
theorem sliceGuard_poisoned {k : Nat} {a : Dword} {e : Nat} (h : s.actor = .strand k) (hc : c = .error (.trap ⟨.memPoison, a, e⟩)) :
    Runs i s (fun t => t = raise (s.upd k (fun q => { q with vstart := 0 })) ⟨.memPoison, a, e⟩) := by
  rw [← State.key_strand h]
  exact runs_eq (hi.trans (by rw [hc, sliceGuard]; exact if_pos rfl))
theorem sliceGuard_waits {k : Nat} (h : s.actor = .strand k) (hc : c = .error .wait) :
    Runs i s (StrandBecomes s k { s.strand k with wait := { (s.strand k).wait with blocked := true } }) :=
  ⟨_, hi.trans (by rw [hc]; rfl), block_strand h⟩
end

/-- A slice move is checked before it moves anything. -/
theorem slice_guarded (s : State) (acc : BitVec 2) (v x : Reg) {i : Instr} (hi : i ∈ [.trdrow v acc x, .trdcol v acc x, .twrrow acc x v, .twrcol acc x v]) :
    ∃ at_ reads word effect, encode i = some word ∧ exec i s = sliceGuard (sliceChecks s acc v x at_ reads word) effect s := by
  simp only [List.mem_cons, List.not_mem_nil, or_false] at hi
  rcases hi with rfl | rfl | rfl | rfl
  · exact ⟨_, _, _, _, rfl, exec_trdrow ..⟩
  · exact ⟨_, _, _, _, rfl, exec_trdcol ..⟩
  · exact ⟨_, _, _, _, rfl, exec_twrrow ..⟩
  · exact ⟨_, _, _, _, rfl, exec_twrcol ..⟩

/-- The elements of the tile that a slice move reads, in ascending order. -/
def sliceReads (s : State) (x : Reg) (at_ : Nat → Nat → Nat × Nat) (reads : Bool) : List Nat :=
  if reads then (upFrom s.vstart (min s.vl 128 - s.vstart)).map
    (fun q => 128 * (at_ ((s.x x).toNat % 128) q).1 + (at_ ((s.x x).toNat % 128) q).2) else []

section
variable {s : State} {k : Nat} (h : s.actor = .strand k) {acc : BitVec 2} {v x : Reg} (at_ : Nat → Nat → Nat × Nat) (reads : Bool) (word : Word)
include h

theorem sliceChecks_window (hv : (s.strand k).window ≤ v.toNat) :
    sliceChecks s acc v x at_ reads word = .error (.trap ⟨.vregWindow, BitVec.ofNat 64 v.toNat, 0⟩) :=
  check_error (if_neg fun hin => by rw [State.me_strand h] at hin; omega)

theorem slice_legal (hew : ewBits (s.strand k).vtype = 32) (hgrp : grpRegs (s.strand k).vtype = 1) :
    legal (s.ew == 32 && s.grp == 1) word = .ok () :=
  if_pos (by rw [State.ew, State.grp, State.me_strand h, hew, hgrp]; rfl)

variable (hv : v.toNat < (s.strand k).window)
include hv

theorem group_one : groupOk s.me v.toNat 1 = .ok () := if_pos ⟨Nat.mod_one _, by rw [State.me_strand h]; omega⟩
theorem sliceChecks_unclaimed (hname : s.tileKey k acc = none) :
    sliceChecks s acc v x at_ reads word = .error (.trap ⟨.tileUnclaimed, BitVec.ofNat 64 acc.toNat, 0⟩) :=
  (check_ok (group_one h hv)).trans (by rw [tileNamed, State.myTile_strand h, hname]; rfl)

variable {j : Nat} (hj : s.tileKey k acc = some j)
include hj

/-- The checks after the tile's name. -/
theorem sliceChecks_named : sliceChecks s acc v x at_ reads word = (do
      legal (s.ew == 32 && s.grp == 1) word
      (if (s.x x).toNat < 128 then .ok () else .error (stopTrap .windowRange (s.x x).toNat 0))
      tileFree s j
      match (sliceReads s x at_ reads).find? ((s.tile j).poison.contains ·) with
      | some q => .error (stopTrap .memPoison acc.toNat q)
      | none => .ok ()) :=
  (check_ok (group_one h hv)).trans (by rw [tileNamed, State.myTile_strand h, hj]; rfl)
theorem sliceChecks_illegal (hform : ¬(ewBits (s.strand k).vtype = 32 ∧ grpRegs (s.strand k).vtype = 1)) :
    sliceChecks s acc v x at_ reads word = .error (.trap ⟨.illegalInstruction, word.zeroExtend 64, 0⟩) := by
  rw [sliceChecks_named h at_ reads word hv hj]
  refine check_error ?_
  have hbad : (s.ew == 32 && s.grp == 1) = false :=
    Bool.eq_false_iff.2 fun hok => hform (by simpa [State.ew, State.grp, State.me_strand h] using hok)
  rw [hbad, legal_false]

variable (hew : ewBits (s.strand k).vtype = 32) (hgrp : grpRegs (s.strand k).vtype = 1)
include hew hgrp

theorem sliceChecks_range (hx : 128 ≤ (readX (s.strand k).x x).toNat) :
    sliceChecks s acc v x at_ reads word = .error (.trap ⟨.windowRange, BitVec.ofNat 64 (readX (s.strand k).x x).toNat, 0⟩) := by
  rw [sliceChecks_named h at_ reads word hv hj, check_ok (slice_legal h word hew hgrp), State.x_strand h]
  exact check_error (if_neg (Nat.not_lt.2 hx))

variable (hx : (readX (s.strand k).x x).toNat < 128)
include hx

theorem sliceChecks_held (hheld : TileHeld s k j) : sliceChecks s acc v x at_ reads word = .error .wait := by
  rw [sliceChecks_named h at_ reads word hv hj, check_ok (slice_legal h word hew hgrp), State.x_strand h,
    check_ok (if_pos hx)]
  exact check_error (tileFree_held h hheld)
theorem sliceChecks_free (hfree : ¬TileHeld s k j) : sliceChecks s acc v x at_ reads word =
    match (sliceReads s x at_ reads).find? ((s.tile j).poison.contains ·) with
    | some q => .error (stopTrap .memPoison acc.toNat q)
    | none => .ok () := by
  rw [sliceChecks_named h at_ reads word hv hj, check_ok (slice_legal h word hew hgrp), State.x_strand h,
    check_ok (if_pos hx)]
  exact check_ok (tileFree_free h hfree)
end

/-! ## Slice moves out of a tile -/

/-- Element 128 × row + column of a tile is poisoned, for element q of a slice that is read from VSTART to min(vl, 128) − 1. -/
def SlicePoisoned (s : State) (k j : Nat) (row col : Nat → Nat) (q : Nat) : Prop :=
  ((s.strand k).vstart.toNat ≤ q ∧ q < min (s.strand k).vl.toNat 128) ∧ 128 * row q + col q ∈ (s.tile j).poison

section
variable {s : State} {k : Nat} (h : s.actor = .strand k) {x : Reg} {at_ : Nat → Nat → Nat × Nat} {row col : Nat → Nat}
  (hat : ∀ q, at_ ((readX (s.strand k).x x).toNat % 128) q = (row q, col q)) (j : Nat)
include h hat

theorem sliceReads_find : (sliceReads s x at_ true).find? ((s.tile j).poison.contains ·) =
    ((upFrom (s.strand k).vstart.toNat (min (s.strand k).vl.toNat 128 - (s.strand k).vstart.toNat)).find?
      (fun q => (s.tile j).poison.contains (128 * row q + col q))).map (fun q => 128 * row q + col q) := by
  simp only [sliceReads, if_true, State.x_strand h, hat, State.vstart, State.vl, State.me_strand h, List.find?_map]
  rfl
theorem sliceReads_clean (hclean : ∀ q, ¬SlicePoisoned s k j row col q) :
    (sliceReads s x at_ true).find? ((s.tile j).poison.contains ·) = none := by
  rw [sliceReads_find h hat, Option.map_eq_none_iff, List.find?_eq_none]
  intro q hq
  rw [mem_upFrom] at hq
  simpa using fun hp => hclean q ⟨by omega, hp⟩
/-- The first poisoned element of the slice is the one that the check finds. -/
theorem sliceReads_poisoned {q : Nat} (hq : SlicePoisoned s k j row col q) (hfirst : ∀ r, r < q → ¬SlicePoisoned s k j row col r) :
    (sliceReads s x at_ true).find? ((s.tile j).poison.contains ·) = some (128 * row q + col q) := by
  rw [sliceReads_find h hat, Option.map_eq_some_iff]
  refine ⟨q, ?_, rfl⟩
  obtain ⟨hbody, hpoison⟩ := hq
  rw [upFrom, List.find?_range'_eq_some, ← upFrom, mem_upFrom]
  refine ⟨by simpa using hpoison, by omega, fun r hr hlt => ?_⟩
  simpa using fun hp => hfirst r hlt ⟨by omega, hp⟩
end

theorem vlmaxOf_words {vt : BitVec 8} (hew : ewBits vt = 32) (hgrp : grpRegs vt = 1) : vlmaxOf vt = 128 := by rw [vlmaxOf, hew, hgrp]

section
variable {s : State} {k : Nat} (h : s.actor = .strand k) {acc : BitVec 2} {v x : Reg} {j : Nat} (hj : s.tileKey k acc = some j)
  (hfree : ¬TileHeld s k j) (hew : ewBits (s.strand k).vtype = 32) (hgrp : grpRegs (s.strand k).vtype = 1)
  (hv : v.toNat < (s.strand k).window) (hx : (readX (s.strand k).x x).toNat < 128)
include h hj hfree hew hgrp hv hx

variable {i : Instr} {at_ : Nat → Nat → Nat × Nat} {word : Word}

section
variable {row col : Nat → Nat} (hat : ∀ q, at_ ((readX (s.strand k).x x).toNat % 128) q = (row q, col q)) (hi : exec i s = tileRead at_ v acc x word s)
include hat hi

theorem tileRead_poisoned {q : Nat} (hq : SlicePoisoned s k j row col q) (hfirst : ∀ r, r < q → ¬SlicePoisoned s k j row col r) :
    Runs i s (fun t => t = raise (s.upd k (fun q => { q with vstart := 0 })) ⟨.memPoison, BitVec.ofNat 64 acc.toNat, 128 * row q + col q⟩) := by
  refine sliceGuard_poisoned hi h ?_
  rw [sliceChecks_free h at_ true word hv hj hew hgrp hx hfree, sliceReads_poisoned h hat j hq hfirst]
  rfl
theorem tileRead_result (hclean : ∀ q, ¬SlicePoisoned s k j row col q) :
    VectorResult i s k (.vreg v) v.toNat 32 128 ⟨false, 0⟩ (fun q => (((s.tile j).elem (row q) (col q)).toNat, 0)) := by
  have hchecks : sliceChecks s acc v x at_ true word = .ok () := by
    rw [sliceChecks_free h at_ true word hv hj hew hgrp hx hfree, sliceReads_clean h hat j hclean]
  rw [← vlmaxOf_words hew hgrp]
  refine permuteEffect_result h (f := fun q => some ((s.tile j).elem (row q) (col q)).toNat) ?_ (by decide) fun _ => rfl
  rw [sliceGuard_completes hi hchecks, State.myTile_strand h, hj, State.x_strand h]
  simp only [Option.getD_some, hat, permuteEffect, vaPop]
  exact congrArg Host.Outcome.next (apply_ite vdone ..)
end
end

/-! ## Slice moves into a tile -/

/-- Element q of a slice written: the element of the tile at place q holds val q, and its poison is gone. -/
def Tile.writeAt (place : Nat → Nat × Nat) (val : Nat → Word) (t : Tile) (q : Nat) : Tile :=
  { t.setElem (place q).1 (place q).2 (val q) with poison := nsErase t.poison (128 * (place q).1 + (place q).2) }

theorem Tile.elem_setElem (t : Tile) (i j r c : Nat) (w : Word) (hc : c < 128) :
    (t.setElem i j w).elem r c = if (i, j) = (r, c) then w else t.elem r c := by
  unfold Tile.elem Tile.setElem
  by_cases hr : i = r
  · subst hr
    rw [sget_sput_self]
    by_cases hcol : j = c
    · subst hcol
      rw [getBits_putBits_self _ _ _ _ (by omega), if_pos rfl, ← BitVec.toNat_ofNat, BitVec.ofNat_toNat]
      simp
    · rw [getBits_putBits_of_disjoint _ _ _ _ _ _ (by omega), if_neg fun he => hcol (congrArg Prod.snd he)]
  · rw [sget_sput_of_ne _ _ _ (Ne.symm hr), if_neg fun he => hr (congrArg Prod.fst he)]

section
variable (place : Nat → Nat × Nat) (val : Nat → Word) (t : Tile) (l : List Nat)

/-- An element at place q, for one q, holds val q where q was written. -/
theorem Tile.elem_writes {r c : Nat} (hc : c < 128) {at' : Option Nat} (hat : ∀ q, place q = (r, c) ↔ at' = some q) :
    (l.foldl (Tile.writeAt place val) t).elem r c = match at'.filter (fun q => decide (q ∈ l)) with | some q => val q | none => t.elem r c := by
  induction l using List.reverseRecOn with
  | nil => cases at' <;> rfl
  | append_singleton l a ih =>
    rw [List.foldl_append, List.foldl_cons, List.foldl_nil]
    refine (Tile.elem_setElem _ _ _ _ _ _ hc).trans ?_
    by_cases ha : place a = (r, c)
    · rw [if_pos ha, (hat a).1 ha, Option.filter_some, if_pos (by simp)]
    · rw [if_neg ha, ih]
      cases hq : at' with
      | none => rfl
      | some q =>
        have hne : q ≠ a := fun he => ha ((hat a).2 (he ▸ hq))
        simp only [Option.filter_some, List.mem_append, List.mem_singleton, hne, or_false]
theorem Tile.poison_writes (q : Nat) : q ∈ (l.foldl (Tile.writeAt place val) t).poison ↔
    q ∈ t.poison ∧ ∀ a ∈ l, q ≠ 128 * (place a).1 + (place a).2 := by
  induction l generalizing t with
  | nil => simp
  | cons a l ih =>
    rw [List.foldl_cons, ih]
    simp only [Tile.writeAt, mem_nsErase, List.forall_mem_cons, and_assoc]
theorem Tile.writes_keeps : (l.foldl (Tile.writeAt place val) t).bound = t.bound ∧ (l.foldl (Tile.writeAt place val) t).int = t.int ∧
    (l.foldl (Tile.writeAt place val) t).busy = t.busy := by
  induction l generalizing t with
  | nil => exact ⟨rfl, rfl, rfl⟩
  | cons a l ih => exact ih _
end

/-- The element of a slice of a tile that lies at row r and column c. -/
def sliceAt (s : State) (k : Nat) (at' : Nat → Nat → Option Nat) (r c : Nat) : Option Nat :=
  (at' r c).filter (fun q => decide ((s.strand k).vstart.toNat ≤ q ∧ q < min (s.strand k).vl.toNat 128))

section
variable {s : State} {k : Nat} (h : s.actor = .strand k) {acc : BitVec 2} {v x : Reg} {j : Nat} (hj : s.tileKey k acc = some j)
  (hfree : ¬TileHeld s k j) (hew : ewBits (s.strand k).vtype = 32) (hgrp : grpRegs (s.strand k).vtype = 1)
  (hv : v.toNat < (s.strand k).window) (hx : (readX (s.strand k).x x).toNat < 128)
  {i : Instr} {at_ : Nat → Nat → Nat × Nat} {word : Word} (hi : exec i s = tileWrite at_ acc x v word s)
include h hj hfree hew hgrp hv hx hi

theorem tileWrite_completes : exec i s = .next (vdone (s.setTile j
    ((upFrom (s.strand k).vstart.toNat (min (s.strand k).vl.toNat 128 - (s.strand k).vstart.toNat)).foldl
      (Tile.writeAt (at_ (readX (s.strand k).x x).toNat) (fun q => BitVec.ofNat 32 (vget s k v.toNat 32 q))) (s.tile j)))) := by
  have hchecks : sliceChecks s acc v x at_ false word = .ok () := sliceChecks_free h at_ false word hv hj hew hgrp hx hfree
  rw [sliceGuard_completes hi hchecks, State.myTile_strand h, hj, State.x_strand h, State.key_strand h, Nat.mod_eq_of_lt hx,
    State.vstart, State.vl, State.me_strand h]
  rfl

variable {at' : Nat → Nat → Option Nat} (hat : ∀ r c q, at_ (readX (s.strand k).x x).toNat q = (r, c) ↔ at' r c = some q)
  (hcol : ∀ q, q < 128 → (at_ (readX (s.strand k).x x).toNat q).2 < 128)
include hat hcol

theorem tileWrite_runs : Runs i s (fun t =>
    (∀ r c, r < 128 → c < 128 → (t.tile j).elem r c =
      match sliceAt s k at' r c with | some q => BitVec.ofNat 32 (vget s k v.toNat 32 q) | none => (s.tile j).elem r c) ∧
    (∀ q, q ∈ (t.tile j).poison ↔ q ∈ (s.tile j).poison ∧ sliceAt s k at' (q / 128) (q % 128) = none) ∧
    (t.tile j).bound = (s.tile j).bound ∧ (t.tile j).int = (s.tile j).int ∧ (t.tile j).busy = false ∧ (∀ i, i ≠ j → t.tile i = s.tile i) ∧
    t.strand k = { (s.strand k).onward with vstart := 0 } ∧ (∀ i, i ≠ k → t.strand i = s.strand i) ∧
    { t with strands := s.strands, tiles := s.tiles } = s) := by
  have hbody : ∀ q, q ∈ upFrom (s.strand k).vstart.toNat (min (s.strand k).vl.toNat 128 - (s.strand k).vstart.toNat) ↔
      (s.strand k).vstart.toNat ≤ q ∧ q < min (s.strand k).vl.toNat 128 := fun q => by rw [mem_upFrom]; omega
  refine ⟨_, (tileWrite_completes h hj hfree hew hgrp hv hx hi).trans (congrArg Host.Outcome.next (vdone_strand (k := k) h)), ?_⟩
  generalize upFrom (s.strand k).vstart.toNat (min (s.strand k).vl.toNat 128 - (s.strand k).vstart.toNat) = l at hbody
  have htile : ∀ (T : Tile) (f : Strand → Strand), ((s.setTile j T).upd k f).tile j = T := fun T f => sget_sput_self ..
  obtain ⟨hbound, hint, hbusy⟩ := Tile.writes_keeps (at_ (readX (s.strand k).x x).toNat) (fun q => BitVec.ofNat 32 (vget s k v.toNat 32 q))
    (s.tile j) l
  refine ⟨fun r c _ hc => ?elem, fun q => ?poison, ?bound, ?int, ?busy, fun i hne => sget_sput_of_ne _ _ _ hne, State.strand_upd_self ..,
    fun i hne => State.strand_upd_of_ne _ _ hne, rfl⟩
  case elem => rw [htile, Tile.elem_writes _ _ _ _ hc (hat r c), sliceAt]; simp only [hbody]
  case bound => rw [htile, hbound]
  case int => rw [htile, hint]
  case busy => rw [htile, hbusy]; exact Bool.eq_false_iff.2 fun hb => hfree (.inl hb)
  case poison =>
    rw [htile, Tile.poison_writes, sliceAt, Option.filter_eq_none_iff]
    refine and_congr_right fun _ => ⟨fun hnone a ha hin => ?_, fun hnone a ha he => ?_⟩
    · rw [decide_eq_true_eq, ← hbody] at hin
      have hplace := (hat _ _ a).2 ha
      exact hnone a hin (by rw [hplace]; omega)
    · have hlt := hcol a (by have := (hbody a).1 ha; omega)
      have hplace : at_ (readX (s.strand k).x x).toNat a = (q / 128, q % 128) := Prod.ext (by rw [he]; simp only []; omega) (by rw [he]; simp only []; omega)
      exact hnone a ((hat _ _ a).1 hplace) (decide_eq_true ((hbody a).1 ha))
end

/-- Settles O35: claims and frees by cases of the name, and each slice move by the checks it passes. -/
theorem tileMoves : Obligations.TileMoves := by
  intro s k v x acc int h p idx waits free Gives inFlight held moves Stops
  refine ⟨fun j hj => tclaim_claimed h x int hj, tclaim_none h x int, fun j l => tclaim_binds h x int,
    fun hname => ⟨tfree_unclaimed h hname, ?tzeroUnclaimed, fun hv i hi => ?moveUnclaimed⟩,
    fun j hj hheld => ⟨vguard_waits (tfree_guarded h hj) h (tileFree_held h hheld), vguard_waits (tzero_guarded h int hj) h (tileFree_held h hheld)⟩,
    fun j hj hfree => ⟨?tfree, ?tzero⟩, fun busy hbusy => tstat_gives h x hbusy, fun hv i hi => ?window,
    fun j hj hv => ⟨fun hform i hi w hw => ?illegal, fun hew hgrp hx i hi => ?range, fun hew hgrp hx hheld i hi => ?waits⟩,
    fun j hj hfree hew hgrp hv hx => ?moves⟩
  case tzeroUnclaimed => exact List.forall_mem_singleton.2 (tzero_unclaimed h int hname)
  case moveUnclaimed =>
    obtain ⟨at_, reads, word, effect, -, hguard⟩ := slice_guarded s acc v x hi
    exact sliceGuard_traps hguard (sliceChecks_unclaimed h at_ reads word hv hname) (by decide)
  case tfree => exact ⟨_, vguard_completes (tfree_guarded h hj) (tileFree_free h hfree), onward_strand (s := s.setTile j {}) h⟩
  case tzero => exact ⟨_, vguard_completes (tzero_guarded h int hj) (tileFree_free h hfree), onward_strand (s := s.setTile j _) h⟩
  case window =>
    obtain ⟨at_, reads, word, effect, -, hguard⟩ := slice_guarded s acc v x hi
    exact sliceGuard_traps hguard (sliceChecks_window h at_ reads word hv) (by decide)
  case illegal =>
    obtain ⟨at_, reads, word, effect, hword, hguard⟩ := slice_guarded s acc v x hi
    obtain rfl : word = w := Option.some.inj (hword.symm.trans hw)
    exact sliceGuard_traps hguard (sliceChecks_illegal h at_ reads word hv hj hform) (by decide)
  case range =>
    obtain ⟨at_, reads, word, effect, -, hguard⟩ := slice_guarded s acc v x hi
    exact sliceGuard_traps hguard (sliceChecks_range h at_ reads word hv hj hew hgrp hx) (by decide)
  case waits =>
    obtain ⟨at_, reads, word, effect, -, hguard⟩ := slice_guarded s acc v x hi
    exact sliceGuard_waits hguard h (sliceChecks_held h at_ reads word hv hj hew hgrp hx hheld)
  case moves =>
    refine ⟨⟨?_, fun q => ?_⟩, ⟨?_, fun q => ?_⟩, ?_, ?_⟩
    · exact tileRead_result h hj hfree hew hgrp hv hx (row := fun _ => idx) (col := id) (fun q => by rw [Nat.mod_eq_of_lt hx]; rfl) (exec_trdrow ..)
    · exact tileRead_poisoned h hj hfree hew hgrp hv hx (row := fun _ => idx) (col := id) (fun q => by rw [Nat.mod_eq_of_lt hx]; rfl) (exec_trdrow ..)
    · exact tileRead_result h hj hfree hew hgrp hv hx (row := id) (col := fun _ => idx) (fun q => by rw [Nat.mod_eq_of_lt hx]; rfl) (exec_trdcol ..)
    · exact tileRead_poisoned h hj hfree hew hgrp hv hx (row := id) (col := fun _ => idx) (fun q => by rw [Nat.mod_eq_of_lt hx]; rfl) (exec_trdcol ..)
    · exact tileWrite_runs h hj hfree hew hgrp hv hx (exec_twrrow ..) (fun r c q => by grind) (fun q hq => hq)
    · exact tileWrite_runs h hj hfree hew hgrp hv hx (exec_twrcol ..) (fun r c q => by grind) (fun q _ => hx)

end Sys2Proof.Machine
end

section
/-! Fences, barriers and user-level interrupts (R401, R402, R410 to R424): lemmas for the statement SyncResult, and its proof. -/

namespace Sys2Proof.Machine
open Sys2Proof

/-! ## Fences (R401, R402) -/

/-- The acquires of a fence of strand k, after the release it may make. -/
def fenceAcquired (s : State) (k : Nat) (kinds : BitVec 5) (sc last : Scope) : State :=
  let t := if kinds.getLsbD 0 || kinds.getLsbD 3 then acquire s (k / 3) sc else s
  if kinds.getLsbD 4 then acquire t (k / 3) last else t

theorem CachesOnly.chan {s t : State} (hc : CachesOnly s t) (j : Nat) : (t.strand j).chan = (s.strand j).chan := by
  obtain ⟨l, hl⟩ := hc.2 j; rw [hl]

section
variable {s : State} {k : Nat} (h : s.actor = .strand k) {kinds : BitVec 5} {sc : Scope}
include h

theorem fenceRest_strand : fenceRest s kinds sc =
    fenceAcquired s k kinds sc (if (s.strand k).chan.toList.any (·.outside) then .system else .device) := by
  unfold fenceRest fenceAcquired
  have hacq : (acquire s (k / 3) sc).actor = .strand k := (acquire_caches s _ sc).actor.trans h
  have hchan : ((acquire s (k / 3) sc).strand k).chan = (s.strand k).chan := (acquire_caches s _ sc).chan k
  cases kinds.getLsbD 0 || kinds.getLsbD 3
  · simp only [Bool.false_eq_true, if_false, core_strand h, State.me_strand h]
  · simp only [if_true, core_strand h, core_strand hacq, State.me_strand hacq, hchan]

/-- A fence that does not release acquires as its kinds ask. -/
theorem fence_acquires (hss : kinds.getLsbD 2 = false) (hsl : kinds.getLsbD 3 = false) :
    exec (.fence kinds sc) s = .next (fenceAcquired s k kinds sc (if (s.strand k).chan.toList.any (·.outside) then .system else .device)).advance := by
  rw [exec_fence, execFence, hss, hsl, fenceRest_strand h]; rfl
theorem fence_waits (hk : (kinds.getLsbD 2 || kinds.getLsbD 3) = true) (hw : releaseWaits s (k / 3) sc = true) : ReleaseWaits (.fence kinds sc) s k :=
  releasing_waits h (by rw [exec_fence, execFence, if_pos hk]) hw
/-- A fence that releases then acquires as its kinds ask. -/
theorem fence_releases (hk : (kinds.getLsbD 2 || kinds.getLsbD 3) = true) (hw : releaseWaits s (k / 3) sc = false) : exec (.fence kinds sc) s =
    .next (fenceAcquired (release s (k / 3) sc) k kinds sc (if (s.strand k).chan.toList.any (·.outside) then .system else .device)).advance := by
  have hrel : (release s (k / 3) sc).actor = .strand k := (release_caches s _ sc).actor.trans h
  rw [exec_fence, execFence, if_pos hk, releasing_released h hw, fenceRest_strand hrel, (release_caches s _ sc).chan k]
end

/-! ## Barriers (R410 to R417) -/

theorem extractLsb'_high {y : Dword} {i n : Nat} (hi : i + n = 64) : y.extractLsb' i n ≠ 0 ↔ y.toNat / 2 ^ i ≠ 0 := by
  rw [not_iff_not, ← BitVec.toNat_inj, BitVec.extractLsb'_toNat, Nat.shiftRight_eq_div_pow, 
    Nat.mod_eq_of_lt (by rw [Nat.div_lt_iff_lt_mul (Nat.two_pow_pos i), ← Nat.pow_add, Nat.add_comm n, hi]; exact y.isLt)]
  rfl

section
variable {s : State} {v : Dword} {f : Nat → Nat → State}
theorem onBar_error {r : TrapInfo} (hv : barOperand s v = .error r) : onBar s v f = .next (raise s r) := by rw [onBar, hv]
theorem onBar_ok {gk n : Nat} (hv : barOperand s v = .ok (gk, n)) : onBar s v f = .next (f gk n) := by rw [onBar, hv]
end

/-- The word of barinit asks for what a barrier cannot be (R412, R417). -/
def BadInit (y : Dword) (n : Nat) : Prop := (y.extractLsb' 0 12 : BitVec 12) = 0 ∨ y.toNat / 2 ^ 14 ≠ 0 ∨ (y.getLsbD 12 = true ∧ n < 448)
/-- The groups whose barrier n barinit sets. -/
def initMembers (s : State) (gk n : Nat) (y : Dword) : List Nat := if y.getLsbD 12 then linkGroups s gk n else barMembers s gk n
/-- Barrier n of a group after a barinit, where the group that asks has the phase ph. -/
def Barrier.inited (y : Dword) (ph : BitVec 32) (q : Barrier) : Barrier :=
  { q with expect := y.extractLsb' 0 12, uiarm := y.getLsbD 13, link := y.getLsbD 12, count := 0, wide := false, outside := false
           phase := if y.getLsbD 12 then ph else q.phase }

section
variable {s : State} {gk n : Nat} {y : Dword}

theorem badInit_iff : ((low 12 y : BitVec 12) = 0 ∨ (y.extractLsb' 14 50 : BitVec 50) ≠ 0 ∨ (y.getLsbD 12 = true ∧ n < 448)) ↔ BadInit y n :=
  or_congr_right (or_congr_left (extractLsb'_high (by decide)))
theorem barinitEffect_bad (hb : BadInit y n) : barinitEffect s gk n y = (1, s) := if_pos (badInit_iff.2 hb)
theorem barinitEffect_busy (hb : ¬BadInit y n) (hm : ∃ g ∈ initMembers s gk n y, (s.bar g n).count ≠ 0) : barinitEffect s gk n y = (2, s) :=
  (if_neg (mt badInit_iff.1 hb)).trans (if_pos (List.any_eq_true.2 (hm.imp fun _ hg => ⟨hg.1, bne_iff_ne.2 hg.2⟩)))
theorem barinitEffect_sets (hb : ¬BadInit y n) (hm : ∀ g ∈ initMembers s gk n y, (s.bar g n).count = 0) :
    barinitEffect s gk n y = (0, setBars s (initMembers s gk n y) n (Barrier.inited y (s.bar gk n).phase)) :=
  (if_neg (mt badInit_iff.1 hb)).trans (if_neg fun hany => by
    obtain ⟨g, hg, hne⟩ := List.any_eq_true.1 hany
    rw [hm g hg] at hne; nomatch hne)
end

/-- Group q with barrier n changed by f where a list names it. -/
def barSetIn (gs : List Nat) (n : Nat) (f : Barrier → Barrier) (q : Nat) (g : Group) : Group :=
  if gs.contains q then { g with bars := sput g.bars n (f (g.bar n)) } else g
theorem setBars_groups (s : State) (gs : List Nat) (n : Nat) (f : Barrier → Barrier) :
    (setBars s gs n f).groups = s.groups.map (fun p => (p.1, barSetIn gs n f p.1 p.2)) :=
  List.map_congr_left fun p _ => by unfold barSetIn; split <;> rfl
theorem State.bar_setBars {s : State} {gk n : Nat} {g : Group} (hg : sfind s.groups gk = some g) (f : Barrier → Barrier) :
    (setBars s [gk] n f).bar gk n = f (s.bar gk n) := by
  rw [State.bar, State.bar, setBars_groups, sfind_map (barSetIn [gk] n f), hg]
  simp [Group.bar, barSetIn, sget_sput_self]

theorem kernelProgress_groups (s : State) (n : Nat) : (kernelProgress s n).groups = s.groups ∧ (kernelProgress s n).actor = s.actor := by
  unfold kernelProgress; split <;> exact ⟨rfl, rfl⟩
theorem phaseSeen_groups (s : State) (gk n : Nat) : (phaseSeen s gk n).groups = s.groups := by
  unfold phaseSeen
  split
  · rfl
  next g hg =>
    clear hg
    simp only []
    generalize g.keys = l
    induction l generalizing s with
    | nil => rfl
    | cons j l ih => exact ih _

/-- Barrier n of a group by the groups alone. -/
theorem State.bar_congr {s t : State} (hg : t.groups = s.groups) (gk n : Nat) : t.bar gk n = s.bar gk n := by rw [State.bar, State.bar, hg]

section
variable {s : State} {gk n : Nat} {g : Group} (hg : sfind s.groups gk = some g) (hlink : (s.bar gk n).link = false)
include hg hlink

theorem arriveAt_counts (hcount : (s.bar gk n).count + 1 ≠ (s.bar gk n).expect) :
    arriveAt s gk n false false = setBars s [gk] n (·.arrival false false) ∧
    (arriveAt s gk n false false).bar gk n = { s.bar gk n with count := (s.bar gk n).count + 1 } := by
  have harrive : arriveAt s gk n false false = setBars s [gk] n (·.arrival false false) := by
    unfold arriveAt barMembers
    rw [hlink]
    exact if_neg (by simpa using hcount)
  refine ⟨harrive, ?_⟩
  rw [harrive, State.bar_setBars hg, Barrier.arrival, if_neg hcount, Bool.or_false, Bool.or_false]
theorem arriveAt_completes (hcount : (s.bar gk n).count + 1 = (s.bar gk n).expect) :
    ((arriveAt s gk n false false).bar gk n).phase = (s.bar gk n).phase + 1 ∧ ((arriveAt s gk n false false).bar gk n).count = 0 := by
  have hbar : (arriveAt s gk n false false).bar gk n = (s.bar gk n).arrival false false := by
    rw [← State.bar_setBars hg (·.arrival false false)]
    refine State.bar_congr ?_ gk n
    unfold arriveAt barMembers
    simp only [hlink, beq_iff_eq, hcount, if_true, Bool.false_eq_true, if_false, phaseSeen_groups]
    split
    · exact (kernelProgress_groups ..).1
    · rfl
  rw [hbar, Barrier.arrival, if_pos hcount]
  exact ⟨rfl, rfl⟩
end

section
variable {s : State} {k : Nat} (h : s.actor = .strand k) {d a b : Reg}
include h

theorem gives_groups (d : Reg) (v : Dword) : (s.setX d v).advance.groups = s.groups := (congrArg State.groups (gives_strand h d v).2.2 :)

theorem barinit_stops {r : TrapInfo} (hv : barOperand s (readX (s.strand k).x a) = .error r) : Runs (.barinit d a b) s (fun t => t = raise s r) :=
  runs_eq (by rw [exec_barinit, execBarinit, State.x_strand h, onBar_error hv])
theorem barwait_stops {r : TrapInfo} (hv : barOperand s (readX (s.strand k).x a) = .error r) : Runs (.barwait a b) s (fun t => t = raise s r) :=
  runs_eq (by rw [exec_barwait, execBarwait, State.x_strand h, onBar_error hv])
theorem barpoll_stops {r : TrapInfo} (hv : barOperand s (readX (s.strand k).x a) = .error r) : Runs (.barpoll d a) s (fun t => t = raise s r) :=
  runs_eq (by rw [exec_barpoll, execBarpoll, State.x_strand h, onBar_error hv])
theorem execBarrive_plain (hspec : s.specTask k = none) : exec (.barrive d a b) s = onBar s (readX (s.strand k).x a) (fun gk n =>
    let y := readX (s.strand k).x b
    if y.extractLsb' 1 63 ≠ (0 : BitVec 63) ∨ (y.getLsbD 0 ∧ (s.strand k).deferred.isSome) then (s.setX d (BitVec.allOnes 64 - 1)).advance
    else if y.getLsbD 0 then ((s.updMe (fun t => { t with deferred := some n })).setX d (BitVec.allOnes 64)).advance
    else releasing (if (s.bar gk n).link then .cluster else .core)
      (fun t => ((arriveAt t gk n false false).setX d ((s.bar gk n).phase.zeroExtend 64)).advance) s) := by
  rw [exec_barrive, execBarrive, State.key_strand h, hspec, State.x_strand h, State.x_strand h, State.me_strand h]
  rfl
theorem barrive_stalls (hspec : s.specTask k ≠ none) : Runs (.barrive d a b) s (fun t => t = s.block) :=
  runs_eq (by rw [exec_barrive, execBarrive, State.key_strand h, if_pos (Option.isSome_iff_ne_none.2 hspec)])

variable {gk n : Nat} (hv : barOperand s (readX (s.strand k).x a) = .ok (gk, n))
include hv

theorem execBarinit_named : exec (.barinit d a b) s =
    .next ((barinitEffect s gk n (readX (s.strand k).x b)).2.setX d (barinitEffect s gk n (readX (s.strand k).x b)).1).advance := by
  rw [exec_barinit, execBarinit, State.x_strand h, State.x_strand h, onBar_ok hv]
theorem barinit_answers {v : Dword} {u : State} (hu : u.actor = .strand k) (hs : u.strand k = s.strand k)
    (he : barinitEffect s gk n (readX (s.strand k).x b) = (v, u)) : Runs (.barinit d a b) s (StrandBecomes u k ((s.strand k).gives d v)) :=
  ⟨_, (execBarinit_named h hv).trans (by rw [he]), hs ▸ gives_strand hu d v⟩

section
variable (hspec : s.specTask k = none)
include hspec

theorem barrive_refused (hbad : (readX (s.strand k).x b).toNat / 2 ≠ 0 ∨ ((readX (s.strand k).x b).getLsbD 0 = true ∧ (s.strand k).deferred ≠ none)) :
    Runs (.barrive d a b) s (StrandBecomes s k ((s.strand k).gives d 0xFFFFFFFFFFFFFFFE)) := by
  refine ⟨_, (execBarrive_plain h hspec).trans ((onBar_ok hv).trans (congrArg Host.Outcome.next (if_pos ?_))), gives_strand h d _⟩
  rw [extractLsb'_high (by decide), Option.isSome_iff_ne_none]
  exact hbad
theorem barrive_defers (hy : readX (s.strand k).x b = 1) (hdef : (s.strand k).deferred = none) :
    Runs (.barrive d a b) s (StrandBecomes s k { (s.strand k).gives d 0xFFFFFFFFFFFFFFFF with deferred := some n }) := by
  refine ⟨((s.upd k (fun t => { t with deferred := some n })).setX d (BitVec.allOnes 64)).advance,
    (execBarrive_plain h hspec).trans ((onBar_ok hv).trans (congrArg Host.Outcome.next ?_)), ?_⟩
  · simp [hy, hdef, State.updMe, State.key_strand h]
  · have hup := gives_strand (s := s.upd k (fun t => { t with deferred := some n })) h d (BitVec.allOnes 64)
    rw [State.strand_upd_self] at hup
    exact (becomes_upd s k _).trans hup
theorem barrive_arrives (hy : readX (s.strand k).x b = 0) : exec (.barrive d a b) s =
    .next (releasing (if (s.bar gk n).link then .cluster else .core)
      (fun t => ((arriveAt t gk n false false).setX d ((s.bar gk n).phase.zeroExtend 64)).advance) s) := by
  refine (execBarrive_plain h hspec).trans ((onBar_ok hv).trans ?_)
  simp [hy]
theorem barrive_unlinked (hy : readX (s.strand k).x b = 0) (hlink : (s.bar gk n).link = false) : exec (.barrive d a b) s =
    .next ((arriveAt s gk n false false).setX d ((s.bar gk n).phase.zeroExtend 64)).advance := by
  have hfree : releaseWaits s (k / 3) .core = false := rfl
  rw [barrive_arrives h hv hspec hy, if_neg (by rw [hlink]; exact Bool.false_ne_true), releasing_released h hfree,
    release_narrow (by decide)]
end

theorem barwait_ends (hgap : 1 ≤ ((s.bar gk n).view.1 - (readX (s.strand k).x b).extractLsb' 0 32).toNat)
    (hrecent : ((s.bar gk n).view.1 - (readX (s.strand k).x b).extractLsb' 0 32).toNat < 2 ^ 31) :
    exec (.barwait a b) s = .next (acquire s (k / 3) (barScope (s.bar gk n) ((readX (s.strand k).x b).extractLsb' 0 32))).advance := by
  rw [exec_barwait, execBarwait, State.x_strand h, State.x_strand h, onBar_ok hv, core_strand h]
  exact congrArg Host.Outcome.next (if_pos ⟨hgap, hrecent⟩)
theorem barwait_waits (hgap : ¬(1 ≤ ((s.bar gk n).view.1 - (readX (s.strand k).x b).extractLsb' 0 32).toNat ∧
      ((s.bar gk n).view.1 - (readX (s.strand k).x b).extractLsb' 0 32).toNat < 2 ^ 31)) :
    exec (.barwait a b) s = .next s.block := by
  rw [exec_barwait, execBarwait, State.x_strand h, State.x_strand h, onBar_ok hv]
  exact congrArg Host.Outcome.next (if_neg hgap)
/-- What barpoll answers of a barrier (R414). -/
def Barrier.polled (q : Barrier) : Dword := bit1 q.link ++ bit1 q.uiarm ++ (0 : BitVec 6) ++ q.expect ++ q.view.2 ++ q.view.1
theorem barpoll_answers : Runs (.barpoll d a) s (StrandBecomes s k ((s.strand k).gives d (s.bar gk n).polled)) :=
  ⟨_, by rw [exec_barpoll, execBarpoll, State.x_strand h, onBar_ok hv]; rfl, gives_strand h d _⟩
end

theorem Barrier.polled_fields (q : Barrier) : q.polled.extractLsb' 0 32 = q.view.1 ∧ q.polled.extractLsb' 32 12 = q.view.2 ∧
    q.polled.extractLsb' 44 12 = q.expect ∧ q.polled.getLsbD 62 = q.uiarm ∧ q.polled.getLsbD 63 = q.link ∧ q.polled.extractLsb' 56 6 = (0 : BitVec 6) := by
  have hbit (i : Nat) : q.polled.getLsbD i = if i < 32 then q.view.1.getLsbD i else if i < 44 then q.view.2.getLsbD (i - 32)
      else if i < 56 then q.expect.getLsbD (i - 44) else if i < 62 then false else if i = 62 then q.uiarm else if i = 63 then q.link else false := by
    unfold Barrier.polled bit1
    simp only [BitVec.getLsbD_append, BitVec.getLsbD_ofBool, BitVec.ofNat_eq_ofNat, BitVec.getLsbD_zero]
    split_ifs <;> grind
  refine ⟨?_, ?_, ?_, hbit 62, hbit 63, ?_⟩
  all_goals
    refine BitVec.eq_of_getLsbD_eq fun i hi => ?_
    rw [BitVec.getLsbD_extractLsb', hbit]
    grind

/-! ## User-level interrupts (R421 to R424) -/

/-- Masking kinds admits no new one, so the event latch stays. -/
theorem Strand.setUi_masked (p : Strand) (v : BitVec 6) : p.setUi { p.ui with mask := p.ui.mask ||| v } = { p with ui := { p.ui with mask := p.ui.mask ||| v } } := by
  have hnone : (p.ui.pend &&& ~~~(p.ui.mask ||| v)) &&& ~~~(p.ui.pend &&& ~~~p.ui.mask) = 0 := by
    refine BitVec.eq_of_getLsbD_eq fun i hi => ?_
    simp only [BitVec.getLsbD_and, BitVec.getLsbD_not, BitVec.getLsbD_or, hi, decide_true, Bool.true_and, BitVec.ofNat_eq_ofNat, BitVec.getLsbD_zero]
    cases p.ui.pend.getLsbD i <;> cases p.ui.mask.getLsbD i <;> simp
  rw [Strand.setUi, UiRegs.admitted, UiRegs.admitted, hnone]
  simp
theorem uimask_answer (m : BitVec 6) : (~~~(0 : BitVec 58)) ++ m = (0xFFFFFFFFFFFFFFC0 : Dword) ||| m.zeroExtend 64 := by
  refine BitVec.eq_of_toNat_eq ?_
  revert m
  decide

section
variable {s : State} {k : Nat} (h : s.actor = .strand k) {d a : Reg}
include h

/-- The interrupt registers change by f, and d receives v. -/
theorem setUi_gives (f : Strand → UiRegs) (v : Dword) : StrandBecomes s k { ((s.strand k).setUi (f (s.strand k))).onward with x := writeX (s.strand k).x d v }
    ((s.updMe (fun t => t.setUi (f t))).setX d v).advance := by
  rw [State.updMe, State.key_strand h]
  have hup := gives_strand (s := s.upd k (fun t => t.setUi (f t))) h d v
  rw [State.strand_upd_self] at hup
  exact (becomes_upd s k _).trans hup
theorem uidis_runs : Runs (.uidis d a) s (StrandBecomes s k { (s.strand k).gives d (0xFFFFFFFFFFFFFFC0 ||| (s.strand k).ui.mask.zeroExtend 64) with
    ui := { (s.strand k).ui with mask := (s.strand k).ui.mask ||| (readX (s.strand k).x a).extractLsb' 0 6 } }) := by
  have hup := setUi_gives h (d := d) (fun t => { t.ui with mask := t.ui.mask ||| (readX (s.strand k).x a).extractLsb' 0 6 })
    (0xFFFFFFFFFFFFFFC0 ||| (s.strand k).ui.mask.zeroExtend 64)
  rw [Strand.setUi_masked] at hup
  refine ⟨_, ?_, hup⟩
  rw [exec_uidis, execUidis, State.me_strand h, State.x_strand h, uimask_answer]
  rfl
theorem uien_runs (hspec : s.specTask k = none) :
    let q : UiRegs := { (s.strand k).ui with mask := (s.strand k).ui.mask &&& ~~~((readX (s.strand k).x a).extractLsb' 0 6) }
    Runs (.uien d a) s (StrandBecomes s k { (s.strand k).gives d (0xFFFFFFFFFFFFFFC0 ||| (s.strand k).ui.mask.zeroExtend 64) with
      ui := q, event := (s.strand k).event || (q.admitted &&& ~~~(s.strand k).ui.admitted != 0) }) := by
  refine ⟨_, ?_, setUi_gives h (fun t => { t.ui with mask := t.ui.mask &&& ~~~((readX (s.strand k).x a).extractLsb' 0 6) }) _⟩
  rw [exec_uien, execUien, State.key_strand h, hspec, State.me_strand h, State.x_strand h, uimask_answer]
  rfl
end

theorem upperBank_set (x : Vector Dword 32) (v : Dword) :
    let y := setUpperBank x ((Vector.replicate 8 (0 : Dword)).set 0 v)
    y[24] = v ∧ (∀ i (h : i < 24), y[i] = x[i]) ∧ (∀ i (h : i < 32), 24 < i → y[i] = 0) := by
  refine ⟨?_, fun i hi => ?_, fun i hi hlt => ?_⟩
  · simp [setUpperBank]
  · simp only [setUpperBank, Vector.getElem_ofFn]
    exact dif_neg (by omega)
  · simp only [setUpperBank, Vector.getElem_ofFn]
    rw [dif_pos (by omega), Vector.getElem_set_ne _ _ (by omega), Vector.getElem_replicate]

section
variable {s : State} {k : Nat}

theorem uiDelivery_enters (hrun : (s.strand k).status = .running) (hdue : uiDue s k = true) : Runs (.uiDelivery k) s (fun t =>
    (t.strand k).pc = (s.strand k).ui.vec ++ (0 : BitVec 2) ∧
    (t.strand k).ui = { (s.strand k).ui with pc := (s.strand k).pc, inHandler := true, shadow := upperBank (s.strand k).x } ∧ (t.strand k).event = true ∧
    (t.strand k).x[24] = (s.strand k).ui.admitted.zeroExtend 64 ∧ (∀ i (h : i < 24), (t.strand k).x[i] = (s.strand k).x[i]) ∧
    (∀ i (h : i < 32), 24 < i → (t.strand k).x[i] = 0) ∧ (∀ j, j ≠ k → t.strand j = s.strand j) ∧ { t with strands := s.strands } = s) := by
  refine ⟨_, congrArg Host.Outcome.next ((if_pos hrun).trans (if_pos hdue)), ?_⟩
  obtain ⟨hfirst, hlow, hhigh⟩ := upperBank_set (s.strand k).x ((s.strand k).ui.admitted.zeroExtend 64)
  refine ⟨?_, ?_, ?_, ?_, ?_, ?_, fun j hj => State.strand_upd_of_ne _ _ hj, rfl⟩
  all_goals rw [State.strand_upd_self]
  exacts [hfirst, hlow, hhigh]
theorem uiDelivery_idle (hno : (s.strand k).status ≠ .running ∨ uiDue s k = false) : Runs (.uiDelivery k) s (fun t => t = s) := by
  refine runs_eq (congrArg Host.Outcome.next ?_)
  rcases hno with hno | hno
  · exact if_neg hno
  · exact ite_eq_right_iff.2 fun _ => if_neg (by rw [hno]; exact Bool.false_ne_true)
end

/-- Settles O43: each clause is what the lemmas above say of the instruction. -/
theorem syncResult : Obligations.SyncResult := by
  intro s k d a b kinds sc p x y Does
  have hreleases : (kinds.getLsbD 2 || kinds.getLsbD 3) = true ↔ kinds.getLsbD 2 = true ∨ kinds.getLsbD 3 = true := Bool.or_eq_true_iff
  refine ⟨fun h => ⟨fun h0 h2 h3 h4 => ?none, fun h4 h2 h0 h3 hw => ?release, fun h4 h2 h3 h0 => ?acquire, ⟨fun hk hw => ?waits, fun hk => ?fence⟩,
    fun r hv => ⟨barinit_stops h hv, barwait_stops h hv, barpoll_stops h hv, fun hspec => ?barrive⟩, fun gk n hv => ?barrier, ?hbeat, ?yield,
    uidis_runs h, uien_runs h⟩, fun group n hn => ?unseen, fun group n hn => ?seen, uiDelivery_enters, uiDelivery_idle⟩
  case none =>
    refine ⟨_, fence_acquires h h2 h3, ?_⟩
    simp only [fenceAcquired, h0, h3, h4, Bool.or_self, Bool.false_eq_true, if_false]
    exact onward_strand h
  case release =>
    refine ⟨_, fence_releases h (hreleases.2 (.inl h2)) hw, ?_⟩
    simp only [fenceAcquired, h0, h3, h4, Bool.or_self, Bool.false_eq_true, if_false]
    exact onward_strand ((release_caches s _ sc).actor.trans h)
  case acquire =>
    refine ⟨_, fence_acquires h h2 h3, ?_⟩
    simp only [fenceAcquired, h0, h4, Bool.true_or, Bool.false_eq_true, if_true, if_false]
    have hacq := onward_strand ((acquire_caches s (k / 3) sc).actor.trans h)
    rwa [State.strand, acquire_strands] at hacq
  case waits => exact fence_waits h (hreleases.2 hk) hw
  case fence =>
    by_cases hrel : (kinds.getLsbD 2 || kinds.getLsbD 3) = true
    · have hw : releaseWaits s (k / 3) sc = false := Bool.eq_false_iff.2 fun hw => hk ⟨hreleases.1 hrel, hw⟩
      simp only [hrel, if_true]
      exact runs_eq (fence_releases h hrel hw)
    · obtain ⟨h2, h3⟩ := Bool.or_eq_false_iff.1 (Bool.eq_false_iff.2 hrel)
      simp only [hrel, Bool.false_eq_true, if_false]
      exact runs_eq (fence_acquires h h2 h3)
  case barrive => exact runs_eq ((execBarrive_plain h hspec).trans (onBar_error hv))
  case barrier =>
    intro bar expect link bad members
    refine ⟨fun hb => barinit_answers h hv h rfl (barinitEffect_bad hb), fun hb hm => barinit_answers h hv h rfl (barinitEffect_busy hb hm),
      fun hb hm => barinit_answers h hv (u := setBars s _ n _) h rfl (barinitEffect_sets hb hm), barrive_stalls h,
      fun hspec => ⟨barrive_refused h hv hspec, barrive_defers h hv hspec, fun hy hlink => ?linked, fun hy hlink => ?unlinked⟩,
      fun hgap hrecent => runs_eq (barwait_ends h hv hgap hrecent), fun hgap => runs_eq (barwait_waits h hv hgap),
      _, barpoll_answers h hv, Barrier.polled_fields _⟩
    case linked =>
      have hexec := barrive_arrives h hv hspec hy (d := d)
      rw [if_pos hlink] at hexec
      exact ⟨releasing_waits h hexec, fun hw => runs_eq (hexec.trans (congrArg Host.Outcome.next (releasing_released h hw)))⟩
    case unlinked =>
      refine ⟨_, barrive_unlinked h hv hspec hy hlink, rfl, fun g hg hcount => ?_, fun g hg hcount => ?_⟩
      all_goals
        have hactor : (arriveAt s gk n false false).actor = .strand k := (congrArg State.actor (arriveAt_work s gk n false false) :).trans h
        rw [State.bar_congr (gives_groups hactor ..)]
      · obtain ⟨harrive, hbar⟩ := arriveAt_counts hg hlink hcount
        exact ⟨hbar, (gives_strand hactor ..).1.trans (by rw [harrive]; rfl)⟩
      · exact arriveAt_completes hg hlink hcount
  case hbeat => exact runs_eq (by rw [exec_hbeat, execHbeat, State.key_strand h])
  case yield =>
    intro others
    refine ⟨(s.upd k (fun t => { t with hold := some ⟨others, s.cycle.toNat + 16⟩ })).advance, ?_, ?_⟩
    · rw [exec_yield, execYield, State.updMe, State.key_strand h, core_strand h]
    have hup := onward_strand (s := s.upd k (fun t => { t with hold := some ⟨others, s.cycle.toNat + 16⟩ })) h
    rw [State.strand_upd_self] at hup
    exact (becomes_upd s k _).trans hup
  case unseen => exact runs_eq (congrArg Host.Outcome.next (if_neg (by rw [hn]; exact Bool.false_ne_true)))
  case seen => exact runs_eq (congrArg Host.Outcome.next (if_pos (Option.isSome_iff_ne_none.2 hn)))

end Sys2Proof.Machine
end

section
/-! The task pool and its futures (R426 to R434, R148): lemmas for the statement TaskResult, and its proof. -/

namespace Sys2Proof.Machine
open Sys2Proof

/-! ## Task records (R426 to R434) -/

theorem kernelProgress_tasks (s : State) (n : Nat) : (kernelProgress s n).tasks = s.tasks ∧ (kernelProgress s n).strands = s.strands := by
  unfold kernelProgress; split <;> exact ⟨rfl, rfl⟩
theorem retireTask_frame (s : State) (j : Nat) : (retireTask s j).strands = s.strands ∧ (retireTask s j).actor = s.actor := by
  unfold retireTask
  split
  · exact ⟨(kernelProgress_tasks ..).2, (kernelProgress_groups ..).2⟩
  · exact ⟨rfl, rfl⟩
theorem retireTask_tasks {s : State} {j : Nat} {z : Task} (hz : sfind s.tasks j = some z) : (retireTask s j).tasks = sdel s.tasks j := by
  rw [retireTask, hz]; exact (kernelProgress_tasks ..).1
theorem finishTask_frame (s : State) (j : Nat) : (finishTask s j).strands = s.strands ∧ (finishTask s j).actor = s.actor := by
  unfold finishTask
  split
  · split
    · exact retireTask_frame s j
    · exact ⟨rfl, rfl⟩
  · exact ⟨rfl, rfl⟩
/-- A task that ends is gone, or stays as done where its chrysalis holds a forecast; no other task changes. -/
theorem finishTask_tasks {s : State} {j : Nat} {z : Task} (hz : sfind s.tasks j = some z) :
    (z.set = [] → sfind (finishTask s j).tasks j = none) ∧ (z.set ≠ [] → sfind (finishTask s j).tasks j = some { z with state := .done }) ∧
    ∀ i, i ≠ j → sfind (finishTask s j).tasks i = sfind s.tasks i := by
  rw [finishTask, hz]
  by_cases hset : z.set = []
  · have htasks : (retireTask s j).tasks = sdel s.tasks j := retireTask_tasks hz
    simp only [hset, List.isEmpty_nil, if_true, htasks, sfind_sdel]
    exact ⟨fun _ => trivial, fun hne => absurd rfl hne, fun i hi => if_neg hi⟩
  · have hfull : z.set.isEmpty = false := Bool.eq_false_iff.2 fun he => hset (List.isEmpty_iff.1 he)
    simp only [hfull, Bool.false_eq_true, if_false, sfind_sput]
    exact ⟨fun he => absurd he hset, fun _ => if_pos trivial, fun i hi => if_neg hi⟩

/-- Making tasks ready keeps each task's descriptor and process. -/
theorem tryReady_keeps (s : State) (j : Nat) : (tryReady s j).actor = s.actor ∧ (tryReady s j).strands = s.strands ∧
    ∀ z, sfind s.tasks j = some z → ∃ y, sfind (tryReady s j).tasks j = some y ∧ y.desc = z.desc ∧ y.asid = z.asid := by
  unfold tryReady
  split
  next hnone => exact ⟨rfl, rfl, fun z hz => by rw [hnone] at hz; nomatch hz⟩
  next z hz =>
    have hsame : ∀ y, sfind s.tasks j = some y → ∃ y', sfind s.tasks j = some y' ∧ y'.desc = y.desc ∧ y'.asid = y.asid := fun y hy => ⟨y, hy, rfl, rfl⟩
    simp only []
    split
    · exact ⟨rfl, rfl, hsame⟩
    · split
      · exact ⟨rfl, rfl, hsame⟩
      · split
        · exact ⟨rfl, rfl, hsame⟩
        · refine ⟨rfl, rfl, fun y hy => ⟨_, (sfind_sput ..).trans (if_pos rfl), ?_, ?_⟩⟩
          all_goals rw [hz] at hy; cases hy; rfl
theorem enqueue_keeps (s : State) (j : Nat) (t : Task) : (enqueue s j t).actor = s.actor ∧ (enqueue s j t).strands = s.strands ∧
    ∃ z, sfind (enqueue s j t).tasks j = some z ∧ z.desc = t.desc ∧ z.asid = t.asid := by
  obtain ⟨hactor, hstrands, htask⟩ := tryReady_keeps { s with tasks := sput s.tasks j { t with spawnSeq := s.taskSeq }, taskSeq := s.taskSeq + 1 } j
  exact ⟨hactor, hstrands, htask { t with spawnSeq := s.taskSeq } ((sfind_sput ..).trans (if_pos rfl))⟩

/-! ## TASK_READY (R429) -/

section
variable {s : State} {j : Nat} {z : Task} (hz : sfind s.tasks j = some z)
include hz

theorem tryReady_full (hstate : z.state = .waiting) (hawaits : z.awaits = []) (hfull : ∀ o ∈ z.desc.futures, futureWord s z.kernel (j / 16384) o ∈ s.full)
    (hset : z.set.length ≤ 4) :
    tryReady s j = { s with tasks := sput s.tasks j { z with state := .ready s.taskSeq }, taskSeq := s.taskSeq + 1 } := by
  have hopen : z.desc.futures.filter (fun o => !s.full.contains (futureWord s z.kernel (j / 16384) o)) = [] :=
    List.filter_eq_nil_iff.2 fun o ho => by simpa using hfull o ho
  unfold tryReady
  simp only [hz, hstate, hawaits, hopen]
  simp [Nat.not_lt.2 hset]
theorem tryReady_unset (hopen : ∃ o ∈ z.desc.futures, futureWord s z.kernel (j / 16384) o ∉ s.full ∧ specSetter s z (j / 16384) o = none) :
    tryReady s j = s := by
  obtain ⟨o, ho, hempty, hnone⟩ := hopen
  have hwait : (!((z.desc.futures.filter (fun o => !s.full.contains (futureWord s z.kernel (j / 16384) o))).map
      (fun o => (o, specSetter s z (j / 16384) o))).all (fun p => p.2.isSome)) = true := by
    rw [Bool.not_eq_true', List.all_eq_false]
    refine ⟨_, List.mem_map.2 ⟨o, List.mem_filter.2 ⟨ho, by simpa using hempty⟩, rfl⟩, ?_⟩
    rw [hnone]; exact Bool.false_ne_true
  unfold tryReady
  simp only [hz]
  rw [if_pos hwait]
  exact ite_self _
end
theorem tryReady_idle {s : State} {j : Nat} (hidle : ∀ z, sfind s.tasks j = some z → z.state ≠ .waiting ∨ z.awaits ≠ []) : tryReady s j = s := by
  unfold tryReady
  split
  · rfl
  next z hz => exact if_pos ((hidle z hz).imp_right fun hne => by simpa using hne)

/-! ## tspawn (R427, R428) -/

/-- tspawn once its release is made. -/
def enqueueNew (d : Reg) (t : TaskDesc) : M Unit :=
  modify (fun s =>
    let j := (freeEntry s (dieOf s.core)).getD 0
    ((enqueue s j (s.newTask t)).setX d (spawnResult 0 (handleOf j))).advance)
/-- tspawn once its descriptor is read. -/
def spawnTask (d : Reg) (t : TaskDesc) : M Unit := do
  let s ← get
  if refuses t s.futSize then modify (fun s => (s.setX d (spawnResult 1 0)).advance)
  else if poolFull s t.queue then modify (fun s => (s.setX d (spawnResult 2 0)).advance)
  else do
    releaseM .die
    enqueueNew d t

theorem spawnResult_handle (j : Nat) : spawnResult 0 (handleOf j) = BitVec.ofNat 64 (j % 2 ^ 16) := by
  refine BitVec.eq_of_getLsbD_eq fun i hi => ?_
  simp only [spawnResult, handleOf, low, BitVec.getLsbD_append, BitVec.getLsbD_extractLsb', BitVec.getLsbD_ofNat, BitVec.ofNat_eq_ofNat,
    Nat.testBit_mod_two_pow, Nat.zero_testBit]
  grind

theorem gives_tasks {s : State} {k : Nat} (h : s.actor = .strand k) (d : Reg) (v : Dword) : (s.setX d v).advance.tasks = s.tasks :=
  (congrArg State.tasks (gives_strand h d v).2.2 :)

section
variable {s : State} {k : Nat} (h : s.actor = .strand k) {d a : Reg}
include h

theorem tspawn_stalls (hspec : s.specTask k ≠ none) : exec (.tspawn d a) s = .next s.block := by
  obtain ⟨hkey, htlb, -⟩ := ctx_strand h
  have hstall : specStall s.ctx s = .error .wait s := by
    simp only [specStall]
    rw [bindM_get, hkey, htlb, Option.isSome_iff_ne_none.2 hspec]; rfl
  exact runInstr_wait (bindM_error hstall)

variable (hspec : s.specTask k = none)
include hspec

theorem tspawn_reads {t : TaskDesc} {u : State} (hread : readTask (readX (s.strand k).x a) false s = .ok t u) :
    ∃ m : M Unit, exec (.tspawn d a) s = runInstr m s ∧ m s = spawnTask d t u := by
  obtain ⟨hkey, -⟩ := ctx_strand h
  refine ⟨_, rfl, (bindM_ok (specStall_idle (hkey.symm ▸ hspec))).trans (bindM_ok (m := readTask (s.x a) false) ?_)⟩
  rw [State.x_strand h]; exact hread
theorem tspawn_misaligned (ha : (readX (s.strand k).x a).toNat % 64 ≠ 0) :
    Runs (.tspawn d a) s (fun t => t = raise s ⟨.misaligned, readX (s.strand k).x a, 0⟩) := by
  obtain ⟨hkey, -⟩ := ctx_strand h
  have hread : readTask (s.x a) false s = .error (.trap ⟨.misaligned, readX (s.strand k).x a, 0⟩) s := by
    rw [State.x_strand h, readTask, if_pos ha]; rfl
  exact runs_eq (runInstr_trap ((bindM_ok (specStall_idle (hkey.symm ▸ hspec))).trans (bindM_error hread)))
end

section
variable {u : State} {d : Reg} {t : TaskDesc}

theorem spawnTask_bad (hbad : refuses t u.futSize = true) : spawnTask d t u = .ok ⟨⟩ (u.setX d 0x100000000).advance := by
  simp only [spawnTask]
  rw [bindM_get, if_pos hbad]; rfl
variable (hgood : refuses t u.futSize = false)
include hgood
theorem spawnTask_full (hfull : poolFull u t.queue = true) : spawnTask d t u = .ok ⟨⟩ (u.setX d 0x200000000).advance := by
  simp only [spawnTask]
  rw [bindM_get, if_neg (by simp [hgood]), if_pos hfull]; rfl
variable (hroom : poolFull u t.queue = false)
include hroom
theorem spawnTask_releases : spawnTask d t u = (releaseM .die >>= fun _ => enqueueNew d t) u := by
  simp only [spawnTask]
  rw [bindM_get, if_neg (by simp [hgood]), if_neg (by simp [hroom])]
theorem spawnTask_enqueues {k j : Nat} (h : u.actor = .strand k) (hw : releaseWaits u (k / 3) .die = false) (hj : freeEntry u (dieOf (k / 3)) = some j) :
    spawnTask d t u = .ok ⟨⟩ ((enqueue (release u (k / 3) .die) j ((release u (k / 3) .die).newTask t)).setX d (BitVec.ofNat 64 (j % 2 ^ 16))).advance := by
  have hrel : (release u (k / 3) .die).actor = .strand k := (release_caches u _ _).actor.trans h
  have hfree : freeEntry (release u (k / 3) .die) (dieOf (k / 3)) = some j := by
    rw [freeEntry, (release_caches u _ _).tasks]; exact hj
  rw [spawnTask_releases hgood hroom, bindM_ok (releaseM_released h hw), enqueueNew, modifyM_apply, core_strand hrel, hfree]
  simp only [Option.getD_some, spawnResult_handle]
end

/-! ## trun and tdone (R430, R432) -/

/-- The pointers of a task in x5 and up, as trun loads them. -/
def pointersLoaded (z : TaskDesc) (x : Vector Dword 32) : Vector Dword 32 :=
  (List.range (min z.nptr 4)).foldl (fun x i => writeX x (BitVec.ofNat 5 (5 + i)) (z.ptr.getD i 0 + BitVec.ofNat 64 (z.resume.toNat * ewBits z.vtype / 8))) x
/-- A strand that begins task j with descriptor z, its handle in d. -/
def Strand.begins (p : Strand) (d : Reg) (j : Nat) (z : TaskDesc) : Strand :=
  { (p.setVtype z.vtype).setVl (z.trip - z.resume).toNat with
      x := writeX (pointersLoaded z (writeX p.x 4 (BitVec.ofNat 64 (z.trip - z.resume).toNat))) d (BitVec.ofNat 64 (j % 2 ^ 16))
      vstart := 0, tret := p.pc + 4, task := some j, stripD := false, loopClosed := false, pc := z.pc, wait := {} }

section
variable {s : State} {k : Nat} (h : s.actor = .strand k)
include h

/-- Registers written one after another, each with its value, after a change of the strand. -/
theorem foldl_setX (g : Strand → Strand) (r : Nat → Reg) (v : Nat → Dword) (l : List Nat) :
    l.foldl (fun s i => s.setX (r i) (v i)) (s.upd k g) =
      s.upd k (fun t => { g t with x := l.foldl (fun x i => writeX x (r i) (v i)) (g t).x }) := by
  induction l generalizing g with
  | nil => rfl
  | cons i l ih =>
    have ha : (s.upd k g).actor = .strand k := h
    rw [List.foldl_cons, State.setX_strand ha, State.upd_upd, ih]; rfl

theorem takeTask_begins {d : Reg} {j : Nat} {z : Task} (hleft : z.desc.resume ≠ z.desc.trip) :
    takeTask s d j z = { acquire s (k / 3) .die with tasks := sput (acquire s (k / 3) .die).tasks j { z with state := .running k } }.upd k
      (·.begins d j z.desc) := by
  have hacq : (acquire s (k / 3) .die).actor = .strand k := (acquire_caches s _ _).actor.trans h
  unfold takeTask
  rw [core_strand h]
  simp only [if_neg hleft, State.key_strand hacq]
  generalize hu : ({ acquire s (k / 3) .die with tasks := sput (acquire s (k / 3) .die).tasks j { z with state := .running k } } : State) = u
  have ha : u.actor = .strand k := hu ▸ hacq
  rw [State.setX_strand ha, foldl_setX ha]
  have ha' (g : Strand → Strand) : (u.upd k g).actor = .strand k := ha
  simp only [State.updMe, State.key_strand (ha' _), State.pc_strand (ha' _), State.strand_upd_self, State.upd_upd, State.setX_strand (ha' _),
    State.setPc_strand (ha' _), spawnResult_handle]
  rfl
end

/-- Registers from x5 up, each written with its value. -/
theorem readX_writes (v : Nat → Dword) (x : Vector Dword 32) (r : Reg) {n : Nat} (hn : n ≤ 27) :
    readX ((List.range n).foldl (fun x i => writeX x (BitVec.ofNat 5 (5 + i)) (v i)) x) r =
      if 5 ≤ r.toNat ∧ r.toNat < 5 + n then v (r.toNat - 5) else readX x r := by
  induction n with
  | zero => exact (if_neg (by omega)).symm
  | succ n ih =>
    have hr : r = BitVec.ofNat 5 (5 + n) ↔ r.toNat = 5 + n := by
      rw [← BitVec.toNat_inj, BitVec.toNat_ofNat, Nat.mod_eq_of_lt (by omega)]
    have h0 : r = 0 ↔ r.toNat = 0 := by rw [← BitVec.toNat_inj]; rfl
    rw [List.range_succ, List.foldl_append, List.foldl_cons, List.foldl_nil, readX_writeX, ih (by omega)]
    simp only [hr, h0]
    grind [readX_zero]

theorem readX_pointersLoaded_other (z : TaskDesc) (x : Vector Dword 32) {r : Reg} (hr : ∀ i, i < min z.nptr 4 → r.toNat ≠ 5 + i) :
    readX (pointersLoaded z x) r = readX x r := by
  rw [pointersLoaded, readX_writes _ _ _ (by omega), if_neg fun hin => hr (r.toNat - 5) (by omega) (by omega)]
theorem readX_pointersLoaded (z : TaskDesc) (x : Vector Dword 32) {i : Nat} (hi : i < min z.nptr 4) :
    readX (pointersLoaded z x) (BitVec.ofNat 5 (5 + i)) = z.ptr.getD i 0 + BitVec.ofNat 64 (z.resume.toNat * ewBits z.vtype / 8) := by
  have hr : (BitVec.ofNat 5 (5 + i)).toNat = 5 + i := by rw [BitVec.toNat_ofNat, Nat.mod_eq_of_lt (by omega)]
  rw [pointersLoaded, readX_writes _ _ _ (by omega), hr, if_pos ⟨by omega, by omega⟩, Nat.add_sub_cancel_left]

/-- What the registers of a strand that begins a task hold. -/
theorem Strand.begins_x (p : Strand) (d : Reg) (j : Nat) (z : TaskDesc) :
    (d ≠ 4 → readX (p.begins d j z).x 4 = BitVec.ofNat 64 (z.trip - z.resume).toNat) ∧ (d ≠ 0 → readX (p.begins d j z).x d = BitVec.ofNat 64 (j % 2 ^ 16)) ∧
    ∀ i, i < min z.nptr 4 → d.toNat ≠ 5 + i →
      readX (p.begins d j z).x (BitVec.ofNat 5 (5 + i)) = z.ptr.getD i 0 + BitVec.ofNat 64 (z.resume.toNat * ewBits z.vtype / 8) := by
  refine ⟨fun hd => ?_, fun hd => ?_, fun i hi hd => ?_⟩
  · rw [Strand.begins, readX_writeX, if_neg (by decide), if_neg (Ne.symm hd), readX_pointersLoaded_other _ _ (fun i _ => by simp; omega),
      readX_writeX, if_neg (by decide), if_pos rfl]
  · rw [Strand.begins, readX_writeX, if_neg hd, if_pos rfl]
  · have hr : (BitVec.ofNat 5 (5 + i)).toNat = 5 + i := by rw [BitVec.toNat_ofNat, Nat.mod_eq_of_lt (by omega)]
    rw [Strand.begins, readX_writeX, if_neg (fun he => by rw [he] at hr; simp at hr; omega), if_neg (fun he => hd (by rw [← he, hr])),
      readX_pointersLoaded _ _ hi]

section
variable {s : State} {k : Nat} (h : s.actor = .strand k) {d a b : Reg}
include h

theorem trun_illegal (ht : (s.strand k).task ≠ none) : Illegal (.trun d a b) s := by
  intro w hw
  obtain rfl : wTrun d a b = w := Option.some.inj hw
  refine runs_eq (exec_trun.trans (congrArg Host.Outcome.next (if_pos ?_)))
  rw [State.holdsTask, State.me_strand h, Option.isSome_iff_ne_none]; exact ht

variable (ht : (s.strand k).task = none)
include ht

theorem trun_takes {j : Nat} {z : Task} (hpick : pickTask s (readX (s.strand k).x a) = some (j, z)) :
    exec (.trun d a b) s = .next (takeTask s d j z) := by
  rw [exec_trun, execTrun, State.holdsTask, State.me_strand h, ht, State.x_strand h, hpick]; rfl
theorem trun_limit (hpick : pickTask s (readX (s.strand k).x a) = none) : exec (.trun d a b) s = .next
    (if (s.strand k).wait.expired || (s.strand k).wait.deadline.any (fun l => decide (l ≤ s.now)) then (s.setX d (BitVec.allOnes 64)).advance
     else s.upd k (fun p => { p with wait := { p.wait with
       blocked := true, deadline := if b = 0 then none else some ((s.strand k).wait.deadline.getD (s.now + (readX (s.strand k).x b).toNat)) } })) := by
  rw [exec_trun, execTrun, State.holdsTask, State.me_strand h, ht, State.x_strand h, hpick, State.x_strand h, State.updMe, State.key_strand h]; rfl
theorem trun_waits (hpick : pickTask s (readX (s.strand k).x a) = none) :
    let p := s.strand k
    let passed := p.wait.expired = true ∨ ∃ l, p.wait.deadline = some l ∧ l ≤ s.timeNs.toNat
    (passed → Runs (.trun d a b) s (StrandBecomes s k (p.gives d 0xFFFFFFFFFFFFFFFF))) ∧
    (¬passed → Runs (.trun d a b) s (StrandBecomes s k { p with wait := { p.wait with
      blocked := true, deadline := if b = 0 then none else some (p.wait.deadline.getD (s.timeNs.toNat + (readX p.x b).toNat)) } })) := by
  intro p passed
  have hpassed : (p.wait.expired || p.wait.deadline.any (fun l => decide (l ≤ s.now))) = true ↔ passed := limitPassed_iff ..
  have hexec := trun_limit h ht hpick (d := d) (b := b)
  exact ⟨fun hp => ⟨_, hexec.trans (congrArg Host.Outcome.next (if_pos (hpassed.2 hp))), gives_strand h d _⟩,
    fun hp => ⟨_, hexec.trans (congrArg Host.Outcome.next (if_neg (mt hpassed.1 hp))), becomes_upd s k _⟩⟩
end

/-- A task j of strand k ends: it goes as finishTask says, and the strand changes by f. -/
theorem finishTask_upd {u : State} {k j : Nat} {z : Task} (hz : sfind u.tasks j = some z) (f : Strand → Strand) :
    let t := (finishTask u j).upd k f
    t.strand k = f (u.strand k) ∧ (z.set = [] → sfind t.tasks j = none) ∧ (z.set ≠ [] → sfind t.tasks j = some { z with state := .done }) ∧
    ∀ i, i ≠ j → sfind t.tasks i = sfind u.tasks i := by
  obtain ⟨hstrands, -⟩ := finishTask_frame u j
  refine ⟨?_, finishTask_tasks hz⟩
  rw [State.strand_upd_self, State.strand, hstrands]; rfl

section
variable {s : State} {k : Nat} (h : s.actor = .strand k)
include h

theorem takeTask_retires {d : Reg} {j : Nat} {z : Task} (hdone : z.desc.resume = z.desc.trip) : takeTask s d j z =
    (finishTask ((acquire s (k / 3) .die).upd k (fun t => { t with x := writeX t.x d (BitVec.ofNat 64 (j % 2 ^ 16)) })) j).upd k Strand.onward := by
  have hacq : (acquire s (k / 3) .die).actor = .strand k := (acquire_caches s _ _).actor.trans h
  rw [takeTask, core_strand h, spawnResult_handle, State.setX_strand hacq]
  exact (if_pos hdone).trans (State.advance_strand ((finishTask_frame ..).2.trans hacq))
/-- A task with nothing left to do retires at its trun. -/
theorem trun_retires (ht : (s.strand k).task = none) {d a b : Reg} {j : Nat} {z : Task}
    (hpick : pickTask s (readX (s.strand k).x a) = some (j, z)) (hz : sfind s.tasks j = some z) (hdone : z.desc.resume = z.desc.trip) :
    Runs (.trun d a b) s (fun t =>
      (t.strand k).pc = (s.strand k).pc + 4 ∧ (t.strand k).task = none ∧ (t.strand k).x = writeX (s.strand k).x d (BitVec.ofNat 64 (j % 2 ^ 16)) ∧
      (z.set = [] → sfind t.tasks j = none) ∧ (z.set ≠ [] → sfind t.tasks j = some { z with state := .done }) ∧
      ∀ i, i ≠ j → sfind t.tasks i = sfind s.tasks i) := by
  have htasks : (acquire s (k / 3) .die).tasks = s.tasks := (acquire_caches s _ _).tasks
  have hstrand : (acquire s (k / 3) .die).strand k = s.strand k := by rw [State.strand, acquire_strands]; rfl
  refine ⟨_, (trun_takes h ht hpick).trans (congrArg Host.Outcome.next (takeTask_retires h hdone)), ?_⟩
  obtain ⟨hme, hempty, hfull, hothers⟩ := finishTask_upd (k := k) (z := z) (j := j)
    (u := (acquire s (k / 3) .die).upd k (fun t => { t with x := writeX t.x d (BitVec.ofNat 64 (j % 2 ^ 16)) })) (by rw [State.upd_tasks, htasks, hz]) Strand.onward
  have hgiven : ((acquire s (k / 3) .die).upd k (fun t => { t with x := writeX t.x d (BitVec.ofNat 64 (j % 2 ^ 16)) })).strand k =
      { s.strand k with x := writeX (s.strand k).x d (BitVec.ofNat 64 (j % 2 ^ 16)) } := by rw [State.strand_upd_self, hstrand]
  rw [hgiven] at hme
  rw [hme]
  exact ⟨rfl, ht, rfl, hempty, hfull, fun i hi => (hothers i hi).trans (by rw [State.upd_tasks, htasks])⟩

theorem tdone_ends (ht : (s.strand k).task = none) : Runs .tdone s (StrandBecomes s k { s.strand k with ending := true }) := by
  refine ⟨s.upd k (fun t => { t with ending := true }), exec_tdone.trans (congrArg Host.Outcome.next ?_), becomes_upd s k _⟩
  rw [State.me_strand h, ht, State.updMe, State.key_strand h]
theorem exec_tdone_task {j : Nat} (ht : (s.strand k).task = some j) : exec .tdone s =
    .next (releasing .die (fun t => ((finishTask t j).updMe (fun p => { p with task := none })).setPc t.me.tret) s) := by
  rw [exec_tdone, execTdone, State.me_strand h, ht]
theorem tdone_waits (ht : (s.strand k).task ≠ none) (hw : releaseWaits s (k / 3) .die = true) : ReleaseWaits .tdone s k := by
  obtain ⟨j, hj⟩ := Option.ne_none_iff_exists'.1 ht
  exact releasing_waits h (exec_tdone_task h hj) hw
theorem tdone_leaves {j : Nat} (ht : (s.strand k).task = some j) (hw : releaseWaits s (k / 3) .die = false) : exec .tdone s =
    .next ((finishTask (release s (k / 3) .die) j).upd k (fun p => { p with task := none, pc := (s.strand k).tret, wait := {} })) := by
  have hc := release_caches s (k / 3) .die
  have hrel : (release s (k / 3) .die).actor = .strand k := hc.actor.trans h
  obtain ⟨l, hl⟩ := hc.2 k
  have hactor : (finishTask (release s (k / 3) .die) j).actor = .strand k := (finishTask_frame ..).2.trans hrel
  refine (exec_tdone_task h ht).trans (congrArg Host.Outcome.next ((releasing_released h hw).trans ?_))
  rw [State.updMe, State.key_strand hactor, State.me_strand hrel, hl, State.setPc_strand (k := k) (by exact hactor), State.upd_upd]
theorem tdone_finishes {j : Nat} {z : Task} (ht : (s.strand k).task = some j) (hz : sfind s.tasks j = some z)
    (hw : releaseWaits s (k / 3) .die = false) : Runs .tdone s (fun t =>
      (t.strand k).pc = (s.strand k).tret ∧ (t.strand k).task = none ∧ (t.strand k).x = (s.strand k).x ∧
      (z.set = [] → sfind t.tasks j = none) ∧ (z.set ≠ [] → sfind t.tasks j = some { z with state := .done }) ∧
      ∀ i, i ≠ j → sfind t.tasks i = sfind s.tasks i) := by
  have hc := release_caches s (k / 3) .die
  obtain ⟨l, hl⟩ := hc.2 k
  refine ⟨_, tdone_leaves h ht hw, ?_⟩
  obtain ⟨hme, hempty, hfull, hothers⟩ := finishTask_upd (k := k) (z := z) (j := j) (u := release s (k / 3) .die) (by rw [hc.tasks]; exact hz)
    (fun p => { p with task := none, pc := (s.strand k).tret, wait := {} })
  rw [hl] at hme
  rw [hme]
  exact ⟨rfl, rfl, rfl, hempty, hfull, fun i hi => (hothers i hi).trans (by rw [hc.tasks])⟩
end

/-! ## Futures (R433) -/

section
variable {c : Except Stop Unit} {s : State}
theorem liftE_ok (hc : c = .ok ()) : liftE c s = .ok ⟨⟩ s := by rw [hc]; rfl
theorem liftE_error {e : Stop} (hc : c = .error e) : liftE c s = .error e s := by rw [hc]; rfl
end

section
variable {s : State} {k : Nat} (h : s.actor = .strand k) {x : Dword}
include h

theorem futSize_strand : s.futSize = (windowSize s k 0xF3).getD 0 := by rw [State.futSize, State.key_strand h]
theorem futureCheck_range (hx : x.toNat % 8 = 0) (hsize : (windowSize s k 0xF3).getD 0 ≤ x.toNat) :
    futureCheck s x = .error (.trap ⟨.windowRange, x, 0⟩) :=
  (if_neg (not_not.2 hx)).trans (if_pos (by rw [futSize_strand h]; exact hsize))
theorem futureCheck_ok (hx : x.toNat % 8 = 0 ∧ x.toNat < (windowSize s k 0xF3).getD 0) : futureCheck s x = .ok () :=
  (if_neg (not_not.2 hx.1)).trans (if_neg (by rw [futSize_strand h]; exact Nat.not_le.2 hx.2))

/-- An instruction that first checks a future's offset takes the trap of a bad one. -/
theorem future_stops {i : Instr} {m : M Unit} {f : PUnit → M Unit} (hi : exec i s = runInstr m s) (hm : m s = (liftE (futureCheck s x) >>= f) s) :
    (x.toNat % 8 ≠ 0 → Runs i s (fun t => t = raise s ⟨.misaligned, x, 0⟩)) ∧
    (x.toNat % 8 = 0 → (windowSize s k 0xF3).getD 0 ≤ x.toNat → Runs i s (fun t => t = raise s ⟨.windowRange, x, 0⟩)) :=
  ⟨fun hx => runs_eq (hi.trans (runInstr_trap (hm.trans (bindM_error (liftE_error (if_pos hx)))))),
    fun hx hsize => runs_eq (hi.trans (runInstr_trap (hm.trans (bindM_error (liftE_error (futureCheck_range h hx hsize))))))⟩
end

section
variable {s : State} {k : Nat} (h : s.actor = .strand k) {d a b : Reg}
include h

/-- tfut once its offset is checked. -/
def emptyFuture (s : State) (d : Reg) (o : Dword) : M Unit := do
  storeN s.ctx (futureAddr o) 8 0 0 0
  modify (fun s =>
    let w := s.futWord o.toNat
    (({ s with full := nsErase (nsErase s.full w) (w + 1) } : State).setX d (futureAddr o)).advance)

theorem tfut_checks (hspec : s.specTask k = none) : ∃ m : M Unit, exec (.tfut d a) s = runInstr m s ∧
    m s = (liftE (futureCheck s (readX (s.strand k).x a)) >>= fun _ => emptyFuture s d (readX (s.strand k).x a)) s := by
  obtain ⟨hkey, -⟩ := ctx_strand h
  refine ⟨_, rfl, (bindM_ok (specStall_idle (hkey.symm ▸ hspec))).trans ?_⟩
  rw [State.x_strand h]
  rfl
theorem tfut_empties (hspec : s.specTask k = none)
    (hx : (readX (s.strand k).x a).toNat % 8 = 0 ∧ (readX (s.strand k).x a).toNat < (windowSize s k 0xF3).getD 0) {u : State}
    (hstore : storeN s.ctx (futureAddr (readX (s.strand k).x a)) 8 0 0 0 s = .ok () u) (hactor : u.actor = s.actor) :
    let w := u.futWord (readX (s.strand k).x a).toNat
    Runs (.tfut d a) s (StrandBecomes { u with full := nsErase (nsErase u.full w) (w + 1) } k ((u.strand k).gives d (futureAddr (readX (s.strand k).x a)))) := by
  obtain ⟨m, hi, hm⟩ := tfut_checks h hspec (d := d) (a := a)
  intro w
  have hempty : emptyFuture s d (readX (s.strand k).x a) s =
      .ok ⟨⟩ ((({ u with full := nsErase (nsErase u.full w) (w + 1) } : State).setX d (futureAddr (readX (s.strand k).x a))).advance) := bindM_ok hstore
  refine ⟨_, hi.trans (runInstr_ok (hm.trans ((bindM_ok (liftE_ok (futureCheck_ok h hx))).trans hempty))), ?_⟩
  exact gives_strand (s := { u with full := nsErase (nsErase u.full w) (w + 1) }) (hactor.trans h) d _

/-- tfset of a future of window 0xF3, once its release is made. -/
def fillFuture (s : State) (o y : Dword) : M Unit := do
  storeN s.ctx (futureAddr o) 8 y.toNat 0 0
  modify (fun s =>
    (match s.specTask s.key with
      | some (j, t) => { s with tasks := sput s.tasks j { t with futs := nsInsert t.futs o.toNat } }
      | none => { s with full := nsInsert s.full (s.futWord o.toNat) }).advance)
/-- tfset of a future of window 0xF3, once its offset is checked. -/
def setFuture (s : State) (o y : Dword) : M Unit := do
  if futureFull s o.toNat then waitM else pure ()
  releaseM .die
  fillFuture s o y

theorem tfset_checks (hbit : (readX (s.strand k).x a).getLsbD 63 = false) : ∃ m : M Unit, exec (.tfset a b) s = runInstr m s ∧
    m s = (liftE (futureCheck s (readX (s.strand k).x a)) >>= fun _ => setFuture s (readX (s.strand k).x a) (readX (s.strand k).x b)) s := by
  refine ⟨_, ?_, rfl⟩
  rw [exec_tfset, execTfset, State.x_strand h, State.x_strand h]
  exact if_neg (by rw [hbit]; exact Bool.false_ne_true)
theorem tfset_pager (hbit : (readX (s.strand k).x a).getLsbD 63 = true) (hlevel : (s.strand k).level ≠ .user) : exec (.tfset a b) s =
    .next (releasing .die (fun t => (setPager t (dieOf t.core) ((readX (s.strand k).x a).extractLsb' 0 10 : BitVec 10).toNat).advance) s) := by
  rw [exec_tfset, execTfset, State.x_strand h, State.me_strand h]
  exact (if_pos hbit).trans (congrArg Host.Outcome.next (if_neg hlevel))
theorem tfset_privileged (hbit : (readX (s.strand k).x a).getLsbD 63 = true) (hlevel : (s.strand k).level = .user) :
    Runs (.tfset a b) s (fun t => t = raise s ⟨.privilege, (wTfset a b).zeroExtend 64, 0⟩) := by
  refine runs_eq (exec_tfset.trans ?_)
  rw [execTfset, State.x_strand h, State.me_strand h]
  exact (if_pos hbit).trans (congrArg Host.Outcome.next (if_pos hlevel))
theorem tfset_sets_pager (hbit : (readX (s.strand k).x a).getLsbD 63 = true) (hlevel : (s.strand k).level ≠ .user) (hw : releaseWaits s (k / 3) .die = false) :
    Runs (.tfset a b) s (fun t => t = (setPager (release s (k / 3) .die) (dieOf (k / 3)) ((readX (s.strand k).x a).toNat % 1024)).advance) := by
  have hrel : (release s (k / 3) .die).actor = .strand k := (release_caches s _ _).actor.trans h
  refine runs_eq ((tfset_pager h hbit hlevel).trans (congrArg Host.Outcome.next ((releasing_released h hw).trans ?_)))
  rw [core_strand hrel, BitVec.extractLsb'_toNat]
  rfl

section
variable (hbit : (readX (s.strand k).x a).getLsbD 63 = false)
  (hx : (readX (s.strand k).x a).toNat % 8 = 0 ∧ (readX (s.strand k).x a).toNat < (windowSize s k 0xF3).getD 0)
include hbit hx

theorem tfset_blocks (hfull : futureFull s (readX (s.strand k).x a).toNat = true) : exec (.tfset a b) s = .next s.block := by
  obtain ⟨m, hi, hm⟩ := tfset_checks h hbit (b := b)
  refine hi.trans (runInstr_wait (hm.trans ((bindM_ok (liftE_ok (futureCheck_ok h hx))).trans ?_)))
  simp only [setFuture]
  rw [if_pos hfull]; rfl
theorem tfset_releases (hempty : futureFull s (readX (s.strand k).x a).toNat = false) : ∃ m : M Unit, exec (.tfset a b) s = runInstr m s ∧
    m s = (releaseM .die >>= fun _ => fillFuture s (readX (s.strand k).x a) (readX (s.strand k).x b)) s := by
  obtain ⟨m, hi, hm⟩ := tfset_checks h hbit (b := b)
  refine ⟨m, hi, hm.trans ((bindM_ok (liftE_ok (futureCheck_ok h hx))).trans ?_)⟩
  simp only [setFuture]
  rw [if_neg (by rw [hempty]; exact Bool.false_ne_true)]
theorem tfset_fills (hempty : futureFull s (readX (s.strand k).x a).toNat = false) (hw : releaseWaits s (k / 3) .die = false) {u : State}
    (hstore : storeN s.ctx (futureAddr (readX (s.strand k).x a)) 8 (readX (s.strand k).x b).toNat 0 0 (release s (k / 3) .die) = .ok () u)
    (hactor : u.actor = s.actor) (hspec : u.specTask k = none) :
    Runs (.tfset a b) s (StrandBecomes { u with full := nsInsert u.full (u.futWord (readX (s.strand k).x a).toNat) } k (u.strand k).onward) := by
  obtain ⟨m, hi, hm⟩ := tfset_releases h hbit hx hempty (b := b)
  have hu : u.actor = .strand k := hactor.trans h
  have hfill : fillFuture s (readX (s.strand k).x a) (readX (s.strand k).x b) (release s (k / 3) .die) =
      .ok ⟨⟩ ({ u with full := nsInsert u.full (u.futWord (readX (s.strand k).x a).toNat) } : State).advance := by
    refine (bindM_ok hstore).trans ((modifyM_apply ..).trans ?_)
    rw [State.key_strand hu, hspec]
  refine ⟨_, hi.trans (runInstr_ok (hm.trans ((bindM_ok (releaseM_released h hw)).trans hfill))), ?_⟩
  exact onward_strand (s := { u with full := nsInsert u.full (u.futWord (readX (s.strand k).x a).toNat) }) hu
end

/-- tfwait once its offset is checked. -/
def readFuture (s : State) (d : Reg) (o : Dword) : M Unit := do
  if futureFull s o.toNat then pure () else waitM
  let v ← loadN s.ctx (futureAddr o) 8 0 0
  modify (fun s => ((acquire s s.core .die).setX d (BitVec.ofNat 64 v)).advance)

theorem tfwait_checks : ∃ m : M Unit, exec (.tfwait d a) s = runInstr m s ∧
    m s = (liftE (futureCheck s (readX (s.strand k).x a)) >>= fun _ => readFuture s d (readX (s.strand k).x a)) s := by
  refine ⟨_, ?_, rfl⟩
  rw [exec_tfwait, execTfwait, State.x_strand h]; rfl

section
variable (hx : (readX (s.strand k).x a).toNat % 8 = 0 ∧ (readX (s.strand k).x a).toNat < (windowSize s k 0xF3).getD 0)
include hx
theorem tfwait_blocks (hempty : futureFull s (readX (s.strand k).x a).toNat = false) : exec (.tfwait d a) s = .next s.block := by
  obtain ⟨m, hi, hm⟩ := tfwait_checks h (d := d) (a := a)
  refine hi.trans (runInstr_wait (hm.trans ((bindM_ok (liftE_ok (futureCheck_ok h hx))).trans ?_)))
  simp only [readFuture]
  rw [if_neg (by rw [hempty]; exact Bool.false_ne_true)]; rfl
theorem tfwait_gives (hfull : futureFull s (readX (s.strand k).x a).toNat = true) {v : Nat} {u : State}
    (hload : loadN s.ctx (futureAddr (readX (s.strand k).x a)) 8 0 0 s = .ok v u) (hactor : u.actor = s.actor) :
    Runs (.tfwait d a) s (StrandBecomes (acquire u (k / 3) .die) k ((u.strand k).gives d (BitVec.ofNat 64 v))) := by
  obtain ⟨m, hi, hm⟩ := tfwait_checks h (d := d) (a := a)
  have hu : u.actor = .strand k := hactor.trans h
  have hread : readFuture s d (readX (s.strand k).x a) s = .ok ⟨⟩ ((acquire u (k / 3) .die).setX d (BitVec.ofNat 64 v)).advance := by
    simp only [readFuture]
    rw [if_pos hfull]
    refine (bindM_ok hload).trans ((modifyM_apply ..).trans ?_)
    rw [core_strand hu]
  refine ⟨_, hi.trans (runInstr_ok (hm.trans ((bindM_ok (liftE_ok (futureCheck_ok h hx))).trans hread))), ?_⟩
  have hgives := gives_strand ((acquire_caches u (k / 3) .die).actor.trans hu) d (BitVec.ofNat 64 v)
  rwa [State.strand, acquire_strands] at hgives
end

/-! ## tqcfg (R434) -/

theorem tqcfg_refused (hbad : 63 < (readX (s.strand k).x a).toNat ∨ (readX (s.strand k).x b).toNat / 2 ^ 17 ≠ 0) :
    Runs (.tqcfg d a b) s (StrandBecomes s k ((s.strand k).gives d 0xFFFFFFFFFFFFFFFF)) := by
  refine ⟨_, exec_tqcfg.trans ?_, gives_strand h d _⟩
  rw [execTqcfg, State.x_strand h, State.x_strand h]
  exact congrArg Host.Outcome.next (if_pos (by rw [extractLsb'_high (by decide)]; exact hbad))
theorem tqcfg_answers (hgood : ¬(63 < (readX (s.strand k).x a).toNat ∨ (readX (s.strand k).x b).toNat / 2 ^ 17 ≠ 0)) :
    exec (.tqcfg d a b) s = .next (((if (readX (s.strand k).x b).getLsbD 16 then
        { s with qlimit := sput s.qlimit ((65536 * dieOf (k / 3) + (s.strand k).e.asid.toNat) * 64 + (readX (s.strand k).x a).toNat) ((readX (s.strand k).x b).extractLsb' 0 16) }
      else s).setX d (BitVec.ofNat 64 (queueTasks s (dieOf (k / 3)) (s.strand k).e.asid (readX (s.strand k).x a).toNat).length)).advance) := by
  rw [exec_tqcfg, execTqcfg, State.x_strand h, State.x_strand h, core_strand h, State.me_strand h]
  exact congrArg Host.Outcome.next (if_neg (by rw [extractLsb'_high (by decide)]; exact hgood))
end

/-! ## Deadlines (R148, R430) -/

section
variable {s : State} {k : Nat}

theorem expires_iff : ((s.strand k).wait.blocked = true ∧ (s.strand k).wait.deadline.any (fun l => decide (l ≤ s.now)) = true) ↔
    (s.strand k).wait.blocked = true ∧ ∃ l, (s.strand k).wait.deadline = some l ∧ l ≤ s.timeNs.toNat := by
  refine and_congr_right fun _ => ?_
  cases (s.strand k).wait.deadline with
  | none => simp
  | some l => simp only [Option.any_some, decide_eq_true_eq, Option.some.injEq, exists_eq_left']; rfl
theorem expireWait_due (hdue : (s.strand k).wait.blocked = true ∧ ∃ l, (s.strand k).wait.deadline = some l ∧ l ≤ s.timeNs.toNat) :
    StrandBecomes s k { s.strand k with wait := { (s.strand k).wait with expired := true } } (expireWait s k) := by
  rw [expireWait, if_pos (expires_iff.2 hdue)]; exact becomes_upd s k _
theorem expireWait_early (hdue : ¬((s.strand k).wait.blocked = true ∧ ∃ l, (s.strand k).wait.deadline = some l ∧ l ≤ s.timeNs.toNat)) :
    expireWait s k = s := if_neg (mt expires_iff.1 hdue)
end

/-- Settles O44: each clause is what the lemmas above say of the instruction or the event. -/
theorem taskResult : Obligations.TaskResult := by
  intro s k d a b p x y die Does
  refine ⟨fun h => ⟨fun hspec t u hread hactor => ?tspawn, fun hspec => runs_eq (tspawn_stalls h hspec), fun hx hspec => tspawn_misaligned h hspec hx,
    trun_illegal h, fun ht => ⟨fun j z hpick hleft => ?trun, fun j z hpick hz hdone => trun_retires h ht hpick hz hdone, fun hpick => trun_waits h ht hpick⟩,
    tdone_ends h, tdone_waits h, fun j z ht hz hw => tdone_finishes h ht hz hw, ?futures, ?tqcfg⟩, ?deadlines, fun dn e z hz hstate hawaits => ⟨?ready, ?unset⟩,
    fun dn e hidle => runs_eq (congrArg Host.Outcome.next (tryReady_idle hidle))⟩
  case tspawn =>
    have hu : u.actor = .strand k := hactor.trans h
    obtain ⟨m, hi, hm⟩ := tspawn_reads h hspec hread (d := d)
    refine ⟨fun hbad => ⟨_, hi.trans (runInstr_ok (hm.trans (spawnTask_bad hbad))), gives_strand hu d _⟩,
      fun hgood hfull => ⟨_, hi.trans (runInstr_ok (hm.trans (spawnTask_full hgood hfull))), gives_strand hu d _⟩,
      fun hgood hroom hw => releaseM_waits hi (hm.trans (spawnTask_releases hgood hroom)) hu hw,
      fun hgood hroom hw j hj => ⟨_, hi.trans (runInstr_ok (hm.trans (spawnTask_enqueues hgood hroom hu hw hj))), rfl, ?_⟩⟩
    have hrel : (release u (k / 3) .die).actor = .strand k := (release_caches u _ _).actor.trans hu
    obtain ⟨henq, -, z, hz, hdesc, hasid⟩ := enqueue_keeps (release u (k / 3) .die) j ((release u (k / 3) .die).newTask t)
    refine ⟨z, by rw [gives_tasks (henq.trans hrel)]; exact hz, hdesc, hasid.trans ?_⟩
    rw [State.newTask, State.me_strand hrel]
  case trun =>
    refine ⟨_, (trun_takes h ht hpick).trans (congrArg Host.Outcome.next (takeTask_begins h hleft)), ?_⟩
    have hstrand : (acquire s (k / 3) .die).strand k = p := by rw [State.strand, acquire_strands]; rfl
    generalize hu : ({ acquire s (k / 3) .die with tasks := sput (acquire s (k / 3) .die).tasks j { z with state := .running k } } : State) = u
    have hme : (u.upd k (·.begins d j z.desc)).strand k = p.begins d j z.desc := by rw [State.strand_upd_self, ← hu]; exact congrArg (·.begins d j z.desc) hstrand
    have htasks : (u.upd k (·.begins d j z.desc)).tasks = sput (acquire s (k / 3) .die).tasks j { z with state := .running k } := by rw [State.upd_tasks, ← hu]
    obtain ⟨hcount, hhandle, hpointers⟩ := Strand.begins_x p d j z.desc
    generalize u.upd k (·.begins d j z.desc) = t at hme htasks
    simp only [hme, htasks]
    exact ⟨rfl, rfl, rfl, rfl, rfl, rfl, hcount, hhandle, hpointers, (sfind_sput ..).trans (if_pos rfl)⟩
  case futures =>
    intro size addr bad good
    refine ⟨fun hspec => ⟨?tfutBad, fun hx u hstore hactor => tfut_empties h hspec hx hstore hactor⟩, tfset_privileged h,
      fun hw => ⟨fun hbit hlevel => releasing_waits h (tfset_pager h hbit hlevel) hw, fun hbit hx hempty => ?tfsetWaits⟩,
      tfset_sets_pager h, fun hbit => ⟨?tfsetBad, fun hx hfull => runs_eq (tfset_blocks h hbit hx hfull),
        fun hx hempty _ hw u hstore hactor hspec => tfset_fills h hbit hx hempty hw hstore hactor hspec⟩,
      ?tfwaitBad, fun hx hempty => runs_eq (tfwait_blocks h hx hempty), fun hx hfull v u hload hactor => tfwait_gives h hx hfull hload hactor⟩
    case tfutBad => obtain ⟨m, hi, hm⟩ := tfut_checks h hspec (d := d) (a := a); exact future_stops h hi hm
    case tfsetBad => obtain ⟨m, hi, hm⟩ := tfset_checks h hbit (b := b); exact future_stops h hi hm
    case tfwaitBad => obtain ⟨m, hi, hm⟩ := tfwait_checks h (d := d) (a := a); exact future_stops h hi hm
    case tfsetWaits => obtain ⟨m, hi, hm⟩ := tfset_releases h hbit hx hempty (b := b); exact releaseM_waits hi hm h hw
  case tqcfg =>
    intro bad n key
    refine ⟨tqcfg_refused h, fun hgood hbit => ⟨_, tqcfg_answers h hgood, ?_⟩, fun hgood hbit => ⟨_, tqcfg_answers h hgood, ?_⟩⟩
    · rw [if_neg (by rw [hbit]; exact Bool.false_ne_true)]
      exact gives_strand h d _
    · rw [if_pos hbit]
      exact gives_strand (s := { s with qlimit := sput s.qlimit key (y.extractLsb' 0 16) }) h d _
  case deadlines =>
    intro w due
    exact ⟨fun hdue => ⟨⟨_, rfl, expireWait_due hdue⟩, ⟨_, rfl, expireWait_due hdue⟩⟩,
      fun hdue => ⟨runs_eq (congrArg Host.Outcome.next (expireWait_early hdue)), runs_eq (congrArg Host.Outcome.next (expireWait_early hdue))⟩⟩
  case ready =>
    intro full hfull hset
    refine ⟨_, congrArg Host.Outcome.next (tryReady_full hz hstate hawaits hfull hset), (sfind_sput ..).trans (if_pos rfl), rfl, rfl⟩
  case unset => exact fun hopen => runs_eq (congrArg Host.Outcome.next (tryReady_unset hz hopen))

end Sys2Proof.Machine
end

section
/-! Binding configurations (R341 to R345): lemmas for the statement FabricBinding, and its proof. -/

namespace Sys2Proof.Machine
open Sys2Proof

/-! ## Slots -/

/-- Slot n of process a is bound. -/
def SlotBound (s : State) (a : BitVec 16) (n : Nat) : Prop := n < 32 ∧ (s.slotEntry a n).bound ≠ none
/-- Strand j, as the strand table has it, is binding a slot. -/
def Binding (s : State) (slot j : Nat) (q : Strand) : Prop := (j, q) ∈ s.strands ∧ q.wait.bind = some slot

theorem advance_slots (s : State) : s.advance.slots = s.slots ∧ s.advance.confs = s.confs := by
  unfold State.advance State.setPc
  split
  · exact ⟨rfl, rfl⟩
  · unfold cellFires
    dsimp only
    split <;> exact ⟨rfl, rfl⟩
theorem unbind_slots (s : State) (a : BitVec 16) (n : Nat) : ((unbind s a n).slotEntry a n).bound = none ∧
    ∀ q ∈ (unbind s a n).confs, q.1 % 2 ^ 21 ≠ 32 * a.toNat + n := by
  refine ⟨?_, fun q hq => ?_⟩
  · rw [State.slotEntry, sget, unbind]
    simp [sfind_sdel]
  · simpa using (List.mem_filter.1 hq).2

section
variable {s : State} {k : Nat} (h : s.actor = .strand k) {x : Dword}
include h

theorem boundSlot_bound (hb : SlotBound s (s.strand k).e.asid x.toNat) : boundSlot s x = some x.toNat := by
  rw [boundSlot, State.me_strand h]
  exact if_pos ⟨hb.1, Option.isSome_iff_ne_none.2 hb.2⟩
theorem boundSlot_free (hb : ¬SlotBound s (s.strand k).e.asid x.toNat) : boundSlot s x = none := by
  rw [boundSlot, State.me_strand h]
  exact if_neg fun hs => hb ⟨hs.1, Option.isSome_iff_ne_none.1 hs.2⟩
end

theorem bindingElsewhere_iff {s : State} {k slot : Nat} : bindingElsewhere s k slot = true ↔ ∃ j q, j ≠ k ∧ Binding s slot j q := by
  simp only [bindingElsewhere, List.any_eq_true, Bool.and_eq_true, bne_iff_ne, beq_iff_eq, Prod.exists, Binding]
  exact exists_congr fun j => exists_congr fun q => and_left_comm

/-! ## fxbind (R342) -/

/-- The state once a slot is bound to an image at address y. -/
def boundTo (u : State) (slot : Nat) (y : Dword) (img : FxImage) : State :=
  { u with slots := sput u.slots slot { image := y, gen := u.fxGen, bound := some img }, fxGen := u.fxGen + 1 }

section
variable {s : State} {k : Nat} (h : s.actor = .strand k) {d a b : Reg}
include h

theorem fxbind_beyond (hn : 32 ≤ (readX (s.strand k).x a).toNat) : Runs (.fxbind d a b) s (StrandBecomes s k ((s.strand k).gives d 2)) := by
  refine ⟨_, exec_fxbind.trans (runInstr_ok ?_), gives_strand h d 2⟩
  simp only [bindInstr]
  rw [bindM_get, State.x_strand h, if_pos hn]; rfl
theorem fxbind_busy (hn : (readX (s.strand k).x a).toNat < 32) (hbusy : SlotBound s (s.strand k).e.asid (readX (s.strand k).x a).toNat ∨
      ∃ j q, j ≠ k ∧ Binding s (32 * (s.strand k).e.asid.toNat + (readX (s.strand k).x a).toNat) j q) :
    Runs (.fxbind d a b) s (StrandBecomes s k ((s.strand k).gives d 1)) := by
  refine ⟨_, exec_fxbind.trans (runInstr_ok ?_), gives_strand h d 1⟩
  have hused : ((boundSlot s (readX (s.strand k).x a)).isSome ||
      bindingElsewhere s k (32 * (s.strand k).e.asid.toNat + (readX (s.strand k).x a).toNat)) = true :=
    Bool.or_eq_true_iff.2 (hbusy.imp (fun hb => by rw [boundSlot_bound h hb]; rfl) bindingElsewhere_iff.2)
  simp only [bindInstr]
  rw [bindM_get, State.x_strand h, if_neg (Nat.not_le.2 hn), State.key_strand h, State.me_strand h, if_pos hused]; rfl

section
variable (hn : (readX (s.strand k).x a).toNat < 32) (hfree : ¬SlotBound s (s.strand k).e.asid (readX (s.strand k).x a).toNat)
  (hnone : ¬∃ j q, j ≠ k ∧ Binding s (32 * (s.strand k).e.asid.toNat + (readX (s.strand k).x a).toNat) j q)
include hn hfree hnone

/-- fxbind of a free slot notes its binding and loads the image. -/
theorem fxbind_loads : ∃ m : M Unit, exec (.fxbind d a b) s = runInstr m s ∧
    m s = (loadConf (readX (s.strand k).x b).toNat >>= fun img => modify (fun u =>
      ((boundTo u (32 * u.me.e.asid.toNat + (readX (s.strand k).x a).toNat) (readX (s.strand k).x b) img).setX d 0).advance))
      (s.upd k (fun q => { q with wait := { q.wait with bind := some (32 * (s.strand k).e.asid.toNat + (readX (s.strand k).x a).toNat) } })) := by
  refine ⟨_, exec_fxbind, ?_⟩
  have hunused : ((boundSlot s (readX (s.strand k).x a)).isSome ||
      bindingElsewhere s k (32 * (s.strand k).e.asid.toNat + (readX (s.strand k).x a).toNat)) = false := by
    rw [boundSlot_free h hfree]
    exact Bool.eq_false_iff.2 (mt bindingElsewhere_iff.1 hnone)
  simp only [bindInstr]
  rw [bindM_get, State.x_strand h, if_neg (Nat.not_le.2 hn), State.key_strand h, State.me_strand h,
    if_neg (by rw [hunused]; exact Bool.false_ne_true), bindM_modify, setWait_strand h, waitOf_strand h, State.x_strand h]
  rfl
theorem fxbind_binds {img : FxImage} {u : State} (hload : loadConf (readX (s.strand k).x b).toNat
      (s.upd k (fun q => { q with wait := { q.wait with bind := some (32 * (s.strand k).e.asid.toNat + (readX (s.strand k).x a).toNat) } })) = .ok img u)
    (hactor : u.actor = s.actor) (hasid : (u.strand k).e.asid = (s.strand k).e.asid) : Runs (.fxbind d a b) s (StrandBecomes
      (boundTo u (32 * (s.strand k).e.asid.toNat + (readX (s.strand k).x a).toNat) (readX (s.strand k).x b) img) k ((u.strand k).gives d 0)) := by
  obtain ⟨m, hi, hm⟩ := fxbind_loads h hn hfree hnone (d := d) (b := b)
  have hu : u.actor = .strand k := hactor.trans h
  refine ⟨_, hi.trans (runInstr_ok (hm.trans ((bindM_ok hload).trans (modifyM_apply ..)))), ?_⟩
  rw [State.me_strand hu, hasid]
  exact gives_strand (s := boundTo u _ _ img) hu d 0
end
end

/-! ## fxstat (R344) -/

theorem one_shiftLeft_bit (p : Nat) {i : Nat} (hi : i < 64) : ((1 <<< p : Nat) : Dword).getLsbD i = decide (i = p) := by
  rw [BitVec.natCast_eq_ofNat, BitVec.getLsbD_ofNat, Nat.one_shiftLeft, Nat.testBit_two_pow]
  simp [hi, eq_comm]
/-- The bits of a list of places, set in a word. -/
theorem foldl_bits (l : List Nat) (v : Dword) {i : Nat} (hi : i < 64) :
    (l.foldl (fun (v : Dword) p => v ||| ((1 <<< p : Nat) : Dword)) v).getLsbD i = (v.getLsbD i || decide (i ∈ l)) := by
  induction l generalizing v with
  | nil => simp
  | cons p l ih => rw [List.foldl_cons, ih, BitVec.getLsbD_or, one_shiftLeft_bit p hi]; simp [Bool.or_assoc]

/-- What fxstat answers of a bound slot whose placed pages lie below 8. -/
theorem fxstat_bits {s : State} {k : Nat} (h : s.actor = .strand k) {x : Dword} (hb : SlotBound s (s.strand k).e.asid x.toNat)
    (hpages : ∀ c ∈ bindConfs s (bindKey (k / 3) (s.strand k).e.asid x.toNat), ∀ q ∈ c.pages, q < 8) :
    let v := fxstatWord s x
    let confs := bindConfs s (bindKey (k / 3) (s.strand k).e.asid x.toNat)
    v.getLsbD 12 = true ∧ (v.getLsbD 11 = true ↔ ∃ c ∈ confs, c.pinned = true) ∧ v.getLsbD 10 = bindRunning s (bindKey (k / 3) (s.strand k).e.asid x.toNat) ∧
    (v.getLsbD 9 = true ↔ ∃ c ∈ confs, c.split = true) ∧ (v.getLsbD 8 = true ↔ confs ≠ []) ∧ ∀ q, q < 8 → (v.getLsbD q = true ↔ ∃ c ∈ confs, q ∈ c.pages) := by
  intro v confs
  have hhigh (i : Nat) (hi : 8 ≤ i) : i ∉ confs.flatMap (·.pages) := fun hin => by
    obtain ⟨c, hc, hp⟩ := List.mem_flatMap.1 hin
    have := hpages c hc i hp; omega
  have hbit (i : Nat) (hi : i < 64) : v.getLsbD i = (decide (i = 12) || (confs.any (·.pinned) && decide (i = 11)) ||
      (bindRunning s (bindKey (k / 3) (s.strand k).e.asid x.toNat) && decide (i = 10)) || (confs.any (·.split) && decide (i = 9)) ||
      (!confs.isEmpty && decide (i = 8)) || decide (i ∈ confs.flatMap (·.pages))) := by
    have hfirst : ((1 : Dword) <<< 12).getLsbD i = decide (i = 12) := one_shiftLeft_bit 12 hi
    have hsel (c : Bool) (p : Nat) : (((if c then 1 <<< p else 0) : Nat) : Dword).getLsbD i = (c && decide (i = p)) := by
      cases c
      · simp
      · exact one_shiftLeft_bit p hi
    have hempty : (((if confs.isEmpty then 0 else 1 <<< 8) : Nat) : Dword).getLsbD i = (!confs.isEmpty && decide (i = 8)) := by
      cases confs.isEmpty
      · exact one_shiftLeft_bit 8 hi
      · simp
    change (fxstatWord s x).getLsbD i = _
    rw [fxstatWord, boundSlot_bound h hb, core_strand h, State.me_strand h]
    simp only [BitVec.getLsbD_or, hfirst, hsel, foldl_bits _ _ hi]
    refine congr (congrArg _ (congr (congrArg _ rfl) hempty)) ?_
    simp [confs]
  refine ⟨?_, ?_, ?_, ?_, ?_, fun q hq => ?_⟩
  all_goals rw [hbit _ (by omega)]
  · simp
  · simp [hhigh]
  · simp [hhigh]
  · simp [hhigh]
  · simp [hhigh]
  · simp; omega

/-! ## fxunbind, fxquery, fxpin and fxunpin (R343 to R345) -/

theorem pinConf_frame (s : State) (key : Nat) : (∀ k, (pinConf s key).strand k = s.strand k) ∧ (pinConf s key).actor = s.actor := by
  unfold pinConf; split <;> exact ⟨fun _ => rfl, rfl⟩

section
variable {s : State} {k : Nat} (h : s.actor = .strand k) {d a b : Reg}
include h

section
variable (hb : SlotBound s (s.strand k).e.asid (readX (s.strand k).x a).toNat)
include hb

theorem exec_fxunbind_bound : exec (.fxunbind a) s = .next
    (if (slotUsers s (s.strand k).e.asid (readX (s.strand k).x a).toNat).any (arrivalWaits s) then s.block
     else (unbind s (s.strand k).e.asid (readX (s.strand k).x a).toNat).advance) := by
  rw [exec_fxunbind, execFxunbind, State.x_strand h, boundSlot_bound h hb, State.me_strand h]
theorem fxunbind_waits (hw : ∃ q ∈ slotUsers s (s.strand k).e.asid (readX (s.strand k).x a).toNat, arrivalWaits s q = true) :
    Runs (.fxunbind a) s (StrandBecomes s k { s.strand k with wait := { (s.strand k).wait with blocked := true } }) :=
  ⟨_, (exec_fxunbind_bound h hb).trans (congrArg Host.Outcome.next (if_pos (List.any_eq_true.2 hw))), block_strand h⟩
theorem fxunbind_ends (hfree : ∀ q ∈ slotUsers s (s.strand k).e.asid (readX (s.strand k).x a).toNat, arrivalWaits s q = false) :
    let n := (readX (s.strand k).x a).toNat
    Runs (.fxunbind a) s (fun t => t = (unbind s (s.strand k).e.asid n).advance ∧ (t.slotEntry (s.strand k).e.asid n).bound = none ∧
      ∀ q ∈ t.confs, q.1 % 2 ^ 21 ≠ 32 * (s.strand k).e.asid.toNat + n) := by
  intro n
  have hnone : ¬(slotUsers s (s.strand k).e.asid n).any (arrivalWaits s) = true := fun hany => by
    obtain ⟨q, hq, hw⟩ := List.any_eq_true.1 hany
    rw [hfree q hq] at hw; nomatch hw
  obtain ⟨hslots, hconfs⟩ := advance_slots (unbind s (s.strand k).e.asid n)
  refine ⟨_, (exec_fxunbind_bound h hb).trans (congrArg Host.Outcome.next (if_neg hnone)), rfl, ?_, ?_⟩
  · rw [State.slotEntry, hslots]; exact (unbind_slots ..).1
  · rw [hconfs]; exact (unbind_slots ..).2

theorem exec_fxpin_bound : exec (.fxpin d a) s = .next
    (let r := placeConf s k (s.strand k).e.asid (readX (s.strand k).x a).toNat false
     if r.1 then ((pinConf r.2 (confKeyOf s k (s.strand k).e.asid (readX (s.strand k).x a).toNat)).setX d 0).advance else (r.2.setX d 2).advance) := by
  rw [exec_fxpin, execFxpin, State.x_strand h, boundSlot_bound h hb, State.me_strand h, State.key_strand h]
theorem fxpin_full {u : State} (hplace : placeConf s k (s.strand k).e.asid (readX (s.strand k).x a).toNat false = (false, u)) (hactor : u.actor = s.actor) :
    Runs (.fxpin d a) s (StrandBecomes u k ((u.strand k).gives d 2)) := by
  refine ⟨_, (exec_fxpin_bound h hb).trans ?_, gives_strand (hactor.trans h) d 2⟩
  rw [hplace]; rfl
theorem fxpin_pins {u : State} (hplace : placeConf s k (s.strand k).e.asid (readX (s.strand k).x a).toNat false = (true, u)) (hactor : u.actor = s.actor) :
    Runs (.fxpin d a) s (StrandBecomes (pinConf u (confKeyOf s k (s.strand k).e.asid (readX (s.strand k).x a).toNat)) k ((u.strand k).gives d 0)) := by
  obtain ⟨hstrands, hsame⟩ := pinConf_frame u (confKeyOf s k (s.strand k).e.asid (readX (s.strand k).x a).toNat)
  have hgives := gives_strand (hsame.trans (hactor.trans h)) d 0
  rw [hstrands] at hgives
  refine ⟨_, (exec_fxpin_bound h hb).trans ?_, hgives⟩
  rw [hplace]; rfl
theorem fxunpin_unpins : Runs (.fxunpin a) s
    (StrandBecomes (unpinConfs s (bindKey (k / 3) (s.strand k).e.asid (readX (s.strand k).x a).toNat)) k (s.strand k).onward) := by
  refine ⟨_, ?_, onward_strand (s := unpinConfs s _) h⟩
  rw [exec_fxunpin, execFxunpin, State.x_strand h, boundSlot_bound h hb, State.me_strand h, core_strand h]
end

theorem fxstat_answers : Runs (.fxstat d a) s (StrandBecomes s k ((s.strand k).gives d (fxstatWord s (readX (s.strand k).x a)))) :=
  ⟨_, by rw [exec_fxstat, execFxstat, State.x_strand h], gives_strand h d _⟩
theorem fxquery_answers : Runs (.fxquery d a b) s
    (StrandBecomes s k ((s.strand k).gives d (fxqueryWord s (readX (s.strand k).x a) (readX (s.strand k).x b)))) :=
  ⟨_, by rw [exec_fxquery, execFxquery, State.x_strand h, State.x_strand h], gives_strand h d _⟩
theorem fxqueryWord_bound {x : Dword} (y : Dword) (hb : SlotBound s (s.strand k).e.asid x.toNat) : fxqueryWord s x y =
    if y = 0 then (s.slotEntry (s.strand k).e.asid x.toNat).image
    else if y = 1 then (if anyPin s (s.strand k).e.asid x.toNat then 0x102 else 2) else 0 := by
  rw [fxqueryWord, boundSlot_bound h hb, State.me_strand h]
theorem fxqueryWord_free {x : Dword} (y : Dword) (hb : ¬SlotBound s (s.strand k).e.asid x.toNat) :
    (fxqueryWord s x y = 1 ↔ y = 1 ∧ x.toNat < 32 ∧ ∃ j q, Binding s (32 * (s.strand k).e.asid.toNat + x.toNat) j q) ∧
    (fxqueryWord s x y ≠ 1 → fxqueryWord s x y = 0) := by
  have hbinding : s.strands.any (fun p => p.2.wait.bind == some (32 * (s.strand k).e.asid.toNat + x.toNat)) = true ↔
      ∃ j q, Binding s (32 * (s.strand k).e.asid.toNat + x.toNat) j q := by
    simp only [List.any_eq_true, beq_iff_eq, Prod.exists, Binding]
  rw [fxqueryWord, boundSlot_free h hb, State.me_strand h]
  refine ⟨?_, fun hne => if_neg fun hc => hne (if_pos hc)⟩
  rw [← hbinding]
  constructor
  · intro hone
    by_contra hn
    rw [if_neg fun hc => hn ⟨hc.1, hc.2.2, hc.2.1⟩] at hone
    nomatch hone
  · exact fun hc => if_pos ⟨hc.1, hc.2.2, hc.2.1⟩
end

/-- Settles O40: each instruction by whether its slot is bound. -/
theorem fabricBinding : Obligations.FabricBinding := by
  intro s k d a b h p x y n asid slot entry bind confs Gives bound binding
  refine ⟨fxbind_beyond h, fun hb => fxbind_busy h hb.1 (.inl hb), fun hn he => fxbind_busy h hn (.inr he), fun hn hfree hnone => ?binds,
    fun hb => ?unbound, fun hb => ?bound⟩
  case binds =>
    have hfree' : ¬SlotBound s asid n := fun hb => hb.2 hfree
    obtain ⟨m, hi, hm⟩ := fxbind_loads h hn hfree' hnone (d := d) (b := b)
    refine ⟨fun img u hload hactor hasid => fxbind_binds h hn hfree' hnone hload hactor hasid,
      fun r u hload => runs_eq (hi.trans (runInstr_trap (hm.trans (bindM_error hload)))),
      fun u hload hactor => runs_eq ((hi.trans (runInstr_wait (hm.trans (bindM_error hload)))).trans (congrArg Host.Outcome.next ?_))⟩
    rw [State.block, setWait_strand (hactor.trans h), waitOf_strand (hactor.trans h)]
    rfl
  case unbound =>
    have hslot : boundSlot s (readX (s.strand k).x a) = none := boundSlot_free h hb
    have hstat : fxstatWord s (readX (s.strand k).x a) = 0 := by rw [fxstatWord, hslot]
    refine ⟨⟨_, ?_, onward_strand h⟩, ?_, ⟨_, ?_, gives_strand h d 1⟩, ⟨_, ?_, onward_strand h⟩, _, fxquery_answers h, fxqueryWord_free h y hb⟩
    · rw [exec_fxunbind, execFxunbind, State.x_strand h, hslot]
    · exact hstat ▸ fxstat_answers h
    · rw [exec_fxpin, execFxpin, State.x_strand h, hslot]
    · rw [exec_fxunpin, execFxunpin, State.x_strand h, hslot]
  case bound =>
    refine ⟨fxunbind_waits h hb, fxunbind_ends h hb, ⟨_, fxstat_answers h, fxstat_bits h hb⟩, ?_, ⟨fun hplace => ?_, fun hplace => ?_⟩, fxunpin_unpins h hb⟩
    · have hword := fxqueryWord_bound h y hb
      exact hword ▸ fxquery_answers h
    · exact fxpin_full h hb (Prod.ext hplace rfl)
    · exact fxpin_pins h hb (Prod.ext hplace rfl)

end Sys2Proof.Machine
end

section
/-! How an invocation starts, moves its flits and ends (R346 to R354): lemmas for the statement FabricRun, and its proof. -/

namespace Sys2Proof.Machine
open Sys2Proof

/-! ## fx (R346, R347, R353) -/

/-- The checks of fx that pass do so whatever its word is. -/
theorem fxChecks_word {s : State} {img : FxImage} {vd va vb : Reg} {w : Word} (hok : fxChecks s img vd va vb w = .ok ()) (w' : Word) :
    fxChecks s img vd va vb w' = .ok () := by
  unfold fxChecks at hok ⊢
  cases hgroups : groupsOk s.me ([(vd.toNat, s.grp)] ++ (if img.useA then [(va.toNat, s.grp)] else []) ++ (if img.useB then [(vb.toNat, s.grp)] else [])) with
  | error e => rw [check_error hgroups] at hok; nomatch hok
  | ok _ =>
    rw [check_ok hgroups] at hok
    refine (check_ok rfl).trans ?_
    cases hl : decide (s.ew ≠ 64)
    · rw [hl] at hok; nomatch hok
    · rfl

section
variable {s : State} {k : Nat} (h : s.actor = .strand k) {slot vd va vb xs : Reg} (cont : Bool) (w : Word)
include h

theorem block_upd : s.block = s.upd k (fun q => { q with wait := { q.wait with blocked := true } }) := by
  rw [State.block, setWait_strand h, waitOf_strand h]; rfl
theorem fx_busy (hbusy : (∃ i, sfind s.invs k = some i ∧ i.running = true) ∨ arrivalWaits s k = true) :
    fxInstr cont slot vd va vb xs w s = .next s.block := by
  simp only [fxInstr, State.key_strand h]
  refine congrArg Host.Outcome.next (if_pos (Bool.or_eq_true_iff.2 (hbusy.imp_left fun ⟨i, hi, hr⟩ => ?_)))
  rw [hi]; exact hr

omit h in
theorem fx_idle (hidle : ∀ i, sfind s.invs k = some i → i.running = false) (harrive : arrivalWaits s k = false) :
    ((sfind s.invs k).any (·.running) || arrivalWaits s k) = false := by
  rw [harrive, Bool.or_false]
  cases hi : sfind s.invs k with
  | none => rfl
  | some i => exact hidle i hi

section
variable (hidle : ∀ i, sfind s.invs k = some i → i.running = false) (harrive : arrivalWaits s k = false)
include hidle harrive

/-- The stop state of another slot goes first; the rest of an fx depends on what the slot is bound to then. -/
theorem fx_unbound {s0 : State} (hs0 : discardSlot s k slot.toNat = s0) (hactor : s0.actor = .strand k)
    (hnone : (s0.slotEntry (s0.strand k).e.asid slot.toNat).bound = none) :
    fxInstr cont slot vd va vb xs w s = .next (raise (arriveDeferred s0 k) ⟨.fabricUnbound, BitVec.ofNat 64 slot.toNat, 0⟩) := by
  simp only [fxInstr, State.key_strand h, fx_idle hidle harrive, hs0, State.me_strand hactor, hnone]
  rfl
theorem fx_checked {s0 : State} (hs0 : discardSlot s k slot.toNat = s0) (hactor : s0.actor = .strand k) {img : FxImage}
    (hbound : (s0.slotEntry (s0.strand k).e.asid slot.toNat).bound = some img) (hok : fxChecks s0 img vd va vb w = .ok ()) :
    fxInstr cont slot vd va vb xs w s = .next
      (if bindRunning s0 (bindKey (k / 3) (s0.strand k).e.asid slot.toNat) ∨
          (sfind s0.confs (confKeyOf s0 k (s0.strand k).e.asid slot.toNat)).any (fun q => !q.moving.isEmpty) then s0.block
       else
        let s1 := discardOther s0 k slot.toNat cont
        let r := placeConf s1 k s1.me.e.asid slot.toNat true
        if r.1 then (startInv r.2 k img slot.toNat cont vd va vb ((readX (s0.strand k).x xs).extractLsb' 0 32)).issue.block
        else fxFull r.2 k slot.toNat img cont) := by
  simp only [fxInstr, State.key_strand h, fx_idle hidle harrive, hs0, State.me_strand hactor, hbound, hok, core_strand hactor, State.x_strand hactor]
  rfl
end
end

theorem moving_iff {s : State} {key : Nat} : (sfind s.confs key).any (fun q => !q.moving.isEmpty) = true ↔ ∃ q, sfind s.confs key = some q ∧ q.moving ≠ [] := by
  cases sfind s.confs key <;> simp

/-- What a start leaves of its strand's wait. -/
theorem issue_block {u : State} {k : Nat} (h : u.actor = .strand k) : u.issue.block =
    (u.upd k (fun q => { q with wait := { q.wait with issued := true } })).upd k (fun q => { q with wait := { q.wait with blocked := true } }) := by
  have hissue : u.issue = u.upd k (fun q => { q with wait := { q.wait with issued := true } }) := by
    rw [State.issue, setWait_strand h, waitOf_strand h]; rfl
  rw [hissue]
  exact block_upd h
theorem startInv_actor (s : State) (k : Nat) (img : FxImage) (slot : Nat) (c : Bool) (vd va vb : Reg) (xs : Word) :
    (startInv s k img slot c vd va vb xs).actor = s.actor := by
  unfold startInv
  dsimp only
  split <;> split <;> rfl

/-! ## Ports and flits (R337, R348, R349) -/

section
variable {s : State} {k : Nat} {v : Env} (hv : fxEnv s k = some v)
include hv

section
variable (hstop : v.inv.stop = none)
include hstop

theorem flitTransfer_moves (c ch : Nat) : exec (.flitTransfer k c ch) s = .next (moveFlit s k v (16 * c + ch % 16)) := by
  rw [exec_flitTransfer, execFlitTransfer, hv]
  exact congrArg Host.Outcome.next (if_pos (by rw [hstop]; rfl))
theorem streamInput_delivers {portB : Bool} (huse : (if portB then v.img.useB else v.img.useA) = true) (hsent : (v.inv.port portB).eosSent = false)
    (htaken : (v.inv.port portB).eosTaken = false) (hroom : (v.inv.port portB).buf.length < 64) :
    exec (.streamInputDelivery k portB) s = .next (s.setInv k (active339 (v.inv.setPort portB ((v.inv.port portB).deliver (inLen (s.strand k))
      (vget s k (if portB then v.inv.vb else v.inv.va) (ewBits (s.strand k).vtype) (v.inv.port portB).next))))) := by
  have hready : (v.inv.port portB).ready = true := by rw [FxIn.ready, hsent, htaken, decide_eq_true hroom]; rfl
  rw [exec_streamInputDelivery, execStreamInputDelivery, hv]
  exact congrArg Host.Outcome.next (if_neg (by simp [hstop, huse, hready]))

section
variable {f : Flit} {rest : List Flit} (hout : v.inv.out = f :: rest) (heos : v.inv.outEos = false) (huse : v.img.useOut = true)
include hout heos huse

/-- The output port takes the next flit by its kind. -/
theorem streamOutput_takes : exec (.streamOutputTake k) s = .next
    (if f.kind = 1 then s.setInv k (active339 { v.inv with out := rest, outEos := true })
     else if f.kind = 2 then (s.setInv k { v.inv with stop := some { reason := 6 } }).setOff (.fabricStop k)
     else if vlmaxOf (s.strand k).vtype ≤ ((s.strand k).fxidx[2]).toNat then applyStop s k v { reason := 1 }
     else (vput (s.setInv k (active339 { v.inv with out := rest })) k v.inv.vd (ewBits (s.strand k).vtype) ((s.strand k).fxidx[2]).toNat
        (f.data.toNat % 2 ^ ewBits (s.strand k).vtype)).upd k (fun t => { t with fxidx := t.fxidx.set 2 (t.fxidx[2] + 1) })) := by
  rw [exec_streamOutputTake, execStreamOutputTake, hv]
  refine congrArg Host.Outcome.next ((if_neg (by simp [hstop, heos, huse])).trans ?_)
  rw [hout]
end

theorem fabricDeadlock_stops (hcount : 2 ^ 20 ≤ v.inv.count) (hstatus : (s.strand k).status ≠ .stopping) (harrive : arrivalWaits s k = false) :
    exec (.fabricDeadlock k) s = .next (applyStop s k v { reason := 4 }) := by
  have hdead : deadlocked s k v = true := by simp [deadlocked, hstop, hstatus]; exact hcount
  rw [exec_fabricDeadlock, execFabricDeadlock, hv]
  exact congrArg Host.Outcome.next (if_pos (by rw [hdead, harrive]; rfl))
theorem pageContext_loads {page : Nat} (hpage : page ∈ v.inv.loading) : exec (.pageContextLoadComplete k page) s = .next
    ((List.range 8).foldl (fun t j => match v.img.cell (8 * page + j) with
      | some g => ((upFrom g.blk0 (min 4 (g.cnt - g.blk0))).reverse).foldl (fun t b => fetchBlock k (8 * page + j) b g t) t
      | none => t) { s.updInv k (fun i => { i with loading := nsErase i.loading page }) with
        confs := sput s.confs (confKeyOf s k v.inv.asid v.inv.slot) { v.conf with loaded := nsInsert v.conf.loaded page } }) := by
  have hconfs : (s.updInv k (fun i => { i with loading := nsErase i.loading page })).confs = s.confs := by unfold State.updInv; split <;> rfl
  rw [exec_pageContextLoadComplete, execPageContextLoadComplete, hv]
  refine congrArg Host.Outcome.next ((if_neg (by simp [hstop, hpage])).trans ?_)
  rw [← hconfs] <;> rfl
theorem blockFetch_fetches {c : Nat} {g : FxCell} (hg : v.img.cell c = some g) (hload : c / 8 ∉ v.inv.loading) (hdone : cellDone s k c v.img = false)
    (hword : cellWordAt s k c = none) : exec (.blockFetchComplete k c) s = .next (fetchBlock k c ((s.cell (64 * k + c)).pc.toNat / 64) g s) := by
  rw [exec_blockFetchComplete, execBlockFetchComplete, hv]
  refine congrArg Host.Outcome.next ((if_neg (by simp [hstop, hload, hdone, hword])).trans ?_)
  rw [hg]
end

theorem fabricStop_applies {st : FxStop} (hst : v.inv.stop = some st) (harrive : st.reason < 4 ∨ arrivalWaits s k = false) :
    exec (.fabricStop k) s = .next (applyStop s k v st) := by
  rw [exec_fabricStop, execFabricStop, hv]
  simp only [hst]
  exact congrArg Host.Outcome.next (if_neg fun hw => harrive.elim (fun hlt => by omega) fun hn => by rw [hn] at hw; nomatch hw.2)

/-! ## INVOCATION_COMPLETE (R350) -/

end

theorem keepFrames_frame (s : State) (k : Nat) : { keepFrames s k with confs := s.confs } = s := by
  unfold keepFrames
  split <;> rfl
theorem dropInv_frame (s : State) (k : Nat) : { dropInv s k with confs := s.confs, cells := s.cells, invs := s.invs } = s :=
  (congrArg (fun t : State => { t with cells := s.cells, invs := s.invs }) (keepFrames_frame s k) :)
theorem dropInv_invs (s : State) (k : Nat) : sfind (dropInv s k).invs k = none := (sfind_sdel ..).trans (if_pos rfl)
theorem outputTail_frame (s : State) (k vd : Nat) : { outputTail s k vd with vregs := s.vregs } = s := by
  unfold outputTail
  dsimp only
  split
  · exact vputs_frame ..
  · rfl
/-- The elements of the output group from the output position on follow TA. -/
theorem vget_outputTail (s : State) (k vd : Nat) {i : Nat} (hi : i < vlmaxOf (s.strand k).vtype) :
    vget (outputTail s k vd) k vd (ewBits (s.strand k).vtype) i =
      if ((s.strand k).fxidx[2]).toNat ≤ i ∧ (s.strand k).vtype.getLsbD 5 then 0 else vget s k vd (ewBits (s.strand k).vtype) i := by
  by_cases hta : (s.strand k).vtype.getLsbD 5 = true
  · have htail : outputTail s k vd = vputs s k vd (ewBits (s.strand k).vtype)
        ((upFrom ((s.strand k).fxidx[2]).toNat (vlmaxOf (s.strand k).vtype - ((s.strand k).fxidx[2]).toNat)).map (fun i => (i, 0))) := if_pos hta
    rw [htail, vget_vputs_zeros _ _ _ (ewBits_dvd _)]
    exact if_congr (by rw [mem_upFrom, hta]; simp; omega) rfl rfl
  · have htail : outputTail s k vd = s := if_neg hta
    rw [htail, if_neg fun hc => hta hc.2]

/-- What the end of an invocation leaves of its strand (R350, R354). -/
def Strand.doneFx (p : Strand) (st : Dword) (x3 : Word) : Strand :=
  { (p.setVl (p.fxidx[2]).toNat) with vstart := 0, pc := p.pc + 4, wait := {}, fxidx := p.fxidx.set 3 x3, fxstat := st }

theorem fxstatOf_done (old : Dword) (slot page cell : Nat) (left : Bool) : (fxstatOf old slot 0 0 page cell false false left).toNat % 8 = 0 := by
  rw [fxstatOf, BitVec.toNat_ofNat]
  cases left <;> simp <;> omega

theorem arrivalWaits_none {s : State} {k : Nat} (hdef : (s.strand k).deferred = none) : arrivalWaits s k = false := by rw [arrivalWaits, hdef]
theorem arriveDeferred_none {s : State} {k : Nat} (hdef : (s.strand k).deferred = none) : arriveDeferred s k = s := by rw [arriveDeferred, hdef]

section
variable {s : State} {k : Nat} {v : Env} (hv : fxEnv s k = some v) (hdone : invComplete s k v = true) (hdef : (s.strand k).deferred = none)
include hv hdone hdef

theorem invocationComplete_ends : ∃ left, exec (.invocationComplete k) s = .next
    (arriveDeferred (fxDone (dropInv (recordEnd (if v.img.useOut then outputTail s k v.inv.vd else s) k v none 0 0 false false left) k) k) k) := by
  refine ⟨!v.inv.bufs.isEmpty || !v.inv.out.isEmpty || !v.inv.inA.buf.isEmpty || !v.inv.inB.buf.isEmpty, ?_⟩
  rw [exec_invocationComplete, execInvocationComplete, hv]
  exact congrArg Host.Outcome.next (if_pos (by rw [hdone, arrivalWaits_none hdef]; rfl))
end

theorem Strand.chainDone_none {p : Strand} (hc : p.chain = none) : p.chainDone = p := by rw [Strand.chainDone, hc]
/-- The end of an invocation of a strand that belongs to no chain record and has no deferred arrival. -/
theorem fxDone_strand {u : State} {k : Nat} (v : Env) (left : Bool) (hchain : (u.strand k).chain = none) (hdef : (u.strand k).deferred = none) :
    ∃ st x3, st.toNat % 8 = 0 ∧
      arriveDeferred (fxDone (dropInv (recordEnd u k v none 0 0 false false left) k) k) k =
        (dropInv (recordEnd u k v none 0 0 false false left) k).upd k (fun _ => (u.strand k).doneFx st x3) := by
  generalize hr : recordEnd u k v none 0 0 false false left = r
  obtain ⟨st, x3, hst, hstrand⟩ : ∃ st x3, st.toNat % 8 = 0 ∧ r.strand k = { u.strand k with fxidx := (u.strand k).fxidx.set 3 x3, fxstat := st } :=
    ⟨_, _, fxstatOf_done .., by rw [← hr, recordEnd, State.strand_upd_self]⟩
  have hdrop : (dropInv r k).strand k = r.strand k := by
    have hstrands : (dropInv r k).strands = r.strands := (congrArg State.strands (dropInv_frame r k) :)
    rw [State.strand, hstrands]; rfl
  have hend : fxDone (dropInv r k) k = (dropInv r k).upd k (fun _ => (u.strand k).doneFx st x3) := by
    rw [fxDone, State.upd, State.upd, hdrop, hstrand]
    refine congrArg ((dropInv r k).setStrand k) ((Strand.chainDone_none (by exact hchain)).trans ?_)
    rw [Vector.getElem_set_ne _ _ (by decide)]
    rfl
  refine ⟨st, x3, hst, ?_⟩
  rw [hend]
  refine arriveDeferred_none ?_
  rw [State.strand_upd_self]
  exact hdef

section
variable {s : State} {k : Nat} {v : Env} (hv : fxEnv s k = some v)
include hv

theorem invocationComplete_runs (hdone : invComplete s k v = true) (hdef : (s.strand k).deferred = none) (hchain : (s.strand k).chain = none) :
    let p := s.strand k
    Runs (.invocationComplete k) s (fun t =>
      (t.strand k).vl = vlStored p.vtype (p.fxidx[2]).toNat ∧ (t.strand k).vstart = 0 ∧ (t.strand k).pc = p.pc + 4 ∧ (t.strand k).x = p.x ∧
      sfind t.invs k = none ∧ (t.strand k).fxstat.toNat % 8 = 0 ∧ (∀ j, j ≠ k → t.strand j = s.strand j) ∧ t.mem = s.mem ∧
      ∀ i, i < vlmaxOf p.vtype → vget t k v.inv.vd (ewBits p.vtype) i =
        if v.img.useOut = true ∧ (p.fxidx[2]).toNat ≤ i ∧ p.vtype.getLsbD 5 then 0 else vget s k v.inv.vd (ewBits p.vtype) i) := by
  intro p
  obtain ⟨left, hexec⟩ := invocationComplete_ends hv hdone hdef
  generalize hu : (if v.img.useOut then outputTail s k v.inv.vd else s) = u at hexec
  have hframe : { u with vregs := s.vregs } = s := by
    rw [← hu]
    split
    · exact outputTail_frame ..
    · rfl
  have hstrand (j : Nat) : u.strand j = s.strand j := by
    have hs : u.strands = s.strands := (congrArg State.strands hframe :)
    rw [State.strand, hs]; rfl
  have hvget (i : Nat) (hi : i < vlmaxOf p.vtype) : vget u k v.inv.vd (ewBits p.vtype) i =
      if v.img.useOut = true ∧ (p.fxidx[2]).toNat ≤ i ∧ p.vtype.getLsbD 5 then 0 else vget s k v.inv.vd (ewBits p.vtype) i := by
    rw [← hu]
    split
    next huse => rw [vget_outputTail s k _ hi]; exact if_congr (by simp [huse, p]) rfl rfl
    next huse => exact (if_neg fun hc => huse hc.1).symm
  obtain ⟨st, x3, hst, hend⟩ := fxDone_strand (u := u) v left (by rw [hstrand]; exact hchain) (by rw [hstrand]; exact hdef)
  have hdrop := dropInv_frame (recordEnd u k v none 0 0 false false left) k
  have hinvs := dropInv_invs (recordEnd u k v none 0 0 false false left) k
  rw [hend, hstrand] at hexec
  refine ⟨_, hexec, ?_⟩
  generalize dropInv (recordEnd u k v none 0 0 false false left) k = r at hdrop hinvs
  have hothers (j : Nat) (hj : j ≠ k) : r.strand j = s.strand j := by
    have hs : r.strands = (recordEnd u k v none 0 0 false false left).strands := (congrArg State.strands hdrop :)
    rw [State.strand, hs, ← hstrand j]
    exact State.strand_upd_of_ne _ _ hj
  have hmem : r.mem = s.mem := (congrArg State.mem hdrop :).trans (congrArg State.mem hframe :)
  have hvregs : r.vregs = u.vregs := (congrArg State.vregs hdrop :)
  have hme := State.strand_upd_self r k (fun _ => p.doneFx st x3)
  generalize ht : r.upd k (fun _ => p.doneFx st x3) = t at hme
  have htvregs : t.vregs = u.vregs := by rw [← ht, State.upd_vregs, hvregs]
  refine ⟨by rw [hme]; rfl, by rw [hme]; rfl, by rw [hme]; rfl, by rw [hme]; rfl, by rw [← ht]; exact hinvs, by rw [hme]; exact hst,
    fun j hj => by rw [← ht, State.strand_upd_of_ne _ _ hj, hothers j hj], by rw [← ht]; exact hmem, fun i hi => ?_⟩
  rw [← hvget i hi]
  exact vget_congr (by rw [hme, hstrand]; rfl) htvregs _ _ _
end

/-- Settles O41: fx by whether its strand waits and its slot is bound, and each event by what it finds of the invocation. -/
theorem fabricRun : Obligations.FabricRun := by
  intro s k c ch slot vd va vb xs portB p n Does
  refine ⟨fun h => ?fx, fun v hv => ⟨fun hstop => ⟨?flit, ?input, ?output, ?deadlock, ?load, ?fetch⟩, fun st hst harrive => runs_eq (fabricStop_applies hv hst harrive),
    fun hdone hdef hchain => invocationComplete_runs hv hdone hdef hchain⟩⟩
  case flit => exact runs_eq (flitTransfer_moves hv hstop c ch)
  case input =>
    intro port huse hsent htaken hroom
    have hport : port = v.inv.port portB := rfl
    rw [hport] at hsent htaken hroom
    refine runs_eq ((streamInput_delivers hv hstop huse hsent htaken hroom).trans ?_)
    cases portB <;> rfl
  case output =>
    intro f rest hout heos huse at'
    have hexec := streamOutput_takes hv hstop hout heos huse
    refine ⟨fun hkind => runs_eq (hexec.trans (congrArg Host.Outcome.next (if_pos hkind))), fun hkind => ?token, fun hkind hfull => ?full,
      fun hkind hroom => ?element⟩
    case token =>
      exact ⟨_, hexec.trans (congrArg Host.Outcome.next ((if_neg (by omega)).trans (if_pos hkind))), (sfind_sput ..).trans (if_pos rfl), rfl⟩
    case full => exact runs_eq (hexec.trans (congrArg Host.Outcome.next ((if_neg (by omega)).trans ((if_neg (by omega)).trans (if_pos hfull)))))
    case element =>
      refine ⟨_, hexec.trans (congrArg Host.Outcome.next ((if_neg (by omega)).trans ((if_neg (by omega)).trans (if_neg (Nat.not_le.2 hroom))))), ?_⟩
      refine ⟨fun i hi => ?_, (sfind_sput ..).trans (if_pos rfl), ?_, fun j hj => State.strand_upd_of_ne _ _ hj, rfl⟩
      · refine (vget_congr ?_ (State.upd_vregs ..) _ _ _).trans ((vget_vput _ _ _ _ _ _ _ (ewBits_dvd _)).trans ?_)
        · rw [State.strand_upd_self]
        · rw [Nat.mod_mod]; rfl
      · rw [State.strand_upd_self]; rfl
  case deadlock => exact fun hcount hstatus harrive => runs_eq (fabricDeadlock_stops hv hstop hcount hstatus harrive)
  case load => exact fun page hpage => runs_eq (pageContext_loads hv hstop hpage)
  case fetch => exact fun g hg hload hdone hword => runs_eq (blockFetch_fetches hv hstop hg hload hdone hword)
  case fx =>
    intro waits Both
    have hwaits {t : State} (ht : t.actor = .strand k) : t.block = waits t := block_upd ht
    have hboth {P : Bool → Instr → Prop} (hP : ∀ cont i w, exec i s = fxInstr cont slot vd va vb xs w s → P cont i) : Both P :=
      ⟨hP false _ _ rfl, hP true _ _ rfl⟩
    refine ⟨fun hbusy => hboth fun cont i w hi => runs_eq (hi.trans ?busy), ?idle⟩
    case busy => rw [fx_busy h cont w hbusy, hwaits h]
    case idle =>
      intro hidle harrive s0 entry hactor hasid
      have ha : s0.actor = .strand k := hactor.trans h
      refine ⟨fun hnone => hboth fun cont i w hi => runs_eq (hi.trans (fx_unbound h cont w hidle harrive rfl ha (by rw [hasid]; exact hnone))), ?_⟩
      intro img w' hbound hok key busy
      have hexec (cont : Bool) (w : Word) := fx_checked h cont w (slot := slot) (xs := xs) hidle harrive rfl ha (by rw [hasid]; exact hbound) (fxChecks_word hok w)
      have hbusy : (bindRunning s0 (bindKey (k / 3) p.e.asid slot.toNat) = true ∨
          (sfind s0.confs (confKeyOf s0 k p.e.asid slot.toNat)).any (fun q => !q.moving.isEmpty) = true) ↔ busy := or_congr_right moving_iff
      rw [hasid] at hexec
      have hstarts (hb : ¬busy) (cont : Bool) (i : Instr) (w : Word) (hi : exec i s = fxInstr cont slot vd va vb xs w s) :
          let s1 := discardOther s0 k n cont
          let r := placeConf s1 k (s1.strand k).e.asid n true
          s1.actor = s.actor → r.2.actor = s.actor →
            (r.1 = true → Does i (waits ((startInv r.2 k img n cont vd va vb ((readX (s0.strand k).x xs).extractLsb' 0 32)).upd k
              (fun q => { q with wait := { q.wait with issued := true } })))) ∧
            (r.1 = false → Does i (fxFull r.2 k n img cont)) := by
        intro s1 r hs1 hr
        have hgo := (hi.trans (hexec cont w)).trans (congrArg Host.Outcome.next (if_neg (mt hbusy.1 hb)))
        have hme : (discardOther (discardSlot s k slot.toNat) k slot.toNat cont).me = s1.strand k := State.me_strand (hs1.trans h)
        have hplaced (hr1 : r.2.actor = .strand k) (xs : Word) : (startInv r.2 k img n cont vd va vb xs).issue.block =
            waits ((startInv r.2 k img n cont vd va vb xs).upd k (fun q => { q with wait := { q.wait with issued := true } })) :=
          issue_block ((startInv_actor ..).trans hr1)
        simp only [hme] at hgo
        exact ⟨fun hplace => runs_eq (hgo.trans (congrArg Host.Outcome.next ((if_pos hplace).trans (hplaced (hr.trans h) _)))),
          fun hplace => runs_eq (hgo.trans (congrArg Host.Outcome.next (if_neg (by rw [hplace]; exact Bool.false_ne_true))))⟩
      exact ⟨fun hb => hboth fun cont i w hi => runs_eq ((hi.trans (hexec cont w)).trans (congrArg Host.Outcome.next ((if_pos (hbusy.2 hb)).trans (hwaits ha)))),
        fun hb => ⟨hstarts hb false _ _ rfl, hstarts hb true _ _ rfl⟩⟩

end Sys2Proof.Machine
end

section
/-! PROOFS. A vwait with the same element armed twice (R292): what its two reads answer, and that VectorAtomic asks for the other. -/

namespace Sys2Proof.Machine
open Sys2Proof

/-- What an action answers, if it completes. -/
def answerOf {α : Type} (m : M α) (s : State) : Option α := match m s with | .ok a _ => some a | .error _ _ => none
/-- The state that an action leaves. -/
def leftBy {α : Type} (m : M α) (s : State) : State := match m s with | .ok _ u => u | .error _ u => u
theorem ok_of_answerOf {α : Type} {m : M α} {s : State} {a : α} (h : answerOf m s = some a) : m s = .ok a (leftBy m s) := by
  unfold answerOf leftBy at *
  cases hm : m s with
  | ok b u => simp_all
  | error x u => simp_all

/-- A strand whose vwait goes on, with three entries armed: for element 0, for element 1 and again for element 0. -/
def rewatching : Strand :=
  { vl := 2, vtype := 2, status := .running, e := { ptbase := 1, vwin := 0xC0 }, wait := { issued := true }
    watch := [⟨0, 0, 0, 0, false⟩, ⟨1, 0, 0, 0, false⟩, ⟨0, 0, 0, 0, false⟩] }
/-- Two gibibytes are mapped to the first one. Element 0 lies at the page table entry of the second gibibyte, element 1 in that gibibyte. -/
def rewatch : State :=
  { State.reset with
    strands := [(0, rewatching)]
    mem := [⟨0x2000, 0xFB⟩, ⟨0x2001, 0x01⟩, ⟨0x2008, 0xFB⟩, ⟨0x10000, 0x01⟩, ⟨0x10001, 0x20⟩]
    vregs := [(1, 0x4000000000002008)] }
/-- The read of the watched word of element i. -/
def rewatchRead (i : Nat) : M Nat :=
  watchRead rewatch 0 1 ((sfind ((rewatching.watch.map (·.elem)).zip rewatching.watch) i).getD ⟨i, 0, 0, 0, false⟩)
/-- The states before the first read, and after each. -/
def rewatched : Nat → State
  | 0 => (rewatch.upd 0 (fun t => { t with watch := rewatching.watch })).issue
  | n + 1 => leftBy (rewatchRead ([0, 1, 0].getD n 0)) (rewatched n)

/-- The walk for element 1 sets A of the entry that element 0 reads, so that its second read answers another value. -/
theorem rewatch_accesses : Accesses rewatchRead (rewatched 0) [0, 1, 0] [0xFB, 0, 0x1FB] (rewatched 3) := by
  have h0 : answerOf (rewatchRead 0) (rewatched 0) = some 0xFB := by decide +kernel
  have h1 : answerOf (rewatchRead 1) (rewatched 1) = some 0 := by decide +kernel
  have h2 : answerOf (rewatchRead 0) (rewatched 2) = some 0x1FB := by decide +kernel
  have a0 : (rewatched 1).actor = (rewatched 0).actor := by decide +kernel
  have a1 : (rewatched 2).actor = (rewatched 1).actor := by decide +kernel
  have a2 : (rewatched 3).actor = (rewatched 2).actor := by decide +kernel
  exact ⟨_, _, _, ok_of_answerOf h0, a0, rfl, _, _, _, ok_of_answerOf h1, a1, rfl, _, _, _, ok_of_answerOf h2, a2, rfl, rfl, rfl⟩
theorem rewatch_control : SameControl (rewatch.strand 0) ((rewatched 3).strand 0) := by
  refine ⟨?_, ?_, ?_, ?_, ?_, ?_⟩ <;> decide +kernel
/-- The old value that the vwait leaves in element 0 of its group. -/
def rewatchGives : Nat := match exec (.vwait 0 0 1 false true Msk.all) rewatch with | .next t => vget t 0 0 32 0 | _ => 0
theorem rewatchGives_eq : rewatchGives = 0x1FB := by decide +kernel

/-- Refutes O34: a strand may hold two armed entries for element 0 of a vwait that goes on, with one for element 1 between them. The two reads of
element 0 answer 0xFB and 0x1FB; the model leaves the last in the group, where the statement asks for the first. -/
theorem not_vectorAtomic : ¬ Obligations.VectorAtomic := by
  unfold Obligations.VectorAtomic
  intro h
  obtain ⟨-, h, -⟩ := h rewatch 0 0 0 1 false false true Msk.all 0 0 rfl (by decide +kernel)
  obtain ⟨-, -, -, -, -, -, -, -, -, -, -, h⟩ := h (by decide +kernel) (by decide +kernel) (by decide +kernel)
  obtain ⟨-, h⟩ := h rewatch rfl rfl rewatching.watch rewatch [0xFB, 0, 0x1FB] (rewatched 3)
    (by rw [if_pos (by decide +kernel)]; exact ⟨rfl, rfl⟩) rewatch_accesses rewatch_control
  obtain ⟨t, ht, -, h⟩ := h (by
    intro j x y hj hy
    have htargets : ∀ y ∈ rewatching.watch, y.target = 0 := by decide
    exact (htargets y (List.of_mem_zip (mem_of_sfind hy)).2).trans_le (Nat.zero_le x))
  obtain ⟨h, -⟩ := h
  have hgives := rewatchGives_eq
  unfold rewatchGives at hgives
  rw [ht] at hgives
  have hfirst := h 0 (by decide +kernel)
  exact absurd (hgives.symm.trans hfirst) (by decide +kernel)
end Sys2Proof.Machine
end

section
/-! SUPPORT. Accesses one after another (R276), the elements of a memory instruction (R183), and instructions that check their operands first (R112, R274). -/

namespace Sys2Proof.Machine
open Sys2Proof

/-! ## Accesses one after another -/

section
variable {α : Type} {acc : Nat → M α}

/-- Accesses that all answer run to the end, with the values in the order of the elements. -/
theorem upToStop_of_accesses {l : List Nat} {s u : State} {vs : List α} (h : Accesses acc s l vs u) : upToStop acc l s = .ok (l.zip vs, none) u := by
  induction l generalizing s vs with
  | nil => obtain ⟨rfl, rfl⟩ := h; rfl
  | cons i l ih =>
    obtain ⟨v, t, r, hv, -, rfl, hr⟩ := h
    have hone : attempt (acc i) s = .ok (.ok v) t := by rw [attempt, hv]
    exact (bindM_ok hone).trans (bindM_ok (ih hr))
theorem Accesses.actor {l : List Nat} {s u : State} {vs : List α} (h : Accesses acc s l vs u) : u.actor = s.actor := by
  induction l generalizing s vs with
  | nil => exact h.2 ▸ rfl
  | cons i l ih =>
    obtain ⟨v, t, r, -, ha, rfl, hr⟩ := h
    exact (ih hr).trans ha
theorem Accesses.length {l : List Nat} {s u : State} {vs : List α} (h : Accesses acc s l vs u) : vs.length = l.length := by
  induction l generalizing s vs with
  | nil => rw [h.1]; rfl
  | cons i l ih =>
    obtain ⟨v, t, r, -, -, rfl, hr⟩ := h
    rw [List.length_cons, List.length_cons, ih hr]
/-- The elements of accesses that have answered are all those of the list. -/
theorem Accesses.zip_fst {l : List Nat} {s u : State} {vs : List α} (h : Accesses acc s l vs u) : (l.zip vs).map (·.1) = l :=
  List.map_fst_zip h.length.ge
end

/-! ## The elements of a memory instruction (R183, R276) -/

section
variable {s : State} {k : Nat} (h : s.actor = .strand k)
include h

theorem body_elements (m : Msk) : s.body.filter (active s.me m) = elements (s.strand k) m false := by
  rw [processed_list h m, elements]
  exact List.filter_congr fun i _ => by simp
theorem undone_elements (m : Msk) : s.undone m = elements (s.strand k) m true := by
  rw [State.undone, elements, ← List.filter_filter, State.me_strand h]
  have hsplit := congrArg (List.filter (fun i => !(s.strand k).cm.getLsbD i)) (processed_list h m)
  rw [State.me_strand h, List.filter_filter, List.filter_filter] at hsplit
  rw [List.filter_filter]
  refine (List.filter_congr fun i _ => ?_).trans (hsplit.trans (List.filter_congr fun i _ => ?_))
  · rw [Bool.and_comm]
  · simp [Bool.and_comm]
theorem idxAddr_strand (a b : Reg) (i : Nat) : idxAddr s a b i =
    readX (s.strand k).x a + BitVec.ofNat 64 ((sfind s.latched i).getD (vget s k b.toNat (ewBits (s.strand k).vtype) i)) := by
  rw [idxAddr, State.x_strand h, State.key_strand h, State.ew, State.me_strand h]

theorem issue_strand : s.issue = s.upd k (fun q => { q with wait := { q.wait with issued := true } }) := by
  rw [State.issue, setWait_strand h, waitOf_strand h]; rfl
omit h in
theorem issue_actor (s : State) : s.issue.actor = s.actor := by
  unfold State.issue State.setWait
  split <;> rfl

/-! ## Ends of memory instructions (R183, R185) -/

omit h in
theorem accessEnds_upd (precise : Bool) (f : Strand → Strand) :
    AccessEnds s k precise f (s.upd k (fun p => f { p.onward with vstart := 0, cm := if precise then 0 else p.cm })) :=
  ⟨State.strand_upd_self .., fun _ hj => State.strand_upd_of_ne _ _ hj, rfl⟩
theorem donePrecise_strand : donePrecise s = .ok () (s.upd k (fun p => { p.onward with vstart := 0, cm := 0 })) := by
  rw [donePrecise, modifyM_apply, vdone_upd h]; rfl
end

/-! ## An instruction that checks its operands, and has nothing to do, or has -/

/-- What an instruction does that checks its operands first, and is through at once when it has nothing to process. -/
def checkedRun (c : Except Stop Unit) (idle : Bool) (nothing body : M Unit) : M Unit := do
  liftE c
  if idle then nothing else body

section
variable {s : State} {k : Nat} (h : s.actor = .strand k) {i : Instr} {c : Except Stop Unit} {nothing body : M Unit}
  (hi : exec i s = runInstr (checkedRun c s.idle nothing body) s)
include hi

theorem checked_illegal {w : Word} (hc : c = .error (.trap ⟨.illegalInstruction, w.zeroExtend 64, 0⟩)) :
    Runs i s (· = raise s ⟨.illegalInstruction, w.zeroExtend 64, 0⟩) :=
  runs_eq (hi.trans (runInstr_trap (bindM_error (liftE_error hc))))

variable (hc : c = .ok ())
include hc

theorem checked_idle {t : State} (hid : s.idle = true) (ht : nothing s = .ok () t) : exec i s = .next t :=
  hi.trans (runInstr_ok ((bindM_ok (liftE_ok hc)).trans ((congrFun (if_pos hid) s).trans ht)))
theorem checked_body {t : State} (hid : s.idle = false) (ht : body s = .ok () t) : exec i s = .next t :=
  hi.trans (runInstr_ok ((bindM_ok (liftE_ok hc)).trans ((congrFun (if_neg (by simp [hid])) s).trans ht)))
theorem checked_waits {t : State} (hid : s.idle = false) (ht : body s = .error .wait t) : exec i s = .next t.block :=
  hi.trans (runInstr_wait ((bindM_ok (liftE_ok hc)).trans ((congrFun (if_neg (by simp [hid])) s).trans ht)))
theorem checked_traps {t : State} {r : TrapInfo} (hid : s.idle = false) (ht : body s = .error (.trap r) t) : exec i s = .next (raise t r) :=
  hi.trans (runInstr_trap ((bindM_ok (liftE_ok hc)).trans ((congrFun (if_neg (by simp [hid])) s).trans ht)))
end

section
variable {s : State} {k : Nat} (h : s.actor = .strand k) {i : Instr} {c : Except Stop Unit} {body : M Unit}
include h

/-- A precise instruction with nothing to process is through, and leaves cm zero (R183, R185). -/
theorem precise_idle (hi : exec i s = runInstr (checkedRun c s.idle idlePrecise body) s) (hc : c = .ok ()) (hid : s.idle = true) :
    Runs i s (StrandBecomes s k { (s.strand k).onward with vstart := 0, cm := 0 }) :=
  ⟨_, checked_idle hi hc hid (donePrecise_strand h), becomes_upd ..⟩
/-- Any other is through (R183). -/
theorem plain_idle (hi : exec i s = runInstr (checkedRun c s.idle (modify vdone) body) s) (hc : c = .ok ()) (hid : s.idle = true) :
    Runs i s (StrandBecomes s k { (s.strand k).onward with vstart := 0 }) :=
  ⟨_, checked_idle hi hc hid rfl, by rw [vdone_strand h]; exact becomes_upd ..⟩
end

/-! ## The checks on a data group (R112, R274) -/

section
variable {s : State} {k : Nat} (h : s.actor = .strand k) {w : Nat} {v : Reg}
include h

theorem dataGroup_strand (w : Nat) : dataGroup s w = max 1 (grpRegs (s.strand k).vtype * w / ewBits (s.strand k).vtype) := by
  rw [dataGroup, State.grp, State.ew, State.me_strand h]
theorem dataLegal_strand (w : Nat) : dataLegal s w = decide (grpRegs (s.strand k).vtype * w ≤ 8 * ewBits (s.strand k).vtype) := by
  rw [dataLegal, State.grp, State.ew, State.me_strand h]

variable (hv : v.toNat % max 1 (grpRegs (s.strand k).vtype * w / ewBits (s.strand k).vtype) = 0 ∧
  v.toNat + max 1 (grpRegs (s.strand k).vtype * w / ewBits (s.strand k).vtype) ≤ (s.strand k).window)
include hv

theorem storeChecks_legal (word : Word) (ok : Bool) : storeChecks s word w v ok =
    legal (decide (grpRegs (s.strand k).vtype * w ≤ 8 * ewBits (s.strand k).vtype) && ok) word := by
  rw [storeChecks, check_ok, dataLegal_strand h]
  rw [State.me_strand h, dataGroup_strand h]
  exact groupsOk_ok (by simpa using hv)
theorem gatChecks_legal {b : Reg} (hb : b.toNat % grpRegs (s.strand k).vtype = 0 ∧ b.toNat + grpRegs (s.strand k).vtype ≤ (s.strand k).window) (word : Word) :
    gatChecks s word w v b = legal (decide (grpRegs (s.strand k).vtype * w ≤ 8 * ewBits (s.strand k).vtype)) word := by
  rw [gatChecks, check_ok, dataLegal_strand h]
  rw [State.me_strand h, dataGroup_strand h, State.grp, State.me_strand h]
  exact groupsOk_ok (by simpa using ⟨hv, hb⟩)
end

theorem legal_true {b : Bool} (hb : b = true) (w : Word) : legal b w = .ok () := if_pos hb
theorem legal_illegal {b : Bool} (hb : b = false) (w : Word) : legal b w = .error (.trap ⟨.illegalInstruction, w.zeroExtend 64, 0⟩) := by
  rw [hb]; exact legal_false w

end Sys2Proof.Machine
end

section
/-! PROOFS. Vector stores (R276, R283 to R287, R289): lemmas for the statement VectorStore, and its proof. -/

namespace Sys2Proof.Machine
open Sys2Proof

/-- The address of element i of an indexed access (R180, R287). -/
def indexedAddr (s : State) (k : Nat) (a b : Reg) (i : Nat) : Dword :=
  readX (s.strand k).x a + BitVec.ofNat 64 ((sfind s.latched i).getD (vget s k b.toNat (ewBits (s.strand k).vtype) i))
/-- Element i of vstf (R285): it is written, and its words, which are local, are set full. -/
def fillElem (s : State) (o sb : Bool) (w : Nat) (addr : Nat → Dword) (val : Nat → Nat) (i : Nat) : M Unit := do
  let t ← resolve s.ctx (addr i) (w / 8) .write i (i % 32)
  match t with
  | .loc f => do
    if o || sb then do
      homeReady s.ctx t (w / 8) (addr i) i
      atOnce (localWrite s.ctx f (w / 8) (val i) (addr i) i)
    else localWrite s.ctx f (w / 8) (val i) (addr i) i
    modify (fun s => { s with full := (upFrom (f / 4) (w / 32)).foldl nsInsert s.full })
  | _ => trapM .classViolation (addr i) i
/-- The state after a precise memory instruction of strand k that is through, its accesses having left u. -/
def through (u : State) (k : Nat) : State := u.upd k (fun p => { p.onward with vstart := 0, cm := 0 })

theorem through_ends (u : State) (k : Nat) : AccessEnds u k true id (through u k) ∧ (through u k).vregs = u.vregs := ⟨accessEnds_upd .., rfl⟩

theorem preciseRun_completes {k : Nat} {m : Msk} {idx : List Nat} {put after : Nat → M Unit} {s u t0 : State} {vs : List Unit}
    (hacc : Accesses put s.issue idx vs u) (hafter : after s.issue.vl u = .ok () t0) (ht0 : t0.actor = .strand k) :
    preciseRun m idx put after s = .ok () (through t0 k) :=
  (bindM_ok (upToStop_of_accesses hacc)).trans ((bindM_ok hafter).trans (donePrecise_strand ht0))

theorem specStall_waits {s : State} {k : Nat} (h : s.actor = .strand k) {task : Nat × Task} (htask : s.specTask k = some task) :
    specStall s.ctx s = .error .wait s := by
  simp only [specStall]
  rw [bindM_get, (ctx_strand h).1, htask]
  rfl

section
variable {s : State} {k : Nat} (h : s.actor = .strand k) {i : Instr} {c : Except Stop Unit} {body : M Unit}
  (hi : exec i s = runInstr (checkedRun c s.idle idlePrecise body) s) (hc : c = .ok ()) (hid : s.idle = false)
include h hi hc hid

omit h in
theorem store_ends {m : Msk} {idx : List Nat} {put after : Nat → M Unit} {s1 u t0 : State} {vs : List Unit}
    (hbody : body s = preciseRun m idx put after s1) (hacc : Accesses put s1.issue idx vs u) (hafter : after s1.issue.vl u = .ok () t0)
    (ht0 : t0.actor = .strand k) : Runs i s (fun t => AccessEnds t0 k true id t ∧ t.vregs = t0.vregs) :=
  ⟨_, checked_body hi hc hid (hbody.trans (preciseRun_completes hacc hafter ht0)), through_ends ..⟩
theorem store_stalls (hbody : body s = .error .wait s) :
    Runs i s (StrandBecomes s k { s.strand k with wait := { (s.strand k).wait with blocked := true } }) :=
  ⟨_, checked_waits hi hc hid hbody, block_strand h⟩
end

section
variable {s : State} {k : Nat} (h : s.actor = .strand k) {v a b : Reg} {o sb : Bool} {m : Msk} {ew : BitVec 2}
include h

/-! ## What each store does after its checks -/

theorem vst_runs : exec (.vst v a o sb m ew) s = runInstr (checkedRun (storeChecks s (wVst v a o sb m ew) (memBits ew) v true) s.idle idlePrecise (do
    specStores s.ctx ((elements (s.strand k) m true).map (unitAddr (readX (s.strand k).x a) (memBits ew))) (memBits ew / 8)
    preciseRun m (elements (s.strand k) m true) (fun i => putElem (o || sb) (memBits ew) (vget s k v.toNat (memBits ew) i) i
      (unitAddr (readX (s.strand k).x a) (memBits ew) i)) (fun _ => pure ()))) s := by
  rw [exec_vst, execVst, vstoreInstr, State.x_strand h, State.key_strand h, undone_elements h]; rfl
theorem vsts_runs : exec (.vsts v a b o sb m ew) s = runInstr (checkedRun (storeChecks s (wVsts v a b o sb m ew) (memBits ew) v true) s.idle idlePrecise (do
    specStores s.ctx ((elements (s.strand k) m true).map (strideAddr (readX (s.strand k).x a) (readX (s.strand k).x b))) (memBits ew / 8)
    preciseRun m (elements (s.strand k) m true) (fun i => putElem (o || sb) (memBits ew) (vget s k v.toNat (memBits ew) i) i
      (strideAddr (readX (s.strand k).x a) (readX (s.strand k).x b) i)) (fun _ => pure ()))) s := by
  rw [exec_vsts, execVsts, vstoreInstr, State.x_strand h, State.x_strand h, State.key_strand h, undone_elements h]; rfl
theorem notifyStore_runs (word : Word) (w : Nat) (addr : Nat → Dword) :
    notifyStore word w v addr m s = runInstr (checkedRun (storeChecks s word w v true) s.idle idlePrecise (do
      specStall s.ctx
      notifyCheck
      preciseRun m (elements (s.strand k) m true) (fun i => putElem true w (vget s k v.toNat w i) i (addr i)) (fun e => notifyAdd w s.vstart e))) s := by
  rw [notifyStore, State.key_strand h, undone_elements h]; rfl
theorem vsca_runs : exec (.vsca v a b o sb m ew) s = runInstr (checkedRun (gatChecks s (wVsca v a b o sb m ew) (memBits ew) v b) s.idle idlePrecise (do
    specStores s.ctx ((elements (s.strand k) m true).map (indexedAddr s k a b)) (memBits ew / 8)
    preciseRun m (elements (s.strand k) m true) (fun i => putElem (o || sb) (memBits ew) (vget s k v.toNat (memBits ew) i) i (indexedAddr s k a b i))
      (fun _ => pure ()))) s := by
  rw [exec_vsca, execVsca, State.key_strand h, undone_elements h, show idxAddr s a b = indexedAddr s k a b from funext (idxAddr_strand h a b)]
  rfl
theorem vstf_runs : exec (.vstf v a o sb m ew) s = runInstr (checkedRun (storeChecks s (wVstf v a o sb m ew) (memBits ew) v (decide (32 ≤ memBits ew))) s.idle idlePrecise (do
    specStall s.ctx
    preciseRun m (elements (s.strand k) m true) (fillElem s o sb (memBits ew) (unitAddr (readX (s.strand k).x a) (memBits ew)) (vget s k v.toNat (memBits ew)))
      (fun _ => pure ()))) s := by
  rw [exec_vstf, execVstf, State.key_strand h, State.x_strand h, undone_elements h]; rfl
theorem vstq_runs {ring : BitVec 3} (hname : vaName s (.queue (.ring ring)) (!s.idle) = .ok ()) :
    exec (.vstq ring a o sb m ew) s = runInstr (checkedRun (legal (dataLegal s (memBits ew)) (wVstq ring a o sb m ew)) s.idle idlePrecise (do
      liftV (vaWait s (.queue (.ring ring)) (memBits ew) (elements (s.strand k) m true))
      specStores s.ctx ((elements (s.strand k) m true).map (unitAddr (readX (s.strand k).x a) (memBits ew))) (memBits ew / 8)
      preciseRun m (elements (s.strand k) m true) (fun i => putElem (o || sb) (memBits ew) (queueElem s (.ring ring) 0 (memBits ew) i) i
        (unitAddr (readX (s.strand k).x a) (memBits ew) i)) (fun _ => pure ())
      modify (fun s => queuePop s (.ring ring) 1))) s := by
  rw [exec_vstq, execVstq, hname, State.x_strand h, undone_elements h]; rfl

/-! ## vscc (R289) -/

/-- Element i of vscc is checked: the region that its address names. -/
def linkCheck (s : State) (w : Nat) (addr : Nat → Dword) (i : Nat) : M Nat := do
  let t ← route s.ctx (addr i) (w / 8) .write i (i % 32)
  if t.cls ≠ .n then trapM .classViolation (addr i) i
  else
    homeReady s.ctx t (w / 8) (addr i) i
    let q ← get
    pure (linkPlace q (addr i) t / 256)
omit h in
theorem forbidClass_bind {α : Type} (bad : Cls → Bool) (t : Target) (ea : Dword) (e : Nat) (f : M α) :
    (forbidClass bad t ea e >>= fun _ => f) = if bad t.cls then trapM .classViolation ea e else f := by
  unfold forbidClass
  cases bad t.cls <;> rfl
omit h in
theorem linkCheck_eq (w : Nat) (addr : Nat → Dword) : (fun i => do
      let t ← route s.ctx (addr i) (w / 8) .write i (laneOf i)
      forbidClass (· != .n) t (addr i) i
      homeReady s.ctx t (w / 8) (addr i) i
      let s' ← get
      pure (linkPlace s' (addr i) t / 256)) = linkCheck s w addr := by
  funext i
  refine congrArg _ (funext fun t => ?_)
  rw [forbidClass_bind]
  simp only [bne_iff_ne]
/-- What vscc leaves when every element has been checked and those with a link are stored. -/
def conditional (s : State) (k : Nat) (c : BitVec 3) (named : List (Nat × Nat)) (t : State) : State :=
  maskUpdates (t.updMe (fun p => { p with links := (s.strand k).links.filter (fun x => !(named.any (fun q => q.2 == x))) })) Msk.all c
    (fun i => (s.strand k).cm.getLsbD i || (named.filter (fun q => (s.strand k).links.contains q.2)).any (fun q => q.1 == i))
/-- What vscc does after its checks, unless an element stops it. -/
theorem vscc_runs {c : BitVec 3} : ∃ body : M Unit,
    exec (.vscc v a b o sb c ew) s = runInstr (checkedRun (gatChecks s (wVscc v a b o sb c ew) (memBits ew) v b) s.idle idlePrecise body) s ∧
    ∀ s1 u t0 regions dones, specStores s.ctx ((elements (s.strand k) ⟨false, c⟩ true).map (indexedAddr s k a b)) (memBits ew / 8) s = .ok () s1 →
      Accesses (linkCheck s (memBits ew) (indexedAddr s k a b)) s1 (elements (s.strand k) ⟨false, c⟩ true) regions u →
      let named := (elements (s.strand k) ⟨false, c⟩ true).zip regions
      Accesses (fun i => storeNow s.ctx (indexedAddr s k a b i) (memBits ew / 8) (vget s k v.toNat (memBits ew) i) i (i % 32)) u
        ((named.filter (fun q => (s.strand k).links.contains q.2)).map (·.1)) dones t0 →
      body s = donePrecise (conditional s k c named t0) := by
  refine ⟨_, by rw [exec_vscc, execVscc, State.key_strand h, undone_elements h, show idxAddr s a b = indexedAddr s k a b from funext (idxAddr_strand h a b)]; rfl, ?_⟩
  intro s1 u t0 regions dones hspec hchecked named hstored
  refine (bindM_ok hspec).trans ?_
  rw [linkCheck_eq, bindM_ok (upToStop_of_accesses hchecked), State.me_strand h]
  exact bindM_ok (upToStop_of_accesses hstored)
end


theorem SameControl.afterPolicy {p q : Strand} (hsame : SameControl p q) (m : Msk) (i new old : Nat) : afterPolicy q m i new old = afterPolicy p m i new old := by
  obtain ⟨hvl, hvstart, hvtype, hm, -, -⟩ := hsame
  unfold Machine.afterPolicy Processed
  rw [hvl, hvstart, hvtype, hm]
theorem zip_any_snd {l : List Nat} {regions : List Nat} (hlen : regions.length = l.length) (x : Nat) :
    (l.zip regions).any (fun q => q.2 == x) = regions.contains x := by
  have hsnd : (l.zip regions).map (·.2) = regions := List.map_snd_zip hlen.le
  rw [List.contains_eq_any_beq, ← hsnd, List.any_map, hsnd]
  exact congrArg (List.any _) (funext fun q => BEq.comm)

section
variable {s : State} {k : Nat} (h : s.actor = .strand k) (hid : s.idle = false)
include h hid

/-- What vscc leaves: its mask names the stored elements, and those that a stop had found stored; the links of the regions named are gone. -/
theorem conditional_ends {c : BitVec 3} {l regions : List Nat} (hlen : regions.length = l.length) {t0 : State} (ht0 : t0.actor = .strand k)
    (hsame : SameControl (s.strand k) (t0.strand k)) :
    let t := through (conditional s k c (l.zip regions) t0) k
    let linked := (l.zip regions).filter (fun q => (s.strand k).links.contains q.2)
    donePrecise (conditional s k c (l.zip regions) t0) = .ok () t ∧ t.vregs = t0.vregs ∧
    (∀ d : Fin 8, ∀ j, ((t.strand k).m[d]).getLsbD j = if d.val = c.toNat ∧ c ≠ 0 ∧ j < vlmaxOf (s.strand k).vtype
      then afterPolicy (s.strand k) Msk.all j (if (s.strand k).cm.getLsbD j || linked.any (fun q => q.1 == j) then 1 else 0)
        ((s.strand k).m[d].getLsbD j).toNat == 1 else (s.strand k).m[d].getLsbD j) ∧
    AccessEnds t0 k true (fun q => { q with m := (t.strand k).m, links := (s.strand k).links.filter (fun r => !regions.contains r) }) t := by
  intro t linked
  have hcontrol := hsame
  obtain ⟨hvl, hvstart, hvtype, hm, -, -⟩ := hcontrol
  generalize hlinks : (s.strand k).links.filter (fun x => !((l.zip regions).any (fun q => q.2 == x))) = L
  have hL : (s.strand k).links.filter (fun r => !regions.contains r) = L := by rw [← hlinks]; simp only [zip_any_snd hlen]
  have hactor : (t0.updMe (fun p => { p with links := L })).actor = .strand k := ht0
  have hstrand : (t0.updMe (fun p => { p with links := L })).strand k = { t0.strand k with links := L } := by
    rw [State.updMe, State.key_strand ht0, State.strand_upd_self]
  have hnot : (t0.updMe (fun p => { p with links := L })).idle = false := by
    rw [State.not_idle_iff hactor, hstrand, hvl, hvstart]
    exact (State.not_idle_iff h).1 hid
  obtain ⟨M, hmask, hbits⟩ := maskUpdates_strand hactor Msk.all c (fun i => (s.strand k).cm.getLsbD i || linked.any (fun q => q.1 == i)) hnot
  have hcond : conditional s k c (l.zip regions) t0 = t0.upd k (fun p => { p with links := L, m := M }) := by
    unfold conditional
    rw [hlinks]
    refine hmask.trans ?_
    rw [State.updMe, State.key_strand ht0, State.upd_upd]
  have ht : t = (t0.upd k (fun p => { p with links := L, m := M })).upd k (fun p => { p.onward with vstart := 0, cm := 0 }) :=
    congrArg (through · k) hcond
  have htm : (t.strand k).m = M := by rw [ht, State.strand_upd_self, State.strand_upd_self]; rfl
  refine ⟨donePrecise_strand (by rw [hcond]; exact ht0), by rw [ht]; rfl, fun d j => ?_, ?_, fun j hj => ?_, by rw [ht]; rfl⟩
  · have hsame' : SameControl (s.strand k) ((t0.updMe (fun p => { p with links := L })).strand k) := by rw [hstrand]; exact hsame
    obtain ⟨-, -, htype, hmasks, -, -⟩ := id hsame'
    rw [htm, hbits d j, hsame'.afterPolicy, htype, hmasks]
    generalize ((s.strand k).cm.getLsbD j || linked.any (fun q => q.1 == j)) = bit
    cases bit <;> rfl
  · rw [htm, hL, ht, State.strand_upd_self, State.strand_upd_self]; rfl
  · rw [ht, State.strand_upd_of_ne _ _ hj, State.strand_upd_of_ne _ _ hj]
end


/-! ## The statement -/

/-- The data group of a memory instruction of strand k is aligned and lies in the window (R178, R274). -/
abbrev DataNamed (s : State) (k : Nat) (v : Reg) (w : Nat) : Prop :=
  v.toNat % max 1 (grpRegs (s.strand k).vtype * w / ewBits (s.strand k).vtype) = 0 ∧
  v.toNat + max 1 (grpRegs (s.strand k).vtype * w / ewBits (s.strand k).vtype) ≤ (s.strand k).window
/-- The index group of a memory instruction of strand k is aligned and lies in the window. -/
abbrev GroupNamed (s : State) (k : Nat) (b : Reg) : Prop :=
  b.toNat % grpRegs (s.strand k).vtype = 0 ∧ b.toNat + grpRegs (s.strand k).vtype ≤ (s.strand k).window

section
variable {s : State} {k : Nat} (h : s.actor = .strand k) (hid : s.idle = false) {v a b : Reg} {o sb : Bool} {m : Msk} {ew : BitVec 2}
  (hlegal : grpRegs (s.strand k).vtype * memBits ew ≤ 8 * ewBits (s.strand k).vtype) (hv : DataNamed s k v (memBits ew))
include h hid hlegal

theorem vstq_ends {ring : BitVec 3} (hready : VectorReadyFor s k [] (.queue (.ring ring)) (memBits ew) (· ∈ elements (s.strand k) m true)) {s1 u : State} {vs : List Unit}
    (hspec : specStores s.ctx ((elements (s.strand k) m true).map (unitAddr (readX (s.strand k).x a) (memBits ew))) (memBits ew / 8) s = .ok () s1)
    (hs1 : s1.actor = s.actor)
    (hacc : Accesses (fun i => putElem (o || sb) (memBits ew) (queueElem s (.ring ring) 0 (memBits ew) i) i
      (unitAddr (readX (s.strand k).x a) (memBits ew) i)) s1.issue (elements (s.strand k) m true) vs u) :
    Runs (.vstq ring a o sb m ew) s (fun t => ∃ q, AccessEnds u k true id q ∧ q.vregs = u.vregs ∧ t = queuePop q (.ring ring) 1) := by
  obtain ⟨-, hname, hreads⟩ := hready
  have hu : u.actor = .strand k := hacc.actor.trans ((issue_actor s1).trans (hs1.trans h))
  have hvaName : vaName s (.queue (.ring ring)) (!s.idle) = .ok () := by
    rw [hid]; exact vaName_reads fun q hq => by cases hq; exact ⟨hname, hreads hid⟩
  have hwait : liftV (vaWait s (.queue (.ring ring)) (memBits ew) (elements (s.strand k) m true)) s = .ok () s := by
    rw [vaWait_ok h (hreads hid) fun i hi => hi]; rfl
  have hrun := preciseRun_completes (m := m) hacc (after := fun _ => pure ()) rfl hu
  exact ⟨_, checked_body (vstq_runs h hvaName) (legal_true (by rw [dataLegal_strand h]; exact decide_eq_true hlegal) _) hid
    ((bindM_ok hwait).trans ((bindM_ok hspec).trans (bindM_ok hrun))), _, (through_ends u k).1, (through_ends u k).2, rfl⟩

include hv
omit hid in
theorem storeChecks_named (word : Word) {ok : Bool} (hok : ok = true) : storeChecks s word (memBits ew) v ok = .ok () := by
  rw [storeChecks_legal h hv, hok]; exact legal_true (by simpa using hlegal) _
omit hid in
theorem gatChecks_named (hb : GroupNamed s k b) (word : Word) : gatChecks s word (memBits ew) v b = .ok () := by
  rw [gatChecks_legal h hv hb]; exact legal_true (by simpa using hlegal) _
theorem notifyStore_ends {i : Instr} {word : Word} {addr : Nat → Dword} (hi : exec i s = notifyStore word (memBits ew) v addr m s)
    (htask : s.specTask k = none) {u0 u t0 : State} {vs : List Unit} (hcheck : notifyCheck s = .ok () u0) (hu0 : u0.actor = s.actor)
    (hsame : SameControl (s.strand k) (u0.strand k))
    (hacc : Accesses (fun i => putElem true (memBits ew) (vget s k v.toNat (memBits ew) i) i (addr i)) u0.issue (elements (s.strand k) m true) vs u)
    (hadd : notifyAdd (memBits ew) (s.strand k).vstart.toNat (s.strand k).vl.toNat u = .ok () t0) (ht0 : t0.actor = s.actor) :
    Runs i s (fun t => AccessEnds t0 k true id t ∧ t.vregs = t0.vregs) := by
  obtain ⟨hvl, -, -, -, -, -⟩ := hsame
  have hissued : u0.issue.vl = (s.strand k).vl.toNat := by
    rw [State.vl, State.me_strand ((issue_actor u0).trans (hu0.trans h)), issue_strand (hu0.trans h), State.strand_upd_self, ← hvl]
  refine store_ends (hi.trans (notifyStore_runs h _ _ _)) (storeChecks_named h hlegal hv _ rfl) hid
    ((bindM_ok (specStall_idle ((ctx_strand h).1.symm ▸ htask))).trans (bindM_ok hcheck)) hacc ?_ (ht0.trans h)
  rw [hissued, State.vstart, State.me_strand h]
  exact hadd
theorem vscc_ends (hb : GroupNamed s k b) {c : BitVec 3} {s1 u t0 : State} {regions : List Nat} {dones : List Unit}
    (hspec : specStores s.ctx ((elements (s.strand k) ⟨false, c⟩ true).map (indexedAddr s k a b)) (memBits ew / 8) s = .ok () s1) (hs1 : s1.actor = s.actor)
    (hchecked : Accesses (linkCheck s (memBits ew) (indexedAddr s k a b)) s1 (elements (s.strand k) ⟨false, c⟩ true) regions u) :
    let linked := ((elements (s.strand k) ⟨false, c⟩ true).zip regions).filter (fun q => (s.strand k).links.contains q.2)
    Accesses (fun i => storeNow s.ctx (indexedAddr s k a b i) (memBits ew / 8) (vget s k v.toNat (memBits ew) i) i (i % 32)) u
      (linked.map (·.1)) dones t0 → SameControl (s.strand k) (t0.strand k) →
    Runs (.vscc v a b o sb c ew) s (fun t => t.vregs = t0.vregs ∧
      (∀ d : Fin 8, ∀ j, ((t.strand k).m[d]).getLsbD j = if d.val = c.toNat ∧ c ≠ 0 ∧ j < vlmaxOf (s.strand k).vtype
        then afterPolicy (s.strand k) Msk.all j (if (s.strand k).cm.getLsbD j || linked.any (fun q => q.1 == j) then 1 else 0)
          ((s.strand k).m[d].getLsbD j).toNat == 1 else (s.strand k).m[d].getLsbD j) ∧
      AccessEnds t0 k true (fun q => { q with m := (t.strand k).m, links := (s.strand k).links.filter (fun r => !regions.contains r) }) t) := by
  intro linked hstored hsame
  have ht0 : t0.actor = .strand k := hstored.actor.trans (hchecked.actor.trans (hs1.trans h))
  obtain ⟨hdone, hends⟩ := conditional_ends h hid (c := c) hchecked.length ht0 hsame
  obtain ⟨body, hi, hbody⟩ := vscc_runs h (v := v) (a := a) (b := b) (o := o) (sb := sb) (ew := ew) (c := c)
  exact ⟨_, checked_body hi (gatChecks_named h hlegal hv hb _) hid ((hbody s1 u t0 regions dones hspec hchecked hstored).trans hdone), hends⟩
end

section
variable {s : State} {k : Nat} (h : s.actor = .strand k) {v a b : Reg} {o sb ret : Bool} {m : Msk} {c : BitVec 3} {ew : BitVec 2}
include h

omit h in
theorem vgatw_checks : ∃ body : M Unit, exec (.vgatw v a b o sb c ew) s =
    runInstr (checkedRun (gatChecks s (wVgatw v a b o sb c ew) (memBits ew) v b) s.idle (modify vdone) body) s :=
  ⟨_, rfl⟩
theorem groupsNamed (hv : GroupNamed s k v) (hb : GroupNamed s k b) : groupsOk s.me [(v.toNat, s.grp), (b.toNat, s.grp)] = .ok () := by
  rw [State.grp, State.me_strand h]
  exact groupsOk_ok (by simpa using ⟨hv, hb⟩)
theorem vamo_checks (hv : GroupNamed s k v) (hb : GroupNamed s k b) {i : Instr} {word : Word} {ok : Bool} {f : Nat → Nat → Nat → FRes}
    (hi : exec i s = vamo word ok f v a b ret m s) : ∃ body : M Unit,
    exec i s = runInstr (checkedRun (legal (decide (32 ≤ ewBits (s.strand k).vtype) && ok) word) s.idle idlePrecise body) s := by
  obtain ⟨body, hrun⟩ : ∃ body : M Unit, vamo word ok f v a b ret m s = runInstr (liftE (groupsOk s.me [(v.toNat, s.grp), (b.toNat, s.grp)]) >>=
    fun _ => checkedRun (legal (decide (32 ≤ s.ew) && ok) word) s.idle idlePrecise body) s := ⟨_, rfl⟩
  rw [groupsNamed h hv hb, State.ew, State.me_strand h] at hrun
  exact ⟨body, hi.trans hrun⟩
theorem vwait_checks (hv : GroupNamed s k v) (hb : GroupNamed s k b) : ∃ body : M Unit, exec (.vwait v a b o ret m) s =
    runInstr (checkedRun (legal (decide (32 ≤ ewBits (s.strand k).vtype)) (wVwait v a b o ret m)) s.idle idlePrecise body) s := by
  obtain ⟨body, hrun⟩ : ∃ body : M Unit, execVwait v a b o ret m s = runInstr (liftE (groupsOk s.me [(v.toNat, s.grp), (b.toNat, s.grp)]) >>=
    fun _ => checkedRun (legal (decide (32 ≤ s.ew)) (wVwait v a b o ret m)) s.idle idlePrecise body) s := ⟨_, rfl⟩
  rw [groupsNamed h hv hb, State.ew, State.me_strand h] at hrun
  exact ⟨body, hrun⟩
end

/-- An instruction whose only word is w takes ILLEGAL_INSTRUCTION with it. -/
theorem illegal_of_word {s : State} {i : Instr} {w : Word} (hw : encode i = some w) (hi : Runs i s (· = raise s ⟨.illegalInstruction, w.zeroExtend 64, 0⟩)) :
    Illegal i s := by
  intro w' hw'
  cases hw.symm.trans hw'
  exact hi

section
variable {s : State} {k : Nat} (h : s.actor = .strand k) {v a b : Reg} {o sb ret : Bool} {m : Msk} {c : BitVec 3} {ew : BitVec 2}
include h

/-! ## With nothing to process (R183, R185) -/

section
variable (hid : s.idle = true)
include hid

theorem vamo_idle (he : 32 ≤ ewBits (s.strand k).vtype) (hv : GroupNamed s k v) (hb : GroupNamed s k b) {i : Instr} {word : Word} {ok : Bool} (hok : ok = true)
    {f : Nat → Nat → Nat → FRes} (hi : exec i s = vamo word ok f v a b ret m s) :
    Runs i s (StrandBecomes s k { (s.strand k).onward with vstart := 0, cm := 0 }) := by
  obtain ⟨_, hbody⟩ := vamo_checks h hv hb hi
  exact precise_idle h hbody (legal_true (by simp [he, hok]) _) hid
theorem vstq_idle {ring : BitVec 3} (hlegal : grpRegs (s.strand k).vtype * memBits ew ≤ 8 * ewBits (s.strand k).vtype) (hname : queueName s (.ring ring) = .ok ()) :
    Runs (.vstq ring a o sb m ew) s (StrandBecomes s k { (s.strand k).onward with vstart := 0, cm := 0 }) := by
  have hvaName : vaName s (.queue (.ring ring)) (!s.idle) = .ok () := by rw [vaName, check_ok hname, hid]; rfl
  exact precise_idle h (vstq_runs h hvaName) (legal_true (by rw [dataLegal_strand h]; exact decide_eq_true hlegal) _) hid
end

/-! ## Forms that cannot be (R274) -/

section
variable (hlegal : 8 * ewBits (s.strand k).vtype < grpRegs (s.strand k).vtype * memBits ew)
include hlegal

theorem storeChecks_illegal (hv : DataNamed s k v (memBits ew)) (word : Word) (ok : Bool) :
    storeChecks s word (memBits ew) v ok = .error (.trap ⟨.illegalInstruction, word.zeroExtend 64, 0⟩) := by
  rw [storeChecks_legal h hv]; exact legal_illegal (by simp [hlegal]) _
theorem gatChecks_illegal (hv : DataNamed s k v (memBits ew)) (hb : GroupNamed s k b) (word : Word) :
    gatChecks s word (memBits ew) v b = .error (.trap ⟨.illegalInstruction, word.zeroExtend 64, 0⟩) := by
  rw [gatChecks_legal h hv hb]; exact legal_illegal (by simp [hlegal]) _
theorem vstq_illegal {ring : BitVec 3} (hnamed : VectorNamed s k [] (.queue (.ring ring))) : Illegal (.vstq ring a o sb m ew) s := by
  obtain ⟨-, hname, hslot⟩ := hnamed
  have hvaName : vaName s (.queue (.ring ring)) (!s.idle) = .ok () := by
    rw [vaName, check_ok hname]
    cases hid : s.idle with
    | true => rfl
    | false =>
      have hno := hslot hid
      refine (if_pos rfl).trans ?_
      match hready : queueReady s (.ring ring) 0 with
      | .ok _ => rfl
      | .error .wait => rfl
      | .error (.trap r) => exact absurd hready (hno r)
  refine illegal_of_word rfl (checked_illegal (vstq_runs h hvaName) (legal_illegal ?_ _))
  rw [dataLegal_strand h]
  exact decide_eq_false (Nat.not_le.2 hlegal)
end
end

/-- Settles O33: each store is a check of its operands followed by its accesses in order, and the clauses read off what those leave. -/
theorem vectorStore : Obligations.VectorStore := by
  unfold Obligations.VectorStore
  refine ⟨fun s k v a b ring o sb m c ew h hid => ⟨fun ⟨hlegal, hv⟩ => ?_, fun hlegal hready s1 hfree vs u hacc => ?_, fun ⟨hlegal, hv⟩ hb hb' s1 hfree => ?_⟩, ?_⟩
  · have hchecks (word : Word) {ok : Bool} (hok : ok = true) := storeChecks_named h hlegal hv word hok
    refine ⟨fun s1 hfree vs u hacc => ?_, fun s1 hfree vs u hacc => ?_, fun hw htask vs u hacc => ?_, fun htask vs u0 u t0 hcheck hu0 hsame => ⟨fun hacc hadd ht0 => ?_, fun hacc hadd ht0 => ?_⟩,
      fun hb hb' s1 hfree vs u hacc => ?_, fun task htask => ⟨fun hw => ?_, ?_, ?_⟩⟩
    · exact store_ends (vst_runs h) (hchecks _ rfl) hid (bindM_ok hfree.1) hacc rfl (hacc.actor.trans ((issue_actor s1).trans (hfree.2.trans h)))
    · exact store_ends (vsts_runs h) (hchecks _ rfl) hid (bindM_ok hfree.1) hacc rfl (hacc.actor.trans ((issue_actor s1).trans (hfree.2.trans h)))
    · exact store_ends (vstf_runs h) (hchecks _ (decide_eq_true hw)) hid (bindM_ok (specStall_idle ((ctx_strand h).1.symm ▸ htask))) hacc rfl (hacc.actor.trans ((issue_actor s).trans h))
    · exact notifyStore_ends h hid hlegal hv (exec_vstn.trans (by rw [execVstn, State.x_strand h]; rfl)) htask hcheck hu0 hsame hacc hadd ht0
    · exact notifyStore_ends h hid hlegal hv (exec_vstsn.trans (by rw [execVstsn, State.x_strand h, State.x_strand h]; rfl)) htask hcheck hu0 hsame hacc hadd ht0
    · exact store_ends (vsca_runs h) (gatChecks_named h hlegal hv ⟨hb, hb'⟩ _) hid (bindM_ok hfree.1) hacc rfl (hacc.actor.trans ((issue_actor s1).trans (hfree.2.trans h)))
    · exact store_stalls h (vstf_runs h) (hchecks _ (decide_eq_true hw)) hid (bindM_error (specStall_waits h htask))
    · exact store_stalls h (exec_vstn.trans (notifyStore_runs h _ _ _)) (hchecks _ rfl) hid (bindM_error (specStall_waits h htask))
    · exact store_stalls h (exec_vstsn.trans (notifyStore_runs h _ _ _)) (hchecks _ rfl) hid (bindM_error (specStall_waits h htask))
  · exact vstq_ends h hid hlegal hready hfree.1 hfree.2 hacc
  · intro lc n regions u t0 hchecked linked hstored hsame
    exact vscc_ends h hid hlegal hv ⟨hb, hb'⟩ hfree.1 hfree.2 hchecked hstored hsame
  · intro s k v a b ring o sb ret m c ew h
    refine ⟨fun hid => ⟨fun hlegal hv => ?_, fun hlegal hname => vstq_idle h hid hlegal hname, fun he hv hb => ?_⟩, fun hlegal hv => ?_, fun hlegal hnamed => vstq_illegal h hlegal hnamed, fun hw hv => ?_⟩
    · have hchecks (word : Word) {ok : Bool} (hok : ok = true) := storeChecks_named h (ew := ew) hlegal hv word hok
      simp only [List.forall_mem_cons]
      refine ⟨⟨?_, ?_, ?_, ?_, List.forall_mem_nil _⟩, fun hw => ?_, fun hb => ⟨⟨?_, ?_, List.forall_mem_nil _⟩, ?_⟩⟩
      · exact precise_idle h (vst_runs h) (hchecks _ rfl) hid
      · exact precise_idle h (vsts_runs h) (hchecks _ rfl) hid
      · exact precise_idle h (exec_vstn.trans (notifyStore_runs h _ _ _)) (hchecks _ rfl) hid
      · exact precise_idle h (exec_vstsn.trans (notifyStore_runs h _ _ _)) (hchecks _ rfl) hid
      · exact precise_idle h (vstf_runs h) (hchecks _ (decide_eq_true hw)) hid
      · exact precise_idle h (vsca_runs h) (gatChecks_named h hlegal hv hb _) hid
      · obtain ⟨_, hi, -⟩ := vscc_runs h (v := v) (a := a) (b := b) (o := o) (sb := sb) (ew := ew) (c := c)
        exact precise_idle h hi (gatChecks_named h hlegal hv hb _) hid
      · obtain ⟨_, hi⟩ := vgatw_checks (s := s) (v := v) (a := a) (b := b) (o := o) (sb := sb) (ew := ew) (c := c)
        exact plain_idle h hi (gatChecks_named h hlegal hv hb _) hid
    · simp only [List.forall_mem_cons]
      refine ⟨⟨?_, ?_, ?_, ?_, ?_, ?_, ?_, ?_, ?_, ?_, List.forall_mem_nil _⟩, fun hmode => ?_⟩
      · exact vamo_idle h hid he hv hb rfl exec_vamoadd
      · exact vamo_idle h hid he hv hb rfl exec_vamoand
      · exact vamo_idle h hid he hv hb rfl exec_vamoor
      · exact vamo_idle h hid he hv hb rfl exec_vamoxor
      · exact vamo_idle h hid he hv hb rfl exec_vamomin
      · exact vamo_idle h hid he hv hb rfl exec_vamomax
      · exact vamo_idle h hid he hv hb rfl exec_vamominn
      · exact vamo_idle h hid he hv hb rfl exec_vamomaxn
      · exact vamo_idle h hid he hv hb rfl exec_vamoswap
      · obtain ⟨_, hi⟩ := vwait_checks h hv hb (a := a) (o := o) (ret := ret) (m := m)
        exact precise_idle h hi (legal_true (decide_eq_true he) _) hid
      · exact vamo_idle h hid he hv hb (by rw [State.frmOk, State.me_strand h]; exact hmode) exec_vamofadd
    · have hchecks (word : Word) (ok : Bool) := storeChecks_illegal h (ew := ew) hlegal hv word ok
      simp only [List.forall_mem_cons]
      refine ⟨⟨?_, ?_, ?_, ?_, List.forall_mem_nil _⟩, ?_, fun hb => ⟨⟨?_, ?_, List.forall_mem_nil _⟩, ?_⟩⟩
      · exact illegal_of_word rfl (checked_illegal (vst_runs h) (hchecks _ _))
      · exact illegal_of_word rfl (checked_illegal (vsts_runs h) (hchecks _ _))
      · exact illegal_of_word rfl (checked_illegal (exec_vstn.trans (notifyStore_runs h _ _ _)) (hchecks _ _))
      · exact illegal_of_word rfl (checked_illegal (exec_vstsn.trans (notifyStore_runs h _ _ _)) (hchecks _ _))
      · exact illegal_of_word rfl (checked_illegal (vstf_runs h) (hchecks _ _))
      · exact illegal_of_word rfl (checked_illegal (vsca_runs h) (gatChecks_illegal h hlegal hv hb _))
      · obtain ⟨_, hi, -⟩ := vscc_runs h (v := v) (a := a) (b := b) (o := o) (sb := sb) (ew := ew) (c := c)
        exact illegal_of_word rfl (checked_illegal hi (gatChecks_illegal h hlegal hv hb _))
      · obtain ⟨_, hi⟩ := vgatw_checks (s := s) (v := v) (a := a) (b := b) (o := o) (sb := sb) (ew := ew) (c := c)
        exact illegal_of_word rfl (checked_illegal hi (gatChecks_illegal h hlegal hv hb _))
    · have hnarrow : ¬32 ≤ memBits ew := Nat.not_le.2 hw
      refine illegal_of_word rfl (checked_illegal (vstf_runs h) ((storeChecks_legal h (w := memBits ew) hv _ _).trans (legal_illegal ?_ _)))
      rw [decide_eq_false hnarrow, Bool.and_false]

end Sys2Proof.Machine
end

section
/-! SUPPORT. What translating and routing an access changes of a strand: its links and its wait (R132, R268). -/

namespace Sys2Proof.Machine
open Sys2Proof

/-- From s to t strands change in their links and waits alone, and the same agent acts. -/
def Steady (s t : State) : Prop := t.actor = s.actor ∧ ∀ j, ∃ l w, t.strand j = { s.strand j with links := l, wait := w }

theorem Steady.of_strands {s t : State} (ha : t.actor = s.actor) (ht : t.strands = s.strands) : Steady s t :=
  ⟨ha, fun j => ⟨(s.strand j).links, (s.strand j).wait, by unfold State.strand; rw [ht]⟩⟩
theorem Steady.refl (s : State) : Steady s s := .of_strands rfl rfl
theorem Steady.trans {s t u : State} (h : Steady s t) (g : Steady t u) : Steady s u := by
  refine ⟨g.1.trans h.1, fun j => ?_⟩
  obtain ⟨l, w, hl⟩ := h.2 j
  obtain ⟨m, v, hm⟩ := g.2 j
  exact ⟨m, v, by rw [hm, hl]⟩
theorem Steady.control {s t : State} (h : Steady s t) (j : Nat) : SameControl (s.strand j) (t.strand j) := by
  obtain ⟨l, w, hj⟩ := h.2 j
  rw [hj]
  exact ⟨rfl, rfl, rfl, rfl, rfl, rfl⟩
theorem CachesOnly.steady {s t : State} (h : CachesOnly s t) : Steady s t := by
  refine ⟨h.actor, fun j => ?_⟩
  obtain ⟨l, hl⟩ := h.2 j
  exact ⟨l, (s.strand j).wait, hl⟩
theorem setWait_steady (s : State) (w : Wait) : Steady s (s.setWait w) := by
  unfold State.setWait
  split
  next k _ =>
    refine ⟨rfl, fun j => ?_⟩
    rw [State.strand_upd]
    split
    next hj => exact ⟨_, w, by rw [hj]⟩
    next => exact ⟨(s.strand j).links, (s.strand j).wait, rfl⟩
  next => exact .of_strands rfl rfl
theorem joinHome_steady (s : State) (q : Request) (core w : Nat) : Steady s (joinHome s q core w) := by
  unfold joinHome
  simp only []
  split
  · exact .of_strands rfl rfl
  · split <;> exact .of_strands rfl rfl
theorem standAt_steady (c : Ctx) (pa : Nat) (ea : Dword) (s : State) : Steady s (standAt c pa ea s) := by
  unfold standAt
  extract_lets q region u
  have hu : Steady s u := by
    unfold u
    split
    · exact .refl s
    · exact (Steady.of_strands rfl rfl).trans (joinHome_steady (leaveHomes s q) ..)
  split
  · exact hu.trans (setWait_steady ..)
  · split
    · exact hu
    · exact hu.trans (.of_strands rfl rfl)
theorem servedAt_steady (c : Ctx) (region : Nat) (s : State) : Steady s (servedAt c region s) := by
  unfold servedAt
  split
  · split
    · exact (Steady.of_strands rfl rfl).trans (setWait_steady (leaveHomes s (c.request s)) _)
    · exact .refl s
  · split <;> exact .of_strands rfl rfl
theorem standOnLink_steady (c : Ctx) (n region : Nat) (ea : Dword) (s : State) : Steady s (standOnLink c n region ea s) := by
  unfold standOnLink
  split
  · exact setWait_steady ..
  · exact .of_strands rfl rfl
theorem homeWrite_steady (s : State) (w : Nat) (v : Word) : Steady s (homeWrite s w v) := by
  unfold homeWrite
  extract_lets u held t
  have hu : Steady s u := by
    unfold u
    split
    · exact (dropCopy_caches ..).steady
    · exact .refl s
  have ht : Steady s t := hu.trans (.of_strands rfl rfl)
  refine .trans ?_ ((breakLinks_caches ..).steady.trans (tellHost_caches ..).steady)
  split
  · exact ht.trans (extWrite_caches ..).steady
  · exact ht
theorem homeWriteN_steady {s t : State} {pa n v : Nat} (h : homeWriteN s pa n v = some t) : Steady s t := by
  unfold homeWriteN at h
  simp only [] at h
  split at h
  · simp only [Option.ite_none_left_eq_some, Option.some.injEq] at h
    rw [← h.2]
    exact homeWrite_steady ..
  · split at h <;> rw [← Option.some.inj h]
    · exact homeWrite_steady ..
    · exact (homeWrite_steady ..).trans (homeWrite_steady ..)

/-- Whether it ends or stops, a computation leaves strands as they were, but for links and waits. -/
def Steadies {α : Type} (m : M α) : Prop := ∀ s, Steady s (endState (m s))

section
variable {α β : Type}

theorem steadies_pure {x : α} : Steadies (pure x : M α) := Steady.refl
theorem steadies_trap {c : Cause} {ea : Dword} {e : Nat} : Steadies (trapM c ea e : M α) := Steady.refl
theorem steadies_wait : Steadies (waitM : M α) := Steady.refl
theorem steadies_modify {f : State → State} (hf : ∀ s, Steady s (f s)) : Steadies (modify f : M PUnit) := hf
theorem steadies_bind {m : M α} {f : α → M β} (hm : Steadies m) (hf : ∀ x, Steadies (f x)) : Steadies (m >>= f) := by
  intro s
  have h := hm s
  cases hr : m s with
  | ok x t => rw [bindM_ok hr]; rw [hr] at h; exact h.trans (hf x t)
  | error e t => rw [bindM_error hr]; rw [hr] at h; exact h
theorem steadies_get {f : State → M β} (hf : ∀ s, Steadies (f s)) : Steadies (get >>= f) := fun s => hf s s
theorem steadies_ite {p : Prop} [Decidable p] {m n : M α} (hm : Steadies m) (hn : Steadies n) : Steadies (if p then m else n) := by
  split
  · exact hm
  · exact hn
theorem steady_ite {p : Prop} [Decidable p] {m n : M α} {s : State} (hm : Steady s (endState (m s))) (hn : Steady s (endState (n s))) :
    Steady s (endState ((if p then m else n) s)) := by
  split
  · exact hm
  · exact hn
theorem Steadies.ok {m : M α} (h : Steadies m) {s t : State} {x : α} (hx : m s = .ok x t) : Steady s t := by
  have := h s
  rwa [hx] at this
end

section
variable {c : Ctx} {pa va : Nat} {ea : Dword} {e : Nat}

theorem homeFree_steadies : Steadies (homeFree c pa ea e) := by
  unfold homeFree
  refine steadies_get fun s => ?_
  split
  · exact steadies_bind (steadies_modify (servedAt_steady c _)) (fun _ => steadies_trap)
  · exact steadies_ite (steadies_modify (servedAt_steady c _)) (steadies_bind (steadies_modify (standAt_steady c pa ea)) fun _ => steadies_wait)
theorem overLink_steadies {cls : Cls} : Steadies (overLink c pa cls ea e) := by
  unfold overLink
  refine steadies_get fun s => ?_
  simp only []
  split
  · exact steadies_bind (steadies_modify (servedAt_steady c _)) (fun _ => steadies_trap)
  · split
    next n _ =>
      refine steadies_ite (steadies_bind (steadies_modify fun t => ?_) fun _ => steadies_pure) steadies_wait
      exact (Steady.of_strands (t := responded t n) rfl rfl).trans (servedAt_steady c _ _)
    next =>
      split
      · exact .refl
      next n _ =>
        refine steadies_ite steadies_pure (steadies_ite steadies_wait (steadies_ite ?_ ?_))
        · exact steadies_bind (steadies_modify fun _ => .of_strands rfl rfl) fun _ => steadies_pure
        · refine steadies_bind (steadies_modify fun t => ?_) fun _ => steadies_wait
          exact (Steady.of_strands (t := linkSend t n 1) rfl rfl).trans (standOnLink_steady ..)
theorem readEntry_steadies : Steadies (readEntry c pa ea e) := by
  unfold readEntry
  refine steadies_get fun s => steadies_ite steadies_trap (steadies_bind homeFree_steadies fun _ => steadies_get fun t => ?_)
  split
  · exact steadies_pure
  · exact steadies_trap
theorem walkEntry_steadies : Steadies (walkEntry c pa ea e) := by
  unfold walkEntry
  refine steadies_get fun s => ?_
  split
  · exact .refl
  · exact readEntry_steadies
theorem keepEntry_steadies {n : Nat} : Steadies (keepEntry c pa n) := steadies_modify fun s => by
  simp only []; split <;> exact .of_strands rfl rfl
theorem walkFrom_steadies (t lvl : Nat) : Steadies (walkFrom c va ea e t lvl) := by
  have first {f : Nat → M (Nat × Nat × Pte)} (hf : ∀ n, Steadies (f n)) : Steadies (walkEntry c (t + 8 * (if lvl = 3 then va / 2 ^ 39 % 8192 else va / 2 ^ (12 + 9 * lvl) % 512)) ea e >>= f) :=
    steadies_bind walkEntry_steadies hf
  induction lvl generalizing t with
  | zero =>
    refine first fun n => ?_
    simp only []
    refine steadies_ite (steadies_bind readEntry_steadies fun n0 => ?_) ?_
    · exact steadies_ite steadies_trap (steadies_ite steadies_trap (steadies_ite steadies_trap steadies_pure))
    · exact steadies_ite steadies_trap (steadies_ite steadies_trap steadies_pure)
  | succ l ih =>
    refine first fun n => ?_
    simp only []
    refine steadies_ite (steadies_bind readEntry_steadies fun n0 => ?_) ?_
    · exact steadies_ite steadies_trap (steadies_ite steadies_trap (steadies_ite steadies_trap steadies_pure))
    · refine steadies_ite steadies_trap (steadies_ite steadies_trap (steadies_ite ?_ ?_))
      · exact steadies_ite steadies_trap steadies_pure
      · exact steadies_bind keepEntry_steadies fun _ => ih _ fun hf => steadies_bind walkEntry_steadies hf
theorem tableOf_steadies : Steadies (tableOf c ea e) := by
  unfold tableOf
  split
  · exact steadies_pure
  · refine steadies_get fun s => steadies_bind walkEntry_steadies (fun n => steadies_ite steadies_trap (steadies_ite steadies_trap ?_))
    exact steadies_bind keepEntry_steadies fun _ => steadies_pure
theorem onWalker_steadies {α : Type} {m : M α} (hm : Steadies m) : Steadies (onWalker c va m) := by
  unfold onWalker
  refine steadies_get fun s => steadies_ite hm (steadies_ite steadies_wait fun t => ?_)
  have h := hm t
  cases hr : m t with
  | error r u =>
    rw [hr] at h
    cases r with
    | wait => exact h.trans (setWait_steady u _)
    | trap x => exact h
  | ok x u =>
    rw [hr] at h
    show Steady t (if u.waitOf.walk.isSome then u.setWait { u.waitOf with walk := none } else u)
    split
    · exact h.trans (setWait_steady u _)
    · exact h
theorem entryWritten_steady {α : Type} (x : α) (s : State) (pa n v : Nat) :
    Steady s (endState ((match homeWriteN s pa n v with | some t => (do set t; pure x) | none => pure x : M α) s)) := by
  cases hwrite : homeWriteN s pa n v with
  | some t => exact homeWriteN_steady hwrite
  | none => exact .refl s
theorem walk_steadies {acc : Acc} : Steadies (walk c va acc ea e) := by
  unfold walk
  refine steadies_bind tableOf_steadies fun top => steadies_bind (walkFrom_steadies _ _) fun r => ?_
  obtain ⟨lvl, at_, p⟩ := r
  simp only []
  exact steadies_ite steadies_trap fun s => steady_ite (entryWritten_steady _ s at_ 8 _) (.refl s)
theorem askHost_steadies {pasid page : Nat} {ats : Bool} : Steadies (askHost c pasid page ats ea e) := by
  unfold askHost
  refine steadies_get fun s => ?_
  simp only []
  split
  · refine steadies_ite steadies_wait (steadies_bind (steadies_modify fun t => (setWait_steady t _).trans (.of_strands rfl rfl)) fun _ => steadies_wait)
  · split
    · split
      · exact steadies_bind (steadies_modify fun _ => .of_strands rfl rfl) (fun _ => steadies_trap)
      · exact steadies_ite steadies_wait (steadies_bind (steadies_modify fun _ => .of_strands rfl rfl) fun _ => steadies_wait)
    · exact steadies_bind (steadies_modify fun _ => .of_strands rfl rfl) (fun _ => steadies_wait)
theorem throughEntry_steadies {t : TlbEntry} : Steadies (throughEntry c t va ea e) := by
  unfold throughEntry
  refine steadies_get fun s => ?_
  split
  · exact .refl
  · exact steadies_ite steadies_pure (steadies_ite overLink_steadies (steadies_ite steadies_pure steadies_pure))
theorem translate_steadies {acc : Acc} : Steadies (translate c va acc ea e) := by
  unfold translate
  refine steadies_get fun s => ?_
  simp only []
  split
  · split
    · exact steadies_ite (steadies_bind (steadies_modify fun _ => .of_strands rfl rfl) fun _ => askHost_steadies) throughEntry_steadies
    · exact askHost_steadies
  · split
    · refine steadies_ite steadies_trap (steadies_ite (steadies_bind (onWalker_steadies walk_steadies) fun t => ?_) throughEntry_steadies)
      exact steadies_bind (steadies_modify fun _ => .of_strands rfl rfl) fun _ => throughEntry_steadies
    · refine steadies_bind (onWalker_steadies walk_steadies) (fun t => steadies_ite ?_ throughEntry_steadies)
      exact steadies_bind (steadies_modify fun _ => .of_strands rfl rfl) fun _ => throughEntry_steadies
theorem checkVerdict_steadies : Steadies (checkVerdict c ea e) := by
  unfold checkVerdict
  refine steadies_get fun s => ?_
  split
  · exact steadies_ite (steadies_bind (steadies_modify fun t => setWait_steady t _) fun _ => steadies_trap) steadies_pure
  · exact .refl
theorem resolve_steadies {n lane : Nat} {acc : Acc} : Steadies (resolve c ea n acc e lane) := by
  unfold resolve
  refine steadies_get fun s => ?_
  simp only []
  split
  · exact .refl
  · split
    · exact .refl
    · refine steadies_ite steadies_trap (steadies_ite steadies_trap (steadies_ite (steadies_ite steadies_trap steadies_pure) (steadies_ite ?_ steadies_pure)))
      exact steadies_bind checkVerdict_steadies fun _ => translate_steadies
theorem route_steadies {n lane : Nat} {acc : Acc} : Steadies (route c ea n acc e lane) := by
  unfold route
  refine steadies_get fun s => ?_
  split
  · split
    · exact .refl
    · exact resolve_steadies
  · exact steadies_ite steadies_trap (steadies_bind resolve_steadies fun t => steadies_ite steadies_trap steadies_pure)

/-! ## The checks of a task in a chrysalis (R448) -/

theorem tryTrap_steadies {α : Type} {m : M α} (hm : Steadies m) : Steadies (tryTrap m) := by
  intro s
  have h := hm s
  unfold tryTrap
  cases hr : m s with
  | ok x t => rwa [hr] at h
  | error r t =>
    rw [hr] at h
    cases r <;> exact h
theorem classD_steadies {n : Nat} (l : List Dword) : Steadies (classD c n l) := by
  induction l with
  | nil => exact steadies_pure
  | cons ea l ih =>
    unfold classD
    refine steadies_bind (tryTrap_steadies route_steadies) fun r => ?_
    cases r with
    | ok g => exact steadies_ite steadies_pure ih
    | error x => exact ih
theorem specLoads_steadies {n : Nat} (l : List Dword) : Steadies (specLoads c l n) := by
  unfold specLoads
  refine steadies_get fun s => ?_
  split
  · exact steadies_bind (classD_steadies l) (fun b => steadies_ite steadies_wait steadies_pure)
  · exact .refl
end

end Sys2Proof.Machine
end

section
/-! PROOFS. Vector loads that complete (R274 to R278, R289): the group that they leave. -/

namespace Sys2Proof.Machine
open Sys2Proof

/-! ## What a load leaves in its group (R183, R186, R275) -/

theorem policy_tail {p : Strand} {m : Msk} {f : Nat → Option Nat} {i : Nat} (hstart : p.vstart.toNat ≤ i) (hi : p.vl.toNat ≤ i) :
    policy p m f i = if vtTa p.vtype then some 0 else none := by
  rw [policy, if_neg (Nat.not_lt.2 hstart), if_neg (Nat.not_lt.2 hi)]
/-- Below both ends, where the tail begins makes no difference. -/
theorem policy_vl {p : Strand} {m : Msk} {f : Nat → Option Nat} {i : Nat} {vl : BitVec 13} (hi : i < p.vl.toNat) (hvl : i < vl.toNat) :
    policy { p with vl := vl } m f i = policy p m f i := by
  simp only [policy, hi, hvl, if_true]
  rfl

section
variable {u : State} {k : Nat} (h : u.actor = .strand k) {v w : Nat} {m : Msk} {vals : List (Nat × Nat)} {n : Nat}
include h

theorem landLoad_whole (hn : n = (u.strand k).vl.toNat) (hlt : (u.strand k).vstart.toNat < (u.strand k).vl.toNat) :
    landLoad ⟨some v, w, none⟩ m vals n true u = vputs u k v w (updates (u.strand k) m (vlmaxOf (u.strand k).vtype) (sfind vals)) := by
  unfold landLoad updates
  simp only [State.me_strand h, State.key_strand h, State.vlmax, if_true, hn]
  refine congrArg _ (List.filterMap_congr fun i _ => ?_)
  split
  next hi => rw [policy_tail (by omega) hi]; split <;> rfl
  next => rfl
theorem landLoad_part : landLoad ⟨some v, w, none⟩ m vals n false u =
    vputs u k v w (updates (u.strand k) m (min n (vlmaxOf (u.strand k).vtype)) (sfind vals)) := by
  unfold landLoad updates
  simp only [State.me_strand h, State.key_strand h, State.vlmax, Bool.false_eq_true, if_false]
  refine congrArg _ (List.filterMap_congr fun i hi => if_neg ?_)
  have := List.mem_range.1 hi
  omega
/-- A load that ends at an element has the tail begin there. -/
theorem landLoad_trimmed (hstart : (u.strand k).vstart.toNat ≤ n) (hn : n ≤ (u.strand k).vl.toNat) : landLoad ⟨some v, w, none⟩ m vals n true u =
    vputs u k v w (updates { u.strand k with vl := BitVec.ofNat 13 n } m (vlmaxOf (u.strand k).vtype) (sfind vals)) := by
  unfold landLoad updates
  simp only [State.me_strand h, State.key_strand h, State.vlmax, if_true]
  refine congrArg _ (List.filterMap_congr fun i _ => ?_)
  have hvl : (BitVec.ofNat 13 n).toNat = n := by
    rw [BitVec.toNat_ofNat]
    exact Nat.mod_eq_of_lt (hn.trans_lt (u.strand k).vl.isLt)
  by_cases hi : n ≤ i
  · rw [if_pos hi, policy_tail (p := { u.strand k with vl := BitVec.ofNat 13 n }) (hstart.trans hi) (hvl.trans_le hi)]
    split <;> rfl
  · rw [if_neg hi, policy_vl (p := u.strand k) (vl := BitVec.ofNat 13 n) (by omega) (by omega)]
end

theorem vputs_actor (s : State) (k v w : Nat) (l : List (Nat × Nat)) : (vputs s k v w l).actor = s.actor :=
  (congrArg State.actor (vputs_frame s k v w l) :)
theorem vputs_back (s : State) (k v w : Nat) (l : List (Nat × Nat)) : { vputs s k v w l with strands := s.strands, vregs := s.vregs } = s := by
  have hframe := vputs_frame s k v w l
  generalize vputs s k v w l = z at hframe
  conv_rhs => rw [← hframe]
  rw [show s.strands = _ from (congrArg State.strands hframe).symm]
/-- A group that has been updated holds the results, under the policies. -/
theorem updates_written {u t : State} {k v w : Nat} {p : Strand} {m : Msk} {f : Nat → Option Nat} (hw : 4096 % w = 0)
    (hsame : SameControl p (u.strand k)) (hlt : p.vstart.toNat < p.vl.toNat)
    (hregs : t.vregs = (vputs u k v w (updates (u.strand k) m (vlmaxOf (u.strand k).vtype) f)).vregs) (hwin : (t.strand k).e.vwin = (u.strand k).e.vwin) :
    VectorWritesAs p u t k v w (vlmaxOf p.vtype) m (fun j => (f j).getD (vget u k v w j)) := by
  obtain ⟨hvl, hvstart, hvtype, -, -, -⟩ := id hsame
  refine ⟨fun j hj => ?_, fun c hc => ?_⟩
  · rw [vget_congr (s := vputs u k v w (updates (u.strand k) m (vlmaxOf (u.strand k).vtype) f)) (t := t) (by rw [hwin, vputs_strand]) hregs v w j,
      vget_updates_after _ _ _ _ hw (by rwa [hvtype]) (by rwa [hvl, hvstart]), hsame.afterPolicy]
  · rw [hregs]
    exact vputs_other _ _ _ _ _ _ fun q hq => hc q.1 (by have := updates_mem hq; rwa [hvtype] at this)
/-- A load that has updated its group is through: its elements hold what was read, under the policies. -/
theorem updates_through {u : State} {k v w : Nat} {p : Strand} {m : Msk} {f : Nat → Option Nat} {g : Strand → Strand} {precise : Bool} (hw : 4096 % w = 0)
    (hsame : SameControl p (u.strand k)) (hlt : p.vstart.toNat < p.vl.toNat) (hg : ∀ q, (g q).e.vwin = q.e.vwin) :
    let t := (vputs u k v w (updates (u.strand k) m (vlmaxOf (u.strand k).vtype) f)).upd k
      (fun q => g { q.onward with vstart := 0, cm := if precise then 0 else q.cm })
    VectorWritesAs p u t k v w (vlmaxOf p.vtype) m (fun j => (f j).getD (vget u k v w j)) ∧ AccessEnds u k precise g t := by
  have hstrand (j : Nat) : (vputs u k v w (updates (u.strand k) m (vlmaxOf (u.strand k).vtype) f)).strand j = u.strand j := vputs_strand ..
  have hback := vputs_back u k v w (updates (u.strand k) m (vlmaxOf (u.strand k).vtype) f)
  have hwritten {t : State} := updates_written (t := t) (m := m) (f := f) (v := v) hw hsame hlt
  generalize vputs u k v w (updates (u.strand k) m (vlmaxOf (u.strand k).vtype) f) = z at hstrand hback hwritten
  intro t
  have ht : t.strand k = g { (u.strand k).onward with vstart := 0, cm := if precise then 0 else (u.strand k).cm } := by
    rw [← hstrand k]; exact State.strand_upd_self ..
  exact ⟨hwritten rfl (by rw [ht, hg]; rfl), ht, fun j hj => (State.strand_upd_of_ne _ _ hj).trans (hstrand j), hback⟩

/-! ## Accesses whose answers are looked at in part -/

theorem accesses_of_map {α β : Type} {f : Nat → M α} {g : α → β} {l : List Nat} {s u : State} {vs : List β}
    (h : Accesses (fun i => do let r ← f i; pure (g r)) s l vs u) : ∃ rs, Accesses f s l rs u ∧ rs.map g = vs := by
  have one {i : Nat} {s t : State} {v : β} (hv : (f i >>= fun r => pure (g r)) s = .ok v t) : ∃ x, f i s = .ok x t ∧ g x = v := by
    cases hf : f i s with
    | error e z => rw [bindM_error hf] at hv; exact nomatch hv
    | ok x z =>
      rw [bindM_ok hf] at hv
      cases hv
      exact ⟨x, rfl, rfl⟩
  induction l generalizing s vs with
  | nil => exact ⟨[], h.imp (fun _ => rfl) id, h.1.symm⟩
  | cons i l ih =>
    obtain ⟨v, t, r, hv, ha, rfl, hr⟩ := h
    obtain ⟨rs, hrs, rfl⟩ := ih hr
    obtain ⟨x, hx, rfl⟩ := one hv
    exact ⟨x :: rs, ⟨x, t, rs, hx, ha, rfl, hrs⟩, rfl⟩
theorem sfind_zip_map {α β : Type} (g : α → β) (l : List Nat) (rs : List α) (j : Nat) : sfind (l.zip (rs.map g)) j = (sfind (l.zip rs) j).map g := by
  induction l generalizing rs with
  | nil => rfl
  | cons i l ih =>
    cases rs with
    | nil => rfl
    | cons r rs =>
      simp only [List.map_cons, List.zip_cons_cons, sfind, ih]
      split <;> rfl

/-! ## A trimming load after its checks (R275) -/

/-- The slot that a load reserves which fills a ring (R277). -/
def reserveOpt : Option (BitVec 3) → M (Option (BitVec 3 × Nat))
  | some n => do
    let c ← reserveSlot n
    pure (some (n, c))
  | none => pure none

/-- What a trimming load does after its checks, with something to process. -/
def trimBody (s : State) (w : Nat) (vd : Option Reg) (ring : Option (BitVec 3)) (addr : Nat → Dword) (elem : Nat → Dword → M (Nat × Bool)) (m : Msk)
    (check : Option (Nat → Dword → M Unit)) (idx : List Nat) : M Unit := do
  specLoads s.ctx (idx.map addr) (w / 8)
  let slot ← reserveOpt ring
  issueM
  let bad ← (match check with
    | some f => do
      let r ← upToStop (fun i => f i (addr i)) idx
      pure r.2
    | none => pure none)
  let r ← upToStop (fun i => elem i (addr i)) (idx.takeWhile (fun i => bad.all (fun p => i != p.1)))
  finishLoad ⟨vd.map (·.toNat), w, slot⟩ m idx (r.1.map (fun p => (p.1, p.2.1))) (check.isSome || r.1.any (·.2.2)) (r.2.or bad)
theorem runInstr_congr {m n : M Unit} {s : State} (h : m s = n s) : runInstr m s = runInstr n s := by unfold runInstr; rw [h]
theorem takeWhile_all (l : List Nat) : l.takeWhile (fun i => (none : Option (Nat × Stop)).all (fun p => i != p.1)) = l :=
  List.takeWhile_eq_self_iff.2 fun _ _ => rfl

section
variable {s : State} {w : Nat} {vd : Option Reg} {ring : Option (BitVec 3)} {addr : Nat → Dword} {elem : Nat → Dword → M (Nat × Bool)} {m : Msk}

theorem reserveOpt_bind {α : Type} (n : BitVec 3) (f : Option (BitVec 3 × Nat) → M α) :
    (reserveOpt (some n) >>= f) = (reserveSlot n >>= fun c => f (some (n, c))) := funext fun s => bindM_assoc (reserveSlot n) _ f s
theorem trimLoad_eq (word : Word) (ok : Bool) (check : Option (Nat → Dword → M Unit)) : trimLoad word w vd ring addr ok elem m check s =
    (liftE (match vd with | some v => groupsOk s.me [(v.toNat, dataGroup s w)] | none => .ok ()) >>= fun _ =>
      liftE (match ring with | some n => fillOk s n w | none => .ok ()) >>= fun _ =>
      checkedRun (legal (dataLegal s w && ok) word) s.idle (modify vdone) (trimBody s w vd ring addr elem m check (s.body.filter (active s.me m)))) s := by
  unfold trimBody
  cases ring with
  | none => cases vd <;> cases check <;> rfl
  | some n =>
    simp only [reserveOpt_bind]
    cases vd <;> cases check <;> rfl
theorem trimLoad_checks {word : Word} {ok : Bool} {check : Option (Nat → Dword → M Unit)}
    (hgroups : ∀ v, vd = some v → groupsOk s.me [(v.toNat, dataGroup s w)] = .ok ()) (hring : ∀ n, ring = some n → fillOk s n w = .ok ()) :
    runInstr (trimLoad word w vd ring addr ok elem m check) s =
      runInstr (checkedRun (legal (dataLegal s w && ok) word) s.idle (modify vdone) (trimBody s w vd ring addr elem m check (s.body.filter (active s.me m)))) s := by
  refine runInstr_congr ((trimLoad_eq word ok check).trans ((bindM_ok (liftE_ok ?_)).trans (bindM_ok (liftE_ok ?_))))
  · cases vd with
    | none => rfl
    | some v => exact hgroups v rfl
  · cases ring with
    | none => rfl
    | some n => exact hring n rfl

variable {idx : List Nat} {s1 s2 u : State} {slot : Option (BitVec 3 × Nat)} (hspec : specLoads s.ctx (idx.map addr) (w / 8) s = .ok () s1)
  (hslot : reserveOpt ring s1 = .ok slot s2)
include hspec

theorem trimBody_slot {e : Stop} (he : reserveOpt ring s1 = .error e u) {check : Option (Nat → Dword → M Unit)} :
    trimBody s w vd ring addr elem m check idx s = .error e u := (bindM_ok hspec).trans (bindM_error he)
include hslot
theorem trimBody_reads {r : List (Nat × (Nat × Bool)) × Option (Nat × Stop)} (hr : upToStop (fun i => elem i (addr i)) idx s2.issue = .ok r u) :
    trimBody s w vd ring addr elem m none idx s =
      finishLoad ⟨vd.map (·.toNat), w, slot⟩ m idx (r.1.map (fun p => (p.1, p.2.1))) (r.1.any (·.2.2)) r.2 u := by
  refine (bindM_ok hspec).trans ((bindM_ok hslot).trans ?_)
  have hlast : r.2.or none = r.2 := by cases r.2 <;> rfl
  rw [← takeWhile_all idx] at hr
  refine (bindM_ok hr).trans ?_
  rw [hlast]
  rfl
theorem trimBody_checked {f : Nat → Dword → M Unit} {c : List (Nat × Unit)} {r : List (Nat × (Nat × Bool))} {s3 : State}
    (hc : upToStop (fun i => f i (addr i)) idx s2.issue = .ok (c, none) s3) (hr : upToStop (fun i => elem i (addr i)) idx s3 = .ok (r, none) u) :
    trimBody s w vd ring addr elem m (some f) idx s = finishLoad ⟨vd.map (·.toNat), w, slot⟩ m idx (r.map (fun p => (p.1, p.2.1))) true none u := by
  rw [← takeWhile_all idx] at hr
  refine (bindM_ok hspec).trans ((bindM_ok hslot).trans ?_)
  have hbad : (upToStop (fun i => f i (addr i)) idx >>= fun r => pure r.2) s2.issue = .ok none s3 := bindM_ok hc
  exact (bindM_ok hbad).trans (bindM_ok hr)
end

/-! ## Loads that complete -/

theorem memBits_dvd (ew : BitVec 2) : 4096 % memBits ew = 0 := by revert ew; decide
theorem zip_map_fst (l : List Nat) (rs : List (Nat × Bool)) : (l.zip rs).map (fun p => (p.1, p.2.1)) = l.zip (rs.map (·.1)) := by
  rw [List.zip_map_right]; rfl
theorem accesses_map {α β : Type} {f : Nat → M α} {g : α → β} {l : List Nat} {s u : State} {vs : List α} (h : Accesses f s l vs u) :
    Accesses (fun i => do let r ← f i; pure (g r)) s l (vs.map g) u := by
  induction l generalizing s vs with
  | nil => exact ⟨by rw [h.1]; rfl, h.2⟩
  | cons i l ih =>
    obtain ⟨v, t, r, hv, ha, rfl, hr⟩ := h
    exact ⟨g v, t, r.map g, bindM_ok hv, ha, rfl, ih hr⟩

/-- A trimming load of strand k that is through: its group holds what was read, and its strand is as f makes it. -/
def GroupLoaded (p : Strand) (u : State) (k v w : Nat) (m : Msk) (precise : Bool) (g : Strand → Strand) (val : Nat → Option Nat) (t : State) : Prop :=
  VectorWritesAs p u t k v w (vlmaxOf p.vtype) m (fun j => (val j).getD (vget u k v w j)) ∧ AccessEnds u k precise g t

section
variable {s : State} {k : Nat} (h : s.actor = .strand k) (hid : s.idle = false) {v : Reg} {m : Msk} {u : State} (hu : u.actor = .strand k)
  (hsame : SameControl (s.strand k) (u.strand k))
include h hid hu hsame

theorem landed_through {w : Nat} (hw : 4096 % w = 0) (vals : List (Nat × Nat)) :
    GroupLoaded (s.strand k) u k v.toNat w m false id (sfind vals) (vdone (landLoad ⟨some v.toNat, w, none⟩ m vals u.vl true u)) := by
  obtain ⟨hvl, hvstart, -, -, -, -⟩ := id hsame
  have hlt := (State.not_idle_iff h).1 hid
  rw [landLoad_whole hu (by rw [State.vl, State.me_strand hu]) (by rwa [hvl, hvstart])]
  rw [vdone_strand ((vputs_actor ..).trans hu)]
  exact updates_through (precise := false) (g := id) hw hsame hlt fun _ => rfl
end

section
variable {s : State} {k : Nat} (h : s.actor = .strand k) (hid : s.idle = false) {v : Reg} {m : Msk} {word : Word} {w : Nat} {addr : Nat → Dword} {elem : Nat → Dword → M (Nat × Bool)}
  (hlegal : grpRegs (s.strand k).vtype * w ≤ 8 * ewBits (s.strand k).vtype) (hv : DataNamed s k v w) {i : Instr}
include h hlegal hv

omit hlegal in
theorem groupsOk_data : groupsOk s.me [(v.toNat, dataGroup s w)] = .ok () := by
  rw [State.me_strand h, dataGroup_strand h]
  exact groupsOk_ok (by simpa using hv)
include hid
/-- What a trimming load into a group does after its checks. -/
theorem groupLoad_runs {ok : Bool} (hok : ok = true) {check : Option (Nat → Dword → M Unit)} (hi : exec i s = runInstr (trimLoad word w (some v) none addr ok elem m check) s) {t : State}
    (hbody : trimBody s w (some v) none addr elem m check (elements (s.strand k) m false) s = .ok () t) : exec i s = .next t := by
  have hrun := hi.trans (trimLoad_checks (fun v' hv' => by cases hv'; exact groupsOk_data h hv) (fun n hn => nomatch hn))
  rw [body_elements h] at hrun
  exact checked_body hrun (legal_true (by rw [dataLegal_strand h, hok]; simpa using hlegal) _) hid hbody

variable (hw : 4096 % w = 0) {s1 u : State} (hspec : specLoads s.ctx ((elements (s.strand k) m false).map addr) (w / 8) s = .ok () s1) (hs1 : s1.actor = s.actor)
  (hsame : SameControl (s.strand k) (u.strand k)) {vs : List Nat}
include hw hspec hs1 hsame

theorem groupLoad_loads (hi : exec i s = runInstr (trimLoad word w (some v) none addr true elem m none) s)
    (hacc : Accesses (fun i => do let r ← elem i (addr i); pure r.1) s1.issue (elements (s.strand k) m false) vs u) :
    Runs i s (GroupLoaded (s.strand k) u k v.toNat w m false id (sfind ((elements (s.strand k) m false).zip vs))) := by
  obtain ⟨rs, hrs, rfl⟩ := accesses_of_map hacc
  have hu : u.actor = .strand k := hrs.actor.trans ((issue_actor s1).trans (hs1.trans h))
  refine ⟨_, groupLoad_runs h hid hlegal hv rfl hi ((trimBody_reads hspec rfl (upToStop_of_accesses hrs)).trans rfl), ?_⟩
  rw [← zip_map_fst]
  exact landed_through h hid hu hsame hw _
theorem groupLoad_checked {ok : Bool} (hok : ok = true) {f : Nat → Dword → M Unit} (hi : exec i s = runInstr (trimLoad word w (some v) none addr ok elem m (some f)) s) {fs : List Unit} {s2 : State}
    (hchecked : Accesses (fun i => f i (addr i)) s1.issue (elements (s.strand k) m false) fs s2)
    (hacc : Accesses (fun i => do let r ← elem i (addr i); pure r.1) s2 (elements (s.strand k) m false) vs u) :
    Runs i s (GroupLoaded (s.strand k) u k v.toNat w m false id (sfind ((elements (s.strand k) m false).zip vs))) := by
  obtain ⟨rs, hrs, rfl⟩ := accesses_of_map hacc
  have hu : u.actor = .strand k := hrs.actor.trans (hchecked.actor.trans ((issue_actor s1).trans (hs1.trans h)))
  refine ⟨_, groupLoad_runs h hid hlegal hv hok hi ((trimBody_checked hspec rfl (upToStop_of_accesses hchecked) (upToStop_of_accesses hrs)).trans rfl), ?_⟩
  rw [← zip_map_fst]
  exact landed_through h hid hu hsame hw _
end

/-! ## Precise loads (R276) -/

theorem SameControl.updates {p q : Strand} (hsame : SameControl p q) (m : Msk) (n : Nat) (f : Nat → Option Nat) : updates q m n f = updates p m n f := by
  obtain ⟨hvl, hvstart, hvtype, hm, -, -⟩ := hsame
  unfold Machine.updates policy active Strand.mask
  rw [hvl, hvstart, hvtype, hm]
theorem SameControl.symm {p q : Strand} (h : SameControl p q) : SameControl q p := by
  obtain ⟨h1, h2, h3, h4, h5, h6⟩ := h
  exact ⟨h1.symm, h2.symm, h3.symm, h4.symm, h5.symm, h6.symm⟩
theorem issue_control {s : State} {k : Nat} (h : s.actor = .strand k) : SameControl (s.strand k) (s.issue.strand k) := by
  rw [issue_strand h, State.strand_upd_self]
  exact ⟨rfl, rfl, rfl, rfl, rfl, rfl⟩
theorem SameControl.trans {p q r : Strand} (h : SameControl p q) (g : SameControl q r) : SameControl p r := by
  obtain ⟨h1, h2, h3, h4, h5, h6⟩ := h
  obtain ⟨g1, g2, g3, g4, g5, g6⟩ := g
  exact ⟨g1.trans h1, g2.trans h2, g3.trans h3, g4.trans h4, g5.trans h5, g6.trans h6⟩

section
variable {s0 u : State} {k : Nat} (h0 : s0.actor = .strand k) {p : Strand} (hbefore : SameControl p (s0.strand k)) (hafter : SameControl p (u.strand k))
  (hlt : p.vstart.toNat < p.vl.toNat)
include h0 hbefore hafter hlt

theorem preciseLoad_loads {v w : Nat} {b : Reg} {m : Msk} {idx vs : List Nat} {get : Nat → M Nat} (hw : 4096 % w = 0) (hacc : Accesses get s0.issue idx vs u) :
    ∃ t, preciseLoad v w b m idx get s0 = .ok () t ∧ GroupLoaded p u k v w m true (fun q => { q with latch := none }) (sfind (idx.zip vs)) t := by
  have hu : u.actor = .strand k := hacc.actor.trans ((issue_actor s0).trans h0)
  have hme : s0.issue.me = s0.issue.strand k := State.me_strand ((issue_actor s0).trans h0)
  have hissued : SameControl (u.strand k) (s0.issue.strand k) := hafter.symm.trans (hbefore.trans (issue_control h0))
  obtain ⟨-, -, hvtype, -, -, -⟩ := id hissued
  have hrun : preciseLoad v w b m idx get s0 = .ok () (vdone (((vputs u u.key v w (updates s0.issue.me m s0.issue.vlmax (sfind (idx.zip vs)))).updMe
      (fun t => { t with latch := none })).updMe (fun t => { t with cm := 0 }))) := (bindM_ok (upToStop_of_accesses hacc)).trans rfl
  refine ⟨_, hrun, ?_⟩
  rw [State.vlmax, hme, hissued.updates, hvtype, State.key_strand hu]
  have hz : (vputs u k v w (updates (u.strand k) m (vlmaxOf (u.strand k).vtype) (sfind (idx.zip vs)))).actor = .strand k := (vputs_actor ..).trans hu
  have hthrough := updates_through (f := sfind (idx.zip vs)) (m := m) (v := v) (g := fun q => { q with latch := none }) (precise := true) hw hafter hlt (fun _ => rfl)
  generalize vputs u k v w (updates (u.strand k) m (vlmaxOf (u.strand k).vtype) (sfind (idx.zip vs))) = z at hz hthrough
  have ht : vdone ((z.updMe (fun t => { t with latch := none })).updMe (fun t => { t with cm := 0 })) =
      z.upd k (fun q => { { q.onward with vstart := 0, cm := 0 } with latch := none }) := by
    have hz' : (z.updMe (fun t => { t with latch := none })).actor = .strand k := hz
    rw [vdone_upd hz', State.updMe, State.key_strand hz, State.upd_upd]
    rfl
  rw [ht]
  exact hthrough
end

section
variable {s : State} {k : Nat} (h : s.actor = .strand k) (hid : s.idle = false) {v a b : Reg} {o sb : Bool} {m : Msk} {ew : BitVec 2}
  (hlegal : grpRegs (s.strand k).vtype * memBits ew ≤ 8 * ewBits (s.strand k).vtype) (hv : DataNamed s k v (memBits ew)) (hb : GroupNamed s k b)
  {s1 u : State} {vs : List Nat} (hspec : specLoads s.ctx ((elements (s.strand k) m true).map (indexedAddr s k a b)) (memBits ew / 8) s = .ok () s1)
  (hs1 : s1.actor = s.actor) (hsame : SameControl (s.strand k) (u.strand k))
include h hid hlegal hv hb hspec hs1 hsame

theorem vgat_loads (hacc : Accesses (fun i => loadN s.ctx (indexedAddr s k a b i) (memBits ew / 8) i (i % 32)) s1.issue (elements (s.strand k) m true) vs u) :
    Runs (.vgat v a b o sb m ew) s (GroupLoaded (s.strand k) u k v.toNat (memBits ew) m true (fun q => { q with latch := none })
      (sfind ((elements (s.strand k) m true).zip vs))) := by
  obtain ⟨t, ht, hloaded⟩ := preciseLoad_loads (hs1.trans h) ((specLoads_steadies _).ok hspec |>.control k) hsame ((State.not_idle_iff h).1 hid) (v := v.toNat) (b := b) (m := m) (memBits_dvd ew) hacc
  have hi : exec (.vgat v a b o sb m ew) s = runInstr (checkedRun (gatChecks s (wVgat v a b o sb m ew) (memBits ew) v b) s.idle idlePrecise (do
      specLoads s.ctx ((elements (s.strand k) m true).map (indexedAddr s k a b)) (memBits ew / 8)
      preciseLoad v.toNat (memBits ew) b m (elements (s.strand k) m true) (fun i => loadN s.ctx (indexedAddr s k a b i) (memBits ew / 8) i (i % 32)))) s := by
    rw [exec_vgat, execVgat, undone_elements h, show idxAddr s a b = indexedAddr s k a b from funext (idxAddr_strand h a b)]
    rfl
  exact ⟨t, checked_body hi (gatChecks_named h hlegal hv hb _) hid ((bindM_ok hspec).trans ht), hloaded⟩

/-- Element i of vgl (R289): it is read at its home, and its region is linked while fewer than 64 are. -/
def linkElem (s : State) (k w : Nat) (addr : Nat → Dword) (i : Nat) : M Nat := do
  let t ← route s.ctx (addr i) (w / 8) .read i (i % 32)
  if t.cls ≠ .n then trapM .classViolation (addr i) i
  else
    if (s.specTask k).isSome then pure () else
      match t with
      | .loc f => cocoonFresh s.ctx f (w / 8) i
      | t => modify (fun q => forgetClean q q.core (w / 8) t)
    let x ← loadAt s.ctx t (addr i) (w / 8) i
    modify (fun q => q.updMe (fun p =>
      let r := linkPlace q (addr i) t / 256
      if p.links.contains r || decide (64 ≤ p.links.length) then p else { p with links := nsInsert p.links r }))
    pure x
theorem vgl_loads (hacc : Accesses (linkElem s k (memBits ew) (indexedAddr s k a b))
      (if s.waitOf.issued then s1.issue else (s1.upd k (fun q => { q with links := [] })).issue) (elements (s.strand k) m true) vs u) :
    Runs (.vgl v a b o sb m ew) s (GroupLoaded (s.strand k) u k v.toNat (memBits ew) m true (fun q => { q with latch := none })
      (sfind ((elements (s.strand k) m true).zip vs))) := by
  have hcontrol := (specLoads_steadies _).ok hspec |>.control k
  have hi : exec (.vgl v a b o sb m ew) s = runInstr (checkedRun (gatChecks s (wVgl v a b o sb m ew) (memBits ew) v b) s.idle idlePrecise (do
      specLoads s.ctx ((elements (s.strand k) m true).map (indexedAddr s k a b)) (memBits ew / 8)
      if s.waitOf.issued then pure () else modify (·.updMe (fun t => { t with links := [] }))
      preciseLoad v.toNat (memBits ew) b m (elements (s.strand k) m true) (linkElem s k (memBits ew) (indexedAddr s k a b)))) s := by
    rw [exec_vgl, execVgl, undone_elements h, show idxAddr s a b = indexedAddr s k a b from funext (idxAddr_strand h a b), State.key_strand h]
    simp only [forbidClass_bind, bne_iff_ne]
    rfl
  have hcleared (next : M Unit) : (if s.waitOf.issued then next else modify (·.updMe (fun t => { t with links := [] })) >>= fun _ => next) s1 =
      next (if s.waitOf.issued then s1 else s1.upd k (fun q => { q with links := [] })) := by
    split
    · rfl
    · rw [bindM_modify, State.updMe, State.key_strand (hs1.trans h)]
  obtain ⟨t, ht, hloaded⟩ := preciseLoad_loads (s0 := if s.waitOf.issued then s1 else s1.upd k (fun q => { q with links := [] })) (u := u) (k := k)
    (p := s.strand k) (by split <;> exact hs1.trans h)
    (by
      split
      · exact hcontrol
      · rw [State.strand_upd_self]; exact hcontrol) hsame
    ((State.not_idle_iff h).1 hid) (v := v.toNat) (b := b) (m := m) (memBits_dvd ew) (by split at hacc <;> split <;> [exact hacc; contradiction; contradiction; exact hacc])
  exact ⟨t, checked_body hi (gatChecks_named h hlegal hv hb _) hid ((bindM_ok hspec).trans ((hcleared _).trans ht)), hloaded⟩
end
end Sys2Proof.Machine
end

section
/-! PROOFS. vldb, vldp4 and the loads that fill a ring (R277 to R280). -/

namespace Sys2Proof.Machine
open Sys2Proof

theorem attempt_ok {α : Type} {m : M α} {s u : State} {x : α} (h : m s = .ok x u) : attempt m s = .ok (.ok x) u := by rw [attempt, h]
theorem sfind_const {α : Type} (l : List Nat) (x : α) (j : Nat) : sfind (l.map (fun i => (i, x))) j = if j ∈ l then some x else none := by
  induction l with
  | nil => rfl
  | cons i l ih =>
    simp only [List.map_cons, sfind, ih, List.mem_cons]
    by_cases hj : j = i
    · simp [hj]
    · simp [hj, Ne.symm hj]
theorem sfind_filterMap {α : Type} (g : Nat → Option α) (l : List Nat) (j : Nat) :
    sfind (l.filterMap (fun i => (g i).map (fun x => (i, x)))) j = if j ∈ l then g j else none := by
  induction l with
  | nil => rfl
  | cons i l ih =>
    rw [List.filterMap_cons]
    by_cases hj : j = i
    · subst hj
      cases hg : g j with
      | none => simp [ih, hg]
      | some x => simp [sfind]
    · cases hg : g i with
      | none => simp [ih, hj]
      | some x => simp [sfind, ih, hj, Ne.symm hj]

section
variable {s : State} {k : Nat} (h : s.actor = .strand k) (hid : s.idle = false) {v : Reg} {m : Msk} {u : State} (hu : u.actor = .strand k)
  (hsame : SameControl (s.strand k) (u.strand k))
include h hid hu hsame

theorem landed_precise {w : Nat} (hw : 4096 % w = 0) (vals : List (Nat × Nat)) :
    ∃ t, donePrecise (landLoad ⟨some v.toNat, w, none⟩ m vals s.vl true u) = .ok () t ∧ GroupLoaded (s.strand k) u k v.toNat w m true id (sfind vals) t := by
  obtain ⟨hvl, hvstart, -, -, -, -⟩ := id hsame
  have hlt := (State.not_idle_iff h).1 hid
  rw [landLoad_whole hu (by rw [State.vl, State.me_strand h, hvl]) (by rwa [hvl, hvstart])]
  exact ⟨_, donePrecise_strand ((vputs_actor ..).trans hu), updates_through (precise := true) (g := id) hw hsame hlt fun _ => rfl⟩
end

/-! ## vldb (R278, R279) -/

section
variable {s : State} {k : Nat} (h : s.actor = .strand k) {v a b : Reg} {o sb : Bool} {m : Msk} {ew : BitVec 2}
include h

/-- What vldb does after its checks, with something to process. -/
def broadcastBody (s : State) (w : Nat) (base : Dword) (v : Reg) (m : Msk) (l : List Nat) : M Unit := do
  issueM
  match l with
  | [] => do
    modify (landLoad { vd := some v.toNat, w := w, slot := none } m [] s.vl true)
    donePrecise
  | i :: t => do
    specLoads s.ctx [base] (w / 8)
    match ← attempt (vloadElem false w i base) with
    | .ok r => do
      modify (landLoad { vd := some v.toNat, w := w, slot := none } m ((i :: t).map (fun j => (j, r.1))) s.vl true)
      donePrecise
    | .error e => do
      if e == .wait then pure () else modify (landLoad { vd := some v.toNat, w := w, slot := none } m [] i false)
      stopPrecise m [] e
theorem vldb_runs (hv : DataNamed s k v (memBits ew)) : exec (.vldb v a o sb m ew) s =
    runInstr (checkedRun (legal (decide (grpRegs (s.strand k).vtype * memBits ew ≤ 8 * ewBits (s.strand k).vtype)) (wVldb v a o sb m ew)) s.idle idlePrecise
      (broadcastBody s (memBits ew) (readX (s.strand k).x a) v m (elements (s.strand k) m true))) s := by
  rw [exec_vldb, execVldb, ← dataLegal_strand h, ← undone_elements h, ← State.x_strand h]
  refine runInstr_congr ((bindM_ok (liftE_ok (groupsOk_data h hv))).trans ?_)
  rfl

variable (hid : s.idle = false) (hlegal : grpRegs (s.strand k).vtype * memBits ew ≤ 8 * ewBits (s.strand k).vtype) (hv : DataNamed s k v (memBits ew))
  {s1 u : State} {vs : List Nat} (hsame : SameControl (s.strand k) (u.strand k))
include hid hlegal hv hsame
theorem vldb_loads (hs1 : if elements (s.strand k) m true = [] then s1 = s.issue
      else specLoads s.ctx [readX (s.strand k).x a] (memBits ew / 8) s.issue = .ok () s1 ∧ s1.actor = s.actor)
    (hacc : Accesses (fun i => do let r ← vloadElem false (memBits ew) i (readX (s.strand k).x a); pure r.1) s1 ((elements (s.strand k) m true).take 1) vs u) :
    Runs (.vldb v a o sb m ew) s (GroupLoaded (s.strand k) u k v.toNat (memBits ew) m true id
      (fun j => if j ∈ elements (s.strand k) m true then (((elements (s.strand k) m true).take 1).zip vs).head?.map (·.2) else none)) := by
  have hlegal' := legal_true (decide_eq_true hlegal) (wVldb v a o sb m ew)
  have hrun := vldb_runs h (a := a) (o := o) (sb := sb) (m := m) hv
  cases hl : elements (s.strand k) m true with
  | nil =>
    rw [hl, if_pos rfl] at hs1
    rw [hl] at hacc hrun
    obtain ⟨-, rfl⟩ := hacc
    subst hs1
    obtain ⟨t, ht, hloaded⟩ := landed_precise h hid (v := v) (m := m) ((issue_actor s).trans h) hsame (memBits_dvd ew) []
    exact ⟨t, checked_body hrun hlegal' hid ht, hloaded⟩
  | cons i t =>
    rw [hl, if_neg (List.cons_ne_nil i t)] at hs1
    rw [hl] at hacc hrun
    obtain ⟨rs, hrs, rfl⟩ := accesses_of_map hacc
    have hu : u.actor = .strand k := hrs.actor.trans (hs1.2.trans h)
    obtain ⟨r, _, _, hr, -, rfl, rfl, rfl⟩ := hrs
    obtain ⟨t', ht, hloaded⟩ := landed_precise h hid (v := v) (m := m) hu hsame (memBits_dvd ew) ((i :: t).map (fun j => (j, r.1)))
    refine ⟨t', checked_body hrun hlegal' hid ((bindM_ok hs1.1).trans ((bindM_ok (attempt_ok hr)).trans ht)), ?_⟩
    rwa [show sfind ((i :: t).map (fun j => (j, r.1))) = fun j => if j ∈ i :: t then some r.1 else none from funext (sfind_const _ _)] at hloaded
end

/-! ## vldp4 (R281) -/

/-- Of rising elements, those that head their pair are the even ones, and the odd ones without their even neighbour. -/
theorem pairHeads_filter {l : List Nat} (hl : l.Pairwise (· < ·)) : pairHeads l = l.filter (fun i => decide (i % 2 = 0 ∨ i - 1 ∉ l)) := by
  induction l with
  | nil => rfl
  | cons i t ih =>
    obtain ⟨hi, ht⟩ := List.pairwise_cons.1 hl
    have hhead : i % 2 = 0 ∨ i - 1 ∉ i :: t := by
      refine (Nat.mod_two_eq_zero_or_one i).imp id fun hodd hmem => ?_
      rcases List.mem_cons.1 hmem with heq | hmem
      · omega
      · have := hi _ hmem; omega
    cases t with
    | nil => rw [pairHeads, List.filter_cons, if_pos (decide_eq_true hhead)]; rfl
    | cons j r =>
      obtain ⟨hj, -⟩ := List.pairwise_cons.1 ht
      have hij := hi j List.mem_cons_self
      have hrest (x : Nat) (hx : x ∈ j :: r) (hpair : ¬(i / 2 = j / 2 ∧ x = j)) : (x % 2 = 0 ∨ x - 1 ∉ i :: j :: r) ↔ (x % 2 = 0 ∨ x - 1 ∉ j :: r) := by
        have hle : j ≤ x := by
          rcases List.mem_cons.1 hx with rfl | hx
          · exact Nat.le_refl _
          · exact (hj x hx).le
        by_cases hodd : x % 2 = 0
        · simp [hodd]
        · have hne : x - 1 ≠ i := by
            intro h
            exact hpair ⟨by omega, by omega⟩
          simp [hodd, hne]
      have hstep : pairHeads (i :: j :: r) = if i / 2 = j / 2 then i :: (pairHeads (j :: r)).drop 1 else i :: pairHeads (j :: r) := rfl
      rw [hstep, List.filter_cons, if_pos (decide_eq_true hhead), ih ht]
      split
      next hpair =>
        have hjin : j % 2 = 0 ∨ j - 1 ∉ j :: r := by
          refine .inr fun hmem => ?_
          rcases List.mem_cons.1 hmem with heq | hmem
          · omega
          · have := hj _ hmem; omega
        have hjout : ¬(j % 2 = 0 ∨ j - 1 ∉ i :: j :: r) := by
          rintro (heven | hmem)
          · omega
          · exact hmem (by rw [show j - 1 = i by omega]; exact List.mem_cons_self)
        rw [List.filter_cons, if_pos (decide_eq_true hjin), List.filter_cons, if_neg (by simpa using hjout), List.drop_one, List.tail_cons]
        refine congrArg _ (List.filter_congr fun x hx => decide_eq_decide.2 (hrest x (List.mem_cons_of_mem _ hx) fun hxj => ?_).symm)
        have := hj x hx
        omega
      next hpair => exact congrArg _ (List.filter_congr fun x hx => decide_eq_decide.2 (hrest x hx fun hxj => hpair hxj.1).symm)
theorem elements_rising (p : Strand) (m : Msk) (precise : Bool) : (elements p m precise).Pairwise (· < ·) := List.pairwise_lt_range.filter _

section
variable {s : State} {k : Nat} (h : s.actor = .strand k) {v a b : Reg} {o sb : Bool} {m : Msk}
include h

/-- The step between the pairs of vldp4. -/
def pairStep (p : Strand) (b : Reg) : Dword := if b = 0 then 2 else readX p.x b
/-- What vldp4 does after its checks, with something to process. -/
def pairBody (s : State) (step : Dword) (addr : Nat → Dword) (v : Reg) (m : Msk) (idx : List Nat) : M Unit :=
  if step.getLsbD 0 then trapM .stride step s.vstart
  else do
    specLoads s.ctx ((pairHeads idx).map addr) 1
    issueM
    let r ← upToStop (fun i => vloadElem false 8 i (addr i)) (pairHeads idx)
    let vals := idx.filterMap (fun i => (r.1.find? (fun p => p.1 / 2 == i / 2)).map (fun p => (i, p.2.1 / 16 ^ (i % 2) % 16)))
    finishLoad { vd := some v.toNat, w := 8, slot := none } m idx vals (r.1.any (·.2.2)) r.2
theorem vldp4_runs (hv : DataNamed s k v 8) : exec (.vldp4 v a b o sb m) s =
    runInstr (checkedRun (legal (ewBits (s.strand k).vtype == 8) (wVldp4 v a b o sb m)) s.idle (modify vdone)
      (pairBody s (pairStep (s.strand k) b) (fun i => readX (s.strand k).x a + BitVec.ofNat 64 (i / 2) * (pairStep (s.strand k) b).sshiftRight 1) v m
        (elements (s.strand k) m false))) s := by
  rw [exec_vldp4, execVldp4, body_elements h, State.x_strand h, State.x_strand h, State.ew, State.me_strand h]
  refine runInstr_congr ((bindM_ok (liftE_ok ?_)).trans rfl)
  have := groupsOk_data h hv
  rwa [State.me_strand h] at this
end

section
variable {s : State} {k : Nat} (h : s.actor = .strand k) (hid : s.idle = false) {v a b : Reg} {o sb : Bool} {m : Msk}
  (hv : DataNamed s k v 8) (he : ewBits (s.strand k).vtype = 8)
include h hid hv he

theorem vldp4_stride (hodd : (pairStep (s.strand k) b).getLsbD 0 = true) :
    Runs (.vldp4 v a b o sb m) s (fun t => t = raise s ⟨.stride, pairStep (s.strand k) b, (s.strand k).vstart.toNat⟩) := by
  refine runs_eq (checked_traps (vldp4_runs h hv) (legal_true (by rw [he]; rfl) _) hid ((congrFun (if_pos hodd) s).trans ?_))
  rw [trapM_apply, State.vstart, State.me_strand h]
theorem vldp4_loads (heven : (pairStep (s.strand k) b).getLsbD 0 = false) {heads : List Nat}
    (hheads : heads = (elements (s.strand k) m false).filter (fun i => decide (i % 2 = 0 ∨ i - 1 ∉ elements (s.strand k) m false)))
    {addr : Nat → Dword} (haddr : addr = fun i => readX (s.strand k).x a + BitVec.ofNat 64 (i / 2) * (pairStep (s.strand k) b).sshiftRight 1)
    {s1 u : State} (hspec : specLoads s.ctx (heads.map addr) 1 s = .ok () s1) (hs1 : s1.actor = s.actor) (hsame : SameControl (s.strand k) (u.strand k)) {vs : List Nat}
    (hacc : Accesses (fun i => do let r ← vloadElem false 8 i (addr i); pure r.1) s1.issue heads vs u) :
    Runs (.vldp4 v a b o sb m) s (GroupLoaded (s.strand k) u k v.toNat 8 m false id (fun j => if j ∈ elements (s.strand k) m false then
      ((heads.zip vs).find? (fun q => q.1 / 2 == j / 2)).map (fun q => q.2 / 16 ^ (j % 2) % 16) else none)) := by
  obtain ⟨rs, hrs, rfl⟩ := accesses_of_map hacc
  have hu : u.actor = .strand k := hrs.actor.trans ((issue_actor s1).trans (hs1.trans h))
  have hpairs : pairHeads (elements (s.strand k) m false) = heads := (pairHeads_filter (elements_rising ..)).trans hheads.symm
  have hvals : sfind ((elements (s.strand k) m false).filterMap (fun i => ((heads.zip rs).find? (fun p => p.1 / 2 == i / 2)).map (fun p => (i, p.2.1 / 16 ^ (i % 2) % 16)))) =
      fun j => if j ∈ elements (s.strand k) m false then
        ((heads.zip (rs.map (·.1))).find? (fun q => q.1 / 2 == j / 2)).map (fun q => q.2 / 16 ^ (j % 2) % 16) else none := by
    funext j
    have hfound (j : Nat) : ((heads.zip (rs.map (·.1))).find? (fun q => q.1 / 2 == j / 2)) = ((heads.zip rs).find? (fun p => p.1 / 2 == j / 2)).map (fun p => (p.1, p.2.1)) := by
      rw [← zip_map_fst, List.find?_map]; rfl
    rw [hfound, Option.map_map, ← sfind_filterMap (fun j => ((heads.zip rs).find? (fun p => p.1 / 2 == j / 2)).map ((fun q => q.2 / 16 ^ (j % 2) % 16) ∘ fun p => (p.1, p.2.1)))]
    simp only [Option.map_map]
    rfl
  have hbody : pairBody s (pairStep (s.strand k) b) addr v m (elements (s.strand k) m false) s =
      finishLoad ⟨some v.toNat, 8, none⟩ m (elements (s.strand k) m false) ((elements (s.strand k) m false).filterMap (fun i =>
        ((heads.zip rs).find? (fun p => p.1 / 2 == i / 2)).map (fun p => (i, p.2.1 / 16 ^ (i % 2) % 16)))) ((heads.zip rs).any (·.2.2)) none u := by
    refine (congrFun (if_neg (by rw [heven]; decide)) s).trans ?_
    rw [hpairs]
    exact (bindM_ok hspec).trans (bindM_ok (upToStop_of_accesses hrs))
  subst haddr
  refine ⟨_, checked_body (vldp4_runs h hv) (legal_true (by rw [he]; rfl) _) hid (hbody.trans rfl), ?_⟩
  rw [← hvals]
  exact landed_through h hid hu hsame (by decide) _
end

/-! ## Loads that fill a ring (R193, R194, R277, R280) -/

section
variable {s : State} {k : Nat} (h : s.actor = .strand k) {ring : BitVec 3}
include h

theorem reserveSlot_held {c : Nat} (hc : (s.ring k ring).unlanded.find? (fun q => q.2 == k) = some (c, k)) : reserveSlot ring s = .ok c s := by
  unfold reserveSlot
  rw [bindM_get, State.key_strand h, hc]
  rfl
theorem reserveSlot_next (hnone : (s.ring k ring).unlanded.find? (fun q => q.2 == k) = none) (hroom : ringRoom s ring = .ok ()) :
    reserveSlot ring s = .ok (s.ring k ring).tail.toNat
      (s.setRing k ring { s.ring k ring with tail := (s.ring k ring).tail + 1, unlanded := sput (s.ring k ring).unlanded (s.ring k ring).tail.toNat k }) := by
  unfold reserveSlot
  rw [bindM_get, State.key_strand h, hnone]
  exact bindM_ok (liftE_ok hroom)
theorem reserveSlot_full (hnone : (s.ring k ring).unlanded.find? (fun q => q.2 == k) = none) (hfull : (s.ring k ring).slots ≤ (s.ring k ring).used) :
    reserveSlot ring s = .error (if s.trio k then .wait else .trap ⟨.ringFault, BitVec.ofNat 64 ring.toNat, 0⟩) s := by
  have hroom : ringRoom s ring = .error (if s.trio k then .wait else .trap ⟨.ringFault, BitVec.ofNat 64 ring.toNat, 0⟩) := by
    unfold ringRoom
    simp only [State.key_strand h]
    rw [if_neg (Nat.not_lt.2 hfull)]
    cases s.trio k <;> rfl
  unfold reserveSlot
  rw [bindM_get, State.key_strand h, hnone]
  exact bindM_error (liftE_error hroom)
end
theorem landLoad_actor (d : LoadDst) (m : Msk) (vals : List (Nat × Nat)) (n : Nat) (whole : Bool) (s : State) : (landLoad d m vals n whole s).actor = s.actor := by
  unfold landLoad
  extract_lets t ups s' 
  have hs' : s'.actor = s.actor := by
    unfold s'
    split
    · exact vputs_actor ..
    · rfl
  split
  · exact hs'
  next r c hslot =>
    extract_lets g a image z
    have hz : z.actor = s.actor := (ringFill_actor ..).trans hs'
    split
    · exact hz
    · exact hz

section
variable {s : State} {k : Nat} (h : s.actor = .strand k) (hid : s.idle = false) {ring : BitVec 3} {v a : Reg} {o sb : Bool} {m : Msk} {ew : BitVec 2}
  (hlegal : grpRegs (s.strand k).vtype * memBits ew ≤ 8 * ewBits (s.strand k).vtype) (hname : queueName s (.ring ring) = .ok ())
  (hsize : (s.strand k).vl.toNat * memBits ew / 8 ≤ (s.ring k ring).slotBytes)
include h hid hlegal hname hsize

omit hid hlegal in
theorem fillOk_named : fillOk s ring (memBits ew) = .ok () := by
  unfold fillOk
  rw [check_ok hname]
  exact if_pos (by rwa [State.vl, State.me_strand h, State.key_strand h])

/-- What a load that fills a ring does after its checks. -/
theorem ringLoad_runs {i : Instr} {word : Word} {vd : Option Reg} (hvd : ∀ v', vd = some v' → DataNamed s k v' (memBits ew))
    (hi : exec i s = runInstr (trimLoad word (memBits ew) vd (some ring) (unitAddr (readX (s.strand k).x a) (memBits ew)) true (vloadElem true (memBits ew)) m) s) {s1 : State}
    (hspec : specLoads s.ctx ((elements (s.strand k) m false).map (unitAddr (readX (s.strand k).x a) (memBits ew))) (memBits ew / 8) s = .ok () s1) (hs1 : s1.actor = s.actor) :
    (∀ c s2, reserveSlot ring s1 = .ok c s2 → s2.actor = s.actor → ∀ vs u,
      Accesses (fun i => do let r ← vloadElem true (memBits ew) i (unitAddr (readX (s.strand k).x a) (memBits ew) i); pure r.1) s2.issue (elements (s.strand k) m false) vs u →
      SameControl (s.strand k) (u.strand k) → Runs i s (fun t => t =
        ((landLoad ⟨vd.map (·.toNat), memBits ew, some (ring, c)⟩ m ((elements (s.strand k) m false).zip vs) (s.strand k).vl.toNat true u).upd k
          (fun x => { x with vstart := 0 })).upd k Strand.onward)) ∧
    (reserveSlot ring s1 = .error .wait s1 → Runs i s (fun t => t = s1.upd k (fun q => { q with wait := { q.wait with blocked := true } }))) ∧
    (∀ r, reserveSlot ring s1 = .error (.trap r) s1 → Runs i s (fun t => t = raise s1 r)) := by
  have hrun := hi.trans (trimLoad_checks (fun v' hv' => groupsOk_data h (hvd v' hv')) (fun n hn => by cases hn; exact fillOk_named h hname hsize))
  rw [body_elements h] at hrun
  have hlegal' : legal (dataLegal s (memBits ew) && true) word = .ok () := legal_true (by rw [dataLegal_strand h]; simpa using hlegal) _
  refine ⟨fun c s2 hslot hs2 vs u hacc hsame => ?_, fun hwait => ?_, fun r htrap => ?_⟩
  · obtain ⟨rs, hrs, rfl⟩ := accesses_of_map hacc
    have hu : u.actor = .strand k := hrs.actor.trans ((issue_actor s2).trans (hs2.trans h))
    obtain ⟨hvl, -, -, -, -, -⟩ := hsame
    have hslot' : reserveOpt (some ring) s1 = .ok (some (ring, c)) s2 := bindM_ok hslot
    refine runs_eq ((checked_body hrun hlegal' hid ((trimBody_reads hspec hslot' (upToStop_of_accesses hrs)).trans rfl)).trans (congrArg _ ?_))
    rw [zip_map_fst, State.vl, State.me_strand hu, hvl, vdone_eq ((landLoad_actor ..).trans hu)]
  · refine runs_eq ((checked_waits hrun hlegal' hid (trimBody_slot hspec (bindM_error hwait))).trans (congrArg _ ?_))
    exact block_upd (hs1.trans h)
  · exact runs_eq (checked_traps hrun hlegal' hid (trimBody_slot hspec (bindM_error htrap)))
end
end Sys2Proof.Machine
end

section
/-! PROOFS. What a load that fills a ring leaves in its slot (R193, R195, R280). -/

namespace Sys2Proof.Machine
open Sys2Proof

/-! ## The bytes of a slot image (R193) -/

theorem byteOf_eq (v i : Nat) : byteOf v i = BitVec.ofNat 8 (v / 256 ^ i % 256) := by
  apply BitVec.eq_of_toNat_eq
  simp [byteOf]
/-- The bytes of elements packed in order are the elements' own. -/
theorem byteOf_packElems {B : Nat} (hB : 0 < B) (l : List Nat) (j : Nat) :
    byteOf (packElems (8 * B) l) j = if j / B < l.length then byteOf (l.getD (j / B) 0 % 2 ^ (8 * B)) (j % B) else 0 := by
  induction l generalizing j with
  | nil => simp [packElems, byteOf]
  | cons x l ih =>
    have hpack : packElems (8 * B) (x :: l) = x % 2 ^ (8 * B) + 2 ^ (8 * B) * packElems (8 * B) l := rfl
    have hpow : 2 ^ (8 * B) = 256 ^ B := pow_mul 2 8 B
    have hlt : x % 2 ^ (8 * B) < 256 ^ B := hpow ▸ Nat.mod_lt _ (Nat.two_pow_pos _)
    by_cases hj : j < B
    · rw [Nat.div_eq_of_lt hj, Nat.mod_eq_of_lt hj, if_pos (List.length_pos_iff.mpr (List.cons_ne_nil _ _)), List.getD_cons_zero, hpack, byteOf_eq, byteOf_eq]
      obtain ⟨d, hd⟩ : ∃ d, B = j + (d + 1) := ⟨B - j - 1, by omega⟩
      have hsplit : 2 ^ (8 * B) * packElems (8 * B) l = 256 ^ j * (256 * (256 ^ d * packElems (8 * B) l)) := by
        rw [hpow, hd, pow_add, pow_succ]; ring
      rw [hsplit, Nat.add_mul_div_left _ _ (Nat.pow_pos (by decide)), Nat.add_mul_mod_self_left]
    · obtain ⟨d, rfl⟩ : ∃ d, j = d + B := ⟨j - B, by omega⟩
      have hrest : byteOf (packElems (8 * B) (x :: l)) (d + B) = byteOf (packElems (8 * B) l) d := by
        rw [byteOf_eq, byteOf_eq, hpack, Nat.add_comm d, pow_add, ← Nat.div_div_eq_div_mul, hpow, Nat.add_mul_div_left _ _ (Nat.pow_pos (by decide)),
          ← hpow, Nat.div_eq_of_lt (Nat.mod_lt _ (Nat.two_pow_pos _)), Nat.zero_add]
      rw [hrest, ih, Nat.add_div_right _ hB, Nat.add_mod_right, List.length_cons, List.getD_cons_succ]
      simp only [Nat.add_lt_add_iff_right]
/-- A number whose bytes are zero is zero. -/
theorem eq_zero_iff_bytes {n v : Nat} (hv : v < 2 ^ (8 * n)) : v = 0 ↔ ∀ b, b < n → byteOf v b = 0 := by
  constructor
  · rintro rfl b -
    simp [byteOf]
  · intro h
    induction n generalizing v with
    | zero => simpa using hv
    | succ n ih =>
      have hlow : v % 256 = 0 := by
        have := congrArg BitVec.toNat (h 0 (Nat.succ_pos n))
        simpa [byteOf] using this
      have hhigh : v / 256 = 0 := by
        refine ih ?_ fun b hb => ?_
        · rw [show 2 ^ (8 * (n + 1)) = 256 * 2 ^ (8 * n) by rw [Nat.mul_succ, pow_add]; ring] at hv
          exact Nat.div_lt_of_lt_mul hv
        · have := h (b + 1) (Nat.succ_lt_succ hb)
          rwa [byteOf, pow_succ', ← Nat.div_div_eq_div_mul] at this
      omega
theorem packElems_eq_zero {w : Nat} {l : List Nat} : packElems w l = 0 ↔ ∀ x ∈ l, x % 2 ^ w = 0 := by
  induction l with
  | nil => simp [packElems]
  | cons x l ih =>
    have hpack : packElems w (x :: l) = x % 2 ^ w + 2 ^ w * packElems w l := rfl
    have hpos := Nat.two_pow_pos w
    rw [hpack, List.forall_mem_cons, ← ih, Nat.add_eq_zero_iff, Nat.mul_eq_zero]
    simp
/-- Byte j of sector q of a slot image. -/
theorem byteOf_sector (image q : Nat) {j : Nat} (hj : j < 64) : byteOf (image / 2 ^ (512 * q) % 2 ^ 512) j = byteOf image (64 * q + j) := by
  rw [show (512 : Nat) = 8 * 64 from rfl, byteOf_mod _ hj, byteOf, byteOf, pow_add, ← Nat.div_div_eq_div_mul, pow_mul (2 : Nat) (8 * 64),
    pow_mul 256 64, pow_mul 2 8 64]
  rfl

/-! ## Sectors that land in local memory where no cocoon lies (R195) -/

/-- From s to t local memory and its poison change, and no strand but in its links and the flags of its slots. -/
def Lands (s t : State) : Prop :=
  { t with strands := s.strands, mem := s.mem, poison := s.poison } = s ∧ ∀ j, (t.strand j).unflagged = (s.strand j).unflagged
theorem Lands.refl (s : State) : Lands s s := ⟨rfl, fun _ => rfl⟩
theorem Lands.trans {s t u : State} (h : Lands s t) (g : Lands t u) : Lands s u := by
  refine ⟨?_, fun j => (g.2 j).trans (h.2 j)⟩
  have := congrArg (fun z : State => { z with strands := s.strands, mem := s.mem, poison := s.poison }) g.1
  exact this.trans h.1

section
variable {s t : State} (h : Lands s t)
include h
theorem Lands.actor : t.actor = s.actor := (congrArg State.actor h.1 :)
theorem Lands.cocoons : t.cocoons = s.cocoons := (congrArg State.cocoons h.1 :)
theorem Lands.tasks : t.tasks = s.tasks := (congrArg State.tasks h.1 :)
theorem Lands.vregs : t.vregs = s.vregs := (congrArg State.vregs h.1 :)
theorem Lands.place (k : Nat) : (t.strand k).place = (s.strand k).place := (congrArg Strand.place (h.2 k) :)
theorem Lands.task (k : Nat) : (t.strand k).task = (s.strand k).task := (congrArg Strand.task (h.2 k) :)
theorem Lands.groups : t.groups = s.groups := (congrArg State.groups h.1 :)
theorem Lands.kernels : t.kernels = s.kernels := (congrArg State.kernels h.1 :)
theorem Lands.groupOf (k : Nat) : t.groupOf k = s.groupOf k := by
  unfold State.groupOf
  rw [h.place, h.groups]
theorem Lands.kernelOf (k : Nat) : t.kernelOf k = s.kernelOf k := by
  unfold State.kernelOf
  rw [h.groupOf, h.kernels]
theorem Lands.shardKey (k : Nat) : t.shardKey k = s.shardKey k := by
  unfold State.shardKey
  rw [h.groupOf]
theorem Lands.localFlat (k c o l : Nat) : localFlat t k c o l = localFlat s k c o l := by
  unfold Machine.localFlat
  rw [h.groupOf, h.kernelOf]
theorem Lands.key : t.key = s.key := by
  unfold State.key
  rw [h.actor]
theorem Lands.specTask (k : Nat) : t.specTask k = s.specTask k := by
  unfold State.specTask
  rw [h.tasks, h.task]
/-- The rings keep all but their flags. -/
theorem Lands.ring (k : Nat) (n : BitVec 3) : { t.ring k n with zero := [] } = { s.ring k n with zero := [] } := by
  unfold State.ring
  have := congrArg Strand.rings (h.2 (s.shardKey k))
  have := congrArg (fun r : Vector Ring 8 => r[n.toNat]'n.isLt) this
  simpa [Strand.unflagged, h.shardKey] using this
theorem Lands.vget (k v w i : Nat) : vget t k v w i = vget s k v w i :=
  vget_congr (congrArg (fun p : Strand => p.e.vwin) (h.2 k) :) h.vregs v w i
end

section
variable {s : State} (hc : s.cocoons = []) {f v : Nat}
include hc

theorem withSector_noCocoon (acc : Acc) : withSector s f acc = s := by
  unfold withSector sectorReady
  rw [cocoonOfFlat_none hc]
theorem landSector_noCocoon : landSector s f v = breakLinks (clearRingFlags
    { s with mem := Mem.writeN s.mem f 64 v, poison := (upFrom (f / 4) 16).foldl nsErase s.poison } f) f := by
  unfold landSector
  rw [withSector_noCocoon hc]
  extract_lets t u
  have ht : u.cocoons = [] := by
    unfold u breakLinks breakLinksOf clearRingFlags
    split <;> split <;> exact hc
  rw [cocoonOfFlat_none ht]
theorem landSector_lands : Lands s (landSector s f v) ∧ (landSector s f v).mem = Mem.writeN s.mem f 64 v := by
  rw [landSector_noCocoon hc]
  generalize Mem.writeN s.mem f 64 v = mem
  generalize (upFrom (f / 4) 16).foldl nsErase s.poison = poison
  refine ⟨⟨?_, unflagged_local { s with mem := mem, poison := poison } f⟩, ?_⟩
  · unfold breakLinks breakLinksOf clearRingFlags
    split <;> split <;> rfl
  · unfold breakLinks breakLinksOf clearRingFlags
    split <;> split <;> rfl

/-- Sectors that land one after another. -/
theorem foldl_landSector {F : State → Nat → State} {at_ v : Nat → Nat} (hF : ∀ t q, Lands s t → F t q = landSector t (at_ q) (v q)) (l : List Nat)
    {u : State} (hu : Lands s u) :
    Lands s (l.foldl F u) ∧ (l.foldl F u).mem = l.foldl (fun m q => Mem.writeN m (at_ q) 64 (v q)) u.mem := by
  induction l generalizing u with
  | nil => exact ⟨hu, rfl⟩
  | cons q l ih =>
    obtain ⟨hlands, hmem⟩ := landSector_lands (s := u) (f := at_ q) (v := v q) (hu.cocoons.trans hc)
    rw [List.foldl_cons, List.foldl_cons, hF u q hu, ← hmem]
    exact ih (hu.trans hlands)
end

/-- Numbers written to ranges of which no two overlap. -/
theorem foldl_writeN {at_ v : Nat → Nat} {n : Nat} {l : List Nat} (hl : l.Nodup)
    (hdisjoint : ∀ x ∈ l, ∀ y ∈ l, x ≠ y → at_ x + n ≤ at_ y ∨ at_ y + n ≤ at_ x) {m : List Host.Cell} (hm : Memory.wf m = true) :
    let m' := l.foldl (fun m q => Mem.writeN m (at_ q) n (v q)) m
    Memory.wf m' = true ∧ (∀ q ∈ l, ∀ j, j < n → Mem.read m' (at_ q + j) = byteOf (v q) j) ∧
    ∀ f, (∀ q ∈ l, f < at_ q ∨ at_ q + n ≤ f) → Mem.read m' f = Mem.read m f := by
  induction l generalizing m with
  | nil => exact ⟨hm, List.forall_mem_nil _, fun _ _ => rfl⟩
  | cons x l ih =>
    obtain ⟨hx, hnodup⟩ := List.nodup_cons.1 hl
    obtain ⟨hwf, hbytes, hrest⟩ := ih hnodup (fun x hx y hy => hdisjoint x (List.mem_cons_of_mem _ hx) y (List.mem_cons_of_mem _ hy))
      (memory_wf_writeN m (at_ x) n (v x) hm)
    refine ⟨hwf, List.forall_mem_cons.2 ⟨fun j hj => ?_, hbytes⟩, fun f hf => ?_⟩
    · refine (hrest _ fun q hq => ?_).trans ?_
      · have := hdisjoint x List.mem_cons_self q (List.mem_cons_of_mem _ hq) (fun he => hx (he ▸ hq))
        omega
      · rw [mem_read_writeN_inside _ _ _ _ _ hm (Nat.le_add_right _ _) (by omega), Nat.add_sub_cancel_left]
    · obtain ⟨hfx, hfl⟩ := List.forall_mem_cons.1 hf
      exact (hrest f hfl).trans (mem_read_writeN _ _ _ _ _ hm (by omega))

/-! ## A slot that is filled and lands (R193, R195) -/

/-- Byte o of slot c of a ring. -/
def slotByte (s : State) (k : Nat) (ring : BitVec 3) (c o : Nat) : Nat :=
  localFlat s k (winCode (ringSlotAddr (s.ring k ring) c)) (winOff (ringSlotAddr (s.ring k ring) c) + o) 0
/-- The flags of a ring after a slot has taken an image. -/
def flagged (r : Ring) (c image : Nat) : Ring :=
  { r with zero := if image = 0 then nsInsert r.zero (c % r.slots) else nsErase r.zero (c % r.slots) }

section
variable {s : State} {k : Nat} (h : s.actor = .strand k) (htask : s.specTask k = none) (hc : s.cocoons = []) {ring : BitVec 3} {c image : Nat}
include h htask hc

theorem ringFill_noCocoon : ∃ z, Lands s z ∧ ringFill s ring c image = z.setRing k ring (flagged (z.ring k ring) c image) ∧
    z.mem = (List.range ((s.ring k ring).slotBytes / 64)).foldl
      (fun m q => Mem.writeN m (slotByte s k ring c (64 * q)) 64 (image / 2 ^ (512 * q) % 2 ^ 512)) s.mem := by
  have hkey := State.key_strand h
  obtain ⟨hz, hmem⟩ := foldl_landSector hc (at_ := fun q => slotByte s k ring c (64 * q)) (v := fun q => image / 2 ^ (512 * q) % 2 ^ 512)
    (F := fun s' q =>
      let f := localFlat s' s'.key (winCode (ringSlotAddr (s.ring k ring) c)) (winOff (ringSlotAddr (s.ring k ring) c) + 64 * q) 0
      let v := image / 2 ^ (512 * q) % 2 ^ 512
      match s'.specTask s'.key with
      | some (j, t) => { s' with tasks := sput s'.tasks j (bufTake s' t (t.store.getD s'.core) f 64 v) }
      | none => landSector s' f v)
    (fun t q ht => by simp only [ht.key, hkey, ht.specTask, htask, ht.localFlat, slotByte]) (List.range ((s.ring k ring).slotBytes / 64)) (Lands.refl s)
  refine ⟨_, hz, ?_, hmem⟩
  unfold ringFill
  rw [hkey]
  extract_lets r a z set q r'
  change Lands s z at hz
  have hr' : r' = z.ring k ring := congrArg (fun j => z.ring j ring) (hz.key.trans hkey)
  have hgeometry : r.slots = (z.ring k ring).slots := (congrArg Ring.slots (hz.ring k ring) :).symm
  rw [hz.key, hkey, hz.specTask, htask, hr']
  exact congrArg (fun n => z.setRing k ring { z.ring k ring with zero := if image = 0 then nsInsert (z.ring k ring).zero (c % n) else nsErase (z.ring k ring).zero (c % n) })
    hgeometry
end

/-! ## What a load that fills a ring leaves in its slot (R193, R280) -/

/-- Element i of the image that a load leaves in its slot: below VSTART what stands there, and what was read from there on. -/
def filledElem (s : State) (k : Nat) (ring : BitVec 3) (c w : Nat) (vals : List (Nat × Nat)) (i : Nat) : Nat :=
  if i < (s.strand k).vstart.toNat then Mem.readN s.mem (slotByte s k ring c (i * (w / 8))) (w / 8) else (sfind vals i).getD 0
/-- Byte b of it. -/
def filledByte (s : State) (k : Nat) (ring : BitVec 3) (c w : Nat) (vals : List (Nat × Nat)) (i b : Nat) : Byte :=
  if i < (s.strand k).vstart.toNat then Mem.read s.mem (slotByte s k ring c (i * (w / 8)) + b) else byteOf ((sfind vals i).getD 0 % 2 ^ w) b
/-- The image of a slot that a load of n elements has filled. -/
def filledImage (s : State) (k : Nat) (ring : BitVec 3) (c w n : Nat) (vals : List (Nat × Nat)) : Nat :=
  packElems w ((List.range n).map (filledElem s k ring c w vals))

section
variable {s : State} {k : Nat} {ring : BitVec 3} {c n w : Nat} {vals : List (Nat × Nat)} (hw : w = 8 * (w / 8)) (hpos : 0 < w / 8)
include hw

theorem byteOf_filledElem (i : Nat) {b : Nat} (hb : b < w / 8) : byteOf (filledElem s k ring c w vals i % 2 ^ w) b = filledByte s k ring c w vals i b := by
  unfold filledElem filledByte
  split
  · have hlow := byteOf_mod (Mem.readN s.mem (slotByte s k ring c (i * (w / 8))) (w / 8)) hb
    rw [← hw] at hlow
    rw [hlow, byteOf_readN _ _ _ _ hb]
  · rfl
theorem filledImage_eq_zero : filledImage s k ring c w n vals = 0 ↔ ∀ i b, i < n → b < w / 8 → filledByte s k ring c w vals i b = 0 := by
  unfold filledImage
  rw [packElems_eq_zero]
  constructor
  · intro hzero i b hi hb
    rw [← byteOf_filledElem hw i hb, hzero _ (List.mem_map_of_mem (List.mem_range.2 hi))]
    simp [byteOf]
  · intro hbytes x hx
    obtain ⟨i, hi, rfl⟩ := List.mem_map.1 hx
    refine (eq_zero_iff_bytes (n := w / 8) (hw ▸ Nat.mod_lt _ (Nat.two_pow_pos _))).2 fun b hb => ?_
    rw [byteOf_filledElem hw i hb]
    exact hbytes i b (List.mem_range.1 hi) hb
include hpos
theorem byteOf_filledImage (j : Nat) : byteOf (filledImage s k ring c w n vals) j =
    if j / (w / 8) < n then filledByte s k ring c w vals (j / (w / 8)) (j % (w / 8)) else 0 := by
  unfold filledImage
  have := byteOf_packElems hpos ((List.range n).map (filledElem s k ring c w vals)) j
  rw [← hw, List.length_map, List.length_range] at this
  rw [this]
  split
  next hj =>
    rw [List.getD_eq_getElem _ _ (by simpa using hj), List.getElem_map, List.getElem_range]
    exact byteOf_filledElem hw _ (Nat.mod_lt _ hpos)
  next => rfl
end

section
variable {s : State} {k : Nat} (h : s.actor = .strand k) (htask : s.specTask k = none) (hc : s.cocoons = []) {ring : BitVec 3} {c n w : Nat}
  {m : Msk} {vals : List (Nat × Nat)} {vd : Option Nat}
include h htask hc

theorem ownMem_memory (f len : Nat) : ownMem s f len = Mem.readN s.mem f len := by
  unfold ownMem
  rw [withSector_noCocoon hc, State.key_strand h, htask]
omit hc in
theorem slotLands_noTask : slotLands s ring c = s.setRing k ring { s.ring k ring with unlanded := sdel (s.ring k ring).unlanded c } := by
  unfold slotLands State.chrysHolder
  rw [State.key_strand h, htask]
  rfl
theorem landLoad_slot : landLoad ⟨vd, w, some (ring, c)⟩ m vals n true s =
    slotLands (ringFill (landLoad ⟨vd, w, none⟩ m vals n true s) ring c (filledImage s k ring c w n vals)) ring c := by
  have himage : ((List.range n).map fun i => if i < s.vstart then ownMem s (localFlat s s.key (winCode (ringSlotAddr (s.ring s.key ring) c))
      (winOff (ringSlotAddr (s.ring s.key ring) c) + i * (w / 8)) 0) (w / 8) else (sfind vals i).getD 0) = (List.range n).map (filledElem s k ring c w vals) := by
    refine List.map_congr_left fun i _ => ?_
    rw [State.key_strand h, ownMem_memory h htask hc, State.vstart, State.me_strand h]
    rfl
  unfold filledImage
  rw [← himage]
  rfl

omit h htask hc in
theorem setRing_strand (q : Ring) (j : Nat) : ∃ rs, (s.setRing k ring q).strand j = { s.strand j with rings := rs } := by
  unfold State.setRing
  by_cases hj : j = s.shardKey k
  · subst hj
    exact ⟨_, State.strand_upd_self ..⟩
  · exact ⟨(s.strand j).rings, State.strand_upd_of_ne _ _ hj⟩
omit h htask hc in
theorem specTask_setRing (q : Ring) (j : Nat) : (s.setRing k ring q).specTask j = s.specTask j := by
  obtain ⟨rs, hrs⟩ := setRing_strand (s := s) (k := k) (ring := ring) q j
  unfold State.specTask
  rw [hrs]
  rfl

/-- A slot that has landed: its bytes are those of the image, its flag says whether they are zero, and nothing else of local memory changes. -/
theorem filled_lands {image : Nat} (hwf : Memory.wf s.mem = true)
    (hdisjoint : ∀ x y, x < (s.ring k ring).slotBytes / 64 → y < (s.ring k ring).slotBytes / 64 → x ≠ y →
      slotByte s k ring c (64 * x) + 64 ≤ slotByte s k ring c (64 * y) ∨ slotByte s k ring c (64 * y) + 64 ≤ slotByte s k ring c (64 * x)) :
    let t := slotLands (ringFill s ring c image) ring c
    Memory.wf t.mem = true ∧
    (∀ q j, q < (s.ring k ring).slotBytes / 64 → j < 64 → Mem.read t.mem (slotByte s k ring c (64 * q) + j) = byteOf image (64 * q + j)) ∧
    (∀ f, (∀ q, q < (s.ring k ring).slotBytes / 64 → f < slotByte s k ring c (64 * q) ∨ slotByte s k ring c (64 * q) + 64 ≤ f) → Mem.read t.mem f = Mem.read s.mem f) ∧
    ((t.ring k ring).head = (s.ring k ring).head ∧ (t.ring k ring).tail = (s.ring k ring).tail ∧ sfind (t.ring k ring).unlanded c = none ∧
      (∀ d, d ≠ c → sfind (t.ring k ring).unlanded d = sfind (s.ring k ring).unlanded d) ∧ (c % (s.ring k ring).slots ∈ (t.ring k ring).zero ↔ image = 0)) ∧
    t.vregs = s.vregs ∧ (t.strand k).e.vwin = (s.strand k).e.vwin := by
  obtain ⟨z, hz, hfill, hmem⟩ := ringFill_noCocoon h htask hc (ring := ring) (c := c) (image := image)
  obtain ⟨hzwf, hinside, houtside⟩ := foldl_writeN (l := List.range ((s.ring k ring).slotBytes / 64)) (at_ := fun q => slotByte s k ring c (64 * q)) (n := 64)
    (v := fun q => image / 2 ^ (512 * q) % 2 ^ 512) List.nodup_range
    (fun x hx y hy hne => hdisjoint x y (List.mem_range.1 hx) (List.mem_range.1 hy) hne) hwf
  rw [← hmem] at hzwf hinside houtside
  have hring := hz.ring k ring
  have hy : (z.setRing k ring (flagged (z.ring k ring) c image)).actor = .strand k := hz.actor.trans h
  have hlanded := slotLands_noTask (s := z.setRing k ring (flagged (z.ring k ring) c image)) (ring := ring) (c := c) hy
    ((specTask_setRing ..).trans ((hz.specTask k).trans htask))
  rw [State.ring_setRing, if_pos rfl] at hlanded
  intro t
  have ht : t = _ := (congrArg (fun u => slotLands u ring c) hfill).trans hlanded
  have htring : t.ring k ring = { flagged (z.ring k ring) c image with unlanded := sdel (z.ring k ring).unlanded c } := by
    rw [ht, State.ring_setRing, if_pos rfl]
    rfl
  have htmem : t.mem = z.mem := by rw [ht]; rfl
  have hunlanded : (z.ring k ring).unlanded = (s.ring k ring).unlanded := (congrArg Ring.unlanded hring :)
  rw [htmem, htring]
  refine ⟨hzwf, fun q j hq hj => ?_, fun f hf => houtside f fun q hq => hf q (List.mem_range.1 hq), ⟨?_, ?_, ?_, fun d hd => ?_, ?_⟩, ?_, ?_⟩
  · rw [hinside q (List.mem_range.2 hq) j hj, byteOf_sector _ _ hj]
  · exact (congrArg Ring.head hring :)
  · exact (congrArg Ring.tail hring :)
  · exact (sfind_sdel ..).trans (if_pos rfl)
  · exact (sfind_sdel ..).trans ((if_neg hd).trans (by rw [hunlanded]))
  · rw [show (s.ring k ring).slots = (z.ring k ring).slots from (congrArg Ring.slots hring :).symm]
    show c % _ ∈ (if image = 0 then _ else _) ↔ _
    split
    next hzero => simp [mem_nsInsert, hzero]
    next hzero => simp [mem_nsErase, hzero]
  · rw [ht]
    exact hz.vregs
  · rw [ht]
    obtain ⟨rs, hrs⟩ := setRing_strand (s := z) (k := k) (ring := ring) (flagged (z.ring k ring) c image) k
    obtain ⟨rs', hrs'⟩ := setRing_strand (s := z.setRing k ring (flagged (z.ring k ring) c image)) (k := k) (ring := ring)
      { flagged (z.ring k ring) c image with unlanded := sdel (flagged (z.ring k ring) c image).unlanded c } k
    rw [hrs', hrs]
    exact (congrArg (fun p : Strand => p.e.vwin) (hz.2 k) :)

/-- What a load leaves that fills a slot. -/
theorem slotLoad_lands (hid : s.idle = false) (hwf : Memory.wf s.mem = true) (hw : w = 8 ∨ w = 16 ∨ w = 32 ∨ w = 64) (hn : n = (s.strand k).vl.toNat)
    (hdisjoint : ∀ x y, x < (s.ring k ring).slotBytes / 64 → y < (s.ring k ring).slotBytes / 64 → x ≠ y →
      slotByte s k ring c (64 * x) + 64 ≤ slotByte s k ring c (64 * y) ∨ slotByte s k ring c (64 * y) + 64 ≤ slotByte s k ring c (64 * x)) :
    let byte (j : Nat) : Byte := if j / (w / 8) < n then filledByte s k ring c w vals (j / (w / 8)) (j % (w / 8)) else 0
    let t := landLoad ⟨vd, w, some (ring, c)⟩ m vals n true s
    Memory.wf t.mem = true ∧
    (∀ q j, q < (s.ring k ring).slotBytes / 64 → j < 64 → Mem.read t.mem (slotByte s k ring c (64 * q) + j) = byte (64 * q + j)) ∧
    (∀ f, (∀ q, q < (s.ring k ring).slotBytes / 64 → f < slotByte s k ring c (64 * q) ∨ slotByte s k ring c (64 * q) + 64 ≤ f) → Mem.read t.mem f = Mem.read s.mem f) ∧
    ((t.ring k ring).head = (s.ring k ring).head ∧ (t.ring k ring).tail = (s.ring k ring).tail ∧ sfind (t.ring k ring).unlanded c = none ∧
      (∀ d, d ≠ c → sfind (t.ring k ring).unlanded d = sfind (s.ring k ring).unlanded d) ∧
      (c % (s.ring k ring).slots ∈ (t.ring k ring).zero ↔ ∀ i b, i < n → b < w / 8 → filledByte s k ring c w vals i b = 0)) ∧
    (match vd with
      | some v => VectorWrites s t k v w (vlmaxOf (s.strand k).vtype) m (fun j => (sfind vals j).getD (vget s k v w j))
      | none => t.vregs = s.vregs) := by
  have hw8 : w = 8 * (w / 8) ∧ 0 < w / 8 ∧ 4096 % w = 0 := by rcases hw with rfl | rfl | rfl | rfl <;> decide
  obtain ⟨hbytes, hpos, hw4096⟩ := hw8
  intro byte t
  have hwritten : ∃ regs, landLoad ⟨vd, w, none⟩ m vals n true s = { s with vregs := regs } := by
    cases vd with
    | none => exact ⟨s.vregs, rfl⟩
    | some v =>
      refine ⟨(landLoad ⟨some v, w, none⟩ m vals n true s).vregs, ?_⟩
      rw [landLoad_whole h hn ((State.not_idle_iff h).1 hid)]
      have := congrArg (fun u : State => { u with vregs := (vputs s k v w (updates (s.strand k) m (vlmaxOf (s.strand k).vtype) (sfind vals))).vregs })
        (vputs_frame s k v w (updates (s.strand k) m (vlmaxOf (s.strand k).vtype) (sfind vals)))
      exact this
  obtain ⟨regs, hregs⟩ := hwritten
  have ht : t = _ := landLoad_slot h htask hc
  rw [hregs] at ht
  obtain ⟨h1, h2, h3, ⟨h4, h5, h6, h7, h8⟩, h9, h10⟩ := filled_lands (s := { s with vregs := regs }) (k := k) (ring := ring) (c := c)
    (image := filledImage s k ring c w n vals) h htask hc hwf hdisjoint
  rw [← ht] at h1 h2 h3 h4 h5 h6 h7 h8 h9 h10
  refine ⟨h1, fun q j hq hj => (h2 q j hq hj).trans (byteOf_filledImage hbytes hpos _), h3, ⟨h4, h5, h6, h7, h8.trans (filledImage_eq_zero hbytes)⟩, ?_⟩
  have hvregs : t.vregs = (landLoad ⟨vd, w, none⟩ m vals n true s).vregs := by rw [hregs]; exact h9
  cases vd with
  | none => exact hvregs
  | some v =>
    rw [landLoad_whole h hn ((State.not_idle_iff h).1 hid)] at hvregs
    exact updates_written hw4096 ⟨rfl, rfl, rfl, rfl, rfl, rfl⟩ ((State.not_idle_iff h).1 hid) hvregs h10
end

end Sys2Proof.Machine
end

section
/-! PROOFS. Loads that do not complete their accesses (R183, R274, R275, R448). -/

namespace Sys2Proof.Machine
open Sys2Proof

/-! ## A load of a task that its read set stalls (R448) -/

/-- An address is aligned and lies in a local window of strand k. -/
def InLocalWindow (s : State) (k : Nat) (ea : Dword) (n : Nat) : Prop :=
  ea.toNat % n = 0 ∧ winCode ea ≠ 0 ∧ winCode ea ≠ 0xFE ∧ ∃ size, windowSize s k (winCode ea) = some size ∧ winOff ea < size

section
variable {s : State} {k : Nat} (h : s.actor = .strand k) {n : Nat}
include h

theorem route_localWindow {ea : Dword} (hl : InLocalWindow s k ea n) (acc : Acc) (e lane : Nat) : ∃ f, route s.ctx ea n acc e lane s = .ok (.loc f) s := by
  obtain ⟨halign, hglobal, hdevice, size, hsize, hoff⟩ := hl
  obtain ⟨hkey, -, -, -⟩ := ctx_strand h
  have hresolve : resolve s.ctx ea n acc e lane s = .ok (.loc (localFlat s k (winCode ea) (winOff ea) lane)) s := by
    unfold resolve
    rw [bindM_get, if_neg (not_not.2 halign), hkey, hsize]
    simp only []
    rw [if_neg fun hx => hdevice hx.1, if_neg (Nat.not_le.2 hoff), if_neg hdevice, if_neg hglobal]
    rfl
  refine ⟨localFlat s k (winCode ea) (winOff ea) lane, ?_⟩
  unfold route
  rw [bindM_get, if_neg (by simp [hglobal])]
  simp only []
  rw [if_neg (by simp [hdevice]), bindM_ok hresolve, State.isCell_strand h]
  simp
theorem classD_localWindows {l : List Dword} (hl : ∀ ea ∈ l, InLocalWindow s k ea n) : classD s.ctx n l s = .ok false s := by
  induction l with
  | nil => rfl
  | cons ea l ih =>
    obtain ⟨hea, hrest⟩ := List.forall_mem_cons.1 hl
    obtain ⟨f, hf⟩ := route_localWindow h hea .read 0 0
    have htry : tryTrap (route s.ctx ea n .read 0 0) s = .ok (.ok (.loc f)) s := by rw [tryTrap, hf]
    exact (bindM_ok htry).trans (ih hrest)
theorem specLoads_stalls {task : Nat × Task} (htask : s.specTask k = some task) {l : List Dword} (hl : ∀ ea ∈ l, InLocalWindow s k ea n)
    (hout : ∃ ea ∈ l, inReadSet s k task.2 ea n = false) : specLoads s.ctx l n s = .error .wait s := by
  obtain ⟨hkey, htlb, -, -⟩ := ctx_strand h
  obtain ⟨ea, hea, hno⟩ := hout
  have hall : l.all (fun ea => inReadSet s k task.2 ea n) = false := by
    rw [List.all_eq_false]
    exact ⟨ea, hea, by simp [hno]⟩
  unfold specLoads
  rw [bindM_get, htlb, hkey, if_pos rfl, htask]
  exact (bindM_ok (classD_localWindows h hl)).trans (by rw [hall]; rfl)
end

/-! ## Trimming loads with nothing to process, with an impossible group, or stalled (R183, R274, R448) -/

section
variable {s : State} {k : Nat} (h : s.actor = .strand k) {w : Nat} {vd : Option Reg} {ring : Option (BitVec 3)} {addr : Nat → Dword} {ok : Bool}
  {elem : Nat → Dword → M (Nat × Bool)} {m : Msk} {check : Option (Nat → Dword → M Unit)} {word : Word} {i : Instr}
  (hi : exec i s = runInstr (trimLoad word w vd ring addr ok elem m check) s) (hvd : ∀ v, vd = some v → DataNamed s k v w)
  (hring : ∀ n, ring = some n → fillOk s n w = .ok ())
include h hi hvd hring

theorem trimLoad_runs : exec i s = runInstr (checkedRun (legal (decide (grpRegs (s.strand k).vtype * w ≤ 8 * ewBits (s.strand k).vtype) && ok) word) s.idle (modify vdone)
    (trimBody s w vd ring addr elem m check (elements (s.strand k) m false))) s := by
  rw [← dataLegal_strand h, ← body_elements h]
  exact hi.trans (trimLoad_checks (fun v hv => groupsOk_data h (hvd v hv)) hring)
theorem trimLoad_illegal (hword : encode i = some word) (hlegal : 8 * ewBits (s.strand k).vtype < grpRegs (s.strand k).vtype * w ∨ ok = false) : Illegal i s := by
  refine illegal_of_word hword (checked_illegal (trimLoad_runs h hi hvd hring) (legal_illegal ?_ _))
  rcases hlegal with hlegal | rfl
  · simp [hlegal]
  · simp
variable (hlegal : grpRegs (s.strand k).vtype * w ≤ 8 * ewBits (s.strand k).vtype) (hok : ok = true)
include hlegal hok
theorem trimLoad_idle (hid : s.idle = true) : Runs i s (StrandBecomes s k { (s.strand k).onward with vstart := 0 }) :=
  plain_idle h (trimLoad_runs h hi hvd hring) (legal_true (by simp [hlegal, hok]) _) hid
theorem trimLoad_stalls (hid : s.idle = false) {task : Nat × Task} (htask : s.specTask k = some task)
    (hl : ∀ j ∈ elements (s.strand k) m false, InLocalWindow s k (addr j) (w / 8)) (hout : ∃ j ∈ elements (s.strand k) m false, inReadSet s k task.2 (addr j) (w / 8) = false) :
    Runs i s (StrandBecomes s k { s.strand k with wait := { (s.strand k).wait with blocked := true } }) := by
  have hwait : specLoads s.ctx ((elements (s.strand k) m false).map addr) (w / 8) s = .error .wait s := by
    refine specLoads_stalls h htask (fun ea hea => ?_) ?_
    · obtain ⟨j, hj, rfl⟩ := List.mem_map.1 hea
      exact hl j hj
    · obtain ⟨j, hj, hno⟩ := hout
      exact ⟨addr j, List.mem_map_of_mem hj, hno⟩
  exact ⟨_, checked_waits (trimLoad_runs h hi hvd hring) (legal_true (by simp [hlegal, hok]) _) hid (bindM_error hwait), by
    rw [block_upd h]; exact becomes_upd ..⟩
end

/-! ## A load that stops at an element (R275) -/

/-- Accesses that answer up to element n, which stops. -/
theorem upToStop_of_stop {α : Type} {acc : Nat → M α} {l : List Nat} {n x : Nat} {s u t0 : State} {vs : List α} {st : Stop} (hx : l[n]? = some x)
    (hacc : Accesses acc s (l.take n) vs u) (hstop : acc x u = .error st t0) : upToStop acc l s = .ok ((l.take n).zip vs, some (x, st)) t0 := by
  induction n generalizing l s vs with
  | zero =>
    cases l with
    | nil => exact nomatch hx
    | cons i l =>
      cases hx
      obtain ⟨rfl, rfl⟩ := hacc
      have hone : attempt (acc x) u = .ok (.error st) t0 := by rw [attempt, hstop]
      exact bindM_ok hone
  | succ n ih =>
    cases l with
    | nil => exact nomatch hx
    | cons i l =>
      obtain ⟨v, t, r, hv, -, rfl, hr⟩ := hacc
      have hone : attempt (acc i) s = .ok (.ok v) t := by rw [attempt, hv]
      exact (bindM_ok hone).trans (bindM_ok (ih hx hr))
theorem head_eq_iff_first {l : List Nat} (hl : l.Pairwise (· < ·)) {n x : Nat} (hx : l[n]? = some x) : l.head? = some x ↔ n = 0 := by
  rw [List.head?_eq_getElem?, ← hx]
  constructor
  · intro heq
    have hn := (List.getElem?_eq_some_iff.1 hx).1
    exact ((List.getElem?_inj ((Nat.zero_le n).trans_lt hn) hl.nodup).1 heq).symm
  · rintro rfl; rfl

section
variable {u : State} {k v w : Nat} {p : Strand} {m : Msk} {f : Nat → Option Nat} {x n j : Nat} (hw : 4096 % w = 0) (hj : j < n)
include hw hj

/-- The elements below x of a group that a load has written so far. -/
theorem vget_below (hlt : p.vstart.toNat < p.vl.toNat) : vget (vputs u k v w (updates p m (min x n) f)) k v w j =
    if j < x then afterPolicy p m j ((f j).getD (vget u k v w j) % 2 ^ w) (vget u k v w j) else vget u k v w j := by
  split
  next hjx => exact vget_updates_after u k v f hw (lt_min hjx hj) hlt
  next hjx =>
    rw [vget_vputs _ _ _ _ _ _ hw (updates_nodup p m _ f), updates_find, if_neg (by omega)]
/-- The elements of a group that a load has written which ends at x. -/
theorem vget_trimmed (hstart : p.vstart.toNat ≤ x) (hx : x < p.vl.toNat) : vget (vputs u k v w (updates { p with vl := BitVec.ofNat 13 x } m n f)) k v w j =
    if j < x then afterPolicy p m j ((f j).getD (vget u k v w j) % 2 ^ w) (vget u k v w j) else if vtTa p.vtype then 0 else vget u k v w j := by
  have hvl : (BitVec.ofNat 13 x).toNat = x := by
    rw [BitVec.toNat_ofNat]
    exact Nat.mod_eq_of_lt (hx.trans p.vl.isLt)
  rw [vget_updates _ _ _ _ _ _ _ _ _ hw hj]
  by_cases hjx : j < x
  · rw [if_pos hjx, ← vget_updates_after (p := p) (m := m) u k v f hw hj (hstart.trans_lt hx), vget_updates _ _ _ _ _ _ _ _ _ hw hj,
      policy_vl (p := p) (hjx.trans hx) (hjx.trans_eq hvl.symm)]
  · have hxj := Nat.not_lt.1 hjx
    rw [if_neg hjx, policy_tail (p := { p with vl := BitVec.ofNat 13 x }) (hstart.trans hxj) (hvl.trans_le hxj)]
    cases vtTa p.vtype <;> simp
end

/-- From t0 to q only the group at v changes, and strand k becomes what f makes of it. -/
def LoadKeeps (t0 : State) (k v w n : Nat) (f : Strand → Strand) (q : State) : Prop :=
  q.strand k = f (t0.strand k) ∧ (∀ j, j ≠ k → q.strand j = t0.strand j) ∧ { q with strands := t0.strands, vregs := t0.vregs } = t0 ∧
  ∀ c, (∀ j, j < n → c ≠ t0.vkey k (v + j * w / 4096)) → sget 0 q.vregs c = sget 0 t0.vregs c
/-- The elements of the group below x hold what was loaded, and those from x on are the tail or as they were. -/
def LoadedBelow (p : Strand) (t0 : State) (k v w : Nat) (m : Msk) (vals : Nat → Option Nat) (x : Nat) (tail : Bool) (q : State) : Prop :=
  ∀ j, j < vlmaxOf p.vtype → vget q k v w j = if j < x then afterPolicy p m j ((vals j).getD (vget t0 k v w j) % 2 ^ w) (vget t0 k v w j)
    else if tail ∧ p.vtype.getLsbD 5 = true then 0 else vget t0 k v w j

theorem vputs_upd_keeps (t0 : State) (k v w n : Nat) {ups : List (Nat × Nat)} (hups : ∀ q ∈ ups, q.1 < n) (f : Strand → Strand) :
    LoadKeeps t0 k v w n f ((vputs t0 k v w ups).upd k f) := by
  exact ⟨(State.strand_upd_self ..).trans (by rw [vputs_strand]), fun j hj => (State.strand_upd_of_ne _ _ hj).trans (vputs_strand ..), vputs_back t0 k v w ups,
    fun c hc => vputs_other _ _ _ _ _ _ fun q hq => hc q.1 (hups q hq)⟩
theorem vget_upd (z : State) (k v w j : Nat) {f : Strand → Strand} (hf : ∀ q, (f q).e.vwin = q.e.vwin) : vget (z.upd k f) k v w j = vget z k v w j :=
  vget_congr (s := z) (t := z.upd k f) (by rw [State.strand_upd_self, hf]) rfl v w j

section
variable {t0 : State} {k : Nat} (ht0 : t0.actor = .strand k) {v w : Nat} {m : Msk} {idx : List Nat} {vals : List (Nat × Nat)} {x : Nat} {p : Strand}
  (hw : 4096 % w = 0) (hsame : SameControl p (t0.strand k)) (hstart : p.vstart.toNat ≤ x) (hx : x < p.vl.toNat)
include ht0

omit ht0 in
theorem finishLoad_waits {keep : Bool} (hkeep : keep = false ∨ idx.head? = some x) :
    finishLoad ⟨some v, w, none⟩ m idx vals keep (some (x, .wait)) t0 = .error .wait t0 := by
  have hno : (keep && idx.head? != some x) = false := by rcases hkeep with rfl | hx <;> simp [*]
  unfold finishLoad
  rw [bindM_get]
  simp only [hno, Bool.false_eq_true, if_false]
  rfl
theorem finishLoad_keeps (hx : idx.head? ≠ some x) : finishLoad ⟨some v, w, none⟩ m idx vals true (some (x, .wait)) t0 = .error .wait
    ((landLoad ⟨some v, w, none⟩ m vals x false t0).upd k (fun t => { t with vstart := BitVec.ofNat 13 x, wait := { t.wait with begun := true } })) := by
  have hyes : (true && idx.head? != some x) = true := by simpa using hx
  have hz : (landLoad ⟨some v, w, none⟩ m vals x false t0).actor = .strand k := (landLoad_actor ..).trans ht0
  unfold finishLoad
  rw [bindM_get]
  simp only [hyes, if_true, State.updMe, State.key_strand hz]
  rfl
theorem finishLoad_traps {r : TrapInfo} {keep : Bool} (hr : (idx.head? = some x ∧ (t0.strand k).wait.begun = false) ∨ trueCause r.cause = true) :
    finishLoad ⟨some v, w, none⟩ m idx vals keep (some (x, .trap r)) t0 = .error (.trap r)
      ((landLoad ⟨some v, w, none⟩ m vals x false t0).upd k (fun t => { t with vstart := BitVec.ofNat 13 x })) := by
  have hz : (landLoad ⟨some v, w, none⟩ m vals x false t0).actor = .strand k := (landLoad_actor ..).trans ht0
  have hyes : (idx.head? = some x ∧ (!t0.waitOf.begun) = true) ∨ trueCause r.cause = true := by
    rw [waitOf_strand ht0]
    simpa using hr
  unfold finishLoad
  rw [bindM_get]
  simp only [if_pos hyes, State.updMe, State.key_strand hz]
  rfl
theorem finishLoad_ends {r : TrapInfo} {keep : Bool} (hr : ¬((idx.head? = some x ∧ (t0.strand k).wait.begun = false) ∨ trueCause r.cause = true)) :
    finishLoad ⟨some v, w, none⟩ m idx vals keep (some (x, .trap r)) t0 = .ok ()
      ((landLoad ⟨some v, w, none⟩ m vals x true t0).upd k (fun t => { (t.setVl x).onward with vstart := 0 })) := by
  have hz : (landLoad ⟨some v, w, none⟩ m vals x true t0).actor = .strand k := (landLoad_actor ..).trans ht0
  have hno : ¬((idx.head? = some x ∧ (!t0.waitOf.begun) = true) ∨ trueCause r.cause = true) := by
    rw [waitOf_strand ht0]
    simpa using hr
  unfold finishLoad
  rw [bindM_get]
  simp only [if_neg hno]
  exact congrArg (EStateM.Result.ok ()) (vdone_upd hz (·.setVl x))
include hw hsame hstart hx

/-- What a load has written below the element where it stops. -/
theorem landed_below (f : Strand → Strand) (hf : ∀ q, (f q).e.vwin = q.e.vwin) :
    LoadedBelow p t0 k v w m (sfind vals) x false ((landLoad ⟨some v, w, none⟩ m vals x false t0).upd k f) ∧
    LoadKeeps t0 k v w (vlmaxOf p.vtype) f ((landLoad ⟨some v, w, none⟩ m vals x false t0).upd k f) := by
  obtain ⟨-, -, hvtype, -, -, -⟩ := id hsame
  rw [landLoad_part ht0, hvtype, hsame.updates]
  have hkeeps := vputs_upd_keeps t0 k v w (vlmaxOf p.vtype) (ups := updates p m (min x (vlmaxOf p.vtype)) (sfind vals))
    (fun q hq => (updates_mem hq).trans_le (min_le_right ..)) f
  refine ⟨fun j hj => ?_, hkeeps⟩
  rw [vget_upd _ _ _ _ _ hf, vget_below hw hj (hstart.trans_lt hx)]
  simp
theorem trimmed_below (f : Strand → Strand) (hf : ∀ q, (f q).e.vwin = q.e.vwin) :
    LoadedBelow p t0 k v w m (sfind vals) x true ((landLoad ⟨some v, w, none⟩ m vals x true t0).upd k f) ∧
    LoadKeeps t0 k v w (vlmaxOf p.vtype) f ((landLoad ⟨some v, w, none⟩ m vals x true t0).upd k f) := by
  obtain ⟨hvl, hvstart, hvtype, -, -, -⟩ := id hsame
  have hcut : updates { t0.strand k with vl := BitVec.ofNat 13 x } m (vlmaxOf p.vtype) (sfind vals) = updates { p with vl := BitVec.ofNat 13 x } m (vlmaxOf p.vtype) (sfind vals) := by
    obtain ⟨-, -, -, hm, hcm, hwin⟩ := hsame
    exact SameControl.updates (p := { p with vl := BitVec.ofNat 13 x }) (q := { t0.strand k with vl := BitVec.ofNat 13 x }) ⟨rfl, hvstart, hvtype, hm, hcm, hwin⟩ ..
  rw [landLoad_trimmed ht0 (by rwa [hvstart]) (by rw [hvl]; exact hx.le), hvtype, hcut]
  have hkeeps := vputs_upd_keeps t0 k v w (vlmaxOf p.vtype) (ups := updates { p with vl := BitVec.ofNat 13 x } m (vlmaxOf p.vtype) (sfind vals)) (fun q hq => updates_mem hq) f
  refine ⟨fun j hj => ?_, hkeeps⟩
  rw [vget_upd _ _ _ _ _ hf, vget_trimmed hw hj hstart hx]
  simp [vtTa]
end

/-- An element of a load is at or beyond VSTART and below vl. -/
theorem elements_bounds {p : Strand} {m : Msk} {precise : Bool} {x : Nat} (hx : x ∈ elements p m precise) : p.vstart.toNat ≤ x ∧ x < p.vl.toNat := by
  obtain ⟨-, hpart⟩ := List.mem_filter.1 hx
  have hprocessed : Processed p m x := by
    by_contra hno
    simp [hno] at hpart
  exact ⟨hprocessed.1, hprocessed.2.1⟩

/-- A stop that a trimming load takes as a trap (R275). -/
def TakesTrap (t0 : State) (k n : Nat) (c : Cause) : Prop := (n = 0 ∧ (t0.strand k).wait.begun = false) ∨ c = .memPoison ∨ c = .memTimeout ∨ c = .classViolation
theorem trueCause_iff {c : Cause} : trueCause c = true ↔ c = .memPoison ∨ c = .memTimeout ∨ c = .classViolation := by
  simp [trueCause, or_assoc]

section
variable {s : State} {k : Nat} (h : s.actor = .strand k) (hid : s.idle = false) {v : Reg} {m : Msk} {word : Word} {w : Nat} {addr : Nat → Dword} {elem : Nat → Dword → M (Nat × Bool)}
  (hlegal : grpRegs (s.strand k).vtype * w ≤ 8 * ewBits (s.strand k).vtype) (hv : DataNamed s k v w) {i : Instr} (hw : 4096 % w = 0)
  (hi : exec i s = runInstr (trimLoad word w (some v) none addr true elem m none) s) {s1 u t0 : State} {n x : Nat} {vs : List (Nat × Bool)} {st : Stop}
  (hspec : specLoads s.ctx ((elements (s.strand k) m false).map addr) (w / 8) s = .ok () s1) (hx : (elements (s.strand k) m false)[n]? = some x)
  (hacc : Accesses (fun i => elem i (addr i)) s1.issue ((elements (s.strand k) m false).take n) vs u) (hstop : elem x (addr x) u = .error st t0)
  (ht0 : t0.actor = .strand k) (hsame : SameControl (s.strand k) (t0.strand k))
include h hid hlegal hv hw hi hspec hx hacc hstop ht0 hsame

/-- How a trimming load ends of which an element stops (R270, R275). -/
theorem trimLoad_stops :
    let vals := sfind (((elements (s.strand k) m false).take n).zip (vs.map (·.1)))
    let Ends (f : Strand → Strand) (tail : Bool) (q : State) : Prop :=
      LoadedBelow (s.strand k) t0 k v.toNat w m vals x tail q ∧ LoadKeeps t0 k v.toNat w (vlmaxOf (s.strand k).vtype) f q
    (st = .wait → (∀ r ∈ vs, r.2 = false) → Runs i s (fun t => t = t0.upd k (fun q => { q with wait := { q.wait with blocked := true } }))) ∧
    (st = .wait → (∃ r ∈ vs, r.2 = true) → n ≠ 0 → Runs i s (Ends (fun q => { q with vstart := BitVec.ofNat 13 x, wait := { q.wait with begun := true, blocked := true } }) false)) ∧
    (∀ c, st = .trap c → TakesTrap t0 k n c.cause → Runs i s (fun t => ∃ q, t = raise q c ∧ Ends (fun q => { q with vstart := BitVec.ofNat 13 x }) false q)) ∧
    (∀ c, st = .trap c → ¬TakesTrap t0 k n c.cause → Runs i s (Ends (fun q => { (q.setVl x).onward with vstart := 0 }) true)) := by
  obtain ⟨hstart, hlt⟩ := elements_bounds (List.mem_of_getElem? hx)
  have hhead := head_eq_iff_first (elements_rising (s.strand k) m false) hx
  have hrun := trimLoad_runs h hi (fun v' hv' => by cases hv'; exact hv) (fun n hn => nomatch hn)
  have hok := legal_true (b := decide (grpRegs (s.strand k).vtype * w ≤ 8 * ewBits (s.strand k).vtype) && true) (by simpa using hlegal) word
  have hbody := trimBody_reads (w := w) (vd := some v) (ring := none) (m := m) hspec rfl (upToStop_of_stop hx hacc hstop)
  have hlength : vs.length = ((elements (s.strand k) m false).take n).length := hacc.length
  have hkeep : ((((elements (s.strand k) m false).take n).zip vs).any (·.2.2) = true) ↔ ∃ r ∈ vs, r.2 = true := by
    rw [show (((elements (s.strand k) m false).take n).zip vs).any (·.2.2) = ((((elements (s.strand k) m false).take n).zip vs).map Prod.snd).any (·.2) from by
      rw [List.any_map]; rfl, List.map_snd_zip hlength.le, List.any_eq_true]
  rw [zip_map_fst] at hbody
  generalize ((elements (s.strand k) m false).take n).zip (vs.map (·.1)) = vals at hbody ⊢
  generalize (((elements (s.strand k) m false).take n).zip vs).any (·.2.2) = keep at hbody hkeep
  have htaken {c : Cause} : TakesTrap t0 k n c ↔ ((elements (s.strand k) m false).head? = some x ∧ (t0.strand k).wait.begun = false) ∨ trueCause c = true := by
    rw [hhead, trueCause_iff, TakesTrap]
  refine ⟨fun hst hnone => ?_, fun hst hsome hn => ?_, fun c hst hc => ?_, fun c hst hc => ?_⟩ <;> subst hst
  · have hno : keep = false := Bool.eq_false_iff.2 fun hyes => by
      obtain ⟨r, hr, htrue⟩ := hkeep.1 hyes
      exact Bool.false_ne_true ((hnone r hr).symm.trans htrue)
    exact runs_eq ((checked_waits hrun hok hid (hbody.trans (finishLoad_waits (.inl hno)))).trans (congrArg _ (block_upd ht0)))
  · obtain ⟨hbelow, hkeeps⟩ := landed_below (vals := vals) (v := v.toNat) (m := m) ht0 hw hsame hstart hlt
      (fun q => { q with vstart := BitVec.ofNat 13 x, wait := { q.wait with begun := true, blocked := true } }) (fun _ => rfl)
    have hwait := finishLoad_keeps (v := v.toNat) (w := w) (m := m) (vals := vals) ht0 (fun he => hn (hhead.1 he))
    rw [hkeep.2 hsome] at hbody
    refine ⟨_, (checked_waits hrun hok hid (hbody.trans hwait)).trans ?_, hbelow, hkeeps⟩
    have hz : (landLoad ⟨some v.toNat, w, none⟩ m vals x false t0).actor = .strand k := (landLoad_actor ..).trans ht0
    generalize landLoad ⟨some v.toNat, w, none⟩ m vals x false t0 = z at hz
    exact congrArg _ ((block_upd (s := z.upd k _) hz).trans (State.upd_upd ..))
  · obtain ⟨hbelow, hkeeps⟩ := landed_below (vals := vals) (v := v.toNat) (m := m) ht0 hw hsame hstart hlt (fun q => { q with vstart := BitVec.ofNat 13 x }) (fun _ => rfl)
    exact ⟨_, checked_traps hrun hok hid (hbody.trans (finishLoad_traps ht0 (htaken.1 hc))), _, rfl, hbelow, hkeeps⟩
  · obtain ⟨hbelow, hkeeps⟩ := trimmed_below (vals := vals) (v := v.toNat) (m := m) ht0 hw hsame hstart hlt (fun q => { (q.setVl x).onward with vstart := 0 }) (fun _ => rfl)
    exact ⟨_, checked_body hrun hok hid (hbody.trans (finishLoad_ends ht0 (fun hx => hc (htaken.2 hx)))), hbelow, hkeeps⟩
end

end Sys2Proof.Machine
end

section
/-! PROOFS. The vector loads (R268, R274 to R282, R287, R289): the proof of VectorLoad. -/

namespace Sys2Proof.Machine
open Sys2Proof

/-! ## The vector loads as the forms of one load -/

section
variable {s : State} {k : Nat} (h : s.actor = .strand k) {v a b : Reg} {ring : BitVec 3} {o sb : Bool} {m : Msk} {ew : BitVec 2}
include h

theorem vld_runs : exec (.vld v a o sb m ew) s = runInstr (trimLoad (wVld v a o sb m ew) (memBits ew) (some v) none
    (unitAddr (readX (s.strand k).x a) (memBits ew)) true (vloadElem true (memBits ew)) m none) s := by
  rw [exec_vld, execVld, State.x_strand h]
theorem vlds_runs : exec (.vlds v a b o sb m ew) s = runInstr (trimLoad (wVlds v a b o sb m ew) (memBits ew) (some v) none
    (strideAddr (readX (s.strand k).x a) (readX (s.strand k).x b)) true (vloadElem false (memBits ew)) m none) s := by
  rw [exec_vlds, execVlds, State.x_strand h, State.x_strand h]
theorem vldq_runs : exec (.vldq ring a o sb m ew) s = runInstr (trimLoad (wVldq ring a o sb m ew) (memBits ew) none (some ring)
    (unitAddr (readX (s.strand k).x a) (memBits ew)) true (vloadElem true (memBits ew)) m none) s := by
  rw [exec_vldq, execVldq, State.x_strand h]
theorem vldqk_runs : exec (.vldqk v a ring o sb m ew) s = runInstr (trimLoad (wVldqk v a ring o sb m ew) (memBits ew) (some v) (some ring)
    (unitAddr (readX (s.strand k).x a) (memBits ew)) true (vloadElem true (memBits ew)) m none) s := by
  rw [exec_vldqk, execVldqk, State.x_strand h]
theorem vldf_runs : exec (.vldf v a o sb m ew) s = runInstr (trimLoad (wVldf v a o sb m ew) (memBits ew) (some v) none
    (unitAddr (readX (s.strand k).x a) (memBits ew)) (decide (32 ≤ memBits ew)) (vldfElem (memBits ew)) m (some (fun i ea => do
      let _ ← vldfTarget (memBits ew) i ea
      pure ()))) s := by
  rw [exec_vldf, execVldf, State.x_strand h]
end
theorem vgat_checks {s : State} {v a b : Reg} {o sb : Bool} {m : Msk} {ew : BitVec 2} : ∃ body,
    exec (.vgat v a b o sb m ew) s = runInstr (checkedRun (gatChecks s (wVgat v a b o sb m ew) (memBits ew) v b) s.idle idlePrecise body) s := ⟨_, rfl⟩
theorem vgl_checks {s : State} {v a b : Reg} {o sb : Bool} {m : Msk} {ew : BitVec 2} : ∃ body,
    exec (.vgl v a b o sb m ew) s = runInstr (checkedRun (gatChecks s (wVgl v a b o sb m ew) (memBits ew) v b) s.idle idlePrecise body) s := ⟨_, rfl⟩

section
variable {s : State} {k : Nat} {v : Reg} {ring : BitVec 3} {w : Nat}
theorem named_group (hv : DataNamed s k v w) : ∀ v', some v = some v' → DataNamed s k v' w := fun _ h => by cases h; exact hv
theorem named_noGroup : ∀ v', none = some v' → DataNamed s k v' w := fun _ h => nomatch h
theorem named_ring (hring : fillOk s ring w = .ok ()) : ∀ n, some ring = some n → fillOk s n w = .ok () := fun _ h => by cases h; exact hring
theorem named_noRing : ∀ n, none = some n → fillOk s n w = .ok () := fun _ h => nomatch h
end

/-- Settles O32: a load is its checks, then its accesses one after another, then what they leave in the group and the slot; a stop ends it at its element. -/
theorem vectorLoad : Obligations.VectorLoad := by
  refine ⟨fun s k v a b o sb m ew h hid => ⟨fun ⟨hlegal, hv⟩ => ?_, fun ⟨_, hv⟩ he => ?_, fun ⟨hlegal, hv⟩ hb hb' s1 hfree vs u hacc hsame => ?_⟩,
    fun s k ring v a o sb m ew h hid hlegal hname hsize s1 hspec hs1 => ⟨fun c s2 hslot vs u hacc hsame => ?_, fun hnone hfull => ?_⟩,
    fun s k ring c n w vd m vals h hid htask hc hwf hw hn hdisjoint => ?_, fun s k v a b ring o sb m ew h => ?_⟩
  · refine ⟨fun s1 hfree => ⟨fun vs u hacc hsame => ?_, fun hw fs s2 hchecked vs u hacc hsame => ?_⟩, fun s1 hfree vs u hacc hsame => ?_,
      fun s1 hs1 vs u hacc hsame => ?_, fun hb hb' s1 hfree vs u hacc hsame => ?_⟩
    · exact groupLoad_loads h hid hlegal hv (memBits_dvd ew) hfree.1 hfree.2 hsame (vld_runs h) hacc
    · exact groupLoad_checked h hid hlegal hv (memBits_dvd ew) hfree.1 hfree.2 hsame (decide_eq_true hw) (vldf_runs h) (accesses_map hchecked) hacc
    · exact groupLoad_loads h hid hlegal hv (memBits_dvd ew) hfree.1 hfree.2 hsame (vlds_runs h) hacc
    · exact vldb_loads h hid hlegal hv hsame hs1 hacc
    · exact vgat_loads h hid hlegal hv ⟨hb, hb'⟩ hfree.1 hfree.2 hsame hacc
  · exact ⟨vldp4_stride h hid hv he, fun heven s1 hfree vs u hacc hsame => vldp4_loads h hid hv he heven rfl rfl hfree.1 hfree.2 hsame hacc⟩
  · exact vgl_loads h hid hlegal hv ⟨hb, hb'⟩ hfree.1 hfree.2 hsame hacc
  · have hs1k : s1.actor = .strand k := hs1.trans h
    have hreserved : reserveSlot ring s1 = .ok c s2 ∧ s2.actor = s.actor := by
      split at hslot
      next hnone =>
        obtain ⟨hroom, rfl, rfl⟩ := hslot
        exact ⟨reserveSlot_next hs1k hnone hroom, hs1⟩
      next =>
        obtain ⟨hheld, rfl⟩ := hslot
        exact ⟨reserveSlot_held hs1k hheld, hs1⟩
    exact ⟨(ringLoad_runs h hid hlegal hname hsize named_noGroup (vldq_runs h) hspec hs1).1 c s2 hreserved.1 hreserved.2 vs u hacc hsame,
      fun hv => (ringLoad_runs h hid hlegal hname hsize (named_group hv) (vldqk_runs h) hspec hs1).1 c s2 hreserved.1 hreserved.2 vs u hacc hsame⟩
  · have hreserved := reserveSlot_full (hs1.trans h) hnone hfull
    have hends {i : Instr} {word : Word} {vd : Option Reg} (hvd : ∀ v', vd = some v' → DataNamed s k v' (memBits ew))
        (hi : exec i s = runInstr (trimLoad word (memBits ew) vd (some ring) (unitAddr (readX (s.strand k).x a) (memBits ew)) true (vloadElem true (memBits ew)) m none) s) :
        (s1.trio k = true → Runs i s (fun t => t = s1.upd k (fun q => { q with wait := { q.wait with blocked := true } }))) ∧
        (s1.trio k = false → Runs i s (fun t => t = raise s1 ⟨.ringFault, BitVec.ofNat 64 ring.toNat, 0⟩)) := by
      obtain ⟨-, hwaits, htraps⟩ := ringLoad_runs h hid hlegal hname hsize hvd hi hspec hs1
      exact ⟨fun htrio => hwaits (by rw [hreserved, htrio]; rfl), fun htrio => htraps _ (by rw [hreserved, htrio]; rfl)⟩
    exact ⟨hends named_noGroup (vldq_runs h), fun hv => hends (named_group hv) (vldqk_runs h)⟩
  · exact slotLoad_lands h htask hc hid hwf hw hn hdisjoint
  · have hfill (hname : queueName s (.ring ring) = .ok () ∧ (s.strand k).vl.toNat * memBits ew / 8 ≤ (s.ring k ring).slotBytes) :=
      named_ring (fillOk_named h hname.1 hname.2)
    refine ⟨fun hid => ⟨fun hlegal => ⟨fun hv => ⟨?_, ?_, ?_, fun hw => ?_⟩, fun ⟨hv, hb⟩ => ⟨?_, ?_⟩, fun hname => ⟨?_, fun hv => ?_⟩⟩, fun he hv => ?_⟩,
      fun hlegal => ⟨fun hv => ⟨?_, ?_, ?_, ?_⟩, fun ⟨hv, hb⟩ => ⟨?_, ?_⟩, fun hname => ⟨?_, fun hv => ?_⟩⟩, fun hw hv => ?_, fun he hv => ?_,
      fun hid hlegal hv => ⟨?_, ?_⟩, fun task htask hid hc hlegal => ⟨fun hv => ⟨?_, ?_⟩, fun hname => ⟨?_, fun hv => ?_⟩⟩⟩
    · exact trimLoad_idle h (vld_runs h) (named_group hv) named_noRing hlegal rfl hid
    · exact trimLoad_idle h (vlds_runs h) (named_group hv) named_noRing hlegal rfl hid
    · exact precise_idle h (vldb_runs h hv) (legal_true (decide_eq_true hlegal) _) hid
    · exact trimLoad_idle h (vldf_runs h) (named_group hv) named_noRing hlegal (decide_eq_true hw) hid
    · obtain ⟨_, hi⟩ := vgat_checks (s := s) (v := v) (a := a) (b := b) (o := o) (sb := sb) (m := m) (ew := ew)
      exact precise_idle h hi (gatChecks_named h hlegal hv hb _) hid
    · obtain ⟨_, hi⟩ := vgl_checks (s := s) (v := v) (a := a) (b := b) (o := o) (sb := sb) (m := m) (ew := ew)
      exact precise_idle h hi (gatChecks_named h hlegal hv hb _) hid
    · exact trimLoad_idle h (vldq_runs h) named_noGroup (hfill hname) hlegal rfl hid
    · exact trimLoad_idle h (vldqk_runs h) (named_group hv) (hfill hname) hlegal rfl hid
    · exact plain_idle h (vldp4_runs h hv) (legal_true (beq_iff_eq.2 he) _) hid
    · exact trimLoad_illegal h (vld_runs h) (named_group hv) named_noRing rfl (.inl hlegal)
    · exact trimLoad_illegal h (vlds_runs h) (named_group hv) named_noRing rfl (.inl hlegal)
    · exact illegal_of_word rfl (checked_illegal (vldb_runs h hv) (legal_illegal (decide_eq_false (Nat.not_le.2 hlegal)) _))
    · exact trimLoad_illegal h (vldf_runs h) (named_group hv) named_noRing rfl (.inl hlegal)
    · obtain ⟨_, hi⟩ := vgat_checks (s := s) (v := v) (a := a) (b := b) (o := o) (sb := sb) (m := m) (ew := ew)
      exact illegal_of_word rfl (checked_illegal hi (gatChecks_illegal h hlegal hv hb _))
    · obtain ⟨_, hi⟩ := vgl_checks (s := s) (v := v) (a := a) (b := b) (o := o) (sb := sb) (m := m) (ew := ew)
      exact illegal_of_word rfl (checked_illegal hi (gatChecks_illegal h hlegal hv hb _))
    · exact trimLoad_illegal h (vldq_runs h) named_noGroup (hfill hname) rfl (.inl hlegal)
    · exact trimLoad_illegal h (vldqk_runs h) (named_group hv) (hfill hname) rfl (.inl hlegal)
    · exact trimLoad_illegal h (vldf_runs h) (named_group hv) named_noRing rfl (.inr (decide_eq_false (Nat.not_le.2 hw)))
    · exact illegal_of_word rfl (checked_illegal (vldp4_runs h hv) (legal_illegal (beq_eq_false_iff_ne.2 he) _))
    · exact fun s1 hspec hs1 n x vs u st t0 hx hacc hstop ht0 hsame =>
        trimLoad_stops h hid hlegal hv (memBits_dvd ew) (vld_runs h) hspec hx hacc hstop (ht0.trans h) hsame
    · exact fun s1 hspec hs1 n x vs u st t0 hx hacc hstop ht0 hsame =>
        trimLoad_stops h hid hlegal hv (memBits_dvd ew) (vlds_runs h) hspec hx hacc hstop (ht0.trans h) hsame
    · exact trimLoad_stalls h (vld_runs h) (named_group hv) named_noRing hlegal rfl hid htask
    · exact trimLoad_stalls h (vlds_runs h) (named_group hv) named_noRing hlegal rfl hid htask
    · exact trimLoad_stalls h (vldq_runs h) named_noGroup (hfill hname) hlegal rfl hid htask
    · exact trimLoad_stalls h (vldqk_runs h) (named_group hv) (hfill hname) hlegal rfl hid htask

end Sys2Proof.Machine
end

section
/-! PROOFS. Registrations that reach their homes (R299, R303). -/

namespace Sys2Proof.Machine
open Sys2Proof

/-! ## Registrations that reach their homes (R299, R313) -/

/-- From s to t neither a registration nor a poisoned word changes. -/
def RecordsKept (s t : State) : Prop := t.reg = s.reg ∧ t.poison = s.poison
theorem RecordsKept.trans {s t u : State} (h : RecordsKept s t) (g : RecordsKept t u) : RecordsKept s u := ⟨g.1.trans h.1, g.2.trans h.2⟩
theorem dropCopy_records (s : State) (h w : Nat) : RecordsKept s (dropCopy s h w) := by
  unfold dropCopy
  split
  · exact ⟨rfl, rfl⟩
  · split <;> exact ⟨rfl, rfl⟩
theorem dropDie_records (s : State) (d w : Nat) : RecordsKept s (dropDie s d w) := by unfold dropDie; split <;> exact ⟨rfl, rfl⟩
theorem extWrite_records (s : State) (d w : Nat) : RecordsKept s (extWrite s d w) := by unfold extWrite; split <;> exact ⟨rfl, rfl⟩
theorem tellHost_records (s : State) (w : Nat) : RecordsKept s (tellHost s w) := by unfold tellHost; split <;> exact ⟨rfl, rfl⟩
theorem breakLinksOf_records (who : Nat → Bool) (s : State) (a : Nat) : RecordsKept s (breakLinksOf who s a) := by unfold breakLinksOf; split <;> exact ⟨rfl, rfl⟩

section
variable {s : State} {c w : Nat} {v : Word}

theorem registerWord_lost (h : isLost s w = true) : RecordsKept s (registerWord s c w v) := by
  unfold registerWord
  rw [if_pos h]
  exact dropCopy_records ..
theorem registerWord_records (h : isLost s w = false) :
    (registerWord s c w v).reg = sput s.reg w ⟨c, v⟩ ∧ (registerWord s c w v).poison = nsErase s.poison w := by
  unfold registerWord
  rw [if_neg (by rw [h]; decide)]
  extract_lets s1 s2 s3
  have h1 : RecordsKept s s1 := by
    unfold s1
    split
    · split
      · exact ⟨rfl, rfl⟩
      · exact dropCopy_records ..
    · exact ⟨rfl, rfl⟩
  obtain ⟨hreg, hpoison⟩ := h1.trans (dropDie_records s1 (dieOf c) w)
  obtain ⟨hreg', hpoison'⟩ := (extWrite_records s3 (dieOf c) w).trans ((breakLinksOf_records _ _ _).trans (tellHost_records _ _))
  exact ⟨hreg'.trans (congrArg (fun l => sput l w ⟨c, v⟩) hreg), hpoison'.trans (congrArg (fun l => nsErase l w) hpoison)⟩

/-- The home has recorded word j to core c, with value x, and it is not poisoned. -/
def Recorded (t : State) (c j : Nat) (x : Word) : Prop := sfind t.reg j = some ⟨c, x⟩ ∧ j ∉ t.poison
theorem RecordsKept.recorded {t : State} (h : RecordsKept s t) {c j : Nat} {x : Word} (g : Recorded s c j x) : Recorded t c j x := by
  obtain ⟨hreg, hpoison⟩ := h
  exact ⟨hreg ▸ g.1, hpoison ▸ g.2⟩
theorem registerWord_recorded (h : isLost s w = false) : Recorded (registerWord s c w v) c w v := by
  obtain ⟨hreg, hpoison⟩ := registerWord_records (c := c) (v := v) h
  exact ⟨by rw [hreg, sfind_sput, if_pos rfl], by rw [hpoison]; simp [mem_nsErase]⟩
theorem registerWord_other {d j : Nat} {x : Word} (hj : j ≠ w) (g : Recorded s d j x) : Recorded (registerWord s c w v) d j x := by
  cases hlost : isLost s w with
  | true => exact (registerWord_lost hlost).recorded g
  | false =>
    obtain ⟨hreg, hpoison⟩ := registerWord_records (c := c) (v := v) hlost
    exact ⟨by rw [hreg, sfind_sput, if_neg hj]; exact g.1, by rw [hpoison, mem_nsErase]; exact fun hm => g.2 hm.1⟩
end

theorem CachesOnly.isLost {s t : State} (h : CachesOnly s t) (w : Nat) : isLost t w = Machine.isLost s w := by
  unfold Machine.isLost
  rw [h.dev]

section
variable {c b d : Nat}
/-- One word of a span that is recorded. -/
def recordWord (c b d : Nat) (s : State) (q : Word × Nat) : State := dropDie (registerWord s c (b + q.2) q.1) d (b + q.2)
theorem recordWord_caches (s : State) (q : Word × Nat) : CachesOnly s (recordWord c b d s q) := (registerWord_caches ..).trans (dropDie_caches ..)
theorem recordWord_keeps {l : List (Word × Nat)} {i : Nat} {x : Word} (hl : ∀ q ∈ l, q.2 ≠ i) {s : State} (h : Recorded s c (b + i) x) :
    Recorded (l.foldl (recordWord c b d) s) c (b + i) x := by
  induction l generalizing s with
  | nil => exact h
  | cons q l ih =>
    obtain ⟨hq, hrest⟩ := List.forall_mem_cons.1 hl
    exact ih hrest ((dropDie_records ..).recorded (registerWord_other (by omega) h))
theorem recordWord_recorded {l : List (Word × Nat)} (hl : (l.map Prod.snd).Nodup) {s : State} {q : Word × Nat} (hq : q ∈ l) (hlost : isLost s (b + q.2) = false) :
    Recorded (l.foldl (recordWord c b d) s) c (b + q.2) q.1 := by
  induction l generalizing s with
  | nil => exact absurd hq List.not_mem_nil
  | cons p l ih =>
    rw [List.map_cons] at hl
    obtain ⟨hp, hrest⟩ := List.nodup_cons.1 hl
    rw [List.foldl_cons]
    rcases List.mem_cons.1 hq with rfl | hq
    · refine recordWord_keeps (fun r hr he => hp (List.mem_map.2 ⟨r, hr, he⟩)) ?_
      exact (dropDie_records ..).recorded (registerWord_recorded hlost)
    · exact ih hrest hq ((recordWord_caches s p).isLost _ ▸ hlost)
end
theorem recordPending_recorded {s : State} {p : Pending} {i : Nat} {v : Word} (hv : p.vals[i]? = some v) (hlost : isLost s (p.word + i) = false) :
    Recorded (recordPending s p) p.core (p.word + i) v := by
  refine recordWord_recorded (d := dieOf p.by_) (q := (v, i)) ?_ ?_ hlost
  · rw [List.zipIdx_map_snd]
    exact List.nodup_range'
  · exact List.mem_zipIdx_iff_getElem?.2 hv

/-- Of the registrations that go with p, p itself is the last. -/
theorem takePending_none_of_not_mem {p : Pending} {l : List Pending} (h : p ∉ l) : (takePending (· == p) l).1 = [] := by
  induction l with
  | nil => rfl
  | cons q l ih =>
    obtain ⟨hq, hl⟩ := not_or.1 (mt List.mem_cons.2 h)
    simp [takePending, ih hl, Ne.symm hq]
theorem takePending_last {p : Pending} {l : List Pending} (h : p ∈ l) : ∃ earlier, (takePending (· == p) l).1 = earlier ++ [p] := by
  induction l with
  | nil => exact absurd h List.not_mem_nil
  | cons q l ih =>
    by_cases hl : p ∈ l
    · obtain ⟨earlier, he⟩ := ih hl
      simp only [takePending, he]
      split
      · exact ⟨q :: earlier, rfl⟩
      · exact ⟨earlier, rfl⟩
    · have hq : q = p := ((List.mem_cons.1 h).resolve_right hl).symm
      subst hq
      exact ⟨[], by simp [takePending, takePending_none_of_not_mem hl]⟩

section
variable {s : State} {p : Pending}
theorem registerSpan_gone : p ∉ (registerSpan s p).pending := fun h => by
  rw [registerSpan, drain_pending] at h
  simpa using (takePending_rest _ _ _ h).2
theorem registerSpan_recorded (hp : p ∈ s.pending) {i : Nat} {v : Word} (hv : p.vals[i]? = some v) (hlost : isLost s (p.word + i) = false) :
    Recorded (registerSpan s p) p.core (p.word + i) v := by
  obtain ⟨earlier, he⟩ := takePending_last hp
  unfold registerSpan drain
  rw [he, List.foldl_append]
  refine recordPending_recorded hv ?_
  rw [(CachesOnly.foldl recordPending recordPending_caches earlier _).isLost]
  exact hlost
theorem pendingFor_core {c w : Nat} (h : pendingFor s c w = some p) : p ∈ s.pending ∧ p.core = c := by
  refine ⟨List.mem_of_find?_eq_some h, ?_⟩
  have := List.find?_some h
  simp only [Pending.names, Bool.and_eq_true, beq_iff_eq] at this
  exact this.1.1
end

end Sys2Proof.Machine
end

section
/-! PROOFS. Words that go back to their homes, and words that leave an L1 (R304, R313). -/

namespace Sys2Proof.Machine
open Sys2Proof

/-! ## Words that go back to their homes (R304, R313) -/

theorem sfind_filter {α : Type} {f : Nat × α → Bool} {l : Sparse α} {k : Nat} {v : α} (h : sfind l k = some v) (hf : f (k, v) = true) : sfind (l.filter f) k = some v := by
  induction l with
  | nil => exact nomatch h
  | cons p l ih =>
    obtain ⟨j, x⟩ := p
    rw [sfind] at h
    by_cases hj : j = k
    · subst hj
      rw [if_pos rfl] at h
      cases h
      rw [List.filter_cons_of_pos hf, sfind, if_pos rfl]
    · rw [if_neg hj] at h
      rw [List.filter_cons]
      split
      · rw [sfind, if_neg hj]
        exact ih h
      · exact ih h
theorem sfind_filter_none {α : Type} {f : Nat × α → Bool} {l : Sparse α} {k : Nat} (h : sfind l k = none) : sfind (l.filter f) k = none := by
  induction l with
  | nil => rfl
  | cons p l ih =>
    obtain ⟨j, x⟩ := p
    rw [sfind] at h
    split at h
    · exact nomatch h
    next hj =>
      rw [List.filter_cons]
      split
      · rw [sfind, if_neg hj]
        exact ih h
      · exact ih h
theorem ckey_ne {d e w : Nat} (h : d ≠ e) : ckey d w ≠ ckey e w := by unfold ckey; omega
theorem ckey_near {d e v w : Nat} (hline : v / 16 = w / 16) (h : ckey d v = ckey e w) : d = e ∧ v = w := by unfold ckey at h; omega
/-- The words of a line have one home. -/
theorem homeDie_line {v w : Nat} (h : v / 16 = w / 16) : homeDie v = homeDie w := by
  unfold homeDie
  rw [show v / 2 ^ 34 = w / 2 ^ 34 by omega, show v / 2 ^ 6 = w / 2 ^ 6 by omega, show v / 2 ^ 8 = w / 2 ^ 8 by omega]
  exact if_congr (by omega) rfl rfl

section
variable (s : State) (d w : Nat)
theorem extWrite_frame : extWrite s d w = { s with lines := (extWrite s d w).lines, l2 := (extWrite s d w).l2, out := (extWrite s d w).out } := by
  unfold extWrite; split <;> rfl
theorem tellHost_frame : tellHost s w = { s with hostLines := (tellHost s w).hostLines, out := (tellHost s w).out } := by
  unfold tellHost; split <;> rfl
variable {s d w} {j : Nat}
theorem extWrite_dirty {e : L1Word} (h : sfind s.l2 j = some e) (he : e.dirty = true) : sfind (extWrite s d w).l2 j = some e := by
  unfold extWrite
  split
  · exact h
  · exact sfind_filter h (by simp [he])
theorem extWrite_none (h : sfind s.l2 j = none) : sfind (extWrite s d w).l2 j = none := by
  unfold extWrite
  split
  · exact h
  · exact sfind_filter_none h
end

section
variable {s : State} {w : Nat} {v : Word} {j : Nat}
/-- The state that a word returns to its home in, but for what other dies and the host are told. -/
theorem putHome_frame (s : State) (w : Nat) (v : Word) : putHome s w v =
    { s with l2 := (putHome s w v).l2, reg := sdel s.reg w, lines := (putHome s w v).lines, hostLines := (putHome s w v).hostLines, out := (putHome s w v).out } := by
  have hsome : ∃ l2 lines hostLines out, putHome s w v = { s with l2 := l2, reg := sdel s.reg w, lines := lines, hostLines := hostLines, out := out } := by
    unfold putHome
    extract_lets u
    have htell := tellHost_frame (extWrite u (homeDie w) w) w
    exact ⟨_, _, _, _, htell.trans (congrArg (fun z : State =>
      { z with hostLines := (tellHost (extWrite u (homeDie w) w) w).hostLines, out := (tellHost (extWrite u (homeDie w) w) w).out }) (extWrite_frame u (homeDie w) w))⟩
  obtain ⟨l2, lines, hostLines, out, h⟩ := hsome
  rw [h]
theorem putHome_l2 (s : State) (w : Nat) (v : Word) : (putHome s w v).l2 =
    (extWrite { s with l2 := sput s.l2 (ckey (homeDie w) w) ⟨v, true, s.tick⟩, reg := sdel s.reg w } (homeDie w) w).l2 := by
  unfold putHome
  extract_lets u
  rw [tellHost_frame]
theorem putHome_home : sfind (putHome s w v).l2 (ckey (homeDie w) w) = some ⟨v, true, s.tick⟩ := by
  rw [putHome_l2]
  exact extWrite_dirty ((sfind_sput ..).trans (if_pos rfl)) rfl
theorem putHome_dirty {e : L1Word} (hj : j ≠ ckey (homeDie w) w) (h : sfind s.l2 j = some e) (he : e.dirty = true) : sfind (putHome s w v).l2 j = some e := by
  rw [putHome_l2]
  exact extWrite_dirty ((sfind_sput ..).trans ((if_neg hj).trans h)) he
theorem putHome_none (hj : j ≠ ckey (homeDie w) w) (h : sfind s.l2 j = none) : sfind (putHome s w v).l2 j = none := by
  rw [putHome_l2]
  exact extWrite_none ((sfind_sput ..).trans ((if_neg hj).trans h))
theorem putHome_mem (s : State) (w : Nat) (v : Word) : (putHome s w v).mem = s.mem := (congrArg State.mem (putHome_frame s w v) :)
theorem putHome_reg : (putHome s w v).reg = sdel s.reg w := congrArg State.reg (putHome_frame s w v)
end

/-! ## L1_EVICTION (R304) -/

theorem dropDie_frame (s : State) (d w : Nat) : dropDie s d w = { s with l2 := (dropDie s d w).l2 } := by unfold dropDie; split <;> rfl
theorem dropDie_home (s : State) (d w : Nat) : sfind (dropDie s d w).l2 (ckey (homeDie w) w) = sfind s.l2 (ckey (homeDie w) w) := by
  unfold dropDie
  split
  next h =>
    have hne : homeDie w ≠ d := by
      simp only [Bool.and_eq_true, bne_iff_ne] at h
      exact h.1
    rw [sfind_sdel, if_neg (ckey_ne hne)]
  next => rfl

section
variable {s : State} {core w : Nat} {v : Word}

/-- The state in which a dirty word leaves an L1: its registration has reached its home. -/
def l1Left (s : State) (core w : Nat) : State := { drainWord s core w with l1 := sdel (drainWord s core w).l1 (ckey core w) }
theorem l1Left_mem : (l1Left s core w).mem = s.mem := (drain_caches s _).mem
theorem l1Left_isLost : isLost (l1Left s core w) w = isLost s w := (drain_caches s _).isLost w
theorem l1Left_tick : (l1Left s core w).tick = s.tick := (drain_caches s _).tick
theorem l1Left_l1 : sfind (l1Left s core w).l1 (ckey core w) = none := (sfind_sdel ..).trans (if_pos rfl)
theorem l1Back_eq : l1Back s core w v =
    if isLost s w then (if heldBy (l1Left s core w) w core then { l1Left s core w with reg := sdel (l1Left s core w).reg w } else l1Left s core w)
    else if homeDie w != dieOf core && Config.evictsToDie s.tick then
      { l1Left s core w with l2 := sput (l1Left s core w).l2 (ckey (dieOf core) w) ⟨v, true, s.tick⟩, reg := sput (l1Left s core w).reg w ⟨128 + dieOf core, v⟩ }
    else dropDie (putHome (l1Left s core w) w v) (dieOf core) w := by
  conv_rhs => rw [← l1Left_isLost (s := s) (core := core), ← l1Left_tick (s := s) (core := core) (w := w)]
  rfl
theorem l1Back_frame : sfind (l1Back s core w v).l1 (ckey core w) = none ∧ (l1Back s core w v).mem = s.mem := by
  rw [l1Back_eq]
  split
  · split <;> exact ⟨l1Left_l1, l1Left_mem⟩
  · split
    · exact ⟨l1Left_l1, l1Left_mem⟩
    · rw [dropDie_frame, putHome_frame]
      exact ⟨l1Left_l1, l1Left_mem⟩
theorem l1Back_lost (h : isLost s w = true) : heldBy (l1Back s core w v) w core = false := by
  rw [l1Back_eq, if_pos h]
  split
  · simp [heldBy, sfind_sdel]
  next hno => exact Bool.eq_false_iff.2 hno
theorem l1Back_home (h : isLost s w = false) (hhome : homeDie w = dieOf core ∨ Config.evictsToDie s.tick = false) :
    curVal (l1Back s core w v) w = v ∧ sfind (l1Back s core w v).l2 (ckey (homeDie w) w) = some ⟨v, true, s.tick⟩ ∧ sfind (l1Back s core w v).reg w = none := by
  have hno : (homeDie w != dieOf core && Config.evictsToDie s.tick) = false := by rcases hhome with hh | hh <;> simp [hh]
  rw [l1Back_eq, if_neg (by rw [h]; decide), if_neg (by rw [hno]; decide)]
  have hl2 : sfind (dropDie (putHome (l1Left s core w) w v) (dieOf core) w).l2 (ckey (homeDie w) w) = some ⟨v, true, s.tick⟩ := by
    rw [dropDie_home, putHome_home, l1Left_tick]
  have hreg : sfind (dropDie (putHome (l1Left s core w) w v) (dieOf core) w).reg w = none := by
    rw [(dropDie_records ..).1, putHome_reg, sfind_sdel, if_pos rfl]
  exact ⟨by rw [curVal, hreg, belowVal, hl2], hl2, hreg⟩
theorem l1Back_die (h : isLost s w = false) (hhome : homeDie w ≠ dieOf core) (hdie : Config.evictsToDie s.tick = true) :
    curVal (l1Back s core w v) w = v ∧ sfind (l1Back s core w v).l2 (ckey (dieOf core) w) = some ⟨v, true, s.tick⟩ ∧
    sfind (l1Back s core w v).reg w = some ⟨128 + dieOf core, v⟩ := by
  rw [l1Back_eq, if_neg (by rw [h]; decide), if_pos (by simp [hhome, hdie])]
  have hreg : sfind (sput (l1Left s core w).reg w ⟨128 + dieOf core, v⟩) w = some ⟨128 + dieOf core, v⟩ := (sfind_sput ..).trans (if_pos rfl)
  exact ⟨by rw [curVal, hreg], (sfind_sput ..).trans (if_pos rfl), hreg⟩
end

end Sys2Proof.Machine
end

section
/-! PROOFS. The words of a sector that leave an L2 (R304, R315). -/

namespace Sys2Proof.Machine
open Sys2Proof

/-! ## L2_EVICTION (R304, R315) -/

section
variable {s : State} {die w : Nat}

/-- What a word that leaves an L2 goes to: nothing, its registration's end, the memory below, or its home slice on another die. -/
theorem l2Out_none (h : sfind s.l2 (ckey die w) = none) : l2Out die s w = s := by unfold l2Out; rw [h]
theorem l2Out_eq {e : L1Word} (h : sfind s.l2 (ckey die w) = some e) : l2Out die s w =
    let u := { s with l2 := sdel s.l2 (ckey die w) }
    if e.dirty = false then u
    else if isLost s w then (if heldBy s w (128 + die) then { u with reg := sdel s.reg w } else u)
    else if homeDie w = die then { u with mem := Mem.writeN s.mem (4 * w) 4 e.val.toNat }
    else if heldBy s w (128 + die) then putHome u w e.val else u := by
  unfold l2Out
  rw [h]
  simp only [Bool.not_eq_true', beq_iff_eq]
  rfl
/-- A word that leaves an L2 changes that L2, its home slice, its registration, memory, and what other dies and the host are told. -/
theorem l2Out_frame (s : State) (die w : Nat) : ∃ l2 reg mem lines hostLines out, l2Out die s w =
    { s with l2 := l2, reg := reg, mem := mem, lines := lines, hostLines := hostLines, out := out } := by
  cases h : sfind s.l2 (ckey die w) with
  | none => exact ⟨_, _, _, _, _, _, l2Out_none h⟩
  | some e =>
    rw [l2Out_eq h]
    extract_lets u
    split
    · exact ⟨_, _, _, _, _, _, rfl⟩
    · split
      · split <;> exact ⟨_, _, _, _, _, _, rfl⟩
      · split
        · exact ⟨_, _, _, _, _, _, rfl⟩
        · split
          · rw [putHome_frame]
            exact ⟨_, _, _, _, _, _, rfl⟩
          · exact ⟨_, _, _, _, _, _, rfl⟩
theorem l2Out_kept : (l2Out die s w).strands = s.strands ∧ (l2Out die s w).l1 = s.l1 ∧ (l2Out die s w).tick = s.tick ∧
    (∀ v, isLost (l2Out die s w) v = isLost s v) := by
  obtain ⟨l2, reg, mem, lines, hostLines, out, h⟩ := l2Out_frame s die w
  rw [h]
  exact ⟨rfl, rfl, rfl, fun _ => rfl⟩
theorem l2Out_reg {v : Nat} (hv : v ≠ w) : sfind (l2Out die s w).reg v = sfind s.reg v := by
  have hdel : sfind (sdel s.reg w) v = sfind s.reg v := (sfind_sdel ..).trans (if_neg hv)
  cases h : sfind s.l2 (ckey die w) with
  | none => rw [l2Out_none h]
  | some e =>
    rw [l2Out_eq h]
    extract_lets u
    split
    · rfl
    · split
      · split
        · exact hdel
        · rfl
      · split
        · rfl
        · split
          · rw [putHome_reg]; exact hdel
          · rfl
/-- The word itself is gone from the L2. -/
theorem l2Out_gone : sfind (l2Out die s w).l2 (ckey die w) = none := by
  have hdel : sfind (sdel s.l2 (ckey die w)) (ckey die w) = none := (sfind_sdel ..).trans (if_pos rfl)
  cases h : sfind s.l2 (ckey die w) with
  | none => rw [l2Out_none h]; exact h
  | some e =>
    rw [l2Out_eq h]
    extract_lets u
    split
    · exact hdel
    · split
      · split <;> exact hdel
      · split
        · exact hdel
        next hhome =>
          split
          · exact putHome_none (ckey_ne (Ne.symm hhome)) hdel
          · exact hdel
/-- Other words of the line that are not in the L2 stay out of it. -/
theorem l2Out_stays_none {v : Nat} (hline : v / 16 = w / 16) (hv : sfind s.l2 (ckey die v) = none) : sfind (l2Out die s w).l2 (ckey die v) = none := by
  have hdel : sfind (sdel s.l2 (ckey die w)) (ckey die v) = none := (sfind_sdel ..).trans (by split <;> [rfl; exact hv])
  cases h : sfind s.l2 (ckey die w) with
  | none => rw [l2Out_none h]; exact hv
  | some e =>
    rw [l2Out_eq h]
    extract_lets u
    split
    · exact hdel
    · split
      · split <;> exact hdel
      · split
        · exact hdel
        next hhome =>
          split
          · exact putHome_none (fun hk => hhome (ckey_near hline hk).1.symm) hdel
          · exact hdel
/-- Dirty words of other places stay. -/
theorem l2Out_dirty {j : Nat} {e : L1Word} (hj : j ≠ ckey die w) (hjhome : j ≠ ckey (homeDie w) w) (hv : sfind s.l2 j = some e) (he : e.dirty = true) :
    sfind (l2Out die s w).l2 j = some e := by
  have hdel : sfind (sdel s.l2 (ckey die w)) j = some e := (sfind_sdel ..).trans ((if_neg hj).trans hv)
  cases h : sfind s.l2 (ckey die w) with
  | none => rw [l2Out_none h]; exact hv
  | some x =>
    rw [l2Out_eq h]
    extract_lets u
    split
    · exact hdel
    · split
      · split <;> exact hdel
      · split
        · exact hdel
        · split
          · exact putHome_dirty hjhome hdel he
          · exact hdel
/-- A dirty word of another die that its L2 holds registered goes to its home slice. -/
theorem l2Out_returns {e : L1Word} (hv : sfind s.l2 (ckey die w) = some e) (he : e.dirty = true) (hhome : homeDie w ≠ die) (hheld : heldBy s w (128 + die) = true)
    (hlost : isLost s w = false) : sfind (l2Out die s w).l2 (ckey (homeDie w) w) = some ⟨e.val, true, s.tick⟩ ∧ sfind (l2Out die s w).reg w = none := by
  rw [l2Out_eq hv]
  simp only [he, hlost, hhome, hheld, Bool.true_eq_false, Bool.false_eq_true, if_false, if_true]
  exact ⟨putHome_home, by rw [putHome_reg, sfind_sdel, if_pos rfl]⟩
theorem l2Out_away (hhome : homeDie w ≠ die) : (l2Out die s w).mem = s.mem := by
  cases h : sfind s.l2 (ckey die w) with
  | none => rw [l2Out_none h]
  | some e =>
    rw [l2Out_eq h]
    extract_lets u
    rw [if_neg hhome]
    split
    · rfl
    · split
      · split <;> rfl
      · split
        · exact putHome_mem ..
        · rfl
/-- At home, a word that leaves changes no other entry of an L2, and memory only where it is dirty and not lost. -/
theorem l2Out_home (hhome : homeDie w = die) : (∀ j, j ≠ ckey die w → sfind (l2Out die s w).l2 j = sfind s.l2 j) ∧
    (l2Out die s w).mem = match sfind s.l2 (ckey die w) with
      | some e => if e.dirty = true ∧ isLost s w = false then Mem.writeN s.mem (4 * w) 4 e.val.toNat else s.mem
      | none => s.mem := by
  cases h : sfind s.l2 (ckey die w) with
  | none => rw [l2Out_none h]; exact ⟨fun _ _ => rfl, rfl⟩
  | some e =>
    have hdel (j : Nat) (hj : j ≠ ckey die w) : sfind (sdel s.l2 (ckey die w)) j = sfind s.l2 j := (sfind_sdel ..).trans (if_neg hj)
    rw [l2Out_eq h]
    extract_lets u
    rw [if_pos hhome]
    cases hdirty : e.dirty with
    | false => exact ⟨hdel, by simp [u, hdirty]⟩
    | true =>
      rw [if_neg (by decide)]
      cases hlost : isLost s w with
      | true =>
        refine ⟨?_, ?_⟩
        · simp only [if_true]; split <;> exact hdel
        · simp only [if_true, Bool.true_eq_false, and_false, if_false]; split <;> rfl
      | false => exact ⟨hdel, by simp [hdirty]⟩
end

section
variable {die : Nat} {l : List Nat}

theorem l2Outs_kept (s : State) : let t := l.foldl (l2Out die) s
    t.strands = s.strands ∧ t.l1 = s.l1 ∧ (∀ v, v ∉ l → sfind t.reg v = sfind s.reg v) := by
  induction l generalizing s with
  | nil => exact ⟨rfl, rfl, fun _ _ => rfl⟩
  | cons w l ih =>
    obtain ⟨hstrands, hl1, -, -⟩ := l2Out_kept (s := s) (die := die) (w := w)
    obtain ⟨gstrands, gl1, greg⟩ := ih (l2Out die s w)
    refine ⟨gstrands.trans hstrands, gl1.trans hl1, fun v hv => ?_⟩
    obtain ⟨hvw, hvl⟩ := not_or.1 (mt List.mem_cons.2 hv)
    exact (greg v hvl).trans (l2Out_reg hvw)

variable {sector : Nat} (hl : ∀ w ∈ l, w / 16 = sector)
include hl

theorem l2Outs_stays_none {s : State} {v : Nat} (hv : v / 16 = sector) (hnone : sfind s.l2 (ckey die v) = none) :
    sfind (l.foldl (l2Out die) s).l2 (ckey die v) = none := by
  induction l generalizing s with
  | nil => exact hnone
  | cons w l ih =>
    obtain ⟨hw, hrest⟩ := List.forall_mem_cons.1 hl
    exact ih hrest (l2Out_stays_none (hv.trans hw.symm) hnone)
theorem l2Outs_gone (s : State) {v : Nat} (hv : v ∈ l) : sfind (l.foldl (l2Out die) s).l2 (ckey die v) = none := by
  induction l generalizing s with
  | nil => exact absurd hv List.not_mem_nil
  | cons w l ih =>
    obtain ⟨hw, hrest⟩ := List.forall_mem_cons.1 hl
    rcases List.mem_cons.1 hv with rfl | hv
    · exact l2Outs_stays_none hrest hw l2Out_gone
    · exact ih hrest _ hv
/-- What a sector leaves whose home is another die: memory stays, and what the L2 held registered and dirty goes to its home slice. -/
theorem l2Outs_away (hhome : ∀ w ∈ l, homeDie w ≠ die) (s : State) : (l.foldl (l2Out die) s).mem = s.mem := by
  induction l generalizing s with
  | nil => rfl
  | cons w l ih =>
    obtain ⟨hw, hrest⟩ := List.forall_mem_cons.1 hhome
    exact (ih (List.forall_mem_cons.1 hl).2 hrest _).trans (l2Out_away hw)
theorem l2Outs_keeps_returned {s : State} {v : Nat} {e : L1Word} (hv : v / 16 = sector) (hvl : v ∉ l) (hhome : homeDie v ≠ die)
    (h : sfind s.l2 (ckey (homeDie v) v) = some e ∧ sfind s.reg v = none) (he : e.dirty = true) :
    sfind (l.foldl (l2Out die) s).l2 (ckey (homeDie v) v) = some e ∧ sfind (l.foldl (l2Out die) s).reg v = none := by
  induction l generalizing s with
  | nil => exact h
  | cons w l ih =>
    obtain ⟨hw, hrest⟩ := List.forall_mem_cons.1 hl
    obtain ⟨hvw, hvl⟩ := not_or.1 (mt List.mem_cons.2 hvl)
    have hline : v / 16 = w / 16 := hv.trans hw.symm
    exact ih hrest hvl ⟨l2Out_dirty (fun hk => hhome (ckey_near hline hk).1) (fun hk => hvw (ckey_near hline hk).2) h.1 he, (l2Out_reg hvw).trans h.2⟩
theorem l2Outs_returned (hnodup : l.Nodup) {s : State} {v : Nat} {e : L1Word} (hv : v ∈ l) (hhome : homeDie v ≠ die) (hfind : sfind s.l2 (ckey die v) = some e)
    (he : e.dirty = true) (hheld : heldBy s v (128 + die) = true) (hlost : isLost s v = false) :
    sfind (l.foldl (l2Out die) s).l2 (ckey (homeDie v) v) = some ⟨e.val, true, s.tick⟩ ∧ sfind (l.foldl (l2Out die) s).reg v = none := by
  induction l generalizing s with
  | nil => exact absurd hv List.not_mem_nil
  | cons w l ih =>
    obtain ⟨hw, hrest⟩ := List.forall_mem_cons.1 hl
    obtain ⟨hwl, hnodup⟩ := List.nodup_cons.1 hnodup
    rcases List.mem_cons.1 hv with rfl | hvl
    · exact l2Outs_keeps_returned hrest hw hwl hhome (l2Out_returns hfind he hhome hheld hlost) rfl
    · have hvw : v ≠ w := fun hvw => hwl (hvw ▸ hvl)
      have hline : v / 16 = w / 16 := (hrest v hvl).trans hw.symm
      obtain ⟨-, -, htick, hislost⟩ := l2Out_kept (s := s) (die := die) (w := w)
      rw [← htick]
      exact ih hrest hnodup hvl (l2Out_dirty (fun hk => hvw (ckey_near hline hk).2) (fun hk => hvw (ckey_near hline hk).2) hfind he)
        (by rw [heldBy, l2Out_reg hvw]; exact hheld) ((hislost v).trans hlost)
omit hl in
/-- What a sector leaves at its home: each of its words that is dirty and not lost is written to memory. -/
theorem l2Outs_home (hnodup : l.Nodup) (hhome : ∀ w ∈ l, homeDie w = die) {s : State} (hwf : Memory.wf s.mem = true) :
    Memory.wf (l.foldl (l2Out die) s).mem = true ∧ ∀ a, Mem.read (l.foldl (l2Out die) s).mem a =
      match (if a / 4 ∈ l then sfind s.l2 (ckey die (a / 4)) else none) with
      | some e => if e.dirty = true ∧ isLost s (a / 4) = false then byteOf e.val.toNat (a % 4) else Mem.read s.mem a
      | none => Mem.read s.mem a := by
  induction l generalizing s with
  | nil => exact ⟨hwf, fun a => rfl⟩
  | cons w l ih =>
    obtain ⟨hw, hrest⟩ := List.forall_mem_cons.1 hhome
    obtain ⟨hwl, hnodup⟩ := List.nodup_cons.1 hnodup
    obtain ⟨hl2, hmem⟩ := l2Out_home (s := s) hw
    obtain ⟨-, -, -, hislost⟩ := l2Out_kept (s := s) (die := die) (w := w)
    have hwf' : Memory.wf (l2Out die s w).mem = true := by
      rw [hmem]
      split
      · split
        · exact memory_wf_writeN _ _ _ _ hwf
        · exact hwf
      · exact hwf
    have hother (a : Nat) (ha : a / 4 ≠ w) : Mem.read (l2Out die s w).mem a = Mem.read s.mem a := by
      rw [hmem]
      split
      · split
        · exact mem_read_writeN _ _ _ _ _ hwf (by omega)
        · rfl
      · rfl
    obtain ⟨gwf, gread⟩ := ih hnodup hrest hwf'
    refine ⟨gwf, fun a => (gread a).trans ?_⟩
    by_cases ha : a / 4 = w
    · subst ha
      rw [if_neg hwl, if_pos List.mem_cons_self, hmem]
      cases sfind s.l2 (ckey die (a / 4)) with
      | none => rfl
      | some e =>
        simp only []
        split
        · rw [mem_read_writeN_inside _ _ _ _ _ hwf (by omega) (by omega)]
          congr 1
          omega
        · rfl
    · rw [hother a ha, hislost]
      have hiff : a / 4 ∈ w :: l ↔ a / 4 ∈ l := by simp [ha]
      by_cases hal : a / 4 ∈ l
      · rw [if_pos hal, if_pos (hiff.2 hal), hl2 _ (fun hk => ha (by unfold ckey at hk; omega))]
      · rw [if_neg hal, if_neg (mt hiff.1 hal)]
end

end Sys2Proof.Machine
end

section
/-! PROOFS. Reads that fill words and sectors, and the words of a line that a snoop gathers (R300, R304, R316). -/

namespace Sys2Proof.Machine
open Sys2Proof

/-! ## Reads that fill a word or a sector (R300, R304) -/

theorem extRead_frame (s : State) (d w : Nat) : ∃ lines, extRead s d w = { s with lines := lines } := by
  unfold extRead
  split
  · exact ⟨s.lines, rfl⟩
  · exact ⟨_, rfl⟩
theorem fillWord_fills (s : State) (core w stamp : Nat) (v : Word) : ∃ lines, fillWord s core w stamp v =
    { s with l1 := sput s.l1 (ckey core w) ⟨v, false, stamp⟩
             l2 := if homeDie w = dieOf core ∨ (sfind s.l2 (ckey (dieOf core) w)).any (·.dirty) = true then s.l2 else sput s.l2 (ckey (dieOf core) w) ⟨v, false, stamp⟩
             lines := lines } := by
  unfold fillWord
  simp only [Bool.or_eq_true, decide_eq_true_eq]
  split
  · obtain ⟨lines, h⟩ := extRead_frame { s with l1 := sput s.l1 (ckey core w) ⟨v, false, stamp⟩ } (dieOf core) w
    exact ⟨lines, h⟩
  · obtain ⟨lines, h⟩ := extRead_frame { s with l1 := sput s.l1 (ckey core w) ⟨v, false, stamp⟩, l2 := sput s.l2 (ckey (dieOf core) w) ⟨v, false, stamp⟩ } (dieOf core) w
    exact ⟨lines, h⟩

/-- One word of a sector that is read from below. -/
def fillStep (die : Nat) (s : State) (w : Nat) : State :=
  if (sfind s.l2 (ckey die w)).isSome || wordPoisoned s w then s
  else extRead { s with l2 := sput s.l2 (ckey die w) ⟨BitVec.ofNat 32 (Mem.readN s.mem (4 * w) 4), false, s.tick⟩ } die w
theorem fillStep_frame (die : Nat) (s : State) (w : Nat) : ∃ lines, fillStep die s w = { s with
    lines := lines
    l2 := if (sfind s.l2 (ckey die w)).isSome || wordPoisoned s w then s.l2 else sput s.l2 (ckey die w) ⟨BitVec.ofNat 32 (Mem.readN s.mem (4 * w) 4), false, s.tick⟩ } := by
  unfold fillStep
  split
  · exact ⟨s.lines, rfl⟩
  · obtain ⟨lines, h⟩ := extRead_frame { s with l2 := sput s.l2 (ckey die w) ⟨BitVec.ofNat 32 (Mem.readN s.mem (4 * w) 4), false, s.tick⟩ } die w
    exact ⟨lines, h⟩
/-- A word that a fill finds: the one that stands there, else the one below where that is not poisoned. -/
def filledWord (s : State) (die w : Nat) : Option L1Word :=
  match sfind s.l2 (ckey die w) with
  | some e => some e
  | none => if wordPoisoned s w then none else some ⟨BitVec.ofNat 32 (Mem.readN s.mem (4 * w) 4), false, s.tick⟩
theorem fillStep_l2 (die : Nat) (s : State) (w : Nat) : sfind (fillStep die s w).l2 (ckey die w) = filledWord s die w ∧
    ∀ j, j ≠ ckey die w → sfind (fillStep die s w).l2 j = sfind s.l2 j := by
  obtain ⟨lines, h⟩ := fillStep_frame die s w
  rw [h]
  unfold filledWord
  cases hfind : sfind s.l2 (ckey die w) with
  | some e => simp [hfind]
  | none =>
    cases hpoison : wordPoisoned s w with
    | true => simp [hfind]
    | false =>
      simp only [Option.isSome_none, Bool.or_self, Bool.false_eq_true, if_false, sfind_sput, if_true]
      exact ⟨trivial, fun j hj => if_neg hj⟩
theorem fillSteps (die : Nat) (l : List Nat) (s : State) : let t := l.foldl (fillStep die) s
    t.mem = s.mem ∧ t.l1 = s.l1 ∧ t.reg = s.reg ∧
    ∀ v, sfind t.l2 (ckey die v) = if v ∈ l then filledWord s die v else sfind s.l2 (ckey die v) := by
  induction l generalizing s with
  | nil => exact ⟨rfl, rfl, rfl, fun _ => rfl⟩
  | cons w l ih =>
    obtain ⟨hmem, hl1, hreg, hl2⟩ := ih (fillStep die s w)
    obtain ⟨hown, hothers⟩ := fillStep_l2 die s w
    obtain ⟨lines, hframe⟩ := fillStep_frame die s w
    have hpoison (v : Nat) : wordPoisoned (fillStep die s w) v = wordPoisoned s v := by rw [hframe]; rfl
    have hbelow (v : Nat) (hv : v ≠ w) : filledWord (fillStep die s w) die v = filledWord s die v := by
      unfold filledWord
      rw [hothers _ (fun hk => hv (by unfold ckey at hk; omega)), hpoison, hframe]
    have htwice : filledWord (fillStep die s w) die w = filledWord s die w := by
      unfold filledWord
      rw [hown, hpoison]
      unfold filledWord
      cases sfind s.l2 (ckey die w) with
      | some e => rfl
      | none => cases wordPoisoned s w <;> rfl
    refine ⟨hmem.trans (by rw [hframe]), hl1.trans (by rw [hframe]), hreg.trans (by rw [hframe]), fun v => (hl2 v).trans ?_⟩
    by_cases hv : v = w
    · subst hv
      rw [if_pos List.mem_cons_self, htwice, hown, ite_self]
    · rw [hbelow v hv, hothers _ (fun hk => hv (by unfold ckey at hk; omega))]
      simp [hv]

/-! ## Snoops (R303, R316) -/

theorem cleanCopy_frame (s : State) (h w : Nat) : ∃ l1 l2 cocoons, cleanCopy s h w = { s with l1 := l1, l2 := l2, cocoons := cocoons } := by
  unfold cleanCopy
  split
  · split <;> exact ⟨_, _, _, rfl⟩
  · split <;> exact ⟨_, _, _, rfl⟩
theorem cleanCopy_l2 {s : State} {h w j : Nat} (hj : 128 ≤ h → j ≠ ckey (h - 128) w) : sfind (cleanCopy s h w).l2 j = sfind s.l2 j := by
  unfold cleanCopy
  split
  next hh =>
    split
    · exact (sfind_sput ..).trans (if_neg (hj hh))
    · rfl
  next => split <;> rfl

/-- The home has recorded a value of the word that memory below may lack. -/
def Unwritten (s : State) (w : Nat) : Prop := sfind s.reg w ≠ none ∨ ∃ e, sfind s.l2 (ckey (homeDie w) w) = some e ∧ e.dirty = true

section
variable {s : State} {w : Nat}

/-- The state in which a gathered word's holder has a clean copy. -/
def gatherClean (s : State) (w : Nat) : State :=
  match sfind s.reg w with
  | some r => cleanCopy { s with reg := sdel s.reg w } r.holder w
  | none => s
theorem gatherClean_frame (s : State) (w : Nat) : ∃ l1 l2 cocoons reg, gatherClean s w = { s with l1 := l1, l2 := l2, cocoons := cocoons, reg := reg } := by
  unfold gatherClean
  split
  next r _ =>
    obtain ⟨l1, l2, cocoons, h⟩ := cleanCopy_frame { s with reg := sdel s.reg w } r.holder w
    exact ⟨l1, l2, cocoons, _, h⟩
  next => exact ⟨s.l1, s.l2, s.cocoons, s.reg, rfl⟩
theorem gatherClean_reg (v : Nat) : sfind (gatherClean s w).reg v = if v = w then none else sfind s.reg v := by
  unfold gatherClean
  split
  next r _ =>
    obtain ⟨l1, l2, cocoons, h⟩ := cleanCopy_frame { s with reg := sdel s.reg w } r.holder w
    rw [h]
    exact sfind_sdel ..
  next hnone =>
    split
    next hv => rw [hv, hnone]
    next => rfl
theorem gatherClean_l2 {v : Nat} (hline : v / 16 = w / 16) (hv : v ≠ w) : sfind (gatherClean s w).l2 (ckey (homeDie v) v) = sfind s.l2 (ckey (homeDie v) v) := by
  unfold gatherClean
  split
  · exact cleanCopy_l2 fun _ hk => hv (ckey_near hline hk).2
  · rfl

theorem gatherWord_eq : ∃ l2 poison,
    gatherWord s w = { gatherClean s w with
      l2 := l2
      mem := if ((sfind s.reg w).isSome || (sfind s.l2 (ckey (homeDie w) w)).any (·.dirty)) && !isLost s w then Mem.writeN s.mem (4 * w) 4 (curVal s w).toNat else s.mem
      poison := poison } ∧
    ∀ j, j ≠ ckey (homeDie w) w → sfind l2 j = sfind (gatherClean s w).l2 j := by
  obtain ⟨l1, l2, cocoons, reg, hframe⟩ := gatherClean_frame s w
  have hlost : isLost (gatherClean s w) w = isLost s w := by rw [hframe]; rfl
  have hmem : (gatherClean s w).mem = s.mem := by rw [hframe]
  refine ⟨if (sfind (gatherClean s w).l2 (ckey (homeDie w) w)).isSome then sput (gatherClean s w).l2 (ckey (homeDie w) w) ⟨curVal s w, false, (gatherClean s w).tick⟩ else (gatherClean s w).l2,
    if ((sfind s.reg w).isSome || (sfind s.l2 (ckey (homeDie w) w)).any (·.dirty)) && !isLost s w then (if wordPoisoned s w then nsInsert (gatherClean s w).poison w else (gatherClean s w).poison)
      else (gatherClean s w).poison, ?_, fun j hj => ?_⟩
  · rw [← hlost, ← hmem]
    unfold gatherWord
    extract_lets v bad home dirty u u'
    change (if dirty && !isLost (gatherClean s w) w then _ else _) = _
    split <;> rfl
  · split
    · exact (sfind_sput ..).trans (if_neg hj)
    · rfl
theorem gatherWord_frame (s : State) (w : Nat) : ∃ l1 l2 cocoons reg mem poison, gatherWord s w =
    { s with l1 := l1, l2 := l2, cocoons := cocoons, reg := reg, mem := mem, poison := poison } := by
  obtain ⟨l2, poison, h, -⟩ := gatherWord_eq (s := s) (w := w)
  obtain ⟨l1, l2', cocoons, reg, hframe⟩ := gatherClean_frame s w
  rw [h, hframe]
  exact ⟨_, _, _, _, _, _, rfl⟩
theorem gatherWord_reg (v : Nat) : sfind (gatherWord s w).reg v = if v = w then none else sfind s.reg v := by
  obtain ⟨l2, poison, h, -⟩ := gatherWord_eq (s := s) (w := w)
  rw [h]
  exact gatherClean_reg v
theorem gatherWord_l2 {v : Nat} (hline : v / 16 = w / 16) (hv : v ≠ w) : sfind (gatherWord s w).l2 (ckey (homeDie v) v) = sfind s.l2 (ckey (homeDie v) v) := by
  obtain ⟨l2, poison, h, hl2⟩ := gatherWord_eq (s := s) (w := w)
  rw [h]
  exact (hl2 _ (fun hk => hv (ckey_near hline hk).2)).trans (gatherClean_l2 hline hv)
theorem gatherWord_mem : (gatherWord s w).mem =
    if ((sfind s.reg w).isSome || (sfind s.l2 (ckey (homeDie w) w)).any (·.dirty)) && !isLost s w then Mem.writeN s.mem (4 * w) 4 (curVal s w).toNat else s.mem := by
  obtain ⟨l2, poison, h, -⟩ := gatherWord_eq (s := s) (w := w)
  rw [h]
theorem gatherWord_isLost (v : Nat) : isLost (gatherWord s w) v = isLost s v := by
  obtain ⟨_, _, _, _, _, _, h⟩ := gatherWord_frame s w
  rw [h]; rfl

variable (hwf : Memory.wf s.mem = true)
include hwf
theorem gatherWord_wf : Memory.wf (gatherWord s w).mem = true := by
  rw [gatherWord_mem]
  split
  · exact memory_wf_writeN _ _ _ _ hwf
  · exact hwf
theorem gatherWord_other {v : Nat} (hv : v ≠ w) : Mem.readN (gatherWord s w).mem (4 * v) 4 = Mem.readN s.mem (4 * v) 4 := by
  rw [gatherWord_mem]
  split
  · exact mem_readN_of_read fun c hc hc' => mem_read_writeN _ _ _ _ _ hwf (by omega)
  · rfl
theorem gatherWord_written (hu : Unwritten s w) (hlost : isLost s w = false) : Mem.readN (gatherWord s w).mem (4 * w) 4 = (curVal s w).toNat := by
  have hdirty : ((sfind s.reg w).isSome || (sfind s.l2 (ckey (homeDie w) w)).any (·.dirty)) = true := by
    rcases hu with hreg | ⟨e, he, hd⟩
    · simp [Option.isSome_iff_ne_none.2 hreg]
    · simp [he, hd]
  rw [gatherWord_mem, hdirty, hlost]
  simp only [Bool.not_false, Bool.and_self, if_true]
  rw [mem_readN_writeN _ _ _ _ hwf]
  exact Nat.mod_eq_of_lt (curVal s w).isLt
theorem gatherWord_curVal {v : Nat} (hline : v / 16 = w / 16) (hv : v ≠ w) : curVal (gatherWord s w) v = curVal s v := by
  rw [curVal, curVal, belowVal, belowVal, gatherWord_reg, if_neg hv, gatherWord_l2 hline hv, gatherWord_other hwf hv]
end
theorem Unwritten.gatherWord {s : State} {v w : Nat} (h : Unwritten s v) (hline : v / 16 = w / 16) (hv : v ≠ w) : Unwritten (gatherWord s w) v := by
  unfold Unwritten
  rw [gatherWord_reg, if_neg hv, gatherWord_l2 hline hv]
  exact h

section
variable {l : List Nat}
theorem gatherWords_frame (s : State) (l : List Nat) : ∃ l1 l2 cocoons reg mem poison, l.foldl gatherWord s =
    { s with l1 := l1, l2 := l2, cocoons := cocoons, reg := reg, mem := mem, poison := poison } := by
  induction l generalizing s with
  | nil => exact ⟨_, _, _, _, _, _, rfl⟩
  | cons w l ih =>
    obtain ⟨_, _, _, _, _, _, h⟩ := gatherWord_frame s w
    obtain ⟨_, _, _, _, _, _, g⟩ := ih (gatherWord s w)
    rw [List.foldl_cons, g, h]
    exact ⟨_, _, _, _, _, _, rfl⟩
theorem gatherWords_other {s : State} (hwf : Memory.wf s.mem = true) {v : Nat} (hv : v ∉ l) :
    sfind (l.foldl gatherWord s).reg v = sfind s.reg v ∧ Mem.readN (l.foldl gatherWord s).mem (4 * v) 4 = Mem.readN s.mem (4 * v) 4 := by
  induction l generalizing s with
  | nil => exact ⟨rfl, rfl⟩
  | cons w l ih =>
    obtain ⟨hvw, hvl⟩ := not_or.1 (mt List.mem_cons.2 hv)
    obtain ⟨hreg, hmem⟩ := ih (gatherWord_wf hwf) hvl
    exact ⟨hreg.trans ((gatherWord_reg v).trans (if_neg hvw)), hmem.trans (gatherWord_other hwf hvw)⟩
/-- The words of a line that are gathered: none is registered any more, and memory holds what the home had recorded. -/
theorem gatherWords_gathered {line : Nat} (hl : ∀ w ∈ l, w / 16 = line) (hnodup : l.Nodup) {s : State} (hwf : Memory.wf s.mem = true) {v : Nat} (hv : v ∈ l) :
    sfind (l.foldl gatherWord s).reg v = none ∧
    (Unwritten s v → isLost s v = false → Mem.readN (l.foldl gatherWord s).mem (4 * v) 4 = (curVal s v).toNat) := by
  induction l generalizing s with
  | nil => exact absurd hv List.not_mem_nil
  | cons w l ih =>
    obtain ⟨hw, hrest⟩ := List.forall_mem_cons.1 hl
    obtain ⟨hwl, hnodup⟩ := List.nodup_cons.1 hnodup
    rcases List.mem_cons.1 hv with rfl | hvl
    · obtain ⟨hreg, hmem⟩ := gatherWords_other (gatherWord_wf hwf) hwl
      exact ⟨hreg.trans ((gatherWord_reg v).trans (if_pos rfl)), fun hu hlost => hmem.trans (gatherWord_written hwf hu hlost)⟩
    · have hvw : v ≠ w := fun he => hwl (he ▸ hvl)
      have hline : v / 16 = w / 16 := (hrest v hvl).trans hw.symm
      obtain ⟨hreg, hmem⟩ := ih hrest hnodup (gatherWord_wf hwf) hvl
      exact ⟨hreg, fun hu hlost => (hmem (hu.gatherWord hline hvw) ((gatherWord_isLost v).trans hlost)).trans (by rw [gatherWord_curVal hwf hline hvw])⟩
end

end Sys2Proof.Machine
end

section
/-! PROOFS. The events of requests and registrations at a home (R300, R303). -/

namespace Sys2Proof.Machine
open Sys2Proof

theorem sfind_filter_out {α : Type} {f : Nat × α → Bool} {l : Sparse α} {k : Nat} (hf : ∀ v, f (k, v) = false) : sfind (l.filter f) k = none := by
  induction l with
  | nil => rfl
  | cons p l ih =>
    obtain ⟨j, x⟩ := p
    rw [List.filter_cons]
    split
    next hfx =>
      rw [sfind, if_neg (fun hj => by rw [hj, hf] at hfx; exact Bool.false_ne_true hfx)]
      exact ih
    next => exact ih

/-! ## Reads and requests at a home (R300, R303) -/

section
variable {s : State} {core w : Nat}

theorem homeRead_absent (h : ¬(core < 128 ∧ reachable s (4 * w) = true)) : exec (.homeRead core w) s = .next s := by
  rw [exec_homeRead, execHomeRead, if_pos]
  by_contra hno
  push Not at hno
  exact h ⟨hno.1, by simpa using hno.2⟩

section
variable (h : core < 128 ∧ reachable s (4 * w) = true)
include h
theorem homeRead_reached : exec (.homeRead core w) s = .next (if homeHeld s (regionOf w) = false then serveRead s core w
    else if standsFor s .read core w then s else joinHome s .read core w) := by
  rw [exec_homeRead, execHomeRead, if_neg (by rw [h.2]; simp [h.1])]
  cases homeHeld s (regionOf w) <;> rfl
theorem homeRead_served (hfree : homeHeld s (regionOf w) = false) : exec (.homeRead core w) s = .next (serveRead s core w) := by
  rw [homeRead_reached h, if_pos hfree]
theorem homeRead_held (hheld : homeHeld s (regionOf w) = true) :
    exec (.homeRead core w) s = .next (if standsFor s .read core w then s else joinHome s .read core w) := by
  rw [homeRead_reached h, if_neg (by rw [hheld]; decide)]
end

theorem serveRead_answered (h : (nearVal s core w).isSome = true ∨ wordPoisoned s w = true) : serveRead s core w = s := by
  unfold serveRead
  rw [if_pos (by rcases h with h | h <;> simp [h])]
theorem serveRead_fills (hnear : nearVal s core w = none) (hpoison : wordPoisoned s w = false) : serveRead s core w = fillWord s core w 0 (curVal s w) := by
  unfold serveRead
  rw [hnear, hpoison]
  rfl
/-- What a core's read that its home serves leaves. -/
theorem fillWord_read (s : State) (core w : Nat) (v : Word) : let t := fillWord s core w 0 v
    sfind t.l1 (ckey core w) = some ⟨v, false, 0⟩ ∧ (∀ j, j ≠ ckey core w → sfind t.l1 j = sfind s.l1 j) ∧
    (∀ j, j ≠ ckey (dieOf core) w → sfind t.l2 j = sfind s.l2 j) ∧
    (homeDie w ≠ dieOf core → (∀ e, sfind s.l2 (ckey (dieOf core) w) = some e → e.dirty = false) → sfind t.l2 (ckey (dieOf core) w) = some ⟨v, false, 0⟩) ∧
    t.mem = s.mem ∧ t.reg = s.reg ∧ t.strands = s.strands := by
  obtain ⟨lines, h⟩ := fillWord_fills s core w 0 v
  intro t
  rw [show t = _ from h]
  refine ⟨(sfind_sput ..).trans (if_pos rfl), fun j hj => (sfind_sput ..).trans (if_neg hj), fun j hj => ?_, fun hhome hclean => ?_, rfl, rfl, rfl⟩
  · simp only []
    split
    · rfl
    · exact (sfind_sput ..).trans (if_neg hj)
  · simp only []
    rw [if_neg]
    · exact (sfind_sput ..).trans (if_pos rfl)
    · rintro (hd | hd)
      · exact hhome hd
      · cases he : sfind s.l2 (ckey (dieOf core) w) with
        | none => rw [he] at hd; exact Bool.false_ne_true hd
        | some e => rw [he] at hd; exact Bool.false_ne_true ((hclean e he).symm.trans hd)

variable {q : Request}
theorem joinHome_shared (h : ¬384 ≤ (s.waiters.filter (fun x => sameSlice x.word w)).countP (fun x => !x.reserved)) :
    joinHome s q core w = { s with waiters := s.waiters ++ [⟨q, core, w, s.cycle.toNat, false⟩] } := by
  unfold joinHome
  rw [if_pos (decide_eq_true (Nat.lt_of_not_le h))]
variable (h : 384 ≤ (s.waiters.filter (fun x => sameSlice x.word w)).countP (fun x => !x.reserved))
include h
theorem joinHome_reserved (hcore : core < 128) (hfree : ∀ x ∈ s.waiters.filter (fun x => sameSlice x.word w), ¬(x.reserved = true ∧ x.core = core)) :
    joinHome s q core w = { s with waiters := s.waiters ++ [⟨q, core, w, s.cycle.toNat, true⟩] } := by
  unfold joinHome
  extract_lets mine
  rw [if_neg (by simpa using h), if_pos]
  rw [Bool.and_eq_true, Bool.not_eq_true', List.any_eq_false]
  exact ⟨decide_eq_true hcore, fun x hx => by simpa using hfree x hx⟩
theorem joinHome_refused (htaken : ∃ x ∈ s.waiters.filter (fun x => sameSlice x.word w), x.reserved = true ∧ x.core = core) :
    joinHome s q core w = { s with refused := s.refused ++ [⟨q, core, w, s.cycle.toNat, false⟩] } := by
  obtain ⟨x, hx, hxr⟩ := htaken
  unfold joinHome
  extract_lets mine
  have hany : mine.any (fun x => x.reserved && x.core == core) = true := List.any_eq_true.2 ⟨x, hx, by simpa using hxr⟩
  rw [if_neg (by simpa using h), if_neg (by rw [hany]; simp)]
end

/-! ## Requests sent again, and registrations (R299, R303) -/

section
variable {s : State} {core w : Nat}

theorem requestResend_none (h : ∀ x ∈ s.refused, ¬(x.core = core ∧ x.word = w)) : exec (.requestResend core w) s = .next s := by
  have hnone : s.refused.find? (fun x => x.core == core && x.word == w) = none := List.find?_eq_none.2 fun x hx => by simpa using h x hx
  rw [exec_requestResend, execRequestResend, hnone]

variable {x : Waiter} (hx : s.refused.find? (fun x => x.core == core && x.word == w) = some x)
include hx
theorem refused_found : x.core = core ∧ x.word = w := by simpa using List.find?_some hx
theorem requestResend_early (h : s.cycle.toNat < x.since + 64) : exec (.requestResend core w) s = .next s := by
  rw [exec_requestResend, execRequestResend, hx]
  simp only [h, if_true]
variable (h : x.since + 64 ≤ s.cycle.toNat)
include h
theorem requestResend_agent (hq : (∃ a, x.kind = .agent a) ∨ (∃ a, x.kind = .unit a)) : exec (.requestResend core w) s = .next { s with refused := s.refused.erase x } := by
  rw [exec_requestResend, execRequestResend, hx]
  simp only [Nat.not_lt.2 h, if_false]
  rcases hq with ⟨a, hq⟩ | ⟨a, hq⟩ <;> rw [hq]
theorem requestResend_again {q : Request} (hq : x.kind = q) (hagent : ∀ a, q ≠ .agent a) (hunit : ∀ a, q ≠ .unit a) : exec (.requestResend core w) s =
    .next (if homeHeld s (regionOf w) = true then joinHome { s with refused := s.refused.erase x } q core w
      else serveRequest { s with refused := s.refused.erase x } x) := by
  rw [exec_requestResend, execRequestResend, hx]
  simp only [Nat.not_lt.2 h, if_false]
  cases q with
  | agent a => exact absurd rfl (hagent a)
  | unit a => exact absurd rfl (hunit a)
  | read => rw [hq]; rfl
  | registration => rw [hq]; rfl
  | snoop inv => rw [hq]; rfl
end

section
variable {s : State} {core w : Nat}
theorem registration_none (h : pendingFor s core w = none) : exec (.registration core w) s = .next s := by
  rw [exec_registration, execRegistration, h]
variable {p : Pending} (h : pendingFor s core w = some p)
include h
theorem registration_held (hheld : homeHeld s (regionOf w) = true) :
    exec (.registration core w) s = .next (if standsFor s .registration core p.word = true then s else joinHome s .registration core p.word) := by
  rw [exec_registration, execRegistration, h]
  simp only [hheld, Bool.not_true, Bool.false_eq_true, if_false]
theorem registration_recorded (hheld : ¬homeHeld s (regionOf w) = true) : exec (.registration core w) s = .next (registerSpan s p) := by
  rw [exec_registration, execRegistration, h]
  simp only [Bool.eq_false_iff.2 hheld, Bool.not_false, if_true]
end

end Sys2Proof.Machine
end

section
/-! PROOFS. The events of snoops, evictions and fills (R303, R304, R308, R315, R316). -/

namespace Sys2Proof.Machine
open Sys2Proof

/-! ## Snoops of a line (R303, R316) -/

section
variable {s : State} {line : Nat} {inv : Bool}

theorem answerSnoop_frame (s : State) (line : Nat) (inv data : Bool) : ∃ l1 l2 lines, answerSnoop s line inv data =
    { s with l1 := l1, l2 := l2, lines := lines, out := s.out ++ [.snoopAnswer line data] } := by
  cases inv <;> exact ⟨_, _, _, rfl⟩
theorem lineKey_line (d : Nat) (h : line < 2 ^ 46) : lineKey d line % 2 ^ 46 = line := by unfold lineKey; omega
/-- After an invalidating snoop no die holds the line. -/
theorem invalidateLine_lines (s : State) (h : line < 2 ^ 46) : lineHeld (invalidateLine s line) line = false := by
  have hnone (d : Nat) : sfind (invalidateLine s line).lines (lineKey d line) = none := by
    refine sfind_filter_out (f := fun p => p.1 % 2 ^ 46 != line) fun _ => ?_
    rw [lineKey_line d h, bne_self_eq_false]
  unfold lineHeld
  rw [List.any_eq_false]
  intro d _
  rw [hnone]
  exact Bool.false_ne_true
/-- Lines as any other snoop leaves them. -/
def sharedLines (l : Sparse Moesi) (line : Nat) : Sparse Moesi := l.map (fun p => if p.1 % 2 ^ 46 = line then (p.1, Moesi.s) else p)
/-- After any other snoop no die holds the line dirty. -/
theorem sharedLines_clean {u : State} (hu : u.lines = sharedLines s.lines line) (h : line < 2 ^ 46) : lineDirty u line = false := by
  have hshared (d : Nat) : sfind u.lines (lineKey d line) = (sfind s.lines (lineKey d line)).map (fun _ => Moesi.s) := by
    have hmap := sfind_map (fun k (y : Moesi) => if k % 2 ^ 46 = line then Moesi.s else y) s.lines (lineKey d line)
    rw [lineKey_line d h] at hmap
    simp only [if_true] at hmap
    rw [← hmap, hu]
    refine congrArg (sfind · _) (List.map_congr_left fun p _ => ?_)
    split <;> rfl
  unfold lineDirty
  rw [List.any_eq_false]
  intro d _
  rw [hshared]
  cases sfind s.lines (lineKey d line) <;> exact Bool.false_ne_true
theorem answerSnoop_lines (s : State) (data : Bool) (h : line < 2 ^ 46) :
    if inv then lineHeld (answerSnoop s line inv data) line = false else lineDirty (answerSnoop s line inv data) line = false := by
  cases inv with
  | true => exact invalidateLine_lines s h
  | false => exact sharedLines_clean (s := s) rfl h

section
variable {ask : Instr} (hask : exec ask s = .next (if isExternal (16 * line) then snoop s line inv else s))
include hask
theorem snoop_internal (h : isExternal (16 * line) = false) : exec ask s = .next s := by
  rw [hask, if_neg (by rw [h]; decide)]
variable (h : isExternal (16 * line) = true)
include h
theorem snoop_ends (hbusy : sfind s.busy (line / 4) = some ⟨line, inv⟩) : exec ask s = .next (endSnoop s ⟨line, inv⟩) := by
  rw [hask, if_pos h, snoop, if_pos (by rw [hbusy]; simp)]
variable (hbusy : sfind s.busy (line / 4) ≠ some ⟨line, inv⟩)
include hbusy
theorem snoop_asks : exec ask s = .next (
    if lineHeld s line = false then { s with out := s.out ++ [.snoopAnswer line false] }
    else if homeHeld s (line / 4) = false then startSnoop s line inv
    else if standsFor s (.snoop inv) 128 (16 * line) then s
    else joinHome s (.snoop inv) 128 (16 * line)) := by
  rw [hask, if_pos h, snoop, if_neg (by simpa using hbusy)]
  simp only [Bool.not_eq_true']
theorem snoop_absent (hheld : lineHeld s line = false) : exec ask s = .next { s with out := s.out ++ [.snoopAnswer line false] } := by
  rw [snoop_asks hask h hbusy, if_pos hheld]
variable (hheld : lineHeld s line = true)
include hheld
theorem snoop_stands (hhome : homeHeld s (line / 4) = true) : exec ask s =
    .next (if standsFor s (.snoop inv) 128 (16 * line) = true then s else joinHome s (.snoop inv) 128 (16 * line)) := by
  rw [snoop_asks hask h hbusy, if_neg (by rw [hheld]; decide), if_neg (by rw [hhome]; decide)]
theorem snoop_starts (hhome : homeHeld s (line / 4) = false) : exec ask s = .next (startSnoop s line inv) := by
  rw [snoop_asks hask h hbusy, if_neg (by rw [hheld]; decide), if_pos hhome]
end

theorem startSnoop_dirty (h : lineDirty s line = true) : startSnoop s line inv = { s with busy := sput s.busy (line / 4) ⟨line, inv⟩ } := by
  unfold startSnoop; rw [if_pos h]
theorem startSnoop_clean (h : lineDirty s line = false) : startSnoop s line inv = answerSnoop s line inv false := by
  unfold startSnoop; rw [if_neg (by rw [h]; decide)]
theorem mem_lineWords {v : Nat} : v ∈ lineWords line ↔ v / 16 = line := by
  rw [lineWords, mem_upFrom]; omega
/-- A snoop that ends has gathered and written back what the home had recorded of the line. -/
theorem endSnoop_gathers (hwf : Memory.wf s.mem = true) : let t := endSnoop s ⟨line, inv⟩
    t.out = s.out ++ [.snoopAnswer line true] ∧ sfind t.busy (line / 4) = none ∧
    ∀ v, lineOf v = line → sfind t.reg v = none ∧ (Unwritten s v → isLost s v = false → Mem.readN t.mem (4 * v) 4 = (curVal s v).toNat) := by
  intro t
  have hgathered {v : Nat} (hv : lineOf v = line) := gatherWords_gathered (l := lineWords line) (line := line) (fun w hw => mem_lineWords.1 hw) List.nodup_range'
    (s := { s with busy := sdel s.busy (line / 4) }) hwf (mem_lineWords.2 hv)
  obtain ⟨l1, l2, lines, hanswer⟩ := answerSnoop_frame ((lineWords line).foldl gatherWord { s with busy := sdel s.busy (line / 4) }) line inv true
  obtain ⟨_, _, _, _, _, _, hframe⟩ := gatherWords_frame { s with busy := sdel s.busy (line / 4) } (lineWords line)
  have hout : ((lineWords line).foldl gatherWord { s with busy := sdel s.busy (line / 4) }).out = s.out := (congrArg State.out hframe :)
  have hbusy : ((lineWords line).foldl gatherWord { s with busy := sdel s.busy (line / 4) }).busy = sdel s.busy (line / 4) := (congrArg State.busy hframe :)
  change t = _ at hanswer
  generalize (lineWords line).foldl gatherWord { s with busy := sdel s.busy (line / 4) } = z at hgathered hanswer hout hbusy
  have hanswer : t.out = z.out ++ [.snoopAnswer line true] ∧ t.busy = z.busy ∧ t.reg = z.reg ∧ t.mem = z.mem := by rw [hanswer]; exact ⟨rfl, rfl, rfl, rfl⟩
  obtain ⟨hto, htb, htr, htm⟩ := hanswer
  rw [hto, htb, htr, htm, hout, hbusy]
  exact ⟨rfl, (sfind_sdel ..).trans (if_pos rfl), fun v hv => hgathered hv⟩
end

/-! ## Evictions and fills (R304, R308, R315) -/

section
variable {s : State} {core w die sector : Nat}
theorem l1Eviction_none (h : sfind s.l1 (ckey core w) = none) : exec (.l1Eviction core w) s = .next s := by rw [exec_l1Eviction, execL1Eviction, h]
variable {e : L1Word} (h : sfind s.l1 (ckey core w) = some e)
include h
theorem l1Eviction_clean (hd : e.dirty = false) : exec (.l1Eviction core w) s = .next { s with l1 := sdel s.l1 (ckey core w) } := by
  rw [exec_l1Eviction, execL1Eviction, h]
  simp only [hd, Bool.false_eq_true, if_false]
theorem l1Eviction_stays (hd : e.dirty = true) (hheld : homeHeld s (regionOf w) = true) : exec (.l1Eviction core w) s = .next s := by
  rw [exec_l1Eviction, execL1Eviction, h]
  simp only [hd, hheld, if_true]
theorem l1Eviction_leaves (hd : e.dirty = true) (hheld : ¬homeHeld s (regionOf w) = true) : exec (.l1Eviction core w) s = .next (l1Back s core w e.val) := by
  rw [exec_l1Eviction, execL1Eviction, h]
  simp only [hd, hheld, if_true, if_false, Bool.false_eq_true]
end

section
variable {s : State} {die sector : Nat}
theorem mem_sectorWords {v : Nat} : v ∈ upFrom (16 * sector) 16 ↔ v / 16 = sector := mem_lineWords
/-- The state after the words of a sector have left an L2. -/
def sectorOut (s : State) (die sector : Nat) : State := (upFrom (16 * sector) 16).foldl (l2Out die) s
theorem l2Eviction_held (h : homeHeld s (sector / 4) = true) : exec (.l2Eviction die sector) s = .next s := by
  rw [exec_l2Eviction, execL2Eviction, if_pos h]
theorem l2Eviction_leaves (h : homeHeld s (sector / 4) = false) : ∃ lines, exec (.l2Eviction die sector) s = .next { sectorOut s die sector with lines := lines } ∧
    (isExternal (16 * sector) = true → lineInUse (sectorOut s die sector) die sector = false → sfind lines (lineKey die sector) = none) := by
  have hrun : exec (.l2Eviction die sector) s = .next (if isExternal (16 * sector) && !lineInUse (sectorOut s die sector) die sector then
      { sectorOut s die sector with lines := sdel (sectorOut s die sector).lines (lineKey die sector) } else sectorOut s die sector) := by
    rw [exec_l2Eviction, execL2Eviction, if_neg (by rw [h]; decide)]
    rfl
  rw [hrun]
  generalize sectorOut s die sector = z
  split
  next => exact ⟨sdel z.lines (lineKey die sector), rfl, fun _ _ => (sfind_sdel ..).trans (if_pos rfl)⟩
  next hout => exact ⟨z.lines, rfl, fun hx hu => absurd (by rw [hx, hu]; rfl) hout⟩
theorem sectorFill_absent (h : reachable s (64 * sector) = false ∨ homeDie (16 * sector) ≠ die) : exec (.sectorFill die sector) s = .next s := by
  rw [exec_sectorFill, execSectorFill, if_pos (by simpa using h)]
theorem sectorFill_fills (h : reachable s (64 * sector) = true) (hhome : homeDie (16 * sector) = die) :
    exec (.sectorFill die sector) s = .next ((upFrom (16 * sector) 16).foldl (fillStep die) s) := by
  rw [exec_sectorFill, execSectorFill, if_neg (by simp [h, hhome])]
  rfl
end

section
variable {s : State} {k c sector : Nat}
theorem cocoonFill_absent (h : c < 8 → ∀ q, sfind s.cocoons (8 * k + c) = some q → ∀ x, sfind q.tr sector = some x → x.stale = true ∨ x.cls = .i ∨ homeHeld s (x.pa / 256) = true) :
    exec (.cocoonFill k c sector) s = .next s := by
  rw [exec_cocoonFill, execCocoonFill]
  cases hq : sfind s.cocoons (8 * k + c) with
  | none => rfl
  | some q =>
    simp only []
    rw [if_neg]
    rintro ⟨hc, hany⟩
    obtain ⟨x, hx, hfresh⟩ := (Option.any_eq_true ..).1 hany
    simp only [Bool.and_eq_true, Bool.not_eq_true', bne_iff_ne, ne_eq] at hfresh
    obtain ⟨⟨hstale, hcls⟩, hheld⟩ := hfresh
    rcases h hc q hq x hx with hs | hs | hs
    · exact Bool.false_ne_true (hstale.symm.trans hs)
    · exact hcls hs
    · exact Bool.false_ne_true (hheld.symm.trans hs)
theorem cocoonFill_fills {q : Cocoon} {x : CocoonTr} (hc : c < 8) (hq : sfind s.cocoons (8 * k + c) = some q) (hx : sfind q.tr sector = some x) (hstale : x.stale = false)
    (hcls : x.cls ≠ .i) (hheld : homeHeld s (x.pa / 256) = false) : exec (.cocoonFill k c sector) s = .next (cocoonFillSector s (8 * k + c) sector) := by
  rw [exec_cocoonFill, execCocoonFill, hq]
  simp only [hx]
  rw [if_pos ⟨hc, by simp [hstale, hcls, hheld]⟩]
end

end Sys2Proof.Machine
end

section
/-! PROOFS. Host requests and lost ranges (R314, R318). -/

namespace Sys2Proof.Machine
open Sys2Proof

/-! ## Host requests (R314) -/

theorem dropCopy_frame (s : State) (h w : Nat) : ∃ l1 l2 cocoons, dropCopy s h w = { s with l1 := l1, l2 := l2, cocoons := cocoons } := by
  unfold dropCopy
  split
  · exact ⟨_, _, _, rfl⟩
  · split <;> exact ⟨_, _, _, rfl⟩
theorem breakLinksOf_frame (who : Nat → Bool) (s : State) (a : Nat) : ∃ strands, breakLinksOf who s a = { s with strands := strands } := by
  unfold breakLinksOf
  split <;> exact ⟨_, rfl⟩
theorem extWrite_internal {s : State} {w : Nat} (d : Nat) (h : isExternal w = false) : extWrite s d w = s := by
  unfold extWrite; rw [if_pos (by rw [h]; rfl)]
theorem tellHost_quiet {s : State} {w : Nat} (h : lineOf w ∉ s.hostLines) : tellHost s w = s := by
  unfold tellHost; rw [if_neg (by simp [h])]

theorem tellHost_breakLinks {s : State} {w : Nat} (a : Nat) (h : lineOf w ∉ s.hostLines) : ∃ strands, tellHost (breakLinks s a) w = { s with strands := strands } := by
  obtain ⟨strands, hbreak⟩ := breakLinksOf_frame (fun _ => true) s a
  have hlines : (breakLinks s a).hostLines = s.hostLines := (congrArg State.hostLines hbreak :)
  exact ⟨strands, (tellHost_quiet (by rwa [hlines])).trans hbreak⟩

/-- The state in which a registration of the word has ended. -/
def unregistered (s : State) (w : Nat) : State :=
  match sfind s.reg w with
  | some r => dropCopy { s with reg := sdel s.reg w } r.holder w
  | none => s
theorem unregistered_frame (s : State) (w : Nat) : ∃ l1 l2 cocoons reg, unregistered s w = { s with l1 := l1, l2 := l2, cocoons := cocoons, reg := reg } ∧ sfind reg w = none := by
  unfold unregistered
  split
  next r _ =>
    obtain ⟨l1, l2, cocoons, h⟩ := dropCopy_frame { s with reg := sdel s.reg w } r.holder w
    exact ⟨l1, l2, cocoons, _, h, (sfind_sdel ..).trans (if_pos rfl)⟩
  next hnone => exact ⟨_, _, _, _, rfl, hnone⟩
/-- A word of bonded DRAM whose line the host does not cache, written at its home. -/
theorem homeWrite_bonded {s : State} {w : Nat} {v : Word} (hwf : Memory.wf s.mem = true) (hbonded : isExternal w = false) (hquiet : lineOf w ∉ s.hostLines) :
    curVal (homeWrite s w v) w = v ∧ w ∉ (homeWrite s w v).poison ∧ (homeWrite s w v).out = s.out := by
  obtain ⟨l1, l2, cocoons, reg, hframe, hreg⟩ := unregistered_frame s w
  have hrun : homeWrite s w v = tellHost (breakLinks { s with
      l1 := l1, cocoons := cocoons, reg := reg, poison := nsErase s.poison w
      l2 := if (sfind l2 (ckey (homeDie w) w)).isSome then sput l2 (ckey (homeDie w) w) ⟨v, true, s.tick⟩ else l2
      mem := if (sfind l2 (ckey (homeDie w) w)).isSome then s.mem else Mem.writeN s.mem (4 * w) 4 v.toNat } (4 * w)) w := by
    unfold homeWrite
    extract_lets u held z
    have hu : u = { s with l1 := l1, l2 := l2, cocoons := cocoons, reg := reg } := hframe
    have hheld : held = (sfind l2 (ckey (homeDie w) w)).isSome := by
      simp only [held, hbonded, Bool.false_and, Bool.or_false, hu]
    rw [extWrite_internal _ hbonded, ite_self]
    simp only [z, hheld, hu]
  obtain ⟨strands, htold⟩ := tellHost_breakLinks (s := { s with
      l1 := l1, cocoons := cocoons, reg := reg, poison := nsErase s.poison w
      l2 := if (sfind l2 (ckey (homeDie w) w)).isSome then sput l2 (ckey (homeDie w) w) ⟨v, true, s.tick⟩ else l2
      mem := if (sfind l2 (ckey (homeDie w) w)).isSome then s.mem else Mem.writeN s.mem (4 * w) 4 v.toNat }) (4 * w) hquiet
  rw [hrun, htold]
  refine ⟨?_, fun hm => (mem_nsErase.1 hm).2 rfl, rfl⟩
  simp only [curVal, hreg, belowVal]
  cases hhome : sfind l2 (ckey (homeDie w) w) with
  | some e => simp only [Option.isSome_some, if_true, sfind_sput]
  | none =>
    simp only [Option.isSome_none, Bool.false_eq_true, if_false, hhome]
    rw [mem_readN_writeN _ _ _ _ hwf]
    exact BitVec.eq_of_toNat_eq (by rw [BitVec.toNat_ofNat]; have := v.isLt; omega)

section
variable {s : State} {w : Nat}
theorem hostHdmRequest_absent {data : Option Word} (h : isExternal w = true ∨ s.feat 0 = false ∨ reachable s (4 * w) = false) :
    exec (.hostHdmRequest w data) s = .next s := by
  rw [exec_hostHdmRequest]
  unfold execHostHdmRequest
  rw [if_pos (by simpa using h)]
variable (hbonded : isExternal w = false) (hfeat : s.feat 0 = true) (hreach : reachable s (4 * w) = true)
include hbonded hfeat hreach
theorem hostHdmRequest_reads : exec (.hostHdmRequest w none) s =
    .next { s with hostLines := nsInsert s.hostLines (lineOf w), out := s.out ++ [.hdmData w (curVal s w) (wordPoisoned s w)] } := by
  rw [exec_hostHdmRequest]
  unfold execHostHdmRequest
  rw [if_neg (by simp [hbonded, hfeat, hreach])]
theorem hostHdmRequest_writes (v : Word) : exec (.hostHdmRequest w (some v)) s = .next (homeWrite { s with hostLines := nsErase s.hostLines (lineOf w) } w v) := by
  rw [exec_hostHdmRequest]
  unfold execHostHdmRequest
  rw [if_neg (by simp [hbonded, hfeat, hreach])]
end

/-! ## Lost ranges (R318) -/

section
variable {l : Vector LostEntry 16} {port : BitVec 8} {base limit : BitVec 32}
/-- Where an entry is free or has the port, an entry with the port covers the range afterwards. -/
theorem addLost_covers (h : ∃ n, n < 16 ∧ ((l.getD n {}).valid = false ∨ (l.getD n {}).port = port)) :
    ∃ n, n < 16 ∧ ((addLost l port base limit).getD n {}).valid = true ∧ ((addLost l port base limit).getD n {}).port = port ∧
      ((addLost l port base limit).getD n {}).base.toNat ≤ base.toNat ∧ limit.toNat ≤ ((addLost l port base limit).getD n {}).limit.toNat := by
  have hself {i : Nat} (hi : i < 16) (x : LostEntry) : (l.setIfInBounds i x).getD i {} = x := by rw [vector_getD_setIfInBounds _ hi, if_pos rfl]
  unfold addLost
  cases hfree : (List.range 16).find? (fun n => !(l.getD n {}).valid) with
  | some n =>
    have hn : n < 16 := List.mem_range.1 (List.mem_of_find?_eq_some hfree)
    simp only []
    refine ⟨n, hn, ?_⟩
    rw [hself hn]
    exact ⟨rfl, rfl, le_refl _, le_refl _⟩
  | none =>
    have hvalid {n : Nat} (hn : n < 16) : (l.getD n {}).valid = true := by simpa using List.find?_eq_none.1 hfree n (List.mem_range.2 hn)
    cases hport : (List.range 16).find? (fun n => (l.getD n {}).port == port) with
    | some n =>
      have hn : n < 16 := List.mem_range.1 (List.mem_of_find?_eq_some hport)
      simp only []
      refine ⟨n, hn, ?_⟩
      rw [hself hn]
      refine ⟨hvalid hn, by simpa using List.find?_some hport, ?_, ?_⟩
      · have := base.isLt
        simp only [BitVec.toNat_ofNat]
        omega
      · have h1 := limit.isLt
        have h2 := (l.getD n {}).limit.isLt
        simp only [BitVec.toNat_ofNat]
        omega
    | none =>
      obtain ⟨n, hn, hbad | hsame⟩ := h
      · exact absurd ((hvalid hn).symm.trans hbad) (by decide)
      · exact absurd hsame (by simpa using List.find?_eq_none.1 hport n (List.mem_range.2 hn))
end

section
variable {s : State} {port base limit : Word}
/-- The state that knows of a further lost range. -/
def rangeLost (s : State) (port base limit : Word) : State := s.updDev (fun d => { d with lost := addLost d.lost (port.extractLsb' 0 8) base limit })
theorem poolShelfFailure_refused (h : limit.toNat < base.toNat ∨ 4 ≤ port.toNat) : exec (.poolShelfFailure port base limit) s = .next s := by
  rw [exec_poolShelfFailure, execPoolShelfFailure, if_pos h]
theorem poolShelfFailure_loses (hrange : base.toNat ≤ limit.toNat) (hport : port.toNat < 4) : exec (.poolShelfFailure port base limit) s = .next
    { rangeLost s port base limit with
        pending := s.pending.filter (fun p => !(upFrom p.word p.count).any (isLost (rangeLost s port base limit)))
        l1 := s.l1.filter (fun p => !isLost (rangeLost s port base limit) (p.1 % 2 ^ 50))
        l2 := s.l2.filter (fun p => !isLost (rangeLost s port base limit) (p.1 % 2 ^ 50))
        reg := s.reg.filter (fun p => !isLost (rangeLost s port base limit) p.1)
        icache := s.icache.filter (fun p => !isLost (rangeLost s port base limit) (p.1 % 2 ^ 50))
        out := s.out ++ [.hostEvent 0] } := by
  rw [exec_poolShelfFailure, execPoolShelfFailure, if_neg (by omega)]
  rfl
end

end Sys2Proof.Machine
end

section
/-! PROOFS. Withdrawn ranges, requests outstanding too long, and watches (R271, R292, R318). -/

namespace Sys2Proof.Machine
open Sys2Proof

theorem lostRangeWithdraw_withdraws (s : State) (e : Nat) : exec (.lostRangeWithdraw e) s =
    .next (s.updDev (fun d => { d with lost := d.lost.setIfInBounds e { d.lost.getD e {} with valid := false } })) := rfl
theorem withdrawn_entry (l : Vector LostEntry 16) (e n : Nat) : ((l.setIfInBounds e { l.getD e {} with valid := false }).getD e {}).valid = false ∧
    (n ≠ e → (l.setIfInBounds e { l.getD e {} with valid := false }).getD n {} = l.getD n {}) := by
  by_cases he : e < 16
  · refine ⟨?_, fun hn => ?_⟩
    · rw [vector_getD_setIfInBounds _ he, if_pos rfl]
    · rw [vector_getD_setIfInBounds _ he, if_neg hn]
  · rw [Vector.setIfInBounds_eq_of_size_le (Nat.not_lt.1 he)]
    refine ⟨?_, fun _ => rfl⟩
    rw [Vector.getD, Array.getD_eq_getD_getElem?, Vector.getElem?_toArray, Vector.getElem?_eq_none (Nat.not_lt.1 he)]
    rfl

/-! ## Requests that are outstanding too long, and watches (R271, R292) -/

section
variable {s : State} {k : Nat}
theorem memTimeout_strand (h : k < 384) : exec (.memTimeout k) s = .next
    ({ s with cells := s.cells.map (fun (p : Nat × CellCtx) => if p.1 / 64 = k then (p.1, { p.2 with wait := p.2.wait.timeout s.now }) else p) }.upd k
      (fun t => { t with wait := t.wait.timeout s.now })) := by
  rw [exec_memTimeout, execMemTimeout, if_neg (by omega)]
theorem timeout_cells (c : Nat) : sget {} (s.cells.map (fun (p : Nat × CellCtx) => if p.1 / 64 = k then (p.1, { p.2 with wait := p.2.wait.timeout s.now }) else p)) c =
    if c / 64 = k then { s.cell c with wait := (s.cell c).wait.timeout s.now } else s.cell c := by
  have hmap := sget_map {} (fun j (x : CellCtx) => if j / 64 = k then { x with wait := x.wait.timeout s.now } else x) s.cells c (by split <;> rfl)
  unfold State.cell
  rw [← hmap]
  refine congrArg (sget ({} : CellCtx) · c) (List.map_congr_left fun p _ => ?_)
  split <;> rfl
theorem memTimeout_host (h : 384 ≤ k) : exec (.memTimeout k) s = .next { s with atsWaits := s.atsWaits.map (fun (w : AtsWait) =>
    if w.since + 4000000 ≤ s.now ∧ w.verdict.isNone then { w with verdict := some .memTimeout } else w) } := by
  rw [exec_memTimeout, execMemTimeout, if_pos h]
theorem vwaitWatchMet_runs : exec (.vwaitWatchMet k) s = .next (
    if (s.strand k).watch ≠ [] ∧ ∀ x ∈ (s.strand k).watch, watchMet s (ewBits (s.strand k).vtype / 8) x = true then
      s.upd k (fun t => { t with wait := { t.wait with blocked := false } }) else s) := by
  rw [exec_vwaitWatchMet, execVwaitWatchMet]
  refine congrArg Host.Outcome.next (if_congr ?_ rfl rfl)
  rw [List.all_eq_true]
  simp
theorem timeout_due {x : Wait} {since : Nat} (h : x.since = some since) (now : Nat) :
    x.timeout now = if since + 4000000 ≤ now then { x with verdict := some .memTimeout, blocked := false } else x := by
  unfold Wait.timeout
  generalize 4000000 = limit
  rw [h]
  exact if_congr (by rw [Option.any_some, decide_eq_true_eq]) rfl rfl
end

end Sys2Proof.Machine
end

section
/-! PROOFS. The proof of CacheEvents. -/

namespace Sys2Proof.Machine
open Sys2Proof

/-- What the words of a sector leave in memory that leave an L2: those at their home that are dirty and not lost are written. -/
theorem sectorOut_mem {s : State} {die sector : Nat} (hwf : Memory.wf s.mem = true) : Memory.wf (sectorOut s die sector).mem = true ∧
    ∀ a, Mem.read (sectorOut s die sector).mem a = match (if a / 64 = sector then sfind s.l2 (ckey die (a / 4)) else none) with
      | some e => if e.dirty = true ∧ homeDie (a / 4) = die ∧ isLost s (a / 4) = false then byteOf e.val.toNat (a % 4) else Mem.read s.mem a
      | none => Mem.read s.mem a := by
  have hsector : ∀ v ∈ upFrom (16 * sector) 16, homeDie v = homeDie (16 * sector) := fun v hv =>
    homeDie_line ((mem_sectorWords.1 hv).trans (by omega))
  have hin (a : Nat) : a / 4 ∈ upFrom (16 * sector) 16 ↔ a / 64 = sector := by rw [mem_sectorWords]; omega
  unfold sectorOut
  by_cases hhome : homeDie (16 * sector) = die
  · obtain ⟨hmemwf, hread⟩ := l2Outs_home (die := die) (l := upFrom (16 * sector) 16) List.nodup_range' (fun w hw => (hsector w hw).trans hhome) hwf
    refine ⟨hmemwf, fun a => (hread a).trans ?_⟩
    by_cases ha : a / 64 = sector
    · rw [if_pos ha, if_pos ((hin a).2 ha), (hsector _ ((hin a).2 ha)).trans hhome]
      cases sfind s.l2 (ckey die (a / 4)) with
      | none => rfl
      | some e => simp only [true_and]
    · rw [if_neg ha, if_neg (mt (hin a).1 ha)]
  · have haway : ∀ w ∈ upFrom (16 * sector) 16, homeDie w ≠ die := fun w hw => (hsector w hw).symm ▸ hhome
    rw [l2Outs_away (fun v hv => mem_sectorWords.1 hv) haway]
    refine ⟨hwf, fun a => ?_⟩
    by_cases ha : a / 64 = sector
    · rw [if_pos ha]
      cases sfind s.l2 (ckey die (a / 4)) with
      | none => rfl
      | some e => exact (if_neg fun hx => haway _ ((hin a).2 ha) hx.2.1).symm
    · rw [if_neg ha]

theorem sectorOut_words (s : State) (die sector : Nat) : let t := sectorOut s die sector
    (∀ v, v / 16 = sector → sfind t.l2 (ckey die v) = none) ∧
    (∀ v e, v / 16 = sector → sfind s.l2 (ckey die v) = some e → e.dirty = true → homeDie v ≠ die → heldBy s v (128 + die) = true → isLost s v = false →
      sfind t.l2 (ckey (homeDie v) v) = some ⟨e.val, true, s.tick⟩ ∧ sfind t.reg v = none) ∧
    t.strands = s.strands ∧ t.l1 = s.l1 ∧ ∀ v, v / 16 ≠ sector → sfind t.reg v = sfind s.reg v := by
  have hsector : ∀ v ∈ upFrom (16 * sector) 16, v / 16 = sector := fun v hv => mem_sectorWords.1 hv
  have hmem {v : Nat} (hv : v / 16 = sector) : v ∈ upFrom (16 * sector) 16 := mem_sectorWords.2 hv
  have hnodup : (upFrom (16 * sector) 16).Nodup := List.nodup_range'
  have hother {v : Nat} (hv : v / 16 ≠ sector) : v ∉ upFrom (16 * sector) 16 := mt mem_sectorWords.1 hv
  unfold sectorOut
  generalize upFrom (16 * sector) 16 = l at hsector hmem hnodup hother
  obtain ⟨hstrands, hl1, hreg⟩ := l2Outs_kept (die := die) (l := l) s
  exact ⟨fun v hv => l2Outs_gone hsector s (hmem hv), fun v e hv he hd hhome hheld hlost => l2Outs_returned hsector hnodup (hmem hv) hhome he hd hheld hlost,
    hstrands, hl1, fun v hv => hreg v (hother hv)⟩

/-- Settles O50: each event is one case of its equation, and what the homes, the caches and memory then hold follows word by word. -/
theorem cacheEvents : Obligations.CacheEvents := by
  intro s core w die sector line k hwf Does held mine full here
  have hfalse {p : Bool} (h : ¬p = true) : p = false := Bool.eq_false_iff.2 h
  refine ⟨fun hhere => runs_eq (homeRead_absent hhere), fun hhere hfree => ⟨fun hans => ?_, fun hnear hpoison => ?_⟩, fun hhere hheld => ⟨fun hstands => ?_, fun hstands => ⟨fun hroom => ?_, fun hroom hown => ?_, fun hroom hown => ?_⟩⟩,
    fun x hx => ⟨fun h => runs_eq (requestResend_early hx h), fun h => ⟨fun hq => runs_eq (requestResend_agent hx h hq), fun hq => ?_, fun hq => ?_, fun inv hq => ?_⟩⟩,
    fun h => runs_eq (requestResend_none h),
    ⟨fun h => runs_eq (registration_none h), fun p hp => ⟨fun hheld => runs_eq (registration_held hp hheld), fun hfree => ?_⟩⟩,
    ⟨fun h => runs_eq (l1Eviction_none h), fun e he => ⟨fun hd => runs_eq (l1Eviction_clean he hd), fun hd hheld => runs_eq (l1Eviction_stays he hd hheld), fun hd hfree => ?_⟩⟩,
    fun h => runs_eq (l2Eviction_held h), fun h => ?_, fun h => runs_eq (sectorFill_absent h), fun h hhome => ?_, fun c h => runs_eq (cocoonFill_absent h),
    fun c q x hc hq hx hstale hcls hheld => runs_eq (cocoonFill_fills hc hq hx hstale hcls hheld), fun inv => ?_, fun data h => runs_eq (hostHdmRequest_absent h),
    fun hbonded hfeat hreach => ⟨runs_eq (hostHdmRequest_reads hbonded hfeat hreach), fun v => ?_⟩,
    fun port base limit => ⟨fun h => runs_eq (poolShelfFailure_refused h), fun hrange hport => ?_⟩, fun e => ?_, fun hk => ?_, fun hk => ?_, fun x since hx => timeout_due hx _, ⟨fun hw hmet => ?_, fun hno => ?_⟩, fun tile => ⟨fun h => ?_, fun x h => ?_⟩⟩
  · exact runs_eq ((homeRead_served hhere (hfalse hfree)).trans (by rw [serveRead_answered hans]))
  · exact ⟨_, (homeRead_served hhere (hfalse hfree)).trans (by rw [serveRead_fills hnear hpoison]), fillWord_read ..⟩
  · exact runs_eq ((homeRead_held hhere hheld).trans (by rw [if_pos hstands]))
  · exact runs_eq ((homeRead_held hhere hheld).trans (by rw [if_neg (by rw [hstands]; decide), joinHome_shared hroom]))
  · exact runs_eq ((homeRead_held hhere hheld).trans (by rw [if_neg (by rw [hstands]; decide), joinHome_reserved hroom hhere.1 hown]))
  · exact runs_eq ((homeRead_held hhere hheld).trans (by rw [if_neg (by rw [hstands]; decide), joinHome_refused hroom hown]))
  · obtain ⟨hcore, hword⟩ := refused_found hx
    refine runs_eq ((requestResend_again hx h hq (fun _ => nofun) (fun _ => nofun)).trans ?_)
    rw [serveRequest, hq]
    simp only [hcore, hword, held]
  · obtain ⟨hcore, hword⟩ := refused_found hx
    refine runs_eq ((requestResend_again hx h hq (fun _ => nofun) (fun _ => nofun)).trans ?_)
    rw [serveRequest, hq]
    simp only [hcore, hword, held]
    rfl
  · obtain ⟨-, hword⟩ := refused_found hx
    refine runs_eq ((requestResend_again hx h hq (fun _ => nofun) (fun _ => nofun)).trans ?_)
    rw [serveRequest, hq]
    simp only [hword, held]
    rfl
  · obtain ⟨hmem, rfl⟩ := pendingFor_core hp
    exact ⟨_, registration_recorded hp hfree, rfl, registerSpan_gone, (drain_caches s _).mem, fun i v hv hlost => registerSpan_recorded hmem hv hlost⟩
  · obtain ⟨hl1, hmem⟩ := l1Back_frame (s := s) (core := core) (w := w) (v := e.val)
    refine ⟨_, l1Eviction_leaves he hd hfree, hl1, hmem, l1Back_lost, fun hlost => ⟨?_, fun hhome => (l1Back_home hlost hhome).2, fun hhome hdie => (l1Back_die hlost hhome hdie).2⟩⟩
    by_cases hhome : homeDie w = dieOf core ∨ Config.evictsToDie s.tick = false
    · exact (l1Back_home hlost hhome).1
    · obtain ⟨hfar, hdie⟩ := not_or.1 hhome
      exact (l1Back_die hlost hfar (by simpa using hdie)).1
  · obtain ⟨lines, hrun, hlines⟩ := l2Eviction_leaves (s := s) (die := die) h
    obtain ⟨hmemwf, hmem⟩ := sectorOut_mem (die := die) (sector := sector) hwf
    obtain ⟨hgone, hreturned, hstrands, hl1, hreg⟩ := sectorOut_words s die sector
    generalize sectorOut s die sector = z at hrun hlines hmemwf hmem hgone hreturned hstrands hl1 hreg
    exact ⟨_, hrun, hgone, hmemwf, hmem, hreturned, hlines, hstrands, hl1, hreg⟩
  · obtain ⟨hmem, hl1, hreg, hl2⟩ := fillSteps die (upFrom (16 * sector) 16) s
    refine ⟨_, sectorFill_fills h hhome, fun v hv => ?_, hmem, hl1, hreg⟩
    rw [hl2, if_pos (mem_sectorWords.2 hv)]
    rfl
  · intro ask
    have hask : exec ask s = .next (if isExternal (16 * line) then snoop s line inv else s) := by cases inv <;> rfl
    refine ⟨fun h => runs_eq (snoop_internal hask h), fun h => ⟨fun hbusy => ?_, fun hbusy => ⟨fun hheld => runs_eq (snoop_absent hask h hbusy hheld),
      fun hheld hhome => runs_eq (snoop_stands hask h hbusy hheld hhome), fun hheld hhome hdirty => ?_, fun hheld hhome hclean => ?_⟩⟩⟩
    · obtain ⟨hout, hbusy', hwords⟩ := endSnoop_gathers (line := line) (inv := inv) hwf
      exact ⟨_, snoop_ends hask h hbusy, hout, hbusy', hwords, fun hline => answerSnoop_lines _ _ hline⟩
    · exact runs_eq ((snoop_starts hask h hbusy hheld hhome).trans (by rw [startSnoop_dirty hdirty]))
    · obtain ⟨_, _, _, hanswer⟩ := answerSnoop_frame s line inv false
      refine ⟨_, (snoop_starts hask h hbusy hheld hhome).trans (by rw [startSnoop_clean hclean]), ?_, ?_, ?_, fun hline => answerSnoop_lines _ _ hline⟩ <;> rw [hanswer]
  · obtain ⟨hval, hpoison, hout⟩ := homeWrite_bonded (s := { s with hostLines := nsErase s.hostLines (lineOf w) }) (v := v) hwf hbonded (fun hm => (mem_nsErase.1 hm).2 rfl)
    exact ⟨_, hostHdmRequest_writes hbonded hfeat hreach v, rfl, hval, hpoison, hout⟩
  · refine ⟨_, poolShelfFailure_loses hrange hport, fun v hv => sfind_filter_out fun _ => ?_, fun p hp => ?_, fun p hp => ?_, rfl, rfl, rfl, addLost_covers⟩
    · exact (congrArg not hv : _ = not true)
    · exact Bool.not_eq_true' _ ▸ (List.mem_filter.1 hp).2
    · exact Bool.not_eq_true' _ ▸ (List.mem_filter.1 hp).2
  · exact ⟨_, lostRangeWithdraw_withdraws s e, (withdrawn_entry s.dev.lost e e).1, fun n hn => (withdrawn_entry s.dev.lost e n).2 hn, rfl⟩
  · exact ⟨_, memTimeout_strand hk, State.strand_upd_self .., fun j hj => State.strand_upd_of_ne _ _ hj, timeout_cells, rfl⟩
  · refine ⟨_, memTimeout_host hk, rfl, List.map_congr_left fun x _ => ?_⟩
    simp only [Option.isNone_iff_eq_none]
  · exact ⟨_, vwaitWatchMet_runs.trans (by rw [if_pos ⟨hw, hmet⟩]), becomes_upd ..⟩
  · refine runs_eq (vwaitWatchMet_runs.trans (by rw [if_neg fun ⟨hw, hmet⟩ => ?_]))
    rcases hno with hnil | ⟨x, hx, hunmet⟩
    · exact hw hnil
    · exact Bool.false_ne_true (hunmet.symm.trans (hmet x hx))
  · exact runs_eq (by rw [exec_tileZeroComplete, execTileZeroComplete, h])
  · exact runs_eq (by rw [exec_tileZeroComplete, execTileZeroComplete, h])

end Sys2Proof.Machine
end

section
/-! PROOFS. A copy of a word to the word of another number with the same key (R378): what CopyResult asks for and the model does not keep. -/

namespace Sys2Proof.Machine
open Sys2Proof

/-- A transfer of one word from address 0x40 to address 2^36, the first word of die 1. -/
def wordCopy : Transfer := { id := 0, box := { src := 0x40, dst := 0x1000000000, ext := #v[1, 1, 1, 1], esize := 4 } }
/-- The word that shares the key of that word's home: word 2^34 has home 1 and word 2^50 + 2^34 home 0. -/
def twinWord : Nat := 2 ^ 50 + 2 ^ 34
/-- A host-shared process whose pages map to themselves, with the copy pending. Word 0, which tells that it is host-shared, and word 2^34 lie in the L2s. -/
def twinCopy : State :=
  { State.reset with
    strands := [(0, { chan := #v[{ pending := [wordCopy] }, {}, {}, {}], status := .running })]
    dev := { facc := 0x100 }
    l2 := [(0, ⟨0x80000000, false, 0⟩), (twinWord, ⟨5, false, 0⟩)]
    tlb := [{ core := 128, asid := 0, vbase := 0, size := 2 ^ 52, pbase := 0, cls := .n, cp := false, pr := false, r := true, w := true, x := true, u := true, dirty := true }] }

/-- The value of a word after the element has moved. -/
def movedVal (w : Nat) : Option Word := match moveElem 0 0 0 0 twinCopy with | .ok _ t => some (curVal t w) | .error _ _ => none
theorem movedVal_twin : movedVal twinWord = some 0 := by decide +kernel

/-- Refutes O42: word numbers are not bounded in its last clause, and word 2^50 + 2^34, which names no memory, shares the key of its L2 copy with word 2^34 of the bonded DRAM.
The move of an element to word 2^34 gives the other the same value. -/
theorem not_copyResult : ¬ Obligations.CopyResult := by
  unfold Obligations.CopyResult
  intro h
  obtain ⟨-, -, h⟩ := h
  obtain ⟨-, h⟩ := h twinCopy 0 0 wordCopy (by decide +kernel) rfl rfl rfl rfl (by decide +kernel) (by decide +kernel) (by decide +kernel) (by decide +kernel) rfl
  obtain ⟨t, ht, -, hothers⟩ := h rfl rfl rfl rfl rfl rfl rfl 0 0x40 (2 ^ 36) (by rfl) (by rfl) rfl rfl (by decide +kernel)
  have hmoved := movedVal_twin
  unfold movedVal at hmoved
  rw [show moveElem 0 0 0 0 twinCopy = .ok () t from ht] at hmoved
  have hkept := hothers twinWord (by decide +kernel)
  exact absurd ((Option.some.inj hmoved).symm.trans hkept) (by decide +kernel)

end Sys2Proof.Machine
end

section
/-! PROOFS. What a squash leaves of strands and tasks (R447, R452, R453): for the statement SpeculationResult. -/

namespace Sys2Proof.Machine
open Sys2Proof

/-! ## What a squash leaves of strands and tasks -/

/-- A strand without its copies, their completions and interrupts, and its rings. -/
def Strand.uncopied (p : Strand) : Strand :=
  { p with chan := Vector.replicate 4 {}, cpyDone := Vector.replicate 4 0, ui := {}, event := false, rings := Vector.replicate 8 {} }
/-- From s to t strands change in their copies, completions, interrupts and rings only, and no task does. -/
def CopiesOnly (s t : State) : Prop := t.tasks = s.tasks ∧ ∀ i, (t.strand i).uncopied = (s.strand i).uncopied

namespace CopiesOnly
variable {s t u : State}
theorem refl (s : State) : CopiesOnly s s := ⟨rfl, fun _ => rfl⟩
theorem trans (h : CopiesOnly s t) (g : CopiesOnly t u) : CopiesOnly s u := ⟨g.1.trans h.1, fun i => (g.2 i).trans (h.2 i)⟩
theorem of_eq (htasks : t.tasks = s.tasks) (hstrands : t.strands = s.strands) : CopiesOnly s t :=
  ⟨htasks, fun i => by rw [State.strand, hstrands]; rfl⟩
theorem upd {k : Nat} {f : Strand → Strand} (hf : ∀ p, (f p).uncopied = p.uncopied) : CopiesOnly s (s.upd k f) := by
  refine ⟨rfl, fun i => ?_⟩
  rw [State.strand_upd]
  split
  next hi => rw [hi, hf]
  · rfl
theorem foldl {α : Type} {f : State → α → State} (h : ∀ s a, CopiesOnly s (f s a)) (l : List α) (s : State) : CopiesOnly s (l.foldl f s) := by
  induction l generalizing s with
  | nil => exact refl s
  | cons a l ih => exact (h s a).trans (ih (f s a))
end CopiesOnly

theorem fireArm_uncopied (p : Strand) (n : BitVec 2) : (fireArm p n).uncopied = p.uncopied := by
  unfold fireArm
  split
  · split <;> rfl
  · rfl
theorem kernelProgress_copies (s : State) (n : Nat) : CopiesOnly s (kernelProgress s n) :=
  .of_eq (kernelProgress_tasks s n).1 (kernelProgress_tasks s n).2
theorem phaseSeen_copies (s : State) (gk n : Nat) : CopiesOnly s (phaseSeen s gk n) := by
  unfold phaseSeen
  split
  · exact .refl s
  · exact .foldl (fun t k => .upd fun p => by dsimp only; split <;> rfl) _ s
theorem arriveAt_copies (s : State) (gk n : Nat) (wide outside : Bool) : CopiesOnly s (arriveAt s gk n wide outside) := by
  have bars : CopiesOnly s (setBars s (barMembers s gk n) n (·.arrival wide outside)) := .of_eq rfl rfl
  have progress (t : State) : CopiesOnly t (match sfind t.groups gk with
      | some g => kernelProgress t g.kernel
      | none => t) := by
    split
    · exact kernelProgress_copies t _
    · exact .refl t
  unfold arriveAt
  dsimp only
  split
  · split
    · exact bars.trans (progress _)
    · exact (bars.trans (progress _)).trans (phaseSeen_copies _ _ _)
  · exact bars
/-- A strand of which a transfer retires. -/
def Strand.passes (p : Strand) (n : BitVec 2) (x : Transfer) : Strand :=
  let c := p.channel n
  let p := p.setChannel n { c with pending := c.pending.drop 1, outside := c.outside || x.outside }
  fireArm { p with cpyDone := p.cpyDone.set n.toNat (p.done n + 1) n.isLt, event := true } n
theorem Strand.passes_uncopied (p : Strand) (n : BitVec 2) (x : Transfer) : (p.passes n x).uncopied = p.uncopied := by
  unfold Strand.passes
  rw [fireArm_uncopied]
  rfl
theorem retireOne_eq (s : State) (k : Nat) (n : BitVec 2) (x : Transfer) : retireOne s k n x =
    match x.box.bar, ((s.upd k (·.passes n x)).strand k).place with
    | some b, some p => arriveAt (s.upd k (·.passes n x)) p.group b.toNat true x.outside
    | _, _ => s.upd k (·.passes n x) := rfl
theorem retireOne_copies (s : State) (k : Nat) (n : BitVec 2) (x : Transfer) : CopiesOnly s (retireOne s k n x) := by
  have passed : CopiesOnly s (s.upd k (·.passes n x)) := .upd fun p => p.passes_uncopied n x
  rw [retireOne_eq]
  split
  · exact passed.trans (arriveAt_copies ..)
  · exact passed
theorem retireRun_copies (k : Nat) (n : BitVec 2) (l : List Transfer) (s : State) : CopiesOnly s (retireRun k n l s) := by
  induction l generalizing s with
  | nil => exact .refl s
  | cons x l ih =>
    rw [retireRun]
    split
    · exact (retireOne_copies s k n x).trans (ih _)
    · exact .refl s
theorem leaveSpec_copies (s : State) (j : Nat) : CopiesOnly s (leaveSpec true s j) := by
  unfold leaveSpec
  refine .foldl (fun s k => .trans (.upd (k := k) (f := fun t => { t with chan := t.chan.map (Channel.leaveSpec true j) }) fun p => rfl) ?_) _ s
  exact .foldl (fun t n => retireRun_copies k (BitVec.ofNat 2 n) _ t) _ _
/-- A strand without the ring slots of a squashed task. -/
def Strand.slotsLeft (j : Nat) (p : Strand) : Strand :=
  if p.rings.toList.any (fun r => r.unlanded.any (fun q => q.2 == 384 + j)) then { p with rings := p.rings.map (Ring.leaveSpec true j) } else p
theorem slotsLeft_default (j : Nat) : Strand.slotsLeft j {} = {} := if_neg (by simp)
theorem slotsLeave_copies (s : State) (j : Nat) : CopiesOnly s (slotsLeave true s j) := by
  refine ⟨rfl, fun i => ?_⟩
  have hmap := sget_map ({} : Strand) (fun _ p => Strand.slotsLeft j p) s.strands i (slotsLeft_default j)
  have hentry (p : Nat × Strand) : (if p.2.rings.toList.any (fun r => r.unlanded.any (fun q => q.2 == 384 + j)) then
      (p.1, { p.2 with rings := p.2.rings.map (Ring.leaveSpec true j) }) else p) = (p.1, Strand.slotsLeft j p.2) := by
    unfold Strand.slotsLeft
    split <;> rfl
  rw [State.strand, slotsLeave]
  simp only [hentry, hmap]
  unfold Strand.slotsLeft
  split <;> rfl
/-- The transfers and the ring slots of a squashed task leave it. -/
theorem squashLeaves_copies (s : State) (j : Nat) : CopiesOnly s (slotsLeave true (leaveSpec true s j) j) :=
  (leaveSpec_copies s j).trans (slotsLeave_copies _ j)

/-- A task is squashed before its transfers leave it: the strand that runs it is back at its trun (R452). -/
def sentBack (s : State) (z : Task) : State :=
  match z.state with
  | .running k => (cancelFabric s k).upd k (fun p => { backToTrun p with squashed := p.status == RunState.saved || p.status == RunState.restoring })
  | _ => s
/-- What is left of a squashed task in the pool. -/
def Task.requeued (z : Task) : Task := { z.plain with state := .waiting, awaits := z.origSet, held := none }

/-- A strand whose invocation is cancelled changes at most FXSTAT. -/
theorem cancelFabric_frame (s : State) (k : Nat) : (cancelFabric s k).tasks = s.tasks ∧ (cancelFabric s k).mem = s.mem ∧
    (cancelFabric s k).full = s.full ∧ (cancelFabric s k).poison = s.poison ∧ (∀ i, i ≠ k → (cancelFabric s k).strand i = s.strand i) ∧
    ∃ f, (cancelFabric s k).strand k = { s.strand k with fxstat := f } := by
  unfold cancelFabric
  split
  · exact ⟨rfl, rfl, rfl, rfl, fun i hi => State.strand_upd_of_ne _ _ hi, _, State.strand_upd_self ..⟩
  · exact ⟨rfl, rfl, rfl, rfl, fun i _ => rfl, (s.strand k).fxstat, rfl⟩

section
variable {s : State} {j : Nat} {z : Task}

theorem squashTask_eq (hz : sfind s.tasks j = some z) : squashTask false s j =
    if (z.derived || false) = true then
      { slotsLeave true (leaveSpec true (sentBack s z) j) j with tasks := sdel (slotsLeave true (leaveSpec true (sentBack s z) j) j).tasks j }
    else
      { slotsLeave true (leaveSpec true (sentBack s z) j) j with
        tasks := sput (slotsLeave true (leaveSpec true (sentBack s z) j) j).tasks j z.requeued } := by
  unfold squashTask
  rw [hz]
  rfl
theorem sentBack_frame : (sentBack s z).tasks = s.tasks ∧ (sentBack s z).mem = s.mem ∧ (sentBack s z).full = s.full ∧ (sentBack s z).poison = s.poison := by
  unfold sentBack
  split
  next k _ =>
    obtain ⟨htasks, hmem, hfull, hpoison, -⟩ := cancelFabric_frame s k
    exact ⟨htasks, hmem, hfull, hpoison⟩
  · exact ⟨rfl, rfl, rfl, rfl⟩
/-- Everything of a squash but the strand that goes back and the pool. -/
theorem squashTask_frame (hz : sfind s.tasks j = some z) : (squashTask false s j).mem = s.mem ∧ (squashTask false s j).full = s.full ∧
    (squashTask false s j).poison = s.poison ∧ ∀ i, ((squashTask false s j).strand i).uncopied = ((sentBack s z).strand i).uncopied := by
  have work := squashLeaves_work (sentBack s z) j
  have copies := (squashLeaves_copies (sentBack s z) j).2
  obtain ⟨-, hmem, hfull, hpoison⟩ := sentBack_frame (s := s) (z := z)
  rw [squashTask_eq hz]
  generalize slotsLeave true (leaveSpec true (sentBack s z) j) j = u at work copies ⊢
  unfold WorkOnly at work
  have left : u.mem = s.mem ∧ u.full = s.full ∧ u.poison = s.poison :=
    ⟨(congrArg State.mem work).trans hmem, (congrArg State.full work).trans hfull, (congrArg State.poison work).trans hpoison⟩
  obtain ⟨hm, hf, hp⟩ := left
  split
  · exact ⟨hm, hf, hp, copies⟩
  · exact ⟨hm, hf, hp, copies⟩
theorem squashTask_tasks (hz : sfind s.tasks j = some z) : (squashTask false s j).tasks =
    if z.derived = true then sdel s.tasks j else sput s.tasks j z.requeued := by
  have htasks := (squashLeaves_copies (sentBack s z) j).1.trans sentBack_frame.1
  rw [squashTask_eq hz, Bool.or_false]
  split
  · exact congrArg (sdel · j) htasks
  · exact congrArg (sput · j z.requeued) htasks

section
variable (hz : sfind s.tasks j = some z)
include hz
theorem squashTask_task_other {i : Nat} (hi : i ≠ j) : sfind (squashTask false s j).tasks i = sfind s.tasks i := by
  rw [squashTask_tasks hz]
  split
  · rw [sfind_sdel, if_neg hi]
  · rw [sfind_sput, if_neg hi]
theorem squashTask_derived (hd : z.derived = true) : sfind (squashTask false s j).tasks j = none := by
  rw [squashTask_tasks hz, if_pos hd, sfind_sdel, if_pos rfl]
theorem squashTask_requeued (hd : z.derived = false) : sfind (squashTask false s j).tasks j = some z.requeued := by
  rw [squashTask_tasks hz, if_neg (by simp [hd]), sfind_sput, if_pos rfl]
/-- The strand that ran the task. -/
theorem squashTask_runner {k : Nat} (hk : z.state = .running k) :
    let q := (squashTask false s j).strand k
    let p := s.strand k
    q.pc = p.tret - 4 ∧ q.task = none ∧ q.level = .user ∧ q.wait = {} ∧ q.cm = 0 ∧ q.vstart = 0 ∧ q.x = p.x ∧ q.status = p.status ∧
      (q.squashed = true ↔ p.status = .saved ∨ p.status = .restoring) := by
  obtain ⟨-, -, -, -, -, f, hf⟩ := cancelFabric_frame s k
  have back : ∃ p, (sentBack s z).strand k = p ∧ p = { backToTrun { s.strand k with fxstat := f } with
      squashed := (s.strand k).status == RunState.saved || (s.strand k).status == RunState.restoring } := by
    refine ⟨_, rfl, ?_⟩
    rw [sentBack, hk]
    exact (State.strand_upd_self ..).trans (by rw [hf])
  obtain ⟨p, hp, hback⟩ := back
  have left := (squashTask_frame hz).2.2.2 k
  rw [hp] at left
  intro q p'
  refine ⟨(congrArg Strand.pc left).trans (congrArg Strand.pc hback), (congrArg Strand.task left).trans (congrArg Strand.task hback),
    (congrArg Strand.level left).trans (congrArg Strand.level hback), (congrArg Strand.wait left).trans (congrArg Strand.wait hback),
    (congrArg Strand.cm left).trans (congrArg Strand.cm hback), (congrArg Strand.vstart left).trans (congrArg Strand.vstart hback),
    (congrArg Strand.x left :).trans (congrArg Strand.x hback :),
    (congrArg Strand.status left :).trans (congrArg Strand.status hback :), ?_⟩
  have hsq : q.squashed = (p'.status == RunState.saved || p'.status == RunState.restoring) :=
    (congrArg Strand.squashed left).trans (congrArg Strand.squashed hback)
  rw [hsq, Bool.or_eq_true, beq_iff_eq, beq_iff_eq]
/-- A task that runs on no strand sends none back. -/
theorem squashTask_unrun (hrun : ∀ i, z.state ≠ .running i) (k : Nat) : ((squashTask false s j).strand k).pc = (s.strand k).pc ∧
    ((squashTask false s j).strand k).x = (s.strand k).x ∧ ((squashTask false s j).strand k).task = (s.strand k).task := by
  have stays : sentBack s z = s := by
    unfold sentBack
    split
    next i hi => exact absurd hi (hrun i)
    · rfl
  have left := (squashTask_frame hz).2.2.2 k
  rw [stays] at left
  exact ⟨(congrArg Strand.pc left :), (congrArg Strand.x left :), (congrArg Strand.task left :)⟩
end
end

end Sys2Proof.Machine
end

section
/-! PROOFS. The slots of the forecast unit and sfarm, spub, sstat and sabort (R440, R441, R443, R445, R454). -/

namespace Sys2Proof.Machine
open Sys2Proof

/-! ## Slots of the executing die (R440, R445) -/

section
variable {s : State} {k : Nat} (h : s.actor = .strand k) {v : Dword}
include h

theorem slotKey_strand : s.slotKey v = if v.toNat < 64 then some (64 * dieOf (k / 3) + v.toNat) else none := by rw [State.slotKey, core_strand h]
theorem mySlot_strand : s.mySlot v = if v.toNat < 64 then
    (sfind s.fslots (64 * dieOf (k / 3) + v.toNat)).bind (fun z => if z.asid = (s.strand k).e.asid then some (64 * dieOf (k / 3) + v.toNat, z) else none) else none := by
  rw [State.mySlot, slotKey_strand h, State.me_strand h]
  by_cases hv : v.toNat < 64
  · rw [if_pos hv, if_pos hv]
    cases hz : sfind s.fslots (64 * dieOf (k / 3) + v.toNat) <;> simp only [hz] <;> rfl
  · rw [if_neg hv, if_neg hv]
theorem mySlot_beyond (hv : 63 < v.toNat) : s.mySlot v = none := by rw [mySlot_strand h, if_neg (by omega)]
theorem mySlot_unarmed (hv : v.toNat < 64) (hz : sfind s.fslots (64 * dieOf (k / 3) + v.toNat) = none) : s.mySlot v = none := by
  rw [mySlot_strand h, if_pos hv, hz]; rfl
variable {z : FSlot} (hz : sfind s.fslots (64 * dieOf (k / 3) + v.toNat) = some z)
include hz
theorem mySlot_foreign (hv : v.toNat < 64) (hasid : z.asid ≠ (s.strand k).e.asid) : s.mySlot v = none := by
  rw [mySlot_strand h, if_pos hv, hz]
  exact if_neg hasid
theorem mySlot_own (hv : v.toNat < 64) (hasid : z.asid = (s.strand k).e.asid) : s.mySlot v = some (64 * dieOf (k / 3) + v.toNat, z) := by
  rw [mySlot_strand h, if_pos hv, hz]
  exact if_pos hasid
end

/-- The key of the slot that a register names on the die of strand k. -/
abbrev slotAt (s : State) (k : Nat) (a : Reg) : Nat := 64 * dieOf (k / 3) + (readX (s.strand k).x a).toNat
/-- A slot is free for sfarm: it is not armed, or armed by the strand's process with no task holding its forecast. -/
def SlotMine (s : State) (k key : Nat) : Prop := ∀ z, sfind s.fslots key = some z → z.asid = (s.strand k).e.asid ∧ slotHeld s key z = false
/-- The same, as sfarm tests it. -/
def slotMine (s : State) (key : Nat) : Bool := (sfind s.fslots key).all (fun x => x.asid == s.me.e.asid && !slotHeld s key x)
/-- sfarm of a descriptor, once it knows whether the slot is free. -/
def armM (d : Reg) (key : Nat) (mine : Bool) (y : Dword) : M Unit := do
  if y.toNat % 8 ≠ 0 then trapM .misaligned y 0 else pure ()
  let l ← readDwords y 8
  modify (fun s =>
    match slotOf l s.me.e.asid with
    | none => (s.setX d 2).advance
    | some x => if mine then ((armSlot s key x).setX d 0).advance else (s.setX d 1).advance)
/-- spub of an armed slot. -/
def publishM (d : Reg) (j : Nat) (x : FSlot) : M Unit := do
  let s ← get
  if x.pending.isSome || (s.specTask s.key).any (fun p => !p.2.buf.isEmpty) then waitM else pure ()
  releaseM .device
  let r ← readTile (agentCtx s.key x.asid) x.tile x.len
  modify (fun s =>
    let s := acquire s s.core .device
    ((published s (j / 64) ⟨j % 64, x.ver + 1⟩).putSlot j (x.publish s.tick r.1 r.2) |>.setX d ((x.ver + 1).zeroExtend 64)).advance)
/-- The value of sstat for an armed slot (R445). -/
def slotStatus (s : State) (j : Nat) (x : FSlot) : Dword :=
  x.maxerr ++ x.fails ++ x.result ++ BitVec.ofNat 2 x.hist.length ++ (if x.pending.isSome then (2 : BitVec 2) else 1) ++
    BitVec.ofNat 10 (min 1023 (slotHolders s j x).length)
theorem slotStatus_fields (s : State) (j : Nat) (x : FSlot) : (slotStatus s j x).extractLsb' 32 32 = x.maxerr ∧
    (slotStatus s j x).extractLsb' 16 16 = x.fails ∧ (slotStatus s j x).extractLsb' 0 10 = BitVec.ofNat 10 (min 1023 (slotHolders s j x).length) := by
  unfold slotStatus
  generalize (if x.pending.isSome then (2 : BitVec 2) else 1) = p
  generalize BitVec.ofNat 10 _ = n
  generalize BitVec.ofNat 2 _ = l
  refine ⟨?_, ?_, ?_⟩
  all_goals
    refine BitVec.eq_of_getLsbD_eq fun i hi => ?_
    simp only [BitVec.getLsbD_extractLsb', BitVec.getLsbD_append]
    grind

section
variable {s : State} {k : Nat} (h : s.actor = .strand k) {d a b : Reg}
include h

theorem slotMine_iff {key : Nat} : slotMine s key = true ↔ SlotMine s k key := by
  rw [SlotMine, slotMine, State.me_strand h]
  cases sfind s.fslots key <;> simp

/-! ## A number that names no slot -/

section
variable (hx : 63 < (readX (s.strand k).x a).toNat)
include hx
theorem sfarm_beyond : exec (.sfarm d a b) s = .next (s.setX d 2).advance := by
  have hkey : s.slotKey (s.x a) = none := by rw [slotKey_strand h, State.x_strand h, if_neg (by omega)]
  rw [exec_sfarm, execSfarm, hkey]
  rfl
theorem sstat_beyond : exec (.sstat d a) s = .next (s.setX d (BitVec.allOnes 64)).advance := by
  have hkey : s.slotKey (s.x a) = none := by rw [slotKey_strand h, State.x_strand h, if_neg (by omega)]
  rw [exec_sstat, execSstat, hkey]
end
omit h in
/-- spub and sabort of a slot that is not armed by the strand's process. -/
theorem unslotted (hslot : s.mySlot (s.x a) = none) : exec (.spub d a) s = .next (s.setX d (BitVec.allOnes 64)).advance ∧
    exec (.sabort d a) s = .next (s.setX d (BitVec.allOnes 64)).advance := by
  rw [exec_spub, exec_sabort, execSpub, execSabort, hslot]
  exact ⟨rfl, rfl⟩

/-! ## sfarm (R441) -/

variable (hx : (readX (s.strand k).x a).toNat < 64)
include hx
theorem sfarm_frees (hy : readX (s.strand k).x b = 0) : exec (.sfarm d a b) s = .next (
    if slotMine s (slotAt s k a) then (State.setX { s with fslots := sdel s.fslots (slotAt s k a) } d 3).advance else (s.setX d 1).advance) := by
  rw [exec_sfarm, execSfarm, slotKey_strand h, State.x_strand h, State.x_strand h, if_pos hx]
  simp only []
  rw [if_pos hy]
  rfl
theorem sfarm_arms (hy : readX (s.strand k).x b ≠ 0) :
    exec (.sfarm d a b) s = runInstr (armM d (slotAt s k a) (slotMine s (slotAt s k a)) (readX (s.strand k).x b)) s := by
  rw [exec_sfarm, execSfarm, slotKey_strand h, State.x_strand h, State.x_strand h, if_pos hx]
  simp only []
  rw [if_neg hy]
  rfl
theorem sfarm_misaligned (hy : (readX (s.strand k).x b).toNat % 8 ≠ 0) :
    exec (.sfarm d a b) s = .next (raise s ⟨.misaligned, readX (s.strand k).x b, 0⟩) := by
  rw [sfarm_arms h hx fun h0 => hy (by rw [h0]; rfl)]
  refine runInstr_trap ?_
  simp only [armM]
  rw [if_pos hy]
  rfl
theorem sfarm_reads (hy : readX (s.strand k).x b ≠ 0) (halign : (readX (s.strand k).x b).toNat % 8 = 0) {l : List Nat} {u : State}
    (hread : readDwords (readX (s.strand k).x b) 8 s = .ok l u) : exec (.sfarm d a b) s = .next
      (match slotOf l u.me.e.asid with
      | none => (u.setX d 2).advance
      | some x => if slotMine s (slotAt s k a) then ((armSlot u (slotAt s k a) x).setX d 0).advance else (u.setX d 1).advance) := by
  rw [sfarm_arms h hx hy]
  refine runInstr_ok ?_
  simp only [armM]
  rw [if_neg (by omega)]
  exact bindM_ok hread

/-! ## sstat and sabort (R445, R454) -/

theorem sstat_unarmed (hz : sfind s.fslots (slotAt s k a) = none) : exec (.sstat d a) s = .next (s.setX d 0).advance := by
  rw [exec_sstat, execSstat, slotKey_strand h, State.x_strand h, if_pos hx]
  simp only [hz]
variable {z : FSlot} (hz : sfind s.fslots (slotAt s k a) = some z)
include hz
theorem sstat_foreign (hasid : z.asid ≠ (s.strand k).e.asid) : exec (.sstat d a) s = .next (s.setX d (BitVec.allOnes 64)).advance := by
  rw [exec_sstat, execSstat, slotKey_strand h, State.x_strand h, if_pos hx]
  simp only [hz]
  rw [State.me_strand h, if_pos hasid]
variable (hasid : z.asid = (s.strand k).e.asid)
include hasid
theorem sstat_describes : exec (.sstat d a) s = .next (s.setX d (slotStatus s (slotAt s k a) z)).advance := by
  rw [exec_sstat, execSstat, slotKey_strand h, State.x_strand h, if_pos hx]
  simp only [hz]
  rw [State.me_strand h, if_neg (not_not_intro hasid)]
  rfl
theorem sabort_waits (hp : z.pending ≠ none) : exec (.sabort d a) s = .next s.block := by
  rw [exec_sabort, execSabort, State.x_strand h, mySlot_own h hz hx hasid]
  simp only []
  rw [if_pos (Option.isSome_iff_ne_none.2 hp)]
/-- The state of sabort once it has closed the forecast. -/
theorem sabort_closes (hp : z.pending = none) : exec (.sabort d a) s = .next (
    let t := failForecast false { s with fslots := sput s.fslots (slotAt s k a) ({ z with result := 3 } : FSlot).form } (slotAt s k a / 64) ⟨slotAt s k a % 64, z.ver + 1⟩
    if (slotHolders s (slotAt s k a) z).any (fun p => (s.strand k).task == some p.1) then t
    else (t.setX d (BitVec.ofNat 64 (slotHolders s (slotAt s k a) z).length)).advance) := by
  rw [exec_sabort, execSabort, State.x_strand h, mySlot_own h hz hx hasid]
  simp only []
  rw [if_neg (by rw [hp]; exact Bool.false_ne_true), State.me_strand h]
  rfl

/-! ## spub (R443) -/

theorem spub_publishes : exec (.spub d a) s = runInstr (publishM d (slotAt s k a) z) s := by
  rw [exec_spub, execSpub, State.x_strand h, mySlot_own h hz hx hasid]
  rfl
end

end Sys2Proof.Machine
end

section
/-! PROOFS. sspawn, the decision on a forecast and spub in parts (R443, R444, R446, R451, R452). -/

namespace Sys2Proof.Machine
open Sys2Proof

/-! ## sspawn (R446) -/

/-- The slots that a speculation record names, each with its slot where the process has armed it. -/
def namedSlots (s : State) (ns : List Nat) : List (Nat × Option (Nat × FSlot)) :=
  ns.map (fun n => (n, if n < 64 then s.mySlot (BitVec.ofNat 64 n) else none))
/-- The forecasts of named slots that a task is spawned on. -/
def namedForecasts (slots : List (Nat × Option (Nat × FSlot))) : List Fc :=
  (slots.map (fun p => (⟨p.1, (p.2.elim 0 (fun q => q.2.ver)) + 1⟩ : Fc))).dedup
/-- The task that sspawn adds to the pool in state s. -/
def speculated (s : State) (t : TaskDesc) (r : List Nat × List Range × List Range × Bool) (named : List Fc) : Task :=
  let par := s.specTask s.key
  let set := unionSet (par.elim [] (fun p => p.2.set)) named
  { s.newTask t with set := set, origSet := set, reads := r.2.1, writes := r.2.2.1, derived := par.isSome, parent := par.map (·.1) }
/-- sspawn once its release is made. -/
def enqueueSpeculated (d : Reg) (t : TaskDesc) (r : List Nat × List Range × List Range × Bool) (named : List Fc) : M Unit :=
  modify (fun s =>
    let j := (freeEntry s (dieOf s.core)).getD 0
    ((enqueue s j (speculated s t r named)).setX d (spawnResult 0 (handleOf j))).advance)
/-- sspawn once its descriptor and its record are read. -/
def speculateM (d : Reg) (t : TaskDesc) (l : List Nat) : M Unit := do
  let r := specRecord l
  let s ← get
  let slots := namedSlots s r.1
  let fin (n : Nat) : M Unit := modify (fun s => (s.setX d (spawnResult n 0)).advance)
  if refuses t s.futSize then fin 1
  else if r.2.2.2 || slots.any (fun p => p.2.isNone) then fin 3
  else if slots.any (fun p => p.2.any (fun q => q.2.forecast.isNone)) then fin 4
  else if 1024 ≤ ((dieTasks s (dieOf s.core)).filter (fun p => !p.2.set.isEmpty)).length then fin 5
  else if poolFull s t.queue then fin 2
  else do
    releaseM .die
    enqueueSpeculated d t r (namedForecasts slots)
/-- A dword of a speculation record, as the strand's task sees it. -/
def recordDword (b : Reg) (i : Nat) : M Nat := do
  let s ← get
  let ea := s.x b + BitVec.ofNat 64 (8 * i)
  let t ← route s.ctx ea 8 .read 0 0
  let v ← readTarget s.ctx t 8 ea 0
  let s ← get
  pure (match s.specTask s.key with | some (_, q) => overlay q t.place 8 v | none => v)

theorem none_mem_namedSlots {s : State} {ns : List Nat} : (namedSlots s ns).any (fun p => p.2.isNone) = true ↔
    none ∈ ns.map (fun n => if n < 64 then s.mySlot (BitVec.ofNat 64 n) else none) := by
  simp only [namedSlots, List.any_map, List.any_eq_true, Function.comp, Option.isNone_iff_eq_none, List.mem_map]
theorem closed_namedSlots {s : State} {ns : List Nat} : (namedSlots s ns).any (fun p => p.2.any (fun q => q.2.forecast.isNone)) = true ↔
    ∃ q z, some (q, z) ∈ ns.map (fun n => if n < 64 then s.mySlot (BitVec.ofNat 64 n) else none) ∧ z.forecast = none := by
  have hany (o : Option (Nat × FSlot)) : o.any (fun q => q.2.forecast.isNone) = true ↔ ∃ q z, o = some (q, z) ∧ z.forecast = none := by
    rcases o with _ | ⟨q, z⟩ <;> simp
  simp only [namedSlots, List.any_map, List.any_eq_true, Function.comp, List.mem_map, hany]
  constructor
  · rintro ⟨n, hn, q, z, hz, hnone⟩; exact ⟨q, z, ⟨n, hn, hz⟩, hnone⟩
  · rintro ⟨q, z, ⟨n, hn, hz⟩, hnone⟩; exact ⟨n, hn, q, z, hz, hnone⟩
theorem namedForecasts_eq (s : State) (ns : List Nat) : namedForecasts (namedSlots s ns) =
    (ns.map (fun n => (⟨n, (if n < 64 then s.mySlot (BitVec.ofNat 64 n) else none).elim 0 (fun z => z.2.ver) + 1⟩ : Fc))).dedup := by
  rw [namedForecasts, namedSlots, List.map_map]
  rfl

theorem spawnResult_status : ∀ n < 6, spawnResult n 0 = BitVec.ofNat 64 (2 ^ 32 * n) := by decide

section
variable {u : State} {d : Reg} {t : TaskDesc} {l : List Nat}

/-- The outcome of sspawn with a status other than zero. -/
def Refuses (d : Reg) (t : TaskDesc) (l : List Nat) (u : State) (n : Nat) : Prop :=
  speculateM d t l u = .ok ⟨⟩ (u.setX d (spawnResult n 0)).advance

theorem speculateM_bad (h1 : refuses t u.futSize = true) : Refuses d t l u 1 := by
  simp only [Refuses, speculateM]
  rw [bindM_get, if_pos h1]; rfl
variable (h1 : refuses t u.futSize = false)
include h1
theorem speculateM_broken (h3 : ((specRecord l).2.2.2 || (namedSlots u (specRecord l).1).any (fun p => p.2.isNone)) = true) : Refuses d t l u 3 := by
  simp only [Refuses, speculateM]
  rw [bindM_get, if_neg (by simp [h1]), if_pos h3]; rfl
variable (h3 : ¬((specRecord l).2.2.2 || (namedSlots u (specRecord l).1).any (fun p => p.2.isNone)) = true)
include h3
theorem speculateM_closed (h4 : (namedSlots u (specRecord l).1).any (fun p => p.2.any (fun q => q.2.forecast.isNone)) = true) : Refuses d t l u 4 := by
  simp only [Refuses, speculateM]
  rw [bindM_get, if_neg (by simp [h1]), if_neg h3, if_pos h4]; rfl
variable (h4 : ¬(namedSlots u (specRecord l).1).any (fun p => p.2.any (fun q => q.2.forecast.isNone)) = true)
include h4
theorem speculateM_crowded (h5 : 1024 ≤ ((dieTasks u (dieOf u.core)).filter (fun p => !p.2.set.isEmpty)).length) : Refuses d t l u 5 := by
  simp only [Refuses, speculateM]
  rw [bindM_get, if_neg (by simp [h1]), if_neg h3, if_neg h4, if_pos h5]; rfl
variable (h5 : ¬1024 ≤ ((dieTasks u (dieOf u.core)).filter (fun p => !p.2.set.isEmpty)).length)
include h5
theorem speculateM_full (h2 : poolFull u t.queue = true) : Refuses d t l u 2 := by
  simp only [Refuses, speculateM]
  rw [bindM_get, if_neg (by simp [h1]), if_neg h3, if_neg h4, if_neg h5, if_pos h2]; rfl
variable (h2 : poolFull u t.queue = false)
include h2
theorem speculateM_releases : speculateM d t l u =
    (releaseM .die >>= fun _ => enqueueSpeculated d t (specRecord l) (namedForecasts (namedSlots u (specRecord l).1))) u := by
  simp only [speculateM]
  rw [bindM_get, if_neg (by simp [h1]), if_neg h3, if_neg h4, if_neg h5, if_neg (by simp [h2])]
end

section
variable {u : State} {k : Nat} (hu : u.actor = .strand k) {d : Reg} {t : TaskDesc} {r : List Nat × List Range × List Range × Bool} {named : List Fc}
include hu
theorem enqueueSpeculated_released (hw : releaseWaits u (k / 3) .die = false) {j : Nat} (hj : freeEntry u (dieOf (k / 3)) = some j) :
    (releaseM .die >>= fun _ => enqueueSpeculated d t r named) u =
      .ok ⟨⟩ ((enqueue (release u (k / 3) .die) j
        { (release u (k / 3) .die).newTask t with
          set := unionSet ((u.specTask k).elim [] (fun q => q.2.set)) named, origSet := unionSet ((u.specTask k).elim [] (fun q => q.2.set)) named
          reads := r.2.1, writes := r.2.2.1, derived := (u.specTask k).isSome, parent := (u.specTask k).map (·.1) }).setX d
            (BitVec.ofNat 64 (j % 2 ^ 16))).advance := by
  have caches := release_caches u (k / 3) .die
  have hrel : (release u (k / 3) .die).actor = .strand k := caches.actor.trans hu
  have hfree : freeEntry (release u (k / 3) .die) (dieOf (k / 3)) = some j := by rw [freeEntry, caches.tasks]; exact hj
  have hpar : (release u (k / 3) .die).specTask k = u.specTask k := caches.specTask k
  rw [bindM_ok (releaseM_released hu hw), enqueueSpeculated, modifyM_apply, core_strand hrel, hfree]
  simp only [Option.getD_some, spawnResult_handle, speculated, State.key_strand hrel, hpar]
end

section
variable {s u u2 : State} {k : Nat} (h : s.actor = .strand k) {d a b : Reg} {t : TaskDesc} {l : List Nat}
include h
theorem sspawn_reads (hread : readTask (readX (s.strand k).x a) true s = .ok t u) (halign : (readX (s.strand k).x b).toNat % 8 = 0)
    (hmail : winCode (readX (s.strand k).x b) ≠ 0xF0) (hdev : winCode (readX (s.strand k).x b) ≠ 0xFE)
    (hrec : collectM (List.range 8) (recordDword b) u = .ok l u2) :
    ∃ m : M Unit, exec (.sspawn d a b) s = runInstr m s ∧ m s = speculateM d t l u2 := by
  refine ⟨_, rfl, (bindM_ok (m := readTask (s.x a) true) (by rw [State.x_strand h]; exact hread)).trans ?_⟩
  rw [State.x_strand h, if_neg (by omega), if_neg (by rw [not_or]; exact ⟨hmail, hdev⟩)]
  exact bindM_ok hrec
end

/-! ## FORECAST_DECISION (R444, R451, R452) -/

/-- A slot once its pending decision has taken effect. -/
def FSlot.decided (z : FSlot) (q : Decision) (result : BitVec 2) : FSlot :=
  { z with pending := none, maxerr := q.maxerr, fails := BitVec.ofNat 16 (min q.fails 0xFFFF), result := result }

section
variable {s : State} {dn n : Nat} {z : FSlot} {q : Decision}

theorem decisionBefore_iff {m : Nat} : decisionBefore s dn m = true ↔ ∃ r ∈ s.fslots, r.1 / 64 = dn ∧ ∃ e, r.2.pending = some e ∧ e.at_ < m := by
  simp only [decisionBefore, List.any_eq_true, Bool.and_eq_true, beq_iff_eq, Option.any_eq_true, decide_eq_true_eq]

variable (hz : sfind s.fslots (64 * dn + n) = some z) (hq : z.pending = some q)
include hz hq
theorem decideForecast_later (hbefore : decisionBefore s dn q.at_ = true) : decideForecast s dn n = s := by
  unfold decideForecast
  simp only [hz, hq]
  rw [if_pos hbefore]
variable (hfirst : ¬decisionBefore s dn q.at_ = true)
include hfirst
theorem decideForecast_fails (hpass : q.pass = false) : decideForecast s dn n =
    failForecast false { s with fslots := sput s.fslots (64 * dn + n) (z.decided q 2) } dn ⟨n, q.ver⟩ := by
  unfold decideForecast
  simp only [hz, hq]
  rw [if_neg hfirst]
  simp only [hpass]
  rfl
theorem decideForecast_waits (hpass : q.pass = true) {e : Stop} {u : State} (hready : passReady dn ⟨n, q.ver⟩ s = .error e u) :
    decideForecast s dn n = keepRequests s u := by
  unfold decideForecast
  simp only [hz, hq]
  rw [if_neg hfirst]
  simp only [hpass, if_true, hready]
theorem decideForecast_passes (hpass : q.pass = true) {u : State} (hready : passReady dn ⟨n, q.ver⟩ s = .ok () u) :
    let u1 : State := { u with fslots := sput u.fslots (64 * dn + n) (z.decided q 1) }
    decideForecast s dn n = passForecast (if z.handoff && !(emerging u1 dn ⟨n, q.ver⟩).isEmpty then noteHeld u1 dn n else u1) dn ⟨n, q.ver⟩ := by
  unfold decideForecast
  simp only [hz, hq]
  rw [if_neg hfirst]
  simp only [hpass, if_true, hready]
  rfl
end

/-! ## spub (R443) -/

/-- spub once it has made its release. -/
def readAndPublish (k : Nat) (d : Reg) (j : Nat) (z : FSlot) : M Unit := do
  let r ← readTile (agentCtx k z.asid) z.tile z.len
  modify (fun s =>
    let s := acquire s s.core .device
    ((published s (j / 64) ⟨j % 64, z.ver + 1⟩).putSlot j (z.publish s.tick r.1 r.2) |>.setX d ((z.ver + 1).zeroExtend 64)).advance)

section
variable {s : State} {k : Nat} (h : s.actor = .strand k) {d : Reg} {j : Nat} {z : FSlot}
include h
theorem publishM_waits (hwait : (z.pending.isSome || (s.specTask k).any (fun p => !p.2.buf.isEmpty)) = true) : publishM d j z s = .error .wait s := by
  simp only [publishM]
  rw [bindM_get, State.key_strand h, if_pos hwait]
  rfl
variable (hgo : ¬(z.pending.isSome || (s.specTask k).any (fun p => !p.2.buf.isEmpty)) = true)
include hgo
theorem publishM_releases : publishM d j z s = (releaseM .device >>= fun _ => readAndPublish k d j z) s := by
  simp only [publishM]
  rw [bindM_get, State.key_strand h, if_neg hgo]
  rfl
theorem publishM_publishes (hw : releaseWaits s (k / 3) .device = false) {r : List Byte × Bool} {u : State}
    (hread : readTile (agentCtx k z.asid) z.tile z.len (release s (k / 3) .device) = .ok r u) (hu : u.actor = .strand k) :
    publishM d j z s = .ok ⟨⟩ (State.setX { published (acquire u (k / 3) .device) (j / 64) ⟨j % 64, z.ver + 1⟩ with
      fslots := sput (acquire u (k / 3) .device).fslots j (z.publish (acquire u (k / 3) .device).tick r.1 r.2) } d ((z.ver + 1).zeroExtend 64)).advance := by
  rw [publishM_releases h hgo, bindM_ok (releaseM_released h hw), readAndPublish, bindM_ok hread, modifyM_apply, core_strand hu]
  rfl
end

end Sys2Proof.Machine
end

section
/-! PROOFS. The statement SpeculationResult. -/

namespace Sys2Proof.Machine
open Sys2Proof

/-- What a strand that has read into u gives, where u's actor is the strand. -/
theorem runs_gives {i : Instr} {s u : State} {k : Nat} (hu : u.actor = .strand k) {d : Reg} {v : Dword} (hi : exec i s = .next (u.setX d v).advance) :
    Runs i s (StrandBecomes u k ((u.strand k).gives d v)) := ⟨_, hi, gives_strand hu d v⟩

section
variable {s u : State} {k : Nat} (hu : u.actor = .strand k) {d a b : Reg} {m : M Unit} {t : TaskDesc} {l : List Nat}
  (hi : exec (.sspawn d a b) s = runInstr m s) (hm : m s = speculateM d t l u)
include hu hi hm

theorem sspawn_answers {n : Nat} (hn : n < 6) (href : Refuses d t l u n) :
    Runs (.sspawn d a b) s (StrandBecomes u k ((u.strand k).gives d (BitVec.ofNat 64 (2 ^ 32 * n)))) :=
  runs_gives hu ((hi.trans (runInstr_ok (hm.trans href))).trans (by rw [spawnResult_status n hn]))
end

/-- What spub gives once it has read the tile and acquired, in state q. -/
theorem published_gives {q : State} {k : Nat} (hq : q.actor = .strand k) {dn : Nat} {f : Fc} {l : Sparse FSlot} {d : Reg} {v : Dword} :
    StrandBecomes { published q dn f with fslots := l } k ((q.strand k).gives d v) (State.setX { published q dn f with fslots := l } d v).advance :=
  gives_strand (s := { published q dn f with fslots := l }) hq d v

/-- Settles O45: the instructions of the forecast unit by the cases of the slot that they name, and a squash by what it leaves of strands and tasks. -/
theorem speculationResult : Obligations.SpeculationResult := by
  refine ⟨fun s k d a b => ⟨fun h => ?_, fun dn n z q hz hq => ?_⟩, fun s j z hz => ?_⟩
  · intro key buffered mine Gives
    have gives {i : Instr} {v : Dword} (hi : exec i s = .next (s.setX d v).advance) : Gives i v := runs_gives h hi
    have hx : s.x a = readX (s.strand k).x a := State.x_strand h a
    have hbuffered : (s.specTask k).any (fun p => !p.2.buf.isEmpty) = true ↔ buffered := by
      simp only [Option.any_eq_true, Bool.not_eq_true', List.isEmpty_eq_false_iff, buffered, ne_eq]
    have hgo {z : FSlot} (hp : z.pending = none) (hb : ¬buffered) : ¬(z.pending.isSome || (s.specTask k).any (fun p => !p.2.buf.isEmpty)) = true := by
      rw [hp, Option.isSome_none, Bool.false_or, hbuffered]
      exact hb
    have hmine : slotMine s key = true ↔ mine := slotMine_iff h
    refine ⟨fun hbig => ?beyond, fun hlt => ⟨fun hy hn => ?held, fun hy hm => ?freed, fun hy => runs_eq (sfarm_misaligned h hlt hy), fun hy halign l u hread hactor => ?armed,
      fun hnone => ?unarmed, fun z hz hasid => ?foreign, fun z hz hasid => ⟨fun hp => ?pubWaits, fun hp hbuf => ?pubBuffered, fun hp hbuf hw => ?pubReleases,
        fun hp hbuf hw r u hread hactor => ?published, ?status, fun hp => runs_eq (sabort_waits h hlt hz hasid hp), fun hp => ?aborted⟩⟩, ?spawn⟩
    case beyond =>
      obtain ⟨hpub, habort⟩ := unslotted (d := d) (hx ▸ mySlot_beyond h hbig)
      exact ⟨gives (sfarm_beyond h hbig), gives hpub, gives (sstat_beyond h hbig), gives habort⟩
    case held => exact gives ((sfarm_frees h hlt hy).trans (by rw [if_neg (hn ∘ hmine.1)]))
    case freed => exact runs_gives (u := { s with fslots := sdel s.fslots key }) h ((sfarm_frees h hlt hy).trans (congrArg Host.Outcome.next (if_pos (hmine.2 hm))))
    case armed =>
      have hu : u.actor = .strand k := hactor.trans h
      have hi := sfarm_reads h hlt hy halign hread (d := d)
      rw [State.me_strand hu] at hi
      refine ⟨fun hno => runs_gives hu (by rw [hi, hno]), fun z hz => ⟨fun hn => runs_gives hu (by rw [hi, hz]; exact congrArg _ (if_neg (hn ∘ hmine.1))), fun hm => ?_⟩⟩
      rw [hz] at hi
      exact runs_gives (u := armSlot u key z) hu (hi.trans (congrArg Host.Outcome.next (if_pos (hmine.2 hm))))
    case unarmed =>
      obtain ⟨hpub, habort⟩ := unslotted (d := d) (hx ▸ mySlot_unarmed h hlt hnone)
      exact ⟨gives hpub, gives (sstat_unarmed h hlt hnone), gives habort⟩
    case foreign =>
      obtain ⟨hpub, habort⟩ := unslotted (d := d) (hx ▸ mySlot_foreign h hz hlt hasid)
      exact ⟨gives hpub, gives (sstat_foreign h hlt hz hasid), gives habort⟩
    case pubWaits =>
      exact runs_eq ((spub_publishes h hlt hz hasid).trans (runInstr_wait (publishM_waits h (by rw [Option.isSome_iff_ne_none.2 hp, Bool.true_or]))))
    case pubBuffered =>
      exact runs_eq ((spub_publishes h hlt hz hasid).trans (runInstr_wait (publishM_waits h (by rw [hbuffered.2 hbuf, Bool.or_true]))))
    case pubReleases =>
      exact releaseM_waits (spub_publishes h hlt hz hasid) (publishM_releases h (hgo hp hbuf)) h hw
    case published =>
      have hu : u.actor = .strand k := hactor.trans h
      have hi := (spub_publishes h hlt hz hasid (d := d)).trans (runInstr_ok (publishM_publishes h (hgo hp hbuf) hw hread hu))
      exact ⟨_, hi, published_gives ((acquire_caches u (k / 3) .device).actor.trans hu)⟩
    case status =>
      obtain ⟨hmax, hfails, hheld⟩ := slotStatus_fields s key z
      exact ⟨_, gives (sstat_describes h hlt hz hasid), hmax, hfails, hheld⟩
    case aborted =>
      have hi := sabort_closes h hlt hz hasid hp (d := d)
      have hown : (slotHolders s key z).any (fun p => (s.strand k).task == some p.1) = true ↔ ∃ q ∈ slotHolders s key z, (s.strand k).task = some q.1 := by
        simp only [List.any_eq_true, beq_iff_eq]
      exact ⟨fun ho => runs_eq (hi.trans (congrArg Host.Outcome.next (if_pos (hown.2 ho)))),
        fun hn => runs_eq (hi.trans (congrArg Host.Outcome.next (if_neg (hn ∘ hown.1))))⟩
    case spawn =>
      intro t l u u2 hread hactor halign hmail hdev hacc r dn slots Answers broken closed crowded
      obtain ⟨hrec, hactor2⟩ := collectM_of_accesses hacc
      have hu : u2.actor = .strand k := hactor2.trans (hactor.trans h)
      obtain ⟨m, hi, hm⟩ := sspawn_reads h hread halign hmail hdev hrec (d := d)
      have hbroken : (r.2.2.2 || (namedSlots u2 r.1).any (fun p => p.2.isNone)) = true ↔ broken := by
        rw [Bool.or_eq_true, none_mem_namedSlots]
      have hclosed : (namedSlots u2 r.1).any (fun p => p.2.any (fun q => q.2.forecast.isNone)) = true ↔ closed := closed_namedSlots
      have hcrowded : 1024 ≤ ((dieTasks u2 (dieOf u2.core)).filter (fun p => !p.2.set.isEmpty)).length ↔ crowded := by rw [core_strand hu]
      refine ⟨fun h1 => sspawn_answers hu hi hm (by decide) (speculateM_bad h1), fun h1 =>
        ⟨fun hb => sspawn_answers hu hi hm (by decide) (speculateM_broken h1 (hbroken.2 hb)),
         fun hb hc => sspawn_answers hu hi hm (by decide) (speculateM_closed h1 (hb ∘ hbroken.1) (hclosed.2 hc)),
         fun hb hc hw => sspawn_answers hu hi hm (by decide) (speculateM_crowded h1 (hb ∘ hbroken.1) (hc ∘ hclosed.1) (hcrowded.2 hw)),
         fun hb hc hw hf => sspawn_answers hu hi hm (by decide) (speculateM_full h1 (hb ∘ hbroken.1) (hc ∘ hclosed.1) (hw ∘ hcrowded.1) hf), ?_⟩⟩
      refine ⟨fun hb hc hw hf hwait => ?_, fun hb hc hw hf j hj hfree => ?_⟩
      all_goals have hgo := hm.trans (speculateM_releases h1 (hb ∘ hbroken.1) (hc ∘ hclosed.1) (hw ∘ hcrowded.1) hf (d := d))
      · exact releaseM_waits hi hgo hu hwait
      · have hdone := hgo.trans (enqueueSpeculated_released hu hfree hj)
        rw [namedForecasts_eq] at hdone
        exact ⟨_, hi.trans (runInstr_ok hdone), rfl⟩
  · have hbefore := decisionBefore_iff (s := s) (dn := dn) (m := q.at_)
    refine ⟨fun he => runs_eq (congrArg Host.Outcome.next (decideForecast_later hz hq (hbefore.2 he))),
      fun he hpass e u hready => runs_eq (congrArg Host.Outcome.next (decideForecast_waits hz hq (he ∘ hbefore.1) hpass hready)),
      fun he hpass u hready => runs_eq (congrArg Host.Outcome.next (decideForecast_passes hz hq (he ∘ hbefore.1) hpass hready)),
      fun he hpass => runs_eq (congrArg Host.Outcome.next ((decideForecast_fails hz hq (he ∘ hbefore.1) hpass).trans ?_))⟩
    simp only [hpass]
    rfl
  · obtain ⟨hmem, hfull, hpoison, -⟩ := squashTask_frame hz
    exact ⟨hmem, hfull, hpoison, fun i hi => squashTask_task_other hz hi, squashTask_derived hz,
      fun hd => ⟨_, squashTask_requeued hz hd, rfl, rfl, rfl, rfl, rfl, rfl, rfl, rfl, rfl⟩, fun k hk => squashTask_runner hz hk,
      fun k hrun => squashTask_unrun hz hrun k⟩
end Sys2Proof.Machine
end

section
/-! PROOFS. The structures of the solver sequencer and who owns it (R457 to R462): for the statement SolverResult. -/

namespace Sys2Proof.Machine
open Sys2Proof

/-! ## Who owns the sequencer -/

section
variable {s : State} {k : Nat} (h : s.actor = .strand k)
include h
/-- The strand's kernel owns the sequencer of its die. -/
def OwnsSolver (s : State) (k : Nat) : Prop :=
  (s.solver (dieOf (k / 3))).owner ≠ none ∧ (s.solver (dieOf (k / 3))).owner = (s.groupOf k).map (·.kernel)
theorem myKernel_strand : s.myKernel = (s.groupOf k).map (·.kernel) := by rw [State.myKernel, State.key_strand h]
theorem ownsSolver_iff : ownsSolver s = true ↔ OwnsSolver s k := by
  rw [ownsSolver, OwnsSolver, core_strand h, myKernel_strand h]
  cases (s.solver (dieOf (k / 3))).owner <;> cases (s.groupOf k).map (·.kernel) <;> simp
end

/-- An instruction that answers a value in state u. -/
theorem answer_runs {i : Instr} {m : M Unit} {s u : State} {k : Nat} (hu : u.actor = .strand k) {d : Reg} {v : Dword} (hi : exec i s = runInstr m s)
    (hm : m s = answer d v u) : Runs i s (StrandBecomes u k ((u.strand k).gives d v)) :=
  runs_gives hu (hi.trans (runInstr_ok hm))

/-! ## Structures that are read (R457 to R462) -/

/-- sqinit of a sequencer that the kernel may take. -/
def initM (d : Reg) (die : Nat) (x : Dword) (noKernel : Bool) : M Unit := do
  let l ← readDwords x 12
  let r := sqBlockOf l
  if r.2.2 || noKernel then answer d 2
  else do
    let f ← readDwords r.2.1 32
    let fs := (List.range 64).map (wordAt f)
    if !fs.all positive32 then answer d 2
    else do
      modify (fun s => s.setSolver die
        { owner := s.myKernel, strand := s.key, asid := s.me.e.asid, enders := nsErase (s.solver die).enders s.key
          block := some { r.1 with factors := fs.map (BitVec.ofNat 32) } })
      answer d 0
/-- sqtab of a sequencer that the kernel owns, without a run. -/
def tableM (d : Reg) (die : Nat) (x : Dword) : M Unit := do
  let l ← readDwords x 32
  match sqTableOf l with
  | none => answer d 2
  | some t => do
    modify (fun s => s.setSolver die { s.solver die with table := some t })
    answer d 0
/-- sqadd with a control block, where the sequencer q holds n samples. -/
def addM (d : Reg) (die : Nat) (x : Dword) (b : SqBlock) (n : Nat) : M Unit := do
  let l ← readDwords x 8
  match sampleOf b l with
  | none => answer d (BitVec.allOnes 64)
  | some y =>
    if 4096 ≤ n then answer d (BitVec.allOnes 64 - 1)
    else do
      modify (fun s => s.setSolver die { s.solver die with samples := (s.solver die).samples ++ [y] })
      answer d (BitVec.ofNat 64 n)

section
variable {s u : State} {d : Reg} {die n : Nat} {x : Dword} {b : SqBlock} {l : List Nat} {noKernel : Bool}
theorem initM_broken (hread : readDwords x 12 s = .ok l u) (hbad : ((sqBlockOf l).2.2 || noKernel) = true) : initM d die x noKernel s = answer d 2 u :=
  (bindM_ok hread).trans (congrFun (if_pos hbad) u)
section
variable {f : List Nat} {v : State} (hread : readDwords x 12 s = .ok l u) (hgood : ((sqBlockOf l).2.2 || noKernel) = false)
  (hfactors : readDwords (sqBlockOf l).2.1 32 u = .ok f v)
include hread hgood hfactors
theorem initM_factors (hbad : ¬∀ n ∈ (List.range 64).map (wordAt f), positive32 n = true) : initM d die x noKernel s = answer d 2 v := by
  refine (bindM_ok hread).trans ((congrFun (if_neg (by simp [hgood])) u).trans ((bindM_ok hfactors).trans (congrFun (if_pos ?_) v)))
  rw [Bool.not_eq_true', ← Bool.not_eq_true, List.all_eq_true]
  exact hbad
theorem initM_takes (hall : ∀ n ∈ (List.range 64).map (wordAt f), positive32 n = true) : initM d die x noKernel s =
    answer d 0 (v.setSolver die { owner := v.myKernel, strand := v.key, asid := v.me.e.asid, enders := nsErase (v.solver die).enders v.key
                                  block := some { (sqBlockOf l).1 with factors := ((List.range 64).map (wordAt f)).map (BitVec.ofNat 32) } }) := by
  refine (bindM_ok hread).trans ((congrFun (if_neg (by simp [hgood])) u).trans ((bindM_ok hfactors).trans ((congrFun (if_neg ?_) v).trans rfl)))
  rw [Bool.not_eq_true', Bool.not_eq_false, List.all_eq_true]
  exact hall
end
theorem tableM_broken (hread : readDwords x 32 s = .ok l u) (hbad : sqTableOf l = none) : tableM d die x s = answer d 2 u := by
  rw [tableM, bindM_ok hread, hbad]
theorem tableM_takes (hread : readDwords x 32 s = .ok l u) {t : SqTable} (ht : sqTableOf l = some t) :
    tableM d die x s = answer d 0 (u.setSolver die { u.solver die with table := some t }) := by
  rw [tableM, bindM_ok hread, ht]
  rfl
theorem addM_broken (hread : readDwords x 8 s = .ok l u) (hbad : sampleOf b l = none) : addM d die x b n s = answer d 0xFFFFFFFFFFFFFFFF u := by
  rw [addM, bindM_ok hread, hbad]
  rfl
variable {y : Sample}
theorem addM_full (hread : readDwords x 8 s = .ok l u) (hy : sampleOf b l = some y) (hn : 4096 ≤ n) : addM d die x b n s = answer d 0xFFFFFFFFFFFFFFFE u := by
  rw [addM, bindM_ok hread, hy]
  exact congrFun (if_pos hn) u
theorem addM_adds (hread : readDwords x 8 s = .ok l u) (hy : sampleOf b l = some y) (hn : n < 4096) : addM d die x b n s =
    answer d (BitVec.ofNat 64 n) (u.setSolver die { u.solver die with samples := (u.solver die).samples ++ [y] }) := by
  rw [addM, bindM_ok hread, hy]
  exact congrFun (if_neg (Nat.not_le.2 hn)) u
end

section
variable {s : State} {k : Nat} (h : s.actor = .strand k) {d a : Reg}
include h

theorem sq_misaligned (hx : (readX (s.strand k).x a).toNat % 64 ≠ 0) :
    exec (.sqinit d a) s = .next (raise s ⟨.misaligned, readX (s.strand k).x a, 0⟩) ∧
    exec (.sqtab d a) s = .next (raise s ⟨.misaligned, readX (s.strand k).x a, 0⟩) := by
  rw [exec_sqinit, exec_sqtab, execSqinit, execSqtab, State.x_strand h, if_pos hx, if_pos hx]
  exact ⟨rfl, rfl⟩
theorem sqadd_misaligned (hx : (readX (s.strand k).x a).toNat % 8 ≠ 0) :
    exec (.sqadd d a) s = .next (raise s ⟨.misaligned, readX (s.strand k).x a, 0⟩) := by
  rw [exec_sqadd, execSqadd, State.x_strand h, if_pos hx]
  rfl

section
variable (hx : (readX (s.strand k).x a).toNat % 64 = 0)
include hx
theorem sqinit_starts : exec (.sqinit d a) s = runInstr
    (if (s.solver (dieOf (k / 3))).running || ((s.solver (dieOf (k / 3))).owner.isSome && !ownsSolver s) then answer d 1
     else initM d (dieOf (k / 3)) (readX (s.strand k).x a) s.myKernel.isNone) s := by
  rw [exec_sqinit, execSqinit, State.x_strand h, core_strand h, if_neg (by omega)]
  rfl
theorem sqtab_starts : exec (.sqtab d a) s = runInstr
    (if (s.solver (dieOf (k / 3))).running then answer d 1 else if !ownsSolver s then answer d 3
     else tableM d (dieOf (k / 3)) (readX (s.strand k).x a)) s := by
  rw [exec_sqtab, execSqtab, State.x_strand h, core_strand h, if_neg (by omega)]
  rfl
end
theorem sqadd_starts (hx : (readX (s.strand k).x a).toNat % 8 = 0) : exec (.sqadd d a) s = runInstr
    (match (if ownsSolver s && !(s.solver (dieOf (k / 3))).running then (s.solver (dieOf (k / 3))).block else none) with
    | none => answer d (BitVec.allOnes 64 - 2)
    | some b => addM d (dieOf (k / 3)) (readX (s.strand k).x a) b (s.solver (dieOf (k / 3))).samples.length) s := by
  rw [exec_sqadd, execSqadd, State.x_strand h, core_strand h, if_neg (by omega)]
  rfl
end

end Sys2Proof.Machine
end

section
/-! PROOFS. sqgo, sqstat and sqend (R463, R470, R472, R473). -/

namespace Sys2Proof.Machine
open Sys2Proof

/-! ## sqgo (R463, R470) -/

/-- The sequencer q at the start of a run that strand k asks for. -/
def Solver.started (q : Solver) (k : Nat) : Solver :=
  { q with phase := some (.launch 0), ended := false, rcode := 0, begun := 1, rounds := 0, launches := 0, accepted := 0
           handed := [], held := [], stopping := false, enders := nsErase q.enders k }
/-- The start of a run with the sequencer x: CWADDR is read and the hand-off slots are armed. -/
def startRun (die : Nat) (x : Solver) (b : SqBlock) : M Unit := do
  match ← unlessFault (readDword x.ctx b.cwaddr) with
  | .ok v => do
    modify (fun s => s.setSolver die { x with base := BitVec.ofNat 64 v })
    if b.handoff then
      if ← armHandoffs die then pure () else endRun die 2
    else pure ()
  | .error _ => do
    modify (fun s => s.setSolver die x)
    endRun die 2
/-- A hand-off that sqgo refuses: c[0] is not zero, or a slot is armed. -/
def handoffRefused (s : State) (die : Nat) (q : Solver) (b : SqBlock) (t : SqTable) : Bool :=
  b.handoff && (!zero32 (t.c.getD 0 0).toNat ||
    (q.active.filterMap (fun i => q.samples[i]?)).any (fun y => y.fslot != 0xFF && (sfind s.fslots (64 * die + y.fslot.toNat)).isSome))
theorem handoffRefused_iff {s : State} {die : Nat} {q : Solver} {b : SqBlock} {t : SqTable} : handoffRefused s die q b t = true ↔
    b.handoff = true ∧ (zero32 (t.c.getD 0 0).toNat = false ∨
      ∃ i ∈ q.active, ∃ y, q.samples[i]? = some y ∧ y.fslot ≠ 0xFF ∧ sfind s.fslots (64 * die + y.fslot.toNat) ≠ none) := by
  simp only [handoffRefused, Bool.and_eq_true, Bool.or_eq_true, Bool.not_eq_true', List.any_eq_true, List.mem_filterMap, bne_iff_ne,
    Option.isSome_iff_ne_none]
  refine and_congr Iff.rfl (or_congr Iff.rfl ⟨?_, ?_⟩)
  · rintro ⟨y, ⟨i, hi, hy⟩, hslot, harmed⟩; exact ⟨i, hi, y, hy, hslot, harmed⟩
  · rintro ⟨i, hi, y, hy, hslot, harmed⟩; exact ⟨y, ⟨i, hi, hy⟩, hslot, harmed⟩

section
variable {s u : State} {die v : Nat} {x : Solver} {b : SqBlock}
theorem startRun_reads (hread : readDword x.ctx b.cwaddr s = .ok v u) : startRun die x b s =
    (if b.handoff then (do if ← armHandoffs die then pure () else endRun die 2) else pure () : M Unit) (u.setSolver die { x with base := BitVec.ofNat 64 v }) := by
  have hno : unlessFault (readDword x.ctx b.cwaddr) s = .ok (.ok v) u := by rw [unlessFault, hread]
  rw [startRun, bindM_ok hno]
  rfl
variable (hread : readDword x.ctx b.cwaddr s = .ok v u)
include hread
theorem startRun_plain (hb : b.handoff = false) : startRun die x b s = .ok ⟨⟩ (u.setSolver die { x with base := BitVec.ofNat 64 v }) := by
  rw [startRun_reads hread, hb]
  rfl
variable (hb : b.handoff = true) {w : State}
include hb
theorem startRun_armed (harm : armHandoffs die (u.setSolver die { x with base := BitVec.ofNat 64 v }) = .ok true w) : startRun die x b s = .ok ⟨⟩ w := by
  rw [startRun_reads hread, if_pos hb, bindM_ok harm]
  rfl
theorem startRun_waits (harm : armHandoffs die (u.setSolver die { x with base := BitVec.ofNat 64 v }) = .error .wait w) :
    startRun die x b s = .error .wait w := by
  rw [startRun_reads hread, if_pos hb, bindM_error harm]
end
theorem wholeM_ok {m : M Unit} {s u : State} (h : m s = .ok ⟨⟩ u) : wholeM m s = .ok ⟨⟩ u := by rw [wholeM, h]
theorem wholeM_waits {m : M Unit} {s u : State} (h : m s = .error .wait u) : wholeM m s = .error .wait (keepRequests s u) := by rw [wholeM, h]

section
variable {s : State} {k : Nat} (h : s.actor = .strand k) {d a : Reg}
include h

theorem sqgo_refused (hbusy : (!ownsSolver s || (s.solver (dieOf (k / 3))).running) = true) : exec (.sqgo d) s = runInstr (answer d 1) s := by
  rw [exec_sqgo, execSqgo, core_strand h]
  simp only []
  rw [if_pos hbusy]
variable (hown : ¬(!ownsSolver s || (s.solver (dieOf (k / 3))).running) = true)
include hown
theorem sqgo_unready (hnone : (s.solver (dieOf (k / 3))).block = none ∨ (s.solver (dieOf (k / 3))).table = none) :
    exec (.sqgo d) s = runInstr (answer d 2) s := by
  rw [exec_sqgo, execSqgo, core_strand h]
  simp only []
  rw [if_neg hown]
  rcases hnone with hnone | hnone
  · rw [hnone]
  · rw [hnone]
    cases (s.solver (dieOf (k / 3))).block <;> rfl
theorem sqgo_starts {b : SqBlock} {t : SqTable} (hb : (s.solver (dieOf (k / 3))).block = some b) (ht : (s.solver (dieOf (k / 3))).table = some t) :
    exec (.sqgo d) s = runInstr (
      if (s.solver (dieOf (k / 3))).samples.isEmpty then answer d 2
      else if handoffRefused s (dieOf (k / 3)) (s.solver (dieOf (k / 3))) b t then answer d 3
      else do
        releaseM .device
        wholeM (startRun (dieOf (k / 3)) ((s.solver (dieOf (k / 3))).started k) b)
        answer d 0) s := by
  rw [exec_sqgo, execSqgo, core_strand h, State.key_strand h]
  simp only []
  rw [if_neg hown]
  split
  next b' t' hb' ht' =>
    obtain rfl : b' = b := Option.some.inj (hb'.symm.trans hb)
    obtain rfl : t' = t := Option.some.inj (ht'.symm.trans ht)
    rfl
  next hno => exact absurd ht (hno b t hb)
end

/-! ## sqstat (R472) -/

/-- The value of sqstat for a sample. -/
def sampleStatus (y : Sample) : Dword := y.norm ++ y.status.code ++ y.stage ++ BitVec.ofNat 16 (min y.nrej.toNat 0xFFFF)
/-- The value of sqstat for the run. -/
def runStatus (x : Solver) : Dword :=
  (if x.owner.isNone then (0 : BitVec 8) else if x.running then 2 else if x.ended then 3 else 1) ++ x.rcode ++ (0 : BitVec 3) ++
    BitVec.ofNat 13 x.active.length ++ x.rounds
theorem runStatus_fields (x : Solver) : (runStatus x).extractLsb' 48 8 = x.rcode ∧ (runStatus x).extractLsb' 32 13 = BitVec.ofNat 13 x.active.length ∧
    (runStatus x).extractLsb' 0 32 = x.rounds ∧
    (runStatus x).extractLsb' 56 8 = (if x.owner = none then (0 : BitVec 8) else if x.running then 2 else if x.ended then 3 else 1) := by
  simp only [runStatus, Option.isNone_iff_eq_none]
  generalize (if x.owner = none then (0 : BitVec 8) else _) = r
  generalize BitVec.ofNat 13 _ = n
  refine ⟨?_, ?_, ?_, ?_⟩
  all_goals
    refine BitVec.eq_of_getLsbD_eq fun i hi => ?_
    simp only [BitVec.getLsbD_extractLsb', BitVec.getLsbD_append]
    grind

section
variable {s : State} {k : Nat} (h : s.actor = .strand k) {d a : Reg}
include h

theorem sqstat_foreign (hbusy : ((s.solver (dieOf (k / 3))).owner.isSome && !ownsSolver s) = true) :
    exec (.sqstat d a) s = .next (s.setX d (BitVec.allOnes 64)).advance := by
  rw [exec_sqstat, execSqstat, core_strand h]
  simp only []
  rw [if_pos hbusy]
variable (hown : ¬((s.solver (dieOf (k / 3))).owner.isSome && !ownsSolver s) = true)
include hown
theorem sqstat_sample (hx : (readX (s.strand k).x a).toNat < (s.solver (dieOf (k / 3))).samples.length) {y : Sample}
    (hy : (s.solver (dieOf (k / 3))).samples[(readX (s.strand k).x a).toNat]? = some y) :
    exec (.sqstat d a) s = .next (s.setX d (sampleStatus y)).advance := by
  rw [exec_sqstat, execSqstat, core_strand h, State.x_strand h]
  simp only []
  rw [if_neg hown, if_pos hx, hy]
  rfl
theorem sqstat_run (hx : (s.solver (dieOf (k / 3))).samples.length ≤ (readX (s.strand k).x a).toNat) :
    exec (.sqstat d a) s = .next (s.setX d (runStatus (s.solver (dieOf (k / 3))))).advance := by
  rw [exec_sqstat, execSqstat, core_strand h, State.x_strand h]
  simp only []
  rw [if_neg hown, if_neg (Nat.not_lt.2 hx)]
  rfl
end

/-! ## sqend (R473) -/

section
variable {s : State} {k : Nat} (h : s.actor = .strand k) {d : Reg}
include h
theorem sqend_eq : exec (.sqend d) s = .next (
    let q := s.solver (dieOf (k / 3))
    if q.enders.contains k && !(q.running && q.stopping) then ((s.setSolver (dieOf (k / 3)) { q with enders := nsErase q.enders k }).setX d 0).advance
    else if !ownsSolver s then (s.setX d 1).advance
    else if q.running then (s.setSolver (dieOf (k / 3)) { q with stopping := true, enders := nsInsert q.enders k }).block
    else ((s.setSolver (dieOf (k / 3)) { q with owner := none }).setX d 0).advance) := by
  rw [exec_sqend, execSqend, core_strand h, State.key_strand h]
end

end Sys2Proof.Machine
end

section
/-! PROOFS. The events of the solver sequencer (R463 to R471). -/

namespace Sys2Proof.Machine
open Sys2Proof

/-! ## The sequencer's events (R463 to R471) -/

section
variable {s : State} {die : Nat}

theorem sq_idle (hp : (s.solver die).phase = none) : exec (.sqStageLaunch die) s = .next s ∧ exec (.sqStageComplete die) s = .next s ∧
    exec (.sqDecision die) s = .next s := by
  refine ⟨?launch, ?complete, ?decision⟩
  case launch =>
    rw [exec_sqStageLaunch, execSqStageLaunch]
    split
    next hphase => rw [hp] at hphase; nomatch hphase
    next hphase => rw [hp] at hphase; nomatch hphase
    · rfl
  case complete =>
    rw [exec_sqStageComplete, execSqStageComplete]
    split
    next hphase => rw [hp] at hphase; nomatch hphase
    next hphase => rw [hp] at hphase; nomatch hphase
    · rfl
  case decision =>
    rw [exec_sqDecision, execSqDecision]
    split
    next hphase => rw [hp] at hphase; nomatch hphase
    · rfl

variable {b : SqBlock} {t : SqTable} (hb : (s.solver die).block = some b) (ht : (s.solver die).table = some t)
include hb

/-- What follows the launches of a hand-off (R471). -/
def handoffServed (die : Nat) (x : Solver) : M Unit := do
  eachM x.handed (fun i => settleSlot die ((x.samples[i]?).elim 0xFF (·.fslot)))
  modify (fun s =>
    let z := s.solver die
    s.setSolver die (z.held.foldl (fun z i => z.updSample i (fun y => { y with k0 := true })) z))
  nextRound die
theorem sqStageComplete_await {j : Nat} (hp : (s.solver die).phase = some (.await j)) : exec (.sqStageComplete die) s = .next (unitWork
    (if (s.solver die).stopping then tryStop die (s.solver die) b
     else launchComplete die (s.solver die) b (setPhase die (.launch (j + 1)))) s) := by
  rw [exec_sqStageComplete, execSqStageComplete]
  simp only [hb, hp]
theorem sqStageComplete_handoff (hp : (s.solver die).phase = some .handoff) : exec (.sqStageComplete die) s = .next (unitWork
    (if (s.solver die).stopping then tryStop die (s.solver die) b
     else launchComplete die (s.solver die) b (handoffServed die (s.solver die))) s) := by
  rw [exec_sqStageComplete, execSqStageComplete]
  simp only [hb, hp]
  rfl
include ht
theorem sqStageLaunch_launch {j : Nat} (hp : (s.solver die).phase = some (.launch j)) : exec (.sqStageLaunch die) s = .next (unitWork
    (if (s.solver die).stopping then tryStop die (s.solver die) b else stageLaunch die j b t) s) := by
  rw [exec_sqStageLaunch, execSqStageLaunch]
  simp only [hb, ht, hp]
theorem sqStageLaunch_candidates (hp : (s.solver die).phase = some .candidates) : exec (.sqStageLaunch die) s = .next (unitWork
    (if (s.solver die).stopping then tryStop die (s.solver die) b else formCandidates die b t) s) := by
  rw [exec_sqStageLaunch, execSqStageLaunch]
  simp only [hb, ht, hp]
/-- The decision of a round that is not to stop. -/
def decideRound (die : Nat) (x : Solver) (b : SqBlock) (t : SqTable) : M Unit := do
  let ok ← eachSample die (decideOne die b t) x.active
  modify (fun s => s.setSolver die { s.solver die with rounds := (s.solver die).rounds + 1 })
  let s2 ← get
  if !((← writeRecords die (List.range (s2.solver die).samples.length)) && ok) then endRun die 2
  else do
    modify (fun s => kernelProgress s ((s.solver die).owner.getD (2 ^ 40)))
    let s3 ← get
    if (s3.solver die).handed.isEmpty then nextRound die else setPhase die .handoff
theorem sqDecision_decide (hp : (s.solver die).phase = some .decide) : exec (.sqDecision die) s = .next (unitWork
    (if (s.solver die).stopping then tryStop die (s.solver die) b else decideRound die (s.solver die) b t) s) := by
  rw [exec_sqDecision, execSqDecision]
  simp only [hb, ht, hp]
  rfl
end

theorem unitWork_ok {m : M Unit} {s u : State} (h : m s = .ok ⟨⟩ u) : unitWork m s = u := by rw [unitWork, h]
theorem unitWork_waits {m : M Unit} {s u : State} (h : m s = .error .wait u) : unitWork m s = keepRequests s u := by rw [unitWork, h]

/-! ## Launches that complete (R464) -/

section
variable {s u v w : State} {die : Nat} {x : Solver} {b : SqBlock} {next : M Unit}

theorem launchComplete_waits (h : launchesDone x b x.launches s = .error .wait u) : launchComplete die x b next s = .error .wait u := by
  rw [launchComplete, bindM_error h]
theorem launchComplete_early (h : launchesDone x b x.launches s = .ok (some false) u) : launchComplete die x b next s = .ok ⟨⟩ u := by
  rw [launchComplete, bindM_ok h]
  rfl
theorem launchComplete_unread (h : launchesDone x b x.launches s = .ok none u) (hend : endRun die 2 u = .ok () v) :
    launchComplete die x b next s = .ok ⟨⟩ v := by
  rw [launchComplete, bindM_ok h]
  exact hend
variable {r : Option Bool} (h : launchesDone x b x.launches s = .ok (some true) u) (hr : launchOk x b u = .ok r v)
include h hr
theorem launchComplete_follows : launchComplete die x b next s = (match r with
    | none => endRun die 2
    | some false => endRun die 1
    | some true => next) v := by
  rw [launchComplete, bindM_ok h]
  exact bindM_ok hr
end

/-! ## A launch (R464) -/

section
variable {s : State} {die j : Nat} {b : SqBlock} {t : SqTable}
theorem stageLaunch_ends (ha : (s.solver die).active = []) : stageLaunch die j b t s = endRun die 0 s := by
  simp only [stageLaunch]
  rw [bindM_get, if_pos (by rw [ha]; rfl)]
variable (ha : (s.solver die).active ≠ [])
include ha
theorem stageLaunch_last (hj : t.stages ≤ j) :
    stageLaunch die j b t s = .ok ⟨⟩ (s.setSolver die { s.solver die with phase := some .candidates }) := by
  simp only [stageLaunch]
  rw [bindM_get, if_neg (by simpa using ha), if_pos hj]
  rfl
theorem stageLaunch_skips (hj : j < t.stages) (hp : participants (s.solver die) j = []) :
    stageLaunch die j b t s = .ok ⟨⟩ (s.setSolver die { s.solver die with phase := some (.launch (j + 1)) }) := by
  simp only [stageLaunch]
  rw [bindM_get, if_neg (by simpa using ha), if_neg (by omega), if_pos (by rw [hp]; rfl)]
  rfl
end

/-! ## A decision (R468, R471) -/

section
variable {s u w v : State} {die : Nat} {x : Solver} {b : SqBlock} {t : SqTable} {ok r : Bool}
theorem decideRound_waits (h : eachSample die (decideOne die b t) x.active s = .error .wait u) : decideRound die x b t s = .error .wait u := by
  rw [decideRound, bindM_error h]
variable (h : eachSample die (decideOne die b t) x.active s = .ok ok u)
  (hw : writeRecords die (List.range (u.solver die).samples.length) (u.setSolver die { u.solver die with rounds := (u.solver die).rounds + 1 }) = .ok r w)
include h hw
theorem decideRound_records : decideRound die x b t s = (if !(r && ok) then endRun die 2 else do
    modify (fun s => kernelProgress s ((s.solver die).owner.getD (2 ^ 40)))
    let s3 ← get
    if (s3.solver die).handed.isEmpty then nextRound die else setPhase die .handoff : M Unit) w := by
  have hlen : ((u.setSolver die { u.solver die with rounds := (u.solver die).rounds + 1 }).solver die).samples.length = (u.solver die).samples.length := by
    rw [State.solver, State.setSolver, sget_sput_self]
  rw [decideRound, bindM_ok h, bindM_modify, bindM_get, hlen]
  exact bindM_ok hw
theorem decideRound_fails (hfail : ok = false ∨ r = false) : decideRound die x b t s = endRun die 2 w := by
  rw [decideRound_records h hw, if_pos (by rcases hfail with rfl | rfl <;> simp)]
variable (hok : ok = true) (hr : r = true)
include hok hr
theorem decideRound_goesOn : decideRound die x b t s =
    (if ((kernelProgress w ((w.solver die).owner.getD (2 ^ 40))).solver die).handed.isEmpty then nextRound die else setPhase die .handoff)
      (kernelProgress w ((w.solver die).owner.getD (2 ^ 40))) := by
  subst hok hr
  exact decideRound_records h hw
end

/-! ## The new step of a sample (R468) -/

section
variable (b : SqBlock) (y : Sample) (norm : Nat)
theorem decideSample_rejects (hnan : (unpack fmt32 norm).isNan = true) :
    (decideSample b y norm).nacc = y.nacc ∧ (decideSample b y norm).nrej = y.nrej + 1 ∧ (decideSample b y norm).t = y.t := by
  have hno : acceptable norm = false := by rw [acceptable, v32, hnan]; rfl
  simp only [decideSample]
  rw [if_neg (by rw [hno]; exact Bool.false_ne_true)]
  exact iteInduction (motive := fun z : Sample => z.nacc = y.nacc ∧ z.nrej = y.nrej + 1 ∧ z.t = y.t) (fun _ => ⟨rfl, rfl, rfl⟩) (fun _ => ⟨rfl, rfl, rfl⟩)
theorem decideSample_accepts (hyes : acceptable norm = true) :
    (decideSample b y norm).nacc = y.nacc + 1 ∧ (decideSample b y norm).nrej = y.nrej ∧ (decideSample b y norm).norm = BitVec.ofNat 32 norm := by
  simp only [decideSample]
  rw [if_pos hyes]
  exact iteInduction (motive := fun z : Sample => z.nacc = y.nacc + 1 ∧ z.nrej = y.nrej ∧ z.norm = BitVec.ofNat 32 norm) (fun _ => ⟨rfl, rfl, rfl⟩)
    (fun _ => ⟨rfl, rfl, rfl⟩)
end

end Sys2Proof.Machine
end

section
/-! PROOFS. The statement SolverResult. -/

namespace Sys2Proof.Machine
open Sys2Proof

/-- An instruction that puts a sequencer into the state of its die and answers. -/
theorem setSolver_runs {i : Instr} {m : M Unit} {s u : State} {k : Nat} (hu : u.actor = .strand k) {d : Reg} {v : Dword} {die : Nat} {x : Solver}
    (hi : exec i s = runInstr m s) (hm : m s = answer d v (u.setSolver die x)) :
    Runs i s (StrandBecomes (u.setSolver die x) k ((u.strand k).gives d v)) := answer_runs (u := u.setSolver die x) hu hi hm

/-- What sqgo does once nothing refuses it. -/
def goM (d : Reg) (die : Nat) (x : Solver) (b : SqBlock) : M Unit := do
  releaseM .device
  wholeM (startRun die x b)
  answer d 0
section
variable {s w : State} {k : Nat} (h : s.actor = .strand k) (hw : releaseWaits s (k / 3) .device = false) {d : Reg} {die : Nat} {x : Solver} {b : SqBlock}
include h hw
theorem goM_answers (hstart : startRun die x b (release s (k / 3) .device) = .ok ⟨⟩ w) : goM d die x b s = answer d 0 w := by
  rw [goM, bindM_ok (releaseM_released h hw)]
  exact bindM_ok (wholeM_ok hstart)
theorem goM_waits (hstart : startRun die x b (release s (k / 3) .device) = .error .wait w) :
    goM d die x b s = .error .wait (keepRequests (release s (k / 3) .device) w) := by
  rw [goM, bindM_ok (releaseM_released h hw)]
  exact bindM_error (wholeM_waits hstart)
omit hw in
/-- A start that waits has not changed the sequencer. -/
theorem goWaits_solver (die : Nat) : ((keepRequests (release s (k / 3) .device) w).block).solver die = s.solver die := by
  have hactor : (keepRequests (release s (k / 3) .device) w).actor = .strand k := (release_caches s _ _).actor.trans h
  have hblock := block_strand hactor
  have hsolvers : ((keepRequests (release s (k / 3) .device) w).block).solvers = s.solvers :=
    (congrArg State.solvers hblock.2.2 :).trans (release_caches s _ _).solvers
  rw [State.solver, hsolvers]
  rfl
end

/-- Settles O46: the SQ instructions by the cases that they test, and the sequencer's events by its phase. -/
theorem solverResult : Obligations.SolverResult := by
  refine ⟨fun s k d a h => ?_, fun s die => ?_⟩
  · intro p x die q kernel owns Gives Answers
    have howns : ownsSolver s = true ↔ owns := ownsSolver_iff h
    have hfree : ((s.solver die).running || ((s.solver die).owner.isSome && !ownsSolver s)) = true ↔ q.running = true ∨ (q.owner ≠ none ∧ ¬owns) := by
      rw [Bool.or_eq_true, Bool.and_eq_true, Bool.not_eq_true', ← Bool.not_eq_true, howns, Option.isSome_iff_ne_none]
    have hkernel : s.myKernel = kernel := myKernel_strand h
    have answers {i : Instr} {m : M Unit} {v : Dword} (hi : exec i s = runInstr m s) (hm : m s = answer d v s) : Gives i v := answer_runs h hi hm
    have hbusy : (!ownsSolver s || q.running) = true ↔ ¬owns ∨ q.running = true := by
      rw [Bool.or_eq_true, Bool.not_eq_true', ← Bool.not_eq_true, howns]
    have hforeign : (q.owner.isSome && !ownsSolver s) = true ↔ q.owner ≠ none ∧ ¬owns := by
      rw [Bool.and_eq_true, Bool.not_eq_true', ← Bool.not_eq_true, howns, Option.isSome_iff_ne_none]
    have unlisted (hender : k ∉ q.enders) : ¬(q.enders.contains k && !(q.running && q.stopping)) = true := by
      rw [Bool.and_eq_true]
      rintro ⟨hc, -⟩
      exact hender (List.contains_iff_mem.1 hc)
    refine ⟨fun hx => ?misaligned, fun hx => runs_eq (sqadd_misaligned h hx), fun hx hno => ?initBusy, fun hx hrun hown l u hread hactor => ?init,
      fun hx => ⟨fun hrun => ?tabBusy, fun hrun hown => ?tabForeign, fun hown hrun l u hread hactor => ?tab⟩,
      fun hx => ⟨fun hno => ?addNone, fun b l u hown hrun hb hread hactor => ?add⟩,
      fun hno => answers (sqgo_refused h (hbusy.2 hno)) rfl, fun hown hrun hno => ?goUnready, fun b t hown hrun hb ht hsamples => ?go,
      fun hne hown => runs_gives h (sqstat_foreign h (hforeign.2 ⟨hne, hown⟩)), fun hown => ?stat, fun hender hrun => ?endSeen, fun hender hown => ?endForeign,
      fun hender hown hrun => ?endReleases, fun hown hrun hender => ?endStops⟩
    case misaligned =>
      obtain ⟨hinit, htab⟩ := sq_misaligned h hx (d := d)
      exact ⟨runs_eq hinit, runs_eq htab⟩
    case initBusy => exact answers ((sqinit_starts h hx).trans (by rw [if_pos (hfree.2 hno)])) rfl
    case init =>
      have hu : u.actor = .strand k := hactor.trans h
      have hi := (sqinit_starts h hx (d := d)).trans (by rw [if_neg (hfree.not.2 (by rintro (hr | ⟨hne, hno⟩); exacts [by simp [hrun] at hr, hown.elim hne hno]))])
      refine ⟨fun hbad => answer_runs hu hi (initM_broken hread ?_), fun hgood hk f v hfactors hactor' => ?_⟩
      · rw [hkernel, Bool.or_eq_true, Option.isNone_iff_eq_none]
        exact hbad
      · have hv : v.actor = .strand k := hactor'.trans h
        have hok : ((sqBlockOf l).2.2 || s.myKernel.isNone) = false := by
          rw [hkernel, hgood, Bool.false_or, Option.isNone_eq_false_iff, Option.isSome_iff_ne_none]
          exact hk
        refine ⟨fun hbad => answer_runs hv hi (initM_factors hread hok hfactors hbad), fun hall => ?_⟩
        have htakes := initM_takes hread hok hfactors hall (d := d) (die := die)
        rw [myKernel_strand hv, State.key_strand hv, State.me_strand hv] at htakes
        exact setSolver_runs hv hi htakes
    case tabBusy => exact answers ((sqtab_starts h hx).trans (by rw [if_pos hrun])) rfl
    case tabForeign => exact answers ((sqtab_starts h hx).trans (by rw [if_neg (by rw [hrun]; exact Bool.false_ne_true), if_pos (by simpa [← howns] using hown)])) rfl
    case tab =>
      have hu : u.actor = .strand k := hactor.trans h
      have hi := (sqtab_starts h hx (d := d)).trans (by rw [if_neg (by rw [hrun]; exact Bool.false_ne_true), if_neg (by simpa [← howns] using hown)])
      exact ⟨fun hbad => answer_runs hu hi (tableM_broken hread hbad), fun t ht => setSolver_runs hu hi (tableM_takes hread ht)⟩
    case addNone =>
      have hnone : (if ownsSolver s && !q.running then q.block else none) = none := by
        split
        next hgo =>
          rw [Bool.and_eq_true, howns, Bool.not_eq_true'] at hgo
          obtain ⟨hown, hrun⟩ := hgo
          exact hno.elim (absurd hown) fun hno => hno.elim (fun hr => by simp [hrun] at hr) id
        · rfl
      exact answers ((sqadd_starts h hx).trans (by rw [hnone]; rfl)) rfl
    case add =>
      have hu : u.actor = .strand k := hactor.trans h
      have hsome : (if ownsSolver s && !q.running then q.block else none) = some b := by
        rw [if_pos (by rw [howns.2 hown, hrun]; rfl), hb]
      have hi := (sqadd_starts h hx (d := d)).trans (by rw [hsome])
      exact ⟨fun hbad => answer_runs hu hi (addM_broken hread hbad), fun y hy => ⟨fun hn => answer_runs hu hi (addM_full hread hy hn),
        fun hn => setSolver_runs hu hi (addM_adds hread hy hn)⟩⟩
    case goUnready =>
      have hgo := hbusy.not.2 (by rintro (hno | hr); exacts [hno hown, by simp [hrun] at hr])
      by_cases hready : q.block = none ∨ q.table = none
      · exact answers (sqgo_unready h hgo hready) rfl
      · rw [not_or] at hready
        obtain ⟨b, hb⟩ := Option.ne_none_iff_exists'.1 hready.1
        obtain ⟨t, ht⟩ := Option.ne_none_iff_exists'.1 hready.2
        have hsamples : q.samples.isEmpty = true := List.isEmpty_iff.2 ((hno.resolve_left hready.1).resolve_left hready.2)
        exact answers ((sqgo_starts h hgo hb ht).trans (by rw [if_pos hsamples])) rfl
    case go =>
      intro refused
      have hgo := hbusy.not.2 (by rintro (hno | hr); exacts [hno hown, by simp [hrun] at hr])
      have hrefused : handoffRefused s die q b t = true ↔ refused := handoffRefused_iff
      have hi := (sqgo_starts h hgo hb ht (d := d)).trans (by rw [if_neg (by simpa using hsamples)])
      refine ⟨fun hr => answers hi (by rw [if_pos (hrefused.2 hr)]), fun hr hw => ?_, fun hr hw v u hread hactor => ?_⟩
      all_goals rw [if_neg (hrefused.not.2 hr)] at hi
      · exact releaseM_waits hi rfl h hw
      · have hu : u.actor = .strand k := hactor.trans h
        refine ⟨fun hplain => ?_, fun hhand => ⟨fun w harm hw' => ?_, fun w harm hw' => ?_⟩⟩
        · exact setSolver_runs hu hi (goM_answers h hw (startRun_plain (x := q.started k) hread hplain))
        · exact answer_runs (hw'.trans h) hi (goM_answers h hw (startRun_armed (x := q.started k) hread hhand harm))
        · exact ⟨_, hi.trans (runInstr_wait (goM_waits h hw (startRun_waits (x := q.started k) hread hhand harm))), rfl, congrArg Solver.phase (goWaits_solver h die)⟩
    case stat =>
      have hgo := hforeign.not.2 fun hf => hown.elim hf.1 hf.2
      obtain ⟨hcode, hcount, hrounds, hstate⟩ := runStatus_fields q
      exact ⟨fun y hx hy => runs_gives h (sqstat_sample h hgo hx hy), fun hx => ⟨_, runs_gives h (sqstat_run h hgo hx), hcode, hcount, hrounds, hstate⟩⟩
    case endSeen =>
      have hseen : (q.enders.contains k && !(q.running && q.stopping)) = true := by
        have hno : (q.running && q.stopping) = false := by
          rw [← Bool.not_eq_true, Bool.and_eq_true]
          exact hrun
        rw [hno]
        simpa using hender
      exact runs_gives (u := s.setSolver die { q with enders := nsErase q.enders k }) h ((sqend_eq h).trans (congrArg Host.Outcome.next (if_pos hseen)))
    case endForeign =>
      exact runs_gives h ((sqend_eq h).trans (congrArg Host.Outcome.next ((if_neg (unlisted hender)).trans (if_pos (by simpa [← howns] using hown)))))
    case endReleases =>
      have hnot : ¬(!ownsSolver s) = true := by simpa [← howns] using hown
      exact runs_gives (u := s.setSolver die { q with owner := none }) h ((sqend_eq h).trans (congrArg Host.Outcome.next
        ((if_neg (unlisted hender)).trans ((if_neg hnot).trans (if_neg (by rw [hrun]; exact Bool.false_ne_true))))))
    case endStops =>
      have hnot : ¬(!ownsSolver s) = true := by simpa [← howns] using hown
      have hunseen : ¬(q.enders.contains k && !(q.running && q.stopping)) = true :=
        hender.elim unlisted fun hs => by rw [hrun, hs, Bool.and_self, Bool.not_true, Bool.and_false]; exact Bool.false_ne_true
      exact ⟨_, (sqend_eq h).trans (congrArg Host.Outcome.next ((if_neg hunseen).trans ((if_neg hnot).trans (if_pos hrun)))),
        block_strand (s := s.setSolver die { q with stopping := true, enders := nsInsert q.enders k }) h⟩
  · intro x Does Works
    refine ⟨fun hp => ?idle, fun b t hb ht => ⟨fun hstop => ?stopping, fun hstop => ⟨fun j hp => ?launch, fun hp => ?candidates, fun next hnext => ?complete, fun hp => ?decide⟩⟩,
      fun b y norm hnan => decideSample_rejects b y norm hnan, fun b y norm hyes => decideSample_accepts b y norm hyes⟩
    case idle =>
      obtain ⟨hlaunch, hcomplete, hdecision⟩ := sq_idle hp
      exact ⟨runs_eq hlaunch, runs_eq hcomplete, runs_eq hdecision⟩
    case stopping =>
      have stops (m : M Unit) : (if x.stopping then tryStop die x b else m) = tryStop die x b := if_pos hstop
      exact ⟨fun j hp => runs_eq ((sqStageLaunch_launch hb ht hp).trans (by rw [stops])), fun hp => runs_eq ((sqStageLaunch_candidates hb ht hp).trans (by rw [stops])),
        fun j hp => runs_eq ((sqStageComplete_await hb hp).trans (by rw [stops])), fun hp => runs_eq ((sqStageComplete_handoff hb hp).trans (by rw [stops])),
        fun hp => runs_eq ((sqDecision_decide hb ht hp).trans (by rw [stops]))⟩
    all_goals have goes (m : M Unit) : (if x.stopping then tryStop die x b else m) = m := if_neg (by rw [hstop]; exact Bool.false_ne_true)
    case launch =>
      have hi := (sqStageLaunch_launch hb ht hp).trans (by rw [goes])
      have ends {m : M Unit} (hm : stageLaunch die j b t s = m s) : Works (.sqStageLaunch die) m := runs_eq (hi.trans (by rw [unitWork, hm, unitWork]))
      have does {u : State} (hm : stageLaunch die j b t s = .ok ⟨⟩ u) : Does (.sqStageLaunch die) u := runs_eq (hi.trans (by rw [unitWork_ok hm]))
      exact ⟨fun ha => ends (stageLaunch_ends ha), fun ha hj => does (stageLaunch_last ha hj), fun ha hj hp => does (stageLaunch_skips ha hj hp), fun _ _ _ => ends rfl⟩
    case candidates => exact runs_eq ((sqStageLaunch_candidates hb ht hp).trans (by rw [goes]))
    case complete =>
      have hi : exec (.sqStageComplete die) s = .next (unitWork (launchComplete die x b next) s) := by
        rcases hnext with ⟨j, hp, rfl⟩ | ⟨hp, rfl⟩
        · exact (sqStageComplete_await hb hp).trans (by rw [goes])
        · exact (sqStageComplete_handoff hb hp).trans (by rw [goes]; rfl)
      have does {u : State} (hm : launchComplete die x b next s = .ok ⟨⟩ u) : Does (.sqStageComplete die) u := runs_eq (hi.trans (by rw [unitWork_ok hm]))
      refine ⟨fun u hl => runs_eq (hi.trans (by rw [unitWork_waits (launchComplete_waits hl)])), fun u hl => does (launchComplete_early hl),
        fun u v hl hend => does (launchComplete_unread hl hend), fun u r v w hl hr => ⟨fun hnone hend => does ?_, fun hbad hend => does ?_, fun hgood hend => does ?_⟩⟩
      all_goals
        subst r
        exact (launchComplete_follows hl hr).trans hend
    case decide =>
      have hi := (sqDecision_decide hb ht hp).trans (by rw [goes])
      have does {u : State} (hm : decideRound die x b t s = .ok ⟨⟩ u) : Does (.sqDecision die) u := runs_eq (hi.trans (by rw [unitWork_ok hm]))
      refine ⟨fun u he => runs_eq (hi.trans (by rw [unitWork_waits (decideRound_waits he)])), fun ok u r w he hw => 
        ⟨fun hfail v hend => does ((decideRound_fails he hw hfail).trans hend), fun hok hr hnone v hend => does ?_, fun hok hr hsome => does ?_⟩⟩
      · exact (decideRound_goesOn he hw hok hr).trans ((congrFun (if_pos (by rw [hnone]; rfl)) _).trans hend)
      · exact (decideRound_goesOn he hw hok hr).trans ((congrFun (if_neg (by simpa using hsome)) _).trans rfl)

end Sys2Proof.Machine
end

section
/-! PROOFS. Exact products and exact sums of terms (R139, R170, R171): for the statement TileProduct. -/

namespace Sys2Proof.Machine
open Sys2Proof

/-! ## Exact products (R139, R170) -/

/-- One factor is zero and the other infinite. -/
def BareProduct (x y : FVal) : Prop := (∃ n e, x = .fin n 0 e) ∧ (∃ n, y = .inf n) ∨ (∃ n, x = .inf n) ∧ (∃ n e, y = .fin n 0 e)
/-- The product is an infinity of a sign. -/
def InfiniteProduct (neg : Bool) (x y : FVal) : Prop := ∃ n1 n2, neg = (n1 != n2) ∧
  (x = .inf n1 ∧ (y = .inf n2 ∨ ∃ m e, m ≠ 0 ∧ y = .fin n2 m e) ∨ (∃ m e, m ≠ 0 ∧ x = .fin n1 m e) ∧ y = .inf n2)

theorem exactMul_none {x y : FVal} : exactMul x y = none ↔ BareProduct x y := by
  cases x <;> cases y <;> simp [exactMul, BareProduct]
theorem exactMul_nan {x y : FVal} : (∃ b, exactMul x y = some (.nan b)) ↔ x.isNan = true ∨ y.isNan = true := by
  cases x <;> cases y <;> simp [exactMul, FVal.isNan]
theorem exactMul_signalling {x y : FVal} : exactMul x y = some (.nan true) ↔ x.isSig = true ∨ y.isSig = true := by
  cases x <;> cases y <;> simp [exactMul, FVal.isSig]
theorem exactMul_inf {x y : FVal} {n : Bool} : exactMul x y = some (.inf n) ↔ InfiniteProduct n x y := by
  cases x <;> cases y <;> simp [exactMul, InfiniteProduct] <;> grind

/-! ## The terms of a step (R170, R171) -/

/-- A product added to the terms. -/
def Terms.add (o : Option FVal) (t : Terms) : Terms :=
  match o with
  | none => { t with nan := true, nv := true }
  | some (.nan s) => { t with nan := true, nv := t.nv || s }
  | some v => { t with vals := v :: t.vals }
/-- The terms of products of values. -/
def productTerms (l : List (FVal × FVal)) : Terms := l.foldr (fun p t => t.add (exactMul p.1 p.2)) ⟨[], false, false⟩
theorem products_eq (f : Fmt) (a b : List Nat) : products f a b = productTerms ((a.zip b).map (fun p => (unpack f p.1, unpack f p.2))) := by
  rw [productTerms, List.foldr_map]
  rfl
theorem Terms.add_nan (o : Option FVal) (t : Terms) : (t.add o).nan = true ↔ (o = none ∨ ∃ b, o = some (.nan b)) ∨ t.nan = true := by
  rcases o with _ | _ | _ | _ <;> simp [Terms.add]
theorem Terms.add_nv (o : Option FVal) (t : Terms) : (t.add o).nv = true ↔ (o = none ∨ o = some (.nan true)) ∨ t.nv = true := by
  rcases o with _ | s | _ | _ <;> simp [Terms.add, or_comm]
theorem Terms.add_inf (n : Bool) (o : Option FVal) (t : Terms) : .inf n ∈ (t.add o).vals ↔ o = some (.inf n) ∨ .inf n ∈ t.vals := by
  rcases o with _ | _ | _ | _ <;> simp [Terms.add, eq_comm]
section
variable {l : List (FVal × FVal)}
theorem productTerms_cons (p : FVal × FVal) : productTerms (p :: l) = (productTerms l).add (exactMul p.1 p.2) := rfl
theorem productTerms_nan : (productTerms l).nan = true ↔ ∃ p ∈ l, p.1.isNan = true ∨ p.2.isNan = true ∨ BareProduct p.1 p.2 := by
  induction l with
  | nil => simp [productTerms]
  | cons p l ih =>
    rw [productTerms_cons, Terms.add_nan, ih, List.exists_mem_cons_iff, exactMul_none, exactMul_nan]
    exact or_congr (by rw [or_comm, or_assoc]) Iff.rfl
theorem productTerms_nv : (productTerms l).nv = true ↔ ∃ p ∈ l, p.1.isSig = true ∨ p.2.isSig = true ∨ BareProduct p.1 p.2 := by
  induction l with
  | nil => simp [productTerms]
  | cons p l ih =>
    rw [productTerms_cons, Terms.add_nv, ih, List.exists_mem_cons_iff, exactMul_none, exactMul_signalling]
    exact or_congr (by rw [or_comm, or_assoc]) Iff.rfl
theorem productTerms_inf {n : Bool} : .inf n ∈ (productTerms l).vals ↔ ∃ p ∈ l, InfiniteProduct n p.1 p.2 := by
  induction l with
  | nil => simp [productTerms]
  | cons p l ih => rw [productTerms_cons, Terms.add_inf, ih, List.exists_mem_cons_iff, exactMul_inf]
end
/-- Products of finite values are finite. -/
theorem productTerms_finite {α : Type} (pa pb : α → Bool × Nat × Int) (is : List α) :
    productTerms (is.map (fun i => (.fin (pa i).1 (pa i).2.1 (pa i).2.2, .fin (pb i).1 (pb i).2.1 (pb i).2.2))) =
      ⟨is.map (fun i => .fin ((pa i).1 != (pb i).1) ((pa i).2.1 * (pb i).2.1) ((pa i).2.2 + (pb i).2.2)), false, false⟩ := by
  induction is with
  | nil => rfl
  | cons i is ih => rw [List.map_cons, productTerms_cons, ih]; rfl

/-! ## Sums of terms (R171) -/

/-- A finite value as a number. -/
def finVal (t : Bool × Nat × Int) : FVal := .fin t.1 t.2.1 t.2.2
/-- What a step gives for terms T, the element's own value among them. -/
def SumsTo (sat : Bool) (r : FRes) (T : List (Bool × Nat × Int)) : Prop :=
  ((∀ t ∈ T, t.2.1 = 0) → r = (if T.all (·.1) then 0x80000000 else 0, 0)) ∧
  (∀ E : Int, (∃ t ∈ T, t.2.1 ≠ 0 ∧ (Nat.log2 t.2.1 : Int) + t.2.2 = E) → (∀ t ∈ T, t.2.1 ≠ 0 → (Nat.log2 t.2.1 : Int) + t.2.2 ≤ E) →
    let u := E - 126
    let S := (T.map (fun t => signedInt t.1 (if u ≤ t.2.2 then t.2.1 * 2 ^ (t.2.2 - u).toNat else t.2.1 / 2 ^ (u - t.2.2).toNat))).sum
    let sticky := T.any (fun t => decide (t.2.2 < u ∧ t.2.1 % 2 ^ (u - t.2.2).toNat ≠ 0))
    (S = 0 → r = (0, if sticky then 0x03 else 0)) ∧
    (S ≠ 0 → let q := roundTo fmt32 .rne sat 0 (decide (S < 0)) (2 * S.natAbs + if sticky then 1 else 0) (E - 127)
      r = (q.bits, q.flags)))

theorem finites_finVal (T : List (Bool × Nat × Int)) : finites (T.map finVal) = T := by
  induction T with
  | nil => rfl
  | cons t T ih => exact congrArg (t :: ·) ih
theorem finVal_not_inf (T : List (Bool × Nat × Int)) (n : Bool) : (T.map finVal).any (·.isInf n) = false := by
  rw [List.any_eq_false]
  intro v hv
  obtain ⟨t, -, rfl⟩ := List.mem_map.1 hv
  exact Bool.false_ne_true
/-- A term cut to a multiple of 2^u, and whether the cut loses something. -/
theorem roundAt_cut (t : Bool × Nat × Int) (u : Int) : roundAt .rtz t.1 0 t.2.1 t.2.2 u =
    (if u ≤ t.2.2 then t.2.1 * 2 ^ (t.2.2 - u).toNat else t.2.1 / 2 ^ (u - t.2.2).toNat, decide (t.2.2 < u ∧ t.2.1 % 2 ^ (u - t.2.2).toNat ≠ 0)) := by
  unfold roundAt
  by_cases hu : u ≤ t.2.2
  · rw [if_pos hu, if_pos hu]
    simp [Int.not_lt.2 hu]
  · rw [if_neg hu, if_neg hu]
    simp [roundsUp, Int.not_le.1 hu]
    rfl
theorem sumAt_eq (u : Int) (T : List (Bool × Nat × Int)) : sumAt u T =
    ((T.map (fun t => signedInt t.1 (if u ≤ t.2.2 then t.2.1 * 2 ^ (t.2.2 - u).toNat else t.2.1 / 2 ^ (u - t.2.2).toNat))).sum,
     T.any (fun t => decide (t.2.2 < u ∧ t.2.1 % 2 ^ (u - t.2.2).toNat ≠ 0))) := by
  have general (acc : Int × Bool) : T.foldl (fun acc t => (acc.1 + signedInt t.1 (roundAt .rtz t.1 0 t.2.1 t.2.2 u).1, acc.2 || (roundAt .rtz t.1 0 t.2.1 t.2.2 u).2)) acc =
      (acc.1 + (T.map (fun t => signedInt t.1 (if u ≤ t.2.2 then t.2.1 * 2 ^ (t.2.2 - u).toNat else t.2.1 / 2 ^ (u - t.2.2).toNat))).sum,
       acc.2 || T.any (fun t => decide (t.2.2 < u ∧ t.2.1 % 2 ^ (u - t.2.2).toNat ≠ 0))) := by
    induction T generalizing acc with
    | nil => simp
    | cons t T ih =>
      rw [List.foldl_cons, ih, roundAt_cut, List.map_cons, List.sum_cons, List.any_cons, ← Int.add_assoc, ← Bool.or_assoc]
  rw [sumAt, general, Int.zero_add, Bool.false_or]
/-- Zero terms add nothing. -/
theorem sumAt_nonzero (u : Int) (T : List (Bool × Nat × Int)) : sumAt u (T.filter (fun t => t.2.1 != 0)) = sumAt u T := by
  rw [sumAt_eq, sumAt_eq]
  induction T with
  | nil => rfl
  | cons t T ih =>
    obtain ⟨hsum, hany⟩ := Prod.ext_iff.1 ih
    by_cases ht : t.2.1 = 0
    · rw [List.filter_cons_of_neg (by simpa using ht), ih, List.map_cons, List.sum_cons, List.any_cons, ht]
      simp [signedInt_zero]
    · rw [List.filter_cons_of_pos (by simpa using ht), List.map_cons, List.sum_cons, List.any_cons, List.map_cons, List.sum_cons, List.any_cons]
      exact Prod.ext (congrArg (_ + ·) hsum) (congrArg (_ || ·) hany)
/-- The greatest of values, where one attains a bound of all. -/
theorem foldl_max_eq {α : Type} (g : α → Int) {E : Int} (l : List α) (b : Int) (hsome : b = E ∨ ∃ t ∈ l, g t = E) (hb : b ≤ E) (hall : ∀ t ∈ l, g t ≤ E) :
    l.foldl (fun b y => max b (g y)) b = E := by
  induction l generalizing b with
  | nil =>
    rcases hsome with h | ⟨t, ht, -⟩
    · exact h
    · nomatch ht
  | cons t l ih =>
    obtain ⟨ht, hl⟩ := List.forall_mem_cons.1 hall
    refine ih (max b (g t)) ?_ (max_le hb ht) hl
    rcases hsome with h | h
    · exact .inl (by rw [h, max_eq_left ht])
    · rcases List.exists_mem_cons_iff .. |>.1 h with h | h
      · exact .inl (by rw [h, max_eq_right hb])
      · exact .inr h

/-- A sum S of terms cut to multiples of 2^(E − 126), rounded. -/
def roundedSum (S : Int) (sticky sat : Bool) (E : Int) : FRes :=
  if S = 0 then (0, flIf sticky (flNx ||| flUf))
  else
    let n := if sticky then 2 * S + (if 0 < S then 1 else -1) else 2 * S
    ((roundTo fmt32 .rne sat 0 (decide (n < 0)) n.natAbs (E - 127)).bits, (roundTo fmt32 .rne sat 0 (decide (n < 0)) n.natAbs (E - 127)).flags)
section
variable (S : Int) (sticky sat : Bool) (E : Int)
theorem roundedSum_zero (h : S = 0) : roundedSum S sticky sat E = (0, if sticky then 0x03 else 0) := by
  rw [roundedSum, if_pos h]
  cases sticky <;> rfl
theorem roundedSum_nonzero (h : S ≠ 0) : roundedSum S sticky sat E =
    let q := roundTo fmt32 .rne sat 0 (decide (S < 0)) (2 * S.natAbs + if sticky then 1 else 0) (E - 127)
    (q.bits, q.flags) := by
  have hsign : decide ((if sticky then 2 * S + (if 0 < S then 1 else -1) else 2 * S) < 0) = decide (S < 0) := by
    rw [decide_eq_decide]
    split
    · split <;> omega
    · omega
  have habs : (if sticky then 2 * S + (if 0 < S then 1 else -1) else 2 * S).natAbs = 2 * S.natAbs + if sticky then 1 else 0 := by
    split
    · split <;> omega
    · omega
  rw [roundedSum, if_neg h]
  simp only [hsign, habs]
end

section
variable {sat : Bool} {t : Terms} {c : Nat} {T : List (Bool × Nat × Int)} (hnan : t.nan = false) (hvals : unpack fmt32 c :: t.vals = T.map finVal)
include hnan hvals

/-- What sumTerms gives for finite terms. -/
theorem sumTerms_eq : sumTerms sat t c = (match T.filter (fun t => t.2.1 != 0) with
    | [] => (if T.all (·.1) then 0x80000000 else 0, 0)
    | x :: xs =>
      let top : Int := xs.foldl (fun (b : Int) y => max b ((Nat.log2 y.2.1 : Int) + y.2.2)) ((Nat.log2 x.2.1 : Int) + x.2.2)
      roundedSum (sumAt (top - 126) (x :: xs)).1 (sumAt (top - 126) (x :: xs)).2 sat top) := by
  have hcv : (unpack fmt32 c).isNan = false := by
    have hmem : unpack fmt32 c ∈ T.map finVal := hvals ▸ List.mem_cons_self
    obtain ⟨p, -, hp⟩ := List.mem_map.1 hmem
    rw [← hp]; rfl
  unfold sumTerms
  simp only [hvals, hnan, hcv, finVal_not_inf, finites_finVal]
  cases T.filter (fun t => t.2.1 != 0) <;> rfl
theorem sumTerms_sums : SumsTo sat (sumTerms sat t c) T := by
  rw [sumTerms_eq hnan hvals]
  have hfilter (p : Bool × Nat × Int) : p ∈ T.filter (fun t => t.2.1 != 0) ↔ p ∈ T ∧ p.2.1 ≠ 0 := by
    rw [List.mem_filter, bne_iff_ne]
  have hnonzero (u : Int) := sumAt_nonzero u T
  generalize hnz : T.filter (fun t => t.2.1 != 0) = nz at hfilter hnonzero
  cases nz with
  | nil =>
    refine ⟨fun _ => rfl, fun E hsome => ?_⟩
    obtain ⟨p, hp, hne, -⟩ := hsome
    exact nomatch (hfilter p).2 ⟨hp, hne⟩
  | cons x xs =>
    obtain ⟨hx, hne⟩ := (hfilter x).1 List.mem_cons_self
    refine ⟨fun hzero => absurd (hzero x hx) hne, fun E hsome hall => ?_⟩
    have htop : xs.foldl (fun (b : Int) y => max b ((Nat.log2 y.2.1 : Int) + y.2.2)) ((Nat.log2 x.2.1 : Int) + x.2.2) = E := by
      obtain ⟨p, hp, hpne, hpE⟩ := hsome
      refine foldl_max_eq (fun y => (Nat.log2 y.2.1 : Int) + y.2.2) xs _ ?_ (hall x hx hne) fun y hy => ?_
      · rcases List.mem_cons.1 ((hfilter p).2 ⟨hp, hpne⟩) with rfl | hmem
        · exact .inl hpE
        · exact .inr ⟨p, hmem, hpE⟩
      · obtain ⟨hy, hyne⟩ := (hfilter y).1 (List.mem_cons_of_mem x hy)
        exact hall y hy hyne
    simp only [htop, hnonzero, sumAt_eq]
    exact ⟨roundedSum_zero _ _ sat E, roundedSum_nonzero _ _ sat E⟩
end

end Sys2Proof.Machine
end

section
/-! PROOFS. NaNs, infinities and the values of containers (R171, R254). -/

namespace Sys2Proof.Machine
open Sys2Proof

/-! ## NaNs and infinities among the terms (R171) -/

/-- A value with its sign turned where sub says so. -/
def FVal.turned (sub : Bool) (v : FVal) : FVal := if sub then v.negate else v
/-- An infinity of a sign is among a value and terms. -/
def HasInf (cv : FVal) (vals : List FVal) (n : Bool) : Prop := cv = .inf n ∨ .inf n ∈ vals
theorem isInf_iff (n : Bool) (v : FVal) : v.isInf n = true ↔ v = .inf n := by cases v <;> simp [FVal.isInf]
theorem any_isInf (cv : FVal) (vals : List FVal) (n : Bool) : (cv :: vals).any (·.isInf n) = true ↔ HasInf cv vals n := by
  simp [HasInf, isInf_iff]
theorem inf_turned (sub n : Bool) (v : FVal) : v.turned sub = .inf n ↔ v = .inf (n != sub) := by
  cases v <;> cases sub <;> simp [FVal.turned, FVal.negate, Bool.eq_not_iff]
theorem inf_mem_turned (sub n : Bool) (vals : List FVal) : .inf n ∈ vals.map (FVal.turned sub) ↔ .inf (n != sub) ∈ vals := by
  simp only [List.mem_map, inf_turned, exists_eq_right]

section
variable (sat : Bool) (t : Terms) (c : Nat)
/-- The terms, with the element's own value, have a NaN. -/
def TermsNan : Prop := t.nan = true ∨ (unpack fmt32 c).isNan = true
/-- The terms, with the element's own value, have infinities of both signs. -/
def TermsClash : Prop := HasInf (unpack fmt32 c) t.vals true ∧ HasInf (unpack fmt32 c) t.vals false
theorem sumTerms_nan (h : TermsNan t c ∨ TermsClash t c) : (sumTerms sat t c).1 = 0x7FC00000 ∧
    (TermsClash t c ∨ (unpack fmt32 c).isSig = true ∨ t.nv = true → (sumTerms sat t c).2 = 0x10) ∧
    (¬(TermsClash t c ∨ (unpack fmt32 c).isSig = true ∨ t.nv = true) → (sumTerms sat t c).2 = 0) := by
  obtain ⟨clash, hclash⟩ : ∃ clash : Bool, (clash = true ↔ TermsClash t c) ∧ clash = ((unpack fmt32 c :: t.vals).any (·.isInf true) && (unpack fmt32 c :: t.vals).any (·.isInf false)) :=
    ⟨_, by rw [Bool.and_eq_true, any_isInf, any_isInf]; rfl, rfl⟩
  have heq : sumTerms sat t c = (0x7FC00000, flIf (t.nv || (unpack fmt32 c).isSig || clash) flNv) := by
    unfold sumTerms
    dsimp only
    rw [← hclash.2, if_pos (by rw [Bool.or_eq_true, Bool.or_eq_true, hclash.1]; exact h)]
    rfl
  have hnv : (t.nv || (unpack fmt32 c).isSig || clash) = true ↔ TermsClash t c ∨ (unpack fmt32 c).isSig = true ∨ t.nv = true := by
    rw [Bool.or_eq_true, Bool.or_eq_true, hclash.1, or_comm, or_comm (a := t.nv = true)]
  rw [heq]
  exact ⟨rfl, fun hy => by rw [hnv.2 hy]; rfl, fun hn => by rw [Bool.eq_false_iff.2 (hn ∘ hnv.1)]; rfl⟩
theorem sumTerms_inf (hnan : ¬TermsNan t c) (hclash : ¬TermsClash t c) (n : Bool) (hinf : HasInf (unpack fmt32 c) t.vals n) :
    sumTerms sat t c = (if n then 0xFF800000 else 0x7F800000, 0) := by
  unfold sumTerms
  dsimp only
  rw [if_neg (by rw [Bool.or_eq_true, Bool.or_eq_true, Bool.and_eq_true, any_isInf, any_isInf]; exact fun h => h.elim hnan hclash)]
  cases n with
  | true => rw [if_pos ((any_isInf ..).2 hinf)]; rfl
  | false =>
    rw [if_neg fun h => hclash ⟨(any_isInf ..).1 h, hinf⟩, if_pos ((any_isInf ..).2 hinf)]
    rfl
end

/-! ## The values of containers (R254) -/

/-- Value i of a container. -/
def groupValue (f : TmFmt) (n i : Nat) : Nat := n / 2 ^ (tmBits f * i) % 2 ^ tmBits f
theorem kGroup_zip (f : TmFmt) (a b : Nat) : (kGroup f a).zip (kGroup f b) = (List.range (tmCount f)).map (fun i => (groupValue f a i, groupValue f b i)) :=
  List.zip_map' ..
theorem foldl_sum {α : Type} (g : α → Int) (l : List α) (n : Int) : l.foldl (fun n p => n + g p) n = n + (l.map g).sum := by
  induction l generalizing n with
  | nil => simp
  | cons x l ih => rw [List.foldl_cons, ih, List.map_cons, List.sum_cons, Int.add_assoc]
/-- The terms of the products of two containers. -/
def groupTerms (f : TmFmt) (a b : Nat) : Terms :=
  productTerms ((List.range (tmCount f)).map (fun i => (unpack (tmFp f) (groupValue f a i), unpack (tmFp f) (groupValue f b i))))
theorem products_kGroup (f : TmFmt) (a b : Nat) : products (tmFp f) (kGroup f a) (kGroup f b) = groupTerms f a b := by
  rw [products_eq, kGroup_zip, List.map_map]
  rfl

section
variable {f : TmFmt} (sub sat : Bool) (a b sa sb c : Nat)
theorem stepElem_int (hf : tmInt f = true) : stepElem f sub sat a b sa sb c =
    let P := ((List.range (tmCount f)).map (fun i => bitsInt true (tmBits f) (groupValue f a i) * bitsInt true (tmBits f) (groupValue f b i))).sum
    let n := bitsInt true 32 c + if sub then -P else P
    if sat then (wrapInt 32 (clampInt true 32 n), flIf (clampInt true 32 n != n) flSat) else (wrapInt 32 n, 0) := by
  unfold stepElem
  dsimp only
  rw [if_pos hf, kGroup_zip, foldl_sum, Int.zero_add, List.map_map]
  rfl
theorem stepElem_grouped (hi : tmInt f = false) (hg : tmGrouped f = true) : stepElem f sub sat a b sa sb c =
    let ra := (recordOf (tmBits f) sa).getD (false, 0, 0, 0)
    let rb := (recordOf (tmBits f) sb).getD (false, 0, 0, 0)
    let n := ((List.range (tmCount f)).map (fun i => ((groupValue f a i : Int) - ra.2.2.2) * ((groupValue f b i : Int) - rb.2.2.2))).sum
    sumTerms sat ⟨[FVal.turned sub (.fin ((ra.1 != rb.1) != decide (n < 0)) (ra.2.1 * rb.2.1 * n.natAbs) (ra.2.2.1 + rb.2.2.1))], false, false⟩ c := by
  unfold stepElem
  dsimp only
  rw [if_neg (by rw [hi]; exact Bool.false_ne_true), if_pos hg, kGroup_zip, foldl_sum, Int.zero_add, List.map_map]
  rfl
variable (hi : tmInt f = false) (hg : tmGrouped f = false)
include hi hg
theorem stepElem_float (hs : tmScaled f = false) : stepElem f sub sat a b sa sb c =
    sumTerms sat { groupTerms f a b with vals := (groupTerms f a b).vals.map (FVal.turned sub) } c := by
  unfold stepElem
  dsimp only
  rw [if_neg (by rw [hi]; exact Bool.false_ne_true), if_neg (by rw [hg]; exact Bool.false_ne_true), if_neg (by rw [hs]; exact Bool.false_ne_true), products_kGroup]
  rfl
theorem stepElem_scaled (hs : tmScaled f = true) : stepElem f sub sat a b sa sb c =
    if sa = 0xFF ∨ sb = 0xFF then sumTerms sat { groupTerms f a b with vals := (groupTerms f a b).vals.map (FVal.turned sub), nan := true } c
    else if (groupTerms f a b).vals.any (fun v => v.isInf true || v.isInf false) then
      sumTerms sat { groupTerms f a b with vals := ((groupTerms f a b).vals.filter (fun v => v.isInf true || v.isInf false)).map (FVal.turned sub) } c
    else
      sumTerms sat { groupTerms f a b with vals := [FVal.turned sub (.fin (exactSum (finites (groupTerms f a b).vals)).1
        (exactSum (finites (groupTerms f a b).vals)).2.1 ((exactSum (finites (groupTerms f a b).vals)).2.2 + sa + sb - 254))] } c := by
  unfold stepElem
  dsimp only
  rw [if_neg (by rw [hi]; exact Bool.false_ne_true), if_neg (by rw [hg]; exact Bool.false_ne_true), if_pos hs, products_kGroup]
  rfl
end

end Sys2Proof.Machine
end

section
/-! PROOFS. One element of a step (R170 to R172, R254, R255). -/

namespace Sys2Proof.Machine
open Sys2Proof

/-! ## The values that a step gives (R170 to R172), as the statement spells them -/

theorem turned_finVal (sub : Bool) (t : Bool × Nat × Int) : FVal.turned sub (finVal t) = finVal (t.1 != sub, t.2) := by
  cases sub <;> simp [FVal.turned, finVal, FVal.negate]

section
variable (f : TmFmt) (sub sat : Bool) (a b sa sb c : Nat)

/-- An integer step. -/
theorem stepElem_int_result (hf : tmInt f = true) :
    let P := ((List.range (tmCount f)).map (fun i => bitsInt true (tmBits f) (groupValue f a i) * bitsInt true (tmBits f) (groupValue f b i))).sum
    let n := bitsInt true 32 c + if sub then -P else P
    stepElem f sub sat a b sa sb c = if sat then ((max (-2 ^ 31) (min (2 ^ 31 - 1) n) % 2 ^ 32).toNat, if n < -2 ^ 31 ∨ 2 ^ 31 ≤ n then 0x20 else 0)
      else ((n % 2 ^ 32).toNat, 0) := by
  intro P n
  rw [stepElem_int sub sat a b sa sb c hf]
  change (if sat then (wrapInt 32 (clampInt true 32 n), flIf (clampInt true 32 n != n) flSat) else (wrapInt 32 n, 0)) = _
  have hmin : intMin true 32 = -2 ^ 31 := by decide
  have hmax : intMax true 32 = 2 ^ 31 - 1 := by decide
  have hflag : flIf (clampInt true 32 n != n) flSat = if n < -2 ^ 31 ∨ 2 ^ 31 ≤ n then 0x20 else 0 := by
    have hiff : (clampInt true 32 n != n) = true ↔ n < -2 ^ 31 ∨ 2 ^ 31 ≤ n := by
      rw [bne_iff_ne, ne_eq, clampInt_eq_self_iff, not_not, hmin, hmax]
      omega
    exact if_congr hiff rfl rfl
  rw [hflag, wrapInt_eq, wrapInt_eq, clampInt_eq, hmin, hmax]

/-- A grouped step. -/
theorem stepElem_grouped_sums (hi : tmInt f = false) (hg : tmGrouped f = true) {ra rb : Bool × Nat × Int × Nat} {pc : Bool × Nat × Int}
    (hra : recordOf (tmBits f) sa = some ra) (hrb : recordOf (tmBits f) sb = some rb) (hc : unpack fmt32 c = finVal pc) :
    let I := ((List.range (tmCount f)).map (fun i => ((groupValue f a i : Int) - ra.2.2.2) * ((groupValue f b i : Int) - rb.2.2.2))).sum
    SumsTo sat (stepElem f sub sat a b sa sb c) [pc, (((ra.1 != rb.1) != decide (I < 0)) != sub, ra.2.1 * rb.2.1 * I.natAbs, ra.2.2.1 + rb.2.2.1)] := by
  intro I
  rw [stepElem_grouped sub sat a b sa sb c hi hg, hra, hrb]
  refine sumTerms_sums rfl ?_
  rw [hc]
  exact congrArg (finVal pc :: [·]) (turned_finVal sub ((ra.1 != rb.1) != decide (I < 0), ra.2.1 * rb.2.1 * I.natAbs, ra.2.2.1 + rb.2.2.1))

/-! ## Floating steps -/

variable {f}
/-- The two values of a product of a step. -/
abbrev leftValue (f : TmFmt) (a i : Nat) : FVal := unpack (tmFp f) (groupValue f a i)
theorem groupTerms_some {P : FVal → FVal → Prop} : (∃ p ∈ (List.range (tmCount f)).map (fun i => (leftValue f a i, leftValue f b i)), P p.1 p.2) ↔
    ∃ i, i < tmCount f ∧ P (leftValue f a i) (leftValue f b i) := by
  constructor
  · rintro ⟨p, hp, h⟩
    obtain ⟨i, hi, rfl⟩ := List.mem_map.1 hp
    exact ⟨i, List.mem_range.1 hi, h⟩
  · rintro ⟨i, hi, h⟩
    exact ⟨_, List.mem_map.2 ⟨i, List.mem_range.2 hi, rfl⟩, h⟩
theorem groupTerms_nan : (groupTerms f a b).nan = true ↔ ∃ i, i < tmCount f ∧ ((leftValue f a i).isNan = true ∨ (leftValue f b i).isNan = true ∨
    BareProduct (leftValue f a i) (leftValue f b i)) :=
  productTerms_nan.trans (groupTerms_some (P := fun x y => x.isNan = true ∨ y.isNan = true ∨ BareProduct x y) a b)
theorem groupTerms_nv : (groupTerms f a b).nv = true ↔ ∃ i, i < tmCount f ∧ ((leftValue f a i).isSig = true ∨ (leftValue f b i).isSig = true ∨
    BareProduct (leftValue f a i) (leftValue f b i)) :=
  productTerms_nv.trans (groupTerms_some (P := fun x y => x.isSig = true ∨ y.isSig = true ∨ BareProduct x y) a b)
theorem groupTerms_inf {n : Bool} : .inf n ∈ (groupTerms f a b).vals ↔ ∃ i, i < tmCount f ∧ InfiniteProduct n (leftValue f a i) (leftValue f b i) :=
  productTerms_inf.trans (groupTerms_some (P := InfiniteProduct n) a b)
/-- The product of two finite values. -/
def finProduct (p q : Bool × Nat × Int) : Bool × Nat × Int := (p.1 != q.1, p.2.1 * q.2.1, p.2.2 + q.2.2)
theorem groupTerms_finite {pa pb : Nat → Bool × Nat × Int}
    (h : ∀ i, i < tmCount f → leftValue f a i = finVal (pa i) ∧ leftValue f b i = finVal (pb i)) :
    groupTerms f a b = ⟨((List.range (tmCount f)).map (fun i => finProduct (pa i) (pb i))).map finVal, false, false⟩ := by
  have hvals : (List.range (tmCount f)).map (fun i => (leftValue f a i, leftValue f b i)) =
      (List.range (tmCount f)).map (fun i => (finVal (pa i), finVal (pb i))) :=
    List.map_congr_left fun i hi => Prod.ext (h i (List.mem_range.1 hi)).1 (h i (List.mem_range.1 hi)).2
  rw [groupTerms, hvals, List.map_map]
  exact productTerms_finite pa pb _

section
variable (hi : tmInt f = false) (hg : tmGrouped f = false) (hs : tmScaled f = false)
/-- The terms of a floating step. -/
def floatTerms (f : TmFmt) (sub : Bool) (a b : Nat) : Terms := { groupTerms f a b with vals := (groupTerms f a b).vals.map (FVal.turned sub) }
theorem floatTerms_inf {n : Bool} : HasInf (unpack fmt32 c) (floatTerms f sub a b).vals n ↔ unpack fmt32 c = .inf n ∨
    ∃ i, i < tmCount f ∧ InfiniteProduct (n != sub) (leftValue f a i) (leftValue f b i) :=
  or_congr Iff.rfl ((inf_mem_turned sub n _).trans (groupTerms_inf a b))
include hi hg hs
theorem stepElem_floatTerms : stepElem f sub sat a b sa sb c = sumTerms sat (floatTerms f sub a b) c := stepElem_float sub sat a b sa sb c hi hg hs
theorem stepElem_float_sums {pa pb : Nat → Bool × Nat × Int} {pc : Bool × Nat × Int} (hc : unpack fmt32 c = finVal pc)
    (h : ∀ i, i < tmCount f → leftValue f a i = finVal (pa i) ∧ leftValue f b i = finVal (pb i)) :
    SumsTo sat (stepElem f sub sat a b sa sb c) (pc :: (List.range (tmCount f)).map (fun i =>
      (((pa i).1 != (pb i).1) != sub, (pa i).2.1 * (pb i).2.1, (pa i).2.2 + (pb i).2.2))) := by
  rw [stepElem_floatTerms sub sat a b sa sb c hi hg hs, floatTerms, groupTerms_finite a b h]
  refine sumTerms_sums rfl ?_
  rw [hc, List.map_cons]
  refine congrArg (finVal pc :: ·) ?_
  simp only [List.map_map]
  exact List.map_congr_left fun i _ => turned_finVal sub (finProduct (pa i) (pb i))
end

/-! ## Scaled steps -/

/-- The least exponent of terms, at most 0. -/
def leastExponent (l : List (Bool × Nat × Int)) : Int := l.foldl (fun u t => min u t.2.2) 0
theorem leastExponent_le {l : List (Bool × Nat × Int)} {t : Bool × Nat × Int} (ht : t ∈ l) : leastExponent l ≤ t.2.2 := by
  have general (l : List (Bool × Nat × Int)) (n : Int) : l.foldl (fun u t => min u t.2.2) n ≤ n ∧ ∀ t ∈ l, l.foldl (fun u t => min u t.2.2) n ≤ t.2.2 := by
    induction l generalizing n with
    | nil => exact ⟨le_rfl, List.forall_mem_nil _⟩
    | cons x l ih =>
      obtain ⟨hn, hl⟩ := ih (min n x.2.2)
      exact ⟨hn.trans (min_le_left ..), List.forall_mem_cons.2 ⟨hn.trans (min_le_right ..), hl⟩⟩
  exact (general l 0).2 t ht
/-- The exact sum of terms at their least exponent. -/
def exactTotalAt (l : List (Bool × Nat × Int)) : Int := (l.map (fun t => signedInt t.1 (t.2.1 * 2 ^ (t.2.2 - leastExponent l).toNat))).sum
theorem exactSum_eq (l : List (Bool × Nat × Int)) : exactSum l =
    (if exactTotalAt l = 0 then l.all (fun t => t.1 && t.2.1 == 0) else decide (exactTotalAt l < 0), (exactTotalAt l).natAbs, leastExponent l) := by
  have htotal : (sumAt (leastExponent l) l).1 = exactTotalAt l := by
    rw [sumAt_eq, exactTotalAt]
    exact congrArg List.sum (List.map_congr_left fun t ht => by rw [if_pos (leastExponent_le ht)])
  rw [← htotal]
  rfl


section
variable (hi : tmInt f = false) (hg : tmGrouped f = false) (hs : tmScaled f = true)
include hi hg hs
theorem stepElem_scaled_nan (h : sa = 0xFF ∨ sb = 0xFF ∨ (unpack fmt32 c).isNan = true ∨
      ∃ i, i < tmCount f ∧ ((leftValue f a i).isNan = true ∨ (leftValue f b i).isNan = true)) : (stepElem f sub sat a b sa sb c).1 = 0x7FC00000 := by
  rw [stepElem_scaled sub sat a b sa sb c hi hg hs]
  split
  next => exact (sumTerms_nan sat _ c (.inl (.inl rfl))).1
  next hscales =>
    rw [not_or] at hscales
    have hnan : (groupTerms f a b).nan = true ∨ (unpack fmt32 c).isNan = true := by
      rcases h with h | h | h | ⟨i, hi, h⟩
      · exact absurd h hscales.1
      · exact absurd h hscales.2
      · exact .inr h
      · exact .inl ((groupTerms_nan a b).2 ⟨i, hi, or_assoc.1 (.inl h)⟩)
    split
    all_goals
      refine (sumTerms_nan sat _ c (.inl ?_)).1
      exact hnan
/-- A scaled step of finite values has one term. -/
theorem stepElem_scaled_sums {pa pb : Nat → Bool × Nat × Int} {pc : Bool × Nat × Int} (hsa : sa ≠ 0xFF) (hsb : sb ≠ 0xFF) (hc : unpack fmt32 c = finVal pc)
    (h : ∀ i, i < tmCount f → leftValue f a i = finVal (pa i) ∧ leftValue f b i = finVal (pb i)) :
    ∃ u : Int, (∀ i, i < tmCount f → u ≤ (pa i).2.2 + (pb i).2.2) ∧
      let P := ((List.range (tmCount f)).map (fun i => signedInt ((pa i).1 != (pb i).1) ((pa i).2.1 * (pb i).2.1 * 2 ^ ((pa i).2.2 + (pb i).2.2 - u).toNat))).sum
      let neg := if P = 0 then (List.range (tmCount f)).all (fun i => ((pa i).1 != (pb i).1) && (pa i).2.1 * (pb i).2.1 == 0) else decide (P < 0)
      SumsTo sat (stepElem f sub sat a b sa sb c) [pc, (neg != sub, P.natAbs, u + sa + sb - 254)] := by
  have hlow : ∀ i, i < tmCount f → leastExponent ((List.range (tmCount f)).map (fun i => finProduct (pa i) (pb i))) ≤ (pa i).2.2 + (pb i).2.2 := fun i hi =>
    leastExponent_le (List.mem_map.2 ⟨i, List.mem_range.2 hi, rfl⟩)
  have hsum := exactSum_eq ((List.range (tmCount f)).map (fun i => finProduct (pa i) (pb i)))
  rw [exactTotalAt, List.map_map, List.all_map] at hsum
  have one (x : Bool × Nat × Int) (hx : exactSum ((List.range (tmCount f)).map (fun i => finProduct (pa i) (pb i))) = x) :
      SumsTo sat (stepElem f sub sat a b sa sb c) [pc, (x.1 != sub, x.2.1, x.2.2 + sa + sb - 254)] := by
    rw [stepElem_scaled sub sat a b sa sb c hi hg hs, if_neg (not_or.2 ⟨hsa, hsb⟩), groupTerms_finite a b h, finites_finVal, hx,
      if_neg (by simp [FVal.isInf, finVal])]
    refine sumTerms_sums rfl ?_
    rw [hc]
    exact congrArg (finVal pc :: [·]) (turned_finVal sub (x.1, x.2.1, x.2.2 + sa + sb - 254))
  exact ⟨_, hlow, one _ hsum⟩
end
end

end Sys2Proof.Machine
end

section
/-! PROOFS. The rows of a step of tmop (R256). -/

namespace Sys2Proof.Machine
open Sys2Proof

/-! ## The rows of a step (R256) -/

/-- An element of a register image packed from elements. -/
theorem packElems_elem (w : Nat) (l : List Nat) (j : Nat) : packElems w l / 2 ^ (w * j) % 2 ^ w = l.getD j 0 % 2 ^ w := by
  induction l generalizing j with
  | nil => simp [packElems]
  | cons x l ih =>
    have hpack : packElems w (x :: l) = x % 2 ^ w + 2 ^ w * packElems w l := rfl
    cases j with
    | zero => simp [hpack]
    | succ j =>
      rw [hpack, Nat.mul_succ, Nat.add_comm (w * j), pow_add, ← Nat.div_div_eq_div_mul, Nat.add_mul_div_left _ _ (Nat.two_pow_pos w),
        Nat.div_eq_of_lt (Nat.mod_lt _ (Nat.two_pow_pos w)), Nat.zero_add, ih, List.getD_cons_succ]
theorem getBits_inside {n : Nat} (x : BitVec n) (w v a u : Nat) (hu : a + u ≤ w) (hw : w ≤ n) : getBits (putBits x 0 w v) a u = v / 2 ^ a % 2 ^ u := by
  apply Nat.eq_of_testBit_eq
  intro j
  rw [testBit_getBits, getLsbD_putBits, Nat.testBit_mod_two_pow, Nat.testBit_div_two_pow]
  by_cases hj : j < u
  · rw [if_pos (by omega), Nat.sub_zero, Nat.add_comm a]
    simp [hj, show j + a < n by omega]
  · simp [hj]

/-- A row with the first m elements replaced by what E gives for them. -/
def newRow (E : Nat → Nat → FRes) (m : Nat) (old : VecReg) : VecReg :=
  putBits old 0 (32 * m) (packElems 32 ((List.range m).map (fun j => (E j (getBits old (32 * j) 32)).1)))
theorem newRow_elem (E : Nat → Nat → FRes) {m : Nat} (hm : m ≤ 128) (old : VecReg) (c : Nat) :
    BitVec.ofNat 32 (getBits (newRow E m old) (32 * c) 32) =
      if c < m then BitVec.ofNat 32 (E c (getBits old (32 * c) 32)).1 else BitVec.ofNat 32 (getBits old (32 * c) 32) := by
  unfold newRow
  split
  next hcm =>
    rw [getBits_inside _ _ _ _ _ (by omega) (by omega), packElems_elem, List.getD_eq_getElem?_getD, List.getElem?_map, List.getElem?_range hcm]
    exact BitVec.eq_of_toNat_eq (by simp)
  next hcm => rw [getBits_putBits_of_disjoint _ _ _ _ _ _ (by omega)]

/-- The tile and the flags with row i replaced. -/
def rowStep (E : Nat → Nat → Nat → FRes) (m : Nat) (acc : Tile × BitVec 6) (i : Nat) : Tile × BitVec 6 :=
  ({ acc.1 with rows := sput acc.1.rows i (newRow (E i) m (sget 0 acc.1.rows i)) },
    ((List.range m).map (fun j => E i j (getBits (sget 0 acc.1.rows i) (32 * j) 32))).foldl (fun fl r => fl ||| r.2) acc.2)

theorem foldl_flags (l : List FRes) (fl : BitVec 6) (n : Nat) :
    (l.foldl (fun fl r => fl ||| r.2) fl).getLsbD n = true ↔ fl.getLsbD n = true ∨ ∃ r ∈ l, r.2.getLsbD n = true := by
  induction l generalizing fl with
  | nil => simp
  | cons r l ih => rw [List.foldl_cons, ih, BitVec.getLsbD_or, Bool.or_eq_true, List.exists_mem_cons_iff, or_assoc]

section
variable (E : Nat → Nat → Nat → FRes) (m : Nat) (t : Tile) (fl : BitVec 6) (l : List Nat)

/-- Rows replaced one after another, each once. -/
theorem foldl_rowStep_rows (hl : l.Nodup) (r : Nat) : sget 0 (l.foldl (rowStep E m) (t, fl)).1.rows r =
    if r ∈ l then newRow (E r) m (sget 0 t.rows r) else sget 0 t.rows r := by
  induction l using List.reverseRecOn with
  | nil => simp
  | append_singleton l i ih =>
    obtain ⟨hnodup, -, hdisjoint⟩ := List.nodup_append.1 hl
    have hi : i ∉ l := fun hmem => hdisjoint i hmem i (by simp) rfl
    rw [List.foldl_append, List.foldl_cons, List.foldl_nil]
    by_cases hr : r = i
    · subst hr
      rw [rowStep, sget_sput_self, ih hnodup, if_neg hi, if_pos (by simp)]
    · rw [rowStep, sget_sput_of_ne _ _ _ hr, ih hnodup]
      exact if_congr (by simp [hr]) rfl rfl
theorem foldl_rowStep_keeps : { (l.foldl (rowStep E m) (t, fl)).1 with rows := t.rows } = t := by
  induction l using List.reverseRecOn with
  | nil => rfl
  | append_singleton l i ih =>
    rw [List.foldl_append, List.foldl_cons, List.foldl_nil]
    exact ih
theorem foldl_rowStep_flags (hl : l.Nodup) (n : Nat) : (l.foldl (rowStep E m) (t, fl)).2.getLsbD n = true ↔
    fl.getLsbD n = true ∨ ∃ i ∈ l, ∃ j, j < m ∧ (E i j (getBits (sget 0 t.rows i) (32 * j) 32)).2.getLsbD n = true := by
  induction l using List.reverseRecOn with
  | nil => simp
  | append_singleton l i ih =>
    obtain ⟨hnodup, -, hdisjoint⟩ := List.nodup_append.1 hl
    have hi : i ∉ l := fun hmem => hdisjoint i hmem i (by simp) rfl
    rw [List.foldl_append, List.foldl_cons, List.foldl_nil, rowStep, foldl_flags, ih hnodup, foldl_rowStep_rows E m t fl l hnodup, if_neg hi]
    simp only [List.mem_append, List.mem_singleton, List.mem_map, List.mem_range, or_and_right, exists_or, exists_eq_left, or_assoc,
      exists_exists_and_eq_and]
end

end Sys2Proof.Machine
end

section
/-! PROOFS. A step of tmop: its elements, its poison and its outcomes (R256, R257, R262, R264). -/

namespace Sys2Proof.Machine
open Sys2Proof

/-! ## A step of tmop (R256, R257, R262, R264) -/

/-- The scale or the record that goes with a container, 0 where the format has none. -/
def secondPart (s : State) (f : TmFmt) (x : VSrc) (c i : Nat) : Nat := if tmParts f = 2 then tmRead s x (c + 1) (if tmScaled f then 8 else 32) i else 0
/-- What a step gives for the element of row r and column c that holds old. -/
def stepAt (s : State) (f : TmFmt) (sub sat : Bool) (a b : VSrc) (ca cb : Nat) (r c old : Nat) : FRes :=
  stepElem f sub sat (tmRead s a ca 32 r) (tmRead s b cb 32 c) (secondPart s f a ca r) (secondPart s f b cb c) old
theorem stepRows_eq (s : State) (f : TmFmt) (sub sat : Bool) (a b : VSrc) (ca cb : Nat) (rp : BitVec 3) (t : Tile) :
    stepRows s f sub sat a b ca cb rp t = (s.tmRows rp).foldl (rowStep (stepAt s f sub sat a b ca cb) (min s.vl 128)) (t, 0) := by
  have hcols (g : Nat → Nat × Nat) (m : Nat) : (List.range m).zip ((List.range m).map g) = (List.range m).map (fun j => (j, g j)) := by
    have hzip := List.zip_map' (f := fun j : Nat => j) (g := g) (l := List.range m)
    rwa [List.map_id'] at hzip
  unfold stepRows
  dsimp only
  congr 1
  funext acc i
  simp only [hcols, List.map_map, List.length_map, State.tmCols, List.length_range]
  rfl

/-- Row r and column c are among those that a step of strand k updates. -/
def StepTakes (s : State) (k : Nat) (rp : BitVec 3) (r c : Nat) : Prop := ((s.strand k).mask rp).getLsbD r = true ∧ c < min (s.strand k).vl.toNat 128

section
variable {s : State} {k : Nat} (h : s.actor = .strand k) {f : TmFmt} {sub sat : Bool} {a b : VSrc} {ca cb : Nat} {rp : BitVec 3}
include h

theorem mem_tmRows {r : Nat} : r ∈ s.tmRows rp ↔ r < 128 ∧ ((s.strand k).mask rp).getLsbD r = true := by
  rw [State.tmRows, List.mem_filter, List.mem_range, State.me_strand h]
theorem vl_strand : s.vl = (s.strand k).vl.toNat := by rw [State.vl, State.me_strand h]
omit h in
theorem tmRows_nodup : (s.tmRows rp).Nodup := List.nodup_range.filter _

omit h in
theorem Tile.elem_toNat (t : Tile) (r c : Nat) : (t.elem r c).toNat = getBits (sget 0 t.rows r) (32 * c) 32 := by
  rw [Tile.elem, BitVec.toNat_ofNat, getBits, Nat.mod_mod]
/-- The elements of a tile after a step. -/
theorem stepRows_elem (t : Tile) (r c : Nat) (hr : r < 128) :
    (StepTakes s k rp r c → (stepRows s f sub sat a b ca cb rp t).1.elem r c = BitVec.ofNat 32 (stepAt s f sub sat a b ca cb r c (t.elem r c).toNat).1) ∧
    (¬StepTakes s k rp r c → (stepRows s f sub sat a b ca cb rp t).1.elem r c = t.elem r c) := by
  have hrow := newRow_elem (stepAt s f sub sat a b ca cb r) (min_le_right s.vl 128) (sget 0 t.rows r) c
  have hnew : (stepRows s f sub sat a b ca cb rp t).1.elem r c = BitVec.ofNat 32 (getBits
      (if r ∈ s.tmRows rp then newRow (stepAt s f sub sat a b ca cb r) (min s.vl 128) (sget 0 t.rows r) else sget 0 t.rows r) (32 * c) 32) := by
    rw [stepRows_eq, Tile.elem, foldl_rowStep_rows _ _ _ _ _ tmRows_nodup]
  rw [hnew, Tile.elem_toNat]
  rw [vl_strand h] at hrow ⊢
  constructor
  · rintro ⟨hmask, hcol⟩
    rw [if_pos ((mem_tmRows h).2 ⟨hr, hmask⟩), hrow, if_pos hcol]
  · intro hno
    split
    next hmem => rw [hrow, if_neg fun hcol => hno ⟨((mem_tmRows h).1 hmem).2, hcol⟩]; rfl
    · rfl
omit h in
theorem stepRows_keeps (t : Tile) : { (stepRows s f sub sat a b ca cb rp t).1 with rows := t.rows } = t := by
  rw [stepRows_eq]
  exact foldl_rowStep_keeps ..
/-- The flags of a step. -/
theorem stepRows_flags (t : Tile) (n : Nat) : (stepRows s f sub sat a b ca cb rp t).2.getLsbD n = true ↔
    ∃ r c, r < 128 ∧ StepTakes s k rp r c ∧ (stepAt s f sub sat a b ca cb r c (t.elem r c).toNat).2.getLsbD n = true := by
  rw [stepRows_eq, foldl_rowStep_flags _ _ _ _ _ tmRows_nodup]
  simp only [Tile.elem_toNat, mem_tmRows h, vl_strand h, StepTakes]
  constructor
  · rintro (hz | ⟨r, ⟨hr, hmask⟩, c, hc, hfl⟩)
    · simp at hz
    · exact ⟨r, c, hr, ⟨hmask, hc⟩, hfl⟩
  · rintro ⟨r, c, hr, ⟨hmask, hc⟩, hfl⟩
    exact .inr ⟨r, ⟨hr, hmask⟩, c, hc, hfl⟩

/-- The first poisoned element that a step updates. -/
theorem stepPoison_some {t : Tile} {q : Nat} (hq : stepPoison s t rp = some q) : q ∈ t.poison ∧ StepTakes s k rp (q / 128) (q % 128) := by
  have hfound := List.find?_some hq
  rw [Bool.and_eq_true, decide_eq_true_eq, State.me_strand h, vl_strand h] at hfound
  exact ⟨List.mem_of_find?_eq_some hq, hfound⟩
theorem stepPoison_none {t : Tile} : stepPoison s t rp = none ↔ ∀ q ∈ t.poison, ¬StepTakes s k rp (q / 128) (q % 128) := by
  rw [stepPoison, List.find?_eq_none]
  simp only [Bool.and_eq_true, decide_eq_true_eq, State.me_strand h, vl_strand h, StepTakes]
end

section
variable {s : State} {j : Nat} {acc : BitVec 2} {f : TmFmt} {sub sat : Bool} {a b : VSrc} {ca cb : Nat} {rp : BitVec 3}
theorem tmStep_faults {x : TrapInfo} (hc : stepCheck s f a b ca cb rp = .error (.trap x)) : tmStep s j acc f sub sat a b ca cb rp = .error x := by
  rw [tmStep, hc]
variable (hc : stepCheck s f a b ca cb rp = .ok ())
include hc
theorem tmStep_skips (hs : stepSkipped s f a b ca cb = true) : tmStep s j acc f sub sat a b ca cb rp = .ok s := by
  rw [tmStep, hc]
  exact if_pos hs
variable (hs : stepSkipped s f a b ca cb = false)
include hs
theorem tmStep_poisoned {q : Nat} (hq : stepPoison s (s.tile j) rp = some q) :
    tmStep s j acc f sub sat a b ca cb rp = .error ⟨.memPoison, acc.zeroExtend 64, q⟩ := by
  rw [tmStep, hc]
  simp only []
  rw [if_neg (by rw [hs]; exact Bool.false_ne_true), hq]
theorem tmStep_adds (hq : stepPoison s (s.tile j) rp = none) : tmStep s j acc f sub sat a b ca cb rp =
    .ok ((s.setTile j (stepRows s f sub sat a b ca cb rp (s.tile j)).1).updMe (·.accrue (stepRows s f sub sat a b ca cb rp (s.tile j)).2)) := by
  rw [tmStep, hc]
  simp only []
  rw [if_neg (by rw [hs]; exact Bool.false_ne_true), hq]
end

end Sys2Proof.Machine
end

section
/-! PROOFS. The slots that a step pops (R193). -/

namespace Sys2Proof.Machine
open Sys2Proof

/-! ## Popping the slots of a step (R193) -/

/-- The strand that keeps a queue, once n slots are popped. -/
def popFrom (q : Queue) (n : Nat) (p : Strand) : Strand :=
  match q with
  | .ring i =>
    let r := p.rings[i.toNat]'i.isLt
    { p with rings := p.rings.set i.toNat { r with
      head := r.head + BitVec.ofNat 32 n
      unlanded := (upFrom 0 n).foldl (fun l c => sdel l (r.head + BitVec.ofNat 32 c).toNat) r.unlanded } i.isLt }
  | .relay i => { p with relays := p.relays.set i.toNat ((p.relays[i.toNat]'i.isLt).drop n) i.isLt }
/-- The same for a source of a tmop, which may be a register. -/
def popSource (a : VSrc) (n : Nat) (p : Strand) : Strand :=
  match a with
  | .vreg _ => p
  | .queue q => popFrom q n p
/-- A state with the slots of a source popped. -/
def sourcePopped (s : State) (a : VSrc) (n : Nat) : State :=
  match a with
  | .vreg _ => s
  | .queue q => queuePop s q n
theorem tmPop_eq (s : State) (a b : VSrc) (n : Nat) : tmPop s a b n = sourcePopped (sourcePopped s a n) b n := rfl
theorem popFrom_place (q : Queue) (n : Nat) (p : Strand) : (popFrom q n p).place = p.place := by cases q <;> rfl
theorem popSource_accrue (a : VSrc) (n : Nat) (p : Strand) (fl : BitVec 6) : popSource a n (p.accrue fl) = (popSource a n p).accrue fl := by
  rcases a with _ | _ | _ <;> rfl
theorem popSource_fflags (a : VSrc) (n : Nat) (p : Strand) : (popSource a n p).fflags = p.fflags := by rcases a with _ | _ | _ <;> rfl

/-- What popping a source changes: the strand that keeps the queue. -/
theorem sourcePopped_frame (s : State) (a : VSrc) (n : Nat) : { sourcePopped s a n with strands := s.strands } = s ∧
    (∀ j, (sourcePopped s a n).shardKey j = s.shardKey j) ∧
    ∀ i, (sourcePopped s a n).strand i = if i = s.shardKey s.key then popSource a n (s.strand i) else s.strand i := by
  cases a with
  | vreg v => exact ⟨rfl, fun _ => rfl, fun i => (ite_self _).symm⟩
  | queue q =>
    have hupd : queuePop s q n = s.upd (s.shardKey s.key) (popFrom q n) := by cases q <;> rfl
    rw [sourcePopped, hupd]
    refine ⟨rfl, fun j => State.shardKey_upd s _ j (popFrom_place q n), fun i => ?_⟩
    rw [State.strand_upd]
    exact if_ctx_congr Iff.rfl (fun hi => by rw [hi]; rfl) fun _ => rfl
theorem tmPop_frame (s : State) (a b : VSrc) (n : Nat) : { tmPop s a b n with strands := s.strands } = s ∧
    ∀ i, (tmPop s a b n).strand i = if i = s.shardKey s.key then popSource b n (popSource a n (s.strand i)) else s.strand i := by
  obtain ⟨hrest, hshard, hstrand⟩ := sourcePopped_frame s a n
  have hkey : (sourcePopped s a n).key = s.key := (congrArg State.key hrest :)
  obtain ⟨hrest', -, hstrand'⟩ := sourcePopped_frame (sourcePopped s a n) b n
  rw [tmPop_eq]
  refine ⟨?_, fun i => ?_⟩
  · rw [← hrest'] at hrest
    exact hrest
  · rw [hstrand', hkey, hshard, hstrand]
    split <;> rfl
theorem tmPop_fflags (s : State) (a b : VSrc) (n i : Nat) : ((tmPop s a b n).strand i).fflags = (s.strand i).fflags := by
  rw [(tmPop_frame s a b n).2]
  split
  · rw [popSource_fflags, popSource_fflags]
  · rfl
theorem tmPop_actor (s : State) (a b : VSrc) (n : Nat) : (tmPop s a b n).actor = s.actor := (congrArg State.actor (tmPop_frame s a b n).1 :)

/-- The state of a step that has added its products. -/
def stepped (s : State) (j k : Nat) (t : Tile) (fl : BitVec 6) : State := (s.setTile j t).upd k (·.accrue fl)
section
variable {s : State} {k : Nat} (h : s.actor = .strand k) (a b : VSrc) (n j : Nat) (t : Tile) (fl : BitVec 6)
theorem stepped_strand (i : Nat) : (stepped s j k t fl).strand i = if i = k then (s.strand k).accrue fl else s.strand i := State.strand_upd ..
theorem stepped_shard (i : Nat) : (stepped s j k t fl).shardKey i = s.shardKey i := State.shardKey_upd (s.setTile j t) k i fun _ => rfl
theorem stepped_tile (i : Nat) : (stepped s j k t fl).tile i = if i = j then t else s.tile i := sget_sput ..
/-- The pops do not touch the flags that the step has raised. -/
theorem tmPop_stepped (i : Nat) : (tmPop (stepped s j k t fl) a b n).strand i =
    if i = k then ((tmPop s a b n).strand k).accrue fl else (tmPop s a b n).strand i := by
  have hkey : (stepped s j k t fl).key = s.key := rfl
  rw [(tmPop_frame (stepped s j k t fl) a b n).2, hkey, stepped_shard, stepped_strand]
  by_cases hi : i = k
  · rw [if_pos hi, if_pos hi, (tmPop_frame s a b n).2, hi, popSource_accrue, popSource_accrue]
    split <;> rfl
  · rw [if_neg hi, if_neg hi, (tmPop_frame s a b n).2]
include h
/-- A step that has added its products is through. -/
theorem stepDone :
    let u := vdone (tmPop (stepped s j k t fl) a b n)
    u.tile j = t ∧ (∀ i, i ≠ j → u.tile i = s.tile i) ∧ (u.strand k).fflags = (s.strand k).fflags ||| fl ∧
      u.strand k = { ((tmPop s a b n).strand k).onward with vstart := 0, fflags := (u.strand k).fflags } ∧
      (∀ i, i ≠ k → u.strand i = (tmPop s a b n).strand i) ∧ { u with strands := s.strands, tiles := s.tiles } = s := by
  intro u
  have hrest := (tmPop_frame (stepped s j k t fl) a b n).1
  have hactor : (tmPop (stepped s j k t fl) a b n).actor = .strand k := (tmPop_actor ..).trans h
  have hpop := tmPop_stepped (s := s) (k := k) a b n j t fl
  have hu : u = (tmPop (stepped s j k t fl) a b n).upd k (fun p => { p.onward with vstart := 0 }) := vdone_strand hactor
  have hself : u.strand k = { (((tmPop s a b n).strand k).accrue fl).onward with vstart := 0 } := by
    rw [hu, State.strand_upd_self, hpop, if_pos rfl]
  have htiles : u.tiles = (stepped s j k t fl).tiles := by
    rw [hu]; exact (congrArg State.tiles hrest :)
  have htile (i : Nat) : u.tile i = if i = j then t else s.tile i := by
    rw [State.tile, htiles]; exact stepped_tile j t fl i
  refine ⟨by rw [htile, if_pos rfl], fun i hi => by rw [htile, if_neg hi], ?_, by rw [hself]; rfl, fun i hi => ?_, ?_⟩
  · rw [hself]
    exact congrArg (· ||| fl) (tmPop_fflags s a b n k)
  · rw [hu, State.strand_upd_of_ne _ _ hi, hpop, if_neg hi]
  · rw [hu]
    exact (congrArg (fun v : State => { v with strands := s.strands, tiles := s.tiles }) hrest :)
end

end Sys2Proof.Machine
end

section
/-! PROOFS. The checks of tmop (R256, R258, R260). -/

namespace Sys2Proof.Machine
open Sys2Proof

/-! ## The checks of tmop (R256, R258, R260) -/

theorem bind_eq_ok {ε α β : Type} {x : Except ε α} {g : α → Except ε β} {b : β} : (x >>= g) = .ok b ↔ ∃ v, x = .ok v ∧ g v = .ok b := by
  cases x <;> simp [bind, Except.bind]

section
variable {s : State} {k : Nat} (h : s.actor = .strand k) {acc : BitVec 2} {f : TmFmt} {src : TmSrc} {va vb : Queue} {rp : BitVec 3} {sub sat : Bool} {w : Word}
include h
omit h in
theorem tmop_word (he : encode (.tmop acc f src rp sub sat) = some w) : wTmop acc f src rp sub sat = w := Option.some.inj he
omit h in
theorem tmopMs_word (he : encode (.tmopMs acc f va vb rp sub sat) = some w) : wTmopMs acc f va vb rp sub sat = w := Option.some.inj he
theorem tmChecks_named {a b : VSrc} {n j : Nat} (hc : tmChecks s acc f a b n w = .ok j) : s.tileKey k acc = some j := by
  rw [tmChecks] at hc
  obtain ⟨-, -, hc⟩ := bind_eq_ok.1 hc
  obtain ⟨i, hname, hc⟩ := bind_eq_ok.1 hc
  obtain ⟨-, -, hc⟩ := bind_eq_ok.1 hc
  obtain ⟨-, -, hc⟩ := bind_eq_ok.1 hc
  obtain ⟨-, -, hc⟩ := bind_eq_ok.1 hc
  have hij : i = j := by
    split at hc
    · exact Except.ok.inj hc
    · obtain ⟨-, -, hc⟩ := bind_eq_ok.1 hc
      obtain ⟨-, -, hc⟩ := bind_eq_ok.1 hc
      exact Except.ok.inj hc
  rw [tileNamed, State.myTile_strand h] at hname
  subst hij
  split at hname
  · nomatch hname
  · next i' hi => rw [hi, Except.ok.inj hname]
theorem tmChecks_unclaimed {a b : VSrc} {n : Nat} (hgroups : groupsOk (s.strand k) (tmGroups a (tmParts f) ++ tmGroups b (tmParts f)) = .ok ())
    (hname : s.tileKey k acc = none) : tmChecks s acc f a b n w = .error (.trap ⟨.tileUnclaimed, BitVec.ofNat 64 acc.toNat, 0⟩) := by
  rw [tmChecks, State.me_strand h, check_ok hgroups, tileNamed, State.myTile_strand h, hname]
  rfl
end

end Sys2Proof.Machine
end

section
/-! PROOFS. tmop of one step: issue, claims and outcomes (R193, R251, R260). -/

namespace Sys2Proof.Machine
open Sys2Proof

/-! ## Issue and claims (R193, R251, R260) -/

/-- The claims that a source makes. -/
def sourceClaims (a : VSrc) (n : Nat) : List (Queue × Nat) :=
  match a with
  | .vreg _ => []
  | .queue q => [(q, n)]
/-- A strand whose tmop has issued on tile j at step now with its claims; one that has issued already stays. -/
def Strand.issues (p : Strand) (j now : Nat) (claims : List (Queue × Nat)) : Strand :=
  if p.wait.seq = 0 then { p with wait := { p.wait with issued := true, claims := claims, tile := some j, seq := now + 1 } } else p
theorem claimReady_waits {s : State} {a : VSrc} {lo n : Nat} (h : claimReady s a lo n ≠ .ok ()) : claimReady s a lo n = .error .wait := by
  cases a with
  | vreg v => exact absurd rfl h
  | queue q =>
    rw [claimReady] at h ⊢
    split
    next hall => exact absurd (if_pos hall) h
    · rfl
theorem tileFree_waits {s : State} {j : Nat} (h : tileFree s j ≠ .ok ()) : tileFree s j = .error .wait := by
  rw [tileFree] at h ⊢
  split
  · rfl
  next hno => exact absurd (if_neg hno) h

section
variable {s : State} {k : Nat} (h : s.actor = .strand k)
include h
theorem tmIssue_upd (j : Nat) (a b : VSrc) (n : Nat) : tmIssue s j a b n =
    if (s.strand k).wait.seq = 0 then s.upd k (fun _ => (s.strand k).issues j s.tick (sourceClaims a n ++ sourceClaims b n)) else s := by
  rw [tmIssue, waitOf_strand h]
  by_cases hseq : (s.strand k).wait.seq = 0
  · rw [if_neg (by rw [hseq]; decide), if_pos hseq, setWait_strand h, Strand.issues, if_pos hseq]
    rfl
  · rw [if_pos hseq, if_neg hseq]
theorem tmIssue_becomes (j : Nat) (a b : VSrc) (n : Nat) :
    StrandBecomes s k ((s.strand k).issues j s.tick (sourceClaims a n ++ sourceClaims b n)) (tmIssue s j a b n) := by
  rw [tmIssue_upd h]
  by_cases hseq : (s.strand k).wait.seq = 0
  · rw [if_pos hseq]
    exact becomes_upd s k (fun _ => (s.strand k).issues j s.tick (sourceClaims a n ++ sourceClaims b n))
  · rw [if_neg hseq, Strand.issues, if_neg hseq]
    exact ⟨rfl, fun _ _ => rfl, rfl⟩
theorem tmIssue_block (j : Nat) (a b : VSrc) (n : Nat) :
    let q := (s.strand k).issues j s.tick (sourceClaims a n ++ sourceClaims b n)
    StrandBecomes s k { q with wait := { q.wait with blocked := true } } (tmIssue s j a b n).block := by
  have hissue := tmIssue_becomes h j a b n
  have hblock := block_strand (s := tmIssue s j a b n) ((congrArg State.actor hissue.2.2 :).trans h)
  rw [hissue.1] at hblock
  exact hissue.trans hblock
theorem tmTrap_strand (t : TrapInfo) : tmTrap s t =
    raise (s.upd k (fun p => { p with vstart := if t.cause = .memPoison ∧ t.addr.toNat < 4 then 0 else BitVec.ofNat 13 t.elem })) t := by
  rw [tmTrap, State.updMe, State.key_strand h]
end

/-- A container that fails names its operand, which no accumulator does. -/
theorem partCheck_trap {s : State} {f : TmFmt} {a : VSrc} {c p : Nat} {idx : List Nat} {x : TrapInfo} (hx : partCheck s f a c p idx = .error (.trap x)) :
    ¬(x.cause = .memPoison ∧ x.addr.toNat < 4) := by
  rw [partCheck] at hx
  split at hx
  · nomatch hx
  next i _ =>
    obtain rfl := Stop.trap.inj (Except.error.inj hx)
    rintro ⟨hcause, haddr⟩
    cases a with
    | vreg v =>
      simp only [tmBad, Bool.false_eq_true, if_false] at hcause
      nomatch hcause
    | queue q =>
      have hcode : 24 ≤ queueCode q ∧ queueCode q < 64 := by
        cases q <;> simp only [queueCode] <;> omega
      simp only [tmCode, BitVec.toNat_ofNat] at haddr
      omega
theorem stepCheck_trap {s : State} {f : TmFmt} {a b : VSrc} {ca cb : Nat} {rp : BitVec 3} {x : TrapInfo} (hx : stepCheck s f a b ca cb rp = .error (.trap x)) :
    ¬(x.cause = .memPoison ∧ x.addr.toNat < 4) := by
  have either {m n : Except Stop Unit} (hmn : (do m; n) = .error (.trap x)) : m = .error (.trap x) ∨ n = .error (.trap x) := by
    cases m with
    | error e => exact .inl (by simpa [bind, Except.bind] using hmn)
    | ok v => exact .inr hmn
  rw [stepCheck] at hx
  rcases either hx with hx | hx
  · exact partCheck_trap hx
  rcases either hx with hx | hx
  · exact partCheck_trap hx
  split at hx
  · rcases either hx with hx | hx <;> exact partCheck_trap hx
  · nomatch hx

/-! ## tmop after its checks -/

/-- The claims of a tmop whose slots may fault, have landed, and whose tile is free. -/
def tmReady (s : State) (a b : VSrc) (cb n j : Nat) : Except Stop Unit := do
  claimFault s a 0 n
  claimFault s b cb n
  claimReady s a 0 n
  claimReady s b cb n
  tileFree s j
section
variable {s : State} {a b : VSrc} {cb n j : Nat}
theorem tmReady_faults {x : TrapInfo} (ha : claimFault s a 0 n = .error (.trap x)) : tmReady s a b cb n j = .error (.trap x) := by
  rw [tmReady, ha]; rfl
variable (ha : claimFault s a 0 n = .ok ()) (hb : claimFault s b cb n = .ok ())
include ha hb
theorem tmReady_ok (hra : claimReady s a 0 n = .ok ()) (hrb : claimReady s b cb n = .ok ()) (hj : tileFree s j = .ok ()) : tmReady s a b cb n j = .ok () := by
  rw [tmReady, ha, hb, hra, hrb, hj]; rfl
theorem tmReady_waits (hno : ¬(claimReady s a 0 n = .ok () ∧ claimReady s b cb n = .ok () ∧ tileFree s j = .ok ())) : tmReady s a b cb n j = .error .wait := by
  rw [tmReady, check_ok ha, check_ok hb]
  by_cases hra : claimReady s a 0 n = .ok ()
  · rw [check_ok hra]
    by_cases hrb : claimReady s b cb n = .ok ()
    · rw [check_ok hrb, tileFree_waits fun hj => hno ⟨hra, hrb, hj⟩]
    · rw [check_error (claimReady_waits hrb)]
  · rw [check_error (claimReady_waits hra)]
end

/-- What a tmop does once its slots have landed. -/
def tmPerform (s : State) (j : Nat) (acc : BitVec 2) (f : TmFmt) (sub sat : Bool) (a b : VSrc) (cb : Nat) (rp : BitVec 3) : State :=
  match tmStep s j acc f sub sat a b 0 cb rp with
  | .error t => tmTrap s t
  | .ok s' => vdone (tmPop s' a b (tmParts f))

section
variable {s : State} {k : Nat} (h : s.actor = .strand k) {acc : BitVec 2} {f : TmFmt} {src : TmSrc} {rp : BitVec 3} {sub sat : Bool} {w : Word} {j : Nat}
  (hw : wTmop acc f src rp sub sat = w) (hc : tmChecks s acc f (tmPair src).1 (tmPair src).2 (tmParts f) w = .ok j)
include h hw hc
theorem tmop_nothing (hvl : (s.strand k).vl = 0) : exec (.tmop acc f src rp sub sat) s = .next (vdone s) := by
  rw [exec_tmop, execTmop, hw, hc]
  simp only []
  rw [if_pos (by rw [vl_strand h, hvl]; rfl)]
variable (hvl : (s.strand k).vl ≠ 0)
include hvl
theorem tmop_checked : exec (.tmop acc f src rp sub sat) s = .next (
    match tmReady s (tmPair src).1 (tmPair src).2 (claimBase (tmPair src).1 (tmPair src).2 (tmParts f)) (tmParts f) j with
    | .error (.trap t) => raise s t
    | .error .wait => (tmIssue s j (tmPair src).1 (tmPair src).2 (tmParts f)).block
    | .ok _ => tmPerform s j acc f sub sat (tmPair src).1 (tmPair src).2 (claimBase (tmPair src).1 (tmPair src).2 (tmParts f)) rp) := by
  have hpos : ¬s.vl = 0 := by
    rw [vl_strand h]
    exact fun h0 => hvl (BitVec.eq_of_toNat_eq h0)
  rw [exec_tmop, execTmop, hw, hc]
  simp only []
  rw [if_neg hpos]
  rfl
end

end Sys2Proof.Machine
end

section
/-! PROOFS. The multi-step tmop (R259 to R261). -/

namespace Sys2Proof.Machine
open Sys2Proof

/-! ## The multi-step form (R259 to R261) -/

theorem stepNumber (t : BitVec 32) {n : Nat} (hn : n < 2 ^ 16) :
    ((t.extractLsb' 16 16 : BitVec 16) ++ BitVec.ofNat 16 n : BitVec 32) = (t &&& 0xFFFF0000) ||| BitVec.ofNat 32 n := by
  have hmask : ∀ i < 32, (0xFFFF0000 : BitVec 32).getLsbD i = decide (16 ≤ i) := by decide
  refine BitVec.eq_of_getLsbD_eq fun i hi => ?_
  rw [BitVec.getLsbD_append, BitVec.getLsbD_or, BitVec.getLsbD_and, BitVec.getLsbD_extractLsb', BitVec.getLsbD_ofNat, BitVec.getLsbD_ofNat, hmask i hi]
  by_cases hlow : i < 16
  · simp [hlow, hi, Nat.not_le.2 hlow]
  · have hzero : n.testBit i = false := Nat.testBit_lt_two_pow (hn.trans_le (Nat.pow_le_pow_right (by decide) (Nat.not_lt.1 hlow)))
    simp [hlow, hi, hzero, Nat.not_lt.1 hlow, show i - 16 < 16 by omega, show 16 + (i - 16) = i by omega]
section
variable {s : State} {k : Nat} (h : s.actor = .strand k)
include h
theorem setStep_strand {n : Nat} (hn : n < 2 ^ 16) :
    setStep s n = s.upd k (fun r => { r with tstep := (r.tstep &&& 0xFFFF0000) ||| BitVec.ofNat 32 n }) := by
  rw [setStep, State.updMe, State.key_strand h]
  exact congrArg (s.upd k) (funext fun r => by rw [stepNumber r.tstep hn])
theorem setStep_zero : setStep s 0 = s.upd k (fun r => { r with tstep := r.tstep &&& 0xFFFF0000 }) := by
  rw [setStep_strand h (by decide)]
  exact congrArg (s.upd k) (funext fun r => by rw [show BitVec.ofNat 32 0 = 0#32 from rfl, BitVec.or_zero])
end

/-- The slots of one step of a tmop and its tile, in state q. -/
def stepReady (q : State) (a b : VSrc) (ca cb n j : Nat) : Except Stop Unit := do
  claimReady q a ca n
  claimReady q b cb n
  tileFree q j
theorem stepReady_ok {q : State} {a b : VSrc} {ca cb n j : Nat} (hra : claimReady q a ca n = .ok ()) (hrb : claimReady q b cb n = .ok ())
    (hj : tileFree q j = .ok ()) : stepReady q a b ca cb n j = .ok () := by
  rw [stepReady, hra, hrb, hj]; rfl
theorem stepReady_waits {q : State} {a b : VSrc} {ca cb n j : Nat} (hno : ¬(claimReady q a ca n = .ok () ∧ claimReady q b cb n = .ok () ∧ tileFree q j = .ok ())) :
    stepReady q a b ca cb n j = .error .wait := by
  rw [stepReady]
  by_cases hra : claimReady q a ca n = .ok ()
  · rw [check_ok hra]
    by_cases hrb : claimReady q b cb n = .ok ()
    · rw [check_ok hrb, tileFree_waits fun hj => hno ⟨hra, hrb, hj⟩]
    · rw [check_error (claimReady_waits hrb)]
  · rw [check_error (claimReady_waits hra)]
/-- Both queues' claims are reserved. -/
def claimsFault (s : State) (a b : VSrc) (cb n : Nat) : Except Stop Unit := do
  claimFault s a 0 n
  claimFault s b cb n
/-- Step i of nsteps of a multi-step tmop, in state q, once its slots have landed. -/
def tmPerformStep (q : State) (j : Nat) (acc : BitVec 2) (f : TmFmt) (sub sat : Bool) (a b : VSrc) (cb n i nsteps : Nat) (rp : BitVec 3) : State :=
  match tmStep q j acc f sub sat a b (tmParts f * i) (cb + tmParts f * i) rp with
  | .error t => tmTrap q t
  | .ok s' => if i + 1 = nsteps then vdone (setStep (tmPop s' a b n) 0) else setStep s' (i + 1)

section
variable {s : State} {k : Nat} (h : s.actor = .strand k) {acc : BitVec 2} {f : TmFmt} {va vb : Queue} {rp : BitVec 3} {sub sat : Bool} {w : Word} {j nsteps i : Nat}
  (hn : nsteps = ((s.strand k).tstep.extractLsb' 16 16 : BitVec 16).toNat) (hi : i = ((s.strand k).tstep.extractLsb' 0 16 : BitVec 16).toNat)
  (hw : wTmopMs acc f va vb rp sub sat = w) (hc : tmChecks s acc f (.queue va) (.queue vb) (nsteps * tmParts f) w = .ok j)
include h hn hi hw hc
theorem tmopMs_nothing (hdone : (s.strand k).vl = 0 ∨ nsteps ≤ i) : exec (.tmopMs acc f va vb rp sub sat) s = .next (vdone (setStep s 0)) := by
  subst hn hi
  rw [exec_tmopMs, execTmopMs, State.me_strand h, hw]
  simp only [hc]
  rw [if_pos (hdone.imp_left fun h0 => by rw [vl_strand h, h0]; rfl)]
theorem tmopMs_checked (hvl : (s.strand k).vl ≠ 0) (hmore : i < nsteps) : exec (.tmopMs acc f va vb rp sub sat) s = .next (
    match claimsFault s (.queue va) (.queue vb) (claimBase (.queue va) (.queue vb) (nsteps * tmParts f)) (nsteps * tmParts f) with
    | .error (.trap t) => raise s t
    | .error .wait => s.block
    | .ok _ =>
      match stepReady (tmIssue s j (.queue va) (.queue vb) (nsteps * tmParts f)) (.queue va) (.queue vb) (tmParts f * i)
          (claimBase (.queue va) (.queue vb) (nsteps * tmParts f) + tmParts f * i) (tmParts f) j with
      | .error (.trap t) => raise (tmIssue s j (.queue va) (.queue vb) (nsteps * tmParts f)) t
      | .error .wait => (tmIssue s j (.queue va) (.queue vb) (nsteps * tmParts f)).block
      | .ok _ => tmPerformStep (tmIssue s j (.queue va) (.queue vb) (nsteps * tmParts f)) j acc f sub sat (.queue va) (.queue vb)
          (claimBase (.queue va) (.queue vb) (nsteps * tmParts f)) (nsteps * tmParts f) i nsteps rp) := by
  have hpos : ¬(s.vl = 0 ∨ nsteps ≤ i) := by
    rw [vl_strand h]
    rintro (h0 | hle)
    · exact hvl (BitVec.eq_of_toNat_eq h0)
    · omega
  subst hn hi
  rw [exec_tmopMs, execTmopMs, State.me_strand h, hw]
  simp only [hc]
  rw [if_neg hpos]
  rfl
end

end Sys2Proof.Machine
end

section
/-! PROOFS. The statement TileProduct. -/

namespace Sys2Proof.Machine
open Sys2Proof

/-- A float format's own value function, by the tests of the format. -/
theorem tmFp_float {f : TmFmt} (hf : f ∈ [TmFmt.f32, .bf16, .f16, .e4m3, .e5m2]) : tmInt f = false ∧ tmGrouped f = false ∧ tmScaled f = false := by
  cases f <;> simp_all [tmInt, tmGrouped, tmScaled]

/-- The registers that the sources of a tmop name. -/
def sourceRegs (src : TmSrc) (n : Nat) : List Nat :=
  match src with
  | .regs x y => (List.range n).map (x.toNat + ·) ++ (List.range n).map (y.toNat + ·)
  | .queues _ _ => []
theorem tmGroups_ok {p : Strand} {src : TmSrc} {n : Nat} (hregs : ∀ r ∈ sourceRegs src n, r < p.window) :
    groupsOk p (tmGroups (tmPair src).1 n ++ tmGroups (tmPair src).2 n) = .ok () := by
  refine groupsOk_ok fun g hg => ?_
  cases src with
  | queues x y => simp [tmPair, tmGroups] at hg
  | regs x y =>
    have hmem : g.2 = 1 ∧ g.1 ∈ sourceRegs (.regs x y) n := by
      simp only [tmPair, tmGroups, List.mem_append, List.mem_flatMap, List.mem_range, List.mem_singleton] at hg
      simp only [sourceRegs, List.mem_append, List.mem_map, List.mem_range]
      rcases hg with ⟨i, hi, rfl⟩ | ⟨i, hi, rfl⟩
      · exact ⟨rfl, .inl ⟨i, hi, rfl⟩⟩
      · exact ⟨rfl, .inr ⟨i, hi, rfl⟩⟩
    rw [hmem.1]
    exact ⟨Nat.mod_one _, hregs _ hmem.2⟩
/-- The tile of a tmop is free unless it is being zeroed or a tmop of another strand that issued before names it. -/
theorem tileFree_iff {s : State} {k : Nat} (h : s.actor = .strand k) {j : Nat} : tileFree s j = .ok () ↔ ¬TileHeld s k j :=
  ⟨fun hfree hheld => (nomatch hfree.symm.trans (tileFree_held h hheld)), tileFree_free h⟩

section
variable {s : State} {k : Nat} (h : s.actor = .strand k) {j : Nat} {acc : BitVec 2} {f : TmFmt} {sub sat : Bool} {a b : VSrc} {rp : BitVec 3}
include h
/-- A step that adds its products pops its slots and is through. -/
theorem tmPerform_adds {cb : Nat} (hok : stepCheck s f a b 0 cb rp = .ok ()) (hno : stepSkipped s f a b 0 cb = false) (hnone : stepPoison s (s.tile j) rp = none) :
    tmPerform s j acc f sub sat a b cb rp =
      vdone (tmPop (stepped s j k (stepRows s f sub sat a b 0 cb rp (s.tile j)).1 (stepRows s f sub sat a b 0 cb rp (s.tile j)).2) a b (tmParts f)) := by
  rw [tmPerform, tmStep_adds hok hno hnone, State.updMe, State.key_strand (s := s.setTile j _) h]
  rfl
omit h in
theorem tileFree_quiet : tileFree s j = .ok () ↔ (s.tile j).busy = false ∧ tileTaken s j = false := by
  rw [tileFree]
  cases (s.tile j).busy <;> cases tileTaken s j <;> simp
/-- A step of the multi-step form that succeeds goes on to the next one, or pops all slots and leaves STEP 0. -/
theorem tmPerformStep_ok {cb n i nsteps : Nat} {u : State} (hi : i + 1 < 2 ^ 16)
    (hu : tmStep s j acc f sub sat a b (tmParts f * i) (cb + tmParts f * i) rp = .ok u) (hk : u.actor = s.actor) :
    tmPerformStep s j acc f sub sat a b cb n i nsteps rp =
      if i + 1 = nsteps then vdone ((tmPop u a b n).upd k (fun r => { r with tstep := r.tstep &&& 0xFFFF0000 }))
      else u.upd k (fun r => { r with tstep := (r.tstep &&& 0xFFFF0000) ||| BitVec.ofNat 32 (i + 1) }) := by
  have hactor : u.actor = .strand k := hk.trans h
  rw [tmPerformStep, hu, ← setStep_strand hactor hi, ← setStep_zero ((tmPop_actor ..).trans hactor)]
end

/-- Settles O36: the instruction by the outcomes of its checks, with the rows of a step as the fold of stepRows computes them, and one element by the kind of its format. -/
theorem tileProduct : Obligations.TileProduct := by
  refine ⟨fun s k acc f src va vb rp sub sat w h => ?_, fun f sub sat a b sa sb c hc => ?_⟩
  · intro p a b parts cb done held issued claims regs takes
    have hparts : parts = tmParts f := by cases f <;> rfl
    have hdone (t : State) (ht : t.actor = .strand k) : vdone t = done t := vdone_eq ht
    refine ⟨fun hname => ⟨fun hregs => ?unclaimed, ?unclaimedMs⟩, fun j he hc => ?single, ?multi⟩
    case unclaimed =>
      have hgroups : groupsOk (s.strand k) (tmGroups a (tmParts f) ++ tmGroups b (tmParts f)) = .ok () := by
        rw [← hparts]
        exact tmGroups_ok hregs
      have hcheck := tmChecks_unclaimed h (w := wTmop acc f src rp sub sat) (n := tmParts f) hgroups hname
      exact runs_eq (by rw [exec_tmop, execTmop, hcheck])
    case unclaimedMs =>
      have hgroups : groupsOk (s.strand k) (tmGroups (.queue va) (tmParts f) ++ tmGroups (.queue vb) (tmParts f)) = .ok () :=
        groupsOk_ok fun g hg => by simp [tmGroups] at hg
      exact runs_eq (by rw [exec_tmopMs, execTmopMs, tmChecks_unclaimed h hgroups hname])
    case single =>
      rw [hparts] at hc
      have hw := tmop_word he
      refine ⟨tmChecks_named h hc, fun hvl => runs_eq ((tmop_nothing h hw hc hvl).trans (by rw [hdone s h])), fun hvl => ?_⟩
      have hi := tmop_checked h hw hc hvl
      have hcb : claimBase a b (tmParts f) = cb := by rw [← hparts]
      rw [show claimBase (tmPair src).1 (tmPair src).2 (tmParts f) = cb from hcb] at hi
      refine ⟨fun x hx => ?_, fun hfa hfb => ?_⟩
      · rw [hparts] at hx
        rw [tmReady_faults hx] at hi
        exact runs_eq hi
      rw [hparts] at hfa hfb
      intro ready
      have hheld : tileFree s j = .ok () ↔ ¬held j := by
        rw [tileFree_iff h]
        refine not_congr (or_congr Iff.rfl (exists_congr fun i => ?_))
        simp only [TmopInFlight, and_assoc]
        exact Iff.rfl
      have hready : ready ↔ claimReady s a 0 (tmParts f) = .ok () ∧ claimReady s b cb (tmParts f) = .ok () ∧ tileFree s j = .ok () := by
        rw [← hparts]
        exact and_congr Iff.rfl (and_congr Iff.rfl hheld.symm)
      refine ⟨fun hno => ?waits, fun hyes x hx => ?faults, fun hyes hok => ⟨fun hskip => ?skips, fun hno hpoison => ?poisoned, fun hno hclean => ?adds⟩⟩
      case waits =>
        rw [tmReady_waits hfa hfb (hready.not.1 hno)] at hi
        have hblock := tmIssue_block h j a b (tmParts f)
        have hclaims : sourceClaims a (tmParts f) ++ sourceClaims b (tmParts f) = claims parts := by
          rw [hparts]
          cases src <;> rfl
        rw [hclaims] at hblock
        exact ⟨_, hi, hblock⟩
      all_goals
        obtain ⟨hra, hrb, hj⟩ := hready.1 hyes
        rw [tmReady_ok hfa hfb hra hrb hj] at hi
        replace hi : exec (.tmop acc f src rp sub sat) s = .next (tmPerform s j acc f sub sat a b cb rp) := hi
      case faults =>
        rw [tmPerform, tmStep_faults hx] at hi
        refine runs_eq (hi.trans (congrArg Host.Outcome.next ((tmTrap_strand h x).trans ?_)))
        rw [if_neg (stepCheck_trap hx)]
      case skips =>
        rw [tmPerform, tmStep_skips hok hskip] at hi
        refine runs_eq (hi.trans (congrArg Host.Outcome.next ((hdone _ ((tmPop_actor ..).trans h)).trans ?_)))
        rw [hparts]
      case poisoned =>
        obtain ⟨q, hq⟩ : ∃ q, stepPoison s (s.tile j) rp = some q := by
          refine Option.ne_none_iff_exists'.1 fun hnone => ?_
          obtain ⟨q, hmem, htakes⟩ := hpoison
          exact (stepPoison_none h).1 hnone q hmem htakes
        obtain ⟨hmem, htakes⟩ := stepPoison_some h hq
        rw [tmPerform, tmStep_poisoned hok hno hq] at hi
        refine ⟨q, hmem, htakes, runs_eq (hi.trans (congrArg Host.Outcome.next ((tmTrap_strand h _).trans ?_)))⟩
        have hacc : (acc.zeroExtend 64 : Dword) = BitVec.ofNat 64 acc.toNat := BitVec.eq_of_toNat_eq (by simp)
        have hsmall : (acc.zeroExtend 64 : Dword).toNat < 4 := by
          rw [hacc, BitVec.toNat_ofNat]
          omega
        rw [if_pos ⟨rfl, hsmall⟩, hacc]
      case adds =>
        have hnone := (stepPoison_none h).2 hclean
        rw [tmPerform_adds h hok hno hnone] at hi
        obtain ⟨htile, hothers, hfl, hstrand, hstrands, hrest⟩ := stepDone h a b (tmParts f) j (stepRows s f sub sat a b 0 cb rp (s.tile j)).1
          (stepRows s f sub sat a b 0 cb rp (s.tile j)).2
        refine ⟨_, hi, ?_⟩
        beta_reduce
        intro second elem
        have helem (r c : Nat) : stepAt s f sub sat a b 0 cb r c ((s.tile j).elem r c).toNat = elem r c := by
          simp only [stepAt, secondPart, ← hparts]
          rfl
        have htakes := stepRows_elem h (f := f) (sub := sub) (sat := sat) (a := a) (b := b) (ca := 0) (cb := cb) (rp := rp) (s.tile j)
        have hflags := stepRows_flags h (f := f) (sub := sub) (sat := sat) (a := a) (b := b) (ca := 0) (cb := cb) (rp := rp) (s.tile j)
        simp only [helem] at htakes hflags
        rw [hparts]
        refine ⟨fun r c hr hc => ?_, hothers, ?_, fun n => ?_, hstrand, hstrands, hrest⟩
        · rw [htile]
          exact htakes r c hr
        · rw [htile]
          exact stepRows_keeps (s.tile j)
        · rw [hfl, BitVec.getLsbD_or, Bool.or_eq_true, hflags]
          exact Iff.rfl
    case multi =>
      intro nsteps step n cb fresh j he hc
      have hn : n = nsteps * tmParts f := by rw [← hparts]
      rw [hn] at hc
      have hw := tmopMs_word he
      have hfresh {t : State} (ht : t.actor = .strand k) : vdone (fresh t) = done (fresh t) := hdone _ ht
      refine ⟨fun hnothing => ?_, fun hvl hmore => ?_⟩
      · have hrun := tmopMs_nothing h rfl rfl hw hc hnothing
        rw [setStep_zero h] at hrun
        exact runs_eq (hrun.trans (congrArg Host.Outcome.next (hfresh h)))
      have hrun := tmopMs_checked h rfl rfl hw hc hvl hmore
      rw [← hn] at hrun
      refine ⟨fun x hx => ?_, fun hfa hfb => ?_⟩
      · rw [claimsFault, check_error hx] at hrun
        exact runs_eq hrun
      intro q ca' cb' ready
      have hq : tmIssue s j (.queue va) (.queue vb) n = q := tmIssue_upd h ..
      have hqk : q.actor = .strand k := by
        rw [← hq]
        exact (congrArg State.actor (tmIssue_becomes h j (.queue va) (.queue vb) n).2.2 :).trans h
      have hclaims : claimsFault s (.queue va) (.queue vb) cb n = .ok () := by rw [claimsFault, hfa, hfb]; rfl
      rw [hclaims, hq] at hrun
      have hready : ready ↔ claimReady q (.queue va) ca' parts = .ok () ∧ claimReady q (.queue vb) cb' parts = .ok () ∧ tileFree q j = .ok () :=
        and_congr Iff.rfl (and_congr Iff.rfl tileFree_quiet.symm)
      rw [← hparts] at hrun
      refine ⟨fun hno => ?_, fun hyes u hu hku => ?_⟩
      · rw [stepReady_waits (hready.not.1 hno)] at hrun
        exact runs_eq (hrun.trans (congrArg Host.Outcome.next (block_upd hqk)))
      · obtain ⟨hra, hrb, hj⟩ := hready.1 hyes
        rw [stepReady_ok hra hrb hj] at hrun
        have hstep : step + 1 < 2 ^ 16 := by
          have hlast : nsteps < 2 ^ 16 := ((s.strand k).tstep.extractLsb' 16 16 : BitVec 16).isLt
          omega
        rw [show ca' = tmParts f * step by rw [← hparts], show cb' = cb + tmParts f * step by rw [← hparts]] at hu
        have hgo := tmPerformStep_ok hqk (n := n) (nsteps := nsteps) hstep hu (hku.trans (h.trans hqk.symm))
        have hpopped : (tmPop u (.queue va) (.queue vb) n).actor = .strand k := (tmPop_actor ..).trans (hku.trans h)
        rw [hfresh hpopped] at hgo
        exact runs_eq (hrun.trans (congrArg Host.Outcome.next hgo))
  · intro K B x int r signed F va vb cv Sums
    have hK : K = tmCount f := by cases f <;> rfl
    have hB : B = tmBits f := by cases f <;> rfl
    have hx (n i : Nat) : x n i = groupValue f n i := by rw [groupValue, ← hB]
    have hsums (T : List (Bool × Nat × Int)) (hT : SumsTo sat r T) : Sums T := hT
    refine ⟨fun hf => ?int, fun hf => ?float, fun hf => ?scaled, fun hf ra rb pc hra hrb hpc => ?grouped⟩
    case int =>
      have hresult := stepElem_int_result f sub sat a b sa sb c (by rcases hf with rfl | rfl <;> rfl)
      simp only [← hK, ← hB, ← hx] at hresult
      exact hresult
    case grouped =>
      have hresult := stepElem_grouped_sums f sub sat a b sa sb c (by rcases hf with rfl | rfl <;> rfl) (by rcases hf with rfl | rfl <;> rfl)
        (hB ▸ hra) (hB ▸ hrb) hpc
      simp only [← hK, ← hx] at hresult
      exact hresult
    case float =>
      obtain ⟨hi, hg, hs⟩ := tmFp_float hf
      have hF : F = tmFp f := by
        rcases List.mem_cons.1 hf with rfl | hf
        · rfl
        fin_cases hf <;> rfl
      have hva (i : Nat) : va i = leftValue f a i := by rw [leftValue, ← hF, ← hx]
      have hvb (i : Nat) : vb i = leftValue f b i := by rw [leftValue, ← hF, ← hx]
      have hr : r = sumTerms sat (floatTerms f sub a b) c := stepElem_floatTerms sub sat a b sa sb c hi hg hs
      intro bare infinite has nan clash nv
      have hhas (n : Bool) : HasInf cv (floatTerms f sub a b).vals n ↔ has n := by
        rw [floatTerms_inf]
        simp only [← hva, ← hvb, ← hK]
        rfl
      have hnan : TermsNan (floatTerms f sub a b) c ↔ nan := by
        rw [TermsNan, or_comm]
        refine or_congr Iff.rfl ((groupTerms_nan a b).trans ?_)
        simp only [← hva, ← hvb, ← hK]
        rfl
      have hclash : TermsClash (floatTerms f sub a b) c ↔ clash := and_congr (hhas true) (hhas false)
      have hnv : (TermsClash (floatTerms f sub a b) c ∨ (unpack fmt32 c).isSig = true ∨ (floatTerms f sub a b).nv = true) ↔ nv := by
        refine or_congr hclash (or_congr Iff.rfl ((groupTerms_nv a b).trans ?_))
        simp only [← hva, ← hvb, ← hK]
        rfl
      refine ⟨fun hbad => ?_, fun hgood hno n hn => ?_, fun pa pb pc hpc hp => ?_⟩
      · have hres := sumTerms_nan sat _ c (hbad.imp hnan.2 hclash.2)
        rw [← hr, hnv] at hres
        exact hres
      · rw [hr]
        exact sumTerms_inf sat _ c (hgood ∘ hnan.1) (hno ∘ hclash.1) n ((hhas n).2 hn)
      · have hres := stepElem_float_sums sub sat a b sa sb c hi hg hs hpc fun i hi => by
          rw [← hva, ← hvb]
          exact hp i (hK ▸ hi)
        rw [← hK] at hres
        exact hres
    case scaled =>
      have hflags : tmInt f = false ∧ tmGrouped f = false ∧ tmScaled f = true := by rcases hf with rfl | rfl <;> exact ⟨rfl, rfl, rfl⟩
      obtain ⟨hi, hg, hs⟩ := hflags
      have hF : F = tmFp f := by rcases hf with rfl | rfl <;> rfl
      have hva (i : Nat) : va i = leftValue f a i := by rw [leftValue, ← hF, ← hx]
      have hvb (i : Nat) : vb i = leftValue f b i := by rw [leftValue, ← hF, ← hx]
      refine ⟨fun hbad => stepElem_scaled_nan sub sat a b sa sb c hi hg hs ?_, fun pa pb pc hsa hsb hpc hp => ?_⟩
      · simp only [← hva, ← hvb, ← hK]
        exact hbad
      · have hres := stepElem_scaled_sums sub sat a b sa sb c hi hg hs hsa hsb hpc fun i hi => by
          rw [← hva, ← hvb]
          exact hp i (hK ▸ hi)
        simp only [← hK] at hres
        exact hres

end Sys2Proof.Machine
end
